-- ==== Sys2Proof/Word.lean ====
section
/-!
DEFINITION. Bytes, the 64-bit register word (R15) and the place of a field inside it (R10).
-/
namespace Sys2Proof

/-- The smallest addressable unit of the fabric's memories (R34). -/
abbrev Byte := BitVec 8

/-- A control-space slot (R669): a 32-bit register occupies bits [31:0] of it. -/
abbrev Word := BitVec 64

/-- A bit range [hi:lo], inclusive, bit 0 least significant (R10). -/
structure Fld where
  hi : Nat
  lo : Nat
  deriving DecidableEq, Repr

end Sys2Proof
end

