-- ==== Sys2Proof/Packet.lean ====
section
/-!
DEFINITION. The names of chapters 3, 7 and 10 that commands carry: status codes (R387), endpoints (R26), dynamic-plane
opcodes and packets (R103, R106), standpipe messages (R284, R285), and data that comes from outside the block.
-/
namespace Sys2Proof

/-- Status codes (R387). -/
inductive Status where
  | ok | lengthRange | regionFault | ringStale | poisoned | collMismatch | collTimeout | channelClosed
  | spillFull | hostLost | peerUnreachable | reserveTimeout | digestMismatch | tenantViolation
  | formatUnsupported | capacityDropped | retryExhausted | aborted | watchdog | arithFault | badDescriptor
  deriving DecidableEq, Repr

/-- The 8-bit code of a status (R387). -/
def Status.code : Status → Nat
  | .ok => 0x00 | .lengthRange => 0x01 | .regionFault => 0x02 | .ringStale => 0x03 | .poisoned => 0x04
  | .collMismatch => 0x05 | .collTimeout => 0x06 | .channelClosed => 0x07 | .spillFull => 0x08
  | .hostLost => 0x09 | .peerUnreachable => 0x0A | .reserveTimeout => 0x0B | .digestMismatch => 0x0C
  | .tenantViolation => 0x0D | .formatUnsupported => 0x0E | .capacityDropped => 0x0F
  | .retryExhausted => 0x10 | .aborted => 0x11 | .watchdog => 0x12 | .arithFault => 0x13
  | .badDescriptor => 0x14

/-- The status a code names; a code of R387 that is never returned reads as `ST_BAD_DESCRIPTOR`. -/
def Status.ofCode : Nat → Status
  | 0x00 => .ok | 0x01 => .lengthRange | 0x02 => .regionFault | 0x03 => .ringStale | 0x04 => .poisoned
  | 0x05 => .collMismatch | 0x06 => .collTimeout | 0x07 => .channelClosed | 0x08 => .spillFull
  | 0x09 => .hostLost | 0x0A => .peerUnreachable | 0x0B => .reserveTimeout | 0x0C => .digestMismatch
  | 0x0D => .tenantViolation | 0x0E => .formatUnsupported | 0x0F => .capacityDropped
  | 0x10 => .retryExhausted | 0x11 => .aborted | 0x12 => .watchdog | 0x13 => .arithFault
  | _ => .badDescriptor

/-- Success codes (R387): only these two report success. -/
def Status.good (s : Status) : Bool := s == .ok || s == .capacityDropped

/-- An endpoint: package, tile ID of the router, and DEP (R13, R26). -/
structure Ep where
  chip : Nat
  tile : Nat
  dep : Nat
  deriving DecidableEq, Repr

/-- Dynamic-plane opcodes (R106); `bad` is any invalid or reserved code. -/
inductive Opc where
  | rdReq | rdRsp | wr | wrAck | mcWr | atFadd | atSwap | atCas | atRsp | msg | rsvReq | rsvGrant
  | rsvRelease | ctrAdd | redContrib | redResult | sluDispatch | sluCombine | spSpill | mbx
  | csrRd | csrWr | csrRsp | ack | errRsp | bad (code : Nat)
  deriving DecidableEq, Repr

/-- The value of OPC (R106). -/
def Opc.code : Opc → Nat
  | .rdReq => 0x01 | .rdRsp => 0x02 | .wr => 0x03 | .wrAck => 0x04 | .mcWr => 0x05 | .atFadd => 0x06
  | .atSwap => 0x07 | .atCas => 0x08 | .atRsp => 0x09 | .msg => 0x0A | .rsvReq => 0x0B
  | .rsvGrant => 0x0C | .rsvRelease => 0x0D | .ctrAdd => 0x0E | .redContrib => 0x0F
  | .redResult => 0x10 | .sluDispatch => 0x11 | .sluCombine => 0x12 | .spSpill => 0x13 | .mbx => 0x14
  | .csrRd => 0x15 | .csrWr => 0x16 | .csrRsp => 0x17 | .ack => 0x18 | .errRsp => 0x19
  | .bad c => c

/-- A dynamic-plane packet: the header of R103 and the payload. `nbytes` is the length of R105 (of the payload, or of the
data an RD_REQ asks for); HCRC is the code the packet carries. -/
structure Pkt where
  opc : Opc
  src : Ep
  dst : Ep
  tenant : Nat := 0
  prio : Nat := 1
  tag : Nat := 0
  addr : Nat := 0
  nbytes : Nat := 1
  efmt : Nat := 0
  sfmt : Nat := 0
  opid : Nat := 0
  layer : Nat := 0
  poison : Bool := false
  trc : Bool := false
  dclass : Nat := 0
  hcrc : Nat := 0
  data : List Byte := []
  deriving DecidableEq, Repr

/-- A scheduled-plane slot token (R57): PSN, HALF, TENANT and STREAM of a valid beat. -/
structure Token where
  psn : Bool := false
  half : Bool := false
  tenant : Nat
  stream : Nat
  deriving DecidableEq, Repr

/-- A beat and its token (R56, R57): up to 256 bytes. -/
structure Beat where
  tok : Token
  data : List Byte
  deriving DecidableEq, Repr

/-- Standpipe message kinds (R285); `bad` is a reserved kind. -/
inductive SpKind where
  | up | down | downFail | open | close | result | abortReq | abort | slip | freeze | start | bad (code : Nat)
  deriving DecidableEq, Repr

/-- A standpipe message (R284): one to three 64-bit words, word 0 first, and the lengths they are sent with. -/
structure SpMsg where
  words : List Nat
  deriving DecidableEq, Repr

/-- What host memory answers to a read of the HP (R377). -/
inductive HostData where
  | ok (bytes : List Byte)
  | unsupported
  | completerAbort
  | poisoned (bytes : List Byte)
  deriving DecidableEq, Repr

/-- A mailbox command that reads a list from host memory (R409): its function, and what the host answers. -/
structure ListCmd where
  fn : Nat
  list : HostData
  deriving DecidableEq, Repr

/-- A flit as it comes in at a router: the input port, and its index in its packet (R102, R109). -/
structure FlitIn where
  port : Nat
  k : Nat
  deriving DecidableEq, Repr

/-! ### The Ethernet network (chapters 12 and 13) -/

/-- Opcodes of the remote transport (R441); `bad` is every other value. -/
inductive TOpc where
  | write | readReq | readRsp | send | atomic | atomicRsp | relay | ack | close | probe
  | bad (code : Nat)
  deriving DecidableEq, Repr

/-- The value of a transport opcode (R441). -/
def TOpc.code : TOpc → Nat
  | .write => 0x01 | .readReq => 0x02 | .readRsp => 0x03 | .send => 0x04 | .atomic => 0x05 | .atomicRsp => 0x06
  | .relay => 0x07 | .ack => 0x10 | .close => 0x11 | .probe => 0x12
  | .bad c => c

/-- The base header (R440). -/
structure Bth where
  opc : TOpc
  ackreq : Bool := false
  poison : Bool := false
  enc : Bool := false
  kp : Nat := 0
  last : Bool := false
  path : Nat := 0
  dqpn : Nat := 0
  sqpn : Nat := 0
  psn : Nat := 0
  ts : Nat := 0
  msn : Nat := 0
  layer : Nat := 0
  opid : Nat := 0
  txctr : Nat := 0
  deriving DecidableEq, Repr

/-- A transport frame past the MAC (R439): addresses and ports, the congestion mark, whether its UDP checksum is right, the base header, then `body`, the extended or ACK
header and the payload (sealed on an encrypted pair), and `check`, the ICRC or the GCM tag. -/
structure Frame where
  srcIp : Nat
  dstIp : Nat
  v6 : Bool := false
  sport : Nat := 0
  dport : Nat := 0x26B6
  ce : Bool := false
  csum : Bool := true
  bth : Bth
  body : List Byte := []
  check : List Byte := []
  deriving DecidableEq, Repr

/-- The other frames a port receives or firmware sends (R489-R491): address resolution with the address asked for, LLDP, a priority flow control frame
that the MAC honours for a class and a time in ns (log 184), and the rest. -/
inductive CtlFrame where
  | arpRequest (ip : Nat) | arpReply (ip : Nat) | neighbourSolicit (ip : Nat) | neighbourAdvert (ip : Nat) | lldp | pfc (cls ns : Nat) | other
  deriving DecidableEq, Repr

/-! ### The lane links (chapter 14) -/

/-- How a block stands on the lanes where it arrives (R496-R498): the IDLE blocks that came since the last block told, each by its columns, and the
columns of 10-bit codes, one code a lane in use; with no columns a block comes as the peer's coder sends it. -/
structure OnLanes where
  idle : List (List (List Nat)) := []
  cols : List (List Nat) := []
  deriving DecidableEq, Repr

/-- A control block (R500): the octet of its kind, SUB, bytes 2-155, the CRC it carries, whether its first character is an invalid code (R530), and how
it stands on the lanes. -/
structure CtlBlock where
  kind : Nat
  sub : Nat := 0
  content : List Byte := []
  crc : Nat := 0
  badCode : Bool := false
  wire : OnLanes := {}
  deriving DecidableEq, Repr

/-- A link flit (R502): bytes 0-151, SEQ, ACKSEQ and the low byte of the trailer, the CRC, whether its first character is an invalid code, and how it
stands on the lanes. -/
structure LinkFlit where
  bytes : List Byte
  seq : Nat
  ack : Nat
  low : Nat := 0
  crc : Nat := 0
  badCode : Bool := false
  wire : OnLanes := {}
  deriving DecidableEq, Repr

/-- A lane as an ALIGN block shows it (R501, R518): whether it locks to the comma, the identity in column 1, inverted polarity, and its lag behind
the earliest lane in characters. -/
structure LaneSeen where
  lock : Bool := false
  id : Nat := 0
  pol : Bool := false
  skew : Nat := 0
  deriving DecidableEq, Repr

/-- An ALIGN block as it arrives: what each lane shows of it, and how it stands on the lanes. -/
structure AlignIn where
  lanes : List LaneSeen
  wire : OnLanes := {}
  deriving DecidableEq, Repr

/-- Where a control-space or BAR0 register access lands (R18, R353, R669). -/
inductive RegTarget where
  | csr (off : Nat)
  | bar0 (fn off : Nat)
  deriving DecidableEq, Repr

/-- The half of a register an access touches (R18). -/
inductive RegHalf where
  | full | low | high
  deriving DecidableEq, Repr

/-- A 32-bit read of a register (R18): its low half, or the high half that is read after it. -/
structure HalfRead where
  reg : RegTarget
  high : Bool
  deriving DecidableEq, Repr

/-- The block windows of control space (R668), which also name the units that hold them. -/
inductive Blk where
  | fab | sec | hp | tel
  | mep (n : Nat) | lp (n : Nat) | rte (n : Nat) | rtr (t : Nat) | tni (t : Nat)
  deriving DecidableEq, Repr

/-! ### Start-up, scrubbing and patterns (chapters 16 and 17) -/

/-- A pattern or lane test that fails (R620, R630): unit, lane (0xFF the whole unit), whether it fails again when run once more, and the SYND of its
record. -/
structure TestFail where
  unit : Nat
  lane : Nat := 0xFF
  again : Bool := true
  synd : Nat := 0
  deriving DecidableEq, Repr

/-- What start-up finds (R592): the device record (its signature, GRADE and good-tile map), the version each FMP image holds when it verifies, whether
the unit history can be read, and the failures of stages 6 and 7. -/
structure BootIn where
  recordOk : Bool := true
  grade : Nat := 0x40
  goodMap : Nat := 0xFFFFFFFFFFFFFFFF
  primary : Option Nat := some 0x010000
  recovery : Option Nat := some 0x010000
  historyOk : Bool := true
  scan : List TestFail := []
  lanes : List TestFail := []
  deriving DecidableEq, Repr

/-- A word a scrub read finds in error (R602, R603): a corrected one of a unit; an uncorrectable one in a data buffer, by what it belongs to; or an
uncorrectable one of a configuration array. -/
inductive ScrubHit where
  | corrected (b : Blk)
  | packet (b : Blk) (p : Pkt)
  | staging (mep n j k : Nat)
  | absorbed (mep i : Nat)
  | ingress (b : Blk) (i : Nat)
  | held (tile port i : Nat)
  | laneIn (lp vc : Nat)
  | replay (lp seq : Nat)
  | frame (rte port c i : Nat)
  | txPacket (rte q psn : Nat)
  | partialSum (tile c half : Nat)
  | xbar (tile bank i : Nat)
  | descriptor (b : Blk) (n : Nat)
  | counter (b : Blk) (n : Nat)
  | trigger (b : Blk) (e : Nat)
  | dslot (b : Blk) (e : Nat)
  | landing (tile l : Nat)
  | relay (b : Blk) (r : Nat)
  | group (gidx : Nat)
  | member (tile gidx : Nat)
  | spNode (tile n : Nat)
  | context (tile c : Nat)
  | channel (tile c : Nat)
  | pair (rte q : Nat)
  | region (rte idx : Nat)
  | inbox (tile s : Nat)
  | sluice (tile o : Nat)
  | ctrlKey (t : Nat)
  | laneKey (t ph : Nat)
  | pairKey (rte n ph : Nat)
  | fmpMem
  | record (seq : Nat)
  | linkFixed (tile out plane : Nat)
  | linkFlit (tile out : Nat) (p : Pkt)
  | linkBeat (tile out : Nat)
  | linkToken (tile out : Nat)
  | other (off : Nat)
  deriving DecidableEq, Repr

/-- The arbiters of R145: a MEP, SRAM port `n` of tile `t`'s TNI, a reduction-unit input, a lane port, an RTE, the HP. -/
inductive Arb where
  | mep (n : Nat) | sp (t n : Nat) | ru (t : Nat) | lp (n : Nat) | rte (n : Nat) | hp
  deriving DecidableEq, Repr

/-- Where a command comes from (R367, R374, R260): the next descriptor of a ring, a descriptor that a tile's control core presents
with its inline data, the first of the descriptors that wait at a tile's interface, or the next command issued by a trigger table. -/
inductive CmdSrc where
  | ring (fn r : Nat)
  | core (tile desc : Nat) (inl : List Byte)
  | held (tile : Nat)
  | trig (b : Blk)
  deriving DecidableEq, Repr

/-- What an endpoint marks a transfer as (R159): the read and write grain of an atomic, a message-channel descriptor write with its
queue-pointer update, an RTE's descriptor bundle, a host command descriptor with its inline data, or none of these. -/
inductive SeqKind where
  | plain | atomic | channel | bundle | command
  deriving DecidableEq, Repr

/-- A request presented to an arbiter (R146, R152): requester 0–127, an identity, its grain count of 1 to 32, whether its next grain is
ready, what sequence it is, its class (a phase class at a lane port, 7 for none; an Ethernet class at an RTE), its priority, and for the watchdog the
packet that the transfer carries out, or else the started command it belongs to with its TAG, OPC, LAYER and OPID. -/
structure ArbReq where
  who : Nat
  id : Nat
  grains : Nat
  ready : Bool := true
  kind : SeqKind := .plain
  cls : Nat := 7
  prio : Nat := 1
  pkt : Option Pkt := none
  cmd : Nat := 0
  tag : Nat := 0
  opc : Nat := 0
  layer : Nat := 0
  opid : Nat := 0
  deriving DecidableEq, Repr

end Sys2Proof
end

