-- ==== Sys2Proof/Syntax.lean ====
section
/-!
DEFINITION. The commands of the block: one constructor per row of spec/opcode_table.json, with the operands a sender gives
it. What happens inside the block is found in the state; an operand names a place (a unit, a tenant, a ring), carries what
arrives from outside (a packet, a message, a block, host data), or both.
-/
namespace Sys2Proof

/-- The commands (spec/opcode_table.json, row by row). -/
inductive Instr where
  | registerWrite (t : RegTarget) (h : RegHalf) (v : Nat)
  | lowHalfRead (r : HalfRead)
  | csrWr (p : Pkt)
  | csrRd (p : Pkt)
  | csrRsp (p : Pkt)
  | fabPkgInfoWrite (v : Nat)
  | twinMapWrite (v : Nat)
  | phaseOwnerWrite (tile port : Nat) (hi : Bool) (v : Nat)
  | mepDescOwnerWrite (mep k v : Nat)
  | streamDescWrite (b : Blk) (slot v : Nat)
  | schArm (t time : Nat)
  | schDisarm (t : Nat)
  | schArmCheckDone (t : Nat)
  | schTakeover (t : Nat)
  | schStart (t : Nat)
  | scheduledBeatArrival (tile port : Nat) (b : Option Beat)
  | streamBeatInject (b : Blk) (n j k : Nat) (array : List Byte)
  | streamBeatExtract (b : Blk) (n j k : Nat)
  | mepStageReadIssue (mep n j k : Nat)
  | mepStackReadDone (mep n j k : Nat) (psn : Bool)
  | mepAbsorbWrite (mep : Nat)
  | schedIngressBeat (b : Blk) (ch : Nat)
  | lpSbindWrite (lp b : Nat)
  | rteSbindWrite (rte b : Nat)
  | ruSchedBeat (tile ctx : Nat)
  | slipAssert (t tile : Nat)
  | slip (m : SpMsg)
  | freezeQuantumStart (t : Nat)
  | freezeQuantumEnd (t : Nat)
  | slipLimitStop (t : Nat)
  | requestSend (id : Nat)
  | routerFlitArrival (tile port : Nat) (p : Pkt) (k : Nat)
  | rdReq (p : Pkt) (host : HostData)
  | rdRsp (p : Pkt)
  | wr (p : Pkt)
  | wrAck (p : Pkt)
  | mcWr (tile : Nat) (f : FlitIn) (p : Pkt)
  | atFadd (p : Pkt)
  | atSwap (p : Pkt)
  | atCas (p : Pkt)
  | atRsp (p : Pkt)
  | msg (p : Pkt)
  | rsvReq (p : Pkt)
  | rsvGrant (p : Pkt)
  | rsvRelease (p : Pkt)
  | cisternGrant (ep : Ep)
  | mcastEligible (ep : Ep)
  | rsvTimeout (ep : Ep) (rec_ : Nat)
  | responseTimeout (ep : Ep) (tag : Nat)
  | tagQuarantineEnd (ep : Ep) (tag : Nat)
  | leaseExpire (ep : Ep) (rec_ : Nat)
  | ctrAdd (p : Pkt)
  | redContrib (p : Pkt)
  | redResult (p : Pkt)
  | spSpill (tile : Nat) (src : Ep) (m : SpMsg)
  | mbx (p : Pkt)
  | ack (p : Pkt)
  | errRsp (p : Pkt)
  | arbiterCycle (a : Arb) (reqs : List ArbReq) (accept : Bool)
  | creditRefill (a : Arb)
  | transferPark (a : Arb)
  | watchdogBite (a : Arb)
  | arbStarvation (a : Arb) (r : Nat)
  | starvationPolicy (a : Arb) (r : Nat)
  | weightRestore (a : Arb) (r : Nat)
  | arbArm (a : Arb) (time : Nat)
  | arbDisarm (a : Arb)
  | arbArmCheckDone (a : Arb)
  | slotTableSwitch (a : Arb)
  | shaperRefill (a : Arb) (r : Nat)
  | shaperEnable (a : Arb) (r v : Nat)
  | gateArm (b : Blk) (time : Nat)
  | gateDisarm (b : Blk)
  | gateArmCheckDone (b : Blk)
  | gateTakeover (b : Blk)
  | gateEntryAdvance (b : Blk)
  | redCtxEnable (tile c a b : Nat)
  | redCtxDisable (tile c v : Nat)
  | redEmit (tile c : Nat)
  | redEmitTimer (tile c : Nat)
  | stepTimeout (tile c : Nat)
  | shadowWindow (tile n : Nat)
  | shadowMismatch (tile c lane a b first spare : Nat)
  | shadowRecomputeDone (tile lane spare voter : Nat)
  | triggerArm (b : Blk) (e v : Nat)
  | triggerDisarm (b : Blk) (e v : Nat)
  | triggerFire (b : Blk)
  | collective (src : CmdSrc)
  | memberTimeout (tile gidx : Nat)
  | up (src : Ep) (m : SpMsg)
  | down (m : SpMsg)
  | downFail (m : SpMsg)
  | open_ (m : SpMsg)
  | close (m : SpMsg)
  | result (m : SpMsg)
  | abortReq (m : SpMsg)
  | abort (m : SpMsg)
  | freeze (m : SpMsg)
  | start (m : SpMsg)
  | spSpillReadback (tile : Nat)
  | sluiceDispatch (src : CmdSrc)
  | sluiceReturn (src : CmdSrc)
  | sluiceCombine (src : CmdSrc)
  | claim (p : Pkt)
  | homeAdmission (tile : Nat) (slots : List Nat) (round : Nat)
  | assign (p : Pkt)
  | rows (p : Pkt)
  | return_ (p : Pkt)
  | sluiceTimeout (tile gidx : Nat)
  | inboxEnable (tile slot a b : Nat)
  | inboxDisable (tile slot v : Nat)
  | send (src : CmdSrc)
  | ringWrite (tile c : Nat)
  | spillWriteTimeout (tile c k : Nat)
  | refillRead (tile c : Nat)
  | handlerDispatch (tile : Nat)
  | retire (tile c n : Nat)
  | channelCoreClose (tile c : Nat)
  | reopen (tile c : Nat)
  | channelCoreReset (tile c : Nat)
  | strayAccess (fn off : Nat) (isWrite : Bool)
  | crDoorbell (fn r v : Nat)
  | cqDoorbell (fn r v : Nat)
  | descriptorFetch (fn r : Nat) (d : HostData)
  | descriptorReread (fn r : Nat) (d : HostData)
  | nop (src : CmdSrc)
  | copy (src : CmdSrc)
  | writeInline (src : CmdSrc)
  | atomic (src : CmdSrc)
  | mcastWrite (src : CmdSrc)
  | contrib (src : CmdSrc)
  | ctrAddCommand (src : CmdSrc)
  | commandComplete (id : Nat)
  | functionLevelReset (fn : Nat)
  | hostLinkDown
  | hostLinkDrainDone
  | hostLinkUp
  | errlogRead (fn : Nat)
  | soundingTake (fn : Nat) (noresp : List Nat)
  | soundingPageRead (fn : Nat)
  | counterFreeze (fn : Nat)
  | counterThaw (fn : Nat)
  | fabricReset (fn : Nat)
  | fmpRecover (fn : Nat)
  | domainConfigure (c : ListCmd)
  | timeMeasure (fn : Nat)
  | partitionCreate (fn : Nat) (blk : HostData)
  | partitionDestroy (fn : Nat)
  | zeroFillDone (t : Nat)
  | keyLoad (fn : Nat)
  | keySwitch (fn : Nat)
  | partitionSeal (fn : Nat)
  | hostRecover (fn : Nat)
  | ringCreate (fn : Nat)
  | ringDestroy (fn : Nat)
  | schedLoad (fn : Nat) (list : HostData)
  | schedArm (fn : Nat)
  | schedStop (fn : Nat)
  | groupCreate (fn : Nat) (list : HostData)
  | groupDestroy (fn : Nat)
  | channelOpen (fn : Nat)
  | channelClose (fn : Nat)
  | channelReset (fn : Nat)
  | arbSet (fn : Nat)
  | arbConfigure (fn : Nat) (list : HostData)
  | counterRead (fn : Nat)
  | traceConfigure (fn : Nat) (list : HostData)
  | qpCreate (fn : Nat) (blk : HostData)
  | qpDestroy (fn : Nat)
  | mrRegister (fn : Nat) (blk : HostData)
  | mrDeregister (fn : Nat)
  | patternLoad (fn : Nat) (bundle : HostData)
  | patternRun (fn : Nat) (fails : List TestFail)
  | fmpWatchdogBite
  | heartbeat
  | qpPost (src : CmdSrc)
  | qpOpSend (rte q : Nat)
  | pacedRelease (rte q : Nat)
  | portSelect (rte k : Nat)
  | frameStart (rte k : Nat)
  | underrun (rte k : Nat)
  | startthDecay (rte k : Nat)
  | write (rte k : Nat) (f : Frame)
  | readReq (rte k : Nat) (f : Frame)
  | readRsp (rte k : Nat) (f : Frame)
  | transportSend (rte k : Nat) (f : Frame)
  | transportAtomic (rte k : Nat) (f : Frame)
  | atomicRsp (rte k : Nat) (f : Frame)
  | relay (rte k : Nat) (f : Frame)
  | transportAck (rte k : Nat) (f : Frame)
  | transportClose (rte k : Nat) (f : Frame)
  | probe (rte k : Nat) (f : Frame)
  | ethControlFrame (rte k : Nat) (c : CtlFrame)
  | ackDelayExpire (rte q : Nat)
  | retransmitTimeout (rte q : Nat)
  | rnrRetry (rte q : Nat)
  | pathProbe (rte q : Nat)
  | closeResend (rte q : Nat)
  | ethPortDown (rte k : Nat)
  | ethPortUp (rte k : Nat)
  | lpiEnter (rte k : Nat)
  | lpiWake (rte k : Nat)
  | eeeTlvExchange (rte k : Nat) (peer : Option Nat) (mac : Nat)
  | macReset (rte k : Nat)
  | laneBlockSend (lp vc : Nat)
  | linkFlit (lp : Nat) (f : LinkFlit)
  | align (lp : Nat) (b : AlignIn)
  | ts (lp : Nat) (b : CtlBlock)
  | sp (lp : Nat) (b : CtlBlock)
  | retry (lp : Nat) (b : CtlBlock)
  | ctl (lp : Nat) (b : CtlBlock)
  | tag (lp : Nat) (b : CtlBlock)
  | quiet (lp : Nat) (b : CtlBlock)
  | deep (lp : Nat) (b : CtlBlock)
  | linkRetryTimeout (lp : Nat)
  | laneRecoveryFail (lp : Nat)
  | peerClockDetect (lp : Nat)
  | detectTimeout (lp : Nat)
  | alignDone (lp : Nat)
  | eqDone (lp bad : Nat) (ctle : List Nat)
  | configRetry (lp : Nat)
  | quietEnter (lp : Nat)
  | quietExit (lp : Nat)
  | deepEnter (lp : Nat)
  | deepWake (lp : Nat) (peer : Bool)
  | lanePeerLoss (lp : Nat) (clock : Bool)
  | lanePortCfgWrite (lp off v : Nat)
  | prbs (lp v : Nat) (errs : List Nat)
  | neslb (lp v : Nat)
  | neplb (lp v : Nat)
  | felb (lp v : Nat) (errs : List Nat)
  | testModeOff (lp v : Nat)
  | inj (lp v : Nat)
  | injcrc (lp v : Nat)
  | injcode (lp v : Nat)
  | injsp (lp v : Nat)
  | scrubFillDone (mep i : Nat)
  | porstRelease (inp : BootIn)
  | porstAssert
  | pllLock
  | hbmControllersReady
  | clockLoss
  | rootPllRelock
  | domainResetDone (lp : Option Nat)
  | hbmControllerReset (mep : Nat) (taken : List Pkt)
  | undervoltage
  | sensorSample (site temp volt : Nat)
  | thermalTrip (site : Nat)
  | fabricIdleEnter
  | wakeLatch (src : Nat)
  | wake (v : Nat)
  | configScrub (hit : ScrubHit)
  | coreClear (tile : Nat)
  | injectionArm (off v : Nat)
  | transHalving
  | freezeApply
  | traceFlush (unit well : Nat)
  | pcSample (tile pc stall : Nat)
  | watchRoundClose (tile k : Nat)
  | watchReadbackDone (tile k : Nat)
  | refclkLoss
  | refclkReturn
  | hbmControllerResetEnd (mep : Nat)
  | memoryStageTimeout
  | reportQueueRelease (fn v : Nat)
  | msiXVectorUnmask (fn vec : Nat)
  deriving DecidableEq, Repr

end Sys2Proof
end

