-- ==== Sys2Proof/Config.lean ====
section
/-!
DEFINITION. Values that the spec leaves open or keeps secret: constants without a body, so that no proof can see what they
are. Free values (log 8, DESIGN CHOICE) are applied to a counter held in the state; the cryptographic functions (log 7, DEDUCED) stand for the
published algorithms that chapter 15 names, applied to keys the fabric never shows.
-/
namespace Sys2Proof.Config

/-- The n-th free byte at an address (R279, R433, R458, R578: contents the manual leaves undefined). -/
opaque freeByte : Nat → Nat → Byte

/-- The n-th free 64-bit value: the random draws of R655 and R657, and DETAIL values no rule states. -/
opaque freeWord : Nat → Word

/-- The ordinal of the completion record that stands for a free choice among `k` (an order no rule gives). -/
opaque freeChoice : Nat → Nat → Nat

/-- The rank of a member tile of another package in a group (GROUP, EPOCH): the plan's order, which R305 needs at a home and no register of
this package holds (log 25, DEDUCED). -/
opaque memberRank : Nat → Nat → Nat → Nat → Nat

/-- Does a package of the torus hold members of a tenant's group (GROUP, EPOCH)? The plan knows; no register of this package does (R282, log 23,
DEDUCED). -/
opaque groupChip : Nat → Nat → Nat → Nat → Bool

/-- A byte of host memory as an engine of the fabric reads it, by host function, I/O virtual address and cycle, and whether the host's answer is
poisoned (R34, R377): what stands there is the host's (log 150, DESIGN CHOICE). -/
opaque hostByte : Nat → Nat → Nat → Byte
opaque hostPoison : Nat → Nat → Nat → Bool

/-- The virtual-channel sizes that firmware gives a lane port for its cable (R511): LP_VC_CFG, eight sizes in units of 8 flits (log 153, DESIGN
CHOICE). -/
opaque vcSizing : Nat → Word

/-- AES-256-GCM opening (R555, R556, R461): the plaintext for key, nonce, header and sealed bytes; `none` when the tag fails. -/
opaque gcmOpen : Nat → List Byte → List Byte → List Byte → Option (List Byte)

/-- AES-256-GCM sealing (R555, R461): ciphertext and tag. -/
opaque gcmSeal : Nat → List Byte → List Byte → List Byte → List Byte

/-- The device's key agreement and derivation (R551, R553): the shared secret for a peer's public point and a label. -/
opaque deriveKey : List Byte → List Byte → Nat

/-- The device key's signature over a byte string (R554). -/
opaque sign : List Byte → List Byte

/-- Verification of a signature by one of the device's root keys (R583, R592, R629). -/
opaque verify : List Byte → List Byte → Bool

/-- SHA-384 (R554, R592). -/
opaque sha384 : List Byte → List Byte

/-- Byte i of the body of a sounding section whose bytes no rule places (R662): by unit kind and the values that the section shows (log 69, DESIGN
CHOICE). -/
opaque soundByte : Nat → List Nat → Nat → Byte

end Sys2Proof.Config
end

