-- ==== Sys2Proof/Machine/Bits.lean ====
section
/-!
DEFINITION. Reading and writing bit ranges, little-endian byte strings (R15, R102), and the sparse tables
that hold registers, memory and engine records in one canonical form.
-/
namespace Sys2Proof.Machine

/-- Bits [hi:lo] of a number. -/
def bits (n hi lo : Nat) : Nat := n / 2 ^ lo % 2 ^ (hi + 1 - lo)

/-- Bit `i` of a number. -/
def bit (n i : Nat) : Bool := n / 2 ^ i % 2 == 1

/-- A number with bits [hi:lo] replaced by the low bits of `v`. -/
def putBits (n hi lo v : Nat) : Nat :=
  n % 2 ^ lo + v % 2 ^ (hi + 1 - lo) * 2 ^ lo + n / 2 ^ (hi + 1) * 2 ^ (hi + 1)

/-- The value of a register field. -/
def getF (w : Word) (f : Fld) : Nat := bits w.toNat f.hi f.lo

/-- A register word with one field replaced; a value too wide for the field keeps its low bits. -/
def setF (w : Word) (f : Fld) (v : Nat) : Word := BitVec.ofNat 64 (putBits w.toNat f.hi f.lo v)

/-- The width of a field. -/
def fldWidth (f : Fld) : Nat := f.hi + 1 - f.lo

/-- A field increased by `n`, wrapping at its width. -/
def addF (w : Word) (f : Fld) (n : Nat) : Word := setF w f (getF w f + n)

/-- 1 for true, 0 for false. -/
def b2n (b : Bool) : Nat := if b then 1 else 0

/-- Round up to whole units. -/
def ceilDiv (n d : Nat) : Nat := (n + d - 1) / d

/-- The `n` low bytes of a number, least significant first. -/
def toLE : Nat → Nat → List Byte
  | 0, _ => []
  | n + 1, v => BitVec.ofNat 8 v :: toLE n (v / 256)

/-- The number whose bytes, least significant first, are the list. -/
def ofLE : List Byte → Nat
  | [] => 0
  | b :: r => b.toNat + 256 * ofLE r

/-- `n` bytes from position `i` of a byte string, zero beyond its end. -/
def slice (bs : List Byte) (i n : Nat) : List Byte :=
  (List.range n).map fun k => bs.getD (i + k) 0

/-- Bytes [i, i + |new|) of a byte string replaced. -/
def splice (bs : List Byte) (i : Nat) (new : List Byte) : List Byte :=
  bs.take i ++ new ++ bs.drop (i + new.length)

/-- The signed value of an `n`-bit number. -/
def signed (n v : Nat) : Int := if v % 2 ^ n < 2 ^ (n - 1) then (v % 2 ^ n : Int) else (v % 2 ^ n : Int) - (2 ^ n : Int)

/-- The `n`-bit two's complement code of an integer. -/
def unsigned (n : Nat) (z : Int) : Nat := (z % (2 ^ n : Int)).toNat

/-! ### Sparse tables: keys strictly rising, no entry equal to what an unlisted key reads as. -/

/-- The value at a key; an unlisted key reads as `d k`. -/
def tGet {α : Type} (d : Nat → α) (k : Nat) : List (Nat × α) → α
  | [] => d k
  | e :: r => if e.1 = k then e.2 else tGet d k r

/-- The table with the value at a key replaced, in canonical form. -/
def tSet {α : Type} [DecidableEq α] (d : Nat → α) (k : Nat) (v : α) : List (Nat × α) → List (Nat × α)
  | [] => if v = d k then [] else [(k, v)]
  | e :: r =>
    if e.1 < k then e :: tSet d k v r
    else if v = d k then (if e.1 = k then r else e :: r)
    else (k, v) :: (if e.1 = k then r else e :: r)

/-- The canonical form: keys strictly rising and above `lo`, no entry that reads as an unlisted key does. -/
def tWfFrom {α : Type} [DecidableEq α] (d : Nat → α) : Nat → List (Nat × α) → Bool
  | _, [] => true
  | lo, e :: r => decide (lo ≤ e.1) && decide (e.2 ≠ d e.1) && tWfFrom d (e.1 + 1) r

/-- A table in canonical form. -/
def tWf {α : Type} [DecidableEq α] (d : Nat → α) (t : List (Nat × α)) : Bool := tWfFrom d 0 t

/-! ### Lists -/

/-- The first entry that satisfies `p` replaced by its image under `f`. -/
def updFirst {α : Type} (p : α → Bool) (f : α → α) : List α → List α
  | [] => []
  | a :: r => if p a then f a :: r else a :: updFirst p f r

/-- The list without its first entry that satisfies `p`. -/
def dropFirst {α : Type} (p : α → Bool) : List α → List α
  | [] => []
  | a :: r => if p a then r else a :: dropFirst p r

/-- A sorted list of distinct numbers with `n` added. -/
def insNat (n : Nat) : List Nat → List Nat
  | [] => [n]
  | a :: r => if n < a then n :: a :: r else if n = a then a :: r else a :: insNat n r

/-- How many ones a number's low `n` bits hold. -/
def popcount : Nat → Nat → Nat
  | 0, _ => 0
  | n + 1, v => v % 2 + popcount n (v / 2)

/-! ### Cyclic redundancy codes -/

/-- One bit of a CRC of width `w`, most significant bit first. -/
def crcBit (w poly c : Nat) (b : Bool) : Nat :=
  let top := bit c (w - 1) != b
  let s := c * 2 % 2 ^ w
  if top then s ^^^ poly else s

/-- A CRC over bits n−1 … 0 of a number, from bit n − 1 down. -/
def crcBits (w poly : Nat) : Nat → Nat → Nat → Nat
  | 0, _, c => c
  | n + 1, v, c => crcBits w poly n v (crcBit w poly c (bit v n))

/-- CRC-16 of the header (R104) over bits [n−1:0] of `v`. -/
def crc16 (n v : Nat) : Nat := crcBits 16 0x1021 n v 0xFFFF

/-- The digest of R276, continued over a byte string: CRC-64 (ECMA-182), not reflected, no final inversion. -/
def crc64 (c : Nat) (bs : List Byte) : Nat := bs.foldl (fun c b => crcBits 64 0x42F0E1EBA9EA3693 8 b.toNat c) c

/-- One bit of a reflected CRC-32 (R444). -/
def crc32Bit (c : Nat) : Nat := if c % 2 = 1 then c / 2 ^^^ 0xEDB88320 else c / 2

/-- Eight bits of a reflected CRC-32. -/
def crc32Byte (c : Nat) (b : Byte) : Nat := (List.range 8).foldl (fun c _ => crc32Bit c) (c ^^^ b.toNat)

/-- The IEEE 802.3 CRC-32 with its initial value, reflection and final inversion (R444). -/
def crc32 (bs : List Byte) : Nat := bs.foldl crc32Byte 0xFFFFFFFF ^^^ 0xFFFFFFFF

/-- The `n` low bytes of a number, most significant first (R439). -/
def toBE (n v : Nat) : List Byte := (toLE n v).reverse

/-- The number whose bytes, most significant first, are the list. -/
def ofBE (bs : List Byte) : Nat := ofLE bs.reverse

/-- a is at or before b on a counter of w bits that wraps (R446). -/
def seqLe (w a b : Nat) : Bool := decide ((b + 2 ^ w - a % 2 ^ w) % 2 ^ w < 2 ^ (w - 1))

end Sys2Proof.Machine
end

