-- ==== Sys2Proof/Machine/Formats.lean ====
section
/-!
DEFINITION. Element formats and compression (chapter 5): exact values of the floating-point formats, narrowing, the wire
modes TRIM16 and BS8, and the sparse encodings BITMAP and S24.
-/
namespace Sys2Proof.Machine

/-- The width in bytes of an element (R188); BS8 and the reserved codes have none of their own. -/
def elemWidth : Nat → Nat
  | 0 => 1 | 1 => 4 | 2 => 2 | 3 => 2 | 4 => 1 | 5 => 1 | 6 => 1 | 7 => 4 | 8 => 4 | 10 => 8
  | _ => 0

/-- Is the format a floating-point one (R188)? -/
def isFloat (efmt : Nat) : Bool := efmt == 1 || efmt == 2 || efmt == 3 || efmt == 4 || efmt == 5 || efmt == 10

/-- The fields of a floating-point format (R188): exponent bits, fraction bits, bias, and whether the top exponent holds
infinities. -/
structure FloatFmt where
  eb : Nat
  fb : Nat
  bias : Nat
  inf : Bool
  deriving DecidableEq, Repr

/-- The floating-point formats of R188. -/
def floatFmt : Nat → FloatFmt
  | 2 => ⟨8, 7, 127, true⟩
  | 3 => ⟨5, 10, 15, true⟩
  | 4 => ⟨4, 3, 7, false⟩
  | 5 => ⟨5, 2, 15, true⟩
  | 10 => ⟨11, 52, 1023, true⟩
  | _ => ⟨8, 23, 127, true⟩

/-- An exact floating-point value: NaN or infinity with a sign, or (−1)^s · m · 2^e. -/
inductive Val where
  | nan (s : Bool)
  | inf (s : Bool)
  | fin (s : Bool) (m : Nat) (e : Int)
  deriving DecidableEq, Repr

/-- The sign bit's weight in a format. -/
def FloatFmt.signBit (f : FloatFmt) : Nat := 2 ^ (f.eb + f.fb)

/-- The exponent of a format's smallest subnormal. -/
def FloatFmt.emin (f : FloatFmt) : Int := 1 - (f.bias : Int) - (f.fb : Int)

/-- The canonical NaN of a format (R189), with its sign. -/
def FloatFmt.nanCode (f : FloatFmt) (s : Bool) : Nat :=
  (if f.inf then (2 ^ f.eb - 1) * 2 ^ f.fb + 2 ^ (f.fb - 1) else 2 ^ (f.eb + f.fb) - 1) + b2n s * f.signBit

/-- The code of an infinity; E4M3 has none and answers the canonical NaN with the input's sign (R192). -/
def FloatFmt.infCode (f : FloatFmt) (s : Bool) : Nat :=
  if f.inf then (2 ^ f.eb - 1) * 2 ^ f.fb + b2n s * f.signBit else f.nanCode s

/-- The exact value of a code (R188, R191). -/
def FloatFmt.decode (f : FloatFmt) (c : Nat) : Val :=
  let s := bit c (f.eb + f.fb)
  let e := bits c (f.eb + f.fb - 1) f.fb
  let m := c % 2 ^ f.fb
  if f.inf then
    if e = 2 ^ f.eb - 1 then (if m = 0 then .inf s else .nan s)
    else if e = 0 then .fin s m f.emin
    else .fin s (2 ^ f.fb + m) ((e : Int) - 1 + f.emin)
  else if e = 2 ^ f.eb - 1 ∧ m = 2 ^ f.fb - 1 then .nan s
  else if e = 0 then .fin s m f.emin
  else .fin s (2 ^ f.fb + m) ((e : Int) - 1 + f.emin)

/-- n / d rounded to the nearest integer, ties to even. -/
def rne (n d : Nat) : Nat :=
  let q := n / d
  let r := n % d
  if 2 * r < d then q else if d < 2 * r then q + 1 else q + q % 2

/-- The number of bits of a number. -/
def bitLen (n : Nat) : Nat := if n = 0 then 0 else Nat.log2 n + 1

/-- What a narrowing conversion does beside writing the value: a finite value turned into ±Inf (R193), or a saturation to
±448 (R192). -/
structure Rounded where
  code : Nat
  ovf : Bool := false
  sat : Bool := false
  deriving DecidableEq, Repr

/-- The magnitude code of m · 2^e rounded to nearest even; the code runs on past the largest finite one when it overflows. -/
def FloatFmt.roundMag (f : FloatFmt) (m : Nat) (e : Int) : Nat :=
  if m = 0 then 0
  else
    let q := max f.emin (e + (bitLen m : Int) - ((f.fb : Int) + 1))
    let r := if q ≤ e then m * 2 ^ (e - q).toNat else rne m (2 ^ (q - e).toNat)
    (q - f.emin).toNat * 2 ^ f.fb + r

/-- Is m · 2^e above 448 (R192)? -/
def above448 (m : Nat) (e : Int) : Bool :=
  if 0 ≤ e then decide (448 < m * 2 ^ e.toNat) else decide (448 * 2 ^ (-e).toNat < m)

/-- The code of an exact value in a format, rounded to nearest with ties to even (R189, R192, R193). -/
def FloatFmt.encode (f : FloatFmt) : Val → Rounded
  | .nan s => { code := f.nanCode s }
  | .inf s => { code := f.infCode s }
  | .fin s m e =>
    let sg := b2n s * f.signBit
    if f.inf then
      let c := f.roundMag m e
      if (2 ^ f.eb - 1) * 2 ^ f.fb ≤ c then { code := f.infCode s, ovf := true } else { code := c + sg }
    else if above448 m e then { code := 0x7E + sg, sat := true }
    else { code := f.roundMag m e + sg }

/-- A code of one format in another: exact when it widens, rounded when it narrows (R191, R192). -/
def convert (src dst code : Nat) : Rounded := (floatFmt dst).encode ((floatFmt src).decode code)

/-- The elements of a byte string of a format (R186). -/
def elemsOf (w : Nat) (bs : List Byte) : List Nat :=
  (List.range (if w = 0 then 0 else bs.length / w)).map fun i => ofLE (slice bs (i * w) w)

/-- The bytes of a sequence of elements of width w (R186). -/
def bytesOf (w : Nat) (es : List Nat) : List Byte := es.flatMap (toLE w)

/-! ### TRIM16 (R196) -/

/-- The sender's half of TRIM16. -/
def trim16 (c : Nat) : Rounded := convert 1 2 c

/-- The receiver's half: 16 zero bits appended. -/
def untrim16 (c : Nat) : Nat := c * 2 ^ 16

/-! ### BS8 (R197-R201) -/

/-- |x| · 2^149 of a finite value that FP32 represents exactly; 0 for a non-finite one. -/
def scaled149 : Val → Nat
  | .fin _ m e => m * 2 ^ (e + 149).toNat
  | _ => 0

/-- The block exponent: the smallest E with amax < 127.5 · 2^(E − 133) (R198). -/
def bs8Exp (amax : Nat) : Nat := ((List.range 256).find? fun e => decide (amax < 255 * 2 ^ (e + 15))).getD 255

/-- The 8-bit code of one element in a block of exponent E (R198). -/
def bs8Elem (e : Nat) (v : Val) : Nat :=
  match v with
  | .fin s _ _ =>
    let r := min (rne (scaled149 v) (2 ^ (e + 16))) 127
    if s then (256 - r) % 256 else r
  | _ => 0x80

/-- One BS8 block of up to 32 elements of format `efmt` (R198, R201), with the number of non-finite elements it marks. -/
def bs8Block (efmt : Nat) (es : List Nat) : List Byte × Nat :=
  let vs := es.map (floatFmt efmt).decode
  let e := bs8Exp ((vs.map scaled149).foldl max 0)
  let ms := vs.map (bs8Elem e)
  (BitVec.ofNat 8 e :: (ms ++ List.replicate (32 - es.length) 0).map (BitVec.ofNat 8), ms.count 0x80)

/-- The value of one element code of a block, in format `efmt` (R199). -/
def bs8Decode (efmt e m : Nat) : Rounded :=
  if m = 0x80 then { code := (floatFmt efmt).nanCode false }
  else
    let z := signed 8 m
    (floatFmt efmt).encode (.fin (decide (z < 0)) z.natAbs ((e : Int) - 133))

/-- The 32 elements of a block (R199). -/
def bs8Unblock (efmt : Nat) (bs : List Byte) : List Rounded :=
  (List.range 32).map fun i => bs8Decode efmt (bs.getD 0 0).toNat (bs.getD (1 + i) 0).toNat

/-! ### Sparse encodings (R204-R210) -/

/-- A bitmap group of up to 256 elements of width w (R206). -/
def bitmapGroup (w : Nat) (es : List Nat) : List Byte :=
  let map := (List.range 32).map fun j =>
    BitVec.ofNat 8 ((List.range 8).foldl (fun a i => a + b2n (es.getD (8 * j + i) 0 != 0) * 2 ^ i) 0)
  map ++ bytesOf w (es.filter (· != 0))

/-- The elements of a bitmap group (R206): the dense 256 elements, and the bytes the group takes. -/
def bitmapUngroup (w : Nat) (bs : List Byte) : List Nat × Nat :=
  let step (a : List Nat × Nat) (i : Nat) : List Nat × Nat :=
    if bit ((bs.getD (i / 8) 0).toNat) (i % 8) then (a.1 ++ [ofLE (slice bs (32 + a.2 * w) w)], a.2 + 1)
    else (a.1 ++ [0], a.2)
  let r := (List.range 256).foldl step ([], 0)
  (r.1, 32 + r.2 * w)

/-- The 64 elements of an S24 block; `none` when a group's first position is not less than its second (R207, R212). -/
def s24Unblock (w : Nat) (bs : List Byte) : Option (List Nat) :=
  let ix := ofLE (slice bs 0 8)
  let pos (g k : Nat) := ix / 2 ^ (4 * g + 2 * k) % 4
  if (List.range 16).any fun g => decide (pos g 1 ≤ pos g 0) then none
  else some ((List.range 16).flatMap fun g => (List.range 4).map fun p =>
    if p = pos g 0 then ofLE (slice bs (8 + 2 * g * w) w)
    else if p = pos g 1 then ofLE (slice bs (8 + (2 * g + 1) * w) w) else 0)

/-! ### Segments (R202, R203) and malformed packets (R212) -/

/-- Units of a segment. -/
inductive UnitKind where
  | bs8 | bitmap | s24
  deriving DecidableEq, Repr

/-- Elements a unit covers. -/
def UnitKind.span : UnitKind → Nat
  | .bs8 => 32 | .bitmap => 256 | .s24 => 64

/-- The unit at byte `i` of a payload: its elements and its size; `none` where R212 calls it malformed. `n` is the context's
element count and `k` the unit's index. -/
def unitAt (kind : UnitKind) (efmt n k : Nat) (bs : List Byte) (i : Nat) : Option (List Rounded × Nat) :=
  let w := elemWidth efmt
  if n ≤ k * kind.span then none
  else match kind with
    | .bs8 => if bs.length < i + 33 then none else some (bs8Unblock efmt (slice bs i 33), 33)
    | .bitmap =>
      let r := bitmapUngroup w (bs.drop i)
      if bs.length < i + 32 ∨ bs.length < i + r.2 then none
      else if (List.range 256).any fun j => decide (n ≤ k * 256 + j) && bit ((bs.getD (i + j / 8) 0).toNat) (j % 8) then none
      else some (r.1.map fun c => { code := c }, r.2)
    | .s24 =>
      if bs.length < i + 8 + 32 * w then none
      else (s24Unblock w (slice bs i (8 + 32 * w))).map fun es => (es.map fun c => { code := c }, 8 + 32 * w)

/-- A unit of a segment: its index, its elements, and the payload bytes it takes. -/
structure SegUnit where
  idx : Nat
  elems : List Rounded
  from_ : Nat
  past : Nat
  deriving DecidableEq, Repr

/-- `c` units from byte `i` on, which must fill the payload exactly (R212). -/
def unitsFrom (kind : UnitKind) (efmt n : Nat) (bs : List Byte) : Nat → Nat → Nat → Option (List SegUnit)
  | 0, _, i => if i = bs.length then some [] else none
  | c + 1, k, i =>
    match unitAt kind efmt n k bs i with
    | none => none
    | some (es, sz) => (unitsFrom kind efmt n bs c (k + 1) (i + sz)).map fun r => ⟨k, es, i, i + sz⟩ :: r

/-- The units of a packet with a segment head; `none` when R212 calls the packet malformed. The last one may reach past the last element (R206,
R207). -/
def segment (kind : UnitKind) (efmt n : Nat) (bs : List Byte) : Option (List SegUnit) :=
  let first := ofLE (slice bs 0 4)
  let count := ofLE (slice bs 4 2)
  if bs.length < 8 ∨ count = 0 ∨ 127 < count then none
  else unitsFrom kind efmt n bs count first 8

/-- A segment head (R202). -/
def segPrefix (first count : Nat) : List Byte := toLE 4 first ++ toLE 2 count ++ [0, 0]

/-- The EFMT a pair (EFMT, WIRE) requires on the wire (R195). -/
def wireEfmt (efmt wire : Nat) : Nat := if wire = 1 then 2 else if wire = 2 then 9 else efmt

/-! ### Which traffic accepts which formats (R214) -/

/-- Plain moves. -/
def fmtPlain (efmt sfmt wire : Nat) : Bool := decide (efmt ≤ 10) && efmt != 9 && sfmt == 0 && wire == 0

/-- Atomics, messages, counters and empty commands. -/
def fmtNone (efmt sfmt wire : Nat) : Bool := efmt == 0 && sfmt == 0 && wire == 0

/-- EFMT 1–8 or 10. -/
def fmtArithElem (efmt : Nat) : Bool := (decide (1 ≤ efmt) && decide (efmt ≤ 8)) || efmt == 10

/-- Reductions with an arithmetic operation; `sumcount` is SUMCOUNT, which takes no wire mode. -/
def fmtArith (efmt sfmt wire : Nat) (sumcount : Bool) : Bool :=
  fmtArithElem efmt && decide (sfmt ≤ 2) &&
    (wire == 0 || (wire == 1 && efmt == 1 && sfmt == 0 && !sumcount) ||
      (wire == 2 && decide (efmt ≤ 3) && sfmt == 0 && !sumcount))

/-- Reductions with a bitwise operation. -/
def fmtBitwise (efmt sfmt wire : Nat) : Bool :=
  (efmt == 0 || efmt == 6 || efmt == 7 || efmt == 8) && sfmt == 0 && wire == 0

/-- A CONTRIB command: either reduction row. -/
def fmtContrib (efmt sfmt wire : Nat) : Bool := fmtArith efmt sfmt wire false || fmtBitwise efmt sfmt wire

/-- Token rows of a dispatch. -/
def fmtDispatch (efmt sfmt wire : Nat) : Bool :=
  decide (1 ≤ efmt) && decide (efmt ≤ 6) && sfmt == 0 &&
    (wire == 0 || (wire == 1 && efmt == 1) || (wire == 2 && decide (efmt ≤ 3)))

/-- Expert outputs of a combine. -/
def fmtCombine (efmt sfmt wire : Nat) : Bool :=
  sfmt == 0 && decide (1 ≤ efmt) && ((wire == 0 && decide (efmt ≤ 3)) || (wire == 1 && efmt == 1))

end Sys2Proof.Machine
end

