-- ==== Sys2Proof/Machine/Regs.lean ====
section
/-!
DEFINITION. The control-space map (chapter 19): every block window, every register at its offset, and every
field with its access type and reset value. The tables transcribe R668 and R677-R683 and the register tables of the
home chapters.
-/
namespace Sys2Proof.Machine

/-- Access types of a register field (R16). `.desc` marks the descriptor slots that are taken as a whole when their last slot is
written (R683). -/
inductive Acc where
  | ro | rw | w1c | w1s | wo | desc
  deriving DecidableEq, Repr

/-- A register field: its place, its access type and its Reset entry (R19). -/
structure FieldDef where
  f : Fld
  acc : Acc
  reset : Nat
  deriving DecidableEq, Repr

/-- The reset domain of a register (R676): the management island, the fabric, the block window's own domain (LPk at a
lane port, FAB elsewhere), the always-on production set (MI, R636), or the supply that keeps FAB_PWR_EVT (R584). -/
inductive RDom where
  | mi | fab | blk | prod | vdd18
  deriving DecidableEq, Repr

end Sys2Proof.Machine
namespace Sys2Proof

/-- Where a block window begins (R668). -/
def Blk.base : Blk → Nat
  | .fab => 0x0000000
  | .sec => 0x0100000
  | .hp => 0x0200000
  | .tel => 0x0300000
  | .mep n => 0x0400000 + n * 0x10000
  | .lp n => 0x0600000 + n * 0x20000
  | .rte n => 0x0800000 + n * 0x100000
  | .rtr t => 0x1000000 + t * 0x40000
  | .tni t => 0x2000000 + t * 0x80000

end Sys2Proof
namespace Sys2Proof.Machine

/-- The block window that holds a control-space offset, with the offset inside it (R668); `none` in a reserved range. -/
def blkOf (off : Nat) : Option (Blk × Nat) :=
  if off < 0x100000 then some (.fab, off)
  else if off < 0x200000 then some (.sec, off - 0x100000)
  else if off < 0x300000 then some (.hp, off - 0x200000)
  else if off < 0x400000 then some (.tel, off - 0x300000)
  else if off < 0x4C0000 then some (.mep ((off - 0x400000) / 0x10000), (off - 0x400000) % 0x10000)
  else if off < 0x600000 then none
  else if off < 0x800000 then some (.lp ((off - 0x600000) / 0x20000), (off - 0x600000) % 0x20000)
  else if off < 0xA00000 then some (.rte ((off - 0x800000) / 0x100000), (off - 0x800000) % 0x100000)
  else if off < 0x1000000 then none
  else if off < 0x2000000 then some (.rtr ((off - 0x1000000) / 0x40000), (off - 0x1000000) % 0x40000)
  else if off < 0x4000000 then some (.tni ((off - 0x2000000) / 0x80000), (off - 0x2000000) % 0x80000)
  else none

end Sys2Proof.Machine
namespace Sys2Proof

/-- The block window an arbiter's window lies in. -/
def Arb.blk : Arb → Blk
  | .mep n => .mep n
  | .sp t _ => .tni t
  | .ru t => .rtr t
  | .lp n => .lp n
  | .rte n => .rte n
  | .hp => .hp

/-- Where an arbiter window begins (R678, R680-R683). -/
def Arb.base : Arb → Nat
  | .sp t n => (Blk.tni t).base + 0x2000 + n * 0x2000
  | a => a.blk.base + 0x2000

end Sys2Proof
namespace Sys2Proof.Machine

/-- The registers of control space (the index of chapter 19), each register array under one name. -/
inductive RegName where
  | fabPkgInfo | fabGoodTiles | fabTwinMap | fabClkStat | fabPwrEvt | fabPwrStat | fabPwrCtl | fabBootStat | fabInj
  | fmpRsvCfg | fmpCisternStat | fabSchCtx | fabSchArm | fabSchStat | fabTviol | fabSensor | fabGrpA | fabGrpB
  | secSealed | secStat | secInj | secCseq | telFrzCtl | telFrzStat | telFrzTime | telTwCfg | telTwStat | eccStat
  | inj | rsvCfg | cisternStat | rsvShare | telTutil | arbSlot0 | arbSlot1 | arbShare | arbRstat | arbShape | arbCfg
  | arbStarve | arbStat0 | arbStat1 | arbArm | arbCtl | ctr | triga | trigb | dstore | tniLand | relay | hpCfg
  | hpFnStat | hpCrDb | hpCqDb | hpCrCfg | hpCqCfg | hpCrStat | hpCrCfgb | mepStageCfg | mepStreamPsn | mepStreamDesc
  | mepTrange | mepDescOwner | lpCfg | lpState | lpLinkStat | lpVcCfg | lpPmCfg | lpTestCtl | lpTofs | lpTdly | lpLaneEq
  | lpLaneStat | lpSbindA | lpSbindB | lpSbindC | gate0 | gate1 | gateArm | gateCtl | rteCfg | rteStat | rteCcpa
  | rteCcpb | rteTc | rtePortCfg | rtePortMac | rtePortNh | rtePortIp4 | rtePortIp6h | rtePortIp6l | rtePortStat
  | rtePortEee | rteSbindA | rteSbindB | rteSbindC | rteQpStat | rteQpCc | rtrEpOwner | rtrDynArb | rtrSpStat | rtrShadowCfg
  | rtrShadowStat | rtrShadowCap | rtrSchRange | rtrPhaseLo | rtrPhaseHi | telLinkUtil | redCtxA | redCtxB | redCtxS
  | redCstat | telRuFmt | rtrSpNode | rtrXbar0 | rtrXbar1 | tniFmtStat | tniSluStat | tniChCount | tniCoreCtx | tniPcsCfg
  | tniPumpPsn | tniGrpPsn | tniOpmCfg | tniOpmCnt | tniWatchCfg | tniWatchStat | tniWatchRes0 | tniWatchRes1 | tniWatchRes2
  | tniWatchRes3 | tniWatchRes4 | tniWatchRes5 | tniSluOstat | tniSluInba | tniSluInbb | tniSluIstat | tniPumpDesc
  | tniChHtab | tniGrpMember | tniChCfg | tniChRing | tniChSpill | tniChStat
  deriving DecidableEq, Repr

/-! Fields of `FAB_PKG_INFO` (R45). -/
def FabPkgInfo.GRADE : Fld := ⟨47, 40⟩
def FabPkgInfo.DCHIP : Fld := ⟨39, 32⟩
def FabPkgInfo.TZM1 : Fld := ⟨7, 6⟩
def FabPkgInfo.TYM1 : Fld := ⟨5, 3⟩
def FabPkgInfo.TXM1 : Fld := ⟨2, 0⟩
/-! Fields of `FAB_GOOD_TILES` (R47). -/
def FabGoodTiles.GOOD : Fld := ⟨63, 0⟩
/-! Fields of `FAB_TWIN_MAP` (R49). -/
def FabTwinMap.TWIN : Fld := ⟨31, 0⟩
/-! Fields of `FAB_CLK_STAT` (R573). -/
def FabClkStat.LOSSES : Fld := ⟨47, 32⟩
def FabClkStat.REFOK : Fld := ⟨1, 1⟩
def FabClkStat.LOCK : Fld := ⟨0, 0⟩
/-! Fields of `FAB_PWR_EVT` (R584). -/
def FabPwrEvt.OT : Fld := ⟨2, 2⟩
def FabPwrEvt.UV : Fld := ⟨1, 1⟩
def FabPwrEvt.EXT : Fld := ⟨0, 0⟩
/-! Fields of `FAB_PWR_STAT` (R587). -/
def FabPwrStat.IDLES : Fld := ⟨63, 32⟩
def FabPwrStat.WSRC : Fld := ⟨31, 24⟩
def FabPwrStat.STATE : Fld := ⟨1, 0⟩
/-! Fields of `FAB_PWR_CTL` (R591). -/
def FabPwrCtl.FIDLE : Fld := ⟨31, 16⟩
def FabPwrCtl.WAKE : Fld := ⟨1, 1⟩
def FabPwrCtl.IDLEEN : Fld := ⟨0, 0⟩
/-! Fields of `FAB_BOOT_STAT` (R596). -/
def FabBootStat.TOPENUS : Fld := ⟨63, 32⟩
def FabBootStat.CODE : Fld := ⟨31, 24⟩
def FabBootStat.STAGE : Fld := ⟨23, 20⟩
def FabBootStat.FAIL : Fld := ⟨0, 0⟩
/-! Fields of `FAB_INJ` (R631). -/
def FabInj.ARM : Fld := ⟨63, 63⟩
def FabInj.DET : Fld := ⟨55, 48⟩
def FabInj.SEL : Fld := ⟨47, 40⟩
def FabInj.BITS : Fld := ⟨39, 32⟩
def FabInj.DONE : Fld := ⟨15, 0⟩
/-! Fields of `FMP_RSV_CFG` (R127). -/
def FmpRsvCfg.RSPTO : Fld := ⟨63, 48⟩
def FmpRsvCfg.RSVTO : Fld := ⟨47, 32⟩
def FmpRsvCfg.MCSETTLE : Fld := ⟨31, 16⟩
def FmpRsvCfg.LEASE : Fld := ⟨9, 0⟩
/-! Fields of `FMP_CISTERN_STAT` (R128). -/
def FmpCisternStat.PEND : Fld := ⟨47, 32⟩
def FmpCisternStat.GRANTED : Fld := ⟨31, 16⟩
def FmpCisternStat.FREE : Fld := ⟨15, 0⟩
/-! Fields of `FAB_SCH_CTX` (R68). -/
def FabSchCtx.ROUNDQ_ACT : Fld := ⟨57, 48⟩
def FabSchCtx.ROUNDQ : Fld := ⟨41, 32⟩
def FabSchCtx.SLIPMAX : Fld := ⟨31, 22⟩
def FabSchCtx.ARMERR : Fld := ⟨7, 4⟩
def FabSchCtx.STATE : Fld := ⟨3, 2⟩
def FabSchCtx.BANK : Fld := ⟨1, 1⟩
def FabSchCtx.ARMED : Fld := ⟨0, 0⟩
/-! Fields of `FAB_SCH_ARM` (R69). -/
def FabSchArm.TIME : Fld := ⟨63, 0⟩
/-! Fields of `FAB_SCH_STAT` (R96). -/
def FabSchStat.QUANTA : Fld := ⟨63, 32⟩
def FabSchStat.SLIPS : Fld := ⟨31, 0⟩
/-! Fields of `FAB_TVIOL` (R560). -/
def FabTviol.COUNT : Fld := ⟨63, 0⟩
/-! Fields of `FAB_SENSOR` (R585). -/
def FabSensor.TEMP : Fld := ⟨47, 32⟩
def FabSensor.VOLT : Fld := ⟨31, 16⟩
def FabSensor.VALID : Fld := ⟨0, 0⟩
/-! Fields of `FAB_GRP_A` (R265). -/
def FabGrpA.GROUP : Fld := ⟨63, 48⟩
def FabGrpA.EPOCH : Fld := ⟨47, 32⟩
def FabGrpA.TENANT : Fld := ⟨31, 24⟩
def FabGrpA.NM1 : Fld := ⟨23, 10⟩
def FabGrpA.SPEN : Fld := ⟨2, 2⟩
def FabGrpA.STATE : Fld := ⟨1, 0⟩
/-! Fields of `FAB_GRP_B` (R265). -/
def FabGrpB.STEPTO : Fld := ⟨63, 38⟩
def FabGrpB.CDCHIP : Fld := ⟨37, 30⟩
def FabGrpB.CDX : Fld := ⟨29, 27⟩
def FabGrpB.CDY : Fld := ⟨26, 24⟩
/-! Fields of `SEC_SEALED` (R545). -/
def SecSealed.SEALED : Fld := ⟨63, 0⟩
/-! Fields of `SEC_STAT` (R563). -/
def SecStat.DENIED : Fld := ⟨63, 48⟩
def SecStat.SIGFAIL : Fld := ⟨47, 32⟩
def SecStat.AUTHFAIL : Fld := ⟨31, 16⟩
def SecStat.NOKEY : Fld := ⟨15, 0⟩
/-! Fields of `SEC_INJ` (R631). -/
def SecInj.ARM : Fld := ⟨63, 63⟩
def SecInj.DET : Fld := ⟨55, 48⟩
def SecInj.SEL : Fld := ⟨47, 40⟩
def SecInj.BITS : Fld := ⟨39, 32⟩
def SecInj.DONE : Fld := ⟨15, 0⟩
/-! Fields of `SEC_CSEQ` (R547). -/
def SecCseq.CSEQ : Fld := ⟨63, 0⟩
/-! Fields of `TEL_FRZ_CTL` (R644). -/
def TelFrzCtl.FLEAD : Fld := ⟨31, 16⟩
/-! Fields of `TEL_FRZ_STAT` (R644). -/
def TelFrzStat.FRZNO : Fld := ⟨63, 32⟩
def TelFrzStat.LATE : Fld := ⟨31, 16⟩
def TelFrzStat.FROZEN : Fld := ⟨0, 0⟩
/-! Fields of `TEL_FRZ_TIME` (R644). -/
def TelFrzTime.TIME : Fld := ⟨63, 0⟩
/-! Fields of `TEL_TW_CFG` (R650). -/
def TelTwCfg.EN : Fld := ⟨63, 63⟩
def TelTwCfg.WRAP : Fld := ⟨62, 62⟩
def TelTwCfg.TRL2 : Fld := ⟨61, 58⟩
def TelTwCfg.CMD : Fld := ⟨57, 57⟩
def TelTwCfg.LANE : Fld := ⟨56, 56⟩
def TelTwCfg.NCHUNK : Fld := ⟨51, 28⟩
def TelTwCfg.BASE : Fld := ⟨27, 0⟩
/-! Fields of `TEL_TW_STAT` (R656). -/
def TelTwStat.CHUNKS : Fld := ⟨63, 32⟩
def TelTwStat.LOST : Fld := ⟨31, 0⟩
/-! Fields of `ECC_STAT` (R604). -/
def EccStat.CE : Fld := ⟨63, 40⟩
def EccStat.UE : Fld := ⟨39, 24⟩
def EccStat.CFGUE : Fld := ⟨23, 16⟩
/-! Fields of `INJ` (R631). -/
def Inj.ARM : Fld := ⟨63, 63⟩
def Inj.DET : Fld := ⟨55, 48⟩
def Inj.SEL : Fld := ⟨47, 40⟩
def Inj.BITS : Fld := ⟨39, 32⟩
def Inj.DONE : Fld := ⟨15, 0⟩
/-! Fields of `RSV_CFG` (R127). -/
def RsvCfg.RSPTO : Fld := ⟨63, 48⟩
def RsvCfg.RSVTO : Fld := ⟨47, 32⟩
def RsvCfg.MCSETTLE : Fld := ⟨31, 16⟩
def RsvCfg.LEASE : Fld := ⟨9, 0⟩
/-! Fields of `CISTERN_STAT` (R128). -/
def CisternStat.PEND : Fld := ⟨47, 32⟩
def CisternStat.GRANTED : Fld := ⟨31, 16⟩
def CisternStat.FREE : Fld := ⟨15, 0⟩
/-! Fields of `RSV_SHARE` (R541). -/
def RsvShare.SLOTS : Fld := ⟨15, 0⟩
/-! Fields of `TEL_TUTIL` (R639). -/
def TelTutil.IN : Fld := ⟨63, 32⟩
def TelTutil.OUT : Fld := ⟨31, 0⟩
/-! Fields of `ARB_SLOT0` (R149). -/
def ArbSlot0.V3 : Fld := ⟨63, 63⟩
def ArbSlot0.OWNER3 : Fld := ⟨54, 48⟩
def ArbSlot0.V2 : Fld := ⟨47, 47⟩
def ArbSlot0.OWNER2 : Fld := ⟨38, 32⟩
def ArbSlot0.V1 : Fld := ⟨31, 31⟩
def ArbSlot0.OWNER1 : Fld := ⟨22, 16⟩
def ArbSlot0.V0 : Fld := ⟨15, 15⟩
def ArbSlot0.OWNER0 : Fld := ⟨6, 0⟩
/-! Fields of `ARB_SLOT1` (R149). -/
def ArbSlot1.V3 : Fld := ⟨63, 63⟩
def ArbSlot1.OWNER3 : Fld := ⟨54, 48⟩
def ArbSlot1.V2 : Fld := ⟨47, 47⟩
def ArbSlot1.OWNER2 : Fld := ⟨38, 32⟩
def ArbSlot1.V1 : Fld := ⟨31, 31⟩
def ArbSlot1.OWNER1 : Fld := ⟨22, 16⟩
def ArbSlot1.V0 : Fld := ⟨15, 15⟩
def ArbSlot1.OWNER0 : Fld := ⟨6, 0⟩
/-! Fields of `ARB_SHARE` (R167). -/
def ArbShare.WMAX : Fld := ⟨63, 48⟩
def ArbShare.WMIN : Fld := ⟨47, 32⟩
def ArbShare.CAP : Fld := ⟨31, 16⟩
def ArbShare.WEIGHT : Fld := ⟨15, 0⟩
/-! Fields of `ARB_RSTAT` (R168). -/
def ArbRstat.TOKENS : Fld := ⟨47, 32⟩
def ArbRstat.CREDIT : Fld := ⟨31, 16⟩
def ArbRstat.AGE : Fld := ⟨15, 12⟩
def ArbRstat.WAIT : Fld := ⟨11, 0⟩
/-! Fields of `ARB_SHAPE` (R172). -/
def ArbShape.EN : Fld := ⟨63, 63⟩
def ArbShape.REFILL : Fld := ⟨55, 48⟩
def ArbShape.BURST : Fld := ⟨47, 32⟩
def ArbShape.RATE : Fld := ⟨31, 16⟩
/-! Fields of `ARB_CFG` (R166). -/
def ArbCfg.WDOG : Fld := ⟨63, 40⟩
def ArbCfg.OWNMAX : Fld := ⟨39, 30⟩
def ArbCfg.STARVE : Fld := ⟨29, 20⟩
def ArbCfg.STEP : Fld := ⟨15, 8⟩
def ArbCfg.WINDOWQ : Fld := ⟨7, 0⟩
/-! Fields of `ARB_STARVE` (R169). -/
def ArbStarve.FLAG : Fld := ⟨63, 0⟩
/-! Fields of `ARB_STAT0` (R169). -/
def ArbStat0.BGRAINS : Fld := ⟨63, 32⟩
def ArbStat0.OGRAINS : Fld := ⟨31, 0⟩
/-! Fields of `ARB_STAT1` (R169). -/
def ArbStat1.OWNLOST : Fld := ⟨63, 48⟩
def ArbStat1.PREEMPT : Fld := ⟨47, 32⟩
def ArbStat1.PARKS : Fld := ⟨31, 16⟩
def ArbStat1.BITES : Fld := ⟨15, 8⟩
def ArbStat1.STARVES : Fld := ⟨7, 0⟩
/-! Fields of `ARB_ARM` (R170). -/
def ArbArm.TIME : Fld := ⟨63, 0⟩
/-! Fields of `ARB_CTL` (R170). -/
def ArbCtl.ARMERR : Fld := ⟨7, 4⟩
def ArbCtl.BANK : Fld := ⟨1, 1⟩
def ArbCtl.ARMED : Fld := ⟨0, 0⟩
/-! Fields of `CTR` (R256). -/
def Ctr.TENANT : Fld := ⟨63, 56⟩
def Ctr.STATUS : Fld := ⟨55, 48⟩
def Ctr.FAIL : Fld := ⟨32, 32⟩
def Ctr.VALUE : Fld := ⟨31, 0⟩
/-! Fields of `TRIGA` (R259). -/
def Triga.THRESH : Fld := ⟨63, 32⟩
def Triga.THRINC : Fld := ⟨31, 16⟩
def Triga.PHASE : Fld := ⟨15, 13⟩
def Triga.CTR : Fld := ⟨12, 2⟩
/-! Fields of `TRIGB` (R259). -/
def Trigb.TENANT : Fld := ⟨63, 56⟩
def Trigb.DCTR : Fld := ⟨55, 45⟩
def Trigb.DEN : Fld := ⟨44, 44⟩
def Trigb.GIDX : Fld := ⟨43, 32⟩
def Trigb.REL : Fld := ⟨31, 30⟩
def Trigb.LAST : Fld := ⟨29, 29⟩
def Trigb.FIRST : Fld := ⟨28, 28⟩
def Trigb.FIRED : Fld := ⟨1, 1⟩
def Trigb.V : Fld := ⟨0, 0⟩
/-! Fields of `DSTORE` (R259). -/
def Dstore.DATA : Fld := ⟨63, 0⟩
/-! Fields of `TNI_LAND` (R263). -/
def TniLand.TENANT : Fld := ⟨63, 56⟩
def TniLand.GIDX : Fld := ⟨55, 44⟩
def TniLand.CTR : Fld := ⟨43, 33⟩
def TniLand.FINAL : Fld := ⟨32, 32⟩
def TniLand.OFFP : Fld := ⟨31, 0⟩
/-! Fields of `RELAY` (R264). -/
def Relay.TENANT : Fld := ⟨63, 56⟩
def Relay.TDCHIP : Fld := ⟨55, 48⟩
def Relay.TDX : Fld := ⟨47, 45⟩
def Relay.TDY : Fld := ⟨44, 42⟩
def Relay.TDEP : Fld := ⟨41, 38⟩
def Relay.TCTX : Fld := ⟨37, 34⟩
def Relay.PHASE : Fld := ⟨33, 31⟩
def Relay.CTR : Fld := ⟨30, 20⟩
def Relay.V : Fld := ⟨0, 0⟩
/-! Fields of `HP_CFG` (R373). -/
def HpCfg.STALE : Fld := ⟨31, 16⟩
def HpCfg.REREAD : Fld := ⟨15, 8⟩
def HpCfg.RODATA : Fld := ⟨0, 0⟩
/-! Fields of `HP_FN_STAT` (R357). -/
def HpFnStat.LOSSES : Fld := ⟨39, 32⟩
def HpFnStat.STRAY : Fld := ⟨31, 16⟩
def HpFnStat.SEALED : Fld := ⟨2, 2⟩
def HpFnStat.STATE : Fld := ⟨1, 0⟩
/-! Fields of `HP_CR_DB` (R364). -/
def HpCrDb.TAIL : Fld := ⟨15, 0⟩
/-! Fields of `HP_CQ_DB` (R364). -/
def HpCqDb.ARM : Fld := ⟨31, 31⟩
def HpCqDb.HEAD : Fld := ⟨15, 0⟩
/-! Fields of `HP_CR_CFG` (R359). -/
def HpCrCfg.BASE : Fld := ⟨63, 18⟩
def HpCrCfg.SIZEL2 : Fld := ⟨17, 13⟩
def HpCrCfg.CQ : Fld := ⟨12, 9⟩
def HpCrCfg.EXU : Fld := ⟨8, 7⟩
def HpCrCfg.XTILE : Fld := ⟨6, 1⟩
def HpCrCfg.EN : Fld := ⟨0, 0⟩
/-! Fields of `HP_CQ_CFG` (R361). -/
def HpCqCfg.BASE : Fld := ⟨63, 18⟩
def HpCqCfg.SIZEL2 : Fld := ⟨17, 13⟩
def HpCqCfg.VEC : Fld := ⟨12, 7⟩
def HpCqCfg.EN : Fld := ⟨0, 0⟩
/-! Fields of `HP_CR_STAT` (R366). -/
def HpCrStat.HEAD : Fld := ⟨63, 48⟩
def HpCrStat.TAIL : Fld := ⟨47, 32⟩
def HpCrStat.STATUS : Fld := ⟨31, 24⟩
def HpCrStat.STATE : Fld := ⟨1, 0⟩
/-! Fields of `HP_CR_CFGB` (R360). -/
def HpCrCfgb.CQCTR : Fld := ⟨21, 11⟩
def HpCrCfgb.DBCTR : Fld := ⟨10, 0⟩
/-! Fields of `MEP_STAGE_CFG` (R85). -/
def MepStageCfg.LEAD : Fld := ⟨15, 0⟩
/-! Fields of `MEP_STREAM_PSN` (R608). -/
def MepStreamPsn.PSN : Fld := ⟨63, 0⟩
/-! Fields of `MEP_STREAM_DESC` (R79). -/
def MepStreamDesc.DATA : Fld := ⟨63, 0⟩
/-! Fields of `MEP_TRANGE` (R540). -/
def MepTrange.TENANT : Fld := ⟨63, 56⟩
def MepTrange.V : Fld := ⟨55, 55⟩
def MepTrange.SL : Fld := ⟨54, 54⟩
def MepTrange.SCR : Fld := ⟨53, 53⟩
def MepTrange.LIMIT : Fld := ⟨47, 24⟩
def MepTrange.BASE : Fld := ⟨23, 0⟩
/-! Fields of `MEP_DESC_OWNER` (R82). -/
def MepDescOwner.OWNER7 : Fld := ⟨63, 56⟩
def MepDescOwner.OWNER6 : Fld := ⟨55, 48⟩
def MepDescOwner.OWNER5 : Fld := ⟨47, 40⟩
def MepDescOwner.OWNER4 : Fld := ⟨39, 32⟩
def MepDescOwner.OWNER3 : Fld := ⟨31, 24⟩
def MepDescOwner.OWNER2 : Fld := ⟨23, 16⟩
def MepDescOwner.OWNER1 : Fld := ⟨15, 8⟩
def MepDescOwner.OWNER0 : Fld := ⟨7, 0⟩
/-! Fields of `LP_CFG` (R532). -/
def LpCfg.DIR : Fld := ⟨63, 60⟩
def LpCfg.ALIGNINTQ : Fld := ⟨59, 52⟩
def LpCfg.CTLINT : Fld := ⟨51, 44⟩
def LpCfg.REPLAYMAX : Fld := ⟨43, 40⟩
def LpCfg.RETRAINMAX : Fld := ⟨39, 38⟩
def LpCfg.RTRYTO : Fld := ⟨37, 26⟩
def LpCfg.W16 : Fld := ⟨25, 25⟩
/-! Fields of `LP_STATE` (R533). -/
def LpState.STATE : Fld := ⟨63, 60⟩
def LpState.LASTERR : Fld := ⟨59, 56⟩
def LpState.PEERDCHIP : Fld := ⟨55, 48⟩
def LpState.PEERPORT : Fld := ⟨47, 44⟩
def LpState.PEERDIR : Fld := ⟨43, 40⟩
def LpState.WIDTH : Fld := ⟨39, 38⟩
def LpState.REV : Fld := ⟨37, 37⟩
def LpState.LANEOK : Fld := ⟨31, 0⟩
/-! Fields of `LP_LINK_STAT` (R534). -/
def LpLinkStat.CRCERR : Fld := ⟨63, 48⟩
def LpLinkStat.REPLAYS : Fld := ⟨47, 32⟩
def LpLinkStat.RECOV : Fld := ⟨31, 24⟩
def LpLinkStat.DOWNS : Fld := ⟨23, 16⟩
def LpLinkStat.CTLBAD : Fld := ⟨15, 8⟩
def LpLinkStat.FILLS : Fld := ⟨7, 0⟩
/-! Fields of `LP_VC_CFG` (R509). -/
def LpVcCfg.SIZES : Fld := ⟨63, 0⟩
/-! Fields of `LP_PM_CFG` (R527). -/
def LpPmCfg.QEN : Fld := ⟨63, 63⟩
def LpPmCfg.QIDLE : Fld := ⟨47, 32⟩
def LpPmCfg.DEEPIDLE : Fld := ⟨31, 16⟩
def LpPmCfg.DEEPREQ : Fld := ⟨0, 0⟩
/-! Fields of `LP_TEST_CTL` (R531). -/
def LpTestCtl.MODE : Fld := ⟨63, 61⟩
def LpTestCtl.POLY : Fld := ⟨60, 59⟩
def LpTestCtl.FELBOK : Fld := ⟨58, 58⟩
def LpTestCtl.INJB : Fld := ⟨57, 57⟩
def LpTestCtl.INJCRC : Fld := ⟨56, 56⟩
def LpTestCtl.INJCODE : Fld := ⟨55, 55⟩
def LpTestCtl.INJSP : Fld := ⟨54, 54⟩
def LpTestCtl.INJMASK : Fld := ⟨31, 0⟩
/-! Fields of `LP_TOFS` (R646). -/
def LpTofs.OFS : Fld := ⟨63, 0⟩
/-! Fields of `LP_TDLY` (R646). -/
def LpTdly.SPREAD : Fld := ⟨63, 32⟩
def LpTdly.DLY : Fld := ⟨31, 8⟩
def LpTdly.NS : Fld := ⟨7, 0⟩
/-! Fields of `LP_LANE_EQ` (R522). -/
def LpLaneEq.FIX : Fld := ⟨63, 63⟩
def LpLaneEq.PRE : Fld := ⟨47, 40⟩
def LpLaneEq.POST : Fld := ⟨39, 32⟩
def LpLaneEq.MAIN : Fld := ⟨31, 24⟩
def LpLaneEq.CTLE : Fld := ⟨23, 20⟩
def LpLaneEq.VTGT : Fld := ⟨19, 12⟩
/-! Fields of `LP_LANE_STAT` (R534). -/
def LpLaneStat.PRBSERR : Fld := ⟨63, 32⟩
def LpLaneStat.CODEERR : Fld := ⟨31, 16⟩
def LpLaneStat.SKEW : Fld := ⟨15, 8⟩
def LpLaneStat.POL : Fld := ⟨1, 1⟩
def LpLaneStat.LOCK : Fld := ⟨0, 0⟩
/-! Fields of `LP_SBIND_A` (R528). -/
def LpSbindA.STREAM : Fld := ⟨63, 48⟩
def LpSbindA.TENANT : Fld := ⟨47, 40⟩
def LpSbindA.PRIO : Fld := ⟨39, 38⟩
def LpSbindA.V : Fld := ⟨37, 37⟩
def LpSbindA.CTR : Fld := ⟨36, 26⟩
/-! Fields of `LP_SBIND_B` (R528). -/
def LpSbindB.ADDR : Fld := ⟨55, 0⟩
/-! Fields of `LP_SBIND_C` (R528). -/
def LpSbindC.DCHIP : Fld := ⟨63, 56⟩
def LpSbindC.DX : Fld := ⟨55, 53⟩
def LpSbindC.DY : Fld := ⟨52, 50⟩
def LpSbindC.DEP : Fld := ⟨49, 46⟩
def LpSbindC.WIN : Fld := ⟨31, 0⟩
/-! Fields of `GATE0` (R176). -/
def Gate0.GATES : Fld := ⟨31, 24⟩
def Gate0.DUR : Fld := ⟨23, 0⟩
/-! Fields of `GATE1` (R176). -/
def Gate1.GATES : Fld := ⟨31, 24⟩
def Gate1.DUR : Fld := ⟨23, 0⟩
/-! Fields of `GATE_ARM` (R177). -/
def GateArm.TIME : Fld := ⟨63, 0⟩
/-! Fields of `GATE_CTL` (R177). -/
def GateCtl.ARMERR : Fld := ⟨7, 4⟩
def GateCtl.BANK : Fld := ⟨1, 1⟩
def GateCtl.ARMED : Fld := ⟨0, 0⟩
/-! Fields of `RTE_CFG` (R468). -/
def RteCfg.UDPDST : Fld := ⟨63, 48⟩
def RteCfg.HOPLIM : Fld := ⟨47, 40⟩
def RteCfg.ACKDLY : Fld := ⟨39, 30⟩
def RteCfg.ACKRQL2 : Fld := ⟨29, 26⟩
def RteCfg.RTOMAX : Fld := ⟨25, 10⟩
def RteCfg.PSUSP : Fld := ⟨9, 0⟩
/-! Fields of `RTE_STAT` (R469). -/
def RteStat.STRAY : Fld := ⟨63, 48⟩
def RteStat.AUTHFAIL : Fld := ⟨47, 32⟩
def RteStat.ICRC : Fld := ⟨31, 16⟩
def RteStat.OOW : Fld := ⟨15, 0⟩
/-! Fields of `RTE_CCPA` (R473). -/
def RteCcpa.RINIT : Fld := ⟨63, 48⟩
def RteCcpa.RMIN : Fld := ⟨47, 32⟩
def RteCcpa.AI : Fld := ⟨31, 16⟩
def RteCcpa.HAI : Fld := ⟨15, 0⟩
/-! Fields of `RTE_CCPB` (R474). -/
def RteCcpb.QTGT : Fld := ⟨63, 48⟩
def RteCcpb.BETA : Fld := ⟨47, 40⟩
def RteCcpb.MDMAX : Fld := ⟨39, 32⟩
def RteCcpb.GSH : Fld := ⟨31, 28⟩
def RteCcpb.FASTN : Fld := ⟨27, 24⟩
def RteCcpb.BASEWIN : Fld := ⟨15, 0⟩
/-! Fields of `RTE_TC` (R479). -/
def RteTc.VT : Fld := ⟨63, 63⟩
def RteTc.PCP : Fld := ⟨62, 60⟩
def RteTc.VID : Fld := ⟨59, 48⟩
def RteTc.DSCP : Fld := ⟨47, 42⟩
def RteTc.CBS : Fld := ⟨41, 41⟩
def RteTc.IDLESLOPE : Fld := ⟨31, 16⟩
/-! Fields of `RTE_PORT_CFG` (R486). -/
def RtePortCfg.V4 : Fld := ⟨63, 63⟩
def RtePortCfg.V6 : Fld := ⟨62, 62⟩
def RtePortCfg.EEE : Fld := ⟨61, 61⟩
def RtePortCfg.NHV : Fld := ⟨60, 60⟩
def RtePortCfg.LPIIDLE : Fld := ⟨47, 32⟩
def RtePortCfg.TWMAX : Fld := ⟨31, 20⟩
def RtePortCfg.STMIN : Fld := ⟨19, 13⟩
def RtePortCfg.STSTEP : Fld := ⟨12, 6⟩
/-! Fields of `RTE_PORT_MAC` (R486). -/
def RtePortMac.SMAC : Fld := ⟨47, 0⟩
/-! Fields of `RTE_PORT_NH` (R486). -/
def RtePortNh.NHMAC : Fld := ⟨47, 0⟩
/-! Fields of `RTE_PORT_IP4` (R486). -/
def RtePortIp4.IP4 : Fld := ⟨31, 0⟩
/-! Fields of `RTE_PORT_IP6H` (R486). -/
def RtePortIp6h.IP6H : Fld := ⟨63, 0⟩
/-! Fields of `RTE_PORT_IP6L` (R486). -/
def RtePortIp6l.IP6L : Fld := ⟨63, 0⟩
/-! Fields of `RTE_PORT_STAT` (R487). -/
def RtePortStat.UNDERRUN : Fld := ⟨63, 48⟩
def RtePortStat.STARTTH : Fld := ⟨47, 35⟩
def RtePortStat.ACKDROP : Fld := ⟨31, 24⟩
def RtePortStat.NONRTE : Fld := ⟨23, 8⟩
def RtePortStat.LPIN : Fld := ⟨7, 0⟩
/-! Fields of `RTE_PORT_EEE` (R487). -/
def RtePortEee.PEERTW : Fld := ⟨47, 32⟩
def RtePortEee.TWSYS : Fld := ⟨31, 16⟩
def RtePortEee.EEEACT : Fld := ⟨0, 0⟩
/-! Fields of `RTE_SBIND_A` (R467). -/
def RteSbindA.STREAM : Fld := ⟨63, 48⟩
def RteSbindA.TENANT : Fld := ⟨47, 40⟩
def RteSbindA.QP : Fld := ⟨39, 26⟩
def RteSbindA.CH : Fld := ⟨25, 25⟩
def RteSbindA.V : Fld := ⟨24, 24⟩
def RteSbindA.CTR : Fld := ⟨10, 0⟩
/-! Fields of `RTE_SBIND_B` (R467). -/
def RteSbindB.RVA : Fld := ⟨63, 0⟩
/-! Fields of `RTE_SBIND_C` (R467). -/
def RteSbindC.RKEY : Fld := ⟨63, 32⟩
def RteSbindC.RBYTES : Fld := ⟨31, 0⟩
/-! Fields of `RTE_QP_STAT` (R429). -/
def RteQpStat.STATE : Fld := ⟨63, 62⟩
def RteQpStat.STATUS : Fld := ⟨61, 54⟩
def RteQpStat.OPS : Fld := ⟨53, 45⟩
def RteQpStat.TOSEQ : Fld := ⟨44, 41⟩
def RteQpStat.SRTT : Fld := ⟨39, 24⟩
def RteQpStat.RTX : Fld := ⟨23, 0⟩
/-! Fields of `RTE_QP_CC` (R477). -/
def RteQpCc.RATE : Fld := ⟨63, 48⟩
def RteQpCc.ALPHA : Fld := ⟨47, 40⟩
def RteQpCc.BASE : Fld := ⟨39, 8⟩
def RteQpCc.INCN : Fld := ⟨7, 0⟩
/-! Fields of `RTR_EP_OWNER` (R143). -/
def RtrEpOwner.OWNER : Fld := ⟨7, 0⟩
/-! Fields of `RTR_DYN_ARB` (R111). -/
def RtrDynArb.W2 : Fld := ⟨23, 16⟩
def RtrDynArb.W1 : Fld := ⟨15, 8⟩
def RtrDynArb.W0 : Fld := ⟨7, 0⟩
/-! Fields of `RTR_SP_STAT` (R286). -/
def RtrSpStat.SPILLS : Fld := ⟨63, 32⟩
def RtrSpStat.STALE : Fld := ⟨31, 16⟩
def RtrSpStat.BAD : Fld := ⟨15, 0⟩
/-! Fields of `RTR_SHADOW_CFG` (R615). -/
def RtrShadowCfg.EN : Fld := ⟨31, 31⟩
def RtrShadowCfg.NL2 : Fld := ⟨27, 24⟩
def RtrShadowCfg.SEED : Fld := ⟨15, 0⟩
/-! Fields of `RTR_SHADOW_STAT` (R616). -/
def RtrShadowStat.CHECKS : Fld := ⟨63, 40⟩
def RtrShadowStat.TRANS : Fld := ⟨39, 32⟩
def RtrShadowStat.RETLANE : Fld := ⟨31, 28⟩
def RtrShadowStat.RET : Fld := ⟨27, 27⟩
def RtrShadowStat.SPAREBAD : Fld := ⟨26, 26⟩
def RtrShadowStat.NOSHADOW : Fld := ⟨25, 25⟩
/-! Fields of `RTR_SHADOW_CAP` (R617). -/
def RtrShadowCap.CAP : Fld := ⟨63, 0⟩
/-! Fields of `RTR_SCH_RANGE` (R61). -/
def RtrSchRange.COUNT : Fld := ⟨28, 16⟩
def RtrSchRange.BASE : Fld := ⟨11, 0⟩
/-! Fields of `RTR_PHASE_OWNER_LO` (R64). -/
def RtrPhaseLo.OWNERS : Fld := ⟨63, 0⟩
/-! Fields of `RTR_PHASE_OWNER_HI` (R64). -/
def RtrPhaseHi.OWNERS : Fld := ⟨63, 0⟩
/-! Fields of `TEL_LINK_UTIL` (R638). -/
def TelLinkUtil.SBUSY : Fld := ⟨63, 32⟩
def TelLinkUtil.DFLITS : Fld := ⟨31, 0⟩
/-! Fields of `RTR_RED_CTXA` (R221). -/
def RedCtxA.TENANT : Fld := ⟨63, 56⟩
def RedCtxA.MODE : Fld := ⟨55, 54⟩
def RedCtxA.OP : Fld := ⟨53, 51⟩
def RedCtxA.EFMT : Fld := ⟨50, 47⟩
def RedCtxA.IWIRE : Fld := ⟨46, 45⟩
def RedCtxA.OWIRE : Fld := ⟨44, 43⟩
def RedCtxA.ISP : Fld := ⟨42, 42⟩
def RedCtxA.FINAL : Fld := ⟨41, 41⟩
def RedCtxA.RING : Fld := ⟨40, 40⟩
def RedCtxA.NOPSM1 : Fld := ⟨38, 33⟩
def RedCtxA.RLO : Fld := ⟨32, 19⟩
def RedCtxA.LVL : Fld := ⟨18, 15⟩
def RedCtxA.GNM1 : Fld := ⟨14, 1⟩
def RedCtxA.EN : Fld := ⟨0, 0⟩
/-! Fields of `RTR_RED_CTXB` (R222). -/
def RedCtxB.ODCHIP : Fld := ⟨63, 56⟩
def RedCtxB.ODX : Fld := ⟨55, 53⟩
def RedCtxB.ODY : Fld := ⟨52, 50⟩
def RedCtxB.ODEP : Fld := ⟨49, 46⟩
def RedCtxB.OCTX : Fld := ⟨45, 42⟩
def RedCtxB.LENFM1 : Fld := ⟨41, 18⟩
def RedCtxB.PWIN : Fld := ⟨17, 10⟩
def RedCtxB.OPRIO : Fld := ⟨9, 8⟩
/-! Fields of `RTR_RED_CTXS` (R223). -/
def RedCtxS.SEQ : Fld := ⟨63, 48⟩
def RedCtxS.BASE : Fld := ⟨47, 24⟩
def RedCtxS.STATUS : Fld := ⟨23, 16⟩
def RedCtxS.LINES : Fld := ⟨15, 4⟩
def RedCtxS.STATE : Fld := ⟨3, 2⟩
def RedCtxS.POISONED : Fld := ⟨1, 1⟩
def RedCtxS.CFGERR : Fld := ⟨0, 0⟩
/-! Fields of `RTR_RED_CSTAT` (R254). -/
def RedCstat.FLITS : Fld := ⟨63, 32⟩
def RedCstat.DIGEST : Fld := ⟨31, 24⟩
def RedCstat.POISON : Fld := ⟨23, 16⟩
def RedCstat.ISAT : Fld := ⟨15, 8⟩
def RedCstat.ORPHAN : Fld := ⟨7, 0⟩
/-! Fields of `TEL_RU_FMT` (R639). -/
def TelRuFmt.OVF : Fld := ⟨63, 48⟩
def TelRuFmt.SAT : Fld := ⟨47, 32⟩
def TelRuFmt.NFIN : Fld := ⟨31, 16⟩
def TelRuFmt.MALF : Fld := ⟨15, 0⟩
/-! Fields of `RTR_SP_NODE` (R287). -/
def RtrSpNode.GROUP : Fld := ⟨63, 48⟩
def RtrSpNode.EPOCH : Fld := ⟨47, 32⟩
def RtrSpNode.TENANT : Fld := ⟨31, 24⟩
def RtrSpNode.PDCHIP : Fld := ⟨23, 16⟩
def RtrSpNode.PX : Fld := ⟨15, 13⟩
def RtrSpNode.PY : Fld := ⟨12, 10⟩
def RtrSpNode.ROOTN : Fld := ⟨9, 9⟩
def RtrSpNode.NIN : Fld := ⟨8, 5⟩
def RtrSpNode.V : Fld := ⟨0, 0⟩
/-! Fields of `RTR_XBAR_BANK0` (R59). -/
def RtrXbar0.STREAM : Fld := ⟨63, 48⟩
def RtrXbar0.TENANT : Fld := ⟨47, 40⟩
def RtrXbar0.START : Fld := ⟨39, 24⟩
def RtrXbar0.RUN : Fld := ⟨23, 12⟩
def RtrXbar0.IN : Fld := ⟨11, 8⟩
def RtrXbar0.OUT : Fld := ⟨7, 4⟩
def RtrXbar0.CTX : Fld := ⟨3, 0⟩
/-! Fields of `RTR_XBAR_BANK1` (R59). -/
def RtrXbar1.STREAM : Fld := ⟨63, 48⟩
def RtrXbar1.TENANT : Fld := ⟨47, 40⟩
def RtrXbar1.START : Fld := ⟨39, 24⟩
def RtrXbar1.RUN : Fld := ⟨23, 12⟩
def RtrXbar1.IN : Fld := ⟨11, 8⟩
def RtrXbar1.OUT : Fld := ⟨7, 4⟩
def RtrXbar1.CTX : Fld := ⟨3, 0⟩
/-! Fields of `TNI_FMT_STAT` (R216). -/
def TniFmtStat.OVF : Fld := ⟨63, 48⟩
def TniFmtStat.SAT : Fld := ⟨47, 32⟩
def TniFmtStat.NFIN : Fld := ⟨31, 16⟩
def TniFmtStat.MALF : Fld := ⟨15, 0⟩
/-! Fields of `TNI_SLU_STAT` (R315). -/
def TniSluStat.ROWS : Fld := ⟨63, 40⟩
def TniSluStat.DROPPED : Fld := ⟨39, 24⟩
def TniSluStat.SPILLED : Fld := ⟨23, 8⟩
def TniSluStat.ZROWS : Fld := ⟨7, 0⟩
/-! Fields of `TNI_CH_COUNT` (R350). -/
def TniChCount.MSGS : Fld := ⟨63, 40⟩
def TniChCount.SPILLED : Fld := ⟨39, 24⟩
def TniChCount.SPFULL : Fld := ⟨23, 16⟩
def TniChCount.REFUSED : Fld := ⟨15, 8⟩
def TniChCount.DISCARDED : Fld := ⟨7, 0⟩
/-! Fields of `TNI_CORE_CTX` (R607). -/
def TniCoreCtx.DEAD : Fld := ⟨0, 0⟩
/-! Fields of `TNI_PCS_CFG` (R657). -/
def TniPcsCfg.EN : Fld := ⟨31, 31⟩
def TniPcsCfg.PCL2 : Fld := ⟨30, 26⟩
/-! Fields of `TNI_PUMP_PSN` (R608). -/
def TniPumpPsn.PSN : Fld := ⟨63, 0⟩
/-! Fields of `TNI_GRP_PSN` (R608). -/
def TniGrpPsn.PSN : Fld := ⟨63, 0⟩
/-! Fields of `TNI_OPM_CFG` (R649). -/
def TniOpmCfg.LV : Fld := ⟨63, 48⟩
def TniOpmCfg.LM : Fld := ⟨47, 32⟩
def TniOpmCfg.OV : Fld := ⟨31, 16⟩
def TniOpmCfg.OM : Fld := ⟨15, 0⟩
/-! Fields of `TNI_OPM_CNT` (R649). -/
def TniOpmCnt.PKTS : Fld := ⟨63, 40⟩
def TniOpmCnt.BYTES : Fld := ⟨39, 0⟩
/-! Fields of `TNI_WATCH_CFG` (R658). -/
def TniWatchCfg.EN : Fld := ⟨63, 63⟩
def TniWatchCfg.MODE : Fld := ⟨62, 62⟩
def TniWatchCfg.EFMT : Fld := ⟨61, 58⟩
def TniWatchCfg.ODD : Fld := ⟨49, 49⟩
def TniWatchCfg.LINESM1 : Fld := ⟨48, 32⟩
def TniWatchCfg.BASE : Fld := ⟨22, 0⟩
/-! Fields of `TNI_WATCH_STAT` (R660). -/
def TniWatchStat.ROUNDS : Fld := ⟨63, 32⟩
def TniWatchStat.OVL : Fld := ⟨1, 1⟩
def TniWatchStat.BUSY : Fld := ⟨0, 0⟩
/-! Fields of `TNI_WATCH_RES0` (R660). -/
def TniWatchRes0.COUNT : Fld := ⟨63, 32⟩
def TniWatchRes0.ZEROS : Fld := ⟨31, 0⟩
/-! Fields of `TNI_WATCH_RES1` (R660). -/
def TniWatchRes1.NANS : Fld := ⟨63, 32⟩
def TniWatchRes1.INFS : Fld := ⟨31, 0⟩
/-! Fields of `TNI_WATCH_RES2` (R660). -/
def TniWatchRes2.MIN : Fld := ⟨63, 0⟩
/-! Fields of `TNI_WATCH_RES3` (R660). -/
def TniWatchRes3.MAX : Fld := ⟨63, 0⟩
/-! Fields of `TNI_WATCH_RES4` (R660). -/
def TniWatchRes4.SUM : Fld := ⟨63, 0⟩
/-! Fields of `TNI_WATCH_RES5` (R660). -/
def TniWatchRes5.SUMSQ : Fld := ⟨63, 0⟩
/-! Fields of `TNI_SLU_OSTAT` (R303). -/
def TniSluOstat.GIDX : Fld := ⟨63, 52⟩
def TniSluOstat.STATE : Fld := ⟨51, 50⟩
def TniSluOstat.ROUND : Fld := ⟨49, 47⟩
def TniSluOstat.EXPECT : Fld := ⟨46, 29⟩
def TniSluOstat.GOT : Fld := ⟨28, 11⟩
def TniSluOstat.STATUS : Fld := ⟨7, 0⟩
/-! Fields of `TNI_SLU_INBA` (R297). -/
def TniSluInba.TENANT : Fld := ⟨63, 56⟩
def TniSluInba.GIDX : Fld := ⟨55, 44⟩
def TniSluInba.EFMT : Fld := ⟨43, 40⟩
def TniSluInba.WIRE : Fld := ⟨39, 38⟩
def TniSluInba.CAP : Fld := ⟨37, 22⟩
def TniSluInba.CTR : Fld := ⟨21, 11⟩
def TniSluInba.V : Fld := ⟨0, 0⟩
/-! Fields of `TNI_SLU_INBB` (R297). -/
def TniSluInbb.HM1 : Fld := ⟨63, 50⟩
def TniSluInbb.RGN : Fld := ⟨49, 49⟩
def TniSluInbb.OFFSET : Fld := ⟨39, 0⟩
/-! Fields of `TNI_SLU_ISTAT` (R300). -/
def TniSluIstat.FILLED : Fld := ⟨63, 48⟩
def TniSluIstat.ARRIVED : Fld := ⟨47, 32⟩
def TniSluIstat.DROPS : Fld := ⟨31, 16⟩
def TniSluIstat.STATUS : Fld := ⟨15, 8⟩
def TniSluIstat.POISONED : Fld := ⟨2, 2⟩
def TniSluIstat.STATE : Fld := ⟨1, 0⟩
/-! Fields of `TNI_PUMP_DESC` (R79). -/
def TniPumpDesc.DATA : Fld := ⟨63, 0⟩
/-! Fields of `TNI_CH_HTAB` (R323). -/
def TniChHtab.V : Fld := ⟨63, 63⟩
def TniChHtab.ENTRY : Fld := ⟨47, 0⟩
/-! Fields of `TNI_GRP_MEMBER` (R266). -/
def TniGrpMember.SEQ : Fld := ⟨63, 32⟩
def TniGrpMember.V : Fld := ⟨31, 31⟩
def TniGrpMember.SCTR : Fld := ⟨24, 14⟩
def TniGrpMember.RANK : Fld := ⟨13, 0⟩
/-! Fields of `TNI_CH_CFG` (R320). -/
def TniChCfg.KIND : Fld := ⟨63, 62⟩
def TniChCfg.COP : Fld := ⟨61, 59⟩
def TniChCfg.CEFMT : Fld := ⟨58, 55⟩
def TniChCfg.CCNTM1 : Fld := ⟨54, 39⟩
def TniChCfg.DPRI : Fld := ⟨38, 37⟩
def TniChCfg.HEN : Fld := ⟨36, 36⟩
def TniChCfg.HIDX : Fld := ⟨35, 28⟩
def TniChCfg.DEPTHM1 : Fld := ⟨11, 0⟩
/-! Fields of `TNI_CH_RING` (R321). -/
def TniChRing.ODD : Fld := ⟨23, 23⟩
def TniChRing.RBASE : Fld := ⟨22, 0⟩
/-! Fields of `TNI_CH_SPILL` (R322). -/
def TniChSpill.SPCAP : Fld := ⟨59, 40⟩
def TniChSpill.SPBASE : Fld := ⟨39, 12⟩
/-! Fields of `TNI_CH_STAT` (R324). -/
def TniChStat.STATE : Fld := ⟨63, 62⟩
def TniChStat.SPCNT : Fld := ⟨61, 42⟩
def TniChStat.RCNT : Fld := ⟨41, 29⟩
def TniChStat.HEAD : Fld := ⟨28, 17⟩
def TniChStat.DISP : Fld := ⟨16, 16⟩
def TniChStat.ASEQ : Fld := ⟨15, 0⟩

/-- A register of a block window: its first offset, stride, first index and count, reset domain and fields. -/
structure RegDef where
  name : RegName
  off : Nat
  stride : Nat
  first : Nat
  count : Nat
  dom : RDom
  fields : List FieldDef
  deriving DecidableEq, Repr

/-- `FAB_PKG_INFO` (R45). -/
def fabPkgInfoDef : RegDef := ⟨.fabPkgInfo, 0x0, 8, 0, 1, .mi,
  [⟨FabPkgInfo.GRADE, .ro, 0⟩, ⟨FabPkgInfo.DCHIP, .rw, 0⟩, ⟨FabPkgInfo.TZM1, .rw, 0⟩, ⟨FabPkgInfo.TYM1, .rw, 0⟩, ⟨FabPkgInfo.TXM1, .rw, 0⟩]⟩
/-- `FAB_GOOD_TILES` (R47). -/
def fabGoodTilesDef : RegDef := ⟨.fabGoodTiles, 0x8, 8, 0, 1, .mi,
  [⟨FabGoodTiles.GOOD, .ro, 0⟩]⟩
/-- `FAB_TWIN_MAP` (R49). -/
def fabTwinMapDef : RegDef := ⟨.fabTwinMap, 0x10, 8, 0, 1, .fab,
  [⟨FabTwinMap.TWIN, .rw, 0⟩]⟩
/-- `FAB_CLK_STAT` (R573). -/
def fabClkStatDef : RegDef := ⟨.fabClkStat, 0x18, 8, 0, 1, .mi,
  [⟨FabClkStat.LOSSES, .ro, 0⟩, ⟨FabClkStat.REFOK, .ro, 0⟩, ⟨FabClkStat.LOCK, .ro, 0⟩]⟩
/-- `FAB_PWR_EVT` (R584). -/
def fabPwrEvtDef : RegDef := ⟨.fabPwrEvt, 0x20, 8, 0, 1, .vdd18,
  [⟨FabPwrEvt.OT, .w1c, 0⟩, ⟨FabPwrEvt.UV, .w1c, 0⟩, ⟨FabPwrEvt.EXT, .w1c, 0⟩]⟩
/-- `FAB_PWR_STAT` (R587). -/
def fabPwrStatDef : RegDef := ⟨.fabPwrStat, 0x28, 8, 0, 1, .mi,
  [⟨FabPwrStat.IDLES, .ro, 0⟩, ⟨FabPwrStat.WSRC, .ro, 0⟩, ⟨FabPwrStat.STATE, .ro, 1⟩]⟩
/-- `FAB_PWR_CTL` (R591). -/
def fabPwrCtlDef : RegDef := ⟨.fabPwrCtl, 0x30, 8, 0, 1, .fab,
  [⟨FabPwrCtl.FIDLE, .rw, 0⟩, ⟨FabPwrCtl.WAKE, .w1s, 0⟩, ⟨FabPwrCtl.IDLEEN, .rw, 0⟩]⟩
/-- `FAB_BOOT_STAT` (R596). -/
def fabBootStatDef : RegDef := ⟨.fabBootStat, 0x38, 8, 0, 1, .mi,
  [⟨FabBootStat.TOPENUS, .ro, 0⟩, ⟨FabBootStat.CODE, .ro, 0⟩, ⟨FabBootStat.STAGE, .ro, 0⟩, ⟨FabBootStat.FAIL, .ro, 0⟩]⟩
/-- `FAB_INJ` (R631). -/
def fabInjDef : RegDef := ⟨.fabInj, 0x40, 8, 0, 1, .fab,
  [⟨FabInj.ARM, .w1s, 0⟩, ⟨FabInj.DET, .rw, 0⟩, ⟨FabInj.SEL, .rw, 0⟩, ⟨FabInj.BITS, .rw, 0⟩, ⟨FabInj.DONE, .ro, 0⟩]⟩
/-- `FMP_RSV_CFG` (R127). -/
def fmpRsvCfgDef : RegDef := ⟨.fmpRsvCfg, 0x48, 8, 0, 1, .fab,
  [⟨FmpRsvCfg.RSPTO, .rw, 0x3E8⟩, ⟨FmpRsvCfg.RSVTO, .rw, 0x14⟩, ⟨FmpRsvCfg.MCSETTLE, .rw, 0x80⟩, ⟨FmpRsvCfg.LEASE, .rw, 0x10⟩]⟩
/-- `FMP_CISTERN_STAT` (R128). -/
def fmpCisternStatDef : RegDef := ⟨.fmpCisternStat, 0x50, 8, 0, 2, .fab,
  [⟨FmpCisternStat.PEND, .ro, 0⟩, ⟨FmpCisternStat.GRANTED, .ro, 0⟩, ⟨FmpCisternStat.FREE, .ro, 0x17C⟩]⟩
/-- `FAB_SCH_CTX` (R68). -/
def fabSchCtxDef : RegDef := ⟨.fabSchCtx, 0x1000, 8, 1, 63, .fab,
  [⟨FabSchCtx.ROUNDQ_ACT, .ro, 0⟩, ⟨FabSchCtx.ROUNDQ, .rw, 0⟩, ⟨FabSchCtx.SLIPMAX, .rw, 0x40⟩, ⟨FabSchCtx.ARMERR, .ro, 0⟩, ⟨FabSchCtx.STATE, .ro, 0⟩, ⟨FabSchCtx.BANK, .ro, 0⟩, ⟨FabSchCtx.ARMED, .ro, 0⟩]⟩
/-- `FAB_SCH_ARM` (R69). -/
def fabSchArmDef : RegDef := ⟨.fabSchArm, 0x1200, 8, 1, 63, .fab,
  [⟨FabSchArm.TIME, .rw, 0⟩]⟩
/-- `FAB_SCH_STAT` (R96). -/
def fabSchStatDef : RegDef := ⟨.fabSchStat, 0x1400, 8, 1, 63, .fab,
  [⟨FabSchStat.QUANTA, .ro, 0⟩, ⟨FabSchStat.SLIPS, .ro, 0⟩]⟩
/-- `FAB_TVIOL` (R560). -/
def fabTviolDef : RegDef := ⟨.fabTviol, 0x1600, 8, 0, 64, .fab,
  [⟨FabTviol.COUNT, .ro, 0⟩]⟩
/-- `FAB_SENSOR` (R585). -/
def fabSensorDef : RegDef := ⟨.fabSensor, 0x2000, 8, 0, 80, .mi,
  [⟨FabSensor.TEMP, .ro, 0⟩, ⟨FabSensor.VOLT, .ro, 0⟩, ⟨FabSensor.VALID, .ro, 0⟩]⟩
/-- `FAB_GRP_A` (R265). -/
def fabGrpADef : RegDef := ⟨.fabGrpA, 0x10000, 16, 0, 4096, .fab,
  [⟨FabGrpA.GROUP, .rw, 0⟩, ⟨FabGrpA.EPOCH, .rw, 0⟩, ⟨FabGrpA.TENANT, .rw, 0xFF⟩, ⟨FabGrpA.NM1, .rw, 0⟩, ⟨FabGrpA.SPEN, .rw, 0⟩, ⟨FabGrpA.STATE, .ro, 0⟩]⟩
/-- `FAB_GRP_B` (R265). -/
def fabGrpBDef : RegDef := ⟨.fabGrpB, 0x10008, 16, 0, 4096, .fab,
  [⟨FabGrpB.STEPTO, .rw, 0xC350⟩, ⟨FabGrpB.CDCHIP, .rw, 0⟩, ⟨FabGrpB.CDX, .rw, 0⟩, ⟨FabGrpB.CDY, .rw, 0⟩]⟩
/-- `SEC_SEALED` (R545). -/
def secSealedDef : RegDef := ⟨.secSealed, 0x0, 8, 0, 1, .mi,
  [⟨SecSealed.SEALED, .ro, 0⟩]⟩
/-- `SEC_STAT` (R563). -/
def secStatDef : RegDef := ⟨.secStat, 0x8, 8, 0, 1, .mi,
  [⟨SecStat.DENIED, .ro, 0⟩, ⟨SecStat.SIGFAIL, .ro, 0⟩, ⟨SecStat.AUTHFAIL, .ro, 0⟩, ⟨SecStat.NOKEY, .ro, 0⟩]⟩
/-- `SEC_INJ` (R631). -/
def secInjDef : RegDef := ⟨.secInj, 0x10, 8, 0, 1, .mi,
  [⟨SecInj.ARM, .w1s, 0⟩, ⟨SecInj.DET, .rw, 0⟩, ⟨SecInj.SEL, .rw, 0⟩, ⟨SecInj.BITS, .rw, 0⟩, ⟨SecInj.DONE, .ro, 0⟩]⟩
/-- `SEC_CSEQ` (R547). -/
def secCseqDef : RegDef := ⟨.secCseq, 0x100, 8, 1, 63, .mi,
  [⟨SecCseq.CSEQ, .ro, 0⟩]⟩
/-- `TEL_FRZ_CTL` (R644). -/
def telFrzCtlDef : RegDef := ⟨.telFrzCtl, 0x0, 8, 0, 1, .mi,
  [⟨TelFrzCtl.FLEAD, .rw, 4⟩]⟩
/-- `TEL_FRZ_STAT` (R644). -/
def telFrzStatDef : RegDef := ⟨.telFrzStat, 0x8, 8, 0, 1, .mi,
  [⟨TelFrzStat.FRZNO, .ro, 0⟩, ⟨TelFrzStat.LATE, .ro, 0⟩, ⟨TelFrzStat.FROZEN, .ro, 0⟩]⟩
/-- `TEL_FRZ_TIME` (R644). -/
def telFrzTimeDef : RegDef := ⟨.telFrzTime, 0x10, 8, 0, 1, .mi,
  [⟨TelFrzTime.TIME, .ro, 0⟩]⟩
/-- `TEL_TW_CFG` (R650). -/
def telTwCfgDef : RegDef := ⟨.telTwCfg, 0x1000, 8, 0, 64, .fab,
  [⟨TelTwCfg.EN, .rw, 0⟩, ⟨TelTwCfg.WRAP, .rw, 0⟩, ⟨TelTwCfg.TRL2, .rw, 0⟩, ⟨TelTwCfg.CMD, .rw, 0⟩, ⟨TelTwCfg.LANE, .rw, 0⟩, ⟨TelTwCfg.NCHUNK, .rw, 0⟩, ⟨TelTwCfg.BASE, .rw, 0⟩]⟩
/-- `TEL_TW_STAT` (R656). -/
def telTwStatDef : RegDef := ⟨.telTwStat, 0x1200, 8, 0, 64, .mi,
  [⟨TelTwStat.CHUNKS, .ro, 0⟩, ⟨TelTwStat.LOST, .ro, 0⟩]⟩
/-- `ECC_STAT` (R604). -/
def eccStatDef : RegDef := ⟨.eccStat, 0x0, 8, 0, 1, .prod,
  [⟨EccStat.CE, .ro, 0⟩, ⟨EccStat.UE, .ro, 0⟩, ⟨EccStat.CFGUE, .ro, 0⟩]⟩
/-- `INJ` (R631). -/
def injDef : RegDef := ⟨.inj, 0x8, 8, 0, 1, .blk,
  [⟨Inj.ARM, .w1s, 0⟩, ⟨Inj.DET, .rw, 0⟩, ⟨Inj.SEL, .rw, 0⟩, ⟨Inj.BITS, .rw, 0⟩, ⟨Inj.DONE, .ro, 0⟩]⟩
/-- `RSV_CFG` (R127). -/
def rsvCfgDef : RegDef := ⟨.rsvCfg, 0x10, 8, 0, 1, .blk,
  [⟨RsvCfg.RSPTO, .rw, 0x3E8⟩, ⟨RsvCfg.RSVTO, .rw, 0x14⟩, ⟨RsvCfg.MCSETTLE, .rw, 0x80⟩, ⟨RsvCfg.LEASE, .rw, 0x10⟩]⟩
/-- `CISTERN_STAT` (R128). -/
def cisternStatDef : RegDef := ⟨.cisternStat, 0x18, 8, 0, 1, .blk,
  [⟨CisternStat.PEND, .ro, 0⟩, ⟨CisternStat.GRANTED, .ro, 0⟩, ⟨CisternStat.FREE, .ro, 0⟩]⟩
/-- `RSV_SHARE` (R541). -/
def rsvShareDef : RegDef := ⟨.rsvShare, 0x200, 8, 1, 63, .blk,
  [⟨RsvShare.SLOTS, .rw, 0⟩]⟩
/-- `TEL_TUTIL` (R639). -/
def telTutilDef : RegDef := ⟨.telTutil, 0x400, 8, 0, 64, .blk,
  [⟨TelTutil.IN, .ro, 0⟩, ⟨TelTutil.OUT, .ro, 0⟩]⟩
/-- `ARB_SLOT0` (R149). -/
def arbSlot0Def : RegDef := ⟨.arbSlot0, 0x0, 8, 0, 256, .blk,
  [⟨ArbSlot0.V3, .rw, 0⟩, ⟨ArbSlot0.OWNER3, .rw, 0⟩, ⟨ArbSlot0.V2, .rw, 0⟩, ⟨ArbSlot0.OWNER2, .rw, 0⟩, ⟨ArbSlot0.V1, .rw, 0⟩, ⟨ArbSlot0.OWNER1, .rw, 0⟩, ⟨ArbSlot0.V0, .rw, 0⟩, ⟨ArbSlot0.OWNER0, .rw, 0⟩]⟩
/-- `ARB_SLOT1` (R149). -/
def arbSlot1Def : RegDef := ⟨.arbSlot1, 0x800, 8, 0, 256, .blk,
  [⟨ArbSlot1.V3, .rw, 0⟩, ⟨ArbSlot1.OWNER3, .rw, 0⟩, ⟨ArbSlot1.V2, .rw, 0⟩, ⟨ArbSlot1.OWNER2, .rw, 0⟩, ⟨ArbSlot1.V1, .rw, 0⟩, ⟨ArbSlot1.OWNER1, .rw, 0⟩, ⟨ArbSlot1.V0, .rw, 0⟩, ⟨ArbSlot1.OWNER0, .rw, 0⟩]⟩
/-- `ARB_SHARE` (R167). -/
def arbShareDef : RegDef := ⟨.arbShare, 0x1000, 8, 0, 64, .blk,
  [⟨ArbShare.WMAX, .rw, 0xFFFF⟩, ⟨ArbShare.WMIN, .rw, 0⟩, ⟨ArbShare.CAP, .rw, 0x400⟩, ⟨ArbShare.WEIGHT, .rw, 0x10⟩]⟩
/-- `ARB_RSTAT` (R168). -/
def arbRstatDef : RegDef := ⟨.arbRstat, 0x1200, 8, 0, 64, .blk,
  [⟨ArbRstat.TOKENS, .ro, 0⟩, ⟨ArbRstat.CREDIT, .ro, 0⟩, ⟨ArbRstat.AGE, .ro, 0⟩, ⟨ArbRstat.WAIT, .ro, 0⟩]⟩
/-- `ARB_SHAPE` (R172). -/
def arbShapeDef : RegDef := ⟨.arbShape, 0x1400, 8, 0, 64, .blk,
  [⟨ArbShape.EN, .rw, 0⟩, ⟨ArbShape.REFILL, .rw, 0⟩, ⟨ArbShape.BURST, .rw, 0x100⟩, ⟨ArbShape.RATE, .rw, 0x10⟩]⟩
/-- `ARB_CFG` (R166). -/
def arbCfgDef : RegDef := ⟨.arbCfg, 0x1600, 8, 0, 1, .blk,
  [⟨ArbCfg.WDOG, .rw, 0x10000⟩, ⟨ArbCfg.OWNMAX, .rw, 0x380⟩, ⟨ArbCfg.STARVE, .rw, 0x100⟩, ⟨ArbCfg.STEP, .rw, 0x40⟩, ⟨ArbCfg.WINDOWQ, .rw, 4⟩]⟩
/-- `ARB_STARVE` (R169). -/
def arbStarveDef : RegDef := ⟨.arbStarve, 0x1608, 8, 0, 1, .blk,
  [⟨ArbStarve.FLAG, .w1c, 0⟩]⟩
/-- `ARB_STAT0` (R169). -/
def arbStat0Def : RegDef := ⟨.arbStat0, 0x1610, 8, 0, 1, .prod,
  [⟨ArbStat0.BGRAINS, .ro, 0⟩, ⟨ArbStat0.OGRAINS, .ro, 0⟩]⟩
/-- `ARB_STAT1` (R169). -/
def arbStat1Def : RegDef := ⟨.arbStat1, 0x1618, 8, 0, 1, .prod,
  [⟨ArbStat1.OWNLOST, .ro, 0⟩, ⟨ArbStat1.PREEMPT, .ro, 0⟩, ⟨ArbStat1.PARKS, .ro, 0⟩, ⟨ArbStat1.BITES, .ro, 0⟩, ⟨ArbStat1.STARVES, .ro, 0⟩]⟩
/-- `ARB_ARM` (R170). -/
def arbArmDef : RegDef := ⟨.arbArm, 0x1620, 8, 0, 1, .blk,
  [⟨ArbArm.TIME, .rw, 0⟩]⟩
/-- `ARB_CTL` (R170). -/
def arbCtlDef : RegDef := ⟨.arbCtl, 0x1628, 8, 0, 1, .blk,
  [⟨ArbCtl.ARMERR, .ro, 0⟩, ⟨ArbCtl.BANK, .ro, 0⟩, ⟨ArbCtl.ARMED, .ro, 0⟩]⟩
/-- `CTR` (R256). -/
def ctrDef : RegDef := ⟨.ctr, 0x10000, 8, 0, 2048, .blk,
  [⟨Ctr.TENANT, .rw, 0xFF⟩, ⟨Ctr.STATUS, .ro, 0⟩, ⟨Ctr.FAIL, .w1c, 0⟩, ⟨Ctr.VALUE, .rw, 0⟩]⟩
/-- `TRIGA` (R259). -/
def trigaDef : RegDef := ⟨.triga, 0x14000, 16, 0, 512, .blk,
  [⟨Triga.THRESH, .rw, 0⟩, ⟨Triga.THRINC, .rw, 0⟩, ⟨Triga.PHASE, .rw, 7⟩, ⟨Triga.CTR, .rw, 0⟩]⟩
/-- `TRIGB` (R259). -/
def trigbDef : RegDef := ⟨.trigb, 0x14008, 16, 0, 512, .blk,
  [⟨Trigb.TENANT, .rw, 0xFF⟩, ⟨Trigb.DCTR, .rw, 0⟩, ⟨Trigb.DEN, .rw, 0⟩, ⟨Trigb.GIDX, .rw, 0⟩, ⟨Trigb.REL, .rw, 0⟩, ⟨Trigb.LAST, .rw, 0⟩, ⟨Trigb.FIRST, .rw, 0⟩, ⟨Trigb.FIRED, .ro, 0⟩, ⟨Trigb.V, .rw, 0⟩]⟩
/-- `DSTORE` (R259). -/
def dstoreDef : RegDef := ⟨.dstore, 0x18000, 8, 0, 4096, .blk,
  [⟨Dstore.DATA, .rw, 0⟩]⟩
/-- `TNI_LAND` (R263). -/
def tniLandDef : RegDef := ⟨.tniLand, 0x16000, 8, 0, 16, .blk,
  [⟨TniLand.TENANT, .rw, 0xFF⟩, ⟨TniLand.GIDX, .rw, 0⟩, ⟨TniLand.CTR, .rw, 0⟩, ⟨TniLand.FINAL, .rw, 0⟩, ⟨TniLand.OFFP, .rw, 0⟩]⟩
/-- `RELAY` (R264). -/
def relayDef : RegDef := ⟨.relay, 0x16000, 8, 0, 16, .blk,
  [⟨Relay.TENANT, .rw, 0xFF⟩, ⟨Relay.TDCHIP, .rw, 0⟩, ⟨Relay.TDX, .rw, 0⟩, ⟨Relay.TDY, .rw, 0⟩, ⟨Relay.TDEP, .rw, 0⟩, ⟨Relay.TCTX, .rw, 0⟩, ⟨Relay.PHASE, .rw, 7⟩, ⟨Relay.CTR, .rw, 0⟩, ⟨Relay.V, .rw, 0⟩]⟩
/-- `HP_CFG` (R373). -/
def hpCfgDef : RegDef := ⟨.hpCfg, 0x1000, 8, 0, 1, .blk,
  [⟨HpCfg.STALE, .rw, 0xFA⟩, ⟨HpCfg.REREAD, .rw, 0x20⟩, ⟨HpCfg.RODATA, .rw, 0⟩]⟩
/-- `HP_FN_STAT` (R357). -/
def hpFnStatDef : RegDef := ⟨.hpFnStat, 0x0, 8, 0, 1, .blk,
  [⟨HpFnStat.LOSSES, .ro, 0⟩, ⟨HpFnStat.STRAY, .ro, 0⟩, ⟨HpFnStat.SEALED, .ro, 0⟩, ⟨HpFnStat.STATE, .ro, 0⟩]⟩
/-- `HP_CR_DB` (R364). -/
def hpCrDbDef : RegDef := ⟨.hpCrDb, 0x1000, 8, 0, 16, .blk,
  [⟨HpCrDb.TAIL, .wo, 0⟩]⟩
/-- `HP_CQ_DB` (R364). -/
def hpCqDbDef : RegDef := ⟨.hpCqDb, 0x1080, 8, 0, 16, .blk,
  [⟨HpCqDb.ARM, .wo, 0⟩, ⟨HpCqDb.HEAD, .wo, 0⟩]⟩
/-- `HP_CR_CFG` (R359). -/
def hpCrCfgDef : RegDef := ⟨.hpCrCfg, 0x1100, 8, 0, 16, .blk,
  [⟨HpCrCfg.BASE, .rw, 0⟩, ⟨HpCrCfg.SIZEL2, .rw, 0⟩, ⟨HpCrCfg.CQ, .rw, 0⟩, ⟨HpCrCfg.EXU, .rw, 0⟩, ⟨HpCrCfg.XTILE, .rw, 0⟩, ⟨HpCrCfg.EN, .rw, 0⟩]⟩
/-- `HP_CQ_CFG` (R361). -/
def hpCqCfgDef : RegDef := ⟨.hpCqCfg, 0x1180, 8, 0, 16, .blk,
  [⟨HpCqCfg.BASE, .rw, 0⟩, ⟨HpCqCfg.SIZEL2, .rw, 0⟩, ⟨HpCqCfg.VEC, .rw, 0⟩, ⟨HpCqCfg.EN, .rw, 0⟩]⟩
/-- `HP_CR_STAT` (R366). -/
def hpCrStatDef : RegDef := ⟨.hpCrStat, 0x1200, 8, 0, 16, .blk,
  [⟨HpCrStat.HEAD, .ro, 0⟩, ⟨HpCrStat.TAIL, .ro, 0⟩, ⟨HpCrStat.STATUS, .ro, 0⟩, ⟨HpCrStat.STATE, .ro, 0⟩]⟩
/-- `HP_CR_CFGB` (R360). -/
def hpCrCfgbDef : RegDef := ⟨.hpCrCfgb, 0x1280, 8, 0, 16, .blk,
  [⟨HpCrCfgb.CQCTR, .rw, 0⟩, ⟨HpCrCfgb.DBCTR, .rw, 0⟩]⟩
/-- `MEP_STAGE_CFG` (R85). -/
def mepStageCfgDef : RegDef := ⟨.mepStageCfg, 0x1000, 8, 0, 1, .blk,
  [⟨MepStageCfg.LEAD, .rw, 0x1194⟩]⟩
/-- `MEP_STREAM_PSN` (R608). -/
def mepStreamPsnDef : RegDef := ⟨.mepStreamPsn, 0x1040, 8, 0, 8, .blk,
  [⟨MepStreamPsn.PSN, .w1c, 0⟩]⟩
/-- `MEP_STREAM_DESC` (R79). -/
def mepStreamDescDef : RegDef := ⟨.mepStreamDesc, 0x4000, 8, 0, 2048, .blk,
  [⟨MepStreamDesc.DATA, .desc, 0⟩]⟩
/-- `MEP_TRANGE` (R540). -/
def mepTrangeDef : RegDef := ⟨.mepTrange, 0x8000, 8, 0, 256, .blk,
  [⟨MepTrange.TENANT, .rw, 0xFF⟩, ⟨MepTrange.V, .rw, 0⟩, ⟨MepTrange.SL, .ro, 0⟩, ⟨MepTrange.SCR, .ro, 0⟩, ⟨MepTrange.LIMIT, .rw, 0⟩, ⟨MepTrange.BASE, .rw, 0⟩]⟩
/-- `MEP_DESC_OWNER` (R82). -/
def mepDescOwnerDef : RegDef := ⟨.mepDescOwner, 0x9000, 8, 0, 64, .blk,
  [⟨MepDescOwner.OWNER7, .rw, 0xFF⟩, ⟨MepDescOwner.OWNER6, .rw, 0xFF⟩, ⟨MepDescOwner.OWNER5, .rw, 0xFF⟩, ⟨MepDescOwner.OWNER4, .rw, 0xFF⟩, ⟨MepDescOwner.OWNER3, .rw, 0xFF⟩, ⟨MepDescOwner.OWNER2, .rw, 0xFF⟩, ⟨MepDescOwner.OWNER1, .rw, 0xFF⟩, ⟨MepDescOwner.OWNER0, .rw, 0xFF⟩]⟩
/-- `LP_CFG` (R532). -/
def lpCfgDef : RegDef := ⟨.lpCfg, 0x1000, 8, 0, 1, .blk,
  [⟨LpCfg.DIR, .rw, 0⟩, ⟨LpCfg.ALIGNINTQ, .rw, 0x10⟩, ⟨LpCfg.CTLINT, .rw, 0x20⟩, ⟨LpCfg.REPLAYMAX, .rw, 8⟩, ⟨LpCfg.RETRAINMAX, .rw, 3⟩, ⟨LpCfg.RTRYTO, .rw, 0x7D⟩, ⟨LpCfg.W16, .rw, 0⟩]⟩
/-- `LP_STATE` (R533). -/
def lpStateDef : RegDef := ⟨.lpState, 0x1008, 8, 0, 1, .blk,
  [⟨LpState.STATE, .ro, 0⟩, ⟨LpState.LASTERR, .ro, 0⟩, ⟨LpState.PEERDCHIP, .ro, 0⟩, ⟨LpState.PEERPORT, .ro, 0⟩, ⟨LpState.PEERDIR, .ro, 0⟩, ⟨LpState.WIDTH, .ro, 0⟩, ⟨LpState.REV, .ro, 0⟩, ⟨LpState.LANEOK, .ro, 0⟩]⟩
/-- `LP_LINK_STAT` (R534). -/
def lpLinkStatDef : RegDef := ⟨.lpLinkStat, 0x1010, 8, 0, 1, .prod,
  [⟨LpLinkStat.CRCERR, .ro, 0⟩, ⟨LpLinkStat.REPLAYS, .ro, 0⟩, ⟨LpLinkStat.RECOV, .ro, 0⟩, ⟨LpLinkStat.DOWNS, .ro, 0⟩, ⟨LpLinkStat.CTLBAD, .ro, 0⟩, ⟨LpLinkStat.FILLS, .ro, 0⟩]⟩
/-- `LP_VC_CFG` (R509). -/
def lpVcCfgDef : RegDef := ⟨.lpVcCfg, 0x1018, 8, 0, 1, .blk,
  [⟨LpVcCfg.SIZES, .rw, 0x2020202020202020⟩]⟩
/-- `LP_PM_CFG` (R527). -/
def lpPmCfgDef : RegDef := ⟨.lpPmCfg, 0x1020, 8, 0, 1, .blk,
  [⟨LpPmCfg.QEN, .rw, 0⟩, ⟨LpPmCfg.QIDLE, .rw, 0x200⟩, ⟨LpPmCfg.DEEPIDLE, .rw, 0⟩, ⟨LpPmCfg.DEEPREQ, .rw, 0⟩]⟩
/-- `LP_TEST_CTL` (R531). -/
def lpTestCtlDef : RegDef := ⟨.lpTestCtl, 0x1028, 8, 0, 1, .blk,
  [⟨LpTestCtl.MODE, .rw, 0⟩, ⟨LpTestCtl.POLY, .rw, 0⟩, ⟨LpTestCtl.FELBOK, .rw, 0⟩, ⟨LpTestCtl.INJB, .w1s, 0⟩, ⟨LpTestCtl.INJCRC, .w1s, 0⟩, ⟨LpTestCtl.INJCODE, .w1s, 0⟩, ⟨LpTestCtl.INJSP, .w1s, 0⟩, ⟨LpTestCtl.INJMASK, .rw, 0⟩]⟩
/-- `LP_TOFS` (R646). -/
def lpTofsDef : RegDef := ⟨.lpTofs, 0x1030, 8, 0, 1, .blk,
  [⟨LpTofs.OFS, .ro, 0⟩]⟩
/-- `LP_TDLY` (R646). -/
def lpTdlyDef : RegDef := ⟨.lpTdly, 0x1038, 8, 0, 1, .blk,
  [⟨LpTdly.SPREAD, .ro, 0⟩, ⟨LpTdly.DLY, .ro, 0⟩, ⟨LpTdly.NS, .ro, 0⟩]⟩
/-- `LP_LANE_EQ` (R522). -/
def lpLaneEqDef : RegDef := ⟨.lpLaneEq, 0x1100, 8, 0, 32, .blk,
  [⟨LpLaneEq.FIX, .rw, 0⟩, ⟨LpLaneEq.PRE, .rw, 0xFC⟩, ⟨LpLaneEq.POST, .rw, 0xF4⟩, ⟨LpLaneEq.MAIN, .ro, 0x30⟩, ⟨LpLaneEq.CTLE, .rw, 8⟩, ⟨LpLaneEq.VTGT, .rw, 0x28⟩]⟩
/-- `LP_LANE_STAT` (R534). -/
def lpLaneStatDef : RegDef := ⟨.lpLaneStat, 0x1200, 8, 0, 32, .blk,
  [⟨LpLaneStat.PRBSERR, .ro, 0⟩, ⟨LpLaneStat.CODEERR, .ro, 0⟩, ⟨LpLaneStat.SKEW, .ro, 0⟩, ⟨LpLaneStat.POL, .ro, 0⟩, ⟨LpLaneStat.LOCK, .ro, 0⟩]⟩
/-- `LP_SBIND_A` (R528). -/
def lpSbindADef : RegDef := ⟨.lpSbindA, 0x1400, 32, 0, 16, .blk,
  [⟨LpSbindA.STREAM, .rw, 0⟩, ⟨LpSbindA.TENANT, .rw, 0xFF⟩, ⟨LpSbindA.PRIO, .rw, 0⟩, ⟨LpSbindA.V, .rw, 0⟩, ⟨LpSbindA.CTR, .rw, 0⟩]⟩
/-- `LP_SBIND_B` (R528). -/
def lpSbindBDef : RegDef := ⟨.lpSbindB, 0x1408, 32, 0, 16, .blk,
  [⟨LpSbindB.ADDR, .rw, 0⟩]⟩
/-- `LP_SBIND_C` (R528). -/
def lpSbindCDef : RegDef := ⟨.lpSbindC, 0x1410, 32, 0, 16, .blk,
  [⟨LpSbindC.DCHIP, .rw, 0⟩, ⟨LpSbindC.DX, .rw, 0⟩, ⟨LpSbindC.DY, .rw, 0⟩, ⟨LpSbindC.DEP, .rw, 0⟩, ⟨LpSbindC.WIN, .rw, 0⟩]⟩
/-- `GATE0` (R176). -/
def gate0Def : RegDef := ⟨.gate0, 0x4000, 8, 0, 64, .blk,
  [⟨Gate0.GATES, .rw, 0xFF⟩, ⟨Gate0.DUR, .rw, 0⟩]⟩
/-- `GATE1` (R176). -/
def gate1Def : RegDef := ⟨.gate1, 0x4200, 8, 0, 64, .blk,
  [⟨Gate1.GATES, .rw, 0xFF⟩, ⟨Gate1.DUR, .rw, 0⟩]⟩
/-- `GATE_ARM` (R177). -/
def gateArmDef : RegDef := ⟨.gateArm, 0x4400, 8, 0, 1, .blk,
  [⟨GateArm.TIME, .rw, 0⟩]⟩
/-- `GATE_CTL` (R177). -/
def gateCtlDef : RegDef := ⟨.gateCtl, 0x4408, 8, 0, 1, .blk,
  [⟨GateCtl.ARMERR, .ro, 0⟩, ⟨GateCtl.BANK, .ro, 0⟩, ⟨GateCtl.ARMED, .ro, 0⟩]⟩
/-- `RTE_CFG` (R468). -/
def rteCfgDef : RegDef := ⟨.rteCfg, 0x1000, 8, 0, 1, .blk,
  [⟨RteCfg.UDPDST, .rw, 0x26B6⟩, ⟨RteCfg.HOPLIM, .rw, 0x40⟩, ⟨RteCfg.ACKDLY, .rw, 0x1F4⟩, ⟨RteCfg.ACKRQL2, .rw, 4⟩, ⟨RteCfg.RTOMAX, .rw, 0x3E8⟩, ⟨RteCfg.PSUSP, .rw, 0x3E8⟩]⟩
/-- `RTE_STAT` (R469). -/
def rteStatDef : RegDef := ⟨.rteStat, 0x1008, 8, 0, 1, .prod,
  [⟨RteStat.STRAY, .ro, 0⟩, ⟨RteStat.AUTHFAIL, .ro, 0⟩, ⟨RteStat.ICRC, .ro, 0⟩, ⟨RteStat.OOW, .ro, 0⟩]⟩
/-- `RTE_CCPA` (R473). -/
def rteCcpaDef : RegDef := ⟨.rteCcpa, 0x1100, 8, 0, 16, .blk,
  [⟨RteCcpa.RINIT, .rw, 0x1F40⟩, ⟨RteCcpa.RMIN, .rw, 0xA⟩, ⟨RteCcpa.AI, .rw, 0x32⟩, ⟨RteCcpa.HAI, .rw, 0x1F4⟩]⟩
/-- `RTE_CCPB` (R474). -/
def rteCcpbDef : RegDef := ⟨.rteCcpb, 0x1180, 8, 0, 16, .blk,
  [⟨RteCcpb.QTGT, .rw, 0x5DC⟩, ⟨RteCcpb.BETA, .rw, 0x80⟩, ⟨RteCcpb.MDMAX, .rw, 0x80⟩, ⟨RteCcpb.GSH, .rw, 4⟩, ⟨RteCcpb.FASTN, .rw, 5⟩, ⟨RteCcpb.BASEWIN, .rw, 0x2710⟩]⟩
/-- `RTE_TC` (R479). -/
def rteTcDef : RegDef := ⟨.rteTc, 0x1200, 8, 0, 8, .blk,
  [⟨RteTc.VT, .rw, 0⟩, ⟨RteTc.PCP, .rw, 0⟩, ⟨RteTc.VID, .rw, 0⟩, ⟨RteTc.DSCP, .rw, 0⟩, ⟨RteTc.CBS, .rw, 0⟩, ⟨RteTc.IDLESLOPE, .rw, 0x1F40⟩]⟩
/-- `RTE_PORT_CFG` (R486). -/
def rtePortCfgDef : RegDef := ⟨.rtePortCfg, 0x1300, 64, 0, 4, .blk,
  [⟨RtePortCfg.V4, .rw, 0⟩, ⟨RtePortCfg.V6, .rw, 0⟩, ⟨RtePortCfg.EEE, .rw, 0⟩, ⟨RtePortCfg.NHV, .rw, 0⟩, ⟨RtePortCfg.LPIIDLE, .rw, 0x7D0⟩, ⟨RtePortCfg.TWMAX, .rw, 0x1F4⟩, ⟨RtePortCfg.STMIN, .rw, 0x10⟩, ⟨RtePortCfg.STSTEP, .rw, 8⟩]⟩
/-- `RTE_PORT_MAC` (R486). -/
def rtePortMacDef : RegDef := ⟨.rtePortMac, 0x1308, 64, 0, 4, .blk,
  [⟨RtePortMac.SMAC, .rw, 0⟩]⟩
/-- `RTE_PORT_NH` (R486). -/
def rtePortNhDef : RegDef := ⟨.rtePortNh, 0x1310, 64, 0, 4, .blk,
  [⟨RtePortNh.NHMAC, .rw, 0⟩]⟩
/-- `RTE_PORT_IP4` (R486). -/
def rtePortIp4Def : RegDef := ⟨.rtePortIp4, 0x1318, 64, 0, 4, .blk,
  [⟨RtePortIp4.IP4, .rw, 0⟩]⟩
/-- `RTE_PORT_IP6H` (R486). -/
def rtePortIp6hDef : RegDef := ⟨.rtePortIp6h, 0x1320, 64, 0, 4, .blk,
  [⟨RtePortIp6h.IP6H, .rw, 0⟩]⟩
/-- `RTE_PORT_IP6L` (R486). -/
def rtePortIp6lDef : RegDef := ⟨.rtePortIp6l, 0x1328, 64, 0, 4, .blk,
  [⟨RtePortIp6l.IP6L, .rw, 0⟩]⟩
/-- `RTE_PORT_STAT` (R487). -/
def rtePortStatDef : RegDef := ⟨.rtePortStat, 0x1330, 64, 0, 4, .prod,
  [⟨RtePortStat.UNDERRUN, .ro, 0⟩, ⟨RtePortStat.STARTTH, .ro, 0x400⟩, ⟨RtePortStat.ACKDROP, .ro, 0⟩, ⟨RtePortStat.NONRTE, .ro, 0⟩, ⟨RtePortStat.LPIN, .ro, 0⟩]⟩
/-- `RTE_PORT_EEE` (R487). -/
def rtePortEeeDef : RegDef := ⟨.rtePortEee, 0x1338, 64, 0, 4, .blk,
  [⟨RtePortEee.PEERTW, .rw, 0⟩, ⟨RtePortEee.TWSYS, .rw, 0⟩, ⟨RtePortEee.EEEACT, .rw, 0⟩]⟩
/-- `RTE_SBIND_A` (R467). -/
def rteSbindADef : RegDef := ⟨.rteSbindA, 0x1400, 32, 0, 64, .blk,
  [⟨RteSbindA.STREAM, .rw, 0⟩, ⟨RteSbindA.TENANT, .rw, 0xFF⟩, ⟨RteSbindA.QP, .rw, 0⟩, ⟨RteSbindA.CH, .rw, 0⟩, ⟨RteSbindA.V, .rw, 0⟩, ⟨RteSbindA.CTR, .rw, 0⟩]⟩
/-- `RTE_SBIND_B` (R467). -/
def rteSbindBDef : RegDef := ⟨.rteSbindB, 0x1408, 32, 0, 64, .blk,
  [⟨RteSbindB.RVA, .rw, 0⟩]⟩
/-- `RTE_SBIND_C` (R467). -/
def rteSbindCDef : RegDef := ⟨.rteSbindC, 0x1410, 32, 0, 64, .blk,
  [⟨RteSbindC.RKEY, .rw, 0⟩, ⟨RteSbindC.RBYTES, .rw, 0⟩]⟩
/-- `RTE_QP_STAT` (R429). -/
def rteQpStatDef : RegDef := ⟨.rteQpStat, 0x20000, 8, 0, 16384, .blk,
  [⟨RteQpStat.STATE, .ro, 0⟩, ⟨RteQpStat.STATUS, .ro, 0⟩, ⟨RteQpStat.OPS, .ro, 0⟩, ⟨RteQpStat.TOSEQ, .ro, 0⟩, ⟨RteQpStat.SRTT, .ro, 0⟩, ⟨RteQpStat.RTX, .ro, 0⟩]⟩
/-- `RTE_QP_CC` (R477). -/
def rteQpCcDef : RegDef := ⟨.rteQpCc, 0x40000, 8, 0, 16384, .blk,
  [⟨RteQpCc.RATE, .ro, 0⟩, ⟨RteQpCc.ALPHA, .ro, 0⟩, ⟨RteQpCc.BASE, .ro, 0⟩, ⟨RteQpCc.INCN, .ro, 0⟩]⟩
/-- `RTR_EP_OWNER` (R143). -/
def rtrEpOwnerDef : RegDef := ⟨.rtrEpOwner, 0x1000, 8, 0, 1, .blk,
  [⟨RtrEpOwner.OWNER, .rw, 0xFF⟩]⟩
/-- `RTR_DYN_ARB` (R111). -/
def rtrDynArbDef : RegDef := ⟨.rtrDynArb, 0x1008, 8, 0, 1, .blk,
  [⟨RtrDynArb.W2, .rw, 8⟩, ⟨RtrDynArb.W1, .rw, 4⟩, ⟨RtrDynArb.W0, .rw, 1⟩]⟩
/-- `RTR_SP_STAT` (R286). -/
def rtrSpStatDef : RegDef := ⟨.rtrSpStat, 0x1010, 8, 0, 1, .prod,
  [⟨RtrSpStat.SPILLS, .ro, 0⟩, ⟨RtrSpStat.STALE, .ro, 0⟩, ⟨RtrSpStat.BAD, .ro, 0⟩]⟩
/-- `RTR_SHADOW_CFG` (R615). -/
def rtrShadowCfgDef : RegDef := ⟨.rtrShadowCfg, 0x1018, 8, 0, 1, .blk,
  [⟨RtrShadowCfg.EN, .rw, 1⟩, ⟨RtrShadowCfg.NL2, .rw, 0xA⟩, ⟨RtrShadowCfg.SEED, .rw, 0xACE1⟩]⟩
/-- `RTR_SHADOW_STAT` (R616). -/
def rtrShadowStatDef : RegDef := ⟨.rtrShadowStat, 0x1020, 8, 0, 1, .prod,
  [⟨RtrShadowStat.CHECKS, .ro, 0⟩, ⟨RtrShadowStat.TRANS, .ro, 0⟩, ⟨RtrShadowStat.RETLANE, .ro, 0⟩, ⟨RtrShadowStat.RET, .ro, 0⟩, ⟨RtrShadowStat.SPAREBAD, .ro, 0⟩, ⟨RtrShadowStat.NOSHADOW, .ro, 0⟩]⟩
/-- `RTR_SHADOW_CAP` (R617). -/
def rtrShadowCapDef : RegDef := ⟨.rtrShadowCap, 0x1040, 8, 0, 4, .blk,
  [⟨RtrShadowCap.CAP, .ro, 0⟩]⟩
/-- `RTR_SCH_RANGE` (R61). -/
def rtrSchRangeDef : RegDef := ⟨.rtrSchRange, 0x1100, 8, 1, 63, .blk,
  [⟨RtrSchRange.COUNT, .rw, 0⟩, ⟨RtrSchRange.BASE, .rw, 0⟩]⟩
/-- `RTR_PHASE_OWNER_LO` (R64). -/
def rtrPhaseLoDef : RegDef := ⟨.rtrPhaseLo, 0x1300, 16, 0, 11, .blk,
  [⟨RtrPhaseLo.OWNERS, .rw, 0xFFFFFFFFFFFFFFFF⟩]⟩
/-- `RTR_PHASE_OWNER_HI` (R64). -/
def rtrPhaseHiDef : RegDef := ⟨.rtrPhaseHi, 0x1308, 16, 0, 11, .blk,
  [⟨RtrPhaseHi.OWNERS, .rw, 0xFFFFFFFFFFFFFFFF⟩]⟩
/-- `TEL_LINK_UTIL` (R638). -/
def telLinkUtilDef : RegDef := ⟨.telLinkUtil, 0x1400, 8, 0, 4, .prod,
  [⟨TelLinkUtil.SBUSY, .ro, 0⟩, ⟨TelLinkUtil.DFLITS, .ro, 0⟩]⟩
/-- `RTR_RED_CTXA` (R221). -/
def redCtxADef : RegDef := ⟨.redCtxA, 0x1500, 32, 0, 16, .blk,
  [⟨RedCtxA.TENANT, .rw, 0xFF⟩, ⟨RedCtxA.MODE, .rw, 0⟩, ⟨RedCtxA.OP, .rw, 0⟩, ⟨RedCtxA.EFMT, .rw, 0⟩, ⟨RedCtxA.IWIRE, .rw, 0⟩, ⟨RedCtxA.OWIRE, .rw, 0⟩, ⟨RedCtxA.ISP, .rw, 0⟩, ⟨RedCtxA.FINAL, .rw, 0⟩, ⟨RedCtxA.RING, .rw, 0⟩, ⟨RedCtxA.NOPSM1, .rw, 0⟩, ⟨RedCtxA.RLO, .rw, 0⟩, ⟨RedCtxA.LVL, .rw, 0⟩, ⟨RedCtxA.GNM1, .rw, 0⟩, ⟨RedCtxA.EN, .rw, 0⟩]⟩
/-- `RTR_RED_CTXB` (R222). -/
def redCtxBDef : RegDef := ⟨.redCtxB, 0x1508, 32, 0, 16, .blk,
  [⟨RedCtxB.ODCHIP, .rw, 0⟩, ⟨RedCtxB.ODX, .rw, 0⟩, ⟨RedCtxB.ODY, .rw, 0⟩, ⟨RedCtxB.ODEP, .rw, 0⟩, ⟨RedCtxB.OCTX, .rw, 0⟩, ⟨RedCtxB.LENFM1, .rw, 0⟩, ⟨RedCtxB.PWIN, .rw, 0x20⟩, ⟨RedCtxB.OPRIO, .rw, 1⟩]⟩
/-- `RTR_RED_CTXS` (R223). -/
def redCtxSDef : RegDef := ⟨.redCtxS, 0x1510, 32, 0, 16, .blk,
  [⟨RedCtxS.SEQ, .ro, 0⟩, ⟨RedCtxS.BASE, .ro, 0⟩, ⟨RedCtxS.STATUS, .ro, 0⟩, ⟨RedCtxS.LINES, .ro, 0⟩, ⟨RedCtxS.STATE, .ro, 0⟩, ⟨RedCtxS.POISONED, .ro, 0⟩, ⟨RedCtxS.CFGERR, .ro, 0⟩]⟩
/-- `RTR_RED_CSTAT` (R254). -/
def redCstatDef : RegDef := ⟨.redCstat, 0x1518, 32, 0, 16, .blk,
  [⟨RedCstat.FLITS, .ro, 0⟩, ⟨RedCstat.DIGEST, .ro, 0⟩, ⟨RedCstat.POISON, .ro, 0⟩, ⟨RedCstat.ISAT, .ro, 0⟩, ⟨RedCstat.ORPHAN, .ro, 0⟩]⟩
/-- `TEL_RU_FMT` (R639). -/
def telRuFmtDef : RegDef := ⟨.telRuFmt, 0x1800, 8, 1, 63, .blk,
  [⟨TelRuFmt.OVF, .ro, 0⟩, ⟨TelRuFmt.SAT, .ro, 0⟩, ⟨TelRuFmt.NFIN, .ro, 0⟩, ⟨TelRuFmt.MALF, .ro, 0⟩]⟩
/-- `RTR_SP_NODE` (R287). -/
def rtrSpNodeDef : RegDef := ⟨.rtrSpNode, 0x4000, 8, 0, 256, .blk,
  [⟨RtrSpNode.GROUP, .rw, 0⟩, ⟨RtrSpNode.EPOCH, .rw, 0⟩, ⟨RtrSpNode.TENANT, .rw, 0xFF⟩, ⟨RtrSpNode.PDCHIP, .rw, 0⟩, ⟨RtrSpNode.PX, .rw, 0⟩, ⟨RtrSpNode.PY, .rw, 0⟩, ⟨RtrSpNode.ROOTN, .rw, 0⟩, ⟨RtrSpNode.NIN, .rw, 0⟩, ⟨RtrSpNode.V, .rw, 0⟩]⟩
/-- `RTR_XBAR_BANK0` (R59). -/
def rtrXbar0Def : RegDef := ⟨.rtrXbar0, 0x10000, 8, 0, 4096, .blk,
  [⟨RtrXbar0.STREAM, .rw, 0⟩, ⟨RtrXbar0.TENANT, .rw, 0⟩, ⟨RtrXbar0.START, .rw, 0⟩, ⟨RtrXbar0.RUN, .rw, 0⟩, ⟨RtrXbar0.IN, .rw, 0xF⟩, ⟨RtrXbar0.OUT, .rw, 0xF⟩, ⟨RtrXbar0.CTX, .rw, 0⟩]⟩
/-- `RTR_XBAR_BANK1` (R59). -/
def rtrXbar1Def : RegDef := ⟨.rtrXbar1, 0x18000, 8, 0, 4096, .blk,
  [⟨RtrXbar1.STREAM, .rw, 0⟩, ⟨RtrXbar1.TENANT, .rw, 0⟩, ⟨RtrXbar1.START, .rw, 0⟩, ⟨RtrXbar1.RUN, .rw, 0⟩, ⟨RtrXbar1.IN, .rw, 0xF⟩, ⟨RtrXbar1.OUT, .rw, 0xF⟩, ⟨RtrXbar1.CTX, .rw, 0⟩]⟩
/-- `TNI_FMT_STAT` (R216). -/
def tniFmtStatDef : RegDef := ⟨.tniFmtStat, 0x1000, 8, 0, 1, .blk,
  [⟨TniFmtStat.OVF, .ro, 0⟩, ⟨TniFmtStat.SAT, .ro, 0⟩, ⟨TniFmtStat.NFIN, .ro, 0⟩, ⟨TniFmtStat.MALF, .ro, 0⟩]⟩
/-- `TNI_SLU_STAT` (R315). -/
def tniSluStatDef : RegDef := ⟨.tniSluStat, 0x1008, 8, 0, 1, .blk,
  [⟨TniSluStat.ROWS, .ro, 0⟩, ⟨TniSluStat.DROPPED, .ro, 0⟩, ⟨TniSluStat.SPILLED, .ro, 0⟩, ⟨TniSluStat.ZROWS, .ro, 0⟩]⟩
/-- `TNI_CH_COUNT` (R350). -/
def tniChCountDef : RegDef := ⟨.tniChCount, 0x1010, 8, 0, 1, .blk,
  [⟨TniChCount.MSGS, .ro, 0⟩, ⟨TniChCount.SPILLED, .ro, 0⟩, ⟨TniChCount.SPFULL, .ro, 0⟩, ⟨TniChCount.REFUSED, .ro, 0⟩, ⟨TniChCount.DISCARDED, .ro, 0⟩]⟩
/-- `TNI_CORE_CTX` (R607). -/
def tniCoreCtxDef : RegDef := ⟨.tniCoreCtx, 0x1018, 8, 0, 1, .blk,
  [⟨TniCoreCtx.DEAD, .w1c, 0⟩]⟩
/-- `TNI_PCS_CFG` (R657). -/
def tniPcsCfgDef : RegDef := ⟨.tniPcsCfg, 0x1020, 8, 0, 1, .blk,
  [⟨TniPcsCfg.EN, .rw, 0⟩, ⟨TniPcsCfg.PCL2, .rw, 0x10⟩]⟩
/-- `TNI_PUMP_PSN` (R608). -/
def tniPumpPsnDef : RegDef := ⟨.tniPumpPsn, 0x1040, 8, 0, 4, .blk,
  [⟨TniPumpPsn.PSN, .w1c, 0⟩]⟩
/-- `TNI_GRP_PSN` (R608). -/
def tniGrpPsnDef : RegDef := ⟨.tniGrpPsn, 0x1100, 8, 0, 64, .blk,
  [⟨TniGrpPsn.PSN, .w1c, 0⟩]⟩
/-- `TNI_OPM_CFG` (R649). -/
def tniOpmCfgDef : RegDef := ⟨.tniOpmCfg, 0x1400, 16, 0, 4, .blk,
  [⟨TniOpmCfg.LV, .rw, 0⟩, ⟨TniOpmCfg.LM, .rw, 0⟩, ⟨TniOpmCfg.OV, .rw, 0⟩, ⟨TniOpmCfg.OM, .rw, 0⟩]⟩
/-- `TNI_OPM_CNT` (R649). -/
def tniOpmCntDef : RegDef := ⟨.tniOpmCnt, 0x1408, 16, 0, 4, .blk,
  [⟨TniOpmCnt.PKTS, .ro, 0⟩, ⟨TniOpmCnt.BYTES, .ro, 0⟩]⟩
/-- `TNI_WATCH_CFG` (R658). -/
def tniWatchCfgDef : RegDef := ⟨.tniWatchCfg, 0x1440, 64, 0, 4, .blk,
  [⟨TniWatchCfg.EN, .rw, 0⟩, ⟨TniWatchCfg.MODE, .rw, 0⟩, ⟨TniWatchCfg.EFMT, .rw, 0⟩, ⟨TniWatchCfg.ODD, .rw, 0⟩, ⟨TniWatchCfg.LINESM1, .rw, 0⟩, ⟨TniWatchCfg.BASE, .rw, 0⟩]⟩
/-- `TNI_WATCH_STAT` (R660). -/
def tniWatchStatDef : RegDef := ⟨.tniWatchStat, 0x1448, 64, 0, 4, .blk,
  [⟨TniWatchStat.ROUNDS, .ro, 0⟩, ⟨TniWatchStat.OVL, .ro, 0⟩, ⟨TniWatchStat.BUSY, .ro, 0⟩]⟩
/-- `TNI_WATCH_RES0` (R660). -/
def tniWatchRes0Def : RegDef := ⟨.tniWatchRes0, 0x1450, 64, 0, 4, .blk,
  [⟨TniWatchRes0.COUNT, .ro, 0⟩, ⟨TniWatchRes0.ZEROS, .ro, 0⟩]⟩
/-- `TNI_WATCH_RES1` (R660). -/
def tniWatchRes1Def : RegDef := ⟨.tniWatchRes1, 0x1458, 64, 0, 4, .blk,
  [⟨TniWatchRes1.NANS, .ro, 0⟩, ⟨TniWatchRes1.INFS, .ro, 0⟩]⟩
/-- `TNI_WATCH_RES2` (R660). -/
def tniWatchRes2Def : RegDef := ⟨.tniWatchRes2, 0x1460, 64, 0, 4, .blk,
  [⟨TniWatchRes2.MIN, .ro, 0⟩]⟩
/-- `TNI_WATCH_RES3` (R660). -/
def tniWatchRes3Def : RegDef := ⟨.tniWatchRes3, 0x1468, 64, 0, 4, .blk,
  [⟨TniWatchRes3.MAX, .ro, 0⟩]⟩
/-- `TNI_WATCH_RES4` (R660). -/
def tniWatchRes4Def : RegDef := ⟨.tniWatchRes4, 0x1470, 64, 0, 4, .blk,
  [⟨TniWatchRes4.SUM, .ro, 0⟩]⟩
/-- `TNI_WATCH_RES5` (R660). -/
def tniWatchRes5Def : RegDef := ⟨.tniWatchRes5, 0x1478, 64, 0, 4, .blk,
  [⟨TniWatchRes5.SUMSQ, .ro, 0⟩]⟩
/-- `TNI_SLU_OSTAT` (R303). -/
def tniSluOstatDef : RegDef := ⟨.tniSluOstat, 0x1700, 8, 0, 16, .blk,
  [⟨TniSluOstat.GIDX, .ro, 0⟩, ⟨TniSluOstat.STATE, .ro, 0⟩, ⟨TniSluOstat.ROUND, .ro, 0⟩, ⟨TniSluOstat.EXPECT, .ro, 0⟩, ⟨TniSluOstat.GOT, .ro, 0⟩, ⟨TniSluOstat.STATUS, .ro, 0⟩]⟩
/-- `TNI_SLU_INBA` (R297). -/
def tniSluInbaDef : RegDef := ⟨.tniSluInba, 0x1800, 16, 0, 64, .blk,
  [⟨TniSluInba.TENANT, .rw, 0xFF⟩, ⟨TniSluInba.GIDX, .rw, 0⟩, ⟨TniSluInba.EFMT, .rw, 0⟩, ⟨TniSluInba.WIRE, .rw, 0⟩, ⟨TniSluInba.CAP, .rw, 0⟩, ⟨TniSluInba.CTR, .rw, 0⟩, ⟨TniSluInba.V, .rw, 0⟩]⟩
/-- `TNI_SLU_INBB` (R297). -/
def tniSluInbbDef : RegDef := ⟨.tniSluInbb, 0x1808, 16, 0, 64, .blk,
  [⟨TniSluInbb.HM1, .rw, 0⟩, ⟨TniSluInbb.RGN, .rw, 0⟩, ⟨TniSluInbb.OFFSET, .rw, 0⟩]⟩
/-- `TNI_SLU_ISTAT` (R300). -/
def tniSluIstatDef : RegDef := ⟨.tniSluIstat, 0x1C00, 8, 0, 64, .blk,
  [⟨TniSluIstat.FILLED, .ro, 0⟩, ⟨TniSluIstat.ARRIVED, .ro, 0⟩, ⟨TniSluIstat.DROPS, .ro, 0⟩, ⟨TniSluIstat.STATUS, .ro, 0⟩, ⟨TniSluIstat.POISONED, .ro, 0⟩, ⟨TniSluIstat.STATE, .ro, 0⟩]⟩
/-- `TNI_PUMP_DESC` (R79). -/
def tniPumpDescDef : RegDef := ⟨.tniPumpDesc, 0xA000, 8, 0, 1024, .blk,
  [⟨TniPumpDesc.DATA, .desc, 0⟩]⟩
/-- `TNI_CH_HTAB` (R323). -/
def tniChHtabDef : RegDef := ⟨.tniChHtab, 0xC000, 8, 0, 256, .blk,
  [⟨TniChHtab.V, .rw, 0⟩, ⟨TniChHtab.ENTRY, .rw, 0⟩]⟩
/-- `TNI_GRP_MEMBER` (R266). -/
def tniGrpMemberDef : RegDef := ⟨.tniGrpMember, 0x20000, 8, 0, 4096, .blk,
  [⟨TniGrpMember.SEQ, .ro, 0⟩, ⟨TniGrpMember.V, .rw, 0⟩, ⟨TniGrpMember.SCTR, .rw, 0⟩, ⟨TniGrpMember.RANK, .rw, 0⟩]⟩
/-- `TNI_CH_CFG` (R320). -/
def tniChCfgDef : RegDef := ⟨.tniChCfg, 0x40000, 32, 0, 4096, .blk,
  [⟨TniChCfg.KIND, .rw, 0⟩, ⟨TniChCfg.COP, .rw, 0⟩, ⟨TniChCfg.CEFMT, .rw, 0⟩, ⟨TniChCfg.CCNTM1, .rw, 0⟩, ⟨TniChCfg.DPRI, .rw, 0⟩, ⟨TniChCfg.HEN, .rw, 0⟩, ⟨TniChCfg.HIDX, .rw, 0⟩, ⟨TniChCfg.DEPTHM1, .rw, 0⟩]⟩
/-- `TNI_CH_RING` (R321). -/
def tniChRingDef : RegDef := ⟨.tniChRing, 0x40008, 32, 0, 4096, .blk,
  [⟨TniChRing.ODD, .rw, 0⟩, ⟨TniChRing.RBASE, .rw, 0⟩]⟩
/-- `TNI_CH_SPILL` (R322). -/
def tniChSpillDef : RegDef := ⟨.tniChSpill, 0x40010, 32, 0, 4096, .blk,
  [⟨TniChSpill.SPCAP, .rw, 0⟩, ⟨TniChSpill.SPBASE, .rw, 0⟩]⟩
/-- `TNI_CH_STAT` (R324). -/
def tniChStatDef : RegDef := ⟨.tniChStat, 0x40018, 32, 0, 4096, .blk,
  [⟨TniChStat.STATE, .ro, 0⟩, ⟨TniChStat.SPCNT, .ro, 0⟩, ⟨TniChStat.RCNT, .ro, 0⟩, ⟨TniChStat.HEAD, .ro, 0⟩, ⟨TniChStat.DISP, .ro, 0⟩, ⟨TniChStat.ASEQ, .ro, 0⟩]⟩

/-- The FAB window (R680). -/
def fabRegs : List RegDef :=
  [fabPkgInfoDef, fabGoodTilesDef, fabTwinMapDef, fabClkStatDef, fabPwrEvtDef, fabPwrStatDef, fabPwrCtlDef, fabBootStatDef] ++
  [fabInjDef, fmpRsvCfgDef, fmpCisternStatDef, fabSchCtxDef, fabSchArmDef, fabSchStatDef, fabTviolDef, fabSensorDef] ++
  [fabGrpADef, fabGrpBDef]
/-- The SEC window (R680). -/
def secRegs : List RegDef :=
  [secSealedDef, secStatDef, secInjDef, secCseqDef]
/-- The HP window (R677, R680). -/
def hpRegs : List RegDef :=
  [eccStatDef, injDef, rsvCfgDef, cisternStatDef, rsvShareDef, telTutilDef, hpCfgDef]
/-- One function's page in the HP mirror (R680, R681). -/
def hpFnRegs : List RegDef :=
  [hpFnStatDef, hpCrDbDef, hpCqDbDef, hpCrCfgDef, hpCqCfgDef, hpCrStatDef, hpCrCfgbDef]
/-- The TEL window (R680). -/
def telRegs : List RegDef :=
  [telFrzCtlDef, telFrzStatDef, telFrzTimeDef, telTwCfgDef, telTwStatDef]
/-- A MEP window (R677, R682). -/
def mepRegs : List RegDef :=
  [eccStatDef, injDef, rsvCfgDef, cisternStatDef, rsvShareDef, telTutilDef, mepStageCfgDef, mepStreamPsnDef] ++
  [mepStreamDescDef, mepTrangeDef, mepDescOwnerDef]
/-- A lane port window (R677, R679, R682). -/
def lpRegs : List RegDef :=
  [eccStatDef, injDef, rsvCfgDef, cisternStatDef, rsvShareDef, telTutilDef, ctrDef, trigaDef] ++
  [trigbDef, dstoreDef, relayDef, lpCfgDef, lpStateDef, lpLinkStatDef, lpVcCfgDef, lpPmCfgDef] ++
  [lpTestCtlDef, lpTofsDef, lpTdlyDef, lpLaneEqDef, lpLaneStatDef, lpSbindADef, lpSbindBDef, lpSbindCDef] ++
  [gate0Def, gate1Def, gateArmDef, gateCtlDef]
/-- An RTE window (R677, R679, R682). -/
def rteRegs : List RegDef :=
  [eccStatDef, injDef, rsvCfgDef, cisternStatDef, rsvShareDef, telTutilDef, ctrDef, trigaDef] ++
  [trigbDef, dstoreDef, relayDef, gate0Def, gate1Def, gateArmDef, gateCtlDef, rteCfgDef] ++
  [rteStatDef, rteCcpaDef, rteCcpbDef, rteTcDef, rtePortCfgDef, rtePortMacDef, rtePortNhDef, rtePortIp4Def] ++
  [rtePortIp6hDef, rtePortIp6lDef, rtePortStatDef, rtePortEeeDef, rteSbindADef, rteSbindBDef, rteSbindCDef, rteQpStatDef] ++
  [rteQpCcDef]
/-- A router window (R677, R683). -/
def rtrRegs : List RegDef :=
  [eccStatDef, injDef, rsvCfgDef, cisternStatDef, rsvShareDef, rtrEpOwnerDef, rtrDynArbDef, rtrSpStatDef] ++
  [rtrShadowCfgDef, rtrShadowStatDef, rtrShadowCapDef, rtrSchRangeDef, rtrPhaseLoDef, rtrPhaseHiDef, telLinkUtilDef, redCtxADef] ++
  [redCtxBDef, redCtxSDef, redCstatDef, telRuFmtDef, rtrSpNodeDef, rtrXbar0Def, rtrXbar1Def]
/-- A TNI window (R677, R679, R683). -/
def tniRegs : List RegDef :=
  [eccStatDef, injDef, rsvCfgDef, cisternStatDef, ctrDef, trigaDef, trigbDef, dstoreDef] ++
  [tniLandDef, tniFmtStatDef, tniSluStatDef, tniChCountDef, tniCoreCtxDef, tniPcsCfgDef, tniPumpPsnDef, tniGrpPsnDef] ++
  [tniOpmCfgDef, tniOpmCntDef, tniWatchCfgDef, tniWatchStatDef, tniWatchRes0Def, tniWatchRes1Def, tniWatchRes2Def, tniWatchRes3Def] ++
  [tniWatchRes4Def, tniWatchRes5Def, tniSluOstatDef, tniSluInbaDef, tniSluInbbDef, tniSluIstatDef, tniPumpDescDef, tniChHtabDef] ++
  [tniGrpMemberDef, tniChCfgDef, tniChRingDef, tniChSpillDef, tniChStatDef]
/-- An arbiter window (R678). -/
def arbRegs : List RegDef :=
  [arbSlot0Def, arbSlot1Def, arbShareDef, arbRstatDef, arbShapeDef, arbCfgDef, arbStarveDef, arbStat0Def] ++
  [arbStat1Def, arbArmDef, arbCtlDef]

/-- The register of a window that holds the slot at `off`, with its index (R670: `none` where no table assigns the offset). -/
def findReg (off : Nat) : List RegDef → Option (RegDef × Nat)
  | [] => none
  | d :: r =>
    if d.off + d.first * d.stride ≤ off ∧ (off - d.off) % d.stride = 0 ∧ (off - d.off) / d.stride < d.first + d.count
    then some (d, (off - d.off) / d.stride) else findReg off r

/-- Which window, function page or arbiter window of a block an offset lies in. -/
inductive RegHome where
  | blk (b : Blk) | fn (f : Nat) | arb (a : Arb)
  deriving DecidableEq, Repr

/-- The register at a control-space offset: its home, its definition and its index (R668, R677-R683). -/
def regAt (off : Nat) : Option (RegHome × RegDef × Nat) :=
  match blkOf off with
  | none => none
  | some (b, o) =>
    let plain (rs : List RegDef) := (findReg o rs).map fun x => (RegHome.blk b, x.1, x.2)
    let arbW (a : Arb) (o' : Nat) := (findReg o' arbRegs).map fun x => (RegHome.arb a, x.1, x.2)
    let win := decide (0x2000 ≤ o) && decide (o < 0x4000)
    match b with
    | .fab => plain fabRegs
    | .sec => plain secRegs
    | .tel => plain telRegs
    | .hp =>
      if win then arbW .hp (o - 0x2000)
      else if 0x40000 ≤ o ∧ o < 0xC0000 then
        (findReg ((o - 0x40000) % 0x2000) hpFnRegs).map fun x => (RegHome.fn ((o - 0x40000) / 0x2000), x.1, x.2)
      else plain hpRegs
    | .mep n => if win then arbW (.mep n) (o - 0x2000) else plain mepRegs
    | .lp n => if win then arbW (.lp n) (o - 0x2000) else plain lpRegs
    | .rte n => if win then arbW (.rte n) (o - 0x2000) else plain rteRegs
    | .rtr t => if win then arbW (.ru t) (o - 0x2000) else plain rtrRegs
    | .tni t =>
      if 0x2000 ≤ o ∧ o < 0xA000 then arbW (.sp t ((o - 0x2000) / 0x2000)) ((o - 0x2000) % 0x2000)
      else plain tniRegs

/-- The reset value of `FREE` in a cistern's status register (R128, `EP`). -/
def cisternReset : Blk → Nat
  | .mep _ => 3452
  | .rte _ => 3452
  | .rtr _ => 316
  | _ => 1404

/-- A register word with every field at its Reset entry. -/
def resetFields : List FieldDef → Word
  | [] => 0
  | d :: r => setF (resetFields r) d.f d.reset

/-- The value a register holds after a reset of its domain (R19). A `DR` field reads 0 until the FMP has loaded it; an offset
that no table assigns reads 0. -/
def resetWord (off : Nat) : Word :=
  match regAt off with
  | none => 0
  | some (.blk b, d, _) =>
    let w := resetFields d.fields
    if d.name = .cisternStat then setF w CisternStat.FREE (cisternReset b) else w
  | some (_, d, _) => resetFields d.fields

/-- Which reset domain a slot belongs to (R676): `.blk` at a lane port is that port's own domain. -/
def regDom (off : Nat) : RDom :=
  match regAt off with
  | none => .fab
  | some (_, d, _) => d.dom

/-! ### Offsets by name -/

/-- `FAB_PKG_INFO` (R45). -/
def Reg.fabPkgInfo : Nat := Blk.fab.base + 0x0
/-- `FAB_GOOD_TILES` (R47). -/
def Reg.fabGoodTiles : Nat := Blk.fab.base + 0x8
/-- `FAB_TWIN_MAP` (R49). -/
def Reg.fabTwinMap : Nat := Blk.fab.base + 0x10
/-- `FAB_CLK_STAT` (R573). -/
def Reg.fabClkStat : Nat := Blk.fab.base + 0x18
/-- `FAB_PWR_EVT` (R584). -/
def Reg.fabPwrEvt : Nat := Blk.fab.base + 0x20
/-- `FAB_PWR_STAT` (R587). -/
def Reg.fabPwrStat : Nat := Blk.fab.base + 0x28
/-- `FAB_PWR_CTL` (R591). -/
def Reg.fabPwrCtl : Nat := Blk.fab.base + 0x30
/-- `FAB_BOOT_STAT` (R596). -/
def Reg.fabBootStat : Nat := Blk.fab.base + 0x38
/-- `FAB_INJ` (R631). -/
def Reg.fabInj : Nat := Blk.fab.base + 0x40
/-- `FMP_RSV_CFG` (R127). -/
def Reg.fmpRsvCfg : Nat := Blk.fab.base + 0x48
/-- `FMP_CISTERN_STAT` (R128). -/
def Reg.fmpCisternStat (i : Nat) : Nat := Blk.fab.base + 0x50 + i * 8
/-- `FAB_SCH_CTX` (R68). -/
def Reg.fabSchCtx (i : Nat) : Nat := Blk.fab.base + 0x1000 + i * 8
/-- `FAB_SCH_ARM` (R69). -/
def Reg.fabSchArm (i : Nat) : Nat := Blk.fab.base + 0x1200 + i * 8
/-- `FAB_SCH_STAT` (R96). -/
def Reg.fabSchStat (i : Nat) : Nat := Blk.fab.base + 0x1400 + i * 8
/-- `FAB_TVIOL` (R560). -/
def Reg.fabTviol (i : Nat) : Nat := Blk.fab.base + 0x1600 + i * 8
/-- `FAB_SENSOR` (R585). -/
def Reg.fabSensor (i : Nat) : Nat := Blk.fab.base + 0x2000 + i * 8
/-- `FAB_GRP_A` (R265). -/
def Reg.fabGrpA (i : Nat) : Nat := Blk.fab.base + 0x10000 + i * 16
/-- `FAB_GRP_B` (R265). -/
def Reg.fabGrpB (i : Nat) : Nat := Blk.fab.base + 0x10008 + i * 16
/-- `SEC_SEALED` (R545). -/
def Reg.secSealed : Nat := Blk.sec.base + 0x0
/-- `SEC_STAT` (R563). -/
def Reg.secStat : Nat := Blk.sec.base + 0x8
/-- `SEC_INJ` (R631). -/
def Reg.secInj : Nat := Blk.sec.base + 0x10
/-- `SEC_CSEQ` (R547). -/
def Reg.secCseq (i : Nat) : Nat := Blk.sec.base + 0x100 + i * 8
/-- `TEL_FRZ_CTL` (R644). -/
def Reg.telFrzCtl : Nat := Blk.tel.base + 0x0
/-- `TEL_FRZ_STAT` (R644). -/
def Reg.telFrzStat : Nat := Blk.tel.base + 0x8
/-- `TEL_FRZ_TIME` (R644). -/
def Reg.telFrzTime : Nat := Blk.tel.base + 0x10
/-- `TEL_TW_CFG` (R650). -/
def Reg.telTwCfg (i : Nat) : Nat := Blk.tel.base + 0x1000 + i * 8
/-- `TEL_TW_STAT` (R656). -/
def Reg.telTwStat (i : Nat) : Nat := Blk.tel.base + 0x1200 + i * 8
/-- `ECC_STAT` (R604). -/
def Reg.eccStat (b : Blk) : Nat := b.base + 0x0
/-- `INJ` (R631). -/
def Reg.inj (b : Blk) : Nat := b.base + 0x8
/-- `RSV_CFG` (R127). -/
def Reg.rsvCfg (b : Blk) : Nat := b.base + 0x10
/-- `CISTERN_STAT` (R128). -/
def Reg.cisternStat (b : Blk) : Nat := b.base + 0x18
/-- `RSV_SHARE` (R541). -/
def Reg.rsvShare (b : Blk) (i : Nat) : Nat := b.base + 0x200 + i * 8
/-- `TEL_TUTIL` (R639). -/
def Reg.telTutil (b : Blk) (i : Nat) : Nat := b.base + 0x400 + i * 8
/-- `ARB_SLOT0` (R149). -/
def Reg.arbSlot0 (a : Arb) (i : Nat) : Nat := a.base + 0x0 + i * 8
/-- `ARB_SLOT1` (R149). -/
def Reg.arbSlot1 (a : Arb) (i : Nat) : Nat := a.base + 0x800 + i * 8
/-- `ARB_SHARE` (R167). -/
def Reg.arbShare (a : Arb) (i : Nat) : Nat := a.base + 0x1000 + i * 8
/-- `ARB_RSTAT` (R168). -/
def Reg.arbRstat (a : Arb) (i : Nat) : Nat := a.base + 0x1200 + i * 8
/-- `ARB_SHAPE` (R172). -/
def Reg.arbShape (a : Arb) (i : Nat) : Nat := a.base + 0x1400 + i * 8
/-- `ARB_CFG` (R166). -/
def Reg.arbCfg (a : Arb) : Nat := a.base + 0x1600
/-- `ARB_STARVE` (R169). -/
def Reg.arbStarve (a : Arb) : Nat := a.base + 0x1608
/-- `ARB_STAT0` (R169). -/
def Reg.arbStat0 (a : Arb) : Nat := a.base + 0x1610
/-- `ARB_STAT1` (R169). -/
def Reg.arbStat1 (a : Arb) : Nat := a.base + 0x1618
/-- `ARB_ARM` (R170). -/
def Reg.arbArm (a : Arb) : Nat := a.base + 0x1620
/-- `ARB_CTL` (R170). -/
def Reg.arbCtl (a : Arb) : Nat := a.base + 0x1628
/-- `CTR` (R256). -/
def Reg.ctr (b : Blk) (i : Nat) : Nat := b.base + 0x10000 + i * 8
/-- `TRIGA` (R259). -/
def Reg.triga (b : Blk) (i : Nat) : Nat := b.base + 0x14000 + i * 16
/-- `TRIGB` (R259). -/
def Reg.trigb (b : Blk) (i : Nat) : Nat := b.base + 0x14008 + i * 16
/-- `DSTORE` (R259). -/
def Reg.dstore (b : Blk) (i : Nat) : Nat := b.base + 0x18000 + i * 8
/-- `TNI_LAND` (R263). -/
def Reg.tniLand (n : Nat) (i : Nat) : Nat := (Blk.tni n).base + 0x16000 + i * 8
/-- `RELAY` (R264). -/
def Reg.relay (b : Blk) (i : Nat) : Nat := b.base + 0x16000 + i * 8
/-- `HP_CFG` (R373). -/
def Reg.hpCfg : Nat := Blk.hp.base + 0x1000
/-- `HP_FN_STAT` (R357). -/
def Reg.hpFnStat (f : Nat) : Nat := 0x240000 + f * 0x2000 + 0x0
/-- `HP_CR_DB` (R364). -/
def Reg.hpCrDb (f : Nat) (i : Nat) : Nat := 0x240000 + f * 0x2000 + 0x1000 + i * 8
/-- `HP_CQ_DB` (R364). -/
def Reg.hpCqDb (f : Nat) (i : Nat) : Nat := 0x240000 + f * 0x2000 + 0x1080 + i * 8
/-- `HP_CR_CFG` (R359). -/
def Reg.hpCrCfg (f : Nat) (i : Nat) : Nat := 0x240000 + f * 0x2000 + 0x1100 + i * 8
/-- `HP_CQ_CFG` (R361). -/
def Reg.hpCqCfg (f : Nat) (i : Nat) : Nat := 0x240000 + f * 0x2000 + 0x1180 + i * 8
/-- `HP_CR_STAT` (R366). -/
def Reg.hpCrStat (f : Nat) (i : Nat) : Nat := 0x240000 + f * 0x2000 + 0x1200 + i * 8
/-- `HP_CR_CFGB` (R360). -/
def Reg.hpCrCfgb (f : Nat) (i : Nat) : Nat := 0x240000 + f * 0x2000 + 0x1280 + i * 8
/-- `MEP_STAGE_CFG` (R85). -/
def Reg.mepStageCfg (n : Nat) : Nat := (Blk.mep n).base + 0x1000
/-- `MEP_STREAM_PSN` (R608). -/
def Reg.mepStreamPsn (n : Nat) (i : Nat) : Nat := (Blk.mep n).base + 0x1040 + i * 8
/-- `MEP_STREAM_DESC` (R79). -/
def Reg.mepStreamDesc (n : Nat) (i : Nat) : Nat := (Blk.mep n).base + 0x4000 + i * 8
/-- `MEP_TRANGE` (R540). -/
def Reg.mepTrange (n : Nat) (i : Nat) : Nat := (Blk.mep n).base + 0x8000 + i * 8
/-- `MEP_DESC_OWNER` (R82). -/
def Reg.mepDescOwner (n : Nat) (i : Nat) : Nat := (Blk.mep n).base + 0x9000 + i * 8
/-- `LP_CFG` (R532). -/
def Reg.lpCfg (n : Nat) : Nat := (Blk.lp n).base + 0x1000
/-- `LP_STATE` (R533). -/
def Reg.lpState (n : Nat) : Nat := (Blk.lp n).base + 0x1008
/-- `LP_LINK_STAT` (R534). -/
def Reg.lpLinkStat (n : Nat) : Nat := (Blk.lp n).base + 0x1010
/-- `LP_VC_CFG` (R509). -/
def Reg.lpVcCfg (n : Nat) : Nat := (Blk.lp n).base + 0x1018
/-- `LP_PM_CFG` (R527). -/
def Reg.lpPmCfg (n : Nat) : Nat := (Blk.lp n).base + 0x1020
/-- `LP_TEST_CTL` (R531). -/
def Reg.lpTestCtl (n : Nat) : Nat := (Blk.lp n).base + 0x1028
/-- `LP_TOFS` (R646). -/
def Reg.lpTofs (n : Nat) : Nat := (Blk.lp n).base + 0x1030
/-- `LP_TDLY` (R646). -/
def Reg.lpTdly (n : Nat) : Nat := (Blk.lp n).base + 0x1038
/-- `LP_LANE_EQ` (R522). -/
def Reg.lpLaneEq (n : Nat) (i : Nat) : Nat := (Blk.lp n).base + 0x1100 + i * 8
/-- `LP_LANE_STAT` (R534). -/
def Reg.lpLaneStat (n : Nat) (i : Nat) : Nat := (Blk.lp n).base + 0x1200 + i * 8
/-- `LP_SBIND_A` (R528). -/
def Reg.lpSbindA (n : Nat) (i : Nat) : Nat := (Blk.lp n).base + 0x1400 + i * 32
/-- `LP_SBIND_B` (R528). -/
def Reg.lpSbindB (n : Nat) (i : Nat) : Nat := (Blk.lp n).base + 0x1408 + i * 32
/-- `LP_SBIND_C` (R528). -/
def Reg.lpSbindC (n : Nat) (i : Nat) : Nat := (Blk.lp n).base + 0x1410 + i * 32
/-- `GATE0` (R176). -/
def Reg.gate0 (b : Blk) (i : Nat) : Nat := b.base + 0x4000 + i * 8
/-- `GATE1` (R176). -/
def Reg.gate1 (b : Blk) (i : Nat) : Nat := b.base + 0x4200 + i * 8
/-- `GATE_ARM` (R177). -/
def Reg.gateArm (b : Blk) : Nat := b.base + 0x4400
/-- `GATE_CTL` (R177). -/
def Reg.gateCtl (b : Blk) : Nat := b.base + 0x4408
/-- `RTE_CFG` (R468). -/
def Reg.rteCfg (n : Nat) : Nat := (Blk.rte n).base + 0x1000
/-- `RTE_STAT` (R469). -/
def Reg.rteStat (n : Nat) : Nat := (Blk.rte n).base + 0x1008
/-- `RTE_CCPA` (R473). -/
def Reg.rteCcpa (n : Nat) (i : Nat) : Nat := (Blk.rte n).base + 0x1100 + i * 8
/-- `RTE_CCPB` (R474). -/
def Reg.rteCcpb (n : Nat) (i : Nat) : Nat := (Blk.rte n).base + 0x1180 + i * 8
/-- `RTE_TC` (R479). -/
def Reg.rteTc (n : Nat) (i : Nat) : Nat := (Blk.rte n).base + 0x1200 + i * 8
/-- `RTE_PORT_CFG` (R486). -/
def Reg.rtePortCfg (n : Nat) (i : Nat) : Nat := (Blk.rte n).base + 0x1300 + i * 64
/-- `RTE_PORT_MAC` (R486). -/
def Reg.rtePortMac (n : Nat) (i : Nat) : Nat := (Blk.rte n).base + 0x1308 + i * 64
/-- `RTE_PORT_NH` (R486). -/
def Reg.rtePortNh (n : Nat) (i : Nat) : Nat := (Blk.rte n).base + 0x1310 + i * 64
/-- `RTE_PORT_IP4` (R486). -/
def Reg.rtePortIp4 (n : Nat) (i : Nat) : Nat := (Blk.rte n).base + 0x1318 + i * 64
/-- `RTE_PORT_IP6H` (R486). -/
def Reg.rtePortIp6h (n : Nat) (i : Nat) : Nat := (Blk.rte n).base + 0x1320 + i * 64
/-- `RTE_PORT_IP6L` (R486). -/
def Reg.rtePortIp6l (n : Nat) (i : Nat) : Nat := (Blk.rte n).base + 0x1328 + i * 64
/-- `RTE_PORT_STAT` (R487). -/
def Reg.rtePortStat (n : Nat) (i : Nat) : Nat := (Blk.rte n).base + 0x1330 + i * 64
/-- `RTE_PORT_EEE` (R487). -/
def Reg.rtePortEee (n : Nat) (i : Nat) : Nat := (Blk.rte n).base + 0x1338 + i * 64
/-- `RTE_SBIND_A` (R467). -/
def Reg.rteSbindA (n : Nat) (i : Nat) : Nat := (Blk.rte n).base + 0x1400 + i * 32
/-- `RTE_SBIND_B` (R467). -/
def Reg.rteSbindB (n : Nat) (i : Nat) : Nat := (Blk.rte n).base + 0x1408 + i * 32
/-- `RTE_SBIND_C` (R467). -/
def Reg.rteSbindC (n : Nat) (i : Nat) : Nat := (Blk.rte n).base + 0x1410 + i * 32
/-- `RTE_QP_STAT` (R429). -/
def Reg.rteQpStat (n : Nat) (i : Nat) : Nat := (Blk.rte n).base + 0x20000 + i * 8
/-- `RTE_QP_CC` (R477). -/
def Reg.rteQpCc (n : Nat) (i : Nat) : Nat := (Blk.rte n).base + 0x40000 + i * 8
/-- `RTR_EP_OWNER` (R143). -/
def Reg.rtrEpOwner (n : Nat) : Nat := (Blk.rtr n).base + 0x1000
/-- `RTR_DYN_ARB` (R111). -/
def Reg.rtrDynArb (n : Nat) : Nat := (Blk.rtr n).base + 0x1008
/-- `RTR_SP_STAT` (R286). -/
def Reg.rtrSpStat (n : Nat) : Nat := (Blk.rtr n).base + 0x1010
/-- `RTR_SHADOW_CFG` (R615). -/
def Reg.rtrShadowCfg (n : Nat) : Nat := (Blk.rtr n).base + 0x1018
/-- `RTR_SHADOW_STAT` (R616). -/
def Reg.rtrShadowStat (n : Nat) : Nat := (Blk.rtr n).base + 0x1020
/-- `RTR_SHADOW_CAP` (R617). -/
def Reg.rtrShadowCap (n : Nat) (i : Nat) : Nat := (Blk.rtr n).base + 0x1040 + i * 8
/-- `RTR_SCH_RANGE` (R61). -/
def Reg.rtrSchRange (n : Nat) (i : Nat) : Nat := (Blk.rtr n).base + 0x1100 + i * 8
/-- `RTR_PHASE_OWNER_LO` (R64). -/
def Reg.rtrPhaseLo (n : Nat) (i : Nat) : Nat := (Blk.rtr n).base + 0x1300 + i * 16
/-- `RTR_PHASE_OWNER_HI` (R64). -/
def Reg.rtrPhaseHi (n : Nat) (i : Nat) : Nat := (Blk.rtr n).base + 0x1308 + i * 16
/-- `TEL_LINK_UTIL` (R638). -/
def Reg.telLinkUtil (n : Nat) (i : Nat) : Nat := (Blk.rtr n).base + 0x1400 + i * 8
/-- `RTR_RED_CTXA` (R221). -/
def Reg.redCtxA (n : Nat) (i : Nat) : Nat := (Blk.rtr n).base + 0x1500 + i * 32
/-- `RTR_RED_CTXB` (R222). -/
def Reg.redCtxB (n : Nat) (i : Nat) : Nat := (Blk.rtr n).base + 0x1508 + i * 32
/-- `RTR_RED_CTXS` (R223). -/
def Reg.redCtxS (n : Nat) (i : Nat) : Nat := (Blk.rtr n).base + 0x1510 + i * 32
/-- `RTR_RED_CSTAT` (R254). -/
def Reg.redCstat (n : Nat) (i : Nat) : Nat := (Blk.rtr n).base + 0x1518 + i * 32
/-- `TEL_RU_FMT` (R639). -/
def Reg.telRuFmt (n : Nat) (i : Nat) : Nat := (Blk.rtr n).base + 0x1800 + i * 8
/-- `RTR_SP_NODE` (R287). -/
def Reg.rtrSpNode (n : Nat) (i : Nat) : Nat := (Blk.rtr n).base + 0x4000 + i * 8
/-- `RTR_XBAR_BANK0` (R59). -/
def Reg.rtrXbar0 (n : Nat) (i : Nat) : Nat := (Blk.rtr n).base + 0x10000 + i * 8
/-- `RTR_XBAR_BANK1` (R59). -/
def Reg.rtrXbar1 (n : Nat) (i : Nat) : Nat := (Blk.rtr n).base + 0x18000 + i * 8
/-- `TNI_FMT_STAT` (R216). -/
def Reg.tniFmtStat (n : Nat) : Nat := (Blk.tni n).base + 0x1000
/-- `TNI_SLU_STAT` (R315). -/
def Reg.tniSluStat (n : Nat) : Nat := (Blk.tni n).base + 0x1008
/-- `TNI_CH_COUNT` (R350). -/
def Reg.tniChCount (n : Nat) : Nat := (Blk.tni n).base + 0x1010
/-- `TNI_CORE_CTX` (R607). -/
def Reg.tniCoreCtx (n : Nat) : Nat := (Blk.tni n).base + 0x1018
/-- `TNI_PCS_CFG` (R657). -/
def Reg.tniPcsCfg (n : Nat) : Nat := (Blk.tni n).base + 0x1020
/-- `TNI_PUMP_PSN` (R608). -/
def Reg.tniPumpPsn (n : Nat) (i : Nat) : Nat := (Blk.tni n).base + 0x1040 + i * 8
/-- `TNI_GRP_PSN` (R608). -/
def Reg.tniGrpPsn (n : Nat) (i : Nat) : Nat := (Blk.tni n).base + 0x1100 + i * 8
/-- `TNI_OPM_CFG` (R649). -/
def Reg.tniOpmCfg (n : Nat) (i : Nat) : Nat := (Blk.tni n).base + 0x1400 + i * 16
/-- `TNI_OPM_CNT` (R649). -/
def Reg.tniOpmCnt (n : Nat) (i : Nat) : Nat := (Blk.tni n).base + 0x1408 + i * 16
/-- `TNI_WATCH_CFG` (R658). -/
def Reg.tniWatchCfg (n : Nat) (i : Nat) : Nat := (Blk.tni n).base + 0x1440 + i * 64
/-- `TNI_WATCH_STAT` (R660). -/
def Reg.tniWatchStat (n : Nat) (i : Nat) : Nat := (Blk.tni n).base + 0x1448 + i * 64
/-- `TNI_WATCH_RES0` (R660). -/
def Reg.tniWatchRes0 (n : Nat) (i : Nat) : Nat := (Blk.tni n).base + 0x1450 + i * 64
/-- `TNI_WATCH_RES1` (R660). -/
def Reg.tniWatchRes1 (n : Nat) (i : Nat) : Nat := (Blk.tni n).base + 0x1458 + i * 64
/-- `TNI_WATCH_RES2` (R660). -/
def Reg.tniWatchRes2 (n : Nat) (i : Nat) : Nat := (Blk.tni n).base + 0x1460 + i * 64
/-- `TNI_WATCH_RES3` (R660). -/
def Reg.tniWatchRes3 (n : Nat) (i : Nat) : Nat := (Blk.tni n).base + 0x1468 + i * 64
/-- `TNI_WATCH_RES4` (R660). -/
def Reg.tniWatchRes4 (n : Nat) (i : Nat) : Nat := (Blk.tni n).base + 0x1470 + i * 64
/-- `TNI_WATCH_RES5` (R660). -/
def Reg.tniWatchRes5 (n : Nat) (i : Nat) : Nat := (Blk.tni n).base + 0x1478 + i * 64
/-- `TNI_SLU_OSTAT` (R303). -/
def Reg.tniSluOstat (n : Nat) (i : Nat) : Nat := (Blk.tni n).base + 0x1700 + i * 8
/-- `TNI_SLU_INBA` (R297). -/
def Reg.tniSluInba (n : Nat) (i : Nat) : Nat := (Blk.tni n).base + 0x1800 + i * 16
/-- `TNI_SLU_INBB` (R297). -/
def Reg.tniSluInbb (n : Nat) (i : Nat) : Nat := (Blk.tni n).base + 0x1808 + i * 16
/-- `TNI_SLU_ISTAT` (R300). -/
def Reg.tniSluIstat (n : Nat) (i : Nat) : Nat := (Blk.tni n).base + 0x1C00 + i * 8
/-- `TNI_PUMP_DESC` (R79). -/
def Reg.tniPumpDesc (n : Nat) (i : Nat) : Nat := (Blk.tni n).base + 0xA000 + i * 8
/-- `TNI_CH_HTAB` (R323). -/
def Reg.tniChHtab (n : Nat) (i : Nat) : Nat := (Blk.tni n).base + 0xC000 + i * 8
/-- `TNI_GRP_MEMBER` (R266). -/
def Reg.tniGrpMember (n : Nat) (i : Nat) : Nat := (Blk.tni n).base + 0x20000 + i * 8
/-- `TNI_CH_CFG` (R320). -/
def Reg.tniChCfg (n : Nat) (i : Nat) : Nat := (Blk.tni n).base + 0x40000 + i * 32
/-- `TNI_CH_RING` (R321). -/
def Reg.tniChRing (n : Nat) (i : Nat) : Nat := (Blk.tni n).base + 0x40008 + i * 32
/-- `TNI_CH_SPILL` (R322). -/
def Reg.tniChSpill (n : Nat) (i : Nat) : Nat := (Blk.tni n).base + 0x40010 + i * 32
/-- `TNI_CH_STAT` (R324). -/
def Reg.tniChStat (n : Nat) (i : Nat) : Nat := (Blk.tni n).base + 0x40018 + i * 32

end Sys2Proof.Machine
end

