-- ==== Sys2Proof/Machine/State.lean ====
section
/-!
DEFINITION. The state of the block: every register (by control-space offset), memory, FIFO, buffer, timer and mode the spec
gives it, as plain data, with the queue of waiting commands, and its value at power-on. Fields that no rule gives a reset
value start empty, zero or false (log 6, DESIGN CHOICE).
-/
namespace Sys2Proof.Machine

/-- Why a step stops. Nothing in this block faults: the spec answers every failure with a status, a record or a state field. -/
inductive Fault where
  /-- Raised by no meaning; kept so that the type of stops is inhabited (safe). -/
  | none
  deriving DecidableEq, Repr

/-- Why a command has no meaning here. -/
inductive Refusal where
  /-- A command whose meaning is not written (safe: nothing can be proved about its effect). -/
  | notModelled (mnemonic : String)
  deriving DecidableEq, Repr

/-! ### Clocks and time (chapter 16, R11, R12) -/

/-- The clocks: cycles of 4/9 ns since fabric time began (R11, R569), whether it runs; whether the fabric clock is gated (R572, R589), whether the
fabric domain is held in reset (R572, R586), and whether its supply switch is off (R580). The PLL's and the reference's state stand in
FAB_CLK_STAT. -/
structure Clock where
  now : Nat := 0
  run : Bool := false
  gated : Bool := false
  fabHeld : Bool := true
  fabOff : Bool := true
  deriving DecidableEq, Repr

/-! ### Register access (R18, R683) -/

/-- A 64-bit register's held half, or a descriptor's held slots. -/
structure BusState where
  readLatch : List (RegTarget × Nat) := []
  writeLatch : List (RegTarget × Nat) := []
  lastRead : Word := 0
  slots : List (Nat × Word) := []
  deriving DecidableEq, Repr

/-- What the fabric has done to a register in the present cycle, for a software write of the same cycle (R17, R672): the sum added to its count, the
failure codes recorded, the W1C bits it set, and the W1S bits that were 1 and that software set again. -/
structure RegNote where
  off : Nat
  added : Nat := 0
  fails : List Nat := []
  up : Nat := 0
  asked : Nat := 0
  deriving DecidableEq, Repr

/-- The notes of one cycle; those of an earlier cycle no longer count. -/
structure RegNotes where
  at_ : Nat := 0
  notes : List RegNote := []
  deriving DecidableEq, Repr

/-! ### Errors (chapter 17, R404, R621) -/

/-- An error record (R621). -/
structure ErrRec where
  synd : Nat := 0
  addr : Nat := 0
  peer : Ep := ⟨0, 0, 0⟩
  opc : Nat := 0
  tag : Nat := 0
  prio : Nat := 0
  volt : Nat := 0
  temp : Nat := 0
  opid : Nat := 0
  layer : Nat := 0
  time : Nat := 0
  unit : Nat := 0
  det : Nat := 0
  kind : Nat := 0
  status : Status := .ok
  tenant : Nat := 0xFF
  dchip : Nat := 0
  cls : Nat := 2
  supp : Nat := 0
  inj : Bool := false
  seq : Nat := 0
  deriving DecidableEq, Repr

/-- When a unit's detector last wrote a record, and the events it has suppressed since (R622). -/
structure Throttle where
  last : Option Nat := none
  supp : Nat := 0
  deriving DecidableEq, Repr

/-- The error log ring (R404): records oldest first, at most 4,096, the next sequence number, how many records were written in
cycle `at_`, which the log shows from the next one (R684), the throttles, and UE of the management island: records lost to an error of its memories
(R600). -/
structure ErrLog where
  ring : List ErrRec := []
  seq : Nat := 0
  at_ : Nat := 0
  fresh : Nat := 0
  throttle : List (Nat × Throttle) := []
  ue : Nat := 0
  deriving DecidableEq, Repr

/-! ### Commands in execution (chapter 10) -/

/-- A started command: its descriptor, what it still waits for, and what its completion record will say. `bad` lists the offsets and lengths of
the source bytes that came poisoned (R213); `stopped`: data still in flight moves nothing further (R377, R384). -/
structure Cmd where
  id : Nat
  src : CmdSrc
  ex : Ep
  tenant : Nat
  desc : Nat
  inl : List Byte := []
  slot : Nat := 0
  left : Nat := 0
  status : Status := .ok
  bytes : Nat := 0
  detail : Nat := 0
  poison : Bool := false
  buf : List (Nat × List Byte) := []
  bad : List (Nat × Nat) := []
  trig : Option (Blk × Nat) := none
  stopped : Bool := false
  deriving DecidableEq, Repr

/-- What a local access of an RTE is for (R457, R458): `n` source bytes at `off` of a packet's payload; a placement of `n` bytes of a received
message; `n` bytes at `off` of the data a READ_REQ asks for; an atomic of a received message; response bytes written for an operation; a RELAY
message passed on. Messages are named by MSN and first PSN. -/
inductive RteJob where
  | src (psn off n : Nat)
  | place (msn base : Nat) (mr : Option Nat)
  | read (msn base off n : Nat)
  | atom (msn base : Nat)
  | back (msn n : Nat)
  | fwd (msn base : Nat)
  deriving DecidableEq, Repr

/-- What a request is for: what happens when its response arrives. -/
inductive Purpose where
  /-- Nothing waits for it (reports, notifications). -/
  | none
  /-- A source read of command `id`; the data goes out in packet `next`, whose purpose is `after`. -/
  | fetch (id : Nat) (next : Pkt) (after : Purpose)
  /-- A source read of command `id` whose `n` bytes belong at offset `off` of the data it gathers. -/
  | gather (id off n : Nat)
  /-- A data write of `n` bytes of command `id`. -/
  | cmdWr (id n : Nat)
  /-- An atomic of command `id`. -/
  | cmdAt (id : Nat)
  /-- A packet of command `id` that an ACK completes. -/
  | cmdAck (id : Nat)
  /-- A contribution of command `id`: its first position and how many it covers (R230). -/
  | contrib (id first n : Nat)
  /-- A spill write of channel `c` of tile `t` into spillway slot `k` (R334). -/
  | spillWr (t c k : Nat)
  /-- The refill read of channel `c` of tile `t` from slot `k` (R335). -/
  | refill (t c k : Nat)
  /-- A packet of `n` positions that reduction context `c` at router `t` sends (R250). -/
  | redOut (t c n : Nat)
  /-- A packet passed on by a relay; the packet it answers afterwards (R264). -/
  | relay (orig : Pkt)
  /-- A sluice packet of origin tile `t` for the operation of group `g` (R304-R313). -/
  | slu (t g : Nat)
  /-- A write of a bound scheduled stream, whose WR_ACK advances the counter at `ctr` (R528). -/
  | sbind (ctr : Nat)
  /-- A local access of an RTE for queue pair `q` (R457). -/
  | rte (e q : Nat) (job : RteJob)
  /-- A chunk claim or chunk write of a trace recorder (R652). -/
  | trace (unit buf : Nat)
  /-- A control-space access of the FMP, or its mailbox traffic. -/
  | fmp
  deriving DecidableEq, Repr

/-- Where a trigger table's issued command waits to be started (R260). -/
structure Issued where
  blk : Blk
  e : Nat
  desc : Nat
  deriving DecidableEq, Repr

/-! ### The dynamic plane (chapter 3) -/

/-- A request waiting at its source interface (R118). `mc` lists the targets of a multicast; `held` says that its response slots are set aside. -/
structure Req where
  id : Nat
  pkt : Pkt
  why : Purpose
  mc : List Ep := []
  held : Bool := false
  deriving DecidableEq, Repr

/-- A transaction in flight: TAG in use, slots set aside, time of its last flit (R108, R118, R129). `due` lists the
responses still expected: one for a plain request, one per target for a multicast (R134). `rspto` is the response timeout in cycles, as it stood
when the request was issued (R127). -/
structure Txn where
  ep : Ep
  tag : Nat
  opc : Opc
  dst : Ep
  why : Purpose
  slots : Nat
  sent : Nat
  allot : Bool
  prio : Nat
  addr : Nat
  tenant : Nat
  due : List Ep
  rspto : Nat := 2250
  deriving DecidableEq, Repr

/-- A tag in quarantine after a response timeout (R108, R119). -/
structure Quar where
  ep : Ep
  tag : Nat
  dst : Ep
  allot : Bool
  until_ : Nat
  deriving DecidableEq, Repr

/-- A reservation record of a requester (R118): a pending request, one being released, or a held grant. `sent` says that its RSV_REQ has been
issued, `slots` counts the response slots set aside for its packets, and the timeouts and the lease (in cycles) are those of its issue (R127). -/
structure Rsv where
  ep : Ep
  rec_ : Nat
  dst : Ep
  flits : Nat
  tenant : Nat
  mcop : Nat := 0
  ticket : Nat := 0
  issued : Nat := 0
  granted : Bool := false
  released : Bool := false
  left : Nat := 0
  lastUse : Nat := 0
  req : Nat := 0
  why : Purpose := .none
  sent : Bool := false
  slots : Nat := 0
  rsvto : Nat := 0
  rspto : Nat := 0
  lease : Nat := 0
  deriving DecidableEq, Repr

/-- A request waiting at a cistern (R122, R123), since a cycle. -/
structure CReq where
  ep : Ep
  src : Ep
  rec_ : Nat
  tenant : Nat
  flits : Nat
  mc : Bool := false
  mcop : Nat := 0
  ticket : Nat := 0
  settle : Nat := 0
  since : Nat := 0
  deriving DecidableEq, Repr

/-- Slots a cistern has granted to a source and that are neither used nor released (R128). -/
structure CGrant where
  ep : Ep
  src : Ep
  rec_ : Nat
  tenant : Nat
  slots : Nat
  deriving DecidableEq, Repr

/-- A flit in a router's virtual channel (R109): router, input port, channel 2·PRIO + DCLASS, the output ports that have still to take
it (several for a multicast, R133), whether it is the packet's last, what a sounding shows of its packet (R663), and the cycle since which it stands at the head. -/
structure VcFlit where
  tile : Nat
  inp : Nat
  vc : Nat
  outs : List Nat
  last : Bool
  head : Nat := 0
  since : Nat := 0
  deriving DecidableEq, Repr

/-- A virtual channel held at a router output from a packet's first flit to its last (R109), with the packet's tenant. -/
structure VcHold where
  tile : Nat
  out : Nat
  vc : Nat
  inp : Nat
  tenant : Nat
  deriving DecidableEq, Repr

/-- An allotment slot of an ingress lane port in use (R120): the port, the cistern, and the packet's source and TAG. -/
structure EntrySlot where
  port : Ep
  cis : Ep
  src : Ep
  tag : Nat
  deriving DecidableEq, Repr

/-- The dynamic plane. `wire` holds the flits sent over a mesh link that have not yet arrived (router, input port, channel, tenant), whose places the
sender's credits count (R109); `weights` the arbitration weights in force at an output (key 32 · router + output, R111); `told` the targets a multicast has been
delivered to (source, TAG, tile); `entries` the allotment slots of ingress lane ports in use, and `entryWait` the packets that wait for one (R120). -/
structure DynState where
  net : List Pkt := []
  waiting : List Req := []
  nextReq : Nat := 0
  txns : List Txn := []
  quar : List Quar := []
  rsvs : List Rsv := []
  nextMc : Nat := 1
  allot : List (Ep × Ep) := []
  pend : List CReq := []
  given : List CGrant := []
  late : Nat := 0
  vcs : List VcFlit := []
  holds : List VcHold := []
  rr : List (Nat × Nat) := []
  deficit : List (Nat × Nat) := []
  wire : List (Nat × Nat × Nat × Nat) := []
  weights : List (Nat × Word) := []
  told : List (Ep × Nat × Nat) := []
  entries : List EntrySlot := []
  entryWait : List (Nat × Pkt) := []
  deriving DecidableEq, Repr

/-! ### The scheduled plane (chapter 2) -/

/-- A tenant's partition counter and freezes (R63, R92, R95): the global cycle its counter last stood at 0 with a takeover,
the cycles it has been frozen since, the quantum in force, the consecutive quanta, the starts of the slip requests not yet
resolved; `thawed` is the cycle in which the last quantum ended, `armAt` the cycle of an arm write whose check runs. -/
structure SchTenant where
  start0 : Nat := 0
  frozen : Nat := 0
  quantum : Option Nat := none
  consec : Nat := 0
  thawed : Nat := 0
  slips : List Nat := []
  checking : Bool := false
  armAt : Nat := 0
  deriving DecidableEq, Repr

/-- A beat on its way: the router input port it reaches and the global cycle in which it is at that crossbar (R76). -/
structure FlightBeat where
  tile : Nat
  port : Nat
  due : Nat
  beat : Beat
  deriving DecidableEq, Repr

/-- A beat delivered to a sink or to a reduction unit's input: router, output port, context, beat (R76, R99), and the global cycle of the
delivery. -/
structure SinkBeat where
  tile : Nat
  port : Nat
  ctx : Nat
  beat : Beat
  at_ : Nat
  deriving DecidableEq, Repr

/-- A place in a MEP's read staging buffer (R86): descriptor, burst, beat, the bank and the round of that bank in which the beat crosses, the
cycle in which its read was issued, and the data once it has returned. -/
structure StagePlace where
  mep : Nat
  desc : Nat
  j : Nat
  k : Nat
  bank : Nat
  round : Nat
  at_ : Nat
  beat : Option (List Byte × Bool)
  deriving DecidableEq, Repr

/-- A beat that a stream gave a tile's array through its stream port (R79): tile, descriptor, data, poison. -/
structure ArrayBeat where
  tile : Nat
  desc : Nat
  data : List Byte
  psn : Bool
  deriving DecidableEq, Repr

/-- A beat in a MEP's write absorption buffer (R88). -/
structure AbsorbBeat where
  mep : Nat
  desc : Nat
  addr : Nat
  data : List Byte
  psn : Bool
  tenant : Nat
  deriving DecidableEq, Repr

/-- A beat in the scheduled ingress buffer of a lane port or RTE (R89). -/
structure IngressBeat where
  blk : Blk
  ch : Nat
  beat : Beat
  deriving DecidableEq, Repr

/-- The progress of a stream binding at a lane port or RTE (R528, R467): its running offset and the bytes gathered. -/
structure BindRun where
  offset : Nat := 0
  gathered : List Byte := []
  psn : Bool := false
  deriving DecidableEq, Repr

/-- Bytes that scheduled data has moved through an arbiter's resource in a slot that the schedule owns (R84, R145). -/
structure SlotUse where
  arb : Arb
  at_ : Nat
  n : Nat
  deriving DecidableEq, Repr

/-- The scheduled plane. `hold` is the hold stores of the router ports (R94), `arrays` what the arrays' stream ports have been given, oldest
first; `uses` what scheduled data has moved in slots that the schedule owns (R84). -/
structure SchState where
  ten : List (Nat × SchTenant) := []
  flight : List FlightBeat := []
  hold : List FlightBeat := []
  sinks : List SinkBeat := []
  arrays : List ArrayBeat := []
  stage : List StagePlace := []
  absorb : List AbsorbBeat := []
  ingress : List IngressBeat := []
  binds : List (Nat × BindRun) := []
  uses : List SlotUse := []
  deriving DecidableEq, Repr

/-! ### Edge arbitration (chapter 4) -/

/-- A transfer at an arbiter (R152): what its endpoint presented, its progress count, and whether its start has been charged. -/
structure ArbTx where
  req : ArbReq
  progress : Nat
  charged : Bool := true
  deriving DecidableEq, Repr

/-- An arbiter's working state (R152-R161): the arbiter cycle to be decided next, PTR, the current transfer with the row of cycles in which it
had no grain ready, the locked sequence and the cycles of its lock, the parked transfers, the request granted in the last cycle, the cycle of
the next refill, and the global cycle and its own count when its pace last changed. -/
structure ArbRun where
  n : Nat := 0
  ptr : Nat := 0
  current : Option ArbTx := none
  idle : Nat := 0
  lock : Option ArbTx := none
  lockN : Nat := 0
  parked : List ArbTx := []
  granted : Option ArbReq := none
  armAt : Nat := 0
  checking : Bool := false
  refillAt : Nat := 0
  pace : Option (Nat × Nat) := none
  deriving DecidableEq, Repr

/-- What the FMP policy loop remembers of one weight (R164, R416): pinned or not, the weight host software set last, and the
time of the loop's last change. -/
structure WeightMemo where
  pinned : Bool := false
  host : Nat := 0x10
  changed : Option Nat := none
  deriving DecidableEq, Repr

/-- A gate list's position (R176, R178): the entry in force, and the fabric time at which it began. -/
structure GateRun where
  entry : Nat := 0
  since : Nat := 0
  checking : Bool := false
  armAt : Nat := 0
  deriving DecidableEq, Repr

/-- Arbiters and gate lists, and the fabric time of each shaper's next refill. Keys: an arbiter's window base; the offset of the
requester's ARB_SHARE or ARB_SHAPE; a gate list's block base. `fmpIrq` is the starvation interrupt to the FMP (R163), `tokens` the shapers' tokens,
whose low 16 bits ARB_RSTAT shows, under the offset of their ARB_RSTAT, `since` the cycle in which the fabric last left reset (R148). -/
structure ArbState where
  runs : List (Nat × ArbRun) := []
  memos : List (Nat × WeightMemo) := []
  gates : List (Nat × GateRun) := []
  shapes : List (Nat × Nat) := []
  tokens : List (Nat × Int) := []
  since : Nat := 0
  fmpIrq : Bool := false
  deriving DecidableEq, Repr

/-! ### Counters and triggered operations (chapter 7) -/

/-- An addition on its way to a counter, applied in the next cycle (R684): the counter's offset, the amount, and the code of a
failure it records. -/
structure CtrAdd where
  off : Nat
  n : Nat
  fail : Option Nat := none
  deriving DecidableEq, Repr

/-- Counters' pending additions, the firing queues (R260), and the commands issued from them that have not started. -/
structure TrigState where
  adds : List CtrAdd := []
  armed : List (Blk × Nat) := []
  queue : List (Blk × Nat) := []
  issued : List Issued := []
  deriving DecidableEq, Repr

/-! ### In-network reduction (chapter 6) -/

/-- A stored value of a position (R239, R242): its node, its element codes in the combine format, its counts (R237), and
whether it is absent because its input was malformed (R251). -/
structure RedNode where
  lo : Nat
  lvl : Nat
  vals : List Nat
  cnts : List Nat := []
  absent : Bool := false
  deriving DecidableEq, Repr

/-- Half a flit position (64 bytes in dense form) of the running operation: the stored nodes, the nodes received for it, poison, and the
cycle in which its value is ready. A unit of R198 or R207 may end in the middle of a position, so halves are kept apart. -/
structure RedPos where
  half : Nat
  nodes : List RedNode := []
  got : List (Nat × Nat) := []
  psn : Bool := false
  ready : Option Nat := none
  deriving DecidableEq, Repr

/-- An input of a context (R278, R279): its node, the signature and sequence of its opening mark, the halves it has supplied, the
running digest of its packets, the digest of its closing mark, whether that was compared, and whether it has sent ERR_RSP (R253). -/
structure RedIn where
  rank : Nat
  lvl : Nat
  sig : Option Nat := none
  seq : Nat := 0
  n : Nat := 0
  dig : Nat := 0
  close : Option Nat := none
  err : Bool := false
  deriving DecidableEq, Repr

/-- Half a position that a contribution carries: its index, element codes in the combine format, counts, and the payload bytes that hold it. -/
structure RedHalf where
  half : Nat
  vals : List Nat
  cnts : List Nat
  from_ : Nat := 0
  past : Nat := 0
  deriving DecidableEq, Repr

/-- A contribution that is not yet acknowledged (R229): the positions it covers (`first` to `past` − 1), its halves that are still to be combined,
and how many of its payload flits the pipeline has taken; `absent` when it was malformed (R251). -/
structure RedHold where
  pkt : Pkt
  first : Nat
  past : Nat
  rank : Nat
  lvl : Nat
  pend : List RedHalf
  took : Nat := 0
  absent : Bool := false
  deriving DecidableEq, Repr

/-- The working state of a reduction context. `grp` is the group it serves, as GROUP, EPOCH and group-table index (none: fed by CONTRIB
commands alone); `step` the cycle from which its step timer runs (R281); `opened` whether the opening marks agree (R278); `malf` whether a
malformed input reached the operation (R251); `sent` the positions above BASE whose packet waits to leave, and `unacked` those not yet
acknowledged by a parent (R230, R250); `outDig` the digest of what it has sent (R279); `resSums`, `resCnts` the dense result bytes (R280);
`done` the digests of inputs whose closing mark is still to come; `acc`, `runN`, `runPsn` the MODE 2 accumulator (R248). `labels` are LAYER and OPID of the operation's first input packet (R648). -/
structure RedRun where
  grp : Option (Nat × Nat × Nat) := none
  poss : List RedPos := []
  ins : List RedIn := []
  holds : List RedHold := []
  step : Option Nat := none
  opened : Bool := false
  malf : Bool := false
  sent : Nat := 0
  unacked : Nat := 0
  outDig : Nat := 0
  resSums : List Byte := []
  resCnts : List Byte := []
  done : List RedIn := []
  acc : List Nat := []
  runN : Nat := 0
  runPsn : Bool := false
  labels : Option (Nat × Nat) := none
  deriving DecidableEq, Repr

/-! ### Collectives (chapter 7) -/

/-- A member's running operation in a group (R268, R275): tile, group-table index, the command's number and descriptor, SEQ and
signature, the contribution digests by target context (R279), the LAST entries whose commands are still to complete, when the member
last contributed (R283), and the first failure of its commands. -/
structure CollOp where
  tile : Nat
  gidx : Nat
  cmd : Nat
  desc : Nat
  seq : Nat
  sig : Nat
  digs : List (Nat × Nat) := []
  lastLeft : Nat := 0
  lastAt : Option Nat := none
  status : Status := .ok
  deriving DecidableEq, Repr

/-- A landing's progress in the running operation (R263, R280): the positions it has written, the bytes of sums and counts by their
offsets, its result mark, poison, and whether a packet was malformed. -/
structure LandRun where
  n : Nat := 0
  sums : List (Nat × List Byte) := []
  cnts : List (Nat × List Byte) := []
  mark : Option Nat := none
  psn : Bool := false
  malf : Bool := false
  deriving DecidableEq, Repr

/-- An input a standpipe node holds (R288): where it came from, and the message. -/
structure SpIn where
  src : Ep
  msg : SpMsg
  deriving DecidableEq, Repr

/-- An operation slot of a standpipe node (R288): router, node entry, inputs in order of arrival, whether its UP has gone, and
the cycle of its first input. -/
structure SpOp where
  tile : Nat
  node : Nat
  ins : List SpIn := []
  sentUp : Bool := false
  since : Nat := 0
  deriving DecidableEq, Repr

/-- Collectives and the standpipe: running operations; landings by 16 times the tile ID plus the landing; abort requests accepted at this
package's coordinators (TENANT, GROUP, EPOCH, SEQ); the epochs each tenant's groups have held since the last fabric reset (R267); messages on their
way with the endpoint that sent them; operation slots; UP messages at a stage input without a slot, and the spilled ones, oldest first (R289); the landings, relays,
inboxes and standpipe nodes each group's write list installed, as group index and register offset (R414). -/
structure CollState where
  ops : List CollOp := []
  lands : List (Nat × LandRun) := []
  aborts : List (Nat × Nat × Nat × Nat) := []
  epochs : List (Nat × Nat × Nat) := []
  spNet : List (Ep × SpMsg) := []
  spOps : List SpOp := []
  spWait : List (Nat × Ep × SpMsg) := []
  spSpilled : List (Nat × Ep × SpMsg) := []
  plans : List (Nat × Nat) := []
  deriving DecidableEq, Repr

/-! ### The sluice (chapter 8) -/

/-- A claim entry held at a home (R305): slot, choice slot, round, the claiming rank, count, SEQ, the origin, and the labels of its packet. -/
structure Claim where
  tile : Nat
  slot : Nat
  j : Nat
  round : Nat
  rank : Nat
  count : Nat
  seq : Nat
  origin : Ep
  tenant : Nat
  layer : Nat
  opid : Nat
  deriving DecidableEq, Repr

/-- An admitted run of rows of an inbox slot (R306, R309): rows `first` to `first` + n − 1 belong to an origin. -/
structure RowRun where
  tile : Nat
  slot : Nat
  first : Nat
  n : Nat
  origin : Ep
  deriving DecidableEq, Repr

/-- A token's candidate at an origin (R294, R295): expert, weight, absent mark, and the sluice's DEC and J, with the admitted row. -/
structure Cand where
  exp : Nat := 0
  weight : Nat := 0
  abs : Bool := true
  dec : Nat := 0
  j : Nat := 0
  row : Nat := 0
  deriving DecidableEq, Repr

/-- Where a choice slot of a token stands (R306). -/
inductive ChoiceState where
  | pending | admitted | refused | dropped
  deriving DecidableEq, Repr

/-- A choice slot of a token: the candidate it last tried, and where it stands. -/
structure Choice where
  tok : Nat
  j : Nat
  cand : Nat
  state : ChoiceState
  deriving DecidableEq, Repr

/-- The bytes staged of a returned row (R311): its place 8 · token + J, the bytes in wire form, the EFMT they came in, and the packets: PART, bytes, and
poison. -/
structure Staged where
  key : Nat
  n : Nat
  efmt : Nat
  parts : List (Nat × Nat × Bool) := []
  deriving DecidableEq, Repr

/-- What an origin's DISPATCH does (R305-R307): waits for the ACKs of its claims, for the barrier and the ASSIGNs, or for the ACKs of its
rows; or it has completed. -/
inductive SluPhase where
  | claims | barrier | rows | done
  deriving DecidableEq, Repr

/-- An origin's operation beyond TNI_SLU_OSTAT (R303): tile, record, group index, the DISPATCH command and its descriptor, SEQ, candidates by
token, choice slots, expert-map entries read, homes whose ASSIGN is missing, packets not yet acknowledged, rows staged, poison, the first
failure, whether a map entry was bad, when the present wait began, and the COMBINE that has come. -/
structure SluOp where
  tile : Nat
  o : Nat
  gidx : Nat
  cmd : Nat
  desc : Nat
  seq : Nat
  phase : SluPhase := .claims
  toks : List (List Cand) := []
  choices : List Choice := []
  map : List (Nat × Nat) := []
  homes : List Ep := []
  barrier : Bool := false
  acks : Nat := 0
  staged : List Staged := []
  psn : Bool := false
  status : Status := .ok
  badMap : Bool := false
  since : Nat := 0
  combine : Option (Nat × Nat) := none
  deriving DecidableEq, Repr

/-- A RETURN command at a home that waits or sends, and whether its slot was poisoned when it began to send (R310, R314). -/
structure SluRet where
  tile : Nat
  slot : Nat
  cmd : Nat
  started : Bool := false
  psn : Bool := false
  deriving DecidableEq, Repr

/-- The sluice: claims held at homes, admitted rows, bytes arrived by row (key (64 · tile + slot) · 65,536 + row), the SEQ of each slot's
operation (key 64 · tile + slot), operations at origins, RETURN commands, and the admitted claims whose ASSIGN is still to be sent, each with its entry. -/
structure SluState where
  claims : List Claim := []
  rows : List RowRun := []
  rowGot : List (Nat × Nat) := []
  seqs : List (Nat × Nat) := []
  ops : List SluOp := []
  rets : List SluRet := []
  assigns : List (Claim × Nat) := []
  deriving DecidableEq, Repr

/-! ### Message channels (chapter 9) -/

/-- Where a spillway slot stands (R334-R336): its write pending, held, void, being read back, or read back and waiting for its turn. -/
inductive SpillSt where
  | pending | held | void | reading | back
  deriving DecidableEq, Repr

/-- A spillway slot: its number, the message, the MSG whose sender still waits for its answer, the cycle in which it entered the cistern, and
the labels of its packet. -/
structure SpillSlot where
  k : Nat
  st : SpillSt
  msg : List Byte
  ack : Option Pkt
  entered : Nat
  layer : Nat
  opid : Nat
  deriving DecidableEq, Repr

/-- A message that waits for its ring write (R332): its bytes, the MSG to acknowledge, and whether it comes back from the spillway. -/
structure ChanWrite where
  msg : List Byte
  ack : Option Pkt
  refill : Bool
  deriving DecidableEq, Repr

/-- A combining accumulator (R340-R342): elements, the bytes kept for the delivery, the count, poison, and the last contribution's sender. -/
structure Accum where
  vals : List Nat := []
  tail : List Byte := []
  count : Nat := 0
  psn : Bool := false
  src : Ep := ⟨0, 0, 0⟩
  tenant : Nat := 0
  deriving DecidableEq, Repr

/-- A channel beyond its registers: the cycle in which each ring message entered its slot, oldest first, messages that wait for their ring
write, spillway slots oldest first, the next spillway slot, the accumulator, whether a dispatch is left from before a reset (R346), whether
the missing handler was recorded (R337), and the cycle of the last reset (R349). -/
structure ChanRun where
  stamps : List Nat := []
  writes : List ChanWrite := []
  spill : List SpillSlot := []
  nextSpill : Nat := 0
  acc : Accum := {}
  stale : Bool := false
  noHandler : Bool := false
  resetAt : Option Nat := none
  deriving DecidableEq, Repr

/-- A dispatch presented to a control core (R338). Log 129, DEDUCED. -/
structure Dispatch where
  tile : Nat
  chan : Nat
  entry : Nat
  addr : Nat
  deriving DecidableEq, Repr

/-- Channels (key 4,096 · tile + channel), and the dispatches that the cores hold. -/
structure ChanState where
  runs : List (Nat × ChanRun) := []
  shown : List Dispatch := []
  deriving DecidableEq, Repr

/-! ### The host port (chapter 10) -/

/-- A descriptor fetched from a ring and not yet started: slot, descriptor, inline bytes, poisoned. -/
structure Fetched where
  slot : Nat
  desc : Nat
  inl : List Byte
  psn : Bool
  deriving DecidableEq, Repr

/-- A command ring beyond its registers (R363-R374): the executor's expected phase is `phase` (true is 1), the slots published to the HP and the
slots fetched, both modulo 2^32, whether a failed fetch waits for a doorbell, the times of the first and of the last failing data, the slots that a valid descriptor still waits for, and the descriptors
fetched and not yet started. -/
structure RingRun where
  phase : Bool := true
  published : Nat := 0
  fetched : Nat := 0
  stale : Bool := false
  t0 : Option Nat := none
  lastData : Nat := 0
  need : Nat := 0
  queue : List Fetched := []
  deriving DecidableEq, Repr

/-- A completion ring (R364, R374, R378, R382): write index, phase, released head, armed, commands started and not completed,
records written and records released modulo 2^32, and what CQCTR held at the executor when nothing was released (log 179). -/
structure CqRun where
  widx : Nat := 0
  phase : Bool := true
  head : Nat := 0
  armed : Bool := false
  started : Nat := 0
  written : Nat := 0
  released : Nat := 0
  base : Nat := 0
  deriving DecidableEq, Repr

/-- What the HP passes to the host, in order (R380). `ro` is the relaxed-ordering attribute of a data write (R373); records and messages never
carry it. A message names the cycle in which it is pending (R382); a read is a descriptor fetch's (R371). -/
inductive HostOut where
  | data (fn addr : Nat) (bytes : List Byte) (psn ro : Bool)
  | record (fn cq idx addr : Nat) (rec : Nat)
  | msix (fn vec cycle : Nat)
  | read (fn addr n : Nat)
  | mbxDone (fn : Nat) (slot : Nat)
  deriving DecidableEq, Repr

/-- The host port: rings and completion rings (key 16 · function + ring), started commands, MSI-X messages (key 128 · function + 2 · vector: address, then data), masks and pending bits per
function, completions delivered to control cores, the descriptors that wait at the tiles' core interfaces in the order presented (R367: tile, descriptor,
inline data), functions whose reset waits for their commands, and the host link: `linkUp` is false from a loss to
the link's return, `seenUp` whether it has come up since the port opened (R595), `loss` the step of R385 (begun at cycle `lossAt`): 1 draining, 2 the fabric's reset in
force, 3 waiting for the link. -/
structure HostState where
  rings : List (Nat × RingRun) := []
  cqs : List (Nat × CqRun) := []
  cmds : List Cmd := []
  nextCmd : Nat := 0
  out : List HostOut := []
  msix : List (Nat × Nat) := []
  vecCtl : List (Nat × Nat) := []
  pba : List (Nat × Nat) := []
  coreDone : List (Nat × Nat) := []
  coreHeld : List (Nat × Nat × List Byte) := []
  linkUp : Bool := true
  seenUp : Bool := false
  loss : Nat := 0
  lossAt : Nat := 0
  lost : Nat := 0
  flr : List Nat := []
  deriving DecidableEq, Repr

/-! ### The mailbox (chapter 11): report queue -/

/-- A function's report queue (R423): the 16 entries by index, TAIL, HEAD and LOST, and the reports written in cycle `at_`, which TAIL shows from
the next one (R684). -/
structure RptRun where
  ents : List (Nat × ErrRec) := []
  tail : Nat := 0
  head : Nat := 0
  lost : Nat := 0
  at_ : Nat := 0
  fresh : Nat := 0
  deriving DecidableEq, Repr

/-! ### Observability (chapter 18) -/

/-- A record buffer (R652): its unit, its well, the cycle of its first record, its 64-byte records, and whether it is to be
flushed. -/
structure TraceBuf where
  unit : Nat
  well : Nat
  first : Nat
  recs : List (List Byte)
  due : Bool := false
  deriving DecidableEq, Repr

/-- A flushed buffer on its way to its well (R651): the page to write, once its chunk is claimed. -/
structure TraceFlight where
  id : Nat
  unit : Nat
  well : Nat
  page : List Byte
  recs : Nat
  deriving DecidableEq, Repr

/-- A watcher's marks (R658): line numbers within its range, and the lines written during a readback. -/
structure WatchRun where
  marks : List Nat := []
  deriving DecidableEq, Repr

/-- Counters latched by a freeze (R640): the register table at the freeze; trace buffers; lost records not yet told, by unit and
well; watchers; the freeze in preparation (R642): its TAPPLY, whether it thaws, and its number; the sounding snapshot. -/
structure ObsState where
  latched : Option (List (Nat × Word)) := none
  bufs : List TraceBuf := []
  flights : List TraceFlight := []
  nextFlight : Nat := 0
  lostRecs : List (Nat × Nat) := []
  watch : List (Nat × WatchRun) := []
  apply : List (Nat × Bool × Nat) := []
  snapshot : Option (List Byte) := none
  samples : List (Nat × Nat) := []
  deriving DecidableEq, Repr
/-! ### Remote transport (chapters 12 and 13) -/

/-- An operation posted on a queue pair (R434, R436): the command it completes (none for an engine's own operation), QOP (7 is a RELAY
message), addresses, length and key, the labels, its inline bytes, its MSN, the counter a bound stream advances, for a RELAY message B and
the packet to acknowledge afterwards, and whether its data is poisoned. -/
structure QpPost where
  cmd : Option Nat
  qop : Nat
  laddr : Nat := 0
  rva : Nat := 0
  len : Nat
  rkey : Nat := 0
  note : Bool := false
  efmt : Nat := 0
  layer : Nat := 0xFFFF
  opid : Nat := 0xFFFF
  inl : List Byte := []
  msn : Nat := 0
  ctr : Option Nat := none
  bword : Nat := 0
  orig : Option Pkt := none
  psn : Bool := false
  deriving DecidableEq, Repr

/-- An operation record (R436): how it ended, DETAIL, response bytes written, RNR retries made, the cycle of an RNR answer that waits for its
retry, the local accesses not yet answered, and the first PSN of its last sending. -/
structure QpOp where
  post : QpPost
  fin : Option Status := none
  detail : Nat := 0
  got : Nat := 0
  tries : Nat := 0
  rnrAt : Option Nat := none
  out : Nat := 0
  psn : Bool := false
  first : Nat := 0
  deriving DecidableEq, Repr

/-- A packet of the send sequence that is not yet acknowledged: PSN, opcode, MSN, index within its message, LAST, the extended header, the
payload's pieces by offset and its length, poison, labels, whether it is a response; whether it waits for release, and as a
retransmission; its path, the order of its last transmission and the cycle in which that ended, and how many later packets of its path were
acknowledged (R451). -/
structure TxPkt where
  psn : Nat
  opc : TOpc
  msn : Nat
  k : Nat
  last : Bool
  xh : Nat
  buf : List (Nat × List Byte) := []
  need : Nat
  poison : Bool := false
  layer : Nat
  opid : Nat
  wait : Bool := true
  rtx : Bool := false
  path : Option Nat := none
  order : Nat := 0
  sentAt : Option Nat := none
  later : Nat := 0
  deriving DecidableEq, Repr

/-- A message being received (R446-R448, R457): MSN, the PSN of its first packet, opcode, the extended header's fields, bytes received, local
accesses not yet answered, the receive slot, the syndrome (0 none), whether it is done and its SEND delivered, and the bytes kept of it: an
operand, RELAY payloads by PSN, or read data by offset with its poison. -/
structure RxMsg where
  msn : Nat
  base : Nat
  opc : TOpc
  va : Nat
  rkey : Nat
  tlen : Nat
  d : Nat
  note : Bool := false
  layer : Nat := 0
  opid : Nat := 0
  got : Nat := 0
  out : Nat := 0
  slot : Option Nat := none
  synd : Nat := 0
  done : Bool := false
  begun : Bool := false
  told : Bool := false
  kept : List (Nat × List Byte × Bool) := []
  deriving DecidableEq, Repr

/-- A suspect path (R456): when its period ends, and whether its PROBE has been sent. -/
structure Suspect where
  path : Nat
  until_ : Nat
  probed : Bool := false
  deriving DecidableEq, Repr

/-- A queue pair beyond its registers. `par` is its parameter block (R427). The sender: next PSN and MSN, transmission counter, send queue,
operation records, unacknowledged packets in PSN order, transmissions made, the last path used, the highest CUMPSN acknowledged, suspect
paths and timeouts in a row by path, RTTVAR in ns and SRTT in ns, the pacer's TNEXT in ps, the PSN that could not be delivered (R438), CESUM, the cycles of LASTADJ and of BASE's
setting. The receiver: CUMPSN, PSNs received above it, messages, MSNC, results of the last atomics by MSN, receive slots taken and those of them
whose SEND failed, messages that have failed and are not committed, syndromes to report (SMSN, code), CE marks since the last ACK, the cycle of the first arrival no ACK covers, and TS, path and delay of the newest.
Log 30, DEDUCED. -/
structure QpRun where
  tenant : Nat := 0
  par : List Nat := []
  psn : Nat := 0
  msn : Nat := 0
  txctr : Nat := 0
  sendQ : List QpPost := []
  ops : List QpOp := []
  tx : List TxPkt := []
  order : Nat := 0
  lastPath : Option Nat := none
  acked : Nat := 0
  suspects : List Suspect := []
  pathTo : List (Nat × Nat) := []
  srtt : Option Nat := none
  rttvar : Nat := 0
  tnext : Nat := 0
  lostPsn : Nat := 0
  cesum : Nat := 0
  lastAdj : Option Nat := none
  baseAt : Option Nat := none
  cum : Nat := 0
  map : List Nat := []
  msgs : List RxMsg := []
  msnc : Nat := 0xFFFFFF
  atoms : List (Nat × Nat) := []
  sends : Nat := 0
  gone : Nat := 0
  unmet : List Nat := []
  synds : List (Nat × Nat) := []
  ce : Nat := 0
  ackAt : Option Nat := none
  ets : Nat := 0
  etsPath : Nat := 0
  delay : Nat := 0
  deriving DecidableEq, Repr

/-- A memory region (R430, R431): index, generation, tenant, the parameter words, and whether its key is valid; placements admitted under it
that are not yet acknowledged; the mailbox waits for them when it is deregistered (R433). -/
structure MrRun where
  e : Nat
  idx : Nat
  gen : Nat
  tenant : Nat
  w : List Nat
  valid : Bool := true
  out : Nat := 0
  deriving DecidableEq, Repr

/-- CLOSE frames still to be sent (R464): engine, pair, its block, tenant and counter, the reason, how many are left, and the cycle of the last;
the record stays until the last has crossed to the MAC. -/
structure CloseRun where
  e : Nat
  q : Nat
  par : List Nat
  txctr : Nat
  reason : Nat
  left : Nat
  last : Nat
  deriving DecidableEq, Repr

/-- A frame in a class queue or a staging buffer (R480, R484): pair, frame, its length with the FCS, whether it is a data frame, and
the syndrome an ACK carries. -/
structure QFrame where
  q : Nat
  f : Frame
  len : Nat
  isData : Bool
  smsn : Nat := 0
  synd : Nat := 0
  ce : Nat := 0
  deriving DecidableEq, Repr

/-- An Ethernet port beyond its registers: whether its link is up, data and control queues by class, the staging buffer, the frame crossing to
the MAC, the cycle in which it ends and how many of its bytes were staged when it began, frames that have crossed since the last underrun, the classes
that priority flow control pauses and until which cycle (R491), credits by class (in 0.1 Gb/s times a cycle) and the cycle of their
last update, the class being sent, LPI, the cycle before which no frame starts, the cycle of the last activity, and control frames passed to
firmware in the present millisecond. -/
structure PortRun where
  up : Bool := false
  data : List (Nat × QFrame) := []
  ctl : List (Nat × QFrame) := []
  stage : List (Nat × QFrame) := []
  cur : Option (Nat × QFrame) := none
  busy : Nat := 0
  staged : Nat := 0
  clean : Nat := 0
  paused : List (Nat × Nat) := []
  credit : List (Nat × Int) := []
  creditAt : Nat := 0
  lpi : Bool := false
  wakeFrom : Nat := 0
  wakeAt : Nat := 0
  active : Nat := 0
  ctlMs : Nat := 0
  ctlN : Nat := 0
  deriving DecidableEq, Repr

/-- What the frame interface puts around a transport packet (R439, R483): MAC addresses, the tag (PCP, VID), EtherType, DSCP, ECN, the TTL or hop
limit, the IPv6 flow label, IPv4's DF bit and identification, and the UDP checksum. -/
structure EthHdr where
  dmac : Nat
  smac : Nat
  tag : Option (Nat × Nat)
  etype : Nat
  dscp : Nat
  ecn : Nat
  hop : Nat
  flow : Nat
  df : Bool
  ident : Nat
  sum : Nat
  deriving DecidableEq, Repr

/-- What the ports hand to their MACs, in order: engine, port, header and frame; a frame ended with a bad FCS (R485); firmware's answers and the
EEE TLV (R489, R490). -/
inductive EthOut where
  | frame (e k : Nat) (h : EthHdr) (f : Frame)
  | badFcs (e k : Nat)
  | control (e k : Nat) (c : CtlFrame)
  | eeeTlv (e k : Nat)
  deriving DecidableEq, Repr

/-- A descriptor bundle at an engine's transmit arbiter (R437, R478): engine, port, class, frame, DYN requester, grains in all and granted, and the
command of the operation. -/
structure TxBundle where
  e : Nat
  k : Nat
  c : Nat
  x : QFrame
  who : Nat
  grains : Nat
  took : Nat := 0
  cmd : Option Nat := none
  deriving DecidableEq, Repr

/-- The engines: queue pairs (key 16,384 · engine + pair), regions, closing pairs, ports (key 4 · engine + port), frames at the transmit arbiters, frames sent, and the
duplicates discarded by each engine (R446). -/
structure RteState where
  qps : List (Nat × QpRun) := []
  mrs : List MrRun := []
  gens : List (Nat × Nat) := []
  closing : List CloseRun := []
  ports : List (Nat × PortRun) := []
  bundles : List TxBundle := []
  out : List EthOut := []
  dups : List (Nat × Nat) := []
  deriving DecidableEq, Repr

/-! ### Keys (chapter 15) -/

/-- A pair of keys (R552): the tenant that loaded it, the keys of its two phases, and the current phase. -/
structure KeyPair where
  tenant : Nat := 0
  k0 : Option Nat := none
  k1 : Option Nat := none
  cur : Nat := 0
  deriving DecidableEq, Repr

/-- The seal gate's keys (R551-R553): per tenant its CTRL key, LANE pair and last accepted KSEQ; the QP pairs (key 256 · engine + pair). -/
structure SecState where
  ctrl : List (Nat × Nat) := []
  lane : List (Nat × KeyPair) := []
  qpKeys : List (Nat × KeyPair) := []
  kseq : List (Nat × Nat) := []
  deriving DecidableEq, Repr

/-! ### Lane ports (chapter 14) -/

/-- A packet at egress (R503): how many of its flits have been taken, and its phase class (R175). -/
structure LanePkt where
  pkt : Pkt
  sent : Nat := 0
  cls : Nat := 7
  deriving DecidableEq, Repr

/-- A sequenced block in the replay buffer (R505, R555): a flit's bytes, or the TAG block of an encrypted run. -/
inductive LaneBlk where
  | flit (bytes : List Byte)
  | tag (n : Nat) (content : List Byte)
  deriving DecidableEq, Repr

/-- What a port has sent, in order. -/
inductive LaneOut where
  | align
  | ctl (b : CtlBlock)
  | flit (f : LinkFlit)
  | prbs (poly mask : Nat)
  deriving DecidableEq, Repr

/-- A packet being received on a virtual channel (R509): its header, payload so far, flits received, whether it has been discarded, and the flits that
wait in the buffer because the packet may not yet enter the mesh. -/
structure LaneAsm where
  vc : Nat
  pkt : Pkt
  data : List Byte := []
  n : Nat := 0
  bad : Bool := false
  kept : Nat := 0
  deriving DecidableEq, Repr

/-- An encrypted run being received (R556): flit count, TENANT, KP, counter, tag, the TAG bytes 2-11, and the flits so far. -/
structure LaneRunIn where
  n : Nat
  tenant : Nat
  kp : Nat
  ctr : Nat
  tag : List Byte
  aad : List Byte
  flits : List (List Byte) := []
  deriving DecidableEq, Repr

/-- A lane port beyond its registers. Transmitter: packets at egress, next SEQ, the replay buffer oldest first, blocks
of it still to be sent (the newest ones), flits sent by channel since training, what the peer reported freed and its
sizes, the first SEQ of a row of replays and their number, the cycle from which the retry timer runs, blocks since the last ALIGN and CTL,
ALIGN blocks due, the acknowledgement and credits last reported, the nonce counter, and the injections that wait. Receiver: ESEQ, whether
RETRY was sent and CRCERR counted for it, RETRY due, flits freed by channel, packets being received, a run. Training: cycle of entry to the
state, per lane the consecutive ALIGN blocks and what they showed, TS blocks sent and received, when a check failed, failures of recovery in a
row, whether EQ is left out, lanes retired by firmware, the peer's ESEQ. Power: blocks left to send before an idle or deep state, whether the peer idles or goes deep, the
cycle of the last block other than ALIGN, IDLE and CTL. Time: whether a measurement runs, samples, TX and receive time of the newest
sample. Line code: the running disparity of each lane in use, sent and received (true: positive), and the columns of codes sent. Further: whole
packets received whose flits still wait in the buffer, with their number, the cycle since which the conditions of R524 may have held, and whether a
recovery is still aligning. -/
structure LaneRun where
  egress : List LanePkt := []
  seq : Nat := 0
  replay : List (Nat × LaneBlk) := []
  again : Nat := 0
  sent : List (Nat × Nat) := []
  peerFreed : List (Nat × Nat) := []
  peerSize : List (Nat × Nat) := []
  first : Nat := 0
  tries : Nat := 0
  timer : Nat := 0
  nAlign : Nat := 0
  nCtl : Nat := 0
  aligns : Nat := 0
  toldAck : Nat := 0
  toldFreed : List (Nat × Nat) := []
  ctr : Nat := 0
  injCrc : Bool := false
  injCode : Bool := false
  injSp : Bool := false
  injBit : Bool := false
  eseq : Nat := 0
  told : Bool := false
  counted : Bool := false
  retryDue : Bool := false
  freed : List (Nat × Nat) := []
  asm : List LaneAsm := []
  run : Option LaneRunIn := none
  since : Nat := 0
  seen : List LaneSeen := []
  held : List Nat := []
  tsTx : Nat := 0
  tsRx : Nat := 0
  failAt : Option Nat := none
  fails : Nat := 0
  noEq : Bool := false
  retired : Nat := 0
  peerEseq : Option Nat := none
  toQuiet : Nat := 0
  toDeep : Option Nat := none
  peerQuiet : Bool := false
  peerDeep : Bool := false
  busy : Nat := 0
  measuring : Bool := false
  samples : List (Int × Int) := []
  ptx : Nat := 0
  prx : Nat := 0
  out : List LaneOut := []
  txRd : List Bool := []
  rxRd : List Bool := []
  wire : List (List Nat) := []
  owed : List (Pkt × Nat) := []
  calm : Nat := 0
  realign : Bool := false
  deriving DecidableEq, Repr

/-- The lane ports by number, the dimension by which a packet in transit entered this package (R115), and the phase class of a packet that a lane
port's relay forwarded (R264). -/
structure LaneState where
  runs : List (Nat × LaneRun) := []
  transit : List (Pkt × Nat) := []
  phases : List (Pkt × Nat) := []
  deriving DecidableEq, Repr


/-! ### The mailbox (chapter 11) -/

/-- A mailbox slot (R392-R394): the request and response areas as 64-bit words by index, SEQ, STATUS, DONESEQ, STATE, the request and its number
copied at GO, and whether its command has started. -/
structure MbxSlot where
  req : List (Nat × Nat) := []
  rsp : List (Nat × Nat) := []
  seq : Nat := 0
  status : Nat := 0
  doneSeq : Nat := 0
  state : Nat := 0
  taken : List (Nat × Nat) := []
  goSeq : Nat := 0
  begun : Bool := false
  deriving DecidableEq, Repr

/-- The mailbox: slots by 2 · function (F) and 2 · function + 1 (G), the functions whose commands wait or run in each server in the order of
their GO writes (the running one first), the heartbeat, watchdog bites, FMPST, the firmware's version, the number of the newest snapshot, and
the freeze number last used. -/
structure MbxState where
  slots : List (Nat × MbxSlot) := []
  fq : List Nat := []
  gq : List Nat := []
  hb : Nat := 0
  fdog : Nat := 0
  fmpst : Nat := 0
  version : Nat := 0
  snapNo : Nat := 0
  frzNo : Nat := 0
  deriving DecidableEq, Repr

/-! ### Partitions (chapter 15) -/

/-- A partition (R537, R538): tenant, tiles and twin pairs as bit masks, its RSVSH, and whether it is being destroyed (its zero fill runs, R561). -/
structure PartRun where
  tenant : Nat
  tiles : Nat
  twin : Nat
  rsvsh : Nat
  dying : Bool := false
  deriving DecidableEq, Repr

/-! ### Start-up and power (chapter 16) -/

/-- Start-up and power beyond their registers: what the flash and the tests will show (none before PORST_N is released); the cycle in which the
present stage began; lock losses before stage 9; a restart of start-up that is left of a lock loss; MEPs whose HBM controller is in reset, and
the requests that wait for it (R578); the sites' row of hot samples (R586); THERMTRIP_N asserted; the wake latch (R590); and the image that an FMP_RECOVER has named
for stage 3 (R408). -/
structure BootState where
  inp : Option BootIn := none
  since : Nat := 0
  losses : Nat := 0
  hbmDown : List Nat := []
  hbmWait : List Pkt := []
  hot : List (Nat × Nat) := []
  thermtrip : Bool := false
  latch : Bool := false
  image : Option Bool := none
  deriving DecidableEq, Repr

/-! ### Reliability (chapter 17) -/

/-- A reduction unit's shadow checker (R611-R613): the LFSR, the checked combine cycle of the present window, whether its check is still to
come, the mismatch being recomputed: lane, context, and the first results' difference; and the tenant of the context whose mismatch was captured
(R617). -/
structure ShadowRun where
  lfsr : Nat := 0xACE1
  at_ : Nat := 0
  open_ : Bool := false
  pend : Option (Nat × Nat × Nat) := none
  who : Nat := 0xFF
  deriving DecidableEq, Repr

/-- A unit-history record (R619): unit, lane (0xFF the whole unit), state, transient outcomes, intermittent failures, power-on count and fabric
time of the last event. -/
structure HistRec where
  unit : Nat
  lane : Nat
  st : Nat := 0
  trans : Nat := 0
  inter : Nat := 0
  pons : Nat := 0
  time : Nat := 0
  deriving DecidableEq, Repr

/-- A stored pattern bundle (R627, R628): FAMILY, SERIES, length, unit kinds, flags, RUNUS and number of records. Log 106, DESIGN CHOICE. -/
structure Bundle where
  family : Nat
  series : Nat
  len : Nat
  kinds : Nat
  flags : Nat
  runus : Nat
  records : Nat
  deriving DecidableEq, Repr

/-- Shadow checkers by tile; the unit history and the pattern store of the flash; power-on count; detectors whose next record an injection causes
(R632); lane faults of the SHADOW injection that last until a FAB reset (tile, lane); the samples an injected sensor fault still raises (site,
left); entries that a scrub set to their reset values, with the value and the cycle of firmware's rewrite (R602). -/
structure RelState where
  shadow : List (Nat × ShadowRun) := []
  hist : List HistRec := []
  bundles : List Bundle := []
  pons : Nat := 0
  injNext : List Nat := []
  stuck : List (Nat × Nat) := []
  hotInj : List (Nat × Nat) := []
  restore : List (Nat × Word × Nat) := []
  deriving DecidableEq, Repr


/-! ### The block -/

/-- The state of the fabric. -/
structure State where
  pending : List Instr := []
  clk : Clock := {}
  free : Nat := 0
  regs : List (Nat × Word) := []
  notes : RegNotes := {}
  mem : List Host.Cell := []
  memPoison : List Nat := []
  bus : BusState := {}
  log : ErrLog := {}
  dyn : DynState := {}
  sch : SchState := {}
  arb : ArbState := {}
  trig : TrigState := {}
  red : List (Nat × RedRun) := []
  coll : CollState := {}
  slu : SluState := {}
  chan : ChanState := {}
  host : HostState := {}
  rte : RteState := {}
  sec : SecState := {}
  lane : LaneState := {}
  rpt : List (Nat × RptRun) := []
  mbx : MbxState := {}
  parts : List PartRun := []
  boot : BootState := {}
  rel : RelState := {}
  obs : ObsState := {}
  deriving DecidableEq, Repr

/-- The block at power-on, before PORST_N is released (R592): every register at its Reset entry, no memory written, nothing in
flight, no clock running. Log 126, DEDUCED. -/
def State.reset : State := {}

end Sys2Proof.Machine
end

