-- ==== Sys2Proof/Machine/Ops.lean ====
section
/-!
DEFINITION. The named operations over the state: registers, memory with its poison marks, time, error records, counters and
trigger entries. Every meaning goes through them.
-/
namespace Sys2Proof.Machine

/-! ### Registers -/

/-- The value of a control-space slot. -/
def rd (s : State) (off : Nat) : Word := tGet resetWord off s.regs

/-- A slot set to a value. -/
def wrReg (s : State) (off : Nat) (w : Word) : State := { s with regs := tSet resetWord off w s.regs }

/-- A field of a register. -/
def fld (s : State) (off : Nat) (f : Fld) : Nat := getF (rd s off) f

/-- A field of a register set; the other bits keep their value. -/
def setFld (s : State) (off : Nat) (f : Fld) (v : Nat) : State := wrReg s off (setF (rd s off) f v)

/-- A wrapping count field increased. -/
def bump (s : State) (off : Nat) (f : Fld) (n : Nat) : State := setFld s off f (fld s off f + n)

/-- A saturating count field increased. -/
def bumpSat (s : State) (off : Nat) (f : Fld) (n : Nat) : State :=
  setFld s off f (min (2 ^ fldWidth f - 1) (fld s off f + n))

/-- A one-bit field as a truth value. -/
def flag (s : State) (off : Nat) (f : Fld) : Bool := fld s off f == 1

/-- A register word after a write, field by field (R15, R16): RW takes the written bits, W1C clears, W1S sets, RO and WO keep. -/
def accessWrite (old v : Word) : List FieldDef → Word
  | [] => 0
  | d :: r =>
    let o := getF old d.f
    let n := getF v d.f
    let x := match d.acc with
      | .ro => o
      | .rw => n
      | .desc => n
      | .w1c => (BitVec.ofNat 64 o &&& ~~~ BitVec.ofNat 64 n).toNat
      | .w1s => o ||| n
      | .wo => o
    setF (accessWrite old v r) d.f x

/-- The value a software read returns (R15, R16): defined fields only, zero for a write-only field. -/
def accessRead (w : Word) : List FieldDef → Word
  | [] => 0
  | d :: r => setF (accessRead w r) d.f (if d.acc = .wo then 0 else getF w d.f)

/-- What the fabric has done to a register in this cycle. -/
def noteOf (s : State) (off : Nat) : RegNote :=
  if s.notes.at_ = s.clk.now then (s.notes.notes.find? fun n => n.off == off).getD { off := off } else { off := off }

/-- The note of a register replaced; notes of earlier cycles go. -/
def setNote (s : State) (n : RegNote) : State :=
  let l := if s.notes.at_ = s.clk.now then s.notes.notes.filter fun x => x.off != n.off else []
  { s with notes := ⟨s.clk.now, l ++ [n]⟩ }

/-- W1C bits that the fabric sets (R17): a software write of this cycle does not clear them. -/
def raise (s : State) (off mask : Nat) : State :=
  let s := wrReg s off (rd s off ||| BitVec.ofNat 64 mask)
  setNote s { noteOf s off with up := (noteOf s off).up ||| mask }

/-- A W1S bit that the fabric clears (R17): it stays set when software wrote 1 to it again in this cycle. -/
def lower (s : State) (off : Nat) (f : Fld) : State :=
  if bit (noteOf s off).asked f.lo then s else setFld s off f 0

/-- A W1S bit that is 1 noted as set again by software in this cycle (R17). -/
def noteAgain (s : State) (off : Nat) (f : Fld) : State :=
  if flag s off f then setNote s { noteOf s off with asked := (noteOf s off).asked ||| 2 ^ f.lo } else s

/-- A W1S bit that a write sets (R15, R17). -/
def setAgain (s : State) (off : Nat) (f : Fld) : State := setFld (noteAgain s off f) off f 1

/-- Has software in this cycle set a W1S bit again that was 1 (R17)? -/
def askedAgain (s : State) (off : Nat) (f : Fld) : Bool := bit (noteOf s off).asked f.lo

/-- The bits of `n` in fields of an access type. -/
def onlyBits (a : Acc) (n : Word) : List FieldDef → Word
  | [] => 0
  | d :: r => if d.acc = a then setF (onlyBits a n r) d.f (getF n d.f) else onlyBits a n r

/-- The defined fields of the register at an offset. -/
def fieldsAt (off : Nat) : List FieldDef :=
  match regAt off with
  | none => []
  | some (_, d, _) => d.fields

/-- A plain register write under R15 and R16. A W1C bit that the fabric set in this cycle stays set, and the W1S bits set again are noted (R17). -/
def softWrite (s : State) (off v : Nat) : State :=
  let fs := fieldsAt off
  let old := rd s off
  let again := (onlyBits .w1s (old &&& BitVec.ofNat 64 v) fs).toNat
  let t := wrReg s off (accessWrite old (BitVec.ofNat 64 v) fs ||| onlyBits .w1c (old &&& BitVec.ofNat 64 (noteOf s off).up) fs)
  if again = 0 then t else setNote t { noteOf s off with asked := (noteOf s off).asked ||| again }

/-- A plain register read under R15 and R16. -/
def softRead (s : State) (off : Nat) : Word := accessRead (rd s off) (fieldsAt off)

/-! ### Engine records kept in sparse tables -/

/-- A table of records whose unlisted entries are `d`. -/
def eGet {α : Type} (d : α) (k : Nat) (t : List (Nat × α)) : α := tGet (fun _ => d) k t

/-- The record at a key replaced. -/
def eSet {α : Type} [DecidableEq α] (d : α) (k : Nat) (v : α) (t : List (Nat × α)) : List (Nat × α) :=
  tSet (fun _ => d) k v t

/-! ### Time (R12, R63, R569) -/

/-- Fabric time in ns in the present cycle: floor(4g ÷ 9), a 64-bit count. -/
def timeNs (s : State) : Nat := 4 * s.clk.now / 9 % 2 ^ 64

/-- The first global cycle at or after a fabric time: the smallest g with floor(4g ÷ 9) ≥ T. -/
def cycleAt (t : Nat) : Nat := ceilDiv (9 * t) 4

/-- Cycles in a number of microseconds: 2,250 each. -/
def usCycles (us : Nat) : Nat := 2250 * us

/-! ### Places and identities (chapter 1) -/

/-- This package's DCHIP (R45). -/
def myChip (s : State) : Nat := fld s Reg.fabPkgInfo FabPkgInfo.DCHIP

/-- Is tile t good (R47)? -/
def good (s : State) (t : Nat) : Bool := decide (t < 64) && bit (fld s Reg.fabGoodTiles FabGoodTiles.GOOD) t

/-- Is a TNI's table in use: the tile is good, and not the odd tile of a twin pair (R39, R43, R44)? Other units always are. -/
def tableOn (s : State) : Blk → Bool
  | .tni t => good s t && ! (bit (fld s Reg.fabTwinMap FabTwinMap.TWIN) (t / 2) && t % 2 == 1)
  | _ => true

/-- Is the pair of tile t twinned (R49)? -/
def twinned (s : State) (t : Nat) : Bool := bit (fld s Reg.fabTwinMap FabTwinMap.TWIN) (t / 2)

/-- Is tile t the odd tile of a twin pair (R43)? -/
def oddTwin (s : State) (t : Nat) : Bool := twinned s t && t % 2 == 1

/-- The tile at which the endpoint of tile t's pair sits (R43). -/
def evenTile (s : State) (t : Nat) : Nat := if twinned s t then t - t % 2 else t

/-- Tenant that owns a tile: OWNER of its router (R143). -/
def owner (s : State) (t : Nat) : Nat := fld s (Reg.rtrEpOwner t) RtrEpOwner.OWNER

/-- Does bit t of SEC_SEALED say that tenant t's partition is sealed (R545)? -/
def sealedT (s : State) (t : Nat) : Bool := decide (1 ≤ t) && decide (t ≤ 63) && bit (rd s Reg.secSealed).toNat t

/-- What kind of endpoint a router offers at a DEP value (R26). -/
inductive EpKind where
  | tile | lp (n : Nat) | mep (n : Nat) | hp | rte (n : Nat) | tfsp | fmp | ru | sluice | absent
  deriving DecidableEq, Repr

/-- The endpoint table of R26: tile ID 8y + x and DEP. -/
def epKind (tile dep : Nat) : EpKind :=
  let x := tile % 8
  let y := tile / 8
  if 64 ≤ tile then .absent
  else match dep with
    | 0 => .tile
    | 1 =>
      if y = 0 then .lp x
      else if y = 7 then .lp (8 + x)
      else if x = 0 then .mep (y - 1)
      else if x = 7 then .mep (y + 5)
      else .absent
    | 2 => if tile = 0 then .hp else if tile = 7 then .rte 0 else if tile = 56 then .tfsp else if tile = 63 then .rte 1 else .absent
    | 3 => if tile = 0 then .fmp else .absent
    | 4 => .ru
    | 5 => .sluice
    | _ => .absent

/-- The kind of an endpoint. -/
def Ep_kind (e : Ep) : EpKind := epKind e.tile e.dep

/-- The endpoint of a MEP (R35). -/
def mepEp (chip n : Nat) : Ep := if n < 6 then ⟨chip, 8 * (n + 1), 1⟩ else ⟨chip, 8 * (n - 5) + 7, 1⟩

/-- The endpoint of a lane port (R26). -/
def lpEp (chip n : Nat) : Ep := if n < 8 then ⟨chip, n, 1⟩ else ⟨chip, 56 + (n - 8), 1⟩

/-- The endpoint of an RTE (R26). -/
def rteEp (chip n : Nat) : Ep := if n = 0 then ⟨chip, 7, 2⟩ else ⟨chip, 63, 2⟩

/-- The HP's endpoint (R26). -/
def hpEp (chip : Nat) : Ep := ⟨chip, 0, 2⟩

/-- The FMP service port's endpoint (R26). -/
def fmpEp (chip : Nat) : Ep := ⟨chip, 0, 3⟩

/-- The register window of the unit that holds an endpoint's cistern, counters and configuration; a sluice uses its TNI's
(R117, R127). -/
def epBlk (e : Ep) : Blk :=
  match epKind e.tile e.dep with
  | .lp n => .lp n
  | .mep n => .mep n
  | .hp => .hp
  | .rte n => .rte n
  | .tfsp => .fab
  | .fmp => .fab
  | .ru => .rtr e.tile
  | _ => .tni e.tile

/-- The router a block window's unit sits at. -/
def blkTile : Blk → Nat
  | .mep n => (mepEp 0 n).tile
  | .lp n => (lpEp 0 n).tile
  | .rte n => (rteEp 0 n).tile
  | .rtr t => t
  | .tni t => t
  | _ => 0

/-- The key of a phase of a pair (R552). -/
def KeyPair.key (k : KeyPair) (ph : Nat) : Option Nat := if ph = 0 then k.k0 else k.k1

/-! ### Memory and poison (R34-R36, R605) -/

/-- What a byte of memory that nothing has written reads as (log 4, DESIGN CHOICE). -/
def memDefault (_ : Nat) : Byte := 0

/-- The canonical form of the memory: addresses strictly rising, no entry that reads as an unlisted byte does. -/
def Memory.wf (m : List Host.Cell) : Bool := tWf memDefault m

/-- One byte at a fabric address. -/
def readByte (s : State) (a : Nat) : Byte := tGet memDefault a s.mem

/-- One byte written. -/
def writeByte (s : State) (a : Nat) (b : Byte) : State := { s with mem := tSet memDefault a b s.mem }

/-- n bytes from a fabric address on. -/
def readMem (s : State) (a n : Nat) : List Byte := (List.range n).map fun i => readByte s (a + i)

/-- A byte string written from a fabric address on. -/
def writeMem (s : State) (a : Nat) : List Byte → State
  | [] => s
  | b :: r => writeMem (writeByte s a b) (a + 1) r

/-- Is any line of [a, a + n) marked (R605)? -/
def markedIn (s : State) (a n : Nat) : Bool :=
  s.memPoison.any fun l => decide (a < 128 * l + 128) && decide (128 * l < a + n)

/-- The lines a write of n bytes at a touches. -/
def linesOf (a n : Nat) : List Nat :=
  if n = 0 then [] else (List.range ((a + n - 1) / 128 - a / 128 + 1)).map fun i => a / 128 + i

/-- The marks after a write: a poisoned write marks each line it touches; a clean one clears the lines it replaces whole
(R605). -/
def markWrite (marks : List Nat) (a n : Nat) (psn : Bool) : List Nat :=
  if psn then (linesOf a n).foldl (fun m l => insNat l m) marks
  else marks.filter fun l => ! (decide (a ≤ 128 * l) && decide (128 * l + 128 ≤ a + n))

/-- Data written to memory with its mark. -/
def store (s : State) (a : Nat) (bs : List Byte) (psn : Bool) : State :=
  let s := writeMem s a bs
  { s with memPoison := markWrite s.memPoison a bs.length psn }

/-- Region and offset of a fabric address (R34). -/
def region (a : Nat) : Nat := bits a 55 52
def regOff (a : Nat) : Nat := bits a 51 0

/-- The fabric address of an offset in a region. -/
def fabAddr (rgn off : Nat) : Nat := rgn * 2 ^ 52 + off % 2 ^ 52

/-- The stack that serves a region-0x0 offset, and the stack byte address (R35). -/
def stackOf (off : Nat) : Nat := bits off 39 12 % 12
def stackAddr (off : Nat) : Nat := bits off 39 12 / 12 * 0x1000 + bits off 11 0

/-- The region-0x0 offset of a stack byte address: the inverse of R35. -/
def ofStack (stack sa : Nat) : Nat := (sa / 4096 * 12 + stack) * 4096 + sa % 4096

/-- A byte of tile t's SRAM window (R34). -/
def tileAddr (t off : Nat) : Nat := fabAddr 1 (t * 0x1000000 + off)

/-! ### Error records (R621-R626, R404) -/

/-- UNIT codes (R623). -/
inductive UKind where
  | router | tni | ru | sluice | spstage | mep | lp | rte | hp | fmp | sealgate | mi | flash | sensor | clkmon
  deriving DecidableEq, Repr

/-- The value of a UNIT kind. -/
def UKind.code : UKind → Nat
  | .router => 0 | .tni => 1 | .ru => 2 | .sluice => 3 | .spstage => 4 | .mep => 5 | .lp => 6 | .rte => 7 | .hp => 8
  | .fmp => 9 | .sealgate => 10 | .mi => 11 | .flash => 12 | .sensor => 13 | .clkmon => 14

/-- UNIT: kind in [15:11], instance in [10:0]. -/
def unitCode (k : UKind) (i : Nat) : Nat := k.code * 2 ^ 11 + i

/-- DET codes (R625). -/
inductive Det where
  | sched | hcrc | linkecc | bufecc | cfgecc | shadow | digest | format | poisonin | watchdog | timeout | lane | eth
  | spchk | tenant | seal | clock | sensor | boot | fmpwd | scan | host | arb
  deriving DecidableEq, Repr

/-- The value of a detector. -/
def Det.code : Det → Nat
  | .sched => 1 | .hcrc => 2 | .linkecc => 3 | .bufecc => 4 | .cfgecc => 5 | .shadow => 6 | .digest => 7 | .format => 8
  | .poisonin => 9 | .watchdog => 10 | .timeout => 11 | .lane => 12 | .eth => 13 | .spchk => 14 | .tenant => 15
  | .seal => 16 | .clock => 17 | .sensor => 18 | .boot => 19 | .fmpwd => 20 | .scan => 21 | .host => 22 | .arb => 23

/-- The unit that holds a block window. -/
def blkUnit : Blk → Nat
  | .fab => unitCode .fmp 0
  | .sec => unitCode .sealgate 0
  | .hp => unitCode .hp 0
  | .tel => unitCode .mi 0
  | .mep n => unitCode .mep n
  | .lp n => unitCode .lp n
  | .rte n => unitCode .rte n
  | .rtr t => unitCode .router t
  | .tni t => unitCode .tni t

/-- The sensor site nearest a unit (R626). -/
def siteOf (unit : Nat) : Nat :=
  let k := unit / 2 ^ 11
  let i := unit % 2 ^ 11
  if k ≤ 4 then i
  else if k = 5 then (mepEp 0 i).tile
  else if k = 6 then (if i < 8 then 64 + i else 72 + (i - 8))
  else if k = 7 then (rteEp 0 i).tile
  else if k = 13 then i
  else 0

/-- A record's 512 bits (R621). -/
def ErrRec.toNat (e : ErrRec) : Nat :=
  e.synd * 2 ^ 384 + e.addr * 2 ^ 328 + e.peer.chip * 2 ^ 320 + e.peer.tile % 8 * 2 ^ 317 + e.peer.tile / 8 * 2 ^ 314 +
  e.peer.dep * 2 ^ 310 + e.opc * 2 ^ 304 + e.tag * 2 ^ 292 + e.prio * 2 ^ 290 + e.volt * 2 ^ 272 + e.temp * 2 ^ 256 +
  e.opid * 2 ^ 240 + e.layer * 2 ^ 224 + e.time * 2 ^ 160 + e.unit * 2 ^ 144 + e.det * 2 ^ 136 + e.kind * 2 ^ 128 +
  e.status.code * 2 ^ 120 + e.tenant * 2 ^ 112 + e.dchip * 2 ^ 104 + e.cls * 2 ^ 100 + e.supp * 2 ^ 64 +
  b2n e.inj * 2 ^ 32 + e.seq

/-- A record of a sealed tenant masked (R550, R621): ADDR, LAYER and OPID zero, and the data-bearing part of SYND. -/
def maskRec (s : State) (e : ErrRec) : ErrRec :=
  if sealedT s e.tenant then
    { e with addr := 0, layer := 0, opid := 0,
             synd := if e.det = Det.shadow.code then e.synd / 2 ^ 64 * 2 ^ 64 else if e.det = Det.digest.code then 0 else e.synd }
  else e

/-- The key of a unit's detector in the throttle table. -/
def throttleKey (e : ErrRec) : Nat := e.unit * 256 + e.det

/-- The key of the array or link whose corrected error a record tells (R601): a unit's detector and its syndrome. -/
def fixedKey (e : ErrRec) : Nat := throttleKey e + 2 ^ 24 * (1 + e.synd)

/-- Has a record been written under a throttle key within the last `us` microseconds? -/
def within (s : State) (k us : Nat) : Bool :=
  match (eGet {} k s.log.throttle).last with
  | some t => decide (s.clk.now < t + usCycles us)
  | none => false

/-- Is a record held back: its detector at its unit wrote one within 1 µs (R622), or its array or link a corrected one within 1 ms (R601)? -/
def heldBack (s : State) (e : ErrRec) : Bool := within s (throttleKey e) 1 || (e.cls == 0 && within s (fixedKey e) 1000)

/-! ### Injections (R631-R633) and the unit history (R619) -/

/-- The injection register of a unit: `FAB_INJ` for the fabric-wide detectors, `SEC_INJ` for the seal gate (R631). -/
def injReg : Blk → Nat
  | .fab => Reg.fabInj
  | .sec => Reg.secInj
  | b => Reg.inj b

/-- Is an injection armed at a unit for a detector, with a selector that `ok` accepts? -/
def injArmed (s : State) (b : Blk) (d : Det) (ok : Nat → Bool) : Bool :=
  flag s (injReg b) Inj.ARM && fld s (injReg b) Inj.DET == d.code && ok (fld s (injReg b) Inj.SEL)

/-- An armed injection acts: ARM clears, DONE rises, and the detector's next record carries INJ (R631, R632). -/
def injFire (s : State) (b : Blk) : State :=
  let d := fld s (injReg b) Inj.DET
  let s := bump (lower s (injReg b) Inj.ARM) (injReg b) Inj.DONE 1
  { s with rel := { s.rel with injNext := s.rel.injNext ++ [d] } }

/-- The record of a unit or lane in the unit history changed by `f`, its time and power-on count renewed (R619). -/
def histEvent (s : State) (unit lane : Nat) (f : HistRec → HistRec) : State :=
  let old := (s.rel.hist.find? fun h => h.unit == unit && h.lane == lane).getD { unit := unit, lane := lane }
  let new := { f old with pons := s.rel.pons, time := timeNs s / 1000 }
  let rest := s.rel.hist.filter fun h => ! (h.unit == unit && h.lane == lane)
  { s with rel := { s.rel with hist := rest ++ [new] } }

/-- A record with class PERMANENT or FATAL stored in the unit history (R622), unless an injection caused it (R633): under the lane its SYND names
for the shadow lane (16 is the spare), else under the whole unit. -/
def histOf (s : State) (e : ErrRec) : State :=
  if e.inj || (e.cls != 3 && e.cls != 5) then s
  else histEvent s e.unit (if e.det = Det.shadow.code then (if e.kind = 3 then 16 else e.synd / 2 ^ 124 % 16) else 0xFF) id

/-- Records written in the present cycle: the log shows them in the next (R684). -/
def freshRecs (s : State) : Nat := if s.log.at_ = s.clk.now then s.log.fresh else 0

/-- An error record, written to the log under the limits of R601 and R622: within the interval it is only counted in SUPP. The log keeps the
newest 4,096 (R404). Answers the record written, or none when it was suppressed. -/
def logErr (s : State) (e : ErrRec) : State × Option ErrRec :=
  let k := throttleKey e
  let th := eGet {} k s.log.throttle
  if heldBack s e then
    ({ s with log := { s.log with throttle := eSet {} k { th with supp := th.supp + 1 } s.log.throttle } }, none)
  else
    let site := Reg.fabSensor (siteOf e.unit)
    let valid := flag s site FabSensor.VALID
    let e := { e with time := timeNs s, dchip := myChip s, supp := th.supp, seq := s.log.seq % 2 ^ 32,
                      volt := if valid then fld s site FabSensor.VOLT else 0,
                      temp := if valid then fld s site FabSensor.TEMP else 0 }
    let e := maskRec s { e with inj := e.inj || s.rel.injNext.contains e.det }
    let s := histOf { s with rel := { s.rel with injNext := s.rel.injNext.erase e.det } } e
    let l := eSet {} k { last := some s.clk.now, supp := 0 } s.log.throttle
    ({ s with log := { ring := (s.log.ring ++ [e]).drop (s.log.ring.length + 1 - 4096), seq := s.log.seq + 1,
                       at_ := s.clk.now, fresh := freshRecs s + 1,
                       throttle := if e.cls = 0 then eSet {} (fixedKey e) { last := some s.clk.now } l else l } }, some e)

/-- An error record whose fate nobody asks for. -/
def log (s : State) (e : ErrRec) : State := (logErr s e).1

/-- A record of unit `u` with a detector and class. -/
def errOf (u : Nat) (d : Det) (cls : Nat) : ErrRec := { unit := u, det := d.code, cls := cls }

/-- A record about a packet: its address, other end, opcode, tag, priority and labels. -/
def errPkt (u : Nat) (d : Det) (cls : Nat) (p : Pkt) (st : Status) : ErrRec :=
  { unit := u, det := d.code, cls := cls, addr := p.addr, peer := p.src, opc := p.opc.code, tag := p.tag, prio := p.prio,
    opid := p.opid, layer := p.layer, tenant := p.tenant, status := st }

/-- A wrapping count of another unit increased by an event of this cycle, which a read shows from the next cycle on (R684). -/
def bumpNext (s : State) (off : Nat) (f : Fld) (n : Nat) : State :=
  let k := noteOf s off
  setNote (bump s off f n) { k with added := (k.added + n) % 2 ^ 32 }

/-! ### Counters (R256, R257, R684) -/

/-- The lowest of a list of codes. -/
def lowest : List Nat → Nat
  | [] => 0
  | f :: r => r.foldl min f

/-- Additions and failures that reach one counter: VALUE wraps. The first failure is recorded, the lowest code when several come in one cycle, in
whatever order (R257). -/
def ctrApply (s : State) (off n : Nat) (fails : List Nat) : State :=
  let k := noteOf s off
  let s := setNote (setFld s off Ctr.VALUE (fld s off Ctr.VALUE + n)) { k with added := (k.added + n) % 2 ^ 32, fails := k.fails ++ fails }
  if fails.isEmpty || (flag s off Ctr.FAIL && k.fails.isEmpty) then s
  else setFld (raise s off (2 ^ Ctr.FAIL.lo)) off Ctr.STATUS (lowest (k.fails ++ fails))

/-- A write of a counter (R256, R672): VALUE takes the written value with this cycle's additions; clearing FAIL clears STATUS. -/
def ctrWrite (s : State) (off v : Nat) : State :=
  let t := softWrite s off v
  let t := setFld t off Ctr.VALUE (bits v 31 0 + (noteOf s off).added)
  if flag t off Ctr.FAIL then t else setFld t off Ctr.STATUS 0

/-- The failures among a list of additions. -/
def failsOf (l : List CtrAdd) : List Nat := l.filterMap fun a => a.fail

/-- Every addition on its way applied, counter by counter (R257: all additions of a cycle together). -/
def applyAdds : Nat → List CtrAdd → State → State
  | 0, _, s => s
  | _, [], s => s
  | k + 1, a :: r, s =>
    let mine := r.filter fun x => x.off == a.off
    let others := r.filter fun x => x.off != a.off
    applyAdds k others (ctrApply s a.off (((a :: mine).map CtrAdd.n).foldl (· + ·) 0) (failsOf (a :: mine)))

/-- An addition that an event of this cycle causes at another unit's counter: it is applied in the next cycle (R684). -/
def addCtr (s : State) (off n : Nat) (fail : Option Nat := none) : State :=
  { s with trig := { s.trig with adds := s.trig.adds ++ [⟨off, n, fail⟩] } }

/-- A completion's effect on a counter: 1 is added, and a status that is not a success is recorded as a failure (R262). -/
def addDone (s : State) (off : Nat) (st : Status) : State :=
  addCtr s off 1 (if st.good then none else some st.code)

/-- Has a counter reached a threshold (R258)? -/
def reached (s : State) (off h : Nat) : Bool :=
  decide ((fld s off Ctr.VALUE + 2 ^ 32 - h % 2 ^ 32) % 2 ^ 32 < 2 ^ 31)

/-- The counter an armed entry watches, and the one its completions advance (R259). -/
def trigCtr (s : State) (b : Blk) (e : Nat) : Nat := Reg.ctr b (fld s (Reg.triga b e) Triga.CTR)
def trigDctr (s : State) (b : Blk) (e : Nat) : Nat := Reg.ctr b (fld s (Reg.trigb b e) Trigb.DCTR)

/-- Entry e no longer armed. -/
def disarm (s : State) (b : Blk) (e : Nat) : State :=
  let s := setFld s (Reg.trigb b e) Trigb.V 0
  { s with trig := { s.trig with armed := s.trig.armed.filter fun x => x != (b, e) } }

/-- One armed entry compared with its counter (R260, R262): a counter that has failed clears V and passes its STATUS on to DCTR; a
counter that has reached the threshold puts the entry into the firing queue. -/
def compareEntry (s : State) (x : Blk × Nat) : State :=
  let c := trigCtr s x.1 x.2
  if flag s c Ctr.FAIL then
    let st := fld s c Ctr.STATUS
    let s := { disarm s x.1 x.2 with trig := { (disarm s x.1 x.2).trig with queue := s.trig.queue.filter fun y => y != x } }
    if flag s (Reg.trigb x.1 x.2) Trigb.DEN then addCtr s (trigDctr s x.1 x.2) 0 (some st) else s
  else if reached s c (fld s (Reg.triga x.1 x.2) Triga.THRESH) && ! s.trig.queue.contains x then
    { s with trig := { s.trig with queue := s.trig.queue ++ [x] } }
  else s

/-- Every armed entry compared, in ascending order within each unit (R260). -/
def compareAll (s : State) : State := s.trig.armed.foldl compareEntry s

/-- The entries whose rewrite by firmware is due at their own values again (R602). -/
def restoreDue (s : State) : State :=
  let due := s.rel.restore.filter fun x => decide (x.2.2 ≤ s.clk.now)
  if due.isEmpty then s
  else due.foldl (fun s x => wrReg s x.1 x.2.1) { s with rel := { s.rel with restore := s.rel.restore.filter fun x => ! decide (x.2.2 ≤ s.clk.now) } }

/-- The additions of the previous cycle's events applied, and the armed entries compared after them (R260, R684). -/
def applyCycle (s : State) : State :=
  let s := restoreDue s
  let l := s.trig.adds
  compareAll (applyAdds l.length l { s with trig := { s.trig with adds := [] } })

/-- One fabric cycle of time (R63, R569); the fabric works in it unless its clock is gated or it is held in reset (log 2, DESIGN CHOICE). -/
def tick (s : State) : State :=
  if ! s.clk.run then s
  else
    let s := { s with clk := { s.clk with now := s.clk.now + 1 } }
    if s.clk.gated || s.clk.fabHeld then s else applyCycle s

/-- The clock carried to a cycle that has not yet come (log 1, DEDUCED); the additions on their way take effect. -/
def advanceTo (s : State) (g : Nat) : State :=
  if s.clk.now < g then applyCycle { s with clk := { s.clk with now := g } } else s

/-- The next cycle begun when an event of this one has an effect on its way to a counter (R684; other effects stand in the event's own cycle, log 154,
DESIGN CHOICE). -/
def settle (s : State) : State := if s.trig.adds.isEmpty then s else tick s

end Sys2Proof.Machine
end

