-- ==== Sys2Proof/Machine/Report.lean ====
section
/-!
DEFINITION. MSI-X signalling (R381, R382) and the asynchronous reports to host functions (R423, R560).
-/
namespace Sys2Proof.Machine

/-- Is a function's vector masked? A vector is masked at reset (log 12, PRESUMED). -/
def vecMasked (s : State) (fn vec : Nat) : Bool := bit (eGet (2 ^ 64 - 1) fn s.host.vecCtl) vec

/-- A vector triggered (R381, R382): a masked vector only sets its pending bit; otherwise the message follows what the HP has
already passed to the host. A trigger that finds the message pending merges into it: a message is pending in the cycle that triggers it, and the
merged one follows what was passed on before the last trigger (log 180). -/
def signal (s : State) (fn vec : Nat) : State :=
  if vecMasked s fn vec then
    let p := eGet 0 fn s.host.pba
    { s with host := { s.host with pba := eSet 0 fn (putBits p vec vec 1) s.host.pba } }
  else { s with host := { s.host with out := s.host.out.filter (· != .msix fn vec s.clk.now) ++ [.msix fn vec s.clk.now] } }

/-- Reports written to a function's queue in the present cycle (R684). -/
def freshRpts (s : State) (fn : Nat) : Nat :=
  let q := eGet {} fn s.rpt
  if q.at_ = s.clk.now then q.fresh else 0

/-- A report put into a function's queue, or counted in LOST when 16 are held (R423). -/
def report (s : State) (fn : Nat) (e : ErrRec) : State :=
  let q := eGet {} fn s.rpt
  if (q.tail + 256 - q.head) % 256 = 16 then
    { s with rpt := eSet {} fn { q with lost := (q.lost + 1) % 65536 } s.rpt }
  else
    let q := { q with ents := eSet {} (q.tail % 16) e q.ents, tail := (q.tail + 1) % 256, at_ := s.clk.now, fresh := freshRpts s fn + 1 }
    signal { s with rpt := eSet {} fn q s.rpt } fn 0

/-- A record logged, and the record that a report carries: a report is made also where R622 holds the record itself back. -/
def logKept (s : State) (e : ErrRec) : State × ErrRec :=
  let x := logErr s e
  (x.1, x.2.getD { e with time := timeNs s, dchip := myChip s })

/-- A record logged and reported to the function of the tenant it names (R423). -/
def logReport (s : State) (e : ErrRec) : State :=
  let x := logKept s e
  report x.1 (if 1 ≤ e.tenant ∧ e.tenant ≤ 63 then e.tenant else 0) x.2

/-- A tenant violation recorded as `e` says (R142, R560): every one counts in FAB_TVIOL of the offender; the records, at most one per
microsecond, go to the offender's function and to function 0. -/
def offence (s : State) (e : ErrRec) : State :=
  let t := e.tenant
  let s := if t < 64 then bumpNext s (Reg.fabTviol t) FabTviol.COUNT 1 else s
  match logErr s { e with status := .tenantViolation } with
  | (s, none) => s
  | (s, some r) =>
    let s := if 1 ≤ t ∧ t ≤ 63 then report s t r else s
    report s 0 r

/-- A tenant violation of a packet (R142). -/
def violation (s : State) (e : ErrRec) : State := offence s { e with det := Det.tenant.code }

end Sys2Proof.Machine
end

