-- ==== Sys2Proof/Machine/Operands.lean ====
section
/-!
DEFINITION. What an address, an endpoint and a target name: the decoding of fabric addresses (R34-R36), the torus (R38, R113), the
source checks (R27, R37, R543) and the descriptors' fields (R368, R375).
-/
namespace Sys2Proof.Machine

/-! ### The torus (R38) -/

/-- Torus position of a DCHIP: (px, py, pz). -/
def posOf (chip : Nat) : Nat × Nat × Nat := (chip % 8, chip / 8 % 8, chip / 64 % 4)

/-- Configured sizes in x, y and z (R45). -/
def torusSize (s : State) : Nat × Nat × Nat :=
  (fld s Reg.fabPkgInfo FabPkgInfo.TXM1 + 1, fld s Reg.fabPkgInfo FabPkgInfo.TYM1 + 1, fld s Reg.fabPkgInfo FabPkgInfo.TZM1 + 1)

/-- Does a DCHIP lie inside the configured torus (R38)? -/
def inTorus (s : State) (chip : Nat) : Bool :=
  let p := posOf chip
  let z := torusSize s
  decide (chip < 256) && decide (p.1 < z.1) && decide (p.2.1 < z.2.1) && decide (p.2.2 < z.2.2)

/-- A direction of the torus: the dimension (0 x, 1 y, 2 z) and whether it is the negative one. -/
structure TorusDir where
  dim : Nat
  neg : Bool
  deriving DecidableEq, Repr

/-- The step in one dimension of size n from p to q (R113): positive when the way forward is no longer. -/
def dirIn (dim p q n : Nat) : TorusDir :=
  let f := (q + n - p % n) % n
  { dim := dim, neg := decide (n - f < f) }

/-- The direction a packet for another package takes (R113): the first dimension in which the positions differ. -/
def torusDir (s : State) (chip : Nat) : Option TorusDir :=
  let p := posOf (myChip s)
  let q := posOf chip
  let z := torusSize s
  if p.1 ≠ q.1 then some (dirIn 0 p.1 q.1 z.1)
  else if p.2.1 ≠ q.2.1 then some (dirIn 1 p.2.1 q.2.1 z.2.1)
  else if p.2.2 ≠ q.2.2 then some (dirIn 2 p.2.2 q.2.2 z.2.2)
  else none

/-- The value of a lane port's DIR that serves a direction (R532): 1 +x, 2 −x, 3 +y, 4 −y, 5 +z, 6 −z. -/
def TorusDir.code (d : TorusDir) : Nat := 1 + 2 * d.dim + b2n d.neg

/-- The lane ports that serve a direction, ascending. -/
def portsFor (s : State) (d : TorusDir) : List Nat :=
  (List.range 16).filter fun n => fld s (Reg.lpCfg n) LpCfg.DIR == d.code

/-- CRC-16 of (SCHIP, SX, SY, SEP, DCHIP), each at its header width, SCHIP first (R114; the order of the bits is log 13, DESIGN CHOICE). -/
def egressHash (src : Ep) (dchip : Nat) : Nat :=
  crc16 26 (src.chip * 2 ^ 18 + src.tile % 8 * 2 ^ 15 + src.tile / 8 * 2 ^ 12 + src.dep * 2 ^ 8 + dchip)

/-- The egress lane port for a source endpoint and destination package (R113, R114). -/
def egressPort (s : State) (src : Ep) (dchip : Nat) : Option Nat :=
  match torusDir s dchip with
  | none => none
  | some d =>
    let ps := portsFor s d
    if ps.length = 0 then none else ps[egressHash src dchip % ps.length]?

/-! ### Addresses -/

/-- The endpoint a memory address is served by (R685, R35): the MEP of its block, the tile of its window, the HP of the source's own
package, or the FMP's control space. -/
def homeEp (s : State) (chip addr : Nat) : Ep :=
  match region addr with
  | 0 => mepEp chip (stackOf (regOff addr))
  | 1 => ⟨chip, regOff addr / 0x1000000 % 64, 0⟩
  | 3 => hpEp (myChip s)
  | _ => fmpEp chip

/-- Is an address populated (R34)? -/
def populated (addr : Nat) : Bool :=
  match region addr with
  | 0 => decide (regOff addr < 0x9000000000)
  | 1 => decide (regOff addr < 0x40000000) && decide (regOff addr % 0x1000000 < 0x800000)
  | 2 => decide (regOff addr < 0x4000000)
  | 3 => true
  | _ => false

/-- The first case of R37 or R38 that an address fails; which of the two comes first is left open, and a DCHIP outside the torus is judged first here
(log 142, DESIGN CHOICE). -/
def addrCheck (s : State) (fromFmp : Bool) (chip addr : Nat) : Option Status :=
  if ¬ inTorus s chip then some .peerUnreachable
  else if ¬ populated addr then some .regionFault
  else if region addr = 2 ∧ ¬ fromFmp then some .regionFault
  else if (region addr = 2 ∨ region addr = 3) ∧ chip ≠ myChip s then some .regionFault
  else if region addr = 1 ∧ chip = myChip s ∧ ¬ good s (regOff addr / 0x1000000) then some .regionFault
  else none

/-- A range checked at both ends and wherever its decoding can change: at its first and last byte, and at every 8 MiB step between
(windows are 16 MiB, half of them populated). A range with LEN 0 is treated as one byte long (R376). -/
def rangeCheck (s : State) (fromFmp : Bool) (chip addr len : Nat) : Option Status :=
  let n := max len 1
  if region addr = 3 ∧ 2 ^ 52 < regOff addr + n then some .regionFault
  else if region addr ≠ region (addr + n - 1) then some .regionFault
  else
    let steps := (List.range (n / 0x800000 + 1)).map fun i => addr + i * 0x800000
    (steps ++ [addr + n - 1]).findSome? fun a => addrCheck s fromFmp chip a

/-- Does an endpoint exist (R27)? -/
def epExists (e : Ep) : Bool := e.tile < 64 && epKind e.tile e.dep != .absent

/-- The first case of R27, R37, R38 or R44 that a target endpoint fails. -/
def targetCheck (s : State) (e : Ep) : Option Status :=
  if ¬ inTorus s e.chip then some .peerUnreachable
  else if ¬ epExists e then some .regionFault
  else if e.chip = myChip s ∧ (e.dep = 0 ∨ e.dep = 5) ∧ ¬ good s e.tile then some .regionFault
  else none

/-! ### Tenant ranges and partitions (R540, R543, R544) -/

/-- The valid range entry of a MEP that holds a whole stack range, if any (R540): its index. -/
def rangeEntry (s : State) (mep sa n : Nat) : Option Nat :=
  (List.range 256).find? fun i =>
    let w := Reg.mepTrange mep i
    flag s w MepTrange.V && decide (fld s w MepTrange.BASE * 4096 ≤ sa) &&
      decide (sa + n ≤ fld s w MepTrange.LIMIT * 4096)

/-- Does any valid entry overlap a stack range? -/
def rangeTouches (s : State) (mep sa n : Nat) : Option Nat :=
  (List.range 256).find? fun i =>
    let w := Reg.mepTrange mep i
    flag s w MepTrange.V && decide (fld s w MepTrange.BASE * 4096 < sa + n) &&
      decide (sa < fld s w MepTrange.LIMIT * 4096)

/-- May a tenant reach a stack range at a MEP (R543, R544)? Tenant 0 passes where no valid entry lies, or where the entry belongs to
an unsealed partition and is no scrub entry. -/
def mepAllows (s : State) (tenant mep sa n : Nat) : Bool :=
  match rangeEntry s mep sa n with
  | some i =>
    let w := Reg.mepTrange mep i
    if flag s w MepTrange.SCR then false
    else if tenant = 0 then ! flag s w MepTrange.SL
    else fld s w MepTrange.TENANT == tenant
  | none => tenant == 0 && (rangeTouches s mep sa n).isNone

/-- May a tenant reach the tile's window and endpoints (R543, R544)? -/
def tileAllows (s : State) (tenant tile : Nat) : Bool :=
  let o := owner s tile
  if tenant = 0 then ! sealedT s o else o == tenant

/-- The pieces of a range (R36): one per 4 KiB block in region 0x0, packets of at most 4 KiB elsewhere. Fuel: one more than the
number of blocks it can touch. -/
def piecesFrom : Nat → Nat → Nat → List (Nat × Nat)
  | 0, _, _ => []
  | k + 1, addr, n =>
    if n = 0 then [] else
      let m := min n (4096 - addr % 4096)
      (addr, m) :: piecesFrom k (addr + m) (n - m)

/-- The pieces of a range. -/
def pieces (addr n : Nat) : List (Nat × Nat) := piecesFrom (n / 4096 + 2) addr n

/-- Does a populated local range lie outside the tenant's partition (R543)? What R37 refuses is no one's partition and is left to that
check (log 14, DEDUCED); ranges on other packages are checked where they arrive. -/
def rangeForeign (s : State) (tenant chip addr len : Nat) : Bool :=
  if chip ≠ myChip s then false
  else match region addr with
    | 0 => (pieces addr (max len 1)).any fun p => (addrCheck s false chip p.1).isNone &&
        ! mepAllows s tenant (stackOf (regOff p.1)) (stackAddr (regOff p.1)) p.2
    | 1 => (pieces addr (max len 1)).any fun p => (addrCheck s false chip p.1).isNone && ! tileAllows s tenant (regOff p.1 / 0x1000000)
    | _ => false

/-- Does a local DEP 0 or DEP 5 target lie outside the tenant's partition (R543)? -/
def targetForeign (s : State) (tenant : Nat) (e : Ep) : Bool :=
  e.chip == myChip s && (targetCheck s e).isNone && (e.dep == 0 || e.dep == 5) && ! tileAllows s tenant e.tile

/-! ### Descriptor fields (R368, R375) -/

/-- CMD of a descriptor. -/
def Desc_cmd (d : Nat) : Nat := bits d 63 56
def Desc_inlen (d : Nat) : Nat := bits d 55 48
def Desc_fence (d : Nat) : Bool := bit d 2
def Desc_irq (d : Nat) : Bool := bit d 1
def Desc_phase (d : Nat) : Bool := bit d 0
def Desc_check (d : Nat) : Nat := bits d 127 112
def Desc_user (d : Nat) : Nat := bits d 111 96
def Desc_layer (d : Nat) : Nat := bits d 95 80
def Desc_opid (d : Nat) : Nat := bits d 79 64
def Desc_a0 (d : Nat) : Nat := bits d 511 456
def Desc_a1 (d : Nat) : Nat := bits d 455 400
def Desc_len (d : Nat) : Nat := bits d 399 368
def Desc_a0chip (d : Nat) : Nat := bits d 367 360
def Desc_a1chip (d : Nat) : Nat := bits d 359 352
def Desc_target (d : Nat) : Ep := ⟨bits d 359 352, 8 * bits d 348 346 + bits d 351 349, bits d 345 342⟩
def Desc_efmt (d : Nat) : Nat := bits d 341 338
def Desc_sfmt (d : Nat) : Nat := bits d 337 336
def Desc_wire (d : Nat) : Nat := bits d 335 334
def Desc_aop (d : Nat) : Nat := bits d 333 332
def Desc_prio (d : Nat) : Nat := bits d 331 330
def Desc_cctr (d : Nat) : Nat := bits d 329 319
def Desc_cen (d : Nat) : Bool := bit d 318

/-- CHECK of a descriptor with its inline bytes (R370): CRC-16 over the 64 bytes with bytes 14 and 15 zero and then the inline bytes,
each from its most significant bit. -/
def descCheck (d : Nat) (inl : List Byte) : Nat :=
  (toLE 64 (putBits d 127 112 0) ++ inl).foldl (fun c b => crcBits 16 0x1021 8 b.toNat c) 0xFFFF

end Sys2Proof.Machine
end

