-- ==== Sys2Proof/Machine/Observe.lean ====
section
/-!
DEFINITION. What every unit records as traffic passes (chapter 18): utilisation counters (R638, R639), operator matchers (R649), trace
records (R652-R655) and watcher marks (R658).
-/
namespace Sys2Proof.Machine

/-- A free value drawn (log 8, DESIGN CHOICE): the counter that names it, and the state with the counter advanced. -/
def draw (s : State) : Nat × State := (s.free, { s with free := s.free + 1 })

/-- n free bytes drawn (log 8, DESIGN CHOICE). -/
def drawBytes (s : State) (n : Nat) : List Byte × State :=
  ((List.range n).map (Config.freeByte s.free), { s with free := s.free + 1 })

/-- Units of 128 bytes, rounded up (R639). -/
def units128 (n : Nat) : Nat := ceilDiv n 128

/-- Tenant t's traffic through a port, entering the package or the stack (R639). -/
def tutilIn (s : State) (b : Blk) (t n : Nat) : State :=
  if t < 64 then bump s (Reg.telTutil b t) TelTutil.IN n else s

/-- Tenant t's traffic through a port, leaving (R639). -/
def tutilOut (s : State) (b : Blk) (t n : Nat) : State :=
  if t < 64 then bump s (Reg.telTutil b t) TelTutil.OUT n else s

/-- The format events of a unit shared by tenants, or of a tile (R216, R639). -/
structure FmtEvents where
  ovf : Nat := 0
  sat : Nat := 0
  nfin : Nat := 0
  malf : Nat := 0
  isat : Nat := 0
  deriving DecidableEq, Repr

/-- Events added. -/
def FmtEvents.add (a b : FmtEvents) : FmtEvents :=
  ⟨a.ovf + b.ovf, a.sat + b.sat, a.nfin + b.nfin, a.malf + b.malf, a.isat + b.isat⟩

/-- The events of one rounding. -/
def Rounded.events (r : Rounded) : FmtEvents := { ovf := b2n r.ovf, sat := b2n r.sat }

/-- Format events counted at a tile (R216). -/
def tniFmt (s : State) (tile : Nat) (e : FmtEvents) : State :=
  let r := Reg.tniFmtStat tile
  bump (bump (bump (bump s r TniFmtStat.OVF e.ovf) r TniFmtStat.SAT e.sat) r TniFmtStat.NFIN e.nfin) r TniFmtStat.MALF e.malf

/-- Format events counted at a reduction unit for a tenant (R639). -/
def ruFmt (s : State) (tile t : Nat) (e : FmtEvents) : State :=
  if 1 ≤ t ∧ t ≤ 63 then
    let r := Reg.telRuFmt tile t
    bump (bump (bump (bump s r TelRuFmt.OVF e.ovf) r TelRuFmt.SAT e.sat) r TelRuFmt.NFIN e.nfin) r TelRuFmt.MALF e.malf
  else s

/-- A packet or beat of `n` payload bytes injected at a tile, counted at each matcher it matches (R649). -/
def matchOp (s : State) (tile layer opid n : Nat) : State :=
  (List.range 4).foldl (fun s k =>
    let c := Reg.tniOpmCfg tile k
    if ((layer ^^^ fld s c TniOpmCfg.LV) &&& fld s c TniOpmCfg.LM) = 0 ∧
       ((opid ^^^ fld s c TniOpmCfg.OV) &&& fld s c TniOpmCfg.OM) = 0 then
      bump (bump s (Reg.tniOpmCnt tile k) TniOpmCnt.PKTS 1) (Reg.tniOpmCnt tile k) TniOpmCnt.BYTES n
    else s) s

/-- Is well w enabled (R650)? -/
def wellOn (s : State) (w : Nat) : Bool := decide (w < 64) && flag s (Reg.telTwCfg w) TelTwCfg.EN

/-- The header of a trace record (R653) and its body, padded to 64 bytes. -/
def traceRec (s : State) (type tenant unit layer opid : Nat) (body : List Byte) : List Byte :=
  toLE 8 (timeNs s) ++ toLE 1 type ++ toLE 1 tenant ++ toLE 2 unit ++ toLE 2 layer ++ toLE 2 opid ++ slice body 0 48

/-- The LOST record a unit places first in its next buffer of a well, when it has lost any (R652, R654). -/
def lostRec (s : State) (unit well : Nat) : List (List Byte) :=
  let n := eGet 0 (unit * 64 + well) s.obs.lostRecs
  if n = 0 then [] else [traceRec s 6 well unit 0xFFFF 0xFFFF (toLE 4 n)]

/-- A record lost (R652): counted in LOST of its well and told in the unit's next buffer for that well. -/
def loseRec (s : State) (unit well n : Nat) : State :=
  let k := unit * 64 + well
  let s := bump s (Reg.telTwStat well) TelTwStat.LOST n
  { s with obs := { s.obs with lostRecs := eSet 0 k (eGet 0 k s.obs.lostRecs + n) s.obs.lostRecs } }

/-- A record put into a unit's buffer of a well (R652): into the buffer of its well, else an empty one; with neither, the older buffer is
to be flushed and the record is lost. -/
def putRec (s : State) (unit well : Nat) (r : List Byte) : State :=
  let mine := s.obs.bufs.filter fun b => b.unit == unit
  if mine.any fun b => b.well == well && ! b.due then
    let f (b : TraceBuf) : TraceBuf := { b with recs := b.recs ++ [r], due := decide (64 ≤ b.recs.length + 1) }
    { s with obs := { s.obs with bufs := updFirst (fun b => b.unit == unit && b.well == well && ! b.due) f s.obs.bufs } }
  else if mine.length < 2 then
    let b : TraceBuf := { unit := unit, well := well, first := s.clk.now, recs := lostRec s unit well ++ [r] }
    let k := unit * 64 + well
    { s with obs := { s.obs with bufs := s.obs.bufs ++ [b], lostRecs := eSet 0 k 0 s.obs.lostRecs } }
  else
    let old := mine.foldl (fun m b => min m b.first) s.clk.now
    let s := { s with obs := { s.obs with
      bufs := updFirst (fun b => b.unit == unit && b.first == old) (fun b => { b with due := true }) s.obs.bufs } }
    loseRec s unit well 1

/-- A record put into each of the tenant's well and well 0 that takes records of this sort (R655). -/
def traceTo (s : State) (tenant : Nat) (takes : State → Nat → Bool) (unit type layer opid : Nat) (body : List Byte) : State :=
  let ws := if tenant = 0 ∨ 64 ≤ tenant then [0] else [tenant, 0]
  ws.foldl (fun s w => if wellOn s w && takes s w then
    putRec s unit w (traceRec s type tenant unit layer opid body) else s) s

/-- A MARK record (R654) in every enabled well of a list. Log 72, DEDUCED. -/
def traceMark (s : State) (unit event v : Nat) : State :=
  traceTo s 0 (fun _ _ => true) unit 5 0xFFFF 0xFFFF (toLE 8 event ++ toLE 8 v)

/-- Does a well sample packets (R655)? -/
def samples (s : State) (w : Nat) : Bool := decide (w < 64) && fld s (Reg.telTwCfg w) TelTwCfg.TRL2 != 0

/-- The mark of R655 drawn for a packet of a tenant: one in 2^TRL2 under its own well, and separately under well 0. The LFSR is not
described, so each draw is a free value (log 8, DESIGN CHOICE). -/
def drawTrc (s : State) (tenant : Nat) : Bool × State :=
  let ws := if tenant = 0 ∨ 64 ≤ tenant then [0] else [tenant, 0]
  ws.foldl (fun (a : Bool × State) w =>
    if wellOn a.2 w && samples a.2 w then
      let d := draw a.2
      (a.1 || bits (Config.freeWord d.1).toNat (fld a.2 (Reg.telTwCfg w) TelTwCfg.TRL2 - 1) 0 == 0, d.2)
    else a) (false, s)

/-- Does a well record command starts and completions (R655)? -/
def takesCmd (s : State) (w : Nat) : Bool := decide (w < 64) && flag s (Reg.telTwCfg w) TelTwCfg.CMD

/-- The first line of a watcher's range (R658), as a fabric address. -/
def watchBase (s : State) (tile k : Nat) : Nat :=
  let c := Reg.tniWatchCfg tile k
  tileAddr (if flag s c TniWatchCfg.ODD then tile + 1 else tile) (fld s c TniWatchCfg.BASE)

/-- The lines of a watcher's range. -/
def watchLines (s : State) (tile k : Nat) : Nat := fld s (Reg.tniWatchCfg tile k) TniWatchCfg.LINESM1 + 1

/-- One watcher's marks after a write of n bytes at a (R658); a write that reaches the range during readback sets OVL (R659). -/
def watchMark (s : State) (tile a n k : Nat) : State :=
  if flag s (Reg.tniWatchCfg tile k) TniWatchCfg.EN then
    let b := watchBase s tile k / 128
    let ls := ((linesOf a n).filter fun l => decide (b ≤ l) && decide (l < b + watchLines s tile k)).map (· - b)
    if ls.isEmpty then s
    else
      let s := if flag s (Reg.tniWatchStat tile k) TniWatchStat.BUSY then setFld s (Reg.tniWatchStat tile k) TniWatchStat.OVL 1 else s
      let w := eGet {} (4 * tile + k) s.obs.watch
      { s with obs := { s.obs with watch := eSet {} (4 * tile + k) { marks := ls.foldl (fun m l => insNat l m) w.marks } s.obs.watch } }
  else s

/-- A write of n bytes at a fabric address noted at the watchers of the tile, and of the even tile of its pair. -/
def sramNote (s : State) (a n : Nat) : State :=
  if region a = 1 then
    let t := evenTile s (regOff a / 0x1000000)
    (List.range 4).foldl (fun s k => watchMark s t a n k) s
  else s

/-- Data written to memory, with its poison mark, and seen by the watchers. -/
def storeSeen (s : State) (a : Nat) (bs : List Byte) (psn : Bool) : State := sramNote (store s a bs psn) a bs.length

end Sys2Proof.Machine
end

