-- ==== Sys2Proof/Machine/Dynamic.lean ====
section
/-!
DEFINITION. The dynamic plane's shared operations (chapter 3): headers and their CRC, source interfaces, tags, allotments, cisterns and
grants, routing, and the checks a packet meets where it arrives.
-/
namespace Sys2Proof.Machine

/-! ### Headers (R103-R105) -/

/-- Opcodes that carry a payload (R106). -/
def Opc_hasPayload : Opc → Bool
  | .rdReq => false | .wrAck => false | .rsvRelease => false | .csrRd => false
  | _ => true

/-- Flits of a packet (R102): one for a read request and for packets without a payload. -/
def flits (p : Pkt) : Nat := if Opc_hasPayload p.opc then max 1 (ceilDiv p.nbytes 128) else 1

/-- LEN and LASTB of the header (R105, R106). -/
def hdrLen (p : Pkt) : Nat := if p.nbytes = 0 then 0 else (p.nbytes - 1) / 128
def hdrLastb (p : Pkt) : Nat := if p.nbytes = 0 then 0 else p.nbytes % 128

/-- The bytes of memory a packet's access touches: its length, and of a compare-and-swap one of its two operands (R106). -/
def accessLen (p : Pkt) : Nat := if p.opc = .atCas then p.nbytes / 2 else p.nbytes

/-- Header bits [175:0] (R103). -/
def hdr (p : Pkt) : Nat :=
  p.dst.chip + p.dst.tile % 8 * 2 ^ 8 + p.dst.tile / 8 * 2 ^ 11 + p.dst.dep * 2 ^ 14 +
  p.src.chip * 2 ^ 18 + p.src.tile % 8 * 2 ^ 26 + p.src.tile / 8 * 2 ^ 29 + p.src.dep * 2 ^ 32 +
  p.prio * 2 ^ 36 + p.tenant * 2 ^ 38 + p.opc.code * 2 ^ 46 + hdrLen p * 2 ^ 52 + hdrLastb p * 2 ^ 57 +
  p.tag * 2 ^ 64 + p.addr * 2 ^ 76 + p.layer * 2 ^ 132 + p.opid * 2 ^ 148 + p.efmt * 2 ^ 164 + p.sfmt * 2 ^ 168 +
  b2n p.poison * 2 ^ 170 + b2n p.trc * 2 ^ 171 + p.dclass * 2 ^ 172

/-- The header CRC a packet must carry (R104). -/
def hcrcOf (p : Pkt) : Nat := crc16 176 (hdr p)

/-- Does the header CRC match (R104)? -/
def hcrcOk (p : Pkt) : Bool := p.hcrc == hcrcOf p

/-- The packet with its header CRC generated (R104). -/
def stamp (p : Pkt) : Pkt := { p with hcrc := hcrcOf p }

/-- Opcodes that expect a response (R106). -/
def expects : Opc → Bool
  | .rdReq => true | .wr => true | .mcWr => true | .atFadd => true | .atSwap => true | .atCas => true | .msg => true
  | .rsvReq => true | .rsvRelease => true | .ctrAdd => true | .redContrib => true | .redResult => true | .sluDispatch => true
  | .sluCombine => true | .spSpill => true | .mbx => true | .csrRd => true | .csrWr => true
  | _ => false

/-- Opcodes that answer a request. -/
def isResponse : Opc → Bool
  | .rdRsp => true | .wrAck => true | .atRsp => true | .rsvGrant => true | .csrRsp => true | .ack => true | .errRsp => true
  | _ => false

/-- Single-flit requests that travel under the standing allotment (R106, R119). -/
def allotOpc : Opc → Bool
  | .msg => true | .rsvReq => true | .rsvRelease => true | .ctrAdd => true | .mbx => true | .csrRd => true | .csrWr => true
  | .spSpill => true
  | _ => false

/-- The priorities R106 permits for an opcode a command names. -/
def prioOk (o : Opc) (p : Nat) : Bool :=
  match o with
  | .rdReq => decide (p ≤ 2) | .wr => decide (p ≤ 2) | .mcWr => decide (p ≤ 2)
  | .atFadd => p == 1 || p == 2 | .atSwap => p == 1 || p == 2 | .atCas => p == 1 || p == 2
  | .redContrib => p == 1 || p == 2
  | .ctrAdd => p == 2 || p == 3
  | .msg => p == 2
  | _ => decide (p ≤ 3)

/-! ### Cisterns (R117, R128) -/

/-- The endpoint whose cistern an endpoint uses: a sluice its TNI's (R117), a twin pair's even tile's (R43). -/
def cisEp (s : State) (e : Ep) : Ep :=
  if e.dep = 0 ∨ e.dep = 5 then ⟨e.chip, if e.chip = myChip s then evenTile s e.tile else e.tile, 0⟩ else e

/-- The status register of an endpoint's cistern (R128). -/
def cisReg (s : State) (e : Ep) : Nat :=
  match Ep_kind e with
  | .fmp => Reg.fmpCisternStat 0
  | .tfsp => Reg.fmpCisternStat 1
  | _ => Reg.cisternStat (epBlk (cisEp s e))

/-- The reservation configuration an endpoint follows (R127). -/
def rsvReg (s : State) (e : Ep) : Nat :=
  match Ep_kind e with
  | .fmp => Reg.fmpRsvCfg
  | .tfsp => Reg.fmpRsvCfg
  | _ => Reg.rsvCfg (epBlk (cisEp s e))

/-- Response timeout in cycles (R127: 0 is taken as 1 µs). -/
def rspto (s : State) (e : Ep) : Nat := usCycles (max 1 (fld s (rsvReg s e) RsvCfg.RSPTO))

/-- Reservation timeout in cycles (R127). -/
def rsvto (s : State) (e : Ep) : Nat := usCycles (max 1 (fld s (rsvReg s e) RsvCfg.RSVTO))

/-- Reservable slots of an endpoint (R117). -/
def reservable (s : State) (e : Ep) : Nat :=
  match Ep_kind e with
  | .mep _ => 3452
  | .rte _ => 3452
  | .ru => 316
  | .fmp => 380
  | .tfsp => 380
  | .lp _ => 1404
  | .hp => 1404
  | _ => if twinned s e.tile then 3452 else 1404

/-- Is an endpoint shared by tenants (R126)? -/
def sharedEp (e : Ep) : Bool :=
  match Ep_kind e with
  | .mep _ => true | .lp _ => true | .rte _ => true | .hp => true | .ru => true
  | _ => false

/-- The slots a tenant may hold at an endpoint (R126, R541). -/
def shareOf (s : State) (e : Ep) (t : Nat) : Nat :=
  if ! sharedEp e then reservable s e
  else if t = 0 then reservable s e / 16
  else if 64 ≤ t then 0
  else fld s (Reg.rsvShare (epBlk e) t) RsvShare.SLOTS

/-- The granted slots a tenant holds at an endpoint. -/
def heldBy (s : State) (e : Ep) (t : Nat) : Nat :=
  ((s.dyn.given.filter fun g => g.ep == e && g.tenant == t).map CGrant.slots).foldl (· + ·) 0

/-- Do the slots of a request fit (R122, R126)? -/
def fits (s : State) (r : CReq) : Bool :=
  decide (r.flits ≤ fld s (cisReg s r.ep) CisternStat.FREE) && decide (heldBy s r.ep r.tenant + r.flits ≤ shareOf s r.ep r.tenant)

/-- Two requests stand in one queue: the endpoint's, kept per tenant at a shared endpoint (R542). -/
def sameQueue (a b : CReq) : Bool := a.ep == b.ep && (! sharedEp a.ep || a.tenant == b.tenant)

/-- The order of the multicast queue (R123): TICKET, then SCHIP, SX, SY, SEP. -/
def mcBefore (a b : CReq) : Bool :=
  let k (r : CReq) := ((r.ticket * 256 + r.src.chip) * 8 + r.src.tile % 8) * 8 + r.src.tile / 8
  decide (k a * 16 + a.src.dep < k b * 16 + b.src.dep)

/-- The head of the multicast queue a request stands in. -/
def mcHead (s : State) (r : CReq) : Option CReq :=
  (s.dyn.pend.filter fun x => x.mc && sameQueue x r).foldl
    (fun (o : Option CReq) x => match o with
      | none => some x
      | some y => if mcBefore x y then some x else some y) none

/-- Is a multicast request eligible (R123)? -/
def eligible (s : State) (r : CReq) : Bool := decide (r.ticket + r.settle ≤ timeNs s)

/-- Does a list of endpoints make a waiting request the one its cistern grants next (R122, R123)? The eligible head of the multicast
queue goes first and holds back every other; otherwise the earliest request, when it is a unicast. -/
def nextToGrant (s : State) (r : CReq) : Bool :=
  match mcHead s r with
  | some h => if eligible s h then h == r else (s.dyn.pend.find? (sameQueue r)) == some r && ! r.mc
  | none => (s.dyn.pend.find? (sameQueue r)) == some r

/-! ### Packets in flight -/

/-- A packet put onto the mesh: its header CRC generated. An injection may invert bit 0 of it (R632). -/
def putNet (s : State) (p : Pkt) : State :=
  let b := epBlk p.src
  let q := stamp p
  if injArmed s b .hcrc (fun _ => true) then
    let s := injFire s b
    { s with dyn := { s.dyn with net := s.dyn.net ++ [{ q with hcrc := q.hcrc ^^^ 1 }] } }
  else { s with dyn := { s.dyn with net := s.dyn.net ++ [q] } }

/-- COUNT of a segment head made 0 by an injection at a TNI (R632). -/
def injFormat (s : State) (p : Pkt) : Pkt × State :=
  if (p.sfmt != 0 || p.efmt == 9) && Ep_kind p.src == .tile && injArmed s (.tni p.src.tile) .format (fun _ => true) then
    ({ p with data := splice p.data 4 [0, 0] }, injFire s (.tni p.src.tile))
  else (p, s)

/-- A packet that has arrived, no longer in flight. Log 11, DEDUCED. -/
def takeNet (s : State) (p : Pkt) : State := { s with dyn := { s.dyn with net := s.dyn.net.erase p } }

/-- The packet in flight whose flit shows the header `p` with a wrong code (R104): the same but for the code, else the one of its source, TAG and
opcode. -/
def garbled (s : State) (p : Pkt) : Option Pkt :=
  match s.dyn.net.find? fun q => { q with hcrc := p.hcrc } == p with
  | some q => some q
  | none => s.dyn.net.find? fun q => q.src == p.src && q.tag == p.tag && q.opc == p.opc

/-- A packet with a wrong header code discarded whole, and recorded (R104). -/
def badHcrc (s : State) (unit : Nat) (p : Pkt) : State :=
  log (match garbled s p with | some q => takeNet s q | none => s)
    { errPkt unit .hcrc 2 p .ok with synd := p.hcrc * 2 ^ 16 + hcrcOf p }

/-- A packet's trace records at injection and ejection (R655): body bytes 16-37 the header, 38 the point, 39 the lane port. -/
def tracePkt (s : State) (unit : Nat) (p : Pkt) (point lp : Nat) : State :=
  if p.trc then traceTo s p.tenant samples unit 1 p.layer p.opid (toLE 22 (hdr p) ++ toLE 1 point ++ toLE 1 lp) else s

/-! ### Requests at their source interface (R118, R119) -/

/-- A request put into the waiting list of its source interface. -/
def enqueue (s : State) (p : Pkt) (why : Purpose) (mc : List Ep := []) : State :=
  { s with dyn := { s.dyn with waiting := s.dyn.waiting ++ [{ id := s.dyn.nextReq, pkt := p, why := why, mc := mc }], nextReq := s.dyn.nextReq + 1 } }

/-- Slots a requester sets aside for the response (R118). -/
def rspSlots (p : Pkt) (mc : List Ep) : Nat :=
  if p.opc = .rdReq then max 1 (ceilDiv p.nbytes 128) else max 1 mc.length

/-- Tags of an endpoint (R108). -/
def tagCount (e : Ep) : Nat := if e.dep = 0 ∨ e.dep = 5 then 64 else 256

/-- Reservation records of an endpoint (R118); a sluice's are its TNI's. -/
def recCount (e : Ep) : Nat := if e.dep = 0 ∨ e.dep = 5 then 512 else 1024

/-- The lowest tag of an endpoint that is neither in use nor in quarantine (R108). -/
def freeTag (s : State) (e : Ep) : Option Nat :=
  (List.range (tagCount e)).find? fun t =>
    ! (s.dyn.txns.any fun x => x.ep == e && x.tag == t) && ! (s.dyn.quar.any fun x => x.ep == e && x.tag == t)

/-- The injector that an endpoint's allotment packets and reservation records count under (R29, R117-R119): a sluice sends as its TNI. -/
def injector (e : Ep) : Ep := if e.dep = 5 then { e with dep := 0 } else e

/-- The lowest free reservation record of an injector (R118). A response is matched by its TAG alone (R108), so records are numbered
from 0x400 on, above every transaction tag (log 16, DESIGN CHOICE). -/
def freeRec (s : State) (e : Ep) : Option Nat :=
  ((List.range (recCount e)).map (0x400 + ·)).find? fun t => ! s.dyn.rsvs.any fun x => injector x.ep == injector e && x.rec_ == t

/-- Allotment packets outstanding from an injector at a cistern (R119); a lane port's own and those that entered through it (R120).
Log 56, DEDUCED. -/
def allotOut (s : State) (src dst : Ep) : Nat :=
  s.dyn.allot.count (injector src, cisEp s dst) +
    (s.dyn.entries.filter fun e => e.port == injector src && e.cis == cisEp s dst).length

/-- One allotment packet counted, and one count returned (R119). -/
def allotAdd (s : State) (src dst : Ep) : State :=
  { s with dyn := { s.dyn with allot := s.dyn.allot ++ [(injector src, cisEp s dst)] } }
def allotBack (s : State) (src dst : Ep) : State :=
  { s with dyn := { s.dyn with allot := s.dyn.allot.erase (injector src, cisEp s dst) } }

/-- Does an allotment packet of another package find one of the four slots of its ingress lane port free (R120)? -/
def entryOpen (s : State) (n : Nat) (p : Pkt) : Bool := decide (allotOut s (lpEp (myChip s) n) p.dst < 4)

/-- Does a packet of another package travel under its ingress lane port's allotment (R120)? -/
def entryAllot (p : Pkt) : Bool := allotOpc p.opc && flits p == 1

/-- A packet of another package put onto the mesh, an allotment packet in one of its ingress lane port's slots (R120). -/
def entryPut (s : State) (n : Nat) (p : Pkt) : State :=
  { s with dyn := { s.dyn with net := s.dyn.net ++ [p],
                               entries := s.dyn.entries ++ (if entryAllot p then [⟨lpEp (myChip s) n, cisEp s p.dst, p.src, p.tag⟩] else []) } }

/-- May a packet at lane port n enter the mesh behind the waiting ones `l` (R120, R135): an allotment packet needs a slot, and none overtakes one of
its source, destination and priority? -/
def entryMay (s : State) (l : List (Nat × Pkt)) (n : Nat) (p : Pkt) : Bool :=
  (! entryAllot p || entryOpen s n p) && ! l.any fun x => x.1 == n && x.2.src == p.src && x.2.dst == p.dst && x.2.prio == p.prio

/-- The virtual channel of a packet (R109). -/
def vcOf (p : Pkt) : Nat := 2 * p.prio + p.dclass

/-- Flits of a virtual channel that a lane port has passed to its router (R510). -/
def freeFlits (r : LaneRun) (v k : Nat) : LaneRun := { r with freed := eSet 0 v ((eGet 0 v r.freed + k) % 4096) r.freed }

/-- The flits of a packet that waited whole in a port's buffer freed. -/
def freeOwed (s : State) (n : Nat) (p : Pkt) : State :=
  let r := eGet {} n s.lane.runs
  match r.owed.find? fun x => x.1 == p with
  | none => s
  | some x => { s with lane := { s.lane with runs := eSet {} n (freeFlits { r with owed := r.owed.erase x } (vcOf p) x.2) s.lane.runs } }

/-- The flits freed of a packet that a port is still receiving and that may now enter. -/
def freeAsm (s : State) (n : Nat) (a : LaneAsm) : State :=
  let r := eGet {} n s.lane.runs
  let asm := r.asm.map fun x => if x = a then { x with kept := 0 } else x
  if a.kept = 0 ∨ ! entryMay s s.dyn.entryWait n a.pkt then s
  else { s with lane := { s.lane with runs := eSet {} n (freeFlits { r with asm := asm } a.vc a.kept) s.lane.runs } }

/-- The waiting packets that may enter do, in order (R120), and the flits of those that may enter leave the port's buffer (R510). -/
def entryNext (s : State) : State :=
  let s := s.dyn.entryWait.foldl (fun s x =>
    if entryMay s (s.dyn.entryWait.takeWhile (· != x)) x.1 x.2 then
      freeOwed (entryPut { s with dyn := { s.dyn with entryWait := s.dyn.entryWait.erase x } } x.1 x.2) x.1 x.2
    else s) s
  s.lane.runs.foldl (fun s y => y.2.asm.foldl (fun s a => freeAsm s y.1 a) s) s

/-- The response to a packet of another package returns its ingress lane port's slot; the ACK of a release those of the release and of a request that
was never granted (R119, R120). -/
def entryBack (s : State) (p : Pkt) : State :=
  let mine (e : EntrySlot) : Bool := e.src == p.dst && e.tag == p.tag && e.cis == cisEp s p.src
  if p.dst.chip = myChip s ∨ ! s.dyn.entries.any mine then s
  else entryNext { s with dyn := { s.dyn with entries := if p.opc = .ack then s.dyn.entries.filter (fun e => ! mine e) else dropFirst mine s.dyn.entries } }

/-- A packet injected by its source interface: TRC drawn for requests (R655), operator matchers at a TNI (R649), trace. -/
def inject (s : State) (p : Pkt) : State :=
  let d := if isResponse p.opc then (p.trc, s) else drawTrc s p.tenant
  let p := { p with trc := d.1 }
  let s := if Ep_kind p.src = .tile ∨ Ep_kind p.src = .sluice then matchOp d.2 p.src.tile p.layer p.opid p.data.length else d.2
  let f := injFormat (tracePkt s (blkUnit (epBlk p.src)) p 0 0xFF) p
  if isResponse p.opc then entryBack (putNet f.2 f.1) p else putNet f.2 f.1

/-- The response to a packet: from its destination to its source under its TAG, tenant and labels (R108, R648). An injected timeout keeps it from
being sent (R632). -/
def rspTo (s : State) (p : Pkt) (from_ : Ep) (opc : Opc) (prio : Nat) (data : List Byte) (psn : Bool) : State :=
  if injArmed s (epBlk from_) .timeout (fun k => k == 0) then injFire s (epBlk from_)
  else
    inject s { opc := opc, src := from_, dst := p.src, tenant := p.tenant, prio := prio, tag := p.tag, addr := p.addr,
               nbytes := data.length, opid := p.opid, layer := p.layer, poison := psn, trc := p.trc, data := data }

/-- A completion with a status (R106): ACK, P3, payload [7:0]. -/
def ackTo (s : State) (p : Pkt) (st : Status) : State := rspTo s p p.dst .ack 3 [BitVec.ofNat 8 st.code] false

/-- Do a packet's source fields name an endpoint that a response can reach (R142)? -/
def srcOk (s : State) (p : Pkt) : Bool := epExists p.src && inTorus s p.src.chip

/-- An error response (R106, R142). -/
def errTo (s : State) (p : Pkt) (st : Status) : State :=
  if expects p.opc && srcOk s p then rspTo s p p.dst .errRsp 3 [BitVec.ofNat 8 st.code] false else s

/-- The status a response carries in payload [7:0]. -/
def rspStatus (p : Pkt) : Status := Status.ofCode (p.data.getD 0 0).toNat

/-- Slots taken from a cistern's free ones, or given back. -/
def takeFree (s : State) (e : Ep) (n : Nat) : State :=
  setFld s (cisReg s e) CisternStat.FREE (fld s (cisReg s e) CisternStat.FREE - n)
def giveFree (s : State) (e : Ep) (n : Nat) : State :=
  setFld s (cisReg s e) CisternStat.FREE (min (reservable s e) (fld s (cisReg s e) CisternStat.FREE + n))

/-- A field of a cistern's status raised or lowered. -/
def cisAdd (s : State) (e : Ep) (f : Fld) (n : Nat) : State := setFld s (cisReg s e) f (fld s (cisReg s e) f + n)
def cisSub (s : State) (e : Ep) (f : Fld) (n : Nat) : State := setFld s (cisReg s e) f (fld s (cisReg s e) f - n)

/-- The payload of an RSV_REQ (R121). -/
def rsvPayload (r : Rsv) (prio settle : Nat) : List Byte :=
  toLE 16 (r.ticket * 2 ^ 64 + r.mcop * 2 ^ 48 + prio * 2 ^ 38 + b2n (r.mcop != 0) * 2 ^ 37 +
    (if r.mcop = 0 then 0 else settle) * 2 ^ 16 + (r.flits - 1))

/-- A reservation record taken and its RSV_REQ made to wait at the source (R118, R121); what the packet says of the time is filled in when it
leaves. -/
def reserve (s : State) (r : Req) (dst : Ep) (n mcop : Nat) : State :=
  match freeRec s r.pkt.src with
  | none => s
  | some i =>
    let v : Rsv := { ep := r.pkt.src, rec_ := i, dst := dst, flits := n, tenant := r.pkt.tenant, mcop := mcop, issued := s.clk.now,
                     req := r.id, why := r.why }
    let s := { s with dyn := { s.dyn with rsvs := s.dyn.rsvs ++ [v] } }
    enqueue s { opc := .rsvReq, src := v.ep, dst := dst, tenant := v.tenant, prio := 3, tag := i, nbytes := 16, layer := r.pkt.layer,
                opid := r.pkt.opid, data := rsvPayload v r.pkt.prio 0 } .none

/-- A held grant of a requester for a destination's cistern with room for n flits (R125). -/
def grantFor (s : State) (src dst : Ep) (n : Nat) : Option Rsv :=
  s.dyn.rsvs.find? fun v => v.ep == src && cisEp s v.dst == cisEp s dst && v.granted && ! v.released && v.mcop == 0 && decide (n ≤ v.left)

/-- n flits of a held grant used (R125); a grant used up frees its record. -/
def consumeGrant (s : State) (v : Rsv) (n : Nat) : State :=
  let f (x : Rsv) : Rsv := { x with left := x.left - n, lastUse := s.clk.now }
  let rs := updFirst (fun x => x.ep == v.ep && x.rec_ == v.rec_) f s.dyn.rsvs
  { s with dyn := { s.dyn with rsvs := rs.filter fun x => ! (x.granted && x.left == 0) } }

/-- A transaction opened: tag taken, timeout fixed, and the packet injected (R108, R118, R127, R129). Its response slots stand aside already. -/
def launch (s : State) (r : Req) (tag : Nat) : State :=
  let p := { r.pkt with tag := tag }
  let n := rspSlots p r.mc
  let x : Txn := { ep := p.src, tag := tag, opc := p.opc, dst := p.dst, why := r.why, slots := n, sent := s.clk.now,
                   allot := allotOpc p.opc && p.src.chip == p.dst.chip, prio := p.prio, addr := p.addr, tenant := p.tenant,
                   due := if r.mc.isEmpty then [p.dst] else r.mc, rspto := rspto s p.src }
  let s := if x.allot then allotAdd s p.src p.dst else s
  let s := { s with dyn := { s.dyn with txns := s.dyn.txns ++ [x], waiting := s.dyn.waiting.filter fun w => w.id != r.id } }
  if r.mc.isEmpty then inject s p
  else (r.mc.map Ep.chip).dedup.foldl (fun s c => inject s { p with dst := { p.dst with chip := c } }) s

/-- Is the allotment open for a packet (R119, R120)? A source of another package draws on its entry lane port's slots instead. -/
def allotOpen (s : State) (p : Pkt) : Bool := p.src.chip != p.dst.chip || decide (allotOut s p.src p.dst < 4)

/-- Step 1 of R118: the slots for a waiting request's response set aside in the requester's own cistern; none when they are not free. -/
def setAside (s : State) (r : Req) : Option State :=
  let n := rspSlots r.pkt r.mc
  if r.held then some s
  else if fld s (cisReg s r.pkt.src) CisternStat.FREE < n then none
  else
    let s := takeFree s r.pkt.src n
    some { s with dyn := { s.dyn with waiting := updFirst (fun w => w.id == r.id) (fun w => { w with held := true }) s.dyn.waiting } }

/-- The record an RSV_REQ leaves with (R121, R127): the timeouts of its issue, and for a multicast the time of its first RSV_REQ. -/
def issuedRsv (s : State) (v : Rsv) : Rsv :=
  let t := if v.mcop = 0 then 0 else match s.dyn.rsvs.find? fun x => x.req == v.req && x.mcop == v.mcop && x.sent with
    | some x => x.ticket
    | none => timeNs s
  { v with sent := true, issued := s.clk.now, ticket := t, slots := v.slots + 1, rsvto := rsvto s v.ep, rspto := rspto s v.ep,
           lease := usCycles (fld s (rsvReg s v.ep) RsvCfg.LEASE) }

/-- A waiting reservation packet leaves under the allotment (R119); an RSV_REQ is given its TICKET and SETTLE (R121). -/
def issueRsv (s : State) (r : Req) : State :=
  let p := r.pkt
  match s.dyn.rsvs.find? fun v => v.ep == p.src && v.rec_ == p.tag with
  | none => { s with dyn := { s.dyn with waiting := s.dyn.waiting.filter fun w => w.id != r.id } }
  | some v =>
    let w := if p.opc = .rsvReq then issuedRsv s v else { v with issued := s.clk.now, slots := v.slots + 1, rspto := rspto s v.ep }
    let s := if p.src.chip = p.dst.chip then allotAdd s p.src p.dst else s
    let s := { s with dyn := { s.dyn with waiting := s.dyn.waiting.filter (fun w => w.id != r.id), rsvs := updFirst (· == v) (fun _ => w) s.dyn.rsvs } }
    inject s (if p.opc = .rsvReq then { p with data := rsvPayload w (bits (ofLE p.data) 39 38) (fld s (rsvReg s v.ep) RsvCfg.MCSETTLE) } else p)

/-- A multicast's reservations (R132): one for each target in turn, as far as records are free; the rest wait. -/
def reserveAll (s : State) (r : Req) (mine : List Rsv) : State :=
  let m := match mine with
    | v :: _ => v.mcop
    | [] => s.dyn.nextMc
  let s := if mine.isEmpty then { s with dyn := { s.dyn with nextMc := if m = 65535 then 1 else m + 1 } } else s
  (r.mc.filter fun e => ! mine.any fun v => v.dst == e).foldl (fun s e => reserve s r e (flits r.pkt) m) s

/-- PWIN of the context a contribution goes to, where the contributor can tell it: a unit of its own package. Elsewhere it counts on the largest
(log 149, DESIGN CHOICE). -/
def ctxWindow (s : State) (dst : Ep) (ctx : Nat) : Nat :=
  let w := if dst.chip = myChip s ∧ dst.dep = 4 then fld s (Reg.redCtxB dst.tile ctx) RedCtxB.PWIN else 0
  if w = 0 then 256 else w

/-- What a request is to a context (R230): a contribution of a command, or one that an RTE's relay passes on to a reduction unit, whose positions are
counted by its flits (log 175, DEDUCED). -/
def spanOf (why : Purpose) (addr : Nat) (dst : Ep) (nbytes : Nat) : Option (Nat × Nat) :=
  match why with
  | .contrib _ f n => some (f, n)
  | .rte _ _ (.fwd _ _) => if dst.dep = 4 then some (addr / 2 ^ 32 % 2 ^ 24, ceilDiv nbytes 128) else none
  | _ => none

/-- May a contribution leave (R230)? Those of its context come in order; what is unacknowledged covers PWIN positions at most; and none of a new
operation leaves before every packet of the last one is acknowledged. One unit that alone covers more waits for the rest to be acknowledged. A context's
own packets leave in order (R250). -/
def contribRoom (s : State) (r : Req) : Bool :=
  match r.why with
  | .redOut t c _ =>
    let ahead := s.dyn.waiting.find? fun w => match w.why with | .redOut t' c' _ => t' == t && c' == c | _ => false
    match ahead with | some w => w.id == r.id | none => true
  | _ =>
    let p := r.pkt
    match spanOf r.why p.addr p.dst p.nbytes with
    | none => true
    | some (first, n) =>
      let out := s.dyn.txns.filterMap fun x =>
        if x.ep = p.src ∧ x.dst = p.dst ∧ x.addr % 16 = p.addr % 16 then spanOf x.why x.addr x.dst (128 * x.slots) else none
      let ahead := s.dyn.waiting.find? fun w => (spanOf w.why w.pkt.addr w.pkt.dst w.pkt.nbytes).isSome && w.pkt.src == p.src && w.pkt.dst == p.dst &&
        w.pkt.addr % 16 == p.addr % 16
      (match ahead with | some w => w.id == r.id | none => true) &&
        (out.isEmpty || (out.all (fun y => decide (y.1 < first)) &&
          decide ((out.map Prod.snd).foldl (· + ·) 0 + n ≤ ctxWindow s p.dst (p.addr % 16))))

/-- A waiting request whose response slots stand aside, taken as far as it goes (R118): a reservation packet leaves under the allotment; any other
allotment packet needs a tag besides; everything else needs a grant, and asks for one when it holds none that is large enough and
none is on its way. -/
def requestGo (s : State) (r : Req) : State :=
  let p := r.pkt
  if p.opc = .rsvReq ∨ p.opc = .rsvRelease then (if allotOpen s p then issueRsv s r else s)
  else if ! contribRoom s r then s
  else match freeTag s p.src with
    | none => s
    | some tag =>
      if allotOpc p.opc then (if allotOpen s p then launch s r tag else s)
      else
        let mine := s.dyn.rsvs.filter fun v => v.req == r.id && ! v.released
        if r.mc.isEmpty then
          match grantFor s p.src p.dst (flits p) with
          | some v => launch (consumeGrant s v (flits p)) r tag
          | none => if mine.all fun v => v.granted then reserve s r (cisEp s p.dst) (flits p) 0 else s
        else if mine.length < r.mc.length then reserveAll s r mine
        else if mine.all fun v => v.granted then
          launch { s with dyn := { s.dyn with rsvs := s.dyn.rsvs.filter fun v => ! (v.req == r.id && ! v.released) } } r tag
        else s

/-- A waiting request at its source interface (R118): first the slots for its response, then the rest. -/
def requestStep (s : State) (r : Req) : State :=
  match setAside s r with
  | none => s
  | some s => requestGo s { r with held := true }

/-- Waiting requests dropped; the slots set aside for their responses are free again. -/
def dropWaiting (s : State) (gone : Req → Bool) : State :=
  let s := (s.dyn.waiting.filter fun r => gone r && r.held).foldl (fun s r => giveFree s r.pkt.src (rspSlots r.pkt r.mc)) s
  { s with dyn := { s.dyn with waiting := s.dyn.waiting.filter fun r => ! gone r } }

/-- A reservation given up (R119, R124, R125): one whose RSV_REQ has not left is forgotten; else its release waits for the allotment like any other
packet. -/
def release (s : State) (v : Rsv) : State :=
  if ! v.sent then
    dropWaiting { s with dyn := { s.dyn with rsvs := s.dyn.rsvs.erase v } } fun r => r.pkt.opc == .rsvReq && r.pkt.src == v.ep && r.pkt.tag == v.rec_
  else
    let f (x : Rsv) : Rsv := { x with released := true }
    let s := { s with dyn := { s.dyn with rsvs := updFirst (fun x => x.ep == v.ep && x.rec_ == v.rec_) f s.dyn.rsvs } }
    enqueue s { opc := .rsvRelease, src := v.ep, dst := v.dst, tenant := v.tenant, prio := 3, tag := v.rec_, nbytes := 0 } .none

/-- Every reservation of a request given up, and the request itself dropped. -/
def dropReq (s : State) (id : Nat) : State :=
  let mine := s.dyn.rsvs.filter fun v => v.req == id && ! v.released
  dropWaiting (mine.foldl release s) fun r => r.id == id

/-- The command a purpose serves. -/
def Purpose_cmd : Purpose → Option Nat
  | .fetch id _ _ => some id
  | .cmdWr id _ => some id
  | .cmdAt id => some id
  | .cmdAck id => some id
  | .contrib id _ _ => some id
  | .gather id _ _ => some id
  | _ => none

/-- The unused remainders of the grants a command obtained, returned when it completes (R125). -/
def returnGrants (s : State) (id : Nat) : State :=
  (s.dyn.rsvs.filter fun v => Purpose_cmd v.why == some id && v.granted && ! v.released).foldl release s

/-- The transaction a response answers, closed (R108, R119): its slots, tag and allotment count return; a multicast stays open until every
target has answered. -/
def matchTxn (s : State) (p : Pkt) : Option (Txn × Bool × State) :=
  match s.dyn.txns.find? fun x => x.ep == p.dst && x.tag == p.tag with
  | none => none
  | some x =>
    let due := x.due.erase p.src
    if x.opc = .mcWr ∧ ! due.isEmpty then
      some (x, false, { s with dyn := { s.dyn with txns := updFirst (· == x) (fun y => { y with due := due }) s.dyn.txns } })
    else
      let s := { s with dyn := { s.dyn with txns := s.dyn.txns.erase x } }
      let s := giveFree s x.ep x.slots
      some (x, true, if x.allot then allotBack s x.ep x.dst else s)

/-- A response nothing waits for (R119, R129): a count still held in quarantine returns; the response is discarded and counted. -/
def lateRsp (s : State) (p : Pkt) : State :=
  let s := match s.dyn.quar.find? fun q => q.ep == p.dst && q.tag == p.tag && q.allot with
    | some q =>
      let s := allotBack s q.ep q.dst
      { s with dyn := { s.dyn with quar := updFirst (· == q) (fun q => { q with allot := false }) s.dyn.quar } }
    | none => s
  { s with dyn := { s.dyn with late := s.dyn.late + 1 } }

/-! ### At the destination -/

/-- Slots of a grant used by an arriving packet and freed when the endpoint consumes it (R117, R125). -/
def useGrant (s : State) (p : Pkt) : State :=
  let e := cisEp s p.dst
  match s.dyn.given.find? fun g => g.ep == e && g.src == p.src && decide (flits p ≤ g.slots) with
  | none => s
  | some g =>
    let left := g.slots - flits p
    let s := { s with dyn := { s.dyn with given :=
      (updFirst (· == g) (fun g => { g with slots := left }) s.dyn.given).filter fun g => g.slots != 0 } }
    giveFree (cisSub s e CisternStat.GRANTED (flits p)) e (flits p)

/-- A waiting request granted (R121-R123): RSV_GRANT goes back under its record number, with FLITS and MCOP in its payload (log 165, DESIGN CHOICE). -/
def grant (s : State) (r : CReq) : State :=
  let s := { s with dyn := { s.dyn with pend := s.dyn.pend.erase r,
                                        given := s.dyn.given ++ [⟨r.ep, r.src, r.rec_, r.tenant, r.flits⟩] } }
  let s := cisSub s r.ep CisternStat.PEND 1
  let s := cisAdd (takeFree s r.ep r.flits) r.ep CisternStat.GRANTED r.flits
  if injArmed s (epBlk r.ep) .timeout (fun k => k == 1) then injFire s (epBlk r.ep)
  else
    inject s { opc := .rsvGrant, src := r.ep, dst := r.src, tenant := r.tenant, prio := 3, tag := r.rec_, nbytes := 8,
               data := toLE 8 (r.mcop * 2 ^ 48 + (r.flits - 1)) }

/-- The units that record, each with an interface of its own (R652). -/
def recorder (e : Ep) : Bool :=
  match Ep_kind e with
  | .tile => true | .mep _ => true | .lp _ => true | .rte _ => true | .hp => true
  | _ => false

/-- Is TENANT 0 in place on a packet (R140)? Commands of the FMP service port, the HP and the test and flash service port, the responses to
them, and a recording unit's well-0 trace traffic (LAYER = OPID = 0xFFFF): the claim, the chunk's write, the reservations these need, and what
answers them. Log 131, DEDUCED. -/
def tenant0Ok (p : Pkt) : Bool :=
  let mgmt (e : Ep) := Ep_kind e == .fmp || Ep_kind e == .hp || Ep_kind e == .tfsp
  let well := p.layer == 0xFFFF && p.opid == 0xFFFF
  if isResponse p.opc then mgmt p.dst || (well && recorder p.dst && (match Ep_kind p.src with | .mep _ => true | _ => false) &&
    (p.opc == .wrAck || p.opc == .atRsp || p.opc == .errRsp || p.opc == .rsvGrant || p.opc == .ack))
  else mgmt p.src || (well && recorder p.src && (match Ep_kind p.dst with | .mep _ => true | _ => false) &&
    (p.opc == .atFadd || p.opc == .wr || p.opc == .rsvReq || p.opc == .rsvRelease))

/-- Does a multicast's rectangle hold a tile (R130)? -/
def rectIn (a tile : Nat) : Bool :=
  decide (bits a 51 49 ≤ tile % 8) && decide (tile % 8 ≤ bits a 48 46) && decide (bits a 45 43 ≤ tile / 8) && decide (tile / 8 ≤ bits a 42 40)

/-- Is a packet well-0 trace traffic (R140)? -/
def wellTraffic (p : Pkt) : Bool := p.tenant == 0 && p.layer == 0xFFFF && p.opid == 0xFFFF

/-- The answer to a packet whose TENANT a router refused (R140, R142): it carries that TENANT, and no check holds it up. Log 132, DESIGN CHOICE. -/
def refusal (p : Pkt) : Bool := p.opc == .errRsp && rspStatus p == .tenantViolation && (p.tenant == 0 || decide (64 ≤ p.tenant))

/-- The router's tenant check (R140). -/
def tenantOk (p : Pkt) : Bool := refusal p || (decide (p.tenant < 64) && (p.tenant != 0 || tenant0Ok p))

/-- A region-0x1 range inside tile t's own populated window. -/
def inWindow (t a n : Nat) : Bool :=
  region a == 1 && decide (t * 0x1000000 ≤ regOff a) && decide (regOff a + max n 1 ≤ t * 0x1000000 + 0x800000)

/-- A region-0x0 range inside one block that MEP m serves (R35, R36). -/
def inMep (m a n : Nat) : Bool :=
  region a == 0 && decide (regOff a + max n 1 ≤ 0x9000000000) && stackOf (regOff a) == m &&
    decide (regOff a % 4096 + max n 1 ≤ 4096)

/-- The request opcodes and addresses an endpoint accepts (R685). -/
def accepts (p : Pkt) : Bool :=
  let memOp := p.opc == .rdReq || p.opc == .wr || p.opc == .atFadd || p.opc == .atSwap || p.opc == .atCas
  if p.opc == .rsvReq || p.opc == .rsvRelease || isResponse p.opc || p.opc == .csrRd || p.opc == .csrWr then epExists p.dst
  else match Ep_kind p.dst with
    | .tile => (memOp && inWindow p.dst.tile p.addr (accessLen p)) || p.opc == .mcWr || p.opc == .msg || p.opc == .ctrAdd || p.opc == .redResult
    | .mep m => memOp && inMep m p.addr (accessLen p)
    | .lp _ => p.opc == .ctrAdd || p.opc == .redContrib || p.opc == .redResult
    | .rte _ => p.opc == .ctrAdd || p.opc == .redContrib || p.opc == .redResult
    | .hp => ((p.opc == .rdReq || p.opc == .wr) && region p.addr == 3) || p.opc == .mbx
    | .fmp => p.opc == .mbx || Ep_kind p.src == .fmp
    | .tfsp => p.opc == .mbx || Ep_kind p.src == .fmp
    | .ru => p.opc == .redContrib || (p.opc == .spSpill && p.src.chip == p.dst.chip && p.src.tile == p.dst.tile)
    | .sluice => p.opc == .sluDispatch || p.opc == .sluCombine
    | .absent => false

/-- Opcodes that reach the odd tile of a twin pair (R44): accesses to its own window. -/
def oddOk (p : Pkt) : Bool :=
  p.opc == .rdReq || p.opc == .wr || p.opc == .atFadd || p.opc == .atSwap || p.opc == .atCas || p.opc == .mcWr ||
  p.opc == .rsvReq || p.opc == .rsvRelease || isResponse p.opc

/-- May the packet's tenant enter DEP 0 or DEP 5 of its router (R141, R143, R544)? A response to well-0 trace traffic is not compared
(R140). -/
def ownerOk (s : State) (p : Pkt) : Bool :=
  if p.dst.dep = 0 ∨ p.dst.dep = 5 then
    ! injArmed s (.rtr p.dst.tile) .tenant (fun _ => true) && ((isResponse p.opc && wellTraffic p) || refusal p || tileAllows s p.tenant p.dst.tile)
  else true

/-- Has a packet that stands before `p` on the network still to be delivered at `e` first: one of the same source and priority (R135)? A multicast is
due at every tile of its rectangle that it has not reached. -/
def before (s : State) (p q : Pkt) (e : Ep) : Bool :=
  q.src == p.src && q.prio == p.prio &&
    (if q.opc = .mcWr then
      e.dep == 0 && q.dst.chip == e.chip && rectIn q.addr e.tile && ! s.dyn.told.contains (q.src, q.tag, e.tile)
    else q.dst == e)

/-- Is it a packet's turn at an endpoint (R135)? -/
def inTurn (s : State) (p : Pkt) (e : Ep) : Bool :=
  ! s.dyn.net.contains p || ! (s.dyn.net.takeWhile (· != p)).any fun q => before s p q e

/-- What becomes of a packet at its destination router, in its turn: the checks of R104, R106, R140, R40, R44, R141 and R685 in turn; one that passes
is handed to the endpoint, `k`. -/
def arrive (s : State) (p : Pkt) (k : State → State) : State :=
  if ! inTurn s p p.dst then s
  else
  let s := takeNet s p
  let u := unitCode .router p.dst.tile
  if ! hcrcOk p then badHcrc s u p
  else if let .bad _ := p.opc then log s (errPkt u .format 2 p .ok)
  else if ! tenantOk p then errTo (violation s (errPkt u .tenant 2 p .tenantViolation)) p .tenantViolation
  else if (p.dst.dep = 0 ∨ p.dst.dep = 5) ∧ ! good s p.dst.tile then errTo s p .regionFault
  else if (p.dst.dep = 0 ∨ p.dst.dep = 5) ∧ oddTwin s p.dst.tile ∧ ! oddOk p then errTo s p .regionFault
  else if ! ownerOk s p then
    let s := if injArmed s (.rtr p.dst.tile) .tenant (fun _ => true) then injFire s (.rtr p.dst.tile) else s
    errTo (violation s (errPkt u .tenant 2 p .tenantViolation)) p .tenantViolation
  else if ! accepts p then errTo (log s (errPkt (blkUnit (epBlk p.dst)) .format 2 p .regionFault)) p .regionFault
  else k (useGrant (tracePkt s (blkUnit (epBlk p.dst)) p 1 0xFF) p)

/-! ### Routing and router ports (R109-R116) -/

/-- Router ports of the dynamic plane: 0-3 the mesh links N, E, S, W; 16 + DEP an endpoint. -/
def epPort (dep : Nat) : Nat := 16 + dep

/-- The router a packet heads for on this package, and the DEP it leaves by there (R112-R114). -/
def headsFor (s : State) (p : Pkt) : Option (Nat × Nat) :=
  if p.dst.chip = myChip s then some (p.dst.tile, p.dst.dep)
  else (egressPort s p.src p.dst.chip).map fun n => ((lpEp 0 n).tile, 1)

/-- XY routing (R112): first x, then y, then DEP. -/
def xyPort (tile target dep : Nat) : Nat :=
  if tile % 8 < target % 8 then 1
  else if target % 8 < tile % 8 then 3
  else if tile / 8 < target / 8 then 2
  else if target / 8 < tile / 8 then 0
  else epPort dep

/-- OPC, TENANT, destination and TAG of a packet, as a sounding shows them (R663). -/
def vcHead (p : Pkt) : Nat :=
  p.opc.code * 2 ^ 55 + p.tenant * 2 ^ 47 + (p.dst.chip * 2 ^ 10 + p.dst.tile % 8 * 2 ^ 7 + p.dst.tile / 8 * 2 ^ 4 + p.dst.dep) * 2 ^ 29 + p.tag * 2 ^ 17

/-- The router port by which a packet leaves to its endpoint: a MEP has two channels (R28), and the source decides between them. Log 133, DESIGN CHOICE. -/
def exitPort (tile : Nat) (p : Pkt) (dep : Nat) : Nat :=
  match epKind tile dep with
  | .mep _ => if (p.src.tile + p.src.dep) % 2 = 1 then 24 else epPort dep
  | _ => epPort dep

/-- The router output a packet takes on its way to a router and DEP. -/
def outPort (tile target dep : Nat) (p : Pkt) : Nat := if tile = target then exitPort tile p dep else xyPort tile target dep

/-- The router and input port at the far end of a mesh output. -/
def farEnd (tile out : Nat) : Nat × Nat :=
  match out with
  | 0 => (tile - 8, 2) | 1 => (tile + 1, 3) | 2 => (tile + 8, 0)
  | _ => (tile - 1, 1)

/-- The tenant of the packet that a flit belongs to. -/
def flitTenant (f : VcFlit) : Nat := f.head / 2 ^ 47 % 256

/-- A flit of a packet that enters a virtual channel now. -/
def vcFlit (s : State) (tile inp : Nat) (outs : List Nat) (p : Pkt) (last : Bool) : VcFlit := ⟨tile, inp, vcOf p, outs, last, vcHead p, s.clk.now⟩

/-- Flits that a virtual channel holds or that are on the link to it: those that its sender's credits count (R109). -/
def vcLoad (s : State) (tile inp vc : Nat) : Nat :=
  (s.dyn.vcs.filter fun f => f.tile == tile && f.inp == inp && f.vc == vc).length +
    (s.dyn.wire.filter fun w => w.1 == tile && w.2.1 == inp && w.2.2.1 == vc).length

/-- Has a router output a credit for a virtual channel (R109)? An endpoint takes what its grants cover. -/
def hasCredit (s : State) (tile out vc : Nat) : Bool :=
  decide (4 ≤ out) || decide (vcLoad s (farEnd tile out).1 (farEnd tile out).2 vc < 4)

/-- The dateline class of a packet about to leave through a lane port of a direction (R115): 0 when it enters a new dimension, then 1 when
the link is the dimension's wrap link. -/
def nextClass (s : State) (prev : Option Nat) (d : TorusDir) (dclass : Nat) : Nat :=
  let p := posOf (myChip s)
  let z := torusSize s
  let x := if d.dim = 0 then p.1 else if d.dim = 1 then p.2.1 else p.2.2
  let n := if d.dim = 0 then z.1 else if d.dim = 1 then z.2.1 else z.2.2
  let c := match prev with
    | some q => if q = d.dim then dclass else 0
    | none => dclass
  if (d.neg ∧ x = 0) ∨ (! d.neg ∧ x + 1 = n) then 1 else c

/-- Is a flit the head of its virtual channel, its channel free at the output, and a place free behind it (R109)? -/
def vcReady (s : State) (tile out : Nat) (f : VcFlit) : Bool :=
  f.tile == tile && f.outs.contains out &&
  (s.dyn.vcs.find? fun g => g.tile == tile && g.inp == f.inp && g.vc == f.vc) == some f &&
  ! (s.dyn.holds.any fun h => h.tile == tile && h.out == out && h.vc == f.vc && h.inp != f.inp) && hasCredit s tile out f.vc

/-- The weights in force at an output (R111): those of its last packet boundary. -/
def outWeights (s : State) (tile out : Nat) : Word :=
  match s.dyn.weights.find? fun x => x.1 == 32 * tile + out with
  | some x => x.2
  | none => rd s (Reg.rtrDynArb tile)

/-- A packet boundary of an output (R111): with no packet under way, the register's weights come into force. -/
def latchWeights (s : State) (tile out : Nat) : State :=
  if s.dyn.holds.any fun h => h.tile == tile && h.out == out then s
  else { s with dyn := { s.dyn with weights := (s.dyn.weights.filter fun x => x.1 != 32 * tile + out) ++ [(32 * tile + out, rd s (Reg.rtrDynArb tile))] } }

/-- The weight of a priority at an output (R111): 0 is taken as 1. -/
def vcWeight (s : State) (tile out prio : Nat) : Nat :=
  let w := outWeights s tile out
  max 1 (if prio = 2 then getF w RtrDynArb.W2 else if prio = 1 then getF w RtrDynArb.W1 else getF w RtrDynArb.W0)

/-- The keys of an output's round-robin pointer and deficit for a priority. -/
def outKey (tile out prio : Nat) : Nat := (tile * 32 + out) * 4 + prio

/-- Among ready flits of one priority, the one whose input comes first at or after the pointer (R110). -/
def rrPick (s : State) (tile out prio : Nat) (l : List VcFlit) : Option VcFlit :=
  let ptr := eGet 0 (outKey tile out prio) s.dyn.rr
  let key (f : VcFlit) := (f.inp + 32 - ptr) % 32
  l.foldl (fun (o : Option VcFlit) f => match o with
    | none => some f
    | some g => if key f < key g then some f else some g) none

/-- A flit leaves by a router output: its virtual channel there is held or freed, the pointer moves, and a mesh output counts it and uses a credit
(R109, R110, R638). The flit leaves its buffer when every output has taken it (R133); a packet's end lets new weights in (R111). -/
def sendFlit (s : State) (f : VcFlit) (out : Nat) : State :=
  let k := outKey f.tile out (f.vc / 2)
  let hs := s.dyn.holds.filter fun h => ! (h.tile == f.tile && h.out == out && h.vc == f.vc)
  let outs := f.outs.erase out
  let same (g : VcFlit) : Bool := g.tile == f.tile && g.inp == f.inp && g.vc == f.vc
  let vcs := if outs.isEmpty then updFirst same (fun g => { g with since := s.clk.now }) (s.dyn.vcs.erase f)
    else updFirst (· == f) (fun g => { g with outs := outs }) s.dyn.vcs
  let far := farEnd f.tile out
  let s := { s with dyn := { s.dyn with
    vcs := vcs,
    holds := if f.last then hs else hs ++ [⟨f.tile, out, f.vc, f.inp, flitTenant f⟩],
    wire := if out < 4 then s.dyn.wire ++ [(far.1, far.2, f.vc, flitTenant f)] else s.dyn.wire,
    rr := eSet 0 k ((f.inp + 1) % 32) s.dyn.rr } }
  let s := if f.last then latchWeights s f.tile out else s
  if out < 4 then bump s (Reg.telLinkUtil f.tile out) TelLinkUtil.DFLITS 1 else s

/-- One router output in one cycle (R110): a ready P3 flit; else the highest priority with deficit left, refilled with its weight when every
ready priority has run out. -/
def outputStep (s : State) (tile out : Nat) : State :=
  let s := latchWeights s tile out
  let ready (s : State) (p : Nat) := s.dyn.vcs.filter fun f => vcReady s tile out f && f.vc / 2 == p
  match rrPick s tile out 3 (ready s 3) with
  | some f => sendFlit s f out
  | none =>
    let ps := [2, 1, 0].filter fun p => ! (ready s p).isEmpty
    if ps.isEmpty then s
    else
      let s := if ps.any fun p => eGet 0 (outKey tile out p) s.dyn.deficit != 0 then s
        else
          let d := ps.foldl (fun d p => eSet 0 (outKey tile out p) (vcWeight s tile out p) d) s.dyn.deficit
          { s with dyn := { s.dyn with deficit := d } }
      match ps.find? fun p => eGet 0 (outKey tile out p) s.dyn.deficit != 0 with
      | none => s
      | some p =>
        match rrPick s tile out p (ready s p) with
        | none => s
        | some f =>
          let k := outKey tile out p
          sendFlit { s with dyn := { s.dyn with deficit := eSet 0 k (eGet 0 k s.dyn.deficit - 1) s.dyn.deficit } } f out

/-- Every router output that has a flit, in one cycle. -/
def routersStep (s : State) : State :=
  (s.dyn.vcs.flatMap fun f => f.outs.map fun o => (f.tile, o)).dedup.foldl (fun s x => outputStep s x.1 x.2) s

/-- The response a discarding unit on the way sends for a packet (R116, R142). Log 77, DEDUCED. -/
def bounce (s : State) (p : Pkt) (st : Status) : State := errTo s p st

end Sys2Proof.Machine
end

