-- ==== Sys2Proof/Machine/Commands.lean ====
section
/-!
DEFINITION. Command rings, command starts, their checks and completion (chapter 10, kinds 0x01-0x07 and what every kind shares).
-/
namespace Sys2Proof.Machine

/-! ### Rings -/

/-- The key of a function's ring. -/
def ringKey (fn r : Nat) : Nat := 16 * fn + r

/-- A ring's working state. -/
def ring (s : State) (fn r : Nat) : RingRun := eGet {} (ringKey fn r) s.host.rings
def setRing (s : State) (fn r : Nat) (x : RingRun) : State :=
  { s with host := { s.host with rings := eSet {} (ringKey fn r) x s.host.rings } }

/-- A completion ring's working state. -/
def cq (s : State) (fn q : Nat) : CqRun := eGet {} (ringKey fn q) s.host.cqs
def setCq (s : State) (fn q : Nat) (x : CqRun) : State :=
  { s with host := { s.host with cqs := eSet {} (ringKey fn q) x s.host.cqs } }

/-- Slots of a command ring and records of a completion ring (R358). -/
def ringSize (s : State) (fn r : Nat) : Nat := 2 ^ fld s (Reg.hpCrCfg fn r) HpCrCfg.SIZEL2
def cqSize (s : State) (fn q : Nat) : Nat := 2 ^ fld s (Reg.hpCqCfg fn q) HpCqCfg.SIZEL2

/-- The completion ring of a command ring (R359). -/
def cqOf (s : State) (fn r : Nat) : Nat := fld s (Reg.hpCrCfg fn r) HpCrCfg.CQ

/-- A function's STATE (R357): 0 disabled, 1 ready, 2 resetting, 3 recovering. -/
def fnState (s : State) (fn : Nat) : Nat := fld s (Reg.hpFnStat fn) HpFnStat.STATE
def setFnState (s : State) (fn v : Nat) : State := setFld s (Reg.hpFnStat fn) HpFnStat.STATE v

/-- The executor of a ring (R359). -/
def ringEx (s : State) (fn r : Nat) : Ep :=
  let c := Reg.hpCrCfg fn r
  match fld s c HpCrCfg.EXU with
  | 1 => ⟨myChip s, fld s c HpCrCfg.XTILE, 0⟩
  | 2 => rteEp (myChip s) 0
  | 3 => rteEp (myChip s) 1
  | _ => hpEp (myChip s)

/-- Does a ring of a ready function run (R365, R385)? -/
def ringOn (s : State) (fn r : Nat) : Bool :=
  decide (fn < 64) && decide (r < 16) && fnState s fn == 1 && s.host.linkUp && flag s (Reg.hpCrCfg fn r) HpCrCfg.EN

/-- A counter of a ring's executor (R360, R363). -/
def exCtr (s : State) (fn r : Nat) (f : Fld) : Nat :=
  fld s (Reg.ctr (epBlk (ringEx s fn r)) (fld s (Reg.hpCrCfgb fn r) f)) Ctr.VALUE

/-- How far one count modulo 2^32 lies ahead of another. -/
def ahead (a b : Nat) : Nat :=
  let d := (a + 2 ^ 32 - b % 2 ^ 32) % 2 ^ 32
  if d < 2 ^ 31 then d else 0

/-- Does the HP itself execute a ring and keep its counts (R363)? -/
def hpRuns (s : State) (fn r : Nat) : Bool := ringEx s fn r == hpEp (myChip s)

/-- Published slots that a ring's executor has not fetched (R363): the published count is the HP's own, or counter DBCTR at the executor. -/
def toFetch (s : State) (fn r : Nat) : Nat :=
  ahead (if hpRuns s fn r then (ring s fn r).published else exCtr s fn r HpCrCfgb.DBCTR) (ring s fn r).fetched

/-- Records of a ring's completion ring that the executor does not know released (R363, R374): the HP's own count, or counter CQCTR. -/
def recHeld (s : State) (fn r : Nat) : Nat :=
  let k := cq s fn (cqOf s fn r)
  ahead k.written (if hpRuns s fn r then k.released else exCtr s fn r HpCrCfgb.CQCTR + 2 ^ 32 - k.base % 2 ^ 32)

/-- Does a waiting request add to the same counter for the same function as `p`? -/
def sameAdd (p : Pkt) (r : Req) : Bool :=
  r.pkt.opc == .ctrAdd && r.pkt.src == p.src && r.pkt.dst == p.dst && r.pkt.tenant == p.tenant && r.pkt.addr == p.addr && r.why == .none

/-- A CTR_ADD of the HP to an executor's counter (R363); the HP executor keeps its counts itself. An advance merges into one that the HP has
not been able to forward yet (R365). -/
def hpCount (s : State) (fn : Nat) (ex : Ep) (ctr n : Nat) : State :=
  if ex = hpEp (myChip s) ∨ n = 0 then s
  else
    let p : Pkt := { opc := .ctrAdd, src := hpEp (myChip s), dst := ex, tenant := fn, prio := 2, addr := ctr, nbytes := 5,
                     layer := 0xFFFF, opid := 0xFFFF, data := toLE 4 n ++ [0] }
    if s.dyn.waiting.any (sameAdd p) then
      let f (r : Req) : Req := { r with pkt := { r.pkt with data := toLE 4 (ofLE (slice r.pkt.data 0 4) + n) ++ [0] } }
      { s with dyn := { s.dyn with waiting := updFirst (sameAdd p) f s.dyn.waiting } }
    else enqueue s p .none

/-! ### Completion records (R378-R382) -/

/-- A record's 256 bits (R378). -/
def recordBits (s : State) (c : Cmd) (r : Nat) (phase : Bool) : Nat :=
  c.detail % 2 ^ 64 * 2 ^ 192 + timeNs s * 2 ^ 128 + c.bytes % 2 ^ 32 * 2 ^ 96 + Desc_user c.desc * 2 ^ 80 + c.slot * 2 ^ 64 +
  c.status.code * 2 ^ 56 + Desc_cmd c.desc * 2 ^ 48 + r * 2 ^ 44 + b2n phase

/-- A record written to a ring's completion ring and its vector signalled when the ring is armed or `irq` is set (R378, R382);
with the host link lost it is discarded and counted (R385). -/
def writeRecord (s : State) (fn r : Nat) (c : Cmd) (irq : Bool) : State :=
  if ! s.host.linkUp then { s with host := { s.host with lost := s.host.lost + 1 } }
  else
    let q := cqOf s fn r
    let k := cq s fn q
    let a := fld s (Reg.hpCqCfg fn q) HpCqCfg.BASE * 64 + 32 * k.widx
    let s := { s with host := { s.host with out := s.host.out ++ [.record fn q k.widx a (recordBits s c r k.phase)] } }
    let w := (k.widx + 1) % cqSize s fn q
    let s := setCq s fn q { k with widx := w, phase := if w = 0 then ! k.phase else k.phase, written := (k.written + 1) % 2 ^ 32,
                                   armed := k.armed && ! (k.armed || irq) }
    if k.armed || irq then signal s fn (fld s (Reg.hpCqCfg fn q) HpCqCfg.VEC) else s

/-! ### Fetching descriptors (R370-R372) -/

/-- REREAD and STALE in cycles (R373: units of 8 ns, 0 is taken as 1). -/
def rereadCycles (s : State) : Nat := cycleAt (8 * max 1 (fld s Reg.hpCfg HpCfg.REREAD))
def staleCycles (s : State) : Nat := cycleAt (8 * max 1 (fld s Reg.hpCfg HpCfg.STALE))

/-- Slots a descriptor takes with its inline data (R368). -/
def descSlots (d : Nat) : Nat := 1 + ceilDiv (min 192 (Desc_inlen d)) 64

/-- A descriptor and its inline bytes read from four slots. -/
def descOf (bs : List Byte) : Nat × List Byte :=
  let d := ofLE (slice bs 0 64)
  (d, slice bs 64 (min 192 (Desc_inlen d)))

/-- Is a descriptor valid for an expected phase (R370)? -/
def descValid (phase : Bool) (d : Nat) (inl : List Byte) : Bool := Desc_phase d == phase && Desc_check d == descCheck d inl

/-- A ring-level failure (R366, R372): one record with SLOT equal to HEAD and USER zero, and the ring stalls; a dead ring stays
dead. The record is written whether or not
the completion ring has a free one (log 156, DESIGN CHOICE). -/
def ringFail (s : State) (fn r : Nat) (st : Status) : State :=
  let h := fld s (Reg.hpCrStat fn r) HpCrStat.HEAD
  let x := Reg.hpCrStat fn r
  let s := setFld (if fld s x HpCrStat.STATE = 3 then s else setFld s x HpCrStat.STATE 2) x HpCrStat.STATUS st.code
  let s := setRing s fn r { ring s fn r with t0 := none, need := 0, stale := true }
  writeRecord s fn r { id := 0, src := .ring fn r, ex := ringEx s fn r, tenant := fn, desc := 0, slot := h, status := st } false

/-- A ring dead (STATE 3), the consuming context of poisoned data that reached it (R370, R607); a ring already dead writes no further
record (R609). -/
def ringDead (s : State) (fn r : Nat) : State :=
  let x := Reg.hpCrStat fn r
  if fld s x HpCrStat.STATE = 3 then s
  else
    let s := setFld (setFld s x HpCrStat.STATE 3) x HpCrStat.STATUS Status.poisoned.code
    log s { errOf (unitCode .hp 0) .poisonin 2 with tenant := fn, status := .poisoned }

/-- A valid and fully published descriptor taken: HEAD advances past its slots, the expected phase inverts when HEAD wraps to slot 0
(R370, R371). -/
def takeDesc (s : State) (fn r d : Nat) (inl : List Byte) (psn : Bool) : State :=
  let n := descSlots d
  let h := fld s (Reg.hpCrStat fn r) HpCrStat.HEAD
  let size := ringSize s fn r
  let x := ring s fn r
  let s := setFld s (Reg.hpCrStat fn r) HpCrStat.HEAD ((h + n) % size)
  setRing s fn r { x with fetched := (x.fetched + n) % 2 ^ 32, t0 := none, need := 0, queue := x.queue ++ [⟨h, d, inl, psn⟩],
                          phase := if size ≤ h + n then ! x.phase else x.phase }

/-- The data of a fetch or re-read judged (R371, R372, R377). Log 15, DEDUCED. Log 68, DEDUCED. -/
def judgeFetch (s : State) (fn r : Nat) (h : HostData) : State :=
  let x := ring s fn r
  let judge (s : State) (bs : List Byte) (psn : Bool) : State :=
    let d := descOf bs
    if descValid x.phase d.1 d.2 then
      if toFetch s fn r < descSlots d.1 then setRing s fn r { x with t0 := none, need := descSlots d.1 } else takeDesc s fn r d.1 d.2 psn
    else
      let t0 := x.t0.getD s.clk.now
      if s.clk.now + rereadCycles s < t0 + staleCycles s then setRing s fn r { x with t0 := some t0, lastData := s.clk.now }
      else ringFail s fn r .ringStale
  let urHit := injArmed s .hp .host (fun _ => true)
  let s := if urHit then injFire s .hp else s
  match (if urHit then .unsupported else h) with
  | .unsupported => ringFail s fn r .regionFault
  | .completerAbort => ringFail s fn r .regionFault
  | .ok bs => judge s bs false
  | .poisoned bs => judge (ringDead s fn r) bs true

/-- May the executor fetch a ring's next descriptor (R363, R371)? A stalled ring waits for its doorbell, and a descriptor whose inline slots
are not published yet for the doorbell that publishes them; a dead one still completes its descriptors. -/
def mayFetch (s : State) (fn r : Nat) : Bool :=
  let st := fld s (Reg.hpCrStat fn r) HpCrStat.STATE
  ringOn s fn r && (st == 1 || st == 3) && ! (ring s fn r).stale && decide (0 < toFetch s fn r) &&
    decide ((ring s fn r).need ≤ toFetch s fn r)

/-- The region-0x3 reads of a fetch (R371): the slot at HEAD and the three after it, split where they pass the end of the ring. -/
def fetchReads (s : State) (fn r : Nat) : List HostOut :=
  let base := fld s (Reg.hpCrCfg fn r) HpCrCfg.BASE * 64
  let h := fld s (Reg.hpCrStat fn r) HpCrStat.HEAD
  let k := min 4 (ringSize s fn r - h)
  .read fn (base + 64 * h) (64 * k) :: (if k < 4 then [.read fn base (64 * (4 - k))] else [])

/-- A fetch or re-read: its reads go to the host, whose answer is judged (R371, R372). The HP arbiter's locked sequence is in its requests
(log 178). -/
def fetchDesc (s : State) (fn r : Nat) (h : HostData) : State :=
  judgeFetch { s with host := { s.host with out := s.host.out ++ fetchReads s fn r } } fn r h

/-! ### Starting commands (R374, R367, R260) -/

/-- Does a started command come from a ring? -/
def fromRing (fn r : Nat) (c : Cmd) : Bool := match c.src with | .ring f q => f == fn && q == r | _ => false

/-- Does a started command come from a tile's control core? -/
def fromCore (tile : Nat) (c : Cmd) : Bool := match c.src with | .core t _ _ => t == tile | _ => false

/-- Does a ring have a command that waits in a send queue (R436)? Its later commands wait behind it. -/
def qpHolds (s : State) (mine : Cmd → Bool) : Bool :=
  s.host.cmds.any fun c => mine c && s.rte.qps.any fun x => x.2.sendQ.any fun p => p.cmd == some c.id

/-- Does FENCE hold a command back (R368, R367)? -/
def fenced (s : State) (src : CmdSrc) (d : Nat) : Bool :=
  Desc_fence d && match src with
    | .ring fn r => s.host.cmds.any (fromRing fn r)
    | .core t _ _ => s.host.cmds.any (fromCore t)
    | .held t => s.host.cmds.any (fromCore t)
    | .trig _ => false

/-- The endpoint at which a trigger table issues its commands. -/
def blkEp (s : State) : Blk → Ep
  | .lp n => lpEp (myChip s) n
  | .rte n => rteEp (myChip s) n
  | .tni t => ⟨myChip s, t, 0⟩
  | .mep n => mepEp (myChip s) n
  | .rtr t => ⟨myChip s, t, 4⟩
  | .hp => hpEp (myChip s)
  | _ => fmpEp (myChip s)

/-- The TENANT a source interface stamps on a ring's command (R140): its partition's at a tile, else the ring's function. -/
def exTenant (s : State) (fn : Nat) (e : Ep) : Nat := match Ep_kind e with | .tile => owner s e.tile | _ => fn

/-- The command a source offers next, if it may start: the front of the ring's fetched descriptors, when its completion ring has a free
record and FENCE does not hold it (R374); the core's descriptor, when no other waits at its interface, or the first that
waits there (R367); the front of the table's issued commands (R260). -/
def offered (s : State) : CmdSrc → Option Cmd
  | .ring fn r =>
    if ! s.host.linkUp || fnState s fn != 1 || qpHolds s (fromRing fn r) then none
    else match (ring s fn r).queue with
      | [] => none
      | f :: _ =>
        let k := cq s fn (cqOf s fn r)
        if fenced s (.ring fn r) f.desc ∨ cqSize s fn (cqOf s fn r) ≤ k.started + recHeld s fn r then none
        else some { id := s.host.nextCmd, src := .ring fn r, ex := ringEx s fn r, tenant := exTenant s fn (ringEx s fn r), desc := f.desc, inl := f.inl,
                    slot := f.slot, poison := f.psn }
  | .core t d inl =>
    if fenced s (.core t d inl) d ∨ 64 ≤ t ∨ (s.host.coreHeld.any fun h => h.1 == t) ∨ (Desc_cmd d ≠ 9 ∧ (! good s t ∨ oddTwin s t)) then none
    else some { id := s.host.nextCmd, src := .core t d inl, ex := ⟨myChip s, t, 0⟩, tenant := owner s t, desc := d, inl := inl }
  | .held t =>
    match s.host.coreHeld.find? fun h => h.1 == t with
    | none => none
    | some h =>
      if fenced s (.held t) h.2.1 then none
      else some { id := s.host.nextCmd, src := .core t h.2.1 h.2.2, ex := ⟨myChip s, t, 0⟩, tenant := owner s t, desc := h.2.1, inl := h.2.2 }
  | .trig b =>
    match s.trig.issued.find? fun i => i.blk == b && tableOn s b with
    | none => none
    | some i => some { id := s.host.nextCmd, src := .trig b, ex := blkEp s b, tenant := fld s (Reg.trigb b i.e) Trigb.TENANT,
                       desc := i.desc, trig := some (b, i.e) }

/-- The source's offer taken. -/
def takeOffer (s : State) : CmdSrc → State
  | .ring fn r =>
    let x := ring s fn r
    let s := setRing s fn r { x with queue := x.queue.drop 1 }
    let q := cqOf s fn r
    let k := cq s fn q
    setCq s fn q { k with started := k.started + 1 }
  | .core _ _ _ => s
  | .held t => { s with host := { s.host with coreHeld := dropFirst (fun h => h.1 == t) s.host.coreHeld } }
  | .trig b => { s with trig := { s.trig with issued := dropFirst (fun i => i.blk == b) s.trig.issued } }

/-- A core's descriptor that must wait stays at the tile's interface, behind those the core presented before it (R367). -/
def holdCore (s : State) : CmdSrc → State
  | .core t d inl =>
    if 64 ≤ t ∨ ! good s t ∨ oddTwin s t then s
    else { s with host := { s.host with coreHeld := s.host.coreHeld ++ [(t, d, inl)] } }
  | _ => s

/-- The kind of the descriptor that a core presents with a command. -/
def coreKind : CmdSrc → Option Nat
  | .core _ d _ => some (Desc_cmd d)
  | _ => none

/-- A CMD trace record (R654, R655). -/
def traceCmd (s : State) (c : Cmd) (done : Bool) : State :=
  let fr := match c.src with | .ring f r => (f, r) | _ => (0, 0)
  traceTo s c.tenant takesCmd (blkUnit (epBlk c.ex)) 2 (Desc_layer c.desc) (Desc_opid c.desc)
    (toLE 1 (Desc_cmd c.desc) ++ toLE 1 c.status.code ++ toLE 1 (b2n done) ++ toLE 1 fr.1 ++ toLE 1 fr.2 ++ [0] ++ toLE 2 c.slot ++
      toLE 4 c.bytes ++ toLE 2 (Desc_user c.desc))

/-- Is the context that would own the command already dead (R607)? -/
def srcDead (s : State) : CmdSrc → Bool
  | .ring fn r => fld s (Reg.hpCrStat fn r) HpCrStat.STATE == 3
  | .core t _ _ => flag s (Reg.tniCoreCtx t) TniCoreCtx.DEAD
  | .held t => flag s (Reg.tniCoreCtx t) TniCoreCtx.DEAD
  | .trig _ => false

/-- A command entered among the started ones. -/
def addCmd (s : State) (c : Cmd) : State :=
  traceCmd { s with host := { s.host with cmds := s.host.cmds ++ [c], nextCmd := s.host.nextCmd + 1 } } c false

/-- A started command changed. -/
def updCmd (s : State) (id : Nat) (f : Cmd → Cmd) : State :=
  { s with host := { s.host with cmds := updFirst (fun c => c.id == id) f s.host.cmds } }

/-- A started command. -/
def cmdOf (s : State) (id : Nat) : Option Cmd := s.host.cmds.find? fun c => c.id == id

/-- A command's first failure (a success leaves the status). -/
def failWith (st : Status) (c : Cmd) : Cmd := if c.status.good && ! st.good then { c with status := st } else c

/-- A command that ends with a status before anything moves. -/
def endAt (s : State) (c : Cmd) (st : Status) : State := addCmd s { c with status := st }

/-- Is the command kind an encoded one (R369)? -/
def kindKnown (k : Nat) : Bool := decide (1 ≤ k) && decide (k ≤ 11)

/-- A command of kind `kind` started: the source's offer is taken when it is of that kind and may start; a dead context completes it
`ST_POISONED` without acting (R607); otherwise `k` checks and runs it. -/
def startCmd (s : State) (src : CmdSrc) (kind : Nat → Bool) (k : State → Cmd → State) : State :=
  match offered s src with
  | none => if (coreKind src).any kind then holdCore s src else s
  | some c =>
    if ! kind (Desc_cmd c.desc) then s
    else
      let dead := srcDead s src
      let s := takeOffer s src
      if dead then endAt s c .poisoned else k s c

/-! ### The checks of R376 -/

/-- Is the executor the HP (R376)? -/
def atHp (c : Cmd) : Bool := Ep_kind c.ex == .hp

/-- Is the executor a tile, or the command issued by a descriptor store (R369)? -/
def atTileOrStore (c : Cmd) : Bool := Ep_kind c.ex == .tile || c.trig.isSome

/-- The rectangle of an MC_WR address (R130): X0, X1, Y0, Y1 and the offset. -/
structure Rect where
  x0 : Nat
  x1 : Nat
  y0 : Nat
  y1 : Nat
  off : Nat
  deriving DecidableEq, Repr

/-- The rectangle an address gives (R130). -/
def rectOf (a : Nat) : Rect := ⟨bits a 51 49, bits a 48 46, bits a 45 43, bits a 42 40, bits a 23 0⟩

/-- The tiles of a rectangle, ascending. -/
def Rect.tiles (r : Rect) : List Nat :=
  (List.range 64).filter fun t => decide (r.x0 ≤ t % 8) && decide (t % 8 ≤ r.x1) && decide (r.y0 ≤ t / 8) && decide (t / 8 ≤ r.y1)

/-- The packages an MCAST_WRITE names (R375). -/
def mcChips (d : Nat) : List Nat :=
  (List.range (Desc_a1chip d + 1 - Desc_a0chip d)).map fun i => Desc_a0chip d + i

/-- Check 1 of R131. -/
def rectBad (d : Nat) : Bool :=
  let r := rectOf (Desc_a0 d)
  decide (r.x1 < r.x0) || decide (r.y1 < r.y0) || decide (512 < r.tiles.length * (mcChips d).length) || (mcChips d).isEmpty

/-- A destination that lies outside the windows of region 0x1 (R130, R37). -/
def rectOut (d : Nat) : Bool :=
  let a := Desc_a0 d
  region a != 1 || bits a 39 24 != 0 || decide (0x800000 < bits a 23 0 + max 1 (Desc_len d))

/-- Check 2 of R131: a good tile of the local rectangle outside the tenant's partition. -/
def rectForeign (s : State) (tenant d : Nat) : Bool :=
  (mcChips d).contains (myChip s) && (rectOf (Desc_a0 d)).tiles.any fun t => good s t && ! tileAllows s tenant t

/-- Checks 3 and 4 of R131. -/
def rectCheck (s : State) (d : Nat) : Option Status :=
  if (mcChips d).contains (myChip s) ∧ (rectOf (Desc_a0 d)).tiles.any fun t => ! good s t then some .regionFault
  else if (mcChips d).any fun c => ! inTorus s c then some .peerUnreachable
  else none

/-- Does a target endpoint accept a RED_CONTRIB or a CTR_ADD (R685)? -/
def takesContrib (e : Ep) : Bool := match Ep_kind e with | .ru => true | .lp _ => true | .rte _ => true | _ => false
def takesCtrAdd (e : Ep) : Bool := match Ep_kind e with | .tile => true | .lp _ => true | .rte _ => true | _ => false

/-- Two ranges overlap. -/
def overlap (a n b m : Nat) : Bool := decide (a < b + m) && decide (b < a + n)

/-- The ranges a command of kinds 1-7 names: package, address, length. -/
def cmdRanges (s : State) (c : Cmd) : List (Nat × Nat × Nat) :=
  let d := c.desc
  match Desc_cmd d with
  | 2 => [(Desc_a0chip d, Desc_a0 d, Desc_len d), (Desc_a1chip d, Desc_a1 d, Desc_len d)]
  | 3 => [(Desc_a0chip d, Desc_a0 d, Desc_len d)]
  | 4 => [(Desc_a0chip d, Desc_a0 d, Desc_len d)]
  | 5 => [(myChip s, Desc_a1 d, Desc_len d)]
  | 6 => [(Desc_a0chip d, Desc_a0 d, Desc_len d)]
  | _ => []

/-- The target endpoint of CONTRIB and CTR_ADD. -/
def cmdTarget (c : Cmd) : Option Ep := if Desc_cmd c.desc = 6 ∨ Desc_cmd c.desc = 7 then some (Desc_target c.desc) else none

/-- Row 1 of R376: what makes a descriptor malformed. -/
def descMalformed (c : Cmd) : Bool :=
  let d := c.desc
  let k := Desc_cmd d
  let n := Desc_inlen d
  let w := elemWidth (Desc_efmt d)
  let inlOk := match k with
    | 3 => n == Desc_len d
    | 4 => n == (if Desc_aop d = 2 then 2 * Desc_len d else Desc_len d)
    | _ => n == 0
  let prioBad := (k == 2 || k == 3 || k == 4 || k == 5 || k == 6) && (Desc_prio d == 3 || ((k == 4 || k == 6) && Desc_prio d == 0))
  bits d 47 3 != 0 || bits d 317 128 != 0 || decide (192 < n) || ! inlOk || c.inl.length != n || prioBad ||
    (Desc_cen d && atHp c) || (k == 4 && Desc_aop d == 3) ||
    (k == 4 && ! ((Desc_len d == 4 || Desc_len d == 8) && Desc_a0 d % max 1 (Desc_len d) == 0)) ||
    (w != 0 && Desc_len d % w != 0) ||
    (k == 2 && Desc_a0chip d == Desc_a1chip d && overlap (Desc_a0 d) (Desc_len d) (Desc_a1 d) (Desc_len d)) ||
    (k == 5 && (decide (4096 < Desc_len d) || rectBad d))

/-- Row 2 of R376. -/
def cmdForeign (s : State) (c : Cmd) : Bool :=
  (cmdRanges s c).any (fun r => rangeForeign s c.tenant r.1 r.2.1 r.2.2) ||
    (match cmdTarget c with | some e => targetForeign s c.tenant e | none => false) ||
    (Desc_cmd c.desc == 5 && rectForeign s c.tenant c.desc)

/-- Row 3 of R376: the kind's row of R214. -/
def cmdFmtOk (c : Cmd) : Bool :=
  let d := c.desc
  match Desc_cmd d with
  | 2 => fmtPlain (Desc_efmt d) (Desc_sfmt d) (Desc_wire d)
  | 3 => fmtPlain (Desc_efmt d) (Desc_sfmt d) (Desc_wire d)
  | 5 => fmtPlain (Desc_efmt d) (Desc_sfmt d) (Desc_wire d)
  | 6 => fmtContrib (Desc_efmt d) (Desc_sfmt d) (Desc_wire d)
  | _ => fmtNone (Desc_efmt d) (Desc_sfmt d) (Desc_wire d)

/-- Row 5 of R376. -/
def cmdRegion (s : State) (c : Cmd) : Option Status :=
  let d := c.desc
  let a := (cmdRanges s c).findSome? fun r => rangeCheck s false r.1 r.2.1 r.2.2
  match a with
  | some x => some x
  | none =>
    match Desc_cmd d with
    | 4 => if region (Desc_a0 d) = 3 then some .regionFault else none
    | 5 => if rectOut d then some .regionFault else rectCheck s d
    | 6 => match targetCheck s (Desc_target d) with
      | some x => some x
      | none => if takesContrib (Desc_target d) then none else some .regionFault
    | 7 => match targetCheck s (Desc_target d) with
      | some x => some x
      | none => if takesCtrAdd (Desc_target d) then none else some .regionFault
    | _ => none

/-- The checks of R376 in their order; `some` status ends the command. -/
def checkCmd (s : State) (c : Cmd) : Option Status :=
  if descMalformed c then some .badDescriptor
  else if Desc_cmd c.desc = 6 ∧ ! atTileOrStore c then some .badDescriptor
  else if cmdForeign s c then some .tenantViolation
  else if ! cmdFmtOk c then some .formatUnsupported
  else if 0x80000000 < Desc_len c.desc then some .lengthRange
  else match cmdRegion s c with
    | some st => some st
    | none => if Desc_len c.desc = 0 then some .ok else none

/-! ### The bodies (R375) -/

/-- A packet of a command: its labels, tenant, format and priority (R375, R648). -/
def cmdPkt (c : Cmd) (opc : Opc) (dst : Ep) (addr n : Nat) (data : List Byte) : Pkt :=
  { opc := opc, src := c.ex, dst := dst, tenant := c.tenant, prio := Desc_prio c.desc, addr := addr, nbytes := n,
    efmt := Desc_efmt c.desc, layer := Desc_layer c.desc, opid := Desc_opid c.desc, data := data }

/-- The pieces of a copy: split at every 4 KiB boundary of source or destination (R36, R375). -/
def copyPieces : Nat → Nat → Nat → Nat → List (Nat × Nat × Nat)
  | 0, _, _, _ => []
  | k + 1, a, b, n =>
    if n = 0 then [] else
      let m := min n (min (4096 - a % 4096) (4096 - b % 4096))
      (a, b, m) :: copyPieces k (a + m) (b + m) (n - m)

/-- The pieces of COPY in ascending address order. -/
def copyPlan (c : Cmd) : List (Nat × Nat × Nat) :=
  copyPieces (2 * (Desc_len c.desc / 4096) + 4) (Desc_a0 c.desc) (Desc_a1 c.desc) (Desc_len c.desc)

/-- COPY started: one read per piece, whose data goes out as a write to the destination. -/
def runCopy (s : State) (c : Cmd) : State :=
  let ps := copyPlan c
  let s := addCmd s { c with left := ps.length }
  ps.foldl (fun s p =>
    let rdp := cmdPkt c .rdReq (homeEp s (Desc_a0chip c.desc) p.1) p.1 p.2.2 []
    let w := cmdPkt c .wr (homeEp s (Desc_a1chip c.desc) p.2.1) p.2.1 p.2.2 []
    enqueue s rdp (.fetch c.id w (.cmdWr c.id p.2.2))) s

/-- WRITE_INLINE started. -/
def runWriteInline (s : State) (c : Cmd) : State :=
  let a := Desc_a0 c.desc
  let ps := pieces a (Desc_len c.desc)
  let s := addCmd s { c with left := ps.length }
  ps.foldl (fun s p =>
    enqueue s (cmdPkt c .wr (homeEp s (Desc_a0chip c.desc) p.1) p.1 p.2 (slice c.inl (p.1 - a) p.2)) (.cmdWr c.id p.2)) s

/-- ATOMIC started. -/
def runAtomic (s : State) (c : Cmd) : State :=
  let o := if Desc_aop c.desc = 0 then Opc.atFadd else if Desc_aop c.desc = 1 then Opc.atSwap else Opc.atCas
  let a := Desc_a0 c.desc
  let s := addCmd s { c with left := 1 }
  enqueue s { cmdPkt c o (homeEp s (Desc_a0chip c.desc) a) a c.inl.length c.inl with efmt := 0 } (.cmdAt c.id)

/-- The source reads of a command that gathers its data first (R375): `n` bytes at `a` of package `chip`. -/
def gatherReads (s : State) (c : Cmd) (chip a n : Nat) : State :=
  (pieces a n).foldl (fun s p =>
    enqueue s (cmdPkt c .rdReq (homeEp s chip p.1) p.1 p.2 []) (.gather c.id (p.1 - a) p.2)) s

/-- MCAST_WRITE started: the data is read from A1 on the executor's own package before the multicast reserves its targets (R130-R132). -/
def runMcast (s : State) (c : Cmd) : State := gatherReads (addCmd s { c with left := 1 }) c (myChip s) (Desc_a1 c.desc) (Desc_len c.desc)

/-- CONTRIB started: the data is read from A0 on package A0CHIP. -/
def runContrib (s : State) (c : Cmd) : State := gatherReads (addCmd s { c with left := 1 }) c (Desc_a0chip c.desc) (Desc_a0 c.desc) (Desc_len c.desc)

/-- CTR_ADD started: always at P2 (R375). -/
def runCtrAdd (s : State) (c : Cmd) : State :=
  let s := addCmd s { c with left := 1 }
  enqueue s { cmdPkt c .ctrAdd (Desc_target c.desc) (bits (Desc_a1 c.desc) 10 0) 5 (toLE 4 (Desc_len c.desc) ++ [0]) with
              prio := 2, efmt := 0 } (.cmdAck c.id)

/-- The targets of an MCAST_WRITE in ascending (DCHIP, tile ID) order (R132). -/
def mcTargets (c : Cmd) : List Ep :=
  (mcChips c.desc).flatMap fun ch => (rectOf (Desc_a0 c.desc)).tiles.map fun t => ⟨ch, t, 0⟩

/-- MC_WR of the gathered data (R130). -/
def sendMcast (s : State) (c : Cmd) (data : List Byte) (psn : Bool) : State :=
  let r := rectOf (Desc_a0 c.desc)
  enqueue s { cmdPkt c .mcWr ⟨Desc_a0chip c.desc, 8 * r.y0 + r.x0, 0⟩ (Desc_a0 c.desc) data.length data with poison := psn }
    (.cmdWr c.id data.length) (mcTargets c)

/-! ### Packets of a contribution (R187, R195, R203, R228) -/

/-- Byte strings of at most `n`. -/
def chunks (n : Nat) : Nat → List Byte → List (List Byte)
  | 0, _ => []
  | k + 1, bs => if bs.isEmpty then [] else bs.take n :: chunks n k (bs.drop n)

/-- Whole units collected into packets whose units take at most 4,088 bytes and are at most `most` (R203): pairs of first unit index and units. -/
def packUnits (most : Nat) : List (List Byte) → Nat → Nat → List (List Byte) → Nat → List (Nat × List (List Byte))
  | [], first, _, cur, _ => if cur.isEmpty then [] else [(first, cur)]
  | u :: r, first, next, cur, sz =>
    if sz + u.length ≤ 4088 ∧ cur.length < most then packUnits most r first (next + 1) (cur ++ [u]) (sz + u.length)
    else (first, cur) :: packUnits most r next (next + 1) [u] u.length

/-- Units of `span` bytes in dense form that one packet may hold, so that it covers at most `win` positions (R203, R230; log 175, DEDUCED). -/
def unitsIn (win span : Nat) : Nat := max 1 (min 127 (128 * win / max 1 span - if span < 128 then 1 else 0))

/-- The payload of a packet of units with its segment head (R202). -/
def unitPayload (first : Nat) (us : List (List Byte)) : List Byte := segPrefix first us.length ++ us.flatten

/-- Groups of `n` elements. -/
def groupsOf (n : Nat) : Nat → List Nat → List (List Nat)
  | 0, _ => []
  | k + 1, es => if es.isEmpty then [] else es.take n :: groupsOf n k (es.drop n)

/-- Already encoded bitmap groups, cut at their sizes (R206, R211). -/
def cutBitmap (w : Nat) : Nat → List Byte → List (List Byte)
  | 0, _ => []
  | k + 1, bs =>
    if bs.isEmpty then [] else
      let n := max 32 (bitmapUngroup w bs).2
      bs.take n :: cutBitmap w k (bs.drop n)

/-- A payload of elements in wire form (R195): its bytes, the position it begins at, EFMT on the wire, SFMT, the events, the first position it
covers and how many (R228), and the source bytes it carries (R213). -/
structure WirePkt where
  pos : Nat
  efmt : Nat
  sfmt : Nat
  data : List Byte
  ev : FmtEvents := {}
  first : Nat := 0
  npos : Nat := 0
  from_ : Nat := 0
  past : Nat := 0
  deriving DecidableEq, Repr

/-- Dense elements under a wire mode (R195): NATIVE and TRIM16 in packets of 32 flits, BS8 in whole blocks, each of at most `win` positions (R230). -/
def wireDense (win efmt wire pos : Nat) (data : List Byte) : List WirePkt :=
  let w := elemWidth efmt
  let n := data.length + 1
  if wire = 0 then
    let k := max 1 (min 32 win)
    ((chunks (128 * k) n data).zipIdx).map fun x =>
      { pos := pos + k * x.2, efmt := efmt, sfmt := 0, data := x.1, first := pos + k * x.2, npos := ceilDiv x.1.length 128,
        from_ := 128 * k * x.2, past := 128 * k * x.2 + x.1.length }
  else if wire = 1 then
    let rs := (elemsOf 4 data).map trim16
    let ev := (rs.map Rounded.events).foldl FmtEvents.add {}
    let k := max 1 (min 64 win)
    ((chunks (64 * k) n (bytesOf 2 (rs.map Rounded.code))).zipIdx).map fun x =>
      { pos := pos + k * x.2, efmt := 2, sfmt := 0, data := x.1, ev := if x.2 = 0 then ev else {}, first := pos + k * x.2,
        npos := ceilDiv x.1.length 64, from_ := 128 * k * x.2, past := 128 * k * x.2 + 2 * x.1.length }
  else
    let first := if w = 0 then 0 else pos * 128 / w / 32
    let bs := (groupsOf 32 n (elemsOf w data)).map (bs8Block efmt)
    let ev : FmtEvents := { nfin := (bs.map Prod.snd).foldl (· + ·) 0 }
    ((packUnits (unitsIn win (32 * w)) (bs.map Prod.fst) first first [] 0).zipIdx).map fun x =>
      { pos := 0, efmt := 9, sfmt := 0, data := unitPayload x.1.1 x.1.2, ev := if x.2 = 0 then ev else {}, first := x.1.1 * 32 * w / 128,
        npos := ceilDiv ((x.1.1 + x.1.2.length) * 32 * w) 128 - x.1.1 * 32 * w / 128, from_ := (x.1.1 - first) * 32 * w,
        past := (x.1.1 - first + x.1.2.length) * 32 * w }

/-- A contribution's packets, each of at most `win` positions (R230): dense data under its wire mode, or sparse data that is already encoded (R208,
R211). -/
def wireContrib (win efmt sfmt wire pos : Nat) (data : List Byte) : List WirePkt :=
  let w := elemWidth efmt
  let n := data.length + 1
  if sfmt = 0 then wireDense win efmt wire pos data
  else
    let us := if sfmt = 1 then cutBitmap w n data else chunks (8 + 32 * w) n data
    let span := if sfmt = 1 then 256 * w else 64 * w
    let at_ (k : Nat) := ((us.take k).map List.length).foldl (· + ·) 0
    (packUnits (unitsIn win span) us 0 0 [] 0).map fun x =>
      { pos := 0, efmt := efmt, sfmt := sfmt, data := unitPayload x.1 x.2, first := x.1 * span / 128,
        npos := ceilDiv ((x.1 + x.2.length) * span) 128 - x.1 * span / 128, from_ := at_ x.1, past := at_ (x.1 + x.2.length) }

/-- The ADDR of RED_CONTRIB and RED_RESULT (R227). -/
def redAddr (pos rank lvl ctx : Nat) : Nat := pos * 2 ^ 32 + rank * 2 ^ 18 + lvl * 2 ^ 14 + ctx

/-- The key of a context at a target, under which a member keeps its contribution digest (R279). -/
def ctxKey (e : Ep) (ctx : Nat) : Nat := ((e.chip * 64 + e.tile) * 16 + e.dep) * 16 + ctx

/-- The digest a member keeps for a target context advanced over the packets it sends there (R279). -/
def noteDigest (s : State) (tile gidx key : Nat) (ps : List WirePkt) : State :=
  let f (o : CollOp) : CollOp :=
    { o with digs := eSet 0 key (ps.foldl (fun c p => crc64 c p.data) (eGet 0 key o.digs)) o.digs, lastAt := some s.clk.now }
  { s with coll := { s.coll with ops := updFirst (fun o => o.tile == tile && o.gidx == gidx) f s.coll.ops } }

/-- The format events of a unit: a tile's own register, or nothing to count elsewhere than at reduction units. -/
def unitFmt (s : State) (e : Ep) (ev : FmtEvents) : State := if Ep_kind e = .tile then tniFmt s e.tile ev else s

/-- RED_CONTRIB packets of the gathered data (R375: A1 is the ADDR of R227); the command completes when every packet is
acknowledged. A packet is poisoned when it carries any poisoned byte of the source (R213). -/
def sendContrib (s : State) (c : Cmd) (data : List Byte) : State :=
  let d := c.desc
  let a := Desc_a1 d
  let ps := wireContrib (ctxWindow s (Desc_target d) (bits a 3 0)) (Desc_efmt d) (Desc_sfmt d) (Desc_wire d) (bits a 55 32) data
  let s := match c.trig with
    | some (.tni t, e) => noteDigest s t (fld s (Reg.trigb (.tni t) e) Trigb.GIDX) (ctxKey (Desc_target d) (bits a 3 0)) ps
    | _ => s
  let s := updCmd s c.id fun c => { c with left := ps.length }
  ps.foldl (fun s w =>
    let p := cmdPkt c .redContrib (Desc_target d) (redAddr w.pos (bits a 31 18) (bits a 17 14) (bits a 3 0)) w.data.length w.data
    let psn := c.bad.any fun b => decide (b.1 < w.past) && decide (w.from_ < b.1 + b.2)
    unitFmt (enqueue s { p with efmt := w.efmt, sfmt := w.sfmt, poison := psn } (.contrib c.id w.first w.npos)) c.ex w.ev) s

/-- Bytes of a command's source that have come in (R375); when all are there, the command sends what it gathers for. -/
def gathered (s : State) (id off : Nat) (bs : List Byte) (psn : Bool) : State :=
  let f (c : Cmd) : Cmd :=
    { c with buf := c.buf ++ [(off, bs)], poison := c.poison || psn, bad := if psn then c.bad ++ [(off, bs.length)] else c.bad }
  let s := updCmd s id f
  match cmdOf s id with
  | none => s
  | some c =>
    if (c.buf.map fun x => x.2.length).foldl (· + ·) 0 < Desc_len c.desc then s
    else
      let data := c.buf.foldl (fun d x => splice d x.1 x.2) (List.replicate (Desc_len c.desc) 0)
      let s := updCmd s id fun c => { c with buf := [] }
      if Desc_cmd c.desc = 5 then sendMcast s c data c.poison else sendContrib s c data

/-! ### Progress and completion -/

/-- One piece of a command finished with a status: `n` bytes written when it succeeded. Log 76, DEDUCED. -/
def pieceDone (s : State) (id n : Nat) (st : Status) : State :=
  updCmd s id fun c => failWith st { c with left := c.left - 1, bytes := if st.good then c.bytes + n else c.bytes }

/-- A command stopped (R377): its requests that have not left are dropped and count as finished, and data in flight moves nothing. -/
def stopCmd (s : State) (id : Nat) (st : Status) : State :=
  let mine := s.dyn.waiting.filter fun r => Purpose_cmd r.why == some id
  let s := mine.foldl (fun s r => dropReq s r.id) s
  updCmd s id fun c => failWith st { c with left := c.left - 1 - mine.length, stopped := true }

/-- The consuming context of a command that took poisoned data (R607): ring, core context, or the entry's DCTR. -/
def markSource (s : State) (c : Cmd) : State :=
  match c.src with
  | .ring fn r => ringDead s fn r
  | .core t _ _ =>
    if flag s (Reg.tniCoreCtx t) TniCoreCtx.DEAD then s
    else log (raise s (Reg.tniCoreCtx t) (2 ^ TniCoreCtx.DEAD.lo))
      { errOf (unitCode .tni t) .poisonin 2 with tenant := c.tenant, status := .poisoned, layer := Desc_layer c.desc, opid := Desc_opid c.desc }
  | .held _ => s
  | .trig b =>
    log s { errOf (blkUnit b) .poisonin 2 with tenant := c.tenant, status := .poisoned, layer := Desc_layer c.desc, opid := Desc_opid c.desc }

/-- CCTR and CEN of a command, by its kind's layout (R270, R301, R328, R375). -/
def cctrOf (d : Nat) : Option Nat :=
  match Desc_cmd d with
  | 8 => if bit d 311 then some (bits d 322 312) else none
  | 9 => if bit d 210 then some (bits d 221 211) else none
  | 10 => if bit d 474 then some (bits d 485 475) else none
  | 11 => if bit d 293 then some (bits d 304 294) else none
  | _ => if Desc_cen d then some (Desc_cctr d) else none

/-- Functions whose reset waits for their started commands (R384): the last one to end makes the function ready. -/
def flrEnd (s : State) (fn : Nat) : State :=
  if s.host.flr.contains fn ∧ ! (s.host.cmds.any fun c => match c.src with | .ring f _ => f == fn | _ => false) then
    let s := { s with host := { s.host with flr := s.host.flr.erase fn } }
    if fnState s fn = 2 ∧ ! (s.parts.any fun p => p.tenant == fn && p.dying) then setFnState s fn 1 else s
  else s

/-- A finished command's completion (R378, R379, R262): CCTR advances, an entry's DCTR gains 1, the record goes to its ring or its core, the
grants it obtained are returned, and poison it consumed marks its context. -/
def finishCmd (s : State) (c : Cmd) : State :=
  let c := if c.poison && c.status.good then { c with status := .poisoned } else c
  let s := { s with host := { s.host with cmds := s.host.cmds.filter fun x => x.id != c.id } }
  let s := returnGrants s c.id
  let s := if c.poison then markSource s c else s
  let s := traceCmd s c true
  let s := match cctrOf c.desc with
    | some n => if Ep_kind c.ex = .hp then s else addDone s (Reg.ctr (epBlk c.ex) n) c.status
    | none => s
  match c.src with
  | .ring fn r =>
    let q := cqOf s fn r
    let k := cq s fn q
    let s := setCq s fn q { k with started := k.started - 1 }
    if s.host.flr.contains fn then flrEnd s fn else writeRecord s fn r c (Desc_irq c.desc)
  | .core t _ _ => { s with host := { s.host with coreDone := s.host.coreDone ++ [(t, recordBits s c 0 true)] } }
  | .held _ => s
  | .trig b =>
    match c.trig with
    | some (_, e) => if flag s (Reg.trigb b e) Trigb.DEN then addDone s (trigDctr s b e) c.status else s
    | none => s

end Sys2Proof.Machine
end

