-- ==== Sys2Proof/Machine/Endpoint.lean ====
section
/-!
DEFINITION. What endpoints do with requests that reach them: memory accesses at tiles, MEPs and the HP (R106, R136, R543), multicast
delivery (R133, R134), and the reservation packets and timers of a cistern (R122-R125).
-/
namespace Sys2Proof.Machine

/-! ### Memory -/

/-- What the MEP answers to an access it does not allow (R543, R562): a page of a scrub entry is refused with a region fault, anything
else outside the tenant's ranges is a violation. -/
def mepScrub (s : State) (mep sa n : Nat) : Bool :=
  match rangeTouches s mep sa n with
  | some i => flag s (Reg.mepTrange mep i) MepTrange.SCR
  | none => false

/-- A chunk range of well 0 (R140, R651): the claim word and the chunks themselves. -/
def inWell0 (s : State) (a n : Nat) : Bool :=
  let c := Reg.telTwCfg 0
  let b := fld s c TelTwCfg.BASE * 4096
  region a == 0 && decide (b ≤ regOff a) && decide (regOff a + n ≤ b + 4096 * fld s c TelTwCfg.NCHUNK)

/-- Is the format of a packet outside the reduction and sluice planes one it can carry (R188, R205, R212, R214)? -/
def fmtSound (p : Pkt) : Bool := decide (p.efmt ≤ 10) && p.efmt != 9 && p.sfmt == 0

/-- A malformed packet of memory, message or counter traffic discarded, counted and recorded (R212). -/
def malCount (s : State) (p : Pkt) : State :=
  let s := match Ep_kind p.dst with
    | .tile => tniFmt s p.dst.tile { malf := 1 }
    | .ru => ruFmt s p.dst.tile p.tenant { malf := 1 }
    | _ => s
  log s (errPkt (blkUnit (epBlk p.dst)) .format 2 p .poisoned)

/-- Such a packet: as a poisoned one it is answered `ST_POISONED` (log 148, DESIGN CHOICE). -/
def malPlain (s : State) (p : Pkt) : State := errTo (malCount s p) p .poisoned

/-- A memory access checked at a tile, a MEP or the HP, and carried out by `k` when it may be. A request waits while the MEP's HBM controller is
in reset (R578). -/
def memAccess (s : State) (p : Pkt) (k : State → State) : State :=
  if ! fmtSound p then malPlain s p
  else match Ep_kind p.dst with
  | .mep m =>
    if s.boot.hbmDown.contains m then { s with boot := { s.boot with hbmWait := s.boot.hbmWait ++ [p] } }
    else
    let sa := stackAddr (regOff p.addr)
    let n := max 1 (accessLen p)
    if mepScrub s m sa n then errTo s p .regionFault
    else if ! mepAllows s p.tenant m sa n || (wellTraffic p && p.opc != .rdReq && ! inWell0 s p.addr n) then
      errTo (violation s (errPkt (unitCode .mep m) .tenant 2 p .tenantViolation)) p .tenantViolation
    else k s
  | .hp =>
    let no (st : Status) : State := errTo (log s (errPkt (unitCode .hp 0) .tenant 2 p st)) p st
    if ! s.host.linkUp then errTo s p .hostLost
    else match fnState s p.tenant with
      | 1 => k s
      | 3 => no .hostLost
      | _ => no .regionFault
  | _ => k s

/-- Tenant traffic counted at the port of a memory endpoint (R639). -/
def utilIn (s : State) (p : Pkt) (n : Nat) : State :=
  match Ep_kind p.dst with | .mep m => tutilIn s (.mep m) p.tenant n | .hp => tutilIn s .hp p.tenant n | _ => s
def utilOut (s : State) (p : Pkt) (n : Nat) : State :=
  match Ep_kind p.dst with | .mep m => tutilOut s (.mep m) p.tenant n | .hp => tutilOut s .hp p.tenant n | _ => s

/-- The answer to a read: the data at the request's priority (R106). -/
def readRsp (s : State) (p : Pkt) (bs : List Byte) (psn : Bool) : State := rspTo s p p.dst .rdRsp p.prio bs psn

/-- A read at its endpoint: memory answers with its bytes and their mark (R605); host memory answers with what the host gives (R377). An injection
marks the data, or makes a host read an Unsupported Request (R632). -/
def doRead (s : State) (p : Pkt) (h : HostData) : State :=
  let hit := injArmed s (epBlk p.dst) .poisonin (fun _ => true)
  let urHit := Ep_kind p.dst == .hp && injArmed s .hp .host (fun _ => true)
  let s := if hit || urHit then injFire s (epBlk p.dst) else s
  if Ep_kind p.dst = .hp then
    match (if urHit then .unsupported else h) with
    | .ok bs => readRsp (utilIn s p p.nbytes) p (slice bs 0 p.nbytes) hit
    | .poisoned bs => readRsp (utilIn s p p.nbytes) p (slice bs 0 p.nbytes) true
    | .unsupported => errTo s p .regionFault
    | .completerAbort => errTo s p .regionFault
  else readRsp (utilOut s p p.nbytes) p (readMem s p.addr p.nbytes) (hit || markedIn s p.addr p.nbytes)

/-- A write at its endpoint, acknowledged once it is visible (R106). -/
def doWrite (s : State) (p : Pkt) : State :=
  let s :=
    if Ep_kind p.dst = .hp then
      utilOut { s with host := { s.host with out := s.host.out ++ [.data p.tenant (regOff p.addr) p.data p.poison (flag s Reg.hpCfg HpCfg.RODATA)] } } p p.nbytes
    else storeSeen (utilIn s p p.nbytes) p.addr p.data p.poison
  rspTo s p p.dst .wrAck 3 [] false

/-- An atomic on n bytes (R106): the new value is `f old`; the response carries the old one. -/
def doAtomic (s : State) (p : Pkt) (n : Nat) (f : Nat → Nat) : State :=
  let old := readMem s p.addr n
  let psn := markedIn s p.addr n
  let s := storeSeen (utilOut (utilIn s p n) p n) p.addr (toLE n (f (ofLE old))) p.poison
  rspTo s p p.dst .atRsp 3 old psn

/-- A memory request carried out by its opcode; host memory is not among what waits for a controller. -/
def memRequest (s : State) (p : Pkt) : State :=
  memAccess s p fun s => match p.opc with
    | .rdReq => doRead s p .unsupported
    | .wr => doWrite s p
    | .atFadd => doAtomic s p (accessLen p) fun old => old + ofLE p.data
    | .atSwap => doAtomic s p (accessLen p) fun _ => ofLE p.data
    | .atCas =>
      let n := accessLen p
      doAtomic s p n fun old => if old = ofLE (slice p.data 0 n) then ofLE (slice p.data n n) else old
    | _ => s

/-- RD_REQ at its endpoint. -/
def execRdReq (p : Pkt) (h : HostData) (s : State) : Host.Outcome State Fault Refusal :=
  .next (arrive s p fun s => memAccess s p fun s => doRead s p h)

/-- WR at its endpoint. -/
def execWr (p : Pkt) (s : State) : Host.Outcome State Fault Refusal :=
  .next (arrive s p fun s => memAccess s p fun s => doWrite s p)

/-- AT_FADD (R106): the operand added, wrapping at its width. -/
def execAtFadd (p : Pkt) (s : State) : Host.Outcome State Fault Refusal :=
  .next (arrive s p fun s => memAccess s p fun s => doAtomic s p p.nbytes fun old => old + ofLE p.data)

/-- AT_SWAP (R106). -/
def execAtSwap (p : Pkt) (s : State) : Host.Outcome State Fault Refusal :=
  .next (arrive s p fun s => memAccess s p fun s => doAtomic s p p.nbytes fun _ => ofLE p.data)

/-- AT_CAS (R106): the compare value, then the swap value, each half of the payload. -/
def execAtCas (p : Pkt) (s : State) : Host.Outcome State Fault Refusal :=
  .next (arrive s p fun s => memAccess s p fun s =>
    let n := accessLen p
    doAtomic s p n fun old => if old = ofLE (slice p.data 0 n) then ofLE (slice p.data n n) else old)

/-! ### What an engine of the fabric reads and writes by itself (R301) -/

/-- n bytes at a fabric address of a tenant, and whether any are marked: memory's, or in region 0x3 the host's (log 150). -/
def readFabric (s : State) (fn a n : Nat) : List Byte :=
  if region a = 3 then (List.range n).map fun i => Config.hostByte fn (regOff a + i) s.clk.now else readMem s a n
def markedFabric (s : State) (fn a n : Nat) : Bool :=
  if region a = 3 then decide (0 < n) && Config.hostPoison fn (regOff a) s.clk.now else markedIn s a n

/-- Bytes written at a fabric address of a tenant: to memory, or in region 0x3 to the host. -/
def storeFabric (s : State) (fn a : Nat) (bs : List Byte) (psn : Bool) : State :=
  if region a = 3 then
    { s with host := { s.host with out := s.host.out ++ [.data fn (regOff a) bs psn (flag s Reg.hpCfg HpCfg.RODATA)] } }
  else storeSeen s a bs psn

/-! ### Multicast (R130, R133, R134) -/

/-- The branches a router forwards a multicast on (R133). The row phase continues east and west; a router inside the columns starts the
column phase, and a packet already in it (from N or S) stays in it. -/
def mcBranches (r : Rect) (tile port : Nat) : List Nat :=
  let x := tile % 8
  let y := tile / 8
  let row := port != 0 && port != 2
  let col := ! row || (decide (r.x0 ≤ x) && decide (x ≤ r.x1))
  (if col && decide (r.y0 < y) && port != 0 then [0] else []) ++
  (if row && decide (x < r.x1) && port != 1 then [1] else []) ++
  (if col && decide (y < r.y1) && port != 2 then [2] else []) ++
  (if row && decide (r.x0 < x) && port != 3 then [3] else [])

/-- Does a router deliver the multicast to its tile (R133)? -/
def mcHere (r : Rect) (tile port : Nat) : Bool :=
  let x := tile % 8
  let y := tile / 8
  let inCols := port == 0 || port == 2 || (decide (r.x0 ≤ x) && decide (x ≤ r.x1))
  inCols && decide (r.y0 ≤ y) && decide (y ≤ r.y1)

/-- A multicast delivered to one tile (R134): the checks of its router, the write to its window, and its own WR_ACK. -/
def mcDeliver (s : State) (tile : Nat) (p : Pkt) : State :=
  let q := { p with dst := ⟨p.dst.chip, tile, 0⟩ }
  let s := { s with dyn := { s.dyn with told := s.dyn.told ++ [(p.src, p.tag, tile)] } }
  if ! good s tile then errTo s q .regionFault
  else if ! tileAllows s p.tenant tile then errTo (violation s (errPkt (unitCode .router tile) .tenant 2 q .tenantViolation)) q .tenantViolation
  else
    let s := useGrant (tracePkt s (unitCode .tni tile) q 1 0xFF) q
    if ! fmtSound q then malPlain s q
    else rspTo (storeSeen s (tileAddr tile (rectOf p.addr).off) p.data p.poison) q q.dst .wrAck 3 [] false

/-! ### Cisterns: requests and grants (R121-R125) -/

/-- A request's fields read from an RSV_REQ (R121). -/
def cReqOf (s : State) (p : Pkt) : CReq :=
  let v := ofLE (slice p.data 0 16)
  { ep := cisEp s p.dst, src := p.src, rec_ := p.tag, tenant := p.tenant, flits := bits v 7 0 + 1, mc := bit v 37,
    mcop := bits v 63 48, ticket := bits v 127 64, settle := bits v 31 16, since := s.clk.now }

/-- A request made to wait at its cistern. -/
def cisQueue (s : State) (r : CReq) : State :=
  cisAdd { s with dyn := { s.dyn with pend := s.dyn.pend ++ [r] } } r.ep CisternStat.PEND 1

/-- RSV_REQ at a cistern (R122, R123): it joins the waiting requests, and is granted at once when it is the one the cistern grants next and
its slots fit. -/
def execRsvReq (p : Pkt) (s : State) : Host.Outcome State Fault Refusal :=
  .next (arrive s p fun s =>
    let r := cReqOf s p
    let s := cisQueue s r
    if nextToGrant s r && fits s r then grant s r else s)

/-- CISTERN_GRANT (R122, R123, R542): the first waiting request that its queue grants next and whose slots are free. -/
def execCisternGrant (e : Ep) (s : State) : Host.Outcome State Fault Refusal :=
  .next (match s.dyn.pend.find? fun r => r.ep == cisEp s e && nextToGrant s r && fits s r with
    | some r => grant s r
    | none => s)

/-- MCAST_ELIGIBLE (R123): the clock reaches TICKET + SETTLE of the first head of the multicast queue that is not yet eligible, which is
granted when its slots are free. -/
def execMcastEligible (e : Ep) (s : State) : Host.Outcome State Fault Refusal :=
  .next (match s.dyn.pend.find? fun r => r.ep == cisEp s e && r.mc && mcHead s r == some r && ! eligible s r with
    | some r =>
      let s := advanceTo s (cycleAt (r.ticket + r.settle))
      if nextToGrant s r && fits s r then grant s r else s
    | none => s)

/-- RSV_GRANT at the requester (R118, R119, R124): its record holds the grant; one that crosses its own release is discarded. -/
def execRsvGrant (p : Pkt) (s : State) : Host.Outcome State Fault Refusal :=
  .next (arrive s p fun s =>
    match s.dyn.rsvs.find? fun v => v.ep == p.dst && v.rec_ == p.tag && ! v.granted with
    | none => lateRsp s p
    | some v =>
      let s := giveFree s v.ep 1
      let f (x : Rsv) : Rsv := { x with granted := true, left := x.flits, lastUse := s.clk.now, slots := x.slots - 1 }
      let s := { s with dyn := { s.dyn with rsvs := updFirst (fun x => x.ep == v.ep && x.rec_ == v.rec_) f s.dyn.rsvs } }
      if v.dst.chip = myChip s then allotBack s v.ep v.dst else s)

/-- A request or grant of a source removed from a cistern (R124): a pending request goes, granted slots become free. -/
def cisRelease (s : State) (e src : Ep) (tag : Nat) : State :=
  let s := match s.dyn.pend.find? fun r => r.ep == e && r.src == src && r.rec_ == tag with
    | some r => cisSub { s with dyn := { s.dyn with pend := s.dyn.pend.erase r } } e CisternStat.PEND 1
    | none => s
  match s.dyn.given.find? fun g => g.ep == e && g.src == src && g.rec_ == tag with
  | some g =>
    giveFree (cisSub { s with dyn := { s.dyn with given := s.dyn.given.erase g } } e CisternStat.GRANTED g.slots) e g.slots
  | none => s

/-- RSV_RELEASE at a cistern (R124). -/
def execRsvRelease (p : Pkt) (s : State) : Host.Outcome State Fault Refusal :=
  .next (arrive s p fun s => ackTo (cisRelease s (cisEp s p.dst) p.src p.tag) p .ok)

/-- TAG_QUARANTINE_END (R108, R119): the clock reaches the end of a tag's quarantine; the tag is free and a count still held returns. -/
def execTagQuarantineEnd (e : Ep) (tag : Nat) (s : State) : Host.Outcome State Fault Refusal :=
  .next (match s.dyn.quar.find? fun q => q.ep == e && q.tag == tag with
    | none => s
    | some q =>
      let s := advanceTo s q.until_
      let s := { s with dyn := { s.dyn with quar := s.dyn.quar.erase q } }
      if q.allot then allotBack s q.ep q.dst else s)

/-- LEASE_EXPIRE (R125, R127): a held grant that has gone unused for the LEASE of its issue is returned; LEASE 0 means never. -/
def execLeaseExpire (e : Ep) (rec_ : Nat) (s : State) : Host.Outcome State Fault Refusal :=
  .next (match s.dyn.rsvs.find? fun v => v.ep == e && v.rec_ == rec_ && v.granted && ! v.released with
    | some v => if v.lease = 0 then s else release (advanceTo s (v.lastUse + v.lease)) v
    | none => s)

end Sys2Proof.Machine
end

