-- ==== Sys2Proof/Machine/Standpipe.lean ====
section
/-!
DEFINITION. Standpipe messages (R284, R285): their fields, their check, and how they are sent and received.
-/
namespace Sys2Proof.Machine

/-- Word i of a message. -/
def SpWord (m : SpMsg) (i : Nat) : Nat := m.words.getD i 0

/-- The value of KIND (R285). -/
def SpKindCode : SpKind → Nat
  | .up => 0 | .down => 1 | .downFail => 2 | .open => 3 | .close => 4 | .result => 5 | .abortReq => 6 | .abort => 7
  | .slip => 8 | .freeze => 9 | .start => 10 | .bad c => c

/-- The kind a message names; 11-15 are reserved (R285). -/
def SpKindOf (m : SpMsg) : SpKind :=
  match bits (SpWord m 0) 63 60 with
  | 0 => .up | 1 => .down | 2 => .downFail | 3 => .open | 4 => .close | 5 => .result | 6 => .abortReq | 7 => .abort
  | 8 => .slip | 9 => .freeze | 10 => .start | c => .bad c

/-- Fields of word 0 (R284). -/
def SpTenant (m : SpMsg) : Nat := bits (SpWord m 0) 59 52
def SpDst (m : SpMsg) : Ep := ⟨bits (SpWord m 0) 51 44, 8 * bits (SpWord m 0) 40 38 + bits (SpWord m 0) 43 41, bits (SpWord m 0) 37 34⟩
def SpCtx (m : SpMsg) : Nat := bits (SpWord m 0) 33 30
def SpNw (m : SpMsg) : Nat := bits (SpWord m 0) 29 28
def SpBc (m : SpMsg) : Bool := bit (SpWord m 0) 27
def SpRop (m : SpMsg) : Nat := bits (SpWord m 0) 26 24
def SpEfmt (m : SpMsg) : Nat := bits (SpWord m 0) 23 20
def SpNb (m : SpMsg) : Nat := bits (SpWord m 0) 19 16 + 1
def SpChk (m : SpMsg) : Nat := bits (SpWord m 0) 15 0

/-- Fields of word 1 (R284). -/
def SpGroup (m : SpMsg) : Nat := bits (SpWord m 1) 63 48
def SpEpoch (m : SpMsg) : Nat := bits (SpWord m 1) 47 32
def SpRank (m : SpMsg) : Nat := bits (SpWord m 1) 31 18
def SpLvl (m : SpMsg) : Nat := bits (SpWord m 1) 17 14
def SpSeq (m : SpMsg) : Nat := bits (SpWord m 1) 13 0

/-- Payload word i: the words after word 1. -/
def SpPay (m : SpMsg) (i : Nat) : Nat := SpWord m (2 + i)

/-- The payload words of UP and DOWN as bytes (R284). -/
def SpPayload (m : SpMsg) : List Byte := ((m.words.drop 2).take (SpNw m)).flatMap (toLE 8)

/-- Elements of a small collective, and whether the counts of a SUMCOUNT fit in the payload words behind its sums, which are the NBM1 + 1 bytes that
every input of a node has alike (R237, R284, R288). The layout gives no place to counts that do not fit: they are not carried (log 24, DESIGN CHOICE). -/
def SpElems (m : SpMsg) : Nat := SpNb m / max 1 (elemWidth (SpEfmt m))
def SpCounts (m : SpMsg) : Bool := SpRop m == 6 && decide (SpNb m + 4 * SpElems m ≤ 16)

/-- The elements of UP and DOWN, and the counts behind those of a partial SUMCOUNT. -/
def SpBytes (m : SpMsg) : List Byte := (SpPayload m).take (SpNb m)
def SpCnts (m : SpMsg) : List Nat := elemsOf 4 (slice (SpPayload m) (SpNb m) (4 * SpElems m))

/-- The digest word of UP and DOWN. -/
def SpDigest (m : SpMsg) : Nat := SpWord m (2 + SpNw m)

/-- CHK of a message: CRC-16 over word 0 bits [63:16] and then the further words, each from bit 63 down (R284; the order of the words
is log 18, DESIGN CHOICE). -/
def SpCheck (m : SpMsg) : Nat :=
  (m.words.drop 1).foldl (fun c w => crcBits 16 0x1021 64 w c) (crc16 48 (SpWord m 0 / 2 ^ 16))

/-- A message with its CHK generated. -/
def SpStamp (m : SpMsg) : SpMsg := ⟨(SpWord m 0 / 2 ^ 16 * 2 ^ 16 + SpCheck m) :: m.words.drop 1⟩

/-- Word 0 of a message. -/
def spWord0 (k : SpKind) (tenant : Nat) (dst : Ep) (ctx nw : Nat) (bc : Bool) (rop efmt nbm1 : Nat) : Nat :=
  SpKindCode k * 2 ^ 60 + tenant * 2 ^ 52 + dst.chip * 2 ^ 44 + dst.tile % 8 * 2 ^ 41 + dst.tile / 8 % 8 * 2 ^ 38 + dst.dep % 16 * 2 ^ 34 +
    ctx % 16 * 2 ^ 30 + nw * 2 ^ 28 + b2n bc * 2 ^ 27 + rop * 2 ^ 24 + efmt * 2 ^ 20 + nbm1 * 2 ^ 16

/-- Word 1 of a message. -/
def spWord1 (group epoch rank lvl seq : Nat) : Nat :=
  group * 2 ^ 48 + epoch * 2 ^ 32 + rank * 2 ^ 18 + lvl * 2 ^ 14 + seq % 2 ^ 14

/-- A message sent by an endpoint's stage; an injection at its router may invert bit 0 of CHK (R632). -/
def spSend (s : State) (src : Ep) (m : SpMsg) : State :=
  if injArmed s (.rtr src.tile) .spchk (fun _ => true) then
    let m := SpStamp m
    let m : SpMsg := ⟨(SpWord m 0 ^^^ 1) :: m.words.drop 1⟩
    let s := injFire s (.rtr src.tile)
    { s with coll := { s.coll with spNet := s.coll.spNet ++ [(src, m)] } }
  else
    { s with coll := { s.coll with spNet := s.coll.spNet ++ [(src, SpStamp m)] } }

/-- A message taken off the standpipe. Log 128, DEDUCED. -/
def spTake (s : State) (m : SpMsg) : State :=
  { s with coll := { s.coll with spNet := dropFirst (fun x => x.2 == m) s.coll.spNet } }

/-- The router stages at which a message ends on this package: the one it names, or for a broadcast every one that delivers it to a TNI (R284). -/
def spStages (s : State) (m : SpMsg) : List Nat := if SpBc m then (List.range 64).filter (good s) else [(SpDst m).tile]

/-- A message of a tenant that has no place at its destination (R141, R284), discarded and recorded at each stage that delivers it. -/
def spForeign (s : State) (m : SpMsg) : State :=
  (spStages s m).foldl (fun s t => violation s { errOf (unitCode .spstage t) .tenant 2 with tenant := SpTenant m }) s

/-- A message discarded for its CHK or its kind (R284-R286), counted and recorded at each stage that delivers it. -/
def spBad (s : State) (m : SpMsg) : State :=
  (spStages s m).foldl (fun s t =>
    log (bump s (Reg.rtrSpStat t) RtrSpStat.BAD 1) { errOf (unitCode .spstage t) .spchk 2 with tenant := SpTenant m }) s

/-- A stale message counted at the stage that delivers it (R267). -/
def spStale (s : State) (tile : Nat) : State := bump s (Reg.rtrSpStat tile) RtrSpStat.STALE 1

/-- A stale message counted at every stage that delivers it (R267, R286). -/
def spStaleAll (s : State) (m : SpMsg) : State := (spStages s m).foldl spStale s

/-- May a message carry its TENANT (R140, R284)? TENANT 0 belongs to the sequencer's FREEZE. -/
def spTenantOk (m : SpMsg) : Bool := decide (SpTenant m < 64) && (SpTenant m != 0 || SpKindOf m == .freeze)

/-- The classes of R285 at an output: SIGNAL words go before FLOW words, and FLOW words before UP words. -/
def spClass (m : SpMsg) : Nat :=
  match SpKindOf m with
  | .up => 2
  | .down | .downFail | .open | .close | .result => 1
  | _ => 0

/-- Waiting messages in the order in which they leave an output: by class, and the older first within a class (R285; the order within a class is
log 38, DESIGN CHOICE). -/
def spOrder (l : List (Ep × SpMsg)) : List (Ep × SpMsg) :=
  let of (c : Nat) := l.filter fun x => spClass x.2 == c
  of 0 ++ of 1 ++ of 2

/-- Does no older message of the same source, destination and class stand before this one? Its route is fixed, and a class keeps its order at
every output (R285, R286). A message that is not on the standpipe comes from outside. -/
def spTurn (s : State) (m : SpMsg) : Bool :=
  match (s.coll.spNet.find? fun x => x.2 == m) with
  | none => true
  | some y =>
    match (s.coll.spNet.find? fun x => x.1 == y.1 && SpDst x.2 == SpDst m && SpBc x.2 == SpBc m && spClass x.2 == spClass m) with
    | none => true
    | some x => x.2 == m

/-- A message received: discarded and recorded when its CHK fails, its kind is reserved, or its tenant is not in place (R284, R285); else
handed on. -/
def spArrive (s0 : State) (m : SpMsg) (k : State → State) : State :=
  let s := spTake s0 m
  if (SpDst m).chip ≠ myChip s ∨ ! spTurn s0 m then s0
  else if SpChk m ≠ SpCheck m then spBad s m
  else match SpKindOf m with
    | .bad _ => spBad s m
    | _ => if spTenantOk m then k s else spForeign s m

end Sys2Proof.Machine
end

