-- ==== Sys2Proof/Machine/Scheduled.lean ====
section
/-!
DEFINITION. The scheduled plane (chapter 2): partition counters, arming and takeover, beats at routers, sources and sinks, staging and
absorption, and slips.
-/
namespace Sys2Proof.Machine

/-! ### Slots of the arbiters that the schedule owns (R84, R148-R151) -/

/-- The working state of an arbiter. -/
def arbRun (s : State) (a : Arb) : ArbRun := eGet {} a.base s.arb.runs
def setRun (s : State) (a : Arb) (x : ArbRun) : State := { s with arb := { s.arb with runs := eSet {} a.base x s.arb.runs } }

/-- The entry of the active slot-table bank for arbiter cycle n (R148, R149): its owner, if it has one. -/
def slotOwner (s : State) (a : Arb) (n : Nat) : Option Nat :=
  let k := n % 1024 / 4
  let w := if fld s (Reg.arbCtl a) ArbCtl.BANK = 0 then rd s (Reg.arbSlot0 a k) else rd s (Reg.arbSlot1 a k)
  let e := bits w.toNat (16 * (n % 4) + 15) (16 * (n % 4))
  if bit e 15 then some (e % 128) else none

/-- May tenant t's scheduled data move a grain at an arbiter in cycle g (R84, R151): the slot is its own, and no locked sequence holds the
resource (R159)? -/
def schSlot (s : State) (a : Arb) (t g : Nat) : Bool := slotOwner s a g == some (64 + t) && (arbRun s a).lock.isNone

/-- The bytes of a grain at a memory's arbiter (R145). -/
def grainBytes : Arb → Nat
  | .mep _ => 1024
  | _ => 512

/-- Has tenant t's slot of cycle g room for n more bytes beside the uses `l`? A slot moves one grain (R84, R145), beats of one tenant together up to
its size (log 140, DESIGN CHOICE). -/
def slotRoom (s : State) (l : List SlotUse) (a : Arb) (t g n : Nat) : Bool :=
  schSlot s a t g && decide (((l.filter fun u => u.arb == a && u.at_ == g).map SlotUse.n).foldl (· + ·) 0 + n ≤ grainBytes a)

/-- The oldest cycle whose slots may still be used: the present one, or that of a staged read which waits for its data (R86). -/
def oldestUse (s : State) : Nat :=
  ((s.sch.stage.filter fun p => p.beat.isNone).map StagePlace.at_).foldl min s.clk.now

/-- n bytes moved in the slot of cycle g. -/
def useSlot (s : State) (a : Arb) (g n : Nat) : State :=
  { s with sch := { s.sch with uses := (s.sch.uses.filter fun u => decide (oldestUse s ≤ u.at_)) ++ [⟨a, g, n⟩] } }

/-! ### Partition counters (R63, R93) -/

/-- A tenant's schedule timing. -/
def schTen (s : State) (t : Nat) : SchTenant := eGet {} t s.sch.ten
def setTen (s : State) (t : Nat) (x : SchTenant) : State := { s with sch := { s.sch with ten := eSet {} t x s.sch.ten } }

/-- Round length in cycles (R68: 0 means 1,024 quanta). -/
def roundLen (s : State) (t : Nat) : Nat :=
  let q := fld s (Reg.fabSchCtx t) FabSchCtx.ROUNDQ_ACT
  64 * (if q = 0 then 1024 else q)

/-- STATE and BANK of a tenant's schedule (R68). -/
def schState (s : State) (t : Nat) : Nat := fld s (Reg.fabSchCtx t) FabSchCtx.STATE
def schBank (s : State) (t : Nat) : Nat := fld s (Reg.fabSchCtx t) FabSchCtx.BANK

/-- Is tenant t frozen in this cycle (R92)? -/
def frozen (s : State) (t : Nat) : Bool :=
  match (schTen s t).quantum with
  | some q => decide (q ≤ s.clk.now) && decide (s.clk.now < q + 64)
  | none => false

/-- Starts of the freezes of a tenant that are known: the quantum in force and the requests not yet resolved, each absorbed when t is
already frozen in its start cycle (R92). -/
def knownFreezes (x : SchTenant) : List Nat :=
  (x.slips.foldl (fun (a : List Nat × Nat) st => if st < a.2 then a else (a.1 ++ [st], st + 64))
    (x.quantum.toList, match x.quantum with | some q => q + 64 | none => x.thawed)).1

/-- Is the tenant frozen in a cycle that has not yet come, as far as the known freezes tell? -/
def frozenAt (x : SchTenant) (g : Nat) : Bool := (knownFreezes x).any fun q => decide (q ≤ g) && decide (g < q + 64)

/-- Partition time at a cycle that has not yet come: the cycles the counter has counted since its last takeover, with the known freezes. -/
def partAt (x : SchTenant) (g : Nat) : Nat :=
  g - x.start0 - x.frozen - ((knownFreezes x).map fun q => min g (q + 64) - min g q).foldl (· + ·) 0

/-- Partition time now. -/
def partTime (s : State) (t : Nat) : Nat :=
  let x := schTen s t
  let g := match x.quantum with | some q => min s.clk.now q | none => s.clk.now
  g - x.start0 - x.frozen

/-- The round cycle the partition counter shows. -/
def roundCycle (s : State) (t : Nat) : Nat := partTime s t % roundLen s t

/-- The next global cycle at or after `g` in which an unfrozen counter shows round cycle c. -/
def nextAt (s : State) (t c : Nat) : Nat :=
  let r := roundLen s t
  let base := match (schTen s t).quantum with | some q => max s.clk.now (q + 64) | none => s.clk.now
  base + (c + r - roundCycle s t) % r

/-- Is the tenant running and not frozen? -/
def runsNow (s : State) (t : Nat) : Bool := decide (1 ≤ t) && decide (t ≤ 63) && schState s t == 2 && ! frozen s t

/-- Round length of a tenant's shadow bank (R68). -/
def shadowLen (s : State) (t : Nat) : Nat :=
  let q := fld s (Reg.fabSchCtx t) FabSchCtx.ROUNDQ
  64 * (if q = 0 then 1024 else q)

/-- The cycle in which a tenant that waits to start begins at round cycle 0 (R73). -/
def startCycle (s : State) (t : Nat) : Nat := ceilDiv (max s.clk.now (cycleAt (fld s (Reg.fabSchArm t) FabSchArm.TIME))) 64 * 64

/-- The partition time, in the counter's present bank, of an armed takeover of a running tenant (R73): the first round boundary whose global
cycle is at or after T. -/
def boundary (s : State) (t : Nat) : Option Nat :=
  if flag s (Reg.fabSchCtx t) FabSchCtx.ARMED && schState s t == 2 then
    let r := roundLen s t
    let g0 := nextAt s t 0
    let p0 := ceilDiv (partTime s t) r * r
    some (p0 + ceilDiv (cycleAt (fld s (Reg.fabSchArm t) FabSchArm.TIME) - g0) r * r)
  else none

/-- What tenant t's counter shows in a cycle that has not yet come, with the freezes it knows and an armed takeover or start: the bank, the
round of that bank, and the round cycle; `none` where nothing of t is due. -/
def schView (s : State) (t g : Nat) : Option (Nat × Nat × Nat) :=
  let x := schTen s t
  let bank := schBank s t
  let r := roundLen s t
  if t = 0 ∨ 64 ≤ t ∨ frozenAt x g then none
  else if schState s t = 2 then
    let p := partAt x g
    match boundary s t with
    | some b => if b ≤ p then some (1 - bank, (p - b) / shadowLen s t, (p - b) % shadowLen s t) else some (bank, p / r, p % r)
    | none => some (bank, p / r, p % r)
  else if schState s t = 1 ∧ flag s (Reg.fabSchCtx t) FabSchCtx.ARMED ∧ startCycle s t ≤ g then
    let p := partAt { x with start0 := startCycle s t, frozen := 0 } g
    some (1 - bank, p / shadowLen s t, p % shadowLen s t)
  else none

/-! ### Crossbar entries (R59-R65) -/

/-- Entry i of a bank of a router. -/
def xbar (tile bank i : Nat) : Nat := if bank = 0 then Reg.rtrXbar0 tile i else Reg.rtrXbar1 tile i

/-- An entry's fields. -/
structure Entry where
  tenant : Nat
  stream : Nat
  start : Nat
  run : Nat
  inp : Nat
  out : Nat
  ctx : Nat
  deriving DecidableEq, Repr

/-- The entry at a place. -/
def entryAt (s : State) (tile bank i : Nat) : Entry :=
  let r := xbar tile bank i
  { tenant := fld s r RtrXbar0.TENANT, stream := fld s r RtrXbar0.STREAM, start := fld s r RtrXbar0.START, run := fld s r RtrXbar0.RUN,
    inp := fld s r RtrXbar0.IN, out := fld s r RtrXbar0.OUT, ctx := fld s r RtrXbar0.CTX }

/-- A tenant's entries in a bank of a router, in order, without the empty ones (R59, R61). Past entry 4,095 the index wraps (log 135, DESIGN
CHOICE). -/
def entries (s : State) (tile t bank : Nat) : List Entry :=
  let r := Reg.rtrSchRange tile t
  ((List.range (min 4096 (fld s r RtrSchRange.COUNT))).map fun i => entryAt s tile bank ((fld s r RtrSchRange.BASE + i) % 4096)).filter
    fun e => e.out != 15

/-- Is an entry active in a round cycle (R60)? -/
def Entry.active (e : Entry) (c : Nat) : Bool := decide (e.start ≤ c) && decide (c ≤ e.start + e.run)

/-- Does an entry take its beats from an input? Inputs 16 + c name the output of context c of the reduction unit (IN = 10, R99). -/
def Entry.takes (e : Entry) (port : Nat) : Bool := if port < 16 then e.inp == port else e.inp == 10 && e.ctx == port - 16

/-- The active entries of a router for an input in this cycle. -/
def activeFor (s : State) (tile port : Nat) : List Entry :=
  (List.range 64).flatMap fun t =>
    if runsNow s t then
      let c := roundCycle s t
      (entries s tile t (schBank s t)).filter fun e => e.takes port && e.active c
    else []

/-- The owner of a phase group at a router output (R64). -/
def phaseOwner (s : State) (tile port grp : Nat) : Nat :=
  let w := if grp < 8 then rd s (Reg.rtrPhaseLo tile port) else rd s (Reg.rtrPhaseHi tile port)
  bits w.toNat (8 * (grp % 8) + 7) (8 * (grp % 8))

/-! ### Descriptors (R79-R82) -/

/-- The register of a descriptor's slot. -/
def descSlot (b : Blk) (slot : Nat) : Nat :=
  match b with
  | .mep m => Reg.mepStreamDesc m slot
  | .tni t => Reg.tniPumpDesc t slot
  | _ => 0

/-- A descriptor's 256 bits. -/
def streamDesc (s : State) (b : Blk) (n : Nat) : Nat :=
  ((List.range 4).map fun i => (rd s (descSlot b (4 * n + i))).toNat * 2 ^ (64 * i)).foldl (· + ·) 0

def SdLayer (d : Nat) : Nat := bits d 255 240
def SdOpid (d : Nat) : Nat := bits d 239 224
def SdCtr (d : Nat) : Nat := bits d 223 213
def SdBase (d : Nat) : Nat := bits d 191 152
def SdStride (d : Nat) : Nat := bits d 151 128
def SdStart (d : Nat) : Nat := bits d 127 112
def SdPeriod (d : Nat) : Nat := bits d 111 96
def SdBursts (d : Nat) : Nat := bits d 95 80
def SdRounds (d : Nat) : Nat := bits d 79 64
def SdStream (d : Nat) : Nat := bits d 63 48
def SdBeats (d : Nat) : Nat := bits d 47 36
def SdExtract (d : Nat) : Bool := bit d 35
def SdCh (d : Nat) : Nat := bits d 34 33
def SdPort (d : Nat) : Nat := bits d 32 31
def SdHalf (d : Nat) : Bool := bit d 30
def SdBanks (d : Nat) : Nat := bits d 2 1

/-- Bytes of a descriptor's beats, and the round cycle and offset of beat k of burst j (R80). -/
def SdBytes (d : Nat) : Nat := if SdHalf d then 128 else 256
def SdCycle (d j k : Nat) : Nat := SdStart d + j * SdPeriod d + k
def SdAddr (d j k : Nat) : Nat := SdBase d + j * SdStride d + SdBytes d * k

/-- Descriptors of a unit. -/
def descCount (b : Blk) : Nat := match b with | .mep _ => 512 | .tni _ => 256 | _ => 0

/-- The tenant of a descriptor (R81, R82): the tile's, or the owner the MEP names; 0xFF belongs to nobody. -/
def descTenant (s : State) (b : Blk) (n : Nat) : Nat :=
  match b with
  | .tni t => owner s t
  | .mep m => bits (rd s (Reg.mepDescOwner m (n / 8))).toNat (8 * (n % 8) + 7) (8 * (n % 8))
  | _ => 0xFF

/-- Is bank `bank` among the descriptor's BANKS? -/
def inBank (d bank : Nat) : Bool := bit (SdBanks d) bank

/-- The round of the active bank that a tenant is in. -/
def roundNo (s : State) (t : Nat) : Nat := partTime s t / roundLen s t

/-- Does a stream run in this cycle: its tenant runs, unfrozen, its BANKS hold the active bank, and its rounds are not used up (R79)? A stream
at the odd tile's TNI of a twin pair never starts (R44). -/
def streamOn (s : State) (b : Blk) (n : Nat) : Bool :=
  let d := streamDesc s b n
  let t := descTenant s b n
  runsNow s t && inBank d (schBank s t) && (SdRounds d == 0 || decide (roundNo s t < SdRounds d)) &&
    (match b with | .tni tile => ! oddTwin s tile | _ => true)

/-- The router and port a descriptor's channel is attached to (R58, R79). -/
def descPort (b : Blk) (d : Nat) : Nat × Nat :=
  match b with
  | .tni t => if SdCh d < 2 then (t, 4 + SdCh d) else (t + 1, 2 + SdCh d)
  | _ => (blkTile b, 6 + SdCh d)

/-- The round ended for a stream with its last beat (R79): its counter gains 1, as a failure when the sink stream is dead (R607).
Log 58, DEDUCED. -/
def roundDone (s : State) (b : Blk) (d j k : Nat) (dead : Bool) : State :=
  if j = SdBursts d ∧ k = SdBeats d then
    match b with
    | .tni t => addCtr s (Reg.ctr (.tni t) (SdCtr d)) 1 (if dead then some Status.poisoned.code else none)
    | _ => s
  else s

/-! ### Arming (R69-R75) -/

/-- The units that may hold descriptors. Log 59, DEDUCED. -/
def descUnits : List Blk := (List.range 64).map Blk.tni ++ (List.range 12).map Blk.mep

/-- A tenant's descriptors selected for a bank. -/
def descsFor (s : State) (t bank : Nat) : List (Blk × Nat) :=
  descUnits.flatMap fun b => ((List.range (descCount b)).filter fun n => descTenant s b n == t && inBank (streamDesc s b n) bank).map (b, ·)

/-- Is a scheduled port present at a router (R58)? -/
def portAt (s : State) (tile p : Nat) : Bool :=
  let x := tile % 8
  let y := tile / 8
  match p with
  | 0 => decide (0 < y) | 1 => decide (x < 7) | 2 => decide (y < 7) | 3 => decide (0 < x)
  | 4 => good s tile | 5 => good s tile
  | 6 => epKind tile 1 != .absent
  | 7 => (match epKind tile 1 with | .mep _ => true | _ => false) || tile == 7 || tile == 63
  | 8 => (match epKind tile 1 with | .mep _ => true | _ => false) || tile == 7 || tile == 63
  | 9 => (match epKind tile 1 with | .mep _ => true | _ => false)
  | 10 => true
  | _ => false

/-- Cycles a beat needs after its crossbar cycle to the next place on its path (R76, R78). -/
def Entry.after (e : Entry) : Nat := if e.out = 10 then 6 else if e.out < 4 then 2 else 1

/-- Does tenant t's range at a router break R61, R62: a COUNT above 4,096, or an entry it shares with another tenant's range? A range past the
last entry fails too (log 135, DESIGN CHOICE). A range without entries overlaps nothing. -/
def rangeBad (s : State) (tile t : Nat) : Bool :=
  let r (u : Nat) := (fld s (Reg.rtrSchRange tile u) RtrSchRange.BASE, fld s (Reg.rtrSchRange tile u) RtrSchRange.COUNT)
  decide (4096 < (r t).1 + (r t).2) ||
    (List.range 63).any fun u => u + 1 != t && (r t).2 != 0 && (r (u + 1)).2 != 0 &&
      decide ((r t).1 < (r (u + 1)).1 + (r (u + 1)).2) && decide ((r (u + 1)).1 < (r t).1 + (r t).2)

/-- Is an entry active in a cycle whose phase group t does not own (R65)? -/
def phaseBad (s : State) (tile t : Nat) (e : Entry) : Bool :=
  (List.range (min 64 (e.run + 1))).any fun i => phaseOwner s tile e.out ((e.start + i) % 64 / 4) != t

/-- Two entries drive one output in one cycle. -/
def Entry.clash (a b : Entry) : Bool := a.out == b.out && decide (a.start ≤ b.start + b.run) && decide (b.start ≤ a.start + a.run)

/-- Does some later entry clash with an earlier one? -/
def anyClash : List Entry → Bool
  | [] => false
  | e :: r => r.any e.clash || anyClash r

/-- The first failure of R72 at one router, 0 for none. -/
def routerCheck (s : State) (t tile : Nat) : Nat :=
  let es := entries s tile t (1 - schBank s t)
  if es.isEmpty ∧ fld s (Reg.rtrSchRange tile t) RtrSchRange.COUNT = 0 then 0
  else if rangeBad s tile t then 2
  else if es.any fun e => ! portAt s tile e.inp || ! portAt s tile e.out || (e.ctx != 0 && e.inp != 10 && e.out != 10) then 3
  else if es.any (phaseBad s tile t) then 4
  else if anyClash es then 5
  else if es.any fun e => decide (shadowLen s t ≤ e.start + e.run + e.after) then 6
  else if es.any fun e => e.tenant != t then 7
  else 0

/-- Does every byte of a stack range lie in a range of its owner at a MEP (R80)? A burst may cross from one range into the next, so the range
is judged piece by piece, each ending at a 4 KiB line. -/
def mepSpans (s : State) (t m : Nat) : Nat → Nat → Nat → Bool
  | 0, _, n => n == 0
  | f + 1, a, n =>
    if n = 0 then true
    else
      let k := min n (4096 - a % 4096)
      mepAllows s t m a k && mepSpans s t m f (a + k) (n - k)

/-- Does a descriptor break R80-R83? -/
def descBad (s : State) (t : Nat) (b : Blk) (n : Nat) : Bool :=
  let d := streamDesc s b n
  let bursts := (List.range (SdBursts d + 1)).map fun j => (SdAddr d j 0, SdBytes d * (SdBeats d + 1))
  SdBase d % 256 != 0 || SdStride d % 256 != 0 || (SdBursts d != 0 && decide (SdPeriod d < SdBeats d + 1)) ||
    (match b with
     | .tni tile =>
       let tw := twinned s tile
       decide (2 ≤ SdPort d) || (decide (2 ≤ SdCh d) && ! tw) || oddTwin s tile || ! good s tile ||
         bursts.any fun r => ! (decide (r.1 + r.2 ≤ 0x800000) || (tw && decide (0x1000000 ≤ r.1) && decide (r.1 + r.2 ≤ 0x1800000)))
     | .mep m => SdPort d != 0 || bursts.any fun r => ! mepSpans s t m 4096 r.1 r.2
     | _ => true)

/-- Does a descriptor's last beat lie past the round end (R74)? -/
def descLate (s : State) (t : Nat) (b : Blk) (n : Nat) : Bool :=
  let d := streamDesc s b n
  decide (shadowLen s t ≤ SdCycle d (SdBursts d) (SdBeats d) + (if SdExtract d then 0 else 1))

/-- LEAD of a MEP (R85): clamped to 256-32,768. -/
def leadOf (s : State) (m : Nat) : Nat := min 32768 (max 256 (fld s (Reg.mepStageCfg m) MepStageCfg.LEAD))

/-- The result of the arm check (R70-R72): the lowest-numbered failure, 0 when all checks pass. -/
def armCheck (s : State) (t : Nat) : Nat :=
  let ds := descsFor s t (1 - schBank s t)
  let lead := (ds.map fun x => match x.1 with | .mep m => leadOf s m | _ => 0).foldl max 0
  let late := decide (cycleAt (fld s (Reg.fabSchArm t) FabSchArm.TIME) < (schTen s t).armAt + usCycles 4 + lead)
  let rs := ((List.range 64).map (routerCheck s t)).filter (· != 0)
  let dsB := (if ds.any fun x => descLate s t x.1 x.2 then [6] else []) ++ (if ds.any fun x => descBad s t x.1 x.2 then [8] else [])
  if late then 1 else (rs ++ dsB).foldl (fun m c => if m = 0 then c else min m c) 0

/-- SCH_ARM (R69, R70): a nonzero TIME is held and the check begins; a write of zero disarms. A second one while a takeover is pending takes its
place at once (log 162, DESIGN CHOICE). -/
def execSchArm (t time : Nat) (s : State) : Host.Outcome State Fault Refusal :=
  .next (if t = 0 ∨ 64 ≤ t ∨ time = 0 then s
    else
      let s := setFld s (Reg.fabSchArm t) FabSchArm.TIME time
      setTen (setFld s (Reg.fabSchCtx t) FabSchCtx.ARMED 0) t { schTen s t with checking := true, armAt := s.clk.now })

/-- A pending takeover dropped. -/
def schDrop (s : State) (t : Nat) : State :=
  let s := setFld (setFld s (Reg.fabSchArm t) FabSchArm.TIME 0) (Reg.fabSchCtx t) FabSchCtx.ARMED 0
  let s := if schState s t = 1 then setFld s (Reg.fabSchCtx t) FabSchCtx.STATE 0 else s
  setTen s t { schTen s t with checking := false }

/-- SCH_DISARM (R69). -/
def execSchDisarm (t : Nat) (s : State) : Host.Outcome State Fault Refusal :=
  .next (if t = 0 ∨ 64 ≤ t then s else schDrop s t)

/-- SCH_ARM_CHECK_DONE (R70): ARMED becomes 1, or ARMERR records the first failure and no takeover is armed: a tenant that waited to start
under an earlier arm waits no more. A stopped or faulted tenant waits to start. -/
def execSchArmCheckDone (t : Nat) (s : State) : Host.Outcome State Fault Refusal :=
  .next (if t = 0 ∨ 64 ≤ t ∨ ! (schTen s t).checking then s
    else
      let e := armCheck s t
      let s := setFld s (Reg.fabSchCtx t) FabSchCtx.ARMERR e
      if e ≠ 0 then schDrop s t
      else
        let s := setTen s t { schTen s t with checking := false }
        let s := setFld s (Reg.fabSchCtx t) FabSchCtx.ARMED 1
        if schState s t = 2 then s else setFld s (Reg.fabSchCtx t) FabSchCtx.STATE 1)

/-- Has tenant t any entry or descriptor for a bank (R73)? -/
def bankEmpty (s : State) (t bank : Nat) : Bool :=
  (List.range 64).all (fun tile => (entries s tile t bank).isEmpty) && (descsFor s t bank).isEmpty

/-- Every unit switches tenant t to the other bank in this cycle (R73): an empty bank stops it. Slip requests not yet resolved stand (R92);
staging places of the bank that stops are given up. -/
def switchBank (s : State) (t : Nat) : State :=
  let nb := 1 - schBank s t
  let c := Reg.fabSchCtx t
  let empty := bankEmpty s t nb
  let s := setFld s c FabSchCtx.ROUNDQ_ACT (fld s c FabSchCtx.ROUNDQ)
  let s := setFld (setFld s c FabSchCtx.BANK nb) c FabSchCtx.ARMED 0
  let s := setFld (setFld s (Reg.fabSchArm t) FabSchArm.TIME 0) c FabSchCtx.STATE (if empty then 0 else 2)
  let places := s.sch.stage.filter fun p => descTenant s (.mep p.mep) p.desc != t || p.bank == nb
  let s := { s with sch := { s.sch with stage := places } }
  let x := schTen s t
  setTen s t { x with start0 := s.clk.now, frozen := 0, quantum := none, slips := if empty then [] else x.slips }

/-- SCH_TAKEOVER (R73): at the first round boundary whose global cycle is at or after T. -/
def execSchTakeover (t : Nat) (s : State) : Host.Outcome State Fault Refusal :=
  .next (if ! flag s (Reg.fabSchCtx t) FabSchCtx.ARMED || schState s t != 2 then s
    else
      let g0 := nextAt s t 0
      let r := roundLen s t
      let need := cycleAt (fld s (Reg.fabSchArm t) FabSchArm.TIME)
      switchBank (advanceTo s (g0 + ceilDiv (need - g0) r * r)) t)

/-- SCH_START (R73): the counter starts at 0 on the first global cycle at or after T whose count is a multiple of 64. Log 57, DEDUCED. -/
def execSchStart (t : Nat) (s : State) : Host.Outcome State Fault Refusal :=
  .next (if ! flag s (Reg.fabSchCtx t) FabSchCtx.ARMED || schState s t != 1 then s
    else
      switchBank (advanceTo s (startCycle s t)) t)

/-! ### Beats at a router (R97, R98) -/

/-- Fault kinds of R98. -/
def kMissing : Nat := 1
def kMismatch : Nat := 2
def kTenant : Nat := 3
def kUnexpected : Nat := 4
def kSlipLimit : Nat := 5
def kWidth : Nat := 6

/-- The record of a scheduling fault at a router's input (R98, R625). The output of a context of the reduction unit comes in at port 10. -/
def faultRec (tile port kind tenant : Nat) : ErrRec :=
  { errOf (unitCode .router tile) .sched 2 with kind := kind, synd := (if port < 16 then port else 10) * 2 ^ 124, tenant := tenant }

/-- A scheduling fault recorded (R98). -/
def schFault (s : State) (tile port kind tenant : Nat) : State := log s (faultRec tile port kind tenant)

/-- An error on a mesh link of a router, corrected or not (`bad`), counted and recorded (R600, R604, R625). -/
def linkErr (s : State) (tile out plane : Nat) (bad : Bool) : State :=
  let e := errOf (unitCode .router tile) .linkecc (if bad then 2 else 0)
  log (bump s (Reg.eccStat (.rtr tile)) (if bad then EccStat.UE else EccStat.CE) 1)
    { e with kind := if bad then 2 else 1, synd := out * 2 ^ 124 + plane * 2 ^ 123 }

/-- An injected link error on the next flit or beat of a router output (R600, R632): how many bits of it are wrong; one is corrected and counted,
two mark the data. SEL [7:4] names the output, [0] the plane. -/
def injLink (s : State) (tile out plane : Nat) : Nat × State :=
  if injArmed s (.rtr tile) .linkecc (fun k => k / 16 == out && k % 2 == plane) then
    let n := fld s (Reg.inj (.rtr tile)) Inj.BITS
    (n, linkErr (injFire s (.rtr tile)) tile out plane (n == 2))
  else (0, s)

/-- A beat sent out of a router in this cycle (R76): to the next router's crossbar two cycles on, to a sink in the next cycle, or into the
reduction unit in this one (R78). -/
def beatOut (s : State) (tile out ctx : Nat) (b0 : Beat) : State :=
  let e := injLink s tile out 1
  let s := e.2
  let b : Beat := if e.1 = 2 then { b0 with tok := { b0.tok with psn := true } } else b0
  if out < 4 then
    let to_ := if out = 0 then tile - 8 else if out = 1 then tile + 1 else if out = 2 then tile + 8 else tile - 1
    let s := bump s (Reg.telLinkUtil tile out) TelLinkUtil.SBUSY 1
    { s with sch := { s.sch with flight := s.sch.flight ++ [⟨to_, (out + 2) % 4, s.clk.now + 2, b⟩] } }
  else { s with sch := { s.sch with sinks := s.sch.sinks ++ [⟨tile, out, ctx, b, if out = 10 then s.clk.now else s.clk.now + 1⟩] } }

/-- A poisoned beat with an entry's token (R97); its data is undefined (log 8, DESIGN CHOICE). -/
def poisonBeat (s : State) (e : Entry) (half : Bool) : Beat × State :=
  let d := drawBytes s (if half then 128 else 256)
  (⟨{ psn := true, half := half, tenant := e.tenant, stream := e.stream }, d.1⟩, d.2)

/-- One active entry's action on what arrives at its input (R97). Of several faults TENANT is judged first and WIDTH last, and the poisoned beat
is a half beat where the reduction unit is its input or output, else as wide as the beat it replaces, and a full beat for a missing one
(logs 17, DEDUCED, and 138, DESIGN CHOICE). The output of a reduction context takes the entry's token (R249). A violation writes one record, of kind TENANT. -/
def entryStep (s : State) (tile port : Nat) (b : Option Beat) (e : Entry) : State :=
  let unit := e.inp == 10 || e.out == 10
  let poison (s : State) (half : Bool) : State :=
    let p := poisonBeat s e (unit || half)
    beatOut p.2 tile e.out e.ctx p.1
  match b with
  | none => poison (schFault s tile port kMissing e.tenant) false
  | some x =>
    if 16 ≤ port then beatOut s tile e.out e.ctx ⟨{ psn := x.tok.psn, half := true, tenant := e.tenant, stream := e.stream }, x.data⟩
    else if x.tok.tenant ≠ e.tenant then poison (offence s (faultRec tile port kTenant x.tok.tenant)) x.tok.half
    else if x.tok.stream ≠ e.stream then poison (schFault s tile port kMismatch e.tenant) x.tok.half
    else if ! x.tok.half ∧ e.out = 10 then poison (schFault s tile port kWidth e.tenant) true
    else beatOut s tile e.out e.ctx x

/-- The beat on its way to a router input that a command names: the first one not frozen whose cycle has not passed. At a mesh or source port
the command's beat names it by its token; the output of a reduction context (16 and up) carries what the unit put there (R248). -/
def dueAt (s : State) (tile port : Nat) (b : Option Beat) : Option FlightBeat :=
  s.sch.flight.find? fun f => f.tile == tile && f.port == port && decide (s.clk.now ≤ f.due) && ! frozen s f.beat.tok.tenant &&
    (match b with
     | some x => decide (16 ≤ port) || (f.beat.tok.tenant == x.tok.tenant && f.beat.tok.stream == x.tok.stream)
     | none => f.due == s.clk.now)

/-- What comes in at a router input, and the state in its cycle. A beat on its way arrives in its crossbar cycle as it was sent; a beat that
nothing in the package sent arrives in the present cycle as the command gives it, but never from a reduction unit. Without a valid beat the
one due in this cycle is lost. Log 141, DESIGN CHOICE. -/
def arriving (s : State) (tile port : Nat) (b : Option Beat) : Option Beat × State :=
  match dueAt s tile port b with
  | some f =>
    let s := advanceTo { s with sch := { s.sch with flight := s.sch.flight.erase f } } f.due
    (if b.isSome then some f.beat else none, s)
  | none => (if 16 ≤ port then none else b, s)

/-- SCHEDULED_BEAT_ARRIVAL (R97): in the beat's crossbar cycle the router acts for each active entry of the input; a beat without one is
discarded as UNEXPECTED, or counted in ORPHAN when a reduction context sent it (R249). A frozen tenant's beat stays where it is (R93). -/
def execScheduledBeatArrival (tile port : Nat) (b : Option Beat) (s : State) : Host.Outcome State Fault Refusal :=
  .next (
    if (match b with | some x => frozen s x.tok.tenant | none => false) then s
    else
      let a := arriving s tile port b
      let s := a.2
      let hit := a.1.isSome && injArmed s (.rtr tile) .sched (fun k => k == port)
      let s := if hit then injFire s (.rtr tile) else s
      let b := if hit then a.1.map fun x => { x with tok := { x.tok with stream := x.tok.stream ^^^ 1 } } else a.1
      match activeFor s tile port with
      | [] => match b with
        | some x =>
          if 16 ≤ port then bump s (Reg.redCstat tile (port - 16)) RedCstat.ORPHAN 1
          else schFault s tile port kUnexpected x.tok.tenant
        | none => s
      | es => es.foldl (fun s e => entryStep s tile port b e) s)

/-! ### Sources (R80, R86) -/

/-- The SRAM port through which the pump moves n bytes at a window offset in cycle g, beside the uses `l` (R84): the first port of the tile that
holds the bytes whose slot has room. -/
def pumpPort (s : State) (l : List SlotUse) (tile off t g n : Nat) : Option Arb :=
  ((List.range 4).map fun p => Arb.sp (if off < 0x1000000 then tile else tile + 1) p).find? fun a => slotRoom s l a t g n

/-- A pump's SRAM slot of the present cycle used for n bytes. -/
def pumpUse (s : State) (tile off t n : Nat) : State :=
  match pumpPort s s.sch.uses tile off t s.clk.now n with
  | some a => useSlot s a s.clk.now n
  | none => s

/-- A staged beat's place: one that crosses in a given round of a given bank (R86). -/
def StagePlace.is (p : StagePlace) (m n j k bank round : Nat) : Bool :=
  p.mep == m && p.desc == n && p.j == j && p.k == k && p.bank == bank && p.round == round

/-- The data of a beat of a pump or of a staged MEP beat in the present cycle; `none` when the source cannot supply it (R90): a pump needs its
SRAM cycle (R84). -/
def beatData (s : State) (b : Blk) (n d j k : Nat) (array : List Byte) : Option (List Byte × Bool) :=
  let t := descTenant s b n
  match b with
  | .tni tile =>
    let a := tileAddr tile (SdAddr d j k)
    if SdPort d ≠ 0 then some (slice array 0 (SdBytes d), false)
    else if (pumpPort s s.sch.uses tile (SdAddr d j k) t s.clk.now (SdBytes d)).isSome then some (readMem s a (SdBytes d), markedIn s a (SdBytes d))
    else none
  | .mep m => (s.sch.stage.find? fun p => p.is m n j k (schBank s t) (roundNo s t)).bind StagePlace.beat
  | _ => none

/-- What a source gives up when its beat goes: a MEP its staging place (R86), a pump what the beat takes of its SRAM slot (R84). -/
def unstage (s : State) (b : Blk) (n j k : Nat) : State :=
  match b with
  | .tni tile =>
    let d := streamDesc s b n
    if SdPort d = 0 then pumpUse s tile (SdAddr d j k) (descTenant s b n) (SdBytes d) else s
  | .mep m =>
    let t := descTenant s b n
    { s with sch := { s.sch with stage := dropFirst (fun p => p.is m n j k (schBank s t) (roundNo s t)) s.sch.stage } }
  | _ => s

/-- Does a beat belong to a descriptor's program (R80)? -/
def beatIn (d j k : Nat) : Bool := decide (j ≤ SdBursts d) && decide (k ≤ SdBeats d)

/-- STREAM_BEAT_INJECT (R80, R81): in its round cycle the source puts the beat and its token on the plane. -/
def execStreamBeatInject (b : Blk) (n j k : Nat) (array : List Byte) (s : State) : Host.Outcome State Fault Refusal :=
  let d := streamDesc s b n
  let t := descTenant s b n
  .next (
    if ! runsNow s t || SdExtract d || ! beatIn d j k then s
    else
      let s' := advanceTo s (nextAt s t (SdCycle d j k))
      if ! streamOn s' b n then s
      else
      let s := s'
      match beatData s b n d j k array with
      | none => s
      | some (bs, psn) =>
        let p := descPort b d
        let s := unstage s b n j k
        let s := match b with
          | .tni tile => matchOp s tile (SdLayer d) (SdOpid d) bs.length
          | _ => tutilOut s b t (units128 bs.length)
        let beat : Beat := ⟨{ psn := psn, half := SdHalf d, tenant := t, stream := SdStream d }, bs⟩
        let s := { s with sch := { s.sch with flight := s.sch.flight ++ [⟨p.1, p.2, s.clk.now, beat⟩] } }
        roundDone s b d j k false)

/-- The crossings of beat (j, k) whose reads are still to be issued (R86): the bank, the round of that bank, and the global cycle of the read,
LEAD cycles of partition time before the crossbar cycle. The rounds of the active bank end at an armed takeover, with which those of the
shadow bank begin; a start from stopped begins with them. -/
def readsDue (s : State) (m n j k : Nat) : List (Nat × Nat × Nat) :=
  let d := streamDesc s (.mep m) n
  let t := descTenant s (.mep m) n
  let c := SdCycle d j k
  let lead := leadOf s m
  let bank := schBank s t
  let r := roundLen s t
  let r2 := shadowLen s t
  let runs (i : Nat) : Bool := SdRounds d == 0 || decide (i < SdRounds d)
  let x := schTen s t
  if t = 0 ∨ 64 ≤ t then []
  else if schState s t = 2 then
    let p := partTime s t
    let base := match x.quantum with | some q => max s.clk.now (q + 64) | none => s.clk.now
    let stop := boundary s t
    let first := (p + lead - c + r - 1) / r
    ((List.range 514).filterMap fun i =>
      let q := (first + i) * r + c
      if inBank d bank && runs (first + i) && decide (p + lead ≤ q) && (match stop with | some b => decide (q < b) | none => true) then
        some (bank, first + i, base + (q - lead - p)) else none) ++
    (match stop with
     | none => []
     | some b => (List.range 514).filterMap fun i =>
       let q := b + i * r2 + c
       if inBank d (1 - bank) && runs i && decide (p + lead ≤ q) then some (1 - bank, i, base + (q - lead - p)) else none)
  else if schState s t = 1 ∧ flag s (Reg.fabSchCtx t) FabSchCtx.ARMED then
    (List.range 514).filterMap fun i =>
      let g := startCycle s t + i * r2 + c - lead
      if inBank d (1 - bank) && runs i && decide (s.clk.now ≤ g) then some (1 - bank, i, g) else none
  else []

/-- MEP_STAGE_READ_ISSUE (R86): LEAD cycles of partition time before the crossbar cycle the read is issued and its place taken; with
16,384 places occupied it is not issued. The command issues the next read of the beat that has no place yet. -/
def execMepStageReadIssue (m n j k : Nat) (s : State) : Host.Outcome State Fault Refusal :=
  let d := streamDesc s (.mep m) n
  .next (
    if SdExtract d || ! beatIn d j k then s
    else match (readsDue s m n j k).find? fun x => ! s.sch.stage.any fun p => p.is m n j k x.1 x.2.1 with
      | none => s
      | some x =>
        let s := advanceTo s x.2.2
        if 16384 ≤ (s.sch.stage.filter fun p => p.mep == m).length then s
        else { s with sch := { s.sch with stage := s.sch.stage ++ [⟨m, n, j, k, x.1, x.2.1, s.clk.now, none⟩] } })

/-- The first slot of tenant t at a MEP's arbiter since cycle a with room for n bytes (R84). -/
def slotSince (s : State) (m t a n : Nat) : Option Nat :=
  ((List.range (s.clk.now + 1 - a)).map (a + ·)).find? fun g => slotRoom s s.sch.uses (.mep m) t g n

/-- MEP_STACK_READ_DONE (R84, R86): the data returns into its place, marked where the stack's line is marked or the controller says so. It
cannot have returned before a slot that the schedule owns let the read go to the stack, and it uses that slot. -/
def execMepStackReadDone (m n j k : Nat) (psn : Bool) (s : State) : Host.Outcome State Fault Refusal :=
  let d := streamDesc s (.mep m) n
  let a := fabAddr 0 (ofStack m (SdAddr d j k))
  let v := some (readMem s a (SdBytes d), psn || markedIn s a (SdBytes d))
  let slot (p : StagePlace) : Option Nat := slotSince s m (descTenant s (.mep m) n) p.at_ (SdBytes d)
  let at_ (p : StagePlace) : Bool := p.mep == m && p.desc == n && p.j == j && p.k == k && p.beat.isNone && (slot p).isSome
  .next (match s.sch.stage.find? at_ with
    | none => s
    | some p =>
      let s := match slot p with | some g => useSlot s (.mep m) g (SdBytes d) | none => s
      { s with sch := { s.sch with stage := updFirst (· == p) (fun p => { p with beat := v }) s.sch.stage } })

/-! ### Sinks (R77, R88, R89) -/

/-- The PSN bit of a sink stream (R608). -/
def psnReg (b : Blk) (n : Nat) : Nat := match b with | .tni t => Reg.tniPumpPsn t (n / 64) | .mep m => Reg.mepStreamPsn m (n / 64) | _ => 0
def psnBit (s : State) (b : Blk) (n : Nat) : Bool := bit (rd s (psnReg b n)).toNat (n % 64)
def setPsn (s : State) (b : Blk) (n : Nat) : State := raise s (psnReg b n) (2 ^ (n % 64))

/-- A sink stream that takes a poisoned beat is dead (R607): its bit is set and one record is written; a stream already dead writes none. -/
def sinkPoison (s : State) (b : Blk) (n d : Nat) (psn : Bool) : State :=
  if ! psn then s
  else if psnBit s b n then setPsn s b n
  else log (setPsn s b n) { errOf (blkUnit b) .poisonin 2 with tenant := descTenant s b n, status := .poisoned, layer := SdLayer d, opid := SdOpid d }

/-- Is the absorb buffer of a MEP full: 8,192 beats (R85)? Another unit has none. -/
def absorbFull (s : State) (b : Blk) : Bool :=
  match b with
  | .mep m => decide (8192 ≤ (s.sch.absorb.filter fun (a : AbsorbBeat) => a.mep == m).length)
  | _ => false

/-- A sink's beat that an extract descriptor takes: a TNI stores it or gives it to the array's stream port (R79), a MEP's absorb buffer gathers
it (R85). -/
def sinkBeat (s : State) (b : Blk) (n j k : Nat) (d t : Nat) (x : SinkBeat) : State :=
  let s := { s with sch := { s.sch with sinks := s.sch.sinks.erase x } }
  let bs := slice x.beat.data 0 (SdBytes d)
  let s := match b with
    | .tni tile =>
      if SdPort d = 0 then storeSeen (pumpUse s tile (SdAddr d j k) t (SdBytes d)) (tileAddr tile (SdAddr d j k)) bs x.beat.tok.psn
      else { s with sch := { s.sch with arrays := s.sch.arrays ++ [⟨tile, n, bs, x.beat.tok.psn⟩] } }
    | .mep m =>
      let s := tutilIn s b t (units128 bs.length)
      let y : AbsorbBeat := ⟨m, n, SdAddr d j k, bs, x.beat.tok.psn, t⟩
      { s with sch := { s.sch with absorb := s.sch.absorb ++ [y] } }
    | _ => s
  let s := sinkPoison s b n d x.beat.tok.psn
  roundDone s b d j k (psnBit s b n)

/-- Can a sink take a beat in the present cycle: a pump has its SRAM cycle (R84), a MEP room to absorb it (R85)? -/
def sinkTakes (s : State) (b : Blk) (d j k t : Nat) : Bool :=
  match b with
  | .tni tile => SdPort d != 0 || (pumpPort s s.sch.uses tile (SdAddr d j k) t s.clk.now (SdBytes d)).isSome
  | _ => ! absorbFull s b

/-- STREAM_BEAT_EXTRACT (R77, R80, R88): in the delivery cycle the sink takes the beat delivered in it and writes it, a MEP into its
absorption buffer. A pump without an SRAM cycle of its own takes nothing (log 140, DESIGN CHOICE). -/
def execStreamBeatExtract (b : Blk) (n j k : Nat) (s : State) : Host.Outcome State Fault Refusal :=
  let d := streamDesc s b n
  let t := descTenant s b n
  let p := descPort b d
  .next (
    if ! runsNow s t || ! SdExtract d || ! beatIn d j k then s
    else
      let s' := advanceTo s (nextAt s t (SdCycle d j k))
      if ! streamOn s' b n then s
      else
      let s := s'
      match s.sch.sinks.find? fun x => x.tile == p.1 && x.port == p.2 && x.at_ == s.clk.now && x.beat.tok.tenant == t &&
          x.beat.tok.stream == SdStream d with
      | none => s
      | some x => if sinkTakes s b d j k t then sinkBeat s b n j k d t x else s)

/-- Has an absorbed beat's write a MEP's slot in cycle g (R84)? -/
def absorbSlot (s : State) (m g : Nat) (a : AbsorbBeat) : Bool := a.mep == m && slotRoom s s.sch.uses (.mep m) a.tenant g a.data.length

/-- MEP_ABSORB_WRITE (R84, R88): in the next slot that the schedule of a tenant with absorbed beats owns and that has room, the oldest of them goes
to the stack. -/
def execMepAbsorbWrite (m : Nat) (s : State) : Host.Outcome State Fault Refusal :=
  .next (match ((List.range 1024).map (s.clk.now + ·)).find? fun g => s.sch.absorb.any (absorbSlot s m g) with
    | none => s
    | some g =>
      let s := advanceTo s g
      match s.sch.absorb.find? (absorbSlot s m g) with
      | none => s
      | some a =>
        let s := useSlot s (.mep m) g a.data.length
        store { s with sch := { s.sch with absorb := s.sch.absorb.erase a } } (fabAddr 0 (ofStack m a.addr)) a.data a.psn)

/-- Is a stream bound at a lane port or an RTE channel (R467, R528)? -/
def boundAt (s : State) (b : Blk) (ch : Nat) (k : Token) : Bool :=
  match b with
  | .lp n => (List.range 16).any fun i =>
    let r := Reg.lpSbindA n i
    flag s r LpSbindA.V && fld s r LpSbindA.STREAM == k.stream && fld s r LpSbindA.TENANT == k.tenant
  | .rte n => (List.range 64).any fun i =>
    let r := Reg.rteSbindA n i
    flag s r RteSbindA.V && fld s r RteSbindA.STREAM == k.stream && fld s r RteSbindA.TENANT == k.tenant && fld s r RteSbindA.CH == ch
  | _ => false

/-- Beats in the ingress buffer of a channel. -/
def ingressCount (s : State) (b : Blk) (ch : Nat) : Nat := (s.sch.ingress.filter fun y => y.blk == b && y.ch == ch).length

/-- SCHED_INGRESS_BEAT (R76, R89): in its delivery cycle the port takes a beat into the ingress buffer of its channel, 1,024 beats deep; a stream without an enabled
binding is UNEXPECTED. -/
def execSchedIngressBeat (b : Blk) (ch : Nat) (s : State) : Host.Outcome State Fault Refusal :=
  let port := match b with | .rte _ => 7 + ch | _ => 6
  .next (match s.sch.sinks.find? fun x => x.tile == blkTile b && x.port == port && decide (s.clk.now ≤ x.at_) && ! frozen s x.beat.tok.tenant with
    | none => s
    | some x =>
      let s := advanceTo s x.at_
      let drop (s : State) : State := { s with sch := { s.sch with sinks := s.sch.sinks.erase x } }
      if ! boundAt s b ch x.beat.tok then schFault (drop s) (blkTile b) port kUnexpected x.beat.tok.tenant
      else if 1024 ≤ ingressCount s b ch then s
      else
        let s := drop s
        { s with sch := { s.sch with ingress := s.sch.ingress ++ [⟨b, ch, x.beat⟩] } })

/-- The oldest beats of a list that fill `need` bytes, and their data. -/
def fillFrom : Nat → List IngressBeat → List IngressBeat × List Byte
  | _, [] => ([], [])
  | need, y :: r =>
    if need = 0 then ([], [])
    else
      let bs := slice y.beat.data 0 (if y.beat.tok.half then 128 else 256)
      let x := fillFrom (need - bs.length) r
      (y :: x.1, bs ++ x.2)

/-- The next `n` bytes of a bound stream moved out of the ingress buffer (R89, R467, R528): only as much as one write needs, and nothing before
all of it is there; a write too long for the buffer is gathered as its beats come. Log 143, DEDUCED. -/
def bindGather (s : State) (key : Nat) (b : Blk) (ch : Nat) (t st n : Nat) : State :=
  let mine (y : IngressBeat) : Bool := y.blk == b && y.ch == ch && y.beat.tok.tenant == t && y.beat.tok.stream == st
  let r := eGet {} key s.sch.binds
  let x := fillFrom (n - r.gathered.length) (s.sch.ingress.filter mine)
  if r.gathered.length + x.2.length < n ∧ n ≤ 0x20000 then s
  else
    let r := { r with gathered := r.gathered ++ x.2, psn := r.psn || x.1.any fun y => y.beat.tok.psn }
    { s with sch := { s.sch with ingress := x.1.foldl (fun l y => l.erase y) s.sch.ingress, binds := eSet {} key r s.sch.binds } }

/-- LP_SBIND_WRITE (R528): 4,096 gathered bytes of a bound stream leave as one WR to ADDR + offset; the offset wraps at WIN. -/
def execLpSbindWrite (lp b : Nat) (s : State) : Host.Outcome State Fault Refusal :=
  let a := Reg.lpSbindA lp b
  let c := Reg.lpSbindC lp b
  let key := lp * 64 + b
  .next (
    if ! flag s a LpSbindA.V then s
    else
      let t := fld s a LpSbindA.TENANT
      let s := bindGather s key (.lp lp) 0 t (fld s a LpSbindA.STREAM) 4096
      let r := eGet {} key s.sch.binds
      if r.gathered.length < 4096 then s
      else
        let win := fld s c LpSbindC.WIN
        let off := if win ≤ r.offset + 4096 then 0 else r.offset + 4096
        let p : Pkt := { opc := .wr, src := lpEp (myChip s) lp,
                         dst := ⟨fld s c LpSbindC.DCHIP, 8 * fld s c LpSbindC.DY + fld s c LpSbindC.DX, fld s c LpSbindC.DEP⟩,
                         tenant := t, prio := fld s a LpSbindA.PRIO, addr := fld s (Reg.lpSbindB lp b) LpSbindB.ADDR + r.offset,
                         nbytes := 4096, poison := r.psn, data := r.gathered.take 4096 }
        let r := { r with offset := off, gathered := r.gathered.drop 4096, psn := false }
        let s := { s with sch := { s.sch with binds := eSet {} key r s.sch.binds } }
        enqueue s p (.sbind (Reg.ctr (.lp lp) (fld s a LpSbindA.CTR))))

/-! ### Slips (R90-R96) -/

/-- The burst and beat of a descriptor that fall on a round cycle (R80). -/
def beatOn (d c : Nat) : Option (Nat × Nat) :=
  if c < SdStart d then none
  else
    let o := c - SdStart d
    let j := if SdBursts d = 0 then 0 else min (SdBursts d) (o / SdPeriod d)
    let k := o - j * SdPeriod d
    if k ≤ SdBeats d then some (j, k) else none

/-- A beat due at a unit: its descriptor, burst, beat, bank and round. -/
structure DueBeat where
  desc : Nat
  j : Nat
  k : Nat
  bank : Nat
  round : Nat
  deriving DecidableEq, Repr

/-- The beats of one direction that a pump or MEP has due in a cycle that has not yet come (R90). -/
def dueBeats (s : State) (b : Blk) (ext : Bool) (g : Nat) : List DueBeat :=
  (List.range (descCount b)).filterMap fun n =>
    let d := streamDesc s b n
    if SdExtract d != ext then none
    else (schView s (descTenant s b n) g).bind fun v =>
      if inBank d v.1 && (SdRounds d == 0 || decide (v.2.1 < SdRounds d)) then (beatOn d v.2.2).map fun p => ⟨n, p.1, p.2, v.1, v.2.1⟩ else none

/-- The beats that a router port delivers in a cycle that has not yet come, of a tenant (R76). -/
def portDue (s : State) (tile port t g : Nat) : Nat :=
  match schView s t g with
  | some v => if v.2.2 = 0 then 0 else ((entries s tile t v.1).filter fun e => e.out == port && e.active (v.2.2 - 1)).length
  | none => 0

/-- Would a buffer of `room` places that holds `used` lack one for a beat due 32 cycles on, with `due` beats coming in each cycle till then? What
leaves the buffer meanwhile is not counted on. Log 139, DESIGN CHOICE. -/
def lacksRoom (s : State) (used room : Nat) (due : Nat → Nat) : Bool :=
  decide (room < used + ((List.range 33).map fun i => due (s.clk.now + i)).foldl (· + ·) 0)

/-- Does a pump lack an SRAM slot for one of the beats it has due in cycle g (R84), beside the uses `l`? -/
def pumpLacks (s : State) (tile t g : Nat) : List SlotUse → List DueBeat → Bool
  | _, [] => false
  | l, x :: r =>
    let d := streamDesc s (.tni tile) x.desc
    SdPort d != 0 || match pumpPort s l tile (SdAddr d x.j x.k) t g (SdBytes d) with
      | none => true
      | some a => pumpLacks s tile t g (l ++ [⟨a, g, SdBytes d⟩]) r

/-- Can a unit not supply or accept a beat of tenant t that it has due 32 cycles on (R90)? Whether an array's stream port is ready is the
array's: the command says it is not (log 139). -/
def slips (s : State) (t : Nat) (b : Blk) : Bool :=
  let g := s.clk.now + 32
  let mine (e : Bool) := (dueBeats s b e g).filter fun x => descTenant s b x.desc == t
  match b with
  | .tni tile => pumpLacks s tile t g s.sch.uses (mine true ++ mine false)
  | .mep m => ((mine false).any fun x => ! s.sch.stage.any fun p => p.is m x.desc x.j x.k x.bank x.round && p.beat.isSome) ||
    (! (mine true).isEmpty && lacksRoom s (s.sch.absorb.filter fun (a : AbsorbBeat) => a.mep == m).length 8192 fun g => (dueBeats s b true g).length)
  | .lp _ => decide (0 < portDue s (blkTile b) 6 t g) &&
    lacksRoom s (ingressCount s b 0) 1024 fun g => ((List.range 64).map fun u => portDue s (blkTile b) 6 u g).foldl (· + ·) 0
  | .rte _ => (List.range 2).any fun c => decide (0 < portDue s (blkTile b) (7 + c) t g) &&
    lacksRoom s (ingressCount s b c) 1024 fun g => ((List.range 64).map fun u => portDue s (blkTile b) (7 + c) u g).foldl (· + ·) 0
  | _ => false

/-- The sources and sinks of a router: its pump and its edge unit. -/
def slipUnits (tile : Nat) : List Blk :=
  [.tni tile] ++ (match epKind tile 1 with | .mep m => [.mep m] | .lp n => [.lp n] | _ => []) ++
    (match epKind tile 2 with | .rte n => [.rte n] | _ => [])

/-- SLIP_ASSERT (R90, R91, R95): a unit that lacks a beat due at g + 32, with the freezes it knows, sends a slip message with TENANT and the low
8 bits of g to the whole package. A beat held back by a freeze is judged again 32 cycles before its new cycle. -/
def execSlipAssert (t tile : Nat) (s : State) : Host.Outcome State Fault Refusal :=
  .next (if ! (slipUnits tile).any (slips s t) then s
    else spSend s ⟨myChip s, tile, 4⟩ ⟨[spWord0 .slip t ⟨myChip s, 0, 0⟩ 0 0 true 0 0 0, s.clk.now % 256]⟩)

/-- The cycle of the slip whose low 8 bits a message carries: at most 255 cycles ago (R91). -/
def slipCycle (now low : Nat) : Nat := now - (now + 256 - low % 256) % 256

/-- A number put into an ascending list. -/
def insSorted (n : Nat) : List Nat → List Nat
  | [] => [n]
  | a :: r => if n ≤ a then n :: a :: r else a :: insSorted n r

/-- SLIP (R91, R92, R96): the request is counted and waits for its start in ascending order. A slip never leaves its package. -/
def execSlip (m : SpMsg) (s : State) : Host.Outcome State Fault Refusal :=
  .next (spArrive s m fun s =>
    let t := SpTenant m
    if SpKindOf m ≠ .slip ∨ (SpDst m).chip ≠ myChip s then s
    else
      let s := bump s (Reg.fabSchStat t) FabSchStat.SLIPS 1
      let x := schTen s t
      setTen s t { x with slips := insSorted (slipCycle s.clk.now (SpWord m 1) + 32) x.slips })

/-- SLIPMAX (R68: 0 means 1,024). -/
def slipMax (s : State) (t : Nat) : Nat :=
  let m := fld s (Reg.fabSchCtx t) FabSchCtx.SLIPMAX
  if m = 0 then 1024 else m

/-- The freeze quantum in force ended (R93, R94): every beat in flight or in a hold store moves on from where it stopped, 64 cycles later. -/
def thaw (s : State) (t : Nat) : State :=
  let x := schTen s t
  match x.quantum with
  | none => s
  | some q =>
    let s := advanceTo s (q + 64)
    let later (f : FlightBeat) : FlightBeat := if f.beat.tok.tenant = t ∧ q ≤ f.due then { f with due := f.due + 64 } else f
    let late (f : SinkBeat) : SinkBeat := if f.beat.tok.tenant = t ∧ q ≤ f.at_ then { f with at_ := f.at_ + 64 } else f
    let mine (f : FlightBeat) : Bool := f.beat.tok.tenant == t
    setTen { s with sch := { s.sch with flight := ((s.sch.hold.filter mine) ++ s.sch.flight).map later,
                                        hold := s.sch.hold.filter fun f => ! mine f, sinks := s.sch.sinks.map late } } t
      { x with quantum := none, frozen := x.frozen + 64, thawed := q + 64 }

/-- Tenant t frozen from this cycle on (R94): its beats at router inputs and on the links to them go to the hold stores. -/
def holdBeats (s : State) (t : Nat) : State :=
  let mine (f : FlightBeat) : Bool := f.beat.tok.tenant == t && decide (f.port < 16) && decide (s.clk.now ≤ f.due)
  { s with sch := { s.sch with hold := s.sch.hold ++ s.sch.flight.filter mine, flight := s.sch.flight.filter fun f => ! mine f } }

/-- A tenant's frozen and in-flight beats discarded (R95). -/
def dropBeats (s : State) (t : Nat) : State :=
  { s with sch := { s.sch with flight := s.sch.flight.filter fun f => f.beat.tok.tenant != t,
                               hold := s.sch.hold.filter fun f => f.beat.tok.tenant != t,
                               sinks := s.sch.sinks.filter fun f => f.beat.tok.tenant != t,
                               stage := s.sch.stage.filter fun p => descTenant s (.mep p.mep) p.desc != t } }

/-- Tenant t's schedule stopped at once (R95), with a record: SLIP_LIMIT, or an error in its configuration (R602). A takeover that is still pending
goes with it. Log 83, DEDUCED. -/
def schStop (s : State) (t : Nat) (e : ErrRec) : State :=
  let sinks := (descsFor s t (schBank s t)).filter fun x => SdExtract (streamDesc s x.1 x.2)
  let s := sinks.foldl (fun s x => setPsn s x.1 x.2) s
  let s := setFld (schDrop s t) (Reg.fabSchCtx t) FabSchCtx.STATE 3
  let s := dropBeats s t
  let s := setTen s t { schTen s t with quantum := none, slips := [], consec := 0 }
  logReport s e

/-- Tenant t stopped by SLIP_LIMIT (R95): a stopped schedule is of class UNIT (R624). The record names router 0, and port 0 (log 137, DESIGN CHOICE). -/
def slipStop (s : State) (t : Nat) : State := schStop s t { errOf (unitCode .router 0) .sched 4 with kind := kSlipLimit, tenant := t }

/-- Would a quantum that starts at `start` be one more than SLIPMAX in a row (R95)? -/
def pastLimit (s : State) (t start : Nat) : Bool :=
  let x := schTen s t
  start == x.thawed && decide (slipMax s t < x.consec + 1)

/-- FREEZE_QUANTUM_START (R92): the earliest request is resolved: absorbed when t is already frozen in its start cycle, else t freezes for
64 cycles, unless that passes SLIPMAX (R95). -/
def execFreezeQuantumStart (t : Nat) (s : State) : Host.Outcome State Fault Refusal :=
  .next (match (schTen s t).slips with
    | [] => s
    | st :: rest =>
      let x := schTen s t
      let absorbed := (match x.quantum with | some q => decide (q ≤ st) && decide (st < q + 64) | none => false) || decide (st < x.thawed)
      if absorbed then setTen s t { x with slips := rest }
      else
        let s := thaw s t
        if pastLimit s t st then slipStop s t
        else
          let s := bump (advanceTo s st) (Reg.fabSchStat t) FabSchStat.QUANTA 1
          let y := schTen s t
          let s := holdBeats s t
          setTen s t { y with slips := rest, quantum := some st, consec := if st = y.thawed then y.consec + 1 else 1 })

/-- FREEZE_QUANTUM_END (R93). -/
def execFreezeQuantumEnd (t : Nat) (s : State) : Host.Outcome State Fault Refusal := .next (thaw s t)

/-- SLIP_LIMIT_STOP (R95): the next quantum would be more than SLIPMAX in a row. -/
def execSlipLimitStop (t : Nat) (s : State) : Host.Outcome State Fault Refusal :=
  .next (match (schTen s t).slips with
    | [] => s
    | st :: _ =>
      let s' := thaw s t
      if pastLimit s' t st then slipStop s' t else s)

/-! ### Registers of the scheduled plane and of the package (R46, R50, R66, R82, R83) -/

/-- Are all sixteen lane ports held in reset (R46)? -/
def lanesHeld (s : State) : Bool := (List.range 16).all fun n => fld s (Reg.lpState n) LpState.STATE == 0

/-- FAB_PKG_INFO_WRITE (R46). A DCHIP outside the torus is recorded, as the FMP's, FORMAT, CONTEXT (log 144, DESIGN CHOICE). -/
def execFabPkgInfoWrite (v : Nat) (s : State) : Host.Outcome State Fault Refusal :=
  .next (if ! lanesHeld s then s
    else
      let s := softWrite s Reg.fabPkgInfo v
      if inTorus s (myChip s) then s else log s (errOf (unitCode .fmp 0) .format 2))

/-- The tiles of pair p are good and belong to no partition (R50). -/
def pairFree (s : State) (p : Nat) : Bool := good s (2 * p) && good s (2 * p + 1) && owner s (2 * p) == 0xFF && owner s (2 * p + 1) == 0xFF

/-- TWIN_MAP_WRITE (R50): each bit by itself. The pair's shared cistern takes its reservable count (R117, R128). -/
def execTwinMapWrite (v : Nat) (s : State) : Host.Outcome State Fault Refusal :=
  .next ((List.range 32).foldl (fun s p =>
    if twinned s (2 * p) == bit v p || ! pairFree s p then s
    else
      let w := putBits (rd s Reg.fabTwinMap).toNat p p (b2n (bit v p))
      let c := Reg.cisternStat (.tni (2 * p))
      let free := fld s c CisternStat.FREE
      setFld (wrReg s Reg.fabTwinMap (BitVec.ofNat 64 w)) c CisternStat.FREE (if bit v p then free + 2048 else free - 2048)) s)

/-- Is an owner stopped, or none (R66, R82)? A value that names no tenant with a schedule counts as stopped (log 136, DEDUCED). -/
def ownerStopped (s : State) (t : Nat) : Bool := t == 0xFF || ! (decide (1 ≤ t) && decide (t ≤ 63)) || schState s t == 0

/-- A register of eight 8-bit owner fields written, each field only where `ok` allows the change. -/
def ownersWrite (old v : Nat) (ok : Nat → Nat → Nat → Bool) : Nat :=
  (List.range 8).foldl (fun w j =>
    let a := bits old (8 * j + 7) (8 * j)
    let b := bits v (8 * j + 7) (8 * j)
    if a = b ∨ ok j a b then putBits w (8 * j + 7) (8 * j) b else w) old

/-- PHASE_OWNER_WRITE (R66). -/
def execPhaseOwnerWrite (tile port : Nat) (hi : Bool) (v : Nat) (s : State) : Host.Outcome State Fault Refusal :=
  let r := if hi then Reg.rtrPhaseHi tile port else Reg.rtrPhaseLo tile port
  .next (if 64 ≤ tile ∨ 11 ≤ port then s
    else wrReg s r (BitVec.ofNat 64 (ownersWrite (rd s r).toNat v fun _ a b => ownerStopped s a && ownerStopped s b)))

/-- MEP_DESC_OWNER_WRITE (R82). -/
def execMepDescOwnerWrite (mep k v : Nat) (s : State) : Host.Outcome State Fault Refusal :=
  let r := Reg.mepDescOwner mep k
  .next (if 12 ≤ mep ∨ 64 ≤ k then s
    else wrReg s r (BitVec.ofNat 64 (ownersWrite (rd s r).toNat v fun j a b =>
      ownerStopped s a && ownerStopped s b && SdBanks (streamDesc s (.mep mep) (8 * k + j)) == 0)))

/-- Defined bits of a descriptor (R79): [208:192], [29:3] and bit 0 read as zero. -/
def descMask (d : Nat) : Nat := putBits (putBits (putBits d 208 192 0) 29 3 0) 0 0 0

/-- Is a write to a descriptor discarded (R75, R83): its BANKS, before or after, hold the active bank of a running tenant, or the shadow
bank of an armed one? -/
def descLocked (s : State) (b : Blk) (n new : Nat) : Bool :=
  let t := descTenant s b n
  let old := streamDesc s b n
  let bank := schBank s t
  decide (1 ≤ t) && decide (t ≤ 63) &&
    ((schState s t == 2 && inBank old bank) ||
     (flag s (Reg.fabSchCtx t) FabSchCtx.ARMED && (inBank old (1 - bank) || inBank new (1 - bank))))

/-- STREAM_DESC_WRITE (R83, R683): the first three slots are held; the fourth writes the descriptor as a whole, unless it is locked. -/
def execStreamDescWrite (b : Blk) (slot v : Nat) (s : State) : Host.Outcome State Fault Refusal :=
  let n := slot / 4
  let base := descSlot b (4 * n)
  .next (
    if descCount b ≤ n then s
    else if slot % 4 < 3 then
      { s with bus := { s.bus with slots := (s.bus.slots.filter fun x => x.1 != descSlot b slot) ++ [(descSlot b slot, BitVec.ofNat 64 v)] } }
    else
      let held (i : Nat) : Nat := match s.bus.slots.find? fun x => x.1 == base + 8 * i with
        | some x => x.2.toNat
        | none => (rd s (base + 8 * i)).toNat
      let d := descMask (held 0 + held 1 * 2 ^ 64 + held 2 * 2 ^ 128 + v % 2 ^ 64 * 2 ^ 192)
      let s := { s with bus := { s.bus with slots := s.bus.slots.filter fun x => ! (decide (base ≤ x.1) && decide (x.1 < base + 32)) } }
      if descLocked s b n d then s
      else (List.range 4).foldl (fun s i => wrReg s (base + 8 * i) (BitVec.ofNat 64 (bits d (64 * i + 63) (64 * i)))) s)

end Sys2Proof.Machine
end

