-- ==== Sys2Proof/Machine/Arbiter.lean ====
section
/-!
DEFINITION. Edge arbitration and shaping (chapter 4): the decision of each arbiter cycle, credits, parking, the watchdog, starvation and
the policy loop, slot-table switches, shapers and gate lists.
-/
namespace Sys2Proof.Machine

/-! ### An arbiter's state -/

/-- Is the arbiter clocked by the fabric clock (R148)? -/
def fabClocked : Arb → Bool
  | .lp _ => false
  | .hp => false
  | _ => true

/-- Does a lane port run at half width (R496, R519)? -/
def halfWide (s : State) (n : Nat) : Bool := fld s (Reg.lpState n) LpState.WIDTH == 1 || fld s (Reg.lpState n) LpState.WIDTH == 2

/-- Arbiter cycles of one ns, as a fraction: cycles per ns are `p.2 / p.1` (R145: a fabric cycle of 4/9 ns, a lane port's block of
25/32 ns, twice as long at half width (R496), a host-port cycle of 8/9 ns). -/
def arbPeriod (s : State) : Arb → Nat × Nat
  | .lp n => if halfWide s n then (25, 16) else (25, 32)
  | .hp => (8, 9)
  | _ => (4, 9)

/-- Requester states (R168). -/
def rCredit (s : State) (a : Arb) (r : Nat) : Nat := fld s (Reg.arbRstat a r) ArbRstat.CREDIT
def rAge (s : State) (a : Arb) (r : Nat) : Nat := fld s (Reg.arbRstat a r) ArbRstat.AGE
def rWait (s : State) (a : Arb) (r : Nat) : Nat := fld s (Reg.arbRstat a r) ArbRstat.WAIT
/-- Tokens run from −32 to BURST (R168); the register shows their low 16 bits (log 46, DEDUCED). -/
def rTokens (s : State) (a : Arb) (r : Nat) : Int := eGet 0 (Reg.arbRstat a r) s.arb.tokens
def setTokens (s : State) (a : Arb) (r : Nat) (v : Int) : State :=
  let s := { s with arb := { s.arb with tokens := eSet 0 (Reg.arbRstat a r) v s.arb.tokens } }
  setFld s (Reg.arbRstat a r) ArbRstat.TOKENS (unsigned 16 v)

/-- A global cycle and the arbiter cycle that began in it, from which an arbiter's cycles are counted (R148): a lane port's count goes on from where
its width last changed (R496; log 166, DEDUCED). -/
def arbBase (s : State) (a : Arb) : Nat × Nat := if fabClocked a then (0, 0) else (arbRun s a).pace.getD (s.arb.since, 0)

/-- The arbiter cycle that runs at a global cycle, and the first global cycle at or after an arbiter cycle's start (R148). -/
def arbNow (s : State) (a : Arb) : Nat :=
  (arbBase s a).2 + (s.clk.now - (arbBase s a).1) * 4 * (arbPeriod s a).2 / (9 * (arbPeriod s a).1)
def arbCycleAt (s : State) (a : Arb) (n : Nat) : Nat :=
  (arbBase s a).1 + ceilDiv ((n - (arbBase s a).2) * 9 * (arbPeriod s a).1) (4 * (arbPeriod s a).2)

/-- The first arbiter cycle that begins at or after a global cycle. -/
def arbFrom (s : State) (a : Arb) (g : Nat) : Nat :=
  (arbBase s a).2 + ceilDiv ((g - (arbBase s a).1) * 4 * (arbPeriod s a).2) (9 * (arbPeriod s a).1)

/-- An arbiter's count rebased before its pace changes (R148, R496). -/
def arbPace (s : State) (a : Arb) : State := setRun s a { arbRun s a with pace := some (s.clk.now, arbNow s a) }

/-- The tenant whose active entry drives the reduction unit of a router in this cycle (R150). -/
def ruOwner (s : State) (t : Nat) : Option Nat :=
  (List.range 64).findSome? fun u =>
    if runsNow s u && (entries s t u (schBank s u)).any (fun e => e.out == 10 && e.active (roundCycle s u)) then some (64 + u) else none

/-- The owner of the present cycle (R148-R150): a reduction unit's slot table reserves cycles for DYN requesters alone. -/
def ownerOf (s : State) (a : Arb) (n : Nat) : Option Nat :=
  match a with
  | .ru t => match ruOwner s t with
    | some o => some o
    | none => (slotOwner s a n).bind fun o => if o < 64 then some o else none
  | _ => slotOwner s a n

/-! ### Offers -/

/-- Is a transfer a locked sequence at an arbiter (R159)? -/
def lockedAt : Arb → SeqKind → Bool
  | .mep _, .atomic => true
  | .sp _ _, .atomic => true
  | .sp _ _, .channel => true
  | .rte _, .bundle => true
  | .hp, .command => true
  | _, _ => false

/-- The gate of a request (R175): a lane port's by its phase class, 7 for other P0-P2 traffic; an RTE's by its Ethernet class; 8 for what no gate
governs, P3 packets among it. -/
def gateOf (a : Arb) (q : ArbReq) : Nat :=
  match a with
  | .lp _ | .rte _ => if q.prio = 3 then 8 else min 7 q.cls
  | _ => 8

/-- Among candidate transfers of one requester, the first of the highest PRIO (R147). -/
def pickPrio (l : List ArbTx) : Option ArbTx :=
  l.foldl (fun (o : Option ArbTx) x => match o with
    | none => some x
    | some y => if y.req.prio < x.req.prio then some x else some y) none

/-- Is a transfer that of a request? -/
def ArbTx.of (t : ArbTx) (q : ArbReq) : Bool := t.req.who == q.who && t.req.id == q.id

/-- What is ready at an arbiter in this cycle, in the order in which the requests arrived, which is that of `reqs` (R147): parked transfers whose
next grain is ready, and fresh requests of at most 32 grains (R185). -/
def readyTx (x : ArbRun) (reqs : List ArbReq) : List ArbTx :=
  reqs.filterMap fun q =>
    if ! q.ready || (match x.current with | some c => c.of q | none => false) || (match x.lock with | some c => c.of q | none => false) then none
    else match x.parked.find? fun t => t.of q with
      | some t => some t
      | none => some { req := { q with grains := min 32 q.grains }, progress := 0, charged := false }

/-- A requester's offer. -/
def offerOf (x : ArbRun) (reqs : List ArbReq) (r : Nat) : Option ArbTx := pickPrio ((readyTx x reqs).filter fun t => t.req.who == r)

/-- Has the current transfer its next grain ready? -/
def currentReady (c : ArbTx) (reqs : List ArbReq) : Bool := reqs.any fun q => q.who == c.req.who && q.id == c.req.id && q.ready

/-- The transfer with a grain ready that a slot's owner has (R152): its current one, or else its offer. -/
def slotTx (x : ArbRun) (reqs : List ArbReq) (o : Nat) : Option ArbTx :=
  match x.current with
  | some c => if c.req.who = o ∧ currentReady c reqs then some c else offerOf x reqs o
  | none => offerOf x reqs o

/-! ### Gates (R175-R179) -/

/-- A gate list's position and the active entry's registers. -/
def gateRun (s : State) (b : Blk) : GateRun := eGet {} b.base s.arb.gates
def setGate (s : State) (b : Blk) (x : GateRun) : State := { s with arb := { s.arb with gates := eSet {} b.base x s.arb.gates } }
def gateReg (s : State) (b : Blk) (i : Nat) : Nat := if fld s (Reg.gateCtl b) GateCtl.BANK = 0 then Reg.gate0 b i else Reg.gate1 b i
def gateDur (s : State) (b : Blk) (i : Nat) : Nat := if 64 ≤ i then 0 else fld s (gateReg s b i) Gate0.DUR

/-- Does the active list keep every gate open (R176)? -/
def gateFree (s : State) (b : Blk) : Bool := gateDur s b 0 == 0

/-- Is gate k open in entry i? -/
def gateOpenIn (s : State) (b : Blk) (i k : Nat) : Bool := bit (fld s (gateReg s b i) Gate0.GATES) k

/-- The entry after i (R176): the list wraps at its end. -/
def gateNext (s : State) (b : Blk) (i : Nat) : Nat := if gateDur s b (i + 1) = 0 then 0 else i + 1

/-- Nanoseconds for which gate k stays open from the start of entry i on, over at most `fuel` entries. -/
def openFrom (s : State) (b : Blk) (k : Nat) : Nat → Nat → Nat
  | 0, _ => 0
  | f + 1, i => if gateOpenIn s b i k then gateDur s b i + openFrom s b k f (gateNext s b i) else 0

/-- May a transfer of `grains` that starts in arbiter cycle n go under gate k (R179)? Its last grain must be granted before the gate closes. -/
def gateAllows (s : State) (a : Arb) (k grains n : Nat) : Bool :=
  match a with
  | .lp _ | .rte _ =>
    if 8 ≤ k ∨ gateFree s a.blk then true
    else
      let x := gateRun s a.blk
      if ! gateOpenIn s a.blk x.entry k then false
      else if (List.range 64).all fun i => gateDur s a.blk i == 0 || gateOpenIn s a.blk i k then true
      else
        let close := x.since + gateDur s a.blk x.entry + openFrom s a.blk k 64 (gateNext s a.blk x.entry)
        let p := arbPeriod s a
        let b := arbBase s a
        decide (4 * p.2 * b.1 + 9 * p.1 * (n + grains - 1 - b.2) < 9 * p.2 * close)
  | _ => true

/-! ### The decision (R152) -/

/-- A grain granted in or outside an owned slot (R169). -/
def countGrain (s : State) (a : Arb) (owned : Bool) : State :=
  if owned then bump s (Reg.arbStat0 a) ArbStat0.OGRAINS 1 else bump s (Reg.arbStat0 a) ArbStat0.BGRAINS 1

/-- A transfer after one more grain; `none` once all have moved. -/
def ArbTx.step (t : ArbTx) : Option ArbTx :=
  if t.req.grains ≤ t.progress + 1 then none else some { t with progress := t.progress + 1 }

/-- The transfers that wait without t. -/
def dropParked (l : List ArbTx) (t : ArbTx) : List ArbTx := l.filter fun y => ! (y.req.who == t.req.who && y.req.id == t.req.id)

/-- The grain of a slot owner (R152, R156): a pre-empted transfer stays current; a locked sequence of the owner is under way from then on, any
other keeps its progress and waits. -/
def ownerGrain (s : State) (a : Arb) (x : ArbRun) (t : ArbTx) : State :=
  let rest := dropParked x.parked t
  let x : ArbRun := { x with granted := some t.req }
  let y : ArbRun := match t.step with
    | none => { x with parked := rest }
    | some u => if lockedAt a u.req.kind then { x with parked := rest, lock := some u, lockN := 1 } else { x with parked := rest ++ [u] }
  let s := setRun (countGrain s a true) a y
  if x.current.isSome then bump s (Reg.arbStat1 a) ArbStat1.PREEMPT 1 else s

/-- May a transfer that has not started do so under its gate (R179)? One that has started is never held by it. -/
def gateStarts (s : State) (a : Arb) (n : Nat) (t : ArbTx) : Bool := decide (0 < t.progress) || gateAllows s a (gateOf a t.req) t.req.grains n

/-- May DYN r start a transfer in arbiter cycle n: its gate is open and its shaper allows it (R173, R179)? -/
def mayStart (s : State) (a : Arb) (n : Nat) (t : ArbTx) : Bool :=
  gateStarts s a n t && (t.charged || ! flag s (Reg.arbShape a t.req.who) ArbShape.EN || decide (0 < rTokens s a t.req.who))

/-- Does candidate r beat candidate w (R152): a higher rank, or an equal one that comes first at or after PTR? -/
def beats (s : State) (a : Arb) (ptr r w : Nat) : Bool :=
  let step := fld s (Reg.arbCfg a) ArbCfg.STEP
  let rank (q : Nat) := rCredit s a q + rAge s a q * step
  decide (rank w < rank r) || (rank w == rank r && decide ((r + 64 - ptr) % 64 < (w + 64 - ptr) % 64))

/-- The members of E: the offers of DYN requesters that may start (R152). -/
def candidates (s : State) (a : Arb) (x : ArbRun) (reqs : List ArbReq) : List ArbTx :=
  (List.range 64).filterMap fun r => (offerOf x reqs r).bind fun t => if mayStart s a x.n t then some t else none

/-- Credits, ages, waits and tokens after a round won by t (R152, R173); grains it moved in owned slots cost no tokens. Log 130, DEDUCED. -/
def chargeRound (s : State) (a : Arb) (es : List ArbTx) (t : ArbTx) : State :=
  let w := t.req.who
  let reg := Reg.arbRstat a w
  let s := if t.charged then s
    else
      let s := setFld s reg ArbRstat.CREDIT (rCredit s a w - t.req.grains)
      if flag s (Reg.arbShape a w) ArbShape.EN then setTokens s a w (rTokens s a w - ((t.req.grains - t.progress : Nat) : Int)) else s
  let s := setFld (setFld s reg ArbRstat.AGE 0) reg ArbRstat.WAIT 0
  (es.filter fun e => e.req.who != w).foldl (fun s e =>
    let q := Reg.arbRstat a e.req.who
    setFld (setFld s q ArbRstat.AGE (min 15 (rAge s a e.req.who + 1))) q ArbRstat.WAIT (min 4095 (rWait s a e.req.who + 1))) s

/-- A round (R152). -/
def roundStep (s : State) (a : Arb) (x : ArbRun) (reqs : List ArbReq) : State :=
  match candidates s a x reqs with
  | [] => s
  | e :: es =>
    let t := es.foldl (fun b c => if beats s a x.ptr c.req.who b.req.who then c else b) e
    let s := chargeRound s a (e :: es) t
    let u := ({ t with charged := true } : ArbTx).step
    let y : ArbRun := { x with ptr := (t.req.who + 1) % 64, parked := dropParked x.parked t, idle := 0, granted := some t.req }
    let y : ArbRun := if lockedAt a t.req.kind then { y with lock := u, lockN := 1 } else { y with current := u }
    setRun (countGrain s a false) a y

/-- A current transfer parked (R158). -/
def parkNow (s : State) (a : Arb) (x : ArbRun) (c : ArbTx) : State :=
  bump (setRun s a { x with current := none, idle := 0, parked := x.parked ++ [c] }) (Reg.arbStat1 a) ArbStat1.PARKS 1

/-- WDOG in arbiter cycles (R166: 0 means 2^24). -/
def wdogOf (s : State) (a : Arb) : Nat :=
  let w := fld s (Reg.arbCfg a) ArbCfg.WDOG
  if w = 0 then 2 ^ 24 else w

/-- The unit of an arbiter. -/
def arbUnit : Arb → Nat
  | .ru t => unitCode .ru t
  | a => blkUnit a.blk

/-- The victim's response, with POISON = 1 and `ST_WATCHDOG` (R161): the packet that the sequence carried out is never carried out; a victim
without a packet is a command of this unit, which completes so itself and has consumed poison (R607). -/
def biteVictim (s : State) (q : ArbReq) : State :=
  match q.pkt with
  | some p => if s.dyn.net.contains p then rspTo (useGrant (takeNet s p) p) p p.dst .errRsp 3 [BitVec.ofNat 8 Status.watchdog.code] true else s
  | none => updCmd s q.cmd fun d => { d with status := .watchdog, poison := true, left := d.left - 1 }

/-- A frame whose bundle the watchdog broke at a transmit arbiter: its other grains never move, and its packet is lost (R161, R437). -/
def bundleBitten (s : State) (a : Arb) (q : ArbReq) : State :=
  let hit (e : Nat) (b : TxBundle) : Bool := b.e == e && b.who == q.who && b.x.q == q.id
  match a with
  | .rte e => match if q.kind = .bundle then s.rte.bundles.find? (hit e) else none with
    | some b =>
      let k := 16384 * e + b.x.q
      let r := eGet {} k s.rte.qps
      let tx := updFirst (fun t => t.psn == b.x.f.bth.psn) (fun t => { t with sentAt := some s.clk.now }) r.tx
      { s with rte := { s.rte with bundles := s.rte.bundles.erase b, qps := eSet {} k { r with tx := tx } s.rte.qps } }
    | none => s
  | _ => s

/-- The watchdog bites (R161): the lock ends; a record names the arbiter, an SRAM port in SYND [127:124], the requester in ADDR, TAG, OPC, LAYER and
OPID (log 146, DESIGN CHOICE). -/
def bite (s : State) (a : Arb) (c : ArbTx) : State :=
  let s := setRun s a { arbRun s a with lock := none, lockN := 0 }
  let s := if injArmed s a.blk .watchdog (fun _ => true) then injFire s a.blk else s
  let s := bump s (Reg.arbStat1 a) ArbStat1.BITES 1
  let s := bundleBitten (biteVictim s c.req) a c.req
  log s { errOf (arbUnit a) .watchdog 2 with tenant := c.req.who % 64, tag := c.req.tag, opc := c.req.opc, layer := c.req.layer,
                                             opid := c.req.opid, status := .watchdog, addr := c.req.who,
                                             synd := match a with | .sp _ n => n * 2 ^ 124 | _ => 0 }

/-- One more cycle of a lock (R161, R162): the watchdog bites when the count reaches WDOG before the last grain is granted. -/
def lockCycle (s : State) (a : Arb) : State :=
  let x := arbRun s a
  match x.lock with
  | none => s
  | some c =>
    let s := setRun s a { x with lockN := x.lockN + 1 }
    if wdogOf s a ≤ x.lockN + 1 then bite s a c else s

/-- The next grain of a locked sequence (R159): a slot whose owner has a grain ready is lost to it. An injection withholds its last grain until the
watchdog bites (R632). -/
def lockedGrain (s : State) (a : Arb) (x : ArbRun) (c : ArbTx) (reqs : List ArbReq) (own : Option Nat) : State :=
  let mine := own == some c.req.who
  let lost := match own with | some o => o != c.req.who && (slotTx x reqs o).isSome | none => false
  let s := if lost then bump s (Reg.arbStat1 a) ArbStat1.OWNLOST 1 else s
  let held := c.step.isNone && injArmed s a.blk .watchdog (fun _ => true)
  if currentReady c reqs && ! held then setRun (countGrain s a mine) a { x with lock := c.step, granted := some c.req } else s

/-- The decision of one arbiter cycle (R152). -/
def decideCycle (s : State) (a : Arb) (reqs : List ArbReq) : State :=
  let x := arbRun s a
  let own := ownerOf s a x.n
  match x.lock with
  | some c => lockedGrain s a x c reqs own
  | none =>
    let ownTx : Option ArbTx := match own with
      | none => none
      | some o => (slotTx x reqs o).bind fun t => if gateStarts s a x.n t then some t else none
    match ownTx, x.current with
    | some t, some c => if t = c then setRun (countGrain s a true) a { x with current := c.step, granted := some c.req } else ownerGrain s a x t
    | some t, none => ownerGrain s a x t
    | none, some c => if currentReady c reqs then setRun (countGrain s a false) a { x with current := c.step, granted := some c.req } else s
    | none, none => roundStep s a x reqs

/-- The row of cycles in which the current transfer has no grain ready (R158): one more, or broken; it is parked on the 16th, whoever else moved a
grain, and whether or not the resource could accept one (log 170, DEDUCED). `before` is the transfer that was current when the cycle began. -/
def idleCycle (s : State) (a : Arb) (before : Option ArbTx) (reqs : List ArbReq) : State :=
  let x := arbRun s a
  match before, x.current with
  | some b, some c =>
    if currentReady b reqs then setRun s a { x with idle := 0 }
    else if 15 ≤ x.idle then parkNow s a x c
    else setRun s a { x with idle := x.idle + 1 }
  | _, _ => setRun s a { x with idle := 0 }

/-- k arbiter cycles in which nothing is presented: they count in a lock's watch, which may bite in its cycle (R161), and in the row of cycles in
which the current transfer has no grain ready (R158). -/
def arbPass (s : State) (a : Arb) (k : Nat) : State :=
  let x := arbRun s a
  let s := match x.lock with
    | none => s
    | some c =>
      if wdogOf s a ≤ x.lockN + k then bite (advanceTo s (arbCycleAt s a (x.n + (wdogOf s a - 1 - x.lockN)))) a c
      else setRun s a { x with lockN := x.lockN + k }
  let y := arbRun s a
  match y.current with
  | none => s
  | some c => if 16 ≤ y.idle + k then parkNow s a y c else setRun s a { y with idle := y.idle + k }

/-- An arbiter carried to one of its cycles that has not yet come, and the clock with it (R148; log 1, DEDUCED); the cycles that no command showed
pass with nothing presented (log 167, DEDUCED). -/
def arbTo (s : State) (a : Arb) (n : Nat) : State :=
  let s := if (arbRun s a).n < n then arbPass s a (n - (arbRun s a).n) else s
  let s := advanceTo s (arbCycleAt s a n)
  setRun s a { arbRun s a with n := max n (arbRun s a).n }

/-- The next arbiter cycle begun: the count runs with the arbiter's clock (R148). -/
def arbBegin (s : State) (a : Arb) : State := arbTo s a (max (arbRun s a).n (arbNow s a))

/-- The arbiter cycle ended. -/
def arbEnd (s : State) (a : Arb) : State := setRun s a { arbRun s a with n := (arbRun s a).n + 1 }

/-- One arbiter cycle over what is presented in it (R152): the decision, the lock's watch, the row of idle cycles, and the count. -/
def arbDecide (s : State) (a : Arb) (reqs : List ArbReq) (accept : Bool) : State :=
  let s := setRun s a { arbRun s a with granted := none }
  let x := arbRun s a
  let s := if accept then decideCycle s a reqs else s
  let s := if x.lock.isSome then lockCycle s a else match (arbRun s a).lock with
    | some c => if wdogOf s a ≤ 1 then bite s a c else s
    | none => s
  arbEnd (idleCycle s a x.current reqs) a

/-- WINDOW in arbiter cycles (R166: 0 is taken as 1). -/
def windowOf (s : State) (a : Arb) : Nat := 256 * max 1 (fld s (Reg.arbCfg a) ArbCfg.WINDOWQ)

/-- The arbiter cycle of the next refill (R154): refills lie at multiples of WINDOW, and the first after a reset is the first of them that the arbiter
works in. -/
def refillNext (s : State) (a : Arb) : Nat :=
  let w := windowOf s a
  max (arbRun s a).refillAt (if fabClocked a then ceilDiv s.arb.since w * w else 0)

/-- CREDIT_REFILL (R154, R155, R166): at the end of the next refill cycle, after that cycle's charge, every DYN requester gains WEIGHT, up to CAP;
refill cycles that have passed meanwhile give theirs with it. A changed WINDOWQ spaces the refills after the next one. Log 145, DEDUCED. -/
def execCreditRefill (a : Arb) (s : State) : Host.Outcome State Fault Refusal :=
  let w := windowOf s a
  let x := arbRun s a
  let n := max x.n (arbNow s a)
  let at_ := refillNext s a
  let k := if at_ < n then 1 + (n - 1 - at_) / w else 1
  let last := at_ + (k - 1) * w
  let s := arbTo s a last
  let s := setRun s a { arbRun s a with n := max (arbRun s a).n (last + 1), refillAt := last + w }
  .next ((List.range 64).foldl (fun s r =>
    let c := Reg.arbShare a r
    setFld s (Reg.arbRstat a r) ArbRstat.CREDIT (min (fld s c ArbShare.CAP) (rCredit s a r + k * fld s c ArbShare.WEIGHT))) s)

/-- TRANSFER_PARK (R158): the 16th cycle in a row in which the current transfer has no grain ready. -/
def execTransferPark (a : Arb) (s : State) : Host.Outcome State Fault Refusal :=
  let t := arbBegin s a
  .next (match (arbRun s a).current, (arbRun t a).current with
    | some _, some c => if (arbRun t a).idle < 15 then s else arbEnd (parkNow t a (arbRun t a) c) a
    | some _, none => t
    | none, _ => s)

/-- WATCHDOG_BITE (R161, R162): the count of a locked sequence that is still under way reaches WDOG. -/
def execWatchdogBite (a : Arb) (s : State) : Host.Outcome State Fault Refusal :=
  .next (match (arbRun s a).lock with
    | some c =>
      let x := arbRun s a
      let s := arbTo s a (x.n + (wdogOf s a - 1 - x.lockN))
      arbEnd (bite s a c) a
    | none => s)

/-! ### Starvation and the policy loop (R163, R164) -/

/-- STARVE in rounds (R166: 0 means 1,024). -/
def starveOf (s : State) (a : Arb) : Nat :=
  let w := fld s (Reg.arbCfg a) ArbCfg.STARVE
  if w = 0 then 1024 else w

/-- Is a requester's starvation flag set? -/
def starving (s : State) (a : Arb) (r : Nat) : Bool := bit (rd s (Reg.arbStarve a)).toNat r

/-- A requester's starvation flag set, and the FMP interrupted (R163). -/
def starve (s : State) (a : Arb) (r : Nat) : State :=
  let s := { s with arb := { s.arb with fmpIrq := true } }
  if starving s a r then raise s (Reg.arbStarve a) (2 ^ r)
  else
    bump (raise s (Reg.arbStarve a) (2 ^ r)) (Reg.arbStat1 a) ArbStat1.STARVES 1

/-- ARB_STARVATION (R163): WAIT exceeds STARVE. -/
def execArbStarvation (a : Arb) (r : Nat) (s : State) : Host.Outcome State Fault Refusal :=
  .next (if 64 ≤ r ∨ rWait s a r ≤ starveOf s a then s else starve s a r)

/-- What the loop remembers of a weight. -/
def memo (s : State) (a : Arb) (r : Nat) : WeightMemo := eGet {} (Reg.arbShare a r) s.arb.memos
def setMemo (s : State) (a : Arb) (r : Nat) (m : WeightMemo) : State :=
  { s with arb := { s.arb with memos := eSet {} (Reg.arbShare a r) m s.arb.memos } }

/-- A weight changed by the loop. -/
def loopWeight (s : State) (a : Arb) (r v : Nat) : State :=
  let s := setFld s (Reg.arbShare a r) ArbShare.WEIGHT v
  setMemo s a r { memo s a r with changed := some s.clk.now }

/-- A starvation report to host function 0, and to the requester's own when it is unresolved (R164): a report is made also where its record is held
back by the limit of R622. -/
def starveReport (s : State) (a : Arb) (r : Nat) (own : Bool) : State :=
  let e : ErrRec := { errOf (arbUnit a) .arb 1 with tenant := r }
  let x := logKept s e
  let s := report x.1 0 x.2
  if own && r != 0 then report s r x.2 else s

/-- The other requester with the largest WEIGHT above its WMIN that is not pinned (R164); of equals the lowest number (log 168, DESIGN CHOICE). -/
def richest (s : State) (a : Arb) (r : Nat) : Option Nat :=
  let w (q : Nat) := fld s (Reg.arbShare a q) ArbShare.WEIGHT
  ((List.range 64).filter fun q => q != r && ! (memo s a q).pinned && decide (fld s (Reg.arbShare a q) ArbShare.WMIN < w q)).foldl
    (fun (o : Option Nat) q => match o with
      | none => some q
      | some b => if w b < w q then some q else some b) none

/-- STARVATION_POLICY (R164). The flag is cleared as software clears it: one set again in this cycle stays (R17, R163). A further flag of a requester
puts off the return of its weight. -/
def execStarvationPolicy (a : Arb) (r : Nat) (s : State) : Host.Outcome State Fault Refusal :=
  .next (if 64 ≤ r ∨ ! starving s a r then s
    else
      let s := softWrite s (Reg.arbStarve a) (2 ^ r)
      let s := if (memo s a r).changed.isSome then setMemo s a r { memo s a r with changed := some s.clk.now } else s
      let c := Reg.arbShare a r
      if (memo s a r).pinned then starveReport s a r false
      else if fld s c ArbShare.WEIGHT < fld s c ArbShare.WMAX then
        loopWeight s a r (min (fld s c ArbShare.WMAX) (max 1 (2 * fld s c ArbShare.WEIGHT)))
      else match richest s a r with
        | none => starveReport s a r true
        | some q =>
          let k := Reg.arbShare a q
          loopWeight s a q (max (fld s k ArbShare.WMIN) (fld s k ArbShare.WEIGHT / 2)))

/-- WEIGHT_RESTORE (R164): 100 ms after the loop's last change, with no flag set, the weight that host software set last returns, within the bounds
that then hold. -/
def execWeightRestore (a : Arb) (r : Nat) (s : State) : Host.Outcome State Fault Refusal :=
  .next (match (memo s a r).changed with
    | none => s
    | some c =>
      if 64 ≤ r ∨ starving s a r then s
      else
        let s := advanceTo s (c + usCycles 100000)
        let c := Reg.arbShare a r
        let s := setFld s c ArbShare.WEIGHT (min (fld s c ArbShare.WMAX) (max (fld s c ArbShare.WMIN) (memo s a r).host))
        setMemo s a r { memo s a r with changed := none })

/-! ### Slot tables (R170, R171) -/

/-- ARB_ARM (R170): a nonzero TIME is held and the shadow bank is checked. -/
def execArbArm (a : Arb) (time : Nat) (s : State) : Host.Outcome State Fault Refusal :=
  .next (if time = 0 then s
    else setRun (setFld s (Reg.arbArm a) ArbArm.TIME time) a { arbRun s a with checking := true, armAt := s.clk.now })

/-- A pending switch dropped. -/
def arbDrop (s : State) (a : Arb) : State :=
  let s := setFld (setFld s (Reg.arbArm a) ArbArm.TIME 0) (Reg.arbCtl a) ArbCtl.ARMED 0
  setRun s a { arbRun s a with checking := false }

/-- ARB_DISARM (R170). -/
def execArbDisarm (a : Arb) (s : State) : Host.Outcome State Fault Refusal := .next (arbDrop s a)

/-- The owned entries of the shadow bank. -/
def shadowOwners (s : State) (a : Arb) : List Nat :=
  let sh := 1 - fld s (Reg.arbCtl a) ArbCtl.BANK
  (List.range 256).flatMap fun k =>
    let w := (if sh = 0 then rd s (Reg.arbSlot0 a k) else rd s (Reg.arbSlot1 a k)).toNat
    (List.range 4).filterMap fun j =>
      let e := bits w (16 * j + 15) (16 * j)
      if bit e 15 then some (e % 128) else none

/-- ARMERR of a shadow bank (R170). -/
def arbCheck (s : State) (a : Arb) : Nat :=
  let os := shadowOwners s a
  let m := fld s (Reg.arbCfg a) ArbCfg.OWNMAX
  if cycleAt (fld s (Reg.arbArm a) ArbArm.TIME) < (arbRun s a).armAt + usCycles 1 then 1
  else if (if m = 0 then 1024 else m) < os.length then 2
  else if a = .hp ∧ os.any fun o => decide (64 ≤ o) then 3
  else 0

/-- ARB_ARM_CHECK_DONE (R170). TIME then reads zero after a failed check, as after a switch or a disarm, and ARMED of an earlier arming stands until a
check of a later one ends (log 169, DESIGN CHOICE). -/
def execArbArmCheckDone (a : Arb) (s : State) : Host.Outcome State Fault Refusal :=
  .next (if ! (arbRun s a).checking then s
    else
      let e := arbCheck s a
      let s := setRun (setFld s (Reg.arbCtl a) ArbCtl.ARMERR e) a { arbRun s a with checking := false }
      if e = 0 then setFld s (Reg.arbCtl a) ArbCtl.ARMED 1
      else setFld (setFld s (Reg.arbArm a) ArbArm.TIME 0) (Reg.arbCtl a) ArbCtl.ARMED 0)

/-- SLOT_TABLE_SWITCH (R171): at the first arbiter cycle that is a multiple of 1,024 at or after T. -/
def execSlotTableSwitch (a : Arb) (s : State) : Host.Outcome State Fault Refusal :=
  .next (if ! flag s (Reg.arbCtl a) ArbCtl.ARMED then s
    else
      let first := arbFrom s a (cycleAt (fld s (Reg.arbArm a) ArbArm.TIME))
      let s := arbTo s a (ceilDiv (max first (max (arbRun s a).n (arbNow s a))) 1024 * 1024)
      let s := setFld s (Reg.arbCtl a) ArbCtl.BANK (1 - fld s (Reg.arbCtl a) ArbCtl.BANK)
      setFld (setFld s (Reg.arbCtl a) ArbCtl.ARMED 0) (Reg.arbArm a) ArbArm.TIME 0)

/-! ### Shapers (R172-R174) -/

/-- The refill interval in ns (R172). -/
def shapeInterval (s : State) (a : Arb) (r : Nat) : Nat := (fld s (Reg.arbShape a r) ArbShape.REFILL + 1) * 256

/-- The fabric time of a shaper's next refill (R174): refills lie at multiples of the interval, and the first after a reset is the first of them that
the arbiter works in. -/
def shapeNext (s : State) (a : Arb) (r : Nat) : Nat :=
  max (eGet 0 (Reg.arbShape a r) s.arb.shapes) (ceilDiv (ceilDiv (4 * s.arb.since) 9) (shapeInterval s a r) * shapeInterval s a r)

/-- SHAPER_REFILL (R174): at the next refill time TOKENS = min(BURST, TOKENS + RATE); refill times that have passed meanwhile give theirs with it.
A changed interval counts from the next refill on. -/
def execShaperRefill (a : Arb) (r : Nat) (s : State) : Host.Outcome State Fault Refusal :=
  .next (if 64 ≤ r then s
    else
      let c := Reg.arbShape a r
      let iv := shapeInterval s a r
      let at_ := shapeNext s a r
      let k := 1 + (timeNs s / iv - at_ / iv)
      let s := advanceTo s (cycleAt at_)
      let s := { s with arb := { s.arb with shapes := eSet 0 c ((max at_ (timeNs s) / iv + 1) * iv) s.arb.shapes } }
      setTokens s a r (min (fld s c ArbShape.BURST : Int) (rTokens s a r + (k * fld s c ArbShape.RATE : Nat))))

/-- SHAPER_ENABLE (R174): a write of ARB_SHAPE; when it turns EN on, TOKENS is set to BURST. -/
def execShaperEnable (a : Arb) (r v : Nat) (s : State) : Host.Outcome State Fault Refusal :=
  .next (if 64 ≤ r then s
    else
      let c := Reg.arbShape a r
      let was := flag s c ArbShape.EN
      let s := softWrite s c v
      if ! was && flag s c ArbShape.EN then setTokens s a r (fld s c ArbShape.BURST : Int) else s)

/-! ### Gate lists (R176-R178) -/

/-- GATE_ARM (R177). -/
def execGateArm (b : Blk) (time : Nat) (s : State) : Host.Outcome State Fault Refusal :=
  .next (if time = 0 then s
    else setGate (setFld s (Reg.gateArm b) GateArm.TIME time) b { gateRun s b with checking := true, armAt := s.clk.now })

/-- A pending gate-list switch dropped. -/
def gateDrop (s : State) (b : Blk) : State :=
  let s := setFld (setFld s (Reg.gateArm b) GateArm.TIME 0) (Reg.gateCtl b) GateCtl.ARMED 0
  setGate s b { gateRun s b with checking := false }

/-- GATE_DISARM (R177). -/
def execGateDisarm (b : Blk) (s : State) : Host.Outcome State Fault Refusal := .next (gateDrop s b)

/-- GATE_ARM_CHECK_DONE (R177): the only failure is LATE. -/
def execGateArmCheckDone (b : Blk) (s : State) : Host.Outcome State Fault Refusal :=
  .next (if ! (gateRun s b).checking then s
    else
      let late := decide (cycleAt (fld s (Reg.gateArm b) GateArm.TIME) < (gateRun s b).armAt + usCycles 1)
      let s := setGate (setFld s (Reg.gateCtl b) GateCtl.ARMERR (b2n late)) b { gateRun s b with checking := false }
      if late then setFld (setFld s (Reg.gateArm b) GateArm.TIME 0) (Reg.gateCtl b) GateCtl.ARMED 0
      else setFld s (Reg.gateCtl b) GateCtl.ARMED 1)

/-- GATE_TAKEOVER (R178): exactly at T the shadow list takes over with its entry 0. TIME then reads zero, as after a failed check (log 169, DESIGN
CHOICE). -/
def execGateTakeover (b : Blk) (s : State) : Host.Outcome State Fault Refusal :=
  .next (if ! flag s (Reg.gateCtl b) GateCtl.ARMED then s
    else
      let t := fld s (Reg.gateArm b) GateArm.TIME
      let s := advanceTo s (cycleAt t)
      let s := setFld s (Reg.gateCtl b) GateCtl.BANK (1 - fld s (Reg.gateCtl b) GateCtl.BANK)
      let s := setFld (setFld s (Reg.gateCtl b) GateCtl.ARMED 0) (Reg.gateArm b) GateArm.TIME 0
      setGate s b { gateRun s b with entry := 0, since := t })

/-- GATE_ENTRY_ADVANCE (R176): the entry's DUR has passed and the next one applies; an empty list stays where it is. -/
def execGateEntryAdvance (b : Blk) (s : State) : Host.Outcome State Fault Refusal :=
  .next (if gateFree s b then s
    else
      let x := gateRun s b
      let t := x.since + gateDur s b x.entry
      let s := advanceTo s (cycleAt t)
      setGate s b { gateRun s b with entry := gateNext s b x.entry, since := t })

end Sys2Proof.Machine
end

