-- ==== Sys2Proof/Machine/Arith.lean ====
section
/-!
DEFINITION. The arithmetic of combining (R232-R237, R241, R244): one combine of two elements, of two element sequences, widening and the final
narrowing.
-/
namespace Sys2Proof.Machine

/-- An exact finite value as an integer multiple of 2^e for a common exponent e. -/
def scaleTo (e : Int) (s : Bool) (m : Nat) (x : Int) : Int :=
  let v : Int := (m : Int) * (2 : Int) ^ (x - e).toNat
  if s then -v else v

/-- The exact sum of two finite values (R232): −0 only when both operands are −0; an exact cancellation is +0. -/
def addFin (s₁ : Bool) (m₁ : Nat) (e₁ : Int) (s₂ : Bool) (m₂ : Nat) (e₂ : Int) : Val :=
  let e := min e₁ e₂
  let z := scaleTo e s₁ m₁ e₁ + scaleTo e s₂ m₂ e₂
  if z = 0 then .fin (m₁ == 0 && m₂ == 0 && s₁ && s₂) 0 e else .fin (decide (z < 0)) z.natAbs e

/-- The sign of a NaN result (R234): 1 when any NaN operand has sign 1. -/
def nanSign (a b : Val) : Bool :=
  (match a with | .nan s => s | _ => false) || (match b with | .nan s => s | _ => false)

/-- Is the value a NaN? -/
def Val.isNan : Val → Bool
  | .nan _ => true
  | _ => false

/-- The exact sum of two values (R232, R234). -/
def addVal (a b : Val) : Val :=
  if a.isNan || b.isNan then .nan (nanSign a b)
  else match a, b with
    | .inf s, .inf t => if s = t then .inf s else .nan false
    | .inf s, _ => .inf s
    | _, .inf t => .inf t
    | .fin s m e, .fin t n f => addFin s m e t n f
    | _, _ => .nan false

/-- The order of R235: a key for comparison, where −0 is less than +0. -/
def ltVal (a b : Val) : Bool :=
  match a, b with
  | .inf true, .inf true => false
  | .inf true, _ => true
  | _, .inf true => false
  | .inf false, _ => false
  | _, .inf false => true
  | .fin s m e, .fin t n f =>
    let k := min e f
    let x := scaleTo k s m e
    let y := scaleTo k t n f
    decide (x < y) || (x == y && x == 0 && s && ! t)
  | _, _ => false

/-- What one combine does beside its value: the events of R216 and a saturation of R233. -/
structure Comb where
  code : Nat
  ev : FmtEvents := {}
  deriving DecidableEq, Repr

/-- One combine of two floating-point codes (R232, R234, R235). -/
def combFloat (op fmt a b : Nat) : Comb :=
  let f := floatFmt fmt
  let x := f.decode a
  let y := f.decode b
  if x.isNan || y.isNan then { code := f.nanCode (nanSign x y) }
  else if op = 1 then { code := if ltVal x y then b else a }
  else if op = 2 then { code := if ltVal y x then b else a }
  else
    let r := f.encode (addVal x y)
    { code := r.code, ev := r.events }

/-- A sum of INT8 codes, saturating (R233). -/
def addInt8 (a b : Nat) : Comb :=
  let z := signed 8 a + signed 8 b
  let c := min 127 (max (-128) z)
  { code := unsigned 8 c, ev := { isat := b2n (decide (c ≠ z)) } }

/-- One combine of two integer codes (R233, R235). -/
def combInt (op fmt a b : Nat) : Comb :=
  let w := 8 * elemWidth fmt
  let lt (x y : Nat) : Bool := if fmt = 8 then decide (x < y) else decide (signed w x < signed w y)
  if op = 1 then { code := if lt a b then b else a }
  else if op = 2 then { code := if lt b a then b else a }
  else if fmt = 6 then addInt8 a b
  else { code := (a + b) % 2 ^ w }

/-- One combine in a format (R226, R232-R237). -/
def combine1 (op fmt a b : Nat) : Comb :=
  if op = 3 then { code := a &&& b }
  else if op = 4 then { code := a ||| b }
  else if op = 5 then { code := a ^^^ b }
  else if isFloat fmt then combFloat op fmt a b
  else combInt op fmt a b

/-- Two element sequences combined; where one is shorter, the other's elements stand. -/
def combineList (op fmt : Nat) : List Nat → List Nat → List Nat × FmtEvents
  | [], bs => (bs, {})
  | as, [] => (as, {})
  | a :: as, b :: bs =>
    let c := combine1 op fmt a b
    let r := combineList op fmt as bs
    (c.code :: r.1, c.ev.add r.2)

/-- Counts added exactly (R237). -/
def addCounts : List Nat → List Nat → List Nat
  | [], bs => bs
  | as, [] => as
  | a :: as, b :: bs => (a + b) % 2 ^ 32 :: addCounts as bs

/-- The widened format of ordered mode (R241). -/
def wideFmt (efmt : Nat) : Nat :=
  if efmt = 2 ∨ efmt = 3 ∨ efmt = 4 ∨ efmt = 5 then 1 else if efmt = 1 then 10 else if efmt = 6 then 7 else efmt

/-- One element widened (R191, R241). -/
def widen (efmt c : Nat) : Nat :=
  if efmt = 6 then unsigned 32 (signed 8 c)
  else if wideFmt efmt = efmt then c
  else (convert efmt (wideFmt efmt) c).code

/-- One root value converted to EFMT (R244). -/
def narrow (efmt c : Nat) : Comb :=
  if efmt = 6 then
    let z := signed 32 c
    let k := min 127 (max (-128) z)
    { code := unsigned 8 k, ev := { isat := b2n (decide (k ≠ z)) } }
  else if wideFmt efmt = efmt then { code := c }
  else
    let r := convert (wideFmt efmt) efmt c
    { code := r.code, ev := r.events }

end Sys2Proof.Machine
end

