-- ==== Sys2Proof/Machine/Reduction.lean ====
section
/-!
DEFINITION. In-network reduction (chapter 6): contexts, what a contribution covers and means, both orders of combining, emission, poison and
failure, the marks and digests of R278-R280 at a context, and the step timer of R281.
-/
namespace Sys2Proof.Machine

/-! ### Context configuration (R221, R222) -/

/-- A context as configured. -/
structure Ctx where
  tile : Nat
  c : Nat
  tenant : Nat
  mode : Nat
  op : Nat
  efmt : Nat
  iwire : Nat
  owire : Nat
  isp : Bool
  final : Bool
  ring : Bool
  nops : Nat
  rlo : Nat
  lvl : Nat
  n : Nat
  out : Ep
  octx : Nat
  npos : Nat
  pwin : Nat
  oprio : Nat
  deriving DecidableEq, Repr

/-- The configuration two register words give context c of the unit at a router. -/
def ctxOf (tile c a b : Nat) : Ctx :=
  let w := bits b 17 10
  { tile := tile, c := c, tenant := bits a 63 56, mode := bits a 55 54, op := bits a 53 51, efmt := bits a 50 47, iwire := bits a 46 45,
    owire := bits a 44 43, isp := bit a 42, final := bit a 41, ring := bit a 40, nops := bits a 38 33 + 1, rlo := bits a 32 19,
    lvl := bits a 18 15, n := bits a 14 1 + 1, out := ⟨bits b 63 56, 8 * bits b 52 50 + bits b 55 53, bits b 49 46⟩, octx := bits b 45 42,
    npos := bits b 41 18 + 1, pwin := if w = 0 then 256 else w, oprio := bits b 9 8 }

/-- A context of the state. -/
def ctxAt (s : State) (tile c : Nat) : Ctx := ctxOf tile c (rd s (Reg.redCtxA tile c)).toNat (rd s (Reg.redCtxB tile c)).toNat

/-- Element width of EFMT, and the format in which the context combines (R239, R241). -/
def Ctx.w (x : Ctx) : Nat := elemWidth x.efmt
def Ctx.cf (x : Ctx) : Nat := if x.mode = 1 then wideFmt x.efmt else x.efmt

/-- SUMCOUNT (R237). -/
def Ctx.counts (x : Ctx) : Bool := x.op == 6

/-- Elements in half a position, halves of an operation, and its element count (R222). -/
def Ctx.perHalf (x : Ctx) : Nat := if x.w = 0 then 64 else 64 / x.w
def Ctx.halves (x : Ctx) : Nat := 2 * x.npos
def Ctx.elems (x : Ctx) : Nat := x.halves * x.perHalf

/-- The status register, its state, and the working state. -/
def ctxS (x : Ctx) : Nat := Reg.redCtxS x.tile x.c
def ctxState (s : State) (x : Ctx) : Nat := fld s (ctxS x) RedCtxS.STATE
def redRun (s : State) (x : Ctx) : RedRun := eGet {} (x.tile * 16 + x.c) s.red
def setRed (s : State) (x : Ctx) (r : RedRun) : State := { s with red := eSet {} (x.tile * 16 + x.c) r s.red }

/-- BASE and SEQ (R223). -/
def ctxBase (s : State) (x : Ctx) : Nat := fld s (ctxS x) RedCtxS.BASE
def ctxSeq (s : State) (x : Ctx) : Nat := fld s (ctxS x) RedCtxS.SEQ

/-- The endpoint of a context. -/
def ctxEp (s : State) (x : Ctx) : Ep := ⟨myChip s, x.tile, 4⟩

/-- Does the context send to a parent context (R222)? -/
def Ctx.toParent (x : Ctx) : Bool := x.out.dep == 4

/-! ### Enabling and disabling (R220, R224, R225) -/

/-- Lines a context needs (R220): ⌈PWIN × K × (W + Q)⌉, with W = (wide width) ÷ w and Q = 4 ÷ w. -/
def Ctx.lines (x : Ctx) : Nat :=
  if x.mode = 2 ∨ x.w = 0 ∧ x.efmt ≠ 0 then 0
  else
    let w := max 1 x.w
    let k := if x.mode = 1 then x.nops - 1 else 1
    let ww := if x.mode = 1 then elemWidth (wideFmt x.efmt) else w
    ceilDiv (x.pwin * k * (ww + (if x.counts then 4 else 0))) w

/-- Do the reduction rows of R214 admit an (OP, EFMT) with a sparse encoding and wire mode? -/
def opFmtOk (op efmt sfmt wire : Nat) : Bool :=
  if op = 3 ∨ op = 4 ∨ op = 5 then fmtBitwise efmt sfmt wire
  else op != 7 && fmtArith efmt sfmt wire (op == 6)

/-- Lines that the other contexts of a unit hold. -/
def linesUsed (s : State) (x : Ctx) : Nat :=
  (((List.range 16).filter (· != x.c)).map fun c => fld s (Reg.redCtxS x.tile c) RedCtxS.LINES).foldl (· + ·) 0

/-- Is the enable refused (R224)? -/
def enableBad (s : State) (x : Ctx) : Bool :=
  x.tenant == 0xFF || x.mode == 3 || ! opFmtOk x.op x.efmt 0 x.iwire || ! opFmtOk x.op x.efmt 0 x.owire ||
    (x.isp && ! opFmtOk x.op x.efmt 1 0 && ! opFmtOk x.op x.efmt 2 0) || (x.isp && (x.iwire != 0 || x.owire != 0)) ||
    (x.mode == 2 && (x.counts || x.iwire != 0 || x.owire != 0 || x.isp)) || (x.ring && x.mode != 0) ||
    (x.mode == 1 && (x.rlo % 2 ^ x.lvl != 0 || decide (x.n ≤ x.rlo))) ||
    (x.final && (x.rlo != 0 || decide (2 ^ x.lvl < x.n) || (decide (1 ≤ x.lvl) && decide (x.n ≤ 2 ^ (x.lvl - 1))))) ||
    decide (2048 < linesUsed s x + x.lines)

/-- An enabling write of CTXA and CTXB for a group, or for none (R224). While STATE is not 0 it is discarded (R225). -/
def ctxEnable (s : State) (tile c a b : Nat) (grp : Option (Nat × Nat × Nat)) : State :=
  let x := ctxOf tile c a b
  if 64 ≤ tile ∨ 16 ≤ c ∨ ctxState s x ≠ 0 then s
  else
    let s := softWrite (softWrite s (Reg.redCtxB tile c) b) (Reg.redCtxA tile c) (putBits a 0 0 0)
    if enableBad s x then setFld s (ctxS x) RedCtxS.CFGERR 1
    else
      let s := setFld s (Reg.redCtxA tile c) RedCtxA.EN 1
      let s := wrReg s (ctxS x) (setF (setF 0 RedCtxS.LINES x.lines) RedCtxS.STATE 1)
      setRed (wrReg s (Reg.redCstat tile c) 0) x { grp := grp }

/-- A write that clears EN (R225): partials discarded, lines freed, waiting contributions acknowledged `ST_ABORTED`, STATE 0. -/
def ctxDisable (s : State) (tile c v : Nat) : State :=
  let x := ctxAt s tile c
  if 64 ≤ tile ∨ 16 ≤ c then s
  else
    let s := (redRun s x).holds.foldl (fun s h => ackTo s h.pkt .aborted) s
    let s := dropWaiting s fun r => match r.why with
      | .redOut t k _ => t == tile && k == c
      | _ => false
    let s := setFld (setFld s (ctxS x) RedCtxS.STATE 0) (ctxS x) RedCtxS.LINES 0
    setRed (softWrite s (Reg.redCtxA tile c) (putBits v 0 0 0)) x {}

/-- RED_CTX_ENABLE (R220, R224). -/
def execRedCtxEnable (tile c a b : Nat) (s : State) : Host.Outcome State Fault Refusal := .next (ctxEnable s tile c a b none)

/-- RED_CTX_DISABLE (R225). -/
def execRedCtxDisable (tile c v : Nat) (s : State) : Host.Outcome State Fault Refusal := .next (ctxDisable s tile c v)

/-! ### What a contribution carries (R227, R228, R231) -/

/-- The fields of ADDR (R227). -/
def RaPos (a : Nat) : Nat := bits a 55 32
def RaRank (a : Nat) : Nat := bits a 31 18
def RaLvl (a : Nat) : Nat := bits a 17 14
def RaCtx (a : Nat) : Nat := bits a 3 0

/-- What a contribution means to its context: its halves in the combine format; or malformed, with the
positions it would cover when they can be determined and lie within the operation (R251). -/
inductive Decoded where
  | good (halves : List RedHalf) (first past : Nat) (ev : FmtEvents)
  | bad (range : Option (Nat × Nat))
  deriving DecidableEq, Repr

/-- Is an input a partial (R239, R243): from a reduction unit in arrival mode, of level 1 or above or from a unit in ordered mode? -/
def isPartial (x : Ctx) (p : Pkt) : Bool := p.src.dep == 4 || (x.mode == 1 && RaLvl p.addr != 0)

/-- The format and wire mode of an input (R239, R241, R243); `none` for one that R214 does not admit. -/
def inForm (x : Ctx) (p : Pkt) : Option (Nat × Nat) :=
  if ! isPartial x p then some (x.efmt, x.iwire)
  else if x.mode = 1 then some (wideFmt x.efmt, 0)
  else
    let wire := if p.efmt = x.efmt then 0 else if p.efmt = 2 then 1 else if p.efmt = 9 then 2 else 3
    if wire = 3 ∨ ! opFmtOk x.op x.efmt p.sfmt wire then none else some (x.efmt, wire)

/-- An element in the combine format. -/
def toComb (x : Ctx) (part : Bool) (c : Nat) : Nat := if x.mode = 1 ∧ ! part then widen x.efmt c else c

/-- Element sequences cut into `k` halves from half `h` on; `at_` gives the payload bytes of the i-th. -/
def halvesFrom (x : Ctx) (at_ : Nat → Nat × Nat) : Nat → Nat → Nat → List Nat → List Nat → List RedHalf
  | 0, _, _, _, _ => []
  | k + 1, i, h, es, cs =>
    ⟨h, es.take x.perHalf, cs.take x.perHalf, (at_ i).1, (at_ i).2⟩ ::
      halvesFrom x at_ k (i + 1) (h + 1) (es.drop x.perHalf) (cs.drop x.perHalf)

/-- The counts a level-0 input adds (R237): 1 for each element that is not zero. -/
def onesOf (es : List Nat) : List Nat := es.map fun c => b2n (c != 0)

/-- Bytes on the wire of a dense element and of the count that may follow it (R228, R237). -/
def wireUnit (x : Ctx) (p : Pkt) (f wire : Nat) : Nat × Nat :=
  (if wire = 1 then 2 else max 1 (elemWidth f), if x.counts && isPartial x p then 4 else 0)

/-- The positions a packet names in its header and prefix, in whatever form it comes, when they lie within the operation (R228, R251). -/
def coverOf (x : Ctx) (p : Pkt) : Option (Nat × Nat) :=
  let w := max 1 x.w
  let units (span : Nat) : Option (Nat × Nat) :=
    let k0 := ofLE (slice p.data 0 4)
    let cnt := ofLE (slice p.data 4 2)
    if p.data.length < 8 ∨ cnt = 0 ∨ 127 < cnt ∨ x.elems ≤ (k0 + cnt - 1) * span then none
    else some (k0 * span * w / 128, min x.npos (ceilDiv ((k0 + cnt) * span * w) 128))
  if p.sfmt = 3 then none
  else if p.sfmt = 1 then units 256
  else if p.sfmt = 2 then units 64
  else if p.efmt = 9 then units 32
  else
    let u := wireUnit x p (if isPartial x p && x.mode == 1 then wideFmt x.efmt else x.efmt) (if x.efmt = 1 ∧ p.efmt = 2 then 1 else 0)
    let past := RaPos p.addr + ceilDiv (p.data.length / (u.1 + u.2) * w) 128
    if past ≤ RaPos p.addr ∨ x.npos < past then none else some (RaPos p.addr, past)

/-- A dense contribution (R228). -/
def decodeDense (x : Ctx) (p : Pkt) (f wire : Nat) : Decoded :=
  let part := isPartial x p
  let u := wireUnit x p f wire
  let e := p.data.length / (u.1 + u.2)
  let pos := RaPos p.addr
  let past := pos + ceilDiv (e * max 1 x.w) 128
  if p.efmt ≠ wireEfmt f wire ∨ p.data.length % (u.1 + u.2) ≠ 0 ∨ past ≤ pos ∨ x.npos < past ∨ (e * max 1 x.w % 128 ≠ 0 ∧ past ≠ x.npos) then
    .bad (coverOf x p)
  else
    let es := elemsOf u.1 (p.data.take (e * u.1))
    let es := if wire = 1 then es.map untrim16 else es
    let cs := if ! x.counts then [] else if part then elemsOf 4 (p.data.drop (e * u.1)) else onesOf es
    let at_ (i : Nat) : Nat × Nat :=
      (i * x.perHalf * u.1, min p.data.length (if u.2 = 0 then (i + 1) * x.perHalf * u.1 else e * u.1 + (i + 1) * x.perHalf * 4))
    .good (halvesFrom x at_ (2 * (past - pos)) 0 (2 * pos) (es.map (toComb x part)) cs) pos past {}

/-- A contribution with a segment head: BS8 blocks, bitmap groups or 2:4 blocks (R198, R202, R206, R207, R246). What its last unit holds past the
operation's end is nothing. A packet that is not full and ends in the first half of the last position ends with the operation's last element; after a
full one a further packet is awaited (log 174, DEDUCED). -/
def decodeUnits (x : Ctx) (p : Pkt) (kind : UnitKind) (f : Nat) : Decoded :=
  let part := isPartial x p
  match coverOf x p, segment kind f x.elems p.data with
  | some (first, past), some us =>
    let per := kind.span * max 1 x.w / 64
    let k0 := ofLE (slice p.data 0 4)
    let es := us.flatMap fun u => u.elems.map Rounded.code
    let ev := (us.flatMap fun u => u.elems.map Rounded.events).foldl FmtEvents.add {}
    let at_ (i : Nat) : Nat × Nat := match us[i / max 1 per]? with | some u => (u.from_, u.past) | none => (0, p.data.length)
    let hs := (halvesFrom x at_ (us.length * per) 0 (k0 * per) (es.map (toComb x part)) (if x.counts then onesOf es else [])).filter
      fun h => decide (h.half < x.halves)
    let short := (k0 + us.length) * per + 1 == x.halves && decide (p.data.length + 33 ≤ 4096)
    .good (if short then hs ++ [⟨x.halves - 1, [], [], 0, p.data.length⟩] else hs) first past ev
  | r, _ => .bad r

/-- A contribution decoded under its context's configuration (R231, R239, R241, R246). -/
def decodeContrib (x : Ctx) (p : Pkt) : Decoded :=
  if x.mode = 2 then .bad none
  else match inForm x p with
    | none => .bad (coverOf x p)
    | some (f, wire) =>
      if p.sfmt = 3 ∨ (p.sfmt ≠ 0 ∧ (! x.isp ∨ p.efmt ≠ f)) ∨ (p.sfmt = 0 ∧ wire = 2 ∧ p.efmt ≠ 9) then .bad (coverOf x p)
      else if p.sfmt ≠ 0 then decodeUnits x p (if p.sfmt = 1 then .bitmap else .s24) f
      else if wire = 2 then decodeUnits x p .bs8 f
      else decodeDense x p f wire

/-! ### Combining (R239, R242) -/

/-- The half of an operation with an index. -/
def halfAt (r : RedRun) (h : Nat) : RedPos := (r.poss.find? fun q => q.half == h).getD { half := h }

/-- Halves kept in ascending order. -/
def putHalf (l : List RedPos) (q : RedPos) : List RedPos :=
  match l with
  | [] => [q]
  | a :: r => if q.half < a.half then q :: a :: r else if q.half = a.half then q :: r else a :: putHalf r q

/-- Two values combined; one that is absent leaves the other (R251). -/
def joinNodes (x : Ctx) (a b : RedNode) (lo lvl : Nat) : RedNode × FmtEvents :=
  if a.absent then ({ b with lo := lo, lvl := lvl }, {})
  else if b.absent then ({ a with lo := lo, lvl := lvl }, {})
  else
    let v := combineList x.op x.cf a.vals b.vals
    ({ lo := lo, lvl := lvl, vals := v.1, cnts := addCounts a.cnts b.cnts }, v.2)

/-- Is a node the context's own? -/
def ownNode (x : Ctx) (a : RedNode) : Bool := a.lo == x.rlo && a.lvl == x.lvl

/-- The sibling of a node (R242): its lowest rank. -/
def sibling (a : RedNode) : Nat := a.lo ^^^ 2 ^ a.lvl

/-- One replacement of R242: a stored node and its sibling by their parent, or a node whose sibling lies wholly at or above N. -/
def mergeOnce (x : Ctx) (l : List RedNode) : Option (List RedNode × FmtEvents) :=
  l.findSome? fun a =>
    if ownNode x a then none
    else if x.n ≤ sibling a then
      some ({ a with lo := a.lo / 2 ^ (a.lvl + 1) * 2 ^ (a.lvl + 1), lvl := a.lvl + 1 } :: l.erase a, {})
    else match l.find? fun b => b.lvl == a.lvl && b.lo == sibling a with
      | none => none
      | some b =>
        let p := if a.lo < b.lo then joinNodes x a b a.lo (a.lvl + 1) else joinNodes x b a b.lo (a.lvl + 1)
        some (p.1 :: (l.erase a).erase b, p.2)

/-- The rule of R242 applied until nothing changes. Each application leaves a node of a higher level or one node fewer, so 1,024 are
enough for 64 inputs of 15 levels. -/
def mergeAll (x : Ctx) : Nat → List RedNode → FmtEvents → List RedNode × FmtEvents
  | 0, l, ev => (l, ev)
  | k + 1, l, ev =>
    match mergeOnce x l with
    | none => (l, ev)
    | some (m, e) => mergeAll x k m (ev.add e)

/-- An operand taken at a half (R239, R242): the first becomes the partial in arrival mode; in ordered mode it is stored as its node. -/
def takeNode (x : Ctx) (q : RedPos) (a : RedNode) : List RedNode × FmtEvents :=
  if x.mode = 1 then mergeAll x 1024 (a :: q.nodes) {}
  else match q.nodes with
    | [] => ([a], {})
    | b :: _ =>
      let p := joinNodes x b a 0 0
      ([p.1], p.2)

/-- Is a half complete? -/
def halfDone (x : Ctx) (q : RedPos) : Bool := if x.mode = 1 then q.nodes.any (ownNode x) else q.got.length == x.nops

/-- One half of a contribution combined (R239, R242): `d` cycles on its value is ready. -/
def takeHalf (s : State) (x : Ctx) (h : RedHold) (g : RedHalf) (d : Nat) : State :=
  let r := redRun s x
  let q := halfAt r g.half
  let v := takeNode x q { lo := h.rank, lvl := h.lvl, vals := g.vals, cnts := g.cnts, absent := h.absent }
  let q := { q with nodes := v.1, got := q.got ++ [(h.rank, h.lvl)], psn := q.psn || h.pkt.poison }
  let q := if halfDone x q then { q with ready := some (s.clk.now + d) } else q
  let s := setRed s x { r with poss := putHalf r.poss q }
  let s := bump s (Reg.redCstat x.tile x.c) RedCstat.ISAT v.2.isat
  ruFmt s x.tile x.tenant v.2

/-- May a half be combined now: its position lies in the window, and in arrival mode still lacks an operand (R229, R239)? -/
def halfOpen (s : State) (x : Ctx) (k : Nat) : Bool :=
  decide (ctxBase s x ≤ k / 2) && decide (k / 2 < ctxBase s x + x.pwin) &&
    (x.mode == 1 || decide ((halfAt (redRun s x) k).got.length < x.nops))

/-- May the pipeline take the next flit of a held contribution: every position the flit covers is open (R229)? -/
def flitOpen (s : State) (x : Ctx) (h : RedHold) : Bool :=
  ! h.absent && decide (h.took < flits h.pkt) &&
    h.pend.all fun g => ! (decide (g.from_ < 128 * (h.took + 1)) && decide (128 * h.took < g.past)) || halfOpen s x g.half

/-- The next flit of a held contribution taken (R229, R239, R254): the halves that it completes are combined; it enters in the next cycle (R153), and
six cycles later a value it completes is ready. -/
def takeFlit (s : State) (x : Ctx) (h : RedHold) : State :=
  let ends (g : RedHalf) : Bool := decide (g.past ≤ 128 * (h.took + 1)) || decide (h.took + 1 = flits h.pkt)
  let s := (h.pend.filter ends).foldl (fun s g => takeHalf s x h g 7) s
  let r := redRun s x
  let s := setRed s x { r with holds := updFirst (· == h) (fun y => { y with pend := h.pend.filter fun g => ! ends g, took := h.took + 1 }) r.holds }
  bump s (Reg.redCstat x.tile x.c) RedCstat.FLITS 1

/-- The held contribution a request at a unit's input stands for. -/
def heldFor (s : State) (t : Nat) (q : ArbReq) : Option (Ctx × RedHold) :=
  q.pkt.bind fun p =>
    let x := ctxAt s t (RaCtx p.addr)
    ((redRun s x).holds.find? fun h => h.pkt == p).map fun h => (x, h)

/-! ### Groups, marks and aborts at a context (R278-R282) -/

/-- The coordinator of a group (R265). -/
def coordinator (s : State) (gidx : Nat) : Ep :=
  let b := Reg.fabGrpB gidx
  ⟨fld s b FabGrpB.CDCHIP, 8 * fld s b FabGrpB.CDY + fld s b FabGrpB.CDX, 0⟩

/-- STEPTO in µs (R265): 0 is taken as 1, above 60 s as 60 s. -/
def stepTo (s : State) (gidx : Nat) : Nat := min 60000000 (max 1 (fld s (Reg.fabGrpB gidx) FabGrpB.STEPTO))

/-- The payload of DOWN_FAIL, ABORT_REQ and ABORT (R285). -/
def failWord (st : Status) (rank : Nat) : Nat := st.code + rank % 2 ^ 14 * 2 ^ 8

/-- A message of a group with one payload word. -/
def grpMsg (k : SpKind) (tenant : Nat) (dst : Ep) (ctx : Nat) (bc : Bool) (grp : Nat × Nat) (rank lvl seq pay : Nat) : SpMsg :=
  ⟨[spWord0 k tenant dst ctx 1 bc 0 0 0, spWord1 grp.1 grp.2 rank lvl seq, pay]⟩

/-- The SEQ an abort request carries (R282): from the opening marks the context holds, else its own SEQ. -/
def abortSeq (s : State) (x : Ctx) : Nat :=
  match (redRun s x).ins.find? fun i => i.sig.isSome with
  | some i => i.seq % 2 ^ 14
  | none => ctxSeq s x % 2 ^ 14

/-- An abort request of a context to its group's coordinator (R278, R279, R281). -/
def ctxAbort (s : State) (x : Ctx) (st : Status) (rank : Nat) : State :=
  match (redRun s x).grp with
  | none => s
  | some (g, e, i) =>
    spSend s (ctxEp s x) (grpMsg .abortReq x.tenant (coordinator s i) 0 false (g, e) rank x.lvl (abortSeq s x) (failWord st rank))

/-- An input of the running operation, entered when it is new. -/
def inputOf (r : RedRun) (rank lvl : Nat) : RedIn := (r.ins.find? fun i => i.rank == rank && i.lvl == lvl).getD { rank := rank, lvl := lvl }
def putInput (r : RedRun) (i : RedIn) : RedRun :=
  { r with ins := (r.ins.filter fun j => ! (j.rank == i.rank && j.lvl == i.lvl)) ++ [i] }

/-- A contribution entered in the operation: its input has supplied so many halves more, and its data go into that input's digest (R279). -/
def enterInput (s : State) (r : RedRun) (h : RedHold) (n : Nat) : RedRun :=
  let i := inputOf r h.rank h.lvl
  let r := putInput r { i with n := i.n + n, dig := crc64 i.dig h.pkt.data }
  { r with holds := r.holds ++ [h], step := some (r.step.getD s.clk.now), labels := some (r.labels.getD (h.pkt.layer, h.pkt.opid)) }

/-- The operation ended (R250, R253): SEQ advances and the working state of the operation goes; a mark of the next operation starts afresh, and
contributions of which nothing was taken belong to the next one. -/
def opEnd (s : State) (x : Ctx) : State :=
  let r := redRun s x
  let v := rd s (ctxS x)
  let v := setF (setF (setF (addF v RedCtxS.SEQ 1) RedCtxS.BASE 0) RedCtxS.STATUS 0) RedCtxS.POISONED 0
  let next : RedRun := { grp := r.grp, unacked := r.unacked, done := r.ins.filter fun i => i.sig.isSome && i.close.isNone }
  let left := r.holds.filter fun h => ! h.absent && h.took == 0
  setRed (wrReg s (ctxS x) (setF v RedCtxS.STATE (if left.isEmpty then 1 else 2))) x
    (left.foldl (fun r h => enterInput s r h h.pend.length) next)

/-- Inputs that count as having supplied a half (R253): those received for it, and those that have sent ERR_RSP. -/
def suppliedAt (r : RedRun) (k : Nat) : Nat :=
  let got := (halfAt r k).got
  got.length + (r.ins.filter fun i => i.err && ! got.contains (i.rank, i.lvl)).length

/-- Halves entered as supplied by an input of a failed context. -/
def supply (r : RedRun) (rank lvl : Nat) (hs : List Nat) : RedRun :=
  hs.foldl (fun r k => { r with poss := putHalf r.poss { halfAt r k with got := (halfAt r k).got ++ [(rank, lvl)] } }) r

/-- Has every position that is not yet emitted all its inputs (R253)? -/
def allSupplied (r : RedRun) (x : Ctx) (base : Nat) : Bool :=
  (List.range (x.halves - 2 * base)).all fun i => decide (x.nops ≤ suppliedAt r (2 * base + i))

/-- A failed context whose inputs are all in moves on to the next operation (R253 step 4). -/
def failStep (s : State) (x : Ctx) : State := if ctxState s x == 3 && allSupplied (redRun s x) x (ctxBase s x) then opEnd s x else s

/-- The TAG of a failed context's ERR_RSP, which no request carries, so that no requester takes it for the answer to one (log 16, DESIGN CHOICE). -/
def failTag : Nat := 0xFFF

/-- A context fails (R253): STATUS and STATE 3, one ERR_RSP to the output target, partials discarded and held contributions acknowledged with
STATUS. A second failure leaves STATUS as it is; a context that is disabled has nothing to fail. -/
def ctxFail (s : State) (x : Ctx) (st : Status) : State :=
  if ctxState s x = 3 ∨ ctxState s x = 0 then s
  else
    let s := setFld (setFld s (ctxS x) RedCtxS.STATUS st.code) (ctxS x) RedCtxS.STATE 3
    let s := if st = .digestMismatch then bump s (Reg.redCstat x.tile x.c) RedCstat.DIGEST 1 else s
    let e : Pkt := { opc := .errRsp, src := ctxEp s x, dst := x.out, tenant := x.tenant, prio := 3, tag := failTag,
                     addr := redAddr 0 x.rlo x.lvl x.octx, data := [BitVec.ofNat 8 st.code] }
    let s := inject s e
    let s := (redRun s x).holds.foldl (fun s h => ackTo s h.pkt st) s
    let s := dropWaiting s fun r => match r.why with
      | .redOut t k _ => t == x.tile && k == x.c
      | _ => false
    let r := redRun s x
    let r := r.holds.foldl (fun r h => supply r h.rank h.lvl (h.pend.map RedHalf.half)) { r with poss := r.poss.map fun q => { q with nodes := [], ready := none } }
    failStep (setRed s x { r with holds := [], sent := 0, step := none }) x

/-- A digest that does not match (R279): a record, the failure and the abort request. -/
def digestFail (s : State) (x : Ctx) (i : RedIn) : State :=
  let d := i.close.getD 0 * 2 ^ 64 + i.dig
  let s := log s { errOf (unitCode .ru x.tile) .digest 2 with tenant := x.tenant, status := .digestMismatch, synd := d }
  ctxAbort (ctxFail s x .digestMismatch) x .digestMismatch i.rank

/-- The contribution digest of an input compared once its closing mark and every packet are in (R279). -/
def closeCheck (s : State) (x : Ctx) (i : RedIn) : State :=
  match i.close with
  | none => s
  | some d => if i.n < x.halves ∨ d = i.dig then s else digestFail s x i

/-- The opening marks compared once NOPS are in (R278): agreeing marks pass up as the context's own; marks that differ fail it. -/
def openCheck (s : State) (x : Ctx) : State :=
  let r := redRun s x
  let sigs := r.ins.filterMap RedIn.sig
  if sigs.length < x.nops ∨ r.opened then s
  else match sigs with
    | [] => s
    | a :: rest =>
      if rest.any (· != a) then ctxAbort (ctxFail s x .collMismatch) x .collMismatch x.rlo
      else
        let s := setRed s x { r with opened := true }
        match r.grp with
        | some (g, e, _) =>
          if x.toParent then spSend s (ctxEp s x) (grpMsg .open x.tenant x.out x.octx false (g, e) x.rlo x.lvl (abortSeq s x) a) else s
        | none => s

/-- Does the context emit: always when CONTRIB commands alone feed it, else once its opening marks agree (R278)? -/
def mayEmit (s : State) (x : Ctx) : Bool := ((redRun s x).grp.isNone || (redRun s x).opened) && ctxState s x == 2

/-! ### Emission (R244, R247, R250) -/

/-- Positions complete from `from_` on, without a gap. -/
def readyFrom (r : RedRun) : Nat → Nat → List RedPos
  | 0, _ => []
  | k + 1, pos =>
    match r.poss.find? (fun q => q.half == 2 * pos && q.ready.isSome), r.poss.find? (fun q => q.half == 2 * pos + 1 && q.ready.isSome) with
    | some a, some b => a :: b :: readyFrom r k (pos + 1)
    | _, _ => []

/-- The first position that waits to be sent, and the complete ones from it on (at most 32). -/
def emitFrom (s : State) (x : Ctx) : Nat := ctxBase s x + (redRun s x).sent
def emitReady (s : State) (x : Ctx) : List RedPos := readyFrom (redRun s x) (min 32 (x.npos - emitFrom s x)) (emitFrom s x)

/-- The elements and counts of a half; a half whose inputs are all absent has no stated value (log 8, DESIGN CHOICE). -/
def halfVals (s : State) (x : Ctx) (q : RedPos) : (List Nat × List Nat) × State :=
  match q.nodes.find? fun a => ! a.absent && (x.mode != 1 || ownNode x a) with
  | some a => ((a.vals, a.cnts), s)
  | none =>
    let d := draw s
    (((List.range x.perHalf).map fun i => (Config.freeWord (d.1 + i)).toNat % 2 ^ (8 * max 1 (elemWidth x.cf)),
      if x.counts then List.replicate x.perHalf 0 else []), d.2)

/-- The elements of a run of halves. -/
def runVals (s : State) (x : Ctx) : List RedPos → (List Nat × List Nat) × State
  | [] => (([], []), s)
  | q :: r =>
    let a := halfVals s x q
    let b := runVals a.2 x r
    ((a.1.1 ++ b.1.1, a.1.2 ++ b.1.2), b.2)

/-- Does a non-final or final ordered context, or an arrival one, send in the widened format (R243, R244)? -/
def Ctx.outFmt (x : Ctx) : Nat := if x.mode = 1 ∧ ! x.final then wideFmt x.efmt else x.efmt
def Ctx.outWire (x : Ctx) : Nat := if x.mode = 1 ∧ ! x.final then 0 else x.owire

/-- Positions that fit into one packet (R237, R250). -/
def Ctx.posPerPkt (x : Ctx) : Nat :=
  let ow := max 1 (elemWidth x.outFmt)
  let per := 128 / max 1 x.w * (ow + (if x.counts then 4 else 0))
  max 1 (min 32 (4096 / per))

/-- Is an output packet sent as BITMAP (R247): whole groups, at most half of whose elements are not zero? -/
def Ctx.bitmapOut (x : Ctx) (pos : Nat) (es : List Nat) : Bool :=
  let e0 := pos * 128 / max 1 x.w
  let past := e0 + es.length
  x.isp && ! x.counts && e0 % 256 == 0 && (past % 256 == 0 || past == x.elems || es.length % (128 / max 1 x.w) != 0) &&
    decide (2 * (es.filter (· != 0)).length ≤ es.length)

/-- The packets of a run of positions: position, EFMT, SFMT, payload, and the events of encoding. -/
def Ctx.outPkts (x : Ctx) (pos : Nat) (es cs : List Nat) : List WirePkt :=
  let ow := max 1 (elemWidth x.outFmt)
  if x.counts then [{ pos := pos, efmt := x.outFmt, sfmt := 0, data := bytesOf ow es ++ bytesOf 4 cs }]
  else if x.bitmapOut pos es then
    let gs := (groupsOf 256 (es.length + 1) es).map (bitmapGroup ow)
    (packUnits 127 gs (pos * 128 / max 1 x.w / 256) (pos * 128 / max 1 x.w / 256) [] 0).map fun u =>
      { pos := 0, efmt := x.outFmt, sfmt := 1, data := unitPayload u.1 u.2 }
  else wireDense 256 x.outFmt x.outWire pos (bytesOf ow es)

/-- The dense bytes in EFMT that a landing makes of an output packet's elements (R280): the root decodes its own OWIRE output. -/
def Ctx.landed (x : Ctx) (es : List Nat) : List Byte :=
  let w := max 1 x.w
  if x.outWire = 1 then bytesOf w (es.map fun c => untrim16 (trim16 c).code)
  else if x.outWire = 2 then
    bytesOf w (((groupsOf 32 (es.length + 1) es).flatMap fun g => (bs8Unblock x.efmt (bs8Block x.efmt g).1).map Rounded.code).take es.length)
  else bytesOf w es

/-- One packet's worth of positions encoded and made to wait for its grant (R250); its poison covers every position in it (R251). -/
def emitChunk (s : State) (x : Ctx) (hs : List RedPos) : State :=
  let n := hs.length / 2
  let pos := emitFrom s x
  let v := runVals s x hs
  let s := v.2
  let ns := if x.mode = 1 ∧ x.final then v.1.1.map (narrow x.efmt) else v.1.1.map fun c => { code := c }
  let es := ns.map Comb.code
  let ev := (ns.map Comb.ev).foldl FmtEvents.add {}
  let r := redRun s x
  let psn := r.malf || hs.any RedPos.psn
  let ps := x.outPkts pos es v.1.2
  let s := bump (ruFmt s x.tile x.tenant ((ps.map WirePkt.ev).foldl FmtEvents.add ev)) (Reg.redCstat x.tile x.c) RedCstat.ISAT ev.isat
  let s := setRed s x { r with sent := r.sent + n, outDig := ps.foldl (fun d p => crc64 d p.data) r.outDig,
                               resSums := r.resSums ++ x.landed es, resCnts := r.resCnts ++ bytesOf 4 v.1.2 }
  (ps.zipIdx).foldl (fun s y =>
    let w := y.1
    let p : Pkt := { opc := if x.toParent then .redContrib else .redResult, src := ctxEp s x, dst := x.out, tenant := x.tenant, prio := x.oprio,
                     addr := redAddr w.pos x.rlo x.lvl x.octx, nbytes := w.data.length, efmt := w.efmt, sfmt := w.sfmt, poison := psn,
                     layer := (r.labels.getD (0, 0)).1, opid := (r.labels.getD (0, 0)).2, data := w.data }
    enqueue s p (.redOut x.tile x.c (if y.2 + 1 = ps.length then n else 0))) s

/-- Halves cut into packets. -/
def emitChunks (s : State) (x : Ctx) : Nat → List RedPos → State
  | 0, _ => s
  | k + 1, hs => if hs.isEmpty then s else emitChunks (emitChunk s x (hs.take (2 * x.posPerPkt))) x k (hs.drop (2 * x.posPerPkt))

/-- Positions a context may still send to a parent (R230, R250): the parent's PWIN unacknowledged at most, and none of a new operation before every packet
of the last one is acknowledged. -/
def emitRoom (s : State) (x : Ctx) : Nat :=
  let r := redRun s x
  if ! x.toParent then x.npos
  else if emitFrom s x = 0 ∧ 0 < r.unacked then 0
  else ctxWindow s x.out x.octx - r.unacked - r.sent

/-- The cycle in which a list of halves is ready. -/
def readyAt (hs : List RedPos) : Nat := (hs.filterMap RedPos.ready).foldl max 0

/-- The run a context emits: its ready positions in one packet, or in several where one cannot hold them. Log 75, DEDUCED. -/
def emitRun (s : State) (x : Ctx) (hs : List RedPos) : State :=
  let hs := hs.take (2 * emitRoom s x)
  if hs.isEmpty ∨ ! mayEmit s x then s else emitChunks (advanceTo s (readyAt hs)) x 33 hs

/-- RED_EMIT (R250): 32 positions are ready, or the operation's last. -/
def execRedEmit (tile c : Nat) (s : State) : Host.Outcome State Fault Refusal :=
  let x := ctxAt s tile c
  let hs := emitReady s x
  .next (if hs.length < 64 ∧ emitFrom s x + hs.length / 2 < x.npos then s else emitRun s x hs)

/-- The complete positions at the head of a run whose two halves are ready by a cycle. -/
def readyBy (g : Nat) : List RedPos → List RedPos
  | a :: b :: r => if a.ready.getD 0 ≤ g ∧ b.ready.getD 0 ≤ g then a :: b :: readyBy g r else []
  | _ => []

/-- RED_EMIT_TIMER (R250): 32 cycles after the first unemitted position became ready, those that are ready are sent. -/
def execRedEmitTimer (tile c : Nat) (s : State) : Host.Outcome State Fault Refusal :=
  let x := ctxAt s tile c
  .next (match emitReady s x with
    | [] => s
    | a :: rest =>
      let g := readyAt ((a :: rest).take 2) + 32
      if ! mayEmit s x || emitRoom s x == 0 then s
      else
        let s := advanceTo s g
        emitRun s x (readyBy s.clk.now (emitReady s x)))

/-- The held contributions whose every position has been emitted acknowledged (R229). -/
def ackHolds (s : State) (x : Ctx) : State :=
  let b := ctxBase s x
  let r := redRun s x
  let done := r.holds.filter fun h => h.pend.isEmpty && decide (h.past ≤ b)
  let s := setRed s x { r with holds := r.holds.filter fun h => ! (h.pend.isEmpty && decide (h.past ≤ b)) }
  done.foldl (fun s h => ackTo s h.pkt .ok) s

/-- The marks a context sends after its last emission (R279, R280): the closing mark to a parent, the result mark down the tree. -/
def lastMark (s : State) (x : Ctx) : State :=
  let r := redRun s x
  match r.grp with
  | none => s
  | some (g, e, _) =>
    let k := if x.toParent then SpKind.close else SpKind.result
    let d := if x.toParent then r.outDig else crc64 (crc64 0 r.resSums) r.resCnts
    spSend s (ctxEp s x) (grpMsg k x.tenant x.out x.octx false (g, e) x.rlo x.lvl (abortSeq s x) d)

/-- A packet of `n` positions has left (R250): BASE passes them, the step timer restarts, held contributions whose positions are all out are
acknowledged; after the last position the operation ends. -/
def redEmitted (s : State) (tile c n : Nat) : State :=
  let x := ctxAt s tile c
  let b := ctxBase s x + n
  let r := redRun s x
  let s := setRed s x { r with sent := r.sent - n, unacked := if x.toParent then r.unacked + n else r.unacked, step := some s.clk.now,
                               poss := r.poss.filter fun q => decide (2 * b ≤ q.half) }
  let s := setFld s (ctxS x) RedCtxS.BASE b
  let s := ackHolds s x
  if b < x.npos then s
  else
    let s := lastMark s x
    opEnd (((redRun s x).holds.filter fun h => h.absent || h.took != 0).foldl (fun s h => ackTo s h.pkt .ok) s) x

/-! ### A contribution arrives (R229, R231, R251, R253) -/

/-- Does a node span overlap another's (R231)? -/
def spanHits (r v r2 v2 : Nat) : Bool := decide (r < r2 + 2 ^ v2) && decide (r2 < r + 2 ^ v)

/-- Is an ordered contribution malformed by its node (R231)? A position that has been emitted has received all its inputs. -/
def nodeBad (s : State) (x : Ctx) (p : Pkt) (hs : List Nat) : Bool :=
  let k := RaRank p.addr
  let v := RaLvl p.addr
  let r := redRun s x
  let hold (h : Nat) : List (Nat × Nat) := (halfAt r h).got ++ ((r.holds.filter fun y => y.pend.any fun g => g.half == h).map fun y => (y.rank, y.lvl))
  x.mode == 1 &&
    (k % 2 ^ v != 0 || ! (decide (v ≤ x.lvl) && decide (x.rlo ≤ k) && decide (k < x.rlo + 2 ^ x.lvl) && decide (k < x.n)) ||
     (k == x.rlo && v == x.lvl && x.nops != 1) ||
     hs.any fun h => decide (h < 2 * ctxBase s x) || (hold h).any (fun g => spanHits k v g.1 g.2) || decide (x.nops ≤ (hold h).length))

/-- Output packets that still wait for their grant take POISON = 1 (R251). -/
def poisonOutputs (s : State) (x : Ctx) : State :=
  let f (r : Req) : Req := match r.why with
    | .redOut t c _ => if t = x.tile ∧ c = x.c then { r with pkt := { r.pkt with poison := true } } else r
    | _ => r
  { s with dyn := { s.dyn with waiting := s.dyn.waiting.map f } }

/-- POISONED set for the operation, and counted once (R251, R254). -/
def setPoisoned (s : State) (x : Ctx) : State :=
  if flag s (ctxS x) RedCtxS.POISONED then s
  else bump (setFld s (ctxS x) RedCtxS.POISONED 1) (Reg.redCstat x.tile x.c) RedCstat.POISON 1

/-- A malformed contribution counted in MALF and recorded (R212). -/
def malNote (s : State) (x : Ctx) (p : Pkt) : State :=
  log (ruFmt s x.tile x.tenant { malf := 1 }) (errPkt (unitCode .ru x.tile) .format 2 p .ok)

/-- A malformed contribution (R212, R251): counted and recorded; POISONED is set and what is yet to leave is poisoned. Where its positions are known it
counts as its input's value there and adds nothing: its node is absent, unless it is the node itself that is wrong; it is acknowledged with them.
Elsewhere it is acknowledged at once. -/
def malContrib (s : State) (x : Ctx) (p : Pkt) (range : Option (Nat × Nat)) : State :=
  let s := malNote s x p
  let s := poisonOutputs (setPoisoned s x) x
  let s := setRed s x { redRun s x with malf := true }
  match range with
  | none => ackTo s p .ok
  | some (a, b) =>
    let hs := (List.range (2 * (b - a))).map fun i => 2 * a + i
    let stray := nodeBad s x p hs
    let h : RedHold := { pkt := p, first := a, past := b, rank := RaRank p.addr, lvl := RaLvl p.addr, pend := [], absent := true }
    let s := setRed s x (enterInput s (redRun s x) h hs.length)
    let open_ (k : Nat) : Bool := x.mode == 1 || decide ((halfAt (redRun s x) k).got.length < x.nops)
    let s := if stray then s else (hs.filter open_).foldl (fun s k => takeHalf s x h ⟨k, [], [], 0, 0⟩ 6) s
    closeCheck (ackHolds s x) x (inputOf (redRun s x) h.rank h.lvl)

/-- A well-formed contribution (R229, R279): held until the input arbiter has granted its flits, and its input's digest compared once all of it is
in. -/
def goodContrib (s : State) (x : Ctx) (p : Pkt) (hs : List RedHalf) (a b : Nat) (ev : FmtEvents) : State :=
  let s := ruFmt s x.tile x.tenant ev
  let s := if p.poison then setPoisoned s x else s
  let h : RedHold := { pkt := p, first := a, past := b, rank := RaRank p.addr, lvl := RaLvl p.addr, pend := hs }
  let s := setRed s x (enterInput s (redRun s x) h hs.length)
  closeCheck s x (inputOf (redRun s x) h.rank h.lvl)

/-- A later contribution to a failed context (R253): acknowledged with STATUS, and counted as supplied. -/
def lateContrib (s : State) (x : Ctx) (p : Pkt) (hs : List Nat) : State :=
  let s := ackTo s p (Status.ofCode (fld s (ctxS x) RedCtxS.STATUS))
  failStep (setRed s x (supply (redRun s x) (RaRank p.addr) (RaLvl p.addr) hs)) x

/-- A contribution at a reduction unit (R229, R231). -/
def contribAt (s : State) (p : Pkt) : State :=
  let x := ctxAt s p.dst.tile (RaCtx p.addr)
  if x.tenant = 0xFF then errTo s p .regionFault
  else if ctxState s x = 0 then errTo s p .aborted
  else if x.tenant ≠ p.tenant then errTo (violation s (errPkt (unitCode .ru x.tile) .tenant 2 p .tenantViolation)) p .tenantViolation
  else if ctxState s x = 3 then
    match decodeContrib x p with
    | .good hs _ _ _ => lateContrib s x p (hs.map RedHalf.half)
    | .bad r => lateContrib (malNote s x p) x p (match r with | some (a, b) => (List.range (2 * (b - a))).map fun i => 2 * a + i | none => [])
  else
    let s := if x.mode = 2 then s else setFld s (ctxS x) RedCtxS.STATE 2
    match decodeContrib x p with
    | .bad r => malContrib s x p r
    | .good hs a b ev =>
      if nodeBad s x p (hs.map RedHalf.half) then malContrib s x p (some (a, b)) else goodContrib s x p hs a b ev

/-- ERR_RSP of an input at its context (R253): the context fails in the same way, and the input counts as having supplied everything. -/
def inputErr (s : State) (p : Pkt) : State :=
  let x := ctxAt s p.dst.tile (RaCtx p.addr)
  if ctxState s x = 0 ∨ x.tenant ≠ p.tenant then s
  else
    let r := redRun s x
    let s := setRed s x (putInput r { inputOf r (RaRank p.addr) (RaLvl p.addr) with err := true })
    failStep (ctxFail s x (rspStatus p)) x

/-! ### Marks at a context (R267, R278, R279) -/

/-- Does a mark belong to the group its context serves, and is the context enabled (R267)? -/
def markOk (s : State) (x : Ctx) (m : SpMsg) : Bool :=
  ctxState s x != 0 && x.tenant == SpTenant m &&
    (match (redRun s x).grp with | some (g, e, _) => g == SpGroup m && e == SpEpoch m | none => false)

/-- An operation without data, as in BARRIER, ends when the opening and closing marks of NOPS inputs are in and none of them has sent a packet
(log 21, DEDUCED). -/
def emptyEnd (s : State) (x : Ctx) : State :=
  let r := redRun s x
  if ctxState s x == 1 && r.opened && r.holds.isEmpty && r.poss.isEmpty &&
      decide (x.nops ≤ (r.ins.filter fun i => i.n == 0 && i.close == some 0).length) then opEnd (lastMark s x) x
  else s

/-- OPEN at a context (R278): the first one starts the step timer (R281). -/
def openAt (s : State) (x : Ctx) (m : SpMsg) : State :=
  if ! markOk s x m then spStale s x.tile
  else
    let r := redRun s x
    let i := inputOf r (SpRank m) (SpLvl m)
    let r := { putInput r { i with sig := some (SpPay m 0), seq := SpSeq m } with step := some (r.step.getD s.clk.now) }
    emptyEnd (openCheck (setRed s x r) x) x

/-- CLOSE at a context (R279): of the running operation, or of the one just ended. -/
def closeAt (s : State) (x : Ctx) (m : SpMsg) : State :=
  if ! markOk s x m then spStale s x.tile
  else
    let r := redRun s x
    match r.done.find? fun i => i.rank == SpRank m && i.lvl == SpLvl m && i.seq == SpSeq m with
    | some i =>
      let s := setRed s x { r with done := r.done.erase i }
      if SpPay m 0 = i.dig then s else digestFail s x { i with close := some (SpPay m 0) }
    | none =>
      let i := { inputOf r (SpRank m) (SpLvl m) with close := some (SpPay m 0) }
      emptyEnd (closeCheck (setRed s x (putInput r i)) x i) x

/-! ### The step timer (R281) -/

/-- The lowest rank within the context's span that no opening mark has covered. -/
def uncovered (s : State) (x : Ctx) : Nat :=
  let ins := (redRun s x).ins.filter fun i => i.sig.isSome
  let covered (k : Nat) := ins.any fun i => decide (i.rank ≤ k) && decide (k < i.rank + 2 ^ i.lvl)
  ((List.range (min (2 ^ x.lvl) (x.n - x.rlo))).map (x.rlo + ·)).find? (fun k => ! covered k) |>.getD x.rlo

/-- STEP_TIMEOUT (R281): the timer of an incomplete operation reaches STEPTO; the context sends an abort request that names one rank. -/
def execStepTimeout (tile c : Nat) (s : State) : Host.Outcome State Fault Refusal :=
  let x := ctxAt s tile c
  let r := redRun s x
  .next (match r.grp, r.step with
    | some (_, _, i), some t =>
      if ctxState s x == 0 || ctxState s x == 3 then s
      else
        let s := advanceTo s (t + usCycles (stepTo s i))
        let rank := if x.ring then (x.rlo + x.n - 1) % x.n else uncovered s x
        let s := log s { errOf (unitCode .ru tile) .timeout 2 with tenant := x.tenant, status := .collTimeout }
        setRed (ctxAbort s x .collTimeout rank) x { redRun s x with step := none }
    | _, _ => s)

/-! ### MODE 2 (R248, R249) -/

/-- One half beat taken into a run (R223, R248); a beat of another tenant is not combined, and the unit records it (R249). -/
def runTake (s : State) (x : Ctx) (b : Beat) : State :=
  let r := redRun s x
  let ok := b.tok.tenant == x.tenant
  let es := elemsOf (max 1 x.w) (slice b.data 0 128)
  let v := if ! ok then (r.acc, {}) else if r.acc.isEmpty then (es, {}) else combineList x.op x.efmt r.acc es
  let s := if ok then s else log s { faultRec x.tile 10 kTenant b.tok.tenant with unit := unitCode .ru x.tile }
  let s := bump (ruFmt s x.tile x.tenant v.2) (Reg.redCstat x.tile x.c) RedCstat.ISAT v.2.isat
  let s := if ok then bump s (Reg.redCstat x.tile x.c) RedCstat.FLITS 1 else s
  let s := if b.tok.psn then setPoisoned s x else s
  setRed (setFld s (ctxS x) RedCtxS.STATE 2) x { r with acc := v.1, runN := r.runN + 1, runPsn := r.runPsn || b.tok.psn || ! ok }

/-- A run complete (R223, R248): its value is at the crossbar, as the output of the context, six cycles after cycle `g`, in which its last beat
entered. After the last position the context is ready for the next operation. -/
def runOut (s : State) (x : Ctx) (g : Nat) : State :=
  let r := redRun s x
  let d := if r.acc.isEmpty then drawBytes s 128 else (bytesOf (max 1 x.w) r.acc, s)
  let s := d.2
  let beat : Beat := ⟨{ psn := r.runPsn, half := true, tenant := x.tenant, stream := 0 }, d.1⟩
  let s := { s with sch := { s.sch with flight := s.sch.flight ++ [⟨x.tile, 16 + x.c, g + 6, beat⟩] } }
  let s := setRed s x { r with acc := [], runN := 0, runPsn := false }
  if ctxBase s x + 1 < x.npos then setFld s (ctxS x) RedCtxS.BASE (ctxBase s x + 1)
  else
    let s := setFld (setFld (setFld s (ctxS x) RedCtxS.SEQ (ctxSeq s x + 1)) (ctxS x) RedCtxS.BASE 0) (ctxS x) RedCtxS.STATE 1
    setRed (setFld s (ctxS x) RedCtxS.POISONED 0) x { redRun s x with malf := false }

/-- RU_SCHED_BEAT (R78, R248, R249): a half beat enters a MODE 2 context; a beat steered into any other context is
discarded without a record (log 164, DESIGN CHOICE). -/
def execRuSchedBeat (tile ctx : Nat) (s : State) : Host.Outcome State Fault Refusal :=
  .next (match s.sch.sinks.find? fun b => b.tile == tile && b.port == 10 && b.ctx == ctx && ! frozen s b.beat.tok.tenant with
    | none => s
    | some b =>
      let s := { s with sch := { s.sch with sinks := s.sch.sinks.erase b } }
      let x := ctxAt s tile ctx
      if x.mode ≠ 2 ∨ ctxState s x = 0 then s
      else
        let s := runTake s x b.beat
        if (redRun s x).runN < x.nops then s else runOut s x b.at_)

end Sys2Proof.Machine
end

