-- ==== Sys2Proof/Machine/Collective.lean ====
section
/-!
DEFINITION. Collectives (chapter 7): triggered entries and their firing, the collective command, landings, marks at a landing, aborts and
timeouts, and the standpipe nodes of small collectives.
-/
namespace Sys2Proof.Machine

/-! ### The collective command's body (R270) -/

def ColSrc (d : Nat) : Nat := bits d 511 456
def ColDst (d : Nat) : Nat := bits d 455 400
def ColCount (d : Nat) : Nat := bits d 399 368
def ColGidx (d : Nat) : Nat := bits d 367 356
def ColCop (d : Nat) : Nat := bits d 355 352
def ColRop (d : Nat) : Nat := bits d 351 349
def ColEfmt (d : Nat) : Nat := bits d 348 345
def ColSfmt (d : Nat) : Nat := bits d 344 343
def ColWire (d : Nat) : Nat := bits d 342 341
def ColMode (d : Nat) : Nat := bits d 340 340
def ColAlg (d : Nat) : Nat := bits d 339 337
def ColRoot (d : Nat) : Nat := bits d 336 323

/-- Element width, with one byte for a format that has none of its own. -/
def ColW (d : Nat) : Nat := max 1 (elemWidth (ColEfmt d))

/-- COP 0, 1 and 3 reduce (R271); SUMCOUNT results carry counts (R263). -/
def ColReduces (d : Nat) : Bool := ColCop d == 0 || ColCop d == 1 || ColCop d == 3
def ColCounts (d : Nat) : Bool := ColReduces d && ColRop d == 6

/-! ### Groups and members (R265, R266) -/

/-- GROUP and EPOCH, size and STATE of a group-table entry. -/
def grpId (s : State) (i : Nat) : Nat × Nat := (fld s (Reg.fabGrpA i) FabGrpA.GROUP, fld s (Reg.fabGrpA i) FabGrpA.EPOCH)
def grpN (s : State) (i : Nat) : Nat := fld s (Reg.fabGrpA i) FabGrpA.NM1 + 1
def grpState (s : State) (i : Nat) : Nat := fld s (Reg.fabGrpA i) FabGrpA.STATE
def grpTenant (s : State) (i : Nat) : Nat := fld s (Reg.fabGrpA i) FabGrpA.TENANT

/-- The table index of a message's (GROUP, EPOCH), among groups that are not free (R267): the entry of its own tenant, whose epochs are its own,
or else one of another tenant, which turns the message away (R141). -/
def grpOf (s : State) (m : SpMsg) : Option Nat :=
  let hit (i : Nat) : Bool := grpState s i != 0 && grpId s i == (SpGroup m, SpEpoch m)
  match (List.range 4096).find? fun i => hit i && grpTenant s i == SpTenant m with
  | some i => some i
  | none => (List.range 4096).find? hit

/-- Is tile t a member of the group at an index (R266)? -/
def isMember (s : State) (t i : Nat) : Bool := flag s (Reg.tniGrpMember t i) TniGrpMember.V
def memberRank (s : State) (t i : Nat) : Nat := fld s (Reg.tniGrpMember t i) TniGrpMember.RANK

/-- The operation a member runs in a group. -/
def opOf (s : State) (t i : Nat) : Option CollOp := s.coll.ops.find? fun o => o.tile == t && o.gidx == i

/-- A running operation changed. -/
def updOp (s : State) (t i : Nat) (f : CollOp → CollOp) : State :=
  { s with coll := { s.coll with ops := updFirst (fun o => o.tile == t && o.gidx == i) f s.coll.ops } }

/-- The group's poison bit at a member (R608). -/
def grpPsn (s : State) (t i : Nat) : Bool := bit (rd s (Reg.tniGrpPsn t (i / 64))).toNat (i % 64)
def setGrpPsn (s : State) (t i : Nat) : State := raise s (Reg.tniGrpPsn t (i / 64)) (2 ^ (i % 64))

/-- The group consumes poison at a member (R607): one record when the bit was still clear (R609). -/
def poisonGrp (s : State) (t i layer opid : Nat) : State :=
  if grpPsn s t i then setGrpPsn s t i
  else log (setGrpPsn s t i) { errOf (unitCode .tni t) .poisonin 2 with
    tenant := grpTenant s i, status := .poisoned, layer := layer, opid := opid }

/-- Elements a member receives at DST (R271). -/
def outElems (s : State) (t d : Nat) : Nat :=
  let n := grpN s (ColGidx d)
  match ColCop d with
  | 0 => ColCount d
  | 1 => if memberRank s t (ColGidx d) = ColRoot d then ColCount d else 0
  | 2 => ColCount d
  | 3 => ColCount d / n
  | 4 => ColCount d * n
  | _ => 0

/-- CB of R263: where the counts begin, from DST. -/
def countBase (d : Nat) : Nat := 128 * ceilDiv (ColCount d * ColW d) 128

/-- The length of the DST range (R273). -/
def dstLen (s : State) (t d : Nat) : Nat :=
  let n := outElems s t d
  if n = 0 then 0 else if ColCounts d then countBase d + 4 * n else n * ColW d

/-! ### Ending an operation (R275, R280, R282, R283) -/

/-- Landing l of a TNI, its key, and the landings with FINAL = 1 of a group. -/
def landReg (t l : Nat) : Nat := Reg.tniLand t l
def landKey (t l : Nat) : Nat := 16 * t + l
def landRun (s : State) (t l : Nat) : LandRun := eGet {} (landKey t l) s.coll.lands
def setLand (s : State) (t l : Nat) (r : LandRun) : State :=
  { s with coll := { s.coll with lands := eSet {} (landKey t l) r s.coll.lands } }
def landsOf (s : State) (t i : Nat) : List Nat :=
  (List.range 16).filter fun l => fld s (landReg t l) TniLand.GIDX == i && fld s (landReg t l) TniLand.TENANT == grpTenant s i
def finalsOf (s : State) (t i : Nat) : List Nat := (landsOf s t i).filter fun l => flag s (landReg t l) TniLand.FINAL

/-- The barrier of a sluice operation's round is over at its member (R305); a failure of it is the operation's first, in its record too (R303). -/
def barrierOver (s : State) (t i : Nat) (st : Status) : State :=
  let mine (o : SluOp) : Bool := o.tile == t && o.gidx == i && o.phase != .done
  match s.slu.ops.find? mine with
  | none => s
  | some o =>
    let first := o.status.good && ! st.good
    let f (o : SluOp) : SluOp := { o with barrier := true, status := if first then st else o.status }
    let s := { s with slu := { s.slu with ops := updFirst mine f s.slu.ops } }
    if first then setFld s (Reg.tniSluOstat t o.o) TniSluOstat.STATUS st.code else s

/-- A member's operation ended with a status and DETAIL: a poisoned result marks the group whatever the status (R607, R610), and the command
is ready to complete. -/
def collEnd (s : State) (o : CollOp) (st : Status) (detail : Nat) : State :=
  let ls := landsOf s o.tile o.gidx
  let psn := ls.any fun l => (landRun s o.tile l).psn || (landRun s o.tile l).malf
  let s := if psn then poisonGrp s o.tile o.gidx (Desc_layer o.desc) (Desc_opid o.desc) else s
  let s := ls.foldl (fun s l => setLand s o.tile l {}) s
  let s := { s with coll := { s.coll with ops := s.coll.ops.filter fun x => ! (x.tile == o.tile && x.gidx == o.gidx) } }
  let st := if psn ∧ st.good then Status.poisoned else st
  let n := dstLen s o.tile o.desc
  if Desc_cmd o.desc = 9 then barrierOver s o.tile o.gidx st
  else updCmd s o.cmd fun c => { c with left := 0, status := st, bytes := if st.good ∨ st = .poisoned then n else 0, detail := detail }

/-! ### Triggered entries (R259-R262, R687) -/

/-- The descriptor in an entry's store slot. -/
def storeDesc (s : State) (b : Blk) (e : Nat) : Nat :=
  ((List.range 8).map fun i => (rd s (Reg.dstore b (8 * e + i))).toNat * 2 ^ (64 * i)).foldl (· + ·) 0

/-- Does a command kind have the field that REL names (R687): 1 the source, 2 the destination? Log 60, DEDUCED. -/
def relOk (kind rel : Nat) : Bool :=
  match rel with
  | 0 => true
  | 1 => kind == 2 || kind == 6 || kind == 5
  | 2 => kind == 2 || kind == 3 || kind == 4
  | _ => false

/-- An address field with offset bits added modulo 2^52. -/
def relAdd (a b : Nat) : Nat := fabAddr (region a) (regOff a + regOff b)

/-- The descriptor with the running operation's address added to the field that REL names (R687). -/
def relDesc (d rel src dst : Nat) : Nat :=
  match rel with
  | 1 => if Desc_cmd d = 5 then putBits d 455 400 (relAdd (Desc_a1 d) src) else putBits d 511 456 (relAdd (Desc_a0 d) src)
  | 2 => if Desc_cmd d = 2 then putBits d 455 400 (relAdd (Desc_a1 d) dst) else putBits d 511 456 (relAdd (Desc_a0 d) dst)
  | _ => d

/-- TRIGGER_ARM (R261): a write to TRIGB that sets V. It is refused when the tenants of entry and counter differ, or when REL is 3 or names a
field the kind lacks; V then stays 0 and a record is written. An armed entry keeps its value. -/
def execTriggerArm (b : Blk) (e v : Nat) (s : State) : Host.Outcome State Fault Refusal :=
  let r := Reg.trigb b e
  .next (
    if ! tableOn s b || flag s r Trigb.V || 512 ≤ e || ! bit v 0 then s
    else
      let s := softWrite s r (putBits v 0 0 0)
      let t := fld s r Trigb.TENANT
      if t ≠ fld s (trigCtr s b e) Ctr.TENANT then log s { errOf (blkUnit b) .tenant 2 with tenant := t }
      else if ! relOk (Desc_cmd (storeDesc s b e)) (fld s r Trigb.REL) then log s { errOf (blkUnit b) .format 2 with tenant := t }
      else
        let s := setFld s r Trigb.V 1
        let l := (s.trig.armed.filter fun x => ! (x.1 == b && decide (e < x.2))) ++ [(b, e)] ++
          s.trig.armed.filter fun x => x.1 == b && decide (e < x.2)
        compareEntry { s with trig := { s.trig with armed := l } } (b, e))

/-- TRIGGER_DISARM (R261): a write that clears V acts at once and fires nothing. -/
def execTriggerDisarm (b : Blk) (e v : Nat) (s : State) : Host.Outcome State Fault Refusal :=
  .next (
    if 512 ≤ e || bit v 0 then s
    else
      let s := disarm s b e
      softWrite { s with trig := { s.trig with queue := s.trig.queue.filter fun x => x != (b, e) } } (Reg.trigb b e) v)

/-- The opening mark of a FIRST entry's contribution (R275, R278). -/
def openMark (s : State) (t : Nat) (o : CollOp) (d : Nat) : State :=
  let a := Desc_a1 d
  let id := grpId s o.gidx
  if Desc_cmd d = 6 then
    spSend s ⟨myChip s, t, 0⟩ (grpMsg .open (grpTenant s o.gidx) (Desc_target d) (RaCtx a) false id (RaRank a) (RaLvl a) o.seq o.sig)
  else s

/-- The closing mark when a LAST entry's command completes (R275, R279). -/
def closeMark (s : State) (t : Nat) (o : CollOp) (d : Nat) : State :=
  let a := Desc_a1 d
  let id := grpId s o.gidx
  let hit := injArmed s (.tni t) .digest (fun k => k == 0)
  let s := if hit then injFire s (.tni t) else s
  if Desc_cmd d = 6 then
    spSend s ⟨myChip s, t, 0⟩ (grpMsg .close (grpTenant s o.gidx) (Desc_target d) (RaCtx a) false id (RaRank a) (RaLvl a) o.seq
      (eGet 0 (ctxKey (Desc_target d) (RaCtx a)) o.digs ^^^ b2n hit))
  else s

/-- TRIGGER_FIRE (R260): the first entry in a unit's firing queue issues its command. A one-shot entry clears V and sets FIRED; a persistent
one adds THRINC to THRESH and is compared again in the next cycle. -/
def execTriggerFire (b : Blk) (s : State) : Host.Outcome State Fault Refusal :=
  .next (match s.trig.queue.find? fun x => x.1 == b && tableOn s b with
    | none => s
    | some x =>
      let e := x.2
      let rb := Reg.trigb b e
      let inc := fld s (Reg.triga b e) Triga.THRINC
      let s := { s with trig := { s.trig with queue := s.trig.queue.erase x } }
      let s := if inc = 0 then setFld (disarm s b e) rb Trigb.FIRED 1
        else bump s (Reg.triga b e) Triga.THRESH inc
      let op := match b with | .tni t => opOf s t (fld s rb Trigb.GIDX) | _ => none
      let d := storeDesc s b e
      let d := match op with | some o => relDesc d (fld s rb Trigb.REL) (ColSrc o.desc) (ColDst o.desc) | none => d
      let s := match b, op with
        | .tni t, some o => if flag s rb Trigb.FIRST then openMark s t o d else s
        | _, _ => s
      { s with trig := { s.trig with issued := s.trig.issued ++ [⟨b, e, d⟩] } })

/-- Does the operation run on the standpipe (R274)? -/
def onStandpipe (s : State) (d : Nat) : Bool :=
  ColAlg d == 3 && decide (ColCount d * ColW d ≤ 16) && ColMode d == 0 && ColSfmt d == 0 && ColWire d == 0 &&
    (ColCop d == 0 || ColCop d == 2 || ColCop d == 5) && flag s (Reg.fabGrpA (ColGidx d)) FabGrpA.SPEN

/-- A command of an entry completed at a member (R275): a LAST entry's closing mark goes out; a member that holds no FINAL landing ends with its
last LAST command, with the first failure among them. -/
def lastDone (s : State) (c : Cmd) : State :=
  match c.trig with
  | some (.tni t, e) =>
    let rb := Reg.trigb (.tni t) e
    let i := fld s rb Trigb.GIDX
    if ! flag s rb Trigb.LAST then s
    else match (opOf s t i).filter fun o => ! onStandpipe s o.desc with
      | none => s
      | some o =>
        let s := closeMark s t o c.desc
        let o := { o with lastLeft := o.lastLeft - 1, lastAt := some s.clk.now,
                          status := if o.status.good ∧ ! c.status.good then c.status else o.status }
        let s := updOp s t i fun _ => o
        if o.lastLeft = 0 ∧ (finalsOf s t i).isEmpty ∧ ColCop o.desc = 1 then collEnd s o o.status 0 else s
  | _ => s

/-! ### Starting a collective (R268, R273-R275, R277) -/

/-- The entries of a group armed at a member's TNI; none of them means that no chain is installed (log 20, DEDUCED). -/
def chainOf (s : State) (t i : Nat) : List Nat :=
  (s.trig.armed.filter fun x => x.1 == .tni t && fld s (Reg.trigb (.tni t) x.2) Trigb.GIDX == i).map Prod.snd

/-- Row 1 of R273. -/
def collMalformed (s : State) (c : Cmd) : Bool :=
  let d := c.desc
  let i := ColGidx d
  let t := c.ex.tile
  Ep_kind c.ex != .tile || bits d 47 3 != 0 || Desc_inlen d != 0 || ! c.inl.isEmpty || bits d 310 128 != 0 ||
    decide (5 < ColCop d) || decide (3 < ColAlg d) || ! (grpState s i == 1 || grpState s i == 2) || ! isMember s t i ||
    (ColMode d == 1 && ColAlg d == 1) || (ColCop d == 3 && ColCount d % grpN s i != 0) ||
    (! onStandpipe s d && (chainOf s t i).isEmpty && (landsOf s t i).isEmpty)

/-- A range of this package that fails R37 or the partition check. -/
def badRange (s : State) (t addr len : Nat) : Bool :=
  (rangeCheck s false (myChip s) addr len).isSome || rangeForeign s t (myChip s) addr len

/-- The checks of R273 in their order, with the poison bit before STATE (R607). What runs on the standpipe also has a format of that row of R214. -/
def collCheck (s : State) (c : Cmd) : Option Status :=
  let d := c.desc
  let i := ColGidx d
  let t := c.ex.tile
  if collMalformed s c then some .badDescriptor
  else if grpTenant s i ≠ c.tenant then some .tenantViolation
  else if grpPsn s t i then some .poisoned
  else if grpState s i = 2 then some .aborted
  else if ColReduces d ∧ ! opFmtOk (ColRop d) (ColEfmt d) (ColSfmt d) (ColWire d) then some .formatUnsupported
  else if (ColCop d = 2 ∨ ColCop d = 4) ∧ ! fmtPlain (ColEfmt d) (ColSfmt d) (ColWire d) then some .formatUnsupported
  else if onStandpipe s d ∧ ColCop d ≠ 5 ∧ ! fmtArithElem (ColEfmt d) then some .formatUnsupported
  else if 2 ^ 31 < ColCount d * ColW d then some .lengthRange
  else if ColCop d ≠ 5 ∧ (badRange s c.tenant (ColSrc d) (ColCount d * ColW d) || badRange s c.tenant (ColDst d) (dstLen s t d)) then
    some .regionFault
  else if ColCount d = 0 ∧ ColCop d ≠ 5 then some .ok
  else none

/-- The 24-byte record of R277 and its digest. -/
def signature (grp epoch seq d : Nat) : Nat :=
  crc64 0 (toLE 2 grp ++ toLE 2 epoch ++ toLE 4 seq ++ toLE 4 (ColCount d) ++ toLE 1 (ColCop d) ++ toLE 1 (ColRop d) ++ toLE 1 (ColEfmt d) ++
    toLE 1 (ColSfmt d + 4 * ColWire d + 16 * ColMode d + 32 * ColAlg d) ++ toLE 2 (ColRoot d) ++ List.replicate 6 0)

/-- UP of a member on the standpipe (R288): the payload of a member that has one, its digest, and the member's rank. It goes to the stage of the
member's own router (log 185, DEDUCED). -/
def memberUp (s : State) (o : CollOp) : State :=
  let d := o.desc
  let t := o.tile
  let id := grpId s o.gidx
  let rank := memberRank s t o.gidx
  let n := ColCount d * ColW d
  let has := ColCop d == 0 || (ColCop d == 2 && rank == ColRoot d)
  let fn := grpTenant s o.gidx
  let data := if has then readFabric s fn (ColSrc d) n else []
  let s := if has && markedFabric s fn (ColSrc d) n then poisonGrp s t o.gidx (Desc_layer d) (Desc_opid d) else s
  let nw := ceilDiv data.length 8
  let ws := (List.range nw).map fun i => ofLE (slice data (8 * i) 8)
  let m : SpMsg := ⟨[spWord0 .up (grpTenant s o.gidx) ⟨myChip s, t, 4⟩ 0 nw false (ColRop d) (ColEfmt d) (n - 1),
    spWord1 id.1 id.2 rank 0 o.seq] ++ ws ++ [crc64 0 data]⟩
  updOp (spSend s ⟨myChip s, t, 0⟩ m) t o.gidx fun o => { o with lastAt := some s.clk.now }

/-- An accepted command started (R275): SEQ taken, the addresses and the signature bound, SCTR advanced, and on the standpipe
UP sent (R274). -/
def runCollective (s : State) (c : Cmd) : State :=
  let d := c.desc
  let i := ColGidx d
  let t := c.ex.tile
  let r := Reg.tniGrpMember t i
  let seq := fld s r TniGrpMember.SEQ
  let id := grpId s i
  let lasts := (chainOf s t i).filter fun e => flag s (Reg.trigb (.tni t) e) Trigb.LAST
  let o : CollOp := { tile := t, gidx := i, cmd := c.id, desc := d, seq := seq, sig := signature id.1 id.2 seq d,
                       lastLeft := if onStandpipe s d then 0 else lasts.length }
  let s := bump (addCmd s { c with left := 1 }) r TniGrpMember.SEQ 1
  let s := { s with coll := { s.coll with ops := s.coll.ops ++ [o] } }
  let s := addCtr s (Reg.ctr (.tni t) (fld s r TniGrpMember.SCTR)) 1
  if onStandpipe s d then memberUp s o else s

/-- Does a member run an operation in a group (R268): a collective, or a sluice's DISPATCH? -/
def memberBusy (s : State) (t i : Nat) : Bool :=
  (opOf s t i).isSome || s.slu.ops.any fun o => o.tile == t && o.gidx == i && o.phase != .done

/-- Does a command of a group wait behind the member's running operation (R268)? -/
def collWaits (s : State) (src : CmdSrc) : Bool :=
  match offered s src with
  | some c => Desc_cmd c.desc == 8 && Ep_kind c.ex == .tile && memberBusy s c.ex.tile (ColGidx c.desc)
  | none => false

/-- COLLECTIVE (R268, R273-R275). -/
def execCollective (src : CmdSrc) (s : State) : Host.Outcome State Fault Refusal :=
  .next (if collWaits s src then holdCore s src
    else startCmd s src (· == 8) fun s c => match collCheck s c with
      | some st => endAt s c st
      | none => runCollective s c)

/-! ### Landings (R263, R280) -/

/-- What a landing decodes with: the operation's format in arrival form, with any wire mode and BITMAP, over the positions from OFFP to the end
of the member's output (for a landing that is not FINAL and a member without output, of COUNT elements; log 22, DEDUCED). -/
def landCtx (s : State) (t l : Nat) (d : Nat) : Ctx :=
  let all := if outElems s t d = 0 then ColCount d else outElems s t d
  let op := if ColReduces d then ColRop d else if fmtArithElem (ColEfmt d) then 0 else 3
  { tile := t, c := l, tenant := 0, mode := 0, op := op, efmt := ColEfmt d, iwire := 0, owire := 0, isp := true, final := false, ring := false,
    nops := 1, rlo := 0, lvl := 0, n := 1, out := ⟨0, 0, 0⟩, octx := 0,
    npos := ceilDiv (all * ColW d) 128 - fld s (landReg t l) TniLand.OFFP, pwin := 256, oprio := 0 }

/-- Positions a member's FINAL landings receive together in an operation. -/
def finalPositions (s : State) (t d : Nat) : Nat := ceilDiv (outElems s t d * ColW d) 128

/-- The result of the landings of an operation once every FINAL one has its positions and its mark (R280): `none` while some wait. -/
def landOutcome (s : State) (o : CollOp) : Option Status :=
  let rs := (finalsOf s o.tile o.gidx).map fun l => landRun s o.tile l
  let marked := rs.all fun r => r.malf || r.mark.isSome
  let total := (rs.map LandRun.n).foldl (· + ·) 0
  if rs.isEmpty ∨ ! marked ∨ total < finalPositions s o.tile o.desc then none
  else if rs.any fun r => ! r.malf && r.mark != some (crc64 (crc64 0 (r.sums.flatMap Prod.snd)) (r.cnts.flatMap Prod.snd)) then
    some .digestMismatch
  else some .ok

/-- The landings of an operation compared when they can be (R280). -/
def landCheck (s : State) (t i : Nat) : State :=
  match opOf s t i with
  | none => s
  | some o => match landOutcome s o with
    | none => s
    | some .digestMismatch =>
      let r := { errOf (unitCode .tni t) .digest 2 with tenant := grpTenant s i, status := .digestMismatch }
      collEnd (log s { r with layer := Desc_layer o.desc, opid := Desc_opid o.desc }) o .digestMismatch 0
    | some st => collEnd s o st 0

/-- One half position written at a landing (R263): the sums at their place and, for SUMCOUNT, the counts behind CB. -/
def landHalf (s : State) (t l : Nat) (d : Nat) (psn : Bool) (h : RedHalf) : State :=
  let w := ColW d
  let off := 128 * fld s (landReg t l) TniLand.OFFP + 64 * h.half
  let lim := (if outElems s t d = 0 then ColCount d else outElems s t d) * w
  let bs := (bytesOf w h.vals).take (lim - off)
  let cs := (bytesOf 4 h.cnts).take ((lim - off) / w * 4)
  let fn := fld s (landReg t l) TniLand.TENANT
  let s := if bs.isEmpty then s else storeFabric s fn (relAdd (ColDst d) off) bs psn
  let s := if cs.isEmpty then s else storeFabric s fn (relAdd (ColDst d) (countBase d + off / w * 4)) cs psn
  let r := landRun s t l
  setLand s t l { r with sums := eSet [] off bs r.sums, cnts := eSet [] off cs r.cnts, psn := r.psn || psn }

/-- Positions counted at a landing: its own progress and its counter (R257, R263). -/
def landCount (s : State) (t l n : Nat) : State :=
  let r := landRun s t l
  addCtr (setLand s t l { r with n := r.n + n }) (Reg.ctr (.tni t) (fld s (landReg t l) TniLand.CTR)) n

/-- RED_RESULT at a landing (R195, R216, R263): its EFMT is the one that the operation's pair (EFMT, WIRE) requires; what decoding rounds is counted. -/
def landResult (s : State) (p : Pkt) : State :=
  let t := p.dst.tile
  let l := RaCtx p.addr
  let i := fld s (landReg t l) TniLand.GIDX
  if fld s (landReg t l) TniLand.TENANT ≠ p.tenant then errTo s p .regionFault
  else match opOf s t i with
    | none => errTo s p .aborted
    | some o =>
      let d := o.desc
      match (if p.efmt = wireEfmt (ColEfmt d) (ColWire d) ∧ (p.sfmt = 0 ∨ ColWire d = 0) then
          decodeContrib (landCtx s t l d) { p with src := { p.src with dep := 4 } } else .bad (coverOf (landCtx s t l d) p)) with
      | .good hs a b ev =>
        let s := tniFmt s t { ev with isat := 0 }
        let s := hs.foldl (fun s h => landHalf s t l d p.poison h) s
        landCheck (ackTo (landCount s t l (b - a)) p .ok) t i
      | .bad r =>
        let s := log (tniFmt s t { malf := 1 }) (errPkt (unitCode .tni t) .format 2 p .ok)
        let s := setLand s t l { landRun s t l with malf := true }
        let s := match r with | some (a, b) => landCount s t l (b - a) | none => s
        landCheck (ackTo s p .ok) t i

/-- The ERR_RSP of the context that feeds a landing (R263): the member's operation ends with its status. -/
def landErr (s : State) (p : Pkt) : State :=
  let t := p.dst.tile
  let l := RaCtx p.addr
  let i := fld s (landReg t l) TniLand.GIDX
  if fld s (landReg t l) TniLand.TENANT ≠ p.tenant then s
  else match opOf s t i with
    | none => s
    | some o => collEnd s o (rspStatus p) 0

/-- RESULT at a landing (R280); a mark whose group does not match, or that no running operation waits for, is stale (R267). -/
def resultAt (s : State) (m : SpMsg) : State :=
  let t := (SpDst m).tile
  let l := SpCtx m
  let i := fld s (landReg t l) TniLand.GIDX
  if fld s (landReg t l) TniLand.TENANT ≠ SpTenant m ∨ grpId s i ≠ (SpGroup m, SpEpoch m) ∨ (opOf s t i).isNone then spStale s t
  else
    let hit := injArmed s (.tni t) .digest (fun k => k == 1)
    let s := if hit then injFire s (.tni t) else s
    landCheck (setLand s t l { landRun s t l with mark := some (SpPay m 0 ^^^ b2n hit) }) t i

/-! ### Aborts (R282) -/

/-- The packages of the configured torus, ascending (R38). -/
def torusChips (s : State) : List Nat := (List.range 256).filter (inTorus s)

/-- The packages that hold members of a group, ascending (R38, R282): this one, the coordinator's, and those of the torus that the group's plan
names (log 23, DEDUCED). -/
def memberChips (s : State) (tenant group epoch : Nat) : List Nat :=
  (torusChips s).filter fun c => (c == myChip s || Config.groupChip tenant group epoch c)

/-- ABORT_REQ (R282): the coordinator accepts the first request for an operation of a group and sends ABORT to every member package. -/
def execAbortReq (m : SpMsg) (s : State) : Host.Outcome State Fault Refusal :=
  .next (spArrive s m fun s =>
    let t := (SpDst m).tile
    match grpOf s m with
    | none => spStale s t
    | some i =>
      let k := (SpTenant m, SpGroup m, SpEpoch m, SpSeq m)
      if grpTenant s i ≠ SpTenant m then spForeign s m
      else if s.coll.aborts.contains k then s
      else
        let s := { s with coll := { s.coll with aborts := s.coll.aborts ++ [k] } }
        (memberChips s (SpTenant m) (SpGroup m) (SpEpoch m)).foldl (fun s ch => spSend s ⟨myChip s, t, 0⟩
          (grpMsg .abort (SpTenant m) ⟨ch, 0, 0⟩ 0 true (SpGroup m, SpEpoch m) (SpRank m) (SpLvl m) (SpSeq m) (SpPay m 0))) s)

/-- The units of this package that hold triggered entries. -/
def trigUnits : List Blk :=
  (List.range 64).map Blk.tni ++ (List.range 16).map Blk.lp ++ (List.range 2).map Blk.rte

/-- The group's entries disarmed at a unit. -/
def disarmGroup (s : State) (b : Blk) (i : Nat) : State :=
  let mine := s.trig.armed.filter fun x => x.1 == b && fld s (Reg.trigb b x.2) Trigb.GIDX == i
  let s := mine.foldl (fun s x => disarm s b x.2) s
  { s with trig := { s.trig with queue := s.trig.queue.filter fun x => ! mine.contains x } }

/-- The group's contexts on this package cleared under R225. -/
def clearContexts (s : State) (i : Nat) : State :=
  let mine := s.red.filter fun x => match x.2.grp with | some (_, _, j) => j == i | none => false
  mine.foldl (fun s x => ctxDisable s (x.1 / 16) (x.1 % 16) (rd s (Reg.redCtxA (x.1 / 16) (x.1 % 16))).toNat) s

/-- START (R285): the named counter advances at every TNI in use at which the group has a member (R44). -/
def execStart (m : SpMsg) (s : State) : Host.Outcome State Fault Refusal :=
  .next (spArrive s m fun s =>
    match grpOf s m with
    | none => spStaleAll s m
    | some i =>
      if grpTenant s i ≠ SpTenant m then spForeign s m
      else
        ((List.range 64).filter fun t => isMember s t i && tableOn s (.tni t)).foldl
          (fun s t => addCtr s (Reg.ctr (.tni t) (bits (SpPay m 0) 42 32)) (bits (SpPay m 0) 31 0)) s)

/-! ### Small collectives (R287-R289) -/

/-- The node entry of a router that serves a message's group (R287): its tenant's own, or else one of another tenant. -/
def nodeOf (s : State) (tile : Nat) (m : SpMsg) : Option Nat :=
  let hit (i : Nat) : Bool :=
    let r := Reg.rtrSpNode tile i
    flag s r RtrSpNode.V && fld s r RtrSpNode.GROUP == SpGroup m && fld s r RtrSpNode.EPOCH == SpEpoch m
  match (List.range 256).find? fun i => hit i && fld s (Reg.rtrSpNode tile i) RtrSpNode.TENANT == SpTenant m with
  | some i => some i
  | none => (List.range 256).find? hit

/-- The operation slot of a node. -/
def spOpOf (s : State) (tile node : Nat) : Option SpOp := s.coll.spOps.find? fun o => o.tile == tile && o.node == node
def putSpOp (s : State) (o : SpOp) : State :=
  { s with coll := { s.coll with spOps := (s.coll.spOps.filter fun x => ! (x.tile == o.tile && x.node == o.node)) ++ [o] } }
def dropSpOp (s : State) (o : SpOp) : State :=
  { s with coll := { s.coll with spOps := s.coll.spOps.filter fun x => ! (x.tile == o.tile && x.node == o.node) } }

/-- Operation slots of a stage in use (64 in all). -/
def spSlots (s : State) (tile : Nat) : Nat := (s.coll.spOps.filter fun o => o.tile == tile).length

/-- A message with another destination. -/
def SpTo (m : SpMsg) (k : SpKind) (dst : Ep) : SpMsg :=
  let w := SpWord m 0
  ⟨spWord0 k (SpTenant m) dst (SpCtx m) (SpNw m) (SpBc m) (SpRop m) (SpEfmt m) (bits w 19 16) :: m.words.drop 1⟩

/-- Inputs in ascending order of rank. -/
def byRank : List SpIn → List SpIn → List SpIn
  | acc, [] => acc
  | acc, x :: r => byRank (ins x acc) r
where
  ins (x : SpIn) : List SpIn → List SpIn
    | [] => [x]
    | y :: r => if SpRank x.msg < SpRank y.msg then x :: y :: r else y :: ins x r

/-- Is an input a member's own UP, of level 0, at a node's router (R287)? Every other input comes from another node. -/
def SpIn.leaf (x : SpIn) (me : Ep) : Bool := x.src.dep == 0 && x.src.chip == me.chip && x.src.tile == me.tile

/-- The bytes an input's digest covers: its elements, and the counts a partial SUMCOUNT carries. -/
def SpIn.bytes (x : SpIn) (me : Ep) : List Byte :=
  if SpCounts x.msg && ! x.leaf me && SpNw x.msg != 0 then SpBytes x.msg ++ bytesOf 4 (SpCnts x.msg) else SpBytes x.msg

/-- The failure among a node's inputs, if any (R288): a child's DOWN_FAIL, a digest that fails, or differing ROP, EFMT, NBM1 or SEQ. -/
def spFailure (me : Ep) (ins : List SpIn) : Option Nat :=
  match ins.find? fun x => SpKindOf x.msg == .downFail with
  | some x => some (SpPay x.msg 0)
  | none => match ins.find? fun x => SpDigest x.msg != crc64 0 (x.bytes me) with
    | some x => some (failWord .digestMismatch (SpRank x.msg))
    | none =>
      let key (x : SpIn) : Nat × Nat × Nat × Nat := (SpRop x.msg, SpEfmt x.msg, SpNb x.msg, SpSeq x.msg)
      match ins with
      | [] => none
      | a :: r => if r.any fun x => key x != key a then some (failWord .collMismatch (SpRank a.msg)) else none

/-- The inputs' payloads combined in rank order in EFMT (R288), and for SUMCOUNT the counts behind the sums (R237, R238): a member's input adds 1 for
each element that is not zero, a partial its own. An input without payload adds nothing. -/
def spCombine (me : Ep) (ins : List SpIn) : List Byte × FmtEvents :=
  match ins.filter fun x => SpNw x.msg != 0 with
  | [] => ([], {})
  | a :: r =>
    let f := SpEfmt a.msg
    let w := max 1 (elemWidth f)
    let op := if SpRop a.msg = 6 then 0 else SpRop a.msg
    let cnts (x : SpIn) : List Nat :=
      if x.leaf me then onesOf (elemsOf w (SpBytes x.msg)) else SpCnts x.msg
    let v := r.foldl (fun (v : List Nat × FmtEvents) x =>
      let c := combineList op f v.1 (elemsOf w (SpBytes x.msg))
      (c.1, v.2.add c.2)) (elemsOf w (SpBytes a.msg), {})
    let n := if SpCounts a.msg then r.foldl (fun n x => addCounts n (cnts x)) (cnts a) else []
    (bytesOf w v.1 ++ bytesOf 4 n, v.2)

/-- A failure or a result sent back to every source recorded in a slot, and the slot freed (R288). -/
def spBack (s : State) (o : SpOp) (mk : Ep → SpMsg) : State :=
  dropSpOp (o.ins.foldl (fun s x => spSend s ⟨myChip s, o.tile, 4⟩ (mk x.src)) s) o

/-- The parent of a node. -/
def spParent (s : State) (tile node : Nat) : Ep :=
  let r := Reg.rtrSpNode tile node
  ⟨fld s r RtrSpNode.PDCHIP, 8 * fld s r RtrSpNode.PY + fld s r RtrSpNode.PX, 4⟩

/-- A node that holds all its inputs (R288): UP to the parent, DOWN at the root, or DOWN_FAIL in their place and back to the sources. -/
def spComplete (s : State) (o : SpOp) : State :=
  let r := Reg.rtrSpNode o.tile o.node
  let ins := byRank [] o.ins
  match ins with
  | [] => s
  | a :: _ =>
    let id := (SpGroup a.msg, SpEpoch a.msg)
    let me : Ep := ⟨myChip s, o.tile, 4⟩
    let root := flag s r RtrSpNode.ROOTN
    match spFailure me ins with
    | some pay =>
      let mk (dst : Ep) : SpMsg := grpMsg .downFail (SpTenant a.msg) dst 0 false id (SpRank a.msg) 0 (SpSeq a.msg) pay
      let s := if root then s else spSend s me (mk (spParent s o.tile o.node))
      spBack s o mk
    | none =>
      let v := spCombine me ins
      let s := ruFmt s o.tile (SpTenant a.msg) { v.2 with isat := 0 }
      let nw := ceilDiv v.1.length 8
      let ws := (List.range nw).map fun i => ofLE (slice v.1 (8 * i) 8)
      let mk (k : SpKind) (dst : Ep) : SpMsg :=
        ⟨[spWord0 k (SpTenant a.msg) dst 0 nw false (SpRop a.msg) (SpEfmt a.msg) (SpNb a.msg - 1),
          spWord1 id.1 id.2 (SpRank a.msg) 0 (SpSeq a.msg)] ++ ws ++ [crc64 0 v.1]⟩
      if root then spBack s o (mk .down)
      else putSpOp (spSend s me (mk .up (spParent s o.tile o.node))) { o with sentUp := true }

/-- An input taken into a node's slot. -/
def spInput (s : State) (tile node : Nat) (x : SpIn) : State :=
  let o := (spOpOf s tile node).getD { tile := tile, node := node, since := s.clk.now }
  let o := { o with ins := o.ins ++ [x] }
  let s := putSpOp s o
  if fld s (Reg.rtrSpNode tile node) RtrSpNode.NIN ≤ o.ins.length then spComplete s o else s

/-- May an UP for a node be taken: its operation has a slot, or one is free (R291)? -/
def spRoom (s : State) (tile node : Nat) : Bool := (spOpOf s tile node).isSome || decide (spSlots s tile < 64)

/-- An input at a node (R288, R289): with no free slot, or behind one that waits, it waits at the stage input. -/
def spTakeIn (s : State) (tile node : Nat) (x : SpIn) : State :=
  if spRoom s tile node && ! s.coll.spWait.any (fun w => w.1 == tile) then spInput s tile node x
  else { s with coll := { s.coll with spWait := s.coll.spWait ++ [(tile, x.src, x.msg)] } }

/-- UP at a standpipe node (R288, R289). -/
def execUp (src : Ep) (m : SpMsg) (s : State) : Host.Outcome State Fault Refusal :=
  .next (spArrive s m fun s =>
    let t := (SpDst m).tile
    match nodeOf s t m with
    | none => spStale s t
    | some i => if fld s (Reg.rtrSpNode t i) RtrSpNode.TENANT ≠ SpTenant m then spForeign s m else spTakeIn s t i ⟨src, m⟩)

/-- Does a waiting or spilled message find a slot? One whose node has gone needs none. -/
def spFits (s : State) (tile : Nat) (m : SpMsg) : Bool :=
  match nodeOf s tile m with | some i => spRoom s tile i | none => true

/-- SP_SPILL (R289): the UP that waits first at a stage, for want of a free slot, moves into the spill area of its router's reduction unit, while that
has room. -/
def execSpSpill (tile : Nat) (src : Ep) (m : SpMsg) (s : State) : Host.Outcome State Fault Refusal :=
  .next (if s.coll.spWait.find? (fun w => w.1 == tile) != some (tile, src, m) || spFits s tile m ||
        decide (64 ≤ (s.coll.spSpilled.filter fun w => w.1 == tile).length) then s
    else
      let s := { s with coll := { s.coll with
        spWait := dropFirst (fun w => w.1 == tile) s.coll.spWait, spSpilled := s.coll.spSpilled ++ [(tile, src, m)] } }
      bump s (Reg.rtrSpStat tile) RtrSpStat.SPILLS 1)

/-- A spilled or waiting UP taken into its node; one whose node has gone is stale. -/
def spTakeBack (s : State) (tile : Nat) (src : Ep) (m : SpMsg) : State :=
  match nodeOf s tile m with
  | none => spStale s tile
  | some i => spInput s tile i ⟨src, m⟩

/-- SP_SPILL_READBACK (R289): the oldest spilled UP is taken back when it finds a slot; else the one that waits first at the stage, when it does. -/
def execSpSpillReadback (tile : Nat) (s : State) : Host.Outcome State Fault Refusal :=
  .next (match (s.coll.spSpilled.find? fun w => w.1 == tile).filter fun w => spFits s tile w.2.2 with
    | some w => spTakeBack { s with coll := { s.coll with spSpilled := s.coll.spSpilled.erase w } } tile w.2.1 w.2.2
    | none => match (s.coll.spWait.find? fun w => w.1 == tile).filter fun w => spFits s tile w.2.2 with
      | some w => spTakeBack { s with coll := { s.coll with spWait := s.coll.spWait.erase w } } tile w.2.1 w.2.2
      | none => s)

/-- Is a message's group another tenant's here (R141, R284)? -/
def spOther (s : State) (m : SpMsg) : Bool :=
  match grpOf s m with
  | some i => grpTenant s i != SpTenant m
  | none => false

/-- The member of a message's group at a tile, with its running standpipe operation. -/
def spMember (s : State) (t : Nat) (m : SpMsg) : Option CollOp :=
  (grpOf s m).bind fun i => if grpTenant s i = SpTenant m then opOf s t i else none

end Sys2Proof.Machine
end

