-- ==== Sys2Proof/Machine/Sluice.lean ====
section
/-!
DEFINITION. The sluice (chapter 8): dispatch with its claims and rounds, admission at homes, rows, returns, and the weighted combine.
-/
namespace Sys2Proof.Machine

/-! ### The command's body (R301) -/

def SluA0 (d : Nat) : Nat := bits d 511 456
def SluA1 (d : Nat) : Nat := bits d 455 400
def SluA2 (d : Nat) : Nat := bits d 399 344
def SluA3 (d : Nat) : Nat := bits d 343 288
def SluTokens (d : Nat) : Nat := bits d 287 274 + 1
def SluH (d : Nat) : Nat := bits d 273 260 + 1
def SluGidx (d : Nat) : Nat := bits d 259 248
def SluEfmt (d : Nat) : Nat := bits d 247 244
def SluWire (d : Nat) : Nat := bits d 243 242
def SluK (d : Nat) : Nat := bits d 241 239 + 1
def SluSpill (d : Nat) : Nat := bits d 238 236
def SluExperts (d : Nat) : Nat := bits d 235 224 + 1
def SluKind (d : Nat) : Nat := bits d 223 222
def SluStride (d : Nat) : Nat := 128 * bits d 209 200
def SluSlot (d : Nat) : Nat := bits d 199 194
def SluW (d : Nat) : Nat := max 1 (elemWidth (SluEfmt d))

/-! ### Inboxes (R297, R298, R300) -/

/-- The registers of an inbox slot. -/
def inbA (t k : Nat) : Nat := Reg.tniSluInba t k
def inbB (t k : Nat) : Nat := Reg.tniSluInbb t k
def inbS (t k : Nat) : Nat := Reg.tniSluIstat t k

/-- Row width in elements and bytes, row stride, and capacity of a slot. -/
def inbH (s : State) (t k : Nat) : Nat := fld s (inbB t k) TniSluInbb.HM1 + 1
def inbW (s : State) (t k : Nat) : Nat := max 1 (elemWidth (fld s (inbA t k) TniSluInba.EFMT))
def inbStride (s : State) (t k : Nat) : Nat := 128 * ceilDiv (inbH s t k * inbW s t k) 128
def inbCap (s : State) (t k : Nat) : Nat := fld s (inbA t k) TniSluInba.CAP

/-- The fabric address of a byte of a slot (R297): of the home's package, or of the home tile's window. -/
def inbAddr (s : State) (t k off : Nat) : Nat :=
  let o := fld s (inbB t k) TniSluInbb.OFFSET + off
  if flag s (inbB t k) TniSluInbb.RGN then tileAddr t o else fabAddr 0 o

/-- A slot's rows and tags (R298): the rows, then 8 bytes a row. -/
def inbLen (s : State) (t k : Nat) : Nat := inbCap s t k * (inbStride s t k + 8)

/-- Do a slot's rows and tags stay in its region (R297): the home tile's window, or the twin pair's two? -/
def inbInside (s : State) (t k : Nat) : Bool :=
  ! flag s (inbB t k) TniSluInbb.RGN ||
    decide (fld s (inbB t k) TniSluInbb.OFFSET + inbLen s t k ≤
      (if bit (fld s Reg.fabTwinMap FabTwinMap.TWIN) (t / 2) then 2 else 1) * 0x1000000)

/-- The state of a slot. -/
def inbState (s : State) (t k : Nat) : Nat := fld s (inbS t k) TniSluIstat.STATE
def inbFilled (s : State) (t k : Nat) : Nat := fld s (inbS t k) TniSluIstat.FILLED

/-- INBOX_ENABLE (R297, R298): a write that sets V is checked; one that keeps V at 1 is discarded. -/
def execInboxEnable (t k a b : Nat) (s : State) : Host.Outcome State Fault Refusal :=
  .next (
    if 64 ≤ t ∨ 64 ≤ k ∨ ! tableOn s (.tni t) ∨ flag s (inbA t k) TniSluInba.V ∨ ! bit a 0 then s
    else
      let s := softWrite (softWrite s (inbB t k) b) (inbA t k) (putBits a 0 0 0)
      let ef := fld s (inbA t k) TniSluInba.EFMT
      let ten := fld s (inbA t k) TniSluInba.TENANT
      if ef = 0 ∨ 6 < ef ∨ inbCap s t k = 0 ∨ fld s (inbB t k) TniSluInbb.OFFSET % 128 ≠ 0 ∨
        ! inbInside s t k ∨ badRange s ten (inbAddr s t k 0) (inbLen s t k) then s
      else setFld s (inbA t k) TniSluInba.V 1)

/-- The working state of a slot's operation dropped. -/
def inbDrop (s : State) (t k : Nat) : State :=
  { s with slu := { s.slu with
    claims := s.slu.claims.filter (fun c => ! (c.tile == t && c.slot == k)),
    assigns := s.slu.assigns.filter (fun x => ! (x.1.tile == t && x.1.slot == k)),
    rows := s.slu.rows.filter (fun r => ! (r.tile == t && r.slot == k)),
    rowGot := s.slu.rowGot.filter (fun g => g.1 / 65536 != 64 * t + k) } }

/-- FILLED, ARRIVED and STATUS cleared and STATE 0 (R310). -/
def inbClear (s : State) (t k : Nat) : State :=
  let v := rd s (inbS t k)
  wrReg s (inbS t k) (setF (setF (setF (setF v TniSluIstat.FILLED 0) TniSluIstat.ARRIVED 0) TniSluIstat.STATUS 0) TniSluIstat.STATE 0)

/-- INBOX_DISABLE (R300, R310): V clears, the slot's state goes at once, and a RETURN that still waits or sends ends `ST_ABORTED`. -/
def execInboxDisable (t k v : Nat) (s : State) : Host.Outcome State Fault Refusal :=
  .next (
    if 64 ≤ t ∨ 64 ≤ k ∨ ! tableOn s (.tni t) ∨ bit v 0 then s
    else
      let mine := s.slu.rets.filter fun r => r.tile == t && r.slot == k
      let s := mine.foldl (fun s r =>
        let waits := s.dyn.waiting.filter fun q => Purpose_cmd q.why == some r.cmd
        let s := waits.foldl (fun s q => dropReq s q.id) s
        updCmd s r.cmd fun c => failWith .aborted { c with left := if r.started then c.left - waits.length else 0 }) s
      let s := { s with slu := { s.slu with rets := s.slu.rets.filter fun r => ! (r.tile == t && r.slot == k) } }
      let s := setFld (inbClear (inbDrop s t k) t k) (inbS t k) TniSluIstat.POISONED 0
      softWrite s (inbA t k) v)

/-! ### Packets (R304) -/

/-- The fields of a sluice packet's ADDR. -/
def SaKind (a : Nat) : Nat := bits a 55 52
def SaGidx (a : Nat) : Nat := bits a 51 40
def SaRound (a : Nat) : Nat := bits a 39 37
def SaHm1 (a : Nat) : Nat := bits a 36 23
def SaWire (a : Nat) : Nat := bits a 22 21
def SaSeq (a : Nat) : Nat := bits a 20 5
def SaSlot (a : Nat) : Nat := bits a 51 46
def SaRow (a : Nat) : Nat := bits a 45 30
def SaPart (a : Nat) : Nat := bits a 29 21
def SaJ (a : Nat) : Nat := bits a 20 18
def SaToken (a : Nat) : Nat := bits a 13 0

/-- ADDR of CLAIM and ASSIGN, and of ROWS and RETURN. -/
def claimAddr (kind gidx round hm1 wire seq : Nat) : Nat :=
  kind * 2 ^ 52 + gidx * 2 ^ 40 + round * 2 ^ 37 + hm1 * 2 ^ 23 + wire * 2 ^ 21 + seq % 65536 * 2 ^ 5
def rowAddr (kind slot row part j token : Nat) : Nat :=
  kind * 2 ^ 52 + slot * 2 ^ 46 + row * 2 ^ 30 + part * 2 ^ 21 + j * 2 ^ 18 + token

/-- A packet between sluices, at P1. -/
def sluPkt (s : State) (t : Nat) (dst : Ep) (opc : Opc) (tenant addr efmt layer opid : Nat) (data : List Byte) (psn : Bool) : Pkt :=
  { opc := opc, src := ⟨myChip s, t, 5⟩, dst := dst, tenant := tenant, prio := 1, addr := addr, nbytes := data.length, efmt := efmt,
    layer := layer, opid := opid, poison := psn, data := data }

/-- One row in the packets of its wire form (R309): PART, EFMT and payload of each, and the events of encoding. -/
def rowPkts (efmt wire : Nat) (row : List Byte) : List (Nat × WirePkt) :=
  ((wireDense 256 efmt wire 0 row).zipIdx).map fun x => (if wire = 2 then 0 else 32 * x.2, x.1)

/-- A row packet decoded into EFMT (R309): the byte offset in the row, the bytes, and the events of decoding (R193); `none` when it is malformed. -/
def rowBytes (efmt wire h : Nat) (p : Pkt) : Option (Nat × List Byte × FmtEvents) :=
  let w := max 1 (elemWidth efmt)
  let r : Option (Nat × List Byte × FmtEvents) := if p.efmt ≠ wireEfmt efmt wire ∨ p.sfmt ≠ 0 then none
    else if wire = 2 then
      (segment .bs8 efmt h p.data).bind fun us => match us with
        | [] => none
        | u :: _ =>
          let es := us.flatMap SegUnit.elems
          some (32 * u.idx * w, bytesOf w (es.map Rounded.code), (es.map Rounded.events).foldl FmtEvents.add {})
    else if wire = 1 then some (256 * SaPart p.addr, bytesOf 4 ((elemsOf 2 p.data).map untrim16), {})
    else some (128 * SaPart p.addr, p.data, {})
  match r with
  | some (off, bs, ev) => if h * w ≤ off ∨ (wire ≠ 2 ∧ h * w < off + bs.length) then none else some (off, bs.take (h * w - off), ev)
  | none => none

/-- Does a packet carry a reserved format (R188, R205, R212)? -/
def fmtReserved (p : Pkt) : Bool := decide (11 ≤ p.efmt) || p.sfmt == 3

/-- A malformed sluice packet (R212): counted at the tile, recorded, and acknowledged. -/
def sluMalformed (s : State) (p : Pkt) : State :=
  ackTo (log (tniFmt s p.dst.tile { malf := 1 }) (errPkt (unitCode .sluice p.dst.tile) .format 2 p .ok)) p .ok

/-! ### Operations at an origin (R303) -/

/-- The operation of a group at a tile, and an operation replaced. -/
def sluOf (s : State) (t i : Nat) : Option SluOp := s.slu.ops.find? fun o => o.tile == t && o.gidx == i
def putSlu (s : State) (o : SluOp) : State :=
  { s with slu := { s.slu with ops := updFirst (fun x => x.tile == o.tile && x.o == o.o) (fun _ => o) s.slu.ops } }

/-- The operation's record. -/
def sluReg (o : SluOp) : Nat := Reg.tniSluOstat o.tile o.o

/-- An operation's first failure, also in its record. -/
def sluFail (s : State) (o : SluOp) (st : Status) : State × SluOp :=
  if o.status.good ∧ ! st.good then (setFld s (sluReg o) TniSluOstat.STATUS st.code, { o with status := st }) else (s, o)

/-- A route list read (R294): eight candidates of each token. Log 65, DEDUCED. -/
def readRoute (s : State) (fn d : Nat) : List (List Cand) :=
  (List.range (SluTokens d)).map fun t => (List.range 8).map fun c =>
    let e := ofLE (readFabric s fn (relAdd (SluA0 d) (64 * t + 8 * c)) 8)
    { exp := bits e 11 0, weight := bits e 63 32, abs := bit e 15 }

/-- Candidate c of a token. -/
def candOf (o : SluOp) (tok c : Nat) : Cand := (o.toks.getD tok []).getD c {}

/-- A candidate replaced. -/
def putCand (o : SluOp) (tok c : Nat) (x : Cand) : SluOp := { o with toks := o.toks.set tok ((o.toks.getD tok []).set c x) }

/-- An expert-map entry, read the first time it is named and kept (R296). -/
def mapEntry (s : State) (o : SluOp) (e : Nat) : Nat × SluOp :=
  match o.map.find? fun x => x.1 == e with
  | some x => (x.2, o)
  | none =>
    let v := ofLE (readFabric s (grpTenant s o.gidx) (relAdd (SluA2 o.desc) (8 * e)) 8)
    (v, { o with map := o.map ++ [(e, v)] })

/-- The home and slot of an expert. -/
def homeOf (s : State) (o : SluOp) (e : Nat) : Ep × Nat :=
  let v := (mapEntry s o e).1
  (⟨bits v 63 56, bits v 55 50, 5⟩, bits v 49 44)

/-- Experts that a token holds or has pending. -/
def heldExps (o : SluOp) (tok : Nat) : List Nat :=
  (o.choices.filter fun c => c.tok == tok && (c.state == .pending || c.state == .admitted)).map fun c => (candOf o tok c.cand).exp

/-- May candidate c of a token be claimed (R295, R296, R306)? A candidate passed over is SKIPPED. -/
def tryCand (s : State) (o : SluOp) (tok c : Nat) : SluOp × Bool :=
  let x := candOf o tok c
  let skip (o : SluOp) : SluOp := putCand o tok c { x with dec := 3 }
  if x.dec ≠ 0 then (o, false)
  else if x.abs then (skip o, false)
  else if SluExperts o.desc ≤ x.exp then (skip { o with badMap := true }, false)
  else
    let m := mapEntry s o x.exp
    if ! bit m.1 0 then (skip { m.2 with badMap := true }, false)
    else if (heldExps m.2 tok).contains x.exp then (skip m.2, false)
    else (m.2, true)

/-- A choice slot's state set. -/
def setChoice (o : SluOp) (tok j cand : Nat) (st : ChoiceState) : SluOp :=
  { o with choices := updFirst (fun c => c.tok == tok && c.j == j) (fun _ => ⟨tok, j, cand, st⟩) o.choices }

/-- Round 0 (R294): choice slot j claims candidate j, or counts as refused when that is skipped (log 26, DEDUCED). -/
def firstRound (s : State) (o : SluOp) : SluOp :=
  let cs := (List.range (SluTokens o.desc)).flatMap fun t => (List.range (SluK o.desc)).map fun j => (t, j)
  cs.foldl (fun o x =>
    let r := tryCand s o x.1 x.2
    { r.1 with choices := r.1.choices ++ [⟨x.1, x.2, x.2, if r.2 then .pending else .refused⟩] }) o

/-- The next candidate of a refused choice (R306): candidates from `c` on, passing over those that are tried or skipped. -/
def moveChoice (s : State) (tok j : Nat) : Nat → Nat → SluOp → SluOp
  | 0, c, o => setChoice o tok j (c - 1) .dropped
  | k + 1, c, o =>
    let r := tryCand s o tok c
    if r.2 then setChoice r.1 tok j c .pending else moveChoice s tok j k (c + 1) r.1

/-- A further round (R306). -/
def nextRound (s : State) (o : SluOp) : SluOp :=
  (o.choices.filter fun c => c.state == .refused).foldl (fun o c => moveChoice s c.tok c.j (7 - c.cand) (c.cand + 1) o) o

/-- The pending choices, with their home, slot and choice slot. -/
def pendings (s : State) (o : SluOp) : List (Choice × Ep × Nat) :=
  (o.choices.filter fun c => c.state == .pending).map fun c => (c, homeOf s o (candOf o c.tok c.cand).exp)

/-- The claim entries of a home (R304, R305): a count for every (SLOT, J), ascending. -/
def claimEntries (ps : List (Choice × Ep × Nat)) (h : Ep) : List (Nat × Nat × Nat) :=
  (List.range 512).filterMap fun x =>
    let n := (ps.filter fun p => p.2.1 == h && p.2.2 == x / 8 && p.1.j == x % 8).length
    if n = 0 then none else some (x / 8, x % 8, n)

/-- The claims of a round sent (R305). -/
def sendClaims (s : State) (o : SluOp) (round : Nat) : State :=
  let d := o.desc
  let ps := pendings s o
  let hs := (ps.map fun p => p.2.1).dedup
  let s := setFld s (sluReg o) TniSluOstat.ROUND round
  let s := putSlu s { o with phase := .claims, barrier := false, homes := hs, acks := hs.length }
  hs.foldl (fun s h =>
    let data := (claimEntries ps h).flatMap fun e => toLE 4 (e.1 * 2 ^ 26 + e.2.1 * 2 ^ 23 + e.2.2)
    enqueue s (sluPkt s o.tile h .sluDispatch (grpTenant s o.gidx) (claimAddr 0 o.gidx round (SluH d - 1) (SluWire d) o.seq) (SluEfmt d)
      (Desc_layer d) (Desc_opid d) data false) (.slu o.tile o.gidx)) s

/-- The descriptor of the barrier a sluice joins: COP BARRIER, ALG STANDPIPE, and CMD 9 as the mark of its owner. -/
def barrierDesc (d gidx : Nat) : Nat :=
  putBits (putBits (putBits (putBits (d % 2 ^ 128) 367 356 gidx) 355 352 5) 339 337 3) 63 56 9

/-- A member joins the barrier of its round (R305): on the standpipe when SPEN = 1, else through the group's chain. It takes no SEQ of its
own (log 27, DEDUCED). -/
def joinBarrier (s : State) (o : SluOp) : State :=
  let d := barrierDesc o.desc o.gidx
  let id := grpId s o.gidx
  let c : CollOp := { tile := o.tile, gidx := o.gidx, cmd := o.cmd, desc := d, seq := o.seq, sig := signature id.1 id.2 o.seq d }
  let s := putSlu s { o with phase := .barrier, barrier := false }
  let s := { s with coll := { s.coll with ops := s.coll.ops ++ [c] } }
  if onStandpipe s d then memberUp s c
  else addCtr s (Reg.ctr (.tni o.tile) (fld s (Reg.tniGrpMember o.tile o.gidx) TniGrpMember.SCTR)) 1

/-- DEC and J written into the route list (R295). -/
def writeRoute (s : State) (o : SluOp) : State :=
  let fn := grpTenant s o.gidx
  (o.toks.zipIdx).foldl (fun s t => (t.1.zipIdx).foldl (fun s c =>
    let a := relAdd (SluA0 o.desc) (64 * t.2 + 8 * c.2)
    let e := putBits (putBits (ofLE (readFabric s fn a 8)) 31 28 c.1.dec) 27 25 c.1.j
    storeFabric s fn a (toLE 8 e) (markedFabric s fn a 8)) s) s

/-- The admitted choices. -/
def admitted (o : SluOp) : List Choice := o.choices.filter fun c => c.state == .admitted

/-- Admission over (R306, R307): choices still refused are dropped, DEC and J are written, and the rows begin. A packet that carries marked bytes is
poisoned (R213). -/
def sendRows (s : State) (o : SluOp) : State :=
  let d := o.desc
  let t := o.tile
  let o := { o with choices := o.choices.map fun c => if c.state == .admitted then c else { c with state := .dropped }, phase := .rows }
  let as := admitted o
  let s := writeRoute s o
  let r := Reg.tniSluStat t
  let s := bump (bump s r TniSluStat.ROWS as.length) r TniSluStat.DROPPED (o.choices.length - as.length)
  let s := bump s r TniSluStat.SPILLED (as.filter fun c => c.cand != c.j).length
  let s := setFld s (sluReg o) TniSluOstat.EXPECT as.length
  let fn := grpTenant s o.gidx
  let pk := as.flatMap fun c =>
    let x := candOf o c.tok c.cand
    let h := homeOf s o x.exp
    let a := relAdd (SluA1 d) (SluStride d * c.tok)
    (rowPkts (SluEfmt d) (SluWire d) (readFabric s fn a (SluH d * SluW d))).map fun w =>
      (sluPkt s t h.1 .sluDispatch (grpTenant s o.gidx) (rowAddr 2 h.2 x.row w.1 c.j c.tok) w.2.efmt (Desc_layer d) (Desc_opid d) w.2.data
        (markedFabric s fn (relAdd a w.2.from_) (w.2.past - w.2.from_)), w.2.ev)
  let s := putSlu s { o with acks := pk.length }
  pk.foldl (fun s p => enqueue (tniFmt s t p.2) p.1 (.slu t o.gidx)) s

/-- DISPATCH completed (R307): a failure, a bad map entry, a dropped choice, or success, in that order. -/
def dispatchDone (s : State) (o : SluOp) : State :=
  let st := if ! o.status.good then o.status else if o.badMap then .badDescriptor
    else if o.choices.any fun c => c.state == .dropped then .capacityDropped else .ok
  let r := sluFail s { o with phase := .done, since := s.clk.now } (if o.badMap then .badDescriptor else .ok)
  let s := setFld (putSlu r.1 r.2) (sluReg o) TniSluOstat.STATE 2
  let n := (admitted o).length * (SluH o.desc * SluW o.desc)
  updCmd s o.cmd fun c => { c with left := 0, status := st, bytes := n }

/-- A DISPATCH taken as far as it goes: claims acknowledged, it joins the barrier; the barrier over and every ASSIGN in, the next round begins
or the rows are sent; the rows acknowledged, it completes. -/
def sluStep : Nat → State → Nat → Nat → State
  | 0, s, _, _ => s
  | k + 1, s, t, i =>
    match sluOf s t i with
    | none => s
    | some o =>
      let round := fld s (sluReg o) TniSluOstat.ROUND
      match o.phase with
      | .done => s
      | .claims => if o.acks = 0 then sluStep k (joinBarrier s o) t i else s
      | .barrier =>
        if ! o.barrier || ! o.homes.isEmpty then s
        else if round < SluSpill o.desc then sluStep k (sendClaims s (nextRound s o) (round + 1)) t i
        else sluStep k (sendRows s o) t i
      | .rows => if o.acks = 0 then dispatchDone s o else s

/-- Every DISPATCH whose barrier is over taken on. -/
def sluWake (s : State) : State := (s.slu.ops.map fun o => (o.tile, o.gidx)).foldl (fun s x => sluStep 24 s x.1 x.2) s

/-- The answer to a sluice packet of an origin (R305, R308): the claim a home refused is FAULT for every candidate it covered. -/
def sluAck (s : State) (t i : Nat) (x : Txn) (st : Status) : State :=
  match sluOf s t i with
  | none => s
  | some o =>
    let r := sluFail s { o with acks := o.acks - 1 } st
    let s := r.1
    let o := r.2
    let o :=
      if st.good ∨ SaKind x.addr ≠ 0 then o
      else
        let mine := (pendings s o).filter fun p => p.2.1 == x.dst
        let o := mine.foldl (fun o p =>
          let c := p.1
          setChoice (putCand o c.tok c.cand { candOf o c.tok c.cand with dec := 4 }) c.tok c.j c.cand .refused) o
        { o with homes := o.homes.erase x.dst }
    sluStep 24 (putSlu s o) t i

/-! ### Starting (R302, R303) -/

/-- Row 1 of R302. -/
def sluMalBody (s : State) (c : Cmd) : Bool :=
  let d := c.desc
  let i := SluGidx d
  let t := c.ex.tile
  let k := SluKind d
  let op := sluOf s t i
  let h := if k = 0 then SluH d else if k = 1 then inbH s t (SluSlot d) else match op with | some o => SluH o.desc | none => 1
  Ep_kind c.ex != .tile || bits d 47 3 != 0 || Desc_inlen d != 0 || ! c.inl.isEmpty || bits d 193 128 != 0 || k == 3 ||
    (k != 0 && (SluA1 d != 0 || SluA2 d != 0 || SluA3 d != 0)) || ! (grpState s i == 1 || grpState s i == 2) || ! isMember s t i ||
    (k == 0 && decide (8 < SluK d + SluSpill d)) || decide (SluStride d < h * SluW d) ||
    (k == 2 && (match op with | some o => fld s (sluReg o) TniSluOstat.STATE != 2 || o.combine.isSome | none => true)) ||
    (k == 1 && (! flag s (inbA t (SluSlot d)) TniSluInba.V || fld s (inbA t (SluSlot d)) TniSluInba.GIDX != i))

/-- The stride of a staged row (R311). -/
def stageStride (h : Nat) : Nat := 128 * ceilDiv (4 * h) 128

/-- The areas a sluice command names (R302): address and length. -/
def sluAreas (s : State) (c : Cmd) : List (Nat × Nat) :=
  let d := c.desc
  let t := c.ex.tile
  match SluKind d with
  | 0 => [(SluA0 d, 64 * SluTokens d), (SluA1 d, SluStride d * (SluTokens d - 1) + SluH d * SluW d), (SluA2 d, 8 * SluExperts d),
          (SluA3 d, stageStride (SluH d) * 8 * SluTokens d)]
  | 1 => [(SluA0 d, SluStride d * (inbCap s t (SluSlot d) - 1) + inbH s t (SluSlot d) * SluW d)]
  | _ => match sluOf s t (SluGidx d) with
    | some o => [(SluA0 d, SluStride d * (SluTokens o.desc - 1) + SluH o.desc * SluW d)]
    | none => []

/-- The checks of R302, with the poison bit before STATE (R607; log 64, DEDUCED). Before them, a tile without a sluice, because it is disabled or the
odd one of a twin pair, answers `ST_REGION_FAULT` (R40, R44, R292). -/
def sluCheck (s : State) (c : Cmd) : Option Status :=
  let d := c.desc
  let i := SluGidx d
  let fmtOk := if SluKind d = 0 then fmtDispatch (SluEfmt d) 0 (SluWire d) else fmtCombine (SluEfmt d) 0 (SluWire d)
  if Ep_kind c.ex = .tile ∧ ! tableOn s (.tni c.ex.tile) then some .regionFault
  else if sluMalBody s c then some .badDescriptor
  else if grpTenant s i ≠ c.tenant then some .tenantViolation
  else if grpPsn s c.ex.tile i ∧ SluKind d ≠ 1 then some .poisoned
  else if grpState s i = 2 then some .aborted
  else if ! fmtOk then some .formatUnsupported
  else if (sluAreas s c).any fun a => badRange s c.tenant a.1 a.2 then some .regionFault
  else none

/-- A sluice command of the right SKIND started; any other offer stays where it is. -/
def sluStart (s : State) (src : CmdSrc) (ok : Nat → Bool) (waits : Cmd → Bool) (k : State → Cmd → State) : State :=
  match offered s src with
  | none => if (match src with | .core _ d _ => Desc_cmd d == 9 && ok (SluKind d) | _ => false) then holdCore s src else s
  | some c =>
    if Desc_cmd c.desc ≠ 9 ∨ ! ok (SluKind c.desc) then s
    else if Ep_kind c.ex = .tile ∧ waits c then holdCore s src
    else startCmd s src (· == 9) fun s c => match sluCheck s c with
      | some st => endAt s c st
      | none => k s c

/-- A free operation record of a tile (R303). -/
def freeRecord (s : State) (t : Nat) : Option Nat :=
  (List.range 16).find? fun o => fld s (Reg.tniSluOstat t o) TniSluOstat.STATE == 0

/-- Does a DISPATCH wait (R268, R303)? -/
def dispatchWaits (s : State) (c : Cmd) : Bool :=
  let t := c.ex.tile
  (freeRecord s t).isNone || (sluOf s t (SluGidx c.desc)).isSome || memberBusy s t (SluGidx c.desc)

/-- DISPATCH started (R303, R305): a record taken, the route list read, and the claims of round 0 sent. -/
def runDispatch (s : State) (c : Cmd) : State :=
  let t := c.ex.tile
  let i := SluGidx c.desc
  match freeRecord s t with
  | none => s
  | some k =>
    let o : SluOp := { tile := t, o := k, gidx := i, cmd := c.id, desc := c.desc, seq := fld s (Reg.tniGrpMember t i) TniGrpMember.SEQ,
                       toks := readRoute s c.tenant c.desc, since := s.clk.now }
    let s := addCmd s { c with left := 1 }
    let s := wrReg s (Reg.tniSluOstat t k) (setF (setF 0 TniSluOstat.GIDX i) TniSluOstat.STATE 1)
    let s := { s with slu := { s.slu with ops := s.slu.ops ++ [o] } }
    sluStep 24 (sendClaims s (firstRound s o) 0) t i

/-- SLUICE_DISPATCH (R305); a command with the reserved SKIND is refused here. -/
def execSluiceDispatch (src : CmdSrc) (s : State) : Host.Outcome State Fault Refusal :=
  .next (sluStart s src (fun k => k == 0 || k == 3) (fun c => SluKind c.desc == 0 && dispatchWaits s c) runDispatch)

/-! ### At a home (R305, R308, R309) -/

/-- The rank of a claiming origin (R305). -/
def originRank (s : State) (i : Nat) (e : Ep) : Nat :=
  if e.chip = myChip s then memberRank s e.tile i else Config.memberRank (grpId s i).1 (grpId s i).2 e.chip e.tile

/-- The 4-byte entries of a CLAIM and the 8-byte entries of an ASSIGN. -/
def claimList (data : List Byte) : List (Nat × Nat × Nat) :=
  (elemsOf 4 data).map fun e => (bits e 31 26, bits e 25 23, bits e 14 0)
def assignList (data : List Byte) : List (Nat × Nat × Nat × Nat) :=
  (elemsOf 8 data).map fun e => (bits e 63 58, bits e 57 55, bits e 31 16, bits e 15 0)

/-- Why a home refuses a claim for a slot (R308, R607), if it does. -/
def claimRefused (s : State) (p : Pkt) (k : Nat) : Option Status :=
  let t := p.dst.tile
  if ! flag s (inbA t k) TniSluInba.V ∨ fld s (inbA t k) TniSluInba.GIDX ≠ SaGidx p.addr then some .regionFault
  else if fld s (inbA t k) TniSluInba.TENANT ≠ p.tenant then some .tenantViolation
  else if fld s (inbB t k) TniSluInbb.HM1 ≠ SaHm1 p.addr ∨ fld s (inbA t k) TniSluInba.WIRE ≠ SaWire p.addr ∨
    fld s (inbA t k) TniSluInba.EFMT ≠ p.efmt then some .collMismatch
  else if flag s (inbS t k) TniSluIstat.POISONED then some .poisoned
  else none

/-- CLAIM at a home (R308): held for the round's admission and acknowledged, or refused. -/
def claimAt (s : State) (p : Pkt) : State :=
  let t := p.dst.tile
  let es := claimList p.data
  if fmtReserved p then sluMalformed s p
  else match es.findSome? fun e => claimRefused s p e.1 with
  | some .tenantViolation => errTo (violation s (errPkt (unitCode .sluice t) .tenant 2 p .tenantViolation)) p .tenantViolation
  | some st => errTo s p st
  | none =>
    let rank := originRank s (SaGidx p.addr) p.src
    let cs := es.map fun e => (⟨t, e.1, e.2.1, SaRound p.addr, rank, e.2.2, SaSeq p.addr, p.src, p.tenant, p.layer, p.opid⟩ : Claim)
    let s := { s with slu := { s.slu with claims := s.slu.claims ++ cs } }
    let s := (es.map fun e => e.1).dedup.foldl (fun s k =>
      if inbState s t k = 0 then
        setFld { s with slu := { s.slu with seqs := eSet 0 (64 * t + k) (SaSeq p.addr) s.slu.seqs } } (inbS t k) TniSluIstat.STATE 1
      else s) s
    ackTo s p .ok

/-- A claim admitted (R305): the rows it gets, and the ASSIGN entry it is answered with. -/
def admitClaim (s : State) (c : Claim) : State :=
  let r := inbS c.tile c.slot
  let filled := inbFilled s c.tile c.slot
  let a := min c.count (inbCap s c.tile c.slot - filled)
  let s := bump (setFld s r TniSluIstat.FILLED (filled + a)) r TniSluIstat.DROPS (c.count - a)
  let rows := if a = 0 then s.slu.rows else s.slu.rows ++ [⟨c.tile, c.slot, filled, a, c.origin⟩]
  { s with slu := { s.slu with rows := rows, assigns := s.slu.assigns ++ [(c, c.slot * 2 ^ 58 + c.j * 2 ^ 55 + a * 2 ^ 16 + filled)] } }

/-- The claims of a slot in admission order (R305): j, then rank. -/
def claimOrder : List Claim → List Claim → List Claim
  | acc, [] => acc
  | acc, c :: r => claimOrder (ins c acc) r
where
  ins (c : Claim) : List Claim → List Claim
    | [] => [c]
    | d :: r => if c.j * 16384 + c.rank < d.j * 16384 + d.rank then c :: d :: r else d :: ins c r

/-- A slot full (R309): STATE 3 and CTR gains 1, as a failure when a poisoned row came. -/
def slotFull (s : State) (t k : Nat) : State :=
  addCtr (setFld s (inbS t k) TniSluIstat.STATE 3) (Reg.ctr (.tni t) (fld s (inbA t k) TniSluInba.CTR)) 1
    (if flag s (inbS t k) TniSluIstat.POISONED then some Status.poisoned.code else none)

/-- Is the barrier of a round of the operation of SEQ complete at a home, as its own part in the group says (R305)? A home that is no member is told by
the command. -/
def roundOver (s : State) (t i seq round : Nat) : Bool :=
  let past (v : Nat) : Bool := decide (1 ≤ (v + 65536 - seq) % 65536) && decide ((v + 65536 - seq) % 65536 < 32768)
  if ! isMember s t i then true
  else match sluOf s t i with
    | none => past (fld s (Reg.tniGrpMember t i) TniGrpMember.SEQ % 65536)
    | some o =>
      let now := fld s (sluReg o) TniSluOstat.ROUND
      if o.seq % 65536 = seq then decide (round < now) || o.phase == .rows || o.phase == .done || (now == round && o.barrier)
      else past (o.seq % 65536)

/-- The SEQ of a slot's operation. -/
def slotSeq (s : State) (t k : Nat) : Nat := eGet 0 (64 * t + k) s.slu.seqs

/-- Is `round` the last of the slot's operation, as the DISPATCH that the home runs as a member says? Log 61, DEDUCED. -/
def lastRound (s : State) (t k round : Nat) : Bool :=
  match sluOf s t (fld s (inbA t k) TniSluInba.GIDX) with
  | some o => o.seq % 65536 == slotSeq s t k && decide (SluSpill o.desc ≤ round)
  | none => false

/-- The last round over at a slot (R309): full when every admitted row is there, filling before. -/
def slotFilling (s : State) (t k : Nat) : State :=
  if fld s (inbS t k) TniSluIstat.ARRIVED = inbFilled s t k then slotFull s t k else setFld s (inbS t k) TniSluIstat.STATE 2

/-- The admission of one slot (R305): its claims of the round in order; those of a new operation wait for the slot's RETURN (R308). -/
def admitSlot (s : State) (t k round : Nat) : State :=
  let seq := slotSeq s t k
  if ! flag s (inbA t k) TniSluInba.V ∨ inbState s t k = 0 ∨ inbState s t k = 3 ∨ ! roundOver s t (fld s (inbA t k) TniSluInba.GIDX) seq round then s
  else
    let mine (c : Claim) : Bool := c.tile == t && c.slot == k && c.round == round && c.seq == seq
    let cs := claimOrder [] (s.slu.claims.filter mine)
    let s := cs.foldl admitClaim { s with slu := { s.slu with claims := s.slu.claims.filter fun c => ! mine c } }
    if lastRound s t k round then slotFilling s t k else s

/-- What one ASSIGN answers: an origin's claims of a group, operation and round at a home. -/
def assignKey (s : State) (c : Claim) : Nat × Ep × Nat × Nat × Nat :=
  (c.tile, c.origin, fld s (inbA c.tile c.slot) TniSluInba.GIDX, c.round, c.seq)

/-- The ASSIGNs of a home sent (R305, R308): one to each origin, once none of its claims of the round is still held. -/
def sendAssigns (s : State) (t : Nat) : State :=
  let open_ (c : Claim) : Bool := c.tile == t && ! s.slu.claims.any fun d => assignKey s d == assignKey s c
  let ready := s.slu.assigns.filter fun x => open_ x.1
  let s' := { s with slu := { s.slu with assigns := s.slu.assigns.filter fun x => ! open_ x.1 } }
  (ready.map fun x => assignKey s x.1).dedup.foldl (fun s' k =>
    match ready.filter fun x => assignKey s x.1 == k with
    | [] => s'
    | x :: r =>
      enqueue s' (sluPkt s' t x.1.origin .sluDispatch x.1.tenant (claimAddr 1 k.2.2.1 x.1.round 0 0 x.1.seq) 0 x.1.layer x.1.opid
        ((x :: r).flatMap fun y => toLE 8 y.2) false) .none) s'

/-- The bytes of a row that have arrived. -/
def rowKey (t k row : Nat) : Nat := (64 * t + k) * 65536 + row

/-- A poisoned row at a slot (R314, R607): one record when the slot was not yet marked. -/
def poisonSlot (s : State) (p : Pkt) (k : Nat) : State :=
  let r := inbS p.dst.tile k
  if flag s r TniSluIstat.POISONED then s
  else
    let s := setFld (setFld s r TniSluIstat.POISONED 1) r TniSluIstat.STATUS Status.poisoned.code
    log s (errPkt (unitCode .sluice p.dst.tile) .poisonin 2 p .poisoned)

/-- A row packet's bytes entered: its tag with the first packet (R299), ARRIVED with the last byte (R309). -/
def takeRow (s : State) (p : Pkt) (k off : Nat) (bs : List Byte) : State :=
  let t := p.dst.tile
  let row := SaRow p.addr
  let key := rowKey t k row
  let had := eGet 0 key s.slu.rowGot
  let s := storeSeen s (inbAddr s t k (row * inbStride s t k + off)) bs p.poison
  let tag := p.src.chip * 2 ^ 56 + p.src.tile * 2 ^ 50 + SaJ p.addr * 2 ^ 47 + SaToken p.addr
  let s := if had = 0 then storeSeen s (inbAddr s t k (inbCap s t k * inbStride s t k + 8 * row)) (toLE 8 tag) false else s
  let s := { s with slu := { s.slu with rowGot := eSet 0 key (had + bs.length) s.slu.rowGot } }
  let full := inbH s t k * inbW s t k
  if had < full ∧ full ≤ had + bs.length then bump s (inbS t k) TniSluIstat.ARRIVED 1 else s

/-- Has a slot's admission ended at a home that runs no DISPATCH of its group: rows come and no claim of the operation is held (log 61, DEDUCED)? -/
def admissionOver (s : State) (t k : Nat) : Bool :=
  ! isMember s t (fld s (inbA t k) TniSluInba.GIDX) && ! s.slu.claims.any fun c => c.tile == t && c.slot == k && c.seq == slotSeq s t k

/-- ROWS at a home (R309). -/
def rowsAt (s : State) (p : Pkt) : State :=
  let t := p.dst.tile
  let k := SaSlot p.addr
  let row := SaRow p.addr
  if ! flag s (inbA t k) TniSluInba.V then errTo s p .aborted
  else if fld s (inbA t k) TniSluInba.TENANT ≠ p.tenant then
    errTo (violation s (errPkt (unitCode .sluice t) .tenant 2 p .tenantViolation)) p .tenantViolation
  else
    let mine := s.slu.rows.any fun r => r.tile == t && r.slot == k && decide (r.first ≤ row) && decide (row < r.first + r.n) && r.origin == p.src
    match rowBytes (fld s (inbA t k) TniSluInba.EFMT) (fld s (inbA t k) TniSluInba.WIRE) (inbH s t k) p with
    | none => sluMalformed (poisonSlot s p k) p
    | some (off, bs, ev) =>
      if ! mine then sluMalformed (poisonSlot s p k) p
      else
        let s := tniFmt s t ev
        let s := if p.poison then poisonSlot s p k else s
        let s := takeRow s p k off bs
        let s := if inbState s t k = 1 ∧ admissionOver s t k then setFld s (inbS t k) TniSluIstat.STATE 2 else s
        let s := if inbState s t k = 2 ∧ fld s (inbS t k) TniSluIstat.ARRIVED = inbFilled s t k then slotFull s t k else s
        ackTo s p .ok

/-! ### ASSIGN at an origin (R306) -/

/-- One entry of an ASSIGN: the first `a` tokens that claimed (slot, j) at this home take rows from `first` on; the others are REFUSED. -/
def assignEntry (s : State) (o : SluOp) (h : Ep) (e : Nat × Nat × Nat × Nat) : SluOp :=
  let mine := (pendings s o).filter fun p => p.2.1 == h && p.2.2 == e.1 && p.1.j == e.2.1
  (mine.zipIdx).foldl (fun o x =>
    let c := x.1.1
    let y := candOf o c.tok c.cand
    if x.2 < e.2.2.1 then setChoice (putCand o c.tok c.cand { y with dec := 1, j := c.j, row := e.2.2.2 + x.2 }) c.tok c.j c.cand .admitted
    else setChoice (putCand o c.tok c.cand { y with dec := 2 }) c.tok c.j c.cand .refused) o

/-- ASSIGN at an origin. -/
def assignAt (s : State) (p : Pkt) : State :=
  let t := p.dst.tile
  let i := SaGidx p.addr
  if fmtReserved p then sluMalformed s p
  else match sluOf s t i with
  | none => errTo s p .aborted
  | some o =>
    if grpTenant s i ≠ p.tenant then errTo (violation s (errPkt (unitCode .sluice t) .tenant 2 p .tenantViolation)) p .tenantViolation
    else if ! o.homes.contains p.src ∨ SaRound p.addr ≠ fld s (sluReg o) TniSluOstat.ROUND then ackTo s p .ok
    else
      let o := (assignList p.data).foldl (fun o e => assignEntry s o p.src e) o
      sluStep 24 (ackTo (putSlu s { o with homes := o.homes.erase p.src }) p .ok) t i

/-- SLU_DISPATCH at a sluice, by KIND (R304). -/
def sluDispatchAt (s : State) (p : Pkt) : State :=
  match SaKind p.addr with
  | 0 => claimAt s p
  | 1 => assignAt s p
  | 2 => rowsAt s p
  | _ => sluMalformed s p

/-- CLAIM (R308). -/
def execClaim (p : Pkt) (s : State) : Host.Outcome State Fault Refusal := .next (arrive s p fun s => sluDispatchAt s p)

/-- ASSIGN (R306). -/
def execAssign (p : Pkt) (s : State) : Host.Outcome State Fault Refusal := .next (arrive s p fun s => sluDispatchAt s p)

/-! ### Returns (R310, R311) -/

/-- The rows of a full slot sent back (R310): each to the origin in its tag, with the tag's J and TOKEN. -/
def sendReturns (s : State) (r : SluRet) (d : Nat) (tenant : Nat) : State :=
  let t := r.tile
  let k := r.slot
  let psn := flag s (inbS t k) TniSluIstat.POISONED
  let pk := (List.range (inbFilled s t k)).flatMap fun row =>
    let tag := ofLE (readMem s (inbAddr s t k (inbCap s t k * inbStride s t k + 8 * row)) 8)
    let a := relAdd (SluA0 d) (SluStride d * row)
    let bs := readFabric s tenant a (inbH s t k * SluW d)
    (rowPkts (SluEfmt d) (SluWire d) bs).map fun w =>
      (sluPkt s t ⟨bits tag 63 56, bits tag 55 50, 5⟩ .sluCombine tenant (rowAddr 3 0 (SluGidx d) w.1 (bits tag 49 47) (bits tag 13 0)) w.2.efmt
        (Desc_layer d) (Desc_opid d) w.2.data (psn || markedFabric s tenant (relAdd a w.2.from_) (w.2.past - w.2.from_)), w.2.ev)
  let f (x : SluRet) : SluRet := { x with started := true, psn := psn }
  let s := { s with slu := { s.slu with rets := updFirst (fun x => x.cmd == r.cmd) f s.slu.rets } }
  let s := updCmd s r.cmd fun c => { c with left := pk.length }
  pk.foldl (fun s p => enqueue (tniFmt s t p.2) p.1 (.cmdAck r.cmd)) s

/-- Every RETURN whose slot is full begins to send (R310). -/
def retWake (s : State) : State :=
  (s.slu.rets.filter fun r => ! r.started && inbState s r.tile r.slot == 3).foldl (fun s r =>
    match cmdOf s r.cmd with
    | some c => sendReturns s r c.desc c.tenant
    | none => s) s

/-- HOME_ADMISSION (R305): the round's barrier is complete; the slots admit their claims, every origin gets its ASSIGN, and a slot that is full without a
row starts its RETURN (R309, R310). -/
def execHomeAdmission (t : Nat) (slots : List Nat) (round : Nat) (s : State) : Host.Outcome State Fault Refusal :=
  .next (retWake (sendAssigns (slots.foldl (fun s k => admitSlot s t k round) s) t))

/-- What a RETURN of a poisoned slot completes with (R607, R610): the slot alone is the consuming context. -/
def retStatus (s : State) (c : Cmd) : Cmd :=
  if c.status.good && s.slu.rets.any (fun r => r.cmd == c.id && r.psn) then { c with status := .poisoned } else c

/-- A RETURN command ended (R310): its slot is empty and idle again. -/
def retDone (s : State) (c : Cmd) : State :=
  match s.slu.rets.find? fun r => r.cmd == c.id with
  | none => s
  | some r =>
    let s := { s with slu := { s.slu with rets := s.slu.rets.filter fun x => x.cmd != c.id } }
    let cs := s.slu.claims.filter fun x => x.tile == r.tile && x.slot == r.slot
    let s := inbClear (inbDrop s r.tile r.slot) r.tile r.slot
    match cs with
    | [] => s
    | x :: _ =>
      let k := 64 * r.tile + r.slot
      setFld { s with slu := { s.slu with claims := s.slu.claims ++ cs, seqs := eSet 0 k x.seq s.slu.seqs } } (inbS r.tile r.slot)
        TniSluIstat.STATE 1

/-- SLUICE_RETURN (R310). -/
def execSluiceReturn (src : CmdSrc) (s : State) : Host.Outcome State Fault Refusal :=
  .next (sluStart s src (· == 1) (fun _ => false) fun s c =>
    let r : SluRet := { tile := c.ex.tile, slot := SluSlot c.desc, cmd := c.id }
    let s := addCmd s { c with left := 1 }
    retWake { s with slu := { s.slu with rets := s.slu.rets ++ [r] } })

/-- ROWS (R309): a slot that becomes full starts its RETURN. -/
def execRows (p : Pkt) (s : State) : Host.Outcome State Fault Refusal := .next (retWake (arrive s p fun s => sluDispatchAt s p))

/-! ### COMBINE (R312, R313) -/

/-- The exact product of two values; a NaN operand gives NaN under R234, and zero times infinity NaN of sign 0 (log 28, DEDUCED). -/
def mulVal (a b : Val) : Val :=
  if a.isNan || b.isNan then .nan (nanSign a b)
  else match a, b with
    | .inf s, .inf t => .inf (s != t)
    | .inf s, .fin t m _ => if m = 0 then .nan false else .inf (s != t)
    | .fin s m _, .inf t => if m = 0 then .nan false else .inf (s != t)
    | .fin s m e, .fin t n f => .fin (s != t) (m * n) (e + f)
    | _, _ => .nan false

/-- widen(x) × widen(WEIGHT), rounded once to the widened format (R312). -/
def weighted (efmt x weight : Nat) : Rounded :=
  let wf := wideFmt efmt
  (floatFmt wf).encode (mulVal ((floatFmt efmt).decode x) ((floatFmt 1).decode weight))

/-- The tree of R312 over leaves 0-7, level by level: both children combined, one child alone, or absent. -/
def treeLevel (wf : Nat) : List (Option (List Nat)) → List (Option (List Nat)) × FmtEvents
  | a :: b :: r =>
    let t := treeLevel wf r
    match a, b with
    | some x, some y =>
      let v := combineList 0 wf x y
      (some v.1 :: t.1, v.2.add t.2)
    | some x, none => (some x :: t.1, t.2)
    | none, y => (y :: t.1, t.2)
  | l => (l, {})

/-- One token's row of OUT (R312), its events, and whether every slot was absent. -/
def combineRow (s : State) (o : SluOp) (efmt tok : Nat) : List Byte × FmtEvents × Bool :=
  let h := SluH o.desc
  let w := max 1 (elemWidth efmt)
  let leaf (j : Nat) : Option (List Nat) × FmtEvents :=
    match (admitted o).find? fun c => c.tok == tok && c.j == j with
    | some c =>
        let a := relAdd (SluA3 o.desc) (stageStride h * (8 * tok + j))
        let fn := grpTenant s o.gidx
        let es := elemsOf w (readFabric s fn a (w * h))
        let rs := es.map fun e => weighted efmt e (candOf o tok c.cand).weight
        (some (rs.map Rounded.code), (rs.map Rounded.events).foldl FmtEvents.add {})
    | none => (none, {})
  let ls := (List.range 8).map leaf
  let l3 := treeLevel (wideFmt efmt) (ls.map Prod.fst)
  let l2 := treeLevel (wideFmt efmt) l3.1
  let l1 := treeLevel (wideFmt efmt) l2.1
  let ev := (((ls.map Prod.snd).foldl FmtEvents.add l3.2).add l2.2).add l1.2
  match l1.1.getD 0 none with
  | some es =>
    let ns := es.map (narrow efmt)
    (bytesOf w (ns.map Comb.code), (ns.map Comb.ev).foldl FmtEvents.add ev, false)
  | none => (List.replicate (w * h) 0, ev, true)

/-- A COMBINE ended (R313): the record is free and the origin's SEQ for the group advances. -/
def combineEnd (s : State) (o : SluOp) (id : Nat) (st : Status) (detail bytes : Nat) : State :=
  let s := { s with slu := { s.slu with ops := s.slu.ops.filter fun x => ! (x.tile == o.tile && x.o == o.o) } }
  let s := wrReg s (sluReg o) 0
  let s := bump s (Reg.tniGrpMember o.tile o.gidx) TniGrpMember.SEQ 1
  updCmd s id fun c => { c with left := 0, status := st, detail := detail, bytes := bytes }

/-- COMBINE carried out once it is present, the DISPATCH has completed and every expected row is staged (R311-R313). -/
def combineWake (s : State) (t i : Nat) : State :=
  match sluOf s t i with
  | none => s
  | some o => match o.combine with
    | none => s
    | some (id, d) =>
      if o.phase != .done ∨ fld s (sluReg o) TniSluOstat.GOT < fld s (sluReg o) TniSluOstat.EXPECT then s
      else
        let s := setFld s (sluReg o) TniSluOstat.STATE 3
        let psn := o.psn
        let rows := (List.range (SluTokens o.desc)).map (combineRow s o (SluEfmt d))
        let s := (rows.zipIdx).foldl (fun s r =>
          storeFabric (tniFmt s t { r.1.2.1 with isat := 0 }) (grpTenant s i) (relAdd (SluA0 d) (SluStride d * r.2)) r.1.1 psn) s
        let s := bump s (Reg.tniSluStat t) TniSluStat.ZROWS (rows.filter fun r => r.2.2).length
        let s := if psn then poisonGrp s t i (Desc_layer d) (Desc_opid d) else s
        combineEnd s o id (if psn then .poisoned else .ok) 0 ((rows.map fun r => r.1.length).foldl (· + ·) 0)

/-- Bytes of a whole row in the wire form of an EFMT. -/
def rowWire (o : SluOp) (efmt : Nat) : Nat := SluH o.desc * max 1 (elemWidth efmt)

/-- A return malformed by its EFMT that was staged before COMBINE named the pair (R312): each of its packets is counted and recorded, the operation has
consumed poison, and the row is not staged. -/
def unstageRow (s : State) (o : SluOp) (d : Nat) (x : Staged) : State × SluOp :=
  let e := { errOf (unitCode .sluice o.tile) .format 2 with tenant := grpTenant s o.gidx, layer := Desc_layer d, opid := Desc_opid d }
  let s := x.parts.foldl (fun s _ => log (tniFmt s o.tile { malf := 1 }) e) s
  let s := if rowWire o x.efmt ≤ x.n then setFld s (sluReg o) TniSluOstat.GOT (fld s (sluReg o) TniSluOstat.GOT - 1) else s
  (s, { o with staged := o.staged.erase x, psn := true })

/-- A row staged in TRIM16 before COMBINE named the pair, decoded into FP32 (R195, R311). -/
def widenRow (s : State) (o : SluOp) (x : Staged) : State :=
  let fn := grpTenant s o.gidx
  let a := relAdd (SluA3 o.desc) (stageStride (SluH o.desc) * x.key)
  let ws := x.parts.map fun p => (256 * p.1, bytesOf 4 ((elemsOf 2 (readFabric s fn (relAdd a (128 * p.1)) p.2.1)).map untrim16), p.2.2)
  ws.foldl (fun s w => storeFabric s fn (relAdd a w.1) w.2.1 w.2.2) s

/-- COMBINE names EFMT and WIRE: the rows staged before it are judged and decoded by them (log 29, DEDUCED). -/
def judgeStaged (s : State) (o : SluOp) (d : Nat) : State × SluOp :=
  let bad := o.staged.filter fun x => x.efmt != wireEfmt (SluEfmt d) (SluWire d)
  let r := bad.foldl (fun (a : State × SluOp) x => unstageRow a.1 a.2 d x) (s, o)
  (if SluWire d = 1 then r.2.staged.foldl (fun s x => widenRow s o x) r.1 else r.1, r.2)

/-- SLUICE_COMBINE (R312). -/
def execSluiceCombine (src : CmdSrc) (s : State) : Host.Outcome State Fault Refusal :=
  .next (sluStart s src (· == 2) (fun _ => false) fun s c =>
    let t := c.ex.tile
    let i := SluGidx c.desc
    match sluOf s t i with
    | none => s
    | some o =>
      let r := judgeStaged (addCmd s { c with left := 1 }) o c.desc
      combineWake (putSlu r.1 { r.2 with combine := some (c.id, c.desc) }) t i)

/-- Is a return in the form that COMBINE requires, or in one that a COMBINE may (R214, R312), and within its row? -/
def returnSound (o : SluOp) (p : Pkt) : Bool :=
  (match o.combine with
    | some (_, d) => p.efmt == wireEfmt (SluEfmt d) (SluWire d)
    | none => decide (1 ≤ p.efmt) && decide (p.efmt ≤ 3)) &&
  p.sfmt == 0 && decide (128 * SaPart p.addr + p.data.length ≤ rowWire o p.efmt)

/-- The bytes of a returned row staged, in EFMT once COMBINE has named it (R311): GOT gains 1 with the last of them, and STATE is 2 once every admitted
choice has its row. -/
def stageRow (s : State) (o : SluOp) (p : Pkt) : State :=
  let key := 8 * SaToken p.addr + SaJ p.addr
  let trim := match o.combine with | some (_, d) => SluWire d == 1 | none => false
  let a := relAdd (SluA3 o.desc) (stageStride (SluH o.desc) * key + (if trim then 256 else 128) * SaPart p.addr)
  let s := storeFabric s p.tenant a (if trim then bytesOf 4 ((elemsOf 2 p.data).map untrim16) else p.data) p.poison
  let x := (o.staged.find? fun x => x.key == key && x.efmt == p.efmt).getD ⟨key, 0, p.efmt, []⟩
  let y : Staged := { x with n := x.n + p.data.length, parts := x.parts ++ [(SaPart p.addr, p.data.length, p.poison)] }
  let s := putSlu s { o with staged := o.staged.erase x ++ [y], psn := o.psn || p.poison }
  if x.n < rowWire o p.efmt ∧ rowWire o p.efmt ≤ y.n then
    let s := bump s (sluReg o) TniSluOstat.GOT 1
    if fld s (sluReg o) TniSluOstat.GOT = fld s (sluReg o) TniSluOstat.EXPECT then setFld s (sluReg o) TniSluOstat.STATE 2 else s
  else s

/-- RETURN at an origin (R311). -/
def returnAt (s : State) (p : Pkt) : State :=
  let t := p.dst.tile
  let i := SaRow p.addr % 4096
  if SaKind p.addr ≠ 3 then sluMalformed s p
  else match sluOf s t i with
    | none => errTo s p .aborted
    | some o =>
      if grpTenant s i ≠ p.tenant then errTo (violation s (errPkt (unitCode .sluice t) .tenant 2 p .tenantViolation)) p .tenantViolation
      else if ! (admitted o).any fun c => c.tok == SaToken p.addr && c.j == SaJ p.addr then errTo s p .aborted
      else if ! returnSound o p then
        sluMalformed (putSlu s { o with psn := true }) p
      else combineWake (ackTo (stageRow s o p) p .ok) t i

/-- RETURN (R311). -/
def execReturn (p : Pkt) (s : State) : Host.Outcome State Fault Refusal := .next (arrive s p fun s => returnAt s p)

/-- The home of the first admitted choice whose row is not staged whole. -/
def missingHome (s : State) (o : SluOp) : Option Ep :=
  ((admitted o).find? fun c => match o.staged.find? fun x => x.key == 8 * c.tok + c.j with
    | some x => decide (x.n < SluH o.desc * max 1 (elemWidth x.efmt))
    | none => true).map fun c => (homeOf s o (candOf o c.tok c.cand).exp).1

/-- SLUICE_TIMEOUT (R307, R313): STEPTO after the DISPATCH began, a home whose ASSIGN is missing is named and the DISPATCH ends
`ST_COLL_TIMEOUT`; STEPTO after it completed, a COMBINE that still lacks returns ends so and writes nothing. Log 62, DEDUCED. -/
def execSluiceTimeout (t i : Nat) (s : State) : Host.Outcome State Fault Refusal :=
  .next (match sluOf s t i with
    | none => s
    | some o =>
      let g := o.since + usCycles (stepTo s i)
      if o.phase != .done then
        let s := advanceTo s g
        let rank := match o.homes with | h :: _ => originRank s i h | [] => 0
        let f := sluFail s { o with phase := .done, since := s.clk.now, homes := [] } .collTimeout
        let s := setFld (putSlu f.1 f.2) (sluReg o) TniSluOstat.STATE 2
        let s := { s with coll := { s.coll with ops := s.coll.ops.filter fun x => ! (x.tile == t && x.gidx == i && Desc_cmd x.desc == 9) } }
        updCmd s o.cmd fun c => { c with left := 0, status := .collTimeout, detail := rank }
      else match o.combine with
        | none => s
        | some (id, _) =>
          if fld s (sluReg o) TniSluOstat.EXPECT ≤ fld s (sluReg o) TniSluOstat.GOT then s
          else
            let s := advanceTo s g
            let s := if o.psn then poisonGrp s t i (Desc_layer o.desc) (Desc_opid o.desc) else s
            combineEnd s o id .collTimeout (match missingHome s o with | some h => originRank s i h | none => 0) 0)

end Sys2Proof.Machine
end

