-- ==== Sys2Proof/Machine/Channel.lean ====
section
/-!
DEFINITION. Message channels (chapter 9): sends, arrival, rings and spillways, handler dispatch, core operations, and combining channels.
-/
namespace Sys2Proof.Machine

/-! ### Registers and working state -/

/-- The registers of a channel. -/
def chCfg (t c : Nat) : Nat := Reg.tniChCfg t c
def chStat (t c : Nat) : Nat := Reg.tniChStat t c

/-- STATE (R326): 0 FREE, 1 OPEN, 2 CLOSED, 3 DEAD. -/
def chState (s : State) (t c : Nat) : Nat := fld s (chStat t c) TniChStat.STATE
def setChState (s : State) (t c v : Nat) : State := setFld s (chStat t c) TniChStat.STATE v

/-- Ring slots, messages in the ring, spillway slots in use and in all. -/
def chDepth (s : State) (t c : Nat) : Nat := fld s (chCfg t c) TniChCfg.DEPTHM1 + 1
def chRcnt (s : State) (t c : Nat) : Nat := fld s (chStat t c) TniChStat.RCNT
def chSpcnt (s : State) (t c : Nat) : Nat := fld s (chStat t c) TniChStat.SPCNT
def chSpcap (s : State) (t c : Nat) : Nat := fld s (Reg.tniChSpill t c) TniChSpill.SPCAP

/-- A channel's working state. -/
def chan (s : State) (t c : Nat) : ChanRun := eGet {} (4096 * t + c) s.chan.runs
def setChan (s : State) (t c : Nat) (r : ChanRun) : State :=
  { s with chan := { s.chan with runs := eSet {} (4096 * t + c) r s.chan.runs } }

/-- The fabric address of a byte of the ring (R318, R321), and of a spillway slot (R318, R322). -/
def ringAddr (s : State) (t c off : Nat) : Nat :=
  let r := Reg.tniChRing t c
  tileAddr (t + fld s r TniChRing.ODD) (fld s r TniChRing.RBASE + off)
def spillAddr (s : State) (t c k : Nat) : Nat := fabAddr 0 (fld s (Reg.tniChSpill t c) TniChSpill.SPBASE * 4096 + 64 * k)

/-- An event of the TNI's channel counter (R350). -/
def chCount (s : State) (t : Nat) (f : Fld) (n : Nat) : State := bump s (Reg.tniChCount t) f n

/-! ### Messages (R319) -/

/-- Word 7 as the TNI writes it. -/
def msgWord (src : Ep) (tenant : Nat) (spl psn part : Bool) (ncon aseq : Nat) : Nat :=
  src.chip * 2 ^ 56 + src.tile % 8 * 2 ^ 53 + src.tile / 8 * 2 ^ 50 + src.dep * 2 ^ 46 + tenant * 2 ^ 38 + b2n spl * 2 ^ 37 + b2n psn * 2 ^ 36 +
    b2n part * 2 ^ 35 + ncon % 65536 * 2 ^ 16 + aseq

/-- A message of 56 bytes and word 7. -/
def mkMsg (body : List Byte) (w7 : Nat) : List Byte := slice body 0 56 ++ toLE 8 w7

/-- A bit of word 7 set in a message: SPL (37) or PSN (36). -/
def msgMark (m : List Byte) (i : Nat) : List Byte := mkMsg m (putBits (ofLE (slice m 56 8)) i i 1)
def msgPsn (m : List Byte) : Bool := bit (ofLE (slice m 56 8)) 36
def msgAseq (m : List Byte) : Nat := bits (ofLE (slice m 56 8)) 15 0

/-! ### SEND (R328, R329) -/

def SendDst (d : Nat) : Ep := ⟨bits d 511 504, bits d 503 498, 0⟩
def SendChan (d : Nat) : Nat := bits d 497 486

/-- The checks of R329, with the HP's own check first (R376) and the kind's executors (R369). -/
def sendCheck (s : State) (c : Cmd) : Option Status :=
  let d := c.desc
  let e := SendDst d
  if (atHp c ∧ bit d 474) ∨ ! (atHp c || Ep_kind c.ex == .tile) then some .badDescriptor
  else if bits d 47 3 ≠ 0 ∨ bits d 473 128 ≠ 0 ∨ Desc_inlen d ≠ 56 ∨ c.inl.length ≠ 56 then some .badDescriptor
  else match targetCheck s e with
    | some st => some st
    | none =>
      if e.chip = myChip s ∧ oddTwin s e.tile then some .regionFault
      else if targetForeign s c.tenant e then some .tenantViolation
      else none

/-- SEND (R328): one MSG at P2; the answer's status completes the command. -/
def execSend (src : CmdSrc) (s : State) : Host.Outcome State Fault Refusal :=
  .next (startCmd s src (· == 10) fun s c => match sendCheck s c with
    | some st => endAt s c st
    | none =>
      let d := c.desc
      enqueue (addCmd s { c with left := 1 })
        { opc := .msg, src := c.ex, dst := SendDst d, tenant := c.tenant, prio := 2, addr := SendChan d, nbytes := 64, layer := Desc_layer d,
          opid := Desc_opid d, poison := c.poison, data := slice c.inl 0 56 ++ List.replicate 8 0 } (.cmdAck c.id))

/-! ### Into the ring or the spillway (R330-R334) -/

/-- A message poisoned on acceptance (R348), also one that a closed channel still takes back or delivers: the channel becomes DEAD, with one record of its
context (R607). -/
def chPoison (s : State) (t c layer opid : Nat) : State :=
  if chState s t c = 1 ∨ chState s t c = 2 then
    log (setChState s t c 3) { errOf (unitCode .tni t) .poisonin 2 with
      tenant := owner s t, status := .poisoned, layer := layer, opid := opid }
  else s

/-- Is there room in the ring for a message that has just arrived (R330)? -/
def ringRoom (s : State) (t c : Nat) : Bool :=
  let r := chan s t c
  decide (chRcnt s t c + r.writes.length < chDepth s t c) && chSpcnt s t c == 0 && r.spill.isEmpty

/-- A message spilled (R334): the next spillway slot, and a write to it at P2. -/
def spillMsg (s : State) (t c : Nat) (msg : List Byte) (ack : Option Pkt) (layer opid : Nat) : State :=
  let r := chan s t c
  let k := r.nextSpill
  let x : SpillSlot := ⟨k, .pending, msg, ack, s.clk.now, layer, opid⟩
  let s := setChan s t c { r with spill := r.spill ++ [x], nextSpill := (k + 1) % max 1 (chSpcap s t c) }
  let s := chCount (setFld s (chStat t c) TniChStat.SPCNT (chSpcnt s t c + 1)) t TniChCount.SPILLED 1
  let a := spillAddr s t c k
  enqueue s { opc := .wr, src := ⟨myChip s, t, 0⟩, dst := homeEp s (myChip s) a, tenant := owner s t, prio := 2, addr := a, nbytes := 64,
              layer := layer, opid := opid, poison := msgPsn msg, data := msg } (.spillWr t c k)

/-- The last three rows of R330: the ring, the spillway, or neither. The state answered holds the message under the next ASEQ; `none` is
`ST_SPILL_FULL`. -/
def acceptMsg (s : State) (t c : Nat) (mk : Nat → List Byte) (ack : Option Pkt) (layer opid : Nat) : Option State :=
  let q := fld s (chStat t c) TniChStat.ASEQ
  let m := mk q
  let ring := ringRoom s t c
  if ! ring ∧ chSpcap s t c ≤ chSpcnt s t c then none
  else
    let s := chCount (bump s (chStat t c) TniChStat.ASEQ 1) t TniChCount.MSGS 1
    let s := if msgPsn m then chPoison s t c layer opid else s
    if ring then some (setChan s t c { chan s t c with writes := (chan s t c).writes ++ [⟨m, ack, false⟩] })
    else some (spillMsg s t c m ack layer opid)

/-- `ST_SPILL_FULL` to a sender, if one waits (R330, R350). -/
def spillFull (s : State) (t : Nat) (ack : Option Pkt) : State :=
  match ack with | some p => ackTo (chCount s t TniChCount.SPFULL 1) p .spillFull | none => s

/-! ### Combining (R340-R343) -/

/-- The combining operation and format of a channel. -/
def chOp (s : State) (t c : Nat) : Nat := fld s (chCfg t c) TniChCfg.COP
def chFmt (s : State) (t c : Nat) : Nat := fld s (chCfg t c) TniChCfg.CEFMT

/-- A contribution combined into the accumulator (R341). -/
def accumulate (s : State) (t c : Nat) (p : Pkt) : Accum × FmtEvents :=
  let a := (chan s t c).acc
  let f := chFmt s t c
  let es := elemsOf (max 1 (elemWidth f)) (slice p.data 0 48)
  let v := if a.count = 0 then (es, {}) else combineList (chOp s t c) f a.vals es
  ({ vals := v.1, tail := if a.count = 0 then slice p.data 48 8 else a.tail, count := a.count + 1, psn := a.psn || p.poison, src := p.src,
     tenant := p.tenant }, v.2)

/-- The delivery of an accumulator under an ASEQ (R342, R344). -/
def delivery (s : State) (t c : Nat) (a : Accum) (part : Bool) (aseq : Nat) : List Byte :=
  mkMsg (slice (bytesOf (max 1 (elemWidth (chFmt s t c))) a.vals) 0 48 ++ a.tail) (msgWord a.src a.tenant false a.psn part a.count aseq)

/-- A contribution at a combining channel (R341-R343). -/
def combineAt (s : State) (t c : Nat) (p : Pkt) : State :=
  let v := accumulate s t c p
  let a := v.1
  let s := tniFmt s t { v.2 with sat := v.2.sat + v.2.isat, isat := 0 }
  if a.count < fld s (chCfg t c) TniChCfg.CCNTM1 + 1 then ackTo (setChan s t c { chan s t c with acc := a }) p .ok
  else
    let s := setChan s t c { chan s t c with acc := {} }
    match acceptMsg s t c (delivery s t c a false) (some p) p.layer p.opid with
    | some s => s
    | none => spillFull (log s (errPkt (unitCode .tni t) .timeout 2 p .spillFull)) t (some p)

/-! ### Arrival (R330) -/

/-- A message judged. A malformed one is discarded and, as a poisoned message, leaves its channel DEAD (R212, R348). -/
def judgeMsg (s : State) (p : Pkt) : State :=
  let t := p.dst.tile
  let c := p.addr % 4096
  if p.tenant = 0 ∨ p.tenant ≠ owner s t then
    errTo (violation s (errPkt (unitCode .tni t) .tenant 2 p .tenantViolation)) p .tenantViolation
  else match chState s t c with
    | 0 => ackTo (chCount s t TniChCount.REFUSED 1) p .regionFault
    | 2 => ackTo (chCount s t TniChCount.REFUSED 1) p .channelClosed
    | 3 => ackTo (chCount s t TniChCount.REFUSED 1) p .poisoned
    | _ =>
      if ! fmtSound p then malPlain (chPoison s t c p.layer p.opid) p
      else if fld s (chCfg t c) TniChCfg.KIND = 1 then combineAt s t c p
      else match acceptMsg s t c (fun q => mkMsg p.data (msgWord p.src p.tenant false p.poison false 0 q)) (some p) p.layer p.opid with
        | some s => s
        | none => spillFull s t (some p)

/-- MSG (R330). -/
def execMsg (p : Pkt) (s : State) : Host.Outcome State Fault Refusal := .next (arrive s p fun s => judgeMsg s p)

/-! ### Ring writes (R332, R318) -/

/-- The record of a channel whose handler is missing, once (R337, R686). -/
def noteHandler (s : State) (t c : Nat) : State :=
  let h := fld s (chCfg t c) TniChCfg.HIDX
  if ! flag s (chCfg t c) TniChCfg.HEN ∨ flag s (Reg.tniChHtab t h) TniChHtab.V ∨ (chan s t c).noHandler then s
  else log (setChan s t c { chan s t c with noHandler := true }) { errOf (unitCode .tni t) .format 2 with tenant := owner s t }

/-- A message written at TAIL, and the pointer line after it (R318). -/
def writeRing (s : State) (t c : Nat) (m : List Byte) : State :=
  let n := chDepth s t c
  let slot := (fld s (chStat t c) TniChStat.HEAD + chRcnt s t c) % n
  let s := storeSeen s (ringAddr s t c (64 * slot)) m (msgPsn m)
  storeSeen s (ringAddr s t c (64 * n)) (toLE 2 ((slot + 1) % n) ++ toLE 2 (msgAseq m) ++ List.replicate 60 0) false

/-- RING_WRITE (R332): the first message that waits is written, counted in RCNT and acknowledged; one from the spillway leaves SPCNT. -/
def execRingWrite (t c : Nat) (s : State) : Host.Outcome State Fault Refusal :=
  let r := chan s t c
  .next (match r.writes with
    | [] => s
    | w :: rest =>
      let s := writeRing s t c w.msg
      let s := setChan s t c { r with writes := rest, stamps := r.stamps ++ [s.clk.now] }
      let s := setFld s (chStat t c) TniChStat.RCNT (chRcnt s t c + 1)
      let s := if w.refill then setFld s (chStat t c) TniChStat.SPCNT (chSpcnt s t c - 1) else s
      let s := match w.ack with | some p => ackTo s p .ok | none => s
      noteHandler s t c)

/-! ### The spillway (R334-R336) -/

/-- Slots at the old end of the spillway passed on: void ones are free again, those read back wait for their ring write. -/
def passSpill (s : State) (t c : Nat) : Nat → State
  | 0 => s
  | k + 1 =>
    let r := chan s t c
    match r.spill with
    | [] => s
    | x :: rest => match x.st with
      | .void => passSpill (setFld (setChan s t c { r with spill := rest }) (chStat t c) TniChStat.SPCNT (chSpcnt s t c - 1)) t c k
      | .back => passSpill (setChan s t c { r with spill := rest, writes := r.writes ++ [⟨x.msg, x.ack, true⟩] }) t c k
      | _ => s

/-- Every slot that can be passed. -/
def passAll (s : State) (t c : Nat) : State := passSpill s t c (chan s t c).spill.length

/-- A spillway slot changed. -/
def updSpill (s : State) (t c k : Nat) (f : SpillSlot → SpillSlot) : State :=
  let r := chan s t c
  setChan s t c { r with spill := updFirst (fun x => x.k == k) f r.spill }

/-- The slot k of a channel in a state. -/
def spillAt (s : State) (t c k : Nat) (st : SpillSt) : Option SpillSlot := (chan s t c).spill.find? fun x => x.k == k && x.st == st

/-- The requests of a slot forgotten: what still waits is dropped, and what is in flight answers nothing any more (R336, R346). -/
def forgetSpill (s : State) (mine : Purpose → Bool) : State :=
  let s := (s.dyn.waiting.filter fun r => mine r.why).foldl (fun s r => dropReq s r.id) s
  { s with dyn := { s.dyn with txns := s.dyn.txns.map fun x => if mine x.why then { x with why := .none } else x } }

/-- The purposes of one slot, or of a whole channel. -/
def slotPurpose (t c k : Nat) : Purpose → Bool
  | .spillWr t' c' k' => t' == t && c' == c && k' == k
  | .refill t' c' k' => t' == t && c' == c && k' == k
  | _ => false
def chanPurpose (t c : Nat) : Purpose → Bool
  | .spillWr t' c' _ => t' == t && c' == c
  | .refill t' c' _ => t' == t && c' == c
  | _ => false

/-- A spill write failed (R336): the slot is void, the sender is answered `ST_SPILL_FULL`, and a record names the cause. -/
def spillFailed (s : State) (t c k : Nat) (cause : Status) : State :=
  match spillAt s t c k .pending with
  | none => s
  | some x =>
    let s := updSpill s t c k fun x => { x with st := .void, ack := none }
    let s := spillFull s t x.ack
    let e := { errOf (unitCode .tni t) .timeout 2 with tenant := owner s t, status := cause }
    passAll (log s { e with addr := spillAddr s t c k, layer := x.layer, opid := x.opid }) t c

/-- The answer to a spill write (R334). -/
def spillWritten (s : State) (t c k : Nat) (st : Status) : State :=
  if st.good then
    match spillAt s t c k .pending with
    | none => s
    | some x =>
      let s := updSpill s t c k fun x => { x with st := .held, ack := none }
      match x.ack with | some p => ackTo s p .ok | none => s
  else spillFailed s t c k st

/-- SPILL_WRITE_TIMEOUT (R336): 100 µs after its message entered the cistern. -/
def execSpillWriteTimeout (t c k : Nat) (s : State) : Host.Outcome State Fault Refusal :=
  .next (match spillAt s t c k .pending with
    | none => s
    | some x => spillFailed (forgetSpill (advanceTo s (x.entered + usCycles 100)) (slotPurpose t c k)) t c k .spillFull)

/-- Refill reads in flight, or read back and not yet in the ring (R335). -/
def refilling (s : State) (t c : Nat) : Nat :=
  let r := chan s t c
  (r.spill.filter fun x => x.st == .reading || x.st == .back).length + r.writes.length

/-- REFILL_READ (R335): the oldest message not yet being read, once its write has completed and the ring has room for it. -/
def execRefillRead (t c : Nat) (s : State) : Host.Outcome State Fault Refusal :=
  .next (if chDepth s t c ≤ chRcnt s t c + refilling s t c then s
    else match (chan s t c).spill.find? fun x => x.st == .pending || x.st == .held with
      | none => s
      | some x =>
        if x.st == .pending then s
        else
          let a := spillAddr s t c x.k
          let s := updSpill s t c x.k fun x => { x with st := .reading }
          enqueue s { opc := .rdReq, src := ⟨myChip s, t, 0⟩, dst := homeEp s (myChip s) a, tenant := owner s t, prio := 2, addr := a,
                      nbytes := 64, layer := x.layer, opid := x.opid } (.refill t c x.k))

/-- A refill read answered (R335, R348): the message goes into the ring in spillway order with SPL = 1. -/
def refillData (s : State) (t c k : Nat) (bs : List Byte) (psn : Bool) : State :=
  match spillAt s t c k .reading with
  | none => s
  | some x =>
    let m := msgMark (slice bs 0 64) 37
    let m := if psn then msgMark m 36 else m
    let s := if psn then chPoison s t c x.layer x.opid else s
    passAll (updSpill s t c k fun x => { x with st := .back, msg := m }) t c

/-- A refill read that fails or goes unanswered (R335): the slot is void and its message lost. -/
def refillFailed (s : State) (t c k : Nat) (st : Status) : State :=
  match spillAt s t c k .reading with
  | none => s
  | some x =>
    let s := chCount (updSpill s t c k fun x => { x with st := .void }) t TniChCount.DISCARDED 1
    let e := { errOf (unitCode .tni t) .timeout 2 with tenant := owner s t, status := st }
    passAll (log s { e with addr := spillAddr s t c k, layer := x.layer, opid := x.opid }) t c

/-! ### Dispatch (R337-R339) -/

/-- Is a channel ready (R337)? -/
def chReady (s : State) (t c : Nat) : Bool :=
  flag s (chCfg t c) TniChCfg.HEN && decide (0 < chRcnt s t c) && ! flag s (chStat t c) TniChStat.DISP &&
    flag s (Reg.tniChHtab t (fld s (chCfg t c) TniChCfg.HIDX)) TniChHtab.V

/-- Is channel a presented before channel b (R338)? -/
def chBefore (s : State) (t a b : Nat) : Bool :=
  let p (c : Nat) := fld s (chCfg t c) TniChCfg.DPRI
  let w (c : Nat) := (chan s t c).stamps.headD 0
  decide (p b < p a) || (p a == p b && (decide (w a < w b) || (w a == w b && decide (a < b))))

/-- HANDLER_DISPATCH (R338). -/
def execHandlerDispatch (t : Nat) (s : State) : Host.Outcome State Fault Refusal :=
  let cs := ((s.chan.runs.filter fun x => x.1 / 4096 == t).map fun x => x.1 % 4096).filter (chReady s t)
  let best := cs.foldl (fun (o : Option Nat) c => match o with
    | none => some c
    | some b => if chBefore s t c b then some c else some b) none
  .next (match best with
    | none => s
    | some c =>
      let h := fld s (Reg.tniChHtab t (fld s (chCfg t c) TniChCfg.HIDX)) TniChHtab.ENTRY
      let d : Dispatch := ⟨t, c, h, ringAddr s t c (64 * fld s (chStat t c) TniChStat.HEAD)⟩
      { setFld s (chStat t c) TniChStat.DISP 1 with chan := { s.chan with shown := s.chan.shown ++ [d] } })

/-- A dispatch that the core has finished. -/
def dropDispatch (s : State) (t c : Nat) : State :=
  let s := setFld s (chStat t c) TniChStat.DISP 0
  { s with chan := { s.chan with shown := dropFirst (fun d => d.tile == t && d.chan == c) s.chan.shown } }

/-- RETIRE (R339, R346); in the cycle of a reset it is ignored (R349; events of one cycle come in the order in which they resolve, log 177, DEDUCED). -/
def execRetire (t c n : Nat) (s : State) : Host.Outcome State Fault Refusal :=
  let r := chan s t c
  .next (if r.resetAt = some s.clk.now then s
    else if r.stale then dropDispatch (setChan s t c { r with stale := false }) t c
    else if n = 0 ∨ chRcnt s t c < n then log s { errOf (unitCode .tni t) .format 2 with tenant := owner s t }
    else
      let s := setFld s (chStat t c) TniChStat.HEAD ((fld s (chStat t c) TniChStat.HEAD + n) % chDepth s t c)
      let s := setFld s (chStat t c) TniChStat.RCNT (chRcnt s t c - n)
      dropDispatch (setChan s t c { r with stamps := r.stamps.drop n }) t c)

/-! ### Open, close, reset (R325, R327, R344, R346) -/

/-- A close (R344): a partial round of a combining channel is delivered at once. Log 63, DEDUCED. -/
def chClose (s : State) (t c : Nat) : State :=
  if chState s t c ≠ 1 then s
  else
    let a := (chan s t c).acc
    let s := setChState s t c 2
    if a.count = 0 then s
    else
      let s := setChan s t c { chan s t c with acc := {} }
      match acceptMsg s t c (delivery s t c a true) none 0xFFFF 0xFFFF with
      | some s => s
      | none => chCount s t TniChCount.DISCARDED 1

/-- CLOSE from the core. -/
def execChannelCoreClose (t c : Nat) (s : State) : Host.Outcome State Fault Refusal := .next (chClose s t c)

/-- REOPEN (R339). -/
def execReopen (t c : Nat) (s : State) : Host.Outcome State Fault Refusal :=
  .next (if chState s t c = 2 then setChState s t c 1 else s)

/-- A reset (R346): waiting senders are answered `ST_CHANNEL_CLOSED`, ring and spillway are emptied; `zero` clears the pointer line too. -/
def chReset (s : State) (t c : Nat) (zero : Bool) : State :=
  if chState s t c = 0 then s
  else
    let r := chan s t c
    let waiting := (r.writes.filterMap ChanWrite.ack) ++ r.spill.filterMap SpillSlot.ack
    let lost := chRcnt s t c + (r.writes.filter fun w => w.ack.isNone).length +
      (r.spill.filter fun x => x.ack.isNone && x.st != .void).length + (if r.acc.count = 0 then 0 else 1)
    let s := forgetSpill s (chanPurpose t c)
    let s := waiting.foldl (fun s p => ackTo s p .channelClosed) s
    let s := chCount s t TniChCount.DISCARDED lost
    let v := rd s (chStat t c)
    let v := setF (setF (setF (setF v TniChStat.HEAD 0) TniChStat.RCNT 0) TniChStat.SPCNT 0) TniChStat.ASEQ 0
    let s := wrReg s (chStat t c) (setF v TniChStat.STATE 2)
    let s := setChan s t c { stale := r.stale || flag s (chStat t c) TniChStat.DISP, resetAt := some s.clk.now }
    if zero then storeSeen s (ringAddr s t c (64 * chDepth s t c)) (List.replicate 64 0) false else s

/-- RESET from the core. -/
def execChannelCoreReset (t c : Nat) (s : State) : Host.Outcome State Fault Refusal := .next (chReset s t c false)

/-- Combining accumulators of a TNI in use (R340): one per combining channel that is not FREE. -/
def accUsed (s : State) (t : Nat) : Nat :=
  ((List.range 4096).filter fun c => chState s t c != 0 && fld s (chCfg t c) TniChCfg.KIND == 1).length

/-- Why an open is refused: the number of the first case of R325 that applies, counted from 1, or 0. -/
def openFault (s : State) (t c : Nat) : Nat :=
  let k := fld s (chCfg t c) TniChCfg.KIND
  let r := Reg.tniChRing t c
  let n := chSpcap s t c
  if 2 ≤ k then 1
  else if 0x800000 < fld s r TniChRing.RBASE + 64 * (chDepth s t c + 1) then 2
  else if flag s r TniChRing.ODD && ! (twinned s t && t % 2 == 0) then 3
  else if n != 0 && badRange s (owner s t) (spillAddr s t c 0) (64 * n) then 4
  else if k == 1 && (! opFmtOk (chOp s t c) (chFmt s t c) 0 0 || chOp s t c == 6) then 5
  else if k == 1 && decide (64 ≤ accUsed s t) then 6
  else 0

/-- A FREE channel with its three registers written. -/
def chTry (s : State) (t c cfg ring spill : Nat) : State :=
  softWrite (softWrite (softWrite s (chCfg t c) cfg) (Reg.tniChRing t c) ring) (Reg.tniChSpill t c) spill

/-- A FREE channel opened with its three registers (R325); the answer says whether the open was accepted. -/
def chOpen (s : State) (t c cfg ring spill : Nat) : State × Bool :=
  if chState s t c ≠ 0 then (s, false)
  else
    let s' := chTry s t c cfg ring spill
    if openFault s' t c ≠ 0 then (s, false) else (setChState (setChan s' t c { stale := (chan s t c).stale }) t c 1, true)

end Sys2Proof.Machine
end

