-- ==== Sys2Proof/Machine/Pairs.lean ====
section
/-!
DEFINITION. Queue pairs and Ethernet ports (chapters 12 and 13): parameters, registers, paths, header bytes, class queues and credits, and
how an operation ends. The rows of the transport are in Remote.lean, those of the ports in Ethernet.lean.
-/
namespace Sys2Proof.Machine

/-! ### Records -/

/-- A queue pair's working state, and its two registers (R429, R477). -/
def qp (s : State) (e q : Nat) : QpRun := eGet {} (16384 * e + q) s.rte.qps
def qpStat (e q : Nat) : Nat := Reg.rteQpStat e q
def qpCc (e q : Nat) : Nat := Reg.rteQpCc e q

/-- STATE of a pair (R426): 0 FREE, 1 READY, 2 ERROR, 3 DEAD. -/
def qpState (s : State) (e q : Nat) : Nat := fld s (qpStat e q) RteQpStat.STATE

/-- The operations that have not ended (R429). -/
def QpRun.open_ (r : QpRun) : List QpOp := r.ops.filter fun o => o.fin.isNone

/-- A pair's working state replaced; OPS and SRTT show it (R429). -/
def setQp (s : State) (e q : Nat) (r : QpRun) : State :=
  let s := { s with rte := { s.rte with qps := eSet {} (16384 * e + q) r s.rte.qps } }
  let s := setFld s (qpStat e q) RteQpStat.OPS r.open_.length
  setFld s (qpStat e q) RteQpStat.SRTT (min 65535 (r.srtt.getD 0 / 64))

/-- STATE and STATUS of a pair set. -/
def setQpState (s : State) (e q v : Nat) (st : Status) : State :=
  setFld (setFld s (qpStat e q) RteQpStat.STATE v) (qpStat e q) RteQpStat.STATUS st.code

/-- A pair's own number (R425). -/
def qpn (e q : Nat) : Nat := 16384 * e + q

/-- A port's working state. -/
def port (s : State) (e k : Nat) : PortRun := eGet {} (4 * e + k) s.rte.ports
def setPort (s : State) (e k : Nat) (p : PortRun) : State :=
  { s with rte := { s.rte with ports := eSet {} (4 * e + k) p s.rte.ports } }

/-! ### The parameter block (R427) -/

/-- Word i of a pair's block. -/
def QpRun.w (r : QpRun) (i : Nat) : Nat := r.par.getD i 0
def QpRun.enc (r : QpRun) : Bool := bit (r.w 0) 63
def QpRun.v6 (r : QpRun) : Bool := bit (r.w 0) 62
def QpRun.pmtu (r : QpRun) : Nat := 1024 * 2 ^ bits (r.w 0) 61 60
def QpRun.tclass (r : QpRun) : Nat := bits (r.w 0) 59 57
def QpRun.paths (r : QpRun) : Nat := bits (r.w 0) 56 51 + 1
def QpRun.ports (r : QpRun) : List Nat := (List.range 4).filter fun k => bit (bits (r.w 0) 50 47) k
def QpRun.retry (r : QpRun) : Nat := bits (r.w 0) 46 43
def QpRun.rnrRetry (r : QpRun) : Nat := bits (r.w 0) 42 39
def QpRun.prof (r : QpRun) : Nat := bits (r.w 0) 38 35
def QpRun.maxOps (r : QpRun) : Nat := bits (r.w 0) 34 27 + 1
def QpRun.wnd (r : QpRun) : Nat := bits (r.w 0) 25 16 + 1
def QpRun.rnrWait (r : QpRun) : Nat := max 1 (bits (r.w 0) 15 0)
def QpRun.srcId (r : QpRun) : Nat := bits (r.w 1) 63 32
def QpRun.rsrcId (r : QpRun) : Nat := bits (r.w 1) 31 0
def QpRun.keyPair (r : QpRun) : Nat := bits (r.w 3) 63 56
def QpRun.rqpn (r : QpRun) : Nat := bits (r.w 3) 55 32
def QpRun.spBase (r : QpRun) : Nat := bits (r.w 3) 31 16
def QpRun.rtoMin (r : QpRun) : Nat := 256 * bits (r.w 3) 15 0
def QpRun.rip (r : QpRun) : Nat := r.w 4 * 2 ^ 64 + r.w 5
def QpRun.lip (r : QpRun) : Nat := r.w 6 * 2 ^ 64 + r.w 7
def QpRun.rqSize (r : QpRun) : Nat := 2 ^ (8 + bits (r.w 8) 63 60)
def QpRun.rqBase (r : QpRun) : Nat := bits (r.w 8) 55 0
def QpRun.rqSlots (r : QpRun) : Nat := bits (r.w 9) 63 48
def QpRun.ncEn (r : QpRun) : Bool := bit (r.w 9) 47
def QpRun.nmEn (r : QpRun) : Bool := bit (r.w 9) 46
def QpRun.freeCtr (r : QpRun) : Nat := bits (r.w 9) 42 32
def QpRun.nTile (r : QpRun) : Nat := bits (r.w 9) 31 26
def QpRun.nCtr (r : QpRun) : Nat := bits (r.w 9) 25 15
def QpRun.nChan (r : QpRun) : Nat := bits (r.w 9) 11 0

/-! ### Paths (R455, R456, R463, R471) -/

/-- The port of path i: the i-th allowed port, modulo their number. -/
def QpRun.pathPort (r : QpRun) (i : Nat) : Nat := r.ports.getD (i % max 1 r.ports.length) 0

/-- The distinct ports that carry a pair's paths. -/
def QpRun.usedPorts (r : QpRun) : List Nat := (((List.range r.paths).map r.pathPort)).dedup

/-- Does a port carry frames: its link is up and NHV is set (R486, R493)? -/
def portOn (s : State) (e k : Nat) : Bool := (port s e k).up && flag s (Reg.rtePortCfg e k) RtePortCfg.NHV

/-- RMAX of a pair (R471), in units of 0.1 Gb/s. -/
def rmax (s : State) (e : Nat) (r : QpRun) : Nat := 8000 * (r.usedPorts.filter fun k => portOn s e k).length

/-- The next path in rotation after `a` that is not suspect; when every path is suspect, the next whose port is up (R455, R456). -/
def nextPath (s : State) (e : Nat) (r : QpRun) (a : Option Nat) : Option Nat :=
  let first := match a with | some x => x + 1 | none => 0
  let l := ((List.range r.paths).map fun i => (first + i) % r.paths).filter fun p => portOn s e (r.pathPort p)
  match l.find? fun p => ! r.suspects.any fun x => x.path == p with
  | some p => some p
  | none => l.head?

/-! ### Header bytes (R439-R443) -/

/-- The base header as a number. -/
def bthNat (b : Bth) : Nat :=
  b.opc.code * 2 ^ 248 + b2n b.ackreq * 2 ^ 247 + b2n b.poison * 2 ^ 246 + b2n b.enc * 2 ^ 245 + b.kp * 2 ^ 244 + b2n b.last * 2 ^ 243 +
  b.path * 2 ^ 232 + b.dqpn * 2 ^ 200 + b.sqpn * 2 ^ 176 + b.psn * 2 ^ 144 + b.ts * 2 ^ 112 + b.msn * 2 ^ 88 + b.layer * 2 ^ 72 +
  b.opid * 2 ^ 56 + b.txctr

/-- An extended header from its fields A to E (R441). -/
def xhOf (a b c d e : Nat) : Nat := a * 2 ^ 128 + b * 2 ^ 96 + c * 2 ^ 64 + d * 2 ^ 32 + e

/-- Fields of an extended header. -/
def XhA (x : Nat) : Nat := bits x 191 128
def XhB (x : Nat) : Nat := bits x 127 96
def XhC (x : Nat) : Nat := bits x 95 64
def XhD (x : Nat) : Nat := bits x 63 32
def XhE (x : Nat) : Nat := bits x 31 0

/-- The ICRC of a header and body (R444). -/
def icrcOf (b : Bth) (body : List Byte) : List Byte := toLE 4 (crc32 (toBE 32 (bthNat b) ++ body))

/-- The nonce of a transmission (R460): source identity, 24-bit source pair, transmission counter. -/
def nonceOf (id sqpn txctr : Nat) : List Byte := toBE 12 (id * 2 ^ 64 + sqpn % 2 ^ 24 * 2 ^ 40 + txctr)

/-- The key pair of a queue pair (R552). -/
def qpKeys (s : State) (e : Nat) (r : QpRun) : KeyPair := eGet {} (256 * e + r.keyPair) s.sec.qpKeys

/-- The length of a frame in bytes from the destination MAC address to the FCS (R439, R483). -/
def frameLen (s : State) (e : Nat) (r : QpRun) (body : Nat) : Nat :=
  14 + (if flag s (Reg.rteTc e r.tclass) RteTc.VT then 4 else 0) + (if r.v6 then 40 else 20) + 8 + 32 + body + (if r.enc then 16 else 4) + 4

/-- A frame of a pair on a path, before transmission: counter, time and check are filled in when it crosses to the MAC (R460, R484). -/
def frameOf (s : State) (e q : Nat) (r : QpRun) (path : Nat) (b : Bth) (body : List Byte) (isData : Bool) : QFrame :=
  let b := { b with enc := r.enc, path := path, dqpn := r.rqpn, sqpn := qpn e q }
  { q := q, len := frameLen s e r body.length, isData := isData,
    f := { srcIp := r.lip, dstIp := r.rip, v6 := r.v6, sport := r.spBase + path, dport := fld s (Reg.rteCfg e) RteCfg.UDPDST, bth := b,
           body := body } }

/-! ### Class queues and credits (R478-R482) -/

/-- Is a frame of a class waiting in a port's queues? -/
def PortRun.waits (p : PortRun) (c : Nat) : Bool := p.data.any (fun x => x.1 == c) || p.ctl.any fun x => x.1 == c

/-- One class's credit carried over `t` cycles, of which `tx` were spent transmitting it (R482). -/
def creditStep (idle : Nat) (waits : Bool) (tx t : Nat) (v : Int) : Int :=
  let v := v + ((idle : Int) - 8000) * tx
  let v := if waits then v + (idle : Int) * (t - tx : Nat) else v
  if ! waits ∧ tx = 0 ∧ 0 < v then 0 else v

/-- Every shaped class's credit brought to the present cycle; a wake time counts for nothing (R482). -/
def creditSettle (s : State) (e k : Nat) : State :=
  let p := port s e k
  let t := s.clk.now - p.creditAt
  let held := min s.clk.now p.wakeAt - max p.creditAt p.wakeFrom
  let one (m : List (Nat × Int)) (c : Nat) : List (Nat × Int) :=
    if flag s (Reg.rteTc e c) RteTc.CBS then
      let tx := match p.cur with
        | some x => if x.1 = c then min s.clk.now p.busy - p.creditAt else 0
        | none => 0
      eSet 0 c (creditStep (fld s (Reg.rteTc e c) RteTc.IDLESLOPE) (p.waits c) tx (t - held) (eGet 0 c m)) m
    else eSet 0 c 0 m
  setPort s e k { p with credit := (List.range 8).foldl one p.credit, creditAt := s.clk.now }

/-- Bytes waiting in a data queue. -/
def PortRun.dataBytes (p : PortRun) (c : Nat) : Nat := ((p.data.filter fun x => x.1 == c).map fun x => x.2.len).foldl (· + ·) 0

/-- A data frame put into its class's data queue (R480). -/
def putData (s : State) (e k c : Nat) (x : QFrame) : State :=
  let s := creditSettle s e k
  let p := port s e k
  setPort s e k { p with data := p.data ++ [(c, x)], active := s.clk.now }

/-- A CLOSE or PROBE put into the control queue of its class, at most 128 frames (R480). -/
def putCtl (s : State) (e k c : Nat) (x : QFrame) : State :=
  let s := creditSettle s e k
  let p := port s e k
  if ! portOn s e k ∨ 128 ≤ (p.ctl.filter fun y => y.1 == c).length then s
  else setPort s e k { p with ctl := p.ctl ++ [(c, x)], active := s.clk.now }

/-! ### Acknowledgements (R443, R447, R448, R480) -/

/-- Is a message settled (R448): committed, or with a syndrome? -/
def RxMsg.settled (m : RxMsg) : Bool := m.done || m.synd != 0

/-- MSNC as an ACK may report it (R443, R448): the highest MSN at or below which every message is settled, and below every message that is being
received again (log 31, DEDUCED). -/
def msncOut (r : QpRun) : Nat :=
  let hold := (r.msgs.filter fun m => ! m.settled).map RxMsg.msn
  hold.foldl (fun c m => if seqLe 24 m c then (m + 2 ^ 24 - 1) % 2 ^ 24 else c) r.msnc

/-- The ACK header (R443). -/
def ackHdr (r : QpRun) (smsn synd : Nat) : Nat :=
  let sack := (r.map.filter fun p => decide ((p + 2 ^ 32 - (r.cum + 1)) % 2 ^ 32 < 256)).foldl
    (fun a p => a + 2 ^ ((p + 2 ^ 32 - (r.cum + 1)) % 2 ^ 32)) 0
  r.cum * 2 ^ 480 + r.ets * 2 ^ 448 + r.delay * 2 ^ 416 + min 65535 r.ce * 2 ^ 400 + synd * 2 ^ 392 + smsn * 2 ^ 368 + msncOut r * 2 ^ 344 + sack

/-- A syndrome that an unsent ACK carried, put back in SMSN order before those of the same message (R448). -/
def backSynd (l : List (Nat × Nat)) (msn code : Nat) : List (Nat × Nat) :=
  (l.filter fun x => ! seqLe 24 msn x.1) ++ [(msn, code)] ++ l.filter fun x => seqLe 24 msn x.1

/-- An ACK of a pair generated (R447): it leaves by the port of the path of the newest arrival; it replaces an unsent ACK of the pair in place,
taking over its syndrome and marks; without room it is dropped and counted (R480). Log 51, DEDUCED. -/
def ackNow (s : State) (e q : Nat) : State :=
  let r := qp s e q
  let k := r.pathPort r.etsPath
  let c := r.tclass
  let p := port s e k
  let mine (x : Nat × QFrame) : Bool := x.1 == c && x.2.q == q && x.2.f.bth.opc == .ack
  let old := p.ctl.find? mine
  let r := match old with
    | some x => { r with ce := r.ce + x.2.ce, synds := if x.2.synd = 0 then r.synds else backSynd r.synds x.2.smsn x.2.synd }
    | none => r
  if ! portOn s e k then setQp s e q { r with ackAt := none }
  else if old.isNone ∧ 128 ≤ (p.ctl.filter fun y => y.1 == c).length then
    bump (setQp s e q { r with ackAt := none }) (Reg.rtePortStat e k) RtePortStat.ACKDROP 1
  else
    let sy := r.synds.headD (0, 0)
    let r' := { r with synds := r.synds.drop 1, ackAt := none }
    let x := frameOf s e q r' r'.etsPath { opc := .ack } (toBE 64 (ackHdr r' sy.1 sy.2)) false
    let x := { x with smsn := sy.1, synd := sy.2, ce := r'.ce }
    let s := creditSettle (setQp s e q { r' with ce := 0 }) e k
    let p := port s e k
    setPort s e k { p with active := s.clk.now,
                           ctl := if old.isSome then updFirst mine (fun y => (y.1, x)) p.ctl else p.ctl ++ [(c, x)] }

/-- A syndrome to report, in SMSN order (R448). -/
def addSynd (r : QpRun) (msn code : Nat) : QpRun :=
  let ins := r.synds.filter fun x => seqLe 24 x.1 msn
  { r with synds := ins ++ [(msn, code)] ++ r.synds.filter fun x => ! seqLe 24 x.1 msn }

/-- The ports of a pair have seen activity (R488). -/
def touchPorts (s : State) (e : Nat) (r : QpRun) : State :=
  r.usedPorts.foldl (fun s k => setPort s e k { port s e k with active := s.clk.now }) s

/-! ### CLOSE frames (R464) -/

/-- Does a CLOSE of a pair still wait at a port of its engine? -/
def closeQueued (s : State) (e q : Nat) : Bool :=
  s.rte.ports.any fun x => x.1 / 4 == e && (x.2.ctl ++ x.2.stage).any fun y => y.2.q == q && y.2.f.bth.opc == .close

/-- The records of pairs whose last CLOSE has gone dropped. -/
def closeTidy (s : State) : State :=
  { s with rte := { s.rte with closing := s.rte.closing.filter fun c => c.left != 0 || closeQueued s c.e c.q } }

/-! ### How operations end (R436, R438, R458) -/

/-- A pair's operation that completes a command. -/
def opOfCmd (s : State) (id : Nat) : Option (Nat × QpOp) :=
  s.rte.qps.findSome? fun x => (x.2.ops.find? fun o => o.post.cmd == some id).map fun o => (x.1, o)

/-- May a command's record be written: records of one pair follow MSN order (R458)? -/
def qpMayFinish (s : State) (id : Nat) : Bool :=
  s.rte.qps.all fun x => ! (x.2.ops.any fun o => o.post.cmd == some id) ||
    ((x.2.ops.filter fun o => o.post.cmd.isSome).head?.map fun o => o.post.cmd) == some (some id)

/-- An operation's record given back when its command has completed. -/
def qpOpDone (s : State) (id : Nat) : State :=
  match opOfCmd s id with
  | none => s
  | some (k, o) => setQp s (k / 16384) (k % 16384) { eGet {} k s.rte.qps with ops := (eGet {} k s.rte.qps).ops.erase o }

/-- A command given up by its ring: its operation goes on without it; a post that still waits is dropped (R384). -/
def qpDrop (s : State) (id : Nat) : State :=
  let f (r : QpRun) : QpRun :=
    { r with sendQ := r.sendQ.filter fun p => p.cmd != some id,
             ops := r.ops.map fun o => if o.post.cmd = some id then { o with post := { o.post with cmd := none } } else o }
  { s with rte := { s.rte with qps := s.rte.qps.map fun x => (x.1, f x.2) } }

/-- The end of an engine's own operation: the counter of a bound stream (R467), or the answer to a relayed packet (R264). -/
def ownDone (s : State) (p : QpPost) (st : Status) : State :=
  let s := match p.ctr with | some c => addDone s c st | none => s
  match p.orig with
  | some o => if st.good then ackTo s o .ok else errTo s o st
  | none => s

end Sys2Proof.Machine
end

