-- ==== Sys2Proof/Machine/Remote.lean ====
section
/-!
DEFINITION. The remote transport (chapter 12) and its rates (R471-R477): posting, sending, arrival, acknowledgement, retransmission, closing.
-/
namespace Sys2Proof.Machine

/-! ### Ends of operations and of pairs -/

/-- Is an operation an atomic? -/
def QpPost.atomic (p : QpPost) : Bool := decide (3 ≤ p.qop) && decide (p.qop ≤ 5)

/-- BYTES of an operation that ends with a status (R378, R607): all of it for a success; what was written, poisoned bytes included, when it consumed
poison. -/
def opBytesDone (o : QpOp) (st : Status) : Nat :=
  if st.good then o.post.len else if st = .poisoned then (if o.post.qop = 1 then o.got else if o.psn then o.post.len else 0) else 0

/-- An operation that ended with a status and DETAIL (R438, R458): its record waits for the command's completion, or the engine's own
operation is over. -/
def opEnds (s : State) (e q : Nat) (o : QpOp) (st : Status) (detail : Nat) : State :=
  let r := qp s e q
  let s := touchPorts s e r
  match o.post.cmd with
  | some id =>
    let f (x : QpOp) : QpOp := { x with fin := some st, detail := detail, rnrAt := none }
    let s := setQp s e q { r with ops := updFirst (fun x => x.post.msn == o.post.msn && x.fin.isNone) f r.ops }
    updCmd s id fun c => { c with left := 0, status := if c.status.good then st else c.status, detail := detail, bytes := opBytesDone o st }
  | none => ownDone (setQp s e q { r with ops := r.ops.filter fun x => x.post.msn != o.post.msn }) o.post st

/-- The posts of a send queue ended with a status: they keep their place in MSN order. -/
def queueEnds (s : State) (e q : Nat) (st : Status) (detail : Nat := 0) : State :=
  let r := qp s e q
  let l := r.sendQ.map fun p => ({ post := p } : QpOp)
  let s := setQp s e q { r with sendQ := [], ops := r.ops ++ l }
  l.foldl (fun s o => opEnds s e q o st detail) s

/-- A pair moved to ERROR with a status (R452, R463, R464): its operations and its send queue end with it, and nothing is retransmitted. A DEAD pair
stays DEAD (R426). -/
def qpError (s : State) (e q : Nat) (st : Status) (detail : Nat := 0) : State :=
  if qpState s e q ≠ 1 ∧ qpState s e q ≠ 3 then s
  else
    let s := if qpState s e q = 3 then s else setQpState s e q 2 st
    let s := (qp s e q).open_.foldl (fun s o => opEnds s e q o st detail) s
    let s := queueEnds s e q st (if st = .retryExhausted then detail else 0)
    let r := qp s e q
    setQp s e q { r with tx := [], msgs := [], lostPsn := if st = .retryExhausted then detail / 2 ^ 32 else r.lostPsn }

/-- A pair made DEAD (R462, R602): what its send queue holds completes `ST_POISONED`, and so does a READ or an atomic in flight, whose response the
pair would refuse, unless its own data still move (log 158, DESIGN CHOICE). -/
def qpLost (s : State) (e q : Nat) : State :=
  let s := queueEnds (setQpState s e q 3 .poisoned) e q .poisoned
  ((qp s e q).open_.filter fun o => (o.post.qop == 1 || o.post.atomic) && o.out == 0).foldl (fun s o => opEnds s e q o .poisoned 0) s

/-- A pair that consumed poison (R462, R607): DEAD with one record. -/
def qpDead (s : State) (e q layer opid : Nat) : State :=
  if qpState s e q ≠ 1 then s
  else qpLost (log s { errOf (unitCode .rte e) .poisonin 2 with
      tenant := (qp s e q).tenant, status := .poisoned, layer := layer, opid := opid }) e q

/-- What a syndrome means for the requester (R449). -/
def syndStatus : Nat → Status
  | 2 => .regionFault | 3 => .lengthRange | 4 => .tenantViolation | 5 => .badDescriptor | 6 => .poisoned | 7 => .poisoned | _ => .aborted

/-- The syndrome of a failed access at the responder (R449). -/
def statusSynd : Status → Nat
  | .tenantViolation => 4 | .poisoned => 6 | _ => 2

/-! ### Posting (R434, R435) -/

/-- Fields of QP_POST (R434). -/
def QpLaddr (d : Nat) : Nat := bits d 511 456
def QpRva (d : Nat) : Nat := bits d 455 392
def QpLen (d : Nat) : Nat := bits d 391 360
def QpRkey (d : Nat) : Nat := bits d 359 328
def QpQpn (d : Nat) : Nat := bits d 327 313
def QpQop (d : Nat) : Nat := bits d 312 310
def QpEfmt (d : Nat) : Nat := bits d 309 306
def QpNote (d : Nat) : Bool := bit d 305

/-- The engine that executes a command. -/
def exRte (c : Cmd) : Option Nat := match Ep_kind c.ex with | .rte n => some n | _ => none

/-- Row 1 of R435, with the length that a format asks for (R187). -/
def postMalformed (s : State) (c : Cmd) (e : Nat) : Bool :=
  let d := c.desc
  let o := QpQop d
  let n := if o = 3 ∨ o = 4 then QpLen d else if o = 5 then 2 * QpLen d else 0
  bits d 47 3 != 0 || bits d 292 128 != 0 || decide (6 ≤ o) || QpQpn d / 16384 != e || qpState s e (QpQpn d % 16384) == 0 ||
    Desc_inlen d != n || c.inl.length != n ||
    (decide (3 ≤ o) && ! ((QpLen d == 4 || QpLen d == 8) && QpRva d % max 1 (QpLen d) == 0)) || QpLen d % max 1 (elemWidth (QpEfmt d)) != 0

/-- The checks of R435 in their order. -/
def postCheck (s : State) (c : Cmd) : Option Status :=
  let d := c.desc
  match exRte c with
  | none => some .badDescriptor
  | some e =>
    let q := QpQpn d % 16384
    if postMalformed s c e then some .badDescriptor
    else if (qp s e q).tenant ≠ c.tenant then some .tenantViolation
    else if qpState s e q = 2 then some (Status.ofCode (fld s (qpStat e q) RteQpStat.STATUS))
    else if qpState s e q = 3 then some .poisoned
    else if ! fmtPlain (QpEfmt d) 0 0 then some .formatUnsupported
    else if 0x80000000 < QpLen d ∨ (QpQop d = 2 ∧ 65536 < QpLen d) then some .lengthRange
    else if QpQop d < 3 ∧ ((rangeCheck s false (myChip s) (QpLaddr d) (QpLen d)).isSome ∨
        rangeForeign s c.tenant (myChip s) (QpLaddr d) (QpLen d)) then some .regionFault
    else if QpQop d < 3 ∧ QpLen d = 0 then some .ok
    else none

/-- An operation put into a pair's send queue under the next MSN (R446). -/
def postOp (s : State) (e q : Nat) (p : QpPost) : State :=
  let r := qp s e q
  setQp s e q { r with sendQ := r.sendQ ++ [{ p with msn := r.msn }], msn := (r.msn + 1) % 2 ^ 24 }

/-- A pair that is posted to while every port it may use is down moves to ERROR (R463). -/
def portless (s : State) (e q : Nat) : State :=
  if qpState s e q = 1 ∧ ! (qp s e q).ports.any (fun k => (port s e k).up) then qpError s e q .peerUnreachable else s

/-- QP_POST (R435). A later post of a pair whose retries are exhausted names the packet that could not be delivered (R438). -/
def execQpPost (src : CmdSrc) (s : State) : Host.Outcome State Fault Refusal :=
  .next (startCmd s src (· == 11) fun s0 c =>
    let s := match exRte c with | some e => portless s0 e (QpQpn c.desc % 16384) | none => s0
    match postCheck s c, exRte c with
    | some st, some e => endAt s { c with detail := if st = .retryExhausted then (qp s e (QpQpn c.desc % 16384)).lostPsn * 2 ^ 32 else 0 } st
    | some st, none => endAt s c st
    | none, none => endAt s c .badDescriptor
    | none, some e =>
      let d := c.desc
      postOp (addCmd s { c with left := 1 }) e (QpQpn d % 16384)
        { cmd := some c.id, qop := QpQop d, laddr := QpLaddr d, rva := QpRva d, len := QpLen d, rkey := QpRkey d, note := QpNote d,
          efmt := QpEfmt d, layer := Desc_layer d, opid := Desc_opid d, inl := c.inl })

/-! ### Sending (R436, R441) -/

/-- A local access of an engine for a pair, at P1 (log 32, DEDUCED). -/
def rteLocal (s : State) (e q : Nat) (opc : Opc) (addr n layer opid : Nat) (data : List Byte) (psn : Bool) (j : RteJob) : State :=
  enqueue s { opc := opc, src := rteEp (myChip s) e, dst := homeEp s (myChip s) addr, tenant := (qp s e q).tenant, prio := 1, addr := addr,
              nbytes := n, layer := layer, opid := opid, poison := psn, data := data } (.rte e q j)

/-- The opcode and extended header of packet k of an operation (R441). -/
def opHdr (p : QpPost) (pmtu k : Nat) : TOpc × Nat :=
  match p.qop with
  | 0 => (.write, xhOf p.rva p.rkey p.len (k * pmtu) (p.efmt * 2 ^ 28))
  | 1 => (.readReq, xhOf p.rva p.rkey p.len 0 0)
  | 2 => (.send, xhOf 0 0 p.len (k * pmtu) (b2n p.note))
  | 7 => (.relay, xhOf p.rva p.bword p.len 0 0)
  | o => (.atomic, xhOf p.rva p.rkey p.len (o - 3) 0)

/-- The packets of an operation: how many, and the bytes of packet k. -/
def opPackets (p : QpPost) (pmtu : Nat) : Nat := if p.qop = 0 ∨ p.qop = 2 ∨ p.qop = 7 then max 1 (ceilDiv p.len pmtu) else 1
def opBytes (p : QpPost) (pmtu k : Nat) : Nat :=
  if p.qop = 1 then 0 else if p.qop = 0 ∨ p.qop = 2 ∨ p.qop = 7 then min pmtu (p.len - k * pmtu) else p.inl.length

/-- The packets of an operation, from a PSN on. Inline data are there at once; the rest is read from LADDR. -/
def opTx (p : QpPost) (pmtu psn : Nat) : List TxPkt :=
  (List.range (opPackets p pmtu)).map fun k =>
    let h := opHdr p pmtu k
    { psn := (psn + k) % 2 ^ 32, opc := h.1, msn := p.msn, k := k, last := k + 1 == opPackets p pmtu, xh := h.2, need := opBytes p pmtu k,
      buf := if p.inl.isEmpty then [] else [(0, slice p.inl (k * pmtu) (opBytes p pmtu k))], poison := p.psn, layer := p.layer, opid := p.opid }

/-- An operation's packets entered into the send sequence, and the reads of its source data made to wait at the engine's interface. -/
def sendOp (s : State) (e q : Nat) (p : QpPost) : State :=
  let r := qp s e q
  let l := opTx p r.pmtu r.psn
  let s := setQp s e q { r with tx := r.tx ++ l, psn := (r.psn + l.length) % 2 ^ 32,
                                ops := updFirst (fun o => o.post.msn == p.msn && o.fin.isNone) (fun o => { o with first := r.psn }) r.ops }
  if p.qop = 1 ∨ ! p.inl.isEmpty then s
  else l.foldl (fun s t =>
    let a := p.laddr + t.k * r.pmtu
    (pieces a t.need).foldl (fun s x => rteLocal s e q .rdReq x.1 x.2 p.layer p.opid [] false (.src t.psn (x.1 - a) x.2)) s) s

/-- Operations in flight at an engine (R436). -/
def engineOps (s : State) (e : Nat) : Nat :=
  ((s.rte.qps.filter fun x => x.1 / 16384 == e).map fun x => x.2.open_.length).foldl (· + ·) 0

/-- QP_OP_SEND (R436): the front of the send queue takes an operation record when engine and pair have room, and is sent. -/
def execQpOpSend (e q : Nat) (s : State) : Host.Outcome State Fault Refusal :=
  let r := qp s e q
  .next (match r.sendQ with
    | [] => s
    | p :: rest =>
      if qpState s e q ≠ 1 ∨ 8192 ≤ engineOps s e ∨ r.maxOps ≤ r.open_.length ∨
        (p.atomic ∧ 16 ≤ (r.open_.filter fun o => o.post.atomic).length) then s
      else
        let s := sendOp (setQp s e q { r with sendQ := rest, ops := r.ops ++ [{ post := p, psn := p.psn && p.qop != 7 }] }) e q p
        if p.psn ∧ p.qop ≠ 7 then qpDead s e q p.layer p.opid else s)

/-- Source bytes that have come in for a packet (R462: poisoned ones make the pair DEAD, and the operation ends `ST_POISONED`). -/
def rteSrc (s : State) (e q psn off : Nat) (bs : List Byte) (bad : Bool) : State :=
  let r := qp s e q
  match r.tx.find? fun t => t.psn == psn with
  | none => s
  | some t =>
    let f (t : TxPkt) : TxPkt := { t with buf := t.buf ++ [(off, bs)], poison := t.poison || bad }
    let g (o : QpOp) : QpOp := { o with psn := o.psn || bad }
    let s := setQp s e q { r with tx := updFirst (fun x => x.psn == psn) f r.tx, ops := updFirst (fun o => o.post.msn == t.msn) g r.ops }
    if bad then qpDead s e q t.layer t.opid else s

/-! ### The pacer (R471, R472) -/

/-- Fabric time in ps, and the first cycle at or after a time in ps. -/
def timePs (s : State) : Nat := 4000 * s.clk.now / 9
def cycleAtPs (t : Nat) : Nat := ceilDiv (9 * t) 4000

/-- RATE of a pair. -/
def rate (s : State) (e q : Nat) : Nat := fld s (qpCc e q) RteQpCc.RATE
def setRate (s : State) (e q v : Nat) : State := setFld s (qpCc e q) RteQpCc.RATE v

/-- Has a packet all its bytes? -/
def TxPkt.ready (t : TxPkt) : Bool := t.wait && decide (t.need ≤ (t.buf.map fun x => x.2.length).foldl (· + ·) 0)

/-- The packet a pair releases next: in PSN order, within the window beyond the oldest unacknowledged one (R427, R470). -/
def nextTx (r : QpRun) : Option TxPkt :=
  let head := (r.tx.head?.map TxPkt.psn).getD r.psn
  r.tx.find? fun t => t.ready && decide ((t.psn + 2 ^ 32 - head) % 2 ^ 32 < r.wnd)

/-- Does a packet ask for an immediate ACK (R447)? -/
def askAck (s : State) (e : Nat) (t : TxPkt) : Bool := t.rtx || t.last || (t.k + 1) % 2 ^ fld s (Reg.rteCfg e) RteCfg.ACKRQL2 == 0

/-- The payload of a packet. -/
def TxPkt.payload (t : TxPkt) : List Byte := t.buf.foldl (fun d x => splice d x.1 x.2) (List.replicate t.need 0)

/-- The command of the operation that a packet belongs to: none for a response. -/
def txCmd (r : QpRun) (t : TxPkt) : Option Nat :=
  if t.opc = .readRsp ∨ t.opc = .atomicRsp then none else (r.ops.find? fun o => o.post.msn == t.msn).bind fun o => o.post.cmd

/-- A frame at the engine's transmit arbiter (R437): its header grain and the grains of its payload. Log 157, DEDUCED. -/
def txBundleOf (r : QpRun) (e k : Nat) (t : TxPkt) (x : QFrame) : TxBundle :=
  { e := e, k := k, c := r.tclass, x := x, who := r.tenant, grains := 1 + ceilDiv t.need 256, cmd := txCmd r t }

/-- Does a frame of a pair wait at the transmit arbiter (R478)? -/
def bundled (s : State) (e q : Nat) : Bool := s.rte.bundles.any fun b => b.e == e && b.x.q == q

/-- PACED_RELEASE (R472, R478): at TNEXT the pair's next data frame goes to the transmit arbiter, unless one of its frames is held there. -/
def execPacedRelease (e q : Nat) (s : State) : Host.Outcome State Fault Refusal :=
  .next (if qpState s e q ≠ 1 ∧ qpState s e q ≠ 3 then s
    else
      let r := qp s e q
      match nextTx r with
      | none => s
      | some t =>
        match nextPath s e r (if t.rtx then t.path else r.lastPath) with
        | none => s
        | some p =>
          let k := r.pathPort p
          let b : Bth := { opc := t.opc, ackreq := askAck s e t, poison := t.poison, last := t.last, psn := t.psn, msn := t.msn,
                           layer := t.layer, opid := t.opid }
          let x := frameOf s e q r p b (toBE 24 t.xh ++ t.payload) true
          if ! portOn s e k ∨ bundled s e q then s
          else
            let s := advanceTo s (cycleAtPs r.tnext)
            let f (t : TxPkt) : TxPkt := { t with wait := false, path := some p, order := r.order, later := 0, sentAt := none }
            let r := { r with
              tx := updFirst (fun y => y.psn == t.psn) f r.tx, order := r.order + 1, lastPath := if t.rtx then r.lastPath else some p,
              tnext := max r.tnext (timePs s) + ceilDiv (80000 * x.len) (max 1 (rate s e q)) }
            let s := if t.rtx then bump s (qpStat e q) RteQpStat.RTX 1 else s
            let s := setQp s e q r
            let s := { s with rte := { s.rte with bundles := s.rte.bundles ++ [txBundleOf r e k t x] } }
            tutilOut s (.rte e) r.tenant (units128 t.need))

/-! ### Loss (R450-R452, R476) -/

/-- RTO of a pair in ns (R450). -/
def rto (s : State) (e q : Nat) : Nat :=
  let r := qp s e q
  let top := 1000 * max 1 (fld s (Reg.rteCfg e) RteCfg.RTOMAX)
  max 4096 (min top (max r.rtoMin (r.srtt.getD 0 + 4 * r.rttvar)) * 2 ^ fld s (qpStat e q) RteQpStat.TOSEQ)

/-- A packet to be sent again: on the next path after its own that is not suspect, which is taken at its release (R451). -/
def again (t : TxPkt) : TxPkt := { t with wait := true, rtx := true, later := 0, sentAt := none }

/-- The cycle in which the retransmit timer of a pair expires: RTO after its oldest unacknowledged packet's last transmission (R450).
Log 47, DEDUCED. -/
def rtoAt (s : State) (e q : Nat) : Option Nat :=
  match (qp s e q).tx.head? with
  | none => none
  | some t => if t.wait then none else t.sentAt.map fun c => c + cycleAt (rto s e q)

/-- Timeouts in a row by path, and the paths that become suspect with the second (R456). -/
def notePaths (s : State) (e : Nat) (r : QpRun) (hit : List Nat) : QpRun :=
  let n (p : Nat) := if hit.contains p then eGet 0 p r.pathTo + 1 else 0
  let now := (List.range r.paths).filter fun p => hit.contains p && decide (2 ≤ n p)
  { r with pathTo := (List.range r.paths).foldl (fun m p => eSet 0 p (n p) m) [],
           suspects := now.foldl (fun l p => (l.filter fun x => x.path != p) ++
             [⟨p, s.clk.now + usCycles (max 1 (fld s (Reg.rteCfg e) RteCfg.PSUSP)), false⟩]) r.suspects }

/-- RMIN of a pair's profile (R473: 0 is taken as 1). -/
def rmin (s : State) (e : Nat) (r : QpRun) : Nat := max 1 (fld s (Reg.rteCcpa e r.prof) RteCcpa.RMIN)

/-- RETRANSMIT_TIMEOUT (R452, R476): every packet whose last transmission ended RTO ago or earlier is sent again, TOSEQ rises and the rate halves;
beyond RETRY the pair fails. Log 49, DEDUCED. -/
def execRetransmitTimeout (e q : Nat) (s : State) : Host.Outcome State Fault Refusal :=
  .next (match rtoAt s e q with
    | none => s
    | some g =>
      if qpState s e q ≠ 1 ∧ qpState s e q ≠ 3 then s
      else
        let s := advanceTo s g
        let r := qp s e q
        let n := fld s (qpStat e q) RteQpStat.TOSEQ
        let s := setFld (setRate s e q (max (rmin s e r) (rate s e q / 2))) (qpCc e q) RteQpCc.INCN 0
        if r.retry ≤ n then qpError s e q .retryExhausted ((r.tx.head?.map TxPkt.psn).getD 0 * 2 ^ 32)
        else
          let lim := cycleAt (rto s e q)
          let old (t : TxPkt) : Bool := ! t.wait && match t.sentAt with | some c => decide (c + lim ≤ s.clk.now) | none => false
          let r := notePaths s e r ((r.tx.filter old).filterMap TxPkt.path)
          let r := { r with tx := r.tx.map fun t => if old t then again t else t }
          setFld (setQp s e q r) (qpStat e q) RteQpStat.TOSEQ (n + 1))

/-! ### The rate (R475) -/

/-- Two fractions' larger one. -/
def maxFrac (a b : Nat × Nat) : Nat × Nat := if a.1 * b.2 < b.1 * a.2 then b else a
def minFrac (a b : Nat × Nat) : Nat × Nat := if a.1 * b.2 < b.1 * a.2 then a else b

/-- BASE and qd after an ACK's DELAY: BASE is taken anew when unset, when DELAY is below it, or when it is older than BASEWIN. -/
def rateBase (s : State) (e q delay : Nat) : State × Nat :=
  let r := qp s e q
  let base := fld s (qpCc e q) RteQpCc.BASE
  let life := usCycles (max 1 (fld s (Reg.rteCcpb e r.prof) RteCcpb.BASEWIN))
  let d := (delay + 2 ^ 32 - base) % 2 ^ 32
  let fresh := match r.baseAt with
    | none => true
    | some c => decide (2 ^ 31 ≤ d) || decide (c + life < s.clk.now)
  if fresh then (setQp (setFld s (qpCc e q) RteQpCc.BASE delay) e q { r with baseAt := some s.clk.now }, 0) else (s, d)

/-- ALPHA after an ACK that newly acknowledges n > 0 packets, cut to 1/256; the field holds at most 255 (log 33, DEDUCED). -/
def alphaNext (a n ce gsh : Nat) : Nat := min 255 ((a * n * (2 ^ gsh - 1) + 256 * min ce n) / (n * 2 ^ gsh))

/-- The decrease of an adjustment as a fraction. -/
def decrease (alpha beta mdmax qtgt qd : Nat) (ce : Bool) : Nat × Nat :=
  let f := if ce then (alpha, 512) else (0, 1)
  let f := if qtgt < qd then maxFrac f (beta * (qd - qtgt), 256 * qd) else f
  minFrac f (max 1 mdmax, 256)

/-- The steps of R475 at an accepted ACK that newly acknowledges n packets. -/
def rateStep (s : State) (e q n ce delay : Nat) : State :=
  let b := rateBase s e q delay
  let s := b.1
  let qd := b.2
  let r := { qp s e q with cesum := (qp s e q).cesum + ce }
  let s := setQp s e q r
  let c := Reg.rteCcpb e r.prof
  let x := qpCc e q
  let s := if 0 < n then setFld s x RteQpCc.ALPHA (alphaNext (fld s x RteQpCc.ALPHA) n ce (fld s c RteCcpb.GSH)) else s
  let early := match r.lastAdj with | some g => decide (s.clk.now < g + cycleAt (r.srtt.getD 0)) | none => false
  if early then s
  else
    let s := setQp s e q { r with lastAdj := some s.clk.now, cesum := 0 }
    let qtgt := fld s c RteCcpb.QTGT
    if 0 < r.cesum ∨ qtgt < qd then
      let f := decrease (fld s x RteQpCc.ALPHA) (fld s c RteCcpb.BETA) (fld s c RteCcpb.MDMAX) qtgt qd (decide (0 < r.cesum))
      setFld (setRate s e q (max (rmin s e r) (rate s e q * (f.2 - f.1) / f.2))) x RteQpCc.INCN 0
    else
      let i := min 255 (fld s x RteQpCc.INCN + 1)
      let a := Reg.rteCcpa e r.prof
      let up := if fld s c RteCcpb.FASTN < i then fld s a RteCcpa.HAI else fld s a RteCcpa.AI
      setFld (setRate s e q (min (rmax s e r) (rate s e q + up))) x RteQpCc.INCN i

/-! ### Local regions (R431, R432) -/

/-- The region a key names at an engine. -/
def mrOf (s : State) (e key : Nat) : Option MrRun :=
  s.rte.mrs.find? fun m => m.e == e && m.idx == key / 2 ^ 18 && m.gen == key % 2 ^ 18 && m.valid

/-- Fields of a region's block (R430). -/
def MrRun.vbase (m : MrRun) : Nat := m.w.getD 0 0
def MrRun.fbase (m : MrRun) : Nat := bits (m.w.getD 1 0) 55 0
def MrRun.right (m : MrRun) (i : Nat) : Bool := bit (m.w.getD 2 0) i
def MrRun.len (m : MrRun) : Nat := bits (m.w.getD 2 0) 39 0
def MrRun.bound (m : MrRun) : Option Nat := if bit (m.w.getD 3 0) 63 then some (bits (m.w.getD 3 0) 14 0) else none

/-- The checks of R432 for a whole operation: the syndrome (0 none) and the region. `right` is the bit of the right: 48 RD, 49 WR, 50 AT. -/
def mrCheck (s : State) (e q key va n right : Nat) (atomic : Bool) : Nat × Option MrRun :=
  match mrOf s e key with
  | none => (2, none)
  | some m =>
    if m.tenant ≠ (qp s e q).tenant ∨ (m.bound.isSome ∧ m.bound ≠ some (qpn e q)) then (2, none)
    else if va < m.vbase ∨ m.vbase + m.len < va + n ∨ ! m.right right then (2, none)
    else if atomic ∧ (va % max 1 n ≠ 0 ∨ (n ≠ 4 ∧ n ≠ 8)) then (5, none)
    else (0, some m)

/-- The placements a region has admitted and not yet seen acknowledged, changed (R433). -/
def mrOut (s : State) (e idx : Nat) (f : Nat → Nat) : State :=
  let l := updFirst (fun m => m.e == e && m.idx == idx) (fun m => { m with out := f m.out }) s.rte.mrs
  { s with rte := { s.rte with mrs := l.filter fun m => m.valid || m.out != 0 } }

/-! ### Frames on arrival (R444, R445, R461, R490) -/

/-- A frame counted as STRAY (R445, R469). -/
def stray (s : State) (e : Nat) : State := bump s (Reg.rteStat e) RteStat.STRAY 1

/-- Is an address one of a port's own (R445, R486)? -/
def ownIp (s : State) (e k : Nat) (v6 : Bool) (ip : Nat) : Bool :=
  let c := Reg.rtePortCfg e k
  if v6 then flag s c RtePortCfg.V6 &&
    ip == fld s (Reg.rtePortIp6h e k) RtePortIp6h.IP6H * 2 ^ 64 + fld s (Reg.rtePortIp6l e k) RtePortIp6l.IP6L
  else flag s c RtePortCfg.V4 && ip == fld s (Reg.rtePortIp4 e k) RtePortIp4.IP4

/-- Does the engine accept a frame (R445)? One whose IPv6 UDP checksum fails (R439) is among those it does not (log 159, DESIGN CHOICE). -/
def accepted (s : State) (e k : Nat) (f : Frame) : Bool :=
  let q := f.bth.dqpn % 16384
  let r := qp s e q
  (f.csum || ! f.v6) && ownIp s e k f.v6 f.dstIp && f.bth.dqpn / 16384 == e && qpState s e q != 0 && f.srcIp == r.rip && f.v6 == r.v6 &&
    f.bth.sqpn == r.rqpn && f.bth.enc == r.enc

/-- The body of an accepted frame once its ICRC or tag has been checked (R444, R460). -/
def openBody (s : State) (e : Nat) (f : Frame) : Option (List Byte) :=
  let r := qp s e (f.bth.dqpn % 16384)
  if r.enc then
    match (qpKeys s e r).key f.bth.kp with
    | none => none
    | some key => Config.gcmOpen key (nonceOf r.rsrcId f.bth.sqpn f.bth.txctr) (toBE 32 (bthNat f.bth)) (f.body ++ f.check)
  else if f.check = icrcOf f.bth f.body then some f.body else none

/-- A frame whose ICRC or tag fails: counted, recorded and treated as lost (R444, R461). -/
def badFrame (s : State) (e k : Nat) (f : Frame) : State :=
  let x := Reg.rteStat e
  let s := if f.bth.enc then bump s x RteStat.AUTHFAIL 1 else bump s x RteStat.ICRC 1
  log s { errOf (unitCode .rte e) .eth 1 with tenant := (qp s e (f.bth.dqpn % 16384)).tenant, synd := k * 2 ^ 124 }

/-- An unknown opcode (R441). -/
def TOpc_known (o : TOpc) : Bool := match o with | .bad _ => false | _ => true

/-- A frame at a port of an engine, sorted (R490) and checked (R445, R444); `k` takes the pair and the opened body of one that carries the
row's opcode. -/
def rteArrive (s : State) (e k : Nat) (f : Frame) (opc : TOpc) (body : State → Nat → List Byte → State) : State :=
  if f.bth.opc ≠ opc ∧ TOpc_known f.bth.opc then s
  else if ! portOn s e k ∨ f.dport ≠ fld s (Reg.rteCfg e) RteCfg.UDPDST then bump s (Reg.rtePortStat e k) RtePortStat.NONRTE 1
  else if ! accepted s e k f ∨ ! TOpc_known f.bth.opc then stray s e
  else match openBody s e f with
    | none => badFrame s e k f
    | some bs => body (tutilIn s (.rte e) (qp s e (f.bth.dqpn % 16384)).tenant (units128 bs.length)) (f.bth.dqpn % 16384) bs

/-! ### The receiver (R446-R448, R453-R458) -/

/-- The newest arrival noted for the next ACK (R443, R447). -/
def noteArrival (s : State) (r : QpRun) (f : Frame) : QpRun :=
  { r with ets := f.bth.ts, etsPath := f.bth.path, delay := (timeNs s % 2 ^ 32 + 2 ^ 32 - f.bth.ts) % 2 ^ 32,
           ce := r.ce + b2n f.ce, ackAt := some (r.ackAt.getD s.clk.now) }

/-- CUMPSN carried over the PSNs already received. -/
def slide : Nat → QpRun → QpRun
  | 0, r => r
  | k + 1, r => if r.map.contains r.cum then slide k { r with map := r.map.erase r.cum, cum := (r.cum + 1) % 2 ^ 32 } else r

/-- A PSN marked as received (R446). -/
def markPsn (r : QpRun) (psn : Nat) : QpRun := slide (r.map.length + 1) { r with map := psn :: r.map }

/-- The first packet's PSN of the message a packet belongs to: a SEND sent again after RNR comes under new PSNs (R453). -/
def baseOf (r : QpRun) (f : Frame) (xh : Nat) : Nat :=
  if f.bth.opc = .send then (f.bth.psn + 2 ^ 32 - XhD xh / r.pmtu % 2 ^ 32) % 2 ^ 32 else 0

/-- A message, and one changed. -/
def rxMsg (r : QpRun) (msn base : Nat) : Option RxMsg := r.msgs.find? fun m => m.msn == msn && m.base == base
def updMsg (r : QpRun) (msn base : Nat) (f : RxMsg → RxMsg) : QpRun :=
  { r with msgs := updFirst (fun m => m.msn == msn && m.base == base) f r.msgs }

/-- The receive slot of a SEND that fails given back: its SEND is not delivered (R453, log 34). -/
def slotBack (r : QpRun) (m : RxMsg) : QpRun :=
  match m.slot with
  | some n => if n + 1 = r.sends then { r with sends := n } else { r with gone := r.gone + 1 }
  | none => r

/-- A message given a syndrome, once (R448). -/
def syndMsg (r : QpRun) (msn base code : Nat) : QpRun :=
  match rxMsg r msn base with
  | none => r
  | some m => if m.synd ≠ 0 ∨ m.done then r else
      let r := slotBack (updMsg r msn base fun m => { m with synd := code }) m
      addSynd { r with unmet := r.unmet.filter (· != msn) ++ [msn] } msn code

/-- The fabric address of receive slot n (R453). -/
def slotAddr (r : QpRun) (n : Nat) : Nat := r.rqBase + n % max 1 r.rqSlots * r.rqSize

/-- Free receive slots of a pair (R453); a SEND takes its slot with its first packet (log 34, DEDUCED). Without slots there is none (R427). -/
def freeSlots (s : State) (e : Nat) (r : QpRun) : Nat :=
  if r.rqSlots = 0 then 0
  else (fld s (Reg.ctr (.rte e) r.freeCtr) Ctr.VALUE + r.rqSlots + r.gone + 2 ^ 32 - r.sends % 2 ^ 32) % 2 ^ 32

/-- Where an operand of an atomic, or a RELAY payload, is the whole of a message's data. -/
def payloadOf (bs : List Byte) : List Byte := bs.drop 24

/-- The SENDs that are committed with every earlier message, delivered (R457): a CTR_ADD when NCEN is set, then a MSG when NMEN and NOTE are. -/
def deliver (s : State) (e q : Nat) (m : RxMsg) : State :=
  let r := qp s e q
  let p : Pkt := { opc := .ctrAdd, src := rteEp (myChip s) e, dst := ⟨myChip s, r.nTile, 0⟩, tenant := r.tenant, prio := 2, layer := m.layer,
                   opid := m.opid }
  let s := setQp s e q (updMsg r m.msn m.base fun m => { m with told := true })
  let s := if r.ncEn then enqueue s { p with addr := r.nCtr, nbytes := 5, data := toLE 4 1 ++ [0] } .none else s
  if r.nmEn && m.note then
    enqueue s { p with opc := .msg, addr := r.nChan, nbytes := 64,
                       data := slice (toLE 8 (slotAddr r (m.slot.getD 0)) ++ toLE 4 m.tlen ++ toLE 3 m.msn) 0 64 } .none
  else s

/-- A READ_REQ or ATOMIC begun: every earlier message is settled (R457). -/
def beginMsg (s : State) (e q : Nat) (m : RxMsg) : State :=
  let r := qp s e q
  let v := mrCheck s e q m.rkey m.va m.tlen (if m.opc = .atomic then 50 else 48) (m.opc == .atomic)
  match v.2 with
  | none => setQp s e q (syndMsg r m.msn m.base v.1)
  | some mr =>
    let a := mr.fbase + (m.va - mr.vbase)
    if m.opc = .atomic then
      let o := if m.d = 0 then Opc.atFadd else if m.d = 1 then Opc.atSwap else Opc.atCas
      let bs := (m.kept.headD (0, [], false)).2.1
      let s := setQp s e q (updMsg r m.msn m.base fun m => { m with begun := true, out := 1 })
      rteLocal s e q o a (if m.d < 2 then m.tlen else 2 * m.tlen) m.layer m.opid bs false (.atom m.msn m.base)
    else
      let ps := pieces a m.tlen
      let s := setQp s e q (updMsg r m.msn m.base fun m => { m with begun := true, out := ps.length, done := ps.isEmpty })
      ps.foldl (fun s x => rteLocal s e q .rdReq x.1 x.2 m.layer m.opid [] false (.read m.msn m.base (x.1 - a) x.2)) s

/-- MSNC carried over settled messages; the next READ_REQ or ATOMIC that is whole begins (R443, R457). -/
def advanceMsn : Nat → State → Nat → Nat → State
  | 0, s, _, _ => s
  | k + 1, s, e, q =>
    let r := qp s e q
    let n := (r.msnc + 1) % 2 ^ 24
    match (r.msgs.filter fun m => m.msn == n).getLast? with
    | none => s
    | some m =>
      if m.settled then advanceMsn k (setQp s e q { r with msnc := n }) e q
      else if (m.opc == .readReq || m.opc == .atomic) && ! m.begun then
        let s := beginMsg s e q m
        advanceMsn k s e q
      else s

/-- A settled message with nothing outstanding is forgotten. -/
def RxMsg.over (r : QpRun) (m : RxMsg) : Bool :=
  m.settled && decide (m.tlen ≤ m.got) && m.out == 0 && (m.told || ! (m.opc == .send && m.done)) && seqLe 24 m.msn r.msnc

/-- After any progress of the receiver: MSNC, deliveries of the SENDs before which every message is committed (R457), and an ACK at once when what it reports has advanced or a syndrome is ready (R447). -/
def rxAdvance (s : State) (e q : Nat) : State :=
  let before := msncOut (qp s e q)
  let s := advanceMsn (2 * (qp s e q).msgs.length + 2) s e q
  let due := (qp s e q).msgs.filter fun m => m.opc == .send && m.done && ! m.told && seqLe 24 m.msn (qp s e q).msnc &&
    ! (qp s e q).unmet.any fun u => u != m.msn && seqLe 24 u m.msn
  let s := due.foldl (fun s m => deliver s e q m) s
  let r := qp s e q
  let s := setQp s e q { r with msgs := r.msgs.filter fun m => ! RxMsg.over r m }
  let after := msncOut (qp s e q)
  if (after ≠ before ∧ seqLe 24 before after) ∨ ! (qp s e q).synds.isEmpty then ackNow s e q else s

/-- Bytes of a message's data placed (R432, R457): one write per 4 KiB block. -/
def placeAt (s : State) (e q : Nat) (m : RxMsg) (a : Nat) (bs : List Byte) (psn : Bool) (mr : Option Nat) : State :=
  let ps := pieces a bs.length
  let s := setQp s e q (updMsg (qp s e q) m.msn m.base fun m => { m with out := m.out + ps.length })
  let s := match mr with | some i => mrOut s e i (· + ps.length) | none => s
  ps.foldl (fun s x => rteLocal s e q .wr x.1 x.2 m.layer m.opid (slice bs (x.1 - a) x.2) psn (.place m.msn m.base mr)) s

/-- The message a packet belongs to, entered when this is its first packet. -/
def enterMsg (r : QpRun) (f : Frame) (xh : Nat) : QpRun × RxMsg :=
  let b := baseOf r f xh
  match rxMsg r f.bth.msn b with
  | some m => (r, m)
  | none =>
    let m : RxMsg := { msn := f.bth.msn, base := b, opc := f.bth.opc, va := XhA xh, rkey := XhB xh, tlen := XhC xh, d := XhD xh % 4,
                       note := XhE xh % 2 == 1, layer := f.bth.layer, opid := f.bth.opid }
    ({ r with msgs := r.msgs ++ [m] }, m)

/-- Bytes of a message received; a WRITE or SEND is done once all have come and every placement is acknowledged (R457). -/
def gotBytes (r : QpRun) (m : RxMsg) (n : Nat) : QpRun := updMsg r m.msn m.base fun m => { m with got := m.got + n }

/-- A message checked for its end; one that had failed before is committed after all (R453). -/
def doneCheck (r : QpRun) (msn base : Nat) : QpRun :=
  let r := updMsg r msn base fun m => { m with done := m.done || (m.synd == 0 && decide (m.tlen ≤ m.got) && m.out == 0) }
  if (rxMsg r msn base).any (·.done) then { r with unmet := r.unmet.filter (· != msn) } else r

/-- A poisoned packet placed: its pair is DEAD and its message takes syndrome POISONED (R462). -/
def poisonMsg (s : State) (e q : Nat) (m : RxMsg) : State :=
  qpDead (setQp s e q (syndMsg (qp s e q) m.msn m.base 6)) e q m.layer m.opid

/-- A data packet at its pair (R426, R446, R447): a pair in ERROR or DEAD answers with its syndrome; duplicates and packets beyond the window
are counted and dropped, and a duplicate that asks for an ACK gets one; every other packet is marked and processed by `k`.
Log 50, DEDUCED. -/
def rteData (s : State) (e q : Nat) (f : Frame) (dup : State → State) (k : State → State) : State :=
  let r := qp s e q
  if qpState s e q = 2 ∨ qpState s e q = 3 then
    ackNow (setQp s e q (addSynd (noteArrival s r f) f.bth.msn (if qpState s e q = 2 then 8 else 7))) e q
  else
    let ahead := (f.bth.psn + 2 ^ 32 - r.cum) % 2 ^ 32
    if 2 ^ 31 ≤ ahead ∨ r.map.contains f.bth.psn then
      let s := { s with rte := { s.rte with dups := eSet 0 e (eGet 0 e s.rte.dups + 1) s.rte.dups } }
      let s := dup (setQp s e q (noteArrival s r f))
      if f.bth.ackreq ∨ (port s e (r.pathPort f.bth.path)).lpi then ackNow s e q else s
    else if 1024 ≤ ahead then bump s (Reg.rteStat e) RteStat.OOW 1
    else
      let s := k (setQp s e q (markPsn (noteArrival s r f) f.bth.psn))
      let s := rxAdvance s e q
      if f.bth.ackreq ∨ (port s e (r.pathPort f.bth.path)).lpi then ackNow s e q else s

/-- WRITE (R432, R457, R462). -/
def execWrite (e k : Nat) (f : Frame) (s : State) : Host.Outcome State Fault Refusal :=
  .next (rteArrive s e k f .write fun s q bs => rteData s e q f id fun s =>
    let xh := ofBE (slice bs 0 24)
    let data := payloadOf bs
    let x := enterMsg (qp s e q) f xh
    let m := x.2
    let v := mrCheck s e q m.rkey m.va m.tlen 49 false
    let code := if m.tlen < XhD xh + data.length then 5 else v.1
    let s := setQp s e q (gotBytes x.1 m data.length)
    let r := qp s e q
    if m.synd ≠ 0 then s
    else match code, v.2 with
      | 0, some mr =>
        let s := placeAt s e q m (mr.fbase + (m.va - mr.vbase) + XhD xh) data f.bth.poison (some mr.idx)
        let s := if f.bth.poison then poisonMsg s e q m else s
        setQp s e q (doneCheck (qp s e q) m.msn m.base)
      | c, _ => setQp s e q (syndMsg r m.msn m.base c))

/-- READ_REQ (R432, R454, R457): executed once every earlier message is settled. -/
def execReadReq (e k : Nat) (f : Frame) (s : State) : Host.Outcome State Fault Refusal :=
  .next (rteArrive s e k f .readReq fun s q bs => rteData s e q f id fun s =>
    let x := enterMsg (qp s e q) f (ofBE (slice bs 0 24))
    let m := x.2
    let v := mrCheck s e q m.rkey m.va m.tlen 48 false
    let r := gotBytes x.1 m m.tlen
    setQp s e q (if v.1 = 0 then r else syndMsg r m.msn m.base v.1))

/-- Response bytes for an operation of this pair written locally (R458, R462). -/
def execReadRsp (e k : Nat) (f : Frame) (s : State) : Host.Outcome State Fault Refusal :=
  .next (rteArrive s e k f .readRsp fun s q bs => rteData s e q f id fun s =>
    let off := XhD (ofBE (slice bs 0 24))
    let data := payloadOf bs
    let r := qp s e q
    match r.open_.find? fun o => o.post.msn == f.bth.msn && o.post.qop == 1 with
    | none => s
    | some o =>
      if o.post.len < off + data.length then s
      else
        let a := o.post.laddr + off
        let ps := pieces a data.length
        let g (o : QpOp) : QpOp := { o with out := o.out + ps.length, psn := o.psn || f.bth.poison }
        let s := setQp s e q { r with ops := updFirst (fun x => x.post.msn == o.post.msn) g r.ops }
        let s := ps.foldl (fun s x =>
          rteLocal s e q .wr x.1 x.2 o.post.layer o.post.opid (slice data (x.1 - a) x.2) f.bth.poison (.back o.post.msn x.2)) s
        if f.bth.poison then qpDead s e q o.post.layer o.post.opid else s)

/-- SEND (R453, R457): the next free slot, or RNR; a SEND longer than a slot takes LENGTH. -/
def execTransportSend (e k : Nat) (f : Frame) (s : State) : Host.Outcome State Fault Refusal :=
  .next (rteArrive s e k f .send fun s q bs => rteData s e q f id fun s =>
    let xh := ofBE (slice bs 0 24)
    let data := payloadOf bs
    let x := enterMsg (qp s e q) f xh
    let m := x.2
    let r := gotBytes x.1 m data.length
    let code := if r.rqSlots = 0 then 1 else if m.tlen < XhD xh + data.length then 5 else if r.rqSize < m.tlen then 3
      else if m.slot.isNone ∧ freeSlots s e r = 0 then 1 else 0
    if m.synd ≠ 0 then setQp s e q r
    else if code ≠ 0 then setQp s e q (syndMsg r m.msn m.base code)
    else
      let r := if m.slot.isSome then r
        else { updMsg r m.msn m.base (fun m => { m with slot := some r.sends }) with sends := r.sends + 1 }
      let s := setQp s e q r
      let s := placeAt s e q m (slotAddr r (m.slot.getD (r.sends - 1)) + XhD xh) data f.bth.poison none
      let s := if f.bth.poison then poisonMsg s e q m else s
      setQp s e q (doneCheck (qp s e q) m.msn m.base))

/-- A packet of the responder's own in the send sequence (R442). -/
def respond (s : State) (e q : Nat) (opc : TOpc) (m : RxMsg) (ps : List (Nat × List Byte × Bool)) : State :=
  let r := qp s e q
  let l : List TxPkt := ps.zipIdx.map fun x =>
    { psn := (r.psn + x.2) % 2 ^ 32, opc := opc, msn := m.msn, k := x.2, last := x.2 + 1 == ps.length,
      xh := if opc = .readRsp then xhOf 0 0 m.tlen x.1.1 0 else 0, buf := [(0, x.1.2.1)], need := x.1.2.1.length, poison := x.1.2.2,
      layer := m.layer, opid := m.opid }
  setQp s e q { r with tx := r.tx ++ l, psn := (r.psn + l.length) % 2 ^ 32 }

/-- ATOMIC (R432, R454, R457): executed once; a duplicate is answered from the results kept of the last 16. -/
def execTransportAtomic (e k : Nat) (f : Frame) (s : State) : Host.Outcome State Fault Refusal :=
  .next (rteArrive s e k f .atomic fun s q bs =>
    let xh := ofBE (slice bs 0 24)
    let data := payloadOf bs
    let known (s : State) : State :=
      match (qp s e q).atoms.find? fun x => x.1 == f.bth.msn with
      | some x => respond s e q .atomicRsp { msn := f.bth.msn, base := 0, opc := .atomic, va := 0, rkey := 0, tlen := 8, d := 0,
                                             layer := f.bth.layer, opid := f.bth.opid } [(0, toLE 8 x.2, false)]
      | none => s
    rteData s e q f known fun s =>
      let x := enterMsg (qp s e q) f xh
      let m := x.2
      let v := mrCheck s e q m.rkey m.va m.tlen 50 true
      let code := if v.1 ≠ 0 then v.1 else if m.d = 3 ∨ data.length ≠ (if m.d = 2 then 2 * m.tlen else m.tlen) then 5 else 0
      let r := updMsg (gotBytes x.1 m m.tlen) m.msn m.base fun m => { m with kept := [(0, data, false)] }
      setQp s e q (if code = 0 then r else syndMsg r m.msn m.base code))

/-- ATOMIC_RSP completes the requester's operation (R438, R458). -/
def execAtomicRsp (e k : Nat) (f : Frame) (s : State) : Host.Outcome State Fault Refusal :=
  .next (rteArrive s e k f .atomicRsp fun s q bs => rteData s e q f id fun s =>
    match (qp s e q).open_.find? fun o => o.post.msn == f.bth.msn && o.post.atomic with
    | none => s
    | some o =>
      let v := ofLE (slice (payloadOf bs) 0 o.post.len)
      if f.bth.poison then qpDead (opEnds s e q o .poisoned v) e q o.post.layer o.post.opid else opEnds s e q o .ok v)

/-! ### Answers to the engine's local accesses -/

/-- A placement acknowledged or failed (R433, R457). -/
def rtePlaced (s : State) (e q msn base : Nat) (mr : Option Nat) (st : Status) : State :=
  let s := match mr with | some i => mrOut s e i (· - 1) | none => s
  let r := updMsg (qp s e q) msn base fun m => { m with out := m.out - 1 }
  let r := if st.good then r else syndMsg r msn base (statusSynd st)
  if qpState s e q = 1 ∨ qpState s e q = 3 then rxAdvance (setQp s e q (doneCheck r msn base)) e q else s

/-- Data of a READ_REQ come in (R462): when all are there, READ_RSP packets carry them. -/
def rteReadData (s : State) (e q msn base off : Nat) (bs : List Byte) (psn : Bool) : State :=
  let r := updMsg (qp s e q) msn base fun m => { m with out := m.out - 1, kept := m.kept ++ [(off, bs, psn)] }
  let s := setQp s e q r
  match rxMsg r msn base with
  | none => s
  | some m =>
    let s := if psn then qpDead s e q m.layer m.opid else s
    if m.out ≠ 0 ∨ m.synd ≠ 0 then rxAdvance s e q
    else
      let data := m.kept.foldl (fun d x => splice d x.1 x.2.1) (List.replicate m.tlen 0)
      let bad (k : Nat) : Bool := m.kept.any fun x => x.2.2 && overlap x.1 x.2.1.length (k * r.pmtu) r.pmtu
      let ps := (List.range (ceilDiv m.tlen r.pmtu)).map fun k =>
        (k * r.pmtu, slice data (k * r.pmtu) (min r.pmtu (m.tlen - k * r.pmtu)), bad k)
      let s := respond s e q .readRsp m ps
      rxAdvance (setQp s e q (updMsg (qp s e q) msn base fun m => { m with done := true, kept := [] })) e q

/-- An atomic's old value come back: it is kept, and ATOMIC_RSP carries it (R454, R462). -/
def rteAtomDone (s : State) (e q msn base : Nat) (bs : List Byte) (psn : Bool) : State :=
  let r := qp s e q
  match rxMsg r msn base with
  | none => s
  | some m =>
    let v := ofLE (slice bs 0 m.tlen)
    let s := setQp s e q { updMsg r msn base (fun m => { m with out := 0, done := true, kept := [] }) with
      atoms := (r.atoms ++ [(msn, v)]).drop (r.atoms.length + 1 - 16) }
    let s := if psn then qpDead s e q m.layer m.opid else s
    rxAdvance (respond s e q .atomicRsp m [(0, toLE 8 v, psn)]) e q

/-- A read or atomic of the responder failed: its message takes the syndrome of the failure. -/
def rteReadFail (s : State) (e q msn base : Nat) (st : Status) : State :=
  let r := updMsg (qp s e q) msn base fun m => { m with out := m.out - 1 }
  rxAdvance (setQp s e q (syndMsg r msn base (statusSynd st))) e q

/-- Response bytes written at the requester (R458): a READ ends when all are, and on a DEAD pair, which takes no more, when none is under way (R462). -/
def rteBack (s : State) (e q msn n : Nat) (st : Status) : State :=
  let r := qp s e q
  match r.open_.find? fun o => o.post.msn == msn with
  | none => s
  | some o =>
    let g (o : QpOp) : QpOp := { o with out := o.out - 1, got := o.got + n }
    let s := setQp s e q { r with ops := updFirst (fun x => x.post.msn == msn && x.fin.isNone) g r.ops }
    let o := g o
    if ! st.good then opEnds s e q o st 0
    else if o.post.len ≤ o.got then opEnds s e q o (if o.psn then .poisoned else .ok) 0
    else if qpState s e q = 3 ∧ o.out = 0 then opEnds s e q o .poisoned 0
    else s

/-- A source read that failed: the pair cannot go on, since its PSNs must be sent (log 35, DEDUCED). -/
def rteSrcFail (s : State) (e q psn : Nat) (st : Status) : State :=
  if (qp s e q).tx.any fun t => t.psn == psn then qpError s e q st else s

/-! ### Acknowledgement at the sender (R449-R452, R458) -/

/-- Fields of an ACK header (R443). -/
def AkCum (h : Nat) : Nat := bits h 511 480
def AkEts (h : Nat) : Nat := bits h 479 448
def AkDelay (h : Nat) : Nat := bits h 447 416
def AkCe (h : Nat) : Nat := bits h 415 400
def AkSynd (h : Nat) : Nat := bits h 399 392
def AkSmsn (h : Nat) : Nat := bits h 391 368
def AkMsnc (h : Nat) : Nat := bits h 367 344

/-- Does an ACK cover a PSN (R443)? -/
def AkHas (h psn : Nat) : Bool :=
  let d := (psn + 2 ^ 32 - (AkCum h + 1)) % 2 ^ 32
  (AkCum h != psn && ! seqLe 32 (AkCum h) psn) || (decide (d < 256) && bit h d)

/-- SRTT and RTTVAR after a sample (R450), in whole ns (log 36, DEDUCED). -/
def rttStep (r : QpRun) (x : Nat) : QpRun :=
  match r.srtt with
  | none => { r with srtt := some x, rttvar := x / 2 }
  | some v =>
    let n := ((v : Int) + ((x : Int) - v) / 8).toNat
    { r with srtt := some n, rttvar := ((r.rttvar : Int) + (((n : Int) - x).natAbs - (r.rttvar : Int)) / 4).toNat }

/-- Packets presumed lost: three packets sent later on the same path are acknowledged (R451). -/
def lossStep (r : QpRun) (newly : List TxPkt) : QpRun :=
  let n (t : TxPkt) : Nat := (newly.filter fun y => y.path == t.path && decide (t.order < y.order)).length
  let f (t : TxPkt) : TxPkt := if t.wait then t else if 3 ≤ t.later + n t then again t else { t with later := t.later + n t }
  { r with tx := r.tx.map f }

/-- What a reported syndrome does (R449, R453). -/
def takeSynd (s : State) (e q msn code : Nat) : State :=
  if code = 7 ∨ code = 8 then qpError s e q (syndStatus code) code
  else match (qp s e q).open_.find? fun o => o.post.msn == msn with
    | none => s
    | some o =>
      if code = 0 ∨ 8 < code then s
      else if code ≠ 1 then opEnds s e q o (syndStatus code) code
      else if o.rnrAt.isSome then s
      else
        let r := qp s e q
        if r.rnrRetry ≤ o.tries then
          opEnds s e q o .retryExhausted (o.first * 2 ^ 32)
        else
          let g (o : QpOp) : QpOp := { o with rnrAt := some s.clk.now }
          setQp s e q { r with ops := updFirst (fun x => x.post.msn == msn && x.fin.isNone) g r.ops }

/-- Is a WRITE, SEND or RELAY ended by an ACK whose MSNC is `c` (R458)? One sent again after RNR waits for its own packets too (log 31, DEDUCED). -/
def opCovered (r : QpRun) (c : Nat) (o : QpOp) : Bool :=
  (o.post.qop == 0 || o.post.qop == 2 || o.post.qop == 7) && seqLe 24 o.post.msn c && o.rnrAt.isNone &&
    (o.tries == 0 || ! r.tx.any fun t => t.msn == o.post.msn && t.opc == .send)

/-- ACK (R443, R446-R453, R458, R475): what it covers is acknowledged; RTT, loss, rate, syndrome and completions follow. -/
def execTransportAck (e k : Nat) (f : Frame) (s : State) : Host.Outcome State Fault Refusal :=
  .next (rteArrive s e k f .ack fun s q bs =>
    let h := ofBE (slice bs 0 64)
    let r := qp s e q
    let newly := r.tx.filter fun t => (! t.wait || t.rtx) && AkHas h t.psn
    let fwd := seqLe 32 (r.acked + 1) (AkCum h)
    let r := { r with
      tx := r.tx.filter fun t => ! ((! t.wait || t.rtx) && AkHas h t.psn),
      acked := if fwd then AkCum h else r.acked,
      suspects := r.suspects.filter fun x => ! (x.probed && x.path == f.bth.path) }
    let r := rttStep r ((timeNs s % 2 ^ 32 + 2 ^ 32 - AkEts h) % 2 ^ 32)
    let s := setQp s e q (lossStep r newly)
    let s := if fwd then setFld s (qpStat e q) RteQpStat.TOSEQ 0 else s
    let s := rateStep s e q newly.length (AkCe h) (AkDelay h)
    let s := takeSynd s e q (AkSmsn h) (AkSynd h)
    ((qp s e q).open_.filter (opCovered (qp s e q) (AkMsnc h))).foldl
      (fun s o => opEnds s e q o (if o.psn then .poisoned else .ok) 0) s)

/-- ACK_DELAY_EXPIRE (R447, R468): ACKDLY after the first arrival that no ACK covers. -/
def execAckDelayExpire (e q : Nat) (s : State) : Host.Outcome State Fault Refusal :=
  .next (match (qp s e q).ackAt with
    | none => s
    | some g => ackNow (advanceTo s (g + cycleAt (min 1000 (max 1 (fld s (Reg.rteCfg e) RteCfg.ACKDLY))))) e q)

/-- RNR_RETRY (R453): RNRWAIT after the answer, the whole message is sent again under new PSNs. -/
def execRnrRetry (e q : Nat) (s : State) : Host.Outcome State Fault Refusal :=
  let r := qp s e q
  .next (match r.open_.find? fun o => o.rnrAt.isSome with
    | none => s
    | some o =>
      if qpState s e q ≠ 1 then s
      else
        let s := advanceTo s (o.rnrAt.getD 0 + usCycles r.rnrWait)
        let g (o : QpOp) : QpOp := { o with rnrAt := none, tries := o.tries + 1 }
        sendOp (setQp s e q { r with ops := updFirst (fun x => x.post.msn == o.post.msn) g r.ops }) e q o.post)

/-- PATH_PROBE (R456): after PSUSP one PROBE goes out on a suspect path. -/
def execPathProbe (e q : Nat) (s : State) : Host.Outcome State Fault Refusal :=
  let r := qp s e q
  .next (match r.suspects.find? fun x => ! x.probed && portOn s e (r.pathPort x.path) with
    | none => s
    | some x =>
      let s := advanceTo s x.until_
      let s := setQp s e q { r with suspects := updFirst (· == x) (fun x => { x with probed := true }) r.suspects }
      putCtl s e (r.pathPort x.path) r.tclass
        (frameOf s e q r x.path { opc := .probe, ackreq := true } (List.replicate 24 0) false))

/-- PROBE (R456): answered with an ACK. -/
def execProbe (e k : Nat) (f : Frame) (s : State) : Host.Outcome State Fault Refusal :=
  .next (rteArrive s e k f .probe fun s q _ => ackNow (setQp s e q (noteArrival s (qp s e q) f)) e q)

/-! ### Closing (R464, R465) -/

/-- A CLOSE frame of a pair put into its control queue, on its first path whose port is up. -/
def putClose (s : State) (e q : Nat) (r : QpRun) (reason : Nat) : State :=
  match nextPath s e r none with
  | none => s
  | some p => putCtl s e (r.pathPort p) r.tclass (frameOf s e q r p { opc := .close } (toBE 24 (xhOf 0 reason 0 0 0)) false)

/-- A pair closed by its own side (R464): CLOSE three times, 4 µs apart; its own operations end with the reason's status. -/
def qpClose (s : State) (e q reason : Nat) : State :=
  let r := qp s e q
  if qpState s e q = 0 then s
  else
    let s := putClose s e q r reason
    let s := { s with rte := { s.rte with closing := s.rte.closing ++ [⟨e, q, r.par, r.txctr, reason, 2, s.clk.now⟩] } }
    qpError s e q (if reason = 2 then .hostLost else .aborted)

/-- Every pair closed (R464). -/
def closePairs (s : State) (reason : Nat) : State :=
  (s.rte.qps.filter fun q => qpState s (q.1 / 16384) (q.1 % 16384) != 0).foldl (fun s q => qpClose s (q.1 / 16384) (q.1 % 16384) reason) s

/-- CLOSE (R464): the peer's reason moves the pair to ERROR. -/
def execTransportClose (e k : Nat) (f : Frame) (s : State) : Host.Outcome State Fault Refusal :=
  .next (rteArrive s e k f .close fun s q bs =>
    qpError s e q (if XhB (ofBE (slice bs 0 24)) % 256 = 2 then .hostLost else .aborted))

/-- CLOSE_RESEND (R464): 4 µs after the previous one. -/
def execCloseResend (e q : Nat) (s : State) : Host.Outcome State Fault Refusal :=
  .next (match s.rte.closing.find? fun c => c.e == e && c.q == q && c.left != 0 with
    | none => s
    | some c =>
      let s := advanceTo s (c.last + usCycles 4)
      let s := putClose s e q { par := c.par, txctr := c.txctr } c.reason
      let l := updFirst (· == c) (fun c => { c with left := c.left - 1, last := s.clk.now }) s.rte.closing
      closeTidy { s with rte := { s.rte with closing := l } })

/-! ### Creating and destroying (R427, R428, R430, R433, R465) -/

/-- Does a block break R427? -/
def qpBlockBad (s : State) (e : Nat) (r : QpRun) : Bool :=
  let lip (k : Nat) : Bool := ownIp s e k r.v6 r.lip
  bits (r.w 0) 61 60 == 3 || r.ports.isEmpty || r.retry == 0 || bit (r.w 0) 26 || decide (2 ^ 24 ≤ r.rqpn) || r.rqpn / 2 ^ 15 != 0 ||
    r.spBase % 64 != 0 || decide (r.spBase < 49152) || decide (bits (r.w 3) 15 0 < 16) ||
    (! r.v6 && (r.w 4 != 0 || r.w 6 != 0 || decide (2 ^ 32 ≤ r.w 5) || decide (2 ^ 32 ≤ r.w 7))) || ! r.ports.any lip ||
    decide (8 < bits (r.w 8) 63 60) || bits (r.w 8) 59 56 != 0 || (region r.rqBase != 0 && region r.rqBase != 1) ||
    bits (r.w 9) 45 43 != 0 || bits (r.w 9) 14 12 != 0

/-- Do the slots or the notification target lie outside the tenant's partition, or is an open pair asked for on a sealed one (R428, R552)? -/
def qpBlockForeign (s : State) (e : Nat) (r : QpRun) : Bool :=
  let n := r.rqSlots * r.rqSize
  (n != 0 && ((rangeCheck s false (myChip s) r.rqBase n).isSome || rangeForeign s r.tenant (myChip s) r.rqBase n)) ||
    ! (good s r.nTile && owner s r.nTile == r.tenant) || (! r.enc && sealedT s r.tenant) ||
    (r.enc && (qpKeys s e r).tenant != 0 && (qpKeys s e r).tenant != r.tenant)

/-- The lowest FREE pair of an engine that is not closing. -/
def freeQp (s : State) (e : Nat) : Option Nat :=
  (List.range 16384).find? fun q => qpState s e q == 0 && ! s.rte.closing.any fun c => c.e == e && c.q == q

/-- A pair created READY (R428, R471). -/
def qpMake (s : State) (e q : Nat) (r : QpRun) : State :=
  let r := { r with psn := bits (r.w 2) 63 32, cum := bits (r.w 2) 31 0, acked := bits (r.w 2) 63 32 }
  let s := wrReg (wrReg s (qpStat e q) 0) (qpCc e q) 0
  let s := setQp (setQpState s e q 1 .ok) e q r
  let s := wrReg s (Reg.ctr (.rte e) r.freeCtr) 0
  setRate s e q (min (fld s (Reg.rteCcpa e r.prof) RteCcpa.RINIT) (rmax s e r))

/-- A pair destroyed (R464, R465): CLOSE goes out, its operations end `ST_ABORTED`, and it is FREE. -/
def qpDestroy (s : State) (e q : Nat) : State :=
  let s := qpClose s e q 1
  let s := setQp s e q { (qp s e q) with sendQ := [], tx := [], msgs := [], suspects := [], par := [] }
  setQpState s e q 0 .ok

/-- Does a region's block break R430, or its range leave the tenant's partition? -/
def mrBlockBad (s : State) (t : Nat) (m : MrRun) : Bool :=
  bits (m.w.getD 1 0) 63 56 != 0 || bits (m.w.getD 2 0) 63 51 != 0 || bits (m.w.getD 2 0) 47 40 != 0 || bits (m.w.getD 3 0) 62 15 != 0 ||
    m.len == 0 || (region m.fbase != 0 && region m.fbase != 1 && region m.fbase != 3) || (m.right 50 && region m.fbase == 3) ||
    (rangeCheck s false (myChip s) m.fbase m.len).isSome || rangeForeign s t (myChip s) m.fbase m.len

/-- The lowest free region index of an engine. -/
def freeMr (s : State) (e : Nat) : Option Nat := (List.range 16384).find? fun i => ! s.rte.mrs.any fun m => m.e == e && m.idx == i

/-- A region registered: its index and the generation that firmware advances each time (R431). -/
def mrMake (s : State) (e i t : Nat) (w : List Nat) : State × Nat :=
  let g := eGet 0 (16384 * e + i) s.rte.gens
  let s := { s with rte := { s.rte with mrs := s.rte.mrs ++ [⟨e, i, g, t, w, true, 0⟩],
                                        gens := eSet 0 (16384 * e + i) ((g + 1) % 2 ^ 18) s.rte.gens } }
  (s, i * 2 ^ 18 + g)

/-- A key invalidated (R433); the region goes once its admitted placements are acknowledged. -/
def mrDrop (s : State) (e i : Nat) : State :=
  let l := updFirst (fun m => m.e == e && m.idx == i) (fun m => { m with valid := false }) s.rte.mrs
  { s with rte := { s.rte with mrs := l.filter fun m => m.valid || m.out != 0 } }

end Sys2Proof.Machine
end

