-- ==== Sys2Proof/Machine/HostPort.lean ====
section
/-!
DEFINITION. The host port (chapter 10): doorbells, descriptor fetches, the commands of kinds 0x01-0x07, and completion.
-/
namespace Sys2Proof.Machine

/-! ### Doorbells (R363-R365, R372) -/

/-- CR_DOORBELL (R363-R365): the advance of TAIL is published to the executor; any write resumes a stalled ring (R372). A ring that is off, or
whose function is not ready, ignores it (R365, R384, R386). -/
def execCrDoorbell (fn r v : Nat) (s : State) : Host.Outcome State Fault Refusal :=
  .next (if ! ringOn s fn r then s
    else
      let x := Reg.hpCrStat fn r
      let size := ringSize s fn r
      let new := bits v 15 0 % size
      let adv := (new + size - fld s x HpCrStat.TAIL % size) % size
      let s := setFld s x HpCrStat.TAIL new
      let s := if fld s x HpCrStat.STATE = 2 then setFld s x HpCrStat.STATE 1 else s
      let s := setRing s fn r { ring s fn r with published := ((ring s fn r).published + adv) % 2 ^ 32, stale := false }
      hpCount s fn (ringEx s fn r) (fld s (Reg.hpCrCfgb fn r) HpCrCfgb.DBCTR) adv)

/-- The first enabled command ring that a completion ring serves. -/
def ringOfCq (s : State) (fn q : Nat) : Option Nat :=
  (List.range 16).find? fun r => flag s (Reg.hpCrCfg fn r) HpCrCfg.EN && cqOf s fn r == q

/-- CQ_DOORBELL (R363, R364): records are released, their number goes to CQCTR at the executor, and ARM arms the ring's interrupt. -/
def execCqDoorbell (fn q v : Nat) (s : State) : Host.Outcome State Fault Refusal :=
  .next (if 64 ≤ fn ∨ 16 ≤ q ∨ fnState s fn ≠ 1 ∨ ! s.host.linkUp ∨ ! flag s (Reg.hpCqCfg fn q) HpCqCfg.EN then s
    else
      let size := cqSize s fn q
      let k := cq s fn q
      let new := bits v 15 0 % size
      let n := (new + size - k.head % size) % size
      let s := setCq s fn q { k with head := new, released := (k.released + n) % 2 ^ 32, armed := k.armed || bit v 31 }
      match ringOfCq s fn q with
      | some r => hpCount s fn (ringEx s fn r) (fld s (Reg.hpCrCfgb fn r) HpCrCfgb.CQCTR) n
      | none => s)

/-! ### Fetching (R371, R372) -/

/-- DESCRIPTOR_FETCH (R371): the descriptor at HEAD and the three slots after it, as the host's memory answers. Log 5, DEDUCED. -/
def execDescriptorFetch (fn r : Nat) (d : HostData) (s : State) : Host.Outcome State Fault Refusal :=
  .next (if mayFetch s fn r && (ring s fn r).t0.isNone then fetchDesc s fn r d else s)

/-- DESCRIPTOR_REREAD (R372): REREAD after the data of the last failing read. -/
def execDescriptorReread (fn r : Nat) (d : HostData) (s : State) : Host.Outcome State Fault Refusal :=
  .next (if mayFetch s fn r && (ring s fn r).t0.isSome then
      fetchDesc (advanceTo s ((ring s fn r).lastData + rereadCycles s)) fn r d
    else s)

/-! ### Commands (R369, R375, R376) -/

/-- A command of one kind started, checked and run. -/
def runKind (s : State) (src : CmdSrc) (kind : Nat) (k : State → Cmd → State) : State :=
  startCmd s src (· == kind) fun s c => match checkCmd s c with
    | some st => endAt s c st
    | none => k s c

/-- NOP (R369); a command whose kind is invalid completes `ST_BAD_DESCRIPTOR` here. -/
def execNop (src : CmdSrc) (s : State) : Host.Outcome State Fault Refusal :=
  .next (startCmd s src (fun k => k == 1 || ! kindKnown k) fun s c =>
    if ! kindKnown (Desc_cmd c.desc) then endAt s c .badDescriptor
    else match checkCmd s c with
      | some st => endAt s c st
      | none => endAt s c .ok)

/-- COPY (R375). -/
def execCopy (src : CmdSrc) (s : State) : Host.Outcome State Fault Refusal := .next (runKind s src 2 runCopy)

/-- WRITE_INLINE (R375). -/
def execWriteInline (src : CmdSrc) (s : State) : Host.Outcome State Fault Refusal := .next (runKind s src 3 runWriteInline)

/-- ATOMIC (R375). -/
def execAtomic (src : CmdSrc) (s : State) : Host.Outcome State Fault Refusal := .next (runKind s src 4 runAtomic)

/-- MCAST_WRITE (R131). -/
def execMcastWrite (src : CmdSrc) (s : State) : Host.Outcome State Fault Refusal := .next (runKind s src 5 runMcast)

/-- CONTRIB (R375). -/
def execContrib (src : CmdSrc) (s : State) : Host.Outcome State Fault Refusal := .next (runKind s src 6 runContrib)

/-- CTR_ADD as a command (R375). -/
def execCtrAddCommand (src : CmdSrc) (s : State) : Host.Outcome State Fault Refusal := .next (runKind s src 7 runCtrAdd)

/-! ### Completion (R379) -/

/-- COMMAND_COMPLETE (R379): nothing of the command is outstanding; what its kind does at its end happens, and its record is issued. -/
def execCommandComplete (id : Nat) (s : State) : Host.Outcome State Fault Refusal :=
  .next (match cmdOf s id with
    | none => s
    | some c =>
      if c.left ≠ 0 ∨ ! qpMayFinish s id then s
      else
        let c := retStatus s (if c.poison && c.status.good then { c with status := .poisoned } else c)
        settle (qpOpDone (finishCmd (retDone (lastDone s c) c) c) id))

/-! ### Aborting a started command (R384, R386, R561) -/

/-- Requests of a command in flight. -/
def inFlight (s : State) (id : Nat) : Nat := (s.dyn.txns.filter fun x => Purpose_cmd x.why == some id).length

/-- The engine work of a command dropped: a running collective, a sluice phase, a RETURN. -/
def dropWork (s : State) (c : Cmd) (st : Status) : State :=
  let s := match s.coll.ops.find? fun o => o.cmd == c.id && Desc_cmd o.desc == 8 with
    | some o => collEnd s o st 0
    | none => s
  let s := (s.slu.ops.filter fun o => o.cmd == c.id && o.phase != .done).foldl (fun s o =>
    let f := sluFail s { o with phase := .done, since := s.clk.now, homes := [] } st
    let s := setFld (putSlu f.1 f.2) (sluReg o) TniSluOstat.STATE 2
    { s with coll := { s.coll with ops := s.coll.ops.filter fun x => ! (x.cmd == c.id && Desc_cmd x.desc == 9) } }) s
  let s := (s.slu.ops.filter fun o => match o.combine with | some (i, _) => i == c.id | none => false).foldl
    (fun s o => combineEnd s o c.id st 0 0) s
  qpDrop { s with slu := { s.slu with rets := s.slu.rets.filter fun r => r.cmd != c.id } } c.id

/-- A started command aborted with a status: its requests that have not left are dropped, and it ends when those in flight are answered. -/
def abortCmd (s : State) (c : Cmd) (st : Status) : State :=
  let s := dropWork s c st
  let s := (s.dyn.waiting.filter fun r => Purpose_cmd r.why == some c.id).foldl (fun s r => dropReq s r.id) s
  updCmd s c.id fun x => { x with status := st, left := inFlight s c.id, stopped := true }

end Sys2Proof.Machine
end

