-- ==== Sys2Proof/Machine/Pcs.lean ====
section
/-!
DEFINITION. The line code of a lane port (R496-R502): characters, the 8b/10b code with a running disparity for each lane, and the columns in which
the bytes of a block travel.
-/
namespace Sys2Proof.Machine

/-- A character before coding: whether it is a K character, and its octet. -/
abbrev Chr := Bool × Nat

/-! ### The 8b/10b code of IEEE 802.3 Clause 36 (R498): bit 9 of a code is its first bit on the lane -/

/-- abcdei of D.x at negative disparity, x = 0-31. -/
def code6 : List Nat :=
  [0b100111, 0b011101, 0b101101, 0b110001, 0b110101, 0b101001, 0b011001, 0b111000, 0b111001, 0b100101, 0b010101, 0b110100, 0b001101, 0b101100,
   0b011100, 0b010111, 0b011011, 0b100011, 0b010011, 0b110010, 0b001011, 0b101010, 0b011010, 0b111010, 0b110011, 0b100110, 0b010110, 0b110110,
   0b001110, 0b101110, 0b011110, 0b101011]

/-- fghj of D.x.y at negative disparity, y = 0-7 (y = 7 in its primary form), and of K28.y after the 001111 of negative disparity. -/
def code4 : List Nat := [0b1011, 0b1001, 0b0101, 0b1100, 0b1101, 0b1010, 0b0110, 0b1110]
def codeK28 : List Nat := [0b0100, 0b1001, 0b0101, 0b0011, 0b0010, 0b1010, 0b0110, 0b1000]

/-- One bits among the low n bits. -/
def ones : Nat → Nat → Nat
  | 0, _ => 0
  | n + 1, v => v % 2 + ones n (v / 2)

/-- Disparity after a sub-block of 2·h bits: the sign of its excess of ones or zeros; 000111 and 0011 leave it positive, 111000 and 1100 negative. -/
def dispAfter (h : Nat) (rd : Bool) (v : Nat) : Bool :=
  if h < ones (2 * h) v then true
  else if ones (2 * h) v < h then false
  else if v = 2 ^ h - 1 then true
  else if v = (2 ^ h - 1) * 2 ^ h then false
  else rd

/-- A sub-block at a disparity: at positive disparity those of unequal ones and zeros, and those that the disparity alone tells apart, are inverted. -/
def subBlock (h : Nat) (rd : Bool) (v : Nat) : Nat :=
  if rd && (ones (2 * h) v != h || v == (2 ^ h - 1) * 2 ^ h) then 2 ^ (2 * h) - 1 - v else v

/-- Does D.x.7 take its alternate form at the disparity before fghj? -/
def altSeven (rd : Bool) (x : Nat) : Bool := if rd then x == 11 || x == 13 || x == 14 else x == 17 || x == 18 || x == 20

/-- The 10-bit code of a character at a lane's disparity; an octet that is no K character of the code has none, and stands as 0. -/
def enc10 (rd : Bool) (c : Chr) : Nat :=
  let x := c.2 % 32
  let y := c.2 / 32 % 8
  if ! c.1 then
    let a := subBlock 3 rd (code6.getD x 0)
    let rd := dispAfter 3 rd a
    let b := if y == 7 && altSeven rd x then (if rd then 0b1000 else 0b0111) else subBlock 2 rd (code4.getD y 0)
    a * 16 + b
  else
    let v := if x = 28 then 0b001111 * 16 + codeK28.getD y 0
      else if y = 7 ∧ (x = 23 ∨ x = 27 ∨ x = 29 ∨ x = 30) then code6.getD x 0 * 16 + 0b1000
      else 0
    if v ≠ 0 ∧ rd then 1023 - v else v

/-- A lane's disparity after a code. -/
def rdAfter (rd : Bool) (v : Nat) : Bool := dispAfter 2 (dispAfter 3 rd (v / 16)) (v % 16)

/-- The characters whose code a receiver may be reading: those of its six bits, and the K characters. -/
def readings (v : Nat) : List Chr :=
  let xs := (List.range 32).filter fun x => code6.getD x 0 == v / 16 || subBlock 3 true (code6.getD x 0) == v / 16
  xs.flatMap (fun x => (List.range 8).map fun y => (false, 32 * y + x)) ++
    ((List.range 8).map fun y => (true, 32 * y + 28)) ++ [(true, 0xF7), (true, 0xFB), (true, 0xFD), (true, 0xFE)]

/-- A received code (R498): the character it stands for, if any, and whether it is an error: no code at all, or one of the other disparity. -/
def dec10 (rd : Bool) (v : Nat) : Option Chr × Bool :=
  match (readings v).find? fun c => enc10 rd c == v with
  | some c => (some c, v == 0)
  | none => ((readings v).find? fun c => enc10 (! rd) c == v, true)

/-! ### Columns (R496, R497) -/

/-- Disparities of the lanes in use. -/
def rdsOf (w : Nat) (l : List Bool) : List Bool := (List.range w).map fun i => l.getD i false

/-- k columns of a block's characters, one on each lane in use: character i travels on lane i mod W in column i div W. Codes, and the disparities
after them. -/
def codeCols : Nat → List Bool → List Chr → List (List Nat) × List Bool
  | 0, rds, _ => ([], rds)
  | k + 1, rds, cs =>
    let col := (rds.zip cs).map fun x => enc10 x.1 x.2
    let r := codeCols k ((rds.zip col).map fun x => rdAfter x.1 x.2) (cs.drop rds.length)
    (col :: r.1, r.2)

/-- k received columns read back: the characters in byte order, the errors of each lane, and the disparities after them. A missing character is an
error of its lane. -/
def readCols : Nat → List Bool → List (List Nat) → List (Option Chr) × List Nat × List Bool
  | 0, rds, _ => ([], rds.map fun _ => 0, rds)
  | k + 1, rds, cols =>
    let col := (List.range rds.length).map fun i => (cols.headD []).getD i 0
    let ds := (rds.zip col).map fun x => dec10 x.1 x.2
    let r := readCols k ((rds.zip col).map fun x => rdAfter x.1 x.2) (cols.drop 1)
    (ds.map Prod.fst ++ r.1, (ds.zip r.2.1).map fun x => (if x.1.2 then 1 else 0) + x.2, r.2.2)

/-- The first lane's first code made an invalid one (R530; all zeros, log 151, DESIGN CHOICE). -/
def spoil : List (List Nat) → List (List Nat)
  | [] => []
  | c :: r => (0 :: c.drop 1) :: r

/-- The next bit of each lane of a mask inverted (R530). -/
def flipFirst (m : Nat) : List (List Nat) → List (List Nat)
  | [] => []
  | c :: r => (c.zipIdx.map fun x => if bit m x.2 then x.1 ^^^ 512 else x.1) :: r

/-! ### Blocks as characters (R500-R502) -/

/-- Bytes as data characters. -/
def dataChrs (bs : List Byte) : List Chr := bs.map fun b => (false, b.toNat)

/-- A control block: its kind is the K character. -/
def ctlChrs (b : CtlBlock) : List Chr :=
  (true, b.kind) :: dataChrs (toLE 1 b.sub ++ slice b.content 0 154 ++ toLE 4 b.crc)

/-- A link flit. -/
def flitChrs (f : LinkFlit) : List Chr :=
  dataChrs (slice f.bytes 0 152 ++ toLE 4 (f.seq * 2 ^ 20 + f.ack * 2 ^ 8 + f.low) ++ toLE 4 f.crc)

/-- An ALIGN block over w lanes from lane `base` on (R501): K28.5 on every lane, the lane's own number, then D10.2. -/
def alignChrs (base w : Nat) : List Chr :=
  (List.range 160).map fun i => if i < w then (true, 0xBC) else if i < 2 * w then (false, base + i - w) else (false, 0x4A)

/-- The octets of characters read; one that stands for none counts as 0. -/
def octets (cs : List (Option Chr)) : List Byte := cs.map fun c => BitVec.ofNat 8 ((c.map Prod.snd).getD 0)

/-- Are all characters data? -/
def allData (cs : List (Option Chr)) : Bool := cs.all fun c => match c with | some (k, _) => ! k | none => false

/-- A control block and a link flit read from characters. -/
def ctlOfChrs (cs : List (Option Chr)) : CtlBlock :=
  let o := octets cs
  { kind := (o.headD 0).toNat, sub := (o.getD 1 0).toNat, content := slice o 2 154, crc := ofLE (slice o 156 4) }
def flitOfChrs (cs : List (Option Chr)) : LinkFlit :=
  let o := octets cs
  let t := ofLE (slice o 152 4)
  { bytes := slice o 0 152, seq := bits t 31 20, ack := bits t 19 8, low := bits t 7 0, crc := ofLE (slice o 156 4) }

end Sys2Proof.Machine
end

