-- ==== Sys2Proof/Machine/Lane.lean ====
section
/-!
DEFINITION. Lane ports (chapter 14): blocks, retry, credits, training, power states, encrypted runs (R555-R557), time samples (R645) and the
test facilities.
-/
namespace Sys2Proof.Machine

/-! ### Records -/

/-- A port's working state. -/
def lane (s : State) (n : Nat) : LaneRun := eGet {} n s.lane.runs
def setLane (s : State) (n : Nat) (r : LaneRun) : State := { s with lane := { s.lane with runs := eSet {} n r s.lane.runs } }

/-- STATE (R517): 0 RESET, 1 DETECT, 2 ALIGN, 3 EQ, 4 CONFIG, 5 ACTIVE, 6 RECOVERY, 7 QUIET, 8 DEEP, 9 TEST, 10 LOOPED, 11 DOWN. -/
def lpState (s : State) (n : Nat) : Nat := fld s (Reg.lpState n) LpState.STATE

/-- Does a port carry blocks: ACTIVE, or idle in one direction? -/
def lpActive (s : State) (n : Nat) : Bool := lpState s n == 5 || lpState s n == 7

/-- WIDTH set: the port's arbiter changes its pace with it (R496). -/
def setWidth (s : State) (n w : Nat) : State :=
  if fld s (Reg.lpState n) LpState.WIDTH = w then s else setFld (arbPace s (.lp n)) (Reg.lpState n) LpState.WIDTH w

/-- A state entered: on leaving ACTIVE the measured offset is cleared (R646); in RESET, DETECT and DOWN no lane is good, in use or locked (R533, R534). -/
def toState (s : State) (n v : Nat) : State :=
  let leaves := lpActive s n && v != 5 && v != 7
  let s := setFld s (Reg.lpState n) LpState.STATE v
  let s := setLane s n { lane s n with since := s.clk.now, measuring := (lane s n).measuring && ! leaves,
                                       samples := if leaves then [] else (lane s n).samples }
  let s := if v = 0 ∨ v = 1 ∨ v = 11 then
      (List.range 32).foldl (fun s l => setFld s (Reg.lpLaneStat n l) LpLaneStat.LOCK 0)
        (setFld (setWidth s n 0) (Reg.lpState n) LpState.LANEOK 0)
    else s
  if leaves then wrReg (wrReg s (Reg.lpTofs n) 0) (Reg.lpTdly n) 0 else s

/-- LASTERR set (R521). -/
def lastErr (s : State) (n v : Nat) : State := setFld s (Reg.lpState n) LpState.LASTERR v

/-- A record of a port's link detector (R508, R519, R625). -/
def laneLog (s : State) (n cls : Nat) : State :=
  log s { errOf (unitCode .lp n) .lane cls with synd := fld s (Reg.lpState n) LpState.LASTERR }

/-- A count of the port's link register (R534). -/
def linkCount (s : State) (n : Nat) (f : Fld) : State := bump s (Reg.lpLinkStat n) f 1

/-- The lanes in use (R497, R519): the first of them and their number, all 32 until a width is chosen (log 151, DESIGN CHOICE). -/
def laneBase (s : State) (n : Nat) : Nat := if fld s (Reg.lpState n) LpState.WIDTH = 2 then 16 else 0
def laneWidth (s : State) (n : Nat) : Nat := if halfWide s n then 16 else 32

/-- A block sent, on the lanes in use (R497, R498): its characters coded at each lane's disparity, with an invalid code first, or the next
bit of each lane of INJMASK inverted, where an injection asks for it; a test pattern travels as raw bits (R530). -/
def emit (s : State) (n : Nat) (r : LaneRun) (o : LaneOut) : LaneRun :=
  let w := laneWidth s n
  let put (cs : List Chr) (bad : Bool) : LaneRun :=
    let c := codeCols (160 / w) (rdsOf w r.txRd) cs
    let m := if r.injBit then fld s (Reg.lpTestCtl n) LpTestCtl.INJMASK / 2 ^ laneBase s n else 0
    { r with out := r.out ++ [o], wire := r.wire ++ flipFirst m (if bad then spoil c.1 else c.1), txRd := c.2, injBit := false }
  match o with
  | .align => put (alignChrs (laneBase s n) w) false
  | .ctl b => put (ctlChrs b) b.badCode
  | .flit f => put (flitChrs f) f.badCode
  | .prbs _ _ => { r with out := r.out ++ [o] }

def laneOut (s : State) (n : Nat) (o : LaneOut) : State := setLane s n (emit s n (lane s n) o)

/-! ### Control blocks (R499, R500) -/

/-- The octets of the kinds. -/
def kAlign : Nat := 0xBC
def kTs : Nat := 0x3C
def kIdle : Nat := 0x1C
def kSp : Nat := 0x5C
def kRetry : Nat := 0x7C
def kCtl : Nat := 0x9C
def kDeep : Nat := 0xDC
def kQuiet : Nat := 0xFB
def kTag : Nat := 0xF7

/-- The CRC of a control block (R500). -/
def ctlCrc (b : CtlBlock) : Nat := crc32 ([BitVec.ofNat 8 b.kind, BitVec.ofNat 8 b.sub] ++ slice b.content 0 154)

/-- A control block with its CRC. -/
def ctlBlock (kind sub : Nat) (content : List Byte) : CtlBlock :=
  let b : CtlBlock := { kind := kind, sub := sub, content := slice content 0 154 }
  { b with crc := ctlCrc b }

/-- A block received as its characters, when its codes show no error: the disparities move on. -/
def rxMove (s : State) (n : Nat) (cs : List Chr) : State :=
  let k := laneWidth s n
  setLane s n { lane s n with rxRd := (codeCols (160 / k) (rdsOf k (lane s n).rxRd) cs).2 }

/-- A block received as codes (R497, R498): the characters read, and whether none was an error. Each invalid code and disparity error counts in CODEERR
of its lane, which is the mirrored one where the lanes arrive reversed. With no columns told, the block is that of `cs` with an invalid first code. -/
def rxCols (s : State) (n : Nat) (cols : List (List Nat)) (cs : List Chr) : State × List (Option Chr) × Bool :=
  let k := laneWidth s n
  let rds := rdsOf k (lane s n).rxRd
  let d := readCols (160 / k) rds (if cols.isEmpty then spoil (codeCols (160 / k) rds cs).1 else cols)
  let s := setLane s n { lane s n with rxRd := d.2.2 }
  let at_ (i : Nat) : Nat := if flag s (Reg.lpState n) LpState.REV then 31 - (laneBase s n + i) else laneBase s n + i
  (d.2.1.zipIdx.foldl (fun s x => bump s (Reg.lpLaneStat n (at_ x.2)) LpLaneStat.CODEERR x.1) s, d.1, d.2.1.all (· == 0))

/-- A block rejected (R505): RETRY once for the present ESEQ, and CRCERR for its first such block; a run under way is given up. -/
def rejectBlk (s : State) (n : Nat) : State :=
  let r := lane s n
  let s := if r.counted then s else linkCount s n LpLinkStat.CRCERR
  setLane s n { lane s n with counted := true, retryDue := r.retryDue || ! r.told, run := none }

/-- K28.7, K29.7 and K30.7 begin no block (R499). -/
def kNever (k : Nat) : Bool := k == 0xFC || k == 0xFD || k == 0xFE

/-- A control block's characters judged (R499, R500), `clean` when no code was an error: the block of kind `kind`, or none where it is discarded. What
begins with a data character is a link flit; one that fails its CRC or holds another K character counts in CTLBAD. -/
def ctlJudge (s : State) (n kind : Nat) (clean : Bool) (cs : List (Option Chr)) : State × Option CtlBlock :=
  match cs with
  | some (false, _) :: _ => (rejectBlk s n, none)
  | some (true, k) :: r =>
    if clean && allData r && k == kind && (ctlOfChrs cs).crc == ctlCrc (ctlOfChrs cs) then (s, some (ctlOfChrs cs))
    else (linkCount s n LpLinkStat.CTLBAD, none)
  | _ => (linkCount s n LpLinkStat.CTLBAD, none)

/-- The IDLE blocks that came since the last block told, of which no row tells (R499). -/
def rxIdles (s : State) (n : Nat) (l : List (List (List Nat))) : State :=
  l.foldl (fun s cols =>
    if cols.isEmpty then rxMove s n (ctlChrs (ctlBlock kIdle 0 []))
    else
      let x := rxCols s n cols []
      (ctlJudge x.1 n kIdle x.2.2 x.2.1).1) s

/-- A block received after the IDLE blocks before it: without an error in its codes, and as codes. -/
def rxClean (s : State) (n : Nat) (w : OnLanes) (cs : List Chr) : State := rxMove (rxIdles s n w.idle) n cs
def rxCoded (s : State) (n : Nat) (w : OnLanes) (cs : List Chr) : State × List (Option Chr) × Bool := rxCols (rxIdles s n w.idle) n w.cols cs

/-- A control block as it is received: itself when it comes without a code error and its CRC is right, else what the codes say. -/
def rxCtl (s : State) (n : Nat) (b : CtlBlock) : State × Option CtlBlock :=
  if b.wire.cols.isEmpty && ! b.badCode then
    let s := rxClean s n b.wire (ctlChrs b)
    if b.crc ≠ ctlCrc b then (linkCount s n LpLinkStat.CTLBAD, none) else (s, some b)
  else
    let x := rxCoded s n b.wire (ctlChrs b)
    ctlJudge x.1 n b.kind x.2.2 x.2.1

/-- Does a port receive blocks (R517)? -/
def lpReceives (s : State) (n : Nat) : Bool := decide (2 ≤ lpState s n) && decide (lpState s n ≤ 7)

/-- A control block received: one of another kind is none of the row's, unless no block begins so; a sound one in a state that does not take its kind is
ignored (R499, R500). -/
def ctlIn (s : State) (n kind : Nat) (b : CtlBlock) (states : List Nat) (k : CtlBlock → State → State) : State :=
  if ! lpReceives s n then s
  else if kNever b.kind then linkCount (rxClean s n b.wire (ctlChrs b)) n LpLinkStat.CTLBAD
  else if b.kind ≠ kind then s
  else
    let x := rxCtl s n b
    match x.2 with
    | none => x.1
    | some b => if states.contains (lpState s n) then k b x.1 else x.1

/-- The sizes of the virtual channels in flits (R509). -/
def vcSizes (s : State) (n : Nat) : List Nat :=
  let l := (List.range 8).map fun v => max 1 (bits (rd s (Reg.lpVcCfg n)).toNat (8 * v + 7) (8 * v))
  if 256 < l.foldl (· + ·) 0 then List.replicate 8 0x20 else l

/-- The content of a CTL block (R510): ACKSEQ and FREED by channel, and with SUB = 2 a time sample (R645). -/
def fineNow (s : State) : Nat := 64 * s.clk.now / 9
def ctlContent (s : State) (r : LaneRun) : List Byte :=
  let b := toLE 2 r.eseq ++ (List.range 8).flatMap fun v => toLE 2 (eGet 0 v r.freed)
  if r.measuring then b ++ toLE 8 (fineNow s) ++ toLE 8 r.ptx ++ toLE 8 r.prx else b

/-- The dimensions as TS carries them. -/
def tsDims (s : State) : Nat :=
  fld s Reg.fabPkgInfo FabPkgInfo.TXM1 + 8 * fld s Reg.fabPkgInfo FabPkgInfo.TYM1 + 64 * fld s Reg.fabPkgInfo FabPkgInfo.TZM1

/-- A request byte of EQ for a lane (R523): steps of PRE and POST and DONE. What a receiver asks for is its analogue loops' affair: a free value (log 172,
DESIGN CHOICE). -/
def eqAsk (s : State) (l : Nat) : Byte :=
  let b := (Config.freeByte s.free l).toNat
  BitVec.ofNat 8 (b % 4 % 3 + 4 * (b / 4 % 4 % 3) + 128 * (b / 128))

/-- The content of a TS block (R519); in EQ it carries the request bytes. -/
def tsContent (s : State) (n kind : Nat) : List Byte :=
  let felb := fld s (Reg.lpTestCtl n) LpTestCtl.MODE == 4
  toLE 1 kind ++ toLE 1 n ++ toLE 1 (myChip s) ++ toLE 1 (fld s (Reg.lpCfg n) LpCfg.DIR + 128 * b2n felb) ++ toLE 1 (tsDims s) ++
    toLE 4 (fld s (Reg.lpState n) LpState.LANEOK) ++ toLE 2 (lane s n).eseq ++ (vcSizes s n).map (BitVec.ofNat 8) ++
    (if kind = 1 then (List.range 32).map (eqAsk s) else [])

/-! ### Link flits and runs (R502, R555) -/

/-- The 192-bit header (R103). -/
def hdrFull (p : Pkt) : Nat := p.hcrc * 2 ^ 176 + hdr p

/-- The opcode of a code (R106). -/
def Opc_of (c : Nat) : Opc :=
  ([.rdReq, .rdRsp, .wr, .wrAck, .mcWr, .atFadd, .atSwap, .atCas, .atRsp, .msg, .rsvReq, .rsvGrant, .rsvRelease, .ctrAdd, .redContrib,
    .redResult, .sluDispatch, .sluCombine, .spSpill, .mbx, .csrRd, .csrWr, .csrRsp, .ack, .errRsp] : List Opc).getD (c - 1) (.bad c)

/-- A packet's header read from its 24 bytes (R103, R105). -/
def pktOf (h : Nat) : Pkt :=
  let o := if bits h 51 46 = 0 then Opc.bad 0 else Opc_of (bits h 51 46)
  let n := 128 * bits h 56 52 + (if bits h 63 57 = 0 then 128 else bits h 63 57)
  { opc := o, src := ⟨bits h 25 18, 8 * bits h 31 29 + bits h 28 26, bits h 35 32⟩,
    dst := ⟨bits h 7 0, 8 * bits h 13 11 + bits h 10 8, bits h 17 14⟩, tenant := bits h 45 38, prio := bits h 37 36, tag := bits h 75 64,
    addr := bits h 131 76, nbytes := if ! Opc_hasPayload o && o != .rdReq then 0 else n, efmt := bits h 167 164, sfmt := bits h 169 168,
    opid := bits h 163 148, layer := bits h 147 132, poison := bit h 170, trc := bit h 171, dclass := bits h 172 172, hcrc := bits h 191 176 }

/-- Bytes 0-151 of flit k of a packet. -/
def flitBytes (p : Pkt) (k : Nat) : List Byte := toLE 24 (hdrFull p) ++ slice p.data (128 * k) 128

/-- A sequenced block as it leaves: its trailer, and its CRC unless an injection inverts it (R502, R530). -/
def seqOut (r : LaneRun) (seq : Nat) : LaneBlk → LaneOut
  | .flit bs =>
    let c := crc32 (bs ++ toLE 4 (seq * 2 ^ 20 + r.eseq * 2 ^ 8))
    .flit { bytes := bs, seq := seq, ack := r.eseq, crc := if r.injCrc then c ^^^ 0xFFFFFFFF else c, badCode := r.injCode }
  | .tag n bs =>
    let b := ctlBlock kTag n (slice bs 0 150 ++ toLE 4 (seq * 2 ^ 20 + r.eseq * 2 ^ 8))
    .ctl { b with crc := if r.injCrc then b.crc ^^^ 0xFFFFFFFF else b.crc, badCode := r.injCode }

/-- The LANE pair of a tenant (R552). -/
def lanePair (s : State) (t : Nat) : KeyPair := eGet {} t s.sec.lane

/-- The nonce of a run or standpipe message (R555). Log 55, DESIGN CHOICE. -/
def laneNonce (chip lp ctr : Nat) : List Byte := toLE 1 chip ++ toLE 1 (lp * 16) ++ [0, 0] ++ toLE 8 ctr

/-- May a channel send a flit: the peer has room for it (R509)? -/
def vcCredit (r : LaneRun) (v : Nat) : Nat :=
  8 * max 1 (eGet 0 v r.peerSize) - (eGet 0 v r.sent + 4096 - eGet 0 v r.peerFreed) % 4096

/-- The packet whose flits a channel sends next. -/
def vcFront (r : LaneRun) (v : Nat) : Option LanePkt := r.egress.find? fun x => vcOf x.pkt == v

/-- n flits of a channel's front packet taken. -/
def takeFlits (r : LaneRun) (v n : Nat) : LaneRun :=
  let f (x : LanePkt) : LanePkt := { x with sent := x.sent + n }
  { r with egress := (updFirst (fun x => vcOf x.pkt == v) f r.egress).filter fun x => decide (x.sent < flits x.pkt),
           sent := eSet 0 v ((eGet 0 v r.sent + n) % 4096) r.sent }

/-- Blocks appended to the replay buffer under the next SEQs (R505). -/
def pushBlks (r : LaneRun) (l : List LaneBlk) : LaneRun :=
  { r with replay := r.replay ++ l.zipIdx.map fun x => ((r.seq + x.2) % 4096, x.1), again := l.length, seq := (r.seq + l.length) % 4096,
           timer := r.timer }

/-- The next flit of a channel entered as a sequenced block, or the next run of a sealed tenant's packet (R504 step 6, R555): up to eight flits
under the tenant's current key. -/
def newBlk (s : State) (n v : Nat) : Option LaneRun :=
  let r := lane s n
  match vcFront r v with
  | none => none
  | some x =>
    let p := x.pkt
    let room := 2048 - r.replay.length
    if vcCredit r v = 0 ∨ room = 0 then none
    else if sealedT s p.tenant then
      let k := min 8 (min (flits p - x.sent) (min (vcCredit r v) (room - 1)))
      let pair := lanePair s p.tenant
      match pair.key pair.cur with
      | none => none
      | some key =>
        if k = 0 then none
        else
          let head := toLE 1 p.tenant ++ toLE 1 pair.cur ++ toLE 8 r.ctr
          let plain := (List.range k).flatMap fun i => flitBytes p (x.sent + i)
          let c := Config.gcmSeal key (laneNonce (myChip s) n r.ctr) head plain
          let l := LaneBlk.tag k (head ++ slice c (152 * k) 16) :: (List.range k).map fun i => LaneBlk.flit (slice c (152 * i) 152)
          some (pushBlks { takeFlits r v k with ctr := r.ctr + 1 } l)
    else some (pushBlks (takeFlits r v 1) [.flit (flitBytes p x.sent)])

/-- The injection bits of LP_TEST_CTL show what still waits (R530, R531). -/
def injDone (s : State) (n : Nat) : State :=
  let r := lane s n
  let x := Reg.lpTestCtl n
  setFld (setFld (setFld s x LpTestCtl.INJCRC (b2n r.injCrc)) x LpTestCtl.INJCODE (b2n r.injCode)) x LpTestCtl.INJSP (b2n r.injSp)

/-- Does an injection still wait once one has acted: software asked for it again in this cycle (R17)? -/
def stillInj (s : State) (n : Nat) (f : Fld) (waits : Bool) : Bool := waits && askedAgain s (Reg.lpTestCtl n) f

/-- The next block of the replay buffer still to be sent (R504 step 5). -/
def sendReplay (s : State) (n : Nat) : State :=
  let r := lane s n
  match r.replay[r.replay.length - r.again]? with
  | none => s
  | some x =>
    let o := seqOut r x.1 x.2
    injDone (setLane s n { emit s n r o with again := r.again - 1, injCrc := stillInj s n LpTestCtl.INJCRC r.injCrc,
                                             injCode := stillInj s n LpTestCtl.INJCODE r.injCode, busy := s.clk.now,
                                             calm := s.clk.now, timer := if r.replay.length = r.again then s.clk.now else r.timer }) n

/-- A control block sent; an injected invalid code strikes whatever block is next (R530). -/
def ctlOut (s : State) (n : Nat) (r : LaneRun) (b : CtlBlock) : State :=
  injDone (setLane s n (emit s n { r with injCode := stillInj s n LpTestCtl.INJCODE r.injCode } (.ctl { b with badCode := b.badCode || r.injCode }))) n

/-! ### Standpipe messages at a port (R284, R512, R557) -/

/-- Words of a message (R284): word 0 and 1, its payload, and the digest of UP and DOWN. -/
def spLen (w0 : Nat) : Nat := 2 + bits w0 29 28 + (if bits w0 63 60 < 2 then 1 else 0)

/-- The messages that wait for a port, in the order of R285. -/
def spWaiting (s : State) (n : Nat) : List (Ep × SpMsg) :=
  spOrder (s.coll.spNet.filter fun x => (SpDst x.2).chip != myChip s && egressPort s x.1 (SpDst x.2).chip == some n)

/-- A message's bytes on the wire; a sealed tenant's words after word 0 are encrypted, and the counter and tag follow (R557). -/
def spWire (s : State) (n : Nat) (m : SpMsg) : Option (List Byte) :=
  let r := lane s n
  let pair := lanePair s (SpTenant m)
  if ! sealedT s (SpTenant m) then some (m.words.flatMap (toLE 8))
  else match pair.key pair.cur with
    | none => none
    | some key =>
      some (toLE 8 (SpWord m 0) ++ (let c := Config.gcmSeal key (laneNonce (myChip s) n r.ctr) [] ((m.words.drop 1).flatMap (toLE 8))
        let k := 8 * (m.words.length - 1)
        slice c 0 k ++ toLE 8 r.ctr ++ slice c k 16))

/-- An SP block sent (R512): up to three waiting messages; a sealed tenant's alone. -/
def sendSp (s : State) (n : Nat) (l : List (Ep × SpMsg)) : State :=
  let head := l.take 1
  let group := if head.any fun x => sealedT s (SpTenant x.2) then head
    else (l.take 3).filter fun x => ! sealedT s (SpTenant x.2)
  let s' := { s with coll := { s.coll with spNet := group.foldl (fun q x => q.erase x) s.coll.spNet } }
  let bs := (group.filterMap fun x => spWire s n x.2).flatten
  let r := lane s n
  if bs.isEmpty then s'
  else
    let b := ctlBlock kSp group.length bs
    let b := { b with crc := if r.injSp then b.crc ^^^ 0xFFFFFFFF else b.crc }
    injDone (ctlOut s' n { r with injSp := stillInj s n LpTestCtl.INJSP r.injSp, busy := s.clk.now, calm := s.clk.now,
                                  ctr := r.ctr + (group.filter fun x => sealedT s (SpTenant x.2)).length } b) n

/-- One message read from an SP block's bytes: itself, and the bytes it takes; `none` when its tag fails. -/
def spRead (s : State) (n : Nat) (bs : List Byte) : Option SpMsg × Nat :=
  let w0 := ofLE (slice bs 0 8)
  let k := spLen w0
  let t := bits w0 59 52
  let st := Reg.lpState n
  if sealedT s t then
    let pair := lanePair s t
    let body := slice bs 8 (8 * (k - 1))
    let ctr := ofLE (slice bs (8 * k) 8)
    let plain := match pair.key pair.cur with
      | none => none
      | some key => Config.gcmOpen key (laneNonce (fld s st LpState.PEERDCHIP) (fld s st LpState.PEERPORT) ctr) []
          (body ++ slice bs (8 * k + 8) 16)
    (plain.map fun p => ⟨w0 :: elemsOf 8 p⟩, 8 * k + 24)
  else (some ⟨elemsOf 8 (slice bs 0 (8 * k))⟩, 8 * k)

/-- The messages of an SP block. -/
def spReadAll (s : State) (n : Nat) : Nat → List Byte → List (Option SpMsg)
  | 0, _ => []
  | k + 1, bs =>
    let x := spRead s n bs
    x.1 :: spReadAll s n k (bs.drop x.2)

/-- A FREEZE converted into this package's time before it goes on (R642). -/
def spConvert (s : State) (n : Nat) (m : SpMsg) : SpMsg :=
  if SpKindOf m = .freeze then
    let t := ((SpWord m 1 : Int) - signed 64 (rd s (Reg.lpTofs n)).toNat).toNat
    SpStamp ⟨m.words.take 1 ++ [t] ++ m.words.drop 2⟩
  else m

/-! ### The next block (R504) -/

/-- Does a CTL block have something to report (R504 step 4)? A measurement adds no blocks (R645). -/
def ctlNews (s : State) (n : Nat) : Bool :=
  let r := lane s n
  r.eseq != r.toldAck || r.freed != r.toldFreed

/-- Blocks since the last CTL block; in electrical idle the block times that pass count (R524; log 173, DEDUCED). -/
def ctlGap (s : State) (n : Nat) : Nat :=
  let r := lane s n
  let p := arbPeriod s (.lp n)
  r.nCtl + if lpState s n = 7 ∧ r.toQuiet = 0 then (s.clk.now - r.since) * 4 * p.2 / (9 * p.1) else 0

/-- The blocks between CTL blocks. -/
def ctlInt (s : State) (n : Nat) : Nat := max 4 (fld s (Reg.lpCfg n) LpCfg.CTLINT)

/-- Is a CTL block due? -/
def ctlDue (s : State) (n : Nat) : Bool := decide (ctlInt s n ≤ ctlGap s n) && ctlNews s n

/-- Is an ALIGN block due? -/
def alignDue (s : State) (n : Nat) : Bool :=
  decide (0 < (lane s n).aligns) || decide (256 * max 1 (fld s (Reg.lpCfg n) LpCfg.ALIGNINTQ) ≤ (lane s n).nAlign)

/-- Is a boundary in ACTIVE left to the egress arbiter: none of steps 1-5 of R504, nor a DEEP or QUIET block, takes it? -/
def laneYields (s : State) (n : Nat) : Bool :=
  let s := setLane s n { lane s n with nAlign := (lane s n).nAlign + 1, nCtl := (lane s n).nCtl + 1 }
  let r := lane s n
  ! alignDue s n && (spWaiting s n).isEmpty && ! r.retryDue && ! ctlDue s n && r.again == 0 && r.toQuiet == 0 &&
    (match r.toDeep with | some (_ + 1) => false | _ => true)

/-- The channel of the packet whose grain the egress arbiter granted for this boundary (R504 step 6). -/
def laneGrant (s : State) (n : Nat) : Option Nat := (arbRun s (.lp n)).granted.bind fun q => q.pkt.map vcOf

/-- A grant spent; the transfer of a packet that has left ends with it. -/
def laneTaken (s : State) (n : Nat) : State :=
  let x := arbRun s (.lp n)
  let left (t : ArbTx) : Bool := match t.req.pkt with
    | some p => (lane s n).egress.any fun y => y.pkt == p
    | none => true
  setRun s (.lp n) { x with granted := none, current := x.current.filter left, parked := x.parked.filter left }

/-- The block of one boundary in ACTIVE. `vc` is the channel the egress arbiter granted. -/
def activeBlock (s : State) (n vc : Nat) : State :=
  let r := lane s n
  let s := setLane s n { r with nAlign := r.nAlign + 1, nCtl := r.nCtl + 1 }
  let r := lane s n
  if alignDue s n then laneOut (setLane s n { r with nAlign := 0, aligns := r.aligns - 1 }) n .align
  else if ! (spWaiting s n).isEmpty then sendSp s n (spWaiting s n)
  else if r.retryDue then
    ctlOut s n { r with retryDue := false, told := true, busy := s.clk.now, calm := s.clk.now } (ctlBlock kRetry 1 (toLE 2 r.eseq))
  else if ctlDue s n then
    ctlOut s n { r with nCtl := 0, toldAck := r.eseq, toldFreed := r.freed, calm := s.clk.now } (ctlBlock kCtl (if r.measuring then 2 else 0) (ctlContent s r))
  else if 0 < r.again then sendReplay s n
  else match r.toDeep with
    | some (k + 1) =>
      let s := ctlOut s n { r with toDeep := some k } (ctlBlock kDeep 0 [])
      if k = 0 ∧ r.peerDeep then toState (setLane s n { lane s n with toDeep := none, peerDeep := false }) n 8 else s
    | _ =>
      if 0 < r.toQuiet then ctlOut s n { r with toQuiet := r.toQuiet - 1 } (ctlBlock kQuiet 0 [])
      else match if laneGrant s n = some vc then newBlk s n vc else none with
        | some r => sendReplay (laneTaken (setLane s n r) n) n
        | none => ctlOut s n r (ctlBlock kIdle 0 [])

/-- Training from DETECT ends: sequence numbers and credits start anew, and a measurement begins (R508, R519, R645). -/
def laneFresh (r : LaneRun) : LaneRun :=
  { r with seq := 0, replay := [], again := 0, sent := [], peerFreed := [], first := 0, tries := 0, nAlign := 0, nCtl := 0, aligns := 0,
           toldAck := 0, toldFreed := [], eseq := 0, told := false, counted := false, retryDue := false, freed := [], asm := [], run := none, owed := [] }

/-- Blocks before a SEQ acknowledged (R505): the timer restarts when any are. -/
def laneAck (s : State) (n ack : Nat) : State :=
  let r := lane s n
  let keep := r.replay.filter fun x => ! (seqLe 12 (x.1 + 1) ack)
  if keep.length = r.replay.length then s
  else setLane s n { r with replay := keep, again := min r.again keep.length, timer := s.clk.now, calm := s.clk.now,
                            tries := if seqLe 12 (r.first + 1) ack then 0 else r.tries }

/-- ACTIVE entered: eight TS blocks sent and received (R519), every lane's disparity negative (R498), and LANEOK shows the lanes in use (R533); after a
recovery each side resumes from the other's ESEQ (R508). -/
def laneUp (s : State) (n : Nat) : State :=
  let r := lane s n
  if r.tsTx < 8 ∨ r.tsRx < 8 then s
  else
    let again := lpState s n == 6 || r.noEq
    let s := setLane s n { (if again then r else laneFresh r) with tsTx := 0, tsRx := 0, failAt := none, fails := 0, noEq := false, tries := 0,
                                                                     timer := s.clk.now, busy := s.clk.now, calm := s.clk.now, txRd := [], rxRd := [] }
    let s := toState s n 5
    let used := (List.range (laneWidth s n)).foldl (fun m i => m + 2 ^ (laneBase s n + i)) 0
    let s := setFld s (Reg.lpState n) LpState.LANEOK (fld s (Reg.lpState n) LpState.LANEOK &&& used)
    let s := setLane s n { lane s n with measuring := true, samples := [], ptx := 0, prx := 0 }
    if again then
      let s := match r.peerEseq with | some e => laneAck s n e | none => s
      setLane s n { lane s n with again := (lane s n).replay.length }
    else s

/-- A TS block of CONFIG sent and counted (R519). -/
def sendTs (s : State) (n : Nat) : State :=
  laneOut (setLane s n { lane s n with tsTx := (lane s n).tsTx + 1 }) n (.ctl (ctlBlock kTs 0 (tsContent s n 2)))

/-- LANE_BLOCK_SEND (R504): the block of the next boundary. Outside ACTIVE the port sends what its state sends: ALIGN blocks, or TS blocks, with PRBS31
on every lane between those of EQ (R523); a recovery sends ALIGN and then TS blocks (R517). Log 54, DEDUCED. -/
def execLaneBlockSend (n vc : Nat) (s : State) : Host.Outcome State Fault Refusal :=
  .next (match lpState s n with
    | 2 => laneOut s n .align
    | 3 => laneOut (laneOut { s with free := s.free + 1 } n (.ctl (ctlBlock kTs 0 (tsContent s n 1)))) n (.prbs 3 0)
    | 4 =>
      if (lane s n).failAt.isSome then s
      else laneUp (sendTs s n) n
    | 6 => if (lane s n).realign then laneOut s n .align else laneUp (sendTs s n) n
    | 5 => activeBlock s n vc
    | 7 => if 0 < (lane s n).toQuiet then activeBlock s n vc else s
    | _ => s)

/-! ### Egress (R115, R116, R503) -/

/-- Does a well record lane crossings (R655)? -/
def takesLane (s : State) (w : Nat) : Bool := samples s w && decide (w < 64) && flag s (Reg.telTwCfg w) TelTwCfg.LANE

/-- A lane crossing traced (R654). -/
def traceLane (s : State) (n : Nat) (p : Pkt) (point : Nat) : State :=
  if p.trc then traceTo s p.tenant takesLane (unitCode .lp n) 1 p.layer p.opid (toLE 22 (hdr p) ++ toLE 1 point ++ toLE 1 n) else s

/-- Are two packets one and the same on its way? -/
def samePkt (x p : Pkt) : Bool := x.src == p.src && x.dst == p.dst && x.tag == p.tag && x.opc == p.opc && x.addr == p.addr

/-- The phase class of a packet at lane port n (R175, R259, R264): that of the relay of this port that forwarded it, or of this port's entry that issued
its command; else 7. -/
def phaseOf (s : State) (n : Nat) (p : Pkt) : Nat :=
  match s.lane.phases.find? fun x => samePkt x.1 p with
  | some x => x.2
  | none =>
    match (s.dyn.txns.find? fun x => x.ep == p.src && x.tag == p.tag).bind fun x => (Purpose_cmd x.why).bind fun id => (cmdOf s id).bind Cmd.trig with
    | some (.lp m, e) => if m = n then fld s (Reg.triga (.lp n) e) Triga.PHASE else 7
    | _ => 7

/-- A packet that reaches its egress port (R104, R115, R116): discarded at a port that is DOWN or for a package outside the torus; else it waits with
its DCLASS updated. -/
def laneEgress (s : State) (n : Nat) (p : Pkt) : State :=
  if ! hcrcOk p then log s { errPkt (unitCode .lp n) .hcrc 2 p .ok with synd := p.hcrc * 2 ^ 16 + hcrcOf p }
  else if lpState s n = 11 ∨ ! inTorus s p.dst.chip then bounce s p .peerUnreachable
  else
    let prev := (s.lane.transit.find? fun x => x.1 == p).map Prod.snd
    let s := { s with lane := { s.lane with transit := s.lane.transit.filter fun x => x.1 != p } }
    let c := match torusDir s p.dst.chip with
      | some d => nextClass s prev d p.dclass
      | none => p.dclass
    let k := phaseOf s n p
    let s := { s with lane := { s.lane with phases := s.lane.phases.filter fun x => ! samePkt x.1 p } }
    let p := stamp { p with dclass := c }
    let s := traceLane (tutilOut s (.lp n) p.tenant (units128 p.data.length)) n p 2
    setLane s n { lane s n with egress := (lane s n).egress ++ [{ pkt := p, cls := k }] }

/-! ### DOWN and recovery (R508) -/

/-- A packet whose first flits have entered the mesh completed with zero payload and poison (R508). -/
def fillAsm (s : State) (n : Nat) (a : LaneAsm) : State :=
  putNet (linkCount s n LpLinkStat.FILLS) { a.pkt with data := slice a.data 0 a.pkt.nbytes, poison := true }

/-- What a port holds given up: queued packets bounce, the replay buffer is dropped, packets cut short are filled unless they were discarded. -/
def laneDrop (s : State) (n : Nat) : State :=
  let r := lane s n
  let s := r.egress.foldl (fun s x => bounce s x.pkt .peerUnreachable) s
  let s := (r.asm.filter fun a => ! a.bad).foldl (fun s a => fillAsm s n a) s
  setLane s n { laneFresh r with egress := [] }

/-- DOWN (R508). -/
def laneDown (s : State) (n : Nat) : State :=
  laneLog (lastErr (toState (linkCount (laneDrop s n) n LpLinkStat.DOWNS) n 11) n 8) n 4

/-- RECOVERY entered (R508): replay buffer and ESEQ are kept. -/
def laneRecover (s : State) (n : Nat) : State :=
  let s := toState (linkCount s n LpLinkStat.RECOV) n 6
  laneLog (setLane s n { lane s n with tsTx := 0, tsRx := 0, run := none, again := 0, realign := true, held := [], seen := [] }) n 1

/-- A replay begun (R506-R508): the REPLAYMAX-th in a row without progress is a recovery instead. -/
def laneReplay (s : State) (n : Nat) : State :=
  let r := lane s n
  match r.replay.head? with
  | none => s
  | some x =>
    let tries := if r.tries = 0 then 1 else r.tries + 1
    let s := setLane (linkCount s n LpLinkStat.REPLAYS) n { r with again := r.replay.length, tries := tries, timer := s.clk.now,
                                                                   first := if r.tries = 0 then x.1 else r.first }
    if max 1 (fld s (Reg.lpCfg n) LpCfg.REPLAYMAX) ≤ tries then laneRecover s n else s

/-- LANE_RECOVERY_FAIL (R508): retried, and DOWN after RETRAINMAX + 1 failures in a row. -/
def execLaneRecoveryFail (n : Nat) (s : State) : Host.Outcome State Fault Refusal :=
  .next (if lpState s n ≠ 6 then s
    else
      let k := (lane s n).fails + 1
      let s := setLane s n { lane s n with fails := k }
      if fld s (Reg.lpCfg n) LpCfg.RETRAINMAX + 1 ≤ k then laneDown (setLane s n { lane s n with fails := 0 }) n else laneRecover s n)

/-- LINK_RETRY_TIMEOUT (R507): RTRYTO without an advance of ACKSEQ. -/
def execLinkRetryTimeout (n : Nat) (s : State) : Host.Outcome State Fault Refusal :=
  .next (if ! lpActive s n ∨ (lane s n).replay.isEmpty then s
    else laneReplay (advanceTo s ((lane s n).timer + cycleAt (16 * max 1 (fld s (Reg.lpCfg n) LpCfg.RTRYTO)))) n)

/-! ### Ingress (R503, R505, R509, R555, R556) -/

/-- A whole packet handed to the router (R503, R112); a packet for this package may wait for one of the port's slots at its cistern, or behind one that
does (R120, R135): its `kept` flits then stay in the buffer. -/
def handPkt (s : State) (n : Nat) (p : Pkt) (kept : Nat) : State :=
  let s := traceLane (tutilIn s (.lp n) p.tenant (units128 p.data.length)) n p 3
  let dim := (fld s (Reg.lpCfg n) LpCfg.DIR - 1) / 2
  if p.dst.chip = myChip s then
    if entryMay s s.dyn.entryWait n p then entryPut s n p
    else setLane { s with dyn := { s.dyn with entryWait := s.dyn.entryWait ++ [(n, p)] } } n { lane s n with owed := (lane s n).owed ++ [(p, kept)] }
  else
    let s := { s with dyn := { s.dyn with net := s.dyn.net ++ [p] } }
    { s with lane := { s.lane with transit := s.lane.transit ++ [(p, dim)] } }

/-- An accepted flit (R503, R509): HCRC and the tenant checks, once a packet, then its place in its packet; FREED of its channel rises as its flits pass
to the router, which those of a packet that may not yet enter the mesh do not (R120, R510). The flits of a discarded packet are taken and dropped
(R104, R142). -/
def handFlit (s : State) (n : Nat) (bytes : List Byte) : State :=
  let p := pktOf (ofLE (slice bytes 0 24))
  let v := vcOf p
  let u := unitCode .lp n
  let r := lane s n
  let a := (r.asm.find? fun a => a.vc == v).getD { vc := v, pkt := p }
  let rest := r.asm.filter fun x => x.vc != v
  let wrong := ! a.bad && ! (hcrcOk p && tenantOk p)
  let holds := ! a.bad && ! wrong && a.pkt.dst.chip == myChip s && ! entryMay s s.dyn.entryWait n a.pkt
  let s := if holds then s else setLane s n (freeFlits r v (a.kept + 1))
  let b := { a with data := a.data ++ slice bytes 24 128, n := a.n + 1, bad := a.bad || wrong, kept := if holds then a.kept + 1 else 0,
                    pkt := if p.poison && ! a.pkt.poison then stamp { a.pkt with poison := true } else a.pkt }
  let s := if ! wrong then s
    else if ! hcrcOk p then log s { errPkt u .hcrc 2 p .ok with synd := p.hcrc * 2 ^ 16 + hcrcOf p }
    else errTo (violation s (errPkt u .tenant 2 p .tenantViolation)) p .tenantViolation
  if b.n < flits b.pkt then setLane s n { lane s n with asm := rest ++ [b] }
  else
    let s := setLane s n { lane s n with asm := rest }
    if b.bad then s
    else handPkt s n { b.pkt with data := if Opc_hasPayload b.pkt.opc then slice b.data 0 b.pkt.nbytes else [] } b.kept

/-- ESEQ carried past accepted blocks. -/
def passSeq (r : LaneRun) (k : Nat) : LaneRun := { r with eseq := (r.eseq + k) % 4096, told := false, counted := false }

/-- The end of a run (R556): its flits are handed on when the tag passes; a missing key drops them; a failed tag asks for them again. -/
def runEnd (s : State) (n : Nat) (x : LaneRunIn) : State :=
  let st := Reg.lpState n
  match (lanePair s x.tenant).key x.kp with
  | none =>
    log (bump (setLane s n { passSeq (lane s n) (x.n + 1) with run := none }) Reg.secStat SecStat.NOKEY 1)
      { errOf (unitCode .lp n) .seal 2 with tenant := x.tenant }
  | some key =>
    match Config.gcmOpen key (laneNonce (fld s st LpState.PEERDCHIP) (fld s st LpState.PEERPORT) x.ctr) x.aad (x.flits.flatten ++ x.tag) with
    | none =>
      let s := bump s Reg.secStat SecStat.AUTHFAIL 1
      setLane s n { lane s n with run := none, retryDue := (lane s n).retryDue || ! (lane s n).told }
    | some plain =>
      (List.range x.n).foldl (fun s i => handFlit s n (slice plain (152 * i) 152))
        (setLane s n { passSeq (lane s n) (x.n + 1) with run := none })

/-- The SEQ a port expects next: within a run, the next of the run. -/
def nextSeq (r : LaneRun) : Nat := match r.run with | some x => (r.eseq + 1 + x.flits.length) % 4096 | none => r.eseq

/-- Does a block lie among the 2,048 before ESEQ (R505)? -/
def dupSeq (r : LaneRun) (seq : Nat) : Bool := decide (1 ≤ (r.eseq + 4096 - seq) % 4096) && decide ((r.eseq + 4096 - seq) % 4096 ≤ 2048)

/-- A link flit judged (R505): accepted, a duplicate, or rejected; `clean` says that no code was an error, which a duplicate may hold. -/
def flitIn (s : State) (n : Nat) (f : LinkFlit) (clean : Bool) : State :=
  let r := lane s n
  let good := f.crc == crc32 (slice f.bytes 0 152 ++ toLE 4 (f.seq * 2 ^ 20 + f.ack * 2 ^ 8 + f.low))
  if good && clean && f.seq == nextSeq r then
    let s := laneAck s n f.ack
    match (lane s n).run with
    | none => handFlit (setLane s n (passSeq (lane s n) 1)) n f.bytes
    | some x =>
      let x := { x with flits := x.flits ++ [slice f.bytes 0 152] }
      if x.flits.length < x.n then setLane s n { lane s n with run := some x } else runEnd s n x
  else if good && dupSeq r f.seq then laneAck s n f.ack
  else rejectBlk s n

/-- LINK_FLIT (R497-R499, R505). What begins with a K character is no link flit. -/
def execLinkFlit (n : Nat) (f : LinkFlit) (s : State) : Host.Outcome State Fault Refusal :=
  .next (if ! lpActive s n then s
    else if f.wire.cols.isEmpty && ! f.badCode then flitIn (rxClean s n f.wire (flitChrs f)) n f true
    else
      let x := rxCoded s n f.wire (flitChrs f)
      match x.2.1 with
      | some (true, _) :: _ => linkCount x.1 n LpLinkStat.CTLBAD
      | cs => flitIn x.1 n (flitOfChrs cs) (x.2.2 && allData cs))

/-- A TAG block judged (R505, R555): SEQ and ACKSEQ stand in its last four content bytes (log 39, DESIGN CHOICE). One that fails its CRC or holds another
K character, `sound` false, counts in CTLBAD as well (R500). -/
def tagIn (s : State) (n : Nat) (b : CtlBlock) (clean sound : Bool) : State :=
  let t := ofLE (slice b.content 150 4)
  let seq := bits t 31 20
  let r := lane s n
  let good := sound && b.crc == ctlCrc b
  if good && clean && r.run.isNone && seq == r.eseq then
    let x : LaneRunIn := { n := min 8 (max 1 b.sub), tenant := (b.content.getD 0 0).toNat, kp := (b.content.getD 1 0).toNat % 2,
                           ctr := ofLE (slice b.content 2 8), tag := slice b.content 10 16, aad := slice b.content 0 10 }
    setLane (laneAck s n (bits t 19 8)) n { lane (laneAck s n (bits t 19 8)) n with run := some x }
  else if good && dupSeq r seq then laneAck s n (bits t 19 8)
  else rejectBlk (if good then s else linkCount s n LpLinkStat.CTLBAD) n

/-- TAG (R555, R556): the head of an encrypted run, sequenced like a flit. -/
def execTag (n : Nat) (b : CtlBlock) (s : State) : Host.Outcome State Fault Refusal :=
  .next (if ! lpActive s n ∨ b.kind ≠ kTag then s
    else if b.wire.cols.isEmpty && ! b.badCode then tagIn (rxClean s n b.wire (ctlChrs b)) n b true true
    else
      let x := rxCoded s n b.wire (ctlChrs b)
      match x.2.1 with
      | some (true, k) :: r =>
        if k ≠ kTag then linkCount x.1 n LpLinkStat.CTLBAD
        else tagIn x.1 n (ctlOfChrs x.2.1) x.2.2 (allData r)
      | _ => rejectBlk x.1 n)

/-- RETRY (R506): ESEQ acknowledges, and a replay begins from it; ignored in RECOVERY (R535). -/
def execRetry (n : Nat) (b : CtlBlock) (s : State) : Host.Outcome State Fault Refusal :=
  .next (ctlIn s n kRetry b [5, 7] fun b s => laneReplay (laneAck s n (ofLE (slice b.content 0 2) % 4096)) n)

/-- The means of 64 samples stored, and the measurement ended (R645, R646). -/
def storeTime (s : State) (n : Nat) : State :=
  let l := (lane s n).samples
  let sum : Int := (l.map Prod.fst).foldl (· + ·) 0
  let dly : Int := (l.map Prod.snd).foldl (· + ·) 0
  let hi := (l.map Prod.fst).foldl max ((l.map Prod.fst).headD 0)
  let lo := (l.map Prod.fst).foldl min ((l.map Prod.fst).headD 0)
  -- samples are kept doubled: θ is half of each
  let s := wrReg s (Reg.lpTofs n) (BitVec.ofNat 64 (unsigned 64 (sum / (2 * l.length))))
  let r := Reg.lpTdly n
  let s := setFld s r LpTdly.SPREAD (min (2 ^ 32 - 1) ((hi - lo) / 2).toNat)
  let s := setFld (setFld s r LpTdly.DLY (min (2 ^ 24 - 1) (dly / (2 * l.length)).toNat)) r LpTdly.NS l.length
  let s := traceMark s (unitCode .lp n) 4 (rd s (Reg.lpTofs n)).toNat
  setLane s n { lane s n with measuring := false, samples := [] }

/-- A time sample of a SUB = 2 block (R645); one whose sender has not yet received a sample carries none (log 40, DEDUCED). -/
def timeSample (s : State) (n : Nat) (b : CtlBlock) : State :=
  let t3 := ofLE (slice b.content 18 8)
  let t1 := ofLE (slice b.content 26 8)
  let t2 := ofLE (slice b.content 34 8)
  let t4 := fineNow s
  let r := lane s n
  let s := setLane s n { r with ptx := t3, prx := t4 }
  if ! r.measuring ∨ t1 = 0 then s
  else
    let a : Int := (t2 : Int) - t1
    let d : Int := (t4 : Int) - t3
    let s := setLane s n { lane s n with samples := r.samples ++ [(a - d, a + d)] }
    if 64 ≤ (lane s n).samples.length then storeTime s n else s

/-- CTL (R510, R645): acknowledgement and credits; with SUB = 2 a time sample. -/
def execCtl (n : Nat) (b : CtlBlock) (s : State) : Host.Outcome State Fault Refusal :=
  .next (ctlIn s n kCtl b [5, 7] fun b s =>
    let s := laneAck s n (ofLE (slice b.content 0 2) % 4096)
    let f := (List.range 8).foldl (fun m v => eSet 0 v (ofLE (slice b.content (2 + 2 * v) 2) % 4096) m) []
    let s := setLane s n { lane s n with peerFreed := f }
    if b.sub = 2 then timeSample s n b else s)

/-- SP (R512, R557, R642): the messages go to their stages here, or wait for their next port. -/
def execSp (n : Nat) (b : CtlBlock) (s : State) : Host.Outcome State Fault Refusal :=
  .next (ctlIn s n kSp b [5, 7] fun b s =>
    (spReadAll s n (min 3 b.sub) b.content).foldl (fun s o => match o with
      | some m => { s with coll := { s.coll with spNet := s.coll.spNet ++ [(lpEp (myChip s) n, spConvert s n m)] } }
      | none => bump s Reg.secStat SecStat.AUTHFAIL 1) s)

/-! ### Training (R517-R523) -/

/-- Groups of sixteen lanes all of which a mask holds (R519): the lower, the upper. -/
def lowGood (m : Nat) : Bool := m % 65536 == 0xFFFF
def highGood (m : Nat) : Bool := m / 65536 % 65536 == 0xFFFF

/-- Does a port align its lanes: in ALIGN, or in the first part of RECOVERY (R517)? -/
def lpAligns (s : State) (n : Nat) : Bool := lpState s n == 2 || (lpState s n == 6 && (lane s n).realign)

/-- The codes of an ALIGN block, which carries no CRC (R498, R501). -/
def rxAlign (s : State) (n : Nat) (w : OnLanes) : State :=
  let cs := alignChrs (laneBase s n) (laneWidth s n)
  if ! lpReceives s n then s else if w.cols.isEmpty then rxClean s n w cs else (rxCoded s n w cs).1

/-- ALIGN (R501, R518): in ALIGN each lane's lock, polarity and skew are recorded, and consecutive ALIGN blocks under lock counted; a later one
ends the peer direction's idleness (R524). -/
def execAlign (n : Nat) (b : AlignIn) (s : State) : Host.Outcome State Fault Refusal :=
  let s := rxAlign s n b.wire
  .next (if ! lpAligns s n then setLane s n { lane s n with peerQuiet := false }
    else
      let r := lane s n
      let seen (l : Nat) : LaneSeen := b.lanes.getD l {}
      let held := (List.range 32).map fun l => if (seen l).lock then r.held.getD l 0 + 1 else 0
      let s := setLane s n { r with seen := b.lanes, held := held }
      (List.range 32).foldl (fun s l =>
        let x := Reg.lpLaneStat n l
        setFld (setFld (setFld s x LpLaneStat.LOCK (b2n (seen l).lock)) x LpLaneStat.POL (b2n (seen l).pol)) x LpLaneStat.SKEW (seen l).skew) s)

/-- ALIGN_DONE (R518, R520): the mapping is chosen by majority, good lanes counted; the port goes on to EQ (after a deep state to CONFIG, in a recovery to
its TS blocks), or starts again from DETECT; a recovery without good lanes stays where it is until it fails (R508). -/
def execAlignDone (n : Nat) (s : State) : Host.Outcome State Fault Refusal :=
  .next (if ! lpAligns s n then setLane s n { lane s n with peerQuiet := false }
    else
      let r := lane s n
      let seen (l : Nat) : LaneSeen := r.seen.getD l {}
      let ls := (List.range 32).filter fun l => (seen l).lock
      let rev := decide ((ls.filter fun l => (seen l).id == l).length < (ls.filter fun l => (seen l).id == 31 - l).length)
      let good := ls.filter fun l => (seen l).id == (if rev then 31 - l else l) && decide ((seen l).skew ≤ 40) &&
        decide (16 ≤ r.held.getD l 0) && ! bit r.retired l
      let mask := good.foldl (fun m l => m + 2 ^ l) 0
      let x := Reg.lpState n
      let s := setFld (setFld s x LpState.LANEOK mask) x LpState.REV (b2n rev)
      if lpState s n = 6 then (if lowGood mask || highGood mask then setLane s n { lane s n with realign := false } else lastErr s n 2)
      else if lowGood mask || highGood mask then
        setLane (toState s n (if r.noEq then 4 else 3)) n { lane (toState s n (if r.noEq then 4 else 3)) n with tsTx := 0, tsRx := 0 }
      else toState (lastErr s n 2) n 1)

/-- A transmit tap one step on (R522, R523). -/
def tapStep (v lo req : Nat) : Nat :=
  let z := signed 8 v
  if req = 1 then unsigned 8 (max (-(lo : Int)) (z - 1)) else if req = 2 then unsigned 8 (min 0 (z + 1)) else v

/-- The peer's requests for lane l applied to its transmit taps (R523); FIX keeps them. -/
def eqRequest (s : State) (n l req : Nat) : State :=
  let x := Reg.lpLaneEq n l
  if flag s x LpLaneEq.FIX then s
  else
    let s := setFld s x LpLaneEq.PRE (tapStep (fld s x LpLaneEq.PRE) 16 (bits req 1 0))
    let s := setFld s x LpLaneEq.POST (tapStep (fld s x LpLaneEq.POST) 24 (bits req 3 2))
    setFld s x LpLaneEq.MAIN (64 + signed 8 (fld s x LpLaneEq.PRE) + signed 8 (fld s x LpLaneEq.POST)).toNat

/-- EQ_DONE (R523): lanes with bit errors are not good; CONFIG, or LASTERR EQ and DETECT again. `ctle` holds the receiver codes adapted. -/
def execEqDone (n bad : Nat) (ctle : List Nat) (s : State) : Host.Outcome State Fault Refusal :=
  .next (if lpState s n ≠ 3 then s
    else
      let s := ((List.range 32).zip ctle).foldl (fun s x =>
        if flag s (Reg.lpLaneEq n x.1) LpLaneEq.FIX then s else setFld s (Reg.lpLaneEq n x.1) LpLaneEq.CTLE x.2) s
      let m := (List.range 32).foldl (fun m l => if bit bad l then putBits m l l 0 else m) (fld s (Reg.lpState n) LpState.LANEOK)
      let s := setFld s (Reg.lpState n) LpState.LANEOK m
      if lowGood m || highGood m then setLane (toState s n 4) n { lane (toState s n 4) n with tsTx := 0, tsRx := 0, failAt := none }
      else toState (lastErr s n 3) n 1)

/-- The opposite direction (R514). -/
def oppDir (d : Nat) : Nat := if d % 2 = 1 then d + 1 else d - 1

/-- The package at the far end of a port of direction d (R516). -/
def neighbour (s : State) (d : Nat) : Nat :=
  let p := posOf (myChip s)
  let z := torusSize s
  let step (v n : Nat) : Nat := if d % 2 = 1 then (v + 1) % n else (v + n - 1) % n
  if d ≤ 2 then step p.1 z.1 + 8 * p.2.1 + 64 * p.2.2
  else if d ≤ 4 then p.1 + 8 * step p.2.1 z.2.1 + 64 * p.2.2
  else p.1 + 8 * p.2.1 + 64 * step p.2.2 z.2.2

/-- The width two masks allow (R519 check 5): 3 full, 1 lower half, 2 upper half, 0 none. -/
def widthOf (mine peer : Nat) (w16 : Bool) : Nat :=
  if mine % 2 ^ 32 = 2 ^ 32 - 1 ∧ peer % 2 ^ 32 = 2 ^ 32 - 1 ∧ ! w16 then 3
  else if lowGood mine && lowGood peer then 1
  else if highGood mine && highGood peer then 2 else 0

/-- The checks of R519 on a TS block: LASTERR of the first that fails, 0 when all pass. -/
def tsCheck (s : State) (n : Nat) (c : List Byte) : Nat :=
  let b (i : Nat) : Nat := (c.getD i 0).toNat
  let dir := fld s (Reg.lpCfg n) LpCfg.DIR
  if ! inTorus s (myChip s) then 9
  else if b 4 ≠ tsDims s then 6
  else if b 3 % 16 ≠ oppDir dir then 4
  else if b 2 ≠ neighbour s dir then 5
  else if widthOf (fld s (Reg.lpState n) LpState.LANEOK) (ofLE (slice c 5 4)) (flag s (Reg.lpCfg n) LpCfg.W16) = 0 then 7
  else 0

/-- TS (R519, R523, R529): in EQ the peer's tap requests; in CONFIG and RECOVERY the checks, whose eighth consecutive success lets the port become
ACTIVE; a loopback request is honoured when FELBOK is set. -/
def execTs (n : Nat) (b : CtlBlock) (s : State) : Host.Outcome State Fault Refusal :=
  .next (ctlIn s n kTs b [3, 4, 6] fun b s =>
    let c := b.content
    let at_ (i : Nat) : Nat := (c.getD i 0).toNat
    if lpAligns s n then s
    else if lpState s n = 3 then
      if at_ 0 = 1 then (List.range 32).foldl (fun s l => eqRequest s n l (at_ (19 + l))) s else s
    else if at_ 0 ≠ 2 then s
    else
      let x := Reg.lpState n
      let s := setFld (setFld (setFld s x LpState.PEERDCHIP (at_ 2)) x LpState.PEERPORT (at_ 1)) x LpState.PEERDIR (at_ 3 % 16)
      let e := tsCheck s n c
      if bit (at_ 3) 7 ∧ flag s (Reg.lpTestCtl n) LpTestCtl.FELBOK then toState s n 10
      else if e ≠ 0 then
        let s := laneLog (lastErr s n e) n 1
        setLane s n { lane s n with tsRx := 0, failAt := some ((lane s n).failAt.getD s.clk.now) }
      else
        let w := widthOf (fld s x LpState.LANEOK) (ofLE (slice c 5 4)) (flag s (Reg.lpCfg n) LpCfg.W16)
        let sizes := (List.range 8).foldl (fun m v => eSet 0 v (at_ (11 + v)) m) []
        let r := lane s n
        laneUp (setLane (setWidth s n w) n
          { r with tsRx := r.tsRx + 1, peerSize := sizes, peerEseq := some (ofLE (slice c 9 2) % 4096) }) n)

/-- CONFIG_RETRY (R519): 1 ms after a failed check the port sends TS blocks again. -/
def execConfigRetry (n : Nat) (s : State) : Host.Outcome State Fault Refusal :=
  .next (match (lane s n).failAt with
    | none => s
    | some g =>
      if lpState s n ≠ 4 then s
      else
        let s := advanceTo s (g + usCycles 1000)
        setLane s n { lane s n with failAt := none, tsTx := 0 })

/-- PEER_CLOCK_DETECT (R520): DETECT sees the peer's clock lanes. -/
def execPeerClockDetect (n : Nat) (s : State) : Host.Outcome State Fault Refusal :=
  .next (if lpState s n = 1 then setLane (toState s n 2) n { lane (toState s n 2) n with held := [], seen := [] } else s)

/-- DETECT_TIMEOUT (R520): after 1 ms without a peer clock DETECT begins again. -/
def execDetectTimeout (n : Nat) (s : State) : Host.Outcome State Fault Refusal :=
  .next (if lpState s n = 1 then toState (lastErr (advanceTo s ((lane s n).since + usCycles 1000)) n 1) n 1 else s)

/-- LANE_PEER_LOSS (R578): the peer's clock is lost and the port goes to DETECT, or its training state is, and the port recovers. What a lost peer
can no longer acknowledge is given up as in DOWN (log 41, DEDUCED). -/
def execLanePeerLoss (n : Nat) (clock : Bool) (s : State) : Host.Outcome State Fault Refusal :=
  let st := lpState s n
  .next (if st = 0 ∨ st = 9 ∨ st = 11 ∨ st = 8 then s
    else if clock then
      let keep := (lane s n).egress
      let s := laneDrop (setLane s n { lane s n with egress := [] }) n
      toState (setLane s n { lane s n with egress := keep, noEq := false, tsTx := 0, tsRx := 0, toQuiet := 0, toDeep := none,
                                           peerQuiet := false, peerDeep := false }) n 1
    else if lpActive s n then laneRecover s n
    else s)

/-! ### Power states (R524-R527) -/

/-- Is a block due other than an acknowledgement, or is any block unacknowledged? -/
def laneBusy (s : State) (n : Nat) : Bool :=
  let r := lane s n
  ! r.egress.isEmpty || ! r.replay.isEmpty || r.retryDue || ! (spWaiting s n).isEmpty || ctlDue s n

/-- QUIET_ENTER (R524): idle for QIDLE since all its conditions hold; four QUIET blocks go out first. -/
def execQuietEnter (n : Nat) (s : State) : Host.Outcome State Fault Refusal :=
  let c := Reg.lpPmCfg n
  .next (if lpState s n ≠ 5 ∨ ! flag s c LpPmCfg.QEN ∨ laneBusy s n ∨ (lane s n).toDeep.isSome then s
    else
      let s := advanceTo s ((lane s n).calm + cycleAt (max 64 (fld s c LpPmCfg.QIDLE)))
      toState (setLane s n { lane s n with toQuiet := 4 }) n 7)

/-- QUIET_EXIT (R524): a due block wakes the direction, and two ALIGN blocks go first. An acknowledgement or credit change makes a CTL block due once
CTLINT block times have passed. -/
def execQuietExit (n : Nat) (s : State) : Host.Outcome State Fault Refusal :=
  .next (if lpState s n ≠ 7 ∨ ! (laneBusy s n || ctlNews s n) then s
    else
      let p := arbPeriod s (.lp n)
      let s := if laneBusy s n then s else advanceTo s ((lane s n).since + ceilDiv ((ctlInt s n - (lane s n).nCtl) * 9 * p.1) (4 * p.2))
      toState (setLane s n { lane s n with toQuiet := 0, aligns := 2, busy := s.clk.now, calm := s.clk.now, nCtl := ctlGap s n }) n 5)

/-- QUIET received (R524): the peer's direction idles. -/
def execQuiet (n : Nat) (b : CtlBlock) (s : State) : Host.Outcome State Fault Refusal :=
  .next (ctlIn s n kQuiet b [5, 7] fun _ s => setLane s n { lane s n with peerQuiet := true })

/-- DEEP_ENTER (R526): DEEPREQ, or DEEPIDLE without other blocks; once every sequenced block is acknowledged four DEEP blocks are sent. -/
def execDeepEnter (n : Nat) (s : State) : Host.Outcome State Fault Refusal :=
  let c := Reg.lpPmCfg n
  let idle := fld s c LpPmCfg.DEEPIDLE
  let r := lane s n
  .next (if ! lpActive s n ∨ r.toDeep.isSome ∨ ! r.replay.isEmpty then s
    else if flag s c LpPmCfg.DEEPREQ then setLane (toState s n 5) n { lane (toState s n 5) n with toDeep := some 4, toQuiet := 0 }
    else if idle = 0 ∨ laneBusy s n then s
    else
      let s := toState (advanceTo s (r.busy + usCycles idle)) n 5
      setLane s n { lane s n with toDeep := some 4, toQuiet := 0 })

/-- DEEP received (R526): the port finishes its replay and sends four DEEP blocks; both then enter DEEP. -/
def execDeep (n : Nat) (b : CtlBlock) (s : State) : Host.Outcome State Fault Refusal :=
  .next (ctlIn s n kDeep b [5, 7] fun _ s =>
    let r := lane s n
    if r.toDeep = some 0 then toState (setLane s n { r with toDeep := none, peerDeep := false }) n 8
    else
      let s := setLane s n { r with peerDeep := true, toDeep := some (r.toDeep.getD 4), toQuiet := 0 }
      if lpState s n = 7 then toState s n 5 else s)

/-- DEEP_WAKE (R526): a packet or message for egress, a clear of DEEPREQ, or the peer's clock lanes restarting (`peer`); ALIGN and CONFIG run
again. -/
def execDeepWake (n : Nat) (peer : Bool) (s : State) : Host.Outcome State Fault Refusal :=
  let r := lane s n
  .next (if lpState s n ≠ 8 ∨ ! (peer || ! r.egress.isEmpty || ! (spWaiting s n).isEmpty || ! flag s (Reg.lpPmCfg n) LpPmCfg.DEEPREQ) then s
    else setLane (toState s n 2) n { lane (toState s n 2) n with noEq := true, held := [], seen := [], tsTx := 0, tsRx := 0 })

/-! ### Configuration and tests (R509, R529-R532) -/

/-- LANE_PORT_CFG_WRITE (R509, R532): DIR and W16 of LP_CFG and the sizes of LP_VC_CFG apply only while the port is in RESET. -/
def lpCfgWrite (s : State) (n off v : Nat) : State :=
  if off = Reg.lpCfg n then
    if lpState s n = 0 then softWrite s off v
    else
      let old := rd s off
      let s := softWrite s off v
      setFld (setFld s off LpCfg.DIR (getF old LpCfg.DIR)) off LpCfg.W16 (getF old LpCfg.W16)
  else if off = Reg.lpVcCfg n ∧ lpState s n = 0 then softWrite s off v
  else s

/-- LP_PM_CFG written: while a group with SPEN = 1 has a member here, firmware keeps QEN and DEEPIDLE 0 and does not set DEEPREQ (R525; log 152,
DEDUCED). QEN set is a condition of QUIET that holds from then on (R524). -/
def pmWrite (s : State) (n v : Nat) (piped : Bool) : State :=
  let off := Reg.lpPmCfg n
  let was := flag s off LpPmCfg.QEN
  let s := softWrite s off (if piped then putBits (putBits (putBits v 63 63 0) 31 16 0) 0 0 0 else v)
  if was then s else setLane s n { lane s n with calm := s.clk.now }

/-- LP_LANE_EQ written (R522): taps outside their ranges are clamped, and MAIN follows them. -/
def laneEqWrite (s : State) (off v : Nat) : State :=
  let s := softWrite s off v
  let pre := max (-16) (min 0 (signed 8 (fld s off LpLaneEq.PRE)))
  let post := max (-24) (min 0 (signed 8 (fld s off LpLaneEq.POST)))
  setFld (setFld (setFld s off LpLaneEq.PRE (unsigned 8 pre)) off LpLaneEq.POST (unsigned 8 post)) off LpLaneEq.MAIN (64 + pre + post).toNat

/-- The row. -/
def execLanePortCfgWrite (n off v : Nat) (s : State) : Host.Outcome State Fault Refusal := .next (lpCfgWrite s n off v)

/-- A write of LP_TEST_CTL that sets MODE (R529): applied only in RESET, DOWN or TEST; its other fields always. A reserved MODE discards the
write. -/
def testWrite (s : State) (n v : Nat) : State × Bool :=
  let off := Reg.lpTestCtl n
  let m := bits v 63 61
  let ok := lpState s n == 0 || lpState s n == 11 || lpState s n == 9
  if 5 ≤ m then (s, false)
  else
    let old := fld s off LpTestCtl.MODE
    let w := putBits (putBits v 57 54 0) 63 61 (if ok then m else old)
    let s := [LpTestCtl.INJCRC, LpTestCtl.INJCODE, LpTestCtl.INJSP].foldl (fun s f => if bit v f.lo then noteAgain s off f else s) (softWrite s off w)
    let r := lane s n
    let s := setLane s n { r with injCrc := r.injCrc || (bit v 56 && lpActive s n),
                                  injCode := r.injCode || (bit v 55 && lpActive s n), injSp := r.injSp || (bit v 54 && lpActive s n) }
    (injDone s n, ok)

/-- Bit errors added to each lane's saturating count (R530, R534). -/
def prbsErrs (s : State) (n : Nat) (errs : List Nat) : State :=
  ((List.range 32).zip errs).foldl (fun s x => bumpSat s (Reg.lpLaneStat n x.1) LpLaneStat.PRBSERR x.2) s

/-- A test mode entered by a write whose MODE is `m`. -/
def testMode (s : State) (n v m : Nat) (errs : List Nat) : State :=
  if bits v 63 61 ≠ m then s
  else
    let x := testWrite s n v
    if ! x.2 then x.1
    else
      let s := toState x.1 n 9
      prbsErrs (laneOut s n (.prbs (fld s (Reg.lpTestCtl n) LpTestCtl.POLY) 0)) n errs

/-- PRBS (R529, R530): each lane sends POLY and checks what arrives; `errs` are the bit errors of the 32 lanes. -/
def execPrbs (n v : Nat) (errs : List Nat) (s : State) : Host.Outcome State Fault Refusal := .next (testMode s n v 1 errs)

/-- NESLB (R529): each serialiser feeds its own deserialiser, so the pattern returns as sent. -/
def execNeslb (n v : Nat) (s : State) : Host.Outcome State Fault Refusal := .next (testMode s n v 2 [])

/-- NEPLB (R529). -/
def execNeplb (n v : Nat) (s : State) : Host.Outcome State Fault Refusal := .next (testMode s n v 3 [])

/-- FELB (R529): the port trains with the loopback bit set; `errs` are the bit errors seen through the peer. -/
def execFelb (n v : Nat) (errs : List Nat) (s : State) : Host.Outcome State Fault Refusal :=
  .next (if bits v 63 61 ≠ 4 then s
    else
      let x := testWrite s n v
      if x.2 then prbsErrs (toState x.1 n 1) n errs else x.1)

/-- TEST_MODE_OFF (R529): the port returns to normal training; one without a direction stays in RESET (R514). -/
def execTestModeOff (n v : Nat) (s : State) : Host.Outcome State Fault Refusal :=
  .next (if bits v 63 61 ≠ 0 then s
    else
      let x := testWrite s n v
      if x.2 ∧ lpState s n = 9 then toState x.1 n (if fld x.1 (Reg.lpCfg n) LpCfg.DIR = 0 then 0 else 1) else x.1)

/-- INJ (R530): one bit inverted on each lane of INJMASK; a port looped onto itself counts it. In ACTIVE it strikes the next block. -/
def execInj (n v : Nat) (s : State) : Host.Outcome State Fault Refusal :=
  .next (if ! bit v 57 then s
    else
      let s := (testWrite s n v).1
      let m := fld s (Reg.lpTestCtl n) LpTestCtl.INJMASK
      let mode := fld s (Reg.lpTestCtl n) LpTestCtl.MODE
      let s := setLane s n { lane s n with injBit := lpActive s n && m != 0 }
      if lpState s n = 9 then
        let s := laneOut s n (.prbs (fld s (Reg.lpTestCtl n) LpTestCtl.POLY) m)
        if mode = 2 ∨ mode = 3 then prbsErrs s n ((List.range 32).map fun l => b2n (bit m l)) else s
      else s)

/-- INJCRC (R530). -/
def execInjcrc (n v : Nat) (s : State) : Host.Outcome State Fault Refusal := .next (if bit v 56 then (testWrite s n v).1 else s)

/-- INJCODE (R530). -/
def execInjcode (n v : Nat) (s : State) : Host.Outcome State Fault Refusal := .next (if bit v 55 then (testWrite s n v).1 else s)

/-- INJSP (R530). -/
def execInjsp (n v : Nat) (s : State) : Host.Outcome State Fault Refusal := .next (if bit v 54 then (testWrite s n v).1 else s)

end Sys2Proof.Machine
end

