-- ==== Sys2Proof/Machine/Ethernet.lean ====
section
/-!
DEFINITION. The Ethernet boundary (chapter 13): transmission selection, the frame interface, underruns, low-power idle, control frames, port
loss, and the writes of bound scheduled streams.
-/
namespace Sys2Proof.Machine

/-! ### Transmission selection (R481) -/

/-- The frame a free port selects: the highest class with a frame waiting that is not paused (R491) and whose credit allows it, control queue
first. -/
def pickFrame (s : State) (e k : Nat) : Option (Bool × Nat × QFrame) :=
  let p := port s e k
  let ok (c : Nat) : Bool := ! (p.paused.any fun x => x.1 == c && decide (s.clk.now < x.2)) && (! flag s (Reg.rteTc e c) RteTc.CBS || decide (0 ≤ eGet 0 c p.credit)) && p.waits c
  match [7, 6, 5, 4, 3, 2, 1, 0].find? ok with
  | none => none
  | some c =>
    match p.ctl.find? fun x => x.1 == c with
    | some x => some (true, x)
    | none => (p.data.find? fun x => x.1 == c).map fun x => (false, x)

/-- PORT_SELECT (R481): the port, free again, moves its next frame into the staging buffer. An ACK that leaves makes room for the pair's next
syndrome (R448). -/
def execPortSelect (e k : Nat) (s : State) : Host.Outcome State Fault Refusal :=
  .next (if ! portOn s e k ∨ ! (port s e k).stage.isEmpty then s
    else
      let s := creditSettle (advanceTo s (port s e k).busy) e k
      match pickFrame s e k with
      | none => s
      | some (isCtl, x) =>
        let p := port s e k
        let s := setPort s e k { p with stage := [x], ctl := if isCtl then p.ctl.erase x else p.ctl,
                                        data := if isCtl then p.data else p.data.erase x }
        if x.2.f.bth.opc = .ack ∧ ! (qp s e x.2.q).synds.isEmpty then ackNow s e x.2.q else s)

/-! ### The frame interface (R440, R460, R484, R485) -/

/-- The pair a frame belongs to; a destroyed one is known by its closing record. -/
def pairOf (s : State) (e q : Nat) : QpRun :=
  if (qp s e q).par.isEmpty then
    match s.rte.closing.find? fun c => c.e == e && c.q == q with
    | some c => { par := c.par, txctr := c.txctr }
    | none => {}
  else qp s e q

/-- One transmission counted (R460). -/
def countTx (s : State) (e q : Nat) : State :=
  if (qp s e q).par.isEmpty then
    let f (c : CloseRun) : CloseRun := { c with txctr := c.txctr + 1 }
    { s with rte := { s.rte with closing := updFirst (fun c => c.e == e && c.q == q) f s.rte.closing } }
  else setQp s e q { qp s e q with txctr := (qp s e q).txctr + 1 }

/-- A frame as it crosses: time, counter, key phase, and the ICRC or the sealed body with its tag (R439, R444, R460); none when its key is
absent. TXCTR is used on encrypted pairs (log 37, DEDUCED). -/
def finishFrame (s : State) (e : Nat) (x : QFrame) : Option Frame :=
  let r := pairOf s e x.q
  let b := { x.f.bth with ts := timeNs s % 2 ^ 32, txctr := if r.enc then r.txctr else 0, kp := if r.enc then (qpKeys s e r).cur else 0 }
  if ! r.enc then some { x.f with bth := b, check := icrcOf b x.f.body }
  else
    match (qpKeys s e r).key b.kp with
    | none => none
    | some key =>
      let c := Config.gcmSeal key (nonceOf r.srcId b.sqpn b.txctr) (toBE 32 (bthNat b)) x.f.body
      some { x.f with bth := b, body := c.take x.f.body.length, check := c.drop x.f.body.length }

/-- Cycles a frame takes at the frame interface: 100 bytes per ns (R484). -/
def frameCycles (len : Nat) : Nat := ceilDiv (9 * len) 400

/-- The end of a packet's last transmission noted (R450). -/
def noteSent (s : State) (e : Nat) (x : QFrame) (g : Nat) : State :=
  let r := qp s e x.q
  if x.isData then
    setQp s e x.q { r with tx := updFirst (fun t => t.psn == x.f.bth.psn) (fun t => { t with sentAt := some g }) r.tx }
  else s

/-- The Internet checksum of bytes: the complement of the one's complement sum of their 16-bit words, with 0xFFFF for 0. -/
def inetSum (bs : List Byte) : Nat :=
  let t := ((List.range (ceilDiv bs.length 2)).map fun i => (bs.getD (2 * i) 0).toNat * 256 + (bs.getD (2 * i + 1) 0).toNat).foldl (· + ·) 0
  if t % 65535 = 0 then 0xFFFF else 65535 - t % 65535

/-- The UDP checksum of a finished frame (R439): computed over IPv6 with its pseudo-header, zero over IPv4. -/
def udpSum (f : Frame) : Nat :=
  let n := 8 + 32 + f.body.length + f.check.length
  if ! f.v6 then 0
  else inetSum (toBE 16 f.srcIp ++ toBE 16 f.dstIp ++ toBE 4 n ++ toBE 4 17 ++ toBE 2 f.sport ++ toBE 2 f.dport ++ toBE 2 n ++ toBE 2 0 ++
    toBE 32 (bthNat f.bth) ++ f.body ++ f.check)

/-- What the interface puts around a pair's finished packet of a class (R439, R479, R483). -/
def ethHdr (s : State) (e k c : Nat) (r : QpRun) (x : QFrame) (f : Frame) : EthHdr :=
  let t := Reg.rteTc e c
  { dmac := fld s (Reg.rtePortNh e k) RtePortNh.NHMAC, smac := fld s (Reg.rtePortMac e k) RtePortMac.SMAC,
    tag := if flag s t RteTc.VT then some (fld s t RteTc.PCP, fld s t RteTc.VID) else none,
    etype := if r.v6 then 0x86DD else 0x0800, dscp := fld s t RteTc.DSCP, ecn := if x.isData then 2 else 0,
    hop := fld s (Reg.rteCfg e) RteCfg.HOPLIM, flow := if r.v6 then 64 * (x.q % 16384) + x.f.bth.path else 0,
    df := ! r.v6, ident := 0, sum := udpSum f }

/-- STARTTH of a port. -/
def startth (s : State) (e k : Nat) : Nat := fld s (Reg.rtePortStat e k) RtePortStat.STARTTH

/-- A frame whose last word has crossed without an underrun counted (R485). -/
def endFrame (s : State) (e k : Nat) : State :=
  let s := creditSettle s e k
  let p := port s e k
  if p.cur.isSome ∧ p.busy ≤ s.clk.now then setPort s e k { p with cur := none, clean := p.clean + 1 } else s

/-- A frame ended by an underrun (R485): a bad FCS, its packet lost, UNDERRUN counted, STARTTH raised and the decay's count restarted (R493), and a
record when STARTTH reaches its end. -/
def underrunNow (s : State) (e k : Nat) (x : Nat × QFrame) (inj : Bool) : State :=
  let st := Reg.rtePortStat e k
  let old := startth s e k
  let new := min 4288 (old + 64 * max 1 (fld s (Reg.rtePortCfg e k) RtePortCfg.STSTEP))
  let s := creditSettle s e k
  let s := setFld (bump s st RtePortStat.UNDERRUN 1) st RtePortStat.STARTTH new
  let s := setPort s e k { port s e k with cur := none, busy := s.clk.now, clean := 0 }
  let s := noteSent { s with rte := { s.rte with out := s.rte.out ++ [.badFcs e k] } } e x.2 s.clk.now
  if old < 4288 ∧ new = 4288 then log s { errOf (unitCode .rte e) .eth 1 with synd := k * 2 ^ 124, inj := inj } else s

/-- FRAME_START (R484, R485, R488): the staged frame crosses to the MAC, after the previous one and after the wake time, when the smaller of its length
and STARTTH of its bytes are staged (log 183). -/
def execFrameStart (e k : Nat) (s : State) : Host.Outcome State Fault Refusal :=
  .next (match (port s e k).stage with
    | [] => s
    | x :: rest =>
      if ! portOn s e k ∨ (port s e k).lpi then s
      else
        let s := endFrame (advanceTo s (max (port s e k).busy (port s e k).wakeAt)) e k
        let r := pairOf s e x.2.q
        if r.enc ∧ 2 ^ 40 ≤ r.txctr + 1 then
          closeTidy (qpError (setPort s e k { port s e k with stage := rest }) e x.2.q .aborted)
        else match finishFrame s e x.2 with
          | none => closeTidy (setPort s e k { port s e k with stage := rest })
          | some f0 =>
            let hit := injArmed s (.rte e) .eth (fun sel => (sel == 0 && ! r.enc) || (sel == 1 && r.enc)) &&
              fld s (Reg.inj (.rte e)) Inj.BITS == k
            let under := injArmed s (.rte e) .eth (fun sel => sel == 2) && fld s (Reg.inj (.rte e)) Inj.BITS == k
            let s := if hit || under then injFire s (.rte e) else s
            let f : Frame := if hit then { f0 with check := f0.check.set 0 (f0.check.getD 0 0 ^^^ 1) } else f0
            let g := s.clk.now + frameCycles x.2.len
            let h := ethHdr s e k x.1 r x.2 f
            let p := port s e k
            let s := setPort s e k { p with stage := rest, cur := some x, busy := g, staged := min x.2.len (startth s e k), active := g }
            let s := closeTidy (if r.enc then countTx s e x.2.q else s)
            if under then underrunNow s e k x true
            else noteSent { s with rte := { s.rte with out := s.rte.out ++ [.frame e k h f] } } e x.2 g)

/-- UNDERRUN (R485): the MAC takes a word that is not staged; a frame that was whole before it started has none. -/
def execUnderrun (e k : Nat) (s : State) : Host.Outcome State Fault Refusal :=
  .next (match (port s e k).cur with
    | none => s
    | some x => if (port s e k).busy ≤ s.clk.now ∨ x.2.len ≤ (port s e k).staged then s else underrunNow s e k x false)

/-- STARTTH_DECAY (R485, R494): after 65,536 frames that have crossed with no underrun. -/
def execStartthDecay (e k : Nat) (s : State) : Host.Outcome State Fault Refusal :=
  let s := endFrame s e k
  .next (if (port s e k).clean < 65536 then s
    else
      let v := min 4288 (max (64 * max 1 (fld s (Reg.rtePortCfg e k) RtePortCfg.STMIN)) (startth s e k - 64))
      setFld (setPort s e k { port s e k with clean := (port s e k).clean - 65536 }) (Reg.rtePortStat e k) RtePortStat.STARTTH v)

/-! ### Control frames (R489, R490) -/

/-- A port in LPI woken (R488, R489): the request is withdrawn, and no frame starts until TWSYS has passed. -/
def wakePort (s : State) (e k : Nat) : State :=
  let s := creditSettle s e k
  setPort s e k { port s e k with lpi := false, wakeFrom := s.clk.now,
                                  wakeAt := s.clk.now + cycleAt (fld s (Reg.rtePortEee e k) RtePortEee.TWSYS) }

/-- A frame of firmware's (R489, R490): from a port in LPI it leaves after the wake time (R488). -/
def fwFrame (s : State) (e k : Nat) (x : EthOut) : State :=
  let s := if (port s e k).lpi then wakePort s e k else s
  let s := advanceTo s (port s e k).wakeAt
  { s with rte := { s.rte with out := s.rte.out ++ [x] } }

/-- EEEACT cleared: the port stays active (R489). -/
def eeeOff (s : State) (e k : Nat) : State :=
  let s := setFld s (Reg.rtePortEee e k) RtePortEee.EEEACT 0
  if (port s e k).lpi then wakePort s e k else s

/-- A class paused for a time in ns by priority flow control that the MAC honours, or released (R491; log 184, DESIGN CHOICE). -/
def pauseClass (s : State) (e k c ns : Nat) : State :=
  let s := creditSettle s e k
  let p := port s e k
  let l := p.paused.filter fun x => x.1 != c
  setPort s e k { p with paused := if ns = 0 then l else l ++ [(c, s.clk.now + cycleAt ns)] }

/-- ETH_CONTROL_FRAME (R490): address resolution and LLDP go to firmware, 64 frames per port and millisecond; firmware answers requests for the
port's own addresses. Everything else is counted in NONRTE. Log 52, DESIGN CHOICE. -/
def execEthControlFrame (e k : Nat) (c : CtlFrame) (s : State) : Host.Outcome State Fault Refusal :=
  let p := port s e k
  let ms := timeNs s / 1000000
  let n := if p.ctlMs = ms then p.ctlN else 0
  .next (if let .pfc cls ns := c then pauseClass s e k cls ns
    else if ! portOn s e k ∨ c = .other ∨ 64 ≤ n then bump s (Reg.rtePortStat e k) RtePortStat.NONRTE 1
    else
      let s := setPort s e k { p with ctlMs := ms, ctlN := n + 1 }
      let answer (s : State) (a : CtlFrame) : State := fwFrame s e k (.control e k a)
      match c with
      | .arpRequest ip => if ownIp s e k false ip then answer s (.arpReply ip) else s
      | .neighbourSolicit ip => if ownIp s e k true ip then answer s (.neighbourAdvert ip) else s
      | _ => s)

/-- EEE_TLV_EXCHANGE (R489): firmware sends the EEE TLV; when the partner has answered, the exchange is complete: it takes the partner's wake time and
sets TWSYS and EEEACT. `mac` is the MAC's least transmit wake time, which the integrator states. -/
def execEeeTlvExchange (e k : Nat) (peer : Option Nat) (mac : Nat) (s : State) : Host.Outcome State Fault Refusal :=
  let r := Reg.rtePortEee e k
  let c := Reg.rtePortCfg e k
  .next (if ! portOn s e k then s
    else
      let s := fwFrame s e k (.eeeTlv e k)
      match peer with
      | none => s
      | some peer =>
        let tw := max (peer % 65536) mac
        let s := setFld (setFld s r RtePortEee.PEERTW (peer % 65536)) r RtePortEee.TWSYS tw
        if flag s c RtePortCfg.EEE && decide (tw ≤ min 1000 (fld s c RtePortCfg.TWMAX)) then setFld s r RtePortEee.EEEACT 1
        else eeeOff s e k)

/-! ### Low-power idle (R488, R493) -/

/-- Is a port idle in the sense of R488: nothing queued or staged, no operation in flight and no delayed ACK on a pair with a path on it? -/
def portIdle (s : State) (e k : Nat) : Bool :=
  let p := port s e k
  p.data.isEmpty && p.ctl.isEmpty && p.stage.isEmpty &&
    ! s.rte.qps.any fun x => x.1 / 16384 == e && x.2.usedPorts.contains k && (! x.2.open_.isEmpty || x.2.ackAt.isSome)

/-- LPI_ENTER (R488): the port has been idle for LPIIDLE. -/
def execLpiEnter (e k : Nat) (s : State) : Host.Outcome State Fault Refusal :=
  let p := port s e k
  .next (if ! portOn s e k ∨ p.lpi ∨ ! flag s (Reg.rtePortEee e k) RtePortEee.EEEACT ∨ ! portIdle s e k then s
    else
      let s := advanceTo s (max p.active p.busy + cycleAt (fld s (Reg.rtePortCfg e k) RtePortCfg.LPIIDLE))
      bump (setPort s e k { port s e k with lpi := true }) (Reg.rtePortStat e k) RtePortStat.LPIN 1)

/-- LPI_WAKE (R488): a frame is ready: the request is withdrawn, and no frame starts until TWSYS has passed. -/
def execLpiWake (e k : Nat) (s : State) : Host.Outcome State Fault Refusal :=
  let p := port s e k
  .next (if ! p.lpi ∨ (p.data.isEmpty && p.ctl.isEmpty && p.stage.isEmpty) then s
    else wakePort s e k)

/-! ### Port loss (R463, R493, R578) -/

/-- A pair after one of its ports went down (R463, R476, R493): packets that were queued there are lost; RATE falls to RMAX; without any port left
the pair is unreachable. -/
def pairPortDown (s : State) (e k q : Nat) : State :=
  let r := qp s e q
  let lost (t : TxPkt) : Bool := ! t.wait && t.sentAt.isNone && (t.path.map r.pathPort) == some k
  let s := setQp s e q { r with tx := r.tx.map fun t => if lost t then { t with sentAt := some s.clk.now } else t }
  let s := setRate s e q (min (rate s e q) (rmax s e r))
  if r.ports.any fun j => (port s e j).up then s else qpError s e q .peerUnreachable

/-- A port down: what it queues and stages is gone, frames at the transmit arbiter among it, and its EEE exchange no longer holds (R489;
log 160, DEDUCED). -/
def portDown (s : State) (e k : Nat) : State :=
  let p := port s e k
  let s := setPort s e k { p with up := false, data := [], ctl := [], stage := [], cur := none, busy := 0, lpi := false }
  let s := { s with rte := { s.rte with bundles := s.rte.bundles.filter fun b => ! (b.e == e && b.k == k) } }
  let s := setFld s (Reg.rtePortEee e k) RtePortEee.EEEACT 0
  closeTidy ((s.rte.qps.filter fun x => x.1 / 16384 == e && x.2.ports.contains k).foldl (fun s x => pairPortDown s e k (x.1 % 16384)) s)

/-- ETH_PORT_DOWN (R493). -/
def execEthPortDown (e k : Nat) (s : State) : Host.Outcome State Fault Refusal :=
  .next (if (port s e k).up then portDown s e k else s)

/-- ETH_PORT_UP (R493): the port's paths are used again; firmware sends the EEE TLV, where the port carries frames (R486, R489). -/
def execEthPortUp (e k : Nat) (s : State) : Host.Outcome State Fault Refusal :=
  .next (if (port s e k).up then s
    else
      let s := setPort s e k { port s e k with up := true, active := s.clk.now }
      if portOn s e k then fwFrame s e k (.eeeTlv e k) else s)

/-- MAC_RESET (R578): the port is treated as down, and its buffers are flushed. -/
def execMacReset (e k : Nat) (s : State) : Host.Outcome State Fault Refusal := .next (portDown s e k)

/-! ### Grants (R239, R478) -/

/-- The frame at an engine's transmit arbiter that a request stands for: its requester and its pair name it. -/
def bundleFor (s : State) (e : Nat) (q : ArbReq) : Option TxBundle :=
  if q.kind = .bundle then s.rte.bundles.find? fun b => b.e == e && b.who == q.who && b.x.q == q.id else none

/-- Has the data queue of a frame room for the whole of it (R478, R480)? -/
def queueRoom (s : State) (b : TxBundle) : Bool := decide ((port s b.e b.k).dataBytes b.c + b.x.len ≤ 32768)

/-- A packet's request at a lane port: the front packet of its channel offers its flits, with its phase class and priority, while the peer has room for
one and the replay buffer a free entry (R175, R504, R505). -/
def atLane (s : State) (n : Nat) (q : ArbReq) (p : Pkt) : ArbReq :=
  let r := lane s n
  match vcFront r (vcOf p) with
  | some x =>
    if x.pkt = p then { q with grains := flits p, cls := x.cls, prio := p.prio,
                               ready := q.ready && decide (0 < vcCredit r (vcOf p)) && decide (r.replay.length < 2048) }
    else { q with ready := false }
  | none => { q with ready := false }

/-- A request as it stands at an arbiter: at a reduction unit's input a contribution offers a flit only while the pipeline may take it (R229); at an
RTE's transmit arbiter a bundle is presented with its frame's grains and class, and only while its data queue has room (R437, R478). -/
def presented (s : State) (a : Arb) (q : ArbReq) : ArbReq :=
  match a with
  | .ru t => match q.pkt with
    | some _ => { q with ready := q.ready && (match heldFor s t q with | some y => flitOpen s y.1 y.2 | none => false) }
    | none => q
  | .lp n => match q.pkt with
    | some p => atLane s n q p
    | none => q
  | .rte e => match bundleFor s e q with
    | some b => { q with grains := b.grains, cls := b.c, prio := 1, cmd := b.cmd.getD s.host.nextCmd,
                         ready := q.ready && (decide (0 < b.took) || queueRoom s b) }
    | none => if q.kind = .bundle then { q with ready := false } else q
  | _ => q

/-- A bundle's next grain moved (R478): with the last the frame is in its data queue. -/
def takeBundle (s : State) (b : TxBundle) : State :=
  if b.took + 1 < b.grains then
    { s with rte := { s.rte with bundles := updFirst (· == b) (fun y => { y with took := y.took + 1 }) s.rte.bundles } }
  else putData { s with rte := { s.rte with bundles := s.rte.bundles.erase b } } b.e b.k b.c b.x

/-- What a granted grain does where the arbiter's grants order it: at a reduction unit the operands combine in the order of their flits' grants
(R239); at a transmit arbiter a frame's grains move on (R478). -/
def grantEffect (s : State) (a : Arb) : State :=
  match a, (arbRun s a).granted with
  | .ru t, some q => match heldFor s t q with
    | some y => takeFlit s y.1 y.2
    | none => s
  | .rte e, some q => match bundleFor s e q with
    | some b => takeBundle s b
    | none => s
  | _, _ => s

/-- Can the arbiter's resource accept a grain in this cycle: a lane port's only in ACTIVE and at a boundary that no earlier block takes (R504)? -/
def accepting (s : State) (a : Arb) : Bool :=
  match a with
  | .lp n => lpState s n == 5 && laneYields s n
  | _ => true

/-- ARBITER_CYCLE (R152, R239, R478): one decision; nothing is granted when the resource accepts no grain. Log 48, DEDUCED. -/
def execArbiterCycle (a : Arb) (reqs : List ArbReq) (accept : Bool) (s : State) : Host.Outcome State Fault Refusal :=
  let s := arbBegin s a
  .next (grantEffect (arbDecide s a (reqs.map (presented s a)) (accept && accepting s a)) a)

/-! ### Bound streams (R467) -/

/-- What the post of a bound stream's WRITE ends with at once (R426, R435, R467): its pair is FREE, another tenant's, in ERROR or DEAD, or it is too long. -/
def boundPost (s : State) (e q t n : Nat) : Option Status :=
  if qpState s e q = 0 then some .badDescriptor
  else if (qp s e q).tenant ≠ t then some .tenantViolation
  else if qpState s e q = 2 then some (Status.ofCode (fld s (qpStat e q) RteQpStat.STATUS))
  else if qpState s e q = 3 then some .poisoned
  else if 0x80000000 < n then some .lengthRange
  else none

/-- RTE_SBIND_WRITE (R467): RBYTES of a bound stream's data posted as one WRITE to RVA. -/
def execRteSbindWrite (e b : Nat) (s : State) : Host.Outcome State Fault Refusal :=
  let a := Reg.rteSbindA e b
  let c := Reg.rteSbindC e b
  let key := 16384 + e * 64 + b
  let n := fld s c RteSbindC.RBYTES
  let q := fld s a RteSbindA.QP
  .next (if ! flag s a RteSbindA.V ∨ n = 0 then s
    else
      let t := fld s a RteSbindA.TENANT
      let s := bindGather s key (.rte e) (fld s a RteSbindA.CH) t (fld s a RteSbindA.STREAM) n
      let r := eGet {} key s.sch.binds
      if r.gathered.length < n then s
      else
        let s := { s with sch := { s.sch with binds := eSet {} key { r with gathered := r.gathered.drop n, psn := false } s.sch.binds } }
        let p : QpPost := { cmd := none, qop := 0, rva := fld s (Reg.rteSbindB e b) RteSbindB.RVA, len := n, rkey := fld s c RteSbindC.RKEY,
                            inl := r.gathered.take n, ctr := some (Reg.ctr (.rte e) (fld s a RteSbindA.CTR)), psn := r.psn }
        let s := portless s e q
        match boundPost s e q t n with
        | some st => ownDone s p st
        | none => postOp s e q p)

end Sys2Proof.Machine
end

