-- ==== Sys2Proof/Machine/Marks.lean ====
section
/-!
DEFINITION. Relays at lane ports and RTEs (R264, R466), the arrival of contributions, results and marks at whatever unit they name, and the
messages that end a collective.
-/
namespace Sys2Proof.Machine

/-! ### Relays (R264, R466) -/

/-- The block of a relay's endpoint. -/
def relayBlk (e : Ep) : Option Blk := match Ep_kind e with | .lp n => some (.lp n) | .rte n => some (.rte n) | _ => none

/-- The register of a relay. -/
def relayReg (b : Blk) (r : Nat) : Nat := Reg.relay b r

/-- Is a relay enabled for a tenant (R264)? -/
def relayOk (s : State) (b : Blk) (r tenant : Nat) : Bool :=
  flag s (relayReg b r) Relay.V && fld s (relayReg b r) Relay.TENANT == tenant

/-- A relay's target endpoint and context. -/
def relayDst (s : State) (b : Blk) (r : Nat) : Ep :=
  let x := relayReg b r
  ⟨fld s x Relay.TDCHIP, 8 * fld s x Relay.TDY + fld s x Relay.TDX, fld s x Relay.TDEP⟩
def relayCtx (s : State) (b : Blk) (r : Nat) : Nat := fld s (relayReg b r) Relay.TCTX

/-- TQP of an RTE relay (R466): the relay at the peer engine and the local pair. -/
def relayTqp (s : State) (b : Blk) (r : Nat) : Nat × Nat :=
  let v := (rd s (relayReg b r)).toNat
  (bits v 55 52, bits v 47 34)

/-- A relay's counter advanced for one packet (R264). -/
def relayCount (s : State) (b : Blk) (r : Nat) : State := addCtr s (Reg.ctr b (fld s (relayReg b r) Relay.CTR)) 1

/-- ADDR of a contribution with another CTX (R227, R264). -/
def withCtx (a c : Nat) : Nat := putBits a 3 0 c

/-- B of a RELAY message (R441). -/
def relayB (opc peer : Nat) (sp : Bool) (sfmt efmt : Nat) : Nat := opc * 2 ^ 26 + peer * 2 ^ 22 + b2n sp * 2 ^ 21 + sfmt * 2 ^ 19 + efmt * 2 ^ 15

/-- A RELAY message posted on the relay's queue pair (R466); a pair that cannot take it answers for the packet. -/
def relayPost (s : State) (e : Nat) (b : Blk) (r tenant : Nat) (p : QpPost) (opc : Nat) (sp : Bool) (sfmt efmt : Nat) : State × Option Status :=
  let t := relayTqp s b r
  let s := portless s e t.2
  if qpState s e t.2 = 0 ∨ (qp s e t.2).tenant ≠ tenant then (s, some .regionFault)
  else if qpState s e t.2 = 2 then (s, some (Status.ofCode (fld s (qpStat e t.2) RteQpStat.STATUS)))
  else if qpState s e t.2 = 3 then (s, some .poisoned)
  else (postOp (relayCount s b r) e t.2 { p with bword := relayB opc t.1 sp sfmt efmt }, none)

/-- A packet forwarded by relay r of a lane port (R264): its phase class at the port's egress is the relay's (R175). -/
def relayOut (s : State) (b : Blk) (r : Nat) (p : Pkt) : State :=
  let q := { p with dst := relayDst s b r, addr := withCtx p.addr (relayCtx s b r) }
  let s := { s with lane := { s.lane with phases := (s.lane.phases.filter fun x => ! samePkt x.1 q) ++ [(q, fld s (relayReg b r) Relay.PHASE)] } }
  putNet (relayCount s b r) q

/-- A contribution or result at a relay (R264): passed on with its destination and CTX changed and everything else kept; the source is acknowledged
by the target (log 19, DEDUCED). An RTE carries it as a RELAY message. -/
def relayPkt (s : State) (p : Pkt) : State :=
  let r := RaCtx p.addr
  match relayBlk p.dst with
  | none => errTo s p .regionFault
  | some b =>
    if ! relayOk s b r p.tenant then errTo s p .regionFault
    else match b with
      | .rte e =>
        let x := relayPost s e b r p.tenant { cmd := none, qop := 7, rva := p.addr, len := p.data.length, layer := p.layer, opid := p.opid,
                                              inl := p.data, orig := some p, psn := p.poison } p.opc.code false p.sfmt p.efmt
        match x.2 with
        | some st => errTo x.1 p st
        | none => x.1
      | _ => relayOut s b r p

/-- A message with another destination and CTX. -/
def spReTo (m : SpMsg) (dst : Ep) (ctx : Nat) : SpMsg :=
  let w := SpWord m 0
  ⟨putBits w 51 30 (dst.chip * 2 ^ 14 + dst.tile % 8 * 2 ^ 11 + dst.tile / 8 * 2 ^ 8 + dst.dep * 2 ^ 4 + ctx % 16) :: m.words.drop 1⟩

/-- A mark at a relay (R264): forwarded in the same way. -/
def relayMark (s : State) (m : SpMsg) : State :=
  let t := (SpDst m).tile
  match relayBlk (SpDst m) with
  | none => spStale s t
  | some b =>
    if ! relayOk s b (SpCtx m) (SpTenant m) then spStale s t
    else match b with
      | .rte e =>
        let bs := m.words.flatMap (toLE 8)
        (relayPost s e b (SpCtx m) (SpTenant m) { cmd := none, qop := 7, len := bs.length, inl := bs } 0 true 0 0).1
      | _ => spSend (relayCount s b (SpCtx m)) (SpDst m) (spReTo m (relayDst s b (SpCtx m)) (relayCtx s b (SpCtx m)))

/-- Pieces of a RELAY message in PSN order. -/
def insPiece (x : Nat × List Byte × Bool) : List (Nat × List Byte × Bool) → List (Nat × List Byte × Bool)
  | [] => [x]
  | y :: r => if seqLe 32 x.1 y.1 then x :: y :: r else y :: insPiece x r

/-- A whole RELAY message passed on by the peer relay (R466). -/
def relayOn (s : State) (e q : Nat) (m : RxMsg) : State :=
  let r := qp s e q
  let b : Blk := .rte e
  let i := bits m.rkey 25 22
  let ps := m.kept.foldl (fun l x => insPiece x l) []
  let data := ps.flatMap fun x => x.2.1
  let o := Opc_code (bits m.rkey 31 26)
  if ! relayOk s b i r.tenant then setQp s e q (syndMsg r m.msn m.base 2)
  else if bit m.rkey 21 then
    let msg := spReTo ⟨elemsOf 8 data⟩ (relayDst s b i) (relayCtx s b i)
    let s := setQp s e q (updMsg r m.msn m.base fun m => { m with begun := true, done := true, kept := [] })
    spSend (relayCount s b i) (rteEp (myChip s) e) msg
  else if bits m.rkey 31 26 = Opc.errRsp.code then
    let s := setQp s e q (updMsg r m.msn m.base fun m => { m with begun := true, done := true, kept := [] })
    putNet (relayCount s b i)
      { opc := .errRsp, src := rteEp (myChip s) e, dst := relayDst s b i, tenant := r.tenant, prio := 3, tag := failTag,
        addr := withCtx (m.va % 2 ^ 56) (relayCtx s b i), nbytes := data.length, layer := m.layer, opid := m.opid, data := data }
  else match o with
    | none => setQp s e q (syndMsg r m.msn m.base 5)
    | some o =>
      let s := setQp s e q (updMsg r m.msn m.base fun m => { m with begun := true, out := 1, kept := [] })
      enqueue (relayCount s b i)
        { opc := o, src := rteEp (myChip s) e, dst := relayDst s b i, tenant := r.tenant, prio := 1,
          addr := withCtx (m.va % 2 ^ 56) (relayCtx s b i), nbytes := data.length, efmt := bits m.rkey 18 15, sfmt := bits m.rkey 20 19,
          layer := m.layer, opid := m.opid, poison := ps.any fun x => x.2.2, data := data } (.rte e q (.fwd m.msn m.base))
where
  /-- The opcodes a relay takes. -/
  Opc_code (c : Nat) : Option Opc := if c = 0x0F then some .redContrib else if c = 0x10 then some .redResult else none

/-- RELAY (R466): the message is passed on once all of it has come. Log 53, DEDUCED. -/
def execRelay (e k : Nat) (f : Frame) (s : State) : Host.Outcome State Fault Refusal :=
  .next (rteArrive s e k f .relay fun s q bs => rteData s e q f id fun s =>
    let data := payloadOf bs
    let x := enterMsg (qp s e q) f (ofBE (slice bs 0 24))
    let g (m : RxMsg) : RxMsg := { m with got := m.got + data.length, kept := m.kept ++ [(f.bth.psn, data, f.bth.poison)] }
    let r := updMsg x.1 x.2.msn x.2.base g
    let s := setQp s e q r
    match rxMsg r x.2.msn x.2.base with
    | none => s
    | some m => if m.begun ∨ m.synd ≠ 0 ∨ m.got < m.tlen then s else relayOn s e q m)

/-- The target's answer to a packet the peer relay passed on (R466). -/
def rteFwd (s : State) (e q msn base : Nat) (st : Status) : State :=
  let r := updMsg (qp s e q) msn base fun m => { m with out := 0, done := st.good }
  rxAdvance (setQp s e q (if st.good then r else syndMsg r msn base (statusSynd st))) e q

/-! ### Contributions and results (R229, R263, R264) -/

/-- RED_CONTRIB at a reduction unit or a relay. -/
def execRedContrib (p : Pkt) (s : State) : Host.Outcome State Fault Refusal :=
  .next (arrive s p fun s => if Ep_kind p.dst = .ru then contribAt s p else relayPkt s p)

/-- RED_RESULT at a landing or a relay. A sluice that waits for a barrier goes on when its operation ends. -/
def execRedResult (p : Pkt) (s : State) : Host.Outcome State Fault Refusal :=
  .next (arrive s p fun s => if Ep_kind p.dst = .tile then sluWake (landResult s p) else relayPkt s p)

/-- OPEN (R278) at a context or a relay. -/
def execOpen (m : SpMsg) (s : State) : Host.Outcome State Fault Refusal :=
  .next (spArrive s m fun s => if (SpDst m).dep = 4 then openAt s (ctxAt s (SpDst m).tile (SpCtx m)) m else relayMark s m)

/-- CLOSE (R279) at a context or a relay. -/
def execClose (m : SpMsg) (s : State) : Host.Outcome State Fault Refusal :=
  .next (spArrive s m fun s => if (SpDst m).dep = 4 then closeAt s (ctxAt s (SpDst m).tile (SpCtx m)) m else relayMark s m)

/-- RESULT (R280) at a landing or a relay. -/
def execResult (m : SpMsg) (s : State) : Host.Outcome State Fault Refusal :=
  .next (spArrive s m fun s => if (SpDst m).dep = 0 then sluWake (resultAt s m) else relayMark s m)

/-! ### Messages that end a collective (R282, R283, R288) -/

/-- MEMBER_TIMEOUT (R283): 2 × STEPTO after its last contribution a member completes `ST_COLL_TIMEOUT` with rank 0, and its package's group is
faulted. -/
def execMemberTimeout (tile gidx : Nat) (s : State) : Host.Outcome State Fault Refusal :=
  .next (match opOf s tile gidx with
    | none => s
    | some o => match o.lastAt with
      | none => s
      | some t =>
        if o.lastLeft ≠ 0 then s
        else
          let s := advanceTo s (t + usCycles (2 * stepTo s gidx))
          sluWake (setFld (collEnd s o .collTimeout 0) (Reg.fabGrpA gidx) FabGrpA.STATE 2))

/-- ABORT (R282) at this package: every member completes with the status and rank, the group's entries are disarmed, its contexts cleared, and
its STATE becomes 2. -/
def execAbort (m : SpMsg) (s : State) : Host.Outcome State Fault Refusal :=
  .next (spArrive s m fun s =>
    match grpOf s m with
    | none => spStaleAll s m
    | some i =>
      if grpTenant s i ≠ SpTenant m then spForeign s m
      else
        let st := Status.ofCode (bits (SpPay m 0) 7 0)
        let s := (s.coll.ops.filter fun o => o.gidx == i).foldl (fun s o => collEnd s o st (bits (SpPay m 0) 21 8)) s
        let s := trigUnits.foldl (fun s b => disarmGroup s b i) s
        sluWake (setFld (clearContexts s i) (Reg.fabGrpA i) FabGrpA.STATE 2))

/-- DOWN (R141, R288): a node passes it to its sources; a member writes the payload at DST, with the counts of a SUMCOUNT at their place (R263, log 24), and
completes. -/
def execDown (m : SpMsg) (s : State) : Host.Outcome State Fault Refusal :=
  .next (spArrive s m fun s =>
    let t := (SpDst m).tile
    if (SpDst m).dep = 4 then
      match nodeOf s t m with
      | none => spStale s t
      | some i =>
        if fld s (Reg.rtrSpNode t i) RtrSpNode.TENANT ≠ SpTenant m then spForeign s m
        else match (spOpOf s t i).filter SpOp.sentUp with
          | none => spStale s t
          | some o => spBack s o fun dst => SpTo m .down dst
    else if spOther s m then spForeign s m
    else match spMember s t m with
      | none => spStale s t
      | some o =>
        let psn := grpPsn s t o.gidx
        let bs := SpBytes m
        let s := if bs.isEmpty ∨ ColCop o.desc = 5 then s else storeFabric s (SpTenant m) (ColDst o.desc) bs psn
        let s := if ColCounts o.desc && SpCounts m then
          storeFabric s (SpTenant m) (relAdd (ColDst o.desc) (countBase o.desc)) (bytesOf 4 (SpCnts m)) psn else s
        sluWake (collEnd s o (if psn then .poisoned else .ok) 0))

/-- Where a message on the standpipe came from; one from outside came from the endpoint it names. -/
def spFrom (s : State) (m : SpMsg) : Ep := ((s.coll.spNet.find? fun x => x.2 == m).map Prod.fst).getD (SpDst m)

/-- DOWN_FAIL (R288). From its parent, or once its UP has gone, a node passes it to its sources; from a child, which is any other source, it takes it
as an input in place of UP, on the way of an UP (R289, log 155, DEDUCED). A member completes with its status, writes nothing, and faults the group. -/
def execDownFail (m : SpMsg) (s : State) : Host.Outcome State Fault Refusal :=
  let src := spFrom s m
  .next (spArrive s m fun s =>
    let t := (SpDst m).tile
    if (SpDst m).dep = 4 then
      match nodeOf s t m with
      | none => spStale s t
      | some i =>
        if fld s (Reg.rtrSpNode t i) RtrSpNode.TENANT ≠ SpTenant m then spForeign s m
        else match (spOpOf s t i).filter fun o => o.sentUp with
          | some o => spBack s o fun dst => SpTo m .downFail dst
          | none => if src == spParent s t i && ! flag s (Reg.rtrSpNode t i) RtrSpNode.ROOTN then s else spTakeIn s t i ⟨src, m⟩
    else if spOther s m then spForeign s m
    else match spMember s t m with
      | none => spStale s t
      | some o =>
        sluWake (setFld (collEnd s o (Status.ofCode (bits (SpPay m 0) 7 0)) (bits (SpPay m 0) 21 8)) (Reg.fabGrpA o.gidx) FabGrpA.STATE 2))

end Sys2Proof.Machine
end

