-- ==== Sys2Proof/Machine/Trace.lean ====
section
/-!
DEFINITION. Observation events (chapter 18): freezing the counters (R640-R644), flushing trace buffers (R651, R652), program-counter samples
(R657) and tensor watch (R658-R660).
-/
namespace Sys2Proof.Machine

/-! ### Freezing (R640-R644) -/

/-- Is the package frozen? -/
def isFrozen (s : State) : Bool := flag s Reg.telFrzStat TelFrzStat.FROZEN

/-- The unit that writes the package's own MARK records: the HP, the recording unit at the sequencer's router. -/
def markUnit : Nat := unitCode .hp 0

/-- The package freezes or thaws in this cycle (R640, R644, R666): a freeze while frozen is ignored. `no` is the number of a domain freeze. -/
def freezeNow (s : State) (thaw : Bool) (no : Option Nat) : State :=
  let num := no.getD (fld s Reg.telFrzStat TelFrzStat.FRZNO)
  if isFrozen s ≠ thaw then s
  else if thaw ∧ num ≠ fld s Reg.telFrzStat TelFrzStat.FRZNO then s
  else
    let s := { s with obs := { s.obs with latched := if thaw then none else some s.regs } }
    let s := setFld (setFld s Reg.telFrzStat TelFrzStat.FROZEN (b2n (! thaw))) Reg.telFrzStat TelFrzStat.FRZNO num
    traceMark (setFld s Reg.telFrzTime TelFrzTime.TIME (timeNs s)) markUnit (if thaw then 2 else 1) num

/-- FREEZE received (R641, R642): it acts at its TAPPLY, and at once when that has passed. -/
def execFreeze (m : SpMsg) (s : State) : Host.Outcome State Fault Refusal :=
  .next (spArrive s m fun s =>
    if SpKindOf m ≠ .freeze then s
    else
      let thaw := bit (SpPay m 0) 0
      let no := bits (SpPay m 0) 63 32
      if SpWord m 1 ≤ fineNow s then
        let s := bump s Reg.telFrzStat TelFrzStat.LATE 1
        freezeNow (traceMark s markUnit 3 no) thaw (some no)
      else { s with obs := { s.obs with apply := s.obs.apply ++ [(SpWord m 1, thaw, no)] } })

/-- The earliest freeze in preparation. -/
def firstApply : List (Nat × Bool × Nat) → Option (Nat × Bool × Nat)
  | [] => none
  | a :: r => match firstApply r with
    | some b => if b.1 < a.1 then some b else some a
    | none => some a

/-- FREEZE_APPLY (R642): the first fabric cycle whose fine time is at or after TAPPLY. -/
def execFreezeApply (s : State) : Host.Outcome State Fault Refusal :=
  .next (match firstApply s.obs.apply with
    | none => s
    | some x =>
      let s := advanceTo s (ceilDiv (9 * x.1) 64)
      freezeNow { s with obs := { s.obs with apply := s.obs.apply.erase x } } x.2.1 (some x.2.2))

/-! ### Trace wells (R650-R656) -/

/-- The endpoint of a recording unit (R652). -/
def unitEp (s : State) (unit : Nat) : Ep :=
  let i := unit % 2 ^ 11
  match unit / 2 ^ 11 with
  | 1 => ⟨myChip s, i, 0⟩
  | 5 => mepEp (myChip s) i
  | 6 => lpEp (myChip s) i
  | 7 => rteEp (myChip s) i
  | _ => hpEp (myChip s)

/-- A record of a sealed tenant masked as it goes into well 0 (R550, R654): ADDR, LAYER and OPID read zero. -/
def maskTrace (s : State) (well : Nat) (r : List Byte) : List Byte :=
  if well = 0 ∧ sealedT s (ofLE (slice r 9 1)) then
    let r := splice r 12 [0, 0, 0, 0]
    if ofLE (slice r 8 1) = 1 then splice r 16 (toLE 22 (putBits (ofLE (slice r 16 22)) 163 76 0)) else r
  else r

/-- The 4 KiB page of a buffer, padded with PAD records (R652). -/
def tracePage (s : State) (b : TraceBuf) : List Byte := slice ((b.recs.map (maskTrace s b.well)).flatten) 0 4096

/-- An access of a recording unit's trace engine (R140, R648, R652). -/
def tracePktOf (s : State) (unit well : Nat) (opc : Opc) (addr : Nat) (data : List Byte) : Pkt :=
  { opc := opc, src := unitEp s unit, dst := homeEp s (myChip s) addr, tenant := well, prio := if opc = .wr then 0 else 1, addr := addr,
    nbytes := data.length, layer := 0xFFFF, opid := 0xFFFF, data := data }

/-- The region-0x0 address of a chunk of a well. -/
def chunkAddr (s : State) (well k : Nat) : Nat := fabAddr 0 ((fld s (Reg.telTwCfg well) TelTwCfg.BASE + k) * 4096)

/-- A buffer flushed: its chunk is claimed by an AT_FADD on NEXT (R651). Log 74, DEDUCED. -/
def flushBuf (s : State) (b : TraceBuf) : State :=
  let i := s.obs.nextFlight
  let f : TraceFlight := ⟨i, b.unit, b.well, tracePage s b, b.recs.length⟩
  let s := { s with obs := { s.obs with bufs := s.obs.bufs.erase b, flights := s.obs.flights ++ [f], nextFlight := i + 1 } }
  enqueue s (tracePktOf s b.unit b.well .atFadd (chunkAddr s b.well 0) (toLE 8 1)) (.trace b.unit i)

/-- TRACE_FLUSH (R652): a full buffer, one that must give way, or one 100 µs after its first record. -/
def execTraceFlush (unit well : Nat) (s : State) : Host.Outcome State Fault Refusal :=
  .next (match s.obs.bufs.find? fun b => b.unit == unit && b.well == well with
    | none => s
    | some b => flushBuf (if b.due then s else advanceTo s (b.first + usCycles 100)) b)

/-- A flushed page that does not reach its well (R651): its records count as lost. -/
def traceLost (s : State) (id : Nat) : State :=
  match s.obs.flights.find? fun f => f.id == id with
  | none => s
  | some f => loseRec { s with obs := { s.obs with flights := s.obs.flights.erase f } } f.unit f.well f.recs

/-- A chunk claimed (R651): the page goes there, unless the well is full and does not wrap. -/
def traceClaimed (s : State) (id old : Nat) : State :=
  match s.obs.flights.find? fun f => f.id == id with
  | none => s
  | some f =>
    let n := fld s (Reg.telTwCfg f.well) TelTwCfg.NCHUNK
    if n < 2 ∨ (! flag s (Reg.telTwCfg f.well) TelTwCfg.WRAP ∧ n - 1 ≤ old) then traceLost s id
    else enqueue s (tracePktOf s f.unit f.well .wr (chunkAddr s f.well (1 + old % (n - 1))) f.page) (.trace f.unit id)

/-- A chunk written (R656). -/
def traceWritten (s : State) (id : Nat) : State :=
  match s.obs.flights.find? fun f => f.id == id with
  | none => s
  | some f => bump { s with obs := { s.obs with flights := s.obs.flights.erase f } } (Reg.telTwStat f.well) TelTwStat.CHUNKS 1

/-- A well's buffered records discarded and counted (R666). -/
def dropWell (s : State) (well : Nat) : State :=
  let mine := s.obs.bufs.filter fun b => b.well == well
  mine.foldl (fun s b => loseRec s b.unit well b.recs.length) { s with obs := { s.obs with bufs := s.obs.bufs.filter fun b => b.well != well } }

/-! ### Program-counter sampling (R657) -/

/-- PC_SAMPLE (R657): 2^PCL2 cycles and a draw after the last sample, a PCS record for the tenant's well; the LFSR's draw is a free value (log 8, DESIGN CHOICE). -/
def execPcSample (tile pc stall : Nat) (s : State) : Host.Outcome State Fault Refusal :=
  .next (
    let c := Reg.tniPcsCfg tile
    let w := owner s tile
    if 64 ≤ tile ∨ ! flag s c TniPcsCfg.EN ∨ w = 0 ∨ 64 ≤ w ∨ ! wellOn s w then s
    else
      let k := min 24 (max 8 (fld s c TniPcsCfg.PCL2))
      let d := draw s
      let s := advanceTo d.2 (eGet 0 tile s.obs.samples + 2 ^ k + (Config.freeWord d.1).toNat % 2 ^ (k - 4))
      let s := { s with obs := { s.obs with samples := eSet 0 tile s.clk.now s.obs.samples } }
      let shown := s.chan.shown.find? fun d => d.tile == tile
      let body := toLE 8 pc ++ toLE 1 stall ++ toLE 1 (b2n shown.isSome) ++ toLE 2 ((shown.map Dispatch.chan).getD 0)
      putRec s (unitCode .tni tile) w (traceRec s 3 w (unitCode .tni tile) 0xFFFF 0xFFFF body))

/-! ### Tensor watch (R658-R660) -/

/-- Are all lines of a watcher's range marked? -/
def watchFull (s : State) (tile k : Nat) : Bool := (eGet {} (4 * tile + k) s.obs.watch).marks.length == watchLines s tile k

/-- WATCH_ROUND_CLOSE (R658): every line is marked, and the readback begins. -/
def execWatchRoundClose (tile k : Nat) (s : State) : Host.Outcome State Fault Refusal :=
  let r := Reg.tniWatchStat tile k
  .next (if 4 ≤ k ∨ ! good s tile ∨ ! flag s (Reg.tniWatchCfg tile k) TniWatchCfg.EN ∨ flag s r TniWatchStat.BUSY ∨ ! watchFull s tile k then s
    else setFld (setFld s r TniWatchStat.BUSY 1) r TniWatchStat.OVL 0)

/-- FP64 (R188). -/
def fp64 : FloatFmt := floatFmt 10

/-- The FP64 code of an element of a format (R191): exact for every format a watcher takes. -/
def toFp64 (efmt c : Nat) : Nat :=
  if isFloat efmt then (fp64.encode ((floatFmt efmt).decode c)).code
  else
    let w := 8 * elemWidth efmt
    let z : Int := if efmt = 8 then (c : Int) else signed w c
    (fp64.encode (.fin (decide (z < 0)) z.natAbs 0)).code

/-- The square of an FP64 code, rounded once. -/
def fp64Square (c : Nat) : Nat :=
  match fp64.decode c with
  | .fin _ m e => (fp64.encode (.fin false (m * m) (e + e))).code
  | v => (fp64.encode v).code

/-- One rounded FP64 addition. -/
def fp64Add (a b : Nat) : Nat := (fp64.encode (addVal (fp64.decode a) (fp64.decode b))).code

/-- What a watcher has gathered. -/
structure WatchAcc where
  count : Nat := 0
  zeros : Nat := 0
  nans : Nat := 0
  infs : Nat := 0
  range : Option (Nat × Nat) := none
  sum : Nat := 0
  sumsq : Nat := 0
  deriving DecidableEq, Repr

/-- One element in statistics mode (R659). Log 73, DEDUCED. -/
def watchElem (efmt : Nat) (a : WatchAcc) (c : Nat) : WatchAcc :=
  let a := { a with count := a.count + 1 }
  if c = 0 then { a with zeros := a.zeros + 1 }
  else
    let v := if isFloat efmt then (floatFmt efmt).decode c else .fin false 0 0
    match v with
    | .nan _ => { a with nans := a.nans + 1 }
    | .inf _ => { a with infs := a.infs + 1 }
    | .fin _ _ _ =>
      let x := toFp64 efmt c
      let lo := match a.range with | some r => if ltVal (fp64.decode x) (fp64.decode r.1) then x else r.1 | none => x
      let hi := match a.range with | some r => if ltVal (fp64.decode r.2) (fp64.decode x) then x else r.2 | none => x
      { a with range := some (lo, hi), sum := fp64Add a.sum x, sumsq := fp64Add a.sumsq (fp64Square x) }

/-- The result registers written (R660); with no counted element MIN and MAX are free values (log 8, DESIGN CHOICE). -/
def watchResult (s : State) (tile k : Nat) (bs : List Byte) : State :=
  let c := Reg.tniWatchCfg tile k
  let efmt := fld s c TniWatchCfg.EFMT
  let w := elemWidth efmt
  let st (s : State) (count zeros nans infs mn mx sum sq : Nat) : State :=
    let s := wrReg s (Reg.tniWatchRes0 tile k) (BitVec.ofNat 64 (count * 2 ^ 32 + zeros))
    let s := wrReg s (Reg.tniWatchRes1 tile k) (BitVec.ofNat 64 (nans * 2 ^ 32 + infs))
    let s := wrReg (wrReg s (Reg.tniWatchRes2 tile k) (BitVec.ofNat 64 mn)) (Reg.tniWatchRes3 tile k) (BitVec.ofNat 64 mx)
    wrReg (wrReg s (Reg.tniWatchRes4 tile k) (BitVec.ofNat 64 sum)) (Reg.tniWatchRes5 tile k) (BitVec.ofNat 64 sq)
  if flag s c TniWatchCfg.MODE then st s (if w = 0 then 0 else bs.length / w) 0 0 0 0 0 (crc64 0 bs) 0
  else
    let a := (elemsOf w bs).foldl (watchElem efmt) {}
    match a.range with
    | some r => st s a.count a.zeros a.nans a.infs r.1 r.2 a.sum a.sumsq
    | none =>
      let d := draw s
      let e := draw d.2
      st e.2 a.count a.zeros a.nans a.infs (Config.freeWord d.1).toNat (Config.freeWord e.1).toNat a.sum a.sumsq

/-- WATCH_READBACK_DONE (R658-R660): results and record are written, the marks cleared, and the next round begins. -/
def execWatchReadbackDone (tile k : Nat) (s : State) : Host.Outcome State Fault Refusal :=
  let r := Reg.tniWatchStat tile k
  .next (if 4 ≤ k ∨ ! flag s r TniWatchStat.BUSY then s
    else
      let s := watchResult s tile k (readMem s (watchBase s tile k) (128 * watchLines s tile k))
      let s := bump (setFld s r TniWatchStat.BUSY 0) r TniWatchStat.ROUNDS 1
      let s := { s with obs := { s.obs with watch := eSet {} (4 * tile + k) {} s.obs.watch } }
      let w := owner s tile
      let body := ([Reg.tniWatchRes0 tile k, Reg.tniWatchRes1 tile k, Reg.tniWatchRes2 tile k, Reg.tniWatchRes3 tile k,
        Reg.tniWatchRes4 tile k, Reg.tniWatchRes5 tile k].map fun a => (rd s a).toNat)
      let half (v : Nat) : List Byte := toLE 4 (v / 2 ^ 32) ++ toLE 4 v
      let bytes := (body.zipIdx).flatMap fun x => if x.2 < 2 then half x.1 else if x.2 = 5 ∧ flag s (Reg.tniWatchCfg tile k) TniWatchCfg.MODE
        then [] else if x.2 = 4 ∧ flag s (Reg.tniWatchCfg tile k) TniWatchCfg.MODE then List.replicate 8 0 ++ toLE 8 x.1 else toLE 8 x.1
      if w = 0 ∨ 64 ≤ w ∨ ! wellOn s w then s
      else putRec s (unitCode .tni tile) w (traceRec s 4 w (unitCode .tni tile) (k + 2 ^ 15 * fld s r TniWatchStat.OVL)
        (fld s r TniWatchStat.ROUNDS) bytes))

/-- A watcher's configuration changed (R658, R666): the marks go, and a running readback is discarded; while EN is set a round begins. -/
def watchAnew (s : State) (tile k : Nat) : State :=
  setFld { s with obs := { s.obs with watch := eSet {} (4 * tile + k) {} s.obs.watch } } (Reg.tniWatchStat tile k) TniWatchStat.BUSY 0

end Sys2Proof.Machine
end

