-- ==== Sys2Proof/Machine/Responses.lean ====
section
/-!
DEFINITION. Requests that enter their source interface, packets on their way through routers, and what a response, a completion or its absence
does for what waits for it (chapter 3).
-/
namespace Sys2Proof.Machine

/-! ### What a response does -/

/-- A read's data reach what asked for them. -/
def purposeData (s : State) (why : Purpose) (bs : List Byte) (psn : Bool) : State :=
  match why with
  | .fetch id next after =>
    if (cmdOf s id).any (·.stopped) then pieceDone s id 0 .ok
    else
      let s := if psn then updCmd s id fun c => { c with poison := true } else s
      enqueue s { next with data := bs, poison := psn } after
  | .gather id off _ => gathered s id off bs psn
  | .refill t c k => refillData s t c k bs psn
  | .rte e q (.src k off _) => rteSrc s e q k off bs psn
  | .rte e q (.read m b off _) => rteReadData s e q m b off bs psn
  | _ => s

/-- An atomic's old value reaches what asked for it. -/
def purposeOld (s : State) (why : Purpose) (bs : List Byte) (psn : Bool) : State :=
  match why with
  | .cmdAt id =>
    let f (c : Cmd) : Cmd := { c with detail := ofLE bs, poison := c.poison || psn }
    pieceDone (updCmd s id f) id bs.length .ok
  | .rte e q (.atom m b) => rteAtomDone s e q m b bs psn
  | .trace _ id => traceClaimed s id (ofLE bs)
  | _ => s

/-- A request completes with a status: acknowledged, refused, or never answered. `answered` tells a status that came in a response from one
the source gave itself. -/
def purposeEnd (s : State) (x : Txn) (st : Status) (answered : Bool) : State :=
  match x.why with
  | .fetch id _ _ => stopCmd s id st
  | .gather id _ _ => stopCmd s id st
  | .cmdWr id n => pieceDone s id n st
  | .cmdAt id => pieceDone s id 0 st
  | .cmdAck id => pieceDone s id 0 st
  | .contrib id _ _ => pieceDone s id 0 st
  | .spillWr t c k => spillWritten s t c k st
  | .refill t c k => if st.good then s else refillFailed s t c k st
  | .redOut t c n =>
    let y := ctxAt s t c
    let r := redRun s y
    if answered then setRed s y (if y.toParent then { r with unacked := r.unacked - n } else r)
    else ctxAbort s y st y.rlo
  | .relay p => if st.good then ackTo s p st else errTo s p st
  | .slu t g => combineWake (sluAck s t g x st) t g
  | .sbind c => if st.good then addCtr s c 1 else s
  | .rte e q j =>
    match j with
    | .src k _ _ => if st.good then s else rteSrcFail s e q k st
    | .place m b mr => rtePlaced s e q m b mr st
    | .read m b _ _ => if st.good then s else rteReadFail s e q m b st
    | .atom m b => if st.good then s else rteReadFail s e q m b st
    | .back m n => rteBack s e q m n st
    | .fwd m b => rteFwd s e q m b st
  | .trace _ id => if st.good then traceWritten s id else traceLost s id
  | .fmp => s
  | .none => s

/-- A request as the transaction it would be: for one that ends before it is sent. -/
def asTxn (r : Req) : Txn :=
  { ep := r.pkt.src, tag := 0, opc := r.pkt.opc, dst := r.pkt.dst, why := r.why, slots := 0, sent := 0, allot := false, prio := r.pkt.prio,
    addr := r.pkt.addr, tenant := r.pkt.tenant, due := [] }

/-! ### The source interface (R27, R37, R38, R107, R118, R543) -/

/-- The first check of the source interface that a request fails. A reservation packet goes where its checked request goes. -/
def sourceCheck (s : State) (p : Pkt) (mc : List Ep) : Option Status :=
  let memOp := p.opc == .rdReq || p.opc == .wr || p.opc == .atFadd || p.opc == .atSwap || p.opc == .atCas
  let at_ := p.opc == .atFadd || p.opc == .atSwap || p.opc == .atCas
  let n := accessLen p
  let fmp := Ep_kind p.src == .fmp
  if p.opc = .rsvReq ∨ p.opc = .rsvRelease then none
  else if ! prioOk p.opc p.prio ∨ (at_ ∧ ! ((n == 4 || n == 8) && p.addr % max 1 n == 0)) ∨ 32 < flits p then some .badDescriptor
  else if ! mc.isEmpty then none
  else if memOp && ! epExists p.dst then some .regionFault
  else if memOp then
    match rangeCheck s fmp p.dst.chip p.addr n with
    | some st => some st
    | none => if rangeForeign s p.tenant p.dst.chip p.addr n then some .tenantViolation else none
  else match targetCheck s p.dst with
    | some st => some st
    | none => if targetForeign s p.tenant p.dst then some .tenantViolation else none

/-- REQUEST_SEND (R118): a waiting request is checked, and goes as far as its slots, tag, record, allotment or grant let it. The packet of a
reduction context counts as emitted when it leaves (R250). -/
def execRequestSend (id : Nat) (s : State) : Host.Outcome State Fault Refusal :=
  .next (match s.dyn.waiting.find? fun r => r.id == id with
    | none => s
    | some r =>
      match sourceCheck s r.pkt r.mc with
      | some st => purposeEnd (dropReq s id) (asTxn r) st false
      | none =>
        let s := requestStep s r
        match r.why with
        | .redOut t c n => if s.dyn.waiting.any fun w => w.id == id then s else redEmitted s t c n
        | _ => s)

/-! ### Routers (R104, R109, R112-R114, R140) -/

/-- A packet discarded on its way. -/
def routerCheck1 (s : State) (tile : Nat) (p : Pkt) : Option State :=
  let u := unitCode .router tile
  if ! hcrcOk p then some (badHcrc s u p)
  else match p.opc with
    | .bad _ => some (log (takeNet s p) (errPkt u .format 2 p .ok))
    | _ => if tenantOk p then none else some (errTo (violation (takeNet s p) (errPkt u .tenant 2 p .tenantViolation)) p .tenantViolation)

/-- A flit comes off its link, whose place is free (R109). -/
def offLink (s : State) (tile port : Nat) (p : Pkt) : State :=
  { s with dyn := { s.dyn with wire := dropFirst (fun w => w.1 == tile && w.2.1 == port && w.2.2.1 == vcOf p) s.dyn.wire } }

/-- What the routers hold of a packet, from an input on along the outputs its channel holds: its flits and its holds go (R104, R109). -/
def clearPath (head vc : Nat) : Nat → State → Nat × Nat → State
  | 0, s, _ => s
  | k + 1, s, (tile, inp) =>
    let mine (h : VcHold) : Bool := h.tile == tile && h.inp == inp && h.vc == vc
    let outs := (s.dyn.holds.filter mine).map VcHold.out
    let s := { s with dyn := { s.dyn with
      vcs := s.dyn.vcs.filter fun f => ! (f.tile == tile && f.inp == inp && f.vc == vc && f.head == head),
      holds := s.dyn.holds.filter fun h => ! mine h } }
    (outs.filter (· < 4)).foldl (fun s o => clearPath head vc k s (farEnd tile o)) s

/-- A flit of a packet under way shows a wrong header code: the whole packet goes, with what the routers hold of it (R104). The flits of it that still
come belong to no packet in flight, and change nothing. -/
def flitLost (s : State) (tile port : Nat) (p : Pkt) : State :=
  match garbled s p with
  | none => s
  | some _ => clearPath (vcHead p) (vcOf p) 16 (badHcrc s (unitCode .router tile) p) (tile, port)

/-- A flit of a multicast or of a packet bound for one output takes its place in its virtual channel (R109, R133). -/
def enterVc (s : State) (tile port : Nat) (outs : List Nat) (p : Pkt) (k : Nat) : State :=
  { s with dyn := { s.dyn with vcs := s.dyn.vcs ++ [vcFlit s tile port outs p (decide (k + 1 = flits p))] } }

/-- Flit `k` of a packet that one output takes (R112): it may be the last to reach its egress lane port. -/
def routeFlit (s : State) (tile port : Nat) (p : Pkt) (k : Nat) : State :=
  match headsFor s p with
  | none => errTo (takeNet s p) p .peerUnreachable
  | some (target, dep) =>
    let out := outPort tile target dep p
    let e := injLink s tile (if out < 4 then out else if out = 24 then 5 else out - 12) 0
    let s := enterVc e.2 tile port [out] p k
    let q := if e.1 = 2 then stamp { p with poison := true } else p
    let s := if e.1 = 2 then { s with dyn := { s.dyn with net := updFirst (· == p) (fun _ => q) s.dyn.net } } else s
    if out = epPort dep ∧ p.dst.chip ≠ myChip s ∧ k + 1 = flits p then
      match Ep_kind ⟨0, tile, dep⟩ with
      | .lp n => laneEgress (takeNet s q) n q
      | _ => s
    else s

/-- May flit `k` of a packet come in at a router port: it is one of the packet's, and its virtual channel has a free place (R109)? -/
def flitFits (s : State) (tile port : Nat) (p : Pkt) (k : Nat) : Bool :=
  decide (tile < 64) && decide (k < flits p) &&
    decide ((s.dyn.vcs.filter fun f => f.tile == tile && f.inp == port && f.vc == vcOf p).length < 4)

/-- A packet as it stands on the network: one that a link has poisoned meanwhile is found by its header (R605). -/
def onNet (s : State) (p : Pkt) : Option Pkt := s.dyn.net.find? fun q => q == p || stamp { p with poison := true } == q

/-- Flit `k` of a packet at input `port` of a router: the first meets the checks, every flit that of its header code; a packet that has been discarded
has no further flits (R104, R140). `k'` goes on with the packet. -/
def flitStep (s : State) (tile port : Nat) (p : Pkt) (k : Nat) (k' : State → Pkt → State) : State :=
  let s := offLink s tile port p
  match routerCheck1 s tile p with
  | some t => if k = 0 then t else if hcrcOk p then s else flitLost s tile port p
  | none => match onNet s p with
    | some q => k' s q
    | none => s

/-- ROUTER_FLIT_ARRIVAL (R104, R109, R112): flit `k` of a packet at input `port` of a router takes its place in its virtual channel, which holds four,
and heads for its output. A packet whose last flit reaches its egress port goes to the port. -/
def execRouterFlitArrival (tile port : Nat) (p : Pkt) (k : Nat) (s : State) : Host.Outcome State Fault Refusal :=
  .next (if p.opc = .mcWr ∨ ! flitFits s tile port p k then s else flitStep s tile port p k fun s p => routeFlit s tile port p k)

/-- Flit `k` of a multicast at a router of its package (R133): it takes its place for every branch, and with the last flit the tile, when it lies in the
rectangle, has the data. -/
def mcFlit (s : State) (tile port : Nat) (p : Pkt) (k : Nat) : State :=
  let r := rectOf p.addr
  let here := mcHere r tile port
  let outs := mcBranches r tile port ++ (if here then [epPort 0] else [])
  let s := if outs.isEmpty then s else enterVc s tile port outs p k
  if here && decide (k + 1 = flits p) then mcDeliver s tile p else s

/-- MC_WR (R104, R112, R133, R135, R140): a flit of a multicast at a router. One for another package goes to its egress port like any packet; on its own
package it is replicated and delivered, in its turn. -/
def execMcWr (tile : Nat) (f : FlitIn) (p : Pkt) (s : State) : Host.Outcome State Fault Refusal :=
  .next (if p.opc ≠ .mcWr ∨ ! flitFits s tile f.port p f.k then s
    else flitStep s tile f.port p f.k fun s p =>
      if p.dst.chip ≠ myChip s then routeFlit s tile f.port p f.k
      else if mcHere (rectOf p.addr) tile f.port && decide (f.k + 1 = flits p) && ! inTurn s p ⟨p.dst.chip, tile, 0⟩ then s
      else mcFlit s tile f.port p f.k)

/-! ### Responses (R106, R108, R119) -/

/-- A response matched with its transaction. -/
def onRsp (s : State) (p : Pkt) (k : State → Txn → Bool → State) : State :=
  match matchTxn s p with
  | none => lateRsp s p
  | some (x, whole, s) => k s x whole

/-- A malformed response to a read (R212): nothing of it is written, and what asked for it has consumed poison (R607). -/
def badData (s : State) (p : Pkt) (x : Txn) : State :=
  let s := malCount s p
  let s := match x.why with
    | .fetch id _ _ | .gather id _ _ => updCmd s id fun c => { c with poison := true }
    | .refill t c _ => chPoison s t c p.layer p.opid
    | _ => s
  purposeEnd s x .poisoned false

/-- RD_RSP. -/
def execRdRsp (p : Pkt) (s : State) : Host.Outcome State Fault Refusal :=
  .next (arrive s p fun s => onRsp s p fun s x _ => if fmtSound p then purposeData s x.why p.data p.poison else badData s p x)

/-- One target's answer to a multicast that others have yet to answer (R134): a failure is kept. -/
def mcPart (s : State) (x : Txn) (st : Status) : State :=
  match Purpose_cmd x.why with
  | some id => updCmd s id (failWith st)
  | none => s

/-- A completed multicast leaves no copy of its packet on the way. -/
def mcClear (s : State) (x : Txn) : State :=
  if x.opc = .mcWr then
    { s with dyn := { s.dyn with net := s.dyn.net.filter (fun p => ! (p.opc == .mcWr && p.src == x.ep && p.tag == x.tag)),
                                 told := s.dyn.told.filter (fun d => ! (d.1 == x.ep && d.2.1 == x.tag)) } }
  else s

/-- WR_ACK. -/
def execWrAck (p : Pkt) (s : State) : Host.Outcome State Fault Refusal :=
  .next (arrive s p fun s => onRsp s p fun s x whole => if whole then settle (purposeEnd (mcClear s x) x .ok true) else s)

/-- AT_RSP. -/
def execAtRsp (p : Pkt) (s : State) : Host.Outcome State Fault Refusal :=
  .next (arrive s p fun s => onRsp s p fun s x _ => purposeOld s x.why p.data p.poison)

/-- A reservation packet answered (R119, R124): an answered release frees its record with its response slots and its count, and the count of a request
that was never granted; a request that was refused ends what it was for. -/
def rsvAnswer (s : State) (v : Rsv) (st : Status) : State :=
  let s := giveFree { s with dyn := { s.dyn with rsvs := s.dyn.rsvs.erase v } } v.ep v.slots
  let s := if v.dst.chip = myChip s then allotBack s v.ep v.dst else s
  if v.released then (if v.granted ∨ v.dst.chip ≠ myChip s then s else allotBack s v.ep v.dst)
  else match s.dyn.waiting.find? fun r => r.id == v.req with
    | some r => purposeEnd (dropReq s r.id) (asTxn r) st true
    | none => s

/-- A completion with a status: ACK or ERR_RSP at a requester. A poisoned one has its command consume poison (R161, R607). -/
def completion (s : State) (p : Pkt) : State :=
  let st := rspStatus p
  match s.dyn.rsvs.find? fun v => v.ep == p.dst && v.rec_ == p.tag with
  | some v => rsvAnswer s v st
  | none => onRsp s p fun s x whole =>
    let s := if p.poison then match Purpose_cmd x.why with
      | some id => updCmd s id fun c => { c with poison := true }
      | none => s
      else s
    if whole then purposeEnd (mcClear s x) x st true else mcPart s x st

/-- ACK. -/
def execAck (p : Pkt) (s : State) : Host.Outcome State Fault Refusal := .next (arrive s p fun s => settle (completion s p))

/-- A failed context's ERR_RSP passed on by a relay (R253, R264). -/
def relayErr (s : State) (p : Pkt) : State :=
  let r := RaCtx p.addr
  match relayBlk p.dst with
  | none => s
  | some b =>
    if ! relayOk s b r p.tenant then s
    else match b with
      | .rte e =>
        let x : QpPost :=
          { cmd := none, qop := 7, rva := p.addr, len := p.data.length, layer := p.layer, opid := p.opid, inl := p.data }
        (relayPost s e b r p.tenant x p.opc.code false p.sfmt p.efmt).1
      | _ => relayOut s b r p

/-- ERR_RSP: in place of a response; or, from a failed context, at its parent, landing or relay (R253, R263; log 16, DESIGN CHOICE). -/
def execErrRsp (p : Pkt) (s : State) : Host.Outcome State Fault Refusal :=
  .next (arrive s p fun s =>
    if p.tag = failTag then
      match p.dst.dep with
      | 4 => inputErr s p
      | 0 => landErr s p
      | _ => relayErr s p
    else completion s p)

/-! ### Timers (R108, R119, R124, R129) -/

/-- The tiles of a package that have not answered a multicast, one bit each (R134). -/
def missing (x : Txn) (chip : Nat) : Nat := (x.due.filter fun e => e.chip == chip).foldl (fun n e => putBits n (e.tile % 64) (e.tile % 64) 1) 0

/-- The record of a timer that ran out (R625); of a multicast one for each package with missing targets, which SYND names (R134). Log 134, DEDUCED. -/
def timeoutRec (s : State) (x : Txn) (st : Status) : State :=
  let e := { errOf (blkUnit (epBlk x.ep)) .timeout 2 with
             status := st, addr := x.addr, peer := x.dst, opc := x.opc.code, tag := x.tag, prio := x.prio, tenant := x.tenant }
  if x.opc = .mcWr then
    (x.due.map Ep.chip).dedup.foldl (fun s c => log s { e with peer := { x.dst with chip := c }, synd := missing x c }) s
  else log s e

/-- RSV_TIMEOUT (R124, R127): the RSVTO in force when an RSV_REQ was issued has run out without a grant: releases go out, and the command completes
`ST_RESERVE_TIMEOUT`. -/
def execRsvTimeout (ep : Ep) (rec_ : Nat) (s : State) : Host.Outcome State Fault Refusal :=
  .next (match s.dyn.rsvs.find? fun v => v.ep == ep && v.rec_ == rec_ && v.sent && ! v.granted && ! v.released with
    | none => s
    | some v =>
      match s.dyn.waiting.find? fun r => r.id == v.req with
      | none => release (advanceTo s (v.issued + v.rsvto)) v
      | some r =>
        let s := advanceTo s (v.issued + v.rsvto)
        let x := asTxn r
        settle (purposeEnd (timeoutRec (dropReq s r.id) x .reserveTimeout) x .reserveTimeout false))

/-- A release that is not answered (R119, R129): its record and its response slots are free, and its counts return RSPTO later. Log 80, DEDUCED. -/
def releaseLost (s : State) (v : Rsv) : State :=
  let s := giveFree (advanceTo s (v.issued + v.rspto)) v.ep v.slots
  let q : Quar := { ep := v.ep, tag := v.rec_, dst := v.dst, allot := v.dst.chip == myChip s, until_ := s.clk.now + v.rspto }
  { s with dyn := { s.dyn with rsvs := s.dyn.rsvs.erase v, quar := s.dyn.quar ++ (if v.granted then [q] else [q, q]) } }

/-- RESPONSE_TIMEOUT (R129): RSPTO after a request's last flit without a response: the command completes `ST_PEER_UNREACHABLE`, its response
slots are free, and its tag goes into quarantine (R108). Log 3, DESIGN CHOICE. -/
def execResponseTimeout (ep : Ep) (tag : Nat) (s : State) : Host.Outcome State Fault Refusal :=
  .next (match s.dyn.txns.find? fun x => x.ep == ep && x.tag == tag with
    | some x =>
      let s := advanceTo s (x.sent + x.rspto)
      let q : Quar := { ep := ep, tag := tag, dst := x.dst, allot := x.allot, until_ := s.clk.now + x.rspto }
      let s := { s with dyn := { s.dyn with txns := s.dyn.txns.erase x, quar := s.dyn.quar ++ [q] } }
      let s := giveFree s ep x.slots
      settle (purposeEnd (timeoutRec (mcClear s x) x .peerUnreachable) x .peerUnreachable false)
    | none =>
      match s.dyn.rsvs.find? fun v => v.ep == ep && v.rec_ == tag && v.released && ! s.dyn.waiting.any fun r => r.pkt.opc == .rsvRelease &&
          r.pkt.src == ep && r.pkt.tag == tag with
      | some v => releaseLost s v
      | none => s)

/-! ### Counters and the mailbox (R106, R257, R258) -/

/-- CTR_ADD at a counter (R257, R258): payload [3:0] is added, and byte 4 recorded when it is a failure. Log 78, DEDUCED. -/
def execCtrAdd (p : Pkt) (s : State) : Host.Outcome State Fault Refusal :=
  .next (arrive s p fun s =>
    let b := epBlk p.dst
    let off := Reg.ctr b (bits p.addr 10 0)
    if ! fmtSound p then malPlain s p
    else if fld s off Ctr.TENANT ≠ p.tenant then errTo (violation s (errPkt (blkUnit b) .tenant 2 p .tenantViolation)) p .tenantViolation
    else
      let st := (p.data.getD 4 0).toNat
      ackTo (compareAll (ctrApply s off (ofLE (slice p.data 0 4)) (if st = 0 then [] else [st]))) p .ok)

/-- MBX (R106): mailbox traffic between the HP and the FMP service port, acknowledged. Log 79, DEDUCED. -/
def execMbx (p : Pkt) (s : State) : Host.Outcome State Fault Refusal := .next (arrive s p fun s => ackTo s p .ok)

end Sys2Proof.Machine
end

