-- ==== Sys2Proof/Machine/Slots.lean ====
section
/-!
DEFINITION. The mailbox slots (R389-R398): how a request is submitted, taken up, refused and answered.
-/
namespace Sys2Proof.Machine

/-- The two servers of a function's slots (R389): FMP firmware (F) and the mailbox sequencer (G). -/
inductive Server where
  | f | g
  deriving DecidableEq, Repr

/-- The key of a function's slot. -/
def slotKey (sv : Server) (fn : Nat) : Nat := 2 * fn + (match sv with | .f => 0 | .g => 1)

/-- A slot. -/
def mbxSlot (s : State) (sv : Server) (fn : Nat) : MbxSlot := eGet {} (slotKey sv fn) s.mbx.slots
def setSlot (s : State) (sv : Server) (fn : Nat) (x : MbxSlot) : State :=
  { s with mbx := { s.mbx with slots := eSet {} (slotKey sv fn) x s.mbx.slots } }

/-- Functions whose commands wait or run in a server, in GO order. -/
def mbxQueue (s : State) : Server → List Nat
  | .f => s.mbx.fq
  | .g => s.mbx.gq
def setQueue (s : State) (sv : Server) (l : List Nat) : State :=
  match sv with
  | .f => { s with mbx := { s.mbx with fq := l } }
  | .g => { s with mbx := { s.mbx with gq := l } }

/-- Word i of a submitted request: 0 is the header, W0 is word 1 (R394). -/
def rqWord (s : State) (sv : Server) (fn i : Nat) : Nat := eGet 0 i (mbxSlot s sv fn).taken
def rqW (s : State) (sv : Server) (fn i : Nat) : Nat := rqWord s sv fn (i + 1)

/-- Header fields of a request (R394). -/
def rqCmd (s : State) (sv : Server) (fn : Nat) : Nat := bits (rqWord s sv fn 0) 63 48
def rqVmaj (s : State) (sv : Server) (fn : Nat) : Nat := bits (rqWord s sv fn 0) 47 40
def rqPlen (s : State) (sv : Server) (fn : Nat) : Nat := bits (rqWord s sv fn 0) 15 0

/-- The payload bytes of a request. -/
def rqBytes (s : State) (sv : Server) (fn : Nat) : List Byte :=
  ((List.range (ceilDiv (rqPlen s sv fn) 8)).flatMap fun i => toLE 8 (rqW s sv fn i)).take (rqPlen s sv fn)

/-- Reasons (R396). -/
inductive Reason where
  | none | unknownCmd | version | format | privilege | sealed | conflict | state | noResource | disabled | twinSplit | check
  | signature | fetch | link | fmpDown | reset | epoch
  deriving DecidableEq, Repr

/-- The code of a reason (R396). -/
def Reason.code : Reason → Nat
  | .none => 0 | .unknownCmd => 1 | .version => 2 | .format => 3 | .privilege => 4 | .sealed => 5 | .conflict => 6 | .state => 7
  | .noResource => 8 | .disabled => 9 | .twinSplit => 10 | .check => 11 | .signature => 12 | .fetch => 13 | .link => 14
  | .fmpDown => 15 | .reset => 16 | .epoch => 17

/-- The status a reason fixes (R396). -/
def Reason.status : Reason → Status
  | .none => .ok | .unknownCmd => .badDescriptor | .version => .badDescriptor | .format => .badDescriptor
  | .privilege => .tenantViolation | .sealed => .tenantViolation | .conflict => .tenantViolation | .state => .aborted
  | .noResource => .aborted | .disabled => .regionFault | .twinSplit => .badDescriptor | .check => .badDescriptor
  | .signature => .digestMismatch | .fetch => .regionFault | .link => .peerUnreachable | .fmpDown => .aborted | .reset => .aborted
  | .epoch => .badDescriptor

/-- Is FMP firmware running (R391)? -/
def fmpRuns (s : State) : Bool := s.mbx.fmpst == 1

/-- The host port is open from stage 9 on (R592, R595). -/
def portOpen (s : State) : Bool := fld s Reg.fabBootStat FabBootStat.STAGE == 9

/-- STATE of a slot as host software reads it: an F slot reads DOWN while FMPST is not RUNNING (R392). -/
def slotState (s : State) (sv : Server) (fn : Nat) : Nat :=
  if sv = .f ∧ ! fmpRuns s then 3 else (mbxSlot s sv fn).state

/-- The response header (R394). -/
def rspHeader (cmd : Nat) (st : Status) (r : Reason) (n : Nat) : Nat :=
  cmd * 2 ^ 48 + st.code * 2 ^ 40 + r.code * 2 ^ 24 + 8 * n

/-- A command answered (R393 step 4): response area, then STATUS, DONESEQ and STATE, then vector 0. -/
def answer (s : State) (sv : Server) (fn : Nat) (st : Status) (r : Reason) (ws : List Nat) : State :=
  let x := mbxSlot s sv fn
  let hd := rspHeader (rqCmd s sv fn) st r ws.length
  let rsp := ((hd :: ws).zipIdx).foldl (fun t w => eSet 0 w.2 (w.1 % 2 ^ 64) t) []
  let s := setSlot s sv fn { x with rsp := rsp, status := st.code, doneSeq := x.goSeq, state := 2, taken := [], begun := false }
  let s := setQueue s sv ((mbxQueue s sv).erase fn)
  signal { s with host := { s.host with out := s.host.out ++ [.mbxDone fn (slotKey sv fn % 2)] } } fn 0

/-- A command done. -/
def answerOk (s : State) (sv : Server) (fn : Nat) (ws : List Nat := []) : State := answer s sv fn .ok .none ws

/-- A command refused with a reason; nothing else changes (R397, R422). -/
def refuse (s : State) (sv : Server) (fn : Nat) (r : Reason) (ws : List Nat := []) : State := answer s sv fn r.status r ws

/-- The function whose command a server carries out (R398): the one that has started; else function 0's in the sequencer; else the first. -/
def serving (s : State) (sv : Server) : Option Nat :=
  match (mbxQueue s sv).find? fun fn => (mbxSlot s sv fn).begun with
  | some fn => some fn
  | none => if sv = .g ∧ (mbxQueue s sv).contains 0 then some 0 else (mbxQueue s sv).head?

/-- The commands each server implements (R401). -/
def fCommands : List Nat :=
  [0x101, 0x102, 0x110, 0x111, 0x112, 0x113, 0x114, 0x120, 0x121, 0x130, 0x131, 0x132, 0x140, 0x141, 0x150, 0x151, 0x152, 0x160, 0x161,
   0x170, 0x171, 0x180, 0x181, 0x182, 0x183, 0x190, 0x191]
def gCommands : List Nat := [2, 3, 4, 5, 6]

/-- The major version a server speaks (R390): FWMAJ or SQMAJ. -/
def serverMajor (s : State) : Server → Nat
  | .f => bits s.mbx.version 23 16
  | .g => 1

/-- The first of the checks of R397 that precede the command's own: version, command code, and while the host port is closed anything but
ERRLOG_READ and FMP_RECOVER (R595). -/
def firstCheck (s : State) (sv : Server) (fn : Nat) : Option Reason :=
  if rqVmaj s sv fn ≠ serverMajor s sv then some .version
  else if ! (match sv with | .f => fCommands | .g => gCommands).contains (rqCmd s sv fn) then some .unknownCmd
  else if sv = .g ∧ ! portOpen s ∧ rqCmd s sv fn ≠ 2 ∧ rqCmd s sv fn ≠ 6 then some .state
  else none

/-- The commands that a server refuses before it knows what to do with them, refused in turn. -/
def refuseFirst (sv : Server) : Nat → State → State
  | 0, s => s
  | n + 1, s =>
    match serving s sv with
    | none => s
    | some fn =>
      if (mbxSlot s sv fn).begun || (sv == .f && ! fmpRuns s) then s
      else match firstCheck s sv fn with
        | some r => refuseFirst sv n (refuse s sv fn r)
        | none => s

/-- GO written (R393): discarded while the slot is BUSY or DOWN; else the request area is copied and the command waits for its server. -/
def mbxGo (s : State) (sv : Server) (fn : Nat) : State :=
  let x := mbxSlot s sv fn
  if slotState s sv fn = 1 ∨ slotState s sv fn = 3 then s
  else
    let s := setSlot s sv fn { x with state := 1, taken := x.req, goSeq := x.seq, begun := false }
    let s := setQueue s sv (mbxQueue s sv ++ [fn])
    refuseFirst sv (mbxQueue s sv).length s

/-- The slot's command marked as started. -/
def begin_ (s : State) (sv : Server) (fn : Nat) : State := setSlot s sv fn { mbxSlot s sv fn with begun := true }

/-- Does a server carry out a command of a kind for a function now? -/
def mbxTurn (s : State) (sv : Server) (fn cmd : Nat) : Bool :=
  serving s sv == some fn && rqCmd s sv fn == cmd && (sv == .g || fmpRuns s)

/-- A command taken up at its server: its format is checked, reserved header bits among it (R394, R395), then the caller's privilege (R397), and `k` does
the rest. What stands behind it is refused where no command's own checks are needed. Log 71, DESIGN CHOICE. -/
def mbxCommand (s : State) (sv : Server) (fn cmd : Nat) (fmt : State → Bool) (priv : State → Option Reason) (k : State → State) : State :=
  if ! mbxTurn s sv fn cmd then s
  else
    let h := rqWord s sv fn 0
    let bad := bits h 39 16 != 0 || decide (2040 < rqPlen s sv fn) || rqPlen s sv fn % 8 != 0 || ! fmt s
    let t := match firstCheck s sv fn with
      | some r => refuse s sv fn r
      | none =>
        if bad then refuse s sv fn .format
        else match priv s with
          | some r => refuse s sv fn r
          | none => k s
    refuseFirst sv (mbxQueue t sv).length t

/-- Every command of a server ended with a reason, as it stands in the queue (R400, R407). -/
def endAll (s : State) (sv : Server) (r : Reason) : State := (mbxQueue s sv).foldl (fun s fn => refuse s sv fn r) s

/-- A function's slot commands discarded without a response; its slots read IDLE (R421). -/
def dropSlots (s : State) (fn : Nat) : State :=
  [Server.f, Server.g].foldl (fun s sv =>
    setQueue (setSlot s sv fn { mbxSlot s sv fn with state := 0, taken := [], begun := false }) sv ((mbxQueue s sv).erase fn)) s

/-- Only function 0 may issue the command (R401). -/
def onlyZero (fn : Nat) (_ : State) : Option Reason := if fn = 0 then none else some .privilege

/-- The tenant a request acts for (R401): a virtual function's own, or the one function 0 names. -/
def actsFor (fn named : Nat) : Nat := if fn = 0 then named else fn

/-- Words of a response from bytes. -/
def wordsOf (bs : List Byte) : List Nat := (List.range (ceilDiv bs.length 8)).map fun i => ofLE (slice bs (8 * i) 8)

/-- FMPST becomes RUNNING (R391, R400): the F slots return to IDLE; the firmware's version is read from its image. -/
def fmpUp (s : State) (version : Nat) : State :=
  let s := { s with mbx := { s.mbx with fmpst := 1, version := version } }
  (List.range 64).foldl (fun s fn => setSlot s .f fn { mbxSlot s .f fn with state := 0 }) s

/-- The FMP goes down or restarts (R400, R408): F commands end with FMP_DOWN and the F slots read DOWN. -/
def fmpStops (s : State) (st : Nat) : State :=
  let s := endAll s .f .fmpDown
  { s with mbx := { s.mbx with fmpst := st, version := 0 } }

/-- The FMP's watchdog bites (R400, R391): FMPST DOWN, FDOG counts, F commands end, and function 0 is told. -/
def fmpBite (s : State) : State :=
  let s := fmpStops s 2
  let s := { s with mbx := { s.mbx with fdog := min 255 (s.mbx.fdog + 1) } }
  logReport s { errOf (unitCode .fmp 0) .fmpwd 4 with tenant := 0 }

/-- FMP_WATCHDOG_BITE (R400, R391). An injected bite takes its injection with it. -/
def execFmpWatchdogBite (s : State) : Host.Outcome State Fault Refusal :=
  .next (fmpBite (if injArmed s .fab .fmpwd (fun k => k == 4) then injFire s .fab else s))

/-- HEARTBEAT (R391): counted while FMPST is RUNNING. -/
def execHeartbeat (s : State) : Host.Outcome State Fault Refusal :=
  .next (if fmpRuns s then { s with mbx := { s.mbx with hb := (s.mbx.hb + 1) % 2 ^ 32 } } else s)

/-- REPORT_QUEUE_RELEASE (R423): host software writes HEAD. -/
def execReportQueueRelease (fn v : Nat) (s : State) : Host.Outcome State Fault Refusal :=
  .next (if 64 ≤ fn then s
    else
      let q := eGet {} fn s.rpt
      { s with rpt := eSet {} fn { q with head := v % 256 } s.rpt })

end Sys2Proof.Machine
end

