-- ==== Sys2Proof/Machine/Tenancy.lean ====
section
/-!
DEFINITION. Partitions (chapter 15): what is protected for a sealed tenant, how groups and rings are given up, and how a partition is sealed and
destroyed.
-/
namespace Sys2Proof.Machine

/-- The state an outcome goes on from. -/
def after (o : Host.Outcome State Fault Refusal) (s : State) : State :=
  match o with
  | .next t => t
  | _ => s

/-- The registers whose value differs from their reset value and that satisfy `p`. -/
def regsWhere (s : State) (p : RegHome → RegDef → Nat → Nat → Bool) : List Nat :=
  (s.regs.map Prod.fst).filter fun off => match regAt off with
    | some (h, d, i) => p h d i off
    | none => false

/-- A register at its reset value. -/
def resetReg (s : State) (off : Nat) : State := wrReg s off (resetWord off)

/-! ### Protected registers (R546) -/

/-- Does a register of eight owner fields name a tenant? Log 111, DEDUCED. -/
def ownsField (w t : Nat) : Bool := (List.range 8).any fun j => bits w (8 * j + 7) (8 * j) == t

/-- Does a slot-table word hold an entry of SCH t? -/
def ownsSlot (w t : Nat) : Bool := (List.range 4).any fun j => bit w (16 * j + 15) && bits w (16 * j + 6) (16 * j) == 64 + t

/-- Registers of a TNI that place, move, decode or count the data of the tile's tenant (R546): all but the common page's. -/
def tniPrivate : RegName → Bool
  | .eccStat => false
  | .inj => false
  | .rsvCfg => false
  | .cisternStat => false
  | _ => true

/-- Is a register protected for tenant t (R546)? Log 81, DEDUCED. -/
def protects (s : State) (t off : Nat) : Bool :=
  let w := (rd s off).toNat
  match regAt off with
  | none => false
  | some (.arb _, d, _) => (d.name == .arbSlot0 || d.name == .arbSlot1) && ownsSlot w t
  | some (.fn f, d, _) => f == t && d.name != .hpFnStat
  | some (.blk b, d, i) =>
    match d.name with
    | .rtrXbar0 | .rtrXbar1 =>
      let r := Reg.rtrSchRange (blkTile b) t
      decide (fld s r RtrSchRange.BASE ≤ i) && decide (i < fld s r RtrSchRange.BASE + fld s r RtrSchRange.COUNT)
    | .mepStreamDesc => descTenant s b (i / 4) == t
    | .rtrPhaseLo | .rtrPhaseHi | .mepDescOwner => ownsField w t
    | .rtrShadowCap => (eGet {} (blkTile b) s.rel.shadow).who == t
    | .rtrEpOwner => owner s (blkTile b) == t
    | .rtrSchRange | .rsvShare | .telTutil | .telRuFmt | .telTwCfg | .telTwStat | .fabSchStat => i == t
    | .mepTrange => fld s off MepTrange.TENANT == t
    | .fabGrpA => fld s off FabGrpA.TENANT == t
    | .fabGrpB => fld s (off - 8) FabGrpA.TENANT == t
    | .redCtxA => fld s off RedCtxA.TENANT == t
    | .redCtxB => fld s (off - 8) RedCtxA.TENANT == t
    | .redCtxS => fld s (off - 16) RedCtxA.TENANT == t
    | .redCstat => fld s (off - 24) RedCtxA.TENANT == t
    | .lpSbindA | .rteSbindA => fld s off LpSbindA.TENANT == t
    | .lpSbindB | .rteSbindB => fld s (off - 8) LpSbindA.TENANT == t
    | .lpSbindC | .rteSbindC => fld s (off - 16) LpSbindA.TENANT == t
    | .rteQpStat | .rteQpCc => match b with | .rte e => qpState s e i != 0 && (qp s e i).tenant == t | _ => false
    | n => match b with
      | .tni x => tniPrivate n && owner s x == t
      | .lp _ => (n == .ctr && fld s off Ctr.TENANT == t) || (n == .relay && fld s off Relay.TENANT == t) ||
          (n == .trigb && fld s off Trigb.TENANT == t) || (n == .triga && fld s (off + 8) Trigb.TENANT == t) ||
          (n == .dstore && fld s (Reg.trigb b (i / 8)) Trigb.TENANT == t)
      | .rte _ => (n == .ctr && fld s off Ctr.TENANT == t) || (n == .relay && fld s off Relay.TENANT == t) ||
          (n == .trigb && fld s off Trigb.TENANT == t) || (n == .triga && fld s (off + 8) Trigb.TENANT == t) ||
          (n == .dstore && fld s (Reg.trigb b (i / 8)) Trigb.TENANT == t)
      | _ => false

/-- The sealed tenant that protects a register, if one does. -/
def sealedBy (s : State) (off : Nat) : Option Nat := ((List.range 64).filter (sealedT s)).find? fun t => protects s t off

/-- An FMP access that the seal gate refuses (R546, R625): counted and recorded. -/
def denied (s : State) (t : Nat) : State :=
  log (bump s Reg.secStat SecStat.DENIED 1) { errOf (unitCode .sealgate 0) .seal 2 with tenant := t, status := .tenantViolation }

/-- An authorisation or wrapped key refused (R547, R553). -/
def sigFail (s : State) (t : Nat) : State :=
  log (bump s Reg.secStat SecStat.SIGFAIL 1) { errOf (unitCode .sealgate 0) .seal 2 with tenant := t, status := .digestMismatch }

/-! ### Rings given up (R384) -/

/-- A ring register's EN bits cleared, and the executors' working state dropped. -/
def ringsCleared (s : State) (fn : Nat) : State :=
  (List.range 16).foldl (fun s r =>
    let s := setFld (setFld s (Reg.hpCrCfg fn r) HpCrCfg.EN 0) (Reg.hpCqCfg fn r) HpCqCfg.EN 0
    setCq (setRing (setFld s (Reg.hpCrStat fn r) HpCrStat.STATE 0) fn r {}) fn r {}) s

/-- Started commands of a function's rings. -/
def ringCmds (s : State) (fn : Nat) : List Cmd := s.host.cmds.filter fun c => match c.src with | .ring f _ => f == fn | _ => false

/-- A function's rings disabled (R384): its started commands are aborted, and no records are written for them. -/
def ringsOff (s : State) (fn : Nat) : State :=
  let s := ringsCleared s fn
  let s := (ringCmds s fn).foldl (fun s c => abortCmd s c .aborted) s
  if (ringCmds s fn).isEmpty || s.host.flr.contains fn then s else { s with host := { s.host with flr := s.host.flr ++ [fn] } }

/-! ### Groups (R414) -/

/-- The sluice operations of a group ended `ST_ABORTED`. -/
def sluAbort (s : State) (i : Nat) : State :=
  let ids := (s.slu.ops.filter fun o => o.gidx == i).flatMap fun o => o.cmd :: (match o.combine with | some (c, _) => [c] | none => [])
  let s := ids.foldl (fun s id => match cmdOf s id with | some c => abortCmd s c .aborted | none => s) s
  { s with slu := { s.slu with ops := s.slu.ops.filter fun o => o.gidx != i } }

/-- A register that a group's plan installed, disabled. -/
def planOff (s : State) (off : Nat) : State :=
  match regAt off with
  | some (.blk (.tni t), d, k) =>
    if d.name = .tniSluInba then after (execInboxDisable t k (putBits (rd s off).toNat 0 0 0) s) s else resetReg s off
  | some _ => resetReg s off
  | none => s

/-- GROUP_DESTROY's work (R414): running operations end `ST_ABORTED`; entries, contexts, inboxes, landings, relays and nodes go; GIDX is free. -/
def groupDestroy (s : State) (i : Nat) : State :=
  let s := sluAbort s i
  let s := (s.coll.ops.filter fun o => o.gidx == i).foldl (fun s o => collEnd s o .aborted 0) s
  let s := trigUnits.foldl (fun s b => disarmGroup s b i) s
  let s := clearContexts s i
  let s := ((s.coll.plans.filter fun p => p.1 == i).map Prod.snd).foldl planOff s
  let s := (regsWhere s fun _ d k _ => d.name == .tniGrpMember && k == i).foldl (fun s off => setFld s off TniGrpMember.V 0) s
  let s := { s with coll := { s.coll with plans := s.coll.plans.filter fun p => p.1 != i } }
  setFld s (Reg.fabGrpA i) FabGrpA.STATE 0

/-- The groups of a tenant. -/
def groupsOfTenant (s : State) (t : Nat) : List Nat := (List.range 4096).filter fun i => grpState s i != 0 && grpTenant s i == t

/-! ### Sealing (R545) -/

/-- The partition of a tenant. -/
def partOf (s : State) (t : Nat) : Option PartRun := s.parts.find? fun p => p.tenant == t

/-- Range entries of a tenant. -/
def rangesOf (s : State) (t : Nat) : List Nat :=
  regsWhere s fun _ d _ off => d.name == .mepTrange && flag s off MepTrange.V && fld s off MepTrange.TENANT == t

/-- The seal takes effect (R545). -/
def sealNow (s : State) (t : Nat) : State :=
  let s := wrReg s Reg.secSealed (BitVec.ofNat 64 (putBits (rd s Reg.secSealed).toNat t t 1))
  let s := (rangesOf s t).foldl (fun s off => setFld s off MepTrange.SL 1) s
  setFld s (Reg.hpFnStat t) HpFnStat.SEALED 1

/-! ### Destruction (R412, R561) -/

/-- A tenant's schedule stopped at its next round boundary. -/
def schKill (s : State) (t : Nat) : State :=
  let s := schDrop s t
  if schState s t = 0 then s
  else
    let s := if schState s t = 2 then advanceTo s (nextAt s t 0) else s
    let s := setFld s (Reg.fabSchCtx t) FabSchCtx.STATE 0
    setTen (dropBeats s t) t {}

/-- The tiles of a bit mask. -/
def maskTiles (m : Nat) : List Nat := (List.range 64).filter (bit m)

/-- A channel left FREE (R346, R412). -/
def chFree (s : State) (t c : Nat) : State := setChState (chReset s t c true) t c 0

/-- Steps 1 to 5 of R412, and the start of step 6: the partition's zero fill runs. -/
def destroyBegin (s : State) (p : PartRun) : State :=
  let t := p.tenant
  let s := setFnState (ringsOff s t) t 2
  let s := schKill s t
  let s := (groupsOfTenant s t).foldl groupDestroy s
  let s := (maskTiles p.tiles).foldl (fun s x =>
    (regsWhere s fun h d _ off => h == .blk (.tni x) && d.name == .tniChStat && fld s off TniChStat.STATE != 0).foldl
      (fun s off => chFree s x ((off - Reg.tniChStat x 0) / 32)) s) s
  let s := (s.rte.qps.filter fun q => q.2.tenant == t && qpState s (q.1 / 16384) (q.1 % 16384) != 0).foldl
    (fun s q => qpDestroy s (q.1 / 16384) (q.1 % 16384)) s
  let s := (s.rte.mrs.filter fun m => m.tenant == t).foldl (fun s m => mrDrop s m.e m.idx) s
  { s with parts := updFirst (fun q => q.tenant == t) (fun q => { q with dying := true }) s.parts }

/-- Stack pages of a range entry. -/
def inEntry (s : State) (off a : Nat) : Bool :=
  match regAt off with
  | some (.blk (.mep m), _, _) =>
    region a == 0 && stackOf (regOff a) == m && decide (fld s off MepTrange.BASE * 4096 ≤ stackAddr (regOff a)) &&
      decide (stackAddr (regOff a) < fld s off MepTrange.LIMIT * 4096)
  | _ => false

/-- Memory filled with zeros wherever `p` says (log 4, DESIGN CHOICE: an unlisted byte reads as zero). -/
def zeroWhere (s : State) (p : Nat → Bool) : State :=
  { s with mem := s.mem.filter fun c => ! p c.1, memPoison := s.memPoison.filter fun l => ! p (128 * l) }

/-- The tile windows of a mask. -/
def inTiles (mask a : Nat) : Bool := region a == 1 && bit mask (regOff a / 0x1000000)

/-- A tenant's dynamic-plane traffic discarded: cistern contents, waiting requests, and what the mesh carries (R561). Log 82, DEDUCED. -/
def dropTraffic (s : State) (t : Nat) : State :=
  let back (e d : Ep) (s : State) : State := if d.chip = myChip s then allotBack s e d else s
  let s := (s.dyn.txns.filter fun x => x.tenant == t).foldl (fun s x => let s := giveFree s x.ep x.slots; if x.allot then allotBack s x.ep x.dst else s) s
  let s := (s.dyn.rsvs.filter fun v => v.tenant == t).foldl
    (fun s v => (List.range v.slots).foldl (fun s _ => back v.ep v.dst s) (giveFree s v.ep v.slots)) s
  let s := (s.dyn.pend.filter fun r => r.tenant == t).foldl (fun s r => cisSub s r.ep CisternStat.PEND 1) s
  let s := (s.dyn.given.filter fun g => g.tenant == t).foldl (fun s g => giveFree (cisSub s g.ep CisternStat.GRANTED g.slots) g.ep g.slots) s
  let s := dropWaiting s fun r => r.pkt.tenant == t
  { s with dyn := { s.dyn with txns := s.dyn.txns.filter (fun x => x.tenant != t), pend := s.dyn.pend.filter (fun r => r.tenant != t),
                               given := s.dyn.given.filter (fun g => g.tenant != t), rsvs := s.dyn.rsvs.filter (fun v => v.tenant != t),
                               net := s.dyn.net.filter (fun p => p.tenant != t), vcs := s.dyn.vcs.filter (fun f => flitTenant f != t),
                               holds := s.dyn.holds.filter (fun h => h.tenant != t), wire := s.dyn.wire.filter (fun w => w.2.2.2 != t), entryWait := s.dyn.entryWait.filter (fun x => x.2.tenant != t) } }

/-- A tenant's keys erased, with `SEC_CSEQ`, KSEQ and its seal (R561). -/
def eraseKeys (s : State) (t : Nat) : State :=
  let s := { s with sec := { s.sec with ctrl := s.sec.ctrl.filter (fun k => k.1 != t), lane := s.sec.lane.filter (fun k => k.1 != t),
                                        qpKeys := s.sec.qpKeys.filter (fun k => k.2.tenant != t),
                                        kseq := s.sec.kseq.filter (fun k => k.1 != t) } }
  let s := setFld s (Reg.secCseq t) SecCseq.CSEQ 0
  let s := wrReg s Reg.secSealed (BitVec.ofNat 64 (putBits (rd s Reg.secSealed).toNat t t 0))
  setFld s (Reg.hpFnStat t) HpFnStat.SEALED 0

/-- Owner fields of a tenant turned to none (R82), whatever the descriptors' BANKS hold (log 163, DESIGN CHOICE). -/
def disown (s : State) (t off : Nat) : State :=
  wrReg s off (BitVec.ofNat 64 ((List.range 8).foldl (fun w j =>
    if bits w (8 * j + 7) (8 * j) = t then putBits w (8 * j + 7) (8 * j) 0xFF else w) (rd s off).toNat))

/-- What a partition holds in registers given back (R561 step 4): ranges, phase groups, shares, crossbar ranges and descriptor owners. -/
def freeRegs (s : State) (t : Nat) : State :=
  let s := (rangesOf s t).foldl resetReg s
  let s := (regsWhere s fun _ d _ off => (d.name == .rtrPhaseLo || d.name == .rtrPhaseHi || d.name == .mepDescOwner) &&
    ownsField (rd s off).toNat t).foldl (fun s off => disown s t off) s
  (regsWhere s fun _ d i _ => (d.name == .rsvShare || d.name == .rtrSchRange) && i == t).foldl resetReg s

/-- The poison bitmaps of a partition's tiles and descriptors cleared (R608). -/
def clearPsn (s : State) (t tiles : Nat) : State :=
  let s := (regsWhere s fun h d _ _ => (d.name == .tniGrpPsn || d.name == .tniPumpPsn) &&
    (match h with | .blk (.tni x) => bit tiles x | _ => false)).foldl resetReg s
  (List.range 12).foldl (fun s m => (List.range 8).foldl (fun s k =>
    let r := Reg.mepStreamPsn m k
    if (rd s r).toNat = 0 then s
    else wrReg s r (BitVec.ofNat 64 ((List.range 64).foldl (fun w j =>
      if descTenant s (.mep m) (64 * k + j) = t then putBits w j j 0 else w) (rd s r).toNat))) s) s

/-- A tenant's contexts cleared at every reduction unit. -/
def clearPartials (s : State) (t : Nat) : State :=
  (regsWhere s fun _ d _ off => d.name == .redCtxA && fld s off RedCtxA.TENANT == t).foldl (fun s off => match regAt off with
    | some (.blk (.rtr x), _, c) => resetReg (ctxDisable s x c (rd s off).toNat) off
    | _ => s) s

/-- The end of step 6 (R412, R561, R608): every fill has ended. -/
def destroyEnd (s : State) (p : PartRun) : State :=
  let t := p.tenant
  let rs := rangesOf s t
  let s := zeroWhere s fun a => inTiles p.tiles a || rs.any fun off => inEntry s off a
  let s := clearPartials (dropTraffic s t) t
  let s := { s with host := { s.host with cmds := s.host.cmds.filter (fun c => c.tenant != t), flr := s.host.flr.erase t } }
  let s := { s with sch := { s.sch with absorb := s.sch.absorb.filter (fun b => b.tenant != t),
                                        ingress := s.sch.ingress.filter (fun b => b.beat.tok.tenant != t) } }
  let s := freeRegs (clearPsn (eraseKeys s t) t p.tiles) t
  let s := (maskTiles p.tiles).foldl (fun s x => setFld s (Reg.rtrEpOwner x) RtrEpOwner.OWNER 0xFF) s
  let s := after (execTwinMapWrite (fld s Reg.fabTwinMap FabTwinMap.TWIN &&& (2 ^ 32 - 1 - p.twin)) s) s
  let s := { s with parts := s.parts.filter fun q => q.tenant != t }
  setFnState s t 0

/-- The tenant's queued commands end with STATE (R412, R421). -/
def endQueued (s : State) (t : Nat) : State := if s.mbx.fq.contains t then refuse s .f t .state else s

/-- ZERO_FILL_DONE (R561): the fills of a partition that is being destroyed have ended; the command that destroys it ends. -/
def execZeroFillDone (t : Nat) (s : State) : Host.Outcome State Fault Refusal :=
  .next (match s.parts.find? fun p => p.tenant == t && p.dying with
    | none => s
    | some p =>
      let s := endQueued (destroyEnd s p) t
      if (mbxSlot s .f 0).begun && rqCmd s .f 0 == 0x111 && bits (rqW s .f 0 0) 63 56 == t then
        refuseFirst .f s.mbx.fq.length (answerOk s .f 0)
      else s)

end Sys2Proof.Machine
end

