-- ==== Sys2Proof/Machine/Reliability.lean ====
section
/-!
DEFINITION. Silent errors (chapter 17): the shadow lane, errors in stored words, the core's command context, the unit history and the
outcome of patterns, and scrub entries.
-/
namespace Sys2Proof.Machine

/-! ### The shadow lane (R611-R617) -/

/-- A reduction unit's shadow checker. -/
def shadow (s : State) (t : Nat) : ShadowRun := eGet {} t s.rel.shadow
def setShadow (s : State) (t : Nat) (x : ShadowRun) : State := { s with rel := { s.rel with shadow := eSet {} t x s.rel.shadow } }

/-- Does a unit check (R611, R616)? -/
def shadowOn (s : State) (t : Nat) : Bool :=
  decide (t < 64) && flag s (Reg.rtrShadowCfg t) RtrShadowCfg.EN && ! flag s (Reg.rtrShadowStat t) RtrShadowStat.NOSHADOW

/-- The lane that the next check covers (R611). -/
def checkedLane (s : State) (t : Nat) : Nat := fld s (Reg.rtrShadowStat t) RtrShadowStat.CHECKS % 16

/-- A check made. -/
def countCheck (s : State) (t : Nat) : State := bump s (Reg.rtrShadowStat t) RtrShadowStat.CHECKS 1

/-- The LFSR loaded with SEED (R611); the first window begins with the next combine cycle. -/
def shadowSeed (s : State) (t : Nat) : State :=
  let v := fld s (Reg.rtrShadowCfg t) RtrShadowCfg.SEED
  setShadow s t { shadow s t with lfsr := if v = 0 then 0xACE1 else v, at_ := 0, open_ := false }

/-- One step of the LFSR (R611). -/
def lfsrStep (x : Nat) : Nat := x / 2 + b2n ((bit x 0 != bit x 2) != (bit x 3 != bit x 5)) * 2 ^ 15

/-- Is an injected fault due at the checked lane (R632)? -/
def shadowInj (s : State) (t k : Nat) : Bool := injArmed s (.rtr t) .shadow (fun sel => sel == k)
def shadowDue (s : State) (t k : Nat) : Bool := s.rel.stuck.contains (t, k) || shadowInj s t k

/-- SHADOW_WINDOW (R611): a window of combine cycles begins; the LFSR picks the checked one. The check of the window before has agreed. `n` is
the number of combine cycles that the pipeline takes before the sender's next command: a check among them that agrees is made here.
Log 84, DEDUCED. -/
def execShadowWindow (t n : Nat) (s : State) : Host.Outcome State Fault Refusal :=
  .next (if ! shadowOn s t || ((shadow s t).open_ && shadowDue s t (checkedLane s t)) then s
    else
      let s := if (shadow s t).open_ then countCheck s t else s
      let l := lfsrStep (shadow s t).lfsr
      let a := l % 2 ^ fld s (Reg.rtrShadowCfg t) RtrShadowCfg.NL2
      let made := decide (a < n) && ! shadowDue s t (checkedLane s t)
      let s := setShadow s t { shadow s t with lfsr := l, at_ := a, open_ := ! made }
      if made then countCheck s t else s)

/-- A mismatch delays the position by 7 cycles (R612); a MODE 2 beat that has left carries PSN (R613). Log 85, DEDUCED. -/
def shadowDelay (s : State) (x : Ctx) : State :=
  if x.mode = 2 then
    let mine (f : FlightBeat) : Bool := f.tile == x.tile && f.port == 16 + x.c && decide (s.clk.now ≤ f.due)
    let mark (f : FlightBeat) : FlightBeat := { f with beat := { f.beat with tok := { f.beat.tok with psn := true } } }
    { s with sch := { s.sch with flight := updFirst mine mark s.sch.flight } }
  else
    let r := redRun s x
    let coming := (r.poss.filterMap RedPos.ready).filter fun g => decide (s.clk.now ≤ g)
    let first := coming.foldl min (coming.headD 0)
    let late (q : RedPos) : RedPos := if q.ready = some first ∧ ! coming.isEmpty then { q with ready := some (first + 7) } else q
    setRed s x { r with poss := r.poss.map late }

/-- The first result of the checked lane as an injection leaves it (R632): inverted once, or with bit 0 inverted until the next FAB reset. -/
def injResult (s : State) (t k first : Nat) : Nat × State :=
  if shadowInj s t k then
    let keep := fld s (Reg.inj (.rtr t)) Inj.BITS == 2
    let s := injFire s (.rtr t)
    if keep then (first ^^^ 1, { s with rel := { s.rel with stuck := s.rel.stuck ++ [(t, k)] } }) else (2 ^ 64 - 1 - first % 2 ^ 64, s)
  else (if s.rel.stuck.contains (t, k) then first ^^^ 1 else first, s)

/-- SHADOW_MISMATCH (R612, R617): the checked lane's result differs from the spare's; the mismatch is captured and the slice recomputed. -/
def execShadowMismatch (t c lane a b first spare : Nat) (s : State) : Host.Outcome State Fault Refusal :=
  .next (if ! shadowOn s t || ! (shadow s t).open_ || lane != checkedLane s t || decide (16 ≤ c) || (shadow s t).pend.isSome then s
    else
      let i := injResult s t lane first
      if i.1 = spare then s
      else
        let s := countCheck i.2 t
        let s := ([a, b, i.1, spare].zipIdx).foldl (fun s w => wrReg s (Reg.rtrShadowCap t w.2) (BitVec.ofNat 64 w.1)) s
        let s := setShadow s t { shadow s t with open_ := false, pend := some (lane, c, (i.1 ^^^ spare) % 2 ^ 64), who := (ctxAt s t c).tenant }
        shadowDelay s (ctxAt s t c))

/-- A lane of a reduction unit retired (R614), or its spare given up (lane 16): checking stops. -/
def ruRetire (s : State) (t k : Nat) : State :=
  let r := Reg.rtrShadowStat t
  let s := setFld s r RtrShadowStat.NOSHADOW 1
  if k = 16 then setFld s r RtrShadowStat.SPAREBAD 1 else setFld (setFld s r RtrShadowStat.RET 1) r RtrShadowStat.RETLANE k

/-- The outcome of a recomputation (R613): 1 TRANSIENT, 2 LANE, 3 SPARE, 4 NOVOTE. -/
def shadowOutcome (lane spare voter : Nat) : Nat :=
  if lane = spare then 1 else if voter = spare then 2 else if voter = lane then 3 else 4

/-- The record of an outcome (R625). -/
def shadowRec (x : Ctx) (k d out : Nat) : ErrRec :=
  { errOf (unitCode .ru x.tile) .shadow (if out = 1 then 1 else 3) with
    kind := out, tenant := x.tenant, status := if out = 2 ∨ out = 4 then .arithFault else .ok,
    synd := k * 2 ^ 124 + x.efmt * 2 ^ 120 + x.op * 2 ^ 117 + x.c * 2 ^ 112 + d }

/-- SHADOW_RECOMPUTE_DONE (R613, R614): the outcome of the recomputation on lane, spare and voter. -/
def execShadowRecomputeDone (t lane spare voter : Nat) (s : State) : Host.Outcome State Fault Refusal :=
  .next (match (shadow s t).pend with
    | none => s
    | some (k, c, d) =>
      let x := ctxAt s t c
      let out := shadowOutcome (if s.rel.stuck.contains (t, k) then spare ^^^ 1 else lane) spare voter
      let inj := s.rel.injNext.contains Det.shadow.code
      let s := setShadow s t { shadow s t with pend := none }
      let l := logKept s (shadowRec x k d out)
      let s := l.1
      let noted (k : Nat) (f : HistRec → HistRec) (s : State) : State := if inj then s else histEvent s (unitCode .ru t) k f
      if out = 1 then noted k (fun h => { h with trans := h.trans + 1 }) (bumpSat s (Reg.rtrShadowStat t) RtrShadowStat.TRANS 1)
      else if out = 3 then noted 16 (fun h => { h with st := 2 }) (ruRetire s t 16)
      else
        let s := report s 0 l.2
        ctxFail (noted k (fun h => { h with st := 2 }) (ruRetire s t k)) x .arithFault)

/-! ### Errors in stored words (R600-R603) -/

/-- Does a block window hold `ECC_STAT` (R677)? -/
def hasEcc : Blk → Bool
  | .fab => false
  | .sec => false
  | .tel => false
  | _ => true

/-- A code event counted (R604). -/
def eccCount (s : State) (b : Blk) (f : Fld) : State := if hasEcc b then bump s (Reg.eccStat b) f 1 else s

/-- A record of a code event: corrected (class 0, kind 1), or uncorrectable (kind 2) for a tenant. Log 122, DEDUCED. -/
def eccRec (b : Blk) (d : Det) (fixed : Bool) (tenant : Nat) : ErrRec :=
  { errOf (blkUnit b) d (if fixed then 0 else 2) with kind := if fixed then 1 else 2, tenant := tenant,
                                                      status := if fixed || d == .bufecc then .ok else .poisoned }

/-- An uncorrectable word in a data buffer (R603). -/
def bufHit (s : State) (b : Blk) (tenant : Nat) : State := log (eccCount s b EccStat.UE) (eccRec b .bufecc false tenant)

/-- An uncorrectable configuration entry (R602). -/
def cfgHit (s : State) (b : Blk) (tenant : Nat) : State := log (eccCount s b EccStat.CFGUE) (eccRec b .cfgecc false tenant)

/-- A counter records `ST_POISONED` as a failure (R257, R602). -/
def ctrPoison (s : State) (off : Nat) : State := ctrApply s off 0 [Status.poisoned.code]

/-- A triggered entry lost (R602): V clears, and its DCTR records the failure. -/
def trigPoison (s : State) (b : Blk) (e : Nat) : State :=
  let s := disarm s b e
  let s := { s with trig := { s.trig with queue := s.trig.queue.filter (fun x => x != (b, e)) } }
  if flag s (Reg.trigb b e) Trigb.DEN then ctrPoison s (trigDctr s b e) else s

/-- A group's poison bit set at every member tile (R602, R608). -/
def groupPoison (s : State) (i : Nat) : State :=
  ((List.range 64).filter fun t => isMember s t i).foldl (fun s t => setGrpPsn s t i) s

/-- The tenant whose crossbar range holds an entry of a router (R61). -/
def xbarOwner (s : State) (tile i : Nat) : Option Nat :=
  ((List.range 64).drop 1).find? fun t =>
    let r := Reg.rtrSchRange tile t
    decide (fld s r RtrSchRange.BASE ≤ i) && decide (i < fld s r RtrSchRange.BASE + fld s r RtrSchRange.COUNT)

/-- A tenant's schedule stopped by a lost entry (R602). -/
def schLost (s : State) (b : Blk) (t : Nat) : State :=
  let s := eccCount s b EccStat.CFGUE
  if schState s t = 2 then schStop s t { eccRec b .cfgecc false t with cls := 4 } else log s (eccRec b .cfgecc false t)

/-- The n-th entry of a list changed. -/
def atIdx {α : Type} (f : α → α) : Nat → List α → List α
  | _, [] => []
  | 0, a :: r => f a :: r
  | n + 1, a :: r => a :: atIdx f n r

/-- The injection that a scrub read takes with it (R632): BUFECC or CFGECC of the unit, of one bit for a corrected word and of two for one that is
not. -/
def scrubInj (s : State) (b : Blk) (n : Nat := 2) : State :=
  if (injArmed s b .bufecc (fun _ => true) || injArmed s b .cfgecc (fun _ => true)) && fld s (injReg b) Inj.BITS == n then injFire s b else s

/-- A sluice operation whose record is lost completes `ST_POISONED` (R602). -/
def sluLost (s : State) (t o : Nat) : State :=
  match s.slu.ops.find? fun x => x.tile == t && x.o == o with
  | none => s
  | some x => match cmdOf s x.cmd with
    | some c => abortCmd s c .poisoned
    | none => match x.combine with
      | some (i, _) => (match cmdOf s i with | some c => abortCmd s c .poisoned | none => s)
      | none => s

/-- An entry without a single owner at its reset value (R602), until firmware rewrites it from its own copy, 1 ms later; what the device record gave
stands (R6, R19). Log 161, DESIGN CHOICE. -/
def scrubReset (s : State) (off : Nat) : State :=
  if off = Reg.fabGoodTiles then s
  else
    let t := if off = Reg.fabPkgInfo then setFld (resetReg s off) off FabPkgInfo.GRADE (fld s off FabPkgInfo.GRADE) else resetReg s off
    if t.rel.restore.any fun x => x.1 == off then t
    else { t with rel := { t.rel with restore := t.rel.restore ++ [(off, rd s off, s.clk.now + usCycles 1000)] } }

/-- A flit read from a replay buffer with an uncorrectable error (R600): POISON is set in its header, and HCRC regenerated. -/
def spoiled (bytes : List Byte) : List Byte :=
  let h := putBits (ofLE (slice bytes 0 24)) 170 170 1
  splice bytes 0 (toLE 24 (putBits h 191 176 (hcrcOf (pktOf h))))

/-- Is an entry another row of R602's table than the last: does its context answer for it? -/
def ownedEntry : RegName → Bool
  | .ctr | .triga | .trigb | .dstore | .tniLand | .relay | .rtrXbar0 | .rtrXbar1 | .mepStreamDesc | .tniPumpDesc => true
  | .fabGrpA | .fabGrpB | .tniGrpMember | .rtrSpNode | .redCtxA | .redCtxB | .redCtxS => true
  | .tniChCfg | .tniChRing | .tniChSpill | .tniChStat | .rteQpStat | .rteQpCc => true
  | .tniSluInba | .tniSluInbb | .tniSluIstat | .tniSluOstat => true
  | _ => false

/-- One key of a pair erased. -/
def KeyPair.erase (k : KeyPair) (ph : Nat) : KeyPair := if ph = 0 then { k with k0 := none } else { k with k1 := none }

/-- The first beat on its way over a mesh link. -/
def onLink (s : State) (tile out : Nat) : Option FlightBeat :=
  s.sch.flight.find? fun f => f.tile == (farEnd tile out).1 && f.port == (farEnd tile out).2

/-- An error that comes upon a word outside the arrays and buffers of R603 (R600): a link's, the FMP's, the management island's. Log 186, DESIGN CHOICE. -/
def wordHit (s : State) : ScrubHit → State
  | .fmpMem => fmpBite s
  | .record n =>
    match (s.log.ring.take (s.log.ring.length - freshRecs s)).find? fun e => e.seq == n with
    | none => s
    | some e => { s with log := { s.log with ring := s.log.ring.erase e, ue := s.log.ue + 1 } }
  | .linkFixed t out plane => linkErr s t out (plane % 2) false
  | .linkFlit t out p =>
    if ! s.dyn.net.contains p then s
    else
      let bad : Pkt := stamp { p with poison := true }
      linkErr { s with dyn := { s.dyn with net := updFirst (· == p) (fun _ => bad) s.dyn.net } } t out 0 true
  | .linkBeat t out =>
    match onLink s t out with
    | none => s
    | some x =>
      let bad : FlightBeat := { x with beat := { x.beat with tok := { x.beat.tok with psn := true } } }
      linkErr { s with sch := { s.sch with flight := updFirst (· == x) (fun _ => bad) s.sch.flight } } t out 1 true
  | .linkToken t out =>
    match onLink s t out with
    | none => s
    | some x => linkErr { s with sch := { s.sch with flight := s.sch.flight.erase x } } t out 1 true
  | _ => s

/-- A scrub hit handled at its unit (R600, R602, R603). -/
def scrubHit (s : State) : ScrubHit → State
  | .corrected b =>
    let buf := injArmed s b .bufecc (fun _ => true)
    log (eccCount (scrubInj s b 1) b EccStat.CE) (eccRec b (if buf then .bufecc else .cfgecc) true 0xFF)
  | .packet b p =>
    let bad : Pkt := stamp { p with poison := true }
    bufHit { scrubInj s b with dyn := { s.dyn with net := updFirst (· == p) (fun _ => bad) s.dyn.net } } b p.tenant
  | .staging m n j k =>
    let mine (x : StagePlace) : Bool := x.mep == m && x.desc == n && x.j == j && x.k == k
    let bad (x : StagePlace) : StagePlace := { x with beat := x.beat.map fun v => (v.1, true) }
    let t := descTenant s (.mep m) n
    bufHit { scrubInj s (.mep m) with sch := { s.sch with stage := updFirst mine bad s.sch.stage } } (.mep m) t
  | .absorbed m i =>
    let l := s.sch.absorb.filter fun b => b.mep == m
    match l[i]? with
    | none => s
    | some x => bufHit { scrubInj s (.mep m) with sch := { s.sch with
        absorb := updFirst (· == x) (fun x => { x with psn := true }) s.sch.absorb } } (.mep m) x.tenant
  | .ingress b i =>
    match (s.sch.ingress.filter fun x => x.blk == b)[i]? with
    | none => s
    | some x =>
      let bad : IngressBeat := { x with beat := { x.beat with tok := { x.beat.tok with psn := true } } }
      bufHit { scrubInj s b with sch := { s.sch with ingress := updFirst (· == x) (fun _ => bad) s.sch.ingress } } b x.beat.tok.tenant
  | .held t port i =>
    match (s.sch.hold.filter fun x => x.tile == t && x.port == port)[i]? with
    | none => s
    | some x =>
      let bad : FlightBeat := { x with beat := { x.beat with tok := { x.beat.tok with psn := true } } }
      bufHit { scrubInj s (.rtr t) with sch := { s.sch with hold := updFirst (· == x) (fun _ => bad) s.sch.hold } } (.rtr t) x.beat.tok.tenant
  | .laneIn n v =>
    match (lane s n).asm.find? fun a => a.vc == v with
    | none => s
    | some a =>
      let bad : LaneAsm := { a with pkt := stamp { a.pkt with poison := true } }
      bufHit (setLane (scrubInj s (.lp n)) n { lane s n with asm := updFirst (fun x => x.vc == v) (fun _ => bad) (lane s n).asm }) (.lp n) a.pkt.tenant
  | .replay n q =>
    match (lane s n).replay.find? fun b => b.1 == q with
    | some (_, .flit bytes) =>
      let l := updFirst (fun b => b.1 == q) (fun b => (b.1, .flit (spoiled bytes))) (lane s n).replay
      bufHit (setLane (scrubInj s (.lp n)) n { lane s n with replay := l }) (.lp n) (pktOf (ofLE (slice bytes 0 24))).tenant
    | _ => s
  | .frame e k c i =>
    let r := port s e k
    match (r.data.filter fun x => x.1 == c)[i]? with
    | none => s
    | some x =>
      let bad : Nat × QFrame := (c, { x.2 with f := { x.2.f with bth := { x.2.f.bth with poison := true } } })
      bufHit (setPort (scrubInj s (.rte e)) e k { r with data := updFirst (· == x) (fun _ => bad) r.data }) (.rte e) (qp s e x.2.q).tenant
  | .txPacket e q n =>
    let r := qp s e q
    bufHit (setQp (scrubInj s (.rte e)) e q { r with tx := updFirst (fun x => x.psn == n) (fun x => { x with poison := true }) r.tx }) (.rte e) r.tenant
  | .partialSum t c h =>
    let x := ctxAt s t c
    let r := redRun s x
    let s := scrubInj s (.rtr t)
    bufHit (setRed s x { r with poss := updFirst (fun q => q.half == h) (fun q => { q with psn := true }) r.poss }) (.rtr t) x.tenant
  | .xbar t bank i =>
    let s := scrubInj s (.rtr t)
    match xbarOwner s t i with
    | some o => schLost s (.rtr t) o
    | none => cfgHit (resetReg s (xbar t (bank % 2) i)) (.rtr t) 0xFF
  | .descriptor b n =>
    let s := scrubInj s b
    if 1 ≤ descTenant s b n ∧ descTenant s b n ≤ 63 then schLost s b (descTenant s b n) else cfgHit s b 0xFF
  | .counter b n => cfgHit (ctrPoison (scrubInj s b) (Reg.ctr b n)) b (fld s (Reg.ctr b n) Ctr.TENANT)
  | .trigger b e => cfgHit (trigPoison (scrubInj s b) b e) b (fld s (Reg.trigb b e) Trigb.TENANT)
  | .dslot b e => cfgHit (trigPoison (scrubInj s b) b e) b (fld s (Reg.trigb b e) Trigb.TENANT)
  | .landing t l =>
    let c := Reg.ctr (.tni t) (fld s (landReg t l) TniLand.CTR)
    cfgHit (resetReg (ctrPoison (scrubInj s (.tni t)) c) (landReg t l)) (.tni t) (fld s (landReg t l) TniLand.TENANT)
  | .relay b r =>
    let c := Reg.ctr b (fld s (Reg.relay b r) Relay.CTR)
    cfgHit (setFld (ctrPoison (scrubInj s b) c) (Reg.relay b r) Relay.V 0) b (fld s (Reg.relay b r) Relay.TENANT)
  | .group i => log (groupPoison s i) (eccRec .fab .cfgecc false (grpTenant s i))
  | .member t i => cfgHit (groupPoison (scrubInj s (.tni t)) i) (.tni t) (grpTenant s i)
  | .spNode t n =>
    let r := Reg.rtrSpNode t n
    let same (i : Nat) : Bool := grpState s i != 0 && grpId s i == (fld s r RtrSpNode.GROUP, fld s r RtrSpNode.EPOCH)
    cfgHit (((List.range 4096).filter same).foldl groupPoison (scrubInj s (.rtr t))) (.rtr t) (fld s r RtrSpNode.TENANT)
  | .context t c =>
    let x := ctxAt s t c
    let s := cfgHit (scrubInj s (.rtr t)) (.rtr t) x.tenant
    if ctxState s x = 0 then s else ctxFail s x .poisoned
  | .channel t c => cfgHit (if chState s t c = 0 then scrubInj s (.tni t) else setChState (scrubInj s (.tni t)) t c 3) (.tni t) (owner s t)
  | .pair e q => cfgHit (if qpState s e q = 1 ∨ qpState s e q = 2 then qpLost (scrubInj s (.rte e)) e q else scrubInj s (.rte e)) (.rte e) (qp s e q).tenant
  | .region e i => cfgHit (mrDrop (scrubInj s (.rte e)) e i) (.rte e) 0xFF
  | .inbox t k =>
    let r := inbS t k
    cfgHit (setFld (setFld (scrubInj s (.tni t)) r TniSluIstat.POISONED 1) r TniSluIstat.STATUS Status.poisoned.code) (.tni t) (owner s t)
  | .sluice t o => cfgHit (sluLost (scrubInj s (.tni t)) t o) (.tni t) (owner s t)
  | .ctrlKey t => log { s with sec := { s.sec with ctrl := s.sec.ctrl.filter fun k => k.1 != t } } (eccRec .sec .cfgecc false t)
  | .laneKey t ph =>
    log { s with sec := { s.sec with lane := eSet {} t ((eGet {} t s.sec.lane).erase ph) s.sec.lane } } (eccRec .sec .cfgecc false t)
  | .pairKey e n ph =>
    let k := eGet {} (256 * e + n) s.sec.qpKeys
    log { s with sec := { s.sec with qpKeys := eSet {} (256 * e + n) (k.erase ph) s.sec.qpKeys } } (eccRec .sec .cfgecc false k.tenant)
  | .other off =>
    match blkOf off, regAt off with
    | some (b, _), some (_, d, _) => if ownedEntry d.name then s else cfgHit (scrubReset (scrubInj s b) off) b 0xFF
    | _, _ => s
  | h => wordHit s h

/-- CONFIG_SCRUB (R602, R603). -/
def execConfigScrub (h : ScrubHit) (s : State) : Host.Outcome State Fault Refusal := .next (scrubHit s h)

/-! ### The core's command context (R607) -/

/-- CORE_CLEAR (R607). -/
def execCoreClear (t : Nat) (s : State) : Host.Outcome State Fault Refusal :=
  .next (if 64 ≤ t then s else setFld s (Reg.tniCoreCtx t) TniCoreCtx.DEAD 0)

/-! ### The unit history and patterns (R619, R620, R630) -/

/-- TRANS_HALVING (R619). -/
def execTransHalving (s : State) : Host.Outcome State Fault Refusal :=
  .next { s with rel := { s.rel with hist := s.rel.hist.map fun h => { h with trans := h.trans / 2 } } }

/-- The record of a unit or lane. -/
def histOfUnit (s : State) (unit lane : Nat) : HistRec := (s.rel.hist.find? fun h => h.unit == unit && h.lane == lane).getD { unit := unit, lane := lane }

/-- A retirement applied to its unit (R620): a reduction unit's lane moves onto the spare; a lane-port lane, or every lane
of an excluded lane port, is left out of training (log 188, DEDUCED). -/
def applyRetired (s : State) (unit l : Nat) : State :=
  let k := unit / 2 ^ 11
  let i := unit % 2 ^ 11
  if k = 2 ∧ i < 64 ∧ l ≤ 16 then ruRetire s i l
  else if k = 6 ∧ i < 16 ∧ l < 32 then setLane s i { lane s i with retired := putBits (lane s i).retired l l 1 }
  else if k = 6 ∧ i < 16 ∧ l = 0xFF then setLane s i { lane s i with retired := 2 ^ 32 - 1 }
  else s

/-- May a failing lane be retired: a lane of a lane port, or of a reduction unit whose spare is still free? -/
def hasSpare (s : State) (f : TestFail) : Bool :=
  let k := f.unit / 2 ^ 11
  f.lane != 0xFF && (k == 6 || (k == 2 && ! flag s (Reg.rtrShadowStat (f.unit % 64)) RtrShadowStat.NOSHADOW))

/-- The record of a failing pattern (R625, R630). -/
def scanRec (f : TestFail) (cls : Nat) : ErrRec := { errOf f.unit .scan cls with synd := f.synd }

/-- A failing lane retired, or its unit excluded where it has no spare (R620). Log 188, DEDUCED. -/
def condemn (s : State) (f : TestFail) : State :=
  if hasSpare s f then applyRetired (histEvent s f.unit f.lane fun h => { h with st := 2 }) f.unit f.lane
  else
    let s := histEvent s f.unit 0xFF fun h => { h with st := 3 }
    if f.unit / 2 ^ 11 = UKind.lp.code then applyRetired s f.unit 0xFF else s

/-- A failing pattern recorded and classified (R620): retired or excluded when it fails again, else intermittent, and retired or excluded when
INTER or TRANS has reached its limit. -/
def classify (s : State) (f : TestFail) : State :=
  if f.again then condemn (log s (scanRec f 3)) f
  else
    let h := histOfUnit s f.unit f.lane
    let gone := decide (2 ≤ h.inter + 1) || decide (16 ≤ h.trans)
    let s := histEvent (log s (scanRec f (if gone then 3 else 1))) f.unit f.lane fun h => { h with inter := h.inter + 1 }
    if gone then condemn s f else s

/-- Does a failure of this unit stop start-up (R594)? Log 127, DEDUCED. -/
def stopsBoot (f : TestFail) : Bool :=
  f.again && [UKind.router, .spstage, .mep, .hp, .fmp, .mi].any fun k => k.code == f.unit / 2 ^ 11

/-! ### Scrub entries (R562) -/

/-- SCRUB_FILL_DONE (R562): the entry's pages are zero, and the entry is free. Log 67, DEDUCED. -/
def execScrubFillDone (mep i : Nat) (s : State) : Host.Outcome State Fault Refusal :=
  let off := Reg.mepTrange mep i
  .next (if 12 ≤ mep ∨ 256 ≤ i ∨ ! flag s off MepTrange.V ∨ ! flag s off MepTrange.SCR then s
    else
      let s := zeroWhere s fun a => inEntry s off a
      setFld (setFld (setFld s off MepTrange.V 0) off MepTrange.SCR 0) off MepTrange.TENANT 0xFF)

end Sys2Proof.Machine
end

