-- ==== Sys2Proof/Machine/Boot.lean ====
section
/-!
DEFINITION. Clocks, resets, power and start-up (chapter 16): lock losses, the FAB and lane-port resets, supplies and sensors, the idle state,
the stages of start-up, and resets of HBM controllers.
-/
namespace Sys2Proof.Machine

/-! ### Records and fields -/

/-- The stage of start-up (R592, R596). -/
def stage (s : State) : Nat := fld s Reg.fabBootStat FabBootStat.STAGE
def setStage (s : State) (v : Nat) : State :=
  setFld { s with boot := { s.boot with since := s.clk.now } } Reg.fabBootStat FabBootStat.STAGE v

/-- Is the root PLL locked? -/
def locked (s : State) : Bool := flag s Reg.fabClkStat FabClkStat.LOCK

/-- Fabric power state (R587). -/
def pwrState (s : State) : Nat := fld s Reg.fabPwrStat FabPwrStat.STATE
def setPwr (s : State) (v : Nat) : State := setFld s Reg.fabPwrStat FabPwrStat.STATE v

/-- A record of an image, of a stop, or of the clock monitor (R594, R572). -/
def bootRec (code cls : Nat) : ErrRec := { errOf (unitCode .mi 0) .boot cls with kind := code }

/-! ### A reset of the fabric domain (R407, R562, R576, R577, R597) -/

/-- Registers that a reset returns to their Reset value: all but those that `keep` names. -/
def resetRegs (s : State) (keep : Nat → Bool) : State := { s with regs := s.regs.filter fun e => keep e.1 }

/-- Does a register's value outlive a FAB reset (R576, R676)? Log 123, DEDUCED. -/
def outlives (off : Nat) : Bool :=
  match regDom off with
  | .mi => true
  | .prod => true
  | .vdd18 => true
  | _ => false

/-- Every collective with a running operation on the package aborted through its coordinator with a status (R282, R385, R407). -/
def abortOps (s : State) (st : Status) : State :=
  s.coll.ops.foldl (fun s o =>
    let req := grpMsg .abortReq (grpTenant s o.gidx) (coordinator s o.gidx) 0 false (grpId s o.gidx) (memberRank s o.tile o.gidx) 0
      (o.seq % 2 ^ 14) (failWord st (memberRank s o.tile o.gidx))
    spSend s ⟨myChip s, o.tile, 0⟩ req) s

/-- What the fabric's reset begins with (R407): every executor stops, every started command is abandoned without a record, and every partition
ends. -/
def fabHold (s : State) : State :=
  { s with clk := { s.clk with fabHeld := true }, parts := [],
           host := { s.host with cmds := [], rings := [], cqs := [], coreDone := [], coreHeld := [], flr := [] },
           trig := {}, coll := { s.coll with ops := [] } }

/-- The collectives aborted, and the fabric held in reset (R407). -/
def fabDown (s : State) (st : Status) : State := fabHold (abortOps s st)

/-- A MEP's range entry after the reset (R562): a valid one becomes a scrub entry. -/
def scrubEntry (s : State) (e : Nat × Word) : State :=
  match regAt e.1 with
  | some (_, d, _) =>
    if d.name = .mepTrange ∧ getF e.2 MepTrange.V = 1 then wrReg s e.1 (setF (setF e.2 MepTrange.SL 0) MepTrange.SCR 1)
    else if d.name = .lpCfg then setFld s e.1 LpCfg.DIR (getF e.2 LpCfg.DIR)
    else if d.name = .hpFnStat then setFld s e.1 HpFnStat.LOSSES (getF e.2 HpFnStat.LOSSES)
    else s
  | none => s

/-- RET, RETLANE and SPAREBAD take their values from the unit history (R616). -/
def shadowHist (s : State) (t : Nat) : State :=
  let mine := s.rel.hist.filter fun h => h.unit == unitCode .ru t && h.st == 2
  let r := Reg.rtrShadowStat t
  let s := [RtrShadowStat.RETLANE, RtrShadowStat.RET, RtrShadowStat.SPAREBAD, RtrShadowStat.NOSHADOW].foldl (fun s f => setFld s r f 0) s
  mine.foldl (fun s h => if h.lane = 0xFF then s else ruRetire s t h.lane) s

/-- An Ethernet port after the reset (R578): a frame in progress ends with a bad FCS. -/
def portReset (s : State) (x : Nat × PortRun) : List EthOut × (Nat × PortRun) :=
  (if x.2.cur.isSome && decide (s.clk.now < x.2.busy) then [.badFcs (x.1 / 4) (x.1 % 4)] else [], (x.1, { up := x.2.up }))

/-- Does an address lie in the populated window of a good tile? -/
def goodWindow (s : State) (a : Nat) : Bool := region a == 1 && good s (regOff a / 0x1000000)

/-- The fabric's working state after the reset: nothing in flight; standpipe messages for other packages have left. -/
def fabRuns (s : State) : State :=
  let ps := s.rte.ports.map (portReset s)
  { s with
    dyn := { nextMc := s.dyn.nextMc, nextReq := s.dyn.nextReq }, sch := {}, arb := { since := s.clk.now }, trig := {}, red := [], slu := {}, chan := {},
    coll := { spNet := s.coll.spNet.filter fun m => (SpDst m.2).chip != myChip s },
    host := { s.host with cmds := [], rings := [], cqs := [], coreDone := [], coreHeld := [], flr := [] },
    rte := { gens := s.rte.gens, out := s.rte.out ++ ps.flatMap Prod.fst, ports := (ps.map Prod.snd).filter fun p => p.2 != {} },
    sec := {},
    lane := { runs := (s.lane.runs.map fun r => (r.1, { retired := r.2.retired, out := r.2.out })).filter fun r => r.2 != {} },
    obs := { s.obs with bufs := [], flights := [], lostRecs := [], watch := [] },
    boot := { s.boot with hbmWait := [] }, bus := {}, rel := { s.rel with shadow := [], stuck := [], restore := [] } }

/-- The FAB domain leaves reset (R562, R577, R597, R616, R666): registers at their Reset values, valid ranges turned into scrub entries, tile
windows and keys erased. Counters that are latched and reset show their new values. -/
def fabUp (s : State) : State :=
  let old := s.regs
  let s := { s with obs := { s.obs with latched := s.obs.latched.map fun l => l.filter fun e => outlives e.1 } }
  let s := old.foldl scrubEntry (resetRegs s outlives)
  let s := wrReg s Reg.secSealed 0
  let s := (List.range 64).foldl (fun s t => setFld s (Reg.secCseq t) SecCseq.CSEQ 0) s
  let s := zeroWhere (fabRuns s) (goodWindow s)
  let s := (List.range 64).foldl shadowHist s
  setPwr { s with clk := { s.clk with fabHeld := false, gated := false }, parts := [] } 3

/-- Lane ports with a direction go into training (R597, R407). -/
def startTraining (s : State) : State :=
  (List.range 16).foldl (fun s n => if fld s (Reg.lpCfg n) LpCfg.DIR = 0 then s else toState s n 1) s

/-- The lane ports whose training has started. -/
def trainingMap (s : State) : Nat := (List.range 16).foldl (fun m n => if lpState s n = 0 then m else putBits m n n 1) 0

/-- Function states after a FAB reset: function 0 ready and every virtual function disabled (R407); after a host link loss every function stays
in STATE 3 (R385). -/
def fnStates (s : State) (lost : Bool) : State :=
  (List.range 64).foldl (fun s f => setFnState s f (if lost then 3 else if f = 0 then 1 else 0)) s

/-- A lane port's arbiter and gate list start anew, but for the count of arbiter cycles, which runs on (R148, R577). -/
def laneArbReset (s : State) (n : Nat) : State :=
  let b := (Blk.lp n).base
  let x := arbRun s (.lp n)
  let out (k : Nat) : Bool := ! (decide (b ≤ k) && decide (k < b + 0x20000))
  let s := { s with arb := { s.arb with
    memos := s.arb.memos.filter fun e => out e.1, gates := s.arb.gates.filter fun e => out e.1,
    shapes := s.arb.shapes.filter fun e => out e.1, tokens := s.arb.tokens.filter fun e => out e.1 } }
  setRun s (.lp n) { n := x.n, refillAt := x.refillAt, pace := x.pace }

/-- A lane port's domain reset ends (R577): its registers but DIR, its working state, and its part of what travels. -/
def laneReset (s : State) (n : Nat) : State :=
  let dir := fld s (Reg.lpCfg n) LpCfg.DIR
  let b := (Blk.lp n).base
  let s := resetRegs (laneArbReset (setWidth s n 0) n) fun off => ! (decide (b ≤ off) && decide (off < b + 0x20000)) || outlives off
  let s := setLane s n { retired := (lane s n).retired, out := (lane s n).out }
  let s := setFld s (Reg.lpCfg n) LpCfg.DIR dir
  if dir = 0 then s else toState s n 1

/-- DOMAIN_RESET_DONE (R577): the FAB reset that is in force ends, and with it FABRIC_RESET; or a lane port that is held in RESET is reset. -/
def execDomainResetDone (lp : Option Nat) (s : State) : Host.Outcome State Fault Refusal :=
  .next (match lp with
    | some n => if n < 16 ∧ lpState s n = 0 ∧ ! s.clk.fabHeld then laneReset s n else s
    | none =>
      if ! s.clk.fabHeld || s.clk.fabOff || ! locked s || s.boot.thermtrip || stage s != 9 then s
      else
        let lost := s.host.loss != 0
        let s := startTraining (fnStates (fabUp s) lost)
        let s := { s with host := { s.host with loss := if lost then 3 else 0 } }
        if (mbxSlot s .g 0).begun && rqCmd s .g 0 == 5 then
          refuseFirst .g s.mbx.gq.length (answerOk s .g 0 [trainingMap s])
        else s)

/-! ### Clocks (R572, R573) -/

/-- Start-up stopped (R594). -/
def bootStop (s : State) (code : Nat) : State :=
  let r := Reg.fabBootStat
  log (setFld (setFld (setStage s 15) r FabBootStat.CODE code) r FabBootStat.FAIL 1) (bootRec code 5)

/-- The root PLL loses its lock (R572, R594): clocks gated and the fabric held; before stage 9 the first loss restarts start-up from stage 1, the
second stops it. Log 119, DEDUCED. -/
def clockLoss (s : State) : State :=
  if ! locked s then s
  else
    let r := Reg.fabClkStat
    let s := bumpSat (setFld s r FabClkStat.LOCK 0) r FabClkStat.LOSSES 1
    let s := { s with clk := { s.clk with gated := true, fabHeld := true } }
    if stage s = 9 ∨ stage s = 15 then s
    else if s.boot.losses = 0 then
      let s := { s with boot := { s.boot with losses := 1 } }
      log (setStage s 1) (errOf (unitCode .clkmon 0) .clock 5)
    else bootStop s 6

/-- CLOCK_LOSS (R572). -/
def execClockLoss (s : State) : Host.Outcome State Fault Refusal := .next (clockLoss s)

/-- ROOT_PLL_RELOCK (R572): the actions of FABRIC_RESET, without a slot, and a record; a reset that the loss met starts again. -/
def execRootPllRelock (s : State) : Host.Outcome State Fault Refusal :=
  .next (if locked s || stage s != 9 || ! s.clk.run then s
    else
      let s := setFld s Reg.fabClkStat FabClkStat.LOCK 1
      let s := { s with clk := { s.clk with gated := false } }
      let s := endAll s .f .reset
      log (fabDown (closePairs s 3) .aborted) (errOf (unitCode .clkmon 0) .clock 5))

/-- REFCLK_LOSS (R572). -/
def execRefclkLoss (s : State) : Host.Outcome State Fault Refusal := .next (setFld s Reg.fabClkStat FabClkStat.REFOK 0)

/-- REFCLK_RETURN (R573). -/
def execRefclkReturn (s : State) : Host.Outcome State Fault Refusal := .next (setFld s Reg.fabClkStat FabClkStat.REFOK 1)

/-! ### Start-up (R592-R596) -/

/-- PORST_RELEASE (R592): stage 1 begins. What the flash and the tests will show comes with it. Log 118, DEDUCED. -/
def execPorstRelease (inp : BootIn) (s : State) : Host.Outcome State Fault Refusal :=
  .next (if stage s ≠ 0 ∨ s.boot.inp.isSome then s
    else
      let s := { s with boot := { s.boot with inp := some inp, losses := 0 }, rel := { s.rel with pons := s.rel.pons + 1 } }
      setStage (setFld s Reg.fabClkStat FabClkStat.REFOK 1) 1)

/-- PLL_LOCK (R569, R592): the root PLL locks in stage 1; fabric time runs, and stage 2 begins. -/
def execPllLock (s : State) : Host.Outcome State Fault Refusal :=
  .next (if stage s ≠ 1 ∨ locked s then s
    else
      let s := { s with clk := { s.clk with run := true, gated := false } }
      setStage (setFld s Reg.fabClkStat FabClkStat.LOCK 1) 2)

/-- The tile count a grade names; none for an invalid one (R5). -/
def gradeTiles : Nat → Option Nat
  | 0x40 => some 64
  | 0x3C => some 60
  | 0x38 => some 56
  | _ => none

/-- The power events copied into the log and cleared (R584). -/
def copyEvents (s : State) : State :=
  let v := (rd s Reg.fabPwrEvt).toNat
  if v = 0 then s
  else
    let s := wrReg s Reg.fabPwrEvt 0
    log s { errOf (unitCode .sensor 0) .sensor 5 with synd := v }

/-- Stage 2 (R592): signature, grade, good-tile map. -/
def stageRecord (s : State) (i : BootIn) : State :=
  let s := copyEvents s
  if ! i.recordOk then bootStop s 1
  else match gradeTiles i.grade with
    | none => bootStop s 2
    | some n =>
      if popcount 64 i.goodMap ≠ n then bootStop s 3
      else
        let s := setFld s Reg.fabPkgInfo FabPkgInfo.GRADE i.grade
        setStage (setFld s Reg.fabGoodTiles FabGoodTiles.GOOD i.goodMap) 3

/-- An image verified; an armed BOOT injection fails it once (R632). Log 120, DEDUCED. -/
def verifyImage (s : State) (v : Option Nat) : State × Option Nat :=
  if injArmed s .fab .boot (fun k => k == 3) then (injFire s .fab, none) else (s, v)

/-- Stage 3 with an image chosen first (R592, R594): the other is tried when `both` holds and it fails, and a record names the failure. -/
def stageFirmware (s : State) (first second : Option Nat) : State :=
  let a := verifyImage s first
  match a.2 with
  | some v => setStage { a.1 with mbx := { a.1.mbx with fmpst := 0, version := v } } 4
  | none =>
    let s := log a.1 { bootRec 4 1 with unit := unitCode .flash 0 }
    match (verifyImage s second).2 with
    | some v => setStage { s with mbx := { s.mbx with fmpst := 0, version := v } } 4
    | none => bootStop s 4

/-- Stage 4 (R592, R620): the retirements of the unit history. Log 121, DEDUCED. -/
def stageHistory (s : State) (i : BootIn) : State :=
  if ! i.historyOk then bootStop s 5
  else
    let gone := s.rel.hist.filter fun h => h.unit / 2 ^ 11 == UKind.lp.code && (h.st == 2 || h.st == 3)
    setStage (gone.foldl (fun s h => applyRetired s h.unit h.lane) s) 5

/-- Stage 5 (R592): the switch, isolation, resets. -/
def stageFabric (s : State) : State := setStage (fabUp { s with clk := { s.clk with fabOff := false, fabHeld := true } }) 6

/-- Stage 6 (R592, R594): failures classified; some of them stop start-up. -/
def stageScan (s : State) (i : BootIn) : State :=
  let s := i.scan.foldl classify s
  if i.scan.any stopsBoot then bootStop s 7 else setStage s 7

/-- Stage 7 (R592, R594). -/
def stageLanes (s : State) (i : BootIn) : State := setStage (i.lanes.foldl classify s) 8

/-- One stage of start-up, in a step that has no command to carry out (R592). Stages 1 and 8 wait for their events.
Log 115, DESIGN CHOICE. -/
def bootStep (s : State) : State :=
  match s.boot.inp with
  | none => s
  | some i =>
    if ! locked s then s
    else match stage s with
      | 2 => stageRecord s i
      | 3 => match s.boot.image with
        | none => stageFirmware s i.primary i.recovery
        | some b => stageFirmware { s with boot := { s.boot with image := none } } (if b then i.recovery else i.primary) none
      | 4 => stageHistory s i
      | 5 => stageFabric s
      | 6 => stageScan s i
      | 7 => stageLanes s i
      | _ => s

/-- Fabric time in µs as TOPENUS shows it (R596). -/
def openUs (s : State) : Nat := min (2 ^ 32 - 1) (timeNs s / 1000)

/-- HBM_CONTROLLERS_READY (R592, R595): stage 8 ends, and the host port opens. -/
def execHbmControllersReady (s : State) : Host.Outcome State Fault Refusal :=
  .next (if stage s ≠ 8 then s
    else
      let s := setFld (setStage s 9) Reg.fabBootStat FabBootStat.TOPENUS (openUs s)
      setFnState (fmpUp s s.mbx.version) 0 1)

/-- MEMORY_STAGE_TIMEOUT (R594): 50 ms after stage 8 began. -/
def execMemoryStageTimeout (s : State) : Host.Outcome State Fault Refusal :=
  .next (if stage s ≠ 8 then s else bootStop (advanceTo s (s.boot.since + usCycles 50000)) 8)

/-- PORST_ASSERT (R598, R584): start-up returns to stage 0 and the fabric is switched off; fabric time and the management island go on.
Log 116, DEDUCED. -/
def execPorstAssert (s : State) : Host.Outcome State Fault Refusal :=
  .next (if s.boot.inp.isNone then s
    else
      let s := fabDown s .aborted
      let s := { s with clk := { s.clk with gated := true, fabOff := true },
                        boot := { s.boot with inp := none, losses := 0, since := s.clk.now, hbmDown := [], latch := false },
                        mbx := { s.mbx with slots := [], fq := [], gq := [], fmpst := 0, version := 0 },
                        host := { s.host with linkUp := true, seenUp := false, loss := 0 } }
      let s := raise (setFld s Reg.fabClkStat FabClkStat.LOCK 0) Reg.fabPwrEvt (2 ^ FabPwrEvt.EXT.lo)
      setPwr (wrReg s Reg.fabBootStat 0) 1)

/-- UNDERVOLTAGE (R576, R584): a power-on reset with its cause; start-up begins again while PORST_N stays released. The flash keeps the unit history,
the pattern store and the power-on count. Log 117, DEDUCED. -/
def execUndervoltage (s : State) : Host.Outcome State Fault Refusal :=
  let ev := setF (rd s Reg.fabPwrEvt) FabPwrEvt.UV 1
  let keep : RelState := { hist := s.rel.hist, bundles := s.rel.bundles, pons := s.rel.pons + b2n s.boot.inp.isSome }
  let t : State := { pending := s.pending, free := s.free, rel := keep, boot := { inp := s.boot.inp } }
  let t := wrReg t Reg.fabPwrEvt ev
  .next (if s.boot.inp.isNone then t else setStage (setFld t Reg.fabClkStat FabClkStat.REFOK 1) 1)

/-! ### Sensors (R585, R586) -/

/-- SENSOR_SAMPLE (R585): a site's temperature and supply; samples at 125.0 °C or more in a row are counted for R586. An injected fault adds 64 °C to two
samples (R632). -/
def execSensorSample (site temp volt : Nat) (s : State) : Host.Outcome State Fault Refusal :=
  .next (if 80 ≤ site then s
    else
      let left := eGet 0 site s.rel.hotInj
      let t := if left = 0 then temp % 65536 else (temp + 512) % 65536
      let s := { s with rel := { s.rel with hotInj := eSet 0 site (left - 1) s.rel.hotInj } }
      let r := Reg.fabSensor site
      let s := setFld (setFld (setFld s r FabSensor.TEMP t) r FabSensor.VOLT volt) r FabSensor.VALID 1
      let row := if (1000 : Int) ≤ signed 16 t then eGet 0 site s.boot.hot + 1 else 0
      { s with boot := { s.boot with hot := eSet 0 site row s.boot.hot } })

/-- THERMAL_TRIP (R586, R598): two hot samples in a row hold the fabric in reset; during start-up it stops without a CODE.
Log 124, DEDUCED. -/
def execThermalTrip (site : Nat) (s : State) : Host.Outcome State Fault Refusal :=
  .next (if eGet 0 site s.boot.hot < 2 ∨ s.boot.thermtrip then s
    else
      let s := raise (fabDown s .aborted) Reg.fabPwrEvt (2 ^ FabPwrEvt.OT.lo)
      let s := { s with boot := { s.boot with thermtrip := true } }
      let s := log s (errOf (unitCode .sensor site) .sensor 5)
      if 1 ≤ stage s ∧ stage s ≤ 8 then setFld (setStage s 15) Reg.fabBootStat FabBootStat.FAIL 1 else s)

/-! ### Idle (R589-R591) -/

/-- The conditions of IDLE (R589). -/
def mayIdle (s : State) : Bool :=
  pwrState s == 3 && stage s == 9 && ! s.clk.fabHeld && flag s Reg.fabPwrCtl FabPwrCtl.IDLEEN && fld s Reg.fabPwrCtl FabPwrCtl.FIDLE != 0 && s.parts.isEmpty &&
    (List.range 16).all (fun n => lpState s n == 0 || lpState s n == 8 || lpState s n == 11) &&
    s.rte.ports.all fun p => p.2.data.isEmpty && p.2.ctl.isEmpty

/-- FABRIC_IDLE_ENTER (R589, R590): the conditions have held for FIDLE; a wake that coincides abandons the entry. Log 125, DEDUCED. -/
def execFabricIdleEnter (s : State) : Host.Outcome State Fault Refusal :=
  .next (if ! mayIdle s then s
    else if s.boot.latch then { s with boot := { s.boot with latch := false } }
    else
      let s := advanceTo s (s.clk.now + usCycles (fld s Reg.fabPwrCtl FabPwrCtl.FIDLE))
      let s := bump (setPwr s 2) Reg.fabPwrStat FabPwrStat.IDLES 1
      { s with clk := { s.clk with gated := true } })

/-- The fabric's wake latch set by a source (R590): IDLE returns to RUN, and the latch clears once the clock runs. -/
def wakeBy (s : State) (src : Nat) : State :=
  if pwrState s = 2 then
    let s := setFld (setPwr s 3) Reg.fabPwrStat FabPwrStat.WSRC (2 ^ src)
    { s with clk := { s.clk with gated := ! locked s }, boot := { s.boot with latch := false } }
  else if pwrState s = 3 then { s with boot := { s.boot with latch := true } }
  else s

/-- WAKE_LATCH (R590): a BAR0 write, a mailbox GO, a lane clock's restart, an Ethernet frame or a sensor alarm, numbered as WSRC numbers them.
Log 114, DEDUCED. -/
def execWakeLatch (src : Nat) (s : State) : Host.Outcome State Fault Refusal := .next (if 6 ≤ src then s else wakeBy s src)

/-- A write of FAB_PWR_CTL (R591): WAKE acts and reads 0. -/
def pwrCtlWrite (s : State) (v : Nat) : State :=
  let s := softWrite s Reg.fabPwrCtl (putBits v 1 1 0)
  if bit v 1 then wakeBy s 4 else s

/-- WAKE (R591). -/
def execWake (v : Nat) (s : State) : Host.Outcome State Fault Refusal := .next (pwrCtlWrite s v)

/-! ### HBM controllers (R578) -/

/-- Would a MEP carry out this write or atomic (R543, R562)? -/
def mepMay (s : State) (m : Nat) (p : Pkt) : Bool :=
  let sa := stackAddr (regOff p.addr)
  let n := max 1 (accessLen p)
  [Opc.wr, .atFadd, .atSwap, .atCas].contains p.opc && fmtSound p && ! mepScrub s m sa n && mepAllows s p.tenant m sa n &&
    (! wellTraffic p || inWell0 s p.addr n)

/-- A request that a controller's reset ends: ERR_RSP `ST_ABORTED`; the bytes that an aborted write or atomic aimed at are undefined (log 8, DESIGN
CHOICE), where it was one that the MEP may carry out. -/
def hbmAbort (m : Nat) (s : State) (p : Pkt) : State :=
  let s := takeNet s p
  let d := drawBytes s (accessLen p)
  errTo (if mepMay s m p then storeSeen d.2 p.addr d.1 false else s) p .aborted

/-- HBM_CONTROLLER_RESET (R578): the MEP's outstanding requests `taken` end, its buffers are emptied, and new requests wait. -/
def execHbmControllerReset (m : Nat) (taken : List Pkt) (s : State) : Host.Outcome State Fault Refusal :=
  .next (if 12 ≤ m ∨ s.boot.hbmDown.contains m then s
    else
      let mine := taken.filter fun p => s.dyn.net.contains p && p.dst == mepEp (myChip s) m
      let s := mine.foldl (hbmAbort m) s
      let s := { s with sch := { s.sch with stage := s.sch.stage.filter (fun x => x.mep != m), absorb := s.sch.absorb.filter (fun b => b.mep != m) } }
      { s with boot := { s.boot with hbmDown := s.boot.hbmDown ++ [m] } })

/-- HBM_CONTROLLER_RESET_END (R578): the requests that waited proceed. -/
def execHbmControllerResetEnd (m : Nat) (s : State) : Host.Outcome State Fault Refusal :=
  .next (if ! s.boot.hbmDown.contains m then s
    else
      let mine := s.boot.hbmWait.filter fun p => p.dst == mepEp (myChip s) m
      let rest := s.boot.hbmWait.filter fun p => p.dst != mepEp (myChip s) m
      mine.foldl memRequest { s with boot := { s.boot with hbmDown := s.boot.hbmDown.erase m, hbmWait := rest } })

end Sys2Proof.Machine
end

