-- ==== Sys2Proof/Machine/Control.lean ====
section
/-!
DEFINITION. Control space (chapter 19): what a write to each register does, what a read shows, and the accesses of the FMP service port past
the seal gate.
-/
namespace Sys2Proof.Machine

/-! ### Injections (R631-R633) -/

/-- The detectors implemented at a unit (R625, R632). -/
def injDets : Blk → List Det
  | .fab => [.clock, .sensor, .boot, .fmpwd]
  | .sec => [.seal]
  | .tel => []
  | .hp => [.hcrc, .bufecc, .cfgecc, .poisonin, .watchdog, .timeout, .host, .arb]
  | .mep _ => [.hcrc, .bufecc, .cfgecc, .poisonin, .watchdog, .timeout, .arb]
  | .lp _ => [.hcrc, .bufecc, .cfgecc, .watchdog, .timeout, .arb]
  | .rte _ => [.hcrc, .bufecc, .cfgecc, .watchdog, .timeout, .eth, .arb]
  | .rtr _ => [.sched, .hcrc, .linkecc, .bufecc, .cfgecc, .shadow, .spchk, .tenant, .watchdog, .arb]
  | .tni _ => [.hcrc, .bufecc, .cfgecc, .digest, .format, .poisonin, .watchdog, .timeout, .arb]

/-- Does a register whose value is not its reset value give a partition a resource of its unit (R633)? -/
def holds (s : State) (off : Nat) : RegName → Bool
  | .rtrEpOwner => true
  | .rtrPhaseLo => true
  | .rtrPhaseHi => true
  | .rtrSchRange => true
  | .redCtxA => flag s off RedCtxA.EN
  | .mepTrange => flag s off MepTrange.V && ! flag s off MepTrange.SCR
  | .mepDescOwner => true
  | .rsvShare => true
  | .lpSbindA => flag s off LpSbindA.V
  | .rteSbindA => flag s off RteSbindA.V
  | .rteQpStat => fld s off RteQpStat.STATE != 0
  | .hpCrCfg => flag s off HpCrCfg.EN
  | _ => false

/-- Does a partition hold a resource at a unit (R633)? -/
def heldAt (s : State) (b : Blk) : Bool :=
  match b with
  | .fab => ! s.parts.isEmpty
  | .sec => (rd s Reg.secSealed).toNat != 0 || ! s.sec.ctrl.isEmpty || ! s.sec.lane.isEmpty || ! s.sec.qpKeys.isEmpty
  | .tni t => owner s t != 0xFF
  | _ => ! (regsWhere s fun h d _ off => (match h with | .blk x => x == b | .fn _ => b == .hp | .arb _ => false) && holds s off d.name).isEmpty

/-- The arbiter that an injection at a unit means; a TNI's is that of SP0. Log 112, DEDUCED. -/
def arbOf : Blk → Option Arb
  | .mep n => some (.mep n)
  | .lp n => some (.lp n)
  | .rte n => some (.rte n)
  | .rtr t => some (.ru t)
  | .tni t => some (.sp t 0)
  | .hp => some .hp
  | _ => none

/-- What an injection does at once (R632): a lock error, two hot samples, a starvation flag. The others wait for their unit's next event. -/
def injNow (s : State) (b : Blk) : State :=
  let d := fld s (injReg b) Inj.DET
  let sel := fld s (injReg b) Inj.SEL
  let o := fld s (injReg b) Inj.BITS
  if d = Det.clock.code ∧ sel = 1 then clockLoss (injFire s b)
  else if d = Det.sensor.code ∧ sel = 2 then
    let s := injFire s b
    { s with rel := { s.rel with hotInj := eSet 0 o 2 s.rel.hotInj } }
  else if d = Det.arb.code ∧ sel = 1 then match arbOf b with
    | some a => if o < 64 then starve (injFire s b) a o else s
    | none => s
  else s

/-- A write of an injection register (R631, R633): ARM is discarded for a detector that the unit lacks, and where a partition holds a resource. -/
def injWrite (s : State) (b : Blk) (v : Nat) : State :=
  let r := injReg b
  let s := softWrite s r (putBits v 63 63 0)
  if ! bit v 63 || ! ((injDets b).map Det.code).contains (fld s r Inj.DET) || heldAt s b then s
  else injNow (setAgain s r Inj.ARM) b

/-- INJECTION_ARM (R632). -/
def execInjectionArm (off v : Nat) (s : State) : Host.Outcome State Fault Refusal :=
  .next (match regAt off with
    | some (.blk b, d, _) => if d.name = .inj ∨ d.name = .fabInj ∨ d.name = .secInj then injWrite s b v else s
    | _ => s)

/-! ### Writes (R672) -/

/-- A slot-table bank written: the shadow bank keeps its value while a switch is armed (R171). -/
def slotWrite (s : State) (a : Arb) (bank off v : Nat) : State :=
  if flag s (Reg.arbCtl a) ArbCtl.ARMED ∧ fld s (Reg.arbCtl a) ArbCtl.BANK ≠ bank then s else softWrite s off v

/-- A gate list written (R177). -/
def gateWrite (s : State) (b : Blk) (bank off v : Nat) : State :=
  if flag s (Reg.gateCtl b) GateCtl.ARMED ∧ fld s (Reg.gateCtl b) GateCtl.BANK ≠ bank then s else softWrite s off v

/-- A crossbar entry written: a tenant's shadow range keeps its value while a takeover is armed (R75). -/
def xbarWrite (s : State) (tile bank i off v : Nat) : State :=
  match xbarOwner s tile i with
  | none => softWrite s off v
  | some t => if flag s (Reg.fabSchCtx t) FabSchCtx.ARMED ∧ schBank s t ≠ bank then s else softWrite s off v

/-- TRIGB written (R261). -/
def trigbWrite (s : State) (b : Blk) (e v : Nat) : State :=
  if flag s (Reg.trigb b e) Trigb.V then (if bit v 0 then s else after (execTriggerDisarm b e v s) s)
  else if bit v 0 then after (execTriggerArm b e v s) s
  else softWrite s (Reg.trigb b e) v

/-- CTXA written (R224, R225), for the group `grp` when a group command writes it. -/
def ctxaWrite (s : State) (tile c v : Nat) (grp : Option (Nat × Nat × Nat)) : State :=
  let r := Reg.redCtxA tile c
  if bit v 0 then ctxEnable s tile c v (rd s (Reg.redCtxB tile c)).toNat grp
  else if flag s r RedCtxA.EN then ctxDisable s tile c v
  else softWrite s r v

/-- CTXB written (R225). -/
def ctxbWrite (s : State) (tile c v : Nat) : State :=
  if fld s (Reg.redCtxS tile c) RedCtxS.STATE = 0 then softWrite s (Reg.redCtxB tile c) v else s

/-- INBA written (R297, R298, R310). -/
def inbaWrite (s : State) (t k v : Nat) : State :=
  if bit v 0 then after (execInboxEnable t k v (rd s (inbB t k)).toNat s) s
  else if flag s (inbA t k) TniSluInba.V then after (execInboxDisable t k v s) s
  else softWrite s (inbA t k) v

/-- LP_TEST_CTL written (R529, R530): a new MODE acts as its row does, then an injection. -/
def testCtlWrite (s : State) (n v : Nat) : State :=
  let m := bits v 63 61
  let s := if m = fld s (Reg.lpTestCtl n) LpTestCtl.MODE then (testWrite s n v).1
    else match m with
      | 0 => after (execTestModeOff n v s) s
      | 4 => after (execFelb n v [] s) s
      | _ => if m < 4 then testMode s n v m [] else s
  if bit v 57 then after (execInj n v s) s else s

/-- A watcher's configuration written (R658, R666): a changed one begins a round anew (log 187, DESIGN CHOICE). -/
def watchWrite (s : State) (t k v : Nat) : State :=
  let r := Reg.tniWatchCfg t k
  let u := softWrite s r v
  if rd u r = rd s r then u else watchAnew u t k

/-- A trace well's configuration written at every unit (R650, R654, R666). -/
def wellWrite (s : State) (w v : Nat) : State :=
  let r := Reg.telTwCfg w
  let was := flag s r TelTwCfg.EN
  let s := softWrite s r v
  if was && ! flag s r TelTwCfg.EN then dropWell s w
  else if ! was && flag s r TelTwCfg.EN then putRec s markUnit w (traceRec s 5 w markUnit 0xFFFF 0xFFFF (toLE 8 5 ++ toLE 8 0))
  else s

/-- Has a group with SPEN = 1 a member on this package (R525)? -/
def pipedHere (s : State) : Bool :=
  (List.range 4096).any fun i => grpState s i != 0 && flag s (Reg.fabGrpA i) FabGrpA.SPEN && (List.range 64).any fun t => isMember s t i

/-- A write of a register of a block's window (R672). -/
def blkWrite (s : State) (b : Blk) (n : RegName) (i off v : Nat) (grp : Option (Nat × Nat × Nat)) : State :=
  match n with
  | .fabPkgInfo => after (execFabPkgInfoWrite v s) s
  | .fabTwinMap => after (execTwinMapWrite v s) s
  | .fabPwrCtl => pwrCtlWrite s v
  | .fabInj | .secInj | .inj => injWrite s b v
  | .fabSchArm => if v % 2 ^ 64 = 0 then after (execSchDisarm i s) s else after (execSchArm i (v % 2 ^ 64) s) s
  | .telTwCfg => wellWrite s i v
  | .triga => if flag s (off + 8) Trigb.V then s else softWrite s off v
  | .trigb => trigbWrite s b i v
  | .ctr => ctrWrite s off v
  | .dstore => if flag s (Reg.trigb b (i / 8)) Trigb.V then s else softWrite s off v
  | .gate0 => gateWrite s b 0 off v
  | .gate1 => gateWrite s b 1 off v
  | .gateArm => if v % 2 ^ 64 = 0 then gateDrop s b else after (execGateArm b (v % 2 ^ 64) s) s
  | .mepStreamDesc | .tniPumpDesc => after (execStreamDescWrite b i v s) s
  | _ => match b with
    | .mep m => if n = .mepDescOwner then after (execMepDescOwnerWrite m i v s) s else softWrite s off v
    | .lp p => if n = .lpCfg ∨ n = .lpVcCfg then lpCfgWrite s p off v else if n = .lpTestCtl then testCtlWrite s p v
      else if n = .lpPmCfg then pmWrite s p v (pipedHere s) else if n = .lpLaneEq then laneEqWrite s off v else softWrite s off v
    | .rtr t =>
      if n = .rtrPhaseLo then after (execPhaseOwnerWrite t i false v s) s
      else if n = .rtrPhaseHi then after (execPhaseOwnerWrite t i true v s) s
      else if n = .rtrXbar0 then xbarWrite s t 0 i off v
      else if n = .rtrXbar1 then xbarWrite s t 1 i off v
      else if n = .redCtxA then ctxaWrite s t i v grp
      else if n = .redCtxB then ctxbWrite s t i v
      else if n = .rtrShadowCfg then shadowSeed (softWrite s off v) t
      else softWrite s off v
    | .tni t =>
      if n = .tniWatchCfg then watchWrite s t i v
      else if n = .tniSluInba then inbaWrite s t i v
      else if n = .tniSluInbb then (if flag s (inbA t i) TniSluInba.V then s else softWrite s off v)
      else if n = .tniChCfg ∨ n = .tniChRing ∨ n = .tniChSpill then (if chState s t i = 0 then softWrite s off v else s)
      else softWrite s off v
    | _ => softWrite s off v

/-- A write of a register of an arbiter window (R149, R170, R174). -/
def arbWrite (s : State) (a : Arb) (n : RegName) (i off v : Nat) : State :=
  match n with
  | .arbSlot0 => slotWrite s a 0 off v
  | .arbSlot1 => slotWrite s a 1 off v
  | .arbArm => if v % 2 ^ 64 = 0 then arbDrop s a else after (execArbArm a (v % 2 ^ 64) s) s
  | .arbShape => after (execShaperEnable a i v s) s
  | _ => softWrite s off v

/-- Firmware's own copy of an entry follows a write: there is nothing to put back (R602). -/
def noRestore (s : State) (off : Nat) : State :=
  if s.rel.restore.any fun x => x.1 == off then { s with rel := { s.rel with restore := s.rel.restore.filter fun x => x.1 != off } } else s

/-- A write of 64 bits to a control-space register (R15-R17, R672): what the register's home chapter says it does. -/
def applyWrite (s : State) (off v : Nat) (grp : Option (Nat × Nat × Nat) := none) : State :=
  let s := noRestore s off
  match regAt off with
  | none => s
  | some (.arb a, d, i) => arbWrite s a d.name i off v
  | some (.fn _, _, _) => softWrite s off v
  | some (.blk b, d, i) => blkWrite s b d.name i off v grp

/-! ### Reads (R637, R640) -/

/-- Whose counter set a statistics counter belongs to (R559, R635): a tenant's (`some t`), or the global one (`none`). -/
def ctrSet (s : State) (off : Nat) : Option (Option Nat) :=
  match regAt off with
  | none => none
  | some (.fn _, _, _) => none
  | some (.arb _, d, i) =>
    if d.name = .arbRstat then some (some i) else if d.name = .arbStat0 ∨ d.name = .arbStat1 then some none else none
  | some (.blk b, d, i) =>
    match d.name with
    | .eccStat | .lpLinkStat | .rteStat | .rtePortStat | .rtrSpStat | .rtrShadowStat | .secStat | .telLinkUtil | .telFrzStat | .telFrzTime =>
      some none
    | .telTwStat => some (if i = 0 then none else some i)
    | .fabSchStat | .telRuFmt | .telTutil | .fabTviol => some (some i)
    | .redCstat => some (some (fld s (off - 24) RedCtxA.TENANT))
    | .rteQpStat | .rteQpCc => match b with | .rte e => some (some (qp s e i).tenant) | _ => none
    | .mepStreamPsn =>
      let os := (List.range 64).map fun j => descTenant s b (64 * i + j)
      some (some ((os.filter (· != 0xFF)).foldl (fun a t => if a = t ∨ a = 0xFF then t else 0) 0xFF))
    | .tniFmtStat | .tniSluStat | .tniSluIstat | .tniChCount | .tniGrpPsn | .tniPumpPsn | .tniOpmCnt | .tniWatchStat | .tniWatchRes0 | .tniWatchRes1
    | .tniWatchRes2 | .tniWatchRes3 | .tniWatchRes4 | .tniWatchRes5 => match b with | .tni t => some (some (owner s t)) | _ => none
    | _ => none

/-- A register as it reads without a freeze: FAB_TVIOL without what this cycle's events elsewhere have added (R684). -/
def tviolSeen (s : State) (off : Nat) : Word :=
  let live := softRead s off
  match regAt off with
  | some (_, d, _) =>
    if d.name = .fabTviol then
      setF live FabTviol.COUNT (getF live FabTviol.COUNT + 2 ^ 64 - (noteOf s off).added)
    else live
  | none => live

/-- What a read shows (R16, R640): a statistics counter of a frozen package shows its latched value, except the freeze's own registers and the
functional fields FILLED and ARRIVED (R637). Log 110, DEDUCED. -/
def seen (s : State) (off : Nat) : Word :=
  let live := tviolSeen s off
  match s.obs.latched with
  | none => live
  | some l =>
    if (ctrSet s off).isNone ∨ off = Reg.telFrzStat ∨ off = Reg.telFrzTime then live
    else
      let w := accessRead (tGet resetWord off l) (fieldsAt off)
      match regAt off with
      | some (_, d, _) =>
        if d.name = .tniSluIstat then
          setF (setF w TniSluIstat.FILLED (getF live TniSluIstat.FILLED)) TniSluIstat.ARRIVED (getF live TniSluIstat.ARRIVED)
        else w
      | none => w

/-! ### Accesses of the FMP service port (R669-R673) -/

/-- Is the unit of a window powered (R673)? -/
def powered (s : State) : Blk → Bool
  | .fab => true
  | .sec => true
  | .tel => true
  | .tni t => ! s.clk.fabOff && good s t
  | _ => ! s.clk.fabOff

/-- Does the odd tile's window of a twin pair answer at an offset (R673)? -/
def oddAnswers (s : State) (b : Blk) (h : RegHome) (off : Nat) : Bool :=
  match b with
  | .tni t => ! oddTwin s t || decide (off < (Blk.tni t).base + 0x1000) || (match h with | .arb (.sp _ _) => true | _ => false)
  | _ => true

/-- The unit that records an access of an unassigned offset (R670): the one whose window holds it, or the FMP. Log 109, DEDUCED. -/
def csrUnit (off : Nat) : Nat :=
  match blkOf off with
  | some (b, _) => blkUnit b
  | none => unitCode .fmp 0

/-- A control-space access of an unassigned offset (R670): refused and recorded. Log 109, DEDUCED. -/
def csrMiss (s : State) (p : Pkt) : State :=
  errTo (log s { errPkt (csrUnit (regOff p.addr)) .host 2 p .regionFault with tenant := 0 }) p .regionFault

/-- A CSR access that has come to control space (R33, R140-R142, R669-R673), in its turn; `k` takes its offset. Only the FMP service port of this package
gets there, at priority 3. -/
def csrAt (s : State) (p : Pkt) (k : State → Nat → State) : State :=
  if ! inTurn s p p.dst then s
  else
  let s := takeNet s p
  let u := unitCode .router p.dst.tile
  let fmp := Ep_kind p.src == .fmp && p.src.chip == myChip s
  if ! hcrcOk p then badHcrc s u p
  else if ! tenantOk p ∨ (! fmp ∧ ! ownerOk s p) then errTo (violation s (errPkt u .tenant 2 p .tenantViolation)) p .tenantViolation
  else if ! fmp ∨ p.prio ≠ 3 ∨ region p.addr ≠ 2 then errTo (log s (errPkt (blkUnit (epBlk p.dst)) .format 2 p .regionFault)) p .regionFault
  else
    let off := regOff p.addr
    match blkOf off with
    | none => csrMiss s p
    | some (b, _) =>
      if ! powered s b then errTo s p .regionFault
      else match regAt off with
        | none => csrMiss s p
        | some (h, _, _) => if (p.opc = .csrWr ∧ p.nbytes ≠ 8) ∨ ! oddAnswers s b h off then csrMiss s p else k s off

/-- CSR_WR (R546, R671, R674): past the seal gate the write takes effect at every copy, and is acknowledged. -/
def execCsrWr (p : Pkt) (s : State) : Host.Outcome State Fault Refusal :=
  .next (csrAt s p fun s off =>
    match sealedBy s off with
    | some t => ackTo (denied s t) p .ok
    | none => ackTo (applyWrite s off (ofLE (slice p.data 0 8))) p .ok)

/-- CSR_RD (R546, R669, R671). -/
def execCsrRd (p : Pkt) (s : State) : Host.Outcome State Fault Refusal :=
  .next (csrAt s p fun s off =>
    match sealedBy s off with
    | some t => rspTo (denied s t) p p.dst .csrRsp 3 (toLE 8 0) false
    | none => rspTo s p p.dst .csrRsp 3 (toLE 8 (seen s off).toNat) false)

/-- CSR_RSP (R106): the data reaches the FMP. -/
def execCsrRsp (p : Pkt) (s : State) : Host.Outcome State Fault Refusal :=
  .next (arrive s p fun s => onRsp s p fun s _ _ => { s with bus := { s.bus with lastRead := BitVec.ofNat 64 (ofLE (slice p.data 0 8)) } })

end Sys2Proof.Machine
end

