-- ==== Sys2Proof/Machine/Bar.lean ====
section
/-!
DEFINITION. The host's register aperture BAR0 (R353-R357, R389-R393, R423) and register accesses in halves (R18).
-/
namespace Sys2Proof.Machine

/-- What a BAR0 offset names: a ring register (at its place in the HP mirror), the mailbox's registers and areas by 64-bit word, the MSI-X table and
pending bits, or nothing (R354). -/
inductive BarReg where
  | page (off : Nat) | ver | hb | ctl (sv : Server) | rpt | req (sv : Server) (i : Nat) | rsp (sv : Server) (i : Nat) | queue (i : Nat)
  | msix (i : Nat) | pba | stray
  deriving DecidableEq, Repr

/-- The register at an offset of a function's page (R356, R389). -/
def pageReg (fn o : Nat) : BarReg :=
  if o < 0x2000 then (if (findReg o hpFnRegs).isSome then .page ((Blk.hp).base + 0x40000 + 0x2000 * fn + o) else .stray)
  else if o = 0x10000 then .ver
  else if o = 0x10008 then .hb
  else if o = 0x10010 then .ctl .f
  else if o = 0x10018 then .ctl .g
  else if o = 0x10020 then .rpt
  else if 0x11000 ≤ o ∧ o < 0x11800 then .req .f ((o - 0x11000) / 8)
  else if 0x11800 ≤ o ∧ o < 0x12000 then .rsp .f ((o - 0x11800) / 8)
  else if 0x12000 ≤ o ∧ o < 0x12800 then .req .g ((o - 0x12000) / 8)
  else if 0x12800 ≤ o ∧ o < 0x13000 then .rsp .g ((o - 0x12800) / 8)
  else if 0x13000 ≤ o ∧ o < 0x13400 then .queue ((o - 0x13000) / 8)
  else if 0x20000 ≤ o ∧ o < 0x20400 then .msix ((o - 0x20000) / 8)
  else if o = 0x30000 then .pba
  else .stray

/-- What function `fn` reaches at an offset of the aperture (R353, R354): its own page alone. -/
def barReg (fn off : Nat) : BarReg :=
  if 0x1000000 ≤ off ∨ off / 0x40000 ≠ fn then .stray else pageReg fn (off % 0x40000 / 8 * 8)

/-- Does BAR0 decode a register now (R595)? Before stage 9 only page 0's version, heartbeat and G slot work, from stage 2 on. -/
def barOpen (s : State) (fn : Nat) (r : BarReg) : Bool :=
  portOpen s || (fn == 0 && decide (2 ≤ stage s) && match r with
    | .ver => true | .hb => true | .ctl .g => true | .req .g _ => true | .rsp .g _ => true
    | _ => false)

/-- A stray access (R354): counted and recorded. -/
def strayCount (s : State) (fn : Nat) : State :=
  if 64 ≤ fn ∨ ! portOpen s then s
  else log (bump s (Reg.hpFnStat fn) HpFnStat.STRAY 1) { errOf (unitCode .hp 0) .host 2 with tenant := fn }

/-- STRAY_ACCESS (R354). -/
def execStrayAccess (fn off : Nat) (_isWrite : Bool) (s : State) : Host.Outcome State Fault Refusal :=
  .next (if barReg fn off = .stray ∧ s.host.linkUp then strayCount s fn else s)

/-! ### MSI-X (R381) -/

/-- A vector's mask bit set or cleared; clearing it sends a pending message. -/
def maskVec (s : State) (fn vec : Nat) (on : Bool) : State :=
  let m := putBits (eGet (2 ^ 64 - 1) fn s.host.vecCtl) vec vec (b2n on)
  let s := { s with host := { s.host with vecCtl := eSet (2 ^ 64 - 1) fn m s.host.vecCtl } }
  let p := eGet 0 fn s.host.pba
  if on || ! bit p vec then s
  else signal { s with host := { s.host with pba := eSet 0 fn (putBits p vec vec 0) s.host.pba } } fn vec

/-- MSI_X_VECTOR_UNMASK (R381). -/
def execMsiXVectorUnmask (fn vec : Nat) (s : State) : Host.Outcome State Fault Refusal :=
  .next (if 64 ≤ fn ∨ 64 ≤ vec ∨ ! vecMasked s fn vec then s else maskVec s fn vec false)

/-- A 64-bit word of the MSI-X table as software reads it: message address, or data with the vector control word. -/
def msixWord (s : State) (fn i : Nat) : Nat :=
  eGet 0 (128 * fn + i) s.host.msix + (if i % 2 = 1 then 2 ^ 32 * b2n (vecMasked s fn (i / 2)) else 0)

/-- A word of the MSI-X table written. -/
def msixWrite (s : State) (fn i v : Nat) : State :=
  let w := if i % 2 = 1 then v % 2 ^ 32 else v % 2 ^ 64 / 4 * 4
  let s := { s with host := { s.host with msix := eSet 0 (128 * fn + i) w s.host.msix } }
  if i % 2 = 1 ∧ bit v 32 ≠ vecMasked s fn (i / 2) then maskVec s fn (i / 2) (bit v 32) else s

/-! ### Reads and writes of BAR0 -/

/-- What a BAR0 read returns (R390-R394, R423). -/
def barValue (s : State) (fn : Nat) : BarReg → Nat
  | .page off => (seen s off).toNat
  | .ver => 2 ^ 40 + (if fmpRuns s then s.mbx.version % 2 ^ 24 else 0)
  | .hb => s.mbx.hb * 2 ^ 32 + s.mbx.fdog * 2 ^ 8 + s.mbx.fmpst
  | .ctl sv =>
    let x := mbxSlot s sv fn
    let st := slotState s sv fn
    x.status * 2 ^ 56 + st * 2 ^ 48 + b2n (st == 1) * 2 ^ 32 + x.doneSeq * 2 ^ 16 + x.seq
  | .rpt =>
    let q := eGet {} fn s.rpt
    q.lost * 2 ^ 32 + (q.tail + 256 - freshRpts s fn) % 256 * 2 ^ 8 + q.head
  | .req sv i => eGet 0 i (mbxSlot s sv fn).req
  | .rsp sv i => eGet 0 i (mbxSlot s sv fn).rsp
  | .queue i => bits (eGet {} (i / 8) (eGet {} fn s.rpt).ents).toNat (64 * (i % 8) + 63) (64 * (i % 8))
  | .msix i => msixWord s fn i
  | .pba => eGet 0 fn s.host.pba
  | .stray => 0

/-- A BAR0 write of a whole register. A write of GO to a slot that is BUSY or DOWN changes nothing, SEQ among it (R393). -/
def barWrite (s : State) (fn : Nat) (r : BarReg) (v : Nat) : State :=
  match r with
  | .page off =>
    match regAt off with
    | some (_, d, i) =>
      if d.name = .hpCrDb then after (execCrDoorbell fn i v s) s
      else if d.name = .hpCqDb then after (execCqDoorbell fn i v s) s
      else s
    | none => s
  | .ctl sv =>
    let busy := slotState s sv fn == 1 || slotState s sv fn == 3
    if bit v 32 && busy then s
    else
      let s := setSlot s sv fn { mbxSlot s sv fn with seq := v % 2 ^ 16 }
      if bit v 32 then mbxGo s sv fn else s
  | .rpt => after (execReportQueueRelease fn v s) s
  | .req sv i =>
    let x := mbxSlot s sv fn
    if x.state = 1 then s else setSlot s sv fn { x with req := eSet 0 i (v % 2 ^ 64) x.req }
  | .msix i => msixWrite s fn i v
  | .stray => strayCount s fn
  | _ => s

/-- Is a BAR0 register one of 32 bits (R356): its low half acts alone. -/
def barShort (fn : Nat) (r : BarReg) : Bool :=
  match r with
  | .page off => off != Reg.hpFnStat fn && match regAt off with
    | some (_, d, _) => d.name == .hpCrDb || d.name == .hpCqDb || d.name == .hpCrCfgb
    | none => false
  | _ => false

/-- Are the halves of a 64-bit word plain memory, which each half's write changes at once: the request areas and the MSI-X table? -/
def barPlain : BarReg → Bool
  | .req _ _ => true | .msix _ => true | _ => false

/-- The low half that a write of the high half alone leaves (R18). -/
def barLow (s : State) (fn : Nat) (r : BarReg) : Nat :=
  match r with
  | .ctl sv => (mbxSlot s sv fn).seq
  | .rpt => (eGet {} fn s.rpt).head
  | .req sv i => eGet 0 i (mbxSlot s sv fn).req % 2 ^ 32
  | .msix i => msixWord s fn i % 2 ^ 32
  | _ => 0

/-- RW bits of a control-space register's low half, which a write of the high half alone leaves (R18). -/
def csrLow (s : State) (off : Nat) : Nat :=
  (accessRead (rd s off) ((fieldsAt off).filter fun d => d.acc == .rw || d.acc == .desc)).toNat % 2 ^ 32

/-! ### Halves (R18) -/

/-- A half held for the access that follows. -/
def hold (l : List (RegTarget × Nat)) (t : RegTarget) (v : Nat) : List (RegTarget × Nat) := (l.filter fun x => x.1 != t) ++ [(t, v)]

/-- The value held for a register. -/
def heldOf (l : List (RegTarget × Nat)) (t : RegTarget) : Option Nat := (l.find? fun x => x.1 == t).map Prod.snd

/-- A write in halves (R18): the low half is held; the high half writes the whole value, or itself alone beside `low`. A write of the full register
leaves a held low half as it is (log 113). -/
def halfWrite (s : State) (t : RegTarget) (h : RegHalf) (v low : Nat) (k : State → Nat → State) : State :=
  match h with
  | .full => k s v
  | .low => { s with bus := { s.bus with writeLatch := hold s.bus.writeLatch t (v % 2 ^ 32) } }
  | .high =>
    let l := (heldOf s.bus.writeLatch t).getD low
    k { s with bus := { s.bus with writeLatch := s.bus.writeLatch.filter fun x => x.1 != t } } (v % 2 ^ 32 * 2 ^ 32 + l)

/-- A BAR0 write of a register or a half of it. Log 113, DEDUCED. -/
def barAccess (s : State) (fn off : Nat) (h : RegHalf) (v : Nat) : State :=
  let r := barReg fn off
  if 64 ≤ fn ∨ ! s.host.linkUp ∨ ! barOpen s fn r then s
  else if r = .stray then strayCount s fn
  else if barShort fn r then (if h = .high then s else barWrite s fn r (v % 2 ^ 32))
  else if barPlain r then
    let old := barValue s fn r
    barWrite s fn r (match h with
      | .full => v
      | .low => old / 2 ^ 32 * 2 ^ 32 + v % 2 ^ 32
      | .high => v % 2 ^ 32 * 2 ^ 32 + old % 2 ^ 32)
  else halfWrite s (.bar0 fn (off / 8 * 8)) h v (barLow s fn r) fun s v => barWrite s fn r v

/-- An access of an unassigned offset of control space changes nothing and is recorded (R670). Log 109, DEDUCED. -/
def csrStray (s : State) (off : Nat) : State :=
  log s { errOf (csrUnit off) .host 2 with addr := fabAddr 2 off, status := .regionFault, tenant := 0 }

/-- A control-space access (R670, R673): an unassigned offset is recorded, an unpowered unit does nothing; `k` is what the register does. -/
def csrTarget (s : State) (off : Nat) (k : State) : State :=
  match blkOf off with
  | none => csrStray s off
  | some (b, _) =>
    if ! powered s b then s
    else match regAt off with
      | none => csrStray s off
      | some (home, _, _) => if oddAnswers s b home off then k else csrStray s off

/-- A control-space write (R546, R670, R673): a protected register is refused. -/
def csrAccess (s : State) (off : Nat) (h : RegHalf) (v : Nat) : State :=
  csrTarget s off (match sealedBy s off with
    | some t => denied s t
    | none => halfWrite s (.csr off) h v (csrLow s off) fun s v => applyWrite s off v)

/-- REGISTER_WRITE (R15-R18, R672). -/
def execRegisterWrite (t : RegTarget) (h : RegHalf) (v : Nat) (s : State) : Host.Outcome State Fault Refusal :=
  .next (match t with
    | .csr off => csrAccess s off h v
    | .bar0 fn off => barAccess s fn off h v)

/-- The low half of a register read, with its high half held for the next access (R18). -/
def lowRead (s : State) (t : RegTarget) (w : Nat) : State :=
  { s with bus := { s.bus with lastRead := BitVec.ofNat 64 (w % 2 ^ 32), readLatch := hold s.bus.readLatch t (w / 2 ^ 32) } }

/-- The high half of a register read (R18): the half that its low half's read latched, which is held no longer, or the current one. -/
def highRead (s : State) (t : RegTarget) (w : Nat) : State :=
  { s with bus := { s.bus with lastRead := BitVec.ofNat 64 ((heldOf s.bus.readLatch t).getD (w / 2 ^ 32)),
                               readLatch := s.bus.readLatch.filter fun x => x.1 != t } }

/-- A half of the register's value `w` read (R18). -/
def halfRead (s : State) (t : RegTarget) (high : Bool) (w : Nat) : State := if high then highRead s t w else lowRead s t w

/-- LOW_HALF_READ, and the read of the high half that follows it (R18). -/
def execLowHalfRead (r : HalfRead) (s : State) : Host.Outcome State Fault Refusal :=
  .next (match r.reg with
    | .csr off => csrTarget s off (match sealedBy s off with
      | some p => halfRead (denied s p) r.reg r.high 0
      | none => halfRead s r.reg r.high (seen s off).toNat)
    | .bar0 fn off =>
      let b := barReg fn off
      let t := RegTarget.bar0 fn (off / 8 * 8)
      if 64 ≤ fn ∨ ! s.host.linkUp then s
      else if ! barOpen s fn b then halfRead s t r.high 0
      else halfRead (if b = .stray then strayCount s fn else s) t r.high (barValue s fn b))

end Sys2Proof.Machine
end

