-- ==== Sys2Proof/Machine/HostLink.lean ====
section
/-!
DEFINITION. Function level reset and the loss and return of the host link (R384-R386).
-/
namespace Sys2Proof.Machine

/-- The largest RSPTO of the package in cycles (R127, R385). -/
def largestRspto (s : State) : Nat :=
  let c := myChip s
  let es := ((List.range 64).flatMap fun t => [⟨c, t, 0⟩, ⟨c, t, 4⟩]) ++ ((List.range 12).map (mepEp c)) ++ ((List.range 16).map (lpEp c)) ++
    [rteEp c 0, rteEp c 1, hpEp c, fmpEp c]
  es.foldl (fun n e => max n (rspto s e)) 0

/-- A command that its executor had already started will complete `ST_HOST_LOST` (R386). -/
def markLost (c : Cmd) : Cmd := match c.src with
  | .ring _ _ => failWith .hostLost c
  | _ => c

/-- Steps 1 to 3 of R385: executors stop fetching, every function takes STATE 3, collectives are aborted, queue pairs close, and every slot's
command is abandoned (R421). Log 88, DEDUCED. -/
def linkLost (s : State) : State :=
  let s := { s with host := { s.host with linkUp := false, loss := 1, lossAt := s.clk.now, cmds := s.host.cmds.map markLost } }
  let s := (List.range 64).foldl (fun s f => setFnState s f 3) s
  let s := abortOps s .hostLost
  let s := closePairs s 2
  (s.mbx.fq ++ s.mbx.gq).foldl dropSlots s

/-- The host port has opened and its link is up (R595). -/
def linkServes (s : State) : Bool := portOpen s && s.host.linkUp && s.host.seenUp

/-- HOST_LINK_DOWN (R385, R595). -/
def execHostLinkDown (s : State) : Host.Outcome State Fault Refusal := .next (if linkServes s then linkLost s else s)

/-- A virtual function's slots dropped, after which the servers refuse what then stands first and needs no checks (R395, R421), and its rings
disabled by its reset (R384); it is ready again once its last started command has ended. Log 66, DEDUCED.
Log 89, DEDUCED. -/
def functionReset (s : State) (fn : Nat) : State :=
  let s := [Server.f, Server.g].foldl (fun s sv => refuseFirst sv (mbxQueue s sv).length s) (dropSlots s fn)
  if fnState s fn ≠ 1 then s
  else
    let s := ringsOff (setFnState s fn 2) fn
    if s.host.flr.contains fn then s else setFnState s fn 1

/-- FUNCTION_LEVEL_RESET (R384, R421): of function 0 it is a host link loss. -/
def execFunctionLevelReset (fn : Nat) (s : State) : Host.Outcome State Fault Refusal :=
  .next (if ! linkServes s ∨ 64 ≤ fn then s else if fn = 0 then linkLost s else functionReset s fn)

/-- HOST_LINK_DRAIN_DONE (R385 steps 4 and 5): every command has ended, or the time has passed; the records of those left are counted, and the fabric
is reset, which ends every partition. -/
def execHostLinkDrainDone (s : State) : Host.Outcome State Fault Refusal :=
  .next (if s.host.loss ≠ 1 then s
    else
      let s := if s.host.cmds.isEmpty then s else advanceTo s (s.host.lossAt + largestRspto s + usCycles 100)
      let left := (s.host.cmds.filter fun c => match c.src with | .ring _ _ => true | _ => false).length
      fabHold { s with host := { s.host with lost := s.host.lost + left, loss := 2 } })

/-- A function's losses (R357, R385). -/
def countLoss (s : State) (f : Nat) : State := bumpSat s (Reg.hpFnStat f) HpFnStat.LOSSES 1

/-- HOST_LINK_UP (R385 step 6, R595): the first after the port opened, or the return the fabric waits for. Log 87, DEDUCED. -/
def execHostLinkUp (s : State) : Host.Outcome State Fault Refusal :=
  .next (if ! portOpen s then s
    else if s.host.loss = 3 then
      (List.range 64).foldl countLoss { s with host := { s.host with linkUp := true, seenUp := true, loss := 0 } }
    else if s.host.linkUp then { s with host := { s.host with seenUp := true } }
    else s)

end Sys2Proof.Machine
end

