-- ==== Sys2Proof/Machine/MailboxG.lean ====
section
/-!
DEFINITION. The guaranteed commands of the mailbox sequencer (R399-R408) and the sounding snapshot (R661-R663).
-/
namespace Sys2Proof.Machine

/-- Are bits [hi:lo] of a request word zero (reserved bits, R396)? -/
def rsvd (s : State) (sv : Server) (fn i hi lo : Nat) : Bool := bits (rqW s sv fn i) hi lo == 0

/-! ### ERRLOG_READ (R404) -/

/-- The records the log shows: those written in the present cycle follow in the next one (R684). -/
def errlogHeld (s : State) : List ErrRec := s.log.ring.take (s.log.ring.length - freshRecs s)

/-- The sequence after the last record shown. -/
def errlogNext (s : State) : Nat := (s.log.seq - freshRecs s) % 2 ^ 32

/-- The records a function may read: a virtual function's own tenant's. -/
def errlogSeen (s : State) (fn : Nat) : List ErrRec := (errlogHeld s).filter fun e => fn == 0 || e.tenant == fn

/-- The oldest sequence held. -/
def errlogOldest (s : State) : Nat := match errlogHeld s with
  | [] => errlogNext s
  | e :: _ => e.seq

/-- How many sequence numbers a record lies after another, which wraps at 32 bits. -/
def seqAfter (a b : Nat) : Nat := (a + 2 ^ 32 - b) % 2 ^ 32

/-- ERRLOG_READ answered: at most MAX records from FROM, or from OLDEST when FROM is older. -/
def errlogAnswer (s : State) (fn : Nat) : State :=
  let w := rqW s .g fn 0
  let old := errlogOldest s
  let held := seqAfter (errlogNext s) old
  let from_ := bits w 31 0
  let skip := if seqAfter from_ old ≤ held then seqAfter from_ old else if from_ < old then 0 else held
  let es := ((errlogSeen s fn).filter (fun e => decide (skip ≤ seqAfter e.seq old))).take (bits w 39 32)
  let next := match es.getLast? with
    | some e => (e.seq + 1) % 2 ^ 32
    | none => errlogNext s
  answerOk s .g fn ((old * 2 ^ 32 + next) :: wordsOf (es.flatMap fun e => toLE 64 e.toNat))

/-- ERRLOG_READ (R404). -/
def execErrlogRead (fn : Nat) (s : State) : Host.Outcome State Fault Refusal :=
  .next (mbxCommand s .g fn 2
    (fun s => rqPlen s .g fn == 8 && rsvd s .g fn 0 63 40 && decide (1 ≤ bits (rqW s .g fn 0) 39 32) && decide (bits (rqW s .g fn 0) 39 32 ≤ 31))
    (fun _ => none) (fun s => errlogAnswer s fn))

/-! ### The sounding snapshot (R405, R661-R663) -/

/-- The input ports of the dynamic plane at a router in the order of their codes of R58: mesh links, T0 (the tile), X0 and X1 (the edge endpoints), RU.
Log 70, DESIGN CHOICE. -/
def soundPorts (tile : Nat) : List Nat :=
  let x := tile % 8
  let y := tile / 8
  (if 0 < y then [0] else []) ++ (if x < 7 then [1] else []) ++ (if y < 7 then [2] else []) ++ (if 0 < x then [3] else []) ++
    [16, 17, 18, 19, 20, 21].filter fun p => epKind tile (p - 16) != .absent

/-- The flits in a virtual channel. -/
def vcFlits (s : State) (tile inp vc : Nat) : List VcFlit := s.dyn.vcs.filter fun f => f.tile == tile && f.inp == inp && f.vc == vc

/-- Beats of frozen tenants in a router port's hold store (R94). -/
def heldBeats (s : State) (tile port : Nat) : Nat := (s.sch.hold.filter fun b => b.tile == tile && b.port == port).length

/-- The credits a mesh output holds for a virtual channel: what the next router's channel of four flits has free (R109). -/
def vcCredits (s : State) (tile out vc : Nat) : Nat := 4 - vcLoad s (farEnd tile out).1 (farEnd tile out).2 vc

/-- A VC entry (R663). -/
def vcEntry (s : State) (tile inp vc : Nat) : Nat :=
  let l := vcFlits s tile inp vc
  match l with
  | [] => 0
  | f :: _ =>
    let why := if 1 < f.outs.length then 3 else if f.outs.any (fun o => ! hasCredit s tile o vc) then 2 else 1
    min 7 l.length * 2 ^ 61 + f.head % 2 ^ 61 / 2 ^ 17 * 2 ^ 17 + why * 2 ^ 14 + min 16383 ((s.clk.now - f.since) / 16)

/-- The body of a ROUTER section. -/
def routerBody (s : State) (tile : Nat) : List Byte :=
  let ps := soundPorts tile
  (ps.flatMap fun p => (List.range 8).flatMap fun v => toLE 8 (vcEntry s tile p v)) ++
    ((ps.filter (fun p => decide (p < 4))).flatMap fun o =>
      toLE 4 ((List.range 8).foldl (fun n v => n + vcCredits s tile o v * 16 ^ v) 0) ++ toLE 4 (heldBeats s tile (farEnd tile o).2))

/-- The body lengths of the sections whose bytes no rule places (R662). -/
def bodyLen : UKind → Nat
  | .spstage => 16
  | .tni => 64 + 4 * 32
  | .ru => 8 * 16
  | _ => 96

/-- Whole microseconds since a cycle. -/
def ageUs (s : State) (since : Nat) : Nat := (s.clk.now - since) / usCycles 1

/-- What a section shows of an arbiter (R662): requester and progress count of the current transfer, LOCK, the watchdog count, the starvation
flags, PTR, and the slot-table bank. -/
def arbShown (s : State) (a : Arb) : List Nat :=
  let x := arbRun s a
  (match x.current with | some t => [1, t.req.who, t.progress] | none => [0, 0, 0]) ++
    [b2n x.lock.isSome, x.lockN, (rd s (Reg.arbStarve a)).toNat, x.ptr, fld s (Reg.arbCtl a) ArbCtl.BANK]

/-- What a section shows of a cistern and of tags (R662): tags and reservation records in use, PEND, GRANTED, FREE, and the oldest waiting
request's age in µs. -/
def cisShown (s : State) (b : Blk) : List Nat :=
  let r := Reg.cisternStat b
  [(s.dyn.txns.filter fun x => epBlk x.ep == b).length, (s.dyn.rsvs.filter fun x => epBlk x.ep == b).length,
    fld s r CisternStat.PEND, fld s r CisternStat.GRANTED, fld s r CisternStat.FREE,
    ((s.dyn.pend.filter fun x => epBlk x.ep == b).map fun x => ageUs s x.since).foldl max 0]

/-- The oldest operation slot of a standpipe stage: GROUP, EPOCH and age in µs. -/
def oldestSlot (s : State) (tile : Nat) : List Nat :=
  let ops := s.coll.spOps.filter fun o => o.tile == tile
  match ops.find? fun o => ops.all fun x => decide (o.since ≤ x.since) with
  | none => []
  | some o => [fld s (Reg.rtrSpNode tile o.node) RtrSpNode.GROUP, fld s (Reg.rtrSpNode tile o.node) RtrSpNode.EPOCH, ageUs s o.since]

/-- What a section shows of its unit (R662), in the order of the rule's words. -/
def unitShown (s : State) (k : UKind) (i : Nat) : List Nat :=
  match k with
  | .spstage => [spSlots s i, (s.coll.spSpilled.filter fun w => w.1 == i).length] ++ oldestSlot s i
  | .tni =>
    cisShown s (.tni i) ++ [fld s (Reg.tniCoreCtx i) TniCoreCtx.DEAD, (s.trig.queue.filter fun q => q.1 == .tni i).length] ++
      ((s.chan.shown.filter fun d => d.tile == i).map Dispatch.chan) ++ (List.range 4).flatMap fun p => arbShown s (.sp i p)
  | .ru => (List.range 16).flatMap fun c =>
      let x := ctxAt s i c
      let r := redRun s x
      [ctxState s x, ctxBase s x, r.holds.length, (r.step.map (ageUs s)).getD 0]
  | .mep => cisShown s (.mep i) ++ [(s.sch.stage.filter fun x => x.mep == i).length, (s.sch.absorb.filter fun x => x.mep == i).length] ++ arbShown s (.mep i)
  | .rte => cisShown s (.rte i) ++ ((List.range 4).flatMap fun p => [(port s i p).data.length, (port s i p).ctl.length, (port s i p).stage.length]) ++
      ((s.rte.qps.filter fun q => q.1 / 16384 == i).map fun q => q.2.tnext) ++ arbShown s (.rte i)
  | .hp => cisShown s .hp ++ [s.host.cmds.length, s.host.out.length] ++ arbShown s .hp
  | .lp =>
    let r := lane s i
    [lpState s i, r.eseq, r.replay.length] ++ ((List.range 8).flatMap fun v =>
      [eGet 0 v r.freed, vcCredit r v, ((r.asm.filter fun a => a.vc == v).map LaneAsm.kept).foldl (· + ·) 0]) ++ arbShown s (.lp i)
  | _ => []

/-- The body of a section whose bytes no rule places (R662): an unknown layout of what the section shows (log 69, DESIGN CHOICE). -/
def soundBody (s : State) (k : UKind) (i : Nat) : List Byte := (List.range (bodyLen k)).map (Config.soundByte k.code (unitShown s k i))

/-- The units a snapshot holds, in ascending UNIT order, with their kinds and windows. -/
def soundUnits : List (UKind × Nat × Blk) :=
  ((List.range 64).map fun t => (UKind.router, t, Blk.rtr t)) ++ ((List.range 64).map fun t => (UKind.tni, t, Blk.tni t)) ++
  ((List.range 64).map fun t => (UKind.ru, t, Blk.rtr t)) ++ ((List.range 64).map fun t => (UKind.spstage, t, Blk.rtr t)) ++
  ((List.range 12).map fun m => (UKind.mep, m, Blk.mep m)) ++ ((List.range 16).map fun n => (UKind.lp, n, Blk.lp n)) ++
  ((List.range 2).map fun e => (UKind.rte, e, Blk.rte e)) ++ [(UKind.hp, 0, Blk.hp)]

/-- A section: its head, and its body when the unit answers (R661, R662). -/
def soundSection (s : State) (noresp : List Nat) (x : UKind × Nat × Blk) : List Byte :=
  let u := unitCode x.1 x.2.1
  let head (st n : Nat) : List Byte := toLE 2 u ++ toLE 2 st ++ toLE 4 n
  if ! powered s x.2.2 then head 1 0
  else if noresp.contains u then head 2 0
  else
    let b := if x.1 = .router then routerBody s x.2.1 else soundBody s x.1 x.2.1
    head 0 b.length ++ b

/-- A snapshot taken (R661, R662). The time its end takes is a free value below the 2 ms of R401 (log 8, DESIGN CHOICE). Log 69, DESIGN CHOICE. -/
def takeSounding (s : State) (noresp : List Nat) : State :=
  let no := (s.mbx.snapNo + 1) % 2 ^ 32
  let t0 := timeNs s
  let body := soundUnits.flatMap (soundSection s noresp)
  let d := draw s
  let t1 := t0 + 1 + (Config.freeWord d.1).toNat % 2000000
  let hd := toLE 4 no ++ toLE 4 soundUnits.length ++ toLE 8 t0 ++ toLE 8 t1 ++ toLE 1 (myChip s) ++ toLE 1 (fld s Reg.fabPkgInfo FabPkgInfo.GRADE)
  let s := d.2
  { s with obs := { s.obs with snapshot := some (slice hd 0 64 ++ body) }, mbx := { s.mbx with snapNo := no } }

/-- A page answered (R405); FORMAT when the snapshot has no such page. -/
def soundingAnswer (s : State) (fn page : Nat) : State :=
  let bs := s.obs.snapshot.getD []
  let pages := ceilDiv bs.length 2016
  if pages ≤ page then refuse s .g fn .format
  else
    answerOk s .g fn ((pages * 2 ^ 48 + page * 2 ^ 32 + s.mbx.snapNo) :: ofLE (slice bs 8 8) :: wordsOf (slice bs (2016 * page) 2016))

/-- The format of SOUNDING_TAKE (R405). -/
def soundingFormat (fn : Nat) (s : State) : Bool := rqPlen s .g fn == 8 && rsvd s .g fn 0 63 32 && rsvd s .g fn 0 15 1

/-- SOUNDING_TAKE with TAKE = 1 (R405, R661): the counters freeze, every node is captured, and they thaw; a freeze in force stays. -/
def execSoundingTake (fn : Nat) (noresp : List Nat) (s : State) : Host.Outcome State Fault Refusal :=
  .next (if ! bit (rqW s .g fn 0) 0 then s
    else mbxCommand s .g fn 3 (soundingFormat fn) (onlyZero fn) fun s =>
      let was := isFrozen s
      let s := takeSounding (freezeNow s false none) noresp
      soundingAnswer (if was then s else freezeNow s true none) fn 0)

/-- SOUNDING_TAKE with TAKE = 0 (R405): a page of the snapshot held. -/
def execSoundingPageRead (fn : Nat) (s : State) : Host.Outcome State Fault Refusal :=
  .next (if bit (rqW s .g fn 0) 0 then s
    else mbxCommand s .g fn 3 (soundingFormat fn) (onlyZero fn) fun s => soundingAnswer s fn (bits (rqW s .g fn 0) 31 16))

/-! ### COUNTER_FREEZE (R406, R640, R641) -/

/-- The format of COUNTER_FREEZE. -/
def freezeFormat (fn : Nat) (s : State) : Bool := rqPlen s .g fn == 8 && rsvd s .g fn 0 63 2

/-- The FREEZE messages of a domain freeze or thaw (R641). -/
def domainFreeze (s : State) (thaw : Bool) (no at_ : Nat) : State :=
  let pay := b2n thaw + myChip s * 2 ^ 24 + no * 2 ^ 32
  (torusChips s).foldl (fun s c => spSend s ⟨myChip s, 0, 3⟩ ⟨[spWord0 .freeze 0 ⟨c, 0, 0⟩ 0 1 true 0 0 0, at_, pay]⟩) s

/-- COUNTER_FREEZE or its thaw: on this package at once, or on the domain at TAPPLY. A domain freeze takes the next number; a thaw keeps it.
Log 86, DEDUCED. -/
def counterFreezeRun (s : State) (fn : Nat) (thaw : Bool) : State :=
  if bit (rqW s .g fn 0) 1 then
    let no := if thaw then s.mbx.frzNo else (s.mbx.frzNo + 1) % 2 ^ 32
    let at_ := (fineNow s + max 1 (fld s Reg.telFrzCtl TelFrzCtl.FLEAD) * 16000) % 2 ^ 64
    let s := domainFreeze { s with mbx := { s.mbx with frzNo := no } } thaw no at_
    answerOk s .g fn [ceilDiv at_ 16]
  else answerOk (freezeNow s thaw none) .g fn [timeNs s]

/-- COUNTER_FREEZE with FREEZE = 1 (R406). -/
def execCounterFreeze (fn : Nat) (s : State) : Host.Outcome State Fault Refusal :=
  .next (if ! bit (rqW s .g fn 0) 0 then s
    else mbxCommand s .g fn 4 (freezeFormat fn) (onlyZero fn) fun s => counterFreezeRun s fn false)

/-- COUNTER_FREEZE with FREEZE = 0 (R406). -/
def execCounterThaw (fn : Nat) (s : State) : Host.Outcome State Fault Refusal :=
  .next (if bit (rqW s .g fn 0) 0 then s
    else mbxCommand s .g fn 4 (freezeFormat fn) (onlyZero fn) fun s => counterFreezeRun s fn true)

/-! ### FABRIC_RESET (R407) -/

/-- FABRIC_RESET (R407): F commands end, the queue pairs close (R464, log 182), the fabric stops and is held in reset; the command completes when the reset is done
(DOMAIN_RESET_DONE). -/
def execFabricReset (fn : Nat) (s : State) : Host.Outcome State Fault Refusal :=
  .next (if (mbxSlot s .g fn).begun then s
    else mbxCommand s .g fn 5 (fun s => rqPlen s .g fn == 0) (onlyZero fn) fun s =>
      begin_ (fabDown (closePairs (endAll (wakeBy s 1) .f .reset) 3) .aborted) .g fn)

/-! ### FMP_RECOVER (R408, R595) -/

/-- The image a recovery names. -/
def recoverImage (s : State) (fn : Nat) : Option Nat :=
  let i := s.boot.inp.getD {}
  if bit (rqW s .g fn 0) 0 then i.recovery else i.primary

/-- The FMP boots its named image: it runs, or its signature fails and FMPST stays DOWN. -/
def recoverBoot (s : State) (fn : Nat) : State :=
  match verifyImage s (recoverImage s fn) with
  | (s, some v) => answerOk (fmpUp s v) .g fn [v % 2 ^ 24]
  | (s, none) => refuse { s with mbx := { s.mbx with fmpst := 2, version := 0 } } .g fn .signature

/-- FMP_RECOVER while start-up runs or has stopped for want of an image or a unit history (R595): stage 3 again, with the image named. -/
def recoverStage (s : State) (fn : Nat) : State :=
  let r := Reg.fabBootStat
  let s := setFld (setFld (begin_ s .g fn) r FabBootStat.FAIL 0) r FabBootStat.CODE 0
  let img := recoverImage s fn
  stageFirmware (setStage s 3) img none

/-- FMP_RECOVER's start and, in a later step, its end (R408). Before stage 3 it names the image that stage boots; a package whose start-up has
stopped for another cause boots its FMP and stays stopped (R594, R595). Log 107, DEDUCED. -/
def recoverRun (s : State) (fn : Nat) : State :=
  let st := stage s
  let code := fld s Reg.fabBootStat FabBootStat.CODE
  if (mbxSlot s .g fn).begun then
    if st = 9 then (if fmpRuns s then answerOk s .g fn [s.mbx.version % 2 ^ 24] else recoverBoot s fn)
    else if st = 15 then (if code = 4 then refuse s .g fn .signature else recoverBoot s fn)
    else s
  else if (3 ≤ st ∧ st ≤ 8) ∨ (st = 15 ∧ (code = 4 ∨ code = 5)) then recoverStage s fn
  else if st = 9 ∨ st = 15 then begin_ (fmpStops s 3) .g fn
  else begin_ { s with boot := { s.boot with image := some (bit (rqW s .g fn 0) 0) } } .g fn

/-- FMP_RECOVER (R408). -/
def execFmpRecover (fn : Nat) (s : State) : Host.Outcome State Fault Refusal :=
  .next (mbxCommand s .g fn 6 (fun s => rqPlen s .g fn == 8 && rsvd s .g fn 0 63 1) (onlyZero fn) fun s => recoverRun s fn)

end Sys2Proof.Machine
end

