-- ==== Sys2Proof/Machine/Firmware.lean ====
section
/-!
DEFINITION. What the commands of the firmware slot share (chapter 11, chapter 15): whose tenant they act for, the authorisation of a sealed tenant's
commands (R547-R549), and commands that end in a later step.
-/
namespace Sys2Proof.Machine

/-! ### Tenants and privilege (R401, R549) -/

/-- Does a command of this function pass the seal gate (R547)? -/
def gatedHere (s : State) (fn : Nat) : Bool := fn != 0 && sealedT s fn

/-- Function 0 may not name a sealed tenant (R549). -/
def openTo (s : State) (fn t : Nat) : Option Reason := if fn = 0 ∧ sealedT s t then some .sealed else none

/-- A gated command without its trailer is refused (R548). -/
def gateMissing (s : State) (fn n : Nat) : Option Reason := if gatedHere s fn ∧ rqPlen s .f fn = n then some .sealed else none

/-- Two checks in a row. -/
def orElse (a b : Option Reason) : Option Reason := match a with
  | some r => some r
  | none => b

/-! ### Authorisation (R547) -/

/-- The payload length of a command that may be gated: `n` bytes, and for a sealed tenant's function the trailer behind them. -/
def gatedLen (s : State) (fn n : Nat) : Bool :=
  rqPlen s .f fn == n || (gatedHere s fn && rqPlen s .f fn == n + 32 && ofLE (slice (rqBytes s .f fn) (n + 8) 8) == 0)

/-- The additional data of an authorisation tag: CMD, TENANT and CSEQ, the payload before the trailer, and the records.
Log 103, DESIGN CHOICE. -/
def authData (s : State) (fn n cseq : Nat) (recs : List Byte) : List Byte :=
  toLE 2 (rqCmd s .f fn) ++ toLE 1 fn ++ toLE 8 cseq ++ slice (rqBytes s .f fn) 0 n ++ recs

/-- The last CSEQ accepted for a tenant. -/
def lastCseq (s : State) (t : Nat) : Nat := fld s (Reg.secCseq t) SecCseq.CSEQ

/-- A tenant's CTRL key (R552). -/
def ctrlKey (s : State) (t : Nat) : Option Nat := (s.sec.ctrl.find? fun k => k.1 == t).map Prod.snd

/-- Does an authorisation hold: its tag matches and CSEQ advances? -/
def authOk (s : State) (fn n : Nat) (recs : List Byte) : Bool :=
  let b := rqBytes s .f fn
  let cseq := ofLE (slice b n 8)
  match ctrlKey s fn with
  | none => false
  | some k => decide (lastCseq s fn < cseq) &&
      slice b (n + 16) 16 == Config.gcmSeal k (toLE 8 cseq ++ toLE 4 0) (authData s fn n cseq recs) []

/-- The seal gate in front of a sealed tenant's command (R547): SIGNATURE, or CSEQ advances and the command takes effect. An armed injection fails the
next comparison (R632). Log 94, DEDUCED. -/
def throughGate (s : State) (fn n : Nat) (recs : List Byte) (k : State → State) : State :=
  if ! gatedHere s fn then k s
  else
    let hit := injArmed s .sec .seal (fun _ => true)
    let s := if hit then injFire s .sec else s
    if hit || ! authOk s fn n recs then refuse (sigFail s fn) .f fn .signature
    else k (setFld s (Reg.secCseq fn) SecCseq.CSEQ (ofLE (slice (rqBytes s .f fn) n 8)))

/-! ### Carrying out a command -/

/-- A firmware command that has not begun: format, privilege, the command's own checks in order, and its effect. -/
def fwRun (s : State) (fn cmd : Nat) (fmt : State → Bool) (priv : State → Option Reason) (chk : State → Option (Reason × List Nat))
    (act : State → State) : State :=
  mbxCommand s .f fn cmd fmt priv fun s => match chk s with
    | some (r, ws) => refuse s .f fn r ws
    | none => act s

/-- A gated command (R548): `n` payload bytes before the trailer, and the records of its list. -/
def fwGated (s : State) (fn cmd n : Nat) (fmt : State → Bool) (priv : State → Option Reason) (chk : State → Option (Reason × List Nat)) (recs : List Byte)
    (act : State → State) : State :=
  fwRun s fn cmd (fun s => gatedLen s fn n && fmt s) (fun s => orElse (priv s) (gateMissing s fn n)) chk fun s => throughGate s fn n recs act

/-- The second part of a command that has begun: `k` may end it. -/
def fwLater (s : State) (fn cmd : Nat) (k : State → State) : State :=
  if mbxTurn s .f fn cmd && (mbxSlot s .f fn).begun then
    let t := k s
    refuseFirst .f (mbxQueue t .f).length t
  else s

/-- Has the command of a slot begun? -/
def begunF (s : State) (fn : Nat) : Bool := (mbxSlot s .f fn).begun

/-! ### Host memory (R403, R411, R420) -/

/-- The bytes a read of host memory brought; any other answer is FETCH. -/
def fetched : HostData → Option (List Byte)
  | .ok bs => some bs
  | _ => none

/-- A word of a parameter block. -/
def blkWord (bs : List Byte) (i : Nat) : Nat := ofLE (slice bs (8 * i) 8)

/-- The first of a list of refusals that applies. -/
def firstOf : List (Bool × Reason) → Option (Reason × List Nat)
  | [] => none
  | (b, r) :: l => if b then some (r, []) else firstOf l

/-- The response of a CHECK names the failure (R396): its number goes to W0 (log 181). -/
def naming (n : Nat) : Option (Reason × List Nat) → Option (Reason × List Nat)
  | some (.check, _) => some (.check, [n])
  | x => x

end Sys2Proof.Machine
end

