-- ==== Sys2Proof/Machine/Lists.lean ====
section
/-!
DEFINITION. Write lists (R402, R403) and the commands that carry or arm them: schedules, groups, arbiters and observation (R414, R417, R418).
-/
namespace Sys2Proof.Machine

/-! ### Lists (R402, R403) -/

/-- The number of records a request names. -/
def listCount (s : State) (fn : Nat) : Nat := bits (rqW s .f fn 1) 31 0

/-- The format of a request with a list (R403, R424, R547): at most 1,048,576 records, 4,096 through the seal gate. -/
def listFormat (fn : Nat) (s : State) : Bool :=
  rsvd s .f fn 1 63 32 && decide (1 ≤ listCount s fn) && decide (listCount s fn ≤ if gatedHere s fn then 4096 else 1048576)

/-- The records of a list: offset word and value. -/
def listRecs (s : State) (fn : Nat) (bs : List Byte) : List (Nat × Nat) :=
  (List.range (listCount s fn)).map fun i => (blkWord bs (2 * i), blkWord bs (2 * i + 1))

/-- The bytes of the records, as the seal gate sees them. -/
def listBytes (s : State) (fn : Nat) (d : HostData) : List Byte := slice ((fetched d).getD []) 0 (16 * listCount s fn)

/-- Did a write pass the register's own checks (R403): does every field that a write may set read as written? -/
def took (s : State) (off v : Nat) : Bool := (fieldsAt off).all fun d => d.acc != .rw || getF (rd s off) d.f == bits v d.f.hi d.f.lo

/-- The records tried one after another: the first that the command does not permit, or that its register refuses, with its index; and the state the
list leaves. Log 95, DEDUCED. -/
def tryList (may : State → Nat → Nat → Option Reason) (app : State → Nat → Nat → State) :
    State → Nat → List (Nat × Nat) → Option (Reason × Nat) × State
  | s, _, [] => (none, s)
  | s, i, (off, v) :: r =>
    if off % 8 ≠ 0 ∨ 2 ^ 26 ≤ off ∨ (regAt off).isNone then (some (.check, i), s)
    else match may s off v with
      | some e => (some (e, i), s)
      | none => tryList may app (app s off v) (i + 1) r

/-- A plain record's effect, refused when its register's checks refuse it. -/
def listMay (ok : State → Nat → Nat → Bool) (grp : Option (Nat × Nat × Nat)) (s : State) (off v : Nat) : Option Reason :=
  if ok s off v && took (applyWrite s off v grp) off v then none else some .check

/-- The refusal of a list: CHECK with the index of the failing record, FETCH, or another reason. -/
def listCheck (d : HostData) (fn : Nat) (may : State → Nat → Nat → Option Reason) (app : State → Nat → Nat → State) (s : State) :
    Option (Reason × List Nat) :=
  match fetched d with
  | none => some (.fetch, [])
  | some bs => match (tryList may app s 0 (listRecs s fn bs)).1 with
    | some (.check, i) => some (.check, [i])
    | some (r, _) => some (r, [])
    | none => none

/-- A list applied. -/
def listApply (d : HostData) (fn : Nat) (may : State → Nat → Nat → Option Reason) (app : State → Nat → Nat → State) (s : State) : State :=
  (tryList may app s 0 (listRecs s fn ((fetched d).getD []))).2

/-! ### Slot tables -/

/-- Entry j of a slot-table word: is it owned by SCH t, by any SCH requester, or by nobody? -/
def slotPart (w j : Nat) : Nat := bits w (16 * j + 15) (16 * j)
def partFree (p : Nat) : Bool := ! bit p 15
def partSch (t p : Nat) : Bool := bit p 15 && bits p 6 0 == 64 + t
def partAnySch (p : Nat) : Bool := bit p 15 && decide (64 ≤ bits p 6 0)

/-- Is a slot-table register part of its arbiter's shadow bank? -/
def inShadow (s : State) (a : Arb) (n : RegName) : Bool :=
  (n == .arbSlot0 && fld s (Reg.arbCtl a) ArbCtl.BANK == 1) || (n == .arbSlot1 && fld s (Reg.arbCtl a) ArbCtl.BANK == 0)

/-- May a schedule's record write a slot-table word: entries it changes are its tenant's or free, before and after? -/
def slotMine (t old new : Nat) : Bool :=
  (List.range 4).all fun j =>
    let o := slotPart old j
    let n := slotPart new j
    o == n || ((partFree o || partSch t o) && (partFree n || partSch t n))

/-! ### SCHED_LOAD, SCHED_ARM, SCHED_STOP (R414) -/

/-- The tenant a schedule command acts for. -/
def schedTenant (s : State) (fn : Nat) : Nat := actsFor fn (bits (rqW s .f fn 2) 63 56)

/-- The format of the tenant word. -/
def schedFormat (fn : Nat) (s : State) : Bool :=
  rsvd s .f fn 2 55 0 && decide (1 ≤ schedTenant s fn) && decide (schedTenant s fn ≤ 63)

/-- Registers a schedule's list may write for tenant t (R414, R467, R528). Log 96, DEDUCED. -/
def schedMay (t : Nat) (s : State) (off v : Nat) : Bool :=
  match regAt off with
  | none => false
  | some (.fn _, _, _) => false
  | some (.arb a, d, _) => inShadow s a d.name && slotMine t (rd s off).toNat v
  | some (.blk b, d, i) =>
    match d.name with
    | .rtrXbar0 => schBank s t != 0 && xbarOwner s (blkTile b) i == some t
    | .rtrXbar1 => schBank s t != 1 && xbarOwner s (blkTile b) i == some t
    | .mepStreamDesc | .tniPumpDesc =>
      let sel := inBank (streamDesc s b (i / 4)) (1 - schBank s t) || (i % 4 == 0 && bit v (2 - schBank s t))
      sel && descTenant s b (i / 4) == t && (i % 4 != 3 || ! descLocked s b (i / 4) 0) && (i % 4 != 0 || schState s t != 2 || ! bit v (1 + schBank s t))
    | .fabSchCtx => i == t
    | .lpSbindA | .rteSbindA =>
      bits v 47 40 == t && (fld s off LpSbindA.TENANT == 0xFF || fld s off LpSbindA.TENANT == t)
    | .lpSbindB | .rteSbindB => fld s (off - 8) LpSbindA.TENANT == t
    | .rteSbindC => fld s (off - 16) LpSbindA.TENANT == t && bits v 31 0 % 256 == 0
    | .lpSbindC => fld s (off - 16) LpSbindA.TENANT == t
    | _ => false

/-- A stream's poison bit cleared when its descriptor is loaded (R608). -/
def clearStream (s : State) (off : Nat) : State :=
  match regAt off with
  | some (.blk b, d, i) =>
    if d.name ≠ .mepStreamDesc ∧ d.name ≠ .tniPumpDesc then s
    else
      let n := i / 4
      let r := match b with | .mep m => Reg.mepStreamPsn m (n / 64) | .tni t => Reg.tniPumpPsn t (n / 64) | _ => 0
      if i % 4 = 3 then wrReg s r (BitVec.ofNat 64 (putBits (rd s r).toNat (n % 64) (n % 64) 0)) else s
  | _ => s

/-- A schedule record's effect. -/
def schedApply (s : State) (off v : Nat) : State := clearStream (applyWrite s off v) off

/-- SCHED_LOAD (R414). -/
def execSchedLoad (fn : Nat) (list : HostData) (s : State) : Host.Outcome State Fault Refusal :=
  .next (fwGated s fn 0x130 24 (fun s => listFormat fn s && schedFormat fn s) (fun s => openTo s fn (schedTenant s fn))
    (fun s => if flag s (Reg.fabSchCtx (schedTenant s fn)) FabSchCtx.ARMED then some (.state, [])
      else listCheck list fn (listMay (schedMay (schedTenant s fn)) none) schedApply s)
    (listBytes s fn list)
    (fun s => answerOk (listApply list fn (listMay (schedMay (schedTenant s fn)) none) schedApply s) .f fn))

/-- Slot-table offsets of a word in the active and the shadow bank. -/
def slotWords (s : State) (a : Arb) (k : Nat) : Nat × Nat :=
  if fld s (Reg.arbCtl a) ArbCtl.BANK = 0 then (Reg.arbSlot0 a k, Reg.arbSlot1 a k) else (Reg.arbSlot1 a k, Reg.arbSlot0 a k)

/-- Is a slot table affected by a schedule's takeover: do its banks differ in an entry of SCH t? -/
def slotAffected (s : State) (t : Nat) (a : Arb) : Bool :=
  (List.range 256).any fun k =>
    let w := slotWords s a k
    (List.range 4).any fun j =>
      let o := slotPart (rd s w.1).toNat j
      let n := slotPart (rd s w.2).toNat j
      o != n && (partSch t o || partSch t n)

/-- A slot table armed and checked: the state, and ARMERR. The check ends in the cycle of the arm (log 43, DESIGN CHOICE). -/
def armSlots (s : State) (a : Arb) (time : Nat) : State × Nat :=
  let s := after (execArbArm a time s) s
  let s := after (execArbArmCheckDone a s) s
  (s, fld s (Reg.arbCtl a) ArbCtl.ARMERR)

/-- The takeover armed: slot tables first, then `FAB_SCH_ARM`; on a failure every arm made is withdrawn. -/
def armAll (t time : Nat) : State → List Arb → State × Nat
  | s, [] =>
    let s := after (execSchArm t time s) s
    let s := after (execSchArmCheckDone t s) s
    (s, fld s (Reg.fabSchCtx t) FabSchCtx.ARMERR)
  | s, a :: r =>
    let x := armSlots s a time
    if x.2 ≠ 0 then x
    else
      let y := armAll t time x.1 r
      if y.2 ≠ 0 then (arbDrop y.1 a, y.2) else y

/-- The arbiters with slot tables that SCH requesters may own (R151). -/
def allSlots (s : State) : List Arb :=
  ((List.range 12).map Arb.mep) ++ (((List.range 64).filter (good s)).flatMap fun t => (List.range 4).map (Arb.sp t)) ++ ((List.range 64).map Arb.ru) ++
    ((List.range 16).map Arb.lp) ++ [.rte 0, .rte 1]

/-- A takeover requested for T: `ST_OK`, or CHECK with ARMERR and what the command did before the arms undone (R397). -/
def schedArmRun (fn : Nat) (undo : State → State) (s : State) : State :=
  let t := schedTenant s fn
  let x := armAll t (rqW s .f fn 0) s ((allSlots s).filter (slotAffected s t))
  if x.2 = 0 then answerOk x.1 .f fn [0] else refuse (undo x.1) .f fn .check [x.2]

/-- The format of SCHED_ARM and SCHED_STOP: T is not zero. -/
def armFormat (fn : Nat) (s : State) : Bool := rqW s .f fn 0 != 0 && rqW s .f fn 1 == 0 && schedFormat fn s

/-- SCHED_ARM (R414). -/
def execSchedArm (fn : Nat) (s : State) : Host.Outcome State Fault Refusal :=
  .next (fwGated s fn 0x131 24 (armFormat fn) (fun s => openTo s fn (schedTenant s fn)) (fun _ => none) [] (schedArmRun fn id))

/-- The crossbar entries of a tenant's shadow bank. -/
def shadowXbars (s : State) (t : Nat) : List Nat :=
  (List.range 64).flatMap fun tile =>
    let r := Reg.rtrSchRange tile t
    (List.range (min 4096 (fld s r RtrSchRange.COUNT))).map fun i => xbar tile (1 - schBank s t) ((fld s r RtrSchRange.BASE + i) % 4096)

/-- The registers that select a tenant's descriptors for its shadow bank, of those that are not in use. -/
def shadowDescs (s : State) (t : Nat) : List Nat :=
  ((descsFor s t (1 - schBank s t)).filter fun x => ! descLocked s x.1 x.2 0).map fun x => descSlot x.1 (4 * x.2)

/-- A tenant's shadow bank emptied: its crossbar entries, and the shadow bank's bit in its descriptors. -/
def emptyShadow (s : State) (t : Nat) : State :=
  let nb := 1 - schBank s t
  (shadowDescs s t).foldl (fun s r => wrReg s r (BitVec.ofNat 64 (putBits (rd s r).toNat (1 + nb) (1 + nb) 0)))
    ((shadowXbars s t).foldl resetReg s)

/-- What `emptyShadow` changed put back as it stood in `s` (R397). -/
def fillShadow (s : State) (t : Nat) (u : State) : State := (shadowXbars s t ++ shadowDescs s t).foldl (fun u r => wrReg u r (rd s r)) u

/-- SCHED_STOP (R414): an empty shadow bank armed, which stops the schedule (R73). Log 97, DEDUCED. -/
def execSchedStop (fn : Nat) (s : State) : Host.Outcome State Fault Refusal :=
  .next (fwGated s fn 0x132 24 (armFormat fn) (fun s => openTo s fn (schedTenant s fn))
    (fun s => firstOf [(flag s (Reg.fabSchCtx (schedTenant s fn)) FabSchCtx.ARMED, .state)]) []
    (fun s => schedArmRun fn (fillShadow s (schedTenant s fn)) (emptyShadow s (schedTenant s fn))))

/-! ### GROUP_CREATE, GROUP_DESTROY (R414) -/

/-- GROUP, EPOCH and GIDX of a request. -/
def gcGroup (s : State) (fn : Nat) : Nat := bits (rqW s .f fn 2) 63 48
def gcEpoch (s : State) (fn : Nat) : Nat := bits (rqW s .f fn 2) 47 32
def gcIdx (s : State) (fn : Nat) : Nat := bits (rqW s .f fn 2) 11 0

/-- Does an owner field say that a register is tenant t's or nobody's? -/
def freeFor (t owner : Nat) : Bool := owner == 0xFF || owner == t

/-- Registers a group's plan may write for tenant t and group-table index g (R414): units of its tiles, and entries of shared units that are free or its
own and that it takes for itself. -/
def groupMay (t g : Nat) (s : State) (off v : Nat) : Bool :=
  match regAt off with
  | some (.blk b, d, i) =>
    let mine := match b with | .tni x => tableOn s b && owner s x == t | _ => false
    let shared := match b with | .lp _ => true | .rte _ => true | _ => false
    let e := if d.name = .dstore then i / 8 else i
    let entry := mine || (shared && freeFor t (fld s (Reg.trigb b e) Trigb.TENANT))
    match d.name with
    | .fabGrpA => i == g && bits v 31 24 == t
    | .fabGrpB => i == g
    | .tniGrpMember => mine && i == g
    | .redCtxA => freeFor t (fld s off RedCtxA.TENANT) && bits v RedCtxA.TENANT.hi RedCtxA.TENANT.lo == t
    | .redCtxB => freeFor t (fld s (off - 8) RedCtxA.TENANT)
    | .tniLand => mine && bits v 63 56 == t
    | .tniSluInba => mine && bits v 63 56 == t
    | .tniSluInbb => mine
    | .relay => shared && freeFor t (fld s off Relay.TENANT) && bits v 63 56 == t
    | .trigb => entry && bits v 63 56 == t
    | .triga => entry
    | .dstore => entry
    | .rtrSpNode => freeFor t (fld s off RtrSpNode.TENANT) && bits v 31 24 == t
    | _ => false
  | _ => false

/-- A record's effect; what GROUP_DESTROY must disable again is remembered. -/
def groupApply (g : Nat × Nat × Nat) (s : State) (off v : Nat) : State :=
  let s := applyWrite s off v (some g)
  let keep : Bool := match regAt off with
    | some (_, d, _) => d.name == .tniLand || d.name == .relay || d.name == .tniSluInba || d.name == .rtrSpNode
    | none => false
  if keep then { s with coll := { s.coll with plans := s.coll.plans ++ [(g.2.2, off)] } } else s

/-- The group installed (R266, R267, R608): its identity, SEQ 0 and no poison at its members. With a standpipe group here, firmware keeps the lane ports
out of QUIET and DEEP (R525). -/
def groupMake (t fn : Nat) (s : State) : State :=
  let i := gcIdx s fn
  let r := Reg.fabGrpA i
  let s := setFld (setFld (setFld (setFld s r FabGrpA.GROUP (gcGroup s fn)) r FabGrpA.EPOCH (gcEpoch s fn)) r FabGrpA.TENANT t) r FabGrpA.STATE 1
  let s := (regsWhere s fun _ d k _ => d.name == .tniGrpMember && k == i).foldl (fun s off => setFld s off TniGrpMember.SEQ 0) s
  let s := (List.range 64).foldl (fun s x =>
    if owner s x ≠ t then s
    else
      let p := Reg.tniGrpPsn x (i / 64)
      wrReg s p (BitVec.ofNat 64 (putBits (rd s p).toNat (i % 64) (i % 64) 0))) s
  let s := { s with coll := { s.coll with epochs := s.coll.epochs ++ [(t, gcGroup s fn, gcEpoch s fn)] } }
  if pipedHere s then
    (List.range 16).foldl (fun s n =>
      let c := Reg.lpPmCfg n
      setFld (setFld (setFld s c LpPmCfg.QEN 0) c LpPmCfg.DEEPIDLE 0) c LpPmCfg.DEEPREQ 0) s
  else s

/-- The records' checks and effects of a group's plan. -/
def planMay (fn : Nat) (s : State) (off v : Nat) : Option Reason :=
  listMay (groupMay fn (gcIdx s fn)) (some (gcGroup s fn, gcEpoch s fn, gcIdx s fn)) s off v
def planApply (fn : Nat) (s : State) (off v : Nat) : State := groupApply (gcGroup s fn, gcEpoch s fn, gcIdx s fn) s off v

/-- Does a group's list leave it with a single member (R7, R265: NM1 is at least 1)? -/
def tooFew (fn : Nat) (list : HostData) (s : State) : Bool :=
  fld (listApply list fn (planMay fn) (planApply fn) s) (Reg.fabGrpA (gcIdx s fn)) FabGrpA.NM1 == 0

/-- GROUP_CREATE (R7, R265, R414, R267): it acts for the caller's own tenant (log 44, DESIGN CHOICE). -/
def execGroupCreate (fn : Nat) (list : HostData) (s : State) : Host.Outcome State Fault Refusal :=
  .next (fwGated s fn 0x140 24 (fun s => listFormat fn s && rsvd s .f fn 2 31 12) (fun _ => none)
    (fun s => match firstOf [(grpState s (gcIdx s fn) != 0, .noResource),
        (s.coll.epochs.contains (fn, gcGroup s fn, gcEpoch s fn), .epoch)] with
      | some r => some r
      | none => match listCheck list fn (planMay fn) (planApply fn) s with
        | some r => some r
        | none => if tooFew fn list s then some (.check, []) else none)
    (listBytes s fn list) (fun s => answerOk (groupMake fn fn (listApply list fn (planMay fn) (planApply fn) s)) .f fn))

/-- GROUP_DESTROY (R414). -/
def execGroupDestroy (fn : Nat) (s : State) : Host.Outcome State Fault Refusal :=
  .next (fwGated s fn 0x141 24 (fun s => rqW s .f fn 0 == 0 && rqW s .f fn 1 == 0 && rsvd s .f fn 2 63 12) (fun _ => none)
    (fun s => firstOf [(grpState s (gcIdx s fn) == 0, .state), (grpTenant s (gcIdx s fn) != fn, .conflict)]) []
    (fun s => answerOk (groupDestroy s (gcIdx s fn)) .f fn))

/-! ### ARB_CONFIGURE (R417) -/

/-- Does a record of `MEP_STAGE_CFG` move LEAD under a live schedule (R68, R417)? -/
def leadLocked (s : State) (m v : Nat) : Bool :=
  bits v MepStageCfg.LEAD.hi MepStageCfg.LEAD.lo != fld s (Reg.mepStageCfg m) MepStageCfg.LEAD &&
    (List.range 512).any fun n =>
      let t := descTenant s (.mep m) n
      t != 0xFF && SdBanks (streamDesc s (.mep m) n) != 0 && schState s t != 0

/-- Does an arbiter of this kind keep OWNMAX at most 896 (R184, R417)? -/
def ownLimited : Arb → Bool
  | .mep _ => true
  | .sp _ _ => true
  | _ => false

/-- What a record of ARB_CONFIGURE may do at an arbiter. -/
def arbMay (s : State) (a : Arb) (n : RegName) (off v : Nat) : Option Reason :=
  match n with
  | .arbCfg =>
    let m := bits v 39 30
    if ownLimited a && (m == 0 || decide (896 < m)) then some .check else none
  | .arbShape | .arbArm => none
  | .arbSlot0 | .arbSlot1 =>
    if ! inShadow s a n then some .check
    else if flag s (Reg.arbCtl a) ArbCtl.ARMED then some .state
    else if (List.range 4).any fun j => partAnySch (slotPart v j) || partAnySch (slotPart (rd s off).toNat j) then some .check
    else none
  | _ => some .check

/-- What a record of ARB_CONFIGURE may do at a gate list. -/
def gateMay (s : State) (b : Blk) (bank : Nat) : Option Reason :=
  let c := Reg.gateCtl b
  if fld s c GateCtl.BANK = bank then some .check else if flag s c GateCtl.ARMED then some .state else none

/-- Registers that ARB_CONFIGURE may write, and its refusals (R417). -/
def configMay (s : State) (off v : Nat) : Option Reason :=
  match regAt off with
  | some (.arb a, d, _) => arbMay s a d.name off v
  | some (.blk b, d, _) =>
    match d.name with
    | .gate0 => gateMay s b 0
    | .gate1 => gateMay s b 1
    | .gateArm => none
    | .rtrDynArb => none
    | .mepStageCfg => match b with | .mep m => if leadLocked s m v then some .check else none | _ => some .check
    | _ => some .check
  | _ => some .check

/-- Is a record an arm? -/
def isArm (off v : Nat) : Bool := match regAt off with
  | some (_, d, _) => (d.name == .arbArm || d.name == .gateArm) && v % 2 ^ 64 != 0
  | none => false

/-- A record's check, its register's own among it; arms are tried afterwards. -/
def configTry (s : State) (off v : Nat) : Option Reason :=
  match configMay s off v with
  | some r => some r
  | none => if isArm off v || took (applyWrite s off v) off v then none else some .check
def configApply (s : State) (off v : Nat) : State := if isArm off v then s else applyWrite s off v

/-- The SCH-owned entries of the active bank copied into the shadow bank (R417). -/
def copySch (s : State) (a : Arb) : State :=
  (List.range 256).foldl (fun s k =>
    let w := slotWords s a k
    let old := (rd s w.1).toNat
    let new := (List.range 4).foldl (fun n j => if partAnySch (slotPart old j) then putBits n (16 * j + 15) (16 * j) (slotPart old j) else n) (rd s w.2).toNat
    wrReg s w.2 (BitVec.ofNat 64 new)) s

/-- One switch armed and checked: the state, and whether the arm failed. -/
def armOne (s : State) (off v : Nat) : State × Bool :=
  match regAt off with
  | some (.arb a, _, _) =>
    let x := armSlots (copySch s a) a (v % 2 ^ 64)
    (x.1, x.2 != 0)
  | some (.blk b, _, _) =>
    let s := after (execGateArm b (v % 2 ^ 64) s) s
    let s := after (execGateArmCheckDone b s) s
    (s, fld s (Reg.gateCtl b) GateCtl.ARMERR != 0)
  | _ => (s, false)

/-- The arms of a list, in order: the index of the first that fails. -/
def armList : State → Nat → List (Nat × Nat) → Option Nat × State
  | s, _, [] => (none, s)
  | s, i, (off, v) :: r =>
    if ! isArm off v then armList s (i + 1) r
    else
      let x := armOne s off v
      if x.2 then (some i, x.1) else armList x.1 (i + 1) r

/-- ARB_CONFIGURE's effect; a failing arm refuses the whole list, and nothing of it stays (R422). Log 98, DEDUCED. -/
def arbConfigureRun (list : HostData) (fn : Nat) (s : State) : State :=
  let recs := listRecs s fn ((fetched list).getD [])
  match armList (listApply list fn configTry configApply s) 0 recs with
  | (some i, _) => refuse s .f fn .check [i]
  | (none, s) => answerOk s .f fn

/-- ARB_CONFIGURE (R417). -/
def execArbConfigure (fn : Nat) (list : HostData) (s : State) : Host.Outcome State Fault Refusal :=
  .next (fwRun s fn 0x161 (fun s => rqPlen s .f fn == 24 && listFormat fn s && rqW s .f fn 2 == 0) (onlyZero fn)
    (fun s => listCheck list fn configTry configApply s) (arbConfigureRun list fn))

/-! ### TRACE_CONFIGURE (R418, R644, R650, R657, R658) -/

/-- Does a well's configuration keep its place (R650) and its size (R667): well 0 outside every valid range, well t inside tenant t's ranges?
Log 99, DESIGN CHOICE. -/
def wellOk (s : State) (w v : Nat) : Bool :=
  let base := bits v 27 0
  let n := bits v 51 28
  let pages := (List.range n).map fun i => base + i
  decide (2 ≤ n) && (if w = 0 then pages.all fun p => (rangeTouches s (p % 12) (p / 12 * 4096) 4096).isNone
  else (rangeCheck s false (myChip s) (fabAddr 0 (base * 4096)) (n * 4096)).isNone &&
    ! rangeForeign s w (myChip s) (fabAddr 0 (base * 4096)) (n * 4096))

/-- A watcher's own limits (R658, R659). -/
def watchOk (s : State) (tile v : Nat) : Bool :=
  let e := bits v 61 58
  bits v 22 0 % 128 == 0 && decide (bits v 22 0 + 128 * (bits v 48 32 + 1) ≤ 0x800000) && (! bit v 49 || twinned s tile) &&
    (if bit v 62 then e != 9 else (decide (1 ≤ e) && decide (e ≤ 8)) || e == 10)

/-- Registers that TRACE_CONFIGURE may write: the caller's well, function 0's freeze control, and the watch and sampling registers of the
tenant's tiles (R418). -/
def traceMay (fn t : Nat) (s : State) (off v : Nat) : Bool :=
  match regAt off with
  | some (.blk b, d, i) =>
    let mine := match b with | .tni x => tableOn s b && owner s x == t && t != 0 | _ => false
    match d.name with
    | .telTwCfg => i == fn && wellOk s i v
    | .telFrzCtl => fn == 0
    | .tniPcsCfg => mine
    | .tniWatchCfg => mine && match b with | .tni x => ! bit v 63 || watchOk s x v | _ => false
    | _ => false
  | _ => false

/-- The records' check of TRACE_CONFIGURE. -/
def traceTry (fn : Nat) (s : State) (off v : Nat) : Option Reason := listMay (traceMay fn (schedTenant s fn)) none s off v

/-- TRACE_CONFIGURE (R418). -/
def execTraceConfigure (fn : Nat) (list : HostData) (s : State) : Host.Outcome State Fault Refusal :=
  .next (fwGated s fn 0x171 24 (fun s => listFormat fn s && rsvd s .f fn 2 55 0) (fun s => openTo s fn (schedTenant s fn))
    (fun s => listCheck list fn (traceTry fn) (fun s off v => applyWrite s off v) s) (listBytes s fn list)
    (fun s => answerOk (listApply list fn (traceTry fn) (fun s off v => applyWrite s off v) s) .f fn))

end Sys2Proof.Machine
end

