-- ==== Sys2Proof/Machine/Partition.lean ====
section
/-!
DEFINITION. The firmware commands for the domain, partitions, keys and recovery (R409-R413, R537-R541, R552-R554).
-/
namespace Sys2Proof.Machine

/-! ### DOMAIN_CONFIGURE (R409, R515) -/

/-- The direction of LPk that a request gives (R409). -/
def wantDir (s : State) (fn k : Nat) : Nat := bits (rqW s .f fn 1) (4 * k + 3) (4 * k)

/-- Does a request name a direction among its ports? -/
def dirNamed (s : State) (fn d : Nat) : Bool := (List.range 16).any fun k => wantDir s fn k == d

/-- Sizes minus one of the three dimensions in a `FAB_PKG_INFO` image. -/
def dimsM1 (w : Nat) : List Nat := [bits w 2 0, bits w 5 3, bits w 7 6]

/-- The directions of a request (R515): no reserved code, no direction of a dimension of size 1, both directions of every longer one. -/
def dirsOk (s : State) (fn : Nat) : Bool :=
  ((List.range 16).all fun k => decide (wantDir s fn k ≤ 6)) &&
    ((dimsM1 (rqW s .f fn 0)).zipIdx.all fun x =>
      let a := dirNamed s fn (1 + 2 * x.2)
      let b := dirNamed s fn (2 + 2 * x.2)
      if x.1 = 0 then ! a && ! b else a && b)

/-- One port put into reset without a direction (R409, R577); one in ACTIVE gives up what it holds as in DOWN (R508, R535). -/
def portHold (s : State) (n : Nat) : State :=
  let s := if lpActive s n then laneDrop s n else s
  laneReset (setFld (toState s n 0) (Reg.lpCfg n) LpCfg.DIR 0) n

/-- One port released with its direction, its virtual channels sized by firmware from the cable that the integrator states (R511; the sizes are the
firmware's, log 153, DESIGN CHOICE). -/
def portRelease (fn : Nat) (s : State) (n : Nat) : State :=
  let d := wantDir s fn n
  if d = 0 then s
  else toState (wrReg (setFld s (Reg.lpCfg n) LpCfg.DIR d) (Reg.lpVcCfg n) (Config.vcSizing n)) n 1

/-! ### The Ethernet list (R489, R492) -/

/-- The records of the Ethernet list: their number stands in W3. -/
def ethCount (s : State) (fn : Nat) : Nat := bits (rqW s .f fn 3) 31 0
def ethRecs (s : State) (fn : Nat) (bs : List Byte) : List (Nat × Nat) :=
  (List.range (ethCount s fn)).map fun i => (blkWord bs (2 * i), blkWord bs (2 * i + 1))

/-- Registers of the Ethernet list (R492), with the range of IDLESLOPE (R479). -/
def ethMay (_ : State) (off v : Nat) : Bool :=
  match regAt off with
  | some (.blk _, d, _) =>
    match d.name with
    | .rteTc => decide (1 ≤ bits v RteTc.IDLESLOPE.hi RteTc.IDLESLOPE.lo) && decide (bits v RteTc.IDLESLOPE.hi RteTc.IDLESLOPE.lo ≤ 8000)
    | .rteCfg | .rteCcpa | .rteCcpb | .rtePortCfg | .rtePortMac | .rtePortNh | .rtePortIp4 | .rtePortIp6h | .rtePortIp6l => true
    | _ => false
  | _ => false

/-- The IDLESLOPEs of an engine's shaped classes together. -/
def slopeSum (s : State) (e : Nat) : Nat :=
  (((List.range 8).filter fun k => flag s (Reg.rteTc e k) RteTc.CBS).map fun k => fld s (Reg.rteTc e k) RteTc.IDLESLOPE).foldl (· + ·) 0

/-- What the list as a whole may not leave (R492): slopes above 800 Gb/s, or a valid address at a port without NHV. -/
def ethBad (s : State) : Bool :=
  (List.range 2).any fun e => decide (8000 < slopeSum s e) || (List.range 4).any fun k =>
    let c := Reg.rtePortCfg e k
    (flag s c RtePortCfg.V4 || flag s c RtePortCfg.V6) && ! flag s c RtePortCfg.NHV

/-- The list tried: the first failing record, and the state the list leaves. -/
def ethTry (s : State) (fn : Nat) (list : HostData) : Option (Reason × Nat) × State :=
  tryList (listMay ethMay none) (applyWrite · · ·) s 0 (ethRecs s fn ((fetched list).getD []))

/-- The check of the Ethernet list: FETCH, or CHECK, with the index of a failing record; a list that fails as a whole has none (log 160, DEDUCED). -/
def ethCheck (list : HostData) (fn : Nat) (s : State) : Option (Reason × List Nat) :=
  if ethCount s fn = 0 then none
  else if (fetched list).isNone then some (.fetch, [])
  else match (ethTry s fn list).1 with
    | some (_, i) => some (.check, [i])
    | none => if ethBad (ethTry s fn list).2 then some (.check, []) else none

/-- Firmware after a port's settings have changed (R489): it sends the EEE TLV, and clears EEEACT where its conditions cease to hold. -/
def eeeAgain (old : State) (e : Nat) (s : State) (k : Nat) : State :=
  let c := Reg.rtePortCfg e k
  let r := Reg.rtePortEee e k
  if rd s c = rd old c then s
  else
    let s := if portOn s e k then fwFrame s e k (.eeeTlv e k) else s
    if flag s c RtePortCfg.EEE ∧ fld s r RtePortEee.TWSYS ≤ min 1000 (fld s c RtePortCfg.TWMAX) then s else eeeOff s e k

/-- The Ethernet list applied; a count of 0 changes nothing. -/
def ethApply (s : State) (fn : Nat) (list : HostData) : State :=
  if ethCount s fn = 0 then s
  else (List.range 2).foldl (fun t e => (List.range 4).foldl (eeeAgain s e) t) (ethTry s fn list).2

/-- The domain's configuration written, and training begun. -/
def domainStart (s : State) (fn : Nat) (list : HostData) : State :=
  let s := (List.range 16).foldl portHold (ethApply s fn list)
  let s := after (execFabPkgInfoWrite (rqW s .f fn 0) s) s
  begin_ ((List.range 16).foldl (portRelease fn) s) .f fn

/-- The ports in ACTIVE. -/
def trainedMap (s : State) : Nat := (List.range 16).foldl (fun m n => if lpActive s n then putBits m n n 1 else m) 0

/-- The wait for training is over: the trained ports, or LINK when a configured one is missing. -/
def domainEnd (s : State) (fn : Nat) : State :=
  if (List.range 16).all fun n => wantDir s fn n == 0 || lpActive s n then answerOk s .f fn [trainedMap s]
  else refuse s .f fn .link [trainedMap s]

/-- DOMAIN_CONFIGURE (R409, R492): its start, and the end of its wait. -/
def execDomainConfigure (c : ListCmd) (s : State) : Host.Outcome State Fault Refusal :=
  .next (if begunF s c.fn then fwLater s c.fn 0x101 (domainEnd · c.fn)
    else fwRun s c.fn 0x101
      (fun s => rqPlen s .f c.fn == 32 && rsvd s .f c.fn 0 63 40 && rsvd s .f c.fn 0 31 8 && rsvd s .f c.fn 2 63 52 && rsvd s .f c.fn 3 63 32 &&
        decide (ethCount s c.fn ≤ 1048576) && dirsOk s c.fn)
      (onlyZero c.fn) (fun s => if s.parts.isEmpty then ethCheck c.list c.fn s else some (.state, [])) (domainStart · c.fn c.list))

/-! ### TIME_MEASURE (R410, R645) -/

/-- A port's measurement begun. -/
def measureStart (s : State) (n : Nat) : State :=
  if lpActive s n then setLane s n { lane s n with measuring := true, samples := [], ptx := 0, prx := 0 } else s

/-- OFS of a port rounded to the nearest ns. -/
def offsetNs (s : State) (n : Nat) : Int := (signed 64 (rd s (Reg.lpTofs n)).toNat + 8) / 16

/-- TIME_MEASURE (R410): it ends when no port still measures; a port outside ACTIVE answers 0. -/
def execTimeMeasure (fn : Nat) (s : State) : Host.Outcome State Fault Refusal :=
  .next (if begunF s fn then fwLater s fn 0x102 (fun s =>
      if (List.range 16).any fun n => lpActive s n && (lane s n).measuring then s
      else answerOk s .f fn ((List.range 16).map fun n => if lpActive s n then unsigned 64 (offsetNs s n) else 0))
    else fwRun s fn 0x102 (fun s => rqPlen s .f fn == 0) (onlyZero fn) (fun _ => none)
      (fun s => begin_ ((List.range 16).foldl measureStart s) .f fn))

/-! ### The parameter block (R538, R539) -/

/-- Counts and shares of a block, with the values that stand for 0. -/
def pbNrng (b : List Byte) : Nat := bits (blkWord b 0) 55 48
def pbNph (b : List Byte) : Nat := bits (blkWord b 0) 47 40
def pbRsvsh (b : List Byte) : Nat := let v := bits (blkWord b 0) 39 32; if v = 0 then 16 else v
def pbWmin (b : List Byte) : Nat := let v := bits (blkWord b 1) 63 48; if v = 0 then 1 else v
def pbWmax (b : List Byte) : Nat := let v := bits (blkWord b 1) 47 32; if v = 0 then 256 else v
def pbWeight (b : List Byte) : Nat := let v := bits (blkWord b 1) 31 16; if v = 0 then 16 else v
def pbCap (b : List Byte) : Nat := let v := bits (blkWord b 1) 15 0; if v = 0 then 1024 else v
def pbNxb (b : List Byte) : Nat := bits (blkWord b 2) 63 56
def pbNmd (b : List Byte) : Nat := bits (blkWord b 2) 55 48

/-- PBLEN that the counts of a block ask for. -/
def pbLen (b : List Byte) : Nat := 24 + 16 * pbNrng b + 8 * pbNph b + 8 * pbNxb b + 8 * pbNmd b

/-- Range records: BASE and LEN. -/
def pbRanges (b : List Byte) : List (Nat × Nat) := (List.range (pbNrng b)).map fun i => (blkWord b (3 + 2 * i), blkWord b (4 + 2 * i))

/-- Phase, crossbar and descriptor records. -/
def pbPhases (b : List Byte) : List Nat := (List.range (pbNph b)).map fun i => blkWord b (3 + 2 * pbNrng b + i)
def pbXbars (b : List Byte) : List Nat := (List.range (pbNxb b)).map fun i => blkWord b (3 + 2 * pbNrng b + pbNph b + i)
def pbDescs (b : List Byte) : List Nat := (List.range (pbNmd b)).map fun i => blkWord b (3 + 2 * pbNrng b + pbNph b + pbNxb b + i)

/-- Fields of the records. -/
def phTile (w : Nat) : Nat := bits w 63 58
def phPort (w : Nat) : Nat := bits w 57 54
def phMask (w : Nat) : Nat := bits w 15 0
def xbTile (w : Nat) : Nat := bits w 63 58
def xbCount (w : Nat) : Nat := bits w 28 16
def xbBase (w : Nat) : Nat := bits w 11 0
def mdMep (w : Nat) : Nat := bits w 63 60
def mdFirst (w : Nat) : Nat := bits w 40 32
def mdCount (w : Nat) : Nat := bits w 25 16

/-- Do two spans (first, count) overlap? -/
def spansMeet (a b : Nat × Nat) : Bool := decide (a.1 < b.1 + b.2) && decide (b.1 < a.1 + a.2)

/-- Does some element of a list meet a later one? -/
def anyPair {α : Type} (f : α → α → Bool) : List α → Bool
  | [] => false
  | a :: r => r.any (f a) || anyPair f r

/-- The first row of R539. -/
def pbMalformed (s : State) (b : List Byte) (len : Nat) : Bool :=
  let w0 := blkWord b 0
  bits w0 63 56 != 1 || len != pbLen b || bits w0 31 0 != 0 || bits (blkWord b 2) 47 0 != 0 || decide (16 < pbNrng b) || decide (64 < pbNph b) ||
    decide (64 < pbNxb b) || decide (48 < pbNmd b) ||
    ((pbRanges b).any fun r => r.2 == 0 || r.1 % 0xC000 != 0 || r.2 % 0xC000 != 0 || decide (0x9000000000 < r.1 + r.2)) ||
    decide (pbWeight b < pbWmin b) || decide (pbWmax b < pbWeight b) ||
    ((pbPhases b).any fun w => bits w 53 16 != 0 || phPort w == 4 || phPort w == 5 || ! portAt s (phTile w) (phPort w)) ||
    ((pbXbars b).any fun w => bits w 57 29 != 0 || bits w 15 12 != 0 || decide (4096 < xbBase w + xbCount w)) ||
    ((pbDescs b).any fun w => bits w 59 41 != 0 || bits w 31 26 != 0 || bits w 15 0 != 0 || decide (11 < mdMep w) || mdCount w == 0 ||
      decide (512 < mdCount w) || decide (512 < mdFirst w + mdCount w))

/-- Valid range entries of any MEP that a range record's pages meet, scrub entries or not. -/
def pagesMeet (s : State) (scrub : Bool) (r : Nat × Nat) : Bool :=
  ! (regsWhere s fun _ d _ off => d.name == .mepTrange && flag s off MepTrange.V && flag s off MepTrange.SCR == scrub &&
    spansMeet (r.1 / 0xC000, r.2 / 0xC000) (fld s off MepTrange.BASE, fld s off MepTrange.LIMIT - fld s off MepTrange.BASE)).isEmpty

/-- Does another tenant hold crossbar entries that a record names? -/
def xbTaken (s : State) (t w : Nat) : Bool :=
  (List.range 64).any fun u =>
    let r := Reg.rtrSchRange (xbTile w) u
    u != 0 && u != t && spansMeet (xbBase w, xbCount w) (fld s r RtrSchRange.BASE, fld s r RtrSchRange.COUNT)

/-- The second row of R539. -/
def pbConflict (s : State) (t : Nat) (b : List Byte) : Bool :=
  let other (o : Nat) : Bool := o != 0xFF && o != t
  anyPair spansMeet (pbRanges b) || ((pbRanges b).any (pagesMeet s false)) ||
    ((pbPhases b).any fun w => (List.range 16).any fun g => bit (phMask w) g && other (phaseOwner s (phTile w) (phPort w) g)) ||
    ((pbXbars b).any (xbTaken s t)) ||
    anyPair (fun x y => xbTile x == xbTile y && spansMeet (xbBase x, xbCount x) (xbBase y, xbCount y)) (pbXbars b) ||
    ((pbDescs b).any fun w => (List.range (mdCount w)).any fun i => other (descTenant s (.mep (mdMep w)) (mdFirst w + i)))

/-- Free range entries of a MEP (R540). -/
def freeRanges (s : State) (m : Nat) : List Nat := (List.range 256).filter fun i => ! flag s (Reg.mepTrange m i) MepTrange.V

/-- The third row of R539. -/
def pbNoRoom (s : State) (b : List Byte) : Bool :=
  ((List.range 12).any fun m => decide ((freeRanges s m).length < pbNrng b)) ||
    decide (240 < (s.parts.map PartRun.rsvsh).foldl (· + ·) 0 + pbRsvsh b)

/-! ### PARTITION_CREATE (R411) -/

/-- The tenant a partition command names. -/
def partTenant (s : State) (fn : Nat) : Nat := bits (rqW s .f fn 0) 63 56

/-- The tiles of twin pairs in a mask of pairs. -/
def twinTiles (m : Nat) : List Nat := ((List.range 32).filter (bit m)).flatMap fun p => [2 * p, 2 * p + 1]

/-- The checks of R411 and R539 in their order; W0 is TILES, W1 TENANT and TWIN, W3 PBLEN. -/
def createCheck (blk : HostData) (fn : Nat) (s : State) : Option (Reason × List Nat) :=
  let tiles := rqW s .f fn 0
  let t := bits (rqW s .f fn 1) 63 56
  let tw := twinTiles (bits (rqW s .f fn 1) 31 0)
  let early := firstOf [
    ((partOf s t).isSome, .state),
    ((maskTiles tiles ++ tw).any (fun x => ! good s x), .disabled),
    (tw.any (fun x => ! bit tiles x), .twinSplit),
    ((maskTiles tiles).any (fun x => owner s x != 0xFF && owner s x != t), .conflict)]
  match early, fetched blk with
  | some r, _ => some r
  | none, none => some (.fetch, [])
  | none, some b => firstOf [
      (pbMalformed s b (bits (rqW s .f fn 3) 15 0), .check),
      (pbConflict s t b, .conflict),
      (pbNoRoom s b, .noResource),
      ((pbRanges b).any (pagesMeet s true), .state)]

/-- Every arbiter of the package whose SRAM port lies at a good tile (R145). -/
def allArbs (s : State) : List Arb :=
  ((List.range 12).map Arb.mep) ++ (((List.range 64).filter (good s)).flatMap fun t => (List.range 4).map (Arb.sp t)) ++ ((List.range 64).map Arb.ru) ++
    ((List.range 16).map Arb.lp) ++ [.rte 0, .rte 1, .hp]

/-- A tenant's bounds and initial weight at an arbiter (R411 step 4, R538): they replace a pinned weight, and its pin ends (log 171, DESIGN CHOICE). -/
def boundsAt (t : Nat) (b : List Byte) (s : State) (a : Arb) : State :=
  let r := Reg.arbShare a t
  let s := wrReg s r (BitVec.ofNat 64 (pbWmax b * 2 ^ 48 + pbWmin b * 2 ^ 32 + pbCap b * 2 ^ 16 + pbWeight b))
  { s with arb := { s.arb with memos := eSet {} r { host := pbWeight b } s.arb.memos } }

/-- All groups of a port given to a tenant (R66). -/
def ownPort (t tile : Nat) (s : State) (port : Nat) : State :=
  let all := (List.range 8).foldl (fun w j => putBits w (8 * j + 7) (8 * j) t) 0
  let s := after (execPhaseOwnerWrite tile port false all s) s
  after (execPhaseOwnerWrite tile port true all s) s

/-- One phase group given to a tenant. -/
def ownGroup (t tile port : Nat) (s : State) (g : Nat) : State :=
  let hi := decide (8 ≤ g)
  let r := if hi then Reg.rtrPhaseHi tile port else Reg.rtrPhaseLo tile port
  after (execPhaseOwnerWrite tile port hi (putBits (rd s r).toNat (8 * (g % 8) + 7) (8 * (g % 8)) t) s) s

/-- A range record put into the first free entry of a MEP (R540). -/
def giveRange (t : Nat) (r : Nat × Nat) (s : State) (m : Nat) : State :=
  match (freeRanges s m).head? with
  | none => s
  | some i => wrReg s (Reg.mepTrange m i)
      (BitVec.ofNat 64 (t * 2 ^ 56 + 2 ^ 55 + (r.1 + r.2) / 0xC000 % 2 ^ 24 * 2 ^ 24 + r.1 / 0xC000 % 2 ^ 24))

/-- The endpoints that tenants share, with their windows (R541). -/
def sharedEps (s : State) : List Ep :=
  let c := myChip s
  ((List.range 12).map (mepEp c)) ++ ((List.range 16).map (lpEp c)) ++ [rteEp c 0, rteEp c 1, hpEp c] ++ (List.range 64).map fun t => ⟨c, t, 4⟩

/-- The tenant's share at an endpoint (R541). -/
def giveShare (t rsvsh : Nat) (s : State) (e : Ep) : State :=
  setFld s (Reg.rsvShare (epBlk e) t) RsvShare.SLOTS (rsvsh * reservable s e / 256)

/-- One descriptor owner set (R82). -/
def giveDesc (t m : Nat) (s : State) (n : Nat) : State :=
  let r := Reg.mepDescOwner m (n / 8)
  after (execMepDescOwnerWrite m (n / 8) (putBits (rd s r).toNat (8 * (n % 8) + 7) (8 * (n % 8)) t) s) s

/-- A partition created, in the order of R411. -/
def createRun (b : List Byte) (fn : Nat) (s : State) : State :=
  let tiles := rqW s .f fn 0
  let t := bits (rqW s .f fn 1) 63 56
  let twin := bits (rqW s .f fn 1) 31 0
  let s := after (execTwinMapWrite (fld s Reg.fabTwinMap FabTwinMap.TWIN ||| twin) s) s
  let s := (maskTiles tiles).foldl (fun s x => setFld s (Reg.rtrEpOwner x) RtrEpOwner.OWNER t) s
  let s := (maskTiles tiles).foldl (fun s x => ownPort t x (ownPort t x s 4) 5) s
  let s := (allArbs s).foldl (boundsAt t b) s
  let s := (pbRanges b).foldl (fun s r => (List.range 12).foldl (giveRange t r) s) s
  let s := (pbPhases b).foldl (fun s w => ((List.range 16).filter (bit (phMask w))).foldl (ownGroup t (phTile w) (phPort w)) s) s
  let s := (sharedEps s).foldl (giveShare t (pbRsvsh b)) s
  let s := (pbXbars b).foldl (fun s w =>
    wrReg s (Reg.rtrSchRange (xbTile w) t) (BitVec.ofNat 64 (xbCount w * 2 ^ 16 + xbBase w))) s
  let s := (pbDescs b).foldl (fun s w => (List.range (mdCount w)).foldl (fun s i => giveDesc t (mdMep w) s (mdFirst w + i)) s) s
  let s := { s with parts := s.parts ++ [⟨t, tiles, twin, pbRsvsh b, false⟩] }
  answerOk (setFnState s t 1) .f fn [tiles]

/-- PARTITION_CREATE (R411). -/
def execPartitionCreate (fn : Nat) (blk : HostData) (s : State) : Host.Outcome State Fault Refusal :=
  .next (fwRun s fn 0x110
    (fun s => rqPlen s .f fn == 32 && rsvd s .f fn 1 55 32 && rsvd s .f fn 2 63 52 && rsvd s .f fn 3 63 16 &&
      decide (1 ≤ bits (rqW s .f fn 1) 63 56) && decide (bits (rqW s .f fn 1) 63 56 ≤ 63))
    (onlyZero fn) (createCheck blk fn) (createRun ((fetched blk).getD []) fn))

/-! ### PARTITION_DESTROY (R412) -/

/-- PARTITION_DESTROY's start; it ends with its zero fill (ZERO_FILL_DONE). -/
def destroyStart (s : State) (fn : Nat) : State :=
  let t := partTenant s fn
  match partOf s t with
  | none => s
  | some p => begin_ (endQueued (destroyBegin s p) t) .f fn

/-- PARTITION_DESTROY (R412). -/
def execPartitionDestroy (fn : Nat) (s : State) : Host.Outcome State Fault Refusal :=
  .next (if begunF s fn then s
    else fwRun s fn 0x111
      (fun s => rqPlen s .f fn == 8 && rsvd s .f fn 0 55 0 && decide (1 ≤ partTenant s fn) && decide (partTenant s fn ≤ 63))
      (onlyZero fn) (fun s => match partOf s (partTenant s fn) with
        | none => some (.state, [])
        | some p => if p.dying then some (.state, []) else none) (destroyStart · fn))

/-! ### KEY_LOAD (R552, R553) -/

/-- USE, PH, SQP, RTE and PAIR of a request. -/
def klUse (s : State) (fn : Nat) : Nat := bits (rqW s .f fn 0) 15 12
def klPh (s : State) (fn : Nat) : Nat := bits (rqW s .f fn 0) 11 11
def klRte (s : State) (fn : Nat) : Nat := bits (rqW s .f fn 0) 8 8
def klPair (s : State) (fn : Nat) : Nat := bits (rqW s .f fn 0) 7 0

/-- The tenant of a key: the caller's, or the one function 0 names in W0 [63:56] (log 42, DESIGN CHOICE). -/
def klTenant (s : State) (fn : Nat) : Nat := actsFor fn (bits (rqW s .f fn 0) 63 56)

/-- The pair a request means: a tenant's LANE pair, or a QP pair. -/
def keyPairOf (s : State) (fn : Nat) (qpPair : Bool) : KeyPair :=
  if qpPair then eGet {} (256 * klRte s fn + klPair s fn) s.sec.qpKeys else eGet {} (klTenant s fn) s.sec.lane
def setPair (s : State) (fn : Nat) (qpPair : Bool) (k : KeyPair) : State :=
  if qpPair then { s with sec := { s.sec with qpKeys := eSet {} (256 * klRte s fn + klPair s fn) k s.sec.qpKeys } }
  else { s with sec := { s.sec with lane := eSet {} (klTenant s fn) k s.sec.lane } }

/-- Is a QP pair another tenant's (R552)? -/
def pairTaken (s : State) (fn : Nat) (qpPair : Bool) : Bool :=
  qpPair && (keyPairOf s fn true).tenant != 0 && (keyPairOf s fn true).tenant != klTenant s fn

/-- A key put into a pair's phase. -/
def KeyPair.put (k : KeyPair) (t ph key : Nat) : KeyPair :=
  if ph = 0 then { k with tenant := t, k0 := some key } else { k with tenant := t, k1 := some key }

/-- No partition, or one that is being destroyed. Log 92, DEDUCED. -/
def noPart (s : State) (t : Nat) : Bool := match partOf s t with
  | none => true
  | some p => p.dying

/-- The format that both forms of KEY_LOAD share. -/
def klFormat (fn : Nat) (s : State) : Bool :=
  rsvd s .f fn 0 55 16 && rsvd s .f fn 0 9 9 && decide (1 ≤ klTenant s fn) && decide (klTenant s fn ≤ 63)

/-- The wrapped key of a request and its parts (R553). -/
def klBlob (s : State) (fn : Nat) : List Byte := (rqBytes s .f fn).drop 8
def klKseq (s : State) (fn : Nat) : Nat := ofLE (slice (klBlob s fn) 97 8)

/-- A wrapped key opened; none for a failure of any kind. -/
def unwrap (s : State) (fn : Nat) : Option Nat :=
  let b := klBlob s fn
  let info := toLE 1 (klTenant s fn) ++ toLE 1 (klUse s fn) ++ toLE 1 (klPh s fn) ++ toLE 1 (klRte s fn) ++ toLE 1 (klPair s fn)
  let wrapKey := Config.deriveKey (slice b 0 97) info
  if klKseq s fn ≤ eGet 0 (klTenant s fn) s.sec.kseq then none
  else (Config.gcmOpen wrapKey (slice b 105 12) (info ++ toLE 8 (klKseq s fn)) (slice b 117 48)).map fun k => ofLE (slice k 0 32)

/-- The checks of a load. -/
def keyLoadCheck (fn : Nat) (s : State) : Option (Reason × List Nat) :=
  let t := klTenant s fn
  let q := klUse s fn == 2
  firstOf [
    (noPart s t, .state),
    (klUse s fn != 0 && pairTaken s fn q, .conflict),
    (klUse s fn == 0 && (ctrlKey s t).isSome, .state),
    (klUse s fn != 0 && (keyPairOf s fn q).cur == klPh s fn && ((keyPairOf s fn q).key (klPh s fn)).isSome, .state)]

/-- A key loaded, or SIGNATURE (R553). -/
def keyLoadRun (fn : Nat) (s : State) : State :=
  let t := klTenant s fn
  match unwrap s fn with
  | none => refuse (sigFail s t) .f fn .signature
  | some k =>
    let s := { s with sec := { s.sec with kseq := eSet 0 t (klKseq s fn) s.sec.kseq } }
    if klUse s fn = 0 then answerOk { s with sec := { s.sec with ctrl := s.sec.ctrl ++ [(t, k)] } } .f fn
    else
      let q := klUse s fn == 2
      answerOk (setPair s fn q ((keyPairOf s fn q).put t (klPh s fn) k)) .f fn

/-- KEY_LOAD with USE other than SWITCH (R552). -/
def execKeyLoad (fn : Nat) (s : State) : Host.Outcome State Fault Refusal :=
  .next (if klUse s fn = 3 then s
    else fwRun s fn 0x112
      (fun s => klFormat fn s && decide (klUse s fn ≤ 2) && decide (176 ≤ rqPlen s .f fn) && decide (rqPlen s .f fn ≤ 520))
      (fun s => if klUse s fn = 1 then none else openTo s fn (klTenant s fn)) (keyLoadCheck fn)
      (keyLoadRun fn))

/-- The checks of a switch: an empty phase is not made current. Log 91, DEDUCED. -/
def keySwitchCheck (fn : Nat) (s : State) : Option (Reason × List Nat) :=
  let q := bit (rqW s .f fn 0) 10
  firstOf [
    (noPart s (klTenant s fn), .state),
    (pairTaken s fn q, .conflict),
    (((keyPairOf s fn q).key (klPh s fn)).isNone, .state)]

/-- The phase made current. -/
def keySwitchRun (fn : Nat) (s : State) : State :=
  let q := bit (rqW s .f fn 0) 10
  answerOk (setPair s fn q { keyPairOf s fn q with cur := klPh s fn }) .f fn

/-- KEY_LOAD with USE = SWITCH (R548, R552). -/
def execKeySwitch (fn : Nat) (s : State) : Host.Outcome State Fault Refusal :=
  .next (if klUse s fn ≠ 3 then s
    else fwGated s fn 0x112 8 (klFormat fn) (fun s => openTo s fn (klTenant s fn)) (keySwitchCheck fn) [] (keySwitchRun fn))

/-! ### PARTITION_SEAL (R545, R554) -/

/-- The values of a tenant's protected registers in ascending offset (R554). Log 93, DEDUCED. -/
def measured (s : State) (t : Nat) : List Byte :=
  (((List.range (2 ^ 23)).map (8 * ·)).filter (protects s t)).flatMap fun off => toLE 8 (rd s off).toNat

/-- The digests of a tenant's keys in the order CTRL, LANE, QP pairs, each pair's phase 0 first. -/
def keyDigests (s : State) (t : Nat) : List Byte :=
  let two (k : KeyPair) : List Nat := k.k0.toList ++ k.k1.toList
  let ks := (ctrlKey s t).toList ++ two (eGet {} t s.sec.lane) ++ ((s.sec.qpKeys.filter fun k => k.2.tenant == t).flatMap fun k => two k.2)
  ks.flatMap fun k => Config.sha384 (toLE 32 k)

/-- The attestation record (R554). -/
def attestation (s : State) (t nonce tiles : Nat) : List Byte :=
  let body := slice (toLE 8 nonce ++ toLE 1 t ++ toLE 1 (fld s Reg.fabPkgInfo FabPkgInfo.GRADE) ++ toLE 1 (myChip s) ++ toLE 1 0 ++
    toLE 1 (bits s.mbx.version 23 16) ++ toLE 1 (bits s.mbx.version 15 8) ++ toLE 1 (bits s.mbx.version 7 0) ++ toLE 1 0 ++
    toLE 8 tiles ++ toLE 8 (timeNs s) ++ slice (Config.sha384 (measured s t)) 0 48 ++ slice (Config.sha384 (keyDigests s t)) 0 48) 0 128
  body ++ slice (Config.sign body) 0 96

/-- PARTITION_SEAL's effect: the record of what stood before, and the seal. -/
def sealRun (fn : Nat) (s : State) : State :=
  let tiles := ((partOf s fn).map PartRun.tiles).getD 0
  let a := attestation s fn (rqW s .f fn 0) tiles
  answerOk (sealNow s fn) .f fn (wordsOf a)

/-- PARTITION_SEAL (R413, R545): the tenant's own function alone may seal. -/
def execPartitionSeal (fn : Nat) (s : State) : Host.Outcome State Fault Refusal :=
  .next (fwRun s fn 0x113 (fun s => rqPlen s .f fn == 8) (fun _ => if fn = 0 then some .privilege else none)
    (fun s => firstOf [(noPart s fn || (ctrlKey s fn).isNone || sealedT s fn, .state)]) (sealRun fn))

/-! ### HOST_RECOVER (R413) -/

/-- Every function back from STATE 3, and every other slot IDLE. -/
def recoverFns (s : State) (fn : Nat) : State :=
  let s := (List.range 64).foldl (fun s f => setFnState s f (if f = 0 then 1 else 0)) s
  let mine := mbxSlot s .f fn
  let l := (s.mbx.slots.map fun x => (x.1, { x.2 with state := 0, taken := [], begun := false })).filter fun x => x.2 != {}
  let s := { s with mbx := { s.mbx with slots := l, fq := [fn], gq := [] } }
  answerOk (setSlot s .f fn mine) .f fn

/-- HOST_RECOVER (R413). Log 90, DEDUCED. -/
def execHostRecover (fn : Nat) (s : State) : Host.Outcome State Fault Refusal :=
  .next (fwRun s fn 0x114 (fun s => rqPlen s .f fn == 0) (onlyZero fn)
    (fun s => firstOf [((List.range 64).any (fun f => fnState s f != 3), .state)]) (recoverFns · fn))

end Sys2Proof.Machine
end

