-- ==== Sys2Proof/Machine/Services.lean ====
section
/-!
DEFINITION. The firmware commands for rings, channels, arbiters, counters, the remote transport and pattern bundles (R414-R420, R428-R433,
R627-R630).
-/
namespace Sys2Proof.Machine

/-! ### RING_CREATE, RING_DESTROY (R362, R414) -/

/-- RING and KIND of a request. -/
def rcRing (s : State) (fn : Nat) : Nat := bits (rqW s .f fn 2) 3 0
def rcCq (s : State) (fn : Nat) : Bool := bit (rqW s .f fn 2) 4

/-- SIZEL2 of an image (R359, R361). -/
def rcSize (s : State) (fn : Nat) : Nat := bits (rqW s .f fn 0) 17 13

/-- The format of RING_CREATE: no reserved bit of an image is set, and SIZEL2 is 4 to 16. Log 105, DEDUCED. -/
def ringFormat (fn : Nat) (s : State) : Bool :=
  rsvd s .f fn 2 63 5 && decide (4 ≤ rcSize s fn) && decide (rcSize s fn ≤ 16) &&
    (if rcCq s fn then rsvd s .f fn 0 6 1 && rqW s .f fn 1 == 0 else rsvd s .f fn 1 63 22)

/-- Which constraint of R362 a command-ring image breaks, counted from 1; 0 is none. -/
def ringFault (s : State) (fn : Nat) : Nat :=
  let w := rqW s .f fn 0
  let exu := bits w 8 7
  let tile := bits w 6 1
  let clash (r : Nat) : Bool :=
    let c := Reg.hpCrCfg fn r
    flag s c HpCrCfg.EN && fld s c HpCrCfg.CQ == bits w 12 9 &&
      (fld s c HpCrCfg.EXU != exu || fld s c HpCrCfg.XTILE != tile || fld s (Reg.hpCrCfgb fn r) HpCrCfgb.CQCTR != bits (rqW s .f fn 1) 21 11)
  if exu = 1 ∧ fn = 0 then 1
  else if exu = 1 ∧ (! good s tile || owner s tile != fn || oddTwin s tile) then 2
  else if (List.range 16).any clash then 3
  else 0

/-- A function without a partition has no rings to name (R414). -/
def noRings (s : State) (fn : Nat) : Bool := fn != 0 && fnState s fn != 1

/-- The checks of RING_CREATE. -/
def ringCreateCheck (fn : Nat) (s : State) : Option (Reason × List Nat) :=
  let r := rcRing s fn
  if rcCq s fn then firstOf [(noRings s fn, .conflict), (flag s (Reg.hpCqCfg fn r) HpCqCfg.EN, .state)]
  else naming (ringFault s fn) <| firstOf [
    (noRings s fn, .conflict),
    (flag s (Reg.hpCrCfg fn r) HpCrCfg.EN || ! flag s (Reg.hpCqCfg fn (bits (rqW s .f fn 0) 12 9)) HpCqCfg.EN, .state),
    (ringFault s fn != 0, .check)]

/-- The executor's base for the released records of a completion ring that no enabled ring was bound to (R363, log 179). -/
def cqBase (s : State) (fn r : Nat) : State :=
  let k := cq s fn (cqOf s fn r)
  setCq s fn (cqOf s fn r) { k with base := (exCtr s fn r HpCrCfgb.CQCTR + 2 ^ 32 - k.released % 2 ^ 32) % 2 ^ 32 }

/-- A ring enabled: its registers take the images, and its executor starts with slot 0 and phase 1, and with what its counters then hold (log 179). -/
def ringCreateRun (fn : Nat) (s : State) : State :=
  let r := rcRing s fn
  let img := BitVec.ofNat 64 (putBits (rqW s .f fn 0) 0 0 1)
  if rcCq s fn then answerOk (setCq (wrReg s (Reg.hpCqCfg fn r) img) fn r {}) .f fn
  else
    let shared := (List.range 16).any fun x => flag s (Reg.hpCrCfg fn x) HpCrCfg.EN && cqOf s fn x == bits (rqW s .f fn 0) 12 9
    let s := wrReg (wrReg s (Reg.hpCrCfg fn r) img) (Reg.hpCrCfgb fn r) (BitVec.ofNat 64 (bits (rqW s .f fn 1) 21 0))
    let s := setFld (wrReg s (Reg.hpCrStat fn r) 0) (Reg.hpCrStat fn r) HpCrStat.STATE 1
    let s := setRing s fn r { fetched := if hpRuns s fn r then 0 else exCtr s fn r HpCrCfgb.DBCTR }
    answerOk (if shared then s else cqBase s fn r) .f fn

/-- RING_CREATE (R414). -/
def execRingCreate (fn : Nat) (s : State) : Host.Outcome State Fault Refusal :=
  .next (fwGated s fn 0x120 24 (ringFormat fn) (fun _ => none) (ringCreateCheck fn) [] (ringCreateRun fn))

/-- The checks of RING_DESTROY: a completion ring still bound to an enabled command ring stays. -/
def ringDestroyCheck (fn : Nat) (s : State) : Option (Reason × List Nat) :=
  firstOf [
    (noRings s fn, .conflict),
    (rcCq s fn && (List.range 16).any (fun r => flag s (Reg.hpCrCfg fn r) HpCrCfg.EN && cqOf s fn r == rcRing s fn), .state)]

/-- A command ring stopped: it fetches no more, and what is fetched but not started is forgotten. -/
def ringStop (s : State) (fn r : Nat) : State :=
  setRing (setFld s (Reg.hpCrStat fn r) HpCrStat.STATE 0) fn r { ring s fn r with queue := [], t0 := none }

/-- EN cleared once the ring's started commands have written their records. -/
def ringDestroyEnd (s : State) (fn : Nat) : State :=
  let r := rcRing s fn
  if s.host.cmds.any (fromRing fn r) then s
  else answerOk (setRing (setFld s (Reg.hpCrCfg fn r) HpCrCfg.EN 0) fn r {}) .f fn

/-- RING_DESTROY's start. -/
def ringDestroyRun (fn : Nat) (s : State) : State :=
  let r := rcRing s fn
  if rcCq s fn then answerOk (setCq (setFld s (Reg.hpCqCfg fn r) HpCqCfg.EN 0) fn r {}) .f fn
  else ringDestroyEnd (begin_ (ringStop s fn r) .f fn) fn

/-- RING_DESTROY (R414): a command ring ends when its started commands have. -/
def execRingDestroy (fn : Nat) (s : State) : Host.Outcome State Fault Refusal :=
  .next (if begunF s fn then fwLater s fn 0x121 (ringDestroyEnd · fn)
    else fwGated s fn 0x121 24 (fun s => rqW s .f fn 0 == 0 && rqW s .f fn 1 == 0 && rsvd s .f fn 2 63 5) (fun _ => none)
      (ringDestroyCheck fn) [] (ringDestroyRun fn))

/-! ### CHANNEL_OPEN, CHANNEL_CLOSE, CHANNEL_RESET (R415) -/

/-- TILE and CHAN of a request. -/
def coTile (s : State) (fn : Nat) : Nat := bits (rqW s .f fn 0) 17 12
def coChan (s : State) (fn : Nat) : Nat := bits (rqW s .f fn 0) 11 0

/-- What the three channel commands check first: a good tile of the caller's own partition that has channels (R414, R396). -/
def chanPlace (s : State) (fn : Nat) : List (Bool × Reason) :=
  [(! good s (coTile s fn), .disabled), (owner s (coTile s fn) != fn || oddTwin s (coTile s fn), .conflict)]

/-- A command on a channel: `act` answers by its STATE. -/
def chanCommand (s : State) (fn cmd n : Nat) (more : List (State → Bool × Reason)) (act : State → Nat → Nat → State)
    (fault : State → Nat := fun _ => 0) : State :=
  fwGated s fn cmd n (fun s => rsvd s .f fn 0 63 18) (fun _ => none) (fun s => naming (fault s) (firstOf (chanPlace s fn ++ more.map (· s)))) []
    fun s => answerOk (act s (coTile s fn) (coChan s fn)) .f fn

/-- Why the open of a FREE channel fails (R325); 0 where it does not. -/
def openWhy (s : State) (fn : Nat) : Nat :=
  if chState s (coTile s fn) (coChan s fn) ≠ 0 then 0
  else openFault (chTry s (coTile s fn) (coChan s fn) (rqW s .f fn 1) (rqW s .f fn 2) (rqW s .f fn 3)) (coTile s fn) (coChan s fn)

/-- Does the open of a FREE channel fail (R325)? -/
def openRefused (s : State) (fn : Nat) : Bool := openWhy s fn != 0

/-- CHANNEL_OPEN's effect by the channel's STATE. -/
def channelOpenRun (fn : Nat) (s : State) (t c : Nat) : State :=
  match chState s t c with
  | 0 =>
    let s := (chOpen s t c (rqW s .f fn 1) (rqW s .f fn 2) (rqW s .f fn 3)).1
    let w := rqW s .f fn 4
    if bit w 63 then softWrite s (Reg.tniChHtab t (bits (rqW s .f fn 1) 35 28)) w else s
  | 2 => setChState s t c 1
  | _ => s

/-- CHANNEL_OPEN (R415). -/
def execChannelOpen (fn : Nat) (s : State) : Host.Outcome State Fault Refusal :=
  .next (chanCommand s fn 0x150 40
    [fun s => (chState s (coTile s fn) (coChan s fn) == 3, .state), fun s => (openRefused s fn, .check)] (channelOpenRun fn) (openWhy · fn))

/-- CHANNEL_CLOSE (R415, R327). -/
def execChannelClose (fn : Nat) (s : State) : Host.Outcome State Fault Refusal :=
  .next (chanCommand s fn 0x151 8
    [fun s => (chState s (coTile s fn) (coChan s fn) == 0 || chState s (coTile s fn) (coChan s fn) == 3, .state)] chClose)

/-- CHANNEL_RESET (R415, R346). Log 100, DEDUCED. -/
def execChannelReset (fn : Nat) (s : State) : Host.Outcome State Fault Refusal :=
  .next (chanCommand s fn 0x152 8 [fun s => (chState s (coTile s fn) (coChan s fn) == 0, .state)] fun s t c => chReset s t c true)

/-! ### ARB_SET (R416) -/

/-- The arbiter a request names. -/
def asArb (s : State) (fn : Nat) : Option Arb :=
  let i := bits (rqW s .f fn 0) 11 0
  match bits (rqW s .f fn 0) 15 12 with
  | 0 => if i < 12 then some (.mep i) else none
  | 1 => if i < 256 then some (.sp (i / 4) (i % 4)) else none
  | 2 => if i < 64 then some (.ru i) else none
  | 3 => if i < 16 then some (.lp i) else none
  | 4 => if i < 2 then some (.rte i) else none
  | 5 => if i = 0 then some .hp else none
  | _ => none

/-- OP and REQ of a request, and the register it means. -/
def asOp (s : State) (fn : Nat) : Nat := bits (rqW s .f fn 0) 23 22
def asReg (s : State) (fn : Nat) : Nat := Reg.arbShare ((asArb s fn).getD .hp) (bits (rqW s .f fn 0) 21 16)

/-- WEIGHT, WMIN and WMAX as they would stand. -/
def asWeight (s : State) (fn : Nat) : Nat := if asOp s fn < 2 then bits (rqW s .f fn 1) 15 0 else fld s (asReg s fn) ArbShare.WEIGHT
def asMin (s : State) (fn : Nat) : Nat := if asOp s fn = 3 then bits (rqW s .f fn 1) 47 32 else fld s (asReg s fn) ArbShare.WMIN
def asMax (s : State) (fn : Nat) : Nat := if asOp s fn = 3 then bits (rqW s .f fn 1) 63 48 else fld s (asReg s fn) ArbShare.WMAX

/-- The format of ARB_SET: WEIGHT stays within its bounds, except where only the pin goes. Log 101, DEDUCED. -/
def arbSetFormat (fn : Nat) (s : State) : Bool :=
  rqPlen s .f fn == 16 && rsvd s .f fn 0 63 24 && (asArb s fn).isSome &&
    (asOp s fn == 2 || (decide (asMin s fn ≤ asWeight s fn) && decide (asWeight s fn ≤ asMax s fn)))

/-- Is the SRAM port named that of a disabled tile? -/
def asDisabled (s : State) (fn : Nat) : Bool := match asArb s fn with
  | some (.sp t _) => ! good s t
  | _ => false

/-- ARB_SET's effect by OP. -/
def arbSetRun (fn : Nat) (s : State) : State :=
  let r := asReg s fn
  let m := eGet {} r s.arb.memos
  let memo (m : WeightMemo) : State := { s with arb := { s.arb with memos := eSet {} r m s.arb.memos } }
  let w := asWeight s fn
  let s := match asOp s fn with
    | 0 => setFld (memo { m with host := w, changed := none }) r ArbShare.WEIGHT w
    | 1 => setFld (memo { m with host := w, changed := none, pinned := true }) r ArbShare.WEIGHT w
    | 2 => memo { m with pinned := false }
    | _ => setFld (setFld (setFld s r ArbShare.WMIN (asMin s fn)) r ArbShare.WMAX (asMax s fn)) r ArbShare.CAP (bits (rqW s .f fn 1) 31 16)
  answerOk s .f fn

/-- ARB_SET (R416). -/
def execArbSet (fn : Nat) (s : State) : Host.Outcome State Fault Refusal :=
  .next (fwRun s fn 0x160 (arbSetFormat fn) (onlyZero fn) (fun s => firstOf [(asDisabled s fn, .disabled)]) (arbSetRun fn))

/-! ### COUNTER_READ (R418, R548, R559, R675) -/

/-- First offset and count of a request. -/
def crFirst (s : State) (fn : Nat) : Nat := bits (rqW s .f fn 0) 25 0
def crCount (s : State) (fn : Nat) : Nat := bits (rqW s .f fn 0) 41 32

/-- The offsets of a request. -/
def crOffs (s : State) (fn : Nat) : List Nat := (List.range (crCount s fn)).map fun i => crFirst s fn + 8 * i

/-- The format: a count in its range, and statistics counters in consecutive slots of one window (R675). -/
def counterFormat (fn : Nat) (s : State) : Bool :=
  rsvd s .f fn 0 63 42 && rsvd s .f fn 0 31 26 && crFirst s fn % 8 == 0 && decide (1 ≤ crCount s fn) &&
    decide (crCount s fn ≤ if gatedHere s fn then 253 else 254) &&
    (crOffs s fn).all fun off => (ctrSet s off).isSome && (blkOf off).map Prod.fst == (blkOf (crFirst s fn)).map Prod.fst

/-- May a function read a counter (R559)? Function 0 may always read FAB_TVIOL (R560). -/
def mayRead (s : State) (fn off : Nat) : Bool :=
  match ctrSet s off with
  | some none => fn == 0
  | some (some t) => if fn = 0 then ! sealedT s t || off == Reg.fabTviol t else t == fn
  | none => false

/-- Is a counter's unit without power? Log 102, DEDUCED. -/
def unpowered (s : State) (off : Nat) : Bool := match blkOf off with
  | some (b, _) => ! powered s b
  | none => true

/-- The counters answered: in clear, or sealed under the tenant's CTRL key (R548). -/
def counterRun (fn : Nat) (s : State) : State :=
  let vs := (crOffs s fn).map fun off => (seen s off).toNat
  if gatedHere s fn then
    let cseq := ofLE (slice (rqBytes s .f fn) 8 8)
    let ct := Config.gcmSeal ((ctrlKey s fn).getD 0) (toLE 8 cseq ++ toLE 4 1) [] (vs.flatMap (toLE 8))
    answerOk s .f fn (wordsOf (slice ct 0 (8 * vs.length + 16)))
  else answerOk s .f fn vs

/-- COUNTER_READ (R418). -/
def execCounterRead (fn : Nat) (s : State) : Host.Outcome State Fault Refusal :=
  .next (fwGated s fn 0x170 8 (counterFormat fn)
    (fun s => if (crOffs s fn).all (mayRead s fn) then none else some .privilege)
    (fun s => firstOf [((crOffs s fn).any (unpowered s), .disabled)]) [] (counterRun fn))

/-! ### QP_CREATE, QP_DESTROY, MR_REGISTER, MR_DEREGISTER (R419) -/

/-- Tenant, engine, block length and handle of a request. -/
def qcTenant (s : State) (fn : Nat) : Nat := actsFor fn (bits (rqW s .f fn 0) 63 56)
def qcRte (s : State) (fn : Nat) : Nat := bits (rqW s .f fn 0) 0 0
def qcLen (s : State) (fn : Nat) : Nat := bits (rqW s .f fn 2) 15 0
def qcHandle (s : State) (fn : Nat) : Nat := bits (rqW s .f fn 3) 31 0

/-- The format that the four commands share. Log 104, DEDUCED. -/
def qcFormat (fn : Nat) (s : State) : Bool :=
  rsvd s .f fn 0 55 1 && rsvd s .f fn 1 63 52 && rsvd s .f fn 2 63 16 && rsvd s .f fn 3 63 32 && decide (qcTenant s fn ≤ 63)

/-- The words of a parameter block. -/
def blkWords (b : List Byte) (n : Nat) : List Nat := (List.range n).map (blkWord b)

/-- The pair a block describes. -/
def qcPair (s : State) (fn : Nat) (b : List Byte) : QpRun := { tenant := qcTenant s fn, par := blkWords b 10 }

/-- The checks of QP_CREATE (R428). -/
def qpCreateCheck (blk : HostData) (fn : Nat) (s : State) : Option (Reason × List Nat) :=
  match fetched blk with
  | none => some (.fetch, [])
  | some b => firstOf [
      (qpBlockBad s (qcRte s fn) (qcPair s fn b) || qpBlockForeign s (qcRte s fn) (qcPair s fn b), .check),
      ((freeQp s (qcRte s fn)).isNone, .noResource)]

/-- A pair created; the answer is its number. -/
def qpCreateRun (blk : HostData) (fn : Nat) (s : State) : State :=
  let e := qcRte s fn
  match freeQp s e with
  | none => refuse s .f fn .noResource
  | some q => answerOk (qpMake s e q (qcPair s fn ((fetched blk).getD []))) .f fn [16384 * e + q]

/-- QP_CREATE (R428). -/
def execQpCreate (fn : Nat) (blk : HostData) (s : State) : Host.Outcome State Fault Refusal :=
  .next (fwGated s fn 0x180 32 (fun s => qcFormat fn s && qcLen s fn == 80) (fun s => openTo s fn (qcTenant s fn))
    (qpCreateCheck blk fn) [] (qpCreateRun blk fn))

/-- The queue pair that a handle names at the request's engine. -/
def qcQp (s : State) (fn : Nat) : Nat := qcHandle s fn % 16384

/-- Local accesses of a pair that have not ended (R465). -/
def qpBusy (s : State) (e q : Nat) : Bool :=
  let mine (w : Purpose) : Bool := match w with | .rte e' q' _ => e' == e && q' == q | _ => false
  (s.dyn.txns.any fun x => mine x.why) || s.dyn.waiting.any fun r => mine r.why

/-- QP_DESTROY's end, once every local access has ended. -/
def qpDestroyEnd (s : State) (fn : Nat) : State := if qpBusy s (qcRte s fn) (qcQp s fn) then s else answerOk s .f fn

/-- QP_DESTROY (R465). -/
def execQpDestroy (fn : Nat) (s : State) : Host.Outcome State Fault Refusal :=
  .next (if begunF s fn then fwLater s fn 0x181 (qpDestroyEnd · fn)
    else fwGated s fn 0x181 32 (fun s => qcFormat fn s && qcHandle s fn / 16384 == qcRte s fn) (fun s => openTo s fn (qcTenant s fn))
      (fun s => firstOf [
        (qpState s (qcRte s fn) (qcQp s fn) == 0, .state),
        ((qp s (qcRte s fn) (qcQp s fn)).tenant != qcTenant s fn, .conflict)]) []
      (fun s => qpDestroyEnd (begin_ (qpDestroy s (qcRte s fn) (qcQp s fn)) .f fn) fn))

/-- The region a block describes. -/
def qcRegion (s : State) (fn : Nat) (b : List Byte) : MrRun := { e := qcRte s fn, idx := 0, gen := 0, tenant := qcTenant s fn, w := blkWords b 4 }

/-- MR_REGISTER (R430, R431). -/
def execMrRegister (fn : Nat) (blk : HostData) (s : State) : Host.Outcome State Fault Refusal :=
  .next (fwGated s fn 0x182 32 (fun s => qcFormat fn s && qcLen s fn == 32) (fun s => openTo s fn (qcTenant s fn))
    (fun s => match fetched blk with
      | none => some (.fetch, [])
      | some b => firstOf [(mrBlockBad s (qcTenant s fn) (qcRegion s fn b), .check), ((freeMr s (qcRte s fn)).isNone, .noResource)]) []
    (fun s => match freeMr s (qcRte s fn) with
      | none => refuse s .f fn .noResource
      | some i =>
        let x := mrMake s (qcRte s fn) i (qcTenant s fn) (blkWords ((fetched blk).getD []) 4)
        answerOk x.1 .f fn [x.2]))

/-- The region a key names, at the request's engine and of its generation. -/
def qcMr (s : State) (fn : Nat) : Option MrRun :=
  s.rte.mrs.find? fun m => m.e == qcRte s fn && m.idx == qcHandle s fn / 2 ^ 18 && m.gen == qcHandle s fn % 2 ^ 18

/-- MR_DEREGISTER's end, once the placements admitted under the key are acknowledged. -/
def mrDropEnd (s : State) (fn : Nat) : State := if (qcMr s fn).isSome then s else answerOk s .f fn

/-- MR_DEREGISTER (R433). -/
def execMrDeregister (fn : Nat) (s : State) : Host.Outcome State Fault Refusal :=
  .next (if begunF s fn then fwLater s fn 0x183 (mrDropEnd · fn)
    else fwGated s fn 0x183 32 (qcFormat fn) (fun s => openTo s fn (qcTenant s fn))
      (fun s => match qcMr s fn with
        | none => some (.state, [])
        | some m => firstOf [(m.tenant != qcTenant s fn, .conflict), (! m.valid, .state)]) []
      (fun s => mrDropEnd (begin_ (mrDrop s (qcRte s fn) (qcHandle s fn / 2 ^ 18)) .f fn) fn))

/-! ### PATTERN_LOAD, PATTERN_RUN (R420, R627-R630) -/

/-- A bundle's header (R628). -/
def bundleOf (b : List Byte) : Bundle :=
  { family := ofLE (slice b 0 4), series := ofLE (slice b 4 4), len := ofLE (slice b 8 4), kinds := ofLE (slice b 12 2), flags := ofLE (slice b 14 1),
    runus := ofLE (slice b 16 4), records := ofLE (slice b 20 4) }

/-- The records of a body: each one's type is known, and together they fill it. A record's length counts its head (log 45, DESIGN CHOICE). -/
def recordsOk : Nat → List Byte → Bool
  | 0, b => b.isEmpty
  | n + 1, b =>
    let len := ofLE (slice b 4 4)
    decide (16 ≤ len) && decide (len ≤ b.length) && decide (ofLE (slice b 1 1) ≤ 2) && recordsOk n (b.drop len)

/-- Does a bundle verify (R628, R629)? -/
def bundleOk (b : List Byte) : Bool :=
  let h := bundleOf b
  let body := b.drop 168
  decide (168 ≤ b.length) && h.len == b.length && decide (h.records ≤ body.length) && ofLE (slice b 15 1) == 0 &&
    Config.verify (slice b 0 72) (slice b 72 96) && slice b 24 48 == Config.sha384 body && recordsOk h.records body

/-- The stored bundles of other families. -/
def otherBundles (s : State) (h : Bundle) : List Bundle := s.rel.bundles.filter fun x => x.family != h.family

/-- Would a bundle exceed the store or the run time of stage 6 (R627, R629)? -/
def bundleRoom (s : State) (h : Bundle) : Bool :=
  let l := otherBundles s h ++ [h]
  decide (l.length ≤ 8) && decide ((l.map Bundle.len).foldl (· + ·) 0 ≤ 64 * 2 ^ 20) &&
    decide (((l.filter fun x => bit x.flags 0).map Bundle.runus).foldl (· + ·) 0 ≤ 700000)

/-- The bundle of a request, at the length it names. -/
def plBundle (s : State) (fn : Nat) (d : HostData) : List Byte := slice ((fetched d).getD []) 0 (bits (rqW s .f fn 1) 31 0)

/-- The checks of PATTERN_LOAD (R629). -/
def patternCheck (d : HostData) (fn : Nat) (s : State) : Option (Reason × List Nat) :=
  let b := plBundle s fn d
  firstOf [
    ((fetched d).isNone, .fetch),
    (! bundleOk b, .signature),
    (s.rel.bundles.any (fun x => x.family == (bundleOf b).family && decide ((bundleOf b).series ≤ x.series)), .state),
    (! bundleRoom s (bundleOf b), .noResource)]

/-- A bundle inserted in FAMILY order, the order in which bundles run (R630). -/
def insBundle (h : Bundle) : List Bundle → List Bundle
  | [] => [h]
  | x :: r => if h.family < x.family then h :: x :: r else x :: insBundle h r

/-- PATTERN_LOAD (R420). -/
def execPatternLoad (fn : Nat) (bundle : HostData) (s : State) : Host.Outcome State Fault Refusal :=
  .next (fwRun s fn 0x190
    (fun s => rqPlen s .f fn == 16 && rsvd s .f fn 0 63 52 && rsvd s .f fn 1 63 32 && decide (1 ≤ bits (rqW s .f fn 1) 31 0) &&
      decide (bits (rqW s .f fn 1) 31 0 ≤ 16 * 2 ^ 20))
    (onlyZero fn) (patternCheck bundle fn) fun s =>
      let h := bundleOf (plBundle s fn bundle)
      answerOk { s with rel := { s.rel with bundles := insBundle h (otherBundles s h) } } .f fn)

/-- The windows of the units a request names. -/
def prUnits (s : State) (fn : Nat) : List Blk :=
  ((maskTiles (rqW s .f fn 0)).map Blk.rtr) ++ (((List.range 12).filter (bit (rqW s .f fn 1))).map Blk.mep) ++
    ((List.range 16).filter fun n => bit (rqW s .f fn 1) (12 + n)).map Blk.lp

/-- Is a unit of R623 named, and its kind covered by a stored bundle (R628)? A router's name covers the units at it. -/
def prNamed (s : State) (fn unit : Nat) : Bool :=
  let k := unit / 2 ^ 11
  let i := unit % 2 ^ 11
  (s.rel.bundles.any fun b => bit b.kinds k) &&
    (if k ≤ 4 then decide (i < 64) && bit (rqW s .f fn 0) i
     else if k = 5 then decide (i < 12) && bit (rqW s .f fn 1) i
     else k == 6 && decide (i < 16) && bit (rqW s .f fn 1) (12 + i))

/-- Does a partition use a unit? -/
def prUsed (s : State) (b : Blk) : Bool := heldAt s b || match b with
  | .rtr t => s.parts.any fun p => bit p.tiles t
  | _ => false

/-- PATTERN_RUN (R420, R630): the failures the units show are recorded and classified. -/
def execPatternRun (fn : Nat) (fails : List TestFail) (s : State) : Host.Outcome State Fault Refusal :=
  .next (fwRun s fn 0x191 (fun s => rqPlen s .f fn == 16 && rsvd s .f fn 1 63 28) (onlyZero fn)
    (fun s => firstOf [((prUnits s fn).any (prUsed s), .state)]) fun s =>
      let mine := fails.filter fun f => prNamed s fn f.unit
      answerOk (mine.foldl classify s) .f fn [(mine.map TestFail.unit).dedup.length])

end Sys2Proof.Machine
end

