-- ==== Sys2Proof/Machine/Dispatch.lean ====
section
/-!
DEFINITION. The meaning of every command: one arm per row of spec/opcode_table.json.
-/
namespace Sys2Proof.Machine

/-- What a command does to everything but the queue. -/
def exec (i : Instr) (s : State) : Host.Outcome State Fault Refusal :=
  match i with
  | .registerWrite t h v => Sys2Proof.Machine.execRegisterWrite t h v s
  | .lowHalfRead r => Sys2Proof.Machine.execLowHalfRead r s
  | .csrWr p => Sys2Proof.Machine.execCsrWr p s
  | .csrRd p => Sys2Proof.Machine.execCsrRd p s
  | .csrRsp p => Sys2Proof.Machine.execCsrRsp p s
  | .fabPkgInfoWrite v => Sys2Proof.Machine.execFabPkgInfoWrite v s
  | .twinMapWrite v => Sys2Proof.Machine.execTwinMapWrite v s
  | .phaseOwnerWrite tile port hi v => Sys2Proof.Machine.execPhaseOwnerWrite tile port hi v s
  | .mepDescOwnerWrite mep k v => Sys2Proof.Machine.execMepDescOwnerWrite mep k v s
  | .streamDescWrite b slot v => Sys2Proof.Machine.execStreamDescWrite b slot v s
  | .schArm t time => Sys2Proof.Machine.execSchArm t time s
  | .schDisarm t => Sys2Proof.Machine.execSchDisarm t s
  | .schArmCheckDone t => Sys2Proof.Machine.execSchArmCheckDone t s
  | .schTakeover t => Sys2Proof.Machine.execSchTakeover t s
  | .schStart t => Sys2Proof.Machine.execSchStart t s
  | .scheduledBeatArrival tile port b => Sys2Proof.Machine.execScheduledBeatArrival tile port b s
  | .streamBeatInject b n j k array => Sys2Proof.Machine.execStreamBeatInject b n j k array s
  | .streamBeatExtract b n j k => Sys2Proof.Machine.execStreamBeatExtract b n j k s
  | .mepStageReadIssue mep n j k => Sys2Proof.Machine.execMepStageReadIssue mep n j k s
  | .mepStackReadDone mep n j k psn => Sys2Proof.Machine.execMepStackReadDone mep n j k psn s
  | .mepAbsorbWrite mep => Sys2Proof.Machine.execMepAbsorbWrite mep s
  | .schedIngressBeat b ch => Sys2Proof.Machine.execSchedIngressBeat b ch s
  | .lpSbindWrite lp b => Sys2Proof.Machine.execLpSbindWrite lp b s
  | .rteSbindWrite rte b => Sys2Proof.Machine.execRteSbindWrite rte b s
  | .ruSchedBeat tile ctx => Sys2Proof.Machine.execRuSchedBeat tile ctx s
  | .slipAssert t tile => Sys2Proof.Machine.execSlipAssert t tile s
  | .slip m => Sys2Proof.Machine.execSlip m s
  | .freezeQuantumStart t => Sys2Proof.Machine.execFreezeQuantumStart t s
  | .freezeQuantumEnd t => Sys2Proof.Machine.execFreezeQuantumEnd t s
  | .slipLimitStop t => Sys2Proof.Machine.execSlipLimitStop t s
  | .requestSend id => Sys2Proof.Machine.execRequestSend id s
  | .routerFlitArrival tile port p k => Sys2Proof.Machine.execRouterFlitArrival tile port p k s
  | .rdReq p host => Sys2Proof.Machine.execRdReq p host s
  | .rdRsp p => Sys2Proof.Machine.execRdRsp p s
  | .wr p => Sys2Proof.Machine.execWr p s
  | .wrAck p => Sys2Proof.Machine.execWrAck p s
  | .mcWr tile f p => Sys2Proof.Machine.execMcWr tile f p s
  | .atFadd p => Sys2Proof.Machine.execAtFadd p s
  | .atSwap p => Sys2Proof.Machine.execAtSwap p s
  | .atCas p => Sys2Proof.Machine.execAtCas p s
  | .atRsp p => Sys2Proof.Machine.execAtRsp p s
  | .msg p => Sys2Proof.Machine.execMsg p s
  | .rsvReq p => Sys2Proof.Machine.execRsvReq p s
  | .rsvGrant p => Sys2Proof.Machine.execRsvGrant p s
  | .rsvRelease p => Sys2Proof.Machine.execRsvRelease p s
  | .cisternGrant ep => Sys2Proof.Machine.execCisternGrant ep s
  | .mcastEligible ep => Sys2Proof.Machine.execMcastEligible ep s
  | .rsvTimeout ep rec_ => Sys2Proof.Machine.execRsvTimeout ep rec_ s
  | .responseTimeout ep tag => Sys2Proof.Machine.execResponseTimeout ep tag s
  | .tagQuarantineEnd ep tag => Sys2Proof.Machine.execTagQuarantineEnd ep tag s
  | .leaseExpire ep rec_ => Sys2Proof.Machine.execLeaseExpire ep rec_ s
  | .ctrAdd p => Sys2Proof.Machine.execCtrAdd p s
  | .redContrib p => Sys2Proof.Machine.execRedContrib p s
  | .redResult p => Sys2Proof.Machine.execRedResult p s
  | .spSpill tile src m => Sys2Proof.Machine.execSpSpill tile src m s
  | .mbx p => Sys2Proof.Machine.execMbx p s
  | .ack p => Sys2Proof.Machine.execAck p s
  | .errRsp p => Sys2Proof.Machine.execErrRsp p s
  | .arbiterCycle a reqs accept => Sys2Proof.Machine.execArbiterCycle a reqs accept s
  | .creditRefill a => Sys2Proof.Machine.execCreditRefill a s
  | .transferPark a => Sys2Proof.Machine.execTransferPark a s
  | .watchdogBite a => Sys2Proof.Machine.execWatchdogBite a s
  | .arbStarvation a r => Sys2Proof.Machine.execArbStarvation a r s
  | .starvationPolicy a r => Sys2Proof.Machine.execStarvationPolicy a r s
  | .weightRestore a r => Sys2Proof.Machine.execWeightRestore a r s
  | .arbArm a time => Sys2Proof.Machine.execArbArm a time s
  | .arbDisarm a => Sys2Proof.Machine.execArbDisarm a s
  | .arbArmCheckDone a => Sys2Proof.Machine.execArbArmCheckDone a s
  | .slotTableSwitch a => Sys2Proof.Machine.execSlotTableSwitch a s
  | .shaperRefill a r => Sys2Proof.Machine.execShaperRefill a r s
  | .shaperEnable a r v => Sys2Proof.Machine.execShaperEnable a r v s
  | .gateArm b time => Sys2Proof.Machine.execGateArm b time s
  | .gateDisarm b => Sys2Proof.Machine.execGateDisarm b s
  | .gateArmCheckDone b => Sys2Proof.Machine.execGateArmCheckDone b s
  | .gateTakeover b => Sys2Proof.Machine.execGateTakeover b s
  | .gateEntryAdvance b => Sys2Proof.Machine.execGateEntryAdvance b s
  | .redCtxEnable tile c a b => Sys2Proof.Machine.execRedCtxEnable tile c a b s
  | .redCtxDisable tile c v => Sys2Proof.Machine.execRedCtxDisable tile c v s
  | .redEmit tile c => Sys2Proof.Machine.execRedEmit tile c s
  | .redEmitTimer tile c => Sys2Proof.Machine.execRedEmitTimer tile c s
  | .stepTimeout tile c => Sys2Proof.Machine.execStepTimeout tile c s
  | .shadowWindow tile n => Sys2Proof.Machine.execShadowWindow tile n s
  | .shadowMismatch tile c lane a b first spare => Sys2Proof.Machine.execShadowMismatch tile c lane a b first spare s
  | .shadowRecomputeDone tile lane spare voter => Sys2Proof.Machine.execShadowRecomputeDone tile lane spare voter s
  | .triggerArm b e v => Sys2Proof.Machine.execTriggerArm b e v s
  | .triggerDisarm b e v => Sys2Proof.Machine.execTriggerDisarm b e v s
  | .triggerFire b => Sys2Proof.Machine.execTriggerFire b s
  | .collective src => Sys2Proof.Machine.execCollective src s
  | .memberTimeout tile gidx => Sys2Proof.Machine.execMemberTimeout tile gidx s
  | .up src m => Sys2Proof.Machine.execUp src m s
  | .down m => Sys2Proof.Machine.execDown m s
  | .downFail m => Sys2Proof.Machine.execDownFail m s
  | .open_ m => Sys2Proof.Machine.execOpen m s
  | .close m => Sys2Proof.Machine.execClose m s
  | .result m => Sys2Proof.Machine.execResult m s
  | .abortReq m => Sys2Proof.Machine.execAbortReq m s
  | .abort m => Sys2Proof.Machine.execAbort m s
  | .freeze m => Sys2Proof.Machine.execFreeze m s
  | .start m => Sys2Proof.Machine.execStart m s
  | .spSpillReadback tile => Sys2Proof.Machine.execSpSpillReadback tile s
  | .sluiceDispatch src => Sys2Proof.Machine.execSluiceDispatch src s
  | .sluiceReturn src => Sys2Proof.Machine.execSluiceReturn src s
  | .sluiceCombine src => Sys2Proof.Machine.execSluiceCombine src s
  | .claim p => Sys2Proof.Machine.execClaim p s
  | .homeAdmission tile slots round => Sys2Proof.Machine.execHomeAdmission tile slots round s
  | .assign p => Sys2Proof.Machine.execAssign p s
  | .rows p => Sys2Proof.Machine.execRows p s
  | .return_ p => Sys2Proof.Machine.execReturn p s
  | .sluiceTimeout tile gidx => Sys2Proof.Machine.execSluiceTimeout tile gidx s
  | .inboxEnable tile slot a b => Sys2Proof.Machine.execInboxEnable tile slot a b s
  | .inboxDisable tile slot v => Sys2Proof.Machine.execInboxDisable tile slot v s
  | .send src => Sys2Proof.Machine.execSend src s
  | .ringWrite tile c => Sys2Proof.Machine.execRingWrite tile c s
  | .spillWriteTimeout tile c k => Sys2Proof.Machine.execSpillWriteTimeout tile c k s
  | .refillRead tile c => Sys2Proof.Machine.execRefillRead tile c s
  | .handlerDispatch tile => Sys2Proof.Machine.execHandlerDispatch tile s
  | .retire tile c n => Sys2Proof.Machine.execRetire tile c n s
  | .channelCoreClose tile c => Sys2Proof.Machine.execChannelCoreClose tile c s
  | .reopen tile c => Sys2Proof.Machine.execReopen tile c s
  | .channelCoreReset tile c => Sys2Proof.Machine.execChannelCoreReset tile c s
  | .strayAccess fn off isWrite => Sys2Proof.Machine.execStrayAccess fn off isWrite s
  | .crDoorbell fn r v => Sys2Proof.Machine.execCrDoorbell fn r v s
  | .cqDoorbell fn r v => Sys2Proof.Machine.execCqDoorbell fn r v s
  | .descriptorFetch fn r d => Sys2Proof.Machine.execDescriptorFetch fn r d s
  | .descriptorReread fn r d => Sys2Proof.Machine.execDescriptorReread fn r d s
  | .nop src => Sys2Proof.Machine.execNop src s
  | .copy src => Sys2Proof.Machine.execCopy src s
  | .writeInline src => Sys2Proof.Machine.execWriteInline src s
  | .atomic src => Sys2Proof.Machine.execAtomic src s
  | .mcastWrite src => Sys2Proof.Machine.execMcastWrite src s
  | .contrib src => Sys2Proof.Machine.execContrib src s
  | .ctrAddCommand src => Sys2Proof.Machine.execCtrAddCommand src s
  | .commandComplete id => Sys2Proof.Machine.execCommandComplete id s
  | .functionLevelReset fn => Sys2Proof.Machine.execFunctionLevelReset fn s
  | .hostLinkDown => Sys2Proof.Machine.execHostLinkDown s
  | .hostLinkDrainDone => Sys2Proof.Machine.execHostLinkDrainDone s
  | .hostLinkUp => Sys2Proof.Machine.execHostLinkUp s
  | .errlogRead fn => Sys2Proof.Machine.execErrlogRead fn s
  | .soundingTake fn noresp => Sys2Proof.Machine.execSoundingTake fn noresp s
  | .soundingPageRead fn => Sys2Proof.Machine.execSoundingPageRead fn s
  | .counterFreeze fn => Sys2Proof.Machine.execCounterFreeze fn s
  | .counterThaw fn => Sys2Proof.Machine.execCounterThaw fn s
  | .fabricReset fn => Sys2Proof.Machine.execFabricReset fn s
  | .fmpRecover fn => Sys2Proof.Machine.execFmpRecover fn s
  | .domainConfigure c => Sys2Proof.Machine.execDomainConfigure c s
  | .timeMeasure fn => Sys2Proof.Machine.execTimeMeasure fn s
  | .partitionCreate fn blk => Sys2Proof.Machine.execPartitionCreate fn blk s
  | .partitionDestroy fn => Sys2Proof.Machine.execPartitionDestroy fn s
  | .zeroFillDone t => Sys2Proof.Machine.execZeroFillDone t s
  | .keyLoad fn => Sys2Proof.Machine.execKeyLoad fn s
  | .keySwitch fn => Sys2Proof.Machine.execKeySwitch fn s
  | .partitionSeal fn => Sys2Proof.Machine.execPartitionSeal fn s
  | .hostRecover fn => Sys2Proof.Machine.execHostRecover fn s
  | .ringCreate fn => Sys2Proof.Machine.execRingCreate fn s
  | .ringDestroy fn => Sys2Proof.Machine.execRingDestroy fn s
  | .schedLoad fn list => Sys2Proof.Machine.execSchedLoad fn list s
  | .schedArm fn => Sys2Proof.Machine.execSchedArm fn s
  | .schedStop fn => Sys2Proof.Machine.execSchedStop fn s
  | .groupCreate fn list => Sys2Proof.Machine.execGroupCreate fn list s
  | .groupDestroy fn => Sys2Proof.Machine.execGroupDestroy fn s
  | .channelOpen fn => Sys2Proof.Machine.execChannelOpen fn s
  | .channelClose fn => Sys2Proof.Machine.execChannelClose fn s
  | .channelReset fn => Sys2Proof.Machine.execChannelReset fn s
  | .arbSet fn => Sys2Proof.Machine.execArbSet fn s
  | .arbConfigure fn list => Sys2Proof.Machine.execArbConfigure fn list s
  | .counterRead fn => Sys2Proof.Machine.execCounterRead fn s
  | .traceConfigure fn list => Sys2Proof.Machine.execTraceConfigure fn list s
  | .qpCreate fn blk => Sys2Proof.Machine.execQpCreate fn blk s
  | .qpDestroy fn => Sys2Proof.Machine.execQpDestroy fn s
  | .mrRegister fn blk => Sys2Proof.Machine.execMrRegister fn blk s
  | .mrDeregister fn => Sys2Proof.Machine.execMrDeregister fn s
  | .patternLoad fn bundle => Sys2Proof.Machine.execPatternLoad fn bundle s
  | .patternRun fn fails => Sys2Proof.Machine.execPatternRun fn fails s
  | .fmpWatchdogBite => Sys2Proof.Machine.execFmpWatchdogBite s
  | .heartbeat => Sys2Proof.Machine.execHeartbeat s
  | .qpPost src => Sys2Proof.Machine.execQpPost src s
  | .qpOpSend rte q => Sys2Proof.Machine.execQpOpSend rte q s
  | .pacedRelease rte q => Sys2Proof.Machine.execPacedRelease rte q s
  | .portSelect rte k => Sys2Proof.Machine.execPortSelect rte k s
  | .frameStart rte k => Sys2Proof.Machine.execFrameStart rte k s
  | .underrun rte k => Sys2Proof.Machine.execUnderrun rte k s
  | .startthDecay rte k => Sys2Proof.Machine.execStartthDecay rte k s
  | .write rte k f => Sys2Proof.Machine.execWrite rte k f s
  | .readReq rte k f => Sys2Proof.Machine.execReadReq rte k f s
  | .readRsp rte k f => Sys2Proof.Machine.execReadRsp rte k f s
  | .transportSend rte k f => Sys2Proof.Machine.execTransportSend rte k f s
  | .transportAtomic rte k f => Sys2Proof.Machine.execTransportAtomic rte k f s
  | .atomicRsp rte k f => Sys2Proof.Machine.execAtomicRsp rte k f s
  | .relay rte k f => Sys2Proof.Machine.execRelay rte k f s
  | .transportAck rte k f => Sys2Proof.Machine.execTransportAck rte k f s
  | .transportClose rte k f => Sys2Proof.Machine.execTransportClose rte k f s
  | .probe rte k f => Sys2Proof.Machine.execProbe rte k f s
  | .ethControlFrame rte k c => Sys2Proof.Machine.execEthControlFrame rte k c s
  | .ackDelayExpire rte q => Sys2Proof.Machine.execAckDelayExpire rte q s
  | .retransmitTimeout rte q => Sys2Proof.Machine.execRetransmitTimeout rte q s
  | .rnrRetry rte q => Sys2Proof.Machine.execRnrRetry rte q s
  | .pathProbe rte q => Sys2Proof.Machine.execPathProbe rte q s
  | .closeResend rte q => Sys2Proof.Machine.execCloseResend rte q s
  | .ethPortDown rte k => Sys2Proof.Machine.execEthPortDown rte k s
  | .ethPortUp rte k => Sys2Proof.Machine.execEthPortUp rte k s
  | .lpiEnter rte k => Sys2Proof.Machine.execLpiEnter rte k s
  | .lpiWake rte k => Sys2Proof.Machine.execLpiWake rte k s
  | .eeeTlvExchange rte k peer mac => Sys2Proof.Machine.execEeeTlvExchange rte k peer mac s
  | .macReset rte k => Sys2Proof.Machine.execMacReset rte k s
  | .laneBlockSend lp vc => Sys2Proof.Machine.execLaneBlockSend lp vc s
  | .linkFlit lp f => Sys2Proof.Machine.execLinkFlit lp f s
  | .align lp lanes => Sys2Proof.Machine.execAlign lp lanes s
  | .ts lp b => Sys2Proof.Machine.execTs lp b s
  | .sp lp b => Sys2Proof.Machine.execSp lp b s
  | .retry lp b => Sys2Proof.Machine.execRetry lp b s
  | .ctl lp b => Sys2Proof.Machine.execCtl lp b s
  | .tag lp b => Sys2Proof.Machine.execTag lp b s
  | .quiet lp b => Sys2Proof.Machine.execQuiet lp b s
  | .deep lp b => Sys2Proof.Machine.execDeep lp b s
  | .linkRetryTimeout lp => Sys2Proof.Machine.execLinkRetryTimeout lp s
  | .laneRecoveryFail lp => Sys2Proof.Machine.execLaneRecoveryFail lp s
  | .peerClockDetect lp => Sys2Proof.Machine.execPeerClockDetect lp s
  | .detectTimeout lp => Sys2Proof.Machine.execDetectTimeout lp s
  | .alignDone lp => Sys2Proof.Machine.execAlignDone lp s
  | .eqDone lp bad ctle => Sys2Proof.Machine.execEqDone lp bad ctle s
  | .configRetry lp => Sys2Proof.Machine.execConfigRetry lp s
  | .quietEnter lp => Sys2Proof.Machine.execQuietEnter lp s
  | .quietExit lp => Sys2Proof.Machine.execQuietExit lp s
  | .deepEnter lp => Sys2Proof.Machine.execDeepEnter lp s
  | .deepWake lp peer => Sys2Proof.Machine.execDeepWake lp peer s
  | .lanePeerLoss lp clock => Sys2Proof.Machine.execLanePeerLoss lp clock s
  | .lanePortCfgWrite lp off v => Sys2Proof.Machine.execLanePortCfgWrite lp off v s
  | .prbs lp v errs => Sys2Proof.Machine.execPrbs lp v errs s
  | .neslb lp v => Sys2Proof.Machine.execNeslb lp v s
  | .neplb lp v => Sys2Proof.Machine.execNeplb lp v s
  | .felb lp v errs => Sys2Proof.Machine.execFelb lp v errs s
  | .testModeOff lp v => Sys2Proof.Machine.execTestModeOff lp v s
  | .inj lp v => Sys2Proof.Machine.execInj lp v s
  | .injcrc lp v => Sys2Proof.Machine.execInjcrc lp v s
  | .injcode lp v => Sys2Proof.Machine.execInjcode lp v s
  | .injsp lp v => Sys2Proof.Machine.execInjsp lp v s
  | .scrubFillDone mep n => Sys2Proof.Machine.execScrubFillDone mep n s
  | .porstRelease inp => Sys2Proof.Machine.execPorstRelease inp s
  | .porstAssert => Sys2Proof.Machine.execPorstAssert s
  | .pllLock => Sys2Proof.Machine.execPllLock s
  | .hbmControllersReady => Sys2Proof.Machine.execHbmControllersReady s
  | .clockLoss => Sys2Proof.Machine.execClockLoss s
  | .rootPllRelock => Sys2Proof.Machine.execRootPllRelock s
  | .domainResetDone lp => Sys2Proof.Machine.execDomainResetDone lp s
  | .hbmControllerReset mep taken => Sys2Proof.Machine.execHbmControllerReset mep taken s
  | .undervoltage => Sys2Proof.Machine.execUndervoltage s
  | .sensorSample site temp volt => Sys2Proof.Machine.execSensorSample site temp volt s
  | .thermalTrip site => Sys2Proof.Machine.execThermalTrip site s
  | .fabricIdleEnter => Sys2Proof.Machine.execFabricIdleEnter s
  | .wakeLatch src => Sys2Proof.Machine.execWakeLatch src s
  | .wake v => Sys2Proof.Machine.execWake v s
  | .configScrub hit => Sys2Proof.Machine.execConfigScrub hit s
  | .coreClear tile => Sys2Proof.Machine.execCoreClear tile s
  | .injectionArm off v => Sys2Proof.Machine.execInjectionArm off v s
  | .transHalving => Sys2Proof.Machine.execTransHalving s
  | .freezeApply => Sys2Proof.Machine.execFreezeApply s
  | .traceFlush unit well => Sys2Proof.Machine.execTraceFlush unit well s
  | .pcSample tile pc stall => Sys2Proof.Machine.execPcSample tile pc stall s
  | .watchRoundClose tile k => Sys2Proof.Machine.execWatchRoundClose tile k s
  | .watchReadbackDone tile k => Sys2Proof.Machine.execWatchReadbackDone tile k s
  | .refclkLoss => Sys2Proof.Machine.execRefclkLoss s
  | .refclkReturn => Sys2Proof.Machine.execRefclkReturn s
  | .hbmControllerResetEnd mep => Sys2Proof.Machine.execHbmControllerResetEnd mep s
  | .memoryStageTimeout => Sys2Proof.Machine.execMemoryStageTimeout s
  | .reportQueueRelease fn v => Sys2Proof.Machine.execReportQueueRelease fn v s
  | .msiXVectorUnmask fn vec => Sys2Proof.Machine.execMsiXVectorUnmask fn vec s

end Sys2Proof.Machine
end

