-- ==== Sys2Proof/Machine/Idle.lean ====
section
/-!
DEFINITION. What the block does by itself in a step that has no command to carry out (log 2, DESIGN CHOICE): one fabric cycle, and one stage of start-up.
-/
namespace Sys2Proof.Machine

/-- Does the fabric clock run in this cycle (R572, R589)? -/
def fabRunsNow (s : State) : Bool := s.clk.run && ! s.clk.gated && ! s.clk.fabHeld

/-- One cycle without a command: the clock advances, each router output forwards at most one flit (R110), and start-up takes its next stage
(R592). -/
def idleStep (s : State) : State :=
  let t := tick s
  bootStep (if fabRunsNow s then routersStep t else t)

end Sys2Proof.Machine
end

