-- ==== Sys2Proof/Machine/Step.lean ====
section
/-!
DEFINITION. One step of the block: the command at the front of the queue, or an idle cycle.
-/
namespace Sys2Proof.Machine

/-- The next command is taken off the queue and carried out on the rest; with nothing waiting the block idles (log 2, DESIGN CHOICE). -/
def step (s : State) : Host.Outcome State Fault Refusal :=
  match s.pending with
  | [] => .next (idleStep s)
  | c :: r => exec c { s with pending := r }

/-- The command that a word of the table spells put at the front of the queue: no word spells one, so nothing changes. Log 9, DEDUCED. -/
def State.withFetchWord (s : State) (nbits w : Nat) : State :=
  match decodeTableWord nbits w with
  | some c => { s with pending := c :: s.pending }
  | none => s

end Sys2Proof.Machine
end

