-- ==== Sys2Proof/Safety.lean ====
section
/-!
DEFINITION. What the statements of this package say about two states: which components of the state an event may have touched, and what
every state a run passes through has in common.
-/
namespace Sys2Proof.Machine

/-- Memory and registers stand in their canonical form: keys strictly rising, and no entry that says what an unlisted one reads as. -/
def State.wf (s : State) : Bool := Memory.wf s.mem && tWf resetWord s.regs

/-- The components of the state, one for each field of `State`; the notes of R17 belong to the registers. -/
inductive Part where
  /-- The queue of waiting commands. -/
  | pending
  /-- Clocks and time. -/
  | clk
  /-- The counter of free values. -/
  | free
  /-- The register file, and what the fabric did to it in this cycle. -/
  | regs
  /-- The memory. -/
  | mem
  /-- The memory's poison marks. -/
  | memPoison
  /-- The control network and its half-register holders. -/
  | bus
  /-- The error log. -/
  | log
  /-- The dynamic network. -/
  | dyn
  /-- The scheduled network. -/
  | sch
  /-- Arbiters and gates. -/
  | arb
  /-- Trigger entries and counter additions on their way. -/
  | trig
  /-- The reduction units. -/
  | red
  /-- Collective operations and standpipe messages. -/
  | coll
  /-- The sluices. -/
  | slu
  /-- The channels. -/
  | chan
  /-- The host side: rings, commands, writes to the host. -/
  | host
  /-- The Ethernet engines. -/
  | rte
  /-- Keys and sequence state. -/
  | sec
  /-- The lane ports. -/
  | lane
  /-- The report queues. -/
  | rpt
  /-- The mailbox slots and the firmware. -/
  | mbx
  /-- The partitions. -/
  | parts
  /-- Start-up, power and clocks. -/
  | boot
  /-- Reliability: injections, history, quarantine. -/
  | rel
  /-- Trace, watch and sounding. -/
  | obs
  deriving DecidableEq, Repr

/-- A component holds after an event what it held before it. -/
def Part.same (s t : State) : Part → Prop
  | .pending => t.pending = s.pending
  | .clk => t.clk = s.clk
  | .free => t.free = s.free
  | .regs => t.regs = s.regs ∧ t.notes = s.notes
  | .mem => t.mem = s.mem
  | .memPoison => t.memPoison = s.memPoison
  | .bus => t.bus = s.bus
  | .log => t.log = s.log
  | .dyn => t.dyn = s.dyn
  | .sch => t.sch = s.sch
  | .arb => t.arb = s.arb
  | .trig => t.trig = s.trig
  | .red => t.red = s.red
  | .coll => t.coll = s.coll
  | .slu => t.slu = s.slu
  | .chan => t.chan = s.chan
  | .host => t.host = s.host
  | .rte => t.rte = s.rte
  | .sec => t.sec = s.sec
  | .lane => t.lane = s.lane
  | .rpt => t.rpt = s.rpt
  | .mbx => t.mbx = s.mbx
  | .parts => t.parts = s.parts
  | .boot => t.boot = s.boot
  | .rel => t.rel = s.rel
  | .obs => t.obs = s.obs

/-- Nothing outside the listed components has changed. -/
def Only (w : List Part) (s t : State) : Prop := ∀ p : Part, p ∉ w → p.same s t

/-- Every byte of memory reads as before. -/
def SameBytes (s t : State) : Prop := ∀ a, readByte t a = readByte s a

/-- The bytes `bs` stand from an address on, and every other byte of memory reads as before. -/
def Placed (a : Nat) (bs : List Byte) (s t : State) : Prop :=
  ∀ x, readByte t x = if a ≤ x ∧ x < a + bs.length then bs.getD (x - a) 0 else readByte s x

/-- Every register outside a set reads as before. -/
def RegsOutside (r : List Nat) (s t : State) : Prop := ∀ a, a ∉ r → rd t a = rd s a

/-- A packet passes every check its arrival makes, in its turn: the header code, the opcode, the tenant, the endpoint, the owner and the request's kind
(R105, R106, R135, R137, R141, R142). -/
def passesChecks (s : State) (p : Pkt) : Bool :=
  inTurn s p p.dst && hcrcOk p && (match p.opc with | .bad _ => false | _ => true) && tenantOk p &&
    (! (p.dst.dep == 0 || p.dst.dep == 5) || (good s p.dst.tile && (! oddTwin s p.dst.tile || oddOk p))) &&
    ownerOk s p && accepts p

/-- The state in which a packet that passes its checks acts: it is off the network, traced, and its grant is used. -/
def received (s : State) (p : Pkt) : State := useGrant (tracePkt (takeNet s p) (blkUnit (epBlk p.dst)) p 1 0xFF) p

/-- The endpoint serves a memory request (R36, R188, R205, R212, R380, R543, R562, R578): its format is one it can carry, and it is a MEP whose
controller is up and whose ranges let the tenant in, the
HP while the host is there and its function is ready, or a tile (whose router has judged the tenant). -/
def memServes (s : State) (p : Pkt) : Bool :=
  fmtSound p && match Ep_kind p.dst with
  | .mep m =>
    let sa := stackAddr (regOff p.addr)
    let n := max 1 p.nbytes
    ! s.boot.hbmDown.contains m && ! mepScrub s m sa n && mepAllows s p.tenant m sa n &&
      (! wellTraffic p || p.opc == .rdReq || inWell0 s p.addr n)
  | .hp => s.host.linkUp && fnState s p.tenant == 1
  | _ => true

/-- An answer to a request is on the network: its opcode, its data, and the request's other end, TAG and tenant (R108, R111). -/
def Answered (t : State) (p : Pkt) (opc : Opc) (data : List Byte) : Prop :=
  ∃ q ∈ t.dyn.net, q.opc = opc ∧ q.src = p.dst ∧ q.dst = p.src ∧ q.tag = p.tag ∧ q.tenant = p.tenant ∧ q.data = data

/-- Nothing the observer set up changes what a unit sends: the packet is untraced and no injection is armed at the unit (R631, R645). -/
def plainSend (s : State) (p : Pkt) : Bool := ! p.trc && ! flag s (injReg (epBlk p.dst)) Inj.ARM

/-- An access to a control-space offset reaches its register: the offset holds one, its unit is powered and answers, and no sealed tenant's
protection stops it (R45, R43, R544, R580, R670). -/
def reachable (s : State) (off : Nat) : Bool :=
  match blkOf off, regAt off with
  | some (b, _), some (h, _, _) => powered s b && oddAnswers s b h off && (sealedBy s off).isNone
  | _, _ => false

/-- A CSR packet that the access rules let through, in its turn: an intact header, an allowed tenant, the package's own FMP as its source, priority 3,
control space, 8 bytes, and a register it reaches (R33, R105, R135, R137, R141, R670). Log 108, DEDUCED. -/
def csrLetsThrough (s : State) (p : Pkt) : Bool :=
  inTurn s p p.dst && hcrcOk p && tenantOk p && (Ep_kind p.src == .fmp) && (p.src.chip == myChip s) && (p.prio == 3) && (region p.addr == 2) &&
    (p.nbytes == 8) && reachable (takeNet s p) (regOff p.addr)

/-- A standpipe message is meant for this package and passes the checks of its arrival, in its turn: its CHK, a kind that is not reserved, a tenant in
place (R284, R285). -/
def markPasses (s : State) (m : SpMsg) : Bool :=
  (SpDst m).chip == myChip s && spTurn s m && SpChk m == SpCheck m && (match SpKindOf m with | .bad _ => false | _ => true) && spTenantOk m

/-- A source offers a command that may start, and the context that would own it is alive (R374, R607). -/
def starts (s : State) (src : CmdSrc) (c : Cmd) : Bool := offered s src == some c && ! srcDead s src

/-- A function's command is in turn at its server: it alone waits there, in canonical slots, and its header is whole. -/
def slotTurn (s : State) (sv : Server) (fn cmd : Nat) : Bool :=
  mbxQueue s sv == [fn] && mbxTurn s sv fn cmd && (firstCheck s sv fn).isNone && bits (rqWord s sv fn 0) 39 16 == 0 &&
    decide (rqPlen s sv fn ≤ 2040) && rqPlen s sv fn % 8 == 0 && tWf (fun _ => ({} : MbxSlot)) s.mbx.slots

/-- A server takes up the command, or goes on with the one it has begun. -/
def takesUp (s : State) (sv : Server) (fn cmd : Nat) : Bool := slotTurn s sv fn cmd && ! (mbxSlot s sv fn).begun
def goesOn (s : State) (sv : Server) (fn cmd : Nat) : Bool := slotTurn s sv fn cmd && (mbxSlot s sv fn).begun

/-- A firmware command of `n` payload bytes and the records of its list passes the seal gate: its tenant is not sealed, or its trailer holds and no injection fails it (R547,
R632). -/
def gateOpens (s : State) (fn n : Nat) (recs : List Byte) : Bool :=
  gatedLen s fn n && (! gatedHere s fn || (rqPlen s .f fn != n && ! injArmed s .sec .seal (fun _ => true) && authOk s fn n recs))

/-- The state in which a gated command of `n` payload bytes acts: a sealed tenant's sequence number has advanced (R547). -/
def pastGate (s : State) (fn n : Nat) : State :=
  if gatedHere s fn then setFld s (Reg.secCseq fn) SecCseq.CSEQ (ofLE (slice (rqBytes s .f fn) n 8)) else s

/-- A slot's command is answered: DONE with a reason's status, the request's SEQ, the response header and words, and the queue without it (R393,
R394, R396). -/
def Told (s u : State) (sv : Server) (fn : Nat) (r : Reason) (ws : List Nat) : Prop :=
  let x := mbxSlot u sv fn
  x.state = 2 ∧ x.status = r.status.code ∧ x.doneSeq = (mbxSlot s sv fn).goSeq ∧
    eGet 0 0 x.rsp = rspHeader (rqCmd s sv fn) r.status r ws.length % 2 ^ 64 ∧ (∀ i, i < ws.length → eGet 0 (i + 1) x.rsp = ws.getD i 0 % 2 ^ 64) ∧
    mbxQueue u sv = (mbxQueue s sv).erase fn ∧ .mbxDone fn (slotKey sv fn % 2) ∈ u.host.out

/-- The pairs and ports of the engines stand in canonical tables. -/
def rteWf (s : State) : Bool := tWf (fun _ => ({} : QpRun)) s.rte.qps && tWf (fun _ => ({} : PortRun)) s.rte.ports

/-- A frame with an opcode reaches its pair (R444, R445, R490): its port carries frames, its destination port is the transport's, the engine accepts
it, and its check holds, which opens its body `bs`. -/
def frameIn (s : State) (e k : Nat) (f : Frame) (opc : TOpc) (bs : List Byte) : Bool :=
  f.bth.opc == opc && portOn s e k && f.dport == fld s (Reg.rteCfg e) RteCfg.UDPDST && accepted s e k f && openBody s e f == some bs

/-- A READY pair has not yet received a packet's PSN, which lies in its window (R446). -/
def freshAt (s : State) (e q : Nat) (f : Frame) : Bool :=
  let r := qp s e q
  qpState s e q == 1 && decide ((f.bth.psn + 2 ^ 32 - r.cum) % 2 ^ 32 < 1024) && ! r.map.contains f.bth.psn

/-- Room for an ACK of a pair in the control queue of its class at a port that carries frames (R480). -/
def ackRoom (s : State) (e k q : Nat) : Bool :=
  let c := (qp s e q).tclass
  portOn s e k && (((port s e k).ctl.any fun x => x.1 == c && x.2.q == q && x.2.f.bth.opc == .ack) ||
    decide (((port s e k).ctl.filter fun x => x.1 == c).length < 128))

/-- An ACK of a pair waits at a port. -/
def AckWaits (u : State) (e k q : Nat) : Prop := ∃ x ∈ (port u e k).ctl, x.2.q = q ∧ x.2.f.bth.opc = .ack

/-- The lane ports stand in a canonical table. -/
def laneWf (s : State) : Bool := tWf (fun _ => ({} : LaneRun)) s.lane.runs

/-- A control block of a kind that arrived whole, as the peer's coder sends it (R498, R500). -/
def goodCtl (kind : Nat) (b : CtlBlock) : Bool := b.kind == kind && b.wire.cols.isEmpty && ! b.badCode && b.crc == ctlCrc b

/-- A link flit that arrived whole, as the peer's coder sends it (R498, R502). -/
def goodFlit (f : LinkFlit) : Bool := f.wire.cols.isEmpty && ! f.badCode && f.crc == crc32 (slice f.bytes 0 152 ++ toLE 4 (f.seq * 2 ^ 20 + f.ack * 2 ^ 8 + f.low))

/-- Nothing takes an access to a control-space offset: no window, or a powered one without a register there (R668, R670). -/
def unassigned (s : State) (off : Nat) : Bool :=
  match blkOf off with
  | none => true
  | some (b, _) => powered s b && (regAt off).isNone

/-- The interval since a unit's last record of this detector, or of this array or link, has passed (R601, R622). -/
def mayRecord (s : State) (e : ErrRec) : Bool := ! heldBack s e

/-- No counter addition is on its way, no trigger entry is armed and no entry waits for firmware's rewrite: time can be carried forward without anything
else happening (R260, R602, R684). -/
def quiet (s : State) : Bool := s.trig.adds.isEmpty && s.trig.armed.isEmpty && s.rel.restore.isEmpty

/-- Tenant n's schedule has switched to its other bank in cycle g (R73): BANK has flipped, ROUNDQ_ACT holds ROUNDQ, ARMED and TIME are clear, STATE is 2, or
0 when the new bank is empty, the partition counter starts at 0, slip requests not yet resolved stand unless the schedule has stopped, and no
other register has changed. -/
def Switched (s u : State) (n g : Nat) : Prop :=
  let empty := bankEmpty s n (1 - schBank s n)
  RegsOutside [Reg.fabSchArm n, Reg.fabSchCtx n] s u ∧ u.clk.now = g ∧ schBank u n = 1 - schBank s n ∧
  flag u (Reg.fabSchCtx n) FabSchCtx.ARMED = false ∧ fld u (Reg.fabSchArm n) FabSchArm.TIME = 0 ∧
  fld u (Reg.fabSchCtx n) FabSchCtx.ROUNDQ_ACT = fld s (Reg.fabSchCtx n) FabSchCtx.ROUNDQ ∧ schState u n = (if empty then 0 else 2) ∧
  (schTen u n).start0 = g ∧ (schTen u n).frozen = 0 ∧ (schTen u n).slips = if empty then [] else (schTen s n).slips

/-- The state with its clock carried to a cycle that has not yet come (log 1, DEDUCED). -/
def later (s : State) (g : Nat) : State := { s with clk := { s.clk with now := max s.clk.now g } }

/-- The components a command may touch; it leaves every other one as it was. -/
def touches : Instr → List Part
  | .msiXVectorUnmask .. => [.host]
  | .heartbeat => [.mbx]
  | .twinMapWrite .. | .phaseOwnerWrite .. | .mepDescOwnerWrite .. | .inboxEnable .. | .reopen .. | .lanePortCfgWrite ..
  | .coreClear .. | .watchRoundClose .. | .refclkLoss | .refclkReturn => [.regs]
  | .transHalving => [.rel]
  | .reportQueueRelease .. => [.rpt]
  | .lpiWake .. => [.rte]
  | .mepStackReadDone .. => [.sch]
  | .refillRead .. => [.dyn, .chan]
  | .cqDoorbell .. => [.dyn, .host]
  | .lpSbindWrite .. => [.dyn, .sch]
  | .errlogRead .. | .soundingPageRead .. => [.host, .mbx]
  | .arbStarvation .. | .arbArm .. | .arbDisarm .. | .arbArmCheckDone .. | .shaperEnable .. | .gateArm .. | .gateDisarm ..
  | .gateArmCheckDone .. => [.regs, .arb]
  | .streamDescWrite .. => [.regs, .bus]
  | .handlerDispatch .. => [.regs, .chan]
  | .spSpill .. => [.regs, .coll]
  | .hostLinkUp => [.regs, .host]
  | .align .. | .tag .. | .quiet .. | .inj .. | .injcrc .. | .injcode .. | .injsp .. => [.regs, .lane]
  | .redCtxEnable .. => [.regs, .red]
  | .shadowWindow .. => [.regs, .rel]
  | .startthDecay .. => [.regs, .rte]
  | .schArm .. | .schDisarm .. | .schArmCheckDone .. => [.regs, .sch]
  | .triggerDisarm .. => [.regs, .trig]
  | .pllLock | .wakeLatch .. | .wake .. => [.clk, .regs, .boot]
  | .watchReadbackDone .. => [.free, .regs, .obs]
  | .timeMeasure .. => [.host, .lane, .mbx]
  | .patternLoad .. => [.host, .mbx, .rel]
  | .deep .. | .peerClockDetect .. | .alignDone .. | .eqDone .. | .deepWake .. | .prbs .. | .neslb .. | .neplb .. | .felb ..
  | .testModeOff .. => [.regs, .arb, .lane]
  | .porstRelease .. | .sensorSample .. => [.regs, .boot, .rel]
  | .sp .. => [.regs, .coll, .lane]
  | .slipAssert .. | .spSpillReadback .. => [.regs, .coll, .rel]
  | .crDoorbell .. => [.regs, .dyn, .host]
  | .partitionSeal .. | .hostRecover .. => [.regs, .host, .mbx]
  | .ctl .. => [.regs, .lane, .obs]
  | .fabPkgInfoWrite .. | .strayAccess .. => [.regs, .log, .rel]
  | .hbmControllersReady => [.regs, .mbx, .boot]
  | .scrubFillDone .. => [.regs, .mem, .memPoison]
  | .arbSet .. => [.regs, .arb, .host, .mbx]
  | .lowHalfRead .. => [.regs, .bus, .log, .rel]
  | .inboxDisable .. => [.regs, .dyn, .slu, .host]
  | .retire .. => [.regs, .log, .chan, .rel]
  | .descriptorFetch .. => [.regs, .log, .host, .rel]
  | .underrun .. | .probe .. => [.regs, .log, .rte, .rel]
  | .triggerArm .. => [.regs, .log, .trig, .rel]
  | .shadowMismatch .. => [.regs, .sch, .red, .rel]
  | .triggerFire .. => [.regs, .trig, .coll, .rel]
  | .nop .. => [.regs, .trig, .host, .obs]
  | .weightRestore .. | .shaperRefill .. | .gateTakeover .. | .gateEntryAdvance .. => [.clk, .regs, .arb, .trig, .rel]
  | .tagQuarantineEnd .. | .leaseExpire .. => [.clk, .regs, .dyn, .trig, .rel]
  | .clockLoss => [.clk, .regs, .log, .boot, .rel]
  | .schTakeover .. | .schStart .. | .streamBeatInject .. | .mepStageReadIssue .. | .freezeQuantumEnd .. => [.clk, .regs, .sch, .trig, .rel]
  | .fabricIdleEnter => [.clk, .regs, .trig, .boot, .rel]
  | .configRetry .. => [.clk, .regs, .trig, .lane, .rel]
  | .freezeApply => [.clk, .regs, .trig, .rel, .obs]
  | .pacedRelease .. | .portSelect .. | .ethControlFrame .. | .ackDelayExpire .. | .pathProbe .. | .closeResend .. | .ethPortUp ..
  | .lpiEnter .. | .eeeTlvExchange .. => [.clk, .regs, .trig, .rte, .rel]
  | .laneBlockSend .. => [.free, .regs, .arb, .coll, .lane]
  | .soundingTake .. => [.free, .regs, .host, .mbx, .obs]
  | .partitionCreate .. => [.regs, .arb, .host, .mbx, .parts]
  | .send .. | .copy .. | .writeInline .. | .atomic .. | .mcastWrite .. | .contrib .. | .ctrAddCommand .. =>
    [.regs, .dyn, .trig, .host, .obs]
  | .homeAdmission .. => [.regs, .dyn, .trig, .slu, .host]
  | .ts .. | .retry .. => [.regs, .log, .arb, .lane, .rel]
  | .channelCoreClose .. => [.regs, .log, .dyn, .chan, .rel]
  | .readReq .. | .transportAtomic .. => [.regs, .log, .dyn, .rte, .rel]
  | .ringCreate .. | .ringDestroy .. | .counterRead .. => [.regs, .log, .host, .mbx, .rel]
  | .pcSample .. => [.clk, .free, .regs, .trig, .rel, .obs]
  | .detectTimeout .. | .quietEnter .. | .quietExit .. | .deepEnter .. => [.clk, .regs, .arb, .trig, .lane, .rel]
  | .traceFlush .. => [.clk, .regs, .dyn, .trig, .rel, .obs]
  | .rnrRetry .. => [.clk, .regs, .dyn, .trig, .rte, .rel]
  | .injectionArm .. => [.clk, .regs, .log, .arb, .boot, .rel]
  | .schedIngressBeat .. => [.clk, .regs, .log, .sch, .trig, .rel]
  | .memoryStageTimeout => [.clk, .regs, .log, .trig, .boot, .rel]
  | .descriptorReread .. => [.clk, .regs, .log, .trig, .host, .rel]
  | .cisternGrant .. => [.free, .regs, .dyn, .lane, .rel, .obs]
  | .ruSchedBeat .. => [.free, .regs, .log, .sch, .red, .rel]
  | .counterFreeze .. | .counterThaw .. => [.regs, .coll, .host, .mbx, .rel, .obs]
  | .sluiceReturn .. => [.regs, .dyn, .trig, .slu, .host, .obs]
  | .starvationPolicy .. => [.regs, .log, .arb, .host, .rpt, .rel]
  | .channelOpen .. => [.regs, .log, .chan, .host, .mbx, .rel]
  | .up .. | .abortReq .. => [.regs, .log, .coll, .host, .rpt, .rel]
  | .patternRun .. => [.regs, .log, .host, .lane, .mbx, .rel]
  | .fmpRecover .. => [.regs, .log, .host, .mbx, .boot, .rel]
  | .fmpWatchdogBite => [.regs, .log, .host, .rpt, .mbx, .rel]
  | .qpCreate .. | .mrRegister .. | .mrDeregister .. => [.regs, .log, .host, .rte, .mbx, .rel]
  | .keyLoad .. | .keySwitch .. => [.regs, .log, .host, .sec, .mbx, .rel]
  | .redEmit .. | .redEmitTimer .. => [.clk, .free, .regs, .dyn, .trig, .red, .rel]
  | .linkRetryTimeout .. => [.clk, .regs, .log, .arb, .trig, .lane, .rel]
  | .stepTimeout .. => [.clk, .regs, .log, .trig, .red, .coll, .rel]
  | .mepAbsorbWrite .. => [.clk, .regs, .mem, .memPoison, .sch, .trig, .rel]
  | .hostLinkDrainDone => [.clk, .regs, .trig, .coll, .host, .parts, .rel]
  | .redCtxDisable .. => [.free, .regs, .dyn, .red, .lane, .rel, .obs]
  | .freeze .. => [.regs, .log, .coll, .host, .rpt, .rel, .obs]
  | .channelClose .. => [.regs, .log, .dyn, .chan, .host, .mbx, .rel]
  | .relay .. => [.regs, .log, .dyn, .trig, .coll, .rte, .rel]
  | .schedArm .. | .schedStop .. => [.regs, .log, .sch, .arb, .host, .mbx, .rel]
  | .slip .. => [.regs, .log, .sch, .coll, .host, .rpt, .rel]
  | .collective .. => [.regs, .log, .trig, .coll, .host, .rel, .obs]
  | .start .. => [.regs, .log, .trig, .coll, .host, .rpt, .rel]
  | .mcastEligible .. => [.clk, .free, .regs, .dyn, .trig, .lane, .rel, .obs]
  | .freezeQuantumStart .. | .slipLimitStop .. => [.clk, .regs, .log, .sch, .trig, .host, .rpt, .rel]
  | .sluiceTimeout .. => [.clk, .regs, .log, .trig, .coll, .slu, .host, .rel]
  | .laneRecoveryFail .. | .lanePeerLoss .. => [.free, .regs, .log, .dyn, .arb, .lane, .rel, .obs]
  | .scheduledBeatArrival .. => [.clk, .free, .regs, .log, .sch, .trig, .host, .rpt, .rel]
  | .thermalTrip .. => [.clk, .regs, .log, .trig, .coll, .host, .parts, .boot, .rel]
  | .streamBeatExtract .. => [.clk, .regs, .mem, .memPoison, .log, .sch, .trig, .rel, .obs]
  | .porstAssert => [.clk, .regs, .trig, .coll, .host, .mbx, .parts, .boot, .rel]
  | .qpPost .. | .ethPortDown .. | .macReset .. => [.free, .regs, .dyn, .trig, .host, .rte, .lane, .rel, .obs]
  | .csrRd .. | .routerFlitArrival .. | .rsvReq .. | .rsvGrant .. | .rsvRelease .. | .mbx .. | .linkFlit .. =>
    [.free, .regs, .log, .dyn, .host, .lane, .rpt, .rel, .obs]
  | .channelCoreReset .. => [.free, .regs, .mem, .memPoison, .dyn, .chan, .lane, .rel, .obs]
  | .sluiceCombine .. => [.regs, .mem, .memPoison, .log, .trig, .slu, .host, .rel, .obs]
  | .retransmitTimeout .. => [.clk, .free, .regs, .dyn, .trig, .host, .rte, .lane, .rel, .obs]
  | .spillWriteTimeout .. => [.clk, .free, .regs, .log, .dyn, .trig, .chan, .lane, .rel, .obs]
  | .csrRsp .. => [.free, .regs, .bus, .log, .dyn, .host, .lane, .rpt, .rel, .obs]
  | .rteSbindWrite .. => [.free, .regs, .dyn, .sch, .trig, .host, .rte, .lane, .rel, .obs]
  | .msg .. => [.free, .regs, .log, .dyn, .chan, .host, .lane, .rpt, .rel, .obs]
  | .rdReq .. => [.free, .regs, .log, .dyn, .host, .lane, .rpt, .boot, .rel, .obs]
  | .shadowRecomputeDone .. => [.free, .regs, .log, .dyn, .red, .host, .lane, .rpt, .rel, .obs]
  | .ctrAdd .. => [.free, .regs, .log, .dyn, .trig, .host, .lane, .rpt, .rel, .obs]
  | .qpOpSend .. | .write .. | .readRsp .. | .transportSend .. | .atomicRsp .. | .transportAck .. | .transportClose .. =>
    [.free, .regs, .log, .dyn, .trig, .host, .rte, .lane, .rel, .obs]
  | .hbmControllerReset .. => [.free, .regs, .mem, .memPoison, .dyn, .sch, .lane, .boot, .rel, .obs]
  | .ringWrite .. => [.free, .regs, .mem, .memPoison, .log, .dyn, .chan, .lane, .rel, .obs]
  | .frameStart .. => [.clk, .free, .regs, .log, .dyn, .trig, .host, .rte, .lane, .rel, .obs]
  | .commandComplete .. => [.clk, .regs, .log, .dyn, .trig, .coll, .slu, .host, .rte, .rel, .obs]
  | .hostLinkDown => [.free, .regs, .dyn, .trig, .coll, .host, .rte, .lane, .mbx, .rel, .obs]
  | .qpDestroy .. => [.free, .regs, .log, .dyn, .trig, .host, .rte, .lane, .mbx, .rel, .obs]
  | .atRsp .. => [.free, .regs, .log, .dyn, .trig, .host, .rte, .lane, .rpt, .rel, .obs]
  | .mcWr .. => [.free, .regs, .mem, .memPoison, .log, .dyn, .host, .lane, .rpt, .rel, .obs]
  | .sluiceDispatch .. => [.regs, .mem, .memPoison, .log, .dyn, .trig, .coll, .slu, .host, .rel, .obs]
  | .creditRefill .. | .transferPark .. | .watchdogBite .. | .slotTableSwitch .. =>
    [.clk, .free, .regs, .log, .dyn, .arb, .trig, .host, .rte, .lane, .rel, .obs]
  | .memberTimeout .. => [.clk, .regs, .mem, .memPoison, .log, .dyn, .trig, .coll, .slu, .host, .rel, .obs]
  | .channelReset .. => [.free, .regs, .mem, .memPoison, .log, .dyn, .chan, .host, .lane, .mbx, .rel, .obs]
  | .wr .. | .atFadd .. | .atSwap .. | .atCas .. | .hbmControllerResetEnd .. =>
    [.free, .regs, .mem, .memPoison, .log, .dyn, .host, .lane, .rpt, .boot, .rel, .obs]
  | .return_ .. => [.free, .regs, .mem, .memPoison, .log, .dyn, .slu, .host, .lane, .rpt, .rel, .obs]
  | .down .. | .downFail .. => [.regs, .mem, .memPoison, .log, .dyn, .trig, .coll, .slu, .host, .rpt, .rel, .obs]
  | .arbiterCycle .. => [.clk, .free, .regs, .log, .dyn, .arb, .trig, .red, .host, .rte, .lane, .rel, .obs]
  | .functionLevelReset .. => [.free, .regs, .log, .dyn, .trig, .coll, .slu, .host, .rte, .lane, .mbx, .rel, .obs]
  | .redContrib .. | .open_ .. | .close .. => [.free, .regs, .log, .dyn, .trig, .red, .coll, .host, .rte, .lane, .rpt, .rel, .obs]
  | .fabricReset .. => [.clk, .free, .regs, .dyn, .trig, .coll, .host, .rte, .lane, .mbx, .parts, .boot, .rel, .obs]
  | .rootPllRelock => [.clk, .free, .regs, .log, .dyn, .trig, .coll, .host, .rte, .lane, .mbx, .parts, .rel, .obs]
  | .groupDestroy .. => [.free, .regs, .log, .dyn, .trig, .red, .coll, .slu, .host, .rte, .lane, .mbx, .rel, .obs]
  | .zeroFillDone .. => [.free, .regs, .mem, .memPoison, .dyn, .sch, .red, .host, .sec, .lane, .mbx, .parts, .rel, .obs]
  | .claim .. | .assign .. | .rows .. => [.free, .regs, .mem, .memPoison, .log, .dyn, .trig, .coll, .slu, .host, .lane, .rpt, .rel, .obs]
  | .redResult .. | .result .. => [.free, .regs, .mem, .memPoison, .log, .dyn, .trig, .coll, .slu, .host, .rte, .lane, .rpt, .rel, .obs]
  | .abort .. => [.free, .regs, .mem, .memPoison, .log, .dyn, .trig, .red, .coll, .slu, .host, .lane, .rpt, .rel, .obs]
  | .requestSend .. => [.free, .regs, .mem, .memPoison, .log, .dyn, .trig, .red, .coll, .slu, .chan, .host, .rte, .lane, .rel, .obs]
  | .schedLoad .. | .arbConfigure .. | .traceConfigure .. =>
    [.clk, .free, .regs, .bus, .log, .dyn, .sch, .arb, .trig, .red, .slu, .host, .lane, .mbx, .boot, .rel, .obs]
  | .csrWr .. => [.clk, .free, .regs, .bus, .log, .dyn, .sch, .arb, .trig, .red, .slu, .host, .lane, .rpt, .boot, .rel, .obs]
  | .rsvTimeout .. | .responseTimeout .. =>
    [.clk, .free, .regs, .mem, .memPoison, .log, .dyn, .trig, .red, .coll, .slu, .chan, .host, .rte, .lane, .rel, .obs]
  | .configScrub .. => [.free, .regs, .log, .dyn, .sch, .trig, .red, .coll, .slu, .host, .rte, .sec, .lane, .rpt, .mbx, .rel, .obs]
  | .rdRsp .. | .errRsp .. =>
    [.free, .regs, .mem, .memPoison, .log, .dyn, .trig, .red, .coll, .slu, .chan, .host, .rte, .lane, .rpt, .rel, .obs]
  | .groupCreate .. => [.clk, .free, .regs, .bus, .log, .dyn, .sch, .arb, .trig, .red, .coll, .slu, .host, .lane, .mbx, .boot, .rel, .obs]
  | .registerWrite .. => [.clk, .free, .regs, .bus, .log, .dyn, .sch, .arb, .trig, .red, .slu, .host, .lane, .rpt, .mbx, .boot, .rel, .obs]
  | .domainConfigure .. =>
    [.clk, .free, .regs, .bus, .log, .dyn, .sch, .arb, .trig, .red, .slu, .host, .rte, .lane, .mbx, .boot, .rel, .obs]
  | .wrAck .. | .ack .. =>
    [.clk, .free, .regs, .mem, .memPoison, .log, .dyn, .trig, .red, .coll, .slu, .chan, .host, .rte, .lane, .rpt, .rel, .obs]
  | .partitionDestroy .. =>
    [.clk, .free, .regs, .mem, .memPoison, .log, .dyn, .sch, .trig, .red, .coll, .slu, .chan, .host, .rte, .lane, .mbx, .parts, .rel, .obs]
  | .domainResetDone .. =>
    [.clk, .regs, .mem, .memPoison, .bus, .dyn, .sch, .arb, .trig, .red, .coll, .slu, .chan, .host, .rte, .sec, .lane, .mbx, .parts, .boot, .rel, .obs]
  | .undervoltage =>
    [.clk, .regs, .mem, .memPoison, .bus, .log, .dyn, .sch, .arb, .trig, .red, .coll, .slu, .chan, .host, .rte, .sec, .lane, .rpt, .mbx, .parts, .boot, .rel, .obs]

/-- The commands that can change a byte of memory or a poison mark. -/
def storing (c : Instr) : Bool := (touches c).contains .mem || (touches c).contains .memPoison

/-- The commands that can change a key or the sequence state that goes with it. -/
def keying (c : Instr) : Bool := (touches c).contains .sec

end Sys2Proof.Machine
end

