-- ==== Sys2Proof/Certificates/Slice0/Obligations.lean ====
section
/-!
DEFINITION. What is claimed of the block: each statement formalises rules of the spec, or says what the model fixes where it names a log entry.
-/
open Sys2Proof Sys2Proof.Machine

/-- For every command c and state s whose queue is c followed by r, step s is exec c on s with the queue r: commands run first in, first out,
and whatever exec answers is the step's answer. (The queue is the model's, not the spec's.) -/
def Obligations.StepRunsFrontCommand : Prop :=
  ∀ (c : Instr) (r : List Instr) (s : State), s.pending = c :: r → step s = exec c { s with pending := r }

/-- With no command waiting a step never stops and queues nothing; and while fabric time runs, no start-up stage is at work (a stage other
than 2 to 7), no counter addition is on its way, no trigger entry is armed, no flit stands in a router and no scrubbed entry waits for
firmware, the state it answers is the one before with time moved on by exactly one cycle. That an idle step is one cycle is the model's
choice (log 2). -/
def Obligations.IdleStepLetsTimePass : Prop :=
  ∀ s : State, s.pending = [] →
    (∃ t, step s = .next t ∧ t.pending = []) ∧
    (s.clk.run = true → (stage s < 2 ∨ 7 < stage s) → s.trig.adds = [] → s.trig.armed = [] → s.dyn.vcs = [] → s.rel.restore = [] →
      step s = .next { s with clk := { s.clk with now := s.clk.now + 1 } })

/-- Before PORST_N is released every register reads as its Reset entry (resetWord), every byte of memory reads as a byte nothing has written,
nothing is marked poisoned, no command waits, fabric time stands at 0 and does not run, the fabric is held in reset and switched off, and
the host port is closed. That what the spec gives no reset value stands empty is log 6; what unwritten memory reads as is log 4. -/
def Obligations.ResetRegisters : Prop :=
  (∀ off, rd State.reset off = resetWord off) ∧ (∀ a, readByte State.reset a = memDefault a) ∧ State.reset.memPoison = [] ∧
  State.reset.pending = [] ∧ State.reset.clk.now = 0 ∧ State.reset.clk.run = false ∧ State.reset.clk.fabHeld = true ∧
  State.reset.clk.fabOff = true ∧ portOpen State.reset = false ∧ stage State.reset = 0

/-- Memory and registers stand in their canonical form at reset: sorted, without repeats, and with no entry that says what an unlisted one
reads as. -/
def Obligations.ResetIsCanonical : Prop :=
  State.reset.wf = true

/-- From every state, reached or not, whose memory and registers stand in canonical form, a step that answers a next state answers one in
canonical form, whatever command is at the front of the queue, and when the block idles: two states that read alike are the same data. -/
def Obligations.StepKeepsCanonicalForm : Prop :=
  ∀ s t : State, s.wf = true → step s = .next t → t.wf = true

/-- For every command and every state, exec answers a next state (it never faults and never refuses) that differs from the state before in the
components `touches` lists for the command and in no other: registers, memory and its poison marks, clocks, the error log, the dynamic and
the scheduled network, arbiters, triggers, reduction units, collectives, sluices, channels, host side, Ethernet engines, keys, lane ports,
report queues, mailbox, partitions, start-up, reliability and observation state are each unchanged by every command that does not list
them, and the queue by every command; and canonical memory and registers stay canonical. `touches` is the frame of each command: a command
without `regs` changes no register, one without `mem` no byte of memory, one without `sec` no key. -/
def Obligations.EveryCommandKeepsTheRest : Prop :=
  ∀ (c : Instr) (s : State), ∃ t, exec c s = .next t ∧ Only (touches c) s t ∧ (s.wf = true → t.wf = true)

/-- A command that is not one of the storing commands (`storing`: memory requests and multicasts, responses and returns that place data,
collective and sluice deliveries, ring and spill writes of channels, absorption, extraction, scrubbing and zero fills, and the clearing of
memory by start-up, resets and teardown) leaves every byte of memory and every poison mark as it is, from every state. -/
def Obligations.OnlyStoringCommandsChangeMemory : Prop :=
  ∀ (c : Instr) (s t : State), exec c s = .next t → storing c = false → SameBytes s t ∧ t.memPoison = s.memPoison

/-- The key store and the sequence state of the seal gate and of the lane and QP keys are changed by KEY_LOAD, KEY_SWITCH, the end of a
partition's zero fill, a configuration scrub that finds a key's entry uncorrectable, the end of a domain reset and the loss of supply, and
by no other command, from every state. -/
def Obligations.OnlyTheseCommandsChangeKeys : Prop :=
  ∀ (c : Instr) (s t : State), exec c s = .next t → keying c = false → t.sec = s.sec

/-- For every control-space offset and every field its register defines, a plain write leaves an RO or WO field as it was, gives an RW field
(and a descriptor's field) the written bits, clears in a W1C field exactly the bits written 1, and sets in a W1S field exactly the bits
written 1; a read returns the field's value, or zero for WO. Every bit that no field covers is zero after a write and in what a read
returns. -/
def Obligations.FieldAccessTypes : Prop :=
  ∀ (off : Nat) (old v : Word),
    (∀ d ∈ fieldsAt off,
      (∀ i, (getF (accessWrite old v (fieldsAt off)) d.f).testBit i =
        match d.acc with
        | .ro => (getF old d.f).testBit i
        | .wo => (getF old d.f).testBit i
        | .rw => (getF v d.f).testBit i
        | .desc => (getF v d.f).testBit i
        | .w1c => (getF old d.f).testBit i && ! (getF v d.f).testBit i
        | .w1s => (getF old d.f).testBit i || (getF v d.f).testBit i) ∧
      getF (accessRead old (fieldsAt off)) d.f = if d.acc = .wo then 0 else getF old d.f) ∧
    ∀ i, (∀ d ∈ fieldsAt off, i < d.f.lo ∨ d.f.hi < i) →
      (accessWrite old v (fieldsAt off)).getLsbD i = false ∧ (accessRead old (fieldsAt off)).getLsbD i = false

/-- Every REGISTER_WRITE and every LOW_HALF_READ, at any target and whatever the state, completes. For a control-space register that an access
reaches: a 64-bit write applies its value; a low-half write changes no register and holds its 32 bits; the high-half write that follows a
held low half applies the two halves together and lets the held half go; a low-half read returns the low half of what a read sees and
latches the high half; the high-half read that follows returns the latched half and lets it go, and one without a latched half returns the
current high half: a read changes no register. With the host link up, a BAR0 write of a full register that decodes now and is neither a
short nor a plain one acts on that register, and a BAR0 read in halves returns the same halves of what the function's register shows. -/
def Obligations.RegisterAccessInHalves : Prop :=
  (∀ (r : RegTarget) (h : RegHalf) (v : Nat) (s : State), ∃ t, exec (.registerWrite r h v) s = .next t) ∧
  (∀ (r : RegTarget) (hi : Bool) (s : State), ∃ t, exec (.lowHalfRead ⟨r, hi⟩) s = .next t ∧ t.mem = s.mem) ∧
  (∀ (off v : Nat) (s : State), reachable s off = true →
    exec (.registerWrite (.csr off) .full v) s = .next (applyWrite s off v)) ∧
  (∀ (off v : Nat) (s : State), reachable s off = true → ∃ t, exec (.registerWrite (.csr off) .low v) s = .next t ∧ Only [.bus] s t ∧
    heldOf t.bus.writeLatch (.csr off) = some (v % 2 ^ 32)) ∧
  (∀ (off v l : Nat) (s : State), reachable s off = true → heldOf s.bus.writeLatch (.csr off) = some l → ∃ u,
    exec (.registerWrite (.csr off) .high v) s = .next (applyWrite u off (v % 2 ^ 32 * 2 ^ 32 + l)) ∧ Only [.bus] s u ∧
    heldOf u.bus.writeLatch (.csr off) = none) ∧
  (∀ (off : Nat) (s : State), reachable s off = true → ∃ t, exec (.lowHalfRead ⟨.csr off, false⟩) s = .next t ∧ Only [.bus] s t ∧
    t.bus.lastRead.toNat = (seen s off).toNat % 2 ^ 32 ∧ heldOf t.bus.readLatch (.csr off) = some ((seen s off).toNat / 2 ^ 32)) ∧
  (∀ (off : Nat) (s : State), reachable s off = true → ∃ t, exec (.lowHalfRead ⟨.csr off, true⟩) s = .next t ∧ Only [.bus] s t ∧
    t.bus.lastRead = BitVec.ofNat 64 ((heldOf s.bus.readLatch (.csr off)).getD ((seen s off).toNat / 2 ^ 32)) ∧
    heldOf t.bus.readLatch (.csr off) = none) ∧
  (∀ (fn off v : Nat) (s : State), fn < 64 → s.host.linkUp = true → barOpen s fn (barReg fn off) = true → barReg fn off ≠ .stray →
    barShort fn (barReg fn off) = false → barPlain (barReg fn off) = false →
    exec (.registerWrite (.bar0 fn off) .full v) s = .next (barWrite s fn (barReg fn off) v)) ∧
  (∀ (fn off : Nat) (hi : Bool) (s : State), fn < 64 → s.host.linkUp = true → barOpen s fn (barReg fn off) = true → barReg fn off ≠ .stray →
    let w := barValue s fn (barReg fn off)
    let r := RegTarget.bar0 fn (off / 8 * 8)
    ∃ t, exec (.lowHalfRead ⟨.bar0 fn off, hi⟩) s = .next t ∧ Only [.bus] s t ∧
      t.bus.lastRead = BitVec.ofNat 64 (if hi then (heldOf s.bus.readLatch r).getD (w / 2 ^ 32) else w % 2 ^ 32) ∧
      heldOf t.bus.readLatch r = if hi then none else some (w / 2 ^ 32))

/-- A CSR_WR from the package's own FMP that the access rules let through applies the 8 bytes it carries to the register its address names,
and a CSR_RD reads it; with the packet untraced and no injection armed at the answering unit the one is answered by an ACK of ST_OK and
the other by a CSR_RSP with the 8 bytes a read sees. A CSR_RSP that arrives whole and answers a transaction in flight ends that
transaction and delivers the 8 bytes it carries. -/
def Obligations.ControlPacketsReachRegisters : Prop :=
  (∀ (p : Pkt) (s : State), csrLetsThrough s p = true →
    plainSend (applyWrite (takeNet s p) (regOff p.addr) (ofLE (slice p.data 0 8))) p = true → ∃ t, exec (.csrWr p) s = .next t ∧
      t.regs = (ackTo (applyWrite (takeNet s p) (regOff p.addr) (ofLE (slice p.data 0 8))) p .ok).regs ∧ Answered t p .ack [0]) ∧
  (∀ (p : Pkt) (s : State), csrLetsThrough s p = true → plainSend s p = true → ∃ t, exec (.csrRd p) s = .next t ∧
    t.mem = s.mem ∧ Answered t p .csrRsp (toLE 8 (seen (takeNet s p) (regOff p.addr)).toNat)) ∧
  (∀ (p : Pkt) (s u : State) (x : Txn) (whole : Bool), passesChecks s p = true → matchTxn (received s p) p = some (x, whole, u) →
    ∃ t, exec (.csrRsp p) s = .next t ∧ t.bus.lastRead = BitVec.ofNat 64 (ofLE (slice p.data 0 8)) ∧ t.dyn = u.dyn ∧ t.regs = u.regs ∧
      t.mem = s.mem)

/-- From canonical states: while every lane port is in RESET a write of FAB_PKG_INFO takes effect as its access types say and touches no other
register, and otherwise changes nothing. A write of FAB_TWIN_MAP gives each pair whose two tiles are good and unowned the written bit and
leaves every other pair's bit. A write of a router's phase owners, or of a MEP's descriptor owners, gives each of its eight fields the
written owner exactly when that changes nothing or when the old and the new owner are both stopped (and, for a descriptor, it is in no
bank), keeps it otherwise, and touches no other register. A write of one of the first three slots of a stream descriptor is held and
changes no register; a write of the fourth slot, unless a bank in use locks the descriptor, writes all four slots at once with the
reserved bits zero. -/
def Obligations.ConfigurationRegistersChangeUnderTheirRules : Prop :=
  (∀ (v : Nat) (s : State), s.wf = true → lanesHeld s = true → ∃ t, exec (.fabPkgInfoWrite v) s = .next t ∧
    rd t Reg.fabPkgInfo = accessWrite (rd s Reg.fabPkgInfo) (BitVec.ofNat 64 v) (fieldsAt Reg.fabPkgInfo) ∧
    RegsOutside [Reg.fabPkgInfo] s t) ∧
  (∀ (v : Nat) (s : State), lanesHeld s = false → exec (.fabPkgInfoWrite v) s = .next s) ∧
  (∀ (v : Nat) (s : State), s.wf = true → ∃ t, exec (.twinMapWrite v) s = .next t ∧
    ∀ p, p < 32 → bit (fld t Reg.fabTwinMap FabTwinMap.TWIN) p = if pairFree s p then bit v p else bit (fld s Reg.fabTwinMap FabTwinMap.TWIN) p) ∧
  (∀ (tile port v : Nat) (hi : Bool) (s : State), s.wf = true → tile < 64 → port < 11 → ∃ t,
    exec (.phaseOwnerWrite tile port hi v) s = .next t ∧
    RegsOutside [if hi then Reg.rtrPhaseHi tile port else Reg.rtrPhaseLo tile port] s t ∧
    ∀ j, j < 8 →
      let r := if hi then Reg.rtrPhaseHi tile port else Reg.rtrPhaseLo tile port
      let old := bits (rd s r).toNat (8 * j + 7) (8 * j)
      let new := bits v (8 * j + 7) (8 * j)
      bits (rd t r).toNat (8 * j + 7) (8 * j) = if old = new ∨ (ownerStopped s old = true ∧ ownerStopped s new = true) then new else old) ∧
  (∀ (mep k v : Nat) (s : State), s.wf = true → mep < 12 → k < 64 → ∃ t, exec (.mepDescOwnerWrite mep k v) s = .next t ∧
    RegsOutside [Reg.mepDescOwner mep k] s t ∧
    ∀ j, j < 8 →
      let old := bits (rd s (Reg.mepDescOwner mep k)).toNat (8 * j + 7) (8 * j)
      let new := bits v (8 * j + 7) (8 * j)
      bits (rd t (Reg.mepDescOwner mep k)).toNat (8 * j + 7) (8 * j) =
        if old = new ∨ (ownerStopped s old = true ∧ ownerStopped s new = true ∧ SdBanks (streamDesc s (.mep mep) (8 * k + j)) = 0) then new
        else old) ∧
  (∀ (b : Blk) (slot v : Nat) (s : State), slot / 4 < descCount b → slot % 4 < 3 → ∃ t, exec (.streamDescWrite b slot v) s = .next t ∧
    Only [.bus] s t ∧ (descSlot b slot, BitVec.ofNat 64 v) ∈ t.bus.slots) ∧
  (∀ (b : Blk) (n v : Nat) (w0 w1 w2 : Word) (s : State), s.wf = true → n < descCount b →
    s.bus.slots = [(descSlot b (4 * n), w0), (descSlot b (4 * n) + 8, w1), (descSlot b (4 * n) + 16, w2)] →
    descLocked s b n (descMask (w0.toNat + w1.toNat * 2 ^ 64 + w2.toNat * 2 ^ 128 + v % 2 ^ 64 * 2 ^ 192)) = false → ∃ t,
    exec (.streamDescWrite b (4 * n + 3) v) s = .next t ∧ t.bus.slots = [] ∧
    ∀ i, i < 4 → rd t (descSlot b (4 * n) + 8 * i) =
      BitVec.ofNat 64 (bits (descMask (w0.toNat + w1.toNat * 2 ^ 64 + w2.toNat * 2 ^ 128 + v % 2 ^ 64 * 2 ^ 192)) (64 * i + 63) (64 * i)))

/-- SCH_ARM, SCH_DISARM, SCH_ARM_CHECK_DONE, SCH_TAKEOVER and SCH_START complete for every tenant number, TIME and state. For tenants 1 to 63,
from canonical states: arming holds a nonzero TIME, clears ARMED and begins the check; disarming clears TIME and ARMED and takes a waiting
start back to stopped; the end of a check sets ARMED when every check passed (and, of a stopped or faulted schedule, STATE 1), and
otherwise records the first failure in ARMERR, clears TIME and ARMED, and takes a waiting start back to stopped. No other register, and no
other tenant's timing, changes. At a takeover of a running schedule, and at the start of a waiting one, with nothing armed to happen
meanwhile: the clock stands at the first round boundary, or the first multiple of 64, at or after TIME; BANK has flipped, ROUNDQ_ACT holds
ROUNDQ, ARMED and TIME are clear, STATE is 2, or 0 when the new bank is empty, the partition counter starts at 0, and slip requests not
yet resolved stand unless the schedule has stopped. -/
def Obligations.ScheduleArmsAndSwitches : Prop :=
  (∀ (n time : Nat) (s : State), ∃ u, exec (.schArm n time) s = .next u ∧ (n = 0 ∨ 64 ≤ n ∨ time = 0 → u = s)) ∧
  (∀ (n : Nat) (s : State), ∃ u, exec (.schDisarm n) s = .next u ∧ (n = 0 ∨ 64 ≤ n → u = s)) ∧
  (∀ (n : Nat) (s : State), ∃ u, exec (.schArmCheckDone n) s = .next u ∧ ((schTen s n).checking = false → u = s)) ∧
  (∀ (n : Nat) (s : State), ∃ u, exec (.schTakeover n) s = .next u ∧ (schState s n ≠ 2 → u = s)) ∧
  (∀ (n : Nat) (s : State), ∃ u, exec (.schStart n) s = .next u ∧ (schState s n ≠ 1 → u = s)) ∧
  (∀ (n time : Nat) (s : State), s.wf = true → 0 < n → n < 64 → 0 < time → ∃ u, exec (.schArm n time) s = .next u ∧
    RegsOutside [Reg.fabSchArm n, Reg.fabSchCtx n] s u ∧ rd u (Reg.fabSchArm n) = setF (rd s (Reg.fabSchArm n)) FabSchArm.TIME time ∧
    rd u (Reg.fabSchCtx n) = setF (rd s (Reg.fabSchCtx n)) FabSchCtx.ARMED 0 ∧
    u.sch = { s.sch with ten := eSet {} n { schTen s n with checking := true, armAt := s.clk.now } s.sch.ten }) ∧
  (∀ (n : Nat) (s : State), s.wf = true → 0 < n → n < 64 → ∃ u, exec (.schDisarm n) s = .next u ∧
    RegsOutside [Reg.fabSchArm n, Reg.fabSchCtx n] s u ∧ rd u (Reg.fabSchArm n) = setF (rd s (Reg.fabSchArm n)) FabSchArm.TIME 0 ∧
    flag u (Reg.fabSchCtx n) FabSchCtx.ARMED = false ∧ schState u n = (if schState s n = 1 then 0 else schState s n) ∧
    u.sch = { s.sch with ten := eSet {} n { schTen s n with checking := false } s.sch.ten }) ∧
  (∀ (n : Nat) (s : State), s.wf = true → 0 < n → n < 64 → (schTen s n).checking = true → ∃ u, exec (.schArmCheckDone n) s = .next u ∧
    RegsOutside [Reg.fabSchArm n, Reg.fabSchCtx n] s u ∧ fld u (Reg.fabSchCtx n) FabSchCtx.ARMERR = armCheck s n % 2 ^ fldWidth FabSchCtx.ARMERR ∧
    u.sch = { s.sch with ten := eSet {} n { schTen s n with checking := false } s.sch.ten } ∧
    (armCheck s n = 0 → flag u (Reg.fabSchCtx n) FabSchCtx.ARMED = true ∧ rd u (Reg.fabSchArm n) = rd s (Reg.fabSchArm n) ∧
      schState u n = if schState s n = 2 then 2 else 1) ∧
    (armCheck s n ≠ 0 → fld u (Reg.fabSchArm n) FabSchArm.TIME = 0 ∧ flag u (Reg.fabSchCtx n) FabSchCtx.ARMED = false ∧
      schState u n = if schState s n = 1 then 0 else schState s n)) ∧
  (∀ (n : Nat) (s : State), s.wf = true → quiet s = true → 0 < n → n < 64 → flag s (Reg.fabSchCtx n) FabSchCtx.ARMED = true → schState s n = 2 →
    let at_ := cycleAt (fld s (Reg.fabSchArm n) FabSchArm.TIME)
    let g := nextAt s n 0 + ceilDiv (at_ - nextAt s n 0) (roundLen s n) * roundLen s n
    ∃ u, exec (.schTakeover n) s = .next u ∧ s.clk.now ≤ g ∧ at_ ≤ g ∧ Switched s u n g) ∧
  (∀ (n : Nat) (s : State), s.wf = true → quiet s = true → 0 < n → n < 64 → flag s (Reg.fabSchCtx n) FabSchCtx.ARMED = true → schState s n = 1 →
    ∃ u, exec (.schStart n) s = .next u ∧ s.clk.now ≤ startCycle s n ∧ startCycle s n % 64 = 0 ∧
      cycleAt (fld s (Reg.fabSchArm n) FabSchArm.TIME) ≤ startCycle s n ∧ Switched s u n (startCycle s n))

/-- A beat of an inject stream that runs, whose source supplies its data, goes on the plane in its round cycle, carrying that data and its
stream's token, to the router port its descriptor names. A beat on its way to the named router input is judged in its crossbar cycle: when
every entry active there asks for its tenant and stream (and for a half beat, where it goes to the reduction unit), the beat goes out once
for each entry: to the next router's crossbar two cycles on, to a sink in the next cycle, into the reduction unit in this one; the output
of a reduction context takes each entry's token. A beat in no flight for which no entry is active is recorded as UNEXPECTED with its
tenant and goes nowhere; an entry active without a beat records MISSING and sends a poisoned beat with its token. A beat at a sink in its
delivery cycle that a running extract descriptor of that channel takes leaves the sink: a TNI with an SRAM cycle of its own writes it at
its address, a stream port's beat goes to the array, a MEP with room absorbs it. A MEP's staged read takes the place of the next crossing
that has none, unless all are occupied; its data fills that place, in a slot of its tenant since then that has room and is used; and in
the next slot with room of a tenant with absorbed beats the oldest of them is written to its stack, using the slot, and leaves the buffer,
all else as it was. -/
def Obligations.ScheduledBeatsMove : Prop :=
  (∀ (b : Blk) (n j k : Nat) (array bs : List Byte) (psn : Bool) (s : State), quiet s = true → runsNow s (descTenant s b n) = true →
    SdExtract (streamDesc s b n) = false → beatIn (streamDesc s b n) j k = true →
    let d := streamDesc s b n
    let g := nextAt s (descTenant s b n) (SdCycle d j k)
    streamOn (later s g) b n = true → beatData (later s g) b n d j k array = some (bs, psn) → ∃ u, exec (.streamBeatInject b n j k array) s = .next u ∧
      u.clk.now = max s.clk.now g ∧
      ⟨(descPort b d).1, (descPort b d).2, max s.clk.now g, ⟨⟨psn, SdHalf d, descTenant s b n, SdStream d⟩, bs⟩⟩ ∈ u.sch.flight) ∧
  (∀ (tile port : Nat) (x : Beat) (f : FlightBeat) (s : State), quiet s = true → frozen s x.tok.tenant = false →
    dueAt s tile port (some x) = some f →
    let s' := later { s with sch := { s.sch with flight := s.sch.flight.erase f } } f.due
    let es := activeFor s' tile port
    let out (e : Entry) : Beat := if 16 ≤ port then ⟨⟨f.beat.tok.psn, true, e.tenant, e.stream⟩, f.beat.data⟩ else f.beat
    injArmed s (.rtr tile) .sched (fun k => k == port) = false → (∀ e ∈ es, injArmed s (.rtr tile) .linkecc (fun k => k / 16 == e.out && k % 2 == 1) = false) →
    es ≠ [] → (∀ e ∈ es, port < 16 → e.tenant = f.beat.tok.tenant ∧ e.stream = f.beat.tok.stream ∧ (e.out = 10 → f.beat.tok.half = true)) →
    ∃ u, exec (.scheduledBeatArrival tile port (some x)) s = .next u ∧ Only [.clk, .regs, .sch] s u ∧ u.clk.now = max s.clk.now f.due ∧
      RegsOutside (es.map fun e => Reg.telLinkUtil tile e.out) s u ∧ u.sch = { s.sch with
        flight := s.sch.flight.erase f ++ (es.filter fun e => decide (e.out < 4)).map fun e =>
          ⟨[tile - 8, tile + 1, tile + 8, tile - 1].getD e.out 0, (e.out + 2) % 4, f.due + 2, out e⟩
        sinks := s.sch.sinks ++ (es.filter fun e => decide (4 ≤ e.out)).map fun e =>
          ⟨tile, e.out, e.ctx, out e, if e.out = 10 then f.due else f.due + 1⟩ }) ∧
  (∀ (tile port : Nat) (b : Beat) (s : State), frozen s b.tok.tenant = false → dueAt s tile port (some b) = none →
    injArmed s (.rtr tile) .sched (fun k => k == port) = false → activeFor s tile port = [] → port < 16 →
    exec (.scheduledBeatArrival tile port (some b)) s = .next (log s (faultRec tile port kUnexpected b.tok.tenant))) ∧
  (∀ (tile port : Nat) (e : Entry) (s : State), dueAt s tile port none = none → activeFor s tile port = [e] → tile < 64 → e.out < 4 →
    injArmed s (.rtr tile) .linkecc (fun k => k / 16 == e.out && k % 2 == 1) = false →
    ∃ u ds, exec (.scheduledBeatArrival tile port none) s = .next u ∧ u.log = (log s (faultRec tile port kMissing e.tenant)).log ∧
      u.sch = { s.sch with flight := s.sch.flight ++ [⟨[tile - 8, tile + 1, tile + 8, tile - 1].getD e.out 0, (e.out + 2) % 4, s.clk.now + 2,
        ⟨⟨true, e.inp == 10, e.tenant, e.stream⟩, ds⟩⟩] }) ∧
  (∀ (b : Blk) (n j k : Nat) (x : SinkBeat) (s : State), s.wf = true → quiet s = true → runsNow s (descTenant s b n) = true →
    SdExtract (streamDesc s b n) = true → beatIn (streamDesc s b n) j k = true →
    let d := streamDesc s b n
    let t := descTenant s b n
    let g := max s.clk.now (nextAt s t (SdCycle d j k))
    let bs := slice x.beat.data 0 (SdBytes d)
    streamOn (later s g) b n = true → (s.sch.sinks.find? fun y => y.tile == (descPort b d).1 && y.port == (descPort b d).2 && y.at_ == g && y.beat.tok.tenant == t &&
      y.beat.tok.stream == SdStream d) = some x → sinkTakes (later s g) b d j k t = true →
    ∃ u, exec (.streamBeatExtract b n j k) s = .next u ∧ u.clk.now = g ∧ u.sch.sinks = s.sch.sinks.erase x ∧
      (match b with
       | .tni tile => if SdPort d = 0 then u.sch.arrays = s.sch.arrays ∧ Placed (tileAddr tile (SdAddr d j k)) bs s u
                      else u.sch.arrays = s.sch.arrays ++ [⟨tile, n, bs, x.beat.tok.psn⟩] ∧ u.mem = s.mem
       | .mep m => u.sch.absorb = s.sch.absorb ++ [⟨m, n, SdAddr d j k, bs, x.beat.tok.psn, t⟩] ∧ u.mem = s.mem
       | _ => True)) ∧
  (∀ (m n j k : Nat) (x : Nat × Nat × Nat) (s : State), quiet s = true → SdExtract (streamDesc s (.mep m) n) = false →
    beatIn (streamDesc s (.mep m) n) j k = true →
    ((readsDue s m n j k).find? fun x => ! s.sch.stage.any fun p => p.is m n j k x.1 x.2.1) = some x →
    (s.sch.stage.filter fun p => p.mep == m).length < 16384 →
    ∃ u, exec (.mepStageReadIssue m n j k) s = .next u ∧ u.regs = s.regs ∧ u.clk.now = max s.clk.now x.2.2 ∧
      u.sch = { s.sch with stage := s.sch.stage ++ [⟨m, n, j, k, x.1, x.2.1, max s.clk.now x.2.2, none⟩] }) ∧
  (∀ (m n j k bank round at_ g : Nat) (psn : Bool) (l r : List StagePlace) (s : State),
    s.sch.stage = l ++ ⟨m, n, j, k, bank, round, at_, none⟩ :: r →
    slotSince s m (descTenant s (.mep m) n) at_ (SdBytes (streamDesc s (.mep m) n)) = some g →
    (∀ p ∈ l, ¬ (p.mep = m ∧ p.desc = n ∧ p.j = j ∧ p.k = k ∧ p.beat = none)) →
    let d := streamDesc s (.mep m) n
    let a := fabAddr 0 (ofStack m (SdAddr d j k))
    let v := useSlot s (.mep m) g (SdBytes d)
    exec (.mepStackReadDone m n j k psn) s = .next { v with sch := { v.sch with stage :=
      l ++ ⟨m, n, j, k, bank, round, at_, some (readMem s a (SdBytes d), psn || markedIn s a (SdBytes d))⟩ :: r } }) ∧
  (∀ (m g : Nat) (x : AbsorbBeat) (s : State), s.wf = true → quiet s = true →
    (((List.range 1024).map (s.clk.now + ·)).find? fun g => s.sch.absorb.any (absorbSlot s m g)) = some g →
    s.sch.absorb.find? (absorbSlot s m g) = some x →
    ∃ u, exec (.mepAbsorbWrite m) s = .next u ∧ u.clk.now = g ∧
      u.sch = { (useSlot (later s g) (.mep m) g x.data.length).sch with absorb := s.sch.absorb.erase x } ∧
      Placed (fabAddr 0 (ofStack m x.addr)) x.data s u)

/-- The first unfrozen beat delivered to a lane port or RTE channel enters, in its delivery cycle, that channel's ingress buffer when its
stream is bound there and fewer than 1,024 beats are held; unbound, it is discarded and recorded as UNEXPECTED. A lane-port binding with
4,096 gathered bytes sends the first 4,096 as one WR to ADDR plus the offset, and the offset moves on by 4,096, wrapping at WIN. An RTE
binding with RBYTES gathered posts them as one WRITE on its open pair of the same tenant, one of whose ports is up, RBYTES at most 128
KiB. A half beat steered into an enabled MODE 2 context of its tenant is taken off the crossbar, counted, and combined with what has
accumulated, and the beat that completes NOPS puts the value at the context's crossbar output six cycles after it entered. -/
def Obligations.ScheduledDataEntersUnits : Prop :=
  (∀ (b : Blk) (ch port : Nat) (x : SinkBeat) (s : State), port = (match b with | .rte _ => 7 + ch | _ => 6) →
    quiet s = true →
    (s.sch.sinks.find? fun y => y.tile == blkTile b && y.port == port && decide (s.clk.now ≤ y.at_) && ! frozen s y.beat.tok.tenant) = some x →
    (boundAt s b ch x.beat.tok = true → ingressCount s b ch < 1024 →
      exec (.schedIngressBeat b ch) s = .next { later s x.at_ with sch :=
        { s.sch with sinks := s.sch.sinks.erase x, ingress := s.sch.ingress ++ [⟨b, ch, x.beat⟩] } }) ∧
    (boundAt s b ch x.beat.tok = false → exec (.schedIngressBeat b ch) s =
      .next (log { later s x.at_ with sch := { s.sch with sinks := s.sch.sinks.erase x } }
        (faultRec (blkTile b) port kUnexpected x.beat.tok.tenant)))) ∧
  (∀ (lp b : Nat) (s : State), flag s (Reg.lpSbindA lp b) LpSbindA.V = true →
    let n := fld s (Reg.lpSbindA lp b) LpSbindA.TENANT
    let g := bindGather s (lp * 64 + b) (.lp lp) 0 n (fld s (Reg.lpSbindA lp b) LpSbindA.STREAM) 4096
    let r := eGet {} (lp * 64 + b) g.sch.binds
    let win := fld s (Reg.lpSbindC lp b) LpSbindC.WIN
    4096 ≤ r.gathered.length → ∃ u w, exec (.lpSbindWrite lp b) s = .next u ∧ Only [.dyn, .sch] s u ∧
      u.dyn.waiting = s.dyn.waiting ++ [w] ∧ w.pkt.opc = .wr ∧ w.pkt.addr = fld s (Reg.lpSbindB lp b) LpSbindB.ADDR + r.offset ∧
      w.pkt.nbytes = 4096 ∧ w.pkt.data = r.gathered.take 4096 ∧ w.pkt.tenant = n ∧
      u.sch.binds = eSet {} (lp * 64 + b) { r with offset := if win ≤ r.offset + 4096 then 0 else r.offset + 4096,
                                                   gathered := r.gathered.drop 4096, psn := false } g.sch.binds) ∧
  (∀ (e b : Nat) (s : State), flag s (Reg.rteSbindA e b) RteSbindA.V = true →
    let n := fld s (Reg.rteSbindC e b) RteSbindC.RBYTES
    let q := fld s (Reg.rteSbindA e b) RteSbindA.QP
    let key := 16384 + e * 64 + b
    let g := bindGather s key (.rte e) (fld s (Reg.rteSbindA e b) RteSbindA.CH) (fld s (Reg.rteSbindA e b) RteSbindA.TENANT)
      (fld s (Reg.rteSbindA e b) RteSbindA.STREAM) n
    let r := eGet {} key g.sch.binds
    n ≠ 0 → n ≤ 0x20000 → qpState s e q = 1 → n ≤ r.gathered.length → (qp s e q).tenant = fld s (Reg.rteSbindA e b) RteSbindA.TENANT →
    (qp s e q).ports.any (fun k => (port s e k).up) = true →
    ∃ u p, exec (.rteSbindWrite e b) s = .next u ∧
      u.rte.qps = eSet {} (16384 * e + q) { qp s e q with sendQ := (qp s e q).sendQ ++ [p], msn := ((qp s e q).msn + 1) % 2 ^ 24 } s.rte.qps ∧
      p.qop = 0 ∧ p.len = n ∧ p.inl = r.gathered.take n ∧ p.rva = fld s (Reg.rteSbindB e b) RteSbindB.RVA ∧ p.msn = (qp s e q).msn ∧
      u.sch.binds = eSet {} key { r with gathered := r.gathered.drop n, psn := false } g.sch.binds) ∧
  (∀ (tile ctx : Nat) (b : SinkBeat) (s : State), tWf (fun _ => ({} : RedRun)) s.red = true →
    (s.sch.sinks.find? fun y => y.tile == tile && y.port == 10 && y.ctx == ctx && ! frozen s y.beat.tok.tenant) = some b →
    let x := ctxAt s tile ctx
    let r := redRun s x
    let es := elemsOf (max 1 x.w) (slice b.beat.data 0 128)
    x.mode = 2 → ctxState s x ≠ 0 → b.beat.tok.tenant = x.tenant → ∃ u, exec (.ruSchedBeat tile ctx) s = .next u ∧
      u.sch.sinks = s.sch.sinks.erase b ∧
      (r.runN + 1 < x.nops → u.sch.flight = s.sch.flight ∧
        redRun u x = { r with acc := if r.acc = [] then es else (combineList x.op x.efmt r.acc es).1, runN := r.runN + 1,
                              runPsn := r.runPsn || b.beat.tok.psn }) ∧
      (x.nops ≤ r.runN + 1 → (redRun u x).runN = 0 ∧ ∃ f, u.sch.flight = s.sch.flight ++ [f] ∧ f.tile = tile ∧ f.port = 16 + ctx ∧
        f.due = b.at_ + 6 ∧ f.beat.tok.half = true ∧ f.beat.tok.tenant = x.tenant ∧ f.beat.tok.psn = (r.runPsn || b.beat.tok.psn)))

/-- A unit of a tenant that lacks a beat due at g + 32 sends one stamped SLIP message to the whole package with the low 8 bits of g. A SLIP
that arrives intact on its package, in its turn, for an allowed tenant raises SLIPS by 1 and puts its start, 32 cycles after the slip,
into the tenant's requests in order. A request whose start lies in the quantum in force is absorbed. With no quantum in force and a start
no earlier than the last thaw, within SLIPMAX quanta in a row, the tenant freezes from that start, QUANTA rises by 1, and its beats at
router inputs and on the links to them stand in the hold stores; past SLIPMAX its schedule stops in STATE 3, its beats and read-ahead data
leave the plane, and one record of kind SLIP_LIMIT and class UNIT is written and reported. A quantum ends 64 cycles after its start, the
hold stores give the tenant's beats back, and every beat of the tenant that was due in it or after is due 64 cycles later. Other tenants'
timing is as it was. -/
def Obligations.SlipsFreezeATenant : Prop :=
  (∀ (n tile : Nat) (s : State), ((slipUnits tile).any fun b => slips s n b) = true → injArmed s (.rtr tile) .spchk (fun _ => true) = false →
    exec (.slipAssert n tile) s = .next { s with coll := { s.coll with spNet := s.coll.spNet ++
      [(⟨myChip s, tile, 4⟩, SpStamp ⟨[spWord0 .slip n ⟨myChip s, 0, 0⟩ 0 0 true 0 0 0, s.clk.now % 256]⟩)] } }) ∧
  (∀ (m : SpMsg) (s : State), s.wf = true → markPasses s m = true → SpKindOf m = .slip →
    ∃ u, exec (.slip m) s = .next u ∧ RegsOutside [Reg.fabSchStat (SpTenant m)] s u ∧
      rd u (Reg.fabSchStat (SpTenant m)) =
        setF (rd s (Reg.fabSchStat (SpTenant m))) FabSchStat.SLIPS (fld s (Reg.fabSchStat (SpTenant m)) FabSchStat.SLIPS + 1) ∧
      u.sch = { s.sch with ten := eSet {} (SpTenant m) { schTen s (SpTenant m) with
        slips := insSorted (slipCycle s.clk.now (SpWord m 1) + 32) (schTen s (SpTenant m)).slips } s.sch.ten }) ∧
  (∀ (n st q : Nat) (rest : List Nat) (s : State), (schTen s n).slips = st :: rest → (schTen s n).quantum = some q → q ≤ st → st < q + 64 →
    exec (.freezeQuantumStart n) s = .next { s with sch := { s.sch with ten := eSet {} n { schTen s n with slips := rest } s.sch.ten } }) ∧
  (∀ (n st : Nat) (rest : List Nat) (s : State), s.wf = true → quiet s = true → (schTen s n).slips = st :: rest →
    (schTen s n).quantum = none → (schTen s n).thawed ≤ st → pastLimit s n st = false →
    let mine (f : FlightBeat) : Bool := f.beat.tok.tenant == n && decide (f.port < 16) && decide (max s.clk.now st ≤ f.due)
    ∃ u, exec (.freezeQuantumStart n) s = .next u ∧
      u.clk.now = max s.clk.now st ∧ RegsOutside [Reg.fabSchStat n] s u ∧
      rd u (Reg.fabSchStat n) = setF (rd s (Reg.fabSchStat n)) FabSchStat.QUANTA (fld s (Reg.fabSchStat n) FabSchStat.QUANTA + 1) ∧
      u.sch = { s.sch with
        hold := s.sch.hold ++ s.sch.flight.filter mine
        flight := s.sch.flight.filter fun f => ! mine f
        ten := eSet {} n { schTen s n with slips := rest, quantum := some st, consec :=
          if st = (schTen s n).thawed then (schTen s n).consec + 1 else 1 } s.sch.ten }) ∧
  (∀ (n q : Nat) (s : State), quiet s = true → (schTen s n).quantum = some q → ∃ u, exec (.freezeQuantumEnd n) s = .next u ∧
      u.clk.now = max s.clk.now (q + 64) ∧ u.regs = s.regs ∧
      u.sch = { s.sch with
        flight := (s.sch.hold.filter (fun f => f.beat.tok.tenant == n) ++ s.sch.flight).map fun f =>
          if f.beat.tok.tenant = n ∧ q ≤ f.due then { f with due := f.due + 64 } else f
        hold := s.sch.hold.filter fun f => ! f.beat.tok.tenant == n
        sinks := s.sch.sinks.map fun f => if f.beat.tok.tenant = n ∧ q ≤ f.at_ then { f with at_ := f.at_ + 64 } else f
        ten := eSet {} n { schTen s n with quantum := none, frozen := (schTen s n).frozen + 64, thawed := q + 64 } s.sch.ten }) ∧
  (∀ (n st : Nat) (rest : List Nat) (s : State), s.wf = true → (schTen s n).slips = st :: rest → (schTen s n).quantum = none →
    pastLimit s n st = true → n < 64 → ∃ u v, exec (.slipLimitStop n) s = .next u ∧ schState u n = 3 ∧
      v.log = s.log ∧ u = logReport v { errOf (unitCode .router 0) .sched 4 with kind := kSlipLimit, tenant := n } ∧
      u.sch.flight = (s.sch.flight.filter fun f => f.beat.tok.tenant != n) ∧
      u.sch.hold = (s.sch.hold.filter fun f => f.beat.tok.tenant != n) ∧
      u.sch.sinks = (s.sch.sinks.filter fun f => f.beat.tok.tenant != n) ∧
      ∀ p : StagePlace, p.mep < 12 → p.desc < 512 → (p ∈ u.sch.stage ↔ p ∈ s.sch.stage ∧ descTenant s (.mep p.mep) p.desc ≠ n))

/-- From canonical states, for a memory request that passes its arrival checks and that its endpoint serves, at an endpoint where no injection
is armed. A read leaves every byte as it was and is answered at its own priority with the NBYTES bytes at its address, marked where a line
of theirs is marked; a read of the HP is answered with what the host gives, marked when it is poisoned, and with ST_REGION_FAULT when the
host refuses. A write to a tile or a MEP places its data at its address and nothing else, a write to the HP goes to the host with the
ordering attribute HP_CFG gives data, and either is answered by WR_ACK. AT_FADD stores the sum, wrapping at its width, AT_SWAP the
operand, AT_CAS the swap value where the old value equals the compare value and otherwise the old value; each answers AT_RSP with the old
bytes. A flit of a multicast under way on its own package that passes its checks and finds room leaves its link and takes its place for
every branch of its router and, in the rectangle, for the tile; with the last flit, in its turn, its data is placed in the window of a
good tile of its tenant, and the tile answers with its own WR_ACK. The answer itself is AnswersGoBack. -/
def Obligations.MemoryRequestsAreServed : Prop :=
  (∀ (p : Pkt) (h : HostData) (s : State), s.wf = true → passesChecks s p = true → memServes (received s p) p = true →
    plainSend (received s p) p = true →
    (Ep_kind p.dst ≠ .hp → ∃ m, exec (.rdReq p h) s =
      .next (rspTo m p p.dst .rdRsp p.prio (readMem s p.addr p.nbytes) (markedIn s p.addr p.nbytes)) ∧ SameBytes s m) ∧
    (Ep_kind p.dst = .hp → ∃ m, SameBytes s m ∧ exec (.rdReq p h) s = .next (match h with
      | .ok bs => rspTo m p p.dst .rdRsp p.prio (slice bs 0 p.nbytes) false
      | .poisoned bs => rspTo m p p.dst .rdRsp p.prio (slice bs 0 p.nbytes) true
      | _ => errTo m p .regionFault))) ∧
  (∀ (p : Pkt) (s : State), s.wf = true → passesChecks s p = true → memServes (received s p) p = true → ∃ m,
    exec (.wr p) s = .next (rspTo m p p.dst .wrAck 3 [] false) ∧
    (Ep_kind p.dst ≠ .hp → Placed p.addr p.data s m ∧ m.host = s.host) ∧
    (Ep_kind p.dst = .hp → SameBytes s m ∧ m.host.out = s.host.out ++ [.data p.tenant (regOff p.addr) p.data p.poison (flag (received s p) Reg.hpCfg HpCfg.RODATA)])) ∧
  (∀ (p : Pkt) (s : State), s.wf = true → passesChecks s p = true → memServes (received s p) p = true →
    let old (n : Nat) := readMem s p.addr n
    let answer (n : Nat) (m : State) := rspTo m p p.dst .atRsp 3 (old n) (markedIn s p.addr n)
    (∃ m, exec (.atFadd p) s = .next (answer p.nbytes m) ∧ Placed p.addr (toLE p.nbytes (ofLE (old p.nbytes) + ofLE p.data)) s m) ∧
    (∃ m, exec (.atSwap p) s = .next (answer p.nbytes m) ∧ Placed p.addr (toLE p.nbytes (ofLE p.data)) s m) ∧
    (∃ m, exec (.atCas p) s = .next (answer (p.nbytes / 2) m) ∧
      Placed p.addr (toLE (p.nbytes / 2) (if ofLE (old (p.nbytes / 2)) = ofLE (slice p.data 0 (p.nbytes / 2))
        then ofLE (slice p.data (p.nbytes / 2) (p.nbytes / 2)) else ofLE (old (p.nbytes / 2)))) s m)) ∧
  (∀ (tile port k : Nat) (p : Pkt) (s : State), s.wf = true → p.opc = .mcWr → hcrcOk p = true → tenantOk p = true →
    flitFits s tile port p k = true → p.dst.chip = myChip s → onNet s p = some p →
    let w := offLink s tile port p
    let here := mcHere (rectOf p.addr) tile port
    let outs := mcBranches (rectOf p.addr) tile port ++ (if here then [epPort 0] else [])
    let v := if outs = [] then w else enterVc w tile port outs p k
    let q := { p with dst := ⟨p.dst.chip, tile, 0⟩ }
    (here = false ∨ k + 1 ≠ flits p → exec (.mcWr tile ⟨port, k⟩ p) s = .next v) ∧
    (here = true → k + 1 = flits p → inTurn w p q.dst = true → good s tile = true → tileAllows s p.tenant tile = true → fmtSound p = true →
      ∃ m, exec (.mcWr tile ⟨port, k⟩ p) s = .next (rspTo m q q.dst .wrAck 3 [] false) ∧
        Placed (tileAddr tile (rectOf p.addr).off) p.data s m ∧ m.dyn.vcs = v.dyn.vcs))

/-- For every packet and every state, a response of any response opcode that an endpoint sends for an untraced packet, with no injection armed
at the endpoint's unit, is put on the network from the packet's destination to its source, with the packet's TAG and tenant and the given
data. Sending it changes no memory, no clock and no other part than the dynamic network, registers, free values, reliability and
observation state. -/
def Obligations.AnswersGoBack : Prop :=
  ∀ (m : State) (p : Pkt) (opc : Opc) (prio : Nat) (data : List Byte) (psn : Bool), isResponse opc = true → plainSend m p = true →
    Answered (rspTo m p p.dst opc prio data psn) p opc data ∧ Only [.dyn, .regs, .free, .rel, .obs] m (rspTo m p p.dst opc prio data psn)

/-- For a response that passes its arrival checks and matches a transaction whole: RD_RSP of a format it can carry sends on the packet for
which a command that is not being stopped fetched its data, carrying the response's data and mark; WR_ACK counts its bytes and one piece
of the command finished; AT_RSP makes the old value the command's DETAIL; ACK finishes the piece with the status it carries; ERR_RSP for a
fetch stops the command with its status. A response nothing waits for is discarded and counted. A failing ERR_RSP of one multicast target
leaves the multicast open and the failure kept. MBX is answered by an ACK of ST_OK. The command then completes by COMMAND_COMPLETE. -/
def Obligations.ResponsesReachWhatWaits : Prop :=
  (∀ (p next : Pkt) (s u : State) (x : Txn) (id : Nat) (after : Purpose), passesChecks s p = true →
    matchTxn (received s p) p = some (x, true, u) → x.why = .fetch id next after → p.poison = false → fmtSound p = true →
    (cmdOf u id).any (·.stopped) = false → exec (.rdRsp p) s =
      .next { u with dyn := { u.dyn with
        waiting := u.dyn.waiting ++ [⟨u.dyn.nextReq, { next with data := p.data, poison := false }, after, [], false⟩]
        nextReq := u.dyn.nextReq + 1 } }) ∧
  (∀ (p : Pkt) (s u : State) (x : Txn) (id n : Nat), passesChecks s p = true → matchTxn (received s p) p = some (x, true, u) →
    x.opc ≠ .mcWr → x.why = .cmdWr id n → u.trig.adds = [] → ∃ t, exec (.wrAck p) s = .next t ∧ Only [.host] u t ∧
      t.host.cmds = updFirst (fun c => c.id == id) (fun c => { c with left := c.left - 1, bytes := c.bytes + n }) u.host.cmds) ∧
  (∀ (p : Pkt) (s u : State) (x : Txn) (id : Nat), passesChecks s p = true → matchTxn (received s p) p = some (x, true, u) →
    x.why = .cmdAt id → ∃ t, exec (.atRsp p) s = .next t ∧ Only [.host] u t ∧
      t.host.cmds = updFirst (fun c => c.id == id) (fun c => { c with detail := ofLE p.data, poison := c.poison || p.poison,
                                                                      left := c.left - 1, bytes := c.bytes + p.data.length }) u.host.cmds) ∧
  (∀ (p : Pkt) (s u : State) (x : Txn) (id : Nat), passesChecks s p = true →
    ((received s p).dyn.rsvs.any fun v => v.ep == p.dst && v.rec_ == p.tag) = false → matchTxn (received s p) p = some (x, true, u) →
    x.opc ≠ .mcWr → x.why = .cmdAck id → p.poison = false → u.trig.adds = [] →
    exec (.ack p) s = .next (pieceDone u id 0 (rspStatus p)) ∧
    (p.tag ≠ failTag → exec (.errRsp p) s = .next (pieceDone u id 0 (rspStatus p)))) ∧
  (∀ (p : Pkt) (s u : State) (x : Txn) (id : Nat), passesChecks s p = true → p.tag ≠ failTag →
    ((received s p).dyn.rsvs.any fun v => v.ep == p.dst && v.rec_ == p.tag) = false → matchTxn (received s p) p = some (x, false, u) →
    x.why = .cmdWr id p.nbytes → p.poison = false → exec (.errRsp p) s = .next (updCmd u id (failWith (rspStatus p)))) ∧
  (∀ (p : Pkt) (s : State), passesChecks s p = true → matchTxn (received s p) p = none → ∃ t, exec (.rdRsp p) s = .next t ∧
    exec (.wrAck p) s = .next t ∧ exec (.atRsp p) s = .next t ∧ t.dyn.late = s.dyn.late + 1) ∧
  (∀ (p : Pkt) (s : State), passesChecks s p = true → plainSend (received s p) p = true →
    ∃ t, exec (.mbx p) s = .next t ∧ Answered t p .ack [0] ∧ SameBytes s t)

/-- An RSV_REQ that passes its checks joins the requests waiting at its cistern and is granted at once exactly when it is next and its slots
fit. A cistern grants the first waiting request that is next and fits; a multicast head that becomes eligible is granted when its slots
fit. A grant leaves the queue, holds its slots, and with no injection armed RSV_GRANT goes back under the record's number. An RSV_GRANT
marks its record as held with all its flits and frees the response slot and the allotment count of its RSV_REQ. An RSV_RELEASE removes its
pending request and its grant, and is acknowledged. A tag's quarantine ends at its time and the tag is free. A held grant unused for the
LEASE of its issue, and a reservation sent but not granted within the RSVTO of its issue whose request is gone, are given up: an
RSV_RELEASE under the record's number waits at the source. -/
def Obligations.ReservationsAtCisterns : Prop :=
  (∀ (p : Pkt) (s : State), passesChecks s p = true →
    let r := cReqOf (received s p) p
    let q := cisQueue (received s p) r
    q.dyn.pend = s.dyn.pend ++ [r] ∧ exec (.rsvReq p) s = .next (if nextToGrant q r && fits q r then grant q r else q)) ∧
  (∀ (e : Ep) (r : CReq) (s : State),
    (s.dyn.pend.find? fun x => x.ep == cisEp s e && nextToGrant s x && fits s x) = some r → exec (.cisternGrant e) s = .next (grant s r)) ∧
  (∀ (e : Ep) (r : CReq) (s : State), quiet s = true →
    (s.dyn.pend.find? fun x => x.ep == cisEp s e && x.mc && mcHead s x == some x && ! eligible s x) = some r →
    let l := later s (cycleAt (r.ticket + r.settle))
    exec (.mcastEligible e) s = .next (if nextToGrant l r && fits l r then grant l r else l)) ∧
  (∀ (r : CReq) (s : State), flag s (injReg (epBlk r.ep)) Inj.ARM = false →
    (grant s r).dyn.pend = s.dyn.pend.erase r ∧ (grant s r).dyn.given = s.dyn.given ++ [⟨r.ep, r.src, r.rec_, r.tenant, r.flits⟩] ∧
    ∃ q ∈ (grant s r).dyn.net, q.opc = .rsvGrant ∧ q.src = r.ep ∧ q.dst = r.src ∧ q.tag = r.rec_ ∧ q.tenant = r.tenant) ∧
  (∀ (p : Pkt) (v : Rsv) (s : State), passesChecks s p = true →
    (s.dyn.rsvs.find? fun x => x.ep == p.dst && x.rec_ == p.tag && ! x.granted) = some v → ∃ t, exec (.rsvGrant p) s = .next t ∧
    t.dyn.rsvs = (updFirst (fun x => x.ep == v.ep && x.rec_ == v.rec_)
      (fun x => { x with granted := true, left := x.flits, lastUse := s.clk.now, slots := x.slots - 1 }) s.dyn.rsvs) ∧
    t.dyn.allot = if v.dst.chip = myChip t then s.dyn.allot.erase (injector v.ep, cisEp t v.dst) else s.dyn.allot) ∧
  (∀ (p : Pkt) (s : State), passesChecks s p = true →
    let m := received s p
    let pend? := m.dyn.pend.find? fun r => r.ep == cisEp m p.dst && r.src == p.src && r.rec_ == p.tag
    let given? := m.dyn.given.find? fun g => g.ep == cisEp m p.dst && g.src == p.src && g.rec_ == p.tag
    ∃ u, exec (.rsvRelease p) s = .next (ackTo u p .ok) ∧
      u.dyn.pend = (match pend? with | some r => m.dyn.pend.erase r | none => m.dyn.pend) ∧
      u.dyn.given = (match given? with | some g => m.dyn.given.erase g | none => m.dyn.given)) ∧
  (∀ (e : Ep) (tag : Nat) (q : Quar) (s : State), quiet s = true →
    (s.dyn.quar.find? fun x => x.ep == e && x.tag == tag) = some q → ∃ t, exec (.tagQuarantineEnd e tag) s = .next t ∧
    t.clk.now = max s.clk.now q.until_ ∧ t.dyn.quar = s.dyn.quar.erase q ∧
    t.dyn.allot = if q.allot then s.dyn.allot.erase (injector q.ep, cisEp s q.dst) else s.dyn.allot) ∧
  (∀ (e : Ep) (n g : Nat) (v : Rsv) (c : Instr) (s : State), quiet s = true → v.sent = true → (s.dyn.waiting.any fun r => r.id == v.req) = false →
    (c = .leaseExpire e n ∧ v.lease ≠ 0 ∧ g = v.lastUse + v.lease ∧
      (s.dyn.rsvs.find? fun x => x.ep == e && x.rec_ == n && x.granted && ! x.released) = some v ∨
     c = .rsvTimeout e n ∧ g = v.issued + v.rsvto ∧
      (s.dyn.rsvs.find? fun x => x.ep == e && x.rec_ == n && x.sent && ! x.granted && ! x.released) = some v) →
    ∃ t w, exec c s = .next t ∧ t.clk.now = max s.clk.now g ∧ t.dyn.waiting = s.dyn.waiting ++ [w] ∧
      t.dyn.rsvs = (updFirst (fun x => x.ep == v.ep && x.rec_ == v.rec_) (fun x => { x with released := true }) s.dyn.rsvs) ∧
      w.pkt.opc = .rsvRelease ∧ w.pkt.src = v.ep ∧ w.pkt.dst = v.dst ∧ w.pkt.tag = v.rec_ ∧ w.pkt.tenant = v.tenant)

/-- A waiting request that its source interface refuses ends with that status in the command it serves. A request first sets aside the slots
for its response. An allotment packet with a tag and an open allotment, or a request that holds a grant for its flits, then becomes a
transaction under that tag, with the timeout in force, the grant paying for its flits. A request without a grant, for which none is on its
way, takes a record, and its RSV_REQ waits; the RSV_REQ leaves under an open allotment, and its record takes the issue time and the
timeouts in force. A flit at a router input with room, of a packet under way for this package that passes the router's checks, leaves its
link and takes its place in its virtual channel towards the output XY routing gives. A response that has not come within the RSPTO of its
issue ends the transaction, puts its tag in quarantine for another RSPTO, and the command's piece fails with ST_PEER_UNREACHABLE. A
CTR_ADD of the counter's tenant adds payload [3:0] to VALUE and records a nonzero byte 4 as STATUS when the counter holds no failure, or
only failures of the same cycle, of which the lowest code stands; it is answered by ACK. -/
def Obligations.RequestsLeaveAndTimeOut : Prop :=
  (∀ (id c n : Nat) (r : Req) (st : Status) (s : State), (s.dyn.waiting.find? fun x => x.id == id) = some r →
    sourceCheck s r.pkt r.mc = some st → st.good = false → r.why = .cmdWr c n → ∃ t, exec (.requestSend id) s = .next t ∧
    (∀ w ∈ t.dyn.waiting, w.id ≠ id) ∧
    t.host.cmds = updFirst (fun x => x.id == c) (fun x => failWith st { x with left := x.left - 1 }) s.host.cmds) ∧
  (∀ (id tag : Nat) (r : Req) (s s1 : State), (s.dyn.waiting.find? fun x => x.id == id) = some r → sourceCheck s r.pkt r.mc = none →
    (∀ a b c, r.why ≠ .redOut a b c) → setAside s r = some s1 →
    (r.pkt.opc = .rsvReq → allotOpen s1 r.pkt = true → ∀ v, (s.dyn.rsvs.find? fun v => v.ep == r.pkt.src && v.rec_ == r.pkt.tag) = some v →
      ∃ t w, exec (.requestSend id) s = .next t ∧ t.dyn.rsvs = updFirst (· == v) (fun _ => w) s.dyn.rsvs ∧ (∀ x ∈ t.dyn.waiting, x.id ≠ r.id) ∧
      w.sent = true ∧ w.issued = s.clk.now ∧ w.rsvto = rsvto s1 v.ep ∧ w.rspto = rspto s1 v.ep ∧ w.flits = v.flits ∧ w.dst = v.dst) ∧
    (r.pkt.opc ≠ .rsvReq → r.pkt.opc ≠ .rsvRelease → contribRoom s1 { r with held := true } = true → freeTag s1 r.pkt.src = some tag →
      (allotOpc r.pkt.opc = true → allotOpen s1 r.pkt = true → ∃ t x, exec (.requestSend id) s = .next t ∧ t.dyn.txns = s.dyn.txns ++ [x] ∧
        x.ep = r.pkt.src ∧ x.tag = tag ∧ x.opc = r.pkt.opc ∧ x.dst = r.pkt.dst ∧ x.why = r.why ∧ x.sent = s.clk.now ∧ x.slots = rspSlots r.pkt r.mc) ∧
      (allotOpc r.pkt.opc = false → r.mc = [] → ∀ v, grantFor s1 r.pkt.src r.pkt.dst (flits r.pkt) = some v → ∃ t x,
        exec (.requestSend id) s = .next t ∧ t.dyn.txns = s.dyn.txns ++ [x] ∧ x.tag = tag ∧ x.opc = r.pkt.opc ∧ x.why = r.why ∧
        t.dyn.rsvs = (consumeGrant s v (flits r.pkt)).dyn.rsvs) ∧
      (allotOpc r.pkt.opc = false → r.mc = [] → grantFor s1 r.pkt.src r.pkt.dst (flits r.pkt) = none →
        (s.dyn.rsvs.all fun v => v.req != r.id || v.released || v.granted) = true → ∀ i, freeRec s1 r.pkt.src = some i → ∃ t v w,
        exec (.requestSend id) s = .next t ∧ t.dyn.rsvs = s.dyn.rsvs ++ [v] ∧ v.rec_ = i ∧ v.flits = flits r.pkt ∧ v.req = r.id ∧
        t.dyn.waiting = s1.dyn.waiting ++ [w] ∧ w.pkt.opc = .rsvReq ∧ w.pkt.dst = cisEp s1 r.pkt.dst ∧ w.pkt.tag = i))) ∧
  (∀ (tile port k dep target : Nat) (p : Pkt) (s : State), p.opc ≠ .mcWr → flitFits s tile port p k = true → routerCheck1 s tile p = none →
    headsFor s p = some (target, dep) → p.dst.chip = myChip s → onNet s p = some p → flag s (injReg (.rtr tile)) Inj.ARM = false →
    exec (.routerFlitArrival tile port p k) s = .next (enterVc (offLink s tile port p) tile port [outPort tile target dep p] p k)) ∧
  (∀ (ep : Ep) (tag c n : Nat) (x : Txn) (s : State), quiet s = true → (s.dyn.txns.find? fun y => y.ep == ep && y.tag == tag) = some x →
    x.opc ≠ .mcWr → x.why = .cmdWr c n → ∃ t, exec (.responseTimeout ep tag) s = .next t ∧
    t.clk.now = max s.clk.now (x.sent + x.rspto) ∧ t.dyn.txns = s.dyn.txns.erase x ∧
    t.dyn.quar = s.dyn.quar ++ [⟨ep, tag, x.dst, x.allot, max s.clk.now (x.sent + x.rspto) + x.rspto⟩] ∧
    t.host.cmds = updFirst (fun y => y.id == c) (fun y => failWith .peerUnreachable { y with left := y.left - 1 }) s.host.cmds) ∧
  (∀ (p : Pkt) (s : State), s.wf = true → passesChecks s p = true → fmtSound p = true → quiet s = true →
    let off := Reg.ctr (epBlk p.dst) (bits p.addr 10 0)
    let r := received s p
    let st := (p.data.getD 4 0).toNat
    let before := (noteOf r off).fails
    fld r off Ctr.TENANT = p.tenant → ∃ m, exec (.ctrAdd p) s = .next (ackTo m p .ok) ∧ RegsOutside [off] r m ∧
      fld m off Ctr.VALUE = (fld r off Ctr.VALUE + ofLE (slice p.data 0 4)) % 2 ^ 32 ∧
      flag m off Ctr.FAIL = (flag r off Ctr.FAIL || st != 0) ∧
      fld m off Ctr.STATUS = if st = 0 ∨ (flag r off Ctr.FAIL = true ∧ before = []) then fld r off Ctr.STATUS
        else lowest (before ++ [st]) % 2 ^ 8)

/-- From canonical states: enabling a disabled context that R224 admits writes its configuration, sets EN and STATE 1, notes its lines and
clears its counts; one that R224 refuses sets CFGERR alone and stays disabled. Disabling clears EN, STATE and LINES and forgets the
operation. A well-formed contribution of the context's tenant, for which no closing mark is in yet, makes STATE 2, counts its halves to
its input, and is held unacknowledged, none of its flits yet combined. Emission of a run that is complete, or the last of the operation,
sends as many of its positions as the window leaves room for; the emission timer does the same with the positions ready 32 cycles after
the first, and the clock stands there. When the step timer of an operation reaches STEPTO the timer stops, the clock stands there, and one
stamped ABORT_REQ with ST_COLL_TIMEOUT goes to the group's coordinator. -/
def Obligations.ReductionContextsWork : Prop :=
  (∀ (tile c a b : Nat) (s : State), s.wf = true → tile < 64 → c < 16 → ctxState s (ctxOf tile c a b) = 0 →
    let x := ctxOf tile c a b
    ∃ u, exec (.redCtxEnable tile c a b) s = .next u ∧
    (enableBad s x = false → ctxState u x = 1 ∧ fld u (ctxS x) RedCtxS.LINES = x.lines % 2 ^ fldWidth RedCtxS.LINES ∧
      flag u (Reg.redCtxA tile c) RedCtxA.EN = true ∧ rd u (Reg.redCstat tile c) = 0 ∧
      u.red = eSet {} (tile * 16 + c) {} s.red ∧
      RegsOutside [Reg.redCtxA tile c, Reg.redCtxB tile c, Reg.redCtxS tile c, Reg.redCstat tile c] s u) ∧
    (enableBad s x = true → ctxState u x = 0 ∧ flag u (ctxS x) RedCtxS.CFGERR = true ∧ flag u (Reg.redCtxA tile c) RedCtxA.EN = false ∧
      u.red = s.red ∧ RegsOutside [Reg.redCtxA tile c, Reg.redCtxB tile c, Reg.redCtxS tile c] s u)) ∧
  (∀ (tile c v : Nat) (s : State), s.wf = true → tile < 64 → c < 16 → ∃ u, exec (.redCtxDisable tile c v) s = .next u ∧
    ctxState u (ctxAt s tile c) = 0 ∧ fld u (Reg.redCtxS tile c) RedCtxS.LINES = 0 ∧ flag u (Reg.redCtxA tile c) RedCtxA.EN = false ∧
    u.red = eSet {} (tile * 16 + c) {} s.red) ∧
  (∀ (p : Pkt) (hs : List RedHalf) (a b : Nat) (ev : FmtEvents) (s : State), s.wf = true → passesChecks s p = true →
    tWf (fun _ => ({} : RedRun)) s.red = true → p.opc = .redContrib → Ep_kind p.dst = .ru →
    let r := received s p
    let x := ctxAt r p.dst.tile (RaCtx p.addr)
    let i := inputOf (redRun s x) (RaRank p.addr) (RaLvl p.addr)
    x.tenant = p.tenant → ctxState r x = 1 ∨ ctxState r x = 2 → decodeContrib x p = .good hs a b ev →
    nodeBad r x p (hs.map RedHalf.half) = false → i.close = none → ∃ u, exec (.redContrib p) s = .next u ∧
      ctxState u x = 2 ∧ (∃ j ∈ (redRun u x).ins, j.rank = RaRank p.addr ∧ j.lvl = RaLvl p.addr ∧ j.n = i.n + hs.length) ∧
      (∃ h ∈ (redRun u x).holds, h.pkt = p ∧ h.first = a ∧ h.past = b ∧ h.pend = hs ∧ h.took = 0)) ∧
  (∀ (tile c : Nat) (s : State), tWf (fun _ => ({} : RedRun)) s.red = true →
    let x := ctxAt s tile c
    let hs := emitReady s x
    (64 ≤ hs.length ∨ x.npos ≤ emitFrom s x + hs.length / 2) → hs ≠ [] → mayEmit s x = true → ∃ u,
      exec (.redEmit tile c) s = .next u ∧ (redRun u x).sent = (redRun s x).sent + min (hs.length / 2) (emitRoom s x)) ∧
  (∀ (tile c : Nat) (s : State), tWf (fun _ => ({} : RedRun)) s.red = true → quiet s = true →
    let x := ctxAt s tile c
    let g := max s.clk.now (readyAt ((emitReady s x).take 2) + 32)
    emitReady s x ≠ [] → mayEmit s x = true → emitRoom s x ≠ 0 → ∃ u, exec (.redEmitTimer tile c) s = .next u ∧ u.clk.now = g ∧
      (redRun u x).sent = (redRun s x).sent + min ((readyBy g (emitReady s x)).length / 2) (emitRoom s x)) ∧
  (∀ (tile c grp epoch i n : Nat) (s : State), tile < 64 → tWf (fun _ => ({} : RedRun)) s.red = true → quiet s = true →
    flag s (injReg (.rtr tile)) Inj.ARM = false →
    let x := ctxAt s tile c
    (redRun s x).grp = some (grp, epoch, i) → (redRun s x).step = some n → ctxState s x ≠ 0 → ctxState s x ≠ 3 → ∃ u,
      exec (.stepTimeout tile c) s = .next u ∧ u.clk.now = max s.clk.now (n + usCycles (stepTo s i)) ∧ (redRun u x).step = none ∧
      u.coll.spNet = s.coll.spNet ++ [(ctxEp s x, SpStamp (grpMsg .abortReq x.tenant (coordinator s i) 0 false (grp, epoch)
        (if x.ring then (x.rlo + x.n - 1) % x.n else uncovered s x) x.lvl (abortSeq s x)
        (failWord .collTimeout (if x.ring then (x.rlo + x.n - 1) % x.n else uncovered s x))))])

/-- With checking on and no fault due at the checked lane, a new window steps the LFSR, picks its checked cycle from it, and counts the checks
that agreed. A mismatch of an open check at the checked lane, with no injection at the router, counts the check, captures the operands and
both results, and awaits recomputation of their difference. The outcome of the recomputation: TRANSIENT counts in TRANS; SPARE gives the
spare up; LANE and NOVOTE retire the lane; in the last three checking stops. CORE_CLEAR clears DEAD and no other register. TRANS_HALVING
halves each TRANS of the unit history. A scrub that corrects a word counts it in CE; a counter whose word is lost records a failure,
ST_POISONED where it holds none; a lost lane key is gone. A scrub entry's fill makes its pages read zero and frees the entry. -/
def Obligations.ShadowLaneChecks : Prop :=
  (∀ (n m : Nat) (s : State), shadowOn s n = true → shadowDue s n (checkedLane s n) = false → (shadow s n).open_ = false →
    let l := lfsrStep (shadow s n).lfsr
    let a := l % 2 ^ fld s (Reg.rtrShadowCfg n) RtrShadowCfg.NL2
    ∃ u, exec (.shadowWindow n m) s = .next u ∧
      u.rel.shadow = eSet {} n { shadow s n with lfsr := l, at_ := a, open_ := ! decide (a < m) } s.rel.shadow ∧
      u.regs = if a < m then (countCheck s n).regs else s.regs) ∧
  (∀ (n c lane a b first spare : Nat) (s : State), s.wf = true → shadowOn s n = true → (shadow s n).open_ = true → lane = checkedLane s n →
    c < 16 → (shadow s n).pend = none → flag s (injReg (.rtr n)) Inj.ARM = false → s.rel.stuck.contains (n, lane) = false → first ≠ spare →
    ∃ u, exec (.shadowMismatch n c lane a b first spare) s = .next u ∧
      rd u (Reg.rtrShadowCap n 0) = BitVec.ofNat 64 a ∧ rd u (Reg.rtrShadowCap n 1) = BitVec.ofNat 64 b ∧
      rd u (Reg.rtrShadowCap n 2) = BitVec.ofNat 64 first ∧ rd u (Reg.rtrShadowCap n 3) = BitVec.ofNat 64 spare ∧
      rd u (Reg.rtrShadowStat n) = setF (rd s (Reg.rtrShadowStat n)) RtrShadowStat.CHECKS (fld s (Reg.rtrShadowStat n) RtrShadowStat.CHECKS + 1) ∧
      u.rel.shadow = eSet {} n { shadow s n with open_ := false, pend := some (lane, c, (first ^^^ spare) % 2 ^ 64), who := (ctxAt s n c).tenant }
        s.rel.shadow) ∧
  (∀ (n k c d lane spare voter : Nat) (s : State), s.wf = true → n < 64 → k < 16 → c < 16 → (shadow s n).pend = some (k, c, d) →
    s.rel.stuck.contains (n, k) = false → ∃ u, exec (.shadowRecomputeDone n lane spare voter) s = .next u ∧
      u.rel.shadow = eSet {} n { shadow s n with pend := none } s.rel.shadow ∧
      (lane = spare → fld u (Reg.rtrShadowStat n) RtrShadowStat.TRANS =
        min (2 ^ fldWidth RtrShadowStat.TRANS - 1) (fld s (Reg.rtrShadowStat n) RtrShadowStat.TRANS + 1)) ∧
      (lane ≠ spare → flag u (Reg.rtrShadowStat n) RtrShadowStat.NOSHADOW = true) ∧
      (lane ≠ spare → voter = lane → flag u (Reg.rtrShadowStat n) RtrShadowStat.SPAREBAD = true) ∧
      (lane ≠ spare → voter ≠ lane → flag u (Reg.rtrShadowStat n) RtrShadowStat.RET = true ∧
        fld u (Reg.rtrShadowStat n) RtrShadowStat.RETLANE = k)) ∧
  (∀ (tile : Nat) (s : State), s.wf = true → tile < 64 → ∃ u, exec (.coreClear tile) s = .next u ∧
    RegsOutside [Reg.tniCoreCtx tile] s u ∧ rd u (Reg.tniCoreCtx tile) = setF (rd s (Reg.tniCoreCtx tile)) TniCoreCtx.DEAD 0) ∧
  (∀ s : State, exec .transHalving s = .next { s with rel := { s.rel with hist := s.rel.hist.map fun h => { h with trans := h.trans / 2 } } }) ∧
  (∀ (b : Blk) (s : State), s.wf = true → hasEcc b = true → flag s (injReg b) Inj.ARM = false → ∃ u,
    exec (.configScrub (.corrected b)) s = .next u ∧
    fld u (Reg.eccStat b) EccStat.CE = (fld s (Reg.eccStat b) EccStat.CE + 1) % 2 ^ fldWidth EccStat.CE) ∧
  (∀ (b : Blk) (n : Nat) (s : State), s.wf = true → flag s (injReg b) Inj.ARM = false → ∃ u, exec (.configScrub (.counter b n)) s = .next u ∧
    flag u (Reg.ctr b n) Ctr.FAIL = true) ∧
  (∀ (n ph : Nat) (s : State), ∃ u, exec (.configScrub (.laneKey n ph)) s = .next u ∧
    u.sec.lane = eSet {} n ((eGet {} n s.sec.lane).erase ph) s.sec.lane) ∧
  (∀ (mep i : Nat) (s : State), s.wf = true → mep < 12 → i < 256 → flag s (Reg.mepTrange mep i) MepTrange.V = true →
    flag s (Reg.mepTrange mep i) MepTrange.SCR = true → ∃ u, exec (.scrubFillDone mep i) s = .next u ∧
      flag u (Reg.mepTrange mep i) MepTrange.V = false ∧ RegsOutside [Reg.mepTrange mep i] s u ∧
      ∀ a, readByte u a = if inEntry s (Reg.mepTrange mep i) a then 0 else readByte s a)

/-- From canonical states with nothing armed to happen. An arbiter cycle whose resource accepts no grain, with no locked sequence, and no
current transfer that lacks its grain or was parked before, moves the cycle on and changes no register. One with no transfer current, no
locked sequence and no owner's grain that may go holds a round when some DYN requester may start: its winner pays its grains when not yet
charged, its AGE and WAIT become 0, one grain counts in BGRAINS, PTR moves past it, it is current, or locked where the arbiter locks its
kind of sequence, and every other candidate's AGE and WAIT rise up to their limits; grantEffect is what it does beyond the arbiter. A
refill stands at the end of its refill cycle and gives each DYN requester WEIGHT more CREDIT, up to CAP, once for itself and once for each
refill cycle that passed meanwhile. A transfer idle for 16 cycles is parked and counted. A locked sequence whose count reaches WDOG ends:
BITES rises, and its packet is answered by a poisoned ERR_RSP, or its command is marked, with ST_WATCHDOG. WAIT above STARVE sets the
requester's flag and interrupts the FMP. The policy loop clears the flag, unless it was set in the same cycle, and, for a weight that is
not pinned, doubles it up to WMAX, or else halves the richest other weight down to its WMIN; 100 ms after the last change the host's
weight returns, within its bounds. -/
def Obligations.ArbitersDecide : Prop :=
  (∀ (a : Arb) (reqs : List ArbReq) (s : State), quiet s = true → tWf (fun _ => ({} : ArbRun)) s.arb.runs = true → (arbRun s a).lock = none →
    (arbRun (arbBegin s a) a).current = (arbRun s a).current →
    (∀ c, (arbRun s a).current = some c → currentReady c (reqs.map (presented (arbBegin s a) a)) = true) → ∃ u,
    exec (.arbiterCycle a reqs false) s = .next u ∧ u.regs = s.regs ∧ u.host = s.host ∧ (arbRun u a).n = max (arbRun s a).n (arbNow s a) + 1) ∧
  (∀ (a : Arb) (reqs : List ArbReq) (e : ArbTx) (es : List ArbTx) (s : State), s.wf = true → quiet s = true →
    tWf (fun _ => ({} : ArbRun)) s.arb.runs = true → (arbRun s a).lock = none → accepting (arbBegin s a) a = true →
    let b := arbBegin s a
    let x := arbRun b a
    let rs := reqs.map (presented b a)
    let w := (e :: es).foldl (fun y c => if beats b a x.ptr c.req.who y.req.who then c else y) e
    x.current = none → (∀ o t, ownerOf b a x.n = some o → offerOf x rs o = some t → gateStarts b a x.n t = false) →
    candidates b a x rs = e :: es → (lockedAt a w.req.kind = false ∨ 1 < wdogOf b a) → ∃ u,
      exec (.arbiterCycle a reqs true) s = .next (grantEffect u a) ∧ (arbRun u a).ptr = (w.req.who + 1) % 64 ∧ (arbRun u a).n = x.n + 1 ∧
      (arbRun u a).granted = some w.req ∧
      (lockedAt a w.req.kind = false → (arbRun u a).current = ({ w with charged := true } : ArbTx).step ∧ (arbRun u a).lock = none) ∧
      (lockedAt a w.req.kind = true → (arbRun u a).current = none ∧ (arbRun u a).lock = ({ w with charged := true } : ArbTx).step) ∧
      fld u (Reg.arbStat0 a) ArbStat0.BGRAINS = (fld s (Reg.arbStat0 a) ArbStat0.BGRAINS + 1) % 2 ^ 32 ∧
      (w.req.who < 64 → rCredit u a w.req.who = (if w.charged then rCredit s a w.req.who else rCredit s a w.req.who - w.req.grains) ∧
        rAge u a w.req.who = 0 ∧ rWait u a w.req.who = 0) ∧
      ∀ c ∈ e :: es, c.req.who ≠ w.req.who → rAge u a c.req.who = min 15 (rAge s a c.req.who + 1) ∧
        rWait u a c.req.who = min 4095 (rWait s a c.req.who + 1) ∧ rCredit u a c.req.who = rCredit s a c.req.who) ∧
  (∀ (a : Arb) (s : State), s.wf = true → quiet s = true → tWf (fun _ => ({} : ArbRun)) s.arb.runs = true →
    let x := arbRun s a
    let n := max x.n (arbNow s a)
    let at_ := refillNext s a
    let k := if at_ < n then 1 + (n - 1 - at_) / windowOf s a else 1
    ∃ u, exec (.creditRefill a) s = .next u ∧ (arbRun u a).refillAt = at_ + k * windowOf s a ∧
      at_ + (k - 1) * windowOf s a < (arbRun u a).n ∧
      ∀ r, r < 64 → rCredit u a r = min (fld s (Reg.arbShare a r) ArbShare.CAP) (rCredit s a r + k * fld s (Reg.arbShare a r) ArbShare.WEIGHT) ∧
        rAge u a r = rAge s a r ∧ rTokens u a r = rTokens s a r) ∧
  (∀ (a : Arb) (c : ArbTx) (s : State), s.wf = true → quiet s = true → tWf (fun _ => ({} : ArbRun)) s.arb.runs = true →
    (arbRun s a).current = some c → 15 ≤ (arbRun s a).idle → (arbRun s a).lock = none ∨ arbNow s a ≤ (arbRun s a).n → ∃ u, exec (.transferPark a) s = .next u ∧
    (arbRun u a).current = none ∧ (arbRun u a).parked = (arbRun s a).parked ++ [c] ∧ RegsOutside [Reg.arbStat1 a] s u ∧
    rd u (Reg.arbStat1 a) = setF (rd s (Reg.arbStat1 a)) ArbStat1.PARKS (fld s (Reg.arbStat1 a) ArbStat1.PARKS + 1)) ∧
  (∀ (a : Arb) (c : ArbTx) (s : State), s.wf = true → quiet s = true → tWf (fun _ => ({} : ArbRun)) s.arb.runs = true →
    (arbRun s a).lock = some c → ∃ u, exec (.watchdogBite a) s = .next u ∧ (arbRun u a).lock = none ∧
    (arbRun s a).n + (wdogOf s a - 1 - (arbRun s a).lockN) < (arbRun u a).n ∧
    (c.req.pkt = none → fld u (Reg.arbStat1 a) ArbStat1.BITES = (fld s (Reg.arbStat1 a) ArbStat1.BITES + 1) % 2 ^ 8 ∧
      u.host.cmds = updFirst (fun d => d.id == c.req.cmd) (fun d => { d with status := .watchdog, poison := true, left := d.left - 1 }) s.host.cmds) ∧
    (∀ p, c.req.pkt = some p → p ∈ s.dyn.net → ∃ v, v.dyn = s.dyn ∧
      u.dyn = (rspTo (useGrant (takeNet v p) p) p p.dst .errRsp 3 [BitVec.ofNat 8 Status.watchdog.code] true).dyn)) ∧
  (∀ (a : Arb) (r : Nat) (s : State), s.wf = true → r < 64 → starveOf s a < rWait s a r → ∃ u, exec (.arbStarvation a r) s = .next u ∧
    starving u a r = true ∧ u.arb.fmpIrq = true ∧ (∀ q, q < 64 → q ≠ r → starving u a q = starving s a q) ∧
    RegsOutside [Reg.arbStarve a, Reg.arbStat1 a] s u) ∧
  (∀ (a : Arb) (r : Nat) (s : State), s.wf = true → tWf (fun _ => ({} : WeightMemo)) s.arb.memos = true → r < 64 → starving s a r = true →
    (memo s a r).pinned = false → bit (noteOf s (Reg.arbStarve a)).up r = false →
    let c := Reg.arbShare a r
    ∃ u, exec (.starvationPolicy a r) s = .next u ∧ starving u a r = false ∧
    (fld s c ArbShare.WEIGHT < fld s c ArbShare.WMAX →
      fld u c ArbShare.WEIGHT = min (fld s c ArbShare.WMAX) (max 1 (2 * fld s c ArbShare.WEIGHT)) ∧ (memo u a r).changed = some s.clk.now ∧
      RegsOutside [Reg.arbStarve a, c] s u) ∧
    (∀ q, fld s c ArbShare.WMAX ≤ fld s c ArbShare.WEIGHT → richest s a r = some q →
      fld u (Reg.arbShare a q) ArbShare.WEIGHT =
        max (fld s (Reg.arbShare a q) ArbShare.WMIN) (fld s (Reg.arbShare a q) ArbShare.WEIGHT / 2) ∧
      RegsOutside [Reg.arbStarve a, Reg.arbShare a q] s u)) ∧
  (∀ (a : Arb) (r c : Nat) (s : State), s.wf = true → quiet s = true → r < 64 → (memo s a r).changed = some c → starving s a r = false →
    ∃ u, exec (.weightRestore a r) s = .next u ∧ u.clk.now = max s.clk.now (c + usCycles 100000) ∧ RegsOutside [Reg.arbShare a r] s u ∧
    rd u (Reg.arbShare a r) = setF (rd s (Reg.arbShare a r)) ArbShare.WEIGHT
      (min (fld s (Reg.arbShare a r) ArbShare.WMAX) (max (fld s (Reg.arbShare a r) ArbShare.WMIN) (memo s a r).host)))

/-- From canonical states with nothing armed to happen. Arming holds a nonzero TIME and begins the check; disarming clears TIME and ARMED and
ends the check; the end of a check sets ARMERR, and ARMED when it is 0, otherwise ARMED and TIME clear. At a switch the other bank is
active, ARMED and TIME are clear, and for an arbiter clocked by the fabric the clock stands at the first multiple of 1,024 cycles at or
after T; for a gate list the clock stands at T, where entry 0 of the new list begins. A shaper's refill raises its tokens by RATE, up to
BURST, once for itself and once for each refill time that passed meanwhile; a write that turns a shaper on sets them to BURST, another
leaves them. A gate list moves to its next entry, whose time begins where the last one's DUR ended. No other register changes, but that a
transfer idle meanwhile is parked. -/
def Obligations.SwitchesShapersAndGates : Prop :=
  (∀ (a : Arb) (time : Nat) (s : State), s.wf = true → time ≠ 0 → ∃ u, exec (.arbArm a time) s = .next u ∧ RegsOutside [Reg.arbArm a] s u ∧
    rd u (Reg.arbArm a) = setF (rd s (Reg.arbArm a)) ArbArm.TIME time ∧
    u.arb = { s.arb with runs := eSet {} a.base { arbRun s a with checking := true, armAt := s.clk.now } s.arb.runs }) ∧
  (∀ (a : Arb) (s : State), s.wf = true → ∃ u, exec (.arbDisarm a) s = .next u ∧ RegsOutside [Reg.arbArm a, Reg.arbCtl a] s u ∧
    rd u (Reg.arbArm a) = setF (rd s (Reg.arbArm a)) ArbArm.TIME 0 ∧ rd u (Reg.arbCtl a) = setF (rd s (Reg.arbCtl a)) ArbCtl.ARMED 0 ∧
    u.arb = { s.arb with runs := eSet {} a.base { arbRun s a with checking := false } s.arb.runs }) ∧
  (∀ (a : Arb) (s : State), s.wf = true → (arbRun s a).checking = true → ∃ u, exec (.arbArmCheckDone a) s = .next u ∧
    RegsOutside [Reg.arbArm a, Reg.arbCtl a] s u ∧ fld u (Reg.arbCtl a) ArbCtl.ARMERR = arbCheck s a ∧
    flag u (Reg.arbCtl a) ArbCtl.ARMED = (arbCheck s a == 0) ∧
    fld u (Reg.arbArm a) ArbArm.TIME = if arbCheck s a = 0 then fld s (Reg.arbArm a) ArbArm.TIME else 0) ∧
  (∀ (a : Arb) (s : State), s.wf = true → quiet s = true → flag s (Reg.arbCtl a) ArbCtl.ARMED = true → (arbRun s a).lock = none → ∃ u,
    exec (.slotTableSwitch a) s = .next u ∧ RegsOutside [Reg.arbArm a, Reg.arbCtl a, Reg.arbStat1 a] s u ∧
    ((arbRun s a).current = none → rd u (Reg.arbStat1 a) = rd s (Reg.arbStat1 a)) ∧
    fld u (Reg.arbCtl a) ArbCtl.BANK = 1 - fld s (Reg.arbCtl a) ArbCtl.BANK ∧ flag u (Reg.arbCtl a) ArbCtl.ARMED = false ∧
    fld u (Reg.arbArm a) ArbArm.TIME = 0 ∧ cycleAt (fld s (Reg.arbArm a) ArbArm.TIME) ≤ u.clk.now ∧ (fabClocked a = true → u.clk.now % 1024 = 0)) ∧
  (∀ (a : Arb) (r : Nat) (s : State), s.wf = true → quiet s = true → tWf (fun _ => (0 : Int)) s.arb.tokens = true → r < 64 →
    let at_ := shapeNext s a r
    let k := 1 + (timeNs s / shapeInterval s a r - at_ / shapeInterval s a r)
    ∃ u, exec (.shaperRefill a r) s = .next u ∧ RegsOutside [Reg.arbRstat a r] s u ∧ u.clk.now = max s.clk.now (cycleAt at_) ∧
      rTokens u a r = min (fld s (Reg.arbShape a r) ArbShape.BURST : Int) (rTokens s a r + (k * fld s (Reg.arbShape a r) ArbShape.RATE : Nat)) ∧
      rCredit u a r = rCredit s a r) ∧
  (∀ (a : Arb) (r v : Nat) (s : State), s.wf = true → tWf (fun _ => (0 : Int)) s.arb.tokens = true → r < 64 →
    let c := Reg.arbShape a r
    ∃ u, exec (.shaperEnable a r v) s = .next u ∧ RegsOutside [c, Reg.arbRstat a r] s u ∧
      rd u c = rd (softWrite s c v) c ∧
      rTokens u a r = (if ! flag s c ArbShape.EN && flag u c ArbShape.EN then (fld u c ArbShape.BURST : Int) else rTokens s a r)) ∧
  (∀ (b : Blk) (time : Nat) (s : State), s.wf = true → time ≠ 0 → ∃ u, exec (.gateArm b time) s = .next u ∧ RegsOutside [Reg.gateArm b] s u ∧
    rd u (Reg.gateArm b) = setF (rd s (Reg.gateArm b)) GateArm.TIME time ∧
    u.arb = { s.arb with gates := eSet {} b.base { gateRun s b with checking := true, armAt := s.clk.now } s.arb.gates }) ∧
  (∀ (b : Blk) (s : State), s.wf = true → ∃ u, exec (.gateDisarm b) s = .next u ∧ RegsOutside [Reg.gateArm b, Reg.gateCtl b] s u ∧
    rd u (Reg.gateArm b) = setF (rd s (Reg.gateArm b)) GateArm.TIME 0 ∧ rd u (Reg.gateCtl b) = setF (rd s (Reg.gateCtl b)) GateCtl.ARMED 0 ∧
    u.arb = { s.arb with gates := eSet {} b.base { gateRun s b with checking := false } s.arb.gates }) ∧
  (∀ (b : Blk) (s : State), s.wf = true → (gateRun s b).checking = true →
    let late := decide (cycleAt (fld s (Reg.gateArm b) GateArm.TIME) < (gateRun s b).armAt + usCycles 1)
    ∃ u, exec (.gateArmCheckDone b) s = .next u ∧ RegsOutside [Reg.gateArm b, Reg.gateCtl b] s u ∧
    fld u (Reg.gateCtl b) GateCtl.ARMERR = (if late then 1 else 0) ∧ flag u (Reg.gateCtl b) GateCtl.ARMED = ! late ∧
    fld u (Reg.gateArm b) GateArm.TIME = if late then 0 else fld s (Reg.gateArm b) GateArm.TIME) ∧
  (∀ (b : Blk) (s : State), s.wf = true → quiet s = true → flag s (Reg.gateCtl b) GateCtl.ARMED = true → ∃ u,
    exec (.gateTakeover b) s = .next u ∧ RegsOutside [Reg.gateArm b, Reg.gateCtl b] s u ∧
    u.clk.now = max s.clk.now (cycleAt (fld s (Reg.gateArm b) GateArm.TIME)) ∧
    fld u (Reg.gateCtl b) GateCtl.BANK = 1 - fld s (Reg.gateCtl b) GateCtl.BANK ∧ flag u (Reg.gateCtl b) GateCtl.ARMED = false ∧
    fld u (Reg.gateArm b) GateArm.TIME = 0 ∧
    u.arb = { s.arb with gates := eSet {} b.base { gateRun s b with entry := 0, since := fld s (Reg.gateArm b) GateArm.TIME } s.arb.gates }) ∧
  (∀ (b : Blk) (s : State), quiet s = true → gateFree s b = false →
    let x := gateRun s b
    ∃ u, exec (.gateEntryAdvance b) s = .next u ∧ u.regs = s.regs ∧ u.clk.now = max s.clk.now (cycleAt (x.since + gateDur s b x.entry)) ∧
    u.arb = { s.arb with gates := eSet {} b.base { x with entry := gateNext s b x.entry, since := x.since + gateDur s b x.entry } s.arb.gates })

/-- A write that sets V of an entry that is not armed, of a unit whose table is in use, takes its other fields; when the entry's tenant is not
its counter's, or REL does not fit the command's kind, V stays 0 and a record is written; otherwise the entry is armed, in order of its
index, and fires at once when its counter has reached THRESH. A write that clears V disarms the entry at once and takes it out of the
firing queue. The first entry in a unit's queue issues its stored command: a one-shot entry (THRINC 0) leaves the armed ones, clears V and
sets FIRED; a persistent one stays armed and adds THRINC to THRESH. A START for a group of its tenant adds the amount it carries to the
counter it names at every member tile whose TNI is in use. A member that passed its deadline of 2 x STEPTO completes ST_COLL_TIMEOUT
naming rank 0, and its group is faulted. -/
def Obligations.EntriesArmFireAndStart : Prop :=
  (∀ (b : Blk) (e v : Nat) (s : State), e < 512 → tableOn s b = true → flag s (Reg.trigb b e) Trigb.V = false → bit v 0 = true →
    let r := Reg.trigb b e
    let w := softWrite s r (putBits v 0 0 0)
    let n := fld w r Trigb.TENANT
    let ok := relOk (Desc_cmd (storeDesc w b e)) (fld w r Trigb.REL)
    let m := { setFld w r Trigb.V 1 with trig := { w.trig with armed := (w.trig.armed.filter fun x => ! (x.1 == b && decide (e < x.2))) ++
      [(b, e)] ++ (w.trig.armed.filter fun x => x.1 == b && decide (e < x.2)) } }
    (n ≠ fld w (trigCtr w b e) Ctr.TENANT → exec (.triggerArm b e v) s = .next (log w { errOf (blkUnit b) .tenant 2 with tenant := n })) ∧
    (n = fld w (trigCtr w b e) Ctr.TENANT → ok = false →
      exec (.triggerArm b e v) s = .next (log w { errOf (blkUnit b) .format 2 with tenant := n })) ∧
    (n = fld w (trigCtr w b e) Ctr.TENANT → ok = true → flag m (trigCtr m b e) Ctr.FAIL = false → m.trig.queue.contains (b, e) = false →
      (reached m (trigCtr m b e) (fld m (Reg.triga b e) Triga.THRESH) = false → exec (.triggerArm b e v) s = .next m) ∧
      (reached m (trigCtr m b e) (fld m (Reg.triga b e) Triga.THRESH) = true →
        exec (.triggerArm b e v) s = .next { m with trig := { m.trig with queue := m.trig.queue ++ [(b, e)] } }))) ∧
  (∀ (b : Blk) (e v : Nat) (s : State), e < 512 → bit v 0 = false → ∃ u, exec (.triggerDisarm b e v) s = .next (softWrite u (Reg.trigb b e) v) ∧
    u.regs = (setFld s (Reg.trigb b e) Trigb.V 0).regs ∧
    u.trig = { s.trig with armed := s.trig.armed.filter fun x => x != (b, e), queue := s.trig.queue.filter fun x => x != (b, e) }) ∧
  (∀ (b : Blk) (e : Nat) (s : State), (s.trig.queue.find? fun x => x.1 == b) = some (b, e) → tableOn s b = true → (∀ t, b ≠ .tni t) → s.wf = true →
    ∃ u d, exec (.triggerFire b) s = .next u ∧ d = storeDesc u b e ∧ u.trig.issued = s.trig.issued ++ [⟨b, e, d⟩] ∧
      u.trig.queue = s.trig.queue.erase (b, e) ∧
      (fld s (Reg.triga b e) Triga.THRINC = 0 → flag u (Reg.trigb b e) Trigb.V = false ∧ flag u (Reg.trigb b e) Trigb.FIRED = true ∧
        (b, e) ∉ u.trig.armed) ∧
      (fld s (Reg.triga b e) Triga.THRINC ≠ 0 → u.trig.armed = s.trig.armed ∧
        fld u (Reg.triga b e) Triga.THRESH = (fld s (Reg.triga b e) Triga.THRESH + fld s (Reg.triga b e) Triga.THRINC) % 2 ^ 32)) ∧
  (∀ (t e : Nat) (o : CollOp) (s : State), (s.trig.queue.find? fun x => x.1 == .tni t) = some (.tni t, e) → tableOn s (.tni t) = true →
    opOf s t (fld s (Reg.trigb (.tni t) e) Trigb.GIDX) = some o → flag s (Reg.trigb (.tni t) e) Trigb.FIRST = false → s.wf = true →
    ∃ u, exec (.triggerFire (.tni t)) s = .next u ∧ u.coll = s.coll ∧ u.trig.queue = s.trig.queue.erase (.tni t, e) ∧
      u.trig.issued = s.trig.issued ++ [⟨.tni t, e, relDesc (storeDesc u (.tni t) e) (fld u (Reg.trigb (.tni t) e) Trigb.REL)
        (ColSrc o.desc) (ColDst o.desc)⟩]) ∧
  (∀ (m : SpMsg) (i : Nat) (s : State), markPasses s m = true → grpOf s m = some i → grpTenant s i = SpTenant m →
    ∃ u, exec (.start m) s = .next u ∧ u.regs = s.regs ∧
      u.trig = { s.trig with adds := s.trig.adds ++ (((List.range 64).filter fun t => isMember s t i && tableOn s (.tni t)).map fun t =>
        ⟨Reg.ctr (.tni t) (bits (SpPay m 0) 42 32), bits (SpPay m 0) 31 0, none⟩) }) ∧
  (∀ (tile i : Nat) (o : CollOp) (t0 : Nat) (s : State), s.wf = true → quiet s = true → s.slu.ops = [] → opOf s tile i = some o →
    o.lastAt = some t0 → o.lastLeft = 0 → Desc_cmd o.desc = 8 → ∃ u, exec (.memberTimeout tile i) s = .next u ∧
      u.clk.now = max s.clk.now (t0 + usCycles (2 * stepTo s i)) ∧ fld u (Reg.fabGrpA i) FabGrpA.STATE = 2 ∧ opOf u tile i = none ∧
      u.host.cmds = updFirst (fun c => c.id == o.cmd)
        (fun c => { c with left := 0, status := .collTimeout, bytes := 0, detail := 0 }) s.host.cmds)

/-- At an enabled context of its group an OPEN enters its input's signature and SEQ and starts the step timer; while fewer than NOPS inputs
have opened nothing is compared. A CLOSE keeps the digest it carries with its input, when it agrees or the input's packets are not all in.
A mark of another group is counted as stale and does nothing else. A RESULT sets a landing's mark, and the operation ends when every FINAL
landing has its positions and an agreeing mark. A RED_RESULT in the format its operation requires is written at its landing, what its
decoding rounds is counted, it is acknowledged, and its positions are added to the landing's counter. The coordinator takes the first
ABORT_REQ of an operation and sends ABORT to every member package (log 23); later ones do nothing. An ABORT ends every operation of the
group at this package and faults the group. A FREEZE waits for its TAPPLY; one that is late acts at once. -/
def Obligations.MarksDecideCollectives : Prop :=
  (∀ (m : SpMsg) (s : State), markPasses s m = true → (SpDst m).dep = 4 → tWf (fun _ => ({} : RedRun)) s.red = true →
    let x := ctxAt s (SpDst m).tile (SpCtx m)
    let r := redRun s x
    let i := inputOf r (SpRank m) (SpLvl m)
    let r' := { putInput r { i with sig := some (SpPay m 0), seq := SpSeq m } with step := some (r.step.getD s.clk.now) }
    let c := putInput r { i with close := some (SpPay m 0) }
    (markOk s x m = false → exec (.open_ m) s = .next (spStale (spTake s m) x.tile) ∧
      exec (.close m) s = .next (spStale (spTake s m) x.tile)) ∧
    (markOk s x m = true → r.opened = false → (r'.ins.filterMap RedIn.sig).length < x.nops →
      exec (.open_ m) s = .next (setRed (spTake s m) x r')) ∧
    (markOk s x m = true → r.opened = false → (r.done.all fun j => ! (j.rank == SpRank m && j.lvl == SpLvl m && j.seq == SpSeq m)) = true →
      i.n < x.halves ∨ SpPay m 0 = i.dig → exec (.close m) s = .next (setRed (spTake s m) x c))) ∧
  (∀ (m : SpMsg) (o : CollOp) (s : State), markPasses s m = true → (SpDst m).dep = 0 → s.slu.ops = [] →
    let t := (SpDst m).tile
    let l := SpCtx m
    let i := fld s (landReg t l) TniLand.GIDX
    let u := setLand (spTake s m) t l { landRun s t l with mark := some (SpPay m 0) }
    fld s (landReg t l) TniLand.TENANT = SpTenant m → grpId s i = (SpGroup m, SpEpoch m) → opOf s t i = some o →
    injArmed s (.tni t) .digest (fun k => k == 1) = false →
    (landOutcome u o = none → exec (.result m) s = .next u) ∧
    (landOutcome u o = some .ok → Desc_cmd o.desc = 8 →
      ((landsOf s t i).any fun k => (landRun u t k).psn || (landRun u t k).malf) = false → o.tile = t → o.gidx = i →
      ∃ v, exec (.result m) s = .next v ∧ opOf v t i = none ∧ v.regs = s.regs ∧ v.host.cmds = updFirst (fun c => c.id == o.cmd)
        (fun c => { c with left := 0, status := .ok, bytes := dstLen s t o.desc, detail := 0 }) s.host.cmds)) ∧
  (∀ (p : Pkt) (o : CollOp) (hs : List RedHalf) (a b : Nat) (ev : FmtEvents) (s : State), passesChecks s p = true →
    Ep_kind p.dst = .tile → s.slu.ops = [] → plainSend (received s p) p = true →
    let q := received s p
    let t := p.dst.tile
    let l := RaCtx p.addr
    let i := fld q (landReg t l) TniLand.GIDX
    fld q (landReg t l) TniLand.TENANT = p.tenant → opOf q t i = some o →
    p.efmt = wireEfmt (ColEfmt o.desc) (ColWire o.desc) → (p.sfmt = 0 ∨ ColWire o.desc = 0) →
    decodeContrib (landCtx q t l o.desc) { p with src := { p.src with dep := 4 } } = .good hs a b ev →
    let w := landCount (hs.foldl (fun s h => landHalf s t l o.desc p.poison h) (tniFmt q t { ev with isat := 0 })) t l (b - a)
    landOutcome (ackTo w p .ok) o = none → exec (.redResult p) s = .next (ackTo w p .ok) ∧ Answered (ackTo w p .ok) p .ack [0] ∧
      (ackTo w p .ok).trig.adds = q.trig.adds ++ [⟨Reg.ctr (.tni t) (fld w (landReg t l) TniLand.CTR), b - a, none⟩]) ∧
  (∀ (m : SpMsg) (i : Nat) (s : State), markPasses s m = true → grpOf s m = some i → grpTenant s i = SpTenant m →
    let k := (SpTenant m, SpGroup m, SpEpoch m, SpSeq m)
    (s.coll.aborts.contains k = true → exec (.abortReq m) s = .next (spTake s m)) ∧
    (s.coll.aborts.contains k = false → injArmed s (.rtr (SpDst m).tile) .spchk (fun _ => true) = false →
      ∃ u, exec (.abortReq m) s = .next u ∧ Only [.coll] s u ∧ u.coll.aborts = s.coll.aborts ++ [k] ∧
        u.coll.spNet = (spTake s m).coll.spNet ++ (memberChips s (SpTenant m) (SpGroup m) (SpEpoch m)).map fun ch => (⟨myChip s, (SpDst m).tile, 0⟩,
          SpStamp (grpMsg .abort (SpTenant m) ⟨ch, 0, 0⟩ 0 true (SpGroup m, SpEpoch m) (SpRank m) (SpLvl m) (SpSeq m) (SpPay m 0))))) ∧
  (∀ (m : SpMsg) (i : Nat) (s : State), s.wf = true → markPasses s m = true → s.slu.ops = [] → grpOf s m = some i →
    grpTenant s i = SpTenant m → ∃ u, exec (.abort m) s = .next u ∧ fld u (Reg.fabGrpA i) FabGrpA.STATE = 2 ∧
      (∀ o ∈ u.coll.ops, o.gidx ≠ i) ∧ (∀ o ∈ s.coll.ops, o.gidx ≠ i → o ∈ u.coll.ops)) ∧
  (∀ (m : SpMsg) (s : State), s.wf = true → markPasses s m = true → SpKindOf m = .freeze →
    (fineNow s < SpWord m 1 → exec (.freeze m) s =
      .next { spTake s m with obs := { s.obs with apply := s.obs.apply ++ [(SpWord m 1, bit (SpPay m 0) 0, bits (SpPay m 0) 63 32)] } }) ∧
    (SpWord m 1 ≤ fineNow s → isFrozen s = false → bit (SpPay m 0) 0 = false → ∃ u, exec (.freeze m) s = .next u ∧
      flag u Reg.telFrzStat TelFrzStat.FROZEN = true ∧ fld u Reg.telFrzStat TelFrzStat.FRZNO = bits (SpPay m 0) 63 32 ∧
      u.obs.latched.isSome = true))

/-- An UP for a node of its group and tenant enters the node's operation slot when the slot exists or one is free and nothing waits at the
stage, and while fewer than NIN inputs are in nothing is sent; otherwise it waits at the stage input. At a root whose inputs are all in
and agree, DOWN with the combined payload (for SUMCOUNT the counts behind the sums) goes to every recorded source and the slot is freed.
DOWN and DOWN_FAIL from the parent go to every recorded source and free the slot. At a member DOWN writes its payload at DST and the
operation ends; DOWN_FAIL ends it with the status and rank it carries, and the group is faulted. An UP that waits first and finds no slot
may move to the spill area of 64, which SPILLS counts; the oldest spilled one is taken back into its node when it has room. -/
def Obligations.StandpipeNodesCombine : Prop :=
  (∀ (src : Ep) (m : SpMsg) (i : Nat) (s : State), markPasses s m = true → nodeOf s (SpDst m).tile m = some i →
    fld s (Reg.rtrSpNode (SpDst m).tile i) RtrSpNode.TENANT = SpTenant m →
    let t := (SpDst m).tile
    let o := (spOpOf s t i).getD { tile := t, node := i, since := s.clk.now }
    let o' := { o with ins := o.ins ++ [⟨src, m⟩] }
    let free := spRoom s t i && ! s.coll.spWait.any fun w => w.1 == t
    (free = true → o'.ins.length < fld s (Reg.rtrSpNode t i) RtrSpNode.NIN → exec (.up src m) s = .next (putSpOp (spTake s m) o')) ∧
    (free = false → exec (.up src m) s =
      .next { s with coll := { (spTake s m).coll with spWait := s.coll.spWait ++ [(t, src, m)] } }) ∧
    (free = true → fld s (Reg.rtrSpNode t i) RtrSpNode.NIN ≤ o'.ins.length → flag s (Reg.rtrSpNode t i) RtrSpNode.ROOTN = true →
      spFailure ⟨myChip s, t, 4⟩ (byRank [] o'.ins) = none → injArmed s (.rtr t) .spchk (fun _ => true) = false →
      ∃ u, exec (.up src m) s = .next u ∧ spOpOf u t i = none ∧
        ∀ y ∈ o'.ins, ∃ d, (⟨myChip s, t, 4⟩, d) ∈ u.coll.spNet ∧ SpChk d = SpCheck d ∧
          d.words.drop 2 = ((List.range (ceilDiv (spCombine ⟨myChip s, t, 4⟩ (byRank [] o'.ins)).1.length 8)).map fun k =>
            ofLE (slice (spCombine ⟨myChip s, t, 4⟩ (byRank [] o'.ins)).1 (8 * k) 8)) ++ [crc64 0 (spCombine ⟨myChip s, t, 4⟩ (byRank [] o'.ins)).1])) ∧
  (∀ (m : SpMsg) (i : Nat) (o : SpOp) (s : State), markPasses s m = true → (SpDst m).dep = 4 → nodeOf s (SpDst m).tile m = some i →
    fld s (Reg.rtrSpNode (SpDst m).tile i) RtrSpNode.TENANT = SpTenant m →
    spOpOf s (SpDst m).tile i = some o → o.sentUp = true → injArmed s (.rtr o.tile) .spchk (fun _ => true) = false →
    (∃ u, exec (.down m) s = .next u ∧ Only [.coll] s u ∧ spOpOf u (SpDst m).tile i = none ∧
      u.coll.spNet = (spTake s m).coll.spNet ++ o.ins.map fun y =>
        (⟨myChip s, o.tile, 4⟩, SpStamp (SpTo m .down y.src))) ∧
    (∃ u, exec (.downFail m) s = .next u ∧ Only [.coll] s u ∧ spOpOf u (SpDst m).tile i = none ∧
      u.coll.spNet = (spTake s m).coll.spNet ++ o.ins.map fun y =>
        (⟨myChip s, o.tile, 4⟩, SpStamp (SpTo m .downFail y.src)))) ∧
  (∀ (m : SpMsg) (o : CollOp) (s : State), s.wf = true → markPasses s m = true → (SpDst m).dep = 0 → s.slu.ops = [] →
    spMember s (SpDst m).tile m = some o → grpPsn s (SpDst m).tile o.gidx = false → Desc_cmd o.desc = 8 →
    ((landsOf s o.tile o.gidx).any fun k => (landRun s o.tile k).psn || (landRun s o.tile k).malf) = false →
    (SpBytes m ≠ [] → ColCop o.desc ≠ 5 → ∃ u, exec (.down m) s = .next u ∧ Placed (ColDst o.desc) (SpBytes m) s u ∧
      opOf u o.tile o.gidx = none ∧ u.host.cmds = updFirst (fun c => c.id == o.cmd)
        (fun c => { c with left := 0, status := .ok, bytes := dstLen s o.tile o.desc, detail := 0 }) s.host.cmds) ∧
    (∃ u, exec (.downFail m) s = .next u ∧ SameBytes s u ∧ opOf u o.tile o.gidx = none ∧ fld u (Reg.fabGrpA o.gidx) FabGrpA.STATE = 2 ∧
      ∃ f, u.host.cmds = updFirst (fun c => c.id == o.cmd) f s.host.cmds ∧ ∀ c, (f c).left = 0 ∧
        (f c).status = Status.ofCode (bits (SpPay m 0) 7 0) ∧ (f c).detail = bits (SpPay m 0) 21 8)) ∧
  (∀ (t : Nat) (src : Ep) (m : SpMsg) (s : State), s.wf = true → s.coll.spWait.find? (fun w => w.1 == t) = some (t, src, m) →
    spFits s t m = false → (s.coll.spSpilled.filter fun w => w.1 == t).length < 64 → ∃ u, exec (.spSpill t src m) s = .next u ∧
      u.coll = { s.coll with spWait := dropFirst (fun w => w.1 == t) s.coll.spWait, spSpilled := s.coll.spSpilled ++ [(t, src, m)] } ∧
      RegsOutside [Reg.rtrSpStat t] s u ∧
      rd u (Reg.rtrSpStat t) = addF (rd s (Reg.rtrSpStat t)) RtrSpStat.SPILLS 1) ∧
  (∀ (t : Nat) (src : Ep) (m : SpMsg) (i : Nat) (s : State), s.coll.spSpilled.find? (fun w => w.1 == t) = some (t, src, m) →
    nodeOf s t m = some i → spRoom s t i = true →
    let o := (spOpOf s t i).getD { tile := t, node := i, since := s.clk.now }
    let o' := { o with ins := o.ins ++ [⟨src, m⟩] }
    o'.ins.length < fld s (Reg.rtrSpNode t i) RtrSpNode.NIN → exec (.spSpillReadback t) s =
      .next (putSpOp { s with coll := { s.coll with spSpilled := s.coll.spSpilled.erase (t, src, m) } } o'))

/-- A DISPATCH that passes its checks and need not wait takes a free operation record with its group index and STATE 1, and stands among the
started commands; its claims go out. An ASSIGN that is not awaited is acknowledged and changes nothing; one from a home that is awaited in
the present round, while another home is still missing, decides the claiming choices there, and is acknowledged. A RETURN in a form that a
COMBINE may require, for an admitted row, is written before COMBINE has come to its place in STAGE and acknowledged, or goes to the host
where STAGE is host memory, and GOT gains 1 with the row's last bytes. A COMBINE in whose form the staged rows came waits while returns
are missing; with every row staged, the DISPATCH completed and nothing poisoned it completes ST_OK, frees the record, and SEQ advances.
STEPTO after the DISPATCH began with an ASSIGN missing it completes ST_COLL_TIMEOUT. -/
def Obligations.OriginsDispatchAndCombine : Prop :=
  (∀ (src : CmdSrc) (c : Cmd) (k : Nat) (s : State), starts s src c = true → Desc_cmd c.desc = 9 → SluKind c.desc = 0 →
    Ep_kind c.ex = .tile → dispatchWaits s c = false → sluCheck (takeOffer s src) c = none → freeRecord s c.ex.tile = some k → s.wf = true →
    ∃ u o, exec (.sluiceDispatch src) s = .next u ∧ sluOf u c.ex.tile (SluGidx c.desc) = some o ∧ o.cmd = c.id ∧ o.desc = c.desc ∧ o.o = k ∧
      o.seq = fld s (Reg.tniGrpMember c.ex.tile (SluGidx c.desc)) TniGrpMember.SEQ ∧
      u.host.cmds = s.host.cmds ++ [{ c with left := 1 }] ∧ fld u (Reg.tniSluOstat c.ex.tile k) TniSluOstat.STATE = 1) ∧
  (∀ (p : Pkt) (o : SluOp) (s : State), passesChecks s p = true → SaKind p.addr = 1 → fmtReserved p = false →
    let q := received s p
    sluOf q p.dst.tile (SaGidx p.addr) = some o → grpTenant q (SaGidx p.addr) = p.tenant →
    let o' := { (assignList p.data).foldl (fun o e => assignEntry q o p.src e) o with homes := o.homes.erase p.src }
    let due := o.homes.contains p.src && SaRound p.addr == fld q (sluReg o) TniSluOstat.ROUND
    (due = false → exec (.assign p) s = .next (ackTo q p .ok)) ∧
    (due = true → o.phase = .barrier → o.homes.erase p.src ≠ [] → exec (.assign p) s = .next (ackTo (putSlu q o') p .ok))) ∧
  (∀ (p : Pkt) (o : SluOp) (s : State), s.wf = true → passesChecks s p = true → SaKind p.addr = 3 → plainSend (received s p) p = true →
    let q := received s p
    let key := 8 * SaToken p.addr + SaJ p.addr
    let place := relAdd (SluA3 o.desc) (stageStride (SluH o.desc) * key + 128 * SaPart p.addr)
    let had := ((o.staged.find? fun x => x.key == key && x.efmt == p.efmt).map Staged.n).getD 0
    sluOf q p.dst.tile (SaRow p.addr % 4096) = some o → grpTenant q (SaRow p.addr % 4096) = p.tenant →
    ((admitted o).any fun c => c.tok == SaToken p.addr && c.j == SaJ p.addr) = true → returnSound o p = true →
    o.combine = none → ∃ u, exec (.return_ p) s = .next u ∧ Answered u p .ack [0] ∧
      (region place ≠ 3 → Placed place p.data q u) ∧
      (region place = 3 → u.mem = q.mem ∧ u.host.out = q.host.out ++ [.data p.tenant (regOff place) p.data p.poison (flag q Reg.hpCfg HpCfg.RODATA)]) ∧
      (had < rowWire o p.efmt → rowWire o p.efmt ≤ had + p.data.length →
        fld u (sluReg o) TniSluOstat.GOT = (fld q (sluReg o) TniSluOstat.GOT + 1) % 2 ^ fldWidth TniSluOstat.GOT)) ∧
  (∀ (src : CmdSrc) (c : Cmd) (o : SluOp) (s : State), s.wf = true → starts s src c = true → Desc_cmd c.desc = 9 → SluKind c.desc = 2 →
    Ep_kind c.ex = .tile → sluCheck (takeOffer s src) c = none → sluOf s c.ex.tile (SluGidx c.desc) = some o →
    (s.slu.ops.filter fun x => x.tile == o.tile && x.o == o.o) = [o] →
    (o.staged.all fun x => x.efmt == wireEfmt (SluEfmt c.desc) (SluWire c.desc)) = true →
    (fld s (sluReg o) TniSluOstat.GOT < fld s (sluReg o) TniSluOstat.EXPECT → ∃ u, exec (.sluiceCombine src) s = .next u ∧
      sluOf u c.ex.tile (SluGidx c.desc) = some { o with combine := some (c.id, c.desc) } ∧
      u.host.cmds = s.host.cmds ++ [{ c with left := 1 }]) ∧
    (fld s (sluReg o) TniSluOstat.EXPECT ≤ fld s (sluReg o) TniSluOstat.GOT → o.psn = false → o.phase = .done → ∃ u b, exec (.sluiceCombine src) s = .next u ∧
        (∀ x ∈ u.slu.ops, x ∈ s.slu.ops ∧ x ≠ o) ∧ rd u (sluReg o) = 0 ∧
        u.host.cmds = updFirst (fun x => x.id == c.id) (fun x => { x with left := 0, status := .ok, detail := 0, bytes := b })
          (s.host.cmds ++ [{ c with left := 1 }]))) ∧
  (∀ (t i : Nat) (o : SluOp) (s : State), s.wf = true → quiet s = true → sluOf s t i = some o → o.phase ≠ .done →
    ∃ u, exec (.sluiceTimeout t i) s = .next u ∧ u.clk.now = max s.clk.now (o.since + usCycles (stepTo s i)) ∧
      fld u (sluReg o) TniSluOstat.STATE = 2 ∧ ∃ rank, u.host.cmds = updFirst (fun c => c.id == o.cmd)
        (fun c => { c with left := 0, status := .collTimeout, detail := rank }) s.host.cmds)

/-- A write that sets V of a free inbox slot takes its fields, and V becomes 1 only when EFMT, CAP, OFFSET, the window and the range are
right; at a tile without a sluice in use neither write does anything. Clearing V clears the slot's FILLED, ARRIVED, STATUS, STATE and
POISONED, drops its claims and rows, and a RETURN that still waits for the slot ends ST_ABORTED. A CLAIM whose entries the slots accept is
held with its origin's rank and acknowledged; one that a slot refuses is answered by ERR_RSP with that status. Admission at the end of the
round gives a claim, the only one of its origin, as many rows as are free, FILLED advances by them, DROPS by the rest, and an ASSIGN with
slot, choice, count and first row goes to the origin. A row packet of an admitted row is written to its place, its tag with its first
packet, its format events are counted, and it is acknowledged, and ARRIVED gains 1 with its last byte. A RETURN waits until its slot is
full. -/
def Obligations.HomesAdmitAndReturn : Prop :=
  (∀ (t k a b : Nat) (s : State), t < 64 → k < 64 → flag s (inbA t k) TniSluInba.V = false → bit a 0 = true →
    (tableOn s (.tni t) = false → exec (.inboxEnable t k a b) s = .next s) ∧ (tableOn s (.tni t) = true →
    let w := softWrite (softWrite s (inbB t k) b) (inbA t k) (putBits a 0 0 0)
    let ef := fld w (inbA t k) TniSluInba.EFMT
    let ok := decide (1 ≤ ef) && decide (ef ≤ 6) && inbCap w t k != 0 && fld w (inbB t k) TniSluInbb.OFFSET % 128 == 0 &&
      inbInside w t k && ! badRange w (fld w (inbA t k) TniSluInba.TENANT) (inbAddr w t k 0) (inbLen w t k)
    exec (.inboxEnable t k a b) s = .next (if ok then setFld w (inbA t k) TniSluInba.V 1 else w))) ∧
  (∀ (t k v : Nat) (s : State), tableOn s (.tni t) = false → exec (.inboxDisable t k v) s = .next s) ∧
  (∀ (t k v : Nat) (s : State), s.wf = true → t < 64 → k < 64 → bit v 0 = false → tableOn s (.tni t) = true →
    ∃ u, exec (.inboxDisable t k v) s = .next u ∧ flag u (inbA t k) TniSluInba.V = false ∧ fld u (inbS t k) TniSluIstat.STATE = 0 ∧
      fld u (inbS t k) TniSluIstat.FILLED = 0 ∧ fld u (inbS t k) TniSluIstat.ARRIVED = 0 ∧ fld u (inbS t k) TniSluIstat.POISONED = 0 ∧
      (∀ c ∈ u.slu.claims, ¬ (c.tile = t ∧ c.slot = k)) ∧ (∀ x ∈ u.slu.assigns, ¬ (x.1.tile = t ∧ x.1.slot = k)) ∧ (∀ r ∈ u.slu.rows, ¬ (r.tile = t ∧ r.slot = k)) ∧
      (∀ r, s.slu.rets = [r] → r.tile = t → r.slot = k → r.started = false →
        (s.dyn.waiting.filter fun q => Purpose_cmd q.why == some r.cmd) = [] → u.slu.rets = [] ∧
        u.host.cmds = updFirst (fun c => c.id == r.cmd) (fun c => failWith .aborted { c with left := 0 }) s.host.cmds)) ∧
  (∀ (p : Pkt) (s : State), passesChecks s p = true → SaKind p.addr = 0 → fmtReserved p = false →
    let q := received s p
    let es := claimList p.data
    let no := es.findSome? fun e => claimRefused q p e.1
    (no = none → plainSend q p = true → ∃ u, exec (.claim p) s = .next u ∧ Answered u p .ack [0] ∧
      u.slu.claims = q.slu.claims ++ es.map fun e => ⟨p.dst.tile, e.1, e.2.1, SaRound p.addr, originRank q (SaGidx p.addr) p.src, e.2.2,
        SaSeq p.addr, p.src, p.tenant, p.layer, p.opid⟩) ∧
    (∀ st, no = some st → st ≠ .tenantViolation → exec (.claim p) s = .next (errTo q p st))) ∧
  (∀ (t k round : Nat) (c : Claim) (s : State), s.wf = true → flag s (inbA t k) TniSluInba.V = true → inbState s t k ≠ 0 → inbState s t k ≠ 3 →
    c.tile = t → c.slot = k → lastRound s t k round = false → roundOver s t (fld s (inbA t k) TniSluInba.GIDX) (slotSeq s t k) round = true →
    (s.slu.claims.filter fun x => x.tile == t && x.slot == k && x.round == round && x.seq == slotSeq s t k) = [c] →
    (s.slu.claims.filter fun d => assignKey s d == assignKey s c) = [c] → s.slu.assigns = [] → s.slu.rets = [] →
    let a := min c.count (inbCap s t k - inbFilled s t k)
    ∃ u w, exec (.homeAdmission t [k] round) s = .next u ∧ u.slu.assigns = [] ∧ fld u (inbS t k) TniSluIstat.FILLED = (inbFilled s t k + a) % 2 ^ fldWidth TniSluIstat.FILLED ∧
      (a ≠ 0 → u.slu.rows = s.slu.rows ++ [⟨t, k, inbFilled s t k, a, c.origin⟩]) ∧ c ∉ u.slu.claims ∧
      u.dyn.waiting = s.dyn.waiting ++ [w] ∧ w.pkt.opc = .sluDispatch ∧ w.pkt.dst = c.origin ∧ SaKind w.pkt.addr = 1 ∧
      w.pkt.data = toLE 8 (k * 2 ^ 58 + c.j * 2 ^ 55 + a * 2 ^ 16 + inbFilled s t k)) ∧
  (∀ (p : Pkt) (off : Nat) (bs : List Byte) (ev : FmtEvents) (s : State), s.wf = true → passesChecks s p = true → SaKind p.addr = 2 →
    plainSend (received s p) p = true → s.slu.rets = [] →
    let q := received s p
    let t := p.dst.tile
    let k := SaSlot p.addr
    let row := SaRow p.addr
    let had := eGet 0 (rowKey t k row) q.slu.rowGot
    flag q (inbA t k) TniSluInba.V = true → fld q (inbA t k) TniSluInba.TENANT = p.tenant → p.poison = false → inbState q t k = 2 →
    rowBytes (fld q (inbA t k) TniSluInba.EFMT) (fld q (inbA t k) TniSluInba.WIRE) (inbH q t k) p = some (off, bs, ev) →
    (q.slu.rows.any fun r => r.tile == t && r.slot == k && decide (r.first ≤ row) && decide (row < r.first + r.n) && r.origin == p.src) = true →
    let place := inbAddr q t k (row * inbStride q t k + off)
    let tag := p.src.chip * 2 ^ 56 + p.src.tile * 2 ^ 50 + SaJ p.addr * 2 ^ 47 + SaToken p.addr
    ∃ u, exec (.rows p) s = .next u ∧ Answered u p .ack [0] ∧ rd u (Reg.tniFmtStat t) = rd (tniFmt q t ev) (Reg.tniFmtStat t) ∧
      (had ≠ 0 → Placed place bs q u) ∧
      (had = 0 → ∃ m, Placed place bs q m ∧ Placed (inbAddr q t k (inbCap q t k * inbStride q t k + 8 * row)) (toLE 8 tag) m u) ∧
      (had + bs.length < inbH q t k * inbW q t k → fld q (inbS t k) TniSluIstat.ARRIVED ≠ inbFilled q t k → rd u (inbS t k) = rd q (inbS t k)) ∧
      (had < inbH q t k * inbW q t k → inbH q t k * inbW q t k ≤ had + bs.length →
        fld u (inbS t k) TniSluIstat.ARRIVED = (fld q (inbS t k) TniSluIstat.ARRIVED + 1) % 2 ^ fldWidth TniSluIstat.ARRIVED)) ∧
  (∀ (src : CmdSrc) (c : Cmd) (s : State), starts s src c = true → Desc_cmd c.desc = 9 → SluKind c.desc = 1 → Ep_kind c.ex = .tile →
    sluCheck (takeOffer s src) c = none → s.slu.rets = [] → inbState s c.ex.tile (SluSlot c.desc) ≠ 3 →
    ∃ u, exec (.sluiceReturn src) s = .next u ∧ u.slu.rets = [{ tile := c.ex.tile, slot := SluSlot c.desc, cmd := c.id }] ∧
      u.dyn.waiting = s.dyn.waiting ∧ u.host.cmds = s.host.cmds ++ [{ c with left := 1 }])

/-- A SEND that passes its checks sends its 56 bytes as one MSG at priority 2 and stands among the started commands. A MSG of the tile's
tenant is answered REGION_FAULT at a FREE channel, CHANNEL_CLOSED at a closed one and POISONED at a dead one, counted in REFUSED. A
well-formed one at an open channel takes the next ASEQ and waits for its ring write while the ring has room; without room it goes to the
spillway slot next in order, by a 64-byte write at priority 2, SPCNT advancing; and with the spillway full too it is answered SPILL_FULL.
The first message that waits is written at TAIL with the pointer line after it, RCNT advances and its sender gets ST_OK. A spill write not
complete after 100 us voids its slot. With room in the ring the oldest spilled message is read back. -/
def Obligations.MessagesReachChannels : Prop :=
  (∀ (src : CmdSrc) (c : Cmd) (s : State), starts s src c = true → Desc_cmd c.desc = 10 → sendCheck (takeOffer s src) c = none →
    ∃ u w, exec (.send src) s = .next u ∧ u.dyn.waiting = s.dyn.waiting ++ [w] ∧ w.why = .cmdAck c.id ∧ w.pkt.opc = .msg ∧
      w.pkt.dst = SendDst c.desc ∧ w.pkt.addr = SendChan c.desc ∧ w.pkt.prio = 2 ∧ w.pkt.tenant = c.tenant ∧
      w.pkt.data = slice c.inl 0 56 ++ List.replicate 8 0 ∧ u.host.cmds = s.host.cmds ++ [{ c with left := 1 }]) ∧
  (∀ (p : Pkt) (s : State), s.wf = true → passesChecks s p = true → p.tenant ≠ 0 →
    let q := received s p
    let t := p.dst.tile
    let c := p.addr % 4096
    let asq := fld q (chStat t c) TniChStat.ASEQ
    let m := mkMsg p.data (msgWord p.src p.tenant false false false 0 asq)
    let r := chan q t c
    p.tenant = owner q t → p.data.length = 64 →
    (chState q t c = 0 → exec (.msg p) s = .next (ackTo (chCount q t TniChCount.REFUSED 1) p .regionFault)) ∧
    (chState q t c = 2 → exec (.msg p) s = .next (ackTo (chCount q t TniChCount.REFUSED 1) p .channelClosed)) ∧
    (chState q t c = 3 → exec (.msg p) s = .next (ackTo (chCount q t TniChCount.REFUSED 1) p .poisoned)) ∧
    (chState q t c = 1 → fld q (chCfg t c) TniChCfg.KIND = 0 → p.poison = false → fmtSound p = true →
      (ringRoom q t c = true → ∃ u, exec (.msg p) s = .next u ∧ u.dyn = q.dyn ∧
        fld u (chStat t c) TniChStat.ASEQ = (asq + 1) % 2 ^ fldWidth TniChStat.ASEQ ∧
        u.chan.runs = eSet {} (4096 * t + c) { r with writes := r.writes ++ [⟨m, some p, false⟩] } q.chan.runs) ∧
      (ringRoom q t c = false → chSpcnt q t c < chSpcap q t c → ∃ u w, exec (.msg p) s = .next u ∧ u.dyn.waiting = q.dyn.waiting ++ [w] ∧
        w.why = .spillWr t c r.nextSpill ∧ w.pkt.opc = .wr ∧ w.pkt.addr = spillAddr q t c r.nextSpill ∧ w.pkt.prio = 2 ∧ w.pkt.data = m ∧
        fld u (chStat t c) TniChStat.SPCNT = (chSpcnt q t c + 1) % 2 ^ fldWidth TniChStat.SPCNT ∧
        u.chan.runs = eSet {} (4096 * t + c) { r with spill := r.spill ++ [⟨r.nextSpill, .pending, m, some p, q.clk.now, p.layer, p.opid⟩],
                                                      nextSpill := (r.nextSpill + 1) % max 1 (chSpcap q t c) } q.chan.runs) ∧
      (ringRoom q t c = false → chSpcap q t c ≤ chSpcnt q t c →
        exec (.msg p) s = .next (ackTo (chCount q t TniChCount.SPFULL 1) p .spillFull)))) ∧
  (∀ (t c : Nat) (w : ChanWrite) (rest : List ChanWrite) (p : Pkt) (s : State), s.wf = true → (chan s t c).writes = w :: rest →
    t < 64 → c < 4096 → w.ack = some p → w.refill = false → w.msg.length = 64 → plainSend s p = true →
    let n := chDepth s t c
    let slot := (fld s (chStat t c) TniChStat.HEAD + chRcnt s t c) % n
    ∃ u, exec (.ringWrite t c) s = .next u ∧ Answered u p .ack [0] ∧
      fld u (chStat t c) TniChStat.RCNT = (chRcnt s t c + 1) % 2 ^ fldWidth TniChStat.RCNT ∧
      (∀ i, i < 64 → readByte u (ringAddr s t c (64 * slot) + i) = w.msg.getD i 0) ∧
      (∀ i, i < 64 → readByte u (ringAddr s t c (64 * n) + i) =
        (toLE 2 ((slot + 1) % n) ++ toLE 2 (msgAseq w.msg) ++ List.replicate 60 0).getD i 0) ∧
      (∀ x, x < ringAddr s t c (64 * slot) ∨ ringAddr s t c (64 * slot) + 64 ≤ x → x < ringAddr s t c (64 * n) ∨ ringAddr s t c (64 * n) + 64 ≤ x →
        readByte u x = readByte s x)) ∧
  (∀ (t c k : Nat) (x : SpillSlot) (p : Pkt) (s : State), quiet s = true → ((chan s t c).spill.filter fun y => y.k == k) = [x] → x.st = .pending → x.ack = some p →
    tWf (fun _ => ({} : ChanRun)) s.chan.runs = true → plainSend s p = true → s.wf = true →
    ∃ u, exec (.spillWriteTimeout t c k) s = .next u ∧ u.clk.now = max s.clk.now (x.entered + usCycles 100) ∧
      Answered u p .ack [BitVec.ofNat 8 Status.spillFull.code] ∧ spillAt u t c k .pending = none) ∧
  (∀ (t c : Nat) (x : SpillSlot) (s : State), chRcnt s t c + refilling s t c < chDepth s t c →
    ((chan s t c).spill.find? fun y => y.st == .pending || y.st == .held) = some x →
    (x.st = .pending → exec (.refillRead t c) s = .next s) ∧
    (x.st = .held → ∃ u w, exec (.refillRead t c) s = .next u ∧ u.dyn.waiting = s.dyn.waiting ++ [w] ∧ w.why = .refill t c x.k ∧
      w.pkt.opc = .rdReq ∧ w.pkt.addr = spillAddr s t c x.k ∧ w.pkt.nbytes = 64 ∧ w.pkt.prio = 2 ∧
      u.chan.runs = eSet {} (4096 * t + c) { chan s t c with
        spill := updFirst (fun y => y.k == x.k) (fun y => { y with st := .reading }) (chan s t c).spill } s.chan.runs))

/-- The TNI presents the ready channel that comes before every other ready one, with its handler and the address of the oldest ring slot, and
sets DISP; with none ready nothing happens. RETIRE of n messages, not in the cycle of a reset, moves HEAD on by n modulo DEPTH, lowers
RCNT by n and clears DISP; with n 0 or above RCNT it only writes a record. CLOSE closes an open channel and leaves its messages; a partial
combining round is delivered. REOPEN opens a closed channel. RESET answers every waiting sender CHANNEL_CLOSED, empties ring and spillway,
counts what is lost, and leaves the channel closed; a FREE channel stays as it is. -/
def Obligations.CoresServeChannels : Prop :=
  (∀ (t : Nat) (s : State), let cs := ((s.chan.runs.filter fun x => x.1 / 4096 == t).map fun x => x.1 % 4096).filter (chReady s t)
    (cs = [] → exec (.handlerDispatch t) s = .next s) ∧
    (∀ c ∈ cs, (∀ d ∈ cs, d ≠ c → chBefore s t c d = true ∧ chBefore s t d c = false) → chBefore s t c c = false →
      exec (.handlerDispatch t) s = .next { setFld s (chStat t c) TniChStat.DISP 1 with chan := { s.chan with shown := s.chan.shown ++
        [⟨t, c, fld s (Reg.tniChHtab t (fld s (chCfg t c) TniChCfg.HIDX)) TniChHtab.ENTRY,
          ringAddr s t c (64 * fld s (chStat t c) TniChStat.HEAD)⟩] } })) ∧
  (∀ (t c n : Nat) (s : State), s.wf = true → (chan s t c).stale = false → (chan s t c).resetAt ≠ some s.clk.now →
    (n = 0 ∨ chRcnt s t c < n → exec (.retire t c n) s = .next (log s { errOf (unitCode .tni t) .format 2 with tenant := owner s t })) ∧
    (n ≠ 0 → n ≤ chRcnt s t c → ∃ u, exec (.retire t c n) s = .next u ∧ RegsOutside [chStat t c] s u ∧
      fld u (chStat t c) TniChStat.HEAD = ((fld s (chStat t c) TniChStat.HEAD + n) % chDepth s t c) % 2 ^ fldWidth TniChStat.HEAD ∧
      fld u (chStat t c) TniChStat.RCNT = chRcnt s t c - n ∧ flag u (chStat t c) TniChStat.DISP = false ∧
      fld u (chStat t c) TniChStat.STATE = chState s t c)) ∧
  (∀ (t c : Nat) (s : State), s.wf = true →
    (chState s t c ≠ 1 → exec (.channelCoreClose t c) s = .next s) ∧
    (chState s t c = 1 → (chan s t c).acc.count = 0 → exec (.channelCoreClose t c) s = .next (setFld s (chStat t c) TniChStat.STATE 2)) ∧
    (chState s t c = 1 → (chan s t c).acc.count ≠ 0 →
      ∃ u, exec (.channelCoreClose t c) s = .next u ∧ chState u t c ≠ 1 ∧ chRcnt u t c = chRcnt s t c) ∧
    (chState s t c = 2 → ∃ u, exec (.reopen t c) s = .next u ∧ Only [.regs] s u ∧ RegsOutside [chStat t c] s u ∧ chState u t c = 1 ∧
      chRcnt u t c = chRcnt s t c) ∧
    (chState s t c ≠ 2 → exec (.reopen t c) s = .next s)) ∧
  (∀ (t c : Nat) (s : State), s.wf = true →
    (chState s t c = 0 → exec (.channelCoreReset t c) s = .next s) ∧
    (chState s t c ≠ 0 → ∃ u, exec (.channelCoreReset t c) s = .next u ∧ chState u t c = 2 ∧ chRcnt u t c = 0 ∧ chSpcnt u t c = 0 ∧
      fld u (chStat t c) TniChStat.HEAD = 0 ∧ fld u (chStat t c) TniChStat.ASEQ = 0 ∧
      u.chan.runs = eSet {} (4096 * t + c)
        { stale := (chan s t c).stale || flag s (chStat t c) TniChStat.DISP, resetAt := some s.clk.now } s.chan.runs ∧
      (∀ p, (chan s t c).writes.filterMap ChanWrite.ack = [p] → (chan s t c).spill.filterMap SpillSlot.ack = [] →
        (s.dyn.waiting.filter fun r => chanPurpose t c r.why) = [] → plainSend s p = true →
        Answered u p .ack [BitVec.ofNat 8 Status.channelClosed.code])))

/-- A doorbell of a running ring sets TAIL to the index it carries modulo the ring's size, publishes the advance, and resumes a stalled ring;
an executor beside the HP is told the advance by a CTR_ADD to DBCTR, into which a further advance merges while it still waits. A doorbell
of a completion ring moves its head, releases the records between and arms the interrupt when it says so; they have no effect on a ring
that is off. A fetch reads the slot at HEAD and the three after it from the host, in two reads where they pass the ring's end. One that
returns a valid and fully published descriptor queues it with the slot at HEAD, moves HEAD past its slots, and inverts the expected phase
at a wrap. One whose inline slots are not published yet waits until they are. A fetch that does not return a valid one opens the stale
window, a re-read comes REREAD later, and when the window has run out the ring stalls, unless it is dead, with ST_RING_STALE; an
unsupported request stalls it with ST_REGION_FAULT. A stray access counts in STRAY and is recorded. -/
def Obligations.RingsPublishAndFetch : Prop :=
  (∀ (fn r v : Nat) (s : State),
    let x := Reg.hpCrStat fn r
    let size := ringSize s fn r
    let new := bits v 15 0 % size
    let adv := (new + size - fld s x HpCrStat.TAIL % size) % size
    (ringOn s fn r = false → exec (.crDoorbell fn r v) s = .next s) ∧
    (ringOn s fn r = true → s.wf = true → size ≤ 65536 → 0 < size → ∃ u, exec (.crDoorbell fn r v) s = .next u ∧ RegsOutside [x] s u ∧
      fld u x HpCrStat.TAIL = new ∧ fld u x HpCrStat.STATE = (if fld s x HpCrStat.STATE = 2 then 1 else fld s x HpCrStat.STATE) ∧
      u.host.rings = eSet {} (ringKey fn r) { ring s fn r with published := ((ring s fn r).published + adv) % 2 ^ 32, stale := false } s.host.rings ∧
      (ringEx s fn r = hpEp (myChip s) → u.dyn = s.dyn) ∧
      (ringEx s fn r ≠ hpEp (myChip s) → adv ≠ 0 →
        let p : Pkt := { opc := .ctrAdd, src := hpEp (myChip s), dst := ringEx s fn r, tenant := fn, prio := 2, nbytes := 5, layer := 0xFFFF,
                         opid := 0xFFFF, addr := fld s (Reg.hpCrCfgb fn r) HpCrCfgb.DBCTR, data := toLE 4 adv ++ [0] }
        (s.dyn.waiting.any (sameAdd p) = false → ∃ w, u.dyn.waiting = s.dyn.waiting ++ [w] ∧ w.pkt = p) ∧
        ∀ before after w, s.dyn.waiting = before ++ w :: after → before.any (sameAdd p) = false → sameAdd p w = true →
          u.dyn.waiting = before ++ { w with pkt := { w.pkt with data := toLE 4 (ofLE (slice w.pkt.data 0 4) + adv) ++ [0] } } :: after))) ∧
  (∀ (fn q v : Nat) (s : State),
    let on := decide (fn < 64) && decide (q < 16) && fnState s fn == 1 && s.host.linkUp && flag s (Reg.hpCqCfg fn q) HpCqCfg.EN
    let size := cqSize s fn q
    let k := cq s fn q
    let new := bits v 15 0 % size
    (on = false → exec (.cqDoorbell fn q v) s = .next s) ∧
    (on = true → ∃ u, exec (.cqDoorbell fn q v) s = .next u ∧ u.regs = s.regs ∧ u.host.cqs = eSet {} (ringKey fn q) { k with
      head := new, released := (k.released + (new + size - k.head % size) % size) % 2 ^ 32, armed := k.armed || bit v 31 } s.host.cqs)) ∧
  (∀ (fn r : Nat) (bs : List Byte) (s : State), mayFetch s fn r = true → s.wf = true → injArmed s .hp .host (fun _ => true) = false →
    let x := ring s fn r
    let g := if x.t0.isSome then max s.clk.now (x.lastData + rereadCycles s) else s.clk.now
    let go := if x.t0.isSome then exec (.descriptorReread fn r (.ok bs)) s else exec (.descriptorFetch fn r (.ok bs)) s
    let d := descOf bs
    let h := fld s (Reg.hpCrStat fn r) HpCrStat.HEAD
    let size := ringSize s fn r
    quiet s = true →
    (descValid x.phase d.1 d.2 = true → descSlots d.1 ≤ toFetch s fn r → ∃ u, go = .next u ∧ u.clk.now = g ∧
      fld u (Reg.hpCrStat fn r) HpCrStat.HEAD = ((h + descSlots d.1) % size) % 2 ^ fldWidth HpCrStat.HEAD ∧
      u.host.out = s.host.out ++ fetchReads s fn r ∧ u.host.rings = eSet {} (ringKey fn r) { x with
        fetched := (x.fetched + descSlots d.1) % 2 ^ 32, t0 := none, need := 0, queue := x.queue ++ [⟨h, d.1, d.2, false⟩],
        phase := if size ≤ h + descSlots d.1 then ! x.phase else x.phase } s.host.rings) ∧
    (descValid x.phase d.1 d.2 = true → toFetch s fn r < descSlots d.1 → ∃ u, go = .next u ∧ u.regs = s.regs ∧
      u.host.out = s.host.out ++ fetchReads s fn r ∧
      u.host.rings = eSet {} (ringKey fn r) { x with t0 := none, need := descSlots d.1 } s.host.rings) ∧
    (descValid x.phase d.1 d.2 = false → g + rereadCycles s < x.t0.getD g + staleCycles s → ∃ u, go = .next u ∧ u.clk.now = g ∧
      u.regs = s.regs ∧ u.host.out = s.host.out ++ fetchReads s fn r ∧
      u.host.rings = eSet {} (ringKey fn r) { x with t0 := some (x.t0.getD g), lastData := g } s.host.rings) ∧
    (descValid x.phase d.1 d.2 = false → x.t0.getD g + staleCycles s ≤ g + rereadCycles s → ∃ u, go = .next u ∧ u.clk.now = g ∧
      fld u (Reg.hpCrStat fn r) HpCrStat.STATE = (if fld s (Reg.hpCrStat fn r) HpCrStat.STATE = 3 then 3 else 2) ∧
      fld u (Reg.hpCrStat fn r) HpCrStat.STATUS = Status.ringStale.code ∧ (ring u fn r).stale = true)) ∧
  (∀ (fn r : Nat) (s : State), mayFetch s fn r = true → s.wf = true → injArmed s .hp .host (fun _ => true) = false →
    (ring s fn r).t0 = none → ∃ u, exec (.descriptorFetch fn r .unsupported) s = .next u ∧
      fld u (Reg.hpCrStat fn r) HpCrStat.STATE = (if fld s (Reg.hpCrStat fn r) HpCrStat.STATE = 3 then 3 else 2) ∧
      fld u (Reg.hpCrStat fn r) HpCrStat.STATUS = Status.regionFault.code) ∧
  (∀ (fn off : Nat) (w : Bool) (s : State), fn < 64 → barReg fn off = .stray → s.host.linkUp = true → portOpen s = true →
    exec (.strayAccess fn off w) s = .next (log (bump s (Reg.hpFnStat fn) HpFnStat.STRAY 1) { errOf (unitCode .hp 0) .host 2 with tenant := fn }))

/-- A command whose owning context is dead completes ST_POISONED without acting, and one that a check stops completes with that status;
neither sends a request. NOP completes ST_OK. COPY sends one read a piece whose data goes out as a write to the destination's piece;
WRITE_INLINE one write a piece with its inline bytes; ATOMIC one atomic of its AOP; MCAST_WRITE and CONTRIB read their source, piece by
piece; CTR_ADD sends one CTR_ADD at priority 2. Each counts the pieces it waits for. A COLLECTIVE that passes its checks takes SEQ and
adds 1 to its member's SCTR, on the standpipe too. A ring's command with nothing outstanding completes: it leaves the started ones, and
its record with slot, user word and status is written to its completion ring at the write index (no message of the ring's vector being
pending in this cycle). -/
def Obligations.CommandsRunAndComplete : Prop :=
  (∀ (src : CmdSrc) (c : Cmd) (s : State), offered s src = some c → srcDead s src = true →
    ∀ ki ∈ [(1, Instr.nop src), (2, .copy src), (3, .writeInline src), (4, .atomic src), (5, .mcastWrite src), (6, .contrib src),
      (7, .ctrAddCommand src)], Desc_cmd c.desc = ki.1 → ∃ u, exec ki.2 s = .next u ∧ u.dyn = s.dyn ∧
        u.host.cmds = s.host.cmds ++ [{ c with status := .poisoned }]) ∧
  (∀ (src : CmdSrc) (c : Cmd) (st : Status) (s : State), starts s src c = true → checkCmd (takeOffer s src) c = some st →
    ∀ ki ∈ [(1, Instr.nop src), (2, .copy src), (3, .writeInline src), (4, .atomic src), (5, .mcastWrite src), (6, .contrib src),
      (7, .ctrAddCommand src)], Desc_cmd c.desc = ki.1 → ∃ u, exec ki.2 s = .next u ∧ u.dyn = s.dyn ∧
        u.host.cmds = s.host.cmds ++ [{ c with status := st }]) ∧
  (∀ (src : CmdSrc) (c : Cmd) (s : State), starts s src c = true → checkCmd (takeOffer s src) c = none →
    (Desc_cmd c.desc = 1 → ∃ u, exec (.nop src) s = .next u ∧ u.dyn = s.dyn ∧ u.host.cmds = s.host.cmds ++ [{ c with status := .ok }]) ∧
    (Desc_cmd c.desc = 2 → ∃ u, exec (.copy src) s = .next u ∧ u.host.cmds = s.host.cmds ++ [{ c with left := (copyPlan c).length }] ∧
      u.dyn.waiting.length = s.dyn.waiting.length + (copyPlan c).length ∧
      ∀ p ∈ copyPlan c, ∃ w ∈ u.dyn.waiting, ∃ x, w.why = .fetch c.id x (.cmdWr c.id p.2.2) ∧ w.pkt.opc = .rdReq ∧ w.pkt.addr = p.1 ∧
        w.pkt.nbytes = p.2.2 ∧ x.opc = .wr ∧ x.addr = p.2.1 ∧ x.nbytes = p.2.2) ∧
    (Desc_cmd c.desc = 3 → let ps := pieces (Desc_a0 c.desc) (Desc_len c.desc)
      ∃ u, exec (.writeInline src) s = .next u ∧ u.host.cmds = s.host.cmds ++ [{ c with left := ps.length }] ∧
        u.dyn.waiting.length = s.dyn.waiting.length + ps.length ∧ ∀ p ∈ ps, ∃ w ∈ u.dyn.waiting, w.why = .cmdWr c.id p.2 ∧ w.pkt.opc = .wr ∧
          w.pkt.addr = p.1 ∧ w.pkt.nbytes = p.2 ∧ w.pkt.data = slice c.inl (p.1 - Desc_a0 c.desc) p.2) ∧
    (Desc_cmd c.desc = 4 → ∃ u w, exec (.atomic src) s = .next u ∧ u.host.cmds = s.host.cmds ++ [{ c with left := 1 }] ∧
      u.dyn.waiting = s.dyn.waiting ++ [w] ∧ w.why = .cmdAt c.id ∧ w.pkt.addr = Desc_a0 c.desc ∧ w.pkt.data = c.inl ∧
      w.pkt.opc = (if Desc_aop c.desc = 0 then .atFadd else if Desc_aop c.desc = 1 then .atSwap else .atCas)) ∧
    (Desc_cmd c.desc = 5 ∨ Desc_cmd c.desc = 6 → let a := if Desc_cmd c.desc = 5 then Desc_a1 c.desc else Desc_a0 c.desc
      ∃ u, exec (if Desc_cmd c.desc = 5 then .mcastWrite src else .contrib src) s = .next u ∧
        u.host.cmds = s.host.cmds ++ [{ c with left := 1 }] ∧ ∀ p ∈ pieces a (Desc_len c.desc), ∃ w ∈ u.dyn.waiting,
          w.why = .gather c.id (p.1 - a) p.2 ∧ w.pkt.opc = .rdReq ∧ w.pkt.addr = p.1 ∧ w.pkt.nbytes = p.2) ∧
    (Desc_cmd c.desc = 7 → ∃ u w, exec (.ctrAddCommand src) s = .next u ∧ u.host.cmds = s.host.cmds ++ [{ c with left := 1 }] ∧
      u.dyn.waiting = s.dyn.waiting ++ [w] ∧ w.why = .cmdAck c.id ∧ w.pkt.opc = .ctrAdd ∧ w.pkt.prio = 2 ∧ w.pkt.dst = Desc_target c.desc ∧
      w.pkt.addr = bits (Desc_a1 c.desc) 10 0 ∧ w.pkt.data = toLE 4 (Desc_len c.desc) ++ [0])) ∧
  (∀ (src : CmdSrc) (c : Cmd) (s : State), starts s src c = true → Desc_cmd c.desc = 8 → collWaits s src = false →
    collCheck (takeOffer s src) c = none →
    let t := c.ex.tile
    let i := ColGidx c.desc
    ∃ u o, exec (.collective src) s = .next u ∧ u.coll.ops = s.coll.ops ++ [o] ∧ o.tile = t ∧ o.gidx = i ∧ o.cmd = c.id ∧ o.desc = c.desc ∧
      o.seq = fld s (Reg.tniGrpMember t i) TniGrpMember.SEQ ∧ u.host.cmds = s.host.cmds ++ [{ c with left := 1 }] ∧
      u.trig.adds = s.trig.adds ++ [⟨Reg.ctr (.tni t) (fld s (Reg.tniGrpMember t i) TniGrpMember.SCTR), 1, none⟩]) ∧
  (∀ (id fn r : Nat) (c : Cmd) (s : State), cmdOf s id = some c → c.left = 0 → qpMayFinish s id = true → c.src = .ring fn r → c.trig = none →
    c.poison = false → Desc_cmd c.desc = 1 ∨ Desc_cmd c.desc = 2 → Desc_cen c.desc = false → s.host.flr.contains fn = false →
    s.host.linkUp = true → s.trig.adds = [] → (s.slu.rets.any fun x => x.cmd == id) = false → opOfCmd s id = none →
    tWf (fun _ => ({} : CqRun)) s.host.cqs = true → (s.dyn.rsvs.any fun v => Purpose_cmd v.why == some id) = false →
    let q := cqOf s fn r
    let k := cq s fn q
    s.host.out.contains (.msix fn (fld s (Reg.hpCqCfg fn q) HpCqCfg.VEC) s.clk.now) = false → ∃ u rest, exec (.commandComplete id) s = .next u ∧ (∀ x ∈ u.host.cmds, x.id ≠ id) ∧ u.host.out = s.host.out ++
      .record fn q k.widx (fld s (Reg.hpCqCfg fn q) HpCqCfg.BASE * 64 + 32 * k.widx) (recordBits s c r k.phase) :: rest)

/-- A command of the sequencer that has come to its turn and is well headed is refused FORMAT when its payload breaks its format, and
PRIVILEGE when a function other than 0 issues one that only function 0 may. ERRLOG_READ answers at most MAX records of those the log shows
(one written in this cycle shows in the next), a virtual function's own tenant's alone, from the oldest on when FROM names it.
SOUNDING_TAKE with TAKE takes snapshot number one higher and answers its page 0, and leaves the package frozen or thawed as it was;
without TAKE it answers the page it names of the snapshot that is held. COUNTER_FREEZE freezes the package at once and answers its fabric
time, or takes the next number and sends every package of the domain a FREEZE for a time at least one microsecond ahead; its thaw does the
like. FABRIC_RESET ends the firmware's commands RESET, abandons what has started, destroys every partition and holds the fabric in reset
until DOMAIN_RESET_DONE answers it. FMP_RECOVER ends the firmware's commands FMP_DOWN and, in a later step (the model's two steps: log
107), answers the version of the image that boots, or SIGNATURE. -/
def Obligations.SequencerCommandsAnswer : Prop :=
  (∀ (fn : Nat) (s : State),
    (∀ ki ∈ [(2, Instr.errlogRead fn), (3, if bit (rqW s .g fn 0) 0 then .soundingTake fn [] else .soundingPageRead fn),
        (4, if bit (rqW s .g fn 0) 0 then .counterFreeze fn else .counterThaw fn), (5, .fabricReset fn), (6, .fmpRecover fn)],
      takesUp s .g fn ki.1 = true → rqPlen s .g fn ≠ (if ki.1 = 5 then 0 else 8) →
        ∃ u, exec ki.2 s = .next u ∧ u.regs = s.regs ∧ Told s u .g fn .format []) ∧
    (∀ ki ∈ [(3, if bit (rqW s .g fn 0) 0 then Instr.soundingTake fn [] else .soundingPageRead fn),
        (4, if bit (rqW s .g fn 0) 0 then .counterFreeze fn else .counterThaw fn), (5, .fabricReset fn), (6, .fmpRecover fn)],
      takesUp s .g fn ki.1 = true → rqPlen s .g fn = (if ki.1 = 5 then 0 else 8) →
        (ki.1 = 5 ∨ rqW s .g fn 0 / 2 = 0) → fn ≠ 0 → ∃ u, exec ki.2 s = .next u ∧ u.regs = s.regs ∧ Told s u .g fn .privilege [])) ∧
  (∀ (fn : Nat) (s : State), takesUp s .g fn 2 = true → rqPlen s .g fn = 8 → bits (rqW s .g fn 0) 63 40 = 0 →
    let m := bits (rqW s .g fn 0) 39 32
    1 ≤ m → m ≤ 31 → ∃ u es next, exec (.errlogRead fn) s = .next u ∧ u.regs = s.regs ∧ u.log = s.log ∧ es.length ≤ m ∧
      (∀ e ∈ es, e ∈ errlogHeld s ∧ (fn = 0 ∨ e.tenant = fn)) ∧ (fn = 0 → bits (rqW s .g fn 0) 31 0 = errlogOldest s → es = (errlogHeld s).take m) ∧
      Told s u .g fn .none ((errlogOldest s * 2 ^ 32 + next) :: wordsOf (es.flatMap fun e => toLE 64 e.toNat))) ∧
  (∀ (noresp : List Nat) (s : State), s.wf = true → takesUp s .g 0 3 = true → rqPlen s .g 0 = 8 → rqW s .g 0 0 = 1 →
    ∃ u bs ws, exec (.soundingTake 0 noresp) s = .next u ∧ u.obs.snapshot = some bs ∧ u.mbx.snapNo = (s.mbx.snapNo + 1) % 2 ^ 32 ∧
      ofLE (slice bs 0 4) = u.mbx.snapNo ∧ isFrozen u = isFrozen s ∧ u.log = s.log ∧
      Told s u .g 0 .none ((ceilDiv bs.length 2016 * 2 ^ 48 + u.mbx.snapNo) :: ofLE (slice bs 8 8) :: ws) ∧ ws = wordsOf (slice bs 0 2016)) ∧
  (∀ s : State, takesUp s .g 0 3 = true → rqPlen s .g 0 = 8 → bits (rqW s .g 0 0) 63 32 = 0 → bits (rqW s .g 0 0) 15 0 = 0 →
    let p := bits (rqW s .g 0 0) 31 16
    let bs := s.obs.snapshot.getD []
    ∃ u, exec (.soundingPageRead 0) s = .next u ∧ u.regs = s.regs ∧ u.obs = s.obs ∧
      (ceilDiv bs.length 2016 ≤ p → Told s u .g 0 .format []) ∧
      (p < ceilDiv bs.length 2016 → Told s u .g 0 .none ((ceilDiv bs.length 2016 * 2 ^ 48 + p * 2 ^ 32 + s.mbx.snapNo) ::
        ofLE (slice bs 8 8) :: wordsOf (slice bs (2016 * p) 2016)))) ∧
  (∀ s : State, s.wf = true → takesUp s .g 0 4 = true → rqPlen s .g 0 = 8 →
    (rqW s .g 0 0 = 1 → ∃ u, exec (.counterFreeze 0) s = .next u ∧ isFrozen u = true ∧ Told s u .g 0 .none [timeNs s] ∧
      (isFrozen s = false → u.obs.latched = some s.regs ∧ fld u Reg.telFrzTime TelFrzTime.TIME = timeNs s % 2 ^ fldWidth TelFrzTime.TIME)) ∧
    (rqW s .g 0 0 = 0 → ∃ u, exec (.counterThaw 0) s = .next u ∧ isFrozen u = false ∧ Told s u .g 0 .none [timeNs s] ∧
      (isFrozen s = true → u.obs.latched = none)) ∧
    (rqW s .g 0 0 = 2 ∨ rqW s .g 0 0 = 3 → (∀ t, injArmed s (.rtr t) .spchk (fun _ => true) = false) →
      let c := if rqW s .g 0 0 = 3 then Instr.counterFreeze 0 else .counterThaw 0
      let no := if rqW s .g 0 0 = 3 then (s.mbx.frzNo + 1) % 2 ^ 32 else s.mbx.frzNo
      ∃ u at_, exec c s = .next u ∧ u.mbx.frzNo = no ∧ u.obs = s.obs ∧ Told s u .g 0 .none [ceilDiv at_ 16] ∧
        at_ = (fineNow s + max 1 (fld s Reg.telFrzCtl TelFrzCtl.FLEAD) * 16000) % 2 ^ 64 ∧
        u.coll.spNet.length = s.coll.spNet.length + (torusChips s).length ∧
        ∀ k ∈ torusChips s, ∃ m, (⟨myChip s, 0, 3⟩, m) ∈ u.coll.spNet ∧ SpKindOf m = .freeze ∧ (SpDst m).chip = k ∧ SpWord m 1 = at_ ∧
          SpWord m 2 / 2 ^ 32 % 2 ^ 32 = no % 2 ^ 32)) ∧
  (∀ s : State, takesUp s .g 0 5 = true → rqPlen s .g 0 = 0 → ∃ u, exec (.fabricReset 0) s = .next u ∧ u.clk.fabHeld = true ∧ u.parts = [] ∧
    u.host.cmds = [] ∧ u.coll.ops = [] ∧ u.mbx.fq = [] ∧ u.mbx.gq = [0] ∧ (mbxSlot u .g 0).begun = true ∧ u.log = s.log ∧
    ∀ f ∈ s.mbx.fq, (mbxSlot u .f f).state = 2 ∧ (mbxSlot u .f f).status = Reason.reset.status.code) ∧
  (∀ s : State, takesUp s .g 0 6 = true → rqPlen s .g 0 = 8 → rqW s .g 0 0 / 2 = 0 → stage s = 9 → ∃ u, exec (.fmpRecover 0) s = .next u ∧
    u.mbx.fmpst = 3 ∧ u.mbx.fq = [] ∧ (mbxSlot u .g 0).begun = true ∧ u.regs = s.regs ∧ u.parts = s.parts ∧
    ∀ f, slotState u .f f = 3) ∧
  (∀ s : State, goesOn s .g 0 6 = true → rqPlen s .g 0 = 8 → rqW s .g 0 0 / 2 = 0 → stage s = 9 →
    fmpRuns s = false → injArmed s .fab .boot (fun k => k == 3) = false → ∃ u, exec (.fmpRecover 0) s = .next u ∧ u.regs = s.regs ∧
      (∀ v, recoverImage s 0 = some v → u.mbx.fmpst = 1 ∧ u.mbx.version = v ∧ Told s u .g 0 .none [v % 2 ^ 24]) ∧
      (recoverImage s 0 = none → u.mbx.fmpst = 2 ∧ Told s u .g 0 .signature []))

/-- A heartbeat adds 1, modulo 2^32, to HB while the FMP runs and does nothing else. A watchdog bite sets FMPST to DOWN, adds 1 to FDOG up to
255, ends every firmware command with FMP_DOWN, and makes every F slot read DOWN. A write of a report queue's HEAD moves it to its low
eight bits and changes nothing else. Unmasking a vector clears its mask bit; a message held pending is then sent, its pending bit clears,
and one that was not pending sends nothing. -/
def Obligations.FirmwareBeatsAndReports : Prop :=
  (∀ s : State, (fmpRuns s = true → exec .heartbeat s = .next { s with mbx := { s.mbx with hb := (s.mbx.hb + 1) % 2 ^ 32 } }) ∧
    (fmpRuns s = false → exec .heartbeat s = .next s)) ∧
  (∀ s : State, tWf (fun _ => ({} : MbxSlot)) s.mbx.slots = true → ∃ u, exec .fmpWatchdogBite s = .next u ∧ u.mbx.fmpst = 2 ∧
    u.mbx.fdog = min 255 (s.mbx.fdog + 1) ∧ u.mbx.fq = [] ∧ (∀ f, slotState u .f f = 3) ∧ (∀ f, mbxSlot u .g f = mbxSlot s .g f) ∧
    (∀ f ∈ s.mbx.fq, (mbxSlot u .f f).status = Reason.fmpDown.status.code ∧ .mbxDone f 0 ∈ u.host.out) ∧ u.mem = s.mem ∧ u.dyn = s.dyn) ∧
  (∀ (fn v : Nat) (s : State), fn < 64 → exec (.reportQueueRelease fn v) s =
    .next { s with rpt := eSet {} fn { eGet {} fn s.rpt with head := v % 256 } s.rpt }) ∧
  (∀ (fn vec : Nat) (s : State), fn < 64 → vec < 64 → vecMasked s fn vec = true → tWf (fun _ => 2 ^ 64 - 1) s.host.vecCtl = true →
    tWf (fun _ => 0) s.host.pba = true → ∃ u, exec (.msiXVectorUnmask fn vec) s = .next u ∧ vecMasked u fn vec = false ∧
      (∀ v, v ≠ vec → vecMasked u fn v = vecMasked s fn v) ∧ bit (eGet 0 fn u.host.pba) vec = false ∧
      (bit (eGet 0 fn s.host.pba) vec = false → u.host.out = s.host.out) ∧
      (bit (eGet 0 fn s.host.pba) vec = true → u.host.out.getLast? = some (.msix fn vec s.clk.now)))

/-- A firmware command that has come to its turn with a payload of the wrong length is refused FORMAT and changes no register; this covers
every gated command, with and without the trailer, and the ungated ones. A command that only function 0 may issue is refused PRIVILEGE
from another function, and PARTITION_SEAL from function 0. A sealed tenant's GROUP_DESTROY without its trailer is refused SEALED, and one
whose tag does not hold is refused SIGNATURE with SIGFAIL counted; neither destroys the group. -/
def Obligations.FirmwareChecksComeFirst : Prop :=
  (∀ (fn : Nat) (d : HostData) (s : State),
    (∀ k ∈ [(0x120, 24, Instr.ringCreate fn), (0x121, 24, .ringDestroy fn), (0x130, 24, .schedLoad fn d), (0x131, 24, .schedArm fn),
        (0x132, 24, .schedStop fn), (0x140, 24, .groupCreate fn d), (0x141, 24, .groupDestroy fn), (0x150, 40, .channelOpen fn),
        (0x151, 8, .channelClose fn), (0x152, 8, .channelReset fn), (0x170, 8, .counterRead fn), (0x171, 24, .traceConfigure fn d),
        (0x180, 32, .qpCreate fn d), (0x181, 32, .qpDestroy fn), (0x182, 32, .mrRegister fn d), (0x183, 32, .mrDeregister fn)],
      takesUp s .f fn k.1 = true → rqPlen s .f fn ≠ k.2.1 → rqPlen s .f fn ≠ k.2.1 + 32 →
        ∃ u, exec k.2.2 s = .next u ∧ u.regs = s.regs ∧ Told s u .f fn .format []) ∧
    (∀ k ∈ [(0x101, 32, Instr.domainConfigure ⟨fn, d⟩), (0x102, 0, .timeMeasure fn), (0x110, 32, .partitionCreate fn d), (0x111, 8, .partitionDestroy fn),
        (0x113, 8, .partitionSeal fn), (0x114, 0, .hostRecover fn), (0x160, 16, .arbSet fn), (0x161, 24, .arbConfigure fn d),
        (0x190, 16, .patternLoad fn d), (0x191, 16, .patternRun fn [])],
      takesUp s .f fn k.1 = true → rqPlen s .f fn ≠ k.2.1 → ∃ u, exec k.2.2 s = .next u ∧ u.regs = s.regs ∧ Told s u .f fn .format [])) ∧
  (∀ (fn : Nat) (s : State), fn ≠ 0 →
    (takesUp s .f fn 0x102 = true → rqPlen s .f fn = 0 → ∃ u, exec (.timeMeasure fn) s = .next u ∧ u.regs = s.regs ∧ Told s u .f fn .privilege []) ∧
    (takesUp s .f fn 0x114 = true → rqPlen s .f fn = 0 → ∃ u, exec (.hostRecover fn) s = .next u ∧ u.regs = s.regs ∧ Told s u .f fn .privilege []) ∧
    (takesUp s .f fn 0x160 = true → arbSetFormat fn s = true →
      ∃ u, exec (.arbSet fn) s = .next u ∧ u.regs = s.regs ∧ Told s u .f fn .privilege [])) ∧
  (∀ s : State, takesUp s .f 0 0x113 = true → rqPlen s .f 0 = 8 →
    ∃ u, exec (.partitionSeal 0) s = .next u ∧ u.regs = s.regs ∧ Told s u .f 0 .privilege []) ∧
  (∀ (fn : Nat) (s : State), fn < 64 → gatedHere s fn = true → takesUp s .f fn 0x141 = true → rqW s .f fn 0 = 0 → rqW s .f fn 1 = 0 →
    bits (rqW s .f fn 2) 63 12 = 0 →
    (rqPlen s .f fn = 24 → ∃ u, exec (.groupDestroy fn) s = .next u ∧ u.regs = s.regs ∧ u.coll = s.coll ∧ Told s u .f fn .sealed []) ∧
    (rqPlen s .f fn = 56 → rqW s .f fn 4 = 0 → s.wf = true → grpState s (gcIdx s fn) ≠ 0 → grpTenant s (gcIdx s fn) = fn → authOk s fn 24 [] = false →
      injArmed s .sec .seal (fun _ => true) = false → ∃ u, exec (.groupDestroy fn) s = .next u ∧ u.coll = s.coll ∧
        RegsOutside [Reg.secStat] s u ∧ Told s u .f fn .signature []))

/-- A RING_CREATE that passes its checks writes the image with EN set, and for a command ring its second image and STATE 1, with the executor
started afresh (counting from what DBCTR then holds, log 179); a refused one changes no register. RING_DESTROY of a completion ring clears
EN at once; of a command ring it stops the fetching, and EN goes and the command is answered when no started command of the ring is left.
CHANNEL_OPEN of a FREE channel writes its three registers and makes it OPEN, reopens a CLOSED one, and is refused STATE at a dead one;
CHANNEL_CLOSE leaves an open channel CLOSED; CHANNEL_RESET leaves any but a FREE one CLOSED with nothing in its ring or spillway. All
three are refused DISABLED at a bad tile and CONFLICT at another's. ARB_SET sets and pins the weight, lifts the pin, or sets WMIN, WMAX
and CAP, and touches no other register. COUNTER_READ answers the counters as a read sees them, sealed for a sealed tenant (log 103), and
is refused PRIVILEGE for one the function may not read. -/
def Obligations.ServiceCommandsAct : Prop :=
  (∀ (fn : Nat) (s : State), fn < 64 → s.wf = true → takesUp s .f fn 0x120 = true → gateOpens s fn 24 [] = true → ringFormat fn s = true →
    let r := rcRing s fn
    let img := BitVec.ofNat 64 (putBits (rqW s .f fn 0) 0 0 1)
    (∀ x ws, ringCreateCheck fn s = some (x, ws) → ∃ u, exec (.ringCreate fn) s = .next u ∧ u.regs = s.regs ∧ Told s u .f fn x ws) ∧
    (ringCreateCheck fn s = none → ∃ u, exec (.ringCreate fn) s = .next u ∧ Told s u .f fn .none [] ∧
      (rcCq s fn = true → rd u (Reg.hpCqCfg fn r) = img ∧ RegsOutside [Reg.hpCqCfg fn r, Reg.secCseq fn] s u ∧
        u.host.cqs = eSet {} (ringKey fn r) {} s.host.cqs) ∧
      (rcCq s fn = false → rd u (Reg.hpCrCfg fn r) = img ∧ (rd u (Reg.hpCrCfgb fn r)).toNat = bits (rqW s .f fn 1) 21 0 ∧
        fld u (Reg.hpCrStat fn r) HpCrStat.STATE = 1 ∧ u.host.rings = eSet {} (ringKey fn r) { fetched := if hpRuns u fn r then 0 else exCtr u fn r HpCrCfgb.DBCTR } s.host.rings ∧
        RegsOutside [Reg.hpCrCfg fn r, Reg.hpCrCfgb fn r, Reg.hpCrStat fn r, Reg.secCseq fn] s u))) ∧
  (∀ (fn : Nat) (s : State), fn < 64 → s.wf = true →
    let r := rcRing s fn
    let busy := s.host.cmds.any (fromRing fn r)
    (takesUp s .f fn 0x121 = true → gateOpens s fn 24 [] = true → rqW s .f fn 0 = 0 → rqW s .f fn 1 = 0 → bits (rqW s .f fn 2) 63 5 = 0 →
      ringDestroyCheck fn s = none → ∃ u, exec (.ringDestroy fn) s = .next u ∧
        (rcCq s fn = true → Told s u .f fn .none [] ∧ flag u (Reg.hpCqCfg fn r) HpCqCfg.EN = false) ∧
        (rcCq s fn = false → busy = false → Told s u .f fn .none [] ∧ flag u (Reg.hpCrCfg fn r) HpCrCfg.EN = false) ∧
        (rcCq s fn = false → busy = true → (mbxSlot u .f fn).begun = true ∧ fld u (Reg.hpCrStat fn r) HpCrStat.STATE = 0 ∧
          u.host.rings = eSet {} (ringKey fn r) { ring s fn r with queue := [], t0 := none } s.host.rings)) ∧
    (goesOn s .f fn 0x121 = true → busy = true → exec (.ringDestroy fn) s = .next s) ∧
    (goesOn s .f fn 0x121 = true → busy = false → ∃ u, exec (.ringDestroy fn) s = .next u ∧ Told s u .f fn .none [] ∧
      flag u (Reg.hpCrCfg fn r) HpCrCfg.EN = false)) ∧
  (∀ (fn : Nat) (s : State), fn < 64 → s.wf = true → bits (rqW s .f fn 0) 63 18 = 0 →
    let t := coTile s fn
    let c := coChan s fn
    let st := chState s t c
    (∀ k ∈ [(0x150, 40, Instr.channelOpen fn), (0x151, 8, .channelClose fn), (0x152, 8, .channelReset fn)],
      takesUp s .f fn k.1 = true → gateOpens s fn k.2.1 [] = true →
        (good s t = false → ∃ u, exec k.2.2 s = .next u ∧ u.regs = s.regs ∧ Told s u .f fn .disabled []) ∧
        (good s t = true → owner s t ≠ fn ∨ oddTwin s t = true → ∃ u, exec k.2.2 s = .next u ∧ u.regs = s.regs ∧ Told s u .f fn .conflict [])) ∧
    (good s t = true → owner s t = fn → oddTwin s t = false →
      (takesUp s .f fn 0x150 = true → gateOpens s fn 40 [] = true →
        (st = 3 → ∃ u, exec (.channelOpen fn) s = .next u ∧ u.regs = s.regs ∧ Told s u .f fn .state []) ∧
        (st = 0 → openRefused s fn = false → ∃ u, exec (.channelOpen fn) s = .next u ∧ Told s u .f fn .none [] ∧ chState u t c = 1 ∧
          rd u (chCfg t c) = accessWrite (rd s (chCfg t c)) (BitVec.ofNat 64 (rqW s .f fn 1)) (fieldsAt (chCfg t c)) ∧
          rd u (Reg.tniChRing t c) = accessWrite (rd s (Reg.tniChRing t c)) (BitVec.ofNat 64 (rqW s .f fn 2)) (fieldsAt (Reg.tniChRing t c)) ∧
          rd u (Reg.tniChSpill t c) = accessWrite (rd s (Reg.tniChSpill t c)) (BitVec.ofNat 64 (rqW s .f fn 3)) (fieldsAt (Reg.tniChSpill t c))) ∧
        (st = 0 → openRefused s fn = true → ∃ u, exec (.channelOpen fn) s = .next u ∧ u.regs = s.regs ∧ Told s u .f fn .check [openWhy s fn]) ∧
        (st = 2 → ∃ u, exec (.channelOpen fn) s = .next u ∧ Told s u .f fn .none [] ∧ chState u t c = 1)) ∧
      (takesUp s .f fn 0x151 = true → gateOpens s fn 8 [] = true →
        (st = 0 ∨ st = 3 → ∃ u, exec (.channelClose fn) s = .next u ∧ u.regs = s.regs ∧ Told s u .f fn .state []) ∧
        (st = 1 ∨ st = 2 → ∃ u, exec (.channelClose fn) s = .next u ∧ Told s u .f fn .none [] ∧
          ((chan s t c).acc.count = 0 → chState u t c = 2 ∧ u.dyn = s.dyn))) ∧
      (takesUp s .f fn 0x152 = true → gateOpens s fn 8 [] = true →
        (st = 0 → ∃ u, exec (.channelReset fn) s = .next u ∧ u.regs = s.regs ∧ Told s u .f fn .state []) ∧
        (st ≠ 0 → ∃ u, exec (.channelReset fn) s = .next u ∧ Told s u .f fn .none [] ∧ chState u t c = 2 ∧ chRcnt u t c = 0 ∧
          fld u (chStat t c) TniChStat.SPCNT = 0 ∧ ∃ b, u.chan.runs = eSet {} (4096 * t + c) { stale := b, resetAt := some s.clk.now } s.chan.runs)))) ∧
  (∀ s : State, s.wf = true → takesUp s .f 0 0x160 = true → arbSetFormat 0 s = true →
    let r := asReg s 0
    let v := rqW s .f 0 1
    let put (m : WeightMemo) := eSet {} r m s.arb.memos
    (asDisabled s 0 = true → ∃ u, exec (.arbSet 0) s = .next u ∧ u.regs = s.regs ∧ Told s u .f 0 .disabled []) ∧
    (asDisabled s 0 = false → ∃ u, exec (.arbSet 0) s = .next u ∧ RegsOutside [r] s u ∧ Told s u .f 0 .none [] ∧
      (asOp s 0 < 2 → fld u r ArbShare.WEIGHT = bits v 15 0 ∧ fld u r ArbShare.WMIN = fld s r ArbShare.WMIN ∧ fld u r ArbShare.CAP = fld s r ArbShare.CAP ∧
        u.arb.memos = put { eGet {} r s.arb.memos with host := bits v 15 0, changed := none,
                                                       pinned := (eGet {} r s.arb.memos).pinned || asOp s 0 == 1 }) ∧
      (asOp s 0 = 2 → u.regs = s.regs ∧ u.arb.memos = put { eGet {} r s.arb.memos with pinned := false }) ∧
      (asOp s 0 = 3 → fld u r ArbShare.WMIN = bits v 47 32 ∧ fld u r ArbShare.WMAX = bits v 63 48 ∧ fld u r ArbShare.CAP = bits v 31 16 ∧
        fld u r ArbShare.WEIGHT = fld s r ArbShare.WEIGHT))) ∧
  (∀ (fn : Nat) (s : State), fn < 64 → takesUp s .f fn 0x170 = true → gateOpens s fn 8 [] = true → counterFormat fn s = true →
    let vs := (crOffs s fn).map fun off => (seen s off).toNat
    ((crOffs s fn).all (mayRead s fn) = false → ∃ u, exec (.counterRead fn) s = .next u ∧ u.regs = s.regs ∧ Told s u .f fn .privilege []) ∧
    ((crOffs s fn).all (mayRead s fn) = true → (crOffs s fn).any (unpowered s) = true →
      ∃ u, exec (.counterRead fn) s = .next u ∧ u.regs = s.regs ∧ Told s u .f fn .disabled []) ∧
    ((crOffs s fn).all (mayRead s fn) = true → (crOffs s fn).any (unpowered s) = false → ∃ u, exec (.counterRead fn) s = .next u ∧
      RegsOutside [Reg.secCseq fn] s u ∧ Told s u .f fn .none (if gatedHere s fn then
        wordsOf (slice (Config.gcmSeal ((ctrlKey s fn).getD 0) (toLE 8 (ofLE (slice (rqBytes s .f fn) 8 8)) ++ toLE 4 1) [] (vs.flatMap (toLE 8)))
          0 (8 * vs.length + 16)) else vs)))

/-- A schedule command of function 0 for a sealed tenant is refused SEALED. SCHED_LOAD is refused STATE while a takeover is armed, FETCH when
its list cannot be read, and CHECK with the index of the first record that is not permitted, changing no register; otherwise it leaves the
registers as its records applied one after another leave them, and one record for an entry of the tenant's shadow crossbar bank writes
that entry and no other register. SCHED_ARM holds T and arms the takeover when the check of the schedule passes (and no slot table is
affected), the tenant's STATE becoming ARMED unless it runs; when the check fails it is refused CHECK with ARMERR, and a tenant that
waited to start waits no more. SCHED_STOP is refused STATE while a takeover is armed, and otherwise empties the tenant's shadow bank of
crossbar entries and arms it; where the arm fails it is refused CHECK and the entries stand as before. -/
def Obligations.SchedulesAreLoadedAndArmed : Prop :=
  (∀ (fn : Nat) (d : HostData) (s : State), openTo s fn (schedTenant s fn) = some .sealed →
    (takesUp s .f fn 0x130 = true → rqPlen s .f fn = 24 → listFormat fn s = true → schedFormat fn s = true →
      ∃ u, exec (.schedLoad fn d) s = .next u ∧ u.regs = s.regs ∧ Told s u .f fn .sealed []) ∧
    (∀ k ∈ [(0x131, Instr.schedArm fn), (0x132, .schedStop fn)], takesUp s .f fn k.1 = true → rqPlen s .f fn = 24 → armFormat fn s = true →
      ∃ u, exec k.2 s = .next u ∧ u.regs = s.regs ∧ Told s u .f fn .sealed [])) ∧
  (∀ (fn : Nat) (d : HostData) (s : State), fn < 64 → s.wf = true → takesUp s .f fn 0x130 = true → gateOpens s fn 24 (listBytes s fn d) = true →
    listFormat fn s = true → schedFormat fn s = true → openTo s fn (schedTenant s fn) = none →
    let t := schedTenant s fn
    let may := listMay (schedMay t) none
    let go := exec (.schedLoad fn d) s
    let armed := flag s (Reg.fabSchCtx t) FabSchCtx.ARMED
    (armed = true → ∃ u, go = .next u ∧ u.regs = s.regs ∧ Told s u .f fn .state []) ∧
    (armed = false → fetched d = none → ∃ u, go = .next u ∧ u.regs = s.regs ∧ Told s u .f fn .fetch []) ∧
    (∀ bs, armed = false → fetched d = some bs →
      (∀ i, (tryList may schedApply s 0 (listRecs s fn bs)).1 = some (.check, i) →
        ∃ u, go = .next u ∧ u.regs = s.regs ∧ u.sch = s.sch ∧ Told s u .f fn .check [i]) ∧
      ((tryList may schedApply s 0 (listRecs s fn bs)).1 = none → ∃ u, go = .next u ∧ Told s u .f fn .none [] ∧
        u.regs = (tryList may schedApply (pastGate s fn 24) 0 (listRecs s fn bs)).2.regs ∧
        ∀ tile i v, tile < 64 → i < 4096 → listRecs s fn bs = [(xbar tile (1 - schBank s t) i, v)] → schBank s t < 2 →
          rd u (xbar tile (1 - schBank s t) i) = accessWrite (rd s (xbar tile (1 - schBank s t) i)) (BitVec.ofNat 64 v)
            (fieldsAt (xbar tile (1 - schBank s t) i)) ∧ RegsOutside [xbar tile (1 - schBank s t) i, Reg.secCseq fn] s u))) ∧
  (∀ (fn : Nat) (s : State), fn < 64 → s.wf = true → takesUp s .f fn 0x131 = true → gateOpens s fn 24 [] = true → armFormat fn s = true →
    openTo s fn (schedTenant s fn) = none →
    let t := schedTenant s fn
    let g := pastGate s fn 24
    let a := after (execSchArm t (rqW s .f fn 0) g) g
    let e := armCheck a t
    (∀ x ∈ allSlots s, slotAffected s t x = false) → ∃ u, exec (.schedArm fn) s = .next u ∧
      (e < 2 ^ fldWidth FabSchCtx.ARMERR → Told s u .f fn (if e = 0 then .none else .check) [e] ∧ flag u (Reg.fabSchCtx t) FabSchCtx.ARMED = decide (e = 0) ∧
        fld u (Reg.fabSchArm t) FabSchArm.TIME = (if e = 0 then rqW s .f fn 0 % 2 ^ fldWidth FabSchArm.TIME else 0) ∧
        schState u t = (if e = 0 ∧ schState s t ≠ 2 then 1 else if e ≠ 0 ∧ schState s t = 1 then 0 else schState s t))) ∧
  (∀ (fn : Nat) (s : State), fn < 64 → s.wf = true → takesUp s .f fn 0x132 = true → gateOpens s fn 24 [] = true → armFormat fn s = true →
    openTo s fn (schedTenant s fn) = none →
    let t := schedTenant s fn
    let g := emptyShadow (pastGate s fn 24) t
    let a := after (execSchArm t (rqW s .f fn 0) g) g
    (flag s (Reg.fabSchCtx t) FabSchCtx.ARMED = true → ∃ u, exec (.schedStop fn) s = .next u ∧ u.regs = s.regs ∧ Told s u .f fn .state []) ∧
    (flag s (Reg.fabSchCtx t) FabSchCtx.ARMED = false → (∀ x ∈ allSlots s, slotAffected s t x = false) → ∃ u, exec (.schedStop fn) s = .next u ∧
      (armCheck a t < 2 ^ fldWidth FabSchCtx.ARMERR → Told s u .f fn (if armCheck a t = 0 then .none else .check) [armCheck a t] ∧
        flag u (Reg.fabSchCtx t) FabSchCtx.ARMED = decide (armCheck a t = 0) ∧
        ∀ tile i, tile < 64 → i < fld s (Reg.rtrSchRange tile t) RtrSchRange.COUNT →
          let e := xbar tile (1 - schBank s t) ((fld s (Reg.rtrSchRange tile t) RtrSchRange.BASE + i) % 4096)
          rd u e = if armCheck a t = 0 then resetWord e else rd s e)))

/-- GROUP_CREATE is refused NO_RESOURCE at an index in use, EPOCH for an epoch the tenant has used, FETCH or CHECK for its list, and CHECK
when the list leaves fewer than two members (R7, R265), changing no register; otherwise its index becomes active with GROUP, EPOCH and the
caller's tenant, its members' SEQ is 0, and the epoch is remembered. GROUP_DESTROY is refused STATE at a free index and CONFLICT at
another tenant's; otherwise no operation and no sluice operation of the group is left, and the index is free. ARB_CONFIGURE without arms
leaves the registers its records leave, applied one after another; a list that cannot be read is refused FETCH; a record that is not
permitted, or an arm that fails, refuses the whole list with its index and changes no register. TRACE_CONFIGURE leaves the registers its
records leave, or changes none. -/
def Obligations.GroupsAndListsAct : Prop :=
  (∀ (fn : Nat) (d : HostData) (s : State), fn < 64 → s.wf = true → takesUp s .f fn 0x140 = true → gateOpens s fn 24 (listBytes s fn d) = true →
    listFormat fn s = true → bits (rqW s .f fn 2) 31 12 = 0 →
    let i := gcIdx s fn
    let go := exec (.groupCreate fn d) s
    let old := s.coll.epochs.contains (fn, gcGroup s fn, gcEpoch s fn)
    (grpState s i ≠ 0 → ∃ u, go = .next u ∧ u.regs = s.regs ∧ Told s u .f fn .noResource []) ∧
    (grpState s i = 0 → old = true → ∃ u, go = .next u ∧ u.regs = s.regs ∧ Told s u .f fn .epoch []) ∧
    (grpState s i = 0 → old = false → fetched d = none → ∃ u, go = .next u ∧ u.regs = s.regs ∧ Told s u .f fn .fetch []) ∧
    (∀ bs, grpState s i = 0 → old = false → fetched d = some bs →
      (∀ j, (tryList (planMay fn) (planApply fn) s 0 (listRecs s fn bs)).1 = some (.check, j) →
        ∃ u, go = .next u ∧ u.regs = s.regs ∧ Told s u .f fn .check [j]) ∧
      ((tryList (planMay fn) (planApply fn) s 0 (listRecs s fn bs)).1 = none → tooFew fn d s = true →
        ∃ u, go = .next u ∧ u.regs = s.regs ∧ Told s u .f fn .check []) ∧
      ((tryList (planMay fn) (planApply fn) s 0 (listRecs s fn bs)).1 = none → tooFew fn d s = false → ∃ u, go = .next u ∧ Told s u .f fn .none [] ∧ grpState u i = 1 ∧
        grpTenant u i = fn ∧ grpId u i = (gcGroup s fn, gcEpoch s fn) ∧ (fn, gcGroup s fn, gcEpoch s fn) ∈ u.coll.epochs ∧
        (∀ t, t < 64 → fld u (Reg.tniGrpMember t i) TniGrpMember.SEQ = 0)))) ∧
  (∀ (fn : Nat) (s : State), fn < 64 → s.wf = true → takesUp s .f fn 0x141 = true → gateOpens s fn 24 [] = true → rqW s .f fn 0 = 0 →
    rqW s .f fn 1 = 0 → bits (rqW s .f fn 2) 63 12 = 0 →
    let i := gcIdx s fn
    (grpState s i = 0 → ∃ u, exec (.groupDestroy fn) s = .next u ∧ u.regs = s.regs ∧ Told s u .f fn .state []) ∧
    (grpState s i ≠ 0 → grpTenant s i ≠ fn → ∃ u, exec (.groupDestroy fn) s = .next u ∧ u.regs = s.regs ∧ Told s u .f fn .conflict []) ∧
    (grpState s i ≠ 0 → grpTenant s i = fn → ∃ u, exec (.groupDestroy fn) s = .next u ∧ Told s u .f fn .none [] ∧ grpState u i = 0 ∧
      (∀ o ∈ u.coll.ops, o.gidx ≠ i) ∧ (∀ o ∈ u.slu.ops, o.gidx ≠ i) ∧ (∀ p ∈ u.coll.plans, p.1 ≠ i))) ∧
  (∀ (bs : List Byte) (s : State), takesUp s .f 0 0x161 = true → rqPlen s .f 0 = 24 → listFormat 0 s = true → rqW s .f 0 2 = 0 →
    let recs := listRecs s 0 bs
    let try_ := tryList configTry configApply s 0 recs
    let go := exec (.arbConfigure 0 (.ok bs)) s
    (∀ d, fetched d = none → ∃ u, exec (.arbConfigure 0 d) s = .next u ∧ u.regs = s.regs ∧ Told s u .f 0 .fetch []) ∧
    (∀ i, try_.1 = some (.check, i) → ∃ u, go = .next u ∧ u.regs = s.regs ∧ Told s u .f 0 .check [i]) ∧
    (try_.1 = none → (∀ x ∈ recs, isArm x.1 x.2 = false) → ∃ u, go = .next u ∧ u.regs = try_.2.regs ∧ u.arb = try_.2.arb ∧ Told s u .f 0 .none []) ∧
    (∀ i, try_.1 = none → (armList try_.2 0 recs).1 = some i → ∃ u, go = .next u ∧ u.regs = s.regs ∧ u.arb = s.arb ∧ Told s u .f 0 .check [i])) ∧
  (∀ (fn : Nat) (bs : List Byte) (s : State), fn < 64 → s.wf = true → takesUp s .f fn 0x171 = true → gateOpens s fn 24 (listBytes s fn (.ok bs)) = true →
    listFormat fn s = true → bits (rqW s .f fn 2) 55 0 = 0 → openTo s fn (schedTenant s fn) = none →
    let recs := listRecs s fn bs
    let app := fun (s : State) (off v : Nat) => applyWrite s off v
    (∀ d, fetched d = none → ∃ u, exec (.traceConfigure fn d) s = .next u ∧ u.regs = s.regs ∧ Told s u .f fn .fetch []) ∧
    (∀ i, (tryList (traceTry fn) app s 0 recs).1 = some (.check, i) →
      ∃ u, exec (.traceConfigure fn (.ok bs)) s = .next u ∧ u.regs = s.regs ∧ u.obs = s.obs ∧ Told s u .f fn .check [i]) ∧
    ((tryList (traceTry fn) app s 0 recs).1 = none → ∃ u, exec (.traceConfigure fn (.ok bs)) s = .next u ∧ Told s u .f fn .none [] ∧
      u.regs = (tryList (traceTry fn) app (pastGate s fn 24) 0 recs).2.regs))

/-- PARTITION_CREATE is refused for the first check that fails, changing no register and no partition; otherwise every tile it names has the
tenant as owner and no other tile's owner changes, every arbiter has the tenant's initial weight, the function is ready, and the partition
stands with its tiles, twins and share. PARTITION_DESTROY is refused STATE without a partition or while it is being destroyed; otherwise
its function leaves the ready state, its schedule is stopped, and its zero fill runs. When the fill is done the partition is gone, its
tiles belong to nobody and read as zero, its keys are erased, and the command that destroys it is answered. PARTITION_SEAL is refused
STATE without a partition, without a CTRL key, or when sealed; otherwise the tenant is sealed and the attestation record of what stood
before is answered. HOST_RECOVER is refused STATE unless every function is lost; otherwise function 0 is ready, every other function
empty, and every other slot idle. -/
def Obligations.PartitionsComeAndGo : Prop :=
  (∀ (blk : HostData) (s : State), s.wf = true → takesUp s .f 0 0x110 = true → rqPlen s .f 0 = 32 → bits (rqW s .f 0 1) 55 32 = 0 →
    bits (rqW s .f 0 2) 63 52 = 0 → bits (rqW s .f 0 3) 63 16 = 0 →
    let t := bits (rqW s .f 0 1) 63 56
    let tiles := rqW s .f 0 0
    let b := (fetched blk).getD []
    1 ≤ t → t ≤ 63 →
    (∀ r ws, createCheck blk 0 s = some (r, ws) →
      ∃ u, exec (.partitionCreate 0 blk) s = .next u ∧ u.regs = s.regs ∧ u.parts = s.parts ∧ Told s u .f 0 r ws) ∧
    (createCheck blk 0 s = none → ∃ u, exec (.partitionCreate 0 blk) s = .next u ∧ Told s u .f 0 .none [tiles] ∧ fnState u t = 1 ∧
      u.parts = s.parts ++ [⟨t, tiles, bits (rqW s .f 0 1) 31 0, pbRsvsh b, false⟩] ∧
      (∀ x, x < 64 → owner u x = if bit tiles x then t else owner s x) ∧
      (∀ a ∈ allArbs s, fld u (Reg.arbShare a t) ArbShare.WEIGHT = pbWeight b))) ∧
  (∀ s : State, s.wf = true → takesUp s .f 0 0x111 = true → rqPlen s .f 0 = 8 → bits (rqW s .f 0 0) 55 0 = 0 →
    let t := partTenant s 0
    1 ≤ t → t ≤ 63 →
    (((partOf s t).map PartRun.dying ≠ some false) → ∃ u, exec (.partitionDestroy 0) s = .next u ∧ u.regs = s.regs ∧ Told s u .f 0 .state []) ∧
    ((partOf s t).map PartRun.dying = some false → ∃ u, exec (.partitionDestroy 0) s = .next u ∧ (mbxSlot u .f 0).begun = true ∧
      (partOf u t).map PartRun.dying = some true ∧ fnState u t = 2 ∧ schState u t = 0)) ∧
  (∀ s : State, goesOn s .f 0 0x111 = true → exec (.partitionDestroy 0) s = .next s) ∧
  (∀ (t : Nat) (p : PartRun) (s : State), s.wf = true → 1 ≤ t → t < 64 → s.parts.find? (fun p => p.tenant == t && p.dying) = some p →
    ∃ u, exec (.zeroFillDone t) s = .next u ∧ (∀ q ∈ u.parts, q.tenant ≠ t) ∧ fnState u t = 0 ∧ sealedT u t = false ∧
      (∀ x, x < 64 → bit p.tiles x = true → owner u x = 0xFF) ∧ (∀ a, inTiles p.tiles a = true → readByte u a = memDefault a) ∧
      (∀ k ∈ u.sec.ctrl, k.1 ≠ t) ∧ (∀ k ∈ u.sec.lane, k.1 ≠ t) ∧ (∀ k ∈ u.sec.qpKeys, k.2.tenant ≠ t) ∧
      (goesOn s .f 0 0x111 = true → partTenant s 0 = t → Told s u .f 0 .none [])) ∧
  (∀ (t : Nat) (s : State), s.parts.find? (fun p => p.tenant == t && p.dying) = none → exec (.zeroFillDone t) s = .next s) ∧
  (∀ (fn : Nat) (s : State), s.wf = true → fn < 64 → fn ≠ 0 → takesUp s .f fn 0x113 = true → rqPlen s .f fn = 8 →
    let bad := noPart s fn || (ctrlKey s fn).isNone || sealedT s fn
    (bad = true → ∃ u, exec (.partitionSeal fn) s = .next u ∧ u.regs = s.regs ∧ Told s u .f fn .state []) ∧
    (bad = false → ∃ u p, exec (.partitionSeal fn) s = .next u ∧ partOf s fn = some p ∧ sealedT u fn = true ∧ flag u (Reg.hpFnStat fn) HpFnStat.SEALED = true ∧
      (∀ f, f < 64 → f ≠ fn → sealedT u f = sealedT s f) ∧ Told s u .f fn .none (wordsOf (attestation s fn (rqW s .f fn 0) p.tiles)))) ∧
  (∀ s : State, s.wf = true → takesUp s .f 0 0x114 = true → rqPlen s .f 0 = 0 →
    ((∃ f, f < 64 ∧ fnState s f ≠ 3) → ∃ u, exec (.hostRecover 0) s = .next u ∧ u.regs = s.regs ∧ Told s u .f 0 .state []) ∧
    ((∀ f, f < 64 → fnState s f = 3) → ∃ u, exec (.hostRecover 0) s = .next u ∧ Told s u .f 0 .none [] ∧ u.mbx.gq = [] ∧
      (∀ f, f < 64 → fnState u f = if f = 0 then 1 else 0) ∧ (∀ f sv, f ≠ 0 ∨ sv = .g → (mbxSlot u sv f).state = 0)))

/-- KEY_LOAD is refused for the first check that fails; a wrapped key that does not open is refused SIGNATURE and counted in SIGFAIL, and one
that opens becomes the CTRL key, or its phase of the LANE or QP pair, KSEQ advancing, with no register changed. With USE SWITCH the phase
named becomes the pair's current one, and one that holds no key is refused STATE (log 91). DOMAIN_CONFIGURE is refused STATE while a
partition exists, and for its Ethernet list when that cannot be read or fails; otherwise it writes FAB_PKG_INFO, leaves every port without
a direction in RESET, puts every other into its first training state with its DIR and the virtual-channel sizes that firmware chooses (log
153), and later answers the ports in ACTIVE, with LINK when a configured one is missing. TIME_MEASURE starts a measurement at every ACTIVE
port, waits while one measures, and answers each port's offset in ns, 0 for a port outside ACTIVE. -/
def Obligations.KeysAndDomain : Prop :=
  (∀ (fn : Nat) (s : State), s.wf = true → fn < 64 → takesUp s .f fn 0x112 = true → klFormat fn s = true → klUse s fn ≤ 2 →
    176 ≤ rqPlen s .f fn → rqPlen s .f fn ≤ 520 → klUse s fn = 1 ∨ openTo s fn (klTenant s fn) = none →
    let t := klTenant s fn
    (∀ r ws, keyLoadCheck fn s = some (r, ws) → ∃ u, exec (.keyLoad fn) s = .next u ∧ u.regs = s.regs ∧ u.sec = s.sec ∧ Told s u .f fn r ws) ∧
    (keyLoadCheck fn s = none → ∃ u, exec (.keyLoad fn) s = .next u ∧
      (match unwrap s fn with
       | none => u.sec = s.sec ∧ RegsOutside [Reg.secStat] s u ∧ Told s u .f fn .signature []
       | some k => u.regs = s.regs ∧ u.sec.kseq = eSet 0 t (klKseq s fn) s.sec.kseq ∧ Told s u .f fn .none [] ∧
         (klUse s fn = 0 → u.sec.ctrl = s.sec.ctrl ++ [(t, k)] ∧ u.sec.lane = s.sec.lane ∧ u.sec.qpKeys = s.sec.qpKeys) ∧
         (klUse s fn = 1 → u.sec.ctrl = s.sec.ctrl ∧ u.sec.qpKeys = s.sec.qpKeys ∧
           u.sec.lane = eSet {} t (if klPh s fn = 0 then { eGet {} t s.sec.lane with tenant := t, k0 := some k }
             else { eGet {} t s.sec.lane with tenant := t, k1 := some k }) s.sec.lane) ∧
         (klUse s fn = 2 → u.sec.ctrl = s.sec.ctrl ∧ u.sec.lane = s.sec.lane ∧
           let q := 256 * klRte s fn + klPair s fn
           u.sec.qpKeys = eSet {} q (if klPh s fn = 0 then { eGet {} q s.sec.qpKeys with tenant := t, k0 := some k }
             else { eGet {} q s.sec.qpKeys with tenant := t, k1 := some k }) s.sec.qpKeys)))) ∧
  (∀ (fn : Nat) (s : State), s.wf = true → fn < 64 → takesUp s .f fn 0x112 = true → gateOpens s fn 8 [] = true → klFormat fn s = true → klUse s fn = 3 →
    openTo s fn (klTenant s fn) = none →
    let qp := bit (rqW s .f fn 0) 10
    (∀ r ws, keySwitchCheck fn s = some (r, ws) → ∃ u, exec (.keySwitch fn) s = .next u ∧ u.regs = s.regs ∧ u.sec = s.sec ∧ Told s u .f fn r ws) ∧
    (keySwitchCheck fn s = none → ∃ u, exec (.keySwitch fn) s = .next u ∧ RegsOutside [Reg.secCseq fn] s u ∧ Told s u .f fn .none [] ∧
      u.sec.ctrl = s.sec.ctrl ∧
      (qp = false → u.sec.lane = eSet {} (klTenant s fn) { eGet {} (klTenant s fn) s.sec.lane with cur := klPh s fn } s.sec.lane) ∧
      (qp = true → u.sec.qpKeys = eSet {} (256 * klRte s fn + klPair s fn)
        { eGet {} (256 * klRte s fn + klPair s fn) s.sec.qpKeys with cur := klPh s fn } s.sec.qpKeys))) ∧
  (∀ s : State, s.wf = true →
    (∀ list : HostData, takesUp s .f 0 0x101 = true → rqPlen s .f 0 = 32 → bits (rqW s .f 0 0) 63 40 = 0 → bits (rqW s .f 0 0) 31 8 = 0 →
      bits (rqW s .f 0 2) 63 52 = 0 → bits (rqW s .f 0 3) 63 32 = 0 → ethCount s 0 ≤ 1048576 → dirsOk s 0 = true →
      (s.parts ≠ [] → ∃ u, exec (.domainConfigure ⟨0, list⟩) s = .next u ∧ u.regs = s.regs ∧ Told s u .f 0 .state []) ∧
      (∀ r ws, s.parts = [] → ethCheck list 0 s = some (r, ws) →
        ∃ u, exec (.domainConfigure ⟨0, list⟩) s = .next u ∧ u.regs = s.regs ∧ Told s u .f 0 r ws) ∧
      (s.parts = [] → ethCheck list 0 s = none → ∃ u, exec (.domainConfigure ⟨0, list⟩) s = .next u ∧ (mbxSlot u .f 0).begun = true ∧
        rd u Reg.fabPkgInfo = accessWrite (rd s Reg.fabPkgInfo) (BitVec.ofNat 64 (rqW s .f 0 0)) (fieldsAt Reg.fabPkgInfo) ∧
        ∀ n, n < 16 → fld u (Reg.lpCfg n) LpCfg.DIR = wantDir s 0 n ∧ lpState u n = (if wantDir s 0 n = 0 then 0 else 1) ∧
          (wantDir s 0 n ≠ 0 → rd u (Reg.lpVcCfg n) = Config.vcSizing n))) ∧
    (∀ list : HostData, goesOn s .f 0 0x101 = true → ∃ u, exec (.domainConfigure ⟨0, list⟩) s = .next u ∧ u.regs = s.regs ∧
      Told s u .f 0 (if (List.range 16).all fun n => wantDir s 0 n == 0 || lpActive s n then .none else .link) [trainedMap s])) ∧
  (∀ s : State, tWf (fun _ => ({} : LaneRun)) s.lane.runs = true →
    (takesUp s .f 0 0x102 = true → rqPlen s .f 0 = 0 → ∃ u, exec (.timeMeasure 0) s = .next u ∧ u.regs = s.regs ∧ (mbxSlot u .f 0).begun = true ∧
      ∀ n, n < 16 → (lane u n).measuring = (lpActive s n || (lane s n).measuring) ∧ (lpActive s n = true → (lane u n).samples = [])) ∧
    (goesOn s .f 0 0x102 = true → ((List.range 16).any fun n => lpActive s n && (lane s n).measuring) = true → exec (.timeMeasure 0) s = .next s) ∧
    (goesOn s .f 0 0x102 = true → ((List.range 16).any fun n => lpActive s n && (lane s n).measuring) = false →
      ∃ u, exec (.timeMeasure 0) s = .next u ∧ u.regs = s.regs ∧
        Told s u .f 0 .none ((List.range 16).map fun n => if lpActive s n then unsigned 64 (offsetNs s n) else 0)))

/-- QP_CREATE is refused FETCH, CHECK or NO_RESOURCE, changing no register; otherwise the lowest free pair of the engine becomes READY with
the block's parameters, its tenant and its first PSNs, and its number is answered. QP_DESTROY is refused STATE for a free pair and
CONFLICT for another tenant's; otherwise the pair is free, its CLOSE is on record to be repeated, and the command is answered when none of
its local accesses is left. MR_REGISTER is refused FETCH, CHECK or NO_RESOURCE; otherwise the lowest free index takes the region under the
next generation, and the key is answered. MR_DEREGISTER is refused STATE for an unknown or invalid key and CONFLICT for another tenant's;
otherwise the key is invalid at once, and the command is answered when no admitted placement is outstanding. -/
def Obligations.TransportIsSetUp : Prop :=
  (∀ (fn : Nat) (blk : HostData) (s : State), fn < 64 → s.wf = true → takesUp s .f fn 0x180 = true → gateOpens s fn 32 [] = true → qcFormat fn s = true →
    qcLen s fn = 80 → openTo s fn (qcTenant s fn) = none →
    let e := qcRte s fn
    let r := qcPair s fn ((fetched blk).getD [])
    (∀ x ws, qpCreateCheck blk fn s = some (x, ws) → ∃ u, exec (.qpCreate fn blk) s = .next u ∧ u.regs = s.regs ∧ u.rte = s.rte ∧ Told s u .f fn x ws) ∧
    (qpCreateCheck blk fn s = none → ∃ u q, exec (.qpCreate fn blk) s = .next u ∧ freeQp s e = some q ∧ Told s u .f fn .none [16384 * e + q] ∧
      qpState u e q = 1 ∧ u.rte.qps = eSet {} (16384 * e + q)
        { r with psn := bits (r.w 2) 63 32, cum := bits (r.w 2) 31 0, acked := bits (r.w 2) 63 32 } s.rte.qps)) ∧
  (∀ (fn : Nat) (s : State), fn < 64 → s.wf = true → qcFormat fn s = true → qcHandle s fn / 16384 = qcRte s fn →
    let e := qcRte s fn
    let q := qcQp s fn
    (takesUp s .f fn 0x181 = true → gateOpens s fn 32 [] = true → openTo s fn (qcTenant s fn) = none →
      (qpState s e q = 0 → ∃ u, exec (.qpDestroy fn) s = .next u ∧ u.regs = s.regs ∧ Told s u .f fn .state []) ∧
      (qpState s e q ≠ 0 → (qp s e q).tenant ≠ qcTenant s fn → ∃ u, exec (.qpDestroy fn) s = .next u ∧ u.regs = s.regs ∧ Told s u .f fn .conflict []) ∧
      (qpState s e q ≠ 0 → (qp s e q).tenant = qcTenant s fn → ∃ u, exec (.qpDestroy fn) s = .next u ∧ qpState u e q = 0 ∧
        u.rte.closing = s.rte.closing ++ [⟨e, q, (qp s e q).par, (qp s e q).txctr, 1, 2, s.clk.now⟩] ∧
        (qpBusy s e q = false → Told s u .f fn .none []) ∧ (qpBusy s e q = true → (mbxSlot u .f fn).begun = true))) ∧
    (goesOn s .f fn 0x181 = true → qpBusy s e q = true → exec (.qpDestroy fn) s = .next s) ∧
    (goesOn s .f fn 0x181 = true → qpBusy s e q = false → ∃ u, exec (.qpDestroy fn) s = .next u ∧ u.regs = s.regs ∧ Told s u .f fn .none [])) ∧
  (∀ (fn : Nat) (blk : HostData) (s : State), fn < 64 → s.wf = true → takesUp s .f fn 0x182 = true → gateOpens s fn 32 [] = true → qcFormat fn s = true →
    qcLen s fn = 32 → openTo s fn (qcTenant s fn) = none →
    let e := qcRte s fn
    let t := qcTenant s fn
    (fetched blk = none → ∃ u, exec (.mrRegister fn blk) s = .next u ∧ u.regs = s.regs ∧ u.rte = s.rte ∧ Told s u .f fn .fetch []) ∧
    (∀ b, fetched blk = some b → mrBlockBad s t (qcRegion s fn b) = true →
      ∃ u, exec (.mrRegister fn blk) s = .next u ∧ u.regs = s.regs ∧ u.rte = s.rte ∧ Told s u .f fn .check []) ∧
    (∀ b, fetched blk = some b → mrBlockBad s t (qcRegion s fn b) = false → freeMr s e = none →
      ∃ u, exec (.mrRegister fn blk) s = .next u ∧ u.regs = s.regs ∧ u.rte = s.rte ∧ Told s u .f fn .noResource []) ∧
    (∀ b i, fetched blk = some b → mrBlockBad s t (qcRegion s fn b) = false → freeMr s e = some i → ∃ u, exec (.mrRegister fn blk) s = .next u ∧
      let g := eGet 0 (16384 * e + i) s.rte.gens
      u.rte.mrs = s.rte.mrs ++ [⟨e, i, g, t, blkWords b 4, true, 0⟩] ∧ u.rte.gens = eSet 0 (16384 * e + i) ((g + 1) % 2 ^ 18) s.rte.gens ∧
      Told s u .f fn .none [i * 2 ^ 18 + g])) ∧
  (∀ (fn : Nat) (m : MrRun) (s : State), fn < 64 → s.wf = true → qcFormat fn s = true → qcMr s fn = some m →
    (s.rte.mrs.filter fun x => x.e == m.e && x.idx == m.idx) = [m] →
    (takesUp s .f fn 0x183 = true → gateOpens s fn 32 [] = true → openTo s fn (qcTenant s fn) = none →
      (m.tenant ≠ qcTenant s fn → ∃ u, exec (.mrDeregister fn) s = .next u ∧ u.regs = s.regs ∧ u.rte = s.rte ∧ Told s u .f fn .conflict []) ∧
      (m.tenant = qcTenant s fn → m.valid = false → ∃ u, exec (.mrDeregister fn) s = .next u ∧ u.regs = s.regs ∧ Told s u .f fn .state []) ∧
      (m.tenant = qcTenant s fn → m.valid = true → ∃ u, exec (.mrDeregister fn) s = .next u ∧
        (∀ x ∈ u.rte.mrs, x.e = m.e → x.idx = m.idx → x.valid = false) ∧ (m.out = 0 → Told s u .f fn .none []) ∧
        (m.out ≠ 0 → (mbxSlot u .f fn).begun = true))) ∧
    (goesOn s .f fn 0x183 = true → exec (.mrDeregister fn) s = .next s)) ∧
  (∀ (fn : Nat) (s : State), fn < 64 → qcFormat fn s = true → qcMr s fn = none →
    (takesUp s .f fn 0x183 = true → gateOpens s fn 32 [] = true → openTo s fn (qcTenant s fn) = none →
      ∃ u, exec (.mrDeregister fn) s = .next u ∧ u.regs = s.regs ∧ Told s u .f fn .state []) ∧
    (goesOn s .f fn 0x183 = true → ∃ u, exec (.mrDeregister fn) s = .next u ∧ u.regs = s.regs ∧ Told s u .f fn .none []))

/-- PATTERN_LOAD is refused FETCH when the bundle cannot be read, SIGNATURE when it does not verify, STATE when its series is not newer than
the stored one of its family and NO_RESOURCE when the store has no room; otherwise the bundle stands in FAMILY order in place of the old
one. PATTERN_RUN is refused STATE while a named unit is in use; otherwise it answers how many of the named and covered units failed, a
failure of a unit that was not named changes nothing, and one that fails again at a unit without a spare excludes the unit in the history. -/
def Obligations.PatternsAreLoadedAndRun : Prop :=
  (∀ (d : HostData) (s : State), takesUp s .f 0 0x190 = true → rqPlen s .f 0 = 16 → bits (rqW s .f 0 0) 63 52 = 0 → bits (rqW s .f 0 1) 63 32 = 0 →
    1 ≤ bits (rqW s .f 0 1) 31 0 → bits (rqW s .f 0 1) 31 0 ≤ 2 ^ 24 →
    let b := plBundle s 0 d
    let h := bundleOf b
    ∃ u, exec (.patternLoad 0 d) s = .next u ∧ u.regs = s.regs ∧
      (if fetched d = none then Told s u .f 0 .fetch [] ∧ u.rel = s.rel
       else if bundleOk b = false then Told s u .f 0 .signature [] ∧ u.rel = s.rel
       else if ∃ x ∈ s.rel.bundles, x.family = h.family ∧ h.series ≤ x.series then Told s u .f 0 .state [] ∧ u.rel = s.rel
       else if bundleRoom s h = false then Told s u .f 0 .noResource [] ∧ u.rel = s.rel
       else Told s u .f 0 .none [] ∧ u.rel.bundles = insBundle h (s.rel.bundles.filter fun x => x.family != h.family))) ∧
  (∀ (fails : List TestFail) (s : State), takesUp s .f 0 0x191 = true → rqPlen s .f 0 = 16 → bits (rqW s .f 0 1) 63 28 = 0 →
    let mine := fails.filter fun f => prNamed s 0 f.unit
    ((prUnits s 0).any (prUsed s) = true → ∃ u, exec (.patternRun 0 fails) s = .next u ∧ u.regs = s.regs ∧ u.rel = s.rel ∧ Told s u .f 0 .state []) ∧
    ((prUnits s 0).any (prUsed s) = false → ∃ u, exec (.patternRun 0 fails) s = .next u ∧ Told s u .f 0 .none [(mine.map TestFail.unit).dedup.length] ∧
      (mine = [] → u.regs = s.regs ∧ u.rel = s.rel) ∧
      (∀ f, mine = [f] → f.again = true → hasSpare s f = false → ∃ h ∈ u.rel.hist, h.unit = f.unit ∧ h.lane = 0xFF ∧ h.st = 3)))

/-- While the host port serves its link, the loss of the link, and a reset of function 0, leaves every function in STATE 3, every mailbox slot
that was queued idle and both queues empty, closes every queue pair, and marks the started ring commands lost. A reset of a virtual
function empties its slots, clears EN of its rings, and leaves it ready when it has no started command and resetting otherwise; a function
that is not ready only loses its slots' commands. When a lost link has drained, the commands that are left are counted as lost and the
fabric is held in reset, which ends every partition. The link's return after that reset brings the link up and counts one loss at every
function. None of them acts while the port is closed, and the drain's end only after a loss. -/
def Obligations.HostLinkAndFunctionsReset : Prop :=
  (∀ (c : Instr) (s : State), c = .hostLinkDown ∨ c = .functionLevelReset 0 →
    (linkServes s = false → exec c s = .next s) ∧
    (linkServes s = true → s.wf = true → tWf (fun _ => ({} : MbxSlot)) s.mbx.slots = true → ∃ u, exec c s = .next u ∧ u.host.linkUp = false ∧
      u.host.loss = 1 ∧ u.host.lossAt = s.clk.now ∧ (∀ f, f < 64 → fnState u f = 3) ∧ u.mbx.fq = [] ∧ u.mbx.gq = [] ∧
      (∀ f ∈ s.mbx.fq ++ s.mbx.gq, ∀ sv, (mbxSlot u sv f).state = 0) ∧
      (∀ q ∈ s.rte.qps, q.1 / 16384 < 2 → qpState u (q.1 / 16384) (q.1 % 16384) = 0 ∨ qpState u (q.1 / 16384) (q.1 % 16384) = 2))) ∧
  (∀ (fn : Nat) (s : State), linkServes s = true → s.wf = true → 0 < fn → fn < 64 → tWf (fun _ => ({} : MbxSlot)) s.mbx.slots = true →
    (fnState s fn ≠ 1 → ∃ u, exec (.functionLevelReset fn) s = .next u ∧ u.regs = s.regs ∧ (mbxSlot u .f fn).state = 0 ∧ (mbxSlot u .g fn).state = 0 ∧
      u.mbx.fq = s.mbx.fq.erase fn) ∧
    (fnState s fn = 1 → ∃ u, exec (.functionLevelReset fn) s = .next u ∧ (mbxSlot u .f fn).state = 0 ∧
      (∀ r, r < 16 → flag u (Reg.hpCrCfg fn r) HpCrCfg.EN = false ∧ flag u (Reg.hpCqCfg fn r) HpCqCfg.EN = false) ∧
      (ringCmds s fn = [] → s.host.flr.contains fn = false → fnState u fn = 1) ∧ (ringCmds s fn ≠ [] → fnState u fn = 2 ∧ u.host.flr.contains fn = true))) ∧
  (∀ s : State, (s.host.loss ≠ 1 → exec .hostLinkDrainDone s = .next s) ∧
    (s.host.loss = 1 → (s.host.cmds = [] ∨ quiet s = true) → ∃ u, exec .hostLinkDrainDone s = .next u ∧ u.host.loss = 2 ∧ u.clk.fabHeld = true ∧
      u.parts = [] ∧ u.host.cmds = [] ∧ u.host.lost = s.host.lost + (s.host.cmds.filter fun c => match c.src with | .ring _ _ => true | _ => false).length ∧
      (s.host.cmds = [] → u.clk.now = s.clk.now) ∧
      (s.host.cmds ≠ [] → u.clk.now = max s.clk.now (s.host.lossAt + largestRspto s + usCycles 100)))) ∧
  (∀ s : State, (portOpen s = false → exec .hostLinkUp s = .next s) ∧
    (portOpen s = true → s.host.loss = 3 → s.wf = true → ∃ u, exec .hostLinkUp s = .next u ∧ u.host.linkUp = true ∧ u.host.loss = 0 ∧
      ∀ f, f < 64 → fld u (Reg.hpFnStat f) HpFnStat.LOSSES = min (2 ^ fldWidth HpFnStat.LOSSES - 1) (fld s (Reg.hpFnStat f) HpFnStat.LOSSES + 1)) ∧
    (portOpen s = true → s.host.loss ≠ 3 → s.host.linkUp = true → exec .hostLinkUp s = .next { s with host := { s.host with seenUp := true } }))

/-- A QP_POST that a check stops completes with that check's status and posts nothing, and where the pair's retries are exhausted it names the
packet that could not be delivered; one of a pair whose allowed ports are all down moves it to ERROR and completes ST_PEER_UNREACHABLE;
one that passes stands at the end of its pair's send queue under the pair's next MSN, with the descriptor's fields, and its command is
outstanding. The front of a READY pair's send queue, when engine and pair have room, becomes an operation record and enters the send
sequence as its packets from the next PSN on; its source data is read 4 KiB piece by piece, unless it is inline or a READ; without room
nothing happens. At TNEXT the pair's next packet that has all its bytes goes to the engine's transmit arbiter for the port of the next
path in rotation, after its own when it goes again, and TNEXT moves on by the packet's time at RATE; a pair with no such packet, in
another state, with a closed port or with a frame still at the arbiter does nothing. -/
def Obligations.EnginesPostAndSend : Prop :=
  (∀ (src : CmdSrc) (c : Cmd) (s : State), starts s src c = true → Desc_cmd c.desc = 11 →
    let cut e := decide (qpState s e (QpQpn c.desc % 16384) = 1) && ! (qp s e (QpQpn c.desc % 16384)).ports.any fun k => (port s e k).up
    (∀ st, postCheck (takeOffer s src) c = some st → exRte c = none → ∃ u, exec (.qpPost src) s = .next u ∧ u.rte = s.rte ∧
      u.host.cmds = s.host.cmds ++ [{ c with status := st }]) ∧
    (∀ st e, postCheck (takeOffer s src) c = some st → exRte c = some e → cut e = false → ∃ u, exec (.qpPost src) s = .next u ∧ u.rte = s.rte ∧
      u.host.cmds = s.host.cmds ++ [{ c with status := st, detail := if st = .retryExhausted then (qp s e (QpQpn c.desc % 16384)).lostPsn * 2 ^ 32 else 0 }]) ∧
    (∀ e, exRte c = some e → e < 2 → s.wf = true → rteWf s = true → cut e = true → ∃ u, exec (.qpPost src) s = .next u ∧
      (postMalformed s c e = false → (qp s e (QpQpn c.desc % 16384)).tenant = c.tenant → ∃ d ∈ u.host.cmds, d.id = c.id ∧ d.status = .peerUnreachable) ∧
      qpState u e (QpQpn c.desc % 16384) = 2) ∧
    (∀ e, postCheck (takeOffer s src) c = none → exRte c = some e → cut e = false → ∃ u, exec (.qpPost src) s = .next u ∧
      let d := c.desc
      let q := QpQpn d % 16384
      let r := qp s e q
      u.host.cmds = s.host.cmds ++ [{ c with left := 1 }] ∧
      (let p : QpPost := { cmd := some c.id, qop := QpQop d, laddr := QpLaddr d, rva := QpRva d, len := QpLen d, rkey := QpRkey d, note := QpNote d,
                           efmt := QpEfmt d, layer := Desc_layer d, opid := Desc_opid d, inl := c.inl, msn := r.msn }
       u.rte.qps = eSet {} (16384 * e + q) { r with msn := (r.msn + 1) % 2 ^ 24, sendQ := r.sendQ ++ [p] } s.rte.qps))) ∧
  (∀ (e q : Nat) (s : State), (qp s e q).sendQ = [] → exec (.qpOpSend e q) s = .next s) ∧
  (∀ (e q : Nat) (p : QpPost) (rest : List QpPost) (s : State), (qp s e q).sendQ = p :: rest →
    let r := qp s e q
    let full := decide (qpState s e q ≠ 1) || decide (8192 ≤ engineOps s e) || decide (r.maxOps ≤ r.open_.length) ||
      (p.atomic && decide (16 ≤ (r.open_.filter fun o => o.post.atomic).length))
    (full = true → exec (.qpOpSend e q) s = .next s) ∧
    (full = false → rteWf s = true → p.psn = false ∨ p.qop = 7 → ∃ u, exec (.qpOpSend e q) s = .next u ∧
      let l := updFirst (fun o => o.post.msn == p.msn && o.fin.isNone) (fun o => { o with first := r.psn }) (r.ops ++ [{ post := p }])
      qp u e q = { r with sendQ := rest, ops := l, tx := r.tx ++ opTx p r.pmtu r.psn,
                          psn := (r.psn + opPackets p r.pmtu) % 2 ^ 32 } ∧
      (p.qop = 1 ∨ p.inl ≠ [] → u.dyn = s.dyn) ∧
      (p.qop ≠ 1 → p.inl = [] → ∀ t ∈ opTx p r.pmtu r.psn, ∀ x ∈ pieces (p.laddr + t.k * r.pmtu) t.need, ∃ w ∈ u.dyn.waiting,
        w.why = .rte e q (.src t.psn (x.1 - (p.laddr + t.k * r.pmtu)) x.2) ∧ w.pkt.opc = .rdReq ∧ w.pkt.addr = x.1 ∧ w.pkt.nbytes = x.2 ∧
          w.pkt.tenant = r.tenant ∧ w.pkt.prio = 1)) ∧
    (full = false → s.wf = true → p.psn = true → p.qop ≠ 7 → e < 2 → q < 16384 → ∃ u, exec (.qpOpSend e q) s = .next u ∧ qpState u e q = 3)) ∧
  (∀ (e q : Nat) (t : TxPkt) (p : Nat) (s : State), quiet s = true → rteWf s = true → qpState s e q = 1 ∨ qpState s e q = 3 →
    let r := qp s e q
    nextTx r = some t → nextPath s e r (if t.rtx then t.path else r.lastPath) = some p →
    let k := r.pathPort p
    let x := frameOf s e q r p { opc := t.opc, ackreq := askAck s e t, poison := t.poison, last := t.last, psn := t.psn, msn := t.msn,
                                 layer := t.layer, opid := t.opid } (toBE 24 t.xh ++ t.payload) true
    (portOn s e k = false ∨ bundled s e q = true → exec (.pacedRelease e q) s = .next s) ∧
    (portOn s e k = true → bundled s e q = false → ∃ u, exec (.pacedRelease e q) s = .next u ∧
      u.clk.now = max s.clk.now (cycleAtPs r.tnext) ∧ u.rte.bundles = s.rte.bundles ++ [txBundleOf r e k t x] ∧ port u e k = port s e k ∧
      (qp u e q).tnext = max r.tnext (timePs u) + ceilDiv (80000 * x.len) (max 1 (rate s e q)) ∧
      (qp u e q).tx = updFirst (fun y => y.psn == t.psn)
        (fun y => { y with wait := false, path := some p, order := r.order, later := 0, sentAt := none }) r.tx ∧
      (qp u e q).order = r.order + 1 ∧ (t.rtx = false → (qp u e q).lastPath = some p))) ∧
  (∀ (e q : Nat) (s : State), (nextTx (qp s e q) = none ∨ (qpState s e q ≠ 1 ∧ qpState s e q ≠ 3) ∨
      (∀ t, nextTx (qp s e q) = some t → nextPath s e (qp s e q) (if t.rtx then t.path else (qp s e q).lastPath) = none)) → exec (.pacedRelease e q) s = .next s)

/-- For the frame of every transport row: at a port that carries no frames, or with another UDP port, it counts in NONRTE; one that the engine
does not accept counts in STRAY; one whose ICRC fails counts in ICRC (in AUTHFAIL on an encrypted pair) and reaches no pair. A data frame
whose PSN the pair has already received is counted as a duplicate, and one 1,024 or more PSNs ahead is counted out of window; neither
changes the pair's sequence. -/
def Obligations.FramesAreSortedAndChecked : Prop :=
  (∀ (e k : Nat) (f : Frame) (s : State), ∀ c ∈ [(TOpc.write, Instr.write e k f), (.readReq, .readReq e k f), (.readRsp, .readRsp e k f),
      (.send, .transportSend e k f), (.atomic, .transportAtomic e k f), (.atomicRsp, .atomicRsp e k f), (.relay, .relay e k f), (.ack, .transportAck e k f),
      (.close, .transportClose e k f), (.probe, .probe e k f)], f.bth.opc = c.1 →
    let here := portOn s e k && f.dport == fld s (Reg.rteCfg e) RteCfg.UDPDST
    let q := f.bth.dqpn % 16384
    (here = false → exec c.2 s = .next (bump s (Reg.rtePortStat e k) RtePortStat.NONRTE 1)) ∧
    (here = true → accepted s e k f = false → exec c.2 s = .next (bump s (Reg.rteStat e) RteStat.STRAY 1)) ∧
    (here = true → accepted s e k f = true → openBody s e f = none → s.wf = true → e < 2 → ∃ u, exec c.2 s = .next u ∧ u.rte = s.rte ∧ u.dyn = s.dyn ∧
      (f.bth.enc = true → fld u (Reg.rteStat e) RteStat.AUTHFAIL = (fld s (Reg.rteStat e) RteStat.AUTHFAIL + 1) % 2 ^ fldWidth RteStat.AUTHFAIL) ∧
      (f.bth.enc = false → fld u (Reg.rteStat e) RteStat.ICRC = (fld s (Reg.rteStat e) RteStat.ICRC + 1) % 2 ^ fldWidth RteStat.ICRC)) ∧
    (∀ bs, frameIn s e k f c.1 bs = true → c.1 ≠ .ack → c.1 ≠ .close → c.1 ≠ .probe → s.wf = true → rteWf s = true → e < 2 → qpState s e q = 1 →
      let ahead := (f.bth.psn + 2 ^ 32 - (qp s e q).cum) % 2 ^ 32
      ((2 ^ 31 ≤ ahead ∨ (qp s e q).map.contains f.bth.psn = true) → ∃ u, exec c.2 s = .next u ∧ (qp u e q).cum = (qp s e q).cum ∧
        (qp u e q).map = (qp s e q).map ∧ u.rte.dups = eSet 0 e (eGet 0 e s.rte.dups + 1) s.rte.dups) ∧
      (1024 ≤ ahead → ahead < 2 ^ 31 → (qp s e q).map.contains f.bth.psn = false → ∃ u, exec c.2 s = .next u ∧ u.rte = s.rte ∧ u.dyn = s.dyn ∧
        fld u (Reg.rteStat e) RteStat.OOW = (fld s (Reg.rteStat e) RteStat.OOW + 1) % 2 ^ fldWidth RteStat.OOW)))

/-- A WRITE packet whose message's key, range and right hold is written to the region 4 KiB piece by piece with the packet's poison, and a
poisoned one leaves the pair DEAD; one whose check fails is written nowhere. A READ_REQ or ATOMIC that comes when every earlier message is
settled starts its read, piece by piece, or its one atomic with the packet's operand; a failing one starts none. A SEND packet is written
into its receive slot, the next free one for a new message, and with no free slot, at a pair without slots, or too long for a slot,
nowhere. READ_RSP bytes of an open READ are written to its local address. ATOMIC_RSP ends its operation, and the operation's command has
nothing outstanding. A RELAY message that is whole and whose relay is enabled is passed on to the relay's target, as a packet, a failed
context's ERR_RSP among them, or as a standpipe message; one whose relay is not enabled is not. A PROBE is answered by an ACK. A CLOSE
moves a READY pair to ERROR; one in ERROR or DEAD stays so. -/
def Obligations.ResponderServesMessages : Prop :=
  (∀ (e k : Nat) (f : Frame) (bs : List Byte) (s : State), e < 2 → s.wf = true → rteWf s = true →
    let q := f.bth.dqpn % 16384
    let xh := ofBE (slice bs 0 24)
    let data := bs.drop 24
    let m := (enterMsg (qp s e q) f xh).2
    freshAt s e q f = true → m.synd = 0 →
    (frameIn s e k f .write bs = true →
      let v := mrCheck s e q m.rkey m.va m.tlen 49 false
      let go := exec (.write e k f) s
      (∀ mr, v = (0, some mr) → XhD xh + data.length ≤ m.tlen →
        let a := mr.fbase + (m.va - mr.vbase) + XhD xh
        ∃ u, go = .next u ∧ qpState u e q = (if f.bth.poison then 3 else 1) ∧ ∀ x ∈ pieces a data.length, ∃ w ∈ u.dyn.waiting,
          w.why = .rte e q (.place m.msn m.base (some mr.idx)) ∧ w.pkt.opc = .wr ∧ w.pkt.addr = x.1 ∧ w.pkt.data = slice data (x.1 - a) x.2 ∧
          w.pkt.poison = f.bth.poison ∧ w.pkt.prio = 1) ∧
      ((v.1 ≠ 0 ∨ m.tlen < XhD xh + data.length) → ∃ u, go = .next u ∧
        ∀ w ∈ u.dyn.waiting, w ∉ s.dyn.waiting → ∀ mr, w.why ≠ .rte e q (.place m.msn m.base mr))) ∧
    (frameIn s e k f .send bs = true →
      let r := qp s e q
      let n := m.slot.getD r.sends
      let go := exec (.transportSend e k f) s
      let ok := r.rqSlots != 0 && decide (XhD xh + data.length ≤ m.tlen) && decide (m.tlen ≤ r.rqSize) && (m.slot.isSome || freeSlots s e r != 0)
      (ok = true → let a := slotAddr r n + XhD xh
        ∃ u, go = .next u ∧ qpState u e q = (if f.bth.poison then 3 else 1) ∧ ∀ x ∈ pieces a data.length, ∃ w ∈ u.dyn.waiting,
          w.why = .rte e q (.place m.msn m.base none) ∧ w.pkt.opc = .wr ∧ w.pkt.addr = x.1 ∧ w.pkt.data = slice data (x.1 - a) x.2 ∧
          w.pkt.poison = f.bth.poison) ∧
      (ok = false → ∃ u, go = .next u ∧ ∀ w ∈ u.dyn.waiting, w ∉ s.dyn.waiting → ∀ mr, w.why ≠ .rte e q (.place m.msn m.base mr))) ∧
    ((qp s e q).msgs = [] → f.bth.msn = ((qp s e q).msnc + 1) % 2 ^ 24 →
      (frameIn s e k f .readReq bs = true →
        let v := mrCheck s e q m.rkey m.va m.tlen 48 false
        (∀ mr, v = (0, some mr) → let a := mr.fbase + (m.va - mr.vbase)
          ∃ u, exec (.readReq e k f) s = .next u ∧ qpState u e q = 1 ∧ ∀ x ∈ pieces a m.tlen, ∃ w ∈ u.dyn.waiting,
            w.why = .rte e q (.read m.msn 0 (x.1 - a) x.2) ∧ w.pkt.opc = .rdReq ∧ w.pkt.addr = x.1 ∧ w.pkt.nbytes = x.2) ∧
        (v.1 ≠ 0 → ∃ u, exec (.readReq e k f) s = .next u ∧ u.dyn = s.dyn)) ∧
      (frameIn s e k f .atomic bs = true →
        let v := mrCheck s e q m.rkey m.va m.tlen 50 true
        let well := m.d ≠ 3 ∧ data.length = (if m.d = 2 then 2 * m.tlen else m.tlen)
        (∀ mr, v = (0, some mr) → well → ∃ u, exec (.transportAtomic e k f) s = .next u ∧ qpState u e q = 1 ∧ ∃ w ∈ u.dyn.waiting,
          w.why = .rte e q (.atom m.msn 0) ∧ w.pkt.opc = (if m.d = 0 then .atFadd else if m.d = 1 then .atSwap else .atCas) ∧
          w.pkt.addr = mr.fbase + (m.va - mr.vbase) ∧ w.pkt.nbytes = (if m.d = 2 then 2 * m.tlen else m.tlen) ∧ w.pkt.data = data) ∧
        ((v.1 ≠ 0 ∨ ¬ well) → ∃ u, exec (.transportAtomic e k f) s = .next u ∧ u.dyn = s.dyn)) ∧
      (frameIn s e k f .relay bs = true → m.tlen ≤ data.length →
        let i := bits m.rkey 25 22
        let t := (qp s e q).tenant
        let code := bits m.rkey 31 26
        ((relayOk s (.rte e) i t = false ∨ (bit m.rkey 21 = false ∧ code ≠ 0xF ∧ code ≠ 0x10 ∧ code ≠ Opc.errRsp.code)) →
          ∃ u, exec (.relay e k f) s = .next u ∧ u.dyn = s.dyn ∧ u.coll = s.coll) ∧
        (relayOk s (.rte e) i t = true → bit m.rkey 21 = true →
          ∃ u, exec (.relay e k f) s = .next u ∧ u.coll.spNet.length = s.coll.spNet.length + 1) ∧
        (relayOk s (.rte e) i t = true → bit m.rkey 21 = false → code = 0xF ∨ code = 0x10 →
          ∃ u, exec (.relay e k f) s = .next u ∧ ∃ w ∈ u.dyn.waiting, w.why = .rte e q (.fwd m.msn 0) ∧
            w.pkt.opc = (if code = 0xF then .redContrib else .redResult) ∧ w.pkt.dst = relayDst s (.rte e) i ∧
            w.pkt.addr = withCtx (m.va % 2 ^ 56) (relayCtx s (.rte e) i) ∧ w.pkt.data = data ∧ w.pkt.poison = f.bth.poison) ∧
        (relayOk s (.rte e) i t = true → bit m.rkey 21 = false → code = Opc.errRsp.code →
          ∃ u, exec (.relay e k f) s = .next u ∧ ∃ p ∈ u.dyn.net, p.opc = .errRsp ∧ p.dst = relayDst s (.rte e) i ∧ p.tenant = t ∧
            p.addr = withCtx (m.va % 2 ^ 56) (relayCtx s (.rte e) i) ∧ p.data = data)))) ∧
  (∀ (e k : Nat) (f : Frame) (bs : List Byte) (o : QpOp) (s : State), e < 2 → s.wf = true → rteWf s = true →
    let q := f.bth.dqpn % 16384
    let data := bs.drop 24
    freshAt s e q f = true → o ∈ (qp s e q).open_ →
    (frameIn s e k f .readRsp bs = true → ((qp s e q).open_.find? fun o => o.post.msn == f.bth.msn && o.post.qop == 1) = some o →
      let off := XhD (ofBE (slice bs 0 24))
      let a := o.post.laddr + off
      (off + data.length ≤ o.post.len → ∃ u, exec (.readRsp e k f) s = .next u ∧ qpState u e q = (if f.bth.poison then 3 else 1) ∧
        ∀ x ∈ pieces a data.length, ∃ w ∈ u.dyn.waiting, w.why = .rte e q (.back o.post.msn x.2) ∧ w.pkt.opc = .wr ∧ w.pkt.addr = x.1 ∧
          w.pkt.data = slice data (x.1 - a) x.2 ∧ w.pkt.poison = f.bth.poison)) ∧
    (frameIn s e k f .atomicRsp bs = true → ((qp s e q).open_.find? fun o => o.post.msn == f.bth.msn && o.post.atomic) = some o →
      ∀ id c, o.post.cmd = some id → c ∈ s.host.cmds → c.id = id → f.bth.poison = false →
        ∃ u, exec (.atomicRsp e k f) s = .next u ∧ ∃ d ∈ u.host.cmds, d.id = id ∧ d.left = 0 ∧ d.detail = ofLE (slice data 0 o.post.len))) ∧
  (∀ (e k : Nat) (f : Frame) (bs : List Byte) (s : State), e < 2 → s.wf = true → rteWf s = true →
    let q := f.bth.dqpn % 16384
    (frameIn s e k f .probe bs = true → (qp s e q).pathPort f.bth.path < 4 → ackRoom s e ((qp s e q).pathPort f.bth.path) q = true →
      ∃ u, exec (.probe e k f) s = .next u ∧ AckWaits u e ((qp s e q).pathPort f.bth.path) q) ∧
    (frameIn s e k f .close bs = true → ∃ u, exec (.transportClose e k f) s = .next u ∧
      (qpState s e q = 1 → qpState u e q = 2 ∧ fld u (qpStat e q) RteQpStat.STATUS =
        (if XhB (ofBE (slice bs 0 24)) % 256 = 2 then Status.hostLost.code else Status.aborted.code)) ∧
      (qpState s e q ≠ 1 → qpState u e q = qpState s e q)))

/-- An ACK takes every sent packet it covers out of the pair's send sequence, and one that moves CUMPSN forward clears TOSEQ and is
remembered; every unfinished WRITE, SEND or RELAY at or below MSNC that a command waits for ends, and its command has nothing outstanding.
ACKDLY after the first arrival that no ACK covers, the pair's ACK waits at its port. When the retransmit timer of a pair expires, its
oldest packet waits again as a retransmission, TOSEQ rises and the rate halves but not below RMIN; with RETRY used up the rate halves too,
and a READY pair goes to ERROR with ST_RETRY_EXHAUSTED, its packets gone. RNRWAIT after an RNR answer the whole SEND enters the send
sequence again under new PSNs. After PSUSP one PROBE goes out on a suspect path. CLOSE is repeated 4 us after the last one until three are
out, and its record stands until the last has left. Each timer acts at its own cycle and not at all when it is not running. -/
def Obligations.SendersHearAndRetry : Prop :=
  (∀ (e k : Nat) (f : Frame) (bs : List Byte) (s : State), e < 2 → s.wf = true → rteWf s = true → frameIn s e k f .ack bs = true →
    let q := f.bth.dqpn % 16384
    let h := ofBE (slice bs 0 64)
    let sent (t : TxPkt) := ! t.wait || t.rtx
    (∃ u, exec (.transportAck e k f) s = .next u ∧
      (∀ t ∈ (qp u e q).tx, ∃ t' ∈ (qp s e q).tx, t'.psn = t.psn ∧ ¬ (sent t' = true ∧ AkHas h t'.psn = true)) ∧
      (seqLe 32 ((qp s e q).acked + 1) (AkCum h) = true → (qp u e q).acked = AkCum h ∧ fld u (qpStat e q) RteQpStat.TOSEQ = 0) ∧
      (seqLe 32 ((qp s e q).acked + 1) (AkCum h) = false → (qp u e q).acked = (qp s e q).acked) ∧
      (∀ o id, (qp s e q).ops = [o] → o.fin = none → o.post.cmd = some id → AkSynd h = 0 → o.rnrAt = none → o.tries = 0 →
        o.post.qop = 0 ∨ o.post.qop = 2 ∨ o.post.qop = 7 → seqLe 24 o.post.msn (AkMsnc h) = true → (∃ c ∈ s.host.cmds, c.id = id) →
        ∃ d ∈ u.host.cmds, d.id = id ∧ d.left = 0))) ∧
  (∀ (e q : Nat) (s : State), s.wf = true → rteWf s = true → quiet s = true →
    ((qp s e q).ackAt = none → exec (.ackDelayExpire e q) s = .next s) ∧
    (∀ g, (qp s e q).ackAt = some g → let k := (qp s e q).pathPort (qp s e q).etsPath
      ∃ u, exec (.ackDelayExpire e q) s = .next u ∧ u.clk.now = max s.clk.now (g + cycleAt (min 1000 (max 1 (fld s (Reg.rteCfg e) RteCfg.ACKDLY)))) ∧
        (qp u e q).ackAt = none ∧ (k < 4 → ackRoom s e k q = true → AckWaits u e k q))) ∧
  (∀ (e q : Nat) (s : State), e < 2 → q < 16384 → s.wf = true → rteWf s = true → quiet s = true →
    let n := fld s (qpStat e q) RteQpStat.TOSEQ
    let r := qp s e q
    (rtoAt s e q = none → exec (.retransmitTimeout e q) s = .next s) ∧
    (∀ g, rtoAt s e q = some g → qpState s e q = 1 ∨ qpState s e q = 3 →
      (n < r.retry → n < 2 ^ fldWidth RteQpStat.TOSEQ - 1 → ∃ u, exec (.retransmitTimeout e q) s = .next u ∧ u.clk.now = max s.clk.now g ∧
        fld u (qpStat e q) RteQpStat.TOSEQ = n + 1 ∧ rate u e q = max (rmin s e r) (rate s e q / 2) % 2 ^ fldWidth RteQpCc.RATE ∧
        (qp u e q).tx.head?.map (fun t => (t.wait, t.rtx, t.psn)) = r.tx.head?.map fun t => (true, true, t.psn)) ∧
      (r.retry ≤ n → ∃ u, exec (.retransmitTimeout e q) s = .next u ∧ u.clk.now = max s.clk.now g ∧ (qp u e q).tx = [] ∧
        rate u e q = max (rmin s e r) (rate s e q / 2) % 2 ^ fldWidth RteQpCc.RATE ∧ qpState u e q = (if qpState s e q = 1 then 2 else 3) ∧
        (qpState s e q = 1 → fld u (qpStat e q) RteQpStat.STATUS = Status.retryExhausted.code)))) ∧
  (∀ (e q : Nat) (s : State), rteWf s = true → quiet s = true →
    let r := qp s e q
    ((r.open_.find? fun o => o.rnrAt.isSome) = none → exec (.rnrRetry e q) s = .next s) ∧
    (∀ o, (r.open_.find? fun o => o.rnrAt.isSome) = some o → qpState s e q = 1 → ∃ u, exec (.rnrRetry e q) s = .next u ∧
      u.clk.now = max s.clk.now (o.rnrAt.getD 0 + usCycles r.rnrWait) ∧ (qp u e q).tx = r.tx ++ opTx o.post r.pmtu r.psn ∧
      (qp u e q).psn = (r.psn + opPackets o.post r.pmtu) % 2 ^ 32)) ∧
  (∀ (e q : Nat) (s : State), rteWf s = true → quiet s = true →
    let r := qp s e q
    ((r.suspects.find? fun x => ! x.probed && portOn s e (r.pathPort x.path)) = none → exec (.pathProbe e q) s = .next s) ∧
    (∀ x, (r.suspects.find? fun x => ! x.probed && portOn s e (r.pathPort x.path)) = some x →
      let k := r.pathPort x.path
      ((port s e k).ctl.filter fun y => y.1 == r.tclass).length < 128 → ∃ u, exec (.pathProbe e q) s = .next u ∧ u.clk.now = max s.clk.now x.until_ ∧
        (∃ y ∈ (port u e k).ctl, y.2.q = q ∧ y.2.f.bth.opc = .probe ∧ y.2.f.bth.path = x.path) ∧
        (qp u e q).suspects = updFirst (· == x) (fun x => { x with probed := true }) r.suspects)) ∧
  (∀ (e q : Nat) (s : State), quiet s = true →
    let due := s.rte.closing.find? fun c => c.e == e && c.q == q && c.left != 0
    (due = none → exec (.closeResend e q) s = .next s) ∧
    (∀ c, due = some c → ∃ u, exec (.closeResend e q) s = .next u ∧ u.clk.now = max s.clk.now (c.last + usCycles 4) ∧
      u.rte.closing = ((updFirst (· == c) (fun c => { c with left := c.left - 1, last := u.clk.now }) s.rte.closing).filter
        fun c => c.left != 0 || closeQueued u c.e c.q) ∧
      (∀ p k, nextPath s e { par := c.par, txctr := c.txctr } none = some p → k = ({ par := c.par, txctr := c.txctr } : QpRun).pathPort p → rteWf s = true →
        let d := ({ par := c.par, txctr := c.txctr } : QpRun).tclass
        ((port s e k).ctl.filter fun y => y.1 == d).length < 128 → closeQueued u e q = true)))

/-- A port with nothing staged moves the frame it selects into the staging buffer once it is free. The staged frame of an open pair then
leaves in its headers with its time and its ICRC, and the port is busy for its length; an encrypted one leaves sealed under the pair's
current key, or is dropped when that key is absent. A word that is not there in time ends the frame with a bad FCS and raises STARTTH by
its step, and 65,536 frames that crossed clean lower it by 64, each within its bounds. An idle port with EEE active enters low-power idle
LPIIDLE after its last activity, and a frame to send wakes it with TWSYS to wait. The EEE exchange sends the TLV, sets PEERTW and TWSYS
with the partner's answer, and EEEACT as TWMAX allows. A port that goes down, or whose MAC is reset, loses what it queues and stages, and
a pair without a port left goes to ERROR with ST_PEER_UNREACHABLE; one that comes up with NHV set sends the TLV. Requests for a port's own
address are answered, a PFC frame pauses its class (log 184), and other control frames count in NONRTE. -/
def Obligations.EthernetPortsAct : Prop :=
  (∀ (e k : Nat) (s : State), s.wf = true → rteWf s = true → quiet s = true →
    let p := port s e k
    let v := creditSettle (later s p.busy) e k
    ((portOn s e k = false ∨ p.stage ≠ []) → exec (.portSelect e k) s = .next s) ∧
    (portOn s e k = true → p.stage = [] → pickFrame v e k = none → exec (.portSelect e k) s = .next v) ∧
    (∀ c x, portOn s e k = true → p.stage = [] → pickFrame v e k = some (c, x) → k < 4 → ∃ u, exec (.portSelect e k) s = .next u ∧
      u.clk.now = max s.clk.now p.busy ∧ (port u e k).stage = [x] ∧ (x.2.f.bth.opc ≠ .ack →
        (port u e k).ctl = (if c then p.ctl.erase x else p.ctl) ∧ (port u e k).data = if c then p.data else p.data.erase x))) ∧
  (∀ (e k : Nat) (x : Nat × QFrame) (rest : List (Nat × QFrame)) (s : State), s.wf = true → rteWf s = true → quiet s = true → e < 2 → k < 4 →
    (port s e k).stage = x :: rest →
    let r := pairOf s e x.2.q
    let g := max s.clk.now (max (port s e k).busy (port s e k).wakeAt)
    let armed := injArmed s (.rte e) .eth (fun _ => true)
    ((portOn s e k = false ∨ (port s e k).lpi = true) → exec (.frameStart e k) s = .next s) ∧
    (portOn s e k = true → (port s e k).lpi = false → r.enc = false → armed = false → ∃ u f, exec (.frameStart e k) s = .next u ∧ u.clk.now = g ∧
      u.rte.out = s.rte.out ++ [.frame e k (ethHdr s e k x.1 r x.2 f) f] ∧ f.bth = { x.2.f.bth with ts := timeNs u % 2 ^ 32, txctr := 0, kp := 0 } ∧ f.body = x.2.f.body ∧
      f.check = icrcOf f.bth f.body ∧ (port u e k).stage = rest ∧ (port u e k).busy = g + frameCycles x.2.len ∧
      (port u e k).cur = some x ∧ (port u e k).staged = min x.2.len (startth s e k)) ∧
    (portOn s e k = true → (port s e k).lpi = false → r.enc = true → armed = false → r.txctr + 1 < 2 ^ 40 →
      ∃ u, exec (.frameStart e k) s = .next u ∧ u.clk.now = g ∧ (port u e k).stage = rest ∧
        (match (qpKeys s e r).key (qpKeys s e r).cur with
         | none => u.rte.out = s.rte.out
         | some key => ∃ f, u.rte.out = s.rte.out ++ [.frame e k (ethHdr s e k x.1 r x.2 f) f] ∧
             f.bth = { x.2.f.bth with ts := timeNs u % 2 ^ 32, txctr := r.txctr, kp := (qpKeys s e r).cur } ∧
             f.body ++ f.check = Config.gcmSeal key (nonceOf r.srcId f.bth.sqpn r.txctr) (toBE 32 (bthNat f.bth)) x.2.f.body)) ∧
    (portOn s e k = true → (port s e k).lpi = false → r.enc = true → 2 ^ 40 ≤ r.txctr + 1 → ∃ u, exec (.frameStart e k) s = .next u ∧
      u.rte.out = s.rte.out ∧ (qpState s e x.2.q = 1 → x.2.q < 16384 → qpState u e x.2.q = 2))) ∧
  (∀ (e k : Nat) (x : Nat × QFrame) (s : State), s.wf = true → rteWf s = true → e < 2 → k < 4 → (port s e k).cur = some x →
    ((port s e k).busy ≤ s.clk.now ∨ x.2.len ≤ (port s e k).staged → exec (.underrun e k) s = .next s) ∧
    (s.clk.now < (port s e k).busy → (port s e k).staged < x.2.len → ∃ u, exec (.underrun e k) s = .next u ∧ u.rte.out = s.rte.out ++ [.badFcs e k] ∧
      startth u e k = min 4288 (startth s e k + 64 * max 1 (fld s (Reg.rtePortCfg e k) RtePortCfg.STSTEP)) ∧ (port u e k).cur = none ∧
      (port u e k).clean = 0)) ∧
  (∀ (e k : Nat) (s : State), s.wf = true → rteWf s = true → e < 2 → k < 4 →
    let p := port s e k
    let clean := if p.cur.isSome ∧ p.busy ≤ s.clk.now then p.clean + 1 else p.clean
    (clean < 65536 → ∃ u, exec (.startthDecay e k) s = .next u ∧ u.regs = s.regs ∧ (port u e k).clean = clean) ∧
    (65536 ≤ clean → ∃ u, exec (.startthDecay e k) s = .next u ∧ (port u e k).clean = clean - 65536 ∧
      startth u e k = min 4288 (max (64 * max 1 (fld s (Reg.rtePortCfg e k) RtePortCfg.STMIN)) (startth s e k - 64)))) ∧
  (∀ (e k : Nat) (s : State), s.wf = true → rteWf s = true → quiet s = true → e < 2 → k < 4 →
    let p := port s e k
    let may := portOn s e k && ! p.lpi && flag s (Reg.rtePortEee e k) RtePortEee.EEEACT && portIdle s e k
    let work := p.lpi && ! (p.data.isEmpty && p.ctl.isEmpty && p.stage.isEmpty)
    (may = false → exec (.lpiEnter e k) s = .next s) ∧
    (may = true → ∃ u, exec (.lpiEnter e k) s = .next u ∧ (port u e k).lpi = true ∧
      u.clk.now = max s.clk.now (max p.active p.busy + cycleAt (fld s (Reg.rtePortCfg e k) RtePortCfg.LPIIDLE))) ∧
    (work = false → exec (.lpiWake e k) s = .next s) ∧
    (work = true → ∃ u, exec (.lpiWake e k) s = .next u ∧ (port u e k).lpi = false ∧ u.regs = s.regs ∧
      (port u e k).wakeAt = s.clk.now + cycleAt (fld s (Reg.rtePortEee e k) RtePortEee.TWSYS)) ∧
    (∀ mac, portOn s e k = true → ∃ u, exec (.eeeTlvExchange e k none mac) s = .next u ∧ u.rte.out = s.rte.out ++ [.eeeTlv e k] ∧ u.regs = s.regs) ∧
    (∀ peer mac, portOn s e k = true → mac < 65536 → ∃ u, exec (.eeeTlvExchange e k (some peer) mac) s = .next u ∧ u.rte.out = s.rte.out ++ [.eeeTlv e k] ∧
      RegsOutside [Reg.rtePortEee e k] s u ∧ fld u (Reg.rtePortEee e k) RtePortEee.PEERTW = peer % 65536 ∧
      fld u (Reg.rtePortEee e k) RtePortEee.TWSYS = max (peer % 65536) mac ∧
      let c := Reg.rtePortCfg e k
      flag u (Reg.rtePortEee e k) RtePortEee.EEEACT = (flag s c RtePortCfg.EEE && decide (max (peer % 65536) mac ≤ min 1000 (fld s c RtePortCfg.TWMAX))) ∧
      (flag u (Reg.rtePortEee e k) RtePortEee.EEEACT = false → (port u e k).lpi = false)) ∧
    (∀ peer mac, portOn s e k = false → exec (.eeeTlvExchange e k peer mac) s = .next s)) ∧
  (∀ (e k : Nat) (s : State), s.wf = true → rteWf s = true → e < 2 → k < 4 →
    (∀ c ∈ [Instr.ethPortDown e k, .macReset e k], (c = .macReset e k ∨ (port s e k).up = true) → ∃ u, exec c s = .next u ∧ (port u e k).up = false ∧
      (port u e k).data = [] ∧ (port u e k).ctl = [] ∧ (port u e k).stage = [] ∧ (port u e k).lpi = false ∧
      (∀ q, q < 16384 → (qp s e q).ports = [k] → (∃ r, (16384 * e + q, r) ∈ s.rte.qps) → qpState s e q = 1 → qpState u e q = 2 ∧
        fld u (qpStat e q) RteQpStat.STATUS = Status.peerUnreachable.code)) ∧
    ((port s e k).up = false → exec (.ethPortDown e k) s = .next s) ∧
    ((port s e k).up = true → exec (.ethPortUp e k) s = .next s) ∧
    ((port s e k).up = false → quiet s = true → ∃ u, exec (.ethPortUp e k) s = .next u ∧ (port u e k).up = true ∧ u.regs = s.regs ∧
      u.rte.out = if flag s (Reg.rtePortCfg e k) RtePortCfg.NHV then s.rte.out ++ [.eeeTlv e k] else s.rte.out)) ∧
  (∀ (e k ip : Nat) (c : CtlFrame) (s : State), rteWf s = true → quiet s = true →
    let n := if (port s e k).ctlMs = timeNs s / 1000000 then (port s e k).ctlN else 0
    ((∀ cls ns, c ≠ .pfc cls ns) → (portOn s e k = false ∨ c = .other ∨ 64 ≤ n) → exec (.ethControlFrame e k c) s = .next (bump s (Reg.rtePortStat e k) RtePortStat.NONRTE 1)) ∧
    (portOn s e k = true → n < 64 → ∃ u, exec (.ethControlFrame e k (.arpRequest ip)) s = .next u ∧ u.regs = s.regs ∧
      u.rte.out = if ownIp s e k false ip then s.rte.out ++ [.control e k (.arpReply ip)] else s.rte.out) ∧
    (portOn s e k = true → n < 64 → ∃ u, exec (.ethControlFrame e k (.neighbourSolicit ip)) s = .next u ∧ u.regs = s.regs ∧
      u.rte.out = if ownIp s e k true ip then s.rte.out ++ [.control e k (.neighbourAdvert ip)] else s.rte.out) ∧
    (∀ cls ns, ∃ u, exec (.ethControlFrame e k (.pfc cls ns)) s = .next u ∧ u.regs = s.regs ∧ u.rte.out = s.rte.out ∧
      (ns = 0 → ∀ x ∈ (port u e k).paused, x.1 ≠ cls) ∧ (ns ≠ 0 → (cls, s.clk.now + cycleAt ns) ∈ (port u e k).paused)))

/-- In ALIGN, and first in RECOVERY, a port sends ALIGN blocks, in EQ TS blocks of kind 1 with PRBS31 after each, in CONFIG and RECOVERY TS
blocks of kind 2; the eighth sent, once eight have been received, makes it ACTIVE: from CONFIG after EQ with sequence numbers from 0 and
an empty replay buffer, from RECOVERY with every unacknowledged block to be sent again. In ACTIVE the first of these that is due goes out:
an ALIGN block, up to three waiting standpipe messages, a RETRY that carries ESEQ, a CTL block with acknowledgement and credits, the next
block of the replay buffer, the next flit of the front packet of the channel the port's arbiter granted, which takes the next SEQ and
joins the replay buffer, an IDLE block. A channel without credits or a grant, and a full replay buffer, send no flit. In other states a
port sends nothing. A control block carries the invalid code that an injection asks for. Character i of a block travels on lane i mod W in
column i div W, coded at that lane's disparity, and a receiver at the same disparities reads back exactly the characters sent, with no
error. The statement is about packets and messages of tenants that are not sealed. -/
def Obligations.LaneBlocksAreSent : Prop :=
  (∀ (n vc : Nat) (s : State), s.wf = true → laneWf s = true → n < 16 →
    let r := lane s n
    let w := laneWidth s n
    (lpState s n = 2 → ∃ u, exec (.laneBlockSend n vc) s = .next u ∧ (lane u n).out = r.out ++ [.align] ∧
      (r.injBit = false → (lane u n).wire = r.wire ++ (codeCols (160 / w) (rdsOf w r.txRd) (alignChrs (laneBase s n) w)).1)) ∧
    (lpState s n = 3 → ∃ u, exec (.laneBlockSend n vc) s = .next u ∧ (lane u n).out = r.out ++ [.ctl (ctlBlock kTs 0 (tsContent s n 1)), .prbs 3 0]) ∧
    (lpState s n = 6 → r.realign = true → ∃ u, exec (.laneBlockSend n vc) s = .next u ∧ (lane u n).out = r.out ++ [.align] ∧ lpState u n = 6) ∧
    (lpState s n = 4 → r.failAt.isSome = true → exec (.laneBlockSend n vc) s = .next s) ∧
    ((lpState s n = 6 ∧ r.realign = false) ∨ (lpState s n = 4 ∧ r.failAt = none) → ∃ u, exec (.laneBlockSend n vc) s = .next u ∧
      (lane u n).out = r.out ++ [.ctl (ctlBlock kTs 0 (tsContent s n 2))] ∧
      (r.tsTx + 1 < 8 ∨ r.tsRx < 8 → lpState u n = lpState s n ∧ (lane u n).tsTx = r.tsTx + 1) ∧
      (8 ≤ r.tsTx + 1 → 8 ≤ r.tsRx → lpState u n = 5 ∧
        (lpState s n = 4 → r.noEq = false → (lane u n).seq = 0 ∧ (lane u n).eseq = 0 ∧ (lane u n).replay = []) ∧
        (lpState s n = 6 → (lane u n).seq = r.seq ∧ (lane u n).eseq = r.eseq ∧ (lane u n).again = (lane u n).replay.length))) ∧
    (lpState s n ∈ [0, 1, 8, 9, 10, 11] → exec (.laneBlockSend n vc) s = .next s) ∧
    (lpState s n = 7 → r.toQuiet = 0 → exec (.laneBlockSend n vc) s = .next s)) ∧
  (∀ (n vc : Nat) (s : State), laneWf s = true → lpState s n = 5 →
    let r := lane s n
    let t := setLane s n { r with nAlign := r.nAlign + 1, nCtl := r.nCtl + 1 }
    let w := spWaiting s n
    let g := (w.take 3).filter fun x => ! sealedT s (SpTenant x.2)
    let bs := g.flatMap fun x => x.2.words.flatMap (toLE 8)
    let front := match vcFront r vc with
      | none => none
      | some x => if laneGrant s n ≠ some vc ∨ vcCredit r vc = 0 ∨ 2048 ≤ r.replay.length then none else some x
    let calm := alignDue t n = false ∧ w = [] ∧ r.retryDue = false ∧ ctlDue t n = false ∧ r.again = 0 ∧ r.toDeep = none ∧ r.toQuiet = 0
    (alignDue t n = true → ∃ u, exec (.laneBlockSend n vc) s = .next u ∧ (lane u n).out = r.out ++ [.align]) ∧
    (alignDue t n = false → w ≠ [] → ((w.take 1).any fun x => sealedT s (SpTenant x.2)) = false → bs ≠ [] → r.injSp = false →
      ∃ u, exec (.laneBlockSend n vc) s = .next u ∧ (lane u n).out = r.out ++ [.ctl { ctlBlock kSp g.length bs with badCode := r.injCode }] ∧
        u.coll.spNet = g.foldl (fun q x => q.erase x) s.coll.spNet) ∧
    (alignDue t n = false → w = [] → r.retryDue = true → ∃ u, exec (.laneBlockSend n vc) s = .next u ∧
      (lane u n).out = r.out ++ [.ctl { ctlBlock kRetry 1 (toLE 2 r.eseq) with badCode := r.injCode }] ∧ (lane u n).retryDue = false ∧ (lane u n).told = true) ∧
    (alignDue t n = false → w = [] → r.retryDue = false → ctlDue t n = true → ∃ u, exec (.laneBlockSend n vc) s = .next u ∧
      (lane u n).out = r.out ++ [.ctl { ctlBlock kCtl (if r.measuring then 2 else 0) (ctlContent s r) with badCode := r.injCode }] ∧ (lane u n).nCtl = 0) ∧
    (∀ x, alignDue t n = false → w = [] → r.retryDue = false → ctlDue t n = false → 0 < r.again → r.replay[r.replay.length - r.again]? = some x →
      ∃ u, exec (.laneBlockSend n vc) s = .next u ∧ (lane u n).out = r.out ++ [seqOut r x.1 x.2] ∧ (lane u n).again = r.again - 1 ∧
        (lane u n).replay = r.replay) ∧
    (∀ x, calm → front = some x → sealedT s x.pkt.tenant = false → ∃ u, exec (.laneBlockSend n vc) s = .next u ∧
      (lane u n).out = r.out ++ [seqOut r (r.seq % 4096) (.flit (flitBytes x.pkt x.sent))] ∧ (lane u n).seq = (r.seq + 1) % 4096 ∧
      (lane u n).replay = r.replay ++ [(r.seq % 4096, .flit (flitBytes x.pkt x.sent))] ∧ (lane u n).egress = (takeFlits r vc 1).egress) ∧
    (calm → front = none → ∃ u, exec (.laneBlockSend n vc) s = .next u ∧ (lane u n).out = r.out ++ [.ctl { ctlBlock kIdle 0 [] with badCode := r.injCode }] ∧
      (lane u n).seq = r.seq ∧ (lane u n).egress = r.egress)) ∧
  (∀ (k : Nat) (rds : List Bool) (cs : List Chr), cs.length = k * rds.length →
    (∀ i, i < cs.length → ∃ rd, ((codeCols k rds cs).1.getD (i / rds.length) []).getD (i % rds.length) 0 = enc10 rd (cs.getD i (false, 0))) ∧
    ((∀ c ∈ cs, c.2 < 256 ∧ (c.1 = true → c.2 % 32 = 28 ∨ c.2 ∈ [0xF7, 0xFB, 0xFD, 0xFE])) →
      readCols k rds (codeCols k rds cs).1 = (cs.map some, rds.map fun _ => 0, (codeCols k rds cs).2)))

/-- A whole flit with the SEQ a port expects raises ESEQ, acknowledges, frees a place of its channel unless its packet may not yet enter the
mesh, and joins its packet, which a bad HCRC or TENANT of any flit discards; the last one of a good packet hands it to the router, a
packet for this package when it may enter (R120, R135). Inside a run it joins the run; the last one ends it: with a missing key the run is
skipped, with a failed tag asked for again, else ESEQ passes it. A TAG block in sequence begins a run. A duplicate only acknowledges. Any
other block, and one that fails its CRC, is rejected: a RETRY falls due unless one was sent, a run is given up, and the first such block
at an ESEQ counts in CRCERR. RETRY acknowledges and begins a replay of all that remains; the REPLAYMAX-th in a row without progress is a
recovery. CTL acknowledges and brings the peer's freed counts, and with SUB = 2 a time sample, the 64th of which sets LP_TOFS and LP_TDLY.
SP brings its messages, a FREEZE in this package's time; one whose tag fails counts in AUTHFAIL. A control block that fails its CRC counts
in CTLBAD and does nothing else. A code error counts in CODEERR of its lane; a flit with one is rejected unless it is a duplicate, a
control block counts in CTLBAD. A port that is not active ignores them all. -/
def Obligations.LaneBlocksAreTaken : Prop :=
  (∀ (n : Nat) (f : LinkFlit) (s : State), s.wf = true → laneWf s = true → n < 16 →
    let i := rxIdles s n f.wire.idle
    let r := lane i n
    let c := rxClean s n f.wire (flitChrs f)
    let a := laneAck c n f.ack
    let p := pktOf (ofLE (slice f.bytes 0 24))
    let m := (r.asm.find? fun x => x.vc == vcOf p).getD { vc := vcOf p, pkt := p }
    let rest := r.asm.filter fun x => x.vc != vcOf p
    let data := m.data ++ slice f.bytes 24 128
    let fine := hcrcOk p && tenantOk p
    let q := if p.poison && ! m.pkt.poison then stamp { m.pkt with poison := true } else m.pkt
    let whole := { q with data := if Opc_hasPayload q.opc then slice data 0 q.nbytes else [] }
    let holds := ! m.bad && fine && m.pkt.dst.chip == myChip s && ! entryMay s s.dyn.entryWait n m.pkt
    (lpActive s n = false → exec (.linkFlit n f) s = .next s) ∧
    (lpActive s n = true → goodFlit f = true → f.seq = r.eseq → r.run = none → ∃ u, exec (.linkFlit n f) s = .next u ∧
      (lane u n).eseq = (r.eseq + 1) % 4096 ∧ (lane u n).told = false ∧ (lane u n).counted = false ∧
      (lane u n).replay = (r.replay.filter fun x => ! seqLe 12 (x.1 + 1) f.ack) ∧
      (lane u n).freed = (if holds then r.freed else eSet 0 (vcOf p) ((eGet 0 (vcOf p) r.freed + (m.kept + 1)) % 4096) r.freed) ∧
      (m.n + 1 < flits q → (m.bad = true ∨ fine = true ∨ hcrcOk p = false → u.dyn.net = s.dyn.net) ∧
        (lane u n).asm = rest ++ [{ m with data := data, n := m.n + 1, bad := m.bad || ! fine, kept := if holds then m.kept + 1 else 0, pkt := q }]) ∧
      (flits q ≤ m.n + 1 → (lane u n).asm = rest ∧
        (m.bad = true ∨ hcrcOk p = false → u.dyn.net = s.dyn.net) ∧
        (m.bad = false → fine = true → q.dst.chip ≠ myChip s ∨ entryMay s s.dyn.entryWait n whole = true → u.dyn.net = s.dyn.net ++ [whole]) ∧
        (m.bad = false → fine = true → q.dst.chip = myChip s → entryMay s s.dyn.entryWait n whole = false → u.dyn.net = s.dyn.net ∧ u.dyn.entryWait = s.dyn.entryWait ++ [(n, whole)]))) ∧
    (∀ x, lpActive s n = true → goodFlit f = true → r.run = some x → f.seq = nextSeq r →
      let whole := { x with flits := x.flits ++ [slice f.bytes 0 152] }
      let key := (lanePair s x.tenant).key x.kp
      let st := Reg.lpState n
      (whole.flits.length < x.n → exec (.linkFlit n f) s = .next (setLane a n { lane a n with run := some whole })) ∧
      (x.n ≤ whole.flits.length → ∃ u, exec (.linkFlit n f) s = .next u ∧ (lane u n).run = none ∧
        (key = none → (lane u n).eseq = (r.eseq + x.n + 1) % 4096 ∧ u.dyn.net = s.dyn.net) ∧
        (∀ k, key = some k → match Config.gcmOpen k (laneNonce (fld s st LpState.PEERDCHIP) (fld s st LpState.PEERPORT) x.ctr) x.aad
              (whole.flits.flatten ++ x.tag) with
          | none => (lane u n).eseq = r.eseq ∧ u.dyn.net = s.dyn.net ∧ (lane u n).retryDue = (r.retryDue || ! r.told)
          | some _ => (lane u n).eseq = (r.eseq + x.n + 1) % 4096))) ∧
    (lpActive s n = true → goodFlit f = true → f.seq ≠ nextSeq r → dupSeq r f.seq = true → exec (.linkFlit n f) s = .next a) ∧
    (lpActive s n = true → f.wire.cols = [] → f.badCode = false → (goodFlit f = false ∨ (f.seq ≠ nextSeq r ∧ dupSeq r f.seq = false)) →
      ∃ u, exec (.linkFlit n f) s = .next u ∧
        lane u n = { lane c n with counted := true, retryDue := r.retryDue || ! r.told, run := none } ∧
        fld u (Reg.lpLinkStat n) LpLinkStat.CRCERR =
          if r.counted then fld i (Reg.lpLinkStat n) LpLinkStat.CRCERR
          else (fld i (Reg.lpLinkStat n) LpLinkStat.CRCERR + 1) % 2 ^ fldWidth LpLinkStat.CRCERR) ∧
    (lpActive s n = true → f.wire.cols ≠ [] →
      let w := laneWidth s n
      let x := readCols (160 / w) (rdsOf w r.rxRd) f.wire.cols
      let g := flitOfChrs x.1
      let dup := g.crc == crc32 (slice g.bytes 0 152 ++ toLE 4 (g.seq * 2 ^ 20 + g.ack * 2 ^ 8 + g.low)) && dupSeq r g.seq
      ((x.2.1.all (· == 0)) = false → (∀ k, x.1.head? ≠ some (some (true, k))) → ∃ u, exec (.linkFlit n f) s = .next u ∧
        (lane u n).run = (if dup then r.run else none) ∧ (lane u n).counted = (r.counted || ! dup) ∧
        (lane u n).retryDue = (r.retryDue || (! dup && ! r.told)) ∧ (lane u n).eseq = r.eseq ∧ (lane u n).rxRd = x.2.2 ∧
        ∀ y, y < w → flag s (Reg.lpState n) LpState.REV = false → let l := Reg.lpLaneStat n (laneBase s n + y)
          fld u l LpLaneStat.CODEERR = (fld i l LpLaneStat.CODEERR + x.2.1.getD y 0) % 2 ^ fldWidth LpLaneStat.CODEERR) ∧
      (∀ k, x.1.head? = some (some (true, k)) → ∃ u, exec (.linkFlit n f) s = .next u ∧ (lane u n).eseq = r.eseq ∧ (lane u n).run = r.run ∧
        fld u (Reg.lpLinkStat n) LpLinkStat.CTLBAD = (fld i (Reg.lpLinkStat n) LpLinkStat.CTLBAD + 1) % 2 ^ fldWidth LpLinkStat.CTLBAD))) ∧
  (∀ (n : Nat) (b : CtlBlock) (s : State), s.wf = true → laneWf s = true → n < 16 → lpActive s n = true → b.kind = kTag →
    let i := rxIdles s n b.wire.idle
    let r := lane i n
    let c := rxClean s n b.wire (ctlChrs b)
    let t := ofLE (slice b.content 150 4)
    (goodCtl kTag b = true → r.run = none → bits t 31 20 = r.eseq → ∃ u x, exec (.tag n b) s = .next u ∧ (lane u n).run = some x ∧
      x.n = min 8 (max 1 b.sub) ∧ x.tenant = (b.content.getD 0 0).toNat ∧ x.ctr = ofLE (slice b.content 2 8) ∧
      x.tag = slice b.content 10 16 ∧ x.flits = [] ∧ (lane u n).eseq = r.eseq ∧ u.regs = i.regs) ∧
    (goodCtl kTag b = true → (r.run ≠ none ∨ bits t 31 20 ≠ r.eseq) → dupSeq r (bits t 31 20) = true →
      exec (.tag n b) s = .next (laneAck c n (bits t 19 8))) ∧
    (b.wire.cols = [] → b.badCode = false → (goodCtl kTag b = false ∨ ((r.run ≠ none ∨ bits t 31 20 ≠ r.eseq) ∧ dupSeq r (bits t 31 20) = false)) →
      ∃ u, exec (.tag n b) s = .next u ∧ lane u n = { lane c n with counted := true, retryDue := r.retryDue || ! r.told, run := none } ∧
        fld u (Reg.lpLinkStat n) LpLinkStat.CTLBAD = (fld i (Reg.lpLinkStat n) LpLinkStat.CTLBAD + b2n (! goodCtl kTag b)) % 2 ^ fldWidth LpLinkStat.CTLBAD)) ∧
  (∀ (n : Nat) (b : CtlBlock) (s : State), s.wf = true → laneWf s = true → n < 16 → lpActive s n = true → goodCtl kRetry b = true →
    let a := laneAck (rxClean s n b.wire (ctlChrs b)) n (ofLE (slice b.content 0 2) % 4096)
    let r := lane a n
    let tries := if r.tries = 0 then 1 else r.tries + 1
    (r.replay = [] → exec (.retry n b) s = .next a) ∧
    (r.replay ≠ [] → ∃ u, exec (.retry n b) s = .next u ∧ (lane u n).replay = r.replay ∧ (lane u n).tries = tries ∧
      fld u (Reg.lpLinkStat n) LpLinkStat.REPLAYS = (fld a (Reg.lpLinkStat n) LpLinkStat.REPLAYS + 1) % 2 ^ fldWidth LpLinkStat.REPLAYS ∧
      (tries < max 1 (fld s (Reg.lpCfg n) LpCfg.REPLAYMAX) → lpState u n = lpState s n ∧ (lane u n).again = r.replay.length) ∧
      (max 1 (fld s (Reg.lpCfg n) LpCfg.REPLAYMAX) ≤ tries → lpState u n = 6 ∧ (lane u n).eseq = r.eseq))) ∧
  (∀ (n : Nat) (b : CtlBlock) (s : State), s.wf = true → laneWf s = true → n < 16 → lpActive s n = true → goodCtl kCtl b = true →
    let i := rxIdles s n b.wire.idle
    let r := lane i n
    let t3 := ofLE (slice b.content 18 8)
    let t1 := ofLE (slice b.content 26 8)
    let t2 := ofLE (slice b.content 34 8)
    ∃ u, exec (.ctl n b) s = .next u ∧
      (lane u n).replay = (r.replay.filter fun x => ! seqLe 12 (x.1 + 1) (ofLE (slice b.content 0 2) % 4096)) ∧
      (∀ v, v < 8 → eGet 0 v (lane u n).peerFreed = ofLE (slice b.content (2 + 2 * v) 2) % 4096) ∧
      (b.sub ≠ 2 → u.regs = i.regs) ∧ (b.sub = 2 → (lane u n).ptx = t3 ∧ (lane u n).prx = fineNow s) ∧
      (b.sub = 2 → r.measuring = true → t1 ≠ 0 → r.samples.length < 63 → u.regs = i.regs ∧
        (lane u n).samples = r.samples ++ [((t2 : Int) - t1 - ((fineNow s : Int) - t3), (t2 : Int) - t1 + ((fineNow s : Int) - t3))]) ∧
      (b.sub = 2 → r.measuring = true → t1 ≠ 0 → r.samples.length = 63 → (lane u n).measuring = false ∧ (lane u n).samples = [] ∧
        fld u (Reg.lpTdly n) LpTdly.NS = 64)) ∧
  (∀ (n : Nat) (b : CtlBlock) (s : State), s.wf = true → lpActive s n = true → goodCtl kSp b = true →
    let l := spReadAll (rxClean s n b.wire (ctlChrs b)) n (min 3 b.sub) b.content
    ∃ u, exec (.sp n b) s = .next u ∧ u.coll.spNet = s.coll.spNet ++ (l.filterMap id).map (fun m => (lpEp (myChip s) n, spConvert s n m)) ∧
      fld u Reg.secStat SecStat.AUTHFAIL =
        (fld s Reg.secStat SecStat.AUTHFAIL + (l.filter Option.isNone).length) % 2 ^ fldWidth SecStat.AUTHFAIL) ∧
  (∀ (n : Nat) (b : CtlBlock) (s : State), lpActive s n = true → ∀ c ∈ [(kRetry, Instr.retry n b), (kCtl, .ctl n b), (kSp, .sp n b)], b.kind = c.1 →
    (b.wire.cols = [] → b.badCode = false → goodCtl c.1 b = false →
      exec c.2 s = .next (linkCount (rxClean s n b.wire (ctlChrs b)) n LpLinkStat.CTLBAD)) ∧
    (b.wire.cols ≠ [] → let x := rxCoded s n b.wire (ctlChrs b)
      (∀ v, x.2.1.head? ≠ some (some (false, v))) → x.2.2 = false → exec c.2 s = .next (linkCount x.1 n LpLinkStat.CTLBAD)) ∧
    (b.wire.cols ≠ [] → let x := rxCoded s n b.wire (ctlChrs b)
      ∀ v, x.2.1.head? = some (some (false, v)) → exec c.2 s = .next (rejectBlk x.1 n))) ∧
  (∀ (n : Nat) (b : CtlBlock) (s : State), lpActive s n = false → exec (.tag n b) s = .next s ∧
    (∀ c ∈ [(kRetry, Instr.retry n b), (kCtl, .ctl n b), (kSp, .sp n b)],
      (lpReceives s n = false → exec c.2 s = .next s) ∧ (lpReceives s n = true → goodCtl c.1 b = true → exec c.2 s = .next (rxClean s n b.wire (ctlChrs b))))) ∧
  (∀ (n : Nat) (b : CtlBlock) (s : State), lpReceives s n = true → kNever b.kind = true → ∀ c ∈ [Instr.retry n b, .ctl n b, .sp n b],
    exec c s = .next (linkCount (rxClean s n b.wire (ctlChrs b)) n LpLinkStat.CTLBAD))

/-- A peer clock takes a port from DETECT to ALIGN, and none within 1 ms begins DETECT anew with LASTERR 1. An ALIGN block in ALIGN, or in the
first part of RECOVERY, records lock, polarity and skew of each lane and counts consecutive blocks under lock; its code errors count in
CODEERR. Alignment ends in EQ (after a deep state in CONFIG) when sixteen lanes of one half have lock, an identity that fits the
majority's order, at most 40 characters of skew and sixteen blocks, else in DETECT with LASTERR 2; a recovery then stays in RECOVERY;
equalisation without bit errors on such a half in CONFIG, else in DETECT with LASTERR 3; in DETECT no lane is good. A TS block in EQ steps
the taps of lanes that are not fixed, within their limits; in CONFIG and RECOVERY it names the peer, and its checks count up to ACTIVE,
where every lane's disparity starts anew, or leave their LASTERR, a record, and a new try 1 ms later. A retry timer that expires replays
what is unacknowledged. A recovery that fails is tried again, and after RETRAINMAX + 1 failures the port is DOWN with LASTERR 8, its
queues and buffers given up. The loss of the peer's clock begins DETECT, of its training state a recovery. -/
def Obligations.LanePortsTrainAndRecover : Prop :=
  (∀ (n : Nat) (s : State), s.wf = true → laneWf s = true → n < 16 →
    (lpState s n ≠ 1 → exec (.peerClockDetect n) s = .next s ∧ exec (.detectTimeout n) s = .next s) ∧
    (lpState s n = 1 → ∃ u, exec (.peerClockDetect n) s = .next u ∧ lpState u n = 2 ∧ (lane u n).held = [] ∧ (lane u n).seen = []) ∧
    (lpState s n = 1 → quiet s = true → ∃ u, exec (.detectTimeout n) s = .next u ∧ lpState u n = 1 ∧
      fld u (Reg.lpState n) LpState.LASTERR = 1 ∧ u.clk.now = max s.clk.now ((lane s n).since + usCycles 1000) ∧
      (lane u n).since = u.clk.now)) ∧
  (∀ (n : Nat) (b : AlignIn) (s : State), s.wf = true → laneWf s = true → n < 16 →
    let seen (l : Nat) : LaneSeen := b.lanes.getD l {}
    let v := rxAlign s n b.wire
    (lpAligns s n = false → exec (.align n b) s = .next (setLane v n { lane v n with peerQuiet := false })) ∧
    (lpAligns s n = true → ∃ u, exec (.align n b) s = .next u ∧ (lane u n).seen = b.lanes ∧ ∀ l, l < 32 →
      (lane u n).held.getD l 0 = (if (seen l).lock then (lane s n).held.getD l 0 + 1 else 0) ∧
      fld u (Reg.lpLaneStat n l) LpLaneStat.LOCK = b2n (seen l).lock ∧ fld u (Reg.lpLaneStat n l) LpLaneStat.POL = b2n (seen l).pol ∧
      fld u (Reg.lpLaneStat n l) LpLaneStat.SKEW = (seen l).skew % 2 ^ fldWidth LpLaneStat.SKEW) ∧
    (lpReceives s n = true → b.wire.cols ≠ [] → flag s (Reg.lpState n) LpState.REV = false →
      let i := rxIdles s n b.wire.idle
      let w := laneWidth s n
      let x := readCols (160 / w) (rdsOf w (lane i n).rxRd) b.wire.cols
      ∃ u, exec (.align n b) s = .next u ∧ (lane u n).rxRd = x.2.2 ∧ ∀ y, y < w → let l := Reg.lpLaneStat n (laneBase s n + y)
        fld u l LpLaneStat.CODEERR = (fld i l LpLaneStat.CODEERR + x.2.1.getD y 0) % 2 ^ fldWidth LpLaneStat.CODEERR)) ∧
  (∀ (n : Nat) (rev : Bool) (s : State), s.wf = true → laneWf s = true → n < 16 → lpAligns s n = true →
    let r := lane s n
    let seen (l : Nat) : LaneSeen := r.seen.getD l {}
    let ls := (List.range 32).filter fun l => (seen l).lock
    let good (l : Nat) : Bool := (seen l).lock && (seen l).id == (if rev then 31 - l else l) && decide ((seen l).skew ≤ 40) &&
      decide (16 ≤ r.held.getD l 0) && ! bit r.retired l
    rev = decide ((ls.filter fun l => (seen l).id == l).length < (ls.filter fun l => (seen l).id == 31 - l).length) →
    ∃ u, exec (.alignDone n) s = .next u ∧ fld u (Reg.lpState n) LpState.REV = b2n rev ∧
      (((List.range 16).all good = true ∨ ((List.range 16).all fun l => good (16 + l)) = true) →
        lpState u n = (if lpState s n = 6 then 6 else if r.noEq then 4 else 3) ∧ (lpState s n = 6 → (lane u n).realign = false) ∧
        (lpState s n = 2 → (lane u n).tsTx = 0 ∧ (lane u n).tsRx = 0) ∧ ∀ l, l < 32 → bit (fld u (Reg.lpState n) LpState.LANEOK) l = good l) ∧
      ((List.range 16).all good = false → ((List.range 16).all fun l => good (16 + l)) = false →
        fld u (Reg.lpState n) LpState.LASTERR = 2 ∧ (lpState s n = 6 → lpState u n = 6 ∧ (lane u n).realign = true) ∧
        (lpState s n = 2 → lpState u n = 1 ∧ fld u (Reg.lpState n) LpState.LANEOK = 0))) ∧
  (∀ (n : Nat) (s : State), lpAligns s n = false → exec (.alignDone n) s = .next (setLane s n { lane s n with peerQuiet := false })) ∧
  (∀ (n bad : Nat) (ctle : List Nat) (s : State), s.wf = true → laneWf s = true → n < 16 →
    let ok := fld s (Reg.lpState n) LpState.LANEOK
    let left (l : Nat) : Bool := bit ok l && ! bit bad l
    (lpState s n ≠ 3 → exec (.eqDone n bad ctle) s = .next s) ∧
    (lpState s n = 3 → ∃ u, exec (.eqDone n bad ctle) s = .next u ∧
      (∀ l c, l < 32 → ctle[l]? = some c → fld u (Reg.lpLaneEq n l) LpLaneEq.CTLE =
        if flag s (Reg.lpLaneEq n l) LpLaneEq.FIX then fld s (Reg.lpLaneEq n l) LpLaneEq.CTLE else c % 2 ^ fldWidth LpLaneEq.CTLE) ∧
      (((List.range 16).all left = true ∨ ((List.range 16).all fun l => left (16 + l)) = true) → lpState u n = 4 ∧ (lane u n).failAt = none ∧
        ∀ l, l < 32 → bit (fld u (Reg.lpState n) LpState.LANEOK) l = left l) ∧
      ((List.range 16).all left = false → ((List.range 16).all fun l => left (16 + l)) = false →
        lpState u n = 1 ∧ fld u (Reg.lpState n) LpState.LASTERR = 3 ∧ fld u (Reg.lpState n) LpState.LANEOK = 0))) ∧
  (∀ (n : Nat) (b : CtlBlock) (s : State), s.wf = true → laneWf s = true → n < 16 → goodCtl kTs b = true →
    let c (i : Nat) : Nat := (b.content.getD i 0).toNat
    let r := lane s n
    let x := Reg.lpState n
    let v := setFld (setFld (setFld s x LpState.PEERDCHIP (c 2)) x LpState.PEERPORT (c 1)) x LpState.PEERDIR (c 3 % 16)
    let e := tsCheck v n b.content
    let loop := bit (c 3) 7 && flag s (Reg.lpTestCtl n) LpTestCtl.FELBOK
    (lpReceives s n = false → exec (.ts n b) s = .next s) ∧
    (lpReceives s n = true → lpState s n ∉ [3, 4, 6] ∨ lpAligns s n = true → exec (.ts n b) s = .next (rxClean s n b.wire (ctlChrs b))) ∧
    (lpState s n = 3 → c 0 = 1 → ∃ u, exec (.ts n b) s = .next u ∧ ∀ l, l < 32 → let q := Reg.lpLaneEq n l
      (flag s q LpLaneEq.FIX = true → rd u q = rd s q) ∧
      (flag s q LpLaneEq.FIX = false → fld u q LpLaneEq.PRE = tapStep (fld s q LpLaneEq.PRE) 16 (bits (c (19 + l)) 1 0) ∧
        fld u q LpLaneEq.POST = tapStep (fld s q LpLaneEq.POST) 24 (bits (c (19 + l)) 3 2))) ∧
    ((lpState s n = 4 ∨ (lpState s n = 6 ∧ r.realign = false)) → c 0 = 2 → loop = true → ∃ u, exec (.ts n b) s = .next u ∧ lpState u n = 10) ∧
    ((lpState s n = 4 ∨ (lpState s n = 6 ∧ r.realign = false)) → c 0 = 2 → loop = false → e ≠ 0 → ∃ u, exec (.ts n b) s = .next u ∧ lpState u n = lpState s n ∧
      fld u x LpState.LASTERR = e ∧ (lane u n).tsRx = 0 ∧ (lane u n).failAt = some (r.failAt.getD s.clk.now)) ∧
    ((lpState s n = 4 ∨ (lpState s n = 6 ∧ r.realign = false)) → c 0 = 2 → loop = false → e = 0 → ∃ u, exec (.ts n b) s = .next u ∧
      fld u x LpState.PEERDCHIP = c 2 ∧ fld u x LpState.PEERDIR = c 3 % 16 ∧
      (r.tsTx < 8 ∨ r.tsRx + 1 < 8 → lpState u n = lpState s n ∧ (lane u n).tsRx = r.tsRx + 1 ∧ ∀ i, i < 8 → eGet 0 i (lane u n).peerSize = c (11 + i)) ∧
      (8 ≤ r.tsTx → 8 ≤ r.tsRx + 1 → lpState u n = 5 ∧ (lane u n).txRd = [] ∧ (lane u n).rxRd = []))) ∧
  (∀ (n g : Nat) (s : State), s.wf = true → laneWf s = true → quiet s = true → n < 16 → lpState s n = 4 → (lane s n).failAt = some g →
    ∃ u, exec (.configRetry n) s = .next u ∧ u.clk.now = max s.clk.now (g + usCycles 1000) ∧ (lane u n).failAt = none ∧ (lane u n).tsTx = 0) ∧
  (∀ (n : Nat) (s : State), s.wf = true → laneWf s = true → quiet s = true → n < 16 →
    let r := lane s n
    let tries := if r.tries = 0 then 1 else r.tries + 1
    ((lpActive s n = false ∨ r.replay = []) → exec (.linkRetryTimeout n) s = .next s) ∧
    (lpActive s n = true → r.replay ≠ [] → ∃ u, exec (.linkRetryTimeout n) s = .next u ∧
      u.clk.now = max s.clk.now (r.timer + cycleAt (16 * max 1 (fld s (Reg.lpCfg n) LpCfg.RTRYTO))) ∧ (lane u n).replay = r.replay ∧
      (tries < max 1 (fld s (Reg.lpCfg n) LpCfg.REPLAYMAX) → (lane u n).again = r.replay.length ∧ lpState u n = lpState s n) ∧
      (max 1 (fld s (Reg.lpCfg n) LpCfg.REPLAYMAX) ≤ tries → lpState u n = 6))) ∧
  (∀ (n : Nat) (s : State), s.wf = true → laneWf s = true → n < 16 →
    let k := (lane s n).fails + 1
    (lpState s n ≠ 6 → exec (.laneRecoveryFail n) s = .next s) ∧
    (lpState s n = 6 → k ≤ fld s (Reg.lpCfg n) LpCfg.RETRAINMAX → ∃ u, exec (.laneRecoveryFail n) s = .next u ∧ lpState u n = 6 ∧
      (lane u n).fails = k ∧ (lane u n).replay = (lane s n).replay) ∧
    (lpState s n = 6 → fld s (Reg.lpCfg n) LpCfg.RETRAINMAX < k → ∃ u, exec (.laneRecoveryFail n) s = .next u ∧ lpState u n = 11 ∧
      fld u (Reg.lpState n) LpState.LASTERR = 8 ∧ (lane u n).fails = 0 ∧ (lane u n).replay = [] ∧ (lane u n).egress = [] ∧ (lane u n).asm = [])) ∧
  (∀ (n : Nat) (s : State), s.wf = true → laneWf s = true → n < 16 →
    (lpState s n ∈ [0, 8, 9, 11] → ∀ c, exec (.lanePeerLoss n c) s = .next s) ∧
    (lpState s n ∉ [0, 8, 9, 11] → ∃ u, exec (.lanePeerLoss n true) s = .next u ∧ lpState u n = 1 ∧ (lane u n).egress = (lane s n).egress ∧
      (lane u n).replay = []) ∧
    (lpActive s n = true → ∃ u, exec (.lanePeerLoss n false) s = .next u ∧ lpState u n = 6 ∧ (lane u n).replay = (lane s n).replay))

/-- A port whose QEN is set and which has been idle for QIDLE stops in that direction after four QUIET blocks; a due block wakes it, two ALIGN
blocks first, and so does a pending acknowledgement or credit once CTLINT block times have passed (log 173). DEEPREQ, or DEEPIDLE without
other blocks, starts four DEEP blocks once every block is acknowledged, and a received DEEP starts them too, or ends the wait for the
peer's; a packet, a message, a clear of DEEPREQ or the peer's clock wakes the port into ALIGN without EQ. DIR and W16 of LP_CFG and
LP_VC_CFG are written only in RESET, the rest of LP_CFG always. MODE of LP_TEST_CTL is written only in RESET, DOWN or TEST: PRBS, NESLB
and NEPLB enter TEST, send POLY, and PRBS adds the lanes' bit errors, saturating; FELB trains; MODE 0 leads back to training, or to RESET
without a direction; a reserved MODE discards the write. INJ inverts a bit on each lane of INJMASK, which a port looped onto itself
counts, and in an active port on the lanes of its next block; INJCRC, INJCODE and INJSP strike the next block of an active port. -/
def Obligations.LanePortsSleepAndTest : Prop :=
  (∀ (n : Nat) (b : CtlBlock) (p : Bool) (s : State), s.wf = true → laneWf s = true → quiet s = true → n < 16 →
    let r := lane s n
    let c := Reg.lpPmCfg n
    let may := lpState s n == 5 && flag s c LpPmCfg.QEN && ! laneBusy s n && r.toDeep.isNone
    let deepMay := lpActive s n && r.toDeep.isNone && r.replay.isEmpty
    let wakes := lpState s n == 8 && (p || ! r.egress.isEmpty || ! (spWaiting s n).isEmpty || ! flag s c LpPmCfg.DEEPREQ)
    (may = false → exec (.quietEnter n) s = .next s) ∧
    (may = true → ∃ u, exec (.quietEnter n) s = .next u ∧ lpState u n = 7 ∧ (lane u n).toQuiet = 4 ∧
      u.clk.now = max s.clk.now (r.calm + cycleAt (max 64 (fld s c LpPmCfg.QIDLE)))) ∧
    ((lpState s n ≠ 7 ∨ (laneBusy s n = false ∧ ctlNews s n = false)) → exec (.quietExit n) s = .next s) ∧
    (lpState s n = 7 → laneBusy s n = true ∨ ctlNews s n = true → ∃ u, exec (.quietExit n) s = .next u ∧ lpState u n = 5 ∧ (lane u n).toQuiet = 0 ∧
      (lane u n).aligns = 2 ∧ u.clk.now = if laneBusy s n then s.clk.now
        else max s.clk.now (r.since + ceilDiv ((ctlInt s n - r.nCtl) * 9 * (arbPeriod s (.lp n)).1) (4 * (arbPeriod s (.lp n)).2))) ∧
    (lpActive s n = true → goodCtl kQuiet b = true → 
      let c := rxClean s n b.wire (ctlChrs b)
      exec (.quiet n b) s = .next (setLane c n { lane c n with peerQuiet := true })) ∧
    (deepMay = false → exec (.deepEnter n) s = .next s) ∧
    (deepMay = true → flag s c LpPmCfg.DEEPREQ = true → ∃ u, exec (.deepEnter n) s = .next u ∧ lpState u n = 5 ∧ (lane u n).toDeep = some 4 ∧
      u.clk = s.clk) ∧
    (deepMay = true → flag s c LpPmCfg.DEEPREQ = false → fld s c LpPmCfg.DEEPIDLE ≠ 0 → laneBusy s n = false → ∃ u, exec (.deepEnter n) s = .next u ∧
      lpState u n = 5 ∧ (lane u n).toDeep = some 4 ∧ u.clk.now = max s.clk.now (r.busy + usCycles (fld s c LpPmCfg.DEEPIDLE))) ∧
    (lpActive s n = true → goodCtl kDeep b = true → r.toDeep = some 0 → ∃ u, exec (.deep n b) s = .next u ∧ lpState u n = 8 ∧ (lane u n).toDeep = none) ∧
    (lpActive s n = true → goodCtl kDeep b = true → r.toDeep ≠ some 0 → ∃ u, exec (.deep n b) s = .next u ∧ lpState u n = 5 ∧
      (lane u n).peerDeep = true ∧ (lane u n).toDeep = some (r.toDeep.getD 4)) ∧
    (∀ x ∈ [(kQuiet, Instr.quiet n b), (kDeep, .deep n b)], (lpReceives s n = false → exec x.2 s = .next s) ∧
      (lpReceives s n = true → lpActive s n = false → goodCtl x.1 b = true → exec x.2 s = .next (rxClean s n b.wire (ctlChrs b)))) ∧
    (wakes = false → exec (.deepWake n p) s = .next s) ∧
    (wakes = true → ∃ u, exec (.deepWake n p) s = .next u ∧ lpState u n = 2 ∧ (lane u n).noEq = true ∧ (lane u n).held = [])) ∧
  (∀ (n v : Nat) (s : State), s.wf = true → n < 16 →
    let c := Reg.lpCfg n
    (lpState s n = 0 → exec (.lanePortCfgWrite n c v) s = .next (softWrite s c v) ∧
      exec (.lanePortCfgWrite n (Reg.lpVcCfg n) v) s = .next (softWrite s (Reg.lpVcCfg n) v)) ∧
    (lpState s n ≠ 0 → exec (.lanePortCfgWrite n (Reg.lpVcCfg n) v) s = .next s ∧ ∃ u, exec (.lanePortCfgWrite n c v) s = .next u ∧
      fld u c LpCfg.DIR = fld s c LpCfg.DIR ∧ fld u c LpCfg.W16 = fld s c LpCfg.W16 ∧ RegsOutside [c] s u ∧
      fld u c LpCfg.ALIGNINTQ = bits v 59 52 ∧ fld u c LpCfg.CTLINT = bits v 51 44 ∧ fld u c LpCfg.REPLAYMAX = bits v 43 40 ∧
      fld u c LpCfg.RETRAINMAX = bits v 39 38 ∧ fld u c LpCfg.RTRYTO = bits v 37 26)) ∧
  (∀ (n v : Nat) (errs : List Nat) (s : State), s.wf = true → laneWf s = true → n < 16 →
    let r := lane s n
    let x := Reg.lpTestCtl n
    let free := lpState s n == 0 || lpState s n == 11 || lpState s n == 9
    let enters (m : Nat) : Instr := if m = 1 then .prbs n v errs else if m = 2 then .neslb n v else .neplb n v
    (∀ m ∈ [1, 2, 3], bits v 63 61 = m → free = true → ∃ u, exec (enters m) s = .next u ∧ lpState u n = 9 ∧ fld u x LpTestCtl.MODE = m ∧
      (lane u n).out = r.out ++ [.prbs (bits v 60 59) 0] ∧
      (m = 1 → ∀ l e, l < 32 → errs[l]? = some e → fld u (Reg.lpLaneStat n l) LpLaneStat.PRBSERR =
        min (2 ^ 32 - 1) (fld s (Reg.lpLaneStat n l) LpLaneStat.PRBSERR + e))) ∧
    (∀ m ∈ [1, 2, 3], bits v 63 61 = m → free = false → ∃ u, exec (enters m) s = .next u ∧ lpState u n = lpState s n ∧
      fld u x LpTestCtl.MODE = fld s x LpTestCtl.MODE ∧ fld u x LpTestCtl.POLY = bits v 60 59 ∧ (lane u n).out = r.out) ∧
    (∀ m ∈ [1, 2, 3], bits v 63 61 ≠ m → exec (enters m) s = .next s) ∧
    (bits v 63 61 = 4 → free = true → ∃ u, exec (.felb n v errs) s = .next u ∧ lpState u n = 1 ∧ fld u x LpTestCtl.MODE = 4) ∧
    (bits v 63 61 = 4 → free = false → ∃ u, exec (.felb n v errs) s = .next u ∧ lpState u n = lpState s n ∧
      fld u x LpTestCtl.MODE = fld s x LpTestCtl.MODE) ∧
    (bits v 63 61 = 0 → free = true → ∃ u, exec (.testModeOff n v) s = .next u ∧ fld u x LpTestCtl.MODE = 0 ∧
      lpState u n = if lpState s n = 9 then (if fld s (Reg.lpCfg n) LpCfg.DIR = 0 then 0 else 1) else lpState s n) ∧
    (bits v 63 61 = 0 → free = false → ∃ u, exec (.testModeOff n v) s = .next u ∧ lpState u n = lpState s n ∧
      fld u x LpTestCtl.MODE = fld s x LpTestCtl.MODE)) ∧
  (∀ (n v : Nat) (s : State), s.wf = true → laneWf s = true → n < 16 → bits v 63 61 < 5 →
    let r := lane s n
    let x := Reg.lpTestCtl n
    (bit v 57 = false → exec (.inj n v) s = .next s) ∧ (bit v 56 = false → exec (.injcrc n v) s = .next s) ∧
    (bit v 55 = false → exec (.injcode n v) s = .next s) ∧ (bit v 54 = false → exec (.injsp n v) s = .next s) ∧
    (bit v 57 = true → lpState s n = 9 → ∃ u, exec (.inj n v) s = .next u ∧
      (lane u n).out = r.out ++ [.prbs (bits v 60 59) (bits v 31 0)] ∧ ∀ l, l < 32 → fld u (Reg.lpLaneStat n l) LpLaneStat.PRBSERR =
        min (2 ^ 32 - 1) (fld s (Reg.lpLaneStat n l) LpLaneStat.PRBSERR + if (bits v 63 61 = 2 ∨ bits v 63 61 = 3) ∧ bit v l = true then 1 else 0)) ∧
    (bit v 57 = true → lpActive s n = true → ∃ u, exec (.inj n v) s = .next u ∧ (lane u n).injCode = (r.injCode || bit v 55) ∧
      (lane u n).injBit = (bits v 31 0 != 0) ∧ (lane u n).out = r.out) ∧
    (∀ i ∈ [Instr.injcrc n v, .injcode n v, .injsp n v], (i = .injcrc n v → bit v 56 = true) → (i = .injcode n v → bit v 55 = true) →
      (i = .injsp n v → bit v 54 = true) → ∃ u, exec i s = .next u ∧ (lane u n).injCrc = (r.injCrc || (bit v 56 && lpActive s n)) ∧
      (lane u n).injCode = (r.injCode || (bit v 55 && lpActive s n)) ∧ (lane u n).injSp = (r.injSp || (bit v 54 && lpActive s n)) ∧
      (lpActive s n = true → fld u x LpTestCtl.MODE = fld s x LpTestCtl.MODE)))

/-- PORST_N's release begins stage 1, the root PLL's lock starts fabric time and stage 2, all controllers ready end stage 8 and open the host
port with function 0 ready and FMPST RUNNING, and 50 ms of stage 8 stop start-up with CODE 8. Lock lost is counted; it gates the clocks
and holds the fabric, and before stage 9 the first loss begins again at stage 1 and the second stops with CODE 6; a relock holds the
fabric in reset with its partitions and started commands gone. The loss and return of the reference clock show in REFOK. PORST_N asserted
returns to stage 0 with EXT set; undervoltage is a power-on reset with UV set that keeps the queue and the flash's unit history. The
fabric's reset ends with its SRAM windows zero, its keys gone, nothing in flight, function 0 ready and directed ports in DETECT; a lane
port's reset keeps DIR. A controller's reset ends the requests it takes with ST_ABORTED and makes new ones wait; its end serves those that
waited. -/
def Obligations.PackageStartsAndStops : Prop :=
  (∀ (i : BootIn) (s : State),
    ((stage s ≠ 0 ∨ s.boot.inp.isSome = true) → exec (.porstRelease i) s = .next s) ∧
    (s.wf = true → stage s = 0 → s.boot.inp = none → ∃ u, exec (.porstRelease i) s = .next u ∧ stage u = 1 ∧ u.boot.inp = some i ∧
      flag u Reg.fabClkStat FabClkStat.REFOK = true ∧ u.rel.pons = s.rel.pons + 1)) ∧
  (∀ (s : State), s.wf = true →
    ((stage s ≠ 1 ∨ locked s = true) → exec .pllLock s = .next s) ∧
    (stage s = 1 → locked s = false → ∃ u, exec .pllLock s = .next u ∧ stage u = 2 ∧ locked u = true ∧ u.clk.run = true ∧ u.clk.gated = false) ∧
    (stage s ≠ 8 → exec .hbmControllersReady s = .next s ∧ exec .memoryStageTimeout s = .next s) ∧
    (stage s = 8 → ∃ u, exec .hbmControllersReady s = .next u ∧ stage u = 9 ∧ fnState u 0 = 1 ∧ u.mbx.fmpst = 1 ∧
      fld u Reg.fabBootStat FabBootStat.TOPENUS = min (2 ^ 32 - 1) (timeNs s / 1000)) ∧
    (stage s = 8 → quiet s = true → ∃ u, exec .memoryStageTimeout s = .next u ∧ stage u = 15 ∧ fld u Reg.fabBootStat FabBootStat.CODE = 8 ∧
      flag u Reg.fabBootStat FabBootStat.FAIL = true ∧ u.clk.now = max s.clk.now (s.boot.since + usCycles 50000)) ∧
    exec .refclkLoss s = .next (setFld s Reg.fabClkStat FabClkStat.REFOK 0) ∧
    exec .refclkReturn s = .next (setFld s Reg.fabClkStat FabClkStat.REFOK 1)) ∧
  (∀ (s : State), s.wf = true →
    (locked s = false → exec .clockLoss s = .next s) ∧
    (locked s = true → ∃ u, exec .clockLoss s = .next u ∧ locked u = false ∧ u.clk.gated = true ∧ u.clk.fabHeld = true ∧
      fld u Reg.fabClkStat FabClkStat.LOSSES = min (2 ^ fldWidth FabClkStat.LOSSES - 1) (fld s Reg.fabClkStat FabClkStat.LOSSES + 1) ∧
      ((stage s = 9 ∨ stage s = 15) → stage u = stage s ∧ u.log = s.log) ∧
      (stage s ≠ 9 → stage s ≠ 15 → s.boot.losses = 0 → stage u = 1 ∧ u.boot.losses = 1) ∧
      (stage s ≠ 9 → stage s ≠ 15 → s.boot.losses ≠ 0 → stage u = 15 ∧ fld u Reg.fabBootStat FabBootStat.CODE = 6 ∧
        flag u Reg.fabBootStat FabBootStat.FAIL = true)) ∧
    ((locked s = true ∨ stage s ≠ 9 ∨ s.clk.run = false) → exec .rootPllRelock s = .next s) ∧
    (locked s = false → stage s = 9 → s.clk.run = true → ∃ u, exec .rootPllRelock s = .next u ∧ locked u = true ∧ u.clk.gated = false ∧
      u.clk.fabHeld = true ∧ u.parts = [] ∧ u.host.cmds = [] ∧ u.coll.ops = [] ∧ u.trig = {})) ∧
  (∀ (s : State), s.wf = true →
    (s.boot.inp = none → exec .porstAssert s = .next s) ∧
    (s.boot.inp ≠ none → ∃ u, exec .porstAssert s = .next u ∧ stage u = 0 ∧ locked u = false ∧ pwrState u = 1 ∧ u.boot.inp = none ∧
      flag u Reg.fabPwrEvt FabPwrEvt.EXT = true ∧ u.clk.fabOff = true ∧ u.clk.fabHeld = true ∧ u.clk.now = s.clk.now ∧ u.parts = [] ∧
      u.host.cmds = [] ∧ u.trig = {}) ∧
    (∃ u, exec .undervoltage s = .next u ∧ stage u = (if s.boot.inp.isSome then 1 else 0) ∧ locked u = false ∧ u.boot.inp = s.boot.inp ∧
      flag u Reg.fabPwrEvt FabPwrEvt.UV = true ∧ u.rel.hist = s.rel.hist ∧ u.pending = s.pending ∧ u.mem = [] ∧ u.parts = [] ∧ u.clk.run = false)) ∧
  (∀ (s : State), s.wf = true →
    let ends := s.clk.fabHeld && ! s.clk.fabOff && locked s && ! s.boot.thermtrip && stage s == 9
    (ends = false → exec (.domainResetDone none) s = .next s) ∧
    (ends = true → ∃ u, exec (.domainResetDone none) s = .next u ∧ u.clk.fabHeld = false ∧ pwrState u = 3 ∧ u.parts = [] ∧ u.dyn.net = [] ∧
      u.sec = {} ∧ u.red = [] ∧ u.trig = {} ∧ fnState u 0 = (if s.host.loss ≠ 0 then 3 else 1) ∧
      (∀ t off, t < 64 → good s t = true → off < 0x1000000 → readByte u (tileAddr t off) = 0) ∧
      (∀ n, n < 16 → fld u (Reg.lpCfg n) LpCfg.DIR = fld s (Reg.lpCfg n) LpCfg.DIR ∧
        lpState u n = if fld s (Reg.lpCfg n) LpCfg.DIR = 0 then 0 else 1)) ∧
    (∀ n, laneWf s = true → (16 ≤ n ∨ lpState s n ≠ 0 ∨ s.clk.fabHeld = true → exec (.domainResetDone (some n)) s = .next s) ∧
      (n < 16 → lpState s n = 0 → s.clk.fabHeld = false → ∃ u, exec (.domainResetDone (some n)) s = .next u ∧
        fld u (Reg.lpCfg n) LpCfg.DIR = fld s (Reg.lpCfg n) LpCfg.DIR ∧ (lane u n).replay = [] ∧ (lane u n).retired = (lane s n).retired ∧
        lpState u n = if fld s (Reg.lpCfg n) LpCfg.DIR = 0 then 0 else 1))) ∧
  (∀ (m : Nat) (l : List Pkt) (s : State), m < 12 → s.boot.hbmDown.contains m = false → ∃ u, exec (.hbmControllerReset m l) s = .next u ∧
    u.boot.hbmDown = s.boot.hbmDown ++ [m] ∧ u.sch.absorb = s.sch.absorb.filter (fun b => b.mep != m) ∧
    u.sch.stage = s.sch.stage.filter (fun x => x.mep != m) ∧
    (∀ p, l = [p] → s.dyn.net.contains p = true → p.dst = mepEp (myChip s) m → expects p.opc = true → Sys2Proof.Machine.srcOk s p = true → plainSend s p = true →
      Answered u p .errRsp [BitVec.ofNat 8 Status.aborted.code])) ∧
  (∀ (m : Nat) (l : List Pkt) (s : State), (12 ≤ m ∨ s.boot.hbmDown.contains m = true → exec (.hbmControllerReset m l) s = .next s) ∧
    (s.boot.hbmDown.contains m = false → exec (.hbmControllerResetEnd m) s = .next s) ∧
    (s.boot.hbmDown.contains m = true → exec (.hbmControllerResetEnd m) s = .next ((s.boot.hbmWait.filter fun p => p.dst == mepEp (myChip s) m).foldl
      memRequest { s with boot := { s.boot with hbmDown := s.boot.hbmDown.erase m,
                                                hbmWait := s.boot.hbmWait.filter fun p => p.dst != mepEp (myChip s) m } })))

/-- A sample sets TEMP, VOLT and VALID of its site and continues or ends the site's row of samples at 125.0 °C or more; an armed fault adds 64
°C. Two such samples in a row hold the fabric in reset with its partitions gone, set OT and assert THERMTRIP_N; during start-up they stop
it. When the conditions of IDLE have held for FIDLE the fabric goes to IDLE with its clock gated and IDLES counted; a wake that coincides
abandons the entry. A wake source in IDLE returns the fabric to RUN with its bit in WSRC and its clock running while the PLL is locked; in
RUN it sets the latch. A write of FAB_PWR_CTL with WAKE set wakes as source 4, and the write's other fields apply. -/
def Obligations.PowerAndHeatAct : Prop :=
  (∀ (site temp volt : Nat) (s : State),
    (80 ≤ site → exec (.sensorSample site temp volt) s = .next s) ∧
    (s.wf = true → site < 80 → let left := eGet 0 site s.rel.hotInj
      let t := if left = 0 then temp % 65536 else (temp + 512) % 65536
      ∃ u, exec (.sensorSample site temp volt) s = .next u ∧ fld u (Reg.fabSensor site) FabSensor.TEMP = t ∧
        fld u (Reg.fabSensor site) FabSensor.VOLT = volt % 2 ^ fldWidth FabSensor.VOLT ∧ flag u (Reg.fabSensor site) FabSensor.VALID = true ∧
        u.boot.hot = eSet 0 site (if (1000 : Int) ≤ signed 16 t then eGet 0 site s.boot.hot + 1 else 0) s.boot.hot ∧
        u.rel.hotInj = eSet 0 site (left - 1) s.rel.hotInj ∧ RegsOutside [Reg.fabSensor site] s u)) ∧
  (∀ (site : Nat) (s : State), s.wf = true →
    ((eGet 0 site s.boot.hot < 2 ∨ s.boot.thermtrip = true) → exec (.thermalTrip site) s = .next s) ∧
    (2 ≤ eGet 0 site s.boot.hot → s.boot.thermtrip = false → ∃ u, exec (.thermalTrip site) s = .next u ∧ u.boot.thermtrip = true ∧
      u.clk.fabHeld = true ∧ flag u Reg.fabPwrEvt FabPwrEvt.OT = true ∧ u.parts = [] ∧ u.host.cmds = [] ∧ u.trig = {} ∧
      (1 ≤ stage s ∧ stage s ≤ 8 → stage u = 15 ∧ flag u Reg.fabBootStat FabBootStat.FAIL = true) ∧
      (stage s = 0 ∨ 9 ≤ stage s → stage u = stage s))) ∧
  (∀ (s : State), s.wf = true → quiet s = true →
    (mayIdle s = false → exec .fabricIdleEnter s = .next s) ∧
    (mayIdle s = true → s.boot.latch = true → exec .fabricIdleEnter s = .next { s with boot := { s.boot with latch := false } }) ∧
    (mayIdle s = true → s.boot.latch = false → ∃ u, exec .fabricIdleEnter s = .next u ∧ pwrState u = 2 ∧ u.clk.gated = true ∧
      u.clk.now = s.clk.now + usCycles (fld s Reg.fabPwrCtl FabPwrCtl.FIDLE) ∧
      fld u Reg.fabPwrStat FabPwrStat.IDLES = (fld s Reg.fabPwrStat FabPwrStat.IDLES + 1) % 2 ^ fldWidth FabPwrStat.IDLES)) ∧
  (∀ (src : Nat) (s : State), s.wf = true →
    ((6 ≤ src ∨ (pwrState s ≠ 2 ∧ pwrState s ≠ 3)) → exec (.wakeLatch src) s = .next s) ∧
    (src < 6 → pwrState s = 3 → exec (.wakeLatch src) s = .next { s with boot := { s.boot with latch := true } }) ∧
    (src < 6 → pwrState s = 2 → ∃ u, exec (.wakeLatch src) s = .next u ∧ pwrState u = 3 ∧ u.boot.latch = false ∧ u.clk.gated = ! locked s ∧
      fld u Reg.fabPwrStat FabPwrStat.WSRC = 2 ^ src ∧ RegsOutside [Reg.fabPwrStat] s u)) ∧
  (∀ (v : Nat) (s : State), s.wf = true →
    let w := softWrite s Reg.fabPwrCtl (putBits v 1 1 0)
    (bit v 1 = false → exec (.wake v) s = .next w) ∧
    (bit v 1 = true → pwrState s = 3 → exec (.wake v) s = .next { w with boot := { s.boot with latch := true } }) ∧
    (bit v 1 = true → pwrState s ≠ 2 → pwrState s ≠ 3 → exec (.wake v) s = .next w) ∧
    (bit v 1 = true → pwrState s = 2 → ∃ u, exec (.wake v) s = .next u ∧ pwrState u = 3 ∧ fld u Reg.fabPwrStat FabPwrStat.WSRC = 16 ∧
      rd u Reg.fabPwrCtl = rd w Reg.fabPwrCtl ∧ u.clk.gated = ! locked s ∧ u.boot.latch = false))

/-- A write of an injection register sets ARM for a detector its unit implements, when no partition holds a resource there; a clock error and
hot samples strike at once, the others wait. The earliest freeze in preparation acts at its TAPPLY: an unfrozen package freezes with its
number and time, a thaw of the same number thaws, and another freeze does nothing. A due trace buffer, or one 100 us after its first
record, leaves as a page whose chunk an AT_FADD claims. A program counter is sampled, for an owned tile with a well, 2^PCL2 cycles and a
draw below 2^(PCL2 - 4) after the last sample; the record names the counter, the stall and the channel shown. A watcher whose every line
is marked begins its readback; the readback stores the digest, or the counts and the statistics, clears BUSY and the marks and counts the
round. Every 1,000 hours each unit's count of transients is halved. The record goes to an empty buffer of its unit here. -/
def Obligations.ObserversAct : Prop :=
  (∀ (off v i : Nat) (b : Blk) (d : RegDef) (s : State), s.wf = true → off = injReg b → regAt off = some (.blk b, d, i) →
    (d.name = .inj ∨ d.name = .fabInj ∨ d.name = .secInj) →
    let w := softWrite s off (putBits v 63 63 0)
    let known := ((injDets b).map Det.code).contains (bits v 55 48)
    let hit := bits v 55 48 = Det.clock.code ∧ bits v 47 40 = 1
    let hot := bits v 55 48 = Det.sensor.code ∧ bits v 47 40 = 2
    let starved := bits v 55 48 = Det.arb.code ∧ bits v 47 40 = 1
    ((bit v 63 = false ∨ known = false ∨ heldAt w b = true) → exec (.injectionArm off v) s = .next w) ∧
    (bit v 63 = true → known = true → heldAt w b = false → ¬ hit → ¬ hot → ¬ starved →
      exec (.injectionArm off v) s = .next (setAgain w off Inj.ARM)) ∧
    (bit v 63 = true → known = true → heldAt w b = false → hit → locked s = true → ∃ u, exec (.injectionArm off v) s = .next u ∧
      locked u = false ∧ u.clk.fabHeld = true ∧ (flag s off Inj.ARM = false → askedAgain s off Inj.ARM = false → flag u off Inj.ARM = false) ∧
      fld u off Inj.DONE = (fld s off Inj.DONE + 1) % 2 ^ fldWidth Inj.DONE) ∧
    (bit v 63 = true → known = true → heldAt w b = false → hot → ∃ u, exec (.injectionArm off v) s = .next u ∧
      u.rel.hotInj = eSet 0 (bits v 39 32) 2 s.rel.hotInj ∧
      (flag s off Inj.ARM = false → askedAgain s off Inj.ARM = false → flag u off Inj.ARM = false))) ∧
  (∀ (s : State), s.wf = true → quiet s = true →
    (firstApply s.obs.apply = none → exec .freezeApply s = .next s) ∧
    (∀ t thaw no, firstApply s.obs.apply = some (t, thaw, no) → ∃ u, exec .freezeApply s = .next u ∧
      u.clk.now = max s.clk.now (ceilDiv (9 * t) 64) ∧ u.obs.apply = s.obs.apply.erase (t, thaw, no) ∧
      (isFrozen s = false → thaw = false → isFrozen u = true ∧ fld u Reg.telFrzStat TelFrzStat.FRZNO = no % 2 ^ 32 ∧ u.obs.latched.isSome = true ∧
        fld u Reg.telFrzTime TelFrzTime.TIME = timeNs u % 2 ^ 64) ∧
      (isFrozen s = true → thaw = false → u.regs = s.regs ∧ u.obs.latched = s.obs.latched) ∧
      (isFrozen s = true → thaw = true → no = fld s Reg.telFrzStat TelFrzStat.FRZNO → isFrozen u = false ∧ u.obs.latched = none))) ∧
  (∀ (unit well : Nat) (s : State), quiet s = true →
    ((s.obs.bufs.find? fun b => b.unit == unit && b.well == well) = none → exec (.traceFlush unit well) s = .next s) ∧
    (∀ b, (s.obs.bufs.find? fun b => b.unit == unit && b.well == well) = some b → ∃ u, exec (.traceFlush unit well) s = .next u ∧
      u.clk.now = (if b.due then s.clk.now else max s.clk.now (b.first + usCycles 100)) ∧ u.obs.bufs = s.obs.bufs.erase b ∧
      u.obs.flights = s.obs.flights ++ [⟨s.obs.nextFlight, unit, well, tracePage s b, b.recs.length⟩] ∧
      u.dyn.waiting = s.dyn.waiting ++ [⟨s.dyn.nextReq, tracePktOf s unit well .atFadd (chunkAddr s well 0) (toLE 8 1),
        .trace unit s.obs.nextFlight, [], false⟩])) ∧
  (∀ (tile pc stall : Nat) (s : State), quiet s = true →
    let c := Reg.tniPcsCfg tile
    let w := owner s tile
    let k := min 24 (max 8 (fld s c TniPcsCfg.PCL2))
    let takes := decide (tile < 64) && flag s c TniPcsCfg.EN && w != 0 && decide (w < 64) && wellOn s w
    let chan := match s.chan.shown.find? fun d => d.tile == tile with
      | some d => toLE 1 1 ++ toLE 2 d.chan
      | none => toLE 3 0
    (takes = false → exec (.pcSample tile pc stall) s = .next s) ∧
    (takes = true → (∀ b ∈ s.obs.bufs, b.unit ≠ unitCode .tni tile) → ∃ u n b, exec (.pcSample tile pc stall) s = .next u ∧ n < 2 ^ (k - 4) ∧
      u.clk.now = max s.clk.now (eGet 0 tile s.obs.samples + 2 ^ k + n) ∧ u.obs.samples = eSet 0 tile u.clk.now s.obs.samples ∧ u.regs = s.regs ∧
      b ∈ u.obs.bufs ∧ b.unit = unitCode .tni tile ∧ b.well = w ∧
      b.recs.getLast? = some (traceRec u 3 w (unitCode .tni tile) 0xFFFF 0xFFFF (toLE 8 pc ++ toLE 1 stall ++ chan)))) ∧
  (∀ (tile k : Nat) (s : State), s.wf = true →
    let r := Reg.tniWatchStat tile k
    let closes := decide (k < 4) && good s tile && flag s (Reg.tniWatchCfg tile k) TniWatchCfg.EN && ! flag s r TniWatchStat.BUSY && watchFull s tile k
    let bs := readMem s (watchBase s tile k) (128 * watchLines s tile k)
    let efmt := fld s (Reg.tniWatchCfg tile k) TniWatchCfg.EFMT
    let a := (elemsOf (elemWidth efmt) bs).foldl (watchElem efmt) {}
    (closes = false → exec (.watchRoundClose tile k) s = .next s) ∧
    (closes = true → exec (.watchRoundClose tile k) s = .next (setFld (setFld s r TniWatchStat.BUSY 1) r TniWatchStat.OVL 0)) ∧
    ((4 ≤ k ∨ flag s r TniWatchStat.BUSY = false) → exec (.watchReadbackDone tile k) s = .next s) ∧
    (k < 4 → tile < 64 → flag s r TniWatchStat.BUSY = true → ∃ u, exec (.watchReadbackDone tile k) s = .next u ∧ flag u r TniWatchStat.BUSY = false ∧
      fld u r TniWatchStat.ROUNDS = (fld s r TniWatchStat.ROUNDS + 1) % 2 ^ 32 ∧ u.obs.watch = eSet {} (4 * tile + k) {} s.obs.watch ∧
      (flag s (Reg.tniWatchCfg tile k) TniWatchCfg.MODE = true → (rd u (Reg.tniWatchRes4 tile k)).toNat = crc64 0 bs % 2 ^ 64 ∧
        rd u (Reg.tniWatchRes5 tile k) = 0) ∧
      (flag s (Reg.tniWatchCfg tile k) TniWatchCfg.MODE = false →
        (rd u (Reg.tniWatchRes0 tile k)).toNat = (a.count * 2 ^ 32 + a.zeros) % 2 ^ 64 ∧
        (rd u (Reg.tniWatchRes1 tile k)).toNat = (a.nans * 2 ^ 32 + a.infs) % 2 ^ 64 ∧
        (rd u (Reg.tniWatchRes4 tile k)).toNat = a.sum % 2 ^ 64 ∧ (rd u (Reg.tniWatchRes5 tile k)).toNat = a.sumsq % 2 ^ 64 ∧
        ∀ m, a.range = some m → (rd u (Reg.tniWatchRes2 tile k)).toNat = m.1 % 2 ^ 64 ∧ (rd u (Reg.tniWatchRes3 tile k)).toNat = m.2 % 2 ^ 64))) ∧
  (∀ (s : State), ∃ u, exec .transHalving s = .next u ∧ Only [.rel] s u ∧
    u.rel = { s.rel with hist := s.rel.hist.map fun h => { h with trans := h.trans / 2 } })

/-- For every state, package and region-0x0 address with offset A: block is A[39:12], the stack is block mod 12, and the stack address is
(block div 12) x 0x1000 + A[11:0]. The endpoint that serves the address is the stack's MEP, at DEP 1 of the tile 8y + x: (0, s + 1) for
stacks 0 to 5 and (7, s - 5) for stacks 6 to 11. The endpoint is the same in any two states, so neither the grade nor any write changes
the mapping. -/
def Obligations.DeviceMemoryInterleaves : Prop :=
  ∀ (s t : State) (chip a : Nat), region a = 0 →
    let A := regOff a
    let block := bits A 39 12
    let stack := block % 12
    stackOf A = stack ∧ stackAddr A = block / 12 * 0x1000 + bits A 11 0 ∧ homeEp s chip a = mepEp chip stack ∧
      (stack < 6 → homeEp s chip a = ⟨chip, 8 * (stack + 1) + 0, 1⟩) ∧ (6 ≤ stack → homeEp s chip a = ⟨chip, 8 * (stack - 5) + 7, 1⟩) ∧
      homeEp t chip a = homeEp s chip a

/-- When a descriptor belongs to tenant t, t is running and the descriptor's BANKS includes t's active bank, a write to any of the
descriptor's four slots completes and changes no register, so the descriptor keeps its value. The first three slots are only held until
the fourth; the fourth lets them go. -/
def Obligations.ActiveDescriptorsAreLocked : Prop :=
  ∀ (b : Blk) (n i v : Nat) (s : State), n < descCount b → i < 4 →
    let t := descTenant s b n
    1 ≤ t → t ≤ 63 → schState s t = 2 → inBank (streamDesc s b n) (schBank s t) = true →
    ∃ u, exec (.streamDescWrite b (4 * n + i) v) s = .next u ∧ u.regs = s.regs ∧ streamDesc u b n = streamDesc s b n ∧ Only [.bus] s u

/-- A CSR_RD or CSR_WR that arrives whole and in its turn from the package's own FMP at priority 3 and names an offset in a reserved range, or
one of a powered unit's window that holds no register, is answered by ERR_RSP ST_REGION_FAULT, with the packet untraced and no injection
armed at the answering unit. It changes no register (the answer itself may be counted by the operator matchers of a tile that sends it),
no memory and no other state but the network and the error log, into which a record with DET = HOST goes, as soon as the interval between
records lets it. The same access without a packet, whole or in halves, changes nothing but the log. A bit of a register that no field
covers reads zero after any write. -/
def Obligations.UnassignedAccessesAreRefused : Prop :=
  (∀ (p : Pkt) (s : State), hcrcOk p = true → tenantOk p = true → Ep_kind p.src = .fmp → p.src.chip = myChip s → p.prio = 3 → region p.addr = 2 →
    inTurn s p p.dst = true → Sys2Proof.Machine.srcOk s p = true →
    unassigned s (regOff p.addr) = true → plainSend s p = true → ∀ c ∈ [Instr.csrRd p, .csrWr p], (c = .csrRd p → p.opc = .csrRd) →
    (c = .csrWr p → p.opc = .csrWr) → ∃ u e, exec c s = .next u ∧ Answered u p .errRsp [BitVec.ofNat 8 Status.regionFault.code] ∧
      Only [.regs, .dyn, .log, .rel] s u ∧ RegsOutside ((List.range 4).map (Reg.tniOpmCnt p.dst.tile)) s u ∧
      e.det = Det.host.code ∧ u.log = (log s e).log ∧ (mayRecord s e = true → ∃ r ∈ u.log.ring, r.det = Det.host.code ∧ r.status = .regionFault)) ∧
  (∀ (off v : Nat) (h : RegHalf) (s : State), unassigned s off = true → ∀ c ∈ [Instr.registerWrite (.csr off) h v, .lowHalfRead ⟨.csr off, false⟩, .lowHalfRead ⟨.csr off, true⟩],
    ∃ u e, exec c s = .next u ∧ Only [.log, .rel] s u ∧ e.det = Det.host.code ∧ u.log = (log s e).log ∧
      (mayRecord s e = true → ∃ r ∈ u.log.ring, r.det = Det.host.code ∧ r.status = .regionFault)) ∧
  (∀ (off v i : Nat) (s : State), s.wf = true → (∀ d ∈ fieldsAt off, i < d.f.lo ∨ d.f.hi < i) →
    (rd (softWrite s off v) off).getLsbD i = false ∧ (accessRead (rd s off) (fieldsAt off)).getLsbD i = false)
end

