-- ==== Sys2Proof/Laws/Table.lean ====
section
/-!
SUPPORT. The sparse tables that hold memory, registers and engine records: reading after writing, and the canonical form.
-/
namespace Sys2Proof.Machine

variable {α : Type} {d : Nat → α}

theorem tGet_below {t : List (Nat × α)} [DecidableEq α] {lo k : Nat} (h : tWfFrom d lo t = true) (hk : k < lo) :
    tGet d k t = d k := by
  induction t generalizing lo with
  | nil => rfl
  | cons e r ih =>
    simp only [tWfFrom, Bool.and_eq_true, decide_eq_true_eq] at h
    have hne : e.1 ≠ k := by omega
    simp only [tGet, hne, if_false]
    exact ih h.2 (by omega)

/-- A key reads as the value last written to it. -/
theorem tGet_tSet_same [DecidableEq α] {lo : Nat} (k : Nat) (v : α) (t : List (Nat × α)) (h : tWfFrom d lo t = true) :
    tGet d k (tSet d k v t) = v := by
  induction t generalizing lo with
  | nil => by_cases hv : v = d k <;> simp [tSet, tGet, hv]
  | cons e r ih =>
    simp only [tWfFrom, Bool.and_eq_true, decide_eq_true_eq] at h
    by_cases h1 : e.1 < k
    · have hne : e.1 ≠ k := by omega
      simp only [tSet, h1, if_true, tGet, hne, if_false]
      exact ih h.2
    · by_cases hv : v = d k
      · by_cases he : e.1 = k
        · subst he
          simp only [tSet, h1, hv, if_true, if_false]
          exact tGet_below h.2 (by omega)
        · simp only [tSet, h1, hv, he, if_true, if_false, tGet]
          exact tGet_below h.2 (by omega)
      · simp [tSet, h1, hv, tGet]

/-- Writing one key leaves every other key alone. -/
theorem tGet_tSet_ne [DecidableEq α] (k j : Nat) (v : α) (t : List (Nat × α)) (hj : j ≠ k) :
    tGet d j (tSet d k v t) = tGet d j t := by
  induction t with
  | nil => by_cases hv : v = d k <;> simp [tSet, tGet, hv, Ne.symm hj]
  | cons e r ih =>
    by_cases h1 : e.1 < k
    · simp only [tSet, h1, if_true, tGet, ih]
    · by_cases hv : v = d k <;> by_cases he : e.1 = k <;> simp [tSet, h1, hv, he, tGet, Ne.symm hj]

theorem tWfFrom_mono [DecidableEq α] {lo lo' : Nat} {t : List (Nat × α)} (h : tWfFrom d lo t = true) (hl : lo' ≤ lo) :
    tWfFrom d lo' t = true := by
  cases t with
  | nil => rfl
  | cons e r =>
    simp only [tWfFrom, Bool.and_eq_true, decide_eq_true_eq] at h ⊢
    exact ⟨⟨by omega, h.1.2⟩, h.2⟩

theorem tWfFrom_tSet [DecidableEq α] {lo k : Nat} {v : α} {t : List (Nat × α)} (h : tWfFrom d lo t = true) (hl : lo ≤ k) :
    tWfFrom d lo (tSet d k v t) = true := by
  induction t generalizing lo with
  | nil => by_cases hv : v = d k <;> simp [tSet, tWfFrom, hv, hl]
  | cons e r ih =>
    have h' := h
    simp only [tWfFrom, Bool.and_eq_true, decide_eq_true_eq] at h'
    obtain ⟨⟨h1, h2⟩, h3⟩ := h'
    by_cases hlt : e.1 < k
    · simp only [tSet, hlt, if_true, tWfFrom, Bool.and_eq_true, decide_eq_true_eq]
      exact ⟨⟨h1, h2⟩, ih h3 hlt⟩
    · by_cases hv : v = d k
      · by_cases he : e.1 = k
        · subst he
          simp only [tSet, hlt, hv, if_true, if_false]
          exact tWfFrom_mono h3 (by omega)
        · simp only [tSet, hlt, hv, he, if_true, if_false]
          exact h
      · simp only [tSet, hlt, hv, if_false, tWfFrom, Bool.and_eq_true, decide_eq_true_eq]
        refine ⟨⟨hl, hv⟩, ?_⟩
        by_cases he : e.1 = k
        · simp only [he, if_true]; rw [he] at h3; exact h3
        · simp only [he, if_false, tWfFrom, Bool.and_eq_true, decide_eq_true_eq]
          exact ⟨⟨by omega, h2⟩, h3⟩

/-- Writing keeps the canonical form. -/
theorem tWf_tSet [DecidableEq α] (k : Nat) (v : α) (t : List (Nat × α)) (h : tWf d t = true) : tWf d (tSet d k v t) = true :=
  tWfFrom_tSet h (Nat.zero_le k)

/-- Dropping entries keeps the canonical form. -/
theorem tWf_filter [DecidableEq α] (p : Nat × α → Bool) (t : List (Nat × α)) (h : tWf d t = true) : tWf d (t.filter p) = true := by
  suffices H : ∀ (l : List (Nat × α)) (lo : Nat), tWfFrom d lo l = true → tWfFrom d lo (l.filter p) = true from H t 0 h
  intro l
  induction l with
  | nil => intros; rfl
  | cons e r ih =>
    intro lo hl
    simp only [tWfFrom, Bool.and_eq_true, decide_eq_true_eq] at hl
    by_cases hp : p e = true
    · simp only [List.filter_cons, hp, if_true, tWfFrom, Bool.and_eq_true, decide_eq_true_eq]
      exact ⟨hl.1, ih _ hl.2⟩
    · simp only [List.filter_cons, hp]
      exact tWfFrom_mono (ih _ hl.2) (by omega)

/-! ### One byte of memory, one register, one engine record -/

/-- A byte written reads back; every other byte is as it was. -/
theorem readByte_writeByte (s : State) (a c : Nat) (b : Byte) (h : Memory.wf s.mem = true) :
    readByte (writeByte s a b) c = if c = a then b else readByte s c := by
  by_cases hc : c = a
  · subst hc; simpa [readByte, writeByte] using tGet_tSet_same c b s.mem h
  · simp only [hc, if_false]; exact tGet_tSet_ne a c b s.mem hc

/-- Writing a byte keeps memory canonical. -/
theorem writeByte_wf (s : State) (a : Nat) (b : Byte) (h : Memory.wf s.mem = true) : Memory.wf (writeByte s a b).mem = true :=
  tWf_tSet a b s.mem h

/-- A register written reads back; every other register is as it was. -/
theorem rd_wrReg (s : State) (a c : Nat) (v : Word) (h : tWf resetWord s.regs = true) :
    rd (wrReg s a v) c = if c = a then v else rd s c := by
  by_cases hc : c = a
  · subst hc; simpa [rd, wrReg] using tGet_tSet_same c v s.regs h
  · simp only [hc, if_false]; exact tGet_tSet_ne a c v s.regs hc

/-- Writing a register keeps the register file canonical. -/
theorem wrReg_wf (s : State) (a : Nat) (v : Word) (h : tWf resetWord s.regs = true) : tWf resetWord (wrReg s a v).regs = true :=
  tWf_tSet a v s.regs h

theorem rd_wrReg_ne (s : State) {a c : Nat} (v : Word) (hc : c ≠ a) : rd (wrReg s a v) c = rd s c :=
  tGet_tSet_ne a c v s.regs hc

/-- Another engine record is as it was. -/
theorem eGet_eSet_ne {β : Type} [DecidableEq β] (z : β) {k j : Nat} (v : β) (t : List (Nat × β)) (hj : j ≠ k) :
    eGet z j (eSet z k v t) = eGet z j t :=
  tGet_tSet_ne k j v t hj

/-- An engine record written reads back from a canonical table. -/
theorem eGet_eSet_same {β : Type} [DecidableEq β] (z : β) (k : Nat) (v : β) (t : List (Nat × β)) (h : tWf (fun _ => z) t = true) :
    eGet z k (eSet z k v t) = v :=
  tGet_tSet_same k v t h

end Sys2Proof.Machine
end

