-- ==== Sys2Proof/Laws/Keeps.lean ====
section
/-!
SUPPORT. What an operation can do to the state, said once: `Keeps w s t` says that `t` differs from `s` in the components `w` alone and
that the canonical form of memory and registers survives. It composes, and every operation that answers a state has one lemma of this shape.
-/
namespace Sys2Proof.Machine

/-- The components outside `w` are as they were, and a canonical state stays canonical. -/
structure Keeps (w : List Part) (s t : State) : Prop where
  only : Only w s t
  wf : s.wf = true → t.wf = true

theorem Keeps.refl (w : List Part) (s : State) : Keeps w s s :=
  ⟨fun p _ => by cases p <;> first | rfl | exact ⟨rfl, rfl⟩, id⟩

theorem Part.same_trans {p : Part} {s t u : State} (h : p.same s t) (k : p.same t u) : p.same s u := by
  cases p <;> simp_all [Part.same]

theorem Keeps.trans {w : List Part} {s t u : State} (h : Keeps w s t) (k : Keeps w t u) : Keeps w s u :=
  ⟨fun p hp => Part.same_trans (h.only p hp) (k.only p hp), fun x => k.wf (h.wf x)⟩

theorem Keeps.mono {w v : List Part} {s t : State} (h : Keeps w s t) (hv : w ⊆ v) : Keeps v s t :=
  ⟨fun p hp => h.only p fun x => hp (hv x), h.wf⟩

theorem Keeps.ite {w : List Part} {s t u : State} {c : Prop} [Decidable c] (h : Keeps w s t) (k : Keeps w s u) :
    Keeps w s (if c then t else u) := by
  split <;> assumption

theorem Keeps.ite_fst {α : Type} {w : List Part} {s : State} {c : Prop} [Decidable c] {p q : State × α} (h : Keeps w s p.1)
    (k : Keeps w s q.1) : Keeps w s (if c then p else q).1 := by
  split <;> assumption

theorem Keeps.ite_snd {α : Type} {w : List Part} {s : State} {c : Prop} [Decidable c] {p q : α × State} (h : Keeps w s p.2)
    (k : Keeps w s q.2) : Keeps w s (if c then p else q).2 := by
  split <;> assumption

theorem Keeps.same_id {w : List Part} {s t : State} (h : Keeps w s t) : Keeps w s (id t) := h

theorem after_keeps {w : List Part} {s t : State} {o : Host.Outcome State Fault Refusal} (h : ∃ u, o = .next u ∧ Keeps w s u) :
    Keeps w s (after o t) := by
  obtain ⟨u, rfl, h⟩ := h; exact h

theorem Keeps.foldl {α : Type} {w : List Part} {s : State} {g : State → α → State} {l : List α} {t : State}
    (h : Keeps w s t) (k : ∀ u x, Keeps w s u → Keeps w s (g u x)) : Keeps w s (l.foldl g t) := by
  induction l generalizing t with
  | nil => exact h
  | cons a l ih => exact ih (k t a h)

theorem Keeps.foldl_fst {α β : Type} {w : List Part} {s : State} {g : State × β → α → State × β} {l : List α} {t : State × β}
    (h : Keeps w s t.1) (k : ∀ u x, Keeps w s u.1 → Keeps w s (g u x).1) : Keeps w s (l.foldl g t).1 := by
  induction l generalizing t with
  | nil => exact h
  | cons a l ih => exact ih (k t a h)

theorem Keeps.foldl_snd {α β : Type} {w : List Part} {s : State} {g : β × State → α → β × State} {l : List α} {t : β × State}
    (h : Keeps w s t.2) (k : ∀ u x, Keeps w s u.2 → Keeps w s (g u x).2) : Keeps w s (l.foldl g t).2 := by
  induction l generalizing t with
  | nil => exact h
  | cons a l ih => exact ih (k t a h)

theorem Keeps.of_fst {α : Type} {w : List Part} {s t : State} {a : α} {p : State × α} (e : p = (t, a)) (h : Keeps w s p.1) :
    Keeps w s t := by
  subst e; exact h

theorem Keeps.of_snd {α : Type} {w : List Part} {s t : State} {a : α} {p : α × State} (e : p = (a, t)) (h : Keeps w s p.2) :
    Keeps w s t := by
  subst e; exact h

theorem Keeps.clk {w : List Part} {s t : State} {x} (m : Part.clk ∈ w) (h : Keeps w s t) : Keeps w s { t with clk := x } :=
  h.trans ⟨fun p hp => by cases p <;> first | rfl | exact ⟨rfl, rfl⟩ | exact absurd m hp, id⟩

theorem Keeps.free {w : List Part} {s t : State} {x} (m : Part.free ∈ w) (h : Keeps w s t) : Keeps w s { t with free := x } :=
  h.trans ⟨fun p hp => by cases p <;> first | rfl | exact ⟨rfl, rfl⟩ | exact absurd m hp, id⟩

theorem Keeps.memPoison {w : List Part} {s t : State} {x} (m : Part.memPoison ∈ w) (h : Keeps w s t) : Keeps w s { t with memPoison := x } :=
  h.trans ⟨fun p hp => by cases p <;> first | rfl | exact ⟨rfl, rfl⟩ | exact absurd m hp, id⟩

theorem Keeps.bus {w : List Part} {s t : State} {x} (m : Part.bus ∈ w) (h : Keeps w s t) : Keeps w s { t with bus := x } :=
  h.trans ⟨fun p hp => by cases p <;> first | rfl | exact ⟨rfl, rfl⟩ | exact absurd m hp, id⟩

theorem Keeps.log {w : List Part} {s t : State} {x} (m : Part.log ∈ w) (h : Keeps w s t) : Keeps w s { t with log := x } :=
  h.trans ⟨fun p hp => by cases p <;> first | rfl | exact ⟨rfl, rfl⟩ | exact absurd m hp, id⟩

theorem Keeps.dyn {w : List Part} {s t : State} {x} (m : Part.dyn ∈ w) (h : Keeps w s t) : Keeps w s { t with dyn := x } :=
  h.trans ⟨fun p hp => by cases p <;> first | rfl | exact ⟨rfl, rfl⟩ | exact absurd m hp, id⟩

theorem Keeps.sch {w : List Part} {s t : State} {x} (m : Part.sch ∈ w) (h : Keeps w s t) : Keeps w s { t with sch := x } :=
  h.trans ⟨fun p hp => by cases p <;> first | rfl | exact ⟨rfl, rfl⟩ | exact absurd m hp, id⟩

theorem Keeps.arb {w : List Part} {s t : State} {x} (m : Part.arb ∈ w) (h : Keeps w s t) : Keeps w s { t with arb := x } :=
  h.trans ⟨fun p hp => by cases p <;> first | rfl | exact ⟨rfl, rfl⟩ | exact absurd m hp, id⟩

theorem Keeps.trig {w : List Part} {s t : State} {x} (m : Part.trig ∈ w) (h : Keeps w s t) : Keeps w s { t with trig := x } :=
  h.trans ⟨fun p hp => by cases p <;> first | rfl | exact ⟨rfl, rfl⟩ | exact absurd m hp, id⟩

theorem Keeps.red {w : List Part} {s t : State} {x} (m : Part.red ∈ w) (h : Keeps w s t) : Keeps w s { t with red := x } :=
  h.trans ⟨fun p hp => by cases p <;> first | rfl | exact ⟨rfl, rfl⟩ | exact absurd m hp, id⟩

theorem Keeps.coll {w : List Part} {s t : State} {x} (m : Part.coll ∈ w) (h : Keeps w s t) : Keeps w s { t with coll := x } :=
  h.trans ⟨fun p hp => by cases p <;> first | rfl | exact ⟨rfl, rfl⟩ | exact absurd m hp, id⟩

theorem Keeps.slu {w : List Part} {s t : State} {x} (m : Part.slu ∈ w) (h : Keeps w s t) : Keeps w s { t with slu := x } :=
  h.trans ⟨fun p hp => by cases p <;> first | rfl | exact ⟨rfl, rfl⟩ | exact absurd m hp, id⟩

theorem Keeps.chan {w : List Part} {s t : State} {x} (m : Part.chan ∈ w) (h : Keeps w s t) : Keeps w s { t with chan := x } :=
  h.trans ⟨fun p hp => by cases p <;> first | rfl | exact ⟨rfl, rfl⟩ | exact absurd m hp, id⟩

theorem Keeps.host {w : List Part} {s t : State} {x} (m : Part.host ∈ w) (h : Keeps w s t) : Keeps w s { t with host := x } :=
  h.trans ⟨fun p hp => by cases p <;> first | rfl | exact ⟨rfl, rfl⟩ | exact absurd m hp, id⟩

theorem Keeps.rte {w : List Part} {s t : State} {x} (m : Part.rte ∈ w) (h : Keeps w s t) : Keeps w s { t with rte := x } :=
  h.trans ⟨fun p hp => by cases p <;> first | rfl | exact ⟨rfl, rfl⟩ | exact absurd m hp, id⟩

theorem Keeps.sec {w : List Part} {s t : State} {x} (m : Part.sec ∈ w) (h : Keeps w s t) : Keeps w s { t with sec := x } :=
  h.trans ⟨fun p hp => by cases p <;> first | rfl | exact ⟨rfl, rfl⟩ | exact absurd m hp, id⟩

theorem Keeps.lane {w : List Part} {s t : State} {x} (m : Part.lane ∈ w) (h : Keeps w s t) : Keeps w s { t with lane := x } :=
  h.trans ⟨fun p hp => by cases p <;> first | rfl | exact ⟨rfl, rfl⟩ | exact absurd m hp, id⟩

theorem Keeps.rpt {w : List Part} {s t : State} {x} (m : Part.rpt ∈ w) (h : Keeps w s t) : Keeps w s { t with rpt := x } :=
  h.trans ⟨fun p hp => by cases p <;> first | rfl | exact ⟨rfl, rfl⟩ | exact absurd m hp, id⟩

theorem Keeps.mbx {w : List Part} {s t : State} {x} (m : Part.mbx ∈ w) (h : Keeps w s t) : Keeps w s { t with mbx := x } :=
  h.trans ⟨fun p hp => by cases p <;> first | rfl | exact ⟨rfl, rfl⟩ | exact absurd m hp, id⟩

theorem Keeps.parts {w : List Part} {s t : State} {x} (m : Part.parts ∈ w) (h : Keeps w s t) : Keeps w s { t with parts := x } :=
  h.trans ⟨fun p hp => by cases p <;> first | rfl | exact ⟨rfl, rfl⟩ | exact absurd m hp, id⟩

theorem Keeps.boot {w : List Part} {s t : State} {x} (m : Part.boot ∈ w) (h : Keeps w s t) : Keeps w s { t with boot := x } :=
  h.trans ⟨fun p hp => by cases p <;> first | rfl | exact ⟨rfl, rfl⟩ | exact absurd m hp, id⟩

theorem Keeps.rel {w : List Part} {s t : State} {x} (m : Part.rel ∈ w) (h : Keeps w s t) : Keeps w s { t with rel := x } :=
  h.trans ⟨fun p hp => by cases p <;> first | rfl | exact ⟨rfl, rfl⟩ | exact absurd m hp, id⟩

theorem Keeps.obs {w : List Part} {s t : State} {x} (m : Part.obs ∈ w) (h : Keeps w s t) : Keeps w s { t with obs := x } :=
  h.trans ⟨fun p hp => by cases p <;> first | rfl | exact ⟨rfl, rfl⟩ | exact absurd m hp, id⟩

theorem Keeps.notes {w : List Part} {s t : State} {x} (m : Part.regs ∈ w) (h : Keeps w s t) : Keeps w s { t with notes := x } :=
  h.trans ⟨fun p hp => by cases p <;> first | rfl | exact ⟨rfl, rfl⟩ | exact absurd m hp, id⟩

/-- A change to any of the components but the queue, the registers and the memory. -/
theorem Keeps.record {w : List Part} {s t : State} (h : Keeps w s t)
    {x_clk} (m_clk : x_clk = t.clk ∨ Part.clk ∈ w := by first | exact Or.inr (by assumption) | exact Or.inl rfl)
    {x_free} (m_free : x_free = t.free ∨ Part.free ∈ w := by first | exact Or.inr (by assumption) | exact Or.inl rfl)
    {x_memPoison} (m_memPoison : x_memPoison = t.memPoison ∨ Part.memPoison ∈ w := by first | exact Or.inr (by assumption) | exact Or.inl rfl)
    {x_bus} (m_bus : x_bus = t.bus ∨ Part.bus ∈ w := by first | exact Or.inr (by assumption) | exact Or.inl rfl)
    {x_log} (m_log : x_log = t.log ∨ Part.log ∈ w := by first | exact Or.inr (by assumption) | exact Or.inl rfl)
    {x_dyn} (m_dyn : x_dyn = t.dyn ∨ Part.dyn ∈ w := by first | exact Or.inr (by assumption) | exact Or.inl rfl)
    {x_sch} (m_sch : x_sch = t.sch ∨ Part.sch ∈ w := by first | exact Or.inr (by assumption) | exact Or.inl rfl)
    {x_arb} (m_arb : x_arb = t.arb ∨ Part.arb ∈ w := by first | exact Or.inr (by assumption) | exact Or.inl rfl)
    {x_trig} (m_trig : x_trig = t.trig ∨ Part.trig ∈ w := by first | exact Or.inr (by assumption) | exact Or.inl rfl)
    {x_red} (m_red : x_red = t.red ∨ Part.red ∈ w := by first | exact Or.inr (by assumption) | exact Or.inl rfl)
    {x_coll} (m_coll : x_coll = t.coll ∨ Part.coll ∈ w := by first | exact Or.inr (by assumption) | exact Or.inl rfl)
    {x_slu} (m_slu : x_slu = t.slu ∨ Part.slu ∈ w := by first | exact Or.inr (by assumption) | exact Or.inl rfl)
    {x_chan} (m_chan : x_chan = t.chan ∨ Part.chan ∈ w := by first | exact Or.inr (by assumption) | exact Or.inl rfl)
    {x_host} (m_host : x_host = t.host ∨ Part.host ∈ w := by first | exact Or.inr (by assumption) | exact Or.inl rfl)
    {x_rte} (m_rte : x_rte = t.rte ∨ Part.rte ∈ w := by first | exact Or.inr (by assumption) | exact Or.inl rfl)
    {x_sec} (m_sec : x_sec = t.sec ∨ Part.sec ∈ w := by first | exact Or.inr (by assumption) | exact Or.inl rfl)
    {x_lane} (m_lane : x_lane = t.lane ∨ Part.lane ∈ w := by first | exact Or.inr (by assumption) | exact Or.inl rfl)
    {x_rpt} (m_rpt : x_rpt = t.rpt ∨ Part.rpt ∈ w := by first | exact Or.inr (by assumption) | exact Or.inl rfl)
    {x_mbx} (m_mbx : x_mbx = t.mbx ∨ Part.mbx ∈ w := by first | exact Or.inr (by assumption) | exact Or.inl rfl)
    {x_parts} (m_parts : x_parts = t.parts ∨ Part.parts ∈ w := by first | exact Or.inr (by assumption) | exact Or.inl rfl)
    {x_boot} (m_boot : x_boot = t.boot ∨ Part.boot ∈ w := by first | exact Or.inr (by assumption) | exact Or.inl rfl)
    {x_rel} (m_rel : x_rel = t.rel ∨ Part.rel ∈ w := by first | exact Or.inr (by assumption) | exact Or.inl rfl)
    {x_obs} (m_obs : x_obs = t.obs ∨ Part.obs ∈ w := by first | exact Or.inr (by assumption) | exact Or.inl rfl)
    : Keeps w s { pending := t.pending, clk := x_clk, free := x_free, regs := t.regs, notes := t.notes, mem := t.mem, memPoison := x_memPoison, bus := x_bus, log := x_log, dyn := x_dyn, sch := x_sch, arb := x_arb, trig := x_trig, red := x_red, coll := x_coll, slu := x_slu, chan := x_chan, host := x_host, rte := x_rte, sec := x_sec, lane := x_lane, rpt := x_rpt, mbx := x_mbx, parts := x_parts, boot := x_boot, rel := x_rel, obs := x_obs } :=
  h.trans ⟨fun p hp => by cases p <;> first | rfl | exact ⟨rfl, rfl⟩ | (first | exact m_clk.resolve_right hp | exact m_free.resolve_right hp | exact m_memPoison.resolve_right hp | exact m_bus.resolve_right hp | exact m_log.resolve_right hp | exact m_dyn.resolve_right hp | exact m_sch.resolve_right hp | exact m_arb.resolve_right hp | exact m_trig.resolve_right hp | exact m_red.resolve_right hp | exact m_coll.resolve_right hp | exact m_slu.resolve_right hp | exact m_chan.resolve_right hp | exact m_host.resolve_right hp | exact m_rte.resolve_right hp | exact m_sec.resolve_right hp | exact m_lane.resolve_right hp | exact m_rpt.resolve_right hp | exact m_mbx.resolve_right hp | exact m_parts.resolve_right hp | exact m_boot.resolve_right hp | exact m_rel.resolve_right hp | exact m_obs.resolve_right hp), id⟩

end Sys2Proof.Machine
end

