-- ==== Sys2Proof/Laws/Fields.lean ====
section
/-!
SUPPORT. Register fields: a field written reads back, a field that does not overlap it is as it was, another register is as it was.
-/
namespace Sys2Proof.Machine

theorem putBits_lt {n hi lo v : Nat} (hn : n < 2 ^ 64) (h1 : lo ≤ hi) (h2 : hi < 64) : putBits n hi lo v < 2 ^ 64 := by
  obtain ⟨k, rfl⟩ : ∃ k, hi = lo + k := ⟨hi - lo, by omega⟩
  obtain ⟨m, hm⟩ : ∃ m, 64 = lo + k + 1 + m := ⟨63 - (lo + k), by omega⟩
  have e : lo + k + 1 - lo = k + 1 := by omega
  simp only [putBits, e]
  have hp : (2 : Nat) ^ 64 = 2 ^ (lo + k + 1) * 2 ^ m := by rw [← Nat.pow_add, ← hm]
  have hq : (2 : Nat) ^ (lo + k + 1) = 2 ^ lo * 2 ^ (k + 1) := by rw [← Nat.pow_add]; congr 1
  have a := Nat.mod_lt n (Nat.two_pow_pos lo)
  have b := Nat.mod_lt v (Nat.two_pow_pos (k + 1))
  have c : n / 2 ^ (lo + k + 1) < 2 ^ m := by
    rw [Nat.div_lt_iff_lt_mul (Nat.two_pow_pos _), Nat.mul_comm, ← hp]; exact hn
  have d : v % 2 ^ (k + 1) * 2 ^ lo + 2 ^ lo ≤ 2 ^ (lo + k + 1) := by
    rw [hq, Nat.mul_comm (2 ^ lo)]; calc
      v % 2 ^ (k + 1) * 2 ^ lo + 2 ^ lo = (v % 2 ^ (k + 1) + 1) * 2 ^ lo := by rw [Nat.add_mul, Nat.one_mul]
      _ ≤ 2 ^ (k + 1) * 2 ^ lo := Nat.mul_le_mul_right _ b
  have f : n / 2 ^ (lo + k + 1) * 2 ^ (lo + k + 1) + 2 ^ (lo + k + 1) ≤ 2 ^ 64 := by
    rw [hp, Nat.mul_comm (2 ^ (lo + k + 1)) (2 ^ m)]; calc
      n / 2 ^ (lo + k + 1) * 2 ^ (lo + k + 1) + 2 ^ (lo + k + 1) = (n / 2 ^ (lo + k + 1) + 1) * 2 ^ (lo + k + 1) := by
        rw [Nat.add_mul, Nat.one_mul]
      _ ≤ 2 ^ m * 2 ^ (lo + k + 1) := Nat.mul_le_mul_right _ c
  omega

theorem bits_putBits_same {n hi lo v : Nat} (h1 : lo ≤ hi) : bits (putBits n hi lo v) hi lo = v % 2 ^ (hi + 1 - lo) := by
  have hq : (2 : Nat) ^ (hi + 1) = 2 ^ lo * 2 ^ (hi + 1 - lo) := by rw [← Nat.pow_add]; congr 1; omega
  have e : putBits n hi lo v = n % 2 ^ lo + 2 ^ lo * (v % 2 ^ (hi + 1 - lo) + 2 ^ (hi + 1 - lo) * (n / 2 ^ (hi + 1))) := by
    unfold putBits; rw [hq]; ring
  unfold bits
  rw [e, Nat.add_mul_div_left _ _ (Nat.two_pow_pos lo), Nat.div_eq_of_lt (Nat.mod_lt n (Nat.two_pow_pos lo)), Nat.zero_add,
    Nat.add_mul_mod_self_left, Nat.mod_mod]

theorem bits_putBits_below {n hi lo v h l : Nat} (h1 : lo ≤ hi) (hb : h < lo) (hl : l ≤ h) :
    bits (putBits n hi lo v) h l = bits n h l := by
  obtain ⟨j, rfl⟩ : ∃ j, lo = h + 1 + j := ⟨lo - (h + 1), by omega⟩
  obtain ⟨k, rfl⟩ : ∃ k, hi = h + 1 + j + k := ⟨hi - (h + 1 + j), by omega⟩
  obtain ⟨i, rfl⟩ : ∃ i, h = l + i := ⟨h - l, by omega⟩
  have e1 : putBits n (l + i + 1 + j + k) (l + i + 1 + j) v % 2 ^ (l + i + 1) = n % 2 ^ (l + i + 1) := by
    have a : (2 : Nat) ^ (l + i + 1 + j) = 2 ^ (l + i + 1) * 2 ^ j := Nat.pow_add ..
    have b : (2 : Nat) ^ (l + i + 1 + j + k + 1) = 2 ^ (l + i + 1) * (2 ^ j * 2 ^ (k + 1)) := by
      rw [← Nat.pow_add, ← Nat.pow_add]; congr 1; omega
    unfold putBits
    rw [a, b]
    rw [show ∀ x y z : Nat, x + y * (2 ^ (l + i + 1) * 2 ^ j) + z * (2 ^ (l + i + 1) * (2 ^ j * 2 ^ (k + 1))) =
      x + 2 ^ (l + i + 1) * (y * 2 ^ j + z * (2 ^ j * 2 ^ (k + 1))) from fun x y z => by ring]
    rw [Nat.add_mul_mod_self_left, Nat.mod_mul_right_mod]
  have e2 : ∀ x : Nat, x / 2 ^ l % 2 ^ (l + i + 1 - l) = x % 2 ^ (l + i + 1) / 2 ^ l := fun x => by
    rw [show l + i + 1 - l = i + 1 by omega, show l + i + 1 = l + (i + 1) by omega, Nat.pow_add 2 l (i + 1), Nat.mod_mul_right_div_self]
  unfold bits
  rw [e2, e2, e1]

theorem bits_putBits_above {n hi lo v h l : Nat} (h1 : lo ≤ hi) (hb : hi < l) :
    bits (putBits n hi lo v) h l = bits n h l := by
  have hq : (2 : Nat) ^ (hi + 1) = 2 ^ lo * 2 ^ (hi + 1 - lo) := by rw [← Nat.pow_add]; congr 1; omega
  have a := Nat.mod_lt n (Nat.two_pow_pos lo)
  have b := Nat.mod_lt v (Nat.two_pow_pos (hi + 1 - lo))
  have lt : n % 2 ^ lo + v % 2 ^ (hi + 1 - lo) * 2 ^ lo < 2 ^ (hi + 1) := by
    rw [hq]; calc
      n % 2 ^ lo + v % 2 ^ (hi + 1 - lo) * 2 ^ lo < 2 ^ lo + v % 2 ^ (hi + 1 - lo) * 2 ^ lo := by omega
      _ = 2 ^ lo * (v % 2 ^ (hi + 1 - lo) + 1) := by ring
      _ ≤ 2 ^ lo * 2 ^ (hi + 1 - lo) := Nat.mul_le_mul_left _ b
  have e : putBits n hi lo v / 2 ^ (hi + 1) = n / 2 ^ (hi + 1) := by
    unfold putBits
    rw [Nat.add_mul_div_right _ _ (Nat.two_pow_pos _), Nat.div_eq_of_lt lt, Nat.zero_add]
  obtain ⟨j, rfl⟩ : ∃ j, l = hi + 1 + j := ⟨l - (hi + 1), by omega⟩
  unfold bits
  rw [Nat.pow_add, ← Nat.div_div_eq_div_mul, ← Nat.div_div_eq_div_mul, e]

theorem toNat_setF {w : Word} {f : Fld} {v : Nat} (h1 : f.lo ≤ f.hi) (h2 : f.hi < 64) :
    (setF w f v).toNat = putBits w.toNat f.hi f.lo v := by
  simp only [setF, BitVec.toNat_ofNat]
  exact Nat.mod_eq_of_lt (putBits_lt w.isLt h1 h2)

/-- A field written reads back, cut to its width. -/
theorem getF_setF_same {w : Word} {f : Fld} {v : Nat} (h1 : f.lo ≤ f.hi) (h2 : f.hi < 64) :
    getF (setF w f v) f = v % 2 ^ fldWidth f := by
  simp only [getF, toNat_setF h1 h2, fldWidth]; exact bits_putBits_same h1

/-- A field below the one written is as it was. -/
theorem getF_setF_below {w : Word} {f g : Fld} {v : Nat} (h1 : f.lo ≤ f.hi) (h2 : f.hi < 64) (hg : g.lo ≤ g.hi) (h : g.hi < f.lo) :
    getF (setF w f v) g = getF w g := by
  simp only [getF, toNat_setF h1 h2]; exact bits_putBits_below h1 h hg

/-- A field above the one written is as it was. -/
theorem getF_setF_above {w : Word} {f g : Fld} {v : Nat} (h1 : f.lo ≤ f.hi) (h2 : f.hi < 64) (h : f.hi < g.lo) :
    getF (setF w f v) g = getF w g := by
  simp only [getF, toNat_setF h1 h2]; exact bits_putBits_above h1 h

/-! ### Fields of registers in a state -/

theorem regs_wf {s : State} (h : s.wf = true) : tWf resetWord s.regs = true := by
  simp only [State.wf, Bool.and_eq_true] at h; exact h.2

theorem mem_wf {s : State} (h : s.wf = true) : Memory.wf s.mem = true := by
  simp only [State.wf, Bool.and_eq_true] at h; exact h.1

theorem rd_setFld_ne (s : State) {a c : Nat} (f : Fld) (v : Nat) (h : c ≠ a) : rd (setFld s a f v) c = rd s c :=
  rd_wrReg_ne s _ h

theorem rd_setFld_same (s : State) (a : Nat) (f : Fld) (v : Nat) (h : s.wf = true) : rd (setFld s a f v) a = setF (rd s a) f v := by
  rw [setFld, rd_wrReg _ _ _ _ (regs_wf h), if_pos rfl]

theorem fld_setFld_ne (s : State) {a c : Nat} (f g : Fld) (v : Nat) (h : c ≠ a) : fld (setFld s a f v) c g = fld s c g := by
  rw [fld, rd_setFld_ne s f v h]; rfl

/-- A register field written reads back, cut to its width. -/
theorem fld_setFld_same (s : State) (a : Nat) {f : Fld} (v : Nat) (h : s.wf = true) (h1 : f.lo ≤ f.hi) (h2 : f.hi < 64) :
    fld (setFld s a f v) a f = v % 2 ^ fldWidth f := by
  rw [fld, rd_setFld_same s a f v h]; exact getF_setF_same h1 h2

/-- A field above the one written is as it was. -/
theorem fld_setFld_above (s : State) (a : Nat) {f g : Fld} (v : Nat) (h : s.wf = true) (h1 : f.lo ≤ f.hi) (h2 : f.hi < 64)
    (hg : f.hi < g.lo) : fld (setFld s a f v) a g = fld s a g := by
  rw [fld, rd_setFld_same s a f v h]; exact getF_setF_above h1 h2 hg

/-- A field below the one written is as it was. -/
theorem fld_setFld_below (s : State) (a : Nat) {f g : Fld} (v : Nat) (h : s.wf = true) (h1 : f.lo ≤ f.hi) (h2 : f.hi < 64)
    (hl : g.lo ≤ g.hi) (hg : g.hi < f.lo) : fld (setFld s a f v) a g = fld s a g := by
  rw [fld, rd_setFld_same s a f v h]; exact getF_setF_below h1 h2 hl hg

/-! ### What a step of several updates leaves -/

theorem setFld_wf {s : State} {a : Nat} {f : Fld} {v : Nat} (h : s.wf = true) : (setFld s a f v).wf = true := by
  simp only [State.wf, Bool.and_eq_true] at h ⊢
  exact ⟨h.1, wrReg_wf s a _ h.2⟩

theorem readByte_of_mem_eq {s t : State} (h : t.mem = s.mem) (a : Nat) : readByte t a = readByte s a := by
  simp only [readByte, h]

theorem rd_of_regs_eq {s t : State} (h : t.regs = s.regs) (a : Nat) : rd t a = rd s a := by
  simp only [rd, h]

/-- With nothing on its way, carrying the clock forward changes the clock alone. -/
theorem advanceTo_quiet {s : State} (g : Nat) (h : quiet s = true) : advanceTo s g = later s g := by
  simp only [quiet, Bool.and_eq_true, List.isEmpty_iff] at h
  obtain ⟨⟨h1, h2⟩, h3⟩ := h
  unfold advanceTo later
  split
  · rename_i hg
    rw [Nat.max_eq_right (Nat.le_of_lt hg)]
    cases s with | mk pending clk free regs notes mem memPoison bus log dyn sch arb trig red coll slu chan host rte sec lane rpt mbx parts boot rel =>
    cases trig
    cases rel
    simp only at h1 h2 h3
    subst h1 h2 h3
    rfl
  · rename_i hg
    rw [Nat.max_eq_left (Nat.le_of_not_lt hg)]

/-- Writing bytes from `a` on: each of them reads back, every other byte is as it was. -/
theorem readByte_writeMem (s : State) (a c : Nat) (bs : List Byte) (h : Memory.wf s.mem = true) :
    readByte (writeMem s a bs) c = if a ≤ c ∧ c < a + bs.length then bs.getD (c - a) 0 else readByte s c := by
  induction bs generalizing s a with
  | nil => simp only [writeMem, List.length_nil]; rw [if_neg (by omega)]
  | cons b r ih =>
    rw [writeMem, ih _ _ (writeByte_wf s a b h), readByte_writeByte s a c b h]
    by_cases hc : c = a
    · subst hc
      rw [if_neg (by omega), if_pos rfl, if_pos (by simp)]
      simp
    · by_cases hi : a + 1 ≤ c ∧ c < a + 1 + r.length
      · obtain ⟨j, rfl⟩ : ∃ j, c = a + 1 + j := ⟨c - (a + 1), by omega⟩
        rw [if_pos hi, if_pos (by simp only [List.length_cons]; omega)]
        rw [show a + 1 + j - a = j + 1 by omega, show a + 1 + j - (a + 1) = j by omega]
        simp
      · rw [if_neg hi, if_neg hc, if_neg (by simp only [List.length_cons]; omega)]

theorem readByte_store (s : State) (a c : Nat) (bs : List Byte) (psn : Bool) (h : Memory.wf s.mem = true) :
    readByte (store s a bs psn) c = if a ≤ c ∧ c < a + bs.length then bs.getD (c - a) 0 else readByte s c :=
  readByte_writeMem s a c bs h

end Sys2Proof.Machine
end

