-- ==== Sys2Proof/Laws/FrameOps.lean ====
section
/-!
SUPPORT. What each operation of Machine/Ops.lean, Machine/Report.lean, Machine/Observe.lean, Machine/Dynamic.lean can touch: one lemma an operation,
that composes with the lemmas of its callers.
-/
namespace Sys2Proof.Machine

set_option linter.unusedTactic false
set_option linter.unreachableTactic false

/-! ### Machine/Ops.lean -/

theorem wrReg_keeps {w : List Part} {s₀ : State} {x1} {x2} {x3} (m_regs : Part.regs ∈ w) (h : Keeps w s₀ x1) :
    Keeps w s₀ (wrReg x1 x2 x3) :=
  h.trans ⟨fun p hp => by cases p <;> first | rfl | exact ⟨rfl, rfl⟩ | exact absurd m_regs hp, fun hw => by
    simp only [State.wf, Bool.and_eq_true] at hw ⊢
    exact ⟨hw.1, tWf_tSet _ _ _ hw.2⟩⟩

theorem setFld_keeps {w : List Part} {s₀ : State} {s} {off} {f} {v} (m_regs : Part.regs ∈ w) (h : Keeps w s₀ s) :
    Keeps w s₀ (setFld s off f v) := by
  unfold setFld
  repeat' first
    | intro _
    | with_reducible assumption
    | with_reducible (first | apply Keeps.ite | apply wrReg_keeps)
    | split
    | dsimp only

theorem bump_keeps {w : List Part} {s₀ : State} {s} {off} {f} {n} (m_regs : Part.regs ∈ w) (h : Keeps w s₀ s) :
    Keeps w s₀ (bump s off f n) := by
  unfold bump
  repeat' first
    | intro _
    | with_reducible assumption
    | with_reducible (first | apply Keeps.ite | apply setFld_keeps)
    | split
    | dsimp only

theorem bumpSat_keeps {w : List Part} {s₀ : State} {s} {off} {f} {n} (m_regs : Part.regs ∈ w) (h : Keeps w s₀ s) :
    Keeps w s₀ (bumpSat s off f n) := by
  unfold bumpSat
  repeat' first
    | intro _
    | with_reducible assumption
    | with_reducible (first | apply Keeps.ite | apply setFld_keeps)
    | split
    | dsimp only

theorem setNote_keeps {w : List Part} {s₀ : State} {s} {n} (m_regs : Part.regs ∈ w) (h : Keeps w s₀ s) :
    Keeps w s₀ (setNote s n) := by
  unfold setNote
  repeat' first
    | intro _
    | with_reducible assumption
    | with_reducible (first | apply Keeps.ite)
    | with_reducible (first | fail_if_no_progress apply Keeps.notes m_regs)
    | split
    | dsimp only

theorem raise_keeps {w : List Part} {s₀ : State} {s} {off} {mask} (m_regs : Part.regs ∈ w) (h : Keeps w s₀ s) :
    Keeps w s₀ (raise s off mask) := by
  unfold raise
  repeat' first
    | intro _
    | with_reducible assumption
    | with_reducible (first | apply Keeps.ite | apply wrReg_keeps | apply setNote_keeps)
    | split
    | dsimp only

theorem lower_keeps {w : List Part} {s₀ : State} {s} {off} {f} (m_regs : Part.regs ∈ w) (h : Keeps w s₀ s) :
    Keeps w s₀ (lower s off f) := by
  unfold lower
  repeat' first
    | intro _
    | with_reducible assumption
    | with_reducible (first | apply Keeps.ite | apply setFld_keeps)
    | split
    | dsimp only

theorem noteAgain_keeps {w : List Part} {s₀ : State} {s} {off} {f} (m_regs : Part.regs ∈ w) (h : Keeps w s₀ s) :
    Keeps w s₀ (noteAgain s off f) := by
  unfold noteAgain
  repeat' first
    | intro _
    | with_reducible assumption
    | with_reducible (first | apply Keeps.ite | apply setNote_keeps)
    | split
    | dsimp only

theorem setAgain_keeps {w : List Part} {s₀ : State} {s} {off} {f} (m_regs : Part.regs ∈ w) (h : Keeps w s₀ s) :
    Keeps w s₀ (setAgain s off f) := by
  unfold setAgain
  repeat' first
    | intro _
    | with_reducible assumption
    | with_reducible (first | apply Keeps.ite | apply setFld_keeps | apply noteAgain_keeps)
    | split
    | dsimp only

theorem softWrite_keeps {w : List Part} {s₀ : State} {s} {off} {v} (m_regs : Part.regs ∈ w) (h : Keeps w s₀ s) :
    Keeps w s₀ (softWrite s off v) := by
  unfold softWrite
  repeat' first
    | intro _
    | with_reducible assumption
    | with_reducible (first | apply Keeps.ite | apply wrReg_keeps | apply setNote_keeps)
    | split
    | dsimp only

theorem writeByte_keeps {w : List Part} {s₀ : State} {x1} {x2} {x3} (m_mem : Part.mem ∈ w) (h : Keeps w s₀ x1) :
    Keeps w s₀ (writeByte x1 x2 x3) :=
  h.trans ⟨fun p hp => by cases p <;> first | rfl | exact ⟨rfl, rfl⟩ | exact absurd m_mem hp, fun hw => by
    simp only [State.wf, Bool.and_eq_true] at hw ⊢
    exact ⟨tWf_tSet _ _ _ hw.1, hw.2⟩⟩

theorem writeMem_keeps {w : List Part} {s₀ : State} {x1} {x2} {x3} (m_mem : Part.mem ∈ w) (h : Keeps w s₀ x1) :
    Keeps w s₀ (writeMem x1 x2 x3) := by
  induction x3 generalizing x1 x2 with
  | nil => exact h
  | cons b r ih => exact ih (writeByte_keeps m_mem h)

theorem store_keeps {w : List Part} {s₀ : State} {s} {a} {bs} {psn} (m_mem : Part.mem ∈ w) (m_memPoison : Part.memPoison ∈ w) (h : Keeps w s₀ s) :
    Keeps w s₀ (store s a bs psn) := by
  unfold store
  repeat' first
    | intro _
    | with_reducible assumption
    | with_reducible (first | apply Keeps.ite | apply writeMem_keeps)
    | with_reducible (first | fail_if_no_progress apply Keeps.memPoison m_memPoison)
    | split
    | dsimp only

theorem injFire_keeps {w : List Part} {s₀ : State} {s} {b} (m_regs : Part.regs ∈ w) (m_rel : Part.rel ∈ w) (h : Keeps w s₀ s) :
    Keeps w s₀ (injFire s b) := by
  unfold injFire
  repeat' first
    | intro _
    | with_reducible assumption
    | with_reducible (first | apply Keeps.ite | apply bump_keeps | apply lower_keeps)
    | with_reducible (first | fail_if_no_progress apply Keeps.rel m_rel)
    | split
    | dsimp only

theorem histEvent_keeps {w : List Part} {s₀ : State} {s} {unit} {x3} {f} (m_rel : Part.rel ∈ w) (h : Keeps w s₀ s) :
    Keeps w s₀ (histEvent s unit x3 f) := by
  unfold histEvent
  repeat' first
    | intro _
    | with_reducible assumption
    | with_reducible (first | apply Keeps.ite)
    | with_reducible (first | fail_if_no_progress apply Keeps.rel m_rel)
    | split
    | dsimp only

theorem histOf_keeps {w : List Part} {s₀ : State} {s} {e} (m_rel : Part.rel ∈ w) (h : Keeps w s₀ s) :
    Keeps w s₀ (histOf s e) := by
  unfold histOf
  repeat' first
    | intro _
    | with_reducible assumption
    | with_reducible (first | apply Keeps.ite | apply Keeps.same_id | apply histEvent_keeps)
    | split
    | dsimp only

theorem logErr_keeps {w : List Part} {s₀ : State} {s} {e} (m_log : Part.log ∈ w) (m_rel : Part.rel ∈ w) (h : Keeps w s₀ s) :
    Keeps w s₀ (logErr s e).1 := by
  unfold logErr
  repeat' first
    | intro _
    | with_reducible assumption
    | with_reducible (first | apply Keeps.ite_fst | apply Keeps.ite | apply histOf_keeps)
    | with_reducible (first | fail_if_no_progress apply Keeps.log m_log | fail_if_no_progress apply Keeps.rel m_rel)
    | split
    | dsimp only

theorem log_keeps {w : List Part} {s₀ : State} {s} {e} (m_log : Part.log ∈ w) (m_rel : Part.rel ∈ w) (h : Keeps w s₀ s) :
    Keeps w s₀ (log s e) := by
  unfold log
  repeat' first
    | intro _
    | with_reducible assumption
    | with_reducible (first | apply Keeps.ite | apply logErr_keeps)
    | refine Keeps.of_fst (by with_reducible assumption) ?_
    | split
    | dsimp only

theorem bumpNext_keeps {w : List Part} {s₀ : State} {s} {off} {f} {n} (m_regs : Part.regs ∈ w) (h : Keeps w s₀ s) :
    Keeps w s₀ (bumpNext s off f n) := by
  unfold bumpNext
  repeat' first
    | intro _
    | with_reducible assumption
    | with_reducible (first | apply Keeps.ite | apply bump_keeps | apply setNote_keeps)
    | split
    | dsimp only

theorem ctrApply_keeps {w : List Part} {s₀ : State} {s} {off} {n} {fails} (m_regs : Part.regs ∈ w) (h : Keeps w s₀ s) :
    Keeps w s₀ (ctrApply s off n fails) := by
  unfold ctrApply
  repeat' first
    | intro _
    | with_reducible assumption
    | with_reducible (first | apply Keeps.ite | apply setFld_keeps | apply setNote_keeps | apply raise_keeps)
    | split
    | dsimp only

theorem ctrWrite_keeps {w : List Part} {s₀ : State} {s} {off} {v} (m_regs : Part.regs ∈ w) (h : Keeps w s₀ s) :
    Keeps w s₀ (ctrWrite s off v) := by
  unfold ctrWrite
  repeat' first
    | intro _
    | with_reducible assumption
    | with_reducible (first | apply Keeps.ite | apply setFld_keeps | apply softWrite_keeps)
    | split
    | dsimp only

theorem applyAdds_keeps {w : List Part} {s₀ : State} {x1} {x2} {x3} (m_regs : Part.regs ∈ w) (h : Keeps w s₀ x3) :
    Keeps w s₀ (applyAdds x1 x2 x3) := by
  induction x1 generalizing x2 x3 with
  | zero => exact h
  | succ n ih =>
    cases x2 with
    | nil => exact h
    | cons a r => exact ih (ctrApply_keeps m_regs h)

theorem addCtr_keeps {w : List Part} {s₀ : State} {s} {off} {n} {fail} (m_trig : Part.trig ∈ w) (h : Keeps w s₀ s) :
    Keeps w s₀ (addCtr s off n fail) := by
  unfold addCtr
  repeat' first
    | intro _
    | with_reducible assumption
    | with_reducible (first | apply Keeps.ite)
    | with_reducible (first | fail_if_no_progress apply Keeps.trig m_trig)
    | split
    | dsimp only

theorem addDone_keeps {w : List Part} {s₀ : State} {s} {off} {st} (m_trig : Part.trig ∈ w) (h : Keeps w s₀ s) :
    Keeps w s₀ (addDone s off st) := by
  unfold addDone
  repeat' first
    | intro _
    | with_reducible assumption
    | with_reducible (first | apply Keeps.ite | apply addCtr_keeps)
    | split
    | dsimp only

theorem disarm_keeps {w : List Part} {s₀ : State} {s} {b} {e} (m_regs : Part.regs ∈ w) (m_trig : Part.trig ∈ w) (h : Keeps w s₀ s) :
    Keeps w s₀ (disarm s b e) := by
  unfold disarm
  repeat' first
    | intro _
    | with_reducible assumption
    | with_reducible (first | apply Keeps.ite | apply setFld_keeps)
    | with_reducible (first | fail_if_no_progress apply Keeps.trig m_trig)
    | split
    | dsimp only

theorem compareEntry_keeps {w : List Part} {s₀ : State} {s} {x} (m_regs : Part.regs ∈ w) (m_trig : Part.trig ∈ w) (h : Keeps w s₀ s) :
    Keeps w s₀ (compareEntry s x) := by
  unfold compareEntry
  repeat' first
    | intro _
    | with_reducible assumption
    | with_reducible (first | apply Keeps.ite | apply addCtr_keeps | apply disarm_keeps)
    | with_reducible (first | fail_if_no_progress apply Keeps.trig m_trig)
    | split
    | dsimp only

theorem compareAll_keeps {w : List Part} {s₀ : State} {s} (m_regs : Part.regs ∈ w) (m_trig : Part.trig ∈ w) (h : Keeps w s₀ s) :
    Keeps w s₀ (compareAll s) := by
  unfold compareAll
  repeat' first
    | intro _
    | with_reducible assumption
    | with_reducible (first | apply Keeps.ite | apply Keeps.foldl | apply Keeps.foldl_fst | apply Keeps.foldl_snd | apply compareEntry_keeps)
    | split
    | dsimp only

theorem restoreDue_keeps {w : List Part} {s₀ : State} {s} (m_regs : Part.regs ∈ w) (m_rel : Part.rel ∈ w) (h : Keeps w s₀ s) :
    Keeps w s₀ (restoreDue s) := by
  unfold restoreDue
  repeat' first
    | intro _
    | with_reducible assumption
    | with_reducible (first | apply Keeps.ite | apply Keeps.foldl | apply Keeps.foldl_fst | apply Keeps.foldl_snd | apply wrReg_keeps)
    | with_reducible (first | fail_if_no_progress apply Keeps.rel m_rel)
    | split
    | dsimp only

theorem applyCycle_keeps {w : List Part} {s₀ : State} {s} (m_regs : Part.regs ∈ w) (m_rel : Part.rel ∈ w) (m_trig : Part.trig ∈ w) (h : Keeps w s₀ s) :
    Keeps w s₀ (applyCycle s) := by
  unfold applyCycle
  repeat' first
    | intro _
    | with_reducible assumption
    | with_reducible (first | apply Keeps.ite | apply applyAdds_keeps | apply compareAll_keeps | apply restoreDue_keeps)
    | with_reducible (first | fail_if_no_progress apply Keeps.trig m_trig)
    | split
    | dsimp only

theorem tick_keeps {w : List Part} {s₀ : State} {s} (m_clk : Part.clk ∈ w) (m_regs : Part.regs ∈ w) (m_rel : Part.rel ∈ w) (m_trig : Part.trig ∈ w) (h : Keeps w s₀ s) :
    Keeps w s₀ (tick s) := by
  unfold tick
  repeat' first
    | intro _
    | with_reducible assumption
    | with_reducible (first | apply Keeps.ite | apply applyCycle_keeps)
    | with_reducible (first | fail_if_no_progress apply Keeps.clk m_clk)
    | split
    | dsimp only

theorem advanceTo_keeps {w : List Part} {s₀ : State} {s} {g} (m_clk : Part.clk ∈ w) (m_regs : Part.regs ∈ w) (m_rel : Part.rel ∈ w) (m_trig : Part.trig ∈ w) (h : Keeps w s₀ s) :
    Keeps w s₀ (advanceTo s g) := by
  unfold advanceTo
  repeat' first
    | intro _
    | with_reducible assumption
    | with_reducible (first | apply Keeps.ite | apply applyCycle_keeps)
    | with_reducible (first | fail_if_no_progress apply Keeps.clk m_clk)
    | split
    | dsimp only

theorem settle_keeps {w : List Part} {s₀ : State} {s} (m_clk : Part.clk ∈ w) (m_regs : Part.regs ∈ w) (m_rel : Part.rel ∈ w) (m_trig : Part.trig ∈ w) (h : Keeps w s₀ s) :
    Keeps w s₀ (settle s) := by
  unfold settle
  repeat' first
    | intro _
    | with_reducible assumption
    | with_reducible (first | apply Keeps.ite | apply tick_keeps)
    | split
    | dsimp only

/-! ### Machine/Report.lean -/

theorem signal_keeps {w : List Part} {s₀ : State} {s} {fn} {vec} (m_host : Part.host ∈ w) (h : Keeps w s₀ s) :
    Keeps w s₀ (signal s fn vec) := by
  unfold signal
  repeat' first
    | intro _
    | with_reducible assumption
    | with_reducible (first | apply Keeps.ite)
    | with_reducible (first | fail_if_no_progress apply Keeps.host m_host)
    | split
    | dsimp only

theorem report_keeps {w : List Part} {s₀ : State} {s} {fn} {e} (m_host : Part.host ∈ w) (m_rpt : Part.rpt ∈ w) (h : Keeps w s₀ s) :
    Keeps w s₀ (report s fn e) := by
  unfold report
  repeat' first
    | intro _
    | with_reducible assumption
    | with_reducible (first | apply Keeps.ite | apply signal_keeps)
    | with_reducible (first | fail_if_no_progress apply Keeps.rpt m_rpt)
    | split
    | dsimp only

theorem logKept_keeps {w : List Part} {s₀ : State} {s} {e} (m_log : Part.log ∈ w) (m_rel : Part.rel ∈ w) (h : Keeps w s₀ s) :
    Keeps w s₀ (logKept s e).1 := by
  unfold logKept
  repeat' first
    | intro _
    | with_reducible assumption
    | with_reducible (first | apply Keeps.ite_fst | apply Keeps.ite | apply logErr_keeps)
    | refine Keeps.of_fst (by with_reducible assumption) ?_
    | split
    | dsimp only

theorem logReport_keeps {w : List Part} {s₀ : State} {s} {e} (m_host : Part.host ∈ w) (m_log : Part.log ∈ w) (m_rel : Part.rel ∈ w) (m_rpt : Part.rpt ∈ w) (h : Keeps w s₀ s) :
    Keeps w s₀ (logReport s e) := by
  unfold logReport
  repeat' first
    | intro _
    | with_reducible assumption
    | with_reducible (first | apply Keeps.ite | apply report_keeps | apply logKept_keeps)
    | refine Keeps.of_fst (by with_reducible assumption) ?_
    | split
    | dsimp only

theorem offence_keeps {w : List Part} {s₀ : State} {s} {e} (m_host : Part.host ∈ w) (m_log : Part.log ∈ w) (m_regs : Part.regs ∈ w) (m_rel : Part.rel ∈ w) (m_rpt : Part.rpt ∈ w) (h : Keeps w s₀ s) :
    Keeps w s₀ (offence s e) := by
  unfold offence
  repeat' first
    | intro _
    | with_reducible assumption
    | with_reducible (first | apply Keeps.ite | apply logErr_keeps | apply bumpNext_keeps | apply report_keeps)
    | refine Keeps.of_fst (by with_reducible assumption) ?_
    | split
    | dsimp only

theorem violation_keeps {w : List Part} {s₀ : State} {s} {e} (m_host : Part.host ∈ w) (m_log : Part.log ∈ w) (m_regs : Part.regs ∈ w) (m_rel : Part.rel ∈ w) (m_rpt : Part.rpt ∈ w) (h : Keeps w s₀ s) :
    Keeps w s₀ (violation s e) := by
  unfold violation
  repeat' first
    | intro _
    | with_reducible assumption
    | with_reducible (first | apply Keeps.ite | apply offence_keeps)
    | split
    | dsimp only

/-! ### Machine/Observe.lean -/

theorem draw_keeps {w : List Part} {s₀ : State} {s} (m_free : Part.free ∈ w) (h : Keeps w s₀ s) :
    Keeps w s₀ (draw s).2 := by
  unfold draw
  repeat' first
    | intro _
    | with_reducible assumption
    | with_reducible (first | apply Keeps.ite_snd | apply Keeps.ite)
    | with_reducible (first | fail_if_no_progress apply Keeps.free m_free)
    | split
    | dsimp only

theorem drawBytes_keeps {w : List Part} {s₀ : State} {s} {n} (m_free : Part.free ∈ w) (h : Keeps w s₀ s) :
    Keeps w s₀ (drawBytes s n).2 := by
  unfold drawBytes
  repeat' first
    | intro _
    | with_reducible assumption
    | with_reducible (first | apply Keeps.ite_snd | apply Keeps.ite)
    | with_reducible (first | fail_if_no_progress apply Keeps.free m_free)
    | split
    | dsimp only

theorem tutilIn_keeps {w : List Part} {s₀ : State} {s} {b} {x3} {n} (m_regs : Part.regs ∈ w) (h : Keeps w s₀ s) :
    Keeps w s₀ (tutilIn s b x3 n) := by
  unfold tutilIn
  repeat' first
    | intro _
    | with_reducible assumption
    | with_reducible (first | apply Keeps.ite | apply bump_keeps)
    | split
    | dsimp only

theorem tutilOut_keeps {w : List Part} {s₀ : State} {s} {b} {x3} {n} (m_regs : Part.regs ∈ w) (h : Keeps w s₀ s) :
    Keeps w s₀ (tutilOut s b x3 n) := by
  unfold tutilOut
  repeat' first
    | intro _
    | with_reducible assumption
    | with_reducible (first | apply Keeps.ite | apply bump_keeps)
    | split
    | dsimp only

theorem tniFmt_keeps {w : List Part} {s₀ : State} {s} {tile} {e} (m_regs : Part.regs ∈ w) (h : Keeps w s₀ s) :
    Keeps w s₀ (tniFmt s tile e) := by
  unfold tniFmt
  repeat' first
    | intro _
    | with_reducible assumption
    | with_reducible (first | apply Keeps.ite | apply bump_keeps)
    | split
    | dsimp only

theorem ruFmt_keeps {w : List Part} {s₀ : State} {s} {tile} {x3} {e} (m_regs : Part.regs ∈ w) (h : Keeps w s₀ s) :
    Keeps w s₀ (ruFmt s tile x3 e) := by
  unfold ruFmt
  repeat' first
    | intro _
    | with_reducible assumption
    | with_reducible (first | apply Keeps.ite | apply bump_keeps)
    | split
    | dsimp only

theorem matchOp_keeps {w : List Part} {s₀ : State} {s} {tile} {layer} {opid} {n} (m_regs : Part.regs ∈ w) (h : Keeps w s₀ s) :
    Keeps w s₀ (matchOp s tile layer opid n) := by
  unfold matchOp
  repeat' first
    | intro _
    | with_reducible assumption
    | with_reducible (first | apply Keeps.ite | apply Keeps.foldl | apply Keeps.foldl_fst | apply Keeps.foldl_snd | apply bump_keeps)
    | split
    | dsimp only

theorem loseRec_keeps {w : List Part} {s₀ : State} {s} {unit} {well} {n} (m_obs : Part.obs ∈ w) (m_regs : Part.regs ∈ w) (h : Keeps w s₀ s) :
    Keeps w s₀ (loseRec s unit well n) := by
  unfold loseRec
  repeat' first
    | intro _
    | with_reducible assumption
    | with_reducible (first | apply Keeps.ite | apply bump_keeps)
    | with_reducible (first | fail_if_no_progress apply Keeps.obs m_obs)
    | split
    | dsimp only

theorem putRec_keeps {w : List Part} {s₀ : State} {s} {unit} {well} {r} (m_obs : Part.obs ∈ w) (m_regs : Part.regs ∈ w) (h : Keeps w s₀ s) :
    Keeps w s₀ (putRec s unit well r) := by
  unfold putRec
  repeat' first
    | intro _
    | with_reducible assumption
    | with_reducible (first | apply Keeps.ite | apply Keeps.foldl | apply Keeps.foldl_fst | apply Keeps.foldl_snd | apply loseRec_keeps)
    | with_reducible (first | fail_if_no_progress apply Keeps.obs m_obs)
    | split
    | dsimp only

theorem traceTo_keeps {w : List Part} {s₀ : State} {s} {tenant} {takes} {unit} {x5} {layer} {opid} {body} (m_obs : Part.obs ∈ w) (m_regs : Part.regs ∈ w) (h : Keeps w s₀ s) :
    Keeps w s₀ (traceTo s tenant takes unit x5 layer opid body) := by
  unfold traceTo
  repeat' first
    | intro _
    | with_reducible assumption
    | with_reducible (first | apply Keeps.ite | apply Keeps.foldl | apply Keeps.foldl_fst | apply Keeps.foldl_snd | apply putRec_keeps)
    | split
    | dsimp only

theorem traceMark_keeps {w : List Part} {s₀ : State} {s} {unit} {event} {v} (m_obs : Part.obs ∈ w) (m_regs : Part.regs ∈ w) (h : Keeps w s₀ s) :
    Keeps w s₀ (traceMark s unit event v) := by
  unfold traceMark
  repeat' first
    | intro _
    | with_reducible assumption
    | with_reducible (first | apply Keeps.ite | apply traceTo_keeps)
    | split
    | dsimp only

theorem drawTrc_keeps {w : List Part} {s₀ : State} {s} {tenant} (m_free : Part.free ∈ w) (h : Keeps w s₀ s) :
    Keeps w s₀ (drawTrc s tenant).2 := by
  unfold drawTrc
  repeat' first
    | intro _
    | with_reducible assumption
    | with_reducible (first | apply Keeps.ite_snd | apply Keeps.ite | apply Keeps.foldl | apply Keeps.foldl_fst | apply Keeps.foldl_snd | apply draw_keeps)
    | refine Keeps.of_snd (by with_reducible assumption) ?_
    | split
    | dsimp only

theorem watchMark_keeps {w : List Part} {s₀ : State} {s} {tile} {a} {n} {k} (m_obs : Part.obs ∈ w) (m_regs : Part.regs ∈ w) (h : Keeps w s₀ s) :
    Keeps w s₀ (watchMark s tile a n k) := by
  unfold watchMark
  repeat' first
    | intro _
    | with_reducible assumption
    | with_reducible (first | apply Keeps.ite | apply Keeps.foldl | apply Keeps.foldl_fst | apply Keeps.foldl_snd | apply setFld_keeps)
    | with_reducible (first | fail_if_no_progress apply Keeps.obs m_obs)
    | split
    | dsimp only

theorem sramNote_keeps {w : List Part} {s₀ : State} {s} {a} {n} (m_obs : Part.obs ∈ w) (m_regs : Part.regs ∈ w) (h : Keeps w s₀ s) :
    Keeps w s₀ (sramNote s a n) := by
  unfold sramNote
  repeat' first
    | intro _
    | with_reducible assumption
    | with_reducible (first | apply Keeps.ite | apply Keeps.foldl | apply Keeps.foldl_fst | apply Keeps.foldl_snd | apply watchMark_keeps)
    | split
    | dsimp only

theorem storeSeen_keeps {w : List Part} {s₀ : State} {s} {a} {bs} {psn} (m_mem : Part.mem ∈ w) (m_memPoison : Part.memPoison ∈ w) (m_obs : Part.obs ∈ w) (m_regs : Part.regs ∈ w) (h : Keeps w s₀ s) :
    Keeps w s₀ (storeSeen s a bs psn) := by
  unfold storeSeen
  repeat' first
    | intro _
    | with_reducible assumption
    | with_reducible (first | apply Keeps.ite | apply store_keeps | apply sramNote_keeps)
    | split
    | dsimp only

/-! ### Machine/Dynamic.lean -/

theorem putNet_keeps {w : List Part} {s₀ : State} {s} {p} (m_dyn : Part.dyn ∈ w) (m_regs : Part.regs ∈ w) (m_rel : Part.rel ∈ w) (h : Keeps w s₀ s) :
    Keeps w s₀ (putNet s p) := by
  unfold putNet
  repeat' first
    | intro _
    | with_reducible assumption
    | with_reducible (first | apply Keeps.ite | apply injFire_keeps)
    | with_reducible (first | fail_if_no_progress apply Keeps.dyn m_dyn)
    | split
    | dsimp only

theorem injFormat_keeps {w : List Part} {s₀ : State} {s} {p} (m_regs : Part.regs ∈ w) (m_rel : Part.rel ∈ w) (h : Keeps w s₀ s) :
    Keeps w s₀ (injFormat s p).2 := by
  unfold injFormat
  repeat' first
    | intro _
    | with_reducible assumption
    | with_reducible (first | apply Keeps.ite_snd | apply Keeps.ite | apply injFire_keeps)
    | split
    | dsimp only

theorem takeNet_keeps {w : List Part} {s₀ : State} {s} {p} (m_dyn : Part.dyn ∈ w) (h : Keeps w s₀ s) :
    Keeps w s₀ (takeNet s p) := by
  unfold takeNet
  repeat' first
    | intro _
    | with_reducible assumption
    | with_reducible (first | apply Keeps.ite)
    | with_reducible (first | fail_if_no_progress apply Keeps.dyn m_dyn)
    | split
    | dsimp only

theorem badHcrc_keeps {w : List Part} {s₀ : State} {s} {unit} {p} (m_dyn : Part.dyn ∈ w) (m_log : Part.log ∈ w) (m_rel : Part.rel ∈ w) (h : Keeps w s₀ s) :
    Keeps w s₀ (badHcrc s unit p) := by
  unfold badHcrc
  repeat' first
    | intro _
    | with_reducible assumption
    | with_reducible (first | apply Keeps.ite | apply log_keeps | apply takeNet_keeps)
    | split
    | dsimp only

theorem tracePkt_keeps {w : List Part} {s₀ : State} {s} {unit} {p} {point} {lp} (m_obs : Part.obs ∈ w) (m_regs : Part.regs ∈ w) (h : Keeps w s₀ s) :
    Keeps w s₀ (tracePkt s unit p point lp) := by
  unfold tracePkt
  repeat' first
    | intro _
    | with_reducible assumption
    | with_reducible (first | apply Keeps.ite | apply traceTo_keeps)
    | split
    | dsimp only

theorem enqueue_keeps {w : List Part} {s₀ : State} {s} {p} {why} {mc} (m_dyn : Part.dyn ∈ w) (h : Keeps w s₀ s) :
    Keeps w s₀ (enqueue s p why mc) := by
  unfold enqueue
  repeat' first
    | intro _
    | with_reducible assumption
    | with_reducible (first | apply Keeps.ite | apply Keeps.same_id)
    | with_reducible (first | fail_if_no_progress apply Keeps.dyn m_dyn)
    | split
    | dsimp only

theorem allotAdd_keeps {w : List Part} {s₀ : State} {s} {src} {dst} (m_dyn : Part.dyn ∈ w) (h : Keeps w s₀ s) :
    Keeps w s₀ (allotAdd s src dst) := by
  unfold allotAdd
  repeat' first
    | intro _
    | with_reducible assumption
    | with_reducible (first | apply Keeps.ite)
    | with_reducible (first | fail_if_no_progress apply Keeps.dyn m_dyn)
    | split
    | dsimp only

theorem allotBack_keeps {w : List Part} {s₀ : State} {s} {src} {dst} (m_dyn : Part.dyn ∈ w) (h : Keeps w s₀ s) :
    Keeps w s₀ (allotBack s src dst) := by
  unfold allotBack
  repeat' first
    | intro _
    | with_reducible assumption
    | with_reducible (first | apply Keeps.ite)
    | with_reducible (first | fail_if_no_progress apply Keeps.dyn m_dyn)
    | split
    | dsimp only

theorem entryPut_keeps {w : List Part} {s₀ : State} {s} {n} {p} (m_dyn : Part.dyn ∈ w) (h : Keeps w s₀ s) :
    Keeps w s₀ (entryPut s n p) := by
  unfold entryPut
  repeat' first
    | intro _
    | with_reducible assumption
    | with_reducible (first | apply Keeps.ite)
    | with_reducible (first | fail_if_no_progress apply Keeps.dyn m_dyn)
    | split
    | dsimp only

theorem freeOwed_keeps {w : List Part} {s₀ : State} {s} {n} {p} (m_lane : Part.lane ∈ w) (h : Keeps w s₀ s) :
    Keeps w s₀ (freeOwed s n p) := by
  unfold freeOwed
  repeat' first
    | intro _
    | with_reducible assumption
    | with_reducible (first | apply Keeps.ite)
    | with_reducible (first | fail_if_no_progress apply Keeps.lane m_lane)
    | split
    | dsimp only

theorem freeAsm_keeps {w : List Part} {s₀ : State} {s} {n} {a} (m_lane : Part.lane ∈ w) (h : Keeps w s₀ s) :
    Keeps w s₀ (freeAsm s n a) := by
  unfold freeAsm
  repeat' first
    | intro _
    | with_reducible assumption
    | with_reducible (first | apply Keeps.ite)
    | with_reducible (first | fail_if_no_progress apply Keeps.lane m_lane)
    | split
    | dsimp only

theorem entryNext_keeps {w : List Part} {s₀ : State} {s} (m_dyn : Part.dyn ∈ w) (m_lane : Part.lane ∈ w) (h : Keeps w s₀ s) :
    Keeps w s₀ (entryNext s) := by
  unfold entryNext
  repeat' first
    | intro _
    | with_reducible assumption
    | with_reducible (first | apply Keeps.ite | apply Keeps.foldl | apply Keeps.foldl_fst | apply Keeps.foldl_snd | apply entryPut_keeps | apply freeOwed_keeps | apply freeAsm_keeps)
    | with_reducible (first | fail_if_no_progress apply Keeps.dyn m_dyn)
    | split
    | dsimp only

theorem entryBack_keeps {w : List Part} {s₀ : State} {s} {p} (m_dyn : Part.dyn ∈ w) (m_lane : Part.lane ∈ w) (h : Keeps w s₀ s) :
    Keeps w s₀ (entryBack s p) := by
  unfold entryBack
  repeat' first
    | intro _
    | with_reducible assumption
    | with_reducible (first | apply Keeps.ite | apply entryNext_keeps)
    | with_reducible (first | fail_if_no_progress apply Keeps.dyn m_dyn)
    | split
    | dsimp only

theorem inject_keeps {w : List Part} {s₀ : State} {s} {p} (m_dyn : Part.dyn ∈ w) (m_free : Part.free ∈ w) (m_lane : Part.lane ∈ w) (m_obs : Part.obs ∈ w) (m_regs : Part.regs ∈ w) (m_rel : Part.rel ∈ w) (h : Keeps w s₀ s) :
    Keeps w s₀ (inject s p) := by
  unfold inject
  repeat' first
    | intro _
    | with_reducible assumption
    | with_reducible (first | apply Keeps.ite | apply matchOp_keeps | apply drawTrc_keeps | apply putNet_keeps | apply injFormat_keeps | apply tracePkt_keeps | apply entryBack_keeps)
    | refine Keeps.of_snd (by with_reducible assumption) ?_
    | split
    | dsimp only

theorem rspTo_keeps {w : List Part} {s₀ : State} {s} {p} {from_} {opc} {prio} {data} {psn} (m_dyn : Part.dyn ∈ w) (m_free : Part.free ∈ w) (m_lane : Part.lane ∈ w) (m_obs : Part.obs ∈ w) (m_regs : Part.regs ∈ w) (m_rel : Part.rel ∈ w) (h : Keeps w s₀ s) :
    Keeps w s₀ (rspTo s p from_ opc prio data psn) := by
  unfold rspTo
  repeat' first
    | intro _
    | with_reducible assumption
    | with_reducible (first | apply Keeps.ite | apply injFire_keeps | apply inject_keeps)
    | split
    | dsimp only

theorem ackTo_keeps {w : List Part} {s₀ : State} {s} {p} {st} (m_dyn : Part.dyn ∈ w) (m_free : Part.free ∈ w) (m_lane : Part.lane ∈ w) (m_obs : Part.obs ∈ w) (m_regs : Part.regs ∈ w) (m_rel : Part.rel ∈ w) (h : Keeps w s₀ s) :
    Keeps w s₀ (ackTo s p st) := by
  unfold ackTo
  repeat' first
    | intro _
    | with_reducible assumption
    | with_reducible (first | apply Keeps.ite | apply rspTo_keeps)
    | split
    | dsimp only

theorem errTo_keeps {w : List Part} {s₀ : State} {s} {p} {st} (m_dyn : Part.dyn ∈ w) (m_free : Part.free ∈ w) (m_lane : Part.lane ∈ w) (m_obs : Part.obs ∈ w) (m_regs : Part.regs ∈ w) (m_rel : Part.rel ∈ w) (h : Keeps w s₀ s) :
    Keeps w s₀ (errTo s p st) := by
  unfold errTo
  repeat' first
    | intro _
    | with_reducible assumption
    | with_reducible (first | apply Keeps.ite | apply rspTo_keeps)
    | split
    | dsimp only

theorem takeFree_keeps {w : List Part} {s₀ : State} {s} {e} {n} (m_regs : Part.regs ∈ w) (h : Keeps w s₀ s) :
    Keeps w s₀ (takeFree s e n) := by
  unfold takeFree
  repeat' first
    | intro _
    | with_reducible assumption
    | with_reducible (first | apply Keeps.ite | apply setFld_keeps)
    | split
    | dsimp only

theorem giveFree_keeps {w : List Part} {s₀ : State} {s} {e} {n} (m_regs : Part.regs ∈ w) (h : Keeps w s₀ s) :
    Keeps w s₀ (giveFree s e n) := by
  unfold giveFree
  repeat' first
    | intro _
    | with_reducible assumption
    | with_reducible (first | apply Keeps.ite | apply setFld_keeps)
    | split
    | dsimp only

theorem cisAdd_keeps {w : List Part} {s₀ : State} {s} {e} {f} {n} (m_regs : Part.regs ∈ w) (h : Keeps w s₀ s) :
    Keeps w s₀ (cisAdd s e f n) := by
  unfold cisAdd
  repeat' first
    | intro _
    | with_reducible assumption
    | with_reducible (first | apply Keeps.ite | apply setFld_keeps)
    | split
    | dsimp only

theorem cisSub_keeps {w : List Part} {s₀ : State} {s} {e} {f} {n} (m_regs : Part.regs ∈ w) (h : Keeps w s₀ s) :
    Keeps w s₀ (cisSub s e f n) := by
  unfold cisSub
  repeat' first
    | intro _
    | with_reducible assumption
    | with_reducible (first | apply Keeps.ite | apply setFld_keeps)
    | split
    | dsimp only

theorem reserve_keeps {w : List Part} {s₀ : State} {s} {r} {dst} {n} {mcop} (m_dyn : Part.dyn ∈ w) (h : Keeps w s₀ s) :
    Keeps w s₀ (reserve s r dst n mcop) := by
  unfold reserve
  repeat' first
    | intro _
    | with_reducible assumption
    | with_reducible (first | apply Keeps.ite | apply Keeps.same_id | apply enqueue_keeps)
    | with_reducible (first | fail_if_no_progress apply Keeps.dyn m_dyn)
    | split
    | dsimp only

theorem consumeGrant_keeps {w : List Part} {s₀ : State} {s} {v} {n} (m_dyn : Part.dyn ∈ w) (h : Keeps w s₀ s) :
    Keeps w s₀ (consumeGrant s v n) := by
  unfold consumeGrant
  repeat' first
    | intro _
    | with_reducible assumption
    | with_reducible (first | apply Keeps.ite)
    | with_reducible (first | fail_if_no_progress apply Keeps.dyn m_dyn)
    | split
    | dsimp only

theorem launch_keeps {w : List Part} {s₀ : State} {s} {r} {tag} (m_dyn : Part.dyn ∈ w) (m_free : Part.free ∈ w) (m_lane : Part.lane ∈ w) (m_obs : Part.obs ∈ w) (m_regs : Part.regs ∈ w) (m_rel : Part.rel ∈ w) (h : Keeps w s₀ s) :
    Keeps w s₀ (launch s r tag) := by
  unfold launch
  repeat' first
    | intro _
    | with_reducible assumption
    | with_reducible (first | apply Keeps.ite | apply Keeps.foldl | apply Keeps.foldl_fst | apply Keeps.foldl_snd | apply Keeps.same_id | apply allotAdd_keeps | apply inject_keeps)
    | with_reducible (first | fail_if_no_progress apply Keeps.dyn m_dyn)
    | split
    | dsimp only

theorem setAside_keeps {w : List Part} {s₀ : State} {x1} {x2} (m_dyn : Part.dyn ∈ w) (m_regs : Part.regs ∈ w) (h : Keeps w s₀ x1) :
    ∀ t, setAside x1 x2 = some t → Keeps w s₀ t := by
  intro t e
  unfold setAside at e
  dsimp only at e
  split at e
  · cases e; exact h
  · split at e
    · cases e
    · cases e; exact Keeps.dyn m_dyn (takeFree_keeps m_regs h)

theorem issueRsv_keeps {w : List Part} {s₀ : State} {s} {r} (m_dyn : Part.dyn ∈ w) (m_free : Part.free ∈ w) (m_lane : Part.lane ∈ w) (m_obs : Part.obs ∈ w) (m_regs : Part.regs ∈ w) (m_rel : Part.rel ∈ w) (h : Keeps w s₀ s) :
    Keeps w s₀ (issueRsv s r) := by
  unfold issueRsv
  repeat' first
    | intro _
    | with_reducible assumption
    | with_reducible (first | apply Keeps.ite | apply Keeps.same_id | apply allotAdd_keeps | apply inject_keeps)
    | with_reducible (first | fail_if_no_progress apply Keeps.dyn m_dyn)
    | split
    | dsimp only

theorem reserveAll_keeps {w : List Part} {s₀ : State} {s} {r} {mine} (m_dyn : Part.dyn ∈ w) (h : Keeps w s₀ s) :
    Keeps w s₀ (reserveAll s r mine) := by
  unfold reserveAll
  repeat' first
    | intro _
    | with_reducible assumption
    | with_reducible (first | apply Keeps.ite | apply Keeps.foldl | apply Keeps.foldl_fst | apply Keeps.foldl_snd | apply reserve_keeps)
    | with_reducible (first | fail_if_no_progress apply Keeps.dyn m_dyn)
    | split
    | dsimp only

theorem requestGo_keeps {w : List Part} {s₀ : State} {s} {r} (m_dyn : Part.dyn ∈ w) (m_free : Part.free ∈ w) (m_lane : Part.lane ∈ w) (m_obs : Part.obs ∈ w) (m_regs : Part.regs ∈ w) (m_rel : Part.rel ∈ w) (h : Keeps w s₀ s) :
    Keeps w s₀ (requestGo s r) := by
  unfold requestGo
  repeat' first
    | intro _
    | with_reducible assumption
    | with_reducible (first | apply Keeps.ite | apply Keeps.same_id | apply reserve_keeps | apply consumeGrant_keeps | apply launch_keeps | apply issueRsv_keeps | apply reserveAll_keeps)
    | with_reducible (first | fail_if_no_progress apply Keeps.dyn m_dyn)
    | split
    | dsimp only

theorem requestStep_keeps {w : List Part} {s₀ : State} {s} {r} (m_dyn : Part.dyn ∈ w) (m_free : Part.free ∈ w) (m_lane : Part.lane ∈ w) (m_obs : Part.obs ∈ w) (m_regs : Part.regs ∈ w) (m_rel : Part.rel ∈ w) (h : Keeps w s₀ s) :
    Keeps w s₀ (requestStep s r) := by
  unfold requestStep
  repeat' first
    | intro _
    | with_reducible assumption
    | with_reducible (first | apply Keeps.ite | apply requestGo_keeps)
    | refine setAside_keeps m_dyn m_regs ?_ _ (by assumption)
    | split
    | dsimp only

theorem dropWaiting_keeps {w : List Part} {s₀ : State} {s} {gone} (m_dyn : Part.dyn ∈ w) (m_regs : Part.regs ∈ w) (h : Keeps w s₀ s) :
    Keeps w s₀ (dropWaiting s gone) := by
  unfold dropWaiting
  repeat' first
    | intro _
    | with_reducible assumption
    | with_reducible (first | apply Keeps.ite | apply Keeps.foldl | apply Keeps.foldl_fst | apply Keeps.foldl_snd | apply giveFree_keeps)
    | with_reducible (first | fail_if_no_progress apply Keeps.dyn m_dyn)
    | split
    | dsimp only

theorem release_keeps {w : List Part} {s₀ : State} {s} {v} (m_dyn : Part.dyn ∈ w) (m_regs : Part.regs ∈ w) (h : Keeps w s₀ s) :
    Keeps w s₀ (release s v) := by
  unfold release
  repeat' first
    | intro _
    | with_reducible assumption
    | with_reducible (first | apply Keeps.ite | apply enqueue_keeps | apply dropWaiting_keeps)
    | with_reducible (first | fail_if_no_progress apply Keeps.dyn m_dyn)
    | split
    | dsimp only

theorem dropReq_keeps {w : List Part} {s₀ : State} {s} {id} (m_dyn : Part.dyn ∈ w) (m_regs : Part.regs ∈ w) (h : Keeps w s₀ s) :
    Keeps w s₀ (dropReq s id) := by
  unfold dropReq
  repeat' first
    | intro _
    | with_reducible assumption
    | with_reducible (first | apply Keeps.ite | apply Keeps.foldl | apply Keeps.foldl_fst | apply Keeps.foldl_snd | apply Keeps.same_id | apply dropWaiting_keeps | apply release_keeps)
    | split
    | dsimp only

theorem returnGrants_keeps {w : List Part} {s₀ : State} {s} {id} (m_dyn : Part.dyn ∈ w) (m_regs : Part.regs ∈ w) (h : Keeps w s₀ s) :
    Keeps w s₀ (returnGrants s id) := by
  unfold returnGrants
  repeat' first
    | intro _
    | with_reducible assumption
    | with_reducible (first | apply Keeps.ite | apply Keeps.foldl | apply Keeps.foldl_fst | apply Keeps.foldl_snd | apply Keeps.same_id | apply release_keeps)
    | split
    | dsimp only

theorem matchTxn_keeps {w : List Part} {s₀ : State} {x1} {x2} (m_dyn : Part.dyn ∈ w) (m_regs : Part.regs ∈ w) (h : Keeps w s₀ x1) :
    ∀ a b t, matchTxn x1 x2 = some (a, b, t) → Keeps w s₀ t := by
  intro a b t e
  unfold matchTxn at e
  split at e
  · cases e
  · dsimp only at e
    split at e
    · cases e; exact Keeps.dyn m_dyn h
    · cases e
      exact Keeps.ite (allotBack_keeps m_dyn (giveFree_keeps m_regs (Keeps.dyn m_dyn h))) (giveFree_keeps m_regs (Keeps.dyn m_dyn h))

theorem lateRsp_keeps {w : List Part} {s₀ : State} {s} {p} (m_dyn : Part.dyn ∈ w) (h : Keeps w s₀ s) :
    Keeps w s₀ (lateRsp s p) := by
  unfold lateRsp
  repeat' first
    | intro _
    | with_reducible assumption
    | with_reducible (first | apply Keeps.ite | apply allotBack_keeps)
    | with_reducible (first | fail_if_no_progress apply Keeps.dyn m_dyn)
    | split
    | dsimp only

theorem useGrant_keeps {w : List Part} {s₀ : State} {s} {p} (m_dyn : Part.dyn ∈ w) (m_regs : Part.regs ∈ w) (h : Keeps w s₀ s) :
    Keeps w s₀ (useGrant s p) := by
  unfold useGrant
  repeat' first
    | intro _
    | with_reducible assumption
    | with_reducible (first | apply Keeps.ite | apply giveFree_keeps | apply cisSub_keeps)
    | with_reducible (first | fail_if_no_progress apply Keeps.dyn m_dyn)
    | split
    | dsimp only

theorem grant_keeps {w : List Part} {s₀ : State} {s} {r} (m_dyn : Part.dyn ∈ w) (m_free : Part.free ∈ w) (m_lane : Part.lane ∈ w) (m_obs : Part.obs ∈ w) (m_regs : Part.regs ∈ w) (m_rel : Part.rel ∈ w) (h : Keeps w s₀ s) :
    Keeps w s₀ (grant s r) := by
  unfold grant
  repeat' first
    | intro _
    | with_reducible assumption
    | with_reducible (first | apply Keeps.ite | apply injFire_keeps | apply inject_keeps | apply takeFree_keeps | apply cisAdd_keeps | apply cisSub_keeps)
    | with_reducible (first | fail_if_no_progress apply Keeps.dyn m_dyn)
    | split
    | dsimp only

theorem arrive_keeps {w : List Part} {s₀ : State} {s} {p} {k} (m_dyn : Part.dyn ∈ w) (m_free : Part.free ∈ w) (m_host : Part.host ∈ w) (m_lane : Part.lane ∈ w) (m_log : Part.log ∈ w) (m_obs : Part.obs ∈ w) (m_regs : Part.regs ∈ w) (m_rel : Part.rel ∈ w) (m_rpt : Part.rpt ∈ w) (k3 : ∀ u, Keeps w s₀ u → Keeps w s₀ (k u)) (h : Keeps w s₀ s) :
    Keeps w s₀ (arrive s p k) := by
  unfold arrive
  repeat' first
    | intro _
    | with_reducible assumption
    | with_reducible (first | apply Keeps.ite | apply k3 | apply injFire_keeps | apply log_keeps | apply violation_keeps | apply takeNet_keeps | apply badHcrc_keeps | apply tracePkt_keeps | apply errTo_keeps | apply useGrant_keeps)
    | split
    | dsimp only

theorem latchWeights_keeps {w : List Part} {s₀ : State} {s} {tile} {out} (m_dyn : Part.dyn ∈ w) (h : Keeps w s₀ s) :
    Keeps w s₀ (latchWeights s tile out) := by
  unfold latchWeights
  repeat' first
    | intro _
    | with_reducible assumption
    | with_reducible (first | apply Keeps.ite)
    | with_reducible (first | fail_if_no_progress apply Keeps.dyn m_dyn)
    | split
    | dsimp only

theorem sendFlit_keeps {w : List Part} {s₀ : State} {s} {f} {out} (m_dyn : Part.dyn ∈ w) (m_regs : Part.regs ∈ w) (h : Keeps w s₀ s) :
    Keeps w s₀ (sendFlit s f out) := by
  unfold sendFlit
  repeat' first
    | intro _
    | with_reducible assumption
    | with_reducible (first | apply Keeps.ite | apply bump_keeps | apply latchWeights_keeps)
    | with_reducible (first | fail_if_no_progress apply Keeps.dyn m_dyn)
    | split
    | dsimp only

theorem outputStep_keeps {w : List Part} {s₀ : State} {s} {tile} {out} (m_dyn : Part.dyn ∈ w) (m_regs : Part.regs ∈ w) (h : Keeps w s₀ s) :
    Keeps w s₀ (outputStep s tile out) := by
  unfold outputStep
  repeat' first
    | intro _
    | with_reducible assumption
    | with_reducible (first | apply Keeps.ite | apply Keeps.foldl | apply Keeps.foldl_fst | apply Keeps.foldl_snd | apply latchWeights_keeps | apply sendFlit_keeps)
    | with_reducible (first | fail_if_no_progress apply Keeps.dyn m_dyn)
    | split
    | dsimp only

theorem routersStep_keeps {w : List Part} {s₀ : State} {s} (m_dyn : Part.dyn ∈ w) (m_regs : Part.regs ∈ w) (h : Keeps w s₀ s) :
    Keeps w s₀ (routersStep s) := by
  unfold routersStep
  repeat' first
    | intro _
    | with_reducible assumption
    | with_reducible (first | apply Keeps.ite | apply Keeps.foldl | apply Keeps.foldl_fst | apply Keeps.foldl_snd | apply outputStep_keeps)
    | split
    | dsimp only

theorem bounce_keeps {w : List Part} {s₀ : State} {s} {p} {st} (m_dyn : Part.dyn ∈ w) (m_free : Part.free ∈ w) (m_lane : Part.lane ∈ w) (m_obs : Part.obs ∈ w) (m_regs : Part.regs ∈ w) (m_rel : Part.rel ∈ w) (h : Keeps w s₀ s) :
    Keeps w s₀ (bounce s p st) := by
  unfold bounce
  repeat' first
    | intro _
    | with_reducible assumption
    | with_reducible (first | apply Keeps.ite | apply errTo_keeps)
    | split
    | dsimp only

end Sys2Proof.Machine
end

