-- ==== Sys2Proof/Laws/FrameCommands.lean ====
section
/-!
SUPPORT. What each operation of Machine/Commands.lean, Machine/Endpoint.lean, Machine/Standpipe.lean can touch: one lemma an operation,
that composes with the lemmas of its callers.
-/
namespace Sys2Proof.Machine

set_option linter.unusedTactic false
set_option linter.unreachableTactic false

/-! ### Machine/Commands.lean -/

theorem setRing_keeps {w : List Part} {s₀ : State} {s} {fn} {r} {x} (m_host : Part.host ∈ w) (h : Keeps w s₀ s) :
    Keeps w s₀ (setRing s fn r x) := by
  unfold setRing
  repeat' first
    | intro _
    | with_reducible assumption
    | with_reducible (first | apply Keeps.ite)
    | with_reducible (first | fail_if_no_progress apply Keeps.host m_host)
    | split
    | dsimp only

theorem setCq_keeps {w : List Part} {s₀ : State} {s} {fn} {q} {x} (m_host : Part.host ∈ w) (h : Keeps w s₀ s) :
    Keeps w s₀ (setCq s fn q x) := by
  unfold setCq
  repeat' first
    | intro _
    | with_reducible assumption
    | with_reducible (first | apply Keeps.ite)
    | with_reducible (first | fail_if_no_progress apply Keeps.host m_host)
    | split
    | dsimp only

theorem setFnState_keeps {w : List Part} {s₀ : State} {s} {fn} {v} (m_regs : Part.regs ∈ w) (h : Keeps w s₀ s) :
    Keeps w s₀ (setFnState s fn v) := by
  unfold setFnState
  repeat' first
    | intro _
    | with_reducible assumption
    | with_reducible (first | apply Keeps.ite | apply setFld_keeps)
    | split
    | dsimp only

theorem hpCount_keeps {w : List Part} {s₀ : State} {s} {fn} {ex} {ctr} {n} (m_dyn : Part.dyn ∈ w) (h : Keeps w s₀ s) :
    Keeps w s₀ (hpCount s fn ex ctr n) := by
  unfold hpCount
  repeat' first
    | intro _
    | with_reducible assumption
    | with_reducible (first | apply Keeps.ite | apply enqueue_keeps)
    | with_reducible (first | fail_if_no_progress apply Keeps.dyn m_dyn)
    | split
    | dsimp only

theorem writeRecord_keeps {w : List Part} {s₀ : State} {s} {fn} {r} {c} {irq} (m_host : Part.host ∈ w) (h : Keeps w s₀ s) :
    Keeps w s₀ (writeRecord s fn r c irq) := by
  unfold writeRecord
  repeat' first
    | intro _
    | with_reducible assumption
    | with_reducible (first | apply Keeps.ite | apply signal_keeps | apply setCq_keeps)
    | with_reducible (first | fail_if_no_progress apply Keeps.host m_host)
    | split
    | dsimp only

theorem ringFail_keeps {w : List Part} {s₀ : State} {s} {fn} {r} {st} (m_host : Part.host ∈ w) (m_regs : Part.regs ∈ w) (h : Keeps w s₀ s) :
    Keeps w s₀ (ringFail s fn r st) := by
  unfold ringFail
  repeat' first
    | intro _
    | with_reducible assumption
    | with_reducible (first | apply Keeps.ite | apply Keeps.same_id | apply setFld_keeps | apply setRing_keeps | apply writeRecord_keeps)
    | split
    | dsimp only

theorem ringDead_keeps {w : List Part} {s₀ : State} {s} {fn} {r} (m_log : Part.log ∈ w) (m_regs : Part.regs ∈ w) (m_rel : Part.rel ∈ w) (h : Keeps w s₀ s) :
    Keeps w s₀ (ringDead s fn r) := by
  unfold ringDead
  repeat' first
    | intro _
    | with_reducible assumption
    | with_reducible (first | apply Keeps.ite | apply setFld_keeps | apply log_keeps)
    | split
    | dsimp only

theorem takeDesc_keeps {w : List Part} {s₀ : State} {s} {fn} {r} {d} {inl} {psn} (m_host : Part.host ∈ w) (m_regs : Part.regs ∈ w) (h : Keeps w s₀ s) :
    Keeps w s₀ (takeDesc s fn r d inl psn) := by
  unfold takeDesc
  repeat' first
    | intro _
    | with_reducible assumption
    | with_reducible (first | apply Keeps.ite | apply setFld_keeps | apply setRing_keeps)
    | split
    | dsimp only

theorem judgeFetch_keeps {w : List Part} {s₀ : State} {s} {fn} {r} {x4} (m_host : Part.host ∈ w) (m_log : Part.log ∈ w) (m_regs : Part.regs ∈ w) (m_rel : Part.rel ∈ w) (h : Keeps w s₀ s) :
    Keeps w s₀ (judgeFetch s fn r x4) := by
  unfold judgeFetch
  repeat' first
    | intro _
    | with_reducible assumption
    | with_reducible (first | apply Keeps.ite | apply injFire_keeps | apply setRing_keeps | apply ringFail_keeps | apply ringDead_keeps | apply takeDesc_keeps)
    | split
    | dsimp only

theorem fetchDesc_keeps {w : List Part} {s₀ : State} {s} {fn} {r} {x4} (m_host : Part.host ∈ w) (m_log : Part.log ∈ w) (m_regs : Part.regs ∈ w) (m_rel : Part.rel ∈ w) (h : Keeps w s₀ s) :
    Keeps w s₀ (fetchDesc s fn r x4) := by
  unfold fetchDesc
  repeat' first
    | intro _
    | with_reducible assumption
    | with_reducible (first | apply Keeps.ite | apply judgeFetch_keeps)
    | with_reducible (first | fail_if_no_progress apply Keeps.host m_host)
    | split
    | dsimp only

theorem takeOffer_keeps {w : List Part} {s₀ : State} {s} {x2} (m_host : Part.host ∈ w) (m_trig : Part.trig ∈ w) (h : Keeps w s₀ s) :
    Keeps w s₀ (takeOffer s x2) := by
  unfold takeOffer
  repeat' first
    | intro _
    | with_reducible assumption
    | with_reducible (first | apply Keeps.ite | apply setRing_keeps | apply setCq_keeps)
    | with_reducible (first | fail_if_no_progress apply Keeps.host m_host | fail_if_no_progress apply Keeps.trig m_trig)
    | split
    | dsimp only

theorem holdCore_keeps {w : List Part} {s₀ : State} {s} {x2} (m_host : Part.host ∈ w) (h : Keeps w s₀ s) :
    Keeps w s₀ (holdCore s x2) := by
  unfold holdCore
  repeat' first
    | intro _
    | with_reducible assumption
    | with_reducible (first | apply Keeps.ite)
    | with_reducible (first | fail_if_no_progress apply Keeps.host m_host)
    | split
    | dsimp only

theorem traceCmd_keeps {w : List Part} {s₀ : State} {s} {c} {done} (m_obs : Part.obs ∈ w) (m_regs : Part.regs ∈ w) (h : Keeps w s₀ s) :
    Keeps w s₀ (traceCmd s c done) := by
  unfold traceCmd
  repeat' first
    | intro _
    | with_reducible assumption
    | with_reducible (first | apply Keeps.ite | apply traceTo_keeps)
    | split
    | dsimp only

theorem addCmd_keeps {w : List Part} {s₀ : State} {s} {c} (m_host : Part.host ∈ w) (m_obs : Part.obs ∈ w) (m_regs : Part.regs ∈ w) (h : Keeps w s₀ s) :
    Keeps w s₀ (addCmd s c) := by
  unfold addCmd
  repeat' first
    | intro _
    | with_reducible assumption
    | with_reducible (first | apply Keeps.ite | apply traceCmd_keeps)
    | with_reducible (first | fail_if_no_progress apply Keeps.host m_host)
    | split
    | dsimp only

theorem updCmd_keeps {w : List Part} {s₀ : State} {s} {id} {f} (m_host : Part.host ∈ w) (h : Keeps w s₀ s) :
    Keeps w s₀ (updCmd s id f) := by
  unfold updCmd
  repeat' first
    | intro _
    | with_reducible assumption
    | with_reducible (first | apply Keeps.ite | apply Keeps.same_id)
    | with_reducible (first | fail_if_no_progress apply Keeps.host m_host)
    | split
    | dsimp only

theorem endAt_keeps {w : List Part} {s₀ : State} {s} {c} {st} (m_host : Part.host ∈ w) (m_obs : Part.obs ∈ w) (m_regs : Part.regs ∈ w) (h : Keeps w s₀ s) :
    Keeps w s₀ (endAt s c st) := by
  unfold endAt
  repeat' first
    | intro _
    | with_reducible assumption
    | with_reducible (first | apply Keeps.ite | apply addCmd_keeps)
    | split
    | dsimp only

theorem startCmd_keeps {w : List Part} {s₀ : State} {s} {src} {kind} {k} (m_host : Part.host ∈ w) (m_obs : Part.obs ∈ w) (m_regs : Part.regs ∈ w) (m_trig : Part.trig ∈ w) (k4 : ∀ u y1, Keeps w s₀ u → Keeps w s₀ (k u y1)) (h : Keeps w s₀ s) :
    Keeps w s₀ (startCmd s src kind k) := by
  unfold startCmd
  repeat' first
    | intro _
    | with_reducible assumption
    | with_reducible (first | apply Keeps.ite | apply k4 | apply takeOffer_keeps | apply holdCore_keeps | apply endAt_keeps)
    | split
    | dsimp only

theorem runCopy_keeps {w : List Part} {s₀ : State} {s} {c} (m_dyn : Part.dyn ∈ w) (m_host : Part.host ∈ w) (m_obs : Part.obs ∈ w) (m_regs : Part.regs ∈ w) (h : Keeps w s₀ s) :
    Keeps w s₀ (runCopy s c) := by
  unfold runCopy
  repeat' first
    | intro _
    | with_reducible assumption
    | with_reducible (first | apply Keeps.ite | apply Keeps.foldl | apply Keeps.foldl_fst | apply Keeps.foldl_snd | apply Keeps.same_id | apply enqueue_keeps | apply addCmd_keeps)
    | split
    | dsimp only

theorem runWriteInline_keeps {w : List Part} {s₀ : State} {s} {c} (m_dyn : Part.dyn ∈ w) (m_host : Part.host ∈ w) (m_obs : Part.obs ∈ w) (m_regs : Part.regs ∈ w) (h : Keeps w s₀ s) :
    Keeps w s₀ (runWriteInline s c) := by
  unfold runWriteInline
  repeat' first
    | intro _
    | with_reducible assumption
    | with_reducible (first | apply Keeps.ite | apply Keeps.foldl | apply Keeps.foldl_fst | apply Keeps.foldl_snd | apply Keeps.same_id | apply enqueue_keeps | apply addCmd_keeps)
    | split
    | dsimp only

theorem runAtomic_keeps {w : List Part} {s₀ : State} {s} {c} (m_dyn : Part.dyn ∈ w) (m_host : Part.host ∈ w) (m_obs : Part.obs ∈ w) (m_regs : Part.regs ∈ w) (h : Keeps w s₀ s) :
    Keeps w s₀ (runAtomic s c) := by
  unfold runAtomic
  repeat' first
    | intro _
    | with_reducible assumption
    | with_reducible (first | apply Keeps.ite | apply Keeps.same_id | apply enqueue_keeps | apply addCmd_keeps)
    | split
    | dsimp only

theorem gatherReads_keeps {w : List Part} {s₀ : State} {s} {c} {chip} {a} {n} (m_dyn : Part.dyn ∈ w) (h : Keeps w s₀ s) :
    Keeps w s₀ (gatherReads s c chip a n) := by
  unfold gatherReads
  repeat' first
    | intro _
    | with_reducible assumption
    | with_reducible (first | apply Keeps.ite | apply Keeps.foldl | apply Keeps.foldl_fst | apply Keeps.foldl_snd | apply Keeps.same_id | apply enqueue_keeps)
    | split
    | dsimp only

theorem runMcast_keeps {w : List Part} {s₀ : State} {s} {c} (m_dyn : Part.dyn ∈ w) (m_host : Part.host ∈ w) (m_obs : Part.obs ∈ w) (m_regs : Part.regs ∈ w) (h : Keeps w s₀ s) :
    Keeps w s₀ (runMcast s c) := by
  unfold runMcast
  repeat' first
    | intro _
    | with_reducible assumption
    | with_reducible (first | apply Keeps.ite | apply addCmd_keeps | apply gatherReads_keeps)
    | split
    | dsimp only

theorem runContrib_keeps {w : List Part} {s₀ : State} {s} {c} (m_dyn : Part.dyn ∈ w) (m_host : Part.host ∈ w) (m_obs : Part.obs ∈ w) (m_regs : Part.regs ∈ w) (h : Keeps w s₀ s) :
    Keeps w s₀ (runContrib s c) := by
  unfold runContrib
  repeat' first
    | intro _
    | with_reducible assumption
    | with_reducible (first | apply Keeps.ite | apply addCmd_keeps | apply gatherReads_keeps)
    | split
    | dsimp only

theorem runCtrAdd_keeps {w : List Part} {s₀ : State} {s} {c} (m_dyn : Part.dyn ∈ w) (m_host : Part.host ∈ w) (m_obs : Part.obs ∈ w) (m_regs : Part.regs ∈ w) (h : Keeps w s₀ s) :
    Keeps w s₀ (runCtrAdd s c) := by
  unfold runCtrAdd
  repeat' first
    | intro _
    | with_reducible assumption
    | with_reducible (first | apply Keeps.ite | apply Keeps.same_id | apply enqueue_keeps | apply addCmd_keeps)
    | split
    | dsimp only

theorem sendMcast_keeps {w : List Part} {s₀ : State} {s} {c} {data} {psn} (m_dyn : Part.dyn ∈ w) (h : Keeps w s₀ s) :
    Keeps w s₀ (sendMcast s c data psn) := by
  unfold sendMcast
  repeat' first
    | intro _
    | with_reducible assumption
    | with_reducible (first | apply Keeps.ite | apply Keeps.same_id | apply enqueue_keeps)
    | split
    | dsimp only

theorem noteDigest_keeps {w : List Part} {s₀ : State} {s} {tile} {gidx} {key} {ps} (m_coll : Part.coll ∈ w) (h : Keeps w s₀ s) :
    Keeps w s₀ (noteDigest s tile gidx key ps) := by
  unfold noteDigest
  repeat' first
    | intro _
    | with_reducible assumption
    | with_reducible (first | apply Keeps.ite | apply Keeps.foldl | apply Keeps.foldl_fst | apply Keeps.foldl_snd)
    | with_reducible (first | fail_if_no_progress apply Keeps.coll m_coll)
    | split
    | dsimp only

theorem unitFmt_keeps {w : List Part} {s₀ : State} {s} {e} {ev} (m_regs : Part.regs ∈ w) (h : Keeps w s₀ s) :
    Keeps w s₀ (unitFmt s e ev) := by
  unfold unitFmt
  repeat' first
    | intro _
    | with_reducible assumption
    | with_reducible (first | apply Keeps.ite | apply tniFmt_keeps)
    | split
    | dsimp only

theorem sendContrib_keeps {w : List Part} {s₀ : State} {s} {c} {data} (m_coll : Part.coll ∈ w) (m_dyn : Part.dyn ∈ w) (m_host : Part.host ∈ w) (m_regs : Part.regs ∈ w) (h : Keeps w s₀ s) :
    Keeps w s₀ (sendContrib s c data) := by
  unfold sendContrib
  repeat' first
    | intro _
    | with_reducible assumption
    | with_reducible (first | apply Keeps.ite | apply Keeps.foldl | apply Keeps.foldl_fst | apply Keeps.foldl_snd | apply Keeps.same_id | apply enqueue_keeps | apply updCmd_keeps | apply noteDigest_keeps | apply unitFmt_keeps)
    | split
    | dsimp only

theorem gathered_keeps {w : List Part} {s₀ : State} {s} {id} {off} {bs} {psn} (m_coll : Part.coll ∈ w) (m_dyn : Part.dyn ∈ w) (m_host : Part.host ∈ w) (m_regs : Part.regs ∈ w) (h : Keeps w s₀ s) :
    Keeps w s₀ (gathered s id off bs psn) := by
  unfold gathered
  repeat' first
    | intro _
    | with_reducible assumption
    | with_reducible (first | apply Keeps.ite | apply Keeps.foldl | apply Keeps.foldl_fst | apply Keeps.foldl_snd | apply Keeps.same_id | apply updCmd_keeps | apply sendMcast_keeps | apply sendContrib_keeps)
    | split
    | dsimp only

theorem pieceDone_keeps {w : List Part} {s₀ : State} {s} {id} {n} {st} (m_host : Part.host ∈ w) (h : Keeps w s₀ s) :
    Keeps w s₀ (pieceDone s id n st) := by
  unfold pieceDone
  repeat' first
    | intro _
    | with_reducible assumption
    | with_reducible (first | apply Keeps.ite | apply Keeps.same_id | apply updCmd_keeps)
    | split
    | dsimp only

theorem stopCmd_keeps {w : List Part} {s₀ : State} {s} {id} {st} (m_dyn : Part.dyn ∈ w) (m_host : Part.host ∈ w) (m_regs : Part.regs ∈ w) (h : Keeps w s₀ s) :
    Keeps w s₀ (stopCmd s id st) := by
  unfold stopCmd
  repeat' first
    | intro _
    | with_reducible assumption
    | with_reducible (first | apply Keeps.ite | apply Keeps.foldl | apply Keeps.foldl_fst | apply Keeps.foldl_snd | apply Keeps.same_id | apply dropReq_keeps | apply updCmd_keeps)
    | split
    | dsimp only

theorem markSource_keeps {w : List Part} {s₀ : State} {s} {c} (m_log : Part.log ∈ w) (m_regs : Part.regs ∈ w) (m_rel : Part.rel ∈ w) (h : Keeps w s₀ s) :
    Keeps w s₀ (markSource s c) := by
  unfold markSource
  repeat' first
    | intro _
    | with_reducible assumption
    | with_reducible (first | apply Keeps.ite | apply raise_keeps | apply log_keeps | apply ringDead_keeps)
    | split
    | dsimp only

theorem flrEnd_keeps {w : List Part} {s₀ : State} {s} {fn} (m_host : Part.host ∈ w) (m_regs : Part.regs ∈ w) (h : Keeps w s₀ s) :
    Keeps w s₀ (flrEnd s fn) := by
  unfold flrEnd
  repeat' first
    | intro _
    | with_reducible assumption
    | with_reducible (first | apply Keeps.ite | apply setFnState_keeps)
    | with_reducible (first | fail_if_no_progress apply Keeps.host m_host)
    | split
    | dsimp only

theorem finishCmd_keeps {w : List Part} {s₀ : State} {s} {c} (m_dyn : Part.dyn ∈ w) (m_host : Part.host ∈ w) (m_log : Part.log ∈ w) (m_obs : Part.obs ∈ w) (m_regs : Part.regs ∈ w) (m_rel : Part.rel ∈ w) (m_trig : Part.trig ∈ w) (h : Keeps w s₀ s) :
    Keeps w s₀ (finishCmd s c) := by
  unfold finishCmd
  repeat' first
    | intro _
    | with_reducible assumption
    | with_reducible (first | apply Keeps.ite | apply Keeps.same_id | apply addDone_keeps | apply returnGrants_keeps | apply setCq_keeps | apply writeRecord_keeps | apply traceCmd_keeps | apply markSource_keeps | apply flrEnd_keeps)
    | with_reducible (first | fail_if_no_progress apply Keeps.host m_host)
    | split
    | dsimp only

/-! ### Machine/Endpoint.lean -/

theorem malCount_keeps {w : List Part} {s₀ : State} {s} {p} (m_log : Part.log ∈ w) (m_regs : Part.regs ∈ w) (m_rel : Part.rel ∈ w) (h : Keeps w s₀ s) :
    Keeps w s₀ (malCount s p) := by
  unfold malCount
  repeat' first
    | intro _
    | with_reducible assumption
    | with_reducible (first | apply Keeps.ite | apply log_keeps | apply tniFmt_keeps | apply ruFmt_keeps)
    | split
    | dsimp only

theorem malPlain_keeps {w : List Part} {s₀ : State} {s} {p} (m_dyn : Part.dyn ∈ w) (m_free : Part.free ∈ w) (m_lane : Part.lane ∈ w) (m_log : Part.log ∈ w) (m_obs : Part.obs ∈ w) (m_regs : Part.regs ∈ w) (m_rel : Part.rel ∈ w) (h : Keeps w s₀ s) :
    Keeps w s₀ (malPlain s p) := by
  unfold malPlain
  repeat' first
    | intro _
    | with_reducible assumption
    | with_reducible (first | apply Keeps.ite | apply errTo_keeps | apply malCount_keeps)
    | split
    | dsimp only

theorem memAccess_keeps {w : List Part} {s₀ : State} {s} {p} {k} (m_boot : Part.boot ∈ w) (m_dyn : Part.dyn ∈ w) (m_free : Part.free ∈ w) (m_host : Part.host ∈ w) (m_lane : Part.lane ∈ w) (m_log : Part.log ∈ w) (m_obs : Part.obs ∈ w) (m_regs : Part.regs ∈ w) (m_rel : Part.rel ∈ w) (m_rpt : Part.rpt ∈ w) (k3 : ∀ u, Keeps w s₀ u → Keeps w s₀ (k u)) (h : Keeps w s₀ s) :
    Keeps w s₀ (memAccess s p k) := by
  unfold memAccess
  repeat' first
    | intro _
    | with_reducible assumption
    | with_reducible (first | apply Keeps.ite | apply k3 | apply log_keeps | apply violation_keeps | apply errTo_keeps | apply malPlain_keeps)
    | with_reducible (first | fail_if_no_progress apply Keeps.boot m_boot)
    | split
    | dsimp only

theorem utilIn_keeps {w : List Part} {s₀ : State} {s} {p} {n} (m_regs : Part.regs ∈ w) (h : Keeps w s₀ s) :
    Keeps w s₀ (utilIn s p n) := by
  unfold utilIn
  repeat' first
    | intro _
    | with_reducible assumption
    | with_reducible (first | apply Keeps.ite | apply tutilIn_keeps)
    | split
    | dsimp only

theorem utilOut_keeps {w : List Part} {s₀ : State} {s} {p} {n} (m_regs : Part.regs ∈ w) (h : Keeps w s₀ s) :
    Keeps w s₀ (utilOut s p n) := by
  unfold utilOut
  repeat' first
    | intro _
    | with_reducible assumption
    | with_reducible (first | apply Keeps.ite | apply tutilOut_keeps)
    | split
    | dsimp only

theorem readRsp_keeps {w : List Part} {s₀ : State} {s} {p} {bs} {psn} (m_dyn : Part.dyn ∈ w) (m_free : Part.free ∈ w) (m_lane : Part.lane ∈ w) (m_obs : Part.obs ∈ w) (m_regs : Part.regs ∈ w) (m_rel : Part.rel ∈ w) (h : Keeps w s₀ s) :
    Keeps w s₀ (readRsp s p bs psn) := by
  unfold readRsp
  repeat' first
    | intro _
    | with_reducible assumption
    | with_reducible (first | apply Keeps.ite | apply rspTo_keeps)
    | split
    | dsimp only

theorem doRead_keeps {w : List Part} {s₀ : State} {s} {p} {x3} (m_dyn : Part.dyn ∈ w) (m_free : Part.free ∈ w) (m_lane : Part.lane ∈ w) (m_obs : Part.obs ∈ w) (m_regs : Part.regs ∈ w) (m_rel : Part.rel ∈ w) (h : Keeps w s₀ s) :
    Keeps w s₀ (doRead s p x3) := by
  unfold doRead
  repeat' first
    | intro _
    | with_reducible assumption
    | with_reducible (first | apply Keeps.ite | apply injFire_keeps | apply errTo_keeps | apply utilIn_keeps | apply utilOut_keeps | apply readRsp_keeps)
    | split
    | dsimp only

theorem doWrite_keeps {w : List Part} {s₀ : State} {s} {p} (m_dyn : Part.dyn ∈ w) (m_free : Part.free ∈ w) (m_host : Part.host ∈ w) (m_lane : Part.lane ∈ w) (m_mem : Part.mem ∈ w) (m_memPoison : Part.memPoison ∈ w) (m_obs : Part.obs ∈ w) (m_regs : Part.regs ∈ w) (m_rel : Part.rel ∈ w) (h : Keeps w s₀ s) :
    Keeps w s₀ (doWrite s p) := by
  unfold doWrite
  repeat' first
    | intro _
    | with_reducible assumption
    | with_reducible (first | apply Keeps.ite | apply storeSeen_keeps | apply rspTo_keeps | apply utilIn_keeps | apply utilOut_keeps)
    | with_reducible (first | fail_if_no_progress apply Keeps.host m_host)
    | split
    | dsimp only

theorem doAtomic_keeps {w : List Part} {s₀ : State} {s} {p} {n} {f} (m_dyn : Part.dyn ∈ w) (m_free : Part.free ∈ w) (m_lane : Part.lane ∈ w) (m_mem : Part.mem ∈ w) (m_memPoison : Part.memPoison ∈ w) (m_obs : Part.obs ∈ w) (m_regs : Part.regs ∈ w) (m_rel : Part.rel ∈ w) (h : Keeps w s₀ s) :
    Keeps w s₀ (doAtomic s p n f) := by
  unfold doAtomic
  repeat' first
    | intro _
    | with_reducible assumption
    | with_reducible (first | apply Keeps.ite | apply storeSeen_keeps | apply rspTo_keeps | apply utilIn_keeps | apply utilOut_keeps)
    | split
    | dsimp only

theorem memRequest_keeps {w : List Part} {s₀ : State} {s} {p} (m_boot : Part.boot ∈ w) (m_dyn : Part.dyn ∈ w) (m_free : Part.free ∈ w) (m_host : Part.host ∈ w) (m_lane : Part.lane ∈ w) (m_log : Part.log ∈ w) (m_mem : Part.mem ∈ w) (m_memPoison : Part.memPoison ∈ w) (m_obs : Part.obs ∈ w) (m_regs : Part.regs ∈ w) (m_rel : Part.rel ∈ w) (m_rpt : Part.rpt ∈ w) (h : Keeps w s₀ s) :
    Keeps w s₀ (memRequest s p) := by
  unfold memRequest
  repeat' first
    | intro _
    | with_reducible assumption
    | with_reducible (first | apply Keeps.ite | apply memAccess_keeps | apply doRead_keeps | apply doWrite_keeps | apply doAtomic_keeps)
    | split
    | dsimp only

theorem execRdReq_keeps {w : List Part} {s₀ : State} {p} {x2} {s} (m_boot : Part.boot ∈ w) (m_dyn : Part.dyn ∈ w) (m_free : Part.free ∈ w) (m_host : Part.host ∈ w) (m_lane : Part.lane ∈ w) (m_log : Part.log ∈ w) (m_obs : Part.obs ∈ w) (m_regs : Part.regs ∈ w) (m_rel : Part.rel ∈ w) (m_rpt : Part.rpt ∈ w) (h : Keeps w s₀ s) :
    ∃ t, execRdReq p x2 s = .next t ∧ Keeps w s₀ t := by
  refine ⟨_, rfl, ?_⟩
  repeat' first
    | intro _
    | with_reducible assumption
    | with_reducible (first | apply Keeps.ite | apply arrive_keeps | apply memAccess_keeps | apply doRead_keeps)
    | split
    | dsimp only

theorem execWr_keeps {w : List Part} {s₀ : State} {p} {s} (m_boot : Part.boot ∈ w) (m_dyn : Part.dyn ∈ w) (m_free : Part.free ∈ w) (m_host : Part.host ∈ w) (m_lane : Part.lane ∈ w) (m_log : Part.log ∈ w) (m_mem : Part.mem ∈ w) (m_memPoison : Part.memPoison ∈ w) (m_obs : Part.obs ∈ w) (m_regs : Part.regs ∈ w) (m_rel : Part.rel ∈ w) (m_rpt : Part.rpt ∈ w) (h : Keeps w s₀ s) :
    ∃ t, execWr p s = .next t ∧ Keeps w s₀ t := by
  refine ⟨_, rfl, ?_⟩
  repeat' first
    | intro _
    | with_reducible assumption
    | with_reducible (first | apply Keeps.ite | apply arrive_keeps | apply memAccess_keeps | apply doWrite_keeps)
    | split
    | dsimp only

theorem execAtFadd_keeps {w : List Part} {s₀ : State} {p} {s} (m_boot : Part.boot ∈ w) (m_dyn : Part.dyn ∈ w) (m_free : Part.free ∈ w) (m_host : Part.host ∈ w) (m_lane : Part.lane ∈ w) (m_log : Part.log ∈ w) (m_mem : Part.mem ∈ w) (m_memPoison : Part.memPoison ∈ w) (m_obs : Part.obs ∈ w) (m_regs : Part.regs ∈ w) (m_rel : Part.rel ∈ w) (m_rpt : Part.rpt ∈ w) (h : Keeps w s₀ s) :
    ∃ t, execAtFadd p s = .next t ∧ Keeps w s₀ t := by
  refine ⟨_, rfl, ?_⟩
  repeat' first
    | intro _
    | with_reducible assumption
    | with_reducible (first | apply Keeps.ite | apply arrive_keeps | apply memAccess_keeps | apply doAtomic_keeps)
    | split
    | dsimp only

theorem execAtSwap_keeps {w : List Part} {s₀ : State} {p} {s} (m_boot : Part.boot ∈ w) (m_dyn : Part.dyn ∈ w) (m_free : Part.free ∈ w) (m_host : Part.host ∈ w) (m_lane : Part.lane ∈ w) (m_log : Part.log ∈ w) (m_mem : Part.mem ∈ w) (m_memPoison : Part.memPoison ∈ w) (m_obs : Part.obs ∈ w) (m_regs : Part.regs ∈ w) (m_rel : Part.rel ∈ w) (m_rpt : Part.rpt ∈ w) (h : Keeps w s₀ s) :
    ∃ t, execAtSwap p s = .next t ∧ Keeps w s₀ t := by
  refine ⟨_, rfl, ?_⟩
  repeat' first
    | intro _
    | with_reducible assumption
    | with_reducible (first | apply Keeps.ite | apply arrive_keeps | apply memAccess_keeps | apply doAtomic_keeps)
    | split
    | dsimp only

theorem execAtCas_keeps {w : List Part} {s₀ : State} {p} {s} (m_boot : Part.boot ∈ w) (m_dyn : Part.dyn ∈ w) (m_free : Part.free ∈ w) (m_host : Part.host ∈ w) (m_lane : Part.lane ∈ w) (m_log : Part.log ∈ w) (m_mem : Part.mem ∈ w) (m_memPoison : Part.memPoison ∈ w) (m_obs : Part.obs ∈ w) (m_regs : Part.regs ∈ w) (m_rel : Part.rel ∈ w) (m_rpt : Part.rpt ∈ w) (h : Keeps w s₀ s) :
    ∃ t, execAtCas p s = .next t ∧ Keeps w s₀ t := by
  refine ⟨_, rfl, ?_⟩
  repeat' first
    | intro _
    | with_reducible assumption
    | with_reducible (first | apply Keeps.ite | apply arrive_keeps | apply memAccess_keeps | apply doAtomic_keeps)
    | split
    | dsimp only

theorem storeFabric_keeps {w : List Part} {s₀ : State} {s} {fn} {a} {bs} {psn} (m_host : Part.host ∈ w) (m_mem : Part.mem ∈ w) (m_memPoison : Part.memPoison ∈ w) (m_obs : Part.obs ∈ w) (m_regs : Part.regs ∈ w) (h : Keeps w s₀ s) :
    Keeps w s₀ (storeFabric s fn a bs psn) := by
  unfold storeFabric
  repeat' first
    | intro _
    | with_reducible assumption
    | with_reducible (first | apply Keeps.ite | apply storeSeen_keeps)
    | with_reducible (first | fail_if_no_progress apply Keeps.host m_host)
    | split
    | dsimp only

theorem mcDeliver_keeps {w : List Part} {s₀ : State} {s} {tile} {p} (m_dyn : Part.dyn ∈ w) (m_free : Part.free ∈ w) (m_host : Part.host ∈ w) (m_lane : Part.lane ∈ w) (m_log : Part.log ∈ w) (m_mem : Part.mem ∈ w) (m_memPoison : Part.memPoison ∈ w) (m_obs : Part.obs ∈ w) (m_regs : Part.regs ∈ w) (m_rel : Part.rel ∈ w) (m_rpt : Part.rpt ∈ w) (h : Keeps w s₀ s) :
    Keeps w s₀ (mcDeliver s tile p) := by
  unfold mcDeliver
  repeat' first
    | intro _
    | with_reducible assumption
    | with_reducible (first | apply Keeps.ite | apply violation_keeps | apply storeSeen_keeps | apply tracePkt_keeps | apply rspTo_keeps | apply errTo_keeps | apply useGrant_keeps | apply malPlain_keeps)
    | with_reducible (first | fail_if_no_progress apply Keeps.dyn m_dyn)
    | split
    | dsimp only

theorem cisQueue_keeps {w : List Part} {s₀ : State} {s} {r} (m_dyn : Part.dyn ∈ w) (m_regs : Part.regs ∈ w) (h : Keeps w s₀ s) :
    Keeps w s₀ (cisQueue s r) := by
  unfold cisQueue
  repeat' first
    | intro _
    | with_reducible assumption
    | with_reducible (first | apply Keeps.ite | apply cisAdd_keeps)
    | with_reducible (first | fail_if_no_progress apply Keeps.dyn m_dyn)
    | split
    | dsimp only

theorem execRsvReq_keeps {w : List Part} {s₀ : State} {p} {s} (m_dyn : Part.dyn ∈ w) (m_free : Part.free ∈ w) (m_host : Part.host ∈ w) (m_lane : Part.lane ∈ w) (m_log : Part.log ∈ w) (m_obs : Part.obs ∈ w) (m_regs : Part.regs ∈ w) (m_rel : Part.rel ∈ w) (m_rpt : Part.rpt ∈ w) (h : Keeps w s₀ s) :
    ∃ t, execRsvReq p s = .next t ∧ Keeps w s₀ t := by
  refine ⟨_, rfl, ?_⟩
  repeat' first
    | intro _
    | with_reducible assumption
    | with_reducible (first | apply Keeps.ite | apply grant_keeps | apply arrive_keeps | apply cisQueue_keeps)
    | split
    | dsimp only

theorem execCisternGrant_keeps {w : List Part} {s₀ : State} {e} {s} (m_dyn : Part.dyn ∈ w) (m_free : Part.free ∈ w) (m_lane : Part.lane ∈ w) (m_obs : Part.obs ∈ w) (m_regs : Part.regs ∈ w) (m_rel : Part.rel ∈ w) (h : Keeps w s₀ s) :
    ∃ t, execCisternGrant e s = .next t ∧ Keeps w s₀ t := by
  refine ⟨_, rfl, ?_⟩
  repeat' first
    | intro _
    | with_reducible assumption
    | with_reducible (first | apply Keeps.ite | apply grant_keeps)
    | split
    | dsimp only

theorem execMcastEligible_keeps {w : List Part} {s₀ : State} {e} {s} (m_clk : Part.clk ∈ w) (m_dyn : Part.dyn ∈ w) (m_free : Part.free ∈ w) (m_lane : Part.lane ∈ w) (m_obs : Part.obs ∈ w) (m_regs : Part.regs ∈ w) (m_rel : Part.rel ∈ w) (m_trig : Part.trig ∈ w) (h : Keeps w s₀ s) :
    ∃ t, execMcastEligible e s = .next t ∧ Keeps w s₀ t := by
  refine ⟨_, rfl, ?_⟩
  repeat' first
    | intro _
    | with_reducible assumption
    | with_reducible (first | apply Keeps.ite | apply advanceTo_keeps | apply grant_keeps)
    | split
    | dsimp only

theorem execRsvGrant_keeps {w : List Part} {s₀ : State} {p} {s} (m_dyn : Part.dyn ∈ w) (m_free : Part.free ∈ w) (m_host : Part.host ∈ w) (m_lane : Part.lane ∈ w) (m_log : Part.log ∈ w) (m_obs : Part.obs ∈ w) (m_regs : Part.regs ∈ w) (m_rel : Part.rel ∈ w) (m_rpt : Part.rpt ∈ w) (h : Keeps w s₀ s) :
    ∃ t, execRsvGrant p s = .next t ∧ Keeps w s₀ t := by
  refine ⟨_, rfl, ?_⟩
  repeat' first
    | intro _
    | with_reducible assumption
    | with_reducible (first | apply Keeps.ite | apply allotBack_keeps | apply giveFree_keeps | apply lateRsp_keeps | apply arrive_keeps)
    | with_reducible (first | fail_if_no_progress apply Keeps.dyn m_dyn)
    | split
    | dsimp only

theorem cisRelease_keeps {w : List Part} {s₀ : State} {s} {e} {src} {tag} (m_dyn : Part.dyn ∈ w) (m_regs : Part.regs ∈ w) (h : Keeps w s₀ s) :
    Keeps w s₀ (cisRelease s e src tag) := by
  unfold cisRelease
  repeat' first
    | intro _
    | with_reducible assumption
    | with_reducible (first | apply Keeps.ite | apply giveFree_keeps | apply cisSub_keeps)
    | with_reducible (first | fail_if_no_progress apply Keeps.dyn m_dyn)
    | split
    | dsimp only

theorem execRsvRelease_keeps {w : List Part} {s₀ : State} {p} {s} (m_dyn : Part.dyn ∈ w) (m_free : Part.free ∈ w) (m_host : Part.host ∈ w) (m_lane : Part.lane ∈ w) (m_log : Part.log ∈ w) (m_obs : Part.obs ∈ w) (m_regs : Part.regs ∈ w) (m_rel : Part.rel ∈ w) (m_rpt : Part.rpt ∈ w) (h : Keeps w s₀ s) :
    ∃ t, execRsvRelease p s = .next t ∧ Keeps w s₀ t := by
  refine ⟨_, rfl, ?_⟩
  repeat' first
    | intro _
    | with_reducible assumption
    | with_reducible (first | apply Keeps.ite | apply ackTo_keeps | apply arrive_keeps | apply cisRelease_keeps)
    | split
    | dsimp only

theorem execTagQuarantineEnd_keeps {w : List Part} {s₀ : State} {e} {tag} {s} (m_clk : Part.clk ∈ w) (m_dyn : Part.dyn ∈ w) (m_regs : Part.regs ∈ w) (m_rel : Part.rel ∈ w) (m_trig : Part.trig ∈ w) (h : Keeps w s₀ s) :
    ∃ t, execTagQuarantineEnd e tag s = .next t ∧ Keeps w s₀ t := by
  refine ⟨_, rfl, ?_⟩
  repeat' first
    | intro _
    | with_reducible assumption
    | with_reducible (first | apply Keeps.ite | apply advanceTo_keeps | apply allotBack_keeps)
    | with_reducible (first | fail_if_no_progress apply Keeps.dyn m_dyn)
    | split
    | dsimp only

theorem execLeaseExpire_keeps {w : List Part} {s₀ : State} {e} {rec_} {s} (m_clk : Part.clk ∈ w) (m_dyn : Part.dyn ∈ w) (m_regs : Part.regs ∈ w) (m_rel : Part.rel ∈ w) (m_trig : Part.trig ∈ w) (h : Keeps w s₀ s) :
    ∃ t, execLeaseExpire e rec_ s = .next t ∧ Keeps w s₀ t := by
  refine ⟨_, rfl, ?_⟩
  repeat' first
    | intro _
    | with_reducible assumption
    | with_reducible (first | apply Keeps.ite | apply advanceTo_keeps | apply release_keeps)
    | split
    | dsimp only

/-! ### Machine/Standpipe.lean -/

theorem spSend_keeps {w : List Part} {s₀ : State} {s} {src} {m} (m_coll : Part.coll ∈ w) (m_regs : Part.regs ∈ w) (m_rel : Part.rel ∈ w) (h : Keeps w s₀ s) :
    Keeps w s₀ (spSend s src m) := by
  unfold spSend
  repeat' first
    | intro _
    | with_reducible assumption
    | with_reducible (first | apply Keeps.ite | apply injFire_keeps)
    | with_reducible (first | fail_if_no_progress apply Keeps.coll m_coll)
    | split
    | dsimp only

theorem spTake_keeps {w : List Part} {s₀ : State} {s} {m} (m_coll : Part.coll ∈ w) (h : Keeps w s₀ s) :
    Keeps w s₀ (spTake s m) := by
  unfold spTake
  repeat' first
    | intro _
    | with_reducible assumption
    | with_reducible (first | apply Keeps.ite)
    | with_reducible (first | fail_if_no_progress apply Keeps.coll m_coll)
    | split
    | dsimp only

theorem spForeign_keeps {w : List Part} {s₀ : State} {s} {m} (m_host : Part.host ∈ w) (m_log : Part.log ∈ w) (m_regs : Part.regs ∈ w) (m_rel : Part.rel ∈ w) (m_rpt : Part.rpt ∈ w) (h : Keeps w s₀ s) :
    Keeps w s₀ (spForeign s m) := by
  unfold spForeign
  repeat' first
    | intro _
    | with_reducible assumption
    | with_reducible (first | apply Keeps.ite | apply Keeps.foldl | apply Keeps.foldl_fst | apply Keeps.foldl_snd | apply violation_keeps)
    | split
    | dsimp only

theorem spBad_keeps {w : List Part} {s₀ : State} {s} {m} (m_log : Part.log ∈ w) (m_regs : Part.regs ∈ w) (m_rel : Part.rel ∈ w) (h : Keeps w s₀ s) :
    Keeps w s₀ (spBad s m) := by
  unfold spBad
  repeat' first
    | intro _
    | with_reducible assumption
    | with_reducible (first | apply Keeps.ite | apply Keeps.foldl | apply Keeps.foldl_fst | apply Keeps.foldl_snd | apply bump_keeps | apply log_keeps)
    | split
    | dsimp only

theorem spStale_keeps {w : List Part} {s₀ : State} {s} {tile} (m_regs : Part.regs ∈ w) (h : Keeps w s₀ s) :
    Keeps w s₀ (spStale s tile) := by
  unfold spStale
  repeat' first
    | intro _
    | with_reducible assumption
    | with_reducible (first | apply Keeps.ite | apply bump_keeps)
    | split
    | dsimp only

theorem spStaleAll_keeps {w : List Part} {s₀ : State} {s} {m} (m_regs : Part.regs ∈ w) (h : Keeps w s₀ s) :
    Keeps w s₀ (spStaleAll s m) := by
  unfold spStaleAll
  repeat' first
    | intro _
    | with_reducible assumption
    | with_reducible (first | apply Keeps.ite | apply Keeps.foldl | apply Keeps.foldl_fst | apply Keeps.foldl_snd | apply spStale_keeps)
    | split
    | dsimp only

theorem spArrive_keeps {w : List Part} {s₀ : State} {s0} {m} {k} (m_coll : Part.coll ∈ w) (m_host : Part.host ∈ w) (m_log : Part.log ∈ w) (m_regs : Part.regs ∈ w) (m_rel : Part.rel ∈ w) (m_rpt : Part.rpt ∈ w) (k3 : ∀ u, Keeps w s₀ u → Keeps w s₀ (k u)) (h : Keeps w s₀ s0) :
    Keeps w s₀ (spArrive s0 m k) := by
  unfold spArrive
  repeat' first
    | intro _
    | with_reducible assumption
    | with_reducible (first | apply Keeps.ite | apply k3 | apply spTake_keeps | apply spForeign_keeps | apply spBad_keeps)
    | split
    | dsimp only

end Sys2Proof.Machine
end

