-- ==== Sys2Proof/Laws/FrameScheduled.lean ====
section
/-!
SUPPORT. What each operation of Machine/Scheduled.lean, Machine/Arbiter.lean can touch: one lemma an operation,
that composes with the lemmas of its callers.
-/
namespace Sys2Proof.Machine

set_option linter.unusedTactic false
set_option linter.unreachableTactic false

/-! ### Machine/Scheduled.lean -/

theorem setRun_keeps {w : List Part} {s₀ : State} {s} {a} {x} (m_arb : Part.arb ∈ w) (h : Keeps w s₀ s) :
    Keeps w s₀ (setRun s a x) := by
  unfold setRun
  repeat' first
    | intro _
    | with_reducible assumption
    | with_reducible (first | apply Keeps.ite)
    | with_reducible (first | fail_if_no_progress apply Keeps.arb m_arb)
    | split
    | dsimp only

theorem useSlot_keeps {w : List Part} {s₀ : State} {s} {a} {g} {n} (m_sch : Part.sch ∈ w) (h : Keeps w s₀ s) :
    Keeps w s₀ (useSlot s a g n) := by
  unfold useSlot
  repeat' first
    | intro _
    | with_reducible assumption
    | with_reducible (first | apply Keeps.ite)
    | with_reducible (first | fail_if_no_progress apply Keeps.sch m_sch)
    | split
    | dsimp only

theorem setTen_keeps {w : List Part} {s₀ : State} {s} {x2} {x} (m_sch : Part.sch ∈ w) (h : Keeps w s₀ s) :
    Keeps w s₀ (setTen s x2 x) := by
  unfold setTen
  repeat' first
    | intro _
    | with_reducible assumption
    | with_reducible (first | apply Keeps.ite)
    | with_reducible (first | fail_if_no_progress apply Keeps.sch m_sch)
    | split
    | dsimp only

theorem roundDone_keeps {w : List Part} {s₀ : State} {s} {b} {d} {j} {k} {dead} (m_trig : Part.trig ∈ w) (h : Keeps w s₀ s) :
    Keeps w s₀ (roundDone s b d j k dead) := by
  unfold roundDone
  repeat' first
    | intro _
    | with_reducible assumption
    | with_reducible (first | apply Keeps.ite | apply addCtr_keeps)
    | split
    | dsimp only

theorem execSchArm_keeps {w : List Part} {s₀ : State} {x1} {time} {s} (m_regs : Part.regs ∈ w) (m_sch : Part.sch ∈ w) (h : Keeps w s₀ s) :
    ∃ t, execSchArm x1 time s = .next t ∧ Keeps w s₀ t := by
  refine ⟨_, rfl, ?_⟩
  repeat' first
    | intro _
    | with_reducible assumption
    | with_reducible (first | apply Keeps.ite | apply setFld_keeps | apply setTen_keeps)
    | split
    | dsimp only

theorem schDrop_keeps {w : List Part} {s₀ : State} {s} {x2} (m_regs : Part.regs ∈ w) (m_sch : Part.sch ∈ w) (h : Keeps w s₀ s) :
    Keeps w s₀ (schDrop s x2) := by
  unfold schDrop
  repeat' first
    | intro _
    | with_reducible assumption
    | with_reducible (first | apply Keeps.ite | apply setFld_keeps | apply setTen_keeps)
    | split
    | dsimp only

theorem execSchDisarm_keeps {w : List Part} {s₀ : State} {x1} {s} (m_regs : Part.regs ∈ w) (m_sch : Part.sch ∈ w) (h : Keeps w s₀ s) :
    ∃ t, execSchDisarm x1 s = .next t ∧ Keeps w s₀ t := by
  refine ⟨_, rfl, ?_⟩
  repeat' first
    | intro _
    | with_reducible assumption
    | with_reducible (first | apply Keeps.ite | apply schDrop_keeps)
    | split
    | dsimp only

theorem execSchArmCheckDone_keeps {w : List Part} {s₀ : State} {x1} {s} (m_regs : Part.regs ∈ w) (m_sch : Part.sch ∈ w) (h : Keeps w s₀ s) :
    ∃ t, execSchArmCheckDone x1 s = .next t ∧ Keeps w s₀ t := by
  refine ⟨_, rfl, ?_⟩
  repeat' first
    | intro _
    | with_reducible assumption
    | with_reducible (first | apply Keeps.ite | apply setFld_keeps | apply setTen_keeps | apply schDrop_keeps)
    | split
    | dsimp only

theorem switchBank_keeps {w : List Part} {s₀ : State} {s} {x2} (m_regs : Part.regs ∈ w) (m_sch : Part.sch ∈ w) (h : Keeps w s₀ s) :
    Keeps w s₀ (switchBank s x2) := by
  unfold switchBank
  repeat' first
    | intro _
    | with_reducible assumption
    | with_reducible (first | apply Keeps.ite | apply setFld_keeps | apply setTen_keeps)
    | with_reducible (first | fail_if_no_progress apply Keeps.sch m_sch)
    | split
    | dsimp only

theorem execSchTakeover_keeps {w : List Part} {s₀ : State} {x1} {s} (m_clk : Part.clk ∈ w) (m_regs : Part.regs ∈ w) (m_rel : Part.rel ∈ w) (m_sch : Part.sch ∈ w) (m_trig : Part.trig ∈ w) (h : Keeps w s₀ s) :
    ∃ t, execSchTakeover x1 s = .next t ∧ Keeps w s₀ t := by
  refine ⟨_, rfl, ?_⟩
  repeat' first
    | intro _
    | with_reducible assumption
    | with_reducible (first | apply Keeps.ite | apply advanceTo_keeps | apply switchBank_keeps)
    | split
    | dsimp only

theorem execSchStart_keeps {w : List Part} {s₀ : State} {x1} {s} (m_clk : Part.clk ∈ w) (m_regs : Part.regs ∈ w) (m_rel : Part.rel ∈ w) (m_sch : Part.sch ∈ w) (m_trig : Part.trig ∈ w) (h : Keeps w s₀ s) :
    ∃ t, execSchStart x1 s = .next t ∧ Keeps w s₀ t := by
  refine ⟨_, rfl, ?_⟩
  repeat' first
    | intro _
    | with_reducible assumption
    | with_reducible (first | apply Keeps.ite | apply advanceTo_keeps | apply switchBank_keeps)
    | split
    | dsimp only

theorem schFault_keeps {w : List Part} {s₀ : State} {s} {tile} {port} {kind} {tenant} (m_log : Part.log ∈ w) (m_rel : Part.rel ∈ w) (h : Keeps w s₀ s) :
    Keeps w s₀ (schFault s tile port kind tenant) := by
  unfold schFault
  repeat' first
    | intro _
    | with_reducible assumption
    | with_reducible (first | apply Keeps.ite | apply log_keeps)
    | split
    | dsimp only

theorem linkErr_keeps {w : List Part} {s₀ : State} {s} {tile} {out} {plane} {bad} (m_log : Part.log ∈ w) (m_regs : Part.regs ∈ w) (m_rel : Part.rel ∈ w) (h : Keeps w s₀ s) :
    Keeps w s₀ (linkErr s tile out plane bad) := by
  unfold linkErr
  repeat' first
    | intro _
    | with_reducible assumption
    | with_reducible (first | apply Keeps.ite | apply bump_keeps | apply log_keeps)
    | split
    | dsimp only

theorem injLink_keeps {w : List Part} {s₀ : State} {s} {tile} {out} {plane} (m_log : Part.log ∈ w) (m_regs : Part.regs ∈ w) (m_rel : Part.rel ∈ w) (h : Keeps w s₀ s) :
    Keeps w s₀ (injLink s tile out plane).2 := by
  unfold injLink
  repeat' first
    | intro _
    | with_reducible assumption
    | with_reducible (first | apply Keeps.ite_snd | apply Keeps.ite | apply injFire_keeps | apply linkErr_keeps)
    | split
    | dsimp only

theorem beatOut_keeps {w : List Part} {s₀ : State} {s} {tile} {out} {ctx} {b0} (m_log : Part.log ∈ w) (m_regs : Part.regs ∈ w) (m_rel : Part.rel ∈ w) (m_sch : Part.sch ∈ w) (h : Keeps w s₀ s) :
    Keeps w s₀ (beatOut s tile out ctx b0) := by
  unfold beatOut
  repeat' first
    | intro _
    | with_reducible assumption
    | with_reducible (first | apply Keeps.ite | apply bump_keeps | apply injLink_keeps)
    | refine Keeps.of_snd (by with_reducible assumption) ?_
    | with_reducible (first | fail_if_no_progress apply Keeps.sch m_sch)
    | split
    | dsimp only

theorem poisonBeat_keeps {w : List Part} {s₀ : State} {s} {e} {half} (m_free : Part.free ∈ w) (h : Keeps w s₀ s) :
    Keeps w s₀ (poisonBeat s e half).2 := by
  unfold poisonBeat
  repeat' first
    | intro _
    | with_reducible assumption
    | with_reducible (first | apply Keeps.ite_snd | apply Keeps.ite | apply drawBytes_keeps)
    | refine Keeps.of_snd (by with_reducible assumption) ?_
    | split
    | dsimp only

theorem entryStep_keeps {w : List Part} {s₀ : State} {s} {tile} {port} {b} {e} (m_free : Part.free ∈ w) (m_host : Part.host ∈ w) (m_log : Part.log ∈ w) (m_regs : Part.regs ∈ w) (m_rel : Part.rel ∈ w) (m_rpt : Part.rpt ∈ w) (m_sch : Part.sch ∈ w) (h : Keeps w s₀ s) :
    Keeps w s₀ (entryStep s tile port b e) := by
  unfold entryStep
  repeat' first
    | intro _
    | with_reducible assumption
    | with_reducible (first | apply Keeps.ite | apply offence_keeps | apply schFault_keeps | apply beatOut_keeps | apply poisonBeat_keeps)
    | refine Keeps.of_snd (by with_reducible assumption) ?_
    | split
    | dsimp only

theorem arriving_keeps {w : List Part} {s₀ : State} {s} {tile} {port} {b} (m_clk : Part.clk ∈ w) (m_regs : Part.regs ∈ w) (m_rel : Part.rel ∈ w) (m_sch : Part.sch ∈ w) (m_trig : Part.trig ∈ w) (h : Keeps w s₀ s) :
    Keeps w s₀ (arriving s tile port b).2 := by
  unfold arriving
  repeat' first
    | intro _
    | with_reducible assumption
    | with_reducible (first | apply Keeps.ite_snd | apply Keeps.ite | apply advanceTo_keeps)
    | with_reducible (first | fail_if_no_progress apply Keeps.sch m_sch)
    | split
    | dsimp only

theorem execScheduledBeatArrival_keeps {w : List Part} {s₀ : State} {tile} {port} {b} {s} (m_clk : Part.clk ∈ w) (m_free : Part.free ∈ w) (m_host : Part.host ∈ w) (m_log : Part.log ∈ w) (m_regs : Part.regs ∈ w) (m_rel : Part.rel ∈ w) (m_rpt : Part.rpt ∈ w) (m_sch : Part.sch ∈ w) (m_trig : Part.trig ∈ w) (h : Keeps w s₀ s) :
    ∃ t, execScheduledBeatArrival tile port b s = .next t ∧ Keeps w s₀ t := by
  refine ⟨_, rfl, ?_⟩
  repeat' first
    | intro _
    | with_reducible assumption
    | with_reducible (first | apply Keeps.ite | apply Keeps.foldl | apply Keeps.foldl_fst | apply Keeps.foldl_snd | apply bump_keeps | apply injFire_keeps | apply schFault_keeps | apply entryStep_keeps | apply arriving_keeps)
    | refine Keeps.of_snd (by with_reducible assumption) ?_
    | split
    | dsimp only

theorem pumpUse_keeps {w : List Part} {s₀ : State} {s} {tile} {off} {x4} {n} (m_sch : Part.sch ∈ w) (h : Keeps w s₀ s) :
    Keeps w s₀ (pumpUse s tile off x4 n) := by
  unfold pumpUse
  repeat' first
    | intro _
    | with_reducible assumption
    | with_reducible (first | apply Keeps.ite | apply useSlot_keeps)
    | split
    | dsimp only

theorem unstage_keeps {w : List Part} {s₀ : State} {s} {b} {n} {j} {k} (m_sch : Part.sch ∈ w) (h : Keeps w s₀ s) :
    Keeps w s₀ (unstage s b n j k) := by
  unfold unstage
  repeat' first
    | intro _
    | with_reducible assumption
    | with_reducible (first | apply Keeps.ite | apply pumpUse_keeps)
    | with_reducible (first | fail_if_no_progress apply Keeps.sch m_sch)
    | split
    | dsimp only

theorem execStreamBeatInject_keeps {w : List Part} {s₀ : State} {x1} {x2} {x3} {x4} {x5} {x6} (m_clk : Part.clk ∈ w) (m_regs : Part.regs ∈ w) (m_rel : Part.rel ∈ w) (m_sch : Part.sch ∈ w) (m_trig : Part.trig ∈ w) (h : Keeps w s₀ x6) :
    ∃ t, execStreamBeatInject x1 x2 x3 x4 x5 x6 = .next t ∧ Keeps w s₀ t := by
  refine ⟨_, rfl, ?_⟩
  split
  · exact h
  · dsimp only
    split
    · exact h
    · split
      · exact advanceTo_keeps m_clk m_regs m_rel m_trig h
      · refine roundDone_keeps m_trig (Keeps.sch m_sch ?_)
        split
        · exact matchOp_keeps m_regs (unstage_keeps m_sch (advanceTo_keeps m_clk m_regs m_rel m_trig h))
        · exact tutilOut_keeps m_regs (unstage_keeps m_sch (advanceTo_keeps m_clk m_regs m_rel m_trig h))

theorem execMepStageReadIssue_keeps {w : List Part} {s₀ : State} {m} {n} {j} {k} {s} (m_clk : Part.clk ∈ w) (m_regs : Part.regs ∈ w) (m_rel : Part.rel ∈ w) (m_sch : Part.sch ∈ w) (m_trig : Part.trig ∈ w) (h : Keeps w s₀ s) :
    ∃ t, execMepStageReadIssue m n j k s = .next t ∧ Keeps w s₀ t := by
  refine ⟨_, rfl, ?_⟩
  repeat' first
    | intro _
    | with_reducible assumption
    | with_reducible (first | apply Keeps.ite | apply advanceTo_keeps)
    | with_reducible (first | fail_if_no_progress apply Keeps.sch m_sch)
    | split
    | dsimp only

theorem execMepStackReadDone_keeps {w : List Part} {s₀ : State} {m} {n} {j} {k} {psn} {s} (m_sch : Part.sch ∈ w) (h : Keeps w s₀ s) :
    ∃ t, execMepStackReadDone m n j k psn s = .next t ∧ Keeps w s₀ t := by
  refine ⟨_, rfl, ?_⟩
  repeat' first
    | intro _
    | with_reducible assumption
    | with_reducible (first | apply Keeps.ite | apply useSlot_keeps)
    | with_reducible (first | fail_if_no_progress apply Keeps.sch m_sch)
    | split
    | dsimp only

theorem setPsn_keeps {w : List Part} {s₀ : State} {s} {b} {n} (m_regs : Part.regs ∈ w) (h : Keeps w s₀ s) :
    Keeps w s₀ (setPsn s b n) := by
  unfold setPsn
  repeat' first
    | intro _
    | with_reducible assumption
    | with_reducible (first | apply Keeps.ite | apply raise_keeps)
    | split
    | dsimp only

theorem sinkPoison_keeps {w : List Part} {s₀ : State} {s} {b} {n} {d} {psn} (m_log : Part.log ∈ w) (m_regs : Part.regs ∈ w) (m_rel : Part.rel ∈ w) (h : Keeps w s₀ s) :
    Keeps w s₀ (sinkPoison s b n d psn) := by
  unfold sinkPoison
  repeat' first
    | intro _
    | with_reducible assumption
    | with_reducible (first | apply Keeps.ite | apply log_keeps | apply setPsn_keeps)
    | split
    | dsimp only

theorem sinkBeat_keeps {w : List Part} {s₀ : State} {s} {b} {n} {j} {k} {d} {x7} {x} (m_log : Part.log ∈ w) (m_mem : Part.mem ∈ w) (m_memPoison : Part.memPoison ∈ w) (m_obs : Part.obs ∈ w) (m_regs : Part.regs ∈ w) (m_rel : Part.rel ∈ w) (m_sch : Part.sch ∈ w) (m_trig : Part.trig ∈ w) (h : Keeps w s₀ s) :
    Keeps w s₀ (sinkBeat s b n j k d x7 x) := by
  unfold sinkBeat
  repeat' first
    | intro _
    | with_reducible assumption
    | with_reducible (first | apply Keeps.ite | apply tutilIn_keeps | apply storeSeen_keeps | apply roundDone_keeps | apply pumpUse_keeps | apply sinkPoison_keeps)
    | with_reducible (first | fail_if_no_progress apply Keeps.sch m_sch)
    | split
    | dsimp only

theorem execStreamBeatExtract_keeps {w : List Part} {s₀ : State} {b} {n} {j} {k} {s} (m_clk : Part.clk ∈ w) (m_log : Part.log ∈ w) (m_mem : Part.mem ∈ w) (m_memPoison : Part.memPoison ∈ w) (m_obs : Part.obs ∈ w) (m_regs : Part.regs ∈ w) (m_rel : Part.rel ∈ w) (m_sch : Part.sch ∈ w) (m_trig : Part.trig ∈ w) (h : Keeps w s₀ s) :
    ∃ t, execStreamBeatExtract b n j k s = .next t ∧ Keeps w s₀ t := by
  refine ⟨_, rfl, ?_⟩
  repeat' first
    | intro _
    | with_reducible assumption
    | with_reducible (first | apply Keeps.ite | apply advanceTo_keeps | apply sinkBeat_keeps)
    | split
    | dsimp only

theorem execMepAbsorbWrite_keeps {w : List Part} {s₀ : State} {m} {s} (m_clk : Part.clk ∈ w) (m_mem : Part.mem ∈ w) (m_memPoison : Part.memPoison ∈ w) (m_regs : Part.regs ∈ w) (m_rel : Part.rel ∈ w) (m_sch : Part.sch ∈ w) (m_trig : Part.trig ∈ w) (h : Keeps w s₀ s) :
    ∃ t, execMepAbsorbWrite m s = .next t ∧ Keeps w s₀ t := by
  refine ⟨_, rfl, ?_⟩
  repeat' first
    | intro _
    | with_reducible assumption
    | with_reducible (first | apply Keeps.ite | apply store_keeps | apply advanceTo_keeps | apply useSlot_keeps)
    | with_reducible (first | fail_if_no_progress apply Keeps.sch m_sch)
    | split
    | dsimp only

theorem execSchedIngressBeat_keeps {w : List Part} {s₀ : State} {b} {ch} {s} (m_clk : Part.clk ∈ w) (m_log : Part.log ∈ w) (m_regs : Part.regs ∈ w) (m_rel : Part.rel ∈ w) (m_sch : Part.sch ∈ w) (m_trig : Part.trig ∈ w) (h : Keeps w s₀ s) :
    ∃ t, execSchedIngressBeat b ch s = .next t ∧ Keeps w s₀ t := by
  refine ⟨_, rfl, ?_⟩
  repeat' first
    | intro _
    | with_reducible assumption
    | with_reducible (first | apply Keeps.ite | apply advanceTo_keeps | apply schFault_keeps)
    | with_reducible (first | fail_if_no_progress apply Keeps.sch m_sch)
    | split
    | dsimp only

theorem bindGather_keeps {w : List Part} {s₀ : State} {s} {key} {b} {ch} {x5} {st} {n} (m_sch : Part.sch ∈ w) (h : Keeps w s₀ s) :
    Keeps w s₀ (bindGather s key b ch x5 st n) := by
  unfold bindGather
  repeat' first
    | intro _
    | with_reducible assumption
    | with_reducible (first | apply Keeps.ite | apply Keeps.foldl | apply Keeps.foldl_fst | apply Keeps.foldl_snd)
    | with_reducible (first | fail_if_no_progress apply Keeps.sch m_sch)
    | split
    | dsimp only

theorem execLpSbindWrite_keeps {w : List Part} {s₀ : State} {lp} {b} {s} (m_dyn : Part.dyn ∈ w) (m_sch : Part.sch ∈ w) (h : Keeps w s₀ s) :
    ∃ t, execLpSbindWrite lp b s = .next t ∧ Keeps w s₀ t := by
  refine ⟨_, rfl, ?_⟩
  repeat' first
    | intro _
    | with_reducible assumption
    | with_reducible (first | apply Keeps.ite | apply enqueue_keeps | apply bindGather_keeps)
    | with_reducible (first | fail_if_no_progress apply Keeps.sch m_sch)
    | split
    | dsimp only

theorem execSlipAssert_keeps {w : List Part} {s₀ : State} {x1} {tile} {s} (m_coll : Part.coll ∈ w) (m_regs : Part.regs ∈ w) (m_rel : Part.rel ∈ w) (h : Keeps w s₀ s) :
    ∃ t, execSlipAssert x1 tile s = .next t ∧ Keeps w s₀ t := by
  refine ⟨_, rfl, ?_⟩
  repeat' first
    | intro _
    | with_reducible assumption
    | with_reducible (first | apply Keeps.ite | apply spSend_keeps)
    | split
    | dsimp only

theorem execSlip_keeps {w : List Part} {s₀ : State} {m} {s} (m_coll : Part.coll ∈ w) (m_host : Part.host ∈ w) (m_log : Part.log ∈ w) (m_regs : Part.regs ∈ w) (m_rel : Part.rel ∈ w) (m_rpt : Part.rpt ∈ w) (m_sch : Part.sch ∈ w) (h : Keeps w s₀ s) :
    ∃ t, execSlip m s = .next t ∧ Keeps w s₀ t := by
  refine ⟨_, rfl, ?_⟩
  repeat' first
    | intro _
    | with_reducible assumption
    | with_reducible (first | apply Keeps.ite | apply bump_keeps | apply spArrive_keeps | apply setTen_keeps)
    | split
    | dsimp only

theorem thaw_keeps {w : List Part} {s₀ : State} {s} {x2} (m_clk : Part.clk ∈ w) (m_regs : Part.regs ∈ w) (m_rel : Part.rel ∈ w) (m_sch : Part.sch ∈ w) (m_trig : Part.trig ∈ w) (h : Keeps w s₀ s) :
    Keeps w s₀ (thaw s x2) := by
  unfold thaw
  repeat' first
    | intro _
    | with_reducible assumption
    | with_reducible (first | apply Keeps.ite | apply advanceTo_keeps | apply setTen_keeps)
    | with_reducible (first | fail_if_no_progress apply Keeps.sch m_sch)
    | split
    | dsimp only

theorem holdBeats_keeps {w : List Part} {s₀ : State} {s} {x2} (m_sch : Part.sch ∈ w) (h : Keeps w s₀ s) :
    Keeps w s₀ (holdBeats s x2) := by
  unfold holdBeats
  repeat' first
    | intro _
    | with_reducible assumption
    | with_reducible (first | apply Keeps.ite)
    | with_reducible (first | fail_if_no_progress apply Keeps.sch m_sch)
    | split
    | dsimp only

theorem dropBeats_keeps {w : List Part} {s₀ : State} {s} {x2} (m_sch : Part.sch ∈ w) (h : Keeps w s₀ s) :
    Keeps w s₀ (dropBeats s x2) := by
  unfold dropBeats
  repeat' first
    | intro _
    | with_reducible assumption
    | with_reducible (first | apply Keeps.ite)
    | with_reducible (first | fail_if_no_progress apply Keeps.sch m_sch)
    | split
    | dsimp only

theorem schStop_keeps {w : List Part} {s₀ : State} {s} {x2} {e} (m_host : Part.host ∈ w) (m_log : Part.log ∈ w) (m_regs : Part.regs ∈ w) (m_rel : Part.rel ∈ w) (m_rpt : Part.rpt ∈ w) (m_sch : Part.sch ∈ w) (h : Keeps w s₀ s) :
    Keeps w s₀ (schStop s x2 e) := by
  unfold schStop
  repeat' first
    | intro _
    | with_reducible assumption
    | with_reducible (first | apply Keeps.ite | apply Keeps.foldl | apply Keeps.foldl_fst | apply Keeps.foldl_snd | apply setFld_keeps | apply logReport_keeps | apply setTen_keeps | apply schDrop_keeps | apply setPsn_keeps | apply dropBeats_keeps)
    | split
    | dsimp only

theorem slipStop_keeps {w : List Part} {s₀ : State} {s} {x2} (m_host : Part.host ∈ w) (m_log : Part.log ∈ w) (m_regs : Part.regs ∈ w) (m_rel : Part.rel ∈ w) (m_rpt : Part.rpt ∈ w) (m_sch : Part.sch ∈ w) (h : Keeps w s₀ s) :
    Keeps w s₀ (slipStop s x2) := by
  unfold slipStop
  repeat' first
    | intro _
    | with_reducible assumption
    | with_reducible (first | apply Keeps.ite | apply schStop_keeps)
    | split
    | dsimp only

theorem execFreezeQuantumStart_keeps {w : List Part} {s₀ : State} {x1} {s} (m_clk : Part.clk ∈ w) (m_host : Part.host ∈ w) (m_log : Part.log ∈ w) (m_regs : Part.regs ∈ w) (m_rel : Part.rel ∈ w) (m_rpt : Part.rpt ∈ w) (m_sch : Part.sch ∈ w) (m_trig : Part.trig ∈ w) (h : Keeps w s₀ s) :
    ∃ t, execFreezeQuantumStart x1 s = .next t ∧ Keeps w s₀ t := by
  refine ⟨_, rfl, ?_⟩
  repeat' first
    | intro _
    | with_reducible assumption
    | with_reducible (first | apply Keeps.ite | apply bump_keeps | apply advanceTo_keeps | apply setTen_keeps | apply thaw_keeps | apply holdBeats_keeps | apply slipStop_keeps)
    | split
    | dsimp only

theorem execFreezeQuantumEnd_keeps {w : List Part} {s₀ : State} {x1} {s} (m_clk : Part.clk ∈ w) (m_regs : Part.regs ∈ w) (m_rel : Part.rel ∈ w) (m_sch : Part.sch ∈ w) (m_trig : Part.trig ∈ w) (h : Keeps w s₀ s) :
    ∃ t, execFreezeQuantumEnd x1 s = .next t ∧ Keeps w s₀ t := by
  refine ⟨_, rfl, ?_⟩
  repeat' first
    | intro _
    | with_reducible assumption
    | with_reducible (first | apply Keeps.ite | apply thaw_keeps)
    | split
    | dsimp only

theorem execSlipLimitStop_keeps {w : List Part} {s₀ : State} {x1} {s} (m_clk : Part.clk ∈ w) (m_host : Part.host ∈ w) (m_log : Part.log ∈ w) (m_regs : Part.regs ∈ w) (m_rel : Part.rel ∈ w) (m_rpt : Part.rpt ∈ w) (m_sch : Part.sch ∈ w) (m_trig : Part.trig ∈ w) (h : Keeps w s₀ s) :
    ∃ t, execSlipLimitStop x1 s = .next t ∧ Keeps w s₀ t := by
  refine ⟨_, rfl, ?_⟩
  repeat' first
    | intro _
    | with_reducible assumption
    | with_reducible (first | apply Keeps.ite | apply thaw_keeps | apply slipStop_keeps)
    | split
    | dsimp only

theorem execFabPkgInfoWrite_keeps {w : List Part} {s₀ : State} {v} {s} (m_log : Part.log ∈ w) (m_regs : Part.regs ∈ w) (m_rel : Part.rel ∈ w) (h : Keeps w s₀ s) :
    ∃ t, execFabPkgInfoWrite v s = .next t ∧ Keeps w s₀ t := by
  refine ⟨_, rfl, ?_⟩
  repeat' first
    | intro _
    | with_reducible assumption
    | with_reducible (first | apply Keeps.ite | apply softWrite_keeps | apply log_keeps)
    | split
    | dsimp only

theorem execTwinMapWrite_keeps {w : List Part} {s₀ : State} {v} {s} (m_regs : Part.regs ∈ w) (h : Keeps w s₀ s) :
    ∃ t, execTwinMapWrite v s = .next t ∧ Keeps w s₀ t := by
  refine ⟨_, rfl, ?_⟩
  repeat' first
    | intro _
    | with_reducible assumption
    | with_reducible (first | apply Keeps.ite | apply Keeps.foldl | apply Keeps.foldl_fst | apply Keeps.foldl_snd | apply wrReg_keeps | apply setFld_keeps)
    | split
    | dsimp only

theorem execPhaseOwnerWrite_keeps {w : List Part} {s₀ : State} {tile} {port} {hi} {v} {s} (m_regs : Part.regs ∈ w) (h : Keeps w s₀ s) :
    ∃ t, execPhaseOwnerWrite tile port hi v s = .next t ∧ Keeps w s₀ t := by
  refine ⟨_, rfl, ?_⟩
  repeat' first
    | intro _
    | with_reducible assumption
    | with_reducible (first | apply Keeps.ite | apply wrReg_keeps)
    | split
    | dsimp only

theorem execMepDescOwnerWrite_keeps {w : List Part} {s₀ : State} {mep} {k} {v} {s} (m_regs : Part.regs ∈ w) (h : Keeps w s₀ s) :
    ∃ t, execMepDescOwnerWrite mep k v s = .next t ∧ Keeps w s₀ t := by
  refine ⟨_, rfl, ?_⟩
  repeat' first
    | intro _
    | with_reducible assumption
    | with_reducible (first | apply Keeps.ite | apply wrReg_keeps)
    | split
    | dsimp only

theorem execStreamDescWrite_keeps {w : List Part} {s₀ : State} {b} {slot} {v} {s} (m_bus : Part.bus ∈ w) (m_regs : Part.regs ∈ w) (h : Keeps w s₀ s) :
    ∃ t, execStreamDescWrite b slot v s = .next t ∧ Keeps w s₀ t := by
  refine ⟨_, rfl, ?_⟩
  repeat' first
    | intro _
    | with_reducible assumption
    | with_reducible (first | apply Keeps.ite | apply Keeps.foldl | apply Keeps.foldl_fst | apply Keeps.foldl_snd | apply wrReg_keeps)
    | with_reducible (first | fail_if_no_progress apply Keeps.bus m_bus)
    | split
    | dsimp only

/-! ### Machine/Arbiter.lean -/

theorem setTokens_keeps {w : List Part} {s₀ : State} {s} {a} {r} {v} (m_arb : Part.arb ∈ w) (m_regs : Part.regs ∈ w) (h : Keeps w s₀ s) :
    Keeps w s₀ (setTokens s a r v) := by
  unfold setTokens
  repeat' first
    | intro _
    | with_reducible assumption
    | with_reducible (first | apply Keeps.ite | apply setFld_keeps)
    | with_reducible (first | fail_if_no_progress apply Keeps.arb m_arb)
    | split
    | dsimp only

theorem arbPace_keeps {w : List Part} {s₀ : State} {s} {a} (m_arb : Part.arb ∈ w) (h : Keeps w s₀ s) :
    Keeps w s₀ (arbPace s a) := by
  unfold arbPace
  repeat' first
    | intro _
    | with_reducible assumption
    | with_reducible (first | apply Keeps.ite | apply setRun_keeps)
    | split
    | dsimp only

theorem setGate_keeps {w : List Part} {s₀ : State} {s} {b} {x} (m_arb : Part.arb ∈ w) (h : Keeps w s₀ s) :
    Keeps w s₀ (setGate s b x) := by
  unfold setGate
  repeat' first
    | intro _
    | with_reducible assumption
    | with_reducible (first | apply Keeps.ite)
    | with_reducible (first | fail_if_no_progress apply Keeps.arb m_arb)
    | split
    | dsimp only

theorem countGrain_keeps {w : List Part} {s₀ : State} {s} {a} {owned} (m_regs : Part.regs ∈ w) (h : Keeps w s₀ s) :
    Keeps w s₀ (countGrain s a owned) := by
  unfold countGrain
  repeat' first
    | intro _
    | with_reducible assumption
    | with_reducible (first | apply Keeps.ite | apply bump_keeps)
    | split
    | dsimp only

theorem ownerGrain_keeps {w : List Part} {s₀ : State} {s} {a} {x} {x4} (m_arb : Part.arb ∈ w) (m_regs : Part.regs ∈ w) (h : Keeps w s₀ s) :
    Keeps w s₀ (ownerGrain s a x x4) := by
  unfold ownerGrain
  repeat' first
    | intro _
    | with_reducible assumption
    | with_reducible (first | apply Keeps.ite | apply bump_keeps | apply setRun_keeps | apply countGrain_keeps)
    | split
    | dsimp only

theorem chargeRound_keeps {w : List Part} {s₀ : State} {s} {a} {es} {x4} (m_arb : Part.arb ∈ w) (m_regs : Part.regs ∈ w) (h : Keeps w s₀ s) :
    Keeps w s₀ (chargeRound s a es x4) := by
  unfold chargeRound
  repeat' first
    | intro _
    | with_reducible assumption
    | with_reducible (first | apply Keeps.ite | apply Keeps.foldl | apply Keeps.foldl_fst | apply Keeps.foldl_snd | apply setFld_keeps | apply setTokens_keeps)
    | split
    | dsimp only

theorem roundStep_keeps {w : List Part} {s₀ : State} {s} {a} {x} {reqs} (m_arb : Part.arb ∈ w) (m_regs : Part.regs ∈ w) (h : Keeps w s₀ s) :
    Keeps w s₀ (roundStep s a x reqs) := by
  unfold roundStep
  repeat' first
    | intro _
    | with_reducible assumption
    | with_reducible (first | apply Keeps.ite | apply Keeps.foldl | apply Keeps.foldl_fst | apply Keeps.foldl_snd | apply setRun_keeps | apply countGrain_keeps | apply chargeRound_keeps)
    | split
    | dsimp only

theorem parkNow_keeps {w : List Part} {s₀ : State} {s} {a} {x} {c} (m_arb : Part.arb ∈ w) (m_regs : Part.regs ∈ w) (h : Keeps w s₀ s) :
    Keeps w s₀ (parkNow s a x c) := by
  unfold parkNow
  repeat' first
    | intro _
    | with_reducible assumption
    | with_reducible (first | apply Keeps.ite | apply bump_keeps | apply setRun_keeps)
    | split
    | dsimp only

theorem biteVictim_keeps {w : List Part} {s₀ : State} {s} {q} (m_dyn : Part.dyn ∈ w) (m_free : Part.free ∈ w) (m_host : Part.host ∈ w) (m_lane : Part.lane ∈ w) (m_obs : Part.obs ∈ w) (m_regs : Part.regs ∈ w) (m_rel : Part.rel ∈ w) (h : Keeps w s₀ s) :
    Keeps w s₀ (biteVictim s q) := by
  unfold biteVictim
  repeat' first
    | intro _
    | with_reducible assumption
    | with_reducible (first | apply Keeps.ite | apply takeNet_keeps | apply rspTo_keeps | apply useGrant_keeps | apply updCmd_keeps)
    | split
    | dsimp only

theorem bundleBitten_keeps {w : List Part} {s₀ : State} {s} {a} {q} (m_rte : Part.rte ∈ w) (h : Keeps w s₀ s) :
    Keeps w s₀ (bundleBitten s a q) := by
  unfold bundleBitten
  repeat' first
    | intro _
    | with_reducible assumption
    | with_reducible (first | apply Keeps.ite | apply Keeps.same_id)
    | with_reducible (first | fail_if_no_progress apply Keeps.rte m_rte)
    | split
    | dsimp only

theorem bite_keeps {w : List Part} {s₀ : State} {s} {a} {c} (m_arb : Part.arb ∈ w) (m_dyn : Part.dyn ∈ w) (m_free : Part.free ∈ w) (m_host : Part.host ∈ w) (m_lane : Part.lane ∈ w) (m_log : Part.log ∈ w) (m_obs : Part.obs ∈ w) (m_regs : Part.regs ∈ w) (m_rel : Part.rel ∈ w) (m_rte : Part.rte ∈ w) (h : Keeps w s₀ s) :
    Keeps w s₀ (bite s a c) := by
  unfold bite
  repeat' first
    | intro _
    | with_reducible assumption
    | with_reducible (first | apply Keeps.ite | apply bump_keeps | apply injFire_keeps | apply log_keeps | apply setRun_keeps | apply biteVictim_keeps | apply bundleBitten_keeps)
    | split
    | dsimp only

theorem lockCycle_keeps {w : List Part} {s₀ : State} {s} {a} (m_arb : Part.arb ∈ w) (m_dyn : Part.dyn ∈ w) (m_free : Part.free ∈ w) (m_host : Part.host ∈ w) (m_lane : Part.lane ∈ w) (m_log : Part.log ∈ w) (m_obs : Part.obs ∈ w) (m_regs : Part.regs ∈ w) (m_rel : Part.rel ∈ w) (m_rte : Part.rte ∈ w) (h : Keeps w s₀ s) :
    Keeps w s₀ (lockCycle s a) := by
  unfold lockCycle
  repeat' first
    | intro _
    | with_reducible assumption
    | with_reducible (first | apply Keeps.ite | apply setRun_keeps | apply bite_keeps)
    | split
    | dsimp only

theorem lockedGrain_keeps {w : List Part} {s₀ : State} {s} {a} {x} {c} {reqs} {own} (m_arb : Part.arb ∈ w) (m_regs : Part.regs ∈ w) (h : Keeps w s₀ s) :
    Keeps w s₀ (lockedGrain s a x c reqs own) := by
  unfold lockedGrain
  repeat' first
    | intro _
    | with_reducible assumption
    | with_reducible (first | apply Keeps.ite | apply bump_keeps | apply setRun_keeps | apply countGrain_keeps)
    | split
    | dsimp only

theorem decideCycle_keeps {w : List Part} {s₀ : State} {s} {a} {reqs} (m_arb : Part.arb ∈ w) (m_regs : Part.regs ∈ w) (h : Keeps w s₀ s) :
    Keeps w s₀ (decideCycle s a reqs) := by
  unfold decideCycle
  repeat' first
    | intro _
    | with_reducible assumption
    | with_reducible (first | apply Keeps.ite | apply setRun_keeps | apply countGrain_keeps | apply ownerGrain_keeps | apply roundStep_keeps | apply lockedGrain_keeps)
    | split
    | dsimp only

theorem idleCycle_keeps {w : List Part} {s₀ : State} {s} {a} {before} {reqs} (m_arb : Part.arb ∈ w) (m_regs : Part.regs ∈ w) (h : Keeps w s₀ s) :
    Keeps w s₀ (idleCycle s a before reqs) := by
  unfold idleCycle
  repeat' first
    | intro _
    | with_reducible assumption
    | with_reducible (first | apply Keeps.ite | apply setRun_keeps | apply parkNow_keeps)
    | split
    | dsimp only

theorem arbPass_keeps {w : List Part} {s₀ : State} {s} {a} {k} (m_arb : Part.arb ∈ w) (m_clk : Part.clk ∈ w) (m_dyn : Part.dyn ∈ w) (m_free : Part.free ∈ w) (m_host : Part.host ∈ w) (m_lane : Part.lane ∈ w) (m_log : Part.log ∈ w) (m_obs : Part.obs ∈ w) (m_regs : Part.regs ∈ w) (m_rel : Part.rel ∈ w) (m_rte : Part.rte ∈ w) (m_trig : Part.trig ∈ w) (h : Keeps w s₀ s) :
    Keeps w s₀ (arbPass s a k) := by
  unfold arbPass
  repeat' first
    | intro _
    | with_reducible assumption
    | with_reducible (first | apply Keeps.ite | apply advanceTo_keeps | apply setRun_keeps | apply parkNow_keeps | apply bite_keeps)
    | split
    | dsimp only

theorem arbTo_keeps {w : List Part} {s₀ : State} {s} {a} {n} (m_arb : Part.arb ∈ w) (m_clk : Part.clk ∈ w) (m_dyn : Part.dyn ∈ w) (m_free : Part.free ∈ w) (m_host : Part.host ∈ w) (m_lane : Part.lane ∈ w) (m_log : Part.log ∈ w) (m_obs : Part.obs ∈ w) (m_regs : Part.regs ∈ w) (m_rel : Part.rel ∈ w) (m_rte : Part.rte ∈ w) (m_trig : Part.trig ∈ w) (h : Keeps w s₀ s) :
    Keeps w s₀ (arbTo s a n) := by
  unfold arbTo
  repeat' first
    | intro _
    | with_reducible assumption
    | with_reducible (first | apply Keeps.ite | apply advanceTo_keeps | apply setRun_keeps | apply arbPass_keeps)
    | split
    | dsimp only

theorem arbBegin_keeps {w : List Part} {s₀ : State} {s} {a} (m_arb : Part.arb ∈ w) (m_clk : Part.clk ∈ w) (m_dyn : Part.dyn ∈ w) (m_free : Part.free ∈ w) (m_host : Part.host ∈ w) (m_lane : Part.lane ∈ w) (m_log : Part.log ∈ w) (m_obs : Part.obs ∈ w) (m_regs : Part.regs ∈ w) (m_rel : Part.rel ∈ w) (m_rte : Part.rte ∈ w) (m_trig : Part.trig ∈ w) (h : Keeps w s₀ s) :
    Keeps w s₀ (arbBegin s a) := by
  unfold arbBegin
  repeat' first
    | intro _
    | with_reducible assumption
    | with_reducible (first | apply Keeps.ite | apply arbTo_keeps)
    | split
    | dsimp only

theorem arbEnd_keeps {w : List Part} {s₀ : State} {s} {a} (m_arb : Part.arb ∈ w) (h : Keeps w s₀ s) :
    Keeps w s₀ (arbEnd s a) := by
  unfold arbEnd
  repeat' first
    | intro _
    | with_reducible assumption
    | with_reducible (first | apply Keeps.ite | apply setRun_keeps)
    | split
    | dsimp only

theorem arbDecide_keeps {w : List Part} {s₀ : State} {s} {a} {reqs} {accept} (m_arb : Part.arb ∈ w) (m_dyn : Part.dyn ∈ w) (m_free : Part.free ∈ w) (m_host : Part.host ∈ w) (m_lane : Part.lane ∈ w) (m_log : Part.log ∈ w) (m_obs : Part.obs ∈ w) (m_regs : Part.regs ∈ w) (m_rel : Part.rel ∈ w) (m_rte : Part.rte ∈ w) (h : Keeps w s₀ s) :
    Keeps w s₀ (arbDecide s a reqs accept) := by
  unfold arbDecide
  repeat' first
    | intro _
    | with_reducible assumption
    | with_reducible (first | apply Keeps.ite | apply setRun_keeps | apply bite_keeps | apply lockCycle_keeps | apply decideCycle_keeps | apply idleCycle_keeps | apply arbEnd_keeps)
    | split
    | dsimp only

theorem execCreditRefill_keeps {w : List Part} {s₀ : State} {a} {s} (m_arb : Part.arb ∈ w) (m_clk : Part.clk ∈ w) (m_dyn : Part.dyn ∈ w) (m_free : Part.free ∈ w) (m_host : Part.host ∈ w) (m_lane : Part.lane ∈ w) (m_log : Part.log ∈ w) (m_obs : Part.obs ∈ w) (m_regs : Part.regs ∈ w) (m_rel : Part.rel ∈ w) (m_rte : Part.rte ∈ w) (m_trig : Part.trig ∈ w) (h : Keeps w s₀ s) :
    ∃ t, execCreditRefill a s = .next t ∧ Keeps w s₀ t := by
  refine ⟨_, rfl, ?_⟩
  repeat' first
    | intro _
    | with_reducible assumption
    | with_reducible (first | apply Keeps.ite | apply Keeps.foldl | apply Keeps.foldl_fst | apply Keeps.foldl_snd | apply setFld_keeps | apply setRun_keeps | apply arbTo_keeps)
    | split
    | dsimp only

theorem execTransferPark_keeps {w : List Part} {s₀ : State} {a} {s} (m_arb : Part.arb ∈ w) (m_clk : Part.clk ∈ w) (m_dyn : Part.dyn ∈ w) (m_free : Part.free ∈ w) (m_host : Part.host ∈ w) (m_lane : Part.lane ∈ w) (m_log : Part.log ∈ w) (m_obs : Part.obs ∈ w) (m_regs : Part.regs ∈ w) (m_rel : Part.rel ∈ w) (m_rte : Part.rte ∈ w) (m_trig : Part.trig ∈ w) (h : Keeps w s₀ s) :
    ∃ t, execTransferPark a s = .next t ∧ Keeps w s₀ t := by
  refine ⟨_, rfl, ?_⟩
  repeat' first
    | intro _
    | with_reducible assumption
    | with_reducible (first | apply Keeps.ite | apply parkNow_keeps | apply arbBegin_keeps | apply arbEnd_keeps)
    | split
    | dsimp only

theorem execWatchdogBite_keeps {w : List Part} {s₀ : State} {a} {s} (m_arb : Part.arb ∈ w) (m_clk : Part.clk ∈ w) (m_dyn : Part.dyn ∈ w) (m_free : Part.free ∈ w) (m_host : Part.host ∈ w) (m_lane : Part.lane ∈ w) (m_log : Part.log ∈ w) (m_obs : Part.obs ∈ w) (m_regs : Part.regs ∈ w) (m_rel : Part.rel ∈ w) (m_rte : Part.rte ∈ w) (m_trig : Part.trig ∈ w) (h : Keeps w s₀ s) :
    ∃ t, execWatchdogBite a s = .next t ∧ Keeps w s₀ t := by
  refine ⟨_, rfl, ?_⟩
  repeat' first
    | intro _
    | with_reducible assumption
    | with_reducible (first | apply Keeps.ite | apply bite_keeps | apply arbTo_keeps | apply arbEnd_keeps)
    | split
    | dsimp only

theorem starve_keeps {w : List Part} {s₀ : State} {s} {a} {r} (m_arb : Part.arb ∈ w) (m_regs : Part.regs ∈ w) (h : Keeps w s₀ s) :
    Keeps w s₀ (starve s a r) := by
  unfold starve
  repeat' first
    | intro _
    | with_reducible assumption
    | with_reducible (first | apply Keeps.ite | apply bump_keeps | apply raise_keeps)
    | with_reducible (first | fail_if_no_progress apply Keeps.arb m_arb)
    | split
    | dsimp only

theorem execArbStarvation_keeps {w : List Part} {s₀ : State} {a} {r} {s} (m_arb : Part.arb ∈ w) (m_regs : Part.regs ∈ w) (h : Keeps w s₀ s) :
    ∃ t, execArbStarvation a r s = .next t ∧ Keeps w s₀ t := by
  refine ⟨_, rfl, ?_⟩
  repeat' first
    | intro _
    | with_reducible assumption
    | with_reducible (first | apply Keeps.ite | apply starve_keeps)
    | split
    | dsimp only

theorem setMemo_keeps {w : List Part} {s₀ : State} {s} {a} {r} {m} (m_arb : Part.arb ∈ w) (h : Keeps w s₀ s) :
    Keeps w s₀ (setMemo s a r m) := by
  unfold setMemo
  repeat' first
    | intro _
    | with_reducible assumption
    | with_reducible (first | apply Keeps.ite)
    | with_reducible (first | fail_if_no_progress apply Keeps.arb m_arb)
    | split
    | dsimp only

theorem loopWeight_keeps {w : List Part} {s₀ : State} {s} {a} {r} {v} (m_arb : Part.arb ∈ w) (m_regs : Part.regs ∈ w) (h : Keeps w s₀ s) :
    Keeps w s₀ (loopWeight s a r v) := by
  unfold loopWeight
  repeat' first
    | intro _
    | with_reducible assumption
    | with_reducible (first | apply Keeps.ite | apply setFld_keeps | apply setMemo_keeps)
    | split
    | dsimp only

theorem starveReport_keeps {w : List Part} {s₀ : State} {s} {a} {r} {own} (m_host : Part.host ∈ w) (m_log : Part.log ∈ w) (m_rel : Part.rel ∈ w) (m_rpt : Part.rpt ∈ w) (h : Keeps w s₀ s) :
    Keeps w s₀ (starveReport s a r own) := by
  unfold starveReport
  repeat' first
    | intro _
    | with_reducible assumption
    | with_reducible (first | apply Keeps.ite | apply report_keeps | apply logKept_keeps)
    | refine Keeps.of_fst (by with_reducible assumption) ?_
    | split
    | dsimp only

theorem execStarvationPolicy_keeps {w : List Part} {s₀ : State} {a} {r} {s} (m_arb : Part.arb ∈ w) (m_host : Part.host ∈ w) (m_log : Part.log ∈ w) (m_regs : Part.regs ∈ w) (m_rel : Part.rel ∈ w) (m_rpt : Part.rpt ∈ w) (h : Keeps w s₀ s) :
    ∃ t, execStarvationPolicy a r s = .next t ∧ Keeps w s₀ t := by
  refine ⟨_, rfl, ?_⟩
  repeat' first
    | intro _
    | with_reducible assumption
    | with_reducible (first | apply Keeps.ite | apply softWrite_keeps | apply setMemo_keeps | apply loopWeight_keeps | apply starveReport_keeps)
    | split
    | dsimp only

theorem execWeightRestore_keeps {w : List Part} {s₀ : State} {a} {r} {s} (m_arb : Part.arb ∈ w) (m_clk : Part.clk ∈ w) (m_regs : Part.regs ∈ w) (m_rel : Part.rel ∈ w) (m_trig : Part.trig ∈ w) (h : Keeps w s₀ s) :
    ∃ t, execWeightRestore a r s = .next t ∧ Keeps w s₀ t := by
  refine ⟨_, rfl, ?_⟩
  repeat' first
    | intro _
    | with_reducible assumption
    | with_reducible (first | apply Keeps.ite | apply setFld_keeps | apply advanceTo_keeps | apply setMemo_keeps)
    | split
    | dsimp only

theorem execArbArm_keeps {w : List Part} {s₀ : State} {a} {time} {s} (m_arb : Part.arb ∈ w) (m_regs : Part.regs ∈ w) (h : Keeps w s₀ s) :
    ∃ t, execArbArm a time s = .next t ∧ Keeps w s₀ t := by
  refine ⟨_, rfl, ?_⟩
  repeat' first
    | intro _
    | with_reducible assumption
    | with_reducible (first | apply Keeps.ite | apply setFld_keeps | apply setRun_keeps)
    | split
    | dsimp only

theorem arbDrop_keeps {w : List Part} {s₀ : State} {s} {a} (m_arb : Part.arb ∈ w) (m_regs : Part.regs ∈ w) (h : Keeps w s₀ s) :
    Keeps w s₀ (arbDrop s a) := by
  unfold arbDrop
  repeat' first
    | intro _
    | with_reducible assumption
    | with_reducible (first | apply Keeps.ite | apply setFld_keeps | apply setRun_keeps)
    | split
    | dsimp only

theorem execArbDisarm_keeps {w : List Part} {s₀ : State} {a} {s} (m_arb : Part.arb ∈ w) (m_regs : Part.regs ∈ w) (h : Keeps w s₀ s) :
    ∃ t, execArbDisarm a s = .next t ∧ Keeps w s₀ t := by
  refine ⟨_, rfl, ?_⟩
  repeat' first
    | intro _
    | with_reducible assumption
    | with_reducible (first | apply Keeps.ite | apply arbDrop_keeps)
    | split
    | dsimp only

theorem execArbArmCheckDone_keeps {w : List Part} {s₀ : State} {a} {s} (m_arb : Part.arb ∈ w) (m_regs : Part.regs ∈ w) (h : Keeps w s₀ s) :
    ∃ t, execArbArmCheckDone a s = .next t ∧ Keeps w s₀ t := by
  refine ⟨_, rfl, ?_⟩
  repeat' first
    | intro _
    | with_reducible assumption
    | with_reducible (first | apply Keeps.ite | apply setFld_keeps | apply setRun_keeps)
    | split
    | dsimp only

theorem execSlotTableSwitch_keeps {w : List Part} {s₀ : State} {a} {s} (m_arb : Part.arb ∈ w) (m_clk : Part.clk ∈ w) (m_dyn : Part.dyn ∈ w) (m_free : Part.free ∈ w) (m_host : Part.host ∈ w) (m_lane : Part.lane ∈ w) (m_log : Part.log ∈ w) (m_obs : Part.obs ∈ w) (m_regs : Part.regs ∈ w) (m_rel : Part.rel ∈ w) (m_rte : Part.rte ∈ w) (m_trig : Part.trig ∈ w) (h : Keeps w s₀ s) :
    ∃ t, execSlotTableSwitch a s = .next t ∧ Keeps w s₀ t := by
  refine ⟨_, rfl, ?_⟩
  repeat' first
    | intro _
    | with_reducible assumption
    | with_reducible (first | apply Keeps.ite | apply setFld_keeps | apply arbTo_keeps)
    | split
    | dsimp only

theorem execShaperRefill_keeps {w : List Part} {s₀ : State} {a} {r} {s} (m_arb : Part.arb ∈ w) (m_clk : Part.clk ∈ w) (m_regs : Part.regs ∈ w) (m_rel : Part.rel ∈ w) (m_trig : Part.trig ∈ w) (h : Keeps w s₀ s) :
    ∃ t, execShaperRefill a r s = .next t ∧ Keeps w s₀ t := by
  refine ⟨_, rfl, ?_⟩
  repeat' first
    | intro _
    | with_reducible assumption
    | with_reducible (first | apply Keeps.ite | apply advanceTo_keeps | apply setTokens_keeps)
    | with_reducible (first | fail_if_no_progress apply Keeps.arb m_arb)
    | split
    | dsimp only

theorem execShaperEnable_keeps {w : List Part} {s₀ : State} {a} {r} {v} {s} (m_arb : Part.arb ∈ w) (m_regs : Part.regs ∈ w) (h : Keeps w s₀ s) :
    ∃ t, execShaperEnable a r v s = .next t ∧ Keeps w s₀ t := by
  refine ⟨_, rfl, ?_⟩
  repeat' first
    | intro _
    | with_reducible assumption
    | with_reducible (first | apply Keeps.ite | apply softWrite_keeps | apply setTokens_keeps)
    | split
    | dsimp only

theorem execGateArm_keeps {w : List Part} {s₀ : State} {b} {time} {s} (m_arb : Part.arb ∈ w) (m_regs : Part.regs ∈ w) (h : Keeps w s₀ s) :
    ∃ t, execGateArm b time s = .next t ∧ Keeps w s₀ t := by
  refine ⟨_, rfl, ?_⟩
  repeat' first
    | intro _
    | with_reducible assumption
    | with_reducible (first | apply Keeps.ite | apply setFld_keeps | apply setGate_keeps)
    | split
    | dsimp only

theorem gateDrop_keeps {w : List Part} {s₀ : State} {s} {b} (m_arb : Part.arb ∈ w) (m_regs : Part.regs ∈ w) (h : Keeps w s₀ s) :
    Keeps w s₀ (gateDrop s b) := by
  unfold gateDrop
  repeat' first
    | intro _
    | with_reducible assumption
    | with_reducible (first | apply Keeps.ite | apply setFld_keeps | apply setGate_keeps)
    | split
    | dsimp only

theorem execGateDisarm_keeps {w : List Part} {s₀ : State} {b} {s} (m_arb : Part.arb ∈ w) (m_regs : Part.regs ∈ w) (h : Keeps w s₀ s) :
    ∃ t, execGateDisarm b s = .next t ∧ Keeps w s₀ t := by
  refine ⟨_, rfl, ?_⟩
  repeat' first
    | intro _
    | with_reducible assumption
    | with_reducible (first | apply Keeps.ite | apply gateDrop_keeps)
    | split
    | dsimp only

theorem execGateArmCheckDone_keeps {w : List Part} {s₀ : State} {b} {s} (m_arb : Part.arb ∈ w) (m_regs : Part.regs ∈ w) (h : Keeps w s₀ s) :
    ∃ t, execGateArmCheckDone b s = .next t ∧ Keeps w s₀ t := by
  refine ⟨_, rfl, ?_⟩
  repeat' first
    | intro _
    | with_reducible assumption
    | with_reducible (first | apply Keeps.ite | apply setFld_keeps | apply setGate_keeps)
    | split
    | dsimp only

theorem execGateTakeover_keeps {w : List Part} {s₀ : State} {b} {s} (m_arb : Part.arb ∈ w) (m_clk : Part.clk ∈ w) (m_regs : Part.regs ∈ w) (m_rel : Part.rel ∈ w) (m_trig : Part.trig ∈ w) (h : Keeps w s₀ s) :
    ∃ t, execGateTakeover b s = .next t ∧ Keeps w s₀ t := by
  refine ⟨_, rfl, ?_⟩
  repeat' first
    | intro _
    | with_reducible assumption
    | with_reducible (first | apply Keeps.ite | apply setFld_keeps | apply advanceTo_keeps | apply setGate_keeps)
    | split
    | dsimp only

theorem execGateEntryAdvance_keeps {w : List Part} {s₀ : State} {b} {s} (m_arb : Part.arb ∈ w) (m_clk : Part.clk ∈ w) (m_regs : Part.regs ∈ w) (m_rel : Part.rel ∈ w) (m_trig : Part.trig ∈ w) (h : Keeps w s₀ s) :
    ∃ t, execGateEntryAdvance b s = .next t ∧ Keeps w s₀ t := by
  refine ⟨_, rfl, ?_⟩
  repeat' first
    | intro _
    | with_reducible assumption
    | with_reducible (first | apply Keeps.ite | apply advanceTo_keeps | apply setGate_keeps)
    | split
    | dsimp only

end Sys2Proof.Machine
end

