-- ==== Sys2Proof/Laws/FrameLane.lean ====
section
/-!
SUPPORT. What each operation of Machine/Lane.lean can touch: one lemma an operation,
that composes with the lemmas of its callers.
-/
namespace Sys2Proof.Machine

set_option linter.unusedTactic false
set_option linter.unreachableTactic false

/-! ### Machine/Lane.lean -/

theorem setLane_keeps {w : List Part} {s₀ : State} {s} {n} {r} (m_lane : Part.lane ∈ w) (h : Keeps w s₀ s) :
    Keeps w s₀ (setLane s n r) := by
  unfold setLane
  repeat' first
    | intro _
    | with_reducible assumption
    | with_reducible (first | apply Keeps.ite)
    | with_reducible (first | fail_if_no_progress apply Keeps.lane m_lane)
    | split
    | dsimp only

theorem setWidth_keeps {w : List Part} {s₀ : State} {s} {n} {x3} (m_arb : Part.arb ∈ w) (m_regs : Part.regs ∈ w) (h : Keeps w s₀ s) :
    Keeps w s₀ (setWidth s n x3) := by
  unfold setWidth
  repeat' first
    | intro _
    | with_reducible assumption
    | with_reducible (first | apply Keeps.ite | apply setFld_keeps | apply arbPace_keeps)
    | split
    | dsimp only

theorem toState_keeps {w : List Part} {s₀ : State} {s} {n} {v} (m_arb : Part.arb ∈ w) (m_lane : Part.lane ∈ w) (m_regs : Part.regs ∈ w) (h : Keeps w s₀ s) :
    Keeps w s₀ (toState s n v) := by
  unfold toState
  repeat' first
    | intro _
    | with_reducible assumption
    | with_reducible (first | apply Keeps.ite | apply Keeps.foldl | apply Keeps.foldl_fst | apply Keeps.foldl_snd | apply wrReg_keeps | apply setFld_keeps | apply setLane_keeps | apply setWidth_keeps)
    | split
    | dsimp only

theorem lastErr_keeps {w : List Part} {s₀ : State} {s} {n} {v} (m_regs : Part.regs ∈ w) (h : Keeps w s₀ s) :
    Keeps w s₀ (lastErr s n v) := by
  unfold lastErr
  repeat' first
    | intro _
    | with_reducible assumption
    | with_reducible (first | apply Keeps.ite | apply setFld_keeps)
    | split
    | dsimp only

theorem laneLog_keeps {w : List Part} {s₀ : State} {s} {n} {cls} (m_log : Part.log ∈ w) (m_rel : Part.rel ∈ w) (h : Keeps w s₀ s) :
    Keeps w s₀ (laneLog s n cls) := by
  unfold laneLog
  repeat' first
    | intro _
    | with_reducible assumption
    | with_reducible (first | apply Keeps.ite | apply log_keeps)
    | split
    | dsimp only

theorem linkCount_keeps {w : List Part} {s₀ : State} {s} {n} {f} (m_regs : Part.regs ∈ w) (h : Keeps w s₀ s) :
    Keeps w s₀ (linkCount s n f) := by
  unfold linkCount
  repeat' first
    | intro _
    | with_reducible assumption
    | with_reducible (first | apply Keeps.ite | apply bump_keeps)
    | split
    | dsimp only

theorem laneOut_keeps {w : List Part} {s₀ : State} {s} {n} {o} (m_lane : Part.lane ∈ w) (h : Keeps w s₀ s) :
    Keeps w s₀ (laneOut s n o) := by
  unfold laneOut
  repeat' first
    | intro _
    | with_reducible assumption
    | with_reducible (first | apply Keeps.ite | apply setLane_keeps)
    | split
    | dsimp only

theorem rxMove_keeps {w : List Part} {s₀ : State} {s} {n} {cs} (m_lane : Part.lane ∈ w) (h : Keeps w s₀ s) :
    Keeps w s₀ (rxMove s n cs) := by
  unfold rxMove
  repeat' first
    | intro _
    | with_reducible assumption
    | with_reducible (first | apply Keeps.ite | apply setLane_keeps)
    | split
    | dsimp only

theorem rxCols_keeps {w : List Part} {s₀ : State} {s} {n} {cols} {cs} (m_lane : Part.lane ∈ w) (m_regs : Part.regs ∈ w) (h : Keeps w s₀ s) :
    Keeps w s₀ (rxCols s n cols cs).1 := by
  unfold rxCols
  repeat' first
    | intro _
    | with_reducible assumption
    | with_reducible (first | apply Keeps.ite_fst | apply Keeps.ite | apply Keeps.foldl | apply Keeps.foldl_fst | apply Keeps.foldl_snd | apply bump_keeps | apply setLane_keeps)
    | split
    | dsimp only

theorem rejectBlk_keeps {w : List Part} {s₀ : State} {s} {n} (m_lane : Part.lane ∈ w) (m_regs : Part.regs ∈ w) (h : Keeps w s₀ s) :
    Keeps w s₀ (rejectBlk s n) := by
  unfold rejectBlk
  repeat' first
    | intro _
    | with_reducible assumption
    | with_reducible (first | apply Keeps.ite | apply setLane_keeps | apply linkCount_keeps)
    | split
    | dsimp only

theorem ctlJudge_keeps {w : List Part} {s₀ : State} {s} {n} {kind} {clean} {cs} (m_lane : Part.lane ∈ w) (m_regs : Part.regs ∈ w) (h : Keeps w s₀ s) :
    Keeps w s₀ (ctlJudge s n kind clean cs).1 := by
  unfold ctlJudge
  repeat' first
    | intro _
    | with_reducible assumption
    | with_reducible (first | apply Keeps.ite_fst | apply Keeps.ite | apply linkCount_keeps | apply rejectBlk_keeps)
    | split
    | dsimp only

theorem rxIdles_keeps {w : List Part} {s₀ : State} {s} {n} {l} (m_lane : Part.lane ∈ w) (m_regs : Part.regs ∈ w) (h : Keeps w s₀ s) :
    Keeps w s₀ (rxIdles s n l) := by
  unfold rxIdles
  repeat' first
    | intro _
    | with_reducible assumption
    | with_reducible (first | apply Keeps.ite | apply Keeps.foldl | apply Keeps.foldl_fst | apply Keeps.foldl_snd | apply rxMove_keeps | apply rxCols_keeps | apply ctlJudge_keeps)
    | refine Keeps.of_fst (by with_reducible assumption) ?_
    | split
    | dsimp only

theorem rxClean_keeps {w : List Part} {s₀ : State} {s} {n} {x3} {cs} (m_lane : Part.lane ∈ w) (m_regs : Part.regs ∈ w) (h : Keeps w s₀ s) :
    Keeps w s₀ (rxClean s n x3 cs) := by
  unfold rxClean
  repeat' first
    | intro _
    | with_reducible assumption
    | with_reducible (first | apply Keeps.ite | apply rxMove_keeps | apply rxIdles_keeps)
    | split
    | dsimp only

theorem rxCoded_keeps {w : List Part} {s₀ : State} {s} {n} {x3} {cs} (m_lane : Part.lane ∈ w) (m_regs : Part.regs ∈ w) (h : Keeps w s₀ s) :
    Keeps w s₀ (rxCoded s n x3 cs).1 := by
  unfold rxCoded
  repeat' first
    | intro _
    | with_reducible assumption
    | with_reducible (first | apply Keeps.ite_fst | apply Keeps.ite | apply rxCols_keeps | apply rxIdles_keeps)
    | refine Keeps.of_fst (by with_reducible assumption) ?_
    | split
    | dsimp only

theorem rxCtl_keeps {w : List Part} {s₀ : State} {s} {n} {b} (m_lane : Part.lane ∈ w) (m_regs : Part.regs ∈ w) (h : Keeps w s₀ s) :
    Keeps w s₀ (rxCtl s n b).1 := by
  unfold rxCtl
  repeat' first
    | intro _
    | with_reducible assumption
    | with_reducible (first | apply Keeps.ite_fst | apply Keeps.ite | apply linkCount_keeps | apply ctlJudge_keeps | apply rxClean_keeps | apply rxCoded_keeps)
    | refine Keeps.of_fst (by with_reducible assumption) ?_
    | split
    | dsimp only

theorem ctlIn_keeps {w : List Part} {s₀ : State} {s} {n} {kind} {b} {states} {k} (m_lane : Part.lane ∈ w) (m_regs : Part.regs ∈ w) (k6 : ∀ u y0, Keeps w s₀ u → Keeps w s₀ (k y0 u)) (h : Keeps w s₀ s) :
    Keeps w s₀ (ctlIn s n kind b states k) := by
  unfold ctlIn
  repeat' first
    | intro _
    | with_reducible assumption
    | with_reducible (first | apply Keeps.ite | apply k6 | apply linkCount_keeps | apply rxClean_keeps | apply rxCtl_keeps)
    | refine Keeps.of_fst (by with_reducible assumption) ?_
    | split
    | dsimp only

theorem injDone_keeps {w : List Part} {s₀ : State} {s} {n} (m_regs : Part.regs ∈ w) (h : Keeps w s₀ s) :
    Keeps w s₀ (injDone s n) := by
  unfold injDone
  repeat' first
    | intro _
    | with_reducible assumption
    | with_reducible (first | apply Keeps.ite | apply setFld_keeps)
    | split
    | dsimp only

theorem sendReplay_keeps {w : List Part} {s₀ : State} {s} {n} (m_lane : Part.lane ∈ w) (m_regs : Part.regs ∈ w) (h : Keeps w s₀ s) :
    Keeps w s₀ (sendReplay s n) := by
  unfold sendReplay
  repeat' first
    | intro _
    | with_reducible assumption
    | with_reducible (first | apply Keeps.ite | apply setLane_keeps | apply injDone_keeps)
    | split
    | dsimp only

theorem ctlOut_keeps {w : List Part} {s₀ : State} {s} {n} {r} {b} (m_lane : Part.lane ∈ w) (m_regs : Part.regs ∈ w) (h : Keeps w s₀ s) :
    Keeps w s₀ (ctlOut s n r b) := by
  unfold ctlOut
  repeat' first
    | intro _
    | with_reducible assumption
    | with_reducible (first | apply Keeps.ite | apply setLane_keeps | apply injDone_keeps)
    | split
    | dsimp only

theorem sendSp_keeps {w : List Part} {s₀ : State} {s} {n} {l} (m_coll : Part.coll ∈ w) (m_lane : Part.lane ∈ w) (m_regs : Part.regs ∈ w) (h : Keeps w s₀ s) :
    Keeps w s₀ (sendSp s n l) := by
  unfold sendSp
  repeat' first
    | intro _
    | with_reducible assumption
    | with_reducible (first | apply Keeps.ite | apply Keeps.foldl | apply Keeps.foldl_fst | apply Keeps.foldl_snd | apply injDone_keeps | apply ctlOut_keeps)
    | with_reducible (first | fail_if_no_progress apply Keeps.coll m_coll)
    | split
    | dsimp only

theorem laneTaken_keeps {w : List Part} {s₀ : State} {s} {n} (m_arb : Part.arb ∈ w) (h : Keeps w s₀ s) :
    Keeps w s₀ (laneTaken s n) := by
  unfold laneTaken
  repeat' first
    | intro _
    | with_reducible assumption
    | with_reducible (first | apply Keeps.ite | apply setRun_keeps)
    | split
    | dsimp only

theorem activeBlock_keeps {w : List Part} {s₀ : State} {s} {n} {vc} (m_arb : Part.arb ∈ w) (m_coll : Part.coll ∈ w) (m_lane : Part.lane ∈ w) (m_regs : Part.regs ∈ w) (h : Keeps w s₀ s) :
    Keeps w s₀ (activeBlock s n vc) := by
  unfold activeBlock
  repeat' first
    | intro _
    | with_reducible assumption
    | with_reducible (first | apply Keeps.ite | apply setLane_keeps | apply toState_keeps | apply laneOut_keeps | apply sendReplay_keeps | apply ctlOut_keeps | apply sendSp_keeps | apply laneTaken_keeps)
    | split
    | dsimp only

theorem laneAck_keeps {w : List Part} {s₀ : State} {s} {n} {ack} (m_lane : Part.lane ∈ w) (h : Keeps w s₀ s) :
    Keeps w s₀ (laneAck s n ack) := by
  unfold laneAck
  repeat' first
    | intro _
    | with_reducible assumption
    | with_reducible (first | apply Keeps.ite | apply setLane_keeps)
    | split
    | dsimp only

theorem laneUp_keeps {w : List Part} {s₀ : State} {s} {n} (m_arb : Part.arb ∈ w) (m_lane : Part.lane ∈ w) (m_regs : Part.regs ∈ w) (h : Keeps w s₀ s) :
    Keeps w s₀ (laneUp s n) := by
  unfold laneUp
  repeat' first
    | intro _
    | with_reducible assumption
    | with_reducible (first | apply Keeps.ite | apply Keeps.foldl | apply Keeps.foldl_fst | apply Keeps.foldl_snd | apply setFld_keeps | apply setLane_keeps | apply toState_keeps | apply laneAck_keeps)
    | split
    | dsimp only

theorem sendTs_keeps {w : List Part} {s₀ : State} {s} {n} (m_lane : Part.lane ∈ w) (h : Keeps w s₀ s) :
    Keeps w s₀ (sendTs s n) := by
  unfold sendTs
  repeat' first
    | intro _
    | with_reducible assumption
    | with_reducible (first | apply Keeps.ite | apply setLane_keeps | apply laneOut_keeps)
    | split
    | dsimp only

theorem execLaneBlockSend_keeps {w : List Part} {s₀ : State} {n} {vc} {s} (m_arb : Part.arb ∈ w) (m_coll : Part.coll ∈ w) (m_free : Part.free ∈ w) (m_lane : Part.lane ∈ w) (m_regs : Part.regs ∈ w) (h : Keeps w s₀ s) :
    ∃ t, execLaneBlockSend n vc s = .next t ∧ Keeps w s₀ t := by
  refine ⟨_, rfl, ?_⟩
  repeat' first
    | intro _
    | with_reducible assumption
    | with_reducible (first | apply Keeps.ite | apply laneOut_keeps | apply activeBlock_keeps | apply laneUp_keeps | apply sendTs_keeps)
    | with_reducible (first | fail_if_no_progress apply Keeps.free m_free)
    | split
    | dsimp only

theorem traceLane_keeps {w : List Part} {s₀ : State} {s} {n} {p} {point} (m_obs : Part.obs ∈ w) (m_regs : Part.regs ∈ w) (h : Keeps w s₀ s) :
    Keeps w s₀ (traceLane s n p point) := by
  unfold traceLane
  repeat' first
    | intro _
    | with_reducible assumption
    | with_reducible (first | apply Keeps.ite | apply traceTo_keeps)
    | split
    | dsimp only

theorem laneEgress_keeps {w : List Part} {s₀ : State} {s} {n} {p} (m_dyn : Part.dyn ∈ w) (m_free : Part.free ∈ w) (m_lane : Part.lane ∈ w) (m_log : Part.log ∈ w) (m_obs : Part.obs ∈ w) (m_regs : Part.regs ∈ w) (m_rel : Part.rel ∈ w) (h : Keeps w s₀ s) :
    Keeps w s₀ (laneEgress s n p) := by
  unfold laneEgress
  repeat' first
    | intro _
    | with_reducible assumption
    | with_reducible (first | apply Keeps.ite | apply log_keeps | apply tutilOut_keeps | apply bounce_keeps | apply setLane_keeps | apply traceLane_keeps)
    | with_reducible (first | fail_if_no_progress apply Keeps.lane m_lane)
    | split
    | dsimp only

theorem fillAsm_keeps {w : List Part} {s₀ : State} {s} {n} {a} (m_dyn : Part.dyn ∈ w) (m_regs : Part.regs ∈ w) (m_rel : Part.rel ∈ w) (h : Keeps w s₀ s) :
    Keeps w s₀ (fillAsm s n a) := by
  unfold fillAsm
  repeat' first
    | intro _
    | with_reducible assumption
    | with_reducible (first | apply Keeps.ite | apply putNet_keeps | apply linkCount_keeps)
    | split
    | dsimp only

theorem laneDrop_keeps {w : List Part} {s₀ : State} {s} {n} (m_dyn : Part.dyn ∈ w) (m_free : Part.free ∈ w) (m_lane : Part.lane ∈ w) (m_obs : Part.obs ∈ w) (m_regs : Part.regs ∈ w) (m_rel : Part.rel ∈ w) (h : Keeps w s₀ s) :
    Keeps w s₀ (laneDrop s n) := by
  unfold laneDrop
  repeat' first
    | intro _
    | with_reducible assumption
    | with_reducible (first | apply Keeps.ite | apply Keeps.foldl | apply Keeps.foldl_fst | apply Keeps.foldl_snd | apply bounce_keeps | apply setLane_keeps | apply fillAsm_keeps)
    | split
    | dsimp only

theorem laneDown_keeps {w : List Part} {s₀ : State} {s} {n} (m_arb : Part.arb ∈ w) (m_dyn : Part.dyn ∈ w) (m_free : Part.free ∈ w) (m_lane : Part.lane ∈ w) (m_log : Part.log ∈ w) (m_obs : Part.obs ∈ w) (m_regs : Part.regs ∈ w) (m_rel : Part.rel ∈ w) (h : Keeps w s₀ s) :
    Keeps w s₀ (laneDown s n) := by
  unfold laneDown
  repeat' first
    | intro _
    | with_reducible assumption
    | with_reducible (first | apply Keeps.ite | apply toState_keeps | apply lastErr_keeps | apply laneLog_keeps | apply linkCount_keeps | apply laneDrop_keeps)
    | split
    | dsimp only

theorem laneRecover_keeps {w : List Part} {s₀ : State} {s} {n} (m_arb : Part.arb ∈ w) (m_lane : Part.lane ∈ w) (m_log : Part.log ∈ w) (m_regs : Part.regs ∈ w) (m_rel : Part.rel ∈ w) (h : Keeps w s₀ s) :
    Keeps w s₀ (laneRecover s n) := by
  unfold laneRecover
  repeat' first
    | intro _
    | with_reducible assumption
    | with_reducible (first | apply Keeps.ite | apply setLane_keeps | apply toState_keeps | apply laneLog_keeps | apply linkCount_keeps)
    | split
    | dsimp only

theorem laneReplay_keeps {w : List Part} {s₀ : State} {s} {n} (m_arb : Part.arb ∈ w) (m_lane : Part.lane ∈ w) (m_log : Part.log ∈ w) (m_regs : Part.regs ∈ w) (m_rel : Part.rel ∈ w) (h : Keeps w s₀ s) :
    Keeps w s₀ (laneReplay s n) := by
  unfold laneReplay
  repeat' first
    | intro _
    | with_reducible assumption
    | with_reducible (first | apply Keeps.ite | apply setLane_keeps | apply linkCount_keeps | apply laneRecover_keeps)
    | split
    | dsimp only

theorem execLaneRecoveryFail_keeps {w : List Part} {s₀ : State} {n} {s} (m_arb : Part.arb ∈ w) (m_dyn : Part.dyn ∈ w) (m_free : Part.free ∈ w) (m_lane : Part.lane ∈ w) (m_log : Part.log ∈ w) (m_obs : Part.obs ∈ w) (m_regs : Part.regs ∈ w) (m_rel : Part.rel ∈ w) (h : Keeps w s₀ s) :
    ∃ t, execLaneRecoveryFail n s = .next t ∧ Keeps w s₀ t := by
  refine ⟨_, rfl, ?_⟩
  repeat' first
    | intro _
    | with_reducible assumption
    | with_reducible (first | apply Keeps.ite | apply setLane_keeps | apply laneDown_keeps | apply laneRecover_keeps)
    | split
    | dsimp only

theorem execLinkRetryTimeout_keeps {w : List Part} {s₀ : State} {n} {s} (m_arb : Part.arb ∈ w) (m_clk : Part.clk ∈ w) (m_lane : Part.lane ∈ w) (m_log : Part.log ∈ w) (m_regs : Part.regs ∈ w) (m_rel : Part.rel ∈ w) (m_trig : Part.trig ∈ w) (h : Keeps w s₀ s) :
    ∃ t, execLinkRetryTimeout n s = .next t ∧ Keeps w s₀ t := by
  refine ⟨_, rfl, ?_⟩
  repeat' first
    | intro _
    | with_reducible assumption
    | with_reducible (first | apply Keeps.ite | apply advanceTo_keeps | apply laneReplay_keeps)
    | split
    | dsimp only

theorem handPkt_keeps {w : List Part} {s₀ : State} {s} {n} {p} {kept} (m_dyn : Part.dyn ∈ w) (m_lane : Part.lane ∈ w) (m_obs : Part.obs ∈ w) (m_regs : Part.regs ∈ w) (h : Keeps w s₀ s) :
    Keeps w s₀ (handPkt s n p kept) := by
  unfold handPkt
  repeat' first
    | intro _
    | with_reducible assumption
    | with_reducible (first | apply Keeps.ite | apply tutilIn_keeps | apply entryPut_keeps | apply setLane_keeps | apply traceLane_keeps)
    | with_reducible (first | fail_if_no_progress apply Keeps.dyn m_dyn | fail_if_no_progress apply Keeps.lane m_lane)
    | split
    | dsimp only

theorem handFlit_keeps {w : List Part} {s₀ : State} {s} {n} {bytes} (m_dyn : Part.dyn ∈ w) (m_free : Part.free ∈ w) (m_host : Part.host ∈ w) (m_lane : Part.lane ∈ w) (m_log : Part.log ∈ w) (m_obs : Part.obs ∈ w) (m_regs : Part.regs ∈ w) (m_rel : Part.rel ∈ w) (m_rpt : Part.rpt ∈ w) (h : Keeps w s₀ s) :
    Keeps w s₀ (handFlit s n bytes) := by
  unfold handFlit
  repeat' first
    | intro _
    | with_reducible assumption
    | with_reducible (first | apply Keeps.ite | apply log_keeps | apply violation_keeps | apply errTo_keeps | apply setLane_keeps | apply handPkt_keeps)
    | split
    | dsimp only

theorem runEnd_keeps {w : List Part} {s₀ : State} {s} {n} {x} (m_dyn : Part.dyn ∈ w) (m_free : Part.free ∈ w) (m_host : Part.host ∈ w) (m_lane : Part.lane ∈ w) (m_log : Part.log ∈ w) (m_obs : Part.obs ∈ w) (m_regs : Part.regs ∈ w) (m_rel : Part.rel ∈ w) (m_rpt : Part.rpt ∈ w) (h : Keeps w s₀ s) :
    Keeps w s₀ (runEnd s n x) := by
  unfold runEnd
  repeat' first
    | intro _
    | with_reducible assumption
    | with_reducible (first | apply Keeps.ite | apply Keeps.foldl | apply Keeps.foldl_fst | apply Keeps.foldl_snd | apply bump_keeps | apply log_keeps | apply setLane_keeps | apply handFlit_keeps)
    | split
    | dsimp only

theorem flitIn_keeps {w : List Part} {s₀ : State} {s} {n} {f} {clean} (m_dyn : Part.dyn ∈ w) (m_free : Part.free ∈ w) (m_host : Part.host ∈ w) (m_lane : Part.lane ∈ w) (m_log : Part.log ∈ w) (m_obs : Part.obs ∈ w) (m_regs : Part.regs ∈ w) (m_rel : Part.rel ∈ w) (m_rpt : Part.rpt ∈ w) (h : Keeps w s₀ s) :
    Keeps w s₀ (flitIn s n f clean) := by
  unfold flitIn
  repeat' first
    | intro _
    | with_reducible assumption
    | with_reducible (first | apply Keeps.ite | apply setLane_keeps | apply rejectBlk_keeps | apply laneAck_keeps | apply handFlit_keeps | apply runEnd_keeps)
    | split
    | dsimp only

theorem execLinkFlit_keeps {w : List Part} {s₀ : State} {n} {f} {s} (m_dyn : Part.dyn ∈ w) (m_free : Part.free ∈ w) (m_host : Part.host ∈ w) (m_lane : Part.lane ∈ w) (m_log : Part.log ∈ w) (m_obs : Part.obs ∈ w) (m_regs : Part.regs ∈ w) (m_rel : Part.rel ∈ w) (m_rpt : Part.rpt ∈ w) (h : Keeps w s₀ s) :
    ∃ t, execLinkFlit n f s = .next t ∧ Keeps w s₀ t := by
  refine ⟨_, rfl, ?_⟩
  repeat' first
    | intro _
    | with_reducible assumption
    | with_reducible (first | apply Keeps.ite | apply linkCount_keeps | apply rxClean_keeps | apply rxCoded_keeps | apply flitIn_keeps)
    | refine Keeps.of_fst (by with_reducible assumption) ?_
    | split
    | dsimp only

theorem tagIn_keeps {w : List Part} {s₀ : State} {s} {n} {b} {clean} {sound} (m_lane : Part.lane ∈ w) (m_regs : Part.regs ∈ w) (h : Keeps w s₀ s) :
    Keeps w s₀ (tagIn s n b clean sound) := by
  unfold tagIn
  repeat' first
    | intro _
    | with_reducible assumption
    | with_reducible (first | apply Keeps.ite | apply setLane_keeps | apply linkCount_keeps | apply rejectBlk_keeps | apply laneAck_keeps)
    | split
    | dsimp only

theorem execTag_keeps {w : List Part} {s₀ : State} {n} {b} {s} (m_lane : Part.lane ∈ w) (m_regs : Part.regs ∈ w) (h : Keeps w s₀ s) :
    ∃ t, execTag n b s = .next t ∧ Keeps w s₀ t := by
  refine ⟨_, rfl, ?_⟩
  repeat' first
    | intro _
    | with_reducible assumption
    | with_reducible (first | apply Keeps.ite | apply linkCount_keeps | apply rejectBlk_keeps | apply rxClean_keeps | apply rxCoded_keeps | apply tagIn_keeps)
    | refine Keeps.of_fst (by with_reducible assumption) ?_
    | split
    | dsimp only

theorem execRetry_keeps {w : List Part} {s₀ : State} {n} {b} {s} (m_arb : Part.arb ∈ w) (m_lane : Part.lane ∈ w) (m_log : Part.log ∈ w) (m_regs : Part.regs ∈ w) (m_rel : Part.rel ∈ w) (h : Keeps w s₀ s) :
    ∃ t, execRetry n b s = .next t ∧ Keeps w s₀ t := by
  refine ⟨_, rfl, ?_⟩
  repeat' first
    | intro _
    | with_reducible assumption
    | with_reducible (first | apply Keeps.ite | apply ctlIn_keeps | apply laneAck_keeps | apply laneReplay_keeps)
    | split
    | dsimp only

theorem storeTime_keeps {w : List Part} {s₀ : State} {s} {n} (m_lane : Part.lane ∈ w) (m_obs : Part.obs ∈ w) (m_regs : Part.regs ∈ w) (h : Keeps w s₀ s) :
    Keeps w s₀ (storeTime s n) := by
  unfold storeTime
  repeat' first
    | intro _
    | with_reducible assumption
    | with_reducible (first | apply Keeps.ite | apply Keeps.foldl | apply Keeps.foldl_fst | apply Keeps.foldl_snd | apply wrReg_keeps | apply setFld_keeps | apply traceMark_keeps | apply setLane_keeps)
    | split
    | dsimp only

theorem timeSample_keeps {w : List Part} {s₀ : State} {s} {n} {b} (m_lane : Part.lane ∈ w) (m_obs : Part.obs ∈ w) (m_regs : Part.regs ∈ w) (h : Keeps w s₀ s) :
    Keeps w s₀ (timeSample s n b) := by
  unfold timeSample
  repeat' first
    | intro _
    | with_reducible assumption
    | with_reducible (first | apply Keeps.ite | apply setLane_keeps | apply storeTime_keeps)
    | split
    | dsimp only

theorem execCtl_keeps {w : List Part} {s₀ : State} {n} {b} {s} (m_lane : Part.lane ∈ w) (m_obs : Part.obs ∈ w) (m_regs : Part.regs ∈ w) (h : Keeps w s₀ s) :
    ∃ t, execCtl n b s = .next t ∧ Keeps w s₀ t := by
  refine ⟨_, rfl, ?_⟩
  repeat' first
    | intro _
    | with_reducible assumption
    | with_reducible (first | apply Keeps.ite | apply Keeps.foldl | apply Keeps.foldl_fst | apply Keeps.foldl_snd | apply setLane_keeps | apply ctlIn_keeps | apply laneAck_keeps | apply timeSample_keeps)
    | split
    | dsimp only

theorem execSp_keeps {w : List Part} {s₀ : State} {n} {b} {s} (m_coll : Part.coll ∈ w) (m_lane : Part.lane ∈ w) (m_regs : Part.regs ∈ w) (h : Keeps w s₀ s) :
    ∃ t, execSp n b s = .next t ∧ Keeps w s₀ t := by
  refine ⟨_, rfl, ?_⟩
  repeat' first
    | intro _
    | with_reducible assumption
    | with_reducible (first | apply Keeps.ite | apply Keeps.foldl | apply Keeps.foldl_fst | apply Keeps.foldl_snd | apply bump_keeps | apply ctlIn_keeps)
    | with_reducible (first | fail_if_no_progress apply Keeps.coll m_coll)
    | split
    | dsimp only

theorem rxAlign_keeps {w : List Part} {s₀ : State} {s} {n} {x3} (m_lane : Part.lane ∈ w) (m_regs : Part.regs ∈ w) (h : Keeps w s₀ s) :
    Keeps w s₀ (rxAlign s n x3) := by
  unfold rxAlign
  repeat' first
    | intro _
    | with_reducible assumption
    | with_reducible (first | apply Keeps.ite | apply rxClean_keeps | apply rxCoded_keeps)
    | refine Keeps.of_fst (by with_reducible assumption) ?_
    | split
    | dsimp only

theorem execAlign_keeps {w : List Part} {s₀ : State} {n} {b} {s} (m_lane : Part.lane ∈ w) (m_regs : Part.regs ∈ w) (h : Keeps w s₀ s) :
    ∃ t, execAlign n b s = .next t ∧ Keeps w s₀ t := by
  refine ⟨_, rfl, ?_⟩
  repeat' first
    | intro _
    | with_reducible assumption
    | with_reducible (first | apply Keeps.ite | apply Keeps.foldl | apply Keeps.foldl_fst | apply Keeps.foldl_snd | apply setFld_keeps | apply setLane_keeps | apply rxAlign_keeps)
    | split
    | dsimp only

theorem execAlignDone_keeps {w : List Part} {s₀ : State} {n} {s} (m_arb : Part.arb ∈ w) (m_lane : Part.lane ∈ w) (m_regs : Part.regs ∈ w) (h : Keeps w s₀ s) :
    ∃ t, execAlignDone n s = .next t ∧ Keeps w s₀ t := by
  refine ⟨_, rfl, ?_⟩
  repeat' first
    | intro _
    | with_reducible assumption
    | with_reducible (first | apply Keeps.ite | apply Keeps.foldl | apply Keeps.foldl_fst | apply Keeps.foldl_snd | apply Keeps.same_id | apply setFld_keeps | apply setLane_keeps | apply toState_keeps | apply lastErr_keeps)
    | split
    | dsimp only

theorem eqRequest_keeps {w : List Part} {s₀ : State} {s} {n} {l} {req} (m_regs : Part.regs ∈ w) (h : Keeps w s₀ s) :
    Keeps w s₀ (eqRequest s n l req) := by
  unfold eqRequest
  repeat' first
    | intro _
    | with_reducible assumption
    | with_reducible (first | apply Keeps.ite | apply setFld_keeps)
    | split
    | dsimp only

theorem execEqDone_keeps {w : List Part} {s₀ : State} {n} {bad} {ctle} {s} (m_arb : Part.arb ∈ w) (m_lane : Part.lane ∈ w) (m_regs : Part.regs ∈ w) (h : Keeps w s₀ s) :
    ∃ t, execEqDone n bad ctle s = .next t ∧ Keeps w s₀ t := by
  refine ⟨_, rfl, ?_⟩
  repeat' first
    | intro _
    | with_reducible assumption
    | with_reducible (first | apply Keeps.ite | apply Keeps.foldl | apply Keeps.foldl_fst | apply Keeps.foldl_snd | apply setFld_keeps | apply setLane_keeps | apply toState_keeps | apply lastErr_keeps)
    | split
    | dsimp only

theorem execTs_keeps {w : List Part} {s₀ : State} {n} {b} {s} (m_arb : Part.arb ∈ w) (m_lane : Part.lane ∈ w) (m_log : Part.log ∈ w) (m_regs : Part.regs ∈ w) (m_rel : Part.rel ∈ w) (h : Keeps w s₀ s) :
    ∃ t, execTs n b s = .next t ∧ Keeps w s₀ t := by
  refine ⟨_, rfl, ?_⟩
  repeat' first
    | intro _
    | with_reducible assumption
    | with_reducible (first | apply Keeps.ite | apply Keeps.foldl | apply Keeps.foldl_fst | apply Keeps.foldl_snd | apply setFld_keeps | apply setLane_keeps | apply setWidth_keeps | apply toState_keeps | apply lastErr_keeps | apply laneLog_keeps | apply ctlIn_keeps | apply laneUp_keeps | apply eqRequest_keeps)
    | split
    | dsimp only

theorem execConfigRetry_keeps {w : List Part} {s₀ : State} {n} {s} (m_clk : Part.clk ∈ w) (m_lane : Part.lane ∈ w) (m_regs : Part.regs ∈ w) (m_rel : Part.rel ∈ w) (m_trig : Part.trig ∈ w) (h : Keeps w s₀ s) :
    ∃ t, execConfigRetry n s = .next t ∧ Keeps w s₀ t := by
  refine ⟨_, rfl, ?_⟩
  repeat' first
    | intro _
    | with_reducible assumption
    | with_reducible (first | apply Keeps.ite | apply advanceTo_keeps | apply setLane_keeps)
    | split
    | dsimp only

theorem execPeerClockDetect_keeps {w : List Part} {s₀ : State} {n} {s} (m_arb : Part.arb ∈ w) (m_lane : Part.lane ∈ w) (m_regs : Part.regs ∈ w) (h : Keeps w s₀ s) :
    ∃ t, execPeerClockDetect n s = .next t ∧ Keeps w s₀ t := by
  refine ⟨_, rfl, ?_⟩
  repeat' first
    | intro _
    | with_reducible assumption
    | with_reducible (first | apply Keeps.ite | apply setLane_keeps | apply toState_keeps)
    | split
    | dsimp only

theorem execDetectTimeout_keeps {w : List Part} {s₀ : State} {n} {s} (m_arb : Part.arb ∈ w) (m_clk : Part.clk ∈ w) (m_lane : Part.lane ∈ w) (m_regs : Part.regs ∈ w) (m_rel : Part.rel ∈ w) (m_trig : Part.trig ∈ w) (h : Keeps w s₀ s) :
    ∃ t, execDetectTimeout n s = .next t ∧ Keeps w s₀ t := by
  refine ⟨_, rfl, ?_⟩
  repeat' first
    | intro _
    | with_reducible assumption
    | with_reducible (first | apply Keeps.ite | apply advanceTo_keeps | apply toState_keeps | apply lastErr_keeps)
    | split
    | dsimp only

theorem execLanePeerLoss_keeps {w : List Part} {s₀ : State} {n} {clock} {s} (m_arb : Part.arb ∈ w) (m_dyn : Part.dyn ∈ w) (m_free : Part.free ∈ w) (m_lane : Part.lane ∈ w) (m_log : Part.log ∈ w) (m_obs : Part.obs ∈ w) (m_regs : Part.regs ∈ w) (m_rel : Part.rel ∈ w) (h : Keeps w s₀ s) :
    ∃ t, execLanePeerLoss n clock s = .next t ∧ Keeps w s₀ t := by
  refine ⟨_, rfl, ?_⟩
  repeat' first
    | intro _
    | with_reducible assumption
    | with_reducible (first | apply Keeps.ite | apply setLane_keeps | apply toState_keeps | apply laneDrop_keeps | apply laneRecover_keeps)
    | split
    | dsimp only

theorem execQuietEnter_keeps {w : List Part} {s₀ : State} {n} {s} (m_arb : Part.arb ∈ w) (m_clk : Part.clk ∈ w) (m_lane : Part.lane ∈ w) (m_regs : Part.regs ∈ w) (m_rel : Part.rel ∈ w) (m_trig : Part.trig ∈ w) (h : Keeps w s₀ s) :
    ∃ t, execQuietEnter n s = .next t ∧ Keeps w s₀ t := by
  refine ⟨_, rfl, ?_⟩
  repeat' first
    | intro _
    | with_reducible assumption
    | with_reducible (first | apply Keeps.ite | apply advanceTo_keeps | apply setLane_keeps | apply toState_keeps)
    | split
    | dsimp only

theorem execQuietExit_keeps {w : List Part} {s₀ : State} {n} {s} (m_arb : Part.arb ∈ w) (m_clk : Part.clk ∈ w) (m_lane : Part.lane ∈ w) (m_regs : Part.regs ∈ w) (m_rel : Part.rel ∈ w) (m_trig : Part.trig ∈ w) (h : Keeps w s₀ s) :
    ∃ t, execQuietExit n s = .next t ∧ Keeps w s₀ t := by
  refine ⟨_, rfl, ?_⟩
  repeat' first
    | intro _
    | with_reducible assumption
    | with_reducible (first | apply Keeps.ite | apply advanceTo_keeps | apply setLane_keeps | apply toState_keeps)
    | split
    | dsimp only

theorem execQuiet_keeps {w : List Part} {s₀ : State} {n} {b} {s} (m_lane : Part.lane ∈ w) (m_regs : Part.regs ∈ w) (h : Keeps w s₀ s) :
    ∃ t, execQuiet n b s = .next t ∧ Keeps w s₀ t := by
  refine ⟨_, rfl, ?_⟩
  repeat' first
    | intro _
    | with_reducible assumption
    | with_reducible (first | apply Keeps.ite | apply setLane_keeps | apply ctlIn_keeps)
    | split
    | dsimp only

theorem execDeepEnter_keeps {w : List Part} {s₀ : State} {n} {s} (m_arb : Part.arb ∈ w) (m_clk : Part.clk ∈ w) (m_lane : Part.lane ∈ w) (m_regs : Part.regs ∈ w) (m_rel : Part.rel ∈ w) (m_trig : Part.trig ∈ w) (h : Keeps w s₀ s) :
    ∃ t, execDeepEnter n s = .next t ∧ Keeps w s₀ t := by
  refine ⟨_, rfl, ?_⟩
  repeat' first
    | intro _
    | with_reducible assumption
    | with_reducible (first | apply Keeps.ite | apply advanceTo_keeps | apply setLane_keeps | apply toState_keeps)
    | split
    | dsimp only

theorem execDeep_keeps {w : List Part} {s₀ : State} {n} {b} {s} (m_arb : Part.arb ∈ w) (m_lane : Part.lane ∈ w) (m_regs : Part.regs ∈ w) (h : Keeps w s₀ s) :
    ∃ t, execDeep n b s = .next t ∧ Keeps w s₀ t := by
  refine ⟨_, rfl, ?_⟩
  repeat' first
    | intro _
    | with_reducible assumption
    | with_reducible (first | apply Keeps.ite | apply setLane_keeps | apply toState_keeps | apply ctlIn_keeps)
    | split
    | dsimp only

theorem execDeepWake_keeps {w : List Part} {s₀ : State} {n} {peer} {s} (m_arb : Part.arb ∈ w) (m_lane : Part.lane ∈ w) (m_regs : Part.regs ∈ w) (h : Keeps w s₀ s) :
    ∃ t, execDeepWake n peer s = .next t ∧ Keeps w s₀ t := by
  refine ⟨_, rfl, ?_⟩
  repeat' first
    | intro _
    | with_reducible assumption
    | with_reducible (first | apply Keeps.ite | apply setLane_keeps | apply toState_keeps)
    | split
    | dsimp only

theorem lpCfgWrite_keeps {w : List Part} {s₀ : State} {s} {n} {off} {v} (m_regs : Part.regs ∈ w) (h : Keeps w s₀ s) :
    Keeps w s₀ (lpCfgWrite s n off v) := by
  unfold lpCfgWrite
  repeat' first
    | intro _
    | with_reducible assumption
    | with_reducible (first | apply Keeps.ite | apply setFld_keeps | apply softWrite_keeps)
    | split
    | dsimp only

theorem pmWrite_keeps {w : List Part} {s₀ : State} {s} {n} {v} {piped} (m_lane : Part.lane ∈ w) (m_regs : Part.regs ∈ w) (h : Keeps w s₀ s) :
    Keeps w s₀ (pmWrite s n v piped) := by
  unfold pmWrite
  repeat' first
    | intro _
    | with_reducible assumption
    | with_reducible (first | apply Keeps.ite | apply softWrite_keeps | apply setLane_keeps)
    | split
    | dsimp only

theorem laneEqWrite_keeps {w : List Part} {s₀ : State} {s} {off} {v} (m_regs : Part.regs ∈ w) (h : Keeps w s₀ s) :
    Keeps w s₀ (laneEqWrite s off v) := by
  unfold laneEqWrite
  repeat' first
    | intro _
    | with_reducible assumption
    | with_reducible (first | apply Keeps.ite | apply setFld_keeps | apply softWrite_keeps)
    | split
    | dsimp only

theorem execLanePortCfgWrite_keeps {w : List Part} {s₀ : State} {n} {off} {v} {s} (m_regs : Part.regs ∈ w) (h : Keeps w s₀ s) :
    ∃ t, execLanePortCfgWrite n off v s = .next t ∧ Keeps w s₀ t := by
  refine ⟨_, rfl, ?_⟩
  repeat' first
    | intro _
    | with_reducible assumption
    | with_reducible (first | apply Keeps.ite | apply lpCfgWrite_keeps)
    | split
    | dsimp only

theorem testWrite_keeps {w : List Part} {s₀ : State} {s} {n} {v} (m_lane : Part.lane ∈ w) (m_regs : Part.regs ∈ w) (h : Keeps w s₀ s) :
    Keeps w s₀ (testWrite s n v).1 := by
  unfold testWrite
  repeat' first
    | intro _
    | with_reducible assumption
    | with_reducible (first | apply Keeps.ite_fst | apply Keeps.ite | apply Keeps.foldl | apply Keeps.foldl_fst | apply Keeps.foldl_snd | apply noteAgain_keeps | apply softWrite_keeps | apply setLane_keeps | apply injDone_keeps)
    | split
    | dsimp only

theorem prbsErrs_keeps {w : List Part} {s₀ : State} {s} {n} {errs} (m_regs : Part.regs ∈ w) (h : Keeps w s₀ s) :
    Keeps w s₀ (prbsErrs s n errs) := by
  unfold prbsErrs
  repeat' first
    | intro _
    | with_reducible assumption
    | with_reducible (first | apply Keeps.ite | apply Keeps.foldl | apply Keeps.foldl_fst | apply Keeps.foldl_snd | apply bumpSat_keeps)
    | split
    | dsimp only

theorem testMode_keeps {w : List Part} {s₀ : State} {s} {n} {v} {m} {errs} (m_arb : Part.arb ∈ w) (m_lane : Part.lane ∈ w) (m_regs : Part.regs ∈ w) (h : Keeps w s₀ s) :
    Keeps w s₀ (testMode s n v m errs) := by
  unfold testMode
  repeat' first
    | intro _
    | with_reducible assumption
    | with_reducible (first | apply Keeps.ite | apply toState_keeps | apply laneOut_keeps | apply testWrite_keeps | apply prbsErrs_keeps)
    | refine Keeps.of_fst (by with_reducible assumption) ?_
    | split
    | dsimp only

theorem execPrbs_keeps {w : List Part} {s₀ : State} {n} {v} {errs} {s} (m_arb : Part.arb ∈ w) (m_lane : Part.lane ∈ w) (m_regs : Part.regs ∈ w) (h : Keeps w s₀ s) :
    ∃ t, execPrbs n v errs s = .next t ∧ Keeps w s₀ t := by
  refine ⟨_, rfl, ?_⟩
  repeat' first
    | intro _
    | with_reducible assumption
    | with_reducible (first | apply Keeps.ite | apply testMode_keeps)
    | split
    | dsimp only

theorem execNeslb_keeps {w : List Part} {s₀ : State} {n} {v} {s} (m_arb : Part.arb ∈ w) (m_lane : Part.lane ∈ w) (m_regs : Part.regs ∈ w) (h : Keeps w s₀ s) :
    ∃ t, execNeslb n v s = .next t ∧ Keeps w s₀ t := by
  refine ⟨_, rfl, ?_⟩
  repeat' first
    | intro _
    | with_reducible assumption
    | with_reducible (first | apply Keeps.ite | apply testMode_keeps)
    | split
    | dsimp only

theorem execNeplb_keeps {w : List Part} {s₀ : State} {n} {v} {s} (m_arb : Part.arb ∈ w) (m_lane : Part.lane ∈ w) (m_regs : Part.regs ∈ w) (h : Keeps w s₀ s) :
    ∃ t, execNeplb n v s = .next t ∧ Keeps w s₀ t := by
  refine ⟨_, rfl, ?_⟩
  repeat' first
    | intro _
    | with_reducible assumption
    | with_reducible (first | apply Keeps.ite | apply testMode_keeps)
    | split
    | dsimp only

theorem execFelb_keeps {w : List Part} {s₀ : State} {n} {v} {errs} {s} (m_arb : Part.arb ∈ w) (m_lane : Part.lane ∈ w) (m_regs : Part.regs ∈ w) (h : Keeps w s₀ s) :
    ∃ t, execFelb n v errs s = .next t ∧ Keeps w s₀ t := by
  refine ⟨_, rfl, ?_⟩
  repeat' first
    | intro _
    | with_reducible assumption
    | with_reducible (first | apply Keeps.ite | apply toState_keeps | apply testWrite_keeps | apply prbsErrs_keeps)
    | refine Keeps.of_fst (by with_reducible assumption) ?_
    | split
    | dsimp only

theorem execTestModeOff_keeps {w : List Part} {s₀ : State} {n} {v} {s} (m_arb : Part.arb ∈ w) (m_lane : Part.lane ∈ w) (m_regs : Part.regs ∈ w) (h : Keeps w s₀ s) :
    ∃ t, execTestModeOff n v s = .next t ∧ Keeps w s₀ t := by
  refine ⟨_, rfl, ?_⟩
  repeat' first
    | intro _
    | with_reducible assumption
    | with_reducible (first | apply Keeps.ite | apply toState_keeps | apply testWrite_keeps)
    | refine Keeps.of_fst (by with_reducible assumption) ?_
    | split
    | dsimp only

theorem execInj_keeps {w : List Part} {s₀ : State} {n} {v} {s} (m_lane : Part.lane ∈ w) (m_regs : Part.regs ∈ w) (h : Keeps w s₀ s) :
    ∃ t, execInj n v s = .next t ∧ Keeps w s₀ t := by
  refine ⟨_, rfl, ?_⟩
  repeat' first
    | intro _
    | with_reducible assumption
    | with_reducible (first | apply Keeps.ite | apply setLane_keeps | apply laneOut_keeps | apply testWrite_keeps | apply prbsErrs_keeps)
    | refine Keeps.of_fst (by with_reducible assumption) ?_
    | split
    | dsimp only

theorem execInjcrc_keeps {w : List Part} {s₀ : State} {n} {v} {s} (m_lane : Part.lane ∈ w) (m_regs : Part.regs ∈ w) (h : Keeps w s₀ s) :
    ∃ t, execInjcrc n v s = .next t ∧ Keeps w s₀ t := by
  refine ⟨_, rfl, ?_⟩
  repeat' first
    | intro _
    | with_reducible assumption
    | with_reducible (first | apply Keeps.ite | apply testWrite_keeps)
    | refine Keeps.of_fst (by with_reducible assumption) ?_
    | split
    | dsimp only

theorem execInjcode_keeps {w : List Part} {s₀ : State} {n} {v} {s} (m_lane : Part.lane ∈ w) (m_regs : Part.regs ∈ w) (h : Keeps w s₀ s) :
    ∃ t, execInjcode n v s = .next t ∧ Keeps w s₀ t := by
  refine ⟨_, rfl, ?_⟩
  repeat' first
    | intro _
    | with_reducible assumption
    | with_reducible (first | apply Keeps.ite | apply testWrite_keeps)
    | refine Keeps.of_fst (by with_reducible assumption) ?_
    | split
    | dsimp only

theorem execInjsp_keeps {w : List Part} {s₀ : State} {n} {v} {s} (m_lane : Part.lane ∈ w) (m_regs : Part.regs ∈ w) (h : Keeps w s₀ s) :
    ∃ t, execInjsp n v s = .next t ∧ Keeps w s₀ t := by
  refine ⟨_, rfl, ?_⟩
  repeat' first
    | intro _
    | with_reducible assumption
    | with_reducible (first | apply Keeps.ite | apply testWrite_keeps)
    | refine Keeps.of_fst (by with_reducible assumption) ?_
    | split
    | dsimp only

end Sys2Proof.Machine
end

