-- ==== Sys2Proof/Laws/FrameReduction.lean ====
section
/-!
SUPPORT. What each operation of Machine/Reduction.lean, Machine/Collective.lean, Machine/Trace.lean can touch: one lemma an operation,
that composes with the lemmas of its callers.
-/
namespace Sys2Proof.Machine

set_option linter.unusedTactic false
set_option linter.unreachableTactic false

/-! ### Machine/Reduction.lean -/

theorem setRed_keeps {w : List Part} {s₀ : State} {s} {x} {r} (m_red : Part.red ∈ w) (h : Keeps w s₀ s) :
    Keeps w s₀ (setRed s x r) := by
  unfold setRed
  repeat' first
    | intro _
    | with_reducible assumption
    | with_reducible (first | apply Keeps.ite)
    | with_reducible (first | fail_if_no_progress apply Keeps.red m_red)
    | split
    | dsimp only

theorem ctxEnable_keeps {w : List Part} {s₀ : State} {s} {tile} {c} {a} {b} {grp} (m_red : Part.red ∈ w) (m_regs : Part.regs ∈ w) (h : Keeps w s₀ s) :
    Keeps w s₀ (ctxEnable s tile c a b grp) := by
  unfold ctxEnable
  repeat' first
    | intro _
    | with_reducible assumption
    | with_reducible (first | apply Keeps.ite | apply wrReg_keeps | apply setFld_keeps | apply softWrite_keeps | apply setRed_keeps)
    | split
    | dsimp only

theorem ctxDisable_keeps {w : List Part} {s₀ : State} {s} {tile} {c} {v} (m_dyn : Part.dyn ∈ w) (m_free : Part.free ∈ w) (m_lane : Part.lane ∈ w) (m_obs : Part.obs ∈ w) (m_red : Part.red ∈ w) (m_regs : Part.regs ∈ w) (m_rel : Part.rel ∈ w) (h : Keeps w s₀ s) :
    Keeps w s₀ (ctxDisable s tile c v) := by
  unfold ctxDisable
  repeat' first
    | intro _
    | with_reducible assumption
    | with_reducible (first | apply Keeps.ite | apply Keeps.foldl | apply Keeps.foldl_fst | apply Keeps.foldl_snd | apply setFld_keeps | apply softWrite_keeps | apply ackTo_keeps | apply dropWaiting_keeps | apply setRed_keeps)
    | split
    | dsimp only

theorem execRedCtxEnable_keeps {w : List Part} {s₀ : State} {tile} {c} {a} {b} {s} (m_red : Part.red ∈ w) (m_regs : Part.regs ∈ w) (h : Keeps w s₀ s) :
    ∃ t, execRedCtxEnable tile c a b s = .next t ∧ Keeps w s₀ t := by
  refine ⟨_, rfl, ?_⟩
  repeat' first
    | intro _
    | with_reducible assumption
    | with_reducible (first | apply Keeps.ite | apply ctxEnable_keeps)
    | split
    | dsimp only

theorem execRedCtxDisable_keeps {w : List Part} {s₀ : State} {tile} {c} {v} {s} (m_dyn : Part.dyn ∈ w) (m_free : Part.free ∈ w) (m_lane : Part.lane ∈ w) (m_obs : Part.obs ∈ w) (m_red : Part.red ∈ w) (m_regs : Part.regs ∈ w) (m_rel : Part.rel ∈ w) (h : Keeps w s₀ s) :
    ∃ t, execRedCtxDisable tile c v s = .next t ∧ Keeps w s₀ t := by
  refine ⟨_, rfl, ?_⟩
  repeat' first
    | intro _
    | with_reducible assumption
    | with_reducible (first | apply Keeps.ite | apply ctxDisable_keeps)
    | split
    | dsimp only

theorem takeHalf_keeps {w : List Part} {s₀ : State} {s} {x} {x3} {g} {d} (m_red : Part.red ∈ w) (m_regs : Part.regs ∈ w) (h : Keeps w s₀ s) :
    Keeps w s₀ (takeHalf s x x3 g d) := by
  unfold takeHalf
  repeat' first
    | intro _
    | with_reducible assumption
    | with_reducible (first | apply Keeps.ite | apply bump_keeps | apply ruFmt_keeps | apply setRed_keeps)
    | split
    | dsimp only

theorem takeFlit_keeps {w : List Part} {s₀ : State} {s} {x} {x3} (m_red : Part.red ∈ w) (m_regs : Part.regs ∈ w) (h : Keeps w s₀ s) :
    Keeps w s₀ (takeFlit s x x3) := by
  unfold takeFlit
  repeat' first
    | intro _
    | with_reducible assumption
    | with_reducible (first | apply Keeps.ite | apply Keeps.foldl | apply Keeps.foldl_fst | apply Keeps.foldl_snd | apply bump_keeps | apply setRed_keeps | apply takeHalf_keeps)
    | split
    | dsimp only

theorem ctxAbort_keeps {w : List Part} {s₀ : State} {s} {x} {st} {rank} (m_coll : Part.coll ∈ w) (m_regs : Part.regs ∈ w) (m_rel : Part.rel ∈ w) (h : Keeps w s₀ s) :
    Keeps w s₀ (ctxAbort s x st rank) := by
  unfold ctxAbort
  repeat' first
    | intro _
    | with_reducible assumption
    | with_reducible (first | apply Keeps.ite | apply spSend_keeps)
    | split
    | dsimp only

theorem opEnd_keeps {w : List Part} {s₀ : State} {s} {x} (m_red : Part.red ∈ w) (m_regs : Part.regs ∈ w) (h : Keeps w s₀ s) :
    Keeps w s₀ (opEnd s x) := by
  unfold opEnd
  repeat' first
    | intro _
    | with_reducible assumption
    | with_reducible (first | apply Keeps.ite | apply Keeps.foldl | apply Keeps.foldl_fst | apply Keeps.foldl_snd | apply wrReg_keeps | apply setRed_keeps)
    | split
    | dsimp only

theorem failStep_keeps {w : List Part} {s₀ : State} {s} {x} (m_red : Part.red ∈ w) (m_regs : Part.regs ∈ w) (h : Keeps w s₀ s) :
    Keeps w s₀ (failStep s x) := by
  unfold failStep
  repeat' first
    | intro _
    | with_reducible assumption
    | with_reducible (first | apply Keeps.ite | apply opEnd_keeps)
    | split
    | dsimp only

theorem ctxFail_keeps {w : List Part} {s₀ : State} {s} {x} {st} (m_dyn : Part.dyn ∈ w) (m_free : Part.free ∈ w) (m_lane : Part.lane ∈ w) (m_obs : Part.obs ∈ w) (m_red : Part.red ∈ w) (m_regs : Part.regs ∈ w) (m_rel : Part.rel ∈ w) (h : Keeps w s₀ s) :
    Keeps w s₀ (ctxFail s x st) := by
  unfold ctxFail
  repeat' first
    | intro _
    | with_reducible assumption
    | with_reducible (first | apply Keeps.ite | apply Keeps.foldl | apply Keeps.foldl_fst | apply Keeps.foldl_snd | apply setFld_keeps | apply bump_keeps | apply inject_keeps | apply ackTo_keeps | apply dropWaiting_keeps | apply setRed_keeps | apply failStep_keeps)
    | split
    | dsimp only

theorem digestFail_keeps {w : List Part} {s₀ : State} {s} {x} {i} (m_coll : Part.coll ∈ w) (m_dyn : Part.dyn ∈ w) (m_free : Part.free ∈ w) (m_lane : Part.lane ∈ w) (m_log : Part.log ∈ w) (m_obs : Part.obs ∈ w) (m_red : Part.red ∈ w) (m_regs : Part.regs ∈ w) (m_rel : Part.rel ∈ w) (h : Keeps w s₀ s) :
    Keeps w s₀ (digestFail s x i) := by
  unfold digestFail
  repeat' first
    | intro _
    | with_reducible assumption
    | with_reducible (first | apply Keeps.ite | apply log_keeps | apply ctxAbort_keeps | apply ctxFail_keeps)
    | split
    | dsimp only

theorem closeCheck_keeps {w : List Part} {s₀ : State} {s} {x} {i} (m_coll : Part.coll ∈ w) (m_dyn : Part.dyn ∈ w) (m_free : Part.free ∈ w) (m_lane : Part.lane ∈ w) (m_log : Part.log ∈ w) (m_obs : Part.obs ∈ w) (m_red : Part.red ∈ w) (m_regs : Part.regs ∈ w) (m_rel : Part.rel ∈ w) (h : Keeps w s₀ s) :
    Keeps w s₀ (closeCheck s x i) := by
  unfold closeCheck
  repeat' first
    | intro _
    | with_reducible assumption
    | with_reducible (first | apply Keeps.ite | apply digestFail_keeps)
    | split
    | dsimp only

theorem openCheck_keeps {w : List Part} {s₀ : State} {s} {x} (m_coll : Part.coll ∈ w) (m_dyn : Part.dyn ∈ w) (m_free : Part.free ∈ w) (m_lane : Part.lane ∈ w) (m_obs : Part.obs ∈ w) (m_red : Part.red ∈ w) (m_regs : Part.regs ∈ w) (m_rel : Part.rel ∈ w) (h : Keeps w s₀ s) :
    Keeps w s₀ (openCheck s x) := by
  unfold openCheck
  repeat' first
    | intro _
    | with_reducible assumption
    | with_reducible (first | apply Keeps.ite | apply spSend_keeps | apply setRed_keeps | apply ctxAbort_keeps | apply ctxFail_keeps)
    | split
    | dsimp only

theorem halfVals_keeps {w : List Part} {s₀ : State} {s} {x} {q} (m_free : Part.free ∈ w) (h : Keeps w s₀ s) :
    Keeps w s₀ (halfVals s x q).2 := by
  unfold halfVals
  repeat' first
    | intro _
    | with_reducible assumption
    | with_reducible (first | apply Keeps.ite_snd | apply Keeps.ite | apply draw_keeps)
    | refine Keeps.of_snd (by with_reducible assumption) ?_
    | split
    | dsimp only

theorem runVals_keeps {w : List Part} {s₀ : State} {x1} {x2} {x3} (m_free : Part.free ∈ w) (h : Keeps w s₀ x1) :
    Keeps w s₀ (runVals x1 x2 x3).2 := by
  induction x3 generalizing x1 with
  | nil => exact h
  | cons q r ih => exact ih (halfVals_keeps m_free h)

theorem emitChunk_keeps {w : List Part} {s₀ : State} {s} {x} {hs} (m_dyn : Part.dyn ∈ w) (m_free : Part.free ∈ w) (m_red : Part.red ∈ w) (m_regs : Part.regs ∈ w) (h : Keeps w s₀ s) :
    Keeps w s₀ (emitChunk s x hs) := by
  unfold emitChunk
  repeat' first
    | intro _
    | with_reducible assumption
    | with_reducible (first | apply Keeps.ite | apply Keeps.foldl | apply Keeps.foldl_fst | apply Keeps.foldl_snd | apply bump_keeps | apply ruFmt_keeps | apply enqueue_keeps | apply setRed_keeps | apply runVals_keeps)
    | refine Keeps.of_snd (by with_reducible assumption) ?_
    | split
    | dsimp only

theorem emitChunks_keeps {w : List Part} {s₀ : State} {x1} {x2} {x3} {x4} (m_dyn : Part.dyn ∈ w) (m_free : Part.free ∈ w) (m_red : Part.red ∈ w) (m_regs : Part.regs ∈ w) (h : Keeps w s₀ x1) :
    Keeps w s₀ (emitChunks x1 x2 x3 x4) := by
  induction x3 generalizing x1 x4 with
  | zero => exact h
  | succ k ih => exact Keeps.ite h (ih (emitChunk_keeps m_dyn m_free m_red m_regs h))

theorem emitRun_keeps {w : List Part} {s₀ : State} {s} {x} {hs} (m_clk : Part.clk ∈ w) (m_dyn : Part.dyn ∈ w) (m_free : Part.free ∈ w) (m_red : Part.red ∈ w) (m_regs : Part.regs ∈ w) (m_rel : Part.rel ∈ w) (m_trig : Part.trig ∈ w) (h : Keeps w s₀ s) :
    Keeps w s₀ (emitRun s x hs) := by
  unfold emitRun
  repeat' first
    | intro _
    | with_reducible assumption
    | with_reducible (first | apply Keeps.ite | apply advanceTo_keeps | apply emitChunks_keeps)
    | split
    | dsimp only

theorem execRedEmit_keeps {w : List Part} {s₀ : State} {tile} {c} {s} (m_clk : Part.clk ∈ w) (m_dyn : Part.dyn ∈ w) (m_free : Part.free ∈ w) (m_red : Part.red ∈ w) (m_regs : Part.regs ∈ w) (m_rel : Part.rel ∈ w) (m_trig : Part.trig ∈ w) (h : Keeps w s₀ s) :
    ∃ t, execRedEmit tile c s = .next t ∧ Keeps w s₀ t := by
  refine ⟨_, rfl, ?_⟩
  repeat' first
    | intro _
    | with_reducible assumption
    | with_reducible (first | apply Keeps.ite | apply emitRun_keeps)
    | split
    | dsimp only

theorem execRedEmitTimer_keeps {w : List Part} {s₀ : State} {tile} {c} {s} (m_clk : Part.clk ∈ w) (m_dyn : Part.dyn ∈ w) (m_free : Part.free ∈ w) (m_red : Part.red ∈ w) (m_regs : Part.regs ∈ w) (m_rel : Part.rel ∈ w) (m_trig : Part.trig ∈ w) (h : Keeps w s₀ s) :
    ∃ t, execRedEmitTimer tile c s = .next t ∧ Keeps w s₀ t := by
  refine ⟨_, rfl, ?_⟩
  repeat' first
    | intro _
    | with_reducible assumption
    | with_reducible (first | apply Keeps.ite | apply advanceTo_keeps | apply emitRun_keeps)
    | split
    | dsimp only

theorem ackHolds_keeps {w : List Part} {s₀ : State} {s} {x} (m_dyn : Part.dyn ∈ w) (m_free : Part.free ∈ w) (m_lane : Part.lane ∈ w) (m_obs : Part.obs ∈ w) (m_red : Part.red ∈ w) (m_regs : Part.regs ∈ w) (m_rel : Part.rel ∈ w) (h : Keeps w s₀ s) :
    Keeps w s₀ (ackHolds s x) := by
  unfold ackHolds
  repeat' first
    | intro _
    | with_reducible assumption
    | with_reducible (first | apply Keeps.ite | apply Keeps.foldl | apply Keeps.foldl_fst | apply Keeps.foldl_snd | apply ackTo_keeps | apply setRed_keeps)
    | split
    | dsimp only

theorem lastMark_keeps {w : List Part} {s₀ : State} {s} {x} (m_coll : Part.coll ∈ w) (m_regs : Part.regs ∈ w) (m_rel : Part.rel ∈ w) (h : Keeps w s₀ s) :
    Keeps w s₀ (lastMark s x) := by
  unfold lastMark
  repeat' first
    | intro _
    | with_reducible assumption
    | with_reducible (first | apply Keeps.ite | apply spSend_keeps)
    | split
    | dsimp only

theorem redEmitted_keeps {w : List Part} {s₀ : State} {s} {tile} {c} {n} (m_coll : Part.coll ∈ w) (m_dyn : Part.dyn ∈ w) (m_free : Part.free ∈ w) (m_lane : Part.lane ∈ w) (m_obs : Part.obs ∈ w) (m_red : Part.red ∈ w) (m_regs : Part.regs ∈ w) (m_rel : Part.rel ∈ w) (h : Keeps w s₀ s) :
    Keeps w s₀ (redEmitted s tile c n) := by
  unfold redEmitted
  repeat' first
    | intro _
    | with_reducible assumption
    | with_reducible (first | apply Keeps.ite | apply Keeps.foldl | apply Keeps.foldl_fst | apply Keeps.foldl_snd | apply setFld_keeps | apply ackTo_keeps | apply setRed_keeps | apply opEnd_keeps | apply ackHolds_keeps | apply lastMark_keeps)
    | split
    | dsimp only

theorem poisonOutputs_keeps {w : List Part} {s₀ : State} {s} {x} (m_dyn : Part.dyn ∈ w) (h : Keeps w s₀ s) :
    Keeps w s₀ (poisonOutputs s x) := by
  unfold poisonOutputs
  repeat' first
    | intro _
    | with_reducible assumption
    | with_reducible (first | apply Keeps.ite)
    | with_reducible (first | fail_if_no_progress apply Keeps.dyn m_dyn)
    | split
    | dsimp only

theorem setPoisoned_keeps {w : List Part} {s₀ : State} {s} {x} (m_regs : Part.regs ∈ w) (h : Keeps w s₀ s) :
    Keeps w s₀ (setPoisoned s x) := by
  unfold setPoisoned
  repeat' first
    | intro _
    | with_reducible assumption
    | with_reducible (first | apply Keeps.ite | apply setFld_keeps | apply bump_keeps)
    | split
    | dsimp only

theorem malNote_keeps {w : List Part} {s₀ : State} {s} {x} {p} (m_log : Part.log ∈ w) (m_regs : Part.regs ∈ w) (m_rel : Part.rel ∈ w) (h : Keeps w s₀ s) :
    Keeps w s₀ (malNote s x p) := by
  unfold malNote
  repeat' first
    | intro _
    | with_reducible assumption
    | with_reducible (first | apply Keeps.ite | apply log_keeps | apply ruFmt_keeps)
    | split
    | dsimp only

theorem malContrib_keeps {w : List Part} {s₀ : State} {s} {x} {p} {range} (m_coll : Part.coll ∈ w) (m_dyn : Part.dyn ∈ w) (m_free : Part.free ∈ w) (m_lane : Part.lane ∈ w) (m_log : Part.log ∈ w) (m_obs : Part.obs ∈ w) (m_red : Part.red ∈ w) (m_regs : Part.regs ∈ w) (m_rel : Part.rel ∈ w) (h : Keeps w s₀ s) :
    Keeps w s₀ (malContrib s x p range) := by
  unfold malContrib
  repeat' first
    | intro _
    | with_reducible assumption
    | with_reducible (first | apply Keeps.ite | apply Keeps.foldl | apply Keeps.foldl_fst | apply Keeps.foldl_snd | apply ackTo_keeps | apply setRed_keeps | apply takeHalf_keeps | apply closeCheck_keeps | apply ackHolds_keeps | apply poisonOutputs_keeps | apply setPoisoned_keeps | apply malNote_keeps)
    | split
    | dsimp only

theorem goodContrib_keeps {w : List Part} {s₀ : State} {s} {x} {p} {hs} {a} {b} {ev} (m_coll : Part.coll ∈ w) (m_dyn : Part.dyn ∈ w) (m_free : Part.free ∈ w) (m_lane : Part.lane ∈ w) (m_log : Part.log ∈ w) (m_obs : Part.obs ∈ w) (m_red : Part.red ∈ w) (m_regs : Part.regs ∈ w) (m_rel : Part.rel ∈ w) (h : Keeps w s₀ s) :
    Keeps w s₀ (goodContrib s x p hs a b ev) := by
  unfold goodContrib
  repeat' first
    | intro _
    | with_reducible assumption
    | with_reducible (first | apply Keeps.ite | apply ruFmt_keeps | apply setRed_keeps | apply closeCheck_keeps | apply setPoisoned_keeps)
    | split
    | dsimp only

theorem lateContrib_keeps {w : List Part} {s₀ : State} {s} {x} {p} {hs} (m_dyn : Part.dyn ∈ w) (m_free : Part.free ∈ w) (m_lane : Part.lane ∈ w) (m_obs : Part.obs ∈ w) (m_red : Part.red ∈ w) (m_regs : Part.regs ∈ w) (m_rel : Part.rel ∈ w) (h : Keeps w s₀ s) :
    Keeps w s₀ (lateContrib s x p hs) := by
  unfold lateContrib
  repeat' first
    | intro _
    | with_reducible assumption
    | with_reducible (first | apply Keeps.ite | apply ackTo_keeps | apply setRed_keeps | apply failStep_keeps)
    | split
    | dsimp only

theorem contribAt_keeps {w : List Part} {s₀ : State} {s} {p} (m_coll : Part.coll ∈ w) (m_dyn : Part.dyn ∈ w) (m_free : Part.free ∈ w) (m_host : Part.host ∈ w) (m_lane : Part.lane ∈ w) (m_log : Part.log ∈ w) (m_obs : Part.obs ∈ w) (m_red : Part.red ∈ w) (m_regs : Part.regs ∈ w) (m_rel : Part.rel ∈ w) (m_rpt : Part.rpt ∈ w) (h : Keeps w s₀ s) :
    Keeps w s₀ (contribAt s p) := by
  unfold contribAt
  repeat' first
    | intro _
    | with_reducible assumption
    | with_reducible (first | apply Keeps.ite | apply setFld_keeps | apply violation_keeps | apply errTo_keeps | apply malNote_keeps | apply malContrib_keeps | apply goodContrib_keeps | apply lateContrib_keeps)
    | split
    | dsimp only

theorem inputErr_keeps {w : List Part} {s₀ : State} {s} {p} (m_dyn : Part.dyn ∈ w) (m_free : Part.free ∈ w) (m_lane : Part.lane ∈ w) (m_obs : Part.obs ∈ w) (m_red : Part.red ∈ w) (m_regs : Part.regs ∈ w) (m_rel : Part.rel ∈ w) (h : Keeps w s₀ s) :
    Keeps w s₀ (inputErr s p) := by
  unfold inputErr
  repeat' first
    | intro _
    | with_reducible assumption
    | with_reducible (first | apply Keeps.ite | apply setRed_keeps | apply failStep_keeps | apply ctxFail_keeps)
    | split
    | dsimp only

theorem emptyEnd_keeps {w : List Part} {s₀ : State} {s} {x} (m_coll : Part.coll ∈ w) (m_red : Part.red ∈ w) (m_regs : Part.regs ∈ w) (m_rel : Part.rel ∈ w) (h : Keeps w s₀ s) :
    Keeps w s₀ (emptyEnd s x) := by
  unfold emptyEnd
  repeat' first
    | intro _
    | with_reducible assumption
    | with_reducible (first | apply Keeps.ite | apply opEnd_keeps | apply lastMark_keeps)
    | split
    | dsimp only

theorem openAt_keeps {w : List Part} {s₀ : State} {s} {x} {m} (m_coll : Part.coll ∈ w) (m_dyn : Part.dyn ∈ w) (m_free : Part.free ∈ w) (m_lane : Part.lane ∈ w) (m_obs : Part.obs ∈ w) (m_red : Part.red ∈ w) (m_regs : Part.regs ∈ w) (m_rel : Part.rel ∈ w) (h : Keeps w s₀ s) :
    Keeps w s₀ (openAt s x m) := by
  unfold openAt
  repeat' first
    | intro _
    | with_reducible assumption
    | with_reducible (first | apply Keeps.ite | apply spStale_keeps | apply setRed_keeps | apply openCheck_keeps | apply emptyEnd_keeps)
    | split
    | dsimp only

theorem closeAt_keeps {w : List Part} {s₀ : State} {s} {x} {m} (m_coll : Part.coll ∈ w) (m_dyn : Part.dyn ∈ w) (m_free : Part.free ∈ w) (m_lane : Part.lane ∈ w) (m_log : Part.log ∈ w) (m_obs : Part.obs ∈ w) (m_red : Part.red ∈ w) (m_regs : Part.regs ∈ w) (m_rel : Part.rel ∈ w) (h : Keeps w s₀ s) :
    Keeps w s₀ (closeAt s x m) := by
  unfold closeAt
  repeat' first
    | intro _
    | with_reducible assumption
    | with_reducible (first | apply Keeps.ite | apply spStale_keeps | apply setRed_keeps | apply digestFail_keeps | apply closeCheck_keeps | apply emptyEnd_keeps)
    | split
    | dsimp only

theorem execStepTimeout_keeps {w : List Part} {s₀ : State} {tile} {c} {s} (m_clk : Part.clk ∈ w) (m_coll : Part.coll ∈ w) (m_log : Part.log ∈ w) (m_red : Part.red ∈ w) (m_regs : Part.regs ∈ w) (m_rel : Part.rel ∈ w) (m_trig : Part.trig ∈ w) (h : Keeps w s₀ s) :
    ∃ t, execStepTimeout tile c s = .next t ∧ Keeps w s₀ t := by
  refine ⟨_, rfl, ?_⟩
  repeat' first
    | intro _
    | with_reducible assumption
    | with_reducible (first | apply Keeps.ite | apply log_keeps | apply advanceTo_keeps | apply setRed_keeps | apply ctxAbort_keeps)
    | split
    | dsimp only

theorem runTake_keeps {w : List Part} {s₀ : State} {s} {x} {b} (m_log : Part.log ∈ w) (m_red : Part.red ∈ w) (m_regs : Part.regs ∈ w) (m_rel : Part.rel ∈ w) (h : Keeps w s₀ s) :
    Keeps w s₀ (runTake s x b) := by
  unfold runTake
  repeat' first
    | intro _
    | with_reducible assumption
    | with_reducible (first | apply Keeps.ite | apply setFld_keeps | apply bump_keeps | apply log_keeps | apply ruFmt_keeps | apply setRed_keeps | apply setPoisoned_keeps)
    | split
    | dsimp only

theorem runOut_keeps {w : List Part} {s₀ : State} {s} {x} {g} (m_free : Part.free ∈ w) (m_red : Part.red ∈ w) (m_regs : Part.regs ∈ w) (m_sch : Part.sch ∈ w) (h : Keeps w s₀ s) :
    Keeps w s₀ (runOut s x g) := by
  unfold runOut
  repeat' first
    | intro _
    | with_reducible assumption
    | with_reducible (first | apply Keeps.ite | apply setFld_keeps | apply drawBytes_keeps | apply setRed_keeps)
    | refine Keeps.of_snd (by with_reducible assumption) ?_
    | with_reducible (first | fail_if_no_progress apply Keeps.sch m_sch)
    | split
    | dsimp only

theorem execRuSchedBeat_keeps {w : List Part} {s₀ : State} {tile} {ctx} {s} (m_free : Part.free ∈ w) (m_log : Part.log ∈ w) (m_red : Part.red ∈ w) (m_regs : Part.regs ∈ w) (m_rel : Part.rel ∈ w) (m_sch : Part.sch ∈ w) (h : Keeps w s₀ s) :
    ∃ t, execRuSchedBeat tile ctx s = .next t ∧ Keeps w s₀ t := by
  refine ⟨_, rfl, ?_⟩
  repeat' first
    | intro _
    | with_reducible assumption
    | with_reducible (first | apply Keeps.ite | apply runTake_keeps | apply runOut_keeps)
    | with_reducible (first | fail_if_no_progress apply Keeps.sch m_sch)
    | split
    | dsimp only

/-! ### Machine/Collective.lean -/

theorem updOp_keeps {w : List Part} {s₀ : State} {s} {x2} {i} {f} (m_coll : Part.coll ∈ w) (h : Keeps w s₀ s) :
    Keeps w s₀ (updOp s x2 i f) := by
  unfold updOp
  repeat' first
    | intro _
    | with_reducible assumption
    | with_reducible (first | apply Keeps.ite)
    | with_reducible (first | fail_if_no_progress apply Keeps.coll m_coll)
    | split
    | dsimp only

theorem setGrpPsn_keeps {w : List Part} {s₀ : State} {s} {x2} {i} (m_regs : Part.regs ∈ w) (h : Keeps w s₀ s) :
    Keeps w s₀ (setGrpPsn s x2 i) := by
  unfold setGrpPsn
  repeat' first
    | intro _
    | with_reducible assumption
    | with_reducible (first | apply Keeps.ite | apply raise_keeps)
    | split
    | dsimp only

theorem poisonGrp_keeps {w : List Part} {s₀ : State} {s} {x2} {i} {layer} {opid} (m_log : Part.log ∈ w) (m_regs : Part.regs ∈ w) (m_rel : Part.rel ∈ w) (h : Keeps w s₀ s) :
    Keeps w s₀ (poisonGrp s x2 i layer opid) := by
  unfold poisonGrp
  repeat' first
    | intro _
    | with_reducible assumption
    | with_reducible (first | apply Keeps.ite | apply log_keeps | apply setGrpPsn_keeps)
    | split
    | dsimp only

theorem setLand_keeps {w : List Part} {s₀ : State} {s} {x2} {l} {r} (m_coll : Part.coll ∈ w) (h : Keeps w s₀ s) :
    Keeps w s₀ (setLand s x2 l r) := by
  unfold setLand
  repeat' first
    | intro _
    | with_reducible assumption
    | with_reducible (first | apply Keeps.ite)
    | with_reducible (first | fail_if_no_progress apply Keeps.coll m_coll)
    | split
    | dsimp only

theorem barrierOver_keeps {w : List Part} {s₀ : State} {s} {x2} {i} {st} (m_regs : Part.regs ∈ w) (m_slu : Part.slu ∈ w) (h : Keeps w s₀ s) :
    Keeps w s₀ (barrierOver s x2 i st) := by
  unfold barrierOver
  repeat' first
    | intro _
    | with_reducible assumption
    | with_reducible (first | apply Keeps.ite | apply setFld_keeps)
    | with_reducible (first | fail_if_no_progress apply Keeps.slu m_slu)
    | split
    | dsimp only

theorem collEnd_keeps {w : List Part} {s₀ : State} {s} {o} {st} {detail} (m_coll : Part.coll ∈ w) (m_host : Part.host ∈ w) (m_log : Part.log ∈ w) (m_regs : Part.regs ∈ w) (m_rel : Part.rel ∈ w) (m_slu : Part.slu ∈ w) (h : Keeps w s₀ s) :
    Keeps w s₀ (collEnd s o st detail) := by
  unfold collEnd
  repeat' first
    | intro _
    | with_reducible assumption
    | with_reducible (first | apply Keeps.ite | apply Keeps.foldl | apply Keeps.foldl_fst | apply Keeps.foldl_snd | apply updCmd_keeps | apply poisonGrp_keeps | apply setLand_keeps | apply barrierOver_keeps)
    | with_reducible (first | fail_if_no_progress apply Keeps.coll m_coll)
    | split
    | dsimp only

theorem execTriggerArm_keeps {w : List Part} {s₀ : State} {b} {e} {v} {s} (m_log : Part.log ∈ w) (m_regs : Part.regs ∈ w) (m_rel : Part.rel ∈ w) (m_trig : Part.trig ∈ w) (h : Keeps w s₀ s) :
    ∃ t, execTriggerArm b e v s = .next t ∧ Keeps w s₀ t := by
  refine ⟨_, rfl, ?_⟩
  repeat' first
    | intro _
    | with_reducible assumption
    | with_reducible (first | apply Keeps.ite | apply setFld_keeps | apply softWrite_keeps | apply log_keeps | apply compareEntry_keeps)
    | with_reducible (first | fail_if_no_progress apply Keeps.trig m_trig)
    | split
    | dsimp only

theorem execTriggerDisarm_keeps {w : List Part} {s₀ : State} {b} {e} {v} {s} (m_regs : Part.regs ∈ w) (m_trig : Part.trig ∈ w) (h : Keeps w s₀ s) :
    ∃ t, execTriggerDisarm b e v s = .next t ∧ Keeps w s₀ t := by
  refine ⟨_, rfl, ?_⟩
  repeat' first
    | intro _
    | with_reducible assumption
    | with_reducible (first | apply Keeps.ite | apply softWrite_keeps | apply disarm_keeps)
    | with_reducible (first | fail_if_no_progress apply Keeps.trig m_trig)
    | split
    | dsimp only

theorem openMark_keeps {w : List Part} {s₀ : State} {s} {x2} {o} {d} (m_coll : Part.coll ∈ w) (m_regs : Part.regs ∈ w) (m_rel : Part.rel ∈ w) (h : Keeps w s₀ s) :
    Keeps w s₀ (openMark s x2 o d) := by
  unfold openMark
  repeat' first
    | intro _
    | with_reducible assumption
    | with_reducible (first | apply Keeps.ite | apply Keeps.same_id | apply spSend_keeps)
    | split
    | dsimp only

theorem closeMark_keeps {w : List Part} {s₀ : State} {s} {x2} {o} {d} (m_coll : Part.coll ∈ w) (m_regs : Part.regs ∈ w) (m_rel : Part.rel ∈ w) (h : Keeps w s₀ s) :
    Keeps w s₀ (closeMark s x2 o d) := by
  unfold closeMark
  repeat' first
    | intro _
    | with_reducible assumption
    | with_reducible (first | apply Keeps.ite | apply Keeps.same_id | apply injFire_keeps | apply spSend_keeps)
    | split
    | dsimp only

theorem execTriggerFire_keeps {w : List Part} {s₀ : State} {b} {s} (m_coll : Part.coll ∈ w) (m_regs : Part.regs ∈ w) (m_rel : Part.rel ∈ w) (m_trig : Part.trig ∈ w) (h : Keeps w s₀ s) :
    ∃ t, execTriggerFire b s = .next t ∧ Keeps w s₀ t := by
  refine ⟨_, rfl, ?_⟩
  repeat' first
    | intro _
    | with_reducible assumption
    | with_reducible (first | apply Keeps.ite | apply setFld_keeps | apply bump_keeps | apply disarm_keeps | apply openMark_keeps)
    | with_reducible (first | fail_if_no_progress apply Keeps.trig m_trig)
    | split
    | dsimp only

theorem lastDone_keeps {w : List Part} {s₀ : State} {s} {c} (m_coll : Part.coll ∈ w) (m_host : Part.host ∈ w) (m_log : Part.log ∈ w) (m_regs : Part.regs ∈ w) (m_rel : Part.rel ∈ w) (m_slu : Part.slu ∈ w) (h : Keeps w s₀ s) :
    Keeps w s₀ (lastDone s c) := by
  unfold lastDone
  repeat' first
    | intro _
    | with_reducible assumption
    | with_reducible (first | apply Keeps.ite | apply updOp_keeps | apply collEnd_keeps | apply closeMark_keeps)
    | split
    | dsimp only

theorem memberUp_keeps {w : List Part} {s₀ : State} {s} {o} (m_coll : Part.coll ∈ w) (m_log : Part.log ∈ w) (m_regs : Part.regs ∈ w) (m_rel : Part.rel ∈ w) (h : Keeps w s₀ s) :
    Keeps w s₀ (memberUp s o) := by
  unfold memberUp
  repeat' first
    | intro _
    | with_reducible assumption
    | with_reducible (first | apply Keeps.ite | apply Keeps.same_id | apply spSend_keeps | apply updOp_keeps | apply poisonGrp_keeps)
    | split
    | dsimp only

theorem runCollective_keeps {w : List Part} {s₀ : State} {s} {c} (m_coll : Part.coll ∈ w) (m_host : Part.host ∈ w) (m_log : Part.log ∈ w) (m_obs : Part.obs ∈ w) (m_regs : Part.regs ∈ w) (m_rel : Part.rel ∈ w) (m_trig : Part.trig ∈ w) (h : Keeps w s₀ s) :
    Keeps w s₀ (runCollective s c) := by
  unfold runCollective
  repeat' first
    | intro _
    | with_reducible assumption
    | with_reducible (first | apply Keeps.ite | apply Keeps.same_id | apply bump_keeps | apply addCtr_keeps | apply addCmd_keeps | apply memberUp_keeps)
    | with_reducible (first | fail_if_no_progress apply Keeps.coll m_coll)
    | split
    | dsimp only

theorem execCollective_keeps {w : List Part} {s₀ : State} {src} {s} (m_coll : Part.coll ∈ w) (m_host : Part.host ∈ w) (m_log : Part.log ∈ w) (m_obs : Part.obs ∈ w) (m_regs : Part.regs ∈ w) (m_rel : Part.rel ∈ w) (m_trig : Part.trig ∈ w) (h : Keeps w s₀ s) :
    ∃ t, execCollective src s = .next t ∧ Keeps w s₀ t := by
  refine ⟨_, rfl, ?_⟩
  repeat' first
    | intro _
    | with_reducible assumption
    | with_reducible (first | apply Keeps.ite | apply holdCore_keeps | apply endAt_keeps | apply startCmd_keeps | apply runCollective_keeps)
    | split
    | dsimp only

theorem landCheck_keeps {w : List Part} {s₀ : State} {s} {x2} {i} (m_coll : Part.coll ∈ w) (m_host : Part.host ∈ w) (m_log : Part.log ∈ w) (m_regs : Part.regs ∈ w) (m_rel : Part.rel ∈ w) (m_slu : Part.slu ∈ w) (h : Keeps w s₀ s) :
    Keeps w s₀ (landCheck s x2 i) := by
  unfold landCheck
  repeat' first
    | intro _
    | with_reducible assumption
    | with_reducible (first | apply Keeps.ite | apply log_keeps | apply collEnd_keeps)
    | split
    | dsimp only

theorem landHalf_keeps {w : List Part} {s₀ : State} {s} {x2} {l} {d} {psn} {x6} (m_coll : Part.coll ∈ w) (m_host : Part.host ∈ w) (m_mem : Part.mem ∈ w) (m_memPoison : Part.memPoison ∈ w) (m_obs : Part.obs ∈ w) (m_regs : Part.regs ∈ w) (h : Keeps w s₀ s) :
    Keeps w s₀ (landHalf s x2 l d psn x6) := by
  unfold landHalf
  repeat' first
    | intro _
    | with_reducible assumption
    | with_reducible (first | apply Keeps.ite | apply storeFabric_keeps | apply setLand_keeps)
    | split
    | dsimp only

theorem landCount_keeps {w : List Part} {s₀ : State} {s} {x2} {l} {n} (m_coll : Part.coll ∈ w) (m_trig : Part.trig ∈ w) (h : Keeps w s₀ s) :
    Keeps w s₀ (landCount s x2 l n) := by
  unfold landCount
  repeat' first
    | intro _
    | with_reducible assumption
    | with_reducible (first | apply Keeps.ite | apply addCtr_keeps | apply setLand_keeps)
    | split
    | dsimp only

theorem landResult_keeps {w : List Part} {s₀ : State} {s} {p} (m_coll : Part.coll ∈ w) (m_dyn : Part.dyn ∈ w) (m_free : Part.free ∈ w) (m_host : Part.host ∈ w) (m_lane : Part.lane ∈ w) (m_log : Part.log ∈ w) (m_mem : Part.mem ∈ w) (m_memPoison : Part.memPoison ∈ w) (m_obs : Part.obs ∈ w) (m_regs : Part.regs ∈ w) (m_rel : Part.rel ∈ w) (m_slu : Part.slu ∈ w) (m_trig : Part.trig ∈ w) (h : Keeps w s₀ s) :
    Keeps w s₀ (landResult s p) := by
  unfold landResult
  repeat' first
    | intro _
    | with_reducible assumption
    | with_reducible (first | apply Keeps.ite | apply Keeps.foldl | apply Keeps.foldl_fst | apply Keeps.foldl_snd | apply log_keeps | apply tniFmt_keeps | apply ackTo_keeps | apply errTo_keeps | apply setLand_keeps | apply landCheck_keeps | apply landHalf_keeps | apply landCount_keeps)
    | split
    | dsimp only

theorem landErr_keeps {w : List Part} {s₀ : State} {s} {p} (m_coll : Part.coll ∈ w) (m_host : Part.host ∈ w) (m_log : Part.log ∈ w) (m_regs : Part.regs ∈ w) (m_rel : Part.rel ∈ w) (m_slu : Part.slu ∈ w) (h : Keeps w s₀ s) :
    Keeps w s₀ (landErr s p) := by
  unfold landErr
  repeat' first
    | intro _
    | with_reducible assumption
    | with_reducible (first | apply Keeps.ite | apply collEnd_keeps)
    | split
    | dsimp only

theorem resultAt_keeps {w : List Part} {s₀ : State} {s} {m} (m_coll : Part.coll ∈ w) (m_host : Part.host ∈ w) (m_log : Part.log ∈ w) (m_regs : Part.regs ∈ w) (m_rel : Part.rel ∈ w) (m_slu : Part.slu ∈ w) (h : Keeps w s₀ s) :
    Keeps w s₀ (resultAt s m) := by
  unfold resultAt
  repeat' first
    | intro _
    | with_reducible assumption
    | with_reducible (first | apply Keeps.ite | apply injFire_keeps | apply spStale_keeps | apply setLand_keeps | apply landCheck_keeps)
    | split
    | dsimp only

theorem execAbortReq_keeps {w : List Part} {s₀ : State} {m} {s} (m_coll : Part.coll ∈ w) (m_host : Part.host ∈ w) (m_log : Part.log ∈ w) (m_regs : Part.regs ∈ w) (m_rel : Part.rel ∈ w) (m_rpt : Part.rpt ∈ w) (h : Keeps w s₀ s) :
    ∃ t, execAbortReq m s = .next t ∧ Keeps w s₀ t := by
  refine ⟨_, rfl, ?_⟩
  repeat' first
    | intro _
    | with_reducible assumption
    | with_reducible (first | apply Keeps.ite | apply Keeps.foldl | apply Keeps.foldl_fst | apply Keeps.foldl_snd | apply spSend_keeps | apply spForeign_keeps | apply spStale_keeps | apply spArrive_keeps)
    | with_reducible (first | fail_if_no_progress apply Keeps.coll m_coll)
    | split
    | dsimp only

theorem disarmGroup_keeps {w : List Part} {s₀ : State} {s} {b} {i} (m_regs : Part.regs ∈ w) (m_trig : Part.trig ∈ w) (h : Keeps w s₀ s) :
    Keeps w s₀ (disarmGroup s b i) := by
  unfold disarmGroup
  repeat' first
    | intro _
    | with_reducible assumption
    | with_reducible (first | apply Keeps.ite | apply Keeps.foldl | apply Keeps.foldl_fst | apply Keeps.foldl_snd | apply disarm_keeps)
    | with_reducible (first | fail_if_no_progress apply Keeps.trig m_trig)
    | split
    | dsimp only

theorem clearContexts_keeps {w : List Part} {s₀ : State} {s} {i} (m_dyn : Part.dyn ∈ w) (m_free : Part.free ∈ w) (m_lane : Part.lane ∈ w) (m_obs : Part.obs ∈ w) (m_red : Part.red ∈ w) (m_regs : Part.regs ∈ w) (m_rel : Part.rel ∈ w) (h : Keeps w s₀ s) :
    Keeps w s₀ (clearContexts s i) := by
  unfold clearContexts
  repeat' first
    | intro _
    | with_reducible assumption
    | with_reducible (first | apply Keeps.ite | apply Keeps.foldl | apply Keeps.foldl_fst | apply Keeps.foldl_snd | apply ctxDisable_keeps)
    | split
    | dsimp only

theorem execStart_keeps {w : List Part} {s₀ : State} {m} {s} (m_coll : Part.coll ∈ w) (m_host : Part.host ∈ w) (m_log : Part.log ∈ w) (m_regs : Part.regs ∈ w) (m_rel : Part.rel ∈ w) (m_rpt : Part.rpt ∈ w) (m_trig : Part.trig ∈ w) (h : Keeps w s₀ s) :
    ∃ t, execStart m s = .next t ∧ Keeps w s₀ t := by
  refine ⟨_, rfl, ?_⟩
  repeat' first
    | intro _
    | with_reducible assumption
    | with_reducible (first | apply Keeps.ite | apply Keeps.foldl | apply Keeps.foldl_fst | apply Keeps.foldl_snd | apply addCtr_keeps | apply spForeign_keeps | apply spStaleAll_keeps | apply spArrive_keeps)
    | split
    | dsimp only

theorem putSpOp_keeps {w : List Part} {s₀ : State} {s} {o} (m_coll : Part.coll ∈ w) (h : Keeps w s₀ s) :
    Keeps w s₀ (putSpOp s o) := by
  unfold putSpOp
  repeat' first
    | intro _
    | with_reducible assumption
    | with_reducible (first | apply Keeps.ite)
    | with_reducible (first | fail_if_no_progress apply Keeps.coll m_coll)
    | split
    | dsimp only

theorem dropSpOp_keeps {w : List Part} {s₀ : State} {s} {o} (m_coll : Part.coll ∈ w) (h : Keeps w s₀ s) :
    Keeps w s₀ (dropSpOp s o) := by
  unfold dropSpOp
  repeat' first
    | intro _
    | with_reducible assumption
    | with_reducible (first | apply Keeps.ite)
    | with_reducible (first | fail_if_no_progress apply Keeps.coll m_coll)
    | split
    | dsimp only

theorem spBack_keeps {w : List Part} {s₀ : State} {s} {o} {mk} (m_coll : Part.coll ∈ w) (m_regs : Part.regs ∈ w) (m_rel : Part.rel ∈ w) (h : Keeps w s₀ s) :
    Keeps w s₀ (spBack s o mk) := by
  unfold spBack
  repeat' first
    | intro _
    | with_reducible assumption
    | with_reducible (first | apply Keeps.ite | apply Keeps.foldl | apply Keeps.foldl_fst | apply Keeps.foldl_snd | apply spSend_keeps | apply dropSpOp_keeps)
    | split
    | dsimp only

theorem spComplete_keeps {w : List Part} {s₀ : State} {s} {o} (m_coll : Part.coll ∈ w) (m_regs : Part.regs ∈ w) (m_rel : Part.rel ∈ w) (h : Keeps w s₀ s) :
    Keeps w s₀ (spComplete s o) := by
  unfold spComplete
  repeat' first
    | intro _
    | with_reducible assumption
    | with_reducible (first | apply Keeps.ite | apply Keeps.same_id | apply ruFmt_keeps | apply spSend_keeps | apply putSpOp_keeps | apply spBack_keeps)
    | split
    | dsimp only

theorem spInput_keeps {w : List Part} {s₀ : State} {s} {tile} {node} {x} (m_coll : Part.coll ∈ w) (m_regs : Part.regs ∈ w) (m_rel : Part.rel ∈ w) (h : Keeps w s₀ s) :
    Keeps w s₀ (spInput s tile node x) := by
  unfold spInput
  repeat' first
    | intro _
    | with_reducible assumption
    | with_reducible (first | apply Keeps.ite | apply putSpOp_keeps | apply spComplete_keeps)
    | split
    | dsimp only

theorem spTakeIn_keeps {w : List Part} {s₀ : State} {s} {tile} {node} {x} (m_coll : Part.coll ∈ w) (m_regs : Part.regs ∈ w) (m_rel : Part.rel ∈ w) (h : Keeps w s₀ s) :
    Keeps w s₀ (spTakeIn s tile node x) := by
  unfold spTakeIn
  repeat' first
    | intro _
    | with_reducible assumption
    | with_reducible (first | apply Keeps.ite | apply spInput_keeps)
    | with_reducible (first | fail_if_no_progress apply Keeps.coll m_coll)
    | split
    | dsimp only

theorem execUp_keeps {w : List Part} {s₀ : State} {src} {m} {s} (m_coll : Part.coll ∈ w) (m_host : Part.host ∈ w) (m_log : Part.log ∈ w) (m_regs : Part.regs ∈ w) (m_rel : Part.rel ∈ w) (m_rpt : Part.rpt ∈ w) (h : Keeps w s₀ s) :
    ∃ t, execUp src m s = .next t ∧ Keeps w s₀ t := by
  refine ⟨_, rfl, ?_⟩
  repeat' first
    | intro _
    | with_reducible assumption
    | with_reducible (first | apply Keeps.ite | apply spForeign_keeps | apply spStale_keeps | apply spArrive_keeps | apply spTakeIn_keeps)
    | split
    | dsimp only

theorem execSpSpill_keeps {w : List Part} {s₀ : State} {tile} {src} {m} {s} (m_coll : Part.coll ∈ w) (m_regs : Part.regs ∈ w) (h : Keeps w s₀ s) :
    ∃ t, execSpSpill tile src m s = .next t ∧ Keeps w s₀ t := by
  refine ⟨_, rfl, ?_⟩
  repeat' first
    | intro _
    | with_reducible assumption
    | with_reducible (first | apply Keeps.ite | apply bump_keeps)
    | with_reducible (first | fail_if_no_progress apply Keeps.coll m_coll)
    | split
    | dsimp only

theorem spTakeBack_keeps {w : List Part} {s₀ : State} {s} {tile} {src} {m} (m_coll : Part.coll ∈ w) (m_regs : Part.regs ∈ w) (m_rel : Part.rel ∈ w) (h : Keeps w s₀ s) :
    Keeps w s₀ (spTakeBack s tile src m) := by
  unfold spTakeBack
  repeat' first
    | intro _
    | with_reducible assumption
    | with_reducible (first | apply Keeps.ite | apply spStale_keeps | apply spInput_keeps)
    | split
    | dsimp only

theorem execSpSpillReadback_keeps {w : List Part} {s₀ : State} {tile} {s} (m_coll : Part.coll ∈ w) (m_regs : Part.regs ∈ w) (m_rel : Part.rel ∈ w) (h : Keeps w s₀ s) :
    ∃ t, execSpSpillReadback tile s = .next t ∧ Keeps w s₀ t := by
  refine ⟨_, rfl, ?_⟩
  repeat' first
    | intro _
    | with_reducible assumption
    | with_reducible (first | apply Keeps.ite | apply spTakeBack_keeps)
    | with_reducible (first | fail_if_no_progress apply Keeps.coll m_coll)
    | split
    | dsimp only

/-! ### Machine/Trace.lean -/

theorem freezeNow_keeps {w : List Part} {s₀ : State} {s} {thaw} {no} (m_obs : Part.obs ∈ w) (m_regs : Part.regs ∈ w) (h : Keeps w s₀ s) :
    Keeps w s₀ (freezeNow s thaw no) := by
  unfold freezeNow
  repeat' first
    | intro _
    | with_reducible assumption
    | with_reducible (first | apply Keeps.ite | apply setFld_keeps | apply traceMark_keeps)
    | with_reducible (first | fail_if_no_progress apply Keeps.obs m_obs)
    | split
    | dsimp only

theorem execFreeze_keeps {w : List Part} {s₀ : State} {m} {s} (m_coll : Part.coll ∈ w) (m_host : Part.host ∈ w) (m_log : Part.log ∈ w) (m_obs : Part.obs ∈ w) (m_regs : Part.regs ∈ w) (m_rel : Part.rel ∈ w) (m_rpt : Part.rpt ∈ w) (h : Keeps w s₀ s) :
    ∃ t, execFreeze m s = .next t ∧ Keeps w s₀ t := by
  refine ⟨_, rfl, ?_⟩
  repeat' first
    | intro _
    | with_reducible assumption
    | with_reducible (first | apply Keeps.ite | apply bump_keeps | apply traceMark_keeps | apply spArrive_keeps | apply freezeNow_keeps)
    | with_reducible (first | fail_if_no_progress apply Keeps.obs m_obs)
    | split
    | dsimp only

theorem execFreezeApply_keeps {w : List Part} {s₀ : State} {s} (m_clk : Part.clk ∈ w) (m_obs : Part.obs ∈ w) (m_regs : Part.regs ∈ w) (m_rel : Part.rel ∈ w) (m_trig : Part.trig ∈ w) (h : Keeps w s₀ s) :
    ∃ t, execFreezeApply s = .next t ∧ Keeps w s₀ t := by
  refine ⟨_, rfl, ?_⟩
  repeat' first
    | intro _
    | with_reducible assumption
    | with_reducible (first | apply Keeps.ite | apply advanceTo_keeps | apply freezeNow_keeps)
    | with_reducible (first | fail_if_no_progress apply Keeps.obs m_obs)
    | split
    | dsimp only

theorem flushBuf_keeps {w : List Part} {s₀ : State} {s} {b} (m_dyn : Part.dyn ∈ w) (m_obs : Part.obs ∈ w) (h : Keeps w s₀ s) :
    Keeps w s₀ (flushBuf s b) := by
  unfold flushBuf
  repeat' first
    | intro _
    | with_reducible assumption
    | with_reducible (first | apply Keeps.ite | apply enqueue_keeps)
    | with_reducible (first | fail_if_no_progress apply Keeps.obs m_obs)
    | split
    | dsimp only

theorem execTraceFlush_keeps {w : List Part} {s₀ : State} {unit} {well} {s} (m_clk : Part.clk ∈ w) (m_dyn : Part.dyn ∈ w) (m_obs : Part.obs ∈ w) (m_regs : Part.regs ∈ w) (m_rel : Part.rel ∈ w) (m_trig : Part.trig ∈ w) (h : Keeps w s₀ s) :
    ∃ t, execTraceFlush unit well s = .next t ∧ Keeps w s₀ t := by
  refine ⟨_, rfl, ?_⟩
  repeat' first
    | intro _
    | with_reducible assumption
    | with_reducible (first | apply Keeps.ite | apply advanceTo_keeps | apply flushBuf_keeps)
    | split
    | dsimp only

theorem traceLost_keeps {w : List Part} {s₀ : State} {s} {id} (m_obs : Part.obs ∈ w) (m_regs : Part.regs ∈ w) (h : Keeps w s₀ s) :
    Keeps w s₀ (traceLost s id) := by
  unfold traceLost
  repeat' first
    | intro _
    | with_reducible assumption
    | with_reducible (first | apply Keeps.ite | apply Keeps.same_id | apply loseRec_keeps)
    | with_reducible (first | fail_if_no_progress apply Keeps.obs m_obs)
    | split
    | dsimp only

theorem traceClaimed_keeps {w : List Part} {s₀ : State} {s} {id} {old} (m_dyn : Part.dyn ∈ w) (m_obs : Part.obs ∈ w) (m_regs : Part.regs ∈ w) (h : Keeps w s₀ s) :
    Keeps w s₀ (traceClaimed s id old) := by
  unfold traceClaimed
  repeat' first
    | intro _
    | with_reducible assumption
    | with_reducible (first | apply Keeps.ite | apply Keeps.same_id | apply enqueue_keeps | apply traceLost_keeps)
    | split
    | dsimp only

theorem traceWritten_keeps {w : List Part} {s₀ : State} {s} {id} (m_obs : Part.obs ∈ w) (m_regs : Part.regs ∈ w) (h : Keeps w s₀ s) :
    Keeps w s₀ (traceWritten s id) := by
  unfold traceWritten
  repeat' first
    | intro _
    | with_reducible assumption
    | with_reducible (first | apply Keeps.ite | apply Keeps.same_id | apply bump_keeps)
    | with_reducible (first | fail_if_no_progress apply Keeps.obs m_obs)
    | split
    | dsimp only

theorem dropWell_keeps {w : List Part} {s₀ : State} {s} {well} (m_obs : Part.obs ∈ w) (m_regs : Part.regs ∈ w) (h : Keeps w s₀ s) :
    Keeps w s₀ (dropWell s well) := by
  unfold dropWell
  repeat' first
    | intro _
    | with_reducible assumption
    | with_reducible (first | apply Keeps.ite | apply Keeps.foldl | apply Keeps.foldl_fst | apply Keeps.foldl_snd | apply loseRec_keeps)
    | with_reducible (first | fail_if_no_progress apply Keeps.obs m_obs)
    | split
    | dsimp only

theorem execPcSample_keeps {w : List Part} {s₀ : State} {tile} {pc} {stall} {s} (m_clk : Part.clk ∈ w) (m_free : Part.free ∈ w) (m_obs : Part.obs ∈ w) (m_regs : Part.regs ∈ w) (m_rel : Part.rel ∈ w) (m_trig : Part.trig ∈ w) (h : Keeps w s₀ s) :
    ∃ t, execPcSample tile pc stall s = .next t ∧ Keeps w s₀ t := by
  refine ⟨_, rfl, ?_⟩
  repeat' first
    | intro _
    | with_reducible assumption
    | with_reducible (first | apply Keeps.ite | apply advanceTo_keeps | apply draw_keeps | apply putRec_keeps)
    | refine Keeps.of_snd (by with_reducible assumption) ?_
    | with_reducible (first | fail_if_no_progress apply Keeps.obs m_obs)
    | split
    | dsimp only

theorem execWatchRoundClose_keeps {w : List Part} {s₀ : State} {tile} {k} {s} (m_regs : Part.regs ∈ w) (h : Keeps w s₀ s) :
    ∃ t, execWatchRoundClose tile k s = .next t ∧ Keeps w s₀ t := by
  refine ⟨_, rfl, ?_⟩
  repeat' first
    | intro _
    | with_reducible assumption
    | with_reducible (first | apply Keeps.ite | apply setFld_keeps)
    | split
    | dsimp only

theorem watchResult_keeps {w : List Part} {s₀ : State} {s} {tile} {k} {bs} (m_free : Part.free ∈ w) (m_regs : Part.regs ∈ w) (h : Keeps w s₀ s) :
    Keeps w s₀ (watchResult s tile k bs) := by
  unfold watchResult
  repeat' first
    | intro _
    | with_reducible assumption
    | with_reducible (first | apply Keeps.ite | apply Keeps.foldl | apply Keeps.foldl_fst | apply Keeps.foldl_snd | apply wrReg_keeps | apply draw_keeps)
    | refine Keeps.of_snd (by with_reducible assumption) ?_
    | split
    | dsimp only

theorem execWatchReadbackDone_keeps {w : List Part} {s₀ : State} {tile} {k} {s} (m_free : Part.free ∈ w) (m_obs : Part.obs ∈ w) (m_regs : Part.regs ∈ w) (h : Keeps w s₀ s) :
    ∃ t, execWatchReadbackDone tile k s = .next t ∧ Keeps w s₀ t := by
  refine ⟨_, rfl, ?_⟩
  repeat' first
    | intro _
    | with_reducible assumption
    | with_reducible (first | apply Keeps.ite | apply setFld_keeps | apply bump_keeps | apply putRec_keeps | apply watchResult_keeps)
    | with_reducible (first | fail_if_no_progress apply Keeps.obs m_obs)
    | split
    | dsimp only

theorem watchAnew_keeps {w : List Part} {s₀ : State} {s} {tile} {k} (m_obs : Part.obs ∈ w) (m_regs : Part.regs ∈ w) (h : Keeps w s₀ s) :
    Keeps w s₀ (watchAnew s tile k) := by
  unfold watchAnew
  repeat' first
    | intro _
    | with_reducible assumption
    | with_reducible (first | apply Keeps.ite | apply setFld_keeps)
    | with_reducible (first | fail_if_no_progress apply Keeps.obs m_obs)
    | split
    | dsimp only

end Sys2Proof.Machine
end

