-- ==== Sys2Proof/Laws/FrameSluice.lean ====
section
/-!
SUPPORT. What each operation of Machine/Sluice.lean, Machine/Channel.lean, Machine/Pairs.lean can touch: one lemma an operation,
that composes with the lemmas of its callers.
-/
namespace Sys2Proof.Machine

set_option linter.unusedTactic false
set_option linter.unreachableTactic false

/-! ### Machine/Sluice.lean -/

theorem execInboxEnable_keeps {w : List Part} {s₀ : State} {x1} {k} {a} {b} {s} (m_regs : Part.regs ∈ w) (h : Keeps w s₀ s) :
    ∃ t, execInboxEnable x1 k a b s = .next t ∧ Keeps w s₀ t := by
  refine ⟨_, rfl, ?_⟩
  repeat' first
    | intro _
    | with_reducible assumption
    | with_reducible (first | apply Keeps.ite | apply setFld_keeps | apply softWrite_keeps)
    | split
    | dsimp only

theorem inbDrop_keeps {w : List Part} {s₀ : State} {s} {x2} {k} (m_slu : Part.slu ∈ w) (h : Keeps w s₀ s) :
    Keeps w s₀ (inbDrop s x2 k) := by
  unfold inbDrop
  repeat' first
    | intro _
    | with_reducible assumption
    | with_reducible (first | apply Keeps.ite)
    | with_reducible (first | fail_if_no_progress apply Keeps.slu m_slu)
    | split
    | dsimp only

theorem inbClear_keeps {w : List Part} {s₀ : State} {s} {x2} {k} (m_regs : Part.regs ∈ w) (h : Keeps w s₀ s) :
    Keeps w s₀ (inbClear s x2 k) := by
  unfold inbClear
  repeat' first
    | intro _
    | with_reducible assumption
    | with_reducible (first | apply Keeps.ite | apply wrReg_keeps)
    | split
    | dsimp only

theorem execInboxDisable_keeps {w : List Part} {s₀ : State} {x1} {k} {v} {s} (m_dyn : Part.dyn ∈ w) (m_host : Part.host ∈ w) (m_regs : Part.regs ∈ w) (m_slu : Part.slu ∈ w) (h : Keeps w s₀ s) :
    ∃ t, execInboxDisable x1 k v s = .next t ∧ Keeps w s₀ t := by
  refine ⟨_, rfl, ?_⟩
  repeat' first
    | intro _
    | with_reducible assumption
    | with_reducible (first | apply Keeps.ite | apply Keeps.foldl | apply Keeps.foldl_fst | apply Keeps.foldl_snd | apply Keeps.same_id | apply setFld_keeps | apply softWrite_keeps | apply dropReq_keeps | apply updCmd_keeps | apply inbDrop_keeps | apply inbClear_keeps)
    | with_reducible (first | fail_if_no_progress apply Keeps.slu m_slu)
    | split
    | dsimp only

theorem sluMalformed_keeps {w : List Part} {s₀ : State} {s} {p} (m_dyn : Part.dyn ∈ w) (m_free : Part.free ∈ w) (m_lane : Part.lane ∈ w) (m_log : Part.log ∈ w) (m_obs : Part.obs ∈ w) (m_regs : Part.regs ∈ w) (m_rel : Part.rel ∈ w) (h : Keeps w s₀ s) :
    Keeps w s₀ (sluMalformed s p) := by
  unfold sluMalformed
  repeat' first
    | intro _
    | with_reducible assumption
    | with_reducible (first | apply Keeps.ite | apply log_keeps | apply tniFmt_keeps | apply ackTo_keeps)
    | split
    | dsimp only

theorem putSlu_keeps {w : List Part} {s₀ : State} {s} {o} (m_slu : Part.slu ∈ w) (h : Keeps w s₀ s) :
    Keeps w s₀ (putSlu s o) := by
  unfold putSlu
  repeat' first
    | intro _
    | with_reducible assumption
    | with_reducible (first | apply Keeps.ite)
    | with_reducible (first | fail_if_no_progress apply Keeps.slu m_slu)
    | split
    | dsimp only

theorem sluFail_keeps {w : List Part} {s₀ : State} {s} {o} {st} (m_regs : Part.regs ∈ w) (h : Keeps w s₀ s) :
    Keeps w s₀ (sluFail s o st).1 := by
  unfold sluFail
  repeat' first
    | intro _
    | with_reducible assumption
    | with_reducible (first | apply Keeps.ite_fst | apply Keeps.ite | apply setFld_keeps)
    | split
    | dsimp only

theorem sendClaims_keeps {w : List Part} {s₀ : State} {s} {o} {round} (m_dyn : Part.dyn ∈ w) (m_regs : Part.regs ∈ w) (m_slu : Part.slu ∈ w) (h : Keeps w s₀ s) :
    Keeps w s₀ (sendClaims s o round) := by
  unfold sendClaims
  repeat' first
    | intro _
    | with_reducible assumption
    | with_reducible (first | apply Keeps.ite | apply Keeps.foldl | apply Keeps.foldl_fst | apply Keeps.foldl_snd | apply setFld_keeps | apply enqueue_keeps | apply putSlu_keeps)
    | split
    | dsimp only

theorem joinBarrier_keeps {w : List Part} {s₀ : State} {s} {o} (m_coll : Part.coll ∈ w) (m_log : Part.log ∈ w) (m_regs : Part.regs ∈ w) (m_rel : Part.rel ∈ w) (m_slu : Part.slu ∈ w) (m_trig : Part.trig ∈ w) (h : Keeps w s₀ s) :
    Keeps w s₀ (joinBarrier s o) := by
  unfold joinBarrier
  repeat' first
    | intro _
    | with_reducible assumption
    | with_reducible (first | apply Keeps.ite | apply Keeps.same_id | apply addCtr_keeps | apply memberUp_keeps | apply putSlu_keeps)
    | with_reducible (first | fail_if_no_progress apply Keeps.coll m_coll)
    | split
    | dsimp only

theorem writeRoute_keeps {w : List Part} {s₀ : State} {s} {o} (m_host : Part.host ∈ w) (m_mem : Part.mem ∈ w) (m_memPoison : Part.memPoison ∈ w) (m_obs : Part.obs ∈ w) (m_regs : Part.regs ∈ w) (h : Keeps w s₀ s) :
    Keeps w s₀ (writeRoute s o) := by
  unfold writeRoute
  repeat' first
    | intro _
    | with_reducible assumption
    | with_reducible (first | apply Keeps.ite | apply Keeps.foldl | apply Keeps.foldl_fst | apply Keeps.foldl_snd | apply storeFabric_keeps)
    | split
    | dsimp only

theorem sendRows_keeps {w : List Part} {s₀ : State} {s} {o} (m_dyn : Part.dyn ∈ w) (m_host : Part.host ∈ w) (m_mem : Part.mem ∈ w) (m_memPoison : Part.memPoison ∈ w) (m_obs : Part.obs ∈ w) (m_regs : Part.regs ∈ w) (m_slu : Part.slu ∈ w) (h : Keeps w s₀ s) :
    Keeps w s₀ (sendRows s o) := by
  unfold sendRows
  repeat' first
    | intro _
    | with_reducible assumption
    | with_reducible (first | apply Keeps.ite | apply Keeps.foldl | apply Keeps.foldl_fst | apply Keeps.foldl_snd | apply setFld_keeps | apply bump_keeps | apply tniFmt_keeps | apply enqueue_keeps | apply putSlu_keeps | apply writeRoute_keeps)
    | split
    | dsimp only

theorem dispatchDone_keeps {w : List Part} {s₀ : State} {s} {o} (m_host : Part.host ∈ w) (m_regs : Part.regs ∈ w) (m_slu : Part.slu ∈ w) (h : Keeps w s₀ s) :
    Keeps w s₀ (dispatchDone s o) := by
  unfold dispatchDone
  repeat' first
    | intro _
    | with_reducible assumption
    | with_reducible (first | apply Keeps.ite | apply setFld_keeps | apply updCmd_keeps | apply putSlu_keeps | apply sluFail_keeps)
    | refine Keeps.of_fst (by with_reducible assumption) ?_
    | split
    | dsimp only

theorem sluStep_keeps {w : List Part} {s₀ : State} {x1} {x2} {x3} {x4} (m_coll : Part.coll ∈ w) (m_dyn : Part.dyn ∈ w) (m_host : Part.host ∈ w) (m_log : Part.log ∈ w) (m_mem : Part.mem ∈ w) (m_memPoison : Part.memPoison ∈ w) (m_obs : Part.obs ∈ w) (m_regs : Part.regs ∈ w) (m_rel : Part.rel ∈ w) (m_slu : Part.slu ∈ w) (m_trig : Part.trig ∈ w) (h : Keeps w s₀ x2) :
    Keeps w s₀ (sluStep x1 x2 x3 x4) := by
  induction x1 generalizing x2 with
  | zero => exact h
  | succ k ih =>
    unfold sluStep
    split
    · exact h
    · dsimp only
      split
      · exact h
      · exact Keeps.ite (ih (joinBarrier_keeps m_coll m_log m_regs m_rel m_slu m_trig h)) h
      · exact Keeps.ite h (Keeps.ite (ih (sendClaims_keeps m_dyn m_regs m_slu h)) (ih (sendRows_keeps m_dyn m_host m_mem m_memPoison m_obs m_regs m_slu h)))
      · exact Keeps.ite (dispatchDone_keeps m_host m_regs m_slu h) h

theorem sluWake_keeps {w : List Part} {s₀ : State} {s} (m_coll : Part.coll ∈ w) (m_dyn : Part.dyn ∈ w) (m_host : Part.host ∈ w) (m_log : Part.log ∈ w) (m_mem : Part.mem ∈ w) (m_memPoison : Part.memPoison ∈ w) (m_obs : Part.obs ∈ w) (m_regs : Part.regs ∈ w) (m_rel : Part.rel ∈ w) (m_slu : Part.slu ∈ w) (m_trig : Part.trig ∈ w) (h : Keeps w s₀ s) :
    Keeps w s₀ (sluWake s) := by
  unfold sluWake
  repeat' first
    | intro _
    | with_reducible assumption
    | with_reducible (first | apply Keeps.ite | apply Keeps.foldl | apply Keeps.foldl_fst | apply Keeps.foldl_snd | apply sluStep_keeps)
    | split
    | dsimp only

theorem sluAck_keeps {w : List Part} {s₀ : State} {s} {x2} {i} {x} {st} (m_coll : Part.coll ∈ w) (m_dyn : Part.dyn ∈ w) (m_host : Part.host ∈ w) (m_log : Part.log ∈ w) (m_mem : Part.mem ∈ w) (m_memPoison : Part.memPoison ∈ w) (m_obs : Part.obs ∈ w) (m_regs : Part.regs ∈ w) (m_rel : Part.rel ∈ w) (m_slu : Part.slu ∈ w) (m_trig : Part.trig ∈ w) (h : Keeps w s₀ s) :
    Keeps w s₀ (sluAck s x2 i x st) := by
  unfold sluAck
  repeat' first
    | intro _
    | with_reducible assumption
    | with_reducible (first | apply Keeps.ite | apply Keeps.foldl | apply Keeps.foldl_fst | apply Keeps.foldl_snd | apply putSlu_keeps | apply sluFail_keeps | apply sluStep_keeps)
    | refine Keeps.of_fst (by with_reducible assumption) ?_
    | split
    | dsimp only

theorem sluStart_keeps {w : List Part} {s₀ : State} {s} {src} {ok} {waits} {k} (m_host : Part.host ∈ w) (m_obs : Part.obs ∈ w) (m_regs : Part.regs ∈ w) (m_trig : Part.trig ∈ w) (k5 : ∀ u y1, Keeps w s₀ u → Keeps w s₀ (k u y1)) (h : Keeps w s₀ s) :
    Keeps w s₀ (sluStart s src ok waits k) := by
  unfold sluStart
  repeat' first
    | intro _
    | with_reducible assumption
    | with_reducible (first | apply Keeps.ite | apply k5 | apply holdCore_keeps | apply endAt_keeps | apply startCmd_keeps)
    | split
    | dsimp only

theorem runDispatch_keeps {w : List Part} {s₀ : State} {s} {c} (m_coll : Part.coll ∈ w) (m_dyn : Part.dyn ∈ w) (m_host : Part.host ∈ w) (m_log : Part.log ∈ w) (m_mem : Part.mem ∈ w) (m_memPoison : Part.memPoison ∈ w) (m_obs : Part.obs ∈ w) (m_regs : Part.regs ∈ w) (m_rel : Part.rel ∈ w) (m_slu : Part.slu ∈ w) (m_trig : Part.trig ∈ w) (h : Keeps w s₀ s) :
    Keeps w s₀ (runDispatch s c) := by
  unfold runDispatch
  repeat' first
    | intro _
    | with_reducible assumption
    | with_reducible (first | apply Keeps.ite | apply Keeps.same_id | apply wrReg_keeps | apply addCmd_keeps | apply sendClaims_keeps | apply sluStep_keeps)
    | with_reducible (first | fail_if_no_progress apply Keeps.slu m_slu)
    | split
    | dsimp only

theorem execSluiceDispatch_keeps {w : List Part} {s₀ : State} {src} {s} (m_coll : Part.coll ∈ w) (m_dyn : Part.dyn ∈ w) (m_host : Part.host ∈ w) (m_log : Part.log ∈ w) (m_mem : Part.mem ∈ w) (m_memPoison : Part.memPoison ∈ w) (m_obs : Part.obs ∈ w) (m_regs : Part.regs ∈ w) (m_rel : Part.rel ∈ w) (m_slu : Part.slu ∈ w) (m_trig : Part.trig ∈ w) (h : Keeps w s₀ s) :
    ∃ t, execSluiceDispatch src s = .next t ∧ Keeps w s₀ t := by
  refine ⟨_, rfl, ?_⟩
  repeat' first
    | intro _
    | with_reducible assumption
    | with_reducible (first | apply Keeps.ite | apply sluStart_keeps | apply runDispatch_keeps)
    | split
    | dsimp only

theorem claimAt_keeps {w : List Part} {s₀ : State} {s} {p} (m_dyn : Part.dyn ∈ w) (m_free : Part.free ∈ w) (m_host : Part.host ∈ w) (m_lane : Part.lane ∈ w) (m_log : Part.log ∈ w) (m_obs : Part.obs ∈ w) (m_regs : Part.regs ∈ w) (m_rel : Part.rel ∈ w) (m_rpt : Part.rpt ∈ w) (m_slu : Part.slu ∈ w) (h : Keeps w s₀ s) :
    Keeps w s₀ (claimAt s p) := by
  unfold claimAt
  repeat' first
    | intro _
    | with_reducible assumption
    | with_reducible (first | apply Keeps.ite | apply Keeps.foldl | apply Keeps.foldl_fst | apply Keeps.foldl_snd | apply setFld_keeps | apply violation_keeps | apply ackTo_keeps | apply errTo_keeps | apply sluMalformed_keeps)
    | with_reducible (first | fail_if_no_progress apply Keeps.slu m_slu)
    | split
    | dsimp only

theorem admitClaim_keeps {w : List Part} {s₀ : State} {s} {c} (m_regs : Part.regs ∈ w) (m_slu : Part.slu ∈ w) (h : Keeps w s₀ s) :
    Keeps w s₀ (admitClaim s c) := by
  unfold admitClaim
  repeat' first
    | intro _
    | with_reducible assumption
    | with_reducible (first | apply Keeps.ite | apply setFld_keeps | apply bump_keeps)
    | with_reducible (first | fail_if_no_progress apply Keeps.slu m_slu)
    | split
    | dsimp only

theorem slotFull_keeps {w : List Part} {s₀ : State} {s} {x2} {k} (m_regs : Part.regs ∈ w) (m_trig : Part.trig ∈ w) (h : Keeps w s₀ s) :
    Keeps w s₀ (slotFull s x2 k) := by
  unfold slotFull
  repeat' first
    | intro _
    | with_reducible assumption
    | with_reducible (first | apply Keeps.ite | apply setFld_keeps | apply addCtr_keeps)
    | split
    | dsimp only

theorem slotFilling_keeps {w : List Part} {s₀ : State} {s} {x2} {k} (m_regs : Part.regs ∈ w) (m_trig : Part.trig ∈ w) (h : Keeps w s₀ s) :
    Keeps w s₀ (slotFilling s x2 k) := by
  unfold slotFilling
  repeat' first
    | intro _
    | with_reducible assumption
    | with_reducible (first | apply Keeps.ite | apply setFld_keeps | apply slotFull_keeps)
    | split
    | dsimp only

theorem admitSlot_keeps {w : List Part} {s₀ : State} {s} {x2} {k} {round} (m_regs : Part.regs ∈ w) (m_slu : Part.slu ∈ w) (m_trig : Part.trig ∈ w) (h : Keeps w s₀ s) :
    Keeps w s₀ (admitSlot s x2 k round) := by
  unfold admitSlot
  repeat' first
    | intro _
    | with_reducible assumption
    | with_reducible (first | apply Keeps.ite | apply Keeps.foldl | apply Keeps.foldl_fst | apply Keeps.foldl_snd | apply admitClaim_keeps | apply slotFilling_keeps)
    | with_reducible (first | fail_if_no_progress apply Keeps.slu m_slu)
    | split
    | dsimp only

theorem sendAssigns_keeps {w : List Part} {s₀ : State} {s} {x2} (m_dyn : Part.dyn ∈ w) (m_slu : Part.slu ∈ w) (h : Keeps w s₀ s) :
    Keeps w s₀ (sendAssigns s x2) := by
  unfold sendAssigns
  repeat' first
    | intro _
    | with_reducible assumption
    | with_reducible (first | apply Keeps.ite | apply Keeps.foldl | apply Keeps.foldl_fst | apply Keeps.foldl_snd | apply enqueue_keeps)
    | with_reducible (first | fail_if_no_progress apply Keeps.slu m_slu)
    | split
    | dsimp only

theorem poisonSlot_keeps {w : List Part} {s₀ : State} {s} {p} {k} (m_log : Part.log ∈ w) (m_regs : Part.regs ∈ w) (m_rel : Part.rel ∈ w) (h : Keeps w s₀ s) :
    Keeps w s₀ (poisonSlot s p k) := by
  unfold poisonSlot
  repeat' first
    | intro _
    | with_reducible assumption
    | with_reducible (first | apply Keeps.ite | apply setFld_keeps | apply log_keeps)
    | split
    | dsimp only

theorem takeRow_keeps {w : List Part} {s₀ : State} {s} {p} {k} {off} {bs} (m_mem : Part.mem ∈ w) (m_memPoison : Part.memPoison ∈ w) (m_obs : Part.obs ∈ w) (m_regs : Part.regs ∈ w) (m_slu : Part.slu ∈ w) (h : Keeps w s₀ s) :
    Keeps w s₀ (takeRow s p k off bs) := by
  unfold takeRow
  repeat' first
    | intro _
    | with_reducible assumption
    | with_reducible (first | apply Keeps.ite | apply bump_keeps | apply storeSeen_keeps)
    | with_reducible (first | fail_if_no_progress apply Keeps.slu m_slu)
    | split
    | dsimp only

theorem rowsAt_keeps {w : List Part} {s₀ : State} {s} {p} (m_dyn : Part.dyn ∈ w) (m_free : Part.free ∈ w) (m_host : Part.host ∈ w) (m_lane : Part.lane ∈ w) (m_log : Part.log ∈ w) (m_mem : Part.mem ∈ w) (m_memPoison : Part.memPoison ∈ w) (m_obs : Part.obs ∈ w) (m_regs : Part.regs ∈ w) (m_rel : Part.rel ∈ w) (m_rpt : Part.rpt ∈ w) (m_slu : Part.slu ∈ w) (m_trig : Part.trig ∈ w) (h : Keeps w s₀ s) :
    Keeps w s₀ (rowsAt s p) := by
  unfold rowsAt
  repeat' first
    | intro _
    | with_reducible assumption
    | with_reducible (first | apply Keeps.ite | apply setFld_keeps | apply violation_keeps | apply tniFmt_keeps | apply ackTo_keeps | apply errTo_keeps | apply sluMalformed_keeps | apply slotFull_keeps | apply poisonSlot_keeps | apply takeRow_keeps)
    | split
    | dsimp only

theorem assignAt_keeps {w : List Part} {s₀ : State} {s} {p} (m_coll : Part.coll ∈ w) (m_dyn : Part.dyn ∈ w) (m_free : Part.free ∈ w) (m_host : Part.host ∈ w) (m_lane : Part.lane ∈ w) (m_log : Part.log ∈ w) (m_mem : Part.mem ∈ w) (m_memPoison : Part.memPoison ∈ w) (m_obs : Part.obs ∈ w) (m_regs : Part.regs ∈ w) (m_rel : Part.rel ∈ w) (m_rpt : Part.rpt ∈ w) (m_slu : Part.slu ∈ w) (m_trig : Part.trig ∈ w) (h : Keeps w s₀ s) :
    Keeps w s₀ (assignAt s p) := by
  unfold assignAt
  repeat' first
    | intro _
    | with_reducible assumption
    | with_reducible (first | apply Keeps.ite | apply Keeps.foldl | apply Keeps.foldl_fst | apply Keeps.foldl_snd | apply violation_keeps | apply ackTo_keeps | apply errTo_keeps | apply sluMalformed_keeps | apply putSlu_keeps | apply sluStep_keeps)
    | split
    | dsimp only

theorem sluDispatchAt_keeps {w : List Part} {s₀ : State} {s} {p} (m_coll : Part.coll ∈ w) (m_dyn : Part.dyn ∈ w) (m_free : Part.free ∈ w) (m_host : Part.host ∈ w) (m_lane : Part.lane ∈ w) (m_log : Part.log ∈ w) (m_mem : Part.mem ∈ w) (m_memPoison : Part.memPoison ∈ w) (m_obs : Part.obs ∈ w) (m_regs : Part.regs ∈ w) (m_rel : Part.rel ∈ w) (m_rpt : Part.rpt ∈ w) (m_slu : Part.slu ∈ w) (m_trig : Part.trig ∈ w) (h : Keeps w s₀ s) :
    Keeps w s₀ (sluDispatchAt s p) := by
  unfold sluDispatchAt
  repeat' first
    | intro _
    | with_reducible assumption
    | with_reducible (first | apply Keeps.ite | apply sluMalformed_keeps | apply claimAt_keeps | apply rowsAt_keeps | apply assignAt_keeps)
    | split
    | dsimp only

theorem execClaim_keeps {w : List Part} {s₀ : State} {p} {s} (m_coll : Part.coll ∈ w) (m_dyn : Part.dyn ∈ w) (m_free : Part.free ∈ w) (m_host : Part.host ∈ w) (m_lane : Part.lane ∈ w) (m_log : Part.log ∈ w) (m_mem : Part.mem ∈ w) (m_memPoison : Part.memPoison ∈ w) (m_obs : Part.obs ∈ w) (m_regs : Part.regs ∈ w) (m_rel : Part.rel ∈ w) (m_rpt : Part.rpt ∈ w) (m_slu : Part.slu ∈ w) (m_trig : Part.trig ∈ w) (h : Keeps w s₀ s) :
    ∃ t, execClaim p s = .next t ∧ Keeps w s₀ t := by
  refine ⟨_, rfl, ?_⟩
  repeat' first
    | intro _
    | with_reducible assumption
    | with_reducible (first | apply Keeps.ite | apply arrive_keeps | apply sluDispatchAt_keeps)
    | split
    | dsimp only

theorem execAssign_keeps {w : List Part} {s₀ : State} {p} {s} (m_coll : Part.coll ∈ w) (m_dyn : Part.dyn ∈ w) (m_free : Part.free ∈ w) (m_host : Part.host ∈ w) (m_lane : Part.lane ∈ w) (m_log : Part.log ∈ w) (m_mem : Part.mem ∈ w) (m_memPoison : Part.memPoison ∈ w) (m_obs : Part.obs ∈ w) (m_regs : Part.regs ∈ w) (m_rel : Part.rel ∈ w) (m_rpt : Part.rpt ∈ w) (m_slu : Part.slu ∈ w) (m_trig : Part.trig ∈ w) (h : Keeps w s₀ s) :
    ∃ t, execAssign p s = .next t ∧ Keeps w s₀ t := by
  refine ⟨_, rfl, ?_⟩
  repeat' first
    | intro _
    | with_reducible assumption
    | with_reducible (first | apply Keeps.ite | apply arrive_keeps | apply sluDispatchAt_keeps)
    | split
    | dsimp only

theorem sendReturns_keeps {w : List Part} {s₀ : State} {s} {r} {d} {tenant} (m_dyn : Part.dyn ∈ w) (m_host : Part.host ∈ w) (m_regs : Part.regs ∈ w) (m_slu : Part.slu ∈ w) (h : Keeps w s₀ s) :
    Keeps w s₀ (sendReturns s r d tenant) := by
  unfold sendReturns
  repeat' first
    | intro _
    | with_reducible assumption
    | with_reducible (first | apply Keeps.ite | apply Keeps.foldl | apply Keeps.foldl_fst | apply Keeps.foldl_snd | apply tniFmt_keeps | apply enqueue_keeps | apply updCmd_keeps)
    | with_reducible (first | fail_if_no_progress apply Keeps.slu m_slu)
    | split
    | dsimp only

theorem retWake_keeps {w : List Part} {s₀ : State} {s} (m_dyn : Part.dyn ∈ w) (m_host : Part.host ∈ w) (m_regs : Part.regs ∈ w) (m_slu : Part.slu ∈ w) (h : Keeps w s₀ s) :
    Keeps w s₀ (retWake s) := by
  unfold retWake
  repeat' first
    | intro _
    | with_reducible assumption
    | with_reducible (first | apply Keeps.ite | apply Keeps.foldl | apply Keeps.foldl_fst | apply Keeps.foldl_snd | apply sendReturns_keeps)
    | split
    | dsimp only

theorem execHomeAdmission_keeps {w : List Part} {s₀ : State} {x1} {slots} {round} {s} (m_dyn : Part.dyn ∈ w) (m_host : Part.host ∈ w) (m_regs : Part.regs ∈ w) (m_slu : Part.slu ∈ w) (m_trig : Part.trig ∈ w) (h : Keeps w s₀ s) :
    ∃ t, execHomeAdmission x1 slots round s = .next t ∧ Keeps w s₀ t := by
  refine ⟨_, rfl, ?_⟩
  repeat' first
    | intro _
    | with_reducible assumption
    | with_reducible (first | apply Keeps.ite | apply Keeps.foldl | apply Keeps.foldl_fst | apply Keeps.foldl_snd | apply admitSlot_keeps | apply sendAssigns_keeps | apply retWake_keeps)
    | split
    | dsimp only

theorem retDone_keeps {w : List Part} {s₀ : State} {s} {c} (m_regs : Part.regs ∈ w) (m_slu : Part.slu ∈ w) (h : Keeps w s₀ s) :
    Keeps w s₀ (retDone s c) := by
  unfold retDone
  repeat' first
    | intro _
    | with_reducible assumption
    | with_reducible (first | apply Keeps.ite | apply Keeps.same_id | apply setFld_keeps | apply inbDrop_keeps | apply inbClear_keeps)
    | with_reducible (first | fail_if_no_progress apply Keeps.slu m_slu | fail_if_no_progress refine Keeps.record ?_)
    | split
    | dsimp only

theorem execSluiceReturn_keeps {w : List Part} {s₀ : State} {src} {s} (m_dyn : Part.dyn ∈ w) (m_host : Part.host ∈ w) (m_obs : Part.obs ∈ w) (m_regs : Part.regs ∈ w) (m_slu : Part.slu ∈ w) (m_trig : Part.trig ∈ w) (h : Keeps w s₀ s) :
    ∃ t, execSluiceReturn src s = .next t ∧ Keeps w s₀ t := by
  refine ⟨_, rfl, ?_⟩
  repeat' first
    | intro _
    | with_reducible assumption
    | with_reducible (first | apply Keeps.ite | apply Keeps.same_id | apply addCmd_keeps | apply sluStart_keeps | apply retWake_keeps)
    | with_reducible (first | fail_if_no_progress apply Keeps.slu m_slu)
    | split
    | dsimp only

theorem execRows_keeps {w : List Part} {s₀ : State} {p} {s} (m_coll : Part.coll ∈ w) (m_dyn : Part.dyn ∈ w) (m_free : Part.free ∈ w) (m_host : Part.host ∈ w) (m_lane : Part.lane ∈ w) (m_log : Part.log ∈ w) (m_mem : Part.mem ∈ w) (m_memPoison : Part.memPoison ∈ w) (m_obs : Part.obs ∈ w) (m_regs : Part.regs ∈ w) (m_rel : Part.rel ∈ w) (m_rpt : Part.rpt ∈ w) (m_slu : Part.slu ∈ w) (m_trig : Part.trig ∈ w) (h : Keeps w s₀ s) :
    ∃ t, execRows p s = .next t ∧ Keeps w s₀ t := by
  refine ⟨_, rfl, ?_⟩
  repeat' first
    | intro _
    | with_reducible assumption
    | with_reducible (first | apply Keeps.ite | apply arrive_keeps | apply sluDispatchAt_keeps | apply retWake_keeps)
    | split
    | dsimp only

theorem combineEnd_keeps {w : List Part} {s₀ : State} {s} {o} {id} {st} {detail} {bytes} (m_host : Part.host ∈ w) (m_regs : Part.regs ∈ w) (m_slu : Part.slu ∈ w) (h : Keeps w s₀ s) :
    Keeps w s₀ (combineEnd s o id st detail bytes) := by
  unfold combineEnd
  repeat' first
    | intro _
    | with_reducible assumption
    | with_reducible (first | apply Keeps.ite | apply Keeps.same_id | apply wrReg_keeps | apply bump_keeps | apply updCmd_keeps)
    | with_reducible (first | fail_if_no_progress apply Keeps.slu m_slu)
    | split
    | dsimp only

theorem combineWake_keeps {w : List Part} {s₀ : State} {s} {x2} {i} (m_host : Part.host ∈ w) (m_log : Part.log ∈ w) (m_mem : Part.mem ∈ w) (m_memPoison : Part.memPoison ∈ w) (m_obs : Part.obs ∈ w) (m_regs : Part.regs ∈ w) (m_rel : Part.rel ∈ w) (m_slu : Part.slu ∈ w) (h : Keeps w s₀ s) :
    Keeps w s₀ (combineWake s x2 i) := by
  unfold combineWake
  repeat' first
    | intro _
    | with_reducible assumption
    | with_reducible (first | apply Keeps.ite | apply Keeps.foldl | apply Keeps.foldl_fst | apply Keeps.foldl_snd | apply Keeps.same_id | apply setFld_keeps | apply bump_keeps | apply tniFmt_keeps | apply storeFabric_keeps | apply poisonGrp_keeps | apply combineEnd_keeps)
    | split
    | dsimp only

theorem unstageRow_keeps {w : List Part} {s₀ : State} {s} {o} {d} {x} (m_log : Part.log ∈ w) (m_regs : Part.regs ∈ w) (m_rel : Part.rel ∈ w) (h : Keeps w s₀ s) :
    Keeps w s₀ (unstageRow s o d x).1 := by
  unfold unstageRow
  repeat' first
    | intro _
    | with_reducible assumption
    | with_reducible (first | apply Keeps.ite_fst | apply Keeps.ite | apply Keeps.foldl | apply Keeps.foldl_fst | apply Keeps.foldl_snd | apply setFld_keeps | apply log_keeps | apply tniFmt_keeps)
    | split
    | dsimp only

theorem widenRow_keeps {w : List Part} {s₀ : State} {s} {o} {x} (m_host : Part.host ∈ w) (m_mem : Part.mem ∈ w) (m_memPoison : Part.memPoison ∈ w) (m_obs : Part.obs ∈ w) (m_regs : Part.regs ∈ w) (h : Keeps w s₀ s) :
    Keeps w s₀ (widenRow s o x) := by
  unfold widenRow
  repeat' first
    | intro _
    | with_reducible assumption
    | with_reducible (first | apply Keeps.ite | apply Keeps.foldl | apply Keeps.foldl_fst | apply Keeps.foldl_snd | apply storeFabric_keeps)
    | split
    | dsimp only

theorem judgeStaged_keeps {w : List Part} {s₀ : State} {s} {o} {d} (m_host : Part.host ∈ w) (m_log : Part.log ∈ w) (m_mem : Part.mem ∈ w) (m_memPoison : Part.memPoison ∈ w) (m_obs : Part.obs ∈ w) (m_regs : Part.regs ∈ w) (m_rel : Part.rel ∈ w) (h : Keeps w s₀ s) :
    Keeps w s₀ (judgeStaged s o d).1 := by
  unfold judgeStaged
  repeat' first
    | intro _
    | with_reducible assumption
    | with_reducible (first | apply Keeps.ite_fst | apply Keeps.ite | apply Keeps.foldl | apply Keeps.foldl_fst | apply Keeps.foldl_snd | apply unstageRow_keeps | apply widenRow_keeps)
    | refine Keeps.of_fst (by with_reducible assumption) ?_
    | split
    | dsimp only

theorem execSluiceCombine_keeps {w : List Part} {s₀ : State} {src} {s} (m_host : Part.host ∈ w) (m_log : Part.log ∈ w) (m_mem : Part.mem ∈ w) (m_memPoison : Part.memPoison ∈ w) (m_obs : Part.obs ∈ w) (m_regs : Part.regs ∈ w) (m_rel : Part.rel ∈ w) (m_slu : Part.slu ∈ w) (m_trig : Part.trig ∈ w) (h : Keeps w s₀ s) :
    ∃ t, execSluiceCombine src s = .next t ∧ Keeps w s₀ t := by
  refine ⟨_, rfl, ?_⟩
  repeat' first
    | intro _
    | with_reducible assumption
    | with_reducible (first | apply Keeps.ite | apply Keeps.same_id | apply addCmd_keeps | apply putSlu_keeps | apply sluStart_keeps | apply combineWake_keeps | apply judgeStaged_keeps)
    | refine Keeps.of_fst (by with_reducible assumption) ?_
    | split
    | dsimp only

theorem stageRow_keeps {w : List Part} {s₀ : State} {s} {o} {p} (m_host : Part.host ∈ w) (m_mem : Part.mem ∈ w) (m_memPoison : Part.memPoison ∈ w) (m_obs : Part.obs ∈ w) (m_regs : Part.regs ∈ w) (m_slu : Part.slu ∈ w) (h : Keeps w s₀ s) :
    Keeps w s₀ (stageRow s o p) := by
  unfold stageRow
  repeat' first
    | intro _
    | with_reducible assumption
    | with_reducible (first | apply Keeps.ite | apply setFld_keeps | apply bump_keeps | apply storeFabric_keeps | apply putSlu_keeps)
    | split
    | dsimp only

theorem returnAt_keeps {w : List Part} {s₀ : State} {s} {p} (m_dyn : Part.dyn ∈ w) (m_free : Part.free ∈ w) (m_host : Part.host ∈ w) (m_lane : Part.lane ∈ w) (m_log : Part.log ∈ w) (m_mem : Part.mem ∈ w) (m_memPoison : Part.memPoison ∈ w) (m_obs : Part.obs ∈ w) (m_regs : Part.regs ∈ w) (m_rel : Part.rel ∈ w) (m_rpt : Part.rpt ∈ w) (m_slu : Part.slu ∈ w) (h : Keeps w s₀ s) :
    Keeps w s₀ (returnAt s p) := by
  unfold returnAt
  repeat' first
    | intro _
    | with_reducible assumption
    | with_reducible (first | apply Keeps.ite | apply violation_keeps | apply ackTo_keeps | apply errTo_keeps | apply sluMalformed_keeps | apply putSlu_keeps | apply combineWake_keeps | apply stageRow_keeps)
    | split
    | dsimp only

theorem execReturn_keeps {w : List Part} {s₀ : State} {p} {s} (m_dyn : Part.dyn ∈ w) (m_free : Part.free ∈ w) (m_host : Part.host ∈ w) (m_lane : Part.lane ∈ w) (m_log : Part.log ∈ w) (m_mem : Part.mem ∈ w) (m_memPoison : Part.memPoison ∈ w) (m_obs : Part.obs ∈ w) (m_regs : Part.regs ∈ w) (m_rel : Part.rel ∈ w) (m_rpt : Part.rpt ∈ w) (m_slu : Part.slu ∈ w) (h : Keeps w s₀ s) :
    ∃ t, execReturn p s = .next t ∧ Keeps w s₀ t := by
  refine ⟨_, rfl, ?_⟩
  repeat' first
    | intro _
    | with_reducible assumption
    | with_reducible (first | apply Keeps.ite | apply arrive_keeps | apply returnAt_keeps)
    | split
    | dsimp only

theorem execSluiceTimeout_keeps {w : List Part} {s₀ : State} {x1} {i} {s} (m_clk : Part.clk ∈ w) (m_coll : Part.coll ∈ w) (m_host : Part.host ∈ w) (m_log : Part.log ∈ w) (m_regs : Part.regs ∈ w) (m_rel : Part.rel ∈ w) (m_slu : Part.slu ∈ w) (m_trig : Part.trig ∈ w) (h : Keeps w s₀ s) :
    ∃ t, execSluiceTimeout x1 i s = .next t ∧ Keeps w s₀ t := by
  refine ⟨_, rfl, ?_⟩
  repeat' first
    | intro _
    | with_reducible assumption
    | with_reducible (first | apply Keeps.ite | apply Keeps.same_id | apply setFld_keeps | apply advanceTo_keeps | apply updCmd_keeps | apply poisonGrp_keeps | apply putSlu_keeps | apply sluFail_keeps | apply combineEnd_keeps)
    | refine Keeps.of_fst (by with_reducible assumption) ?_
    | with_reducible (first | fail_if_no_progress apply Keeps.coll m_coll)
    | split
    | dsimp only

/-! ### Machine/Channel.lean -/

theorem setChState_keeps {w : List Part} {s₀ : State} {s} {x2} {c} {v} (m_regs : Part.regs ∈ w) (h : Keeps w s₀ s) :
    Keeps w s₀ (setChState s x2 c v) := by
  unfold setChState
  repeat' first
    | intro _
    | with_reducible assumption
    | with_reducible (first | apply Keeps.ite | apply setFld_keeps)
    | split
    | dsimp only

theorem setChan_keeps {w : List Part} {s₀ : State} {s} {x2} {c} {r} (m_chan : Part.chan ∈ w) (h : Keeps w s₀ s) :
    Keeps w s₀ (setChan s x2 c r) := by
  unfold setChan
  repeat' first
    | intro _
    | with_reducible assumption
    | with_reducible (first | apply Keeps.ite)
    | with_reducible (first | fail_if_no_progress apply Keeps.chan m_chan)
    | split
    | dsimp only

theorem chCount_keeps {w : List Part} {s₀ : State} {s} {x2} {f} {n} (m_regs : Part.regs ∈ w) (h : Keeps w s₀ s) :
    Keeps w s₀ (chCount s x2 f n) := by
  unfold chCount
  repeat' first
    | intro _
    | with_reducible assumption
    | with_reducible (first | apply Keeps.ite | apply bump_keeps)
    | split
    | dsimp only

theorem execSend_keeps {w : List Part} {s₀ : State} {src} {s} (m_dyn : Part.dyn ∈ w) (m_host : Part.host ∈ w) (m_obs : Part.obs ∈ w) (m_regs : Part.regs ∈ w) (m_trig : Part.trig ∈ w) (h : Keeps w s₀ s) :
    ∃ t, execSend src s = .next t ∧ Keeps w s₀ t := by
  refine ⟨_, rfl, ?_⟩
  repeat' first
    | intro _
    | with_reducible assumption
    | with_reducible (first | apply Keeps.ite | apply Keeps.same_id | apply enqueue_keeps | apply addCmd_keeps | apply endAt_keeps | apply startCmd_keeps)
    | split
    | dsimp only

theorem chPoison_keeps {w : List Part} {s₀ : State} {s} {x2} {c} {layer} {opid} (m_log : Part.log ∈ w) (m_regs : Part.regs ∈ w) (m_rel : Part.rel ∈ w) (h : Keeps w s₀ s) :
    Keeps w s₀ (chPoison s x2 c layer opid) := by
  unfold chPoison
  repeat' first
    | intro _
    | with_reducible assumption
    | with_reducible (first | apply Keeps.ite | apply log_keeps | apply setChState_keeps)
    | split
    | dsimp only

theorem spillMsg_keeps {w : List Part} {s₀ : State} {s} {x2} {c} {msg} {ack} {layer} {opid} (m_chan : Part.chan ∈ w) (m_dyn : Part.dyn ∈ w) (m_regs : Part.regs ∈ w) (h : Keeps w s₀ s) :
    Keeps w s₀ (spillMsg s x2 c msg ack layer opid) := by
  unfold spillMsg
  repeat' first
    | intro _
    | with_reducible assumption
    | with_reducible (first | apply Keeps.ite | apply setFld_keeps | apply enqueue_keeps | apply setChan_keeps | apply chCount_keeps)
    | split
    | dsimp only

theorem acceptMsg_keeps {w : List Part} {s₀ : State} {x1} {x2} {x3} {x4} {x5} {x6} {x7} (m_chan : Part.chan ∈ w) (m_dyn : Part.dyn ∈ w) (m_log : Part.log ∈ w) (m_regs : Part.regs ∈ w) (m_rel : Part.rel ∈ w) (h : Keeps w s₀ x1) :
    ∀ t, acceptMsg x1 x2 x3 x4 x5 x6 x7 = some t → Keeps w s₀ t := by
  intro t e
  unfold acceptMsg at e
  dsimp only at e
  split at e
  · cases e
  · split at e <;> cases e
    · exact setChan_keeps m_chan (Keeps.ite (chPoison_keeps m_log m_regs m_rel (chCount_keeps m_regs (bump_keeps m_regs h))) (chCount_keeps m_regs (bump_keeps m_regs h)))
    · exact spillMsg_keeps m_chan m_dyn m_regs (Keeps.ite (chPoison_keeps m_log m_regs m_rel (chCount_keeps m_regs (bump_keeps m_regs h))) (chCount_keeps m_regs (bump_keeps m_regs h)))

theorem spillFull_keeps {w : List Part} {s₀ : State} {s} {x2} {ack} (m_dyn : Part.dyn ∈ w) (m_free : Part.free ∈ w) (m_lane : Part.lane ∈ w) (m_obs : Part.obs ∈ w) (m_regs : Part.regs ∈ w) (m_rel : Part.rel ∈ w) (h : Keeps w s₀ s) :
    Keeps w s₀ (spillFull s x2 ack) := by
  unfold spillFull
  repeat' first
    | intro _
    | with_reducible assumption
    | with_reducible (first | apply Keeps.ite | apply ackTo_keeps | apply chCount_keeps)
    | split
    | dsimp only

theorem combineAt_keeps {w : List Part} {s₀ : State} {s} {x2} {c} {p} (m_chan : Part.chan ∈ w) (m_dyn : Part.dyn ∈ w) (m_free : Part.free ∈ w) (m_lane : Part.lane ∈ w) (m_log : Part.log ∈ w) (m_obs : Part.obs ∈ w) (m_regs : Part.regs ∈ w) (m_rel : Part.rel ∈ w) (h : Keeps w s₀ s) :
    Keeps w s₀ (combineAt s x2 c p) := by
  unfold combineAt
  repeat' first
    | intro _
    | with_reducible assumption
    | with_reducible (first | apply Keeps.ite | apply log_keeps | apply tniFmt_keeps | apply ackTo_keeps | apply setChan_keeps | apply spillFull_keeps)
    | refine acceptMsg_keeps m_chan m_dyn m_log m_regs m_rel ?_ _ (by assumption)
    | split
    | dsimp only

theorem judgeMsg_keeps {w : List Part} {s₀ : State} {s} {p} (m_chan : Part.chan ∈ w) (m_dyn : Part.dyn ∈ w) (m_free : Part.free ∈ w) (m_host : Part.host ∈ w) (m_lane : Part.lane ∈ w) (m_log : Part.log ∈ w) (m_obs : Part.obs ∈ w) (m_regs : Part.regs ∈ w) (m_rel : Part.rel ∈ w) (m_rpt : Part.rpt ∈ w) (h : Keeps w s₀ s) :
    Keeps w s₀ (judgeMsg s p) := by
  unfold judgeMsg
  repeat' first
    | intro _
    | with_reducible assumption
    | with_reducible (first | apply Keeps.ite | apply violation_keeps | apply ackTo_keeps | apply errTo_keeps | apply malPlain_keeps | apply chCount_keeps | apply chPoison_keeps | apply spillFull_keeps | apply combineAt_keeps)
    | refine acceptMsg_keeps m_chan m_dyn m_log m_regs m_rel ?_ _ (by assumption)
    | split
    | dsimp only

theorem execMsg_keeps {w : List Part} {s₀ : State} {p} {s} (m_chan : Part.chan ∈ w) (m_dyn : Part.dyn ∈ w) (m_free : Part.free ∈ w) (m_host : Part.host ∈ w) (m_lane : Part.lane ∈ w) (m_log : Part.log ∈ w) (m_obs : Part.obs ∈ w) (m_regs : Part.regs ∈ w) (m_rel : Part.rel ∈ w) (m_rpt : Part.rpt ∈ w) (h : Keeps w s₀ s) :
    ∃ t, execMsg p s = .next t ∧ Keeps w s₀ t := by
  refine ⟨_, rfl, ?_⟩
  repeat' first
    | intro _
    | with_reducible assumption
    | with_reducible (first | apply Keeps.ite | apply arrive_keeps | apply judgeMsg_keeps)
    | split
    | dsimp only

theorem noteHandler_keeps {w : List Part} {s₀ : State} {s} {x2} {c} (m_chan : Part.chan ∈ w) (m_log : Part.log ∈ w) (m_rel : Part.rel ∈ w) (h : Keeps w s₀ s) :
    Keeps w s₀ (noteHandler s x2 c) := by
  unfold noteHandler
  repeat' first
    | intro _
    | with_reducible assumption
    | with_reducible (first | apply Keeps.ite | apply log_keeps | apply setChan_keeps)
    | split
    | dsimp only

theorem writeRing_keeps {w : List Part} {s₀ : State} {s} {x2} {c} {m} (m_mem : Part.mem ∈ w) (m_memPoison : Part.memPoison ∈ w) (m_obs : Part.obs ∈ w) (m_regs : Part.regs ∈ w) (h : Keeps w s₀ s) :
    Keeps w s₀ (writeRing s x2 c m) := by
  unfold writeRing
  repeat' first
    | intro _
    | with_reducible assumption
    | with_reducible (first | apply Keeps.ite | apply storeSeen_keeps)
    | split
    | dsimp only

theorem execRingWrite_keeps {w : List Part} {s₀ : State} {x1} {c} {s} (m_chan : Part.chan ∈ w) (m_dyn : Part.dyn ∈ w) (m_free : Part.free ∈ w) (m_lane : Part.lane ∈ w) (m_log : Part.log ∈ w) (m_mem : Part.mem ∈ w) (m_memPoison : Part.memPoison ∈ w) (m_obs : Part.obs ∈ w) (m_regs : Part.regs ∈ w) (m_rel : Part.rel ∈ w) (h : Keeps w s₀ s) :
    ∃ t, execRingWrite x1 c s = .next t ∧ Keeps w s₀ t := by
  refine ⟨_, rfl, ?_⟩
  repeat' first
    | intro _
    | with_reducible assumption
    | with_reducible (first | apply Keeps.ite | apply setFld_keeps | apply ackTo_keeps | apply setChan_keeps | apply noteHandler_keeps | apply writeRing_keeps)
    | split
    | dsimp only

theorem passSpill_keeps {w : List Part} {s₀ : State} {x1} {x2} {x3} {x4} (m_chan : Part.chan ∈ w) (m_regs : Part.regs ∈ w) (h : Keeps w s₀ x1) :
    Keeps w s₀ (passSpill x1 x2 x3 x4) := by
  induction x4 generalizing x1 with
  | zero => exact h
  | succ k ih =>
    unfold passSpill
    dsimp only
    split
    · exact h
    · split
      · exact ih (setFld_keeps m_regs (setChan_keeps m_chan h))
      · exact ih (setChan_keeps m_chan h)
      · exact h

theorem passAll_keeps {w : List Part} {s₀ : State} {s} {x2} {c} (m_chan : Part.chan ∈ w) (m_regs : Part.regs ∈ w) (h : Keeps w s₀ s) :
    Keeps w s₀ (passAll s x2 c) := by
  unfold passAll
  repeat' first
    | intro _
    | with_reducible assumption
    | with_reducible (first | apply Keeps.ite | apply passSpill_keeps)
    | split
    | dsimp only

theorem updSpill_keeps {w : List Part} {s₀ : State} {s} {x2} {c} {k} {f} (m_chan : Part.chan ∈ w) (h : Keeps w s₀ s) :
    Keeps w s₀ (updSpill s x2 c k f) := by
  unfold updSpill
  repeat' first
    | intro _
    | with_reducible assumption
    | with_reducible (first | apply Keeps.ite | apply setChan_keeps)
    | split
    | dsimp only

theorem forgetSpill_keeps {w : List Part} {s₀ : State} {s} {mine} (m_dyn : Part.dyn ∈ w) (m_regs : Part.regs ∈ w) (h : Keeps w s₀ s) :
    Keeps w s₀ (forgetSpill s mine) := by
  unfold forgetSpill
  repeat' first
    | intro _
    | with_reducible assumption
    | with_reducible (first | apply Keeps.ite | apply Keeps.foldl | apply Keeps.foldl_fst | apply Keeps.foldl_snd | apply Keeps.same_id | apply dropReq_keeps)
    | with_reducible (first | fail_if_no_progress apply Keeps.dyn m_dyn)
    | split
    | dsimp only

theorem spillFailed_keeps {w : List Part} {s₀ : State} {s} {x2} {c} {k} {cause} (m_chan : Part.chan ∈ w) (m_dyn : Part.dyn ∈ w) (m_free : Part.free ∈ w) (m_lane : Part.lane ∈ w) (m_log : Part.log ∈ w) (m_obs : Part.obs ∈ w) (m_regs : Part.regs ∈ w) (m_rel : Part.rel ∈ w) (h : Keeps w s₀ s) :
    Keeps w s₀ (spillFailed s x2 c k cause) := by
  unfold spillFailed
  repeat' first
    | intro _
    | with_reducible assumption
    | with_reducible (first | apply Keeps.ite | apply log_keeps | apply spillFull_keeps | apply passAll_keeps | apply updSpill_keeps)
    | split
    | dsimp only

theorem spillWritten_keeps {w : List Part} {s₀ : State} {s} {x2} {c} {k} {st} (m_chan : Part.chan ∈ w) (m_dyn : Part.dyn ∈ w) (m_free : Part.free ∈ w) (m_lane : Part.lane ∈ w) (m_log : Part.log ∈ w) (m_obs : Part.obs ∈ w) (m_regs : Part.regs ∈ w) (m_rel : Part.rel ∈ w) (h : Keeps w s₀ s) :
    Keeps w s₀ (spillWritten s x2 c k st) := by
  unfold spillWritten
  repeat' first
    | intro _
    | with_reducible assumption
    | with_reducible (first | apply Keeps.ite | apply ackTo_keeps | apply updSpill_keeps | apply spillFailed_keeps)
    | split
    | dsimp only

theorem execSpillWriteTimeout_keeps {w : List Part} {s₀ : State} {x1} {c} {k} {s} (m_chan : Part.chan ∈ w) (m_clk : Part.clk ∈ w) (m_dyn : Part.dyn ∈ w) (m_free : Part.free ∈ w) (m_lane : Part.lane ∈ w) (m_log : Part.log ∈ w) (m_obs : Part.obs ∈ w) (m_regs : Part.regs ∈ w) (m_rel : Part.rel ∈ w) (m_trig : Part.trig ∈ w) (h : Keeps w s₀ s) :
    ∃ t, execSpillWriteTimeout x1 c k s = .next t ∧ Keeps w s₀ t := by
  refine ⟨_, rfl, ?_⟩
  repeat' first
    | intro _
    | with_reducible assumption
    | with_reducible (first | apply Keeps.ite | apply advanceTo_keeps | apply forgetSpill_keeps | apply spillFailed_keeps)
    | split
    | dsimp only

theorem execRefillRead_keeps {w : List Part} {s₀ : State} {x1} {c} {s} (m_chan : Part.chan ∈ w) (m_dyn : Part.dyn ∈ w) (h : Keeps w s₀ s) :
    ∃ t, execRefillRead x1 c s = .next t ∧ Keeps w s₀ t := by
  refine ⟨_, rfl, ?_⟩
  repeat' first
    | intro _
    | with_reducible assumption
    | with_reducible (first | apply Keeps.ite | apply enqueue_keeps | apply updSpill_keeps)
    | split
    | dsimp only

theorem refillData_keeps {w : List Part} {s₀ : State} {s} {x2} {c} {k} {bs} {psn} (m_chan : Part.chan ∈ w) (m_log : Part.log ∈ w) (m_regs : Part.regs ∈ w) (m_rel : Part.rel ∈ w) (h : Keeps w s₀ s) :
    Keeps w s₀ (refillData s x2 c k bs psn) := by
  unfold refillData
  repeat' first
    | intro _
    | with_reducible assumption
    | with_reducible (first | apply Keeps.ite | apply chPoison_keeps | apply passAll_keeps | apply updSpill_keeps)
    | split
    | dsimp only

theorem refillFailed_keeps {w : List Part} {s₀ : State} {s} {x2} {c} {k} {st} (m_chan : Part.chan ∈ w) (m_log : Part.log ∈ w) (m_regs : Part.regs ∈ w) (m_rel : Part.rel ∈ w) (h : Keeps w s₀ s) :
    Keeps w s₀ (refillFailed s x2 c k st) := by
  unfold refillFailed
  repeat' first
    | intro _
    | with_reducible assumption
    | with_reducible (first | apply Keeps.ite | apply log_keeps | apply chCount_keeps | apply passAll_keeps | apply updSpill_keeps)
    | split
    | dsimp only

theorem execHandlerDispatch_keeps {w : List Part} {s₀ : State} {x1} {s} (m_chan : Part.chan ∈ w) (m_regs : Part.regs ∈ w) (h : Keeps w s₀ s) :
    ∃ t, execHandlerDispatch x1 s = .next t ∧ Keeps w s₀ t := by
  refine ⟨_, rfl, ?_⟩
  repeat' first
    | intro _
    | with_reducible assumption
    | with_reducible (first | apply Keeps.ite | apply Keeps.foldl | apply Keeps.foldl_fst | apply Keeps.foldl_snd | apply setFld_keeps)
    | with_reducible (first | fail_if_no_progress apply Keeps.chan m_chan)
    | split
    | dsimp only

theorem dropDispatch_keeps {w : List Part} {s₀ : State} {s} {x2} {c} (m_chan : Part.chan ∈ w) (m_regs : Part.regs ∈ w) (h : Keeps w s₀ s) :
    Keeps w s₀ (dropDispatch s x2 c) := by
  unfold dropDispatch
  repeat' first
    | intro _
    | with_reducible assumption
    | with_reducible (first | apply Keeps.ite | apply setFld_keeps)
    | with_reducible (first | fail_if_no_progress apply Keeps.chan m_chan)
    | split
    | dsimp only

theorem execRetire_keeps {w : List Part} {s₀ : State} {x1} {c} {n} {s} (m_chan : Part.chan ∈ w) (m_log : Part.log ∈ w) (m_regs : Part.regs ∈ w) (m_rel : Part.rel ∈ w) (h : Keeps w s₀ s) :
    ∃ t, execRetire x1 c n s = .next t ∧ Keeps w s₀ t := by
  refine ⟨_, rfl, ?_⟩
  repeat' first
    | intro _
    | with_reducible assumption
    | with_reducible (first | apply Keeps.ite | apply setFld_keeps | apply log_keeps | apply setChan_keeps | apply dropDispatch_keeps)
    | split
    | dsimp only

theorem chClose_keeps {w : List Part} {s₀ : State} {s} {x2} {c} (m_chan : Part.chan ∈ w) (m_dyn : Part.dyn ∈ w) (m_log : Part.log ∈ w) (m_regs : Part.regs ∈ w) (m_rel : Part.rel ∈ w) (h : Keeps w s₀ s) :
    Keeps w s₀ (chClose s x2 c) := by
  unfold chClose
  repeat' first
    | intro _
    | with_reducible assumption
    | with_reducible (first | apply Keeps.ite | apply setChState_keeps | apply setChan_keeps | apply chCount_keeps)
    | refine acceptMsg_keeps m_chan m_dyn m_log m_regs m_rel ?_ _ (by assumption)
    | split
    | dsimp only

theorem execChannelCoreClose_keeps {w : List Part} {s₀ : State} {x1} {c} {s} (m_chan : Part.chan ∈ w) (m_dyn : Part.dyn ∈ w) (m_log : Part.log ∈ w) (m_regs : Part.regs ∈ w) (m_rel : Part.rel ∈ w) (h : Keeps w s₀ s) :
    ∃ t, execChannelCoreClose x1 c s = .next t ∧ Keeps w s₀ t := by
  refine ⟨_, rfl, ?_⟩
  repeat' first
    | intro _
    | with_reducible assumption
    | with_reducible (first | apply Keeps.ite | apply chClose_keeps)
    | split
    | dsimp only

theorem execReopen_keeps {w : List Part} {s₀ : State} {x1} {c} {s} (m_regs : Part.regs ∈ w) (h : Keeps w s₀ s) :
    ∃ t, execReopen x1 c s = .next t ∧ Keeps w s₀ t := by
  refine ⟨_, rfl, ?_⟩
  repeat' first
    | intro _
    | with_reducible assumption
    | with_reducible (first | apply Keeps.ite | apply setChState_keeps)
    | split
    | dsimp only

theorem chReset_keeps {w : List Part} {s₀ : State} {s} {x2} {c} {zero} (m_chan : Part.chan ∈ w) (m_dyn : Part.dyn ∈ w) (m_free : Part.free ∈ w) (m_lane : Part.lane ∈ w) (m_mem : Part.mem ∈ w) (m_memPoison : Part.memPoison ∈ w) (m_obs : Part.obs ∈ w) (m_regs : Part.regs ∈ w) (m_rel : Part.rel ∈ w) (h : Keeps w s₀ s) :
    Keeps w s₀ (chReset s x2 c zero) := by
  unfold chReset
  repeat' first
    | intro _
    | with_reducible assumption
    | with_reducible (first | apply Keeps.ite | apply Keeps.foldl | apply Keeps.foldl_fst | apply Keeps.foldl_snd | apply wrReg_keeps | apply storeSeen_keeps | apply ackTo_keeps | apply setChan_keeps | apply chCount_keeps | apply forgetSpill_keeps)
    | split
    | dsimp only

theorem execChannelCoreReset_keeps {w : List Part} {s₀ : State} {x1} {c} {s} (m_chan : Part.chan ∈ w) (m_dyn : Part.dyn ∈ w) (m_free : Part.free ∈ w) (m_lane : Part.lane ∈ w) (m_mem : Part.mem ∈ w) (m_memPoison : Part.memPoison ∈ w) (m_obs : Part.obs ∈ w) (m_regs : Part.regs ∈ w) (m_rel : Part.rel ∈ w) (h : Keeps w s₀ s) :
    ∃ t, execChannelCoreReset x1 c s = .next t ∧ Keeps w s₀ t := by
  refine ⟨_, rfl, ?_⟩
  repeat' first
    | intro _
    | with_reducible assumption
    | with_reducible (first | apply Keeps.ite | apply chReset_keeps)
    | split
    | dsimp only

theorem chTry_keeps {w : List Part} {s₀ : State} {s} {x2} {c} {cfg} {ring} {spill} (m_regs : Part.regs ∈ w) (h : Keeps w s₀ s) :
    Keeps w s₀ (chTry s x2 c cfg ring spill) := by
  unfold chTry
  repeat' first
    | intro _
    | with_reducible assumption
    | with_reducible (first | apply Keeps.ite | apply softWrite_keeps)
    | split
    | dsimp only

theorem chOpen_keeps {w : List Part} {s₀ : State} {s} {x2} {c} {cfg} {ring} {spill} (m_chan : Part.chan ∈ w) (m_regs : Part.regs ∈ w) (h : Keeps w s₀ s) :
    Keeps w s₀ (chOpen s x2 c cfg ring spill).1 := by
  unfold chOpen
  repeat' first
    | intro _
    | with_reducible assumption
    | with_reducible (first | apply Keeps.ite_fst | apply Keeps.ite | apply setChState_keeps | apply setChan_keeps | apply chTry_keeps)
    | split
    | dsimp only

/-! ### Machine/Pairs.lean -/

theorem setQp_keeps {w : List Part} {s₀ : State} {s} {e} {q} {r} (m_regs : Part.regs ∈ w) (m_rte : Part.rte ∈ w) (h : Keeps w s₀ s) :
    Keeps w s₀ (setQp s e q r) := by
  unfold setQp
  repeat' first
    | intro _
    | with_reducible assumption
    | with_reducible (first | apply Keeps.ite | apply setFld_keeps)
    | with_reducible (first | fail_if_no_progress apply Keeps.rte m_rte)
    | split
    | dsimp only

theorem setQpState_keeps {w : List Part} {s₀ : State} {s} {e} {q} {v} {st} (m_regs : Part.regs ∈ w) (h : Keeps w s₀ s) :
    Keeps w s₀ (setQpState s e q v st) := by
  unfold setQpState
  repeat' first
    | intro _
    | with_reducible assumption
    | with_reducible (first | apply Keeps.ite | apply setFld_keeps)
    | split
    | dsimp only

theorem setPort_keeps {w : List Part} {s₀ : State} {s} {e} {k} {p} (m_rte : Part.rte ∈ w) (h : Keeps w s₀ s) :
    Keeps w s₀ (setPort s e k p) := by
  unfold setPort
  repeat' first
    | intro _
    | with_reducible assumption
    | with_reducible (first | apply Keeps.ite)
    | with_reducible (first | fail_if_no_progress apply Keeps.rte m_rte)
    | split
    | dsimp only

theorem creditSettle_keeps {w : List Part} {s₀ : State} {s} {e} {k} (m_rte : Part.rte ∈ w) (h : Keeps w s₀ s) :
    Keeps w s₀ (creditSettle s e k) := by
  unfold creditSettle
  repeat' first
    | intro _
    | with_reducible assumption
    | with_reducible (first | apply Keeps.ite | apply Keeps.foldl | apply Keeps.foldl_fst | apply Keeps.foldl_snd | apply setPort_keeps)
    | split
    | dsimp only

theorem putData_keeps {w : List Part} {s₀ : State} {s} {e} {k} {c} {x} (m_rte : Part.rte ∈ w) (h : Keeps w s₀ s) :
    Keeps w s₀ (putData s e k c x) := by
  unfold putData
  repeat' first
    | intro _
    | with_reducible assumption
    | with_reducible (first | apply Keeps.ite | apply setPort_keeps | apply creditSettle_keeps)
    | split
    | dsimp only

theorem putCtl_keeps {w : List Part} {s₀ : State} {s} {e} {k} {c} {x} (m_rte : Part.rte ∈ w) (h : Keeps w s₀ s) :
    Keeps w s₀ (putCtl s e k c x) := by
  unfold putCtl
  repeat' first
    | intro _
    | with_reducible assumption
    | with_reducible (first | apply Keeps.ite | apply setPort_keeps | apply creditSettle_keeps)
    | split
    | dsimp only

theorem ackNow_keeps {w : List Part} {s₀ : State} {s} {e} {q} (m_regs : Part.regs ∈ w) (m_rte : Part.rte ∈ w) (h : Keeps w s₀ s) :
    Keeps w s₀ (ackNow s e q) := by
  unfold ackNow
  repeat' first
    | intro _
    | with_reducible assumption
    | with_reducible (first | apply Keeps.ite | apply bump_keeps | apply setQp_keeps | apply setPort_keeps | apply creditSettle_keeps)
    | split
    | dsimp only

theorem touchPorts_keeps {w : List Part} {s₀ : State} {s} {e} {r} (m_rte : Part.rte ∈ w) (h : Keeps w s₀ s) :
    Keeps w s₀ (touchPorts s e r) := by
  unfold touchPorts
  repeat' first
    | intro _
    | with_reducible assumption
    | with_reducible (first | apply Keeps.ite | apply Keeps.foldl | apply Keeps.foldl_fst | apply Keeps.foldl_snd | apply setPort_keeps)
    | split
    | dsimp only

theorem closeTidy_keeps {w : List Part} {s₀ : State} {s} (m_rte : Part.rte ∈ w) (h : Keeps w s₀ s) :
    Keeps w s₀ (closeTidy s) := by
  unfold closeTidy
  repeat' first
    | intro _
    | with_reducible assumption
    | with_reducible (first | apply Keeps.ite)
    | with_reducible (first | fail_if_no_progress apply Keeps.rte m_rte)
    | split
    | dsimp only

theorem qpOpDone_keeps {w : List Part} {s₀ : State} {s} {id} (m_regs : Part.regs ∈ w) (m_rte : Part.rte ∈ w) (h : Keeps w s₀ s) :
    Keeps w s₀ (qpOpDone s id) := by
  unfold qpOpDone
  repeat' first
    | intro _
    | with_reducible assumption
    | with_reducible (first | apply Keeps.ite | apply Keeps.same_id | apply setQp_keeps)
    | split
    | dsimp only

theorem qpDrop_keeps {w : List Part} {s₀ : State} {s} {id} (m_rte : Part.rte ∈ w) (h : Keeps w s₀ s) :
    Keeps w s₀ (qpDrop s id) := by
  unfold qpDrop
  repeat' first
    | intro _
    | with_reducible assumption
    | with_reducible (first | apply Keeps.ite | apply Keeps.same_id)
    | with_reducible (first | fail_if_no_progress apply Keeps.rte m_rte)
    | split
    | dsimp only

theorem ownDone_keeps {w : List Part} {s₀ : State} {s} {p} {st} (m_dyn : Part.dyn ∈ w) (m_free : Part.free ∈ w) (m_lane : Part.lane ∈ w) (m_obs : Part.obs ∈ w) (m_regs : Part.regs ∈ w) (m_rel : Part.rel ∈ w) (m_trig : Part.trig ∈ w) (h : Keeps w s₀ s) :
    Keeps w s₀ (ownDone s p st) := by
  unfold ownDone
  repeat' first
    | intro _
    | with_reducible assumption
    | with_reducible (first | apply Keeps.ite | apply addDone_keeps | apply ackTo_keeps | apply errTo_keeps)
    | split
    | dsimp only

end Sys2Proof.Machine
end

