-- ==== Sys2Proof/Laws/FrameRemote.lean ====
section
/-!
SUPPORT. What each operation of Machine/Remote.lean, Machine/HostPort.lean, Machine/Ethernet.lean can touch: one lemma an operation,
that composes with the lemmas of its callers.
-/
namespace Sys2Proof.Machine

set_option linter.unusedTactic false
set_option linter.unreachableTactic false

/-! ### Machine/Remote.lean -/

theorem opEnds_keeps {w : List Part} {s₀ : State} {s} {e} {q} {o} {st} {detail} (m_dyn : Part.dyn ∈ w) (m_free : Part.free ∈ w) (m_host : Part.host ∈ w) (m_lane : Part.lane ∈ w) (m_obs : Part.obs ∈ w) (m_regs : Part.regs ∈ w) (m_rel : Part.rel ∈ w) (m_rte : Part.rte ∈ w) (m_trig : Part.trig ∈ w) (h : Keeps w s₀ s) :
    Keeps w s₀ (opEnds s e q o st detail) := by
  unfold opEnds
  repeat' first
    | intro _
    | with_reducible assumption
    | with_reducible (first | apply Keeps.ite | apply Keeps.same_id | apply updCmd_keeps | apply setQp_keeps | apply touchPorts_keeps | apply ownDone_keeps)
    | split
    | dsimp only

theorem queueEnds_keeps {w : List Part} {s₀ : State} {s} {e} {q} {st} {detail} (m_dyn : Part.dyn ∈ w) (m_free : Part.free ∈ w) (m_host : Part.host ∈ w) (m_lane : Part.lane ∈ w) (m_obs : Part.obs ∈ w) (m_regs : Part.regs ∈ w) (m_rel : Part.rel ∈ w) (m_rte : Part.rte ∈ w) (m_trig : Part.trig ∈ w) (h : Keeps w s₀ s) :
    Keeps w s₀ (queueEnds s e q st detail) := by
  unfold queueEnds
  repeat' first
    | intro _
    | with_reducible assumption
    | with_reducible (first | apply Keeps.ite | apply Keeps.foldl | apply Keeps.foldl_fst | apply Keeps.foldl_snd | apply setQp_keeps | apply opEnds_keeps)
    | split
    | dsimp only

theorem qpError_keeps {w : List Part} {s₀ : State} {s} {e} {q} {st} {detail} (m_dyn : Part.dyn ∈ w) (m_free : Part.free ∈ w) (m_host : Part.host ∈ w) (m_lane : Part.lane ∈ w) (m_obs : Part.obs ∈ w) (m_regs : Part.regs ∈ w) (m_rel : Part.rel ∈ w) (m_rte : Part.rte ∈ w) (m_trig : Part.trig ∈ w) (h : Keeps w s₀ s) :
    Keeps w s₀ (qpError s e q st detail) := by
  unfold qpError
  repeat' first
    | intro _
    | with_reducible assumption
    | with_reducible (first | apply Keeps.ite | apply Keeps.foldl | apply Keeps.foldl_fst | apply Keeps.foldl_snd | apply setQp_keeps | apply setQpState_keeps | apply opEnds_keeps | apply queueEnds_keeps)
    | split
    | dsimp only

theorem qpLost_keeps {w : List Part} {s₀ : State} {s} {e} {q} (m_dyn : Part.dyn ∈ w) (m_free : Part.free ∈ w) (m_host : Part.host ∈ w) (m_lane : Part.lane ∈ w) (m_obs : Part.obs ∈ w) (m_regs : Part.regs ∈ w) (m_rel : Part.rel ∈ w) (m_rte : Part.rte ∈ w) (m_trig : Part.trig ∈ w) (h : Keeps w s₀ s) :
    Keeps w s₀ (qpLost s e q) := by
  unfold qpLost
  repeat' first
    | intro _
    | with_reducible assumption
    | with_reducible (first | apply Keeps.ite | apply Keeps.foldl | apply Keeps.foldl_fst | apply Keeps.foldl_snd | apply setQpState_keeps | apply opEnds_keeps | apply queueEnds_keeps)
    | split
    | dsimp only

theorem qpDead_keeps {w : List Part} {s₀ : State} {s} {e} {q} {layer} {opid} (m_dyn : Part.dyn ∈ w) (m_free : Part.free ∈ w) (m_host : Part.host ∈ w) (m_lane : Part.lane ∈ w) (m_log : Part.log ∈ w) (m_obs : Part.obs ∈ w) (m_regs : Part.regs ∈ w) (m_rel : Part.rel ∈ w) (m_rte : Part.rte ∈ w) (m_trig : Part.trig ∈ w) (h : Keeps w s₀ s) :
    Keeps w s₀ (qpDead s e q layer opid) := by
  unfold qpDead
  repeat' first
    | intro _
    | with_reducible assumption
    | with_reducible (first | apply Keeps.ite | apply log_keeps | apply qpLost_keeps)
    | split
    | dsimp only

theorem postOp_keeps {w : List Part} {s₀ : State} {s} {e} {q} {p} (m_regs : Part.regs ∈ w) (m_rte : Part.rte ∈ w) (h : Keeps w s₀ s) :
    Keeps w s₀ (postOp s e q p) := by
  unfold postOp
  repeat' first
    | intro _
    | with_reducible assumption
    | with_reducible (first | apply Keeps.ite | apply setQp_keeps)
    | split
    | dsimp only

theorem portless_keeps {w : List Part} {s₀ : State} {s} {e} {q} (m_dyn : Part.dyn ∈ w) (m_free : Part.free ∈ w) (m_host : Part.host ∈ w) (m_lane : Part.lane ∈ w) (m_obs : Part.obs ∈ w) (m_regs : Part.regs ∈ w) (m_rel : Part.rel ∈ w) (m_rte : Part.rte ∈ w) (m_trig : Part.trig ∈ w) (h : Keeps w s₀ s) :
    Keeps w s₀ (portless s e q) := by
  unfold portless
  repeat' first
    | intro _
    | with_reducible assumption
    | with_reducible (first | apply Keeps.ite | apply qpError_keeps)
    | split
    | dsimp only

theorem execQpPost_keeps {w : List Part} {s₀ : State} {src} {s} (m_dyn : Part.dyn ∈ w) (m_free : Part.free ∈ w) (m_host : Part.host ∈ w) (m_lane : Part.lane ∈ w) (m_obs : Part.obs ∈ w) (m_regs : Part.regs ∈ w) (m_rel : Part.rel ∈ w) (m_rte : Part.rte ∈ w) (m_trig : Part.trig ∈ w) (h : Keeps w s₀ s) :
    ∃ t, execQpPost src s = .next t ∧ Keeps w s₀ t := by
  refine ⟨_, rfl, ?_⟩
  repeat' first
    | intro _
    | with_reducible assumption
    | with_reducible (first | apply Keeps.ite | apply Keeps.same_id | apply addCmd_keeps | apply endAt_keeps | apply startCmd_keeps | apply postOp_keeps | apply portless_keeps)
    | split
    | dsimp only

theorem rteLocal_keeps {w : List Part} {s₀ : State} {s} {e} {q} {opc} {addr} {n} {layer} {opid} {data} {psn} {j} (m_dyn : Part.dyn ∈ w) (h : Keeps w s₀ s) :
    Keeps w s₀ (rteLocal s e q opc addr n layer opid data psn j) := by
  unfold rteLocal
  repeat' first
    | intro _
    | with_reducible assumption
    | with_reducible (first | apply Keeps.ite | apply enqueue_keeps)
    | split
    | dsimp only

theorem sendOp_keeps {w : List Part} {s₀ : State} {s} {e} {q} {p} (m_dyn : Part.dyn ∈ w) (m_regs : Part.regs ∈ w) (m_rte : Part.rte ∈ w) (h : Keeps w s₀ s) :
    Keeps w s₀ (sendOp s e q p) := by
  unfold sendOp
  repeat' first
    | intro _
    | with_reducible assumption
    | with_reducible (first | apply Keeps.ite | apply Keeps.foldl | apply Keeps.foldl_fst | apply Keeps.foldl_snd | apply setQp_keeps | apply rteLocal_keeps)
    | split
    | dsimp only

theorem execQpOpSend_keeps {w : List Part} {s₀ : State} {e} {q} {s} (m_dyn : Part.dyn ∈ w) (m_free : Part.free ∈ w) (m_host : Part.host ∈ w) (m_lane : Part.lane ∈ w) (m_log : Part.log ∈ w) (m_obs : Part.obs ∈ w) (m_regs : Part.regs ∈ w) (m_rel : Part.rel ∈ w) (m_rte : Part.rte ∈ w) (m_trig : Part.trig ∈ w) (h : Keeps w s₀ s) :
    ∃ t, execQpOpSend e q s = .next t ∧ Keeps w s₀ t := by
  refine ⟨_, rfl, ?_⟩
  repeat' first
    | intro _
    | with_reducible assumption
    | with_reducible (first | apply Keeps.ite | apply setQp_keeps | apply qpDead_keeps | apply sendOp_keeps)
    | split
    | dsimp only

theorem rteSrc_keeps {w : List Part} {s₀ : State} {s} {e} {q} {psn} {off} {bs} {bad} (m_dyn : Part.dyn ∈ w) (m_free : Part.free ∈ w) (m_host : Part.host ∈ w) (m_lane : Part.lane ∈ w) (m_log : Part.log ∈ w) (m_obs : Part.obs ∈ w) (m_regs : Part.regs ∈ w) (m_rel : Part.rel ∈ w) (m_rte : Part.rte ∈ w) (m_trig : Part.trig ∈ w) (h : Keeps w s₀ s) :
    Keeps w s₀ (rteSrc s e q psn off bs bad) := by
  unfold rteSrc
  repeat' first
    | intro _
    | with_reducible assumption
    | with_reducible (first | apply Keeps.ite | apply setQp_keeps | apply qpDead_keeps)
    | split
    | dsimp only

theorem setRate_keeps {w : List Part} {s₀ : State} {s} {e} {q} {v} (m_regs : Part.regs ∈ w) (h : Keeps w s₀ s) :
    Keeps w s₀ (setRate s e q v) := by
  unfold setRate
  repeat' first
    | intro _
    | with_reducible assumption
    | with_reducible (first | apply Keeps.ite | apply setFld_keeps)
    | split
    | dsimp only

theorem execPacedRelease_keeps {w : List Part} {s₀ : State} {e} {q} {s} (m_clk : Part.clk ∈ w) (m_regs : Part.regs ∈ w) (m_rel : Part.rel ∈ w) (m_rte : Part.rte ∈ w) (m_trig : Part.trig ∈ w) (h : Keeps w s₀ s) :
    ∃ t, execPacedRelease e q s = .next t ∧ Keeps w s₀ t := by
  refine ⟨_, rfl, ?_⟩
  repeat' first
    | intro _
    | with_reducible assumption
    | with_reducible (first | apply Keeps.ite | apply bump_keeps | apply advanceTo_keeps | apply tutilOut_keeps | apply setQp_keeps)
    | with_reducible (first | fail_if_no_progress apply Keeps.rte m_rte)
    | split
    | dsimp only

theorem execRetransmitTimeout_keeps {w : List Part} {s₀ : State} {e} {q} {s} (m_clk : Part.clk ∈ w) (m_dyn : Part.dyn ∈ w) (m_free : Part.free ∈ w) (m_host : Part.host ∈ w) (m_lane : Part.lane ∈ w) (m_obs : Part.obs ∈ w) (m_regs : Part.regs ∈ w) (m_rel : Part.rel ∈ w) (m_rte : Part.rte ∈ w) (m_trig : Part.trig ∈ w) (h : Keeps w s₀ s) :
    ∃ t, execRetransmitTimeout e q s = .next t ∧ Keeps w s₀ t := by
  refine ⟨_, rfl, ?_⟩
  repeat' first
    | intro _
    | with_reducible assumption
    | with_reducible (first | apply Keeps.ite | apply setFld_keeps | apply advanceTo_keeps | apply setQp_keeps | apply qpError_keeps | apply setRate_keeps)
    | split
    | dsimp only

theorem rateBase_keeps {w : List Part} {s₀ : State} {s} {e} {q} {delay} (m_regs : Part.regs ∈ w) (m_rte : Part.rte ∈ w) (h : Keeps w s₀ s) :
    Keeps w s₀ (rateBase s e q delay).1 := by
  unfold rateBase
  repeat' first
    | intro _
    | with_reducible assumption
    | with_reducible (first | apply Keeps.ite_fst | apply Keeps.ite | apply setFld_keeps | apply setQp_keeps)
    | split
    | dsimp only

theorem rateStep_keeps {w : List Part} {s₀ : State} {s} {e} {q} {n} {ce} {delay} (m_regs : Part.regs ∈ w) (m_rte : Part.rte ∈ w) (h : Keeps w s₀ s) :
    Keeps w s₀ (rateStep s e q n ce delay) := by
  unfold rateStep
  repeat' first
    | intro _
    | with_reducible assumption
    | with_reducible (first | apply Keeps.ite | apply setFld_keeps | apply setQp_keeps | apply setRate_keeps | apply rateBase_keeps)
    | refine Keeps.of_fst (by with_reducible assumption) ?_
    | split
    | dsimp only

theorem mrOut_keeps {w : List Part} {s₀ : State} {s} {e} {idx} {f} (m_rte : Part.rte ∈ w) (h : Keeps w s₀ s) :
    Keeps w s₀ (mrOut s e idx f) := by
  unfold mrOut
  repeat' first
    | intro _
    | with_reducible assumption
    | with_reducible (first | apply Keeps.ite)
    | with_reducible (first | fail_if_no_progress apply Keeps.rte m_rte)
    | split
    | dsimp only

theorem stray_keeps {w : List Part} {s₀ : State} {s} {e} (m_regs : Part.regs ∈ w) (h : Keeps w s₀ s) :
    Keeps w s₀ (stray s e) := by
  unfold stray
  repeat' first
    | intro _
    | with_reducible assumption
    | with_reducible (first | apply Keeps.ite | apply bump_keeps)
    | split
    | dsimp only

theorem badFrame_keeps {w : List Part} {s₀ : State} {s} {e} {k} {f} (m_log : Part.log ∈ w) (m_regs : Part.regs ∈ w) (m_rel : Part.rel ∈ w) (h : Keeps w s₀ s) :
    Keeps w s₀ (badFrame s e k f) := by
  unfold badFrame
  repeat' first
    | intro _
    | with_reducible assumption
    | with_reducible (first | apply Keeps.ite | apply bump_keeps | apply log_keeps)
    | split
    | dsimp only

theorem rteArrive_keeps {w : List Part} {s₀ : State} {s} {e} {k} {f} {opc} {body} (m_log : Part.log ∈ w) (m_regs : Part.regs ∈ w) (m_rel : Part.rel ∈ w) (k6 : ∀ u y1 y2, Keeps w s₀ u → Keeps w s₀ (body u y1 y2)) (h : Keeps w s₀ s) :
    Keeps w s₀ (rteArrive s e k f opc body) := by
  unfold rteArrive
  repeat' first
    | intro _
    | with_reducible assumption
    | with_reducible (first | apply Keeps.ite | apply k6 | apply bump_keeps | apply tutilIn_keeps | apply stray_keeps | apply badFrame_keeps)
    | split
    | dsimp only

theorem deliver_keeps {w : List Part} {s₀ : State} {s} {e} {q} {m} (m_dyn : Part.dyn ∈ w) (m_regs : Part.regs ∈ w) (m_rte : Part.rte ∈ w) (h : Keeps w s₀ s) :
    Keeps w s₀ (deliver s e q m) := by
  unfold deliver
  repeat' first
    | intro _
    | with_reducible assumption
    | with_reducible (first | apply Keeps.ite | apply enqueue_keeps | apply setQp_keeps)
    | split
    | dsimp only

theorem beginMsg_keeps {w : List Part} {s₀ : State} {s} {e} {q} {m} (m_dyn : Part.dyn ∈ w) (m_regs : Part.regs ∈ w) (m_rte : Part.rte ∈ w) (h : Keeps w s₀ s) :
    Keeps w s₀ (beginMsg s e q m) := by
  unfold beginMsg
  repeat' first
    | intro _
    | with_reducible assumption
    | with_reducible (first | apply Keeps.ite | apply Keeps.foldl | apply Keeps.foldl_fst | apply Keeps.foldl_snd | apply setQp_keeps | apply rteLocal_keeps)
    | split
    | dsimp only

theorem advanceMsn_keeps {w : List Part} {s₀ : State} {x1} {x2} {x3} {x4} (m_dyn : Part.dyn ∈ w) (m_regs : Part.regs ∈ w) (m_rte : Part.rte ∈ w) (h : Keeps w s₀ x2) :
    Keeps w s₀ (advanceMsn x1 x2 x3 x4) := by
  induction x1 generalizing x2 with
  | zero => exact h
  | succ k ih =>
    unfold advanceMsn
    dsimp only
    split
    · exact h
    · exact Keeps.ite (ih (setQp_keeps m_regs m_rte h)) (Keeps.ite (ih (beginMsg_keeps m_dyn m_regs m_rte h)) h)

theorem rxAdvance_keeps {w : List Part} {s₀ : State} {s} {e} {q} (m_dyn : Part.dyn ∈ w) (m_regs : Part.regs ∈ w) (m_rte : Part.rte ∈ w) (h : Keeps w s₀ s) :
    Keeps w s₀ (rxAdvance s e q) := by
  unfold rxAdvance
  repeat' first
    | intro _
    | with_reducible assumption
    | with_reducible (first | apply Keeps.ite | apply Keeps.foldl | apply Keeps.foldl_fst | apply Keeps.foldl_snd | apply after_keeps | apply setQp_keeps | apply ackNow_keeps | apply deliver_keeps | apply advanceMsn_keeps)
    | split
    | dsimp only

theorem placeAt_keeps {w : List Part} {s₀ : State} {s} {e} {q} {m} {a} {bs} {psn} {mr} (m_dyn : Part.dyn ∈ w) (m_regs : Part.regs ∈ w) (m_rte : Part.rte ∈ w) (h : Keeps w s₀ s) :
    Keeps w s₀ (placeAt s e q m a bs psn mr) := by
  unfold placeAt
  repeat' first
    | intro _
    | with_reducible assumption
    | with_reducible (first | apply Keeps.ite | apply Keeps.foldl | apply Keeps.foldl_fst | apply Keeps.foldl_snd | apply setQp_keeps | apply rteLocal_keeps | apply mrOut_keeps)
    | split
    | dsimp only

theorem poisonMsg_keeps {w : List Part} {s₀ : State} {s} {e} {q} {m} (m_dyn : Part.dyn ∈ w) (m_free : Part.free ∈ w) (m_host : Part.host ∈ w) (m_lane : Part.lane ∈ w) (m_log : Part.log ∈ w) (m_obs : Part.obs ∈ w) (m_regs : Part.regs ∈ w) (m_rel : Part.rel ∈ w) (m_rte : Part.rte ∈ w) (m_trig : Part.trig ∈ w) (h : Keeps w s₀ s) :
    Keeps w s₀ (poisonMsg s e q m) := by
  unfold poisonMsg
  repeat' first
    | intro _
    | with_reducible assumption
    | with_reducible (first | apply Keeps.ite | apply setQp_keeps | apply qpDead_keeps)
    | split
    | dsimp only

theorem rteData_keeps {w : List Part} {s₀ : State} {s} {e} {q} {f} {dup} {k} (m_dyn : Part.dyn ∈ w) (m_regs : Part.regs ∈ w) (m_rte : Part.rte ∈ w) (k5 : ∀ u, Keeps w s₀ u → Keeps w s₀ (dup u)) (k6 : ∀ u, Keeps w s₀ u → Keeps w s₀ (k u)) (h : Keeps w s₀ s) :
    Keeps w s₀ (rteData s e q f dup k) := by
  unfold rteData
  repeat' first
    | intro _
    | with_reducible assumption
    | with_reducible (first | apply Keeps.ite | apply k5 | apply k6 | apply bump_keeps | apply setQp_keeps | apply ackNow_keeps | apply rxAdvance_keeps)
    | with_reducible (first | fail_if_no_progress apply Keeps.rte m_rte)
    | split
    | dsimp only

theorem execWrite_keeps {w : List Part} {s₀ : State} {e} {k} {f} {s} (m_dyn : Part.dyn ∈ w) (m_free : Part.free ∈ w) (m_host : Part.host ∈ w) (m_lane : Part.lane ∈ w) (m_log : Part.log ∈ w) (m_obs : Part.obs ∈ w) (m_regs : Part.regs ∈ w) (m_rel : Part.rel ∈ w) (m_rte : Part.rte ∈ w) (m_trig : Part.trig ∈ w) (h : Keeps w s₀ s) :
    ∃ t, execWrite e k f s = .next t ∧ Keeps w s₀ t := by
  refine ⟨_, rfl, ?_⟩
  repeat' first
    | intro _
    | with_reducible assumption
    | with_reducible (first | apply Keeps.ite | apply Keeps.same_id | apply setQp_keeps | apply rteArrive_keeps | apply placeAt_keeps | apply poisonMsg_keeps | apply rteData_keeps)
    | split
    | dsimp only

theorem execReadReq_keeps {w : List Part} {s₀ : State} {e} {k} {f} {s} (m_dyn : Part.dyn ∈ w) (m_log : Part.log ∈ w) (m_regs : Part.regs ∈ w) (m_rel : Part.rel ∈ w) (m_rte : Part.rte ∈ w) (h : Keeps w s₀ s) :
    ∃ t, execReadReq e k f s = .next t ∧ Keeps w s₀ t := by
  refine ⟨_, rfl, ?_⟩
  repeat' first
    | intro _
    | with_reducible assumption
    | with_reducible (first | apply Keeps.ite | apply Keeps.same_id | apply setQp_keeps | apply rteArrive_keeps | apply rteData_keeps)
    | split
    | dsimp only

theorem execReadRsp_keeps {w : List Part} {s₀ : State} {e} {k} {f} {s} (m_dyn : Part.dyn ∈ w) (m_free : Part.free ∈ w) (m_host : Part.host ∈ w) (m_lane : Part.lane ∈ w) (m_log : Part.log ∈ w) (m_obs : Part.obs ∈ w) (m_regs : Part.regs ∈ w) (m_rel : Part.rel ∈ w) (m_rte : Part.rte ∈ w) (m_trig : Part.trig ∈ w) (h : Keeps w s₀ s) :
    ∃ t, execReadRsp e k f s = .next t ∧ Keeps w s₀ t := by
  refine ⟨_, rfl, ?_⟩
  repeat' first
    | intro _
    | with_reducible assumption
    | with_reducible (first | apply Keeps.ite | apply Keeps.foldl | apply Keeps.foldl_fst | apply Keeps.foldl_snd | apply Keeps.same_id | apply setQp_keeps | apply qpDead_keeps | apply rteLocal_keeps | apply rteArrive_keeps | apply rteData_keeps)
    | split
    | dsimp only

theorem execTransportSend_keeps {w : List Part} {s₀ : State} {e} {k} {f} {s} (m_dyn : Part.dyn ∈ w) (m_free : Part.free ∈ w) (m_host : Part.host ∈ w) (m_lane : Part.lane ∈ w) (m_log : Part.log ∈ w) (m_obs : Part.obs ∈ w) (m_regs : Part.regs ∈ w) (m_rel : Part.rel ∈ w) (m_rte : Part.rte ∈ w) (m_trig : Part.trig ∈ w) (h : Keeps w s₀ s) :
    ∃ t, execTransportSend e k f s = .next t ∧ Keeps w s₀ t := by
  refine ⟨_, rfl, ?_⟩
  repeat' first
    | intro _
    | with_reducible assumption
    | with_reducible (first | apply Keeps.ite | apply Keeps.same_id | apply setQp_keeps | apply rteArrive_keeps | apply placeAt_keeps | apply poisonMsg_keeps | apply rteData_keeps)
    | split
    | dsimp only

theorem respond_keeps {w : List Part} {s₀ : State} {s} {e} {q} {opc} {m} {ps} (m_regs : Part.regs ∈ w) (m_rte : Part.rte ∈ w) (h : Keeps w s₀ s) :
    Keeps w s₀ (respond s e q opc m ps) := by
  unfold respond
  repeat' first
    | intro _
    | with_reducible assumption
    | with_reducible (first | apply Keeps.ite | apply setQp_keeps)
    | split
    | dsimp only

theorem execTransportAtomic_keeps {w : List Part} {s₀ : State} {e} {k} {f} {s} (m_dyn : Part.dyn ∈ w) (m_log : Part.log ∈ w) (m_regs : Part.regs ∈ w) (m_rel : Part.rel ∈ w) (m_rte : Part.rte ∈ w) (h : Keeps w s₀ s) :
    ∃ t, execTransportAtomic e k f s = .next t ∧ Keeps w s₀ t := by
  refine ⟨_, rfl, ?_⟩
  repeat' first
    | intro _
    | with_reducible assumption
    | with_reducible (first | apply Keeps.ite | apply setQp_keeps | apply rteArrive_keeps | apply rteData_keeps | apply respond_keeps)
    | split
    | dsimp only

theorem execAtomicRsp_keeps {w : List Part} {s₀ : State} {e} {k} {f} {s} (m_dyn : Part.dyn ∈ w) (m_free : Part.free ∈ w) (m_host : Part.host ∈ w) (m_lane : Part.lane ∈ w) (m_log : Part.log ∈ w) (m_obs : Part.obs ∈ w) (m_regs : Part.regs ∈ w) (m_rel : Part.rel ∈ w) (m_rte : Part.rte ∈ w) (m_trig : Part.trig ∈ w) (h : Keeps w s₀ s) :
    ∃ t, execAtomicRsp e k f s = .next t ∧ Keeps w s₀ t := by
  refine ⟨_, rfl, ?_⟩
  repeat' first
    | intro _
    | with_reducible assumption
    | with_reducible (first | apply Keeps.ite | apply Keeps.same_id | apply opEnds_keeps | apply qpDead_keeps | apply rteArrive_keeps | apply rteData_keeps)
    | split
    | dsimp only

theorem rtePlaced_keeps {w : List Part} {s₀ : State} {s} {e} {q} {msn} {base} {mr} {st} (m_dyn : Part.dyn ∈ w) (m_regs : Part.regs ∈ w) (m_rte : Part.rte ∈ w) (h : Keeps w s₀ s) :
    Keeps w s₀ (rtePlaced s e q msn base mr st) := by
  unfold rtePlaced
  repeat' first
    | intro _
    | with_reducible assumption
    | with_reducible (first | apply Keeps.ite | apply setQp_keeps | apply mrOut_keeps | apply rxAdvance_keeps)
    | split
    | dsimp only

theorem rteReadData_keeps {w : List Part} {s₀ : State} {s} {e} {q} {msn} {base} {off} {bs} {psn} (m_dyn : Part.dyn ∈ w) (m_free : Part.free ∈ w) (m_host : Part.host ∈ w) (m_lane : Part.lane ∈ w) (m_log : Part.log ∈ w) (m_obs : Part.obs ∈ w) (m_regs : Part.regs ∈ w) (m_rel : Part.rel ∈ w) (m_rte : Part.rte ∈ w) (m_trig : Part.trig ∈ w) (h : Keeps w s₀ s) :
    Keeps w s₀ (rteReadData s e q msn base off bs psn) := by
  unfold rteReadData
  repeat' first
    | intro _
    | with_reducible assumption
    | with_reducible (first | apply Keeps.ite | apply Keeps.foldl | apply Keeps.foldl_fst | apply Keeps.foldl_snd | apply setQp_keeps | apply qpDead_keeps | apply rxAdvance_keeps | apply respond_keeps)
    | split
    | dsimp only

theorem rteAtomDone_keeps {w : List Part} {s₀ : State} {s} {e} {q} {msn} {base} {bs} {psn} (m_dyn : Part.dyn ∈ w) (m_free : Part.free ∈ w) (m_host : Part.host ∈ w) (m_lane : Part.lane ∈ w) (m_log : Part.log ∈ w) (m_obs : Part.obs ∈ w) (m_regs : Part.regs ∈ w) (m_rel : Part.rel ∈ w) (m_rte : Part.rte ∈ w) (m_trig : Part.trig ∈ w) (h : Keeps w s₀ s) :
    Keeps w s₀ (rteAtomDone s e q msn base bs psn) := by
  unfold rteAtomDone
  repeat' first
    | intro _
    | with_reducible assumption
    | with_reducible (first | apply Keeps.ite | apply setQp_keeps | apply qpDead_keeps | apply rxAdvance_keeps | apply respond_keeps)
    | split
    | dsimp only

theorem rteReadFail_keeps {w : List Part} {s₀ : State} {s} {e} {q} {msn} {base} {st} (m_dyn : Part.dyn ∈ w) (m_regs : Part.regs ∈ w) (m_rte : Part.rte ∈ w) (h : Keeps w s₀ s) :
    Keeps w s₀ (rteReadFail s e q msn base st) := by
  unfold rteReadFail
  repeat' first
    | intro _
    | with_reducible assumption
    | with_reducible (first | apply Keeps.ite | apply setQp_keeps | apply rxAdvance_keeps)
    | split
    | dsimp only

theorem rteBack_keeps {w : List Part} {s₀ : State} {s} {e} {q} {msn} {n} {st} (m_dyn : Part.dyn ∈ w) (m_free : Part.free ∈ w) (m_host : Part.host ∈ w) (m_lane : Part.lane ∈ w) (m_obs : Part.obs ∈ w) (m_regs : Part.regs ∈ w) (m_rel : Part.rel ∈ w) (m_rte : Part.rte ∈ w) (m_trig : Part.trig ∈ w) (h : Keeps w s₀ s) :
    Keeps w s₀ (rteBack s e q msn n st) := by
  unfold rteBack
  repeat' first
    | intro _
    | with_reducible assumption
    | with_reducible (first | apply Keeps.ite | apply setQp_keeps | apply opEnds_keeps)
    | split
    | dsimp only

theorem rteSrcFail_keeps {w : List Part} {s₀ : State} {s} {e} {q} {psn} {st} (m_dyn : Part.dyn ∈ w) (m_free : Part.free ∈ w) (m_host : Part.host ∈ w) (m_lane : Part.lane ∈ w) (m_obs : Part.obs ∈ w) (m_regs : Part.regs ∈ w) (m_rel : Part.rel ∈ w) (m_rte : Part.rte ∈ w) (m_trig : Part.trig ∈ w) (h : Keeps w s₀ s) :
    Keeps w s₀ (rteSrcFail s e q psn st) := by
  unfold rteSrcFail
  repeat' first
    | intro _
    | with_reducible assumption
    | with_reducible (first | apply Keeps.ite | apply qpError_keeps)
    | split
    | dsimp only

theorem takeSynd_keeps {w : List Part} {s₀ : State} {s} {e} {q} {msn} {code} (m_dyn : Part.dyn ∈ w) (m_free : Part.free ∈ w) (m_host : Part.host ∈ w) (m_lane : Part.lane ∈ w) (m_obs : Part.obs ∈ w) (m_regs : Part.regs ∈ w) (m_rel : Part.rel ∈ w) (m_rte : Part.rte ∈ w) (m_trig : Part.trig ∈ w) (h : Keeps w s₀ s) :
    Keeps w s₀ (takeSynd s e q msn code) := by
  unfold takeSynd
  repeat' first
    | intro _
    | with_reducible assumption
    | with_reducible (first | apply Keeps.ite | apply setQp_keeps | apply opEnds_keeps | apply qpError_keeps)
    | split
    | dsimp only

theorem execTransportAck_keeps {w : List Part} {s₀ : State} {e} {k} {f} {s} (m_dyn : Part.dyn ∈ w) (m_free : Part.free ∈ w) (m_host : Part.host ∈ w) (m_lane : Part.lane ∈ w) (m_log : Part.log ∈ w) (m_obs : Part.obs ∈ w) (m_regs : Part.regs ∈ w) (m_rel : Part.rel ∈ w) (m_rte : Part.rte ∈ w) (m_trig : Part.trig ∈ w) (h : Keeps w s₀ s) :
    ∃ t, execTransportAck e k f s = .next t ∧ Keeps w s₀ t := by
  refine ⟨_, rfl, ?_⟩
  repeat' first
    | intro _
    | with_reducible assumption
    | with_reducible (first | apply Keeps.ite | apply Keeps.foldl | apply Keeps.foldl_fst | apply Keeps.foldl_snd | apply setFld_keeps | apply setQp_keeps | apply opEnds_keeps | apply rateStep_keeps | apply rteArrive_keeps | apply takeSynd_keeps)
    | split
    | dsimp only

theorem execAckDelayExpire_keeps {w : List Part} {s₀ : State} {e} {q} {s} (m_clk : Part.clk ∈ w) (m_regs : Part.regs ∈ w) (m_rel : Part.rel ∈ w) (m_rte : Part.rte ∈ w) (m_trig : Part.trig ∈ w) (h : Keeps w s₀ s) :
    ∃ t, execAckDelayExpire e q s = .next t ∧ Keeps w s₀ t := by
  refine ⟨_, rfl, ?_⟩
  repeat' first
    | intro _
    | with_reducible assumption
    | with_reducible (first | apply Keeps.ite | apply advanceTo_keeps | apply ackNow_keeps)
    | split
    | dsimp only

theorem execRnrRetry_keeps {w : List Part} {s₀ : State} {e} {q} {s} (m_clk : Part.clk ∈ w) (m_dyn : Part.dyn ∈ w) (m_regs : Part.regs ∈ w) (m_rel : Part.rel ∈ w) (m_rte : Part.rte ∈ w) (m_trig : Part.trig ∈ w) (h : Keeps w s₀ s) :
    ∃ t, execRnrRetry e q s = .next t ∧ Keeps w s₀ t := by
  refine ⟨_, rfl, ?_⟩
  repeat' first
    | intro _
    | with_reducible assumption
    | with_reducible (first | apply Keeps.ite | apply advanceTo_keeps | apply setQp_keeps | apply sendOp_keeps)
    | split
    | dsimp only

theorem execPathProbe_keeps {w : List Part} {s₀ : State} {e} {q} {s} (m_clk : Part.clk ∈ w) (m_regs : Part.regs ∈ w) (m_rel : Part.rel ∈ w) (m_rte : Part.rte ∈ w) (m_trig : Part.trig ∈ w) (h : Keeps w s₀ s) :
    ∃ t, execPathProbe e q s = .next t ∧ Keeps w s₀ t := by
  refine ⟨_, rfl, ?_⟩
  repeat' first
    | intro _
    | with_reducible assumption
    | with_reducible (first | apply Keeps.ite | apply advanceTo_keeps | apply setQp_keeps | apply putCtl_keeps)
    | split
    | dsimp only

theorem execProbe_keeps {w : List Part} {s₀ : State} {e} {k} {f} {s} (m_log : Part.log ∈ w) (m_regs : Part.regs ∈ w) (m_rel : Part.rel ∈ w) (m_rte : Part.rte ∈ w) (h : Keeps w s₀ s) :
    ∃ t, execProbe e k f s = .next t ∧ Keeps w s₀ t := by
  refine ⟨_, rfl, ?_⟩
  repeat' first
    | intro _
    | with_reducible assumption
    | with_reducible (first | apply Keeps.ite | apply setQp_keeps | apply ackNow_keeps | apply rteArrive_keeps)
    | split
    | dsimp only

theorem putClose_keeps {w : List Part} {s₀ : State} {s} {e} {q} {r} {reason} (m_rte : Part.rte ∈ w) (h : Keeps w s₀ s) :
    Keeps w s₀ (putClose s e q r reason) := by
  unfold putClose
  repeat' first
    | intro _
    | with_reducible assumption
    | with_reducible (first | apply Keeps.ite | apply putCtl_keeps)
    | split
    | dsimp only

theorem qpClose_keeps {w : List Part} {s₀ : State} {s} {e} {q} {reason} (m_dyn : Part.dyn ∈ w) (m_free : Part.free ∈ w) (m_host : Part.host ∈ w) (m_lane : Part.lane ∈ w) (m_obs : Part.obs ∈ w) (m_regs : Part.regs ∈ w) (m_rel : Part.rel ∈ w) (m_rte : Part.rte ∈ w) (m_trig : Part.trig ∈ w) (h : Keeps w s₀ s) :
    Keeps w s₀ (qpClose s e q reason) := by
  unfold qpClose
  repeat' first
    | intro _
    | with_reducible assumption
    | with_reducible (first | apply Keeps.ite | apply qpError_keeps | apply putClose_keeps)
    | with_reducible (first | fail_if_no_progress apply Keeps.rte m_rte)
    | split
    | dsimp only

theorem closePairs_keeps {w : List Part} {s₀ : State} {s} {reason} (m_dyn : Part.dyn ∈ w) (m_free : Part.free ∈ w) (m_host : Part.host ∈ w) (m_lane : Part.lane ∈ w) (m_obs : Part.obs ∈ w) (m_regs : Part.regs ∈ w) (m_rel : Part.rel ∈ w) (m_rte : Part.rte ∈ w) (m_trig : Part.trig ∈ w) (h : Keeps w s₀ s) :
    Keeps w s₀ (closePairs s reason) := by
  unfold closePairs
  repeat' first
    | intro _
    | with_reducible assumption
    | with_reducible (first | apply Keeps.ite | apply Keeps.foldl | apply Keeps.foldl_fst | apply Keeps.foldl_snd | apply qpClose_keeps)
    | split
    | dsimp only

theorem execTransportClose_keeps {w : List Part} {s₀ : State} {e} {k} {f} {s} (m_dyn : Part.dyn ∈ w) (m_free : Part.free ∈ w) (m_host : Part.host ∈ w) (m_lane : Part.lane ∈ w) (m_log : Part.log ∈ w) (m_obs : Part.obs ∈ w) (m_regs : Part.regs ∈ w) (m_rel : Part.rel ∈ w) (m_rte : Part.rte ∈ w) (m_trig : Part.trig ∈ w) (h : Keeps w s₀ s) :
    ∃ t, execTransportClose e k f s = .next t ∧ Keeps w s₀ t := by
  refine ⟨_, rfl, ?_⟩
  repeat' first
    | intro _
    | with_reducible assumption
    | with_reducible (first | apply Keeps.ite | apply qpError_keeps | apply rteArrive_keeps)
    | split
    | dsimp only

theorem execCloseResend_keeps {w : List Part} {s₀ : State} {e} {q} {s} (m_clk : Part.clk ∈ w) (m_regs : Part.regs ∈ w) (m_rel : Part.rel ∈ w) (m_rte : Part.rte ∈ w) (m_trig : Part.trig ∈ w) (h : Keeps w s₀ s) :
    ∃ t, execCloseResend e q s = .next t ∧ Keeps w s₀ t := by
  refine ⟨_, rfl, ?_⟩
  repeat' first
    | intro _
    | with_reducible assumption
    | with_reducible (first | apply Keeps.ite | apply advanceTo_keeps | apply closeTidy_keeps | apply putClose_keeps)
    | with_reducible (first | fail_if_no_progress apply Keeps.rte m_rte)
    | split
    | dsimp only

theorem qpMake_keeps {w : List Part} {s₀ : State} {s} {e} {q} {r} (m_regs : Part.regs ∈ w) (m_rte : Part.rte ∈ w) (h : Keeps w s₀ s) :
    Keeps w s₀ (qpMake s e q r) := by
  unfold qpMake
  repeat' first
    | intro _
    | with_reducible assumption
    | with_reducible (first | apply Keeps.ite | apply wrReg_keeps | apply setQp_keeps | apply setQpState_keeps | apply setRate_keeps)
    | split
    | dsimp only

theorem qpDestroy_keeps {w : List Part} {s₀ : State} {s} {e} {q} (m_dyn : Part.dyn ∈ w) (m_free : Part.free ∈ w) (m_host : Part.host ∈ w) (m_lane : Part.lane ∈ w) (m_obs : Part.obs ∈ w) (m_regs : Part.regs ∈ w) (m_rel : Part.rel ∈ w) (m_rte : Part.rte ∈ w) (m_trig : Part.trig ∈ w) (h : Keeps w s₀ s) :
    Keeps w s₀ (qpDestroy s e q) := by
  unfold qpDestroy
  repeat' first
    | intro _
    | with_reducible assumption
    | with_reducible (first | apply Keeps.ite | apply setQp_keeps | apply setQpState_keeps | apply qpClose_keeps)
    | split
    | dsimp only

theorem mrMake_keeps {w : List Part} {s₀ : State} {s} {e} {i} {x4} {x5} (m_rte : Part.rte ∈ w) (h : Keeps w s₀ s) :
    Keeps w s₀ (mrMake s e i x4 x5).1 := by
  unfold mrMake
  repeat' first
    | intro _
    | with_reducible assumption
    | with_reducible (first | apply Keeps.ite_fst | apply Keeps.ite)
    | with_reducible (first | fail_if_no_progress apply Keeps.rte m_rte)
    | split
    | dsimp only

theorem mrDrop_keeps {w : List Part} {s₀ : State} {s} {e} {i} (m_rte : Part.rte ∈ w) (h : Keeps w s₀ s) :
    Keeps w s₀ (mrDrop s e i) := by
  unfold mrDrop
  repeat' first
    | intro _
    | with_reducible assumption
    | with_reducible (first | apply Keeps.ite)
    | with_reducible (first | fail_if_no_progress apply Keeps.rte m_rte)
    | split
    | dsimp only

/-! ### Machine/HostPort.lean -/

theorem execCrDoorbell_keeps {w : List Part} {s₀ : State} {fn} {r} {v} {s} (m_dyn : Part.dyn ∈ w) (m_host : Part.host ∈ w) (m_regs : Part.regs ∈ w) (h : Keeps w s₀ s) :
    ∃ t, execCrDoorbell fn r v s = .next t ∧ Keeps w s₀ t := by
  refine ⟨_, rfl, ?_⟩
  repeat' first
    | intro _
    | with_reducible assumption
    | with_reducible (first | apply Keeps.ite | apply setFld_keeps | apply setRing_keeps | apply hpCount_keeps)
    | split
    | dsimp only

theorem execCqDoorbell_keeps {w : List Part} {s₀ : State} {fn} {q} {v} {s} (m_dyn : Part.dyn ∈ w) (m_host : Part.host ∈ w) (h : Keeps w s₀ s) :
    ∃ t, execCqDoorbell fn q v s = .next t ∧ Keeps w s₀ t := by
  refine ⟨_, rfl, ?_⟩
  repeat' first
    | intro _
    | with_reducible assumption
    | with_reducible (first | apply Keeps.ite | apply setCq_keeps | apply hpCount_keeps)
    | split
    | dsimp only

theorem execDescriptorFetch_keeps {w : List Part} {s₀ : State} {fn} {r} {d} {s} (m_host : Part.host ∈ w) (m_log : Part.log ∈ w) (m_regs : Part.regs ∈ w) (m_rel : Part.rel ∈ w) (h : Keeps w s₀ s) :
    ∃ t, execDescriptorFetch fn r d s = .next t ∧ Keeps w s₀ t := by
  refine ⟨_, rfl, ?_⟩
  repeat' first
    | intro _
    | with_reducible assumption
    | with_reducible (first | apply Keeps.ite | apply fetchDesc_keeps)
    | split
    | dsimp only

theorem execDescriptorReread_keeps {w : List Part} {s₀ : State} {fn} {r} {d} {s} (m_clk : Part.clk ∈ w) (m_host : Part.host ∈ w) (m_log : Part.log ∈ w) (m_regs : Part.regs ∈ w) (m_rel : Part.rel ∈ w) (m_trig : Part.trig ∈ w) (h : Keeps w s₀ s) :
    ∃ t, execDescriptorReread fn r d s = .next t ∧ Keeps w s₀ t := by
  refine ⟨_, rfl, ?_⟩
  repeat' first
    | intro _
    | with_reducible assumption
    | with_reducible (first | apply Keeps.ite | apply advanceTo_keeps | apply fetchDesc_keeps)
    | split
    | dsimp only

theorem runKind_keeps {w : List Part} {s₀ : State} {s} {src} {kind} {k} (m_host : Part.host ∈ w) (m_obs : Part.obs ∈ w) (m_regs : Part.regs ∈ w) (m_trig : Part.trig ∈ w) (k4 : ∀ u y1, Keeps w s₀ u → Keeps w s₀ (k u y1)) (h : Keeps w s₀ s) :
    Keeps w s₀ (runKind s src kind k) := by
  unfold runKind
  repeat' first
    | intro _
    | with_reducible assumption
    | with_reducible (first | apply Keeps.ite | apply k4 | apply endAt_keeps | apply startCmd_keeps)
    | split
    | dsimp only

theorem execNop_keeps {w : List Part} {s₀ : State} {src} {s} (m_host : Part.host ∈ w) (m_obs : Part.obs ∈ w) (m_regs : Part.regs ∈ w) (m_trig : Part.trig ∈ w) (h : Keeps w s₀ s) :
    ∃ t, execNop src s = .next t ∧ Keeps w s₀ t := by
  refine ⟨_, rfl, ?_⟩
  repeat' first
    | intro _
    | with_reducible assumption
    | with_reducible (first | apply Keeps.ite | apply endAt_keeps | apply startCmd_keeps)
    | split
    | dsimp only

theorem execCopy_keeps {w : List Part} {s₀ : State} {src} {s} (m_dyn : Part.dyn ∈ w) (m_host : Part.host ∈ w) (m_obs : Part.obs ∈ w) (m_regs : Part.regs ∈ w) (m_trig : Part.trig ∈ w) (h : Keeps w s₀ s) :
    ∃ t, execCopy src s = .next t ∧ Keeps w s₀ t := by
  refine ⟨_, rfl, ?_⟩
  repeat' first
    | intro _
    | with_reducible assumption
    | with_reducible (first | apply Keeps.ite | apply runCopy_keeps | apply runKind_keeps)
    | split
    | dsimp only

theorem execWriteInline_keeps {w : List Part} {s₀ : State} {src} {s} (m_dyn : Part.dyn ∈ w) (m_host : Part.host ∈ w) (m_obs : Part.obs ∈ w) (m_regs : Part.regs ∈ w) (m_trig : Part.trig ∈ w) (h : Keeps w s₀ s) :
    ∃ t, execWriteInline src s = .next t ∧ Keeps w s₀ t := by
  refine ⟨_, rfl, ?_⟩
  repeat' first
    | intro _
    | with_reducible assumption
    | with_reducible (first | apply Keeps.ite | apply runWriteInline_keeps | apply runKind_keeps)
    | split
    | dsimp only

theorem execAtomic_keeps {w : List Part} {s₀ : State} {src} {s} (m_dyn : Part.dyn ∈ w) (m_host : Part.host ∈ w) (m_obs : Part.obs ∈ w) (m_regs : Part.regs ∈ w) (m_trig : Part.trig ∈ w) (h : Keeps w s₀ s) :
    ∃ t, execAtomic src s = .next t ∧ Keeps w s₀ t := by
  refine ⟨_, rfl, ?_⟩
  repeat' first
    | intro _
    | with_reducible assumption
    | with_reducible (first | apply Keeps.ite | apply runAtomic_keeps | apply runKind_keeps)
    | split
    | dsimp only

theorem execMcastWrite_keeps {w : List Part} {s₀ : State} {src} {s} (m_dyn : Part.dyn ∈ w) (m_host : Part.host ∈ w) (m_obs : Part.obs ∈ w) (m_regs : Part.regs ∈ w) (m_trig : Part.trig ∈ w) (h : Keeps w s₀ s) :
    ∃ t, execMcastWrite src s = .next t ∧ Keeps w s₀ t := by
  refine ⟨_, rfl, ?_⟩
  repeat' first
    | intro _
    | with_reducible assumption
    | with_reducible (first | apply Keeps.ite | apply runMcast_keeps | apply runKind_keeps)
    | split
    | dsimp only

theorem execContrib_keeps {w : List Part} {s₀ : State} {src} {s} (m_dyn : Part.dyn ∈ w) (m_host : Part.host ∈ w) (m_obs : Part.obs ∈ w) (m_regs : Part.regs ∈ w) (m_trig : Part.trig ∈ w) (h : Keeps w s₀ s) :
    ∃ t, execContrib src s = .next t ∧ Keeps w s₀ t := by
  refine ⟨_, rfl, ?_⟩
  repeat' first
    | intro _
    | with_reducible assumption
    | with_reducible (first | apply Keeps.ite | apply runContrib_keeps | apply runKind_keeps)
    | split
    | dsimp only

theorem execCtrAddCommand_keeps {w : List Part} {s₀ : State} {src} {s} (m_dyn : Part.dyn ∈ w) (m_host : Part.host ∈ w) (m_obs : Part.obs ∈ w) (m_regs : Part.regs ∈ w) (m_trig : Part.trig ∈ w) (h : Keeps w s₀ s) :
    ∃ t, execCtrAddCommand src s = .next t ∧ Keeps w s₀ t := by
  refine ⟨_, rfl, ?_⟩
  repeat' first
    | intro _
    | with_reducible assumption
    | with_reducible (first | apply Keeps.ite | apply runCtrAdd_keeps | apply runKind_keeps)
    | split
    | dsimp only

theorem execCommandComplete_keeps {w : List Part} {s₀ : State} {id} {s} (m_clk : Part.clk ∈ w) (m_coll : Part.coll ∈ w) (m_dyn : Part.dyn ∈ w) (m_host : Part.host ∈ w) (m_log : Part.log ∈ w) (m_obs : Part.obs ∈ w) (m_regs : Part.regs ∈ w) (m_rel : Part.rel ∈ w) (m_rte : Part.rte ∈ w) (m_slu : Part.slu ∈ w) (m_trig : Part.trig ∈ w) (h : Keeps w s₀ s) :
    ∃ t, execCommandComplete id s = .next t ∧ Keeps w s₀ t := by
  refine ⟨_, rfl, ?_⟩
  repeat' first
    | intro _
    | with_reducible assumption
    | with_reducible (first | apply Keeps.ite | apply Keeps.same_id | apply settle_keeps | apply finishCmd_keeps | apply lastDone_keeps | apply retDone_keeps | apply qpOpDone_keeps)
    | split
    | dsimp only

theorem dropWork_keeps {w : List Part} {s₀ : State} {s} {c} {st} (m_coll : Part.coll ∈ w) (m_host : Part.host ∈ w) (m_log : Part.log ∈ w) (m_regs : Part.regs ∈ w) (m_rel : Part.rel ∈ w) (m_rte : Part.rte ∈ w) (m_slu : Part.slu ∈ w) (h : Keeps w s₀ s) :
    Keeps w s₀ (dropWork s c st) := by
  unfold dropWork
  repeat' first
    | intro _
    | with_reducible assumption
    | with_reducible (first | apply Keeps.ite | apply Keeps.foldl | apply Keeps.foldl_fst | apply Keeps.foldl_snd | apply Keeps.same_id | apply setFld_keeps | apply collEnd_keeps | apply putSlu_keeps | apply sluFail_keeps | apply combineEnd_keeps | apply qpDrop_keeps)
    | refine Keeps.of_fst (by with_reducible assumption) ?_
    | with_reducible (first | fail_if_no_progress apply Keeps.coll m_coll | fail_if_no_progress apply Keeps.slu m_slu)
    | split
    | dsimp only

theorem abortCmd_keeps {w : List Part} {s₀ : State} {s} {c} {st} (m_coll : Part.coll ∈ w) (m_dyn : Part.dyn ∈ w) (m_host : Part.host ∈ w) (m_log : Part.log ∈ w) (m_regs : Part.regs ∈ w) (m_rel : Part.rel ∈ w) (m_rte : Part.rte ∈ w) (m_slu : Part.slu ∈ w) (h : Keeps w s₀ s) :
    Keeps w s₀ (abortCmd s c st) := by
  unfold abortCmd
  repeat' first
    | intro _
    | with_reducible assumption
    | with_reducible (first | apply Keeps.ite | apply Keeps.foldl | apply Keeps.foldl_fst | apply Keeps.foldl_snd | apply Keeps.same_id | apply dropReq_keeps | apply updCmd_keeps | apply dropWork_keeps)
    | split
    | dsimp only

/-! ### Machine/Ethernet.lean -/

theorem execPortSelect_keeps {w : List Part} {s₀ : State} {e} {k} {s} (m_clk : Part.clk ∈ w) (m_regs : Part.regs ∈ w) (m_rel : Part.rel ∈ w) (m_rte : Part.rte ∈ w) (m_trig : Part.trig ∈ w) (h : Keeps w s₀ s) :
    ∃ t, execPortSelect e k s = .next t ∧ Keeps w s₀ t := by
  refine ⟨_, rfl, ?_⟩
  repeat' first
    | intro _
    | with_reducible assumption
    | with_reducible (first | apply Keeps.ite | apply advanceTo_keeps | apply setPort_keeps | apply creditSettle_keeps | apply ackNow_keeps)
    | split
    | dsimp only

theorem countTx_keeps {w : List Part} {s₀ : State} {s} {e} {q} (m_regs : Part.regs ∈ w) (m_rte : Part.rte ∈ w) (h : Keeps w s₀ s) :
    Keeps w s₀ (countTx s e q) := by
  unfold countTx
  repeat' first
    | intro _
    | with_reducible assumption
    | with_reducible (first | apply Keeps.ite | apply setQp_keeps)
    | with_reducible (first | fail_if_no_progress apply Keeps.rte m_rte)
    | split
    | dsimp only

theorem noteSent_keeps {w : List Part} {s₀ : State} {s} {e} {x} {g} (m_regs : Part.regs ∈ w) (m_rte : Part.rte ∈ w) (h : Keeps w s₀ s) :
    Keeps w s₀ (noteSent s e x g) := by
  unfold noteSent
  repeat' first
    | intro _
    | with_reducible assumption
    | with_reducible (first | apply Keeps.ite | apply setQp_keeps)
    | split
    | dsimp only

theorem endFrame_keeps {w : List Part} {s₀ : State} {s} {e} {k} (m_rte : Part.rte ∈ w) (h : Keeps w s₀ s) :
    Keeps w s₀ (endFrame s e k) := by
  unfold endFrame
  repeat' first
    | intro _
    | with_reducible assumption
    | with_reducible (first | apply Keeps.ite | apply setPort_keeps | apply creditSettle_keeps)
    | split
    | dsimp only

theorem underrunNow_keeps {w : List Part} {s₀ : State} {s} {e} {k} {x} {inj} (m_log : Part.log ∈ w) (m_regs : Part.regs ∈ w) (m_rel : Part.rel ∈ w) (m_rte : Part.rte ∈ w) (h : Keeps w s₀ s) :
    Keeps w s₀ (underrunNow s e k x inj) := by
  unfold underrunNow
  repeat' first
    | intro _
    | with_reducible assumption
    | with_reducible (first | apply Keeps.ite | apply setFld_keeps | apply bump_keeps | apply log_keeps | apply setPort_keeps | apply creditSettle_keeps | apply noteSent_keeps)
    | with_reducible (first | fail_if_no_progress apply Keeps.rte m_rte)
    | split
    | dsimp only

theorem execFrameStart_keeps {w : List Part} {s₀ : State} {e} {k} {s} (m_clk : Part.clk ∈ w) (m_dyn : Part.dyn ∈ w) (m_free : Part.free ∈ w) (m_host : Part.host ∈ w) (m_lane : Part.lane ∈ w) (m_log : Part.log ∈ w) (m_obs : Part.obs ∈ w) (m_regs : Part.regs ∈ w) (m_rel : Part.rel ∈ w) (m_rte : Part.rte ∈ w) (m_trig : Part.trig ∈ w) (h : Keeps w s₀ s) :
    ∃ t, execFrameStart e k s = .next t ∧ Keeps w s₀ t := by
  refine ⟨_, rfl, ?_⟩
  repeat' first
    | intro _
    | with_reducible assumption
    | with_reducible (first | apply Keeps.ite | apply injFire_keeps | apply advanceTo_keeps | apply setPort_keeps | apply closeTidy_keeps | apply qpError_keeps | apply countTx_keeps | apply noteSent_keeps | apply endFrame_keeps | apply underrunNow_keeps)
    | with_reducible (first | fail_if_no_progress apply Keeps.rte m_rte)
    | split
    | dsimp only

theorem execUnderrun_keeps {w : List Part} {s₀ : State} {e} {k} {s} (m_log : Part.log ∈ w) (m_regs : Part.regs ∈ w) (m_rel : Part.rel ∈ w) (m_rte : Part.rte ∈ w) (h : Keeps w s₀ s) :
    ∃ t, execUnderrun e k s = .next t ∧ Keeps w s₀ t := by
  refine ⟨_, rfl, ?_⟩
  repeat' first
    | intro _
    | with_reducible assumption
    | with_reducible (first | apply Keeps.ite | apply underrunNow_keeps)
    | split
    | dsimp only

theorem execStartthDecay_keeps {w : List Part} {s₀ : State} {e} {k} {s} (m_regs : Part.regs ∈ w) (m_rte : Part.rte ∈ w) (h : Keeps w s₀ s) :
    ∃ t, execStartthDecay e k s = .next t ∧ Keeps w s₀ t := by
  refine ⟨_, rfl, ?_⟩
  repeat' first
    | intro _
    | with_reducible assumption
    | with_reducible (first | apply Keeps.ite | apply setFld_keeps | apply setPort_keeps | apply endFrame_keeps)
    | split
    | dsimp only

theorem wakePort_keeps {w : List Part} {s₀ : State} {s} {e} {k} (m_rte : Part.rte ∈ w) (h : Keeps w s₀ s) :
    Keeps w s₀ (wakePort s e k) := by
  unfold wakePort
  repeat' first
    | intro _
    | with_reducible assumption
    | with_reducible (first | apply Keeps.ite | apply setPort_keeps | apply creditSettle_keeps)
    | split
    | dsimp only

theorem fwFrame_keeps {w : List Part} {s₀ : State} {s} {e} {k} {x} (m_clk : Part.clk ∈ w) (m_regs : Part.regs ∈ w) (m_rel : Part.rel ∈ w) (m_rte : Part.rte ∈ w) (m_trig : Part.trig ∈ w) (h : Keeps w s₀ s) :
    Keeps w s₀ (fwFrame s e k x) := by
  unfold fwFrame
  repeat' first
    | intro _
    | with_reducible assumption
    | with_reducible (first | apply Keeps.ite | apply advanceTo_keeps | apply wakePort_keeps)
    | with_reducible (first | fail_if_no_progress apply Keeps.rte m_rte)
    | split
    | dsimp only

theorem eeeOff_keeps {w : List Part} {s₀ : State} {s} {e} {k} (m_regs : Part.regs ∈ w) (m_rte : Part.rte ∈ w) (h : Keeps w s₀ s) :
    Keeps w s₀ (eeeOff s e k) := by
  unfold eeeOff
  repeat' first
    | intro _
    | with_reducible assumption
    | with_reducible (first | apply Keeps.ite | apply setFld_keeps | apply wakePort_keeps)
    | split
    | dsimp only

theorem pauseClass_keeps {w : List Part} {s₀ : State} {s} {e} {k} {c} {ns} (m_rte : Part.rte ∈ w) (h : Keeps w s₀ s) :
    Keeps w s₀ (pauseClass s e k c ns) := by
  unfold pauseClass
  repeat' first
    | intro _
    | with_reducible assumption
    | with_reducible (first | apply Keeps.ite | apply setPort_keeps | apply creditSettle_keeps)
    | split
    | dsimp only

theorem execEthControlFrame_keeps {w : List Part} {s₀ : State} {e} {k} {c} {s} (m_clk : Part.clk ∈ w) (m_regs : Part.regs ∈ w) (m_rel : Part.rel ∈ w) (m_rte : Part.rte ∈ w) (m_trig : Part.trig ∈ w) (h : Keeps w s₀ s) :
    ∃ t, execEthControlFrame e k c s = .next t ∧ Keeps w s₀ t := by
  refine ⟨_, rfl, ?_⟩
  repeat' first
    | intro _
    | with_reducible assumption
    | with_reducible (first | apply Keeps.ite | apply bump_keeps | apply setPort_keeps | apply fwFrame_keeps | apply pauseClass_keeps)
    | split
    | dsimp only

theorem execEeeTlvExchange_keeps {w : List Part} {s₀ : State} {e} {k} {peer} {mac} {s} (m_clk : Part.clk ∈ w) (m_regs : Part.regs ∈ w) (m_rel : Part.rel ∈ w) (m_rte : Part.rte ∈ w) (m_trig : Part.trig ∈ w) (h : Keeps w s₀ s) :
    ∃ t, execEeeTlvExchange e k peer mac s = .next t ∧ Keeps w s₀ t := by
  refine ⟨_, rfl, ?_⟩
  repeat' first
    | intro _
    | with_reducible assumption
    | with_reducible (first | apply Keeps.ite | apply setFld_keeps | apply fwFrame_keeps | apply eeeOff_keeps)
    | split
    | dsimp only

theorem execLpiEnter_keeps {w : List Part} {s₀ : State} {e} {k} {s} (m_clk : Part.clk ∈ w) (m_regs : Part.regs ∈ w) (m_rel : Part.rel ∈ w) (m_rte : Part.rte ∈ w) (m_trig : Part.trig ∈ w) (h : Keeps w s₀ s) :
    ∃ t, execLpiEnter e k s = .next t ∧ Keeps w s₀ t := by
  refine ⟨_, rfl, ?_⟩
  repeat' first
    | intro _
    | with_reducible assumption
    | with_reducible (first | apply Keeps.ite | apply bump_keeps | apply advanceTo_keeps | apply setPort_keeps)
    | split
    | dsimp only

theorem execLpiWake_keeps {w : List Part} {s₀ : State} {e} {k} {s} (m_rte : Part.rte ∈ w) (h : Keeps w s₀ s) :
    ∃ t, execLpiWake e k s = .next t ∧ Keeps w s₀ t := by
  refine ⟨_, rfl, ?_⟩
  repeat' first
    | intro _
    | with_reducible assumption
    | with_reducible (first | apply Keeps.ite | apply wakePort_keeps)
    | split
    | dsimp only

theorem pairPortDown_keeps {w : List Part} {s₀ : State} {s} {e} {k} {q} (m_dyn : Part.dyn ∈ w) (m_free : Part.free ∈ w) (m_host : Part.host ∈ w) (m_lane : Part.lane ∈ w) (m_obs : Part.obs ∈ w) (m_regs : Part.regs ∈ w) (m_rel : Part.rel ∈ w) (m_rte : Part.rte ∈ w) (m_trig : Part.trig ∈ w) (h : Keeps w s₀ s) :
    Keeps w s₀ (pairPortDown s e k q) := by
  unfold pairPortDown
  repeat' first
    | intro _
    | with_reducible assumption
    | with_reducible (first | apply Keeps.ite | apply setQp_keeps | apply qpError_keeps | apply setRate_keeps)
    | split
    | dsimp only

theorem portDown_keeps {w : List Part} {s₀ : State} {s} {e} {k} (m_dyn : Part.dyn ∈ w) (m_free : Part.free ∈ w) (m_host : Part.host ∈ w) (m_lane : Part.lane ∈ w) (m_obs : Part.obs ∈ w) (m_regs : Part.regs ∈ w) (m_rel : Part.rel ∈ w) (m_rte : Part.rte ∈ w) (m_trig : Part.trig ∈ w) (h : Keeps w s₀ s) :
    Keeps w s₀ (portDown s e k) := by
  unfold portDown
  repeat' first
    | intro _
    | with_reducible assumption
    | with_reducible (first | apply Keeps.ite | apply Keeps.foldl | apply Keeps.foldl_fst | apply Keeps.foldl_snd | apply setFld_keeps | apply setPort_keeps | apply closeTidy_keeps | apply pairPortDown_keeps)
    | with_reducible (first | fail_if_no_progress apply Keeps.rte m_rte)
    | split
    | dsimp only

theorem execEthPortDown_keeps {w : List Part} {s₀ : State} {e} {k} {s} (m_dyn : Part.dyn ∈ w) (m_free : Part.free ∈ w) (m_host : Part.host ∈ w) (m_lane : Part.lane ∈ w) (m_obs : Part.obs ∈ w) (m_regs : Part.regs ∈ w) (m_rel : Part.rel ∈ w) (m_rte : Part.rte ∈ w) (m_trig : Part.trig ∈ w) (h : Keeps w s₀ s) :
    ∃ t, execEthPortDown e k s = .next t ∧ Keeps w s₀ t := by
  refine ⟨_, rfl, ?_⟩
  repeat' first
    | intro _
    | with_reducible assumption
    | with_reducible (first | apply Keeps.ite | apply portDown_keeps)
    | split
    | dsimp only

theorem execEthPortUp_keeps {w : List Part} {s₀ : State} {e} {k} {s} (m_clk : Part.clk ∈ w) (m_regs : Part.regs ∈ w) (m_rel : Part.rel ∈ w) (m_rte : Part.rte ∈ w) (m_trig : Part.trig ∈ w) (h : Keeps w s₀ s) :
    ∃ t, execEthPortUp e k s = .next t ∧ Keeps w s₀ t := by
  refine ⟨_, rfl, ?_⟩
  repeat' first
    | intro _
    | with_reducible assumption
    | with_reducible (first | apply Keeps.ite | apply setPort_keeps | apply fwFrame_keeps)
    | split
    | dsimp only

theorem execMacReset_keeps {w : List Part} {s₀ : State} {e} {k} {s} (m_dyn : Part.dyn ∈ w) (m_free : Part.free ∈ w) (m_host : Part.host ∈ w) (m_lane : Part.lane ∈ w) (m_obs : Part.obs ∈ w) (m_regs : Part.regs ∈ w) (m_rel : Part.rel ∈ w) (m_rte : Part.rte ∈ w) (m_trig : Part.trig ∈ w) (h : Keeps w s₀ s) :
    ∃ t, execMacReset e k s = .next t ∧ Keeps w s₀ t := by
  refine ⟨_, rfl, ?_⟩
  repeat' first
    | intro _
    | with_reducible assumption
    | with_reducible (first | apply Keeps.ite | apply portDown_keeps)
    | split
    | dsimp only

theorem takeBundle_keeps {w : List Part} {s₀ : State} {s} {b} (m_rte : Part.rte ∈ w) (h : Keeps w s₀ s) :
    Keeps w s₀ (takeBundle s b) := by
  unfold takeBundle
  repeat' first
    | intro _
    | with_reducible assumption
    | with_reducible (first | apply Keeps.ite | apply putData_keeps)
    | with_reducible (first | fail_if_no_progress apply Keeps.rte m_rte)
    | split
    | dsimp only

theorem grantEffect_keeps {w : List Part} {s₀ : State} {s} {a} (m_red : Part.red ∈ w) (m_regs : Part.regs ∈ w) (m_rte : Part.rte ∈ w) (h : Keeps w s₀ s) :
    Keeps w s₀ (grantEffect s a) := by
  unfold grantEffect
  repeat' first
    | intro _
    | with_reducible assumption
    | with_reducible (first | apply Keeps.ite | apply takeFlit_keeps | apply takeBundle_keeps)
    | split
    | dsimp only

theorem execArbiterCycle_keeps {w : List Part} {s₀ : State} {a} {reqs} {accept} {s} (m_arb : Part.arb ∈ w) (m_clk : Part.clk ∈ w) (m_dyn : Part.dyn ∈ w) (m_free : Part.free ∈ w) (m_host : Part.host ∈ w) (m_lane : Part.lane ∈ w) (m_log : Part.log ∈ w) (m_obs : Part.obs ∈ w) (m_red : Part.red ∈ w) (m_regs : Part.regs ∈ w) (m_rel : Part.rel ∈ w) (m_rte : Part.rte ∈ w) (m_trig : Part.trig ∈ w) (h : Keeps w s₀ s) :
    ∃ t, execArbiterCycle a reqs accept s = .next t ∧ Keeps w s₀ t := by
  refine ⟨_, rfl, ?_⟩
  repeat' first
    | intro _
    | with_reducible assumption
    | with_reducible (first | apply Keeps.ite | apply arbBegin_keeps | apply arbDecide_keeps | apply grantEffect_keeps)
    | split
    | dsimp only

theorem execRteSbindWrite_keeps {w : List Part} {s₀ : State} {e} {b} {s} (m_dyn : Part.dyn ∈ w) (m_free : Part.free ∈ w) (m_host : Part.host ∈ w) (m_lane : Part.lane ∈ w) (m_obs : Part.obs ∈ w) (m_regs : Part.regs ∈ w) (m_rel : Part.rel ∈ w) (m_rte : Part.rte ∈ w) (m_sch : Part.sch ∈ w) (m_trig : Part.trig ∈ w) (h : Keeps w s₀ s) :
    ∃ t, execRteSbindWrite e b s = .next t ∧ Keeps w s₀ t := by
  refine ⟨_, rfl, ?_⟩
  repeat' first
    | intro _
    | with_reducible assumption
    | with_reducible (first | apply Keeps.ite | apply bindGather_keeps | apply ownDone_keeps | apply postOp_keeps | apply portless_keeps)
    | with_reducible (first | fail_if_no_progress apply Keeps.sch m_sch)
    | split
    | dsimp only

end Sys2Proof.Machine
end

