-- ==== Sys2Proof/Laws/FrameMarks.lean ====
section
/-!
SUPPORT. What each operation of Machine/Marks.lean, Machine/Responses.lean, Machine/Slots.lean, Machine/Tenancy.lean can touch: one lemma an operation,
that composes with the lemmas of its callers.
-/
namespace Sys2Proof.Machine

set_option linter.unusedTactic false
set_option linter.unreachableTactic false

/-! ### Machine/Marks.lean -/

theorem relayCount_keeps {w : List Part} {s₀ : State} {s} {b} {r} (m_trig : Part.trig ∈ w) (h : Keeps w s₀ s) :
    Keeps w s₀ (relayCount s b r) := by
  unfold relayCount
  repeat' first
    | intro _
    | with_reducible assumption
    | with_reducible (first | apply Keeps.ite | apply addCtr_keeps)
    | split
    | dsimp only

theorem relayPost_keeps {w : List Part} {s₀ : State} {s} {e} {b} {r} {tenant} {p} {opc} {sp} {sfmt} {efmt} (m_dyn : Part.dyn ∈ w) (m_free : Part.free ∈ w) (m_host : Part.host ∈ w) (m_lane : Part.lane ∈ w) (m_obs : Part.obs ∈ w) (m_regs : Part.regs ∈ w) (m_rel : Part.rel ∈ w) (m_rte : Part.rte ∈ w) (m_trig : Part.trig ∈ w) (h : Keeps w s₀ s) :
    Keeps w s₀ (relayPost s e b r tenant p opc sp sfmt efmt).1 := by
  unfold relayPost
  repeat' first
    | intro _
    | with_reducible assumption
    | with_reducible (first | apply Keeps.ite_fst | apply Keeps.ite | apply postOp_keeps | apply portless_keeps | apply relayCount_keeps)
    | split
    | dsimp only

theorem relayOut_keeps {w : List Part} {s₀ : State} {s} {b} {r} {p} (m_dyn : Part.dyn ∈ w) (m_lane : Part.lane ∈ w) (m_regs : Part.regs ∈ w) (m_rel : Part.rel ∈ w) (m_trig : Part.trig ∈ w) (h : Keeps w s₀ s) :
    Keeps w s₀ (relayOut s b r p) := by
  unfold relayOut
  repeat' first
    | intro _
    | with_reducible assumption
    | with_reducible (first | apply Keeps.ite | apply putNet_keeps | apply relayCount_keeps)
    | with_reducible (first | fail_if_no_progress apply Keeps.lane m_lane)
    | split
    | dsimp only

theorem relayPkt_keeps {w : List Part} {s₀ : State} {s} {p} (m_dyn : Part.dyn ∈ w) (m_free : Part.free ∈ w) (m_host : Part.host ∈ w) (m_lane : Part.lane ∈ w) (m_obs : Part.obs ∈ w) (m_regs : Part.regs ∈ w) (m_rel : Part.rel ∈ w) (m_rte : Part.rte ∈ w) (m_trig : Part.trig ∈ w) (h : Keeps w s₀ s) :
    Keeps w s₀ (relayPkt s p) := by
  unfold relayPkt
  repeat' first
    | intro _
    | with_reducible assumption
    | with_reducible (first | apply Keeps.ite | apply errTo_keeps | apply relayPost_keeps | apply relayOut_keeps)
    | refine Keeps.of_fst (by with_reducible assumption) ?_
    | split
    | dsimp only

theorem relayMark_keeps {w : List Part} {s₀ : State} {s} {m} (m_coll : Part.coll ∈ w) (m_dyn : Part.dyn ∈ w) (m_free : Part.free ∈ w) (m_host : Part.host ∈ w) (m_lane : Part.lane ∈ w) (m_obs : Part.obs ∈ w) (m_regs : Part.regs ∈ w) (m_rel : Part.rel ∈ w) (m_rte : Part.rte ∈ w) (m_trig : Part.trig ∈ w) (h : Keeps w s₀ s) :
    Keeps w s₀ (relayMark s m) := by
  unfold relayMark
  repeat' first
    | intro _
    | with_reducible assumption
    | with_reducible (first | apply Keeps.ite | apply spSend_keeps | apply spStale_keeps | apply relayCount_keeps | apply relayPost_keeps)
    | refine Keeps.of_fst (by with_reducible assumption) ?_
    | split
    | dsimp only

theorem relayOn_keeps {w : List Part} {s₀ : State} {s} {e} {q} {m} (m_coll : Part.coll ∈ w) (m_dyn : Part.dyn ∈ w) (m_regs : Part.regs ∈ w) (m_rel : Part.rel ∈ w) (m_rte : Part.rte ∈ w) (m_trig : Part.trig ∈ w) (h : Keeps w s₀ s) :
    Keeps w s₀ (relayOn s e q m) := by
  unfold relayOn
  repeat' first
    | intro _
    | with_reducible assumption
    | with_reducible (first | apply Keeps.ite | apply Keeps.foldl | apply Keeps.foldl_fst | apply Keeps.foldl_snd | apply putNet_keeps | apply enqueue_keeps | apply spSend_keeps | apply setQp_keeps | apply relayCount_keeps)
    | split
    | dsimp only

theorem execRelay_keeps {w : List Part} {s₀ : State} {e} {k} {f} {s} (m_coll : Part.coll ∈ w) (m_dyn : Part.dyn ∈ w) (m_log : Part.log ∈ w) (m_regs : Part.regs ∈ w) (m_rel : Part.rel ∈ w) (m_rte : Part.rte ∈ w) (m_trig : Part.trig ∈ w) (h : Keeps w s₀ s) :
    ∃ t, execRelay e k f s = .next t ∧ Keeps w s₀ t := by
  refine ⟨_, rfl, ?_⟩
  repeat' first
    | intro _
    | with_reducible assumption
    | with_reducible (first | apply Keeps.ite | apply Keeps.same_id | apply setQp_keeps | apply rteArrive_keeps | apply rteData_keeps | apply relayOn_keeps)
    | split
    | dsimp only

theorem rteFwd_keeps {w : List Part} {s₀ : State} {s} {e} {q} {msn} {base} {st} (m_dyn : Part.dyn ∈ w) (m_regs : Part.regs ∈ w) (m_rte : Part.rte ∈ w) (h : Keeps w s₀ s) :
    Keeps w s₀ (rteFwd s e q msn base st) := by
  unfold rteFwd
  repeat' first
    | intro _
    | with_reducible assumption
    | with_reducible (first | apply Keeps.ite | apply setQp_keeps | apply rxAdvance_keeps)
    | split
    | dsimp only

theorem execRedContrib_keeps {w : List Part} {s₀ : State} {p} {s} (m_coll : Part.coll ∈ w) (m_dyn : Part.dyn ∈ w) (m_free : Part.free ∈ w) (m_host : Part.host ∈ w) (m_lane : Part.lane ∈ w) (m_log : Part.log ∈ w) (m_obs : Part.obs ∈ w) (m_red : Part.red ∈ w) (m_regs : Part.regs ∈ w) (m_rel : Part.rel ∈ w) (m_rpt : Part.rpt ∈ w) (m_rte : Part.rte ∈ w) (m_trig : Part.trig ∈ w) (h : Keeps w s₀ s) :
    ∃ t, execRedContrib p s = .next t ∧ Keeps w s₀ t := by
  refine ⟨_, rfl, ?_⟩
  repeat' first
    | intro _
    | with_reducible assumption
    | with_reducible (first | apply Keeps.ite | apply arrive_keeps | apply contribAt_keeps | apply relayPkt_keeps)
    | split
    | dsimp only

theorem execRedResult_keeps {w : List Part} {s₀ : State} {p} {s} (m_coll : Part.coll ∈ w) (m_dyn : Part.dyn ∈ w) (m_free : Part.free ∈ w) (m_host : Part.host ∈ w) (m_lane : Part.lane ∈ w) (m_log : Part.log ∈ w) (m_mem : Part.mem ∈ w) (m_memPoison : Part.memPoison ∈ w) (m_obs : Part.obs ∈ w) (m_regs : Part.regs ∈ w) (m_rel : Part.rel ∈ w) (m_rpt : Part.rpt ∈ w) (m_rte : Part.rte ∈ w) (m_slu : Part.slu ∈ w) (m_trig : Part.trig ∈ w) (h : Keeps w s₀ s) :
    ∃ t, execRedResult p s = .next t ∧ Keeps w s₀ t := by
  refine ⟨_, rfl, ?_⟩
  repeat' first
    | intro _
    | with_reducible assumption
    | with_reducible (first | apply Keeps.ite | apply arrive_keeps | apply landResult_keeps | apply sluWake_keeps | apply relayPkt_keeps)
    | split
    | dsimp only

theorem execOpen_keeps {w : List Part} {s₀ : State} {m} {s} (m_coll : Part.coll ∈ w) (m_dyn : Part.dyn ∈ w) (m_free : Part.free ∈ w) (m_host : Part.host ∈ w) (m_lane : Part.lane ∈ w) (m_log : Part.log ∈ w) (m_obs : Part.obs ∈ w) (m_red : Part.red ∈ w) (m_regs : Part.regs ∈ w) (m_rel : Part.rel ∈ w) (m_rpt : Part.rpt ∈ w) (m_rte : Part.rte ∈ w) (m_trig : Part.trig ∈ w) (h : Keeps w s₀ s) :
    ∃ t, execOpen m s = .next t ∧ Keeps w s₀ t := by
  refine ⟨_, rfl, ?_⟩
  repeat' first
    | intro _
    | with_reducible assumption
    | with_reducible (first | apply Keeps.ite | apply spArrive_keeps | apply openAt_keeps | apply relayMark_keeps)
    | split
    | dsimp only

theorem execClose_keeps {w : List Part} {s₀ : State} {m} {s} (m_coll : Part.coll ∈ w) (m_dyn : Part.dyn ∈ w) (m_free : Part.free ∈ w) (m_host : Part.host ∈ w) (m_lane : Part.lane ∈ w) (m_log : Part.log ∈ w) (m_obs : Part.obs ∈ w) (m_red : Part.red ∈ w) (m_regs : Part.regs ∈ w) (m_rel : Part.rel ∈ w) (m_rpt : Part.rpt ∈ w) (m_rte : Part.rte ∈ w) (m_trig : Part.trig ∈ w) (h : Keeps w s₀ s) :
    ∃ t, execClose m s = .next t ∧ Keeps w s₀ t := by
  refine ⟨_, rfl, ?_⟩
  repeat' first
    | intro _
    | with_reducible assumption
    | with_reducible (first | apply Keeps.ite | apply spArrive_keeps | apply closeAt_keeps | apply relayMark_keeps)
    | split
    | dsimp only

theorem execResult_keeps {w : List Part} {s₀ : State} {m} {s} (m_coll : Part.coll ∈ w) (m_dyn : Part.dyn ∈ w) (m_free : Part.free ∈ w) (m_host : Part.host ∈ w) (m_lane : Part.lane ∈ w) (m_log : Part.log ∈ w) (m_mem : Part.mem ∈ w) (m_memPoison : Part.memPoison ∈ w) (m_obs : Part.obs ∈ w) (m_regs : Part.regs ∈ w) (m_rel : Part.rel ∈ w) (m_rpt : Part.rpt ∈ w) (m_rte : Part.rte ∈ w) (m_slu : Part.slu ∈ w) (m_trig : Part.trig ∈ w) (h : Keeps w s₀ s) :
    ∃ t, execResult m s = .next t ∧ Keeps w s₀ t := by
  refine ⟨_, rfl, ?_⟩
  repeat' first
    | intro _
    | with_reducible assumption
    | with_reducible (first | apply Keeps.ite | apply spArrive_keeps | apply resultAt_keeps | apply sluWake_keeps | apply relayMark_keeps)
    | split
    | dsimp only

theorem execMemberTimeout_keeps {w : List Part} {s₀ : State} {tile} {gidx} {s} (m_clk : Part.clk ∈ w) (m_coll : Part.coll ∈ w) (m_dyn : Part.dyn ∈ w) (m_host : Part.host ∈ w) (m_log : Part.log ∈ w) (m_mem : Part.mem ∈ w) (m_memPoison : Part.memPoison ∈ w) (m_obs : Part.obs ∈ w) (m_regs : Part.regs ∈ w) (m_rel : Part.rel ∈ w) (m_slu : Part.slu ∈ w) (m_trig : Part.trig ∈ w) (h : Keeps w s₀ s) :
    ∃ t, execMemberTimeout tile gidx s = .next t ∧ Keeps w s₀ t := by
  refine ⟨_, rfl, ?_⟩
  repeat' first
    | intro _
    | with_reducible assumption
    | with_reducible (first | apply Keeps.ite | apply setFld_keeps | apply advanceTo_keeps | apply collEnd_keeps | apply sluWake_keeps)
    | split
    | dsimp only

theorem execAbort_keeps {w : List Part} {s₀ : State} {m} {s} (m_coll : Part.coll ∈ w) (m_dyn : Part.dyn ∈ w) (m_free : Part.free ∈ w) (m_host : Part.host ∈ w) (m_lane : Part.lane ∈ w) (m_log : Part.log ∈ w) (m_mem : Part.mem ∈ w) (m_memPoison : Part.memPoison ∈ w) (m_obs : Part.obs ∈ w) (m_red : Part.red ∈ w) (m_regs : Part.regs ∈ w) (m_rel : Part.rel ∈ w) (m_rpt : Part.rpt ∈ w) (m_slu : Part.slu ∈ w) (m_trig : Part.trig ∈ w) (h : Keeps w s₀ s) :
    ∃ t, execAbort m s = .next t ∧ Keeps w s₀ t := by
  refine ⟨_, rfl, ?_⟩
  repeat' first
    | intro _
    | with_reducible assumption
    | with_reducible (first | apply Keeps.ite | apply Keeps.foldl | apply Keeps.foldl_fst | apply Keeps.foldl_snd | apply setFld_keeps | apply spForeign_keeps | apply spStaleAll_keeps | apply spArrive_keeps | apply collEnd_keeps | apply disarmGroup_keeps | apply clearContexts_keeps | apply sluWake_keeps)
    | split
    | dsimp only

theorem execDown_keeps {w : List Part} {s₀ : State} {m} {s} (m_coll : Part.coll ∈ w) (m_dyn : Part.dyn ∈ w) (m_host : Part.host ∈ w) (m_log : Part.log ∈ w) (m_mem : Part.mem ∈ w) (m_memPoison : Part.memPoison ∈ w) (m_obs : Part.obs ∈ w) (m_regs : Part.regs ∈ w) (m_rel : Part.rel ∈ w) (m_rpt : Part.rpt ∈ w) (m_slu : Part.slu ∈ w) (m_trig : Part.trig ∈ w) (h : Keeps w s₀ s) :
    ∃ t, execDown m s = .next t ∧ Keeps w s₀ t := by
  refine ⟨_, rfl, ?_⟩
  repeat' first
    | intro _
    | with_reducible assumption
    | with_reducible (first | apply Keeps.ite | apply storeFabric_keeps | apply spForeign_keeps | apply spStale_keeps | apply spArrive_keeps | apply collEnd_keeps | apply spBack_keeps | apply sluWake_keeps)
    | split
    | dsimp only

theorem execDownFail_keeps {w : List Part} {s₀ : State} {m} {s} (m_coll : Part.coll ∈ w) (m_dyn : Part.dyn ∈ w) (m_host : Part.host ∈ w) (m_log : Part.log ∈ w) (m_mem : Part.mem ∈ w) (m_memPoison : Part.memPoison ∈ w) (m_obs : Part.obs ∈ w) (m_regs : Part.regs ∈ w) (m_rel : Part.rel ∈ w) (m_rpt : Part.rpt ∈ w) (m_slu : Part.slu ∈ w) (m_trig : Part.trig ∈ w) (h : Keeps w s₀ s) :
    ∃ t, execDownFail m s = .next t ∧ Keeps w s₀ t := by
  refine ⟨_, rfl, ?_⟩
  repeat' first
    | intro _
    | with_reducible assumption
    | with_reducible (first | apply Keeps.ite | apply setFld_keeps | apply spForeign_keeps | apply spStale_keeps | apply spArrive_keeps | apply collEnd_keeps | apply spBack_keeps | apply spTakeIn_keeps | apply sluWake_keeps)
    | split
    | dsimp only

/-! ### Machine/Responses.lean -/

theorem purposeData_keeps {w : List Part} {s₀ : State} {s} {why} {bs} {psn} (m_chan : Part.chan ∈ w) (m_coll : Part.coll ∈ w) (m_dyn : Part.dyn ∈ w) (m_free : Part.free ∈ w) (m_host : Part.host ∈ w) (m_lane : Part.lane ∈ w) (m_log : Part.log ∈ w) (m_obs : Part.obs ∈ w) (m_regs : Part.regs ∈ w) (m_rel : Part.rel ∈ w) (m_rte : Part.rte ∈ w) (m_trig : Part.trig ∈ w) (h : Keeps w s₀ s) :
    Keeps w s₀ (purposeData s why bs psn) := by
  unfold purposeData
  repeat' first
    | intro _
    | with_reducible assumption
    | with_reducible (first | apply Keeps.ite | apply after_keeps | apply Keeps.same_id | apply enqueue_keeps | apply updCmd_keeps | apply gathered_keeps | apply pieceDone_keeps | apply refillData_keeps | apply rteSrc_keeps | apply rteReadData_keeps)
    | split
    | dsimp only

theorem purposeOld_keeps {w : List Part} {s₀ : State} {s} {why} {bs} {psn} (m_dyn : Part.dyn ∈ w) (m_free : Part.free ∈ w) (m_host : Part.host ∈ w) (m_lane : Part.lane ∈ w) (m_log : Part.log ∈ w) (m_obs : Part.obs ∈ w) (m_regs : Part.regs ∈ w) (m_rel : Part.rel ∈ w) (m_rte : Part.rte ∈ w) (m_trig : Part.trig ∈ w) (h : Keeps w s₀ s) :
    Keeps w s₀ (purposeOld s why bs psn) := by
  unfold purposeOld
  repeat' first
    | intro _
    | with_reducible assumption
    | with_reducible (first | apply Keeps.ite | apply Keeps.same_id | apply updCmd_keeps | apply pieceDone_keeps | apply traceClaimed_keeps | apply rteAtomDone_keeps)
    | split
    | dsimp only

theorem purposeEnd_keeps {w : List Part} {s₀ : State} {s} {x} {st} {answered} (m_chan : Part.chan ∈ w) (m_coll : Part.coll ∈ w) (m_dyn : Part.dyn ∈ w) (m_free : Part.free ∈ w) (m_host : Part.host ∈ w) (m_lane : Part.lane ∈ w) (m_log : Part.log ∈ w) (m_mem : Part.mem ∈ w) (m_memPoison : Part.memPoison ∈ w) (m_obs : Part.obs ∈ w) (m_red : Part.red ∈ w) (m_regs : Part.regs ∈ w) (m_rel : Part.rel ∈ w) (m_rte : Part.rte ∈ w) (m_slu : Part.slu ∈ w) (m_trig : Part.trig ∈ w) (h : Keeps w s₀ s) :
    Keeps w s₀ (purposeEnd s x st answered) := by
  unfold purposeEnd
  repeat' first
    | intro _
    | with_reducible assumption
    | with_reducible (first | apply Keeps.ite | apply Keeps.same_id | apply addCtr_keeps | apply ackTo_keeps | apply errTo_keeps | apply pieceDone_keeps | apply stopCmd_keeps | apply setRed_keeps | apply ctxAbort_keeps | apply traceLost_keeps | apply traceWritten_keeps | apply sluAck_keeps | apply combineWake_keeps | apply spillWritten_keeps | apply refillFailed_keeps | apply rtePlaced_keeps | apply rteReadFail_keeps | apply rteBack_keeps | apply rteSrcFail_keeps | apply rteFwd_keeps)
    | split
    | dsimp only

theorem execRequestSend_keeps {w : List Part} {s₀ : State} {id} {s} (m_chan : Part.chan ∈ w) (m_coll : Part.coll ∈ w) (m_dyn : Part.dyn ∈ w) (m_free : Part.free ∈ w) (m_host : Part.host ∈ w) (m_lane : Part.lane ∈ w) (m_log : Part.log ∈ w) (m_mem : Part.mem ∈ w) (m_memPoison : Part.memPoison ∈ w) (m_obs : Part.obs ∈ w) (m_red : Part.red ∈ w) (m_regs : Part.regs ∈ w) (m_rel : Part.rel ∈ w) (m_rte : Part.rte ∈ w) (m_slu : Part.slu ∈ w) (m_trig : Part.trig ∈ w) (h : Keeps w s₀ s) :
    ∃ t, execRequestSend id s = .next t ∧ Keeps w s₀ t := by
  refine ⟨_, rfl, ?_⟩
  repeat' first
    | intro _
    | with_reducible assumption
    | with_reducible (first | apply Keeps.ite | apply Keeps.same_id | apply requestStep_keeps | apply dropReq_keeps | apply redEmitted_keeps | apply purposeEnd_keeps)
    | split
    | dsimp only

theorem routerCheck1_keeps {w : List Part} {s₀ : State} {x1} {x2} {x3} (m_dyn : Part.dyn ∈ w) (m_free : Part.free ∈ w) (m_host : Part.host ∈ w) (m_lane : Part.lane ∈ w) (m_log : Part.log ∈ w) (m_obs : Part.obs ∈ w) (m_regs : Part.regs ∈ w) (m_rel : Part.rel ∈ w) (m_rpt : Part.rpt ∈ w) (h : Keeps w s₀ x1) :
    ∀ t, routerCheck1 x1 x2 x3 = some t → Keeps w s₀ t := by
  intro t e
  unfold routerCheck1 at e
  dsimp only at e
  split at e
  · cases e; exact badHcrc_keeps m_dyn m_log m_rel h
  · split at e
    · cases e; exact log_keeps m_log m_rel (takeNet_keeps m_dyn h)
    · split at e
      · cases e
      · cases e; exact errTo_keeps m_dyn m_free m_lane m_obs m_regs m_rel (violation_keeps m_host m_log m_regs m_rel m_rpt (takeNet_keeps m_dyn h))

theorem offLink_keeps {w : List Part} {s₀ : State} {s} {tile} {port} {p} (m_dyn : Part.dyn ∈ w) (h : Keeps w s₀ s) :
    Keeps w s₀ (offLink s tile port p) := by
  unfold offLink
  repeat' first
    | intro _
    | with_reducible assumption
    | with_reducible (first | apply Keeps.ite)
    | with_reducible (first | fail_if_no_progress apply Keeps.dyn m_dyn)
    | split
    | dsimp only

theorem clearPath_keeps {w : List Part} {s₀ : State} {x1} {x2} {x3} {x4} {x5} (m_dyn : Part.dyn ∈ w) (h : Keeps w s₀ x4) :
    Keeps w s₀ (clearPath x1 x2 x3 x4 x5) := by
  induction x3 generalizing x4 x5 with
  | zero => exact h
  | succ n ih =>
    obtain ⟨tile, inp⟩ := x5
    exact Keeps.foldl (Keeps.dyn m_dyn h) (fun u a hu => ih hu)

theorem flitLost_keeps {w : List Part} {s₀ : State} {s} {tile} {port} {p} (m_dyn : Part.dyn ∈ w) (m_log : Part.log ∈ w) (m_rel : Part.rel ∈ w) (h : Keeps w s₀ s) :
    Keeps w s₀ (flitLost s tile port p) := by
  unfold flitLost
  repeat' first
    | intro _
    | with_reducible assumption
    | with_reducible (first | apply Keeps.ite | apply badHcrc_keeps | apply clearPath_keeps)
    | split
    | dsimp only

theorem enterVc_keeps {w : List Part} {s₀ : State} {s} {tile} {port} {outs} {p} {k} (m_dyn : Part.dyn ∈ w) (h : Keeps w s₀ s) :
    Keeps w s₀ (enterVc s tile port outs p k) := by
  unfold enterVc
  repeat' first
    | intro _
    | with_reducible assumption
    | with_reducible (first | apply Keeps.ite)
    | with_reducible (first | fail_if_no_progress apply Keeps.dyn m_dyn)
    | split
    | dsimp only

theorem routeFlit_keeps {w : List Part} {s₀ : State} {s} {tile} {port} {p} {k} (m_dyn : Part.dyn ∈ w) (m_free : Part.free ∈ w) (m_lane : Part.lane ∈ w) (m_log : Part.log ∈ w) (m_obs : Part.obs ∈ w) (m_regs : Part.regs ∈ w) (m_rel : Part.rel ∈ w) (h : Keeps w s₀ s) :
    Keeps w s₀ (routeFlit s tile port p k) := by
  unfold routeFlit
  repeat' first
    | intro _
    | with_reducible assumption
    | with_reducible (first | apply Keeps.ite | apply takeNet_keeps | apply errTo_keeps | apply injLink_keeps | apply laneEgress_keeps | apply enterVc_keeps)
    | refine Keeps.of_snd (by with_reducible assumption) ?_
    | with_reducible (first | fail_if_no_progress apply Keeps.dyn m_dyn)
    | split
    | dsimp only

theorem flitStep_keeps {w : List Part} {s₀ : State} {s} {tile} {port} {p} {k} {x6} (m_dyn : Part.dyn ∈ w) (m_free : Part.free ∈ w) (m_host : Part.host ∈ w) (m_lane : Part.lane ∈ w) (m_log : Part.log ∈ w) (m_obs : Part.obs ∈ w) (m_regs : Part.regs ∈ w) (m_rel : Part.rel ∈ w) (m_rpt : Part.rpt ∈ w) (k6 : ∀ u y1, Keeps w s₀ u → Keeps w s₀ (x6 u y1)) (h : Keeps w s₀ s) :
    Keeps w s₀ (flitStep s tile port p k x6) := by
  unfold flitStep
  repeat' first
    | intro _
    | with_reducible assumption
    | with_reducible (first | apply Keeps.ite | apply k6 | apply offLink_keeps | apply flitLost_keeps)
    | refine routerCheck1_keeps m_dyn m_free m_host m_lane m_log m_obs m_regs m_rel m_rpt ?_ _ (by assumption)
    | split
    | dsimp only

theorem execRouterFlitArrival_keeps {w : List Part} {s₀ : State} {tile} {port} {p} {k} {s} (m_dyn : Part.dyn ∈ w) (m_free : Part.free ∈ w) (m_host : Part.host ∈ w) (m_lane : Part.lane ∈ w) (m_log : Part.log ∈ w) (m_obs : Part.obs ∈ w) (m_regs : Part.regs ∈ w) (m_rel : Part.rel ∈ w) (m_rpt : Part.rpt ∈ w) (h : Keeps w s₀ s) :
    ∃ t, execRouterFlitArrival tile port p k s = .next t ∧ Keeps w s₀ t := by
  refine ⟨_, rfl, ?_⟩
  repeat' first
    | intro _
    | with_reducible assumption
    | with_reducible (first | apply Keeps.ite | apply routeFlit_keeps | apply flitStep_keeps)
    | split
    | dsimp only

theorem mcFlit_keeps {w : List Part} {s₀ : State} {s} {tile} {port} {p} {k} (m_dyn : Part.dyn ∈ w) (m_free : Part.free ∈ w) (m_host : Part.host ∈ w) (m_lane : Part.lane ∈ w) (m_log : Part.log ∈ w) (m_mem : Part.mem ∈ w) (m_memPoison : Part.memPoison ∈ w) (m_obs : Part.obs ∈ w) (m_regs : Part.regs ∈ w) (m_rel : Part.rel ∈ w) (m_rpt : Part.rpt ∈ w) (h : Keeps w s₀ s) :
    Keeps w s₀ (mcFlit s tile port p k) := by
  unfold mcFlit
  repeat' first
    | intro _
    | with_reducible assumption
    | with_reducible (first | apply Keeps.ite | apply mcDeliver_keeps | apply enterVc_keeps)
    | split
    | dsimp only

theorem execMcWr_keeps {w : List Part} {s₀ : State} {tile} {f} {p} {s} (m_dyn : Part.dyn ∈ w) (m_free : Part.free ∈ w) (m_host : Part.host ∈ w) (m_lane : Part.lane ∈ w) (m_log : Part.log ∈ w) (m_mem : Part.mem ∈ w) (m_memPoison : Part.memPoison ∈ w) (m_obs : Part.obs ∈ w) (m_regs : Part.regs ∈ w) (m_rel : Part.rel ∈ w) (m_rpt : Part.rpt ∈ w) (h : Keeps w s₀ s) :
    ∃ t, execMcWr tile f p s = .next t ∧ Keeps w s₀ t := by
  refine ⟨_, rfl, ?_⟩
  repeat' first
    | intro _
    | with_reducible assumption
    | with_reducible (first | apply Keeps.ite | apply routeFlit_keeps | apply flitStep_keeps | apply mcFlit_keeps)
    | split
    | dsimp only

theorem onRsp_keeps {w : List Part} {s₀ : State} {s} {p} {k} (m_dyn : Part.dyn ∈ w) (m_regs : Part.regs ∈ w) (k3 : ∀ u y1 y2, Keeps w s₀ u → Keeps w s₀ (k u y1 y2)) (h : Keeps w s₀ s) :
    Keeps w s₀ (onRsp s p k) := by
  unfold onRsp
  repeat' first
    | intro _
    | with_reducible assumption
    | with_reducible (first | apply Keeps.ite | apply k3 | apply lateRsp_keeps)
    | refine matchTxn_keeps m_dyn m_regs ?_ _ _ _ (by assumption)
    | split
    | dsimp only

theorem badData_keeps {w : List Part} {s₀ : State} {s} {p} {x} (m_chan : Part.chan ∈ w) (m_coll : Part.coll ∈ w) (m_dyn : Part.dyn ∈ w) (m_free : Part.free ∈ w) (m_host : Part.host ∈ w) (m_lane : Part.lane ∈ w) (m_log : Part.log ∈ w) (m_mem : Part.mem ∈ w) (m_memPoison : Part.memPoison ∈ w) (m_obs : Part.obs ∈ w) (m_red : Part.red ∈ w) (m_regs : Part.regs ∈ w) (m_rel : Part.rel ∈ w) (m_rte : Part.rte ∈ w) (m_slu : Part.slu ∈ w) (m_trig : Part.trig ∈ w) (h : Keeps w s₀ s) :
    Keeps w s₀ (badData s p x) := by
  unfold badData
  repeat' first
    | intro _
    | with_reducible assumption
    | with_reducible (first | apply Keeps.ite | apply Keeps.same_id | apply updCmd_keeps | apply malCount_keeps | apply chPoison_keeps | apply purposeEnd_keeps)
    | split
    | dsimp only

theorem execRdRsp_keeps {w : List Part} {s₀ : State} {p} {s} (m_chan : Part.chan ∈ w) (m_coll : Part.coll ∈ w) (m_dyn : Part.dyn ∈ w) (m_free : Part.free ∈ w) (m_host : Part.host ∈ w) (m_lane : Part.lane ∈ w) (m_log : Part.log ∈ w) (m_mem : Part.mem ∈ w) (m_memPoison : Part.memPoison ∈ w) (m_obs : Part.obs ∈ w) (m_red : Part.red ∈ w) (m_regs : Part.regs ∈ w) (m_rel : Part.rel ∈ w) (m_rpt : Part.rpt ∈ w) (m_rte : Part.rte ∈ w) (m_slu : Part.slu ∈ w) (m_trig : Part.trig ∈ w) (h : Keeps w s₀ s) :
    ∃ t, execRdRsp p s = .next t ∧ Keeps w s₀ t := by
  refine ⟨_, rfl, ?_⟩
  repeat' first
    | intro _
    | with_reducible assumption
    | with_reducible (first | apply Keeps.ite | apply arrive_keeps | apply purposeData_keeps | apply onRsp_keeps | apply badData_keeps)
    | split
    | dsimp only

theorem mcPart_keeps {w : List Part} {s₀ : State} {s} {x} {st} (m_host : Part.host ∈ w) (h : Keeps w s₀ s) :
    Keeps w s₀ (mcPart s x st) := by
  unfold mcPart
  repeat' first
    | intro _
    | with_reducible assumption
    | with_reducible (first | apply Keeps.ite | apply Keeps.same_id | apply updCmd_keeps)
    | split
    | dsimp only

theorem mcClear_keeps {w : List Part} {s₀ : State} {s} {x} (m_dyn : Part.dyn ∈ w) (h : Keeps w s₀ s) :
    Keeps w s₀ (mcClear s x) := by
  unfold mcClear
  repeat' first
    | intro _
    | with_reducible assumption
    | with_reducible (first | apply Keeps.ite)
    | with_reducible (first | fail_if_no_progress apply Keeps.dyn m_dyn)
    | split
    | dsimp only

theorem execWrAck_keeps {w : List Part} {s₀ : State} {p} {s} (m_chan : Part.chan ∈ w) (m_clk : Part.clk ∈ w) (m_coll : Part.coll ∈ w) (m_dyn : Part.dyn ∈ w) (m_free : Part.free ∈ w) (m_host : Part.host ∈ w) (m_lane : Part.lane ∈ w) (m_log : Part.log ∈ w) (m_mem : Part.mem ∈ w) (m_memPoison : Part.memPoison ∈ w) (m_obs : Part.obs ∈ w) (m_red : Part.red ∈ w) (m_regs : Part.regs ∈ w) (m_rel : Part.rel ∈ w) (m_rpt : Part.rpt ∈ w) (m_rte : Part.rte ∈ w) (m_slu : Part.slu ∈ w) (m_trig : Part.trig ∈ w) (h : Keeps w s₀ s) :
    ∃ t, execWrAck p s = .next t ∧ Keeps w s₀ t := by
  refine ⟨_, rfl, ?_⟩
  repeat' first
    | intro _
    | with_reducible assumption
    | with_reducible (first | apply Keeps.ite | apply settle_keeps | apply arrive_keeps | apply purposeEnd_keeps | apply onRsp_keeps | apply mcClear_keeps)
    | split
    | dsimp only

theorem execAtRsp_keeps {w : List Part} {s₀ : State} {p} {s} (m_dyn : Part.dyn ∈ w) (m_free : Part.free ∈ w) (m_host : Part.host ∈ w) (m_lane : Part.lane ∈ w) (m_log : Part.log ∈ w) (m_obs : Part.obs ∈ w) (m_regs : Part.regs ∈ w) (m_rel : Part.rel ∈ w) (m_rpt : Part.rpt ∈ w) (m_rte : Part.rte ∈ w) (m_trig : Part.trig ∈ w) (h : Keeps w s₀ s) :
    ∃ t, execAtRsp p s = .next t ∧ Keeps w s₀ t := by
  refine ⟨_, rfl, ?_⟩
  repeat' first
    | intro _
    | with_reducible assumption
    | with_reducible (first | apply Keeps.ite | apply arrive_keeps | apply purposeOld_keeps | apply onRsp_keeps)
    | split
    | dsimp only

theorem rsvAnswer_keeps {w : List Part} {s₀ : State} {s} {v} {st} (m_chan : Part.chan ∈ w) (m_coll : Part.coll ∈ w) (m_dyn : Part.dyn ∈ w) (m_free : Part.free ∈ w) (m_host : Part.host ∈ w) (m_lane : Part.lane ∈ w) (m_log : Part.log ∈ w) (m_mem : Part.mem ∈ w) (m_memPoison : Part.memPoison ∈ w) (m_obs : Part.obs ∈ w) (m_red : Part.red ∈ w) (m_regs : Part.regs ∈ w) (m_rel : Part.rel ∈ w) (m_rte : Part.rte ∈ w) (m_slu : Part.slu ∈ w) (m_trig : Part.trig ∈ w) (h : Keeps w s₀ s) :
    Keeps w s₀ (rsvAnswer s v st) := by
  unfold rsvAnswer
  repeat' first
    | intro _
    | with_reducible assumption
    | with_reducible (first | apply Keeps.ite | apply Keeps.same_id | apply allotBack_keeps | apply giveFree_keeps | apply dropReq_keeps | apply purposeEnd_keeps)
    | with_reducible (first | fail_if_no_progress apply Keeps.dyn m_dyn)
    | split
    | dsimp only

theorem completion_keeps {w : List Part} {s₀ : State} {s} {p} (m_chan : Part.chan ∈ w) (m_coll : Part.coll ∈ w) (m_dyn : Part.dyn ∈ w) (m_free : Part.free ∈ w) (m_host : Part.host ∈ w) (m_lane : Part.lane ∈ w) (m_log : Part.log ∈ w) (m_mem : Part.mem ∈ w) (m_memPoison : Part.memPoison ∈ w) (m_obs : Part.obs ∈ w) (m_red : Part.red ∈ w) (m_regs : Part.regs ∈ w) (m_rel : Part.rel ∈ w) (m_rte : Part.rte ∈ w) (m_slu : Part.slu ∈ w) (m_trig : Part.trig ∈ w) (h : Keeps w s₀ s) :
    Keeps w s₀ (completion s p) := by
  unfold completion
  repeat' first
    | intro _
    | with_reducible assumption
    | with_reducible (first | apply Keeps.ite | apply Keeps.same_id | apply updCmd_keeps | apply purposeEnd_keeps | apply onRsp_keeps | apply mcPart_keeps | apply mcClear_keeps | apply rsvAnswer_keeps)
    | split
    | dsimp only

theorem execAck_keeps {w : List Part} {s₀ : State} {p} {s} (m_chan : Part.chan ∈ w) (m_clk : Part.clk ∈ w) (m_coll : Part.coll ∈ w) (m_dyn : Part.dyn ∈ w) (m_free : Part.free ∈ w) (m_host : Part.host ∈ w) (m_lane : Part.lane ∈ w) (m_log : Part.log ∈ w) (m_mem : Part.mem ∈ w) (m_memPoison : Part.memPoison ∈ w) (m_obs : Part.obs ∈ w) (m_red : Part.red ∈ w) (m_regs : Part.regs ∈ w) (m_rel : Part.rel ∈ w) (m_rpt : Part.rpt ∈ w) (m_rte : Part.rte ∈ w) (m_slu : Part.slu ∈ w) (m_trig : Part.trig ∈ w) (h : Keeps w s₀ s) :
    ∃ t, execAck p s = .next t ∧ Keeps w s₀ t := by
  refine ⟨_, rfl, ?_⟩
  repeat' first
    | intro _
    | with_reducible assumption
    | with_reducible (first | apply Keeps.ite | apply settle_keeps | apply arrive_keeps | apply completion_keeps)
    | split
    | dsimp only

theorem relayErr_keeps {w : List Part} {s₀ : State} {s} {p} (m_dyn : Part.dyn ∈ w) (m_free : Part.free ∈ w) (m_host : Part.host ∈ w) (m_lane : Part.lane ∈ w) (m_obs : Part.obs ∈ w) (m_regs : Part.regs ∈ w) (m_rel : Part.rel ∈ w) (m_rte : Part.rte ∈ w) (m_trig : Part.trig ∈ w) (h : Keeps w s₀ s) :
    Keeps w s₀ (relayErr s p) := by
  unfold relayErr
  repeat' first
    | intro _
    | with_reducible assumption
    | with_reducible (first | apply Keeps.ite | apply relayPost_keeps | apply relayOut_keeps)
    | refine Keeps.of_fst (by with_reducible assumption) ?_
    | split
    | dsimp only

theorem execErrRsp_keeps {w : List Part} {s₀ : State} {p} {s} (m_chan : Part.chan ∈ w) (m_coll : Part.coll ∈ w) (m_dyn : Part.dyn ∈ w) (m_free : Part.free ∈ w) (m_host : Part.host ∈ w) (m_lane : Part.lane ∈ w) (m_log : Part.log ∈ w) (m_mem : Part.mem ∈ w) (m_memPoison : Part.memPoison ∈ w) (m_obs : Part.obs ∈ w) (m_red : Part.red ∈ w) (m_regs : Part.regs ∈ w) (m_rel : Part.rel ∈ w) (m_rpt : Part.rpt ∈ w) (m_rte : Part.rte ∈ w) (m_slu : Part.slu ∈ w) (m_trig : Part.trig ∈ w) (h : Keeps w s₀ s) :
    ∃ t, execErrRsp p s = .next t ∧ Keeps w s₀ t := by
  refine ⟨_, rfl, ?_⟩
  repeat' first
    | intro _
    | with_reducible assumption
    | with_reducible (first | apply Keeps.ite | apply arrive_keeps | apply inputErr_keeps | apply landErr_keeps | apply completion_keeps | apply relayErr_keeps)
    | split
    | dsimp only

theorem timeoutRec_keeps {w : List Part} {s₀ : State} {s} {x} {st} (m_log : Part.log ∈ w) (m_rel : Part.rel ∈ w) (h : Keeps w s₀ s) :
    Keeps w s₀ (timeoutRec s x st) := by
  unfold timeoutRec
  repeat' first
    | intro _
    | with_reducible assumption
    | with_reducible (first | apply Keeps.ite | apply Keeps.foldl | apply Keeps.foldl_fst | apply Keeps.foldl_snd | apply log_keeps)
    | split
    | dsimp only

theorem execRsvTimeout_keeps {w : List Part} {s₀ : State} {ep} {rec_} {s} (m_chan : Part.chan ∈ w) (m_clk : Part.clk ∈ w) (m_coll : Part.coll ∈ w) (m_dyn : Part.dyn ∈ w) (m_free : Part.free ∈ w) (m_host : Part.host ∈ w) (m_lane : Part.lane ∈ w) (m_log : Part.log ∈ w) (m_mem : Part.mem ∈ w) (m_memPoison : Part.memPoison ∈ w) (m_obs : Part.obs ∈ w) (m_red : Part.red ∈ w) (m_regs : Part.regs ∈ w) (m_rel : Part.rel ∈ w) (m_rte : Part.rte ∈ w) (m_slu : Part.slu ∈ w) (m_trig : Part.trig ∈ w) (h : Keeps w s₀ s) :
    ∃ t, execRsvTimeout ep rec_ s = .next t ∧ Keeps w s₀ t := by
  refine ⟨_, rfl, ?_⟩
  repeat' first
    | intro _
    | with_reducible assumption
    | with_reducible (first | apply Keeps.ite | apply Keeps.same_id | apply advanceTo_keeps | apply settle_keeps | apply release_keeps | apply dropReq_keeps | apply purposeEnd_keeps | apply timeoutRec_keeps)
    | split
    | dsimp only

theorem releaseLost_keeps {w : List Part} {s₀ : State} {s} {v} (m_clk : Part.clk ∈ w) (m_dyn : Part.dyn ∈ w) (m_regs : Part.regs ∈ w) (m_rel : Part.rel ∈ w) (m_trig : Part.trig ∈ w) (h : Keeps w s₀ s) :
    Keeps w s₀ (releaseLost s v) := by
  unfold releaseLost
  repeat' first
    | intro _
    | with_reducible assumption
    | with_reducible (first | apply Keeps.ite | apply advanceTo_keeps | apply giveFree_keeps)
    | with_reducible (first | fail_if_no_progress apply Keeps.dyn m_dyn)
    | split
    | dsimp only

theorem execResponseTimeout_keeps {w : List Part} {s₀ : State} {ep} {tag} {s} (m_chan : Part.chan ∈ w) (m_clk : Part.clk ∈ w) (m_coll : Part.coll ∈ w) (m_dyn : Part.dyn ∈ w) (m_free : Part.free ∈ w) (m_host : Part.host ∈ w) (m_lane : Part.lane ∈ w) (m_log : Part.log ∈ w) (m_mem : Part.mem ∈ w) (m_memPoison : Part.memPoison ∈ w) (m_obs : Part.obs ∈ w) (m_red : Part.red ∈ w) (m_regs : Part.regs ∈ w) (m_rel : Part.rel ∈ w) (m_rte : Part.rte ∈ w) (m_slu : Part.slu ∈ w) (m_trig : Part.trig ∈ w) (h : Keeps w s₀ s) :
    ∃ t, execResponseTimeout ep tag s = .next t ∧ Keeps w s₀ t := by
  refine ⟨_, rfl, ?_⟩
  repeat' first
    | intro _
    | with_reducible assumption
    | with_reducible (first | apply Keeps.ite | apply advanceTo_keeps | apply settle_keeps | apply giveFree_keeps | apply purposeEnd_keeps | apply mcClear_keeps | apply timeoutRec_keeps | apply releaseLost_keeps)
    | with_reducible (first | fail_if_no_progress apply Keeps.dyn m_dyn)
    | split
    | dsimp only

theorem execCtrAdd_keeps {w : List Part} {s₀ : State} {p} {s} (m_dyn : Part.dyn ∈ w) (m_free : Part.free ∈ w) (m_host : Part.host ∈ w) (m_lane : Part.lane ∈ w) (m_log : Part.log ∈ w) (m_obs : Part.obs ∈ w) (m_regs : Part.regs ∈ w) (m_rel : Part.rel ∈ w) (m_rpt : Part.rpt ∈ w) (m_trig : Part.trig ∈ w) (h : Keeps w s₀ s) :
    ∃ t, execCtrAdd p s = .next t ∧ Keeps w s₀ t := by
  refine ⟨_, rfl, ?_⟩
  repeat' first
    | intro _
    | with_reducible assumption
    | with_reducible (first | apply Keeps.ite | apply ctrApply_keeps | apply compareAll_keeps | apply violation_keeps | apply ackTo_keeps | apply errTo_keeps | apply arrive_keeps | apply malPlain_keeps)
    | split
    | dsimp only

theorem execMbx_keeps {w : List Part} {s₀ : State} {p} {s} (m_dyn : Part.dyn ∈ w) (m_free : Part.free ∈ w) (m_host : Part.host ∈ w) (m_lane : Part.lane ∈ w) (m_log : Part.log ∈ w) (m_obs : Part.obs ∈ w) (m_regs : Part.regs ∈ w) (m_rel : Part.rel ∈ w) (m_rpt : Part.rpt ∈ w) (h : Keeps w s₀ s) :
    ∃ t, execMbx p s = .next t ∧ Keeps w s₀ t := by
  refine ⟨_, rfl, ?_⟩
  repeat' first
    | intro _
    | with_reducible assumption
    | with_reducible (first | apply Keeps.ite | apply ackTo_keeps | apply arrive_keeps)
    | split
    | dsimp only

/-! ### Machine/Slots.lean -/

theorem setSlot_keeps {w : List Part} {s₀ : State} {s} {sv} {fn} {x} (m_mbx : Part.mbx ∈ w) (h : Keeps w s₀ s) :
    Keeps w s₀ (setSlot s sv fn x) := by
  unfold setSlot
  repeat' first
    | intro _
    | with_reducible assumption
    | with_reducible (first | apply Keeps.ite)
    | with_reducible (first | fail_if_no_progress apply Keeps.mbx m_mbx)
    | split
    | dsimp only

theorem setQueue_keeps {w : List Part} {s₀ : State} {s} {sv} {l} (m_mbx : Part.mbx ∈ w) (h : Keeps w s₀ s) :
    Keeps w s₀ (setQueue s sv l) := by
  unfold setQueue
  repeat' first
    | intro _
    | with_reducible assumption
    | with_reducible (first | apply Keeps.ite)
    | with_reducible (first | fail_if_no_progress apply Keeps.mbx m_mbx)
    | split
    | dsimp only

theorem answer_keeps {w : List Part} {s₀ : State} {s} {sv} {fn} {st} {r} {ws} (m_host : Part.host ∈ w) (m_mbx : Part.mbx ∈ w) (h : Keeps w s₀ s) :
    Keeps w s₀ (answer s sv fn st r ws) := by
  unfold answer
  repeat' first
    | intro _
    | with_reducible assumption
    | with_reducible (first | apply Keeps.ite | apply Keeps.foldl | apply Keeps.foldl_fst | apply Keeps.foldl_snd | apply signal_keeps | apply setSlot_keeps | apply setQueue_keeps)
    | with_reducible (first | fail_if_no_progress apply Keeps.host m_host)
    | split
    | dsimp only

theorem answerOk_keeps {w : List Part} {s₀ : State} {s} {sv} {fn} {ws} (m_host : Part.host ∈ w) (m_mbx : Part.mbx ∈ w) (h : Keeps w s₀ s) :
    Keeps w s₀ (answerOk s sv fn ws) := by
  unfold answerOk
  repeat' first
    | intro _
    | with_reducible assumption
    | with_reducible (first | apply Keeps.ite | apply answer_keeps)
    | split
    | dsimp only

theorem refuse_keeps {w : List Part} {s₀ : State} {s} {sv} {fn} {r} {ws} (m_host : Part.host ∈ w) (m_mbx : Part.mbx ∈ w) (h : Keeps w s₀ s) :
    Keeps w s₀ (refuse s sv fn r ws) := by
  unfold refuse
  repeat' first
    | intro _
    | with_reducible assumption
    | with_reducible (first | apply Keeps.ite | apply answer_keeps)
    | split
    | dsimp only

theorem refuseFirst_keeps {w : List Part} {s₀ : State} {x1} {x2} {x3} (m_host : Part.host ∈ w) (m_mbx : Part.mbx ∈ w) (h : Keeps w s₀ x3) :
    Keeps w s₀ (refuseFirst x1 x2 x3) := by
  induction x2 generalizing x3 with
  | zero => exact h
  | succ k ih =>
    unfold refuseFirst
    split
    · exact h
    · split
      · exact h
      · split
        · exact ih (refuse_keeps m_host m_mbx h)
        · exact h

theorem mbxGo_keeps {w : List Part} {s₀ : State} {s} {sv} {fn} (m_host : Part.host ∈ w) (m_mbx : Part.mbx ∈ w) (h : Keeps w s₀ s) :
    Keeps w s₀ (mbxGo s sv fn) := by
  unfold mbxGo
  repeat' first
    | intro _
    | with_reducible assumption
    | with_reducible (first | apply Keeps.ite | apply setSlot_keeps | apply setQueue_keeps | apply refuseFirst_keeps)
    | split
    | dsimp only

theorem begin__keeps {w : List Part} {s₀ : State} {s} {sv} {fn} (m_mbx : Part.mbx ∈ w) (h : Keeps w s₀ s) :
    Keeps w s₀ (begin_ s sv fn) := by
  unfold begin_
  repeat' first
    | intro _
    | with_reducible assumption
    | with_reducible (first | apply Keeps.ite | apply setSlot_keeps)
    | split
    | dsimp only

theorem mbxCommand_keeps {w : List Part} {s₀ : State} {s} {sv} {fn} {cmd} {fmt} {priv} {k} (m_host : Part.host ∈ w) (m_mbx : Part.mbx ∈ w) (k7 : ∀ u, Keeps w s₀ u → Keeps w s₀ (k u)) (h : Keeps w s₀ s) :
    Keeps w s₀ (mbxCommand s sv fn cmd fmt priv k) := by
  unfold mbxCommand
  repeat' first
    | intro _
    | with_reducible assumption
    | with_reducible (first | apply Keeps.ite | apply k7 | apply refuse_keeps | apply refuseFirst_keeps)
    | split
    | dsimp only

theorem endAll_keeps {w : List Part} {s₀ : State} {s} {sv} {r} (m_host : Part.host ∈ w) (m_mbx : Part.mbx ∈ w) (h : Keeps w s₀ s) :
    Keeps w s₀ (endAll s sv r) := by
  unfold endAll
  repeat' first
    | intro _
    | with_reducible assumption
    | with_reducible (first | apply Keeps.ite | apply Keeps.foldl | apply Keeps.foldl_fst | apply Keeps.foldl_snd | apply refuse_keeps)
    | split
    | dsimp only

theorem dropSlots_keeps {w : List Part} {s₀ : State} {s} {fn} (m_mbx : Part.mbx ∈ w) (h : Keeps w s₀ s) :
    Keeps w s₀ (dropSlots s fn) := by
  unfold dropSlots
  repeat' first
    | intro _
    | with_reducible assumption
    | with_reducible (first | apply Keeps.ite | apply Keeps.foldl | apply Keeps.foldl_fst | apply Keeps.foldl_snd | apply setSlot_keeps | apply setQueue_keeps)
    | split
    | dsimp only

theorem fmpUp_keeps {w : List Part} {s₀ : State} {s} {version} (m_mbx : Part.mbx ∈ w) (h : Keeps w s₀ s) :
    Keeps w s₀ (fmpUp s version) := by
  unfold fmpUp
  repeat' first
    | intro _
    | with_reducible assumption
    | with_reducible (first | apply Keeps.ite | apply Keeps.foldl | apply Keeps.foldl_fst | apply Keeps.foldl_snd | apply setSlot_keeps)
    | with_reducible (first | fail_if_no_progress apply Keeps.mbx m_mbx)
    | split
    | dsimp only

theorem fmpStops_keeps {w : List Part} {s₀ : State} {s} {st} (m_host : Part.host ∈ w) (m_mbx : Part.mbx ∈ w) (h : Keeps w s₀ s) :
    Keeps w s₀ (fmpStops s st) := by
  unfold fmpStops
  repeat' first
    | intro _
    | with_reducible assumption
    | with_reducible (first | apply Keeps.ite | apply endAll_keeps)
    | with_reducible (first | fail_if_no_progress apply Keeps.mbx m_mbx)
    | split
    | dsimp only

theorem fmpBite_keeps {w : List Part} {s₀ : State} {s} (m_host : Part.host ∈ w) (m_log : Part.log ∈ w) (m_mbx : Part.mbx ∈ w) (m_rel : Part.rel ∈ w) (m_rpt : Part.rpt ∈ w) (h : Keeps w s₀ s) :
    Keeps w s₀ (fmpBite s) := by
  unfold fmpBite
  repeat' first
    | intro _
    | with_reducible assumption
    | with_reducible (first | apply Keeps.ite | apply logReport_keeps | apply fmpStops_keeps)
    | with_reducible (first | fail_if_no_progress apply Keeps.mbx m_mbx)
    | split
    | dsimp only

theorem execFmpWatchdogBite_keeps {w : List Part} {s₀ : State} {s} (m_host : Part.host ∈ w) (m_log : Part.log ∈ w) (m_mbx : Part.mbx ∈ w) (m_regs : Part.regs ∈ w) (m_rel : Part.rel ∈ w) (m_rpt : Part.rpt ∈ w) (h : Keeps w s₀ s) :
    ∃ t, execFmpWatchdogBite s = .next t ∧ Keeps w s₀ t := by
  refine ⟨_, rfl, ?_⟩
  repeat' first
    | intro _
    | with_reducible assumption
    | with_reducible (first | apply Keeps.ite | apply injFire_keeps | apply fmpBite_keeps)
    | with_reducible (first | fail_if_no_progress refine Keeps.record ?_)
    | split
    | dsimp only

theorem execHeartbeat_keeps {w : List Part} {s₀ : State} {s} (m_mbx : Part.mbx ∈ w) (h : Keeps w s₀ s) :
    ∃ t, execHeartbeat s = .next t ∧ Keeps w s₀ t := by
  refine ⟨_, rfl, ?_⟩
  repeat' first
    | intro _
    | with_reducible assumption
    | with_reducible (first | apply Keeps.ite)
    | with_reducible (first | fail_if_no_progress apply Keeps.mbx m_mbx)
    | split
    | dsimp only

theorem execReportQueueRelease_keeps {w : List Part} {s₀ : State} {fn} {v} {s} (m_rpt : Part.rpt ∈ w) (h : Keeps w s₀ s) :
    ∃ t, execReportQueueRelease fn v s = .next t ∧ Keeps w s₀ t := by
  refine ⟨_, rfl, ?_⟩
  repeat' first
    | intro _
    | with_reducible assumption
    | with_reducible (first | apply Keeps.ite)
    | with_reducible (first | fail_if_no_progress apply Keeps.rpt m_rpt)
    | split
    | dsimp only

/-! ### Machine/Tenancy.lean -/

theorem resetReg_keeps {w : List Part} {s₀ : State} {s} {off} (m_regs : Part.regs ∈ w) (h : Keeps w s₀ s) :
    Keeps w s₀ (resetReg s off) := by
  unfold resetReg
  repeat' first
    | intro _
    | with_reducible assumption
    | with_reducible (first | apply Keeps.ite | apply wrReg_keeps)
    | split
    | dsimp only

theorem denied_keeps {w : List Part} {s₀ : State} {s} {x2} (m_log : Part.log ∈ w) (m_regs : Part.regs ∈ w) (m_rel : Part.rel ∈ w) (h : Keeps w s₀ s) :
    Keeps w s₀ (denied s x2) := by
  unfold denied
  repeat' first
    | intro _
    | with_reducible assumption
    | with_reducible (first | apply Keeps.ite | apply bump_keeps | apply log_keeps)
    | split
    | dsimp only

theorem sigFail_keeps {w : List Part} {s₀ : State} {s} {x2} (m_log : Part.log ∈ w) (m_regs : Part.regs ∈ w) (m_rel : Part.rel ∈ w) (h : Keeps w s₀ s) :
    Keeps w s₀ (sigFail s x2) := by
  unfold sigFail
  repeat' first
    | intro _
    | with_reducible assumption
    | with_reducible (first | apply Keeps.ite | apply bump_keeps | apply log_keeps)
    | split
    | dsimp only

theorem ringsCleared_keeps {w : List Part} {s₀ : State} {s} {fn} (m_host : Part.host ∈ w) (m_regs : Part.regs ∈ w) (h : Keeps w s₀ s) :
    Keeps w s₀ (ringsCleared s fn) := by
  unfold ringsCleared
  repeat' first
    | intro _
    | with_reducible assumption
    | with_reducible (first | apply Keeps.ite | apply Keeps.foldl | apply Keeps.foldl_fst | apply Keeps.foldl_snd | apply setFld_keeps | apply setRing_keeps | apply setCq_keeps)
    | split
    | dsimp only

theorem ringsOff_keeps {w : List Part} {s₀ : State} {s} {fn} (m_coll : Part.coll ∈ w) (m_dyn : Part.dyn ∈ w) (m_host : Part.host ∈ w) (m_log : Part.log ∈ w) (m_regs : Part.regs ∈ w) (m_rel : Part.rel ∈ w) (m_rte : Part.rte ∈ w) (m_slu : Part.slu ∈ w) (h : Keeps w s₀ s) :
    Keeps w s₀ (ringsOff s fn) := by
  unfold ringsOff
  repeat' first
    | intro _
    | with_reducible assumption
    | with_reducible (first | apply Keeps.ite | apply Keeps.foldl | apply Keeps.foldl_fst | apply Keeps.foldl_snd | apply abortCmd_keeps | apply ringsCleared_keeps)
    | with_reducible (first | fail_if_no_progress apply Keeps.host m_host)
    | split
    | dsimp only

theorem sluAbort_keeps {w : List Part} {s₀ : State} {s} {i} (m_coll : Part.coll ∈ w) (m_dyn : Part.dyn ∈ w) (m_host : Part.host ∈ w) (m_log : Part.log ∈ w) (m_regs : Part.regs ∈ w) (m_rel : Part.rel ∈ w) (m_rte : Part.rte ∈ w) (m_slu : Part.slu ∈ w) (h : Keeps w s₀ s) :
    Keeps w s₀ (sluAbort s i) := by
  unfold sluAbort
  repeat' first
    | intro _
    | with_reducible assumption
    | with_reducible (first | apply Keeps.ite | apply Keeps.foldl | apply Keeps.foldl_fst | apply Keeps.foldl_snd | apply Keeps.same_id | apply abortCmd_keeps)
    | with_reducible (first | fail_if_no_progress apply Keeps.slu m_slu)
    | split
    | dsimp only

theorem planOff_keeps {w : List Part} {s₀ : State} {s} {off} (m_dyn : Part.dyn ∈ w) (m_host : Part.host ∈ w) (m_regs : Part.regs ∈ w) (m_slu : Part.slu ∈ w) (h : Keeps w s₀ s) :
    Keeps w s₀ (planOff s off) := by
  unfold planOff
  repeat' first
    | intro _
    | with_reducible assumption
    | with_reducible (first | apply Keeps.ite | apply after_keeps | apply execInboxDisable_keeps | apply resetReg_keeps)
    | split
    | dsimp only

theorem groupDestroy_keeps {w : List Part} {s₀ : State} {s} {i} (m_coll : Part.coll ∈ w) (m_dyn : Part.dyn ∈ w) (m_free : Part.free ∈ w) (m_host : Part.host ∈ w) (m_lane : Part.lane ∈ w) (m_log : Part.log ∈ w) (m_obs : Part.obs ∈ w) (m_red : Part.red ∈ w) (m_regs : Part.regs ∈ w) (m_rel : Part.rel ∈ w) (m_rte : Part.rte ∈ w) (m_slu : Part.slu ∈ w) (m_trig : Part.trig ∈ w) (h : Keeps w s₀ s) :
    Keeps w s₀ (groupDestroy s i) := by
  unfold groupDestroy
  repeat' first
    | intro _
    | with_reducible assumption
    | with_reducible (first | apply Keeps.ite | apply Keeps.foldl | apply Keeps.foldl_fst | apply Keeps.foldl_snd | apply setFld_keeps | apply collEnd_keeps | apply disarmGroup_keeps | apply clearContexts_keeps | apply sluAbort_keeps | apply planOff_keeps)
    | with_reducible (first | fail_if_no_progress apply Keeps.coll m_coll)
    | split
    | dsimp only

theorem sealNow_keeps {w : List Part} {s₀ : State} {s} {x2} (m_regs : Part.regs ∈ w) (h : Keeps w s₀ s) :
    Keeps w s₀ (sealNow s x2) := by
  unfold sealNow
  repeat' first
    | intro _
    | with_reducible assumption
    | with_reducible (first | apply Keeps.ite | apply Keeps.foldl | apply Keeps.foldl_fst | apply Keeps.foldl_snd | apply wrReg_keeps | apply setFld_keeps)
    | split
    | dsimp only

theorem schKill_keeps {w : List Part} {s₀ : State} {s} {x2} (m_clk : Part.clk ∈ w) (m_regs : Part.regs ∈ w) (m_rel : Part.rel ∈ w) (m_sch : Part.sch ∈ w) (m_trig : Part.trig ∈ w) (h : Keeps w s₀ s) :
    Keeps w s₀ (schKill s x2) := by
  unfold schKill
  repeat' first
    | intro _
    | with_reducible assumption
    | with_reducible (first | apply Keeps.ite | apply setFld_keeps | apply advanceTo_keeps | apply setTen_keeps | apply schDrop_keeps | apply dropBeats_keeps)
    | split
    | dsimp only

theorem chFree_keeps {w : List Part} {s₀ : State} {s} {x2} {c} (m_chan : Part.chan ∈ w) (m_dyn : Part.dyn ∈ w) (m_free : Part.free ∈ w) (m_lane : Part.lane ∈ w) (m_mem : Part.mem ∈ w) (m_memPoison : Part.memPoison ∈ w) (m_obs : Part.obs ∈ w) (m_regs : Part.regs ∈ w) (m_rel : Part.rel ∈ w) (h : Keeps w s₀ s) :
    Keeps w s₀ (chFree s x2 c) := by
  unfold chFree
  repeat' first
    | intro _
    | with_reducible assumption
    | with_reducible (first | apply Keeps.ite | apply setChState_keeps | apply chReset_keeps)
    | split
    | dsimp only

theorem destroyBegin_keeps {w : List Part} {s₀ : State} {s} {p} (m_chan : Part.chan ∈ w) (m_clk : Part.clk ∈ w) (m_coll : Part.coll ∈ w) (m_dyn : Part.dyn ∈ w) (m_free : Part.free ∈ w) (m_host : Part.host ∈ w) (m_lane : Part.lane ∈ w) (m_log : Part.log ∈ w) (m_mem : Part.mem ∈ w) (m_memPoison : Part.memPoison ∈ w) (m_obs : Part.obs ∈ w) (m_parts : Part.parts ∈ w) (m_red : Part.red ∈ w) (m_regs : Part.regs ∈ w) (m_rel : Part.rel ∈ w) (m_rte : Part.rte ∈ w) (m_sch : Part.sch ∈ w) (m_slu : Part.slu ∈ w) (m_trig : Part.trig ∈ w) (h : Keeps w s₀ s) :
    Keeps w s₀ (destroyBegin s p) := by
  unfold destroyBegin
  repeat' first
    | intro _
    | with_reducible assumption
    | with_reducible (first | apply Keeps.ite | apply Keeps.foldl | apply Keeps.foldl_fst | apply Keeps.foldl_snd | apply setFnState_keeps | apply qpDestroy_keeps | apply mrDrop_keeps | apply ringsOff_keeps | apply groupDestroy_keeps | apply schKill_keeps | apply chFree_keeps)
    | with_reducible (first | fail_if_no_progress apply Keeps.parts m_parts)
    | split
    | dsimp only

theorem zeroWhere_keeps {w : List Part} {s₀ : State} {x1} {x2} (m_mem : Part.mem ∈ w) (m_memPoison : Part.memPoison ∈ w) (h : Keeps w s₀ x1) :
    Keeps w s₀ (zeroWhere x1 x2) :=
  h.trans ⟨fun p hp => by cases p <;> first | rfl | exact ⟨rfl, rfl⟩ | exact absurd m_mem hp | exact absurd m_memPoison hp, fun hw => by
    simp only [State.wf, Bool.and_eq_true] at hw ⊢
    exact ⟨tWf_filter _ _ hw.1, hw.2⟩⟩

theorem dropTraffic_keeps {w : List Part} {s₀ : State} {s} {x2} (m_dyn : Part.dyn ∈ w) (m_regs : Part.regs ∈ w) (h : Keeps w s₀ s) :
    Keeps w s₀ (dropTraffic s x2) := by
  unfold dropTraffic
  repeat' first
    | intro _
    | with_reducible assumption
    | with_reducible (first | apply Keeps.ite | apply Keeps.foldl | apply Keeps.foldl_fst | apply Keeps.foldl_snd | apply allotBack_keeps | apply giveFree_keeps | apply cisSub_keeps | apply dropWaiting_keeps)
    | with_reducible (first | fail_if_no_progress apply Keeps.dyn m_dyn)
    | split
    | dsimp only

theorem eraseKeys_keeps {w : List Part} {s₀ : State} {s} {x2} (m_regs : Part.regs ∈ w) (m_sec : Part.sec ∈ w) (h : Keeps w s₀ s) :
    Keeps w s₀ (eraseKeys s x2) := by
  unfold eraseKeys
  repeat' first
    | intro _
    | with_reducible assumption
    | with_reducible (first | apply Keeps.ite | apply wrReg_keeps | apply setFld_keeps)
    | with_reducible (first | fail_if_no_progress apply Keeps.sec m_sec)
    | split
    | dsimp only

theorem disown_keeps {w : List Part} {s₀ : State} {s} {x2} {off} (m_regs : Part.regs ∈ w) (h : Keeps w s₀ s) :
    Keeps w s₀ (disown s x2 off) := by
  unfold disown
  repeat' first
    | intro _
    | with_reducible assumption
    | with_reducible (first | apply Keeps.ite | apply Keeps.foldl | apply Keeps.foldl_fst | apply Keeps.foldl_snd | apply wrReg_keeps)
    | split
    | dsimp only

theorem freeRegs_keeps {w : List Part} {s₀ : State} {s} {x2} (m_regs : Part.regs ∈ w) (h : Keeps w s₀ s) :
    Keeps w s₀ (freeRegs s x2) := by
  unfold freeRegs
  repeat' first
    | intro _
    | with_reducible assumption
    | with_reducible (first | apply Keeps.ite | apply Keeps.foldl | apply Keeps.foldl_fst | apply Keeps.foldl_snd | apply resetReg_keeps | apply disown_keeps)
    | split
    | dsimp only

theorem clearPsn_keeps {w : List Part} {s₀ : State} {s} {x2} {tiles} (m_regs : Part.regs ∈ w) (h : Keeps w s₀ s) :
    Keeps w s₀ (clearPsn s x2 tiles) := by
  unfold clearPsn
  repeat' first
    | intro _
    | with_reducible assumption
    | with_reducible (first | apply Keeps.ite | apply Keeps.foldl | apply Keeps.foldl_fst | apply Keeps.foldl_snd | apply wrReg_keeps | apply resetReg_keeps)
    | split
    | dsimp only

theorem clearPartials_keeps {w : List Part} {s₀ : State} {s} {x2} (m_dyn : Part.dyn ∈ w) (m_free : Part.free ∈ w) (m_lane : Part.lane ∈ w) (m_obs : Part.obs ∈ w) (m_red : Part.red ∈ w) (m_regs : Part.regs ∈ w) (m_rel : Part.rel ∈ w) (h : Keeps w s₀ s) :
    Keeps w s₀ (clearPartials s x2) := by
  unfold clearPartials
  repeat' first
    | intro _
    | with_reducible assumption
    | with_reducible (first | apply Keeps.ite | apply Keeps.foldl | apply Keeps.foldl_fst | apply Keeps.foldl_snd | apply ctxDisable_keeps | apply resetReg_keeps)
    | split
    | dsimp only

theorem destroyEnd_keeps {w : List Part} {s₀ : State} {s} {p} (m_dyn : Part.dyn ∈ w) (m_free : Part.free ∈ w) (m_host : Part.host ∈ w) (m_lane : Part.lane ∈ w) (m_mem : Part.mem ∈ w) (m_memPoison : Part.memPoison ∈ w) (m_obs : Part.obs ∈ w) (m_parts : Part.parts ∈ w) (m_red : Part.red ∈ w) (m_regs : Part.regs ∈ w) (m_rel : Part.rel ∈ w) (m_sch : Part.sch ∈ w) (m_sec : Part.sec ∈ w) (h : Keeps w s₀ s) :
    Keeps w s₀ (destroyEnd s p) := by
  unfold destroyEnd
  repeat' first
    | intro _
    | with_reducible assumption
    | with_reducible (first | apply Keeps.ite | apply Keeps.foldl | apply Keeps.foldl_fst | apply Keeps.foldl_snd | apply after_keeps | apply setFld_keeps | apply setFnState_keeps | apply execTwinMapWrite_keeps | apply zeroWhere_keeps | apply dropTraffic_keeps | apply eraseKeys_keeps | apply freeRegs_keeps | apply clearPsn_keeps | apply clearPartials_keeps)
    | with_reducible (first | fail_if_no_progress apply Keeps.host m_host | fail_if_no_progress apply Keeps.parts m_parts | fail_if_no_progress apply Keeps.sch m_sch)
    | split
    | dsimp only

theorem endQueued_keeps {w : List Part} {s₀ : State} {s} {x2} (m_host : Part.host ∈ w) (m_mbx : Part.mbx ∈ w) (h : Keeps w s₀ s) :
    Keeps w s₀ (endQueued s x2) := by
  unfold endQueued
  repeat' first
    | intro _
    | with_reducible assumption
    | with_reducible (first | apply Keeps.ite | apply refuse_keeps)
    | split
    | dsimp only

theorem execZeroFillDone_keeps {w : List Part} {s₀ : State} {x1} {s} (m_dyn : Part.dyn ∈ w) (m_free : Part.free ∈ w) (m_host : Part.host ∈ w) (m_lane : Part.lane ∈ w) (m_mbx : Part.mbx ∈ w) (m_mem : Part.mem ∈ w) (m_memPoison : Part.memPoison ∈ w) (m_obs : Part.obs ∈ w) (m_parts : Part.parts ∈ w) (m_red : Part.red ∈ w) (m_regs : Part.regs ∈ w) (m_rel : Part.rel ∈ w) (m_sch : Part.sch ∈ w) (m_sec : Part.sec ∈ w) (h : Keeps w s₀ s) :
    ∃ t, execZeroFillDone x1 s = .next t ∧ Keeps w s₀ t := by
  refine ⟨_, rfl, ?_⟩
  repeat' first
    | intro _
    | with_reducible assumption
    | with_reducible (first | apply Keeps.ite | apply answerOk_keeps | apply refuseFirst_keeps | apply destroyEnd_keeps | apply endQueued_keeps)
    | split
    | dsimp only

end Sys2Proof.Machine
end

