-- ==== Sys2Proof/Laws/FrameReliability.lean ====
section
/-!
SUPPORT. What each operation of Machine/Reliability.lean, Machine/Boot.lean, Machine/Control.lean can touch: one lemma an operation,
that composes with the lemmas of its callers.
-/
namespace Sys2Proof.Machine

set_option linter.unusedTactic false
set_option linter.unreachableTactic false

/-! ### Machine/Reliability.lean -/

theorem setShadow_keeps {w : List Part} {s₀ : State} {s} {x2} {x} (m_rel : Part.rel ∈ w) (h : Keeps w s₀ s) :
    Keeps w s₀ (setShadow s x2 x) := by
  unfold setShadow
  repeat' first
    | intro _
    | with_reducible assumption
    | with_reducible (first | apply Keeps.ite)
    | with_reducible (first | fail_if_no_progress apply Keeps.rel m_rel)
    | split
    | dsimp only

theorem countCheck_keeps {w : List Part} {s₀ : State} {s} {x2} (m_regs : Part.regs ∈ w) (h : Keeps w s₀ s) :
    Keeps w s₀ (countCheck s x2) := by
  unfold countCheck
  repeat' first
    | intro _
    | with_reducible assumption
    | with_reducible (first | apply Keeps.ite | apply bump_keeps)
    | split
    | dsimp only

theorem shadowSeed_keeps {w : List Part} {s₀ : State} {s} {x2} (m_rel : Part.rel ∈ w) (h : Keeps w s₀ s) :
    Keeps w s₀ (shadowSeed s x2) := by
  unfold shadowSeed
  repeat' first
    | intro _
    | with_reducible assumption
    | with_reducible (first | apply Keeps.ite | apply setShadow_keeps)
    | split
    | dsimp only

theorem execShadowWindow_keeps {w : List Part} {s₀ : State} {x1} {n} {s} (m_regs : Part.regs ∈ w) (m_rel : Part.rel ∈ w) (h : Keeps w s₀ s) :
    ∃ t, execShadowWindow x1 n s = .next t ∧ Keeps w s₀ t := by
  refine ⟨_, rfl, ?_⟩
  repeat' first
    | intro _
    | with_reducible assumption
    | with_reducible (first | apply Keeps.ite | apply setShadow_keeps | apply countCheck_keeps)
    | split
    | dsimp only

theorem shadowDelay_keeps {w : List Part} {s₀ : State} {s} {x} (m_red : Part.red ∈ w) (m_sch : Part.sch ∈ w) (h : Keeps w s₀ s) :
    Keeps w s₀ (shadowDelay s x) := by
  unfold shadowDelay
  repeat' first
    | intro _
    | with_reducible assumption
    | with_reducible (first | apply Keeps.ite | apply Keeps.foldl | apply Keeps.foldl_fst | apply Keeps.foldl_snd | apply setRed_keeps)
    | with_reducible (first | fail_if_no_progress apply Keeps.sch m_sch)
    | split
    | dsimp only

theorem injResult_keeps {w : List Part} {s₀ : State} {s} {x2} {k} {first} (m_regs : Part.regs ∈ w) (m_rel : Part.rel ∈ w) (h : Keeps w s₀ s) :
    Keeps w s₀ (injResult s x2 k first).2 := by
  unfold injResult
  repeat' first
    | intro _
    | with_reducible assumption
    | with_reducible (first | apply Keeps.ite_snd | apply Keeps.ite | apply injFire_keeps)
    | with_reducible (first | fail_if_no_progress apply Keeps.rel m_rel)
    | split
    | dsimp only

theorem execShadowMismatch_keeps {w : List Part} {s₀ : State} {x1} {c} {x3} {a} {b} {first} {spare} {s} (m_red : Part.red ∈ w) (m_regs : Part.regs ∈ w) (m_rel : Part.rel ∈ w) (m_sch : Part.sch ∈ w) (h : Keeps w s₀ s) :
    ∃ t, execShadowMismatch x1 c x3 a b first spare s = .next t ∧ Keeps w s₀ t := by
  refine ⟨_, rfl, ?_⟩
  repeat' first
    | intro _
    | with_reducible assumption
    | with_reducible (first | apply Keeps.ite | apply Keeps.foldl | apply Keeps.foldl_fst | apply Keeps.foldl_snd | apply wrReg_keeps | apply setShadow_keeps | apply countCheck_keeps | apply shadowDelay_keeps | apply injResult_keeps)
    | refine Keeps.of_snd (by with_reducible assumption) ?_
    | split
    | dsimp only

theorem ruRetire_keeps {w : List Part} {s₀ : State} {s} {x2} {k} (m_regs : Part.regs ∈ w) (h : Keeps w s₀ s) :
    Keeps w s₀ (ruRetire s x2 k) := by
  unfold ruRetire
  repeat' first
    | intro _
    | with_reducible assumption
    | with_reducible (first | apply Keeps.ite | apply setFld_keeps)
    | split
    | dsimp only

theorem execShadowRecomputeDone_keeps {w : List Part} {s₀ : State} {x1} {x2} {spare} {voter} {s} (m_dyn : Part.dyn ∈ w) (m_free : Part.free ∈ w) (m_host : Part.host ∈ w) (m_lane : Part.lane ∈ w) (m_log : Part.log ∈ w) (m_obs : Part.obs ∈ w) (m_red : Part.red ∈ w) (m_regs : Part.regs ∈ w) (m_rel : Part.rel ∈ w) (m_rpt : Part.rpt ∈ w) (h : Keeps w s₀ s) :
    ∃ t, execShadowRecomputeDone x1 x2 spare voter s = .next t ∧ Keeps w s₀ t := by
  refine ⟨_, rfl, ?_⟩
  repeat' first
    | intro _
    | with_reducible assumption
    | with_reducible (first | apply Keeps.ite | apply bumpSat_keeps | apply histEvent_keeps | apply report_keeps | apply logKept_keeps | apply ctxFail_keeps | apply setShadow_keeps | apply ruRetire_keeps)
    | refine Keeps.of_fst (by with_reducible assumption) ?_
    | split
    | dsimp only

theorem eccCount_keeps {w : List Part} {s₀ : State} {s} {b} {f} (m_regs : Part.regs ∈ w) (h : Keeps w s₀ s) :
    Keeps w s₀ (eccCount s b f) := by
  unfold eccCount
  repeat' first
    | intro _
    | with_reducible assumption
    | with_reducible (first | apply Keeps.ite | apply bump_keeps)
    | split
    | dsimp only

theorem bufHit_keeps {w : List Part} {s₀ : State} {s} {b} {tenant} (m_log : Part.log ∈ w) (m_regs : Part.regs ∈ w) (m_rel : Part.rel ∈ w) (h : Keeps w s₀ s) :
    Keeps w s₀ (bufHit s b tenant) := by
  unfold bufHit
  repeat' first
    | intro _
    | with_reducible assumption
    | with_reducible (first | apply Keeps.ite | apply log_keeps | apply eccCount_keeps)
    | split
    | dsimp only

theorem cfgHit_keeps {w : List Part} {s₀ : State} {s} {b} {tenant} (m_log : Part.log ∈ w) (m_regs : Part.regs ∈ w) (m_rel : Part.rel ∈ w) (h : Keeps w s₀ s) :
    Keeps w s₀ (cfgHit s b tenant) := by
  unfold cfgHit
  repeat' first
    | intro _
    | with_reducible assumption
    | with_reducible (first | apply Keeps.ite | apply log_keeps | apply eccCount_keeps)
    | split
    | dsimp only

theorem ctrPoison_keeps {w : List Part} {s₀ : State} {s} {off} (m_regs : Part.regs ∈ w) (h : Keeps w s₀ s) :
    Keeps w s₀ (ctrPoison s off) := by
  unfold ctrPoison
  repeat' first
    | intro _
    | with_reducible assumption
    | with_reducible (first | apply Keeps.ite | apply ctrApply_keeps)
    | split
    | dsimp only

theorem trigPoison_keeps {w : List Part} {s₀ : State} {s} {b} {e} (m_regs : Part.regs ∈ w) (m_trig : Part.trig ∈ w) (h : Keeps w s₀ s) :
    Keeps w s₀ (trigPoison s b e) := by
  unfold trigPoison
  repeat' first
    | intro _
    | with_reducible assumption
    | with_reducible (first | apply Keeps.ite | apply disarm_keeps | apply ctrPoison_keeps)
    | with_reducible (first | fail_if_no_progress apply Keeps.trig m_trig)
    | split
    | dsimp only

theorem groupPoison_keeps {w : List Part} {s₀ : State} {s} {i} (m_regs : Part.regs ∈ w) (h : Keeps w s₀ s) :
    Keeps w s₀ (groupPoison s i) := by
  unfold groupPoison
  repeat' first
    | intro _
    | with_reducible assumption
    | with_reducible (first | apply Keeps.ite | apply Keeps.foldl | apply Keeps.foldl_fst | apply Keeps.foldl_snd | apply setGrpPsn_keeps)
    | split
    | dsimp only

theorem schLost_keeps {w : List Part} {s₀ : State} {s} {b} {x3} (m_host : Part.host ∈ w) (m_log : Part.log ∈ w) (m_regs : Part.regs ∈ w) (m_rel : Part.rel ∈ w) (m_rpt : Part.rpt ∈ w) (m_sch : Part.sch ∈ w) (h : Keeps w s₀ s) :
    Keeps w s₀ (schLost s b x3) := by
  unfold schLost
  repeat' first
    | intro _
    | with_reducible assumption
    | with_reducible (first | apply Keeps.ite | apply log_keeps | apply schStop_keeps | apply eccCount_keeps)
    | split
    | dsimp only

theorem scrubInj_keeps {w : List Part} {s₀ : State} {s} {b} {n} (m_regs : Part.regs ∈ w) (m_rel : Part.rel ∈ w) (h : Keeps w s₀ s) :
    Keeps w s₀ (scrubInj s b n) := by
  unfold scrubInj
  repeat' first
    | intro _
    | with_reducible assumption
    | with_reducible (first | apply Keeps.ite | apply injFire_keeps)
    | split
    | dsimp only

theorem sluLost_keeps {w : List Part} {s₀ : State} {s} {x2} {o} (m_coll : Part.coll ∈ w) (m_dyn : Part.dyn ∈ w) (m_host : Part.host ∈ w) (m_log : Part.log ∈ w) (m_regs : Part.regs ∈ w) (m_rel : Part.rel ∈ w) (m_rte : Part.rte ∈ w) (m_slu : Part.slu ∈ w) (h : Keeps w s₀ s) :
    Keeps w s₀ (sluLost s x2 o) := by
  unfold sluLost
  repeat' first
    | intro _
    | with_reducible assumption
    | with_reducible (first | apply Keeps.ite | apply abortCmd_keeps)
    | split
    | dsimp only

theorem scrubReset_keeps {w : List Part} {s₀ : State} {s} {off} (m_regs : Part.regs ∈ w) (m_rel : Part.rel ∈ w) (h : Keeps w s₀ s) :
    Keeps w s₀ (scrubReset s off) := by
  unfold scrubReset
  repeat' first
    | intro _
    | with_reducible assumption
    | with_reducible (first | apply Keeps.ite | apply setFld_keeps | apply resetReg_keeps)
    | with_reducible (first | fail_if_no_progress apply Keeps.rel m_rel)
    | split
    | dsimp only

theorem wordHit_keeps {w : List Part} {s₀ : State} {s} {x2} (m_dyn : Part.dyn ∈ w) (m_host : Part.host ∈ w) (m_log : Part.log ∈ w) (m_mbx : Part.mbx ∈ w) (m_regs : Part.regs ∈ w) (m_rel : Part.rel ∈ w) (m_rpt : Part.rpt ∈ w) (m_sch : Part.sch ∈ w) (h : Keeps w s₀ s) :
    Keeps w s₀ (wordHit s x2) := by
  unfold wordHit
  repeat' first
    | intro _
    | with_reducible assumption
    | with_reducible (first | apply Keeps.ite | apply linkErr_keeps | apply fmpBite_keeps)
    | with_reducible (first | fail_if_no_progress apply Keeps.dyn m_dyn | fail_if_no_progress apply Keeps.log m_log | fail_if_no_progress apply Keeps.sch m_sch)
    | split
    | dsimp only

theorem scrubHit_keeps {w : List Part} {s₀ : State} {s} {x2} (m_coll : Part.coll ∈ w) (m_dyn : Part.dyn ∈ w) (m_free : Part.free ∈ w) (m_host : Part.host ∈ w) (m_lane : Part.lane ∈ w) (m_log : Part.log ∈ w) (m_mbx : Part.mbx ∈ w) (m_obs : Part.obs ∈ w) (m_red : Part.red ∈ w) (m_regs : Part.regs ∈ w) (m_rel : Part.rel ∈ w) (m_rpt : Part.rpt ∈ w) (m_rte : Part.rte ∈ w) (m_sch : Part.sch ∈ w) (m_sec : Part.sec ∈ w) (m_slu : Part.slu ∈ w) (m_trig : Part.trig ∈ w) (h : Keeps w s₀ s) :
    Keeps w s₀ (scrubHit s x2) := by
  unfold scrubHit
  repeat' first
    | intro _
    | with_reducible assumption
    | with_reducible (first | apply Keeps.ite | apply Keeps.foldl | apply Keeps.foldl_fst | apply Keeps.foldl_snd | apply setFld_keeps | apply log_keeps | apply setLane_keeps | apply setRed_keeps | apply ctxFail_keeps | apply setChState_keeps | apply setQp_keeps | apply setPort_keeps | apply qpLost_keeps | apply mrDrop_keeps | apply resetReg_keeps | apply eccCount_keeps | apply bufHit_keeps | apply cfgHit_keeps | apply ctrPoison_keeps | apply trigPoison_keeps | apply groupPoison_keeps | apply schLost_keeps | apply scrubInj_keeps | apply sluLost_keeps | apply scrubReset_keeps | apply wordHit_keeps)
    | with_reducible (first | fail_if_no_progress apply Keeps.dyn m_dyn | fail_if_no_progress apply Keeps.lane m_lane | fail_if_no_progress apply Keeps.sch m_sch | fail_if_no_progress apply Keeps.sec m_sec)
    | split
    | dsimp only

theorem execConfigScrub_keeps {w : List Part} {s₀ : State} {x1} {s} (m_coll : Part.coll ∈ w) (m_dyn : Part.dyn ∈ w) (m_free : Part.free ∈ w) (m_host : Part.host ∈ w) (m_lane : Part.lane ∈ w) (m_log : Part.log ∈ w) (m_mbx : Part.mbx ∈ w) (m_obs : Part.obs ∈ w) (m_red : Part.red ∈ w) (m_regs : Part.regs ∈ w) (m_rel : Part.rel ∈ w) (m_rpt : Part.rpt ∈ w) (m_rte : Part.rte ∈ w) (m_sch : Part.sch ∈ w) (m_sec : Part.sec ∈ w) (m_slu : Part.slu ∈ w) (m_trig : Part.trig ∈ w) (h : Keeps w s₀ s) :
    ∃ t, execConfigScrub x1 s = .next t ∧ Keeps w s₀ t := by
  refine ⟨_, rfl, ?_⟩
  repeat' first
    | intro _
    | with_reducible assumption
    | with_reducible (first | apply Keeps.ite | apply scrubHit_keeps)
    | split
    | dsimp only

theorem execCoreClear_keeps {w : List Part} {s₀ : State} {x1} {s} (m_regs : Part.regs ∈ w) (h : Keeps w s₀ s) :
    ∃ t, execCoreClear x1 s = .next t ∧ Keeps w s₀ t := by
  refine ⟨_, rfl, ?_⟩
  repeat' first
    | intro _
    | with_reducible assumption
    | with_reducible (first | apply Keeps.ite | apply setFld_keeps)
    | split
    | dsimp only

theorem execTransHalving_keeps {w : List Part} {s₀ : State} {s} (m_rel : Part.rel ∈ w) (h : Keeps w s₀ s) :
    ∃ t, execTransHalving s = .next t ∧ Keeps w s₀ t := by
  refine ⟨_, rfl, ?_⟩
  repeat' first
    | intro _
    | with_reducible assumption
    | with_reducible (first | apply Keeps.ite)
    | with_reducible (first | fail_if_no_progress apply Keeps.rel m_rel)
    | split
    | dsimp only

theorem applyRetired_keeps {w : List Part} {s₀ : State} {s} {unit} {l} (m_lane : Part.lane ∈ w) (m_regs : Part.regs ∈ w) (h : Keeps w s₀ s) :
    Keeps w s₀ (applyRetired s unit l) := by
  unfold applyRetired
  repeat' first
    | intro _
    | with_reducible assumption
    | with_reducible (first | apply Keeps.ite | apply setLane_keeps | apply ruRetire_keeps)
    | split
    | dsimp only

theorem condemn_keeps {w : List Part} {s₀ : State} {s} {f} (m_lane : Part.lane ∈ w) (m_regs : Part.regs ∈ w) (m_rel : Part.rel ∈ w) (h : Keeps w s₀ s) :
    Keeps w s₀ (condemn s f) := by
  unfold condemn
  repeat' first
    | intro _
    | with_reducible assumption
    | with_reducible (first | apply Keeps.ite | apply histEvent_keeps | apply applyRetired_keeps)
    | split
    | dsimp only

theorem classify_keeps {w : List Part} {s₀ : State} {s} {f} (m_lane : Part.lane ∈ w) (m_log : Part.log ∈ w) (m_regs : Part.regs ∈ w) (m_rel : Part.rel ∈ w) (h : Keeps w s₀ s) :
    Keeps w s₀ (classify s f) := by
  unfold classify
  repeat' first
    | intro _
    | with_reducible assumption
    | with_reducible (first | apply Keeps.ite | apply histEvent_keeps | apply log_keeps | apply condemn_keeps)
    | split
    | dsimp only

theorem execScrubFillDone_keeps {w : List Part} {s₀ : State} {mep} {i} {s} (m_mem : Part.mem ∈ w) (m_memPoison : Part.memPoison ∈ w) (m_regs : Part.regs ∈ w) (h : Keeps w s₀ s) :
    ∃ t, execScrubFillDone mep i s = .next t ∧ Keeps w s₀ t := by
  refine ⟨_, rfl, ?_⟩
  repeat' first
    | intro _
    | with_reducible assumption
    | with_reducible (first | apply Keeps.ite | apply setFld_keeps | apply zeroWhere_keeps)
    | split
    | dsimp only

/-! ### Machine/Boot.lean -/

theorem setStage_keeps {w : List Part} {s₀ : State} {s} {v} (m_boot : Part.boot ∈ w) (m_regs : Part.regs ∈ w) (h : Keeps w s₀ s) :
    Keeps w s₀ (setStage s v) := by
  unfold setStage
  repeat' first
    | intro _
    | with_reducible assumption
    | with_reducible (first | apply Keeps.ite | apply setFld_keeps)
    | with_reducible (first | fail_if_no_progress apply Keeps.boot m_boot)
    | split
    | dsimp only

theorem setPwr_keeps {w : List Part} {s₀ : State} {s} {v} (m_regs : Part.regs ∈ w) (h : Keeps w s₀ s) :
    Keeps w s₀ (setPwr s v) := by
  unfold setPwr
  repeat' first
    | intro _
    | with_reducible assumption
    | with_reducible (first | apply Keeps.ite | apply setFld_keeps)
    | split
    | dsimp only

theorem resetRegs_keeps {w : List Part} {s₀ : State} {x1} {x2} (m_regs : Part.regs ∈ w) (h : Keeps w s₀ x1) :
    Keeps w s₀ (resetRegs x1 x2) :=
  h.trans ⟨fun p hp => by cases p <;> first | rfl | exact ⟨rfl, rfl⟩ | exact absurd m_regs hp, fun hw => by
    simp only [State.wf, Bool.and_eq_true] at hw ⊢
    exact ⟨hw.1, tWf_filter _ _ hw.2⟩⟩

theorem abortOps_keeps {w : List Part} {s₀ : State} {s} {st} (m_coll : Part.coll ∈ w) (m_regs : Part.regs ∈ w) (m_rel : Part.rel ∈ w) (h : Keeps w s₀ s) :
    Keeps w s₀ (abortOps s st) := by
  unfold abortOps
  repeat' first
    | intro _
    | with_reducible assumption
    | with_reducible (first | apply Keeps.ite | apply Keeps.foldl | apply Keeps.foldl_fst | apply Keeps.foldl_snd | apply spSend_keeps)
    | split
    | dsimp only

theorem fabHold_keeps {w : List Part} {s₀ : State} {s} (m_clk : Part.clk ∈ w) (m_coll : Part.coll ∈ w) (m_host : Part.host ∈ w) (m_parts : Part.parts ∈ w) (m_trig : Part.trig ∈ w) (h : Keeps w s₀ s) :
    Keeps w s₀ (fabHold s) := by
  unfold fabHold
  repeat' first
    | intro _
    | with_reducible assumption
    | with_reducible (first | apply Keeps.ite)
    | with_reducible (first | fail_if_no_progress apply Keeps.clk m_clk | fail_if_no_progress apply Keeps.coll m_coll | fail_if_no_progress apply Keeps.host m_host | fail_if_no_progress apply Keeps.parts m_parts | fail_if_no_progress apply Keeps.trig m_trig | fail_if_no_progress refine Keeps.record ?_)
    | split
    | dsimp only

theorem fabDown_keeps {w : List Part} {s₀ : State} {s} {st} (m_clk : Part.clk ∈ w) (m_coll : Part.coll ∈ w) (m_host : Part.host ∈ w) (m_parts : Part.parts ∈ w) (m_regs : Part.regs ∈ w) (m_rel : Part.rel ∈ w) (m_trig : Part.trig ∈ w) (h : Keeps w s₀ s) :
    Keeps w s₀ (fabDown s st) := by
  unfold fabDown
  repeat' first
    | intro _
    | with_reducible assumption
    | with_reducible (first | apply Keeps.ite | apply abortOps_keeps | apply fabHold_keeps)
    | split
    | dsimp only

theorem scrubEntry_keeps {w : List Part} {s₀ : State} {s} {e} (m_regs : Part.regs ∈ w) (h : Keeps w s₀ s) :
    Keeps w s₀ (scrubEntry s e) := by
  unfold scrubEntry
  repeat' first
    | intro _
    | with_reducible assumption
    | with_reducible (first | apply Keeps.ite | apply wrReg_keeps | apply setFld_keeps)
    | split
    | dsimp only

theorem shadowHist_keeps {w : List Part} {s₀ : State} {s} {x2} (m_regs : Part.regs ∈ w) (h : Keeps w s₀ s) :
    Keeps w s₀ (shadowHist s x2) := by
  unfold shadowHist
  repeat' first
    | intro _
    | with_reducible assumption
    | with_reducible (first | apply Keeps.ite | apply Keeps.foldl | apply Keeps.foldl_fst | apply Keeps.foldl_snd | apply setFld_keeps | apply ruRetire_keeps)
    | split
    | dsimp only

theorem fabRuns_keeps {w : List Part} {s₀ : State} {s} (m_arb : Part.arb ∈ w) (m_boot : Part.boot ∈ w) (m_bus : Part.bus ∈ w) (m_chan : Part.chan ∈ w) (m_coll : Part.coll ∈ w) (m_dyn : Part.dyn ∈ w) (m_host : Part.host ∈ w) (m_lane : Part.lane ∈ w) (m_obs : Part.obs ∈ w) (m_red : Part.red ∈ w) (m_rel : Part.rel ∈ w) (m_rte : Part.rte ∈ w) (m_sch : Part.sch ∈ w) (m_sec : Part.sec ∈ w) (m_slu : Part.slu ∈ w) (m_trig : Part.trig ∈ w) (h : Keeps w s₀ s) :
    Keeps w s₀ (fabRuns s) := by
  unfold fabRuns
  repeat' first
    | intro _
    | with_reducible assumption
    | with_reducible (first | apply Keeps.ite)
    | with_reducible (first | fail_if_no_progress apply Keeps.arb m_arb | fail_if_no_progress apply Keeps.boot m_boot | fail_if_no_progress apply Keeps.bus m_bus | fail_if_no_progress apply Keeps.chan m_chan | fail_if_no_progress apply Keeps.coll m_coll | fail_if_no_progress apply Keeps.dyn m_dyn | fail_if_no_progress apply Keeps.host m_host | fail_if_no_progress apply Keeps.lane m_lane | fail_if_no_progress apply Keeps.obs m_obs | fail_if_no_progress apply Keeps.red m_red | fail_if_no_progress apply Keeps.rel m_rel | fail_if_no_progress apply Keeps.rte m_rte | fail_if_no_progress apply Keeps.sch m_sch | fail_if_no_progress apply Keeps.sec m_sec | fail_if_no_progress apply Keeps.slu m_slu | fail_if_no_progress apply Keeps.trig m_trig | fail_if_no_progress refine Keeps.record ?_)
    | split
    | dsimp only

theorem fabUp_keeps {w : List Part} {s₀ : State} {x1} (m_arb : Part.arb ∈ w) (m_boot : Part.boot ∈ w) (m_bus : Part.bus ∈ w) (m_chan : Part.chan ∈ w) (m_clk : Part.clk ∈ w) (m_coll : Part.coll ∈ w) (m_dyn : Part.dyn ∈ w) (m_host : Part.host ∈ w) (m_lane : Part.lane ∈ w) (m_mem : Part.mem ∈ w) (m_memPoison : Part.memPoison ∈ w) (m_obs : Part.obs ∈ w) (m_parts : Part.parts ∈ w) (m_red : Part.red ∈ w) (m_regs : Part.regs ∈ w) (m_rel : Part.rel ∈ w) (m_rte : Part.rte ∈ w) (m_sch : Part.sch ∈ w) (m_sec : Part.sec ∈ w) (m_slu : Part.slu ∈ w) (m_trig : Part.trig ∈ w) (h : Keeps w s₀ x1) :
    Keeps w s₀ (fabUp x1) := by
  unfold fabUp
  dsimp only
  refine setPwr_keeps m_regs (Keeps.record ?_)
  refine Keeps.foldl (zeroWhere_keeps m_mem m_memPoison (fabRuns_keeps m_arb m_boot m_bus m_chan m_coll m_dyn m_host m_lane m_obs m_red m_rel m_rte m_sch m_sec m_slu m_trig ?_)) fun u x hu => shadowHist_keeps m_regs hu
  refine Keeps.foldl (wrReg_keeps m_regs ?_) fun u x hu => setFld_keeps m_regs hu
  exact Keeps.foldl (resetRegs_keeps m_regs (Keeps.obs m_obs h)) fun u x hu => scrubEntry_keeps m_regs hu

theorem startTraining_keeps {w : List Part} {s₀ : State} {s} (m_arb : Part.arb ∈ w) (m_lane : Part.lane ∈ w) (m_regs : Part.regs ∈ w) (h : Keeps w s₀ s) :
    Keeps w s₀ (startTraining s) := by
  unfold startTraining
  repeat' first
    | intro _
    | with_reducible assumption
    | with_reducible (first | apply Keeps.ite | apply Keeps.foldl | apply Keeps.foldl_fst | apply Keeps.foldl_snd | apply toState_keeps)
    | split
    | dsimp only

theorem fnStates_keeps {w : List Part} {s₀ : State} {s} {lost} (m_regs : Part.regs ∈ w) (h : Keeps w s₀ s) :
    Keeps w s₀ (fnStates s lost) := by
  unfold fnStates
  repeat' first
    | intro _
    | with_reducible assumption
    | with_reducible (first | apply Keeps.ite | apply Keeps.foldl | apply Keeps.foldl_fst | apply Keeps.foldl_snd | apply setFnState_keeps)
    | split
    | dsimp only

theorem laneArbReset_keeps {w : List Part} {s₀ : State} {s} {n} (m_arb : Part.arb ∈ w) (h : Keeps w s₀ s) :
    Keeps w s₀ (laneArbReset s n) := by
  unfold laneArbReset
  repeat' first
    | intro _
    | with_reducible assumption
    | with_reducible (first | apply Keeps.ite | apply setRun_keeps)
    | with_reducible (first | fail_if_no_progress apply Keeps.arb m_arb)
    | split
    | dsimp only

theorem laneReset_keeps {w : List Part} {s₀ : State} {s} {n} (m_arb : Part.arb ∈ w) (m_lane : Part.lane ∈ w) (m_regs : Part.regs ∈ w) (h : Keeps w s₀ s) :
    Keeps w s₀ (laneReset s n) := by
  unfold laneReset
  repeat' first
    | intro _
    | with_reducible assumption
    | with_reducible (first | apply Keeps.ite | apply setFld_keeps | apply setLane_keeps | apply setWidth_keeps | apply toState_keeps | apply resetRegs_keeps | apply laneArbReset_keeps)
    | split
    | dsimp only

theorem execDomainResetDone_keeps {w : List Part} {s₀ : State} {lp} {s} (m_arb : Part.arb ∈ w) (m_boot : Part.boot ∈ w) (m_bus : Part.bus ∈ w) (m_chan : Part.chan ∈ w) (m_clk : Part.clk ∈ w) (m_coll : Part.coll ∈ w) (m_dyn : Part.dyn ∈ w) (m_host : Part.host ∈ w) (m_lane : Part.lane ∈ w) (m_mbx : Part.mbx ∈ w) (m_mem : Part.mem ∈ w) (m_memPoison : Part.memPoison ∈ w) (m_obs : Part.obs ∈ w) (m_parts : Part.parts ∈ w) (m_red : Part.red ∈ w) (m_regs : Part.regs ∈ w) (m_rel : Part.rel ∈ w) (m_rte : Part.rte ∈ w) (m_sch : Part.sch ∈ w) (m_sec : Part.sec ∈ w) (m_slu : Part.slu ∈ w) (m_trig : Part.trig ∈ w) (h : Keeps w s₀ s) :
    ∃ t, execDomainResetDone lp s = .next t ∧ Keeps w s₀ t := by
  refine ⟨_, rfl, ?_⟩
  repeat' first
    | intro _
    | with_reducible assumption
    | with_reducible (first | apply Keeps.ite | apply answerOk_keeps | apply refuseFirst_keeps | apply fabUp_keeps | apply startTraining_keeps | apply fnStates_keeps | apply laneReset_keeps)
    | with_reducible (first | fail_if_no_progress apply Keeps.host m_host)
    | split
    | dsimp only

theorem bootStop_keeps {w : List Part} {s₀ : State} {s} {code} (m_boot : Part.boot ∈ w) (m_log : Part.log ∈ w) (m_regs : Part.regs ∈ w) (m_rel : Part.rel ∈ w) (h : Keeps w s₀ s) :
    Keeps w s₀ (bootStop s code) := by
  unfold bootStop
  repeat' first
    | intro _
    | with_reducible assumption
    | with_reducible (first | apply Keeps.ite | apply setFld_keeps | apply log_keeps | apply setStage_keeps)
    | split
    | dsimp only

theorem clockLoss_keeps {w : List Part} {s₀ : State} {s} (m_boot : Part.boot ∈ w) (m_clk : Part.clk ∈ w) (m_log : Part.log ∈ w) (m_regs : Part.regs ∈ w) (m_rel : Part.rel ∈ w) (h : Keeps w s₀ s) :
    Keeps w s₀ (clockLoss s) := by
  unfold clockLoss
  repeat' first
    | intro _
    | with_reducible assumption
    | with_reducible (first | apply Keeps.ite | apply setFld_keeps | apply bumpSat_keeps | apply log_keeps | apply setStage_keeps | apply bootStop_keeps)
    | with_reducible (first | fail_if_no_progress apply Keeps.boot m_boot | fail_if_no_progress apply Keeps.clk m_clk)
    | split
    | dsimp only

theorem execClockLoss_keeps {w : List Part} {s₀ : State} {s} (m_boot : Part.boot ∈ w) (m_clk : Part.clk ∈ w) (m_log : Part.log ∈ w) (m_regs : Part.regs ∈ w) (m_rel : Part.rel ∈ w) (h : Keeps w s₀ s) :
    ∃ t, execClockLoss s = .next t ∧ Keeps w s₀ t := by
  refine ⟨_, rfl, ?_⟩
  repeat' first
    | intro _
    | with_reducible assumption
    | with_reducible (first | apply Keeps.ite | apply clockLoss_keeps)
    | split
    | dsimp only

theorem execRootPllRelock_keeps {w : List Part} {s₀ : State} {s} (m_clk : Part.clk ∈ w) (m_coll : Part.coll ∈ w) (m_dyn : Part.dyn ∈ w) (m_free : Part.free ∈ w) (m_host : Part.host ∈ w) (m_lane : Part.lane ∈ w) (m_log : Part.log ∈ w) (m_mbx : Part.mbx ∈ w) (m_obs : Part.obs ∈ w) (m_parts : Part.parts ∈ w) (m_regs : Part.regs ∈ w) (m_rel : Part.rel ∈ w) (m_rte : Part.rte ∈ w) (m_trig : Part.trig ∈ w) (h : Keeps w s₀ s) :
    ∃ t, execRootPllRelock s = .next t ∧ Keeps w s₀ t := by
  refine ⟨_, rfl, ?_⟩
  repeat' first
    | intro _
    | with_reducible assumption
    | with_reducible (first | apply Keeps.ite | apply setFld_keeps | apply log_keeps | apply closePairs_keeps | apply endAll_keeps | apply fabDown_keeps)
    | with_reducible (first | fail_if_no_progress apply Keeps.clk m_clk)
    | split
    | dsimp only

theorem execRefclkLoss_keeps {w : List Part} {s₀ : State} {s} (m_regs : Part.regs ∈ w) (h : Keeps w s₀ s) :
    ∃ t, execRefclkLoss s = .next t ∧ Keeps w s₀ t := by
  refine ⟨_, rfl, ?_⟩
  repeat' first
    | intro _
    | with_reducible assumption
    | with_reducible (first | apply Keeps.ite | apply setFld_keeps)
    | split
    | dsimp only

theorem execRefclkReturn_keeps {w : List Part} {s₀ : State} {s} (m_regs : Part.regs ∈ w) (h : Keeps w s₀ s) :
    ∃ t, execRefclkReturn s = .next t ∧ Keeps w s₀ t := by
  refine ⟨_, rfl, ?_⟩
  repeat' first
    | intro _
    | with_reducible assumption
    | with_reducible (first | apply Keeps.ite | apply setFld_keeps)
    | split
    | dsimp only

theorem execPorstRelease_keeps {w : List Part} {s₀ : State} {inp} {s} (m_boot : Part.boot ∈ w) (m_regs : Part.regs ∈ w) (m_rel : Part.rel ∈ w) (h : Keeps w s₀ s) :
    ∃ t, execPorstRelease inp s = .next t ∧ Keeps w s₀ t := by
  refine ⟨_, rfl, ?_⟩
  repeat' first
    | intro _
    | with_reducible assumption
    | with_reducible (first | apply Keeps.ite | apply setFld_keeps | apply setStage_keeps)
    | with_reducible (first | fail_if_no_progress apply Keeps.boot m_boot | fail_if_no_progress apply Keeps.rel m_rel | fail_if_no_progress refine Keeps.record ?_)
    | split
    | dsimp only

theorem execPllLock_keeps {w : List Part} {s₀ : State} {s} (m_boot : Part.boot ∈ w) (m_clk : Part.clk ∈ w) (m_regs : Part.regs ∈ w) (h : Keeps w s₀ s) :
    ∃ t, execPllLock s = .next t ∧ Keeps w s₀ t := by
  refine ⟨_, rfl, ?_⟩
  repeat' first
    | intro _
    | with_reducible assumption
    | with_reducible (first | apply Keeps.ite | apply setFld_keeps | apply setStage_keeps)
    | with_reducible (first | fail_if_no_progress apply Keeps.clk m_clk)
    | split
    | dsimp only

theorem copyEvents_keeps {w : List Part} {s₀ : State} {s} (m_log : Part.log ∈ w) (m_regs : Part.regs ∈ w) (m_rel : Part.rel ∈ w) (h : Keeps w s₀ s) :
    Keeps w s₀ (copyEvents s) := by
  unfold copyEvents
  repeat' first
    | intro _
    | with_reducible assumption
    | with_reducible (first | apply Keeps.ite | apply wrReg_keeps | apply log_keeps)
    | split
    | dsimp only

theorem stageRecord_keeps {w : List Part} {s₀ : State} {s} {i} (m_boot : Part.boot ∈ w) (m_log : Part.log ∈ w) (m_regs : Part.regs ∈ w) (m_rel : Part.rel ∈ w) (h : Keeps w s₀ s) :
    Keeps w s₀ (stageRecord s i) := by
  unfold stageRecord
  repeat' first
    | intro _
    | with_reducible assumption
    | with_reducible (first | apply Keeps.ite | apply setFld_keeps | apply setStage_keeps | apply bootStop_keeps | apply copyEvents_keeps)
    | split
    | dsimp only

theorem verifyImage_keeps {w : List Part} {s₀ : State} {s} {v} (m_regs : Part.regs ∈ w) (m_rel : Part.rel ∈ w) (h : Keeps w s₀ s) :
    Keeps w s₀ (verifyImage s v).1 := by
  unfold verifyImage
  repeat' first
    | intro _
    | with_reducible assumption
    | with_reducible (first | apply Keeps.ite_fst | apply Keeps.ite | apply injFire_keeps)
    | split
    | dsimp only

theorem stageFirmware_keeps {w : List Part} {s₀ : State} {s} {first} {second} (m_boot : Part.boot ∈ w) (m_log : Part.log ∈ w) (m_mbx : Part.mbx ∈ w) (m_regs : Part.regs ∈ w) (m_rel : Part.rel ∈ w) (h : Keeps w s₀ s) :
    Keeps w s₀ (stageFirmware s first second) := by
  unfold stageFirmware
  repeat' first
    | intro _
    | with_reducible assumption
    | with_reducible (first | apply Keeps.ite | apply log_keeps | apply setStage_keeps | apply bootStop_keeps | apply verifyImage_keeps)
    | refine Keeps.of_fst (by with_reducible assumption) ?_
    | with_reducible (first | fail_if_no_progress apply Keeps.mbx m_mbx | fail_if_no_progress refine Keeps.record ?_)
    | split
    | dsimp only

theorem stageHistory_keeps {w : List Part} {s₀ : State} {s} {i} (m_boot : Part.boot ∈ w) (m_lane : Part.lane ∈ w) (m_log : Part.log ∈ w) (m_regs : Part.regs ∈ w) (m_rel : Part.rel ∈ w) (h : Keeps w s₀ s) :
    Keeps w s₀ (stageHistory s i) := by
  unfold stageHistory
  repeat' first
    | intro _
    | with_reducible assumption
    | with_reducible (first | apply Keeps.ite | apply Keeps.foldl | apply Keeps.foldl_fst | apply Keeps.foldl_snd | apply applyRetired_keeps | apply setStage_keeps | apply bootStop_keeps)
    | split
    | dsimp only

theorem stageFabric_keeps {w : List Part} {s₀ : State} {s} (m_arb : Part.arb ∈ w) (m_boot : Part.boot ∈ w) (m_bus : Part.bus ∈ w) (m_chan : Part.chan ∈ w) (m_clk : Part.clk ∈ w) (m_coll : Part.coll ∈ w) (m_dyn : Part.dyn ∈ w) (m_host : Part.host ∈ w) (m_lane : Part.lane ∈ w) (m_mem : Part.mem ∈ w) (m_memPoison : Part.memPoison ∈ w) (m_obs : Part.obs ∈ w) (m_parts : Part.parts ∈ w) (m_red : Part.red ∈ w) (m_regs : Part.regs ∈ w) (m_rel : Part.rel ∈ w) (m_rte : Part.rte ∈ w) (m_sch : Part.sch ∈ w) (m_sec : Part.sec ∈ w) (m_slu : Part.slu ∈ w) (m_trig : Part.trig ∈ w) (h : Keeps w s₀ s) :
    Keeps w s₀ (stageFabric s) := by
  unfold stageFabric
  repeat' first
    | intro _
    | with_reducible assumption
    | with_reducible (first | apply Keeps.ite | apply setStage_keeps | apply fabUp_keeps)
    | with_reducible (first | fail_if_no_progress apply Keeps.clk m_clk)
    | split
    | dsimp only

theorem stageScan_keeps {w : List Part} {s₀ : State} {s} {i} (m_boot : Part.boot ∈ w) (m_lane : Part.lane ∈ w) (m_log : Part.log ∈ w) (m_regs : Part.regs ∈ w) (m_rel : Part.rel ∈ w) (h : Keeps w s₀ s) :
    Keeps w s₀ (stageScan s i) := by
  unfold stageScan
  repeat' first
    | intro _
    | with_reducible assumption
    | with_reducible (first | apply Keeps.ite | apply Keeps.foldl | apply Keeps.foldl_fst | apply Keeps.foldl_snd | apply classify_keeps | apply setStage_keeps | apply bootStop_keeps)
    | split
    | dsimp only

theorem stageLanes_keeps {w : List Part} {s₀ : State} {s} {i} (m_boot : Part.boot ∈ w) (m_lane : Part.lane ∈ w) (m_log : Part.log ∈ w) (m_regs : Part.regs ∈ w) (m_rel : Part.rel ∈ w) (h : Keeps w s₀ s) :
    Keeps w s₀ (stageLanes s i) := by
  unfold stageLanes
  repeat' first
    | intro _
    | with_reducible assumption
    | with_reducible (first | apply Keeps.ite | apply Keeps.foldl | apply Keeps.foldl_fst | apply Keeps.foldl_snd | apply classify_keeps | apply setStage_keeps)
    | split
    | dsimp only

theorem bootStep_keeps {w : List Part} {s₀ : State} {s} (m_arb : Part.arb ∈ w) (m_boot : Part.boot ∈ w) (m_bus : Part.bus ∈ w) (m_chan : Part.chan ∈ w) (m_clk : Part.clk ∈ w) (m_coll : Part.coll ∈ w) (m_dyn : Part.dyn ∈ w) (m_host : Part.host ∈ w) (m_lane : Part.lane ∈ w) (m_log : Part.log ∈ w) (m_mbx : Part.mbx ∈ w) (m_mem : Part.mem ∈ w) (m_memPoison : Part.memPoison ∈ w) (m_obs : Part.obs ∈ w) (m_parts : Part.parts ∈ w) (m_red : Part.red ∈ w) (m_regs : Part.regs ∈ w) (m_rel : Part.rel ∈ w) (m_rte : Part.rte ∈ w) (m_sch : Part.sch ∈ w) (m_sec : Part.sec ∈ w) (m_slu : Part.slu ∈ w) (m_trig : Part.trig ∈ w) (h : Keeps w s₀ s) :
    Keeps w s₀ (bootStep s) := by
  unfold bootStep
  repeat' first
    | intro _
    | with_reducible assumption
    | with_reducible (first | apply Keeps.ite | apply stageRecord_keeps | apply stageFirmware_keeps | apply stageHistory_keeps | apply stageFabric_keeps | apply stageScan_keeps | apply stageLanes_keeps)
    | with_reducible (first | fail_if_no_progress apply Keeps.boot m_boot)
    | split
    | dsimp only

theorem execHbmControllersReady_keeps {w : List Part} {s₀ : State} {s} (m_boot : Part.boot ∈ w) (m_mbx : Part.mbx ∈ w) (m_regs : Part.regs ∈ w) (h : Keeps w s₀ s) :
    ∃ t, execHbmControllersReady s = .next t ∧ Keeps w s₀ t := by
  refine ⟨_, rfl, ?_⟩
  repeat' first
    | intro _
    | with_reducible assumption
    | with_reducible (first | apply Keeps.ite | apply setFld_keeps | apply setFnState_keeps | apply fmpUp_keeps | apply setStage_keeps)
    | split
    | dsimp only

theorem execMemoryStageTimeout_keeps {w : List Part} {s₀ : State} {s} (m_boot : Part.boot ∈ w) (m_clk : Part.clk ∈ w) (m_log : Part.log ∈ w) (m_regs : Part.regs ∈ w) (m_rel : Part.rel ∈ w) (m_trig : Part.trig ∈ w) (h : Keeps w s₀ s) :
    ∃ t, execMemoryStageTimeout s = .next t ∧ Keeps w s₀ t := by
  refine ⟨_, rfl, ?_⟩
  repeat' first
    | intro _
    | with_reducible assumption
    | with_reducible (first | apply Keeps.ite | apply advanceTo_keeps | apply bootStop_keeps)
    | split
    | dsimp only

theorem execPorstAssert_keeps {w : List Part} {s₀ : State} {s} (m_boot : Part.boot ∈ w) (m_clk : Part.clk ∈ w) (m_coll : Part.coll ∈ w) (m_host : Part.host ∈ w) (m_mbx : Part.mbx ∈ w) (m_parts : Part.parts ∈ w) (m_regs : Part.regs ∈ w) (m_rel : Part.rel ∈ w) (m_trig : Part.trig ∈ w) (h : Keeps w s₀ s) :
    ∃ t, execPorstAssert s = .next t ∧ Keeps w s₀ t := by
  refine ⟨_, rfl, ?_⟩
  repeat' first
    | intro _
    | with_reducible assumption
    | with_reducible (first | apply Keeps.ite | apply wrReg_keeps | apply setFld_keeps | apply raise_keeps | apply setPwr_keeps | apply fabDown_keeps)
    | with_reducible (first | fail_if_no_progress apply Keeps.boot m_boot | fail_if_no_progress apply Keeps.clk m_clk | fail_if_no_progress apply Keeps.host m_host | fail_if_no_progress apply Keeps.mbx m_mbx | fail_if_no_progress refine Keeps.record ?_)
    | split
    | dsimp only

theorem execUndervoltage_keeps {w : List Part} {s₀ : State} {x1} (m_arb : Part.arb ∈ w) (m_boot : Part.boot ∈ w) (m_bus : Part.bus ∈ w) (m_chan : Part.chan ∈ w) (m_clk : Part.clk ∈ w) (m_coll : Part.coll ∈ w) (m_dyn : Part.dyn ∈ w) (m_host : Part.host ∈ w) (m_lane : Part.lane ∈ w) (m_log : Part.log ∈ w) (m_mbx : Part.mbx ∈ w) (m_mem : Part.mem ∈ w) (m_memPoison : Part.memPoison ∈ w) (m_obs : Part.obs ∈ w) (m_parts : Part.parts ∈ w) (m_red : Part.red ∈ w) (m_regs : Part.regs ∈ w) (m_rel : Part.rel ∈ w) (m_rpt : Part.rpt ∈ w) (m_rte : Part.rte ∈ w) (m_sch : Part.sch ∈ w) (m_sec : Part.sec ∈ w) (m_slu : Part.slu ∈ w) (m_trig : Part.trig ∈ w) (h : Keeps w s₀ x1) :
    ∃ t, execUndervoltage x1 = .next t ∧ Keeps w s₀ t := by
  refine ⟨_, rfl, ?_⟩
  have e (r : RelState) (b : BootState) : Keeps w s₀ ({ pending := x1.pending, free := x1.free, boot := b, rel := r } : State) :=
    h.trans ⟨fun p hp => by cases p <;> first | rfl | exact ⟨rfl, rfl⟩ | exact absurd (by assumption) hp, fun _ => rfl⟩
  exact Keeps.ite (wrReg_keeps m_regs (e _ _)) (setStage_keeps m_boot m_regs (setFld_keeps m_regs (wrReg_keeps m_regs (e _ _))))

theorem execSensorSample_keeps {w : List Part} {s₀ : State} {site} {temp} {volt} {s} (m_boot : Part.boot ∈ w) (m_regs : Part.regs ∈ w) (m_rel : Part.rel ∈ w) (h : Keeps w s₀ s) :
    ∃ t, execSensorSample site temp volt s = .next t ∧ Keeps w s₀ t := by
  refine ⟨_, rfl, ?_⟩
  repeat' first
    | intro _
    | with_reducible assumption
    | with_reducible (first | apply Keeps.ite | apply setFld_keeps)
    | with_reducible (first | fail_if_no_progress apply Keeps.boot m_boot | fail_if_no_progress apply Keeps.rel m_rel)
    | split
    | dsimp only

theorem execThermalTrip_keeps {w : List Part} {s₀ : State} {site} {s} (m_boot : Part.boot ∈ w) (m_clk : Part.clk ∈ w) (m_coll : Part.coll ∈ w) (m_host : Part.host ∈ w) (m_log : Part.log ∈ w) (m_parts : Part.parts ∈ w) (m_regs : Part.regs ∈ w) (m_rel : Part.rel ∈ w) (m_trig : Part.trig ∈ w) (h : Keeps w s₀ s) :
    ∃ t, execThermalTrip site s = .next t ∧ Keeps w s₀ t := by
  refine ⟨_, rfl, ?_⟩
  repeat' first
    | intro _
    | with_reducible assumption
    | with_reducible (first | apply Keeps.ite | apply setFld_keeps | apply raise_keeps | apply log_keeps | apply setStage_keeps | apply fabDown_keeps)
    | with_reducible (first | fail_if_no_progress apply Keeps.boot m_boot)
    | split
    | dsimp only

theorem execFabricIdleEnter_keeps {w : List Part} {s₀ : State} {s} (m_boot : Part.boot ∈ w) (m_clk : Part.clk ∈ w) (m_regs : Part.regs ∈ w) (m_rel : Part.rel ∈ w) (m_trig : Part.trig ∈ w) (h : Keeps w s₀ s) :
    ∃ t, execFabricIdleEnter s = .next t ∧ Keeps w s₀ t := by
  refine ⟨_, rfl, ?_⟩
  repeat' first
    | intro _
    | with_reducible assumption
    | with_reducible (first | apply Keeps.ite | apply bump_keeps | apply advanceTo_keeps | apply setPwr_keeps)
    | with_reducible (first | fail_if_no_progress apply Keeps.boot m_boot | fail_if_no_progress apply Keeps.clk m_clk)
    | split
    | dsimp only

theorem wakeBy_keeps {w : List Part} {s₀ : State} {s} {src} (m_boot : Part.boot ∈ w) (m_clk : Part.clk ∈ w) (m_regs : Part.regs ∈ w) (h : Keeps w s₀ s) :
    Keeps w s₀ (wakeBy s src) := by
  unfold wakeBy
  repeat' first
    | intro _
    | with_reducible assumption
    | with_reducible (first | apply Keeps.ite | apply setFld_keeps | apply setPwr_keeps)
    | with_reducible (first | fail_if_no_progress apply Keeps.boot m_boot | fail_if_no_progress apply Keeps.clk m_clk | fail_if_no_progress refine Keeps.record ?_)
    | split
    | dsimp only

theorem execWakeLatch_keeps {w : List Part} {s₀ : State} {src} {s} (m_boot : Part.boot ∈ w) (m_clk : Part.clk ∈ w) (m_regs : Part.regs ∈ w) (h : Keeps w s₀ s) :
    ∃ t, execWakeLatch src s = .next t ∧ Keeps w s₀ t := by
  refine ⟨_, rfl, ?_⟩
  repeat' first
    | intro _
    | with_reducible assumption
    | with_reducible (first | apply Keeps.ite | apply wakeBy_keeps)
    | split
    | dsimp only

theorem pwrCtlWrite_keeps {w : List Part} {s₀ : State} {s} {v} (m_boot : Part.boot ∈ w) (m_clk : Part.clk ∈ w) (m_regs : Part.regs ∈ w) (h : Keeps w s₀ s) :
    Keeps w s₀ (pwrCtlWrite s v) := by
  unfold pwrCtlWrite
  repeat' first
    | intro _
    | with_reducible assumption
    | with_reducible (first | apply Keeps.ite | apply softWrite_keeps | apply wakeBy_keeps)
    | split
    | dsimp only

theorem execWake_keeps {w : List Part} {s₀ : State} {v} {s} (m_boot : Part.boot ∈ w) (m_clk : Part.clk ∈ w) (m_regs : Part.regs ∈ w) (h : Keeps w s₀ s) :
    ∃ t, execWake v s = .next t ∧ Keeps w s₀ t := by
  refine ⟨_, rfl, ?_⟩
  repeat' first
    | intro _
    | with_reducible assumption
    | with_reducible (first | apply Keeps.ite | apply pwrCtlWrite_keeps)
    | split
    | dsimp only

theorem hbmAbort_keeps {w : List Part} {s₀ : State} {m} {s} {p} (m_dyn : Part.dyn ∈ w) (m_free : Part.free ∈ w) (m_lane : Part.lane ∈ w) (m_mem : Part.mem ∈ w) (m_memPoison : Part.memPoison ∈ w) (m_obs : Part.obs ∈ w) (m_regs : Part.regs ∈ w) (m_rel : Part.rel ∈ w) (h : Keeps w s₀ s) :
    Keeps w s₀ (hbmAbort m s p) := by
  unfold hbmAbort
  repeat' first
    | intro _
    | with_reducible assumption
    | with_reducible (first | apply Keeps.ite | apply drawBytes_keeps | apply storeSeen_keeps | apply takeNet_keeps | apply errTo_keeps)
    | refine Keeps.of_snd (by with_reducible assumption) ?_
    | split
    | dsimp only

theorem execHbmControllerReset_keeps {w : List Part} {s₀ : State} {m} {taken} {s} (m_boot : Part.boot ∈ w) (m_dyn : Part.dyn ∈ w) (m_free : Part.free ∈ w) (m_lane : Part.lane ∈ w) (m_mem : Part.mem ∈ w) (m_memPoison : Part.memPoison ∈ w) (m_obs : Part.obs ∈ w) (m_regs : Part.regs ∈ w) (m_rel : Part.rel ∈ w) (m_sch : Part.sch ∈ w) (h : Keeps w s₀ s) :
    ∃ t, execHbmControllerReset m taken s = .next t ∧ Keeps w s₀ t := by
  refine ⟨_, rfl, ?_⟩
  repeat' first
    | intro _
    | with_reducible assumption
    | with_reducible (first | apply Keeps.ite | apply Keeps.foldl | apply Keeps.foldl_fst | apply Keeps.foldl_snd | apply hbmAbort_keeps)
    | with_reducible (first | fail_if_no_progress apply Keeps.boot m_boot | fail_if_no_progress apply Keeps.sch m_sch)
    | split
    | dsimp only

theorem execHbmControllerResetEnd_keeps {w : List Part} {s₀ : State} {m} {s} (m_boot : Part.boot ∈ w) (m_dyn : Part.dyn ∈ w) (m_free : Part.free ∈ w) (m_host : Part.host ∈ w) (m_lane : Part.lane ∈ w) (m_log : Part.log ∈ w) (m_mem : Part.mem ∈ w) (m_memPoison : Part.memPoison ∈ w) (m_obs : Part.obs ∈ w) (m_regs : Part.regs ∈ w) (m_rel : Part.rel ∈ w) (m_rpt : Part.rpt ∈ w) (h : Keeps w s₀ s) :
    ∃ t, execHbmControllerResetEnd m s = .next t ∧ Keeps w s₀ t := by
  refine ⟨_, rfl, ?_⟩
  repeat' first
    | intro _
    | with_reducible assumption
    | with_reducible (first | apply Keeps.ite | apply Keeps.foldl | apply Keeps.foldl_fst | apply Keeps.foldl_snd | apply memRequest_keeps)
    | with_reducible (first | fail_if_no_progress apply Keeps.boot m_boot)
    | split
    | dsimp only

/-! ### Machine/Control.lean -/

theorem injNow_keeps {w : List Part} {s₀ : State} {s} {b} (m_arb : Part.arb ∈ w) (m_boot : Part.boot ∈ w) (m_clk : Part.clk ∈ w) (m_log : Part.log ∈ w) (m_regs : Part.regs ∈ w) (m_rel : Part.rel ∈ w) (h : Keeps w s₀ s) :
    Keeps w s₀ (injNow s b) := by
  unfold injNow
  repeat' first
    | intro _
    | with_reducible assumption
    | with_reducible (first | apply Keeps.ite | apply injFire_keeps | apply starve_keeps | apply clockLoss_keeps)
    | with_reducible (first | fail_if_no_progress apply Keeps.rel m_rel)
    | split
    | dsimp only

theorem injWrite_keeps {w : List Part} {s₀ : State} {s} {b} {v} (m_arb : Part.arb ∈ w) (m_boot : Part.boot ∈ w) (m_clk : Part.clk ∈ w) (m_log : Part.log ∈ w) (m_regs : Part.regs ∈ w) (m_rel : Part.rel ∈ w) (h : Keeps w s₀ s) :
    Keeps w s₀ (injWrite s b v) := by
  unfold injWrite
  repeat' first
    | intro _
    | with_reducible assumption
    | with_reducible (first | apply Keeps.ite | apply setAgain_keeps | apply softWrite_keeps | apply injNow_keeps)
    | split
    | dsimp only

theorem execInjectionArm_keeps {w : List Part} {s₀ : State} {off} {v} {s} (m_arb : Part.arb ∈ w) (m_boot : Part.boot ∈ w) (m_clk : Part.clk ∈ w) (m_log : Part.log ∈ w) (m_regs : Part.regs ∈ w) (m_rel : Part.rel ∈ w) (h : Keeps w s₀ s) :
    ∃ t, execInjectionArm off v s = .next t ∧ Keeps w s₀ t := by
  refine ⟨_, rfl, ?_⟩
  repeat' first
    | intro _
    | with_reducible assumption
    | with_reducible (first | apply Keeps.ite | apply injWrite_keeps)
    | split
    | dsimp only

theorem slotWrite_keeps {w : List Part} {s₀ : State} {s} {a} {bank} {off} {v} (m_regs : Part.regs ∈ w) (h : Keeps w s₀ s) :
    Keeps w s₀ (slotWrite s a bank off v) := by
  unfold slotWrite
  repeat' first
    | intro _
    | with_reducible assumption
    | with_reducible (first | apply Keeps.ite | apply softWrite_keeps)
    | split
    | dsimp only

theorem gateWrite_keeps {w : List Part} {s₀ : State} {s} {b} {bank} {off} {v} (m_regs : Part.regs ∈ w) (h : Keeps w s₀ s) :
    Keeps w s₀ (gateWrite s b bank off v) := by
  unfold gateWrite
  repeat' first
    | intro _
    | with_reducible assumption
    | with_reducible (first | apply Keeps.ite | apply softWrite_keeps)
    | split
    | dsimp only

theorem xbarWrite_keeps {w : List Part} {s₀ : State} {s} {tile} {bank} {i} {off} {v} (m_regs : Part.regs ∈ w) (h : Keeps w s₀ s) :
    Keeps w s₀ (xbarWrite s tile bank i off v) := by
  unfold xbarWrite
  repeat' first
    | intro _
    | with_reducible assumption
    | with_reducible (first | apply Keeps.ite | apply softWrite_keeps)
    | split
    | dsimp only

theorem trigbWrite_keeps {w : List Part} {s₀ : State} {s} {b} {e} {v} (m_log : Part.log ∈ w) (m_regs : Part.regs ∈ w) (m_rel : Part.rel ∈ w) (m_trig : Part.trig ∈ w) (h : Keeps w s₀ s) :
    Keeps w s₀ (trigbWrite s b e v) := by
  unfold trigbWrite
  repeat' first
    | intro _
    | with_reducible assumption
    | with_reducible (first | apply Keeps.ite | apply after_keeps | apply softWrite_keeps | apply execTriggerArm_keeps | apply execTriggerDisarm_keeps)
    | split
    | dsimp only

theorem ctxaWrite_keeps {w : List Part} {s₀ : State} {s} {tile} {c} {v} {grp} (m_dyn : Part.dyn ∈ w) (m_free : Part.free ∈ w) (m_lane : Part.lane ∈ w) (m_obs : Part.obs ∈ w) (m_red : Part.red ∈ w) (m_regs : Part.regs ∈ w) (m_rel : Part.rel ∈ w) (h : Keeps w s₀ s) :
    Keeps w s₀ (ctxaWrite s tile c v grp) := by
  unfold ctxaWrite
  repeat' first
    | intro _
    | with_reducible assumption
    | with_reducible (first | apply Keeps.ite | apply softWrite_keeps | apply ctxEnable_keeps | apply ctxDisable_keeps)
    | split
    | dsimp only

theorem ctxbWrite_keeps {w : List Part} {s₀ : State} {s} {tile} {c} {v} (m_regs : Part.regs ∈ w) (h : Keeps w s₀ s) :
    Keeps w s₀ (ctxbWrite s tile c v) := by
  unfold ctxbWrite
  repeat' first
    | intro _
    | with_reducible assumption
    | with_reducible (first | apply Keeps.ite | apply softWrite_keeps)
    | split
    | dsimp only

theorem inbaWrite_keeps {w : List Part} {s₀ : State} {s} {x2} {k} {v} (m_dyn : Part.dyn ∈ w) (m_host : Part.host ∈ w) (m_regs : Part.regs ∈ w) (m_slu : Part.slu ∈ w) (h : Keeps w s₀ s) :
    Keeps w s₀ (inbaWrite s x2 k v) := by
  unfold inbaWrite
  repeat' first
    | intro _
    | with_reducible assumption
    | with_reducible (first | apply Keeps.ite | apply after_keeps | apply softWrite_keeps | apply execInboxEnable_keeps | apply execInboxDisable_keeps)
    | split
    | dsimp only

theorem testCtlWrite_keeps {w : List Part} {s₀ : State} {s} {n} {v} (m_arb : Part.arb ∈ w) (m_lane : Part.lane ∈ w) (m_regs : Part.regs ∈ w) (h : Keeps w s₀ s) :
    Keeps w s₀ (testCtlWrite s n v) := by
  unfold testCtlWrite
  repeat' first
    | intro _
    | with_reducible assumption
    | with_reducible (first | apply Keeps.ite | apply after_keeps | apply testWrite_keeps | apply testMode_keeps | apply execFelb_keeps | apply execTestModeOff_keeps | apply execInj_keeps)
    | refine Keeps.of_fst (by with_reducible assumption) ?_
    | split
    | dsimp only

theorem watchWrite_keeps {w : List Part} {s₀ : State} {s} {x2} {k} {v} (m_obs : Part.obs ∈ w) (m_regs : Part.regs ∈ w) (h : Keeps w s₀ s) :
    Keeps w s₀ (watchWrite s x2 k v) := by
  unfold watchWrite
  repeat' first
    | intro _
    | with_reducible assumption
    | with_reducible (first | apply Keeps.ite | apply softWrite_keeps | apply watchAnew_keeps)
    | split
    | dsimp only

theorem wellWrite_keeps {w : List Part} {s₀ : State} {s} {x2} {v} (m_obs : Part.obs ∈ w) (m_regs : Part.regs ∈ w) (h : Keeps w s₀ s) :
    Keeps w s₀ (wellWrite s x2 v) := by
  unfold wellWrite
  repeat' first
    | intro _
    | with_reducible assumption
    | with_reducible (first | apply Keeps.ite | apply softWrite_keeps | apply putRec_keeps | apply dropWell_keeps)
    | split
    | dsimp only

theorem blkWrite_keeps {w : List Part} {s₀ : State} {s} {b} {n} {i} {off} {v} {grp} (m_arb : Part.arb ∈ w) (m_boot : Part.boot ∈ w) (m_bus : Part.bus ∈ w) (m_clk : Part.clk ∈ w) (m_dyn : Part.dyn ∈ w) (m_free : Part.free ∈ w) (m_host : Part.host ∈ w) (m_lane : Part.lane ∈ w) (m_log : Part.log ∈ w) (m_obs : Part.obs ∈ w) (m_red : Part.red ∈ w) (m_regs : Part.regs ∈ w) (m_rel : Part.rel ∈ w) (m_sch : Part.sch ∈ w) (m_slu : Part.slu ∈ w) (m_trig : Part.trig ∈ w) (h : Keeps w s₀ s) :
    Keeps w s₀ (blkWrite s b n i off v grp) := by
  unfold blkWrite
  repeat' first
    | intro _
    | with_reducible assumption
    | with_reducible (first | apply Keeps.ite | apply after_keeps | apply softWrite_keeps | apply ctrWrite_keeps | apply execSchArm_keeps | apply execSchDisarm_keeps | apply execFabPkgInfoWrite_keeps | apply execTwinMapWrite_keeps | apply execPhaseOwnerWrite_keeps | apply execMepDescOwnerWrite_keeps | apply execStreamDescWrite_keeps | apply execGateArm_keeps | apply gateDrop_keeps | apply lpCfgWrite_keeps | apply pmWrite_keeps | apply laneEqWrite_keeps | apply shadowSeed_keeps | apply pwrCtlWrite_keeps | apply injWrite_keeps | apply gateWrite_keeps | apply xbarWrite_keeps | apply trigbWrite_keeps | apply ctxaWrite_keeps | apply ctxbWrite_keeps | apply inbaWrite_keeps | apply testCtlWrite_keeps | apply watchWrite_keeps | apply wellWrite_keeps)
    | split
    | dsimp only

theorem arbWrite_keeps {w : List Part} {s₀ : State} {s} {a} {n} {i} {off} {v} (m_arb : Part.arb ∈ w) (m_regs : Part.regs ∈ w) (h : Keeps w s₀ s) :
    Keeps w s₀ (arbWrite s a n i off v) := by
  unfold arbWrite
  repeat' first
    | intro _
    | with_reducible assumption
    | with_reducible (first | apply Keeps.ite | apply after_keeps | apply softWrite_keeps | apply execArbArm_keeps | apply arbDrop_keeps | apply execShaperEnable_keeps | apply slotWrite_keeps)
    | split
    | dsimp only

theorem noRestore_keeps {w : List Part} {s₀ : State} {s} {off} (m_rel : Part.rel ∈ w) (h : Keeps w s₀ s) :
    Keeps w s₀ (noRestore s off) := by
  unfold noRestore
  repeat' first
    | intro _
    | with_reducible assumption
    | with_reducible (first | apply Keeps.ite)
    | with_reducible (first | fail_if_no_progress apply Keeps.rel m_rel)
    | split
    | dsimp only

theorem applyWrite_keeps {w : List Part} {s₀ : State} {s} {off} {v} {grp} (m_arb : Part.arb ∈ w) (m_boot : Part.boot ∈ w) (m_bus : Part.bus ∈ w) (m_clk : Part.clk ∈ w) (m_dyn : Part.dyn ∈ w) (m_free : Part.free ∈ w) (m_host : Part.host ∈ w) (m_lane : Part.lane ∈ w) (m_log : Part.log ∈ w) (m_obs : Part.obs ∈ w) (m_red : Part.red ∈ w) (m_regs : Part.regs ∈ w) (m_rel : Part.rel ∈ w) (m_sch : Part.sch ∈ w) (m_slu : Part.slu ∈ w) (m_trig : Part.trig ∈ w) (h : Keeps w s₀ s) :
    Keeps w s₀ (applyWrite s off v grp) := by
  unfold applyWrite
  repeat' first
    | intro _
    | with_reducible assumption
    | with_reducible (first | apply Keeps.ite | apply softWrite_keeps | apply blkWrite_keeps | apply arbWrite_keeps | apply noRestore_keeps)
    | split
    | dsimp only

theorem csrMiss_keeps {w : List Part} {s₀ : State} {s} {p} (m_dyn : Part.dyn ∈ w) (m_free : Part.free ∈ w) (m_lane : Part.lane ∈ w) (m_log : Part.log ∈ w) (m_obs : Part.obs ∈ w) (m_regs : Part.regs ∈ w) (m_rel : Part.rel ∈ w) (h : Keeps w s₀ s) :
    Keeps w s₀ (csrMiss s p) := by
  unfold csrMiss
  repeat' first
    | intro _
    | with_reducible assumption
    | with_reducible (first | apply Keeps.ite | apply log_keeps | apply errTo_keeps)
    | split
    | dsimp only

theorem csrAt_keeps {w : List Part} {s₀ : State} {s} {p} {k} (m_dyn : Part.dyn ∈ w) (m_free : Part.free ∈ w) (m_host : Part.host ∈ w) (m_lane : Part.lane ∈ w) (m_log : Part.log ∈ w) (m_obs : Part.obs ∈ w) (m_regs : Part.regs ∈ w) (m_rel : Part.rel ∈ w) (m_rpt : Part.rpt ∈ w) (k3 : ∀ u y1, Keeps w s₀ u → Keeps w s₀ (k u y1)) (h : Keeps w s₀ s) :
    Keeps w s₀ (csrAt s p k) := by
  unfold csrAt
  repeat' first
    | intro _
    | with_reducible assumption
    | with_reducible (first | apply Keeps.ite | apply k3 | apply log_keeps | apply violation_keeps | apply takeNet_keeps | apply badHcrc_keeps | apply errTo_keeps | apply csrMiss_keeps)
    | split
    | dsimp only

theorem execCsrWr_keeps {w : List Part} {s₀ : State} {p} {s} (m_arb : Part.arb ∈ w) (m_boot : Part.boot ∈ w) (m_bus : Part.bus ∈ w) (m_clk : Part.clk ∈ w) (m_dyn : Part.dyn ∈ w) (m_free : Part.free ∈ w) (m_host : Part.host ∈ w) (m_lane : Part.lane ∈ w) (m_log : Part.log ∈ w) (m_obs : Part.obs ∈ w) (m_red : Part.red ∈ w) (m_regs : Part.regs ∈ w) (m_rel : Part.rel ∈ w) (m_rpt : Part.rpt ∈ w) (m_sch : Part.sch ∈ w) (m_slu : Part.slu ∈ w) (m_trig : Part.trig ∈ w) (h : Keeps w s₀ s) :
    ∃ t, execCsrWr p s = .next t ∧ Keeps w s₀ t := by
  refine ⟨_, rfl, ?_⟩
  repeat' first
    | intro _
    | with_reducible assumption
    | with_reducible (first | apply Keeps.ite | apply ackTo_keeps | apply denied_keeps | apply applyWrite_keeps | apply csrAt_keeps)
    | split
    | dsimp only

theorem execCsrRd_keeps {w : List Part} {s₀ : State} {p} {s} (m_dyn : Part.dyn ∈ w) (m_free : Part.free ∈ w) (m_host : Part.host ∈ w) (m_lane : Part.lane ∈ w) (m_log : Part.log ∈ w) (m_obs : Part.obs ∈ w) (m_regs : Part.regs ∈ w) (m_rel : Part.rel ∈ w) (m_rpt : Part.rpt ∈ w) (h : Keeps w s₀ s) :
    ∃ t, execCsrRd p s = .next t ∧ Keeps w s₀ t := by
  refine ⟨_, rfl, ?_⟩
  repeat' first
    | intro _
    | with_reducible assumption
    | with_reducible (first | apply Keeps.ite | apply rspTo_keeps | apply denied_keeps | apply csrAt_keeps)
    | split
    | dsimp only

theorem execCsrRsp_keeps {w : List Part} {s₀ : State} {p} {s} (m_bus : Part.bus ∈ w) (m_dyn : Part.dyn ∈ w) (m_free : Part.free ∈ w) (m_host : Part.host ∈ w) (m_lane : Part.lane ∈ w) (m_log : Part.log ∈ w) (m_obs : Part.obs ∈ w) (m_regs : Part.regs ∈ w) (m_rel : Part.rel ∈ w) (m_rpt : Part.rpt ∈ w) (h : Keeps w s₀ s) :
    ∃ t, execCsrRsp p s = .next t ∧ Keeps w s₀ t := by
  refine ⟨_, rfl, ?_⟩
  repeat' first
    | intro _
    | with_reducible assumption
    | with_reducible (first | apply Keeps.ite | apply arrive_keeps | apply onRsp_keeps)
    | with_reducible (first | fail_if_no_progress apply Keeps.bus m_bus)
    | split
    | dsimp only

end Sys2Proof.Machine
end

