-- ==== Sys2Proof/Laws/FrameBar.lean ====
section
/-!
SUPPORT. What each operation of Machine/Bar.lean, Machine/HostLink.lean, Machine/MailboxG.lean, Machine/Firmware.lean, Machine/Lists.lean, Machine/Partition.lean can touch: one lemma an operation,
that composes with the lemmas of its callers.
-/
namespace Sys2Proof.Machine

set_option linter.unusedTactic false
set_option linter.unreachableTactic false

/-! ### Machine/Bar.lean -/

theorem strayCount_keeps {w : List Part} {s₀ : State} {s} {fn} (m_log : Part.log ∈ w) (m_regs : Part.regs ∈ w) (m_rel : Part.rel ∈ w) (h : Keeps w s₀ s) :
    Keeps w s₀ (strayCount s fn) := by
  unfold strayCount
  repeat' first
    | intro _
    | with_reducible assumption
    | with_reducible (first | apply Keeps.ite | apply bump_keeps | apply log_keeps)
    | split
    | dsimp only

theorem execStrayAccess_keeps {w : List Part} {s₀ : State} {fn} {off} {_isWrite} {s} (m_log : Part.log ∈ w) (m_regs : Part.regs ∈ w) (m_rel : Part.rel ∈ w) (h : Keeps w s₀ s) :
    ∃ t, execStrayAccess fn off _isWrite s = .next t ∧ Keeps w s₀ t := by
  refine ⟨_, rfl, ?_⟩
  repeat' first
    | intro _
    | with_reducible assumption
    | with_reducible (first | apply Keeps.ite | apply strayCount_keeps)
    | split
    | dsimp only

theorem maskVec_keeps {w : List Part} {s₀ : State} {s} {fn} {vec} {on} (m_host : Part.host ∈ w) (h : Keeps w s₀ s) :
    Keeps w s₀ (maskVec s fn vec on) := by
  unfold maskVec
  repeat' first
    | intro _
    | with_reducible assumption
    | with_reducible (first | apply Keeps.ite | apply signal_keeps)
    | with_reducible (first | fail_if_no_progress apply Keeps.host m_host)
    | split
    | dsimp only

theorem execMsiXVectorUnmask_keeps {w : List Part} {s₀ : State} {fn} {vec} {s} (m_host : Part.host ∈ w) (h : Keeps w s₀ s) :
    ∃ t, execMsiXVectorUnmask fn vec s = .next t ∧ Keeps w s₀ t := by
  refine ⟨_, rfl, ?_⟩
  repeat' first
    | intro _
    | with_reducible assumption
    | with_reducible (first | apply Keeps.ite | apply maskVec_keeps)
    | with_reducible (first | fail_if_no_progress refine Keeps.record ?_)
    | split
    | dsimp only

theorem msixWrite_keeps {w : List Part} {s₀ : State} {s} {fn} {i} {v} (m_host : Part.host ∈ w) (h : Keeps w s₀ s) :
    Keeps w s₀ (msixWrite s fn i v) := by
  unfold msixWrite
  repeat' first
    | intro _
    | with_reducible assumption
    | with_reducible (first | apply Keeps.ite | apply maskVec_keeps)
    | with_reducible (first | fail_if_no_progress apply Keeps.host m_host)
    | split
    | dsimp only

theorem barWrite_keeps {w : List Part} {s₀ : State} {s} {fn} {r} {v} (m_dyn : Part.dyn ∈ w) (m_host : Part.host ∈ w) (m_log : Part.log ∈ w) (m_mbx : Part.mbx ∈ w) (m_regs : Part.regs ∈ w) (m_rel : Part.rel ∈ w) (m_rpt : Part.rpt ∈ w) (h : Keeps w s₀ s) :
    Keeps w s₀ (barWrite s fn r v) := by
  unfold barWrite
  repeat' first
    | intro _
    | with_reducible assumption
    | with_reducible (first | apply Keeps.ite | apply after_keeps | apply execCrDoorbell_keeps | apply execCqDoorbell_keeps | apply setSlot_keeps | apply mbxGo_keeps | apply execReportQueueRelease_keeps | apply strayCount_keeps | apply msixWrite_keeps)
    | split
    | dsimp only

theorem halfWrite_keeps {w : List Part} {s₀ : State} {s} {x2} {x3} {v} {low} {k} (m_bus : Part.bus ∈ w) (k6 : ∀ u y1, Keeps w s₀ u → Keeps w s₀ (k u y1)) (h : Keeps w s₀ s) :
    Keeps w s₀ (halfWrite s x2 x3 v low k) := by
  unfold halfWrite
  repeat' first
    | intro _
    | with_reducible assumption
    | with_reducible (first | apply Keeps.ite | apply k6)
    | with_reducible (first | fail_if_no_progress apply Keeps.bus m_bus)
    | split
    | dsimp only

theorem barAccess_keeps {w : List Part} {s₀ : State} {s} {fn} {off} {x4} {v} (m_bus : Part.bus ∈ w) (m_dyn : Part.dyn ∈ w) (m_host : Part.host ∈ w) (m_log : Part.log ∈ w) (m_mbx : Part.mbx ∈ w) (m_regs : Part.regs ∈ w) (m_rel : Part.rel ∈ w) (m_rpt : Part.rpt ∈ w) (h : Keeps w s₀ s) :
    Keeps w s₀ (barAccess s fn off x4 v) := by
  unfold barAccess
  repeat' first
    | intro _
    | with_reducible assumption
    | with_reducible (first | apply Keeps.ite | apply strayCount_keeps | apply barWrite_keeps | apply halfWrite_keeps)
    | split
    | dsimp only

theorem csrStray_keeps {w : List Part} {s₀ : State} {s} {off} (m_log : Part.log ∈ w) (m_rel : Part.rel ∈ w) (h : Keeps w s₀ s) :
    Keeps w s₀ (csrStray s off) := by
  unfold csrStray
  repeat' first
    | intro _
    | with_reducible assumption
    | with_reducible (first | apply Keeps.ite | apply log_keeps)
    | split
    | dsimp only

theorem csrTarget_keeps {w : List Part} {s₀ : State} {s} {off} {k} (m_log : Part.log ∈ w) (m_rel : Part.rel ∈ w) (k3 : Keeps w s₀ k) (h : Keeps w s₀ s) :
    Keeps w s₀ (csrTarget s off k) := by
  unfold csrTarget
  repeat' first
    | intro _
    | with_reducible assumption
    | with_reducible (first | apply Keeps.ite | apply k3 | apply csrStray_keeps)
    | split
    | dsimp only

theorem csrAccess_keeps {w : List Part} {s₀ : State} {s} {off} {x3} {v} (m_arb : Part.arb ∈ w) (m_boot : Part.boot ∈ w) (m_bus : Part.bus ∈ w) (m_clk : Part.clk ∈ w) (m_dyn : Part.dyn ∈ w) (m_free : Part.free ∈ w) (m_host : Part.host ∈ w) (m_lane : Part.lane ∈ w) (m_log : Part.log ∈ w) (m_obs : Part.obs ∈ w) (m_red : Part.red ∈ w) (m_regs : Part.regs ∈ w) (m_rel : Part.rel ∈ w) (m_sch : Part.sch ∈ w) (m_slu : Part.slu ∈ w) (m_trig : Part.trig ∈ w) (h : Keeps w s₀ s) :
    Keeps w s₀ (csrAccess s off x3 v) := by
  unfold csrAccess
  repeat' first
    | intro _
    | with_reducible assumption
    | with_reducible (first | apply Keeps.ite | apply denied_keeps | apply applyWrite_keeps | apply halfWrite_keeps | apply csrTarget_keeps)
    | split
    | dsimp only

theorem execRegisterWrite_keeps {w : List Part} {s₀ : State} {x1} {x2} {v} {s} (m_arb : Part.arb ∈ w) (m_boot : Part.boot ∈ w) (m_bus : Part.bus ∈ w) (m_clk : Part.clk ∈ w) (m_dyn : Part.dyn ∈ w) (m_free : Part.free ∈ w) (m_host : Part.host ∈ w) (m_lane : Part.lane ∈ w) (m_log : Part.log ∈ w) (m_mbx : Part.mbx ∈ w) (m_obs : Part.obs ∈ w) (m_red : Part.red ∈ w) (m_regs : Part.regs ∈ w) (m_rel : Part.rel ∈ w) (m_rpt : Part.rpt ∈ w) (m_sch : Part.sch ∈ w) (m_slu : Part.slu ∈ w) (m_trig : Part.trig ∈ w) (h : Keeps w s₀ s) :
    ∃ t, execRegisterWrite x1 x2 v s = .next t ∧ Keeps w s₀ t := by
  refine ⟨_, rfl, ?_⟩
  repeat' first
    | intro _
    | with_reducible assumption
    | with_reducible (first | apply Keeps.ite | apply barAccess_keeps | apply csrAccess_keeps)
    | split
    | dsimp only

theorem lowRead_keeps {w : List Part} {s₀ : State} {s} {x2} {x3} (m_bus : Part.bus ∈ w) (h : Keeps w s₀ s) :
    Keeps w s₀ (lowRead s x2 x3) := by
  unfold lowRead
  repeat' first
    | intro _
    | with_reducible assumption
    | with_reducible (first | apply Keeps.ite)
    | with_reducible (first | fail_if_no_progress apply Keeps.bus m_bus)
    | split
    | dsimp only

theorem highRead_keeps {w : List Part} {s₀ : State} {s} {x2} {x3} (m_bus : Part.bus ∈ w) (h : Keeps w s₀ s) :
    Keeps w s₀ (highRead s x2 x3) := by
  unfold highRead
  repeat' first
    | intro _
    | with_reducible assumption
    | with_reducible (first | apply Keeps.ite)
    | with_reducible (first | fail_if_no_progress apply Keeps.bus m_bus)
    | split
    | dsimp only

theorem halfRead_keeps {w : List Part} {s₀ : State} {s} {x2} {high} {x4} (m_bus : Part.bus ∈ w) (h : Keeps w s₀ s) :
    Keeps w s₀ (halfRead s x2 high x4) := by
  unfold halfRead
  repeat' first
    | intro _
    | with_reducible assumption
    | with_reducible (first | apply Keeps.ite | apply lowRead_keeps | apply highRead_keeps)
    | split
    | dsimp only

theorem execLowHalfRead_keeps {w : List Part} {s₀ : State} {r} {s} (m_bus : Part.bus ∈ w) (m_log : Part.log ∈ w) (m_regs : Part.regs ∈ w) (m_rel : Part.rel ∈ w) (h : Keeps w s₀ s) :
    ∃ t, execLowHalfRead r s = .next t ∧ Keeps w s₀ t := by
  refine ⟨_, rfl, ?_⟩
  repeat' first
    | intro _
    | with_reducible assumption
    | with_reducible (first | apply Keeps.ite | apply denied_keeps | apply strayCount_keeps | apply csrTarget_keeps | apply halfRead_keeps)
    | split
    | dsimp only

/-! ### Machine/HostLink.lean -/

theorem linkLost_keeps {w : List Part} {s₀ : State} {s} (m_coll : Part.coll ∈ w) (m_dyn : Part.dyn ∈ w) (m_free : Part.free ∈ w) (m_host : Part.host ∈ w) (m_lane : Part.lane ∈ w) (m_mbx : Part.mbx ∈ w) (m_obs : Part.obs ∈ w) (m_regs : Part.regs ∈ w) (m_rel : Part.rel ∈ w) (m_rte : Part.rte ∈ w) (m_trig : Part.trig ∈ w) (h : Keeps w s₀ s) :
    Keeps w s₀ (linkLost s) := by
  unfold linkLost
  repeat' first
    | intro _
    | with_reducible assumption
    | with_reducible (first | apply Keeps.ite | apply Keeps.foldl | apply Keeps.foldl_fst | apply Keeps.foldl_snd | apply setFnState_keeps | apply closePairs_keeps | apply dropSlots_keeps | apply abortOps_keeps)
    | with_reducible (first | fail_if_no_progress apply Keeps.host m_host)
    | split
    | dsimp only

theorem execHostLinkDown_keeps {w : List Part} {s₀ : State} {s} (m_coll : Part.coll ∈ w) (m_dyn : Part.dyn ∈ w) (m_free : Part.free ∈ w) (m_host : Part.host ∈ w) (m_lane : Part.lane ∈ w) (m_mbx : Part.mbx ∈ w) (m_obs : Part.obs ∈ w) (m_regs : Part.regs ∈ w) (m_rel : Part.rel ∈ w) (m_rte : Part.rte ∈ w) (m_trig : Part.trig ∈ w) (h : Keeps w s₀ s) :
    ∃ t, execHostLinkDown s = .next t ∧ Keeps w s₀ t := by
  refine ⟨_, rfl, ?_⟩
  repeat' first
    | intro _
    | with_reducible assumption
    | with_reducible (first | apply Keeps.ite | apply linkLost_keeps)
    | split
    | dsimp only

theorem functionReset_keeps {w : List Part} {s₀ : State} {s} {fn} (m_coll : Part.coll ∈ w) (m_dyn : Part.dyn ∈ w) (m_host : Part.host ∈ w) (m_log : Part.log ∈ w) (m_mbx : Part.mbx ∈ w) (m_regs : Part.regs ∈ w) (m_rel : Part.rel ∈ w) (m_rte : Part.rte ∈ w) (m_slu : Part.slu ∈ w) (h : Keeps w s₀ s) :
    Keeps w s₀ (functionReset s fn) := by
  unfold functionReset
  repeat' first
    | intro _
    | with_reducible assumption
    | with_reducible (first | apply Keeps.ite | apply Keeps.foldl | apply Keeps.foldl_fst | apply Keeps.foldl_snd | apply setFnState_keeps | apply refuseFirst_keeps | apply dropSlots_keeps | apply ringsOff_keeps)
    | split
    | dsimp only

theorem execFunctionLevelReset_keeps {w : List Part} {s₀ : State} {fn} {s} (m_coll : Part.coll ∈ w) (m_dyn : Part.dyn ∈ w) (m_free : Part.free ∈ w) (m_host : Part.host ∈ w) (m_lane : Part.lane ∈ w) (m_log : Part.log ∈ w) (m_mbx : Part.mbx ∈ w) (m_obs : Part.obs ∈ w) (m_regs : Part.regs ∈ w) (m_rel : Part.rel ∈ w) (m_rte : Part.rte ∈ w) (m_slu : Part.slu ∈ w) (m_trig : Part.trig ∈ w) (h : Keeps w s₀ s) :
    ∃ t, execFunctionLevelReset fn s = .next t ∧ Keeps w s₀ t := by
  refine ⟨_, rfl, ?_⟩
  repeat' first
    | intro _
    | with_reducible assumption
    | with_reducible (first | apply Keeps.ite | apply linkLost_keeps | apply functionReset_keeps)
    | split
    | dsimp only

theorem execHostLinkDrainDone_keeps {w : List Part} {s₀ : State} {s} (m_clk : Part.clk ∈ w) (m_coll : Part.coll ∈ w) (m_host : Part.host ∈ w) (m_parts : Part.parts ∈ w) (m_regs : Part.regs ∈ w) (m_rel : Part.rel ∈ w) (m_trig : Part.trig ∈ w) (h : Keeps w s₀ s) :
    ∃ t, execHostLinkDrainDone s = .next t ∧ Keeps w s₀ t := by
  refine ⟨_, rfl, ?_⟩
  repeat' first
    | intro _
    | with_reducible assumption
    | with_reducible (first | apply Keeps.ite | apply advanceTo_keeps | apply fabHold_keeps)
    | with_reducible (first | fail_if_no_progress apply Keeps.host m_host)
    | split
    | dsimp only

theorem countLoss_keeps {w : List Part} {s₀ : State} {s} {f} (m_regs : Part.regs ∈ w) (h : Keeps w s₀ s) :
    Keeps w s₀ (countLoss s f) := by
  unfold countLoss
  repeat' first
    | intro _
    | with_reducible assumption
    | with_reducible (first | apply Keeps.ite | apply bumpSat_keeps)
    | split
    | dsimp only

theorem execHostLinkUp_keeps {w : List Part} {s₀ : State} {s} (m_host : Part.host ∈ w) (m_regs : Part.regs ∈ w) (h : Keeps w s₀ s) :
    ∃ t, execHostLinkUp s = .next t ∧ Keeps w s₀ t := by
  refine ⟨_, rfl, ?_⟩
  repeat' first
    | intro _
    | with_reducible assumption
    | with_reducible (first | apply Keeps.ite | apply Keeps.foldl | apply Keeps.foldl_fst | apply Keeps.foldl_snd | apply countLoss_keeps)
    | with_reducible (first | fail_if_no_progress apply Keeps.host m_host)
    | split
    | dsimp only

/-! ### Machine/MailboxG.lean -/

theorem errlogAnswer_keeps {w : List Part} {s₀ : State} {s} {fn} (m_host : Part.host ∈ w) (m_mbx : Part.mbx ∈ w) (h : Keeps w s₀ s) :
    Keeps w s₀ (errlogAnswer s fn) := by
  unfold errlogAnswer
  repeat' first
    | intro _
    | with_reducible assumption
    | with_reducible (first | apply Keeps.ite | apply answerOk_keeps)
    | split
    | dsimp only

theorem execErrlogRead_keeps {w : List Part} {s₀ : State} {fn} {s} (m_host : Part.host ∈ w) (m_mbx : Part.mbx ∈ w) (h : Keeps w s₀ s) :
    ∃ t, execErrlogRead fn s = .next t ∧ Keeps w s₀ t := by
  refine ⟨_, rfl, ?_⟩
  repeat' first
    | intro _
    | with_reducible assumption
    | with_reducible (first | apply Keeps.ite | apply mbxCommand_keeps | apply errlogAnswer_keeps)
    | split
    | dsimp only

theorem takeSounding_keeps {w : List Part} {s₀ : State} {x1} {x2} (m_free : Part.free ∈ w) (m_mbx : Part.mbx ∈ w) (m_obs : Part.obs ∈ w) (h : Keeps w s₀ x1) :
    Keeps w s₀ (takeSounding x1 x2) := by
  unfold takeSounding
  dsimp only
  refine Keeps.record ?_
  exact draw_keeps m_free h

theorem soundingAnswer_keeps {w : List Part} {s₀ : State} {s} {fn} {page} (m_host : Part.host ∈ w) (m_mbx : Part.mbx ∈ w) (h : Keeps w s₀ s) :
    Keeps w s₀ (soundingAnswer s fn page) := by
  unfold soundingAnswer
  repeat' first
    | intro _
    | with_reducible assumption
    | with_reducible (first | apply Keeps.ite | apply answerOk_keeps | apply refuse_keeps)
    | split
    | dsimp only

theorem execSoundingTake_keeps {w : List Part} {s₀ : State} {fn} {noresp} {s} (m_free : Part.free ∈ w) (m_host : Part.host ∈ w) (m_mbx : Part.mbx ∈ w) (m_obs : Part.obs ∈ w) (m_regs : Part.regs ∈ w) (h : Keeps w s₀ s) :
    ∃ t, execSoundingTake fn noresp s = .next t ∧ Keeps w s₀ t := by
  refine ⟨_, rfl, ?_⟩
  repeat' first
    | intro _
    | with_reducible assumption
    | with_reducible (first | apply Keeps.ite | apply freezeNow_keeps | apply mbxCommand_keeps | apply takeSounding_keeps | apply soundingAnswer_keeps)
    | split
    | dsimp only

theorem execSoundingPageRead_keeps {w : List Part} {s₀ : State} {fn} {s} (m_host : Part.host ∈ w) (m_mbx : Part.mbx ∈ w) (h : Keeps w s₀ s) :
    ∃ t, execSoundingPageRead fn s = .next t ∧ Keeps w s₀ t := by
  refine ⟨_, rfl, ?_⟩
  repeat' first
    | intro _
    | with_reducible assumption
    | with_reducible (first | apply Keeps.ite | apply mbxCommand_keeps | apply soundingAnswer_keeps)
    | split
    | dsimp only

theorem domainFreeze_keeps {w : List Part} {s₀ : State} {s} {thaw} {no} {at_} (m_coll : Part.coll ∈ w) (m_regs : Part.regs ∈ w) (m_rel : Part.rel ∈ w) (h : Keeps w s₀ s) :
    Keeps w s₀ (domainFreeze s thaw no at_) := by
  unfold domainFreeze
  repeat' first
    | intro _
    | with_reducible assumption
    | with_reducible (first | apply Keeps.ite | apply Keeps.foldl | apply Keeps.foldl_fst | apply Keeps.foldl_snd | apply spSend_keeps)
    | split
    | dsimp only

theorem counterFreezeRun_keeps {w : List Part} {s₀ : State} {s} {fn} {thaw} (m_coll : Part.coll ∈ w) (m_host : Part.host ∈ w) (m_mbx : Part.mbx ∈ w) (m_obs : Part.obs ∈ w) (m_regs : Part.regs ∈ w) (m_rel : Part.rel ∈ w) (h : Keeps w s₀ s) :
    Keeps w s₀ (counterFreezeRun s fn thaw) := by
  unfold counterFreezeRun
  repeat' first
    | intro _
    | with_reducible assumption
    | with_reducible (first | apply Keeps.ite | apply freezeNow_keeps | apply answerOk_keeps | apply domainFreeze_keeps)
    | with_reducible (first | fail_if_no_progress apply Keeps.mbx m_mbx)
    | split
    | dsimp only

theorem execCounterFreeze_keeps {w : List Part} {s₀ : State} {fn} {s} (m_coll : Part.coll ∈ w) (m_host : Part.host ∈ w) (m_mbx : Part.mbx ∈ w) (m_obs : Part.obs ∈ w) (m_regs : Part.regs ∈ w) (m_rel : Part.rel ∈ w) (h : Keeps w s₀ s) :
    ∃ t, execCounterFreeze fn s = .next t ∧ Keeps w s₀ t := by
  refine ⟨_, rfl, ?_⟩
  repeat' first
    | intro _
    | with_reducible assumption
    | with_reducible (first | apply Keeps.ite | apply mbxCommand_keeps | apply counterFreezeRun_keeps)
    | split
    | dsimp only

theorem execCounterThaw_keeps {w : List Part} {s₀ : State} {fn} {s} (m_coll : Part.coll ∈ w) (m_host : Part.host ∈ w) (m_mbx : Part.mbx ∈ w) (m_obs : Part.obs ∈ w) (m_regs : Part.regs ∈ w) (m_rel : Part.rel ∈ w) (h : Keeps w s₀ s) :
    ∃ t, execCounterThaw fn s = .next t ∧ Keeps w s₀ t := by
  refine ⟨_, rfl, ?_⟩
  repeat' first
    | intro _
    | with_reducible assumption
    | with_reducible (first | apply Keeps.ite | apply mbxCommand_keeps | apply counterFreezeRun_keeps)
    | split
    | dsimp only

theorem execFabricReset_keeps {w : List Part} {s₀ : State} {fn} {s} (m_boot : Part.boot ∈ w) (m_clk : Part.clk ∈ w) (m_coll : Part.coll ∈ w) (m_dyn : Part.dyn ∈ w) (m_free : Part.free ∈ w) (m_host : Part.host ∈ w) (m_lane : Part.lane ∈ w) (m_mbx : Part.mbx ∈ w) (m_obs : Part.obs ∈ w) (m_parts : Part.parts ∈ w) (m_regs : Part.regs ∈ w) (m_rel : Part.rel ∈ w) (m_rte : Part.rte ∈ w) (m_trig : Part.trig ∈ w) (h : Keeps w s₀ s) :
    ∃ t, execFabricReset fn s = .next t ∧ Keeps w s₀ t := by
  refine ⟨_, rfl, ?_⟩
  repeat' first
    | intro _
    | with_reducible assumption
    | with_reducible (first | apply Keeps.ite | apply closePairs_keeps | apply begin__keeps | apply mbxCommand_keeps | apply endAll_keeps | apply fabDown_keeps | apply wakeBy_keeps)
    | split
    | dsimp only

theorem recoverBoot_keeps {w : List Part} {s₀ : State} {s} {fn} (m_host : Part.host ∈ w) (m_mbx : Part.mbx ∈ w) (m_regs : Part.regs ∈ w) (m_rel : Part.rel ∈ w) (h : Keeps w s₀ s) :
    Keeps w s₀ (recoverBoot s fn) := by
  unfold recoverBoot
  repeat' first
    | intro _
    | with_reducible assumption
    | with_reducible (first | apply Keeps.ite | apply answerOk_keeps | apply refuse_keeps | apply fmpUp_keeps | apply verifyImage_keeps)
    | refine Keeps.of_fst (by with_reducible assumption) ?_
    | with_reducible (first | fail_if_no_progress apply Keeps.mbx m_mbx)
    | split
    | dsimp only

theorem recoverStage_keeps {w : List Part} {s₀ : State} {s} {fn} (m_boot : Part.boot ∈ w) (m_log : Part.log ∈ w) (m_mbx : Part.mbx ∈ w) (m_regs : Part.regs ∈ w) (m_rel : Part.rel ∈ w) (h : Keeps w s₀ s) :
    Keeps w s₀ (recoverStage s fn) := by
  unfold recoverStage
  repeat' first
    | intro _
    | with_reducible assumption
    | with_reducible (first | apply Keeps.ite | apply setFld_keeps | apply begin__keeps | apply setStage_keeps | apply stageFirmware_keeps)
    | split
    | dsimp only

theorem recoverRun_keeps {w : List Part} {s₀ : State} {s} {fn} (m_boot : Part.boot ∈ w) (m_host : Part.host ∈ w) (m_log : Part.log ∈ w) (m_mbx : Part.mbx ∈ w) (m_regs : Part.regs ∈ w) (m_rel : Part.rel ∈ w) (h : Keeps w s₀ s) :
    Keeps w s₀ (recoverRun s fn) := by
  unfold recoverRun
  repeat' first
    | intro _
    | with_reducible assumption
    | with_reducible (first | apply Keeps.ite | apply answerOk_keeps | apply refuse_keeps | apply begin__keeps | apply fmpStops_keeps | apply recoverBoot_keeps | apply recoverStage_keeps)
    | with_reducible (first | fail_if_no_progress apply Keeps.boot m_boot)
    | split
    | dsimp only

theorem execFmpRecover_keeps {w : List Part} {s₀ : State} {fn} {s} (m_boot : Part.boot ∈ w) (m_host : Part.host ∈ w) (m_log : Part.log ∈ w) (m_mbx : Part.mbx ∈ w) (m_regs : Part.regs ∈ w) (m_rel : Part.rel ∈ w) (h : Keeps w s₀ s) :
    ∃ t, execFmpRecover fn s = .next t ∧ Keeps w s₀ t := by
  refine ⟨_, rfl, ?_⟩
  repeat' first
    | intro _
    | with_reducible assumption
    | with_reducible (first | apply Keeps.ite | apply mbxCommand_keeps | apply recoverRun_keeps)
    | split
    | dsimp only

/-! ### Machine/Firmware.lean -/

theorem throughGate_keeps {w : List Part} {s₀ : State} {s} {fn} {n} {recs} {k} (m_host : Part.host ∈ w) (m_log : Part.log ∈ w) (m_mbx : Part.mbx ∈ w) (m_regs : Part.regs ∈ w) (m_rel : Part.rel ∈ w) (k5 : ∀ u, Keeps w s₀ u → Keeps w s₀ (k u)) (h : Keeps w s₀ s) :
    Keeps w s₀ (throughGate s fn n recs k) := by
  unfold throughGate
  repeat' first
    | intro _
    | with_reducible assumption
    | with_reducible (first | apply Keeps.ite | apply k5 | apply setFld_keeps | apply injFire_keeps | apply refuse_keeps | apply sigFail_keeps)
    | split
    | dsimp only

theorem fwRun_keeps {w : List Part} {s₀ : State} {s} {fn} {cmd} {fmt} {priv} {chk} {act} (m_host : Part.host ∈ w) (m_mbx : Part.mbx ∈ w) (k7 : ∀ u, Keeps w s₀ u → Keeps w s₀ (act u)) (h : Keeps w s₀ s) :
    Keeps w s₀ (fwRun s fn cmd fmt priv chk act) := by
  unfold fwRun
  repeat' first
    | intro _
    | with_reducible assumption
    | with_reducible (first | apply Keeps.ite | apply k7 | apply refuse_keeps | apply mbxCommand_keeps)
    | split
    | dsimp only

theorem fwGated_keeps {w : List Part} {s₀ : State} {s} {fn} {cmd} {n} {fmt} {priv} {chk} {recs} {act} (m_host : Part.host ∈ w) (m_log : Part.log ∈ w) (m_mbx : Part.mbx ∈ w) (m_regs : Part.regs ∈ w) (m_rel : Part.rel ∈ w) (k9 : ∀ u, Keeps w s₀ u → Keeps w s₀ (act u)) (h : Keeps w s₀ s) :
    Keeps w s₀ (fwGated s fn cmd n fmt priv chk recs act) := by
  unfold fwGated
  repeat' first
    | intro _
    | with_reducible assumption
    | with_reducible (first | apply Keeps.ite | apply k9 | apply throughGate_keeps | apply fwRun_keeps)
    | split
    | dsimp only

theorem fwLater_keeps {w : List Part} {s₀ : State} {s} {fn} {cmd} {k} (m_host : Part.host ∈ w) (m_mbx : Part.mbx ∈ w) (k4 : ∀ u, Keeps w s₀ u → Keeps w s₀ (k u)) (h : Keeps w s₀ s) :
    Keeps w s₀ (fwLater s fn cmd k) := by
  unfold fwLater
  repeat' first
    | intro _
    | with_reducible assumption
    | with_reducible (first | apply Keeps.ite | apply k4 | apply refuseFirst_keeps)
    | split
    | dsimp only

/-! ### Machine/Lists.lean -/

theorem tryList_keeps {w : List Part} {s₀ : State} {x1} {x2} {x3} {x4} {x5}  (k2 : ∀ u y1 y2, Keeps w s₀ u → Keeps w s₀ (x2 u y1 y2)) (h : Keeps w s₀ x3) :
    Keeps w s₀ (tryList x1 x2 x3 x4 x5).2 := by
  induction x5 generalizing x3 x4 with
  | nil => exact h
  | cons e r ih =>
    unfold tryList
    split
    · exact h
    · split
      · exact h
      · exact ih (k2 _ _ _ h)

theorem listApply_keeps {w : List Part} {s₀ : State} {d} {fn} {may} {app} {s}  (k4 : ∀ u y1 y2, Keeps w s₀ u → Keeps w s₀ (app u y1 y2)) (h : Keeps w s₀ s) :
    Keeps w s₀ (listApply d fn may app s) := by
  unfold listApply
  repeat' first
    | intro _
    | with_reducible assumption
    | with_reducible (first | apply Keeps.ite | apply k4 | apply tryList_keeps)
    | refine Keeps.of_snd (by with_reducible assumption) ?_
    | split
    | dsimp only

theorem clearStream_keeps {w : List Part} {s₀ : State} {s} {off} (m_regs : Part.regs ∈ w) (h : Keeps w s₀ s) :
    Keeps w s₀ (clearStream s off) := by
  unfold clearStream
  repeat' first
    | intro _
    | with_reducible assumption
    | with_reducible (first | apply Keeps.ite | apply wrReg_keeps)
    | split
    | dsimp only

theorem schedApply_keeps {w : List Part} {s₀ : State} {s} {off} {v} (m_arb : Part.arb ∈ w) (m_boot : Part.boot ∈ w) (m_bus : Part.bus ∈ w) (m_clk : Part.clk ∈ w) (m_dyn : Part.dyn ∈ w) (m_free : Part.free ∈ w) (m_host : Part.host ∈ w) (m_lane : Part.lane ∈ w) (m_log : Part.log ∈ w) (m_obs : Part.obs ∈ w) (m_red : Part.red ∈ w) (m_regs : Part.regs ∈ w) (m_rel : Part.rel ∈ w) (m_sch : Part.sch ∈ w) (m_slu : Part.slu ∈ w) (m_trig : Part.trig ∈ w) (h : Keeps w s₀ s) :
    Keeps w s₀ (schedApply s off v) := by
  unfold schedApply
  repeat' first
    | intro _
    | with_reducible assumption
    | with_reducible (first | apply Keeps.ite | apply applyWrite_keeps | apply clearStream_keeps)
    | split
    | dsimp only

theorem execSchedLoad_keeps {w : List Part} {s₀ : State} {fn} {list} {s} (m_arb : Part.arb ∈ w) (m_boot : Part.boot ∈ w) (m_bus : Part.bus ∈ w) (m_clk : Part.clk ∈ w) (m_dyn : Part.dyn ∈ w) (m_free : Part.free ∈ w) (m_host : Part.host ∈ w) (m_lane : Part.lane ∈ w) (m_log : Part.log ∈ w) (m_mbx : Part.mbx ∈ w) (m_obs : Part.obs ∈ w) (m_red : Part.red ∈ w) (m_regs : Part.regs ∈ w) (m_rel : Part.rel ∈ w) (m_sch : Part.sch ∈ w) (m_slu : Part.slu ∈ w) (m_trig : Part.trig ∈ w) (h : Keeps w s₀ s) :
    ∃ t, execSchedLoad fn list s = .next t ∧ Keeps w s₀ t := by
  refine ⟨_, rfl, ?_⟩
  repeat' first
    | intro _
    | with_reducible assumption
    | with_reducible (first | apply Keeps.ite | apply answerOk_keeps | apply fwGated_keeps | apply listApply_keeps | apply schedApply_keeps)
    | split
    | dsimp only

theorem armSlots_keeps {w : List Part} {s₀ : State} {s} {a} {time} (m_arb : Part.arb ∈ w) (m_regs : Part.regs ∈ w) (h : Keeps w s₀ s) :
    Keeps w s₀ (armSlots s a time).1 := by
  unfold armSlots
  repeat' first
    | intro _
    | with_reducible assumption
    | with_reducible (first | apply Keeps.ite_fst | apply Keeps.ite | apply after_keeps | apply execArbArm_keeps | apply execArbArmCheckDone_keeps)
    | split
    | dsimp only

theorem armAll_keeps {w : List Part} {s₀ : State} {x1} {x2} {x3} {x4} (m_arb : Part.arb ∈ w) (m_regs : Part.regs ∈ w) (m_sch : Part.sch ∈ w) (h : Keeps w s₀ x3) :
    Keeps w s₀ (armAll x1 x2 x3 x4).1 := by
  induction x4 generalizing x3 with
  | nil =>
    unfold armAll
    dsimp only
    exact after_keeps (execSchArmCheckDone_keeps m_regs m_sch (after_keeps (execSchArm_keeps m_regs m_sch h)))
  | cons a r ih =>
    unfold armAll
    dsimp only
    split
    · exact armSlots_keeps m_arb m_regs h
    · split
      · exact arbDrop_keeps m_arb m_regs (ih (armSlots_keeps m_arb m_regs h))
      · exact ih (armSlots_keeps m_arb m_regs h)

theorem schedArmRun_keeps {w : List Part} {s₀ : State} {fn} {undo} {s} (m_arb : Part.arb ∈ w) (m_host : Part.host ∈ w) (m_mbx : Part.mbx ∈ w) (m_regs : Part.regs ∈ w) (m_sch : Part.sch ∈ w) (k2 : ∀ u, Keeps w s₀ u → Keeps w s₀ (undo u)) (h : Keeps w s₀ s) :
    Keeps w s₀ (schedArmRun fn undo s) := by
  unfold schedArmRun
  repeat' first
    | intro _
    | with_reducible assumption
    | with_reducible (first | apply Keeps.ite | apply k2 | apply answerOk_keeps | apply refuse_keeps | apply armAll_keeps)
    | refine Keeps.of_fst (by with_reducible assumption) ?_
    | split
    | dsimp only

theorem execSchedArm_keeps {w : List Part} {s₀ : State} {fn} {s} (m_arb : Part.arb ∈ w) (m_host : Part.host ∈ w) (m_log : Part.log ∈ w) (m_mbx : Part.mbx ∈ w) (m_regs : Part.regs ∈ w) (m_rel : Part.rel ∈ w) (m_sch : Part.sch ∈ w) (h : Keeps w s₀ s) :
    ∃ t, execSchedArm fn s = .next t ∧ Keeps w s₀ t := by
  refine ⟨_, rfl, ?_⟩
  repeat' first
    | intro _
    | with_reducible assumption
    | with_reducible (first | apply Keeps.ite | apply Keeps.same_id | apply fwGated_keeps | apply schedArmRun_keeps)
    | split
    | dsimp only

theorem emptyShadow_keeps {w : List Part} {s₀ : State} {s} {x2} (m_regs : Part.regs ∈ w) (h : Keeps w s₀ s) :
    Keeps w s₀ (emptyShadow s x2) := by
  unfold emptyShadow
  repeat' first
    | intro _
    | with_reducible assumption
    | with_reducible (first | apply Keeps.ite | apply Keeps.foldl | apply Keeps.foldl_fst | apply Keeps.foldl_snd | apply wrReg_keeps | apply resetReg_keeps)
    | split
    | dsimp only

theorem fillShadow_keeps {w : List Part} {s₀ : State} {s} {x2} {x3} (m_regs : Part.regs ∈ w) (k3 : Keeps w s₀ x3) (h : Keeps w s₀ s) :
    Keeps w s₀ (fillShadow s x2 x3) := by
  unfold fillShadow
  repeat' first
    | intro _
    | with_reducible assumption
    | with_reducible (first | apply Keeps.ite | apply Keeps.foldl | apply Keeps.foldl_fst | apply Keeps.foldl_snd | apply k3 | apply wrReg_keeps)
    | split
    | dsimp only

theorem execSchedStop_keeps {w : List Part} {s₀ : State} {fn} {s} (m_arb : Part.arb ∈ w) (m_host : Part.host ∈ w) (m_log : Part.log ∈ w) (m_mbx : Part.mbx ∈ w) (m_regs : Part.regs ∈ w) (m_rel : Part.rel ∈ w) (m_sch : Part.sch ∈ w) (h : Keeps w s₀ s) :
    ∃ t, execSchedStop fn s = .next t ∧ Keeps w s₀ t := by
  refine ⟨_, rfl, ?_⟩
  repeat' first
    | intro _
    | with_reducible assumption
    | with_reducible (first | apply Keeps.ite | apply fwGated_keeps | apply schedArmRun_keeps | apply emptyShadow_keeps | apply fillShadow_keeps)
    | split
    | dsimp only

theorem groupApply_keeps {w : List Part} {s₀ : State} {g} {s} {off} {v} (m_arb : Part.arb ∈ w) (m_boot : Part.boot ∈ w) (m_bus : Part.bus ∈ w) (m_clk : Part.clk ∈ w) (m_coll : Part.coll ∈ w) (m_dyn : Part.dyn ∈ w) (m_free : Part.free ∈ w) (m_host : Part.host ∈ w) (m_lane : Part.lane ∈ w) (m_log : Part.log ∈ w) (m_obs : Part.obs ∈ w) (m_red : Part.red ∈ w) (m_regs : Part.regs ∈ w) (m_rel : Part.rel ∈ w) (m_sch : Part.sch ∈ w) (m_slu : Part.slu ∈ w) (m_trig : Part.trig ∈ w) (h : Keeps w s₀ s) :
    Keeps w s₀ (groupApply g s off v) := by
  unfold groupApply
  repeat' first
    | intro _
    | with_reducible assumption
    | with_reducible (first | apply Keeps.ite | apply applyWrite_keeps)
    | with_reducible (first | fail_if_no_progress apply Keeps.coll m_coll)
    | split
    | dsimp only

theorem groupMake_keeps {w : List Part} {s₀ : State} {x1} {fn} {s} (m_coll : Part.coll ∈ w) (m_regs : Part.regs ∈ w) (h : Keeps w s₀ s) :
    Keeps w s₀ (groupMake x1 fn s) := by
  unfold groupMake
  repeat' first
    | intro _
    | with_reducible assumption
    | with_reducible (first | apply Keeps.ite | apply Keeps.foldl | apply Keeps.foldl_fst | apply Keeps.foldl_snd | apply wrReg_keeps | apply setFld_keeps)
    | with_reducible (first | fail_if_no_progress apply Keeps.coll m_coll)
    | split
    | dsimp only

theorem planApply_keeps {w : List Part} {s₀ : State} {fn} {s} {off} {v} (m_arb : Part.arb ∈ w) (m_boot : Part.boot ∈ w) (m_bus : Part.bus ∈ w) (m_clk : Part.clk ∈ w) (m_coll : Part.coll ∈ w) (m_dyn : Part.dyn ∈ w) (m_free : Part.free ∈ w) (m_host : Part.host ∈ w) (m_lane : Part.lane ∈ w) (m_log : Part.log ∈ w) (m_obs : Part.obs ∈ w) (m_red : Part.red ∈ w) (m_regs : Part.regs ∈ w) (m_rel : Part.rel ∈ w) (m_sch : Part.sch ∈ w) (m_slu : Part.slu ∈ w) (m_trig : Part.trig ∈ w) (h : Keeps w s₀ s) :
    Keeps w s₀ (planApply fn s off v) := by
  unfold planApply
  repeat' first
    | intro _
    | with_reducible assumption
    | with_reducible (first | apply Keeps.ite | apply groupApply_keeps)
    | split
    | dsimp only

theorem execGroupCreate_keeps {w : List Part} {s₀ : State} {fn} {list} {s} (m_arb : Part.arb ∈ w) (m_boot : Part.boot ∈ w) (m_bus : Part.bus ∈ w) (m_clk : Part.clk ∈ w) (m_coll : Part.coll ∈ w) (m_dyn : Part.dyn ∈ w) (m_free : Part.free ∈ w) (m_host : Part.host ∈ w) (m_lane : Part.lane ∈ w) (m_log : Part.log ∈ w) (m_mbx : Part.mbx ∈ w) (m_obs : Part.obs ∈ w) (m_red : Part.red ∈ w) (m_regs : Part.regs ∈ w) (m_rel : Part.rel ∈ w) (m_sch : Part.sch ∈ w) (m_slu : Part.slu ∈ w) (m_trig : Part.trig ∈ w) (h : Keeps w s₀ s) :
    ∃ t, execGroupCreate fn list s = .next t ∧ Keeps w s₀ t := by
  refine ⟨_, rfl, ?_⟩
  repeat' first
    | intro _
    | with_reducible assumption
    | with_reducible (first | apply Keeps.ite | apply answerOk_keeps | apply fwGated_keeps | apply listApply_keeps | apply groupMake_keeps | apply planApply_keeps)
    | split
    | dsimp only

theorem execGroupDestroy_keeps {w : List Part} {s₀ : State} {fn} {s} (m_coll : Part.coll ∈ w) (m_dyn : Part.dyn ∈ w) (m_free : Part.free ∈ w) (m_host : Part.host ∈ w) (m_lane : Part.lane ∈ w) (m_log : Part.log ∈ w) (m_mbx : Part.mbx ∈ w) (m_obs : Part.obs ∈ w) (m_red : Part.red ∈ w) (m_regs : Part.regs ∈ w) (m_rel : Part.rel ∈ w) (m_rte : Part.rte ∈ w) (m_slu : Part.slu ∈ w) (m_trig : Part.trig ∈ w) (h : Keeps w s₀ s) :
    ∃ t, execGroupDestroy fn s = .next t ∧ Keeps w s₀ t := by
  refine ⟨_, rfl, ?_⟩
  repeat' first
    | intro _
    | with_reducible assumption
    | with_reducible (first | apply Keeps.ite | apply answerOk_keeps | apply groupDestroy_keeps | apply fwGated_keeps)
    | split
    | dsimp only

theorem configApply_keeps {w : List Part} {s₀ : State} {s} {off} {v} (m_arb : Part.arb ∈ w) (m_boot : Part.boot ∈ w) (m_bus : Part.bus ∈ w) (m_clk : Part.clk ∈ w) (m_dyn : Part.dyn ∈ w) (m_free : Part.free ∈ w) (m_host : Part.host ∈ w) (m_lane : Part.lane ∈ w) (m_log : Part.log ∈ w) (m_obs : Part.obs ∈ w) (m_red : Part.red ∈ w) (m_regs : Part.regs ∈ w) (m_rel : Part.rel ∈ w) (m_sch : Part.sch ∈ w) (m_slu : Part.slu ∈ w) (m_trig : Part.trig ∈ w) (h : Keeps w s₀ s) :
    Keeps w s₀ (configApply s off v) := by
  unfold configApply
  repeat' first
    | intro _
    | with_reducible assumption
    | with_reducible (first | apply Keeps.ite | apply applyWrite_keeps)
    | split
    | dsimp only

theorem copySch_keeps {w : List Part} {s₀ : State} {s} {a} (m_regs : Part.regs ∈ w) (h : Keeps w s₀ s) :
    Keeps w s₀ (copySch s a) := by
  unfold copySch
  repeat' first
    | intro _
    | with_reducible assumption
    | with_reducible (first | apply Keeps.ite | apply Keeps.foldl | apply Keeps.foldl_fst | apply Keeps.foldl_snd | apply wrReg_keeps)
    | split
    | dsimp only

theorem armOne_keeps {w : List Part} {s₀ : State} {s} {off} {v} (m_arb : Part.arb ∈ w) (m_regs : Part.regs ∈ w) (h : Keeps w s₀ s) :
    Keeps w s₀ (armOne s off v).1 := by
  unfold armOne
  repeat' first
    | intro _
    | with_reducible assumption
    | with_reducible (first | apply Keeps.ite_fst | apply Keeps.ite | apply after_keeps | apply execGateArm_keeps | apply execGateArmCheckDone_keeps | apply armSlots_keeps | apply copySch_keeps)
    | refine Keeps.of_fst (by with_reducible assumption) ?_
    | split
    | dsimp only

theorem armList_keeps {w : List Part} {s₀ : State} {x1} {x2} {x3} (m_arb : Part.arb ∈ w) (m_regs : Part.regs ∈ w) (h : Keeps w s₀ x1) :
    Keeps w s₀ (armList x1 x2 x3).2 := by
  induction x3 generalizing x1 x2 with
  | nil => exact h
  | cons e r ih =>
    unfold armList
    dsimp only
    split
    · exact ih h
    · split
      · exact armOne_keeps m_arb m_regs h
      · exact ih (armOne_keeps m_arb m_regs h)

theorem arbConfigureRun_keeps {w : List Part} {s₀ : State} {list} {fn} {s} (m_arb : Part.arb ∈ w) (m_boot : Part.boot ∈ w) (m_bus : Part.bus ∈ w) (m_clk : Part.clk ∈ w) (m_dyn : Part.dyn ∈ w) (m_free : Part.free ∈ w) (m_host : Part.host ∈ w) (m_lane : Part.lane ∈ w) (m_log : Part.log ∈ w) (m_mbx : Part.mbx ∈ w) (m_obs : Part.obs ∈ w) (m_red : Part.red ∈ w) (m_regs : Part.regs ∈ w) (m_rel : Part.rel ∈ w) (m_sch : Part.sch ∈ w) (m_slu : Part.slu ∈ w) (m_trig : Part.trig ∈ w) (h : Keeps w s₀ s) :
    Keeps w s₀ (arbConfigureRun list fn s) := by
  unfold arbConfigureRun
  repeat' first
    | intro _
    | with_reducible assumption
    | with_reducible (first | apply Keeps.ite | apply answerOk_keeps | apply refuse_keeps | apply listApply_keeps | apply configApply_keeps | apply armList_keeps)
    | refine Keeps.of_snd (by with_reducible assumption) ?_
    | split
    | dsimp only

theorem execArbConfigure_keeps {w : List Part} {s₀ : State} {fn} {list} {s} (m_arb : Part.arb ∈ w) (m_boot : Part.boot ∈ w) (m_bus : Part.bus ∈ w) (m_clk : Part.clk ∈ w) (m_dyn : Part.dyn ∈ w) (m_free : Part.free ∈ w) (m_host : Part.host ∈ w) (m_lane : Part.lane ∈ w) (m_log : Part.log ∈ w) (m_mbx : Part.mbx ∈ w) (m_obs : Part.obs ∈ w) (m_red : Part.red ∈ w) (m_regs : Part.regs ∈ w) (m_rel : Part.rel ∈ w) (m_sch : Part.sch ∈ w) (m_slu : Part.slu ∈ w) (m_trig : Part.trig ∈ w) (h : Keeps w s₀ s) :
    ∃ t, execArbConfigure fn list s = .next t ∧ Keeps w s₀ t := by
  refine ⟨_, rfl, ?_⟩
  repeat' first
    | intro _
    | with_reducible assumption
    | with_reducible (first | apply Keeps.ite | apply fwRun_keeps | apply configApply_keeps | apply arbConfigureRun_keeps)
    | split
    | dsimp only

theorem execTraceConfigure_keeps {w : List Part} {s₀ : State} {fn} {list} {s} (m_arb : Part.arb ∈ w) (m_boot : Part.boot ∈ w) (m_bus : Part.bus ∈ w) (m_clk : Part.clk ∈ w) (m_dyn : Part.dyn ∈ w) (m_free : Part.free ∈ w) (m_host : Part.host ∈ w) (m_lane : Part.lane ∈ w) (m_log : Part.log ∈ w) (m_mbx : Part.mbx ∈ w) (m_obs : Part.obs ∈ w) (m_red : Part.red ∈ w) (m_regs : Part.regs ∈ w) (m_rel : Part.rel ∈ w) (m_sch : Part.sch ∈ w) (m_slu : Part.slu ∈ w) (m_trig : Part.trig ∈ w) (h : Keeps w s₀ s) :
    ∃ t, execTraceConfigure fn list s = .next t ∧ Keeps w s₀ t := by
  refine ⟨_, rfl, ?_⟩
  repeat' first
    | intro _
    | with_reducible assumption
    | with_reducible (first | apply Keeps.ite | apply answerOk_keeps | apply applyWrite_keeps | apply fwGated_keeps | apply listApply_keeps)
    | split
    | dsimp only

/-! ### Machine/Partition.lean -/

theorem portHold_keeps {w : List Part} {s₀ : State} {s} {n} (m_arb : Part.arb ∈ w) (m_dyn : Part.dyn ∈ w) (m_free : Part.free ∈ w) (m_lane : Part.lane ∈ w) (m_obs : Part.obs ∈ w) (m_regs : Part.regs ∈ w) (m_rel : Part.rel ∈ w) (h : Keeps w s₀ s) :
    Keeps w s₀ (portHold s n) := by
  unfold portHold
  repeat' first
    | intro _
    | with_reducible assumption
    | with_reducible (first | apply Keeps.ite | apply setFld_keeps | apply toState_keeps | apply laneDrop_keeps | apply laneReset_keeps)
    | split
    | dsimp only

theorem portRelease_keeps {w : List Part} {s₀ : State} {fn} {s} {n} (m_arb : Part.arb ∈ w) (m_lane : Part.lane ∈ w) (m_regs : Part.regs ∈ w) (h : Keeps w s₀ s) :
    Keeps w s₀ (portRelease fn s n) := by
  unfold portRelease
  repeat' first
    | intro _
    | with_reducible assumption
    | with_reducible (first | apply Keeps.ite | apply wrReg_keeps | apply setFld_keeps | apply toState_keeps)
    | split
    | dsimp only

theorem ethTry_keeps {w : List Part} {s₀ : State} {s} {fn} {list} (m_arb : Part.arb ∈ w) (m_boot : Part.boot ∈ w) (m_bus : Part.bus ∈ w) (m_clk : Part.clk ∈ w) (m_dyn : Part.dyn ∈ w) (m_free : Part.free ∈ w) (m_host : Part.host ∈ w) (m_lane : Part.lane ∈ w) (m_log : Part.log ∈ w) (m_obs : Part.obs ∈ w) (m_red : Part.red ∈ w) (m_regs : Part.regs ∈ w) (m_rel : Part.rel ∈ w) (m_sch : Part.sch ∈ w) (m_slu : Part.slu ∈ w) (m_trig : Part.trig ∈ w) (h : Keeps w s₀ s) :
    Keeps w s₀ (ethTry s fn list).2 := by
  unfold ethTry
  repeat' first
    | intro _
    | with_reducible assumption
    | with_reducible (first | apply Keeps.ite_snd | apply Keeps.ite | apply applyWrite_keeps | apply tryList_keeps)
    | refine Keeps.of_snd (by with_reducible assumption) ?_
    | split
    | dsimp only

theorem eeeAgain_keeps {w : List Part} {s₀ : State} {old} {e} {s} {k} (m_clk : Part.clk ∈ w) (m_regs : Part.regs ∈ w) (m_rel : Part.rel ∈ w) (m_rte : Part.rte ∈ w) (m_trig : Part.trig ∈ w) (k3 : Keeps w s₀ s) (h : Keeps w s₀ old) :
    Keeps w s₀ (eeeAgain old e s k) := by
  unfold eeeAgain
  repeat' first
    | intro _
    | with_reducible assumption
    | with_reducible (first | apply Keeps.ite | apply k3 | apply fwFrame_keeps | apply eeeOff_keeps)
    | split
    | dsimp only

theorem ethApply_keeps {w : List Part} {s₀ : State} {s} {fn} {list} (m_arb : Part.arb ∈ w) (m_boot : Part.boot ∈ w) (m_bus : Part.bus ∈ w) (m_clk : Part.clk ∈ w) (m_dyn : Part.dyn ∈ w) (m_free : Part.free ∈ w) (m_host : Part.host ∈ w) (m_lane : Part.lane ∈ w) (m_log : Part.log ∈ w) (m_obs : Part.obs ∈ w) (m_red : Part.red ∈ w) (m_regs : Part.regs ∈ w) (m_rel : Part.rel ∈ w) (m_rte : Part.rte ∈ w) (m_sch : Part.sch ∈ w) (m_slu : Part.slu ∈ w) (m_trig : Part.trig ∈ w) (h : Keeps w s₀ s) :
    Keeps w s₀ (ethApply s fn list) := by
  unfold ethApply
  repeat' first
    | intro _
    | with_reducible assumption
    | with_reducible (first | apply Keeps.ite | apply Keeps.foldl | apply Keeps.foldl_fst | apply Keeps.foldl_snd | apply ethTry_keeps | apply eeeAgain_keeps)
    | refine Keeps.of_snd (by with_reducible assumption) ?_
    | split
    | dsimp only

theorem domainStart_keeps {w : List Part} {s₀ : State} {s} {fn} {list} (m_arb : Part.arb ∈ w) (m_boot : Part.boot ∈ w) (m_bus : Part.bus ∈ w) (m_clk : Part.clk ∈ w) (m_dyn : Part.dyn ∈ w) (m_free : Part.free ∈ w) (m_host : Part.host ∈ w) (m_lane : Part.lane ∈ w) (m_log : Part.log ∈ w) (m_mbx : Part.mbx ∈ w) (m_obs : Part.obs ∈ w) (m_red : Part.red ∈ w) (m_regs : Part.regs ∈ w) (m_rel : Part.rel ∈ w) (m_rte : Part.rte ∈ w) (m_sch : Part.sch ∈ w) (m_slu : Part.slu ∈ w) (m_trig : Part.trig ∈ w) (h : Keeps w s₀ s) :
    Keeps w s₀ (domainStart s fn list) := by
  unfold domainStart
  repeat' first
    | intro _
    | with_reducible assumption
    | with_reducible (first | apply Keeps.ite | apply Keeps.foldl | apply Keeps.foldl_fst | apply Keeps.foldl_snd | apply after_keeps | apply execFabPkgInfoWrite_keeps | apply begin__keeps | apply portHold_keeps | apply portRelease_keeps | apply ethApply_keeps)
    | split
    | dsimp only

theorem domainEnd_keeps {w : List Part} {s₀ : State} {s} {fn} (m_host : Part.host ∈ w) (m_mbx : Part.mbx ∈ w) (h : Keeps w s₀ s) :
    Keeps w s₀ (domainEnd s fn) := by
  unfold domainEnd
  repeat' first
    | intro _
    | with_reducible assumption
    | with_reducible (first | apply Keeps.ite | apply answerOk_keeps | apply refuse_keeps)
    | split
    | dsimp only

theorem execDomainConfigure_keeps {w : List Part} {s₀ : State} {c} {s} (m_arb : Part.arb ∈ w) (m_boot : Part.boot ∈ w) (m_bus : Part.bus ∈ w) (m_clk : Part.clk ∈ w) (m_dyn : Part.dyn ∈ w) (m_free : Part.free ∈ w) (m_host : Part.host ∈ w) (m_lane : Part.lane ∈ w) (m_log : Part.log ∈ w) (m_mbx : Part.mbx ∈ w) (m_obs : Part.obs ∈ w) (m_red : Part.red ∈ w) (m_regs : Part.regs ∈ w) (m_rel : Part.rel ∈ w) (m_rte : Part.rte ∈ w) (m_sch : Part.sch ∈ w) (m_slu : Part.slu ∈ w) (m_trig : Part.trig ∈ w) (h : Keeps w s₀ s) :
    ∃ t, execDomainConfigure c s = .next t ∧ Keeps w s₀ t := by
  refine ⟨_, rfl, ?_⟩
  repeat' first
    | intro _
    | with_reducible assumption
    | with_reducible (first | apply Keeps.ite | apply fwRun_keeps | apply fwLater_keeps | apply domainStart_keeps | apply domainEnd_keeps)
    | split
    | dsimp only

theorem measureStart_keeps {w : List Part} {s₀ : State} {s} {n} (m_lane : Part.lane ∈ w) (h : Keeps w s₀ s) :
    Keeps w s₀ (measureStart s n) := by
  unfold measureStart
  repeat' first
    | intro _
    | with_reducible assumption
    | with_reducible (first | apply Keeps.ite | apply setLane_keeps)
    | split
    | dsimp only

theorem execTimeMeasure_keeps {w : List Part} {s₀ : State} {fn} {s} (m_host : Part.host ∈ w) (m_lane : Part.lane ∈ w) (m_mbx : Part.mbx ∈ w) (h : Keeps w s₀ s) :
    ∃ t, execTimeMeasure fn s = .next t ∧ Keeps w s₀ t := by
  refine ⟨_, rfl, ?_⟩
  repeat' first
    | intro _
    | with_reducible assumption
    | with_reducible (first | apply Keeps.ite | apply Keeps.foldl | apply Keeps.foldl_fst | apply Keeps.foldl_snd | apply answerOk_keeps | apply begin__keeps | apply fwRun_keeps | apply fwLater_keeps | apply measureStart_keeps)
    | split
    | dsimp only

theorem boundsAt_keeps {w : List Part} {s₀ : State} {x1} {b} {s} {a} (m_arb : Part.arb ∈ w) (m_regs : Part.regs ∈ w) (h : Keeps w s₀ s) :
    Keeps w s₀ (boundsAt x1 b s a) := by
  unfold boundsAt
  repeat' first
    | intro _
    | with_reducible assumption
    | with_reducible (first | apply Keeps.ite | apply wrReg_keeps)
    | with_reducible (first | fail_if_no_progress apply Keeps.arb m_arb)
    | split
    | dsimp only

theorem ownPort_keeps {w : List Part} {s₀ : State} {x1} {tile} {s} {port} (m_regs : Part.regs ∈ w) (h : Keeps w s₀ s) :
    Keeps w s₀ (ownPort x1 tile s port) := by
  unfold ownPort
  repeat' first
    | intro _
    | with_reducible assumption
    | with_reducible (first | apply Keeps.ite | apply Keeps.foldl | apply Keeps.foldl_fst | apply Keeps.foldl_snd | apply after_keeps | apply execPhaseOwnerWrite_keeps)
    | split
    | dsimp only

theorem ownGroup_keeps {w : List Part} {s₀ : State} {x1} {tile} {port} {s} {g} (m_regs : Part.regs ∈ w) (h : Keeps w s₀ s) :
    Keeps w s₀ (ownGroup x1 tile port s g) := by
  unfold ownGroup
  repeat' first
    | intro _
    | with_reducible assumption
    | with_reducible (first | apply Keeps.ite | apply after_keeps | apply execPhaseOwnerWrite_keeps)
    | split
    | dsimp only

theorem giveRange_keeps {w : List Part} {s₀ : State} {x1} {r} {s} {m} (m_regs : Part.regs ∈ w) (h : Keeps w s₀ s) :
    Keeps w s₀ (giveRange x1 r s m) := by
  unfold giveRange
  repeat' first
    | intro _
    | with_reducible assumption
    | with_reducible (first | apply Keeps.ite | apply wrReg_keeps)
    | split
    | dsimp only

theorem giveShare_keeps {w : List Part} {s₀ : State} {x1} {rsvsh} {s} {e} (m_regs : Part.regs ∈ w) (h : Keeps w s₀ s) :
    Keeps w s₀ (giveShare x1 rsvsh s e) := by
  unfold giveShare
  repeat' first
    | intro _
    | with_reducible assumption
    | with_reducible (first | apply Keeps.ite | apply setFld_keeps)
    | split
    | dsimp only

theorem giveDesc_keeps {w : List Part} {s₀ : State} {x1} {m} {s} {n} (m_regs : Part.regs ∈ w) (h : Keeps w s₀ s) :
    Keeps w s₀ (giveDesc x1 m s n) := by
  unfold giveDesc
  repeat' first
    | intro _
    | with_reducible assumption
    | with_reducible (first | apply Keeps.ite | apply after_keeps | apply execMepDescOwnerWrite_keeps)
    | split
    | dsimp only

theorem createRun_keeps {w : List Part} {s₀ : State} {b} {fn} {s} (m_arb : Part.arb ∈ w) (m_host : Part.host ∈ w) (m_mbx : Part.mbx ∈ w) (m_parts : Part.parts ∈ w) (m_regs : Part.regs ∈ w) (h : Keeps w s₀ s) :
    Keeps w s₀ (createRun b fn s) := by
  unfold createRun
  repeat' first
    | intro _
    | with_reducible assumption
    | with_reducible (first | apply Keeps.ite | apply Keeps.foldl | apply Keeps.foldl_fst | apply Keeps.foldl_snd | apply after_keeps | apply wrReg_keeps | apply setFld_keeps | apply setFnState_keeps | apply execTwinMapWrite_keeps | apply answerOk_keeps | apply boundsAt_keeps | apply ownPort_keeps | apply ownGroup_keeps | apply giveRange_keeps | apply giveShare_keeps | apply giveDesc_keeps)
    | with_reducible (first | fail_if_no_progress apply Keeps.parts m_parts)
    | split
    | dsimp only

theorem execPartitionCreate_keeps {w : List Part} {s₀ : State} {fn} {blk} {s} (m_arb : Part.arb ∈ w) (m_host : Part.host ∈ w) (m_mbx : Part.mbx ∈ w) (m_parts : Part.parts ∈ w) (m_regs : Part.regs ∈ w) (h : Keeps w s₀ s) :
    ∃ t, execPartitionCreate fn blk s = .next t ∧ Keeps w s₀ t := by
  refine ⟨_, rfl, ?_⟩
  repeat' first
    | intro _
    | with_reducible assumption
    | with_reducible (first | apply Keeps.ite | apply fwRun_keeps | apply createRun_keeps)
    | split
    | dsimp only

theorem destroyStart_keeps {w : List Part} {s₀ : State} {s} {fn} (m_chan : Part.chan ∈ w) (m_clk : Part.clk ∈ w) (m_coll : Part.coll ∈ w) (m_dyn : Part.dyn ∈ w) (m_free : Part.free ∈ w) (m_host : Part.host ∈ w) (m_lane : Part.lane ∈ w) (m_log : Part.log ∈ w) (m_mbx : Part.mbx ∈ w) (m_mem : Part.mem ∈ w) (m_memPoison : Part.memPoison ∈ w) (m_obs : Part.obs ∈ w) (m_parts : Part.parts ∈ w) (m_red : Part.red ∈ w) (m_regs : Part.regs ∈ w) (m_rel : Part.rel ∈ w) (m_rte : Part.rte ∈ w) (m_sch : Part.sch ∈ w) (m_slu : Part.slu ∈ w) (m_trig : Part.trig ∈ w) (h : Keeps w s₀ s) :
    Keeps w s₀ (destroyStart s fn) := by
  unfold destroyStart
  repeat' first
    | intro _
    | with_reducible assumption
    | with_reducible (first | apply Keeps.ite | apply begin__keeps | apply destroyBegin_keeps | apply endQueued_keeps)
    | split
    | dsimp only

theorem execPartitionDestroy_keeps {w : List Part} {s₀ : State} {fn} {s} (m_chan : Part.chan ∈ w) (m_clk : Part.clk ∈ w) (m_coll : Part.coll ∈ w) (m_dyn : Part.dyn ∈ w) (m_free : Part.free ∈ w) (m_host : Part.host ∈ w) (m_lane : Part.lane ∈ w) (m_log : Part.log ∈ w) (m_mbx : Part.mbx ∈ w) (m_mem : Part.mem ∈ w) (m_memPoison : Part.memPoison ∈ w) (m_obs : Part.obs ∈ w) (m_parts : Part.parts ∈ w) (m_red : Part.red ∈ w) (m_regs : Part.regs ∈ w) (m_rel : Part.rel ∈ w) (m_rte : Part.rte ∈ w) (m_sch : Part.sch ∈ w) (m_slu : Part.slu ∈ w) (m_trig : Part.trig ∈ w) (h : Keeps w s₀ s) :
    ∃ t, execPartitionDestroy fn s = .next t ∧ Keeps w s₀ t := by
  refine ⟨_, rfl, ?_⟩
  repeat' first
    | intro _
    | with_reducible assumption
    | with_reducible (first | apply Keeps.ite | apply fwRun_keeps | apply destroyStart_keeps)
    | split
    | dsimp only

theorem setPair_keeps {w : List Part} {s₀ : State} {s} {fn} {qpPair} {k} (m_sec : Part.sec ∈ w) (h : Keeps w s₀ s) :
    Keeps w s₀ (setPair s fn qpPair k) := by
  unfold setPair
  repeat' first
    | intro _
    | with_reducible assumption
    | with_reducible (first | apply Keeps.ite)
    | with_reducible (first | fail_if_no_progress apply Keeps.sec m_sec)
    | split
    | dsimp only

theorem keyLoadRun_keeps {w : List Part} {s₀ : State} {fn} {s} (m_host : Part.host ∈ w) (m_log : Part.log ∈ w) (m_mbx : Part.mbx ∈ w) (m_regs : Part.regs ∈ w) (m_rel : Part.rel ∈ w) (m_sec : Part.sec ∈ w) (h : Keeps w s₀ s) :
    Keeps w s₀ (keyLoadRun fn s) := by
  unfold keyLoadRun
  repeat' first
    | intro _
    | with_reducible assumption
    | with_reducible (first | apply Keeps.ite | apply answerOk_keeps | apply refuse_keeps | apply sigFail_keeps | apply setPair_keeps)
    | with_reducible (first | fail_if_no_progress apply Keeps.sec m_sec)
    | split
    | dsimp only

theorem execKeyLoad_keeps {w : List Part} {s₀ : State} {fn} {s} (m_host : Part.host ∈ w) (m_log : Part.log ∈ w) (m_mbx : Part.mbx ∈ w) (m_regs : Part.regs ∈ w) (m_rel : Part.rel ∈ w) (m_sec : Part.sec ∈ w) (h : Keeps w s₀ s) :
    ∃ t, execKeyLoad fn s = .next t ∧ Keeps w s₀ t := by
  refine ⟨_, rfl, ?_⟩
  repeat' first
    | intro _
    | with_reducible assumption
    | with_reducible (first | apply Keeps.ite | apply fwRun_keeps | apply keyLoadRun_keeps)
    | split
    | dsimp only

theorem keySwitchRun_keeps {w : List Part} {s₀ : State} {fn} {s} (m_host : Part.host ∈ w) (m_mbx : Part.mbx ∈ w) (m_sec : Part.sec ∈ w) (h : Keeps w s₀ s) :
    Keeps w s₀ (keySwitchRun fn s) := by
  unfold keySwitchRun
  repeat' first
    | intro _
    | with_reducible assumption
    | with_reducible (first | apply Keeps.ite | apply answerOk_keeps | apply setPair_keeps)
    | split
    | dsimp only

theorem execKeySwitch_keeps {w : List Part} {s₀ : State} {fn} {s} (m_host : Part.host ∈ w) (m_log : Part.log ∈ w) (m_mbx : Part.mbx ∈ w) (m_regs : Part.regs ∈ w) (m_rel : Part.rel ∈ w) (m_sec : Part.sec ∈ w) (h : Keeps w s₀ s) :
    ∃ t, execKeySwitch fn s = .next t ∧ Keeps w s₀ t := by
  refine ⟨_, rfl, ?_⟩
  repeat' first
    | intro _
    | with_reducible assumption
    | with_reducible (first | apply Keeps.ite | apply fwGated_keeps | apply keySwitchRun_keeps)
    | split
    | dsimp only

theorem sealRun_keeps {w : List Part} {s₀ : State} {fn} {s} (m_host : Part.host ∈ w) (m_mbx : Part.mbx ∈ w) (m_regs : Part.regs ∈ w) (h : Keeps w s₀ s) :
    Keeps w s₀ (sealRun fn s) := by
  unfold sealRun
  repeat' first
    | intro _
    | with_reducible assumption
    | with_reducible (first | apply Keeps.ite | apply answerOk_keeps | apply sealNow_keeps)
    | split
    | dsimp only

theorem execPartitionSeal_keeps {w : List Part} {s₀ : State} {fn} {s} (m_host : Part.host ∈ w) (m_mbx : Part.mbx ∈ w) (m_regs : Part.regs ∈ w) (h : Keeps w s₀ s) :
    ∃ t, execPartitionSeal fn s = .next t ∧ Keeps w s₀ t := by
  refine ⟨_, rfl, ?_⟩
  repeat' first
    | intro _
    | with_reducible assumption
    | with_reducible (first | apply Keeps.ite | apply fwRun_keeps | apply sealRun_keeps)
    | split
    | dsimp only

theorem recoverFns_keeps {w : List Part} {s₀ : State} {s} {fn} (m_host : Part.host ∈ w) (m_mbx : Part.mbx ∈ w) (m_regs : Part.regs ∈ w) (h : Keeps w s₀ s) :
    Keeps w s₀ (recoverFns s fn) := by
  unfold recoverFns
  repeat' first
    | intro _
    | with_reducible assumption
    | with_reducible (first | apply Keeps.ite | apply Keeps.foldl | apply Keeps.foldl_fst | apply Keeps.foldl_snd | apply setFnState_keeps | apply setSlot_keeps | apply answerOk_keeps)
    | with_reducible (first | fail_if_no_progress apply Keeps.mbx m_mbx)
    | split
    | dsimp only

theorem execHostRecover_keeps {w : List Part} {s₀ : State} {fn} {s} (m_host : Part.host ∈ w) (m_mbx : Part.mbx ∈ w) (m_regs : Part.regs ∈ w) (h : Keeps w s₀ s) :
    ∃ t, execHostRecover fn s = .next t ∧ Keeps w s₀ t := by
  refine ⟨_, rfl, ?_⟩
  repeat' first
    | intro _
    | with_reducible assumption
    | with_reducible (first | apply Keeps.ite | apply fwRun_keeps | apply recoverFns_keeps)
    | split
    | dsimp only

end Sys2Proof.Machine
end

