-- ==== Sys2Proof/Laws/FrameServices.lean ====
section
/-!
SUPPORT. What each operation of Machine/Services.lean, Machine/Idle.lean can touch: one lemma an operation,
that composes with the lemmas of its callers.
-/
namespace Sys2Proof.Machine

set_option linter.unusedTactic false
set_option linter.unreachableTactic false

/-! ### Machine/Services.lean -/

theorem cqBase_keeps {w : List Part} {s₀ : State} {s} {fn} {r} (m_host : Part.host ∈ w) (h : Keeps w s₀ s) :
    Keeps w s₀ (cqBase s fn r) := by
  unfold cqBase
  repeat' first
    | intro _
    | with_reducible assumption
    | with_reducible (first | apply Keeps.ite | apply setCq_keeps)
    | split
    | dsimp only

theorem ringCreateRun_keeps {w : List Part} {s₀ : State} {fn} {s} (m_host : Part.host ∈ w) (m_mbx : Part.mbx ∈ w) (m_regs : Part.regs ∈ w) (h : Keeps w s₀ s) :
    Keeps w s₀ (ringCreateRun fn s) := by
  unfold ringCreateRun
  repeat' first
    | intro _
    | with_reducible assumption
    | with_reducible (first | apply Keeps.ite | apply wrReg_keeps | apply setFld_keeps | apply setRing_keeps | apply setCq_keeps | apply answerOk_keeps | apply cqBase_keeps)
    | split
    | dsimp only

theorem execRingCreate_keeps {w : List Part} {s₀ : State} {fn} {s} (m_host : Part.host ∈ w) (m_log : Part.log ∈ w) (m_mbx : Part.mbx ∈ w) (m_regs : Part.regs ∈ w) (m_rel : Part.rel ∈ w) (h : Keeps w s₀ s) :
    ∃ t, execRingCreate fn s = .next t ∧ Keeps w s₀ t := by
  refine ⟨_, rfl, ?_⟩
  repeat' first
    | intro _
    | with_reducible assumption
    | with_reducible (first | apply Keeps.ite | apply fwGated_keeps | apply ringCreateRun_keeps)
    | split
    | dsimp only

theorem ringStop_keeps {w : List Part} {s₀ : State} {s} {fn} {r} (m_host : Part.host ∈ w) (m_regs : Part.regs ∈ w) (h : Keeps w s₀ s) :
    Keeps w s₀ (ringStop s fn r) := by
  unfold ringStop
  repeat' first
    | intro _
    | with_reducible assumption
    | with_reducible (first | apply Keeps.ite | apply setFld_keeps | apply setRing_keeps)
    | split
    | dsimp only

theorem ringDestroyEnd_keeps {w : List Part} {s₀ : State} {s} {fn} (m_host : Part.host ∈ w) (m_mbx : Part.mbx ∈ w) (m_regs : Part.regs ∈ w) (h : Keeps w s₀ s) :
    Keeps w s₀ (ringDestroyEnd s fn) := by
  unfold ringDestroyEnd
  repeat' first
    | intro _
    | with_reducible assumption
    | with_reducible (first | apply Keeps.ite | apply setFld_keeps | apply setRing_keeps | apply answerOk_keeps)
    | split
    | dsimp only

theorem ringDestroyRun_keeps {w : List Part} {s₀ : State} {fn} {s} (m_host : Part.host ∈ w) (m_mbx : Part.mbx ∈ w) (m_regs : Part.regs ∈ w) (h : Keeps w s₀ s) :
    Keeps w s₀ (ringDestroyRun fn s) := by
  unfold ringDestroyRun
  repeat' first
    | intro _
    | with_reducible assumption
    | with_reducible (first | apply Keeps.ite | apply setFld_keeps | apply setCq_keeps | apply answerOk_keeps | apply begin__keeps | apply ringStop_keeps | apply ringDestroyEnd_keeps)
    | split
    | dsimp only

theorem execRingDestroy_keeps {w : List Part} {s₀ : State} {fn} {s} (m_host : Part.host ∈ w) (m_log : Part.log ∈ w) (m_mbx : Part.mbx ∈ w) (m_regs : Part.regs ∈ w) (m_rel : Part.rel ∈ w) (h : Keeps w s₀ s) :
    ∃ t, execRingDestroy fn s = .next t ∧ Keeps w s₀ t := by
  refine ⟨_, rfl, ?_⟩
  repeat' first
    | intro _
    | with_reducible assumption
    | with_reducible (first | apply Keeps.ite | apply fwGated_keeps | apply fwLater_keeps | apply ringDestroyEnd_keeps | apply ringDestroyRun_keeps)
    | split
    | dsimp only

theorem chanCommand_keeps {w : List Part} {s₀ : State} {s} {fn} {cmd} {n} {more} {act} {fault} (m_host : Part.host ∈ w) (m_log : Part.log ∈ w) (m_mbx : Part.mbx ∈ w) (m_regs : Part.regs ∈ w) (m_rel : Part.rel ∈ w) (k6 : ∀ u y1 y2, Keeps w s₀ u → Keeps w s₀ (act u y1 y2)) (h : Keeps w s₀ s) :
    Keeps w s₀ (chanCommand s fn cmd n more act fault) := by
  unfold chanCommand
  repeat' first
    | intro _
    | with_reducible assumption
    | with_reducible (first | apply Keeps.ite | apply k6 | apply answerOk_keeps | apply fwGated_keeps)
    | split
    | dsimp only

theorem channelOpenRun_keeps {w : List Part} {s₀ : State} {fn} {s} {x3} {c} (m_chan : Part.chan ∈ w) (m_regs : Part.regs ∈ w) (h : Keeps w s₀ s) :
    Keeps w s₀ (channelOpenRun fn s x3 c) := by
  unfold channelOpenRun
  repeat' first
    | intro _
    | with_reducible assumption
    | with_reducible (first | apply Keeps.ite | apply softWrite_keeps | apply setChState_keeps | apply chOpen_keeps)
    | refine Keeps.of_fst (by with_reducible assumption) ?_
    | split
    | dsimp only

theorem execChannelOpen_keeps {w : List Part} {s₀ : State} {fn} {s} (m_chan : Part.chan ∈ w) (m_host : Part.host ∈ w) (m_log : Part.log ∈ w) (m_mbx : Part.mbx ∈ w) (m_regs : Part.regs ∈ w) (m_rel : Part.rel ∈ w) (h : Keeps w s₀ s) :
    ∃ t, execChannelOpen fn s = .next t ∧ Keeps w s₀ t := by
  refine ⟨_, rfl, ?_⟩
  repeat' first
    | intro _
    | with_reducible assumption
    | with_reducible (first | apply Keeps.ite | apply chanCommand_keeps | apply channelOpenRun_keeps)
    | split
    | dsimp only

theorem execChannelClose_keeps {w : List Part} {s₀ : State} {fn} {s} (m_chan : Part.chan ∈ w) (m_dyn : Part.dyn ∈ w) (m_host : Part.host ∈ w) (m_log : Part.log ∈ w) (m_mbx : Part.mbx ∈ w) (m_regs : Part.regs ∈ w) (m_rel : Part.rel ∈ w) (h : Keeps w s₀ s) :
    ∃ t, execChannelClose fn s = .next t ∧ Keeps w s₀ t := by
  refine ⟨_, rfl, ?_⟩
  repeat' first
    | intro _
    | with_reducible assumption
    | with_reducible (first | apply Keeps.ite | apply chClose_keeps | apply chanCommand_keeps)
    | split
    | dsimp only

theorem execChannelReset_keeps {w : List Part} {s₀ : State} {fn} {s} (m_chan : Part.chan ∈ w) (m_dyn : Part.dyn ∈ w) (m_free : Part.free ∈ w) (m_host : Part.host ∈ w) (m_lane : Part.lane ∈ w) (m_log : Part.log ∈ w) (m_mbx : Part.mbx ∈ w) (m_mem : Part.mem ∈ w) (m_memPoison : Part.memPoison ∈ w) (m_obs : Part.obs ∈ w) (m_regs : Part.regs ∈ w) (m_rel : Part.rel ∈ w) (h : Keeps w s₀ s) :
    ∃ t, execChannelReset fn s = .next t ∧ Keeps w s₀ t := by
  refine ⟨_, rfl, ?_⟩
  repeat' first
    | intro _
    | with_reducible assumption
    | with_reducible (first | apply Keeps.ite | apply chReset_keeps | apply chanCommand_keeps)
    | split
    | dsimp only

theorem arbSetRun_keeps {w : List Part} {s₀ : State} {fn} {s} (m_arb : Part.arb ∈ w) (m_host : Part.host ∈ w) (m_mbx : Part.mbx ∈ w) (m_regs : Part.regs ∈ w) (h : Keeps w s₀ s) :
    Keeps w s₀ (arbSetRun fn s) := by
  unfold arbSetRun
  repeat' first
    | intro _
    | with_reducible assumption
    | with_reducible (first | apply Keeps.ite | apply setFld_keeps | apply answerOk_keeps)
    | with_reducible (first | fail_if_no_progress apply Keeps.arb m_arb | fail_if_no_progress apply Keeps.host m_host)
    | split
    | dsimp only

theorem execArbSet_keeps {w : List Part} {s₀ : State} {fn} {s} (m_arb : Part.arb ∈ w) (m_host : Part.host ∈ w) (m_mbx : Part.mbx ∈ w) (m_regs : Part.regs ∈ w) (h : Keeps w s₀ s) :
    ∃ t, execArbSet fn s = .next t ∧ Keeps w s₀ t := by
  refine ⟨_, rfl, ?_⟩
  repeat' first
    | intro _
    | with_reducible assumption
    | with_reducible (first | apply Keeps.ite | apply fwRun_keeps | apply arbSetRun_keeps)
    | split
    | dsimp only

theorem counterRun_keeps {w : List Part} {s₀ : State} {fn} {s} (m_host : Part.host ∈ w) (m_mbx : Part.mbx ∈ w) (h : Keeps w s₀ s) :
    Keeps w s₀ (counterRun fn s) := by
  unfold counterRun
  repeat' first
    | intro _
    | with_reducible assumption
    | with_reducible (first | apply Keeps.ite | apply answerOk_keeps)
    | split
    | dsimp only

theorem execCounterRead_keeps {w : List Part} {s₀ : State} {fn} {s} (m_host : Part.host ∈ w) (m_log : Part.log ∈ w) (m_mbx : Part.mbx ∈ w) (m_regs : Part.regs ∈ w) (m_rel : Part.rel ∈ w) (h : Keeps w s₀ s) :
    ∃ t, execCounterRead fn s = .next t ∧ Keeps w s₀ t := by
  refine ⟨_, rfl, ?_⟩
  repeat' first
    | intro _
    | with_reducible assumption
    | with_reducible (first | apply Keeps.ite | apply fwGated_keeps | apply counterRun_keeps)
    | split
    | dsimp only

theorem qpCreateRun_keeps {w : List Part} {s₀ : State} {blk} {fn} {s} (m_host : Part.host ∈ w) (m_mbx : Part.mbx ∈ w) (m_regs : Part.regs ∈ w) (m_rte : Part.rte ∈ w) (h : Keeps w s₀ s) :
    Keeps w s₀ (qpCreateRun blk fn s) := by
  unfold qpCreateRun
  repeat' first
    | intro _
    | with_reducible assumption
    | with_reducible (first | apply Keeps.ite | apply qpMake_keeps | apply answerOk_keeps | apply refuse_keeps)
    | split
    | dsimp only

theorem execQpCreate_keeps {w : List Part} {s₀ : State} {fn} {blk} {s} (m_host : Part.host ∈ w) (m_log : Part.log ∈ w) (m_mbx : Part.mbx ∈ w) (m_regs : Part.regs ∈ w) (m_rel : Part.rel ∈ w) (m_rte : Part.rte ∈ w) (h : Keeps w s₀ s) :
    ∃ t, execQpCreate fn blk s = .next t ∧ Keeps w s₀ t := by
  refine ⟨_, rfl, ?_⟩
  repeat' first
    | intro _
    | with_reducible assumption
    | with_reducible (first | apply Keeps.ite | apply fwGated_keeps | apply qpCreateRun_keeps)
    | split
    | dsimp only

theorem qpDestroyEnd_keeps {w : List Part} {s₀ : State} {s} {fn} (m_host : Part.host ∈ w) (m_mbx : Part.mbx ∈ w) (h : Keeps w s₀ s) :
    Keeps w s₀ (qpDestroyEnd s fn) := by
  unfold qpDestroyEnd
  repeat' first
    | intro _
    | with_reducible assumption
    | with_reducible (first | apply Keeps.ite | apply answerOk_keeps)
    | split
    | dsimp only

theorem execQpDestroy_keeps {w : List Part} {s₀ : State} {fn} {s} (m_dyn : Part.dyn ∈ w) (m_free : Part.free ∈ w) (m_host : Part.host ∈ w) (m_lane : Part.lane ∈ w) (m_log : Part.log ∈ w) (m_mbx : Part.mbx ∈ w) (m_obs : Part.obs ∈ w) (m_regs : Part.regs ∈ w) (m_rel : Part.rel ∈ w) (m_rte : Part.rte ∈ w) (m_trig : Part.trig ∈ w) (h : Keeps w s₀ s) :
    ∃ t, execQpDestroy fn s = .next t ∧ Keeps w s₀ t := by
  refine ⟨_, rfl, ?_⟩
  repeat' first
    | intro _
    | with_reducible assumption
    | with_reducible (first | apply Keeps.ite | apply qpDestroy_keeps | apply begin__keeps | apply fwGated_keeps | apply fwLater_keeps | apply qpDestroyEnd_keeps)
    | split
    | dsimp only

theorem execMrRegister_keeps {w : List Part} {s₀ : State} {fn} {blk} {s} (m_host : Part.host ∈ w) (m_log : Part.log ∈ w) (m_mbx : Part.mbx ∈ w) (m_regs : Part.regs ∈ w) (m_rel : Part.rel ∈ w) (m_rte : Part.rte ∈ w) (h : Keeps w s₀ s) :
    ∃ t, execMrRegister fn blk s = .next t ∧ Keeps w s₀ t := by
  refine ⟨_, rfl, ?_⟩
  repeat' first
    | intro _
    | with_reducible assumption
    | with_reducible (first | apply Keeps.ite | apply mrMake_keeps | apply answerOk_keeps | apply refuse_keeps | apply fwGated_keeps)
    | refine Keeps.of_fst (by with_reducible assumption) ?_
    | split
    | dsimp only

theorem mrDropEnd_keeps {w : List Part} {s₀ : State} {s} {fn} (m_host : Part.host ∈ w) (m_mbx : Part.mbx ∈ w) (h : Keeps w s₀ s) :
    Keeps w s₀ (mrDropEnd s fn) := by
  unfold mrDropEnd
  repeat' first
    | intro _
    | with_reducible assumption
    | with_reducible (first | apply Keeps.ite | apply answerOk_keeps)
    | split
    | dsimp only

theorem execMrDeregister_keeps {w : List Part} {s₀ : State} {fn} {s} (m_host : Part.host ∈ w) (m_log : Part.log ∈ w) (m_mbx : Part.mbx ∈ w) (m_regs : Part.regs ∈ w) (m_rel : Part.rel ∈ w) (m_rte : Part.rte ∈ w) (h : Keeps w s₀ s) :
    ∃ t, execMrDeregister fn s = .next t ∧ Keeps w s₀ t := by
  refine ⟨_, rfl, ?_⟩
  repeat' first
    | intro _
    | with_reducible assumption
    | with_reducible (first | apply Keeps.ite | apply mrDrop_keeps | apply begin__keeps | apply fwGated_keeps | apply fwLater_keeps | apply mrDropEnd_keeps)
    | split
    | dsimp only

theorem execPatternLoad_keeps {w : List Part} {s₀ : State} {fn} {bundle} {s} (m_host : Part.host ∈ w) (m_mbx : Part.mbx ∈ w) (m_rel : Part.rel ∈ w) (h : Keeps w s₀ s) :
    ∃ t, execPatternLoad fn bundle s = .next t ∧ Keeps w s₀ t := by
  refine ⟨_, rfl, ?_⟩
  repeat' first
    | intro _
    | with_reducible assumption
    | with_reducible (first | apply Keeps.ite | apply answerOk_keeps | apply fwRun_keeps)
    | with_reducible (first | fail_if_no_progress apply Keeps.rel m_rel)
    | split
    | dsimp only

theorem execPatternRun_keeps {w : List Part} {s₀ : State} {fn} {fails} {s} (m_host : Part.host ∈ w) (m_lane : Part.lane ∈ w) (m_log : Part.log ∈ w) (m_mbx : Part.mbx ∈ w) (m_regs : Part.regs ∈ w) (m_rel : Part.rel ∈ w) (h : Keeps w s₀ s) :
    ∃ t, execPatternRun fn fails s = .next t ∧ Keeps w s₀ t := by
  refine ⟨_, rfl, ?_⟩
  repeat' first
    | intro _
    | with_reducible assumption
    | with_reducible (first | apply Keeps.ite | apply Keeps.foldl | apply Keeps.foldl_fst | apply Keeps.foldl_snd | apply answerOk_keeps | apply classify_keeps | apply fwRun_keeps)
    | split
    | dsimp only

/-! ### Machine/Idle.lean -/

theorem idleStep_keeps {w : List Part} {s₀ : State} {s} (m_arb : Part.arb ∈ w) (m_boot : Part.boot ∈ w) (m_bus : Part.bus ∈ w) (m_chan : Part.chan ∈ w) (m_clk : Part.clk ∈ w) (m_coll : Part.coll ∈ w) (m_dyn : Part.dyn ∈ w) (m_host : Part.host ∈ w) (m_lane : Part.lane ∈ w) (m_log : Part.log ∈ w) (m_mbx : Part.mbx ∈ w) (m_mem : Part.mem ∈ w) (m_memPoison : Part.memPoison ∈ w) (m_obs : Part.obs ∈ w) (m_parts : Part.parts ∈ w) (m_red : Part.red ∈ w) (m_regs : Part.regs ∈ w) (m_rel : Part.rel ∈ w) (m_rte : Part.rte ∈ w) (m_sch : Part.sch ∈ w) (m_sec : Part.sec ∈ w) (m_slu : Part.slu ∈ w) (m_trig : Part.trig ∈ w) (h : Keeps w s₀ s) :
    Keeps w s₀ (idleStep s) := by
  unfold idleStep
  repeat' first
    | intro _
    | with_reducible assumption
    | with_reducible (first | apply Keeps.ite | apply tick_keeps | apply routersStep_keeps | apply bootStep_keeps)
    | split
    | dsimp only

end Sys2Proof.Machine
end

