-- ==== Sys2Proof/Laws/State.lean ====
section
/-!
SUPPORT. The components each elementary update of the state leaves alone, one lemma a component, so that no proof unfolds a record update.
-/
namespace Sys2Proof.Machine

/-! ### wrReg -/

@[simp] theorem wrReg_pending (s off w) : (wrReg s off w).pending = s.pending := rfl
@[simp] theorem wrReg_clk (s off w) : (wrReg s off w).clk = s.clk := rfl
@[simp] theorem wrReg_free (s off w) : (wrReg s off w).free = s.free := rfl
@[simp] theorem wrReg_mem (s off w) : (wrReg s off w).mem = s.mem := rfl
@[simp] theorem wrReg_memPoison (s off w) : (wrReg s off w).memPoison = s.memPoison := rfl
@[simp] theorem wrReg_bus (s off w) : (wrReg s off w).bus = s.bus := rfl
@[simp] theorem wrReg_log (s off w) : (wrReg s off w).log = s.log := rfl
@[simp] theorem wrReg_dyn (s off w) : (wrReg s off w).dyn = s.dyn := rfl
@[simp] theorem wrReg_sch (s off w) : (wrReg s off w).sch = s.sch := rfl
@[simp] theorem wrReg_arb (s off w) : (wrReg s off w).arb = s.arb := rfl
@[simp] theorem wrReg_trig (s off w) : (wrReg s off w).trig = s.trig := rfl
@[simp] theorem wrReg_red (s off w) : (wrReg s off w).red = s.red := rfl
@[simp] theorem wrReg_coll (s off w) : (wrReg s off w).coll = s.coll := rfl
@[simp] theorem wrReg_slu (s off w) : (wrReg s off w).slu = s.slu := rfl
@[simp] theorem wrReg_chan (s off w) : (wrReg s off w).chan = s.chan := rfl
@[simp] theorem wrReg_host (s off w) : (wrReg s off w).host = s.host := rfl
@[simp] theorem wrReg_rte (s off w) : (wrReg s off w).rte = s.rte := rfl
@[simp] theorem wrReg_sec (s off w) : (wrReg s off w).sec = s.sec := rfl
@[simp] theorem wrReg_lane (s off w) : (wrReg s off w).lane = s.lane := rfl
@[simp] theorem wrReg_rpt (s off w) : (wrReg s off w).rpt = s.rpt := rfl
@[simp] theorem wrReg_mbx (s off w) : (wrReg s off w).mbx = s.mbx := rfl
@[simp] theorem wrReg_parts (s off w) : (wrReg s off w).parts = s.parts := rfl
@[simp] theorem wrReg_boot (s off w) : (wrReg s off w).boot = s.boot := rfl
@[simp] theorem wrReg_rel (s off w) : (wrReg s off w).rel = s.rel := rfl
@[simp] theorem wrReg_obs (s off w) : (wrReg s off w).obs = s.obs := rfl
@[simp] theorem wrReg_notes (s off w) : (wrReg s off w).notes = s.notes := rfl

/-! ### setNote -/

@[simp] theorem setNote_pending (s n) : (setNote s n).pending = s.pending := rfl
@[simp] theorem setNote_clk (s n) : (setNote s n).clk = s.clk := rfl
@[simp] theorem setNote_free (s n) : (setNote s n).free = s.free := rfl
@[simp] theorem setNote_mem (s n) : (setNote s n).mem = s.mem := rfl
@[simp] theorem setNote_memPoison (s n) : (setNote s n).memPoison = s.memPoison := rfl
@[simp] theorem setNote_bus (s n) : (setNote s n).bus = s.bus := rfl
@[simp] theorem setNote_log (s n) : (setNote s n).log = s.log := rfl
@[simp] theorem setNote_dyn (s n) : (setNote s n).dyn = s.dyn := rfl
@[simp] theorem setNote_sch (s n) : (setNote s n).sch = s.sch := rfl
@[simp] theorem setNote_arb (s n) : (setNote s n).arb = s.arb := rfl
@[simp] theorem setNote_trig (s n) : (setNote s n).trig = s.trig := rfl
@[simp] theorem setNote_red (s n) : (setNote s n).red = s.red := rfl
@[simp] theorem setNote_coll (s n) : (setNote s n).coll = s.coll := rfl
@[simp] theorem setNote_slu (s n) : (setNote s n).slu = s.slu := rfl
@[simp] theorem setNote_chan (s n) : (setNote s n).chan = s.chan := rfl
@[simp] theorem setNote_host (s n) : (setNote s n).host = s.host := rfl
@[simp] theorem setNote_rte (s n) : (setNote s n).rte = s.rte := rfl
@[simp] theorem setNote_sec (s n) : (setNote s n).sec = s.sec := rfl
@[simp] theorem setNote_lane (s n) : (setNote s n).lane = s.lane := rfl
@[simp] theorem setNote_rpt (s n) : (setNote s n).rpt = s.rpt := rfl
@[simp] theorem setNote_mbx (s n) : (setNote s n).mbx = s.mbx := rfl
@[simp] theorem setNote_parts (s n) : (setNote s n).parts = s.parts := rfl
@[simp] theorem setNote_boot (s n) : (setNote s n).boot = s.boot := rfl
@[simp] theorem setNote_rel (s n) : (setNote s n).rel = s.rel := rfl
@[simp] theorem setNote_obs (s n) : (setNote s n).obs = s.obs := rfl

/-! ### raise -/

@[simp] theorem raise_pending (s off mask) : (raise s off mask).pending = s.pending := rfl
@[simp] theorem raise_clk (s off mask) : (raise s off mask).clk = s.clk := rfl
@[simp] theorem raise_free (s off mask) : (raise s off mask).free = s.free := rfl
@[simp] theorem raise_mem (s off mask) : (raise s off mask).mem = s.mem := rfl
@[simp] theorem raise_memPoison (s off mask) : (raise s off mask).memPoison = s.memPoison := rfl
@[simp] theorem raise_bus (s off mask) : (raise s off mask).bus = s.bus := rfl
@[simp] theorem raise_log (s off mask) : (raise s off mask).log = s.log := rfl
@[simp] theorem raise_dyn (s off mask) : (raise s off mask).dyn = s.dyn := rfl
@[simp] theorem raise_sch (s off mask) : (raise s off mask).sch = s.sch := rfl
@[simp] theorem raise_arb (s off mask) : (raise s off mask).arb = s.arb := rfl
@[simp] theorem raise_trig (s off mask) : (raise s off mask).trig = s.trig := rfl
@[simp] theorem raise_red (s off mask) : (raise s off mask).red = s.red := rfl
@[simp] theorem raise_coll (s off mask) : (raise s off mask).coll = s.coll := rfl
@[simp] theorem raise_slu (s off mask) : (raise s off mask).slu = s.slu := rfl
@[simp] theorem raise_chan (s off mask) : (raise s off mask).chan = s.chan := rfl
@[simp] theorem raise_host (s off mask) : (raise s off mask).host = s.host := rfl
@[simp] theorem raise_rte (s off mask) : (raise s off mask).rte = s.rte := rfl
@[simp] theorem raise_sec (s off mask) : (raise s off mask).sec = s.sec := rfl
@[simp] theorem raise_lane (s off mask) : (raise s off mask).lane = s.lane := rfl
@[simp] theorem raise_rpt (s off mask) : (raise s off mask).rpt = s.rpt := rfl
@[simp] theorem raise_mbx (s off mask) : (raise s off mask).mbx = s.mbx := rfl
@[simp] theorem raise_parts (s off mask) : (raise s off mask).parts = s.parts := rfl
@[simp] theorem raise_boot (s off mask) : (raise s off mask).boot = s.boot := rfl
@[simp] theorem raise_rel (s off mask) : (raise s off mask).rel = s.rel := rfl
@[simp] theorem raise_obs (s off mask) : (raise s off mask).obs = s.obs := rfl

/-! ### lower -/

@[simp] theorem lower_pending (s off f) : (lower s off f).pending = s.pending := by unfold lower; split <;> rfl
@[simp] theorem lower_clk (s off f) : (lower s off f).clk = s.clk := by unfold lower; split <;> rfl
@[simp] theorem lower_free (s off f) : (lower s off f).free = s.free := by unfold lower; split <;> rfl
@[simp] theorem lower_mem (s off f) : (lower s off f).mem = s.mem := by unfold lower; split <;> rfl
@[simp] theorem lower_memPoison (s off f) : (lower s off f).memPoison = s.memPoison := by unfold lower; split <;> rfl
@[simp] theorem lower_bus (s off f) : (lower s off f).bus = s.bus := by unfold lower; split <;> rfl
@[simp] theorem lower_log (s off f) : (lower s off f).log = s.log := by unfold lower; split <;> rfl
@[simp] theorem lower_dyn (s off f) : (lower s off f).dyn = s.dyn := by unfold lower; split <;> rfl
@[simp] theorem lower_sch (s off f) : (lower s off f).sch = s.sch := by unfold lower; split <;> rfl
@[simp] theorem lower_arb (s off f) : (lower s off f).arb = s.arb := by unfold lower; split <;> rfl
@[simp] theorem lower_trig (s off f) : (lower s off f).trig = s.trig := by unfold lower; split <;> rfl
@[simp] theorem lower_red (s off f) : (lower s off f).red = s.red := by unfold lower; split <;> rfl
@[simp] theorem lower_coll (s off f) : (lower s off f).coll = s.coll := by unfold lower; split <;> rfl
@[simp] theorem lower_slu (s off f) : (lower s off f).slu = s.slu := by unfold lower; split <;> rfl
@[simp] theorem lower_chan (s off f) : (lower s off f).chan = s.chan := by unfold lower; split <;> rfl
@[simp] theorem lower_host (s off f) : (lower s off f).host = s.host := by unfold lower; split <;> rfl
@[simp] theorem lower_rte (s off f) : (lower s off f).rte = s.rte := by unfold lower; split <;> rfl
@[simp] theorem lower_sec (s off f) : (lower s off f).sec = s.sec := by unfold lower; split <;> rfl
@[simp] theorem lower_lane (s off f) : (lower s off f).lane = s.lane := by unfold lower; split <;> rfl
@[simp] theorem lower_rpt (s off f) : (lower s off f).rpt = s.rpt := by unfold lower; split <;> rfl
@[simp] theorem lower_mbx (s off f) : (lower s off f).mbx = s.mbx := by unfold lower; split <;> rfl
@[simp] theorem lower_parts (s off f) : (lower s off f).parts = s.parts := by unfold lower; split <;> rfl
@[simp] theorem lower_boot (s off f) : (lower s off f).boot = s.boot := by unfold lower; split <;> rfl
@[simp] theorem lower_rel (s off f) : (lower s off f).rel = s.rel := by unfold lower; split <;> rfl
@[simp] theorem lower_obs (s off f) : (lower s off f).obs = s.obs := by unfold lower; split <;> rfl

/-! ### setFld -/

@[simp] theorem setFld_pending (s off f v) : (setFld s off f v).pending = s.pending := rfl
@[simp] theorem setFld_clk (s off f v) : (setFld s off f v).clk = s.clk := rfl
@[simp] theorem setFld_free (s off f v) : (setFld s off f v).free = s.free := rfl
@[simp] theorem setFld_mem (s off f v) : (setFld s off f v).mem = s.mem := rfl
@[simp] theorem setFld_memPoison (s off f v) : (setFld s off f v).memPoison = s.memPoison := rfl
@[simp] theorem setFld_bus (s off f v) : (setFld s off f v).bus = s.bus := rfl
@[simp] theorem setFld_log (s off f v) : (setFld s off f v).log = s.log := rfl
@[simp] theorem setFld_dyn (s off f v) : (setFld s off f v).dyn = s.dyn := rfl
@[simp] theorem setFld_sch (s off f v) : (setFld s off f v).sch = s.sch := rfl
@[simp] theorem setFld_arb (s off f v) : (setFld s off f v).arb = s.arb := rfl
@[simp] theorem setFld_trig (s off f v) : (setFld s off f v).trig = s.trig := rfl
@[simp] theorem setFld_red (s off f v) : (setFld s off f v).red = s.red := rfl
@[simp] theorem setFld_coll (s off f v) : (setFld s off f v).coll = s.coll := rfl
@[simp] theorem setFld_slu (s off f v) : (setFld s off f v).slu = s.slu := rfl
@[simp] theorem setFld_chan (s off f v) : (setFld s off f v).chan = s.chan := rfl
@[simp] theorem setFld_host (s off f v) : (setFld s off f v).host = s.host := rfl
@[simp] theorem setFld_rte (s off f v) : (setFld s off f v).rte = s.rte := rfl
@[simp] theorem setFld_sec (s off f v) : (setFld s off f v).sec = s.sec := rfl
@[simp] theorem setFld_lane (s off f v) : (setFld s off f v).lane = s.lane := rfl
@[simp] theorem setFld_rpt (s off f v) : (setFld s off f v).rpt = s.rpt := rfl
@[simp] theorem setFld_mbx (s off f v) : (setFld s off f v).mbx = s.mbx := rfl
@[simp] theorem setFld_parts (s off f v) : (setFld s off f v).parts = s.parts := rfl
@[simp] theorem setFld_boot (s off f v) : (setFld s off f v).boot = s.boot := rfl
@[simp] theorem setFld_rel (s off f v) : (setFld s off f v).rel = s.rel := rfl
@[simp] theorem setFld_obs (s off f v) : (setFld s off f v).obs = s.obs := rfl
@[simp] theorem setFld_notes (s off f v) : (setFld s off f v).notes = s.notes := rfl

/-! ### bump -/

@[simp] theorem bump_pending (s off f n) : (bump s off f n).pending = s.pending := rfl
@[simp] theorem bump_clk (s off f n) : (bump s off f n).clk = s.clk := rfl
@[simp] theorem bump_free (s off f n) : (bump s off f n).free = s.free := rfl
@[simp] theorem bump_mem (s off f n) : (bump s off f n).mem = s.mem := rfl
@[simp] theorem bump_memPoison (s off f n) : (bump s off f n).memPoison = s.memPoison := rfl
@[simp] theorem bump_bus (s off f n) : (bump s off f n).bus = s.bus := rfl
@[simp] theorem bump_log (s off f n) : (bump s off f n).log = s.log := rfl
@[simp] theorem bump_dyn (s off f n) : (bump s off f n).dyn = s.dyn := rfl
@[simp] theorem bump_sch (s off f n) : (bump s off f n).sch = s.sch := rfl
@[simp] theorem bump_arb (s off f n) : (bump s off f n).arb = s.arb := rfl
@[simp] theorem bump_trig (s off f n) : (bump s off f n).trig = s.trig := rfl
@[simp] theorem bump_red (s off f n) : (bump s off f n).red = s.red := rfl
@[simp] theorem bump_coll (s off f n) : (bump s off f n).coll = s.coll := rfl
@[simp] theorem bump_slu (s off f n) : (bump s off f n).slu = s.slu := rfl
@[simp] theorem bump_chan (s off f n) : (bump s off f n).chan = s.chan := rfl
@[simp] theorem bump_host (s off f n) : (bump s off f n).host = s.host := rfl
@[simp] theorem bump_rte (s off f n) : (bump s off f n).rte = s.rte := rfl
@[simp] theorem bump_sec (s off f n) : (bump s off f n).sec = s.sec := rfl
@[simp] theorem bump_lane (s off f n) : (bump s off f n).lane = s.lane := rfl
@[simp] theorem bump_rpt (s off f n) : (bump s off f n).rpt = s.rpt := rfl
@[simp] theorem bump_mbx (s off f n) : (bump s off f n).mbx = s.mbx := rfl
@[simp] theorem bump_parts (s off f n) : (bump s off f n).parts = s.parts := rfl
@[simp] theorem bump_boot (s off f n) : (bump s off f n).boot = s.boot := rfl
@[simp] theorem bump_rel (s off f n) : (bump s off f n).rel = s.rel := rfl
@[simp] theorem bump_obs (s off f n) : (bump s off f n).obs = s.obs := rfl
@[simp] theorem bump_notes (s off f n) : (bump s off f n).notes = s.notes := rfl

/-! ### bumpSat -/

@[simp] theorem bumpSat_pending (s off f n) : (bumpSat s off f n).pending = s.pending := rfl
@[simp] theorem bumpSat_clk (s off f n) : (bumpSat s off f n).clk = s.clk := rfl
@[simp] theorem bumpSat_free (s off f n) : (bumpSat s off f n).free = s.free := rfl
@[simp] theorem bumpSat_mem (s off f n) : (bumpSat s off f n).mem = s.mem := rfl
@[simp] theorem bumpSat_memPoison (s off f n) : (bumpSat s off f n).memPoison = s.memPoison := rfl
@[simp] theorem bumpSat_bus (s off f n) : (bumpSat s off f n).bus = s.bus := rfl
@[simp] theorem bumpSat_log (s off f n) : (bumpSat s off f n).log = s.log := rfl
@[simp] theorem bumpSat_dyn (s off f n) : (bumpSat s off f n).dyn = s.dyn := rfl
@[simp] theorem bumpSat_sch (s off f n) : (bumpSat s off f n).sch = s.sch := rfl
@[simp] theorem bumpSat_arb (s off f n) : (bumpSat s off f n).arb = s.arb := rfl
@[simp] theorem bumpSat_trig (s off f n) : (bumpSat s off f n).trig = s.trig := rfl
@[simp] theorem bumpSat_red (s off f n) : (bumpSat s off f n).red = s.red := rfl
@[simp] theorem bumpSat_coll (s off f n) : (bumpSat s off f n).coll = s.coll := rfl
@[simp] theorem bumpSat_slu (s off f n) : (bumpSat s off f n).slu = s.slu := rfl
@[simp] theorem bumpSat_chan (s off f n) : (bumpSat s off f n).chan = s.chan := rfl
@[simp] theorem bumpSat_host (s off f n) : (bumpSat s off f n).host = s.host := rfl
@[simp] theorem bumpSat_rte (s off f n) : (bumpSat s off f n).rte = s.rte := rfl
@[simp] theorem bumpSat_sec (s off f n) : (bumpSat s off f n).sec = s.sec := rfl
@[simp] theorem bumpSat_lane (s off f n) : (bumpSat s off f n).lane = s.lane := rfl
@[simp] theorem bumpSat_rpt (s off f n) : (bumpSat s off f n).rpt = s.rpt := rfl
@[simp] theorem bumpSat_mbx (s off f n) : (bumpSat s off f n).mbx = s.mbx := rfl
@[simp] theorem bumpSat_parts (s off f n) : (bumpSat s off f n).parts = s.parts := rfl
@[simp] theorem bumpSat_boot (s off f n) : (bumpSat s off f n).boot = s.boot := rfl
@[simp] theorem bumpSat_rel (s off f n) : (bumpSat s off f n).rel = s.rel := rfl
@[simp] theorem bumpSat_obs (s off f n) : (bumpSat s off f n).obs = s.obs := rfl
@[simp] theorem bumpSat_notes (s off f n) : (bumpSat s off f n).notes = s.notes := rfl

/-! ### softWrite -/

@[simp] theorem softWrite_pending (s off v) : (softWrite s off v).pending = s.pending := by unfold softWrite; dsimp only; split <;> rfl
@[simp] theorem softWrite_clk (s off v) : (softWrite s off v).clk = s.clk := by unfold softWrite; dsimp only; split <;> rfl
@[simp] theorem softWrite_free (s off v) : (softWrite s off v).free = s.free := by unfold softWrite; dsimp only; split <;> rfl
@[simp] theorem softWrite_mem (s off v) : (softWrite s off v).mem = s.mem := by unfold softWrite; dsimp only; split <;> rfl
@[simp] theorem softWrite_memPoison (s off v) : (softWrite s off v).memPoison = s.memPoison := by unfold softWrite; dsimp only; split <;> rfl
@[simp] theorem softWrite_bus (s off v) : (softWrite s off v).bus = s.bus := by unfold softWrite; dsimp only; split <;> rfl
@[simp] theorem softWrite_log (s off v) : (softWrite s off v).log = s.log := by unfold softWrite; dsimp only; split <;> rfl
@[simp] theorem softWrite_dyn (s off v) : (softWrite s off v).dyn = s.dyn := by unfold softWrite; dsimp only; split <;> rfl
@[simp] theorem softWrite_sch (s off v) : (softWrite s off v).sch = s.sch := by unfold softWrite; dsimp only; split <;> rfl
@[simp] theorem softWrite_arb (s off v) : (softWrite s off v).arb = s.arb := by unfold softWrite; dsimp only; split <;> rfl
@[simp] theorem softWrite_trig (s off v) : (softWrite s off v).trig = s.trig := by unfold softWrite; dsimp only; split <;> rfl
@[simp] theorem softWrite_red (s off v) : (softWrite s off v).red = s.red := by unfold softWrite; dsimp only; split <;> rfl
@[simp] theorem softWrite_coll (s off v) : (softWrite s off v).coll = s.coll := by unfold softWrite; dsimp only; split <;> rfl
@[simp] theorem softWrite_slu (s off v) : (softWrite s off v).slu = s.slu := by unfold softWrite; dsimp only; split <;> rfl
@[simp] theorem softWrite_chan (s off v) : (softWrite s off v).chan = s.chan := by unfold softWrite; dsimp only; split <;> rfl
@[simp] theorem softWrite_host (s off v) : (softWrite s off v).host = s.host := by unfold softWrite; dsimp only; split <;> rfl
@[simp] theorem softWrite_rte (s off v) : (softWrite s off v).rte = s.rte := by unfold softWrite; dsimp only; split <;> rfl
@[simp] theorem softWrite_sec (s off v) : (softWrite s off v).sec = s.sec := by unfold softWrite; dsimp only; split <;> rfl
@[simp] theorem softWrite_lane (s off v) : (softWrite s off v).lane = s.lane := by unfold softWrite; dsimp only; split <;> rfl
@[simp] theorem softWrite_rpt (s off v) : (softWrite s off v).rpt = s.rpt := by unfold softWrite; dsimp only; split <;> rfl
@[simp] theorem softWrite_mbx (s off v) : (softWrite s off v).mbx = s.mbx := by unfold softWrite; dsimp only; split <;> rfl
@[simp] theorem softWrite_parts (s off v) : (softWrite s off v).parts = s.parts := by unfold softWrite; dsimp only; split <;> rfl
@[simp] theorem softWrite_boot (s off v) : (softWrite s off v).boot = s.boot := by unfold softWrite; dsimp only; split <;> rfl
@[simp] theorem softWrite_rel (s off v) : (softWrite s off v).rel = s.rel := by unfold softWrite; dsimp only; split <;> rfl
@[simp] theorem softWrite_obs (s off v) : (softWrite s off v).obs = s.obs := by unfold softWrite; dsimp only; split <;> rfl

/-! ### writeByte -/

@[simp] theorem writeByte_pending (s a b) : (writeByte s a b).pending = s.pending := rfl
@[simp] theorem writeByte_clk (s a b) : (writeByte s a b).clk = s.clk := rfl
@[simp] theorem writeByte_free (s a b) : (writeByte s a b).free = s.free := rfl
@[simp] theorem writeByte_regs (s a b) : (writeByte s a b).regs = s.regs := rfl
@[simp] theorem writeByte_memPoison (s a b) : (writeByte s a b).memPoison = s.memPoison := rfl
@[simp] theorem writeByte_bus (s a b) : (writeByte s a b).bus = s.bus := rfl
@[simp] theorem writeByte_log (s a b) : (writeByte s a b).log = s.log := rfl
@[simp] theorem writeByte_dyn (s a b) : (writeByte s a b).dyn = s.dyn := rfl
@[simp] theorem writeByte_sch (s a b) : (writeByte s a b).sch = s.sch := rfl
@[simp] theorem writeByte_arb (s a b) : (writeByte s a b).arb = s.arb := rfl
@[simp] theorem writeByte_trig (s a b) : (writeByte s a b).trig = s.trig := rfl
@[simp] theorem writeByte_red (s a b) : (writeByte s a b).red = s.red := rfl
@[simp] theorem writeByte_coll (s a b) : (writeByte s a b).coll = s.coll := rfl
@[simp] theorem writeByte_slu (s a b) : (writeByte s a b).slu = s.slu := rfl
@[simp] theorem writeByte_chan (s a b) : (writeByte s a b).chan = s.chan := rfl
@[simp] theorem writeByte_host (s a b) : (writeByte s a b).host = s.host := rfl
@[simp] theorem writeByte_rte (s a b) : (writeByte s a b).rte = s.rte := rfl
@[simp] theorem writeByte_sec (s a b) : (writeByte s a b).sec = s.sec := rfl
@[simp] theorem writeByte_lane (s a b) : (writeByte s a b).lane = s.lane := rfl
@[simp] theorem writeByte_rpt (s a b) : (writeByte s a b).rpt = s.rpt := rfl
@[simp] theorem writeByte_mbx (s a b) : (writeByte s a b).mbx = s.mbx := rfl
@[simp] theorem writeByte_parts (s a b) : (writeByte s a b).parts = s.parts := rfl
@[simp] theorem writeByte_boot (s a b) : (writeByte s a b).boot = s.boot := rfl
@[simp] theorem writeByte_rel (s a b) : (writeByte s a b).rel = s.rel := rfl
@[simp] theorem writeByte_obs (s a b) : (writeByte s a b).obs = s.obs := rfl
@[simp] theorem writeByte_notes (s a b) : (writeByte s a b).notes = s.notes := rfl

/-! ### addCtr -/

@[simp] theorem addCtr_pending (s off n fail) : (addCtr s off n fail).pending = s.pending := rfl
@[simp] theorem addCtr_clk (s off n fail) : (addCtr s off n fail).clk = s.clk := rfl
@[simp] theorem addCtr_free (s off n fail) : (addCtr s off n fail).free = s.free := rfl
@[simp] theorem addCtr_regs (s off n fail) : (addCtr s off n fail).regs = s.regs := rfl
@[simp] theorem addCtr_mem (s off n fail) : (addCtr s off n fail).mem = s.mem := rfl
@[simp] theorem addCtr_memPoison (s off n fail) : (addCtr s off n fail).memPoison = s.memPoison := rfl
@[simp] theorem addCtr_bus (s off n fail) : (addCtr s off n fail).bus = s.bus := rfl
@[simp] theorem addCtr_log (s off n fail) : (addCtr s off n fail).log = s.log := rfl
@[simp] theorem addCtr_dyn (s off n fail) : (addCtr s off n fail).dyn = s.dyn := rfl
@[simp] theorem addCtr_sch (s off n fail) : (addCtr s off n fail).sch = s.sch := rfl
@[simp] theorem addCtr_arb (s off n fail) : (addCtr s off n fail).arb = s.arb := rfl
@[simp] theorem addCtr_red (s off n fail) : (addCtr s off n fail).red = s.red := rfl
@[simp] theorem addCtr_coll (s off n fail) : (addCtr s off n fail).coll = s.coll := rfl
@[simp] theorem addCtr_slu (s off n fail) : (addCtr s off n fail).slu = s.slu := rfl
@[simp] theorem addCtr_chan (s off n fail) : (addCtr s off n fail).chan = s.chan := rfl
@[simp] theorem addCtr_host (s off n fail) : (addCtr s off n fail).host = s.host := rfl
@[simp] theorem addCtr_rte (s off n fail) : (addCtr s off n fail).rte = s.rte := rfl
@[simp] theorem addCtr_sec (s off n fail) : (addCtr s off n fail).sec = s.sec := rfl
@[simp] theorem addCtr_lane (s off n fail) : (addCtr s off n fail).lane = s.lane := rfl
@[simp] theorem addCtr_rpt (s off n fail) : (addCtr s off n fail).rpt = s.rpt := rfl
@[simp] theorem addCtr_mbx (s off n fail) : (addCtr s off n fail).mbx = s.mbx := rfl
@[simp] theorem addCtr_parts (s off n fail) : (addCtr s off n fail).parts = s.parts := rfl
@[simp] theorem addCtr_boot (s off n fail) : (addCtr s off n fail).boot = s.boot := rfl
@[simp] theorem addCtr_rel (s off n fail) : (addCtr s off n fail).rel = s.rel := rfl
@[simp] theorem addCtr_obs (s off n fail) : (addCtr s off n fail).obs = s.obs := rfl
@[simp] theorem addCtr_notes (s off n fail) : (addCtr s off n fail).notes = s.notes := rfl

/-! ### takeNet -/

@[simp] theorem takeNet_pending (s p) : (takeNet s p).pending = s.pending := rfl
@[simp] theorem takeNet_clk (s p) : (takeNet s p).clk = s.clk := rfl
@[simp] theorem takeNet_free (s p) : (takeNet s p).free = s.free := rfl
@[simp] theorem takeNet_regs (s p) : (takeNet s p).regs = s.regs := rfl
@[simp] theorem takeNet_mem (s p) : (takeNet s p).mem = s.mem := rfl
@[simp] theorem takeNet_memPoison (s p) : (takeNet s p).memPoison = s.memPoison := rfl
@[simp] theorem takeNet_bus (s p) : (takeNet s p).bus = s.bus := rfl
@[simp] theorem takeNet_log (s p) : (takeNet s p).log = s.log := rfl
@[simp] theorem takeNet_sch (s p) : (takeNet s p).sch = s.sch := rfl
@[simp] theorem takeNet_arb (s p) : (takeNet s p).arb = s.arb := rfl
@[simp] theorem takeNet_trig (s p) : (takeNet s p).trig = s.trig := rfl
@[simp] theorem takeNet_red (s p) : (takeNet s p).red = s.red := rfl
@[simp] theorem takeNet_coll (s p) : (takeNet s p).coll = s.coll := rfl
@[simp] theorem takeNet_slu (s p) : (takeNet s p).slu = s.slu := rfl
@[simp] theorem takeNet_chan (s p) : (takeNet s p).chan = s.chan := rfl
@[simp] theorem takeNet_host (s p) : (takeNet s p).host = s.host := rfl
@[simp] theorem takeNet_rte (s p) : (takeNet s p).rte = s.rte := rfl
@[simp] theorem takeNet_sec (s p) : (takeNet s p).sec = s.sec := rfl
@[simp] theorem takeNet_lane (s p) : (takeNet s p).lane = s.lane := rfl
@[simp] theorem takeNet_rpt (s p) : (takeNet s p).rpt = s.rpt := rfl
@[simp] theorem takeNet_mbx (s p) : (takeNet s p).mbx = s.mbx := rfl
@[simp] theorem takeNet_parts (s p) : (takeNet s p).parts = s.parts := rfl
@[simp] theorem takeNet_boot (s p) : (takeNet s p).boot = s.boot := rfl
@[simp] theorem takeNet_rel (s p) : (takeNet s p).rel = s.rel := rfl
@[simp] theorem takeNet_obs (s p) : (takeNet s p).obs = s.obs := rfl
@[simp] theorem takeNet_notes (s p) : (takeNet s p).notes = s.notes := rfl

/-! ### allotBack -/

@[simp] theorem allotBack_pending (s src dst) : (allotBack s src dst).pending = s.pending := rfl
@[simp] theorem allotBack_clk (s src dst) : (allotBack s src dst).clk = s.clk := rfl
@[simp] theorem allotBack_free (s src dst) : (allotBack s src dst).free = s.free := rfl
@[simp] theorem allotBack_regs (s src dst) : (allotBack s src dst).regs = s.regs := rfl
@[simp] theorem allotBack_mem (s src dst) : (allotBack s src dst).mem = s.mem := rfl
@[simp] theorem allotBack_memPoison (s src dst) : (allotBack s src dst).memPoison = s.memPoison := rfl
@[simp] theorem allotBack_bus (s src dst) : (allotBack s src dst).bus = s.bus := rfl
@[simp] theorem allotBack_log (s src dst) : (allotBack s src dst).log = s.log := rfl
@[simp] theorem allotBack_sch (s src dst) : (allotBack s src dst).sch = s.sch := rfl
@[simp] theorem allotBack_arb (s src dst) : (allotBack s src dst).arb = s.arb := rfl
@[simp] theorem allotBack_trig (s src dst) : (allotBack s src dst).trig = s.trig := rfl
@[simp] theorem allotBack_red (s src dst) : (allotBack s src dst).red = s.red := rfl
@[simp] theorem allotBack_coll (s src dst) : (allotBack s src dst).coll = s.coll := rfl
@[simp] theorem allotBack_slu (s src dst) : (allotBack s src dst).slu = s.slu := rfl
@[simp] theorem allotBack_chan (s src dst) : (allotBack s src dst).chan = s.chan := rfl
@[simp] theorem allotBack_host (s src dst) : (allotBack s src dst).host = s.host := rfl
@[simp] theorem allotBack_rte (s src dst) : (allotBack s src dst).rte = s.rte := rfl
@[simp] theorem allotBack_sec (s src dst) : (allotBack s src dst).sec = s.sec := rfl
@[simp] theorem allotBack_lane (s src dst) : (allotBack s src dst).lane = s.lane := rfl
@[simp] theorem allotBack_rpt (s src dst) : (allotBack s src dst).rpt = s.rpt := rfl
@[simp] theorem allotBack_mbx (s src dst) : (allotBack s src dst).mbx = s.mbx := rfl
@[simp] theorem allotBack_parts (s src dst) : (allotBack s src dst).parts = s.parts := rfl
@[simp] theorem allotBack_boot (s src dst) : (allotBack s src dst).boot = s.boot := rfl
@[simp] theorem allotBack_rel (s src dst) : (allotBack s src dst).rel = s.rel := rfl
@[simp] theorem allotBack_obs (s src dst) : (allotBack s src dst).obs = s.obs := rfl
@[simp] theorem allotBack_notes (s src dst) : (allotBack s src dst).notes = s.notes := rfl

/-! ### setRing -/

@[simp] theorem setRing_pending (s fn r x) : (setRing s fn r x).pending = s.pending := rfl
@[simp] theorem setRing_clk (s fn r x) : (setRing s fn r x).clk = s.clk := rfl
@[simp] theorem setRing_free (s fn r x) : (setRing s fn r x).free = s.free := rfl
@[simp] theorem setRing_regs (s fn r x) : (setRing s fn r x).regs = s.regs := rfl
@[simp] theorem setRing_mem (s fn r x) : (setRing s fn r x).mem = s.mem := rfl
@[simp] theorem setRing_memPoison (s fn r x) : (setRing s fn r x).memPoison = s.memPoison := rfl
@[simp] theorem setRing_bus (s fn r x) : (setRing s fn r x).bus = s.bus := rfl
@[simp] theorem setRing_log (s fn r x) : (setRing s fn r x).log = s.log := rfl
@[simp] theorem setRing_dyn (s fn r x) : (setRing s fn r x).dyn = s.dyn := rfl
@[simp] theorem setRing_sch (s fn r x) : (setRing s fn r x).sch = s.sch := rfl
@[simp] theorem setRing_arb (s fn r x) : (setRing s fn r x).arb = s.arb := rfl
@[simp] theorem setRing_trig (s fn r x) : (setRing s fn r x).trig = s.trig := rfl
@[simp] theorem setRing_red (s fn r x) : (setRing s fn r x).red = s.red := rfl
@[simp] theorem setRing_coll (s fn r x) : (setRing s fn r x).coll = s.coll := rfl
@[simp] theorem setRing_slu (s fn r x) : (setRing s fn r x).slu = s.slu := rfl
@[simp] theorem setRing_chan (s fn r x) : (setRing s fn r x).chan = s.chan := rfl
@[simp] theorem setRing_rte (s fn r x) : (setRing s fn r x).rte = s.rte := rfl
@[simp] theorem setRing_sec (s fn r x) : (setRing s fn r x).sec = s.sec := rfl
@[simp] theorem setRing_lane (s fn r x) : (setRing s fn r x).lane = s.lane := rfl
@[simp] theorem setRing_rpt (s fn r x) : (setRing s fn r x).rpt = s.rpt := rfl
@[simp] theorem setRing_mbx (s fn r x) : (setRing s fn r x).mbx = s.mbx := rfl
@[simp] theorem setRing_parts (s fn r x) : (setRing s fn r x).parts = s.parts := rfl
@[simp] theorem setRing_boot (s fn r x) : (setRing s fn r x).boot = s.boot := rfl
@[simp] theorem setRing_rel (s fn r x) : (setRing s fn r x).rel = s.rel := rfl
@[simp] theorem setRing_obs (s fn r x) : (setRing s fn r x).obs = s.obs := rfl
@[simp] theorem setRing_notes (s fn r x) : (setRing s fn r x).notes = s.notes := rfl

/-! ### setCq -/

@[simp] theorem setCq_pending (s fn q x) : (setCq s fn q x).pending = s.pending := rfl
@[simp] theorem setCq_clk (s fn q x) : (setCq s fn q x).clk = s.clk := rfl
@[simp] theorem setCq_free (s fn q x) : (setCq s fn q x).free = s.free := rfl
@[simp] theorem setCq_regs (s fn q x) : (setCq s fn q x).regs = s.regs := rfl
@[simp] theorem setCq_mem (s fn q x) : (setCq s fn q x).mem = s.mem := rfl
@[simp] theorem setCq_memPoison (s fn q x) : (setCq s fn q x).memPoison = s.memPoison := rfl
@[simp] theorem setCq_bus (s fn q x) : (setCq s fn q x).bus = s.bus := rfl
@[simp] theorem setCq_log (s fn q x) : (setCq s fn q x).log = s.log := rfl
@[simp] theorem setCq_dyn (s fn q x) : (setCq s fn q x).dyn = s.dyn := rfl
@[simp] theorem setCq_sch (s fn q x) : (setCq s fn q x).sch = s.sch := rfl
@[simp] theorem setCq_arb (s fn q x) : (setCq s fn q x).arb = s.arb := rfl
@[simp] theorem setCq_trig (s fn q x) : (setCq s fn q x).trig = s.trig := rfl
@[simp] theorem setCq_red (s fn q x) : (setCq s fn q x).red = s.red := rfl
@[simp] theorem setCq_coll (s fn q x) : (setCq s fn q x).coll = s.coll := rfl
@[simp] theorem setCq_slu (s fn q x) : (setCq s fn q x).slu = s.slu := rfl
@[simp] theorem setCq_chan (s fn q x) : (setCq s fn q x).chan = s.chan := rfl
@[simp] theorem setCq_rte (s fn q x) : (setCq s fn q x).rte = s.rte := rfl
@[simp] theorem setCq_sec (s fn q x) : (setCq s fn q x).sec = s.sec := rfl
@[simp] theorem setCq_lane (s fn q x) : (setCq s fn q x).lane = s.lane := rfl
@[simp] theorem setCq_rpt (s fn q x) : (setCq s fn q x).rpt = s.rpt := rfl
@[simp] theorem setCq_mbx (s fn q x) : (setCq s fn q x).mbx = s.mbx := rfl
@[simp] theorem setCq_parts (s fn q x) : (setCq s fn q x).parts = s.parts := rfl
@[simp] theorem setCq_boot (s fn q x) : (setCq s fn q x).boot = s.boot := rfl
@[simp] theorem setCq_rel (s fn q x) : (setCq s fn q x).rel = s.rel := rfl
@[simp] theorem setCq_obs (s fn q x) : (setCq s fn q x).obs = s.obs := rfl
@[simp] theorem setCq_notes (s fn q x) : (setCq s fn q x).notes = s.notes := rfl

/-! ### updCmd -/

@[simp] theorem updCmd_pending (s id f) : (updCmd s id f).pending = s.pending := rfl
@[simp] theorem updCmd_clk (s id f) : (updCmd s id f).clk = s.clk := rfl
@[simp] theorem updCmd_free (s id f) : (updCmd s id f).free = s.free := rfl
@[simp] theorem updCmd_regs (s id f) : (updCmd s id f).regs = s.regs := rfl
@[simp] theorem updCmd_mem (s id f) : (updCmd s id f).mem = s.mem := rfl
@[simp] theorem updCmd_memPoison (s id f) : (updCmd s id f).memPoison = s.memPoison := rfl
@[simp] theorem updCmd_bus (s id f) : (updCmd s id f).bus = s.bus := rfl
@[simp] theorem updCmd_log (s id f) : (updCmd s id f).log = s.log := rfl
@[simp] theorem updCmd_dyn (s id f) : (updCmd s id f).dyn = s.dyn := rfl
@[simp] theorem updCmd_sch (s id f) : (updCmd s id f).sch = s.sch := rfl
@[simp] theorem updCmd_arb (s id f) : (updCmd s id f).arb = s.arb := rfl
@[simp] theorem updCmd_trig (s id f) : (updCmd s id f).trig = s.trig := rfl
@[simp] theorem updCmd_red (s id f) : (updCmd s id f).red = s.red := rfl
@[simp] theorem updCmd_coll (s id f) : (updCmd s id f).coll = s.coll := rfl
@[simp] theorem updCmd_slu (s id f) : (updCmd s id f).slu = s.slu := rfl
@[simp] theorem updCmd_chan (s id f) : (updCmd s id f).chan = s.chan := rfl
@[simp] theorem updCmd_rte (s id f) : (updCmd s id f).rte = s.rte := rfl
@[simp] theorem updCmd_sec (s id f) : (updCmd s id f).sec = s.sec := rfl
@[simp] theorem updCmd_lane (s id f) : (updCmd s id f).lane = s.lane := rfl
@[simp] theorem updCmd_rpt (s id f) : (updCmd s id f).rpt = s.rpt := rfl
@[simp] theorem updCmd_mbx (s id f) : (updCmd s id f).mbx = s.mbx := rfl
@[simp] theorem updCmd_parts (s id f) : (updCmd s id f).parts = s.parts := rfl
@[simp] theorem updCmd_boot (s id f) : (updCmd s id f).boot = s.boot := rfl
@[simp] theorem updCmd_rel (s id f) : (updCmd s id f).rel = s.rel := rfl
@[simp] theorem updCmd_obs (s id f) : (updCmd s id f).obs = s.obs := rfl
@[simp] theorem updCmd_notes (s id f) : (updCmd s id f).notes = s.notes := rfl

/-! ### spTake -/

@[simp] theorem spTake_pending (s m) : (spTake s m).pending = s.pending := rfl
@[simp] theorem spTake_clk (s m) : (spTake s m).clk = s.clk := rfl
@[simp] theorem spTake_free (s m) : (spTake s m).free = s.free := rfl
@[simp] theorem spTake_regs (s m) : (spTake s m).regs = s.regs := rfl
@[simp] theorem spTake_mem (s m) : (spTake s m).mem = s.mem := rfl
@[simp] theorem spTake_memPoison (s m) : (spTake s m).memPoison = s.memPoison := rfl
@[simp] theorem spTake_bus (s m) : (spTake s m).bus = s.bus := rfl
@[simp] theorem spTake_log (s m) : (spTake s m).log = s.log := rfl
@[simp] theorem spTake_dyn (s m) : (spTake s m).dyn = s.dyn := rfl
@[simp] theorem spTake_sch (s m) : (spTake s m).sch = s.sch := rfl
@[simp] theorem spTake_arb (s m) : (spTake s m).arb = s.arb := rfl
@[simp] theorem spTake_trig (s m) : (spTake s m).trig = s.trig := rfl
@[simp] theorem spTake_red (s m) : (spTake s m).red = s.red := rfl
@[simp] theorem spTake_slu (s m) : (spTake s m).slu = s.slu := rfl
@[simp] theorem spTake_chan (s m) : (spTake s m).chan = s.chan := rfl
@[simp] theorem spTake_host (s m) : (spTake s m).host = s.host := rfl
@[simp] theorem spTake_rte (s m) : (spTake s m).rte = s.rte := rfl
@[simp] theorem spTake_sec (s m) : (spTake s m).sec = s.sec := rfl
@[simp] theorem spTake_lane (s m) : (spTake s m).lane = s.lane := rfl
@[simp] theorem spTake_rpt (s m) : (spTake s m).rpt = s.rpt := rfl
@[simp] theorem spTake_mbx (s m) : (spTake s m).mbx = s.mbx := rfl
@[simp] theorem spTake_parts (s m) : (spTake s m).parts = s.parts := rfl
@[simp] theorem spTake_boot (s m) : (spTake s m).boot = s.boot := rfl
@[simp] theorem spTake_rel (s m) : (spTake s m).rel = s.rel := rfl
@[simp] theorem spTake_obs (s m) : (spTake s m).obs = s.obs := rfl
@[simp] theorem spTake_notes (s m) : (spTake s m).notes = s.notes := rfl

/-! ### setTen -/

@[simp] theorem setTen_pending (s t x) : (setTen s t x).pending = s.pending := rfl
@[simp] theorem setTen_clk (s t x) : (setTen s t x).clk = s.clk := rfl
@[simp] theorem setTen_free (s t x) : (setTen s t x).free = s.free := rfl
@[simp] theorem setTen_regs (s t x) : (setTen s t x).regs = s.regs := rfl
@[simp] theorem setTen_mem (s t x) : (setTen s t x).mem = s.mem := rfl
@[simp] theorem setTen_memPoison (s t x) : (setTen s t x).memPoison = s.memPoison := rfl
@[simp] theorem setTen_bus (s t x) : (setTen s t x).bus = s.bus := rfl
@[simp] theorem setTen_log (s t x) : (setTen s t x).log = s.log := rfl
@[simp] theorem setTen_dyn (s t x) : (setTen s t x).dyn = s.dyn := rfl
@[simp] theorem setTen_arb (s t x) : (setTen s t x).arb = s.arb := rfl
@[simp] theorem setTen_trig (s t x) : (setTen s t x).trig = s.trig := rfl
@[simp] theorem setTen_red (s t x) : (setTen s t x).red = s.red := rfl
@[simp] theorem setTen_coll (s t x) : (setTen s t x).coll = s.coll := rfl
@[simp] theorem setTen_slu (s t x) : (setTen s t x).slu = s.slu := rfl
@[simp] theorem setTen_chan (s t x) : (setTen s t x).chan = s.chan := rfl
@[simp] theorem setTen_host (s t x) : (setTen s t x).host = s.host := rfl
@[simp] theorem setTen_rte (s t x) : (setTen s t x).rte = s.rte := rfl
@[simp] theorem setTen_sec (s t x) : (setTen s t x).sec = s.sec := rfl
@[simp] theorem setTen_lane (s t x) : (setTen s t x).lane = s.lane := rfl
@[simp] theorem setTen_rpt (s t x) : (setTen s t x).rpt = s.rpt := rfl
@[simp] theorem setTen_mbx (s t x) : (setTen s t x).mbx = s.mbx := rfl
@[simp] theorem setTen_parts (s t x) : (setTen s t x).parts = s.parts := rfl
@[simp] theorem setTen_boot (s t x) : (setTen s t x).boot = s.boot := rfl
@[simp] theorem setTen_rel (s t x) : (setTen s t x).rel = s.rel := rfl
@[simp] theorem setTen_obs (s t x) : (setTen s t x).obs = s.obs := rfl
@[simp] theorem setTen_notes (s t x) : (setTen s t x).notes = s.notes := rfl

/-! ### setRun -/

@[simp] theorem setRun_pending (s a x) : (setRun s a x).pending = s.pending := rfl
@[simp] theorem setRun_clk (s a x) : (setRun s a x).clk = s.clk := rfl
@[simp] theorem setRun_free (s a x) : (setRun s a x).free = s.free := rfl
@[simp] theorem setRun_regs (s a x) : (setRun s a x).regs = s.regs := rfl
@[simp] theorem setRun_mem (s a x) : (setRun s a x).mem = s.mem := rfl
@[simp] theorem setRun_memPoison (s a x) : (setRun s a x).memPoison = s.memPoison := rfl
@[simp] theorem setRun_bus (s a x) : (setRun s a x).bus = s.bus := rfl
@[simp] theorem setRun_log (s a x) : (setRun s a x).log = s.log := rfl
@[simp] theorem setRun_dyn (s a x) : (setRun s a x).dyn = s.dyn := rfl
@[simp] theorem setRun_sch (s a x) : (setRun s a x).sch = s.sch := rfl
@[simp] theorem setRun_trig (s a x) : (setRun s a x).trig = s.trig := rfl
@[simp] theorem setRun_red (s a x) : (setRun s a x).red = s.red := rfl
@[simp] theorem setRun_coll (s a x) : (setRun s a x).coll = s.coll := rfl
@[simp] theorem setRun_slu (s a x) : (setRun s a x).slu = s.slu := rfl
@[simp] theorem setRun_chan (s a x) : (setRun s a x).chan = s.chan := rfl
@[simp] theorem setRun_host (s a x) : (setRun s a x).host = s.host := rfl
@[simp] theorem setRun_rte (s a x) : (setRun s a x).rte = s.rte := rfl
@[simp] theorem setRun_sec (s a x) : (setRun s a x).sec = s.sec := rfl
@[simp] theorem setRun_lane (s a x) : (setRun s a x).lane = s.lane := rfl
@[simp] theorem setRun_rpt (s a x) : (setRun s a x).rpt = s.rpt := rfl
@[simp] theorem setRun_mbx (s a x) : (setRun s a x).mbx = s.mbx := rfl
@[simp] theorem setRun_parts (s a x) : (setRun s a x).parts = s.parts := rfl
@[simp] theorem setRun_boot (s a x) : (setRun s a x).boot = s.boot := rfl
@[simp] theorem setRun_rel (s a x) : (setRun s a x).rel = s.rel := rfl
@[simp] theorem setRun_obs (s a x) : (setRun s a x).obs = s.obs := rfl
@[simp] theorem setRun_notes (s a x) : (setRun s a x).notes = s.notes := rfl

/-! ### setGate -/

@[simp] theorem setGate_pending (s b x) : (setGate s b x).pending = s.pending := rfl
@[simp] theorem setGate_clk (s b x) : (setGate s b x).clk = s.clk := rfl
@[simp] theorem setGate_free (s b x) : (setGate s b x).free = s.free := rfl
@[simp] theorem setGate_regs (s b x) : (setGate s b x).regs = s.regs := rfl
@[simp] theorem setGate_mem (s b x) : (setGate s b x).mem = s.mem := rfl
@[simp] theorem setGate_memPoison (s b x) : (setGate s b x).memPoison = s.memPoison := rfl
@[simp] theorem setGate_bus (s b x) : (setGate s b x).bus = s.bus := rfl
@[simp] theorem setGate_log (s b x) : (setGate s b x).log = s.log := rfl
@[simp] theorem setGate_dyn (s b x) : (setGate s b x).dyn = s.dyn := rfl
@[simp] theorem setGate_sch (s b x) : (setGate s b x).sch = s.sch := rfl
@[simp] theorem setGate_trig (s b x) : (setGate s b x).trig = s.trig := rfl
@[simp] theorem setGate_red (s b x) : (setGate s b x).red = s.red := rfl
@[simp] theorem setGate_coll (s b x) : (setGate s b x).coll = s.coll := rfl
@[simp] theorem setGate_slu (s b x) : (setGate s b x).slu = s.slu := rfl
@[simp] theorem setGate_chan (s b x) : (setGate s b x).chan = s.chan := rfl
@[simp] theorem setGate_host (s b x) : (setGate s b x).host = s.host := rfl
@[simp] theorem setGate_rte (s b x) : (setGate s b x).rte = s.rte := rfl
@[simp] theorem setGate_sec (s b x) : (setGate s b x).sec = s.sec := rfl
@[simp] theorem setGate_lane (s b x) : (setGate s b x).lane = s.lane := rfl
@[simp] theorem setGate_rpt (s b x) : (setGate s b x).rpt = s.rpt := rfl
@[simp] theorem setGate_mbx (s b x) : (setGate s b x).mbx = s.mbx := rfl
@[simp] theorem setGate_parts (s b x) : (setGate s b x).parts = s.parts := rfl
@[simp] theorem setGate_boot (s b x) : (setGate s b x).boot = s.boot := rfl
@[simp] theorem setGate_rel (s b x) : (setGate s b x).rel = s.rel := rfl
@[simp] theorem setGate_obs (s b x) : (setGate s b x).obs = s.obs := rfl
@[simp] theorem setGate_notes (s b x) : (setGate s b x).notes = s.notes := rfl

/-! ### setMemo -/

@[simp] theorem setMemo_pending (s a r m) : (setMemo s a r m).pending = s.pending := rfl
@[simp] theorem setMemo_clk (s a r m) : (setMemo s a r m).clk = s.clk := rfl
@[simp] theorem setMemo_free (s a r m) : (setMemo s a r m).free = s.free := rfl
@[simp] theorem setMemo_regs (s a r m) : (setMemo s a r m).regs = s.regs := rfl
@[simp] theorem setMemo_mem (s a r m) : (setMemo s a r m).mem = s.mem := rfl
@[simp] theorem setMemo_memPoison (s a r m) : (setMemo s a r m).memPoison = s.memPoison := rfl
@[simp] theorem setMemo_bus (s a r m) : (setMemo s a r m).bus = s.bus := rfl
@[simp] theorem setMemo_log (s a r m) : (setMemo s a r m).log = s.log := rfl
@[simp] theorem setMemo_dyn (s a r m) : (setMemo s a r m).dyn = s.dyn := rfl
@[simp] theorem setMemo_sch (s a r m) : (setMemo s a r m).sch = s.sch := rfl
@[simp] theorem setMemo_trig (s a r m) : (setMemo s a r m).trig = s.trig := rfl
@[simp] theorem setMemo_red (s a r m) : (setMemo s a r m).red = s.red := rfl
@[simp] theorem setMemo_coll (s a r m) : (setMemo s a r m).coll = s.coll := rfl
@[simp] theorem setMemo_slu (s a r m) : (setMemo s a r m).slu = s.slu := rfl
@[simp] theorem setMemo_chan (s a r m) : (setMemo s a r m).chan = s.chan := rfl
@[simp] theorem setMemo_host (s a r m) : (setMemo s a r m).host = s.host := rfl
@[simp] theorem setMemo_rte (s a r m) : (setMemo s a r m).rte = s.rte := rfl
@[simp] theorem setMemo_sec (s a r m) : (setMemo s a r m).sec = s.sec := rfl
@[simp] theorem setMemo_lane (s a r m) : (setMemo s a r m).lane = s.lane := rfl
@[simp] theorem setMemo_rpt (s a r m) : (setMemo s a r m).rpt = s.rpt := rfl
@[simp] theorem setMemo_mbx (s a r m) : (setMemo s a r m).mbx = s.mbx := rfl
@[simp] theorem setMemo_parts (s a r m) : (setMemo s a r m).parts = s.parts := rfl
@[simp] theorem setMemo_boot (s a r m) : (setMemo s a r m).boot = s.boot := rfl
@[simp] theorem setMemo_rel (s a r m) : (setMemo s a r m).rel = s.rel := rfl
@[simp] theorem setMemo_obs (s a r m) : (setMemo s a r m).obs = s.obs := rfl
@[simp] theorem setMemo_notes (s a r m) : (setMemo s a r m).notes = s.notes := rfl

/-! ### setLane -/

@[simp] theorem setLane_pending (s n r) : (setLane s n r).pending = s.pending := rfl
@[simp] theorem setLane_clk (s n r) : (setLane s n r).clk = s.clk := rfl
@[simp] theorem setLane_free (s n r) : (setLane s n r).free = s.free := rfl
@[simp] theorem setLane_regs (s n r) : (setLane s n r).regs = s.regs := rfl
@[simp] theorem setLane_mem (s n r) : (setLane s n r).mem = s.mem := rfl
@[simp] theorem setLane_memPoison (s n r) : (setLane s n r).memPoison = s.memPoison := rfl
@[simp] theorem setLane_bus (s n r) : (setLane s n r).bus = s.bus := rfl
@[simp] theorem setLane_log (s n r) : (setLane s n r).log = s.log := rfl
@[simp] theorem setLane_dyn (s n r) : (setLane s n r).dyn = s.dyn := rfl
@[simp] theorem setLane_sch (s n r) : (setLane s n r).sch = s.sch := rfl
@[simp] theorem setLane_arb (s n r) : (setLane s n r).arb = s.arb := rfl
@[simp] theorem setLane_trig (s n r) : (setLane s n r).trig = s.trig := rfl
@[simp] theorem setLane_red (s n r) : (setLane s n r).red = s.red := rfl
@[simp] theorem setLane_coll (s n r) : (setLane s n r).coll = s.coll := rfl
@[simp] theorem setLane_slu (s n r) : (setLane s n r).slu = s.slu := rfl
@[simp] theorem setLane_chan (s n r) : (setLane s n r).chan = s.chan := rfl
@[simp] theorem setLane_host (s n r) : (setLane s n r).host = s.host := rfl
@[simp] theorem setLane_rte (s n r) : (setLane s n r).rte = s.rte := rfl
@[simp] theorem setLane_sec (s n r) : (setLane s n r).sec = s.sec := rfl
@[simp] theorem setLane_rpt (s n r) : (setLane s n r).rpt = s.rpt := rfl
@[simp] theorem setLane_mbx (s n r) : (setLane s n r).mbx = s.mbx := rfl
@[simp] theorem setLane_parts (s n r) : (setLane s n r).parts = s.parts := rfl
@[simp] theorem setLane_boot (s n r) : (setLane s n r).boot = s.boot := rfl
@[simp] theorem setLane_rel (s n r) : (setLane s n r).rel = s.rel := rfl
@[simp] theorem setLane_obs (s n r) : (setLane s n r).obs = s.obs := rfl
@[simp] theorem setLane_notes (s n r) : (setLane s n r).notes = s.notes := rfl

/-! ### setRed -/

@[simp] theorem setRed_pending (s x r) : (setRed s x r).pending = s.pending := rfl
@[simp] theorem setRed_clk (s x r) : (setRed s x r).clk = s.clk := rfl
@[simp] theorem setRed_free (s x r) : (setRed s x r).free = s.free := rfl
@[simp] theorem setRed_regs (s x r) : (setRed s x r).regs = s.regs := rfl
@[simp] theorem setRed_mem (s x r) : (setRed s x r).mem = s.mem := rfl
@[simp] theorem setRed_memPoison (s x r) : (setRed s x r).memPoison = s.memPoison := rfl
@[simp] theorem setRed_bus (s x r) : (setRed s x r).bus = s.bus := rfl
@[simp] theorem setRed_log (s x r) : (setRed s x r).log = s.log := rfl
@[simp] theorem setRed_dyn (s x r) : (setRed s x r).dyn = s.dyn := rfl
@[simp] theorem setRed_sch (s x r) : (setRed s x r).sch = s.sch := rfl
@[simp] theorem setRed_arb (s x r) : (setRed s x r).arb = s.arb := rfl
@[simp] theorem setRed_trig (s x r) : (setRed s x r).trig = s.trig := rfl
@[simp] theorem setRed_coll (s x r) : (setRed s x r).coll = s.coll := rfl
@[simp] theorem setRed_slu (s x r) : (setRed s x r).slu = s.slu := rfl
@[simp] theorem setRed_chan (s x r) : (setRed s x r).chan = s.chan := rfl
@[simp] theorem setRed_host (s x r) : (setRed s x r).host = s.host := rfl
@[simp] theorem setRed_rte (s x r) : (setRed s x r).rte = s.rte := rfl
@[simp] theorem setRed_sec (s x r) : (setRed s x r).sec = s.sec := rfl
@[simp] theorem setRed_lane (s x r) : (setRed s x r).lane = s.lane := rfl
@[simp] theorem setRed_rpt (s x r) : (setRed s x r).rpt = s.rpt := rfl
@[simp] theorem setRed_mbx (s x r) : (setRed s x r).mbx = s.mbx := rfl
@[simp] theorem setRed_parts (s x r) : (setRed s x r).parts = s.parts := rfl
@[simp] theorem setRed_boot (s x r) : (setRed s x r).boot = s.boot := rfl
@[simp] theorem setRed_rel (s x r) : (setRed s x r).rel = s.rel := rfl
@[simp] theorem setRed_obs (s x r) : (setRed s x r).obs = s.obs := rfl
@[simp] theorem setRed_notes (s x r) : (setRed s x r).notes = s.notes := rfl

/-! ### updOp -/

@[simp] theorem updOp_pending (s t i f) : (updOp s t i f).pending = s.pending := rfl
@[simp] theorem updOp_clk (s t i f) : (updOp s t i f).clk = s.clk := rfl
@[simp] theorem updOp_free (s t i f) : (updOp s t i f).free = s.free := rfl
@[simp] theorem updOp_regs (s t i f) : (updOp s t i f).regs = s.regs := rfl
@[simp] theorem updOp_mem (s t i f) : (updOp s t i f).mem = s.mem := rfl
@[simp] theorem updOp_memPoison (s t i f) : (updOp s t i f).memPoison = s.memPoison := rfl
@[simp] theorem updOp_bus (s t i f) : (updOp s t i f).bus = s.bus := rfl
@[simp] theorem updOp_log (s t i f) : (updOp s t i f).log = s.log := rfl
@[simp] theorem updOp_dyn (s t i f) : (updOp s t i f).dyn = s.dyn := rfl
@[simp] theorem updOp_sch (s t i f) : (updOp s t i f).sch = s.sch := rfl
@[simp] theorem updOp_arb (s t i f) : (updOp s t i f).arb = s.arb := rfl
@[simp] theorem updOp_trig (s t i f) : (updOp s t i f).trig = s.trig := rfl
@[simp] theorem updOp_red (s t i f) : (updOp s t i f).red = s.red := rfl
@[simp] theorem updOp_slu (s t i f) : (updOp s t i f).slu = s.slu := rfl
@[simp] theorem updOp_chan (s t i f) : (updOp s t i f).chan = s.chan := rfl
@[simp] theorem updOp_host (s t i f) : (updOp s t i f).host = s.host := rfl
@[simp] theorem updOp_rte (s t i f) : (updOp s t i f).rte = s.rte := rfl
@[simp] theorem updOp_sec (s t i f) : (updOp s t i f).sec = s.sec := rfl
@[simp] theorem updOp_lane (s t i f) : (updOp s t i f).lane = s.lane := rfl
@[simp] theorem updOp_rpt (s t i f) : (updOp s t i f).rpt = s.rpt := rfl
@[simp] theorem updOp_mbx (s t i f) : (updOp s t i f).mbx = s.mbx := rfl
@[simp] theorem updOp_parts (s t i f) : (updOp s t i f).parts = s.parts := rfl
@[simp] theorem updOp_boot (s t i f) : (updOp s t i f).boot = s.boot := rfl
@[simp] theorem updOp_rel (s t i f) : (updOp s t i f).rel = s.rel := rfl
@[simp] theorem updOp_obs (s t i f) : (updOp s t i f).obs = s.obs := rfl
@[simp] theorem updOp_notes (s t i f) : (updOp s t i f).notes = s.notes := rfl

/-! ### setLand -/

@[simp] theorem setLand_pending (s t l r) : (setLand s t l r).pending = s.pending := rfl
@[simp] theorem setLand_clk (s t l r) : (setLand s t l r).clk = s.clk := rfl
@[simp] theorem setLand_free (s t l r) : (setLand s t l r).free = s.free := rfl
@[simp] theorem setLand_regs (s t l r) : (setLand s t l r).regs = s.regs := rfl
@[simp] theorem setLand_mem (s t l r) : (setLand s t l r).mem = s.mem := rfl
@[simp] theorem setLand_memPoison (s t l r) : (setLand s t l r).memPoison = s.memPoison := rfl
@[simp] theorem setLand_bus (s t l r) : (setLand s t l r).bus = s.bus := rfl
@[simp] theorem setLand_log (s t l r) : (setLand s t l r).log = s.log := rfl
@[simp] theorem setLand_dyn (s t l r) : (setLand s t l r).dyn = s.dyn := rfl
@[simp] theorem setLand_sch (s t l r) : (setLand s t l r).sch = s.sch := rfl
@[simp] theorem setLand_arb (s t l r) : (setLand s t l r).arb = s.arb := rfl
@[simp] theorem setLand_trig (s t l r) : (setLand s t l r).trig = s.trig := rfl
@[simp] theorem setLand_red (s t l r) : (setLand s t l r).red = s.red := rfl
@[simp] theorem setLand_slu (s t l r) : (setLand s t l r).slu = s.slu := rfl
@[simp] theorem setLand_chan (s t l r) : (setLand s t l r).chan = s.chan := rfl
@[simp] theorem setLand_host (s t l r) : (setLand s t l r).host = s.host := rfl
@[simp] theorem setLand_rte (s t l r) : (setLand s t l r).rte = s.rte := rfl
@[simp] theorem setLand_sec (s t l r) : (setLand s t l r).sec = s.sec := rfl
@[simp] theorem setLand_lane (s t l r) : (setLand s t l r).lane = s.lane := rfl
@[simp] theorem setLand_rpt (s t l r) : (setLand s t l r).rpt = s.rpt := rfl
@[simp] theorem setLand_mbx (s t l r) : (setLand s t l r).mbx = s.mbx := rfl
@[simp] theorem setLand_parts (s t l r) : (setLand s t l r).parts = s.parts := rfl
@[simp] theorem setLand_boot (s t l r) : (setLand s t l r).boot = s.boot := rfl
@[simp] theorem setLand_rel (s t l r) : (setLand s t l r).rel = s.rel := rfl
@[simp] theorem setLand_obs (s t l r) : (setLand s t l r).obs = s.obs := rfl
@[simp] theorem setLand_notes (s t l r) : (setLand s t l r).notes = s.notes := rfl

/-! ### putSpOp -/

@[simp] theorem putSpOp_pending (s o) : (putSpOp s o).pending = s.pending := rfl
@[simp] theorem putSpOp_clk (s o) : (putSpOp s o).clk = s.clk := rfl
@[simp] theorem putSpOp_free (s o) : (putSpOp s o).free = s.free := rfl
@[simp] theorem putSpOp_regs (s o) : (putSpOp s o).regs = s.regs := rfl
@[simp] theorem putSpOp_mem (s o) : (putSpOp s o).mem = s.mem := rfl
@[simp] theorem putSpOp_memPoison (s o) : (putSpOp s o).memPoison = s.memPoison := rfl
@[simp] theorem putSpOp_bus (s o) : (putSpOp s o).bus = s.bus := rfl
@[simp] theorem putSpOp_log (s o) : (putSpOp s o).log = s.log := rfl
@[simp] theorem putSpOp_dyn (s o) : (putSpOp s o).dyn = s.dyn := rfl
@[simp] theorem putSpOp_sch (s o) : (putSpOp s o).sch = s.sch := rfl
@[simp] theorem putSpOp_arb (s o) : (putSpOp s o).arb = s.arb := rfl
@[simp] theorem putSpOp_trig (s o) : (putSpOp s o).trig = s.trig := rfl
@[simp] theorem putSpOp_red (s o) : (putSpOp s o).red = s.red := rfl
@[simp] theorem putSpOp_slu (s o) : (putSpOp s o).slu = s.slu := rfl
@[simp] theorem putSpOp_chan (s o) : (putSpOp s o).chan = s.chan := rfl
@[simp] theorem putSpOp_host (s o) : (putSpOp s o).host = s.host := rfl
@[simp] theorem putSpOp_rte (s o) : (putSpOp s o).rte = s.rte := rfl
@[simp] theorem putSpOp_sec (s o) : (putSpOp s o).sec = s.sec := rfl
@[simp] theorem putSpOp_lane (s o) : (putSpOp s o).lane = s.lane := rfl
@[simp] theorem putSpOp_rpt (s o) : (putSpOp s o).rpt = s.rpt := rfl
@[simp] theorem putSpOp_mbx (s o) : (putSpOp s o).mbx = s.mbx := rfl
@[simp] theorem putSpOp_parts (s o) : (putSpOp s o).parts = s.parts := rfl
@[simp] theorem putSpOp_boot (s o) : (putSpOp s o).boot = s.boot := rfl
@[simp] theorem putSpOp_rel (s o) : (putSpOp s o).rel = s.rel := rfl
@[simp] theorem putSpOp_obs (s o) : (putSpOp s o).obs = s.obs := rfl
@[simp] theorem putSpOp_notes (s o) : (putSpOp s o).notes = s.notes := rfl

/-! ### dropSpOp -/

@[simp] theorem dropSpOp_pending (s o) : (dropSpOp s o).pending = s.pending := rfl
@[simp] theorem dropSpOp_clk (s o) : (dropSpOp s o).clk = s.clk := rfl
@[simp] theorem dropSpOp_free (s o) : (dropSpOp s o).free = s.free := rfl
@[simp] theorem dropSpOp_regs (s o) : (dropSpOp s o).regs = s.regs := rfl
@[simp] theorem dropSpOp_mem (s o) : (dropSpOp s o).mem = s.mem := rfl
@[simp] theorem dropSpOp_memPoison (s o) : (dropSpOp s o).memPoison = s.memPoison := rfl
@[simp] theorem dropSpOp_bus (s o) : (dropSpOp s o).bus = s.bus := rfl
@[simp] theorem dropSpOp_log (s o) : (dropSpOp s o).log = s.log := rfl
@[simp] theorem dropSpOp_dyn (s o) : (dropSpOp s o).dyn = s.dyn := rfl
@[simp] theorem dropSpOp_sch (s o) : (dropSpOp s o).sch = s.sch := rfl
@[simp] theorem dropSpOp_arb (s o) : (dropSpOp s o).arb = s.arb := rfl
@[simp] theorem dropSpOp_trig (s o) : (dropSpOp s o).trig = s.trig := rfl
@[simp] theorem dropSpOp_red (s o) : (dropSpOp s o).red = s.red := rfl
@[simp] theorem dropSpOp_slu (s o) : (dropSpOp s o).slu = s.slu := rfl
@[simp] theorem dropSpOp_chan (s o) : (dropSpOp s o).chan = s.chan := rfl
@[simp] theorem dropSpOp_host (s o) : (dropSpOp s o).host = s.host := rfl
@[simp] theorem dropSpOp_rte (s o) : (dropSpOp s o).rte = s.rte := rfl
@[simp] theorem dropSpOp_sec (s o) : (dropSpOp s o).sec = s.sec := rfl
@[simp] theorem dropSpOp_lane (s o) : (dropSpOp s o).lane = s.lane := rfl
@[simp] theorem dropSpOp_rpt (s o) : (dropSpOp s o).rpt = s.rpt := rfl
@[simp] theorem dropSpOp_mbx (s o) : (dropSpOp s o).mbx = s.mbx := rfl
@[simp] theorem dropSpOp_parts (s o) : (dropSpOp s o).parts = s.parts := rfl
@[simp] theorem dropSpOp_boot (s o) : (dropSpOp s o).boot = s.boot := rfl
@[simp] theorem dropSpOp_rel (s o) : (dropSpOp s o).rel = s.rel := rfl
@[simp] theorem dropSpOp_obs (s o) : (dropSpOp s o).obs = s.obs := rfl
@[simp] theorem dropSpOp_notes (s o) : (dropSpOp s o).notes = s.notes := rfl

/-! ### inbDrop -/

@[simp] theorem inbDrop_pending (s t k) : (inbDrop s t k).pending = s.pending := rfl
@[simp] theorem inbDrop_clk (s t k) : (inbDrop s t k).clk = s.clk := rfl
@[simp] theorem inbDrop_free (s t k) : (inbDrop s t k).free = s.free := rfl
@[simp] theorem inbDrop_regs (s t k) : (inbDrop s t k).regs = s.regs := rfl
@[simp] theorem inbDrop_mem (s t k) : (inbDrop s t k).mem = s.mem := rfl
@[simp] theorem inbDrop_memPoison (s t k) : (inbDrop s t k).memPoison = s.memPoison := rfl
@[simp] theorem inbDrop_bus (s t k) : (inbDrop s t k).bus = s.bus := rfl
@[simp] theorem inbDrop_log (s t k) : (inbDrop s t k).log = s.log := rfl
@[simp] theorem inbDrop_dyn (s t k) : (inbDrop s t k).dyn = s.dyn := rfl
@[simp] theorem inbDrop_sch (s t k) : (inbDrop s t k).sch = s.sch := rfl
@[simp] theorem inbDrop_arb (s t k) : (inbDrop s t k).arb = s.arb := rfl
@[simp] theorem inbDrop_trig (s t k) : (inbDrop s t k).trig = s.trig := rfl
@[simp] theorem inbDrop_red (s t k) : (inbDrop s t k).red = s.red := rfl
@[simp] theorem inbDrop_coll (s t k) : (inbDrop s t k).coll = s.coll := rfl
@[simp] theorem inbDrop_chan (s t k) : (inbDrop s t k).chan = s.chan := rfl
@[simp] theorem inbDrop_host (s t k) : (inbDrop s t k).host = s.host := rfl
@[simp] theorem inbDrop_rte (s t k) : (inbDrop s t k).rte = s.rte := rfl
@[simp] theorem inbDrop_sec (s t k) : (inbDrop s t k).sec = s.sec := rfl
@[simp] theorem inbDrop_lane (s t k) : (inbDrop s t k).lane = s.lane := rfl
@[simp] theorem inbDrop_rpt (s t k) : (inbDrop s t k).rpt = s.rpt := rfl
@[simp] theorem inbDrop_mbx (s t k) : (inbDrop s t k).mbx = s.mbx := rfl
@[simp] theorem inbDrop_parts (s t k) : (inbDrop s t k).parts = s.parts := rfl
@[simp] theorem inbDrop_boot (s t k) : (inbDrop s t k).boot = s.boot := rfl
@[simp] theorem inbDrop_rel (s t k) : (inbDrop s t k).rel = s.rel := rfl
@[simp] theorem inbDrop_obs (s t k) : (inbDrop s t k).obs = s.obs := rfl
@[simp] theorem inbDrop_notes (s t k) : (inbDrop s t k).notes = s.notes := rfl

/-! ### putSlu -/

@[simp] theorem putSlu_pending (s o) : (putSlu s o).pending = s.pending := rfl
@[simp] theorem putSlu_clk (s o) : (putSlu s o).clk = s.clk := rfl
@[simp] theorem putSlu_free (s o) : (putSlu s o).free = s.free := rfl
@[simp] theorem putSlu_regs (s o) : (putSlu s o).regs = s.regs := rfl
@[simp] theorem putSlu_mem (s o) : (putSlu s o).mem = s.mem := rfl
@[simp] theorem putSlu_memPoison (s o) : (putSlu s o).memPoison = s.memPoison := rfl
@[simp] theorem putSlu_bus (s o) : (putSlu s o).bus = s.bus := rfl
@[simp] theorem putSlu_log (s o) : (putSlu s o).log = s.log := rfl
@[simp] theorem putSlu_dyn (s o) : (putSlu s o).dyn = s.dyn := rfl
@[simp] theorem putSlu_sch (s o) : (putSlu s o).sch = s.sch := rfl
@[simp] theorem putSlu_arb (s o) : (putSlu s o).arb = s.arb := rfl
@[simp] theorem putSlu_trig (s o) : (putSlu s o).trig = s.trig := rfl
@[simp] theorem putSlu_red (s o) : (putSlu s o).red = s.red := rfl
@[simp] theorem putSlu_coll (s o) : (putSlu s o).coll = s.coll := rfl
@[simp] theorem putSlu_chan (s o) : (putSlu s o).chan = s.chan := rfl
@[simp] theorem putSlu_host (s o) : (putSlu s o).host = s.host := rfl
@[simp] theorem putSlu_rte (s o) : (putSlu s o).rte = s.rte := rfl
@[simp] theorem putSlu_sec (s o) : (putSlu s o).sec = s.sec := rfl
@[simp] theorem putSlu_lane (s o) : (putSlu s o).lane = s.lane := rfl
@[simp] theorem putSlu_rpt (s o) : (putSlu s o).rpt = s.rpt := rfl
@[simp] theorem putSlu_mbx (s o) : (putSlu s o).mbx = s.mbx := rfl
@[simp] theorem putSlu_parts (s o) : (putSlu s o).parts = s.parts := rfl
@[simp] theorem putSlu_boot (s o) : (putSlu s o).boot = s.boot := rfl
@[simp] theorem putSlu_rel (s o) : (putSlu s o).rel = s.rel := rfl
@[simp] theorem putSlu_obs (s o) : (putSlu s o).obs = s.obs := rfl
@[simp] theorem putSlu_notes (s o) : (putSlu s o).notes = s.notes := rfl

/-! ### setChan -/

@[simp] theorem setChan_pending (s t c r) : (setChan s t c r).pending = s.pending := rfl
@[simp] theorem setChan_clk (s t c r) : (setChan s t c r).clk = s.clk := rfl
@[simp] theorem setChan_free (s t c r) : (setChan s t c r).free = s.free := rfl
@[simp] theorem setChan_regs (s t c r) : (setChan s t c r).regs = s.regs := rfl
@[simp] theorem setChan_mem (s t c r) : (setChan s t c r).mem = s.mem := rfl
@[simp] theorem setChan_memPoison (s t c r) : (setChan s t c r).memPoison = s.memPoison := rfl
@[simp] theorem setChan_bus (s t c r) : (setChan s t c r).bus = s.bus := rfl
@[simp] theorem setChan_log (s t c r) : (setChan s t c r).log = s.log := rfl
@[simp] theorem setChan_dyn (s t c r) : (setChan s t c r).dyn = s.dyn := rfl
@[simp] theorem setChan_sch (s t c r) : (setChan s t c r).sch = s.sch := rfl
@[simp] theorem setChan_arb (s t c r) : (setChan s t c r).arb = s.arb := rfl
@[simp] theorem setChan_trig (s t c r) : (setChan s t c r).trig = s.trig := rfl
@[simp] theorem setChan_red (s t c r) : (setChan s t c r).red = s.red := rfl
@[simp] theorem setChan_coll (s t c r) : (setChan s t c r).coll = s.coll := rfl
@[simp] theorem setChan_slu (s t c r) : (setChan s t c r).slu = s.slu := rfl
@[simp] theorem setChan_host (s t c r) : (setChan s t c r).host = s.host := rfl
@[simp] theorem setChan_rte (s t c r) : (setChan s t c r).rte = s.rte := rfl
@[simp] theorem setChan_sec (s t c r) : (setChan s t c r).sec = s.sec := rfl
@[simp] theorem setChan_lane (s t c r) : (setChan s t c r).lane = s.lane := rfl
@[simp] theorem setChan_rpt (s t c r) : (setChan s t c r).rpt = s.rpt := rfl
@[simp] theorem setChan_mbx (s t c r) : (setChan s t c r).mbx = s.mbx := rfl
@[simp] theorem setChan_parts (s t c r) : (setChan s t c r).parts = s.parts := rfl
@[simp] theorem setChan_boot (s t c r) : (setChan s t c r).boot = s.boot := rfl
@[simp] theorem setChan_rel (s t c r) : (setChan s t c r).rel = s.rel := rfl
@[simp] theorem setChan_obs (s t c r) : (setChan s t c r).obs = s.obs := rfl
@[simp] theorem setChan_notes (s t c r) : (setChan s t c r).notes = s.notes := rfl

/-! ### setQp -/

@[simp] theorem setQp_pending (s e q r) : (setQp s e q r).pending = s.pending := rfl
@[simp] theorem setQp_clk (s e q r) : (setQp s e q r).clk = s.clk := rfl
@[simp] theorem setQp_free (s e q r) : (setQp s e q r).free = s.free := rfl
@[simp] theorem setQp_mem (s e q r) : (setQp s e q r).mem = s.mem := rfl
@[simp] theorem setQp_memPoison (s e q r) : (setQp s e q r).memPoison = s.memPoison := rfl
@[simp] theorem setQp_bus (s e q r) : (setQp s e q r).bus = s.bus := rfl
@[simp] theorem setQp_log (s e q r) : (setQp s e q r).log = s.log := rfl
@[simp] theorem setQp_dyn (s e q r) : (setQp s e q r).dyn = s.dyn := rfl
@[simp] theorem setQp_sch (s e q r) : (setQp s e q r).sch = s.sch := rfl
@[simp] theorem setQp_arb (s e q r) : (setQp s e q r).arb = s.arb := rfl
@[simp] theorem setQp_trig (s e q r) : (setQp s e q r).trig = s.trig := rfl
@[simp] theorem setQp_red (s e q r) : (setQp s e q r).red = s.red := rfl
@[simp] theorem setQp_coll (s e q r) : (setQp s e q r).coll = s.coll := rfl
@[simp] theorem setQp_slu (s e q r) : (setQp s e q r).slu = s.slu := rfl
@[simp] theorem setQp_chan (s e q r) : (setQp s e q r).chan = s.chan := rfl
@[simp] theorem setQp_host (s e q r) : (setQp s e q r).host = s.host := rfl
@[simp] theorem setQp_sec (s e q r) : (setQp s e q r).sec = s.sec := rfl
@[simp] theorem setQp_lane (s e q r) : (setQp s e q r).lane = s.lane := rfl
@[simp] theorem setQp_rpt (s e q r) : (setQp s e q r).rpt = s.rpt := rfl
@[simp] theorem setQp_mbx (s e q r) : (setQp s e q r).mbx = s.mbx := rfl
@[simp] theorem setQp_parts (s e q r) : (setQp s e q r).parts = s.parts := rfl
@[simp] theorem setQp_boot (s e q r) : (setQp s e q r).boot = s.boot := rfl
@[simp] theorem setQp_rel (s e q r) : (setQp s e q r).rel = s.rel := rfl
@[simp] theorem setQp_obs (s e q r) : (setQp s e q r).obs = s.obs := rfl
@[simp] theorem setQp_notes (s e q r) : (setQp s e q r).notes = s.notes := rfl

/-! ### setPort -/

@[simp] theorem setPort_pending (s e k p) : (setPort s e k p).pending = s.pending := rfl
@[simp] theorem setPort_clk (s e k p) : (setPort s e k p).clk = s.clk := rfl
@[simp] theorem setPort_free (s e k p) : (setPort s e k p).free = s.free := rfl
@[simp] theorem setPort_regs (s e k p) : (setPort s e k p).regs = s.regs := rfl
@[simp] theorem setPort_mem (s e k p) : (setPort s e k p).mem = s.mem := rfl
@[simp] theorem setPort_memPoison (s e k p) : (setPort s e k p).memPoison = s.memPoison := rfl
@[simp] theorem setPort_bus (s e k p) : (setPort s e k p).bus = s.bus := rfl
@[simp] theorem setPort_log (s e k p) : (setPort s e k p).log = s.log := rfl
@[simp] theorem setPort_dyn (s e k p) : (setPort s e k p).dyn = s.dyn := rfl
@[simp] theorem setPort_sch (s e k p) : (setPort s e k p).sch = s.sch := rfl
@[simp] theorem setPort_arb (s e k p) : (setPort s e k p).arb = s.arb := rfl
@[simp] theorem setPort_trig (s e k p) : (setPort s e k p).trig = s.trig := rfl
@[simp] theorem setPort_red (s e k p) : (setPort s e k p).red = s.red := rfl
@[simp] theorem setPort_coll (s e k p) : (setPort s e k p).coll = s.coll := rfl
@[simp] theorem setPort_slu (s e k p) : (setPort s e k p).slu = s.slu := rfl
@[simp] theorem setPort_chan (s e k p) : (setPort s e k p).chan = s.chan := rfl
@[simp] theorem setPort_host (s e k p) : (setPort s e k p).host = s.host := rfl
@[simp] theorem setPort_sec (s e k p) : (setPort s e k p).sec = s.sec := rfl
@[simp] theorem setPort_lane (s e k p) : (setPort s e k p).lane = s.lane := rfl
@[simp] theorem setPort_rpt (s e k p) : (setPort s e k p).rpt = s.rpt := rfl
@[simp] theorem setPort_mbx (s e k p) : (setPort s e k p).mbx = s.mbx := rfl
@[simp] theorem setPort_parts (s e k p) : (setPort s e k p).parts = s.parts := rfl
@[simp] theorem setPort_boot (s e k p) : (setPort s e k p).boot = s.boot := rfl
@[simp] theorem setPort_rel (s e k p) : (setPort s e k p).rel = s.rel := rfl
@[simp] theorem setPort_obs (s e k p) : (setPort s e k p).obs = s.obs := rfl
@[simp] theorem setPort_notes (s e k p) : (setPort s e k p).notes = s.notes := rfl

/-! ### setSlot -/

@[simp] theorem setSlot_pending (s sv fn x) : (setSlot s sv fn x).pending = s.pending := rfl
@[simp] theorem setSlot_clk (s sv fn x) : (setSlot s sv fn x).clk = s.clk := rfl
@[simp] theorem setSlot_free (s sv fn x) : (setSlot s sv fn x).free = s.free := rfl
@[simp] theorem setSlot_regs (s sv fn x) : (setSlot s sv fn x).regs = s.regs := rfl
@[simp] theorem setSlot_mem (s sv fn x) : (setSlot s sv fn x).mem = s.mem := rfl
@[simp] theorem setSlot_memPoison (s sv fn x) : (setSlot s sv fn x).memPoison = s.memPoison := rfl
@[simp] theorem setSlot_bus (s sv fn x) : (setSlot s sv fn x).bus = s.bus := rfl
@[simp] theorem setSlot_log (s sv fn x) : (setSlot s sv fn x).log = s.log := rfl
@[simp] theorem setSlot_dyn (s sv fn x) : (setSlot s sv fn x).dyn = s.dyn := rfl
@[simp] theorem setSlot_sch (s sv fn x) : (setSlot s sv fn x).sch = s.sch := rfl
@[simp] theorem setSlot_arb (s sv fn x) : (setSlot s sv fn x).arb = s.arb := rfl
@[simp] theorem setSlot_trig (s sv fn x) : (setSlot s sv fn x).trig = s.trig := rfl
@[simp] theorem setSlot_red (s sv fn x) : (setSlot s sv fn x).red = s.red := rfl
@[simp] theorem setSlot_coll (s sv fn x) : (setSlot s sv fn x).coll = s.coll := rfl
@[simp] theorem setSlot_slu (s sv fn x) : (setSlot s sv fn x).slu = s.slu := rfl
@[simp] theorem setSlot_chan (s sv fn x) : (setSlot s sv fn x).chan = s.chan := rfl
@[simp] theorem setSlot_host (s sv fn x) : (setSlot s sv fn x).host = s.host := rfl
@[simp] theorem setSlot_rte (s sv fn x) : (setSlot s sv fn x).rte = s.rte := rfl
@[simp] theorem setSlot_sec (s sv fn x) : (setSlot s sv fn x).sec = s.sec := rfl
@[simp] theorem setSlot_lane (s sv fn x) : (setSlot s sv fn x).lane = s.lane := rfl
@[simp] theorem setSlot_rpt (s sv fn x) : (setSlot s sv fn x).rpt = s.rpt := rfl
@[simp] theorem setSlot_parts (s sv fn x) : (setSlot s sv fn x).parts = s.parts := rfl
@[simp] theorem setSlot_boot (s sv fn x) : (setSlot s sv fn x).boot = s.boot := rfl
@[simp] theorem setSlot_rel (s sv fn x) : (setSlot s sv fn x).rel = s.rel := rfl
@[simp] theorem setSlot_obs (s sv fn x) : (setSlot s sv fn x).obs = s.obs := rfl
@[simp] theorem setSlot_notes (s sv fn x) : (setSlot s sv fn x).notes = s.notes := rfl

/-! ### setShadow -/

@[simp] theorem setShadow_pending (s t x) : (setShadow s t x).pending = s.pending := rfl
@[simp] theorem setShadow_clk (s t x) : (setShadow s t x).clk = s.clk := rfl
@[simp] theorem setShadow_free (s t x) : (setShadow s t x).free = s.free := rfl
@[simp] theorem setShadow_regs (s t x) : (setShadow s t x).regs = s.regs := rfl
@[simp] theorem setShadow_mem (s t x) : (setShadow s t x).mem = s.mem := rfl
@[simp] theorem setShadow_memPoison (s t x) : (setShadow s t x).memPoison = s.memPoison := rfl
@[simp] theorem setShadow_bus (s t x) : (setShadow s t x).bus = s.bus := rfl
@[simp] theorem setShadow_log (s t x) : (setShadow s t x).log = s.log := rfl
@[simp] theorem setShadow_dyn (s t x) : (setShadow s t x).dyn = s.dyn := rfl
@[simp] theorem setShadow_sch (s t x) : (setShadow s t x).sch = s.sch := rfl
@[simp] theorem setShadow_arb (s t x) : (setShadow s t x).arb = s.arb := rfl
@[simp] theorem setShadow_trig (s t x) : (setShadow s t x).trig = s.trig := rfl
@[simp] theorem setShadow_red (s t x) : (setShadow s t x).red = s.red := rfl
@[simp] theorem setShadow_coll (s t x) : (setShadow s t x).coll = s.coll := rfl
@[simp] theorem setShadow_slu (s t x) : (setShadow s t x).slu = s.slu := rfl
@[simp] theorem setShadow_chan (s t x) : (setShadow s t x).chan = s.chan := rfl
@[simp] theorem setShadow_host (s t x) : (setShadow s t x).host = s.host := rfl
@[simp] theorem setShadow_rte (s t x) : (setShadow s t x).rte = s.rte := rfl
@[simp] theorem setShadow_sec (s t x) : (setShadow s t x).sec = s.sec := rfl
@[simp] theorem setShadow_lane (s t x) : (setShadow s t x).lane = s.lane := rfl
@[simp] theorem setShadow_rpt (s t x) : (setShadow s t x).rpt = s.rpt := rfl
@[simp] theorem setShadow_mbx (s t x) : (setShadow s t x).mbx = s.mbx := rfl
@[simp] theorem setShadow_parts (s t x) : (setShadow s t x).parts = s.parts := rfl
@[simp] theorem setShadow_boot (s t x) : (setShadow s t x).boot = s.boot := rfl
@[simp] theorem setShadow_obs (s t x) : (setShadow s t x).obs = s.obs := rfl
@[simp] theorem setShadow_notes (s t x) : (setShadow s t x).notes = s.notes := rfl

/-! ### resetRegs -/

@[simp] theorem resetRegs_pending (s keep) : (resetRegs s keep).pending = s.pending := rfl
@[simp] theorem resetRegs_clk (s keep) : (resetRegs s keep).clk = s.clk := rfl
@[simp] theorem resetRegs_free (s keep) : (resetRegs s keep).free = s.free := rfl
@[simp] theorem resetRegs_mem (s keep) : (resetRegs s keep).mem = s.mem := rfl
@[simp] theorem resetRegs_memPoison (s keep) : (resetRegs s keep).memPoison = s.memPoison := rfl
@[simp] theorem resetRegs_bus (s keep) : (resetRegs s keep).bus = s.bus := rfl
@[simp] theorem resetRegs_log (s keep) : (resetRegs s keep).log = s.log := rfl
@[simp] theorem resetRegs_dyn (s keep) : (resetRegs s keep).dyn = s.dyn := rfl
@[simp] theorem resetRegs_sch (s keep) : (resetRegs s keep).sch = s.sch := rfl
@[simp] theorem resetRegs_arb (s keep) : (resetRegs s keep).arb = s.arb := rfl
@[simp] theorem resetRegs_trig (s keep) : (resetRegs s keep).trig = s.trig := rfl
@[simp] theorem resetRegs_red (s keep) : (resetRegs s keep).red = s.red := rfl
@[simp] theorem resetRegs_coll (s keep) : (resetRegs s keep).coll = s.coll := rfl
@[simp] theorem resetRegs_slu (s keep) : (resetRegs s keep).slu = s.slu := rfl
@[simp] theorem resetRegs_chan (s keep) : (resetRegs s keep).chan = s.chan := rfl
@[simp] theorem resetRegs_host (s keep) : (resetRegs s keep).host = s.host := rfl
@[simp] theorem resetRegs_rte (s keep) : (resetRegs s keep).rte = s.rte := rfl
@[simp] theorem resetRegs_sec (s keep) : (resetRegs s keep).sec = s.sec := rfl
@[simp] theorem resetRegs_lane (s keep) : (resetRegs s keep).lane = s.lane := rfl
@[simp] theorem resetRegs_rpt (s keep) : (resetRegs s keep).rpt = s.rpt := rfl
@[simp] theorem resetRegs_mbx (s keep) : (resetRegs s keep).mbx = s.mbx := rfl
@[simp] theorem resetRegs_parts (s keep) : (resetRegs s keep).parts = s.parts := rfl
@[simp] theorem resetRegs_boot (s keep) : (resetRegs s keep).boot = s.boot := rfl
@[simp] theorem resetRegs_rel (s keep) : (resetRegs s keep).rel = s.rel := rfl
@[simp] theorem resetRegs_obs (s keep) : (resetRegs s keep).obs = s.obs := rfl
@[simp] theorem resetRegs_notes (s keep) : (resetRegs s keep).notes = s.notes := rfl

/-! ### lowRead -/

@[simp] theorem lowRead_pending (s t w) : (lowRead s t w).pending = s.pending := rfl
@[simp] theorem lowRead_clk (s t w) : (lowRead s t w).clk = s.clk := rfl
@[simp] theorem lowRead_free (s t w) : (lowRead s t w).free = s.free := rfl
@[simp] theorem lowRead_regs (s t w) : (lowRead s t w).regs = s.regs := rfl
@[simp] theorem lowRead_mem (s t w) : (lowRead s t w).mem = s.mem := rfl
@[simp] theorem lowRead_memPoison (s t w) : (lowRead s t w).memPoison = s.memPoison := rfl
@[simp] theorem lowRead_log (s t w) : (lowRead s t w).log = s.log := rfl
@[simp] theorem lowRead_dyn (s t w) : (lowRead s t w).dyn = s.dyn := rfl
@[simp] theorem lowRead_sch (s t w) : (lowRead s t w).sch = s.sch := rfl
@[simp] theorem lowRead_arb (s t w) : (lowRead s t w).arb = s.arb := rfl
@[simp] theorem lowRead_trig (s t w) : (lowRead s t w).trig = s.trig := rfl
@[simp] theorem lowRead_red (s t w) : (lowRead s t w).red = s.red := rfl
@[simp] theorem lowRead_coll (s t w) : (lowRead s t w).coll = s.coll := rfl
@[simp] theorem lowRead_slu (s t w) : (lowRead s t w).slu = s.slu := rfl
@[simp] theorem lowRead_chan (s t w) : (lowRead s t w).chan = s.chan := rfl
@[simp] theorem lowRead_host (s t w) : (lowRead s t w).host = s.host := rfl
@[simp] theorem lowRead_rte (s t w) : (lowRead s t w).rte = s.rte := rfl
@[simp] theorem lowRead_sec (s t w) : (lowRead s t w).sec = s.sec := rfl
@[simp] theorem lowRead_lane (s t w) : (lowRead s t w).lane = s.lane := rfl
@[simp] theorem lowRead_rpt (s t w) : (lowRead s t w).rpt = s.rpt := rfl
@[simp] theorem lowRead_mbx (s t w) : (lowRead s t w).mbx = s.mbx := rfl
@[simp] theorem lowRead_parts (s t w) : (lowRead s t w).parts = s.parts := rfl
@[simp] theorem lowRead_boot (s t w) : (lowRead s t w).boot = s.boot := rfl
@[simp] theorem lowRead_rel (s t w) : (lowRead s t w).rel = s.rel := rfl
@[simp] theorem lowRead_obs (s t w) : (lowRead s t w).obs = s.obs := rfl
@[simp] theorem lowRead_notes (s t w) : (lowRead s t w).notes = s.notes := rfl

end Sys2Proof.Machine
end

