-- ==== Sys2Proof/Laws/Arrive.lean ====
section
/-!
SUPPORT. What the arrival of a packet does once it has passed its checks.
-/
namespace Sys2Proof.Machine

/-- A packet that passes its checks acts in the state `received` describes. -/
theorem arrive_passes {s : State} {p : Pkt} (k : State → State) (h : passesChecks s p = true) : arrive s p k = k (received s p) := by
  simp only [passesChecks, Bool.and_eq_true] at h
  obtain ⟨⟨⟨⟨⟨⟨h0, h1⟩, h2⟩, h3⟩, h4⟩, h5⟩, h6⟩ := h
  have a1 : ownerOk (takeNet s p) p = true := h5
  have a2 : ((p.dst.dep = 0 ∨ p.dst.dep = 5) ∧ (!good (takeNet s p) p.dst.tile) = true) = False := by
    simp only [Bool.or_eq_true, Bool.not_eq_true', Bool.or_eq_false_iff, Bool.and_eq_true] at h4
    simp only [eq_iff_iff, iff_false, not_and, Bool.not_eq_true', Bool.not_eq_false]
    intro x
    rcases h4 with h4 | h4
    · rcases x with x | x <;> simp [x] at h4
    · exact h4.1
  have a3 : ((p.dst.dep = 0 ∨ p.dst.dep = 5) ∧ oddTwin (takeNet s p) p.dst.tile = true ∧ (!oddOk p) = true) = False := by
    simp only [Bool.or_eq_true, Bool.not_eq_true', Bool.or_eq_false_iff, Bool.and_eq_true] at h4
    simp only [eq_iff_iff, iff_false, not_and, Bool.not_eq_true']
    intro x y
    rcases h4 with h4 | h4
    · rcases x with x | x <;> simp [x] at h4
    · rcases h4.2 with z | z
      · rw [show oddTwin (takeNet s p) p.dst.tile = oddTwin s p.dst.tile from rfl, z] at y; cases y
      · simp [z]
  unfold arrive
  simp only [h0, h1, h3, h6, a1, a2, a3, Bool.not_true, Bool.false_eq_true, if_false]
  split
  · rename_i hb; rw [hb] at h2; simp at h2
  · rfl

/-- The OPID counters are the only registers that counting a packet touches. -/
theorem rd_matchOp (s : State) (tile layer opid n off : Nat) (h : ∀ k, k < 4 → off ≠ Reg.tniOpmCnt tile k) :
    rd (matchOp s tile layer opid n) off = rd s off := by
  unfold matchOp
  suffices H : ∀ (l : List Nat), (∀ k ∈ l, k < 4) → ∀ u : State, rd u off = rd s off →
      rd (l.foldl (fun s k =>
        let c := Reg.tniOpmCfg tile k
        if ((layer ^^^ fld s c TniOpmCfg.LV) &&& fld s c TniOpmCfg.LM) = 0 ∧
           ((opid ^^^ fld s c TniOpmCfg.OV) &&& fld s c TniOpmCfg.OM) = 0 then
          bump (bump s (Reg.tniOpmCnt tile k) TniOpmCnt.PKTS 1) (Reg.tniOpmCnt tile k) TniOpmCnt.BYTES n
        else s) u) off = rd s off from
    H _ (fun k hk => List.mem_range.1 hk) s rfl
  intro l
  induction l with
  | nil => intro _ u hu; exact hu
  | cons a r ih =>
    intro hl u hu
    refine ih (fun k hk => hl k (List.mem_cons_of_mem a hk)) _ ?_
    have ha := h a (hl a List.mem_cons_self)
    dsimp only
    split
    · rw [bump, rd_setFld_ne _ _ _ ha, bump, rd_setFld_ne _ _ _ ha]; exact hu
    · exact hu

theorem epBlk_tile {e : Ep} (h : Ep_kind e = .tile ∨ Ep_kind e = .sluice) : epBlk e = .tni e.tile := by
  unfold Ep_kind at h
  unfold epBlk
  rcases h with h | h <;> rw [h]

/-- What is on the network stays there when waiting packets enter it. -/
theorem entryNext_net {s : State} {q : Pkt} (h : q ∈ s.dyn.net) : q ∈ (entryNext s).dyn.net := by
  have fold : ∀ {α : Type} (f : State → α → State), (∀ u a, q ∈ u.dyn.net → q ∈ (f u a).dyn.net) →
      ∀ (l : List α) (u : State), q ∈ u.dyn.net → q ∈ (l.foldl f u).dyn.net := by
    intro α f hf l
    induction l with
    | nil => intro u hu; exact hu
    | cons a r ih => intro u hu; exact ih _ (hf u a hu)
  unfold entryNext
  refine fold _ ?_ _ _ (fold _ ?_ _ _ h)
  · intro u y hu
    refine fold _ ?_ _ _ hu
    intro v a hv
    have e : (freeAsm v y.1 a).dyn = v.dyn := (freeAsm_keeps (w := [.lane]) (by decide) (Keeps.refl _ v)).only .dyn (by decide)
    rw [e]; exact hv
  · intro u x hu
    split
    · have e : ∀ v n p, (freeOwed v n p).dyn = v.dyn := fun v n p =>
        (freeOwed_keeps (w := [.lane]) (by decide) (Keeps.refl _ v)).only .dyn (by decide)
      rw [e]
      exact List.mem_append_left _ hu
    · exact hu

/-- What is on the network stays there when an ingress lane port's slot returns. -/
theorem entryBack_net {s : State} {p q : Pkt} (h : q ∈ s.dyn.net) : q ∈ (entryBack s p).dyn.net := by
  unfold entryBack
  dsimp only
  split
  · exact h
  · exact entryNext_net h

/-- An untraced response goes out unchanged when no injection is armed at the unit that sends it. -/
theorem inject_response {s : State} {p : Pkt} (ho : isResponse p.opc = true) (ht : p.trc = false) (hf : p.sfmt = 0) (he : p.efmt = 0)
    (hi : flag s (injReg (epBlk p.src)) Inj.ARM = false) : stamp p ∈ (inject s p).dyn.net := by
  cases p
  dsimp only at ho ht hf he hi
  subst ht hf he
  have aux : ∀ (u : State) (q : Pkt), flag u (injReg (epBlk q.src)) Inj.ARM = false → u.dyn = s.dyn →
      stamp q ∈ (putNet u q).dyn.net := by
    intro u q hu hd
    unfold putNet
    simp [injArmed, hu, hd]
  unfold inject
  simp only [ho, if_true, injFormat, tracePkt, Bool.false_eq_true, if_false, bne_self_eq_false, Bool.false_or]
  split
  · rename_i hk
    simp only [Nat.reduceBEq, Bool.false_and, Bool.false_eq_true, if_false]
    refine entryBack_net (aux _ _ ?_ ((matchOp_keeps (w := [.regs]) (by decide) (Keeps.refl _ s)).only .dyn (by decide)))
    rw [flag, fld, rd_matchOp]
    · exact hi
    · intro k _
      rw [epBlk_tile hk]
      simp only [injReg, Reg.inj, Reg.tniOpmCnt]
      omega
  · simp only [Nat.reduceBEq, Bool.false_and, Bool.false_eq_true, if_false]
    exact entryBack_net (aux _ _ hi rfl)

/-- A response answers its request. -/
theorem rspTo_net {s : State} {p : Pkt} {from_ : Ep} {opc : Opc} {prio : Nat} {data : List Byte} {psn : Bool} (ho : isResponse opc = true)
    (ht : p.trc = false) (hi : flag s (injReg (epBlk from_)) Inj.ARM = false) :
    ∃ q ∈ (rspTo s p from_ opc prio data psn).dyn.net, q.opc = opc ∧ q.src = from_ ∧ q.dst = p.src ∧ q.tag = p.tag ∧ q.tenant = p.tenant ∧
      q.data = data := by
  unfold rspTo
  rw [if_neg (by simp [injArmed, hi])]
  generalize hq : ({ opc := opc, src := from_, dst := p.src, tenant := p.tenant, prio := prio, tag := p.tag, addr := p.addr,
                     nbytes := data.length, opid := p.opid, layer := p.layer, poison := psn, trc := p.trc, data := data } : Pkt) = q
  have h1 : q.opc = opc ∧ q.src = from_ ∧ q.dst = p.src ∧ q.tag = p.tag ∧ q.tenant = p.tenant ∧ q.data = data ∧ q.trc = p.trc ∧
      q.sfmt = 0 ∧ q.efmt = 0 := by subst hq; simp
  obtain ⟨ho', hs, hd, ht', hn, hb, hr, hf, he⟩ := h1
  have e := inject_response (s := s) (p := q) (ho'.symm ▸ ho) (hr.trans ht) hf he (hs.symm ▸ hi)
  exact ⟨stamp q, e, ho', hs, hd, ht', hn, hb⟩

theorem ackTo_answered {s : State} {p : Pkt} {st : Status} (h : plainSend s p = true) :
    Answered (ackTo s p st) p .ack [BitVec.ofNat 8 st.code] := by
  simp only [plainSend, Bool.and_eq_true, Bool.not_eq_true'] at h
  exact rspTo_net rfl h.1 h.2

theorem errTo_answered {s : State} {p : Pkt} {st : Status} (he : expects p.opc = true) (hs : srcOk s p = true) (h : plainSend s p = true) :
    Answered (errTo s p st) p .errRsp [BitVec.ofNat 8 st.code] := by
  simp only [plainSend, Bool.and_eq_true, Bool.not_eq_true'] at h
  rw [errTo, he, hs, Bool.and_true, if_pos rfl]
  exact rspTo_net rfl h.1 h.2

theorem rspTo_answered {s : State} {p : Pkt} {opc : Opc} {prio : Nat} {data : List Byte} {psn : Bool} (ho : isResponse opc = true)
    (h : plainSend s p = true) : Answered (rspTo s p p.dst opc prio data psn) p opc data := by
  simp only [plainSend, Bool.and_eq_true, Bool.not_eq_true'] at h
  exact rspTo_net ho h.1 h.2

/-- A standpipe message that passes its checks acts in the state it was taken from the standpipe in. -/
theorem spArrive_passes {s : State} {m : SpMsg} (k : State → State) (h : markPasses s m = true) : spArrive s m k = k (spTake s m) := by
  simp only [markPasses, Bool.and_eq_true, beq_iff_eq] at h
  obtain ⟨⟨⟨⟨h1, h0⟩, h2⟩, h3⟩, h4⟩ := h
  have e : myChip (spTake s m) = myChip s := rfl
  unfold spArrive
  dsimp only
  rw [if_neg (by rw [e]; simp [h1, h0]), if_neg (by simp [h2])]
  split
  · rename_i hb; rw [hb] at h3; cases h3
  · rw [if_pos h4]

end Sys2Proof.Machine
end

