-- ==== Sys2Proof/WellFormed.lean ====
section
/-!
DEFINITION. Which commands are well formed: every operand that names a place lies in that place's range (R13, R26, R145, R353, R389, R425), and what
arrives from outside fits its fields (R103, R284, R439, R500, R502). The meanings do not lean on it: a command that is not well formed has the
effect its meaning gives it.
-/
namespace Sys2Proof

/-- A number below a bound. -/
def below (n k : Nat) : Bool := decide (n < k)

/-- A number that is absent or below a bound. -/
def optBelow (k : Nat) : Option Nat → Bool
  | some n => below n k
  | none => true

/-- An endpoint's fields fit the header (R103). -/
def epOk (e : Ep) : Bool := below e.chip 256 && below e.tile 64 && below e.dep 16

/-- A packet's fields fit the header, and its payload one packet (R103, R105). -/
def pktOk (p : Pkt) : Bool :=
  epOk p.src && epOk p.dst && below p.opc.code 64 && below p.tenant 256 && below p.prio 4 && below p.tag 4096 && below p.addr (2 ^ 56) &&
    below p.nbytes 4097 && below p.efmt 16 && below p.sfmt 4 && below p.opid 65536 && below p.layer 65536 && below p.dclass 2 &&
    below p.hcrc 65536 && below p.data.length 4097

/-- A standpipe message has one to five words of 64 bits (R284). -/
def spOk (m : SpMsg) : Bool := below 0 m.words.length && below m.words.length 6 && m.words.all (below · (2 ^ 64))

/-- A frame's addresses, ports and header fields fit (R439, R440). -/
def frameOk (f : Frame) : Bool :=
  below f.srcIp (2 ^ 128) && below f.dstIp (2 ^ 128) && below f.sport 65536 && below f.dport 65536 && below f.bth.dqpn (2 ^ 24) &&
    below f.bth.psn (2 ^ 32) && below f.bth.msn (2 ^ 24)

/-- A control block's fields fit (R500). -/
def ctlOk (b : CtlBlock) : Bool := below b.kind 256 && below b.sub 256 && below b.content.length 155 && below b.crc (2 ^ 32)

/-- A link flit's trailer fits (R502). -/
def flitOk (f : LinkFlit) : Bool := below f.bytes.length 153 && below f.seq 4096 && below f.ack 4096 && below f.crc (2 ^ 32)

/-- The number of a window lies in its range (R668). -/
def blkOk : Blk → Bool
  | .fab => true
  | .sec => true
  | .hp => true
  | .tel => true
  | .mep n => below n 12
  | .lp n => below n 16
  | .rte n => below n 2
  | .rtr t => below t 64
  | .tni t => below t 64

/-- An arbiter that exists (R145). -/
def arbOk : Arb → Bool
  | .mep n => below n 12
  | .sp t n => below t 64 && below n 4
  | .ru t => below t 64
  | .lp n => below n 16
  | .rte n => below n 2
  | .hp => true

/-- A requester of an arbiter and a transfer's grains (R146, R185). -/
def reqOk (r : ArbReq) : Bool := below r.who 128 && below r.prio 4 && below r.cls 8 && decide (1 ≤ r.grains) && decide (r.grains ≤ 32)

/-- A command's source, with at most 192 inline bytes (R367, R368). -/
def srcOk : CmdSrc → Bool
  | .ring fn r => below fn 64 && below r 16
  | .core t d inl => below t 64 && below d (2 ^ 512) && below inl.length 193
  | .held t => below t 64
  | .trig b => blkOk b

/-- Host memory answers with at most one bundle (R420). -/
def hostOk : HostData → Bool
  | .ok bs => below bs.length (2 ^ 24 + 1)
  | .poisoned bs => below bs.length (2 ^ 24 + 1)
  | .unsupported => true
  | .completerAbort => true

/-- A register access names an offset of its space (R353, R668). -/
def targetOk : RegTarget → Bool
  | .csr off => below off (2 ^ 26)
  | .bar0 fn off => below fn 64 && below off (2 ^ 24)

/-- A beat of at most 256 bytes (R56). -/
def beatOk : Option Beat → Bool
  | some b => below b.data.length 257
  | none => true

/-- Is a command well formed? -/
def Instr.wf : Instr → Bool
  | .registerWrite t _ v => targetOk t && below v (2 ^ 64)
  | .lowHalfRead r => targetOk r.reg
  | .csrWr p => pktOk p
  | .csrRd p => pktOk p
  | .csrRsp p => pktOk p
  | .fabPkgInfoWrite v => below v (2 ^ 64)
  | .twinMapWrite v => below v (2 ^ 64)
  | .phaseOwnerWrite tile _ _ v => below tile 64 && below v (2 ^ 64)
  | .mepDescOwnerWrite mep _ v => below mep 12 && below v (2 ^ 64)
  | .streamDescWrite b _ v => blkOk b && below v (2 ^ 64)
  | .schArm t time => below t 64 && below time (2 ^ 64)
  | .schDisarm t => below t 64
  | .schArmCheckDone t => below t 64
  | .schTakeover t => below t 64
  | .schStart t => below t 64
  | .scheduledBeatArrival tile _ b => below tile 64 && beatOk b
  | .streamBeatInject b _ _ _ _ => blkOk b
  | .streamBeatExtract b _ _ _ => blkOk b
  | .mepStageReadIssue mep _ _ _ => below mep 12
  | .mepStackReadDone mep _ _ _ _ => below mep 12
  | .mepAbsorbWrite mep => below mep 12
  | .schedIngressBeat b _ => blkOk b
  | .lpSbindWrite lp _ => below lp 16
  | .rteSbindWrite rte _ => below rte 2
  | .ruSchedBeat tile _ => below tile 64
  | .slipAssert t tile => below t 64 && below tile 64
  | .slip m => spOk m
  | .freezeQuantumStart t => below t 64
  | .freezeQuantumEnd t => below t 64
  | .slipLimitStop t => below t 64
  | .requestSend _ => true
  | .routerFlitArrival tile _ p _ => below tile 64 && pktOk p
  | .rdReq p host => pktOk p && hostOk host
  | .rdRsp p => pktOk p
  | .wr p => pktOk p
  | .wrAck p => pktOk p
  | .mcWr tile _ p => below tile 64 && pktOk p
  | .atFadd p => pktOk p
  | .atSwap p => pktOk p
  | .atCas p => pktOk p
  | .atRsp p => pktOk p
  | .msg p => pktOk p
  | .rsvReq p => pktOk p
  | .rsvGrant p => pktOk p
  | .rsvRelease p => pktOk p
  | .cisternGrant ep => epOk ep
  | .mcastEligible ep => epOk ep
  | .rsvTimeout ep _ => epOk ep
  | .responseTimeout ep _ => epOk ep
  | .tagQuarantineEnd ep _ => epOk ep
  | .leaseExpire ep _ => epOk ep
  | .ctrAdd p => pktOk p
  | .redContrib p => pktOk p
  | .redResult p => pktOk p
  | .spSpill tile src m => below tile 64 && epOk src && spOk m
  | .mbx p => pktOk p
  | .ack p => pktOk p
  | .errRsp p => pktOk p
  | .arbiterCycle a reqs _ => arbOk a && reqs.all reqOk
  | .creditRefill a => arbOk a
  | .transferPark a => arbOk a
  | .watchdogBite a => arbOk a
  | .arbStarvation a r => arbOk a && below r 64
  | .starvationPolicy a r => arbOk a && below r 64
  | .weightRestore a r => arbOk a && below r 64
  | .arbArm a time => arbOk a && below time (2 ^ 64)
  | .arbDisarm a => arbOk a
  | .arbArmCheckDone a => arbOk a
  | .slotTableSwitch a => arbOk a
  | .shaperRefill a r => arbOk a && below r 64
  | .shaperEnable a r v => arbOk a && below r 64 && below v (2 ^ 64)
  | .gateArm b time => blkOk b && below time (2 ^ 64)
  | .gateDisarm b => blkOk b
  | .gateArmCheckDone b => blkOk b
  | .gateTakeover b => blkOk b
  | .gateEntryAdvance b => blkOk b
  | .redCtxEnable tile c _ _ => below tile 64 && below c 16
  | .redCtxDisable tile c v => below tile 64 && below c 16 && below v (2 ^ 64)
  | .redEmit tile c => below tile 64 && below c 16
  | .redEmitTimer tile c => below tile 64 && below c 16
  | .stepTimeout tile c => below tile 64 && below c 16
  | .shadowWindow tile _ => below tile 64
  | .shadowMismatch tile c _ _ _ _ _ => below tile 64 && below c 16
  | .shadowRecomputeDone tile _ _ _ => below tile 64
  | .triggerArm b _ v => blkOk b && below v (2 ^ 64)
  | .triggerDisarm b _ v => blkOk b && below v (2 ^ 64)
  | .triggerFire b => blkOk b
  | .collective src => srcOk src
  | .memberTimeout tile gidx => below tile 64 && below gidx 4096
  | .up src m => epOk src && spOk m
  | .down m => spOk m
  | .downFail m => spOk m
  | .open_ m => spOk m
  | .close m => spOk m
  | .result m => spOk m
  | .abortReq m => spOk m
  | .abort m => spOk m
  | .freeze m => spOk m
  | .start m => spOk m
  | .spSpillReadback tile => below tile 64
  | .sluiceDispatch src => srcOk src
  | .sluiceReturn src => srcOk src
  | .sluiceCombine src => srcOk src
  | .claim p => pktOk p
  | .homeAdmission tile _ _ => below tile 64
  | .assign p => pktOk p
  | .rows p => pktOk p
  | .return_ p => pktOk p
  | .sluiceTimeout tile gidx => below tile 64 && below gidx 4096
  | .inboxEnable tile _ _ _ => below tile 64
  | .inboxDisable tile _ v => below tile 64 && below v (2 ^ 64)
  | .send src => srcOk src
  | .ringWrite tile c => below tile 64 && below c 4096
  | .spillWriteTimeout tile c _ => below tile 64 && below c 4096
  | .refillRead tile c => below tile 64 && below c 4096
  | .handlerDispatch tile => below tile 64
  | .retire tile c _ => below tile 64 && below c 4096
  | .channelCoreClose tile c => below tile 64 && below c 4096
  | .reopen tile c => below tile 64 && below c 4096
  | .channelCoreReset tile c => below tile 64 && below c 4096
  | .strayAccess fn _ _ => below fn 64
  | .crDoorbell fn r v => below fn 64 && below r 16 && below v (2 ^ 64)
  | .cqDoorbell fn r v => below fn 64 && below r 16 && below v (2 ^ 64)
  | .descriptorFetch fn r d => below fn 64 && below r 16 && hostOk d
  | .descriptorReread fn r d => below fn 64 && below r 16 && hostOk d
  | .nop src => srcOk src
  | .copy src => srcOk src
  | .writeInline src => srcOk src
  | .atomic src => srcOk src
  | .mcastWrite src => srcOk src
  | .contrib src => srcOk src
  | .ctrAddCommand src => srcOk src
  | .commandComplete _ => true
  | .functionLevelReset fn => below fn 64
  | .hostLinkDown => true
  | .hostLinkDrainDone => true
  | .hostLinkUp => true
  | .errlogRead fn => below fn 64
  | .soundingTake fn _ => below fn 64
  | .soundingPageRead fn => below fn 64
  | .counterFreeze fn => below fn 64
  | .counterThaw fn => below fn 64
  | .fabricReset fn => below fn 64
  | .fmpRecover fn => below fn 64
  | .domainConfigure c => below c.fn 64 && hostOk c.list
  | .timeMeasure fn => below fn 64
  | .partitionCreate fn blk => below fn 64 && hostOk blk
  | .partitionDestroy fn => below fn 64
  | .zeroFillDone t => below t 64
  | .keyLoad fn => below fn 64
  | .keySwitch fn => below fn 64
  | .partitionSeal fn => below fn 64
  | .hostRecover fn => below fn 64
  | .ringCreate fn => below fn 64
  | .ringDestroy fn => below fn 64
  | .schedLoad fn list => below fn 64 && hostOk list
  | .schedArm fn => below fn 64
  | .schedStop fn => below fn 64
  | .groupCreate fn list => below fn 64 && hostOk list
  | .groupDestroy fn => below fn 64
  | .channelOpen fn => below fn 64
  | .channelClose fn => below fn 64
  | .channelReset fn => below fn 64
  | .arbSet fn => below fn 64
  | .arbConfigure fn list => below fn 64 && hostOk list
  | .counterRead fn => below fn 64
  | .traceConfigure fn list => below fn 64 && hostOk list
  | .qpCreate fn blk => below fn 64 && hostOk blk
  | .qpDestroy fn => below fn 64
  | .mrRegister fn blk => below fn 64 && hostOk blk
  | .mrDeregister fn => below fn 64
  | .patternLoad fn bundle => below fn 64 && hostOk bundle
  | .patternRun fn _ => below fn 64
  | .fmpWatchdogBite => true
  | .heartbeat => true
  | .qpPost src => srcOk src
  | .qpOpSend rte q => below rte 2 && below q 16384
  | .pacedRelease rte q => below rte 2 && below q 16384
  | .portSelect rte k => below rte 2 && below k 4
  | .frameStart rte k => below rte 2 && below k 4
  | .underrun rte k => below rte 2 && below k 4
  | .startthDecay rte k => below rte 2 && below k 4
  | .write rte k f => below rte 2 && below k 4 && frameOk f
  | .readReq rte k f => below rte 2 && below k 4 && frameOk f
  | .readRsp rte k f => below rte 2 && below k 4 && frameOk f
  | .transportSend rte k f => below rte 2 && below k 4 && frameOk f
  | .transportAtomic rte k f => below rte 2 && below k 4 && frameOk f
  | .atomicRsp rte k f => below rte 2 && below k 4 && frameOk f
  | .relay rte k f => below rte 2 && below k 4 && frameOk f
  | .transportAck rte k f => below rte 2 && below k 4 && frameOk f
  | .transportClose rte k f => below rte 2 && below k 4 && frameOk f
  | .probe rte k f => below rte 2 && below k 4 && frameOk f
  | .ethControlFrame rte k _ => below rte 2 && below k 4
  | .ackDelayExpire rte q => below rte 2 && below q 16384
  | .retransmitTimeout rte q => below rte 2 && below q 16384
  | .rnrRetry rte q => below rte 2 && below q 16384
  | .pathProbe rte q => below rte 2 && below q 16384
  | .closeResend rte q => below rte 2 && below q 16384
  | .ethPortDown rte k => below rte 2 && below k 4
  | .ethPortUp rte k => below rte 2 && below k 4
  | .lpiEnter rte k => below rte 2 && below k 4
  | .lpiWake rte k => below rte 2 && below k 4
  | .eeeTlvExchange rte k _ _ => below rte 2 && below k 4
  | .macReset rte k => below rte 2 && below k 4
  | .laneBlockSend lp _ => below lp 16
  | .linkFlit lp f => below lp 16 && flitOk f
  | .align lp b => below lp 16 && decide (b.lanes.length = 32)
  | .ts lp b => below lp 16 && ctlOk b
  | .sp lp b => below lp 16 && ctlOk b
  | .retry lp b => below lp 16 && ctlOk b
  | .ctl lp b => below lp 16 && ctlOk b
  | .tag lp b => below lp 16 && ctlOk b
  | .quiet lp b => below lp 16 && ctlOk b
  | .deep lp b => below lp 16 && ctlOk b
  | .linkRetryTimeout lp => below lp 16
  | .laneRecoveryFail lp => below lp 16
  | .peerClockDetect lp => below lp 16
  | .detectTimeout lp => below lp 16
  | .alignDone lp => below lp 16
  | .eqDone lp _ _ => below lp 16
  | .configRetry lp => below lp 16
  | .quietEnter lp => below lp 16
  | .quietExit lp => below lp 16
  | .deepEnter lp => below lp 16
  | .deepWake lp _ => below lp 16
  | .lanePeerLoss lp _ => below lp 16
  | .lanePortCfgWrite lp off v => below lp 16 && below off (2 ^ 26) && below v (2 ^ 64)
  | .prbs lp v _ => below lp 16 && below v (2 ^ 64)
  | .neslb lp v => below lp 16 && below v (2 ^ 64)
  | .neplb lp v => below lp 16 && below v (2 ^ 64)
  | .felb lp v _ => below lp 16 && below v (2 ^ 64)
  | .testModeOff lp v => below lp 16 && below v (2 ^ 64)
  | .inj lp v => below lp 16 && below v (2 ^ 64)
  | .injcrc lp v => below lp 16 && below v (2 ^ 64)
  | .injcode lp v => below lp 16 && below v (2 ^ 64)
  | .injsp lp v => below lp 16 && below v (2 ^ 64)
  | .scrubFillDone mep _ => below mep 12
  | .porstRelease _ => true
  | .porstAssert => true
  | .pllLock => true
  | .hbmControllersReady => true
  | .clockLoss => true
  | .rootPllRelock => true
  | .domainResetDone lp => optBelow 16 lp
  | .hbmControllerReset mep taken => below mep 12 && taken.all pktOk
  | .undervoltage => true
  | .sensorSample site _ _ => below site 80
  | .thermalTrip site => below site 80
  | .fabricIdleEnter => true
  | .wakeLatch src => below src 6
  | .wake v => below v (2 ^ 64)
  | .configScrub _ => true
  | .coreClear tile => below tile 64
  | .injectionArm off v => below off (2 ^ 26) && below v (2 ^ 64)
  | .transHalving => true
  | .freezeApply => true
  | .traceFlush _ _ => true
  | .pcSample tile _ _ => below tile 64
  | .watchRoundClose tile k => below tile 64 && below k 4
  | .watchReadbackDone tile k => below tile 64 && below k 4
  | .refclkLoss => true
  | .refclkReturn => true
  | .hbmControllerResetEnd mep => below mep 12
  | .memoryStageTimeout => true
  | .reportQueueRelease fn v => below fn 64 && below v (2 ^ 64)
  | .msiXVectorUnmask fn vec => below fn 64 && below vec 64

end Sys2Proof
end

