-- ==== Sys2Proof/Laws/Windows.lean ====
section
/-!
SUPPORT. Where the windows of control space lie (R668): which block and register an offset of an arbiter window names, and which slot tables no
schedule's takeover affects.
-/
namespace Sys2Proof.Machine
open Sys2Proof

theorem blkOf_mep (n o x : Nat) (hx : x = 0x400000 + n * 0x10000 + o) (hn : n < 12) (ho : o < 0x10000) : blkOf x = some (.mep n, o) := by
  simp only [blkOf, show ¬ x < 0x100000 by omega, show ¬ x < 0x200000 by omega, show ¬ x < 0x300000 by omega, show ¬ x < 0x400000 by omega,
    show x < 0x4C0000 by omega, if_true, if_false, show (x - 0x400000) / 0x10000 = n by omega, show (x - 0x400000) % 0x10000 = o by omega]
theorem blkOf_lp (n o x : Nat) (hx : x = 0x600000 + n * 0x20000 + o) (hn : n < 16) (ho : o < 0x20000) : blkOf x = some (.lp n, o) := by
  simp only [blkOf, show ¬ x < 0x100000 by omega, show ¬ x < 0x200000 by omega, show ¬ x < 0x300000 by omega, show ¬ x < 0x400000 by omega,
    show ¬ x < 0x4C0000 by omega, show ¬ x < 0x600000 by omega, show x < 0x800000 by omega, if_true, if_false,
    show (x - 0x600000) / 0x20000 = n by omega, show (x - 0x600000) % 0x20000 = o by omega]
theorem blkOf_rte (n o x : Nat) (hx : x = 0x800000 + n * 0x100000 + o) (hn : n < 2) (ho : o < 0x100000) : blkOf x = some (.rte n, o) := by
  simp only [blkOf, show ¬ x < 0x100000 by omega, show ¬ x < 0x200000 by omega, show ¬ x < 0x300000 by omega, show ¬ x < 0x400000 by omega,
    show ¬ x < 0x4C0000 by omega, show ¬ x < 0x600000 by omega, show ¬ x < 0x800000 by omega, show x < 0xA00000 by omega, if_true, if_false,
    show (x - 0x800000) / 0x100000 = n by omega, show (x - 0x800000) % 0x100000 = o by omega]
theorem blkOf_rtr (n o x : Nat) (hx : x = 0x1000000 + n * 0x40000 + o) (hn : n < 64) (ho : o < 0x40000) : blkOf x = some (.rtr n, o) := by
  simp only [blkOf, show ¬ x < 0x100000 by omega, show ¬ x < 0x200000 by omega, show ¬ x < 0x300000 by omega, show ¬ x < 0x400000 by omega,
    show ¬ x < 0x4C0000 by omega, show ¬ x < 0x600000 by omega, show ¬ x < 0x800000 by omega, show ¬ x < 0xA00000 by omega,
    show ¬ x < 0x1000000 by omega, show x < 0x2000000 by omega, if_true, if_false,
    show (x - 0x1000000) / 0x40000 = n by omega, show (x - 0x1000000) % 0x40000 = o by omega]
theorem blkOf_tni (n o x : Nat) (hx : x = 0x2000000 + n * 0x80000 + o) (hn : n < 64) (ho : o < 0x80000) : blkOf x = some (.tni n, o) := by
  simp only [blkOf, show ¬ x < 0x100000 by omega, show ¬ x < 0x200000 by omega, show ¬ x < 0x300000 by omega, show ¬ x < 0x400000 by omega,
    show ¬ x < 0x4C0000 by omega, show ¬ x < 0x600000 by omega, show ¬ x < 0x800000 by omega, show ¬ x < 0xA00000 by omega,
    show ¬ x < 0x1000000 by omega, show ¬ x < 0x2000000 by omega, show x < 0x4000000 by omega, if_true, if_false,
    show (x - 0x2000000) / 0x80000 = n by omega, show (x - 0x2000000) % 0x80000 = o by omega]

theorem findReg_slot0 (k o : Nat) (ho : o = k * 8) (hk : k < 256) : findReg o arbRegs = some (arbSlot0Def, k) := by
  show findReg o (arbSlot0Def :: _) = _
  have h : arbSlot0Def.off + arbSlot0Def.first * arbSlot0Def.stride ≤ o ∧ (o - arbSlot0Def.off) % arbSlot0Def.stride = 0 ∧
    (o - arbSlot0Def.off) / arbSlot0Def.stride < arbSlot0Def.first + arbSlot0Def.count := by simp only [arbSlot0Def]; omega
  rw [findReg, if_pos h]
  simp only [arbSlot0Def]; congr 2; omega
theorem findReg_slot1 (k o : Nat) (ho : o = 0x800 + k * 8) (hk : k < 256) : findReg o arbRegs = some (arbSlot1Def, k) := by
  show findReg o (arbSlot0Def :: arbSlot1Def :: _) = _
  have h0 : ¬ (arbSlot0Def.off + arbSlot0Def.first * arbSlot0Def.stride ≤ o ∧ (o - arbSlot0Def.off) % arbSlot0Def.stride = 0 ∧
    (o - arbSlot0Def.off) / arbSlot0Def.stride < arbSlot0Def.first + arbSlot0Def.count) := by simp only [arbSlot0Def]; omega
  have h : arbSlot1Def.off + arbSlot1Def.first * arbSlot1Def.stride ≤ o ∧ (o - arbSlot1Def.off) % arbSlot1Def.stride = 0 ∧
    (o - arbSlot1Def.off) / arbSlot1Def.stride < arbSlot1Def.first + arbSlot1Def.count := by simp only [arbSlot1Def]; omega
  rw [findReg, if_neg h0, findReg, if_pos h]
  simp only [arbSlot1Def]; congr 2; omega

/-- The registers of an arbiter window. -/
theorem regAt_arb (a : Arb) (o x : Nat) (ha : arbOk a = true) (hx : x = a.base + o) (ho : o < 0x2000) :
    regAt x = (findReg o arbRegs).map fun y => (RegHome.arb a, y.1, y.2) := by
  cases a <;> simp only [arbOk, below, Bool.and_eq_true, decide_eq_true_eq] at ha <;> simp only [Arb.base, Arb.blk, Blk.base] at hx
  · rw [regAt, blkOf_mep _ (0x2000 + o) x (by omega) ha (by omega)]
    simp [show 0x2000 + o < 0x4000 by omega]
  · rename_i t n
    rw [regAt, blkOf_tni t (0x2000 + n * 0x2000 + o) x (by omega) ha.1 (by omega)]
    simp only [show 0x2000 ≤ 0x2000 + n * 0x2000 + o ∧ 0x2000 + n * 0x2000 + o < 0xA000 by omega, and_self, if_true,
      show (0x2000 + n * 0x2000 + o - 0x2000) / 0x2000 = n by omega, show (0x2000 + n * 0x2000 + o - 0x2000) % 0x2000 = o by omega]
  · rw [regAt, blkOf_rtr _ (0x2000 + o) x (by omega) ha (by omega)]
    simp [show 0x2000 + o < 0x4000 by omega]
  · rw [regAt, blkOf_lp _ (0x2000 + o) x (by omega) ha (by omega)]
    simp [show 0x2000 + o < 0x4000 by omega]
  · rw [regAt, blkOf_rte _ (0x2000 + o) x (by omega) ha (by omega)]
    simp [show 0x2000 + o < 0x4000 by omega]
  · simp only [regAt, blkOf, show ¬ x < 0x100000 by omega, show ¬ x < 0x200000 by omega, show x < 0x300000 by omega, if_true, if_false,
      show x - 0x200000 = 0x2000 + o by omega]
    simp [show 0x2000 + o < 0x4000 by omega]

/-- Slot tables read as zero after reset. -/
theorem resetWord_slot0 (a : Arb) (k : Nat) (ha : arbOk a = true) (hk : k < 256) : resetWord (Reg.arbSlot0 a k) = 0 := by
  rw [resetWord, regAt_arb a (k * 8) _ ha (by simp [Reg.arbSlot0]) (by omega), findReg_slot0 k _ rfl hk]
  show resetFields arbSlot0Def.fields = 0
  decide
theorem resetWord_slot1 (a : Arb) (k : Nat) (ha : arbOk a = true) (hk : k < 256) : resetWord (Reg.arbSlot1 a k) = 0 := by
  rw [resetWord, regAt_arb a (0x800 + k * 8) _ ha (by simp [Reg.arbSlot1]; omega) (by omega), findReg_slot1 k _ rfl hk]
  show resetFields arbSlot1Def.fields = 0
  decide

/-- A key that no entry of a table has reads as the default. -/
theorem tGet_absent {α : Type} (d : Nat → α) (k : Nat) (t : List (Nat × α)) (h : ∀ e ∈ t, e.1 ≠ k) : tGet d k t = d k := by
  induction t with
  | nil => rfl
  | cons e r ih =>
    rw [tGet, if_neg (h e (List.mem_cons_self ..))]
    exact ih fun x hx => h x (List.mem_cons_of_mem _ hx)

/-- The registers written so far are none of an arbiter's. -/
def arbFree (s : State) : Bool := s.regs.all fun e => match regAt e.1 with
  | some (.arb _, _, _) => false
  | _ => true

/-- Where no arbiter register has been written, no slot table is affected by a takeover (R71). -/
theorem slotAffected_arbFree (s : State) (t : Nat) (a : Arb) (ha : arbOk a = true) (h : arbFree s = true) : slotAffected s t a = false := by
  have key : ∀ x, (∃ d i, regAt x = some (.arb a, d, i)) → rd s x = resetWord x := by
    rintro x ⟨d, i, hx⟩
    refine tGet_absent _ _ _ fun e he hk => ?_
    have := List.all_eq_true.mp h e he
    rw [hk, hx] at this
    cases this
  have h0 : ∀ k, k < 256 → rd s (Reg.arbSlot0 a k) = 0 := fun k hk => by
    rw [key _ ⟨_, _, by rw [regAt_arb a (k * 8) _ ha (by simp [Reg.arbSlot0]) (by omega), findReg_slot0 k _ rfl hk]; rfl⟩]
    exact resetWord_slot0 a k ha hk
  have h1 : ∀ k, k < 256 → rd s (Reg.arbSlot1 a k) = 0 := fun k hk => by
    rw [key _ ⟨_, _, by rw [regAt_arb a (0x800 + k * 8) _ ha (by simp [Reg.arbSlot1]; omega) (by omega), findReg_slot1 k _ rfl hk]; rfl⟩]
    exact resetWord_slot1 a k ha hk
  rw [slotAffected, List.any_eq_false]
  intro k hk
  have hk := List.mem_range.mp hk
  unfold slotWords
  split <;> simp [h0 k hk, h1 k hk]

/-- Every arbiter with slot tables exists (R151). -/
theorem allSlots_ok (s : State) : ∀ a ∈ allSlots s, arbOk a = true := by
  intro a ha
  simp only [allSlots, List.mem_append, List.mem_map, List.mem_flatMap, List.mem_filter, List.mem_range, List.mem_cons, List.not_mem_nil,
    or_false] at ha
  rcases ha with (((⟨n, hn, rfl⟩ | ⟨t, ⟨ht, -⟩, n, hn, rfl⟩) | ⟨t, ht, rfl⟩) | ⟨n, hn, rfl⟩) | rfl | rfl <;> simp_all [arbOk, below]

end Sys2Proof.Machine
end

