-- ==== Sys2Proof/Tests/Slice0.lean ====
section
/-!
SUPPORT. Small checks of one step each, and a state that meets each statement's premises.
-/
namespace Sys2Proof.Tests
open Sys2Proof Sys2Proof.Machine

-- Proofs by decide one after another: elaborated side by side they hold a thread each.
set_option Elab.async false

/-! ### Ill-formed commands are refused by WellFormed -/

/-- A well-formed packet, message, frame, block and flit to spoil. -/
def okPkt : Pkt := { opc := .wr, src := ⟨0, 1, 0⟩, dst := ⟨0, 2, 1⟩ }
def okMsg : SpMsg := ⟨[0, 1]⟩
def okFrame : Frame := { srcIp := 0, dstIp := 0, bth := { opc := .ack } }
def okCtl : CtlBlock := { kind := 0x7C }
def okFlit : LinkFlit := { bytes := [], seq := 0, ack := 0 }

theorem test_wf_accepts : [Instr.wr okPkt, .start okMsg, .transportAck 1 3 okFrame, .retry 15 okCtl, .linkFlit 15 okFlit, .send (.ring 63 15),
    .sensorSample 79 0 0, .domainResetDone (some 15), .arbArm (.sp 63 3) 0, .rdReq okPkt (.ok [])].all Instr.wf = true := by decide +kernel

theorem test_wf_endpoint : [Instr.cisternGrant ⟨256, 0, 0⟩, .cisternGrant ⟨0, 64, 0⟩, .cisternGrant ⟨0, 0, 16⟩].any Instr.wf = false := by decide +kernel

theorem test_wf_packet : ([{ okPkt with src := ⟨256, 0, 0⟩ }, { okPkt with dst := ⟨0, 64, 0⟩ }, { okPkt with opc := .bad 64 }, { okPkt with tenant := 256 },
    { okPkt with prio := 4 }, { okPkt with tag := 4096 }, { okPkt with addr := 2 ^ 56 }, { okPkt with nbytes := 4097 }, { okPkt with efmt := 16 },
    { okPkt with sfmt := 4 }, { okPkt with opid := 65536 }, { okPkt with layer := 65536 }, { okPkt with dclass := 2 }, { okPkt with hcrc := 65536 },
    { okPkt with data := List.replicate 4097 0 }].any fun p => (Instr.wr p).wf) = false := by decide +kernel

theorem test_wf_message : ([⟨[]⟩, ⟨[0, 0, 0, 0, 0, 0]⟩, ⟨[2 ^ 64]⟩].any fun m => (Instr.start m).wf) = false := by decide +kernel

theorem test_wf_frame : ([{ okFrame with srcIp := 2 ^ 128 }, { okFrame with dstIp := 2 ^ 128 }, { okFrame with sport := 65536 }, { okFrame with dport := 65536 },
    { okFrame with bth := { opc := .ack, dqpn := 2 ^ 24 } }, { okFrame with bth := { opc := .ack, psn := 2 ^ 32 } },
    { okFrame with bth := { opc := .ack, msn := 2 ^ 24 } }].any fun f => (Instr.transportAck 0 0 f).wf) = false := by decide +kernel

theorem test_wf_block : ([{ okCtl with kind := 256 }, { okCtl with sub := 256 }, { okCtl with content := List.replicate 155 0 }, { okCtl with crc := 2 ^ 32 }].any
    fun b => (Instr.retry 0 b).wf) = false := by decide +kernel

theorem test_wf_flit : ([{ okFlit with bytes := List.replicate 153 0 }, { okFlit with seq := 4096 }, { okFlit with ack := 4096 }, { okFlit with crc := 2 ^ 32 }].any
    fun f => (Instr.linkFlit 0 f).wf) = false := by decide +kernel

theorem test_wf_window : [Instr.gateDisarm (.mep 12), .gateDisarm (.lp 16), .gateDisarm (.rte 2), .gateDisarm (.rtr 64), .gateDisarm (.tni 64)].any Instr.wf = false := by
  decide

theorem test_wf_arbiter : [Instr.arbDisarm (.mep 12), .arbDisarm (.sp 64 0), .arbDisarm (.sp 0 4), .arbDisarm (.ru 64), .arbDisarm (.lp 16), .arbDisarm (.rte 2),
    .arbiterCycle .hp [{ who := 128, id := 0, grains := 1 }] false, .arbiterCycle .hp [{ who := 0, id := 0, grains := 1, prio := 4 }] false].any Instr.wf = false := by
  decide

theorem test_wf_source : [Instr.send (.ring 64 0), .send (.ring 0 16), .send (.core 64 0 []), .send (.core 0 (2 ^ 512) []),
    .send (.core 0 0 (List.replicate 193 0)), .send (.trig (.tni 64))].any Instr.wf = false := by decide +kernel

theorem test_wf_host (bs : List Byte) (h : bs.length = 2 ^ 24 + 1) : hostOk (.ok bs) = false ∧ hostOk (.poisoned bs) = false := by
  simp [hostOk, below, h]

theorem test_wf_register : [Instr.registerWrite (.csr (2 ^ 26)) .full 0, .registerWrite (.bar0 64 0) .full 0, .registerWrite (.bar0 0 (2 ^ 24)) .full 0,
    .registerWrite (.csr 0) .full (2 ^ 64), .wake (2 ^ 64)].any Instr.wf = false := by decide +kernel

theorem test_wf_numbers : [Instr.schTakeover 64, .mepAbsorbWrite 12, .lpSbindWrite 16 0, .rteSbindWrite 2 0, .redEmit 64 0, .redEmit 0 16, .memberTimeout 0 4096,
    .refillRead 0 4096, .functionLevelReset 64, .qpOpSend 0 16384, .portSelect 0 4, .align 0 ⟨[], {}⟩, .sensorSample 80 0 0, .wakeLatch 6,
    .watchRoundClose 0 4, .msiXVectorUnmask 0 64, .arbStarvation .hp 64, .domainResetDone (some 16)].any Instr.wf = false := by decide +kernel

theorem test_wf_beat : beatOk (some ⟨⟨false, true, 1, 0⟩, List.replicate 257 0⟩) = false := by decide +kernel

/-! ### StepRunsFrontCommand -/

theorem test_StepRunsFrontCommand_premise : ({ State.reset with pending := [.heartbeat] } : State).pending = .heartbeat :: [] := by decide

/-! ### IdleStepLetsTimePass -/

/-- A running block at stage 9. -/
def running : State :=
  { setFld State.reset Reg.fabBootStat FabBootStat.STAGE 9 with clk := { now := 100, run := true, fabHeld := false, fabOff := false } }

theorem test_IdleStepLetsTimePass_premises : running.pending = [] ∧ running.clk.run = true ∧ (stage running < 2 ∨ 7 < stage running) ∧
    running.trig.adds = [] ∧ running.trig.armed = [] ∧ running.dyn.vcs = [] ∧ running.rel.restore = [] := by
  decide

/-! ### StepKeepsCanonicalForm -/

theorem test_StepKeepsCanonicalForm_premises : running.wf = true := by decide

/-! ### OnlyStoringCommandsChangeMemory -/

theorem test_OnlyStoringCommandsChangeMemory_premise : storing (.heartbeat) = false := by decide

/-! ### OnlyTheseCommandsChangeKeys -/

theorem test_OnlyTheseCommandsChangeKeys_premise : keying (.heartbeat) = false := by decide

/-! ### FieldAccessTypes -/

theorem test_FieldAccessTypes_premise : ∃ d ∈ fieldsAt Reg.fabTwinMap, d.acc = .rw := by decide

/-! ### RegisterAccessInHalves -/

theorem test_RegisterAccessInHalves_premises : reachable State.reset Reg.fabTwinMap = true ∧
    heldOf ({ State.reset with bus := { writeLatch := [(.csr Reg.fabTwinMap, 5)] } } : State).bus.writeLatch (.csr Reg.fabTwinMap) = some 5 := by
  decide

/-- The running block with its host link up. -/
def linkedRun : State := { running with host := { running.host with linkUp := true } }

theorem test_RegisterAccessAtBar0_premises : (63 : Nat) < 64 ∧ linkedRun.host.linkUp = true ∧
    ([barReg 63 (63 * 0x40000 + 0x10010), barReg 63 (63 * 0x40000 + 0x10000)].all fun r =>
      barOpen linkedRun 63 r && decide (r ≠ .stray) && ! barShort 63 r && ! barPlain r) = true := by
  decide +kernel

/-! ### ControlPacketsReachRegisters -/

/-- A register packet of the package's own FMP. -/
def csrPkt (o : Opc) (data : List Byte) : Pkt :=
  stamp { opc := o, src := fmpEp 0, dst := ⟨0, 9, 4⟩, prio := 3, tag := 7, addr := fabAddr 2 (Reg.fabTwinMap), nbytes := 8, data := data }

theorem test_ControlPackets_write_premises : csrLetsThrough State.reset (csrPkt .csrWr (toLE 8 0)) = true ∧
    plainSend (applyWrite (takeNet State.reset (csrPkt .csrWr (toLE 8 0))) (regOff (csrPkt .csrWr (toLE 8 0)).addr)
      (ofLE (slice (csrPkt .csrWr (toLE 8 0)).data 0 8))) (csrPkt .csrWr (toLE 8 0)) = true := by
  decide +kernel

theorem test_ControlPackets_read_premises : csrLetsThrough State.reset (csrPkt .csrRd []) = true ∧ plainSend State.reset (csrPkt .csrRd []) = true := by
  decide +kernel

/-- A response to the FMP, and a state that waits for it. -/
def csrAnswer : Pkt := stamp { opc := .csrRsp, src := ⟨0, 9, 4⟩, dst := fmpEp 0, prio := 3, tag := 7, nbytes := 8, data := toLE 8 77 }
def csrWaiting : State :=
  { running with dyn := { txns := [⟨fmpEp 0, 7, .csrRd, ⟨0, 9, 4⟩, .fmp, 1, 0, false, 3, 0, 0, [⟨0, 9, 4⟩], 2250⟩] } }

theorem test_ControlPackets_response_premises : passesChecks csrWaiting csrAnswer = true ∧
    (matchTxn (received csrWaiting csrAnswer) csrAnswer).isSome = true := by
  decide +kernel

/-! ### ConfigurationRegistersChangeUnderTheirRules -/

theorem test_Configuration_premises : State.reset.wf = true ∧ lanesHeld State.reset = true ∧
    lanesHeld (setFld State.reset (Reg.lpState 15) LpState.STATE 5) = false ∧ (2046 : Nat) / 4 < descCount (.mep 11) ∧ (2046 : Nat) % 4 < 3 := by
  decide +kernel

theorem test_Configuration_descriptor_premises :
    let s : State := { State.reset with bus := { slots := [(descSlot (.mep 0) (4 * 1), 1), (descSlot (.mep 0) (4 * 1) + 8, 2), (descSlot (.mep 0) (4 * 1) + 16, 3)] } }
    s.wf = true ∧ (1 : Nat) < descCount (.mep 0) ∧
    descLocked s (.mep 0) 1 (descMask ((1 : Word).toNat + (2 : Word).toNat * 2 ^ 64 + (3 : Word).toNat * 2 ^ 128 + 4 % 2 ^ 64 * 2 ^ 192)) = false := by
  decide +kernel

/-! ### ScheduleArmsAndSwitches -/

/-- The block with tenant 1's schedule armed from a state, TIME 1000. -/
def armedFrom (st : Nat) : State :=
  setFld (setFld (setFld running (Reg.fabSchArm 1) FabSchArm.TIME 1000) (Reg.fabSchCtx 1) FabSchCtx.ARMED 1) (Reg.fabSchCtx 1) FabSchCtx.STATE st

theorem test_ScheduleArms_premises : running.wf = true ∧ (0 : Nat) < 63 ∧ (63 : Nat) < 64 ∧
    (schTen { running with sch := { ten := [(63, { checking := true })] } } 63).checking = true := by
  decide +kernel

theorem test_ScheduleSwitches_premises : (armedFrom 1).wf = true ∧ quiet (armedFrom 1) = true ∧
    flag (armedFrom 1) (Reg.fabSchCtx 1) FabSchCtx.ARMED = true ∧ schState (armedFrom 1) 1 = 1 ∧ (armedFrom 2).wf = true ∧
    quiet (armedFrom 2) = true ∧ flag (armedFrom 2) (Reg.fabSchCtx 1) FabSchCtx.ARMED = true ∧ schState (armedFrom 2) 1 = 2 := by
  decide +kernel

/-! ### ScheduledBeatsMove -/

/-- Tile 0 (and descriptor 0 of MEP 0) owned by tenant 1, whose schedule runs with one quantum a round, and every slot of SRAM port 0 of tile 0
and of MEP 0 its own; descriptor 0 is a stream of one half beat, injected or extracted, in bank 0, and entry 0 of router 0 takes the tile's
beats from channel 0 to the east in round cycle 0. -/
def streaming (extract : Bool) : State :=
  let s := setFld (setFld running (Reg.fabSchCtx 1) FabSchCtx.STATE 2) (Reg.fabSchCtx 1) FabSchCtx.ROUNDQ_ACT 1
  let s := setFld (wrReg s (Reg.mepDescOwner 0 0) 1) (Reg.rtrEpOwner 0) RtrEpOwner.OWNER 1
  let s := setFld s (Reg.rtrSchRange 0 1) RtrSchRange.COUNT 1
  let s := setFld (setFld (setFld s (Reg.rtrXbar0 0 0) RtrXbar0.TENANT 1) (Reg.rtrXbar0 0 0) RtrXbar0.IN 4) (Reg.rtrXbar0 0 0) RtrXbar0.OUT 1
  let own : Word := 0x8041804180418041#64
  let s := wrReg (wrReg s (Reg.arbSlot0 (.sp 0 0) 0) own) (Reg.arbSlot0 (.mep 0) 25) own
  let d := BitVec.ofNat 64 (2 + 2 ^ 30 + if extract then 2 ^ 35 else 0)
  wrReg (wrReg s (descSlot (.tni 0) 0) d) (descSlot (.mep 0) 0) d

/-- The streaming block in another cycle, with a scheduled plane of its own. -/
def streamingAt (extract : Bool) (g : Nat) (x : SchState) : State :=
  let s := streaming extract
  { s with clk := { s.clk with now := g }, sch := x }

theorem test_ScheduledBeats_inject_premises :
    let s := streamingAt false 1024 {}
    quiet s = true ∧ runsNow s (descTenant s (.tni 0) 0) = true ∧ streamOn (later s (nextAt s 1 0)) (.tni 0) 0 = true ∧
    SdExtract (streamDesc s (.tni 0) 0) = false ∧ beatIn (streamDesc s (.tni 0) 0) 0 0 = true ∧
    (beatData (later s (nextAt s 1 0)) (.tni 0) 0 (streamDesc s (.tni 0) 0) 0 0 []).isSome = true := by
  decide +kernel

/-- A half beat of tenant 1's stream 0, on its way to router 0's channel 0, and waiting there for the sink and for the absorption buffer. -/
def half1 : Beat := ⟨⟨false, true, 1, 0⟩, [1, 2]⟩
def flight0 : FlightBeat := ⟨0, 4, 1024, half1⟩
def sinkAt0 : SinkBeat := ⟨0, 4, 0, half1, 1024⟩
def absorbed0 : AbsorbBeat := ⟨0, 0, 64, [1, 2], false, 1⟩

theorem test_ScheduledBeats_forward_premises :
    let s := streamingAt false 1020 { flight := [flight0] }
    let s' := later { s with sch := { s.sch with flight := s.sch.flight.erase flight0 } } flight0.due
    quiet s = true ∧ frozen s 1 = false ∧ dueAt s 0 4 (some half1) = some flight0 ∧ activeFor s' 0 4 ≠ [] ∧
    (∀ e ∈ activeFor s' 0 4, (4 : Nat) < 16 → e.tenant = 1 ∧ e.stream = 0 ∧ (e.out = 10 → half1.tok.half = true)) ∧
    injArmed s (.rtr 0) .sched (fun k => k == 4) = false ∧
    (∀ e ∈ activeFor s' 0 4, injArmed s (.rtr 0) .linkecc (fun k => k / 16 == e.out && k % 2 == 1) = false) := by
  decide +kernel

theorem test_ScheduledBeats_missing_premises :
    let s := streamingAt false 1024 {}
    dueAt s 0 4 none = none ∧ activeFor s 0 4 = [⟨1, 0, 0, 0, 4, 1, 0⟩] ∧
    injArmed s (.rtr 0) .linkecc (fun k => k / 16 == 1 && k % 2 == 1) = false := by
  decide +kernel

theorem test_ScheduledBeats_extract_premises :
    let s := streamingAt true 1024 { sinks := [sinkAt0], absorb := [absorbed0] }
    s.wf = true ∧ quiet s = true ∧ runsNow s (descTenant s (.tni 0) 0) = true ∧ streamOn (later s 1024) (.tni 0) 0 = true ∧ SdExtract (streamDesc s (.tni 0) 0) = true ∧
    SdPort (streamDesc s (.tni 0) 0) = 0 ∧ beatIn (streamDesc s (.tni 0) 0) 0 0 = true ∧
    max s.clk.now (nextAt s 1 0) = 1024 ∧ sinkTakes (later s 1024) (.tni 0) (streamDesc s (.tni 0) 0) 0 0 1 = true ∧
    (s.sch.sinks.find? fun y => y.tile == (descPort (.tni 0) (streamDesc s (.tni 0) 0)).1 &&
      y.port == (descPort (.tni 0) (streamDesc s (.tni 0) 0)).2 && y.at_ == 1024 && y.beat.tok.tenant == descTenant s (.tni 0) 0 &&
      y.beat.tok.stream == SdStream (streamDesc s (.tni 0) 0)) = some sinkAt0 := by
  decide +kernel

theorem test_ScheduledBeats_absorb_premises :
    let s := streamingAt true 100 { absorb := [absorbed0] }
    (((List.range 1024).map (s.clk.now + ·)).find? fun g => s.sch.absorb.any (absorbSlot s 0 g)) = some 100 ∧
    s.sch.absorb.find? (absorbSlot s 0 100) = some absorbed0 ∧
    slotSince s 0 (descTenant s (.mep 0) 0) 100 (SdBytes (streamDesc s (.mep 0) 0)) = some 100 := by
  decide +kernel

theorem test_ScheduledBeats_arrival_premises : frozen running 1 = false ∧ dueAt running 0 15 (some half1) = none ∧
    injArmed running (.rtr 0) .sched (fun k => k == 15) = false ∧ activeFor running 0 15 = [] ∧ (15 : Nat) < 16 := by
  decide +kernel

theorem test_ScheduledBeats_staging_premises :
    let s := streamingAt false 100 {}
    quiet s = true ∧ SdExtract (streamDesc s (.mep 0) 0) = false ∧ beatIn (streamDesc s (.mep 0) 0) 0 0 = true ∧
    ((readsDue s 0 0 0 0).find? fun x => ! s.sch.stage.any fun p => p.is 0 0 0 0 x.1 x.2.1).isSome = true ∧
    (s.sch.stage.filter fun p => p.mep == 0).length < 16384 := by
  decide +kernel

/-! ### ScheduledDataEntersUnits -/

/-- A stream of tenant 1 bound at lane port 0 and at channel 0 of RTE 0, with 4,096 gathered bytes there, and a beat for each. -/
def bound : State :=
  let s := setFld (setFld running (Reg.lpSbindA 0 3) LpSbindA.V 1) (Reg.lpSbindA 0 3) LpSbindA.TENANT 1
  let s := setFld (setFld s (Reg.rteSbindA 0 0) RteSbindA.V 1) (Reg.rteSbindA 0 0) RteSbindA.TENANT 1
  let s := setFld s (Reg.rteSbindC 0 0) RteSbindC.RBYTES 128
  let s := setFld s (qpStat 0 0) RteQpStat.STATE 1
  let beat : Beat := ⟨⟨false, true, 1, 0⟩, [1]⟩
  { s with sch := { sinks := [⟨blkTile (.lp 0), 6, 0, beat, 101⟩], binds := [(3, { gathered := List.replicate 4096 7 }), (16384, { gathered := List.replicate 128 7 })] },
           rte := { s.rte with qps := [(0, { tenant := 1, par := [2 ^ 47] })], ports := [(0, { up := true })] } }

theorem test_ScheduledData_ingress_premises :
    quiet bound = true ∧
    (bound.sch.sinks.find? fun y => y.tile == blkTile (.lp 0) && y.port == 6 && decide (bound.clk.now ≤ y.at_) && ! frozen bound y.beat.tok.tenant) =
      some ⟨blkTile (.lp 0), 6, 0, ⟨⟨false, true, 1, 0⟩, [1]⟩, 101⟩ ∧ boundAt bound (.lp 0) 0 ⟨false, true, 1, 0⟩ = true ∧
    boundAt running (.lp 0) 0 ⟨false, true, 1, 0⟩ = false := by
  decide +kernel

theorem test_ScheduledData_binding_premises : flag bound (Reg.lpSbindA 0 3) LpSbindA.V = true ∧
    4096 ≤ (eGet {} 3 (bindGather bound 3 (.lp 0) 0 1 0 4096).sch.binds).gathered.length ∧ flag bound (Reg.rteSbindA 0 0) RteSbindA.V = true ∧
    fld bound (Reg.rteSbindC 0 0) RteSbindC.RBYTES = 128 ∧ qpState bound 0 0 = 1 ∧
    128 ≤ (eGet {} 16384 (bindGather bound 16384 (.rte 0) 0 1 0 128).sch.binds).gathered.length ∧ (qp bound 0 0).tenant = 1 ∧
    (qp bound 0 0).ports.any (fun k => (port bound 0 k).up) = true := by
  decide +kernel

/-- Context 0 of tile 0 in MODE 2 for tenant 1, combining two operands, with a half beat at its input. -/
def combining : State :=
  let a := setF (setF (setF 0 RedCtxA.TENANT 1) RedCtxA.MODE 2) RedCtxA.NOPSM1 1
  let s := setFld (wrReg running (Reg.redCtxA 0 0) a) (Reg.redCtxS 0 0) RedCtxS.STATE 1
  { s with sch := { sinks := [⟨0, 10, 0, ⟨⟨false, true, 1, 0⟩, [1]⟩, 100⟩] } }

theorem test_ScheduledData_reduction_premises : tWf (fun _ => ({} : RedRun)) combining.red = true ∧
    (combining.sch.sinks.find? fun y => y.tile == 0 && y.port == 10 && y.ctx == 0 && ! frozen combining y.beat.tok.tenant).isSome = true ∧
    (ctxAt combining 0 0).mode = 2 ∧ ctxState combining (ctxAt combining 0 0) ≠ 0 ∧ (ctxAt combining 0 0).tenant = 1 ∧
    (redRun combining (ctxAt combining 0 0)).runN + 1 < (ctxAt combining 0 0).nops := by
  decide +kernel

/-! ### SlipsFreezeATenant -/

/-- Tenant 1 runs, with slip requests and, where given, a quantum in force. -/
def slipping (x : SchTenant) : State :=
  { setFld (setFld running (Reg.fabSchCtx 1) FabSchCtx.STATE 2) (Reg.fabSchCtx 1) FabSchCtx.SLIPMAX 1 with sch := { ten := [(1, x)] } }

/-- A SLIP message for tenant 1. -/
def slipMsg : SpMsg := SpStamp ⟨[spWord0 .slip 1 ⟨0, 0, 0⟩ 0 0 true 0 0 0, 70]⟩

theorem test_Slips_assert_premises :
    let s := streamingAt false 992 { stage := [] }
    ((slipUnits 1).any fun b => slips s 1 b) = false ∧
    ((slipUnits 0).any fun b => slips { s with arb := { s.arb with runs := [] }, regs := (wrReg s (Reg.arbSlot0 (.sp 0 0) 0) 0).regs } 1 b) = true ∧
    injArmed s (.rtr 0) .spchk (fun _ => true) = false := by
  decide +kernel

theorem test_Slips_message_premises : (slipping {}).wf = true ∧
    markPasses { slipping {} with coll := { (slipping {}).coll with spNet := [(⟨0, 0, 4⟩, slipMsg)] } } slipMsg = true ∧
    SpKindOf slipMsg = .slip ∧ SpTenant slipMsg = 1 ∧ SpWord slipMsg 1 = 70 := by
  decide +kernel

theorem test_Slips_quantum_premises : (schTen (slipping { slips := [163], quantum := some 100 }) 1).slips = [163] ∧
    quiet (slipping { slips := [110] }) = true ∧ (schTen (slipping { slips := [110] }) 1).quantum = none ∧
    pastLimit (slipping { slips := [110] }) 1 110 = false ∧
    pastLimit (slipping { slips := [110], thawed := 110, consec := 1 }) 1 110 = true := by
  decide +kernel

/-! ### MemoryRequestsAreServed -/

/-- A memory request of tenant 1 at its own tile 0, at MEP 0 and at the HP, in a state that lets tenant 1 in. -/
def memState : State :=
  let s := setFld (setFld running (Reg.rtrEpOwner 0) RtrEpOwner.OWNER 1) (Reg.hpFnStat 1) HpFnStat.STATE 1
  let s := setFld s Reg.fabGoodTiles FabGoodTiles.GOOD (2 ^ 64 - 1)
  s
def memPkt (o : Opc) (dst : Ep) (addr n : Nat) (data : List Byte) : Pkt :=
  stamp { opc := o, src := ⟨0, 0, 0⟩, dst := dst, tenant := 1, prio := 1, tag := 3, addr := addr, nbytes := n, data := data }

theorem test_MemoryRequests_tile_premises :
    let p := memPkt .rdReq ⟨0, 0, 0⟩ (tileAddr 0 64) 4096 []
    memState.wf = true ∧ passesChecks memState p = true ∧ memServes (received memState p) p = true ∧ plainSend (received memState p) p = true := by
  decide +kernel

theorem test_MemoryRequests_host_premises :
    let p := memPkt .rdReq (hpEp 0) (fabAddr 3 0) 8 []
    Ep_kind p.dst = .hp ∧ passesChecks memState p = true ∧ memServes (received memState p) p = true ∧ plainSend (received memState p) p = true := by
  decide +kernel

theorem test_MemoryRequests_write_premises :
    let p := memPkt .wr ⟨0, 0, 0⟩ (tileAddr 0 0x7FFFFF) 1 [9]
    passesChecks memState p = true ∧ memServes (received memState p) p = true := by
  decide +kernel

theorem test_MemoryRequests_atomic_premises :
    let p := memPkt .atCas ⟨0, 0, 0⟩ (tileAddr 0 8) 16 (toLE 8 0 ++ toLE 8 5)
    passesChecks memState p = true ∧ memServes (received memState p) p = true := by
  decide +kernel

theorem test_MemoryRequests_multicast_premises :
    let p := memPkt .mcWr ⟨0, 0, 0⟩ (fabAddr 1 0) 8 (toLE 8 5)
    hcrcOk p = true ∧ tenantOk p = true ∧ flitFits memState 0 16 p 0 = true ∧ flits p = 1 ∧ p.dst.chip = myChip memState ∧
    inTurn memState p ⟨0, 0, 0⟩ = true ∧ fmtSound p = true ∧ mcHere (rectOf p.addr) 0 16 = true ∧ mcHere (rectOf p.addr) 9 1 = false ∧ good memState 0 = true ∧
    tileAllows memState 1 0 = true ∧ onNet { memState with dyn := { memState.dyn with net := [p] } } p = some p := by
  decide +kernel

/-! ### AnswersGoBack -/

theorem test_AnswersGoBack_premises : isResponse .rdRsp = true ∧ plainSend memState (memPkt .rdReq ⟨0, 0, 0⟩ (tileAddr 0 64) 4096 []) = true := by
  decide +kernel

/-! ### ResponsesReachWhatWaits -/

/-- A response to tag 3 of tile 0. -/
def answer1 (o : Opc) (data : List Byte) : Pkt :=
  stamp { opc := o, src := ⟨0, 0, 0⟩, dst := ⟨0, 0, 0⟩, tenant := 1, prio := 3, tag := 3, nbytes := data.length, data := data }

/-- A transaction of tenant 1's tile 0 with what its response is for, and the response. -/
def waitingFor (o : Opc) (why : Purpose) (due : List Ep) : State :=
  { memState with dyn := { txns := [⟨⟨0, 0, 0⟩, 3, o, ⟨0, 0, 0⟩, why, 1, 0, false, 1, 0, 1, due, 2250⟩] },
                  host := { memState.host with cmds := [{ id := 5, src := .ring 1 0, ex := ⟨0, 0, 0⟩, tenant := 1, desc := 0, left := 1 }] } }


theorem test_Responses_premises :
    passesChecks memState (answer1 .rdRsp [1, 2]) = true ∧ matchTxn (received memState (answer1 .rdRsp [1, 2])) (answer1 .rdRsp [1, 2]) = none ∧
    (let s := waitingFor .rdReq (.fetch 5 (answer1 .wr []) .none) [⟨0, 0, 0⟩]
     passesChecks s (answer1 .rdRsp [1, 2]) = true ∧ fmtSound (answer1 .rdRsp [1, 2]) = true ∧
     ((matchTxn (received s (answer1 .rdRsp [1, 2])) (answer1 .rdRsp [1, 2])).map fun x => (cmdOf x.2.2 5).any (·.stopped)) = some false) := by
  decide +kernel

theorem test_Responses_completion_premises :
    (let s := waitingFor .wr (.cmdWr 5 2) [⟨0, 0, 0⟩]
     passesChecks s (answer1 .wrAck []) = true ∧ ((matchTxn (received s (answer1 .wrAck [])) (answer1 .wrAck [])).map fun x => x.2.1) = some true ∧
     s.trig.adds = []) ∧
    (let s := waitingFor .atFadd (.cmdAt 5) [⟨0, 0, 0⟩]
     passesChecks s (answer1 .atRsp [1]) = true ∧ ((matchTxn (received s (answer1 .atRsp [1])) (answer1 .atRsp [1])).map fun x => x.2.1) = some true) ∧
    (let s := waitingFor .msg (.cmdAck 5) [⟨0, 0, 0⟩]
     passesChecks s (answer1 .ack [0]) = true ∧ ((matchTxn (received s (answer1 .ack [0])) (answer1 .ack [0])).map fun x => x.2.1) = some true ∧
     ((received s (answer1 .ack [0])).dyn.rsvs.any fun v => v.ep == (answer1 .ack [0]).dst && v.rec_ == (answer1 .ack [0]).tag) = false) := by
  decide +kernel

theorem test_Responses_part_premises :
    let s := waitingFor .mcWr (.cmdWr 5 1) [⟨0, 0, 0⟩, ⟨0, 1, 0⟩]
    let p := answer1 .errRsp [4]
    passesChecks s p = true ∧ p.tag ≠ failTag ∧ ((matchTxn (received s p) p).map fun x => x.2.1) = some false ∧ p.nbytes = 1 := by
  decide +kernel

theorem test_Responses_mailbox_premises :
    let p := stamp { opc := .mbx, src := fmpEp 0, dst := hpEp 0, prio := 3, tag := 1, nbytes := 8, data := toLE 8 0 }
    passesChecks memState p = true ∧ plainSend (received memState p) p = true := by
  decide +kernel

/-! ### ReservationsAtCisterns -/

/-- A reservation record of tile 0 for MEP 0's cistern, a request and a grant there, and a tag in quarantine. -/
def aRsv : Rsv := { ep := ⟨0, 0, 0⟩, rec_ := 0x400, dst := ⟨0, 8, 1⟩, flits := 4, tenant := 1, issued := 90, req := 7, sent := true, slots := 1, rsvto := 10, lease := 5 }
def aReq : CReq := { ep := ⟨0, 0, 0⟩, src := ⟨0, 1, 0⟩, rec_ := 0x400, tenant := 1, flits := 4 }
def mcReq : CReq := { aReq with mc := true, mcop := 1, ticket := 100, settle := 10 }
def reserving (v : Rsv) (r : CReq) : State :=
  { memState with dyn := { rsvs := [v], pend := [r], given := [⟨r.ep, r.src, 0x401, 1, 4⟩], quar := [⟨⟨0, 0, 0⟩, 3, ⟨0, 8, 1⟩, true, 200⟩] } }

theorem test_Reservations_request_premises :
    let p := stamp { opc := .rsvReq, src := ⟨0, 1, 0⟩, dst := ⟨0, 0, 0⟩, tenant := 1, prio := 3, tag := 0x400, nbytes := 16, data := toLE 16 3 }
    passesChecks memState p = true ∧ flag memState (injReg (epBlk (cReqOf (received memState p) p).ep)) Inj.ARM = false ∧
    ((reserving aRsv aReq).dyn.pend.find? fun x => x.ep == cisEp (reserving aRsv aReq) ⟨0, 0, 0⟩ && nextToGrant (reserving aRsv aReq) x &&
      fits (reserving aRsv aReq) x) = some aReq := by
  decide +kernel

theorem test_Reservations_multicast_premises : quiet (reserving aRsv mcReq) = true ∧
    ((reserving aRsv mcReq).dyn.pend.find? fun x => x.ep == cisEp (reserving aRsv mcReq) ⟨0, 0, 0⟩ && x.mc &&
      mcHead (reserving aRsv mcReq) x == some x && ! eligible (reserving aRsv mcReq) x) = some mcReq := by
  decide +kernel

theorem test_Reservations_packet_premises :
    let g := stamp { opc := .rsvGrant, src := ⟨0, 8, 1⟩, dst := ⟨0, 0, 0⟩, tenant := 1, prio := 3, tag := 0x400, nbytes := 8, data := toLE 8 3 }
    let r := stamp { opc := .rsvRelease, src := ⟨0, 1, 0⟩, dst := ⟨0, 0, 0⟩, tenant := 1, prio := 3, tag := 0x400, nbytes := 0 }
    let s := reserving aRsv aReq
    passesChecks s g = true ∧ (s.dyn.rsvs.find? fun x => x.ep == g.dst && x.rec_ == g.tag && ! x.granted) = some aRsv ∧
    passesChecks s r = true := by
  decide +kernel

theorem test_Reservations_timer_premises :
    let held := { aRsv with granted := true, left := 4 }
    let s := reserving held aReq
    quiet s = true ∧ (s.dyn.quar.find? fun x => x.ep == ⟨0, 0, 0⟩ && x.tag == 3).isSome = true ∧
    (s.dyn.waiting.any fun r => r.id == 7) = false ∧ held.sent = true ∧ held.lease ≠ 0 ∧
    (s.dyn.rsvs.find? fun x => x.ep == ⟨0, 0, 0⟩ && x.rec_ == 0x400 && x.granted && ! x.released) = some held ∧
    ((reserving aRsv aReq).dyn.rsvs.find? fun x => x.ep == ⟨0, 0, 0⟩ && x.rec_ == 0x400 && x.sent && ! x.granted && ! x.released) = some aRsv := by
  decide +kernel

/-! ### RequestsLeaveAndTimeOut -/

/-- A request of command 5 that waits at tile 0: a message, a read of tile 0 under a grant, or one without. -/
def waitReq (p : Pkt) : Req := ⟨7, p, .cmdWr 5 8, [], false⟩
def requesting (p : Pkt) (rs : List Rsv) : State := { memState with dyn := { waiting := [waitReq p], rsvs := rs } }
def ctrPkt : Pkt := memPkt .ctrAdd ⟨0, 0, 0⟩ 2047 5 (toLE 4 1 ++ [4])
def rdPkt : Pkt := memPkt .rdReq ⟨0, 0, 0⟩ (tileAddr 0 0) 128 []

theorem test_Requests_refused_premises :
    let s := requesting (memPkt .atFadd ⟨0, 0, 0⟩ (tileAddr 0 1) 8 []) []
    (s.dyn.waiting.find? fun x => x.id == 7).isSome = true ∧
    ((sourceCheck s (memPkt .atFadd ⟨0, 0, 0⟩ (tileAddr 0 1) 8 []) []).map Status.good) = some false := by
  decide +kernel

theorem test_Requests_launch_premises :
    let c := { ctrPkt with prio := 2 }
    sourceCheck (requesting c []) c [] = none ∧ (setAside (requesting c []) (waitReq c)).isSome = true ∧
    ((setAside (requesting c []) (waitReq c)).map fun s1 => contribRoom s1 { waitReq c with held := true } && (freeTag s1 c.src).isSome &&
      allotOpen s1 c) = some true ∧ allotOpc c.opc = true ∧
    sourceCheck (requesting rdPkt []) rdPkt [] = none ∧ ((setAside (requesting rdPkt []) (waitReq rdPkt)).map fun s1 =>
      contribRoom s1 { waitReq rdPkt with held := true } && (freeTag s1 rdPkt.src).isSome) = some true ∧
    allotOpc rdPkt.opc = false ∧ grantFor (requesting rdPkt []) rdPkt.src rdPkt.dst (flits rdPkt) = none ∧
    freeRec (requesting rdPkt []) rdPkt.src = some 0x400 ∧
    (grantFor (requesting rdPkt [{ aRsv with dst := ⟨0, 0, 0⟩, granted := true, left := 1 }]) rdPkt.src rdPkt.dst (flits rdPkt)).isSome = true := by
  decide +kernel

theorem test_Requests_issue_premises :
    let r : Req := ⟨7, { memPkt .rsvReq ⟨0, 1, 0⟩ 0 16 [] with tag := 0x400 }, .none, [], false⟩
    let s := { memState with dyn := { waiting := [r], rsvs := [{ aRsv with sent := false }] } }
    sourceCheck s r.pkt r.mc = none ∧ ((setAside s r).map fun s1 => allotOpen s1 r.pkt) = some true ∧
    (s.dyn.rsvs.find? fun v => v.ep == r.pkt.src && v.rec_ == r.pkt.tag).isSome = true := by
  decide +kernel

theorem test_Requests_router_premises : routerCheck1 memState 63 rdPkt = none ∧ flitFits memState 63 0 rdPkt 0 = true ∧ (headsFor memState rdPkt).isSome = true ∧
    rdPkt.dst.chip = myChip memState ∧ flag memState (injReg (.rtr 63)) Inj.ARM = false ∧
    onNet { memState with dyn := { memState.dyn with net := [rdPkt] } } rdPkt = some rdPkt := by
  decide +kernel

theorem test_Requests_timeout_premises :
    let s := waitingFor .wr (.cmdWr 5 2) [⟨0, 0, 0⟩]
    quiet s = true ∧ (s.dyn.txns.find? fun y => y.ep == ⟨0, 0, 0⟩ && y.tag == 3).isSome = true := by
  decide +kernel

theorem test_Requests_counter_premises :
    let s := setFld memState (Reg.ctr (.tni 0) 2047) Ctr.TENANT 1
    passesChecks s ctrPkt = true ∧ fmtSound ctrPkt = true ∧ quiet s = true ∧ fld (received s ctrPkt) (Reg.ctr (epBlk ctrPkt.dst) (bits ctrPkt.addr 10 0)) Ctr.TENANT = 1 := by
  decide +kernel

/-! ### ReductionContextsWork -/

/-- CTXA of an arrival-mode context of tenant 1 with two operands that sums FP32 elements, and CTXB of one position to tile 0. -/
def ctxA1 : Nat := (setF (setF (setF (setF 0 RedCtxA.TENANT 1) RedCtxA.OP 0) RedCtxA.EFMT 5) RedCtxA.NOPSM1 1).toNat
/-- The context enabled, and a contribution of one position to it. -/
def reducing (r : RedRun) : State :=
  let s := wrReg (wrReg memState (Reg.redCtxA 63 15) (BitVec.ofNat 64 (ctxA1 + 1))) (Reg.redCtxS 63 15) (setF 0 RedCtxS.STATE 2)
  { s with red := [(63 * 16 + 15, r)] }
def contribution : Pkt :=
  stamp { opc := .redContrib, src := ⟨0, 0, 0⟩, dst := ⟨0, 63, 4⟩, tenant := 1, prio := 1, tag := 2, addr := redAddr 0 0 0 15, nbytes := 128,
          efmt := 5, data := List.replicate 128 0 }
/-- Both halves of its one position ready. -/
def halvesReady : List RedPos := [{ half := 0, ready := some 90, nodes := [{ lo := 0, lvl := 0, vals := List.replicate 16 0 }] },
                                  { half := 1, ready := some 95, nodes := [{ lo := 0, lvl := 0, vals := List.replicate 16 0 }] }]

theorem test_Reduction_enable_premises : memState.wf = true ∧ ctxState memState (ctxOf 63 15 ctxA1 0) = 0 ∧
    enableBad memState (ctxOf 63 15 ctxA1 0) = false ∧ enableBad memState (ctxOf 63 15 0 0) = true := by
  decide +kernel

theorem test_Reduction_contribution_premises :
    let s := reducing { step := some 90 }
    let r := received s contribution
    let x := ctxAt r 63 (RaCtx contribution.addr)
    s.wf = true ∧ passesChecks s contribution = true ∧ tWf (fun _ => ({} : RedRun)) s.red = true ∧ Ep_kind contribution.dst = .ru ∧
    x.tenant = 1 ∧ ctxState r x = 2 ∧
    (match decodeContrib x contribution with
     | .good hs _ _ _ => nodeBad r x contribution (hs.map RedHalf.half)
     | .bad _ => true) = false ∧
    (inputOf (redRun s x) (RaRank contribution.addr) (RaLvl contribution.addr)).close = none := by
  decide +kernel

theorem test_Reduction_emission_premises :
    let s := reducing { poss := halvesReady }
    let x := ctxAt s 63 15
    tWf (fun _ => ({} : RedRun)) s.red = true ∧ quiet s = true ∧ x.npos ≤ emitFrom s x + (emitReady s x).length / 2 ∧
    emitReady s x ≠ [] ∧ mayEmit s x = true ∧ emitRoom s x ≠ 0 := by
  decide +kernel

theorem test_Reduction_timeout_premises :
    let s := reducing { grp := some (3, 1, 0), step := some 100 }
    let x := ctxAt s 63 15
    tWf (fun _ => ({} : RedRun)) s.red = true ∧ quiet s = true ∧ flag s (injReg (.rtr 63)) Inj.ARM = false ∧
    (redRun s x).grp = some (3, 1, 0) ∧ (redRun s x).step = some 100 ∧ ctxState s x = 2 := by
  decide +kernel

/-! ### ShadowLaneChecks -/

/-- Checking is on at router 63. -/
def checking (x : ShadowRun) : State :=
  let s := setFld memState (Reg.rtrShadowCfg 63) RtrShadowCfg.EN 1
  { s with rel := { s.rel with shadow := [(63, x)] } }

theorem test_Shadow_premises : shadowOn (checking {}) 63 = true ∧ shadowDue (checking {}) 63 (checkedLane (checking {}) 63) = false ∧
    (shadow (checking {}) 63).open_ = false ∧ (shadow (checking { open_ := true }) 63).open_ = true ∧ checkedLane (checking {}) 63 = 0 ∧
    (shadow (checking { open_ := true }) 63).pend = none ∧ flag (checking {}) (injReg (.rtr 63)) Inj.ARM = false ∧
    (checking {}).rel.stuck.contains (63, 0) = false ∧ (shadow (checking { pend := some (15, 15, 1) }) 63).pend = some (15, 15, 1) ∧
    (checking {}).wf = true := by
  decide +kernel

theorem test_Scrub_premises :
    let s := setFld (setFld memState (Reg.mepTrange 11 255) MepTrange.V 1) (Reg.mepTrange 11 255) MepTrange.SCR 1
    s.wf = true ∧ flag s (Reg.mepTrange 11 255) MepTrange.V = true ∧ flag s (Reg.mepTrange 11 255) MepTrange.SCR = true ∧
    hasEcc (.tni 63) = true ∧ flag s (injReg (.tni 63)) Inj.ARM = false := by
  decide +kernel

/-! ### ArbitersDecide -/

/-- An arbiter's state at MEP 11, and a request of DYN 63. -/
def arbAt (x : ArbRun) : State := { memState with arb := { memState.arb with runs := [((Arb.mep 11).base, x)] } }
def askGrains : ArbReq := { who := 63, id := 1, grains := 4 }
def askLocked : ArbReq := { askGrains with kind := .atomic }

theorem test_Arbiters_round_premises :
    let s := arbAt { n := 5 }
    let b := arbBegin s (.mep 11)
    s.wf = true ∧ quiet s = true ∧ tWf (fun _ => ({} : ArbRun)) s.arb.runs = true ∧ (arbRun b (.mep 11)).current = none ∧
    (arbRun s (.mep 11)).lock = none ∧ accepting b (.mep 11) = true ∧ ownerOf b (.mep 11) (arbRun b (.mep 11)).n = none ∧
    (candidates b (.mep 11) (arbRun b (.mep 11)) ([askLocked].map (presented b (.mep 11)))).length = 1 ∧
    lockedAt (.mep 11) askGrains.kind = false ∧ lockedAt (.mep 11) askLocked.kind = true ∧ 1 < wdogOf b (.mep 11) := by
  decide +kernel

theorem test_Arbiters_transfer_premises :
    (arbRun (arbAt { current := some ⟨askGrains, 1, true⟩, idle := 15 }) (.mep 11)).current = some ⟨askGrains, 1, true⟩ ∧
    (arbRun (arbAt { current := some ⟨askGrains, 1, true⟩, idle := 15 }) (.mep 11)).idle = 15 ∧
    (arbRun (arbAt { lock := some ⟨askLocked, 1, true⟩ }) (.mep 11)).lock = some ⟨askLocked, 1, true⟩ ∧ askLocked.pkt = none ∧
    tWf (fun _ => ({} : ArbRun)) (arbAt { lock := some ⟨askLocked, 1, true⟩ }).arb.runs = true := by
  decide +kernel

/-- DYN 63 of MEP 11 has waited for 1,025 rounds, or its flag is set, or its weight was changed. -/
def waited : State := setFld memState (Reg.arbRstat (.mep 11) 63) ArbRstat.WAIT 1025
def flagged : State := wrReg memState (Reg.arbStarve (.mep 11)) (BitVec.ofNat 64 (2 ^ 63))
def reweighed : State := { memState with arb := { memState.arb with memos := [(Reg.arbShare (.mep 11) 63, { changed := some 50 })] } }

theorem test_Arbiters_starvation_premises : waited.wf = true ∧ starveOf waited (.mep 11) < rWait waited (.mep 11) 63 ∧ flagged.wf = true ∧
    starving flagged (.mep 11) 63 = true ∧ bit (noteOf flagged (Reg.arbStarve (.mep 11))).up 63 = false ∧ (memo flagged (.mep 11) 63).pinned = false ∧
    fld flagged (Reg.arbShare (.mep 11) 63) ArbShare.WEIGHT < fld flagged (Reg.arbShare (.mep 11) 63) ArbShare.WMAX ∧
    (let s := setFld flagged (Reg.arbShare (.mep 11) 63) ArbShare.WMAX 0
     fld s (Reg.arbShare (.mep 11) 63) ArbShare.WMAX ≤ fld s (Reg.arbShare (.mep 11) 63) ArbShare.WEIGHT ∧ (richest s (.mep 11) 63).isSome = true) ∧
    (memo reweighed (.mep 11) 63).changed = some 50 ∧ starving reweighed (.mep 11) 63 = false ∧ quiet reweighed = true := by
  decide +kernel

/-! ### SwitchesShapersAndGates -/

theorem test_Switches_premises :
    (arbRun (arbAt { checking := true }) (.mep 11)).checking = true ∧
    (let s := setFld memState (Reg.arbCtl (.mep 11)) ArbCtl.ARMED 1
     flag s (Reg.arbCtl (.mep 11)) ArbCtl.ARMED = true ∧ (arbRun s (.mep 11)).lock = none ∧ s.wf = true ∧ quiet s = true) ∧
    tWf (fun _ => (0 : Int)) memState.arb.tokens = true := by
  decide +kernel

theorem test_Gates_premises :
    (gateRun { memState with arb := { memState.arb with gates := [((Blk.lp 15).base, { checking := true })] } } (.lp 15)).checking = true ∧
    (let s := setFld memState (Reg.gateCtl (.lp 15)) GateCtl.ARMED 1
     flag s (Reg.gateCtl (.lp 15)) GateCtl.ARMED = true ∧ s.wf = true ∧ quiet s = true) ∧
    (let s := setFld memState (Reg.gate0 (.lp 15) 0) Gate0.DUR 100
     quiet s = true ∧ gateFree s (.lp 15) = false) := by
  decide +kernel

/-! ### EntriesArmFireAndStart -/

/-- Entry 3 of tile 0's TNI watches counter 1, which stands at 5, for tenant 1. -/
def trigAt (thresh inc : Nat) : State :=
  let s := setFld (setFld memState (Reg.ctr (.tni 0) 1) Ctr.TENANT 1) (Reg.ctr (.tni 0) 1) Ctr.VALUE 5
  let s := setFld (setFld s (Reg.triga (.tni 0) 3) Triga.CTR 1) (Reg.triga (.tni 0) 3) Triga.THRESH thresh
  setFld (setFld s (Reg.triga (.tni 0) 3) Triga.THRINC inc) (Reg.trigb (.tni 0) 3) Trigb.TENANT 1

def trigWord (tenant rel : Nat) : Nat := setF (setF (setF 0 Trigb.TENANT tenant) Trigb.REL rel) Trigb.V 1 |>.toNat

theorem test_Entries_arm_premises : tableOn (trigAt 9 0) (.tni 0) = true ∧ flag (trigAt 9 0) (Reg.trigb (.tni 0) 3) Trigb.V = false ∧ bit (trigWord 1 0) 0 = true ∧
    (let w := softWrite (trigAt 9 0) (Reg.trigb (.tni 0) 3) (putBits (trigWord 1 0) 0 0 0)
     fld w (Reg.trigb (.tni 0) 3) Trigb.TENANT = fld w (trigCtr w (.tni 0) 3) Ctr.TENANT ∧
     relOk (Desc_cmd (storeDesc w (.tni 0) 3)) (fld w (Reg.trigb (.tni 0) 3) Trigb.REL) = true ∧
     flag w (trigCtr w (.tni 0) 3) Ctr.FAIL = false ∧ reached w (trigCtr w (.tni 0) 3) (fld w (Reg.triga (.tni 0) 3) Triga.THRESH) = false) ∧
    (let w := softWrite (trigAt 5 0) (Reg.trigb (.tni 0) 3) (putBits (trigWord 1 0) 0 0 0)
     reached w (trigCtr w (.tni 0) 3) (fld w (Reg.triga (.tni 0) 3) Triga.THRESH) = true) ∧
    (let w := softWrite (trigAt 5 0) (Reg.trigb (.tni 0) 3) (putBits (trigWord 2 0) 0 0 0)
     fld w (Reg.trigb (.tni 0) 3) Trigb.TENANT ≠ fld w (trigCtr w (.tni 0) 3) Ctr.TENANT) ∧
    (let w := softWrite (trigAt 5 0) (Reg.trigb (.tni 0) 3) (putBits (trigWord 1 3) 0 0 0)
     relOk (Desc_cmd (storeDesc w (.tni 0) 3)) (fld w (Reg.trigb (.tni 0) 3) Trigb.REL) = false) := by
  decide +kernel

/-- A member of group index 4 at tile 0 with a running operation, its last contribution sent at cycle 50, and entry 3 in the firing queue. -/
def joined : State :=
  let s := setFld (setFld (trigAt 5 0) (Reg.fabGrpA 4) FabGrpA.STATE 1) (Reg.fabGrpA 4) FabGrpA.TENANT 1
  let s := setFld (setFld s (Reg.fabGrpA 4) FabGrpA.GROUP 9) (Reg.fabGrpA 4) FabGrpA.EPOCH 2
  let s := setFld (setFld s (Reg.tniGrpMember 0 4) TniGrpMember.V 1) (Reg.trigb (.tni 0) 3) Trigb.GIDX 4
  let op : CollOp := { tile := 0, gidx := 4, cmd := 7, desc := 8 * 2 ^ 56, seq := 0, sig := 0, lastAt := some 50 }
  { s with coll := { s.coll with ops := [op] },
           trig := { s.trig with queue := [(.tni 0, 3), (.mep 0, 1)] } }

/-- A message of that group. -/
def grpMark (k : SpKind) (dst : Ep) (ctx : Nat) (pay : Nat) : SpMsg := SpStamp (grpMsg k 1 dst ctx false (9, 2) 0 0 0 pay)

theorem test_Entries_fire_premises : tableOn joined (.mep 0) = true ∧ tableOn joined (.tni 0) = true ∧ (joined.trig.queue.find? fun x => x.1 == .mep 0) = some (.mep 0, 1) ∧
    (joined.trig.queue.find? fun x => x.1 == .tni 0) = some (.tni 0, 3) ∧
    (opOf joined 0 (fld joined (Reg.trigb (.tni 0) 3) Trigb.GIDX)).isSome = true ∧ flag joined (Reg.trigb (.tni 0) 3) Trigb.FIRST = false ∧
    joined.wf = true := by
  decide +kernel

theorem test_Entries_start_premises : markPasses joined (grpMark .start ⟨0, 0, 4⟩ 0 5) = true ∧ grpTenant joined 4 = 1 ∧
    SpTenant (grpMark .start ⟨0, 0, 4⟩ 0 5) = 1 ∧ isMember joined 0 4 = true := by
  decide +kernel

theorem test_Entries_group : grpOf joined (grpMark .start ⟨0, 0, 4⟩ 0 5) = some 4 := by decide +kernel

theorem test_Entries_timeout_premises : quiet { joined with trig := {} } = true ∧ joined.slu.ops = [] ∧
    ((opOf joined 0 4).map fun o => (o.lastAt, o.lastLeft, Desc_cmd o.desc)) = some (some 50, 0, 8) := by
  decide +kernel

/-! ### MarksDecideCollectives -/

/-- The group's context 1 at tile 0, enabled with two operands. -/
def marked : State :=
  let a := setF (setF (setF 0 RedCtxA.TENANT 1) RedCtxA.NOPSM1 1) RedCtxA.EN 1
  let s := setFld (wrReg joined (Reg.redCtxA 0 1) a) (Reg.redCtxS 0 1) RedCtxS.STATE 1
  let s := setFld (setFld s (landReg 0 2) TniLand.TENANT 1) (landReg 0 2) TniLand.GIDX 4
  { s with red := [(1, { grp := some (9, 2, 4) })] }

theorem test_Marks_context_premises : (let m := grpMark .open ⟨0, 0, 4⟩ 1 77
    markPasses marked m = true ∧ (SpDst m).dep = 4 ∧ tWf (fun _ => ({} : RedRun)) marked.red = true ∧ SpCtx m = 1 ∧
    markOk marked (ctxAt marked 0 1) m = true ∧ (redRun marked (ctxAt marked 0 1)).opened = false ∧ 1 < (ctxAt marked 0 1).nops ∧
    markOk marked (ctxAt marked 0 2) m = false) := by
  decide +kernel

theorem test_Marks_landing_premises : (let m := grpMark .result ⟨0, 0, 0⟩ 2 77
    markPasses marked m = true ∧ (SpDst m).dep = 0 ∧ marked.slu.ops = [] ∧ SpCtx m = 2 ∧ fld marked (landReg 0 2) TniLand.TENANT = 1 ∧
    grpId marked 4 = (SpGroup m, SpEpoch m) ∧ (opOf marked 0 4).isSome = true ∧
    injArmed marked (.tni 0) .digest (fun k => k == 1) = false) := by
  decide +kernel

theorem test_Marks_outcome_premises : ((opOf marked 0 4).map fun o => landOutcome (setLand marked 0 2 { landRun marked 0 2 with mark := some 77 }) o) =
      some none ∧
    (let s := setFld marked (landReg 0 2) TniLand.FINAL 1
     ((opOf s 0 4).map fun o => landOutcome (setLand s 0 2 { landRun s 0 2 with mark := some 0 }) o) = some (some .ok)) := by
  decide +kernel

theorem test_Marks_abort_premises : (let m := grpMark .abortReq ⟨0, 0, 0⟩ 0 9
    markPasses joined m = true ∧ joined.coll.aborts.contains (SpTenant m, SpGroup m, SpEpoch m, SpSeq m) = false ∧
    injArmed joined (.rtr 0) .spchk (fun _ => true) = false) ∧ joined.wf = true := by
  decide +kernel

/-- A domain freeze numbered 3 for a fine time. -/
def freezeMsg (t : Nat) : SpMsg := SpStamp ⟨[spWord0 .freeze 0 ⟨0, 0, 0⟩ 0 1 true 0 0 0, t, 3 * 2 ^ 32]⟩

theorem test_Marks_freeze_premises : markPasses running (freezeMsg 5000) = true ∧ SpKindOf (freezeMsg 5000) = .freeze ∧
    fineNow running < SpWord (freezeMsg 5000) 1 ∧ SpWord (freezeMsg 5) 1 ≤ fineNow running ∧ isFrozen running = false ∧
    bit (SpPay (freezeMsg 5) 0) 0 = false := by
  decide +kernel

/-! ### StandpipeNodesCombine -/

/-- Node 2 of router 0 serves the group with three inputs, or as a root with one; an UP of rank 0 with 8 bytes. -/
def nodeAt (nin root : Nat) : State :=
  let s := setFld (setFld joined (Reg.rtrSpNode 0 2) RtrSpNode.V 1) (Reg.rtrSpNode 0 2) RtrSpNode.GROUP 9
  let s := setFld (setFld s (Reg.rtrSpNode 0 2) RtrSpNode.EPOCH 2) (Reg.rtrSpNode 0 2) RtrSpNode.TENANT 1
  setFld (setFld s (Reg.rtrSpNode 0 2) RtrSpNode.NIN nin) (Reg.rtrSpNode 0 2) RtrSpNode.ROOTN root

def upMsg (k : SpKind) (dst : Ep) : SpMsg :=
  SpStamp ⟨[spWord0 k 1 dst 0 1 false 0 3 7, spWord1 9 2 0 0 0, 5, crc64 0 (toLE 8 5)]⟩

def upSrc : Ep := ⟨0, 1, 0⟩

theorem test_Standpipe_up_premises : (let m := upMsg .up ⟨0, 0, 4⟩
    markPasses (nodeAt 3 0) m = true ∧ nodeOf (nodeAt 3 0) 0 m = some 2 ∧ fld (nodeAt 3 0) (Reg.rtrSpNode 0 2) RtrSpNode.TENANT = SpTenant m ∧
    spRoom (nodeAt 3 0) 0 2 = true ∧ ((nodeAt 3 0).coll.spWait.any fun w => w.1 == 0) = false ∧
    1 < fld (nodeAt 3 0) (Reg.rtrSpNode 0 2) RtrSpNode.NIN) := by
  decide +kernel

theorem test_Standpipe_root_premises : (let m := upMsg .up ⟨0, 0, 4⟩
    nodeOf (nodeAt 1 1) 0 m = some 2 ∧ flag (nodeAt 1 1) (Reg.rtrSpNode 0 2) RtrSpNode.ROOTN = true ∧
    fld (nodeAt 1 1) (Reg.rtrSpNode 0 2) RtrSpNode.NIN ≤ 1 ∧ spFailure ⟨0, 0, 4⟩ (byRank [] [⟨upSrc, m⟩]) = none ∧
    injArmed (nodeAt 1 1) (.rtr 0) .spchk (fun _ => true) = false) := by
  decide +kernel

/-- The node waits for its parent with one input. -/
def nodeSent : State :=
  { nodeAt 1 0 with coll := { joined.coll with spOps := [{ tile := 0, node := 2, ins := [⟨upSrc, upMsg .up ⟨0, 0, 4⟩⟩], sentUp := true }] } }

theorem test_Standpipe_down_premises : (let m := upMsg .down ⟨0, 0, 4⟩
    markPasses nodeSent m = true ∧ (SpDst m).dep = 4 ∧ nodeOf nodeSent 0 m = some 2 ∧ ((spOpOf nodeSent 0 2).map SpOp.sentUp) = some true ∧
    fld nodeSent (Reg.rtrSpNode 0 2) RtrSpNode.TENANT = SpTenant m) := by
  decide +kernel

theorem test_Standpipe_member_premises : (let m := upMsg .down ⟨0, 0, 0⟩
    markPasses joined m = true ∧ (SpDst m).dep = 0 ∧ SpBytes m ≠ [] ∧ grpPsn joined 0 4 = false ∧
    ((opOf joined 0 4).map fun o => (o.tile, o.gidx, decide (ColCop o.desc ≠ 5))) = some (0, 4, true) ∧
    ((landsOf joined 0 4).any fun k => (landRun joined 0 k).psn || (landRun joined 0 k).malf) = false) := by
  decide +kernel

theorem test_Standpipe_member_found : (spMember joined 0 (upMsg .down ⟨0, 0, 0⟩)).isSome = true := by decide +kernel

/-- An UP waits at the stage, or has been spilled. -/
def nodeSpill (spilled : Bool) : State :=
  let w := (0, upSrc, upMsg .up ⟨0, 0, 4⟩)
  { nodeAt 3 0 with coll := if spilled then { joined.coll with spSpilled := [w] } else { joined.coll with spWait := [w] } }

theorem test_Standpipe_spill_premises : (nodeSpill false).coll.spWait.find? (fun w => w.1 == 0) = some (0, upSrc, upMsg .up ⟨0, 0, 4⟩) ∧
    (nodeSpill true).coll.spSpilled.find? (fun w => w.1 == 0) = some (0, upSrc, upMsg .up ⟨0, 0, 4⟩) ∧
    nodeOf (nodeSpill true) 0 (upMsg .up ⟨0, 0, 4⟩) = some 2 ∧ spRoom (nodeSpill true) 0 2 = true ∧ (nodeSpill false).wf = true ∧
    spFits { nodeSpill false with coll := { (nodeSpill false).coll with spOps := (List.range 64).map fun i => { tile := 0, node := 100 + i } } } 0
      (upMsg .up ⟨0, 0, 4⟩) = false := by
  decide +kernel

/-! ### OriginsDispatchAndCombine -/

/-- Tile 0 has a DISPATCH of group index 4 under way in record 2: two tokens, one choice each at tile 1's slot 3. -/
def dispatched (o : SluOp) (got : Nat) : State :=
  let s := setFld (setFld joined (Reg.tniSluOstat 0 2) TniSluOstat.STATE 1) (Reg.tniSluOstat 0 2) TniSluOstat.EXPECT 1
  let s := setFld (setFld s (Reg.tniSluOstat 0 2) TniSluOstat.GIDX 4) (Reg.tniSluOstat 0 2) TniSluOstat.GOT got
  { s with coll := {}, slu := { ops := [o] } }

/-- A sluice packet to tile 0 of tenant 1. -/
def sluTo (o : Opc) (addr efmt : Nat) (data : List Byte) : Pkt :=
  stamp { opc := o, src := ⟨0, 1, 5⟩, dst := ⟨0, 0, 5⟩, tenant := 1, prio := 2, tag := 3, addr := addr, efmt := efmt, nbytes := data.length, data := data }

def sluOrigin : SluOp :=
  { tile := 0, o := 2, gidx := 4, cmd := 7, desc := 0, seq := 0, phase := .barrier, homes := [⟨0, 1, 5⟩, ⟨0, 2, 5⟩],
    toks := [[{ dec := 1 }]], choices := [⟨0, 0, 0, .admitted⟩], since := 100 }

/-- An ASSIGN of round 0, and a RETURN of token 0's choice 0. -/
def assignPkt : Pkt := sluTo .sluDispatch (claimAddr 1 4 0 0 0 0) 0 (toLE 8 0)
def returnPkt : Pkt := sluTo .sluCombine (3 * 2 ^ 52 + 4 * 2 ^ 30) 1 [1, 2]

theorem test_Origins_assign_premises : (let s := dispatched sluOrigin 0
    passesChecks s assignPkt = true ∧ SaKind assignPkt.addr = 1 ∧ fmtReserved assignPkt = false ∧ (sluOf (received s assignPkt) 0 (SaGidx assignPkt.addr)) = some sluOrigin ∧
    grpTenant (received s assignPkt) (SaGidx assignPkt.addr) = 1 ∧ sluOrigin.homes.contains assignPkt.src = true ∧
    SaRound assignPkt.addr = fld (received s assignPkt) (sluReg sluOrigin) TniSluOstat.ROUND ∧ sluOrigin.homes.erase assignPkt.src ≠ []) := by
  decide +kernel

theorem test_Origins_return_premises : (let s := dispatched sluOrigin 0
    s.wf = true ∧ passesChecks s returnPkt = true ∧ SaKind returnPkt.addr = 3 ∧ plainSend (received s returnPkt) returnPkt = true ∧
    (sluOf (received s returnPkt) 0 (SaRow returnPkt.addr % 4096)) = some sluOrigin ∧
    ((admitted sluOrigin).any fun c => c.tok == SaToken returnPkt.addr && c.j == SaJ returnPkt.addr) = true ∧ returnSound sluOrigin returnPkt = true) := by
  decide +kernel

theorem test_Origins_timeout_premises : (let s := { dispatched sluOrigin 0 with trig := {} }
    quiet s = true ∧ sluOf s 0 4 = some sluOrigin ∧ sluOrigin.phase ≠ .done) := by
  decide +kernel

/-- A DISPATCH or COMBINE of tile 0's control core, on group index 4. -/
def sluDesc (kind efmt : Nat) : Nat :=
  putBits (putBits (putBits (putBits (putBits (putBits 0 63 56 9) 259 248 4) 223 222 kind) 247 244 efmt) 511 456 (2 ^ 52)) 209 200 1
def sluSrc (kind efmt : Nat) : CmdSrc := .core 0 (sluDesc kind efmt) []

theorem test_Origins_offer_premises : (let s := dispatched { sluOrigin with phase := .done } 0
    ((offered s (sluSrc 2 1)).map fun c => (starts s (sluSrc 2 1) c, Desc_cmd c.desc, SluKind c.desc, c.ex)) = some (true, 9, 2, ⟨0, 0, 0⟩) ∧
    fld s (sluReg sluOrigin) TniSluOstat.GOT < fld s (sluReg sluOrigin) TniSluOstat.EXPECT) ∧
    (let s := dispatched { sluOrigin with phase := .done } 1
     fld s (sluReg sluOrigin) TniSluOstat.EXPECT ≤ fld s (sluReg sluOrigin) TniSluOstat.GOT) := by
  decide +kernel

/-! ### HomesAdmitAndReturn -/

/-- Slot 3 of tile 0's inbox, four rows of four BF16 elements for group index 4, filling, with one row of tile 1's sluice admitted. -/
def inbox (st : Nat) : State :=
  let s := setFld (setFld joined (inbA 0 3) TniSluInba.TENANT 1) (inbA 0 3) TniSluInba.GIDX 4
  let s := setFld (setFld s (inbA 0 3) TniSluInba.EFMT 2) (inbA 0 3) TniSluInba.CAP 4
  let s := setFld (setFld s (inbA 0 3) TniSluInba.V 1) (inbB 0 3) TniSluInbb.HM1 3
  let s := setFld (setFld s (inbS 0 3) TniSluIstat.STATE st) (inbS 0 3) TniSluIstat.FILLED 1
  { s with coll := {}, slu := { rows := [⟨0, 3, 0, 1, ⟨0, 1, 5⟩⟩], rowGot := [(rowKey 0 3 0, 4)],
                                claims := [⟨0, 3, 1, 0, 0, 9, 0, ⟨0, 1, 5⟩, 1, 0, 0⟩] } }

def claimPkt : Pkt := sluTo .sluDispatch (claimAddr 0 4 0 3 0 0) 2 (toLE 4 (3 * 2 ^ 26 + 2))
def rowPkt : Pkt := sluTo .sluDispatch (2 * 2 ^ 52 + 3 * 2 ^ 46) 2 (toLE 8 0)

theorem test_Homes_claim_premises : passesChecks (inbox 1) claimPkt = true ∧ SaKind claimPkt.addr = 0 ∧ fmtReserved claimPkt = false ∧
    ((claimList claimPkt.data).findSome? fun e => claimRefused (received (inbox 1) claimPkt) claimPkt e.1) = none ∧
    plainSend (received (inbox 1) claimPkt) claimPkt = true ∧ claimRefused (received (inbox 1) claimPkt) claimPkt 5 = some .regionFault := by
  decide +kernel

theorem test_Homes_admission_premises :
    (let s := { inbox 1 with coll := {}, slu := { (inbox 1).slu with ops := [] } }
     let s := setFld s (Reg.tniGrpMember 0 4) TniGrpMember.SEQ 1
     let c : Claim := ⟨0, 3, 1, 0, 0, 9, 0, ⟨0, 1, 5⟩, 1, 0, 0⟩
     s.wf = true ∧ flag s (inbA 0 3) TniSluInba.V = true ∧ inbState s 0 3 = 1 ∧ lastRound s 0 3 0 = false ∧
     roundOver s 0 (fld s (inbA 0 3) TniSluInba.GIDX) (slotSeq s 0 3) 0 = true ∧
     (s.slu.claims.filter fun x => x.tile == 0 && x.slot == 3 && x.round == 0 && x.seq == slotSeq s 0 3) = [c] ∧
     (s.slu.claims.filter fun d => assignKey s d == assignKey s c) = [c] ∧ s.slu.assigns = [] ∧ s.slu.rets = [] ∧
     min 9 (inbCap s 0 3 - inbFilled s 0 3) ≠ 0) := by
  decide +kernel

theorem test_Homes_rows_premises : passesChecks (inbox 2) rowPkt = true ∧ SaKind rowPkt.addr = 2 ∧ (inbox 2).slu.rets = [] ∧
    plainSend (received (inbox 2) rowPkt) rowPkt = true ∧ SaSlot rowPkt.addr = 3 ∧ SaRow rowPkt.addr = 0 ∧ inbState (inbox 2) 0 3 = 2 ∧
    (rowBytes 2 0 4 rowPkt).isSome = true ∧ fld (received (inbox 2) rowPkt) (inbS 0 3) TniSluIstat.ARRIVED ≠ inbFilled (received (inbox 2) rowPkt) 0 3 ∧ eGet 0 (rowKey 0 3 0) (received (inbox 2) rowPkt).slu.rowGot ≠ 0 := by
  decide +kernel

theorem test_Homes_enable_premises : tableOn joined (.tni 0) = true ∧ flag joined (inbA 0 3) TniSluInba.V = false ∧ bit 1 0 = true := by decide +kernel

theorem test_Homes_disable_premises : bit 2 0 = false ∧ (inbox 2).wf = true ∧ tableOn (inbox 2) (.tni 0) = true ∧
    (let s := { inbox 2 with slu := { rets := [{ tile := 0, slot := 3, cmd := 7 }] } }
     (s.dyn.waiting.filter fun q => Purpose_cmd q.why == some 7) = []) := by
  decide +kernel

theorem test_Homes_return_premises : (let d := putBits (sluDesc 1 2) 199 194 3
    ((offered (inbox 2) (.core 0 d [])).map fun c => (starts (inbox 2) (.core 0 d []) c, Desc_cmd c.desc, SluKind c.desc, c.ex, SluSlot c.desc)) =
      some (true, 9, 1, ⟨0, 0, 0⟩, 3) ∧ inbState (inbox 2) 0 3 ≠ 3) := by
  decide +kernel

theorem test_Origins_combine_check : (let s := setFld (dispatched { sluOrigin with phase := .done } 0) (Reg.tniSluOstat 0 2) TniSluOstat.STATE 2
    (offered s (sluSrc 2 2)).map fun c => (sluCheck (takeOffer s (sluSrc 2 2)) c, (sluOf s c.ex.tile (SluGidx c.desc)).isSome)) = some (none, true) := by
  decide +kernel

theorem test_Origins_dispatch_premises : (let s := { joined with coll := {} }
    let d := putBits (putBits (putBits (sluDesc 0 2) 455 400 (2 ^ 52)) 399 344 (2 ^ 52)) 343 288 (2 ^ 52)
    (offered s (.core 0 d [])).map fun c =>
      (starts s (.core 0 d []) c, SluKind c.desc, sluCheck (takeOffer s (.core 0 d [])) c, dispatchWaits s c, freeRecord s 0)) =
    some (true, 0, none, false, some 0) := by
  decide +kernel

theorem test_Homes_return_check : (let src := CmdSrc.core 0 (putBits (sluDesc 1 2) 199 194 3) []
    (offered (inbox 2) src).map fun c => sluCheck (takeOffer (inbox 2) src) c) = some none := by
  decide +kernel

/-! ### MessagesReachChannels -/

/-- Channel 6 of tile 0 in a state, with a ring of four slots in its tile and a spillway of two slots, and what else it holds. -/
def channel (st spcap : Nat) (r : ChanRun) : State :=
  let s := setFld (setFld memState (chStat 0 6) TniChStat.STATE st) (chCfg 0 6) TniChCfg.DEPTHM1 3
  let s := setFld (setFld s (Reg.tniChSpill 0 6) TniChSpill.SPCAP spcap) (chCfg 0 6) TniChCfg.HEN 1
  let s := setFld s (Reg.tniChHtab 0 0) TniChHtab.V 1
  { s with chan := { runs := [(6, r)] } }

def msgPkt : Pkt :=
  stamp { opc := .msg, src := ⟨0, 0, 0⟩, dst := ⟨0, 0, 0⟩, tenant := 1, prio := 2, tag := 3, addr := 6, nbytes := 64, data := List.replicate 64 1 }

theorem test_Messages_judged_premises : passesChecks (channel 1 2 {}) msgPkt = true ∧ owner (received (channel 1 2 {}) msgPkt) 0 = 1 ∧
    chState (received (channel 1 2 {}) msgPkt) 0 6 = 1 ∧ fld (received (channel 1 2 {}) msgPkt) (chCfg 0 6) TniChCfg.KIND = 0 ∧ fmtSound msgPkt = true ∧
    ringRoom (received (channel 1 2 {}) msgPkt) 0 6 = true ∧ chState (received (channel 2 2 {}) msgPkt) 0 6 = 2 ∧
    chState (received (channel 3 2 {}) msgPkt) 0 6 = 3 ∧ chState (received (channel 0 2 {}) msgPkt) 0 6 = 0 := by
  decide +kernel

/-- Four messages wait for the ring. -/
def crowded (spcap : Nat) : State := channel 1 spcap { writes := List.replicate 4 ⟨List.replicate 64 1, some msgPkt, false⟩ }

theorem test_Messages_spill_premises : ringRoom (received (crowded 2) msgPkt) 0 6 = false ∧
    chSpcnt (received (crowded 2) msgPkt) 0 6 < chSpcap (received (crowded 2) msgPkt) 0 6 ∧
    chSpcap (received (crowded 0) msgPkt) 0 6 ≤ chSpcnt (received (crowded 0) msgPkt) 0 6 := by
  decide +kernel

theorem test_Messages_ring_premises : (crowded 2).wf = true ∧ ((chan (crowded 2) 0 6).writes.head?.map fun w => (w.refill, w.msg.length)) = some (false, 64) ∧
    plainSend (crowded 2) msgPkt = true := by
  decide +kernel

/-- A message spilled into slot 0. -/
def spilled (st : SpillSt) : State := channel 1 2 { spill := [⟨0, st, List.replicate 64 1, some msgPkt, 50, 0, 0⟩] }

theorem test_Messages_spilled_premises : quiet (spilled .pending) = true ∧ ((chan (spilled .pending) 0 6).spill.filter fun y => y.k == 0).length = 1 ∧
    tWf (fun _ => ({} : ChanRun)) (spilled .pending).chan.runs = true ∧
    chRcnt (spilled .held) 0 6 + refilling (spilled .held) 0 6 < chDepth (spilled .held) 0 6 ∧
    ((chan (spilled .held) 0 6).spill.find? fun y => y.st == .pending || y.st == .held).isSome = true := by
  decide +kernel

/-- A SEND of tile 0's control core to its own channel 6. -/
def sendSrc : CmdSrc := .core 0 (putBits (putBits 0 63 56 10) 55 48 56) (List.replicate 56 1)

theorem test_Messages_send_premises :
    ((offered (channel 1 2 {}) sendSrc).map fun c => (starts (channel 1 2 {}) sendSrc c, Desc_cmd c.desc)) = some (true, 10) := by
  decide +kernel

/-! ### CoresServeChannels -/

/-- Three messages in the ring of channel 6. -/
def ringed (st : Nat) : State :=
  let s := channel st 2 { stamps := [1, 2, 3] }
  setFld s (chStat 0 6) TniChStat.RCNT 3

theorem test_Cores_dispatch_premises :
    (((ringed 1).chan.runs.filter fun x => x.1 / 4096 == 0).map fun x => x.1 % 4096).filter (chReady (ringed 1) 0) = [6] ∧
    chBefore (ringed 1) 0 6 6 = false ∧
    (((channel 1 2 {}).chan.runs.filter fun x => x.1 / 4096 == 0).map fun x => x.1 % 4096).filter (chReady (channel 1 2 {}) 0) = [] := by
  decide +kernel

theorem test_Cores_retire_premises : (ringed 1).wf = true ∧ (chan (ringed 1) 0 6).stale = false ∧ (chan (ringed 1) 0 6).resetAt ≠ some (ringed 1).clk.now ∧ 2 ≤ chRcnt (ringed 1) 0 6 ∧
    chRcnt (ringed 1) 0 6 < 4 := by
  decide +kernel

theorem test_Cores_state_premises : chState (ringed 1) 0 6 = 1 ∧ chState (ringed 2) 0 6 = 2 ∧ chState (ringed 0) 0 6 = 0 ∧
    (chan (ringed 1) 0 6).acc.count = 0 ∧ (chan (channel 1 2 { acc := { count := 1 } }) 0 6).acc.count ≠ 0 := by
  decide +kernel

theorem test_Cores_reset_premises : (chan (channel 1 2 { writes := [⟨[], some msgPkt, false⟩] }) 0 6).writes.filterMap ChanWrite.ack = [msgPkt] ∧
    (channel 1 2 {}).dyn.waiting = [] ∧ plainSend (channel 1 2 {}) msgPkt = true := by
  decide +kernel

/-! ### RingsPublishAndFetch -/

/-- Function 1's ring 0 runs with 256 slots, executed by tile 0's TNI or by the HP, with completion ring 0. -/
def ringed1 (exu pub : Nat) (x : RingRun) : State :=
  let s := setFld (setFld memState (Reg.hpCrCfg 1 0) HpCrCfg.EN 1) (Reg.hpCrCfg 1 0) HpCrCfg.SIZEL2 8
  let s := setFld (setFld s (Reg.hpCrStat 1 0) HpCrStat.STATE 1) (Reg.hpCrCfg 1 0) HpCrCfg.EXU exu
  let s := setFld (setFld s (Reg.hpCqCfg 1 0) HpCqCfg.EN 1) (Reg.hpCqCfg 1 0) HpCqCfg.SIZEL2 8
  { s with host := { s.host with rings := [(16, { x with published := pub })] } }

/-- A NOP descriptor of phase 1 with its CHECK, and its bytes. -/
def nopDesc : Nat :=
  let d := putBits (putBits 0 63 56 1) 0 0 1
  putBits d 127 112 (descCheck d [])
def nopBytes : List Byte := toLE 256 nopDesc

theorem test_Rings_doorbell_premises : ringOn (ringed1 1 0 {}) 1 0 = true ∧ (ringed1 1 0 {}).wf = true ∧ ringSize (ringed1 1 0 {}) 1 0 = 256 ∧
    ringEx (ringed1 1 0 {}) 1 0 ≠ hpEp (myChip (ringed1 1 0 {})) ∧ ringEx (ringed1 0 0 {}) 1 0 = hpEp (myChip (ringed1 0 0 {})) ∧
    ringOn running 1 0 = false ∧ cqSize (ringed1 1 0 {}) 1 0 = 256 := by
  decide +kernel

theorem test_Rings_fetch_premises : mayFetch (ringed1 0 4 {}) 1 0 = true ∧ injArmed (ringed1 0 4 {}) .hp .host (fun _ => true) = false ∧
    quiet (ringed1 0 4 {}) = true ∧ descValid true 0 [] = false ∧ (descOf nopBytes).1 = nopDesc ∧
    descValid true (descOf nopBytes).1 (descOf nopBytes).2 = true ∧ descSlots (descOf nopBytes).1 = 1 ∧ (ring (ringed1 0 4 {}) 1 0).t0 = none ∧
    rereadCycles (ringed1 0 4 {}) < staleCycles (ringed1 0 4 {}) ∧
    (ring (ringed1 0 4 { t0 := some 5, lastData := 50 }) 1 0).t0.isSome = true := by
  decide +kernel

theorem test_Rings_stray_premises : barReg 1 0x40 = .stray ∧ memState.host.linkUp = true ∧ portOpen memState = true := by decide +kernel

/-! ### CommandsRunAndComplete -/

/-- A command of tile 0's control core: kind, A0, A1, LEN, inline bytes. -/
def cmdSrc (kind a0 a1 len : Nat) (inl : List Byte) : CmdSrc :=
  .core 0 (putBits (putBits (putBits (putBits (putBits 0 63 56 kind) 511 456 a0) 455 400 a1) 399 368 len) 55 48 inl.length) inl

theorem test_Commands_nop_premises : (let s := memState
    ((offered s (cmdSrc 1 0 0 0 [])).map fun c => (starts s (cmdSrc 1 0 0 0 []) c, Desc_cmd c.desc, checkCmd (takeOffer s (cmdSrc 1 0 0 0 [])) c)) =
      some (true, 1, some .ok)) := by
  decide +kernel

theorem test_Commands_dead_premises : (let s := setFld memState (Reg.tniCoreCtx 0) TniCoreCtx.DEAD 1
    (offered s (cmdSrc 1 0 0 0 [])).isSome = true ∧ srcDead s (cmdSrc 1 0 0 0 []) = true) := by
  decide +kernel

/-- A command with its format, priority and target. -/
def fullSrc (kind a0 a1 len ef tgt : Nat) (inl : List Byte) : CmdSrc :=
  match cmdSrc kind a0 a1 len inl with
  | .core x d i => .core x (putBits (putBits (putBits d 341 338 ef) 331 330 1) 348 342 tgt) i
  | c => c

def fits (s : State) (src : CmdSrc) (k : Nat) : Bool :=
  match offered s src with
  | some c => starts s src c && Desc_cmd c.desc == k && checkCmd (takeOffer s src) c == none
  | none => false

theorem test_Commands_copy_premises : fits memState (fullSrc 2 (2 ^ 52) (2 ^ 52 + 4096) 64 1 0 []) 2 = true ∧
    fits memState (fullSrc 3 (2 ^ 52) 0 4 1 0 [1, 2, 3, 4]) 3 = true := by
  decide +kernel

theorem test_Commands_remote_premises : fits memState (fullSrc 4 (2 ^ 52) 0 4 0 0 [1, 2, 3, 4]) 4 = true ∧
    fits memState (fullSrc 5 (2 ^ 52) (2 ^ 52) 64 1 0 []) 5 = true := by
  decide +kernel

theorem test_Commands_target_premises : fits memState (fullSrc 6 (2 ^ 52) 0 64 1 4 []) 6 = true ∧
    fits memState (fullSrc 7 0 0 5 0 0 []) 7 = true ∧ fits memState (fullSrc 1 0 0 5 0 0 []) 1 = true := by
  decide +kernel

/-- A BARRIER of group index 4. -/
def barrierSrc : CmdSrc := .core 0 (putBits (putBits (putBits 0 63 56 8) 367 356 4) 355 352 5) []

theorem test_Commands_collective_premises : (let s := { marked with coll := {} }
    ((offered s barrierSrc).map fun c => (starts s barrierSrc c, Desc_cmd c.desc, collCheck (takeOffer s barrierSrc) c,
      collWaits s barrierSrc, onStandpipe s c.desc)) = some (true, 8, none, false, false)) := by
  decide +kernel

/-- A NOP of function 1's ring 0 with nothing outstanding. -/
def finishing : State :=
  let s := ringed1 0 0 {}
  { s with host := { s.host with cmds := [{ id := 7, src := .ring 1 0, ex := hpEp 0, tenant := 1, desc := nopDesc }] } }

theorem test_Commands_complete_premises : ((cmdOf finishing 7).map fun c => (c.left, c.poison, c.trig.isNone, Desc_cmd c.desc, Desc_cen c.desc)) =
      some (0, false, true, 1, false) ∧ qpMayFinish finishing 7 = true ∧ finishing.host.flr.contains 1 = false ∧
    finishing.host.linkUp = true ∧ finishing.trig.adds = [] ∧ finishing.host.out.contains (.msix 1 0 finishing.clk.now) = false ∧ opOfCmd finishing 7 = none ∧
    tWf (fun _ => ({} : CqRun)) finishing.host.cqs = true := by
  decide +kernel

/-! ### SequencerCommandsAnswer -/

/-- The block with one command of function 0 (or another) in the sequencer's slot: command, payload length and first words. -/
def asking (sv : Server) (fn cmd plen : Nat) (ws : List Nat) : State :=
  let h := cmd * 2 ^ 48 + (if sv = .g then 1 else 0) * 2 ^ 40 + plen
  let tk := ((h :: ws).zipIdx).foldl (fun t w => eSet 0 w.2 w.1 t) []
  let s := { memState with mbx := { memState.mbx with slots := [(slotKey sv fn, { seq := 3, state := 1, taken := tk })], fmpst := 1 } }
  setQueue s sv [fn]

theorem test_Sequencer_refusal_premises : memState.wf = true ∧ takesUp (asking .g 0 2 16 []) .g 0 2 = true ∧ rqPlen (asking .g 0 2 16 []) .g 0 = 16 ∧
    takesUp (asking .g 1 5 0 []) .g 1 5 = true ∧ rqPlen (asking .g 1 5 0 []) .g 1 = 0 ∧ takesUp (asking .g 1 3 8 [1]) .g 1 3 = true := by
  decide +kernel

theorem test_Sequencer_errlog_premises : takesUp (asking .g 1 2 8 [31 * 2 ^ 32]) .g 1 2 = true ∧ rqPlen (asking .g 1 2 8 [31 * 2 ^ 32]) .g 1 = 8 ∧
    bits (rqW (asking .g 1 2 8 [31 * 2 ^ 32]) .g 1 0) 39 32 = 31 := by
  decide +kernel

theorem test_Sequencer_sounding_premises : takesUp (asking .g 0 3 8 [1]) .g 0 3 = true ∧ rqW (asking .g 0 3 8 [1]) .g 0 0 = 1 ∧
    takesUp (asking .g 0 3 8 [65535 * 2 ^ 16]) .g 0 3 = true ∧ bits (rqW (asking .g 0 3 8 [65535 * 2 ^ 16]) .g 0 0) 15 0 = 0 ∧
    (0 : Nat) < ceilDiv 64 2016 := by
  decide +kernel

theorem test_Sequencer_freeze_premises : (∀ w ∈ [0, 1, 2, 3], takesUp (asking .g 0 4 8 [w]) .g 0 4 = true ∧ rqW (asking .g 0 4 8 [w]) .g 0 0 = w ∧
    (asking .g 0 4 8 [w]).regs = memState.regs) ∧ isFrozen memState = false ∧ injArmed memState (.rtr 63) .spchk (fun _ => true) = false := by
  decide +kernel

theorem test_Sequencer_reset_premises : takesUp (asking .g 0 5 0 []) .g 0 5 = true ∧ takesUp (asking .g 0 6 8 [1]) .g 0 6 = true ∧
    stage (asking .g 0 6 8 [1]) = 9 ∧ rqW (asking .g 0 6 8 [1]) .g 0 0 / 2 = 0 := by
  decide +kernel

/-- FMP_RECOVER under way: function 0's slot has begun, and the FMP recovers. -/
def recovering : State :=
  let s := begin_ (asking .g 0 6 8 [1]) .g 0
  { s with mbx := { s.mbx with fmpst := 3 } }

theorem test_Sequencer_recovery_premises : fmpRuns recovering = false ∧ stage recovering = 9 ∧
    goesOn recovering .g 0 6 = true ∧ rqPlen recovering .g 0 = 8 ∧ rqW recovering .g 0 0 / 2 = 0 ∧
    injArmed recovering .fab .boot (fun k => k == 3) = false ∧ recoverImage recovering 0 = some 0x010000 ∧
    recoverImage { recovering with boot := { recovering.boot with inp := some { primary := none, recovery := none } } } 0 = none := by
  decide +kernel

theorem test_SequencerCommandsAnswer_version : (match exec (.fmpRecover 0) { recovering with boot := { recovering.boot with
    inp := some { primary := none, recovery := some 5 } } } with
    | .next u => eGet 0 1 (mbxSlot u .g 0).rsp
    | _ => 0) = 5 := by
  decide +kernel

/-! ### FirmwareBeatsAndReports -/

theorem test_FirmwareBeats_premises : fmpRuns (asking .g 0 2 8 []) = true ∧ fmpRuns running = false ∧
    tWf (fun _ => ({} : MbxSlot)) (asking .f 1 0x120 24 []).mbx.slots = true ∧ (asking .f 1 0x120 24 []).mbx.fq = [1] := by
  decide +kernel

theorem test_FirmwareBeats_vector_premises : vecMasked running 63 63 = true ∧ tWf (fun _ => 2 ^ 64 - 1) running.host.vecCtl = true ∧
    bit (eGet 0 63 (signal running 63 63).host.pba) 63 = true ∧ tWf (fun _ => 0) (signal running 63 63).host.pba = true := by
  decide +kernel

/-! ### FirmwareChecksComeFirst -/

theorem test_FirmwareChecks_format_premises : (∀ k ∈ [(0x120, 32), (0x171, 16), (0x183, 0)], takesUp (asking .f 1 k.1 k.2 []) .f 1 k.1 = true ∧
    rqPlen (asking .f 1 k.1 k.2 []) .f 1 = k.2) ∧ takesUp (asking .f 0 0x191 2040 []) .f 0 0x191 = true := by
  decide +kernel

theorem test_FirmwareChecks_privilege_premises : takesUp (asking .f 1 0x102 0 []) .f 1 0x102 = true ∧ takesUp (asking .f 63 0x114 0 []) .f 63 0x114 = true ∧
    takesUp (asking .f 1 0x160 16 [4 * 2 ^ 12, 0]) .f 1 0x160 = true ∧ arbSetFormat 1 (asking .f 1 0x160 16 [4 * 2 ^ 12, 0]) = true ∧
    takesUp (asking .f 0 0x113 8 []) .f 0 0x113 = true := by
  decide +kernel

/-- Function 1 asks while its tenant is sealed and has no key that authorises; group index 4 is the tenant's. -/
def sealedAsk (plen : Nat) : State :=
  let s := asking .f 1 0x141 plen [0, 0, 4]
  setFld (setFld (wrReg s Reg.secSealed 2) (Reg.fabGrpA 4) FabGrpA.TENANT 1) (Reg.fabGrpA 4) FabGrpA.STATE 1

theorem test_FirmwareChecks_seal_premises : ∀ n ∈ [24, 56], gatedHere (sealedAsk n) 1 = true ∧ takesUp (sealedAsk n) .f 1 0x141 = true ∧
    rqPlen (sealedAsk n) .f 1 = n ∧ (sealedAsk n).wf = true ∧ grpState (sealedAsk n) (gcIdx (sealedAsk n) 1) ≠ 0 ∧
    grpTenant (sealedAsk n) (gcIdx (sealedAsk n) 1) = 1 ∧ authOk (sealedAsk n) 1 24 [] = false ∧ rqW (sealedAsk n) .f 1 4 = 0 ∧
    injArmed (sealedAsk n) .sec .seal (fun _ => true) = false := by
  decide +kernel

/-! ### ServiceCommandsAct -/

theorem test_Service_ring_premises : (∀ p ∈ [([8 * 2 ^ 13, 0, 16 + 15], true), ([8 * 2 ^ 13, 0, 15], false)],
    let s := asking .f 1 0x120 24 p.1
    let s := if p.2 then s else setFld s (Reg.hpCqCfg 1 0) HpCqCfg.EN 1
    s.wf = true ∧ takesUp s .f 1 0x120 = true ∧ gateOpens s 1 24 [] = true ∧ ringFormat 1 s = true ∧ ringCreateCheck 1 s = none ∧ rcCq s 1 = p.2) ∧
    ringCreateCheck 1 (asking .f 1 0x120 24 [8 * 2 ^ 13, 0, 15]) = some (.state, []) := by
  decide +kernel

theorem test_Service_destroy_premises : (∀ w ∈ [15, 16 + 15], let s := asking .f 1 0x121 24 [0, 0, w]
    takesUp s .f 1 0x121 = true ∧ gateOpens s 1 24 [] = true ∧ ringDestroyCheck 1 s = none ∧ s.wf = true ∧ rcCq s 1 = decide (w = 31)) ∧
    goesOn (begin_ (asking .f 1 0x121 24 [0, 0, 15]) .f 1) .f 1 0x121 = true ∧ finishing.host.cmds.any (fromRing 1 0) = true ∧
    (asking .f 1 0x121 24 []).host.cmds.any (fromRing 1 0) = false := by
  decide +kernel

theorem test_Service_channel_premises : (∀ k ∈ [(0x150, 40), (0x151, 8), (0x152, 8)], ∀ st, st < 4 →
    let s := setFld (asking .f 1 k.1 k.2 [4095]) (chStat 0 4095) TniChStat.STATE st
    s.wf = true ∧ takesUp s .f 1 k.1 = true ∧ gateOpens s 1 k.2 [] = true ∧ coTile s 1 = 0 ∧ good s 0 = true ∧ owner s 0 = 1 ∧ oddTwin s 0 = false ∧
      chState s (coTile s 1) (coChan s 1) = st) ∧ good (asking .f 1 0x151 8 [63 * 4096]) 63 = true ∧ owner (asking .f 1 0x151 8 [63 * 4096]) 63 ≠ 1 := by
  decide +kernel

theorem test_Service_open_premises : openRefused (asking .f 1 0x150 40 [4095, 0, 0, 0, 0]) 1 = false ∧
    openRefused (asking .f 1 0x150 40 [4095, 2 ^ 63, 0, 0, 0]) 1 = true := by
  decide +kernel

theorem test_Service_weight_premises : (∀ op, op < 4 → let s := asking .f 0 0x160 16 [op * 2 ^ 22 + 63 * 2 ^ 16, if op < 3 then 10 else 2 ^ 52]
    s.wf = true ∧ takesUp s .f 0 0x160 = true ∧ asOp s 0 = op ∧ asDisabled s 0 = false ∧ (op < 3 → arbSetFormat 0 s = true)) ∧
    arbSetFormat 0 (asking .f 0 0x160 16 [3 * 2 ^ 22, 99 * 2 ^ 48]) = true ∧
    asDisabled { asking .f 0 0x160 16 [2 ^ 12] with regs := [] } 0 = true ∧ arbSetFormat 0 (asking .f 0 0x160 16 [2 ^ 12, 16]) = true := by
  decide +kernel

theorem test_Service_counter_premises : let s := asking .f 0 0x170 8 [2 ^ 32 + Reg.fabTviol 0]
    takesUp s .f 0 0x170 = true ∧ gateOpens s 0 8 [] = true ∧ counterFormat 0 s = true ∧ (crOffs s 0).all (mayRead s 0) = true ∧
    (crOffs s 0).any (unpowered s) = false := by
  decide +kernel

/-! ### SchedulesAreLoadedAndArmed -/

/-- A list of one record, and a request of function 1 (its tenant in W2) that carries it. -/
def oneRec (off v : Nat) : HostData := .ok (toLE 8 off ++ toLE 8 v)

/-- The tenant's crossbar range covers entry 4095 of tile 63. -/
def schAsk (fn cmd w0 w1 : Nat) : State :=
  setFld (setFld (asking .f fn cmd 24 [w0, w1, 2 ^ 56]) (Reg.rtrSchRange 63 1) RtrSchRange.BASE 4095) (Reg.rtrSchRange 63 1) RtrSchRange.COUNT 1

theorem test_Schedules_load_premises : let s := schAsk 0 0x130 0 1
    s.wf = true ∧ takesUp s .f 0 0x130 = true ∧ gateOpens s 0 24 (listBytes s 0 (oneRec (xbar 63 1 4095) 0)) = true ∧ listFormat 0 s = true ∧
    schedFormat 0 s = true ∧ openTo s 0 (schedTenant s 0) = none ∧ schedTenant s 0 = 1 ∧ flag s (Reg.fabSchCtx 1) FabSchCtx.ARMED = false ∧
    (tryList (listMay (schedMay 1) none) schedApply s 0 (listRecs s 0 (toLE 8 (xbar 63 1 4095) ++ toLE 8 0))).1 = none ∧
    listRecs s 0 (toLE 8 (xbar 63 1 4095) ++ toLE 8 0) = [(xbar 63 (1 - schBank s 1) 4095, 0)] ∧
    (tryList (listMay (schedMay 1) none) schedApply s 0 (listRecs s 0 (toLE 8 Reg.fabTwinMap ++ toLE 8 0))).1 = some (.check, 0) := by
  decide +kernel

theorem test_Schedules_sealed_premises : let s := wrReg (schAsk 0 0x131 99 0) Reg.secSealed 2
    openTo s 0 (schedTenant s 0) = some .sealed ∧ takesUp s .f 0 0x131 = true ∧ rqPlen s .f 0 = 24 ∧ armFormat 0 s = true := by
  decide +kernel

theorem test_Schedules_arm_premises : ∀ k ∈ [0x131, 0x132], let s := schAsk 1 k 99 0
    s.wf = true ∧ takesUp s .f 1 k = true ∧ gateOpens s 1 24 [] = true ∧ armFormat 1 s = true ∧ openTo s 1 (schedTenant s 1) = none ∧
    schedTenant s 1 = 1 ∧ flag s (Reg.fabSchCtx 1) FabSchCtx.ARMED = false := by
  decide +kernel

theorem test_Schedules_slots_premise : ∀ x ∈ allSlots (schAsk 1 0x131 99 0), slotAffected (schAsk 1 0x131 99 0) 1 x = false :=
  fun x hx => slotAffected_arbFree _ _ _ (allSlots_ok _ x hx) (by decide +kernel)

theorem test_Schedules_stop_premise : ∀ x ∈ allSlots (schAsk 1 0x132 99 0), slotAffected (schAsk 1 0x132 99 0) 1 x = false :=
  fun x hx => slotAffected_arbFree _ _ _ (allSlots_ok _ x hx) (by decide +kernel)

/-! ### GroupsAndListsAct -/

/-- Function 1 asks for group index 4, GROUP 9, EPOCH 2, with a list of one record. -/
def grpAsk (cmd n : Nat) : State := asking .f 1 cmd 24 [0, n, 9 * 2 ^ 48 + 2 * 2 ^ 32 + 4]

theorem test_Groups_create_premises : let s := grpAsk 0x140 1
    s.wf = true ∧ takesUp s .f 1 0x140 = true ∧ listFormat 1 s = true ∧ bits (rqW s .f 1 2) 31 12 = 0 ∧ grpState s (gcIdx s 1) = 0 ∧
    gateOpens s 1 24 (listBytes s 1 (oneRec (Reg.tniGrpMember 0 4) 1)) = true ∧ s.coll.epochs.contains (1, gcGroup s 1, gcEpoch s 1) = false ∧
    (tryList (planMay 1) (planApply 1) s 0 (listRecs s 1 (toLE 8 (Reg.tniGrpMember 0 4) ++ toLE 8 (2 ^ 63)))).1 = none ∧
    tooFew 1 (oneRec (Reg.tniGrpMember 0 4) (2 ^ 63)) s = true ∧
    (let v := putBits (2 ^ 24) FabGrpA.NM1.hi FabGrpA.NM1.lo 1
     (tryList (planMay 1) (planApply 1) s 0 (listRecs s 1 (toLE 8 (Reg.fabGrpA 4) ++ toLE 8 v))).1 = none ∧ tooFew 1 (oneRec (Reg.fabGrpA 4) v) s = false) ∧
    (tryList (planMay 1) (planApply 1) s 0 (listRecs s 1 (toLE 8 (Reg.tniGrpMember 1 4) ++ toLE 8 (2 ^ 63)))).1 = some (.check, 0) := by
  decide +kernel

theorem test_Groups_refusal_premises : grpState (sealedAsk 24) 4 ≠ 0 ∧ grpTenant (sealedAsk 24) 4 = 1 ∧
    ({ grpAsk 0x140 1 with coll := { epochs := [(1, 9, 2)] } } : State).coll.epochs.contains (1, gcGroup (grpAsk 0x140 1) 1, gcEpoch (grpAsk 0x140 1) 1) = true := by
  decide +kernel

theorem test_Groups_destroy_premises : let s := asking .f 1 0x141 24 [0, 0, 4]
    s.wf = true ∧ takesUp s .f 1 0x141 = true ∧ gateOpens s 1 24 [] = true ∧ grpState s (gcIdx s 1) = 0 ∧ rqW s .f 1 0 = 0 ∧
    (let u := setFld (setFld s (Reg.fabGrpA 4) FabGrpA.STATE 1) (Reg.fabGrpA 4) FabGrpA.TENANT 1
     grpState u (gcIdx u 1) ≠ 0 ∧ grpTenant u (gcIdx u 1) = 1 ∧ takesUp u .f 1 0x141 = true ∧ u.wf = true) := by
  decide +kernel

theorem test_Groups_arbiter_premises : let s := asking .f 0 0x161 24 [0, 1, 0]
    takesUp s .f 0 0x161 = true ∧ rqPlen s .f 0 = 24 ∧ listFormat 0 s = true ∧ rqW s .f 0 2 = 0 ∧
    (tryList configTry configApply s 0 [(Reg.arbShape .hp 0, 0)]).1 = none ∧ isArm (Reg.arbShape .hp 0) 0 = false ∧
    listRecs s 0 (toLE 8 (Reg.arbShape .hp 0) ++ toLE 8 0) = [(Reg.arbShape .hp 0, 0)] ∧
    (tryList configTry configApply s 0 [(Reg.fabTwinMap, 0)]).1 = some (.check, 0) := by
  decide +kernel

theorem test_Groups_trace_premises : let s := asking .f 0 0x171 24 [0, 1, 0]
    let well := toLE 8 (Reg.telTwCfg 0) ++ toLE 8 (2 * 2 ^ 28)
    s.wf = true ∧ takesUp s .f 0 0x171 = true ∧ gateOpens s 0 24 (listBytes s 0 (oneRec (Reg.telTwCfg 0) (2 * 2 ^ 28))) = true ∧ listFormat 0 s = true ∧
    openTo s 0 (schedTenant s 0) = none ∧
    (tryList (traceTry 0) (fun s off v => applyWrite s off v) s 0 (listRecs s 0 well)).1 = none ∧
    (tryList (traceTry 0) (fun s off v => applyWrite s off v) s 0 (listRecs s 0 (toLE 8 (Reg.telTwCfg 1) ++ toLE 8 0))).1 = some (.check, 0) := by
  decide +kernel

/-! ### PartitionsComeAndGo -/

/-- Function 0 asks for a partition of tenant 2 with tile 1, and its parameter block. -/
def partAsk : State := asking .f 0 0x110 32 [2, 2 * 2 ^ 56, 0, 24]
def partBlk : HostData := .ok (toLE 8 (2 ^ 56) ++ toLE 16 0)

theorem pbNoRoom_none (s : State) (b : List Byte) (h : pbNrng b = 0) (g : decide (240 < (s.parts.map PartRun.rsvsh).foldl (· + ·) 0 + pbRsvsh b) = false) :
    pbNoRoom s b = false := by
  simp only [pbNoRoom, h, g, Nat.not_lt_zero, decide_false, Bool.or_false]
  simp

theorem test_Partitions_create_premises : partAsk.wf = true ∧ takesUp partAsk .f 0 0x110 = true ∧ rqPlen partAsk .f 0 = 32 ∧
    bits (rqW partAsk .f 0 1) 63 56 = 2 ∧ createCheck .unsupported 0 partAsk = some (.fetch, []) := by
  decide +kernel

theorem test_Partitions_create_passes : createCheck partBlk 0 partAsk = none := by
  have h : pbNoRoom partAsk ((fetched partBlk).getD []) = false := pbNoRoom_none _ _ (by decide +kernel) (by decide +kernel)
  have e1 : (partOf partAsk 2).isSome = false := by decide +kernel
  have e2 : (maskTiles 2 ++ twinTiles 0).any (fun x => ! good partAsk x) = false := by decide +kernel
  have e3 : (maskTiles 2).any (fun x => owner partAsk x != 0xFF && owner partAsk x != 2) = false := by decide +kernel
  have e4 : pbMalformed partAsk ((fetched partBlk).getD []) 24 = false := by decide +kernel
  have e5 : pbConflict partAsk 2 ((fetched partBlk).getD []) = false := by decide +kernel
  have e6 : (pbRanges ((fetched partBlk).getD [])).any (pagesMeet partAsk true) = false := by decide +kernel
  have w : rqW partAsk .f 0 0 = 2 ∧ bits (rqW partAsk .f 0 1) 63 56 = 2 ∧ bits (rqW partAsk .f 0 1) 31 0 = 0 ∧
    bits (rqW partAsk .f 0 3) 15 0 = 24 := by decide +kernel
  have e7 : (twinTiles 0).any (fun x => ! bit 2 x) = false := by decide +kernel
  simp only [createCheck, w, e1, e2, e3, e7, firstOf]
  exact (show firstOf [(pbMalformed partAsk ((fetched partBlk).getD []) 24, .check), (pbConflict partAsk 2 ((fetched partBlk).getD []), .conflict),
    (pbNoRoom partAsk ((fetched partBlk).getD []), .noResource), ((pbRanges ((fetched partBlk).getD [])).any (pagesMeet partAsk true), .state)] = none by
    rw [e4, e5, h, e6]; rfl)

/-- Tenant 2's partition is being destroyed, or not. -/
def parted (dying : Bool) (cmd plen : Nat) (fn : Nat) (ws : List Nat) : State :=
  { asking .f fn cmd plen ws with parts := [⟨2, 2, 0, 16, dying⟩] }

theorem test_Partitions_destroy_premises : let s := parted false 0x111 8 0 [2 * 2 ^ 56]
    s.wf = true ∧ takesUp s .f 0 0x111 = true ∧ rqPlen s .f 0 = 8 ∧ partTenant s 0 = 2 ∧ (partOf s 2).map PartRun.dying = some false ∧
    (partOf partAsk 2).map PartRun.dying ≠ some false := by
  decide +kernel

theorem test_Partitions_fill_premises : let s := begin_ (parted true 0x111 8 0 [2 * 2 ^ 56]) .f 0
    s.wf = true ∧ s.parts.find? (fun p => p.tenant == 2 && p.dying) = some ⟨2, 2, 0, 16, true⟩ ∧ bit 2 1 = true ∧ goesOn s .f 0 0x111 = true ∧
    partTenant s 0 = 2 ∧ s.parts.find? (fun p => p.tenant == 3 && p.dying) = none := by
  decide +kernel

theorem test_Partitions_seal_premises : let s := parted false 0x113 8 2 [77]
    s.wf = true ∧ takesUp s .f 2 0x113 = true ∧ rqPlen s .f 2 = 8 ∧ (noPart s 2 || (ctrlKey s 2).isNone || sealedT s 2) = true ∧
    (let u : State := { s with sec := { ctrl := [(2, 5)] } }
     takesUp u .f 2 0x113 = true ∧ u.wf = true ∧ (noPart u 2 || (ctrlKey u 2).isNone || sealedT u 2) = false) := by
  decide +kernel

theorem test_Partitions_recover_premises : let s := asking .f 0 0x114 0 []
    s.wf = true ∧ takesUp s .f 0 0x114 = true ∧ rqPlen s .f 0 = 0 ∧ fnState s 63 ≠ 3 ∧
    (let u := (List.range 64).foldl (fun s f => setFld s (Reg.hpFnStat f) HpFnStat.STATE 3) s
     takesUp u .f 0 0x114 = true ∧ u.wf = true ∧ ∀ f, f < 64 → fnState u f = 3) := by
  decide +kernel

/-! ### KeysAndDomain -/

/-- Function 0 asks for tenant 2's keys: USE, PH, payload length. -/
def keyAsk (use plen : Nat) : State := parted false 0x112 plen 0 [2 * 2 ^ 56 + use * 2 ^ 12 + 2 ^ 11]

theorem test_Keys_load_premises : ∀ use, use < 3 → let s := keyAsk use 176
    s.wf = true ∧ takesUp s .f 0 0x112 = true ∧ klFormat 0 s = true ∧ klUse s 0 = use ∧ rqPlen s .f 0 = 176 ∧ openTo s 0 (klTenant s 0) = none ∧
    keyLoadCheck 0 s = none := by
  decide +kernel

theorem test_Keys_load_unopened : klKseq (keyAsk 0 176) 0 ≤ eGet 0 (klTenant (keyAsk 0 176) 0) (keyAsk 0 176).sec.kseq ∧
    keyLoadCheck 0 { keyAsk 0 176 with parts := [] } = some (.state, []) := by
  decide +kernel

theorem test_Keys_switch_premises : let s := keyAsk 3 8
    s.wf = true ∧ takesUp s .f 0 0x112 = true ∧ gateOpens s 0 8 [] = true ∧ klFormat 0 s = true ∧ klUse s 0 = 3 ∧ keySwitchCheck 0 s = some (.state, []) ∧
    (let u : State := { s with sec := { lane := [(2, { tenant := 2, k1 := some 9 })] } }
     takesUp u .f 0 0x112 = true ∧ gateOpens u 0 8 [] = true ∧ keySwitchCheck 0 u = none) := by
  decide +kernel

theorem test_Keys_domain_premises : let s := asking .f 0 0x101 32 [0, 0, 0, 0]
    s.wf = true ∧ takesUp s .f 0 0x101 = true ∧ rqPlen s .f 0 = 32 ∧ dirsOk s 0 = true ∧ s.parts = [] ∧ ethCheck .unsupported 0 s = none ∧
    ethCheck .unsupported 0 (asking .f 0 0x101 32 [0, 0, 0, 1]) = some (.fetch, []) ∧ goesOn (begin_ s .f 0) .f 0 0x101 = true ∧
    (let u := asking .f 0 0x101 32 [1, 2 * 2 ^ 60 + 1, 0, 0]
     takesUp u .f 0 0x101 = true ∧ dirsOk u 0 = true ∧ wantDir u 0 15 = 2) ∧ dirsOk { s with parts := [⟨2, 2, 0, 16, false⟩] } 0 = true := by
  decide +kernel

theorem test_Keys_time_premises : let s := asking .f 0 0x102 0 []
    tWf (fun _ => ({} : LaneRun)) s.lane.runs = true ∧ takesUp s .f 0 0x102 = true ∧ goesOn (begin_ s .f 0) .f 0 0x102 = true ∧
    ((List.range 16).any fun n => lpActive s n && (lane s n).measuring) = false ∧
    (let u := { setFld (begin_ s .f 0) (Reg.lpState 15) LpState.STATE 5 with lane := { runs := [(15, { measuring := true })] } }
     ((List.range 16).any fun n => lpActive u n && (lane u n).measuring) = true ∧ goesOn u .f 0 0x102 = true) := by
  decide +kernel

/-! ### TransportIsSetUp -/

/-- Port 0 of engine 1 carries frames under IPv4 address 0, and function 1 asks for something of engine 1. -/
def rteAsk (cmd len handle : Nat) : State :=
  let s := asking .f 1 cmd 32 [1, 0, len, handle]
  let s := setFld (setFld s (Reg.rtePortCfg 1 0) RtePortCfg.V4 1) (Reg.rtePortCfg 1 0) RtePortCfg.NHV 1
  { s with rte := { ports := [(4, { up := true })] } }

/-- A pair's block: port 0, RETRY 7, MAXOPS 1, source ports from 49,152, RTOMIN 16; and its words. -/
def pairBlk : HostData := .ok (toLE 8 (2 ^ 47 + 7 * 2 ^ 43) ++ toLE 8 0 ++ toLE 8 (5 * 2 ^ 32 + 9) ++ toLE 8 (49152 * 2 ^ 16 + 16) ++ toLE 48 0)

theorem test_Setup_pair_premises : let s := rteAsk 0x180 80 0
    s.wf = true ∧ takesUp s .f 1 0x180 = true ∧ gateOpens s 1 32 [] = true ∧ qcFormat 1 s = true ∧ qcLen s 1 = 80 ∧ openTo s 1 (qcTenant s 1) = none ∧
    qpCreateCheck pairBlk 1 s = none ∧ freeQp s 1 = some 0 ∧ qpCreateCheck .completerAbort 1 s = some (.fetch, []) := by
  decide +kernel

/-- Pair 16,383 of engine 1 stands, tenant 1's. -/
def pairUp (s : State) : State :=
  let s := setFld s (qpStat 1 16383) RteQpStat.STATE 1
  { s with rte := { s.rte with qps := [(32767, { tenant := 1, par := [2 ^ 47 + 7 * 2 ^ 43 + 2 ^ 16, 0, 0, 49152 * 2 ^ 16 + 16] })] } }

theorem test_Setup_destroy_premises : let s := pairUp (rteAsk 0x181 0 32767)
    s.wf = true ∧ takesUp s .f 1 0x181 = true ∧ gateOpens s 1 32 [] = true ∧ qcFormat 1 s = true ∧ qcHandle s 1 / 16384 = qcRte s 1 ∧
    qpState s 1 (qcQp s 1) ≠ 0 ∧ (qp s 1 (qcQp s 1)).tenant = qcTenant s 1 ∧ qpBusy s 1 16383 = false ∧ goesOn (begin_ s .f 1) .f 1 0x181 = true ∧
    qpState (rteAsk 0x181 0 32767) 1 16383 = 0 ∧
    qpBusy { s with dyn := { txns := [⟨fmpEp 0, 7, .csrRd, ⟨0, 9, 4⟩, .rte 1 16383 (.src 0 0 0), 1, 0, false, 3, 0, 0, [], 2250⟩] } } 1 16383 = true := by
  decide +kernel

theorem test_Setup_region_premises : let s := rteAsk 0x182 32 0
    s.wf = true ∧ takesUp s .f 1 0x182 = true ∧ gateOpens s 1 32 [] = true ∧ qcFormat 1 s = true ∧ qcLen s 1 = 32 ∧ freeMr s 1 = some 0 ∧
    mrBlockBad s 1 (qcRegion s 1 (toLE 8 0 ++ toLE 8 (2 ^ 52) ++ toLE 8 64 ++ toLE 8 0)) = false ∧
    mrBlockBad s 1 (qcRegion s 1 (toLE 32 0)) = true := by
  decide +kernel

/-- Every region index of engine 1 taken. -/
def mrFull : State := { rteAsk 0x182 32 0 with rte := { mrs := (List.range 16384).map fun i => ⟨1, i, 0, 1, [], true, 0⟩ } }

theorem test_Setup_region_full : freeMr mrFull 1 = none ∧ mrBlockBad mrFull 1 (qcRegion mrFull 1 (toLE 8 0 ++ toLE 8 (2 ^ 52) ++ toLE 8 64 ++ toLE 8 0)) = false ∧
    takesUp mrFull .f 1 0x182 = true := by
  refine ⟨?_, by decide +kernel, by decide +kernel⟩
  rw [freeMr, List.find?_eq_none]
  intro i hi
  have hi := List.mem_range.mp hi
  simp only [mrFull, List.any_map, Bool.not_eq_true']
  simp
  exact hi

/-- A region of engine 1, index 3, generation 7, with placements outstanding. -/
def region3 (valid : Bool) (out : Nat) : MrRun := ⟨1, 3, 7, 1, [], valid, out⟩
def mrAsk (m : List MrRun) : State := { rteAsk 0x183 0 (3 * 2 ^ 18 + 7) with rte := { mrs := m } }

theorem test_Setup_deregister_premises : (∀ m ∈ [region3 true 0, region3 false 1, region3 true 2], let s := mrAsk [m]
    s.wf = true ∧ takesUp s .f 1 0x183 = true ∧ gateOpens s 1 32 [] = true ∧ qcFormat 1 s = true ∧ qcMr s 1 = some m ∧ qcTenant s 1 = m.tenant ∧
    (s.rte.mrs.filter fun x => x.e == m.e && x.idx == m.idx) = [m] ∧ goesOn (begin_ s .f 1) .f 1 0x183 = true) ∧ qcMr (mrAsk []) 1 = none := by
  decide +kernel

/-! ### PatternsAreLoadedAndRun -/

theorem test_Patterns_load_premises : let s := asking .f 0 0x190 16 [0, 2 ^ 24]
    takesUp s .f 0 0x190 = true ∧ rqPlen s .f 0 = 16 ∧ bits (rqW s .f 0 1) 31 0 = 2 ^ 24 ∧ bits (rqW s .f 0 1) 63 32 = 0 := by
  decide +kernel

/-- Function 0 runs the patterns of routers at tile 1, with a stored bundle that covers unit kind 0. -/
def patternAsk (tiles : Nat) : State :=
  let s := asking .f 0 0x191 16 [tiles, 0]
  { s with rel := { s.rel with bundles := [{ family := 1, series := 1, len := 168, kinds := 1, flags := 0, runus := 0, records := 0 }] } }

theorem test_Patterns_run_premises : takesUp (patternAsk 2) .f 0 0x191 = true ∧ rqPlen (patternAsk 2) .f 0 = 16 ∧
    (prUnits (patternAsk 2) 0).any (prUsed (patternAsk 2)) = false ∧ (prUnits (patternAsk 1) 0).any (prUsed (patternAsk 1)) = true ∧
    ([⟨1, 0xFF, true, 0⟩, ⟨2, 0xFF, true, 0⟩] : List TestFail).filter (fun f => prNamed (patternAsk 2) 0 f.unit) = [⟨1, 0xFF, true, 0⟩] ∧
    hasSpare (patternAsk 2) ⟨1, 0xFF, true, 0⟩ = false ∧ ([⟨2, 0xFF, true, 0⟩] : List TestFail).filter (fun f => prNamed (patternAsk 2) 0 f.unit) = [] := by
  decide +kernel

/-! ### HostLinkAndFunctionsReset -/

/-- The host link is up and serves function 1's mailbox, whose slots wait. -/
def linked : State :=
  let s := asking .f 1 0x120 24 []
  { s with host := { s.host with linkUp := true, seenUp := true } }

theorem test_HostLink_premises : linkServes linked = true ∧ linked.wf = true ∧ tWf (fun _ => ({} : MbxSlot)) linked.mbx.slots = true ∧
    linked.mbx.fq = [1] ∧ fnState linked 1 = 1 ∧ ringCmds linked 1 = [] ∧ linked.host.flr.contains 1 = false ∧ fnState linked 63 ≠ 1 ∧
    linkServes State.reset = false ∧ linkServes (pairUp linked) = true := by
  decide +kernel

theorem test_HostLink_started_premise : ringCmds finishing 1 ≠ [] ∧ fnState finishing 1 = 1 ∧
    linkServes { finishing with host := { finishing.host with linkUp := true, seenUp := true } } = true := by
  decide +kernel

theorem test_HostLink_drain_premises : ({ finishing with host := { finishing.host with loss := 1 } } : State).host.cmds ≠ [] ∧
    quiet { finishing with host := { finishing.host with loss := 1 } } = true ∧ finishing.host.loss ≠ 1 ∧ linked.host.cmds = [] := by
  decide +kernel

theorem test_HostLink_return_premises : portOpen linked = true ∧ linked.host.loss ≠ 3 ∧ linked.host.linkUp = true ∧
    (let s : State := { linked with host := { linked.host with loss := 3 } }; portOpen s = true ∧ s.wf = true) ∧ portOpen State.reset = false := by
  decide +kernel

/-! ### EnginesPostAndSend -/

/-- Pair 16,383 of engine 1 with port 0 up, in a state and with what else it holds. -/
def sender (st : Nat) (f : QpRun → QpRun) : State :=
  let s := setFld (pairUp (rteAsk 0 0 0)) (qpStat 1 16383) RteQpStat.STATE st
  { s with rte := { s.rte with qps := s.rte.qps.map fun x => (x.1, f x.2) } }

/-- A QP_POST of tile 0's control core to engine 1: a WRITE of 64 bytes from its own tile. -/
def postSrc (len : Nat) : CmdSrc :=
  .core 0 (putBits (putBits (putBits (putBits 0 63 56 11) 511 456 (2 ^ 52)) 391 360 len) 327 313 32767) []

/-- The same, issued by engine 1's trigger table for tenant 1. -/
def postTrig (len : Nat) : State :=
  let d := match postSrc len with | .core _ d _ => d | _ => 0
  let s := setFld (sender 1 id) (Reg.trigb (.rte 1) 0) Trigb.TENANT 1
  { s with trig := { s.trig with issued := [{ blk := .rte 1, e := 0, desc := d }] } }

theorem test_Engines_post_premises : let s := postTrig 64
    ((offered s (.trig (.rte 1))).map fun c => (starts s (.trig (.rte 1)) c, Desc_cmd c.desc, postCheck (takeOffer s (.trig (.rte 1))) c, exRte c)) =
      some (true, 11, none, some 1) := by
  decide +kernel

theorem test_Engines_post_stopped : let s := postTrig 0
    ((offered s (.trig (.rte 1))).map fun c => (starts s (.trig (.rte 1)) c, Desc_cmd c.desc, postCheck (takeOffer s (.trig (.rte 1))) c)) =
      some (true, 11, some .ok) := by
  decide +kernel

/-- A WRITE of 64 bytes that waits to be sent. -/
def post64 : QpPost := { cmd := none, qop := 0, laddr := 2 ^ 52, len := 64 }

theorem test_Engines_send_premises : (qp (sender 1 id) 1 16383).sendQ = [] ∧ (∀ psn, let s := sender 1 fun r => { r with sendQ := [{ post64 with psn := psn }] }
    rteWf s = true ∧ s.wf = true ∧ (qp s 1 16383).sendQ = [{ post64 with psn := psn }] ∧
    (decide (qpState s 1 16383 ≠ 1) || decide (8192 ≤ engineOps s 1) || decide ((qp s 1 16383).maxOps ≤ (qp s 1 16383).open_.length) ||
      (post64.atomic && decide (16 ≤ ((qp s 1 16383).open_.filter fun o => o.post.atomic).length))) = false) ∧
    qpState (sender 2 id) 1 16383 ≠ 1 := by
  decide +kernel

/-- A packet with its bytes, or in flight since a cycle. -/
def tx9 (sent : Option Nat) : TxPkt :=
  { psn := 9, opc := .write, msn := 0, k := 0, last := true, xh := 0, buf := [(0, [1, 2])], need := 2, layer := 0, opid := 0, wait := sent.isNone,
    path := sent.map fun _ => 0, sentAt := sent }

theorem test_Engines_pacer_premises : let s := sender 1 fun r => { r with tx := [tx9 none] }
    quiet s = true ∧ rteWf s = true ∧ qpState s 1 16383 = 1 ∧ nextTx (qp s 1 16383) = some (tx9 none) ∧ (tx9 none).rtx = false ∧
    nextPath s 1 (qp s 1 16383) (qp s 1 16383).lastPath = some 0 ∧ portOn s 1 ((qp s 1 16383).pathPort 0) = true ∧
    bundled s 1 16383 = false ∧ nextTx (qp (sender 1 id) 1 16383) = none := by
  decide +kernel

/-! ### FramesAreSortedAndChecked -/

/-- A frame of an opcode to pair 16,383 of engine 1, with its ICRC. -/
def frameTo (o : TOpc) (psn msn : Nat) (poison : Bool) (body : List Byte) : Frame :=
  let b : Bth := { opc := o, dqpn := 32767, psn := psn, msn := msn, poison := poison }
  { srcIp := 0, dstIp := 0, bth := b, body := body, check := icrcOf b body }

theorem test_Frames_premises : let s := sender 1 id
    let f := frameTo .write 0 0 false (List.replicate 24 0)
    s.wf = true ∧ rteWf s = true ∧ frameIn s 1 0 f .write f.body = true ∧ freshAt s 1 16383 f = true ∧ portOn running 1 0 = false ∧
    accepted s 1 0 { f with bth := { f.bth with dqpn := 0 } } = false ∧ openBody s 1 { f with check := [0] } = none ∧
    (portOn s 1 0 && f.dport == fld s (Reg.rteCfg 1) RteCfg.UDPDST) = true ∧ accepted s 1 0 f = true := by
  decide +kernel

theorem test_Frames_sequence_premises : let s := sender 1 fun r => { r with cum := 5 }
    (∀ p ∈ [0, 4, 1029, 2 ^ 31 + 4], frameIn s 1 0 (frameTo .send p 0 false []) .send [] = true) ∧ 2 ^ 31 ≤ (4 + 2 ^ 32 - (qp s 1 16383).cum) % 2 ^ 32 ∧
    1024 ≤ (1029 + 2 ^ 32 - (qp s 1 16383).cum) % 2 ^ 32 ∧ (2 ^ 31 + 4 + 2 ^ 32 - (qp s 1 16383).cum) % 2 ^ 32 < 2 ^ 31 := by
  decide +kernel

/-! ### ResponderServesMessages -/

/-- Engine 1 with pair 16,383 and a region of tenant 1 under key 7 at its tile, every right given. -/
def responder (f : QpRun → QpRun) : State :=
  let s := sender 1 f
  { s with rte := { s.rte with mrs := [⟨1, 0, 7, 1, [0, 2 ^ 52, 7 * 2 ^ 48 + 4096, 0], true, 0⟩] } }

/-- The body of a packet: address, key, length, offset, and its data. -/
def bodyOf (va key len off : Nat) (data : List Byte) : List Byte := toBE 24 (xhOf va key len off 0) ++ data

/-- The message a frame opens at the pair. -/
def msgIn (s : State) (f : Frame) : RxMsg := (enterMsg (qp s 1 16383) f (ofBE (slice f.body 0 24))).2

theorem test_Responder_write_premises : let s := responder id
    (∀ p, ∀ key ∈ [7, 8], let f := frameTo .write 0 0 p (bodyOf 64 key 4 0 [1, 2, 3, 4])
      frameIn s 1 0 f .write f.body = true ∧ freshAt s 1 16383 f = true ∧ (msgIn s f).synd = 0 ∧ f.bth.dqpn % 16384 = 16383 ∧
      (mrCheck s 1 16383 (msgIn s f).rkey (msgIn s f).va (msgIn s f).tlen 49 false).1 = (if key = 7 then 0 else 2)) ∧ rteWf s = true ∧ s.wf = true := by
  decide +kernel

theorem test_Responder_send_premises : let s := responder id
    let f := frameTo .send 0 0 false (bodyOf 0 0 4 0 [1, 2, 3, 4])
    frameIn s 1 0 f .send f.body = true ∧ (msgIn s f).tlen ≤ (qp s 1 16383).rqSize ∧ freeSlots s 1 (qp s 1 16383) = 0 ∧ (msgIn s f).slot = none ∧
    (let t := { s with rte := { s.rte with qps := s.rte.qps.map fun x => (x.1, { x.2 with par := x.2.par ++ [0, 0, 0, 0, 0, 2 ^ 48] }) } }
     (qp t 1 16383).rqSlots = 1 ∧ freeSlots t 1 (qp t 1 16383) = 1 ∧ frameIn t 1 0 f .send f.body = true) := by
  decide +kernel

theorem test_Responder_read_premises : let s := responder id
    (∀ key ∈ [7, 8], let f := frameTo .readReq 0 0 false (bodyOf 4092 key 4 0 [])
      frameIn s 1 0 f .readReq f.body = true ∧ freshAt s 1 16383 f = true ∧ (qp s 1 16383).msgs = [] ∧ f.bth.msn = ((qp s 1 16383).msnc + 1) % 2 ^ 24 ∧
      (mrCheck s 1 16383 (msgIn s f).rkey (msgIn s f).va (msgIn s f).tlen 48 false).1 = (if key = 7 then 0 else 2)) ∧
    (∀ n ∈ [4, 8], let f := frameTo .atomic 0 0 false (bodyOf 8 7 4 0 (List.replicate n 1))
      frameIn s 1 0 f .atomic f.body = true ∧ (mrCheck s 1 16383 (msgIn s f).rkey (msgIn s f).va (msgIn s f).tlen 50 true).1 = 0 ∧ (msgIn s f).d = 0) := by
  decide +kernel

theorem test_Responder_relay_premises : let s := responder id
    let f := frameTo .relay 0 0 false (bodyOf 8 (0xF * 2 ^ 26 + 3 * 2 ^ 22) 4 0 [1, 2, 3, 4])
    frameIn s 1 0 f .relay f.body = true ∧ (msgIn s f).tlen ≤ 4 ∧ bits (msgIn s f).rkey 25 22 = 3 ∧ bit (msgIn s f).rkey 21 = false ∧
    bits (msgIn s f).rkey 31 26 = 0xF ∧ (let g := frameTo .relay 0 0 false (bodyOf 8 (0x19 * 2 ^ 26 + 3 * 2 ^ 22) 4 0 [1, 2, 3, 4])
      frameIn s 1 0 g .relay g.body = true ∧ bits (msgIn s g).rkey 31 26 = Opc.errRsp.code ∧ bit (msgIn s g).rkey 21 = false) ∧ relayOk s (.rte 1) 3 1 = false ∧
    relayOk (setFld (setFld s (Reg.relay (.rte 1) 3) Relay.V 1) (Reg.relay (.rte 1) 3) Relay.TENANT 1) (.rte 1) 3 1 = true := by
  decide +kernel

/-- An open operation of the pair. -/
def openOp (qop : Nat) : QpOp := { post := { cmd := some 7, qop := qop, laddr := 2 ^ 52, len := 4 } }

theorem test_Responder_response_premises : (let s := responder fun r => { r with ops := [openOp 1] }
    let f := frameTo .readRsp 0 0 false (bodyOf 0 0 4 0 [1, 2, 3, 4])
    frameIn s 1 0 f .readRsp f.body = true ∧ freshAt s 1 16383 f = true ∧
    ((qp s 1 16383).open_.find? fun o => o.post.msn == 0 && o.post.qop == 1) = some (openOp 1)) ∧
    (let s : State := { responder (fun r => { r with ops := [openOp 3] }) with host := finishing.host }
     let f := frameTo .atomicRsp 0 0 false (bodyOf 0 0 4 0 [1, 2, 3, 4])
     frameIn s 1 0 f .atomicRsp f.body = true ∧ freshAt s 1 16383 f = true ∧ s.host.cmds.map Cmd.id = [7] ∧
     ((qp s 1 16383).open_.find? fun o => o.post.msn == 0 && o.post.atomic) = some (openOp 3)) := by
  decide +kernel

theorem test_Responder_close_premises : let s := responder id
    (∀ o ∈ [TOpc.probe, .close], let f := frameTo o 0 0 false (List.replicate 24 0)
      frameIn s 1 0 f o f.body = true) ∧ (qp s 1 16383).pathPort 0 = 0 ∧ ackRoom s 1 0 16383 = true ∧ qpState s 1 16383 = 1 := by
  decide +kernel

/-! ### SendersHearAndRetry -/

/-- An ACK body: CUMPSN and MSNC. -/
def ackBody (cum msnc : Nat) : List Byte := toBE 64 (cum * 2 ^ 480 + msnc * 2 ^ 344)

theorem test_Senders_ack_premises : let s : State := { sender 1 (fun r => { r with tx := [tx9 (some 50)], ops := [openOp 0], acked := 8 }) with host := finishing.host }
    let f := frameTo .ack 0 0 false (ackBody 10 0)
    let h := ofBE (slice f.body 0 64)
    s.wf = true ∧ rteWf s = true ∧ frameIn s 1 0 f .ack f.body = true ∧ AkHas h 9 = true ∧ AkSynd h = 0 ∧
    seqLe 32 ((qp s 1 16383).acked + 1) (AkCum h) = true ∧ (qp s 1 16383).ops = [openOp 0] ∧ seqLe 24 0 (AkMsnc h) = true ∧
    s.host.cmds.map Cmd.id = [7] ∧ seqLe 32 (10 + 1) (AkCum h) = false := by
  decide +kernel

theorem test_Senders_delay_premises : let s := sender 1 fun r => { r with ackAt := some 7 }
    s.wf = true ∧ rteWf s = true ∧ quiet s = true ∧ (qp s 1 16383).ackAt = some 7 ∧ ackRoom s 1 0 16383 = true ∧
    (qp s 1 16383).pathPort (qp s 1 16383).etsPath = 0 ∧ (qp (sender 1 id) 1 16383).ackAt = none := by
  decide +kernel

theorem test_Senders_timeout_premises : (∀ n ∈ [0, 7], let s := setFld (sender 1 fun r => { r with tx := [tx9 (some 50)] }) (qpStat 1 16383) RteQpStat.TOSEQ n
    s.wf = true ∧ rteWf s = true ∧ quiet s = true ∧ (rtoAt s 1 16383).isSome = true ∧ fld s (qpStat 1 16383) RteQpStat.TOSEQ = n ∧
    (qp s 1 16383).retry = 7) ∧ rtoAt (sender 1 id) 1 16383 = none := by
  decide +kernel

theorem test_Senders_rnr_premises : let s := sender 1 fun r => { r with ops := [{ openOp 2 with rnrAt := some 9 }] }
    rteWf s = true ∧ quiet s = true ∧ ((qp s 1 16383).open_.find? fun o => o.rnrAt.isSome) = some { openOp 2 with rnrAt := some 9 } ∧
    qpState s 1 16383 = 1 ∧ ((qp (sender 1 id) 1 16383).open_.find? fun o => o.rnrAt.isSome) = none := by
  decide +kernel

theorem test_Senders_probe_premises : let s := sender 1 fun r => { r with suspects := [⟨0, 200, false⟩] }
    rteWf s = true ∧ quiet s = true ∧
    ((qp s 1 16383).suspects.find? fun x => ! x.probed && portOn s 1 ((qp s 1 16383).pathPort x.path)) = some ⟨0, 200, false⟩ ∧
    ((port s 1 0).ctl.filter fun y => y.1 == (qp s 1 16383).tclass).length < 128 ∧ (qp (sender 1 id) 1 16383).suspects = [] := by
  decide +kernel

theorem test_Senders_close_premises : (∀ n ∈ [1, 2], let s : State := { running with rte := { closing := [⟨1, 16383, [], 0, 1, n, 60⟩] } }
    quiet s = true ∧ (s.rte.closing.find? fun c => c.e == 1 && c.q == 16383 && c.left != 0) = some ⟨1, 16383, [], 0, 1, n, 60⟩) ∧ running.rte.closing = [] ∧
    (let s := sender 1 id; let r : QpRun := { par := (qp s 1 16383).par, txctr := 0 }
     nextPath s 1 r none = some 0 ∧ r.pathPort 0 = 0 ∧ rteWf s = true ∧ (port s 1 0).ctl = []) := by
  decide +kernel

/-! ### EthernetPortsAct -/

/-- Port 0 of engine 1 with what it holds. -/
def portWith (f : PortRun → PortRun) : State :=
  let s := sender 1 id
  { s with rte := { s.rte with ports := s.rte.ports.map fun x => (x.1, f x.2) } }

/-- A data frame of the pair. -/
def staged : Nat × QFrame := (0, { q := 16383, f := frameTo .write 9 0 false [1], len := 1000, isData := true })

theorem test_Ethernet_select_premises : let s := portWith fun p => { p with data := [staged], busy := 300 }
    s.wf = true ∧ rteWf s = true ∧ quiet s = true ∧ portOn s 1 0 = true ∧ (port s 1 0).stage = [] ∧
    pickFrame (creditSettle (later s (port s 1 0).busy) 1 0) 1 0 = some (false, staged) ∧
    pickFrame (creditSettle (later (portWith id) 0) 1 0) 1 0 = none := by
  decide +kernel

theorem test_Ethernet_start_premises : let s := portWith fun p => { p with stage := [staged] }
    s.wf = true ∧ rteWf s = true ∧ quiet s = true ∧ portOn s 1 0 = true ∧ (port s 1 0).stage = [staged] ∧ (port s 1 0).lpi = false ∧
    (pairOf s 1 16383).enc = false ∧ injArmed s (.rte 1) .eth (fun _ => true) = false ∧
    (∀ n ∈ [0, 2 ^ 40 - 1], let t : State := { s with rte := { s.rte with qps := s.rte.qps.map fun x => (x.1, { x.2 with par := [2 ^ 63], txctr := n }) } }
      (pairOf t 1 16383).enc = true ∧ (pairOf t 1 16383).txctr = n ∧ rteWf t = true) := by
  decide +kernel

theorem test_Ethernet_underrun_premises : let s := setFld (portWith fun p => { p with cur := some staged, busy := 300, clean := 65536 }) (Reg.rtePortStat 1 0) RtePortStat.STARTTH 999
    s.wf = true ∧ rteWf s = true ∧ (port s 1 0).cur = some staged ∧ s.clk.now < (port s 1 0).busy ∧ (port s 1 0).staged < staged.2.len ∧
    65536 ≤ (port s 1 0).clean ∧ (port running 1 0).clean < 65536 := by
  decide +kernel

theorem test_Ethernet_idle_premises : let s := setFld (portWith id) (Reg.rtePortEee 1 0) RtePortEee.EEEACT 1
    s.wf = true ∧ rteWf s = true ∧ quiet s = true ∧
    (portOn s 1 0 && ! (port s 1 0).lpi && flag s (Reg.rtePortEee 1 0) RtePortEee.EEEACT && portIdle s 1 0) = true ∧ (port s 1 0).up = true ∧
    (let p := port (portWith fun p => { p with lpi := true, data := [staged] }) 1 0
     (p.lpi && ! (p.data.isEmpty && p.ctl.isEmpty && p.stage.isEmpty)) = true) ∧ (port running 1 0).up = false := by
  decide +kernel

theorem test_Ethernet_down_premises : let s := portWith id
    (port s 1 0).up = true ∧ (qp s 1 16383).ports = [0] ∧ qpState s 1 16383 = 1 ∧ s.rte.qps.map Prod.fst = [16384 * 1 + 16383] := by
  decide +kernel

theorem test_Ethernet_control_premises : let s := portWith id
    portOn s 1 0 = true ∧ (port s 1 0).ctlN = 0 ∧ ownIp s 1 0 false 0 = true ∧ portOn running 1 0 = false := by
  decide +kernel

/-! ### LaneBlocksAreSent -/

/-- Lane port 15 in a state. -/
def lanePort (st : Nat) (f : LaneRun → LaneRun) : State :=
  setLane (setFld (setFld memState (Reg.lpState 15) LpState.STATE st) (Reg.lpCfg 15) LpCfg.DIR 1) 15 (f {})

/-- A packet with one flit sent. -/
def lanePkt : LanePkt := { pkt := memPkt .wr ⟨1, 3, 0⟩ (tileAddr 0 0) 256 (List.replicate 256 1), sent := 1 }

theorem test_LaneBlocks_training_premises : (∀ st ∈ [2, 3, 4, 6, 11, 7], let s := lanePort st (fun r => { r with tsTx := 7, tsRx := 8, eseq := 5 })
      s.wf = true ∧ laneWf s = true ∧ lpState s 15 = st ∧ (lane s 15).failAt = none ∧ 8 ≤ (lane s 15).tsTx + 1 ∧ (lane s 15).toQuiet = 0) ∧
    (lane (lanePort 4 fun r => { r with failAt := some 9 }) 15).failAt.isSome = true := by
  decide +kernel

theorem test_LaneBlocks_active_premises : let s := lanePort 5 (fun r => { r with egress := [lanePkt], seq := 4095 })
    laneWf s = true ∧ lpState s 15 = 5 ∧ alignDue (setLane s 15 { lane s 15 with nAlign := 1, nCtl := 1 }) 15 = false ∧
    spWaiting s 15 = [] ∧ ctlDue (setLane s 15 { lane s 15 with nAlign := 1, nCtl := 1 }) 15 = false ∧
    vcFront (lane s 15) (vcOf lanePkt.pkt) = some lanePkt ∧ vcCredit (lane s 15) (vcOf lanePkt.pkt) ≠ 0 ∧
    vcFront (lane s 15) 7 = none ∧ sealedT s lanePkt.pkt.tenant = false := by
  decide +kernel

theorem test_LaneBlocks_due_premises : let due (s : State) := alignDue (setLane s 15 { lane s 15 with nAlign := (lane s 15).nAlign + 1, nCtl := (lane s 15).nCtl + 1 }) 15
    let ctl (s : State) := ctlDue (setLane s 15 { lane s 15 with nAlign := (lane s 15).nAlign + 1, nCtl := (lane s 15).nCtl + 1 }) 15
    due (lanePort 5 fun r => { r with aligns := 1 }) = true ∧ ctl (lanePort 5 fun r => { r with eseq := 3, nCtl := 99999 }) = true ∧
    due (lanePort 5 fun r => { r with eseq := 3, nCtl := 99999 }) = false ∧
    (let s := lanePort 5 (fun r => { r with retryDue := true })
     due s = false ∧ ctl s = false ∧ (lane s 15).retryDue = true) ∧
    (let s := lanePort 5 (fun r => { r with again := 1, replay := [(4, .flit []), (5, .flit [1])] })
     due s = false ∧ ctl s = false ∧ (lane s 15).replay[(lane s 15).replay.length - (lane s 15).again]? = some (5, .flit [1])) := by
  decide +kernel

/-- A message that leaves package 0 for package 1 by port 15. -/
def leaving : State :=
  let s := setFld (lanePort 5 id) Reg.fabPkgInfo FabPkgInfo.TXM1 1
  { s with coll := { s.coll with spNet := [(⟨0, 0, 0⟩, grpMark .start ⟨1, 0, 4⟩ 0 5)] } }

theorem test_LaneBlocks_message_premises : spWaiting leaving 15 = leaving.coll.spNet ∧ laneWf leaving = true ∧ lpState leaving 15 = 5 ∧
    alignDue (setLane leaving 15 { lane leaving 15 with nAlign := 1, nCtl := 1 }) 15 = false ∧ sealedT leaving 1 = false ∧
    (lane leaving 15).injSp = false := by
  decide +kernel

/-- K28.5, D10.2 and D31.7 at either disparity, bit 9 first (IEEE 802.3 Clause 36). -/
theorem test_LaneBlocks_codes : enc10 false (true, 0xBC) = 0b0011111010 ∧ enc10 true (true, 0xBC) = 0b1100000101 ∧
    enc10 false (false, 0x4A) = 0b0101010101 ∧ enc10 false (false, 0xFF) = 0b1010110001 ∧ enc10 true (false, 0xFF) = 0b0101001110 := by
  decide +kernel

/-- The second character of a column is on lane 1, and the disparity of a lane carries on to its next column. -/
theorem test_LaneBlocks_columns : codeCols 2 [false, false] [(true, 0xBC), (false, 0x4A), (true, 0xBC), (false, 0x4A)] =
    ([[0b0011111010, 0b0101010101], [0b1100000101, 0b0101010101]], [false, false]) := by
  decide +kernel

/-! ### LaneBlocksAreTaken -/

/-- A whole flit that carries a packet's header. -/
def flitOf (p : Pkt) (seq : Nat) : LinkFlit :=
  { bytes := flitBytes p 0, seq := seq, ack := 0, crc := crc32 (flitBytes p 0 ++ toLE 4 (seq * 2 ^ 20)) }

theorem test_LaneTakes_flit_premises : let s := lanePort 5 (fun r => { r with eseq := 4095 })
    s.wf = true ∧ laneWf s = true ∧ lpActive s 15 = true ∧ goodFlit (flitOf lanePkt.pkt 4095) = true ∧ (lane s 15).run = none ∧
    dupSeq (lane s 15) 4094 = true ∧ dupSeq (lane s 15) 0 = false ∧ nextSeq (lane s 15) = 4095 ∧ lpActive running 15 = false ∧
    lpReceives (lanePort 3 id) 15 = true ∧ lpActive (lanePort 3 id) 15 = false := by
  decide +kernel

theorem test_LaneTakes_packet_premises : let p := pktOf (ofLE (slice (flitOf lanePkt.pkt 0).bytes 0 24))
    p = { lanePkt.pkt with data := [] } ∧ hcrcOk p = true ∧ tenantOk p = true ∧ flits p = 2 ∧ hcrcOk (pktOf 0) = false ∧
    (∀ k ∈ [0, 4], let q := { (memPkt .msg ⟨0, 3, 0⟩ 0 64 []) with src := ⟨1, 0, 0⟩ }
      flits q = 1 ∧ entryMay { lanePort 5 id with dyn := { entries := List.replicate k ⟨lpEp 0 15, ⟨0, 3, 0⟩, ⟨1, 0, 0⟩, 0⟩ } } [] 15 q =
        decide (k = 0)) := by
  decide +kernel

/-- A flit on the lanes, its second code all zeros. -/
def codedFlit : LinkFlit :=
  let f := flitOf lanePkt.pkt 0
  { f with wire := { cols := ((codeCols 5 (rdsOf 32 []) (flitChrs f)).1.map fun c => c.set 1 0) } }

theorem test_LaneTakes_coded_premises : let s := lanePort 5 id
    let x := readCols 5 (rdsOf 32 []) codedFlit.wire.cols
    laneWidth s 15 = 32 ∧ (x.2.1.all (· == 0)) = false ∧ x.2.1.getD 1 0 ≠ 0 ∧ x.2.1.getD 0 0 = 0 ∧ (x.1.headD none).map Prod.fst = some false ∧
    flag s (Reg.lpState 15) LpState.REV = false := by
  decide +kernel

theorem test_LaneTakes_coded_control_premises : let b := ctlBlock kRetry 1 (toLE 2 5)
    let k := { b with wire := { cols := ((codeCols 5 (rdsOf 32 []) (ctlChrs b)).1.map fun c => c.set 1 0) } }
    let x := rxCoded (lanePort 5 id) 15 k.wire (ctlChrs k)
    k.wire.cols ≠ [] ∧ x.2.1.head? = some (some (true, kRetry)) ∧ x.2.2 = false := by
  decide +kernel

theorem test_LaneTakes_run_premises : (∀ k ∈ [1, 2], let s := lanePort 5 (fun r => { r with run := some ⟨k, 1, 0, 0, [], [], []⟩ })
    nextSeq (lane s 15) = 1 ∧ (lanePair s 1).key 0 = none) := by
  decide +kernel

theorem test_LaneTakes_control_premises : goodCtl kRetry (ctlBlock kRetry 1 (toLE 2 5)) = true ∧ goodCtl kCtl (ctlBlock kCtl 2 (toLE 18 5)) = true ∧
    goodCtl kSp (ctlBlock kSp 0 []) = true ∧ goodCtl kTag (ctlBlock kTag 1 (toLE 154 0)) = true ∧
    goodCtl kTag { ctlBlock kTag 1 (toLE 154 0) with badCode := true } = false ∧ bits (ofLE (slice (toLE 154 0) 150 4)) 31 20 = 0 := by
  decide +kernel

theorem test_LaneTakes_replay_premises : (∀ k ∈ [0, 99], let s := lanePort 5 (fun r => { r with tries := k, replay := [(5, .flit [])] })
    s.wf = true ∧ laneWf s = true ∧ (lane (laneAck s 15 5) 15).replay = [(5, .flit [])] ∧ (lane (laneAck s 15 5) 15).tries = k) ∧
    fld (lanePort 5 id) (Reg.lpCfg 15) LpCfg.REPLAYMAX = 8 := by
  decide +kernel

theorem test_LaneTakes_sample_premises : (lane (lanePort 5 fun r => { r with measuring := true, samples := List.replicate 63 (1, 2) }) 15).samples.length = 63 := by
  decide +kernel

/-! ### LanePortsTrainAndRecover -/

/-- A lane of an upper or lower half as a good ALIGN block shows it. -/
def goodLane (l : Nat) : LaneSeen := ⟨true, l, false, 40⟩

theorem test_LaneTrains_detect_premises : let s := lanePort 1 id
    s.wf = true ∧ laneWf s = true ∧ quiet s = true ∧ lpState s 15 = 1 ∧ lpState (lanePort 2 id) 15 = 2 := by
  decide +kernel

theorem test_LaneTrains_align_premises : let s := lanePort 2 fun r => { r with seen := (List.range 16).map goodLane, held := List.replicate 16 16 }
    let t := lanePort 2 fun r => { r with seen := (List.range 15).map goodLane, held := List.replicate 16 16 }
    let good (s : State) (l : Nat) : Bool := ((lane s 15).seen.getD l {}).lock && ((lane s 15).seen.getD l {}).id == l &&
      decide (((lane s 15).seen.getD l {}).skew ≤ 40) && decide (16 ≤ (lane s 15).held.getD l 0) && ! bit (lane s 15).retired l
    s.wf = true ∧ laneWf s = true ∧ lpState s 15 = 2 ∧ (List.range 16).all (good s) = true ∧ (List.range 16).all (good t) = false ∧
    ((List.range 16).all fun l => good t (16 + l)) = false := by
  decide +kernel

theorem test_LaneTrains_eq_premises : let s := setFld (lanePort 3 id) (Reg.lpState 15) LpState.LANEOK 0xFFFF
    s.wf = true ∧ lpState s 15 = 3 ∧ ((List.range 16).all fun l => bit (fld s (Reg.lpState 15) LpState.LANEOK) l && ! bit (2 ^ 16) l) = true ∧
    ((List.range 16).all fun l => bit (fld s (Reg.lpState 15) LpState.LANEOK) l && ! bit 1 l) = false ∧
    ((List.range 16).all fun l => bit (fld s (Reg.lpState 15) LpState.LANEOK) (16 + l) && ! bit 1 (16 + l)) = false ∧
    flag s (Reg.lpLaneEq 15 31) LpLaneEq.FIX = false := by
  decide +kernel

/-- Port 15 configuring in the direction +x of a ring of two packages, with its lower half good. -/
def configuring (f : LaneRun → LaneRun) : State :=
  setFld (setFld (lanePort 4 f) (Reg.lpState 15) LpState.LANEOK 0xFFFF) Reg.fabPkgInfo FabPkgInfo.TXM1 1

/-- The peer's TS block. -/
def peerTs (felb : Nat) : CtlBlock :=
  ctlBlock kTs 0 (toLE 1 2 ++ toLE 1 0 ++ toLE 1 1 ++ toLE 1 (2 + 128 * felb) ++ toLE 1 1 ++ toLE 4 0xFFFF ++ toLE 2 0 ++ toLE 8 0)

theorem test_LaneTrains_ts_premises : let s := configuring fun r => { r with tsTx := 8, tsRx := 7 }
    let v := setFld (setFld (setFld s (Reg.lpState 15) LpState.PEERDCHIP 1) (Reg.lpState 15) LpState.PEERPORT 0) (Reg.lpState 15) LpState.PEERDIR 2
    s.wf = true ∧ laneWf s = true ∧ goodCtl kTs (peerTs 0) = true ∧ lpState s 15 = 4 ∧ tsCheck v 15 (peerTs 0).content = 0 ∧
    tsCheck v 15 ((peerTs 0).content.set 2 5) = 5 ∧ (lane s 15).tsTx = 8 ∧ (lane s 15).tsRx + 1 = 8 ∧
    flag (setFld s (Reg.lpTestCtl 15) LpTestCtl.FELBOK 1) (Reg.lpTestCtl 15) LpTestCtl.FELBOK = true ∧
    bit ((peerTs 1).content.getD 3 0).toNat 7 = true := by
  decide +kernel

theorem test_LaneTrains_retry_premises : let s := lanePort 4 fun r => { r with failAt := some 9 }
    laneWf s = true ∧ quiet s = true ∧ lpState s 15 = 4 ∧ (lane s 15).failAt = some 9 ∧
    (∀ k ∈ [0, 99], let s := lanePort 5 (fun r => { r with tries := k, replay := [(5, .flit [])] })
      quiet s = true ∧ lpActive s 15 = true ∧ (lane s 15).replay ≠ [] ∧ (lane s 15).tries = k) := by
  decide +kernel

theorem test_LaneTrains_recovery_premises : (∀ k ∈ [0, 99], let s := lanePort 6 (fun r => { r with fails := k })
    s.wf = true ∧ laneWf s = true ∧ lpState s 15 = 6 ∧ (lane s 15).fails = k) ∧
    lpAligns (lanePort 6 fun r => { r with realign := true }) 15 = true ∧ lpAligns (lanePort 6 id) 15 = false ∧ lpReceives (lanePort 6 id) 15 = true ∧
    fld (lanePort 6 id) (Reg.lpCfg 15) LpCfg.RETRAINMAX = 3 ∧ lpState (lanePort 11 id) 15 = 11 := by
  decide +kernel

/-! ### LanePortsSleepAndTest -/

theorem test_LaneSleeps_quiet_premises : let s := setFld (lanePort 5 id) (Reg.lpPmCfg 15) LpPmCfg.QEN 1
    s.wf = true ∧ laneWf s = true ∧ quiet s = true ∧ flag s (Reg.lpPmCfg 15) LpPmCfg.QEN = true ∧ laneBusy s 15 = false ∧
    laneBusy (lanePort 7 fun r => { r with egress := [lanePkt] }) 15 = true ∧ goodCtl kQuiet (ctlBlock kQuiet 0 []) = true ∧
    (let t := lanePort 7 fun r => { r with eseq := 3, since := 2 ^ 40 }; laneBusy t 15 = false ∧ ctlNews t 15 = true) ∧ laneBusy (lanePort 7 id) 15 = false ∧ ctlNews (lanePort 7 id) 15 = false ∧
    lpReceives (lanePort 3 id) 15 = true ∧ lpActive (lanePort 3 id) 15 = false := by
  decide +kernel

theorem test_LaneSleeps_deep_premises : (∀ q ∈ [0, 1], let s := setFld (setFld (lanePort 5 id) (Reg.lpPmCfg 15) LpPmCfg.DEEPREQ q) (Reg.lpPmCfg 15) LpPmCfg.DEEPIDLE 9
      s.wf = true ∧ laneWf s = true ∧ quiet s = true ∧ lpActive s 15 = true ∧ fld s (Reg.lpPmCfg 15) LpPmCfg.DEEPREQ = q ∧
      fld s (Reg.lpPmCfg 15) LpPmCfg.DEEPIDLE = 9 ∧ laneBusy s 15 = false) ∧ goodCtl kDeep (ctlBlock kDeep 0 []) = true ∧
    lpState (lanePort 8 id) 15 = 8 ∧ (lane (lanePort 5 fun r => { r with toDeep := some 0 }) 15).toDeep = some 0 := by
  decide +kernel

theorem test_LaneSleeps_test_premises : (∀ st ∈ [0, 5, 9, 11], let s := lanePort st id
    s.wf = true ∧ laneWf s = true ∧ lpState s 15 = st) ∧ bits (2 ^ 61) 63 61 = 1 ∧ bits (2 ^ 62 + 2 ^ 57) 63 61 = 2 ∧ bit (2 ^ 62 + 2 ^ 57) 57 = true := by
  decide +kernel

/-! ### PackageStartsAndStops -/

/-- The package in a stage of start-up, locked or not. -/
def starting (n lock : Nat) (f : BootState → BootState) : State :=
  let s := setFld (setFld memState Reg.fabBootStat FabBootStat.STAGE n) Reg.fabClkStat FabClkStat.LOCK lock
  { s with boot := f s.boot }

theorem test_Package_stages_premises : (∀ n ∈ [0, 1, 8], let s := starting n 0 fun b => { b with inp := none }
    s.wf = true ∧ quiet s = true ∧ stage s = n ∧ locked s = false ∧ s.boot.inp = none) := by
  decide +kernel

theorem test_Package_clock_premises : (∀ n ∈ [3, 9], ∀ k ∈ [0, 1], let s := starting n 1 fun b => { b with losses := k }
    s.wf = true ∧ locked s = true ∧ stage s = n ∧ s.boot.losses = k) ∧
    (let s := starting 9 0 id
     locked s = false ∧ stage s = 9 ∧ { s with clk := { s.clk with run := true } }.clk.run = true) ∧
    (starting 9 1 fun b => { b with inp := some {} }).boot.inp ≠ none := by
  decide +kernel

theorem test_Package_reset_premises : let t := starting 9 1 id
    let s : State := { t with clk := { t.clk with fabHeld := true, fabOff := false }, boot := { t.boot with thermtrip := false } }
    s.wf = true ∧ (s.clk.fabHeld && ! s.clk.fabOff && locked s && ! s.boot.thermtrip && stage s == 9) = true ∧
    good s 63 = true ∧ laneWf s = true ∧ lpState s 15 = 0 ∧ t.clk.fabHeld = false := by
  decide +kernel

theorem test_Package_controller_premises : let p := memPkt .rdReq (mepEp 0 11) 0 128 []
    let s : State := { memState with dyn := { net := [p] } }
    s.boot.hbmDown.contains 11 = false ∧ s.dyn.net.contains p = true ∧ p.dst = mepEp (myChip s) 11 ∧ expects p.opc = true ∧ plainSend s p = true ∧ Sys2Proof.Machine.srcOk s p = true ∧
    ({ s with boot := { s.boot with hbmDown := [11] } } : State).boot.hbmDown.contains 11 = true := by
  decide +kernel

/-! ### PowerAndHeatAct -/

theorem test_Power_heat_premises : signed 16 1000 = 1000 ∧ (∀ n ∈ [3, 9], let s := starting n 1 fun b => { b with hot := [(79, 2)] }
    s.wf = true ∧ eGet 0 79 s.boot.hot = 2 ∧ s.boot.thermtrip = false ∧ stage s = n) ∧ eGet 0 79 memState.boot.hot < 2 := by
  decide +kernel

/-- A package that may idle. -/
def idling (st : Nat) (latch : Bool) : State :=
  setFld (setFld (setFld (starting 9 1 fun b => { b with latch := latch }) Reg.fabPwrCtl FabPwrCtl.IDLEEN 1) Reg.fabPwrCtl FabPwrCtl.FIDLE 5) Reg.fabPwrStat FabPwrStat.STATE st

theorem test_Power_idle_premises : (∀ l ∈ [false, true], let s := idling 3 l
    s.wf = true ∧ quiet s = true ∧ mayIdle s = true ∧ s.boot.latch = l) ∧ mayIdle (idling 2 false) = false := by
  decide +kernel

theorem test_Power_wake_premises : (∀ st ∈ [1, 2, 3], pwrState (idling st false) = st ∧ (idling st false).wf = true) ∧ bit 2 1 = true := by
  decide +kernel

/-! ### ObserversAct -/

theorem test_Observers_injection_premises : (∀ x ∈ [(Blk.fab, 17, 1), (.fab, 18, 2), (.rte 1, 4, 0)],
    (match regAt (injReg x.1) with
     | some (.blk b, d, _) => b == x.1 && (d.name == .inj || d.name == .fabInj)
     | _ => false) = true ∧
    (let v := 2 ^ 63 + x.2.1 * 2 ^ 48 + x.2.2 * 2 ^ 40
     ((injDets x.1).map Det.code).contains (bits v 55 48) = true ∧
     heldAt (softWrite (starting 9 1 id) (injReg x.1) (putBits v 63 63 0)) x.1 = false)) ∧ Det.clock.code = 17 ∧ Det.sensor.code = 18 ∧
    locked (starting 9 1 id) = true := by
  decide +kernel

/-- Tile 63's watcher 3 over one line that is marked. -/
def watching (mode : Nat) : State :=
  let s := setFld (setFld memState (Reg.tniWatchCfg 63 3) TniWatchCfg.EN 1) (Reg.tniWatchCfg 63 3) TniWatchCfg.MODE mode
  { s with obs := { s.obs with watch := eSet {} 255 { marks := [0] } [] } }

theorem test_Observers_watch_premises : (∀ m ∈ [0, 1], (watching m).wf = true ∧ good (watching m) 63 = true ∧ watchFull (watching m) 63 3 = true ∧
    flag (watching m) (Reg.tniWatchCfg 63 3) TniWatchCfg.MODE = (m == 1) ∧ flag (watching m) (Reg.tniWatchStat 63 3) TniWatchStat.BUSY = false ∧
    flag (setFld (watching m) (Reg.tniWatchStat 63 3) TniWatchStat.BUSY 1) (Reg.tniWatchStat 63 3) TniWatchStat.BUSY = true) := by
  decide +kernel

theorem test_Observers_freeze_premises : (∀ z ∈ [false, true], let s : State := { setFld memState Reg.telFrzStat TelFrzStat.FROZEN (b2n z) with
      obs := { apply := [(9, false, 3), (5, z, 0)] } }
    s.wf = true ∧ quiet s = true ∧ firstApply s.obs.apply = some (5, z, 0) ∧ isFrozen s = z ∧ fld s Reg.telFrzStat TelFrzStat.FRZNO = 0) := by
  decide +kernel

theorem test_Observers_trace_premises : (let b : TraceBuf := { unit := unitCode .tni 0, well := 1, first := 3, recs := [[]] }
    ([b].find? fun x => x.unit == unitCode .tni 0 && x.well == 1) = some b) ∧
    (let s := setFld (setFld memState (Reg.tniPcsCfg 0) TniPcsCfg.EN 1) (Reg.telTwCfg 1) TelTwCfg.EN 1
     quiet s = true ∧ (decide (0 < 64) && flag s (Reg.tniPcsCfg 0) TniPcsCfg.EN && owner s 0 != 0 && decide (owner s 0 < 64) &&
       wellOn s (owner s 0)) = true ∧ s.obs.bufs = []) := by
  decide +kernel

/-! ### DeviceMemoryInterleaves -/

theorem test_DeviceMemory_premise : region (fabAddr 0 0x1234567890) = 0 := by decide

/-- The worked example of the spec: offset 0x12_3456_7890 lies in stack 7 at 0x1_845C_8890, served by MEP7 at (7, 2). -/
theorem test_DeviceMemory_example : stackOf 0x1234567890 = 7 ∧ stackAddr 0x1234567890 = 0x1845C8890 ∧ mepEp 0 7 = ⟨0, 8 * 2 + 7, 1⟩ := by decide

/-! ### ActiveDescriptorsAreLocked -/

theorem test_ActiveDescriptors_premises : (∀ b ∈ [Blk.tni 0, .mep 0], let s := streaming false
    0 < descCount b ∧ descTenant s b 0 = 1 ∧ schState s 1 = 2 ∧ inBank (streamDesc s b 0) (schBank s 1) = true) := by
  decide +kernel

/-! ### UnassignedAccessesAreRefused -/

/-- A packet that names the reserved range between the MEPs and the lane ports, or a slot of a window that no table assigns. -/
def missPkt (o : Opc) (off : Nat) : Pkt :=
  stamp { opc := o, src := fmpEp 0, dst := ⟨0, 9, 4⟩, prio := 3, tag := 7, addr := fabAddr 2 off, nbytes := 8, data := if o = .csrWr then toLE 8 5 else [] }

theorem test_Unassigned_premises : (∀ o ∈ [Opc.csrRd, .csrWr], ∀ off ∈ [0x4C0000, 0x5FFFF8, 0xFFF8, 0x4000000], let p := missPkt o off
    let s := starting 9 1 id
    hcrcOk p = true ∧ tenantOk p = true ∧ Ep_kind p.src = .fmp ∧ p.src.chip = myChip s ∧ region p.addr = 2 ∧
    unassigned s (regOff p.addr) = true ∧ plainSend s p = true ∧ p.opc = o ∧ p.prio = 3 ∧ inTurn s p p.dst = true ∧
    Sys2Proof.Machine.srcOk s p = true) := by
  decide +kernel

theorem test_Unassigned_reserved_premise : ∀ d ∈ fieldsAt Reg.fabTwinMap, 40 < d.f.lo ∨ d.f.hi < 40 := by decide

end Sys2Proof.Tests
end

namespace Sys2Proof.Machine

/-! ### What every command and every step keeps

The frame of each command, from the lemma of the operation that gives it its meaning: a command answers a next state, changes only the
components `touches` lists for it, and leaves memory and registers in canonical form. -/

/-- Every command answers a next state that keeps everything outside its frame, and the canonical form (one case for each row of the table). -/
theorem exec_keeps (c : Instr) (s : State) : ∃ t, exec c s = .next t ∧ Keeps (touches c) s t := by
  cases c with dsimp only [exec, touches]
  | registerWrite => apply execRegisterWrite_keeps (h := .refl _ _) <;> decide
  | lowHalfRead => apply execLowHalfRead_keeps (h := .refl _ _) <;> decide
  | csrWr => apply execCsrWr_keeps (h := .refl _ _) <;> decide
  | csrRd => apply execCsrRd_keeps (h := .refl _ _) <;> decide
  | csrRsp => apply execCsrRsp_keeps (h := .refl _ _) <;> decide
  | fabPkgInfoWrite => apply execFabPkgInfoWrite_keeps (h := .refl _ _) <;> decide
  | twinMapWrite => exact execTwinMapWrite_keeps (by decide) (.refl _ _)
  | phaseOwnerWrite => exact execPhaseOwnerWrite_keeps (by decide) (.refl _ _)
  | mepDescOwnerWrite => exact execMepDescOwnerWrite_keeps (by decide) (.refl _ _)
  | streamDescWrite => apply execStreamDescWrite_keeps (h := .refl _ _) <;> decide
  | schArm => apply execSchArm_keeps (h := .refl _ _) <;> decide
  | schDisarm => apply execSchDisarm_keeps (h := .refl _ _) <;> decide
  | schArmCheckDone => apply execSchArmCheckDone_keeps (h := .refl _ _) <;> decide
  | schTakeover => apply execSchTakeover_keeps (h := .refl _ _) <;> decide
  | schStart => apply execSchStart_keeps (h := .refl _ _) <;> decide
  | scheduledBeatArrival => apply execScheduledBeatArrival_keeps (h := .refl _ _) <;> decide
  | streamBeatInject => apply execStreamBeatInject_keeps (h := .refl _ _) <;> decide
  | streamBeatExtract => apply execStreamBeatExtract_keeps (h := .refl _ _) <;> decide
  | mepStageReadIssue => apply execMepStageReadIssue_keeps (h := .refl _ _) <;> decide
  | mepStackReadDone => exact execMepStackReadDone_keeps (by decide) (.refl _ _)
  | mepAbsorbWrite => apply execMepAbsorbWrite_keeps (h := .refl _ _) <;> decide
  | schedIngressBeat => apply execSchedIngressBeat_keeps (h := .refl _ _) <;> decide
  | lpSbindWrite => apply execLpSbindWrite_keeps (h := .refl _ _) <;> decide
  | rteSbindWrite => apply execRteSbindWrite_keeps (h := .refl _ _) <;> decide
  | ruSchedBeat => apply execRuSchedBeat_keeps (h := .refl _ _) <;> decide
  | slipAssert => apply execSlipAssert_keeps (h := .refl _ _) <;> decide
  | slip => apply execSlip_keeps (h := .refl _ _) <;> decide
  | freezeQuantumStart => apply execFreezeQuantumStart_keeps (h := .refl _ _) <;> decide
  | freezeQuantumEnd => apply execFreezeQuantumEnd_keeps (h := .refl _ _) <;> decide
  | slipLimitStop => apply execSlipLimitStop_keeps (h := .refl _ _) <;> decide
  | requestSend => apply execRequestSend_keeps (h := .refl _ _) <;> decide
  | routerFlitArrival => apply execRouterFlitArrival_keeps (h := .refl _ _) <;> decide
  | rdReq => apply execRdReq_keeps (h := .refl _ _) <;> decide
  | rdRsp => apply execRdRsp_keeps (h := .refl _ _) <;> decide
  | wr => apply execWr_keeps (h := .refl _ _) <;> decide
  | wrAck => apply execWrAck_keeps (h := .refl _ _) <;> decide
  | mcWr => apply execMcWr_keeps (h := .refl _ _) <;> decide
  | atFadd => apply execAtFadd_keeps (h := .refl _ _) <;> decide
  | atSwap => apply execAtSwap_keeps (h := .refl _ _) <;> decide
  | atCas => apply execAtCas_keeps (h := .refl _ _) <;> decide
  | atRsp => apply execAtRsp_keeps (h := .refl _ _) <;> decide
  | msg => apply execMsg_keeps (h := .refl _ _) <;> decide
  | rsvReq => apply execRsvReq_keeps (h := .refl _ _) <;> decide
  | rsvGrant => apply execRsvGrant_keeps (h := .refl _ _) <;> decide
  | rsvRelease => apply execRsvRelease_keeps (h := .refl _ _) <;> decide
  | cisternGrant => apply execCisternGrant_keeps (h := .refl _ _) <;> decide
  | mcastEligible => apply execMcastEligible_keeps (h := .refl _ _) <;> decide
  | rsvTimeout => apply execRsvTimeout_keeps (h := .refl _ _) <;> decide
  | responseTimeout => apply execResponseTimeout_keeps (h := .refl _ _) <;> decide
  | tagQuarantineEnd => apply execTagQuarantineEnd_keeps (h := .refl _ _) <;> decide
  | leaseExpire => apply execLeaseExpire_keeps (h := .refl _ _) <;> decide
  | ctrAdd => apply execCtrAdd_keeps (h := .refl _ _) <;> decide
  | redContrib => apply execRedContrib_keeps (h := .refl _ _) <;> decide
  | redResult => apply execRedResult_keeps (h := .refl _ _) <;> decide
  | spSpill => apply execSpSpill_keeps (h := .refl _ _) <;> decide
  | mbx => apply execMbx_keeps (h := .refl _ _) <;> decide
  | ack => apply execAck_keeps (h := .refl _ _) <;> decide
  | errRsp => apply execErrRsp_keeps (h := .refl _ _) <;> decide
  | arbiterCycle => apply execArbiterCycle_keeps (h := .refl _ _) <;> decide
  | creditRefill => apply execCreditRefill_keeps (h := .refl _ _) <;> decide
  | transferPark => apply execTransferPark_keeps (h := .refl _ _) <;> decide
  | watchdogBite => apply execWatchdogBite_keeps (h := .refl _ _) <;> decide
  | arbStarvation => apply execArbStarvation_keeps (h := .refl _ _) <;> decide
  | starvationPolicy => apply execStarvationPolicy_keeps (h := .refl _ _) <;> decide
  | weightRestore => apply execWeightRestore_keeps (h := .refl _ _) <;> decide
  | arbArm => apply execArbArm_keeps (h := .refl _ _) <;> decide
  | arbDisarm => apply execArbDisarm_keeps (h := .refl _ _) <;> decide
  | arbArmCheckDone => apply execArbArmCheckDone_keeps (h := .refl _ _) <;> decide
  | slotTableSwitch => apply execSlotTableSwitch_keeps (h := .refl _ _) <;> decide
  | shaperRefill => apply execShaperRefill_keeps (h := .refl _ _) <;> decide
  | shaperEnable => apply execShaperEnable_keeps (h := .refl _ _) <;> decide
  | gateArm => apply execGateArm_keeps (h := .refl _ _) <;> decide
  | gateDisarm => apply execGateDisarm_keeps (h := .refl _ _) <;> decide
  | gateArmCheckDone => apply execGateArmCheckDone_keeps (h := .refl _ _) <;> decide
  | gateTakeover => apply execGateTakeover_keeps (h := .refl _ _) <;> decide
  | gateEntryAdvance => apply execGateEntryAdvance_keeps (h := .refl _ _) <;> decide
  | redCtxEnable => apply execRedCtxEnable_keeps (h := .refl _ _) <;> decide
  | redCtxDisable => apply execRedCtxDisable_keeps (h := .refl _ _) <;> decide
  | redEmit => apply execRedEmit_keeps (h := .refl _ _) <;> decide
  | redEmitTimer => apply execRedEmitTimer_keeps (h := .refl _ _) <;> decide
  | stepTimeout => apply execStepTimeout_keeps (h := .refl _ _) <;> decide
  | shadowWindow => apply execShadowWindow_keeps (h := .refl _ _) <;> decide
  | shadowMismatch => apply execShadowMismatch_keeps (h := .refl _ _) <;> decide
  | shadowRecomputeDone => apply execShadowRecomputeDone_keeps (h := .refl _ _) <;> decide
  | triggerArm => apply execTriggerArm_keeps (h := .refl _ _) <;> decide
  | triggerDisarm => apply execTriggerDisarm_keeps (h := .refl _ _) <;> decide
  | triggerFire => apply execTriggerFire_keeps (h := .refl _ _) <;> decide
  | collective => apply execCollective_keeps (h := .refl _ _) <;> decide
  | memberTimeout => apply execMemberTimeout_keeps (h := .refl _ _) <;> decide
  | up => apply execUp_keeps (h := .refl _ _) <;> decide
  | down => apply execDown_keeps (h := .refl _ _) <;> decide
  | downFail => apply execDownFail_keeps (h := .refl _ _) <;> decide
  | open_ => apply execOpen_keeps (h := .refl _ _) <;> decide
  | close => apply execClose_keeps (h := .refl _ _) <;> decide
  | result => apply execResult_keeps (h := .refl _ _) <;> decide
  | abortReq => apply execAbortReq_keeps (h := .refl _ _) <;> decide
  | abort => apply execAbort_keeps (h := .refl _ _) <;> decide
  | freeze => apply execFreeze_keeps (h := .refl _ _) <;> decide
  | start => apply execStart_keeps (h := .refl _ _) <;> decide
  | spSpillReadback => apply execSpSpillReadback_keeps (h := .refl _ _) <;> decide
  | sluiceDispatch => apply execSluiceDispatch_keeps (h := .refl _ _) <;> decide
  | sluiceReturn => apply execSluiceReturn_keeps (h := .refl _ _) <;> decide
  | sluiceCombine => apply execSluiceCombine_keeps (h := .refl _ _) <;> decide
  | claim => apply execClaim_keeps (h := .refl _ _) <;> decide
  | homeAdmission => apply execHomeAdmission_keeps (h := .refl _ _) <;> decide
  | assign => apply execAssign_keeps (h := .refl _ _) <;> decide
  | rows => apply execRows_keeps (h := .refl _ _) <;> decide
  | return_ => apply execReturn_keeps (h := .refl _ _) <;> decide
  | sluiceTimeout => apply execSluiceTimeout_keeps (h := .refl _ _) <;> decide
  | inboxEnable => exact execInboxEnable_keeps (by decide) (.refl _ _)
  | inboxDisable => apply execInboxDisable_keeps (h := .refl _ _) <;> decide
  | send => apply execSend_keeps (h := .refl _ _) <;> decide
  | ringWrite => apply execRingWrite_keeps (h := .refl _ _) <;> decide
  | spillWriteTimeout => apply execSpillWriteTimeout_keeps (h := .refl _ _) <;> decide
  | refillRead => apply execRefillRead_keeps (h := .refl _ _) <;> decide
  | handlerDispatch => apply execHandlerDispatch_keeps (h := .refl _ _) <;> decide
  | retire => apply execRetire_keeps (h := .refl _ _) <;> decide
  | channelCoreClose => apply execChannelCoreClose_keeps (h := .refl _ _) <;> decide
  | reopen => exact execReopen_keeps (by decide) (.refl _ _)
  | channelCoreReset => apply execChannelCoreReset_keeps (h := .refl _ _) <;> decide
  | strayAccess => apply execStrayAccess_keeps (h := .refl _ _) <;> decide
  | crDoorbell => apply execCrDoorbell_keeps (h := .refl _ _) <;> decide
  | cqDoorbell => apply execCqDoorbell_keeps (h := .refl _ _) <;> decide
  | descriptorFetch => apply execDescriptorFetch_keeps (h := .refl _ _) <;> decide
  | descriptorReread => apply execDescriptorReread_keeps (h := .refl _ _) <;> decide
  | nop => apply execNop_keeps (h := .refl _ _) <;> decide
  | copy => apply execCopy_keeps (h := .refl _ _) <;> decide
  | writeInline => apply execWriteInline_keeps (h := .refl _ _) <;> decide
  | atomic => apply execAtomic_keeps (h := .refl _ _) <;> decide
  | mcastWrite => apply execMcastWrite_keeps (h := .refl _ _) <;> decide
  | contrib => apply execContrib_keeps (h := .refl _ _) <;> decide
  | ctrAddCommand => apply execCtrAddCommand_keeps (h := .refl _ _) <;> decide
  | commandComplete => apply execCommandComplete_keeps (h := .refl _ _) <;> decide
  | functionLevelReset => apply execFunctionLevelReset_keeps (h := .refl _ _) <;> decide
  | hostLinkDown => apply execHostLinkDown_keeps (h := .refl _ _) <;> decide
  | hostLinkDrainDone => apply execHostLinkDrainDone_keeps (h := .refl _ _) <;> decide
  | hostLinkUp => apply execHostLinkUp_keeps (h := .refl _ _) <;> decide
  | errlogRead => apply execErrlogRead_keeps (h := .refl _ _) <;> decide
  | soundingTake => apply execSoundingTake_keeps (h := .refl _ _) <;> decide
  | soundingPageRead => apply execSoundingPageRead_keeps (h := .refl _ _) <;> decide
  | counterFreeze => apply execCounterFreeze_keeps (h := .refl _ _) <;> decide
  | counterThaw => apply execCounterThaw_keeps (h := .refl _ _) <;> decide
  | fabricReset => apply execFabricReset_keeps (h := .refl _ _) <;> decide
  | fmpRecover => apply execFmpRecover_keeps (h := .refl _ _) <;> decide
  | domainConfigure => apply execDomainConfigure_keeps (h := .refl _ _) <;> decide
  | timeMeasure => apply execTimeMeasure_keeps (h := .refl _ _) <;> decide
  | partitionCreate => apply execPartitionCreate_keeps (h := .refl _ _) <;> decide
  | partitionDestroy => apply execPartitionDestroy_keeps (h := .refl _ _) <;> decide
  | zeroFillDone => apply execZeroFillDone_keeps (h := .refl _ _) <;> decide
  | keyLoad => apply execKeyLoad_keeps (h := .refl _ _) <;> decide
  | keySwitch => apply execKeySwitch_keeps (h := .refl _ _) <;> decide
  | partitionSeal => apply execPartitionSeal_keeps (h := .refl _ _) <;> decide
  | hostRecover => apply execHostRecover_keeps (h := .refl _ _) <;> decide
  | ringCreate => apply execRingCreate_keeps (h := .refl _ _) <;> decide
  | ringDestroy => apply execRingDestroy_keeps (h := .refl _ _) <;> decide
  | schedLoad => apply execSchedLoad_keeps (h := .refl _ _) <;> decide
  | schedArm => apply execSchedArm_keeps (h := .refl _ _) <;> decide
  | schedStop => apply execSchedStop_keeps (h := .refl _ _) <;> decide
  | groupCreate => apply execGroupCreate_keeps (h := .refl _ _) <;> decide
  | groupDestroy => apply execGroupDestroy_keeps (h := .refl _ _) <;> decide
  | channelOpen => apply execChannelOpen_keeps (h := .refl _ _) <;> decide
  | channelClose => apply execChannelClose_keeps (h := .refl _ _) <;> decide
  | channelReset => apply execChannelReset_keeps (h := .refl _ _) <;> decide
  | arbSet => apply execArbSet_keeps (h := .refl _ _) <;> decide
  | arbConfigure => apply execArbConfigure_keeps (h := .refl _ _) <;> decide
  | counterRead => apply execCounterRead_keeps (h := .refl _ _) <;> decide
  | traceConfigure => apply execTraceConfigure_keeps (h := .refl _ _) <;> decide
  | qpCreate => apply execQpCreate_keeps (h := .refl _ _) <;> decide
  | qpDestroy => apply execQpDestroy_keeps (h := .refl _ _) <;> decide
  | mrRegister => apply execMrRegister_keeps (h := .refl _ _) <;> decide
  | mrDeregister => apply execMrDeregister_keeps (h := .refl _ _) <;> decide
  | patternLoad => apply execPatternLoad_keeps (h := .refl _ _) <;> decide
  | patternRun => apply execPatternRun_keeps (h := .refl _ _) <;> decide
  | fmpWatchdogBite => apply execFmpWatchdogBite_keeps (h := .refl _ _) <;> decide
  | heartbeat => exact execHeartbeat_keeps (by decide) (.refl _ _)
  | qpPost => apply execQpPost_keeps (h := .refl _ _) <;> decide
  | qpOpSend => apply execQpOpSend_keeps (h := .refl _ _) <;> decide
  | pacedRelease => apply execPacedRelease_keeps (h := .refl _ _) <;> decide
  | portSelect => apply execPortSelect_keeps (h := .refl _ _) <;> decide
  | frameStart => apply execFrameStart_keeps (h := .refl _ _) <;> decide
  | underrun => apply execUnderrun_keeps (h := .refl _ _) <;> decide
  | startthDecay => apply execStartthDecay_keeps (h := .refl _ _) <;> decide
  | write => apply execWrite_keeps (h := .refl _ _) <;> decide
  | readReq => apply execReadReq_keeps (h := .refl _ _) <;> decide
  | readRsp => apply execReadRsp_keeps (h := .refl _ _) <;> decide
  | transportSend => apply execTransportSend_keeps (h := .refl _ _) <;> decide
  | transportAtomic => apply execTransportAtomic_keeps (h := .refl _ _) <;> decide
  | atomicRsp => apply execAtomicRsp_keeps (h := .refl _ _) <;> decide
  | relay => apply execRelay_keeps (h := .refl _ _) <;> decide
  | transportAck => apply execTransportAck_keeps (h := .refl _ _) <;> decide
  | transportClose => apply execTransportClose_keeps (h := .refl _ _) <;> decide
  | probe => apply execProbe_keeps (h := .refl _ _) <;> decide
  | ethControlFrame => apply execEthControlFrame_keeps (h := .refl _ _) <;> decide
  | ackDelayExpire => apply execAckDelayExpire_keeps (h := .refl _ _) <;> decide
  | retransmitTimeout => apply execRetransmitTimeout_keeps (h := .refl _ _) <;> decide
  | rnrRetry => apply execRnrRetry_keeps (h := .refl _ _) <;> decide
  | pathProbe => apply execPathProbe_keeps (h := .refl _ _) <;> decide
  | closeResend => apply execCloseResend_keeps (h := .refl _ _) <;> decide
  | ethPortDown => apply execEthPortDown_keeps (h := .refl _ _) <;> decide
  | ethPortUp => apply execEthPortUp_keeps (h := .refl _ _) <;> decide
  | lpiEnter => apply execLpiEnter_keeps (h := .refl _ _) <;> decide
  | lpiWake => exact execLpiWake_keeps (by decide) (.refl _ _)
  | eeeTlvExchange => apply execEeeTlvExchange_keeps (h := .refl _ _) <;> decide
  | macReset => apply execMacReset_keeps (h := .refl _ _) <;> decide
  | laneBlockSend => apply execLaneBlockSend_keeps (h := .refl _ _) <;> decide
  | linkFlit => apply execLinkFlit_keeps (h := .refl _ _) <;> decide
  | align => apply execAlign_keeps (h := .refl _ _) <;> decide
  | ts => apply execTs_keeps (h := .refl _ _) <;> decide
  | sp => apply execSp_keeps (h := .refl _ _) <;> decide
  | retry => apply execRetry_keeps (h := .refl _ _) <;> decide
  | ctl => apply execCtl_keeps (h := .refl _ _) <;> decide
  | tag => apply execTag_keeps (h := .refl _ _) <;> decide
  | quiet => apply execQuiet_keeps (h := .refl _ _) <;> decide
  | deep => apply execDeep_keeps (h := .refl _ _) <;> decide
  | linkRetryTimeout => apply execLinkRetryTimeout_keeps (h := .refl _ _) <;> decide
  | laneRecoveryFail => apply execLaneRecoveryFail_keeps (h := .refl _ _) <;> decide
  | peerClockDetect => apply execPeerClockDetect_keeps (h := .refl _ _) <;> decide
  | detectTimeout => apply execDetectTimeout_keeps (h := .refl _ _) <;> decide
  | alignDone => apply execAlignDone_keeps (h := .refl _ _) <;> decide
  | eqDone => apply execEqDone_keeps (h := .refl _ _) <;> decide
  | configRetry => apply execConfigRetry_keeps (h := .refl _ _) <;> decide
  | quietEnter => apply execQuietEnter_keeps (h := .refl _ _) <;> decide
  | quietExit => apply execQuietExit_keeps (h := .refl _ _) <;> decide
  | deepEnter => apply execDeepEnter_keeps (h := .refl _ _) <;> decide
  | deepWake => apply execDeepWake_keeps (h := .refl _ _) <;> decide
  | lanePeerLoss => apply execLanePeerLoss_keeps (h := .refl _ _) <;> decide
  | lanePortCfgWrite => exact execLanePortCfgWrite_keeps (by decide) (.refl _ _)
  | prbs => apply execPrbs_keeps (h := .refl _ _) <;> decide
  | neslb => apply execNeslb_keeps (h := .refl _ _) <;> decide
  | neplb => apply execNeplb_keeps (h := .refl _ _) <;> decide
  | felb => apply execFelb_keeps (h := .refl _ _) <;> decide
  | testModeOff => apply execTestModeOff_keeps (h := .refl _ _) <;> decide
  | inj => apply execInj_keeps (h := .refl _ _) <;> decide
  | injcrc => apply execInjcrc_keeps (h := .refl _ _) <;> decide
  | injcode => apply execInjcode_keeps (h := .refl _ _) <;> decide
  | injsp => apply execInjsp_keeps (h := .refl _ _) <;> decide
  | scrubFillDone => apply execScrubFillDone_keeps (h := .refl _ _) <;> decide
  | porstRelease => apply execPorstRelease_keeps (h := .refl _ _) <;> decide
  | porstAssert => apply execPorstAssert_keeps (h := .refl _ _) <;> decide
  | pllLock => apply execPllLock_keeps (h := .refl _ _) <;> decide
  | hbmControllersReady => apply execHbmControllersReady_keeps (h := .refl _ _) <;> decide
  | clockLoss => apply execClockLoss_keeps (h := .refl _ _) <;> decide
  | rootPllRelock => apply execRootPllRelock_keeps (h := .refl _ _) <;> decide
  | domainResetDone => apply execDomainResetDone_keeps (h := .refl _ _) <;> decide
  | hbmControllerReset => apply execHbmControllerReset_keeps (h := .refl _ _) <;> decide
  | undervoltage => apply execUndervoltage_keeps (h := .refl _ _) <;> decide
  | sensorSample => apply execSensorSample_keeps (h := .refl _ _) <;> decide
  | thermalTrip => apply execThermalTrip_keeps (h := .refl _ _) <;> decide
  | fabricIdleEnter => apply execFabricIdleEnter_keeps (h := .refl _ _) <;> decide
  | wakeLatch => apply execWakeLatch_keeps (h := .refl _ _) <;> decide
  | wake => apply execWake_keeps (h := .refl _ _) <;> decide
  | configScrub => apply execConfigScrub_keeps (h := .refl _ _) <;> decide
  | coreClear => exact execCoreClear_keeps (by decide) (.refl _ _)
  | injectionArm => apply execInjectionArm_keeps (h := .refl _ _) <;> decide
  | transHalving => exact execTransHalving_keeps (by decide) (.refl _ _)
  | freezeApply => apply execFreezeApply_keeps (h := .refl _ _) <;> decide
  | traceFlush => apply execTraceFlush_keeps (h := .refl _ _) <;> decide
  | pcSample => apply execPcSample_keeps (h := .refl _ _) <;> decide
  | watchRoundClose => exact execWatchRoundClose_keeps (by decide) (.refl _ _)
  | watchReadbackDone => apply execWatchReadbackDone_keeps (h := .refl _ _) <;> decide
  | refclkLoss => exact execRefclkLoss_keeps (by decide) (.refl _ _)
  | refclkReturn => exact execRefclkReturn_keeps (by decide) (.refl _ _)
  | hbmControllerResetEnd => apply execHbmControllerResetEnd_keeps (h := .refl _ _) <;> decide
  | memoryStageTimeout => apply execMemoryStageTimeout_keeps (h := .refl _ _) <;> decide
  | reportQueueRelease => exact execReportQueueRelease_keeps (by decide) (.refl _ _)
  | msiXVectorUnmask => exact execMsiXVectorUnmask_keeps (by decide) (.refl _ _)

/-- A step with no command waiting lets one idle cycle pass. -/
theorem step_of_idle {s : State} (h : s.pending = []) : step s = .next (idleStep s) := by
  simp only [step, h]

/-- A step with a command waiting carries out the first one on the rest of the queue. -/
theorem step_of_front {s : State} {c : Instr} {r : List Instr} (h : s.pending = c :: r) : step s = exec c { s with pending := r } := by
  simp only [step, h]

/-- What an idle cycle can touch: time, and what the routers and start-up do by themselves. -/
def idleTouches : List Part :=
  [.arb, .boot, .bus, .chan, .clk, .coll, .dyn, .host, .lane, .log, .mbx, .mem, .memPoison, .obs, .parts, .red, .regs, .rel, .rte,
   .sch, .sec, .slu, .trig]

theorem idleStep_frame (s : State) : Keeps idleTouches s (idleStep s) := by
  apply idleStep_keeps (h := .refl _ _) <;> decide

/-- A command keeps the canonical form. -/
theorem exec_wf {c : Instr} {s t : State} (h : s.wf = true) (e : exec c s = .next t) : t.wf = true := by
  obtain ⟨u, hu, hk⟩ := exec_keeps c s
  cases hu.symm.trans e
  exact hk.wf h

/-- Settles O5: memory and registers stay canonical, whether the block idles or carries out a command. -/
theorem stepKeepsCanonicalForm : Obligations.StepKeepsCanonicalForm := by
  intro s t h e
  cases hq : s.pending with
  | nil =>
    cases (step_of_idle hq).symm.trans e
    exact (idleStep_frame s).wf h
  | cons c r =>
    rw [step_of_front hq] at e
    exact exec_wf (s := { s with pending := r }) h e

/-! ### Reset -/

/-- Settles O4: at reset both tables are empty. -/
theorem resetIsCanonical : Obligations.ResetIsCanonical := rfl

/-- At reset no register has an entry, so each reads as its Reset entry. -/
theorem rd_reset (off : Nat) : rd State.reset off = resetWord off := rfl

/-- At reset no byte of memory has an entry, so each reads as a byte nothing has written. -/
theorem readByte_reset (a : Nat) : readByte State.reset a = memDefault a := rfl

/-- Start-up stands in stage 0 at reset. -/
theorem stage_reset : stage State.reset = 0 := by
  rw [stage, fld, rd_reset]; decide

/-- The host port is closed before stage 9. -/
theorem portOpen_reset : portOpen State.reset = false := by
  change (stage State.reset == 9) = false
  rw [stage_reset]; rfl

/-- Settles O3: the registers by `rd_reset`, the boot stage from the Reset entry of `FAB_BOOT_STAT`, the rest by `State`'s own defaults. -/
theorem resetRegisters : Obligations.ResetRegisters :=
  ⟨rd_reset, readByte_reset, rfl, rfl, rfl, rfl, rfl, rfl, portOpen_reset, stage_reset⟩

/-! ### Register fields: a word put together field by field

Software's writes and reads build a word from the fields of the register (R15, R16). What each field of it holds rests on one fact of the
tables: the fields of a register lie within its 64 bits and share no bit. -/

/-- Two bit ranges share no bit. -/
abbrev Apart (f g : Fld) : Prop := f.hi < g.lo ∨ g.hi < f.lo

/-- The fields of a register lie within 64 bits and apart from each other. -/
abbrev FieldsSound (fs : List FieldDef) : Prop :=
  (∀ d ∈ fs, d.f.lo ≤ d.f.hi ∧ d.f.hi < 64) ∧ fs.Pairwise fun d e => Apart d.f e.f

/-- The word whose fields hold the values `x` gives them, and zero elsewhere. -/
def placed (x : FieldDef → Nat) : List FieldDef → Word
  | [] => 0
  | d :: r => setF (placed x r) d.f (x d)

theorem getF_zero (f : Fld) : getF 0 f = 0 := by
  simp [getF, bits]

theorem getF_lt (w : Word) (f : Fld) : getF w f < 2 ^ fldWidth f :=
  Nat.mod_lt _ (Nat.two_pow_pos _)

/-- A field apart from the one written is as it was. -/
theorem getF_setF_apart {w : Word} {f g : Fld} {v : Nat} (hf : f.lo ≤ f.hi ∧ f.hi < 64) (hg : g.lo ≤ g.hi) (h : Apart f g) :
    getF (setF w f v) g = getF w g :=
  h.elim (getF_setF_above hf.1 hf.2) (getF_setF_below hf.1 hf.2 hg)

/-- A range apart from every field of the word holds zero. -/
theorem getF_placed_apart {x : FieldDef → Nat} {g : Fld} (hg : g.lo ≤ g.hi) {fs : List FieldDef}
    (hs : ∀ d ∈ fs, d.f.lo ≤ d.f.hi ∧ d.f.hi < 64) (h : ∀ d ∈ fs, Apart d.f g) : getF (placed x fs) g = 0 := by
  induction fs with
  | nil => exact getF_zero g
  | cons d r ih =>
    rw [List.forall_mem_cons] at hs h
    rw [placed, getF_setF_apart hs.1 hg h.1, ih hs.2 h.2]

/-- Each field of the word holds its value, cut to its width. -/
theorem getF_placed {x : FieldDef → Nat} {fs : List FieldDef} (hs : FieldsSound fs) {d : FieldDef} (hd : d ∈ fs) :
    getF (placed x fs) d.f = x d % 2 ^ fldWidth d.f := by
  induction fs with
  | nil => cases hd
  | cons e r ih =>
    obtain ⟨hin, hap⟩ := hs
    rw [List.forall_mem_cons] at hin
    rw [List.pairwise_cons] at hap
    rw [placed]
    cases hd with
    | head => exact getF_setF_same hin.1.1 hin.1.2
    | tail _ hd => rw [getF_setF_apart hin.1 (hin.2 d hd).1 (hap.1 d hd), ih ⟨hin.2, hap.2⟩ hd]

/-- A bit that no field covers is zero. -/
theorem getLsbD_placed_uncovered {x : FieldDef → Nat} {fs : List FieldDef} (hs : FieldsSound fs) {i : Nat}
    (h : ∀ d ∈ fs, i < d.f.lo ∨ d.f.hi < i) : (placed x fs).getLsbD i = false := by
  have hz := getF_placed_apart (x := x) (g := ⟨i, i⟩) (Nat.le_refl i) hs.1 fun d hd => (h d hd).symm
  simp only [getF, bits, Nat.add_sub_cancel_left, Nat.pow_one] at hz
  rw [BitVec.getLsbD, Nat.testBit_eq_decide_div_mod_eq, hz]
  rfl

/-! ### The register tables -/

/-- The register tables of the windows, of the HP's function pages and of the arbiters (R677-R683). -/
def regTables : List (List RegDef) :=
  [fabRegs, secRegs, hpRegs, hpFnRegs, telRegs, mepRegs, lpRegs, rteRegs, rtrRegs, tniRegs, arbRegs]

/-- No register of the map has two fields that overlap, or one beyond its 64 bits. -/
theorem fieldsSound_of_mem_regTables : ∀ rs ∈ regTables, ∀ d ∈ rs, FieldsSound d.fields := by
  decide +kernel

theorem mem_of_findReg {off : Nat} {rs : List RegDef} {x : RegDef × Nat} (h : findReg off rs = some x) : x.1 ∈ rs := by
  induction rs with
  | nil => cases h
  | cons d r ih =>
    rw [findReg] at h
    split at h
    · cases h; exact List.mem_cons_self
    · exact List.mem_cons_of_mem d (ih h)

/-- A register looked up in one of the tables has sound fields. -/
theorem fieldsSound_of_lookup {off i : Nat} {rs : List RegDef} {g home : RegHome} {d : RegDef}
    (h : (findReg off rs).map (fun x => (g, x.1, x.2)) = some (home, d, i)) (hrs : rs ∈ regTables) : FieldsSound d.fields := by
  obtain ⟨x, hx, he⟩ := Option.map_eq_some_iff.mp h
  cases he
  exact fieldsSound_of_mem_regTables rs hrs x.1 (mem_of_findReg hx)

/-- Every offset that holds a register holds one of the tables'. -/
theorem fieldsSound_of_regAt {off i : Nat} {home : RegHome} {d : RegDef} (h : regAt off = some (home, d, i)) : FieldsSound d.fields := by
  rw [regAt] at h
  split at h
  · cases h
  next b o _ =>
  cases b with dsimp only at h
  | fab | sec | tel => exact fieldsSound_of_lookup h (by simp [regTables])
  | mep | lp | rte | rtr | tni => split at h <;> exact fieldsSound_of_lookup h (by simp [regTables])
  | hp =>
    split at h
    · exact fieldsSound_of_lookup h (by simp [regTables])
    · split at h <;> exact fieldsSound_of_lookup h (by simp [regTables])

/-- The fields of the register at any offset lie within 64 bits and apart. -/
theorem fieldsSound_fieldsAt (off : Nat) : FieldsSound (fieldsAt off) := by
  rw [fieldsAt]
  split
  · exact ⟨nofun, .nil⟩
  · next h => exact fieldsSound_of_regAt h

/-! ### Access types (R15, R16) -/

/-- The value a plain write gives a field. -/
def writtenValue (old v : Word) (d : FieldDef) : Nat :=
  match d.acc with
  | .ro => getF old d.f
  | .rw => getF v d.f
  | .desc => getF v d.f
  | .w1c => (BitVec.ofNat 64 (getF old d.f) &&& ~~~ BitVec.ofNat 64 (getF v d.f)).toNat
  | .w1s => getF old d.f ||| getF v d.f
  | .wo => getF old d.f

/-- The value a read shows of a field. -/
def shownValue (w : Word) (d : FieldDef) : Nat := if d.acc = .wo then 0 else getF w d.f

theorem accessWrite_eq_placed (old v : Word) (fs : List FieldDef) : accessWrite old v fs = placed (writtenValue old v) fs := by
  induction fs with
  | nil => rfl
  | cons d r ih => rw [accessWrite, ih]; rfl

theorem accessRead_eq_placed (w : Word) (fs : List FieldDef) : accessRead w fs = placed (shownValue w) fs := by
  induction fs with
  | nil => rfl
  | cons d r ih => rw [accessRead, ih]; rfl

/-- A value a field can hold is zero beyond the field's width. -/
theorem testBit_getF_of_width_le (w : Word) {f : Fld} {i : Nat} (hi : fldWidth f ≤ i) : (getF w f).testBit i = false :=
  Nat.testBit_lt_two_pow ((getF_lt w f).trans_le (Nat.pow_le_pow_right (by decide) hi))

/-- W1C bit by bit: a bit written 1 is cleared. -/
theorem testBit_clear {o n i : Nat} (hi : i < 64) :
    (BitVec.ofNat 64 o &&& ~~~ BitVec.ofNat 64 n).toNat.testBit i = (o.testBit i && ! n.testBit i) := by
  rw [BitVec.testBit_toNat, BitVec.getLsbD_and, BitVec.getLsbD_not, BitVec.getLsbD_ofNat, BitVec.getLsbD_ofNat]
  simp [hi]

/-- What a plain write leaves in a field, bit by bit. -/
theorem testBit_written (old v : Word) {d : FieldDef} (hw : fldWidth d.f ≤ 64) (i : Nat) :
    (writtenValue old v d % 2 ^ fldWidth d.f).testBit i =
      match d.acc with
      | .ro => (getF old d.f).testBit i
      | .wo => (getF old d.f).testBit i
      | .rw => (getF v d.f).testBit i
      | .desc => (getF v d.f).testBit i
      | .w1c => (getF old d.f).testBit i && ! (getF v d.f).testBit i
      | .w1s => (getF old d.f).testBit i || (getF v d.f).testBit i := by
  rw [Nat.testBit_mod_two_pow, writtenValue]
  by_cases hi : i < fldWidth d.f
  · cases d.acc with
    | w1c => simp only [hi, testBit_clear (hi.trans_le hw), decide_true, Bool.true_and]
    | _ => simp [hi]
  · have h0 w := testBit_getF_of_width_le w (Nat.le_of_not_lt hi)
    cases d.acc <;> simp [hi, h0]

/-- The value a read shows fits its field. -/
theorem shownValue_lt (w : Word) (d : FieldDef) : shownValue w d < 2 ^ fldWidth d.f := by
  rw [shownValue]
  split
  · exact Nat.two_pow_pos _
  · exact getF_lt w d.f

/-- Settles O9: both words are put together field by field, and the fields of every register lie apart within 64 bits. -/
theorem fieldAccessTypes : Obligations.FieldAccessTypes := by
  intro off old v
  have hs := fieldsSound_fieldsAt off
  rw [accessWrite_eq_placed, accessRead_eq_placed]
  refine ⟨fun d hd => ⟨fun i => ?_, ?_⟩, fun i hi => ⟨getLsbD_placed_uncovered hs hi, getLsbD_placed_uncovered hs hi⟩⟩
  · have hd64 := hs.1 d hd
    rw [getF_placed hs hd]
    exact testBit_written old v (by rw [fldWidth]; omega) i
  · rw [getF_placed hs hd, Nat.mod_eq_of_lt (shownValue_lt old d)]
    rfl

/-! ### Register accesses in halves (R18) -/

/-- A half just held is the one found. -/
theorem heldOf_hold (l : List (RegTarget × Nat)) (r : RegTarget) (v : Nat) : heldOf (hold l r v) r = some v := by
  have hn : (l.filter fun x => x.1 != r).find? (fun x => x.1 == r) = none := by
    simp [List.find?_eq_none]
  simp [heldOf, hold, List.find?_append, hn]

/-- A half let go is held no longer. -/
theorem heldOf_filter_ne (l : List (RegTarget × Nat)) (r : RegTarget) : heldOf (l.filter fun x => x.1 != r) r = none := by
  simp [heldOf, List.find?_eq_none]

/-- A change of the half-register holders alone. -/
theorem only_bus (s : State) (b : BusState) : Only [.bus] s { s with bus := b } :=
  (Keeps.bus (List.mem_singleton_self _) (.refl _ s)).only

/-- What an access that reaches a register passes: the register's window and unit let it through, and no sealed tenant's protection stops it. -/
theorem csrTarget_of_reachable {s : State} {off : Nat} (h : reachable s off = true) (k : State) :
    csrTarget s off k = k ∧ sealedBy s off = none := by
  rw [reachable] at h
  split at h
  next b o home d i hb hr =>
    simp only [Bool.and_eq_true, Option.isNone_iff_eq_none] at h
    obtain ⟨⟨hp, ho⟩, hs⟩ := h
    simp [csrTarget, hb, hr, hp, ho, hs]
  · cases h

/-- A register write that reaches its register is the write in full or in halves. -/
theorem exec_registerWrite_csr {s : State} {off : Nat} (hr : reachable s off = true) (h : RegHalf) (v : Nat) :
    exec (.registerWrite (.csr off) h v) s =
      .next (halfWrite s (.csr off) h v (csrLow s off) fun s v => applyWrite s off v) := by
  change Host.Outcome.next (csrAccess s off h v) = _
  obtain ⟨ht, hs⟩ := csrTarget_of_reachable hr (halfWrite s (.csr off) h v (csrLow s off) fun s v => applyWrite s off v)
  rw [csrAccess, hs, ht]

/-- A read in halves that reaches its register reads a half of what a read sees. -/
theorem exec_lowHalfRead_csr {s : State} {off : Nat} (hr : reachable s off = true) (hi : Bool) :
    exec (.lowHalfRead ⟨.csr off, hi⟩) s = .next (halfRead s (.csr off) hi (seen s off).toNat) := by
  obtain ⟨ht, hs⟩ := csrTarget_of_reachable hr (halfRead s (.csr off) hi (seen s off).toNat)
  change Host.Outcome.next (csrTarget s off (match sealedBy s off with
      | some p => halfRead (denied s p) (.csr off) hi 0
      | none => halfRead s (.csr off) hi (seen s off).toNat)) = _
  rw [hs, ht]

/-- A BAR0 write of a full register that decodes now, and is neither a short nor a plain one, acts on that register. -/
theorem exec_registerWrite_bar0 {s : State} {fn off : Nat} (v : Nat) (hf : fn < 64) (hl : s.host.linkUp = true)
    (ho : barOpen s fn (barReg fn off) = true) (hn : barReg fn off ≠ .stray) (hs : barShort fn (barReg fn off) = false)
    (hp : barPlain (barReg fn off) = false) :
    exec (.registerWrite (.bar0 fn off) .full v) s = .next (barWrite s fn (barReg fn off) v) := by
  change Host.Outcome.next (barAccess s fn off .full v) = _
  simp [barAccess, halfWrite, hl, ho, hn, hs, hp, Nat.not_le.mpr hf]

/-- A BAR0 read in halves of a register that decodes now reads a half of what the function's register shows. -/
theorem exec_lowHalfRead_bar0 {s : State} {fn off : Nat} (hi : Bool) (hf : fn < 64) (hl : s.host.linkUp = true)
    (ho : barOpen s fn (barReg fn off) = true) (hn : barReg fn off ≠ .stray) :
    exec (.lowHalfRead ⟨.bar0 fn off, hi⟩) s =
      .next (halfRead s (.bar0 fn (off / 8 * 8)) hi (barValue s fn (barReg fn off))) := by
  change execLowHalfRead ⟨.bar0 fn off, hi⟩ s = _
  simp [execLowHalfRead, hl, ho, hn, Nat.not_le.mpr hf]

/-- A read of a low half returns it and latches the high half; a read of a high half returns the latched half, or the current one where none is
latched, and lets it go. Neither changes anything else. -/
theorem halfRead_spec (s : State) (r : RegTarget) (hi : Bool) (w : Nat) :
    Only [.bus] s (halfRead s r hi w) ∧
    (halfRead s r hi w).bus.lastRead = BitVec.ofNat 64 (if hi then (heldOf s.bus.readLatch r).getD (w / 2 ^ 32) else w % 2 ^ 32) ∧
    heldOf (halfRead s r hi w).bus.readLatch r = if hi then none else some (w / 2 ^ 32) := by
  cases hi with
  | false => exact ⟨only_bus s _, rfl, heldOf_hold ..⟩
  | true => exact ⟨only_bus s _, rfl, heldOf_filter_ne ..⟩

/-- A read in halves completes and leaves memory as it is. -/
theorem exec_lowHalfRead_mem (r : RegTarget) (hi : Bool) (s : State) : ∃ t, exec (.lowHalfRead ⟨r, hi⟩) s = .next t ∧ t.mem = s.mem := by
  obtain ⟨t, he, hk⟩ := exec_keeps (.lowHalfRead ⟨r, hi⟩) s
  refine ⟨t, he, hk.only .mem ?_⟩
  dsimp only [touches]
  decide

/-- Settles O10: for the control space by `exec_registerWrite_csr` and `exec_lowHalfRead_csr`, for BAR0 by their counterparts. -/
theorem registerAccessInHalves : Obligations.RegisterAccessInHalves := by
  refine ⟨fun r h v s => ⟨_, rfl⟩, exec_lowHalfRead_mem, fun off v s hr => exec_registerWrite_csr hr .full v, fun off v s hr => ?low,
    fun off v l s hr hl => ?high, fun off s hr => ?readLow, fun off s hr => ?readHigh,
    fun fn off v s hf hl ho hn hs hp => exec_registerWrite_bar0 v hf hl ho hn hs hp, fun fn off hi s hf hl ho hn => ?bar⟩
  case low => exact ⟨_, exec_registerWrite_csr hr .low v, only_bus s _, heldOf_hold ..⟩
  case high =>
    have he := exec_registerWrite_csr hr .high v
    rw [halfWrite, hl] at he
    exact ⟨_, he, only_bus s _, heldOf_filter_ne ..⟩
  case readLow =>
    obtain ⟨ho, hv, hh⟩ := halfRead_spec s (.csr off) false (seen s off).toNat
    refine ⟨_, exec_lowHalfRead_csr hr false, ho, ?_, hh⟩
    rw [hv, BitVec.toNat_ofNat]
    exact Nat.mod_eq_of_lt ((Nat.mod_lt _ (by decide)).trans (by decide))
  case readHigh => exact ⟨_, exec_lowHalfRead_csr hr true, halfRead_spec s (.csr off) true (seen s off).toNat⟩
  case bar => exact ⟨_, exec_lowHalfRead_bar0 hi hf hl ho hn, halfRead_spec ..⟩

end Sys2Proof.Machine

namespace Sys2Proof.Machine

/-! ### Memory under the commands that store nothing -/

/-- Settles O7: the frame of a command that is not a storing one lists neither the memory nor its poison marks. -/
theorem onlyStoringCommandsChangeMemory : Obligations.OnlyStoringCommandsChangeMemory := by
  intro c s t he hc
  obtain ⟨u, hu, hk⟩ := exec_keeps c s
  cases hu.symm.trans he
  obtain ⟨hmem, hpsn⟩ : Part.mem ∉ touches c ∧ Part.memPoison ∉ touches c := by simpa [storing] using hc
  exact ⟨readByte_of_mem_eq (hk.only .mem hmem), hk.only .memPoison hpsn⟩

/-! ### Device memory (R35) -/

/-- A region-0x0 address is served by the MEP of its stack, whatever the state. -/
theorem homeEp_region0 (s : State) (chip : Nat) {a : Nat} (h : region a = 0) : homeEp s chip a = mepEp chip (stackOf (regOff a)) := by
  simp only [homeEp, h]

/-- Settles O58: the stack and its address are the definitions' own, and `mepEp` gives the stack's MEP its tile. -/
theorem deviceMemoryInterleaves : Obligations.DeviceMemoryInterleaves := by
  intro s t chip a ha
  dsimp only
  have hs : homeEp s chip a = mepEp chip (stackOf (regOff a)) := homeEp_region0 s chip ha
  refine ⟨rfl, rfl, hs, fun hlow => ?_, fun hhigh => ?_, (homeEp_region0 t chip ha).trans hs.symm⟩
  · rw [hs, mepEp, stackOf, if_pos hlow]; rfl
  · rw [hs, mepEp, stackOf, if_neg (Nat.not_lt.mpr hhigh)]

/-! ### Updates one after another -/

/-- What holds at the start and is carried on by each of `n` numbered updates holds at their end. -/
theorem foldl_range_induction {α : Type} {P : Nat → α → Prop} {f : α → Nat → α} {a : α} (n : Nat) (h0 : P 0 a)
    (hs : ∀ k < n, ∀ x, P k x → P (k + 1) (f x k)) : P n ((List.range n).foldl f a) := by
  induction n with
  | zero => exact h0
  | succ n ih =>
    rw [List.range_succ, List.foldl_append]
    exact hs n n.lt_succ_self _ (ih fun k hk => hs k (hk.trans n.lt_succ_self))

/-- A register write touches no other register. -/
theorem wrReg_regsOutside (s : State) (a : Nat) (w : Word) : RegsOutside [a] s (wrReg s a w) := fun _ hc =>
  rd_wrReg_ne s w (fun h => hc (h ▸ List.mem_singleton_self _))

/-- A register written reads back. -/
theorem rd_wrReg_same {s : State} (h : s.wf = true) (a : Nat) (w : Word) : rd (wrReg s a w) a = w := by
  rw [rd_wrReg s a a w (regs_wf h), if_pos rfl]

/-- A register write keeps the canonical form. -/
theorem wf_wrReg {s : State} (h : s.wf = true) (a : Nat) (w : Word) : (wrReg s a w).wf = true :=
  (wrReg_keeps (List.mem_singleton_self _) (.refl [.regs] s)).wf h

/-! ### Plain writes of registers without W1C and W1S fields (R15-R17) -/

/-- With no field of an access type there are no bits of that type. -/
theorem onlyBits_eq_zero {a : Acc} {fs : List FieldDef} (h : ∀ d ∈ fs, d.acc ≠ a) (n : Word) : onlyBits a n fs = 0 := by
  induction fs with
  | nil => rfl
  | cons d r ih =>
    rw [List.forall_mem_cons] at h
    rw [onlyBits, if_neg h.1, ih h.2]

/-- A plain write of a register without W1C and W1S fields is one register write, as its access types say. -/
theorem softWrite_eq_wrReg {off : Nat} (hc : ∀ d ∈ fieldsAt off, d.acc ≠ .w1c) (hs : ∀ d ∈ fieldsAt off, d.acc ≠ .w1s) (s : State) (v : Nat) :
    softWrite s off v = wrReg s off (accessWrite (rd s off) (BitVec.ofNat 64 v) (fieldsAt off)) := by
  simp [softWrite, onlyBits_eq_zero hc, onlyBits_eq_zero hs]

/-! ### FAB_PKG_INFO (R46) -/

/-- The package's identity has RO and RW fields only. -/
theorem acc_fabPkgInfo : ∀ d ∈ fieldsAt Reg.fabPkgInfo, d.acc ≠ .w1c ∧ d.acc ≠ .w1s := by
  decide

/-- An error record touches no register. -/
theorem rd_log (s : State) (e : ErrRec) (a : Nat) : rd (log s e) a = rd s a :=
  rd_of_regs_eq ((log_keeps (w := [.log, .rel]) (by decide) (by decide) (.refl _ s)).only .regs (by decide)).1 a

/-- With the lane ports held in reset the write of FAB_PKG_INFO leaves the registers a plain write leaves. -/
theorem exec_fabPkgInfoWrite_held {s : State} (h : lanesHeld s = true) (v : Nat) : ∃ t, exec (.fabPkgInfoWrite v) s = .next t ∧
    ∀ a, rd t a = rd (wrReg s Reg.fabPkgInfo (accessWrite (rd s Reg.fabPkgInfo) (BitVec.ofNat 64 v) (fieldsAt Reg.fabPkgInfo))) a := by
  refine ⟨_, rfl, fun a => ?_⟩
  rw [← softWrite_eq_wrReg (fun d hd => (acc_fabPkgInfo d hd).1) fun d hd => (acc_fabPkgInfo d hd).2]
  simp only [h, Bool.not_true, Bool.false_eq_true, if_false]
  split
  · rfl
  · exact rd_log _ _ a

/-- With a lane port out of reset the write of FAB_PKG_INFO does nothing. -/
theorem exec_fabPkgInfoWrite_running {s : State} (h : lanesHeld s = false) (v : Nat) : exec (.fabPkgInfoWrite v) s = .next s := by
  change execFabPkgInfoWrite v s = _
  rw [execFabPkgInfoWrite, h]
  rfl

/-! ### FAB_TWIN_MAP (R50) -/

/-- One bit is a bit range of width 1. -/
theorem bit_eq_bits (n i : Nat) : bit n i = (bits n i i == 1) := by
  rw [bit, bits, Nat.add_sub_cancel_left, Nat.pow_one]

/-- A bit put in place reads back; every other bit is as it was. -/
theorem bit_putBits (n p q : Nat) (b : Bool) : bit (putBits n p p (b2n b)) q = if q = p then b else bit n q := by
  rw [bit_eq_bits, bit_eq_bits]
  rcases Nat.lt_trichotomy q p with h | rfl | h
  · rw [bits_putBits_below (Nat.le_refl p) h (Nat.le_refl q), if_neg h.ne]
  · rw [bits_putBits_same (Nat.le_refl q), if_pos rfl, Nat.add_sub_cancel_left]
    cases b <;> rfl
  · rw [bits_putBits_above (Nat.le_refl p) h, if_neg h.ne']

/-- The pairs' bits are the low bits of FAB_TWIN_MAP. -/
theorem bit_twin (s : State) {p : Nat} (hp : p < 32) : bit (fld s Reg.fabTwinMap FabTwinMap.TWIN) p = bit (rd s Reg.fabTwinMap).toNat p := by
  have htest (n : Nat) : bit n p = n.testBit p := (Nat.testBit_eq_decide_div_mod_eq).symm
  rw [htest, htest, fld, getF, bits, FabTwinMap.TWIN, Nat.pow_zero, Nat.div_one, Nat.testBit_mod_two_pow]
  simp [hp]

/-- What TWIN_MAP_WRITE does for pair p: where its tiles are free and its bit changes, the bit takes v's and the pair's shared cistern its
reservable count (R117, R128). -/
def twinStep (v : Nat) (s : State) (p : Nat) : State :=
  if twinned s (2 * p) == bit v p || ! pairFree s p then s
  else
    let c := Reg.cisternStat (.tni (2 * p))
    let free := fld s c CisternStat.FREE
    setFld (wrReg s Reg.fabTwinMap (BitVec.ofNat 64 (putBits (rd s Reg.fabTwinMap).toNat p p (b2n (bit v p))))) c CisternStat.FREE
      (if bit v p then free + 2048 else free - 2048)

/-- TWIN_MAP_WRITE is the steps of the 32 pairs. -/
theorem exec_twinMapWrite (v : Nat) (s : State) : exec (.twinMapWrite v) s = .next ((List.range 32).foldl (twinStep v) s) := rfl

/-- A pair's step keeps the canonical form. -/
theorem wf_twinStep {s : State} (h : s.wf = true) (v p : Nat) : (twinStep v s p).wf = true := by
  rw [twinStep]
  split
  · exact h
  · exact setFld_wf (wf_wrReg h _ _)

/-- A pair's step touches the map and the pair's cistern alone. -/
theorem twinStep_regsOutside (s : State) (v p : Nat) : RegsOutside [Reg.fabTwinMap, Reg.cisternStat (.tni (2 * p))] s (twinStep v s p) := by
  intro a ha
  simp only [List.mem_cons, List.not_mem_nil, or_false, not_or] at ha
  rw [twinStep]
  split
  · rfl
  · rw [rd_setFld_ne _ _ _ ha.2, rd_wrReg_ne _ _ ha.1]

/-- The registers that say whether a pair is free are not among those a pair's step writes. -/
theorem fabGoodTiles_not_twin (p : Nat) : Reg.fabGoodTiles ∉ [Reg.fabTwinMap, Reg.cisternStat (.tni (2 * p))] := by
  simp only [List.mem_cons, List.not_mem_nil, or_false, Reg.fabGoodTiles, Reg.fabTwinMap, Reg.cisternStat, Blk.base]
  omega

theorem rtrEpOwner_not_twin (k p : Nat) : Reg.rtrEpOwner k ∉ [Reg.fabTwinMap, Reg.cisternStat (.tni (2 * p))] := by
  simp only [List.mem_cons, List.not_mem_nil, or_false, Reg.rtrEpOwner, Reg.fabTwinMap, Reg.cisternStat, Blk.base]
  omega

/-- A pair's step gives a free pair's bit the written one, and leaves every other bit. -/
theorem bit_twinStep {s : State} (h : s.wf = true) (v : Nat) {p q : Nat} (hp : p < 32) :
    bit (rd (twinStep v s p) Reg.fabTwinMap).toNat q =
      if q = p ∧ pairFree s p = true then bit v q else bit (rd s Reg.fabTwinMap).toNat q := by
  have htw : twinned s (2 * p) = bit (rd s Reg.fabTwinMap).toNat p := by
    rw [twinned, Nat.mul_div_cancel_left p (by decide), bit_twin s hp]
  have hlt : putBits (rd s Reg.fabTwinMap).toNat p p (b2n (bit v p)) < 2 ^ 64 := putBits_lt (BitVec.isLt _) (Nat.le_refl p) (by omega)
  have hne : Reg.fabTwinMap ≠ Reg.cisternStat (.tni (2 * p)) := by simp only [Reg.fabTwinMap, Reg.cisternStat, Blk.base]; omega
  rw [twinStep]
  split
  case isTrue hstay =>
    rw [Bool.or_eq_true, beq_iff_eq, htw, Bool.not_eq_true'] at hstay
    split
    case isTrue hq =>
      obtain ⟨rfl, hfree⟩ := hq
      exact hstay.resolve_right (by simp [hfree])
    case isFalse => rfl
  case isFalse hmove =>
    rw [Bool.or_eq_true, not_or, Bool.not_eq_true', Bool.not_eq_false] at hmove
    obtain ⟨-, hfree⟩ := hmove
    rw [rd_setFld_ne _ _ _ hne, rd_wrReg_same h, BitVec.toNat_ofNat, Nat.mod_eq_of_lt hlt, bit_putBits]
    by_cases hq : q = p
    · subst hq; simp [hfree]
    · simp [hq]

/-- The map after the steps of the first n pairs, with what the later pairs' steps still look at. -/
structure TwinsUpTo (s : State) (v n : Nat) (t : State) : Prop where
  wf : t.wf = true
  goodTiles : rd t Reg.fabGoodTiles = rd s Reg.fabGoodTiles
  epOwner : ∀ k, rd t (Reg.rtrEpOwner k) = rd s (Reg.rtrEpOwner k)
  twin : ∀ q, bit (rd t Reg.fabTwinMap).toNat q = if q < n ∧ pairFree s q = true then bit v q else bit (rd s Reg.fabTwinMap).toNat q

/-- The steps before it do not change whether a pair is free. -/
theorem TwinsUpTo.pairFree_eq {s t : State} {v n : Nat} (h : TwinsUpTo s v n t) (p : Nat) : pairFree t p = pairFree s p := by
  simp only [pairFree, good, owner, fld, h.goodTiles, h.epOwner]

/-- The next pair's step carries the map on by one pair. -/
theorem TwinsUpTo.step {s t : State} {v n : Nat} (h : TwinsUpTo s v n t) (hn : n < 32) : TwinsUpTo s v (n + 1) (twinStep v t n) where
  wf := wf_twinStep h.wf v n
  goodTiles := (twinStep_regsOutside t v n _ (fabGoodTiles_not_twin n)).trans h.goodTiles
  epOwner k := (twinStep_regsOutside t v n _ (rtrEpOwner_not_twin k n)).trans (h.epOwner k)
  twin q := by
    rw [bit_twinStep h.wf v hn, h.pairFree_eq, h.twin]
    by_cases hq : q = n
    · subst hq; simp
    · simp [hq, Nat.le_iff_lt_or_eq]

/-- After a write of FAB_TWIN_MAP every free pair has the written bit, and every other pair its old one. -/
theorem twinMapWrite_twins {s : State} (h : s.wf = true) (v : Nat) : TwinsUpTo s v 32 ((List.range 32).foldl (twinStep v) s) :=
  foldl_range_induction 32 ⟨h, rfl, fun _ => rfl, fun q => by simp⟩ fun _ hk _ ht => ht.step hk

/-! ### Registers of eight owners (R66, R82) -/

/-- Owner field j of a register of eight. -/
def ownerField (w j : Nat) : Nat := bits w (8 * j + 7) (8 * j)

/-- What a write of a register of eight owners does for field j. -/
def ownerFieldStep (old v : Nat) (ok : Nat → Nat → Nat → Bool) (w j : Nat) : Nat :=
  if ownerField old j = ownerField v j ∨ ok j (ownerField old j) (ownerField v j) then putBits w (8 * j + 7) (8 * j) (ownerField v j) else w

/-- A write of a register of eight owners is the steps of its fields. -/
theorem ownersWrite_eq_foldl (old v : Nat) (ok : Nat → Nat → Nat → Bool) :
    ownersWrite old v ok = (List.range 8).foldl (ownerFieldStep old v ok) old := rfl

/-- An owner put in place reads back; every other owner is as it was. -/
theorem ownerField_putBits (w v k j : Nat) : ownerField (putBits w (8 * k + 7) (8 * k) (ownerField v k)) j = if j = k then ownerField v k else ownerField w j := by
  rw [ownerField]
  rcases Nat.lt_trichotomy j k with h | rfl | h
  · rw [bits_putBits_below (by omega) (by omega) (by omega), if_neg h.ne, ownerField]
  · rw [bits_putBits_same (by omega), if_pos rfl, ownerField, bits, Nat.mod_mod]
  · rw [bits_putBits_above (by omega) (by omega), if_neg h.ne', ownerField]

/-- The value after the first n fields: a register's, with those fields replaced where the write may. -/
structure OwnersUpTo (old v : Nat) (ok : Nat → Nat → Nat → Bool) (n w : Nat) : Prop where
  lt : w < 2 ^ 64
  owners : ∀ j, ownerField w j =
    if j < n ∧ (ownerField old j = ownerField v j ∨ ok j (ownerField old j) (ownerField v j) = true) then ownerField v j else ownerField old j

/-- A field's step gives that field the new owner where the write may, and leaves every other field. -/
theorem ownerField_ownerFieldStep (old v w k j : Nat) (ok : Nat → Nat → Nat → Bool) :
    ownerField (ownerFieldStep old v ok w k) j =
      if j = k ∧ (ownerField old k = ownerField v k ∨ ok k (ownerField old k) (ownerField v k) = true) then ownerField v k else ownerField w j := by
  rw [ownerFieldStep]
  split
  case isTrue hmay => simp [ownerField_putBits, hmay]
  case isFalse hkeep => simp [hkeep]

theorem ownerFieldStep_lt {old v w k : Nat} {ok : Nat → Nat → Nat → Bool} (h : w < 2 ^ 64) (hk : k < 8) : ownerFieldStep old v ok w k < 2 ^ 64 := by
  rw [ownerFieldStep]
  split
  · exact putBits_lt h (by omega) (by omega)
  · exact h

/-- The next field's step carries the value on by one field. -/
theorem OwnersUpTo.step {old v n w : Nat} {ok : Nat → Nat → Nat → Bool} (h : OwnersUpTo old v ok n w) (hn : n < 8) :
    OwnersUpTo old v ok (n + 1) (ownerFieldStep old v ok w n) := by
  refine ⟨ownerFieldStep_lt h.lt hn, fun j => ?_⟩
  rw [ownerField_ownerFieldStep, h.owners]
  by_cases hj : j = n
  · subst hj; simp
  · simp [hj, Nat.le_iff_lt_or_eq]

/-- A register of eight owners after a write. -/
theorem ownersWrite_owners {old : Nat} (h : old < 2 ^ 64) (v : Nat) (ok : Nat → Nat → Nat → Bool) : OwnersUpTo old v ok 8 (ownersWrite old v ok) := by
  rw [ownersWrite_eq_foldl]
  exact foldl_range_induction 8 ⟨h, fun j => by simp⟩ fun _ hk _ hw => hw.step hk

/-- A register of eight owners written: each field has the new owner where the write may give it, and the old one elsewhere. -/
theorem ownerField_rd_ownersWrite {s : State} (h : s.wf = true) (r v : Nat) (ok : Nat → Nat → Nat → Bool) {j : Nat} (hj : j < 8) :
    ownerField (rd (wrReg s r (BitVec.ofNat 64 (ownersWrite (rd s r).toNat v ok))) r).toNat j =
      if ownerField (rd s r).toNat j = ownerField v j ∨ ok j (ownerField (rd s r).toNat j) (ownerField v j) = true then ownerField v j
      else ownerField (rd s r).toNat j := by
  obtain ⟨hlt, howners⟩ := ownersWrite_owners (rd s r).isLt v ok
  rw [rd_wrReg_same h, BitVec.toNat_ofNat, Nat.mod_eq_of_lt hlt, howners]
  simp [hj]

/-- PHASE_OWNER_WRITE at a router output is one write of eight owners. -/
theorem exec_phaseOwnerWrite {tile port : Nat} (ht : tile < 64) (hp : port < 11) (hi : Bool) (v : Nat) (s : State) :
    exec (.phaseOwnerWrite tile port hi v) s =
      let r := if hi then Reg.rtrPhaseHi tile port else Reg.rtrPhaseLo tile port
      .next (wrReg s r (BitVec.ofNat 64 (ownersWrite (rd s r).toNat v fun _ a b => ownerStopped s a && ownerStopped s b))) := by
  change execPhaseOwnerWrite tile port hi v s = _
  rw [execPhaseOwnerWrite, if_neg (by omega)]

/-- MEP_DESC_OWNER_WRITE of a register that exists is one write of eight owners. -/
theorem exec_mepDescOwnerWrite {mep k : Nat} (hm : mep < 12) (hk : k < 64) (v : Nat) (s : State) :
    exec (.mepDescOwnerWrite mep k v) s =
      let r := Reg.mepDescOwner mep k
      .next (wrReg s r (BitVec.ofNat 64 (ownersWrite (rd s r).toNat v fun j a b =>
        ownerStopped s a && ownerStopped s b && SdBanks (streamDesc s (.mep mep) (8 * k + j)) == 0))) := by
  change execMepDescOwnerWrite mep k v s = _
  rw [execMepDescOwnerWrite, if_neg (by omega)]

/-! ### Stream descriptors (R83, R683) -/

/-- A write of one of the first three slots is held, in place of an earlier one of that slot. -/
theorem exec_streamDescWrite_held {b : Blk} {slot : Nat} (hn : slot / 4 < descCount b) (hs : slot % 4 < 3) (v : Nat) (s : State) :
    exec (.streamDescWrite b slot v) s =
      .next { s with bus := { s.bus with slots := (s.bus.slots.filter fun x => x.1 != descSlot b slot) ++ [(descSlot b slot, BitVec.ofNat 64 v)] } } := by
  change execStreamDescWrite b slot v s = _
  rw [execStreamDescWrite]
  dsimp only
  rw [if_neg (Nat.not_le.mpr hn), if_pos hs]

/-- The four slots of a descriptor, from a control-space offset on, set to its 256 bits. -/
def writeDesc (s : State) (base d : Nat) : State :=
  (List.range 4).foldl (fun s i => wrReg s (base + 8 * i) (BitVec.ofNat 64 (bits d (64 * i + 63) (64 * i)))) s

/-- What the first n slots of a descriptor hold once they are written; the held slots are as they were. -/
structure SlotsUpTo (s : State) (base d n : Nat) (t : State) : Prop where
  wf : t.wf = true
  bus : t.bus = s.bus
  slots : ∀ i < n, rd t (base + 8 * i) = BitVec.ofNat 64 (bits d (64 * i + 63) (64 * i))

/-- The next slot's write carries the descriptor on by one slot. -/
theorem SlotsUpTo.step {s t : State} {base d n : Nat} (h : SlotsUpTo s base d n t) :
    SlotsUpTo s base d (n + 1) (wrReg t (base + 8 * n) (BitVec.ofNat 64 (bits d (64 * n + 63) (64 * n)))) := by
  refine ⟨wf_wrReg h.wf _ _, h.bus, fun i hi => ?_⟩
  by_cases hin : i = n
  · subst hin; exact rd_wrReg_same h.wf _ _
  · rw [rd_wrReg_ne _ _ (by omega), h.slots i (by omega)]

/-- All four slots of a descriptor written. -/
theorem writeDesc_slots {s : State} (h : s.wf = true) (base d : Nat) : SlotsUpTo s base d 4 (writeDesc s base d) :=
  foldl_range_induction 4 ⟨h, rfl, fun i hi => absurd hi (Nat.not_lt_zero i)⟩ fun _ _ _ ht => ht.step

/-- What a slot of the descriptor at `base` is to hold: the value held for it, or its present one. -/
def slotWord (s : State) (base i : Nat) : Nat :=
  match s.bus.slots.find? fun x => x.1 == base + 8 * i with
  | some x => x.2.toNat
  | none => (rd s (base + 8 * i)).toNat

/-- The descriptor that a write of v to the fourth slot makes. -/
def newDesc (s : State) (base v : Nat) : Nat :=
  descMask (slotWord s base 0 + slotWord s base 1 * 2 ^ 64 + slotWord s base 2 * 2 ^ 128 + v % 2 ^ 64 * 2 ^ 192)

/-- The state with the slots held for the descriptor at `base` let go. -/
def letGo (s : State) (base : Nat) : State :=
  { s with bus := { s.bus with slots := s.bus.slots.filter fun x => ! (decide (base ≤ x.1) && decide (x.1 < base + 32)) } }

/-- A write of the fourth slot lets the held slots go, and writes the descriptor as a whole unless it is locked. -/
theorem exec_streamDescWrite_fourth {b : Blk} {n : Nat} (hn : n < descCount b) (v : Nat) (s : State) :
    exec (.streamDescWrite b (4 * n + 3) v) s =
      let base := descSlot b (4 * n)
      .next (if descLocked s b n (newDesc s base v) then letGo s base else writeDesc (letGo s base) base (newDesc s base v)) := by
  have hdesc : (4 * n + 3) / 4 = n := by omega
  have hslot : (4 * n + 3) % 4 = 3 := by omega
  change execStreamDescWrite b (4 * n + 3) v s = _
  rw [execStreamDescWrite, hdesc, hslot]
  dsimp only
  rw [if_neg (Nat.not_le.mpr hn), if_neg (Nat.lt_irrefl 3)]
  rfl

section ThreeSlotsHeld

variable {s : State} {base : Nat} {w0 w1 w2 : Word} (h : s.bus.slots = [(base, w0), (base + 8, w1), (base + 16, w2)])
include h

/-- The new descriptor takes its first three slots from the held ones. -/
theorem newDesc_of_held (v : Nat) :
    newDesc s base v = descMask (w0.toNat + w1.toNat * 2 ^ 64 + w2.toNat * 2 ^ 128 + v % 2 ^ 64 * 2 ^ 192) := by
  simp [newDesc, slotWord, h]

/-- No slot stays held. -/
theorem letGo_slots_of_held : (letGo s base).bus.slots = [] := by
  simp [letGo, h]

end ThreeSlotsHeld

/-- Settles O12: each register by the lemma of its write above. -/
theorem configurationRegistersChangeUnderTheirRules : Obligations.ConfigurationRegistersChangeUnderTheirRules := by
  refine ⟨fun v s hw hl => ?pkgInfo, fun v s hl => exec_fabPkgInfoWrite_running hl v, fun v s hw => ?twin, fun tile port v hi s hw ht hp => ?phase,
    fun mep k v s hw hm hk => ?mep, fun b slot v s hn hs => ?held, fun b n v w0 w1 w2 s hw hn hslots hfree => ?last⟩
  case pkgInfo =>
    obtain ⟨t, he, hr⟩ := exec_fabPkgInfoWrite_held hl v
    refine ⟨t, he, (hr _).trans (rd_wrReg_same hw _ _), fun a ha => (hr a).trans (wrReg_regsOutside s _ _ a ha)⟩
  case twin =>
    refine ⟨_, exec_twinMapWrite v s, fun p hp => ?_⟩
    rw [bit_twin _ hp, bit_twin _ hp, (twinMapWrite_twins hw v).twin]
    simp [hp]
  case phase =>
    refine ⟨_, exec_phaseOwnerWrite ht hp hi v s, wrReg_regsOutside s _ _, fun j hj => ?_⟩
    have h := ownerField_rd_ownersWrite hw (if hi then Reg.rtrPhaseHi tile port else Reg.rtrPhaseLo tile port) v
      (fun _ a b => ownerStopped s a && ownerStopped s b) hj
    simpa only [ownerField, Bool.and_eq_true] using h
  case mep =>
    refine ⟨_, exec_mepDescOwnerWrite hm hk v s, wrReg_regsOutside s _ _, fun j hj => ?_⟩
    have h := ownerField_rd_ownersWrite hw (Reg.mepDescOwner mep k) v
      (fun j a b => ownerStopped s a && ownerStopped s b && SdBanks (streamDesc s (.mep mep) (8 * k + j)) == 0) hj
    simpa only [ownerField, Bool.and_eq_true, beq_iff_eq, and_assoc] using h
  case held =>
    exact ⟨_, exec_streamDescWrite_held hn hs v s, only_bus s _, List.mem_append_right _ (List.mem_singleton_self _)⟩
  case last =>
    rw [← newDesc_of_held hslots] at hfree ⊢
    obtain ⟨_, hbus, hrd⟩ := writeDesc_slots (s := letGo s (descSlot b (4 * n))) hw (descSlot b (4 * n)) (newDesc s (descSlot b (4 * n)) v)
    refine ⟨_, by rw [exec_streamDescWrite_fourth hn]; dsimp only; rw [hfree, if_neg Bool.false_ne_true], ?_, hrd⟩
    rw [hbus, letGo_slots_of_held hslots]

end Sys2Proof.Machine

namespace Sys2Proof.Machine

/-! ### Descriptors in an active bank (R83) -/

/-- A descriptor is what its four slots hold. -/
theorem streamDesc_of_regs_eq {s u : State} (h : u.regs = s.regs) (b : Blk) (n : Nat) : streamDesc u b n = streamDesc s b n := by
  simp only [streamDesc, rd_of_regs_eq h]

/-- The descriptor of a running tenant's active bank is locked, whatever is written to it. -/
theorem descLocked_of_active {s : State} {b : Blk} {n : Nat} (h1 : 1 ≤ descTenant s b n) (h63 : descTenant s b n ≤ 63)
    (hrun : schState s (descTenant s b n) = 2) (hbank : inBank (streamDesc s b n) (schBank s (descTenant s b n)) = true) (new : Nat) :
    descLocked s b n new = true := by
  simp [descLocked, h1, h63, hrun, hbank]

/-- Settles O59: the first three slots are held and the fourth, finding the descriptor locked, lets them go: both change the holders alone. -/
theorem activeDescriptorsAreLocked : Obligations.ActiveDescriptorsAreLocked := by
  intro b n i v s hn hi t h1 h63 hrun hbank
  by_cases hslot : i < 3
  · refine ⟨_, exec_streamDescWrite_held (by omega) (by omega) v s, rfl, streamDesc_of_regs_eq rfl b n, only_bus s _⟩
  · obtain rfl : i = 3 := by omega
    have hlock := descLocked_of_active h1 h63 hrun hbank (newDesc s (descSlot b (4 * n)) v)
    refine ⟨letGo s (descSlot b (4 * n)), ?_, rfl, streamDesc_of_regs_eq rfl b n, only_bus s _⟩
    rw [exec_streamDescWrite_fourth hn]
    dsimp only
    rw [if_pos hlock]

/-! ### An idle cycle (log 2) -/

/-- The next cycle is one more than the present one. -/
theorem later_succ (s : State) : later s (s.clk.now + 1) = { s with clk := { s.clk with now := s.clk.now + 1 } } := by
  rw [later, Nat.max_eq_right (Nat.le_succ _)]

/-- With nothing on its way a cycle of time changes the time alone. -/
theorem tick_of_quiet {s : State} (hrun : s.clk.run = true) (hq : quiet s = true) : tick s = later s (s.clk.now + 1) := by
  have hstep := advanceTo_quiet (s.clk.now + 1) hq
  rw [advanceTo, if_pos (Nat.lt_succ_self _), later_succ] at hstep
  rw [tick, hrun, Bool.not_true, if_neg Bool.false_ne_true, later_succ]
  dsimp only
  split
  · rfl
  · exact hstep

/-- With no flit in a router no router output does anything. -/
theorem routersStep_of_no_flits {s : State} (h : s.dyn.vcs = []) : routersStep s = s := by
  simp [routersStep, h]

/-- Start-up does nothing by itself but in its stages 2 to 7. -/
theorem bootStep_of_no_stage {s : State} (h : stage s < 2 ∨ 7 < stage s) : bootStep s = s := by
  rw [bootStep]
  split
  · rfl
  · split
    · rfl
    · split
      case h_7 => rfl
      all_goals omega

/-- Settles O2: each part of an idle cycle finds nothing to do but to move time on. -/
theorem idleStepLetsTimePass : Obligations.IdleStepLetsTimePass := by
  intro s hp
  rw [step_of_idle hp]
  refine ⟨⟨_, rfl, ((idleStep_frame s).only .pending (by decide)).trans hp⟩, fun hrun hstage hadds harmed hvcs hrestore => ?_⟩
  have hq : quiet s = true := by simp [quiet, hadds, harmed, hrestore]
  have hrouters : routersStep (later s (s.clk.now + 1)) = later s (s.clk.now + 1) := routersStep_of_no_flits hvcs
  have hboot : bootStep (later s (s.clk.now + 1)) = later s (s.clk.now + 1) := bootStep_of_no_stage hstage
  rw [idleStep, tick_of_quiet hrun hq]
  dsimp only
  rw [hrouters, ite_self, hboot, later_succ]

end Sys2Proof.Machine

namespace Sys2Proof.Machine

/-! ### A tenant's schedule registers (R68, R69) -/

@[simp] theorem rd_setTen (s : State) (t : Nat) (x : SchTenant) (a : Nat) : rd (setTen s t x) a = rd s a := rfl

/-- A change of a tenant's timing keeps the canonical form. -/
theorem wf_setTen {s : State} (h : s.wf = true) (t : Nat) (x : SchTenant) : (setTen s t x).wf = true := h

/-- A field apart from the one written is as it was. -/
theorem fld_setFld_apart {s : State} (h : s.wf = true) (a : Nat) {f g : Fld} (v : Nat) (hf : f.lo ≤ f.hi ∧ f.hi < 64) (hg : g.lo ≤ g.hi)
    (ha : Apart f g) : fld (setFld s a f v) a g = fld s a g := by
  rw [fld, rd_setFld_same _ _ _ _ h, getF_setF_apart hf hg ha, fld]

/-- A record that is not an unlisted key's reads back from any table. -/
theorem eGet_eSet_listed {α : Type} [DecidableEq α] {z v : α} (h : v ≠ z) (k : Nat) (t : List (Nat × α)) : eGet z k (eSet z k v t) = v := by
  induction t with
  | nil => simp [eGet, eSet, tSet, tGet, h]
  | cons e r ih =>
    by_cases he : e.1 < k
    · simpa [eGet, eSet, tSet, tGet, he, he.ne] using ih
    · simp [eGet, eSet, tSet, tGet, he, h]

theorem fabSchCtx_ne_fabSchArm {n : Nat} (h : n < 64) (m : Nat) : Reg.fabSchCtx n ≠ Reg.fabSchArm m := by
  simp only [Reg.fabSchCtx, Reg.fabSchArm, Blk.base]; omega

/-- Changes one after the other touch no other register than each of them. -/
theorem RegsOutside.trans {r : List Nat} {s t u : State} (h : RegsOutside r s t) (k : RegsOutside r t u) : RegsOutside r s u :=
  fun a ha => (k a ha).trans (h a ha)

theorem RegsOutside.mono {r q : List Nat} {s t : State} (h : RegsOutside r s t) (hq : r ⊆ q) : RegsOutside q s t :=
  fun a ha => h a fun hr => ha (hq hr)

theorem regsOutside_of_regs_eq {r : List Nat} {s t : State} (h : t.regs = s.regs) : RegsOutside r s t := fun a _ => rd_of_regs_eq h a

/-- A field write touches its own register alone. -/
theorem setFld_regsOutside {r : List Nat} (s : State) {a : Nat} (f : Fld) (v : Nat) (h : a ∈ r) : RegsOutside r s (setFld s a f v) :=
  fun _ hc => rd_setFld_ne s f v fun e => hc (e ▸ h)

theorem setTen_regsOutside (r : List Nat) (s : State) (t : Nat) (x : SchTenant) : RegsOutside r s (setTen s t x) := fun _ _ => rfl

/-- The registers a tenant's arm is held in. -/
abbrev armRegs (t : Nat) : List Nat := [Reg.fabSchArm t, Reg.fabSchCtx t]

/-- TIME set and ARMED cleared. -/
def timeHeld (s : State) (t time : Nat) : State := setFld (setFld s (Reg.fabSchArm t) FabSchArm.TIME time) (Reg.fabSchCtx t) FabSchCtx.ARMED 0

theorem timeHeld_regsOutside (s : State) (t time : Nat) : RegsOutside (armRegs t) s (timeHeld s t time) :=
  (setFld_regsOutside s _ _ (by simp)).trans (setFld_regsOutside _ _ _ (by simp))

section TimeHeld

variable {s : State} (h : s.wf = true) {t : Nat} (ht : t < 64)
include h

theorem wf_timeHeld (t time : Nat) : (timeHeld s t time).wf = true := setFld_wf (setFld_wf h)

include ht

theorem rd_timeHeld_arm (time : Nat) : rd (timeHeld s t time) (Reg.fabSchArm t) = setF (rd s (Reg.fabSchArm t)) FabSchArm.TIME time := by
  rw [timeHeld, rd_setFld_ne _ _ _ (fabSchCtx_ne_fabSchArm ht t).symm, rd_setFld_same _ _ _ _ h]

theorem rd_timeHeld_ctx (time : Nat) : rd (timeHeld s t time) (Reg.fabSchCtx t) = setF (rd s (Reg.fabSchCtx t)) FabSchCtx.ARMED 0 := by
  rw [timeHeld, rd_setFld_same _ _ _ _ (setFld_wf h), rd_setFld_ne _ _ _ (fabSchCtx_ne_fabSchArm ht t)]

theorem schState_timeHeld (time : Nat) : schState (timeHeld s t time) t = schState s t := by
  rw [schState, fld, rd_timeHeld_ctx h ht, getF_setF_apart (by decide) (by decide) (by decide)]
  rfl

end TimeHeld

/-- An arm's TIME held and its check begun (R69, R70). -/
def armBegun (s : State) (t time : Nat) : State := setTen (timeHeld s t time) t { schTen s t with checking := true, armAt := s.clk.now }

theorem execSchArm_eq {t time : Nat} (h0 : 0 < t) (h64 : t < 64) (ht : 0 < time) (s : State) : execSchArm t time s = .next (armBegun s t time) := by
  rw [execSchArm, if_neg (by omega)]
  rfl

theorem checking_armBegun (s : State) (t time : Nat) : (schTen (armBegun s t time) t).checking = true := by
  have hne : ({ schTen s t with checking := true, armAt := s.clk.now } : SchTenant) ≠ {} := fun e => Bool.noConfusion (congrArg SchTenant.checking e)
  exact congrArg SchTenant.checking (eGet_eSet_listed hne t s.sch.ten)

/-! ### A pending takeover dropped (R69) -/

/-- A tenant that waited to start waits no more. -/
def waitEnded (s : State) (t : Nat) : State := if schState s t = 1 then setFld s (Reg.fabSchCtx t) FabSchCtx.STATE 0 else s

theorem waitEnded_sch (s : State) (t : Nat) : (waitEnded s t).sch = s.sch := by
  rw [waitEnded]; split <;> rfl

theorem waitEnded_regsOutside (s : State) (t : Nat) : RegsOutside (armRegs t) s (waitEnded s t) := by
  rw [waitEnded]
  split
  · exact setFld_regsOutside _ _ _ (by simp)
  · exact regsOutside_of_regs_eq rfl

/-- A dropped takeover: TIME and ARMED cleared, the wait for it ended, and its check given up. -/
theorem schDrop_eq (s : State) (t : Nat) :
    schDrop s t = setTen (waitEnded (timeHeld s t 0) t) t { schTen s t with checking := false } := by
  have hten : schTen (waitEnded (timeHeld s t 0) t) t = schTen s t := by rw [schTen, waitEnded_sch]; rfl
  rw [← hten]
  rfl

theorem schDrop_regsOutside (s : State) (t : Nat) : RegsOutside (armRegs t) s (schDrop s t) := by
  rw [schDrop_eq]
  exact ((timeHeld_regsOutside s t 0).trans (waitEnded_regsOutside _ t)).trans (setTen_regsOutside _ _ _ _)

theorem schDrop_sch (s : State) (t : Nat) :
    (schDrop s t).sch = { s.sch with ten := eSet {} t { schTen s t with checking := false } s.sch.ten } := by
  rw [schDrop_eq, setTen, waitEnded_sch]
  rfl

section SchDrop

variable {s : State} (h : s.wf = true) {t : Nat} (ht : t < 64)
include h

theorem wf_schDrop (t : Nat) : (schDrop s t).wf = true := (schDrop_keeps (w := [.regs, .sch]) (by decide) (by decide) (.refl _ s)).wf h

include ht

theorem rd_schDrop_arm : rd (schDrop s t) (Reg.fabSchArm t) = setF (rd s (Reg.fabSchArm t)) FabSchArm.TIME 0 := by
  rw [schDrop_eq, rd_setTen, waitEnded]
  split
  · rw [rd_setFld_ne _ _ _ (fabSchCtx_ne_fabSchArm ht t).symm, rd_timeHeld_arm h ht]
  · exact rd_timeHeld_arm h ht 0

theorem rd_schDrop_ctx : rd (schDrop s t) (Reg.fabSchCtx t) =
    if schState s t = 1 then setF (setF (rd s (Reg.fabSchCtx t)) FabSchCtx.ARMED 0) FabSchCtx.STATE 0
    else setF (rd s (Reg.fabSchCtx t)) FabSchCtx.ARMED 0 := by
  rw [schDrop_eq, rd_setTen, waitEnded, schState_timeHeld h ht]
  split
  · rw [rd_setFld_same _ _ _ _ (wf_timeHeld h t 0), rd_timeHeld_ctx h ht]
  · exact rd_timeHeld_ctx h ht 0

theorem fld_schDrop_time : fld (schDrop s t) (Reg.fabSchArm t) FabSchArm.TIME = 0 := by
  rw [fld, rd_schDrop_arm h ht, getF_setF_same (by decide) (by decide)]
  rfl

theorem flag_schDrop_armed : flag (schDrop s t) (Reg.fabSchCtx t) FabSchCtx.ARMED = false := by
  have hz : fld (schDrop s t) (Reg.fabSchCtx t) FabSchCtx.ARMED = 0 := by
    rw [fld, rd_schDrop_ctx h ht]
    split
    · rw [getF_setF_apart (by decide) (by decide) (by decide), getF_setF_same (by decide) (by decide)]; rfl
    · rw [getF_setF_same (by decide) (by decide)]; rfl
  rw [flag, hz]
  rfl

theorem schState_schDrop : schState (schDrop s t) t = if schState s t = 1 then 0 else schState s t := by
  rw [schState, fld, rd_schDrop_ctx h ht]
  split
  · rw [getF_setF_same (by decide) (by decide)]; rfl
  · rw [getF_setF_apart (by decide) (by decide) (by decide)]; rfl

/-- A field that is neither ARMED nor STATE is as it was. -/
theorem fld_schDrop_apart {f : Fld} (hf : f.lo ≤ f.hi) (ha : Apart FabSchCtx.ARMED f) (hs : Apart FabSchCtx.STATE f) :
    fld (schDrop s t) (Reg.fabSchCtx t) f = fld s (Reg.fabSchCtx t) f := by
  rw [fld, rd_schDrop_ctx h ht]
  split
  · rw [getF_setF_apart (by decide) hf hs, getF_setF_apart (by decide) hf ha]; rfl
  · rw [getF_setF_apart (by decide) hf ha]; rfl

end SchDrop

/-! ### The end of an arm's check (R70) -/

/-- A passed check: ARMED rises, and a tenant that does not run waits to start. -/
def checkPassed (s : State) (t : Nat) : State :=
  let u := setFld (setTen s t { schTen s t with checking := false }) (Reg.fabSchCtx t) FabSchCtx.ARMED 1
  if schState u t = 2 then u else setFld u (Reg.fabSchCtx t) FabSchCtx.STATE 1

/-- The end of an arm's check that found the lowest failure e, 0 for none. -/
def checkEnded (s : State) (t e : Nat) : State :=
  let u := setFld s (Reg.fabSchCtx t) FabSchCtx.ARMERR e
  if e ≠ 0 then schDrop u t else checkPassed u t

theorem execSchArmCheckDone_eq {t : Nat} (h0 : 0 < t) (h64 : t < 64) {s : State} (hc : (schTen s t).checking = true) :
    execSchArmCheckDone t s = .next (checkEnded s t (armCheck s t)) := by
  rw [execSchArmCheckDone, hc, if_neg (by simp; omega)]
  rfl

theorem checkPassed_regsOutside (s : State) (t : Nat) : RegsOutside [Reg.fabSchCtx t] s (checkPassed s t) := by
  have harmed := (setTen_regsOutside [Reg.fabSchCtx t] s t { schTen s t with checking := false }).trans
    (setFld_regsOutside _ FabSchCtx.ARMED 1 (List.mem_singleton_self _))
  rw [checkPassed]
  dsimp only
  split
  · exact harmed
  · exact harmed.trans (setFld_regsOutside _ _ _ (List.mem_singleton_self _))

theorem checkEnded_regsOutside (s : State) (t e : Nat) : RegsOutside (armRegs t) s (checkEnded s t e) := by
  have hset : RegsOutside (armRegs t) s (setFld s (Reg.fabSchCtx t) FabSchCtx.ARMERR e) := setFld_regsOutside _ _ _ (by simp)
  refine hset.trans ?_
  rw [checkEnded]
  split
  · exact schDrop_regsOutside _ t
  · exact (checkPassed_regsOutside _ t).mono (by simp)

theorem checkEnded_mbx (s : State) (t e : Nat) : (checkEnded s t e).mbx = s.mbx := by
  rw [checkEnded]
  split
  · exact (schDrop_keeps (w := [.regs, .sch]) (by decide) (by decide) (.refl _ _)).only .mbx (by decide)
  · rw [checkPassed]
    dsimp only
    split <;> rfl

section CheckEnded

variable {s : State} (h : s.wf = true) {t : Nat} (ht : t < 64)
include h

theorem rd_checkPassed_ctx (t : Nat) : rd (checkPassed s t) (Reg.fabSchCtx t) =
    if schState s t = 2 then setF (rd s (Reg.fabSchCtx t)) FabSchCtx.ARMED 1
    else setF (setF (rd s (Reg.fabSchCtx t)) FabSchCtx.ARMED 1) FabSchCtx.STATE 1 := by
  have hwf := wf_setTen h t { schTen s t with checking := false }
  have hstate : schState (setFld (setTen s t { schTen s t with checking := false }) (Reg.fabSchCtx t) FabSchCtx.ARMED 1) t = schState s t :=
    fld_setFld_apart hwf _ _ (by decide) (by decide) (by decide)
  rw [checkPassed, hstate]
  dsimp only
  split
  · rw [rd_setFld_same _ _ _ _ hwf, rd_setTen]
  · rw [rd_setFld_same _ _ _ _ (setFld_wf hwf), rd_setFld_same _ _ _ _ hwf, rd_setTen]

/-- STATE is not touched by the record of the failure. -/
theorem schState_armerr (t e : Nat) : schState (setFld s (Reg.fabSchCtx t) FabSchCtx.ARMERR e) t = schState s t :=
  fld_setFld_apart h _ _ (by decide) (by decide) (by decide)

include ht

theorem fld_checkEnded_armerr (e : Nat) : fld (checkEnded s t e) (Reg.fabSchCtx t) FabSchCtx.ARMERR = e % 2 ^ fldWidth FabSchCtx.ARMERR := by
  have hset : fld (setFld s (Reg.fabSchCtx t) FabSchCtx.ARMERR e) (Reg.fabSchCtx t) FabSchCtx.ARMERR = e % 2 ^ fldWidth FabSchCtx.ARMERR :=
    fld_setFld_same _ _ _ h (by decide) (by decide)
  rw [← hset, checkEnded]
  split
  · exact fld_schDrop_apart (setFld_wf h) ht (by decide) (by decide) (by decide)
  · rw [fld, rd_checkPassed_ctx (setFld_wf h)]
    split
    · exact getF_setF_apart (by decide) (by decide) (by decide)
    · rw [getF_setF_apart (by decide) (by decide) (by decide), getF_setF_apart (by decide) (by decide) (by decide)]; rfl

theorem flag_checkEnded_armed (e : Nat) : flag (checkEnded s t e) (Reg.fabSchCtx t) FabSchCtx.ARMED = decide (e = 0) := by
  rw [checkEnded]
  by_cases he : e = 0
  · have hone : fld (checkPassed (setFld s (Reg.fabSchCtx t) FabSchCtx.ARMERR e) t) (Reg.fabSchCtx t) FabSchCtx.ARMED = 1 := by
      rw [fld, rd_checkPassed_ctx (setFld_wf h)]
      split
      · rw [getF_setF_same (by decide) (by decide)]; rfl
      · rw [getF_setF_apart (by decide) (by decide) (by decide), getF_setF_same (by decide) (by decide)]; rfl
    simp [he, flag] at hone ⊢
    exact hone
  · simp only [he, ne_eq, not_false_eq_true, if_true, decide_false]
    exact flag_schDrop_armed (setFld_wf h) ht

theorem fld_checkEnded_time (e : Nat) : fld (checkEnded s t e) (Reg.fabSchArm t) FabSchArm.TIME =
    if e = 0 then fld s (Reg.fabSchArm t) FabSchArm.TIME else 0 := by
  have hne := (fabSchCtx_ne_fabSchArm ht t).symm
  rw [checkEnded]
  by_cases he : e = 0
  · simp only [he, ne_eq, not_true_eq_false, if_false, if_true]
    rw [fld, checkPassed_regsOutside _ t _ (by simpa using hne), rd_setFld_ne _ _ _ hne]
    rfl
  · simp only [he, ne_eq, not_false_eq_true, if_true, if_false]
    exact fld_schDrop_time (setFld_wf h) ht

theorem schState_checkEnded (e : Nat) : schState (checkEnded s t e) t =
    if e = 0 then (if schState s t = 2 then 2 else 1) else if schState s t = 1 then 0 else schState s t := by
  have hsame := schState_armerr h t e
  rw [checkEnded]
  by_cases he : e = 0
  · simp only [he, ne_eq, not_true_eq_false, if_false, if_true] at hsame ⊢
    rw [schState, fld, rd_checkPassed_ctx (setFld_wf h), hsame]
    split
    case isTrue hrun =>
      rw [getF_setF_apart (by decide) (by decide) (by decide)]
      exact hsame.trans hrun
    case isFalse => rw [getF_setF_same (by decide) (by decide)]; rfl
  · simp only [he, ne_eq, not_false_eq_true, if_true, if_false]
    rw [schState_schDrop (setFld_wf h) ht, hsame]

end CheckEnded

/-! ### Takeover and start (R73) -/

/-- The cycle of a running tenant's armed takeover: the first round boundary at or after TIME. -/
def takeoverCycle (s : State) (t : Nat) : Nat :=
  nextAt s t 0 + ceilDiv (cycleAt (fld s (Reg.fabSchArm t) FabSchArm.TIME) - nextAt s t 0) (roundLen s t) * roundLen s t

theorem exec_schTakeover {s : State} {t : Nat} (hq : quiet s = true) (harmed : flag s (Reg.fabSchCtx t) FabSchCtx.ARMED = true)
    (hrun : schState s t = 2) : exec (.schTakeover t) s = .next (switchBank (later s (takeoverCycle s t)) t) := by
  rw [← advanceTo_quiet _ hq]
  change execSchTakeover t s = _
  rw [execSchTakeover, harmed, hrun]
  rfl

/-- A tenant's timing after a switch: its entry of the table, with the counter at 0 in the present cycle. -/
theorem schTen_switchBank (s : State) (t : Nat) : schTen (switchBank s t) t = eGet {} t (eSet {} t
    { schTen s t with start0 := s.clk.now, frozen := 0, quantum := none,
                      slips := if bankEmpty s t (1 - schBank s t) then [] else (schTen s t).slips } s.sch.ten) := rfl

/-- A running tenant 1 with a takeover armed in cycle 0, whose timing stands in a table that lists it twice. -/
def doubledTiming : State :=
  { regs := [(Reg.fabSchCtx 1, 9)], sch := { ten := [(1, {}), (1, { start0 := 1 })] } }

theorem takeoverCycle_doubledTiming : takeoverCycle doubledTiming 1 = 0 := by decide +kernel

/-- The takeover of `doubledTiming` gives tenant 1 the timing of an unlisted tenant: the first entry goes, and the second shows. -/
theorem schTen_doubledTiming_takeover : (schTen (switchBank (later doubledTiming 0) 1) 1).start0 = 1 := by
  rw [schTen_switchBank, show (schTen (later doubledTiming 0) 1).slips = [] from rfl, ite_self]
  rfl

/-- Refutes O13: a canonical state has its registers and its memory in order, and not its table of tenants' timing. `doubledTiming` lists tenant 1
twice, and after its takeover in cycle 0 the counter starts at 1, from the second entry, and not at 0. With a canonical table a switch does what
the statement says: `switchBank_switched`. -/
theorem not_scheduleArmsAndSwitches : ¬ Obligations.ScheduleArmsAndSwitches := by
  intro h
  obtain ⟨_, _, _, _, _, _, _, _, htakeover, _⟩ := h
  have harmed : flag doubledTiming (Reg.fabSchCtx 1) FabSchCtx.ARMED = true := by decide +kernel
  have hrun : schState doubledTiming 1 = 2 := by decide +kernel
  obtain ⟨u, hu, _, _, hswitched⟩ := htakeover 1 doubledTiming (by decide +kernel) rfl (by decide) (by decide) harmed hrun
  obtain ⟨_, _, _, _, _, _, _, hstart, _, _⟩ := hswitched
  rw [exec_schTakeover rfl harmed hrun, takeoverCycle_doubledTiming] at hu
  cases hu
  change _ = takeoverCycle doubledTiming 1 at hstart
  rw [schTen_doubledTiming_takeover, takeoverCycle_doubledTiming] at hstart
  exact absurd hstart (by decide)

/-! With the timing table canonical too, a switch does what R73 says of it. -/

/-- The registers a switch writes: ROUNDQ_ACT, BANK, ARMED, TIME and STATE. -/
def switchRegs (s : State) (t : Nat) : State :=
  let c := Reg.fabSchCtx t
  setFld (setFld (setFld (setFld (setFld s c FabSchCtx.ROUNDQ_ACT (fld s c FabSchCtx.ROUNDQ)) c FabSchCtx.BANK (1 - schBank s t)) c
    FabSchCtx.ARMED 0) (Reg.fabSchArm t) FabSchArm.TIME 0) c FabSchCtx.STATE (if bankEmpty s t (1 - schBank s t) then 0 else 2)

theorem rd_switchBank (s : State) (t a : Nat) : rd (switchBank s t) a = rd (switchRegs s t) a :=
  rd_of_regs_eq (by dsimp only [switchBank, switchRegs, setTen]) a

theorem switchRegs_regsOutside (s : State) (t : Nat) : RegsOutside (armRegs t) s (switchRegs s t) := by
  have hctx (u : State) (f : Fld) (v : Nat) : RegsOutside (armRegs t) u (setFld u (Reg.fabSchCtx t) f v) := setFld_regsOutside _ _ _ (by simp)
  have harm (u : State) (v : Nat) : RegsOutside (armRegs t) u (setFld u (Reg.fabSchArm t) FabSchArm.TIME v) := setFld_regsOutside _ _ _ (by simp)
  exact (((hctx _ _ _).trans (hctx _ _ _)).trans (hctx _ _ _)).trans ((harm _ _).trans (hctx _ _ _))

section SwitchBank

variable {s : State} (h : s.wf = true) {t : Nat} (ht : t < 64)
include h ht

theorem rd_switchRegs_arm : rd (switchRegs s t) (Reg.fabSchArm t) = setF (rd s (Reg.fabSchArm t)) FabSchArm.TIME 0 := by
  have hne := (fabSchCtx_ne_fabSchArm ht t).symm
  rw [switchRegs, rd_setFld_ne _ _ _ hne, rd_setFld_same _ _ _ _ (setFld_wf (setFld_wf (setFld_wf h))), rd_setFld_ne _ _ _ hne,
    rd_setFld_ne _ _ _ hne, rd_setFld_ne _ _ _ hne]

theorem rd_switchRegs_ctx : rd (switchRegs s t) (Reg.fabSchCtx t) =
    setF (setF (setF (setF (rd s (Reg.fabSchCtx t)) FabSchCtx.ROUNDQ_ACT (fld s (Reg.fabSchCtx t) FabSchCtx.ROUNDQ)) FabSchCtx.BANK (1 - schBank s t))
      FabSchCtx.ARMED 0) FabSchCtx.STATE (if bankEmpty s t (1 - schBank s t) then 0 else 2) := by
  rw [switchRegs, rd_setFld_same _ _ _ _ (setFld_wf (setFld_wf (setFld_wf (setFld_wf h)))), rd_setFld_ne _ _ _ (fabSchCtx_ne_fabSchArm ht t),
    rd_setFld_same _ _ _ _ (setFld_wf (setFld_wf h)), rd_setFld_same _ _ _ _ (setFld_wf h), rd_setFld_same _ _ _ _ h]

theorem schBank_switchRegs : schBank (switchRegs s t) t = 1 - schBank s t := by
  rw [schBank, fld, rd_switchRegs_ctx h ht, getF_setF_apart (by decide) (by decide) (by decide), getF_setF_apart (by decide) (by decide) (by decide),
    getF_setF_same (by decide) (by decide)]
  exact Nat.mod_eq_of_lt (Nat.lt_succ_of_le (Nat.sub_le _ _))

theorem flag_switchRegs_armed : flag (switchRegs s t) (Reg.fabSchCtx t) FabSchCtx.ARMED = false := by
  rw [flag, fld, rd_switchRegs_ctx h ht, getF_setF_apart (by decide) (by decide) (by decide), getF_setF_same (by decide) (by decide)]
  rfl

theorem fld_switchRegs_time : fld (switchRegs s t) (Reg.fabSchArm t) FabSchArm.TIME = 0 := by
  rw [fld, rd_switchRegs_arm h ht, getF_setF_same (by decide) (by decide)]
  rfl

theorem fld_switchRegs_roundqAct :
    fld (switchRegs s t) (Reg.fabSchCtx t) FabSchCtx.ROUNDQ_ACT = fld s (Reg.fabSchCtx t) FabSchCtx.ROUNDQ := by
  rw [fld, rd_switchRegs_ctx h ht, getF_setF_apart (by decide) (by decide) (by decide), getF_setF_apart (by decide) (by decide) (by decide),
    getF_setF_apart (by decide) (by decide) (by decide), getF_setF_same (by decide) (by decide)]
  exact Nat.mod_eq_of_lt (getF_lt _ _)

theorem schState_switchRegs : schState (switchRegs s t) t = if bankEmpty s t (1 - schBank s t) then 0 else 2 := by
  rw [schState, fld, rd_switchRegs_ctx h ht, getF_setF_same (by decide) (by decide)]
  split <;> rfl

/-- A switch in the present cycle does what R73 says of it. -/
theorem switchBank_switched (hten : tWf (fun _ => ({} : SchTenant)) s.sch.ten = true) : Switched s (switchBank s t) t s.clk.now := by
  have hx := (schTen_switchBank s t).trans (eGet_eSet_same _ _ _ _ hten)
  have hclk : (switchBank s t).clk = s.clk := (switchBank_keeps (w := [.regs, .sch]) (by decide) (by decide) (.refl _ s)).only .clk (by decide)
  have hfld (a : Nat) (f : Fld) : fld (switchBank s t) a f = fld (switchRegs s t) a f := by rw [fld, rd_switchBank, fld]
  refine ⟨fun a ha => (rd_switchBank s t a).trans (switchRegs_regsOutside s t a ha), ?_, ?_, ?_, ?_, ?_, ?_, ?_, ?_, ?_⟩
  · exact congrArg Clock.now hclk
  · rw [schBank, hfld, ← schBank, schBank_switchRegs h ht]
  · rw [flag, hfld, ← flag, flag_switchRegs_armed h ht]
  · rw [hfld, fld_switchRegs_time h ht]
  · rw [hfld, fld_switchRegs_roundqAct h ht]
  · rw [schState, hfld, ← schState, schState_switchRegs h ht]
  · rw [hx]
  · rw [hx]
  · rw [hx]

end SwitchBank

end Sys2Proof.Machine

namespace Sys2Proof.Machine

/-! ### Slips (R90-R92, R96) -/

/-- A unit that lacks a beat sends its slip message, whole where no injection meets it. -/
theorem exec_slipAssert {n tile : Nat} {s : State} (hslips : ((slipUnits tile).any fun b => slips s n b) = true)
    (hinj : injArmed s (.rtr tile) .spchk (fun _ => true) = false) :
    exec (.slipAssert n tile) s = .next { s with coll := { s.coll with spNet := s.coll.spNet ++
      [(⟨myChip s, tile, 4⟩, SpStamp ⟨[spWord0 .slip n ⟨myChip s, 0, 0⟩ 0 0 true 0 0 0, s.clk.now % 256]⟩)] } } := by
  change execSlipAssert n tile s = _
  rw [execSlipAssert, hslips, spSend, hinj]
  rfl

/-- A slip that arrives on its package is counted, and its start waits among the tenant's requests. -/
theorem exec_slip {m : SpMsg} {s : State} (hpass : markPasses s m = true) (hkind : SpKindOf m = .slip) :
    exec (.slip m) s = .next (setTen (bump (spTake s m) (Reg.fabSchStat (SpTenant m)) FabSchStat.SLIPS 1) (SpTenant m)
      { schTen s (SpTenant m) with slips := insSorted (slipCycle s.clk.now (SpWord m 1) + 32) (schTen s (SpTenant m)).slips }) := by
  have hchip : (SpDst m).chip = myChip (spTake s m) := by
    simp only [markPasses, Bool.and_eq_true, beq_iff_eq] at hpass
    exact hpass.1.1.1.1
  change Host.Outcome.next _ = _
  rw [spArrive_passes _ hpass]
  dsimp only
  rw [hkind, hchip, if_neg (by simp)]
  rfl

/-! ### Freeze quanta (R92-R94) -/

/-- With no quantum in force there is nothing to end. -/
theorem thaw_of_none {s : State} {t : Nat} (h : (schTen s t).quantum = none) : thaw s t = s := by
  rw [thaw, h]

/-- The tenant's beats at a sink 64 cycles later, where they were due in its quantum or after. -/
def sinkLater (t q : Nat) (f : SinkBeat) : SinkBeat := if f.beat.tok.tenant = t ∧ q ≤ f.at_ then { f with at_ := f.at_ + 64 } else f
/-- The tenant's beats on their way 64 cycles later, where they were due in its quantum or after. -/
def beatLater (t q : Nat) (f : FlightBeat) : FlightBeat := if f.beat.tok.tenant = t ∧ q ≤ f.due then { f with due := f.due + 64 } else f

/-- A quantum that ends with nothing on its way. -/
theorem thaw_of_some {s : State} {t q : Nat} (hq : quiet s = true) (h : (schTen s t).quantum = some q) :
    thaw s t = { later s (q + 64) with sch := { s.sch with
      flight := (s.sch.hold.filter (fun f => f.beat.tok.tenant == t) ++ s.sch.flight).map (beatLater t q)
      hold := s.sch.hold.filter fun f => ! f.beat.tok.tenant == t
      sinks := s.sch.sinks.map (sinkLater t q)
      ten := eSet {} t { schTen s t with quantum := none, frozen := (schTen s t).frozen + 64, thawed := q + 64 } s.sch.ten } } := by
  rw [thaw, h]
  dsimp only
  rw [advanceTo_quiet _ hq]
  rfl

/-- A request whose start lies in the quantum in force is absorbed. -/
theorem exec_freezeQuantumStart_absorbed {s : State} {n st q : Nat} {rest : List Nat} (hslips : (schTen s n).slips = st :: rest)
    (hquantum : (schTen s n).quantum = some q) (hlo : q ≤ st) (hhi : st < q + 64) :
    exec (.freezeQuantumStart n) s = .next (setTen s n { schTen s n with slips := rest }) := by
  change execFreezeQuantumStart n s = _
  simp [execFreezeQuantumStart, hslips, hquantum, hlo, hhi]

/-- A request that neither a quantum nor the limit meets freezes the tenant from its start. -/
theorem exec_freezeQuantumStart_freezes {s : State} {n st : Nat} {rest : List Nat} (hq : quiet s = true) (hslips : (schTen s n).slips = st :: rest)
    (hquantum : (schTen s n).quantum = none) (hthawed : (schTen s n).thawed ≤ st) (hlimit : pastLimit s n st = false) :
    exec (.freezeQuantumStart n) s = .next (setTen (holdBeats (bump (later s st) (Reg.fabSchStat n) FabSchStat.QUANTA 1) n) n
      { schTen s n with slips := rest, quantum := some st, consec := if st = (schTen s n).thawed then (schTen s n).consec + 1 else 1 }) := by
  change execFreezeQuantumStart n s = _
  rw [execFreezeQuantumStart, hslips]
  dsimp only
  rw [hquantum, thaw_of_none hquantum, hlimit, advanceTo_quiet _ hq, if_neg (by simpa using hthawed), if_neg (by simp)]
  rfl

/-- A request past the limit stops the schedule. -/
theorem exec_slipLimitStop {s : State} {n st : Nat} {rest : List Nat} (hslips : (schTen s n).slips = st :: rest)
    (hquantum : (schTen s n).quantum = none) (hlimit : pastLimit s n st = true) : exec (.slipLimitStop n) s = .next (slipStop s n) := by
  change execSlipLimitStop n s = _
  rw [execSlipLimitStop, hslips]
  dsimp only
  rw [thaw_of_none hquantum, hlimit]
  rfl

/-! ### A schedule stopped (R95) -/

/-- Raising W1C bits touches no other register. -/
theorem rd_raise_ne (s : State) {a c : Nat} (mask : Nat) (h : c ≠ a) : rd (raise s a mask) c = rd s c := rd_wrReg_ne s _ h

/-- The sink streams of a tenant's active bank with their poison bits set. -/
def sinksDead (s : State) (t : Nat) : State :=
  ((descsFor s t (schBank s t)).filter fun x => SdExtract (streamDesc s x.1 x.2)).foldl (fun s x => setPsn s x.1 x.2) s

theorem sinksDead_keeps (s : State) (t : Nat) : Keeps [.regs] s (sinksDead s t) :=
  Keeps.foldl (.refl _ s) fun _ _ => setPsn_keeps (by decide)

/-- The owner registers of the MEPs' descriptors are none that hold poison bits of a stream. -/
theorem mepDescOwner_ne_psnReg {m j : Nat} (hj : j < 64) {b : Blk} {k : Nat} (hk : k < descCount b) :
    Reg.mepDescOwner m j ≠ psnReg b k := by
  cases b <;> simp only [descCount, psnReg, Reg.mepDescOwner, Reg.mepStreamPsn, Reg.tniPumpPsn, Blk.base] at hk ⊢ <;> omega

theorem lt_descCount_of_mem_descsFor {s : State} {t bank : Nat} {x : Blk × Nat} (h : x ∈ descsFor s t bank) : x.2 < descCount x.1 := by
  simp only [descsFor, List.mem_flatMap, List.mem_map, List.mem_filter, List.mem_range] at h
  obtain ⟨b, -, n, ⟨hn, -⟩, rfl⟩ := h
  exact hn

/-- Setting poison bits of streams leaves the registers outside them. -/
theorem rd_foldl_setPsn {a : Nat} (l : List (Blk × Nat)) (s : State) (h : ∀ x ∈ l, a ≠ psnReg x.1 x.2) :
    rd (l.foldl (fun s x => setPsn s x.1 x.2) s) a = rd s a := by
  induction l generalizing s with
  | nil => rfl
  | cons x l ih =>
    rw [List.forall_mem_cons] at h
    rw [List.foldl_cons, ih _ h.2, setPsn, rd_raise_ne _ _ h.1]

theorem rd_sinksDead_mepDescOwner (s : State) (t : Nat) {m j : Nat} (hj : j < 64) :
    rd (sinksDead s t) (Reg.mepDescOwner m j) = rd s (Reg.mepDescOwner m j) :=
  rd_foldl_setPsn _ s fun _ hx => mepDescOwner_ne_psnReg hj (lt_descCount_of_mem_descsFor (List.mem_filter.mp hx).1)

/-- A schedule stopped at once, before its record is written: the tenant's sinks dead, its takeover dropped, STATE 3, its beats gone. -/
def schStopped (s : State) (t : Nat) : State :=
  let u := dropBeats (setFld (schDrop (sinksDead s t) t) (Reg.fabSchCtx t) FabSchCtx.STATE 3) t
  setTen u t { schTen u t with quantum := none, slips := [], consec := 0 }

theorem schStop_eq (s : State) (t : Nat) (e : ErrRec) : schStop s t e = logReport (schStopped s t) e := rfl

theorem schStopped_keeps (s : State) (t : Nat) : Keeps [.regs, .sch] s (schStopped s t) :=
  setTen_keeps (by decide) (dropBeats_keeps (by decide) (setFld_keeps (by decide) (schDrop_keeps (by decide) (by decide)
    ((sinksDead_keeps s t).mono (by decide)))))

theorem rd_schStopped (s : State) (t a : Nat) :
    rd (schStopped s t) a = rd (setFld (schDrop (sinksDead s t) t) (Reg.fabSchCtx t) FabSchCtx.STATE 3) a :=
  rd_of_regs_eq (by dsimp only [schStopped, setTen, dropBeats]) a

theorem schState_schStopped {s : State} (h : s.wf = true) (t : Nat) : schState (schStopped s t) t = 3 := by
  have hwf : (schDrop (sinksDead s t) t).wf = true := wf_schDrop ((sinksDead_keeps s t).wf h) t
  rw [schState, fld, rd_schStopped, ← fld, fld_setFld_same _ _ _ hwf (by decide) (by decide)]
  rfl

/-- The owners of the MEPs' descriptors are as they were. -/
theorem rd_schStopped_mepDescOwner (s : State) {t m j : Nat} (ht : t < 64) (hj : j < 64) :
    rd (setFld (schDrop (sinksDead s t) t) (Reg.fabSchCtx t) FabSchCtx.STATE 3) (Reg.mepDescOwner m j) = rd s (Reg.mepDescOwner m j) := by
  have hctx : Reg.mepDescOwner m j ≠ Reg.fabSchCtx t := by
    simp only [Reg.mepDescOwner, Reg.fabSchCtx, Blk.base]
    omega
  have harm : Reg.mepDescOwner m j ∉ armRegs t := by
    simp only [List.mem_cons, List.not_mem_nil, or_false, not_or, Reg.mepDescOwner, Reg.fabSchArm, Reg.fabSchCtx, Blk.base]
    omega
  rw [rd_setFld_ne _ _ _ hctx, schDrop_regsOutside _ _ _ harm, rd_sinksDead_mepDescOwner s t hj]

/-- The plane without the tenant's beats; its staged reads go with the descriptors' owners. -/
theorem schStopped_sch (s : State) (t : Nat) : (schStopped s t).sch = { s.sch with
    flight := s.sch.flight.filter fun f => f.beat.tok.tenant != t
    hold := s.sch.hold.filter fun f => f.beat.tok.tenant != t
    sinks := s.sch.sinks.filter fun f => f.beat.tok.tenant != t
    stage := s.sch.stage.filter fun p =>
      descTenant (setFld (schDrop (sinksDead s t) t) (Reg.fabSchCtx t) FabSchCtx.STATE 3) (.mep p.mep) p.desc != t
    ten := (schStopped s t).sch.ten } := by
  have hdrop : (schDrop (sinksDead s t) t).sch = { s.sch with ten := eSet {} t { schTen (sinksDead s t) t with checking := false } s.sch.ten } := by
    rw [schDrop_sch, (sinksDead_keeps s t).only .sch (by decide)]
  dsimp only [schStopped, setTen, dropBeats]
  rw [setFld_sch, hdrop]

theorem mem_stage_schStopped (s : State) {t : Nat} (ht : t < 64) (p : StagePlace) (hd : p.desc < 512) :
    p ∈ (schStopped s t).sch.stage ↔ p ∈ s.sch.stage ∧ descTenant s (.mep p.mep) p.desc ≠ t := by
  rw [schStopped_sch, List.mem_filter, descTenant, rd_schStopped_mepDescOwner s ht (by omega), bne_iff_ne]
  rfl

/-- A record changes neither the registers nor the plane. -/
theorem logReport_only (s : State) (e : ErrRec) : Keeps [.host, .log, .rel, .rpt] s (logReport s e) :=
  logReport_keeps (by decide) (by decide) (by decide) (by decide) (.refl _ s)

theorem logReport_regs (s : State) (e : ErrRec) : (logReport s e).regs = s.regs := ((logReport_only s e).only .regs (by decide)).1

theorem logReport_sch (s : State) (e : ErrRec) : (logReport s e).sch = s.sch := (logReport_only s e).only .sch (by decide)

theorem schState_logReport (s : State) (e : ErrRec) (t : Nat) : schState (logReport s e) t = schState s t :=
  congrArg (fun x => getF x FabSchCtx.STATE) (rd_of_regs_eq (logReport_regs s e) _)

/-- Settles O16: each command of a slip is one equation, and what it states of registers and beats is read off that equation. -/
theorem slipsFreezeATenant : Obligations.SlipsFreezeATenant := by
  refine ⟨fun n tile s => exec_slipAssert, ?_, fun n st q rest s => exec_freezeQuantumStart_absorbed, ?_, ?_, ?_⟩
  · intro m s hwf hpass hkind
    exact ⟨_, exec_slip hpass hkind, (setFld_regsOutside (spTake s m) _ _ (by simp)).trans (setTen_regsOutside _ _ _ _),
      rd_setFld_same (spTake s m) _ _ _ ((spTake_keeps (w := [.coll]) (by decide) (.refl _ s)).wf hwf), rfl⟩
  · intro n st rest s hwf hq hslips hquantum hthawed hlimit mine
    refine ⟨_, exec_freezeQuantumStart_freezes hq hslips hquantum hthawed hlimit, rfl, ?_, ?_, rfl⟩
    · exact (setFld_regsOutside (later s st) _ _ (by simp)).trans
        ((regsOutside_of_regs_eq rfl).trans (setTen_regsOutside _ (holdBeats _ n) _ _))
    · exact rd_setFld_same (later s st) _ _ _ hwf
  · intro n q s hq hquantum
    refine ⟨_, (congrArg Host.Outcome.next (thaw_of_some hq hquantum) : exec (.freezeQuantumEnd n) s = _), rfl, rfl, rfl⟩
  · intro n st rest s hwf hslips hquantum hlimit hn
    refine ⟨_, schStopped s n, exec_slipLimitStop hslips hquantum hlimit, ?_, (schStopped_keeps s n).only .log (by decide), rfl, ?_⟩
    · rw [slipStop, schStop_eq, schState_logReport, schState_schStopped hwf]
    · simp only [slipStop, schStop_eq, logReport_sch]
      refine ⟨?_, ?_, ?_, fun p _ hd => mem_stage_schStopped s hn p hd⟩ <;> rw [schStopped_sch]

end Sys2Proof.Machine

namespace Sys2Proof.Machine

/-! ### Ingress buffers and bindings (R76, R89, R467, R528) -/

theorem boundAt_later (s : State) (g : Nat) (b : Blk) (ch : Nat) (k : Token) : boundAt (later s g) b ch k = boundAt s b ch k := by
  cases b <;> simp only [boundAt] <;> rfl

theorem ingressCount_later (s : State) (g : Nat) (b : Blk) (ch : Nat) : ingressCount (later s g) b ch = ingressCount s b ch := by
  rw [ingressCount, later, ingressCount]

/-- The channel of a unit where the plane delivers to it, and the first unfrozen beat there. -/
def ingressPort (b : Blk) (ch : Nat) : Nat := match b with | .rte _ => 7 + ch | _ => 6

def firstIngress (s : State) (b : Blk) (ch : Nat) : Option SinkBeat :=
  s.sch.sinks.find? fun y => y.tile == blkTile b && y.port == ingressPort b ch && decide (s.clk.now ≤ y.at_) && ! frozen s y.beat.tok.tenant

section Ingress

variable {b : Blk} {ch : Nat} {x : SinkBeat} {s : State} (hq : quiet s = true) (hx : firstIngress s b ch = some x)
include hq hx

/-- What becomes of the beat that the channel takes. -/
theorem exec_schedIngressBeat :
    exec (.schedIngressBeat b ch) s = .next (
      let u : State := { later s x.at_ with sch := { s.sch with sinks := s.sch.sinks.erase x } }
      if ! boundAt s b ch x.beat.tok then schFault u (blkTile b) (ingressPort b ch) kUnexpected x.beat.tok.tenant
      else if 1024 ≤ ingressCount s b ch then later s x.at_
      else { u with sch := { u.sch with ingress := s.sch.ingress ++ [⟨b, ch, x.beat⟩] } }) := by
  change execSchedIngressBeat b ch s = _
  unfold execSchedIngressBeat
  dsimp only
  split
  · next hnone => exact absurd (hx.symm.trans hnone) (by simp)
  · next y hsome =>
    obtain rfl : x = y := Option.some.inj (hx.symm.trans hsome)
    rw [advanceTo_quiet _ hq, boundAt_later, ingressCount_later]
    rfl

/-- A beat of a bound stream enters the ingress buffer of its channel. -/
theorem exec_schedIngressBeat_bound (hbound : boundAt s b ch x.beat.tok = true) (hroom : ingressCount s b ch < 1024) :
    exec (.schedIngressBeat b ch) s = .next { later s x.at_ with sch :=
      { s.sch with sinks := s.sch.sinks.erase x, ingress := s.sch.ingress ++ [⟨b, ch, x.beat⟩] } } := by
  rw [exec_schedIngressBeat hq hx, hbound, if_neg (by simp), if_neg (Nat.not_le.2 hroom)]

/-- A beat of an unbound stream is discarded and recorded. -/
theorem exec_schedIngressBeat_unbound (hbound : boundAt s b ch x.beat.tok = false) :
    exec (.schedIngressBeat b ch) s = .next (log { later s x.at_ with sch := { s.sch with sinks := s.sch.sinks.erase x } }
      (faultRec (blkTile b) (ingressPort b ch) kUnexpected x.beat.tok.tenant)) := by
  rw [exec_schedIngressBeat hq hx, hbound, if_pos (by simp)]
  rfl

end Ingress

/-- Gathering moves beats between the plane's own buffers. -/
theorem bindGather_eq (s : State) (key : Nat) (b : Blk) (ch t st n : Nat) : ∃ plane, bindGather s key b ch t st n = { s with sch := plane } := by
  rw [bindGather]
  dsimp only
  split
  · exact ⟨s.sch, rfl⟩
  · exact ⟨_, rfl⟩

/-- The write a lane-port binding sends with the first 4,096 gathered bytes. -/
def lpBindWr (s : State) (lp b : Nat) (r : BindRun) : Pkt :=
  let a := Reg.lpSbindA lp b
  let c := Reg.lpSbindC lp b
  { opc := .wr, src := lpEp (myChip s) lp,
    dst := ⟨fld s c LpSbindC.DCHIP, 8 * fld s c LpSbindC.DY + fld s c LpSbindC.DX, fld s c LpSbindC.DEP⟩,
    tenant := fld s a LpSbindA.TENANT, prio := fld s a LpSbindA.PRIO, addr := fld s (Reg.lpSbindB lp b) LpSbindB.ADDR + r.offset,
    nbytes := 4096, poison := r.psn, data := r.gathered.take 4096 }

/-- A binding's gathered bytes taken, and the rest of them kept. -/
def bindTaken (s : State) (key n offset : Nat) : State :=
  let r := eGet {} key s.sch.binds
  { s with sch := { s.sch with binds := eSet {} key { r with offset := offset, gathered := r.gathered.drop n, psn := false } s.sch.binds } }

/-- A lane-port binding that has gathered 4,096 bytes sends them. -/
theorem exec_lpSbindWrite {lp b : Nat} {s : State} (hv : flag s (Reg.lpSbindA lp b) LpSbindA.V = true) :
    let g := bindGather s (lp * 64 + b) (.lp lp) 0 (fld s (Reg.lpSbindA lp b) LpSbindA.TENANT) (fld s (Reg.lpSbindA lp b) LpSbindA.STREAM) 4096
    let r := eGet {} (lp * 64 + b) g.sch.binds
    4096 ≤ r.gathered.length → exec (.lpSbindWrite lp b) s = .next (enqueue
      (bindTaken g (lp * 64 + b) 4096 (if fld s (Reg.lpSbindC lp b) LpSbindC.WIN ≤ r.offset + 4096 then 0 else r.offset + 4096))
      (lpBindWr s lp b r) (.sbind (Reg.ctr (.lp lp) (fld s (Reg.lpSbindA lp b) LpSbindA.CTR)))) := by
  intro g r
  obtain ⟨plane, hg⟩ : ∃ plane, g = { s with sch := plane } := bindGather_eq ..
  intro hlen
  change execLpSbindWrite lp b s = _
  unfold execLpSbindWrite
  dsimp only
  rw [hv, if_neg (by simp), if_neg (Nat.not_lt.2 hlen)]
  simp only [show bindGather s _ _ _ _ _ _ = _ from hg, r, hg]
  rfl

/-- The post of a bound stream's WRITE. -/
def rteBindPost (s : State) (e b : Nat) (r : BindRun) : QpPost :=
  let a := Reg.rteSbindA e b
  let c := Reg.rteSbindC e b
  let n := fld s c RteSbindC.RBYTES
  { cmd := none, qop := 0, rva := fld s (Reg.rteSbindB e b) RteSbindB.RVA, len := n, rkey := fld s c RteSbindC.RKEY,
    inl := r.gathered.take n, ctr := some (Reg.ctr (.rte e) (fld s a RteSbindA.CTR)), psn := r.psn }

/-- A pair with a port up stays as it is when it is posted to. -/
theorem portless_of_up {s : State} {e q : Nat} (h : (qp s e q).ports.any (fun k => (port s e k).up) = true) : portless s e q = s := by
  rw [portless, h, if_neg (by simp)]

/-- The post of a bound stream goes to an open pair of its own tenant. -/
theorem boundPost_of_ready {s : State} {e q t n : Nat} (hstate : qpState s e q = 1) (htenant : (qp s e q).tenant = t) (hn : n ≤ 0x20000) :
    boundPost s e q t n = none := by
  rw [boundPost, hstate, htenant, if_neg (by simp), if_neg (by simp), if_neg (by simp), if_neg (by simp), if_neg (by omega)]

/-- What a binding at the RTE gathers for its next WRITE. -/
def rteGather (s : State) (e b : Nat) : State :=
  bindGather s (16384 + e * 64 + b) (.rte e) (fld s (Reg.rteSbindA e b) RteSbindA.CH) (fld s (Reg.rteSbindA e b) RteSbindA.TENANT)
    (fld s (Reg.rteSbindA e b) RteSbindA.STREAM) (fld s (Reg.rteSbindC e b) RteSbindC.RBYTES)

section RteBinding

variable {e b : Nat} {s : State}

/-- The state in which a WRITE of gathered bytes is posted. -/
def rteTaken (s : State) (e b : Nat) : State :=
  bindTaken (rteGather s e b) (16384 + e * 64 + b) (fld s (Reg.rteSbindC e b) RteSbindC.RBYTES)
    (eGet {} (16384 + e * 64 + b) (rteGather s e b).sch.binds).offset

theorem rteTaken_eq (s : State) (e b : Nat) : ∃ plane, rteTaken s e b = { s with sch := plane } := by
  obtain ⟨plane, hg⟩ : ∃ plane, rteGather s e b = { s with sch := plane } := bindGather_eq ..
  rw [rteTaken, hg]
  exact ⟨_, rfl⟩

/-- A binding at the RTE that has gathered RBYTES posts them. -/
theorem execRteSbindWrite_eq (hv : flag s (Reg.rteSbindA e b) RteSbindA.V = true) (hn : fld s (Reg.rteSbindC e b) RteSbindC.RBYTES ≠ 0)
    (hlen : fld s (Reg.rteSbindC e b) RteSbindC.RBYTES ≤ (eGet {} (16384 + e * 64 + b) (rteGather s e b).sch.binds).gathered.length) :
    exec (.rteSbindWrite e b) s = .next (
      let q := fld s (Reg.rteSbindA e b) RteSbindA.QP
      let u := portless (rteTaken s e b) e q
      let p := rteBindPost s e b (eGet {} (16384 + e * 64 + b) (rteGather s e b).sch.binds)
      match boundPost u e q (fld s (Reg.rteSbindA e b) RteSbindA.TENANT) p.len with
      | some st => ownDone u p st
      | none => postOp u e q p) := by
  obtain ⟨plane, hg⟩ : ∃ plane, rteGather s e b = { s with sch := plane } := bindGather_eq ..
  change execRteSbindWrite e b s = _
  unfold execRteSbindWrite
  dsimp only
  rw [hv, if_neg (by simp [hn]), ← rteGather, if_neg (Nat.not_lt.2 hlen), rteTaken, hg]
  rfl

/-- An open pair of the binding's tenant, with a port up, takes the WRITE. -/
theorem exec_rteSbindWrite (hv : flag s (Reg.rteSbindA e b) RteSbindA.V = true) (hn : fld s (Reg.rteSbindC e b) RteSbindC.RBYTES ≠ 0)
    (hlen : fld s (Reg.rteSbindC e b) RteSbindC.RBYTES ≤ (eGet {} (16384 + e * 64 + b) (rteGather s e b).sch.binds).gathered.length)
    (hmax : fld s (Reg.rteSbindC e b) RteSbindC.RBYTES ≤ 0x20000)
    (hready : qpState s e (fld s (Reg.rteSbindA e b) RteSbindA.QP) = 1)
    (htenant : (qp s e (fld s (Reg.rteSbindA e b) RteSbindA.QP)).tenant = fld s (Reg.rteSbindA e b) RteSbindA.TENANT)
    (hup : (qp s e (fld s (Reg.rteSbindA e b) RteSbindA.QP)).ports.any (fun k => (port s e k).up) = true) :
    exec (.rteSbindWrite e b) s = .next (postOp (rteTaken s e b) e (fld s (Reg.rteSbindA e b) RteSbindA.QP)
      (rteBindPost s e b (eGet {} (16384 + e * 64 + b) (rteGather s e b).sch.binds))) := by
  obtain ⟨plane, hu⟩ := rteTaken_eq s e b
  have hportless : portless (rteTaken s e b) e (fld s (Reg.rteSbindA e b) RteSbindA.QP) = rteTaken s e b :=
    portless_of_up (by rw [hu]; exact hup)
  have hpost : boundPost (rteTaken s e b) e (fld s (Reg.rteSbindA e b) RteSbindA.QP) (fld s (Reg.rteSbindA e b) RteSbindA.TENANT)
      (fld s (Reg.rteSbindC e b) RteSbindC.RBYTES) = none := by
    rw [hu]
    exact boundPost_of_ready hready htenant hmax
  rw [execRteSbindWrite_eq hv hn hlen]
  dsimp only [rteBindPost]
  rw [hportless, hpost]

end RteBinding

/-! ### Half beats in a MODE 2 context (R248, R249) -/

theorem redRun_setRed {s : State} (h : tWf (fun _ => ({} : RedRun)) s.red = true) (x : Ctx) (r : RedRun) : redRun (setRed s x r) x = r :=
  eGet_eSet_same _ _ _ _ h

theorem tWf_setRed {s : State} (h : tWf (fun _ => ({} : RedRun)) s.red = true) (x : Ctx) (r : RedRun) :
    tWf (fun _ => ({} : RedRun)) (setRed s x r).red = true := tWf_tSet _ _ _ h

theorem ruFmt_red (s : State) (tile t : Nat) (e : FmtEvents) : (ruFmt s tile t e).red = s.red := by
  rw [ruFmt]; split <;> rfl

theorem setPoisoned_red (s : State) (x : Ctx) : (setPoisoned s x).red = s.red := by
  rw [setPoisoned]; split <;> rfl

/-- What a context holds once it has taken a half beat of its own tenant. -/
def runTaken (s : State) (x : Ctx) (b : Beat) : RedRun :=
  let r := redRun s x
  let es := elemsOf (max 1 x.w) (slice b.data 0 128)
  { r with acc := if r.acc = [] then es else (combineList x.op x.efmt r.acc es).1, runN := r.runN + 1, runPsn := r.runPsn || b.tok.psn }

theorem runTake_red {s : State} {x : Ctx} {b : Beat} (hb : b.tok.tenant = x.tenant) :
    (runTake s x b).red = (setRed s x (runTaken s x b)).red := by
  simp only [runTake, hb, beq_self_eq_true, Bool.not_true, Bool.false_eq_true, if_true, if_false, Bool.or_false, List.isEmpty_iff]
  split <;> split <;> simp only [setRed, setFld_red, setPoisoned_red, bump_red, ruFmt_red, runTaken, *] <;> rfl

/-- The value of a complete run at the crossbar, and the run emptied. -/
def runPut (s : State) (x : Ctx) (g : Nat) : State :=
  let r := redRun s x
  let d := if r.acc.isEmpty then drawBytes s 128 else (bytesOf (max 1 x.w) r.acc, s)
  let beat : Beat := ⟨{ psn := r.runPsn, half := true, tenant := x.tenant, stream := 0 }, d.1⟩
  setRed { d.2 with sch := { d.2.sch with flight := d.2.sch.flight ++ [⟨x.tile, 16 + x.c, g + 6, beat⟩] } } x
    { r with acc := [], runN := 0, runPsn := false }

/-- The context's status ready for its next operation. -/
def runReady (s : State) (x : Ctx) : State :=
  setFld (setFld (setFld (setFld s (ctxS x) RedCtxS.SEQ (ctxSeq s x + 1)) (ctxS x) RedCtxS.BASE 0) (ctxS x) RedCtxS.STATE 1)
    (ctxS x) RedCtxS.POISONED 0

theorem runReady_red (s : State) (x : Ctx) : (runReady s x).red = s.red := by
  simp only [runReady, setFld_red]

/-- The context moved on to its next position or operation. -/
def runNext (s : State) (x : Ctx) : State :=
  if ctxBase s x + 1 < x.npos then setFld s (ctxS x) RedCtxS.BASE (ctxBase s x + 1)
  else setRed (runReady s x) x { redRun s x with malf := false }

theorem runOut_eq (s : State) (x : Ctx) (g : Nat) : runOut s x g = runNext (runPut s x g) x := rfl

theorem runNext_sch (s : State) (x : Ctx) : (runNext s x).sch = s.sch := by
  rw [runNext]; split <;> rfl

theorem runPut_sch (s : State) (x : Ctx) (g : Nat) : ∃ ds, (runPut s x g).sch = { s.sch with flight := s.sch.flight ++
    [⟨x.tile, 16 + x.c, g + 6, ⟨{ psn := (redRun s x).runPsn, half := true, tenant := x.tenant, stream := 0 }, ds⟩⟩] } := by
  rw [runPut]
  split <;> exact ⟨_, rfl⟩

theorem runPut_red (s : State) (x : Ctx) (g : Nat) :
    (runPut s x g).red = (setRed s x { redRun s x with acc := [], runN := 0, runPsn := false }).red := by
  rw [runPut]
  split <;> rfl

theorem redRun_of_red_eq {s u : State} (h : u.red = s.red) (x : Ctx) : redRun u x = redRun s x := by
  rw [redRun, redRun, h]

section RunOut

variable {s : State} (h : tWf (fun _ => ({} : RedRun)) s.red = true)
include h

theorem redRun_runPut (x : Ctx) (g : Nat) : redRun (runPut s x g) x = { redRun s x with acc := [], runN := 0, runPsn := false } := by
  rw [redRun_of_red_eq (runPut_red s x g), redRun_setRed h]

theorem runN_runNext (x : Ctx) : (redRun (runNext s x) x).runN = (redRun s x).runN := by
  rw [runNext]
  split
  · rfl
  · rw [redRun_setRed (by rw [runReady_red]; exact h)]

theorem runN_runOut (x : Ctx) (g : Nat) : (redRun (runOut s x g) x).runN = 0 := by
  have hput : tWf (fun _ => ({} : RedRun)) (runPut s x g).red = true := by
    rw [runPut_red]
    exact tWf_setRed h x _
  rw [runOut_eq, runN_runNext hput, redRun_runPut h]

end RunOut

theorem runTake_sch (s : State) (x : Ctx) (b : Beat) : (runTake s x b).sch = s.sch :=
  (runTake_keeps (by decide) (by decide) (by decide) (by decide) (Keeps.refl [.log, .red, .regs, .rel] s)).only .sch (by decide)

/-- A half beat of its tenant that reaches an enabled MODE 2 context is taken off the crossbar, and a complete run goes out. -/
theorem exec_ruSchedBeat {tile ctx : Nat} {b : SinkBeat} {s : State}
    (hb : (s.sch.sinks.find? fun y => y.tile == tile && y.port == 10 && y.ctx == ctx && ! frozen s y.beat.tok.tenant) = some b)
    (hmode : (ctxAt s tile ctx).mode = 2) (hstate : ctxState s (ctxAt s tile ctx) ≠ 0) :
    exec (.ruSchedBeat tile ctx) s = .next (
      let x := ctxAt s tile ctx
      let u := runTake { s with sch := { s.sch with sinks := s.sch.sinks.erase b } } x b.beat
      if (redRun u x).runN < x.nops then u else runOut u x b.at_) := by
  change execRuSchedBeat tile ctx s = _
  unfold execRuSchedBeat
  rw [hb]
  dsimp only
  rw [if_neg]
  · rfl
  · exact not_or.2 ⟨not_not.2 hmode, hstate⟩


/-- Settles O15: a beat moves from the crossbar into a buffer, from there into one write or post, or through a run of its context. -/
theorem scheduledDataEntersUnits : Obligations.ScheduledDataEntersUnits := by
  refine ⟨?_, ?_, ?_, ?_⟩
  · intro b ch port x s hport hq hx
    have hport : port = ingressPort b ch := hport
    subst hport
    exact ⟨exec_schedIngressBeat_bound hq hx, exec_schedIngressBeat_unbound hq hx⟩
  · intro lp b s hv n g r win hlen
    obtain ⟨plane, hg⟩ : ∃ plane, g = { s with sch := plane } := bindGather_eq ..
    let why : Purpose := .sbind (Reg.ctr (.lp lp) (fld s (Reg.lpSbindA lp b) LpSbindA.CTR))
    refine ⟨_, { id := g.dyn.nextReq, pkt := lpBindWr s lp b r, why := why }, exec_lpSbindWrite hv hlen, ?_, ?_, rfl, rfl, rfl, rfl, rfl, rfl⟩
    · exact (enqueue_keeps (by decide) (Keeps.sch (by decide) ((bindGather_keeps (by decide) (Keeps.refl _ s))))).only
    · exact congrArg (fun d : DynState => d.waiting ++ [(⟨g.dyn.nextReq, lpBindWr s lp b r, why, [], false⟩ : Req)]) (by rw [hg] : g.dyn = s.dyn)
  · intro e b s hv n q key g r hn hmax hready hlen htenant hup
    obtain ⟨plane, hu⟩ := rteTaken_eq s e b
    have hrte : (rteTaken s e b).rte = s.rte := by rw [hu]
    refine ⟨_, { rteBindPost s e b r with msn := (qp s e q).msn }, exec_rteSbindWrite hv hn hlen hmax hready htenant hup, ?_,
      rfl, rfl, rfl, rfl, rfl, rfl⟩
    simp only [postOp, setQp, setFld_rte, qp, hrte]
    rfl
  · intro tile ctx b s hred hb x r es hmode hstate htenant
    let t : State := { s with sch := { s.sch with sinks := s.sch.sinks.erase b } }
    let u := runTake t x b.beat
    have hrun : redRun u x = runTaken s x b.beat := by
      rw [redRun_of_red_eq (runTake_red htenant), redRun_setRed (s := t) hred]
      rfl
    have hsch : u.sch = t.sch := runTake_sch t x b.beat
    have hflight : u.sch.flight = s.sch.flight := by rw [hsch]
    have huwf : tWf (fun _ => ({} : RedRun)) u.red = true := by
      rw [runTake_red htenant]
      exact tWf_setRed hred x _
    have hn : (redRun u x).runN = r.runN + 1 := by rw [hrun]; rfl
    refine ⟨_, exec_ruSchedBeat hb hmode hstate, ?_⟩
    rcases Nat.lt_or_ge (r.runN + 1) x.nops with hlt | hge
    · have hlt' : (redRun u x).runN < x.nops := by rw [hn]; exact hlt
      dsimp only
      rw [if_pos hlt']
      exact ⟨congrArg SchState.sinks hsch, fun _ => ⟨hflight, hrun⟩, fun h => absurd hlt (Nat.not_lt.2 h)⟩
    · have hge' : ¬ (redRun u x).runN < x.nops := by rw [hn]; exact Nat.not_lt.2 hge
      dsimp only
      rw [if_neg hge']
      obtain ⟨ds, hput⟩ := runPut_sch u x b.at_
      have hout : (runOut u x b.at_).sch = _ := (congrArg State.sch (runOut_eq u x b.at_)).trans ((runNext_sch _ x).trans hput)
      refine ⟨?_, fun h => absurd h (Nat.not_lt.2 hge), fun _ => ⟨runN_runOut huwf x b.at_,
        ⟨x.tile, 16 + x.c, b.at_ + 6, ⟨⟨(redRun u x).runPsn, true, x.tenant, 0⟩, ds⟩⟩, ?_, rfl, rfl, rfl, rfl, rfl, ?_⟩⟩
      · exact congrArg SchState.sinks (hout.trans (by rw [hsch]))
      · exact congrArg SchState.flight (hout.trans (by rw [hsch]))
      · rw [hrun]
        rfl

end Sys2Proof.Machine

namespace Sys2Proof.Machine

/-! ### Beats that leave a router (R76, R78, R97) -/

/-- The registers that hold an armed injection are those a beat on a mesh link does not count in. -/
theorem injReg_ne_telLinkUtil (tile out : Nat) : injReg (.rtr tile) ≠ Reg.telLinkUtil tile out := by
  simp only [injReg, Reg.inj, Reg.telLinkUtil]
  omega

theorem injArmed_of_rd {s u : State} {b : Blk} (h : rd u (injReg b) = rd s (injReg b)) (d : Det) (ok : Nat → Bool) :
    injArmed u b d ok = injArmed s b d ok := by
  simp only [injArmed, flag, fld, h]

/-- A beat sent out of a router where no injection meets it. -/
def beatSent (s : State) (tile : Nat) (e : Entry) (b : Beat) : State :=
  if e.out < 4 then
    let u := bump s (Reg.telLinkUtil tile e.out) TelLinkUtil.SBUSY 1
    { u with sch := { u.sch with flight := u.sch.flight ++
      [⟨[tile - 8, tile + 1, tile + 8, tile - 1].getD e.out 0, (e.out + 2) % 4, s.clk.now + 2, b⟩] } }
  else { s with sch := { s.sch with sinks := s.sch.sinks ++ [⟨tile, e.out, e.ctx, b, if e.out = 10 then s.clk.now else s.clk.now + 1⟩] } }

theorem nextRouter_eq (tile : Nat) {out : Nat} (h : out < 4) :
    (if out = 0 then tile - 8 else if out = 1 then tile + 1 else if out = 2 then tile + 8 else tile - 1) =
      [tile - 8, tile + 1, tile + 8, tile - 1].getD out 0 := by
  interval_cases out <;> rfl

theorem beatOut_of_unarmed {s : State} {tile : Nat} {e : Entry} (h : injArmed s (.rtr tile) .linkecc (fun k => k / 16 == e.out && k % 2 == 1) = false)
    (b : Beat) : beatOut s tile e.out e.ctx b = beatSent s tile e b := by
  have hinj : injLink s tile e.out 1 = (0, s) := by rw [injLink, h]; rfl
  rw [beatOut, hinj, beatSent]
  dsimp only
  split
  · next hout =>
    rw [nextRouter_eq tile hout]
    rfl
  · rfl

theorem injArmed_beatSent (s : State) (tile : Nat) (e : Entry) (b : Beat) (d : Det) (ok : Nat → Bool) :
    injArmed (beatSent s tile e b) (.rtr tile) d ok = injArmed s (.rtr tile) d ok := by
  refine injArmed_of_rd ?_ d ok
  rw [beatSent]
  split
  · exact rd_setFld_ne s _ _ (injReg_ne_telLinkUtil tile e.out)
  · rfl

/-- A beat that is sent out counts at its link and is on its way to the next router or stands at a sink. -/
theorem beatSent_keeps (s : State) (tile : Nat) (e : Entry) (b : Beat) : Keeps [.regs, .sch] s (beatSent s tile e b) := by
  rw [beatSent]
  split
  · exact .sch (by decide) (bump_keeps (by decide) (.refl _ s))
  · exact .sch (by decide) (.refl _ s)

theorem beatSent_regsOutside (s : State) (tile : Nat) (e : Entry) (b : Beat) :
    RegsOutside [Reg.telLinkUtil tile e.out] s (beatSent s tile e b) := by
  rw [beatSent]
  split
  · exact (setFld_regsOutside s _ _ (by simp)).trans (regsOutside_of_regs_eq rfl)
  · exact regsOutside_of_regs_eq rfl

/-- The beats of a list of entries on their way to the next routers, and at sinks. -/
def onLinks (tile g : Nat) (out : Entry → Beat) (es : List Entry) : List FlightBeat :=
  (es.filter fun e => decide (e.out < 4)).map fun e =>
    ⟨[tile - 8, tile + 1, tile + 8, tile - 1].getD e.out 0, (e.out + 2) % 4, g + 2, out e⟩
def atSinks (tile g : Nat) (out : Entry → Beat) (es : List Entry) : List SinkBeat :=
  (es.filter fun e => decide (4 ≤ e.out)).map fun e => ⟨tile, e.out, e.ctx, out e, if e.out = 10 then g else g + 1⟩

theorem beatSent_sch (s : State) (tile : Nat) (e : Entry) (out : Entry → Beat) : (beatSent s tile e (out e)).sch = { s.sch with
    flight := s.sch.flight ++ onLinks tile s.clk.now out [e], sinks := s.sch.sinks ++ atSinks tile s.clk.now out [e] } := by
  by_cases hout : e.out < 4
  · simp [beatSent, onLinks, atSinks, hout]
  · simp [beatSent, onLinks, atSinks, hout, Nat.not_lt.1 hout]

theorem beatSent_sch_link {s : State} {tile : Nat} {e : Entry} (hout : e.out < 4) (b : Beat) : (beatSent s tile e b).sch = { s.sch with
    flight := s.sch.flight ++ [⟨[tile - 8, tile + 1, tile + 8, tile - 1].getD e.out 0, (e.out + 2) % 4, s.clk.now + 2, b⟩] } := by
  rw [beatSent, if_pos hout]
  rfl

/-- The beat goes out once for every entry of a list. -/
def beatsSent (s : State) (tile : Nat) (es : List Entry) (out : Entry → Beat) : State := es.foldl (fun s e => beatSent s tile e (out e)) s

theorem beatsSent_keeps (s : State) (tile : Nat) (es : List Entry) (out : Entry → Beat) : Keeps [.regs, .sch] s (beatsSent s tile es out) :=
  Keeps.foldl (.refl _ s) fun _ _ h => h.trans (beatSent_keeps ..)

theorem beatsSent_regsOutside (s : State) (tile : Nat) (es : List Entry) (out : Entry → Beat) :
    RegsOutside (es.map fun e => Reg.telLinkUtil tile e.out) s (beatsSent s tile es out) := by
  induction es generalizing s with
  | nil => exact fun _ _ => rfl
  | cons e es ih =>
    exact ((beatSent_regsOutside s tile e (out e)).mono (by simp)).trans ((ih _).mono (by simp))

theorem beatsSent_sch (s : State) (tile : Nat) (es : List Entry) (out : Entry → Beat) : (beatsSent s tile es out).sch = { s.sch with
    flight := s.sch.flight ++ onLinks tile s.clk.now out es, sinks := s.sch.sinks ++ atSinks tile s.clk.now out es } := by
  induction es generalizing s with
  | nil => simp [beatsSent, onLinks, atSinks]
  | cons e es ih =>
    have hnow : (beatSent s tile e (out e)).clk.now = s.clk.now := by rw [(beatSent_keeps s tile e (out e)).only .clk (by decide)]
    have hcons (l : List Entry) : onLinks tile s.clk.now out (e :: l) = onLinks tile s.clk.now out [e] ++ onLinks tile s.clk.now out l ∧
        atSinks tile s.clk.now out (e :: l) = atSinks tile s.clk.now out [e] ++ atSinks tile s.clk.now out l := by
      simp only [onLinks, atSinks, ← List.map_append, ← List.filter_append, List.singleton_append, and_self]
    rw [beatsSent, List.foldl_cons, ← beatsSent, ih, hnow, beatSent_sch, (hcons es).1, (hcons es).2]
    simp only [List.append_assoc]

/-- Entries that all agree with the beat send it on. -/
theorem foldl_entryStep {tile port : Nat} {x : Beat} {out : Entry → Beat} (es : List Entry) (s : State)
    (hout : ∀ e ∈ es, ∀ u, entryStep u tile port (some x) e = beatOut u tile e.out e.ctx (out e))
    (hinj : ∀ e ∈ es, injArmed s (.rtr tile) .linkecc (fun k => k / 16 == e.out && k % 2 == 1) = false) :
    es.foldl (fun s e => entryStep s tile port (some x) e) s = beatsSent s tile es out := by
  induction es generalizing s with
  | nil => rfl
  | cons e es ih =>
    rw [List.forall_mem_cons] at hout hinj
    rw [List.foldl_cons, hout.1, beatOut_of_unarmed hinj.1, beatsSent, List.foldl_cons]
    exact ih _ hout.2 fun e' he' => by rw [injArmed_beatSent]; exact hinj.2 e' he'


/-! ### Beats judged at a router (R97, log 141) -/

/-- The cycle of a beat on its way has not passed. -/
theorem now_le_due {s : State} {tile port : Nat} {b : Option Beat} {f : FlightBeat} (h : dueAt s tile port b = some f) : s.clk.now ≤ f.due := by
  have hf := List.find?_some h
  simp only [Bool.and_eq_true, decide_eq_true_eq] at hf
  exact hf.1.1.2

/-- The state in which a beat on its way arrives. -/
def arrived (s : State) (f : FlightBeat) : State := later { s with sch := { s.sch with flight := s.sch.flight.erase f } } f.due

theorem arriving_of_due {s : State} {tile port : Nat} {x : Beat} {f : FlightBeat} (hq : quiet s = true) (h : dueAt s tile port (some x) = some f) :
    arriving s tile port (some x) = (some f.beat, arrived s f) := by
  have hq' : quiet { s with sch := { s.sch with flight := s.sch.flight.erase f } } = true := hq
  rw [arriving, h]
  exact congrArg (Prod.mk (some f.beat)) (advanceTo_quiet f.due hq')

/-- What an entry that agrees with the beat of a router's input lets out. -/
def entryOut (port : Nat) (x : Beat) (e : Entry) : Beat := if 16 ≤ port then ⟨⟨x.tok.psn, true, e.tenant, e.stream⟩, x.data⟩ else x

theorem entryStep_of_agrees {tile port : Nat} {x : Beat} {e : Entry}
    (h : port < 16 → e.tenant = x.tok.tenant ∧ e.stream = x.tok.stream ∧ (e.out = 10 → x.tok.half = true)) (u : State) :
    entryStep u tile port (some x) e = beatOut u tile e.out e.ctx (entryOut port x e) := by
  rw [entryStep, entryOut]
  dsimp only
  by_cases hport : 16 ≤ port
  · rw [if_pos hport, if_pos hport]
  · obtain ⟨htenant, hstream, hhalf⟩ := h (Nat.not_le.1 hport)
    have hwidth : ¬ ((! x.tok.half) = true ∧ e.out = 10) := fun hw => by simp [hhalf hw.2] at hw
    rw [if_neg hport, if_neg hport, if_neg (not_not.2 htenant.symm), if_neg (not_not.2 hstream.symm), if_neg hwidth]

/-- A beat on its way goes out for every entry of its input, when all of them agree with it. -/
theorem exec_scheduledBeatArrival_sent {tile port : Nat} {x : Beat} {f : FlightBeat} {s : State} (hq : quiet s = true)
    (hfrozen : frozen s x.tok.tenant = false) (hdue : dueAt s tile port (some x) = some f)
    (hsched : injArmed s (.rtr tile) .sched (fun k => k == port) = false)
    (hlink : ∀ e ∈ activeFor (arrived s f) tile port, injArmed s (.rtr tile) .linkecc (fun k => k / 16 == e.out && k % 2 == 1) = false)
    (hes : activeFor (arrived s f) tile port ≠ [])
    (hagree : ∀ e ∈ activeFor (arrived s f) tile port, port < 16 →
      e.tenant = f.beat.tok.tenant ∧ e.stream = f.beat.tok.stream ∧ (e.out = 10 → f.beat.tok.half = true)) :
    exec (.scheduledBeatArrival tile port (some x)) s =
      .next (beatsSent (arrived s f) tile (activeFor (arrived s f) tile port) (entryOut port f.beat)) := by
  have hsched' : injArmed (arrived s f) (.rtr tile) .sched (fun k => k == port) = false := hsched
  change execScheduledBeatArrival tile port (some x) s = _
  rw [execScheduledBeatArrival]
  dsimp only
  rw [if_neg (by simp [hfrozen]), arriving_of_due hq hdue]
  dsimp only
  rw [if_neg (by simp [hsched']), if_neg (by simp [hsched'])]
  split
  · next hnone => exact absurd hnone hes
  · rw [foldl_entryStep _ (arrived s f) (fun e he => entryStep_of_agrees (hagree e he)) hlink]

/-- A beat in no flight comes in as it is given, and without an entry it is recorded as UNEXPECTED. -/
theorem exec_scheduledBeatArrival_unexpected {tile port : Nat} {b : Beat} {s : State} (hfrozen : frozen s b.tok.tenant = false)
    (hdue : dueAt s tile port (some b) = none) (hsched : injArmed s (.rtr tile) .sched (fun k => k == port) = false)
    (hes : activeFor s tile port = []) (hport : port < 16) :
    exec (.scheduledBeatArrival tile port (some b)) s = .next (log s (faultRec tile port kUnexpected b.tok.tenant)) := by
  have harr : arriving s tile port (some b) = (some b, s) := by
    rw [arriving, hdue]
    dsimp only
    rw [if_neg (Nat.not_le.2 hport)]
  change execScheduledBeatArrival tile port (some b) s = _
  rw [execScheduledBeatArrival]
  dsimp only
  rw [if_neg (by simp [hfrozen]), harr]
  dsimp only
  rw [if_neg (by simp [hsched]), if_neg (by simp [hsched]), hes]
  dsimp only
  rw [if_neg (Nat.not_le.2 hport), schFault]

/-- An entry active without a beat records MISSING and sends a poisoned beat. -/
theorem exec_scheduledBeatArrival_missing {tile port : Nat} {e : Entry} {s : State} (hdue : dueAt s tile port none = none)
    (hes : activeFor s tile port = [e]) : exec (.scheduledBeatArrival tile port none) s = .next (
      let p := poisonBeat (log s (faultRec tile port kMissing e.tenant)) e (e.inp == 10 || e.out == 10)
      beatOut p.2 tile e.out e.ctx p.1) := by
  have harr : arriving s tile port none = (none, s) := by
    rw [arriving, hdue]
    dsimp only
    rw [ite_self]
  change execScheduledBeatArrival tile port none s = _
  rw [execScheduledBeatArrival]
  dsimp only
  rw [if_neg (by simp), harr]
  dsimp only
  rw [if_neg (by simp), if_neg (by simp), hes]
  simp only [List.foldl_cons, List.foldl_nil, entryStep, schFault, Bool.or_false]

/-! ### Sources (R80, R86) -/

/-- A beat of an inject stream counted where it leaves. -/
def beatCounted (s : State) (b : Blk) (d t n : Nat) : State :=
  match b with
  | .tni tile => matchOp s tile (SdLayer d) (SdOpid d) n
  | _ => tutilOut s b t (units128 n)

theorem beatCounted_keeps (s : State) (b : Blk) (d t n : Nat) : Keeps [.regs] s (beatCounted s b d t n) := by
  unfold beatCounted
  split
  · exact matchOp_keeps (by decide) (.refl _ s)
  · exact tutilOut_keeps (by decide) (.refl _ s)

/-- The plane with a beat of an inject stream on it. -/
def injected (s : State) (b : Blk) (n j k : Nat) (bs : List Byte) (psn : Bool) : State :=
  let d := streamDesc s b n
  let t := descTenant s b n
  let u := beatCounted (unstage s b n j k) b d t bs.length
  { u with sch := { u.sch with flight := u.sch.flight ++ [⟨(descPort b d).1, (descPort b d).2, u.clk.now, ⟨⟨psn, SdHalf d, t, SdStream d⟩, bs⟩⟩] } }

/-- A running inject stream whose source supplies its data puts its beat on the plane in its round cycle. -/
theorem exec_streamBeatInject {b : Blk} {n j k : Nat} {array bs : List Byte} {psn : Bool} {s : State} (hq : quiet s = true)
    (hrun : runsNow s (descTenant s b n) = true) (hext : SdExtract (streamDesc s b n) = false) (hin : beatIn (streamDesc s b n) j k = true)
    (hon : streamOn (later s (nextAt s (descTenant s b n) (SdCycle (streamDesc s b n) j k))) b n = true)
    (hdata : beatData (later s (nextAt s (descTenant s b n) (SdCycle (streamDesc s b n) j k))) b n (streamDesc s b n) j k array = some (bs, psn)) :
    exec (.streamBeatInject b n j k array) s = .next (roundDone
      (injected (later s (nextAt s (descTenant s b n) (SdCycle (streamDesc s b n) j k))) b n j k bs psn) b (streamDesc s b n) j k false) := by
  change execStreamBeatInject b n j k array s = _
  unfold execStreamBeatInject
  dsimp only
  rw [if_neg (by simp [hrun, hext, hin]), advanceTo_quiet _ hq, if_neg (by simp [hon]), hdata]
  cases b <;> rfl

/-- The beat's flight and the cycle in which it starts. -/
theorem injected_sch (s : State) (b : Blk) (n j k : Nat) (bs : List Byte) (psn : Bool) :
    (injected s b n j k bs psn).clk = s.clk ∧
      ⟨(descPort b (streamDesc s b n)).1, (descPort b (streamDesc s b n)).2, s.clk.now,
        ⟨⟨psn, SdHalf (streamDesc s b n), descTenant s b n, SdStream (streamDesc s b n)⟩, bs⟩⟩ ∈ (injected s b n j k bs psn).sch.flight := by
  have hcount : Keeps [.regs, .sch] s (beatCounted (unstage s b n j k) b (streamDesc s b n) (descTenant s b n) bs.length) :=
    (unstage_keeps (by decide) (.refl _ s)).trans ((beatCounted_keeps ..).mono (by decide))
  refine ⟨hcount.only .clk (by decide), ?_⟩
  rw [← hcount.only .clk (by decide)]
  exact List.mem_append_right _ (List.mem_singleton.2 rfl)

/-! ### Sinks (R77, R79, R85, R88) -/

theorem later_max (s : State) (g : Nat) : later s (max s.clk.now g) = later s g := by
  simp only [later, le_max_left, max_eq_right]

/-- What the sink does with the beat it takes, before the stream's marks and its counter. -/
def sinkTaken (s : State) (b : Blk) (n j k : Nat) (x : SinkBeat) : State :=
  let d := streamDesc s b n
  let t := descTenant s b n
  let u := { s with sch := { s.sch with sinks := s.sch.sinks.erase x } }
  let bs := slice x.beat.data 0 (SdBytes d)
  match b with
  | .tni tile =>
    if SdPort d = 0 then storeSeen (pumpUse u tile (SdAddr d j k) t (SdBytes d)) (tileAddr tile (SdAddr d j k)) bs x.beat.tok.psn
    else { u with sch := { u.sch with arrays := u.sch.arrays ++ [⟨tile, n, bs, x.beat.tok.psn⟩] } }
  | .mep m =>
    let v := tutilIn u b t (units128 bs.length)
    { v with sch := { v.sch with absorb := v.sch.absorb ++ [⟨m, n, SdAddr d j k, bs, x.beat.tok.psn, t⟩] } }
  | _ => u

/-- Marks and counters come behind the data: they change neither the plane nor memory. -/
theorem sinkBeat_keeps_taken (s : State) (b : Blk) (n j k : Nat) (x : SinkBeat) :
    Keeps [.log, .regs, .rel, .trig] (sinkTaken s b n j k x) (sinkBeat s b n j k (streamDesc s b n) (descTenant s b n) x) := by
  have h : sinkBeat s b n j k (streamDesc s b n) (descTenant s b n) x =
      let u := sinkPoison (sinkTaken s b n j k x) b n (streamDesc s b n) x.beat.tok.psn
      roundDone u b (streamDesc s b n) j k (psnBit u b n) := by cases b <;> rfl
  rw [h]
  exact roundDone_keeps (by decide) (sinkPoison_keeps (by decide) (by decide) (by decide) (.refl _ _))

/-- A pump's use of an SRAM slot is noted in the plane's list of uses alone. -/
theorem pumpUse_eq (s : State) (tile off t n : Nat) : ∃ uses, pumpUse s tile off t n = { s with sch := { s.sch with uses := uses } } := by
  rw [pumpUse]
  split
  · exact ⟨_, rfl⟩
  · exact ⟨s.sch.uses, rfl⟩

/-- Data stored reads back, whatever the watchers of its tile note. -/
theorem placed_storeSeen {s : State} (h : s.wf = true) (a : Nat) (bs : List Byte) (psn : Bool) : Placed a bs s (storeSeen s a bs psn) := fun c =>
  (readByte_of_mem_eq ((sramNote_keeps (by decide) (by decide) (Keeps.refl [.obs, .regs] _)).only .mem (by decide)) c).trans
    (readByte_store s a c bs psn (mem_wf h))

theorem sinkTaken_keeps (s : State) (b : Blk) (n j k : Nat) (x : SinkBeat) :
    Keeps [.mem, .memPoison, .obs, .regs, .sch] s (sinkTaken s b n j k x) := by
  have herase (w : List Part) (h : Part.sch ∈ w) : Keeps w s { s with sch := { s.sch with sinks := s.sch.sinks.erase x } } := .sch h (.refl _ s)
  unfold sinkTaken
  dsimp only
  split
  · split
    · exact storeSeen_keeps (by decide) (by decide) (by decide) (by decide) (pumpUse_keeps (by decide) (herase _ (by decide)))
    · exact .sch (by decide) (.refl _ s)
  · exact .sch (by decide) (tutilIn_keeps (by decide) (herase _ (by decide)))
  · exact herase _ (by decide)

/-- A pump's beat goes to its address. -/
theorem sinkTaken_store {s : State} {tile n : Nat} (hport : SdPort (streamDesc s (.tni tile) n) = 0) (j k : Nat) (x : SinkBeat) :
    ∃ uses v, v = ({ s with sch := { s.sch with sinks := s.sch.sinks.erase x, uses := uses } } : State) ∧
      sinkTaken s (.tni tile) n j k x = storeSeen v (tileAddr tile (SdAddr (streamDesc s (.tni tile) n) j k))
        (slice x.beat.data 0 (SdBytes (streamDesc s (.tni tile) n))) x.beat.tok.psn := by
  dsimp only [sinkTaken]
  rw [if_pos hport]
  obtain ⟨uses, huse⟩ := pumpUse_eq { s with sch := { s.sch with sinks := s.sch.sinks.erase x } } tile
    (SdAddr (streamDesc s (.tni tile) n) j k) (descTenant s (.tni tile) n) (SdBytes (streamDesc s (.tni tile) n))
  exact ⟨uses, _, rfl, by rw [huse]⟩

theorem storeSeen_sch (s : State) (a : Nat) (bs : List Byte) (psn : Bool) : (storeSeen s a bs psn).sch = s.sch :=
  (storeSeen_keeps (by decide) (by decide) (by decide) (by decide) (Keeps.refl [.mem, .memPoison, .obs, .regs] s)).only .sch (by decide)

/-- A stream port's beat goes to the array. -/
theorem sinkTaken_array {s : State} {tile n : Nat} (hport : SdPort (streamDesc s (.tni tile) n) ≠ 0) (j k : Nat) (x : SinkBeat) :
    sinkTaken s (.tni tile) n j k x = { s with sch :=
      { s.sch with sinks := s.sch.sinks.erase x, arrays := s.sch.arrays ++
        [⟨tile, n, slice x.beat.data 0 (SdBytes (streamDesc s (.tni tile) n)), x.beat.tok.psn⟩] } } := by
  dsimp only [sinkTaken]
  rw [if_neg hport]

/-- A MEP's beat is absorbed. -/
theorem sinkTaken_absorb (s : State) (m n j k : Nat) (x : SinkBeat) :
    (sinkTaken s (.mep m) n j k x).mem = s.mem ∧ (sinkTaken s (.mep m) n j k x).sch = { s.sch with
      sinks := s.sch.sinks.erase x
      absorb := s.sch.absorb ++ [⟨m, n, SdAddr (streamDesc s (.mep m) n) j k, slice x.beat.data 0 (SdBytes (streamDesc s (.mep m) n)),
        x.beat.tok.psn, descTenant s (.mep m) n⟩] } := by
  dsimp only [sinkTaken]
  rw [(tutilIn_keeps (by decide) (Keeps.refl [.regs] _)).only .sch (by decide),
    (tutilIn_keeps (by decide) (Keeps.refl [.regs] _)).only .mem (by decide)]
  exact ⟨rfl, rfl⟩

theorem sinkTaken_sinks (s : State) (b : Blk) (n j k : Nat) (x : SinkBeat) : (sinkTaken s b n j k x).sch.sinks = s.sch.sinks.erase x := by
  cases b
  case tni tile =>
    by_cases hport : SdPort (streamDesc s (.tni tile) n) = 0
    · obtain ⟨uses, v, rfl, h⟩ := sinkTaken_store hport j k x
      rw [h, storeSeen_sch]
    · rw [sinkTaken_array hport]
  case mep m => rw [(sinkTaken_absorb s m n j k x).2]
  all_goals rfl

/-- A beat that a running extract descriptor takes in its delivery cycle. -/
theorem exec_streamBeatExtract {b : Blk} {n j k : Nat} {x : SinkBeat} {s : State} (hq : quiet s = true)
    (hrun : runsNow s (descTenant s b n) = true) (hext : SdExtract (streamDesc s b n) = true) (hin : beatIn (streamDesc s b n) j k = true) :
    let d := streamDesc s b n
    let t := descTenant s b n
    let g := max s.clk.now (nextAt s t (SdCycle d j k))
    streamOn (later s g) b n = true → (s.sch.sinks.find? fun y => y.tile == (descPort b d).1 && y.port == (descPort b d).2 && y.at_ == g &&
      y.beat.tok.tenant == t && y.beat.tok.stream == SdStream d) = some x → sinkTakes (later s g) b d j k t = true →
    exec (.streamBeatExtract b n j k) s = .next (sinkBeat (later s g) b n j k d t x) := by
  intro d t g hon hx htakes
  have hlater : later s g = later s (nextAt s t (SdCycle d j k)) := later_max s _
  rw [hlater] at hon htakes
  change execStreamBeatExtract b n j k s = _
  unfold execStreamBeatExtract
  dsimp only
  rw [if_neg (by simp [hrun, hext, hin]), advanceTo_quiet _ hq, if_neg (by simpa only [Bool.not_eq_true', Bool.not_eq_false] using hon)]
  split
  · next hnone => exact absurd (hx.symm.trans hnone) (by simp)
  · next y hsome =>
    obtain rfl : x = y := Option.some.inj (hx.symm.trans hsome)
    rw [if_pos htakes, hlater]

/-! ### A MEP's staged reads and absorbed beats (R84, R86, R88) -/

/-- The next read that has no place is issued while a place is free. -/
theorem exec_mepStageReadIssue {m n j k : Nat} {x : Nat × Nat × Nat} {s : State} (hq : quiet s = true)
    (hext : SdExtract (streamDesc s (.mep m) n) = false) (hin : beatIn (streamDesc s (.mep m) n) j k = true)
    (hx : ((readsDue s m n j k).find? fun x => ! s.sch.stage.any fun p => p.is m n j k x.1 x.2.1) = some x)
    (hroom : (s.sch.stage.filter fun p => p.mep == m).length < 16384) :
    exec (.mepStageReadIssue m n j k) s = .next { later s x.2.2 with sch :=
      { s.sch with stage := s.sch.stage ++ [⟨m, n, j, k, x.1, x.2.1, max s.clk.now x.2.2, none⟩] } } := by
  change execMepStageReadIssue m n j k s = _
  rw [execMepStageReadIssue]
  dsimp only
  rw [if_neg (by simp [hext, hin]), hx]
  dsimp only
  rw [advanceTo_quiet _ hq, if_neg (by exact Nat.not_le.2 hroom)]
  rfl

/-- The first entry of a list that satisfies a test, behind entries that do not, is the one that is changed. -/
theorem updFirst_append_cons {α : Type} {p : α → Bool} (f : α → α) {l : List α} {a : α} (r : List α) (hl : ∀ x ∈ l, p x = false) (ha : p a = true) :
    updFirst p f (l ++ a :: r) = l ++ f a :: r := by
  induction l with
  | nil => simp [updFirst, ha]
  | cons x l ih =>
    rw [List.forall_mem_cons] at hl
    simp [updFirst, hl.1, ih hl.2]

theorem find?_append_cons {α : Type} {p : α → Bool} {l : List α} {a : α} (r : List α) (hl : ∀ x ∈ l, p x = false) (ha : p a = true) :
    (l ++ a :: r).find? p = some a := by
  rw [List.find?_append, List.find?_eq_none.2 (by simpa using hl), Option.none_or, List.find?_cons_of_pos ha]

/-- The data of the first read of a beat that waits returns into its place, and uses the slot in which it went. -/
theorem exec_mepStackReadDone {m n j k bank round at_ g : Nat} {psn : Bool} {l r : List StagePlace} {s : State}
    (hstage : s.sch.stage = l ++ ⟨m, n, j, k, bank, round, at_, none⟩ :: r)
    (hslot : slotSince s m (descTenant s (.mep m) n) at_ (SdBytes (streamDesc s (.mep m) n)) = some g)
    (hl : ∀ p ∈ l, ¬ (p.mep = m ∧ p.desc = n ∧ p.j = j ∧ p.k = k ∧ p.beat = none)) :
    let d := streamDesc s (.mep m) n
    let a := fabAddr 0 (ofStack m (SdAddr d j k))
    let v := useSlot s (.mep m) g (SdBytes d)
    exec (.mepStackReadDone m n j k psn) s = .next { v with sch := { v.sch with stage :=
      l ++ ⟨m, n, j, k, bank, round, at_, some (readMem s a (SdBytes d), psn || markedIn s a (SdBytes d))⟩ :: r } } := by
  intro d a v
  have hfalse (p : StagePlace) (hp : p ∈ l) (c : Bool) :
      (p.mep == m && p.desc == n && p.j == j && p.k == k && p.beat.isNone && c) = false := by
    have := hl p hp
    by_contra h
    simp only [Bool.not_eq_false, Bool.and_eq_true, beq_iff_eq, Option.isNone_iff_eq_none] at h
    tauto
  change execMepStackReadDone m n j k psn s = _
  unfold execMepStackReadDone
  dsimp only
  rw [hstage, find?_append_cons r (fun p hp => hfalse p hp _) (by simp [hslot])]
  dsimp only
  have hne (p : StagePlace) (hp : p ∈ l) : (p == (⟨m, n, j, k, bank, round, at_, none⟩ : StagePlace)) = false := by
    rw [beq_eq_false_iff_ne]
    rintro rfl
    exact hl _ hp ⟨rfl, rfl, rfl, rfl, rfl⟩
  rw [hslot]
  dsimp only [useSlot]
  rw [hstage, updFirst_append_cons _ r hne (beq_self_eq_true _)]
  rfl

/-- An absorbed beat taken out of its buffer in a slot of its tenant. -/
def absorbTaken (s : State) (m g : Nat) (x : AbsorbBeat) : State :=
  let u := useSlot (later s g) (.mep m) g x.data.length
  { u with sch := { u.sch with absorb := s.sch.absorb.erase x } }

/-- In the next slot with room the oldest absorbed beat is written to the stack. -/
theorem exec_mepAbsorbWrite {m g : Nat} {x : AbsorbBeat} {s : State} (hq : quiet s = true)
    (hg : (((List.range 1024).map (s.clk.now + ·)).find? fun g => s.sch.absorb.any (absorbSlot s m g)) = some g)
    (hx : s.sch.absorb.find? (absorbSlot s m g) = some x) : exec (.mepAbsorbWrite m) s =
      .next (store (absorbTaken s m g x) (fabAddr 0 (ofStack m x.addr)) x.data x.psn) := by
  change execMepAbsorbWrite m s = _
  have hx' : (later s g).sch.absorb.find? (absorbSlot (later s g) m g) = some x := hx
  rw [execMepAbsorbWrite, hg]
  dsimp only
  rw [advanceTo_quiet _ hq, hx']
  rfl

theorem log_sch (s : State) (r : ErrRec) : (log s r).sch = s.sch :=
  (log_keeps (by decide) (by decide) (Keeps.refl [.log, .rel] s)).only .sch (by decide)

/-- The first cycle of a scan from the present one has not passed. -/
theorem now_le_of_find? {s : State} {n g : Nat} {p : Nat → Bool} (h : ((List.range n).map (s.clk.now + ·)).find? p = some g) : s.clk.now ≤ g := by
  obtain ⟨i, -, rfl⟩ := List.mem_map.1 (List.mem_of_find?_eq_some h)
  exact Nat.le_add_right _ _

/-- Settles O14: an equation per command says what becomes of the beat, and the plane, the clock and memory are read off it. -/
theorem scheduledBeatsMove : Obligations.ScheduledBeatsMove := by
  refine ⟨?inject, ?arrival, ?unexpected, ?missing, ?extract, ?issue, ?done, ?absorb⟩
  case inject =>
    intro b n j k array bs psn s hq hrun hext hin d g hon hdata
    obtain ⟨hclk, hmem⟩ := injected_sch (later s g) b n j k bs psn
    have hdone := roundDone_keeps (b := b) (d := d) (j := j) (k := k) (dead := false) (by decide)
      (Keeps.refl [.trig] (injected (later s g) b n j k bs psn))
    refine ⟨_, exec_streamBeatInject hq hrun hext hin hon hdata, ?_, ?_⟩
    · exact congrArg Clock.now ((hdone.only .clk (by decide)).trans hclk)
    · rw [hdone.only .sch (by decide)]
      exact hmem
  case arrival =>
    intro tile port x f s hq hfrozen hdue s' es out hsched hlink hes hagree
    have hle : s.clk.now ≤ f.due := now_le_due hdue
    have hnow : s'.clk.now = f.due := Nat.max_eq_right hle
    have hkeeps := beatsSent_keeps s' tile es (entryOut port f.beat)
    refine ⟨_, exec_scheduledBeatArrival_sent hq hfrozen hdue hsched hlink hes hagree, ?_, ?_, ?_, ?_⟩
    · exact ((Keeps.sch (by decide) (Keeps.clk (by decide) (.refl _ s)) : Keeps [.clk, .regs, .sch] s s').trans (hkeeps.mono (by decide))).only
    · exact congrArg Clock.now (hkeeps.only .clk (by decide))
    · exact (regsOutside_of_regs_eq rfl).trans (beatsSent_regsOutside s' tile es _)
    · exact (beatsSent_sch s' tile es _).trans (by rw [hnow]; rfl)
  case unexpected =>
    intro tile port b s
    exact exec_scheduledBeatArrival_unexpected
  case missing =>
    intro tile port e s hdue hes _ hout hinj
    let v := log s (faultRec tile port kMissing e.tenant)
    have hne : (e.out == 10) = false := by simp; omega
    have hinj' : injArmed (poisonBeat v e (e.inp == 10 || e.out == 10)).2 (.rtr tile) .linkecc (fun k => k / 16 == e.out && k % 2 == 1) = false :=
      (injArmed_of_rd (rd_log s _ _) _ _).trans hinj
    have hexec := exec_scheduledBeatArrival_missing hdue hes
    dsimp only at hexec
    rw [beatOut_of_unarmed hinj', hne, Bool.or_false] at hexec
    have hsch : (beatSent (poisonBeat v e (e.inp == 10)).2 tile e (poisonBeat v e (e.inp == 10)).1).sch = _ := beatSent_sch_link hout _
    have hclk : v.clk = s.clk := (log_keeps (by decide) (by decide) (Keeps.refl [.log, .rel] s)).only .clk (by decide)
    refine ⟨_, (poisonBeat v e (e.inp == 10)).1.data, hexec, (beatSent_keeps _ tile e _).only .log (by decide), hsch.trans ?_⟩
    dsimp only [poisonBeat, drawBytes]
    rw [hclk, log_sch]
  case extract =>
    intro b n j k x s hwf hq hrun hext hin d t g bs hon hx htakes
    have hmarks := sinkBeat_keeps_taken (later s g) b n j k x
    have hclk := hmarks.only .clk (by decide)
    have hsch := hmarks.only .sch (by decide)
    have hmem := hmarks.only .mem (by decide)
    refine ⟨_, exec_streamBeatExtract hq hrun hext hin hon hx htakes, ?_, ?_, ?_⟩
    · exact (congrArg Clock.now (hclk.trans ((sinkTaken_keeps (later s g) b n j k x).only .clk (by decide)))).trans
        (Nat.max_eq_right (Nat.le_max_left _ _))
    · exact (congrArg SchState.sinks hsch).trans (sinkTaken_sinks (later s g) b n j k x)
    · cases b
      case tni tile =>
        dsimp only
        split
        · next hport =>
          obtain ⟨uses, v, hv, htaken⟩ := sinkTaken_store (s := later s g) hport j k x
          have hv_wf : v.wf = true := by rw [hv]; exact hwf
          have harrays : v.sch.arrays = s.sch.arrays := by rw [hv]; rfl
          rw [htaken] at hsch hmem
          exact ⟨(congrArg SchState.arrays (hsch.trans (storeSeen_sch ..))).trans harrays, fun c =>
            (readByte_of_mem_eq hmem c).trans ((placed_storeSeen hv_wf _ _ _ c).trans (by rw [hv]; rfl))⟩
        · next hport =>
          rw [sinkTaken_array (s := later s g) hport] at hsch hmem
          exact ⟨congrArg SchState.arrays hsch, hmem⟩
      case mep m =>
        obtain ⟨htakenMem, htakenSch⟩ := sinkTaken_absorb (later s g) m n j k x
        exact ⟨congrArg SchState.absorb (hsch.trans htakenSch), hmem.trans htakenMem⟩
      all_goals trivial
  case issue =>
    intro m n j k x s hq hext hin hx hroom
    exact ⟨_, exec_mepStageReadIssue hq hext hin hx hroom, rfl, rfl, rfl⟩
  case done =>
    intro m n j k bank round at_ g psn l r s hstage hslot hl
    exact exec_mepStackReadDone hstage hslot hl
  case absorb =>
    intro m g x s hwf hq hg hx
    let v := absorbTaken s m g x
    have hstore := store_keeps (w := [.mem, .memPoison]) (a := fabAddr 0 (ofStack m x.addr)) (bs := x.data) (psn := x.psn) (by decide) (by decide)
      (.refl _ v)
    have hnow : v.clk.now = g := Nat.max_eq_right (now_le_of_find? hg)
    exact ⟨_, exec_mepAbsorbWrite hq hg hx, (congrArg Clock.now (hstore.only .clk (by decide))).trans hnow, hstore.only .sch (by decide),
      fun c => readByte_store v _ c x.data x.psn (mem_wf hwf)⟩

end Sys2Proof.Machine

namespace Sys2Proof.Machine

/-! ### A command answered (R393, R394) -/

/-- A table into which a list's words have been written, each at its place, is canonical and reads them back. -/
theorem tWf_wordTable (l : List (Nat × Nat)) (t : List (Nat × Nat)) (h : tWf (fun _ => 0) t = true) :
    tWf (fun _ => 0) (l.foldl (fun t w => eSet 0 w.2 (w.1 % 2 ^ 64) t) t) = true := by
  induction l generalizing t with
  | nil => exact h
  | cons w l ih => exact ih _ (tWf_tSet _ _ _ h)

theorem eGet_wordTable (l : List Nat) {i : Nat} (hi : i < l.length) :
    eGet 0 i (l.zipIdx.foldl (fun t w => eSet 0 w.2 (w.1 % 2 ^ 64) t) ([] : List (Nat × Nat))) = l.getD i 0 % 2 ^ 64 := by
  induction l using List.reverseRecOn with
  | nil => exact absurd hi (Nat.not_lt_zero i)
  | append_singleton l a ih =>
    rw [List.length_append, List.length_singleton] at hi
    rw [List.zipIdx_append, List.foldl_append, List.zipIdx_singleton, List.foldl_cons, List.foldl_nil]
    dsimp only
    rcases Nat.lt_succ_iff_lt_or_eq.1 hi with hlt | rfl
    · rw [eGet_eSet_ne _ _ _ (by omega), ih hlt, List.getD_append _ _ _ _ hlt]
    · rw [Nat.zero_add, eGet_eSet_same _ _ _ _ (tWf_wordTable _ _ rfl)]
      simp

/-- The interrupt of an answer takes nothing from what the host is told. -/
theorem mbxDone_mem_signal {s : State} {fn a b : Nat} (h : HostOut.mbxDone a b ∈ s.host.out) (vec : Nat) :
    .mbxDone a b ∈ (signal s fn vec).host.out := by
  rw [signal]
  split
  · exact h
  · exact List.mem_append_left _ (List.mem_filter.2 ⟨h, by simp⟩)

theorem signal_mbx (s : State) (fn vec : Nat) : (signal s fn vec).mbx = s.mbx := by
  rw [signal]; split <;> rfl

/-- A slot whose command is answered. -/
def slotTold (s : State) (sv : Server) (fn : Nat) (r : Reason) (ws : List Nat) : MbxSlot :=
  let x := mbxSlot s sv fn
  let hd := rspHeader (rqCmd s sv fn) r.status r ws.length
  { x with rsp := ((hd :: ws).zipIdx).foldl (fun t w => eSet 0 w.2 (w.1 % 2 ^ 64) t) [], status := r.status.code, doneSeq := x.goSeq, state := 2,
           taken := [], begun := false }

theorem mbxSlot_refuse (s : State) (sv : Server) (fn : Nat) (r : Reason) (ws : List Nat) :
    mbxSlot (refuse s sv fn r ws) sv fn = slotTold s sv fn r ws := by
  have hne : slotTold s sv fn r ws ≠ {} := fun e => absurd (congrArg MbxSlot.state e) (by simp [slotTold])
  rw [mbxSlot, refuse, answer, signal_mbx]
  cases sv <;> exact eGet_eSet_listed hne _ _

theorem mbxQueue_refuse (s : State) (sv : Server) (fn : Nat) (r : Reason) (ws : List Nat) :
    mbxQueue (refuse s sv fn r ws) sv = (mbxQueue s sv).erase fn := by
  cases sv <;> rw [mbxQueue, refuse, answer, signal_mbx] <;> rfl

theorem mbxDone_mem_refuse (s : State) (sv : Server) (fn : Nat) (r : Reason) (ws : List Nat) :
    .mbxDone fn (slotKey sv fn % 2) ∈ (refuse s sv fn r ws).host.out :=
  mbxDone_mem_signal (List.mem_append_right _ (List.mem_singleton.2 rfl)) 0

/-- An answer tells the caller what it was given, of the request that stands in the slots. -/
theorem told_refuse {s m : State} (h : m.mbx = s.mbx) (sv : Server) (fn : Nat) (r : Reason) (ws : List Nat) :
    Told s (refuse m sv fn r ws) sv fn r ws := by
  have hslot : mbxSlot m sv fn = mbxSlot s sv fn := by rw [mbxSlot, h, mbxSlot]
  have hcmd : rqCmd m sv fn = rqCmd s sv fn := by simp only [rqCmd, rqWord, hslot]
  have hqueue : mbxQueue m sv = mbxQueue s sv := by cases sv <;> simp only [mbxQueue, h]
  have hword (i : Nat) (hi : i < (rspHeader (rqCmd s sv fn) r.status r ws.length :: ws).length) :
      eGet 0 i (slotTold m sv fn r ws).rsp = (rspHeader (rqCmd s sv fn) r.status r ws.length :: ws).getD i 0 % 2 ^ 64 := by
    rw [← hcmd]
    exact eGet_wordTable _ (by rw [← hcmd] at hi; exact hi)
  rw [Told, mbxSlot_refuse, mbxQueue_refuse, hqueue]
  refine ⟨rfl, rfl, congrArg MbxSlot.goSeq hslot, hword 0 (by simp), fun i hi => ?_, rfl, mbxDone_mem_refuse ..⟩
  exact hword (i + 1) (by simpa using hi)

/-- A command that is done is answered without a reason. -/
theorem answerOk_eq (s : State) (sv : Server) (fn : Nat) (ws : List Nat) : answerOk s sv fn ws = refuse s sv fn .none ws := rfl

theorem refuse_regs (s : State) (sv : Server) (fn : Nat) (r : Reason) (ws : List Nat) : (refuse s sv fn r ws).regs = s.regs :=
  ((refuse_keeps (by decide) (by decide) (Keeps.refl [.host, .mbx] s)).only .regs (by decide)).1

theorem refuse_sch (s : State) (sv : Server) (fn : Nat) (r : Reason) (ws : List Nat) : (refuse s sv fn r ws).sch = s.sch :=
  (refuse_keeps (by decide) (by decide) (Keeps.refl [.host, .mbx] s)).only .sch (by decide)

theorem fld_refuse (s : State) (sv : Server) (fn : Nat) (r : Reason) (ws : List Nat) (a : Nat) (f : Fld) :
    fld (refuse s sv fn r ws) a f = fld s a f := by
  rw [fld, rd_of_regs_eq (refuse_regs ..), ← fld]

theorem flag_refuse (s : State) (sv : Server) (fn : Nat) (r : Reason) (ws : List Nat) (a : Nat) (f : Fld) :
    flag (refuse s sv fn r ws) a f = flag s a f := by
  rw [flag, fld_refuse, ← flag]

theorem schState_refuse (s : State) (sv : Server) (fn : Nat) (r : Reason) (ws : List Nat) (t : Nat) :
    schState (refuse s sv fn r ws) t = schState s t := fld_refuse ..

/-! ### A command taken up (R397, R548) -/

/-- A command whose form is right carried out, or refused for its caller's privilege. -/
def ifPrivileged (s : State) (sv : Server) (fn : Nat) (priv : State → Option Reason) (k : State → State) : State :=
  match priv s with
  | some r => refuse s sv fn r
  | none => k s

section SlotTurn

variable {s : State} {sv : Server} {fn cmd : Nat} (h : slotTurn s sv fn cmd = true)
include h

/-- What a command in turn fulfils. -/
theorem slotTurn_facts : mbxQueue s sv = [fn] ∧ mbxTurn s sv fn cmd = true ∧ firstCheck s sv fn = none ∧ bits (rqWord s sv fn 0) 39 16 = 0 ∧
    rqPlen s sv fn ≤ 2040 ∧ rqPlen s sv fn % 8 = 0 := by
  simp only [slotTurn, Bool.and_eq_true, beq_iff_eq, decide_eq_true_eq, Option.isNone_iff_eq_none] at h
  obtain ⟨⟨⟨⟨⟨⟨hqueue, hturn⟩, hfirst⟩, hbits⟩, hlen⟩, hwords⟩, -⟩ := h
  exact ⟨hqueue, hturn, hfirst, hbits, hlen, hwords⟩

/-- With its command answered the server has nothing left to refuse. -/
theorem mbxQueue_refuse_of_turn {m : State} (hm : m.mbx = s.mbx) (r : Reason) (ws : List Nat) : mbxQueue (refuse m sv fn r ws) sv = [] := by
  have hqueue : mbxQueue m sv = mbxQueue s sv := by cases sv <;> simp only [mbxQueue, hm]
  rw [mbxQueue_refuse, hqueue, (slotTurn_facts h).1, List.erase_cons_head]

/-- A command in turn whose form is right goes on to its caller's privilege. -/
theorem mbxCommand_of_turn {fmt : State → Bool} (hfmt : fmt s = true) (priv : State → Option Reason) (k : State → State) :
    mbxCommand s sv fn cmd fmt priv k =
      refuseFirst sv (mbxQueue (ifPrivileged s sv fn priv k) sv).length (ifPrivileged s sv fn priv k) := by
  obtain ⟨-, hturn, hfirst, hbits, hlen, hwords⟩ := slotTurn_facts h
  rw [mbxCommand]
  dsimp only
  rw [hfirst, if_neg (by simp [hturn]), if_neg (by simp [hbits, hwords, hfmt]; omega)]
  rfl

theorem mbxCommand_refused {fmt : State → Bool} (hfmt : fmt s = true) {priv : State → Option Reason} {r : Reason} (hpriv : priv s = some r)
    (k : State → State) : mbxCommand s sv fn cmd fmt priv k = refuse s sv fn r [] := by
  rw [mbxCommand_of_turn h hfmt, ifPrivileged, hpriv]
  dsimp only
  rw [mbxQueue_refuse_of_turn h rfl, List.length_nil, refuseFirst]

theorem mbxCommand_carriedOut {fmt : State → Bool} (hfmt : fmt s = true) {priv : State → Option Reason} (hpriv : priv s = none) {k : State → State}
    (hk : mbxQueue (k s) sv = []) : mbxCommand s sv fn cmd fmt priv k = k s := by
  rw [mbxCommand_of_turn h hfmt, ifPrivileged, hpriv]
  dsimp only
  rw [hk, List.length_nil, refuseFirst]

end SlotTurn

/-! ### The seal gate (R547, R548) -/

section Gate

variable {s : State} {fn n : Nat} {recs : List Byte}

/-- A gate that opens finds the trailer in its place. -/
theorem gateMissing_of_opens (h : gateOpens s fn n recs = true) : gateMissing s fn n = none := by
  rw [gateMissing, if_neg]
  rintro ⟨hgated, hlen⟩
  simp [gateOpens, hgated, hlen] at h

theorem gatedLen_of_opens (h : gateOpens s fn n recs = true) : gatedLen s fn n = true := by
  simp only [gateOpens, Bool.and_eq_true] at h
  exact h.1

/-- Behind a gate that opens the command acts. -/
theorem throughGate_of_opens (h : gateOpens s fn n recs = true) (k : State → State) : throughGate s fn n recs k = k (pastGate s fn n) := by
  rw [throughGate, pastGate]
  by_cases hgated : gatedHere s fn = true
  · simp only [gateOpens, hgated, Bool.not_true, Bool.false_or, Bool.and_eq_true, Bool.not_eq_true'] at h
    obtain ⟨-, ⟨-, hinj⟩, hauth⟩ := h
    simp [hgated, hinj, hauth]
  · simp [hgated]

theorem pastGate_keeps (s : State) (fn n : Nat) : Keeps [.regs] s (pastGate s fn n) := by
  rw [pastGate]
  exact .ite (setFld_keeps (by decide) (.refl _ s)) (.refl _ s)

/-- The gate counts in its sequence register alone. -/
theorem pastGate_regsOutside (s : State) (fn n : Nat) : RegsOutside [Reg.secCseq fn] s (pastGate s fn n) := by
  rw [pastGate]
  split
  · exact setFld_regsOutside _ _ _ (by simp)
  · exact regsOutside_of_regs_eq rfl

end Gate

/-! ### Gated commands (R548) -/

section Gated

variable {s : State} {fn cmd n : Nat} {fmt : State → Bool} {priv : State → Option Reason} {chk : State → Option (Reason × List Nat)}
  {recs : List Byte} (h : takesUp s .f fn cmd = true) (hfmt : fmt s = true)
include h hfmt

theorem fwGated_refused_priv (hlen : gatedLen s fn n = true) {r : Reason} (hpriv : priv s = some r) (act : State → State) :
    fwGated s fn cmd n fmt priv chk recs act = refuse s .f fn r [] := by
  have hturn : slotTurn s .f fn cmd = true := by simp only [takesUp, Bool.and_eq_true] at h; exact h.1
  rw [fwGated, fwRun, mbxCommand_refused hturn (by simp [hlen, hfmt]) (by rw [hpriv, orElse])]

variable (hgate : gateOpens s fn n recs = true) (hpriv : priv s = none)
include hgate hpriv

theorem fwGated_refused_chk {r : Reason} {ws : List Nat} (hchk : chk s = some (r, ws)) (act : State → State) :
    fwGated s fn cmd n fmt priv chk recs act = refuse s .f fn r ws := by
  have hturn : slotTurn s .f fn cmd = true := by simp only [takesUp, Bool.and_eq_true] at h; exact h.1
  rw [fwGated, fwRun, mbxCommand_carriedOut hturn (by simp [gatedLen_of_opens hgate, hfmt])
    (by rw [hpriv, orElse, gateMissing_of_opens hgate]) (by rw [hchk]; exact mbxQueue_refuse_of_turn hturn rfl r ws), hchk]

theorem fwGated_acts (hchk : chk s = none) {act : State → State} {m : State} (hm : m.mbx = s.mbx) {r : Reason} {ws : List Nat}
    (hact : act (pastGate s fn n) = refuse m .f fn r ws) : fwGated s fn cmd n fmt priv chk recs act = refuse m .f fn r ws := by
  have hturn : slotTurn s .f fn cmd = true := by simp only [takesUp, Bool.and_eq_true] at h; exact h.1
  have hrun : throughGate s fn n recs act = refuse m .f fn r ws := (throughGate_of_opens hgate act).trans hact
  rw [fwGated, fwRun, mbxCommand_carriedOut hturn (by simp [gatedLen_of_opens hgate, hfmt])
    (by rw [hpriv, orElse, gateMissing_of_opens hgate])
    (by rw [hchk]; dsimp only; rw [hrun]; exact mbxQueue_refuse_of_turn hturn hm r ws), hchk]
  exact hrun

end Gated

/-! ### A router's crossbar entries (R59) -/

/-- Definitions that end before an offset do not hold it. -/
theorem findReg_append {l : List RegDef} {o : Nat} (h : ∀ d ∈ l, 0 < d.stride ∧ d.off + (d.first + d.count) * d.stride ≤ o) (r : List RegDef) :
    findReg o (l ++ r) = findReg o r := by
  induction l with
  | nil => rfl
  | cons d l ih =>
    rw [List.forall_mem_cons] at h
    obtain ⟨⟨hstride, hend⟩, hl⟩ := h
    rw [List.cons_append, findReg, if_neg, ih hl]
    rintro ⟨-, -, hlt⟩
    rw [Nat.div_lt_iff_lt_mul hstride] at hlt
    omega

/-- A definition holds its entries' offsets. -/
theorem findReg_cons {d : RegDef} {o i : Nat} (ho : d.off + d.first * d.stride ≤ o ∧ (o - d.off) % d.stride = 0 ∧
    (o - d.off) / d.stride < d.first + d.count) (hi : (o - d.off) / d.stride = i) (r : List RegDef) : findReg o (d :: r) = some (d, i) := by
  rw [findReg, if_pos ho, hi]

theorem findReg_xbar0 {i : Nat} (hi : i < 4096) : findReg (0x10000 + i * 8) rtrRegs = some (rtrXbar0Def, i) := by
  have hbefore : ∀ d ∈ rtrRegs.take 21, 0 < d.stride ∧ d.off + (d.first + d.count) * d.stride ≤ 0x10000 := by decide
  have hend := findReg_append (o := 0x10000 + i * 8) (fun d hd => ⟨(hbefore d hd).1, (hbefore d hd).2.trans (Nat.le_add_right _ _)⟩)
    [rtrXbar0Def, rtrXbar1Def]
  exact hend.trans (findReg_cons (by simp only [rtrXbar0Def]; omega) (by simp only [rtrXbar0Def]; omega) _)

theorem findReg_xbar1 {i : Nat} (hi : i < 4096) : findReg (0x18000 + i * 8) rtrRegs = some (rtrXbar1Def, i) := by
  have hbefore : ∀ d ∈ rtrRegs.take 22, 0 < d.stride ∧ d.off + (d.first + d.count) * d.stride ≤ 0x18000 := by decide
  have hend := findReg_append (o := 0x18000 + i * 8) (fun d hd => ⟨(hbefore d hd).1, (hbefore d hd).2.trans (Nat.le_add_right _ _)⟩)
    [rtrXbar1Def]
  exact hend.trans (findReg_cons (by simp only [rtrXbar1Def]; omega) (by simp only [rtrXbar1Def]; omega) _)

/-- The definition of the entries of a bank. -/
def xbarDef (bank : Nat) : RegDef := if bank = 0 then rtrXbar0Def else rtrXbar1Def

theorem xbar_eq (tile bank i : Nat) : xbar tile bank i = 0x1000000 + tile * 0x40000 + (if bank = 0 then 0x10000 else 0x18000) + i * 8 := by
  rw [xbar]
  split <;> simp only [Reg.rtrXbar0, Reg.rtrXbar1, Blk.base]

/-- A crossbar entry is a register of its router. -/
theorem regAt_xbar {tile i : Nat} (bank : Nat) (ht : tile < 64) (hi : i < 4096) :
    regAt (xbar tile bank i) = some (.blk (.rtr tile), xbarDef bank, i) := by
  have hbase (o : Nat) (hlo : 0x4000 ≤ o) (hhi : o < 0x40000) (hx : xbar tile bank i = 0x1000000 + tile * 0x40000 + o) :
      regAt (xbar tile bank i) = (findReg o rtrRegs).map fun x => (RegHome.blk (.rtr tile), x.1, x.2) := by
    rw [regAt, blkOf_rtr tile o _ hx ht hhi]
    dsimp only
    rw [if_neg (by simp; omega)]
  rw [xbar_eq, xbarDef] at *
  by_cases hbank : bank = 0
  · rw [if_pos hbank] at *
    rw [hbase (0x10000 + i * 8) (by omega) (by omega) (by omega), findReg_xbar0 hi, if_pos hbank]
    rfl
  · rw [if_neg hbank] at *
    rw [hbase (0x18000 + i * 8) (by omega) (by omega) (by omega), findReg_xbar1 hi, if_neg hbank]
    rfl

theorem fieldsAt_xbar {tile i : Nat} (bank : Nat) (ht : tile < 64) (hi : i < 4096) : ∀ d ∈ fieldsAt (xbar tile bank i), d.acc = .rw := by
  rw [fieldsAt, regAt_xbar bank ht hi]
  dsimp only [xbarDef]
  split <;> decide

theorem noRestore_regs (s : State) (off : Nat) : (noRestore s off).regs = s.regs := by
  rw [noRestore]; split <;> rfl

theorem xbarOwner_of_regs {s u : State} {tile : Nat} (h : ∀ t, rd u (Reg.rtrSchRange tile t) = rd s (Reg.rtrSchRange tile t)) (i : Nat) :
    xbarOwner u tile i = xbarOwner s tile i := by
  have hfld (t : Nat) (f : Fld) : fld u (Reg.rtrSchRange tile t) f = fld s (Reg.rtrSchRange tile t) f := congrArg (getF · f) (h t)
  rw [xbarOwner, xbarOwner]
  dsimp only
  congr 1
  funext t
  rw [hfld, hfld]

/-- A record for an entry of an owner's range writes it, while nothing is armed for the owner. -/
theorem applyWrite_xbar {s : State} {tile i t bank : Nat} (ht : tile < 64) (hi : i < 4096) (hbank : bank < 2)
    (howner : xbarOwner s tile i = some t) (harmed : flag s (Reg.fabSchCtx t) FabSchCtx.ARMED = false) (v : Nat) :
    applyWrite s (xbar tile bank i) v = wrReg (noRestore s (xbar tile bank i)) (xbar tile bank i)
      (accessWrite (rd s (xbar tile bank i)) (BitVec.ofNat 64 v) (fieldsAt (xbar tile bank i))) := by
  have hregs := rd_of_regs_eq (noRestore_regs s (xbar tile bank i))
  have howner' : xbarOwner (noRestore s (xbar tile bank i)) tile i = some t := (xbarOwner_of_regs (fun _ => hregs _) i).trans howner
  have harmed' : flag (noRestore s (xbar tile bank i)) (Reg.fabSchCtx t) FabSchCtx.ARMED = false := by rw [flag, fld, hregs]; exact harmed
  have hfields := fieldsAt_xbar bank ht hi
  have hwrite : xbarWrite (noRestore s (xbar tile bank i)) tile bank i (xbar tile bank i) v =
      softWrite (noRestore s (xbar tile bank i)) (xbar tile bank i) v := by
    rw [xbarWrite, howner']
    simp [harmed']
  have hblk : applyWrite s (xbar tile bank i) v = xbarWrite (noRestore s (xbar tile bank i)) tile bank i (xbar tile bank i) v := by
    rw [applyWrite, regAt_xbar bank ht hi]
    obtain rfl | rfl : bank = 0 ∨ bank = 1 := by omega
    · rfl
    · rfl
  rw [hblk, hwrite, softWrite_eq_wrReg (fun d hd => by rw [hfields d hd]; decide) (fun d hd => by rw [hfields d hd]; decide), hregs]

/-- A crossbar entry is no stream's descriptor. -/
theorem clearStream_xbar {tile i : Nat} (bank : Nat) (ht : tile < 64) (hi : i < 4096) (s : State) : clearStream s (xbar tile bank i) = s := by
  rw [clearStream, regAt_xbar bank ht hi]
  dsimp only [xbarDef]
  split <;> exact if_pos (by decide)

/-! ### SCHED_LOAD (R403, R414) -/

section OfMbx

variable {s m : State} (h : m.mbx = s.mbx)
include h

theorem rqW_of_mbx (sv : Server) (fn i : Nat) : rqW m sv fn i = rqW s sv fn i := by
  rw [rqW, rqWord, mbxSlot, h]; rfl

theorem schedTenant_of_mbx (fn : Nat) : schedTenant m fn = schedTenant s fn := by
  rw [schedTenant, rqW_of_mbx h, schedTenant]

theorem listRecs_of_mbx (fn : Nat) (bs : List Byte) : listRecs m fn bs = listRecs s fn bs := by
  rw [listRecs, listCount, rqW_of_mbx h]; rfl

end OfMbx

/-- What a schedule's list leaves. -/
def schedLoaded (s : State) (fn t : Nat) (bs : List Byte) : State := (tryList (listMay (schedMay t) none) schedApply s 0 (listRecs s fn bs)).2

theorem schedLoaded_mbx (s : State) (fn t : Nat) (bs : List Byte) : (schedLoaded s fn t bs).mbx = s.mbx :=
  (tryList_keeps (fun _ _ _ hu => schedApply_keeps (by decide) (by decide) (by decide) (by decide) (by decide) (by decide) (by decide) (by decide)
    (by decide) (by decide) (by decide) (by decide) (by decide) (by decide) (by decide) (by decide) hu) (Keeps.refl
      [.arb, .boot, .bus, .clk, .dyn, .free, .host, .lane, .log, .obs, .red, .regs, .rel, .sch, .slu, .trig] s)).only .mbx (by decide)

/-- The checks of a schedule's list. -/
def schedLoadCheck (d : HostData) (fn : Nat) (s : State) : Option (Reason × List Nat) :=
  if flag s (Reg.fabSchCtx (schedTenant s fn)) FabSchCtx.ARMED then some (.state, [])
  else listCheck d fn (listMay (schedMay (schedTenant s fn)) none) schedApply s

section SchedLoad

variable {s : State} {fn : Nat} {d : HostData} (h : takesUp s .f fn 0x130 = true) (hgate : gateOpens s fn 24 (listBytes s fn d) = true)
  (hlist : listFormat fn s = true) (hsched : schedFormat fn s = true) (hopen : openTo s fn (schedTenant s fn) = none)
include h hgate hlist hsched hopen

theorem exec_schedLoad_refused {r : Reason} {ws : List Nat} (hchk : schedLoadCheck d fn s = some (r, ws)) :
    exec (.schedLoad fn d) s = .next (refuse s .f fn r ws) := by
  exact congrArg Host.Outcome.next (fwGated_refused_chk (fmt := fun s => listFormat fn s && schedFormat fn s)
    (priv := fun s => openTo s fn (schedTenant s fn)) h (by simp [hlist, hsched]) hgate hopen hchk _)

theorem exec_schedLoad_loaded {bs : List Byte} (hbs : fetched d = some bs) (hchk : schedLoadCheck d fn s = none) :
    exec (.schedLoad fn d) s = .next (refuse (schedLoaded (pastGate s fn 24) fn (schedTenant s fn) bs) .f fn .none []) := by
  have hmbx : (pastGate s fn 24).mbx = s.mbx := (pastGate_keeps s fn 24).only .mbx (by decide)
  have hact : answerOk (listApply d fn (listMay (schedMay (schedTenant (pastGate s fn 24) fn)) none) schedApply (pastGate s fn 24)) .f fn =
      refuse (schedLoaded (pastGate s fn 24) fn (schedTenant s fn) bs) .f fn .none [] := by
    rw [schedTenant_of_mbx hmbx, answerOk_eq, listApply, hbs]
    rfl
  exact congrArg Host.Outcome.next (fwGated_acts (fmt := fun s => listFormat fn s && schedFormat fn s)
    (priv := fun s => openTo s fn (schedTenant s fn)) (act := fun s => answerOk _ .f fn) h (by simp [hlist, hsched]) hgate hopen hchk
    ((schedLoaded_mbx _ fn (schedTenant s fn) bs).trans hmbx) hact)

end SchedLoad

/-- What a list of one record passes. -/
theorem tryList_one {may : State → Nat → Nat → Option Reason} {app : State → Nat → Nat → State} {s : State} {i off v : Nat}
    (h : (tryList may app s i [(off, v)]).1 = none) : ¬ (off % 8 ≠ 0 ∨ 2 ^ 26 ≤ off ∨ (regAt off).isNone = true) ∧ may s off v = none := by
  rw [tryList] at h
  split at h
  · exact absurd h (by simp)
  · next hoff =>
    split at h
    · exact absurd h (by simp)
    · next hmay => exact ⟨hoff, hmay⟩

theorem tryList_one_applied {may : State → Nat → Nat → Option Reason} {app : State → Nat → Nat → State} {s : State} {off v : Nat}
    (hoff : ¬ (off % 8 ≠ 0 ∨ 2 ^ 26 ≤ off ∨ (regAt off).isNone = true)) (hmay : may s off v = none) (i : Nat) :
    tryList may app s i [(off, v)] = (none, app s off v) := by
  rw [tryList, if_neg hoff, hmay, tryList]

/-- A schedule may write an entry of its own range in its shadow bank. -/
theorem schedMay_xbar {tile i bank : Nat} (ht : tile < 64) (hi : i < 4096) (hbank : bank < 2) (s : State) (t v : Nat) :
    schedMay t s (xbar tile bank i) v = (schBank s t != bank && xbarOwner s tile i == some t) := by
  rw [schedMay, regAt_xbar bank ht hi]
  obtain rfl | rfl : bank = 0 ∨ bank = 1 := by omega
  · rfl
  · rfl

/-- The sequence registers of the seal gate are apart from every register of a schedule. -/
theorem secCseq_ne_xbar {fn : Nat} (h : fn < 64) (tile bank i : Nat) : xbar tile bank i ≠ Reg.secCseq fn := by
  rw [xbar_eq]
  simp only [Reg.secCseq, Blk.base]
  omega

theorem secCseq_ne_fabSchCtx {t : Nat} (h : t < 64) (fn : Nat) : Reg.fabSchCtx t ≠ Reg.secCseq fn := by
  simp only [Reg.secCseq, Reg.fabSchCtx, Blk.base]
  omega

theorem secCseq_ne_rtrSchRange {fn : Nat} (h : fn < 64) (tile t : Nat) : Reg.rtrSchRange tile t ≠ Reg.secCseq fn := by
  simp only [Reg.secCseq, Reg.rtrSchRange, Blk.base]
  omega

/-- A permitted record passes both the command's rule and its register's checks. -/
theorem listMay_eq_none {ok : State → Nat → Nat → Bool} {grp : Option (Nat × Nat × Nat)} {s : State} {off v : Nat} :
    listMay ok grp s off v = none ↔ ok s off v = true ∧ took (applyWrite s off v grp) off v = true := by
  rw [listMay]
  split <;> simp_all

theorem took_of_rd {s u : State} {off : Nat} (h : rd u off = rd s off) (v : Nat) : took u off v = took s off v := by
  rw [took, took, h]

section OneEntry

variable {s g : State} {fn t tile i v : Nat} (hfn : fn < 64) (ht : t < 64) (htile : tile < 64) (hi : i < 4096) (hbank : schBank s t < 2)
  (hs : s.wf = true) (hgwf : g.wf = true) (hg : RegsOutside [Reg.secCseq fn] s g) (harmed : flag s (Reg.fabSchCtx t) FabSchCtx.ARMED = false)
include hfn ht htile hi hbank hg harmed

/-- A record for an entry of the tenant's range writes it, whatever the gate has counted. -/
theorem applyWrite_gated (hown : xbarOwner s tile i = some t) :
    applyWrite g (xbar tile (1 - schBank s t) i) v = wrReg (noRestore g (xbar tile (1 - schBank s t) i)) (xbar tile (1 - schBank s t) i)
      (accessWrite (rd s (xbar tile (1 - schBank s t) i)) (BitVec.ofNat 64 v) (fieldsAt (xbar tile (1 - schBank s t) i))) := by
  have hown' : xbarOwner g tile i = some t :=
    (xbarOwner_of_regs (fun t' => hg _ (by simpa using secCseq_ne_rtrSchRange hfn tile t')) i).trans hown
  have harmed' : flag g (Reg.fabSchCtx t) FabSchCtx.ARMED = false := by
    rw [flag, fld, hg _ (by simpa using secCseq_ne_fabSchCtx ht fn)]
    exact harmed
  rw [applyWrite_xbar htile hi (by omega) hown' harmed', hg _ (by simpa using secCseq_ne_xbar hfn tile _ i)]

include hs hgwf

/-- What the list of one record for an entry of the shadow bank leaves behind the gate. -/
theorem schedLoaded_xbar {bs : List Byte} (hrecs : listRecs g fn bs = [(xbar tile (1 - schBank s t) i, v)])
    (hok : (tryList (listMay (schedMay t) none) schedApply s 0 [(xbar tile (1 - schBank s t) i, v)]).1 = none) :
    schedLoaded g fn t bs = wrReg (noRestore g (xbar tile (1 - schBank s t) i)) (xbar tile (1 - schBank s t) i)
      (accessWrite (rd s (xbar tile (1 - schBank s t) i)) (BitVec.ofNat 64 v) (fieldsAt (xbar tile (1 - schBank s t) i))) := by
  obtain ⟨hoff, hmay⟩ := tryList_one hok
  obtain ⟨hrule, htook⟩ := listMay_eq_none.1 hmay
  have hbank' : 1 - schBank s t < 2 := by omega
  have hschBank : schBank g t = schBank s t := by rw [schBank, fld, hg _ (by simpa using secCseq_ne_fabSchCtx ht fn)]; rfl
  rw [schedMay_xbar htile hi hbank', Bool.and_eq_true, beq_iff_eq] at hrule
  obtain ⟨hshadow, hown⟩ := hrule
  have hown' : xbarOwner g tile i = some t :=
    (xbarOwner_of_regs (fun t' => hg _ (by simpa using secCseq_ne_rtrSchRange hfn tile t')) i).trans hown
  have hwrite := applyWrite_gated (v := v) hfn ht htile hi hbank hg harmed hown
  have hread : rd (applyWrite g (xbar tile (1 - schBank s t) i) v) (xbar tile (1 - schBank s t) i) =
      rd (applyWrite s (xbar tile (1 - schBank s t) i) v) (xbar tile (1 - schBank s t) i) := by
    rw [hwrite, applyWrite_gated (v := v) hfn ht htile hi hbank (fun _ _ => rfl) harmed hown,
      rd_wrReg_same ((noRestore_keeps (by decide) (Keeps.refl [.rel] g)).wf hgwf),
      rd_wrReg_same ((noRestore_keeps (by decide) (Keeps.refl [.rel] s)).wf hs)]
  have hmay' : listMay (schedMay t) none g (xbar tile (1 - schBank s t) i) v = none := by
    rw [listMay_eq_none, schedMay_xbar htile hi hbank', hschBank, hown', took_of_rd hread]
    exact ⟨by simpa using hshadow, htook⟩
  rw [schedLoaded, hrecs, tryList_one_applied hoff hmay', schedApply, clearStream_xbar _ htile hi, hwrite]

end OneEntry

theorem schedLoadCheck_unarmed {s : State} {fn : Nat} (harmed : flag s (Reg.fabSchCtx (schedTenant s fn)) FabSchCtx.ARMED = false) (d : HostData) :
    schedLoadCheck d fn s = listCheck d fn (listMay (schedMay (schedTenant s fn)) none) schedApply s := by
  rw [schedLoadCheck, harmed]
  exact if_neg (by simp)

/-! ### Slot tables and the shadow bank (R151, R414) -/

/-- A slot table is affected according to the registers of its window. -/
theorem slotAffected_of_rd {s g : State} {a : Arb} (h : ∀ o, o < 0x2000 → rd g (a.base + o) = rd s (a.base + o)) (t : Nat) :
    slotAffected g t a = slotAffected s t a := by
  have hctl : fld g (Reg.arbCtl a) ArbCtl.BANK = fld s (Reg.arbCtl a) ArbCtl.BANK := congrArg (getF · ArbCtl.BANK) (h 0x1628 (by omega))
  have hword (k : Nat) (hk : k < 256) :
      rd g (slotWords s a k).1 = rd s (slotWords s a k).1 ∧ rd g (slotWords s a k).2 = rd s (slotWords s a k).2 := by
    have h0 : rd g (Reg.arbSlot0 a k) = rd s (Reg.arbSlot0 a k) := by simpa only [Reg.arbSlot0, Nat.add_assoc] using h (0 + k * 8) (by omega)
    have h1 : rd g (Reg.arbSlot1 a k) = rd s (Reg.arbSlot1 a k) := by
      simpa only [Reg.arbSlot1, Nat.add_assoc] using h (0x800 + k * 8) (by omega)
    rw [slotWords]
    split
    · exact ⟨h0, h1⟩
    · exact ⟨h1, h0⟩
  have hwords (k : Nat) : slotWords g a k = slotWords s a k := by rw [slotWords, hctl, slotWords]
  rw [slotAffected, slotAffected, Bool.eq_iff_iff]
  simp only [List.any_eq_true, List.mem_range, hwords]
  exact exists_congr fun k => and_congr_right fun hk => by rw [(hword k hk).1, (hword k hk).2]

/-- With the good tiles and the slot tables as they were, no table has become affected. -/
theorem no_slots_affected {s g : State} {t : Nat} (hgood : rd g Reg.fabGoodTiles = rd s Reg.fabGoodTiles)
    (hwin : ∀ a, arbOk a = true → ∀ o, o < 0x2000 → rd g (a.base + o) = rd s (a.base + o)) (h : ∀ x ∈ allSlots s, slotAffected s t x = false) :
    (allSlots g).filter (slotAffected g t) = [] := by
  have hall : allSlots g = allSlots s := by
    have htile : good g = good s := funext fun tile => by rw [good, fld, hgood, good, fld]
    rw [allSlots, htile, allSlots]
  rw [hall, List.filter_eq_nil_iff]
  intro a ha
  rw [slotAffected_of_rd (hwin a (allSlots_ok s a ha)), h a ha]
  decide

/-- The registers that may hold a tenant's crossbar entries and the first words of its descriptors. -/
def ShadowReg (r : Nat) : Prop :=
  (∃ tile bank i, tile < 64 ∧ i < 4096 ∧ r = xbar tile bank i) ∨ (∃ m n, m < 12 ∧ n < 512 ∧ r = Reg.mepStreamDesc m (4 * n)) ∨
    ∃ tile n, tile < 64 ∧ n < 256 ∧ r = Reg.tniPumpDesc tile (4 * n)

/-- What SCHED_STOP empties. -/
def shadowRegs (s : State) (t : Nat) : List Nat := shadowXbars s t ++ shadowDescs s t

theorem mem_shadowXbars {s : State} {t r : Nat} : r ∈ shadowXbars s t ↔
    ∃ tile i, tile < 64 ∧ i < min 4096 (fld s (Reg.rtrSchRange tile t) RtrSchRange.COUNT) ∧
    r = xbar tile (1 - schBank s t) ((fld s (Reg.rtrSchRange tile t) RtrSchRange.BASE + i) % 4096) := by
  simp only [shadowXbars, List.mem_flatMap, List.mem_range, List.mem_map]
  constructor
  · rintro ⟨tile, ht, i, hi, rfl⟩; exact ⟨tile, i, ht, hi, rfl⟩
  · rintro ⟨tile, i, ht, hi, rfl⟩; exact ⟨tile, ht, i, hi, rfl⟩

theorem shadowReg_of_mem {s : State} {t r : Nat} (h : r ∈ shadowRegs s t) : ShadowReg r := by
  rcases List.mem_append.1 h with h | h
  · obtain ⟨tile, i, ht, -, rfl⟩ := mem_shadowXbars.1 h
    exact .inl ⟨tile, _, _, ht, Nat.mod_lt _ (by decide), rfl⟩
  · simp only [shadowDescs, descsFor, descUnits, List.mem_map, List.mem_filter, List.mem_flatMap, List.mem_append, List.mem_range] at h
    obtain ⟨x, ⟨⟨b, hb, n, ⟨hn, -⟩, rfl⟩, -⟩, rfl⟩ := h
    rcases hb with ⟨tile, ht, rfl⟩ | ⟨m, hm, rfl⟩
    · exact .inr (.inr ⟨tile, n, ht, hn, rfl⟩)
    · exact .inr (.inl ⟨m, n, hm, hn, rfl⟩)

/-- The shadow bank's registers are none of the arbiters', of the good tiles' or of the schedule's. -/
theorem ShadowReg.ne_arb {r o : Nat} {a : Arb} (h : ShadowReg r) (ha : arbOk a = true) (ho : o < 0x2000) : a.base + o ≠ r := by
  have hbank (bank : Nat) : 0x10000 ≤ (if bank = 0 then 0x10000 else 0x18000) ∧ (if bank = 0 then 0x10000 else 0x18000) ≤ 0x18000 := by
    split <;> omega
  rcases h with ⟨tile, bank, i, ht, hi, rfl⟩ | ⟨m, n, hm, hn, rfl⟩ | ⟨tile, n, ht, hn, rfl⟩
  · have hb := hbank bank
    cases a <;> simp only [arbOk, below, Bool.and_eq_true, decide_eq_true_eq] at ha <;> simp only [xbar_eq, Arb.base, Arb.blk, Blk.base] <;> omega
  · cases a <;> simp only [arbOk, below, Bool.and_eq_true, decide_eq_true_eq] at ha <;>
      simp only [Reg.mepStreamDesc, Arb.base, Arb.blk, Blk.base] <;> omega
  · cases a <;> simp only [arbOk, below, Bool.and_eq_true, decide_eq_true_eq] at ha <;>
      simp only [Reg.tniPumpDesc, Arb.base, Arb.blk, Blk.base] <;> omega

theorem ShadowReg.ne_fab {r o : Nat} (h : ShadowReg r) (ho : o < 0x100000) : o ≠ r := by
  rcases h with ⟨tile, bank, i, -, -, rfl⟩ | ⟨m, n, -, -, rfl⟩ | ⟨tile, n, -, -, rfl⟩ <;>
    simp only [xbar_eq, Reg.mepStreamDesc, Reg.tniPumpDesc, Blk.base] <;> omega

/-- Writes at the places of a list touch these places alone. -/
theorem RegsOutside.foldl {f : State → Nat → State} (hf : ∀ s r, RegsOutside [r] s (f s r)) (l : List Nat) (s : State) :
    RegsOutside l s (l.foldl f s) := by
  induction l generalizing s with
  | nil => exact fun _ _ => rfl
  | cons r l ih => exact ((hf s r).mono (by simp)).trans ((ih _).mono (by simp))

theorem emptyShadow_regsOutside (s : State) (t : Nat) : RegsOutside (shadowRegs s t) s (emptyShadow s t) :=
  ((RegsOutside.foldl (fun s r => wrReg_regsOutside s r _) (shadowXbars s t) s).mono (List.subset_append_left _ _)).trans
    ((RegsOutside.foldl (fun s r => wrReg_regsOutside s r _) (shadowDescs s t) _).mono (List.subset_append_right _ _))

theorem fillShadow_regsOutside (s : State) (t : Nat) (u : State) : RegsOutside (shadowRegs s t) u (fillShadow s t u) :=
  RegsOutside.foldl (fun u r => wrReg_regsOutside u r _) _ u

theorem fillShadow_mbx (s : State) (t : Nat) (u : State) : (fillShadow s t u).mbx = u.mbx :=
  (Keeps.foldl (.refl _ u) fun _ _ h => wrReg_keeps (w := [.regs]) (by decide) h : Keeps [.regs] u (fillShadow s t u)).only .mbx (by decide)

/-- A place of a list of writes holds what is written there. -/
theorem rd_foldl_wrReg (w : Nat → Word) {l : List Nat} {s : State} (h : s.wf = true) {r : Nat} (hr : r ∈ l) :
    rd (l.foldl (fun u r => wrReg u r (w r)) s) r = w r := by
  induction l generalizing s with
  | nil => exact absurd hr (List.not_mem_nil)
  | cons a l ih =>
    by_cases hl : r ∈ l
    · exact ih (wf_wrReg h a (w a)) hl
    · obtain rfl : r = a := (List.mem_cons.1 hr).resolve_right hl
      exact (RegsOutside.foldl (fun u r => wrReg_regsOutside u r (w r)) l _ r hl).trans (rd_wrReg_same h r (w r))

/-- An emptied entry stands at its reset value. -/
theorem rd_emptyShadow {s : State} (h : s.wf = true) {t r : Nat} (hr : r ∈ shadowXbars s t) : rd (emptyShadow s t) r = resetWord r := by
  have hdesc : r ∉ shadowDescs s t := by
    intro hd
    obtain ⟨tile, i, ht, -, rfl⟩ := mem_shadowXbars.1 hr
    simp only [shadowDescs, descsFor, descUnits, List.mem_map, List.mem_filter, List.mem_flatMap, List.mem_append, List.mem_range] at hd
    obtain ⟨x, ⟨⟨b, hb, n, ⟨hn, -⟩, rfl⟩, -⟩, hslot⟩ := hd
    have hentry := xbar_eq tile (1 - schBank s t) ((fld s (Reg.rtrSchRange tile t) RtrSchRange.BASE + i) % 4096)
    have hmod := Nat.mod_lt (fld s (Reg.rtrSchRange tile t) RtrSchRange.BASE + i) (show 0 < 4096 by decide)
    rcases hb with ⟨k, hk, rfl⟩ | ⟨m, hm, rfl⟩
    · simp only [descSlot, Reg.tniPumpDesc, Blk.base] at hslot
      split at hentry <;> omega
    · simp only [descSlot, Reg.mepStreamDesc, Blk.base, descCount] at hslot hn
      split at hentry <;> omega
  exact (RegsOutside.foldl (fun s r => wrReg_regsOutside s r _) (shadowDescs s t) _ r hdesc).trans (rd_foldl_wrReg resetWord h hr)

/-- What was emptied is put back as it stood. -/
theorem rd_fillShadow {s u : State} (h : u.wf = true) {t r : Nat} (hr : r ∈ shadowXbars s t) : rd (fillShadow s t u) r = rd s r :=
  rd_foldl_wrReg (rd s) h (List.mem_append_left _ hr)

/-! ### A takeover requested (R414) -/

theorem wf_armBegun {s : State} (h : s.wf = true) (t time : Nat) : (armBegun s t time).wf = true := wf_setTen (wf_timeHeld h t time) t _

theorem armBegun_regsOutside (s : State) (t time : Nat) : RegsOutside (armRegs t) s (armBegun s t time) :=
  (timeHeld_regsOutside s t time).trans (setTen_regsOutside _ _ _ _)

theorem armBegun_mbx (s : State) (t time : Nat) : (armBegun s t time).mbx = s.mbx := by
  simp only [armBegun, setTen, timeHeld, setFld_mbx]

/-- The takeover of a tenant armed and checked. -/
def takeoverArmed (g : State) (t time : Nat) : State := checkEnded (armBegun g t time) t (armCheck (armBegun g t time) t)

theorem takeoverArmed_mbx (g : State) (t time : Nat) : (takeoverArmed g t time).mbx = g.mbx := by
  rw [takeoverArmed, checkEnded_mbx, armBegun_mbx]

theorem takeoverArmed_regsOutside (g : State) (t time : Nat) : RegsOutside (armRegs t) g (takeoverArmed g t time) :=
  (armBegun_regsOutside g t time).trans (checkEnded_regsOutside _ t _)

theorem after_execSchArm {t time : Nat} (h1 : 1 ≤ t) (h64 : t < 64) (htime : 0 < time) (g : State) :
    after (execSchArm t time g) g = armBegun g t time := by
  rw [execSchArm_eq h1 h64 htime]; rfl

section ArmRun

variable {g : State} (hg : g.wf = true) {fn t time : Nat} (ht : schedTenant g fn = t) (hrq : rqW g .f fn 0 = time) (h1 : 1 ≤ t) (h64 : t < 64)
  (htime : 0 < time)
include hg h1 h64

theorem wf_takeoverArmed : (takeoverArmed g t time).wf = true := by
  have hstep : takeoverArmed g t time = after (execSchArmCheckDone t (armBegun g t time)) (armBegun g t time) := by
    rw [execSchArmCheckDone_eq h1 h64 (checking_armBegun g t time)]; rfl
  rw [hstep]
  exact (after_keeps (execSchArmCheckDone_keeps (w := [.regs, .sch]) (by decide) (by decide) (.refl _ _))).wf (wf_armBegun hg t time)

include ht hrq htime

/-- With no slot table affected the schedule's own takeover is armed, and on a failure the command undoes what it did before. -/
theorem schedArmRun_eq (hslots : (allSlots g).filter (slotAffected g t) = []) (undo : State → State) :
    let c := armCheck (armBegun g t time) t % 2 ^ fldWidth FabSchCtx.ARMERR
    schedArmRun fn undo g = refuse (if c = 0 then takeoverArmed g t time else undo (takeoverArmed g t time)) .f fn
      (if c = 0 then .none else .check) [c] := by
  intro c
  have harm : after (execSchArm t time g) g = armBegun g t time := after_execSchArm h1 h64 htime g
  have hcheck : after (execSchArmCheckDone t (armBegun g t time)) (armBegun g t time) = takeoverArmed g t time := by
    rw [execSchArmCheckDone_eq h1 h64 (checking_armBegun g t _)]; rfl
  have hall : armAll t time g [] = (takeoverArmed g t time, c) := by
    rw [armAll, harm, hcheck]
    exact congrArg (Prod.mk _) (fld_checkEnded_armerr (wf_armBegun hg t _) h64 _)
  rw [schedArmRun, ht, hrq, hslots, hall]
  split
  · next hc =>
    have hc : c = 0 := hc
    rw [answerOk_eq, hc]
  · rfl

end ArmRun

section TakeoverArmed

variable {g : State} (hg : g.wf = true) {t : Nat} (h64 : t < 64) (time : Nat)
include hg h64

theorem flag_takeoverArmed : flag (takeoverArmed g t time) (Reg.fabSchCtx t) FabSchCtx.ARMED = decide (armCheck (armBegun g t time) t = 0) := by
  rw [takeoverArmed, flag_checkEnded_armed (wf_armBegun hg t time) h64]

theorem fld_takeoverArmed_time : fld (takeoverArmed g t time) (Reg.fabSchArm t) FabSchArm.TIME =
    if armCheck (armBegun g t time) t = 0 then time % 2 ^ fldWidth FabSchArm.TIME else 0 := by
  have harm : fld (armBegun g t time) (Reg.fabSchArm t) FabSchArm.TIME = time % 2 ^ fldWidth FabSchArm.TIME := by
    rw [fld, armBegun, rd_setTen, rd_timeHeld_arm hg h64, getF_setF_same (by decide) (by decide)]
  rw [takeoverArmed, fld_checkEnded_time (wf_armBegun hg t time) h64, harm]

theorem schState_takeoverArmed : schState (takeoverArmed g t time) t =
    if armCheck (armBegun g t time) t = 0 ∧ schState g t ≠ 2 then 1
    else if armCheck (armBegun g t time) t ≠ 0 ∧ schState g t = 1 then 0 else schState g t := by
  have hstate : schState (armBegun g t time) t = schState g t := by
    rw [schState, fld, armBegun, rd_setTen, ← fld, ← schState, schState_timeHeld hg h64]
  rw [takeoverArmed, schState_checkEnded (wf_armBegun hg t time) h64, hstate]
  by_cases he : armCheck (armBegun g t time) t = 0 <;> by_cases hrun : schState g t = 2 <;> simp [he, hrun]

end TakeoverArmed

theorem armFormat_facts {fn : Nat} {s : State} (h : armFormat fn s = true) :
    0 < rqW s .f fn 0 ∧ 1 ≤ schedTenant s fn ∧ schedTenant s fn < 64 := by
  simp only [armFormat, schedFormat, Bool.and_eq_true, decide_eq_true_eq, bne_iff_ne] at h
  omega

theorem schedFormat_tenant {fn : Nat} {s : State} (h : schedFormat fn s = true) : 1 ≤ schedTenant s fn ∧ schedTenant s fn < 64 := by
  simp only [schedFormat, Bool.and_eq_true, decide_eq_true_eq] at h
  omega

/-- The gate's sequence registers lie apart from every arbiter's and from the fabric's. -/
theorem secCseq_ne_arb {fn : Nat} (h : fn < 64) (a : Arb) (o : Nat) : a.base + o ≠ Reg.secCseq fn := by
  cases a <;> simp only [Arb.base, Arb.blk, Blk.base, Reg.secCseq] <;> omega

theorem secCseq_ne_fabGoodTiles (fn : Nat) : Reg.fabGoodTiles ≠ Reg.secCseq fn := by
  simp only [Reg.fabGoodTiles, Reg.secCseq, Blk.base]
  omega

/-- Behind the gate no slot table has become affected. -/
theorem no_slots_affected_pastGate {s : State} {fn n t : Nat} (hfn : fn < 64) (h : ∀ x ∈ allSlots s, slotAffected s t x = false) :
    (allSlots (pastGate s fn n)).filter (slotAffected (pastGate s fn n) t) = [] :=
  no_slots_affected (pastGate_regsOutside s fn n _ (by simpa using secCseq_ne_fabGoodTiles fn))
    (fun a _ o _ => pastGate_regsOutside s fn n _ (by simpa using secCseq_ne_arb hfn a o)) h

/-- The emptied shadow bank changes no slot table either. -/
theorem no_slots_affected_emptyShadow {s : State} {fn n t : Nat} (hfn : fn < 64) (h : ∀ x ∈ allSlots s, slotAffected s t x = false) :
    (allSlots (emptyShadow (pastGate s fn n) t)).filter (slotAffected (emptyShadow (pastGate s fn n) t) t) = [] := by
  have hempty := emptyShadow_regsOutside (pastGate s fn n) t
  refine no_slots_affected ?_ (fun a ha o ho => ?_) h
  · rw [hempty _ fun hm => (shadowReg_of_mem hm).ne_fab (by decide) rfl, pastGate_regsOutside s fn n _ (by simpa using secCseq_ne_fabGoodTiles fn)]
  · rw [hempty _ fun hm => (shadowReg_of_mem hm).ne_arb ha ho rfl, pastGate_regsOutside s fn n _ (by simpa using secCseq_ne_arb hfn a o)]

/-- An entry of the tenant's range in its shadow bank is one of those that SCHED_STOP empties, whatever the gate has counted. -/
theorem mem_shadowXbars_pastGate {s : State} {fn n t tile i : Nat} (hfn : fn < 64) (ht : t < 64) (htile : tile < 64)
    (hi : i < fld s (Reg.rtrSchRange tile t) RtrSchRange.COUNT) :
    xbar tile (1 - schBank s t) ((fld s (Reg.rtrSchRange tile t) RtrSchRange.BASE + i) % 4096) ∈ shadowXbars (pastGate s fn n) t := by
  have hbank : schBank (pastGate s fn n) t = schBank s t :=
    congrArg (getF · FabSchCtx.BANK) (pastGate_regsOutside s fn n _ (by simpa using secCseq_ne_fabSchCtx ht fn))
  have hrange (f : Fld) : fld (pastGate s fn n) (Reg.rtrSchRange tile t) f = fld s (Reg.rtrSchRange tile t) f :=
    congrArg (getF · f) (pastGate_regsOutside s fn n _ (by simpa using secCseq_ne_rtrSchRange hfn tile t))
  refine mem_shadowXbars.2 ⟨tile, i % 4096, htile, ?_, ?_⟩
  · rw [hrange]
    exact lt_min (Nat.mod_lt _ (by decide)) (lt_of_le_of_lt (Nat.mod_le _ _) hi)
  · rw [hbank, hrange, Nat.add_mod_mod]

/-- The shadow bank's registers hold none of a tenant's arm. -/
theorem ShadowReg.not_mem_armRegs {r t : Nat} (h : ShadowReg r) (ht : t < 64) : r ∉ armRegs t := by
  have harm := h.ne_fab (o := Reg.fabSchArm t) (by simp only [Reg.fabSchArm, Blk.base]; omega)
  have hctx := h.ne_fab (o := Reg.fabSchCtx t) (by simp only [Reg.fabSchCtx, Blk.base]; omega)
  simp only [List.mem_cons, List.not_mem_nil, or_false, not_or]
  exact ⟨harm.symm, hctx.symm⟩

/-- What SCHED_STOP leaves: the emptied bank armed, or, where the arm fails, the entries as they stood. -/
def stopArmed (p : State) (t time : Nat) : State :=
  let x := takeoverArmed (emptyShadow p t) t time
  if armCheck (armBegun (emptyShadow p t) t time) t % 2 ^ fldWidth FabSchCtx.ARMERR = 0 then x else fillShadow p t x

section StopArmed

variable {p : State} (hp : p.wf = true) {t time : Nat} (h1 : 1 ≤ t) (h64 : t < 64)

theorem stopArmed_mbx (p : State) (t time : Nat) : (stopArmed p t time).mbx = p.mbx := by
  have hempty : (takeoverArmed (emptyShadow p t) t time).mbx = p.mbx :=
    (takeoverArmed_mbx ..).trans ((emptyShadow_keeps (by decide) (Keeps.refl [.regs] p)).only .mbx (by decide))
  rw [stopArmed]
  split
  · exact hempty
  · exact (fillShadow_mbx ..).trans hempty

include hp h64

theorem flag_stopArmed : flag (stopArmed p t time) (Reg.fabSchCtx t) FabSchCtx.ARMED =
    decide (armCheck (armBegun (emptyShadow p t) t time) t = 0) := by
  have hwf : (emptyShadow p t).wf = true := (emptyShadow_keeps (by decide) (Keeps.refl [.regs] p)).wf hp
  rw [← flag_takeoverArmed hwf h64, stopArmed]
  split
  · rfl
  · rw [flag, fld, fillShadow_regsOutside _ _ _ _ fun hm => (shadowReg_of_mem hm).not_mem_armRegs h64 (by simp), ← fld, ← flag]

include h1

/-- The entries of the bank are empty, or as they were where the arm failed. -/
theorem rd_stopArmed (he : armCheck (armBegun (emptyShadow p t) t time) t < 2 ^ fldWidth FabSchCtx.ARMERR) {r : Nat} (hr : r ∈ shadowXbars p t) :
    rd (stopArmed p t time) r = if armCheck (armBegun (emptyShadow p t) t time) t = 0 then resetWord r else rd p r := by
  have hwf : (emptyShadow p t).wf = true := (emptyShadow_keeps (by decide) (Keeps.refl [.regs] p)).wf hp
  have harm : r ∉ armRegs t := (shadowReg_of_mem (List.mem_append_left _ hr)).not_mem_armRegs h64
  rw [stopArmed, Nat.mod_eq_of_lt he]
  split
  · rw [takeoverArmed_regsOutside _ _ _ _ harm, rd_emptyShadow hp hr]
  · rw [rd_fillShadow (wf_takeoverArmed hwf h1 h64) hr]

end StopArmed

/-- A command that arms a takeover: what it leaves, for any state it arms in and anything it undoes. -/
theorem told_of_armed {s m : State} (hm : m.mbx = s.mbx) (fn : Nat) {e : Nat} (he : e < 2 ^ fldWidth FabSchCtx.ARMERR) :
    let c := e % 2 ^ fldWidth FabSchCtx.ARMERR
    Told s (refuse m .f fn (if c = 0 then .none else .check) [c]) .f fn (if e = 0 then .none else .check) [e] := by
  intro c
  have hc : c = e := Nat.mod_eq_of_lt he
  rw [hc]
  exact told_refuse hm ..

/-- A gated command of its plain length has a right length. -/
theorem gatedLen_of_plen {s : State} {fn n : Nat} (h : rqPlen s .f fn = n) : gatedLen s fn n = true := by
  simp [gatedLen, h]

section Arming

variable {s : State} {fn : Nat} (hfn : fn < 64) (hwf : s.wf = true) (hgate : gateOpens s fn 24 [] = true) (hformat : armFormat fn s = true)
  (hopen : openTo s fn (schedTenant s fn) = none) (hslots : ∀ x ∈ allSlots s, slotAffected s (schedTenant s fn) x = false)
include hfn hwf hgate hformat hopen hslots

/-- SCHED_ARM arms the takeover behind the gate, and answers with what its check found. -/
theorem exec_schedArm (h : takesUp s .f fn 0x131 = true) :
    let c := armCheck (armBegun (pastGate s fn 24) (schedTenant s fn) (rqW s .f fn 0)) (schedTenant s fn) % 2 ^ fldWidth FabSchCtx.ARMERR
    exec (.schedArm fn) s = .next (refuse (takeoverArmed (pastGate s fn 24) (schedTenant s fn) (rqW s .f fn 0)) .f fn
      (if c = 0 then .none else .check) [c]) := by
  obtain ⟨htime, h1, h64⟩ := armFormat_facts hformat
  have hmbx : (pastGate s fn 24).mbx = s.mbx := (pastGate_keeps s fn 24).only .mbx (by decide)
  have hrun := schedArmRun_eq ((pastGate_keeps s fn 24).wf hwf) (schedTenant_of_mbx hmbx fn) (rqW_of_mbx hmbx .f fn 0) h1 h64 htime
    (no_slots_affected_pastGate hfn hslots) id
  dsimp only [id] at hrun
  rw [ite_self] at hrun
  exact congrArg Host.Outcome.next (fwGated_acts h hformat hgate hopen rfl ((takeoverArmed_mbx ..).trans hmbx) hrun)

/-- SCHED_STOP arms the emptied bank behind the gate. -/
theorem exec_schedStop (h : takesUp s .f fn 0x132 = true) (harmed : flag s (Reg.fabSchCtx (schedTenant s fn)) FabSchCtx.ARMED = false) :
    let p := pastGate s fn 24
    let c := armCheck (armBegun (emptyShadow p (schedTenant s fn)) (schedTenant s fn) (rqW s .f fn 0)) (schedTenant s fn) %
      2 ^ fldWidth FabSchCtx.ARMERR
    exec (.schedStop fn) s = .next (refuse (stopArmed p (schedTenant s fn) (rqW s .f fn 0)) .f fn (if c = 0 then .none else .check) [c]) := by
  intro p c
  obtain ⟨htime, h1, h64⟩ := armFormat_facts hformat
  have hpmbx : p.mbx = s.mbx := (pastGate_keeps s fn 24).only .mbx (by decide)
  have hkeeps := emptyShadow_keeps (x2 := schedTenant s fn) (by decide) (Keeps.refl [.regs] p)
  have hgmbx : (emptyShadow p (schedTenant s fn)).mbx = s.mbx := (hkeeps.only .mbx (by decide)).trans hpmbx
  have hrun := schedArmRun_eq (hkeeps.wf ((pastGate_keeps s fn 24).wf hwf)) (schedTenant_of_mbx hgmbx fn) (rqW_of_mbx hgmbx .f fn 0) h1 h64
    htime (no_slots_affected_emptyShadow hfn hslots) (fillShadow p (schedTenant s fn))
  have hact : schedArmRun fn (fillShadow p (schedTenant p fn)) (emptyShadow p (schedTenant p fn)) =
      refuse (stopArmed p (schedTenant s fn) (rqW s .f fn 0)) .f fn (if c = 0 then .none else .check) [c] := by
    rw [schedTenant_of_mbx hpmbx]
    exact hrun
  exact congrArg Host.Outcome.next (fwGated_acts
    (chk := fun s => firstOf [(flag s (Reg.fabSchCtx (schedTenant s fn)) FabSchCtx.ARMED, .state)])
    (act := fun s => schedArmRun fn (fillShadow s (schedTenant s fn)) (emptyShadow s (schedTenant s fn)))
    h hformat hgate hopen (if_neg (by rw [harmed]; decide)) ((stopArmed_mbx p _ _).trans hpmbx) hact)

end Arming

/-- Settles O39: behind the gate each command is one answer of one state, and what the caller and the registers read follows from it. -/
theorem schedulesAreLoadedAndArmed : Obligations.SchedulesAreLoadedAndArmed := by
  refine ⟨?refused, ?load, ?arm, ?halt⟩
  case refused =>
    intro fn d s hopen
    refine ⟨fun h hlen hlist hsched => ⟨_, congrArg Host.Outcome.next (fwGated_refused_priv
      (fmt := fun s => listFormat fn s && schedFormat fn s) (priv := fun s => openTo s fn (schedTenant s fn)) h (by simp [hlist, hsched])
      (gatedLen_of_plen hlen) hopen _), refuse_regs .., told_refuse rfl ..⟩, fun k hk h hlen hformat => ?_⟩
    simp only [List.mem_cons, List.not_mem_nil, or_false] at hk
    obtain rfl | rfl := hk
    · exact ⟨_, congrArg Host.Outcome.next (fwGated_refused_priv (priv := fun s => openTo s fn (schedTenant s fn)) h hformat
        (gatedLen_of_plen hlen) hopen _), refuse_regs .., told_refuse rfl ..⟩
    · exact ⟨_, congrArg Host.Outcome.next (fwGated_refused_priv (priv := fun s => openTo s fn (schedTenant s fn)) h hformat
        (gatedLen_of_plen hlen) hopen _), refuse_regs .., told_refuse rfl ..⟩
  case load =>
    intro fn d s hfn hwf h hgate hlist hsched hopen t may go armed
    have hrefused {r : Reason} {ws : List Nat} (hchk : schedLoadCheck d fn s = some (r, ws)) : go = .next (refuse s .f fn r ws) :=
      exec_schedLoad_refused h hgate hlist hsched hopen hchk
    refine ⟨fun harmed => ?_, fun harmed hfetch => ?_, fun bs harmed hbs => ⟨fun i hcheck => ?_, fun hok => ?_⟩⟩
    · exact ⟨_, hrefused (if_pos harmed), refuse_regs .., told_refuse rfl ..⟩
    · exact ⟨_, hrefused (by rw [schedLoadCheck_unarmed harmed, listCheck, hfetch]), refuse_regs .., told_refuse rfl ..⟩
    · exact ⟨_, hrefused (by rw [schedLoadCheck_unarmed harmed, listCheck, hbs]; dsimp only; rw [hcheck]), refuse_regs .., refuse_sch ..,
        told_refuse rfl ..⟩
    · have hgmbx : (pastGate s fn 24).mbx = s.mbx := (pastGate_keeps s fn 24).only .mbx (by decide)
      have hmbx : (schedLoaded (pastGate s fn 24) fn t bs).mbx = s.mbx := (schedLoaded_mbx ..).trans hgmbx
      refine ⟨_, exec_schedLoad_loaded h hgate hlist hsched hopen hbs
        (by rw [schedLoadCheck_unarmed harmed, listCheck, hbs]; dsimp only; rw [hok]), told_refuse hmbx .., ?_, ?_⟩
      · rw [refuse_regs, schedLoaded, listRecs_of_mbx hgmbx]
      · intro tile i v htile hi hrecs hbank
        have hgwf := (pastGate_keeps s fn 24).wf hwf
        have hload := schedLoaded_xbar (v := v) hfn (schedFormat_tenant hsched).2 htile hi hbank hwf hgwf (pastGate_regsOutside s fn 24) harmed
          ((listRecs_of_mbx hgmbx fn bs).trans hrecs) (by rw [← hrecs]; exact hok)
        have hread := rd_of_regs_eq (refuse_regs (schedLoaded (pastGate s fn 24) fn t bs) .f fn .none [])
        refine ⟨?_, fun a ha => ?_⟩
        · rw [hread, hload, rd_wrReg_same ((noRestore_keeps (by decide) (Keeps.refl [.rel] _)).wf hgwf)]
        · simp only [List.mem_cons, List.not_mem_nil, or_false, not_or] at ha
          rw [hread, hload, rd_wrReg_ne _ _ ha.1, rd_of_regs_eq (noRestore_regs ..), pastGate_regsOutside s fn 24 a (by simpa using ha.2)]
  case arm =>
    intro fn s hfn hwf h hgate hformat hopen t g a e hslots
    obtain ⟨htime, h1, h64⟩ := armFormat_facts hformat
    have hgmbx : g.mbx = s.mbx := (pastGate_keeps s fn 24).only .mbx (by decide)
    have hgwf : g.wf = true := (pastGate_keeps s fn 24).wf hwf
    have hstate : schState g t = schState s t :=
      congrArg (getF · FabSchCtx.STATE) (pastGate_regsOutside s fn 24 _ (by simpa using secCseq_ne_fabSchCtx h64 fn))
    have he : e = armCheck (armBegun g t (rqW s .f fn 0)) t := congrArg (armCheck · t) (after_execSchArm h1 h64 htime g)
    refine ⟨_, exec_schedArm hfn hwf hgate hformat hopen hslots h, fun hlt => ?_⟩
    rw [he] at hlt ⊢
    refine ⟨told_of_armed ((takeoverArmed_mbx ..).trans hgmbx) fn hlt, ?_, ?_, ?_⟩
    · rw [flag_refuse, flag_takeoverArmed hgwf h64]
    · rw [fld_refuse, fld_takeoverArmed_time hgwf h64]
    · rw [schState_refuse, schState_takeoverArmed hgwf h64, hstate]
  case halt =>
    intro fn s hfn hwf h hgate hformat hopen t g a
    obtain ⟨htime, h1, h64⟩ := armFormat_facts hformat
    have ha : a = armBegun g t (rqW s .f fn 0) := after_execSchArm h1 h64 htime g
    refine ⟨fun harmed => ?_, fun harmed hslots => ?_⟩
    · exact ⟨_, congrArg Host.Outcome.next (fwGated_refused_chk
        (chk := fun s => firstOf [(flag s (Reg.fabSchCtx (schedTenant s fn)) FabSchCtx.ARMED, .state)])
        h hformat hgate hopen (if_pos harmed) _), refuse_regs .., told_refuse rfl ..⟩
    · have hpmbx : (pastGate s fn 24).mbx = s.mbx := (pastGate_keeps s fn 24).only .mbx (by decide)
      have hpwf : (pastGate s fn 24).wf = true := (pastGate_keeps s fn 24).wf hwf
      refine ⟨_, exec_schedStop hfn hwf hgate hformat hopen hslots h harmed, fun hlt => ?_⟩
      rw [ha] at hlt ⊢
      refine ⟨told_of_armed ((stopArmed_mbx ..).trans hpmbx) fn hlt, ?_, fun tile i htile hi => ?_⟩
      · rw [flag_refuse, flag_stopArmed hpwf h64]
      · have hmem := mem_shadowXbars_pastGate (n := 24) hfn h64 htile hi
        have hread := rd_of_regs_eq (refuse_regs (stopArmed (pastGate s fn 24) t (rqW s .f fn 0)) .f fn
          (if armCheck a t % 2 ^ fldWidth FabSchCtx.ARMERR = 0 then .none else .check) [armCheck a t % 2 ^ fldWidth FabSchCtx.ARMERR])
        rw [ha] at hread
        refine (hread _).trans ((rd_stopArmed hpwf h1 h64 hlt hmem).trans ?_)
        rw [pastGate_regsOutside s fn 24 _ (by simpa using secCseq_ne_xbar hfn tile _ _)]

end Sys2Proof.Machine

namespace Sys2Proof.Machine

/-! ### The frame of every command -/

/-- Settles O6: `exec_keeps` has it command by command. -/
theorem everyCommandKeepsTheRest : Obligations.EveryCommandKeepsTheRest := fun c s =>
  let ⟨t, he, hk⟩ := exec_keeps c s
  ⟨t, he, hk.only, hk.wf⟩

/-! ### Responses on their way back (R108, R120) -/

/-- A response leaves memory as it was. -/
@[simp] theorem rspTo_mem (s : State) (p : Pkt) (from_ : Ep) (opc : Opc) (prio : Nat) (data : List Byte) (psn : Bool) :
    (rspTo s p from_ opc prio data psn).mem = s.mem :=
  (rspTo_keeps (by decide) (by decide) (by decide) (by decide) (by decide) (by decide) (.refl [.dyn, .free, .lane, .obs, .regs, .rel] s)).only .mem
    (by decide)

/-- A message of package 1 to tile 0 under a TAG. -/
def farMessage (tag : Nat) : Pkt := { opc := .msg, src := ⟨1, 0, 0⟩, dst := ⟨0, 0, 0⟩, tag := tag }

/-- Four of its messages hold the allotment slots of lane port 0 for tile 0's cistern; the fifth waits whole in the port's buffer. -/
def fifthWaiting : State :=
  { State.reset with
    dyn := { entries := (List.range 4).map fun k => ⟨lpEp 0 0, ⟨0, 0, 0⟩, ⟨1, 0, 0⟩, k⟩, entryWait := [(0, farMessage 4)] }
    lane := { runs := [(0, { owed := [(farMessage 4, 1)] })] } }

theorem plainSend_fifthWaiting : plainSend fifthWaiting (farMessage 0) = true := by decide +kernel

theorem rspTo_fifthWaiting_lane : (rspTo fifthWaiting (farMessage 0) ⟨0, 0, 0⟩ .ack 3 [] false).lane ≠ fifthWaiting.lane := by
  decide +kernel

/-- Refutes O18: the response to a packet of another package returns its ingress lane port's slot (R120); the packet that waits for one enters, and its
flits leave the port's buffer (R510), so the lane ports change too. With them the frame is whole, `rspTo_keeps`; that the response goes back is
`rspTo_answered`. -/
theorem not_answersGoBack : ¬ Obligations.AnswersGoBack := by
  intro h
  obtain ⟨_, honly⟩ := h fifthWaiting (farMessage 0) .ack 3 [] false rfl plainSend_fifthWaiting
  exact rspTo_fifthWaiting_lane (honly .lane (by decide))

end Sys2Proof.Machine

namespace Sys2Proof.Machine

/-! ### Control packets (R669-R674) -/

/-- A control packet that the access rules let through comes to its register, which no seal protects. -/
theorem csrAt_letsThrough {s : State} {p : Pkt} (h : csrLetsThrough s p = true) (k : State → Nat → State) :
    csrAt s p k = k (takeNet s p) (regOff p.addr) ∧ sealedBy (takeNet s p) (regOff p.addr) = none := by
  simp only [csrLetsThrough, Bool.and_eq_true, beq_iff_eq] at h
  obtain ⟨⟨⟨⟨⟨⟨⟨⟨hturn, hcrc⟩, hten⟩, hfmp⟩, hchip⟩, hprio⟩, hregion⟩, hbytes⟩, hreach⟩ := h
  have hchip' : p.src.chip = myChip (takeNet s p) := hchip
  rw [reachable] at hreach
  split at hreach
  next b o home d i hb hr =>
    simp only [Bool.and_eq_true, Option.isNone_iff_eq_none] at hreach
    obtain ⟨⟨hpower, hodd⟩, hseal⟩ := hreach
    refine ⟨?_, hseal⟩
    simp [csrAt, hturn, hcrc, hten, hfmp, hchip', hprio, hregion, hbytes, hb, hpower, hr, hodd]
  · cases hreach

/-- A CSR_WR let through applies its 8 bytes and is acknowledged. -/
theorem exec_csrWr {s : State} {p : Pkt} (h : csrLetsThrough s p = true) :
    exec (.csrWr p) s = .next (ackTo (applyWrite (takeNet s p) (regOff p.addr) (ofLE (slice p.data 0 8))) p .ok) := by
  change execCsrWr p s = _
  rw [execCsrWr, (csrAt_letsThrough h _).1, (csrAt_letsThrough h fun s _ => s).2]

/-- A CSR_RD let through is answered with what a read sees. -/
theorem exec_csrRd {s : State} {p : Pkt} (h : csrLetsThrough s p = true) :
    exec (.csrRd p) s = .next (rspTo (takeNet s p) p p.dst .csrRsp 3 (toLE 8 (seen (takeNet s p) (regOff p.addr)).toNat) false) := by
  change execCsrRd p s = _
  rw [execCsrRd, (csrAt_letsThrough h _).1, (csrAt_letsThrough h fun s _ => s).2]

/-! ### Responses to transactions in flight (R108, R119) -/

/-- The way of a packet through its checks changes the dynamic network, the trace buffers and the registers alone. -/
theorem received_keeps (s : State) (p : Pkt) : Keeps [.dyn, .obs, .regs] s (received s p) :=
  useGrant_keeps (by decide) (by decide) (tracePkt_keeps (by decide) (by decide) (takeNet_keeps (by decide) (.refl _ s)))

/-- A response to a transaction in flight acts in the state in which that transaction has ended. -/
theorem arrive_onRsp {s u : State} {p : Pkt} {x : Txn} {whole : Bool} (h : passesChecks s p = true)
    (hm : matchTxn (received s p) p = some (x, whole, u)) (k : State → Txn → Bool → State) : (arrive s p fun s => onRsp s p k) = k u x whole := by
  rw [arrive_passes _ h, onRsp, hm]

/-- A response nothing waits for is discarded. -/
theorem arrive_onRsp_none {s : State} {p : Pkt} (h : passesChecks s p = true) (hm : matchTxn (received s p) p = none) (k : State → Txn → Bool → State) :
    (arrive s p fun s => onRsp s p k) = lateRsp (received s p) p := by
  rw [arrive_passes _ h, onRsp, hm]

/-- Settles O11, from `exec_csrWr`, `exec_csrRd` and, for the answer, `arrive_onRsp`. -/
theorem controlPacketsReachRegisters : Obligations.ControlPacketsReachRegisters := by
  refine ⟨fun p s h hplain => ⟨_, exec_csrWr h, rfl, ackTo_answered hplain⟩, fun p s h hplain => ⟨_, exec_csrRd h, ?mem, rspTo_answered rfl hplain⟩,
    fun p s u x whole h hm => ⟨_, congrArg Host.Outcome.next (arrive_onRsp h hm _), rfl, rfl, rfl, ?ended⟩⟩
  case mem =>
    exact rspTo_mem (takeNet s p) p _ _ _ _ _
  case ended =>
    exact ((received_keeps s p).trans ((matchTxn_keeps (by decide) (by decide) (.refl _ _)) _ _ _ hm)).only .mem (by decide)

/-! ### What waits for a response -/

/-- With no addition on its way the cycle goes on. -/
theorem settle_of_no_adds {s : State} (h : s.trig.adds = []) : settle s = s := by
  rw [settle, h]
  rfl

/-- A transaction that is no multicast leaves no copies to clear. -/
theorem mcClear_of_ne {x : Txn} (h : x.opc ≠ .mcWr) (s : State) : mcClear s x = s := if_neg h

/-- A change of a started command changes the host side alone. -/
theorem only_updCmd (s : State) (id : Nat) (f : Cmd → Cmd) : Only [.host] s (updCmd s id f) := (updCmd_keeps (by decide) (.refl _ s)).only

/-- A success leaves a command's status. -/
theorem failWith_ok (c : Cmd) : failWith .ok c = c := by
  simp [failWith, Status.good]

/-- Two changes of the same entry are one. -/
theorem updFirst_updFirst {α : Type} {p : α → Bool} {f : α → α} (g : α → α) (h : ∀ a, p (f a) = p a) (l : List α) :
    updFirst p g (updFirst p f l) = updFirst p (fun a => g (f a)) l := by
  induction l with
  | nil => rfl
  | cons a r ih =>
    by_cases ha : p a = true
    · simp [updFirst, ha, h a]
    · simp [updFirst, ha, ih]

/-- Two changes of a started command are one. -/
theorem updCmd_updCmd {f : Cmd → Cmd} (h : ∀ c, (f c).id = c.id) (s : State) (id : Nat) (g : Cmd → Cmd) :
    updCmd (updCmd s id f) id g = updCmd s id fun c => g (f c) :=
  congrArg (fun l => { s with host := { s.host with cmds := l } }) (updFirst_updFirst g (fun c => by rw [h]) s.host.cmds)

/-- ACK and ERR_RSP of a packet that no reservation record waits for go to the transaction. -/
theorem completion_onRsp {s : State} {p : Pkt} (h : (s.dyn.rsvs.any fun v => v.ep == p.dst && v.rec_ == p.tag) = false) (hp : p.poison = false) :
    completion s p = onRsp s p fun s x whole => if whole then purposeEnd (mcClear s x) x (rspStatus p) true else mcPart s x (rspStatus p) := by
  have hnone : (s.dyn.rsvs.find? fun v => v.ep == p.dst && v.rec_ == p.tag) = none := by
    simpa [List.find?_eq_none, List.any_eq_false] using h
  simp only [completion, hnone, hp, Bool.false_eq_true, if_false]

section Completed

variable {s u : State} {p : Pkt} {x : Txn} {whole : Bool}
  (hrsvs : ((received s p).dyn.rsvs.any fun v => v.ep == p.dst && v.rec_ == p.tag) = false)
  (hm : matchTxn (received s p) p = some (x, whole, u)) (hp : p.poison = false) (h : passesChecks s p = true)
include hrsvs hm hp

/-- What a completion does for its transaction. -/
theorem completion_received : completion (received s p) p =
    if whole then purposeEnd (mcClear u x) x (rspStatus p) true else mcPart u x (rspStatus p) := by
  rw [completion_onRsp hrsvs hp, onRsp, hm]

include h

theorem exec_ack : exec (.ack p) s =
    .next (settle (if whole then purposeEnd (mcClear u x) x (rspStatus p) true else mcPart u x (rspStatus p))) := by
  rw [← completion_received hrsvs hm hp]
  exact congrArg Host.Outcome.next (arrive_passes _ h)

theorem exec_errRsp (ht : p.tag ≠ failTag) : exec (.errRsp p) s =
    .next (if whole then purposeEnd (mcClear u x) x (rspStatus p) true else mcPart u x (rspStatus p)) := by
  rw [← completion_received hrsvs hm hp]
  exact congrArg Host.Outcome.next ((arrive_passes _ h).trans (if_neg ht))

end Completed

/-- A response nothing waits for is counted. -/
theorem late_lateRsp (s : State) (p : Pkt) : (lateRsp s p).dyn.late = s.dyn.late + 1 := by
  rw [lateRsp]
  dsimp only
  split <;> rfl

theorem useGrant_dyn (s : State) (p : Pkt) : ∃ given, (useGrant s p).dyn = { s.dyn with given := given } := by
  rw [useGrant]
  dsimp only
  split
  · exact ⟨_, rfl⟩
  · exact ⟨_, rfl⟩

/-- Of the dynamic network a packet that passes its checks changes only what is in flight and the grants. -/
theorem received_dyn (s : State) (p : Pkt) : ∃ net given, (received s p).dyn = { s.dyn with net := net, given := given } := by
  obtain ⟨given, hg⟩ := useGrant_dyn (tracePkt (takeNet s p) (blkUnit (epBlk p.dst)) p 1 0xFF) p
  refine ⟨s.dyn.net.erase p, given, ?_⟩
  rw [received, hg, (tracePkt_keeps (by decide) (by decide) (.refl [.obs, .regs] _)).only .dyn (by decide)]
  rfl

@[simp] theorem received_pend (s : State) (p : Pkt) : (received s p).dyn.pend = s.dyn.pend := by
  obtain ⟨net, given, h⟩ := received_dyn s p
  rw [h]

@[simp] theorem received_rsvs (s : State) (p : Pkt) : (received s p).dyn.rsvs = s.dyn.rsvs := by
  obtain ⟨net, given, h⟩ := received_dyn s p
  rw [h]

@[simp] theorem received_allot (s : State) (p : Pkt) : (received s p).dyn.allot = s.dyn.allot := by
  obtain ⟨net, given, h⟩ := received_dyn s p
  rw [h]

@[simp] theorem received_late (s : State) (p : Pkt) : (received s p).dyn.late = s.dyn.late := by
  obtain ⟨net, given, h⟩ := received_dyn s p
  rw [h]

theorem pieceDone_ok (s : State) (id n : Nat) :
    pieceDone s id n .ok = updCmd s id fun c => { c with left := c.left - 1, bytes := c.bytes + n } := by
  simp only [pieceDone, failWith_ok]
  rfl

/-- An atomic's old value becomes its command's DETAIL, and its piece is done. -/
theorem purposeOld_cmdAt (s : State) (id : Nat) (bs : List Byte) (psn : Bool) : purposeOld s (.cmdAt id) bs psn =
    updCmd s id fun c => { c with detail := ofLE bs, poison := c.poison || psn, left := c.left - 1, bytes := c.bytes + bs.length } := by
  rw [purposeOld, pieceDone_ok]
  exact updCmd_updCmd (by intro; rfl) s id _

/-- Settles O19: each response acts on the transaction it matches, by `arrive_onRsp` and, for a completion, `exec_ack` and `exec_errRsp`. -/
theorem responsesReachWhatWaits : Obligations.ResponsesReachWhatWaits := by
  refine ⟨?fetch, ?written, ?atomic, ?completed, ?part, ?late, ?mailbox⟩
  case fetch =>
    intro p next s u x id after h hm hwhy hp hf hrun
    refine congrArg Host.Outcome.next ((arrive_onRsp h hm _).trans ?_)
    dsimp only
    rw [if_pos hf, hwhy, purposeData, hrun, hp]
    rfl
  case written =>
    intro p s u x id n h hm hx hwhy hadds
    have hend : purposeEnd (mcClear u x) x .ok true = updCmd u id fun c => { c with left := c.left - 1, bytes := c.bytes + n } := by
      rw [mcClear_of_ne hx, purposeEnd, hwhy]
      exact pieceDone_ok u id n
    refine ⟨_, congrArg Host.Outcome.next ((arrive_onRsp h hm _).trans ?_), only_updCmd _ _ _, rfl⟩
    rw [if_pos rfl, hend, settle_of_no_adds (by exact hadds)]
  case atomic =>
    intro p s u x id h hm hwhy
    refine ⟨_, congrArg Host.Outcome.next ((arrive_onRsp h hm _).trans ?_), only_updCmd _ _ _, rfl⟩
    rw [hwhy, purposeOld_cmdAt]
  case completed =>
    intro p s u x id h hrsvs hm hx hwhy hp hadds
    have hend : purposeEnd (mcClear u x) x (rspStatus p) true = pieceDone u id 0 (rspStatus p) := by
      rw [mcClear_of_ne hx, purposeEnd, hwhy]
    refine ⟨?_, fun ht => ?_⟩
    · rw [exec_ack hrsvs hm hp h, if_pos rfl, hend, settle_of_no_adds (s := pieceDone u id 0 (rspStatus p)) hadds]
    · rw [exec_errRsp hrsvs hm hp h ht, if_pos rfl, hend]
  case part =>
    intro p s u x id h ht hrsvs hm hwhy hp
    rw [exec_errRsp hrsvs hm hp h ht, if_neg Bool.false_ne_true, mcPart, hwhy]
    rfl
  case late =>
    intro p s h hm
    have hnone k := arrive_onRsp_none h hm k
    refine ⟨_, congrArg Host.Outcome.next (hnone _), congrArg Host.Outcome.next (hnone _), congrArg Host.Outcome.next (hnone _), ?_⟩
    rw [late_lateRsp, received_late]
  case mailbox =>
    intro p s h hplain
    refine ⟨_, congrArg Host.Outcome.next (arrive_passes _ h), ackTo_answered hplain, readByte_of_mem_eq ?_⟩
    exact (rspTo_mem (received s p) p _ _ _ _ _).trans ((received_keeps s p).only .mem (by decide))

end Sys2Proof.Machine

namespace Sys2Proof.Machine

/-! ### Memory requests (R106) -/

/-- Tile 0 is good and belongs to tenant 1. -/
def ownTile : State :=
  setFld (setFld State.reset (Reg.rtrEpOwner 0) RtrEpOwner.OWNER 1) Reg.fabGoodTiles FabGoodTiles.GOOD 1

/-- Tenant 1's write of eight bytes 0 and eight bytes 1 at the start of its tile 0. -/
def zerosThenOnes : Pkt :=
  stamp { opc := .wr, src := ⟨0, 0, 0⟩, dst := ⟨0, 0, 0⟩, tenant := 1, addr := tileAddr 0 0, nbytes := 16,
          data := List.replicate 8 0 ++ List.replicate 8 1 }

theorem ownTile_serves_zerosThenOnes : ownTile.wf = true ∧ passesChecks ownTile zerosThenOnes = true ∧
    memServes (received ownTile zerosThenOnes) zerosThenOnes = true := by
  decide +kernel

/-- The compare value of the command is all 16 bytes, and memory holds others: nothing is stored. -/
theorem atCas_zerosThenOnes_byte :
    readByte (after (exec (.atCas zerosThenOnes) ownTile) ownTile) zerosThenOnes.addr = 0 := by
  decide +kernel

/-- Refutes O17: the statement halves the length of every packet that AT_CAS is given, and the command that of a packet whose opcode is AT_CAS
(`accessLen`); of any other it takes the whole payload as the compare value. Given `zerosThenOnes` it compares 16 bytes and stores nothing, where by the
statement the first eight, being equal, are replaced by the other eight. -/
theorem not_memoryRequestsAreServed : ¬ Obligations.MemoryRequestsAreServed := by
  intro h
  obtain ⟨_, _, hatomic, _⟩ := h
  obtain ⟨hwf, hpass, hserve⟩ := ownTile_serves_zerosThenOnes
  obtain ⟨_, _, m, he, hplaced⟩ := hatomic zerosThenOnes ownTile hwf hpass hserve
  have hone : readByte m zerosThenOnes.addr = 1 := (hplaced _).trans (by decide +kernel)
  have hzero := atCas_zerosThenOnes_byte
  rw [he] at hzero
  exact absurd (hone.symm.trans ((readByte_of_mem_eq (rspTo_mem m zerosThenOnes _ _ _ _ _) _).symm.trans hzero)) (by decide)

end Sys2Proof.Machine

namespace Sys2Proof.Machine

/-! ### What a packet put on the mesh leaves of the dynamic network (R109, R120) -/

/-- Of the dynamic network only what is in flight and what ingress lane ports hold of it differs. -/
def MeshOnly (s t : State) : Prop :=
  ∃ net entries entryWait, t.dyn = { s.dyn with net := net, entries := entries, entryWait := entryWait }

theorem meshOnly_of_dyn_eq {s t : State} (h : t.dyn = s.dyn) : MeshOnly s t := ⟨_, _, _, h⟩

theorem MeshOnly.trans {s t u : State} (h : MeshOnly s t) (k : MeshOnly t u) : MeshOnly s u := by
  obtain ⟨_, _, _, h⟩ := h
  obtain ⟨net, entries, entryWait, k⟩ := k
  exact ⟨net, entries, entryWait, by rw [k, h]⟩

section Kept

variable {s t : State} (h : MeshOnly s t)
include h

theorem MeshOnly.waiting : t.dyn.waiting = s.dyn.waiting := by
  obtain ⟨_, _, _, h⟩ := h
  rw [h]

theorem MeshOnly.txns : t.dyn.txns = s.dyn.txns := by
  obtain ⟨_, _, _, h⟩ := h
  rw [h]

theorem MeshOnly.rsvs : t.dyn.rsvs = s.dyn.rsvs := by
  obtain ⟨_, _, _, h⟩ := h
  rw [h]

theorem MeshOnly.pend : t.dyn.pend = s.dyn.pend := by
  obtain ⟨_, _, _, h⟩ := h
  rw [h]

theorem MeshOnly.given : t.dyn.given = s.dyn.given := by
  obtain ⟨_, _, _, h⟩ := h
  rw [h]

end Kept

theorem MeshOnly.foldl {α : Type} {f : State → α → State} (h : ∀ u a, MeshOnly u (f u a)) (l : List α) (s : State) : MeshOnly s (l.foldl f s) := by
  induction l generalizing s with
  | nil => exact meshOnly_of_dyn_eq rfl
  | cons a r ih => exact (h s a).trans (ih (f s a))

theorem freeOwed_dyn (s : State) (n : Nat) (p : Pkt) : (freeOwed s n p).dyn = s.dyn :=
  (freeOwed_keeps (by decide) (.refl [.lane] s)).only .dyn (by decide)

theorem freeAsm_dyn (s : State) (n : Nat) (a : LaneAsm) : (freeAsm s n a).dyn = s.dyn :=
  (freeAsm_keeps (by decide) (.refl [.lane] s)).only .dyn (by decide)

theorem entryNext_mesh (s : State) : MeshOnly s (entryNext s) := by
  have hfree (u : State) (y : Nat × LaneRun) : MeshOnly u (y.2.asm.foldl (fun s a => freeAsm s y.1 a) u) :=
    MeshOnly.foldl (fun v a => meshOnly_of_dyn_eq (freeAsm_dyn v y.1 a)) _ u
  unfold entryNext
  refine MeshOnly.trans (MeshOnly.foldl (fun u x => ?_) _ _) (MeshOnly.foldl hfree _ _)
  split
  · exact ⟨_, _, _, freeOwed_dyn _ x.1 x.2⟩
  · exact meshOnly_of_dyn_eq rfl

theorem entryBack_mesh (s : State) (p : Pkt) : MeshOnly s (entryBack s p) := by
  unfold entryBack
  dsimp only
  split
  · exact meshOnly_of_dyn_eq rfl
  · exact MeshOnly.trans ⟨_, _, _, rfl⟩ (entryNext_mesh _)

theorem injFire_dyn (s : State) (b : Blk) : (injFire s b).dyn = s.dyn :=
  (injFire_keeps (by decide) (by decide) (.refl [.regs, .rel] s)).only .dyn (by decide)

theorem putNet_mesh (s : State) (p : Pkt) : MeshOnly s (putNet s p) := by
  unfold putNet
  dsimp only
  split
  · exact ⟨_, s.dyn.entries, s.dyn.entryWait, by rw [injFire_dyn]⟩
  · exact ⟨_, _, _, rfl⟩

/-- Whatever a packet's injection draws, traces, counts and frees, of the dynamic network it changes the mesh alone. -/
theorem inject_mesh (s : State) (p : Pkt) : MeshOnly s (inject s p) := by
  have hdraw : MeshOnly s (if isResponse p.opc then (p.trc, s) else drawTrc s p.tenant).2 := by
    split
    · exact meshOnly_of_dyn_eq rfl
    · exact meshOnly_of_dyn_eq ((drawTrc_keeps (by decide) (.refl [.free] s)).only .dyn (by decide))
  have hmatch (u : State) (q : Pkt) (c : Prop) [Decidable c] : MeshOnly u (if c then matchOp u q.src.tile q.layer q.opid q.data.length else u) := by
    split
    · exact meshOnly_of_dyn_eq ((matchOp_keeps (by decide) (.refl [.regs] u)).only .dyn (by decide))
    · exact meshOnly_of_dyn_eq rfl
  have hformat (u : State) (q r : Pkt) : MeshOnly u (injFormat (tracePkt u (blkUnit (epBlk q.src)) q 0 0xFF) r).2 :=
    meshOnly_of_dyn_eq ((injFormat_keeps (by decide) (by decide) (tracePkt_keeps (by decide) (by decide) (.refl [.obs, .regs, .rel] u))).only .dyn (by decide))
  have hsent {u : State} (h : MeshOnly s u) (q r : Pkt) (c : Prop) [Decidable c] : MeshOnly s (if c then entryBack (putNet u q) r else putNet u q) := by
    split
    · exact (h.trans (putNet_mesh u q)).trans (entryBack_mesh _ r)
    · exact h.trans (putNet_mesh u q)
  exact hsent ((hdraw.trans (hmatch _ _ _)).trans (hformat _ _ _)) _ _ _

end Sys2Proof.Machine

namespace Sys2Proof.Machine

/-! ### Cisterns and reservation records (R121-R125) -/

/-- A unit's injection register is not its cistern's status. -/
theorem injReg_ne_cisternStat (b : Blk) : injReg b ≠ Reg.cisternStat b := by
  cases b <;> simp only [injReg, Reg.inj, Reg.cisternStat, Reg.fabInj, Reg.secInj, Blk.base] <;> omega

/-- An endpoint at DEP 0 or 5 has its registers at its tile's TNI. -/
theorem epBlk_of_tni {e : Ep} (h : e.dep = 0 ∨ e.dep = 5) : epBlk e = .tni e.tile := by
  rw [epBlk]
  by_cases ht : 64 ≤ e.tile
  · simp [epKind, ht]
  · rcases h with h | h <;> simp [epKind, h, ht]

/-- No cistern's status is the injection register of the unit that serves its endpoint. -/
theorem injReg_ne_cisReg (s : State) (e : Ep) : injReg (epBlk e) ≠ cisReg s e := by
  rw [cisReg]
  split
  · next hfmp =>
    have hblk : epBlk e = .fab := by rw [epBlk, show epKind e.tile e.dep = .fmp from hfmp]
    rw [hblk]
    decide
  · next htfsp =>
    have hblk : epBlk e = .fab := by rw [epBlk, show epKind e.tile e.dep = .tfsp from htfsp]
    rw [hblk]
    decide
  · by_cases hdep : e.dep = 0 ∨ e.dep = 5
    · rw [cisEp, if_pos hdep, epBlk_of_tni hdep, epBlk_of_tni (.inl rfl)]
      simp only [injReg, Reg.inj, Reg.cisternStat, Blk.base]
      omega
    · rw [cisEp, if_neg hdep]
      exact injReg_ne_cisternStat _

/-- A cistern's status may be written under an armed injection. -/
theorem flag_inj_setFld_cisReg (s u : State) (e : Ep) (f : Fld) (v : Nat) :
    flag (setFld s (cisReg u e) f v) (injReg (epBlk e)) Inj.ARM = flag s (injReg (epBlk e)) Inj.ARM := by
  rw [flag, fld_setFld_ne s f Inj.ARM v (injReg_ne_cisReg u e), ← flag]

/-- A waiting request's slots granted. -/
def slotsGranted (s : State) (r : CReq) : State :=
  let s := { s with dyn := { s.dyn with pend := s.dyn.pend.erase r, given := s.dyn.given ++ [⟨r.ep, r.src, r.rec_, r.tenant, r.flits⟩] } }
  cisAdd (takeFree (cisSub s r.ep CisternStat.PEND 1) r.ep r.flits) r.ep CisternStat.GRANTED r.flits

/-- The RSV_GRANT of a request. -/
def grantPkt (r : CReq) : Pkt :=
  { opc := .rsvGrant, src := r.ep, dst := r.src, tenant := r.tenant, prio := 3, tag := r.rec_, nbytes := 8,
    data := toLE 8 (r.mcop * 2 ^ 48 + (r.flits - 1)) }

theorem flag_inj_slotsGranted (s : State) (r : CReq) :
    flag (slotsGranted s r) (injReg (epBlk r.ep)) Inj.ARM = flag s (injReg (epBlk r.ep)) Inj.ARM := by
  rw [slotsGranted, cisAdd, flag_inj_setFld_cisReg, takeFree, flag_inj_setFld_cisReg, cisSub, flag_inj_setFld_cisReg]
  rfl

/-- With no injection armed the grant is sent. -/
theorem grant_eq {s : State} {r : CReq} (h : flag s (injReg (epBlk r.ep)) Inj.ARM = false) :
    grant s r = inject (slotsGranted s r) (grantPkt r) := by
  have hinj : injArmed (slotsGranted s r) (epBlk r.ep) .timeout (fun k => k == 1) = false := by
    rw [injArmed, flag_inj_slotsGranted, h]
    rfl
  exact if_neg (Bool.eq_false_iff.mp hinj)

/-- A grant leaves the queue, holds its slots and goes back under the record's number. -/
theorem grant_spec {s : State} {r : CReq} (h : flag s (injReg (epBlk r.ep)) Inj.ARM = false) :
    (grant s r).dyn.pend = s.dyn.pend.erase r ∧ (grant s r).dyn.given = s.dyn.given ++ [⟨r.ep, r.src, r.rec_, r.tenant, r.flits⟩] ∧
    ∃ q ∈ (grant s r).dyn.net, q.opc = .rsvGrant ∧ q.src = r.ep ∧ q.dst = r.src ∧ q.tag = r.rec_ ∧ q.tenant = r.tenant := by
  rw [grant_eq h]
  have hsent := inject_response (s := slotsGranted s r) (p := grantPkt r) rfl rfl rfl rfl ((flag_inj_slotsGranted s r).trans h)
  have hmesh := inject_mesh (slotsGranted s r) (grantPkt r)
  exact ⟨hmesh.pend, hmesh.given, stamp (grantPkt r), hsent, rfl, rfl, rfl, rfl, rfl⟩

/-- A reservation whose RSV_REQ has left is given up: its release waits at the source. -/
theorem release_of_sent {v : Rsv} (h : v.sent = true) (s : State) : release s v =
    enqueue { s with dyn := { s.dyn with rsvs := updFirst (fun x => x.ep == v.ep && x.rec_ == v.rec_) (fun x => { x with released := true }) s.dyn.rsvs } }
      { opc := .rsvRelease, src := v.ep, dst := v.dst, tenant := v.tenant, prio := 3, tag := v.rec_, nbytes := 0 } .none := by
  rw [release, h]
  rfl

/-- What a cistern takes off its lists for a release (R124). -/
theorem cisRelease_lists (s : State) (e src : Ep) (tag : Nat) :
    (cisRelease s e src tag).dyn.pend = (match s.dyn.pend.find? fun r => r.ep == e && r.src == src && r.rec_ == tag with
      | some r => s.dyn.pend.erase r
      | none => s.dyn.pend) ∧
    (cisRelease s e src tag).dyn.given = (match s.dyn.given.find? fun g => g.ep == e && g.src == src && g.rec_ == tag with
      | some g => s.dyn.given.erase g
      | none => s.dyn.given) := by
  rw [cisRelease]
  cases hpend : s.dyn.pend.find? fun r => r.ep == e && r.src == src && r.rec_ == tag <;>
    cases hgiven : s.dyn.given.find? fun g => g.ep == e && g.src == src && g.rec_ == tag <;>
    simp [cisSub, giveFree, hgiven]

/-- The record that an RSV_GRANT answers holds its flits, and its response slot is free (R118). -/
def recordHeld (m : State) (v : Rsv) : State :=
  let m := giveFree m v.ep 1
  let f (x : Rsv) : Rsv := { x with granted := true, left := x.flits, lastUse := m.clk.now, slots := x.slots - 1 }
  { m with dyn := { m.dyn with rsvs := updFirst (fun x => x.ep == v.ep && x.rec_ == v.rec_) f m.dyn.rsvs } }

/-- On its own package the request's allotment count is free too (R119). -/
def grantHeld (m : State) (v : Rsv) : State :=
  if v.dst.chip = myChip (recordHeld m v) then allotBack (recordHeld m v) v.ep v.dst else recordHeld m v

theorem grantHeld_rsvs (m : State) (v : Rsv) : (grantHeld m v).dyn.rsvs = updFirst (fun x => x.ep == v.ep && x.rec_ == v.rec_)
    (fun x => { x with granted := true, left := x.flits, lastUse := m.clk.now, slots := x.slots - 1 }) m.dyn.rsvs := by
  rw [grantHeld]
  split <;> rfl

theorem grantHeld_allot (m : State) (v : Rsv) : (grantHeld m v).dyn.allot =
    if v.dst.chip = myChip (grantHeld m v) then m.dyn.allot.erase (injector v.ep, cisEp (grantHeld m v) v.dst) else m.dyn.allot := by
  by_cases hown : v.dst.chip = myChip (recordHeld m v)
  · rw [grantHeld, if_pos hown]
    exact (if_pos hown).symm
  · rw [grantHeld, if_neg hown, if_neg hown]
    rfl

theorem exec_rsvGrant {s : State} {p : Pkt} {v : Rsv} (h : passesChecks s p = true)
    (hv : ((received s p).dyn.rsvs.find? fun x => x.ep == p.dst && x.rec_ == p.tag && ! x.granted) = some v) :
    exec (.rsvGrant p) s = .next (grantHeld (received s p) v) :=
  congrArg Host.Outcome.next ((arrive_passes _ h).trans (by rw [hv]; rfl))

/-- A tag whose quarantine is over, with its allotment count free (R108, R119). -/
def quarantineEnded (s : State) (q : Quar) : State :=
  let s := { later s q.until_ with dyn := { s.dyn with quar := s.dyn.quar.erase q } }
  if q.allot then allotBack s q.ep q.dst else s

theorem exec_tagQuarantineEnd {e : Ep} {tag : Nat} {q : Quar} {s : State} (hq : quiet s = true)
    (h : (s.dyn.quar.find? fun y => y.ep == e && y.tag == tag) = some q) :
    exec (.tagQuarantineEnd e tag) s = .next (quarantineEnded s q) := by
  change execTagQuarantineEnd e tag s = _
  rw [execTagQuarantineEnd, h]
  dsimp only
  rw [advanceTo_quiet _ hq]
  rfl

/-- Settles O20: the cistern's clauses are `grant_spec` and `cisRelease_lists`, the source's `exec_rsvGrant`, `exec_tagQuarantineEnd` and, for what is
given up, `release_of_sent`. -/
theorem reservationsAtCisterns : Obligations.ReservationsAtCisterns := by
  refine ⟨?request, ?cistern, ?multicast, fun r s h => grant_spec h, ?granted, ?release, ?quarantine, ?givenUp⟩
  case request =>
    intro p s h r q
    exact ⟨congrArg (· ++ [r]) (received_pend s p), congrArg Host.Outcome.next (arrive_passes _ h)⟩
  case cistern =>
    intro e r s h
    change execCisternGrant e s = _
    rw [execCisternGrant, h]
  case multicast =>
    intro e r s hq h l
    change execMcastEligible e s = _
    rw [execMcastEligible, h]
    dsimp only
    rw [advanceTo_quiet _ hq]
  case granted =>
    intro p v s h hv
    refine ⟨_, exec_rsvGrant h (by rw [received_rsvs]; exact hv), ?_, ?_⟩
    · rw [grantHeld_rsvs, received_rsvs, (received_keeps s p).only .clk (by decide)]
    · rw [grantHeld_allot, received_allot]
  case release =>
    intro p s h m pend? given?
    obtain ⟨hpend, hgiven⟩ := cisRelease_lists m (cisEp m p.dst) p.src p.tag
    exact ⟨_, congrArg Host.Outcome.next (arrive_passes _ h), hpend, hgiven⟩
  case quarantine =>
    intro e tag q s hq h
    refine ⟨_, exec_tagQuarantineEnd hq h, ?_⟩
    rw [quarantineEnded]
    split <;> exact ⟨rfl, rfl, rfl⟩
  case givenUp =>
    intro e n g v c s hq hsent hgone hc
    have hgiven : exec c s = .next (release (later s g) v) := by
      rcases hc with ⟨rfl, hlease, rfl, hv⟩ | ⟨rfl, rfl, hv⟩
      · change execLeaseExpire e n s = _
        rw [execLeaseExpire, hv]
        dsimp only
        rw [if_neg hlease, advanceTo_quiet _ hq]
      · have hnone : (s.dyn.waiting.find? fun r => r.id == v.req) = none := by
          simpa [List.find?_eq_none, List.any_eq_false] using hgone
        change execRsvTimeout e n s = _
        rw [execRsvTimeout, hv]
        dsimp only
        rw [hnone, advanceTo_quiet _ hq]
    refine ⟨_, ⟨s.dyn.nextReq, { opc := .rsvRelease, src := v.ep, dst := v.dst, tenant := v.tenant, prio := 3, tag := v.rec_, nbytes := 0 }, .none, [],
      false⟩, hgiven, ?_⟩
    rw [release_of_sent hsent]
    exact ⟨rfl, rfl, rfl, rfl, rfl, rfl, rfl, rfl⟩

end Sys2Proof.Machine

namespace Sys2Proof.Machine

/-! ### Requests at their source interface (R118, R119) -/

/-- A request aside from reduction outputs goes as far as its slots, tag, record, allotment or grant let it. -/
theorem exec_requestSend {id : Nat} {r : Req} {s s1 : State} (hr : (s.dyn.waiting.find? fun x => x.id == id) = some r)
    (hc : sourceCheck s r.pkt r.mc = none) (hwhy : ∀ a b c, r.why ≠ .redOut a b c) (ha : setAside s r = some s1) :
    exec (.requestSend id) s = .next (requestGo s1 { r with held := true }) := by
  change execRequestSend id s = _
  rw [execRequestSend, hr]
  dsimp only
  rw [hc]
  dsimp only
  have hgo : requestStep s r = requestGo s1 { r with held := true } := by rw [requestStep, ha]
  split
  · next t c n h => exact absurd h (hwhy t c n)
  · rw [hgo]

/-- A request refused by its source interface. -/
theorem exec_requestSend_refused {id : Nat} {r : Req} {st : Status} {s : State} (hr : (s.dyn.waiting.find? fun x => x.id == id) = some r)
    (hc : sourceCheck s r.pkt r.mc = some st) : exec (.requestSend id) s = .next (purposeEnd (dropReq s id) (asTxn r) st false) := by
  change execRequestSend id s = _
  rw [execRequestSend, hr]
  dsimp only
  rw [hc]

/-- A request dropped waits no longer. -/
theorem not_waiting_dropReq (s : State) (id : Nat) : ∀ w ∈ (dropReq s id).dyn.waiting, w.id ≠ id := by
  intro w hw
  have hkept := (List.mem_filter.1 hw).2
  simpa using hkept

/-- A piece that fails. -/
theorem pieceDone_of_not_good {st : Status} (h : st.good = false) (s : State) (id n : Nat) :
    pieceDone s id n st = updCmd s id fun c => failWith st { c with left := c.left - 1 } := by
  rw [pieceDone, h]
  rfl

/-- The slots set aside leave the clock, the transactions and the records. -/
theorem setAside_rest {s s1 : State} {r : Req} (h : setAside s r = some s1) :
    s1.clk = s.clk ∧ s1.dyn.txns = s.dyn.txns ∧ s1.dyn.rsvs = s.dyn.rsvs := by
  rw [setAside] at h
  dsimp only at h
  split at h
  · cases h
    exact ⟨rfl, rfl, rfl⟩
  · split at h
    · cases h
    · cases h
      exact ⟨rfl, rfl, rfl⟩

/-- What a grant's use leaves of the records depends on the records and the time alone. -/
theorem consumeGrant_rsvs {s u : State} (hclk : u.clk = s.clk) (h : u.dyn.rsvs = s.dyn.rsvs) (v : Rsv) (n : Nat) :
    (consumeGrant u v n).dyn.rsvs = (consumeGrant s v n).dyn.rsvs := by
  simp only [consumeGrant, hclk, h]

/-- An RSV_REQ leaves under an open allotment. -/
theorem requestGo_rsvReq {s : State} {r : Req} (hop : r.pkt.opc = .rsvReq) (ho : allotOpen s r.pkt = true) : requestGo s r = issueRsv s r := by
  rw [requestGo]
  dsimp only
  rw [if_pos (.inl hop), if_pos ho]

/-- What an RSV_REQ's issue leaves of the records and the waiting requests. -/
theorem issueRsv_rsvReq {s : State} {r : Req} {v : Rsv} (hop : r.pkt.opc = .rsvReq)
    (hv : (s.dyn.rsvs.find? fun v => v.ep == r.pkt.src && v.rec_ == r.pkt.tag) = some v) :
    (issueRsv s r).dyn.rsvs = updFirst (· == v) (fun _ => issuedRsv s v) s.dyn.rsvs ∧
    (issueRsv s r).dyn.waiting = s.dyn.waiting.filter fun w => w.id != r.id := by
  rw [issueRsv]
  dsimp only
  rw [hv]
  dsimp only
  rw [if_pos hop, (inject_mesh _ _).rsvs, (inject_mesh _ _).waiting]
  split <;> exact ⟨rfl, rfl⟩

/-- The transaction that a request becomes under a tag. -/
def openTxn (s : State) (r : Req) (tag : Nat) : Txn :=
  { ep := r.pkt.src, tag := tag, opc := r.pkt.opc, dst := r.pkt.dst, why := r.why, slots := rspSlots r.pkt r.mc, sent := s.clk.now,
    allot := allotOpc r.pkt.opc && r.pkt.src.chip == r.pkt.dst.chip, prio := r.pkt.prio, addr := r.pkt.addr, tenant := r.pkt.tenant,
    due := if r.mc.isEmpty then [r.pkt.dst] else r.mc, rspto := rspto s r.pkt.src }

/-- The state in which a launched request's packets are injected. -/
def txnOpened (s : State) (r : Req) (tag : Nat) : State :=
  let u := if (openTxn s r tag).allot then allotAdd s r.pkt.src r.pkt.dst else s
  { u with dyn := { u.dyn with txns := u.dyn.txns ++ [openTxn s r tag], waiting := u.dyn.waiting.filter fun w => w.id != r.id } }

theorem launch_eq (s : State) (r : Req) (tag : Nat) : launch s r tag = if r.mc.isEmpty then inject (txnOpened s r tag) { r.pkt with tag := tag }
    else (r.mc.map Ep.chip).dedup.foldl (fun u c => inject u { r.pkt with tag := tag, dst := { r.pkt.dst with chip := c } }) (txnOpened s r tag) := rfl

theorem launch_mesh (s : State) (r : Req) (tag : Nat) : MeshOnly (txnOpened s r tag) (launch s r tag) := by
  rw [launch_eq]
  split
  · exact inject_mesh _ _
  · exact MeshOnly.foldl (fun u c => inject_mesh u _) _ _

/-- A launched request is a transaction under its tag. -/
theorem launch_txns (s : State) (r : Req) (tag : Nat) : (launch s r tag).dyn.txns = s.dyn.txns ++ [openTxn s r tag] := by
  rw [(launch_mesh s r tag).txns, txnOpened]
  dsimp only
  split <;> rfl

theorem launch_rsvs (s : State) (r : Req) (tag : Nat) : (launch s r tag).dyn.rsvs = s.dyn.rsvs := by
  rw [(launch_mesh s r tag).rsvs, txnOpened]
  dsimp only
  split <;> rfl

section Going

variable {s : State} {r : Req} {tag : Nat} (hreq : r.pkt.opc ≠ .rsvReq) (hrel : r.pkt.opc ≠ .rsvRelease) (hroom : contribRoom s r = true)
  (htag : freeTag s r.pkt.src = some tag)
include hreq hrel hroom htag

/-- An allotment packet with a tag and an open allotment leaves. -/
theorem requestGo_allot (hop : allotOpc r.pkt.opc = true) (ho : allotOpen s r.pkt = true) : requestGo s r = launch s r tag := by
  rw [requestGo]
  dsimp only
  rw [if_neg (by simp [hreq, hrel]), hroom, htag]
  dsimp only
  rw [if_pos hop, if_pos ho]
  rfl

variable (hop : allotOpc r.pkt.opc = false) (hmc : r.mc = [])
include hop hmc

/-- A request that holds a grant for its flits leaves on it. -/
theorem requestGo_granted {v : Rsv} (hv : grantFor s r.pkt.src r.pkt.dst (flits r.pkt) = some v) :
    requestGo s r = launch (consumeGrant s v (flits r.pkt)) r tag := by
  rw [requestGo]
  dsimp only
  rw [if_neg (by simp [hreq, hrel]), hroom, htag]
  dsimp only
  rw [hop, hmc, hv]
  rfl

/-- A request for which no grant is held and none is on its way asks for one. -/
theorem requestGo_reserve (hv : grantFor s r.pkt.src r.pkt.dst (flits r.pkt) = none)
    (hmine : (s.dyn.rsvs.all fun v => v.req != r.id || v.released || v.granted) = true) :
    requestGo s r = reserve s r (cisEp s r.pkt.dst) (flits r.pkt) 0 := by
  have hall : ((s.dyn.rsvs.filter fun v => v.req == r.id && ! v.released).all fun v => v.granted) = true := by
    rw [List.all_filter, ← hmine]
    congr 1
    funext v
    cases v.released <;> cases v.granted <;> simp [bne]
  rw [requestGo]
  dsimp only
  rw [if_neg (by simp [hreq, hrel]), hroom, htag]
  dsimp only
  rw [hop, hmc, hv, hall]
  rfl

end Going

/-- The record that a request takes, and its RSV_REQ. -/
def newRsv (s : State) (r : Req) (dst : Ep) (n mcop i : Nat) : Rsv :=
  { ep := r.pkt.src, rec_ := i, dst := dst, flits := n, tenant := r.pkt.tenant, mcop := mcop, issued := s.clk.now, req := r.id, why := r.why }

def rsvReqPkt (r : Req) (v : Rsv) : Pkt :=
  { opc := .rsvReq, src := v.ep, dst := v.dst, tenant := v.tenant, prio := 3, tag := v.rec_, nbytes := 16, layer := r.pkt.layer, opid := r.pkt.opid,
    data := rsvPayload v r.pkt.prio 0 }

theorem reserve_eq {s : State} {r : Req} {i : Nat} (h : freeRec s r.pkt.src = some i) (dst : Ep) (n mcop : Nat) : reserve s r dst n mcop =
    enqueue { s with dyn := { s.dyn with rsvs := s.dyn.rsvs ++ [newRsv s r dst n mcop i] } } (rsvReqPkt r (newRsv s r dst n mcop i)) .none := by
  rw [reserve, h]
  rfl

/-! ### Flits at routers (R104, R109, R112) -/

/-- Whether a router discards a packet does not depend on the state. -/
theorem routerCheck1_none {s : State} {tile : Nat} {p : Pkt} (h : routerCheck1 s tile p = none) (u : State) : routerCheck1 u tile p = none := by
  rw [routerCheck1] at h ⊢
  by_cases hcrc : hcrcOk p = true
  · simp only [hcrc, Bool.not_true, Bool.false_eq_true, if_false] at h ⊢
    split at h
    · cases h
    · split at h
      · rename_i hten
        rw [if_pos hten]
      · cases h
  · simp [hcrc] at h

/-- With no injection armed at a router its outputs make no link errors. -/
theorem injLink_of_unarmed {s : State} {tile : Nat} (h : flag s (injReg (.rtr tile)) Inj.ARM = false) (out plane : Nat) :
    injLink s tile out plane = (0, s) := by
  have hinj : injArmed s (.rtr tile) .linkecc (fun k => k / 16 == out && k % 2 == plane) = false := by simp [injArmed, h]
  exact if_neg (Bool.eq_false_iff.mp hinj)

theorem routeFlit_here {s : State} {tile port k target dep : Nat} {p : Pkt} (hheads : headsFor s p = some (target, dep)) (hchip : p.dst.chip = myChip s)
    (hinj : flag s (injReg (.rtr tile)) Inj.ARM = false) : routeFlit s tile port p k = enterVc s tile port [outPort tile target dep p] p k := by
  rw [routeFlit, hheads]
  dsimp only
  rw [injLink_of_unarmed hinj]
  have hhere : ¬ (outPort tile target dep p = epPort dep ∧ p.dst.chip ≠ myChip (enterVc s tile port [outPort tile target dep p] p k) ∧ k + 1 = flits p) :=
    fun h => h.2.1 hchip
  exact if_neg hhere

theorem flitStep_onNet {s : State} {tile port k : Nat} {p q : Pkt} (hcheck : routerCheck1 s tile p = none) (hnet : onNet s p = some q)
    (k' : State → Pkt → State) : flitStep s tile port p k k' = k' (offLink s tile port p) q := by
  rw [flitStep]
  rw [routerCheck1_none hcheck, show onNet (offLink s tile port p) p = some q from hnet]


/-! ### Counters (R257, R258) -/

/-- The fields of two words' bits taken together. -/
theorem getF_or (w v : Word) (f : Fld) : getF (w ||| v) f = getF w f ||| getF v f := by
  simp only [getF, bits, BitVec.toNat_or, ← Nat.shiftRight_eq_div_pow, Nat.shiftRight_or_distrib, Nat.or_mod_two_pow]

/-- A field of a register whose bits the fabric sets. -/
theorem fld_raise {s : State} (h : s.wf = true) (a mask : Nat) (f : Fld) : fld (raise s a mask) a f = fld s a f ||| getF (BitVec.ofNat 64 mask) f := by
  rw [fld, show rd (raise s a mask) a = rd s a ||| BitVec.ofNat 64 mask from rd_wrReg_same h a _, getF_or]
  rfl

/-- A counter with an addition in VALUE, before its failures are recorded. -/
def ctrAdded (s : State) (off n : Nat) (fails : List Nat) : State :=
  setNote (setFld s off Ctr.VALUE (fld s off Ctr.VALUE + n))
    { noteOf s off with added := ((noteOf s off).added + n) % 2 ^ 32, fails := (noteOf s off).fails ++ fails }

/-- A counter's first failure recorded. -/
def ctrFailed (s : State) (off code : Nat) : State := setFld (raise s off (2 ^ Ctr.FAIL.lo)) off Ctr.STATUS code

section Counter

variable {s : State} (h : s.wf = true) (off n : Nat) (fails : List Nat)
include h

theorem fld_ctrAdded_value : fld (ctrAdded s off n fails) off Ctr.VALUE = (fld s off Ctr.VALUE + n) % 2 ^ 32 :=
  fld_setFld_same s off _ h (by decide) (by decide)

theorem fld_ctrAdded_above {f : Fld} (hf : Ctr.VALUE.hi < f.lo) : fld (ctrAdded s off n fails) off f = fld s off f :=
  fld_setFld_above s off _ h (by decide) (by decide) hf

theorem fld_ctrFailed_value (code : Nat) : fld (ctrFailed s off code) off Ctr.VALUE = fld s off Ctr.VALUE := by
  have hbelow := fld_setFld_below (raise s off (2 ^ Ctr.FAIL.lo)) off (f := Ctr.STATUS) (g := Ctr.VALUE) code (wf_wrReg h _ _)
    (by decide) (by decide) (by decide) (by decide)
  have hmask : getF (BitVec.ofNat 64 (2 ^ Ctr.FAIL.lo)) Ctr.VALUE = 0 := by decide
  rw [ctrFailed, hbelow, fld_raise h, hmask, Nat.or_zero]

theorem flag_ctrFailed_fail (code : Nat) : flag (ctrFailed s off code) off Ctr.FAIL = true := by
  have hbelow := fld_setFld_below (raise s off (2 ^ Ctr.FAIL.lo)) off (f := Ctr.STATUS) (g := Ctr.FAIL) code (wf_wrReg h _ _)
    (by decide) (by decide) (by decide) (by decide)
  have hmask : getF (BitVec.ofNat 64 (2 ^ Ctr.FAIL.lo)) Ctr.FAIL = 1 := by decide
  have hbit : fld s off Ctr.FAIL < 2 := getF_lt _ _
  have hset : fld s off Ctr.FAIL ||| 1 = 1 := by interval_cases fld s off Ctr.FAIL <;> rfl
  rw [flag, ctrFailed, hbelow, fld_raise h, hmask, hset]
  rfl

theorem fld_ctrFailed_status (code : Nat) : fld (ctrFailed s off code) off Ctr.STATUS = code % 2 ^ 8 :=
  fld_setFld_same _ off _ (wf_wrReg h _ _) (by decide) (by decide)

/-- Failures are recorded in a counter that holds none, or only some of this cycle. -/
theorem ctrApply_eq : ctrApply s off n fails = if fails.isEmpty || (flag s off Ctr.FAIL && (noteOf s off).fails.isEmpty) then ctrAdded s off n fails
    else ctrFailed (ctrAdded s off n fails) off (lowest ((noteOf s off).fails ++ fails)) := by
  have hfail : flag (ctrAdded s off n fails) off Ctr.FAIL = flag s off Ctr.FAIL :=
    congrArg (· == 1) (fld_ctrAdded_above h off n fails (by decide))
  rw [← hfail]
  rfl

end Counter

theorem ctrAdded_outside (s : State) (off n : Nat) (fails : List Nat) : RegsOutside [off] s (ctrAdded s off n fails) :=
  setFld_regsOutside s _ _ (List.mem_singleton_self off)

theorem ctrFailed_outside (s : State) (off code : Nat) : RegsOutside [off] s (ctrFailed s off code) := by
  intro a ha
  have hne : a ≠ off := fun e => ha (e ▸ List.mem_singleton_self off)
  rw [ctrFailed, rd_setFld_ne _ _ _ hne, rd_raise_ne _ _ hne]

/-- What a CTR_ADD's addition and status do to their counter. -/
theorem ctrApply_spec {s : State} (h : s.wf = true) (off n st : Nat) :
    let m := ctrApply s off n (if st = 0 then [] else [st])
    RegsOutside [off] s m ∧ fld m off Ctr.VALUE = (fld s off Ctr.VALUE + n) % 2 ^ 32 ∧ flag m off Ctr.FAIL = (flag s off Ctr.FAIL || st != 0) ∧
    fld m off Ctr.STATUS = if st = 0 ∨ (flag s off Ctr.FAIL = true ∧ (noteOf s off).fails = []) then fld s off Ctr.STATUS
      else lowest ((noteOf s off).fails ++ [st]) % 2 ^ 8 := by
  intro m
  have hwf (fails : List Nat) : (ctrAdded s off n fails).wf = true := setFld_wf h
  have hcond : ((if st = 0 then [] else [st]).isEmpty || (flag s off Ctr.FAIL && (noteOf s off).fails.isEmpty)) = true ↔
      st = 0 ∨ (flag s off Ctr.FAIL = true ∧ (noteOf s off).fails = []) := by
    by_cases hst : st = 0 <;> simp [hst]
  have hm : m = _ := ctrApply_eq h off n _
  by_cases hkeep : st = 0 ∨ (flag s off Ctr.FAIL = true ∧ (noteOf s off).fails = [])
  · rw [if_pos (hcond.2 hkeep)] at hm
    rw [hm, if_pos hkeep]
    refine ⟨ctrAdded_outside s off n _, fld_ctrAdded_value h off n _, ?_, fld_ctrAdded_above h off n _ (by decide)⟩
    rw [flag, fld_ctrAdded_above h off n _ (by decide)]
    obtain hst | ⟨hfail, -⟩ := hkeep
    · simp [hst, flag]
    · rw [hfail]
      exact hfail
  · rw [if_neg (mt hcond.1 hkeep)] at hm
    rw [hm, if_neg hkeep]
    have hst : st ≠ 0 := fun e => hkeep (.inl e)
    refine ⟨(ctrAdded_outside s off n _).trans (ctrFailed_outside _ off _), ?_, ?_, ?_⟩
    · rw [fld_ctrFailed_value (hwf _), fld_ctrAdded_value h]
    · rw [flag_ctrFailed_fail (hwf _)]
      simp [hst]
    · rw [fld_ctrFailed_status (hwf _), if_neg hst]

/-- With no trigger armed nothing is compared. -/
theorem compareAll_of_unarmed {s : State} (h : s.trig.armed = []) : compareAll s = s := by
  rw [compareAll, h]
  rfl

theorem ctrApply_trig (s : State) (off n : Nat) (fails : List Nat) : (ctrApply s off n fails).trig = s.trig := by
  rw [ctrApply]
  split <;> rfl

/-- A CTR_ADD of the counter's tenant, with no trigger armed. -/
theorem exec_ctrAdd {p : Pkt} {s : State} (hp : passesChecks s p = true) (hf : fmtSound p = true) (harmed : s.trig.armed = [])
    (hten : fld (received s p) (Reg.ctr (epBlk p.dst) (bits p.addr 10 0)) Ctr.TENANT = p.tenant) :
    exec (.ctrAdd p) s = .next (ackTo (ctrApply (received s p) (Reg.ctr (epBlk p.dst) (bits p.addr 10 0)) (ofLE (slice p.data 0 4))
      (if (p.data.getD 4 0).toNat = 0 then [] else [(p.data.getD 4 0).toNat])) p .ok) := by
  have htrig : (received s p).trig = s.trig := (received_keeps s p).only .trig (by decide)
  change execCtrAdd p s = _
  rw [execCtrAdd, arrive_passes _ hp, hf, if_neg (by decide), if_neg (not_not_intro hten)]
  dsimp only
  rw [compareAll_of_unarmed (by rw [ctrApply_trig, htrig, harmed])]

/-! ### Timers (R108, R129) -/

/-- A transaction that timed out, before its purpose is told. -/
def timedOut (s : State) (x : Txn) (ep : Ep) (tag : Nat) : State :=
  giveFree { later s (x.sent + x.rspto) with dyn := { s.dyn with
    txns := s.dyn.txns.erase x
    quar := s.dyn.quar ++ [⟨ep, tag, x.dst, x.allot, max s.clk.now (x.sent + x.rspto) + x.rspto⟩] } } ep x.slots

/-- The response of a started command's write that does not come. -/
theorem exec_responseTimeout {ep : Ep} {tag c n : Nat} {x : Txn} {s : State} (hq : quiet s = true)
    (hx : (s.dyn.txns.find? fun y => y.ep == ep && y.tag == tag) = some x) (hmc : x.opc ≠ .mcWr) (hwhy : x.why = .cmdWr c n) :
    exec (.responseTimeout ep tag) s = .next (updCmd (timeoutRec (timedOut s x ep tag) x .peerUnreachable) c
      fun y => failWith .peerUnreachable { y with left := y.left - 1 }) := by
  obtain ⟨⟨hadds, -⟩, -⟩ : (s.trig.adds = [] ∧ s.trig.armed = []) ∧ s.rel.restore = [] := by simpa [quiet] using hq
  have htrig : (updCmd (timeoutRec (timedOut s x ep tag) x .peerUnreachable) c fun y => failWith .peerUnreachable { y with left := y.left - 1 }).trig =
      s.trig := (updCmd_keeps (w := [.log, .rel, .host]) (by decide) (timeoutRec_keeps (by decide) (by decide) (.refl _ (timedOut s x ep tag)))).only .trig
        (by decide)
  have hend (u : State) : purposeEnd u x .peerUnreachable false = updCmd u c fun y => failWith .peerUnreachable { y with left := y.left - 1 } := by
    rw [purposeEnd, hwhy]
    exact pieceDone_of_not_good rfl u c n
  change execResponseTimeout ep tag s = _
  rw [execResponseTimeout, hx]
  dsimp only
  rw [advanceTo_quiet _ hq, mcClear_of_ne hmc, hend]
  exact congrArg Host.Outcome.next (settle_of_no_adds ((congrArg TrigState.adds htrig).trans hadds))


/-- Settles O21: each clause is what its source interface, router, timer or counter does with the request, flit or packet at hand. -/
theorem requestsLeaveAndTimeOut : Obligations.RequestsLeaveAndTimeOut := by
  refine ⟨?refused, ?leaves, ?crosses, ?timesOut, ?counts⟩
  case refused =>
    intro id c n r st s hr hc hgood hwhy
    have hend : purposeEnd (dropReq s id) (asTxn r) st false = updCmd (dropReq s id) c fun y => failWith st { y with left := y.left - 1 } := by
      rw [purposeEnd, show (asTxn r).why = .cmdWr c n from hwhy]
      exact pieceDone_of_not_good hgood _ c n
    have hhost : (dropReq s id).host = s.host := (dropReq_keeps (w := [.dyn, .regs]) (by decide) (by decide) (.refl _ s)).only .host (by decide)
    refine ⟨_, exec_requestSend_refused hr hc, ?_⟩
    rw [hend]
    exact ⟨not_waiting_dropReq s id, congrArg (updFirst _ _) (congrArg HostState.cmds hhost)⟩
  case leaves =>
    intro id tag r s s1 hr hc hwhy ha
    have hgo := exec_requestSend hr hc hwhy ha
    obtain ⟨hclk, htxns, hrsvs⟩ := setAside_rest ha
    rw [← hclk, ← htxns, ← hrsvs]
    refine ⟨fun hop ho v hv => ?_, fun hreq hrel hroom htag => ⟨fun hop ho => ?_, fun hop hmc v hv => ?_, fun hop hmc hv hmine i hi => ?_⟩⟩
    · obtain ⟨hissued, hwaiting⟩ := issueRsv_rsvReq (r := { r with held := true }) hop hv
      refine ⟨_, _, hgo.trans (congrArg _ (requestGo_rsvReq (r := { r with held := true }) hop ho)), hissued, fun y hy => ?_, rfl, rfl, rfl, rfl, rfl, rfl⟩
      rw [hwaiting] at hy
      simpa using (List.mem_filter.1 hy).2
    · exact ⟨_, _, hgo.trans (congrArg _ (requestGo_allot (r := { r with held := true }) hreq hrel hroom htag hop ho)), launch_txns _ _ tag,
        rfl, rfl, rfl, rfl, rfl, rfl, rfl⟩
    · exact ⟨_, _, hgo.trans (congrArg _ (requestGo_granted (r := { r with held := true }) hreq hrel hroom htag hop hmc hv)), launch_txns _ _ tag,
        rfl, rfl, rfl, (launch_rsvs _ _ tag).trans (consumeGrant_rsvs hclk hrsvs v _)⟩
    · exact ⟨_, _, _, hgo.trans (congrArg _ ((requestGo_reserve (r := { r with held := true }) hreq hrel hroom htag hop hmc hv hmine).trans
        (reserve_eq (r := { r with held := true }) hi _ _ _))), rfl, rfl, rfl, rfl, rfl, rfl, rfl, rfl⟩
  case crosses =>
    intro tile port k dep target p s hop hfits hcheck hheads hchip hnet hinj
    have hstep : flitStep s tile port p k (fun s p => routeFlit s tile port p k) = _ := flitStep_onNet hcheck hnet _
    change execRouterFlitArrival tile port p k s = _
    rw [execRouterFlitArrival, if_neg (by simp [hop, hfits]), hstep]
    exact congrArg Host.Outcome.next (routeFlit_here hheads hchip hinj)
  case timesOut =>
    intro ep tag c n x s hq hx hmc hwhy
    have hkeeps := timeoutRec_keeps (w := [.log, .rel]) (x := x) (st := .peerUnreachable) (by decide) (by decide) (.refl _ (timedOut s x ep tag))
    have hclk : (timeoutRec (timedOut s x ep tag) x .peerUnreachable).clk = (timedOut s x ep tag).clk := hkeeps.only .clk (by decide)
    have hdyn : (timeoutRec (timedOut s x ep tag) x .peerUnreachable).dyn = (timedOut s x ep tag).dyn := hkeeps.only .dyn (by decide)
    have hhost : (timeoutRec (timedOut s x ep tag) x .peerUnreachable).host = (timedOut s x ep tag).host := hkeeps.only .host (by decide)
    exact ⟨_, exec_responseTimeout hq hx hmc hwhy, congrArg Clock.now hclk, congrArg DynState.txns hdyn, congrArg DynState.quar hdyn,
      congrArg (updFirst _ _) (congrArg HostState.cmds hhost)⟩
  case counts =>
    intro p s hwf hp hf hq off r st before hten
    have harmed : s.trig.armed = [] := by
      obtain ⟨⟨-, h⟩, -⟩ : (s.trig.adds = [] ∧ s.trig.armed = []) ∧ s.rel.restore = [] := by simpa [quiet] using hq
      exact h
    exact ⟨_, exec_ctrAdd hp hf harmed hten, ctrApply_spec ((received_keeps s p).wf hwf) off _ st⟩

end Sys2Proof.Machine

namespace Sys2Proof.Machine

/-! ### The working states of arbiters and gate lists are none of the registers -/

theorem setFld_setRun (s : State) (a : Arb) (x : ArbRun) (c : Nat) (f : Fld) (v : Nat) :
    setFld (setRun s a x) c f v = setRun (setFld s c f v) a x := rfl

@[simp] theorem rd_setRun (s : State) (a : Arb) (x : ArbRun) (c : Nat) : rd (setRun s a x) c = rd s c := rfl

@[simp] theorem fld_setRun (s : State) (a : Arb) (x : ArbRun) (c : Nat) (f : Fld) : fld (setRun s a x) c f = fld s c f := rfl

@[simp] theorem flag_setRun (s : State) (a : Arb) (x : ArbRun) (c : Nat) (f : Fld) : flag (setRun s a x) c f = flag s c f := rfl

@[simp] theorem regsOutside_setRun {r : List Nat} {s u : State} {a : Arb} {x : ArbRun} : RegsOutside r s (setRun u a x) ↔ RegsOutside r s u := .rfl

theorem setRun_arb (s : State) (a : Arb) (x : ArbRun) : (setRun s a x).arb = { s.arb with runs := eSet {} a.base x s.arb.runs } := rfl

theorem setFld_setGate (s : State) (b : Blk) (x : GateRun) (c : Nat) (f : Fld) (v : Nat) :
    setFld (setGate s b x) c f v = setGate (setFld s c f v) b x := rfl

@[simp] theorem rd_setGate (s : State) (b : Blk) (x : GateRun) (c : Nat) : rd (setGate s b x) c = rd s c := rfl

@[simp] theorem fld_setGate (s : State) (b : Blk) (x : GateRun) (c : Nat) (f : Fld) : fld (setGate s b x) c f = fld s c f := rfl

@[simp] theorem flag_setGate (s : State) (b : Blk) (x : GateRun) (c : Nat) (f : Fld) : flag (setGate s b x) c f = flag s c f := rfl

@[simp] theorem regsOutside_setGate {r : List Nat} {s u : State} {b : Blk} {x : GateRun} : RegsOutside r s (setGate u b x) ↔ RegsOutside r s u := .rfl

theorem setGate_arb (s : State) (b : Blk) (x : GateRun) : (setGate s b x).arb = { s.arb with gates := eSet {} b.base x s.arb.gates } := rfl

/-! ### A bank that waits for its switch (R170, R171, R177, R178)

Slot tables and gate lists are switched in one way: their ARM register holds TIME; their CTL register holds the active bank, ARMED, and ARMERR
of the last check. The fields of the two pairs of registers lie in the same places. -/

/-- TIME and ARMED cleared. -/
def switchDropped (s : State) (arm ctl : Nat) : State := setFld (setFld s arm ArbArm.TIME 0) ctl ArbCtl.ARMED 0

/-- A check ended with the lowest failure e, 0 for none. -/
def switchChecked (s : State) (arm ctl e : Nat) : State :=
  let u := setFld s ctl ArbCtl.ARMERR e
  if e = 0 then setFld u ctl ArbCtl.ARMED 1 else switchDropped u arm ctl

/-- The other bank active, and the arm cleared. -/
def bankSwitched (s : State) (arm ctl : Nat) : State :=
  setFld (setFld (setFld s ctl ArbCtl.BANK (1 - fld s ctl ArbCtl.BANK)) ctl ArbCtl.ARMED 0) arm ArbArm.TIME 0

theorem switchDropped_regsOutside (s : State) (arm ctl : Nat) : RegsOutside [arm, ctl] s (switchDropped s arm ctl) :=
  (setFld_regsOutside s _ _ (by simp)).trans (setFld_regsOutside _ _ _ (by simp))

theorem switchChecked_regsOutside (s : State) (arm ctl e : Nat) : RegsOutside [arm, ctl] s (switchChecked s arm ctl e) := by
  have herr : RegsOutside [arm, ctl] s (setFld s ctl ArbCtl.ARMERR e) := setFld_regsOutside s _ _ (by simp)
  rw [switchChecked]
  split
  · exact herr.trans (setFld_regsOutside _ _ _ (by simp))
  · exact herr.trans (switchDropped_regsOutside _ arm ctl)

theorem bankSwitched_regsOutside (s : State) (arm ctl : Nat) : RegsOutside [arm, ctl] s (bankSwitched s arm ctl) :=
  ((setFld_regsOutside s _ _ (by simp)).trans (setFld_regsOutside _ _ _ (by simp))).trans (setFld_regsOutside _ _ _ (by simp))

@[simp] theorem switchDropped_arb (s : State) (arm ctl : Nat) : (switchDropped s arm ctl).arb = s.arb := rfl

@[simp] theorem bankSwitched_arb (s : State) (arm ctl : Nat) : (bankSwitched s arm ctl).arb = s.arb := rfl

@[simp] theorem bankSwitched_clk (s : State) (arm ctl : Nat) : (bankSwitched s arm ctl).clk = s.clk := rfl

section Switching

variable {s : State} (h : s.wf = true) {arm ctl : Nat} (hne : arm ≠ ctl)
include h hne

theorem rd_switchDropped_arm : rd (switchDropped s arm ctl) arm = setF (rd s arm) ArbArm.TIME 0 := by
  rw [switchDropped, rd_setFld_ne _ _ _ hne, rd_setFld_same _ _ _ _ h]

theorem rd_switchDropped_ctl : rd (switchDropped s arm ctl) ctl = setF (rd s ctl) ArbCtl.ARMED 0 := by
  rw [switchDropped, rd_setFld_same _ _ _ _ (setFld_wf h), rd_setFld_ne _ _ _ hne.symm]

theorem fld_switchChecked_armerr {e : Nat} (he : e < 2 ^ fldWidth ArbCtl.ARMERR) : fld (switchChecked s arm ctl e) ctl ArbCtl.ARMERR = e := by
  have herr : fld (setFld s ctl ArbCtl.ARMERR e) ctl ArbCtl.ARMERR = e :=
    (fld_setFld_same s ctl e h (by decide) (by decide)).trans (Nat.mod_eq_of_lt he)
  rw [switchChecked]
  split
  · rw [fld_setFld_apart (setFld_wf h) _ _ (by decide) (by decide) (by decide), herr]
  · rw [fld, rd_switchDropped_ctl (setFld_wf h) hne, getF_setF_apart (by decide) (by decide) (by decide), ← fld, herr]

theorem flag_switchChecked_armed (e : Nat) : flag (switchChecked s arm ctl e) ctl ArbCtl.ARMED = (e == 0) := by
  rw [switchChecked, flag]
  split
  case isTrue he =>
    rw [fld_setFld_same _ _ _ (setFld_wf h) (by decide) (by decide), he]
    rfl
  case isFalse he =>
    rw [fld, rd_switchDropped_ctl (setFld_wf h) hne, getF_setF_same (by decide) (by decide), beq_false_of_ne he]
    rfl

theorem fld_switchChecked_time (e : Nat) : fld (switchChecked s arm ctl e) arm ArbArm.TIME = if e = 0 then fld s arm ArbArm.TIME else 0 := by
  rw [switchChecked]
  split
  · rw [fld_setFld_ne _ _ _ _ hne, fld_setFld_ne _ _ _ _ hne]
  · rw [fld, rd_switchDropped_arm (setFld_wf h) hne, getF_setF_same (by decide) (by decide)]
    rfl

theorem fld_bankSwitched_bank : fld (bankSwitched s arm ctl) ctl ArbCtl.BANK = 1 - fld s ctl ArbCtl.BANK := by
  rw [bankSwitched, fld_setFld_ne _ _ _ _ hne.symm, fld_setFld_apart (setFld_wf h) _ _ (by decide) (by decide) (by decide),
    fld_setFld_same _ _ _ h (by decide) (by decide)]
  exact Nat.mod_eq_of_lt (Nat.lt_succ_of_le (Nat.sub_le _ _))

theorem flag_bankSwitched_armed : flag (bankSwitched s arm ctl) ctl ArbCtl.ARMED = false := by
  rw [flag, bankSwitched, fld_setFld_ne _ _ _ _ hne.symm, fld_setFld_same _ _ _ (setFld_wf h) (by decide) (by decide)]
  rfl

omit hne in
theorem fld_bankSwitched_time (arm ctl : Nat) : fld (bankSwitched s arm ctl) arm ArbArm.TIME = 0 := by
  rw [bankSwitched, fld_setFld_same _ _ _ (setFld_wf (setFld_wf h)) (by decide) (by decide)]
  rfl

end Switching

theorem arbArm_ne_arbCtl (a : Arb) : Reg.arbArm a ≠ Reg.arbCtl a := by
  simp only [Reg.arbArm, Reg.arbCtl]; omega

theorem gateArm_ne_gateCtl (b : Blk) : Reg.gateArm b ≠ Reg.gateCtl b := by
  simp only [Reg.gateArm, Reg.gateCtl]; omega

/-! ### Arming and its check -/

/-- ARMERR of a slot table names one of three failures (R170). -/
theorem arbCheck_lt (s : State) (a : Arb) : arbCheck s a < 2 ^ fldWidth ArbCtl.ARMERR := by
  rw [arbCheck]
  split_ifs <;> decide

theorem exec_arbArm {time : Nat} (h : time ≠ 0) (a : Arb) (s : State) : exec (.arbArm a time) s =
    .next (setRun (setFld s (Reg.arbArm a) ArbArm.TIME time) a { arbRun s a with checking := true, armAt := s.clk.now }) := by
  change execArbArm a time s = _
  rw [execArbArm, if_neg h]

theorem exec_arbDisarm (a : Arb) (s : State) : exec (.arbDisarm a) s =
    .next (setRun (switchDropped s (Reg.arbArm a) (Reg.arbCtl a)) a { arbRun s a with checking := false }) := rfl

theorem exec_arbArmCheckDone {a : Arb} {s : State} (h : (arbRun s a).checking = true) : exec (.arbArmCheckDone a) s =
    .next (setRun (switchChecked s (Reg.arbArm a) (Reg.arbCtl a) (arbCheck s a)) a { arbRun s a with checking := false }) := by
  change execArbArmCheckDone a s = _
  rw [execArbArmCheckDone, h, if_neg (by decide)]
  dsimp only
  rw [switchChecked]
  by_cases he : arbCheck s a = 0
  · rw [if_pos he, if_pos he, setFld_setRun]
  · rw [if_neg he, if_neg he, setFld_setRun, setFld_setRun, switchDropped]

theorem exec_gateArm {time : Nat} (h : time ≠ 0) (b : Blk) (s : State) : exec (.gateArm b time) s =
    .next (setGate (setFld s (Reg.gateArm b) GateArm.TIME time) b { gateRun s b with checking := true, armAt := s.clk.now }) := by
  change execGateArm b time s = _
  rw [execGateArm, if_neg h]

theorem exec_gateDisarm (b : Blk) (s : State) : exec (.gateDisarm b) s =
    .next (setGate (switchDropped s (Reg.gateArm b) (Reg.gateCtl b)) b { gateRun s b with checking := false }) := rfl

/-- The check of a gate list fails only when it comes too late for TIME (R177). -/
theorem exec_gateArmCheckDone {b : Blk} {s : State} (h : (gateRun s b).checking = true) : exec (.gateArmCheckDone b) s =
    .next (setGate (switchChecked s (Reg.gateArm b) (Reg.gateCtl b)
      (b2n (decide (cycleAt (fld s (Reg.gateArm b) GateArm.TIME) < (gateRun s b).armAt + usCycles 1)))) b { gateRun s b with checking := false }) := by
  change execGateArmCheckDone b s = _
  rw [execGateArmCheckDone, h, if_neg (by decide)]
  dsimp only
  generalize decide (cycleAt (fld s (Reg.gateArm b) GateArm.TIME) < (gateRun s b).armAt + usCycles 1) = late
  cases late
  · rw [setFld_setGate]; rfl
  · rw [setFld_setGate, setFld_setGate]; rfl

/-! ### Arbiter cycles that no command showed, with no locked sequence (R158, log 167) -/

/-- What such cycles leave: the current transfer may have been parked and counted, nothing else that is not the arbiter's own has changed, and its
cycles are counted from where they were. -/
structure IdlePassed (s : State) (a : Arb) (t : State) : Prop where
  clk : t.clk = s.clk
  quiet : quiet t = quiet s
  regs : RegsOutside [Reg.arbStat1 a] s t
  unparked : (arbRun s a).current = none → t = s
  base : arbBase t a = arbBase s a

/-- A working state that is not an unlisted arbiter's reads back. -/
theorem arbRun_setRun_listed {x : ArbRun} (h : x ≠ {}) (s : State) (a : Arb) : arbRun (setRun s a x) a = x :=
  eGet_eSet_listed h a.base s.arb.runs

/-- A working state written with its pace as it was leaves the arbiter's cycles counted from where they were. -/
theorem arbBase_setRun {s : State} {a : Arb} {x : ArbRun} (h : x ≠ {}) (hpace : x.pace = (arbRun s a).pace) :
    arbBase (setRun s a x) a = arbBase s a := by
  simp only [arbBase, arbRun_setRun_listed h, hpace]
  rfl

theorem IdlePassed.refl (s : State) (a : Arb) : IdlePassed s a s := ⟨rfl, rfl, fun _ _ => rfl, fun _ => rfl, rfl⟩

/-- A current transfer whose row of cycles without a grain has grown. -/
theorem idlePassed_setRun {s : State} {a : Arb} {c : ArbTx} (hc : (arbRun s a).current = some c) (k : Nat) :
    IdlePassed s a (setRun s a { arbRun s a with idle := k }) where
  clk := rfl
  quiet := rfl
  regs _ _ := rfl
  unparked h := nomatch hc.symm.trans h
  base := arbBase_setRun (fun e => nomatch hc.symm.trans (congrArg ArbRun.current e : (arbRun s a).current = none)) rfl

/-- A current transfer parked. -/
theorem idlePassed_parkNow {s : State} {a : Arb} {c : ArbTx} (hc : (arbRun s a).current = some c) :
    IdlePassed s a (parkNow s a (arbRun s a) c) where
  clk := rfl
  quiet := rfl
  regs := setFld_regsOutside _ _ _ (List.mem_singleton_self _)
  unparked h := nomatch hc.symm.trans h
  base := arbBase_setRun (fun e => List.append_ne_nil_of_right_ne_nil _ (List.cons_ne_nil c []) (congrArg ArbRun.parked e)) rfl

theorem arbPass_idlePassed {s : State} {a : Arb} (h : (arbRun s a).lock = none) (k : Nat) : IdlePassed s a (arbPass s a k) := by
  rw [arbPass, h]
  dsimp only
  split
  · exact .refl s a
  next c hc =>
    split
    · exact idlePassed_parkNow hc
    · exact idlePassed_setRun hc _

/-- No register of an arbiter's pace is its count of parked transfers. -/
theorem arbPeriod_of_regsOutside {s t : State} {a : Arb} (h : RegsOutside [Reg.arbStat1 a] s t) : arbPeriod t a = arbPeriod s a := by
  cases a with
  | lp n =>
    have hstate : rd t (Reg.lpState n) = rd s (Reg.lpState n) :=
      h _ (by simp only [List.mem_singleton, Reg.lpState, Reg.arbStat1, Arb.base, Arb.blk]; omega)
    rw [arbPeriod, halfWide, fld, hstate]
    rfl
  | _ => rfl

theorem IdlePassed.arbCycleAt {s t : State} {a : Arb} (h : IdlePassed s a t) (n : Nat) : arbCycleAt t a n = arbCycleAt s a n := by
  simp only [Machine.arbCycleAt, h.base, arbPeriod_of_regsOutside h.regs]

/-- An arbiter without a locked sequence carried to a cycle of its own: time has moved on, and the current transfer may have been parked. -/
theorem arbTo_unlocked {s : State} {a : Arb} (hq : quiet s = true) (hlock : (arbRun s a).lock = none) (n : Nat) :
    (arbTo s a n).clk.now = max s.clk.now (arbCycleAt s a n) ∧ RegsOutside [Reg.arbStat1 a] s (arbTo s a n) ∧
      ((arbRun s a).current = none → (arbTo s a n).regs = s.regs) := by
  have hpass : IdlePassed s a (if (arbRun s a).n < n then arbPass s a (n - (arbRun s a).n) else s) := by
    split
    · exact arbPass_idlePassed hlock _
    · exact .refl s a
  rw [arbTo]
  generalize (if (arbRun s a).n < n then arbPass s a (n - (arbRun s a).n) else s) = t at hpass
  dsimp only
  rw [advanceTo_quiet _ (hpass.quiet.trans hq), hpass.arbCycleAt]
  exact ⟨by rw [← hpass.clk]; rfl, hpass.regs, fun hc => by rw [hpass.unparked hc]; rfl⟩

theorem wf_arbTo {s : State} (h : s.wf = true) (a : Arb) (n : Nat) : (arbTo s a n).wf = true :=
  (arbTo_keeps (w := [.arb, .clk, .dyn, .free, .host, .lane, .log, .obs, .regs, .rel, .rte, .trig]) (by decide) (by decide) (by decide) (by decide)
    (by decide) (by decide) (by decide) (by decide) (by decide) (by decide) (by decide) (by decide) (.refl _ s)).wf h

/-! ### An arbiter's cycles and the global clock (R148) -/

theorem le_ceilDiv_mul {d : Nat} (h : 0 < d) (n : Nat) : n ≤ ceilDiv n d * d := by
  have hlt := Nat.lt_div_mul_add (a := n + d - 1) h
  rw [ceilDiv]
  omega

theorem le_ceilDiv {d k n : Nat} (h : 0 < d) (hk : k * d ≤ n) : k ≤ ceilDiv n d :=
  (Nat.le_div_iff_mul_le h).mpr (by omega)

/-- An arbiter's cycles have a length. -/
theorem arbPeriod_pos (s : State) (a : Arb) : 0 < (arbPeriod s a).1 ∧ 0 < (arbPeriod s a).2 := by
  cases a with
  | lp n => rw [arbPeriod]; split <;> decide
  | _ => exact ⟨Nat.succ_pos _, Nat.succ_pos _⟩

/-- An arbiter cycle at or after the first one that begins at or after a global cycle does not begin before that one. -/
theorem le_arbCycleAt {s : State} {a : Arb} {g n : Nat} (h : arbFrom s a g ≤ n) : g ≤ arbCycleAt s a n := by
  obtain ⟨h1, h2⟩ := arbPeriod_pos s a
  rw [arbFrom] at h
  rw [arbCycleAt]
  generalize (arbBase s a).1 = g0 at h ⊢
  generalize (arbBase s a).2 = n0 at h ⊢
  generalize (arbPeriod s a).1 = p at h h1 ⊢
  generalize (arbPeriod s a).2 = q at h h2 ⊢
  have hcycles : (g - g0) * (4 * q) ≤ (n - n0) * 9 * p := calc
    (g - g0) * (4 * q) = (g - g0) * 4 * q := (Nat.mul_assoc _ _ _).symm
    _ ≤ ceilDiv ((g - g0) * 4 * q) (9 * p) * (9 * p) := le_ceilDiv_mul (by omega) _
    _ ≤ (n - n0) * (9 * p) := Nat.mul_le_mul_right _ (by omega)
    _ = (n - n0) * 9 * p := (Nat.mul_assoc _ _ _).symm
  have hle := le_ceilDiv (by omega : 0 < 4 * q) hcycles
  omega

section FabricClock

variable {a : Arb} (h : fabClocked a = true)
include h

/-- The cycles of an arbiter clocked by the fabric are counted from the start, and last a fabric cycle each. -/
theorem arbBase_of_fabClocked (s : State) : arbBase s a = (0, 0) := if_pos h

theorem arbPeriod_of_fabClocked (s : State) : arbPeriod s a = (4, 9) := by
  cases a with
  | lp => cases h
  | hp => cases h
  | _ => rfl

theorem arbNow_of_fabClocked (s : State) : arbNow s a = s.clk.now := by
  rw [arbNow, arbBase_of_fabClocked h, arbPeriod_of_fabClocked h]
  dsimp only
  omega

theorem arbCycleAt_of_fabClocked (s : State) (n : Nat) : arbCycleAt s a n = n := by
  rw [arbCycleAt, arbBase_of_fabClocked h, arbPeriod_of_fabClocked h, ceilDiv]
  dsimp only
  omega

end FabricClock

/-! ### Switches (R171, R178) -/

/-- The arbiter cycle of a pending switch: the first multiple of 1,024 that is neither past nor before TIME. -/
def switchCycle (s : State) (a : Arb) : Nat :=
  ceilDiv (max (arbFrom s a (cycleAt (fld s (Reg.arbArm a) ArbArm.TIME))) (max (arbRun s a).n (arbNow s a))) 1024 * 1024

theorem max_le_switchCycle (s : State) (a : Arb) :
    max (arbFrom s a (cycleAt (fld s (Reg.arbArm a) ArbArm.TIME))) (max (arbRun s a).n (arbNow s a)) ≤ switchCycle s a :=
  le_ceilDiv_mul (by decide) _

theorem exec_slotTableSwitch {a : Arb} {s : State} (h : flag s (Reg.arbCtl a) ArbCtl.ARMED = true) : exec (.slotTableSwitch a) s =
    .next (bankSwitched (arbTo s a (switchCycle s a)) (Reg.arbArm a) (Reg.arbCtl a)) := by
  change execSlotTableSwitch a s = _
  rw [execSlotTableSwitch, h, if_neg (by decide)]
  rfl

theorem exec_gateTakeover {b : Blk} {s : State} (hq : quiet s = true) (h : flag s (Reg.gateCtl b) GateCtl.ARMED = true) :
    exec (.gateTakeover b) s =
      .next (setGate (bankSwitched (later s (cycleAt (fld s (Reg.gateArm b) GateArm.TIME))) (Reg.gateArm b) (Reg.gateCtl b)) b
        { gateRun s b with entry := 0, since := fld s (Reg.gateArm b) GateArm.TIME }) := by
  change execGateTakeover b s = _
  rw [execGateTakeover, h, if_neg (by decide)]
  dsimp only
  rw [advanceTo_quiet _ hq]
  rfl

theorem exec_gateEntryAdvance {b : Blk} {s : State} (hq : quiet s = true) (h : gateFree s b = false) : exec (.gateEntryAdvance b) s =
    .next (setGate (later s (cycleAt ((gateRun s b).since + gateDur s b (gateRun s b).entry))) b
      { gateRun s b with entry := gateNext s b (gateRun s b).entry,
                         since := (gateRun s b).since + gateDur s b (gateRun s b).entry }) := by
  change execGateEntryAdvance b s = _
  rw [execGateEntryAdvance, h, if_neg (by decide)]
  dsimp only
  rw [advanceTo_quiet _ hq]
  rfl

/-- The switch of a slot table: when it happens, what it writes, and what is parked before it. -/
theorem slotTableSwitch_spec {a : Arb} {s : State} (h : s.wf = true) (hq : quiet s = true) (hlock : (arbRun s a).lock = none) :
    let u := bankSwitched (arbTo s a (switchCycle s a)) (Reg.arbArm a) (Reg.arbCtl a)
    RegsOutside [Reg.arbArm a, Reg.arbCtl a, Reg.arbStat1 a] s u ∧
    ((arbRun s a).current = none → rd u (Reg.arbStat1 a) = rd s (Reg.arbStat1 a)) ∧
    fld u (Reg.arbCtl a) ArbCtl.BANK = 1 - fld s (Reg.arbCtl a) ArbCtl.BANK ∧ flag u (Reg.arbCtl a) ArbCtl.ARMED = false ∧
    fld u (Reg.arbArm a) ArbArm.TIME = 0 ∧ u.clk.now = max s.clk.now (arbCycleAt s a (switchCycle s a)) := by
  intro u
  have hwf := wf_arbTo h a (switchCycle s a)
  obtain ⟨hclk, hregs, hnone⟩ := arbTo_unlocked hq hlock (switchCycle s a)
  have hswitch := bankSwitched_regsOutside (arbTo s a (switchCycle s a)) (Reg.arbArm a) (Reg.arbCtl a)
  have hstat : Reg.arbStat1 a ∉ [Reg.arbArm a, Reg.arbCtl a] := by simp [Reg.arbStat1, Reg.arbArm, Reg.arbCtl]
  have hctl : Reg.arbCtl a ∉ [Reg.arbStat1 a] := by simp [Reg.arbStat1, Reg.arbCtl]
  refine ⟨(hregs.mono (by simp)).trans (hswitch.mono (by simp)), fun hc => (hswitch _ hstat).trans (rd_of_regs_eq (hnone hc) _), ?_,
    flag_bankSwitched_armed hwf (arbArm_ne_arbCtl a), fld_bankSwitched_time hwf _ _, hclk⟩
  rw [fld_bankSwitched_bank hwf (arbArm_ne_arbCtl a), fld, hregs _ hctl, ← fld]

/-! ### Shapers (R173, R174) -/

theorem setTokens_regsOutside (s : State) (a : Arb) (r : Nat) (v : Int) : RegsOutside [Reg.arbRstat a r] s (setTokens s a r v) :=
  fun _ hc => rd_setFld_ne _ _ _ fun e => hc (e ▸ List.mem_singleton_self _)

/-- A canonical table shows the tokens written, beyond the 16 bits of the register too. -/
theorem rTokens_setTokens {s : State} (h : tWf (fun _ => (0 : Int)) s.arb.tokens = true) (a : Arb) (r : Nat) (v : Int) :
    rTokens (setTokens s a r v) a r = v := eGet_eSet_same 0 _ v s.arb.tokens h

theorem rCredit_setTokens {s : State} (h : s.wf = true) (a : Arb) (r : Nat) (v : Int) : rCredit (setTokens s a r v) a r = rCredit s a r :=
  fld_setFld_apart (s := { s with arb := { s.arb with tokens := eSet 0 (Reg.arbRstat a r) v s.arb.tokens } }) h _ _ (by decide) (by decide)
    (by decide)

/-- A shaper's interval and refill time noted, as of the present cycle (R174). -/
def refillNoted (s : State) (a : Arb) (r at_ iv : Nat) : State :=
  { s with arb := { s.arb with shapes := eSet 0 (Reg.arbShape a r) ((max at_ (timeNs s) / iv + 1) * iv) s.arb.shapes } }

theorem exec_shaperRefill {a : Arb} {r : Nat} {s : State} (hq : quiet s = true) (hr : r < 64) : exec (.shaperRefill a r) s =
    .next (setTokens (refillNoted (later s (cycleAt (shapeNext s a r))) a r (shapeNext s a r) (shapeInterval s a r)) a r
      (min (fld s (Reg.arbShape a r) ArbShape.BURST : Int) (rTokens s a r +
        ((1 + (timeNs s / shapeInterval s a r - shapeNext s a r / shapeInterval s a r)) * fld s (Reg.arbShape a r) ArbShape.RATE : Nat)))) := by
  change execShaperRefill a r s = _
  rw [execShaperRefill, if_neg (Nat.not_le.mpr hr)]
  dsimp only
  rw [advanceTo_quiet _ hq]
  rfl

/-- The word that a plain write leaves. -/
def writtenWord (s : State) (off v : Nat) : Word :=
  accessWrite (rd s off) (BitVec.ofNat 64 v) (fieldsAt off) ||| onlyBits .w1c (rd s off &&& BitVec.ofNat 64 (noteOf s off).up) (fieldsAt off)

/-- A plain write writes its own register alone. -/
theorem softWrite_regs (s : State) (off v : Nat) : (softWrite s off v).regs = (wrReg s off (writtenWord s off v)).regs := by
  rw [softWrite]
  dsimp only
  split <;> rfl

theorem softWrite_regsOutside (s : State) (off v : Nat) : RegsOutside [off] s (softWrite s off v) := fun c hc =>
  (rd_of_regs_eq (softWrite_regs s off v) c).trans (wrReg_regsOutside s off _ c hc)

/-- A write turns a shaper on that was off. -/
abbrev turnsOn (s : State) (c v : Nat) : Bool := ! flag s c ArbShape.EN && flag (softWrite s c v) c ArbShape.EN

/-- SHAPER_ENABLE is the plain write, with the tokens set to BURST when it turns the shaper on (R174). -/
theorem exec_shaperEnable {a : Arb} {r : Nat} (hr : r < 64) (v : Nat) (s : State) : exec (.shaperEnable a r v) s =
    let w := softWrite s (Reg.arbShape a r) v
    .next (if turnsOn s (Reg.arbShape a r) v then setTokens w a r (fld w (Reg.arbShape a r) ArbShape.BURST : Int) else w) := by
  change execShaperEnable a r v s = _
  rw [execShaperEnable, if_neg (Nat.not_le.mpr hr)]

theorem arbShape_ne_arbRstat (a : Arb) (r : Nat) : Reg.arbShape a r ≠ Reg.arbRstat a r := by
  simp only [Reg.arbShape, Reg.arbRstat]; omega

/-- A write of ARB_SHAPE: the register is written plainly, and the tokens follow it only when it turns the shaper on. -/
theorem shaperEnable_spec {a : Arb} {r v : Nat} {s : State} (htok : tWf (fun _ => (0 : Int)) s.arb.tokens = true) :
    let c := Reg.arbShape a r
    let w := softWrite s c v
    let u := if turnsOn s c v then setTokens w a r (fld w c ArbShape.BURST : Int) else w
    RegsOutside [c, Reg.arbRstat a r] s u ∧ rd u c = rd w c ∧
      rTokens u a r = if ! flag s c ArbShape.EN && flag u c ArbShape.EN then (fld u c ArbShape.BURST : Int) else rTokens s a r := by
  intro c w u
  have hw : RegsOutside [c, Reg.arbRstat a r] s w := (softWrite_regsOutside s c v).mono (by simp)
  have harb : w.arb = s.arb := softWrite_arb s c v
  have hset := setTokens_regsOutside w a r (fld w c ArbShape.BURST : Int)
  have hrd : rd u c = rd w c := by
    dsimp only [u]
    split
    · exact hset c (by simpa using arbShape_ne_arbRstat a r)
    · rfl
  refine ⟨?_, hrd, ?_⟩
  · dsimp only [u]
    split
    · exact hw.trans (hset.mono (by simp))
    · exact hw
  · have hon : (! flag s c ArbShape.EN && flag u c ArbShape.EN) = turnsOn s c v := by simp only [flag, fld, hrd, turnsOn, w]
    rw [hon, fld, hrd, ← fld]
    dsimp only [u]
    split
    · exact rTokens_setTokens (by rw [harb]; exact htok) a r _
    · rw [rTokens, harb, ← rTokens]

/-- Settles O25: each command is one equation, and what it leaves in the registers and in the clock is read off that equation. -/
theorem switchesShapersAndGates : Obligations.SwitchesShapersAndGates := by
  refine ⟨fun a time s h ht => ?arm, fun a s h => ?disarm, fun a s h hc => ?check, fun a s h hq harmed hlock => ?tableSwitch,
    fun a r s h hq htok hr => ?refill, fun a r v s _ htok hr => ?enable, fun b time s h ht => ?gateArm, fun b s h => ?gateDisarm,
    fun b s h hc => ?gateCheck, fun b s h hq harmed => ?takeover, fun b s hq hfree => ?advance⟩
  case arm =>
    refine ⟨_, exec_arbArm ht a s, ?_⟩
    rw [regsOutside_setRun, rd_setRun, setRun_arb, setFld_arb]
    exact ⟨setFld_regsOutside s _ _ (List.mem_singleton_self _), rd_setFld_same s _ _ _ h, rfl⟩
  case disarm =>
    have hne := arbArm_ne_arbCtl a
    refine ⟨_, exec_arbDisarm a s, ?_⟩
    rw [regsOutside_setRun, rd_setRun, rd_setRun, setRun_arb, switchDropped_arb]
    exact ⟨switchDropped_regsOutside s _ _, rd_switchDropped_arm h hne, rd_switchDropped_ctl h hne, rfl⟩
  case check =>
    have hne := arbArm_ne_arbCtl a
    refine ⟨_, exec_arbArmCheckDone hc, ?_⟩
    rw [regsOutside_setRun, fld_setRun, flag_setRun, fld_setRun]
    exact ⟨switchChecked_regsOutside s _ _ _, fld_switchChecked_armerr h hne (arbCheck_lt s a), flag_switchChecked_armed h hne _,
      fld_switchChecked_time h hne _⟩
  case tableSwitch =>
    obtain ⟨hregs, hstat, hbank, harm, htime, hclk⟩ := slotTableSwitch_spec h hq hlock
    have hmax := max_le_switchCycle s a
    refine ⟨_, exec_slotTableSwitch harmed, hregs, hstat, hbank, harm, htime, ?_, fun hf => ?_⟩
    · rw [hclk]
      exact (le_arbCycleAt ((Nat.le_max_left _ _).trans hmax)).trans (Nat.le_max_right _ _)
    · rw [arbNow_of_fabClocked hf] at hmax
      rw [hclk, arbCycleAt_of_fabClocked hf, Nat.max_eq_right (by omega)]
      exact Nat.mul_mod_left _ _
  case refill =>
    exact ⟨_, exec_shaperRefill hq hr, setTokens_regsOutside _ a r _, rfl, rTokens_setTokens htok a r _, rCredit_setTokens h a r _⟩
  case enable => exact ⟨_, exec_shaperEnable hr v s, shaperEnable_spec htok⟩
  case gateArm =>
    refine ⟨_, exec_gateArm ht b s, ?_⟩
    rw [regsOutside_setGate, rd_setGate, setGate_arb, setFld_arb]
    exact ⟨setFld_regsOutside s _ _ (List.mem_singleton_self _), rd_setFld_same s _ _ _ h, rfl⟩
  case gateDisarm =>
    have hne := gateArm_ne_gateCtl b
    refine ⟨_, exec_gateDisarm b s, ?_⟩
    rw [regsOutside_setGate, rd_setGate, rd_setGate, setGate_arb, switchDropped_arb]
    exact ⟨switchDropped_regsOutside s _ _, rd_switchDropped_arm h hne, rd_switchDropped_ctl h hne, rfl⟩
  case gateCheck =>
    have hne := gateArm_ne_gateCtl b
    intro late
    have hlt : b2n late < 2 ^ fldWidth ArbCtl.ARMERR := by cases late <;> decide
    refine ⟨_, exec_gateArmCheckDone hc, ?_⟩
    rw [regsOutside_setGate, fld_setGate, flag_setGate, fld_setGate]
    refine ⟨switchChecked_regsOutside s _ _ _, fld_switchChecked_armerr h hne hlt, (flag_switchChecked_armed h hne _).trans ?_,
      (fld_switchChecked_time h hne _).trans ?_⟩
    · change (b2n late == 0) = ! late
      cases late <;> rfl
    · change (if b2n late = 0 then _ else 0) = if late then 0 else _
      cases late <;> rfl
  case takeover =>
    have hl : (later s (cycleAt (fld s (Reg.gateArm b) GateArm.TIME))).wf = true := h
    have hne := gateArm_ne_gateCtl b
    refine ⟨_, exec_gateTakeover hq harmed, ?_⟩
    rw [regsOutside_setGate, setGate_clk, fld_setGate, flag_setGate, fld_setGate, setGate_arb, bankSwitched_clk, bankSwitched_arb]
    exact ⟨bankSwitched_regsOutside _ _ _, rfl, fld_bankSwitched_bank hl hne, flag_bankSwitched_armed hl hne, fld_bankSwitched_time hl _ _, rfl⟩
  case advance => exact ⟨_, exec_gateEntryAdvance hq hfree, rfl, rfl, rfl⟩

/-! ### The policy loop's write of the starvation flags (R17, R164) -/

/-- SRAM port 31 of tile 0, of which there are four: what would be its ARB_STARVE is a ring register of the tile's channel table. -/
def portOverChannels : Arb := .sp 0 31

theorem arbStarve_portOverChannels : Reg.arbStarve portOverChannels = Reg.tniChRing 0 176 := rfl

/-- Bit 0 of that ring register is set. -/
def ringBitSet : State := wrReg State.reset (Reg.arbStarve portOverChannels) 1

theorem ringBitSet_premises : ringBitSet.wf = true ∧ starving ringBitSet portOverChannels 0 = true ∧
    (memo ringBitSet portOverChannels 0).pinned = false ∧ bit (noteOf ringBitSet (Reg.arbStarve portOverChannels)).up 0 = false := by
  decide +kernel

/-- RBASE of a channel's ring is RW: a 1 written to it stays. -/
theorem starving_ringBitSet_policy :
    starving (after (exec (.starvationPolicy portOverChannels 0) ringBitSet) ringBitSet) portOverChannels 0 = true := by
  decide +kernel

/-- Refutes O24: the statement ranges over every `Arb`, also over one that does not exist (`arbOk`). What would be the ARB_STARVE of
`portOverChannels` (`arbStarve_portOverChannels`) holds RW fields, so the policy loop's write of a 1 leaves its bit set, where the statement says
that the flag is clear. At an arbiter that exists the register is W1C and that write clears the flag: `starving_softWrite`. -/
theorem not_arbitersDecide : ¬ Obligations.ArbitersDecide := by
  intro h
  obtain ⟨-, -, -, -, -, -, hpolicy, -⟩ := h
  obtain ⟨hwf, hflag, hpinned, hup⟩ := ringBitSet_premises
  obtain ⟨u, hu, hclear, -⟩ := hpolicy portOverChannels 0 ringBitSet hwf rfl (by decide) hflag hpinned hup
  have hset := starving_ringBitSet_policy
  rw [hu] at hset
  exact absurd (hclear.symm.trans hset) Bool.false_ne_true

theorem getF_full (w : Word) : getF w ArbStarve.FLAG = w.toNat := by
  simp only [getF, bits, ArbStarve.FLAG, Nat.pow_zero, Nat.div_one]
  exact Nat.mod_eq_of_lt w.isLt

theorem setF_full (w : Word) (v : Nat) : setF w ArbStarve.FLAG v = BitVec.ofNat 64 v := by
  apply BitVec.eq_of_toNat_eq
  rw [← getF_full (setF w ArbStarve.FLAG v), getF_setF_same (by decide) (by decide), BitVec.toNat_ofNat]
  rfl

/-- ARB_STARVE of an arbiter that exists is one W1C field (R169). -/
theorem fieldsAt_arbStarve {a : Arb} (ha : arbOk a = true) : fieldsAt (Reg.arbStarve a) = [⟨ArbStarve.FLAG, .w1c, 0⟩] := by
  rw [fieldsAt, regAt_arb a 0x1608 (Reg.arbStarve a) ha rfl (by decide)]
  rfl

/-- A write of ARB_STARVE clears the flags written 1, but for those set in the same cycle. -/
theorem rd_softWrite_arbStarve {a : Arb} (ha : arbOk a = true) {s : State} (h : s.wf = true) (v : Nat) :
    rd (softWrite s (Reg.arbStarve a) v) (Reg.arbStarve a) = (rd s (Reg.arbStarve a) &&& ~~~ BitVec.ofNat 64 v) |||
      (rd s (Reg.arbStarve a) &&& BitVec.ofNat 64 (noteOf s (Reg.arbStarve a)).up) := by
  rw [rd_of_regs_eq (softWrite_regs s _ v), rd_wrReg_same h, writtenWord, fieldsAt_arbStarve ha]
  simp only [accessWrite, onlyBits, if_true, setF_full, getF_full, BitVec.ofNat_toNat, BitVec.setWidth_eq]

/-- At an arbiter that exists the write of a requester's flag clears it, unless it was set in the same cycle. -/
theorem starving_softWrite {a : Arb} (ha : arbOk a = true) {r : Nat} {s : State} (h : s.wf = true) (hr : r < 64)
    (hup : bit (noteOf s (Reg.arbStarve a)).up r = false) : starving (softWrite s (Reg.arbStarve a) (2 ^ r)) a r = false := by
  have hbit (n : Nat) : bit n r = n.testBit r := Nat.testBit_eq_decide_div_mod_eq.symm
  rw [hbit] at hup
  rw [starving, rd_softWrite_arbStarve ha h, hbit, BitVec.testBit_toNat, BitVec.getLsbD_or, BitVec.getLsbD_and, BitVec.getLsbD_and,
    BitVec.getLsbD_not, BitVec.getLsbD_ofNat, BitVec.getLsbD_ofNat, Nat.testBit_two_pow_self, hup]
  simp [hr]

end Sys2Proof.Machine

namespace Sys2Proof.Machine

/-! ### Registers of a reduction context (R221-R223, R254) -/

theorem redCtxA_ne_redCtxS (t c u d : Nat) : Reg.redCtxA t c ≠ Reg.redCtxS u d := by
  simp only [Reg.redCtxA, Reg.redCtxS, Blk.base]; omega

theorem redCtxA_ne_redCstat (t c u d : Nat) : Reg.redCtxA t c ≠ Reg.redCstat u d := by
  simp only [Reg.redCtxA, Reg.redCstat, Blk.base]; omega

theorem redCtxB_ne_redCtxS (t c u d : Nat) : Reg.redCtxB t c ≠ Reg.redCtxS u d := by
  simp only [Reg.redCtxB, Reg.redCtxS, Blk.base]; omega

theorem redCtxS_ne_redCstat (t c u d : Nat) : Reg.redCtxS t c ≠ Reg.redCstat u d := by
  simp only [Reg.redCtxS, Reg.redCstat, Blk.base]; omega

/-- The format counters of a unit lie behind the registers of its sixteen contexts. -/
theorem redCtxS_ne_telRuFmt {c : Nat} (hc : c < 16) (tile t : Nat) : Reg.redCtxS tile c ≠ Reg.telRuFmt tile t := by
  simp only [Reg.redCtxS, Reg.telRuFmt]; omega

theorem findReg_redCtxA {c : Nat} (hc : c < 16) : findReg (0x1500 + c * 32) rtrRegs = some (redCtxADef, c) := by
  have hbefore : ∀ d ∈ rtrRegs.take 15, 0 < d.stride ∧ d.off + (d.first + d.count) * d.stride ≤ 0x1500 := by decide
  have hend := findReg_append (o := 0x1500 + c * 32) (fun d hd => ⟨(hbefore d hd).1, (hbefore d hd).2.trans (Nat.le_add_right _ _)⟩)
    (rtrRegs.drop 15)
  exact hend.trans (findReg_cons (by simp only [redCtxADef]; omega) (by simp only [redCtxADef]; omega) _)

theorem fieldsAt_redCtxA {tile c : Nat} (ht : tile < 64) (hc : c < 16) : fieldsAt (Reg.redCtxA tile c) = redCtxADef.fields := by
  have hx : Reg.redCtxA tile c = 0x1000000 + tile * 0x40000 + (0x1500 + c * 32) := by
    simp only [Reg.redCtxA, Blk.base]; omega
  rw [fieldsAt, regAt, blkOf_rtr tile _ _ hx ht (by omega)]
  dsimp only
  rw [if_neg (by simp; omega), findReg_redCtxA hc]
  rfl

/-- A plain write with bit 0 clear leaves EN clear. -/
theorem flag_softWrite_redCtxA_en {s : State} (h : s.wf = true) {tile c : Nat} (ht : tile < 64) (hc : c < 16) (v : Nat) :
    flag (softWrite s (Reg.redCtxA tile c) (putBits v 0 0 0)) (Reg.redCtxA tile c) RedCtxA.EN = false := by
  have hfields := fieldsAt_redCtxA ht hc
  have hrw : ∀ d ∈ fieldsAt (Reg.redCtxA tile c), d.acc ≠ .w1c ∧ d.acc ≠ .w1s := by rw [hfields]; decide
  have hen : (⟨RedCtxA.EN, .rw, 0⟩ : FieldDef) ∈ fieldsAt (Reg.redCtxA tile c) := by rw [hfields]; decide
  have hbit : getF (BitVec.ofNat 64 (putBits v 0 0 0)) RedCtxA.EN = 0 := by
    simp only [getF, bits, putBits, RedCtxA.EN, BitVec.toNat_ofNat]; omega
  rw [softWrite_eq_wrReg (fun d hd => (hrw d hd).1) (fun d hd => (hrw d hd).2), flag, fld, rd_wrReg_same h, accessWrite_eq_placed,
    getF_placed (fieldsSound_fieldsAt _) hen]
  change (getF (BitVec.ofNat 64 (putBits v 0 0 0)) RedCtxA.EN % _ == 1) = false
  rw [hbit]
  rfl

@[simp] theorem rd_setRed (s : State) (x : Ctx) (r : RedRun) (a : Nat) : rd (setRed s x r) a = rd s a := rfl

@[simp] theorem fld_setRed (s : State) (x : Ctx) (r : RedRun) (a : Nat) (f : Fld) : fld (setRed s x r) a f = fld s a f := rfl

@[simp] theorem flag_setRed (s : State) (x : Ctx) (r : RedRun) (a : Nat) (f : Fld) : flag (setRed s x r) a f = flag s a f := rfl

@[simp] theorem ctxState_setRed (s : State) (x y : Ctx) (r : RedRun) : ctxState (setRed s x r) y = ctxState s y := rfl

theorem ctxState_of_rd {s u : State} {x : Ctx} (h : rd u (ctxS x) = rd s (ctxS x)) : ctxState u x = ctxState s x :=
  congrArg (getF · RedCtxS.STATE) h

/-- Another field of the status register leaves STATE. -/
theorem ctxState_setFld_apart {s : State} (h : s.wf = true) (x : Ctx) {f : Fld} (v : Nat) (hf : f.lo ≤ f.hi ∧ f.hi < 64)
    (ha : Apart f RedCtxS.STATE) : ctxState (setFld s (ctxS x) f v) x = ctxState s x :=
  fld_setFld_apart h _ v hf (by decide) ha

/-! ### Enabling (R220, R224) -/

/-- CTXB and CTXA written, EN still 0. -/
def ctxWritten (s : State) (tile c a b : Nat) : State := softWrite (softWrite s (Reg.redCtxB tile c) b) (Reg.redCtxA tile c) (putBits a 0 0 0)

/-- A context set running: EN, its lines, STATE 1, no counts, and no operation. -/
def ctxStarted (s : State) (x : Ctx) (grp : Option (Nat × Nat × Nat)) : State :=
  setRed (wrReg (wrReg (setFld s (Reg.redCtxA x.tile x.c) RedCtxA.EN 1) (ctxS x) (setF (setF 0 RedCtxS.LINES x.lines) RedCtxS.STATE 1))
    (Reg.redCstat x.tile x.c) 0) x { grp := grp }

theorem ctxWritten_regsOutside (s : State) (tile c a b : Nat) : RegsOutside [Reg.redCtxA tile c, Reg.redCtxB tile c] s (ctxWritten s tile c a b) :=
  ((softWrite_regsOutside s _ b).mono (by simp)).trans ((softWrite_regsOutside _ _ _).mono (by simp))

theorem rd_ctxWritten_redCtxS (s : State) (tile c a b t d : Nat) : rd (ctxWritten s tile c a b) (Reg.redCtxS t d) = rd s (Reg.redCtxS t d) :=
  ctxWritten_regsOutside s tile c a b _ (by simp [(redCtxA_ne_redCtxS tile c t d).symm, (redCtxB_ne_redCtxS tile c t d).symm])

@[simp] theorem ctxWritten_red (s : State) (tile c a b : Nat) : (ctxWritten s tile c a b).red = s.red := by
  simp only [ctxWritten, softWrite_red]

theorem wf_ctxWritten {s : State} (h : s.wf = true) (tile c a b : Nat) : (ctxWritten s tile c a b).wf = true :=
  (softWrite_keeps (List.mem_singleton_self _) (softWrite_keeps (List.mem_singleton_self _) (.refl [.regs] s))).wf h

/-- Whether an enable is refused rests on the configuration and on the lines the other contexts hold. -/
theorem enableBad_of_redCtxS {s u : State} {x : Ctx} (h : ∀ c, rd u (Reg.redCtxS x.tile c) = rd s (Reg.redCtxS x.tile c)) :
    enableBad u x = enableBad s x := by
  have hused : linesUsed u x = linesUsed s x := by simp only [linesUsed, fld, h]
  rw [enableBad, enableBad, hused]

/-- An enable of a disabled context writes its configuration, and sets the context running or CFGERR. -/
theorem exec_redCtxEnable {s : State} {x : Ctx} {a b : Nat} (hx : ctxOf x.tile x.c a b = x) (ht : x.tile < 64) (hc : x.c < 16)
    (h0 : ctxState s x = 0) : exec (.redCtxEnable x.tile x.c a b) s = .next (
      let w := ctxWritten s x.tile x.c a b
      if enableBad s x then setFld w (ctxS x) RedCtxS.CFGERR 1 else ctxStarted w x none) := by
  change execRedCtxEnable x.tile x.c a b s = _
  rw [execRedCtxEnable, ← enableBad_of_redCtxS (rd_ctxWritten_redCtxS s x.tile x.c a b _), ctxEnable, hx, if_neg (by simp [h0]; omega)]
  rfl

section Started

variable {s : State} (h : s.wf = true) (x : Ctx) (grp : Option (Nat × Nat × Nat))

theorem ctxStarted_regsOutside : RegsOutside [Reg.redCtxA x.tile x.c, ctxS x, Reg.redCstat x.tile x.c] s (ctxStarted s x grp) := by
  intro a ha
  simp only [List.mem_cons, List.not_mem_nil, or_false, not_or] at ha
  obtain ⟨hconf, hstatus, hcounts⟩ := ha
  rw [ctxStarted, rd_setRed, rd_wrReg_ne _ _ hcounts, rd_wrReg_ne _ _ hstatus, rd_setFld_ne _ _ _ hconf]

theorem ctxStarted_red : (ctxStarted s x grp).red = eSet {} (x.tile * 16 + x.c) { grp := grp } s.red := rfl

include h

theorem rd_ctxStarted_redCtxS : rd (ctxStarted s x grp) (ctxS x) = setF (setF 0 RedCtxS.LINES x.lines) RedCtxS.STATE 1 := by
  have hne : ctxS x ≠ Reg.redCstat x.tile x.c := redCtxS_ne_redCstat _ _ _ _
  rw [ctxStarted, rd_setRed, rd_wrReg_ne _ _ hne, rd_wrReg_same (setFld_wf h)]

theorem flag_ctxStarted_en : flag (ctxStarted s x grp) (Reg.redCtxA x.tile x.c) RedCtxA.EN = true := by
  have hne : Reg.redCtxA x.tile x.c ≠ ctxS x := redCtxA_ne_redCtxS _ _ _ _
  rw [flag, fld, ctxStarted, rd_setRed, rd_wrReg_ne _ _ (redCtxA_ne_redCstat _ _ _ _), rd_wrReg_ne _ _ hne, ← fld,
    fld_setFld_same _ _ _ h (by decide) (by decide)]
  rfl

theorem rd_ctxStarted_redCstat : rd (ctxStarted s x grp) (Reg.redCstat x.tile x.c) = 0 := by
  rw [ctxStarted, rd_setRed, rd_wrReg_same (wf_wrReg (setFld_wf h) _ _)]

theorem ctxState_ctxStarted : ctxState (ctxStarted s x grp) x = 1 := by
  rw [ctxState, fld, rd_ctxStarted_redCtxS h, getF_setF_same (by decide) (by decide)]
  rfl

theorem fld_ctxStarted_lines : fld (ctxStarted s x grp) (ctxS x) RedCtxS.LINES = x.lines % 2 ^ fldWidth RedCtxS.LINES := by
  rw [fld, rd_ctxStarted_redCtxS h, getF_setF_apart (by decide) (by decide) (by decide), getF_setF_same (by decide) (by decide)]

end Started

/-- What an enabling write of a disabled context leaves (R220, R224). -/
theorem redCtxEnable_spec {s : State} (h : s.wf = true) {x : Ctx} {a b : Nat} (hx : ctxOf x.tile x.c a b = x) (ht : x.tile < 64) (hc : x.c < 16)
    (h0 : ctxState s x = 0) : ∃ u, exec (.redCtxEnable x.tile x.c a b) s = .next u ∧
    (enableBad s x = false → ctxState u x = 1 ∧ fld u (ctxS x) RedCtxS.LINES = x.lines % 2 ^ fldWidth RedCtxS.LINES ∧
      flag u (Reg.redCtxA x.tile x.c) RedCtxA.EN = true ∧ rd u (Reg.redCstat x.tile x.c) = 0 ∧ u.red = eSet {} (x.tile * 16 + x.c) {} s.red ∧
      RegsOutside [Reg.redCtxA x.tile x.c, Reg.redCtxB x.tile x.c, ctxS x, Reg.redCstat x.tile x.c] s u) ∧
    (enableBad s x = true → ctxState u x = 0 ∧ flag u (ctxS x) RedCtxS.CFGERR = true ∧ flag u (Reg.redCtxA x.tile x.c) RedCtxA.EN = false ∧
      u.red = s.red ∧ RegsOutside [Reg.redCtxA x.tile x.c, Reg.redCtxB x.tile x.c, ctxS x] s u) := by
  have hw := wf_ctxWritten h x.tile x.c a b
  have hout := ctxWritten_regsOutside s x.tile x.c a b
  have hstatus : rd (ctxWritten s x.tile x.c a b) (ctxS x) = rd s (ctxS x) := rd_ctxWritten_redCtxS s x.tile x.c a b x.tile x.c
  refine ⟨_, exec_redCtxEnable hx ht hc h0, fun hok => ?_, fun hbad => ?_⟩
  · dsimp only
    rw [if_neg (by rw [hok]; exact Bool.false_ne_true)]
    refine ⟨ctxState_ctxStarted hw x none, fld_ctxStarted_lines hw x none, flag_ctxStarted_en hw x none,
      rd_ctxStarted_redCstat hw x none, ?_, ?_⟩
    · rw [ctxStarted_red, ctxWritten_red]
    · exact (hout.mono (by simp)).trans ((ctxStarted_regsOutside x none).mono (by simp))
  · dsimp only
    rw [if_pos hbad]
    refine ⟨?_, ?_, ?_, ?_, ?_⟩
    · rw [ctxState_setFld_apart hw x 1 (by decide) (by decide), ctxState_of_rd hstatus, h0]
    · rw [flag, fld_setFld_same _ _ _ hw (by decide) (by decide)]
      rfl
    · have hne : Reg.redCtxA x.tile x.c ≠ ctxS x := redCtxA_ne_redCtxS _ _ _ _
      rw [flag, fld_setFld_ne _ _ _ _ hne]
      exact flag_softWrite_redCtxA_en ((softWrite_keeps (by decide) (.refl [.regs] s)).wf h) ht hc a
    · rw [setFld_red, ctxWritten_red]
    · exact (hout.mono (by simp)).trans (setFld_regsOutside _ _ _ (by simp))

/-! ### Disabling (R225) -/

/-- A disable first gives up what the context holds and what it was about to send, without a touch on any context's working state; then it
clears STATE, LINES and EN. -/
theorem ctxDisable_eq {tile c : Nat} (ht : tile < 64) (hc : c < 16) (s : State) (v : Nat) :
    ∃ d, Keeps [.dyn, .free, .lane, .obs, .regs, .rel] s d ∧ ctxDisable s tile c v =
      setRed (softWrite (setFld (setFld d (Reg.redCtxS tile c) RedCtxS.STATE 0) (Reg.redCtxS tile c) RedCtxS.LINES 0)
        (Reg.redCtxA tile c) (putBits v 0 0 0)) (ctxAt s tile c) {} := by
  refine ⟨_, ?_, by rw [ctxDisable, if_neg (by omega)]; rfl⟩
  exact dropWaiting_keeps (by decide) (by decide) ((Keeps.refl _ s).foldl fun u x hu =>
    ackTo_keeps (by decide) (by decide) (by decide) (by decide) (by decide) (by decide) hu)

/-- STATE and LINES cleared. -/
theorem fld_cleared {s : State} (h : s.wf = true) (a : Nat) :
    let t := setFld (setFld s a RedCtxS.STATE 0) a RedCtxS.LINES 0
    fld t a RedCtxS.STATE = 0 ∧ fld t a RedCtxS.LINES = 0 := by
  have hw := setFld_wf (a := a) (f := RedCtxS.STATE) (v := 0) h
  constructor
  · rw [fld_setFld_apart hw _ _ (by decide) (by decide) (by decide), fld_setFld_same _ _ _ h (by decide) (by decide)]
    rfl
  · rw [fld_setFld_same _ _ _ hw (by decide) (by decide)]
    rfl

theorem exec_redCtxDisable {tile c : Nat} (ht : tile < 64) (hc : c < 16) (v : Nat) {s : State} (h : s.wf = true) :
    ∃ u, exec (.redCtxDisable tile c v) s = .next u ∧ fld u (Reg.redCtxS tile c) RedCtxS.STATE = 0 ∧
      fld u (Reg.redCtxS tile c) RedCtxS.LINES = 0 ∧ flag u (Reg.redCtxA tile c) RedCtxA.EN = false ∧
      u.red = eSet {} (tile * 16 + c) {} s.red := by
  obtain ⟨d, hd, heq⟩ := ctxDisable_eq ht hc s v
  have hw := hd.wf h
  obtain ⟨hstate, hlines⟩ := fld_cleared hw (Reg.redCtxS tile c)
  have hother (t : State) (f : Fld) :
      fld (softWrite t (Reg.redCtxA tile c) (putBits v 0 0 0)) (Reg.redCtxS tile c) f = fld t (Reg.redCtxS tile c) f :=
    congrArg (getF · f) (softWrite_regsOutside t _ _ _ (by simp [(redCtxA_ne_redCtxS tile c tile c).symm]))
  refine ⟨_, congrArg Host.Outcome.next heq, ?_, ?_, ?_, ?_⟩
  · rw [fld_setRed, hother, hstate]
  · rw [fld_setRed, hother, hlines]
  · rw [flag_setRed, flag_softWrite_redCtxA_en (setFld_wf (setFld_wf hw)) ht hc]
  · have hred : d.red = s.red := hd.only .red (by decide)
    change eSet {} (tile * 16 + c) {} (softWrite _ _ _).red = _
    rw [softWrite_red, setFld_red, setFld_red, hred]

/-! ### A well-formed contribution (R229, R279) -/

/-- A contribution that passes its checks is of one of the tenants. -/
theorem tenant_lt_of_redContrib {s : State} {p : Pkt} (h : passesChecks s p = true) (hop : p.opc = .redContrib) : p.tenant < 64 := by
  simp only [passesChecks, Bool.and_eq_true] at h
  obtain ⟨⟨⟨⟨-, htenant⟩, -⟩, -⟩, -⟩ := h
  have hr : refusal p = false := by simp [refusal, hop]
  simp only [tenantOk, hr, Bool.false_or, Bool.and_eq_true, decide_eq_true_eq] at htenant
  exact htenant.1

theorem nodeBad_of_eq {s u : State} {x : Ctx} (hrun : redRun u x = redRun s x) (hbase : ctxBase u x = ctxBase s x) (p : Pkt) (hs : List Nat) :
    nodeBad u x p hs = nodeBad s x p hs := by
  simp only [nodeBad, hrun, hbase]

/-- What decodes is not for a context in MODE 2 (R231). -/
theorem mode_ne_two_of_good {x : Ctx} {p : Pkt} {hs : List RedHalf} {a b : Nat} {ev : FmtEvents} (h : decodeContrib x p = .good hs a b ev) :
    x.mode ≠ 2 := by
  intro hm
  rw [decodeContrib, if_pos hm] at h
  cases h

/-- A well-formed contribution of an enabled context's tenant makes STATE 2 and is taken up. -/
theorem contribAt_good {r : State} (h : r.wf = true) {p : Pkt} {x : Ctx} (hx : ctxAt r p.dst.tile (RaCtx p.addr) = x) {hs : List RedHalf}
    {a b : Nat} {ev : FmtEvents} (hlt : p.tenant < 64) (htenant : x.tenant = p.tenant) (hstate : ctxState r x = 1 ∨ ctxState r x = 2)
    (hd : decodeContrib x p = .good hs a b ev) (hnode : nodeBad r x p (hs.map RedHalf.half) = false) :
    contribAt r p = goodContrib (setFld r (ctxS x) RedCtxS.STATE 2) x p hs a b ev := by
  have hbase : ctxBase (setFld r (ctxS x) RedCtxS.STATE 2) x = ctxBase r x := fld_setFld_apart h _ _ (by decide) (by decide) (by decide)
  rw [contribAt, hx]
  dsimp only
  rw [if_neg (by omega), if_neg (by omega), if_neg (not_not.2 htenant), if_neg (by omega), if_neg (mode_ne_two_of_good hd), hd]
  dsimp only
  rw [nodeBad_of_eq (redRun_of_red_eq (setFld_red r _ _ _) x) hbase, hnode]
  rfl

theorem inputOf_rank (r : RedRun) (k v : Nat) : (inputOf r k v).rank = k ∧ (inputOf r k v).lvl = v := by
  rw [inputOf]
  cases hf : r.ins.find? fun i => i.rank == k && i.lvl == v with
  | none => exact ⟨rfl, rfl⟩
  | some i => simpa using List.find?_some hf

/-- An input entered is the one found under its node. -/
theorem inputOf_putInput (r : RedRun) (i : RedIn) : inputOf (putInput r i) i.rank i.lvl = i := by
  have hnone : (r.ins.filter fun j => ! (j.rank == i.rank && j.lvl == i.lvl)).find? (fun j => j.rank == i.rank && j.lvl == i.lvl) = none := by
    rw [List.find?_eq_none]
    intro j hj
    have hother := (List.mem_filter.1 hj).2
    rw [Bool.not_eq_true'] at hother
    rw [hother]
    exact Bool.false_ne_true
  simp only [inputOf, putInput, List.find?_append, hnone, Option.none_or]
  simp

/-- The input of a contribution entered: so many halves more, and its data in the digest. -/
def inputWith (r : RedRun) (h : RedHold) (n : Nat) : RedIn :=
  let i := inputOf r h.rank h.lvl
  { i with n := i.n + n, dig := crc64 i.dig h.pkt.data }

theorem enterInput_ins (s : State) (r : RedRun) (h : RedHold) (n : Nat) : (enterInput s r h n).ins = (putInput r (inputWith r h n)).ins := rfl

theorem inputWith_node (r : RedRun) (h : RedHold) (n : Nat) : (inputWith r h n).rank = h.rank ∧ (inputWith r h n).lvl = h.lvl :=
  inputOf_rank r h.rank h.lvl

theorem inputOf_enterInput (s : State) (r : RedRun) (h : RedHold) (n : Nat) : inputOf (enterInput s r h n) h.rank h.lvl = inputWith r h n := by
  have hput := inputOf_putInput r (inputWith r h n)
  rw [(inputWith_node r h n).1, (inputWith_node r h n).2] at hput
  rw [inputOf, enterInput_ins]
  exact hput

theorem inputWith_mem (s : State) (r : RedRun) (h : RedHold) (n : Nat) : inputWith r h n ∈ (enterInput s r h n).ins := by
  rw [enterInput_ins]
  exact List.mem_append_right _ (List.mem_singleton_self _)

theorem mem_enterInput_holds (s : State) (r : RedRun) (h : RedHold) (n : Nat) : h ∈ (enterInput s r h n).holds :=
  List.mem_append_right _ (List.mem_singleton_self _)

theorem closeCheck_of_open {i : RedIn} (h : i.close = none) (s : State) (x : Ctx) : closeCheck s x i = s := by
  rw [closeCheck, h]

theorem rd_ruFmt_ne (s : State) {tile t a : Nat} (h : a ≠ Reg.telRuFmt tile t) (e : FmtEvents) : rd (ruFmt s tile t e) a = rd s a := by
  rw [ruFmt]
  split
  · simp only [bump, rd_setFld_ne _ _ _ h]
  · rfl

theorem ctxState_setPoisoned {s : State} (h : s.wf = true) (x : Ctx) : ctxState (setPoisoned s x) x = ctxState s x := by
  rw [setPoisoned]
  split
  · rfl
  · exact (fld_setFld_ne _ _ _ _ (redCtxS_ne_redCstat _ _ _ _)).trans (ctxState_setFld_apart h x 1 (by decide) (by decide))

/-- What a well-formed contribution's events and poison leave in the registers. -/
def contribNoted (s : State) (x : Ctx) (p : Pkt) (ev : FmtEvents) : State :=
  if p.poison then setPoisoned (ruFmt s x.tile x.tenant ev) x else ruFmt s x.tile x.tenant ev

theorem contribNoted_red (s : State) (x : Ctx) (p : Pkt) (ev : FmtEvents) : (contribNoted s x p ev).red = s.red := by
  rw [contribNoted]
  split
  · rw [setPoisoned_red, ruFmt_red]
  · rw [ruFmt_red]

theorem ctxState_contribNoted {s : State} (h : s.wf = true) {x : Ctx} (hc : x.c < 16) (p : Pkt) (ev : FmtEvents) :
    ctxState (contribNoted s x p ev) x = ctxState s x := by
  have hfmt : ctxState (ruFmt s x.tile x.tenant ev) x = ctxState s x := ctxState_of_rd (rd_ruFmt_ne s (redCtxS_ne_telRuFmt hc _ _) ev)
  rw [contribNoted]
  split
  · rw [ctxState_setPoisoned ((ruFmt_keeps (by decide) (.refl [.regs] s)).wf h), hfmt]
  · exact hfmt

/-- The hold of a contribution none of whose flits is combined yet. -/
def freshHold (p : Pkt) (hs : List RedHalf) (a b : Nat) : RedHold :=
  { pkt := p, first := a, past := b, rank := RaRank p.addr, lvl := RaLvl p.addr, pend := hs }

/-- With no closing mark in, a well-formed contribution is entered and held, and nothing else is done. -/
theorem goodContrib_of_open {s : State} (h : tWf (fun _ => ({} : RedRun)) s.red = true) {x : Ctx} {p : Pkt} {hs : List RedHalf} {a b : Nat}
    (hopen : (inputOf (redRun s x) (RaRank p.addr) (RaLvl p.addr)).close = none) (ev : FmtEvents) :
    let t := contribNoted s x p ev
    goodContrib s x p hs a b ev = setRed t x (enterInput t (redRun s x) (freshHold p hs a b) hs.length) := by
  intro t
  have hred : t.red = s.red := contribNoted_red s x p ev
  change closeCheck (setRed t x (enterInput t (redRun t x) (freshHold p hs a b) hs.length)) x
    (inputOf (redRun (setRed t x (enterInput t (redRun t x) (freshHold p hs a b) hs.length)) x) (RaRank p.addr) (RaLvl p.addr)) = _
  rw [redRun_of_red_eq hred, redRun_setRed (by rw [hred]; exact h)]
  refine closeCheck_of_open ?_ _ x
  exact (congrArg RedIn.close (inputOf_enterInput t (redRun s x) (freshHold p hs a b) hs.length)).trans hopen

/-- A contribution that passes its checks at a reduction unit goes to its context. -/
theorem exec_redContrib {p : Pkt} {s : State} (hp : passesChecks s p = true) (hk : Ep_kind p.dst = .ru) :
    exec (.redContrib p) s = .next (contribAt (received s p) p) := by
  change execRedContrib p s = _
  rw [execRedContrib, arrive_passes _ hp, if_pos hk]

/-! ### Runs of complete positions (R250) -/

/-- A run is whole positions, no more than asked for. -/
theorem length_readyFrom (r : RedRun) (k pos : Nat) : ∃ m, (readyFrom r k pos).length = 2 * m ∧ m ≤ k := by
  induction k generalizing pos with
  | zero => exact ⟨0, rfl, Nat.le_refl 0⟩
  | succ k ih =>
    rw [readyFrom]
    split
    · obtain ⟨m, hm, hle⟩ := ih (pos + 1)
      exact ⟨m + 1, by simp only [List.length_cons, hm]; omega, by omega⟩
    · exact ⟨0, rfl, Nat.zero_le _⟩

theorem length_emitReady (s : State) (x : Ctx) : ∃ m, (emitReady s x).length = 2 * m ∧ m ≤ 32 := by
  obtain ⟨m, hm, hle⟩ := length_readyFrom (redRun s x) (min 32 (x.npos - emitFrom s x)) (emitFrom s x)
  exact ⟨m, hm, hle.trans (Nat.min_le_left _ _)⟩

/-- The positions ready by a cycle are whole, and some of the run. -/
theorem length_readyBy (g : Nat) (hs : List RedPos) : ∃ m, (readyBy g hs).length = 2 * m ∧ 2 * m ≤ hs.length := by
  induction hs using readyBy.induct g with
  | case1 a b r hg ih =>
    obtain ⟨m, hm, hle⟩ := ih
    rw [readyBy, if_pos hg]
    exact ⟨m + 1, by simp only [List.length_cons, hm]; omega, by simp only [List.length_cons]; omega⟩
  | case2 a b r hg =>
    rw [readyBy, if_neg hg]
    exact ⟨0, rfl, Nat.zero_le _⟩
  | case3 hs hne =>
    rw [readyBy]
    · exact ⟨0, rfl, Nat.zero_le _⟩
    · exact hne

theorem ready_le_of_mem_readyBy {g : Nat} {hs : List RedPos} : ∀ q ∈ readyBy g hs, q.ready.getD 0 ≤ g := by
  induction hs using readyBy.induct g with
  | case1 a b r hg ih =>
    rw [readyBy, if_pos hg, List.forall_mem_cons, List.forall_mem_cons]
    exact ⟨hg.1, hg.2, ih⟩
  | case2 a b r hg =>
    rw [readyBy, if_neg hg]
    exact nofun
  | case3 hs hne =>
    rw [readyBy]
    · exact nofun
    · exact hne

/-- A list of halves is ready by a cycle when each of them is. -/
theorem readyAt_le {g : Nat} {hs : List RedPos} (h : ∀ q ∈ hs, q.ready.getD 0 ≤ g) : readyAt hs ≤ g := by
  suffices H : ∀ b ≤ g, (hs.filterMap RedPos.ready).foldl max b ≤ g from H 0 (Nat.zero_le g)
  induction hs with
  | nil => exact fun b hb => hb
  | cons q r ih =>
    rw [List.forall_mem_cons] at h
    intro b hb
    cases hq : q.ready with
    | none =>
      rw [List.filterMap_cons_none hq]
      exact ih h.2 b hb
    | some t =>
      rw [List.filterMap_cons_some hq]
      rw [hq] at h
      exact ih h.2 _ (Nat.max_le.2 ⟨hb, h.1⟩)

/-! ### Emission (R250) -/

/-- Waiting packets entered one after the other leave the working state of every context. -/
theorem foldl_enqueue_red {α : Type} (p : State → α → Pkt) (why : α → Purpose) (l : List α) (s : State) :
    (l.foldl (fun s y => enqueue s (p s y) (why y)) s).red = s.red :=
  (Keeps.foldl (.refl [.dyn] s) fun _ _ hu => enqueue_keeps (by decide) hu).only .red (by decide)

/-- A packet emitted changes the working state of its own context alone, where it counts its positions as sent. -/
theorem emitChunk_red (s : State) (x : Ctx) (hs : List RedPos) :
    ∃ r, r.sent = (redRun s x).sent + hs.length / 2 ∧ (emitChunk s x hs).red = (setRed s x r).red := by
  have hvals : (runVals s x hs).2.red = s.red := (runVals_keeps (by decide) (.refl [.free] s)).only .red (by decide)
  have hrun := redRun_of_red_eq hvals x
  unfold emitChunk
  dsimp only
  rw [foldl_enqueue_red]
  simp only [setRed, bump_red, ruFmt_red, hvals, hrun]
  refine ⟨_, ?_, rfl⟩
  rfl

/-- Packet after packet, a run of whole positions is sent. -/
theorem emitChunks_sent {k m : Nat} {s : State} (h : tWf (fun _ => ({} : RedRun)) s.red = true) (x : Ctx) {hs : List RedPos}
    (hlen : hs.length = 2 * m) (hm : m ≤ k) : (redRun (emitChunks s x k hs) x).sent = (redRun s x).sent + m := by
  induction k generalizing s hs m with
  | zero =>
    obtain rfl : m = 0 := by omega
    rfl
  | succ k ih =>
    rw [emitChunks]
    split
    · next hnil =>
      obtain rfl : m = 0 := by
        rw [List.isEmpty_iff.1 hnil, List.length_nil] at hlen
        omega
      rfl
    · obtain ⟨r, hsent, hred⟩ := emitChunk_red s x (hs.take (2 * x.posPerPkt))
      have hpos : 1 ≤ x.posPerPkt := Nat.le_max_left _ _
      have hrest : (hs.drop (2 * x.posPerPkt)).length = 2 * (m - x.posPerPkt) := by
        rw [List.length_drop, hlen]
        omega
      rw [ih (by rw [hred]; exact tWf_setRed h x r) hrest (by omega), redRun_of_red_eq hred, redRun_setRed h, hsent, List.length_take, hlen]
      omega

/-- A cycle that is not to come leaves the state. -/
theorem advanceTo_of_le {s : State} {g : Nat} (h : g ≤ s.clk.now) : advanceTo s g = s := if_neg (Nat.not_lt.2 h)

/-- A run of at most 32 whole positions is sent as far as the window leaves room. -/
theorem emitRun_sent {s : State} (h : tWf (fun _ => ({} : RedRun)) s.red = true) {x : Ctx} {hs : List RedPos} {m : Nat} (hmay : mayEmit s x = true)
    (hlen : hs.length = 2 * m) (hm : m ≤ 32) : (redRun (emitRun s x hs) x).sent = (redRun s x).sent + min m (emitRoom s x) := by
  have htake : (hs.take (2 * emitRoom s x)).length = 2 * min m (emitRoom s x) := by
    rw [List.length_take, hlen]
    omega
  rw [emitRun]
  split
  · next hnone =>
    have hnil : hs.take (2 * emitRoom s x) = [] := by simpa [hmay] using hnone
    rw [hnil, List.length_nil] at htake
    omega
  · have hred : ∀ g, (advanceTo s g).red = s.red := fun g =>
      (advanceTo_keeps (by decide) (by decide) (by decide) (by decide) (.refl [.clk, .regs, .rel, .trig] s)).only .red (by decide)
    rw [emitChunks_sent (by rw [hred]; exact h) x htake (by omega), redRun_of_red_eq (hred _)]

/-- A run that is ready moves no clock. -/
theorem emitRun_clk {s : State} {x : Ctx} {hs : List RedPos} (h : ∀ q ∈ hs, q.ready.getD 0 ≤ s.clk.now) : (emitRun s x hs).clk = s.clk := by
  rw [emitRun]
  split
  · rfl
  · rw [advanceTo_of_le (readyAt_le fun q hq => h q (List.mem_of_mem_take hq))]
    exact (emitChunks_keeps (by decide) (by decide) (by decide) (by decide) (.refl [.dyn, .free, .red, .regs] s)).only .clk (by decide)

/-- A run that is complete, or the operation's last, is sent. -/
theorem exec_redEmit {tile c : Nat} {s : State} {x : Ctx} (hx : ctxAt s tile c = x)
    (h : 64 ≤ (emitReady s x).length ∨ x.npos ≤ emitFrom s x + (emitReady s x).length / 2) :
    exec (.redEmit tile c) s = .next (emitRun s x (emitReady s x)) := by
  change execRedEmit tile c s = _
  rw [execRedEmit, hx, if_neg (by omega)]

/-- 32 cycles after its first position a run is sent as far as it is ready. -/
theorem exec_redEmitTimer {tile c : Nat} {s : State} {x : Ctx} (hx : ctxAt s tile c = x) (hq : quiet s = true) (hne : emitReady s x ≠ [])
    (hmay : mayEmit s x = true) (hroom : emitRoom s x ≠ 0) :
    let t := later s (readyAt ((emitReady s x).take 2) + 32)
    exec (.redEmitTimer tile c) s = .next (emitRun t x (readyBy t.clk.now (emitReady s x))) := by
  obtain ⟨a, rest, hcons⟩ := List.exists_cons_of_ne_nil hne
  change execRedEmitTimer tile c s = _
  rw [execRedEmitTimer, hx]
  dsimp only
  rw [hcons]
  dsimp only
  rw [hmay, if_neg (by simpa using hroom), advanceTo_quiet _ hq, ← hcons]
  rfl

/-! ### The step timer (R281) -/

/-- A standpipe message goes out as it is when no injection is armed at its router. -/
theorem spSend_of_unarmed {s : State} {src : Ep} (h : flag s (injReg (.rtr src.tile)) Inj.ARM = false) (m : SpMsg) :
    spSend s src m = { s with coll := { s.coll with spNet := s.coll.spNet ++ [(src, SpStamp m)] } } := by
  rw [spSend, if_neg (by simp [injArmed, h])]

/-- The abort request of a context for an operation of its group. -/
def ctxAbortMsg (s : State) (x : Ctx) (st : Status) (rank grp epoch i : Nat) : SpMsg :=
  grpMsg .abortReq x.tenant (coordinator s i) 0 false (grp, epoch) rank x.lvl (abortSeq s x) (failWord st rank)

/-- The abort request rests on the registers and on the context's working state. -/
theorem ctxAbortMsg_of_eq {s u : State} (hregs : u.regs = s.regs) (hred : u.red = s.red) (x : Ctx) (st : Status) (rank grp epoch i : Nat) :
    ctxAbortMsg u x st rank grp epoch i = ctxAbortMsg s x st rank grp epoch i := by
  simp only [ctxAbortMsg, coordinator, abortSeq, ctxSeq, fld, rd, redRun, hregs, hred]

theorem ctxEp_of_regs_eq {s u : State} (h : u.regs = s.regs) (x : Ctx) : ctxEp u x = ctxEp s x := by
  simp only [ctxEp, myChip, fld, rd, h]

/-- A context of a group sends its abort request to the coordinator. -/
theorem ctxAbort_of_unarmed {s : State} {x : Ctx} {grp epoch i : Nat} (hgrp : (redRun s x).grp = some (grp, epoch, i))
    (h : flag s (injReg (.rtr x.tile)) Inj.ARM = false) (st : Status) (rank : Nat) : ctxAbort s x st rank =
    { s with coll := { s.coll with spNet := s.coll.spNet ++ [(ctxEp s x, SpStamp (ctxAbortMsg s x st rank grp epoch i))] } } := by
  rw [ctxAbort, hgrp]
  exact spSend_of_unarmed (src := ctxEp s x) h _

/-- The rank an expired step timer names: the predecessor on a ring, else the lowest that no opening mark has covered. -/
def stuckRank (s : State) (x : Ctx) : Nat := if x.ring then (x.rlo + x.n - 1) % x.n else uncovered s x

/-- The state in which an expired step timer is recorded. -/
def timeoutLogged (s : State) (x : Ctx) (g : Nat) : State :=
  log (later s g) { errOf (unitCode .ru x.tile) .timeout 2 with tenant := x.tenant, status := .collTimeout }

theorem timeoutLogged_keeps (s : State) (x : Ctx) (g : Nat) : Keeps [.clk, .log, .rel] s (timeoutLogged s x g) :=
  log_keeps (by decide) (by decide) (Keeps.clk (by decide) (.refl _ s))

theorem timeoutLogged_clk (s : State) (x : Ctx) (g : Nat) : (timeoutLogged s x g).clk.now = max s.clk.now g :=
  congrArg Clock.now ((log_keeps (by decide) (by decide) (.refl [.log, .rel] (later s g))).only .clk (by decide))

/-- At STEPTO the step timer is recorded, the abort request sent, and the timer stops. -/
theorem exec_stepTimeout {tile c grp epoch i n : Nat} {s : State} {x : Ctx} (hx : ctxAt s tile c = x) (hq : quiet s = true)
    (hgrp : (redRun s x).grp = some (grp, epoch, i)) (hstep : (redRun s x).step = some n) (h0 : ctxState s x ≠ 0) (h3 : ctxState s x ≠ 3) :
    let t := timeoutLogged s x (n + usCycles (stepTo s i))
    exec (.stepTimeout tile c) s = .next (setRed (ctxAbort t x .collTimeout (stuckRank s x)) x { redRun t x with step := none }) := by
  have htile : tile = x.tile := by rw [← hx]; rfl
  change execStepTimeout tile c s = _
  rw [execStepTimeout, hx, htile]
  dsimp only
  rw [hgrp, hstep]
  dsimp only
  rw [if_neg (by simp [h0, h3]), advanceTo_quiet _ hq]
  rfl

/-- Settles O22: each command is one equation, and what it leaves in the registers, in the context's working state and on the standpipe is
read off that equation. -/
theorem reductionContextsWork : Obligations.ReductionContextsWork := by
  refine ⟨fun tile c a b s h ht hc h0 => ?enable, fun tile c v s h ht hc => exec_redCtxDisable ht hc v h,
    fun p hs a b ev s h hp hred hop hk => ?contribution, fun tile c s hred => ?emit,
    fun tile c s hred hq => ?timer, fun tile c grp epoch i n s _ hred hq harm => ?timeout⟩
  case enable =>
    intro x
    have hx : ctxOf tile c a b = x := rfl
    have htile : tile = x.tile := rfl
    have hctx : c = x.c := rfl
    clear_value x
    subst htile hctx
    exact redCtxEnable_spec h hx ht hc (hx ▸ h0)
  case contribution =>
    intro r x i htenant hstate hd hnode hopen
    have hr := (received_keeps s p).wf h
    have hrred : r.red = s.red := (received_keeps s p).only .red (by decide)
    have hrun : redRun (setFld r (ctxS x) RedCtxS.STATE 2) x = redRun s x := redRun_of_red_eq hrred x
    have htwo : ctxState (setFld r (ctxS x) RedCtxS.STATE 2) x = 2 := fld_setFld_same _ _ _ hr (by decide) (by decide)
    have hwf : tWf (fun _ => ({} : RedRun)) (setFld r (ctxS x) RedCtxS.STATE 2).red = true := by
      rw [setFld_red, hrred]
      exact hred
    have hgood := goodContrib_of_open hwf (p := p) (hs := hs) (a := a) (b := b) (by rw [hrun]; exact hopen) ev
    rw [hrun] at hgood
    refine ⟨_, (exec_redContrib hp hk).trans (congrArg Host.Outcome.next
      ((contribAt_good hr rfl (tenant_lt_of_redContrib hp hop) htenant hstate hd hnode).trans hgood)), ?_, ?_, ?_⟩
    · rw [ctxState_setRed, ctxState_contribNoted (setFld_wf hr) (Nat.mod_lt _ (by decide)), htwo]
    all_goals rw [redRun_setRed (by rw [contribNoted_red]; exact hwf)]
    · have hnode := inputWith_node (redRun s x) (freshHold p hs a b) hs.length
      exact ⟨_, inputWith_mem _ _ _ _, hnode.1, hnode.2, rfl⟩
    · exact ⟨_, mem_enterInput_holds _ _ _ _, rfl, rfl, rfl, rfl, rfl⟩
  case emit =>
    intro x hs hrun _ hmay
    obtain ⟨m, hlen, hm⟩ := length_emitReady s x
    refine ⟨_, exec_redEmit rfl hrun, ?_⟩
    rw [emitRun_sent hred hmay hlen hm, hlen]
    omega
  case timer =>
    intro x g hne hmay hroom
    obtain ⟨m, hlen, hm⟩ := length_emitReady s x
    obtain ⟨k, hk, hle⟩ := length_readyBy g (emitReady s x)
    refine ⟨_, exec_redEmitTimer rfl hq hne hmay hroom, congrArg Clock.now (emitRun_clk ready_le_of_mem_readyBy), ?_⟩
    refine (emitRun_sent (s := later s _) hred hmay hk (by omega)).trans ?_
    rw [hk, Nat.mul_div_cancel_left _ (by decide)]
    rfl
  case timeout =>
    intro x hgrp hstep h0 h3
    have hkeeps := timeoutLogged_keeps s x (n + usCycles (stepTo s i))
    generalize ht : timeoutLogged s x (n + usCycles (stepTo s i)) = t at hkeeps
    have hregs : t.regs = s.regs := (hkeeps.only .regs (by decide)).1
    have htred : t.red = s.red := hkeeps.only .red (by decide)
    have hcoll : t.coll = s.coll := hkeeps.only .coll (by decide)
    have hsend := ctxAbort_of_unarmed (s := t) (x := x) (by rw [redRun_of_red_eq htred]; exact hgrp)
      (by rw [flag, fld, rd_of_regs_eq hregs]; exact harm) .collTimeout (stuckRank s x)
    rw [ctxAbortMsg_of_eq hregs htred, ctxEp_of_regs_eq hregs, hcoll] at hsend
    have hexec := exec_stepTimeout rfl hq hgrp hstep h0 h3
    dsimp only at hexec
    rw [ht, hsend] at hexec
    refine ⟨_, hexec, ?_, ?_, ?_⟩
    · exact (congrArg (fun u : State => u.clk.now) ht.symm).trans (timeoutLogged_clk s x _)
    · rw [redRun_setRed (by rw [htred]; exact hred)]
    · rfl

end Sys2Proof.Machine

namespace Sys2Proof.Machine

/-! ### Triggered entries armed and disarmed (R261) -/

/-- What a write that sets V leaves in TRIGB before the entry is judged: its other fields. -/
def entryWritten (s : State) (b : Blk) (e v : Nat) : State := softWrite s (Reg.trigb b e) (putBits v 0 0 0)

/-- An entry armed, in ascending order within its unit. -/
def entryArmed (s : State) (b : Blk) (e : Nat) : State :=
  { setFld s (Reg.trigb b e) Trigb.V 1 with trig := { s.trig with armed := (s.trig.armed.filter fun x => ! (x.1 == b && decide (e < x.2))) ++
    [(b, e)] ++ (s.trig.armed.filter fun x => x.1 == b && decide (e < x.2)) } }

section Arm

variable {b : Blk} {e v : Nat} {s : State} (he : e < 512) (hon : tableOn s b = true) (hfree : flag s (Reg.trigb b e) Trigb.V = false)
  (hv : bit v 0 = true)
include he hon hfree hv

theorem exec_triggerArm :
    exec (.triggerArm b e v) s = .next (
      let w := entryWritten s b e v
      let n := fld w (Reg.trigb b e) Trigb.TENANT
      if n ≠ fld w (trigCtr w b e) Ctr.TENANT then log w { errOf (blkUnit b) .tenant 2 with tenant := n }
      else if ! relOk (Desc_cmd (storeDesc w b e)) (fld w (Reg.trigb b e) Trigb.REL) then log w { errOf (blkUnit b) .format 2 with tenant := n }
      else compareEntry (entryArmed w b e) (b, e)) := by
  change execTriggerArm b e v s = _
  rw [execTriggerArm, if_neg (by simp [hon, hfree, hv, he])]
  rfl

/-- An entry of another tenant than its counter's is not armed. -/
theorem exec_triggerArm_of_foreign
    (hn : fld (entryWritten s b e v) (Reg.trigb b e) Trigb.TENANT ≠ fld (entryWritten s b e v) (trigCtr (entryWritten s b e v) b e) Ctr.TENANT) :
    exec (.triggerArm b e v) s = .next (log (entryWritten s b e v)
      { errOf (blkUnit b) .tenant 2 with tenant := fld (entryWritten s b e v) (Reg.trigb b e) Trigb.TENANT }) := by
  rw [exec_triggerArm he hon hfree hv]
  dsimp only
  rw [if_pos hn]

variable
  (hn : fld (entryWritten s b e v) (Reg.trigb b e) Trigb.TENANT = fld (entryWritten s b e v) (trigCtr (entryWritten s b e v) b e) Ctr.TENANT)
include hn

/-- An entry whose REL names a field its command has not is not armed. -/
theorem exec_triggerArm_of_unfit
    (hrel : relOk (Desc_cmd (storeDesc (entryWritten s b e v) b e)) (fld (entryWritten s b e v) (Reg.trigb b e) Trigb.REL) = false) :
    exec (.triggerArm b e v) s = .next (log (entryWritten s b e v)
      { errOf (blkUnit b) .format 2 with tenant := fld (entryWritten s b e v) (Reg.trigb b e) Trigb.TENANT }) := by
  rw [exec_triggerArm he hon hfree hv]
  dsimp only
  rw [if_neg (not_not_intro hn), hrel, Bool.not_false, if_pos rfl]

theorem exec_triggerArm_of_fit
    (hrel : relOk (Desc_cmd (storeDesc (entryWritten s b e v) b e)) (fld (entryWritten s b e v) (Reg.trigb b e) Trigb.REL) = true) :
    exec (.triggerArm b e v) s = .next (compareEntry (entryArmed (entryWritten s b e v) b e) (b, e)) := by
  rw [exec_triggerArm he hon hfree hv]
  dsimp only
  rw [if_neg (not_not_intro hn), hrel, Bool.not_true, if_neg Bool.false_ne_true]

end Arm

/-- An entry whose counter has not failed enters the firing queue when the counter has reached its threshold, and else stays as it is. -/
theorem compareEntry_of_sound {s : State} {x : Blk × Nat} (hfail : flag s (trigCtr s x.1 x.2) Ctr.FAIL = false)
    (hqueue : s.trig.queue.contains x = false) :
    compareEntry s x = if reached s (trigCtr s x.1 x.2) (fld s (Reg.triga x.1 x.2) Triga.THRESH) then
      { s with trig := { s.trig with queue := s.trig.queue ++ [x] } } else s := by
  rw [compareEntry]
  dsimp only
  rw [hfail, hqueue, if_neg Bool.false_ne_true, Bool.not_false, Bool.and_true]

/-- An entry disarmed, and out of the firing queue. -/
def entryOff (s : State) (b : Blk) (e : Nat) : State :=
  { disarm s b e with trig := { (disarm s b e).trig with queue := s.trig.queue.filter fun x => x != (b, e) } }

theorem exec_triggerDisarm {b : Blk} {e v : Nat} (he : e < 512) (hv : bit v 0 = false) (s : State) :
    exec (.triggerDisarm b e v) s = .next (softWrite (entryOff s b e) (Reg.trigb b e) v) := by
  change execTriggerDisarm b e v s = _
  rw [execTriggerDisarm, if_neg (by simp [hv, he])]
  rfl

/-! ### Entries fired (R260) -/

/-- The entry at the front of its unit's queue leaves it: a one-shot entry is disarmed and marked FIRED, a persistent one waits for its next
threshold. -/
def entryTaken (s : State) (b : Blk) (e : Nat) : State :=
  let u := { s with trig := { s.trig with queue := s.trig.queue.erase (b, e) } }
  if fld s (Reg.triga b e) Triga.THRINC = 0 then setFld (disarm u b e) (Reg.trigb b e) Trigb.FIRED 1
  else bump u (Reg.triga b e) Triga.THRESH (fld s (Reg.triga b e) Triga.THRINC)

/-- A descriptor issued by an entry. -/
def entryIssued (s : State) (b : Blk) (e d : Nat) : State := { s with trig := { s.trig with issued := s.trig.issued ++ [⟨b, e, d⟩] } }

/-- A unit fires the first entry of its queue when its table is in use. -/
theorem front_of_tableOn {s : State} {b : Blk} {e : Nat} (hfront : (s.trig.queue.find? fun x => x.1 == b) = some (b, e))
    (hon : tableOn s b = true) : (s.trig.queue.find? fun x => x.1 == b && tableOn s b) = some (b, e) := by
  simpa only [hon, Bool.and_true] using hfront

/-- At a unit that is no TNI the stored command is issued as it stands. -/
theorem exec_triggerFire_of_not_tni {s : State} {b : Blk} {e : Nat} (hfront : (s.trig.queue.find? fun x => x.1 == b) = some (b, e))
    (hon : tableOn s b = true) (hb : ∀ t, b ≠ .tni t) :
    exec (.triggerFire b) s = .next (entryIssued (entryTaken s b e) b e (storeDesc (entryTaken s b e) b e)) := by
  change execTriggerFire b s = _
  rw [execTriggerFire, front_of_tableOn hfront hon]
  cases b with
  | tni t => exact absurd rfl (hb t)
  | _ => rfl

/-- At a member of a running operation an entry that is not its FIRST one issues its command with the operation's offset. -/
theorem exec_triggerFire_of_op {s : State} {t e : Nat} {o : CollOp} (hfront : (s.trig.queue.find? fun x => x.1 == .tni t) = some (.tni t, e))
    (hon : tableOn s (.tni t) = true)
    (hop : opOf (entryTaken s (.tni t) e) t (fld (entryTaken s (.tni t) e) (Reg.trigb (.tni t) e) Trigb.GIDX) = some o)
    (hfirst : flag (entryTaken s (.tni t) e) (Reg.trigb (.tni t) e) Trigb.FIRST = false) :
    exec (.triggerFire (.tni t)) s = .next (entryIssued (entryTaken s (.tni t) e) (.tni t) e
      (relDesc (storeDesc (entryTaken s (.tni t) e) (.tni t) e) (fld (entryTaken s (.tni t) e) (Reg.trigb (.tni t) e) Trigb.REL)
        (ColSrc o.desc) (ColDst o.desc))) := by
  change execTriggerFire (.tni t) s = _
  rw [execTriggerFire, front_of_tableOn hfront hon]
  unfold entryTaken at hop hfirst
  dsimp only at hop hfirst ⊢
  rw [hop]
  dsimp only
  rw [hfirst]
  rfl

theorem fld_of_regs_eq {s t : State} (h : t.regs = s.regs) (a : Nat) (f : Fld) : fld t a f = fld s a f := by rw [fld, rd_of_regs_eq h, fld]

section Taken

variable (s : State) (b : Blk) (e : Nat)

@[simp] theorem entryTaken_queue : (entryTaken s b e).trig.queue = s.trig.queue.erase (b, e) := by
  unfold entryTaken
  split <;> rfl

@[simp] theorem entryTaken_issued : (entryTaken s b e).trig.issued = s.trig.issued := by
  unfold entryTaken
  split <;> rfl

@[simp] theorem entryTaken_coll : (entryTaken s b e).coll = s.coll := by
  unfold entryTaken
  split <;> rfl

variable {s b e}

theorem entryTaken_armed_of_persistent (h : fld s (Reg.triga b e) Triga.THRINC ≠ 0) : (entryTaken s b e).trig.armed = s.trig.armed := by
  rw [entryTaken, if_neg h]
  rfl

theorem not_mem_armed_of_oneShot (h : fld s (Reg.triga b e) Triga.THRINC = 0) : (b, e) ∉ (entryTaken s b e).trig.armed := by
  rw [entryTaken, if_pos h]
  intro hm
  have hm : (b, e) ∈ s.trig.armed.filter fun x => x != (b, e) := hm
  simpa using (List.mem_filter.mp hm).2

/-- What firing a one-shot entry leaves in the registers. -/
theorem entryTaken_regs_of_oneShot (h : fld s (Reg.triga b e) Triga.THRINC = 0) :
    (entryTaken s b e).regs = (setFld (setFld s (Reg.trigb b e) Trigb.V 0) (Reg.trigb b e) Trigb.FIRED 1).regs := by
  rw [entryTaken, if_pos h]
  rfl

/-- What firing a persistent entry leaves in the registers. -/
theorem entryTaken_regs_of_persistent (h : fld s (Reg.triga b e) Triga.THRINC ≠ 0) :
    (entryTaken s b e).regs = (bump s (Reg.triga b e) Triga.THRESH (fld s (Reg.triga b e) Triga.THRINC)).regs := by
  rw [entryTaken, if_neg h]
  rfl

theorem trigb_ne_triga (b : Blk) (e f : Nat) : Reg.trigb b e ≠ Reg.triga b f := by
  simp only [Reg.trigb, Reg.triga]
  omega

/-- Firing changes none of TRIGB's fields but V and FIRED. -/
theorem fld_trigb_entryTaken (hwf : s.wf = true) {g : Fld} (hg : g.lo ≤ g.hi) (h : Apart Trigb.V g ∧ Apart Trigb.FIRED g) :
    fld (entryTaken s b e) (Reg.trigb b e) g = fld s (Reg.trigb b e) g := by
  by_cases hinc : fld s (Reg.triga b e) Triga.THRINC = 0
  · rw [fld_of_regs_eq (entryTaken_regs_of_oneShot hinc), fld_setFld_apart (setFld_wf hwf) _ _ (by decide) hg h.2,
      fld_setFld_apart hwf _ _ (by decide) hg h.1]
  · rw [fld_of_regs_eq (entryTaken_regs_of_persistent hinc), bump, fld_setFld_ne _ _ _ _ (trigb_ne_triga b e e)]

theorem entryTaken_clears_V (hwf : s.wf = true) (h : fld s (Reg.triga b e) Triga.THRINC = 0) :
    flag (entryTaken s b e) (Reg.trigb b e) Trigb.V = false := by
  rw [flag, fld_of_regs_eq (entryTaken_regs_of_oneShot h), fld_setFld_apart (setFld_wf hwf) _ _ (by decide) (by decide) (by decide),
    fld_setFld_same _ _ _ hwf (by decide) (by decide)]
  rfl

theorem entryTaken_sets_FIRED (hwf : s.wf = true) (h : fld s (Reg.triga b e) Triga.THRINC = 0) :
    flag (entryTaken s b e) (Reg.trigb b e) Trigb.FIRED = true := by
  rw [flag, fld_of_regs_eq (entryTaken_regs_of_oneShot h), fld_setFld_same _ _ _ (setFld_wf hwf) (by decide) (by decide)]
  rfl

theorem entryTaken_advances_THRESH (hwf : s.wf = true) (h : fld s (Reg.triga b e) Triga.THRINC ≠ 0) :
    fld (entryTaken s b e) (Reg.triga b e) Triga.THRESH =
      (fld s (Reg.triga b e) Triga.THRESH + fld s (Reg.triga b e) Triga.THRINC) % 2 ^ 32 := by
  rw [fld_of_regs_eq (entryTaken_regs_of_persistent h), bump, fld_setFld_same _ _ _ hwf (by decide) (by decide)]
  rfl

end Taken

/-! ### The end of a member's operation (R263, R272) -/

/-- A member's operation gone: its poisoned landings have marked the group, its landings are cleared, and it is no longer among the
operations. -/
def collCleared (s : State) (o : CollOp) : State :=
  let ls := landsOf s o.tile o.gidx
  let psn := ls.any fun l => (landRun s o.tile l).psn || (landRun s o.tile l).malf
  let s := if psn then poisonGrp s o.tile o.gidx (Desc_layer o.desc) (Desc_opid o.desc) else s
  let s := ls.foldl (fun s l => setLand s o.tile l {}) s
  { s with coll := { s.coll with ops := s.coll.ops.filter fun x => ! (x.tile == o.tile && x.gidx == o.gidx) } }

/-- No landing of the operation holds a poisoned or malformed value. -/
def landsSound (s : State) (o : CollOp) : Prop :=
  ((landsOf s o.tile o.gidx).any fun k => (landRun s o.tile k).psn || (landRun s o.tile k).malf) = false

theorem collCleared_keeps {w : List Part} {s₀ s : State} {o : CollOp} (m_coll : Part.coll ∈ w) (m_log : Part.log ∈ w)
    (m_regs : Part.regs ∈ w) (m_rel : Part.rel ∈ w) (h : Keeps w s₀ s) : Keeps w s₀ (collCleared s o) := by
  unfold collCleared
  refine Keeps.coll m_coll (Keeps.foldl ?_ fun u l hu => setLand_keeps m_coll hu)
  exact Keeps.ite (poisonGrp_keeps m_log m_regs m_rel h) h

/-- Clearing landings changes neither the registers nor the operations. -/
theorem foldl_setLand (ls : List Nat) (t : Nat) (s : State) : (ls.foldl (fun s l => setLand s t l {}) s).regs = s.regs ∧
    (ls.foldl (fun s l => setLand s t l {}) s).coll.ops = s.coll.ops := by
  induction ls generalizing s with
  | nil => exact ⟨rfl, rfl⟩
  | cons l ls ih => exact ih _

theorem poisonGrp_coll (s : State) (t i y p : Nat) : (poisonGrp s t i y p).coll = s.coll :=
  (poisonGrp_keeps (w := [.log, .regs, .rel]) (by decide) (by decide) (by decide) (.refl _ s)).only .coll (by decide)

theorem collCleared_ops (s : State) (o : CollOp) :
    (collCleared s o).coll.ops = s.coll.ops.filter fun x => ! (x.tile == o.tile && x.gidx == o.gidx) := by
  rw [collCleared]
  dsimp only
  rw [(foldl_setLand _ _ _).2]
  split
  · rw [poisonGrp_coll]
  · rfl

theorem collCleared_regs {s : State} {o : CollOp} (h : landsSound s o) : (collCleared s o).regs = s.regs := by
  rw [collCleared]
  dsimp only
  rw [(foldl_setLand _ _ _).1, if_neg (by rw [h]; exact Bool.false_ne_true)]

/-- What an ended operation leaves: the operation gone, and its command or its sluice operation's barrier told. -/
theorem collEnd_eq (s : State) (o : CollOp) (st : Status) (d : Nat) :
    collEnd s o st d =
      let psn := (landsOf s o.tile o.gidx).any fun l => (landRun s o.tile l).psn || (landRun s o.tile l).malf
      let st := if psn ∧ st.good then Status.poisoned else st
      if Desc_cmd o.desc = 9 then barrierOver (collCleared s o) o.tile o.gidx st
      else updCmd (collCleared s o) o.cmd fun c =>
        { c with left := 0, status := st, bytes := if st.good ∨ st = .poisoned then dstLen (collCleared s o) o.tile o.desc else 0, detail := d } := rfl

theorem barrierOver_coll (s : State) (t i : Nat) (st : Status) : (barrierOver s t i st).coll = s.coll :=
  (barrierOver_keeps (w := [.regs, .slu]) (by decide) (by decide) (.refl _ s)).only .coll (by decide)

@[simp] theorem collEnd_ops (s : State) (o : CollOp) (st : Status) (d : Nat) :
    (collEnd s o st d).coll.ops = s.coll.ops.filter fun x => ! (x.tile == o.tile && x.gidx == o.gidx) := by
  rw [collEnd_eq]
  dsimp only
  split
  · rw [barrierOver_coll, collCleared_ops]
  · rw [updCmd_coll, collCleared_ops]

/-- After its end a member runs no operation of the group. -/
theorem opOf_filter_ops {s u : State} {t i : Nat} (h : u.coll.ops = s.coll.ops.filter fun x => ! (x.tile == t && x.gidx == i)) :
    opOf u t i = none := by
  rw [opOf, h, List.find?_eq_none]
  intro x hx
  simpa [imp_iff_not_or] using (List.mem_filter.mp hx).2

/-- A COLLECTIVE's member that ends without a result tells its command the status alone. -/
theorem collEnd_of_failed {s : State} {o : CollOp} {st : Status} (d : Nat) (hc : Desc_cmd o.desc = 8) (hst : st.good = false)
    (hp : st ≠ .poisoned) : collEnd s o st d =
      updCmd (collCleared s o) o.cmd fun c => { c with left := 0, status := st, bytes := 0, detail := d } := by
  rw [collEnd_eq]
  dsimp only
  rw [hc, if_neg (show ¬ (8 = 9) by decide), if_neg (by rw [hst]; simp), if_neg (by rw [hst]; simp [hp])]

/-- A COLLECTIVE's member with sound landings that ends well tells its command the bytes of its result. -/
theorem collEnd_of_sound {s : State} {o : CollOp} {st : Status} (d : Nat) (hc : Desc_cmd o.desc = 8) (hst : st.good = true)
    (hl : landsSound s o) : collEnd s o st d =
      updCmd (collCleared s o) o.cmd fun c => { c with left := 0, status := st, bytes := dstLen (collCleared s o) o.tile o.desc, detail := d } := by
  rw [collEnd_eq]
  dsimp only
  rw [hc, if_neg (show ¬ (8 = 9) by decide), show ((landsOf s o.tile o.gidx).any _) = false from hl,
    if_neg (fun x => Bool.false_ne_true x.1), if_pos (.inl hst)]

theorem collCleared_host (s : State) (o : CollOp) : (collCleared s o).host = s.host :=
  (collCleared_keeps (w := [.coll, .log, .regs, .rel]) (by decide) (by decide) (by decide) (by decide) (.refl _ s)).only .host (by decide)

theorem collEnd_wf {s : State} (h : s.wf = true) (o : CollOp) (st : Status) (d : Nat) : (collEnd s o st d).wf = true :=
  (collEnd_keeps (w := [.coll, .host, .log, .regs, .rel, .slu]) (by decide) (by decide) (by decide) (by decide) (by decide) (by decide)
    (.refl _ s)).wf h

theorem collEnd_clk (s : State) (o : CollOp) (st : Status) (d : Nat) : (collEnd s o st d).clk = s.clk :=
  (collEnd_keeps (w := [.coll, .host, .log, .regs, .rel, .slu]) (by decide) (by decide) (by decide) (by decide) (by decide) (by decide)
    (.refl _ s)).only .clk (by decide)

/-- With no sluice operation at work nothing is woken. -/
theorem sluWake_of_no_ops {s : State} (h : s.slu.ops = []) : sluWake s = s := by
  rw [sluWake, h]
  rfl

/-- A COLLECTIVE's end leaves the sluice operations as they are. -/
theorem collEnd_slu {s : State} {o : CollOp} (st : Status) (d : Nat) (h : s.slu.ops = []) : (collEnd s o st d).slu.ops = [] := by
  have hslu : (collCleared s o).slu = s.slu :=
    (collCleared_keeps (w := [.coll, .log, .regs, .rel]) (by decide) (by decide) (by decide) (by decide) (.refl _ s)).only .slu (by decide)
  rw [collEnd_eq]
  dsimp only
  split
  · rw [barrierOver, hslu, h, List.find?_nil]
    exact hslu ▸ h
  · exact hslu ▸ h

/-- A member's operation that ran past its deadline. -/
theorem exec_memberTimeout {s : State} {t i t0 : Nat} {o : CollOp} (hop : opOf s t i = some o) (hlast : o.lastAt = some t0)
    (hleft : o.lastLeft = 0) (hq : quiet s = true) (hs : s.slu.ops = []) :
    exec (.memberTimeout t i) s =
      .next (setFld (collEnd (later s (t0 + usCycles (2 * stepTo s i))) o .collTimeout 0) (Reg.fabGrpA i) FabGrpA.STATE 2) := by
  change execMemberTimeout t i s = _
  rw [execMemberTimeout, hop]
  dsimp only
  rw [hlast]
  dsimp only
  rw [if_neg (not_not_intro hleft), advanceTo_quiet _ hq, sluWake_of_no_ops]
  exact collEnd_slu (s := later s _) _ _ hs

/-! ### START (R285) -/

/-- An amount on its way to a counter at each of some tiles. -/
theorem foldl_addCtr (off : Nat → Nat) (n : Nat) (l : List Nat) (s : State) :
    l.foldl (fun s t => addCtr s (off t) n) s =
      { s with trig := { s.trig with adds := s.trig.adds ++ l.map fun t => ⟨off t, n, none⟩ } } := by
  induction l generalizing s with
  | nil => simp
  | cons t l ih =>
    rw [List.foldl_cons, ih, addCtr]
    simp

/-- A message's group depends on the registers alone. -/
theorem grpOf_of_regs_eq {s t : State} (h : t.regs = s.regs) (m : SpMsg) : grpOf t m = grpOf s m := by
  have hs : grpState t = grpState s := funext fun i => by rw [grpState, grpState, fld_of_regs_eq h]
  have ht : grpTenant t = grpTenant s := funext fun i => by rw [grpTenant, grpTenant, fld_of_regs_eq h]
  have hi : grpId t = grpId s := funext fun i => by rw [grpId, grpId, fld_of_regs_eq h, fld_of_regs_eq h]
  delta grpOf
  rw [hs, ht, hi]

theorem exec_start {s : State} {m : SpMsg} {i : Nat} (hm : markPasses s m = true) (hg : grpOf s m = some i)
    (ht : grpTenant s i = SpTenant m) : exec (.start m) s = .next (
      ((List.range 64).filter fun t => isMember s t i && tableOn s (.tni t)).foldl
        (fun s t => addCtr s (Reg.ctr (.tni t) (bits (SpPay m 0) 42 32)) (bits (SpPay m 0) 31 0)) (spTake s m)) := by
  change execStart m s = _
  have hg' : grpOf (spTake s m) m = some i := (grpOf_of_regs_eq (spTake_regs s m) m).trans hg
  have ht' : grpTenant (spTake s m) i = SpTenant m := ht
  rw [execStart, spArrive_passes _ hm, hg']
  dsimp only
  rw [ht', if_neg (not_not_intro rfl)]
  rfl

/-- Settles O26: an equation for each command of the trigger tables, the counters a START advances, and the end of a member past its
deadline. -/
theorem entriesArmFireAndStart : Obligations.EntriesArmFireAndStart := by
  refine ⟨?_, ?_, ?_, ?_, ?_, ?_⟩
  · intro b e v s he hon hfree hv
    refine ⟨exec_triggerArm_of_foreign he hon hfree hv, exec_triggerArm_of_unfit he hon hfree hv, fun hn hrel hfail hqueue => ?_⟩
    have hcmp := compareEntry_of_sound (s := entryArmed (entryWritten s b e v) b e) (x := (b, e)) hfail hqueue
    have hexec := exec_triggerArm_of_fit he hon hfree hv hn hrel
    refine ⟨fun hr => hexec.trans (congrArg _ (hcmp.trans (if_neg fun h => Bool.false_ne_true (hr.symm.trans h)))),
      fun hr => hexec.trans (congrArg _ (hcmp.trans (if_pos hr)))⟩
  · exact fun b e v s he hv => ⟨entryOff s b e, exec_triggerDisarm he hv s, rfl, rfl⟩
  · intro b e s hfront hon hb hwf
    refine ⟨_, _, exec_triggerFire_of_not_tni hfront hon hb, rfl, congrArg (· ++ _) (entryTaken_issued s b e), entryTaken_queue s b e,
      fun h => ?_, fun h => ?_⟩
    · exact ⟨entryTaken_clears_V hwf h, entryTaken_sets_FIRED hwf h, not_mem_armed_of_oneShot h⟩
    · exact ⟨entryTaken_armed_of_persistent h, entryTaken_advances_THRESH hwf h⟩
  · intro t e o s hfront hon hop hfirst hwf
    have hg := fld_trigb_entryTaken (b := .tni t) (e := e) hwf (g := Trigb.GIDX) (by decide) (by decide)
    have hf := fld_trigb_entryTaken (b := .tni t) (e := e) hwf (g := Trigb.FIRST) (by decide) (by decide)
    have hop' : opOf (entryTaken s (.tni t) e) t (fld (entryTaken s (.tni t) e) (Reg.trigb (.tni t) e) Trigb.GIDX) = some o := by
      rw [opOf, entryTaken_coll, hg]
      exact hop
    refine ⟨_, exec_triggerFire_of_op hfront hon hop' (by rw [flag, hf]; exact hfirst), entryTaken_coll _ _ _, entryTaken_queue _ _ _, ?_⟩
    exact congrArg (· ++ _) (entryTaken_issued s (.tni t) e)
  · intro m i s hm hg ht
    refine ⟨_, exec_start hm hg ht, ?_, ?_⟩
    · rw [foldl_addCtr]; rfl
    · rw [foldl_addCtr]; rfl
  · intro t i o t0 s hwf hq hs hop hlast hleft hc
    refine ⟨_, exec_memberTimeout hop hlast hleft hq hs, congrArg Clock.now (collEnd_clk (later s _) o _ 0), ?_, ?_, ?_⟩
    · rw [fld_setFld_same _ _ _ (collEnd_wf (s := later s _) hwf _ _ _) (by decide) (by decide)]
      rfl
    · have ho : o.tile = t ∧ o.gidx = i := by simpa using List.find?_some hop
      exact opOf_filter_ops (s := s) (by rw [setFld_coll, collEnd_ops, ho.1, ho.2]; rfl)
    · rw [collEnd_of_failed 0 hc rfl (by decide)]
      exact congrArg (fun h => updFirst _ _ (HostState.cmds h)) (collCleared_host (later s _) o)

end Sys2Proof.Machine

namespace Sys2Proof.Machine

/-! ### DOWN at a member (R263, R288) -/

/-- A DOWN at a member whose group holds no poison stores its payload at DST, and a SUMCOUNT's counts at theirs. -/
def downStored (s : State) (o : CollOp) (m : SpMsg) : State :=
  let s := if (SpBytes m).isEmpty ∨ ColCop o.desc = 5 then s else storeFabric s (SpTenant m) (ColDst o.desc) (SpBytes m) false
  if ColCounts o.desc && SpCounts m then
    storeFabric s (SpTenant m) (relAdd (ColDst o.desc) (countBase o.desc)) (bytesOf 4 (SpCnts m)) false else s

theorem downStored_keeps {w : List Part} {s₀ s : State} {o : CollOp} {m : SpMsg} (m_host : Part.host ∈ w) (m_mem : Part.mem ∈ w)
    (m_memPoison : Part.memPoison ∈ w) (m_obs : Part.obs ∈ w)
    (m_regs : Part.regs ∈ w) (h : Keeps w s₀ s) : Keeps w s₀ (downStored s o m) := by
  unfold downStored
  have hd := Keeps.ite (c := (SpBytes m).isEmpty ∨ ColCop o.desc = 5) h
    (storeFabric_keeps (fn := SpTenant m) (a := ColDst o.desc) (bs := SpBytes m) (psn := false) m_host m_mem m_memPoison m_obs m_regs h)
  exact Keeps.ite (storeFabric_keeps m_host m_mem m_memPoison m_obs m_regs hd) hd

/-- A message of a member's group that its own tenant sent is not another's. -/
theorem spOther_of_member {s : State} {t : Nat} {m : SpMsg} {o : CollOp} (h : spMember s t m = some o) : spOther s m = false := by
  obtain ⟨i, hi, hop⟩ := Option.bind_eq_some_iff.mp h
  have ht : grpTenant s i = SpTenant m := by
    by_contra hne
    rw [if_neg hne] at hop
    cases hop
  delta spOther
  rw [hi]
  dsimp only
  rw [ht]
  exact bne_self_eq_false _

theorem spMember_of_eq {s u : State} (hr : u.regs = s.regs) (ho : u.coll.ops = s.coll.ops) (t : Nat) (m : SpMsg) :
    spMember u t m = spMember s t m := by
  have hg : grpTenant u = grpTenant s := funext fun i => by rw [grpTenant, grpTenant, fld_of_regs_eq hr]
  rw [spMember, spMember, grpOf_of_regs_eq hr, hg]
  simp only [opOf, ho]

section Member

variable {s : State} {m : SpMsg} {o : CollOp} (hm : markPasses s m = true) (hd : (SpDst m).dep = 0) (hs : s.slu.ops = [])
  (ho : spMember s (SpDst m).tile m = some o) (hp : grpPsn s (SpDst m).tile o.gidx = false)
include hm hd hs ho hp

theorem exec_down_member : exec (.down m) s = .next (collEnd (downStored (spTake s m) o m) o .ok 0) := by
  have ho' : spMember (spTake s m) (SpDst m).tile m = some o := (spMember_of_eq (spTake_regs s m) rfl _ m).trans ho
  have hp' : grpPsn (spTake s m) (SpDst m).tile o.gidx = false := hp
  have hs' : (downStored (spTake s m) o m).slu.ops = [] :=
    (congrArg SluState.ops ((downStored_keeps (w := [.host, .mem, .memPoison, .obs, .regs]) (by decide) (by decide) (by decide) (by decide) (by decide)
      (.refl _ (spTake s m))).only .slu (by decide))).trans hs
  change execDown m s = _
  rw [execDown, spArrive_passes _ hm]
  dsimp only
  rw [hd, if_neg (by decide), spOther_of_member ho', if_neg Bool.false_ne_true, ho']
  dsimp only
  rw [hp']
  exact congrArg _ (sluWake_of_no_ops (collEnd_slu (s := downStored (spTake s m) o m) (o := o) .ok 0 hs'))

/-- In the package's memories DOWN writes a member's result at DST and touches no other byte, when no counts come with it. -/
theorem placed_exec_down_member (hwf : s.wf = true) (hbs : SpBytes m ≠ []) (hcop : ColCop o.desc ≠ 5)
    (hcounts : (ColCounts o.desc && SpCounts m) = false) (hregion : region (ColDst o.desc) ≠ 3) :
    ∃ u, exec (.down m) s = .next u ∧ Placed (ColDst o.desc) (SpBytes m) s u := by
  refine ⟨_, exec_down_member hm hd hs ho hp, fun a => ?_⟩
  have hmem (v : State) : (collEnd v o .ok 0).mem = v.mem :=
    (collEnd_keeps (w := [.coll, .host, .log, .regs, .rel, .slu]) (by decide) (by decide) (by decide) (by decide) (by decide) (by decide)
      (.refl _ v)).only .mem (by decide)
  have hstored : downStored (spTake s m) o m = storeSeen (spTake s m) (ColDst o.desc) (SpBytes m) false := by
    have hput : ¬ ((SpBytes m).isEmpty ∨ ColCop o.desc = 5) := by simp [hbs, hcop]
    rw [downStored, hcounts]
    exact (if_neg Bool.false_ne_true).trans ((if_neg hput).trans (if_neg hregion))
  rw [readByte_of_mem_eq (hmem _), hstored]
  exact placed_storeSeen (s := spTake s m) hwf _ _ _ a

end Member

/-! ### A result in host memory -/

/-- A member's operation on the standpipe whose DST lies in host memory (region 3). -/
def toHost : CollOp := { tile := 0, gidx := 4, cmd := 7, desc := 8 * 2 ^ 56 + 3 * 2 ^ 452, seq := 0, sig := 0 }

/-- Tile 0 of group index 4, which is tenant 1's group 9 of epoch 2, runs it. -/
def hostMember : State :=
  let a := setF (setF (setF (setF 0 FabGrpA.STATE 1) FabGrpA.TENANT 1) FabGrpA.GROUP 9) FabGrpA.EPOCH 2
  { wrReg {} (Reg.fabGrpA 4) a with coll := { ops := [toHost] } }

/-- The result of 8 bytes comes down to tile 0. -/
def downOfEight : SpMsg := SpStamp ⟨[spWord0 .down 1 ⟨0, 0, 0⟩ 0 1 false 0 3 7, spWord1 9 2 0 0 0, 5, crc64 0 (toLE 8 5)]⟩

theorem hostMember_takes_downOfEight : hostMember.wf = true ∧ markPasses hostMember downOfEight = true ∧ (SpDst downOfEight).dep = 0 ∧
    grpPsn hostMember 0 4 = false ∧
    ((landsOf hostMember 0 4).any fun k => (landRun hostMember 0 k).psn || (landRun hostMember 0 k).malf) = false := by
  decide +kernel

theorem spMember_hostMember : (SpDst downOfEight).tile = 0 ∧ spMember hostMember 0 downOfEight = some toHost := by decide +kernel

theorem downOfEight_result : SpBytes downOfEight = [5, 0, 0, 0, 0, 0, 0, 0] ∧ ColCop toHost.desc = 0 ∧ Desc_cmd toHost.desc = 8 := by
  decide +kernel

theorem exec_down_hostMember_byte : readByte (after (exec (.down downOfEight) hostMember) hostMember) (ColDst toHost.desc) = 0 := by
  decide +kernel

/-- Refutes O28: the statement lets a DOWN write its payload at DST whatever DST is, and a COLLECTIVE's DST may be host memory, where a result goes
to the host and not to a byte of the package. `downOfEight` comes to a member whose DST is in region 3, and the byte at DST stays 0. In the package's
own memories, and with no counts, the payload is written at DST alone: `placed_exec_down_member`. -/
theorem not_standpipeNodesCombine : ¬ Obligations.StandpipeNodesCombine := by
  intro h
  obtain ⟨-, -, hmember, -, -⟩ := h
  obtain ⟨hwf, hpass, hdep, hpsn, hlands⟩ := hostMember_takes_downOfEight
  obtain ⟨htile, hop⟩ := spMember_hostMember
  obtain ⟨hbytes, hcop, hcmd⟩ := downOfEight_result
  rw [← htile] at hop hpsn
  obtain ⟨hdown, -⟩ := hmember downOfEight toHost hostMember hwf hpass hdep rfl hop hpsn hcmd hlands
  obtain ⟨u, hu, hplaced, -, -⟩ := hdown (by rw [hbytes]; decide) (by rw [hcop]; decide)
  have hzero := exec_down_hostMember_byte
  rw [hu] at hzero
  have hfive := hplaced (ColDst toHost.desc)
  rw [hbytes, if_pos ⟨le_refl _, by simp⟩, Nat.sub_self] at hfive
  exact absurd (hfive.symm.trans hzero) (by decide)

end Sys2Proof.Machine

namespace Sys2Proof.Machine

/-! ### Completion of a ring's command (R378, R379) -/

/-- A lost record is counted in its well's register alone. -/
theorem putRec_regsOutside (s : State) (unit : Nat) {w : Nat} (hw : w < 64) (r : List Byte) :
    RegsOutside ((List.range 64).map Reg.telTwStat) s (putRec s unit w r) := by
  have hmem : Reg.telTwStat w ∈ (List.range 64).map Reg.telTwStat := List.mem_map_of_mem (List.mem_range.mpr hw)
  unfold putRec
  dsimp only
  split
  · exact regsOutside_of_regs_eq rfl
  · split
    · exact regsOutside_of_regs_eq rfl
    · exact setFld_regsOutside _ _ _ hmem

theorem traceTo_regsOutside (s : State) (tenant : Nat) (takes : State → Nat → Bool) (unit type layer opid : Nat) (body : List Byte) :
    RegsOutside ((List.range 64).map Reg.telTwStat) s (traceTo s tenant takes unit type layer opid body) := by
  unfold traceTo
  dsimp only
  generalize (if tenant = 0 ∨ 64 ≤ tenant then [0] else [tenant, 0]) = ws
  induction ws generalizing s with
  | nil => exact regsOutside_of_regs_eq rfl
  | cons w ws ih =>
    refine RegsOutside.trans ?_ (ih _)
    dsimp only
    split
    next h =>
      rw [wellOn, Bool.and_assoc, Bool.and_eq_true] at h
      exact putRec_regsOutside s unit (of_decide_eq_true h.1) _
    next => exact regsOutside_of_regs_eq rfl

/-- A register of an existing ring is not a well's. -/
theorem ring_reg_ne_telTwStat {fn r : Nat} (hfn : fn < 64) (hr : r < 16) :
    Reg.hpCrCfg fn r ∉ (List.range 64).map Reg.telTwStat ∧ Reg.hpCqCfg fn r ∉ (List.range 64).map Reg.telTwStat := by
  have hbase (w : Nat) : Reg.telTwStat w = 0x300000 + 0x1200 + w * 8 := rfl
  constructor <;>
  · intro h
    obtain ⟨w, -, hw⟩ := List.mem_map.mp h
    simp only [hbase, Reg.hpCrCfg, Reg.hpCqCfg] at hw
    omega

theorem traceCmd_regsOutside (s : State) (c : Cmd) (done : Bool) : RegsOutside ((List.range 64).map Reg.telTwStat) s (traceCmd s c done) :=
  traceTo_regsOutside s _ _ _ _ _ _ _

section Ring

variable {fn r : Nat} (hfn : fn < 64) (s : State) (c : Cmd)
include hfn

theorem cqOf_traceCmd (hr : r < 16) : cqOf (traceCmd s c true) fn r = cqOf s fn r := by
  rw [cqOf, fld, traceCmd_regsOutside s c true _ (ring_reg_ne_telTwStat hfn hr).1, cqOf, fld]

theorem fld_hpCqCfg_traceCmd {q : Nat} (hq : q < 16) (f : Fld) :
    fld (traceCmd s c true) (Reg.hpCqCfg fn q) f = fld s (Reg.hpCqCfg fn q) f := by
  rw [fld, traceCmd_regsOutside s c true _ (ring_reg_ne_telTwStat hfn hq).2, fld]

end Ring

/-- A message not yet pending is added after what the host was passed before; a masked vector passes none. -/
theorem signal_out {s : State} {fn vec : Nat} (h : s.host.out.contains (.msix fn vec s.clk.now) = false) :
    ∃ rest, (signal s fn vec).host.out = s.host.out ++ rest := by
  unfold signal
  split
  · exact ⟨[], (List.append_nil _).symm⟩
  · refine ⟨[.msix fn vec s.clk.now], congrArg (· ++ _) (List.filter_eq_self.mpr fun x hx => ?_)⟩
    rw [bne_iff_ne]
    rintro rfl
    exact Bool.false_ne_true (h.symm.trans (List.contains_iff_mem.mpr hx))

/-- A completion ring's record and, when the ring is armed or the command asks for it, its message: what the host is shown then. -/
theorem writeRecord_out {s : State} {fn r : Nat} {c : Cmd} {irq : Bool} (hlink : s.host.linkUp = true)
    (hmsg : s.host.out.contains (.msix fn (fld s (Reg.hpCqCfg fn (cqOf s fn r)) HpCqCfg.VEC) s.clk.now) = false) :
    ∃ rest, (writeRecord s fn r c irq).host.out = s.host.out ++
      .record fn (cqOf s fn r) (cq s fn (cqOf s fn r)).widx
        (fld s (Reg.hpCqCfg fn (cqOf s fn r)) HpCqCfg.BASE * 64 + 32 * (cq s fn (cqOf s fn r)).widx)
        (recordBits s c r (cq s fn (cqOf s fn r)).phase) :: rest := by
  have hadd (q i a w : Nat) :
      (s.host.out ++ [HostOut.record fn q i a w]).contains (HostOut.msix fn (fld s (Reg.hpCqCfg fn (cqOf s fn r)) HpCqCfg.VEC) s.clk.now) = false := by
    rw [List.contains_append, hmsg]
    rfl
  rw [writeRecord, hlink, Bool.not_true, if_neg Bool.false_ne_true]
  dsimp only
  split
  · refine Exists.imp (fun rest hrest => hrest.trans (List.append_assoc _ _ _)) (signal_out ?_)
    exact hadd _ _ _ _
  · exact ⟨[], rfl⟩

theorem signal_cmds (s : State) (fn vec : Nat) : (signal s fn vec).host.cmds = s.host.cmds := by
  unfold signal
  split <;> rfl

theorem writeRecord_cmds (s : State) (fn r : Nat) (c : Cmd) (irq : Bool) : (writeRecord s fn r c irq).host.cmds = s.host.cmds := by
  unfold writeRecord
  split
  · rfl
  · dsimp only
    split
    · exact signal_cmds _ _ _
    · rfl

/-- A command among the started ones no more. -/
def withoutCmd (s : State) (id : Nat) : State := { s with host := { s.host with cmds := s.host.cmds.filter fun x => x.id != id } }

/-- One command fewer is under way for a completion ring. -/
def oneLess (s : State) (fn q : Nat) : State := setCq s fn q { cq s fn q with started := (cq s fn q).started - 1 }

theorem cq_oneLess {s : State} (h : tWf (fun _ => ({} : CqRun)) s.host.cqs = true) (fn q : Nat) :
    cq (oneLess s fn q) fn q = { cq s fn q with started := (cq s fn q).started - 1 } := eGet_eSet_same _ _ _ _ h

/-- A ring's command that ends, traced. -/
def ringEnded (s : State) (c : Cmd) (fn r : Nat) : State :=
  oneLess (traceCmd (withoutCmd s c.id) c true) fn (cqOf (traceCmd (withoutCmd s c.id) c true) fn r)

theorem traceCmd_host (s : State) (c : Cmd) (done : Bool) : (traceCmd s c done).host = s.host :=
  (traceCmd_keeps (w := [.obs, .regs]) (by decide) (by decide) (.refl _ _)).only .host (by decide)

theorem ringEnded_keeps (s : State) (c : Cmd) (fn r : Nat) : Keeps [.host, .obs, .regs] s (ringEnded s c fn r) :=
  setCq_keeps (by decide) (traceCmd_keeps (by decide) (by decide) (.host (by decide) (.refl _ s)))

/-- Of what the host is shown nothing has changed yet, nor which functions are being reset, nor the link. -/
theorem ringEnded_host (s : State) (c : Cmd) (fn r : Nat) : (ringEnded s c fn r).host.out = s.host.out ∧
    (ringEnded s c fn r).host.flr = s.host.flr ∧ (ringEnded s c fn r).host.linkUp = s.host.linkUp ∧
    (ringEnded s c fn r).host.cmds = s.host.cmds.filter fun x => x.id != c.id :=
  have h := traceCmd_host (withoutCmd s c.id) c true
  ⟨(congrArg HostState.out h :), (congrArg HostState.flr h :), (congrArg HostState.linkUp h :), (congrArg HostState.cmds h :)⟩

/-- With no record of an allotment for it, a command gives none back. -/
theorem returnGrants_of_none {s : State} {id : Nat} (h : (s.dyn.rsvs.any fun v => Purpose_cmd v.why == some id) = false) :
    returnGrants s id = s := by
  have hnone : (s.dyn.rsvs.filter fun v => Purpose_cmd v.why == some id && v.granted && ! v.released) = [] := by
    rw [List.filter_eq_nil_iff]
    intro v hv hp
    rw [Bool.and_assoc, Bool.and_eq_true] at hp
    exact List.any_eq_false.mp h v hv hp.1
  rw [returnGrants, hnone]
  rfl

/-- NOP and COPY without CEN have no counter to advance. -/
theorem cctrOf_of_no_cen {d : Nat} (hkind : Desc_cmd d = 1 ∨ Desc_cmd d = 2) (hcen : Desc_cen d = false) : cctrOf d = none := by
  unfold cctrOf
  rcases hkind with h | h <;> rw [h] <;> exact if_neg (by rw [hcen]; exact Bool.false_ne_true)

section Complete

variable {s : State} {c : Cmd} {id fn r : Nat} (hcmd : cmdOf s id = some c) (hleft : c.left = 0) (hmay : qpMayFinish s id = true)
  (hsrc : c.src = .ring fn r) (htrig : c.trig = none) (hpoison : c.poison = false) (hkind : Desc_cmd c.desc = 1 ∨ Desc_cmd c.desc = 2)
  (hcen : Desc_cen c.desc = false) (hflr : s.host.flr.contains fn = false) (hadds : s.trig.adds = [])
  (hrets : (s.slu.rets.any fun x => x.cmd == id) = false) (hop : opOfCmd s id = none)
  (hgrants : (s.dyn.rsvs.any fun v => Purpose_cmd v.why == some id) = false) (hfn : fn < 64) (hr : r < 16) (hlink : s.host.linkUp = true)
  (hcqs : tWf (fun _ => ({} : CqRun)) s.host.cqs = true)
  (hmsg : s.host.out.contains (.msix fn (fld s (Reg.hpCqCfg fn (cqOf s fn r)) HpCqCfg.VEC) s.clk.now) = false)

include hsrc hpoison hkind hcen hflr in
/-- A ring's command ends: it leaves the started ones, is traced, and its record is written. -/
theorem finishCmd_of_ring (hg : (s.dyn.rsvs.any fun v => Purpose_cmd v.why == some c.id) = false) :
    finishCmd s c = writeRecord (ringEnded s c fn r) fn r c (Desc_irq c.desc) := by
  have hgr : returnGrants (withoutCmd s c.id) c.id = withoutCmd s c.id := returnGrants_of_none (s := withoutCmd s c.id) hg
  unfold withoutCmd at hgr
  have hflr' : (ringEnded s c fn r).host.flr.contains fn = false := by rw [(ringEnded_host s c fn r).2.1, hflr]
  rw [finishCmd]
  simp only [hpoison, Bool.false_and, Bool.false_eq_true, if_false, hgr, cctrOf_of_no_cen hkind hcen, hsrc]
  exact if_neg fun h => Bool.false_ne_true (hflr'.symm.trans h)

include hcmd hleft hmay hsrc htrig hpoison hkind hcen hflr hadds hrets hop hgrants

/-- With nothing outstanding a ring's NOP or COPY completes with its record. -/
theorem exec_commandComplete_of_ring : exec (.commandComplete id) s = .next (writeRecord (ringEnded s c fn r) fn r c (Desc_irq c.desc)) := by
  have hid : c.id = id := by simpa using List.find?_some hcmd
  subst hid
  have hfin := finishCmd_of_ring hsrc hpoison hkind hcen hflr hgrants
  have hkeep : Keeps [.host, .obs, .regs] s (writeRecord (ringEnded s c fn r) fn r c (Desc_irq c.desc)) :=
    writeRecord_keeps (by decide) (ringEnded_keeps s c fn r)
  have hops : opOfCmd (writeRecord (ringEnded s c fn r) fn r c (Desc_irq c.desc)) c.id = none := by
    rw [opOfCmd, hkeep.only .rte (by decide)]
    exact hop
  have htrigs : (writeRecord (ringEnded s c fn r) fn r c (Desc_irq c.desc)).trig.adds = [] := by
    rw [hkeep.only .trig (by decide), hadds]
  have hret : (s.slu.rets.find? fun x => x.cmd == c.id) = none := by
    rw [List.find?_eq_none]
    exact List.any_eq_false.mp hrets
  have hstat : retStatus s c = c := by
    have hnone : (s.slu.rets.any fun x => x.cmd == c.id && x.psn) = false := by
      rw [List.any_eq_false]
      intro x hx hp
      exact List.any_eq_false.mp hrets x hx (Bool.and_eq_true_iff.mp hp).1
    rw [retStatus, hnone, Bool.and_false, if_neg Bool.false_ne_true]
  have hlast : retDone (lastDone s c) c = s := by
    rw [lastDone, htrig]
    dsimp only
    rw [retDone, hret]
  change execCommandComplete c.id s = _
  rw [execCommandComplete, hcmd]
  dsimp only
  rw [if_neg (by simp [hleft, hmay]), hpoison, Bool.false_and, if_neg Bool.false_ne_true, hstat, hlast, hfin, qpOpDone, hops]
  dsimp only
  rw [settle, htrigs]
  rfl

include hfn hr hlink hcqs hmsg

/-- A ring that exists completes a NOP or COPY as the statement says: its record stands in the completion ring, at the write index. -/
theorem commandComplete_at_ring : ∃ u rest, exec (.commandComplete id) s = .next u ∧ (∀ x ∈ u.host.cmds, x.id ≠ id) ∧
    u.host.out = s.host.out ++ .record fn (cqOf s fn r) (cq s fn (cqOf s fn r)).widx
      (fld s (Reg.hpCqCfg fn (cqOf s fn r)) HpCqCfg.BASE * 64 + 32 * (cq s fn (cqOf s fn r)).widx)
      (recordBits s c r (cq s fn (cqOf s fn r)).phase) :: rest := by
  have hid : c.id = id := by simpa using List.find?_some hcmd
  obtain ⟨hout, -, hup, hcmds⟩ := ringEnded_host s c fn r
  have hq16 : cqOf s fn r < 16 := getF_lt _ HpCrCfg.CQ
  have hq : cqOf (ringEnded s c fn r) fn r = cqOf s fn r := cqOf_traceCmd hfn (withoutCmd s c.id) c hr
  have hcfg (f : Fld) : fld (ringEnded s c fn r) (Reg.hpCqCfg fn (cqOf s fn r)) f = fld s (Reg.hpCqCfg fn (cqOf s fn r)) f :=
    fld_hpCqCfg_traceCmd hfn (withoutCmd s c.id) c hq16 f
  have hclk : (ringEnded s c fn r).clk = s.clk := (ringEnded_keeps s c fn r).only .clk (by decide)
  have hcq : cq (ringEnded s c fn r) fn (cqOf s fn r) = { cq s fn (cqOf s fn r) with started := (cq s fn (cqOf s fn r)).started - 1 } := by
    have hhost := traceCmd_host (withoutCmd s c.id) c true
    have hold : cq (traceCmd (withoutCmd s c.id) c true) fn (cqOf s fn r) = cq s fn (cqOf s fn r) := by rw [cq, hhost]; rfl
    rw [ringEnded, cqOf_traceCmd hfn (withoutCmd s c.id) c hr]
    exact (cq_oneLess (by rw [hhost]; exact hcqs) fn _).trans (congrArg (fun k : CqRun => { k with started := k.started - 1 }) hold)
  have hbits (b : Bool) : recordBits (ringEnded s c fn r) c r b = recordBits s c r b := by rw [recordBits, timeNs, hclk, recordBits, timeNs]
  obtain ⟨rest, hrest⟩ := writeRecord_out (s := ringEnded s c fn r) (fn := fn) (r := r) (c := c) (irq := Desc_irq c.desc) (hup.trans hlink)
    (by rw [hq, hcfg, hclk, hout]; exact hmsg)
  rw [hq, hcfg, hcq, hbits, hout] at hrest
  refine ⟨_, rest, exec_commandComplete_of_ring hcmd hleft hmay hsrc htrig hpoison hkind hcen hflr hadds hrets hop hgrants, ?_, hrest⟩
  rw [writeRecord_cmds, hcmds, hid]
  intro x hx
  simpa using (List.mem_filter.mp hx).2

end Complete

/-! ### A ring that does not exist (R357, R656) -/

/-- What would be the configuration of ring 32 of function 96 is the record counter of well 0. -/
theorem hpCrCfg_of_no_ring : Reg.hpCrCfg 96 32 = Reg.telTwStat 0 := rfl

/-- A NOP of that ring with nothing outstanding, of tenant 1 and executed at tile 0. -/
def strayNop : Cmd := { id := 7, src := .ring 96 32, ex := ⟨0, 0, 0⟩, tenant := 1, desc := 2 ^ 56 }

/-- Well 0 records commands and has lost 511 records; both of tile 0's buffers are to be flushed, so the next record is lost as well. -/
def wellFull : State :=
  let unit := blkUnit (.tni 0)
  let full : TraceBuf := { unit := unit, well := 0, first := 0, recs := [], due := true }
  let s : State := wrReg {} (Reg.telTwCfg 0) (setF (setF 0 TelTwCfg.EN 1) TelTwCfg.CMD 1)
  let s := wrReg s (Reg.telTwStat 0) (setF 0 TelTwStat.LOST 511)
  { s with host := { linkUp := true, cmds := [strayNop] }, obs := { s.obs with bufs := [full, full] } }

theorem strayNop_may_complete : cmdOf wellFull 7 = some strayNop ∧ qpMayFinish wellFull 7 = true ∧ opOfCmd wellFull 7 = none ∧
    Desc_cmd strayNop.desc = 1 ∧ Desc_cen strayNop.desc = false ∧ cqOf wellFull 96 32 = 0 := by
  decide +kernel

/-- The completion's own trace record is lost and counted, and the count reads as a completion ring: the record goes to ring 1. -/
theorem commandComplete_wellFull_ring : ((after (exec (.commandComplete 7) wellFull) wellFull).host.out.map fun x =>
    match x with
    | .record fn q _ _ _ => some (fn, q)
    | _ => none) = [some (96, 1)] := by
  decide +kernel

/-- Refutes O34: the statement ranges over every number of a function and of a ring, also where there is no such ring (`ringOn`). What would be
the configuration of `strayNop`'s ring is a well's record counter (`hpCrCfg_of_no_ring`), which tracing the completion advances, so the record goes
to completion ring 1 and not to ring 0. A ring that exists keeps its completion ring (`cqOf_traceCmd`) and completes as the statement says:
`commandComplete_at_ring`. -/
theorem not_commandsRunAndComplete : ¬ Obligations.CommandsRunAndComplete := by
  intro h
  obtain ⟨-, -, -, -, hcomplete⟩ := h
  obtain ⟨hcmd, hmay, hop, hnop, hcen, hring⟩ := strayNop_may_complete
  obtain ⟨u, rest, hu, -, hout⟩ := hcomplete 7 96 32 strayNop wellFull hcmd rfl hmay rfl rfl rfl (.inl hnop) hcen rfl rfl rfl rfl hop rfl rfl rfl
  have hone := commandComplete_wellFull_ring
  rw [hu, after, hout, hring] at hone
  simp [wellFull, wrReg] at hone

end Sys2Proof.Machine

namespace Sys2Proof.Machine

/-! ### Marks at a context (R267, R278, R279) -/

section Marks

variable {s : State} {m : SpMsg} (hm : markPasses s m = true) (hd : (SpDst m).dep = 4)
include hm hd

theorem exec_open_at_context :
    exec (.open_ m) s = .next (openAt (spTake s m) (ctxAt s (SpDst m).tile (SpCtx m)) m) := by
  change execOpen m s = _
  rw [execOpen, spArrive_passes _ hm, if_pos hd]
  rfl

theorem exec_close_at_context :
    exec (.close m) s = .next (closeAt (spTake s m) (ctxAt s (SpDst m).tile (SpCtx m)) m) := by
  change execClose m s = _
  rw [execClose, spArrive_passes _ hm, if_pos hd]
  rfl

end Marks

/-- A mark of another group than its context's is stale, whatever it says. -/
theorem openAt_of_stale {s : State} {x : Ctx} {m : SpMsg} (h : markOk s x m = false) : openAt s x m = spStale s x.tile := by
  rw [openAt, h]
  rfl

theorem closeAt_of_stale {s : State} {x : Ctx} {m : SpMsg} (h : markOk s x m = false) : closeAt s x m = spStale s x.tile := by
  rw [closeAt, h]
  rfl

/-- An operation whose opening marks have not agreed does not end empty. -/
theorem emptyEnd_of_unopened {s : State} {x : Ctx} (h : (redRun s x).opened = false) : emptyEnd s x = s := by
  unfold emptyEnd
  dsimp only
  rw [h]
  simp

/-- While fewer than NOPS opening marks are in, nothing is compared. -/
theorem openCheck_of_few {s : State} {x : Ctx} (h : ((redRun s x).ins.filterMap RedIn.sig).length < x.nops) : openCheck s x = s :=
  if_pos (.inl h)

section Canonical

variable {s : State} {x : Ctx} {m : SpMsg} (hred : tWf (fun _ => ({} : RedRun)) s.red = true) (hok : markOk s x m = true)
  (hopened : (redRun s x).opened = false)
include hred hok hopened

theorem openAt_of_few {r : RedRun}
    (hr : r = { putInput (redRun s x) { inputOf (redRun s x) (SpRank m) (SpLvl m) with sig := some (SpPay m 0), seq := SpSeq m } with
      step := some ((redRun s x).step.getD s.clk.now) })
    (hfew : (r.ins.filterMap RedIn.sig).length < x.nops) : openAt s x m = setRed s x r := by
  have hrun : redRun (setRed s x r) x = r := redRun_setRed hred x r
  have hunopened : r.opened = false := by rw [hr]; exact hopened
  rw [openAt, hok, Bool.not_true, if_neg Bool.false_ne_true]
  dsimp only
  rw [← hr, openCheck_of_few (by rw [hrun]; exact hfew), emptyEnd_of_unopened (by rw [hrun]; exact hunopened)]

theorem closeAt_of_matching
    (hdone : ((redRun s x).done.all fun j => ! (j.rank == SpRank m && j.lvl == SpLvl m && j.seq == SpSeq m)) = true)
    (hdig : (inputOf (redRun s x) (SpRank m) (SpLvl m)).n < x.halves ∨ SpPay m 0 = (inputOf (redRun s x) (SpRank m) (SpLvl m)).dig) :
    closeAt s x m =
      setRed s x (putInput (redRun s x) { inputOf (redRun s x) (SpRank m) (SpLvl m) with close := some (SpPay m 0) }) := by
  have hnone : ((redRun s x).done.find? fun j => j.rank == SpRank m && j.lvl == SpLvl m && j.seq == SpSeq m) = none := by
    rw [List.find?_eq_none]
    intro j hj hhit
    have := List.all_eq_true.mp hdone j hj
    rw [hhit] at this
    exact absurd this (by decide)
  rw [closeAt, hok, Bool.not_true, if_neg Bool.false_ne_true]
  dsimp only
  rw [hnone]
  dsimp only
  rw [closeCheck]
  dsimp only
  rw [if_pos hdig, emptyEnd_of_unopened (by rw [redRun_setRed hred]; exact hopened)]

end Canonical

/-! ### Results at a landing (R263, R280) -/

theorem landCheck_of_waiting {s : State} {t i : Nat} {o : CollOp} (hop : opOf s t i = some o) (h : landOutcome s o = none) :
    landCheck s t i = s := by
  rw [landCheck, hop]
  dsimp only
  rw [h]

theorem landCheck_of_ok {s : State} {t i : Nat} {o : CollOp} (hop : opOf s t i = some o) (h : landOutcome s o = some .ok) :
    landCheck s t i = collEnd s o .ok 0 := by
  rw [landCheck, hop]
  dsimp only
  rw [h]

/-- A RESULT at a landing of a running operation sets the landing's mark, and the landings are compared. -/
theorem exec_result_at_landing {s : State} {m : SpMsg} (hm : markPasses s m = true) (hd : (SpDst m).dep = 0)
    (hten : fld s (landReg (SpDst m).tile (SpCtx m)) TniLand.TENANT = SpTenant m)
    (hgrp : grpId s (fld s (landReg (SpDst m).tile (SpCtx m)) TniLand.GIDX) = (SpGroup m, SpEpoch m))
    {o : CollOp} (hop : opOf s (SpDst m).tile (fld s (landReg (SpDst m).tile (SpCtx m)) TniLand.GIDX) = some o)
    (hinj : injArmed s (.tni (SpDst m).tile) .digest (fun k => k == 1) = false) :
    exec (.result m) s = .next (sluWake (landCheck (setLand (spTake s m) (SpDst m).tile (SpCtx m)
      { landRun s (SpDst m).tile (SpCtx m) with mark := some (SpPay m 0) }) (SpDst m).tile
      (fld s (landReg (SpDst m).tile (SpCtx m)) TniLand.GIDX))) := by
  have hten' : fld (spTake s m) (landReg (SpDst m).tile (SpCtx m)) TniLand.TENANT = SpTenant m := hten
  have hgrp' : grpId (spTake s m) (fld (spTake s m) (landReg (SpDst m).tile (SpCtx m)) TniLand.GIDX) = (SpGroup m, SpEpoch m) := hgrp
  have hop' : (opOf (spTake s m) (SpDst m).tile (fld (spTake s m) (landReg (SpDst m).tile (SpCtx m)) TniLand.GIDX)).isNone = false :=
    congrArg Option.isNone hop
  have hinj' : injArmed (spTake s m) (.tni (SpDst m).tile) .digest (fun k => k == 1) = false := hinj
  change execResult m s = _
  rw [execResult, spArrive_passes _ hm, if_pos hd, resultAt]
  dsimp only
  rw [hten', hgrp', hop', hinj', if_neg (by simp), show SpPay m 0 ^^^ b2n false = SpPay m 0 from Nat.xor_zero _]
  rfl

/-- The length of a member's result depends on the registers alone. -/
theorem dstLen_of_regs_eq {s u : State} (h : u.regs = s.regs) (t d : Nat) : dstLen u t d = dstLen s t d := by
  have hn : grpN u = grpN s := funext fun i => by rw [grpN, fld_of_regs_eq h, grpN]
  have hr : memberRank u = memberRank s := funext fun t => funext fun i => by rw [memberRank, fld_of_regs_eq h, memberRank]
  delta dstLen outElems
  rw [hn, hr]

/-- Landing marks and progress leave the running operations. -/
theorem opOf_of_ops_eq {s u : State} (h : u.coll.ops = s.coll.ops) (t i : Nat) : opOf u t i = opOf s t i := by rw [opOf, h, opOf]

section Result

variable {s : State} {m : SpMsg} {o : CollOp} (hm : markPasses s m = true) (hd : (SpDst m).dep = 0) (hs : s.slu.ops = [])
  (hten : fld s (landReg (SpDst m).tile (SpCtx m)) TniLand.TENANT = SpTenant m)
  (hgrp : grpId s (fld s (landReg (SpDst m).tile (SpCtx m)) TniLand.GIDX) = (SpGroup m, SpEpoch m))
  (hop : opOf s (SpDst m).tile (fld s (landReg (SpDst m).tile (SpCtx m)) TniLand.GIDX) = some o)
  (hinj : injArmed s (.tni (SpDst m).tile) .digest (fun k => k == 1) = false)

/-- A landing's mark set by a RESULT. -/
def landMarked (s : State) (m : SpMsg) : State :=
  setLand (spTake s m) (SpDst m).tile (SpCtx m) { landRun s (SpDst m).tile (SpCtx m) with mark := some (SpPay m 0) }

include hm hd hs hten hgrp hop hinj

theorem exec_result_of_waiting (hout : landOutcome (landMarked s m) o = none) : exec (.result m) s = .next (landMarked s m) := by
  rw [exec_result_at_landing hm hd hten hgrp hop hinj]
  exact congrArg _ ((congrArg sluWake (landCheck_of_waiting (s := landMarked s m) hop hout)).trans (sluWake_of_no_ops hs))

theorem exec_result_of_complete (hout : landOutcome (landMarked s m) o = some .ok) :
    exec (.result m) s = .next (collEnd (landMarked s m) o .ok 0) := by
  rw [exec_result_at_landing hm hd hten hgrp hop hinj]
  exact congrArg _ ((congrArg sluWake (landCheck_of_ok (s := landMarked s m) hop hout)).trans
    (sluWake_of_no_ops (collEnd_slu (s := landMarked s m) .ok 0 hs)))

end Result

/-! ### RED_RESULT at a landing (R216, R263) -/

/-- The packet's positions decoded at a landing are written there, and what their decoding rounded is counted. -/
def landWritten (s : State) (p : Pkt) (o : CollOp) (hs : List RedHalf) (ev : FmtEvents) : State :=
  hs.foldl (fun s h => landHalf s p.dst.tile (RaCtx p.addr) o.desc p.poison h) (tniFmt s p.dst.tile { ev with isat := 0 })

/-- A register that is no watcher's status. -/
def NoWatch (a : Nat) : Prop := ∀ t k, k < 4 → a ≠ Reg.tniWatchStat t k

theorem inj_noWatch (t : Nat) : NoWatch (injReg (.tni t)) := by
  intro u k hk h
  simp only [injReg, Reg.inj, Reg.tniWatchStat, Blk.base] at h
  omega

theorem store_regs (s : State) (b : Nat) (bs : List Byte) (psn : Bool) : (store s b bs psn).regs = s.regs :=
  ((store_keeps (w := [.mem, .memPoison]) (by decide) (by decide) (.refl _ s)).only .regs (by decide)).1

section Watched

variable {a : Nat} (ha : NoWatch a)
include ha

theorem rd_watchMark {k : Nat} (hk : k < 4) (s : State) (t b n : Nat) : rd (watchMark s t b n k) a = rd s a := by
  unfold watchMark
  split
  · dsimp only
    split
    · rfl
    · split
      · exact rd_setFld_ne _ _ _ (ha t k hk)
      · rfl
  · rfl

theorem rd_sramNote (s : State) (b n : Nat) : rd (sramNote s b n) a = rd s a := by
  unfold sramNote
  split
  · dsimp only
    generalize evenTile s (regOff b / 0x1000000) = t
    have hfold (ks : List Nat) (hks : ∀ k ∈ ks, k < 4) (s : State) : rd (ks.foldl (fun s k => watchMark s t b n k) s) a = rd s a := by
      induction ks generalizing s with
      | nil => rfl
      | cons k ks ih => exact (ih (fun j hj => hks j (.tail _ hj)) _).trans (rd_watchMark ha (hks k (.head _)) s t b n)
    exact hfold _ (fun k hk => List.mem_range.mp hk) s
  · rfl

theorem rd_storeFabric (s : State) (fn b : Nat) (bs : List Byte) (psn : Bool) : rd (storeFabric s fn b bs psn) a = rd s a := by
  unfold storeFabric
  split
  · rfl
  · exact (rd_sramNote ha _ _ _).trans (rd_of_regs_eq (store_regs _ _ _ _) a)

theorem rd_landHalf (s : State) (t l d : Nat) (psn : Bool) (h : RedHalf) : rd (landHalf s t l d psn h) a = rd s a := by
  have hput (s : State) (c : Prop) [Decidable c] (fn b : Nat) (bs : List Byte) :
      rd (if c then s else storeFabric s fn b bs psn) a = rd s a := by
    split
    · rfl
    · exact rd_storeFabric ha s fn b bs psn
  exact (hput _ _ _ _ _).trans (hput s _ _ _ _)

theorem rd_landWritten {s : State} {p : Pkt} (hfmt : a ≠ Reg.tniFmtStat p.dst.tile) (o : CollOp) (hs : List RedHalf) (ev : FmtEvents) :
    rd (landWritten s p o hs ev) a = rd s a := by
  have hfold (hs : List RedHalf) (s : State) :
      rd (hs.foldl (fun s h => landHalf s p.dst.tile (RaCtx p.addr) o.desc p.poison h) s) a = rd s a := by
    induction hs generalizing s with
    | nil => rfl
    | cons h hs ih => exact (ih _).trans (rd_landHalf ha s _ _ _ _ h)
  refine (hfold hs _).trans ?_
  simp only [tniFmt, bump, rd_setFld_ne _ _ _ hfmt]

end Watched

theorem landWritten_keeps (s : State) (p : Pkt) (o : CollOp) (hs : List RedHalf) (ev : FmtEvents) :
    Keeps [.coll, .host, .mem, .memPoison, .obs, .regs] s (landWritten s p o hs ev) :=
  Keeps.foldl (tniFmt_keeps (by decide) (.refl _ s)) fun _ _ h =>
    landHalf_keeps (by decide) (by decide) (by decide) (by decide) (by decide) (by decide) h

theorem storeFabric_coll (s : State) (fn a : Nat) (bs : List Byte) (psn : Bool) : (storeFabric s fn a bs psn).coll = s.coll :=
  (storeFabric_keeps (w := [.host, .mem, .memPoison, .obs, .regs]) (by decide) (by decide) (by decide) (by decide) (by decide)
    (.refl _ s)).only .coll (by decide)

theorem landHalf_ops (s : State) (t l d : Nat) (psn : Bool) (h : RedHalf) : (landHalf s t l d psn h).coll.ops = s.coll.ops := by
  have hput (s : State) (c : Prop) [Decidable c] (fn b : Nat) (bs : List Byte) :
      (if c then s else storeFabric s fn b bs psn).coll.ops = s.coll.ops := by
    split
    · rfl
    · rw [storeFabric_coll]
  exact (hput _ _ _ _ _).trans (hput s _ _ _ _)

theorem landWritten_ops (s : State) (p : Pkt) (o : CollOp) (hs : List RedHalf) (ev : FmtEvents) :
    (landWritten s p o hs ev).coll.ops = s.coll.ops := by
  have hfold (hs : List RedHalf) (s : State) :
      (hs.foldl (fun s h => landHalf s p.dst.tile (RaCtx p.addr) o.desc p.poison h) s).coll.ops = s.coll.ops := by
    induction hs generalizing s with
    | nil => rfl
    | cons h hs ih => exact (ih _).trans (landHalf_ops s _ _ _ _ h)
  exact (hfold hs _).trans rfl

section RedResult

variable {s : State} {p : Pkt} {o : CollOp} {hs : List RedHalf} {a b : Nat} {ev : FmtEvents} (hslu : s.slu.ops = [])
  (hten : fld s (landReg p.dst.tile (RaCtx p.addr)) TniLand.TENANT = p.tenant)
  (hop : opOf s p.dst.tile (fld s (landReg p.dst.tile (RaCtx p.addr)) TniLand.GIDX) = some o)
  (hfmt : p.efmt = wireEfmt (ColEfmt o.desc) (ColWire o.desc)) (hsfmt : p.sfmt = 0 ∨ ColWire o.desc = 0)
  (hgood : decodeContrib (landCtx s p.dst.tile (RaCtx p.addr) o.desc) { p with src := { p.src with dep := 4 } } = .good hs a b ev)

/-- The state in which a RED_RESULT's positions are written and counted. -/
def landTaken (s : State) (p : Pkt) (o : CollOp) (hs : List RedHalf) (a b : Nat) (ev : FmtEvents) : State :=
  landCount (landWritten s p o hs ev) p.dst.tile (RaCtx p.addr) (b - a)

include hten hop hfmt hsfmt hgood in
/-- A RED_RESULT in the format its operation requires is written, counted and acknowledged, and the landings are compared. -/
theorem landResult_of_good : landResult s p = landCheck (ackTo (landTaken s p o hs a b ev) p .ok) p.dst.tile
    (fld s (landReg p.dst.tile (RaCtx p.addr)) TniLand.GIDX) := by
  rw [landResult]
  dsimp only
  rw [hten, if_neg (not_not_intro rfl), hop]
  dsimp only
  rw [if_pos ⟨hfmt, hsfmt⟩, hgood]
  rfl

theorem landTaken_ops (s : State) (p : Pkt) (o : CollOp) (hs : List RedHalf) (a b : Nat) (ev : FmtEvents) :
    (ackTo (landTaken s p o hs a b ev) p .ok).coll.ops = s.coll.ops := by
  have hack : (ackTo (landTaken s p o hs a b ev) p .ok).coll = (landTaken s p o hs a b ev).coll :=
    (ackTo_keeps (w := [.dyn, .free, .lane, .obs, .regs, .rel]) (by decide) (by decide) (by decide) (by decide) (by decide) (by decide)
      (.refl _ _)).only .coll (by decide)
  rw [hack]
  exact landWritten_ops s p o hs ev

theorem landTaken_adds (s : State) (p : Pkt) (o : CollOp) (hs : List RedHalf) (a b : Nat) (ev : FmtEvents) :
    (ackTo (landTaken s p o hs a b ev) p .ok).trig.adds = s.trig.adds ++
      [⟨Reg.ctr (.tni p.dst.tile) (fld (landTaken s p o hs a b ev) (landReg p.dst.tile (RaCtx p.addr)) TniLand.CTR), b - a, none⟩] := by
  have hack : (ackTo (landTaken s p o hs a b ev) p .ok).trig = (landTaken s p o hs a b ev).trig :=
    (ackTo_keeps (w := [.dyn, .free, .lane, .obs, .regs, .rel]) (by decide) (by decide) (by decide) (by decide) (by decide) (by decide)
      (.refl _ _)).only .trig (by decide)
  have hwritten : (landWritten s p o hs ev).trig = s.trig := (landWritten_keeps s p o hs ev).only .trig (by decide)
  rw [hack]
  exact congrArg (fun x : TrigState => x.adds ++ [_]) hwritten

theorem plainSend_landTaken (hk : Ep_kind p.dst = .tile) (h : plainSend s p = true) : plainSend (landTaken s p o hs a b ev) p = true := by
  have hinj : rd (landTaken s p o hs a b ev) (injReg (epBlk p.dst)) = rd s (injReg (epBlk p.dst)) := by
    rw [epBlk_tile (.inl hk)]
    refine rd_landWritten (inj_noWatch _) ?_ o hs ev
    simp only [injReg, Reg.inj, Reg.tniFmtStat, Blk.base]
    omega
  rw [plainSend, flag, fld, hinj]
  exact h

include hslu in
theorem landTaken_slu : (ackTo (landTaken s p o hs a b ev) p .ok).slu.ops = [] := by
  have hack : (ackTo (landTaken s p o hs a b ev) p .ok).slu = (landTaken s p o hs a b ev).slu :=
    (ackTo_keeps (w := [.dyn, .free, .lane, .obs, .regs, .rel]) (by decide) (by decide) (by decide) (by decide) (by decide) (by decide)
      (.refl _ _)).only .slu (by decide)
  have hwritten : (landWritten s p o hs ev).slu = s.slu := (landWritten_keeps s p o hs ev).only .slu (by decide)
  rw [hack]
  exact (congrArg SluState.ops hwritten).trans hslu

end RedResult

section AtTile

variable {s : State} {p : Pkt} (hpass : passesChecks s p = true) (hk : Ep_kind p.dst = .tile)
include hpass hk

theorem exec_redResult_at_tile : exec (.redResult p) s = .next (sluWake (landResult (received s p) p)) := by
  change execRedResult p s = _
  rw [execRedResult, arrive_passes _ hpass, if_pos hk]

end AtTile

/-! ### Aborts (R282) -/

/-- Messages put on the standpipe. -/
def spSent (s : State) (l : List (Ep × SpMsg)) : State := { s with coll := { s.coll with spNet := s.coll.spNet ++ l } }

theorem spSent_spSent (s : State) (l r : List (Ep × SpMsg)) : spSent (spSent s l) r = spSent s (l ++ r) := by
  simp only [spSent, List.append_assoc]

/-- Messages sent one after another from a tile where no injection is armed. -/
theorem foldl_spSend (t : Nat) (f : Nat → SpMsg) (l : List Nat) {s : State} (h : injArmed s (.rtr t) .spchk (fun _ => true) = false) :
    l.foldl (fun s c => spSend s ⟨myChip s, t, 0⟩ (f c)) s = spSent s (l.map fun c => (⟨myChip s, t, 0⟩, SpStamp (f c))) := by
  induction l generalizing s with
  | nil => rw [spSent, List.map_nil, List.append_nil]; rfl
  | cons c l ih =>
    have hsend : spSend s ⟨myChip s, t, 0⟩ (f c) = spSent s [(⟨myChip s, t, 0⟩, SpStamp (f c))] := by
      rw [spSend, h]
      rfl
    rw [List.foldl_cons, hsend, ih (s := spSent s _) h, spSent_spSent]
    rfl

/-- The first ABORT_REQ of an operation noted. -/
def abortNoted (s : State) (m : SpMsg) : State :=
  { spTake s m with coll := { (spTake s m).coll with aborts := s.coll.aborts ++ [(SpTenant m, SpGroup m, SpEpoch m, SpSeq m)] } }

/-- ABORT for a member package. -/
def abortTo (m : SpMsg) (ch : Nat) : SpMsg :=
  grpMsg .abort (SpTenant m) ⟨ch, 0, 0⟩ 0 true (SpGroup m, SpEpoch m) (SpRank m) (SpLvl m) (SpSeq m) (SpPay m 0)

/-- ABORT on its way to every member package. -/
def abortSent (s : State) (m : SpMsg) : State :=
  spSent (abortNoted s m) ((memberChips s (SpTenant m) (SpGroup m) (SpEpoch m)).map fun ch =>
    (⟨myChip s, (SpDst m).tile, 0⟩, SpStamp (abortTo m ch)))

section AbortReq

variable {s : State} {m : SpMsg} {i : Nat} (hm : markPasses s m = true) (hg : grpOf s m = some i) (ht : grpTenant s i = SpTenant m)
include hm hg ht

theorem exec_abortReq_again (h : s.coll.aborts.contains (SpTenant m, SpGroup m, SpEpoch m, SpSeq m) = true) :
    exec (.abortReq m) s = .next (spTake s m) := by
  have hg' : grpOf (spTake s m) m = some i := (grpOf_of_regs_eq (spTake_regs s m) m).trans hg
  have ht' : grpTenant (spTake s m) i = SpTenant m := ht
  have h' : (spTake s m).coll.aborts.contains (SpTenant m, SpGroup m, SpEpoch m, SpSeq m) = true := h
  change execAbortReq m s = _
  rw [execAbortReq, spArrive_passes _ hm, hg']
  dsimp only
  rw [ht', if_neg (not_not_intro rfl), h', if_pos rfl]

theorem exec_abortReq_first (h : s.coll.aborts.contains (SpTenant m, SpGroup m, SpEpoch m, SpSeq m) = false)
    (hinj : injArmed s (.rtr (SpDst m).tile) .spchk (fun _ => true) = false) : exec (.abortReq m) s = .next (abortSent s m) := by
  have hg' : grpOf (spTake s m) m = some i := (grpOf_of_regs_eq (spTake_regs s m) m).trans hg
  have ht' : grpTenant (spTake s m) i = SpTenant m := ht
  have h' : (spTake s m).coll.aborts.contains (SpTenant m, SpGroup m, SpEpoch m, SpSeq m) = false := h
  change execAbortReq m s = _
  rw [execAbortReq, spArrive_passes _ hm, hg']
  dsimp only
  rw [ht', if_neg (not_not_intro rfl), h', if_neg Bool.false_ne_true]
  exact congrArg _ (foldl_spSend (SpDst m).tile (abortTo m) _ (s := abortNoted s m) hinj)

end AbortReq

/-- Operations ended one after another. -/
def opsEnded (s : State) (os : List CollOp) (st : Status) (d : Nat) : State := os.foldl (fun s o => collEnd s o st d) s

theorem opsEnded_ops (s : State) (os : List CollOp) (st : Status) (d : Nat) :
    (opsEnded s os st d).coll.ops = s.coll.ops.filter fun x => ! os.any fun o => x.tile == o.tile && x.gidx == o.gidx := by
  induction os generalizing s with
  | nil => exact (List.filter_eq_self.mpr fun _ _ => rfl).symm
  | cons o os ih =>
    refine (ih (collEnd s o st d)).trans ?_
    rw [collEnd_ops, List.filter_filter]
    refine List.filter_congr fun x _ => ?_
    rw [List.any_cons, Bool.not_or, Bool.and_comm]

theorem opsEnded_slu {s : State} (os : List CollOp) (st : Status) (d : Nat) (h : s.slu.ops = []) : (opsEnded s os st d).slu.ops = [] := by
  induction os generalizing s with
  | nil => exact h
  | cons o os ih => exact ih (collEnd_slu st d h)

theorem opsEnded_wf {s : State} (os : List CollOp) (st : Status) (d : Nat) (h : s.wf = true) : (opsEnded s os st d).wf = true := by
  induction os generalizing s with
  | nil => exact h
  | cons o os ih => exact ih (collEnd_wf h o st d)

/-- A group's entries disarmed at every unit, and its contexts cleared. -/
def groupStilled (s : State) (i : Nat) : State := clearContexts (trigUnits.foldl (fun s b => disarmGroup s b i) s) i

theorem groupStilled_keeps (s : State) (i : Nat) : Keeps [.dyn, .free, .lane, .obs, .red, .regs, .rel, .trig] s (groupStilled s i) :=
  clearContexts_keeps (by decide) (by decide) (by decide) (by decide) (by decide) (by decide) (by decide)
    (Keeps.foldl (.refl _ s) fun _ _ h => disarmGroup_keeps (by decide) (by decide) h)

/-- A group aborted at this package: its operations ended, its entries and contexts at rest. -/
def groupAborted (s : State) (m : SpMsg) (i : Nat) : State :=
  groupStilled (opsEnded (spTake s m) ((spTake s m).coll.ops.filter fun o => o.gidx == i) (Status.ofCode (bits (SpPay m 0) 7 0)) (bits (SpPay m 0) 21 8)) i

/-- Once its operations have ended no operation of a group is left. -/
theorem not_mem_opsEnded {s : State} {i : Nat} {st : Status} {d : Nat} :
    ∀ o ∈ (opsEnded s (s.coll.ops.filter fun o => o.gidx == i) st d).coll.ops, o.gidx ≠ i := by
  intro o ho hi
  rw [opsEnded_ops] at ho
  obtain ⟨hmem, hkept⟩ := List.mem_filter.mp ho
  have hany : (s.coll.ops.filter fun x => x.gidx == i).any (fun x => o.tile == x.tile && o.gidx == x.gidx) = true :=
    List.any_eq_true.mpr ⟨o, List.mem_filter.mpr ⟨hmem, by simp [hi]⟩, by simp⟩
  rw [hany] at hkept
  exact absurd hkept (by decide)

/-- The operations of other groups go on. -/
theorem mem_opsEnded {s : State} {i : Nat} {st : Status} {d : Nat} {o : CollOp} (ho : o ∈ s.coll.ops) (hi : o.gidx ≠ i) :
    o ∈ (opsEnded s (s.coll.ops.filter fun o => o.gidx == i) st d).coll.ops := by
  rw [opsEnded_ops]
  refine List.mem_filter.mpr ⟨ho, ?_⟩
  rw [Bool.not_eq_true', List.any_eq_false]
  intro x hx hhit
  have hx' : x.gidx = i := by simpa using (List.mem_filter.mp hx).2
  have hhit' : o.tile = x.tile ∧ o.gidx = x.gidx := by simpa using hhit
  exact hi (hhit'.2.trans hx')

theorem groupStilled_coll (s : State) (i : Nat) : (groupStilled s i).coll = s.coll := (groupStilled_keeps s i).only .coll (by decide)

theorem exec_abort {s : State} {m : SpMsg} {i : Nat} (hm : markPasses s m = true) (hs : s.slu.ops = []) (hg : grpOf s m = some i)
    (ht : grpTenant s i = SpTenant m) :
    exec (.abort m) s = .next (setFld (groupAborted s m i) (Reg.fabGrpA i) FabGrpA.STATE 2) := by
  have hg' : grpOf (spTake s m) m = some i := (grpOf_of_regs_eq (spTake_regs s m) m).trans hg
  have ht' : grpTenant (spTake s m) i = SpTenant m := ht
  have hslu : (setFld (groupAborted s m i) (Reg.fabGrpA i) FabGrpA.STATE 2).slu.ops = [] := by
    rw [setFld_slu, groupAborted, (groupStilled_keeps _ i).only .slu (by decide)]
    exact opsEnded_slu _ _ _ hs
  change execAbort m s = _
  rw [execAbort, spArrive_passes _ hm, hg']
  dsimp only
  rw [ht', if_neg (not_not_intro rfl)]
  have hwake := sluWake_of_no_ops hslu
  unfold groupAborted groupStilled opsEnded at hwake ⊢
  rw [hwake]

/-! ### Freezes (R641, R642) -/

theorem putRec_latched (s : State) (unit w : Nat) (r : List Byte) : (putRec s unit w r).obs.latched = s.obs.latched := by
  unfold putRec
  dsimp only
  split
  · rfl
  · split <;> rfl

/-- A trace record leaves what a freeze has latched. -/
theorem traceMark_latched (s : State) (unit event v : Nat) : (traceMark s unit event v).obs.latched = s.obs.latched := by
  unfold traceMark traceTo
  dsimp only
  generalize (if (0 : Nat) = 0 ∨ 64 ≤ 0 then [0] else [0, 0]) = ws
  induction ws generalizing s with
  | nil => rfl
  | cons w ws ih =>
    refine (ih _).trans ?_
    dsimp only
    split
    · exact putRec_latched s unit w _
    · rfl

theorem traceMark_wf {s : State} (h : s.wf = true) (unit event v : Nat) : (traceMark s unit event v).wf = true :=
  (traceMark_keeps (w := [.obs, .regs]) (by decide) (by decide) (.refl _ s)).wf h

/-- TEL_FRZ_STAT is not a well's. -/
theorem rd_frzStat_traceMark (s : State) (unit event v : Nat) : rd (traceMark s unit event v) Reg.telFrzStat = rd s Reg.telFrzStat := by
  refine traceTo_regsOutside s _ _ _ _ _ _ _ _ fun h => ?_
  obtain ⟨w, -, hw⟩ := List.mem_map.mp h
  simp only [Reg.telTwStat, Reg.telFrzStat, Blk.base] at hw
  omega

theorem fld_frzStat_traceMark (s : State) (unit event v : Nat) (f : Fld) : fld (traceMark s unit event v) Reg.telFrzStat f = fld s Reg.telFrzStat f := by
  rw [fld, rd_frzStat_traceMark, fld]

/-- The registers latched. -/
def latchedNow (s : State) : State := { s with obs := { s.obs with latched := some s.regs } }

/-- A freeze that acts: the registers latched, FROZEN set, its number and the time kept, and a mark traced. -/
def frozenNow (s : State) (no : Nat) : State :=
  let t := setFld (setFld (latchedNow s) Reg.telFrzStat TelFrzStat.FROZEN 1) Reg.telFrzStat TelFrzStat.FRZNO no
  traceMark (setFld t Reg.telFrzTime TelFrzTime.TIME (timeNs t)) markUnit 1 no

theorem freezeNow_of_thawed {s : State} (h : isFrozen s = false) (no : Nat) : freezeNow s false (some no) = frozenNow s no := by
  rw [freezeNow, h]
  rfl

theorem frozenNow_latched (s : State) (no : Nat) : (frozenNow s no).obs.latched.isSome = true := by
  rw [frozenNow, traceMark_latched]
  rfl

section Frozen

variable {s : State} (h : s.wf = true) (no : Nat)
include h

theorem frozenNow_FRZNO : fld (frozenNow s no) Reg.telFrzStat TelFrzStat.FRZNO = no % 2 ^ 32 := by
  rw [frozenNow, fld_frzStat_traceMark, fld_setFld_ne _ _ _ _ (by decide)]
  exact fld_setFld_same _ _ _ (setFld_wf (s := latchedNow s) h) (by decide) (by decide)

theorem frozenNow_FROZEN : flag (frozenNow s no) Reg.telFrzStat TelFrzStat.FROZEN = true := by
  rw [flag, frozenNow, fld_frzStat_traceMark, fld_setFld_ne _ _ _ _ (by decide),
    fld_setFld_apart (setFld_wf (s := latchedNow s) h) _ _ (by decide) (by decide) (by decide),
    fld_setFld_same (latchedNow s) _ _ h (by decide) (by decide)]
  rfl

end Frozen

/-- A freeze that comes too late, counted and marked. -/
def lateMarked (s : State) (no : Nat) : State := traceMark (bump s Reg.telFrzStat TelFrzStat.LATE 1) markUnit 3 no

theorem lateMarked_wf {s : State} (h : s.wf = true) (no : Nat) : (lateMarked s no).wf = true := traceMark_wf (setFld_wf h) _ _ _

theorem isFrozen_lateMarked {s : State} (h : s.wf = true) (no : Nat) : isFrozen (lateMarked s no) = isFrozen s := by
  rw [isFrozen, flag, lateMarked, fld_frzStat_traceMark, bump, fld_setFld_apart h _ _ (by decide) (by decide) (by decide)]
  rfl

section Freeze

variable {s : State} {m : SpMsg} (hm : markPasses s m = true) (hk : SpKindOf m = .freeze)
include hm hk

/-- A freeze whose time is to come is kept until then. -/
theorem exec_freeze_of_early (ht : fineNow s < SpWord m 1) : exec (.freeze m) s =
    .next { spTake s m with obs := { s.obs with apply := s.obs.apply ++ [(SpWord m 1, bit (SpPay m 0) 0, bits (SpPay m 0) 63 32)] } } := by
  have ht' : ¬ SpWord m 1 ≤ fineNow (spTake s m) := Nat.not_le.mpr ht
  change execFreeze m s = _
  rw [execFreeze, spArrive_passes _ hm, if_neg (not_not_intro hk)]
  dsimp only
  rw [if_neg ht']
  rfl

/-- A freeze whose time has passed acts at once. -/
theorem exec_freeze_of_late (hwf : s.wf = true) (ht : SpWord m 1 ≤ fineNow s) (hf : isFrozen s = false) (hb : bit (SpPay m 0) 0 = false) :
    exec (.freeze m) s =
      .next (frozenNow (lateMarked (spTake s m) (bits (SpPay m 0) 63 32)) (bits (SpPay m 0) 63 32)) := by
  have ht' : SpWord m 1 ≤ fineNow (spTake s m) := ht
  have hf' : isFrozen (lateMarked (spTake s m) (bits (SpPay m 0) 63 32)) = false := (isFrozen_lateMarked (s := spTake s m) hwf _).trans hf
  change execFreeze m s = _
  rw [execFreeze, spArrive_passes _ hm, if_neg (not_not_intro hk)]
  dsimp only
  rw [if_pos ht', hb]
  exact congrArg _ (freezeNow_of_thawed hf' _)

end Freeze

/-- Settles O27: marks at a context and at a landing, aborts and freezes each by the equations of their command. -/
theorem marksDecideCollectives : Obligations.MarksDecideCollectives := by
  refine ⟨fun m s hm hd hred => ⟨fun hok => ?_, fun hok hopened hfew => ?_, fun hok hopened hdone hdig => ?_⟩, ?_, ?_, ?_, ?_, ?_⟩
  · exact ⟨(exec_open_at_context hm hd).trans (congrArg _ (openAt_of_stale (s := spTake s m) hok)),
      (exec_close_at_context hm hd).trans (congrArg _ (closeAt_of_stale (s := spTake s m) hok))⟩
  · exact (exec_open_at_context hm hd).trans (congrArg _ (openAt_of_few (s := spTake s m) hred hok hopened rfl hfew))
  · exact (exec_close_at_context hm hd).trans (congrArg _ (closeAt_of_matching (s := spTake s m) hred hok hopened hdone hdig))
  · intro m o s hm hd hs
    dsimp only
    intro hten hgrp hop hinj
    refine ⟨exec_result_of_waiting hm hd hs hten hgrp hop hinj, fun hout hc hlands htile hgidx => ?_⟩
    have hsound : landsSound (landMarked s m) o := by
      rw [landsSound, htile, hgidx]
      exact hlands
    have hregs : (collCleared (landMarked s m) o).regs = s.regs := (collCleared_regs hsound).trans rfl
    refine ⟨_, exec_result_of_complete hm hd hs hten hgrp hop hinj hout, ?_, ?_, ?_⟩
    · exact opOf_filter_ops (s := landMarked s m) (by rw [collEnd_ops, htile, hgidx])
    · rw [collEnd_of_sound 0 hc rfl hsound]
      exact hregs
    · rw [collEnd_of_sound 0 hc rfl hsound, dstLen_of_regs_eq hregs, htile]
      exact congrArg (fun h => updFirst _ _ (HostState.cmds h)) (collCleared_host (landMarked s m) o)
  · intro p o hs a b ev s hpass hk hslu hplain
    dsimp only
    intro hten hop hfmt hsfmt hgood hout
    have hslu' : (received s p).slu.ops = [] := by
      rw [(received_keeps s p).only .slu (by decide)]
      exact hslu
    have hwait := landCheck_of_waiting ((opOf_of_ops_eq (landTaken_ops (received s p) p o hs a b ev) _ _).trans hop) hout
    refine ⟨?_, ackTo_answered (plainSend_landTaken hk hplain), landTaken_adds (received s p) p o hs a b ev⟩
    rw [exec_redResult_at_tile hpass hk, landResult_of_good hten hop hfmt hsfmt hgood]
    exact congrArg _ ((congrArg sluWake hwait).trans (sluWake_of_no_ops (landTaken_slu hslu')))
  · intro m i s hm hg ht
    refine ⟨exec_abortReq_again hm hg ht, fun hnew hinj => ⟨_, exec_abortReq_first hm hg ht hnew hinj, ?_, rfl, rfl⟩⟩
    exact (Keeps.coll (by decide) (spTake_keeps (m := m) (by decide) (.refl [.coll] s))).only
  · intro m i s hwf hm hs hg ht
    refine ⟨_, exec_abort hm hs hg ht, ?_, ?_, fun o ho hi => ?_⟩
    · have hw : (groupAborted s m i).wf = true := (groupStilled_keeps _ i).wf (opsEnded_wf (s := spTake s m) _ _ _ hwf)
      rw [fld_setFld_same _ _ _ hw (by decide) (by decide)]
      rfl
    · rw [setFld_coll, groupAborted, groupStilled_coll]
      exact not_mem_opsEnded
    · rw [setFld_coll, groupAborted, groupStilled_coll]
      exact mem_opsEnded (s := spTake s m) ho hi
  · intro m s hwf hm hk
    refine ⟨exec_freeze_of_early hm hk, fun ht hf hb => ⟨_, exec_freeze_of_late hm hk hwf ht hf hb, ?_, ?_, frozenNow_latched _ _⟩⟩
    · exact frozenNow_FROZEN (lateMarked_wf (s := spTake s m) hwf _) _
    · rw [frozenNow_FRZNO (lateMarked_wf (s := spTake s m) hwf _)]
      exact Nat.mod_eq_of_lt (Nat.mod_lt _ (by decide))

end Sys2Proof.Machine

namespace Sys2Proof.Machine

/-! ### Commands that read a list (R403, R548) -/

section Refused

variable {s : State} {fn cmd n : Nat} {fmt : State → Bool} {priv : State → Option Reason} {chk : State → Option (Reason × List Nat)}

/-- A command's own check refuses it before the gate is asked about its records. -/
theorem fwGated_refused_before_gate {recs : List Byte} (h : takesUp s .f fn cmd = true) (hfmt : fmt s = true)
    (hgate : gateOpens s fn n recs = true) (hpriv : priv s = none) {r : Reason} {ws : List Nat} (hchk : chk s = some (r, ws))
    (other : List Byte) (act : State → State) : fwGated s fn cmd n fmt priv chk other act = refuse s .f fn r ws := by
  have hturn : slotTurn s .f fn cmd = true := by simp only [takesUp, Bool.and_eq_true] at h; exact h.1
  rw [fwGated, fwRun, mbxCommand_carriedOut hturn (by simp [gatedLen_of_opens hgate, hfmt])
    (by rw [hpriv, orElse, gateMissing_of_opens hgate]) (by rw [hchk]; exact mbxQueue_refuse_of_turn hturn rfl r ws), hchk]

end Refused

/-- A refusal answers the slot and leaves every register. -/
theorem refused_outcome {s : State} {o : Host.Outcome State Fault Refusal} {sv : Server} {fn : Nat} {r : Reason} {ws : List Nat}
    (h : o = .next (refuse s sv fn r ws)) : ∃ u, o = .next u ∧ u.regs = s.regs ∧ Told s u sv fn r ws :=
  ⟨_, h, refuse_regs s sv fn r ws, told_refuse rfl sv fn r ws⟩

/-! ### What an answer leaves, and what a request names -/

section Answer

variable (s : State) (sv : Server) (fn : Nat) (r : Reason) (ws : List Nat)

theorem refuse_coll : (refuse s sv fn r ws).coll = s.coll :=
  (refuse_keeps (by decide) (by decide) (Keeps.refl [.host, .mbx] s)).only .coll (by decide)

theorem refuse_slu : (refuse s sv fn r ws).slu = s.slu :=
  (refuse_keeps (by decide) (by decide) (Keeps.refl [.host, .mbx] s)).only .slu (by decide)

theorem grpState_refuse (i : Nat) : grpState (refuse s sv fn r ws) i = grpState s i := by rw [grpState, fld_refuse, ← grpState]

theorem grpTenant_refuse (i : Nat) : grpTenant (refuse s sv fn r ws) i = grpTenant s i := by rw [grpTenant, fld_refuse, ← grpTenant]

theorem grpId_refuse (i : Nat) : grpId (refuse s sv fn r ws) i = grpId s i := by rw [grpId, fld_refuse, fld_refuse, ← grpId]

end Answer

section GroupRequest

variable {s m : State} (h : m.mbx = s.mbx)
include h

theorem gcIdx_of_mbx (fn : Nat) : gcIdx m fn = gcIdx s fn := by rw [gcIdx, rqW_of_mbx h, ← gcIdx]

theorem gcGroup_of_mbx (fn : Nat) : gcGroup m fn = gcGroup s fn := by rw [gcGroup, rqW_of_mbx h, ← gcGroup]

theorem gcEpoch_of_mbx (fn : Nat) : gcEpoch m fn = gcEpoch s fn := by rw [gcEpoch, rqW_of_mbx h, ← gcEpoch]

end GroupRequest

section ListCheck

variable {d : HostData} {fn : Nat} {may : State → Nat → Nat → Option Reason} {app : State → Nat → Nat → State} {s : State}

theorem listCheck_of_unread (h : fetched d = none) : listCheck d fn may app s = some (.fetch, []) := by
  rw [listCheck, h]

theorem listCheck_of_check {bs : List Byte} {i : Nat} (hd : fetched d = some bs)
    (h : (tryList may app s 0 (listRecs s fn bs)).1 = some (.check, i)) : listCheck d fn may app s = some (.check, [i]) := by
  rw [listCheck, hd]
  dsimp only
  rw [h]

theorem listCheck_of_passed {bs : List Byte} (hd : fetched d = some bs) (h : (tryList may app s 0 (listRecs s fn bs)).1 = none) :
    listCheck d fn may app s = none := by
  rw [listCheck, hd]
  dsimp only
  rw [h]

end ListCheck

/-! ### TRACE_CONFIGURE (R418) -/

/-- What a list of TRACE_CONFIGURE leaves. -/
def traceListed (s : State) (fn : Nat) (bs : List Byte) : State :=
  (tryList (traceTry fn) (fun s off v => applyWrite s off v) s 0 (listRecs s fn bs)).2

theorem traceListed_mbx (s : State) (fn : Nat) (bs : List Byte) : (traceListed s fn bs).mbx = s.mbx :=
  (tryList_keeps (fun _ _ _ hu => applyWrite_keeps (by decide) (by decide) (by decide) (by decide) (by decide) (by decide) (by decide) (by decide)
    (by decide) (by decide) (by decide) (by decide) (by decide) (by decide) (by decide) (by decide) hu) (Keeps.refl
      [.arb, .boot, .bus, .clk, .dyn, .free, .host, .lane, .log, .obs, .red, .regs, .rel, .sch, .slu, .trig] s)).only .mbx (by decide)

section Trace

variable {s : State} {fn : Nat} {bs : List Byte} (h : takesUp s .f fn 0x171 = true)
  (hgate : gateOpens s fn 24 (listBytes s fn (.ok bs)) = true) (hlist : listFormat fn s = true) (hrsvd : bits (rqW s .f fn 2) 55 0 = 0)
  (hopen : openTo s fn (schedTenant s fn) = none)
include h hgate hlist hrsvd hopen

theorem exec_traceConfigure_refused {d : HostData} {r : Reason} {ws : List Nat}
    (hchk : listCheck d fn (traceTry fn) (fun s off v => applyWrite s off v) s = some (r, ws)) :
    exec (.traceConfigure fn d) s = .next (refuse s .f fn r ws) :=
  congrArg Host.Outcome.next (fwGated_refused_before_gate (fmt := fun s => listFormat fn s && rsvd s .f fn 2 55 0)
    (priv := fun s => openTo s fn (schedTenant s fn)) h (by simp [hlist, rsvd, hrsvd]) hgate hopen hchk _ _)

theorem exec_traceConfigure_applied
    (hpass : (tryList (traceTry fn) (fun s off v => applyWrite s off v) s 0 (listRecs s fn bs)).1 = none) :
    exec (.traceConfigure fn (.ok bs)) s = .next (refuse (traceListed (pastGate s fn 24) fn bs) .f fn .none []) := by
  have hmbx : (pastGate s fn 24).mbx = s.mbx := (pastGate_keeps s fn 24).only .mbx (by decide)
  exact congrArg Host.Outcome.next (fwGated_acts (fmt := fun s => listFormat fn s && rsvd s .f fn 2 55 0)
    (priv := fun s => openTo s fn (schedTenant s fn)) (act := fun s => answerOk _ .f fn) h (by simp [hlist, rsvd, hrsvd]) hgate hopen
    (listCheck_of_passed (d := .ok bs) rfl hpass) ((traceListed_mbx _ fn bs).trans hmbx) rfl)

end Trace

/-! ### ARB_CONFIGURE (R417) -/

/-- What the records of ARB_CONFIGURE leave before its arms. -/
def arbListed (s : State) (bs : List Byte) : State := (tryList configTry configApply s 0 (listRecs s 0 bs)).2

theorem arbListed_mbx (s : State) (bs : List Byte) : (arbListed s bs).mbx = s.mbx :=
  (tryList_keeps (fun _ _ _ hu => configApply_keeps (by decide) (by decide) (by decide) (by decide) (by decide) (by decide) (by decide) (by decide)
    (by decide) (by decide) (by decide) (by decide) (by decide) (by decide) (by decide) (by decide) hu) (Keeps.refl
      [.arb, .boot, .bus, .clk, .dyn, .free, .host, .lane, .log, .obs, .red, .regs, .rel, .sch, .slu, .trig] s)).only .mbx (by decide)

/-- A list without arms arms nothing. -/
theorem armList_of_no_arms {l : List (Nat × Nat)} (h : ∀ x ∈ l, isArm x.1 x.2 = false) (s : State) (i : Nat) : armList s i l = (none, s) := by
  induction l generalizing i with
  | nil => rfl
  | cons x l ih =>
    rw [armList, h x (.head _), Bool.not_false, if_pos rfl]
    exact ih (fun y hy => h y (.tail _ hy)) (i + 1)

section Arb

variable {s : State} (h : takesUp s .f 0 0x161 = true) (hlen : rqPlen s .f 0 = 24) (hlist : listFormat 0 s = true) (hrsvd : rqW s .f 0 2 = 0)
include h hlen hlist hrsvd

theorem exec_arbConfigure_refused {d : HostData} {r : Reason} {ws : List Nat}
    (hchk : listCheck d 0 configTry configApply s = some (r, ws)) : exec (.arbConfigure 0 d) s = .next (refuse s .f 0 r ws) := by
  have hturn : slotTurn s .f 0 0x161 = true := by simp only [takesUp, Bool.and_eq_true] at h; exact h.1
  change execArbConfigure 0 d s = _
  rw [execArbConfigure, fwRun, mbxCommand_carriedOut hturn (by simp [hlen, hlist, hrsvd]) rfl
    (by rw [hchk]; exact mbxQueue_refuse_of_turn hturn rfl r ws), hchk]

variable {bs : List Byte} (hpass : (tryList configTry configApply s 0 (listRecs s 0 bs)).1 = none)
include hpass

/-- Behind its checks the list's effect is that of its run. -/
theorem exec_arbConfigure_runs {m : State} {r : Reason} {ws : List Nat} (hm : m.mbx = s.mbx)
    (hrun : arbConfigureRun (.ok bs) 0 s = refuse m .f 0 r ws) : exec (.arbConfigure 0 (.ok bs)) s = .next (refuse m .f 0 r ws) := by
  have hturn : slotTurn s .f 0 0x161 = true := by simp only [takesUp, Bool.and_eq_true] at h; exact h.1
  have hchk := listCheck_of_passed (d := .ok bs) (fn := 0) rfl hpass
  change execArbConfigure 0 (.ok bs) s = _
  rw [execArbConfigure, fwRun, mbxCommand_carriedOut hturn (by simp [hlen, hlist, hrsvd]) rfl
    (by rw [hchk]; dsimp only; rw [hrun]; exact mbxQueue_refuse_of_turn hturn hm r ws), hchk]
  exact congrArg _ hrun

theorem exec_arbConfigure_unarmed (harms : ∀ x ∈ listRecs s 0 bs, isArm x.1 x.2 = false) :
    exec (.arbConfigure 0 (.ok bs)) s = .next (refuse (arbListed s bs) .f 0 .none []) := by
  refine exec_arbConfigure_runs h hlen hlist hrsvd hpass (arbListed_mbx s bs) ?_
  have harm := armList_of_no_arms harms (arbListed s bs) 0
  unfold arbListed at harm
  rw [arbConfigureRun, listApply, show (fetched (.ok bs)).getD [] = bs from rfl, harm]
  rfl

theorem exec_arbConfigure_armFails {i : Nat} (harm : (armList (arbListed s bs) 0 (listRecs s 0 bs)).1 = some i) :
    exec (.arbConfigure 0 (.ok bs)) s = .next (refuse s .f 0 .check [i]) := by
  refine exec_arbConfigure_runs h hlen hlist hrsvd hpass rfl ?_
  unfold arbListed at harm
  rw [arbConfigureRun, listApply, show (fetched (.ok bs)).getD [] = bs from rfl]
  split
  next j t heq => 
    rw [heq] at harm
    cases harm
    rfl
  next t heq =>
    rw [heq] at harm
    cases harm

end Arb

/-! ### A group's members (R266, R267) -/

theorem findReg_grpMember {i : Nat} (hi : i < 4096) : findReg (0x20000 + i * 8) tniRegs = some (tniGrpMemberDef, i) := by
  have hbefore : ∀ d ∈ tniRegs.take 32, 0 < d.stride ∧ d.off + (d.first + d.count) * d.stride ≤ 0x20000 := by decide
  have hend := findReg_append (o := 0x20000 + i * 8) (fun d hd => ⟨(hbefore d hd).1, (hbefore d hd).2.trans (Nat.le_add_right _ _)⟩)
    (tniRegs.drop 32)
  exact hend.trans (findReg_cons (by simp only [tniGrpMemberDef]; omega) (by simp only [tniGrpMemberDef]; omega) _)

/-- A membership entry is a register of its TNI. -/
theorem regAt_grpMember {t i : Nat} (ht : t < 64) (hi : i < 4096) :
    regAt (Reg.tniGrpMember t i) = some (.blk (.tni t), tniGrpMemberDef, i) := by
  have hoff : Reg.tniGrpMember t i = 0x2000000 + t * 0x80000 + (0x20000 + i * 8) := by simp only [Reg.tniGrpMember, Blk.base]; omega
  rw [regAt, blkOf_tni t (0x20000 + i * 8) _ hoff ht (by omega)]
  dsimp only
  rw [if_neg (by omega), findReg_grpMember hi]
  rfl

theorem findReg_fabGrpA {i : Nat} (hi : i < 4096) : findReg (0x10000 + i * 16) fabRegs = some (fabGrpADef, i) := by
  have hbefore : ∀ d ∈ fabRegs.take 16, 0 < d.stride ∧ d.off + (d.first + d.count) * d.stride ≤ 0x10000 := by decide
  have hend := findReg_append (o := 0x10000 + i * 16) (fun d hd => ⟨(hbefore d hd).1, (hbefore d hd).2.trans (Nat.le_add_right _ _)⟩)
    (fabRegs.drop 16)
  exact hend.trans (findReg_cons (by simp only [fabGrpADef]; omega) (by simp only [fabGrpADef]; omega) _)

/-- A group's entry is a register of the fabric's window. -/
theorem regAt_fabGrpA {i : Nat} (hi : i < 4096) : regAt (Reg.fabGrpA i) = some (.blk .fab, fabGrpADef, i) := by
  have hoff : Reg.fabGrpA i = 0x10000 + i * 16 := by simp only [Reg.fabGrpA, Blk.base, Nat.zero_add]
  rw [regAt, hoff, blkOf, if_pos (by omega)]
  dsimp only
  rw [findReg_fabGrpA hi]
  rfl

/-- The membership entries of a group that do not read as after a reset. -/
def memberRegs (s : State) (i : Nat) : List Nat := regsWhere s fun _ d k _ => d.name == .tniGrpMember && k == i

theorem mem_memberRegs {s : State} {a i : Nat} (h : a ∈ memberRegs s i) : ∃ b d, regAt a = some (b, d, i) ∧ d.name = .tniGrpMember := by
  obtain ⟨-, h⟩ := List.mem_filter.mp h
  split at h
  next b d k hk =>
    rw [Bool.and_eq_true, beq_iff_eq, beq_iff_eq] at h
    obtain ⟨hname, rfl⟩ := h
    exact ⟨b, d, hk, hname⟩
  next => cases h

/-- A group's entry is not among them. -/
theorem fabGrpA_not_mem_memberRegs {i : Nat} (hi : i < 4096) (s : State) (j : Nat) : Reg.fabGrpA i ∉ memberRegs s j := by
  intro h
  obtain ⟨b, d, hreg, hname⟩ := mem_memberRegs h
  rw [regAt_fabGrpA hi] at hreg
  cases hreg
  exact absurd hname (by decide)

/-- A membership entry that is not among them reads as after a reset. -/
theorem rd_of_not_mem_memberRegs {s : State} {t i : Nat} (ht : t < 64) (hi : i < 4096) (h : Reg.tniGrpMember t i ∉ memberRegs s i) :
    rd s (Reg.tniGrpMember t i) = resetWord (Reg.tniGrpMember t i) := by
  refine tGet_absent _ _ _ fun e he hk => h ?_
  refine List.mem_filter.mpr ⟨List.mem_map.mpr ⟨e, he, hk⟩, ?_⟩
  rw [regAt_grpMember ht hi]
  simp [tniGrpMemberDef]

theorem fld_resetWord_grpMember {t i : Nat} (ht : t < 64) (hi : i < 4096) : getF (resetWord (Reg.tniGrpMember t i)) TniGrpMember.SEQ = 0 := by
  rw [resetWord, regAt_grpMember ht hi]
  dsimp only
  rw [if_neg (by decide)]
  decide

/-- One field set at every register of a list. -/
theorem rd_foldl_setFld_ne {l : List Nat} {a : Nat} (h : a ∉ l) (s : State) (f : Fld) (v : Nat) :
    rd (l.foldl (fun s off => setFld s off f v) s) a = rd s a := by
  induction l generalizing s with
  | nil => rfl
  | cons x l ih =>
    rw [List.mem_cons, not_or] at h
    exact (ih h.2 _).trans (rd_setFld_ne s f v h.1)

theorem foldl_setFld_wf (l : List Nat) {s : State} (h : s.wf = true) (f : Fld) (v : Nat) :
    (l.foldl (fun s off => setFld s off f v) s).wf = true := by
  induction l generalizing s with
  | nil => exact h
  | cons x l ih => exact ih (setFld_wf h)

theorem fld_foldl_setFld_mem {l : List Nat} {a : Nat} (ha : a ∈ l) {s : State} (h : s.wf = true) {f : Fld} (hf : f.lo ≤ f.hi ∧ f.hi < 64) (v : Nat) :
    fld (l.foldl (fun s off => setFld s off f v) s) a f = v % 2 ^ fldWidth f := by
  induction l generalizing s with
  | nil => cases ha
  | cons x l ih =>
    by_cases hl : a ∈ l
    · exact ih hl (setFld_wf h)
    · obtain rfl : a = x := (List.mem_cons.mp ha).resolve_right hl
      rw [List.foldl_cons, fld, rd_foldl_setFld_ne hl, ← fld]
      exact fld_setFld_same _ _ _ h hf.1 hf.2

/-- Every member of the group starts with SEQ 0. -/
def seqCleared (s : State) (i : Nat) : State := (memberRegs s i).foldl (fun s off => setFld s off TniGrpMember.SEQ 0) s

theorem fld_seqCleared {s : State} (h : s.wf = true) {t i : Nat} (ht : t < 64) (hi : i < 4096) :
    fld (seqCleared s i) (Reg.tniGrpMember t i) TniGrpMember.SEQ = 0 := by
  by_cases hmem : Reg.tniGrpMember t i ∈ memberRegs s i
  · exact fld_foldl_setFld_mem hmem h (by decide) 0
  · rw [seqCleared, fld, rd_foldl_setFld_ne hmem, rd_of_not_mem_memberRegs ht hi hmem, fld_resetWord_grpMember ht hi]

/-! ### GROUP_CREATE (R7, R265, R414) -/

/-- The group's identity, tenant and STATE written in its entry. -/
def groupNamed (s : State) (i t g e : Nat) : State :=
  setFld (setFld (setFld (setFld s (Reg.fabGrpA i) FabGrpA.GROUP g) (Reg.fabGrpA i) FabGrpA.EPOCH e) (Reg.fabGrpA i) FabGrpA.TENANT t)
    (Reg.fabGrpA i) FabGrpA.STATE 1

/-- A register that a new group does not touch after its entry and its members. -/
def GroupSpares (a : Nat) : Prop := (∀ x k, k < 64 → a ≠ Reg.tniGrpPsn x k) ∧ ∀ n, n < 16 → a ≠ Reg.lpPmCfg n

theorem groupSpares_fabGrpA {i : Nat} (hi : i < 4096) : GroupSpares (Reg.fabGrpA i) := by
  constructor
  · intro x k hk h
    simp only [Reg.fabGrpA, Reg.tniGrpPsn, Blk.base] at h
    omega
  · intro n hn h
    simp only [Reg.fabGrpA, Reg.lpPmCfg, Blk.base] at h
    omega

theorem groupSpares_grpMember {t i : Nat} (hi : i < 4096) : GroupSpares (Reg.tniGrpMember t i) := by
  constructor
  · intro x k hk h
    simp only [Reg.tniGrpMember, Reg.tniGrpPsn, Blk.base] at h
    omega
  · intro n hn h
    simp only [Reg.tniGrpMember, Reg.lpPmCfg, Blk.base] at h
    omega

/-- The poison notes of a group's members cleared. -/
def groupPsnCleared (s : State) (i t : Nat) : State :=
  (List.range 64).foldl (fun s x =>
    if owner s x ≠ t then s
    else
      let p := Reg.tniGrpPsn x (i / 64)
      wrReg s p (BitVec.ofNat 64 (putBits (rd s p).toNat (i % 64) (i % 64) 0))) s

/-- The lane ports kept out of QUIET and DEEP. -/
def lanesAwake (s : State) : State :=
  (List.range 16).foldl (fun s n =>
    let c := Reg.lpPmCfg n
    setFld (setFld (setFld s c LpPmCfg.QEN 0) c LpPmCfg.DEEPIDLE 0) c LpPmCfg.DEEPREQ 0) s

theorem rd_groupPsnCleared {a i : Nat} (ha : GroupSpares a) (hi : i < 4096) (s : State) (t : Nat) : rd (groupPsnCleared s i t) a = rd s a := by
  unfold groupPsnCleared
  generalize List.range 64 = l
  induction l generalizing s with
  | nil => rfl
  | cons x l ih =>
    refine (ih _).trans ?_
    dsimp only
    split
    · rfl
    · exact rd_wrReg_ne s _ (ha.1 x _ (by omega))

theorem rd_lanesAwake {a : Nat} (ha : GroupSpares a) (s : State) : rd (lanesAwake s) a = rd s a := by
  have hfold (l : List Nat) (hl : ∀ n ∈ l, n < 16) (s : State) : rd (l.foldl (fun s n =>
      setFld (setFld (setFld s (Reg.lpPmCfg n) LpPmCfg.QEN 0) (Reg.lpPmCfg n) LpPmCfg.DEEPIDLE 0) (Reg.lpPmCfg n) LpPmCfg.DEEPREQ 0) s) a =
      rd s a := by
    induction l generalizing s with
    | nil => rfl
    | cons n l ih =>
      have hn := ha.2 n (hl n (.head _))
      refine (ih (fun m hm => hl m (.tail _ hm)) _).trans ?_
      rw [rd_setFld_ne _ _ _ hn, rd_setFld_ne _ _ _ hn, rd_setFld_ne _ _ _ hn]
  exact hfold _ (fun n hn => List.mem_range.mp hn) s

/-- The group's epoch remembered. -/
def epochNoted (s : State) (t g e : Nat) : State := { s with coll := { s.coll with epochs := s.coll.epochs ++ [(t, g, e)] } }

/-- The group made, before its poison notes and lane ports. -/
def groupEntered (s : State) (i t g e : Nat) : State := seqCleared (groupNamed s i t g e) i

/-- The registers of a new group. -/
def groupRegs (s : State) (t fn : Nat) : State :=
  groupPsnCleared (groupEntered s (gcIdx s fn) t (gcGroup s fn) (gcEpoch s fn)) (gcIdx s fn) t

theorem groupMake_eq (t fn : Nat) (s : State) : groupMake t fn s =
    let u := epochNoted (groupRegs s t fn) t (gcGroup (groupRegs s t fn) fn) (gcEpoch (groupRegs s t fn) fn)
    if pipedHere u then lanesAwake u else u := rfl

theorem gcIdx_lt (s : State) (fn : Nat) : gcIdx s fn < 4096 := Nat.mod_lt _ (by decide)

theorem rd_groupMake {a : Nat} (ha : GroupSpares a) (t fn : Nat) (s : State) :
    rd (groupMake t fn s) a = rd (groupEntered s (gcIdx s fn) t (gcGroup s fn) (gcEpoch s fn)) a := by
  rw [groupMake_eq]
  dsimp only
  split
  · exact (rd_lanesAwake ha _).trans (rd_groupPsnCleared ha (gcIdx_lt s fn) _ _)
  · exact rd_groupPsnCleared ha (gcIdx_lt s fn) _ _

theorem groupRegs_keeps (s : State) (t fn : Nat) : Keeps [.regs] s (groupRegs s t fn) := by
  have hset (u : State) (a : Nat) (f : Fld) (v : Nat) (hu : Keeps [.regs] s u) : Keeps [.regs] s (setFld u a f v) := setFld_keeps (by decide) hu
  have hnamed : Keeps [.regs] s (groupNamed s (gcIdx s fn) t (gcGroup s fn) (gcEpoch s fn)) :=
    hset _ _ _ _ (hset _ _ _ _ (hset _ _ _ _ (hset _ _ _ _ (.refl _ s))))
  refine Keeps.foldl (Keeps.foldl hnamed fun u x hu => hset u x _ _ hu) fun u x hu => ?_
  exact Keeps.ite hu (wrReg_keeps (by decide) hu)

theorem groupMake_epochs (t fn : Nat) (s : State) : (t, gcGroup s fn, gcEpoch s fn) ∈ (groupMake t fn s).coll.epochs := by
  have hmbx : (groupRegs s t fn).mbx = s.mbx := (groupRegs_keeps s t fn).only .mbx (by decide)
  have hnoted : (t, gcGroup s fn, gcEpoch s fn) ∈
      (epochNoted (groupRegs s t fn) t (gcGroup (groupRegs s t fn) fn) (gcEpoch (groupRegs s t fn) fn)).coll.epochs := by
    rw [gcGroup_of_mbx hmbx, gcEpoch_of_mbx hmbx]
    exact List.mem_append_right _ (List.mem_singleton.mpr rfl)
  rw [groupMake_eq]
  dsimp only
  split
  · have hlanes (u : State) : (lanesAwake u).coll = u.coll :=
      (Keeps.foldl (.refl [.regs] u) fun v x hv => setFld_keeps (by decide) (setFld_keeps (by decide) (setFld_keeps (by decide) hv))).only .coll (by decide)
    rw [hlanes]
    exact hnoted
  · exact hnoted

theorem fld_groupEntered {i : Nat} (hi : i < 4096) (s : State) (t g e : Nat) (f : Fld) :
    fld (groupEntered s i t g e) (Reg.fabGrpA i) f = fld (groupNamed s i t g e) (Reg.fabGrpA i) f := by
  rw [groupEntered, seqCleared, fld, rd_foldl_setFld_ne (fabGrpA_not_mem_memberRegs hi _ i), fld]

section Named

variable {s : State} (h : s.wf = true) {i : Nat} (hi : i < 4096) (t g e : Nat)
include h hi

theorem grpState_groupEntered : grpState (groupEntered s i t g e) i = 1 := by
  rw [grpState, fld_groupEntered hi, groupNamed, fld_setFld_same _ _ _ (setFld_wf (setFld_wf (setFld_wf h))) (by decide) (by decide)]
  rfl

theorem grpTenant_groupEntered (ht : t < 256) : grpTenant (groupEntered s i t g e) i = t := by
  rw [grpTenant, fld_groupEntered hi, groupNamed,
    fld_setFld_apart (setFld_wf (setFld_wf (setFld_wf h))) _ _ (by decide) (by decide) (by decide),
    fld_setFld_same _ _ _ (setFld_wf (setFld_wf h)) (by decide) (by decide)]
  exact Nat.mod_eq_of_lt ht

theorem grpId_groupEntered (hg : g < 65536) (he : e < 65536) : grpId (groupEntered s i t g e) i = (g, e) := by
  have hgroup : fld (groupNamed s i t g e) (Reg.fabGrpA i) FabGrpA.GROUP = g := by
    rw [groupNamed, fld_setFld_apart (setFld_wf (setFld_wf (setFld_wf h))) _ _ (by decide) (by decide) (by decide),
      fld_setFld_apart (setFld_wf (setFld_wf h)) _ _ (by decide) (by decide) (by decide),
      fld_setFld_apart (setFld_wf h) _ _ (by decide) (by decide) (by decide), fld_setFld_same _ _ _ h (by decide) (by decide)]
    exact Nat.mod_eq_of_lt hg
  have hepoch : fld (groupNamed s i t g e) (Reg.fabGrpA i) FabGrpA.EPOCH = e := by
    rw [groupNamed, fld_setFld_apart (setFld_wf (setFld_wf (setFld_wf h))) _ _ (by decide) (by decide) (by decide),
      fld_setFld_apart (setFld_wf (setFld_wf h)) _ _ (by decide) (by decide) (by decide), fld_setFld_same _ _ _ (setFld_wf h) (by decide) (by decide)]
    exact Nat.mod_eq_of_lt he
  rw [grpId, fld_groupEntered hi, fld_groupEntered hi, hgroup, hepoch]

theorem seq_groupEntered {tile : Nat} (htile : tile < 64) :
    fld (groupEntered s i t g e) (Reg.tniGrpMember tile i) TniGrpMember.SEQ = 0 :=
  fld_seqCleared (setFld_wf (setFld_wf (setFld_wf (setFld_wf h)))) htile hi

end Named

section Made

variable {s : State} (h : s.wf = true) (t fn : Nat)
include h

/-- A new group's entry: active, of its tenant, with its identity, and SEQ 0 at its members. -/
theorem groupMake_entry (ht : t < 256) : grpState (groupMake t fn s) (gcIdx s fn) = 1 ∧ grpTenant (groupMake t fn s) (gcIdx s fn) = t ∧
    grpId (groupMake t fn s) (gcIdx s fn) = (gcGroup s fn, gcEpoch s fn) := by
  have hi := gcIdx_lt s fn
  have hrd := rd_groupMake (groupSpares_fabGrpA hi) t fn s
  have hfld (f : Fld) : fld (groupMake t fn s) (Reg.fabGrpA (gcIdx s fn)) f =
      fld (groupEntered s (gcIdx s fn) t (gcGroup s fn) (gcEpoch s fn)) (Reg.fabGrpA (gcIdx s fn)) f := congrArg (getF · f) hrd
  refine ⟨?_, ?_, ?_⟩
  · rw [grpState, hfld]
    exact grpState_groupEntered h hi _ _ _
  · rw [grpTenant, hfld]
    exact grpTenant_groupEntered h hi _ _ _ ht
  · rw [grpId, hfld, hfld]
    exact grpId_groupEntered h hi _ _ _ (Nat.mod_lt _ (by decide)) (Nat.mod_lt _ (by decide))

theorem groupMake_seq {tile : Nat} (htile : tile < 64) :
    fld (groupMake t fn s) (Reg.tniGrpMember tile (gcIdx s fn)) TniGrpMember.SEQ = 0 := by
  rw [fld, rd_groupMake (groupSpares_grpMember (gcIdx_lt s fn)), ← fld]
  exact seq_groupEntered h (gcIdx_lt s fn) _ _ _ htile

end Made

/-- What a group's list leaves. -/
def planListed (s : State) (fn : Nat) (bs : List Byte) : State := (tryList (planMay fn) (planApply fn) s 0 (listRecs s fn bs)).2

theorem planListed_keeps (s : State) (fn : Nat) (bs : List Byte) :
    Keeps [.arb, .boot, .bus, .clk, .coll, .dyn, .free, .host, .lane, .log, .obs, .red, .regs, .rel, .sch, .slu, .trig] s (planListed s fn bs) :=
  tryList_keeps (fun _ _ _ hu => planApply_keeps (by decide) (by decide) (by decide) (by decide) (by decide) (by decide) (by decide) (by decide)
    (by decide) (by decide) (by decide) (by decide) (by decide) (by decide) (by decide) (by decide) (by decide) hu) (.refl _ s)

/-- The checks of GROUP_CREATE behind its format and privilege. -/
def groupCheck (d : HostData) (fn : Nat) (s : State) : Option (Reason × List Nat) :=
  match firstOf [(grpState s (gcIdx s fn) != 0, .noResource), (s.coll.epochs.contains (fn, gcGroup s fn, gcEpoch s fn), .epoch)] with
  | some r => some r
  | none => match listCheck d fn (planMay fn) (planApply fn) s with
    | some r => some r
    | none => if tooFew fn d s then some (.check, []) else none

section GroupCheck

variable {d : HostData} {fn : Nat} {s : State}

theorem groupCheck_of_used (h : grpState s (gcIdx s fn) ≠ 0) : groupCheck d fn s = some (.noResource, []) := by
  rw [groupCheck, firstOf, bne_iff_ne.mpr h]
  rfl

theorem groupCheck_of_old (h : grpState s (gcIdx s fn) = 0) (ho : s.coll.epochs.contains (fn, gcGroup s fn, gcEpoch s fn) = true) :
    groupCheck d fn s = some (.epoch, []) := by
  rw [groupCheck, firstOf, h, firstOf, ho]
  rfl

theorem groupCheck_of_new (h : grpState s (gcIdx s fn) = 0) (ho : s.coll.epochs.contains (fn, gcGroup s fn, gcEpoch s fn) = false) :
    groupCheck d fn s = match listCheck d fn (planMay fn) (planApply fn) s with
      | some r => some r
      | none => if tooFew fn d s then some (.check, []) else none := by
  rw [groupCheck, firstOf, h, firstOf, ho]
  rfl

end GroupCheck

section GroupCreate

variable {s : State} {fn : Nat} {d : HostData} (h : takesUp s .f fn 0x140 = true) (hgate : gateOpens s fn 24 (listBytes s fn d) = true)
  (hlist : listFormat fn s = true) (hrsvd : bits (rqW s .f fn 2) 31 12 = 0)
include h hgate hlist hrsvd

theorem exec_groupCreate_refused {r : Reason} {ws : List Nat} (hchk : groupCheck d fn s = some (r, ws)) :
    exec (.groupCreate fn d) s = .next (refuse s .f fn r ws) :=
  congrArg Host.Outcome.next (fwGated_refused_chk (fmt := fun s => listFormat fn s && rsvd s .f fn 2 31 12)
    (priv := fun _ => none) h (by simp [hlist, rsvd, hrsvd]) hgate rfl hchk _)

theorem exec_groupCreate_made {bs : List Byte} (hbs : fetched d = some bs) (hchk : groupCheck d fn s = none) :
    exec (.groupCreate fn d) s = .next (refuse (groupMake fn fn (planListed (pastGate s fn 24) fn bs)) .f fn .none []) := by
  have hmbx : (groupMake fn fn (planListed (pastGate s fn 24) fn bs)).mbx = s.mbx := by
    rw [(groupMake_keeps (w := [.coll, .regs]) (by decide) (by decide) (.refl _ _)).only .mbx (by decide),
      (planListed_keeps _ fn bs).only .mbx (by decide)]
    exact (pastGate_keeps s fn 24).only .mbx (by decide)
  have hact : answerOk (groupMake fn fn (listApply d fn (planMay fn) (planApply fn) (pastGate s fn 24))) .f fn =
      refuse (groupMake fn fn (planListed (pastGate s fn 24) fn bs)) .f fn .none [] := by
    rw [answerOk_eq, listApply, hbs]
    rfl
  exact congrArg Host.Outcome.next (fwGated_acts (fmt := fun s => listFormat fn s && rsvd s .f fn 2 31 12)
    (priv := fun _ => none) (act := fun s => answerOk _ .f fn) h (by simp [hlist, rsvd, hrsvd]) hgate rfl hchk hmbx hact)

end GroupCreate

/-! ### GROUP_DESTROY (R414) -/

/-- No sluice operation of a group is left. -/
def SluFree (i : Nat) (s : State) : Prop := ∀ o ∈ s.slu.ops, o.gidx ≠ i

theorem sluFree_of_slu_eq {i : Nat} {s u : State} (h : u.slu = s.slu) (hs : SluFree i s) : SluFree i u := by
  rw [SluFree, h]
  exact hs

theorem sluFree_sluAbort (s : State) (i : Nat) : SluFree i (sluAbort s i) := by
  intro o ho
  simpa using (List.mem_filter.mp ho).2

theorem mem_updFirst {α : Type} {p : α → Bool} {f : α → α} {l : List α} {a : α} (h : a ∈ updFirst p f l) : a ∈ l ∨ ∃ b ∈ l, a = f b := by
  induction l with
  | nil => cases h
  | cons x l ih =>
    rw [updFirst] at h
    split at h
    · rcases List.mem_cons.mp h with rfl | h
      · exact .inr ⟨x, .head _, rfl⟩
      · exact .inl (.tail _ h)
    · rcases List.mem_cons.mp h with rfl | h
      · exact .inl (.head _)
      · rcases ih h with h | ⟨b, hb, rfl⟩
        · exact .inl (.tail _ h)
        · exact .inr ⟨b, .tail _ hb, rfl⟩

/-- A barrier that is over changes no sluice operation's group. -/
theorem sluFree_barrierOver {i : Nat} {s : State} (h : SluFree i s) (t j : Nat) (st : Status) : SluFree i (barrierOver s t j st) := by
  unfold barrierOver
  dsimp only
  split
  · exact h
  · have hupd (p : SluOp → Bool) (f : SluOp → SluOp) (hf : ∀ o, (f o).gidx = o.gidx) :
        SluFree i { s with slu := { s.slu with ops := updFirst p f s.slu.ops } } := by
      intro o ho
      rcases mem_updFirst ho with ho | ⟨b, hb, rfl⟩
      · exact h o ho
      · rw [hf]
        exact h b hb
    split
    · exact sluFree_of_slu_eq rfl (hupd _ _ fun _ => rfl)
    · exact hupd _ _ fun _ => rfl

theorem sluFree_collEnd {i : Nat} {s : State} (h : SluFree i s) (o : CollOp) (st : Status) (d : Nat) : SluFree i (collEnd s o st d) := by
  have hclear : SluFree i (collCleared s o) := sluFree_of_slu_eq ((collCleared_keeps (w := [.coll, .log, .regs, .rel]) (by decide) (by decide)
    (by decide) (by decide) (.refl _ s)).only .slu (by decide)) h
  rw [collEnd_eq]
  dsimp only
  split
  · exact sluFree_barrierOver hclear _ _ _
  · exact hclear

theorem sluFree_opsEnded {i : Nat} (os : List CollOp) {s : State} (h : SluFree i s) (st : Status) (d : Nat) : SluFree i (opsEnded s os st d) := by
  induction os generalizing s with
  | nil => exact h
  | cons o os ih => exact ih (sluFree_collEnd h o st d)

/-- The RETURNs of a slot that wait or send, aborted. -/
def returnsAborted (s : State) (rs : List SluRet) : State :=
  rs.foldl (fun s r =>
    let waits := s.dyn.waiting.filter fun q => Purpose_cmd q.why == some r.cmd
    let s := waits.foldl (fun s q => dropReq s q.id) s
    updCmd s r.cmd fun c => failWith .aborted { c with left := if r.started then c.left - waits.length else 0 }) s

theorem returnsAborted_keeps (s : State) (rs : List SluRet) : Keeps [.dyn, .host, .regs] s (returnsAborted s rs) :=
  Keeps.foldl (.refl _ s) fun _ _ h =>
    updCmd_keeps (by decide) (Keeps.foldl h fun _ _ hu => dropReq_keeps (by decide) (by decide) hu)

/-- Disabling an inbox leaves the sluice operations. -/
theorem execInboxDisable_ops (t k v : Nat) (s : State) : (after (execInboxDisable t k v s) s).slu.ops = s.slu.ops := by
  have hslu : (returnsAborted s (s.slu.rets.filter fun r => r.tile == t && r.slot == k)).slu = s.slu :=
    (returnsAborted_keeps s _).only .slu (by decide)
  have hops : (returnsAborted s (s.slu.rets.filter fun r => r.tile == t && r.slot == k)).slu.ops = s.slu.ops := by rw [hslu]
  rw [execInboxDisable, after]
  split
  · rfl
  · dsimp only
    rw [softWrite_slu, setFld_slu]
    exact hops

theorem planOff_ops (s : State) (a : Nat) : (planOff s a).slu.ops = s.slu.ops := by
  unfold planOff
  split
  · split
    · exact execInboxDisable_ops _ _ _ _
    · rfl
  · rfl
  · rfl

/-- The registers that a group's plan installed, disabled. -/
def groupPlansOff (s : State) (i : Nat) : State := ((s.coll.plans.filter fun p => p.1 == i).map Prod.snd).foldl planOff s
/-- No tile is a member of the group any more. -/
def groupLeft (s : State) (i : Nat) : State := (memberRegs s i).foldl (fun s off => setFld s off TniGrpMember.V 0) s
/-- A group's sluice operations aborted, and then its collectives. -/
def groupOpsEnded (s : State) (i : Nat) : State :=
  opsEnded (sluAbort s i) ((sluAbort s i).coll.ops.filter fun o => o.gidx == i) .aborted 0

/-- A group's plan forgotten. -/
def plansDropped (s : State) (i : Nat) : State := { s with coll := { s.coll with plans := s.coll.plans.filter fun p => p.1 != i } }

theorem plansDropped_wf (s : State) (i : Nat) : (plansDropped s i).wf = s.wf := rfl
theorem plansDropped_ops (s : State) (i : Nat) : (plansDropped s i).coll.ops = s.coll.ops := rfl
theorem plansDropped_slu (s : State) (i : Nat) : (plansDropped s i).slu = s.slu := rfl

theorem plansDropped_plans (s : State) (i : Nat) : ∀ p ∈ (plansDropped s i).coll.plans, p.1 ≠ i := by
  intro p hp
  simpa using (List.mem_filter.mp hp).2

/-- All that GROUP_DESTROY does before its index is free. -/
def groupEmptied (s : State) (i : Nat) : State :=
  plansDropped (groupLeft (groupPlansOff (groupStilled (groupOpsEnded s i) i) i) i) i

theorem groupDestroy_eq (s : State) (i : Nat) : groupDestroy s i = setFld (groupEmptied s i) (Reg.fabGrpA i) FabGrpA.STATE 0 := by
  delta groupDestroy groupEmptied plansDropped groupLeft groupPlansOff groupStilled groupOpsEnded opsEnded memberRegs
  with_reducible rfl

theorem groupPlansOff_keeps (s : State) (i : Nat) : Keeps [.dyn, .host, .regs, .slu] s (groupPlansOff s i) :=
  Keeps.foldl (.refl _ s) fun _ _ h => planOff_keeps (by decide) (by decide) (by decide) (by decide) h

theorem groupLeft_keeps (s : State) (i : Nat) : Keeps [.regs] s (groupLeft s i) :=
  Keeps.foldl (.refl _ s) fun _ _ h => setFld_keeps (by decide) h

theorem groupEmptied_wf {s : State} (h : s.wf = true) (i : Nat) : (groupEmptied s i).wf = true := by
  have habort : (sluAbort s i).wf = true := (sluAbort_keeps (w := [.coll, .dyn, .host, .log, .regs, .rel, .rte, .slu]) (by decide) (by decide)
    (by decide) (by decide) (by decide) (by decide) (by decide) (by decide) (.refl _ s)).wf h
  have hended : (groupOpsEnded s i).wf = true := opsEnded_wf _ _ _ habort
  rw [groupEmptied, plansDropped_wf]
  exact (groupLeft_keeps _ i).wf ((groupPlansOff_keeps _ i).wf ((groupStilled_keeps _ i).wf hended))

theorem groupEmptied_ops (s : State) (i : Nat) : ∀ o ∈ (groupEmptied s i).coll.ops, o.gidx ≠ i := by
  have hcoll : (groupLeft (groupPlansOff (groupStilled (groupOpsEnded s i) i) i) i).coll = (groupOpsEnded s i).coll := by
    rw [(groupLeft_keeps _ i).only .coll (by decide), (groupPlansOff_keeps _ i).only .coll (by decide),
      groupStilled_coll]
  rw [groupEmptied, plansDropped_ops, hcoll]
  exact not_mem_opsEnded

theorem groupPlansOff_ops (s : State) (i : Nat) : (groupPlansOff s i).slu.ops = s.slu.ops := by
  unfold groupPlansOff
  generalize (s.coll.plans.filter fun p => p.1 == i).map Prod.snd = l
  induction l generalizing s with
  | nil => rfl
  | cons a l ih => exact (ih _).trans (planOff_ops s a)

theorem groupEmptied_sluFree (s : State) (i : Nat) : SluFree i (groupEmptied s i) := by
  have hended : SluFree i (groupOpsEnded s i) := sluFree_opsEnded _ (sluFree_sluAbort s i) _ _
  have hops : (groupEmptied s i).slu.ops = (groupOpsEnded s i).slu.ops := by
    rw [groupEmptied, plansDropped_slu, (groupLeft_keeps _ i).only .slu (by decide), groupPlansOff_ops, (groupStilled_keeps _ i).only .slu (by decide)]
  rw [SluFree, hops]
  exact hended

theorem groupEmptied_plans (s : State) (i : Nat) : ∀ p ∈ (groupEmptied s i).coll.plans, p.1 ≠ i := plansDropped_plans _ i

theorem groupDestroy_mbx (s : State) (i : Nat) : (groupDestroy s i).mbx = s.mbx :=
  (groupDestroy_keeps (w := [.coll, .dyn, .free, .host, .lane, .log, .obs, .red, .regs, .rel, .rte, .slu, .trig]) (by decide) (by decide)
    (by decide) (by decide) (by decide) (by decide) (by decide) (by decide) (by decide) (by decide) (by decide) (by decide) (by decide)
    (.refl _ s)).only .mbx (by decide)

section GroupDestroy

variable {s : State} {fn : Nat} (h : takesUp s .f fn 0x141 = true) (hgate : gateOpens s fn 24 [] = true) (h0 : rqW s .f fn 0 = 0)
  (h1 : rqW s .f fn 1 = 0) (hrsvd : bits (rqW s .f fn 2) 63 12 = 0)
include h hgate h0 h1 hrsvd

theorem exec_groupDestroy_refused {r : Reason} {ws : List Nat}
    (hchk : firstOf [(grpState s (gcIdx s fn) == 0, .state), (grpTenant s (gcIdx s fn) != fn, .conflict)] = some (r, ws)) :
    exec (.groupDestroy fn) s = .next (refuse s .f fn r ws) :=
  congrArg Host.Outcome.next (fwGated_refused_chk (fmt := fun s => rqW s .f fn 0 == 0 && rqW s .f fn 1 == 0 && rsvd s .f fn 2 63 12)
    (priv := fun _ => none)
    (chk := fun s => firstOf [(grpState s (gcIdx s fn) == 0, .state), (grpTenant s (gcIdx s fn) != fn, .conflict)])
    h (by simp [h0, h1, rsvd, hrsvd]) hgate rfl hchk _)

theorem exec_groupDestroy_done (hstate : grpState s (gcIdx s fn) ≠ 0) (htenant : grpTenant s (gcIdx s fn) = fn) :
    exec (.groupDestroy fn) s = .next (refuse (groupDestroy (pastGate s fn 24) (gcIdx s fn)) .f fn .none []) := by
  have hgmbx : (pastGate s fn 24).mbx = s.mbx := (pastGate_keeps s fn 24).only .mbx (by decide)
  have hmbx : (groupDestroy (pastGate s fn 24) (gcIdx s fn)).mbx = s.mbx := (groupDestroy_mbx _ _).trans hgmbx
  have hchk : firstOf [(grpState s (gcIdx s fn) == 0, .state), (grpTenant s (gcIdx s fn) != fn, .conflict)] = none := by
    rw [firstOf, beq_eq_false_iff_ne.mpr hstate, firstOf, htenant, bne_self_eq_false]
    rfl
  exact congrArg Host.Outcome.next (fwGated_acts (fmt := fun s => rqW s .f fn 0 == 0 && rqW s .f fn 1 == 0 && rsvd s .f fn 2 63 12)
    (priv := fun _ => none)
    (chk := fun s => firstOf [(grpState s (gcIdx s fn) == 0, .state), (grpTenant s (gcIdx s fn) != fn, .conflict)])
    (act := fun s => answerOk (groupDestroy s (gcIdx s fn)) .f fn) h (by simp [h0, h1, rsvd, hrsvd]) hgate rfl hchk hmbx
    (by rw [gcIdx_of_mbx hgmbx, answerOk_eq]))

end GroupDestroy

/-- Settles O40: each command's checks in their order, and behind them what its list or its group leaves. -/
theorem groupsAndListsAct : Obligations.GroupsAndListsAct := by
  refine ⟨?_, ?_, ?_, ?_⟩
  · intro fn d s hfn hwf h hgate hlist hrsvd
    have hno {r : Reason} {ws : List Nat} (hchk : groupCheck d fn s = some (r, ws)) :=
      refused_outcome (exec_groupCreate_refused h hgate hlist hrsvd hchk)
    refine ⟨fun hused => hno (groupCheck_of_used hused), fun hfree hold => hno (groupCheck_of_old hfree hold),
      fun hfree hold hd => hno ?_, fun bs hfree hold hd => ⟨fun j hj => hno ?_, fun hpass hfew => hno ?_, fun hpass hfew => ?_⟩⟩
    · rw [groupCheck_of_new hfree hold, listCheck_of_unread hd]
    · rw [groupCheck_of_new hfree hold, listCheck_of_check hd hj]
    · rw [groupCheck_of_new hfree hold, listCheck_of_passed hd hpass]
      exact if_pos hfew
    · have hchk : groupCheck d fn s = none := by
        rw [groupCheck_of_new hfree hold, listCheck_of_passed hd hpass]
        exact if_neg (by rw [hfew]; exact Bool.false_ne_true)
      have hmbx : (planListed (pastGate s fn 24) fn bs).mbx = s.mbx := by
        rw [(planListed_keeps _ fn bs).only .mbx (by decide)]
        exact (pastGate_keeps s fn 24).only .mbx (by decide)
      have hw : (planListed (pastGate s fn 24) fn bs).wf = true := (planListed_keeps _ fn bs).wf ((pastGate_keeps s fn 24).wf hwf)
      have hmade : (groupMake fn fn (planListed (pastGate s fn 24) fn bs)).mbx = s.mbx := by
        rw [(groupMake_keeps (w := [.coll, .regs]) (by decide) (by decide) (.refl _ _)).only .mbx (by decide)]
        exact hmbx
      obtain ⟨hstate, htenant, hid⟩ := groupMake_entry hw fn fn (by omega)
      have hepoch := groupMake_epochs fn fn (planListed (pastGate s fn 24) fn bs)
      rw [gcIdx_of_mbx hmbx] at hstate htenant hid
      rw [gcGroup_of_mbx hmbx, gcEpoch_of_mbx hmbx] at hid hepoch
      refine ⟨_, exec_groupCreate_made h hgate hlist hrsvd hd hchk, told_refuse hmade _ _ _ _, ?_, ?_, ?_, ?_, fun t ht => ?_⟩
      · rw [grpState_refuse]
        exact hstate
      · rw [grpTenant_refuse]
        exact htenant
      · rw [grpId_refuse]
        exact hid
      · rw [refuse_coll]
        exact hepoch
      · have hseq := groupMake_seq hw fn fn ht
        rw [gcIdx_of_mbx hmbx] at hseq
        rw [fld_refuse]
        exact hseq
  · intro fn s hfn hwf h hgate h0 h1 hrsvd
    refine ⟨fun hfree => refused_outcome (exec_groupDestroy_refused h hgate h0 h1 hrsvd ?_),
      fun hused hother => refused_outcome (exec_groupDestroy_refused h hgate h0 h1 hrsvd ?_), fun hused hown => ?_⟩
    · rw [firstOf, hfree]
      rfl
    · rw [firstOf, beq_eq_false_iff_ne.mpr hused, firstOf, bne_iff_ne.mpr hother]
      rfl
    · have hw : (pastGate s fn 24).wf = true := (pastGate_keeps s fn 24).wf hwf
      have hmbx := (groupDestroy_mbx (pastGate s fn 24) (gcIdx s fn)).trans ((pastGate_keeps s fn 24).only .mbx (by decide))
      refine ⟨_, exec_groupDestroy_done h hgate h0 h1 hrsvd hused hown, told_refuse hmbx _ _ _ _, ?_, ?_, ?_, ?_⟩
      · rw [grpState_refuse, groupDestroy_eq, grpState, fld_setFld_same _ _ _ (groupEmptied_wf hw _) (by decide) (by decide)]
        rfl
      · rw [refuse_coll, groupDestroy_eq, setFld_coll]
        exact groupEmptied_ops _ _
      · rw [refuse_slu, groupDestroy_eq, setFld_slu]
        exact groupEmptied_sluFree _ _
      · rw [refuse_coll, groupDestroy_eq, setFld_coll]
        exact groupEmptied_plans _ _
  · intro bs s h hlen hlist hrsvd
    have hno {d : HostData} {r : Reason} {ws : List Nat} (hchk : listCheck d 0 configTry configApply s = some (r, ws)) :=
      refused_outcome (exec_arbConfigure_refused h hlen hlist hrsvd hchk)
    refine ⟨fun d hd => hno (listCheck_of_unread hd), fun i hi => hno (listCheck_of_check rfl hi), fun hpass harms => ?_, fun i hpass harm => ?_⟩
    · exact ⟨_, exec_arbConfigure_unarmed h hlen hlist hrsvd hpass harms, refuse_regs _ _ _ _ _,
        (refuse_keeps (by decide) (by decide) (Keeps.refl [.host, .mbx] (arbListed s bs))).only .arb (by decide),
        told_refuse (arbListed_mbx s bs) _ _ _ _⟩
    · exact ⟨_, exec_arbConfigure_armFails h hlen hlist hrsvd hpass harm, refuse_regs _ _ _ _ _,
        (refuse_keeps (by decide) (by decide) (Keeps.refl [.host, .mbx] s)).only .arb (by decide), told_refuse rfl _ _ _ _⟩
  · intro fn bs s hfn hwf h hgate hlist hrsvd hopen
    refine ⟨fun d hd => refused_outcome (exec_traceConfigure_refused h hgate hlist hrsvd hopen (listCheck_of_unread hd)), fun i hi => ?_, fun hpass => ?_⟩
    · exact ⟨_, exec_traceConfigure_refused h hgate hlist hrsvd hopen (listCheck_of_check rfl hi), refuse_regs _ _ _ _ _,
        (refuse_keeps (by decide) (by decide) (Keeps.refl [.host, .mbx] s)).only .obs (by decide), told_refuse rfl _ _ _ _⟩
    · have hgmbx : (pastGate s fn 24).mbx = s.mbx := (pastGate_keeps s fn 24).only .mbx (by decide)
      refine ⟨_, exec_traceConfigure_applied h hgate hlist hrsvd hopen hpass, told_refuse ((traceListed_mbx _ fn bs).trans hgmbx) _ _ _ _, ?_⟩
      rw [refuse_regs, traceListed, listRecs_of_mbx hgmbx]

end Sys2Proof.Machine

namespace Sys2Proof.Machine

/-! ### A COMBINE that finds every row staged (R312, R313) -/

/-- A sluice command of the right SKIND that need not wait and passes its checks runs, its offer taken. -/
theorem sluStart_runs {s : State} {src : CmdSrc} {c : Cmd} {ok : Nat → Bool} {waits : Cmd → Bool} (hstarts : starts s src c = true)
    (hcmd : Desc_cmd c.desc = 9) (hok : ok (SluKind c.desc) = true) (hwaits : waits c = false) (hcheck : sluCheck (takeOffer s src) c = none)
    (k : State → Cmd → State) : sluStart s src ok waits k = k (takeOffer s src) c := by
  simp only [starts, Bool.and_eq_true, beq_iff_eq, Bool.not_eq_true'] at hstarts
  obtain ⟨hoffer, halive⟩ := hstarts
  simp [sluStart, startCmd, hoffer, halive, hcmd, hok, hwaits, hcheck]

theorem takeOffer_cmds (s : State) (src : CmdSrc) : (takeOffer s src).host.cmds = s.host.cmds := by
  cases src <;> rfl

theorem addCmd_cmds (s : State) (c : Cmd) : (addCmd s c).host.cmds = s.host.cmds ++ [c] :=
  congrArg HostState.cmds (traceCmd_host _ c false)

theorem sluOf_place {s : State} {t i : Nat} {o : SluOp} (h : sluOf s t i = some o) : o.tile = t ∧ o.gidx = i := by
  simpa using List.find?_some h

/-- Where the first of `q` is one of `p`, an update of the first of `p` puts its value there. -/
theorem find?_updFirst {α : Type} {p q : α → Bool} {l : List α} {x y : α} (h : l.find? q = some x) (hx : p x = true) (hy : q y = true) :
    (updFirst p (fun _ => y) l).find? q = some y := by
  induction l with
  | nil => cases h
  | cons a l ih =>
    rw [updFirst]
    split
    · exact List.find?_cons_of_pos hy
    next ha =>
      have hother : ¬ q a = true := fun hq => by
        rw [List.find?_cons_of_pos hq, Option.some.injEq] at h
        exact ha (h ▸ hx)
      rw [List.find?_cons_of_neg hother] at h ⊢
      exact ih h

/-- An operation replaced by another of its record and group is the one its group then finds. -/
theorem sluOf_putSlu {s : State} {t i : Nat} {o o' : SluOp} (h : sluOf s t i = some o) (htile : o'.tile = o.tile) (ho : o'.o = o.o)
    (hgidx : o'.gidx = o.gidx) : sluOf (putSlu s o') t i = some o' := by
  obtain ⟨ht, hi⟩ := sluOf_place h
  exact find?_updFirst h (by simp [htile, ho]) (by simp [htile, hgidx, ht, hi])

/-- The record at `a`, the sluices and the started commands are as they were, and a canonical state stays canonical. -/
structure OriginKept (a : Nat) (u v : State) : Prop where
  rd : rd v a = rd u a
  slu : v.slu = u.slu
  cmds : v.host.cmds = u.host.cmds
  wf : u.wf = true → v.wf = true

section Kept

variable {a : Nat}

theorem OriginKept.refl (u : State) : OriginKept a u u := ⟨rfl, rfl, rfl, id⟩

theorem OriginKept.trans {u v w : State} (h : OriginKept a u v) (k : OriginKept a v w) : OriginKept a u w :=
  ⟨k.rd.trans h.rd, k.slu.trans h.slu, k.cmds.trans h.cmds, fun x => k.wf (h.wf x)⟩

theorem OriginKept.foldl {α : Type} {f : State → α → State} (h : ∀ u x, OriginKept a u (f u x)) (l : List α) (u : State) :
    OriginKept a u (l.foldl f u) := by
  induction l generalizing u with
  | nil => exact .refl u
  | cons x l ih => exact (h u x).trans (ih _)

theorem bump_originKept {b : Nat} (hb : a ≠ b) (u : State) (f : Fld) (n : Nat) : OriginKept a u (bump u b f n) :=
  ⟨rd_setFld_ne u f _ hb, rfl, rfl, setFld_wf⟩

theorem tniFmt_originKept {t : Nat} (ht : a ≠ Reg.tniFmtStat t) (u : State) (e : FmtEvents) : OriginKept a u (tniFmt u t e) :=
  (((bump_originKept ht _ _ _).trans (bump_originKept ht _ _ _)).trans (bump_originKept ht _ _ _)).trans (bump_originKept ht _ _ _)

theorem storeFabric_cmds (u : State) (fn b : Nat) (bs : List Byte) (psn : Bool) : (storeFabric u fn b bs psn).host.cmds = u.host.cmds := by
  unfold storeFabric
  split
  · rfl
  · exact congrArg HostState.cmds ((storeSeen_keeps (w := [.mem, .memPoison, .obs, .regs]) (by decide) (by decide) (by decide) (by decide)
      (.refl _ u)).only .host (by decide))

theorem storeFabric_originKept (ha : NoWatch a) (u : State) (fn b : Nat) (bs : List Byte) (psn : Bool) :
    OriginKept a u (storeFabric u fn b bs psn) :=
  have hkeep : Keeps [.host, .mem, .memPoison, .obs, .regs] u (storeFabric u fn b bs psn) :=
    storeFabric_keeps (by decide) (by decide) (by decide) (by decide) (by decide) (.refl _ u)
  ⟨rd_storeFabric ha u fn b bs psn, hkeep.only .slu (by decide), storeFabric_cmds u fn b bs psn, hkeep.wf⟩

theorem widenRow_originKept (ha : NoWatch a) (u : State) (o : SluOp) (x : Staged) : OriginKept a u (widenRow u o x) := by
  unfold widenRow
  exact .foldl (fun v w => storeFabric_originKept ha v _ _ _ _) _ u

end Kept

/-- Rows that were all staged in the form COMBINE requires stay staged. -/
theorem judgeStaged_of_sound {a : Nat} (ha : NoWatch a) {o : SluOp} {d : Nat}
    (h : (o.staged.all fun x => x.efmt == wireEfmt (SluEfmt d) (SluWire d)) = true) (u : State) :
    (judgeStaged u o d).2 = o ∧ OriginKept a u (judgeStaged u o d).1 := by
  have hbad : (o.staged.filter fun x => x.efmt != wireEfmt (SluEfmt d) (SluWire d)) = [] := by
    rw [List.filter_eq_nil_iff]
    intro x hx
    simpa using List.all_eq_true.mp h x hx
  unfold judgeStaged
  rw [hbad]
  refine ⟨rfl, ?_⟩
  dsimp only [List.foldl_nil]
  split
  · exact .foldl (fun v x => widenRow_originKept ha v o x) _ _
  · exact .refl u

/-- A record that exists is none of its tile's member entries, and no register that tracing, storing or counting touches. -/
theorem sluReg_apart {o : SluOp} (h : o.o < 16) : NoWatch (sluReg o) ∧ sluReg o ∉ (List.range 64).map Reg.telTwStat ∧
    sluReg o ≠ Reg.tniFmtStat o.tile ∧ sluReg o ≠ Reg.tniSluStat o.tile ∧ sluReg o ≠ Reg.tniGrpMember o.tile o.gidx := by
  have hreg : sluReg o = 0x2000000 + o.tile * 0x80000 + 0x1700 + o.o * 8 := rfl
  refine ⟨fun t k hk h => ?_, fun h => ?_, fun h => ?_, fun h => ?_, fun h => ?_⟩
  · simp only [hreg, Reg.tniWatchStat, Blk.base] at h
    omega
  · obtain ⟨w, hw, h⟩ := List.mem_map.mp h
    rw [List.mem_range] at hw
    simp only [hreg, Reg.telTwStat, Blk.base] at h
    omega
  · simp only [hreg, Reg.tniFmtStat, Blk.base] at h
    omega
  · simp only [hreg, Reg.tniSluStat, Blk.base] at h
    omega
  · simp only [hreg, Reg.tniGrpMember, Blk.base] at h
    omega

/-- With the DISPATCH completed, every row staged and nothing poisoned, COMBINE writes its rows and ends ST_OK. -/
theorem combineWake_done {s : State} {t i id d : Nat} {o : SluOp} (ho : o.o < 16) (hop : sluOf s t i = some o)
    (hcombine : o.combine = some (id, d)) (hphase : o.phase = .done) (hpsn : o.psn = false)
    (hgot : fld s (sluReg o) TniSluOstat.EXPECT ≤ fld s (sluReg o) TniSluOstat.GOT) :
    ∃ v b, combineWake s t i = combineEnd v o id .ok 0 b ∧ OriginKept (sluReg o) (setFld s (sluReg o) TniSluOstat.STATE 3) v := by
  obtain ⟨hwatch, -, hfmt, hstat, -⟩ := sluReg_apart ho
  obtain ⟨rfl, -⟩ := sluOf_place hop
  have hgo : ¬ (o.phase != .done ∨ fld s (sluReg o) TniSluOstat.GOT < fld s (sluReg o) TniSluOstat.EXPECT) := by
    simp [hphase, hgot]
  unfold combineWake
  simp only [hop, hcombine, if_neg hgo, hpsn, Bool.false_eq_true, if_false]
  refine ⟨_, _, rfl, .trans (.foldl (fun u r => ?_) _ _) (bump_originKept hstat _ _ _)⟩
  exact (tniFmt_originKept hfmt u _).trans (storeFabric_originKept hwatch _ _ _ _ _)

/-- The record of a COMBINE that has ended is free, if there is such a record. -/
theorem rd_combineEnd {s : State} (hwf : s.wf = true) {o : SluOp} (ho : o.o < 16) (id : Nat) (st : Status) (detail bytes : Nat) :
    rd (combineEnd s o id st detail bytes) (sluReg o) = 0 := by
  obtain ⟨-, -, -, -, hmember⟩ := sluReg_apart ho
  unfold combineEnd
  rw [rd_of_regs_eq (updCmd_regs _ _ _), bump, rd_setFld_ne _ _ _ hmember]
  exact rd_wrReg_same hwf _ _

theorem mem_combineEnd_ops {s : State} {o x : SluOp} {id : Nat} {st : Status} {detail bytes : Nat}
    (h : x ∈ (combineEnd s o id st detail bytes).slu.ops) : x ∈ s.slu.ops ∧ ¬ (x.tile = o.tile ∧ x.o = o.o) := by
  obtain ⟨hmem, hother⟩ := List.mem_filter.mp h
  exact ⟨hmem, fun hx => by simp [hx] at hother⟩

/-- The operation and the COMBINE that has come to it. -/
def combining (o : SluOp) (c : Cmd) : SluOp := { o with combine := some (c.id, c.desc) }

section Combine

variable {s : State} {src : CmdSrc} {c : Cmd} {o : SluOp} (hwf : s.wf = true) (hstarts : starts s src c = true) (hcmd : Desc_cmd c.desc = 9)
  (hkind : SluKind c.desc = 2) (hcheck : sluCheck (takeOffer s src) c = none) (hop : sluOf s c.ex.tile (SluGidx c.desc) = some o)
  (hstaged : (o.staged.all fun x => x.efmt == wireEfmt (SluEfmt c.desc) (SluWire c.desc)) = true) (ho : o.o < 16)

include hstarts hcmd hkind hcheck hop hstaged ho in
/-- A COMBINE in whose form the staged rows came joins its operation, whose record stays. -/
theorem exec_sluiceCombine_joins : ∃ v, exec (.sluiceCombine src) s =
      .next (combineWake (putSlu v (combining o c)) c.ex.tile (SluGidx c.desc)) ∧ rd v (sluReg o) = rd s (sluReg o) ∧ v.slu = s.slu ∧
    v.host.cmds = s.host.cmds ++ [{ c with left := 1 }] ∧ (s.wf = true → v.wf = true) := by
  obtain ⟨hwatch, htrace, -⟩ := sluReg_apart ho
  have hoffer : Keeps [.host, .trig] s (takeOffer s src) := takeOffer_keeps (by decide) (by decide) (.refl _ s)
  let m := addCmd (takeOffer s src) { c with left := 1 }
  have hadd : Keeps [.host, .obs, .regs, .trig] s m :=
    addCmd_keeps (by decide) (by decide) (by decide) (hoffer.mono (by decide))
  obtain ⟨hsame, hjudged⟩ := judgeStaged_of_sound hwatch hstaged m
  have hslu : (takeOffer s src).slu = s.slu := hoffer.only .slu (by decide)
  have hop' : sluOf (takeOffer s src) c.ex.tile (SluGidx c.desc) = some o := by rw [sluOf, hslu]; exact hop
  refine ⟨(judgeStaged m o c.desc).1, ?_, hjudged.rd.trans ?_, hjudged.slu.trans (hadd.only .slu (by decide)), hjudged.cmds.trans ?_,
    fun h => hjudged.wf (hadd.wf h)⟩
  · change execSluiceCombine src s = _
    rw [execSluiceCombine, sluStart_runs hstarts hcmd (by simp [hkind]) rfl hcheck]
    simp only [hop']
    rw [hsame]
    rfl
  · exact (traceCmd_regsOutside _ _ _ _ htrace).trans (rd_of_regs_eq (hoffer.only .regs (by decide)).1 _)
  · exact (addCmd_cmds _ _).trans (congrArg (· ++ _) (takeOffer_cmds s src))

include hwf hstarts hcmd hkind hcheck hop hstaged ho in
/-- At a record that exists such a COMBINE, with every row staged, the DISPATCH completed and nothing poisoned, ends ST_OK and frees the record. -/
theorem exec_sluiceCombine_done (hgot : fld s (sluReg o) TniSluOstat.EXPECT ≤ fld s (sluReg o) TniSluOstat.GOT) (hpsn : o.psn = false)
    (hphase : o.phase = .done) : ∃ u b, exec (.sluiceCombine src) s = .next u ∧ (∀ x ∈ u.slu.ops, x ∈ s.slu.ops ∧ x ≠ o) ∧
      rd u (sluReg o) = 0 ∧ u.host.cmds = updFirst (fun x => x.id == c.id) (fun x => { x with left := 0, status := .ok, detail := 0, bytes := b })
        (s.host.cmds ++ [{ c with left := 1 }]) := by
  obtain ⟨v, hexec, hrd, hslu, hcmds, hvwf⟩ := exec_sluiceCombine_joins hstarts hcmd hkind hcheck hop hstaged ho
  have hjoined : sluOf (putSlu v (combining o c)) c.ex.tile (SluGidx c.desc) = some (combining o c) :=
    sluOf_putSlu (s := v) (o := o) (by rw [sluOf, hslu]; exact hop) rfl rfl rfl
  have hrec (f : Fld) : fld (putSlu v (combining o c)) (sluReg (combining o c)) f = fld s (sluReg o) f := congrArg (getF · f) hrd
  obtain ⟨w, b, hwake, hkept⟩ := combineWake_done (o := combining o c) ho hjoined rfl hphase hpsn (by rw [hrec, hrec]; exact hgot)
  have hwwf : w.wf = true := hkept.wf (setFld_wf (hvwf hwf))
  refine ⟨_, b, hexec.trans (congrArg _ hwake), fun x hx => ?_, rd_combineEnd hwwf (o := combining o c) ho _ _ _ _, ?_⟩
  · obtain ⟨hmem, hother⟩ := mem_combineEnd_ops hx
    rw [hkept.slu] at hmem
    rcases mem_updFirst hmem with hmem | ⟨y, -, rfl⟩
    · rw [hslu] at hmem
      exact ⟨hmem, fun h => hother (h ▸ ⟨rfl, rfl⟩)⟩
    · exact absurd ⟨rfl, rfl⟩ hother
  · exact congrArg (updFirst _ _) (hkept.cmds.trans hcmds)

end Combine

/-! ### A record that does not exist (R303, R313) -/

/-- What would be operation record 15648 of tile 0, which has sixteen, is the tile's member entry of group index 0. -/
theorem tniSluOstat_of_no_record : Reg.tniSluOstat 0 15648 = Reg.tniGrpMember 0 0 := rfl

/-- A DISPATCH of one token of one element that has completed, held under that record. -/
def strayRecord : SluOp := { tile := 0, o := 15648, gidx := 0, cmd := 7, desc := 0, seq := 0, phase := .done }

/-- STATE 2 and four rows of four: EXPECT 4 is also V of the member entry. -/
def strayWord : Word := setF (setF (setF 0 TniSluOstat.STATE 2) TniSluOstat.EXPECT 4) TniSluOstat.GOT 4

/-- Tile 0 is good, group index 0 is ready, and the tile holds the operation. -/
def strayOrigin : State :=
  let s := wrReg {} Reg.fabGoodTiles (setF 0 FabGoodTiles.GOOD 1)
  let s := wrReg s (Reg.rtrEpOwner 0) (setF 0 RtrEpOwner.OWNER 1)
  let s := wrReg s (Reg.fabGrpA 0) (setF (setF 0 FabGrpA.STATE 1) FabGrpA.TENANT 1)
  { wrReg s (Reg.tniSluOstat 0 15648) strayWord with slu := { ops := [strayRecord] } }

/-- A COMBINE in FP32, whose OUT is the beginning of tile 0's window. -/
def strayDesc : Nat := 9 * 2 ^ 56 + 2 ^ 200 + 2 * 2 ^ 222 + 2 ^ 244 + 2 ^ 508

/-- Tile 0's core presents it. -/
def strayCombine : CmdSrc := .core 0 strayDesc []

def strayCmd : Cmd := { id := strayOrigin.host.nextCmd, src := strayCombine, ex := ⟨0, 0, 0⟩, tenant := 1, desc := strayDesc }

theorem strayCombine_starts : strayOrigin.wf = true ∧ starts strayOrigin strayCombine strayCmd = true ∧ Desc_cmd strayCmd.desc = 9 ∧
    SluKind strayCmd.desc = 2 ∧ Ep_kind strayCmd.ex = .tile ∧ sluCheck (takeOffer strayOrigin strayCombine) strayCmd = none ∧
    sluOf strayOrigin strayCmd.ex.tile (SluGidx strayCmd.desc) = some strayRecord := by
  decide +kernel

theorem strayRecord_staged :
    fld strayOrigin (sluReg strayRecord) TniSluOstat.EXPECT ≤ fld strayOrigin (sluReg strayRecord) TniSluOstat.GOT := by
  decide +kernel

/-- SEQ advances in the word that was the record. -/
theorem exec_strayCombine_record :
    rd (after (exec (.sluiceCombine strayCombine) strayOrigin) strayOrigin) (sluReg strayRecord) ≠ 0 := by
  decide +kernel

/-- Refutes O29: the statement ranges over every record number, also beyond the sixteen of R303. What would be `strayRecord`'s record is the member
entry of its group (`tniSluOstat_of_no_record`): COMBINE frees it and then advances SEQ in the same word, which so does not read 0. A record that
exists does: `exec_sluiceCombine_done`. -/
theorem not_originsDispatchAndCombine : ¬ Obligations.OriginsDispatchAndCombine := by
  intro h
  obtain ⟨-, -, -, hcombine, -⟩ := h
  obtain ⟨hwf, hstarts, hcmd, hkind, htile, hcheck, hop⟩ := strayCombine_starts
  obtain ⟨-, hdone⟩ := hcombine strayCombine strayCmd strayRecord strayOrigin hwf hstarts hcmd hkind htile hcheck hop rfl rfl
  obtain ⟨u, b, hu, -, hfree, -⟩ := hdone strayRecord_staged rfl rfl
  have hseq := exec_strayCombine_record
  rw [hu] at hseq
  exact hseq hfree

end Sys2Proof.Machine

namespace Sys2Proof.Machine

/-! ### The KIND of an ASSIGN (R304, R305) -/

/-- ADDR made of fields that fit keeps its KIND. -/
theorem SaKind_claimAddr {kind gidx round hm1 wire : Nat} (hkind : kind < 16) (hgidx : gidx < 4096) (hround : round < 8) (hhm1 : hm1 < 16384)
    (hwire : wire < 4) (seq : Nat) : SaKind (claimAddr kind gidx round hm1 wire seq) = kind := by
  simp only [SaKind, bits, claimAddr]
  omega

theorem mem_claimOrder {c : Claim} {acc l : List Claim} (h : c ∈ claimOrder acc l) : c ∈ acc ∨ c ∈ l := by
  have hins (x : Claim) (acc : List Claim) (h : c ∈ claimOrder.ins x acc) : c = x ∨ c ∈ acc := by
    induction acc with
    | nil => exact .inl (List.mem_singleton.mp h)
    | cons d acc ih =>
      rw [claimOrder.ins] at h
      split at h
      · exact List.mem_cons.mp h
      · rcases List.mem_cons.mp h with rfl | h
        · exact .inr (.head _)
        · exact (ih h).imp_right (.tail _)
  induction l generalizing acc with
  | nil => exact .inl h
  | cons x l ih =>
    rcases ih h with h | h
    · rcases hins x acc h with rfl | h
      · exact .inr (.head _)
      · exact .inl h
    · exact .inr (.tail _ h)

/-- Between `s` and `u` claims of rounds below eight were admitted; the interfaces and the RETURN commands are as they were. -/
structure Admitting (s u : State) : Prop where
  round : ∀ x ∈ u.slu.assigns, x.1.round < 8
  rets : u.slu.rets = s.slu.rets
  dyn : u.dyn = s.dyn

theorem Admitting.of_slu {s u v : State} (h : Admitting s u) (ha : v.slu.assigns = u.slu.assigns) (hr : v.slu.rets = u.slu.rets)
    (hd : v.dyn = u.dyn) : Admitting s v :=
  ⟨fun x hx => h.round x (ha ▸ hx), hr.trans h.rets, hd.trans h.dyn⟩

theorem admitClaim_admitting {s u : State} (h : Admitting s u) {c : Claim} (hc : c.round < 8) : Admitting s (admitClaim u c) := by
  refine ⟨fun x hx => ?_, h.rets, h.dyn⟩
  rcases List.mem_append.mp hx with hx | hx
  · exact h.round x hx
  · rw [List.mem_singleton.mp hx]
    exact hc

theorem slotFilling_admitting {s u : State} (h : Admitting s u) (t k : Nat) : Admitting s (slotFilling u t k) := by
  have hkeep : Keeps [.regs, .trig] u (slotFilling u t k) := slotFilling_keeps (by decide) (by decide) (.refl _ u)
  have hslu := hkeep.only .slu (by decide)
  exact h.of_slu (congrArg SluState.assigns hslu) (congrArg SluState.rets hslu) (hkeep.only .dyn (by decide))

theorem admitSlot_admitting {s u : State} (h : Admitting s u) {round : Nat} (hround : round < 8) (t k : Nat) :
    Admitting s (admitSlot u t k round) := by
  unfold admitSlot
  dsimp only
  split
  · exact h
  · have hfold : Admitting s _ := List.foldlRecOn
      (claimOrder [] (u.slu.claims.filter fun c => c.tile == t && c.slot == k && c.round == round && c.seq == slotSeq u t k)) admitClaim
      (h.of_slu (v := { u with slu := { u.slu with claims := u.slu.claims.filter fun c =>
        ! (c.tile == t && c.slot == k && c.round == round && c.seq == slotSeq u t k) } }) rfl rfl rfl)
      fun v hv c hc => admitClaim_admitting hv (by
        rcases mem_claimOrder hc with hc | hc
        · cases hc
        · have hmine := (List.mem_filter.mp hc).2
          simp only [Bool.and_eq_true, beq_iff_eq] at hmine
          omega)
    split
    · exact slotFilling_admitting hfold t k
    · exact hfold

/-- The ASSIGNs of a home for claims of rounds below eight have KIND 1. -/
theorem sendAssigns_kind {s : State} (h : ∀ x ∈ s.slu.assigns, x.1.round < 8) (t : Nat) :
    ∀ r ∈ (sendAssigns s t).dyn.waiting, r ∈ s.dyn.waiting ∨ SaKind r.pkt.addr = 1 := by
  unfold sendAssigns
  refine List.foldlRecOn (motive := fun u : State => ∀ r ∈ u.dyn.waiting, r ∈ s.dyn.waiting ∨ SaKind r.pkt.addr = 1) _ _
    (fun r hr => .inl hr) fun u hu k _ => ?_
  split
  · exact hu
  next x _ hx =>
    intro r hr
    rcases List.mem_append.mp hr with hr | hr
    · exact hu r hr
    · obtain ⟨hready, hkey⟩ := List.mem_filter.mp (hx ▸ List.mem_cons_self : x ∈ List.filter _ _)
      refine .inr ?_
      rw [List.mem_singleton.mp hr, ← beq_iff_eq.mp hkey]
      exact SaKind_claimAddr (by decide) (getF_lt _ TniSluInba.GIDX) (h x (List.mem_filter.mp hready).1) (by decide) (by decide) _

theorem sendAssigns_rets (s : State) (t : Nat) : (sendAssigns s t).slu.rets = s.slu.rets := by
  unfold sendAssigns
  refine List.foldlRecOn (motive := fun u : State => u.slu.rets = s.slu.rets) _ _ rfl fun u hu k _ => ?_
  split
  · exact hu
  · exact hu

theorem retWake_of_no_rets {s : State} (h : s.slu.rets = []) : retWake s = s := by
  rw [retWake, h]
  rfl

/-- In the rounds that ADDR has a place for, every packet that an admission sends with no RETURN waiting is an ASSIGN. -/
theorem exec_homeAdmission_kind {s : State} {round : Nat} (hround : round < 8) (hassigns : s.slu.assigns = []) (hrets : s.slu.rets = [])
    (t : Nat) (slots : List Nat) :
    ∃ u, exec (.homeAdmission t slots round) s = .next u ∧ ∀ r ∈ u.dyn.waiting, r ∈ s.dyn.waiting ∨ SaKind r.pkt.addr = 1 := by
  have hadmit : Admitting s (slots.foldl (fun s k => admitSlot s t k round) s) :=
    List.foldlRecOn slots _ ⟨by simp [hassigns], rfl, rfl⟩ fun u hu k _ => admitSlot_admitting hu hround t k
  refine ⟨_, rfl, ?_⟩
  rw [retWake_of_no_rets ((sendAssigns_rets _ t).trans (hadmit.rets.trans hrets))]
  have hkind := sendAssigns_kind hadmit.round t
  rwa [hadmit.dyn] at hkind

/-! ### A round that ADDR has no place for (R304, R305) -/

/-- A claim of tile 1's sluice held for round 32,768 at slot 3 of tile 0. -/
def lateClaim : Claim := ⟨0, 3, 0, 2 ^ 15, 0, 1, 0, ⟨0, 1, 5⟩, 0, 0, 0⟩

/-- The slot has one row, is valid and holds the claim. -/
def lateHome : State :=
  let s := wrReg {} (inbA 0 3) (setF (setF 0 TniSluInba.V 1) TniSluInba.CAP 1)
  { wrReg s (inbS 0 3) (setF 0 TniSluIstat.STATE 1) with slu := { claims := [lateClaim] } }

theorem lateHome_admits : lateHome.wf = true ∧ flag lateHome (inbA 0 3) TniSluInba.V = true ∧ inbState lateHome 0 3 = 1 ∧
    lastRound lateHome 0 3 (2 ^ 15) = false ∧ roundOver lateHome 0 (fld lateHome (inbA 0 3) TniSluInba.GIDX) (slotSeq lateHome 0 3) (2 ^ 15) = true ∧
    (lateHome.slu.claims.filter fun x => x.tile == 0 && x.slot == 3 && x.round == 2 ^ 15 && x.seq == slotSeq lateHome 0 3) = [lateClaim] ∧
    (lateHome.slu.claims.filter fun d => assignKey lateHome d == assignKey lateHome lateClaim) = [lateClaim] := by
  decide +kernel

theorem exec_lateHome_kinds :
    (after (exec (.homeAdmission 0 [3] (2 ^ 15)) lateHome) lateHome).dyn.waiting.map (fun r => SaKind r.pkt.addr) = [2] := by
  decide +kernel

/-- Refutes O30: the statement ranges over every round, also beyond the three bits that ADDR has for it. Round 32,768 reaches into KIND, so the packet
that answers `lateClaim` has the KIND of ROWS (2), where the statement says that of ASSIGN (1). In a round below
eight it has: `exec_homeAdmission_kind`. -/
theorem not_homesAdmitAndReturn : ¬ Obligations.HomesAdmitAndReturn := by
  intro h
  obtain ⟨-, -, -, -, hadmit, -⟩ := h
  obtain ⟨hwf, hv, hstate, hlast, hover, hmine, hkey⟩ := lateHome_admits
  obtain ⟨u, w, hu, -, -, -, -, hwait, -, -, hkind, -⟩ := hadmit 0 3 (2 ^ 15) lateClaim lateHome hwf hv (by rw [hstate]; decide)
    (by rw [hstate]; decide) rfl rfl hlast hover hmine hkey rfl rfl
  have hkinds := exec_lateHome_kinds
  rw [hu, after, hwait, List.map_append, List.map_singleton, hkind] at hkinds
  exact absurd hkinds (by decide)

end Sys2Proof.Machine

namespace Sys2Proof.Machine

/-! ### A channel's registers and working state (R320-R326) -/

/-- The state of a channel that was written reads back. -/
theorem chan_setChan {s : State} (h : tWf (fun _ => ({} : ChanRun)) s.chan.runs = true) (t c : Nat) (r : ChanRun) : chan (setChan s t c r) t c = r :=
  eGet_eSet_same _ _ _ _ h

theorem chan_of_eq {s u : State} (h : u.chan = s.chan) (t c : Nat) : chan u t c = chan s t c := by
  rw [chan, h, chan]

/-- A channel's working state is none of the registers. -/
@[simp] theorem rd_setChan (s : State) (t c : Nat) (r : ChanRun) (a : Nat) : rd (setChan s t c r) a = rd s a := rfl

@[simp] theorem fld_setChan (s : State) (t c : Nat) (r : ChanRun) (a : Nat) (f : Fld) : fld (setChan s t c r) a f = fld s a f := rfl

theorem wf_setChan {s : State} (h : s.wf = true) (t c : Nat) (r : ChanRun) : (setChan s t c r).wf = true := h

/-- A TNI's count of channel events is no channel's register. -/
theorem fld_chCount (s : State) {t a : Nat} (h : a ≠ Reg.tniChCount t) (f g : Fld) (n : Nat) : fld (chCount s t f n) a g = fld s a g :=
  fld_setFld_ne _ _ _ _ h

theorem chStat_ne_tniChCount (t c : Nat) : chStat t c ≠ Reg.tniChCount t := by
  simp only [chStat, Reg.tniChStat, Reg.tniChCount]; omega

theorem tniChSpill_ne_tniChCount (t c : Nat) : Reg.tniChSpill t c ≠ Reg.tniChCount t := by
  simp only [Reg.tniChSpill, Reg.tniChCount]; omega

theorem tniChSpill_ne_chStat (t c : Nat) : Reg.tniChSpill t c ≠ chStat t c := by
  simp only [Reg.tniChSpill, chStat, Reg.tniChStat]; omega

/-! ### A command that starts (R374) -/

/-- A command of the right kind that may start runs, its offer taken. -/
theorem startCmd_runs {s : State} {src : CmdSrc} {c : Cmd} {kind : Nat → Bool} (hstarts : starts s src c = true) (hkind : kind (Desc_cmd c.desc) = true)
    (k : State → Cmd → State) : startCmd s src kind k = k (takeOffer s src) c := by
  simp only [starts, Bool.and_eq_true, beq_iff_eq, Bool.not_eq_true'] at hstarts
  obtain ⟨hoffer, halive⟩ := hstarts
  simp [startCmd, hoffer, halive, hkind]

theorem addCmd_takeOffer_dyn (s : State) (src : CmdSrc) (c : Cmd) : (addCmd (takeOffer s src) c).dyn = s.dyn :=
  (addCmd_keeps (w := [.host, .obs, .regs, .trig]) (by decide) (by decide) (by decide)
    (takeOffer_keeps (by decide) (by decide) (.refl _ s))).only .dyn (by decide)

/-- The MSG of a SEND (R328). -/
def sendPkt (c : Cmd) : Pkt :=
  { opc := .msg, src := c.ex, dst := SendDst c.desc, tenant := c.tenant, prio := 2, addr := SendChan c.desc, nbytes := 64, layer := Desc_layer c.desc,
    opid := Desc_opid c.desc, poison := c.poison, data := slice c.inl 0 56 ++ List.replicate 8 0 }

/-- A SEND that passes its checks sends its message and stands among the started commands. -/
theorem exec_send {s : State} {src : CmdSrc} {c : Cmd} (hstarts : starts s src c = true) (hcmd : Desc_cmd c.desc = 10)
    (hcheck : sendCheck (takeOffer s src) c = none) :
    exec (.send src) s = .next (enqueue (addCmd (takeOffer s src) { c with left := 1 }) (sendPkt c) (.cmdAck c.id)) := by
  change execSend src s = _
  rw [execSend, startCmd_runs hstarts (by rw [hcmd]; rfl), hcheck]
  rfl

/-! ### A message judged at its channel (R330) -/

theorem exec_msg {s : State} {p : Pkt} (h : passesChecks s p = true) : exec (.msg p) s = .next (judgeMsg (received s p) p) := by
  change execMsg p s = _
  rw [execMsg, arrive_passes _ h]

section Judged

variable {q : State} {p : Pkt} (hten : p.tenant ≠ 0) (hown : p.tenant = owner q p.dst.tile)
include hten hown

/-- A channel that is not open refuses a message with the status of its STATE. -/
theorem judgeMsg_refused {st : Status} (h : (chState q p.dst.tile (p.addr % 4096), st) ∈ [(0, Status.regionFault), (2, .channelClosed), (3, .poisoned)]) :
    judgeMsg q p = ackTo (chCount q p.dst.tile TniChCount.REFUSED 1) p st := by
  unfold judgeMsg
  dsimp only
  rw [if_neg (by simp [hten, ← hown])]
  simp only [List.mem_cons, Prod.mk.injEq, List.not_mem_nil, or_false] at h
  obtain ⟨h, rfl⟩ | ⟨h, rfl⟩ | ⟨h, rfl⟩ := h <;> simp only [h]

/-- A message as it stands in a channel under its ASEQ. -/
def msgOf (p : Pkt) (aseq : Nat) : List Byte := mkMsg p.data (msgWord p.src p.tenant false p.poison false 0 aseq)

/-- A well-formed message at an open channel that does not combine is accepted, or there is no room for it. -/
theorem judgeMsg_open (hopen : chState q p.dst.tile (p.addr % 4096) = 1) (hfmt : fmtSound p = true)
    (hkind : fld q (chCfg p.dst.tile (p.addr % 4096)) TniChCfg.KIND = 0) :
    judgeMsg q p = (acceptMsg q p.dst.tile (p.addr % 4096) (msgOf p) (some p) p.layer p.opid).getD (spillFull q p.dst.tile (some p)) := by
  unfold judgeMsg
  dsimp only
  rw [if_neg (by simp [hten, ← hown]), hopen]
  simp only
  rw [hfmt, Bool.not_true, if_neg Bool.false_ne_true, if_neg (by rw [hkind]; decide)]
  split
  next u hu =>
    have haccept : acceptMsg q p.dst.tile (p.addr % 4096) (msgOf p) (some p) p.layer p.opid = some u := hu
    rw [haccept, Option.getD_some]
  next hu =>
    have haccept : acceptMsg q p.dst.tile (p.addr % 4096) (msgOf p) (some p) p.layer p.opid = none := hu
    rw [haccept, Option.getD_none]

end Judged

/-! ### A message accepted (R330, R332, R334) -/

/-- The next ASEQ taken, and the message counted. -/
def msgTaken (s : State) (t c : Nat) : State := chCount (bump s (chStat t c) TniChStat.ASEQ 1) t TniChCount.MSGS 1

theorem fld_msgTaken_ASEQ {s : State} (h : s.wf = true) (t c : Nat) :
    fld (msgTaken s t c) (chStat t c) TniChStat.ASEQ = (fld s (chStat t c) TniChStat.ASEQ + 1) % 2 ^ fldWidth TniChStat.ASEQ := by
  rw [msgTaken, fld_chCount _ (chStat_ne_tniChCount t c), bump, fld_setFld_same _ _ _ h (by decide) (by decide)]

/-- Of the channel's status only ASEQ differs, and no other register of the channel does. -/
theorem chSpcnt_msgTaken {s : State} (h : s.wf = true) (t c : Nat) : chSpcnt (msgTaken s t c) t c = chSpcnt s t c := by
  rw [chSpcnt, msgTaken, fld_chCount _ (chStat_ne_tniChCount t c), bump, fld_setFld_apart h _ _ (by decide) (by decide) (by decide), chSpcnt]

theorem fld_tniChSpill_msgTaken (s : State) (t c : Nat) (f : Fld) : fld (msgTaken s t c) (Reg.tniChSpill t c) f = fld s (Reg.tniChSpill t c) f := by
  rw [msgTaken, fld_chCount _ (tniChSpill_ne_tniChCount t c), bump, fld_setFld_ne _ _ _ _ (tniChSpill_ne_chStat t c)]

theorem wf_msgTaken {s : State} (h : s.wf = true) (t c : Nat) : (msgTaken s t c).wf = true := setFld_wf (setFld_wf h)

section Accepted

variable {s : State} {t c : Nat} {mk : Nat → List Byte} {ack : Option Pkt} {layer opid : Nat}

theorem acceptMsg_of_full (hring : ringRoom s t c = false) (hspill : chSpcap s t c ≤ chSpcnt s t c) :
    acceptMsg s t c mk ack layer opid = none := by
  simp [acceptMsg, hring, hspill]

variable (hpsn : msgPsn (mk (fld s (chStat t c) TniChStat.ASEQ)) = false)
include hpsn

/-- With room in the ring an unpoisoned message waits for its ring write. -/
theorem acceptMsg_of_ringRoom (hring : ringRoom s t c = true) :
    acceptMsg s t c mk ack layer opid =
      some (setChan (msgTaken s t c) t c { chan s t c with writes := (chan s t c).writes ++ [⟨mk (fld s (chStat t c) TniChStat.ASEQ), ack, false⟩] }) := by
  simp [acceptMsg, hring, hpsn, msgTaken]
  rfl

/-- Without room in the ring it is spilled. -/
theorem acceptMsg_of_spill (hring : ringRoom s t c = false) (hspill : chSpcnt s t c < chSpcap s t c) :
    acceptMsg s t c mk ack layer opid = some (spillMsg (msgTaken s t c) t c (mk (fld s (chStat t c) TniChStat.ASEQ)) ack layer opid) := by
  simp [acceptMsg, hring, hpsn, hspill, msgTaken]

end Accepted

/-- A message that waits for its ring write has taken an ASEQ, and nothing has been sent. -/
theorem waiting_spec {q : State} (h : q.wf = true) (t c : Nat) (w : ChanWrite) :
    (setChan (msgTaken q t c) t c { chan q t c with writes := (chan q t c).writes ++ [w] }).dyn = q.dyn ∧
    fld (setChan (msgTaken q t c) t c { chan q t c with writes := (chan q t c).writes ++ [w] }) (chStat t c) TniChStat.ASEQ =
      (fld q (chStat t c) TniChStat.ASEQ + 1) % 2 ^ fldWidth TniChStat.ASEQ ∧
    (setChan (msgTaken q t c) t c { chan q t c with writes := (chan q t c).writes ++ [w] }).chan.runs =
      eSet {} (4096 * t + c) { chan q t c with writes := (chan q t c).writes ++ [w] } q.chan.runs :=
  ⟨rfl, by rw [fld_setChan, fld_msgTaken_ASEQ h], rfl⟩

/-- With no room anywhere the sender is told so. -/
theorem spillFull_some (s : State) (t : Nat) (p : Pkt) : spillFull s t (some p) = ackTo (chCount s t TniChCount.SPFULL 1) p .spillFull := rfl

/-! ### Word 7 (R319) -/

@[simp] theorem length_toLE (n v : Nat) : (toLE n v).length = n := by
  induction n generalizing v with
  | zero => rfl
  | succ n ih => rw [toLE, List.length_cons, ih]

theorem ofLE_toLE (n v : Nat) : ofLE (toLE n v) = v % 256 ^ n := by
  induction n generalizing v with
  | zero => rw [Nat.pow_zero, Nat.mod_one]; rfl
  | succ n ih =>
    rw [toLE, ofLE, ih, BitVec.toNat_ofNat, pow_succ' 256 n]
    exact Nat.mod_mul.symm

@[simp] theorem length_slice (bs : List Byte) (i n : Nat) : (slice bs i n).length = n := by
  rw [slice, List.length_map, List.length_range]

theorem slice_append_right (as bs : List Byte) : slice (as ++ bs) as.length bs.length = bs := by
  apply List.ext_getElem
  · exact length_slice _ _ _
  · intro k _ hk
    simp [slice, hk]

/-- Word 7 of a message is the word it was made of. -/
theorem slice_mkMsg (body : List Byte) (w : Nat) : slice (mkMsg body w) 56 8 = toLE 8 w := by
  have h := slice_append_right (slice body 0 56) (toLE 8 w)
  rwa [length_slice, length_toLE] at h

/-- An unpoisoned packet's message has PSN (bit 36) clear. -/
theorem msgPsn_msgOf {p : Pkt} (hsound : p.poison = false) {aseq : Nat} (h : aseq < 2 ^ 16) : msgPsn (msgOf p aseq) = false := by
  rw [msgOf, hsound, msgPsn, slice_mkMsg, ofLE_toLE, bit, msgWord]
  simp only [b2n, Bool.false_eq_true, if_false, beq_eq_false_iff_ne]
  omega

/-! ### Spilled messages (R334, R335) -/

@[simp] theorem fld_enqueue (s : State) (p : Pkt) (why : Purpose) (mc : List Ep) (a : Nat) (f : Fld) : fld (enqueue s p why mc) a f = fld s a f := rfl

theorem spillAddr_of_rd {s u : State} {t c : Nat} (h : rd u (Reg.tniChSpill t c) = rd s (Reg.tniChSpill t c)) (k : Nat) :
    spillAddr u t c k = spillAddr s t c k := by
  simp only [spillAddr, fld, h]

theorem rd_tniChSpill_msgTaken (s : State) (t c : Nat) : rd (msgTaken s t c) (Reg.tniChSpill t c) = rd s (Reg.tniChSpill t c) := by
  rw [msgTaken, chCount, bump, rd_setFld_ne _ _ _ (tniChSpill_ne_tniChCount t c), bump, rd_setFld_ne _ _ _ (tniChSpill_ne_chStat t c)]

/-- Spilling fills the next slot, counts it in SPCNT and writes it. -/
theorem spillMsg_spec {s : State} (h : s.wf = true) (t c : Nat) (msg : List Byte) (ack : Option Pkt) (layer opid : Nat) :
    ∃ w, (spillMsg s t c msg ack layer opid).dyn.waiting = s.dyn.waiting ++ [w] ∧ w.why = .spillWr t c (chan s t c).nextSpill ∧
      w.pkt.opc = .wr ∧ w.pkt.addr = spillAddr s t c (chan s t c).nextSpill ∧ w.pkt.prio = 2 ∧ w.pkt.data = msg ∧
      fld (spillMsg s t c msg ack layer opid) (chStat t c) TniChStat.SPCNT = (chSpcnt s t c + 1) % 2 ^ fldWidth TniChStat.SPCNT ∧
      (spillMsg s t c msg ack layer opid).chan.runs = eSet {} (4096 * t + c)
        { chan s t c with spill := (chan s t c).spill ++ [⟨(chan s t c).nextSpill, .pending, msg, ack, s.clk.now, layer, opid⟩]
                          nextSpill := ((chan s t c).nextSpill + 1) % max 1 (chSpcap s t c) } s.chan.runs := by
  refine ⟨_, rfl, rfl, rfl, spillAddr_of_rd ?_ _, rfl, rfl, ?_, rfl⟩
  · exact (rd_setFld_ne _ _ _ (tniChSpill_ne_tniChCount t c)).trans (rd_setFld_ne _ _ _ (tniChSpill_ne_chStat t c))
  · rw [spillMsg, fld_enqueue, fld_chCount _ (chStat_ne_tniChCount t c), fld_setFld_same _ _ _ (wf_setChan h t c _) (by decide) (by decide),
      chSpcnt, fld_setChan, chSpcnt]

/-- A message without room in the ring fills the next slot of its spillway. -/
theorem spillMsg_msgTaken_spec {q : State} {t c : Nat} (h : q.wf = true) (m : List Byte) (ack : Option Pkt) (layer opid : Nat) :
    ∃ w, (spillMsg (msgTaken q t c) t c m ack layer opid).dyn.waiting = q.dyn.waiting ++ [w] ∧ w.why = .spillWr t c (chan q t c).nextSpill ∧
      w.pkt.opc = .wr ∧ w.pkt.addr = spillAddr q t c (chan q t c).nextSpill ∧ w.pkt.prio = 2 ∧ w.pkt.data = m ∧
      fld (spillMsg (msgTaken q t c) t c m ack layer opid) (chStat t c) TniChStat.SPCNT = (chSpcnt q t c + 1) % 2 ^ fldWidth TniChStat.SPCNT ∧
      (spillMsg (msgTaken q t c) t c m ack layer opid).chan.runs = eSet {} (4096 * t + c)
        { chan q t c with spill := (chan q t c).spill ++ [⟨(chan q t c).nextSpill, .pending, m, ack, q.clk.now, layer, opid⟩]
                          nextSpill := ((chan q t c).nextSpill + 1) % max 1 (chSpcap q t c) } q.chan.runs := by
  have hspec := spillMsg_spec (wf_msgTaken h t c) t c m ack layer opid
  rw [chSpcnt_msgTaken h, spillAddr_of_rd (rd_tniChSpill_msgTaken q t c), chSpcap, fld_tniChSpill_msgTaken] at hspec
  exact hspec

/-- The oldest message whose write has completed, while the ring has room, is read back. -/
theorem execRefillRead_of_oldest {s : State} {t c : Nat} {x : SpillSlot} (hroom : chRcnt s t c + refilling s t c < chDepth s t c)
    (hx : ((chan s t c).spill.find? fun y => y.st == .pending || y.st == .held) = some x) :
    ∃ p : Pkt, p.opc = .rdReq ∧ p.addr = spillAddr s t c x.k ∧ p.nbytes = 64 ∧ p.prio = 2 ∧
    exec (.refillRead t c) s = .next (if x.st = .pending then s
      else enqueue (updSpill s t c x.k fun y => { y with st := .reading }) p (.refill t c x.k)) := by
  refine ⟨{ opc := .rdReq, src := ⟨myChip s, t, 0⟩, dst := homeEp s (myChip s) (spillAddr s t c x.k), tenant := owner s t, prio := 2,
            addr := spillAddr s t c x.k, nbytes := 64, layer := x.layer, opid := x.opid }, rfl, rfl, rfl, rfl, ?_⟩
  change execRefillRead t c s = _
  rw [execRefillRead, if_neg (Nat.not_le.mpr hroom), hx]
  simp only [beq_iff_eq]
  rfl

/-! ### What the sending of an answer leaves of the registers (R632, R649, R655) -/

/-- A register that counts no packets, arms no injection and is no well's. -/
structure Unsent (a : Nat) : Prop where
  count : ∀ t k, k < 4 → a ≠ Reg.tniOpmCnt t k
  injection : ∀ b, a ≠ injReg b
  well : a ∉ (List.range 64).map Reg.telTwStat

theorem rd_injFire {a : Nat} {b : Blk} (h : a ≠ injReg b) (s : State) : rd (injFire s b) a = rd s a := by
  have hlower : rd (lower s (injReg b) Inj.ARM) a = rd s a := by
    rw [lower]
    split
    · rfl
    · exact rd_setFld_ne _ _ _ h
  exact (rd_setFld_ne _ _ _ h).trans hlower

section Sent

variable {a : Nat} (ha : Unsent a)
include ha

theorem rd_inject_response {p : Pkt} (ho : isResponse p.opc = true) (s : State) : rd (inject s p) a = rd s a := by
  have hmatch (u : State) (q : Pkt) (c : Prop) [Decidable c] : rd (if c then matchOp u q.src.tile q.layer q.opid q.data.length else u) a = rd u a := by
    split
    · exact rd_matchOp _ _ _ _ _ _ (ha.count _)
    · rfl
  have htrace (u : State) (n : Nat) (q : Pkt) : rd (tracePkt u n q 0 0xFF) a = rd u a := by
    unfold tracePkt
    split
    · exact traceTo_regsOutside _ _ _ _ _ _ _ _ a ha.well
    · rfl
  have hformat (u : State) (q : Pkt) : rd (injFormat u q).2 a = rd u a := by
    unfold injFormat
    split
    · exact rd_injFire (ha.injection _) u
    · rfl
  have hput (u : State) (q : Pkt) : rd (putNet u q) a = rd u a := by
    unfold putNet
    dsimp only
    split
    · exact rd_injFire (ha.injection _) u
    · rfl
  have hback (u : State) (q : Pkt) : rd (entryBack u q) a = rd u a :=
    rd_of_regs_eq ((entryBack_keeps (w := [.dyn, .lane]) (by decide) (by decide) (.refl _ u)).only .regs (by decide)).1 a
  unfold inject
  simp only [ho, if_true]
  rw [hback, hput, hformat, htrace, hmatch]

/-- An answer leaves every register that its sending does not count in. -/
theorem rd_ackTo (s : State) (p : Pkt) (st : Status) : rd (ackTo s p st) a = rd s a := by
  rw [ackTo, rspTo]
  split
  · exact rd_injFire (ha.injection _) s
  · exact rd_inject_response ha rfl s

end Sent

theorem injReg_mod (b : Blk) : injReg b % 32 = 8 ∨ injReg b < 0x200000 := by
  cases b with
  | fab | sec => exact .inr (by decide)
  | hp | tel => exact .inl (by decide)
  | _ => simp only [injReg, Reg.inj, Blk.base]; omega

/-- The status of a channel that exists is none of those registers. -/
theorem unsent_chStat (t : Nat) {c : Nat} (hc : c < 4096) : Unsent (chStat t c) := by
  refine ⟨fun u k hk => ?_, fun b => ?_, fun h => ?_⟩
  · simp only [chStat, Reg.tniChStat, Reg.tniOpmCnt, Blk.base]
    omega
  · have hb := injReg_mod b
    simp only [chStat, Reg.tniChStat, Blk.base]
    omega
  · obtain ⟨w, hw, hreg⟩ := List.mem_map.mp h
    have hlt := List.mem_range.mp hw
    simp only [chStat, Reg.tniChStat, Reg.telTwStat, Blk.base] at hreg
    omega

/-- What stands at a TNI's channels is no watcher's status. -/
theorem noWatch_channel (t : Nat) {c k : Nat} (hc : c < 4096) (hk : k < 4) : NoWatch ((Blk.tni t).base + 0x40000 + 8 * k + c * 32) := by
  intro u j hj h
  simp only [Reg.tniWatchStat, Blk.base] at h
  omega

theorem noWatch_chStat (t : Nat) {c : Nat} (hc : c < 4096) : NoWatch (chStat t c) := noWatch_channel t hc (k := 3) (by decide)

theorem noWatch_tniChRing (t : Nat) {c : Nat} (hc : c < 4096) : NoWatch (Reg.tniChRing t c) := noWatch_channel t hc (k := 1) (by decide)

theorem noWatch_injReg (b : Blk) : NoWatch (injReg b) := by
  intro u k hk h
  cases b <;> simp only [injReg, Reg.inj, Reg.fabInj, Reg.secInj, Reg.tniWatchStat, Blk.base] at h <;> omega

theorem rd_storeSeen {a : Nat} (ha : NoWatch a) (s : State) (b : Nat) (bs : List Byte) (psn : Bool) : rd (storeSeen s b bs psn) a = rd s a :=
  (rd_sramNote ha _ _ _).trans (rd_of_regs_eq (store_regs s b bs psn) a)

/-- A unit's injection stands as it did, so what it sends is as plain. -/
theorem plainSend_of_rd {s u : State} {p : Pkt} (h : rd u (injReg (epBlk p.dst)) = rd s (injReg (epBlk p.dst))) : plainSend u p = plainSend s p := by
  rw [plainSend, flag, fld, h, ← fld, ← flag, ← plainSend]

/-! ### A ring write (R318, R332) -/

theorem rd_writeRing {a : Nat} (ha : NoWatch a) (s : State) (t c : Nat) (m : List Byte) : rd (writeRing s t c m) a = rd s a :=
  (rd_storeSeen ha _ _ _ _).trans (rd_storeSeen ha _ _ _ _)

theorem ringAddr_of_rd {s u : State} {t c : Nat} (h : rd u (Reg.tniChRing t c) = rd s (Reg.tniChRing t c)) (off : Nat) :
    ringAddr u t c off = ringAddr s t c off := by
  simp only [ringAddr, fld, h]

/-- A ring lies in one piece. -/
theorem ringAddr_add (s : State) {t off : Nat} (hoff : off ≤ 64 * 4096) (c : Nat) : ringAddr s t c off = ringAddr s t c 0 + off := by
  have hodd : fld s (Reg.tniChRing t c) TniChRing.ODD < 2 := getF_lt _ TniChRing.ODD
  have hbase : fld s (Reg.tniChRing t c) TniChRing.RBASE < 2 ^ 23 := getF_lt _ TniChRing.RBASE
  simp only [ringAddr, tileAddr, fabAddr]
  omega

theorem chDepth_le (s : State) (t c : Nat) : chDepth s t c ≤ 4096 := getF_lt _ TniChCfg.DEPTHM1

/-- The ring slot behind the newest message, and the line of pointers that a message there brings (R318). -/
def tailSlot (s : State) (t c : Nat) : Nat := (fld s (chStat t c) TniChStat.HEAD + chRcnt s t c) % chDepth s t c

def pointerLine (s : State) (t c : Nat) (m : List Byte) : List Byte :=
  toLE 2 ((tailSlot s t c + 1) % chDepth s t c) ++ toLE 2 (msgAseq m) ++ List.replicate 60 0

theorem tailSlot_lt (s : State) (t c : Nat) : tailSlot s t c < chDepth s t c := Nat.mod_lt _ (Nat.succ_pos _)

/-- The slot's 64 bytes come before the pointer line's. -/
theorem slot_before_pointerLine (s : State) (t c : Nat) :
    ringAddr s t c (64 * tailSlot s t c) + 64 ≤ ringAddr s t c (64 * chDepth s t c) := by
  have hslot := tailSlot_lt s t c
  have hdepth := chDepth_le s t c
  rw [ringAddr_add s (by omega), ringAddr_add s (off := 64 * chDepth s t c) (by omega)]
  omega

/-- The message is placed, and then the pointer line. -/
theorem placed_writeRing {s : State} (h : s.wf = true) (t : Nat) {c : Nat} (hc : c < 4096) (m : List Byte) :
    ∃ v, Placed (ringAddr s t c (64 * tailSlot s t c)) m s v ∧
      Placed (ringAddr s t c (64 * chDepth s t c)) (pointerLine s t c m) v (writeRing s t c m) := by
  have hfirst := placed_storeSeen h (ringAddr s t c (64 * tailSlot s t c)) m (msgPsn m)
  have hwf : (storeSeen s (ringAddr s t c (64 * tailSlot s t c)) m (msgPsn m)).wf = true :=
    (storeSeen_keeps (w := [.mem, .memPoison, .obs, .regs]) (by decide) (by decide) (by decide) (by decide) (.refl _ s)).wf h
  refine ⟨_, hfirst, ?_⟩
  rw [← ringAddr_of_rd (rd_storeSeen (noWatch_tniChRing t hc) s (ringAddr s t c (64 * tailSlot s t c)) m (msgPsn m))]
  exact placed_storeSeen hwf _ _ _

/-- The first message that waits written and taken off, not yet counted. -/
def ringTaken (s : State) (t c : Nat) (w : ChanWrite) (rest : List ChanWrite) : State :=
  let v := writeRing s t c w.msg
  setChan v t c { chan s t c with writes := rest, stamps := (chan s t c).stamps ++ [v.clk.now] }

/-- The message counted in RCNT. -/
def ringWritten (s : State) (t c : Nat) (w : ChanWrite) (rest : List ChanWrite) : State :=
  setFld (ringTaken s t c w rest) (chStat t c) TniChStat.RCNT (chRcnt (ringTaken s t c w rest) t c + 1)

/-- The record of a missing handler changes neither registers, memory nor the network. -/
theorem noteHandler_only (s : State) (t c : Nat) : Only [.chan, .log, .rel] s (noteHandler s t c) :=
  (noteHandler_keeps (by decide) (by decide) (by decide) (.refl _ s)).only

section RingWritten

variable {s : State} {t c : Nat} {w : ChanWrite} {rest : List ChanWrite}

theorem rd_ringTaken {a : Nat} (ha : NoWatch a) : rd (ringTaken s t c w rest) a = rd s a := by
  rw [ringTaken, rd_setChan, rd_writeRing ha]

theorem exec_ringWrite {p : Pkt} (hw : (chan s t c).writes = w :: rest) (hack : w.ack = some p) (hrefill : w.refill = false) :
    exec (.ringWrite t c) s = .next (noteHandler (ackTo (ringWritten s t c w rest) p .ok) t c) := by
  change execRingWrite t c s = _
  rw [execRingWrite, hw]
  simp only [hack, hrefill, Bool.false_eq_true, if_false]
  rw [ringWritten, ringTaken]

theorem plainSend_ringWritten (p : Pkt) (hc : c < 4096) : plainSend (ringWritten s t c w rest) p = plainSend s p := by
  refine plainSend_of_rd ?_
  rw [ringWritten, rd_setFld_ne _ _ _ ((unsent_chStat t hc).injection _).symm, rd_ringTaken (noWatch_injReg _)]

theorem chRcnt_ringWritten (h : s.wf = true) (hc : c < 4096) :
    chRcnt (ringWritten s t c w rest) t c = (chRcnt s t c + 1) % 2 ^ fldWidth TniChStat.RCNT := by
  have hwf : (ringTaken s t c w rest).wf = true := wf_setChan
    ((writeRing_keeps (w := [.mem, .memPoison, .obs, .regs]) (by decide) (by decide) (by decide) (by decide) (.refl _ s)).wf h) t c _
  have hcount : chRcnt (ringTaken s t c w rest) t c = chRcnt s t c := by rw [chRcnt, fld, rd_ringTaken (noWatch_chStat t hc), ← fld, ← chRcnt]
  rw [chRcnt, ringWritten, fld_setFld_same _ _ _ hwf (by decide) (by decide), hcount]

theorem chRcnt_acked (h : s.wf = true) (hc : c < 4096) (p : Pkt) : chRcnt (noteHandler (ackTo (ringWritten s t c w rest) p .ok) t c) t c =
    (chRcnt s t c + 1) % 2 ^ fldWidth TniChStat.RCNT := by
  rw [← chRcnt_ringWritten h hc, chRcnt, fld, rd_of_regs_eq (noteHandler_only _ t c .regs (by decide)).1, rd_ackTo (unsent_chStat t hc), ← fld, ← chRcnt]

theorem readByte_acked (p : Pkt) (x : Nat) :
    readByte (noteHandler (ackTo (ringWritten s t c w rest) p .ok) t c) x = readByte (writeRing s t c w.msg) x := by
  rw [readByte_of_mem_eq (noteHandler_only _ t c .mem (by decide)), ackTo, readByte_of_mem_eq (rspTo_mem _ p p.dst .ack 3 _ false), ringWritten,
    readByte_of_mem_eq (setFld_mem _ _ _ _), ringTaken, readByte_of_mem_eq (setChan_mem _ _ _ _)]

theorem answered_acked {p : Pkt} (hplain : plainSend s p = true) (hc : c < 4096) :
    Answered (noteHandler (ackTo (ringWritten s t c w rest) p .ok) t c) p .ack [0] := by
  have hack : Answered (ackTo (ringWritten s t c w rest) p .ok) p .ack [0] := ackTo_answered ((plainSend_ringWritten p hc).trans hplain)
  rwa [Answered, noteHandler_only _ t c .dyn (by decide)]

end RingWritten

/-- Two pieces placed one behind the other, the second beyond the first: each reads back, and all else is as before. -/
theorem readByte_placed_both {s v u : State} {a b n : Nat} {xs ys : List Byte} (hxs : Placed a xs s v) (hys : Placed b ys v u) (hx : xs.length = n)
    (hy : ys.length = n) (hab : a + n ≤ b) : (∀ i, i < n → readByte u (a + i) = xs.getD i 0) ∧ (∀ i, i < n → readByte u (b + i) = ys.getD i 0) ∧
      ∀ x, x < a ∨ a + n ≤ x → x < b ∨ b + n ≤ x → readByte u x = readByte s x := by
  refine ⟨fun i hi => ?_, fun i hi => ?_, fun x hxa hxb => ?_⟩
  · rw [hys, if_neg (by omega), hxs, if_pos (by omega), Nat.add_sub_cancel_left]
  · rw [hys, if_pos (by omega), Nat.add_sub_cancel_left]
  · rw [hys, if_neg (by omega), hxs, if_neg (by omega)]

/-! ### Requests forgotten (R118, R336, R346) -/

/-- A register that is no cistern's status. -/
def NoCistern (a : Nat) : Prop := ∀ s e, a ≠ cisReg s e

theorem noCistern_injReg (b : Blk) : NoCistern (injReg b) := by
  intro s e h
  rw [cisReg] at h
  split at h
  · cases b <;> simp only [injReg, Reg.inj, Reg.fabInj, Reg.secInj, Reg.fmpCisternStat, Blk.base] at h <;> omega
  · cases b <;> simp only [injReg, Reg.inj, Reg.fabInj, Reg.secInj, Reg.fmpCisternStat, Blk.base] at h <;> omega
  · have hcis (x : Blk) : Reg.cisternStat x % 32 = 24 := by cases x <;> simp only [Reg.cisternStat, Blk.base] <;> omega
    have hmod := hcis (epBlk (cisEp s e))
    rw [← h] at hmod
    cases b <;> simp only [injReg, Reg.inj, Reg.fabInj, Reg.secInj, Blk.base] at hmod <;> omega

section Forgotten

variable {a : Nat} (ha : NoCistern a)
include ha

theorem rd_dropWaiting (s : State) (gone : Req → Bool) : rd (dropWaiting s gone) a = rd s a := by
  have hgive (l : List Req) (u : State) : rd (l.foldl (fun s r => giveFree s r.pkt.src (rspSlots r.pkt r.mc)) u) a = rd u a := by
    induction l generalizing u with
    | nil => rfl
    | cons r l ih => exact (ih _).trans (rd_setFld_ne _ _ _ (ha _ _))
  exact hgive _ s

theorem rd_release (s : State) (v : Rsv) : rd (release s v) a = rd s a := by
  rw [release]
  split
  · exact rd_dropWaiting ha _ _
  · rfl

theorem rd_dropReq (s : State) (id : Nat) : rd (dropReq s id) a = rd s a := by
  have hrelease (l : List Rsv) (u : State) : rd (l.foldl release u) a = rd u a := by
    induction l generalizing u with
    | nil => rfl
    | cons v l ih => exact (ih _).trans (rd_release ha u v)
  exact (rd_dropWaiting ha _ _).trans (hrelease _ s)

/-- Requests forgotten give back slots of cisterns alone. -/
theorem rd_forgetSpill (s : State) (mine : Purpose → Bool) : rd (forgetSpill s mine) a = rd s a := by
  have hdrop (l : List Req) (u : State) : rd (l.foldl (fun s r => dropReq s r.id) u) a = rd u a := by
    induction l generalizing u with
    | nil => rfl
    | cons r l ih => exact (ih _).trans (rd_dropReq ha u r.id)
  exact hdrop _ s

end Forgotten

/-! ### A spill write that does not complete (R336) -/

/-- The only slot of a number is the one found there in its state. -/
theorem spillAt_of_filter {s : State} {t c k : Nat} {x : SpillSlot} (h : ((chan s t c).spill.filter fun y => y.k == k) = [x]) :
    spillAt s t c k x.st = some x := by
  have hfind : ((chan s t c).spill.filter fun y => y.k == k).find? (fun y => y.st == x.st) = some x := by simp [h]
  rw [spillAt, ← hfind, List.find?_filter]
  simp only [Bool.decide_and, Bool.decide_eq_true]

/-- The only element that a list's first update is for takes it. -/
theorem mem_updFirst_of_filter {α : Type} {p : α → Bool} {f : α → α} {l : List α} {x y : α} (h : l.filter p = [x]) (hy : y ∈ updFirst p f l)
    (hp : p y = true) : y = f x := by
  induction l with
  | nil => cases hy
  | cons z l ih =>
    rw [updFirst] at hy
    by_cases hz : p z = true
    · rw [List.filter_cons_of_pos hz] at h
      obtain ⟨rfl, hnone⟩ := List.cons.inj h
      rw [if_pos hz] at hy
      rcases List.mem_cons.mp hy with rfl | hy
      · rfl
      · exact absurd hp (List.filter_eq_nil_iff.mp hnone y hy)
    · rw [List.filter_cons_of_neg hz] at h
      rw [if_neg hz] at hy
      rcases List.mem_cons.mp hy with rfl | hy
      · exact absurd hp hz
      · exact ih h hy

/-- The slots passed on are the oldest; the others stand as they did. -/
theorem spill_passSpill {s : State} (h : tWf (fun _ => ({} : ChanRun)) s.chan.runs = true) (t c n : Nat) :
    (chan (passSpill s t c n) t c).spill <:+ (chan s t c).spill := by
  induction n generalizing s with
  | zero => exact List.suffix_refl _
  | succ n ih =>
    have hset (r : ChanRun) : tWf (fun _ => ({} : ChanRun)) (setChan s t c r).chan.runs = true := tWf_tSet _ _ _ h
    have hpassed {x : SpillSlot} {rest : List SpillSlot} {u : State} {r : ChanRun} (hspill : (chan s t c).spill = x :: rest)
        (hu : u.chan = (setChan s t c r).chan) (hr : r.spill = rest) : (chan (passSpill u t c n) t c).spill <:+ (chan s t c).spill := by
      have hrun : chan u t c = r := (chan_of_eq hu t c).trans (chan_setChan h t c r)
      refine (ih (hu ▸ hset r)).trans ?_
      rw [hrun, hr, hspill]
      exact List.suffix_cons _ _
    rw [passSpill]
    split
    · exact List.suffix_refl _
    · next x rest hspill =>
      split
      · exact hpassed hspill rfl rfl
      · exact hpassed hspill rfl rfl
      · exact List.suffix_refl _

/-- A slot whose write has failed. -/
def spillVoid (x : SpillSlot) : SpillSlot := { x with st := .void, ack := none }

/-- The slot void and its sender told. -/
def spillRefused (s : State) (t c k : Nat) (p : Pkt) : State :=
  ackTo (chCount (updSpill s t c k spillVoid) t TniChCount.SPFULL 1) p .spillFull

section SpillFailed

variable {s : State} {t c k : Nat} {x : SpillSlot} {p : Pkt} {cause : Status}

/-- A spill write that fails voids its slot, tells its sender, is recorded, and lets the spillway pass. -/
theorem spillFailed_eq (hx : spillAt s t c k .pending = some x) (hack : x.ack = some p) :
    ∃ e, spillFailed s t c k cause = passAll (log (spillRefused s t c k p) e) t c := by
  rw [spillFailed, hx]
  dsimp only
  rw [hack]
  exact ⟨_, rfl⟩

theorem ackTo_chan (s : State) (p : Pkt) (st : Status) : (ackTo s p st).chan = s.chan :=
  (ackTo_keeps (w := [.dyn, .free, .lane, .obs, .regs, .rel]) (by decide) (by decide) (by decide) (by decide) (by decide) (by decide)
    (.refl _ s)).only .chan (by decide)

theorem log_chan (s : State) (e : ErrRec) : (log s e).chan = s.chan :=
  (log_keeps (w := [.log, .rel]) (by decide) (by decide) (.refl _ s)).only .chan (by decide)

theorem log_dyn (s : State) (e : ErrRec) : (log s e).dyn = s.dyn :=
  (log_keeps (w := [.log, .rel]) (by decide) (by decide) (.refl _ s)).only .dyn (by decide)

theorem passAll_dyn (s : State) (t c : Nat) : (passAll s t c).dyn = s.dyn :=
  (passAll_keeps (w := [.chan, .regs]) (by decide) (by decide) (.refl _ s)).only .dyn (by decide)

/-- No slot of its number then waits for its write. -/
theorem spillAt_spillFailed (h : tWf (fun _ => ({} : ChanRun)) s.chan.runs = true) (hone : ((chan s t c).spill.filter fun y => y.k == k) = [x])
    (hpending : x.st = .pending) (hack : x.ack = some p) : spillAt (spillFailed s t c k cause) t c k .pending = none := by
  have hx : spillAt s t c k .pending = some x := hpending ▸ spillAt_of_filter hone
  obtain ⟨e, he⟩ := spillFailed_eq (cause := cause) hx hack
  have hchan : (log (spillRefused s t c k p) e).chan = (updSpill s t c k spillVoid).chan := by
    rw [log_chan, spillRefused, ackTo_chan, chCount, bump_chan]
  have hsuffix := spill_passSpill (s := log (spillRefused s t c k p) e) (by rw [hchan]; exact tWf_tSet _ _ _ h) t c
    (chan (log (spillRefused s t c k p) e) t c).spill.length
  rw [chan_of_eq hchan, updSpill, chan_setChan h] at hsuffix
  rw [spillAt, List.find?_eq_none, he, passAll, chan_of_eq hchan, updSpill, chan_setChan h]
  intro y hy
  by_cases hk : (y.k == k) = true
  · rw [mem_updFirst_of_filter hone (hsuffix.subset hy) hk]
    simp [spillVoid]
  · simp [hk]

theorem answered_spillFailed (hx : spillAt s t c k .pending = some x) (hack : x.ack = some p) (hplain : plainSend s p = true) :
    Answered (spillFailed s t c k cause) p .ack [BitVec.ofNat 8 Status.spillFull.code] := by
  obtain ⟨e, he⟩ := spillFailed_eq (cause := cause) hx hack
  have hcount : Reg.tniChCount t ≠ injReg (epBlk p.dst) := by
    have hb := injReg_mod (epBlk p.dst)
    simp only [Reg.tniChCount, Blk.base]
    omega
  have hsame : plainSend (chCount (updSpill s t c k spillVoid) t TniChCount.SPFULL 1) p = true :=
    (plainSend_of_rd (rd_setFld_ne _ _ _ hcount.symm)).trans hplain
  have hsent : Answered (spillRefused s t c k p) p .ack [BitVec.ofNat 8 Status.spillFull.code] := ackTo_answered hsame
  rwa [Answered, he, passAll_dyn, log_dyn]

end SpillFailed

section TimedOut

variable {s : State} {t c k : Nat} {x : SpillSlot}

/-- When the time of the slot's write has run out, its requests forgotten. -/
def spillExpired (s : State) (t c k : Nat) (x : SpillSlot) : State := forgetSpill (later s (x.entered + usCycles 100)) (slotPurpose t c k)

theorem spillExpired_keeps : Keeps [.dyn, .regs] (later s (x.entered + usCycles 100)) (spillExpired s t c k x) :=
  forgetSpill_keeps (by decide) (by decide) (.refl _ _)

theorem spillExpired_chan : (spillExpired s t c k x).chan = s.chan := spillExpired_keeps.only .chan (by decide)

theorem exec_spillWriteTimeout (hq : quiet s = true) (hx : spillAt s t c k .pending = some x) :
    exec (.spillWriteTimeout t c k) s = .next (spillFailed (spillExpired s t c k x) t c k .spillFull) := by
  change execSpillWriteTimeout t c k s = _
  rw [execSpillWriteTimeout, hx]
  dsimp only
  rw [advanceTo_quiet _ hq, spillExpired]

theorem clk_spillWriteTimeout (cause : Status) : (spillFailed (spillExpired s t c k x) t c k cause).clk.now = max s.clk.now (x.entered + usCycles 100) := by
  have hkeep := spillFailed_keeps (w := [.chan, .dyn, .free, .lane, .log, .obs, .regs, .rel]) (x2 := t) (c := c) (k := k) (cause := cause) (by decide)
    (by decide) (by decide) (by decide) (by decide) (by decide) (by decide) (by decide) (.refl _ (spillExpired s t c k x))
  rw [hkeep.only .clk (by decide), spillExpired_keeps.only .clk (by decide)]
  rfl

end TimedOut

/-- Settles O31: each clause is what its command does with the message at hand, in the ring (`ringWritten`), in the spillway (`spillMsg_msgTaken_spec`,
`spillFailed_eq`) or at its channel (`judgeMsg_refused`). -/
theorem messagesReachChannels : Obligations.MessagesReachChannels := by
  refine ⟨?send, ?judged, ?ring, ?timeout, ?refill⟩
  case send =>
    intro src c s hstarts hcmd hcheck
    refine ⟨_, { id := s.dyn.nextReq, pkt := sendPkt c, why := .cmdAck c.id, mc := [] }, exec_send hstarts hcmd hcheck, ?_, rfl, rfl, rfl, rfl, rfl, rfl,
      rfl, ?_⟩
    · rw [enqueue, addCmd_takeOffer_dyn]
    · exact (addCmd_cmds _ _).trans (by rw [takeOffer_cmds])
  case judged =>
    intro p s h hpass hten
    dsimp only
    intro hown hlen
    have hwf : (received s p).wf = true := (received_keeps s p).wf h
    have hrefused {st : Status} (hst : (chState (received s p) p.dst.tile (p.addr % 4096), st) ∈
        [(0, Status.regionFault), (2, .channelClosed), (3, .poisoned)]) :
        exec (.msg p) s = .next (ackTo (chCount (received s p) p.dst.tile TniChCount.REFUSED 1) p st) :=
      (exec_msg hpass).trans (congrArg Host.Outcome.next (judgeMsg_refused hten hown hst))
    refine ⟨fun hst => hrefused (by rw [hst]; simp), fun hst => hrefused (by rw [hst]; simp), fun hst => hrefused (by rw [hst]; simp),
      fun hopen hkind hsound hfmt => ?_⟩
    have hjudged := judgeMsg_open hten hown hopen hfmt hkind
    have hpsn : msgPsn (msgOf p (fld (received s p) (chStat p.dst.tile (p.addr % 4096)) TniChStat.ASEQ)) = false :=
      msgPsn_msgOf hsound (getF_lt _ TniChStat.ASEQ)
    have hmsg : mkMsg p.data (msgWord p.src p.tenant false false false 0 (fld (received s p) (chStat p.dst.tile (p.addr % 4096)) TniChStat.ASEQ)) =
        msgOf p (fld (received s p) (chStat p.dst.tile (p.addr % 4096)) TniChStat.ASEQ) := by
      rw [msgOf, hsound]
    rw [hmsg]
    refine ⟨fun hring => ⟨_, exec_msg hpass, ?_⟩, fun hring hspill => ?_, fun hring hspill => ?_⟩
    · rw [hjudged, acceptMsg_of_ringRoom hpsn hring, Option.getD_some]
      exact waiting_spec hwf _ _ _
    · rw [exec_msg hpass, hjudged, acceptMsg_of_spill hpsn hring hspill, Option.getD_some]
      obtain ⟨w, hspec⟩ := spillMsg_msgTaken_spec (t := p.dst.tile) (c := p.addr % 4096) hwf
        (msgOf p (fld (received s p) (chStat p.dst.tile (p.addr % 4096)) TniChStat.ASEQ)) (some p) p.layer p.opid
      exact ⟨_, w, rfl, hspec⟩
    · rw [exec_msg hpass, hjudged, acceptMsg_of_full hring hspill, Option.getD_none, spillFull_some]
  case ring =>
    intro t c w rest p s h hw ht hc hack hrefill hmsg hplain
    dsimp only
    obtain ⟨v, hfirst, hline⟩ := placed_writeRing h t hc w.msg
    have hboth := readByte_placed_both hfirst hline hmsg (by simp [pointerLine]) (slot_before_pointerLine s t c)
    simp only [tailSlot, pointerLine] at hboth
    exact ⟨_, exec_ringWrite hw hack hrefill, answered_acked hplain hc, chRcnt_acked h hc p, by simpa only [readByte_acked] using hboth⟩
  case timeout =>
    intro t c k x p s hq hone hpending hack hruns hplain h
    have hx : spillAt s t c k .pending = some x := hpending ▸ spillAt_of_filter hone
    have hrun := chan_of_eq (spillExpired_chan (s := s) (t := t) (c := c) (k := k) (x := x)) t c
    have hlater : spillAt (spillExpired s t c k x) t c k .pending = some x := by rw [spillAt, hrun, ← spillAt, hx]
    refine ⟨_, exec_spillWriteTimeout hq hx, clk_spillWriteTimeout _, answered_spillFailed hlater hack ?_,
      spillAt_spillFailed (by rw [spillExpired_chan]; exact hruns) (by rw [hrun]; exact hone) hpending hack⟩
    exact (plainSend_of_rd (rd_forgetSpill (noCistern_injReg _) _ _)).trans hplain
  case refill =>
    intro t c x s hroom hx
    obtain ⟨p, hopc, haddr, hbytes, hprio, hexec⟩ := execRefillRead_of_oldest hroom hx
    refine ⟨fun hst => ?_, fun hst => ?_⟩
    · rw [hexec, if_pos hst]
    · rw [hexec, if_neg (by rw [hst]; decide)]
      exact ⟨_, _, rfl, rfl, rfl, hopc, haddr, hbytes, hprio, rfl⟩

end Sys2Proof.Machine

namespace Sys2Proof.Machine

/-! ### A channel number beyond the tile's 4,096 (R324) -/

/-- What would be channel 8,352 of tile 0, which has 4,096, is a counter of tile 1's packet matchers. -/
theorem chStat_of_no_channel : chStat 0 8352 = Reg.tniOpmCnt 1 1 := rfl

/-- A MSG to tile 1. -/
def strayMsg : Pkt := { opc := .msg, src := ⟨0, 0, 0⟩, dst := ⟨0, 1, 0⟩, tenant := 1, prio := 2, tag := 3, addr := 6, nbytes := 64 }

/-- The counter's bits read as STATE 2 and DISP 0 (PKTS 2^23, BYTES 65,535), and `strayMsg` waits at the channel. -/
def strayChannel : State :=
  { wrReg {} (Reg.tniOpmCnt 1 1) (setF (setF 0 TniOpmCnt.PKTS (2 ^ 23)) TniOpmCnt.BYTES 65535) with
    chan := { runs := [(8352, { writes := [⟨[], some strayMsg, false⟩] })] } }

theorem strayChannel_wf : strayChannel.wf = true := by decide +kernel

theorem strayChannel_state : chState strayChannel 0 8352 = 2 ∧ flag strayChannel (chStat 0 8352) TniChStat.DISP = false ∧
    (chan strayChannel 0 8352).stale = false := by
  rw [chState, chStat_of_no_channel]
  decide +kernel

theorem strayChannel_runs_wf : tWf (fun _ => ({} : ChanRun)) strayChannel.chan.runs = true := by decide +kernel

/-- The answer to the waiting sender is the 65,536th byte that the counter sees: it carries into the bit read as DISP. -/
theorem strayChannel_reset : (chan (after (exec (.channelCoreReset 0 8352) strayChannel) strayChannel) 0 8352).stale = true := by decide +kernel

/-- Refutes O32: its last clause speaks of every number c, also beyond the 4,096 channels of a tile (R324). There CH_STAT is another register,
here a counter of the packets that the reset's own CHANNEL_CLOSED answer adds to, so the DISP that the reset finds is not the one before it. -/
theorem not_coresServeChannels : ¬ Obligations.CoresServeChannels := by
  intro h
  obtain ⟨-, -, -, hreset⟩ := h
  obtain ⟨hstate, hdisp, hstale⟩ := strayChannel_state
  obtain ⟨-, hclear⟩ := hreset 0 8352 strayChannel strayChannel_wf
  obtain ⟨u, hu, -, -, -, -, -, hruns, -⟩ := hclear (by rw [hstate]; decide)
  have hleft : (chan u 0 8352).stale = true := by
    have := strayChannel_reset
    rwa [hu] at this
  have hkept : (chan u 0 8352).stale = false := by
    rw [chan, hruns, eGet_eSet_same _ _ _ _ strayChannel_runs_wf, hstale, hdisp]
    rfl
  rw [hleft] at hkept
  cases hkept

end Sys2Proof.Machine

namespace Sys2Proof.Machine

theorem slotTurn_of_takesUp {s : State} {sv : Server} {fn cmd : Nat} (h : takesUp s sv fn cmd = true) : slotTurn s sv fn cmd = true := by
  simp only [takesUp, Bool.and_eq_true] at h
  exact h.1

theorem slotTurn_of_goesOn {s : State} {sv : Server} {fn cmd : Nat} (h : goesOn s sv fn cmd = true) : slotTurn s sv fn cmd = true := by
  simp only [goesOn, Bool.and_eq_true] at h
  exact h.1

theorem pastGate_mbx (s : State) (fn n : Nat) : (pastGate s fn n).mbx = s.mbx := (pastGate_keeps s fn n).only .mbx (by decide)

theorem pastGate_host (s : State) (fn n : Nat) : (pastGate s fn n).host = s.host := (pastGate_keeps s fn n).only .host (by decide)

/-! ### What an answer leaves of the host interface -/

section AnswerHost

variable (s : State) (sv : Server) (fn : Nat) (r : Reason) (ws : List Nat)

theorem signal_rings (vec : Nat) : (signal s fn vec).host.rings = s.host.rings := by
  unfold signal
  split <;> rfl

theorem signal_cqs (vec : Nat) : (signal s fn vec).host.cqs = s.host.cqs := by
  unfold signal
  split <;> rfl

theorem refuse_rings : (refuse s sv fn r ws).host.rings = s.host.rings := by
  rw [refuse, answer, signal_rings]
  cases sv <;> rfl

theorem refuse_cqs : (refuse s sv fn r ws).host.cqs = s.host.cqs := by
  rw [refuse, answer, signal_cqs]
  cases sv <;> rfl

end AnswerHost

/-! ### RING_CREATE (R362, R414) -/

theorem hpRuns_of_regs {s u : State} (h : u.regs = s.regs) (fn r : Nat) : hpRuns u fn r = hpRuns s fn r := by
  simp only [hpRuns, ringEx, myChip, fld, rd_of_regs_eq h]

theorem exCtr_of_regs {s u : State} (h : u.regs = s.regs) (fn r : Nat) (f : Fld) : exCtr u fn r f = exCtr s fn r f := by
  simp only [exCtr, ringEx, myChip, fld, rd_of_regs_eq h]

section RingRequest

variable {s m : State} (h : m.mbx = s.mbx)
include h

theorem rcRing_of_mbx (fn : Nat) : rcRing m fn = rcRing s fn := by rw [rcRing, rqW_of_mbx h, ← rcRing]

theorem rcCq_of_mbx (fn : Nat) : rcCq m fn = rcCq s fn := by rw [rcCq, rqW_of_mbx h, ← rcCq]

end RingRequest

/-- The image a RING_CREATE enables. -/
def rcImage (s : State) (fn : Nat) : Word := BitVec.ofNat 64 (putBits (rqW s .f fn 0) 0 0 1)

/-- A completion ring enabled. -/
def cqCreated (s : State) (fn : Nat) : State := setCq (wrReg s (Reg.hpCqCfg fn (rcRing s fn)) (rcImage s fn)) fn (rcRing s fn) {}

/-- A command ring's registers as it starts. -/
def crRegs (s : State) (fn r : Nat) (img bind : Word) : State :=
  setFld (wrReg (wrReg (wrReg s (Reg.hpCrCfg fn r) img) (Reg.hpCrCfgb fn r) bind) (Reg.hpCrStat fn r) 0) (Reg.hpCrStat fn r) HpCrStat.STATE 1

/-- A command ring's executor as it starts. -/
def crStarted (s : State) (fn r : Nat) : State := setRing s fn r { fetched := if hpRuns s fn r then 0 else exCtr s fn r HpCrCfgb.DBCTR }

/-- A command ring enabled. -/
def crCreated (s : State) (fn : Nat) : State :=
  let v := crStarted (crRegs s fn (rcRing s fn) (rcImage s fn) (BitVec.ofNat 64 (bits (rqW s .f fn 1) 21 0))) fn (rcRing s fn)
  if (List.range 16).any (fun x => flag s (Reg.hpCrCfg fn x) HpCrCfg.EN && cqOf s fn x == bits (rqW s .f fn 0) 12 9) then v
  else cqBase v fn (rcRing s fn)

theorem ringCreateRun_eq (fn : Nat) (s : State) :
    ringCreateRun fn s = refuse (if rcCq s fn then cqCreated s fn else crCreated s fn) .f fn .none [] := by
  rw [ringCreateRun, ← answerOk_eq]
  dsimp only
  split <;> rfl

section CrRegs

variable (s : State) (fn r : Nat) (img bind : Word)

theorem crRegs_regsOutside : RegsOutside [Reg.hpCrCfg fn r, Reg.hpCrCfgb fn r, Reg.hpCrStat fn r] s (crRegs s fn r img bind) :=
  ((((wrReg_regsOutside s _ _).mono (by simp)).trans ((wrReg_regsOutside _ _ _).mono (by simp))).trans
    ((wrReg_regsOutside _ _ _).mono (by simp))).trans (setFld_regsOutside _ _ _ (by simp))

variable {s} (hwf : s.wf = true)
include hwf

theorem rd_crRegs : rd (crRegs s fn r img bind) (Reg.hpCrCfg fn r) = img ∧ rd (crRegs s fn r img bind) (Reg.hpCrCfgb fn r) = bind ∧
    fld (crRegs s fn r img bind) (Reg.hpCrStat fn r) HpCrStat.STATE = 1 := by
  have hcb : Reg.hpCrCfg fn r ≠ Reg.hpCrCfgb fn r := by simp only [Reg.hpCrCfg, Reg.hpCrCfgb]; omega
  have hcs : Reg.hpCrCfg fn r ≠ Reg.hpCrStat fn r := by simp only [Reg.hpCrCfg, Reg.hpCrStat]; omega
  have hbs : Reg.hpCrCfgb fn r ≠ Reg.hpCrStat fn r := by simp only [Reg.hpCrCfgb, Reg.hpCrStat]; omega
  have h1 := wf_wrReg hwf (Reg.hpCrCfg fn r) img
  have h2 := wf_wrReg h1 (Reg.hpCrCfgb fn r) bind
  refine ⟨?_, ?_, ?_⟩
  · rw [crRegs, rd_setFld_ne _ _ _ hcs, rd_wrReg_ne _ _ hcs, rd_wrReg_ne _ _ hcb, rd_wrReg_same hwf]
  · rw [crRegs, rd_setFld_ne _ _ _ hbs, rd_wrReg_ne _ _ hbs, rd_wrReg_same h1]
  · rw [crRegs, fld_setFld_same _ _ _ (wf_wrReg h2 _ _) (by decide) (by decide)]
    rfl

end CrRegs

theorem toNat_ofNat_bits (w hi lo : Nat) (h : hi + 1 - lo ≤ 64) : (BitVec.ofNat 64 (bits w hi lo)).toNat = bits w hi lo := by
  rw [BitVec.toNat_ofNat, Nat.mod_eq_of_lt]
  exact (Nat.mod_lt _ (Nat.two_pow_pos _)).trans_le (Nat.pow_le_pow_right (by decide) h)

/-- The base of a completion ring is no register and no ring. -/
theorem crCreated_parts (s : State) (fn : Nat) :
    let v := crRegs s fn (rcRing s fn) (rcImage s fn) (BitVec.ofNat 64 (bits (rqW s .f fn 1) 21 0))
    (crCreated s fn).regs = v.regs ∧ (crCreated s fn).mbx = s.mbx ∧ (crCreated s fn).host.rings = (crStarted v fn (rcRing s fn)).host.rings := by
  dsimp only
  rw [crCreated]
  split <;> exact ⟨rfl, rfl, rfl⟩

theorem cqCreated_mbx (s : State) (fn : Nat) : (cqCreated s fn).mbx = s.mbx := rfl

section RingCreate

variable {s : State} {fn : Nat} (h : takesUp s .f fn 0x120 = true) (hgate : gateOpens s fn 24 [] = true) (hfmt : ringFormat fn s = true)
include h hgate hfmt

theorem exec_ringCreate_refused {x : Reason} {ws : List Nat} (hchk : ringCreateCheck fn s = some (x, ws)) :
    exec (.ringCreate fn) s = .next (refuse s .f fn x ws) :=
  congrArg Host.Outcome.next (fwGated_refused_chk (fmt := ringFormat fn) (priv := fun _ => none) (chk := ringCreateCheck fn) h hfmt hgate rfl hchk _)

theorem exec_ringCreate_done (hchk : ringCreateCheck fn s = none) : exec (.ringCreate fn) s =
    .next (refuse (if rcCq s fn then cqCreated (pastGate s fn 24) fn else crCreated (pastGate s fn 24) fn) .f fn .none []) := by
  have hgmbx : (pastGate s fn 24).mbx = s.mbx := (pastGate_keeps s fn 24).only .mbx (by decide)
  have hm : (if rcCq s fn then cqCreated (pastGate s fn 24) fn else crCreated (pastGate s fn 24) fn).mbx = s.mbx := by
    split
    · exact hgmbx
    · exact (crCreated_parts _ fn).2.1.trans hgmbx
  exact congrArg Host.Outcome.next (fwGated_acts (fmt := ringFormat fn) (priv := fun _ => none) (chk := ringCreateCheck fn)
    (act := ringCreateRun fn) h hfmt hgate rfl hchk hm (by rw [ringCreateRun_eq, rcCq_of_mbx hgmbx]))

end RingCreate

/-! ### A command that begins and ends later (R414) -/

/-- A server that has begun its command refuses nothing behind it. -/
theorem refuseFirst_of_begun {s : State} {sv : Server} {fn : Nat} (hserve : serving s sv = some fn) (hbegun : (mbxSlot s sv fn).begun = true) (n : Nat) :
    refuseFirst sv n s = s := by
  cases n with
  | zero => rfl
  | succ n => simp [refuseFirst, hserve, hbegun]

theorem serving_of_begun {s : State} {sv : Server} {fn : Nat} (hqueue : mbxQueue s sv = [fn]) (hbegun : (mbxSlot s sv fn).begun = true) :
    serving s sv = some fn := by
  simp [serving, hqueue, hbegun]

section Begin

variable (s : State) (sv : Server) (fn : Nat)

theorem mbxSlot_begin : mbxSlot (begin_ s sv fn) sv fn = { mbxSlot s sv fn with begun := true } :=
  eGet_eSet_listed (fun e => absurd (congrArg MbxSlot.begun e) (by simp)) _ _

theorem mbxQueue_begin : mbxQueue (begin_ s sv fn) sv = mbxQueue s sv := by cases sv <;> rfl

theorem rqW_begin (i : Nat) : rqW (begin_ s sv fn) sv fn i = rqW s sv fn i := by
  rw [rqW, rqWord, mbxSlot_begin, rqW, rqWord]

theorem rcRing_begin : rcRing (begin_ s .f fn) fn = rcRing s fn := by
  rw [rcRing, rqW_begin, ← rcRing]

/-- An answer to a command that has begun tells the caller as one that has not. -/
theorem told_refuse_begun {s m : State} {sv : Server} {fn : Nat} (h : m.mbx = (begin_ s sv fn).mbx) (r : Reason) (ws : List Nat) :
    Told s (refuse m sv fn r ws) sv fn r ws := by
  have hgo : (mbxSlot (begin_ s sv fn) sv fn).goSeq = (mbxSlot s sv fn).goSeq := by rw [mbxSlot_begin]
  have hcmd : rqCmd (begin_ s sv fn) sv fn = rqCmd s sv fn := by rw [rqCmd, rqWord, mbxSlot_begin, rqCmd, rqWord]
  have htold := told_refuse h sv fn r ws
  rw [Told, hgo, hcmd, mbxQueue_begin] at htold
  exact htold

end Begin

section Begun

variable {s : State} {fn cmd n : Nat} {fmt : State → Bool} {chk : State → Option (Reason × List Nat)} {act : State → State}

/-- A gated command whose checks hold runs, and what stands behind it is refused. -/
theorem fwGated_runs (h : takesUp s .f fn cmd = true) (hfmt : fmt s = true) {recs : List Byte} (hgate : gateOpens s fn n recs = true)
    (hchk : chk s = none) (act : State → State) : fwGated s fn cmd n fmt (fun _ => none) chk recs act =
      refuseFirst .f (mbxQueue (act (pastGate s fn n)) .f).length (act (pastGate s fn n)) := by
  have hturn := slotTurn_of_takesUp h
  rw [fwGated, fwRun, mbxCommand_of_turn hturn (by simp [gatedLen_of_opens hgate, hfmt]), ifPrivileged, orElse, gateMissing_of_opens hgate]
  dsimp only
  rw [hchk]
  dsimp only
  rw [throughGate_of_opens hgate]

variable (h : goesOn s .f fn cmd = true)
include h

theorem begun_of_goesOn : (mbxSlot s .f fn).begun = true := by
  simp only [goesOn, Bool.and_eq_true] at h
  exact h.2

/-- The second part of a command in turn. -/
theorem fwLater_runs (k : State → State) : fwLater s fn cmd k = refuseFirst .f (mbxQueue (k s) .f).length (k s) := by
  have hturn := slotTurn_of_goesOn h
  rw [fwLater, if_pos (by rw [(slotTurn_facts hturn).2.1, begun_of_goesOn h]; rfl)]

theorem fwLater_waits {k : State → State} (hk : k s = s) : fwLater s fn cmd k = s := by
  have hturn := slotTurn_of_goesOn h
  rw [fwLater_runs h, hk]
  exact refuseFirst_of_begun (serving_of_begun (slotTurn_facts hturn).1 (begun_of_goesOn h)) (begun_of_goesOn h) _

theorem fwLater_ends {k : State → State} {m : State} (hm : m.mbx = s.mbx) {r : Reason} {ws : List Nat} (hk : k s = refuse m .f fn r ws) :
    fwLater s fn cmd k = refuse m .f fn r ws := by
  have hturn := slotTurn_of_goesOn h
  rw [fwLater_runs h, hk, mbxQueue_refuse_of_turn hturn hm, List.length_nil, refuseFirst]

end Begun

/-! ### RING_DESTROY (R414) -/

/-- A completion ring given up. -/
def cqDestroyed (s : State) (fn : Nat) : State := setCq (setFld s (Reg.hpCqCfg fn (rcRing s fn)) HpCqCfg.EN 0) fn (rcRing s fn) {}

/-- A command ring given up. -/
def crDestroyed (s : State) (fn : Nat) : State := setRing (setFld s (Reg.hpCrCfg fn (rcRing s fn)) HpCrCfg.EN 0) fn (rcRing s fn) {}

/-- A command ring stopped, its destroy begun. -/
def crStopped (s : State) (fn : Nat) : State := begin_ (ringStop s fn (rcRing s fn)) .f fn

theorem ringDestroyRun_cq {s : State} {fn : Nat} (h : rcCq s fn = true) : ringDestroyRun fn s = refuse (cqDestroyed s fn) .f fn .none [] :=
  if_pos h

theorem ringDestroyRun_cr {s : State} {fn : Nat} (h : rcCq s fn = false) : ringDestroyRun fn s = ringDestroyEnd (crStopped s fn) fn :=
  if_neg (by rw [h]; exact Bool.false_ne_true)

section Ends

variable {s : State} {fn : Nat}

theorem ringDestroyEnd_busy (h : s.host.cmds.any (fromRing fn (rcRing s fn)) = true) : ringDestroyEnd s fn = s := if_pos h

theorem ringDestroyEnd_idle (h : s.host.cmds.any (fromRing fn (rcRing s fn)) = false) :
    ringDestroyEnd s fn = refuse (crDestroyed s fn) .f fn .none [] :=
  if_neg (by rw [h]; exact Bool.false_ne_true)

theorem rcRing_crStopped : rcRing (crStopped s fn) fn = rcRing s fn := by
  rw [crStopped, rcRing_begin]
  rfl

theorem en_crDestroyed (hwf : s.wf = true) (r : Reason) (ws : List Nat) :
    flag (refuse (crDestroyed s fn) .f fn r ws) (Reg.hpCrCfg fn (rcRing s fn)) HpCrCfg.EN = false := by
  have hset : fld (crDestroyed s fn) (Reg.hpCrCfg fn (rcRing s fn)) HpCrCfg.EN = 0 := fld_setFld_same s _ 0 hwf (by decide) (by decide)
  rw [flag_refuse, flag, hset]
  rfl

theorem en_cqDestroyed (hwf : s.wf = true) (r : Reason) (ws : List Nat) :
    flag (refuse (cqDestroyed s fn) .f fn r ws) (Reg.hpCqCfg fn (rcRing s fn)) HpCqCfg.EN = false := by
  have hset : fld (cqDestroyed s fn) (Reg.hpCqCfg fn (rcRing s fn)) HpCqCfg.EN = 0 := fld_setFld_same s _ 0 hwf (by decide) (by decide)
  rw [flag_refuse, flag, hset]
  rfl

end Ends

section Stopped

variable (s : State) (fn : Nat)

theorem crStopped_begun : (mbxSlot (crStopped s fn) .f fn).begun = true := by rw [crStopped, mbxSlot_begin]

theorem crStopped_cmds : (crStopped s fn).host.cmds = s.host.cmds := rfl

theorem crStopped_mbx : (crStopped s fn).mbx = (begin_ s .f fn).mbx := rfl

theorem crStopped_rings : (crStopped s fn).host.rings =
    eSet {} (ringKey fn (rcRing s fn)) { ring s fn (rcRing s fn) with queue := [], t0 := none } s.host.rings := rfl

theorem crStopped_regs : (crStopped s fn).regs = (setFld s (Reg.hpCrStat fn (rcRing s fn)) HpCrStat.STATE 0).regs := rfl

theorem crDestroyed_mbx : (crDestroyed s fn).mbx = s.mbx := rfl

theorem crStopped_wf (h : s.wf = true) : (crStopped s fn).wf = true :=
  (begin__keeps (w := [.host, .mbx, .regs]) (by decide) (setRing_keeps (by decide) (setFld_keeps (by decide) (.refl _ s)))).wf h

end Stopped

section RingDestroy

variable {s : State} {fn : Nat}

/-- The form of RING_DESTROY's request. -/
def ringDestroyFormat (fn : Nat) (s : State) : Bool := rqW s .f fn 0 == 0 && rqW s .f fn 1 == 0 && rsvd s .f fn 2 63 5

theorem exec_ringDestroy_later (h : goesOn s .f fn 0x121 = true) : exec (.ringDestroy fn) s = .next (fwLater s fn 0x121 (ringDestroyEnd · fn)) :=
  congrArg Host.Outcome.next (if_pos (begun_of_goesOn h))

variable (h : takesUp s .f fn 0x121 = true) (hgate : gateOpens s fn 24 [] = true) (hfmt : ringDestroyFormat fn s = true)
  (hchk : ringDestroyCheck fn s = none)
include h hgate hfmt hchk

theorem exec_ringDestroy_first : exec (.ringDestroy fn) s =
    .next (refuseFirst .f (mbxQueue (ringDestroyRun fn (pastGate s fn 24)) .f).length (ringDestroyRun fn (pastGate s fn 24))) := by
  have hnew : begunF s fn = false := by
    simp only [takesUp, Bool.and_eq_true, Bool.not_eq_true'] at h
    exact h.2
  refine (congrArg Host.Outcome.next (if_neg (by rw [hnew]; exact Bool.false_ne_true))).trans (congrArg Host.Outcome.next ?_)
  exact fwGated_runs (fmt := ringDestroyFormat fn) h hfmt hgate hchk (ringDestroyRun fn)

theorem exec_ringDestroy_cq (hkind : rcCq s fn = true) : exec (.ringDestroy fn) s = .next (refuse (cqDestroyed (pastGate s fn 24) fn) .f fn .none []) := by
  have hgmbx : (pastGate s fn 24).mbx = s.mbx := (pastGate_keeps s fn 24).only .mbx (by decide)
  have hturn := slotTurn_of_takesUp h
  rw [exec_ringDestroy_first h hgate hfmt hchk, ringDestroyRun_cq ((rcCq_of_mbx hgmbx fn).trans hkind), mbxQueue_refuse_of_turn (m := cqDestroyed (pastGate s fn 24) fn) hturn hgmbx,
    List.length_nil, refuseFirst]

variable (hkind : rcCq s fn = false)
include hkind

theorem exec_ringDestroy_idle (hidle : s.host.cmds.any (fromRing fn (rcRing s fn)) = false) :
    exec (.ringDestroy fn) s = .next (refuse (crDestroyed (crStopped (pastGate s fn 24) fn) fn) .f fn .none []) := by
  have hgmbx := pastGate_mbx s fn 24
  have hqueue : mbxQueue (crDestroyed (crStopped (pastGate s fn 24) fn) fn) .f = [fn] := by
    rw [mbxQueue, crDestroyed_mbx, crStopped_mbx, ← mbxQueue, mbxQueue_begin, mbxQueue, hgmbx]
    exact (slotTurn_facts (slotTurn_of_takesUp h)).1
  rw [exec_ringDestroy_first h hgate hfmt hchk, ringDestroyRun_cr ((rcCq_of_mbx hgmbx fn).trans hkind),
    ringDestroyEnd_idle (by rw [rcRing_crStopped, rcRing_of_mbx hgmbx, crStopped_cmds, pastGate_host]; exact hidle), mbxQueue_refuse, hqueue,
    List.erase_cons_head, List.length_nil, refuseFirst]

theorem exec_ringDestroy_busy (hbusy : s.host.cmds.any (fromRing fn (rcRing s fn)) = true) :
    exec (.ringDestroy fn) s = .next (crStopped (pastGate s fn 24) fn) := by
  have hgmbx := pastGate_mbx s fn 24
  have hqueue : mbxQueue (crStopped (pastGate s fn 24) fn) .f = [fn] := by
    rw [mbxQueue, crStopped_mbx, ← mbxQueue, mbxQueue_begin, mbxQueue, hgmbx]
    exact (slotTurn_facts (slotTurn_of_takesUp h)).1
  rw [exec_ringDestroy_first h hgate hfmt hchk, ringDestroyRun_cr ((rcCq_of_mbx hgmbx fn).trans hkind),
    ringDestroyEnd_busy (by rw [rcRing_crStopped, rcRing_of_mbx hgmbx, crStopped_cmds, pastGate_host]; exact hbusy),
    refuseFirst_of_begun (serving_of_begun hqueue (crStopped_begun _ fn)) (crStopped_begun _ fn)]

end RingDestroy

/-! ### A firmware command without a seal gate (R397) -/

section FwRun

variable {s : State} {fn cmd : Nat} {fmt : State → Bool} {priv : State → Option Reason} {chk : State → Option (Reason × List Nat)}
  (h : takesUp s .f fn cmd = true) (hfmt : fmt s = true) (hpriv : priv s = none)
include h hfmt hpriv

theorem fwRun_refused {r : Reason} {ws : List Nat} (hchk : chk s = some (r, ws)) (act : State → State) :
    fwRun s fn cmd fmt priv chk act = refuse s .f fn r ws := by
  rw [fwRun, mbxCommand_carriedOut (slotTurn_of_takesUp h) hfmt hpriv (by rw [hchk]; exact mbxQueue_refuse_of_turn (slotTurn_of_takesUp h) rfl r ws), hchk]

theorem fwRun_acts (hchk : chk s = none) {act : State → State} {m : State} (hm : m.mbx = s.mbx) {r : Reason} {ws : List Nat}
    (hact : act s = refuse m .f fn r ws) : fwRun s fn cmd fmt priv chk act = refuse m .f fn r ws := by
  rw [fwRun, mbxCommand_carriedOut (slotTurn_of_takesUp h) hfmt hpriv
    (by rw [hchk]; dsimp only; rw [hact]; exact mbxQueue_refuse_of_turn (slotTurn_of_takesUp h) hm r ws), hchk]
  exact hact

end FwRun

/-! ### ARB_SET (R416) -/

/-- A share's weight set by the host, and pinned or not. -/
def weightSet (s : State) (a : Arb) (i w : Nat) (p : Bool) : State :=
  setFld (setMemo s a i { memo s a i with host := w, changed := none, pinned := p }) (Reg.arbShare a i) ArbShare.WEIGHT w

/-- A share's bounds and cap set. -/
def boundsSet (s : State) (r lo hi cap : Nat) : State := setFld (setFld (setFld s r ArbShare.WMIN lo) r ArbShare.WMAX hi) r ArbShare.CAP cap

/-- The arbiter and the share an ARB_SET names. -/
def asWhich (s : State) (fn : Nat) : Arb := (asArb s fn).getD .hp
def asShare (s : State) (fn : Nat) : Nat := bits (rqW s .f fn 0) 21 16

/-- What ARB_SET leaves by OP, before its answer. -/
def arbSetDone (s : State) (fn : Nat) : State :=
  match asOp s fn with
  | 0 => weightSet s (asWhich s fn) (asShare s fn) (asWeight s fn) (memo s (asWhich s fn) (asShare s fn)).pinned
  | 1 => weightSet s (asWhich s fn) (asShare s fn) (asWeight s fn) true
  | 2 => setMemo s (asWhich s fn) (asShare s fn) { memo s (asWhich s fn) (asShare s fn) with pinned := false }
  | _ => boundsSet s (asReg s fn) (asMin s fn) (asMax s fn) (bits (rqW s .f fn 1) 31 16)

theorem arbSetRun_eq (fn : Nat) (s : State) : arbSetRun fn s = refuse (arbSetDone s fn) .f fn .none [] := by
  rw [arbSetRun, arbSetDone, ← answerOk_eq]
  rfl

section ArbSetDone

variable (s : State) (fn : Nat)

variable {s fn} in
theorem arbSetDone_weight (h : asOp s fn < 2) : arbSetDone s fn = weightSet s (asWhich s fn) (asShare s fn) (bits (rqW s .f fn 1) 15 0)
    ((memo s (asWhich s fn) (asShare s fn)).pinned || asOp s fn == 1) := by
  have hw : asWeight s fn = bits (rqW s .f fn 1) 15 0 := if_pos h
  obtain hop | hop : asOp s fn = 0 ∨ asOp s fn = 1 := by omega
  · simp [arbSetDone, hop, hw]
  · simp [arbSetDone, hop, hw]

variable {s fn} in
theorem arbSetDone_unpin (h : asOp s fn = 2) :
    arbSetDone s fn = setMemo s (asWhich s fn) (asShare s fn) { memo s (asWhich s fn) (asShare s fn) with pinned := false } := by
  simp [arbSetDone, h]

variable {s fn} in
theorem arbSetDone_bounds (h : asOp s fn = 3) :
    arbSetDone s fn = boundsSet s (asReg s fn) (bits (rqW s .f fn 1) 47 32) (bits (rqW s .f fn 1) 63 48) (bits (rqW s .f fn 1) 31 16) := by
  simp [arbSetDone, h, asMin, asMax]

theorem arbSetDone_mbx : (arbSetDone s fn).mbx = s.mbx := by
  rw [arbSetDone]
  split <;> rfl

theorem weightSet_regsOutside (a : Arb) (i w : Nat) (p : Bool) : RegsOutside [Reg.arbShare a i] s (weightSet s a i w p) :=
  (setFld_regsOutside (setMemo s a i _) _ _ (List.mem_singleton_self _) :)

theorem boundsSet_regsOutside (r lo hi cap : Nat) : RegsOutside [r] s (boundsSet s r lo hi cap) :=
  .trans (setFld_regsOutside _ _ _ (List.mem_singleton_self r))
    (.trans (setFld_regsOutside _ _ _ (List.mem_singleton_self r)) (setFld_regsOutside _ _ _ (List.mem_singleton_self r)))

theorem arbSetDone_regsOutside : RegsOutside [asReg s fn] s (arbSetDone s fn) := by
  rw [arbSetDone]
  split
  · exact weightSet_regsOutside s _ _ _ _
  · exact weightSet_regsOutside s _ _ _ _
  · exact regsOutside_of_regs_eq rfl
  · exact boundsSet_regsOutside s _ _ _ _

variable {s} (hwf : s.wf = true)
include hwf

theorem fld_weightSet (a : Arb) (i w : Nat) (p : Bool) : let r := Reg.arbShare a i
    fld (weightSet s a i w p) r ArbShare.WEIGHT = w % 2 ^ 16 ∧ fld (weightSet s a i w p) r ArbShare.WMIN = fld s r ArbShare.WMIN ∧
    fld (weightSet s a i w p) r ArbShare.CAP = fld s r ArbShare.CAP := by
  have hmemo (m : WeightMemo) : (setMemo s a i m).wf = true := (setMemo_keeps (w := [.arb]) (by decide) (.refl _ s)).wf hwf
  have hkept (m : WeightMemo) (f : Fld) : fld (setMemo s a i m) (Reg.arbShare a i) f = fld s (Reg.arbShare a i) f := rfl
  dsimp only
  rw [weightSet, fld_setFld_same _ _ _ (hmemo _) (by decide) (by decide), fld_setFld_apart (hmemo _) _ _ (by decide) (by decide) (by decide),
    fld_setFld_apart (hmemo _) _ _ (by decide) (by decide) (by decide), hkept, hkept]
  exact ⟨rfl, rfl, rfl⟩

theorem fld_boundsSet (r lo hi cap : Nat) : let u := boundsSet s r lo hi cap
    fld u r ArbShare.WMIN = lo % 2 ^ 16 ∧ fld u r ArbShare.WMAX = hi % 2 ^ 16 ∧ fld u r ArbShare.CAP = cap % 2 ^ 16 ∧
    fld u r ArbShare.WEIGHT = fld s r ArbShare.WEIGHT := by
  have h1 : (setFld s r ArbShare.WMIN lo).wf = true := setFld_wf hwf
  have h2 : (setFld (setFld s r ArbShare.WMIN lo) r ArbShare.WMAX hi).wf = true := setFld_wf h1
  dsimp only
  rw [boundsSet]
  refine ⟨?_, ?_, ?_, ?_⟩
  · rw [fld_setFld_apart h2 _ _ (by decide) (by decide) (by decide), fld_setFld_apart h1 _ _ (by decide) (by decide) (by decide),
      fld_setFld_same _ _ _ hwf (by decide) (by decide)]
    rfl
  · rw [fld_setFld_apart h2 _ _ (by decide) (by decide) (by decide), fld_setFld_same _ _ _ h1 (by decide) (by decide)]
    rfl
  · rw [fld_setFld_same _ _ _ h2 (by decide) (by decide)]
    rfl
  · rw [fld_setFld_apart h2 _ _ (by decide) (by decide) (by decide), fld_setFld_apart h1 _ _ (by decide) (by decide) (by decide),
      fld_setFld_apart hwf _ _ (by decide) (by decide) (by decide)]

end ArbSetDone

section ArbSet

variable {s : State} (h : takesUp s .f 0 0x160 = true) (hfmt : arbSetFormat 0 s = true)
include h hfmt

theorem exec_arbSet_refused (hoff : asDisabled s 0 = true) : exec (.arbSet 0) s = .next (refuse s .f 0 .disabled []) :=
  congrArg Host.Outcome.next (fwRun_refused (fmt := arbSetFormat 0) (priv := onlyZero 0)
    (chk := fun s => firstOf [(asDisabled s 0, .disabled)]) h hfmt rfl (by simp [firstOf, hoff]) _)

theorem exec_arbSet_done (hon : asDisabled s 0 = false) : exec (.arbSet 0) s = .next (refuse (arbSetDone s 0) .f 0 .none []) :=
  congrArg Host.Outcome.next (fwRun_acts (fmt := arbSetFormat 0) (priv := onlyZero 0) (chk := fun s => firstOf [(asDisabled s 0, .disabled)])
    (act := arbSetRun 0) h hfmt rfl (by simp [firstOf, hon]) (arbSetDone_mbx s 0) (arbSetRun_eq 0 s))

end ArbSet

theorem refuse_arb (s : State) (sv : Server) (fn : Nat) (r : Reason) (ws : List Nat) : (refuse s sv fn r ws).arb = s.arb :=
  (refuse_keeps (by decide) (by decide) (Keeps.refl [.host, .mbx] s)).only .arb (by decide)

/-! ### What the seal gate leaves readable (R547, R559) -/

section PastGate

variable (s : State) (fn n : Nat)

theorem pastGate_notes : (pastGate s fn n).notes = s.notes := by
  rw [pastGate]
  split <;> rfl

theorem pastGate_ungated {s : State} {fn : Nat} (h : gatedHere s fn = false) (n : Nat) : pastGate s fn n = s := by
  rw [pastGate, h]
  rfl

theorem secCseq_ne_secSealed : Reg.secSealed ≠ Reg.secCseq fn := by
  simp only [Reg.secSealed, Reg.secCseq, Blk.base]
  omega

theorem sealedT_pastGate (t : Nat) : sealedT (pastGate s fn n) t = sealedT s t := by
  rw [sealedT, pastGate_regsOutside s fn n _ (by simpa using secCseq_ne_secSealed fn), ← sealedT]

theorem gatedHere_pastGate : gatedHere (pastGate s fn n) fn = gatedHere s fn := by
  rw [gatedHere, sealedT_pastGate, ← gatedHere]

theorem ctrlKey_pastGate (t : Nat) : ctrlKey (pastGate s fn n) t = ctrlKey s t := by
  rw [ctrlKey, (pastGate_keeps s fn n).only .sec (by decide), ← ctrlKey]

variable {m : State} {s} (h : m.mbx = s.mbx)
include h

theorem rqBytes_of_mbx (sv : Server) : rqBytes m sv fn = rqBytes s sv fn := by
  rw [rqBytes, rqPlen, rqWord, mbxSlot, h, ← mbxSlot, ← rqWord, ← rqPlen]
  simp only [rqW_of_mbx h]
  rfl

theorem crOffs_of_mbx : crOffs m fn = crOffs s fn := by
  rw [crOffs, crCount, crFirst, rqW_of_mbx h, ← crCount, ← crFirst, ← crOffs]

end PastGate

theorem findReg_secCseq {fn : Nat} (h0 : fn ≠ 0) (h : fn < 64) : findReg (0x100 + fn * 8) secRegs = some (secCseqDef, fn) := by
  have hbefore : ∀ d ∈ secRegs.take 3, 0 < d.stride ∧ d.off + (d.first + d.count) * d.stride ≤ 0x100 := by decide
  have hend := findReg_append (o := 0x100 + fn * 8) (fun d hd => ⟨(hbefore d hd).1, (hbefore d hd).2.trans (Nat.le_add_right _ _)⟩)
    (secRegs.drop 3)
  refine hend.trans ?_
  rw [secRegs, List.drop, List.drop, List.drop, List.drop, findReg, if_pos (by simp only [secCseqDef]; omega)]
  simp [secCseqDef]

/-- A sealed tenant's sequence number is no statistics counter. -/
theorem ctrSet_secCseq (s : State) {fn : Nat} (h0 : fn ≠ 0) (h : fn < 64) : ctrSet s (Reg.secCseq fn) = none := by
  have hoff : Reg.secCseq fn = 0x100000 + (0x100 + fn * 8) := by simp only [Reg.secCseq, Blk.base, Nat.add_assoc]
  have hreg : regAt (Reg.secCseq fn) = some (.blk .sec, secCseqDef, fn) := by
    rw [regAt, hoff, blkOf, if_neg (by omega), if_pos (by omega)]
    dsimp only
    rw [Nat.add_sub_cancel_left, findReg_secCseq h0 h]
    rfl
  rw [ctrSet, hreg]
  rfl

/-- Which registers are statistics counters does not depend on the state. -/
theorem ctrSet_isNone (s u : State) (off : Nat) : (ctrSet u off).isNone = (ctrSet s off).isNone := by
  rw [ctrSet, ctrSet]
  cases regAt off with
  | none => rfl
  | some x =>
    obtain ⟨home, d, i⟩ := x
    cases home with
    | fn f => rfl
    | arb a => rfl
    | blk b => 
      dsimp only
      cases d.name <;> cases b <;> rfl

/-- A statistics counter reads behind the seal gate as before it. -/
theorem seen_pastGate (s : State) {fn : Nat} (h : fn < 64) (n : Nat) {off : Nat} (hctr : (ctrSet s off).isSome = true) :
    seen (pastGate s fn n) off = seen s off := by
  cases hgated : gatedHere s fn with
  | false => rw [pastGate_ungated hgated]
  | true =>
    have h0 : fn ≠ 0 := fun e => by simp [gatedHere, e] at hgated
    have hne : off ≠ Reg.secCseq fn := fun e => by rw [e, ctrSet_secCseq s h0 h] at hctr; cases hctr
    have hlive : tviolSeen (pastGate s fn n) off = tviolSeen s off := by
      rw [tviolSeen, tviolSeen, softRead, pastGate_regsOutside s fn n _ (by simpa using hne), noteOf, pastGate_notes,
        (pastGate_keeps s fn n).only .clk (by decide)]
      rfl
    rw [seen, seen, hlive, (pastGate_keeps s fn n).only .obs (by decide), ctrSet_isNone s]

/-! ### COUNTER_READ (R418, R548) -/

/-- The counters that a COUNTER_READ answers. -/
def crValues (s : State) (fn : Nat) : List Nat := (crOffs s fn).map fun off => (seen s off).toNat

/-- The words of a COUNTER_READ's answer. -/
def crAnswer (s : State) (fn : Nat) : List Nat :=
  if gatedHere s fn then
    wordsOf (slice (Config.gcmSeal ((ctrlKey s fn).getD 0) (toLE 8 (ofLE (slice (rqBytes s .f fn) 8 8)) ++ toLE 4 1) []
      ((crValues s fn).flatMap (toLE 8))) 0 (8 * (crValues s fn).length + 16))
  else crValues s fn

theorem counterRun_eq (fn : Nat) (s : State) : counterRun fn s = refuse s .f fn .none (crAnswer s fn) := by
  rw [counterRun, crAnswer]
  dsimp only
  split <;> rfl

theorem crAnswer_pastGate {s : State} {fn : Nat} (h : fn < 64) (n : Nat) (hctr : ∀ off ∈ crOffs s fn, (ctrSet s off).isSome = true) :
    crAnswer (pastGate s fn n) fn = crAnswer s fn := by
  have hvalues : crValues (pastGate s fn n) fn = crValues s fn := by
    rw [crValues, crOffs_of_mbx fn (pastGate_mbx s fn n), crValues]
    exact List.map_congr_left fun off hoff => by rw [seen_pastGate s h n (hctr off hoff)]
  rw [crAnswer, gatedHere_pastGate, hvalues, ctrlKey_pastGate, rqBytes_of_mbx fn (pastGate_mbx s fn n), ← crAnswer]

theorem ctrSet_of_counterFormat {s : State} {fn : Nat} (h : counterFormat fn s = true) : ∀ off ∈ crOffs s fn, (ctrSet s off).isSome = true := by
  rw [counterFormat, Bool.and_eq_true, List.all_eq_true] at h
  intro off hoff
  have := h.2 off hoff
  rw [Bool.and_eq_true] at this
  exact this.1

section CounterRead

variable {s : State} {fn : Nat} (h : takesUp s .f fn 0x170 = true) (hgate : gateOpens s fn 8 [] = true) (hfmt : counterFormat fn s = true)
include h hgate hfmt

theorem exec_counterRead_privilege (hmay : (crOffs s fn).all (mayRead s fn) = false) :
    exec (.counterRead fn) s = .next (refuse s .f fn .privilege []) :=
  congrArg Host.Outcome.next (fwGated_refused_priv (fmt := counterFormat fn)
    (priv := fun s => if (crOffs s fn).all (mayRead s fn) then none else some .privilege)
    h hfmt (gatedLen_of_opens hgate) (if_neg (by rw [hmay]; exact Bool.false_ne_true)) _)

variable (hmay : (crOffs s fn).all (mayRead s fn) = true)
include hmay

theorem exec_counterRead_disabled (hoff : (crOffs s fn).any (unpowered s) = true) :
    exec (.counterRead fn) s = .next (refuse s .f fn .disabled []) :=
  congrArg Host.Outcome.next (fwGated_refused_chk (fmt := counterFormat fn)
    (priv := fun s => if (crOffs s fn).all (mayRead s fn) then none else some .privilege)
    (chk := fun s => firstOf [((crOffs s fn).any (unpowered s), .disabled)]) h hfmt hgate (if_pos hmay) (by rw [firstOf, hoff]; rfl) _)

theorem exec_counterRead_answered (hfn : fn < 64) (hon : (crOffs s fn).any (unpowered s) = false) :
    exec (.counterRead fn) s = .next (refuse (pastGate s fn 8) .f fn .none (crAnswer s fn)) :=
  congrArg Host.Outcome.next (fwGated_acts (fmt := counterFormat fn)
    (priv := fun s => if (crOffs s fn).all (mayRead s fn) then none else some .privilege)
    (chk := fun s => firstOf [((crOffs s fn).any (unpowered s), .disabled)]) (act := counterRun fn) h hfmt hgate (if_pos hmay)
    (by rw [firstOf, hon]; rfl) (pastGate_mbx s fn 8) (by rw [counterRun_eq, crAnswer_pastGate hfn 8 (ctrSet_of_counterFormat hfmt)]))

end CounterRead

end Sys2Proof.Machine

namespace Sys2Proof.Machine

/-! ### A channel reset (R346) -/

/-- The status a reset leaves: CLOSED, with nothing in the ring or the spillway. -/
def clearedStat (w : Word) : Word :=
  setF (setF (setF (setF (setF w TniChStat.HEAD 0) TniChStat.RCNT 0) TniChStat.SPCNT 0) TniChStat.ASEQ 0) TniChStat.STATE 2

/-- What the fields of a cleared status read as. -/
theorem getF_clearedStat (w : Word) : getF (clearedStat w) TniChStat.STATE = 2 ∧ getF (clearedStat w) TniChStat.RCNT = 0 ∧
    getF (clearedStat w) TniChStat.SPCNT = 0 := by
  have hzero (v : Word) {f : Fld} (h : f.lo ≤ f.hi ∧ f.hi < 64) : getF (setF v f 0) f = 0 := by rw [getF_setF_same h.1 h.2, Nat.zero_mod]
  rw [clearedStat, getF_setF_same (by decide) (by decide)]
  refine ⟨rfl, ?_, ?_⟩
  · rw [getF_setF_apart (by decide) (by decide) (by decide), getF_setF_apart (by decide) (by decide) (by decide),
      getF_setF_apart (by decide) (by decide) (by decide), hzero _ (by decide)]
  · rw [getF_setF_apart (by decide) (by decide) (by decide), getF_setF_apart (by decide) (by decide) (by decide), hzero _ (by decide)]

/-- The senders that wait at a channel, and how many messages and rounds it holds for no one. -/
def resetSenders (s : State) (t c : Nat) : List Pkt :=
  (chan s t c).writes.filterMap ChanWrite.ack ++ (chan s t c).spill.filterMap SpillSlot.ack

def resetLost (s : State) (t c : Nat) : Nat :=
  chRcnt s t c + ((chan s t c).writes.filter fun w => w.ack.isNone).length +
    ((chan s t c).spill.filter fun x => x.ack.isNone && x.st != .void).length + (if (chan s t c).acc.count = 0 then 0 else 1)

/-- The channel's requests forgotten, its senders told and what is lost counted. -/
def resetTold (s : State) (t c : Nat) : State :=
  chCount ((resetSenders s t c).foldl (fun s p => ackTo s p .channelClosed) (forgetSpill s (chanPurpose t c))) t TniChCount.DISCARDED (resetLost s t c)

/-- The channel's status cleared. -/
def resetCleared (s : State) (t c : Nat) : State := wrReg (resetTold s t c) (chStat t c) (clearedStat (rd (resetTold s t c) (chStat t c)))

/-- The channel's working state begun afresh. -/
def resetDone (s : State) (t c : Nat) : State :=
  setChan (resetCleared s t c) t c
    { stale := (chan s t c).stale || flag (resetCleared s t c) (chStat t c) TniChStat.DISP, resetAt := some (resetCleared s t c).clk.now }

/-- The pointer line of a channel's ring cleared. -/
def lineCleared (s : State) (t c : Nat) : State := storeSeen s (ringAddr s t c (64 * chDepth s t c)) (List.replicate 64 0) false

theorem chReset_eq {s : State} {t c : Nat} (h : chState s t c ≠ 0) (zero : Bool) :
    chReset s t c zero = if zero then lineCleared (resetDone s t c) t c else resetDone s t c := by
  rw [chReset, if_neg h]
  rfl

section Reset

variable (s : State) (t c : Nat)

theorem resetTold_keeps : Keeps [.dyn, .free, .lane, .obs, .regs, .rel] s (resetTold s t c) :=
  chCount_keeps (by decide) (Keeps.foldl (forgetSpill_keeps (by decide) (by decide) (.refl _ s)) fun _ _ h =>
    ackTo_keeps (by decide) (by decide) (by decide) (by decide) (by decide) (by decide) h)

theorem lineCleared_keeps : Keeps [.mem, .memPoison, .obs, .regs] s (lineCleared s t c) :=
  storeSeen_keeps (by decide) (by decide) (by decide) (by decide) (.refl _ s)

variable {s t c} (h : chState s t c ≠ 0) (zero : Bool)
include h

/-- The channel's status is cleared; the line of pointers beyond it is in memory. -/
theorem rd_chReset (hwf : s.wf = true) (hc : c < 4096) : rd (chReset s t c zero) (chStat t c) = clearedStat (rd (resetTold s t c) (chStat t c)) := by
  have hdone : rd (resetDone s t c) (chStat t c) = clearedStat (rd (resetTold s t c) (chStat t c)) := by
    rw [resetDone, rd_setChan, resetCleared, rd_wrReg_same ((resetTold_keeps s t c).wf hwf)]
  rw [chReset_eq h]
  split
  · rw [lineCleared, rd_storeSeen (noWatch_chStat t hc), hdone]
  · exact hdone

theorem chReset_runs : (chReset s t c zero).chan.runs = eSet {} (4096 * t + c)
    { stale := (chan s t c).stale || flag (resetCleared s t c) (chStat t c) TniChStat.DISP, resetAt := some s.clk.now } s.chan.runs := by
  have hdone : (resetDone s t c).chan.runs = eSet {} (4096 * t + c)
      { stale := (chan s t c).stale || flag (resetCleared s t c) (chStat t c) TniChStat.DISP, resetAt := some s.clk.now } s.chan.runs := by
    rw [resetDone, setChan, resetCleared, wrReg_clk, wrReg_chan, (resetTold_keeps s t c).only .clk (by decide),
      (resetTold_keeps s t c).only .chan (by decide)]
  rw [chReset_eq h]
  split
  · rw [(lineCleared_keeps _ t c).only .chan (by decide), hdone]
  · exact hdone

end Reset

/-! ### What reads as before behind the seal gate (R547) -/

/-- Every register but the sequence numbers of the sealed tenants reads the same. -/
def SameSettings (s g : State) : Prop := ∀ a, a < 0x100100 ∨ 0x200000 ≤ a → rd g a = rd s a

theorem pastGate_sameSettings (s : State) {fn : Nat} (hfn : fn < 64) (n : Nat) : SameSettings s (pastGate s fn n) := fun a ha =>
  pastGate_regsOutside s fn n a (by
    simp only [List.mem_singleton, Reg.secCseq, Blk.base]
    omega)

section SameSettings

variable {s g : State} (h : SameSettings s g)
include h

theorem sameSettings_wrReg {a : Nat} (hs : s.wf = true) (hg : g.wf = true) (w : Word) : SameSettings (wrReg s a w) (wrReg g a w) := by
  intro c hc
  by_cases hca : c = a
  · rw [hca, rd_wrReg_same hg, rd_wrReg_same hs]
  · rw [rd_wrReg_ne _ _ hca, rd_wrReg_ne _ _ hca, h c hc]

theorem sameSettings_fld {a : Nat} (ha : a < 0x100100 ∨ 0x200000 ≤ a) (f : Fld) : fld g a f = fld s a f := by
  rw [fld, h a ha, ← fld]

theorem good_same (t : Nat) : good g t = good s t := by
  rw [good, sameSettings_fld h (.inl (by decide)), ← good]

theorem twinned_same (t : Nat) : twinned g t = twinned s t := by
  rw [twinned, sameSettings_fld h (.inl (by decide)), ← twinned]

theorem owner_same (t : Nat) : owner g t = owner s t := by
  rw [owner, sameSettings_fld h (.inr (by simp only [Reg.rtrEpOwner, Blk.base]; omega)), ← owner]

theorem sealedT_same (t : Nat) : sealedT g t = sealedT s t := by
  rw [sealedT, h _ (.inl (by decide)), ← sealedT]

theorem myChip_same : myChip g = myChip s := sameSettings_fld h (.inl (by decide)) _

theorem inTorus_same (chip : Nat) : inTorus g chip = inTorus s chip := by
  have hsize : torusSize g = torusSize s := by
    simp only [torusSize, sameSettings_fld h (a := Reg.fabPkgInfo) (.inl (by decide))]
  rw [inTorus, hsize, ← inTorus]

theorem addrCheck_same (fmp : Bool) (chip addr : Nat) : addrCheck g fmp chip addr = addrCheck s fmp chip addr := by
  rw [addrCheck, inTorus_same h, myChip_same h, good_same h, ← addrCheck]

theorem rangeCheck_same (fmp : Bool) (chip addr len : Nat) : rangeCheck g fmp chip addr len = rangeCheck s fmp chip addr len := by
  rw [rangeCheck, funext (addrCheck_same h fmp chip), ← rangeCheck]

theorem mepTrange_same (mep i : Nat) (f : Fld) : fld g (Reg.mepTrange mep i) f = fld s (Reg.mepTrange mep i) f :=
  sameSettings_fld h (.inr (by simp only [Reg.mepTrange, Blk.base]; omega)) f

theorem mepAllows_same (tenant mep sa n : Nat) : mepAllows g tenant mep sa n = mepAllows s tenant mep sa n := by
  have hentry : rangeEntry g mep sa n = rangeEntry s mep sa n := by simp only [rangeEntry, flag, mepTrange_same h]
  have htouch : rangeTouches g mep sa n = rangeTouches s mep sa n := by simp only [rangeTouches, flag, mepTrange_same h]
  rw [mepAllows, hentry, htouch, mepAllows]
  simp only [flag, mepTrange_same h]
  rfl

theorem tileAllows_same (tenant tile : Nat) : tileAllows g tenant tile = tileAllows s tenant tile := by
  rw [tileAllows, owner_same h]
  simp only [sealedT_same h]
  rfl

theorem rangeForeign_same (tenant chip addr len : Nat) : rangeForeign g tenant chip addr len = rangeForeign s tenant chip addr len := by
  simp only [rangeForeign, myChip_same h, addrCheck_same h, mepAllows_same h, tileAllows_same h]

theorem badRange_same (t addr len : Nat) : badRange g t addr len = badRange s t addr len := by
  rw [badRange, rangeCheck_same h, rangeForeign_same h, myChip_same h, ← badRange]

theorem chanRegs_same (t c : Nat) (f : Fld) : fld g (chCfg t c) f = fld s (chCfg t c) f ∧
    fld g (Reg.tniChRing t c) f = fld s (Reg.tniChRing t c) f ∧ fld g (Reg.tniChSpill t c) f = fld s (Reg.tniChSpill t c) f ∧
    fld g (chStat t c) f = fld s (chStat t c) f := by
  refine ⟨sameSettings_fld h (.inr ?_) f, sameSettings_fld h (.inr ?_) f, sameSettings_fld h (.inr ?_) f, sameSettings_fld h (.inr ?_) f⟩
  · simp only [chCfg, Reg.tniChCfg, Blk.base]; omega
  · simp only [Reg.tniChRing, Blk.base]; omega
  · simp only [Reg.tniChSpill, Blk.base]; omega
  · simp only [chStat, Reg.tniChStat, Blk.base]; omega

theorem chState_same (t c : Nat) : chState g t c = chState s t c := (chanRegs_same h t c _).2.2.2

theorem openFault_same (t c : Nat) : openFault g t c = openFault s t c := by
  have hcfg (c : Nat) (f : Fld) := (chanRegs_same h t c f).1
  have hring (f : Fld) := (chanRegs_same h t c f).2.1
  have hspill (f : Fld) := (chanRegs_same h t c f).2.2.1
  have hused : accUsed g t = accUsed s t := by simp only [accUsed, chState_same h, hcfg]
  simp only [openFault, chDepth, chSpcap, spillAddr, chOp, chFmt, flag, hcfg, hring, hspill, hused, twinned_same h, owner_same h, badRange_same h]
  rfl

end SameSettings

/-! ### A channel's registers (R320, R321, R322) -/

theorem findReg_cons_ne {d : RegDef} {o : Nat} (h : (o - d.off) % d.stride ≠ 0) (r : List RegDef) : findReg o (d :: r) = findReg o r :=
  if_neg fun hd => h hd.2.1

section ChannelRegs

variable {t c : Nat} (ht : t < 64) (hc : c < 4096)
include ht hc

/-- The registers of a channel stand behind every other register of their TNI, 32 bytes a channel. -/
theorem fieldsAt_behind {k a : Nat} (hk : k < 32) (ha : a = 0x2000000 + t * 0x80000 + (0x40000 + (k + c * 32))) {d : RegDef}
    (hd : findReg (0x40000 + (k + c * 32)) [tniChCfgDef, tniChRingDef, tniChSpillDef, tniChStatDef] = some (d, c)) : fieldsAt a = d.fields := by
  have hbefore : ∀ d ∈ tniRegs.take 33, 0 < d.stride ∧ d.off + (d.first + d.count) * d.stride ≤ 0x40000 := by decide
  have hend : findReg (0x40000 + (k + c * 32)) tniRegs = some (d, c) :=
    (findReg_append (fun d hd => ⟨(hbefore d hd).1, (hbefore d hd).2.trans (Nat.le_add_right _ _)⟩) (tniRegs.drop 33)).trans hd
  rw [fieldsAt, regAt, blkOf_tni t (0x40000 + (k + c * 32)) a ha ht (by omega)]
  dsimp only
  rw [if_neg (by omega), hend]
  rfl

theorem fieldsAt_chCfg : fieldsAt (chCfg t c) = tniChCfgDef.fields :=
  fieldsAt_behind ht hc (k := 0) (by decide) (by simp only [chCfg, Reg.tniChCfg, Blk.base]; omega)
    (findReg_cons (by simp only [tniChCfgDef]; omega) (by simp only [tniChCfgDef]; omega) _)

theorem fieldsAt_tniChRing : fieldsAt (Reg.tniChRing t c) = tniChRingDef.fields :=
  fieldsAt_behind ht hc (k := 8) (by decide) (by simp only [Reg.tniChRing, Blk.base]; omega)
    ((findReg_cons_ne (by simp only [tniChCfgDef]; omega) _).trans
      (findReg_cons (by simp only [tniChRingDef]; omega) (by simp only [tniChRingDef]; omega) _))

theorem fieldsAt_tniChSpill : fieldsAt (Reg.tniChSpill t c) = tniChSpillDef.fields :=
  fieldsAt_behind ht hc (k := 16) (by decide) (by simp only [Reg.tniChSpill, Blk.base]; omega)
    (((findReg_cons_ne (by simp only [tniChCfgDef]; omega) _).trans (findReg_cons_ne (by simp only [tniChRingDef]; omega) _)).trans
      (findReg_cons (by simp only [tniChSpillDef]; omega) (by simp only [tniChSpillDef]; omega) _))

end ChannelRegs

/-- What a write to a register whose fields are all RW leaves there. -/
def plainWritten (s : State) (a v : Nat) : Word := accessWrite (rd s a) (BitVec.ofNat 64 v) (fieldsAt a)

section ChTry

variable (s : State) {t c : Nat} (ht : t < 64) (hc : c < 4096) (cfg ring spill : Nat)

theorem channelRegs_distinct (t c : Nat) : chCfg t c ≠ Reg.tniChRing t c ∧ chCfg t c ≠ Reg.tniChSpill t c ∧ Reg.tniChRing t c ≠ Reg.tniChSpill t c ∧
    chCfg t c ≠ chStat t c ∧ Reg.tniChRing t c ≠ chStat t c ∧ Reg.tniChSpill t c ≠ chStat t c := by
  simp only [chCfg, chStat, Reg.tniChCfg, Reg.tniChRing, Reg.tniChSpill, Reg.tniChStat]
  omega

include ht hc

theorem chTry_eq : chTry s t c cfg ring spill =
    wrReg (wrReg (wrReg s (chCfg t c) (plainWritten s (chCfg t c) cfg)) (Reg.tniChRing t c) (plainWritten s (Reg.tniChRing t c) ring))
      (Reg.tniChSpill t c) (plainWritten s (Reg.tniChSpill t c) spill) := by
  have hcfg := softWrite_eq_wrReg (off := chCfg t c) (by rw [fieldsAt_chCfg ht hc]; decide) (by rw [fieldsAt_chCfg ht hc]; decide)
  have hring := softWrite_eq_wrReg (off := Reg.tniChRing t c) (by rw [fieldsAt_tniChRing ht hc]; decide) (by rw [fieldsAt_tniChRing ht hc]; decide)
  have hspill := softWrite_eq_wrReg (off := Reg.tniChSpill t c) (by rw [fieldsAt_tniChSpill ht hc]; decide) (by rw [fieldsAt_tniChSpill ht hc]; decide)
  obtain ⟨hcr, hcs, hrs, -, -, -⟩ := channelRegs_distinct t c
  rw [chTry, hcfg, hring, hspill, rd_wrReg_ne _ _ hrs.symm, rd_wrReg_ne _ _ hcs.symm, rd_wrReg_ne _ _ hcr.symm]
  rfl

theorem chTry_sameSettings {s g : State} (h : SameSettings s g) (hs : s.wf = true) (hg : g.wf = true) :
    SameSettings (chTry s t c cfg ring spill) (chTry g t c cfg ring spill) := by
  have hword {a : Nat} (ha : a < 0x100100 ∨ 0x200000 ≤ a) (v : Nat) : plainWritten g a v = plainWritten s a v := by
    rw [plainWritten, h a ha, ← plainWritten]
  rw [chTry_eq g ht hc, chTry_eq s ht hc, hword (.inr (by simp only [chCfg, Reg.tniChCfg, Blk.base]; omega)),
    hword (.inr (by simp only [Reg.tniChRing, Blk.base]; omega)), hword (.inr (by simp only [Reg.tniChSpill, Blk.base]; omega))]
  exact sameSettings_wrReg (sameSettings_wrReg (sameSettings_wrReg h hs hg _) (wf_wrReg hs _ _) (wf_wrReg hg _ _) _)
    (wf_wrReg (wf_wrReg hs _ _) _ _) (wf_wrReg (wf_wrReg hg _ _) _ _) _

theorem rd_chTry {s : State} (hs : s.wf = true) : rd (chTry s t c cfg ring spill) (chCfg t c) = plainWritten s (chCfg t c) cfg ∧
    rd (chTry s t c cfg ring spill) (Reg.tniChRing t c) = plainWritten s (Reg.tniChRing t c) ring ∧
    rd (chTry s t c cfg ring spill) (Reg.tniChSpill t c) = plainWritten s (Reg.tniChSpill t c) spill := by
  obtain ⟨hcr, hcs, hrs, -, -, -⟩ := channelRegs_distinct t c
  rw [chTry_eq s ht hc]
  refine ⟨?_, ?_, ?_⟩
  · rw [rd_wrReg_ne _ _ hcs, rd_wrReg_ne _ _ hcr, rd_wrReg_same hs]
  · rw [rd_wrReg_ne _ _ hrs, rd_wrReg_same (wf_wrReg hs _ _)]
  · rw [rd_wrReg_same (wf_wrReg (wf_wrReg hs _ _) _ _)]

end ChTry

/-! ### A channel opened (R325, R415) -/

/-- A FREE channel's three registers written, and the channel OPEN. -/
def chOpened (s : State) (t c cfg ring spill : Nat) : State :=
  setChState (setChan (chTry s t c cfg ring spill) t c { stale := (chan s t c).stale }) t c 1

theorem chOpen_of_free {s : State} {t c cfg ring spill : Nat} (hfree : chState s t c = 0) (hok : openFault (chTry s t c cfg ring spill) t c = 0) :
    (chOpen s t c cfg ring spill).1 = chOpened s t c cfg ring spill := by
  rw [chOpen, if_neg (not_not.mpr hfree)]
  dsimp only
  rw [if_neg (not_not.mpr hok)]
  rfl

/-- A channel's STATE set. -/
theorem chState_setChState {s : State} (h : s.wf = true) (t c v : Nat) : chState (setChState s t c v) t c = v % 4 :=
  fld_setFld_same _ _ _ h (by decide) (by decide)

theorem chState_chOpened {s : State} (h : s.wf = true) (t c cfg ring spill : Nat) : chState (chOpened s t c cfg ring spill) t c = 1 :=
  chState_setChState ((setChan_keeps (w := [.chan, .regs]) (by decide) (chTry_keeps (by decide) (.refl _ s))).wf h) t c 1

theorem rd_chOpened (s : State) {t c a : Nat} (ha : a ≠ chStat t c) (cfg ring spill : Nat) :
    rd (chOpened s t c cfg ring spill) a = rd (chTry s t c cfg ring spill) a := by
  rw [chOpened, setChState, rd_setFld_ne _ _ _ ha, rd_setChan]

/-- The handler that a CHANNEL_OPEN may name entered in the TNI's table. -/
def withHandler (s : State) (t i w : Nat) : State := if bit w 63 then softWrite s (Reg.tniChHtab t i) w else s

theorem rd_withHandler (s : State) {t i a : Nat} (ha : a ≠ Reg.tniChHtab t i) (w : Nat) : rd (withHandler s t i w) a = rd s a := by
  rw [withHandler]
  split
  · exact softWrite_regsOutside _ _ _ a (by simpa using ha)
  · rfl

theorem withHandler_keeps (s : State) (t i w : Nat) : Keeps [.regs] s (withHandler s t i w) := .ite (softWrite_keeps (by decide) (.refl _ s)) (.refl _ s)

/-- The handler table stands before the channels. -/
theorem tniChHtab_ne_channel {i k : Nat} (t : Nat) (hi : i < 256) : Blk.base (.tni t) + 0x40000 + k ≠ Reg.tniChHtab t i := by
  simp only [Reg.tniChHtab]
  omega

/-- What CHANNEL_OPEN of a FREE channel leaves. -/
def channelOpened (s : State) (fn t c : Nat) : State :=
  withHandler (chOpened s t c (rqW s .f fn 1) (rqW s .f fn 2) (rqW s .f fn 3)) t (bits (rqW s .f fn 1) 35 28) (rqW s .f fn 4)

theorem channelOpened_mbx (s : State) (fn t c : Nat) : (channelOpened s fn t c).mbx = s.mbx := by
  rw [channelOpened, (withHandler_keeps _ _ _ _).only .mbx (by decide)]
  exact (setChState_keeps (w := [.chan, .regs]) (by decide) (setChan_keeps (by decide) (chTry_keeps (by decide) (.refl _ s)))).only .mbx (by decide)

theorem channelOpenRun_free {s : State} {fn t c : Nat} (hfree : chState s t c = 0)
    (hok : openFault (chTry s t c (rqW s .f fn 1) (rqW s .f fn 2) (rqW s .f fn 3)) t c = 0) : channelOpenRun fn s t c = channelOpened s fn t c := by
  have hmbx : (chOpened s t c (rqW s .f fn 1) (rqW s .f fn 2) (rqW s .f fn 3)).mbx = s.mbx :=
    (setChState_keeps (w := [.chan, .regs]) (by decide) (setChan_keeps (by decide) (chTry_keeps (by decide) (.refl _ s)))).only .mbx (by decide)
  rw [channelOpenRun, hfree]
  dsimp only
  rw [chOpen_of_free hfree hok, rqW_of_mbx hmbx, rqW_of_mbx hmbx]
  rfl

theorem channelOpenRun_closed {s : State} {fn t c : Nat} (h : chState s t c = 2) : channelOpenRun fn s t c = setChState s t c 1 := by
  simp [channelOpenRun, h]

section ChannelOpened

variable {s : State} (hwf : s.wf = true) {fn t c : Nat}
include hwf

theorem chState_channelOpened : chState (channelOpened s fn t c) t c = 1 := by
  have hne : chStat t c ≠ Reg.tniChHtab t (bits (rqW s .f fn 1) 35 28) := by
    have := tniChHtab_ne_channel t (i := bits (rqW s .f fn 1) 35 28) (k := 24 + c * 32) (Nat.mod_lt _ (by decide))
    simp only [chStat, Reg.tniChStat] at this ⊢
    omega
  rw [channelOpened, chState, fld, rd_withHandler _ hne]
  exact chState_chOpened hwf t c _ _ _

theorem rd_channelOpened (ht : t < 64) (hc : c < 4096) :
    rd (channelOpened s fn t c) (chCfg t c) = plainWritten s (chCfg t c) (rqW s .f fn 1) ∧
    rd (channelOpened s fn t c) (Reg.tniChRing t c) = plainWritten s (Reg.tniChRing t c) (rqW s .f fn 2) ∧
    rd (channelOpened s fn t c) (Reg.tniChSpill t c) = plainWritten s (Reg.tniChSpill t c) (rqW s .f fn 3) := by
  have hi : bits (rqW s .f fn 1) 35 28 < 256 := Nat.mod_lt _ (by decide)
  obtain ⟨-, -, -, hcfg, hring, hspill⟩ := channelRegs_distinct t c
  obtain ⟨hcfgw, hringw, hspillw⟩ := rd_chTry ht hc (rqW s .f fn 1) (rqW s .f fn 2) (rqW s .f fn 3) hwf
  rw [channelOpened]
  refine ⟨?_, ?_, ?_⟩
  · rw [rd_withHandler _ (by simp only [chCfg, Reg.tniChCfg, Reg.tniChHtab]; omega), rd_chOpened _ hcfg, hcfgw]
  · rw [rd_withHandler _ (by simp only [Reg.tniChRing, Reg.tniChHtab]; omega), rd_chOpened _ hring, hringw]
  · rw [rd_withHandler _ (by simp only [Reg.tniChSpill, Reg.tniChHtab]; omega), rd_chOpened _ hspill, hspillw]

end ChannelOpened

/-! ### The channel commands (R415) -/

theorem chClose_mbx (s : State) (t c : Nat) : (chClose s t c).mbx = s.mbx :=
  (chClose_keeps (w := [.chan, .dyn, .log, .regs, .rel]) (by decide) (by decide) (by decide) (by decide) (by decide) (.refl _ s)).only .mbx (by decide)

theorem chReset_mbx (s : State) (t c : Nat) : (chReset s t c true).mbx = s.mbx :=
  (chReset_keeps (w := [.chan, .dyn, .free, .lane, .mem, .memPoison, .obs, .regs, .rel]) (by decide) (by decide) (by decide) (by decide) (by decide)
    (by decide) (by decide) (by decide) (by decide) (.refl _ s)).only .mbx (by decide)

/-- A close without a partial round leaves the channel CLOSED; a CLOSED one it leaves as it is. -/
theorem chState_chClose {s : State} (hwf : s.wf = true) {t c : Nat} (hst : chState s t c = 1 ∨ chState s t c = 2) (hacc : (chan s t c).acc.count = 0) :
    chState (chClose s t c) t c = 2 ∧ (chClose s t c).dyn = s.dyn := by
  rcases hst with hst | hst
  · rw [chClose, if_neg (not_not.mpr hst)]
    dsimp only
    rw [if_pos hacc]
    exact ⟨chState_setChState hwf t c 2, rfl⟩
  · rw [chClose, if_pos (by rw [hst]; decide)]
    exact ⟨hst, rfl⟩

section ChannelRequest

variable {s m : State} (h : m.mbx = s.mbx)
include h

theorem coTile_of_mbx (fn : Nat) : coTile m fn = coTile s fn := by rw [coTile, rqW_of_mbx h, ← coTile]

theorem coChan_of_mbx (fn : Nat) : coChan m fn = coChan s fn := by rw [coChan, rqW_of_mbx h, ← coChan]

end ChannelRequest

theorem coTile_lt (s : State) (fn : Nat) : coTile s fn < 64 := Nat.mod_lt _ (by decide)

theorem coChan_lt (s : State) (fn : Nat) : coChan s fn < 4096 := Nat.mod_lt _ (by decide)

section ChanCommand

variable {s : State} {fn cmd n : Nat} (h : takesUp s .f fn cmd = true) (hgate : gateOpens s fn n [] = true) (hfmt : bits (rqW s .f fn 0) 63 18 = 0)
include h hgate hfmt

theorem chanCommand_refused {more : List (State → Bool × Reason)} {fault : State → Nat} {r : Reason} {ws : List Nat}
    (hchk : naming (fault s) (firstOf (chanPlace s fn ++ more.map (· s))) = some (r, ws)) (act : State → Nat → Nat → State) :
    chanCommand s fn cmd n more act fault = refuse s .f fn r ws :=
  fwGated_refused_chk (fmt := fun s => rsvd s .f fn 0 63 18) (priv := fun _ => none)
    (chk := fun s => naming (fault s) (firstOf (chanPlace s fn ++ more.map (· s)))) h (by simp [rsvd, hfmt]) hgate rfl hchk _

theorem chanCommand_acts {more : List (State → Bool × Reason)} {fault : State → Nat} {act : State → Nat → Nat → State} {m : State}
    (hchk : naming (fault s) (firstOf (chanPlace s fn ++ more.map (· s))) = none) (hm : m.mbx = s.mbx)
    (hact : act (pastGate s fn n) (coTile s fn) (coChan s fn) = m) : chanCommand s fn cmd n more act fault = refuse m .f fn .none [] :=
  fwGated_acts (fmt := fun s => rsvd s .f fn 0 63 18) (priv := fun _ => none)
    (chk := fun s => naming (fault s) (firstOf (chanPlace s fn ++ more.map (· s))))
    (act := fun s => answerOk (act s (coTile s fn) (coChan s fn)) .f fn) h (by simp [rsvd, hfmt]) hgate rfl hchk hm
    (by rw [coTile_of_mbx (pastGate_mbx s fn n), coChan_of_mbx (pastGate_mbx s fn n), hact, answerOk_eq])

/-- A channel command for a tile that is not good is refused DISABLED. -/
theorem chanCommand_disabled (hbad : good s (coTile s fn) = false) (more : List (State → Bool × Reason)) (act : State → Nat → Nat → State)
    (fault : State → Nat) : chanCommand s fn cmd n more act fault = refuse s .f fn .disabled [] :=
  chanCommand_refused h hgate hfmt (by simp [chanPlace, firstOf, hbad, naming]) act

/-- A channel command for a tile of another's, or one without channels, is refused CONFLICT. -/
theorem chanCommand_conflict (hgood : good s (coTile s fn) = true) (hother : owner s (coTile s fn) ≠ fn ∨ oddTwin s (coTile s fn) = true)
    (more : List (State → Bool × Reason)) (act : State → Nat → Nat → State) (fault : State → Nat) :
    chanCommand s fn cmd n more act fault = refuse s .f fn .conflict [] := by
  have hplace : (owner s (coTile s fn) != fn || oddTwin s (coTile s fn)) = true := by simpa using hother
  exact chanCommand_refused h hgate hfmt (by simp [chanPlace, firstOf, hgood, hplace, naming]) act

end ChanCommand

/-- At a good tile of the caller's own that has channels only a command's own checks are left. -/
theorem firstOf_chanPlace {s : State} {fn : Nat} (hgood : good s (coTile s fn) = true) (hown : owner s (coTile s fn) = fn)
    (htwin : oddTwin s (coTile s fn) = false) (l : List (Bool × Reason)) : firstOf (chanPlace s fn ++ l) = firstOf l := by
  simp [chanPlace, firstOf, hgood, hown, htwin]

/-- CHANNEL_OPEN's own checks: a dead channel, and a FREE one whose open fails. -/
def openChecks (fn : Nat) : List (State → Bool × Reason) :=
  [fun s => (chState s (coTile s fn) (coChan s fn) == 3, .state), fun s => (openRefused s fn, .check)]

theorem exec_channelOpen (fn : Nat) (s : State) :
    exec (.channelOpen fn) s = .next (chanCommand s fn 0x150 40 (openChecks fn) (channelOpenRun fn) (openWhy · fn)) := rfl

/-- CHANNEL_CLOSE's own check: a channel that is neither OPEN nor CLOSED. -/
def closeChecks (fn : Nat) : List (State → Bool × Reason) :=
  [fun s => (chState s (coTile s fn) (coChan s fn) == 0 || chState s (coTile s fn) (coChan s fn) == 3, .state)]

theorem exec_channelClose (fn : Nat) (s : State) : exec (.channelClose fn) s = .next (chanCommand s fn 0x151 8 (closeChecks fn) chClose) := rfl

/-- CHANNEL_RESET's own check: a FREE channel. -/
def resetChecks (fn : Nat) : List (State → Bool × Reason) := [fun s => (chState s (coTile s fn) (coChan s fn) == 0, .state)]

theorem exec_channelReset (fn : Nat) (s : State) :
    exec (.channelReset fn) s = .next (chanCommand s fn 0x152 8 (resetChecks fn) fun s t c => chReset s t c true) := rfl

/-- The three of them are channel commands. -/
theorem exec_chanCommand {s : State} {fn : Nat} {k : Nat × Nat × Instr}
    (hk : k ∈ [(0x150, 40, Instr.channelOpen fn), (0x151, 8, .channelClose fn), (0x152, 8, .channelReset fn)]) :
    ∃ more act fault, exec k.2.2 s = .next (chanCommand s fn k.1 k.2.1 more act fault) := by
  simp only [List.mem_cons, List.not_mem_nil, or_false] at hk
  obtain rfl | rfl | rfl := hk
  · exact ⟨_, _, _, exec_channelOpen fn s⟩
  · exact ⟨_, _, _, exec_channelClose fn s⟩
  · exact ⟨_, _, _, exec_channelReset fn s⟩

section ChannelOpen

variable {s : State} {fn : Nat} (h : takesUp s .f fn 0x150 = true) (hgate : gateOpens s fn 40 [] = true) (hfmt : bits (rqW s .f fn 0) 63 18 = 0)
  (hgood : good s (coTile s fn) = true) (hown : owner s (coTile s fn) = fn) (htwin : oddTwin s (coTile s fn) = false)
include h hgate hfmt hgood hown htwin

theorem exec_channelOpen_dead (hst : chState s (coTile s fn) (coChan s fn) = 3) : exec (.channelOpen fn) s = .next (refuse s .f fn .state []) :=
  congrArg Host.Outcome.next (chanCommand_refused (more := openChecks fn) (fault := (openWhy · fn)) h hgate hfmt
    (by rw [firstOf_chanPlace hgood hown htwin]; simp [openChecks, firstOf, hst, naming]) (channelOpenRun fn))

theorem exec_channelOpen_unfit (hst : chState s (coTile s fn) (coChan s fn) = 0) (hbad : openRefused s fn = true) :
    exec (.channelOpen fn) s = .next (refuse s .f fn .check [openWhy s fn]) :=
  congrArg Host.Outcome.next (chanCommand_refused (more := openChecks fn) (fault := (openWhy · fn)) h hgate hfmt
    (by rw [firstOf_chanPlace hgood hown htwin]; simp [openChecks, firstOf, hst, hbad, naming]) (channelOpenRun fn))

theorem exec_channelOpen_free (hfn : fn < 64) (hwf : s.wf = true) (hst : chState s (coTile s fn) (coChan s fn) = 0)
    (hok : openRefused s fn = false) :
    exec (.channelOpen fn) s = .next (refuse (channelOpened (pastGate s fn 40) fn (coTile s fn) (coChan s fn)) .f fn .none []) := by
  have hgmbx := pastGate_mbx s fn 40
  have hsame := pastGate_sameSettings s hfn 40
  have hwhy : openFault (chTry s (coTile s fn) (coChan s fn) (rqW s .f fn 1) (rqW s .f fn 2) (rqW s .f fn 3)) (coTile s fn) (coChan s fn) = 0 := by
    rw [openRefused, openWhy, if_neg (not_not.mpr hst)] at hok
    simpa using hok
  have hfault := (openFault_same (chTry_sameSettings (coTile_lt s fn) (coChan_lt s fn) (rqW s .f fn 1) (rqW s .f fn 2) (rqW s .f fn 3) hsame hwf
    ((pastGate_keeps s fn 40).wf hwf)) (coTile s fn) (coChan s fn)).trans hwhy
  refine congrArg Host.Outcome.next (chanCommand_acts (more := openChecks fn) (fault := (openWhy · fn)) h hgate hfmt
    (by rw [firstOf_chanPlace hgood hown htwin]; simp [openChecks, firstOf, hst, hok, naming]) ((channelOpened_mbx _ _ _ _).trans hgmbx)
    (channelOpenRun_free ((chState_same hsame _ _).trans hst) ?_))
  rw [rqW_of_mbx hgmbx, rqW_of_mbx hgmbx, rqW_of_mbx hgmbx]
  exact hfault

theorem exec_channelOpen_closed (hfn : fn < 64) (hst : chState s (coTile s fn) (coChan s fn) = 2) :
    exec (.channelOpen fn) s = .next (refuse (setChState (pastGate s fn 40) (coTile s fn) (coChan s fn) 1) .f fn .none []) := by
  have hok : openRefused s fn = false := by
    rw [openRefused, openWhy, if_pos (by rw [hst]; decide)]
    rfl
  exact congrArg Host.Outcome.next (chanCommand_acts (more := openChecks fn) (fault := (openWhy · fn)) h hgate hfmt
    (by rw [firstOf_chanPlace hgood hown htwin]; simp [openChecks, firstOf, hst, hok, naming]) (pastGate_mbx s fn 40)
    (channelOpenRun_closed ((chState_same (pastGate_sameSettings s hfn 40) _ _).trans hst)))

end ChannelOpen

section ChannelClose

variable {s : State} {fn : Nat} (h : takesUp s .f fn 0x151 = true) (hgate : gateOpens s fn 8 [] = true) (hfmt : bits (rqW s .f fn 0) 63 18 = 0)
  (hgood : good s (coTile s fn) = true) (hown : owner s (coTile s fn) = fn) (htwin : oddTwin s (coTile s fn) = false)
include h hgate hfmt hgood hown htwin

theorem exec_channelClose_refused (hst : chState s (coTile s fn) (coChan s fn) = 0 ∨ chState s (coTile s fn) (coChan s fn) = 3) :
    exec (.channelClose fn) s = .next (refuse s .f fn .state []) :=
  congrArg Host.Outcome.next (chanCommand_refused (more := closeChecks fn) (fault := fun _ => 0) h hgate hfmt
    (by rw [firstOf_chanPlace hgood hown htwin]; simp [closeChecks, firstOf, hst, naming]) chClose)

theorem exec_channelClose_done (hst : chState s (coTile s fn) (coChan s fn) = 1 ∨ chState s (coTile s fn) (coChan s fn) = 2) :
    exec (.channelClose fn) s = .next (refuse (chClose (pastGate s fn 8) (coTile s fn) (coChan s fn)) .f fn .none []) := by
  have hstays : ¬ (chState s (coTile s fn) (coChan s fn) = 0 ∨ chState s (coTile s fn) (coChan s fn) = 3) := by omega
  exact congrArg Host.Outcome.next (chanCommand_acts (more := closeChecks fn) (fault := fun _ => 0) h hgate hfmt
    (by rw [firstOf_chanPlace hgood hown htwin]; simp [closeChecks, firstOf, hstays, naming])
    ((chClose_mbx _ _ _).trans (pastGate_mbx s fn 8)) rfl)

end ChannelClose

section ChannelReset

variable {s : State} {fn : Nat} (h : takesUp s .f fn 0x152 = true) (hgate : gateOpens s fn 8 [] = true) (hfmt : bits (rqW s .f fn 0) 63 18 = 0)
  (hgood : good s (coTile s fn) = true) (hown : owner s (coTile s fn) = fn) (htwin : oddTwin s (coTile s fn) = false)
include h hgate hfmt hgood hown htwin

theorem exec_channelReset_refused (hst : chState s (coTile s fn) (coChan s fn) = 0) :
    exec (.channelReset fn) s = .next (refuse s .f fn .state []) :=
  congrArg Host.Outcome.next (chanCommand_refused (more := resetChecks fn) (fault := fun _ => 0) h hgate hfmt
    (by rw [firstOf_chanPlace hgood hown htwin]; simp [resetChecks, firstOf, hst, naming]) fun s t c => chReset s t c true)

theorem exec_channelReset_done (hst : chState s (coTile s fn) (coChan s fn) ≠ 0) :
    exec (.channelReset fn) s = .next (refuse (chReset (pastGate s fn 8) (coTile s fn) (coChan s fn) true) .f fn .none []) :=
  congrArg Host.Outcome.next (chanCommand_acts (more := resetChecks fn) (fault := fun _ => 0) h hgate hfmt
    (by rw [firstOf_chanPlace hgood hown htwin]; simp [resetChecks, firstOf, hst, naming]) ((chReset_mbx _ _ _).trans (pastGate_mbx s fn 8)) rfl)

end ChannelReset

end Sys2Proof.Machine

namespace Sys2Proof.Machine

theorem refuse_dyn (s : State) (sv : Server) (fn : Nat) (r : Reason) (ws : List Nat) : (refuse s sv fn r ws).dyn = s.dyn :=
  (refuse_keeps (by decide) (by decide) (Keeps.refl [.host, .mbx] s)).only .dyn (by decide)

theorem refuse_chan (s : State) (sv : Server) (fn : Nat) (r : Reason) (ws : List Nat) : (refuse s sv fn r ws).chan = s.chan :=
  (refuse_keeps (by decide) (by decide) (Keeps.refl [.host, .mbx] s)).only .chan (by decide)

theorem rd_refuse (s : State) (sv : Server) (fn : Nat) (r : Reason) (ws : List Nat) (a : Nat) : rd (refuse s sv fn r ws) a = rd s a :=
  rd_of_regs_eq (refuse_regs ..) a

theorem setChState_mbx (s : State) (t c v : Nat) : (setChState s t c v).mbx = s.mbx := by rw [setChState, setFld_mbx]

/-! ### What each command leaves -/

section RingOutcome

variable {s : State} (hwf : s.wf = true) (fn : Nat)

theorem ringCreated_mbx (s : State) : (if rcCq s fn then cqCreated (pastGate s fn 24) fn else crCreated (pastGate s fn 24) fn).mbx = s.mbx := by
  split
  · exact (cqCreated_mbx _ fn).trans (pastGate_mbx s fn 24)
  · exact (crCreated_parts _ fn).2.1.trans (pastGate_mbx s fn 24)

include hwf

theorem cqCreated_spec : let u := refuse (cqCreated (pastGate s fn 24) fn) .f fn .none []
    rd u (Reg.hpCqCfg fn (rcRing s fn)) = rcImage s fn ∧ RegsOutside [Reg.hpCqCfg fn (rcRing s fn), Reg.secCseq fn] s u ∧
      u.host.cqs = eSet {} (ringKey fn (rcRing s fn)) {} s.host.cqs := by
  have hring := rcRing_of_mbx (pastGate_mbx s fn 24) fn
  have himage : rcImage (pastGate s fn 24) fn = rcImage s fn := by rw [rcImage, rqW_of_mbx (pastGate_mbx s fn 24), ← rcImage]
  dsimp only
  rw [refuse_cqs, rd_refuse, cqCreated, hring, himage]
  refine ⟨rd_wrReg_same ((pastGate_keeps s fn 24).wf hwf) _ _, ?_, ?_⟩
  · exact (((pastGate_regsOutside s fn 24).mono (by simp)).trans ((wrReg_regsOutside _ _ _).mono (by simp))).trans
      (regsOutside_of_regs_eq (refuse_regs ..))
  · rw [setCq, wrReg_host, pastGate_host]

theorem crCreated_spec : let r := rcRing s fn; let u := refuse (crCreated (pastGate s fn 24) fn) .f fn .none []
    rd u (Reg.hpCrCfg fn r) = rcImage s fn ∧ (rd u (Reg.hpCrCfgb fn r)).toNat = bits (rqW s .f fn 1) 21 0 ∧
      fld u (Reg.hpCrStat fn r) HpCrStat.STATE = 1 ∧
      u.host.rings = eSet {} (ringKey fn r) { fetched := if hpRuns u fn r then 0 else exCtr u fn r HpCrCfgb.DBCTR } s.host.rings ∧
      RegsOutside [Reg.hpCrCfg fn r, Reg.hpCrCfgb fn r, Reg.hpCrStat fn r, Reg.secCseq fn] s u := by
  have hgmbx := pastGate_mbx s fn 24
  have hring := rcRing_of_mbx hgmbx fn
  have himage : rcImage (pastGate s fn 24) fn = rcImage s fn := by rw [rcImage, rqW_of_mbx hgmbx, ← rcImage]
  obtain ⟨hregs, -, hrings⟩ := crCreated_parts (pastGate s fn 24) fn
  rw [hring, himage, rqW_of_mbx hgmbx] at hregs hrings
  obtain ⟨hcfg, hcfgb, hstat⟩ := rd_crRegs fn (rcRing s fn) (rcImage s fn) (BitVec.ofNat 64 (bits (rqW s .f fn 1) 21 0)) ((pastGate_keeps s fn 24).wf hwf)
  have houtside := crRegs_regsOutside (pastGate s fn 24) fn (rcRing s fn) (rcImage s fn) (BitVec.ofNat 64 (bits (rqW s .f fn 1) 21 0))
  have hleft := (refuse_regs (crCreated (pastGate s fn 24) fn) .f fn .none []).trans hregs
  dsimp only
  rw [rd_of_regs_eq hleft, rd_of_regs_eq hleft, fld_of_regs_eq hleft, hpRuns_of_regs hleft, exCtr_of_regs hleft, refuse_rings, hrings, hcfg, hcfgb, hstat]
  refine ⟨rfl, toNat_ofNat_bits _ _ _ (by decide), rfl, ?_, ?_⟩
  · rw [crStarted, setRing, crRegs, setFld_host, wrReg_host, wrReg_host, wrReg_host, pastGate_host]
  · exact (((pastGate_regsOutside s fn 24).mono (by simp)).trans (houtside.mono (by simp))).trans (regsOutside_of_regs_eq hleft)

theorem crStopped_spec : let r := rcRing s fn; let u := crStopped (pastGate s fn 24) fn
    fld u (Reg.hpCrStat fn r) HpCrStat.STATE = 0 ∧ u.host.rings = eSet {} (ringKey fn r) { ring s fn r with queue := [], t0 := none } s.host.rings := by
  have hring := rcRing_of_mbx (pastGate_mbx s fn 24) fn
  have hrun : ring (pastGate s fn 24) fn (rcRing s fn) = ring s fn (rcRing s fn) := by rw [ring, pastGate_host, ← ring]
  dsimp only
  rw [fld_of_regs_eq (crStopped_regs _ fn), crStopped_rings, hring, hrun, pastGate_host,
    fld_setFld_same _ _ _ ((pastGate_keeps s fn 24).wf hwf) (by decide) (by decide)]
  exact ⟨rfl, rfl⟩

end RingOutcome

theorem begin_mbx {s m : State} (h : m.mbx = s.mbx) (sv : Server) (fn : Nat) : (begin_ m sv fn).mbx = (begin_ s sv fn).mbx := by
  simp only [begin_, setSlot, mbxSlot, h]

section RingDestroyOutcome

variable {s : State} {fn : Nat} (hwf : s.wf = true) (h : takesUp s .f fn 0x121 = true) (hgate : gateOpens s fn 24 [] = true)
  (hfmt : ringDestroyFormat fn s = true) (hchk : ringDestroyCheck fn s = none)
include hwf h hgate hfmt hchk

theorem ringDestroy_cq (hkind : rcCq s fn = true) : ∃ u, exec (.ringDestroy fn) s = .next u ∧ Told s u .f fn .none [] ∧
    flag u (Reg.hpCqCfg fn (rcRing s fn)) HpCqCfg.EN = false := by
  have hen := en_cqDestroyed (fn := fn) ((pastGate_keeps s fn 24).wf hwf) .none []
  rw [rcRing_of_mbx (pastGate_mbx s fn 24)] at hen
  exact ⟨_, exec_ringDestroy_cq h hgate hfmt hchk hkind, told_refuse (m := cqDestroyed _ _) (pastGate_mbx s fn 24) _ _ _ _, hen⟩

theorem ringDestroy_idle (hkind : rcCq s fn = false) (hidle : s.host.cmds.any (fromRing fn (rcRing s fn)) = false) :
    ∃ u, exec (.ringDestroy fn) s = .next u ∧ Told s u .f fn .none [] ∧ flag u (Reg.hpCrCfg fn (rcRing s fn)) HpCrCfg.EN = false := by
  have hen := en_crDestroyed (fn := fn) (crStopped_wf _ fn ((pastGate_keeps s fn 24).wf hwf)) .none []
  rw [rcRing_crStopped, rcRing_of_mbx (pastGate_mbx s fn 24)] at hen
  have hmbx : (crDestroyed (crStopped (pastGate s fn 24) fn) fn).mbx = (begin_ s .f fn).mbx := by
    rw [crDestroyed_mbx, crStopped_mbx, begin_mbx (pastGate_mbx s fn 24)]
  exact ⟨_, exec_ringDestroy_idle h hgate hfmt hchk hkind hidle, told_refuse_begun hmbx _ _, hen⟩

end RingDestroyOutcome

/-- What a CHANNEL_OPEN of a FREE channel leaves, told of the state before the gate. -/
theorem channelOpened_spec {s : State} {fn : Nat} (hfn : fn < 64) (hwf : s.wf = true) {t c : Nat} (ht : t < 64) (hc : c < 4096) :
    let u := refuse (channelOpened (pastGate s fn 40) fn t c) .f fn .none []
    chState u t c = 1 ∧
      rd u (chCfg t c) = accessWrite (rd s (chCfg t c)) (BitVec.ofNat 64 (rqW s .f fn 1)) (fieldsAt (chCfg t c)) ∧
      rd u (Reg.tniChRing t c) = accessWrite (rd s (Reg.tniChRing t c)) (BitVec.ofNat 64 (rqW s .f fn 2)) (fieldsAt (Reg.tniChRing t c)) ∧
      rd u (Reg.tniChSpill t c) = accessWrite (rd s (Reg.tniChSpill t c)) (BitVec.ofNat 64 (rqW s .f fn 3)) (fieldsAt (Reg.tniChSpill t c)) := by
  have hgwf := (pastGate_keeps s fn 40).wf hwf
  have hsame := pastGate_sameSettings s hfn 40
  obtain ⟨hcfg, hring, hspill⟩ := rd_channelOpened (fn := fn) hgwf ht hc
  have hword {a : Nat} (ha : a < 0x100100 ∨ 0x200000 ≤ a) (i : Nat) :
      plainWritten (pastGate s fn 40) a (rqW (pastGate s fn 40) .f fn i) = accessWrite (rd s a) (BitVec.ofNat 64 (rqW s .f fn i)) (fieldsAt a) := by
    rw [plainWritten, hsame a ha, rqW_of_mbx (pastGate_mbx s fn 40)]
  dsimp only
  rw [rd_refuse, rd_refuse, rd_refuse, chState, fld_refuse, hcfg, hring, hspill, hword (.inr (by simp only [chCfg, Reg.tniChCfg, Blk.base]; omega)),
    hword (.inr (by simp only [Reg.tniChRing, Blk.base]; omega)), hword (.inr (by simp only [Reg.tniChSpill, Blk.base]; omega))]
  exact ⟨chState_channelOpened hgwf, rfl, rfl, rfl⟩

/-- What a CHANNEL_CLOSE without a partial round leaves. -/
theorem channelClosed_spec {s : State} {fn : Nat} (hfn : fn < 64) (hwf : s.wf = true) {t c : Nat} (hst : chState s t c = 1 ∨ chState s t c = 2)
    (hacc : (chan s t c).acc.count = 0) : let u := refuse (chClose (pastGate s fn 8) t c) .f fn .none []
    chState u t c = 2 ∧ u.dyn = s.dyn := by
  have hstate := chState_same (pastGate_sameSettings s hfn 8) t c
  have hchan : chan (pastGate s fn 8) t c = chan s t c := chan_of_eq ((pastGate_keeps s fn 8).only .chan (by decide)) t c
  obtain ⟨hclosed, hdyn⟩ := chState_chClose ((pastGate_keeps s fn 8).wf hwf) (by rw [hstate]; exact hst) (by rw [hchan]; exact hacc)
  dsimp only
  rw [chState, fld_refuse, refuse_dyn, hdyn]
  exact ⟨hclosed, (pastGate_keeps s fn 8).only .dyn (by decide)⟩

/-- What a CHANNEL_RESET leaves. -/
theorem channelReset_spec {s : State} {fn : Nat} (hfn : fn < 64) (hwf : s.wf = true) {t c : Nat} (hc : c < 4096) (hst : chState s t c ≠ 0) :
    let u := refuse (chReset (pastGate s fn 8) t c true) .f fn .none []
    chState u t c = 2 ∧ chRcnt u t c = 0 ∧ fld u (chStat t c) TniChStat.SPCNT = 0 ∧
      ∃ b, u.chan.runs = eSet {} (4096 * t + c) { stale := b, resetAt := some s.clk.now } s.chan.runs := by
  have hlive : chState (pastGate s fn 8) t c ≠ 0 := by rw [chState_same (pastGate_sameSettings s hfn 8)]; exact hst
  have hclk : (pastGate s fn 8).clk = s.clk := (pastGate_keeps s fn 8).only .clk (by decide)
  have hchan : (pastGate s fn 8).chan = s.chan := (pastGate_keeps s fn 8).only .chan (by decide)
  have hrd := rd_chReset hlive true ((pastGate_keeps s fn 8).wf hwf) hc
  have hruns := chReset_runs hlive true
  obtain ⟨hstate, hrcnt, hspcnt⟩ := getF_clearedStat (rd (resetTold (pastGate s fn 8) t c) (chStat t c))
  rw [hclk, hchan] at hruns
  dsimp only
  rw [chState, chRcnt, fld_refuse, fld_refuse, fld_refuse, refuse_chan, fld, fld, fld, hrd]
  exact ⟨hstate, hrcnt, hspcnt, _, hruns⟩

section ArbSetOutcome

variable {s : State} (hwf : s.wf = true) (fn : Nat)
include hwf

theorem arbSetDone_weight_spec (hop : asOp s fn < 2) : let r := asReg s fn; let u := refuse (arbSetDone s fn) .f fn .none []
    fld u r ArbShare.WEIGHT = bits (rqW s .f fn 1) 15 0 ∧ fld u r ArbShare.WMIN = fld s r ArbShare.WMIN ∧ fld u r ArbShare.CAP = fld s r ArbShare.CAP ∧
      u.arb.memos = eSet {} r { eGet {} r s.arb.memos with host := bits (rqW s .f fn 1) 15 0, changed := none,
                                                           pinned := (eGet {} r s.arb.memos).pinned || asOp s fn == 1 } s.arb.memos := by
  obtain ⟨hweight, hmin, hcap⟩ := fld_weightSet hwf (asWhich s fn) (asShare s fn) (bits (rqW s .f fn 1) 15 0)
    ((memo s (asWhich s fn) (asShare s fn)).pinned || asOp s fn == 1)
  dsimp only
  rw [fld_refuse, fld_refuse, fld_refuse, refuse_arb, arbSetDone_weight hop]
  exact ⟨hweight.trans (Nat.mod_mod _ _), hmin, hcap, rfl⟩

theorem arbSetDone_bounds_spec (hop : asOp s fn = 3) : let r := asReg s fn; let u := refuse (arbSetDone s fn) .f fn .none []
    fld u r ArbShare.WMIN = bits (rqW s .f fn 1) 47 32 ∧ fld u r ArbShare.WMAX = bits (rqW s .f fn 1) 63 48 ∧
      fld u r ArbShare.CAP = bits (rqW s .f fn 1) 31 16 ∧ fld u r ArbShare.WEIGHT = fld s r ArbShare.WEIGHT := by
  obtain ⟨hmin, hmax, hcap, hweight⟩ := fld_boundsSet hwf (asReg s fn) (bits (rqW s .f fn 1) 47 32) (bits (rqW s .f fn 1) 63 48)
    (bits (rqW s .f fn 1) 31 16)
  dsimp only
  rw [fld_refuse, fld_refuse, fld_refuse, fld_refuse, arbSetDone_bounds hop]
  exact ⟨hmin.trans (Nat.mod_mod _ _), hmax.trans (Nat.mod_mod _ _), hcap.trans (Nat.mod_mod _ _), hweight⟩

end ArbSetOutcome

/-- Settles O38: behind the seal gate each command finds the registers it reads as they were, and its effect is a few register writes. -/
theorem serviceCommandsAct : Obligations.ServiceCommandsAct := by
  refine ⟨?_, ?_, ?_, ?_, ?_⟩
  · intro fn s hfn hwf h hgate hfmt
    refine ⟨fun x ws hchk => refused_outcome (exec_ringCreate_refused h hgate hfmt hchk), fun hchk =>
      ⟨_, exec_ringCreate_done h hgate hfmt hchk, told_refuse (ringCreated_mbx fn s) _ _ _ _, fun hkind => ?_, fun hkind => ?_⟩⟩
    · rw [if_pos hkind]
      exact cqCreated_spec hwf fn
    · rw [if_neg (by rw [hkind]; exact Bool.false_ne_true)]
      exact crCreated_spec hwf fn
  · intro fn s hfn hwf
    refine ⟨fun h hgate h0 h1 h2 hchk => ?_, fun h hbusy => ?_, fun h hidle => ?_⟩
    · have hfmt : ringDestroyFormat fn s = true := by simp [ringDestroyFormat, h0, h1, h2, rsvd]
      cases hkind : rcCq s fn with
      | true =>
        obtain ⟨u, hu, htold⟩ := ringDestroy_cq hwf h hgate hfmt hchk hkind
        exact ⟨u, hu, fun _ => htold, nofun, nofun⟩
      | false =>
        cases hbusy : s.host.cmds.any (fromRing fn (rcRing s fn)) with
        | true =>
          exact ⟨_, exec_ringDestroy_busy h hgate hfmt hchk hkind hbusy, nofun, fun _ => nofun,
            fun _ _ => ⟨crStopped_begun _ fn, crStopped_spec hwf fn⟩⟩
        | false =>
          obtain ⟨u, hu, htold⟩ := ringDestroy_idle hwf h hgate hfmt hchk hkind hbusy
          exact ⟨u, hu, nofun, fun _ _ => htold, fun _ => nofun⟩
    · exact (exec_ringDestroy_later h).trans (congrArg Host.Outcome.next (fwLater_waits h (ringDestroyEnd_busy hbusy)))
    · exact ⟨_, (exec_ringDestroy_later h).trans (congrArg Host.Outcome.next (fwLater_ends h (crDestroyed_mbx s fn) (ringDestroyEnd_idle hidle))),
        told_refuse (crDestroyed_mbx s fn) _ _ _ _, en_crDestroyed hwf _ _⟩
  · intro fn s hfn hwf hfmt
    refine ⟨fun k hk h hgate => ?_, fun hgood hown htwin => ⟨fun h hgate => ?_, fun h hgate => ?_, fun h hgate => ?_⟩⟩
    · obtain ⟨more, act, fault, hexec⟩ := exec_chanCommand (s := s) hk
      rw [hexec]
      exact ⟨fun hbad => refused_outcome (congrArg Host.Outcome.next (chanCommand_disabled h hgate hfmt hbad more act fault)),
        fun hgood hother => refused_outcome (congrArg Host.Outcome.next (chanCommand_conflict h hgate hfmt hgood hother more act fault))⟩
    · refine ⟨fun hst => refused_outcome (exec_channelOpen_dead h hgate hfmt hgood hown htwin hst), fun hst hok =>
        ⟨_, exec_channelOpen_free h hgate hfmt hgood hown htwin hfn hwf hst hok,
          told_refuse ((channelOpened_mbx _ _ _ _).trans (pastGate_mbx s fn 40)) _ _ _ _, channelOpened_spec hfn hwf (coTile_lt s fn) (coChan_lt s fn)⟩,
        fun hst hbad => refused_outcome (exec_channelOpen_unfit h hgate hfmt hgood hown htwin hst hbad), fun hst =>
        ⟨_, exec_channelOpen_closed h hgate hfmt hgood hown htwin hfn hst,
          told_refuse ((setChState_mbx _ _ _ _).trans (pastGate_mbx s fn 40)) _ _ _ _, ?_⟩⟩
      rw [chState, fld_refuse]
      exact chState_setChState ((pastGate_keeps s fn 40).wf hwf) _ _ 1
    · exact ⟨fun hst => refused_outcome (exec_channelClose_refused h hgate hfmt hgood hown htwin hst),
        fun hst => ⟨_, exec_channelClose_done h hgate hfmt hgood hown htwin hst,
          told_refuse ((chClose_mbx _ _ _).trans (pastGate_mbx s fn 8)) _ _ _ _, channelClosed_spec hfn hwf hst⟩⟩
    · exact ⟨fun hst => refused_outcome (exec_channelReset_refused h hgate hfmt hgood hown htwin hst),
        fun hst => ⟨_, exec_channelReset_done h hgate hfmt hgood hown htwin hst,
          told_refuse ((chReset_mbx _ _ _).trans (pastGate_mbx s fn 8)) _ _ _ _, channelReset_spec hfn hwf (coChan_lt s fn) hst⟩⟩
  · intro s hwf h hfmt
    refine ⟨fun hoff => refused_outcome (exec_arbSet_refused h hfmt hoff), fun hon => ⟨_, exec_arbSet_done h hfmt hon,
      (arbSetDone_regsOutside s 0).trans (regsOutside_of_regs_eq (refuse_regs ..)), told_refuse (arbSetDone_mbx s 0) _ _ _ _,
      arbSetDone_weight_spec hwf 0, fun hop => ?_, arbSetDone_bounds_spec hwf 0⟩⟩
    rw [refuse_regs, refuse_arb, arbSetDone_unpin hop]
    exact ⟨rfl, rfl⟩
  · intro fn s hfn h hgate hfmt
    refine ⟨fun hmay => refused_outcome (exec_counterRead_privilege h hgate hfmt hmay),
      fun hmay hoff => refused_outcome (exec_counterRead_disabled h hgate hfmt hmay hoff), fun hmay hon =>
      ⟨_, exec_counterRead_answered h hgate hfmt hmay hfn hon, ?_, ?_⟩⟩
    · exact (pastGate_regsOutside s fn 8).trans (regsOutside_of_regs_eq (refuse_regs ..))
    · exact told_refuse (pastGate_mbx s fn 8) _ _ _ (crAnswer s fn)

end Sys2Proof.Machine

namespace Sys2Proof.Machine

/-! ### Doorbells (R363-R365, R372) -/

section Count

variable {s : State} {fn ctr n : Nat} {ex : Ep}

/-- The CTR_ADD that tells an executor of an advance (R363). -/
def advanceAdd (s : State) (fn : Nat) (ex : Ep) (ctr n : Nat) : Pkt :=
  { opc := .ctrAdd, src := hpEp (myChip s), dst := ex, tenant := fn, prio := 2, nbytes := 5, layer := 0xFFFF, opid := 0xFFFF, addr := ctr,
    data := toLE 4 n ++ [0] }

/-- The HP tells itself nothing. -/
theorem hpCount_own : hpCount s fn (hpEp (myChip s)) ctr n = s := if_pos (.inl rfl)

theorem hpCount_waits (hex : ex ≠ hpEp (myChip s)) (hn : n ≠ 0) (h : s.dyn.waiting.any (sameAdd (advanceAdd s fn ex ctr n)) = false) :
    hpCount s fn ex ctr n = enqueue s (advanceAdd s fn ex ctr n) .none :=
  (if_neg (not_or.2 ⟨hex, hn⟩)).trans (if_neg (ne_true_of_eq_false h))

/-- An advance merges into the first CTR_ADD that waits for the same counter. -/
theorem hpCount_merges (hex : ex ≠ hpEp (myChip s)) (hn : n ≠ 0) {before after : List Req} {w : Req} (hw : s.dyn.waiting = before ++ w :: after)
    (hbefore : before.any (sameAdd (advanceAdd s fn ex ctr n)) = false) (hsame : sameAdd (advanceAdd s fn ex ctr n) w = true) :
    (hpCount s fn ex ctr n).dyn.waiting =
      before ++ { w with pkt := { w.pkt with data := toLE 4 (ofLE (slice w.pkt.data 0 4) + n) ++ [0] } } :: after := by
  have hany : s.dyn.waiting.any (sameAdd (advanceAdd s fn ex ctr n)) = true :=
    List.any_eq_true.2 ⟨w, by simp [hw], hsame⟩
  have hmerge := updFirst_append_cons (fun r : Req => { r with pkt := { r.pkt with data := toLE 4 (ofLE (slice r.pkt.data 0 4) + n) ++ [0] } }) after
    (fun x hx => Bool.eq_false_iff.2 (List.any_eq_false.1 hbefore x hx)) hsame
  rw [← hw] at hmerge
  rw [← hmerge]
  exact congrArg (fun t : State => t.dyn.waiting) ((if_neg (not_or.2 ⟨hex, hn⟩)).trans (if_pos hany))

/-- What an advance does to the dynamic network rests on nothing but the network and the package's number. -/
theorem hpCount_dyn_of_same {t : State} (hdyn : t.dyn = s.dyn) (hchip : myChip t = myChip s) :
    (hpCount t fn ex ctr n).dyn = (hpCount s fn ex ctr n).dyn := by
  rw [hpCount, hpCount, hchip, hdyn]
  split
  · exact hdyn
  · dsimp only
    split
    · rfl
    · rw [enqueue, hdyn, enqueue]

end Count

section CrDoorbell

variable (s : State) (fn r v : Nat)

/-- TAIL as a doorbell sets it, and its advance (R364). -/
def doorbellTail : Nat := bits v 15 0 % ringSize s fn r
def doorbellAdvance : Nat :=
  (doorbellTail s fn r v + ringSize s fn r - fld s (Reg.hpCrStat fn r) HpCrStat.TAIL % ringSize s fn r) % ringSize s fn r

/-- TAIL moved; a stalled ring runs again. -/
def tailMoved : State :=
  let t := setFld s (Reg.hpCrStat fn r) HpCrStat.TAIL (doorbellTail s fn r v)
  if fld t (Reg.hpCrStat fn r) HpCrStat.STATE = 2 then setFld t (Reg.hpCrStat fn r) HpCrStat.STATE 1 else t

/-- A ring whose doorbell has been rung, before its executor is told. -/
def doorbellRung : State :=
  setRing (tailMoved s fn r v) fn r
    { ring s fn r with published := ((ring s fn r).published + doorbellAdvance s fn r v) % 2 ^ 32, stale := false }

theorem tailMoved_regsOutside : RegsOutside [Reg.hpCrStat fn r] s (tailMoved s fn r v) := by
  have htail := setFld_regsOutside (r := [Reg.hpCrStat fn r]) s HpCrStat.TAIL (doorbellTail s fn r v) (List.mem_singleton.2 rfl)
  rw [tailMoved]
  split
  · exact htail.trans (setFld_regsOutside _ _ _ (List.mem_singleton.2 rfl))
  · exact htail

theorem tailMoved_keeps : Keeps [.regs] s (tailMoved s fn r v) :=
  .ite (setFld_keeps (by decide) (setFld_keeps (by decide) (.refl _ _))) (setFld_keeps (by decide) (.refl _ _))

/-- The other registers read as before: the ring's configuration and its binding, and the package's number. -/
theorem doorbellRung_settings : ringEx (doorbellRung s fn r v) fn r = ringEx s fn r ∧ myChip (doorbellRung s fn r v) = myChip s ∧
    fld (doorbellRung s fn r v) (Reg.hpCrCfgb fn r) HpCrCfgb.DBCTR = fld s (Reg.hpCrCfgb fn r) HpCrCfgb.DBCTR := by
  have hout (a : Nat) (f : Fld) (ha : a ∉ [Reg.hpCrStat fn r]) : fld (doorbellRung s fn r v) a f = fld s a f :=
    congrArg (getF · f) (tailMoved_regsOutside s fn r v a ha)
  have hcfg : Reg.hpCrCfg fn r ∉ [Reg.hpCrStat fn r] := by simp only [List.mem_singleton, Reg.hpCrCfg, Reg.hpCrStat]; omega
  have hcfgb : Reg.hpCrCfgb fn r ∉ [Reg.hpCrStat fn r] := by simp only [List.mem_singleton, Reg.hpCrCfgb, Reg.hpCrStat]; omega
  have hinfo : Reg.fabPkgInfo ∉ [Reg.hpCrStat fn r] := by
    have : Reg.fabPkgInfo < 0x240000 := by decide
    simp only [List.mem_singleton, Reg.hpCrStat]; omega
  have hchip : myChip (doorbellRung s fn r v) = myChip s := hout _ _ hinfo
  refine ⟨?_, hchip, hout _ _ hcfgb⟩
  rw [ringEx, hout _ _ hcfg, hout _ _ hcfg, hchip, ringEx]

variable {s fn r}

theorem exec_crDoorbell_off (h : ringOn s fn r = false) : exec (.crDoorbell fn r v) s = .next s :=
  congrArg Host.Outcome.next (if_pos (by rw [h]; rfl))

theorem exec_crDoorbell_on (h : ringOn s fn r = true) : exec (.crDoorbell fn r v) s =
    .next (hpCount (doorbellRung s fn r v) fn (ringEx s fn r) (fld s (Reg.hpCrCfgb fn r) HpCrCfgb.DBCTR) (doorbellAdvance s fn r v)) := by
  obtain ⟨hex, -, hctr⟩ := doorbellRung_settings s fn r v
  have hring : ring (tailMoved s fn r v) fn r = ring s fn r := by rw [ring, (tailMoved_keeps s fn r v).only .host (by decide), ring]
  rw [← hex, ← hctr, doorbellRung, ← hring]
  exact congrArg Host.Outcome.next (if_neg (by rw [h]; decide))

theorem fld_tailMoved (hwf : s.wf = true) (hsize : ringSize s fn r ≤ 65536) (hpos : 0 < ringSize s fn r) :
    fld (tailMoved s fn r v) (Reg.hpCrStat fn r) HpCrStat.TAIL = doorbellTail s fn r v ∧
    fld (tailMoved s fn r v) (Reg.hpCrStat fn r) HpCrStat.STATE =
      if fld s (Reg.hpCrStat fn r) HpCrStat.STATE = 2 then 1 else fld s (Reg.hpCrStat fn r) HpCrStat.STATE := by
  have hlt : doorbellTail s fn r v < 2 ^ fldWidth HpCrStat.TAIL := (Nat.mod_lt _ hpos).trans_le hsize
  have htail := fld_setFld_same s (Reg.hpCrStat fn r) (f := HpCrStat.TAIL) (doorbellTail s fn r v) hwf (by decide) (by decide)
  have hstate := fld_setFld_apart hwf (Reg.hpCrStat fn r) (f := HpCrStat.TAIL) (g := HpCrStat.STATE) (doorbellTail s fn r v) (by decide) (by decide)
    (by decide)
  rw [Nat.mod_eq_of_lt hlt] at htail
  rw [tailMoved, hstate]
  split
  · exact ⟨by rw [fld_setFld_apart (setFld_wf hwf) _ _ (by decide) (by decide) (by decide), htail],
      fld_setFld_same _ _ _ (setFld_wf hwf) (by decide) (by decide)⟩
  · exact ⟨htail, hstate⟩

/-- What a doorbell of a running ring leaves (R363-R365, R372). -/
theorem doorbell_spec (hwf : s.wf = true) (hsize : ringSize s fn r ≤ 65536) (hpos : 0 < ringSize s fn r) :
    let x := Reg.hpCrStat fn r
    let p := advanceAdd s fn (ringEx s fn r) (fld s (Reg.hpCrCfgb fn r) HpCrCfgb.DBCTR) (doorbellAdvance s fn r v)
    let u := hpCount (doorbellRung s fn r v) fn (ringEx s fn r) (fld s (Reg.hpCrCfgb fn r) HpCrCfgb.DBCTR) (doorbellAdvance s fn r v)
    RegsOutside [x] s u ∧ fld u x HpCrStat.TAIL = doorbellTail s fn r v ∧
    fld u x HpCrStat.STATE = (if fld s x HpCrStat.STATE = 2 then 1 else fld s x HpCrStat.STATE) ∧
    u.host.rings = eSet {} (ringKey fn r)
      { ring s fn r with published := ((ring s fn r).published + doorbellAdvance s fn r v) % 2 ^ 32, stale := false } s.host.rings ∧
    (ringEx s fn r = hpEp (myChip s) → u.dyn = s.dyn) ∧
    (ringEx s fn r ≠ hpEp (myChip s) → doorbellAdvance s fn r v ≠ 0 →
      (s.dyn.waiting.any (sameAdd p) = false → ∃ w, u.dyn.waiting = s.dyn.waiting ++ [w] ∧ w.pkt = p) ∧
      ∀ before after w, s.dyn.waiting = before ++ w :: after → before.any (sameAdd p) = false → sameAdd p w = true →
        u.dyn.waiting = before ++
          { w with pkt := { w.pkt with data := toLE 4 (ofLE (slice w.pkt.data 0 4) + doorbellAdvance s fn r v) ++ [0] } } :: after) := by
  intro x p u
  obtain ⟨-, hchip, -⟩ := doorbellRung_settings s fn r v
  obtain ⟨htail, hstate⟩ := fld_tailMoved v hwf hsize hpos
  have hkeeps : Keeps [.dyn] (doorbellRung s fn r v) u := hpCount_keeps (by decide) (.refl _ _)
  have hmoved := (tailMoved_keeps s fn r v).only
  have hregs : u.regs = (tailMoved s fn r v).regs := (hkeeps.only .regs (by decide)).1
  have hdyn : u.dyn = (hpCount s fn (ringEx s fn r) (fld s (Reg.hpCrCfgb fn r) HpCrCfgb.DBCTR) (doorbellAdvance s fn r v)).dyn :=
    hpCount_dyn_of_same (hmoved .dyn (by decide)) hchip
  refine ⟨(tailMoved_regsOutside s fn r v).trans (regsOutside_of_regs_eq hregs), (fld_of_regs_eq hregs _ _).trans htail,
    (fld_of_regs_eq hregs _ _).trans hstate, ?_, fun hown => ?_, fun hother hadv => ⟨fun hnone => ?_, fun before after w hw hbefore hsame => ?_⟩⟩
  · rw [hkeeps.only .host (by decide), doorbellRung, setRing, hmoved .host (by decide)]
  · rw [hdyn, hown, hpCount_own]
  · rw [hdyn, hpCount_waits hother hadv hnone]
    exact ⟨_, rfl, rfl⟩
  · rw [hdyn, hpCount_merges hother hadv hw hbefore hsame]

end CrDoorbell

section CqDoorbell

variable {s : State} {fn q : Nat} (v : Nat)

/-- Does a doorbell of a completion ring act (R364, R365)? -/
def cqServes (s : State) (fn q : Nat) : Bool :=
  decide (fn < 64) && decide (q < 16) && fnState s fn == 1 && s.host.linkUp && flag s (Reg.hpCqCfg fn q) HpCqCfg.EN

/-- Records that a doorbell releases (R364). -/
def cqReleases (s : State) (fn q v : Nat) : Nat :=
  (bits v 15 0 % cqSize s fn q + cqSize s fn q - (cq s fn q).head % cqSize s fn q) % cqSize s fn q

/-- A completion ring whose doorbell has been rung, before its executor is told. -/
def cqRung (s : State) (fn q v : Nat) : State :=
  setCq s fn q { cq s fn q with head := bits v 15 0 % cqSize s fn q, released := ((cq s fn q).released + cqReleases s fn q v) % 2 ^ 32,
                                armed := (cq s fn q).armed || bit v 31 }

/-- The executor of the command ring that a completion ring serves is told of released records (R363). -/
def cqTold (s : State) (fn q n : Nat) : State :=
  match ringOfCq s fn q with
  | some r => hpCount s fn (ringEx s fn r) (fld s (Reg.hpCrCfgb fn r) HpCrCfgb.CQCTR) n
  | none => s

theorem cqTold_keeps (n : Nat) : Keeps [.dyn] s (cqTold s fn q n) := by
  rw [cqTold]
  split
  · exact hpCount_keeps (by decide) (.refl _ s)
  · exact .refl _ s

theorem cqServes_eq_false_iff : cqServes s fn q = false ↔
    64 ≤ fn ∨ 16 ≤ q ∨ fnState s fn ≠ 1 ∨ (! s.host.linkUp) = true ∨ (! flag s (Reg.hpCqCfg fn q) HpCqCfg.EN) = true := by
  simp only [cqServes, Bool.and_eq_false_iff, decide_eq_false_iff_not, Nat.not_lt, beq_eq_false_iff_ne, Bool.not_eq_true', or_assoc]

theorem exec_cqDoorbell_off (h : cqServes s fn q = false) : exec (.cqDoorbell fn q v) s = .next s :=
  congrArg Host.Outcome.next (if_pos (cqServes_eq_false_iff.1 h))

theorem exec_cqDoorbell_on (h : cqServes s fn q = true) :
    exec (.cqDoorbell fn q v) s = .next (cqTold (cqRung s fn q v) fn q (cqReleases s fn q v)) :=
  congrArg Host.Outcome.next (if_neg fun hoff => Bool.false_ne_true ((cqServes_eq_false_iff.2 hoff).symm.trans h))

end CqDoorbell

/-! ### Descriptor fetches (R371, R372, R377) -/

section Fetch

variable {s : State} {fn r : Nat}

/-- A fetch's reads passed to the host in a cycle. -/
def fetching (s : State) (fn r g : Nat) : State :=
  { s with clk := { s.clk with now := g }, host := { s.host with out := s.host.out ++ fetchReads s fn r } }

/-- The cycle of a ring's next fetch: REREAD after the last failing data, or now. -/
def fetchAt (s : State) (fn r : Nat) : Nat :=
  if (ring s fn r).t0.isSome then max s.clk.now ((ring s fn r).lastData + rereadCycles s) else s.clk.now

theorem exec_descriptorFetch (hmay : mayFetch s fn r = true) (ht0 : (ring s fn r).t0 = none) (d : HostData) :
    exec (.descriptorFetch fn r d) s = .next (judgeFetch (fetching s fn r s.clk.now) fn r d) :=
  congrArg Host.Outcome.next (if_pos (by rw [hmay, ht0]; rfl))

theorem exec_descriptorReread (hmay : mayFetch s fn r = true) (hq : quiet s = true) (ht0 : (ring s fn r).t0.isSome = true) (d : HostData) :
    exec (.descriptorReread fn r d) s =
      .next (judgeFetch (fetching s fn r (max s.clk.now ((ring s fn r).lastData + rereadCycles s))) fn r d) := by
  refine congrArg Host.Outcome.next ((if_pos (by rw [hmay, ht0]; rfl)).trans ?_)
  rw [advanceTo_quiet _ hq]
  rfl

/-- A ring's next fetch: a re-read while its stale window is open, and otherwise the first. -/
def nextFetch (s : State) (fn r : Nat) (bs : List Byte) : Host.Outcome State Fault Refusal :=
  if (ring s fn r).t0.isSome then exec (.descriptorReread fn r (.ok bs)) s else exec (.descriptorFetch fn r (.ok bs)) s

theorem nextFetch_eq (hmay : mayFetch s fn r = true) (hq : quiet s = true) (bs : List Byte) :
    nextFetch s fn r bs = .next (judgeFetch (fetching s fn r (fetchAt s fn r)) fn r (.ok bs)) := by
  rw [nextFetch, fetchAt]
  split
  next h => exact exec_descriptorReread hmay hq h _
  next h => exact exec_descriptorFetch hmay (Option.not_isSome_iff_eq_none.1 h) _

section Judged

variable (hinj : injArmed s .hp .host (fun _ => true) = false) {bs : List Byte}
include hinj

theorem judgeFetch_taken (hvalid : descValid (ring s fn r).phase (descOf bs).1 (descOf bs).2 = true)
    (hslots : descSlots (descOf bs).1 ≤ toFetch s fn r) :
    judgeFetch s fn r (.ok bs) = takeDesc s fn r (descOf bs).1 (descOf bs).2 false := by
  simp [judgeFetch, hinj, hvalid, Nat.not_lt.2 hslots]

/-- A valid descriptor whose inline slots are not published yet waits for them. -/
theorem judgeFetch_waits (hvalid : descValid (ring s fn r).phase (descOf bs).1 (descOf bs).2 = true)
    (hslots : toFetch s fn r < descSlots (descOf bs).1) :
    judgeFetch s fn r (.ok bs) = setRing s fn r { ring s fn r with t0 := none, need := descSlots (descOf bs).1 } := by
  simp [judgeFetch, hinj, hvalid, hslots]

theorem judgeFetch_again (hbad : descValid (ring s fn r).phase (descOf bs).1 (descOf bs).2 = false)
    (hopen : s.clk.now + rereadCycles s < (ring s fn r).t0.getD s.clk.now + staleCycles s) :
    judgeFetch s fn r (.ok bs) = setRing s fn r { ring s fn r with t0 := some ((ring s fn r).t0.getD s.clk.now), lastData := s.clk.now } := by
  simp [judgeFetch, hinj, hbad, hopen]

theorem judgeFetch_stale (hbad : descValid (ring s fn r).phase (descOf bs).1 (descOf bs).2 = false)
    (hover : (ring s fn r).t0.getD s.clk.now + staleCycles s ≤ s.clk.now + rereadCycles s) :
    judgeFetch s fn r (.ok bs) = ringFail s fn r .ringStale := by
  simp [judgeFetch, hinj, hbad, Nat.not_lt.2 hover]

theorem judgeFetch_unsupported : judgeFetch s fn r .unsupported = ringFail s fn r .regionFault := by
  simp [judgeFetch, hinj]

end Judged

/-! ### A ring that stalls (R366, R372) -/

theorem writeRecord_rings (c : Cmd) (irq : Bool) : (writeRecord s fn r c irq).host.rings = s.host.rings := by
  unfold writeRecord
  split
  · rfl
  · dsimp only
    split
    · exact signal_rings _ _ _
    · rfl

/-- The registers of a ring that fails. -/
def ringFailed (s : State) (fn r : Nat) (st : Status) : State :=
  let x := Reg.hpCrStat fn r
  setFld (if fld s x HpCrStat.STATE = 3 then s else setFld s x HpCrStat.STATE 2) x HpCrStat.STATUS st.code

theorem fld_ringFailed (hwf : s.wf = true) (st : Status) :
    fld (ringFailed s fn r st) (Reg.hpCrStat fn r) HpCrStat.STATE = (if fld s (Reg.hpCrStat fn r) HpCrStat.STATE = 3 then 3 else 2) ∧
    fld (ringFailed s fn r st) (Reg.hpCrStat fn r) HpCrStat.STATUS = st.code := by
  have hcode : st.code < 2 ^ fldWidth HpCrStat.STATUS := by cases st <;> decide
  have hwf' : (if fld s (Reg.hpCrStat fn r) HpCrStat.STATE = 3 then s else setFld s (Reg.hpCrStat fn r) HpCrStat.STATE 2).wf = true := by
    split
    · exact hwf
    · exact setFld_wf hwf
  refine ⟨?_, (fld_setFld_same _ _ _ hwf' (by decide) (by decide)).trans (Nat.mod_eq_of_lt hcode)⟩
  refine (fld_setFld_apart hwf' _ _ (by decide) (by decide) (by decide)).trans ?_
  split
  next h => exact h
  next => exact fld_setFld_same _ _ _ hwf (by decide) (by decide)

theorem ringFail_regs (st : Status) : (ringFail s fn r st).regs = (ringFailed s fn r st).regs :=
  ((writeRecord_keeps (by decide) (setRing_keeps (by decide) (.refl [.host] (ringFailed s fn r st)))).only .regs (by decide)).1

theorem ringFail_now (st : Status) : (ringFail s fn r st).clk.now = s.clk.now := by
  rw [(ringFail_keeps (by decide) (by decide) (.refl [.host, .regs] s)).only .clk (by decide)]

theorem ring_ringFail_stale (st : Status) : (ring (ringFail s fn r st) fn r).stale = true := by
  rw [ring, ringFail, writeRecord_rings]
  exact congrArg RingRun.stale (eGet_eSet_listed (fun h => Bool.false_ne_true (congrArg RingRun.stale h).symm) _ _)

/-- A failing ring stalls, unless it is dead, with the failure's status. -/
theorem ringFail_spec (hwf : s.wf = true) (st : Status) :
    fld (ringFail s fn r st) (Reg.hpCrStat fn r) HpCrStat.STATE = (if fld s (Reg.hpCrStat fn r) HpCrStat.STATE = 3 then 3 else 2) ∧
    fld (ringFail s fn r st) (Reg.hpCrStat fn r) HpCrStat.STATUS = st.code ∧ (ring (ringFail s fn r st) fn r).stale = true := by
  rw [fld_of_regs_eq (ringFail_regs st), fld_of_regs_eq (ringFail_regs st)]
  exact ⟨(fld_ringFailed hwf st).1, (fld_ringFailed hwf st).2, ring_ringFail_stale st⟩

section Outcome

variable (hmay : mayFetch s fn r = true) (hq : quiet s = true) (hinj : injArmed s .hp .host (fun _ => true) = false) {bs : List Byte}
include hmay hq hinj

theorem nextFetch_taken (hvalid : descValid (ring s fn r).phase (descOf bs).1 (descOf bs).2 = true)
    (hslots : descSlots (descOf bs).1 ≤ toFetch s fn r) :
    nextFetch s fn r bs = .next (takeDesc (fetching s fn r (fetchAt s fn r)) fn r (descOf bs).1 (descOf bs).2 false) := by
  rw [nextFetch_eq hmay hq, judgeFetch_taken (s := fetching s fn r (fetchAt s fn r)) hinj hvalid hslots]

theorem nextFetch_waits (hvalid : descValid (ring s fn r).phase (descOf bs).1 (descOf bs).2 = true)
    (hslots : toFetch s fn r < descSlots (descOf bs).1) :
    nextFetch s fn r bs =
      .next (setRing (fetching s fn r (fetchAt s fn r)) fn r { ring s fn r with t0 := none, need := descSlots (descOf bs).1 }) := by
  rw [nextFetch_eq hmay hq, judgeFetch_waits (s := fetching s fn r (fetchAt s fn r)) hinj hvalid hslots]
  rfl

theorem nextFetch_again (hbad : descValid (ring s fn r).phase (descOf bs).1 (descOf bs).2 = false)
    (hopen : fetchAt s fn r + rereadCycles s < (ring s fn r).t0.getD (fetchAt s fn r) + staleCycles s) :
    nextFetch s fn r bs = .next (setRing (fetching s fn r (fetchAt s fn r)) fn r
      { ring s fn r with t0 := some ((ring s fn r).t0.getD (fetchAt s fn r)), lastData := fetchAt s fn r }) := by
  rw [nextFetch_eq hmay hq, judgeFetch_again (s := fetching s fn r (fetchAt s fn r)) hinj hbad hopen]
  rfl

theorem nextFetch_stale (hbad : descValid (ring s fn r).phase (descOf bs).1 (descOf bs).2 = false)
    (hover : (ring s fn r).t0.getD (fetchAt s fn r) + staleCycles s ≤ fetchAt s fn r + rereadCycles s) :
    nextFetch s fn r bs = .next (ringFail (fetching s fn r (fetchAt s fn r)) fn r .ringStale) := by
  rw [nextFetch_eq hmay hq, judgeFetch_stale (s := fetching s fn r (fetchAt s fn r)) hinj hbad hover]

end Outcome

end Fetch

/-! ### Stray accesses (R354) -/

theorem exec_strayAccess {s : State} {fn off : Nat} (hfn : fn < 64) (hreg : barReg fn off = .stray) (hlink : s.host.linkUp = true)
    (hopen : portOpen s = true) (w : Bool) : exec (.strayAccess fn off w) s =
      .next (log (bump s (Reg.hpFnStat fn) HpFnStat.STRAY 1) { errOf (unitCode .hp 0) .host 2 with tenant := fn }) :=
  congrArg Host.Outcome.next ((if_pos ⟨hreg, hlink⟩).trans (if_neg (by simp [hopen]; omega)))

/-- Settles O33: a doorbell by what it leaves and tells the executor, a fetch by the case in which its data are judged. -/
theorem ringsPublishAndFetch : Obligations.RingsPublishAndFetch := by
  refine ⟨fun fn r v s => ⟨exec_crDoorbell_off v, fun hon hwf hsize hpos => ⟨_, exec_crDoorbell_on v hon, doorbell_spec v hwf hsize hpos⟩⟩,
    fun fn q v s => ⟨exec_cqDoorbell_off v, fun hon => ⟨_, exec_cqDoorbell_on v hon, ((cqTold_keeps _).only .regs (by decide)).1, ?_⟩⟩,
    fun fn r bs s hmay hwf hinj hq => ⟨fun hvalid hslots => ⟨_, nextFetch_taken hmay hq hinj hvalid hslots, rfl, ?_, rfl, rfl⟩,
      fun hvalid hslots => ⟨_, nextFetch_waits hmay hq hinj hvalid hslots, rfl, rfl, rfl⟩,
      fun hbad hopen => ⟨_, nextFetch_again hmay hq hinj hbad hopen, rfl, rfl, rfl, rfl⟩,
      fun hbad hover => ⟨_, nextFetch_stale hmay hq hinj hbad hover, ringFail_now _,
        ringFail_spec (s := fetching s fn r (fetchAt s fn r)) hwf _⟩⟩,
    fun fn r s hmay hwf hinj ht0 => ?_,
    fun fn off w s hfn hreg hlink hopen => exec_strayAccess hfn hreg hlink hopen w⟩
  · rw [(cqTold_keeps _).only .host (by decide)]
    rfl
  · exact fld_setFld_same (fetching s fn r (fetchAt s fn r)) _ _ hwf (by decide) (by decide)
  · obtain ⟨hstate, hstatus, -⟩ := ringFail_spec (s := fetching s fn r s.clk.now) (fn := fn) (r := r) hwf .regionFault
    exact ⟨_, (exec_descriptorFetch hmay ht0 _).trans (congrArg _ (judgeFetch_unsupported (s := fetching s fn r s.clk.now) hinj)), hstate, hstatus⟩

end Sys2Proof.Machine

namespace Sys2Proof.Machine

/-! ### The firmware's watchdog bites (R391, R400) -/

section Ended

variable {s : State} {sv : Server} {r : Reason}

/-- Each server has a slot of its own for each function. -/
theorem slotKey_injective {sv' : Server} {fn f : Nat} (h : slotKey sv' f = slotKey sv fn) : sv' = sv ∧ f = fn := by
  cases sv with
  | f => cases sv' with
    | f => exact ⟨rfl, by simp only [slotKey] at h; omega⟩
    | g => simp only [slotKey] at h; omega
  | g => cases sv' with
    | f => simp only [slotKey] at h; omega
    | g => exact ⟨rfl, by simp only [slotKey] at h; omega⟩

/-- An answer leaves every other slot as it was. -/
theorem mbxSlot_refuse_ne {sv' : Server} {fn f : Nat} (h : slotKey sv' f ≠ slotKey sv fn) (ws : List Nat) :
    mbxSlot (refuse s sv fn r ws) sv' f = mbxSlot s sv' f := by
  rw [mbxSlot, refuse, answer, signal_mbx]
  cases sv <;> exact eGet_eSet_ne _ _ _ h

theorem refuse_fdog (fn : Nat) (ws : List Nat) : (refuse s sv fn r ws).mbx.fdog = s.mbx.fdog := by
  rw [refuse, answer, signal_mbx]
  cases sv <;> rfl

/-- What the host has been told of earlier answers stands. -/
theorem mbxDone_mem_refuse_of_mem {a b : Nat} (h : HostOut.mbxDone a b ∈ s.host.out) (fn : Nat) (ws : List Nat) :
    .mbxDone a b ∈ (refuse s sv fn r ws).host.out :=
  mbxDone_mem_signal (List.mem_append_left _ (by cases sv <;> exact h)) 0

/-- Ending every command empties the queue: each one leaves it as it is answered. -/
theorem mbxQueue_endAll : mbxQueue (endAll s sv r) sv = [] := by
  suffices h : ∀ (l : List Nat) (s : State), mbxQueue s sv = l → mbxQueue (l.foldl (fun s fn => refuse s sv fn r) s) sv = [] from h _ s rfl
  intro l
  induction l with
  | nil => exact fun _ h => h
  | cons fn l ih => exact fun s h => ih _ (by rw [mbxQueue_refuse, h, List.erase_cons_head])

theorem endAll_fdog : (endAll s sv r).mbx.fdog = s.mbx.fdog :=
  List.foldlRecOn (motive := fun u : State => u.mbx.fdog = s.mbx.fdog) _ _ rfl fun _ hu fn _ => (refuse_fdog fn []).trans hu

/-- Ending one server's commands leaves the other server's slots as they were. -/
theorem mbxSlot_endAll_other {sv' : Server} (h : sv' ≠ sv) (f : Nat) : mbxSlot (endAll s sv r) sv' f = mbxSlot s sv' f :=
  List.foldlRecOn (motive := fun u : State => mbxSlot u sv' f = mbxSlot s sv' f) _ _ rfl fun _ hu _ _ =>
    (mbxSlot_refuse_ne (fun hkey => h (slotKey_injective hkey).1) []).trans hu

/-- A command that is ended takes the reason's status, and the host is told of it. -/
theorem endAll_told {f : Nat} (hf : f ∈ mbxQueue s sv) :
    (mbxSlot (endAll s sv r) sv f).status = r.status.code ∧ .mbxDone f (slotKey sv f % 2) ∈ (endAll s sv r).host.out := by
  rw [endAll]
  generalize mbxQueue s sv = l at hf
  induction l using List.reverseRecOn with
  | nil => exact absurd hf List.not_mem_nil
  | append_singleton l fn ih =>
    rw [List.foldl_append, List.foldl_cons, List.foldl_nil]
    by_cases hfn : f = fn
    · subst hfn
      exact ⟨by rw [mbxSlot_refuse]; rfl, mbxDone_mem_refuse ..⟩
    · obtain ⟨hstatus, hout⟩ := ih (by simpa [hfn] using hf)
      exact ⟨by rw [mbxSlot_refuse_ne (fun hkey => hfn (slotKey_injective hkey).2), hstatus], mbxDone_mem_refuse_of_mem hout _ _⟩

end Ended

section Bite

variable {s : State}

theorem logReport_mbx (e : ErrRec) : (logReport s e).mbx = s.mbx := (logReport_only s e).only .mbx (by decide)

/-- A report takes no answer from what the host is told, and neither does the record that is logged with it. -/
theorem mbxDone_mem_report {a b : Nat} (h : HostOut.mbxDone a b ∈ s.host.out) (fn : Nat) (e : ErrRec) : .mbxDone a b ∈ (report s fn e).host.out := by
  rw [report]
  dsimp only
  split
  · exact h
  · exact mbxDone_mem_signal (by exact h) 0

theorem mbxDone_mem_logReport {a b : Nat} (h : HostOut.mbxDone a b ∈ s.host.out) (e : ErrRec) : .mbxDone a b ∈ (logReport s e).host.out := by
  have hhost : (logKept s e).1.host = s.host := (logKept_keeps (by decide) (by decide) (.refl [.log, .rel] s)).only .host (by decide)
  exact mbxDone_mem_report (by rwa [hhost]) _ _

/-- What a bite leaves of the mailbox: the F commands ended, FMPST DOWN and the bite counted. -/
theorem fmpBite_mbx : (fmpBite s).mbx = { (endAll s .f .fmpDown).mbx with
    fmpst := 2, version := 0, fdog := min 255 ((endAll s .f .fmpDown).mbx.fdog + 1) } := logReport_mbx _

theorem mbxSlot_fmpBite (sv : Server) (f : Nat) : mbxSlot (fmpBite s) sv f = mbxSlot (endAll s .f .fmpDown) sv f := by
  rw [mbxSlot, fmpBite_mbx, mbxSlot]

theorem fmpBite_spec : let u := fmpBite s
    u.mbx.fmpst = 2 ∧ u.mbx.fdog = min 255 (s.mbx.fdog + 1) ∧ u.mbx.fq = [] ∧ (∀ f, slotState u .f f = 3) ∧
      (∀ f, mbxSlot u .g f = mbxSlot s .g f) ∧
      ∀ f ∈ s.mbx.fq, (mbxSlot u .f f).status = Reason.fmpDown.status.code ∧ .mbxDone f 0 ∈ u.host.out := by
  have hmbx := fmpBite_mbx (s := s)
  refine ⟨by rw [hmbx], by rw [hmbx, endAll_fdog], by rw [hmbx]; exact mbxQueue_endAll (sv := .f), fun f => ?_, fun f => ?_, fun f hf => ?_⟩
  · rw [slotState, fmpRuns, hmbx]
    rfl
  · rw [mbxSlot_fmpBite, mbxSlot_endAll_other (by decide)]
  · obtain ⟨hstatus, hout⟩ := endAll_told (sv := .f) (r := .fmpDown) hf
    refine ⟨by rw [mbxSlot_fmpBite, hstatus], mbxDone_mem_logReport ?_ _⟩
    rwa [slotKey, Nat.add_zero, Nat.mul_mod_right] at hout

/-- The bite itself, whether an injection or the firmware is its cause. -/
theorem exec_fmpWatchdogBite : ∃ m : State, exec .fmpWatchdogBite s = .next (fmpBite m) ∧ m.mbx = s.mbx := by
  refine ⟨_, rfl, ?_⟩
  split
  · exact (injFire_keeps (by decide) (by decide) (.refl [.regs, .rel] s)).only .mbx (by decide)
  · rfl

end Bite

/-! ### Vectors unmasked (R381) -/

section Unmask

variable {s : State} {fn vec : Nat}

/-- A vector's mask bit cleared. -/
def unmasked (s : State) (fn vec : Nat) : State :=
  { s with host := { s.host with vecCtl := eSet (2 ^ 64 - 1) fn (putBits (eGet (2 ^ 64 - 1) fn s.host.vecCtl) vec vec (b2n false)) s.host.vecCtl } }

/-- The pending message of a vector on its way, and pending no more. -/
def pendingSent (s : State) (fn vec : Nat) : State :=
  { s with host := { s.host with pba := eSet 0 fn (putBits (eGet 0 fn s.host.pba) vec vec (b2n false)) s.host.pba,
                                 out := s.host.out.filter (· != .msix fn vec s.clk.now) ++ [.msix fn vec s.clk.now] } }

theorem vecMasked_unmasked (h : tWf (fun _ => 2 ^ 64 - 1) s.host.vecCtl = true) (v : Nat) :
    vecMasked (unmasked s fn vec) fn v = if v = vec then false else vecMasked s fn v := by
  rw [vecMasked, unmasked, eGet_eSet_same _ _ _ _ h, bit_putBits, vecMasked]

theorem maskVec_of_not_pending (h : bit (eGet 0 fn s.host.pba) vec = false) : maskVec s fn vec false = unmasked s fn vec :=
  if_pos (by simp [h])

theorem maskVec_of_pending (hctl : tWf (fun _ => 2 ^ 64 - 1) s.host.vecCtl = true) (h : bit (eGet 0 fn s.host.pba) vec = true) :
    maskVec s fn vec false = pendingSent (unmasked s fn vec) fn vec := by
  have hclear := vecMasked_unmasked (fn := fn) (vec := vec) hctl vec
  rw [if_pos rfl] at hclear
  refine (if_neg (by simp [h])).trans (if_neg ?_)
  exact Bool.not_eq_true _ ▸ hclear

theorem bit_pendingSent (h : tWf (fun _ => 0) s.host.pba = true) : bit (eGet 0 fn (pendingSent s fn vec).host.pba) vec = false := by
  rw [pendingSent, eGet_eSet_same _ _ _ _ h, bit_putBits, if_pos rfl]

theorem exec_msiXVectorUnmask (hfn : fn < 64) (hvec : vec < 64) (h : vecMasked s fn vec = true) :
    exec (.msiXVectorUnmask fn vec) s = .next (maskVec s fn vec false) :=
  congrArg Host.Outcome.next (if_neg (by simp [h]; omega))

end Unmask

/-- Settles O36: a bite by `fmpBite_spec`, an unmasked vector by whether its message is pending. -/
theorem firmwareBeatsAndReports : Obligations.FirmwareBeatsAndReports := by
  refine ⟨fun s => ⟨fun h => congrArg Host.Outcome.next (if_pos h), fun h => congrArg Host.Outcome.next (if_neg (by simp [h]))⟩, fun s _ => ?_,
    fun fn v s hfn => congrArg Host.Outcome.next (if_neg (by omega)), fun fn vec s hfn hvec hmasked hctl hpba => ?_⟩
  · obtain ⟨m, hm, hmbx⟩ := exec_fmpWatchdogBite (s := s)
    obtain ⟨u, hu, hkeeps⟩ := exec_keeps .fmpWatchdogBite s
    obtain rfl : fmpBite m = u := Host.Outcome.next.inj (hm.symm.trans hu)
    obtain ⟨hst, hdog, hqueue, hdown, hg, htold⟩ := fmpBite_spec (s := m)
    rw [hmbx] at hdog htold
    refine ⟨_, hm, hst, hdog, hqueue, hdown, fun f => ?_, htold, hkeeps.only .mem (by decide), hkeeps.only .dyn (by decide)⟩
    rw [hg, mbxSlot, hmbx, mbxSlot]
  · refine ⟨_, exec_msiXVectorUnmask hfn hvec hmasked, ?_⟩
    have hvecs := vecMasked_unmasked (fn := fn) (vec := vec) hctl
    by_cases hp : bit (eGet 0 fn s.host.pba) vec = true
    · rw [maskVec_of_pending hctl hp]
      exact ⟨(hvecs vec).trans (if_pos rfl), fun v hv => (hvecs v).trans (if_neg hv), bit_pendingSent hpba, fun hnot => by simp [hp] at hnot,
        fun _ => List.getLast?_concat ..⟩
    · rw [Bool.not_eq_true] at hp
      rw [maskVec_of_not_pending hp]
      exact ⟨(hvecs vec).trans (if_pos rfl), fun v hv => (hvecs v).trans (if_neg hv), hp, fun _ => rfl, fun hpend => by simp [hp] at hpend⟩

end Sys2Proof.Machine

namespace Sys2Proof.Machine

/-! ### The host link lost while a pair is DEAD (R385, R426) -/

/-- The host link serves, and pair 16,383 of engine 1, tenant 1's, has consumed poisoned data. -/
def deadPair : State :=
  let s := setFld (setFld State.reset Reg.fabBootStat FabBootStat.STAGE 9) (qpStat 1 16383) RteQpStat.STATE 3
  { s with host := { linkUp := true, seenUp := true }, rte := { qps := [(32767, { tenant := 1 })] } }

theorem deadPair_serves : linkServes deadPair = true ∧ deadPair.wf = true ∧ tWf (fun _ => ({} : MbxSlot)) deadPair.mbx.slots = true := by
  decide +kernel

/-- The loss of the link closes the pair: its CLOSE frames are on their way, and the pair is still DEAD. -/
theorem hostLinkDown_deadPair : let u := after (exec .hostLinkDown deadPair) deadPair
    u.rte.closing.map (fun c => (c.e, c.q, c.reason)) = [(1, 16383, 2)] ∧ qpState u 1 16383 = 3 := by
  decide +kernel

/-- Refutes O45: its first clause has every listed pair FREE or in ERROR once the link is lost. A DEAD pair is closed like the others and stays DEAD: a
pair leaves DEAD only when host software destroys it and creates it again (R426). -/
theorem not_hostLinkAndFunctionsReset : ¬ Obligations.HostLinkAndFunctionsReset := by
  intro h
  obtain ⟨hlost, -⟩ := h
  obtain ⟨hserves, hwf, hslots⟩ := deadPair_serves
  obtain ⟨u, hu, -, -, -, -, -, -, -, hpairs⟩ := (hlost .hostLinkDown deadPair (.inl rfl)).2 hserves hwf hslots
  have hclosed : qpState u 1 16383 = 0 ∨ qpState u 1 16383 = 2 := by
    simpa using hpairs (32767, { tenant := 1 }) (List.mem_singleton.2 rfl) (by decide)
  obtain ⟨-, hdead⟩ := hostLinkDown_deadPair
  rw [hu, after] at hdead
  omega

end Sys2Proof.Machine

namespace Sys2Proof.Machine

/-! ### What a firmware command is refused for before it acts (R396, R397, R401) -/

/-- A command in turn whose payload breaks its format answers FORMAT. -/
theorem mbxCommand_malformed {s : State} {sv : Server} {fn cmd : Nat} (h : slotTurn s sv fn cmd = true) {fmt : State → Bool} (hfmt : fmt s = false)
    (priv : State → Option Reason) (k : State → State) : mbxCommand s sv fn cmd fmt priv k = refuse s sv fn .format [] := by
  obtain ⟨-, hturn, hfirst, -⟩ := slotTurn_facts h
  rw [mbxCommand]
  dsimp only
  rw [hfirst, if_neg (by simp [hturn]), if_pos (by simp [hfmt])]
  dsimp only
  rw [mbxQueue_refuse_of_turn h rfl, List.length_nil, refuseFirst]

theorem begunF_of_takesUp {s : State} {fn cmd : Nat} (h : takesUp s .f fn cmd = true) : begunF s fn = false := by
  simp only [takesUp, Bool.and_eq_true, Bool.not_eq_true'] at h
  exact h.2

/-- Without its trailer, and without the one that could be missing, a gated command's length is wrong. -/
theorem gatedLen_of_other {s : State} {fn n : Nat} (hn : rqPlen s .f fn ≠ n) (hn' : rqPlen s .f fn ≠ n + 32) : gatedLen s fn n = false := by
  simp [gatedLen, hn, hn']

/-- Command number, payload length and instruction of the commands behind the seal gate. -/
def gatedCommands (fn : Nat) (d : HostData) : List (Nat × Nat × Instr) :=
  [(0x120, 24, .ringCreate fn), (0x121, 24, .ringDestroy fn), (0x130, 24, .schedLoad fn d), (0x131, 24, .schedArm fn),
    (0x132, 24, .schedStop fn), (0x140, 24, .groupCreate fn d), (0x141, 24, .groupDestroy fn), (0x150, 40, .channelOpen fn),
    (0x151, 8, .channelClose fn), (0x152, 8, .channelReset fn), (0x170, 8, .counterRead fn), (0x171, 24, .traceConfigure fn d),
    (0x180, 32, .qpCreate fn d), (0x181, 32, .qpDestroy fn), (0x182, 32, .mrRegister fn d), (0x183, 32, .mrDeregister fn)]

/-- Command number, payload length and instruction of the other firmware commands of a fixed length. -/
def plainCommands (fn : Nat) (d : HostData) : List (Nat × Nat × Instr) :=
  [(0x101, 32, .domainConfigure ⟨fn, d⟩), (0x102, 0, .timeMeasure fn), (0x110, 32, .partitionCreate fn d), (0x111, 8, .partitionDestroy fn),
    (0x113, 8, .partitionSeal fn), (0x114, 0, .hostRecover fn), (0x160, 16, .arbSet fn), (0x161, 24, .arbConfigure fn d),
    (0x190, 16, .patternLoad fn d), (0x191, 16, .patternRun fn [])]

section Fresh

variable {s : State} {fn : Nat} {d : HostData} (hfresh : begunF s fn = false) {k : Nat × Nat × Instr}
include hfresh

/-- A command of the gated ones that has not begun runs behind the gate. -/
theorem exec_gatedCommand (hk : k ∈ gatedCommands fn d) :
    ∃ fmt priv chk recs act, exec k.2.2 s = .next (fwGated s fn k.1 k.2.1 fmt priv chk recs act) := by
  simp only [gatedCommands, List.mem_cons, List.not_mem_nil, or_false] at hk
  rcases hk with rfl | rfl | rfl | rfl | rfl | rfl | rfl | rfl | rfl | rfl | rfl | rfl | rfl | rfl | rfl | rfl
  -- RING_DESTROY, QP_DESTROY and MR_DEREGISTER go on in a later step once they have begun.
  · exact ⟨_, _, _, _, _, rfl⟩
  · exact ⟨_, _, _, _, _, congrArg Host.Outcome.next (if_neg (by simp [hfresh]))⟩
  iterate 11 exact ⟨_, _, _, _, _, rfl⟩
  · exact ⟨_, _, _, _, _, congrArg Host.Outcome.next (if_neg (by simp [hfresh]))⟩
  · exact ⟨_, _, _, _, _, rfl⟩
  · exact ⟨_, _, _, _, _, congrArg Host.Outcome.next (if_neg (by simp [hfresh]))⟩

/-- A command of the others runs without the gate, and another length breaks its format. -/
theorem exec_plainCommand (hk : k ∈ plainCommands fn d) : ∃ fmt priv chk act,
    exec k.2.2 s = .next (fwRun s fn k.1 fmt priv chk act) ∧ (rqPlen s .f fn ≠ k.2.1 → fmt s = false) := by
  simp only [plainCommands, List.mem_cons, List.not_mem_nil, or_false] at hk
  rcases hk with rfl | rfl | rfl | rfl | rfl | rfl | rfl | rfl | rfl | rfl
  -- DOMAIN_CONFIGURE, TIME_MEASURE and PARTITION_DESTROY go on in a later step once they have begun.
  · exact ⟨_, _, _, _, congrArg Host.Outcome.next (if_neg (by simp [hfresh])), fun hn => by simp [hn]⟩
  · exact ⟨_, _, _, _, congrArg Host.Outcome.next (if_neg (by simp [hfresh])), fun hn => by simp [hn]⟩
  · exact ⟨_, _, _, _, rfl, fun hn => by simp [hn]⟩
  · exact ⟨_, _, _, _, congrArg Host.Outcome.next (if_neg (by simp [hfresh])), fun hn => by simp [hn]⟩
  iterate 2 exact ⟨_, _, _, _, rfl, fun hn => by simp [hn]⟩
  · exact ⟨_, _, _, _, rfl, fun hn => by simp [arbSetFormat, hn]⟩
  iterate 3 exact ⟨_, _, _, _, rfl, fun hn => by simp [hn]⟩

end Fresh

theorem exec_gatedCommand_malformed {s : State} {fn : Nat} {d : HostData} {k : Nat × Nat × Instr} (hk : k ∈ gatedCommands fn d)
    (h : takesUp s .f fn k.1 = true) (hn : rqPlen s .f fn ≠ k.2.1) (hn' : rqPlen s .f fn ≠ k.2.1 + 32) :
    exec k.2.2 s = .next (refuse s .f fn .format []) := by
  obtain ⟨fmt, priv, chk, recs, act, hexec⟩ := exec_gatedCommand (begunF_of_takesUp h) hk
  rw [hexec, fwGated, fwRun, mbxCommand_malformed (slotTurn_of_takesUp h) (by simp [gatedLen_of_other hn hn'])]

theorem exec_plainCommand_malformed {s : State} {fn : Nat} {d : HostData} {k : Nat × Nat × Instr} (hk : k ∈ plainCommands fn d)
    (h : takesUp s .f fn k.1 = true) (hn : rqPlen s .f fn ≠ k.2.1) : exec k.2.2 s = .next (refuse s .f fn .format []) := by
  obtain ⟨fmt, priv, chk, act, hexec, hfmt⟩ := exec_plainCommand (begunF_of_takesUp h) hk
  rw [hexec, fwRun, mbxCommand_malformed (slotTurn_of_takesUp h) (hfmt hn)]

/-! ### Privilege (R401) -/

section Privilege

variable {s : State} {fn cmd : Nat} {fmt : State → Bool} {chk : State → Option (Reason × List Nat)}

/-- A command that its caller may not issue is refused for that before any check of its own. -/
theorem fwRun_unprivileged (h : takesUp s .f fn cmd = true) (hfmt : fmt s = true) {priv : State → Option Reason} {r : Reason}
    (hpriv : priv s = some r) (act : State → State) : fwRun s fn cmd fmt priv chk act = refuse s .f fn r [] := by
  rw [fwRun, mbxCommand_refused (slotTurn_of_takesUp h) hfmt hpriv]

variable (hfn : fn ≠ 0)
include hfn

theorem onlyZero_other : onlyZero fn s = some .privilege := if_neg hfn

theorem exec_timeMeasure_unprivileged (h : takesUp s .f fn 0x102 = true) (hlen : rqPlen s .f fn = 0) :
    exec (.timeMeasure fn) s = .next (refuse s .f fn .privilege []) :=
  congrArg Host.Outcome.next ((if_neg (by simp [begunF_of_takesUp h])).trans
    (fwRun_unprivileged (fmt := fun s => rqPlen s .f fn == 0) h (by simp [hlen]) (onlyZero_other hfn) _))

theorem exec_hostRecover_unprivileged (h : takesUp s .f fn 0x114 = true) (hlen : rqPlen s .f fn = 0) :
    exec (.hostRecover fn) s = .next (refuse s .f fn .privilege []) :=
  congrArg Host.Outcome.next (fwRun_unprivileged (fmt := fun s => rqPlen s .f fn == 0) h (by simp [hlen]) (onlyZero_other hfn) _)

theorem exec_arbSet_unprivileged (h : takesUp s .f fn 0x160 = true) (hfmt : arbSetFormat fn s = true) :
    exec (.arbSet fn) s = .next (refuse s .f fn .privilege []) :=
  congrArg Host.Outcome.next (fwRun_unprivileged (fmt := arbSetFormat fn) h hfmt (onlyZero_other hfn) _)

end Privilege

theorem exec_partitionSeal_unprivileged {s : State} (h : takesUp s .f 0 0x113 = true) (hlen : rqPlen s .f 0 = 8) :
    exec (.partitionSeal 0) s = .next (refuse s .f 0 .privilege []) :=
  congrArg Host.Outcome.next (fwRun_unprivileged (fmt := fun s => rqPlen s .f 0 == 8) (priv := fun _ => if (0 : Nat) = 0 then some .privilege else none)
    h (by simp [hlen]) (if_pos rfl) _)

/-! ### Authorisation (R547, R548) -/

/-- A refused authorisation is counted in SIGFAIL, and in no other register. -/
theorem sigFail_regsOutside (s : State) (t : Nat) : RegsOutside [Reg.secStat] s (sigFail s t) := fun a ha => by
  rw [sigFail, rd_log]
  exact setFld_regsOutside s _ _ (List.mem_singleton.2 rfl) a ha

theorem sigFail_coll (s : State) (t : Nat) : (sigFail s t).coll = s.coll :=
  (sigFail_keeps (w := [.log, .regs, .rel]) (by decide) (by decide) (by decide) (.refl _ s)).only .coll (by decide)

theorem sigFail_mbx (s : State) (t : Nat) : (sigFail s t).mbx = s.mbx :=
  (sigFail_keeps (w := [.log, .regs, .rel]) (by decide) (by decide) (by decide) (.refl _ s)).only .mbx (by decide)

section Sealed

variable {s : State} {fn cmd n : Nat} {fmt : State → Bool} {chk : State → Option (Reason × List Nat)} {recs : List Byte}
  (h : takesUp s .f fn cmd = true) (hsealed : gatedHere s fn = true)
include hsealed

/-- The gate stays shut before a command whose tag does not hold. -/
theorem throughGate_of_forged (hinj : injArmed s .sec .seal (fun _ => true) = false) (hauth : authOk s fn n recs = false) (k : State → State) :
    throughGate s fn n recs k = refuse (sigFail s fn) .f fn .signature [] := by
  simp [throughGate, hsealed, hinj, hauth]

include h

/-- A sealed tenant's command without its trailer is refused SEALED. -/
theorem fwGated_untrailed (hfmt : fmt s = true) (hlen : rqPlen s .f fn = n) (act : State → State) :
    fwGated s fn cmd n fmt (fun _ => none) chk recs act = refuse s .f fn .sealed [] := by
  rw [fwGated, fwRun, mbxCommand_refused (slotTurn_of_takesUp h) (by simp [gatedLen_of_plen hlen, hfmt])
    (by rw [orElse, gateMissing, if_pos ⟨hsealed, hlen⟩])]

/-- A sealed tenant's command that passes its own checks under a tag that does not hold is refused SIGNATURE. -/
theorem fwGated_forged (hlen : gatedLen s fn n = true) (hother : rqPlen s .f fn ≠ n) (hfmt : fmt s = true) (hchk : chk s = none)
    (hinj : injArmed s .sec .seal (fun _ => true) = false) (hauth : authOk s fn n recs = false) (act : State → State) :
    fwGated s fn cmd n fmt (fun _ => none) chk recs act = refuse (sigFail s fn) .f fn .signature [] := by
  have hrun := throughGate_of_forged hsealed hinj hauth act
  rw [fwGated, fwRun, mbxCommand_carriedOut (slotTurn_of_takesUp h) (by simp [hlen, hfmt])
    (by rw [orElse, gateMissing, if_neg (by simp [hother])])
    (by rw [hchk]; dsimp only; rw [hrun]; exact mbxQueue_refuse_of_turn (slotTurn_of_takesUp h) (sigFail_mbx s fn) _ _), hchk]
  exact hrun

end Sealed

/-- The word behind CSEQ of a 24-byte command's trailer is reserved, and its being zero makes the length right. -/
theorem gatedLen_of_trailer {s : State} {fn : Nat} (hsealed : gatedHere s fn = true) (hlen : rqPlen s .f fn = 56) (hword : rqW s .f fn 4 = 0) :
    gatedLen s fn 24 = true := by
  have hbytes : slice (rqBytes s .f fn) 32 8 = toLE 8 (rqW s .f fn 4) := by rw [rqBytes, hlen]; rfl
  simp [gatedLen, hsealed, hlen, hbytes, hword, ofLE_toLE]

/-- Settles O37: the two lists of commands share one refusal each, and the seal gate answers before it lets a command act. -/
theorem firmwareChecksComeFirst : Obligations.FirmwareChecksComeFirst := by
  refine ⟨fun fn d s => ⟨fun k hk h hn hn' => refused_outcome (exec_gatedCommand_malformed (d := d) hk h hn hn'),
    fun k hk h hn => refused_outcome (exec_plainCommand_malformed (d := d) hk h hn)⟩, fun fn s hfn => ?_,
    fun s h hlen => refused_outcome (exec_partitionSeal_unprivileged h hlen), fun fn s hfn hsealed h h0 h1 hrsvd => ⟨fun hlen => ?_, ?_⟩⟩
  · exact ⟨fun h hlen => refused_outcome (exec_timeMeasure_unprivileged hfn h hlen),
      fun h hlen => refused_outcome (exec_hostRecover_unprivileged hfn h hlen),
      fun h hfmt => refused_outcome (exec_arbSet_unprivileged hfn h hfmt)⟩
  · exact ⟨_, congrArg Host.Outcome.next (fwGated_untrailed (n := 24)
      (fmt := fun s => rqW s .f fn 0 == 0 && rqW s .f fn 1 == 0 && rsvd s .f fn 2 63 12) h hsealed (by simp [h0, h1, rsvd, hrsvd]) hlen _),
      refuse_regs .., refuse_coll .., told_refuse rfl ..⟩
  · intro hlen hword _ hstate htenant hauth hinj
    have hchk : firstOf [(grpState s (gcIdx s fn) == 0, .state), (grpTenant s (gcIdx s fn) != fn, .conflict)] = none := by
      simp [firstOf, hstate, htenant]
    refine ⟨_, congrArg Host.Outcome.next (fwGated_forged (n := 24)
      (fmt := fun s => rqW s .f fn 0 == 0 && rqW s .f fn 1 == 0 && rsvd s .f fn 2 63 12)
      (chk := fun s => firstOf [(grpState s (gcIdx s fn) == 0, .state), (grpTenant s (gcIdx s fn) != fn, .conflict)])
      h hsealed (gatedLen_of_trailer hsealed hlen hword) (by omega) (by simp [h0, h1, rsvd, hrsvd]) hchk hinj hauth _),
      (refuse_coll ..).trans (sigFail_coll s fn), fun a ha => ?_, told_refuse (sigFail_mbx s fn) ..⟩
    rw [rd_of_regs_eq (refuse_regs ..)]
    exact sigFail_regsOutside s fn a ha

end Sys2Proof.Machine

namespace Sys2Proof.Machine

/-! ### PATTERN_LOAD (R420, R628, R629) -/

theorem refuse_rel (s : State) (sv : Server) (fn : Nat) (r : Reason) (ws : List Nat) : (refuse s sv fn r ws).rel = s.rel :=
  (refuse_keeps (by decide) (by decide) (Keeps.refl [.host, .mbx] s)).only .rel (by decide)

/-- The form of a PATTERN_LOAD. -/
def patternLoadFormat (fn : Nat) (s : State) : Bool :=
  rqPlen s .f fn == 16 && rsvd s .f fn 0 63 52 && rsvd s .f fn 1 63 32 && decide (1 ≤ bits (rqW s .f fn 1) 31 0) &&
    decide (bits (rqW s .f fn 1) 31 0 ≤ 16 * 2 ^ 20)

/-- The store with a bundle in its family's place. -/
def bundleStored (s : State) (h : Bundle) : State := { s with rel := { s.rel with bundles := insBundle h (otherBundles s h) } }

/-- Is a stored bundle of the family as new as this one? -/
def notNewer (s : State) (h : Bundle) : Bool := s.rel.bundles.any fun x => x.family == h.family && decide (h.series ≤ x.series)

theorem notNewer_iff (s : State) (h : Bundle) : notNewer s h = true ↔ ∃ x ∈ s.rel.bundles, x.family = h.family ∧ h.series ≤ x.series := by
  simp [notNewer, List.any_eq_true]

section PatternLoad

variable {s : State} {d : HostData} (h : takesUp s .f 0 0x190 = true) (hfmt : patternLoadFormat 0 s = true)
include h hfmt

theorem exec_patternLoad_refused {r : Reason} (hchk : patternCheck d 0 s = some (r, [])) : exec (.patternLoad 0 d) s = .next (refuse s .f 0 r []) :=
  congrArg Host.Outcome.next (fwRun_refused (fmt := patternLoadFormat 0) (priv := onlyZero 0) (chk := patternCheck d 0) h hfmt rfl hchk _)

theorem exec_patternLoad_stored (hchk : patternCheck d 0 s = none) :
    exec (.patternLoad 0 d) s = .next (refuse (bundleStored s (bundleOf (plBundle s 0 d))) .f 0 .none []) :=
  congrArg Host.Outcome.next (fwRun_acts (fmt := patternLoadFormat 0) (priv := onlyZero 0) (chk := patternCheck d 0)
    (m := bundleStored s (bundleOf (plBundle s 0 d))) h hfmt rfl hchk rfl rfl)

/-- A refused load leaves the store and says why. -/
theorem patternLoad_refused_outcome {r : Reason} (hchk : patternCheck d 0 s = some (r, [])) :
    ∃ u, exec (.patternLoad 0 d) s = .next u ∧ u.regs = s.regs ∧ Told s u .f 0 r [] ∧ u.rel = s.rel :=
  ⟨_, exec_patternLoad_refused h hfmt hchk, refuse_regs .., told_refuse rfl .., refuse_rel ..⟩

end PatternLoad

/-! ### PATTERN_RUN (R420, R620, R630) -/

/-- The record an event writes stands in the history under the unit and the lane of the event. -/
theorem mem_histEvent (s : State) (unit lane : Nat) {f : HistRec → HistRec} {st : Nat} (hf : ∀ h, f h = { h with st := st }) :
    ∃ h ∈ (histEvent s unit lane f).rel.hist, h.unit = unit ∧ h.lane = lane ∧ h.st = st := by
  refine ⟨_, List.mem_append_right _ (List.mem_singleton.2 rfl), ?_⟩
  rw [hf]
  cases hfind : s.rel.hist.find? fun h => h.unit == unit && h.lane == lane with
  | none => exact ⟨rfl, rfl, rfl⟩
  | some old =>
    have hold := List.find?_some hfind
    simp only [Bool.and_eq_true, beq_iff_eq] at hold
    exact ⟨hold.1, hold.2, rfl⟩

theorem applyRetired_rel (s : State) (unit l : Nat) : (applyRetired s unit l).rel = s.rel :=
  (applyRetired_keeps (w := [.lane, .regs]) (by decide) (by decide) (.refl _ s)).only .rel (by decide)

theorem hasSpare_log (s : State) (e : ErrRec) (f : TestFail) : hasSpare (log s e) f = hasSpare s f := by
  simp only [hasSpare, flag, fld, rd_log]

/-- A failing unit without a spare is excluded in the history. -/
theorem excluded_of_condemn {s : State} {f : TestFail} (hspare : hasSpare s f = false) :
    ∃ h ∈ (condemn s f).rel.hist, h.unit = f.unit ∧ h.lane = 0xFF ∧ h.st = 3 := by
  have hrel : (condemn s f).rel = (histEvent s f.unit 0xFF fun h => { h with st := 3 }).rel := by
    rw [condemn, hspare, if_neg Bool.false_ne_true]
    dsimp only
    split
    · exact applyRetired_rel ..
    · rfl
  rw [hrel]
  exact mem_histEvent s f.unit 0xFF fun _ => rfl

/-- One that fails again is condemned, and so excluded where it has no spare. -/
theorem excluded_of_classify {s : State} {f : TestFail} (hagain : f.again = true) (hspare : hasSpare s f = false) :
    ∃ h ∈ (classify s f).rel.hist, h.unit = f.unit ∧ h.lane = 0xFF ∧ h.st = 3 := by
  rw [classify, if_pos hagain]
  exact excluded_of_condemn ((hasSpare_log ..).trans hspare)

/-- The failures of the units that a run names. -/
def namedFails (s : State) (fn : Nat) (fails : List TestFail) : List TestFail := fails.filter fun f => prNamed s fn f.unit

/-- The failures of a run recorded and classified. -/
def patternsRun (s : State) (fn : Nat) (fails : List TestFail) : State := (namedFails s fn fails).foldl classify s

theorem patternsRun_mbx (s : State) (fn : Nat) (fails : List TestFail) : (patternsRun s fn fails).mbx = s.mbx :=
  (Keeps.foldl (w := [.lane, .log, .regs, .rel]) (.refl _ s) fun _ _ => classify_keeps (by decide) (by decide) (by decide) (by decide)).only .mbx (by decide)

section PatternRun

variable {s : State} {fails : List TestFail} (h : takesUp s .f 0 0x191 = true) (hlen : rqPlen s .f 0 = 16) (hrsvd : bits (rqW s .f 0 1) 63 28 = 0)
include h hlen hrsvd

theorem exec_patternRun_refused (hused : (prUnits s 0).any (prUsed s) = true) : exec (.patternRun 0 fails) s = .next (refuse s .f 0 .state []) :=
  congrArg Host.Outcome.next (fwRun_refused (fmt := fun s => rqPlen s .f 0 == 16 && rsvd s .f 0 1 63 28) (priv := onlyZero 0)
    (chk := fun s => firstOf [((prUnits s 0).any (prUsed s), .state)]) h (by simp [hlen, rsvd, hrsvd]) rfl (by rw [hused]; rfl) _)

theorem exec_patternRun_done (hused : (prUnits s 0).any (prUsed s) = false) :
    exec (.patternRun 0 fails) s =
      .next (refuse (patternsRun s 0 fails) .f 0 .none [((namedFails s 0 fails).map TestFail.unit).dedup.length]) :=
  congrArg Host.Outcome.next (fwRun_acts (fmt := fun s => rqPlen s .f 0 == 16 && rsvd s .f 0 1 63 28) (priv := onlyZero 0)
    (chk := fun s => firstOf [((prUnits s 0).any (prUsed s), .state)]) (m := patternsRun s 0 fails) h (by simp [hlen, rsvd, hrsvd]) rfl
    (by rw [hused]; rfl) (patternsRun_mbx s 0 fails) rfl)

end PatternRun

/-- Settles O44: the checks of PATTERN_LOAD in their order, and the fold of the classification over the failures that PATTERN_RUN names. -/
theorem patternsAreLoadedAndRun : Obligations.PatternsAreLoadedAndRun := by
  refine ⟨fun d s h hlen h0 h1 hlo hhi => ?_, fun fails s h hlen hrsvd => ⟨fun hused => ?_, fun hused => ?_⟩⟩
  · have hfmt : patternLoadFormat 0 s = true := by simp [patternLoadFormat, hlen, rsvd, h0, h1, hlo]; omega
    have hnewer := notNewer_iff s (bundleOf (plBundle s 0 d))
    dsimp only
    by_cases hfetch : fetched d = none
    · simp only [if_pos hfetch]
      exact patternLoad_refused_outcome h hfmt (by simp [patternCheck, firstOf, hfetch])
    have hsome : (fetched d).isNone = false := by simpa [Option.isSome_iff_ne_none] using hfetch
    simp only [if_neg hfetch]
    by_cases hok : bundleOk (plBundle s 0 d) = false
    · simp only [if_pos hok]
      exact patternLoad_refused_outcome h hfmt (by simp [patternCheck, firstOf, hsome, hok])
    simp only [if_neg hok]
    rw [Bool.not_eq_false] at hok
    by_cases hold : notNewer s (bundleOf (plBundle s 0 d)) = true
    · simp only [if_pos (hnewer.1 hold)]
      exact patternLoad_refused_outcome h hfmt (by rw [notNewer] at hold; simp only [patternCheck, firstOf, hsome, hok, hold]; rfl)
    simp only [if_neg (mt hnewer.2 hold)]
    rw [Bool.not_eq_true, notNewer] at hold
    by_cases hroom : bundleRoom s (bundleOf (plBundle s 0 d)) = false
    · simp only [if_pos hroom]
      exact patternLoad_refused_outcome h hfmt (by simp only [patternCheck, firstOf, hsome, hok, hold, hroom]; rfl)
    simp only [if_neg hroom]
    rw [Bool.not_eq_false] at hroom
    exact ⟨_, exec_patternLoad_stored h hfmt (by simp only [patternCheck, firstOf, hsome, hok, hold, hroom]; rfl), refuse_regs ..,
      told_refuse rfl .., congrArg RelState.bundles (refuse_rel ..)⟩
  · exact ⟨_, exec_patternRun_refused h hlen hrsvd hused, refuse_regs .., refuse_rel .., told_refuse rfl ..⟩
  · refine ⟨_, exec_patternRun_done h hlen hrsvd hused, told_refuse (patternsRun_mbx s 0 fails) .., fun hnone => ?_, fun f hmine hagain hspare => ?_⟩
    · rw [refuse_regs, refuse_rel, patternsRun, namedFails, hnone]
      exact ⟨rfl, rfl⟩
    · rw [refuse_rel, patternsRun, namedFails, hmine]
      exact excluded_of_classify hagain hspare

end Sys2Proof.Machine

namespace Sys2Proof.Machine

/-! ### A partition destroyed over a rewrite of firmware's (R412, R602) -/

theorem grpState_unlisted {s : State} {i : Nat} (hi : i < 4096) (h : ∀ e ∈ s.regs, e.1 ≠ Reg.fabGrpA i) : grpState s i = 0 := by
  have hword : rd s (Reg.fabGrpA i) = resetFields fabGrpADef.fields := by
    rw [rd, tGet_absent _ _ _ h, resetWord, regAt_fabGrpA hi]
    exact if_neg (by decide)
  rw [grpState, fld, hword]
  decide

/-- With no group's entry among the registers that differ from reset, a tenant has no group. -/
theorem groupsOfTenant_eq_nil {s : State} (h : ∀ i < 4096, ∀ e ∈ s.regs, e.1 ≠ Reg.fabGrpA i) (t : Nat) : groupsOfTenant s t = [] := by
  refine List.filter_eq_nil_iff.2 fun i hi => ?_
  rw [List.mem_range] at hi
  simp [grpState_unlisted hi (h i hi)]

/-- A partition's rings closed, its function on its way out, and its schedule stopped. -/
def halted (s : State) (t : Nat) : State := schKill (setFnState (ringsOff s t) t 2) t

/-- A partition without tiles, groups, pairs and regions has no more registers to give back when its destruction begins. -/
theorem destroyBegin_regs {s : State} {p : PartRun} {t : Nat} (ht : p.tenant = t) (htiles : p.tiles = 0)
    (hgroups : groupsOfTenant (halted s t) t = []) (hrte : (halted s t).rte = {}) : (destroyBegin s p).regs = (halted s t).regs := by
  have hnone : maskTiles 0 = [] := by decide
  rw [halted] at hgroups hrte
  simp only [destroyBegin, ht, htiles, hnone, hgroups, hrte, List.foldl_nil, List.filter_nil, halted]

theorem endQueued_regs (s : State) (t : Nat) : (endQueued s t).regs = s.regs := by
  rw [endQueued]
  split
  · exact refuse_regs ..
  · rfl

theorem refuseFirst_regs (sv : Server) (n : Nat) (s : State) : (refuseFirst sv n s).regs = s.regs :=
  ((refuseFirst_keeps (w := [.host, .mbx]) (by decide) (by decide) (.refl _ s)).only .regs (by decide)).1

theorem begin_regs (s : State) (sv : Server) (fn : Nat) : (begin_ s sv fn).regs = s.regs :=
  ((begin__keeps (w := [.mbx]) (by decide) (.refl _ s)).only .regs (by decide)).1

/-- A PARTITION_DESTROY that its checks let through leaves the registers its first steps leave. -/
theorem exec_partitionDestroy_regs {s : State} {p : PartRun} (h : takesUp s .f 0 0x111 = true) (hlen : rqPlen s .f 0 = 8)
    (hrsvd : bits (rqW s .f 0 0) 55 0 = 0) (hlo : 1 ≤ partTenant s 0) (hhi : partTenant s 0 ≤ 63) (hpart : partOf s (partTenant s 0) = some p)
    (hdying : p.dying = false) : ∃ u, exec (.partitionDestroy 0) s = .next u ∧ u.regs = (destroyBegin s p).regs := by
  refine ⟨_, congrArg Host.Outcome.next ((if_neg (by simp [begunF_of_takesUp h])).trans (mbxCommand_of_turn (slotTurn_of_takesUp h)
    (fmt := fun s => rqPlen s .f 0 == 8 && rsvd s .f 0 0 55 0 && decide (1 ≤ partTenant s 0) && decide (partTenant s 0 ≤ 63))
    (by simp [hlen, rsvd, hrsvd, hlo, hhi]) _ _)), ?_⟩
  simp only [refuseFirst_regs, ifPrivileged, onlyZero, if_true, hpart, hdying, Bool.false_eq_true, if_false, destroyStart, begin_regs, endQueued_regs]

/-- Tenant 1's partition in the middle of a round, function 0's order to destroy it, and a rewrite of the function's status word by firmware
(STATE 1) that is due before the round ends. -/
def rewriting : State :=
  { setFld {} (Reg.fabSchCtx 1) FabSchCtx.STATE 2 with
    clk := { now := 1 }
    parts := [⟨1, 0, 0, 16, false⟩]
    rel := { restore := [(Reg.hpFnStat 1, 1, 100)] }
    mbx := { slots := [(slotKey .f 0, { state := 1, taken := [(0, 0x111 * 2 ^ 48 + 8), (1, 2 ^ 56)] })], fq := [0], fmpst := 1 } }

theorem rewriting_premises : rewriting.wf = true ∧ takesUp rewriting .f 0 0x111 = true ∧ rqPlen rewriting .f 0 = 8 ∧
    bits (rqW rewriting .f 0 0) 55 0 = 0 ∧ partTenant rewriting 0 = 1 ∧ partOf rewriting 1 = some ⟨1, 0, 0, 16, false⟩ := by
  decide +kernel

/-- The rewrite takes effect on the way to the round's end: it stands behind the function's new STATE. -/
theorem halted_rewriting : (halted rewriting 1).regs = [(Reg.hpFnStat 1, 1)] ∧ (halted rewriting 1).rte = {} := by
  decide +kernel

theorem groupsOfTenant_halted_rewriting : groupsOfTenant (halted rewriting 1) 1 = [] := by
  refine groupsOfTenant_eq_nil (fun i _ e he => ?_) 1
  rw [halted_rewriting.1, List.mem_singleton] at he
  subst he
  simp only [Reg.hpFnStat, Reg.fabGrpA, Blk.base]
  omega

theorem destroyBegin_rewriting : (destroyBegin rewriting ⟨1, 0, 0, 16, false⟩).regs = [(Reg.hpFnStat 1, 1)] := by
  obtain ⟨hleft, hrte⟩ := halted_rewriting
  exact (destroyBegin_regs (t := 1) rfl rfl groupsOfTenant_halted_rewriting hrte).trans hleft

/-- Whatever PARTITION_DESTROY leaves, the function's STATE is the one rewritten. -/
theorem fnState_of_rewritten {u : State} (h : u.regs = [(Reg.hpFnStat 1, 1)]) : fnState u 1 = 1 := by
  rw [fnState, fld, rd, h]
  decide

/-- Refutes O41: the function of a partition that is being destroyed reads as ready again. Stopping its schedule takes the fabric to the end of the
round, and the rewrite that was due before then overwrites the STATE that PARTITION_DESTROY had just set. -/
theorem not_partitionsComeAndGo : ¬ Obligations.PartitionsComeAndGo := by
  intro h
  obtain ⟨-, hdestroy, -⟩ := h
  obtain ⟨hwf, htakes, hlen, hrsvd, htenant, hpart⟩ := rewriting_premises
  have hpart' : partOf rewriting (partTenant rewriting 0) = some ⟨1, 0, 0, 16, false⟩ := by rw [htenant, hpart]
  obtain ⟨u, hu, hregs⟩ := exec_partitionDestroy_regs htakes hlen hrsvd (by rw [htenant]) (by rw [htenant]; decide) hpart' rfl
  obtain ⟨-, hdone⟩ := hdestroy rewriting hwf htakes hlen hrsvd (by rw [htenant]) (by rw [htenant]; decide)
  obtain ⟨u', hu', -, -, hstate, -⟩ := hdone (by rw [hpart']; rfl)
  rw [htenant] at hstate
  obtain rfl : u = u' := Host.Outcome.next.inj (hu.symm.trans hu')
  rw [fnState_of_rewritten (hregs.trans destroyBegin_rewriting)] at hstate
  exact absurd hstate (by decide)

end Sys2Proof.Machine

namespace Sys2Proof.Machine

/-! ### A domain configured over a rewrite of firmware's (R409, R489, R602) -/

/-- A list of one record: NHV set at Ethernet port 0 of engine 0. -/
def nhvList : HostData := .ok (toLE 8 (Reg.rtePortCfg 0 0) ++ toLE 8 (putBits 0 RtePortCfg.NHV.hi RtePortCfg.NHV.lo 1))

/-- A DOMAIN_CONFIGURE of one package with a list of one record. The port it changes is waking up, and firmware's rewrite of FAB_PKG_INFO (GRADE 1) is
due when the port is awake. -/
def regrading : State :=
  { rte := { ports := [(0, { up := true, wakeAt := 5 })] }
    rel := { restore := [(Reg.fabPkgInfo, BitVec.ofNat 64 (2 ^ 40), 5)] }
    mbx := { slots := [(slotKey .f 0, { state := 1, taken := [(0, 0x101 * 2 ^ 48 + 32), (4, 1)] })], fq := [0], fmpst := 1 } }

theorem regrading_request : regrading.wf = true ∧ takesUp regrading .f 0 0x101 = true ∧ rqPlen regrading .f 0 = 32 ∧
    bits (rqW regrading .f 0 0) 63 40 = 0 ∧ bits (rqW regrading .f 0 0) 31 8 = 0 ∧ bits (rqW regrading .f 0 2) 63 52 = 0 ∧
    bits (rqW regrading .f 0 3) 63 32 = 0 ∧ ethCount regrading 0 ≤ 1048576 ∧ dirsOk regrading 0 = true := by
  decide +kernel

theorem regrading_list : ethCheck nhvList 0 regrading = none := by decide +kernel

/-- The word that the command should leave keeps the GRADE from before, 0. -/
theorem regrading_wanted : getF (accessWrite (rd regrading Reg.fabPkgInfo) (BitVec.ofNat 64 (rqW regrading .f 0 0)) (fieldsAt Reg.fabPkgInfo))
    FabPkgInfo.GRADE = 0 := by
  decide +kernel

/-- The word it leaves has the GRADE rewritten while the EEE frame waited for its port. -/
theorem regrading_left : fld (after (exec (.domainConfigure ⟨0, nhvList⟩) regrading) regrading) Reg.fabPkgInfo FabPkgInfo.GRADE = 1 := by
  decide +kernel

/-- Refutes O42: the GRADE of FAB_PKG_INFO that DOMAIN_CONFIGURE writes back is not the one from before. The list changes a port, firmware sends the
port's EEE frame and waits until the port is awake, and a rewrite of FAB_PKG_INFO that is due by then takes effect in between. -/
theorem not_keysAndDomain : ¬ Obligations.KeysAndDomain := by
  intro h
  obtain ⟨-, -, hdomain, -⟩ := h
  obtain ⟨hwf, htakes, hlen, h0, h0', h2, h3, hcount, hdirs⟩ := regrading_request
  obtain ⟨hconfigure, -⟩ := hdomain regrading hwf
  obtain ⟨-, -, hdone⟩ := hconfigure nhvList htakes hlen h0 h0' h2 h3 hcount hdirs
  obtain ⟨u, hu, -, hword, -⟩ := hdone rfl regrading_list
  have hgrade := regrading_left
  rw [hu, after, fld, hword, regrading_wanted] at hgrade
  exact absurd hgrade (by decide)

end Sys2Proof.Machine

namespace Sys2Proof.Machine

/-! ### Gated commands that begin, and end at once or later (R397, R548) -/

section GatedBegun

variable {s : State} {fn cmd n : Nat} {fmt : State → Bool} {priv : State → Option Reason} {chk : State → Option (Reason × List Nat)}
  {recs : List Byte} {act : State → State} (h : takesUp s .f fn cmd = true) (hfmt : fmt s = true) (hgate : gateOpens s fn n recs = true)
  (hpriv : priv s = none) (hchk : chk s = none)
include h hfmt hgate hpriv hchk

theorem fwGated_acted : fwGated s fn cmd n fmt priv chk recs act =
    refuseFirst .f (mbxQueue (act (pastGate s fn n)) .f).length (act (pastGate s fn n)) := by
  rw [fwGated, fwRun, mbxCommand_of_turn (slotTurn_of_takesUp h) (by simp [gatedLen_of_opens hgate, hfmt]), ifPrivileged, hpriv, orElse,
    gateMissing_of_opens hgate]
  dsimp only
  rw [hchk]
  dsimp only
  rw [throughGate_of_opens hgate]

variable {m : State} (hm : m.mbx = s.mbx)
include hm

omit hfmt hgate hpriv hchk in
theorem mbxQueue_begin_of_turn : mbxQueue (begin_ m .f fn) .f = [fn] := by
  rw [mbxQueue_begin, mbxQueue, hm]
  exact (slotTurn_facts (slotTurn_of_takesUp h)).1

/-- A command that begins stays at the head of its server. -/
theorem fwGated_begins (hact : act (pastGate s fn n) = begin_ m .f fn) : fwGated s fn cmd n fmt priv chk recs act = begin_ m .f fn := by
  have hbegun : (mbxSlot (begin_ m .f fn) .f fn).begun = true := by rw [mbxSlot_begin]
  rw [fwGated_acted h hfmt hgate hpriv hchk, hact, refuseFirst_of_begun (serving_of_begun (mbxQueue_begin_of_turn h hm) hbegun) hbegun]

/-- A command that ends as soon as it has begun is answered. -/
theorem fwGated_begins_done {r : Reason} {ws : List Nat} (hact : act (pastGate s fn n) = refuse (begin_ m .f fn) .f fn r ws) :
    fwGated s fn cmd n fmt priv chk recs act = refuse (begin_ m .f fn) .f fn r ws := by
  rw [fwGated_acted h hfmt hgate hpriv hchk, hact, mbxQueue_refuse, mbxQueue_begin_of_turn h hm, List.erase_cons_head,
    List.length_nil, refuseFirst]

end GatedBegun

theorem told_refuse_begin {s m : State} (h : m.mbx = s.mbx) (fn : Nat) (r : Reason) (ws : List Nat) :
    Told s (refuse (begin_ m .f fn) .f fn r ws) .f fn r ws := told_refuse_begun (begin_mbx h .f fn) r ws

theorem refuse_rte (s : State) (sv : Server) (fn : Nat) (r : Reason) (ws : List Nat) : (refuse s sv fn r ws).rte = s.rte :=
  (refuse_keeps (by decide) (by decide) (Keeps.refl [.host, .mbx] s)).only .rte (by decide)

/-! ### What a transport request names (R419) -/

section TransportRequest

variable {s m : State} {fn : Nat} (h : m.mbx = s.mbx)
include h

theorem qcTenant_of_mbx : qcTenant m fn = qcTenant s fn := by rw [qcTenant, rqW_of_mbx h, ← qcTenant]

theorem qcRte_of_mbx : qcRte m fn = qcRte s fn := by rw [qcRte, rqW_of_mbx h, ← qcRte]

theorem qcHandle_of_mbx : qcHandle m fn = qcHandle s fn := by rw [qcHandle, rqW_of_mbx h, ← qcHandle]

theorem qcPair_of_mbx (b : List Byte) : qcPair m fn b = qcPair s fn b := by rw [qcPair, qcTenant_of_mbx h, ← qcPair]

theorem qcQp_of_mbx : qcQp m fn = qcQp s fn := by rw [qcQp, qcHandle_of_mbx h, ← qcQp]

end TransportRequest

section TransportBegun

variable (s : State) (fn : Nat)

theorem qcRte_begin : qcRte (begin_ s .f fn) fn = qcRte s fn := by rw [qcRte, rqW_begin, ← qcRte]

theorem qcHandle_begin : qcHandle (begin_ s .f fn) fn = qcHandle s fn := by rw [qcHandle, rqW_begin, ← qcHandle]

theorem qcQp_begin : qcQp (begin_ s .f fn) fn = qcQp s fn := by rw [qcQp, qcHandle_begin, ← qcQp]

theorem qcMr_begin : qcMr (begin_ s .f fn) fn = qcMr s fn := by rw [qcMr, qcRte_begin, qcHandle_begin, qcMr]; rfl

end TransportBegun

theorem qcRte_lt (s : State) (fn : Nat) : qcRte s fn < 2 := by
  rw [qcRte, bits]
  exact Nat.mod_lt _ (by decide)

theorem pastGate_rte (s : State) (fn n : Nat) : (pastGate s fn n).rte = s.rte := (pastGate_keeps s fn n).only .rte (by decide)

theorem qpState_pastGate (s : State) {fn : Nat} (hfn : fn < 64) (n e q : Nat) : qpState (pastGate s fn n) e q = qpState s e q := by
  have hne : qpStat e q ≠ Reg.secCseq fn := by
    simp only [qpStat, Reg.rteQpStat, Reg.secCseq, Blk.base]
    omega
  rw [qpState, fld, pastGate_regsOutside s fn n _ (by simpa using hne), ← fld, ← qpState]

theorem freeQp_pastGate (s : State) {fn : Nat} (hfn : fn < 64) (n e : Nat) : freeQp (pastGate s fn n) e = freeQp s e := by
  simp only [freeQp, qpState_pastGate s hfn, pastGate_rte]

/-! ### QP_CREATE (R419, R428) -/

/-- A pair at its first PSNs. -/
def QpRun.started (r : QpRun) : QpRun := { r with psn := bits (r.w 2) 63 32, cum := bits (r.w 2) 31 0, acked := bits (r.w 2) 63 32 }

theorem qpMake_mbx (s : State) (e q : Nat) (r : QpRun) : (qpMake s e q r).mbx = s.mbx :=
  (qpMake_keeps (w := [.regs, .rte]) (by decide) (by decide) (.refl _ s)).only .mbx (by decide)

theorem qpMake_qps (s : State) (e q : Nat) (r : QpRun) : (qpMake s e q r).rte.qps = eSet {} (16384 * e + q) r.started s.rte.qps := rfl

/-- Operations and round-trip time shown leave a pair's STATE. -/
theorem qpState_setQp {s : State} (h : s.wf = true) (e q : Nat) (r : QpRun) : qpState (setQp s e q r) e q = qpState s e q := by
  have hshown (u : State) (hu : u.wf = true) (n t : Nat) :
      fld (setFld (setFld u (qpStat e q) RteQpStat.OPS n) (qpStat e q) RteQpStat.SRTT t) (qpStat e q) RteQpStat.STATE = qpState u e q := by
    rw [fld_setFld_above _ _ _ (setFld_wf hu) (by decide) (by decide) (by decide), fld_setFld_above _ _ _ hu (by decide) (by decide) (by decide),
      ← qpState]
  exact hshown { s with rte := { s.rte with qps := eSet {} (16384 * e + q) r s.rte.qps } } h _ _

theorem qpState_setQpState {s : State} (h : s.wf = true) (e q : Nat) {v : Nat} (hv : v < 4) (st : Status) : qpState (setQpState s e q v st) e q = v := by
  rw [qpState, setQpState, fld_setFld_above _ _ _ (setFld_wf h) (by decide) (by decide) (by decide),
    fld_setFld_same _ _ _ h (by decide) (by decide)]
  exact Nat.mod_eq_of_lt hv

/-- The counters of an engine lie below its pairs' status registers. -/
theorem qpStat_ne_ctr (e q : Nat) {c : Nat} (hc : c < 2048) : qpStat e q ≠ Reg.ctr (.rte e) c := by
  simp only [qpStat, Reg.rteQpStat, Reg.ctr, Blk.base]
  omega

theorem qpStat_ne_qpCc (e q : Nat) : qpStat e q ≠ qpCc e q := by
  simp only [qpStat, qpCc, Reg.rteQpStat, Reg.rteQpCc, Blk.base]
  omega

/-- A pair's registers zeroed before it is made. -/
def qpZeroed (s : State) (e q : Nat) : State := wrReg (wrReg s (qpStat e q) 0) (qpCc e q) 0

theorem qpMake_eq (s : State) (e q : Nat) (r : QpRun) : ∃ v, qpMake s e q r =
    setRate (wrReg (setQp (setQpState (qpZeroed s e q) e q 1 .ok) e q r.started) (Reg.ctr (.rte e) r.started.freeCtr) 0) e q v := ⟨_, rfl⟩

/-- A pair made is READY. -/
theorem qpState_qpMake {s : State} (h : s.wf = true) (e q : Nat) (r : QpRun) : qpState (qpMake s e q r) e q = 1 := by
  have hctr : r.started.freeCtr < 2048 := by
    rw [QpRun.freeCtr, bits]
    exact Nat.mod_lt _ (by decide)
  have hzeroed : (qpZeroed s e q).wf = true := wf_wrReg (wf_wrReg h _ _) _ _
  have hready : (setQpState (qpZeroed s e q) e q 1 .ok).wf = true := setFld_wf (setFld_wf hzeroed)
  obtain ⟨v, hmake⟩ := qpMake_eq s e q r
  rw [qpState, hmake, setRate, fld_setFld_ne _ _ _ _ (qpStat_ne_qpCc e q), fld, rd_wrReg_ne _ _ (qpStat_ne_ctr e q hctr), ← fld, ← qpState,
    qpState_setQp hready, qpState_setQpState hzeroed e q (by decide)]

section QpCreate

variable {s : State} {fn : Nat} {blk : HostData} (h : takesUp s .f fn 0x180 = true) (hgate : gateOpens s fn 32 [] = true)
  (hfmt : qcFormat fn s = true) (hlen : qcLen s fn = 80) (hopen : openTo s fn (qcTenant s fn) = none)
include h hgate hfmt hlen hopen

theorem exec_qpCreate_refused {x : Reason} {ws : List Nat} (hchk : qpCreateCheck blk fn s = some (x, ws)) :
    exec (.qpCreate fn blk) s = .next (refuse s .f fn x ws) :=
  congrArg Host.Outcome.next (fwGated_refused_chk (fmt := fun s => qcFormat fn s && qcLen s fn == 80) (priv := fun s => openTo s fn (qcTenant s fn))
    (chk := qpCreateCheck blk fn) h (by simp [hfmt, hlen]) hgate hopen hchk _)

theorem exec_qpCreate_made (hfn : fn < 64) (hchk : qpCreateCheck blk fn s = none) {q : Nat} (hq : freeQp s (qcRte s fn) = some q) :
    exec (.qpCreate fn blk) s = .next (refuse (qpMake (pastGate s fn 32) (qcRte s fn) q (qcPair s fn ((fetched blk).getD []))) .f fn .none
      [16384 * qcRte s fn + q]) := by
  have hgmbx := pastGate_mbx s fn 32
  have hrun : qpCreateRun blk fn (pastGate s fn 32) = refuse (qpMake (pastGate s fn 32) (qcRte s fn) q (qcPair s fn ((fetched blk).getD []))) .f fn
      .none [16384 * qcRte s fn + q] := by
    unfold qpCreateRun
    dsimp only
    rw [qcRte_of_mbx hgmbx, freeQp_pastGate s hfn, hq]
    dsimp only
    rw [qcPair_of_mbx hgmbx, answerOk_eq]
  exact congrArg Host.Outcome.next (fwGated_acts (fmt := fun s => qcFormat fn s && qcLen s fn == 80) (priv := fun s => openTo s fn (qcTenant s fn))
    (chk := qpCreateCheck blk fn) (act := qpCreateRun blk fn) h (by simp [hfmt, hlen]) hgate hopen hchk ((qpMake_mbx ..).trans hgmbx) hrun)

end QpCreate

theorem firstOf_pair_none {a b : Bool} {x y : Reason} (h : firstOf [(a, x), (b, y)] = none) : a = false ∧ b = false := by
  cases a <;> cases b <;> simp_all [firstOf]

/-- A QP_CREATE that its checks let through finds a free pair. -/
theorem freeQp_of_check {s : State} {fn : Nat} {blk : HostData} (h : qpCreateCheck blk fn s = none) : ∃ q, freeQp s (qcRte s fn) = some q := by
  rw [qpCreateCheck] at h
  cases hb : fetched blk with
  | none => simp [hb] at h
  | some b =>
    simp only [hb] at h
    have hfree := (firstOf_pair_none h).2
    rw [Option.isNone_eq_false_iff, Option.isSome_iff_exists] at hfree
    exact hfree


/-! ### What the end of a pair's operations leaves (R464, R465) -/

/-- The pairs that are closing stand as before, and of the dynamic network only the mesh differs. -/
def PairsEnd (s t : State) : Prop := t.rte.closing = s.rte.closing ∧ MeshOnly s t

theorem PairsEnd.of_eq {s t : State} (hrte : t.rte.closing = s.rte.closing) (hdyn : t.dyn = s.dyn) : PairsEnd s t := ⟨hrte, meshOnly_of_dyn_eq hdyn⟩

theorem PairsEnd.trans {s t u : State} (h : PairsEnd s t) (k : PairsEnd t u) : PairsEnd s u := ⟨k.1.trans h.1, h.2.trans k.2⟩

theorem PairsEnd.foldl {α : Type} {f : State → α → State} (h : ∀ u a, PairsEnd u (f u a)) (l : List α) (s : State) : PairsEnd s (l.foldl f s) := by
  induction l generalizing s with
  | nil => exact .of_eq rfl rfl
  | cons a l ih => exact (h s a).trans (ih (f s a))

/-- A pair with as many local accesses as before is as busy as before. -/
theorem PairsEnd.qpBusy {s t : State} (h : PairsEnd s t) (e q : Nat) : qpBusy t e q = qpBusy s e q := by
  rw [Machine.qpBusy, h.2.txns, h.2.waiting, ← Machine.qpBusy]

theorem rspTo_mesh (s : State) (p : Pkt) (from_ : Ep) (opc : Opc) (prio : Nat) (data : List Byte) (psn : Bool) :
    MeshOnly s (rspTo s p from_ opc prio data psn) := by
  rw [rspTo]
  split
  · exact meshOnly_of_dyn_eq (injFire_dyn ..)
  · exact inject_mesh ..

theorem rspTo_rte (s : State) (p : Pkt) (from_ : Ep) (opc : Opc) (prio : Nat) (data : List Byte) (psn : Bool) :
    (rspTo s p from_ opc prio data psn).rte = s.rte :=
  (rspTo_keeps (w := [.dyn, .free, .lane, .obs, .regs, .rel]) (by decide) (by decide) (by decide) (by decide) (by decide) (by decide)
    (.refl _ s)).only .rte (by decide)

theorem rspTo_pairsEnd (s : State) (p : Pkt) (from_ : Ep) (opc : Opc) (prio : Nat) (data : List Byte) (psn : Bool) :
    PairsEnd s (rspTo s p from_ opc prio data psn) := ⟨congrArg RteState.closing (rspTo_rte ..), rspTo_mesh ..⟩

theorem ackTo_pairsEnd (s : State) (p : Pkt) (st : Status) : PairsEnd s (ackTo s p st) := rspTo_pairsEnd ..

theorem errTo_pairsEnd (s : State) (p : Pkt) (st : Status) : PairsEnd s (errTo s p st) := by
  rw [errTo]
  split
  · exact rspTo_pairsEnd ..
  · exact .of_eq rfl rfl

/-- An engine's own operation ends with an answer, or in a counter's addition. -/
theorem ownDone_pairsEnd (s : State) (p : QpPost) (st : Status) : PairsEnd s (ownDone s p st) := by
  have hcounted : PairsEnd s (match p.ctr with | some c => addDone s c st | none => s) := by
    split
    · exact .of_eq rfl rfl
    · exact .of_eq rfl rfl
  have hanswered (u : State) : PairsEnd u (match p.orig with | some o => if st.good then ackTo u o .ok else errTo u o st | none => u) := by
    split
    · split
      · exact ackTo_pairsEnd ..
      · exact errTo_pairsEnd ..
    · exact .of_eq rfl rfl
  exact hcounted.trans (hanswered _)

theorem setQp_pairsEnd (s : State) (e q : Nat) (r : QpRun) : PairsEnd s (setQp s e q r) := .of_eq rfl rfl

theorem setPort_pairsEnd (s : State) (e k : Nat) (p : PortRun) : PairsEnd s (setPort s e k p) := .of_eq rfl rfl

theorem touchPorts_pairsEnd (s : State) (e : Nat) (r : QpRun) : PairsEnd s (touchPorts s e r) :=
  .foldl (fun u k => setPort_pairsEnd u e k { port u e k with active := u.clk.now }) r.usedPorts s

theorem updCmd_pairsEnd (s : State) (id : Nat) (f : Cmd → Cmd) : PairsEnd s (updCmd s id f) := .of_eq rfl rfl

theorem opEnds_pairsEnd (s : State) (e q : Nat) (o : QpOp) (st : Status) (detail : Nat) : PairsEnd s (opEnds s e q o st detail) := by
  have hset (r : QpRun) : PairsEnd s (setQp (touchPorts s e (qp s e q)) e q r) := (touchPorts_pairsEnd s e (qp s e q)).trans (setQp_pairsEnd _ e q r)
  rw [opEnds]
  dsimp only
  split
  · exact (hset _).trans (updCmd_pairsEnd _ _ _)
  · exact (hset _).trans (ownDone_pairsEnd _ _ _)

theorem queueEnds_pairsEnd (s : State) (e q : Nat) (st : Status) (detail : Nat) : PairsEnd s (queueEnds s e q st detail) :=
  (setQp_pairsEnd s e q _).trans (.foldl (fun u o => opEnds_pairsEnd u e q o st detail) _ _)

/-- A pair moved to ERROR ends its operations, those it has begun and those in its send queue. -/
theorem qpError_pairsEnd (s : State) (e q : Nat) (st : Status) (detail : Nat) : PairsEnd s (qpError s e q st detail) := by
  have hmoved : PairsEnd s (if qpState s e q = 3 then s else setQpState s e q 2 st) := by
    split
    · exact .of_eq rfl rfl
    · exact .of_eq rfl rfl
  rw [qpError]
  split
  · exact .of_eq rfl rfl
  · have hended := hmoved.trans (.foldl (fun u o => opEnds_pairsEnd u e q o st detail) (qp (if qpState s e q = 3 then s else setQpState s e q 2 st) e q).open_ _)
    exact (hended.trans (queueEnds_pairsEnd _ e q st _)).trans (setQp_pairsEnd _ e q _)

theorem putClose_pairsEnd (s : State) (e q : Nat) (r : QpRun) (reason : Nat) : PairsEnd s (putClose s e q r reason) := by
  rw [putClose]
  split
  · exact .of_eq rfl rfl
  · unfold putCtl
    dsimp only
    split
    · exact setPort_pairsEnd ..
    · exact (setPort_pairsEnd ..).trans (setPort_pairsEnd ..)

/-! ### QP_DESTROY (R419, R464, R465) -/

/-- The record of a pair that closes by its own side for a reason: two more CLOSE frames follow. -/
def closeRecord (s : State) (e q reason : Nat) : CloseRun := ⟨e, q, (qp s e q).par, (qp s e q).txctr, reason, 2, s.clk.now⟩

/-- A pair's closing on record, before its operations end. -/
def closeListed (s : State) (e q reason : Nat) : State :=
  let u := putClose s e q (qp s e q) reason
  { u with rte := { u.rte with closing := u.rte.closing ++ [closeRecord s e q reason] } }

theorem putClose_clk (s : State) (e q : Nat) (r : QpRun) (reason : Nat) : (putClose s e q r reason).clk = s.clk :=
  (putClose_keeps (w := [.rte]) (by decide) (.refl _ s)).only .clk (by decide)

theorem qpClose_eq {s : State} {e q : Nat} (h : qpState s e q ≠ 0) : qpClose s e q 1 = qpError (closeListed s e q 1) e q .aborted := by
  rw [qpClose]
  dsimp only
  rw [if_neg h, if_neg (by decide), closeListed, closeRecord, putClose_clk]

theorem qpDestroy_closing {s : State} {e q : Nat} (h : qpState s e q ≠ 0) :
    (qpDestroy s e q).rte.closing = s.rte.closing ++ [closeRecord s e q 1] := by
  have hclosed : (qpClose s e q 1).rte.closing = s.rte.closing ++ [closeRecord s e q 1] := by
    rw [qpClose_eq h, (qpError_pairsEnd ..).1]
    exact congrArg (· ++ [closeRecord s e q 1]) (putClose_pairsEnd s e q (qp s e q) 1).1
  exact hclosed

theorem qpBusy_qpDestroy {s : State} {e q : Nat} (h : qpState s e q ≠ 0) (e' q' : Nat) : qpBusy (qpDestroy s e q) e' q' = qpBusy s e' q' := by
  have hclosed : qpBusy (qpClose s e q 1) e' q' = qpBusy s e' q' := by
    rw [qpClose_eq h, (qpError_pairsEnd ..).qpBusy]
    exact (putClose_pairsEnd s e q (qp s e q) 1).qpBusy e' q'
  exact hclosed

theorem qpDestroy_mbx (s : State) (e q : Nat) : (qpDestroy s e q).mbx = s.mbx :=
  (qpDestroy_keeps (w := [.dyn, .free, .host, .lane, .obs, .regs, .rel, .rte, .trig]) (by decide) (by decide) (by decide) (by decide) (by decide)
    (by decide) (by decide) (by decide) (by decide) (.refl _ s)).only .mbx (by decide)

theorem qpState_qpDestroy {s : State} (h : s.wf = true) (e q : Nat) : qpState (qpDestroy s e q) e q = 0 := by
  have hclosed : (qpClose s e q 1).wf = true :=
    (qpClose_keeps (w := [.dyn, .free, .host, .lane, .obs, .regs, .rel, .rte, .trig]) (by decide) (by decide) (by decide) (by decide) (by decide)
      (by decide) (by decide) (by decide) (by decide) (.refl _ s)).wf h
  rw [qpDestroy]
  exact qpState_setQpState (setFld_wf (setFld_wf (s := { qpClose s e q 1 with rte := _ }) hclosed)) e q (by decide) .ok

/-- The form of a request that names a pair of its engine. -/
def qpDestroyFormat (fn : Nat) (s : State) : Bool := qcFormat fn s && qcHandle s fn / 16384 == qcRte s fn

/-- The checks of QP_DESTROY. -/
def qpDestroyCheck (fn : Nat) (s : State) : Option (Reason × List Nat) :=
  firstOf [(qpState s (qcRte s fn) (qcQp s fn) == 0, .state), ((qp s (qcRte s fn) (qcQp s fn)).tenant != qcTenant s fn, .conflict)]

/-- QP_DESTROY's effect, and its end where it can end at once. -/
def qpDestroyRun (fn : Nat) (s : State) : State := qpDestroyEnd (begin_ (qpDestroy s (qcRte s fn) (qcQp s fn)) .f fn) fn

theorem exec_qpDestroy_later {s : State} {fn : Nat} (h : goesOn s .f fn 0x181 = true) :
    exec (.qpDestroy fn) s = .next (fwLater s fn 0x181 (qpDestroyEnd · fn)) :=
  congrArg Host.Outcome.next (if_pos (begun_of_goesOn h))

theorem qpDestroyEnd_busy {s : State} {fn : Nat} (h : qpBusy s (qcRte s fn) (qcQp s fn) = true) : qpDestroyEnd s fn = s := if_pos h

theorem qpDestroyEnd_idle {s : State} {fn : Nat} (h : qpBusy s (qcRte s fn) (qcQp s fn) = false) : qpDestroyEnd s fn = refuse s .f fn .none [] := by
  rw [qpDestroyEnd, h, if_neg Bool.false_ne_true, answerOk_eq]

theorem exec_qpDestroy_waits {s : State} {fn : Nat} (h : goesOn s .f fn 0x181 = true) (hbusy : qpBusy s (qcRte s fn) (qcQp s fn) = true) :
    exec (.qpDestroy fn) s = .next s := by
  rw [exec_qpDestroy_later h, fwLater_waits (k := (qpDestroyEnd · fn)) h (qpDestroyEnd_busy hbusy)]

theorem exec_qpDestroy_ends {s : State} {fn : Nat} (h : goesOn s .f fn 0x181 = true) (hidle : qpBusy s (qcRte s fn) (qcQp s fn) = false) :
    exec (.qpDestroy fn) s = .next (refuse s .f fn .none []) := by
  rw [exec_qpDestroy_later h, fwLater_ends (k := (qpDestroyEnd · fn)) (m := s) h rfl (qpDestroyEnd_idle hidle)]

theorem qpBusy_begin (s : State) (fn e q : Nat) : qpBusy (begin_ s .f fn) e q = qpBusy s e q := by
  rw [qpBusy, ((begin__keeps (w := [.mbx]) (by decide) (.refl _ s)).only .dyn (by decide) : (begin_ s .f fn).dyn = s.dyn), ← qpBusy]

theorem qp_pastGate (s : State) (fn n e q : Nat) : qp (pastGate s fn n) e q = qp s e q := by rw [qp, pastGate_rte, ← qp]

theorem qpBusy_pastGate (s : State) (fn n e q : Nat) : qpBusy (pastGate s fn n) e q = qpBusy s e q := by
  rw [qpBusy, (pastGate_keeps s fn n).only .dyn (by decide), ← qpBusy]

section QpDestroy

variable {s : State} {fn : Nat} (h : takesUp s .f fn 0x181 = true) (hgate : gateOpens s fn 32 [] = true) (hfmt : qpDestroyFormat fn s = true)
  (hopen : openTo s fn (qcTenant s fn) = none)
include h hgate hfmt hopen

theorem exec_qpDestroy_refused {r : Reason} {ws : List Nat} (hchk : qpDestroyCheck fn s = some (r, ws)) :
    exec (.qpDestroy fn) s = .next (refuse s .f fn r ws) :=
  congrArg Host.Outcome.next ((if_neg (by simp [begunF_of_takesUp h])).trans (fwGated_refused_chk (fmt := qpDestroyFormat fn)
    (priv := fun s => openTo s fn (qcTenant s fn)) (chk := qpDestroyCheck fn) h hfmt hgate hopen hchk _))

variable (hfn : fn < 64) (hstate : qpState s (qcRte s fn) (qcQp s fn) ≠ 0) (htenant : (qp s (qcRte s fn) (qcQp s fn)).tenant = qcTenant s fn)
include hfn hstate htenant

omit h hgate hfmt hopen hfn in
theorem qpDestroyCheck_none : qpDestroyCheck fn s = none := by simp [qpDestroyCheck, firstOf, hstate, htenant]

/-- The pair destroyed behind the gate. -/
def pairGone (s : State) (fn : Nat) : State := qpDestroy (pastGate s fn 32) (qcRte s fn) (qcQp s fn)

omit h hgate hfmt hopen hfn hstate htenant in
theorem pairGone_mbx : (pairGone s fn).mbx = s.mbx := (qpDestroy_mbx ..).trans (pastGate_mbx s fn 32)

omit h hgate hfmt hopen hfn hstate htenant in
theorem qpDestroyRun_pastGate : qpDestroyRun fn (pastGate s fn 32) = qpDestroyEnd (begin_ (pairGone s fn) .f fn) fn := by
  rw [qpDestroyRun, qcRte_of_mbx (pastGate_mbx s fn 32), qcQp_of_mbx (pastGate_mbx s fn 32), pairGone]

omit h hgate hfmt hopen htenant in
theorem qpBusy_pairGone : qpBusy (begin_ (pairGone s fn) .f fn) (qcRte (begin_ (pairGone s fn) .f fn) fn) (qcQp (begin_ (pairGone s fn) .f fn) fn) =
    qpBusy s (qcRte s fn) (qcQp s fn) := by
  rw [qcRte_begin, qcQp_begin, qcRte_of_mbx pairGone_mbx, qcQp_of_mbx pairGone_mbx, qpBusy_begin, pairGone,
    qpBusy_qpDestroy (by rw [qpState_pastGate s hfn]; exact hstate), qpBusy_pastGate]

theorem exec_qpDestroy_idle (hidle : qpBusy s (qcRte s fn) (qcQp s fn) = false) :
    exec (.qpDestroy fn) s = .next (refuse (begin_ (pairGone s fn) .f fn) .f fn .none []) := by
  have hend : qpDestroyRun fn (pastGate s fn 32) = refuse (begin_ (pairGone s fn) .f fn) .f fn .none [] := by
    rw [qpDestroyRun_pastGate, qpDestroyEnd_idle ((qpBusy_pairGone hfn hstate).trans hidle)]
  exact congrArg Host.Outcome.next ((if_neg (by simp [begunF_of_takesUp h])).trans (fwGated_begins_done (fmt := qpDestroyFormat fn)
    (priv := fun s => openTo s fn (qcTenant s fn)) (chk := qpDestroyCheck fn) (act := qpDestroyRun fn) h hfmt hgate hopen
    (qpDestroyCheck_none hstate htenant) pairGone_mbx hend))

theorem exec_qpDestroy_busy (hbusy : qpBusy s (qcRte s fn) (qcQp s fn) = true) : exec (.qpDestroy fn) s = .next (begin_ (pairGone s fn) .f fn) := by
  have hbegun : qpDestroyRun fn (pastGate s fn 32) = begin_ (pairGone s fn) .f fn := by
    rw [qpDestroyRun_pastGate, qpDestroyEnd_busy ((qpBusy_pairGone hfn hstate).trans hbusy)]
  exact congrArg Host.Outcome.next ((if_neg (by simp [begunF_of_takesUp h])).trans (fwGated_begins (fmt := qpDestroyFormat fn)
    (priv := fun s => openTo s fn (qcTenant s fn)) (chk := qpDestroyCheck fn) (act := qpDestroyRun fn) h hfmt hgate hopen
    (qpDestroyCheck_none hstate htenant) pairGone_mbx hbegun))

end QpDestroy

/-! ### MR_REGISTER (R419, R430, R431) -/

theorem freeMr_pastGate (s : State) (fn n e : Nat) : freeMr (pastGate s fn n) e = freeMr s e := by simp only [freeMr, pastGate_rte]

section MrRegister

variable {s : State} {fn : Nat} {blk : HostData} (h : takesUp s .f fn 0x182 = true) (hgate : gateOpens s fn 32 [] = true)
  (hfmt : qcFormat fn s = true) (hlen : qcLen s fn = 32) (hopen : openTo s fn (qcTenant s fn) = none)
include h hgate hfmt hlen hopen

theorem exec_mrRegister_unread (hb : fetched blk = none) : exec (.mrRegister fn blk) s = .next (refuse s .f fn .fetch []) := by
  change execMrRegister fn blk s = _
  unfold execMrRegister
  exact congrArg Host.Outcome.next (fwGated_refused_chk h (by simp [hfmt, hlen]) hgate hopen (by simp only [hb]) _)

theorem exec_mrRegister_refused {b : List Byte} (hb : fetched blk = some b) {r : Reason} {ws : List Nat}
    (hchk : firstOf [(mrBlockBad s (qcTenant s fn) (qcRegion s fn b), .check), ((freeMr s (qcRte s fn)).isNone, .noResource)] = some (r, ws)) :
    exec (.mrRegister fn blk) s = .next (refuse s .f fn r ws) := by
  change execMrRegister fn blk s = _
  unfold execMrRegister
  exact congrArg Host.Outcome.next (fwGated_refused_chk h (by simp [hfmt, hlen]) hgate hopen (by simp only [hb, hchk]) _)

/-- The region made behind the gate, with its key. -/
def regionMade (s : State) (fn i : Nat) (b : List Byte) : State × Nat := mrMake (pastGate s fn 32) (qcRte s fn) i (qcTenant s fn) (blkWords b 4)

omit h hgate hfmt hlen hopen in
theorem regionMade_mbx (s : State) (fn i : Nat) (b : List Byte) : (regionMade s fn i b).1.mbx = s.mbx := pastGate_mbx s fn 32

theorem exec_mrRegister_made {b : List Byte} {i : Nat} (hb : fetched blk = some b) (hgood : mrBlockBad s (qcTenant s fn) (qcRegion s fn b) = false)
    (hfree : freeMr s (qcRte s fn) = some i) :
    exec (.mrRegister fn blk) s = .next (refuse (regionMade s fn i b).1 .f fn .none [(regionMade s fn i b).2]) := by
  have hgmbx := pastGate_mbx s fn 32
  change execMrRegister fn blk s = _
  unfold execMrRegister
  refine congrArg Host.Outcome.next (fwGated_acts (m := (regionMade s fn i b).1) h ?_ hgate hopen ?_ (regionMade_mbx s fn i b) ?_)
  · simp [hfmt, hlen]
  · simp [hb, firstOf, hgood, hfree]
  rw [qcRte_of_mbx hgmbx, freeMr_pastGate, hfree]
  dsimp only
  rw [qcTenant_of_mbx hgmbx, hb, answerOk_eq]
  rfl

end MrRegister

/-! ### MR_DEREGISTER (R419, R433) -/

theorem mem_updFirst_self {α : Type} {p : α → Bool} (f : α → α) {l : List α} {x : α} (h : l.filter p = [x]) : f x ∈ updFirst p f l := by
  induction l with
  | nil => cases h
  | cons a l ih =>
    rw [updFirst]
    by_cases hp : p a = true
    · rw [List.filter_cons_of_pos hp] at h
      rw [if_pos hp, (List.cons.inj h).1]
      exact List.mem_cons_self ..
    · rw [List.filter_cons_of_neg hp] at h
      rw [if_neg hp]
      exact List.mem_cons_of_mem _ (ih h)

/-- Does a region stand at an engine's index? -/
def mrAt (e i : Nat) (x : MrRun) : Bool := x.e == e && x.idx == i

/-- Does a request's key name a region, at its engine and of its generation? -/
def mrNamed (s : State) (fn : Nat) (m : MrRun) : Bool := m.e == qcRte s fn && m.idx == qcHandle s fn / 2 ^ 18 && m.gen == qcHandle s fn % 2 ^ 18

theorem qcMr_eq (s : State) (fn : Nat) : qcMr s fn = s.rte.mrs.find? (mrNamed s fn) := rfl

theorem mrNamed_iff {s : State} {fn : Nat} {m : MrRun} :
    mrNamed s fn m = true ↔ m.e = qcRte s fn ∧ m.idx = qcHandle s fn / 2 ^ 18 ∧ m.gen = qcHandle s fn % 2 ^ 18 := by
  simp [mrNamed, and_assoc]

theorem qcMr_of_mbx {s m : State} {fn : Nat} (h : m.mbx = s.mbx) : qcMr m fn = m.rte.mrs.find? (mrNamed s fn) := by
  rw [qcMr, qcRte_of_mbx h, qcHandle_of_mbx h]
  rfl

section Dropped

variable {s : State} {m : MrRun} (hone : (s.rte.mrs.filter (mrAt m.e m.idx)) = [m])
include hone

/-- Of the region at an index only its invalid record can be left. -/
theorem mem_mrDrop {x : MrRun} (hx : x ∈ (mrDrop s m.e m.idx).rte.mrs) (hat : mrAt m.e m.idx x = true) : x = { m with valid := false } ∧ m.out ≠ 0 := by
  obtain ⟨hmem, hkept⟩ := List.mem_filter.1 hx
  have heq : x = { m with valid := false } := mem_updFirst_of_filter (p := mrAt m.e m.idx) hone hmem hat
  subst heq
  exact ⟨rfl, by simpa using hkept⟩

/-- While a placement is admitted the record stays. -/
theorem mem_mrDrop_of_out (hout : m.out ≠ 0) : { m with valid := false } ∈ (mrDrop s m.e m.idx).rte.mrs :=
  List.mem_filter.2 ⟨mem_updFirst_self (fun m => { m with valid := false }) hone, by simp [hout]⟩

end Dropped

/-- The checks of MR_DEREGISTER. -/
def mrDeregisterCheck (fn : Nat) (s : State) : Option (Reason × List Nat) :=
  match qcMr s fn with
  | none => some (.state, [])
  | some m => firstOf [(m.tenant != qcTenant s fn, .conflict), (! m.valid, .state)]

/-- MR_DEREGISTER's effect, and its end where it can end at once. -/
def mrDropRun (fn : Nat) (s : State) : State := mrDropEnd (begin_ (mrDrop s (qcRte s fn) (qcHandle s fn / 2 ^ 18)) .f fn) fn

theorem mrDropEnd_named {s : State} {fn : Nat} {m : MrRun} (h : qcMr s fn = some m) : mrDropEnd s fn = s := by
  rw [mrDropEnd, h]
  exact if_pos rfl

theorem mrDropEnd_unnamed {s : State} {fn : Nat} (h : qcMr s fn = none) : mrDropEnd s fn = refuse s .f fn .none [] := by
  rw [mrDropEnd, h]
  exact if_neg Bool.false_ne_true

theorem exec_mrDeregister_later {s : State} {fn : Nat} (h : goesOn s .f fn 0x183 = true) :
    exec (.mrDeregister fn) s = .next (fwLater s fn 0x183 (mrDropEnd · fn)) :=
  congrArg Host.Outcome.next (if_pos (begun_of_goesOn h))

theorem exec_mrDeregister_waits {s : State} {fn : Nat} {m : MrRun} (h : goesOn s .f fn 0x183 = true) (hm : qcMr s fn = some m) :
    exec (.mrDeregister fn) s = .next s := by
  rw [exec_mrDeregister_later h, fwLater_waits (k := (mrDropEnd · fn)) h (mrDropEnd_named hm)]

theorem exec_mrDeregister_ends {s : State} {fn : Nat} (h : goesOn s .f fn 0x183 = true) (hm : qcMr s fn = none) :
    exec (.mrDeregister fn) s = .next (refuse s .f fn .none []) := by
  rw [exec_mrDeregister_later h, fwLater_ends (k := (mrDropEnd · fn)) (m := s) h rfl (mrDropEnd_unnamed hm)]

section MrDeregister

variable {s : State} {fn : Nat} (h : takesUp s .f fn 0x183 = true) (hgate : gateOpens s fn 32 [] = true) (hfmt : qcFormat fn s = true)
  (hopen : openTo s fn (qcTenant s fn) = none)
include h hgate hfmt hopen

theorem exec_mrDeregister_refused {r : Reason} {ws : List Nat} (hchk : mrDeregisterCheck fn s = some (r, ws)) :
    exec (.mrDeregister fn) s = .next (refuse s .f fn r ws) :=
  congrArg Host.Outcome.next ((if_neg (by simp [begunF_of_takesUp h])).trans (fwGated_refused_chk (fmt := qcFormat fn)
    (priv := fun s => openTo s fn (qcTenant s fn)) (chk := mrDeregisterCheck fn) h hfmt hgate hopen hchk _))

/-- The key invalidated behind the gate. -/
def regionGone (s : State) (fn : Nat) : State := mrDrop (pastGate s fn 32) (qcRte s fn) (qcHandle s fn / 2 ^ 18)

omit h hgate hfmt hopen in
theorem regionGone_mbx : (regionGone s fn).mbx = s.mbx := pastGate_mbx s fn 32

omit h hgate hfmt hopen in
theorem mrDropRun_pastGate : mrDropRun fn (pastGate s fn 32) = mrDropEnd (begin_ (regionGone s fn) .f fn) fn := by
  rw [mrDropRun, qcRte_of_mbx (pastGate_mbx s fn 32), qcHandle_of_mbx (pastGate_mbx s fn 32), regionGone]

variable {m : MrRun} (hm : qcMr s fn = some m)
include hm

omit h hgate hfmt hopen in
theorem mrNamed_of_qcMr : mrNamed s fn m = true := List.find?_some hm

omit h hgate hfmt hopen in
theorem regionGone_eq : regionGone s fn = mrDrop (pastGate s fn 32) m.e m.idx := by
  obtain ⟨he, hidx, -⟩ := mrNamed_iff.1 (mrNamed_of_qcMr hm)
  rw [regionGone, he, hidx]

variable (htenant : m.tenant = qcTenant s fn) (hvalid : m.valid = true) (hone : s.rte.mrs.filter (mrAt m.e m.idx) = [m])
include htenant hvalid

omit h hgate hfmt hopen in
theorem mrDeregisterCheck_none : mrDeregisterCheck fn s = none := by
  rw [mrDeregisterCheck, hm]
  simp [firstOf, htenant, hvalid]

include hone

theorem exec_mrDeregister_busy (hout : m.out ≠ 0) : exec (.mrDeregister fn) s = .next (begin_ (regionGone s fn) .f fn) := by
  have hleft : ∃ x, qcMr (regionGone s fn) fn = some x := by
    rw [qcMr_of_mbx regionGone_mbx, ← Option.isSome_iff_exists, List.find?_isSome]
    refine ⟨{ m with valid := false }, ?_, show mrNamed s fn m = true from mrNamed_of_qcMr hm⟩
    rw [regionGone_eq hm]
    exact mem_mrDrop_of_out (by rw [pastGate_rte]; exact hone) hout
  obtain ⟨x, hx⟩ := hleft
  have hrun : mrDropRun fn (pastGate s fn 32) = begin_ (regionGone s fn) .f fn := by
    rw [mrDropRun_pastGate, mrDropEnd_named ((qcMr_begin ..).trans hx)]
  exact congrArg Host.Outcome.next ((if_neg (by simp [begunF_of_takesUp h])).trans (fwGated_begins (fmt := qcFormat fn)
    (priv := fun s => openTo s fn (qcTenant s fn)) (chk := mrDeregisterCheck fn) (act := mrDropRun fn) h hfmt hgate hopen
    (mrDeregisterCheck_none hm htenant hvalid) regionGone_mbx hrun))

theorem exec_mrDeregister_idle (hout : m.out = 0) : exec (.mrDeregister fn) s = .next (refuse (begin_ (regionGone s fn) .f fn) .f fn .none []) := by
  have hgone : qcMr (regionGone s fn) fn = none := by
    rw [qcMr_of_mbx regionGone_mbx, List.find?_eq_none]
    intro x hx hnamed
    obtain ⟨he, hidx, -⟩ := mrNamed_iff.1 hnamed
    obtain ⟨hme, hmidx, -⟩ := mrNamed_iff.1 (mrNamed_of_qcMr hm)
    rw [regionGone_eq hm] at hx
    exact (mem_mrDrop (by rw [pastGate_rte]; exact hone) hx (by simp [mrAt, he, hme, hidx, hmidx])).2 hout
  have hrun : mrDropRun fn (pastGate s fn 32) = refuse (begin_ (regionGone s fn) .f fn) .f fn .none [] := by
    rw [mrDropRun_pastGate, mrDropEnd_unnamed ((qcMr_begin ..).trans hgone)]
  exact congrArg Host.Outcome.next ((if_neg (by simp [begunF_of_takesUp h])).trans (fwGated_begins_done (fmt := qcFormat fn)
    (priv := fun s => openTo s fn (qcTenant s fn)) (chk := mrDeregisterCheck fn) (act := mrDropRun fn) h hfmt hgate hopen
    (mrDeregisterCheck_none hm htenant hvalid) regionGone_mbx hrun))

omit h hgate hfmt hopen htenant hvalid in
/-- No valid record is left under the key. -/
theorem invalid_of_mem_regionGone {x : MrRun} (hx : x ∈ (regionGone s fn).rte.mrs) (he : x.e = m.e) (hidx : x.idx = m.idx) : x.valid = false := by
  rw [regionGone_eq hm] at hx
  rw [(mem_mrDrop (by rw [pastGate_rte]; exact hone) hx (by simp [mrAt, he, hidx])).1]

end MrDeregister

/-! ### The four commands (R419) -/

theorem begin_rte (s : State) (sv : Server) (fn : Nat) : (begin_ s sv fn).rte = s.rte :=
  (begin__keeps (w := [.mbx]) (by decide) (.refl _ s)).only .rte (by decide)

theorem qpState_of_regs {s u : State} (h : u.regs = s.regs) (e q : Nat) : qpState u e q = qpState s e q := by
  rw [qpState, fld_of_regs_eq h, ← qpState]

theorem pairGone_closing {s : State} {fn : Nat} (hfn : fn < 64) (hstate : qpState s (qcRte s fn) (qcQp s fn) ≠ 0) :
    (pairGone s fn).rte.closing = s.rte.closing ++ [closeRecord s (qcRte s fn) (qcQp s fn) 1] := by
  rw [pairGone, qpDestroy_closing (by rw [qpState_pastGate s hfn]; exact hstate), pastGate_rte, closeRecord, qp_pastGate,
    (pastGate_keeps s fn 32).only .clk (by decide), ← closeRecord]

theorem qpState_pairGone {s : State} (h : s.wf = true) (fn : Nat) : qpState (pairGone s fn) (qcRte s fn) (qcQp s fn) = 0 :=
  qpState_qpDestroy ((pastGate_keeps s fn 32).wf h) _ _

/-- Settles O43: what each of the four commands leaves by its checks, and the end of the two that wait for local accesses. -/
theorem transportIsSetUp : Obligations.TransportIsSetUp := by
  refine ⟨fun fn blk s hfn hwf h hgate hfmt hlen hopen => ⟨fun x ws hchk => ?_, fun hchk => ?_⟩,
    fun fn s hfn hwf hfmt hhandle => ⟨fun h hgate hopen => ?_, fun h hbusy => exec_qpDestroy_waits h hbusy,
      fun h hidle => refused_outcome (exec_qpDestroy_ends h hidle)⟩,
    fun fn blk s hfn hwf h hgate hfmt hlen hopen => ?_,
    fun fn m s hfn hwf hfmt hm hone => ⟨fun h hgate hopen => ⟨fun hother => ?_, fun htenant hvalid => ?_, fun htenant hvalid => ?_⟩,
      fun h => exec_mrDeregister_waits h hm⟩,
    fun fn s hfn hfmt hm => ⟨fun h hgate hopen => ?_, fun h => refused_outcome (exec_mrDeregister_ends h hm)⟩⟩
  · exact ⟨_, exec_qpCreate_refused h hgate hfmt hlen hopen hchk, refuse_regs .., refuse_rte .., told_refuse rfl ..⟩
  · obtain ⟨q, hq⟩ := freeQp_of_check hchk
    refine ⟨_, q, exec_qpCreate_made h hgate hfmt hlen hopen hfn hchk hq, hq, told_refuse ((qpMake_mbx ..).trans (pastGate_mbx s fn 32)) .., ?_, ?_⟩
    · rw [qpState_of_regs (refuse_regs ..), qpState_qpMake ((pastGate_keeps s fn 32).wf hwf)]
    · rw [refuse_rte, qpMake_qps, pastGate_rte]
      rfl
  · have hform : qpDestroyFormat fn s = true := by simp [qpDestroyFormat, hfmt, hhandle]
    refine ⟨fun hfree => ?_, fun hstate hother => ?_, fun hstate htenant => ?_⟩
    · exact refused_outcome (exec_qpDestroy_refused h hgate hform hopen (by simp [qpDestroyCheck, firstOf, hfree]))
    · exact refused_outcome (exec_qpDestroy_refused h hgate hform hopen (by simp [qpDestroyCheck, firstOf, hstate, hother]))
    · cases hbusy : qpBusy s (qcRte s fn) (qcQp s fn) with
      | false =>
        refine ⟨_, exec_qpDestroy_idle h hgate hform hopen hfn hstate htenant hbusy, ?_, ?_, fun _ => told_refuse_begin pairGone_mbx .., nofun⟩
        · rw [qpState_of_regs ((refuse_regs ..).trans (begin_regs ..)), qpState_pairGone hwf]
        · rw [refuse_rte, begin_rte, pairGone_closing hfn hstate, closeRecord]
      | true =>
        refine ⟨_, exec_qpDestroy_busy h hgate hform hopen hfn hstate htenant hbusy, ?_, ?_, nofun, fun _ => by rw [mbxSlot_begin]⟩
        · rw [qpState_of_regs (begin_regs ..), qpState_pairGone hwf]
        · rw [begin_rte, pairGone_closing hfn hstate, closeRecord]
  · refine ⟨fun hb => ?_, fun b hb hbad => ?_, fun b hb hgood hfull => ?_, fun b i hb hgood hfree => ?_⟩
    · exact ⟨_, exec_mrRegister_unread h hgate hfmt hlen hopen hb, refuse_regs .., refuse_rte .., told_refuse rfl ..⟩
    · exact ⟨_, exec_mrRegister_refused h hgate hfmt hlen hopen hb (by simp [firstOf, hbad]), refuse_regs .., refuse_rte .., told_refuse rfl ..⟩
    · exact ⟨_, exec_mrRegister_refused h hgate hfmt hlen hopen hb (by simp [firstOf, hgood, hfull]), refuse_regs .., refuse_rte ..,
        told_refuse rfl ..⟩
    · refine ⟨_, exec_mrRegister_made h hgate hfmt hlen hopen hb hgood hfree, ?_, ?_, ?_⟩
      · rw [refuse_rte, regionMade, mrMake, pastGate_rte]
      · rw [refuse_rte, regionMade, mrMake, pastGate_rte]
      · have htold := told_refuse (m := (regionMade s fn i b).1) (pastGate_mbx s fn 32) .f fn .none [(regionMade s fn i b).2]
        rw [regionMade, mrMake, pastGate_rte] at htold ⊢
        exact htold
  · refine ⟨_, exec_mrDeregister_refused h hgate hfmt hopen (r := .conflict) (ws := []) ?_, refuse_regs .., refuse_rte .., told_refuse rfl ..⟩
    rw [mrDeregisterCheck, hm]
    simp [firstOf, hother]
  · refine refused_outcome (exec_mrDeregister_refused h hgate hfmt hopen ?_)
    rw [mrDeregisterCheck, hm]
    simp [firstOf, htenant, hvalid]
  · by_cases hout : m.out = 0
    · refine ⟨_, exec_mrDeregister_idle h hgate hfmt hopen hm htenant hvalid hone hout, fun x hx he hidx => ?_,
        fun _ => told_refuse_begin regionGone_mbx .., fun hne => absurd hout hne⟩
      rw [refuse_rte, begin_rte] at hx
      exact invalid_of_mem_regionGone hm hone hx he hidx
    · refine ⟨_, exec_mrDeregister_busy h hgate hfmt hopen hm htenant hvalid hone hout, fun x hx he hidx => ?_, fun hzero => absurd hzero hout,
        fun _ => by rw [mbxSlot_begin]⟩
      rw [begin_rte] at hx
      exact invalid_of_mem_regionGone hm hone hx he hidx
  · refine refused_outcome (exec_mrDeregister_refused h hgate hfmt hopen ?_)
    rw [mrDeregisterCheck, hm]

end Sys2Proof.Machine

namespace Sys2Proof.Machine

/-! ### Answers where the sequencer has counted (R394, R397) -/

/-- An answer given in a state tells a caller of an earlier one with the same slot and queue. -/
theorem told_of_slot {s m u : State} {sv : Server} {fn : Nat} {r : Reason} {ws : List Nat} (hslot : mbxSlot m sv fn = mbxSlot s sv fn)
    (hqueue : mbxQueue m sv = mbxQueue s sv) (h : Told m u sv fn r ws) : Told s u sv fn r ws := by
  rw [Told, rqCmd, rqWord, hslot, hqueue] at h
  exact h

/-- The slot and the queue of a server are those of the table and the queues. -/
theorem told_refuse_of_parts {s m : State} (hslots : m.mbx.slots = s.mbx.slots) (hgq : m.mbx.gq = s.mbx.gq) (fn : Nat) (r : Reason) (ws : List Nat) :
    Told s (refuse m .g fn r ws) .g fn r ws :=
  told_of_slot (by rw [mbxSlot, hslots, ← mbxSlot]) hgq (told_refuse rfl .g fn r ws)

/-- A sequencer command that ends with an answer leaves nothing to refuse. -/
theorem mbxCommand_answered {s m : State} {fn cmd : Nat} (h : slotTurn s .g fn cmd = true) {fmt : State → Bool} (hfmt : fmt s = true)
    {priv : State → Option Reason} (hpriv : priv s = none) {k : State → State} (hgq : m.mbx.gq = s.mbx.gq) {r : Reason} {ws : List Nat}
    (hk : k s = refuse m .g fn r ws) : mbxCommand s .g fn cmd fmt priv k = refuse m .g fn r ws := by
  have hqueue : mbxQueue m .g = [fn] := Eq.trans (b := s.mbx.gq) hgq (slotTurn_facts h).1
  rw [mbxCommand_carriedOut h hfmt hpriv (by rw [hk, mbxQueue_refuse, hqueue, List.erase_cons_head]), hk]

/-- A sequencer command that begins stays at the head of its server. -/
theorem mbxCommand_begun {s m : State} {fn cmd : Nat} (h : slotTurn s .g fn cmd = true) {fmt : State → Bool} (hfmt : fmt s = true)
    {priv : State → Option Reason} (hpriv : priv s = none) {k : State → State} (hgq : m.mbx.gq = s.mbx.gq) (hk : k s = begin_ m .g fn) :
    mbxCommand s .g fn cmd fmt priv k = begin_ m .g fn := by
  have hqueue : mbxQueue (begin_ m .g fn) .g = [fn] := (mbxQueue_begin ..).trans (Eq.trans (b := s.mbx.gq) hgq (slotTurn_facts h).1)
  have hbegun : (mbxSlot (begin_ m .g fn) .g fn).begun = true := by rw [mbxSlot_begin]
  rw [mbxCommand_of_turn h hfmt, ifPrivileged, hpriv]
  dsimp only
  rw [hk, refuseFirst_of_begun (serving_of_begun hqueue hbegun) hbegun]

theorem refuse_log (s : State) (sv : Server) (fn : Nat) (r : Reason) (ws : List Nat) : (refuse s sv fn r ws).log = s.log :=
  (refuse_keeps (by decide) (by decide) (Keeps.refl [.host, .mbx] s)).only .log (by decide)

theorem refuse_obs (s : State) (sv : Server) (fn : Nat) (r : Reason) (ws : List Nat) : (refuse s sv fn r ws).obs = s.obs :=
  (refuse_keeps (by decide) (by decide) (Keeps.refl [.host, .mbx] s)).only .obs (by decide)

theorem mbxFields_refuse (s : State) (sv : Server) (fn : Nat) (r : Reason) (ws : List Nat) : (refuse s sv fn r ws).mbx.snapNo = s.mbx.snapNo ∧
    (refuse s sv fn r ws).mbx.frzNo = s.mbx.frzNo ∧ (refuse s sv fn r ws).mbx.fmpst = s.mbx.fmpst ∧
    (refuse s sv fn r ws).mbx.version = s.mbx.version := by
  rw [refuse, answer, signal_mbx]
  cases sv <;> exact ⟨rfl, rfl, rfl, rfl⟩

/-! ### What the sequencer refuses (R397, R401) -/

/-- Command number and instruction of the sequencer's commands, by TAKE and FREEZE of the request. -/
def sequencerCommands (s : State) (fn : Nat) : List (Nat × Instr) :=
  [(2, .errlogRead fn), (3, if bit (rqW s .g fn 0) 0 then .soundingTake fn [] else .soundingPageRead fn),
    (4, if bit (rqW s .g fn 0) 0 then .counterFreeze fn else .counterThaw fn), (5, .fabricReset fn), (6, .fmpRecover fn)]

/-- The payload length of a sequencer command. -/
def sequencerLen (cmd : Nat) : Nat := if cmd = 5 then 0 else 8

theorem bits_eq_zero_of_lt {n hi lo : Nat} (h : n < 2 ^ lo) : bits n hi lo = 0 := by
  rw [bits, Nat.div_eq_of_lt h, Nat.zero_mod]

/-- A request word of 0 or 1 has no reserved bit set. -/
theorem rsvd_of_small {s : State} {fn : Nat} (h : rqW s .g fn 0 / 2 = 0) (hi : Nat) {lo : Nat} (hlo : 1 ≤ lo) : rsvd s .g fn 0 hi lo = true := by
  have hpow : 2 ^ 1 ≤ 2 ^ lo := Nat.pow_le_pow_right (by decide) hlo
  rw [rsvd, bits_eq_zero_of_lt (by omega)]
  rfl

section SequencerFormats

variable {s : State} {fn : Nat}

/-- The form of FMP_RECOVER. -/
def recoverFormat (fn : Nat) (s : State) : Bool := rqPlen s .g fn == 8 && rsvd s .g fn 0 63 1

theorem soundingFormat_of_small (hlen : rqPlen s .g fn = 8) (h : rqW s .g fn 0 / 2 = 0) : soundingFormat fn s = true := by
  simp [soundingFormat, hlen, rsvd_of_small h]

theorem freezeFormat_of_small (hlen : rqPlen s .g fn = 8) (h : rqW s .g fn 0 / 2 = 0) : freezeFormat fn s = true := by
  simp [freezeFormat, hlen, rsvd_of_small h]

theorem recoverFormat_of_small (hlen : rqPlen s .g fn = 8) (h : rqW s .g fn 0 / 2 = 0) : recoverFormat fn s = true := by
  simp [recoverFormat, hlen, rsvd_of_small h]

variable (hn : rqPlen s .g fn ≠ 8)
include hn

theorem soundingFormat_of_other : soundingFormat fn s = false := by simp [soundingFormat, hn]

theorem freezeFormat_of_other : freezeFormat fn s = false := by simp [freezeFormat, hn]

theorem recoverFormat_of_other : recoverFormat fn s = false := by simp [recoverFormat, hn]

end SequencerFormats

/-- A command runs at the sequencer: its format holds its length, and where a request word of 0 or 1 fits the format it is function 0's alone. -/
def SequencerRuns (s : State) (fn cmd : Nat) (c : Instr) : Prop :=
  ∃ fmt priv k, exec c s = .next (mbxCommand s .g fn cmd fmt priv k) ∧ (rqPlen s .g fn ≠ sequencerLen cmd → fmt s = false) ∧
    (cmd ≠ 2 → rqPlen s .g fn = sequencerLen cmd → cmd = 5 ∨ rqW s .g fn 0 / 2 = 0 → fmt s = true ∧ priv = onlyZero fn)

/-- Every sequencer command that has not begun runs in its turn. -/
theorem sequencerRuns {s : State} {fn : Nat} (hfresh : (mbxSlot s .g fn).begun = false) {ki : Nat × Instr} (hki : ki ∈ sequencerCommands s fn) :
    SequencerRuns s fn ki.1 ki.2 := by
  have hword {n : Nat} (hn : n ≠ 5) (h : n = 5 ∨ rqW s .g fn 0 / 2 = 0) : rqW s .g fn 0 / 2 = 0 := h.resolve_left hn
  simp only [sequencerCommands, List.mem_cons, List.not_mem_nil, or_false] at hki
  rcases hki with rfl | rfl | rfl | rfl | rfl
  · exact ⟨_, _, _, rfl, fun hn => by simpa [sequencerLen] using fun h => absurd h hn, fun h => absurd rfl h⟩
  · have hformat (hlen : rqPlen s .g fn = 8) (h : (3 : Nat) = 5 ∨ rqW s .g fn 0 / 2 = 0) := soundingFormat_of_small hlen (hword (by decide) h)
    cases hbit : bit (rqW s .g fn 0) 0 with
    | true =>
      exact ⟨soundingFormat fn, onlyZero fn, _, congrArg Host.Outcome.next (if_neg (by simp [hbit])), soundingFormat_of_other,
        fun _ hlen h => ⟨hformat hlen h, rfl⟩⟩
    | false =>
      exact ⟨soundingFormat fn, onlyZero fn, _, congrArg Host.Outcome.next (if_neg (by simp [hbit])), soundingFormat_of_other,
        fun _ hlen h => ⟨hformat hlen h, rfl⟩⟩
  · have hformat (hlen : rqPlen s .g fn = 8) (h : (4 : Nat) = 5 ∨ rqW s .g fn 0 / 2 = 0) := freezeFormat_of_small hlen (hword (by decide) h)
    cases hbit : bit (rqW s .g fn 0) 0 with
    | true =>
      exact ⟨freezeFormat fn, onlyZero fn, _, congrArg Host.Outcome.next (if_neg (by simp [hbit])), freezeFormat_of_other,
        fun _ hlen h => ⟨hformat hlen h, rfl⟩⟩
    | false =>
      exact ⟨freezeFormat fn, onlyZero fn, _, congrArg Host.Outcome.next (if_neg (by simp [hbit])), freezeFormat_of_other,
        fun _ hlen h => ⟨hformat hlen h, rfl⟩⟩
  · exact ⟨fun s => rqPlen s .g fn == 0, onlyZero fn, _, congrArg Host.Outcome.next (if_neg (by simp [hfresh])), beq_eq_false_iff_ne.2,
      fun _ hlen _ => ⟨beq_iff_eq.2 hlen, rfl⟩⟩
  · exact ⟨recoverFormat fn, onlyZero fn, _, rfl, recoverFormat_of_other,
      fun _ hlen h => ⟨recoverFormat_of_small hlen (hword (n := 6) (by decide) h), rfl⟩⟩

theorem fresh_of_takesUp {s : State} {sv : Server} {fn cmd : Nat} (h : takesUp s sv fn cmd = true) : (mbxSlot s sv fn).begun = false := by
  simp only [takesUp, Bool.and_eq_true, Bool.not_eq_true'] at h
  exact h.2

theorem exec_sequencer_malformed {s : State} {fn : Nat} {ki : Nat × Instr} (hki : ki ∈ sequencerCommands s fn) (h : takesUp s .g fn ki.1 = true)
    (hn : rqPlen s .g fn ≠ sequencerLen ki.1) : exec ki.2 s = .next (refuse s .g fn .format []) := by
  obtain ⟨fmt, priv, k, hexec, hfmt, -⟩ := sequencerRuns (fresh_of_takesUp h) hki
  rw [hexec, mbxCommand_malformed (slotTurn_of_takesUp h) (hfmt hn)]

theorem exec_sequencer_unprivileged {s : State} {fn : Nat} {ki : Nat × Instr} (hki : ki ∈ (sequencerCommands s fn).tail) (h : takesUp s .g fn ki.1 = true)
    (hlen : rqPlen s .g fn = sequencerLen ki.1) (hword : ki.1 = 5 ∨ rqW s .g fn 0 / 2 = 0) (hfn : fn ≠ 0) :
    exec ki.2 s = .next (refuse s .g fn .privilege []) := by
  have hnot : ki.1 ≠ 2 := by
    simp only [sequencerCommands, List.tail_cons, List.mem_cons, List.not_mem_nil, or_false] at hki
    rcases hki with rfl | rfl | rfl | rfl <;> simp
  obtain ⟨fmt, priv, k, hexec, -, hpriv⟩ := sequencerRuns (fresh_of_takesUp h) (List.mem_of_mem_tail hki)
  obtain ⟨hfmt, hp⟩ := hpriv hnot hlen hword
  rw [hexec, mbxCommand_refused (slotTurn_of_takesUp h) hfmt (by rw [hp]; exact onlyZero_other hfn)]

/-! ### ERRLOG_READ (R404) -/

/-- The sequences that a request leaves out: those before FROM, or none when FROM is older than the oldest. -/
def errlogSkip (s : State) (fn : Nat) : Nat :=
  let old := errlogOldest s
  let held := seqAfter (errlogNext s) old
  let from_ := bits (rqW s .g fn 0) 31 0
  if seqAfter from_ old ≤ held then seqAfter from_ old else if from_ < old then 0 else held

/-- The records an answer holds. -/
def errlogPicked (s : State) (fn : Nat) : List ErrRec :=
  ((errlogSeen s fn).filter fun e => decide (errlogSkip s fn ≤ seqAfter e.seq (errlogOldest s))).take (bits (rqW s .g fn 0) 39 32)

theorem errlogAnswer_eq (s : State) (fn : Nat) : ∃ next, errlogAnswer s fn = refuse s .g fn .none ((errlogOldest s * 2 ^ 32 + next) ::
    wordsOf ((errlogPicked s fn).flatMap fun e => toLE 64 e.toNat)) := ⟨_, rfl⟩

/-- What is picked is shown, and a virtual function's own. -/
theorem mem_errlogPicked {s : State} {fn : Nat} {e : ErrRec} (h : e ∈ errlogPicked s fn) : e ∈ errlogHeld s ∧ (fn = 0 ∨ e.tenant = fn) := by
  have hseen := List.mem_of_mem_filter (List.mem_of_mem_take h)
  simpa [errlogSeen] using hseen

/-- From the oldest sequence on nothing is left out. -/
theorem errlogPicked_of_oldest {s : State} (h : bits (rqW s .g 0 0) 31 0 = errlogOldest s) :
    errlogPicked s 0 = (errlogHeld s).take (bits (rqW s .g 0 0) 39 32) := by
  have hself : seqAfter (errlogOldest s) (errlogOldest s) = 0 := by
    rw [seqAfter, Nat.add_sub_cancel_left, Nat.mod_self]
  have hskip : errlogSkip s 0 = 0 := by
    rw [errlogSkip, h, hself, if_pos (Nat.zero_le _)]
  simp [errlogPicked, hskip, errlogSeen]

theorem exec_errlogRead {s : State} {fn : Nat} (h : takesUp s .g fn 2 = true) (hlen : rqPlen s .g fn = 8) (hrsvd : bits (rqW s .g fn 0) 63 40 = 0)
    (hlo : 1 ≤ bits (rqW s .g fn 0) 39 32) (hhi : bits (rqW s .g fn 0) 39 32 ≤ 31) : exec (.errlogRead fn) s = .next (errlogAnswer s fn) := by
  obtain ⟨next, heq⟩ := errlogAnswer_eq s fn
  refine congrArg Host.Outcome.next ((mbxCommand_answered (k := fun s => errlogAnswer s fn) (slotTurn_of_takesUp h) ?_ rfl rfl heq).trans heq.symm)
  simp [hlen, rsvd, hrsvd, hlo, hhi]

/-! ### Freezes and thaws of the package (R640, R644, R666) -/

theorem putRec_snapshot (s : State) (unit w : Nat) (r : List Byte) : (putRec s unit w r).obs.snapshot = s.obs.snapshot := by
  unfold putRec
  dsimp only
  split
  · rfl
  · split <;> rfl

/-- A mark leaves the snapshot that is held. -/
theorem traceMark_snapshot (s : State) (unit event v : Nat) : (traceMark s unit event v).obs.snapshot = s.obs.snapshot := by
  change (if (wellOn s 0 && true) = true then putRec s unit 0 _ else s).obs.snapshot = _
  split
  · exact putRec_snapshot ..
  · rfl

/-- TEL_FRZ_TIME is not a well's. -/
theorem fld_frzTime_traceMark (s : State) (unit event v : Nat) (f : Fld) : fld (traceMark s unit event v) Reg.telFrzTime f = fld s Reg.telFrzTime f := by
  have hword : rd (traceMark s unit event v) Reg.telFrzTime = rd s Reg.telFrzTime := by
    refine traceTo_regsOutside s _ _ _ _ _ _ _ _ fun h => ?_
    obtain ⟨w, -, hw⟩ := List.mem_map.mp h
    simp only [Reg.telTwStat, Reg.telFrzTime, Blk.base] at hw
    omega
  rw [fld, hword, ← fld]

/-- The number a package's own freeze and thaw keep. -/
def ownFrzNo (s : State) : Nat := fld s Reg.telFrzStat TelFrzStat.FRZNO

/-- The package thawed: the latched registers go, FROZEN is cleared, and a mark is traced. -/
def thawedNow (s : State) : State :=
  let t := { s with obs := { s.obs with latched := none } }
  let t := setFld (setFld t Reg.telFrzStat TelFrzStat.FROZEN 0) Reg.telFrzStat TelFrzStat.FRZNO (ownFrzNo s)
  traceMark (setFld t Reg.telFrzTime TelFrzTime.TIME (timeNs t)) markUnit 2 (ownFrzNo s)

theorem freezeNow_frozen {s : State} (h : isFrozen s = true) (no : Option Nat) : freezeNow s false no = s := by
  rw [freezeNow, h]
  exact if_pos (by decide)

theorem freezeNow_thawed {s : State} (h : isFrozen s = false) : freezeNow s false none = frozenNow s (ownFrzNo s) :=
  freezeNow_of_thawed h (ownFrzNo s)

theorem thaw_thawed {s : State} (h : isFrozen s = false) (no : Option Nat) : freezeNow s true no = s := by
  rw [freezeNow, h]
  exact if_pos (by decide)

theorem thaw_frozen {s : State} (h : isFrozen s = true) : freezeNow s true none = thawedNow s := by
  rw [freezeNow, h]
  dsimp only
  rw [if_neg (by decide), if_neg (by simp)]
  rfl

theorem thawedNow_latched (s : State) : (thawedNow s).obs.latched = none := by
  rw [thawedNow, traceMark_latched]
  rfl

theorem thawedNow_snapshot (s : State) : (thawedNow s).obs.snapshot = s.obs.snapshot := by
  rw [thawedNow, traceMark_snapshot]
  rfl

theorem isFrozen_thawedNow {s : State} (h : s.wf = true) : isFrozen (thawedNow s) = false := by
  have hwf : ({ s with obs := { s.obs with latched := none } } : State).wf = true := h
  rw [isFrozen, flag, thawedNow, fld_frzStat_traceMark, fld_setFld_ne _ _ _ _ (by decide),
    fld_setFld_apart (setFld_wf hwf) _ _ (by decide) (by decide) (by decide), fld_setFld_same _ _ _ hwf (by decide) (by decide)]
  rfl

theorem frozenNow_latches (s : State) (no : Nat) : (frozenNow s no).obs.latched = some s.regs := by
  rw [frozenNow, traceMark_latched]
  rfl

/-- TEL_FRZ_TIME holds the time of the freeze. -/
theorem frozenNow_TIME {s : State} (h : s.wf = true) (no : Nat) :
    fld (frozenNow s no) Reg.telFrzTime TelFrzTime.TIME = timeNs s % 2 ^ fldWidth TelFrzTime.TIME := by
  rw [frozenNow, fld_frzTime_traceMark]
  exact fld_setFld_same _ _ _ (setFld_wf (setFld_wf (s := latchedNow s) h)) (by decide) (by decide)

theorem isFrozen_frozenNow {s : State} (h : s.wf = true) (no : Nat) : isFrozen (frozenNow s no) = true := frozenNow_FROZEN h no

section FreezeNow

variable (s : State) (thaw : Bool) (no : Option Nat)

theorem freezeNow_mbx : (freezeNow s thaw no).mbx = s.mbx :=
  (freezeNow_keeps (w := [.obs, .regs]) (by decide) (by decide) (.refl _ s)).only .mbx (by decide)

theorem freezeNow_log : (freezeNow s thaw no).log = s.log :=
  (freezeNow_keeps (w := [.obs, .regs]) (by decide) (by decide) (.refl _ s)).only .log (by decide)

theorem freezeNow_wf {s : State} (h : s.wf = true) : (freezeNow s thaw no).wf = true :=
  (freezeNow_keeps (w := [.obs, .regs]) (by decide) (by decide) (.refl _ s)).wf h

end FreezeNow

theorem isFrozen_of_regs {s u : State} (h : u.regs = s.regs) : isFrozen u = isFrozen s := by
  rw [isFrozen, flag, fld_of_regs_eq h, ← flag, ← isFrozen]

/-! ### SOUNDING_TAKE (R405, R661-R663) -/

/-- The pages of a snapshot. -/
def soundingPages (bs : List Byte) : Nat := ceilDiv bs.length 2016

/-- The words of a snapshot's page. -/
def pageWords (s : State) (bs : List Byte) (p : Nat) : List Nat :=
  (soundingPages bs * 2 ^ 48 + p * 2 ^ 32 + s.mbx.snapNo) :: ofLE (slice bs 8 8) :: wordsOf (slice bs (2016 * p) 2016)

section SoundingAnswer

variable {s : State} {bs : List Byte} (h : s.obs.snapshot.getD [] = bs) {p : Nat}
include h

theorem soundingAnswer_beyond (hp : soundingPages bs ≤ p) (fn : Nat) : soundingAnswer s fn p = refuse s .g fn .format [] := by
  rw [soundingAnswer, h]
  exact if_pos hp

theorem soundingAnswer_page (hp : p < soundingPages bs) (fn : Nat) : soundingAnswer s fn p = refuse s .g fn .none (pageWords s bs p) := by
  rw [soundingAnswer, h]
  exact if_neg (Nat.not_le.2 hp)

end SoundingAnswer

/-- The first bytes of a snapshot's head are its number. -/
theorem slice_head (no : Nat) (rest body : List Byte) : slice (slice (toLE 4 no ++ rest) 0 64 ++ body) 0 4 = toLE 4 no := rfl

/-- A snapshot taken is numbered one higher and holds its head of 64 bytes; the mailbox differs in the number alone, and no register changes. -/
theorem takeSounding_taken (s : State) (noresp : List Nat) : ∃ bs, (takeSounding s noresp).obs.snapshot = some bs ∧ 64 ≤ bs.length ∧
    ofLE (slice bs 0 4) = (s.mbx.snapNo + 1) % 2 ^ 32 ∧ (takeSounding s noresp).mbx = { s.mbx with snapNo := (s.mbx.snapNo + 1) % 2 ^ 32 } ∧
    (takeSounding s noresp).regs = s.regs := by
  refine ⟨_, rfl, by simp, ?_, rfl, rfl⟩
  rw [List.append_assoc, List.append_assoc, List.append_assoc, List.append_assoc, slice_head, ofLE_toLE, show 256 ^ 4 = 2 ^ 32 from rfl, Nat.mod_mod]

/-- A snapshot taken with the counters frozen, which thaw when they had been running. -/
def sounded (s : State) (noresp : List Nat) : State :=
  let t := takeSounding (freezeNow s false none) noresp
  if isFrozen s then t else freezeNow t true none

/-- What SOUNDING_TAKE leaves before it answers. -/
theorem sounded_spec {s : State} (h : s.wf = true) (noresp : List Nat) : ∃ bs, (sounded s noresp).obs.snapshot = some bs ∧ 64 ≤ bs.length ∧
    ofLE (slice bs 0 4) = (s.mbx.snapNo + 1) % 2 ^ 32 ∧ (sounded s noresp).mbx = { s.mbx with snapNo := (s.mbx.snapNo + 1) % 2 ^ 32 } ∧
    isFrozen (sounded s noresp) = isFrozen s ∧ (sounded s noresp).log = s.log := by
  obtain ⟨bs, hsnap, hlen, hno, hmbx, hregs⟩ := takeSounding_taken (freezeNow s false none) noresp
  rw [freezeNow_mbx] at hno hmbx
  have hkept := takeSounding_keeps (x2 := noresp) (w := [.free, .mbx, .obs]) (by decide) (by decide) (by decide) (.refl _ (freezeNow s false none))
  have hlog : (takeSounding (freezeNow s false none) noresp).log = s.log := (hkept.only .log (by decide)).trans (freezeNow_log ..)
  have hwf := hkept.wf (freezeNow_wf false none h)
  cases hfrozen : isFrozen s with
  | true =>
    rw [sounded, hfrozen]
    rw [freezeNow_frozen hfrozen] at hsnap hmbx hregs hlog ⊢
    exact ⟨bs, hsnap, hlen, hno, hmbx, (isFrozen_of_regs hregs).trans hfrozen, hlog⟩
  | false =>
    have htaken : isFrozen (takeSounding (freezeNow s false none) noresp) = true := by
      rw [isFrozen_of_regs hregs, freezeNow_thawed hfrozen]
      exact isFrozen_frozenNow h _
    rw [sounded, hfrozen]
    dsimp only
    rw [if_neg Bool.false_ne_true]
    refine ⟨bs, ?_, hlen, hno, (freezeNow_mbx ..).trans hmbx, ?_, (freezeNow_log ..).trans hlog⟩
    · rw [thaw_frozen htaken, thawedNow_snapshot, hsnap]
    · rw [thaw_frozen htaken, isFrozen_thawedNow hwf]

theorem exec_soundingTake {s : State} (h : takesUp s .g 0 3 = true) (hlen : rqPlen s .g 0 = 8) (hword : rqW s .g 0 0 = 1) (noresp : List Nat)
    {bs : List Byte} (hsnap : (sounded s noresp).obs.snapshot = some bs) (hgq : (sounded s noresp).mbx.gq = s.mbx.gq) (hpages : 0 < soundingPages bs) :
    exec (.soundingTake 0 noresp) s = .next (refuse (sounded s noresp) .g 0 .none (pageWords (sounded s noresp) bs 0)) := by
  have hbit : bit (rqW s .g 0 0) 0 = true := by rw [hword]; decide
  refine congrArg Host.Outcome.next ((if_neg (by simp [hbit])).trans (mbxCommand_answered (fmt := soundingFormat 0) (priv := onlyZero 0)
    (slotTurn_of_takesUp h) (soundingFormat_of_small hlen (by rw [hword])) rfl hgq ?_))
  exact soundingAnswer_page (s := sounded s noresp) (by rw [hsnap]; rfl) hpages 0

section SoundingPage

variable {s : State} (h : takesUp s .g 0 3 = true) (hlen : rqPlen s .g 0 = 8) (hhi : bits (rqW s .g 0 0) 63 32 = 0)
  (hlo : bits (rqW s .g 0 0) 15 0 = 0)
include h hlen hhi hlo

theorem exec_soundingPageRead {r : Reason} {ws : List Nat}
    (hanswer : soundingAnswer s 0 (bits (rqW s .g 0 0) 31 16) = refuse s .g 0 r ws) : exec (.soundingPageRead 0) s = .next (refuse s .g 0 r ws) := by
  have hlow : rqW s .g 0 0 % 2 ^ 16 = 0 := by simpa [bits] using hlo
  have hbit : bit (rqW s .g 0 0) 0 = false := by
    rw [bit, beq_eq_false_iff_ne]
    omega
  have hmid : bits (rqW s .g 0 0) 15 1 = 0 := by
    rw [bits]
    omega
  exact congrArg Host.Outcome.next ((if_neg (by simp [hbit])).trans (mbxCommand_answered (fmt := soundingFormat 0) (priv := onlyZero 0)
    (k := fun s => soundingAnswer s 0 (bits (rqW s .g 0 0) 31 16)) (slotTurn_of_takesUp h) (by simp [soundingFormat, hlen, rsvd, hhi, hmid]) rfl rfl hanswer))

end SoundingPage

/-! ### COUNTER_FREEZE (R406, R640, R641) -/

theorem exec_counterFreeze {s m : State} (h : takesUp s .g 0 4 = true) (hlen : rqPlen s .g 0 = 8) (hrsvd : bits (rqW s .g 0 0) 63 2 = 0)
    (hbit : bit (rqW s .g 0 0) 0 = true) (hgq : m.mbx.gq = s.mbx.gq) {ws : List Nat} (hrun : counterFreezeRun s 0 false = refuse m .g 0 .none ws) :
    exec (.counterFreeze 0) s = .next (refuse m .g 0 .none ws) :=
  congrArg Host.Outcome.next ((if_neg (by simp [hbit])).trans (mbxCommand_answered (fmt := freezeFormat 0) (priv := onlyZero 0)
    (k := fun s => counterFreezeRun s 0 false) (slotTurn_of_takesUp h) (by simp [freezeFormat, hlen, rsvd, hrsvd]) rfl hgq hrun))

theorem exec_counterThaw {s m : State} (h : takesUp s .g 0 4 = true) (hlen : rqPlen s .g 0 = 8) (hrsvd : bits (rqW s .g 0 0) 63 2 = 0)
    (hbit : bit (rqW s .g 0 0) 0 = false) (hgq : m.mbx.gq = s.mbx.gq) {ws : List Nat} (hrun : counterFreezeRun s 0 true = refuse m .g 0 .none ws) :
    exec (.counterThaw 0) s = .next (refuse m .g 0 .none ws) :=
  congrArg Host.Outcome.next ((if_neg (by simp [hbit])).trans (mbxCommand_answered (fmt := freezeFormat 0) (priv := onlyZero 0)
    (k := fun s => counterFreezeRun s 0 true) (slotTurn_of_takesUp h) (by simp [freezeFormat, hlen, rsvd, hrsvd]) rfl hgq hrun))

/-- Without DOMAIN the package freezes or thaws and its time is answered. -/
theorem counterFreezeRun_local {s : State} (h : bit (rqW s .g 0 0) 1 = false) (thaw : Bool) :
    counterFreezeRun s 0 thaw = refuse (freezeNow s thaw none) .g 0 .none [timeNs s] := by
  rw [counterFreezeRun, h]
  exact if_neg Bool.false_ne_true

/-! ### Freezes of the domain (R641) -/

theorem crcBit_lt (c : Nat) (b : Bool) : crcBit 16 0x1021 c b < 2 ^ 16 := by
  have hshift : c * 2 % 2 ^ 16 < 2 ^ 16 := Nat.mod_lt _ (by decide)
  rw [crcBit]
  split
  · exact Nat.xor_lt_two_pow hshift (by decide)
  · exact hshift

theorem crcBits_lt (n v : Nat) {c : Nat} (h : c < 2 ^ 16) : crcBits 16 0x1021 n v c < 2 ^ 16 := by
  induction n generalizing c with
  | zero => exact h
  | succ n ih => exact ih (crcBit_lt c _)

/-- CHK fits its field. -/
theorem SpCheck_lt (m : SpMsg) : SpCheck m < 2 ^ 16 := by
  rw [SpCheck]
  exact List.foldlRecOn (motive := fun c => c < 2 ^ 16) _ _ (crcBits_lt 48 _ (by decide)) fun _ hc w _ => crcBits_lt 64 w hc

/-- Messages sent one after another from an endpoint at whose router no injection is armed. -/
theorem foldl_spSend_from (t d : Nat) (f : Nat → SpMsg) (l : List Nat) {s : State} (h : injArmed s (.rtr t) .spchk (fun _ => true) = false) :
    l.foldl (fun s c => spSend s ⟨myChip s, t, d⟩ (f c)) s = spSent s (l.map fun c => (⟨myChip s, t, d⟩, SpStamp (f c))) := by
  induction l generalizing s with
  | nil => rw [spSent, List.map_nil, List.append_nil]; rfl
  | cons c l ih =>
    have hsend : spSend s ⟨myChip s, t, d⟩ (f c) = spSent s [(⟨myChip s, t, d⟩, SpStamp (f c))] := by
      rw [spSend, h]
      rfl
    rw [List.foldl_cons, hsend, ih (s := spSent s _) h, spSent_spSent]
    rfl

/-- The FREEZE message of a domain freeze or thaw for a package. -/
def freezeTo (chip : Nat) (thaw : Bool) (no at_ c : Nat) : SpMsg :=
  ⟨[spWord0 .freeze 0 ⟨c, 0, 0⟩ 0 1 true 0 0 0, at_, b2n thaw + chip * 2 ^ 24 + no * 2 ^ 32]⟩

theorem SpWord_stamp_zero (m : SpMsg) : SpWord (SpStamp m) 0 = SpWord m 0 / 2 ^ 16 * 2 ^ 16 + SpCheck m := rfl

theorem SpWord_stamp_one (a b c : Nat) : SpWord (SpStamp ⟨[a, b, c]⟩) 1 = b := rfl

theorem SpWord_stamp_two (a b c : Nat) : SpWord (SpStamp ⟨[a, b, c]⟩) 2 = c := rfl

/-- Word 0 of a FREEZE with its CHK. -/
theorem SpWord_freezeTo (chip : Nat) (thaw : Bool) (no at_ c : Nat) :
    ∃ k < 2 ^ 16, SpWord (SpStamp (freezeTo chip thaw no at_ c)) 0 = 9 * 2 ^ 60 + c * 2 ^ 44 + 2 ^ 28 + 2 ^ 27 + k := by
  refine ⟨SpCheck (freezeTo chip thaw no at_ c), SpCheck_lt _, ?_⟩
  have hword : SpWord (freezeTo chip thaw no at_ c) 0 = 9 * 2 ^ 60 + c * 2 ^ 44 + 2 ^ 28 + 2 ^ 27 := by
    simp [SpWord, freezeTo, spWord0, SpKindCode, b2n]
  rw [SpWord_stamp_zero, hword]
  omega

theorem SpKindOf_freezeTo (chip : Nat) (thaw : Bool) (no at_ : Nat) {c : Nat} (hc : c < 256) :
    SpKindOf (SpStamp (freezeTo chip thaw no at_ c)) = .freeze := by
  obtain ⟨k, hk, hword⟩ := SpWord_freezeTo chip thaw no at_ c
  have hkind : bits (SpWord (SpStamp (freezeTo chip thaw no at_ c)) 0) 63 60 = 9 := by
    rw [hword, bits]
    omega
  rw [SpKindOf, hkind]
  rfl

theorem SpDst_freezeTo (chip : Nat) (thaw : Bool) (no at_ : Nat) {c : Nat} (hc : c < 256) :
    (SpDst (SpStamp (freezeTo chip thaw no at_ c))).chip = c := by
  obtain ⟨k, hk, hword⟩ := SpWord_freezeTo chip thaw no at_ c
  change bits (SpWord (SpStamp (freezeTo chip thaw no at_ c)) 0) 51 44 = c
  rw [hword, bits]
  omega

/-- The payload names the freeze's number above the sender. -/
theorem SpWord_freezeTo_no {chip : Nat} (hchip : chip < 256) (thaw : Bool) (no at_ c : Nat) :
    SpWord (SpStamp (freezeTo chip thaw no at_ c)) 2 / 2 ^ 32 % 2 ^ 32 = no % 2 ^ 32 := by
  have hflag : b2n thaw ≤ 1 := by cases thaw <;> decide
  rw [freezeTo, SpWord_stamp_two]
  omega

theorem fld_lt (s : State) (a : Nat) (f : Fld) : fld s a f < 2 ^ fldWidth f := Nat.mod_lt _ (Nat.two_pow_pos _)

theorem myChip_lt (s : State) : myChip s < 256 := fld_lt s _ _

theorem lt_of_mem_torusChips {s : State} {c : Nat} (h : c ∈ torusChips s) : c < 256 := List.mem_range.1 (List.mem_of_mem_filter h)

/-- The number a domain freeze takes, and the number its thaw keeps. -/
def domainFrzNo (s : State) (thaw : Bool) : Nat := if thaw then s.mbx.frzNo else (s.mbx.frzNo + 1) % 2 ^ 32

/-- The time at which a domain freezes or thaws. -/
def domainFrzAt (s : State) : Nat := (fineNow s + max 1 (fld s Reg.telFrzCtl TelFrzCtl.FLEAD) * 16000) % 2 ^ 64

/-- The number taken, and a FREEZE on its way to every package of the torus. -/
def domainFrozen (s : State) (thaw : Bool) : State :=
  spSent { s with mbx := { s.mbx with frzNo := domainFrzNo s thaw } } ((torusChips s).map fun c =>
    (⟨myChip s, 0, 3⟩, SpStamp (freezeTo (myChip s) thaw (domainFrzNo s thaw) (domainFrzAt s) c)))

theorem counterFreezeRun_domain {s : State} (h : bit (rqW s .g 0 0) 1 = true) (hinj : injArmed s (.rtr 0) .spchk (fun _ => true) = false)
    (thaw : Bool) : counterFreezeRun s 0 thaw = refuse (domainFrozen s thaw) .g 0 .none [ceilDiv (domainFrzAt s) 16] := by
  rw [counterFreezeRun, h, if_pos rfl]
  exact congrArg (fun m => refuse m .g 0 .none [ceilDiv (domainFrzAt s) 16])
    (foldl_spSend_from 0 3 (freezeTo (myChip s) thaw (domainFrzNo s thaw) (domainFrzAt s)) (torusChips s)
      (s := { s with mbx := { s.mbx with frzNo := domainFrzNo s thaw } }) hinj)

/-- What a domain freeze or thaw leaves: its number, nothing of the package's own freeze, and one FREEZE for each package. -/
theorem domainFrozen_spec (s : State) (thaw : Bool) : let u := domainFrozen s thaw
    u.mbx.frzNo = domainFrzNo s thaw ∧ u.obs = s.obs ∧ u.coll.spNet.length = s.coll.spNet.length + (torusChips s).length ∧
      ∀ k ∈ torusChips s, ∃ m, (⟨myChip s, 0, 3⟩, m) ∈ u.coll.spNet ∧ SpKindOf m = .freeze ∧ (SpDst m).chip = k ∧
        SpWord m 1 = domainFrzAt s ∧ SpWord m 2 / 2 ^ 32 % 2 ^ 32 = domainFrzNo s thaw % 2 ^ 32 := by
  refine ⟨rfl, rfl, by simp [domainFrozen, spSent], fun k hk => ⟨_, List.mem_append_right _ (List.mem_map_of_mem hk), ?_, ?_, SpWord_stamp_one .., ?_⟩⟩
  · exact SpKindOf_freezeTo _ _ _ _ (lt_of_mem_torusChips hk)
  · exact SpDst_freezeTo _ _ _ _ (lt_of_mem_torusChips hk)
  · exact SpWord_freezeTo_no (myChip_lt s) _ _ _ _

/-! ### FABRIC_RESET (R407) -/

/-- A command that is ended is done. -/
theorem endAll_done {s : State} {sv : Server} {r : Reason} {f : Nat} (hf : f ∈ mbxQueue s sv) : (mbxSlot (endAll s sv r) sv f).state = 2 := by
  rw [endAll]
  generalize mbxQueue s sv = l at hf
  induction l using List.reverseRecOn with
  | nil => exact absurd hf List.not_mem_nil
  | append_singleton l fn ih =>
    rw [List.foldl_append, List.foldl_cons, List.foldl_nil]
    by_cases hfn : f = fn
    · subst hfn
      rw [mbxSlot_refuse]
      rfl
    · rw [mbxSlot_refuse_ne (fun hkey => hfn (slotKey_injective hkey).2)]
      exact ih (by simpa [hfn] using hf)

/-- The firmware's commands ended leave the sequencer's queue. -/
theorem endAll_gq (s : State) (r : Reason) : (endAll s .f r).mbx.gq = s.mbx.gq :=
  List.foldlRecOn (motive := fun u : State => u.mbx.gq = s.mbx.gq) _ _ rfl fun u hu fn _ => by
    rw [refuse, answer, signal_mbx]
    exact hu

/-- A command of the sequencer begun leaves the firmware's slots. -/
theorem mbxSlot_begin_g (s : State) (fn f : Nat) : mbxSlot (begin_ s .g fn) .f f = mbxSlot s .f f :=
  eGet_eSet_ne _ _ _ fun hkey => absurd (slotKey_injective hkey).1 (by decide)

/-- The fabric woken, the firmware's commands ended, the pairs closed, and the fabric held in reset. -/
def fabricLost (s : State) : State := fabDown (closePairs (endAll (wakeBy s 1) .f .reset) 3) .aborted

theorem wakeBy_mbx (s : State) (src : Nat) : (wakeBy s src).mbx = s.mbx :=
  (wakeBy_keeps (w := [.boot, .clk, .regs]) (by decide) (by decide) (by decide) (.refl _ s)).only .mbx (by decide)

theorem fabricLost_mbx (s : State) : (fabricLost s).mbx = (endAll (wakeBy s 1) .f .reset).mbx := by
  have hclosed := closePairs_keeps (reason := 3) (w := [.dyn, .free, .host, .lane, .obs, .regs, .rel, .rte, .trig, .clk, .coll, .parts]) (by decide)
    (by decide) (by decide) (by decide) (by decide) (by decide) (by decide) (by decide) (by decide) (.refl _ (endAll (wakeBy s 1) .f .reset))
  exact (fabDown_keeps (st := .aborted) (by decide) (by decide) (by decide) (by decide) (by decide) (by decide) (by decide) hclosed).only .mbx (by decide)

theorem fabricLost_log (s : State) : (fabricLost s).log = s.log := by
  have hended := endAll_keeps (sv := .f) (r := .reset) (w := [.boot, .clk, .regs, .host, .mbx, .dyn, .free, .lane, .obs, .rel, .rte, .trig, .coll, .parts])
    (by decide) (by decide) (wakeBy_keeps (src := 1) (by decide) (by decide) (by decide) (.refl _ s))
  have hclosed := closePairs_keeps (reason := 3) (by decide) (by decide) (by decide) (by decide) (by decide) (by decide) (by decide) (by decide) (by decide)
    hended
  exact (fabDown_keeps (st := .aborted) (by decide) (by decide) (by decide) (by decide) (by decide) (by decide) (by decide) hclosed).only .log (by decide)

theorem fabricLost_held (s : State) : (fabricLost s).clk.fabHeld = true ∧ (fabricLost s).parts = [] ∧ (fabricLost s).host.cmds = [] ∧
    (fabricLost s).coll.ops = [] := ⟨rfl, rfl, rfl, rfl⟩

theorem fabricLost_fq (s : State) : (fabricLost s).mbx.fq = [] := by
  rw [fabricLost_mbx]
  exact mbxQueue_endAll (sv := .f)

theorem fabricLost_gq (s : State) : (fabricLost s).mbx.gq = s.mbx.gq := by rw [fabricLost_mbx, endAll_gq, wakeBy_mbx]

/-- Each of the firmware's commands ends RESET. -/
theorem fabricLost_ended {s : State} {f : Nat} (hf : f ∈ s.mbx.fq) :
    (mbxSlot (fabricLost s) .f f).state = 2 ∧ (mbxSlot (fabricLost s) .f f).status = Reason.reset.status.code := by
  have hwaiting : f ∈ mbxQueue (wakeBy s 1) .f := by
    rw [mbxQueue, wakeBy_mbx]
    exact hf
  rw [mbxSlot, fabricLost_mbx, ← mbxSlot]
  exact ⟨endAll_done hwaiting, (endAll_told hwaiting).1⟩

theorem exec_fabricReset {s : State} (h : takesUp s .g 0 5 = true) (hlen : rqPlen s .g 0 = 0) :
    exec (.fabricReset 0) s = .next (begin_ (fabricLost s) .g 0) :=
  congrArg Host.Outcome.next ((if_neg (by simp [fresh_of_takesUp h])).trans (mbxCommand_begun (fmt := fun s => rqPlen s .g 0 == 0)
    (priv := onlyZero 0) (k := fun s => begin_ (fabricLost s) .g 0) (slotTurn_of_takesUp h) (by simp [hlen]) rfl (fabricLost_gq s) rfl))

/-! ### FMP_RECOVER (R408) -/

theorem exec_fmpRecover_starts {s : State} (hlen : rqPlen s .g 0 = 8) (hword : rqW s .g 0 0 / 2 = 0) (hstage : stage s = 9)
    (h : takesUp s .g 0 6 = true) : exec (.fmpRecover 0) s = .next (begin_ (fmpStops s 3) .g 0) := by
  have hrun : recoverRun s 0 = begin_ (fmpStops s 3) .g 0 := by
    rw [recoverRun, fresh_of_takesUp h, hstage]
    rfl
  exact congrArg Host.Outcome.next (mbxCommand_begun (fmt := recoverFormat 0) (priv := onlyZero 0) (k := fun s => recoverRun s 0)
    (slotTurn_of_takesUp h) (recoverFormat_of_small hlen hword) rfl (endAll_gq s .fmpDown) hrun)

/-- The FMP running leaves the sequencer's slots and queue; its firmware slots are idle again. -/
theorem fmpUp_spec (s : State) (v : Nat) : (fmpUp s v).mbx.fmpst = 1 ∧ (fmpUp s v).mbx.version = v ∧ (fmpUp s v).mbx.gq = s.mbx.gq ∧
    ∀ fn, mbxSlot (fmpUp s v) .g fn = mbxSlot s .g fn := by
  refine List.foldlRecOn (motive := fun u : State => u.mbx.fmpst = 1 ∧ u.mbx.version = v ∧ u.mbx.gq = s.mbx.gq ∧
    ∀ fn, mbxSlot u .g fn = mbxSlot s .g fn) _ _ ⟨rfl, rfl, rfl, fun _ => rfl⟩ fun u hu f _ => ?_
  obtain ⟨hst, hversion, hgq, hslots⟩ := hu
  exact ⟨hst, hversion, hgq, fun fn => (eGet_eSet_ne _ _ _ fun hkey => absurd (slotKey_injective hkey).1 (by decide)).trans (hslots fn)⟩

theorem fmpUp_regs (s : State) (v : Nat) : (fmpUp s v).regs = s.regs :=
  ((fmpUp_keeps (w := [.mbx]) (by decide) (.refl _ s)).only .regs (by decide)).1

/-- The FMP down for good: its image does not verify. -/
def fmpDead (s : State) : State := { s with mbx := { s.mbx with fmpst := 2, version := 0 } }

section FmpBoots

variable {s : State} (hinj : injArmed s .fab .boot (fun k => k == 3) = false)
include hinj

theorem recoverBoot_some {v : Nat} (h : recoverImage s 0 = some v) : recoverBoot s 0 = refuse (fmpUp s v) .g 0 .none [v % 2 ^ 24] := by
  rw [recoverBoot, verifyImage, hinj, h]
  rfl

theorem recoverBoot_none (h : recoverImage s 0 = none) : recoverBoot s 0 = refuse (fmpDead s) .g 0 .signature [] := by
  rw [recoverBoot, verifyImage, hinj, h]
  rfl

end FmpBoots

section FmpRecoverEnds

variable {s : State} (h : goesOn s .g 0 6 = true) (hlen : rqPlen s .g 0 = 8) (hword : rqW s .g 0 0 / 2 = 0) (hstage : stage s = 9)
  (hdown : fmpRuns s = false)
include h hlen hword hstage hdown

theorem exec_fmpRecover_ends {m : State} (hgq : m.mbx.gq = s.mbx.gq) {r : Reason} {ws : List Nat} (hboot : recoverBoot s 0 = refuse m .g 0 r ws) :
    exec (.fmpRecover 0) s = .next (refuse m .g 0 r ws) := by
  have hbegun : (mbxSlot s .g 0).begun = true := by
    simp only [goesOn, Bool.and_eq_true] at h
    exact h.2
  have hrun : recoverRun s 0 = refuse m .g 0 r ws := by
    rw [recoverRun, hbegun, hstage, hdown]
    exact hboot
  exact congrArg Host.Outcome.next (mbxCommand_answered (fmt := recoverFormat 0) (priv := onlyZero 0) (k := fun s => recoverRun s 0)
    (slotTurn_of_goesOn h) (recoverFormat_of_small hlen hword) rfl hgq hrun)

end FmpRecoverEnds

/-! ### The sequencer's commands (R397-R408) -/

/-- SOUNDING_TAKE's answer: the first page of the snapshot it has taken. -/
theorem soundingTake_answers {s : State} (hwf : s.wf = true) (h : takesUp s .g 0 3 = true) (hlen : rqPlen s .g 0 = 8) (hword : rqW s .g 0 0 = 1)
    (noresp : List Nat) : ∃ u bs, exec (.soundingTake 0 noresp) s = .next u ∧ u.obs.snapshot = some bs ∧
      u.mbx.snapNo = (s.mbx.snapNo + 1) % 2 ^ 32 ∧ ofLE (slice bs 0 4) = u.mbx.snapNo ∧ isFrozen u = isFrozen s ∧ u.log = s.log ∧
      Told s u .g 0 .none (pageWords u bs 0) := by
  obtain ⟨bs, hsnap, hbytes, hno, hmbx, hfrozen, hlog⟩ := sounded_spec hwf noresp
  have hpages : 0 < soundingPages bs := by
    rw [soundingPages, ceilDiv]
    omega
  have hsnapNo : (refuse (sounded s noresp) .g 0 .none (pageWords (sounded s noresp) bs 0)).mbx.snapNo = (s.mbx.snapNo + 1) % 2 ^ 32 := by
    rw [(mbxFields_refuse ..).1, hmbx]
  refine ⟨_, bs, exec_soundingTake h hlen hword noresp hsnap (by rw [hmbx]) hpages, ?_, hsnapNo, by rw [hsnapNo, hno], ?_, (refuse_log ..).trans hlog, ?_⟩
  · rw [refuse_obs, hsnap]
  · rw [isFrozen_of_regs (refuse_regs ..), hfrozen]
  · have hwords : pageWords (refuse (sounded s noresp) .g 0 .none (pageWords (sounded s noresp) bs 0)) bs 0 = pageWords (sounded s noresp) bs 0 := by
      rw [pageWords, (mbxFields_refuse ..).1, ← pageWords]
    rw [hwords]
    exact told_refuse_of_parts (by rw [hmbx]) (by rw [hmbx]) ..

/-- COUNTER_FREEZE of the package alone. -/
theorem counterFreeze_freezes {s : State} (hwf : s.wf = true) (h : takesUp s .g 0 4 = true) (hlen : rqPlen s .g 0 = 8) (hword : rqW s .g 0 0 = 1) :
    ∃ u, exec (.counterFreeze 0) s = .next u ∧ isFrozen u = true ∧ Told s u .g 0 .none [timeNs s] ∧
      (isFrozen s = false → u.obs.latched = some s.regs ∧ fld u Reg.telFrzTime TelFrzTime.TIME = timeNs s % 2 ^ fldWidth TelFrzTime.TIME) := by
  have hmbx := freezeNow_mbx s false none
  refine ⟨_, exec_counterFreeze h hlen (by rw [hword]; decide) (by rw [hword]; decide) (by rw [hmbx])
    (counterFreezeRun_local (by rw [hword]; decide) false), ?_, told_refuse hmbx .., fun hthawed => ?_⟩
  · rw [isFrozen_of_regs (refuse_regs ..)]
    cases hfrozen : isFrozen s with
    | true => rw [freezeNow_frozen hfrozen, hfrozen]
    | false => rw [freezeNow_thawed hfrozen, isFrozen_frozenNow hwf]
  · rw [refuse_obs, fld_refuse, freezeNow_thawed hthawed]
    exact ⟨frozenNow_latches .., frozenNow_TIME hwf _⟩

/-- COUNTER_FREEZE's thaw of the package alone. -/
theorem counterThaw_thaws {s : State} (hwf : s.wf = true) (h : takesUp s .g 0 4 = true) (hlen : rqPlen s .g 0 = 8) (hword : rqW s .g 0 0 = 0) :
    ∃ u, exec (.counterThaw 0) s = .next u ∧ isFrozen u = false ∧ Told s u .g 0 .none [timeNs s] ∧ (isFrozen s = true → u.obs.latched = none) := by
  have hmbx := freezeNow_mbx s true none
  refine ⟨_, exec_counterThaw h hlen (by rw [hword]; decide) (by rw [hword]; decide) (by rw [hmbx])
    (counterFreezeRun_local (by rw [hword]; decide) true), ?_, told_refuse hmbx .., fun hfrozen => ?_⟩
  · rw [isFrozen_of_regs (refuse_regs ..)]
    cases hfrozen : isFrozen s with
    | true => rw [thaw_frozen hfrozen, isFrozen_thawedNow hwf]
    | false => rw [thaw_thawed hfrozen, hfrozen]
  · rw [refuse_obs, thaw_frozen hfrozen, thawedNow_latched]

/-- COUNTER_FREEZE or its thaw of the domain. -/
theorem exec_counterFreeze_domain {s : State} (h : takesUp s .g 0 4 = true) (hlen : rqPlen s .g 0 = 8) (hword : rqW s .g 0 0 = 2 ∨ rqW s .g 0 0 = 3)
    (hinj : injArmed s (.rtr 0) .spchk (fun _ => true) = false) :
    exec (if rqW s .g 0 0 = 3 then .counterFreeze 0 else .counterThaw 0) s =
      .next (refuse (domainFrozen s (rqW s .g 0 0 != 3)) .g 0 .none [ceilDiv (domainFrzAt s) 16]) := by
  rcases hword with hword | hword
  · have hthaw : (rqW s .g 0 0 != 3) = true := by rw [hword]; decide
    rw [if_neg (by omega), hthaw]
    exact exec_counterThaw (m := domainFrozen s true) h hlen (by rw [hword]; decide) (by rw [hword]; decide) rfl (counterFreezeRun_domain (by rw [hword]; decide) hinj true)
  · have hfreeze : (rqW s .g 0 0 != 3) = false := by rw [hword]; decide
    rw [if_pos hword, hfreeze]
    exact exec_counterFreeze (m := domainFrozen s false) h hlen (by rw [hword]; decide) (by rw [hword]; decide) rfl (counterFreezeRun_domain (by rw [hword]; decide) hinj false)

/-- FREEZE takes the next number; a thaw keeps it. -/
theorem domainFrzNo_of_word {s : State} (h : rqW s .g 0 0 = 2 ∨ rqW s .g 0 0 = 3) :
    domainFrzNo s (rqW s .g 0 0 != 3) = if rqW s .g 0 0 = 3 then (s.mbx.frzNo + 1) % 2 ^ 32 else s.mbx.frzNo := by
  rcases h with h | h <;> rw [h] <;> rfl

/-- ERRLOG_READ's answer. -/
theorem errlogRead_answers {s : State} {fn : Nat} (h : takesUp s .g fn 2 = true) (hlen : rqPlen s .g fn = 8) (hrsvd : bits (rqW s .g fn 0) 63 40 = 0)
    (hlo : 1 ≤ bits (rqW s .g fn 0) 39 32) (hhi : bits (rqW s .g fn 0) 39 32 ≤ 31) : ∃ u next, exec (.errlogRead fn) s = .next u ∧
      u.regs = s.regs ∧ u.log = s.log ∧
      Told s u .g fn .none ((errlogOldest s * 2 ^ 32 + next) :: wordsOf ((errlogPicked s fn).flatMap fun e => toLE 64 e.toNat)) := by
  obtain ⟨next, hanswer⟩ := errlogAnswer_eq s fn
  refine ⟨_, next, exec_errlogRead h hlen hrsvd hlo hhi, ?_⟩
  rw [hanswer]
  exact ⟨refuse_regs .., refuse_log .., told_refuse rfl ..⟩

/-- Settles O35: what each command of the sequencer is refused for, and what it answers and leaves. -/
theorem sequencerCommandsAnswer : Obligations.SequencerCommandsAnswer := by
  refine ⟨fun fn s => ⟨fun ki hki h hn => refused_outcome (exec_sequencer_malformed hki h hn),
      fun ki hki h hlen hword hfn => refused_outcome (exec_sequencer_unprivileged hki h hlen hword hfn)⟩,
    fun fn s h hlen hrsvd => ?_, fun noresp s hwf h hlen hword => ?_, fun s h hlen hhi hlo => ?_,
    fun s hwf h hlen => ⟨counterFreeze_freezes hwf h hlen, counterThaw_thaws hwf h hlen, fun hword hinj => ?_⟩,
    fun s h hlen => ?_, fun s h hlen hword hstage => ?_, fun s h hlen hword hstage hdown hinj => ?_⟩
  · intro m hm hmax
    obtain ⟨u, next, hexec, hregs, hlog, htold⟩ := errlogRead_answers h hlen hrsvd hm hmax
    refine ⟨u, errlogPicked s fn, next, hexec, hregs, hlog, List.length_take_le .., fun e he => mem_errlogPicked he, fun hfn hold => ?_, htold⟩
    subst hfn
    exact errlogPicked_of_oldest hold
  · obtain ⟨u, bs, hexec, hsnap, hno, hfirst, hfrozen, hlog, htold⟩ := soundingTake_answers hwf h hlen hword noresp
    exact ⟨u, bs, _, hexec, hsnap, hno, hfirst, hfrozen, hlog, by simpa [pageWords, soundingPages] using htold, rfl⟩
  · intro p bs
    by_cases hp : soundingPages bs ≤ p
    · exact ⟨_, exec_soundingPageRead h hlen hhi hlo (soundingAnswer_beyond rfl hp 0), refuse_regs .., refuse_obs .., fun _ => told_refuse rfl ..,
        fun hlt => absurd hp (Nat.not_le.2 hlt)⟩
    · exact ⟨_, exec_soundingPageRead h hlen hhi hlo (soundingAnswer_page rfl (Nat.not_le.1 hp) 0), refuse_regs .., refuse_obs ..,
        fun hle => absurd hle hp, fun _ => told_refuse rfl ..⟩
  · obtain ⟨hfrz, hobs, hcount, hsent⟩ := domainFrozen_spec s (rqW s .g 0 0 != 3)
    rw [domainFrzNo_of_word hword] at hfrz hsent
    refine ⟨_, domainFrzAt s, exec_counterFreeze_domain h hlen hword (hinj 0), ?_, ?_, told_refuse_of_parts rfl rfl .., rfl, ?_, ?_⟩
    · rw [(mbxFields_refuse ..).2.1, hfrz]
    · rw [refuse_obs, hobs]
    · rw [refuse_coll, hcount]
    · rw [refuse_coll]
      exact hsent
  · obtain ⟨hheld, hparts, hcmds, hops⟩ := fabricLost_held s
    have hgq : (fabricLost s).mbx.gq = [0] := (fabricLost_gq s).trans (slotTurn_facts (slotTurn_of_takesUp h)).1
    refine ⟨_, exec_fabricReset h hlen, hheld, hparts, hcmds, hops, fabricLost_fq s, hgq, by rw [mbxSlot_begin], fabricLost_log s, fun f hf => ?_⟩
    rw [mbxSlot_begin_g]
    exact fabricLost_ended hf
  · refine ⟨_, exec_fmpRecover_starts hlen hword hstage h, rfl, mbxQueue_endAll (sv := .f), by rw [mbxSlot_begin], ?_, ?_, fun f => rfl⟩
    · rw [begin_regs]
      exact ((fmpStops_keeps (w := [.host, .mbx]) (by decide) (by decide) (.refl _ s)).only .regs (by decide)).1
    · exact (fmpStops_keeps (st := 3) (w := [.host, .mbx]) (by decide) (by decide) (.refl _ s)).only .parts (by decide)
  · cases himage : recoverImage s 0 with
    | some v =>
      obtain ⟨hst, hversion, hgq, hslots⟩ := fmpUp_spec s v
      obtain ⟨-, -, hfmpst, hkept⟩ := mbxFields_refuse (fmpUp s v) .g 0 .none [v % 2 ^ 24]
      refine ⟨_, exec_fmpRecover_ends h hlen hword hstage hdown hgq (recoverBoot_some hinj himage), (refuse_regs ..).trans (fmpUp_regs s v), ?_, nofun⟩
      rintro _ ⟨⟩
      exact ⟨hfmpst.trans hst, hkept.trans hversion, told_of_slot (hslots 0) hgq (told_refuse rfl ..)⟩
    | none =>
      obtain ⟨-, -, hfmpst, -⟩ := mbxFields_refuse (fmpDead s) .g 0 .signature []
      exact ⟨_, exec_fmpRecover_ends (m := fmpDead s) h hlen hword hstage hdown rfl (recoverBoot_none hinj himage), refuse_regs .., nofun,
        fun _ => ⟨hfmpst, told_refuse_of_parts (m := fmpDead s) rfl rfl 0 .signature []⟩⟩

end Sys2Proof.Machine
